-- ==== Sys2Proof/Word.lean ====
section
/-! DEFINITION. Word types, and the sparse map type that memories and unit tables are held in. -/

set_option Elab.async false

namespace Sys2Proof

/-- A byte. -/
abbrev Byte := BitVec 8
/-- A 16-bit word: every status of R13. -/
abbrev W16 := BitVec 16
/-- A 32-bit word (R10, R95). -/
abbrev W32 := BitVec 32
/-- A 64-bit word (R10). -/
abbrev W64 := BitVec 64
/-- A digest or key half (R41, R434). -/
abbrev W256 := BitVec 256

/-- A sparse table: keys rise strictly, and no entry holds the value that an unlisted key has
(`SMap.wf`, Machine/SMap.lean), so equal tables are equal lists. -/
abbrev SMap (α : Type) := List (Nat × α)

/-- A byte-addressed memory, in the same form (`Host.Cell` pairs). -/
abbrev Mem := SMap Byte

end Sys2Proof
end

