-- ==== Sys2Proof/Syntax.lean ====
section
/-! DEFINITION. The commands of the block: one constructor per row of spec/opcode_table.json, in the table's order,
and the plain-data types of their operands. The table gives the rows no operands; they are the model's: the unit that
takes the step, and what the outside world supplies in it (log 5). -/

set_option Elab.async false

namespace Sys2Proof

/-- What a device read of host memory returns (R392): the data, or a failure by UR, CA or EP, or by time-out. -/
inductive ReadRes (α : Type) where
  | ok (a : α)
  | failed
  | timedOut
  deriving DecidableEq, Repr

/-- A registry entry of Table 8.4 (R200). `reserved` gathers the reserved words as read. -/
structure RegEntry where
  seq : Nat
  rillId : Nat
  classId : Nat
  function : Nat
  flags : Nat
  ringAddr : Nat
  ringEntries : Nat
  statusAddr : Nat
  tag : Nat
  reserved : Nat
  deriving DecidableEq, Repr

/-- A sequence-level header as the engine parses it (R212). `level` is level x 10; 0 where the codec has none. -/
structure SeqHdr where
  width : Nat
  height : Nat
  bitDepth : Nat
  chroma : Nat
  profile : Nat
  level : Nat
  matrix : Nat
  fullRange : Bool
  cropX : Nat
  cropY : Nat
  cropW : Nat
  cropH : Nat
  deriving DecidableEq, Repr

/-- What an engine finds in an access unit (R211, R212, R219): parsing belongs to the published codecs (log 6). `refs`
are the pictures that it references and `keep` those that stay references after it, by picture number; `ctu` is the
height of a CTU row in luma rows; `readsPoison` says that a poisoned block of a reference is among those it reads. -/
structure AuParse where
  seq : Option SeqHdr
  rap : Bool
  toolRefused : Bool
  isRef : Bool
  refs : List Nat
  keep : List Nat
  ctu : Nat
  readsPoison : Bool
  deriving DecidableEq, Repr

/-- A run of luma samples within one CTU row: columns `x0` to `x1` - 1. -/
structure CtuRun where
  row : Nat
  x0 : Nat
  x1 : Nat
  deriving DecidableEq, Repr

/-- A concealed area (R218): status 0x1010 or 0x1011, and the samples that it covers, which may begin or end inside a CTU
row. -/
structure Area where
  status : W16
  slice : Nat
  byteOffset : Nat
  runs : List CtuRun
  deriving DecidableEq, Repr

/-- The power domains of Table 13.1 that a command can gate or wake (R348). -/
inductive Domain where
  | core (n : Nat)
  | basin (n : Nat)
  | decode (n : Nat)
  | pixel
  | track
  deriving DecidableEq, Repr

/-- The rails of Table 17.2 (R455). -/
inductive Rail where
  | arith | soc | sram | dram | vpp | phy | io | aux
  deriving DecidableEq, Repr

/-- A scheduling unit that holds slices (Table 11.1): a cluster, a track lane or a copy lane. -/
inductive Lane where
  | cluster (n : Nat)
  | track (n : Nat)
  | copy (n : Nat)
  deriving DecidableEq, Repr

/-- The kinds of device read of Table 14.7 (R392). -/
inductive ReadKind where
  | ring (rill : Nat)
  | accessUnit (rill : Nat)
  | registry (entry : Nat)
  deriving DecidableEq, Repr

/-- The processors that the ICU watches (R427). -/
inductive Processor where
  | sage | sluice | weir | track
  | decoder (n : Nat)
  deriving DecidableEq, Repr

/-- A host memory request's payload (R387): a read, or a write with its bytes and EP attribute. -/
inductive HostAccess where
  | read (len : Nat)
  | write (data : List Byte) (ep : Bool)
  | unsupported
  deriving DecidableEq, Repr

/-- The SPDM requests that Sage supports (R443), and any other. `malformed` says that Sage must answer ERROR. -/
inductive SpdmCode where
  | getVersion | getCapabilities | negotiateAlgorithms | getDigests | getCertificate | challenge | getMeasurements
  | other
  deriving DecidableEq, Repr

/-- The transports of an SPDM request (R444). -/
inductive Transport where
  | doe | mctp
  deriving DecidableEq, Repr

/-- The bindings of Odrov (R446). -/
inductive Binding where
  | smbus | vdm
  deriving DecidableEq, Repr

/-- The MCTP messages that Odrov tells apart (R446, R359). -/
inductive MctpBody where
  | setEndpointId (eid : Nat)
  | control (request : List Byte)
  | pldmSetCap (watts : Nat)
  | pldmSensor (id : Nat) (state : Bool)
  | pldmBase (request : List Byte)
  | pldmOther
  | spdm (code : SpdmCode) (malformed : Bool) (request : List Byte)
  | other
  deriving DecidableEq, Repr

/-- A Vendor-Defined Message (R387). -/
inductive VdmBody where
  | mctp (body : MctpBody)
  | type0
  | type1
  deriving DecidableEq, Repr

/-- What boot finds (R440): whether the key record matches, which slots of the five subsystems verify under R439
(signatures belong to published standards: log 7), and whether the training record's digest holds (R333). -/
structure BootFinds where
  keyOk : Bool
  slotA : BitVec 5
  slotB : BitVec 5
  trainingOk : Bool
  deriving DecidableEq, Repr

/-- Whether an endorsement and a signature verify (R41, R60 steps 5 and 6, R439; log 7). -/
structure Verdict where
  endorsed : Bool
  signed : Bool
  deriving DecidableEq, Repr

/-- The two events of IMG_LOAD_COMPLETE (log 94): the end of the checks, with their verdict, and the end of the load. -/
structure LoadEvent where
  checks : Bool
  verdict : Verdict
  deriving DecidableEq, Repr

/-- The two events of INIT (Table 4.6, log 86): the instruction at the front of its core, and, `done`, the arrival of the oldest
partial that an INIT of mode 1 asked for. -/
structure InitEvent where
  core : Nat
  done : Bool
  deriving DecidableEq, Repr

/-- The two events of MOVE (R310, log 93): its start, and, `done`, its end. -/
structure MoveEvent where
  ctx : Nat
  done : Bool
  deriving DecidableEq, Repr

/-- The commands. -/
inductive Instr where
  | registerWrite (fn off : Nat) (wide : Bool) (val : W64)
  | rcRead (fn off : Nat) (event : W64)
  | w1cWrite (fn off : Nat) (val hwSet : W64)
  | w1sWrite (fn off : Nat) (val : W64)
  | lowWordRead (fn off : Nat)
  | lowWordWrite (fn off : Nat) (val : W32)
  | highWordWrite (fn off : Nat) (val : W32)
  | imgLoad
  | imgLoadComplete (e : LoadEvent)
  | imgLock
  | imgUnload
  | imgUnloadComplete
  | imgSwap (v : Verdict)
  | swapComplete
  | segmentRetire (seg : Nat)
  | commandIssue (ctx : Nat)
  | tileClaim (core : Nat)
  | load (core : Nat)
  | loadComplete (core : Nat)
  | xscan (core : Nat)
  | xscanComplete (core : Nat)
  | init (e : InitEvent)
  | stream (core : Nat)
  | drain (core : Nat)
  | spill (core : Nat)
  | drainComplete (core : Nat)
  | xptr (core : Nat)
  | fence (core : Nat)
  | publish (core : Nat)
  | waitcnt (core : Nat)
  | waitcntPass (core : Nat)
  | tileCommit (core : Nat)
  | commandKill (ctx : Nat)
  | coreIdle (core : Nat)
  | commandReissue (ctx : Nat)
  | coreFault (core : Nat) (status : W16)
  | tcFaultRead (core : Nat) (event : W64)
  | ringPoll (rill lateUs : Nat) (header : ReadRes (List Byte)) (descs : List (ReadRes (List Byte)))
  | auCopyComplete (rill : Nat) (data : List Byte)
  | statusRecordPeriodic (rill : Nat)
  | registryScan (entries : List (ReadRes (List Byte))) (stopAt : Option Nat)
  | rillDrainComplete (rill : Nat)
  | decodeTurn (engine : Nat) (parse : AuParse)
  | quantumExpire (engine work : Nat)
  | budgetExceeded (engine work slice byteOffset : Nat) (rest : List CtuRun) (areas : List Area) (outputs : List Nat)
  | pictureComplete (engine work : Nat) (areas : List Area) (outputs : List Nat)
  | engineUtilUpdate (engine util : Nat)
  | pixelCommand (pxe ctx rill frame : Nat)
  | regionComplete (pxe : Nat)
  | trackCommand (ctx rill frame : Nat)
  | trackCommandCommit (rill : Nat)
  | stepStart (ctx cluster : Nat)
  | sliceEnd (lane : Lane)
  | bringIn (ctx cluster : Nat)
  | bringInComplete (ctx cluster : Nat)
  | contextEvict (cluster waiting : Nat)
  | starvedTick (ctx cluster : Nat)
  | move (e : MoveEvent)
  | headExport (ctx rill frame : Nat)
  | dramRead (port block : Nat) (firstBad secondBad : Bool) (second : List Byte)
  | dramWrite (port block : Nat) (data : List Byte)
  | partialWrite (port addr : Nat) (data : List Byte) (firstBad secondBad : Bool) (second : List Byte)
  | bankRefresh (channel bank : Nat)
  | selfRefreshEntry
  | recalStart (dmc group : Nat)
  | recalEnd (dmc : Nat)
  | recalTimeout (dmc : Nat)
  | trainingCommand (dmc channel pattern : Nat)
  | trainingComplete (dmc : Nat) (pass : BitVec 136)
  | delayRegisterWrite (off : Nat) (val : W32)
  | tempDrift (dmc group temp : Nat)
  | bufferAlloc (pool : Nat)
  | bufferRelease (handle : W64)
  | cacheRefill (pool : Nat)
  | cisternHostFree (fn : Nat) (handle : W64)
  | poolReinitComplete (pool : Nat)
  | powerGate (d : Domain)
  | domainWake (d : Domain)
  | domainWakeComplete (d : Domain)
  | operatingPointChange (cluster : Nat)
  | clockSwitch (cluster : Nat)
  | powerSample (mw energyUj : Nat)
  | capAdjust
  | capWindowEnd (mw : Nat)
  | brakeAssert
  | brakeDeassert
  | clusterRestart (cluster : Nat)
  | vrAlertAssert
  | vrAlertDeassert
  | droopDetect (cluster mv : Nat)
  | droopRecover (cluster : Nat)
  | sprintEntry
  | sprintBudgetTick
  | excursionLimit (ampsMilli us : Nat)
  | residencyBinTick (minute : Nat)
  | thermalSample (temps : List Nat)
  | thermalLimitStep (cluster : Nat)
  | hardStop
  | flowLostAssert
  | coolantStopReached
  | flowLostDeassert
  | resume
  | autoResume
  | configRequest (fn off width : Nat) (write : Option W32)
  | hostMemoryRequest (fn bar off : Nat) (acc : HostAccess)
  | vendorDefinedMessage (fn : Nat) (body : VdmBody)
  | deviceReadFail (kind : ReadKind) (addr : Nat)
  | completionTimeout (kind : ReadKind) (addr : Nat)
  | lateCompletion (fn : Nat)
  | flrInitiate (fn : Nat)
  | dmaSilenced (fn : Nat)
  | flrComplete (fn : Nat)
  | vfEnableSet
  | vfEnableClear
  | d3hotEntry (fn : Nat)
  | standbyEntry
  | hotReset (boot : BootFinds)
  | perstAssert
  | fundamentalReset (boot : BootFinds)
  | deviceReady
  | sourceEdge (src : Nat) (rise : Bool)
  | groupDelivery (g : Nat)
  | holdoffExpire (g : Nat)
  | aowMatch (slot : Nat)
  | aowTimerExpire
  | thymeSet (val : W64)
  | alarmFire (k : Nat)
  | tsyncFrameSend
  | tsyncFrameReceive (edgeNs : Nat) (bits : BitVec 80)
  | tsyncTimeout
  | snapshotNow
  | snapInEdge
  | snapshotTimeMatch
  | snapshotComplete
  | watchdogExpire (p : Processor)
  | spdmRequest (t : Transport) (code : SpdmCode) (malformed busy : Bool) (request : List Byte)
  | mctpMessage (b : Binding) (body : MctpBody)
  | writeSlot (s : Nat) (v : Verdict)
  | activate (s : Nat) (v : Verdict)
  | commit (s : Nat)
  | advanceImage
  | writeBoard
  | mailboxCommandComplete
  | firmwareSwitch (s engine : Nat)
  | supplySample (vauxMv vddioMv : Nat)
  | vauxApply
  | aoPorRelease
  | railRemoval (r : Rail)
  | linkUp (rate width : Nat) (flit : Bool)
  deriving DecidableEq, Repr

end Sys2Proof
end

