-- ==== Sys2Proof/Machine/Status.lean ====
section
/-! DEFINITION. The status codes of the chapters' detail tables (R13), by name. -/

set_option Elab.async false

namespace Sys2Proof.Machine.Status

/-- R30. -/
abbrev addrReserved : W16 := 0x5001#16
/-- R30. -/
abbrev addrAbsent : W16 := 0x5002#16
/-- R30. -/
abbrev addrRegister : W16 := 0x5003#16
/-- R61. -/
abbrev unitsAbsent : W16 := 0x2001#16
/-- R61. -/
abbrev bindingAbsent : W16 := 0x2002#16
/-- R61. -/
abbrev decodeContexts : W16 := 0x2003#16
/-- R61. -/
abbrev capacity : W16 := 0x2004#16
/-- R61. -/
abbrev accTiles : W16 := 0x2006#16
/-- R61. -/
abbrev operandStore : W16 := 0x2007#16
/-- R61. -/
abbrev basinShare : W16 := 0x2008#16
/-- R61. -/
abbrev dramShare : W16 := 0x2009#16
/-- R61. -/
abbrev pinnedFit : W16 := 0x200A#16
/-- R61. -/
abbrev trackStore : W16 := 0x200B#16
/-- R60. -/
abbrev staging : W16 := 0x3001#16
/-- R60. -/
abbrev magic : W16 := 0x3002#16
/-- R60. -/
abbrev headerSize : W16 := 0x3003#16
/-- R60. -/
abbrev segmentFlag : W16 := 0x3004#16
/-- R60. -/
abbrev directory : W16 := 0x3005#16
/-- R60. -/
abbrev sectionType : W16 := 0x3006#16
/-- R60. -/
abbrev minFirmware : W16 := 0x3009#16
/-- R60. -/
abbrev regionOutside : W16 := 0x300A#16
/-- R60. -/
abbrev overlap : W16 := 0x300B#16
/-- R60. -/
abbrev fieldRange : W16 := 0x300C#16
/-- R60. -/
abbrev reference : W16 := 0x300D#16
/-- R60. -/
abbrev envelope : W16 := 0x300E#16
/-- R60. -/
abbrev nonKillableBound : W16 := 0x300F#16
/-- R60. -/
abbrev fallbackEntry : W16 := 0x3010#16
/-- R60. -/
abbrev segmentEntry : W16 := 0x3011#16
/-- R55. -/
abbrev loaderBusy : W16 := 0x3012#16
/-- R59. -/
abbrev loadAbandoned : W16 := 0x3013#16
/-- R54. -/
abbrev notPermitted : W16 := 0x3014#16
/-- R54. -/
abbrev lockWithoutImage : W16 := 0x3015#16
/-- R66. -/
abbrev segmentImageId : W16 := 0x3016#16
/-- R66. -/
abbrev notSwappable : W16 := 0x3017#16
/-- R67. -/
abbrev swapTime : W16 := 0x3018#16
/-- R60. -/
abbrev imgEndorsement : W16 := 0x8001#16
/-- R60. -/
abbrev imgSignature : W16 := 0x8002#16
/-- R60. -/
abbrev imgRollback : W16 := 0x8003#16
/-- R93. -/
abbrev saturated : W16 := 0x4001#16
/-- R92. -/
abbrev shiftClamped : W16 := 0x4002#16
/-- R105. -/
abbrev operandParity : W16 := 0x5011#16
/-- R105. -/
abbrev accParity : W16 := 0x5012#16
/-- R138. -/
abbrev emptyTileSpace : W16 := 0x1040#16
/-- R137. -/
abbrev indirectBound : W16 := 0x2011#16
/-- R139. -/
abbrev operandOverlap : W16 := 0x2012#16
/-- R138. -/
abbrev emptyWindow : W16 := 0x1041#16
/-- R212. -/
abbrev codedSize : W16 := 0x1001#16
/-- R212. -/
abbrev depthChroma : W16 := 0x1002#16
/-- R212. -/
abbrev profileLevel : W16 := 0x1003#16
/-- R212. -/
abbrev toolRefused : W16 := 0x1004#16
/-- R196. -/
abbrev auTooLarge : W16 := 0x1005#16
/-- R212. -/
abbrev frameTooLarge : W16 := 0x1006#16
/-- R196. -/
abbrev descriptorInvalid : W16 := 0x1007#16
/-- R228. -/
abbrev rawHeader : W16 := 0x1008#16
/-- R218. -/
abbrev dataRanOut : W16 := 0x1010#16
/-- R218. -/
abbrev corruptData : W16 := 0x1011#16
/-- R219. -/
abbrev referenceMissing : W16 := 0x1012#16
/-- R203. -/
abbrev entryMalformed : W16 := 0x1020#16
/-- R203. -/
abbrev noRillClass : W16 := 0x1021#16
/-- R195. -/
abbrev ringIndices : W16 := 0x1022#16
/-- R202. -/
abbrev duplicateRill : W16 := 0x1023#16
/-- R203. -/
abbrev functionOwner : W16 := 0x1024#16
/-- R223. -/
abbrev notCached : W16 := 0x1030#16
/-- R203. -/
abbrev noDecodeContext : W16 := 0x2020#16
/-- R220. -/
abbrev framePoolEmpty : W16 := 0x2022#16
/-- R203. -/
abbrev rillsFull : W16 := 0x2023#16
/-- R217. -/
abbrev decodeBudget : W16 := 0x9001#16
/-- R235. -/
abbrev cropEmpty : W16 := 0x1031#16
/-- R235. -/
abbrev windowTooLarge : W16 := 0x1032#16
/-- R242. -/
abbrev outputPoolEmpty : W16 := 0x2030#16
/-- R258. -/
abbrev maxTracks : W16 := 0x1050#16
/-- R254. -/
abbrev maxCand : W16 := 0x1051#16
/-- R256. -/
abbrev maxDet : W16 := 0x1052#16
/-- R267. -/
abbrev embeddingLost : W16 := 0x1053#16
/-- R258. -/
abbrev trackStoreFull : W16 := 0x2040#16
/-- R266. -/
abbrev embQueueFull : W16 := 0x2041#16
/-- R259. -/
abbrev trackPoisoned : W16 := 0x5041#16
/-- R311. -/
abbrev exportPool : W16 := 0x2050#16
/-- R342. -/
abbrev releaseFull : W16 := 0x2060#16
/-- R344. -/
abbrev releaseNotOwner : W16 := 0x2061#16
/-- R345. -/
abbrev releaseReinit : W16 := 0x2062#16
/-- R335. -/
abbrev recalBusy : W16 := 0x2070#16
/-- R325. -/
abbrev poisonMade : W16 := 0x5020#16
/-- R325. -/
abbrev poisonRead : W16 := 0x5021#16
/-- R326. -/
abbrev partialDiscarded : W16 := 0x5022#16
/-- R335. -/
abbrev recalLimit : W16 := 0x5030#16
/-- R335. -/
abbrev recalStopped : W16 := 0x5031#16
/-- R361. -/
abbrev capMissed : W16 := 0x7001#16
/-- R369. -/
abbrev sprintBudget : W16 := 0x7002#16
/-- R369. -/
abbrev sprintExcursion : W16 := 0x7003#16
/-- R369. -/
abbrev sprintResidency : W16 := 0x7004#16
/-- R369. -/
abbrev sprintStopped : W16 := 0x7005#16
/-- R369. -/
abbrev sprintNotAllowed : W16 := 0x7006#16
/-- R373. -/
abbrev coolantStop : W16 := 0x7010#16
/-- R362. -/
abbrev brake : W16 := 0x7011#16
/-- R374. -/
abbrev resumeIgnored : W16 := 0x7012#16
/-- R371. -/
abbrev thermalLimit : W16 := 0x7020#16
/-- R372. -/
abbrev priorHardStop : W16 := 0x7021#16
/-- R392. -/
abbrev ringReads : W16 := 0x6001#16
/-- R392. -/
abbrev auRead : W16 := 0x6002#16
/-- R392. -/
abbrev entryRead : W16 := 0x6003#16
/-- R428. -/
abbrev mismatchCleared : W16 := 0x5023#16
/-- R427. -/
abbrev watchdog : W16 := 0x9010#16
/-- R421. -/
abbrev unlocked : W16 := 0x9020#16
/-- R421. -/
abbrev stepped : W16 := 0x9022#16
/-- R442. -/
abbrev trainingDigest : W16 := 0x5032#16
/-- R438. -/
abbrev fwHeader : W16 := 0x8004#16
/-- R439. -/
abbrev fwEndorsement : W16 := 0x8005#16
/-- R439. -/
abbrev fwSignature : W16 := 0x8006#16
/-- R435. -/
abbrev fwRollback : W16 := 0x8007#16
/-- R441. -/
abbrev keyRecord : W16 := 0x8009#16
/-- R441. -/
abbrev noSlot : W16 := 0x8010#16
/-- R448. -/
abbrev mailboxBusy : W16 := 0x8011#16
/-- R448. -/
abbrev mailboxNotPermitted : W16 := 0x8012#16
/-- R450. -/
abbrev supplyLow : W16 := 0x8020#16
/-- R450. -/
abbrev supplySagged : W16 := 0x8021#16
/-- R443. -/
abbrev spdmError : W16 := 0x8030#16

end Sys2Proof.Machine.Status
end

