-- ==== Sys2Proof/Machine/SMap.lean ====
section
/-! DEFINITION. Operations on sparse tables. `d k` is what an unlisted key `k` has; a table lists no such entry and its
keys rise strictly, so equal tables are equal lists. -/

set_option Elab.async false

namespace Sys2Proof

variable {α : Type}

/-- The value of key `k`. -/
def SMap.get (d : Nat → α) : SMap α → Nat → α
  | [], k => d k
  | (a, v) :: m, k => if a = k then v else SMap.get d m k

/-- The entry of key `k`, where it is listed. -/
def SMap.find? : SMap α → Nat → Option α
  | [], _ => none
  | (a, v) :: m, k => if a = k then some v else SMap.find? m k

/-- Put an entry at its place. -/
def SMap.insert : SMap α → Nat → α → SMap α
  | [], k, v => [(k, v)]
  | (a, w) :: m, k, v =>
    if k < a then (k, v) :: (a, w) :: m
    else if k = a then (k, v) :: m
    else (a, w) :: SMap.insert m k v

/-- Take an entry away. -/
def SMap.erase : SMap α → Nat → SMap α
  | [], _ => []
  | (a, w) :: m, k => if a = k then SMap.erase m k else (a, w) :: SMap.erase m k

/-- Write a key: writing what an unlisted key has removes the entry. -/
def SMap.set [DecidableEq α] (d : Nat → α) (m : SMap α) (k : Nat) (v : α) : SMap α :=
  if v = d k then SMap.erase m k else SMap.insert m k v

/-- The canonical form. -/
def SMap.wf [DecidableEq α] (d : Nat → α) (m : SMap α) : Bool :=
  decide (m.Pairwise (fun x y => x.1 < y.1)) && m.all (fun x => decide (x.2 ≠ d x.1))

/-- Change the value of a key. -/
def SMap.upd [DecidableEq α] (d : Nat → α) (m : SMap α) (k : Nat) (f : α → α) : SMap α :=
  SMap.set d m k (f (SMap.get d m k))

/-- The table of the first `n` keys given by a function. -/
def SMap.ofFn [DecidableEq α] (d : Nat → α) (n : Nat) (f : Nat → α) : SMap α :=
  (List.range n).filterMap (fun k => if f k = d k then none else some (k, f k))

/-- Apply a function to every listed value. -/
def SMap.mapVals [DecidableEq α] (d : Nat → α) (m : SMap α) (f : Nat → α → α) : SMap α :=
  m.filterMap (fun x => if f x.1 x.2 = d x.1 then none else some (x.1, f x.1 x.2))

/-- Keep the entries whose key passes a test. -/
def SMap.keep (m : SMap α) (p : Nat → Bool) : SMap α := m.filter (fun x => p x.1)

/-- What a byte of a memory reads as when nothing has written it: 0x00. DESIGN CHOICE (log 3): the spec calls such
contents undefined. -/
def memDefault : Nat → Byte := fun _ => 0x00#8

/-- Read one byte of a memory. -/
def Mem.read (m : Mem) (a : Nat) : Byte := SMap.get memDefault m a

/-- Write one byte of a memory. -/
def Mem.write (m : Mem) (a : Nat) (v : Byte) : Mem := SMap.set memDefault m a v

/-- Write bytes from an address up. -/
def Mem.writeList : Mem → Nat → List Byte → Mem
  | m, _, [] => m
  | m, a, b :: bs => Mem.writeList (Mem.write m a b) (a + 1) bs

/-- Read `n` bytes from an address up. -/
def Mem.readList (m : Mem) : Nat → Nat → List Byte
  | _, 0 => []
  | a, n + 1 => Mem.read m a :: Mem.readList m (a + 1) n

/-- The canonical form of a memory. -/
def Mem.wf (m : Mem) : Bool := SMap.wf memDefault m

end Sys2Proof
end

