-- ==== Sys2Proof/Config.lean ====
section
/-! DEFINITION. The free values: what the spec leaves open, and the results of published standards that it names
without stating them. Nothing in Lean can evaluate them, so a statement about one holds for every value. -/

set_option Elab.async false

namespace Sys2Proof.Config

/-- The n-th free value drawn by the machine (`State.freeIdx` counts them). Used where the spec says that a choice or
a value is not specified: which handle an allocation returns (R341). Log 12. -/
opaque freeValue : Nat → Nat

/-- SHA-256 of a byte string (R41, R437, R440, R445: a published standard the spec names and does not state). Log 7. -/
opaque sha256 : List Byte → W256

/-- The state of a decoder of a codec (Table 2.9) after an access unit, from its state before it (R211 defers to the
published standards). Log 6. -/
opaque decoderState : (codec : Nat) → (before : Nat) → (unit : List Byte) → Nat

/-- The same after a picture whose buffer then holds `bytes`, which later pictures refer to. Log 6. -/
opaque decoderNext : (state : Nat) → (bytes : List Byte) → Nat

/-- Byte `i` of the frame buffer's planes as the codec reconstructs it. Log 6. -/
opaque reconByte : (state : Nat) → (i : Nat) → Byte

/-- The answer bytes of Odrov in a published protocol (MCTP, PLDM: R446, R447). Log 7. -/
opaque protocolReply : (request : List Byte) → List Byte

/-- The answer bytes of Sage to an SPDM request (R443): a published protocol, over the alias key that signs, the certificate
chain of slot 0, the requests answered since GET_VERSION on that transport, and Sage's own nonce. Log 7. -/
opaque spdmReply : (signing : W256) → (chain : List Byte) → (before : List (List Byte)) → (nonce : Nat) →
  (request : List Byte) → List Byte

/-- The identity key that HKDF derives from the device secret (R442). Log 81. -/
opaque identityKey : (deviceSecret : W256) → W256

/-- The alias key that HKDF derives from the device secret and the digest of the Sage firmware in service (R442). Log 81. -/
opaque aliasKey : (deviceSecret : W256) → (firmware : W256) → W256

/-- The alias certificate (R442): over the alias key, signed with the identity key, with the firmware measurement. Log 81. -/
opaque aliasCertificate : (identity : W256) → (signing : W256) → (firmware : W256) → List Byte

/-- Dunyorel's attestation root certificate (R442): the spec gives no contents. Log 81. -/
opaque rootCertificate : List Byte

/-- The value that the factory training record gives a delay register, by its BAR0 offset (R333): the spec does not give the
record's layout (Table 16.2). Log 82. -/
opaque trainingDelay : (record : List Byte) → (off : Nat) → W32

/-- The digest of the boot ROM (measurement block 1 of Table 16.5): the spec gives no contents. Log 7. -/
opaque bootRomDigest : W256

end Sys2Proof.Config
end

