-- ==== Sys2Proof/Machine/Operands.lean ====
section
/-! DEFINITION. Number formats and operand elements (R73 to R91, R106, R107): what each slot supplies to the array. -/

set_option Elab.async false

namespace Sys2Proof.Machine

/-! ## Format codes (Table 3.1) -/

def fmtInt4 : Nat := 0x0
def fmtUint4 : Nat := 0x1
def fmtInt3 : Nat := 0x2
def fmtInt2 : Nat := 0x3
def fmtTern : Nat := 0x4
def fmtBin : Nat := 0x5
def fmtFp4 : Nat := 0x6
def fmtLog4 : Nat := 0x7
def fmtCb16 : Nat := 0x8
def fmtCb256p : Nat := 0x9
def fmtAq4 : Nat := 0xA
def fmtNp8 : Nat := 0xB
def fmtNp10 : Nat := 0xC
def fmtAcc32 : Nat := 0xD
def fmtQ88 : Nat := 0xF

/-- Elements per slot (Table 3.1, R79). -/
def elemsPerSlot : Nat → Nat
  | 0x3 => 2 | 0x4 => 2 | 0x5 => 4 | _ => 1

/-- Planes of a nibble-plane format (R87). -/
def planesOf : Nat → Nat
  | 0xB => 2 | 0xC => 3 | _ => 1

/-- Largest element shift of a format (R91). -/
def maxShift : Nat → Nat
  | 0x6 => 2 | 0x7 => 7 | 0x8 => 7 | 0x9 => 7 | 0xB => 4 | 0xC => 6 | _ => 0

/-- Whether a format may be the column operand (R73, R74). -/
def colRole (f : Nat) : Bool := f < 8 || f = 0xB || f = 0xC

/-- Whether a format may be the row operand (R73). -/
def rowRole (f : Nat) : Bool := f < 10

/-- Whether a format may carry block exponents (R90). -/
def expRole (f : Nat) : Bool := f = 0x0 || f = 0x6

/-- Whether a format takes its elements from a codebook. -/
def isCodebook (f : Nat) : Bool := f = 0x8 || f = 0x9

/-- Whether a format holds more than one element in a slot. -/
def isPacked (f : Nat) : Bool := elemsPerSlot f ≠ 1

/-- Reduction elements per rank-1 update, but for planes (Table 3.4). -/
def elemsPerUpdate (col row : Nat) : Nat :=
  if col = 0x5 ∧ row = 0x5 then 4 else if isPacked col && isPacked row then 2 else 1

/-! ## Elements -/

/-- A multiplier operand and its element shift. -/
structure Elem where
  m : Int
  e : Nat
  deriving DecidableEq, Repr

def Elem.zero : Elem := { m := 0, e := 0 }

/-- FP4 (R75). -/
def decodeFp4 (c : Nat) : Elem :=
  let ex := field c 1 2
  let b : Int := (field c 0 1 : Nat)
  let m := if ex = 0 then b else 2 + b
  { m := if bitAt c 3 then -m else m, e := ex - 1 }

/-- LOG4 (R75). -/
def decodeLog4 (c : Nat) : Elem := { m := if bitAt c 3 then -1 else 1, e := field c 0 3 }

/-- TERN (R76). -/
def decodeTern (b : Nat) : Int :=
  match b with
  | 1 => 1
  | 3 => -1
  | _ => 0

/-- Element `t` of a slot code in a format that needs no codebook and no plane (R75, R76, R79, Table 4.2). -/
def decodeSlot (fmt c t : Nat) : Elem :=
  match fmt with
  | 0x0 => { m := signed 4 c, e := 0 }
  | 0x1 => { m := (c % 16 : Nat), e := 0 }
  | 0x2 => { m := signed 3 c, e := 0 }
  | 0x3 => { m := signed 2 (field c (2 * t) 2), e := 0 }
  | 0x4 => { m := decodeTern (field c (2 * t) 2), e := 0 }
  | 0x5 => { m := if bitAt c t then -1 else 1, e := 0 }
  | 0x6 => decodeFp4 c
  | 0x7 => decodeLog4 c
  | _ => { m := (c % 16 : Nat), e := 0 }

/-- A codebook entry byte (R82). -/
def decodeEntry (b : Byte) : Elem := { m := signed 4 b.toNat, e := field b.toNat 4 3 }

/-- The element shift of a nibble plane (R89). -/
def planeShift (fmt plane : Nat) : Nat :=
  match fmt with
  | 0xB => if plane = 0 then 4 else 0
  | 0xC => if plane = 0 then 6 else if plane = 1 then 2 else 0
  | _ => 0

/-- The part of a pixel that plane `plane` holds (R87). -/
def planePart (fmt pixel plane : Nat) : Nat :=
  match fmt with
  | 0xB => if plane = 0 then field pixel 4 4 else field pixel 0 4
  | 0xC => if plane = 0 then field pixel 6 4 else if plane = 1 then field pixel 2 4 else field pixel 0 2
  | _ => pixel % 16

/-! ## Where the elements of an update lie -/

/-- How an update of a STREAM is made up: `plane` its plane, `w` its count over planes, `colSlot` and `rowSlot` the
slot positions it reads, `colSub` and `rowSub` its first element in them. A packed operand whose slot holds more
elements than an update takes serves several updates (R81, R106; log 16). -/
structure Update where
  plane : Nat
  w : Nat
  colSlot : Nat
  colSub : Nat
  rowSlot : Nat
  rowSub : Nat
  deriving DecidableEq, Repr

def updateAt (col row u : Nat) : Update :=
  let n := elemsPerUpdate col row
  let w := u / planesOf col
  let pc := elemsPerSlot col / n
  let pr := elemsPerSlot row / n
  { plane := u % planesOf col, w := w, colSlot := w / pc, colSub := w % pc * n, rowSlot := w / pr,
    rowSub := w % pr * n }

/-- Updates that a reduction of `k` elements needs (Table 4.8, count_from_level). -/
def updatesFor (col row k : Nat) : Nat := ceilDiv k (elemsPerUpdate col row) * planesOf col

/-- Trailing element positions beyond the bound `k` in the last update (R107). -/
def tailFor (col row k : Nat) : Nat :=
  let n := elemsPerUpdate col row
  if n = 1 then 0 else (n - k % n) % n

/-- The largest tail that R107 allows. -/
def tailMax (col row : Nat) : Nat :=
  if elemsPerUpdate col row = 4 then 3 else if elemsPerUpdate col row = 2 then 1
  else if col = 0x5 ∨ row = 0x5 then 3
  else if isPacked col || isPacked row || row = 0x9 then 1 else 0

/-- H of R91. -/
def headroom (col row : Nat) : Int := 15 - (maxShift col + maxShift row : Nat)

/-- The tile base of R91 from the largest and smallest combined exponent. -/
def tileBase (col row : Nat) (hi lo : Int) : Int := max lo (hi - headroom col row)

/-- The block shift of a combined exponent, and whether it is clamped (R91). -/
def blockShift (x b : Int) : Nat × Bool := if x < b then (0, true) else ((x - b).toNat, false)

end Sys2Proof.Machine
end

