-- ==== Sys2Proof/Machine/Flags.lean ====
section
/-! DEFINITION. Accumulation with saturation, the sticky overflow flag, the statuses of tiles, and the output stage
(R93 to R96, R168, R175, R184 to R191). -/

set_option Elab.async false

namespace Sys2Proof.Machine

/-! ## Accumulation -/

/-- One accumulation of R93: the new accumulator, and whether the clamp changed it (R94). -/
def accumulate (a p : Int) : Int × Bool := (sat32 (a + p), sat32 (a + p) != a + p)

/-- One product of R93. -/
def product (c r : Elem) (sblk : Nat) : Int := c.m * r.m * 2 ^ (c.e + r.e + sblk)

/-- An ACC32 word as an integer (R95). -/
def accVal (w : BitVec 32) : Int := w.toInt

/-- The ACC32 word of an integer in range. -/
def accWord (v : Int) : BitVec 32 := BitVec.ofInt 32 v

/-- The status that prevails: 0x4001, then 0x4002, then 0x0000 (R94, R144). -/
def worseStatus (a b : BitVec 16) : BitVec 16 :=
  if a = 0x4001#16 ∨ b = 0x4001#16 then 0x4001#16
  else if a = 0x4002#16 ∨ b = 0x4002#16 then 0x4002#16
  else 0x0000#16

/-- The status of a tile's flags (R94). -/
def flagStatus (ovf clamp : Bool) : BitVec 16 :=
  if ovf then 0x4001#16 else if clamp then 0x4002#16 else 0x0000#16

/-! ## Steps Z, C, S, A, V -/

/-- Step Z (R184): the corrected value, and whether it clamped. -/
def stepZ (a zcorr : Int) : Int × Bool := (sat32 (a - zcorr), sat32 (a - zcorr) != a - zcorr)

/-- clamp40. -/
def clamp40 (v : Int) : Int := clampInt (-549755813888) 549755813887 v

/-- The largest of a list of values (R168, combine 1). -/
def maxOf : List Int → Int
  | [] => 0
  | [a] => a
  | a :: as => max a (maxOf as)

/-- Step C (R168) over a group's live rows, each a value with its tap's weight: the result, and whether it clamped. -/
def stepC (combine : Nat) (rows : List (Int × Int)) : Int × Bool :=
  match combine with
  | 1 => (maxOf (rows.map (·.1)), false)
  | 2 =>
    let v := (rows.map (fun x => x.2 * x.1)).foldl (· + ·) 0
    (sat32 v, sat32 v != v)
  | _ => (match rows with
    | x :: _ => x.1
    | [] => 0, false)

/-- Step S (R187). -/
def stepS (a b : Int) (s16 : Nat) : Int :=
  let e0 := field s16 7 8
  if e0 = 0 then 0
  else
    let e : Int := if e0 = 255 then 254 else (e0 : Nat)
    let m : Int := if e0 = 255 then 255 else ((128 + s16 % 128 : Nat) : Int)
    let p := if bitAt s16 15 then -(a * m) else a * m
    let sh := e - 118 + b
    if 0 ≤ sh then clamp40 (p * 2 ^ sh.toNat) else clamp40 (p.tdiv (2 ^ (-sh).toNat))

/-- Step A (R188). -/
def stepA (y bias : Int) : Int := clamp40 (y + bias)

/-- An activation table (Table 7.5): breakpoints t_1 to t_31, offsets and slopes of segments 0 to 31. -/
structure Act where
  bps : List Int
  offs : List Int
  slopes : List Int
  deriving DecidableEq, Repr

/-- The segment of a staging value (R190): how many leading breakpoints it has reached. -/
def segmentOf (x : Int) : List Int → Nat
  | [] => 0
  | t :: ts => if t ≤ x then segmentOf x ts + 1 else 0

/-- Step V (R190). -/
def stepV (x : Int) (t : Act) : Int :=
  let k := segmentOf x t.bps
  let anchor := t.bps.getD (k - 1) 0
  clamp40 (t.offs.getD k 0 + (t.slopes.getD k 0 * (x - anchor)).tdiv 4096)

/-! ## Step Q -/

/-- trunc(y): the integer part of a staging value. -/
def truncY (y : Int) : Int := y.tdiv 65536

/-- The magnitudes of FP4 codes 0 to 7 in units of 2^-16 (Table 3.2). -/
def fp4Mags : List Int := [0, 32768, 65536, 98304, 131072, 196608, 262144, 393216]

/-- The number of leading entries of an ascending list that are not above a value. -/
def countLe (v : Int) : List Int → Nat
  | [] => 0
  | t :: ts => if t ≤ v then countLe v ts + 1 else 0

/-- FP4 conversion (Table 7.6): code 0x0 when the magnitude is 0. -/
def toFp4 (y : Int) : Nat :=
  let k := countLe y.natAbs fp4Mags - 1
  if k = 0 then 0 else if y < 0 then 8 + k else k

/-- LOG4 conversion (Table 7.6): 2^(s - 4) in units of 2^-16 is 2^(s + 12). -/
def toLog4 (y : Int) : Nat :=
  if y = 0 then 0
  else
    let s := countLe y.natAbs ((List.range 8).map (fun s => (2 : Int) ^ (s + 12))) - 1
    if y < 0 then 8 + s else s

/-- Step Q (R191): the code of an element of out_fmt. -/
def stepQ (fmt : Nat) (y : Int) : Nat :=
  match fmt with
  | 0x0 => unsigned 4 (clampInt (-8) 7 (truncY y))
  | 0x1 => unsigned 4 (clampInt 0 15 (truncY y))
  | 0x2 => unsigned 4 (clampInt (-4) 3 (truncY y))
  | 0x3 => unsigned 2 (clampInt (-2) 1 (truncY y))
  | 0x4 => unsigned 2 (clampInt (-1) 1 (truncY y))
  | 0x5 => if y < 0 then 1 else 0
  | 0x6 => toFp4 y
  | 0x7 => toLog4 y
  | _ => unsigned 16 (clampInt (-32768) 32767 (y.tdiv 256))

/-- Step Q of an AQ4 output channel (R186): trunc(y) plus the zero point, clamped once (log 18). -/
def stepQAq4 (z : Nat) (y : Int) : Nat := (clampInt 0 15 (truncY y + (z : Int))).toNat

/-! ## Channel entries -/

/-- A channel entry (Table 7.3). -/
structure ChanEntry where
  scale : Nat
  act : Nat
  outAq4 : Bool
  zero : Nat
  bias : Int
  zcorr : Int
  deriving DecidableEq, Repr

/-- Steps S, A, V and Q on a combined value: the element's code (R175). -/
def outputCode (fmt : Nat) (c : ChanEntry) (act : Option Act) (a b : Int) : Nat :=
  let y0 := stepA (stepS a b c.scale) c.bias
  let y := match act with
    | some t => stepV y0 t
    | none => y0
  if c.outAq4 then stepQAq4 c.zero y else stepQ fmt y

end Sys2Proof.Machine
end

