-- ==== Sys2Proof/Machine/Image.lean ====
section
/-! DEFINITION. The consumed sections of a pipeline image as the device holds them after a load (R42 to R51), and the
device's own reading of placed sections where it is fixed at load. -/

set_option Elab.async false

namespace Sys2Proof.Machine

/-- A PARTITION region entry (Table 2.7, R44). -/
structure Region where
  base : Nat
  size : Nat
  kind : Nat
  owner : Nat
  deriving DecidableEq, Repr

/-- A context entry (Table 2.8, R46). `entry` is its index in the CONTEXT_TABLE. -/
structure CtxEntry where
  id : Nat
  kind : Nat
  cls : Nat
  fn : Nat
  priority : Nat
  clusterMask : Nat
  flags : Nat
  basinKib : Nat
  operandKib : Nat
  accTiles : Nat
  maxBatch : Nat
  dramMib : Nat
  sliceUs : Nat
  budgetUs : Nat
  cmdSection : Nat
  fallback : Nat
  succ : List Nat
  entry : Nat
  deriving DecidableEq, Repr

/-- A rill class entry (Table 2.9, R47). -/
structure RillClass where
  id : Nat
  codec : Nat
  maxDepth : Nat
  maxWidth : Nat
  maxHeight : Nat
  profileMask : Nat
  maxLevel : Nat
  flags : Nat
  rateNum : Nat
  rateDen : Nat
  pollUs : Nat
  budgetFactor : Nat
  firstCtx : Nat
  staleUs : Nat
  deriving DecidableEq, Repr

/-- A decoder binding entry (Table 2.10, R48). -/
structure DecBind where
  cls : Nat
  engineMask : Nat
  contexts : Nat
  auPool : Nat
  framePool : Nat
  cacheFrames : Nat
  deriving DecidableEq, Repr

/-- A pool entry (Table 2.11, R49). -/
structure PoolEntry where
  id : Nat
  owner : Nat
  size : Nat
  count : Nat
  region : Nat
  deriving DecidableEq, Repr

/-- A segment entry (Table 2.12, R50). -/
structure SegEntry where
  id : Nat
  regionA : Nat
  regionB : Nat
  ctxs : List Nat
  deriving DecidableEq, Repr

/-- A fallback entry (Table 2.13, R51). `seg` is the segment field of its section. -/
structure FbEntry where
  primary : Nat
  fallback : Nat
  hold : Nat
  seg : Nat
  deriving DecidableEq, Repr

/-- A placed section (R42): its directory index, type, load address, length and segment. -/
structure Placed where
  dirIndex : Nat
  type : Nat
  load : Nat
  len : Nat
  seg : Nat
  deriving DecidableEq, Repr

/-- The loaded base image. -/
structure Image where
  imageId : W64
  version : W32
  security : Nat
  minFirmware : Nat
  deterministic : Bool
  regions : List Region
  channelOwner : List Nat
  wayOwner : List Nat
  ctxs : List CtxEntry
  classes : List RillClass
  binds : List DecBind
  pools : List PoolEntry
  segs : List SegEntry
  fbs : List FbEntry
  placed : List Placed
  /-- DRAM scratch of each context, as R473 places it: (context, base). -/
  scratch : List (Nat × Nat)
  deriving DecidableEq, Repr

/-- The image when none is loaded. -/
def Image.empty : Image :=
  { imageId := 0, version := 0, security := 0, minFirmware := 0, deterministic := false, regions := [],
    channelOwner := [], wayOwner := [], ctxs := [], classes := [], binds := [], pools := [], segs := [], fbs := [],
    placed := [], scratch := [] }

end Sys2Proof.Machine
end

