-- ==== Sys2Proof/Machine/State.lean ====
section
/-! DEFINITION. The state of the device, and the machine right after reset. Everything the spec names as state stands
here; registers that only show other state are computed from it (Machine/Views.lean), the rest are in `State.regs`. -/

set_option Elab.async false

namespace Sys2Proof.Machine

/-! ## The device as a whole -/

/-- The three parts (Table 0.1). -/
inductive Part where
  | sw7360 | sw7340 | sw7320
  deriving DecidableEq, Repr

/-- Where the device stands in its life: without VAUX, in AO power-on reset (R459), held by PERST_N (R465), booting
(R440), ready (R396), in recovery (R441), in standby (R404), or after a hard stop (R372). -/
inductive Life where
  | noAux | auxReset | held | booting | ready | recovery | standby | hardStop
  deriving DecidableEq, Repr

/-- DMC_STATE[1:0] (Table 12.6): self-refresh 0, running 1, entering 2, leaving 3. -/
inductive DramMode where
  | selfRefresh | running | entering | leaving
  deriving DecidableEq, Repr

/-- Which rails lie in range (R455). -/
structure Rails where
  arith : Bool
  soc : Bool
  sram : Bool
  dram : Bool
  vpp : Bool
  phy : Bool
  io : Bool
  aux : Bool
  deriving DecidableEq, Repr

/-- The sideband pins (Table 17.6), each held as asserted; TSYNC_ROLE as its level; VID as its code. -/
structure Pins where
  perst : Bool
  flowLost : Bool
  brake : Bool
  vrAlert : Bool
  roleMaster : Bool
  wake : Bool
  stby : Bool
  thermtrip : Bool
  vid : Byte
  deriving DecidableEq, Repr

/-- The link as HEP_LINK shows it (R381, R405), and whether it is in L2 (R404). -/
structure LinkSt where
  rate : Nat
  width : Nat
  flit : Bool
  l2 : Bool
  deriving DecidableEq, Repr

/-- The security fuses (Table 16.1). Key of `arbFw`: subsystem. -/
structure Fuses where
  rootKeyHash : W256
  deviceSecret : W256
  arbFw : SMap W64
  arbImage : W64
  deriving DecidableEq, Repr

/-- A firmware slot's header fields (Table 16.3). -/
structure SlotInfo where
  version : W32
  security : Nat
  length : Nat
  deriving DecidableEq, Repr

/-- A copy of the slot table (R437): bit s of each vector is subsystem s. -/
structure SlotTable where
  seq : W32
  activeB : BitVec 5
  validA : BitVec 5
  validB : BitVec 5
  crcOk : Bool
  deriving DecidableEq, Repr

/-- Flash (R436). `bytes` holds each byte complemented: one that nothing has written reads as erased, 0xFF. Key of
`slots`: 2 s for slot A of subsystem s, 2 s + 1 for slot B. `inService`: bit s is 1 where slot B of subsystem s is in
service (R448). -/
structure FlashSt where
  bytes : Mem
  copy0 : SlotTable
  copy1 : SlotTable
  slots : SMap SlotInfo
  inService : BitVec 5
  deriving DecidableEq, Repr

/-- The device-wide state. `role` is TSYNC_ROLE as latched (R465); `hardStopRec` is the AO record of R372; `aoNs` is
AO-domain time (log 2); `ucode` is the microcode in service by engine (R449). -/
structure Dev where
  part : Part
  life : Life
  recovery : W16
  rails : Rails
  pins : Pins
  link : LinkSt
  role : Bool
  hardStopRec : Bool
  dramMode : DramMode
  aoNs : Nat
  fuses : Fuses
  flash : FlashSt
  ucode : SMap W32
  deriving DecidableEq, Repr

/-! ## Functions and the link -/

/-- An FLR, VF disable or D3hot entry in progress on a function (R398, R402, R404). -/
inductive FlrSt where
  | idle | initiated | silenced
  deriving DecidableEq, Repr

/-- One function of the endpoint: configuration bytes that differ from their reset (R382, log 8), the shadows of R10
and R11 (a register's PF offset and a word), FLR progress, MSI-X table by dword index and PBA bits (R394), reads whose
completions are outstanding, and how many of those are to be discarded on arrival (R392, R398). -/
structure FnState where
  cfg : Mem
  readShadow : Option (Nat × W32)
  writeShadow : Option (Nat × W32)
  flr : FlrSt
  msix : SMap W32
  pba : List Nat
  lateReads : Nat
  deriving DecidableEq, Repr

def FnState.reset : FnState :=
  { cfg := [], readShadow := .none, writeShadow := .none, flr := .idle, msix := [], pba := [], lateReads := 0 }

/-- Completion statuses of Table 14.5. -/
inductive Cpl where
  | ok | ep | unsupported | abort | retry
  deriving DecidableEq, Repr

/-- PLDM completion codes that Odrov answers with: ERROR_INVALID_PLDM_TYPE (R446), ERROR_NOT_READY (R447), and its refusal of a
cap or a sensor that Table 13.4 does not list, whose code the spec does not give (log 104). -/
inductive PldmError where
  | invalidType | notReady | outOfRange
  deriving DecidableEq, Repr

/-- What the device sends: posted writes and interrupt messages under a requester ID (R390), completions (R387),
replies of Sage and Odrov (R444, R446), and TSYNC frames (R419). -/
inductive OutMsg where
  | hostWrite (fn addr : Nat) (data : List Byte)
  | interrupt (fn vector : Nat) (msix : Bool)
  | completion (fn : Nat) (st : Cpl) (data : List Byte)
  | spdmReply (t : Transport) (error : Bool) (data : List Byte)
  | mctpReply (b : Binding) (data : List Byte)
  | pldmError (b : Binding) (e : PldmError)
  | vdmUnsupported
  | tsyncFrame (bits : BitVec 80)
  deriving DecidableEq, Repr

/-! ## Loader and image -/

/-- GLB_IMG_STATE.state (Table 2.15). -/
inductive ImgState where
  | empty | loading | loaded | refused | unloading
  deriving DecidableEq, Repr

/-- A load or swap command taken: what it sampled (R54); `seg` is the segment of a swap. -/
structure LoadJob where
  addr : Nat
  len : Nat
  swapTime : Nat
  seg : Nat
  deriving DecidableEq, Repr

/-- A segment of the loaded base (R66 to R71). `switchT` and `switchCount` give the switch point of R68: frames with a
capture timestamp from a nonzero `switchT` on, or stamped once the swap count reached `switchCount`. `oldPlaced` are
the sections of the previous version while it retires; `placed` those of the version in service for new frames. -/
structure SegRun where
  id : Nat
  retiring : Bool
  activeB : Bool
  epoch : Nat
  switchT : Nat
  switchCount : Nat
  placed : List Placed
  oldPlaced : List Placed
  fbs : List FbEntry
  oldFbs : List FbEntry
  deriving DecidableEq, Repr

/-- The loader (R53 to R72). `swapCount` counts swaps without wrapping (the epoch is its low 16 bits); `lastStamp` is
the latest capture timestamp that ingest has stamped (R67), if any; `signed` is the digest of the loaded base's signed
bytes and `chain` the segment chain of Table 16.5; `placing` says that the load in progress has passed its checks, with its
frame map in force (R56, R59, R474). -/
structure Loader where
  state : ImgState
  placing : Bool
  locked : Bool
  deterministic : Bool
  load : Option LoadJob
  swap : Option LoadJob
  swapCount : Nat
  status : W16
  failSection : W16
  failEntry : W32
  failNeed : W64
  failHave : W64
  image : Image
  segs : List SegRun
  lastStamp : Option Nat
  signed : W256
  chain : W256
  deriving DecidableEq, Repr

/-! ## DRAM -/

/-- A write window (R124): the bytes lo to hi - 1 of an output of a context's command. -/
structure Window where
  ctx : Nat
  cmd : Nat
  lo : Nat
  hi : Nat
  deriving DecidableEq, Repr

/-- A DMC log entry (Table 12.5). -/
structure DmcLog where
  time : W64
  channel : Nat
  kind : Nat
  port : Nat
  block : Nat
  deriving DecidableEq, Repr

/-- One DRAM controller: a recalibration in progress with the delays in force at its start (R335), a training command
in progress (R336), the log (newest first) and its count (R337), each bank's refreshes, as a count (R332), and the
training rows (R319, R336). The key of both is local channel x 16 + bank; a training row holds the pattern that the last
training command wrote to it, where there has been one. -/
structure Dmc where
  recal : Option (Nat × SMap W32)
  recalStartNs : Nat
  training : Option Nat
  log : List DmcLog
  logHead : Nat
  refreshes : SMap Nat
  trainRows : SMap (Option Nat)
  deriving DecidableEq, Repr

def Dmc.reset : Dmc :=
  { recal := .none, recalStartNs := 0, training := .none, log := [], logHead := 0, refreshes := [], trainRows := [] }

/-- A block read that found a mismatch, by its port, until the command of the unit that made it uses it (R325, log 77):
`bad` says that the re-read did not clear it. -/
structure ReadFind where
  port : Nat
  block : Nat
  bad : Bool
  deriving DecidableEq, Repr

/-- A request that waits at its port (R332, R335, log 78). -/
inductive DramReq where
  | read (port block : Nat) (firstBad secondBad : Bool) (second : List Byte)
  | write (port block : Nat) (data : List Byte)
  | part (port addr : Nat) (data : List Byte) (firstBad secondBad : Bool) (second : List Byte)
  | hostRead (addr len : Nat)
  | hostWrite (addr : Nat) (data : List Byte) (ep : Bool)
  deriving DecidableEq, Repr

/-- DRAM: bytes, poisoned blocks (block number = address / 64) in ascending order, the frame map where it differs from
the default map of R320 (frame to group x 1,024 + stripe), the window table, the two controllers, the finds of reads that
their units have still to use, and the requests that wait at their ports, oldest first. -/
structure Dram where
  bytes : Mem
  poison : SMap Bool
  frameMap : SMap Nat
  windows : List Window
  dmcs : SMap Dmc
  finds : List ReadFind
  held : List DramReq
  deriving DecidableEq, Repr

/-! ## Cistern -/

/-- A handle (R339). -/
structure Handle where
  addr : Nat
  pool : Nat
  deriving DecidableEq, Repr

/-- A pool (R340 to R345, R347). `cache` and the ring together are its free store: the ring's entries `head` to
`tail` - 1 lie in DRAM, entry i at ringAddr + 8 x (i mod cap). -/
structure Pool where
  id : Nat
  owner : Nat
  size : Nat
  count : Nat
  base : Nat
  ringAddr : Nat
  cap : Nat
  cache : List Handle
  head : Nat
  tail : Nat
  lowest : Nat
  fails : Nat
  reinit : Bool
  deriving DecidableEq, Repr

/-! ## Ingest and decode -/

/-- The rill states of Table 8.3. -/
inductive RillSt where
  | detached | attached | refused | faulted | draining
  deriving DecidableEq, Repr

/-- An access-unit copy in flight, or an access unit queued on a decode context (R199, R214). `stamp` is the swap
count when it was stamped (R68); `index` is its descriptor's index. A refused descriptor keeps its place in the order with
its nonzero `status`, and no buffer (R196). -/
structure AuJob where
  rill : Nat
  status : W16
  index : Nat
  handle : Handle
  length : Nat
  captureTs : Nat
  cookie : Nat
  flags : Nat
  stamp : Nat
  deriving DecidableEq, Repr

/-- A rill (R193 to R208, Table 8.3). `nextIndex` is the next descriptor to read; `k`, `byIndex` and `lastTs` are the
ring-order count, the choice and the previous timestamp of R208; `clock0` and `clockN` are the rill clock of R225; `discs` is the
discontinuity after which its last output frame came; `holds` the fallback holds of R307: (primary context, first frame of
the hold, frame after its last); `att` counts the rill's attachments; `work` are its work cycles of late, newest first, as
(time, cycles) (R197). -/
structure Rill where
  st : RillSt
  cls : Nat
  fn : Nat
  ringAddr : Nat
  ringEntries : Nat
  statusAddr : Nat
  tag : Nat
  seq : Nat
  entry : Nat
  recorded : Option (Nat × RegEntry)
  readIndex : Nat
  nextIndex : Nat
  failedPolls : Nat
  copies : List AuJob
  k : Nat
  byIndex : Bool
  lastTs : Nat
  ctx : Option Nat
  lastStatus : W16
  framesOut : Nat
  concealed : Nat
  abandoned : Nat
  refused : Nat
  droppedNoBuf : Nat
  staleDropped : Nat
  auWaits : Nat
  lastCaptureTs : Nat
  clock0 : Option Nat
  clockN : Nat
  discs : Nat
  holds : List (Nat × Nat × Nat)
  att : Nat
  work : List (Nat × Nat)
  deriving DecidableEq, Repr

def Rill.reset : Rill :=
  { st := .detached, cls := 0, fn := 0, ringAddr := 0, ringEntries := 0, statusAddr := 0, tag := 0, seq := 0,
    entry := 0, recorded := .none, readIndex := 0, nextIndex := 0, failedPolls := 0,
    copies := [], k := 0, byIndex := false, lastTs := 0, ctx := .none, lastStatus := 0, framesOut := 0,
    concealed := 0, abandoned := 0, refused := 0, droppedNoBuf := 0, staleDropped := 0, auWaits := 0,
    lastCaptureTs := 0, clock0 := .none, clockN := 0, discs := 0, holds := [], att := 0, work := [] }

/-- The number by which the device tells the frames of a rill apart: its frame_index (R213), with the attachment that the
frame came from in the bits above it. What the device writes of it are its low 64 bits. -/
def frameNo (att index : Nat) : Nat := (att - 1) * 2 ^ 64 + index

/-- A picture being decoded, or decoded and not yet output (R214 to R219). `ctu` is the height of a CTU row in luma rows;
`keep` the pictures that stay references after it; `disc` numbers the discontinuity that it comes after (R193, R225);
`state` is the decoder's state after its access unit (R315). -/
structure Pic where
  num : Nat
  au : AuJob
  hdr : SeqHdr
  handle : Handle
  isRef : Bool
  keep : List Nat
  ctu : Nat
  disc : Nat
  state : Nat
  work : Nat
  concealed : Bool
  abandoned : Bool
  substituted : Bool
  deriving DecidableEq, Repr

/-- A decode context (R48, R214 to R219): the binding that reserved it, the rill it serves, its queue, the sequence
header in force, the picture in progress, pictures decoded and not yet output, reference pictures by number, the refusal
in force (R212), the running average (R216), the order number of its reservation (R203), whether references are being
substituted (R219), how many discontinuities have taken effect in it (R193), and the decoder's state, which follows from
the rill's access units (R315). -/
structure DecCtx where
  bind : Nat
  rill : Option Nat
  queue : List AuJob
  hdr : Option SeqHdr
  pic : Option Pic
  held : List Pic
  refs : List Nat
  nextPic : Nat
  refusing : Option W16
  a0 : Nat
  avg : Nat
  order : Nat
  substituting : Bool
  disc : Nat
  state : Nat
  deriving DecidableEq, Repr

/-- A decode engine: the context on it, the context it served last, saturation (R214, R227). -/
structure Engine where
  current : Option Nat
  last : Nat
  saturated : Bool
  deriving DecidableEq, Repr

/-- A decoded frame in DRAM (R213, R222). `index` is its number (`frameNo`); `clock` its rill clock value (R225). Whether a command names it follows from the flows, queues and engines. -/
structure Frame where
  rill : Nat
  index : Nat
  handle : Handle
  ctx : Nat
  hdr : SeqHdr
  captureTs : Nat
  cookie : Nat
  stamp : Nat
  isRef : Bool
  cached : Bool
  picNum : Nat
  concealed : Bool
  abandoned : Bool
  substituted : Bool
  raw : Bool
  clock : Nat
  deriving DecidableEq, Repr

/-- The device's view of a ring in host memory that it writes (R221, R229, R273). -/
structure Ring where
  prod : Nat
  cons : Nat
  lost : Nat
  restart : Bool
  deriving DecidableEq, Repr

def Ring.reset : Ring := { prod := 0, cons := 0, lost := 0, restart := false }

/-- Ingest (R198 to R206, R221): the rills that differ from detached, the pending scan, its event ring. -/
structure Ingest where
  rills : SMap Rill
  scanPending : Bool
  evt : Ring
  ctxs : SMap DecCtx
  engines : SMap Engine
  frames : List Frame
  deriving DecidableEq, Repr

def Engine.reset : Engine := { current := .none, last := 31, saturated := false }

/-! ## Pixel path, track engine, metadata -/

/-- The geometry of R254 that Sluice keeps with an item: clipped source rectangle and scaled box. -/
structure Geom where
  sx : Nat
  sy : Nat
  sw : Nat
  sh : Nat
  ox : Nat
  oy : Nat
  pw : Nat
  ph : Nat
  deriving DecidableEq, Repr

/-- An item (R242, R284 to R286): a region ready for its target model context. `handle` is its pool buffer (dest 0),
`slot` its basin slot as (cluster, first byte) (dest 1); `head` says that a track or copy context reads its outputs. -/
structure Item where
  rill : Nat
  frame : Nat
  region : Nat
  track : Nat
  captureTs : Nat
  stamp : Nat
  addr : Nat
  handle : Option Handle
  slot : Option (Nat × Nat)
  geom : Geom
  clock : Nat
  head : Bool
  concealed : Bool
  fallback : Bool
  deriving DecidableEq, Repr

/-- A crop request of the track engine (R266). -/
structure CropReq where
  pixelCtx : Nat
  target : Nat
  rill : Nat
  frame : Nat
  track : Nat
  x : Int
  y : Int
  w : Nat
  h : Nat
  deriving DecidableEq, Repr

/-- A scaler engine running a pixel command (R234, R242): the ready marks still to send, each with its target. -/
structure PxeRun where
  ctx : Nat
  rill : Nat
  frame : Nat
  region : Nat
  marks : List (Nat × Item)
  deriving DecidableEq, Repr

/-- An embedding-queue entry (R266, R267): the embedding once delivered; or that it is lost, with the status that the
frame applying it reports, and whether an error of R316 is the cause (R277). -/
structure EmbReq where
  rill : Nat
  track : Nat
  frame : Nat
  data : Option (List Byte)
  lost : Bool
  status : W16
  error : Bool
  deriving DecidableEq, Repr

/-- The track states of Table 10.7. -/
inductive TrackSt where
  | tentative | confirmed | lost
  deriving DecidableEq, Repr

/-- A live track as the engine finds it: its rill, its number, and the record of the track store that it occupies (R257,
R258). -/
structure TrackRef where
  rill : Nat
  id : Nat
  store : Nat
  deriving DecidableEq, Repr

/-- A track record (Table 10.7) at work. `store` is the record of the track store it occupies (R258). -/
structure Track where
  rill : Nat
  id : Nat
  store : Nat
  st : TrackSt
  cls : Nat
  fLast : Nat
  cx : Int
  cy : Int
  w : Int
  h : Int
  vx : Int
  vy : Int
  score : Int
  hits : Nat
  misses : Nat
  embValid : Bool
  inside : Nat
  dwellFired : Nat
  lineSide : Nat
  lineValid : Nat
  fConfirm : Nat
  dwell0 : Nat
  dwell1 : Nat
  emb : List Byte
  deriving DecidableEq, Repr

/-- Per rill, what the track engine keeps beside its records (R247, R258, R265, R274): `running` is the track command in
progress, as (context, frame, lane); `discs` the frames before which a discontinuity comes, until a track command has
taken it (R265). -/
structure RillTrk where
  nextId : Nat
  running : Option (Nat × Nat × Nat)
  lastFrame : Option Nat
  cappedFrames : Nat
  storeFull : Nat
  embLost : Nat
  cropsSkipped : Nat
  maxRefused : Nat
  rulesSeen : Nat
  discs : List Nat
  deriving DecidableEq, Repr

def RillTrk.reset : RillTrk :=
  { nextId := 1, running := .none, lastFrame := .none, cappedFrames := 0, storeFull := 0, embLost := 0,
    cropsSkipped := 0, maxRefused := 0, rulesSeen := 0, discs := [] }

/-- A frame on its way from decode to its records (R247, R308). `started`: its fixed regions have been taken by a pixel
command; `waits`: the contexts of the head items still to commit, drop or skip; `heads`: committed head items as (context, batch index,
byte address of output operand 0, item); `ctxs`: track and copy contexts whose command for the frame is still to come; `fn` and `tag` are the rill's;
`dropped`: a head item was dropped as stale; then the frame-end flags of Table 10.13 and the highest status. -/
structure Flow where
  rill : Nat
  frame : Nat
  fn : Nat
  tag : Nat
  captureTs : Nat
  stamp : Nat
  started : Bool
  waits : List Nat
  heads : List (Nat × Nat × Nat × Item)
  ctxs : List Nat
  dropped : Bool
  concealed : Bool
  abandoned : Bool
  substituted : Bool
  fallback : Bool
  headSkipped : Bool
  errorSeen : Bool
  embLost : Bool
  status : W16
  deriving DecidableEq, Repr

/-- The pixel path and the track engine. `lastPxe` is the engine that took the last pixel command (R282); `tracks` are
the live tracks; `cache` are the records that the track cache holds, as (record of the store, its 128 bytes), most recently
used first (R259). -/
structure TrackEng where
  pxes : SMap PxeRun
  lastPxe : Nat
  crops : List CropReq
  embq : List EmbReq
  tracks : List TrackRef
  perRill : SMap RillTrk
  flows : List Flow
  rings : SMap Ring
  storePeak : Nat
  cache : List (Nat × List Byte)
  deriving DecidableEq, Repr

/-! ## Sluice, clusters, cores -/

/-- What Sluice keeps of a command for the rest of its step: bounds, dimensions, the number of its first issue and its
latest generation (R137, R153, R160). -/
structure Kept where
  cmd : Nat
  bounds : List Nat
  w : Nat
  h : Nat
  issue : Nat
  gen : Nat
  deriving DecidableEq, Repr

/-- A step in progress (R284 to R287): `cmd` is the position in the list of the command to issue or issued; `delayed`
says that its issue has waited for the window table (R124). -/
structure StepRun where
  cluster : Nat
  items : List Item
  cmd : Nat
  startNs : Nat
  kept : List Kept
  delayed : Bool
  deriving DecidableEq, Repr

/-- A context being brought in to a cluster (R292, R295, R296), in place of `out` where one is evicted; the basin unit,
accumulator slots and operand line that it is to have. -/
structure MoveRun where
  cluster : Nat
  out : Option Nat
  place : Nat
  slots : List Nat
  line : Nat
  deriving DecidableEq, Repr

/-- A context's record (R281 to R303). `place` is its basin share's first 64 KiB unit on each cluster where it is
resident, `slots` and `line0` its accumulator slots and first operand line there (R99, R291); `holds` the lanes it holds
(cluster n as n, track lane k as 16 + k, copy lane k as 64 + k); `next` its next-step cluster (R289), and of a copy context
its next command (log 38); `starvedNs` the time of its last count of R297, or of the start of that wait; `committed` the last
command that it has committed, with its status (R138, R144, R159). -/
structure CtxRun where
  place : SMap Nat
  slots : SMap (List Nat)
  line0 : SMap Nat
  queue : List Item
  step : Option StepRun
  moving : Option MoveRun
  holds : List Nat
  runnable : Bool
  next : Option Nat
  estNs : Int
  blockedNs : Nat
  residentNs : SMap Nat
  starvedNs : Option Nat
  overrunNs : Nat
  fault : Option W16
  receiving : Bool
  committed : Option (Nat × W16)
  deriving DecidableEq, Repr

def CtxRun.reset : CtxRun :=
  { place := [], slots := [], line0 := [], queue := [], step := .none, moving := .none, holds := [], runnable := false,
    next := .none, estNs := 0, blockedNs := 0, residentNs := [], starvedNs := .none, overrunNs := 0,
    fault := .none, receiving := false, committed := .none }

/-- Where the work-counter record of shard `shard` lies (R142): byte `addr` of the basin of `cluster`, where its fields
are; `complete` says that its port has reported the shard complete (R144). -/
structure WorkRec where
  cluster : Nat
  shard : Nat
  addr : Nat
  complete : Bool
  deriving DecidableEq, Repr

/-- A command that has been issued and has not committed (R137 to R146). `bounds` are the bounds kept from its first
issue, `w` and `h` the dimensions of R160; `issue` numbers its first issue and `gen` is its generation; `killed` says that
its records are closed; `spent` are the cores that claim no further tile on this issue (R143). -/
structure CmdRun where
  cmd : Nat
  issue : Nat
  gen : Nat
  bounds : List Nat
  w : Nat
  h : Nat
  recs : List WorkRec
  killed : Bool
  spent : List Nat
  deriving DecidableEq, Repr

/-- What the output stage and the feeder read of a scale table at a tile's INIT (R177, R182): the entry and activation of
each column, and the AQ4 channels. -/
structure ScaleRead where
  chans : List (ChanEntry × Option Act)
  aq4 : List Nat
  deriving DecidableEq, Repr

/-- An accumulator slot (R111): ACC32 words by i x 128 + j, the tile base B, the overflow and clamp summaries; what was read
of the scale table for it; and how many elements of the accumulator loop its STREAMs have taken at the position `outer` of
the outer reduction levels (R163, R182). -/
structure Tile where
  acc : SMap W32
  base : Int
  ovf : Bool
  clamp : Bool
  scale : ScaleRead
  outer : Nat
  taken : Nat
  deriving DecidableEq, Repr

def Tile.zero : Tile :=
  { acc := [], base := 0, ovf := false, clamp := false, scale := { chans := [], aq4 := [] }, outer := 0, taken := 0 }

/-- A LOAD, outstanding or performed (R104, R117, R118): lines `line` to `line + lines - 1` of a bank are those that it
writes, and `copies` gives each run as (source nibble address, nibbles, destination nibble address in its store). `own` says
that it belongs to the command and generation that the core runs. -/
structure LoadRec where
  operand : Nat
  bank : Bool
  line : Nat
  lines : Nat
  copies : List (Nat × Nat × Nat)
  pc : Nat
  own : Bool
  deriving DecidableEq, Repr

/-- An INIT of mode 1 whose partial has not arrived (R117): its slot, and the partial's byte address. -/
structure InitRec where
  slot : Nat
  addr : Nat
  pc : Nat
  deriving DecidableEq, Repr

/-- A DRAIN or SPILL whose writes are handed to the on-chip network (R113, R126): the context and number of its tile on the
core, its slot, and what it writes as 4-bit pieces by nibble address (R78). -/
structure DrainRec where
  ctx : Nat
  tile : Nat
  slot : Nat
  nibs : List (Nat × Nat)
  deriving DecidableEq, Repr

/-- A tile past step 3 of R122: its number on the core, its command and generation, its record and index, its status. Its
commit is sent once no write of it is outstanding, and has not reached its port. -/
structure DoneTile where
  no : Nat
  ctx : Nat
  cmd : Nat
  gen : Nat
  record : WorkRec
  tile : Nat
  status : W16
  deriving DecidableEq, Repr

/-- The feeder's block-exponent pointers (Table 4.10). -/
structure Xptr where
  colBank : Bool
  colLine : Nat
  colStep : Nat
  rowBank : Bool
  rowLine : Nat
  rowStep : Nat
  deriving DecidableEq, Repr

/-- One firing of the sequencer: an instruction at loop indices (R134). -/
structure Fire where
  pc : Nat
  idx : List Nat
  deriving DecidableEq, Repr

/-- TC_STATE.state (Table 4.13). -/
inductive CoreSt where
  | gated | idle | running | killing | committing | halted
  deriving DecidableEq, Repr

/-- A tile core (R98, R104, R111 to R127). Lines and slots are physical. `tileNo` numbers the tiles that the core has
started, without end; `record` is the record of the running tile; `fires` are the firings left of it; `done` are the tiles
whose commit has not reached its port, oldest first; `killed` says that a kill waits for the core's clock; `kept` are the
LOAD records of R118; `layout` and `xlayout` are rows and row_lines of the last window LOAD of operands 0 and 2 (R165). -/
structure Core where
  st : CoreSt
  ctx : Nat
  cmd : Nat
  issue : Nat
  gen : Nat
  record : WorkRec
  tile : Nat
  tileNo : Nat
  done : List DoneTile
  killed : Bool
  started : Nat
  fires : List Fire
  loaded : Option Nat
  slots : SMap Tile
  bankA : Mem
  bankB : Mem
  codebook : Mem
  loads : List LoadRec
  kept : List LoadRec
  inits : List InitRec
  layout : Nat × Nat
  xlayout : Nat × Nat
  scanning : Option (Nat × Int)
  drains : List DrainRec
  xptr : Xptr
  waiting : Option (Nat × Nat)
  status : W16
  lastStatus : W16
  pc : Nat
  parity : Nat
  deriving DecidableEq, Repr

def Core.reset : Core :=
  { st := .gated, ctx := 0, cmd := 0, issue := 0, gen := 0,
    record := { cluster := 0, shard := 0, addr := 0, complete := false }, tile := 0, tileNo := 0, done := [],
    killed := false, started := 0, fires := [], loaded := .none,
    slots := [], bankA := [], bankB := [], codebook := [], loads := [], kept := [], inits := [], layout := (0, 0),
    xlayout := (0, 0), scanning := .none, drains := [],
    xptr := { colBank := false, colLine := 0, colStep := 0, rowBank := false, rowLine := 0, rowStep := 0 },
    waiting := .none, status := 0, lastStatus := 0, pc := 0, parity := 0 }

/-- Sluice, the clusters and the cores. `holder` is the context that holds a cluster; `heldIdle` the clusters held
idle under R303; `groups` the collective groups of R154 as (context, clusters); `lastHeld` the context that last held
a lane (R299), by lane key; `slices` the Thyme time at which a lane's slice ends (R298), `ended` the lanes whose slice has
ended inside a non-killable command (R302). -/
structure Sluice where
  ctxs : SMap CtxRun
  cmds : SMap CmdRun
  cores : SMap Core
  basins : SMap Mem
  holder : SMap (Option Nat)
  heldIdle : List Nat
  lastHeld : SMap Nat
  slices : SMap Nat
  ended : List Nat
  groups : List (Nat × List Nat)
  deriving DecidableEq, Repr

/-! ## Weir -/

/-- A cluster's power state (R351 to R364, R371, R376). `want` is the point a change in progress is to reach, once
the rail has settled (R352); `thermPt` the thermal-limit point, where 0 stands for below point 0, n + 1 for n, and 8 for no
limit. -/
structure ClPwr where
  point : Nat
  want : Option Nat
  thermPt : Nat
  temp : Nat
  stopped : Bool
  stretched : Bool
  engaged : Bool
  capPt : Nat
  deriving DecidableEq, Repr

def ClPwr.reset : ClPwr :=
  { point := 0, want := .none, thermPt := 8, temp := 0, stopped := false, stretched := false, engaged := false,
    capPt := 7 }

/-- Sprint (R365 to R370): in force, budget in nanojoules, time at which it last ended, the time with a cluster at a sprint
point in the minute in progress and in the minutes before it (newest first), in nanoseconds, and how many minutes of AO time
have ended, kept in AO. -/
structure Sprint where
  on : Bool
  budgetNj : Int
  endedNs : Option Nat
  binNs : Nat
  bins : List Nat
  minutes : Nat
  deriving DecidableEq, Repr

/-- The coolant stop (R373, R374). -/
inductive Coolant where
  | none | entering | stopped
  deriving DecidableEq, Repr

/-- Weir. `duty` is in eighths (R361); `powerMw` is the last 10 ms window and `sampleMw` the last sample (R360); `restart` the clusters still to restart after a brake (R363); `live` the
domains that are not gated, `waking` those being woken (R348); `switched` says that Weir's firmware has been switched in the
10 ms window in progress (R449); `flowReleasedNs` when FLOW_LOST_N was last released and
`coolantNs` the Thyme time at which the last coolant stop began (R298). -/
structure Weir where
  cls : SMap ClPwr
  railMv : Nat
  sprint : Sprint
  duty : Nat
  powerMw : Nat
  sampleMw : Nat
  lastMissNs : Option Nat
  coolant : Coolant
  flowReleasedNs : Option Nat
  coolantNs : Nat
  brake : Bool
  restart : List Nat
  live : List Domain
  waking : List Domain
  thermal : Bool
  switched : Bool
  deriving DecidableEq, Repr

/-! ## ICU, Thyme, Sage, Odrov -/

/-- A device error-log entry (Table 15.4). -/
structure ElogEntry where
  time : W64
  status : W16
  unit : Nat
  index : Nat
  ctx : Nat
  fn : Nat
  detail : W64
  rep : W32
  seq : W32
  deriving DecidableEq, Repr

/-- The ICU (R407 to R413, R428 to R430): a bit per source; timers by group in CTRL cycles; the log newest first. -/
structure Icu where
  pend : BitVec 512
  cond : BitVec 512
  delivered : BitVec 512
  timers : SMap Nat
  log : List ElogEntry
  logHead : Nat
  deriving DecidableEq, Repr

/-- The follower lock states of Table 15.3. -/
inductive Lock where
  | free | acquiring | locked | holdover
  deriving DecidableEq, Repr

/-- Thyme (R417 to R426). `prev` is (T, local edge time) of the last valid frame. -/
structure Thyme where
  now : W64
  lock : Lock
  prev : Option (Nat × Nat)
  good : Nat
  trimPpb : Int
  offset : Int
  snapBusy : Bool
  snapRetained : Bool
  snapCause : Nat
  deriving DecidableEq, Repr

/-- The mailbox commands of Table 16.6. -/
inductive MboxCmd where
  | writeSlot | activate | commit | advanceImage | writeBoard
  deriving DecidableEq, Repr

/-- A mailbox command in progress (R448, R451): what it sampled, the status it will end with, fuse bits to program. -/
structure MboxJob where
  cmd : MboxCmd
  sub : Nat
  addr : Nat
  len : Nat
  status : W16
  goal : Nat
  deriving DecidableEq, Repr

/-- What the key-derivation engine and Sage make at boot (R442): the two private keys and the alias certificate. -/
structure SageKeys where
  identity : W256
  signing : W256
  cert : List Byte
  deriving DecidableEq, Repr

/-- Sage and Odrov (R440 to R449). `keys` is there once Sage has started; `pendingSwitch`: bit s says that an activated slot of
subsystem s waits to go into service (R449); `switched` the engines already switched; `doeConn` and `mctpConn` the SPDM
connection state by transport: the requests answered since its GET_VERSION. -/
structure Sage where
  keys : Option SageKeys
  mbox : Option MboxJob
  pendingSwitch : BitVec 5
  switched : List Nat
  doeConn : Option (List (List Byte))
  mctpConn : Option (List (List Byte))
  eidSmb : Nat
  eidVdm : Nat
  deriving DecidableEq, Repr

/-! ## The state -/

/-- Why a step may stop for good. One constructor: nothing else in the spec leaves a command without an effect. -/
inductive Fault where
  /-- Raised by RAIL_REMOVAL of VDD_DRAM, VPP_DRAM or VAUX in standby with PERST_N deasserted: R462 requires those rails,
  and R461 says that the behaviour is then not specified. Safe: the model stops where the device goes on in an
  unspecified way. -/
  | railOutOfRange
  deriving DecidableEq, Repr

/-- Why a command has no meaning in the model. -/
inductive Refusal where
  /-- A command that the model does not give a meaning yet; raised by an arm of `exec` only. Safe. -/
  | notModelled (mnemonic : String)
  deriving DecidableEq, Repr

/-- The machine. `regs` holds every register that stores a value of its own, by BAR0 offset (Machine/RegTable.lean);
a register not listed has its reset value. -/
structure State where
  pending : List Instr
  out : List OutMsg
  freeIdx : Nat
  dev : Dev
  fns : SMap FnState
  regs : SMap W64
  ldr : Loader
  dram : Dram
  pools : List Pool
  ing : Ingest
  trk : TrackEng
  slu : Sluice
  weir : Weir
  icu : Icu
  thy : Thyme
  sage : Sage
  deriving DecidableEq, Repr

/-! ## Reset -/

def Loader.reset : Loader :=
  { state := .empty, placing := false, locked := false, deterministic := false, load := .none, swap := .none, swapCount := 0, status := 0,
    failSection := 0, failEntry := 0, failNeed := 0, failHave := 0, image := Image.empty, segs := [], lastStamp := .none,
    signed := 0, chain := 0 }

def Dram.reset : Dram := { bytes := [], poison := [], frameMap := [], windows := [], dmcs := [], finds := [], held := [] }

def Ingest.reset : Ingest :=
  { rills := [], scanPending := false, evt := Ring.reset, ctxs := [], engines := [], frames := [] }

def TrackEng.reset : TrackEng :=
  { pxes := [], lastPxe := 3, crops := [], embq := [], tracks := [], perRill := [], flows := [], rings := [], storePeak := 0,
    cache := [] }

def Sluice.reset : Sluice :=
  { ctxs := [], cmds := [], cores := [], basins := [], holder := [], heldIdle := [], lastHeld := [], slices := [], ended := [], groups := [] }

def Weir.reset : Weir :=
  { cls := [], railMv := 750, sprint := { on := false, budgetNj := 0, endedNs := .none, binNs := 0, bins := [], minutes := 0 }, duty := 8,
    powerMw := 0, sampleMw := 0, lastMissNs := .none, coolant := .none, flowReleasedNs := .none, coolantNs := 0, brake := false, restart := [],
    live := [], waking := [], thermal := false, switched := false }

def Icu.reset : Icu := { pend := 0, cond := 0, delivered := 0, timers := [], log := [], logHead := 0 }

def Thyme.reset : Thyme :=
  { now := 0, lock := .free, prev := .none, good := 0, trimPpb := 0, offset := 0, snapBusy := false,
    snapRetained := false, snapCause := 0 }

def Sage.reset : Sage :=
  { keys := .none, mbox := .none, pendingSwitch := 0, switched := [], doeConn := .none, mctpConn := .none,
    eidSmb := 0, eidVdm := 0 }

/-- Factory firmware in both slots (Ordering information of 00_scope.md); the numbers are the model's (log 9). -/
def factorySlot : SlotInfo := { version := 0x00010000#32, security := 0, length := 4096 }

def Dev.reset : Dev :=
  { part := .sw7360, life := .booting, recovery := 0,
    rails := { arith := true, soc := true, sram := true, dram := true, vpp := true, phy := true, io := true,
               aux := true },
    pins := { perst := false, flowLost := false, brake := false, vrAlert := false, roleMaster := true,
              wake := false, stby := false, thermtrip := false, vid := 0x64#8 },
    link := { rate := 0, width := 0, flit := false, l2 := false },
    role := true, hardStopRec := false, dramMode := .selfRefresh, aoNs := 0,
    fuses := { rootKeyHash := 0, deviceSecret := 0, arbFw := [], arbImage := 0 },
    flash :=
      { bytes := [],
        copy0 := { seq := 1#32, activeB := 0, validA := 0x1F#5, validB := 0x1F#5, crcOk := true },
        copy1 := { seq := 0#32, activeB := 0, validA := 0x1F#5, validB := 0x1F#5, crcOk := true },
        slots := [], inService := 0 },
    ucode := [] }

/-- The machine right after reset: PERST_N has just been deasserted and Sage boots (R396). -/
def State.reset : State :=
  { pending := [], out := [], freeIdx := 0, dev := Dev.reset, fns := [], regs := [], ldr := Loader.reset,
    dram := Dram.reset, pools := [], ing := Ingest.reset, trk := TrackEng.reset, slu := Sluice.reset,
    weir := Weir.reset, icu := Icu.reset, thy := Thyme.reset, sage := Sage.reset }

end Sys2Proof.Machine
end

