-- ==== Sys2Proof/Machine/RegTable.lean ====
section
/-! DEFINITION. The register map: where every register lies, its width, access type, reset value and the bits it has
(R1, R31, R32, R53, R128, R155, R229, R230, R245, R279, R280, R318, R346, R347, R379, R405, R431, R432, R433, R452).
A register is named by its BAR0 offset in the physical function. -/

set_option Elab.async false

namespace Sys2Proof.Machine

/-- The access types of Table 0.6 (R6). -/
inductive Access where
  | ro | rw | w1c | w1s | wo | rc | rwl
  deriving DecidableEq, Repr

/-- The register blocks of Tables 1.8 and 1.9; `ring` are the metadata ring registers of Table 10.15. -/
inductive Block where
  | glb | hep | icu | thyme | weir | sage | odrov | sluice | cistern | ingest | dec | pxe | trk | ring | tc | cl | dmc
  deriving DecidableEq, Repr

/-- The registers, by the spec's names. -/
inductive Reg where
  | GLB_ID | GLB_ID_CHECK | GLB_CAP_UNITS | GLB_IMG_ADDR | GLB_IMG_LEN | GLB_IMG_CTRL | GLB_IMG_STATE
  | GLB_IMG_STATUS | GLB_IMG_FAIL_SECTION | GLB_IMG_FAIL_ENTRY | GLB_IMG_FAIL_NEED | GLB_IMG_FAIL_HAVE | GLB_IMG_ID
  | GLB_IMG_VERSION | GLB_SWAP_TIME | GLB_SEG_SEL | GLB_SEG_INFO
  | HEP_LINK | HEP_FN_STATE | HEP_FLR_BUSY | HEP_CNT_FLR | HEP_CNT_UR | HEP_CNT_CA | HEP_CNT_CPLTO | HEP_CNT_RDFAIL
  | HEP_CNT_EP_RX | HEP_CNT_EP_TX | HEP_CNT_PWDISC | HEP_LAST_PWDISC | HEP_LAST_RDFAIL | HEP_LAST_RDFAIL_INFO
  | HEP_CNT_RD_BYTES | HEP_CNT_WR_BYTES | HEP_SRC_VEC
  | ICU_CTRL | ICU_STATE | ICU_HOLDOFF | ICU_HOLDOFF_LEFT | ICU_GRP_CNT | ICU_PEND | ICU_COND | ICU_SW
  | ICU_ELOG_HEAD | ICU_ELOG_MERGE_MS | ICU_ADVISE | ICU_ADV_PARITY | ICU_SRC_CFG | ICU_ELOG | AOW_CTRL | AOW_HIT
  | AOW_TIMER_MS | AOW_WATCH
  | THYME_NOW | THYME_SET | THYME_STATE | THYME_DELAY_NS | THYME_OFFSET | THYME_TRIM_PPB | THYME_CNT_FRAME
  | THYME_CNT_BADFRAME | THYME_CNT_STEP | THYME_CNT_UNLOCK | THYME_ALARM | THYME_ALARM_CTRL | THYME_SNAP_CTRL
  | THYME_SNAP_CFG | THYME_SNAP_AT | THYME_SNAP_SEQ | THYME_SNAP_STATUS | THYME_SNAP_TIME | THYME_CNT_SNAPDROP
  | THYME_SNAP_SEL | THYME_SNAP_VAL
  | WEIR_CTRL | WEIR_STATE | WEIR_STATUS | WEIR_PHASE_SEL | WEIR_PHASE | WEIR_CAP_MW | WEIR_CAP_ODROV_MW
  | WEIR_CAP_EFF_MW | WEIR_PWR_MW | WEIR_CL_FMAX | WEIR_CL_POINT | WEIR_TJ_C | WEIR_TJ_LIMIT | WEIR_RESUME_C
  | WEIR_FLOW_HOLD_MS | WEIR_CMD | WEIR_GATE_US | WEIR_DROOP_MV | WEIR_VOFFSET | WEIR_SPRINT_BUDGET_MJ
  | WEIR_SPRINT_RES_S | WEIR_CNT_SPRINT | WEIR_CNT_SPRINT_US | WEIR_CNT_DROOP | WEIR_CNT_BRAKE | WEIR_CNT_COOLANT
  | WEIR_CNT_CAPMISS | WEIR_CNT_THERMAL | WEIR_COEF | WEIR_E_DEVICE_UJ | WEIR_E_IDLE_UJ | WEIR_CTX_UJ
  | SAGE_STATE | SAGE_MBOX_CMD | SAGE_MBOX_ADDR | SAGE_MBOX_LEN | SAGE_MBOX_STATUS | SAGE_BOOT | SAGE_SUPPLY
  | SAGE_SLOT_A | SAGE_SLOT_B | SAGE_SLOT_SEC | SAGE_SLOT_ACT | SAGE_ARB_FW | SAGE_ARB_IMAGE | SAGE_CNT_INHIBIT
  | SAGE_CNT_SPDM
  | ODROV_CTRL | ODROV_SMB_ADDR | ODROV_EID | ODROV_CNT_RX | ODROV_CNT_ERR
  | SLUICE_STATE | SLUICE_FW_VER | SLUICE_RESIDENT | SLUICE_WIN_USED | SLUICE_CL_RUN | SLUICE_CNT_STEPS
  | SLUICE_CNT_PREEMPT | SLUICE_CNT_EVICT | SLUICE_CNT_STARVED | SLUICE_CNT_OVERRUN | SLUICE_CNT_FALLBACK
  | SLUICE_CNT_WINWAIT | SLUICE_CNT_EXPORTLOST | SLUICE_LAST_FAULT | SLUICE_CTX
  | CISTERN_STATE | CISTERN_HOST_FREE | CISTERN_CNT_ALLOC | CISTERN_CNT_FREE | CISTERN_CNT_DISCARD
  | CISTERN_POOL_FREE | CISTERN_POOL_MIN | CISTERN_POOL_FAIL | CISTERN_POOL_CFG | CISTERN_POOL_SIZE
  | CISTERN_POOL_COUNT | CISTERN_POOL_RING
  | INGEST_CTRL | INGEST_STATE | INGEST_REG_ADDR | INGEST_REG_COUNT | INGEST_SCAN_MS | INGEST_SCAN_SEQ
  | INGEST_EVT_ADDR | INGEST_EVT_ENTRIES | INGEST_EVT_LOST | INGEST_SAT | INGEST_SAT_PCT | INGEST_POLL_LATE
  | INGEST_ENG_UTIL | INGEST_RILL
  | DEC_STATE | DEC_CTX_USED | DEC_CNT_WORK | DEC_CNT_STALL | DEC_CNT_FRAMES | DEC_CNT_CONCEAL | DEC_CNT_ABANDON
  | DEC_CNT_REFUSE | DEC_CNT_NOBUF | DEC_UCODE_VER | DEC_QUANTUM_US
  | PXE_STATE | PXE_CMD | PXE_CNT_REGIONS | PXE_CNT_READ | PXE_CNT_WRITTEN | PXE_CNT_BUSY | PXE_CNT_SKIP_NOBUF
  | PXE_CNT_SKIP_OTHER | PXE_LAST_SKIP
  | TRK_STATE | TRK_STORE_USED | TRK_STORE_PEAK | TRK_EMBQ_USED | TRK_CNT_FRAMES | TRK_CNT_DET | TRK_CNT_HIT
  | TRK_CNT_MISS | TRK_CNT_STOREFULL | TRK_CNT_EMBQFULL | TRK_CNT_EMBLOST | TRK_CNT_POISON
  | TRK_RING_ADDR | TRK_RING_ENTRIES | TRK_RING_CTRL | TRK_RING_LOST | TRK_RING_PROD
  | TC_ARR_CTRL | TC_STATE | TC_CMD | TC_TILE | TC_STATUS | TC_FAULT | TC_CNT_UPDATES | TC_CNT_PRODUCTS
  | TC_CNT_GATED | TC_CNT_EXCH | TC_CNT_WAIT | TC_CNT_SAT | TC_CNT_CLAMP | TC_CNT_KILL | TC_CNT_PARITY
  | TC_SNAP_UPDATES | TC_SNAP_SEQ
  | CL_CNT_CLAIMS | CL_CNT_COMMITS | CL_CNT_STALE | CL_CNT_BOUNDFLT | CL_CNT_LATEKILL | CL_LAST_BOUNDFLT
  | DMC_STATE | DMC_STATUS | DMC_PORT_PRIO | DMC_ADV_MISMATCH | DMC_ADV_POISON | DMC_ADVISE | DMC_RECAL_CTRL
  | DMC_RECAL_STATUS | DMC_RECAL_LIMIT_US | DMC_TRAIN_CTRL | DMC_TRAIN_PASS | DMC_TEMP | DMC_TEMP_CAL | DMC_DRIFT_C
  | DMC_CNT_RD | DMC_CNT_WR | DMC_CNT_SRREJ | DMC_CH_ERR | DMC_ELOG_HEAD | DMC_ELOG | DMC_DLY | DMC_DLY_CA
  deriving DecidableEq, Repr

/-- A row of a register table: `off` from the block's base; `count` instances `stride` apart, each of `count2` words
`stride2` apart; `mask` has the bits that are not reserved. -/
structure RegRow where
  name : Reg
  blk : Block
  off : Nat
  stride : Nat
  count : Nat
  stride2 : Nat
  count2 : Nat
  wide : Bool
  acc : Access
  reset : Nat
  mask : Nat
  deriving DecidableEq, Repr

/-- Tables 0.2, 2.15 (R1, R53). -/
def glbRows : List RegRow :=
  [ ⟨.GLB_ID, .glb, 0, 0, 1, 0, 1, false, .ro, 0, 0xffffffff⟩,
    ⟨.GLB_ID_CHECK, .glb, 4, 0, 1, 0, 1, false, .ro, 0x53573733, 0xffffffff⟩,
    ⟨.GLB_CAP_UNITS, .glb, 0x10, 0, 1, 0, 1, true, .ro, 0, 0xffffffffffffffff⟩,
    ⟨.GLB_IMG_ADDR, .glb, 0x100, 0, 1, 0, 1, true, .rw, 0, 0xffffffffffffffff⟩,
    ⟨.GLB_IMG_LEN, .glb, 0x108, 0, 1, 0, 1, false, .rw, 0, 0xffffffff⟩,
    ⟨.GLB_IMG_CTRL, .glb, 0x10c, 0, 1, 0, 1, false, .wo, 0, 0xffffffff⟩,
    ⟨.GLB_IMG_STATE, .glb, 0x110, 0, 1, 0, 1, false, .ro, 0, 0xffffffff⟩,
    ⟨.GLB_IMG_STATUS, .glb, 0x114, 0, 1, 0, 1, false, .ro, 0, 0xffff⟩,
    ⟨.GLB_IMG_FAIL_SECTION, .glb, 0x118, 0, 1, 0, 1, false, .ro, 0, 0xffff⟩,
    ⟨.GLB_IMG_FAIL_ENTRY, .glb, 0x11c, 0, 1, 0, 1, false, .ro, 0, 0xffffffff⟩,
    ⟨.GLB_IMG_FAIL_NEED, .glb, 0x120, 0, 1, 0, 1, true, .ro, 0, 0xffffffffffffffff⟩,
    ⟨.GLB_IMG_FAIL_HAVE, .glb, 0x128, 0, 1, 0, 1, true, .ro, 0, 0xffffffffffffffff⟩,
    ⟨.GLB_IMG_ID, .glb, 0x130, 0, 1, 0, 1, true, .ro, 0, 0xffffffffffffffff⟩,
    ⟨.GLB_IMG_VERSION, .glb, 0x138, 0, 1, 0, 1, false, .ro, 0, 0xffffffff⟩,
    ⟨.GLB_SWAP_TIME, .glb, 0x140, 0, 1, 0, 1, true, .rw, 0, 0xffffffffffffffff⟩,
    ⟨.GLB_SEG_SEL, .glb, 0x148, 0, 1, 0, 1, false, .rw, 0, 0xffff⟩,
    ⟨.GLB_SEG_INFO, .glb, 0x14c, 0, 1, 0, 1, false, .ro, 0, 0xffff0007⟩ ]

/-- Table 14.11 (R405). -/
def hepRows : List RegRow :=
  [ ⟨.HEP_LINK, .hep, 0, 0, 1, 0, 1, false, .ro, 0, 0x3ff⟩,
    ⟨.HEP_FN_STATE, .hep, 4, 0, 1, 0, 1, false, .ro, 1, 0xffffffff⟩,
    ⟨.HEP_FLR_BUSY, .hep, 8, 0, 1, 0, 1, false, .ro, 0, 0xffffffff⟩,
    ⟨.HEP_CNT_FLR, .hep, 0xc, 0, 1, 0, 1, false, .rc, 0, 0xffffffff⟩,
    ⟨.HEP_CNT_UR, .hep, 0x10, 0, 1, 0, 1, false, .rc, 0, 0xffffffff⟩,
    ⟨.HEP_CNT_CA, .hep, 0x14, 0, 1, 0, 1, false, .rc, 0, 0xffffffff⟩,
    ⟨.HEP_CNT_CPLTO, .hep, 0x18, 0, 1, 0, 1, false, .rc, 0, 0xffffffff⟩,
    ⟨.HEP_CNT_RDFAIL, .hep, 0x1c, 0, 1, 0, 1, false, .rc, 0, 0xffffffff⟩,
    ⟨.HEP_CNT_EP_RX, .hep, 0x20, 0, 1, 0, 1, false, .rc, 0, 0xffffffff⟩,
    ⟨.HEP_CNT_EP_TX, .hep, 0x24, 0, 1, 0, 1, false, .rc, 0, 0xffffffff⟩,
    ⟨.HEP_CNT_PWDISC, .hep, 0x28, 0, 1, 0, 1, false, .rc, 0, 0xffffffff⟩,
    ⟨.HEP_LAST_PWDISC, .hep, 0x30, 0, 1, 0, 1, true, .ro, 0, 0xffffffffffffffff⟩,
    ⟨.HEP_LAST_RDFAIL, .hep, 0x38, 0, 1, 0, 1, true, .ro, 0, 0xffffffffffffffff⟩,
    ⟨.HEP_LAST_RDFAIL_INFO, .hep, 0x40, 0, 1, 0, 1, false, .ro, 0, 0x1fffff⟩,
    ⟨.HEP_CNT_RD_BYTES, .hep, 0x48, 0, 1, 0, 1, true, .ro, 0, 0xffffffffffffffff⟩,
    ⟨.HEP_CNT_WR_BYTES, .hep, 0x50, 0, 1, 0, 1, true, .ro, 0, 0xffffffffffffffff⟩,
    ⟨.HEP_SRC_VEC, .hep, 0x1000, 4, 512, 0, 1, false, .rw, 0, 0x1f03ff⟩ ]

/-- Tables 15.7, 15.8 (R431, R432). -/
def icuRows : List RegRow :=
  [ ⟨.ICU_CTRL, .icu, 0, 0, 1, 0, 1, false, .rw, 0, 1⟩,
    ⟨.ICU_STATE, .icu, 4, 0, 1, 0, 1, false, .ro, 0, 1⟩,
    ⟨.ICU_HOLDOFF, .icu, 0x10, 4, 32, 0, 1, false, .rw, 0, 0xffff⟩,
    ⟨.ICU_HOLDOFF_LEFT, .icu, 0x90, 4, 32, 0, 1, false, .ro, 0, 0xffff⟩,
    ⟨.ICU_GRP_CNT, .icu, 0x110, 4, 32, 0, 1, false, .rc, 0, 0xffffffff⟩,
    ⟨.ICU_PEND, .icu, 0x400, 4, 32, 0, 1, false, .w1c, 0, 0xffff⟩,
    ⟨.ICU_COND, .icu, 0x480, 4, 32, 0, 1, false, .ro, 0, 0xffff⟩,
    ⟨.ICU_SW, .icu, 0x500, 0, 1, 0, 1, false, .rw, 0, 0xff⟩,
    ⟨.ICU_ELOG_HEAD, .icu, 0x600, 0, 1, 0, 1, false, .ro, 0, 0xffffffff⟩,
    ⟨.ICU_ELOG_MERGE_MS, .icu, 0x604, 0, 1, 0, 1, false, .rw, 0x3e8, 0xffffffff⟩,
    ⟨.ICU_ADVISE, .icu, 0x608, 0, 1, 0, 1, false, .ro, 0, 7⟩,
    ⟨.ICU_ADV_PARITY, .icu, 0x60c, 0, 1, 0, 1, false, .rwl, 0x10, 0xffffffff⟩,
    ⟨.ICU_SRC_CFG, .icu, 0x1000, 4, 512, 0, 1, false, .rw, 0, 7⟩,
    ⟨.ICU_ELOG, .icu, 0x2000, 0x20, 256, 4, 8, false, .ro, 0, 0xffffffff⟩,
    ⟨.AOW_CTRL, .icu, 0x80000, 0, 1, 0, 1, false, .rw, 0, 1⟩,
    ⟨.AOW_HIT, .icu, 0x80004, 0, 1, 0, 1, false, .w1c, 0, 0xffffffff⟩,
    ⟨.AOW_TIMER_MS, .icu, 0x80008, 0, 1, 0, 1, false, .rw, 0, 0xffffffff⟩,
    ⟨.AOW_WATCH, .icu, 0x80100, 4, 32, 0, 1, false, .rw, 0, 0x83ff⟩ ]

/-- Table 15.9 (R433). -/
def thymeRows : List RegRow :=
  [ ⟨.THYME_NOW, .thyme, 0, 0, 1, 0, 1, true, .ro, 0, 0xffffffffffffffff⟩,
    ⟨.THYME_SET, .thyme, 8, 0, 1, 0, 1, true, .wo, 0, 0xffffffffffffffff⟩,
    ⟨.THYME_STATE, .thyme, 0x10, 0, 1, 0, 1, false, .ro, 0, 0xf⟩,
    ⟨.THYME_DELAY_NS, .thyme, 0x14, 0, 1, 0, 1, false, .rw, 0, 0xffff⟩,
    ⟨.THYME_OFFSET, .thyme, 0x18, 0, 1, 0, 1, false, .ro, 0, 0xffffffff⟩,
    ⟨.THYME_TRIM_PPB, .thyme, 0x1c, 0, 1, 0, 1, false, .ro, 0, 0xffffffff⟩,
    ⟨.THYME_CNT_FRAME, .thyme, 0x20, 0, 1, 0, 1, true, .ro, 0, 0xffffffffffffffff⟩,
    ⟨.THYME_CNT_BADFRAME, .thyme, 0x28, 0, 1, 0, 1, false, .rc, 0, 0xffffffff⟩,
    ⟨.THYME_CNT_STEP, .thyme, 0x2c, 0, 1, 0, 1, false, .rc, 0, 0xffffffff⟩,
    ⟨.THYME_CNT_UNLOCK, .thyme, 0x30, 0, 1, 0, 1, false, .rc, 0, 0xffffffff⟩,
    ⟨.THYME_ALARM, .thyme, 0x40, 0x10, 4, 0, 1, true, .rw, 0, 0xffffffffffffffff⟩,
    ⟨.THYME_ALARM_CTRL, .thyme, 0x48, 0x10, 4, 0, 1, false, .rw, 0, 0xffffffff⟩,
    ⟨.THYME_SNAP_CTRL, .thyme, 0x100, 0, 1, 0, 1, false, .wo, 0, 0xffffffff⟩,
    ⟨.THYME_SNAP_CFG, .thyme, 0x104, 0, 1, 0, 1, false, .rw, 0, 0xfff⟩,
    ⟨.THYME_SNAP_AT, .thyme, 0x108, 0, 1, 0, 1, true, .rw, 0, 0xffffffffffffffff⟩,
    ⟨.THYME_SNAP_SEQ, .thyme, 0x110, 0, 1, 0, 1, false, .ro, 0, 0xffffffff⟩,
    ⟨.THYME_SNAP_STATUS, .thyme, 0x114, 0, 1, 0, 1, false, .ro, 0, 0xf⟩,
    ⟨.THYME_SNAP_TIME, .thyme, 0x118, 0, 1, 0, 1, true, .ro, 0, 0xffffffffffffffff⟩,
    ⟨.THYME_CNT_SNAPDROP, .thyme, 0x120, 0, 1, 0, 1, false, .rc, 0, 0xffffffff⟩,
    ⟨.THYME_SNAP_SEL, .thyme, 0x200, 8, 64, 0, 1, false, .rw, 0, 0xc7fffffc⟩,
    ⟨.THYME_SNAP_VAL, .thyme, 0x400, 8, 64, 0, 1, true, .ro, 0, 0xffffffffffffffff⟩ ]

/-- Table 13.8 (R379). -/
def weirRows : List RegRow :=
  [ ⟨.WEIR_CTRL, .weir, 0, 0, 1, 0, 1, false, .rw, 6, 7⟩,
    ⟨.WEIR_STATE, .weir, 4, 0, 1, 0, 1, false, .ro, 0, 0xf⟩,
    ⟨.WEIR_STATUS, .weir, 8, 0, 1, 0, 1, false, .ro, 0, 0xffff⟩,
    ⟨.WEIR_PHASE_SEL, .weir, 0xc, 0, 1, 0, 1, false, .rw, 0, 7⟩,
    ⟨.WEIR_PHASE, .weir, 0x10, 4, 8, 0, 1, false, .rw, 5, 0xf7⟩,
    ⟨.WEIR_CAP_MW, .weir, 0x30, 0, 1, 0, 1, false, .rw, 0, 0xffffffff⟩,
    ⟨.WEIR_CAP_ODROV_MW, .weir, 0x34, 0, 1, 0, 1, false, .ro, 0, 0xffffffff⟩,
    ⟨.WEIR_CAP_EFF_MW, .weir, 0x38, 0, 1, 0, 1, false, .ro, 0, 0xffffffff⟩,
    ⟨.WEIR_PWR_MW, .weir, 0x3c, 0, 1, 0, 1, false, .ro, 0, 0xffffffff⟩,
    ⟨.WEIR_CL_FMAX, .weir, 0x40, 4, 4, 0, 1, false, .rw, 7, 7⟩,
    ⟨.WEIR_CL_POINT, .weir, 0x50, 4, 4, 0, 1, false, .ro, 0, 0xffff003f⟩,
    ⟨.WEIR_TJ_C, .weir, 0x60, 0, 1, 0, 1, false, .ro, 0, 0xfff⟩,
    ⟨.WEIR_TJ_LIMIT, .weir, 0x64, 0, 1, 0, 1, false, .rw, 0x64, 0xffffffff⟩,
    ⟨.WEIR_RESUME_C, .weir, 0x68, 0, 1, 0, 1, false, .rw, 0x50, 0xffffffff⟩,
    ⟨.WEIR_FLOW_HOLD_MS, .weir, 0x6c, 0, 1, 0, 1, false, .rw, 0x3e8, 0xffffffff⟩,
    ⟨.WEIR_CMD, .weir, 0x70, 0, 1, 0, 1, false, .wo, 0, 0xffffffff⟩,
    ⟨.WEIR_GATE_US, .weir, 0x74, 0, 1, 0, 1, false, .rw, 0x32, 0xffffffff⟩,
    ⟨.WEIR_DROOP_MV, .weir, 0x78, 0, 1, 0, 1, false, .rwl, 0x28, 0xffffffff⟩,
    ⟨.WEIR_VOFFSET, .weir, 0x7c, 0, 1, 0, 1, false, .ro, 0, 0xff⟩,
    ⟨.WEIR_SPRINT_BUDGET_MJ, .weir, 0x80, 0, 1, 0, 1, false, .ro, 0, 0xffffffff⟩,
    ⟨.WEIR_SPRINT_RES_S, .weir, 0x84, 0, 1, 0, 1, false, .ro, 0, 0xffffffff⟩,
    ⟨.WEIR_CNT_SPRINT, .weir, 0x88, 0, 1, 0, 1, true, .ro, 0, 0xffffffffffffffff⟩,
    ⟨.WEIR_CNT_SPRINT_US, .weir, 0x90, 0, 1, 0, 1, true, .ro, 0, 0xffffffffffffffff⟩,
    ⟨.WEIR_CNT_DROOP, .weir, 0x98, 0, 1, 0, 1, false, .rc, 0, 0xffffffff⟩,
    ⟨.WEIR_CNT_BRAKE, .weir, 0x9c, 0, 1, 0, 1, false, .rc, 0, 0xffffffff⟩,
    ⟨.WEIR_CNT_COOLANT, .weir, 0xa0, 0, 1, 0, 1, false, .rc, 0, 0xffffffff⟩,
    ⟨.WEIR_CNT_CAPMISS, .weir, 0xa4, 0, 1, 0, 1, false, .rc, 0, 0xffffffff⟩,
    ⟨.WEIR_CNT_THERMAL, .weir, 0xa8, 0, 1, 0, 1, false, .rc, 0, 0xffffffff⟩,
    ⟨.WEIR_COEF, .weir, 0xc0, 4, 8, 0, 1, false, .ro, 0, 0xffffffff⟩,
    ⟨.WEIR_E_DEVICE_UJ, .weir, 0x100, 0, 1, 0, 1, true, .ro, 0, 0xffffffffffffffff⟩,
    ⟨.WEIR_E_IDLE_UJ, .weir, 0x108, 0, 1, 0, 1, true, .ro, 0, 0xffffffffffffffff⟩,
    ⟨.WEIR_CTX_UJ, .weir, 0x80000, 8, 4096, 0, 1, true, .ro, 0, 0xffffffffffffffff⟩ ]

/-- Table 16.9 (R452). -/
def sageRows : List RegRow :=
  [ ⟨.SAGE_STATE, .sage, 0, 0, 1, 0, 1, false, .ro, 0, 7⟩,
    ⟨.SAGE_MBOX_CMD, .sage, 4, 0, 1, 0, 1, false, .wo, 0, 0xffffffff⟩,
    ⟨.SAGE_MBOX_ADDR, .sage, 8, 0, 1, 0, 1, true, .rw, 0, 0xfffffffffffff000⟩,
    ⟨.SAGE_MBOX_LEN, .sage, 0x10, 0, 1, 0, 1, false, .rw, 0, 0xffffffff⟩,
    ⟨.SAGE_MBOX_STATUS, .sage, 0x14, 0, 1, 0, 1, false, .ro, 0, 0xffff⟩,
    ⟨.SAGE_BOOT, .sage, 0x18, 0, 1, 0, 1, false, .ro, 0, 0x1fffff⟩,
    ⟨.SAGE_SUPPLY, .sage, 0x1c, 0, 1, 0, 1, false, .ro, 3, 3⟩,
    ⟨.SAGE_SLOT_A, .sage, 0x40, 0x10, 5, 0, 1, false, .ro, 0, 0xffffffff⟩,
    ⟨.SAGE_SLOT_B, .sage, 0x44, 0x10, 5, 0, 1, false, .ro, 0, 0xffffffff⟩,
    ⟨.SAGE_SLOT_SEC, .sage, 0x48, 0x10, 5, 0, 1, false, .ro, 0, 0xffff⟩,
    ⟨.SAGE_SLOT_ACT, .sage, 0x4c, 0x10, 5, 0, 1, false, .ro, 0, 3⟩,
    ⟨.SAGE_ARB_FW, .sage, 0x100, 4, 5, 0, 1, false, .ro, 0, 0x7f⟩,
    ⟨.SAGE_ARB_IMAGE, .sage, 0x114, 0, 1, 0, 1, false, .ro, 0, 0x7f⟩,
    ⟨.SAGE_CNT_INHIBIT, .sage, 0x118, 0, 1, 0, 1, false, .rc, 0, 0xffffffff⟩,
    ⟨.SAGE_CNT_SPDM, .sage, 0x11c, 0, 1, 0, 1, false, .rc, 0, 0xffffffff⟩ ]

/-- Table 16.10 (R452). -/
def odrovRows : List RegRow :=
  [ ⟨.ODROV_CTRL, .odrov, 0, 0, 1, 0, 1, false, .rw, 3, 3⟩,
    ⟨.ODROV_SMB_ADDR, .odrov, 4, 0, 1, 0, 1, false, .rw, 0x4d, 0x7f⟩,
    ⟨.ODROV_EID, .odrov, 8, 0, 1, 0, 1, false, .ro, 0, 0xffff⟩,
    ⟨.ODROV_CNT_RX, .odrov, 0xc, 0, 1, 0, 1, false, .rc, 0, 0xffffffff⟩,
    ⟨.ODROV_CNT_ERR, .odrov, 0x10, 0, 1, 0, 1, false, .rc, 0, 0xffffffff⟩ ]

/-- Table 11.6 (R318). -/
def sluiceRows : List RegRow :=
  [ ⟨.SLUICE_STATE, .sluice, 0, 0, 1, 0, 1, false, .ro, 0, 0xffff0003⟩,
    ⟨.SLUICE_FW_VER, .sluice, 4, 0, 1, 0, 1, false, .ro, 0, 0xffffffff⟩,
    ⟨.SLUICE_RESIDENT, .sluice, 8, 0, 1, 0, 1, false, .ro, 0, 0xffffffff⟩,
    ⟨.SLUICE_WIN_USED, .sluice, 0xc, 0, 1, 0, 1, false, .ro, 0, 0x1ff⟩,
    ⟨.SLUICE_CL_RUN, .sluice, 0x10, 4, 4, 0, 1, false, .ro, 0xffff, 0x1ffff⟩,
    ⟨.SLUICE_CNT_STEPS, .sluice, 0x20, 0, 1, 0, 1, true, .ro, 0, 0xffffffffffffffff⟩,
    ⟨.SLUICE_CNT_PREEMPT, .sluice, 0x28, 0, 1, 0, 1, true, .ro, 0, 0xffffffffffffffff⟩,
    ⟨.SLUICE_CNT_EVICT, .sluice, 0x30, 0, 1, 0, 1, false, .rc, 0, 0xffffffff⟩,
    ⟨.SLUICE_CNT_STARVED, .sluice, 0x34, 0, 1, 0, 1, false, .rc, 0, 0xffffffff⟩,
    ⟨.SLUICE_CNT_OVERRUN, .sluice, 0x38, 0, 1, 0, 1, false, .rc, 0, 0xffffffff⟩,
    ⟨.SLUICE_CNT_FALLBACK, .sluice, 0x3c, 0, 1, 0, 1, false, .rc, 0, 0xffffffff⟩,
    ⟨.SLUICE_CNT_WINWAIT, .sluice, 0x40, 0, 1, 0, 1, false, .rc, 0, 0xffffffff⟩,
    ⟨.SLUICE_CNT_EXPORTLOST, .sluice, 0x44, 0, 1, 0, 1, false, .rc, 0, 0xffffffff⟩,
    ⟨.SLUICE_LAST_FAULT, .sluice, 0x48, 0, 1, 0, 1, false, .ro, 0, 0xfffffff⟩,
    ⟨.SLUICE_CTX, .sluice, 0x10000, 4, 4096, 0, 1, false, .ro, 0, 0x1ffff⟩ ]

/-- Table 12.7 (R347). -/
def cisternRows : List RegRow :=
  [ ⟨.CISTERN_STATE, .cistern, 0, 0, 1, 0, 1, false, .ro, 0, 0x7f⟩,
    ⟨.CISTERN_HOST_FREE, .cistern, 8, 0, 1, 0, 1, true, .wo, 0, 0xffffffffffffffff⟩,
    ⟨.CISTERN_CNT_ALLOC, .cistern, 0x10, 0, 1, 0, 1, true, .ro, 0, 0xffffffffffffffff⟩,
    ⟨.CISTERN_CNT_FREE, .cistern, 0x18, 0, 1, 0, 1, true, .ro, 0, 0xffffffffffffffff⟩,
    ⟨.CISTERN_CNT_DISCARD, .cistern, 0x20, 0, 1, 0, 1, false, .rc, 0, 0xffffffff⟩,
    ⟨.CISTERN_POOL_FREE, .cistern, 0x1000, 0x20, 64, 0, 1, false, .ro, 0, 0xffffffff⟩,
    ⟨.CISTERN_POOL_MIN, .cistern, 0x1004, 0x20, 64, 0, 1, false, .rc, 0, 0xffffffff⟩,
    ⟨.CISTERN_POOL_FAIL, .cistern, 0x1008, 0x20, 64, 0, 1, false, .rc, 0, 0xffffffff⟩,
    ⟨.CISTERN_POOL_CFG, .cistern, 0x100c, 0x20, 64, 0, 1, false, .ro, 0, 0x1ffff⟩,
    ⟨.CISTERN_POOL_SIZE, .cistern, 0x1010, 0x20, 64, 0, 1, false, .ro, 0, 0xffffffff⟩,
    ⟨.CISTERN_POOL_COUNT, .cistern, 0x1014, 0x20, 64, 0, 1, false, .ro, 0, 0xffffffff⟩,
    ⟨.CISTERN_POOL_RING, .cistern, 0x1018, 0x20, 64, 0, 1, true, .ro, 0, 0xffffffffffffffff⟩ ]

/-- Table 8.13 (R229). -/
def ingestRows : List RegRow :=
  [ ⟨.INGEST_CTRL, .ingest, 0, 0, 1, 0, 1, false, .rw, 0, 1⟩,
    ⟨.INGEST_STATE, .ingest, 4, 0, 1, 0, 1, false, .ro, 0, 0x1ff0003⟩,
    ⟨.INGEST_REG_ADDR, .ingest, 8, 0, 1, 0, 1, true, .rw, 0, 0xffffffffffffffc0⟩,
    ⟨.INGEST_REG_COUNT, .ingest, 0x10, 0, 1, 0, 1, false, .rw, 0, 0xffffffff⟩,
    ⟨.INGEST_SCAN_MS, .ingest, 0x14, 0, 1, 0, 1, false, .rw, 0x64, 0xffffffff⟩,
    ⟨.INGEST_SCAN_SEQ, .ingest, 0x18, 0, 1, 0, 1, false, .ro, 0, 0xffffffff⟩,
    ⟨.INGEST_EVT_ADDR, .ingest, 0x20, 0, 1, 0, 1, true, .rw, 0, 0xffffffffffffffc0⟩,
    ⟨.INGEST_EVT_ENTRIES, .ingest, 0x28, 0, 1, 0, 1, false, .rw, 0, 0xffffffff⟩,
    ⟨.INGEST_EVT_LOST, .ingest, 0x2c, 0, 1, 0, 1, false, .rc, 0, 0xffffffff⟩,
    ⟨.INGEST_SAT, .ingest, 0x30, 0, 1, 0, 1, false, .ro, 0, 0xffff⟩,
    ⟨.INGEST_SAT_PCT, .ingest, 0x34, 0, 1, 0, 1, false, .rw, 0x5f, 0xffffffff⟩,
    ⟨.INGEST_POLL_LATE, .ingest, 0x38, 0, 1, 0, 1, false, .rc, 0, 0xffffffff⟩,
    ⟨.INGEST_ENG_UTIL, .ingest, 0x40, 4, 16, 0, 1, false, .ro, 0, 0x3ff⟩,
    ⟨.INGEST_RILL, .ingest, 0x10000, 4, 512, 0, 1, false, .ro, 0, 0x1ff07⟩ ]

/-- Table 8.14 (R230). -/
def decRows : List RegRow :=
  [ ⟨.DEC_STATE, .dec, 0, 0, 1, 0, 1, false, .ro, 0, 0x1f03⟩,
    ⟨.DEC_CTX_USED, .dec, 4, 0, 1, 0, 1, false, .ro, 0, 0xffffffff⟩,
    ⟨.DEC_CNT_WORK, .dec, 8, 0, 1, 0, 1, true, .ro, 0, 0xffffffffffffffff⟩,
    ⟨.DEC_CNT_STALL, .dec, 0x10, 0, 1, 0, 1, true, .ro, 0, 0xffffffffffffffff⟩,
    ⟨.DEC_CNT_FRAMES, .dec, 0x18, 0, 1, 0, 1, true, .ro, 0, 0xffffffffffffffff⟩,
    ⟨.DEC_CNT_CONCEAL, .dec, 0x20, 0, 1, 0, 1, false, .rc, 0, 0xffffffff⟩,
    ⟨.DEC_CNT_ABANDON, .dec, 0x24, 0, 1, 0, 1, false, .rc, 0, 0xffffffff⟩,
    ⟨.DEC_CNT_REFUSE, .dec, 0x28, 0, 1, 0, 1, false, .rc, 0, 0xffffffff⟩,
    ⟨.DEC_CNT_NOBUF, .dec, 0x2c, 0, 1, 0, 1, false, .rc, 0, 0xffffffff⟩,
    ⟨.DEC_UCODE_VER, .dec, 0x30, 0, 1, 0, 1, false, .ro, 0, 0xffffffff⟩,
    ⟨.DEC_QUANTUM_US, .dec, 0x34, 0, 1, 0, 1, false, .rwl, 0xc8, 0xffffffff⟩ ]

/-- Table 9.6 (R245). -/
def pxeRows : List RegRow :=
  [ ⟨.PXE_STATE, .pxe, 0, 0, 1, 0, 1, false, .ro, 0, 0x3f03⟩,
    ⟨.PXE_CMD, .pxe, 4, 0, 1, 0, 1, false, .ro, 0, 0x1fffff⟩,
    ⟨.PXE_CNT_REGIONS, .pxe, 8, 0, 1, 0, 1, true, .ro, 0, 0xffffffffffffffff⟩,
    ⟨.PXE_CNT_READ, .pxe, 0x10, 0, 1, 0, 1, true, .ro, 0, 0xffffffffffffffff⟩,
    ⟨.PXE_CNT_WRITTEN, .pxe, 0x18, 0, 1, 0, 1, true, .ro, 0, 0xffffffffffffffff⟩,
    ⟨.PXE_CNT_BUSY, .pxe, 0x20, 0, 1, 0, 1, true, .ro, 0, 0xffffffffffffffff⟩,
    ⟨.PXE_CNT_SKIP_NOBUF, .pxe, 0x28, 0, 1, 0, 1, false, .rc, 0, 0xffffffff⟩,
    ⟨.PXE_CNT_SKIP_OTHER, .pxe, 0x2c, 0, 1, 0, 1, false, .rc, 0, 0xffffffff⟩,
    ⟨.PXE_LAST_SKIP, .pxe, 0x30, 0, 1, 0, 1, false, .ro, 0, 0x3fffff⟩ ]

/-- Table 10.14 (R279). -/
def trkRows : List RegRow :=
  [ ⟨.TRK_STATE, .trk, 0, 0, 1, 0, 1, false, .ro, 0, 0x1f03⟩,
    ⟨.TRK_STORE_USED, .trk, 4, 0, 1, 0, 1, false, .ro, 0, 0xffffffff⟩,
    ⟨.TRK_STORE_PEAK, .trk, 8, 0, 1, 0, 1, false, .rc, 0, 0xffffffff⟩,
    ⟨.TRK_EMBQ_USED, .trk, 0xc, 0, 1, 0, 1, false, .ro, 0, 0xffffffff⟩,
    ⟨.TRK_CNT_FRAMES, .trk, 0x10, 0, 1, 0, 1, true, .ro, 0, 0xffffffffffffffff⟩,
    ⟨.TRK_CNT_DET, .trk, 0x18, 0, 1, 0, 1, true, .ro, 0, 0xffffffffffffffff⟩,
    ⟨.TRK_CNT_HIT, .trk, 0x20, 0, 1, 0, 1, true, .ro, 0, 0xffffffffffffffff⟩,
    ⟨.TRK_CNT_MISS, .trk, 0x28, 0, 1, 0, 1, true, .ro, 0, 0xffffffffffffffff⟩,
    ⟨.TRK_CNT_STOREFULL, .trk, 0x30, 0, 1, 0, 1, false, .rc, 0, 0xffffffff⟩,
    ⟨.TRK_CNT_EMBQFULL, .trk, 0x34, 0, 1, 0, 1, false, .rc, 0, 0xffffffff⟩,
    ⟨.TRK_CNT_EMBLOST, .trk, 0x38, 0, 1, 0, 1, false, .rc, 0, 0xffffffff⟩,
    ⟨.TRK_CNT_POISON, .trk, 0x3c, 0, 1, 0, 1, false, .rc, 0, 0xffffffff⟩ ]

/-- Table 10.15 (R280). -/
def ringRows : List RegRow :=
  [ ⟨.TRK_RING_ADDR, .ring, 0, 0, 1, 0, 1, true, .rw, 0, 0xffffffffffffffc0⟩,
    ⟨.TRK_RING_ENTRIES, .ring, 8, 0, 1, 0, 1, false, .rw, 0, 0xffffffff⟩,
    ⟨.TRK_RING_CTRL, .ring, 0xc, 0, 1, 0, 1, false, .rw, 0, 1⟩,
    ⟨.TRK_RING_LOST, .ring, 0x10, 0, 1, 0, 1, false, .rc, 0, 0xffffffff⟩,
    ⟨.TRK_RING_PROD, .ring, 0x14, 0, 1, 0, 1, false, .ro, 0, 0xffffffff⟩ ]

/-- Table 4.13 (R128). -/
def tcRows : List RegRow :=
  [ ⟨.TC_ARR_CTRL, .tc, 0, 0, 1, 0, 1, false, .rw, 1, 3⟩,
    ⟨.TC_STATE, .tc, 4, 0, 1, 0, 1, false, .ro, 0, 0xfff7f⟩,
    ⟨.TC_CMD, .tc, 8, 0, 1, 0, 1, false, .ro, 0, 0xffffffff⟩,
    ⟨.TC_TILE, .tc, 0xc, 0, 1, 0, 1, false, .ro, 0, 0xffffffff⟩,
    ⟨.TC_STATUS, .tc, 0x10, 0, 1, 0, 1, false, .ro, 0, 0xffff⟩,
    ⟨.TC_FAULT, .tc, 0x14, 0, 1, 0, 1, false, .rc, 0, 0x3fffff⟩,
    ⟨.TC_CNT_UPDATES, .tc, 0x20, 0, 1, 0, 1, true, .ro, 0, 0xffffffffffffffff⟩,
    ⟨.TC_CNT_PRODUCTS, .tc, 0x28, 0, 1, 0, 1, true, .ro, 0, 0xffffffffffffffff⟩,
    ⟨.TC_CNT_GATED, .tc, 0x30, 0, 1, 0, 1, true, .ro, 0, 0xffffffffffffffff⟩,
    ⟨.TC_CNT_EXCH, .tc, 0x38, 0, 1, 0, 1, true, .ro, 0, 0xffffffffffffffff⟩,
    ⟨.TC_CNT_WAIT, .tc, 0x40, 0, 1, 0, 1, true, .ro, 0, 0xffffffffffffffff⟩,
    ⟨.TC_CNT_SAT, .tc, 0x48, 0, 1, 0, 1, false, .rc, 0, 0xffffffff⟩,
    ⟨.TC_CNT_CLAMP, .tc, 0x4c, 0, 1, 0, 1, false, .rc, 0, 0xffffffff⟩,
    ⟨.TC_CNT_KILL, .tc, 0x50, 0, 1, 0, 1, false, .rc, 0, 0xffffffff⟩,
    ⟨.TC_CNT_PARITY, .tc, 0x54, 0, 1, 0, 1, false, .rc, 0, 0xffffffff⟩,
    ⟨.TC_SNAP_UPDATES, .tc, 0x60, 0, 1, 0, 1, true, .ro, 0, 0xffffffffffffffff⟩,
    ⟨.TC_SNAP_SEQ, .tc, 0x68, 0, 1, 0, 1, false, .ro, 0, 0xffffffff⟩ ]

/-- Table 5.8 (R155). -/
def clRows : List RegRow :=
  [ ⟨.CL_CNT_CLAIMS, .cl, 0x100, 0, 1, 0, 1, true, .ro, 0, 0xffffffffffffffff⟩,
    ⟨.CL_CNT_COMMITS, .cl, 0x108, 0, 1, 0, 1, true, .ro, 0, 0xffffffffffffffff⟩,
    ⟨.CL_CNT_STALE, .cl, 0x110, 0, 1, 0, 1, false, .rc, 0, 0xffffffff⟩,
    ⟨.CL_CNT_BOUNDFLT, .cl, 0x114, 0, 1, 0, 1, false, .rc, 0, 0xffffffff⟩,
    ⟨.CL_CNT_LATEKILL, .cl, 0x118, 0, 1, 0, 1, false, .rc, 0, 0xffffffff⟩,
    ⟨.CL_LAST_BOUNDFLT, .cl, 0x120, 0, 1, 0, 1, true, .ro, 0, 0xffffffffffffffff⟩ ]

/-- Table 12.6 (R346). -/
def dmcRows : List RegRow :=
  [ ⟨.DMC_STATE, .dmc, 0, 0, 1, 0, 1, false, .ro, 0, 0xf03⟩,
    ⟨.DMC_STATUS, .dmc, 4, 0, 1, 0, 1, false, .w1c, 0, 1⟩,
    ⟨.DMC_PORT_PRIO, .dmc, 0x10, 4, 12, 0, 1, false, .rwl, 0, 7⟩,
    ⟨.DMC_ADV_MISMATCH, .dmc, 0x40, 0, 1, 0, 1, false, .rwl, 0x100, 0xffffffff⟩,
    ⟨.DMC_ADV_POISON, .dmc, 0x44, 0, 1, 0, 1, false, .rwl, 4, 0xffffffff⟩,
    ⟨.DMC_ADVISE, .dmc, 0x48, 0, 1, 0, 1, false, .ro, 0, 0xf⟩,
    ⟨.DMC_RECAL_CTRL, .dmc, 0x50, 0, 1, 0, 1, false, .wo, 0, 0xffffffff⟩,
    ⟨.DMC_RECAL_STATUS, .dmc, 0x54, 0, 1, 0, 1, false, .ro, 0, 0x1fffff⟩,
    ⟨.DMC_RECAL_LIMIT_US, .dmc, 0x58, 0, 1, 0, 1, false, .rwl, 0x2710, 0xffffffff⟩,
    ⟨.DMC_TRAIN_CTRL, .dmc, 0x60, 0, 1, 0, 1, false, .wo, 0, 0xffffffff⟩,
    ⟨.DMC_TRAIN_PASS, .dmc, 0x70, 4, 5, 0, 1, false, .ro, 0, 0xffffffff⟩,
    ⟨.DMC_TEMP, .dmc, 0x90, 0, 1, 0, 1, false, .ro, 0, 0xffffffff⟩,
    ⟨.DMC_TEMP_CAL, .dmc, 0x94, 0, 1, 0, 1, false, .ro, 0, 0xffffffff⟩,
    ⟨.DMC_DRIFT_C, .dmc, 0x98, 0, 1, 0, 1, false, .rw, 0xf, 0xffffffff⟩,
    ⟨.DMC_CNT_RD, .dmc, 0xa0, 0, 1, 0, 1, true, .ro, 0, 0xffffffffffffffff⟩,
    ⟨.DMC_CNT_WR, .dmc, 0xa8, 0, 1, 0, 1, true, .ro, 0, 0xffffffffffffffff⟩,
    ⟨.DMC_CNT_SRREJ, .dmc, 0xb0, 0, 1, 0, 1, false, .rc, 0, 0xffffffff⟩,
    ⟨.DMC_CH_ERR, .dmc, 0x100, 8, 32, 0, 1, true, .ro, 0, 0xffffffffffffffff⟩,
    ⟨.DMC_ELOG_HEAD, .dmc, 0x200, 0, 1, 0, 1, false, .ro, 0, 0xffffffff⟩,
    ⟨.DMC_ELOG, .dmc, 0x1000, 0x10, 64, 4, 4, false, .ro, 0, 0xffffffff⟩,
    ⟨.DMC_DLY, .dmc, 0x100000, 0x1000, 32, 4, 136, false, .rw, 0, 0x7f7f⟩,
    ⟨.DMC_DLY_CA, .dmc, 0x100800, 0x1000, 32, 0, 1, false, .rw, 0, 0x7f⟩ ]

/-- The rows of a block. -/
def blockRows : Block → List RegRow
  | .glb => glbRows
  | .hep => hepRows
  | .icu => icuRows
  | .thyme => thymeRows
  | .weir => weirRows
  | .sage => sageRows
  | .odrov => odrovRows
  | .sluice => sluiceRows
  | .cistern => cisternRows
  | .ingest => ingestRows
  | .dec => decRows
  | .pxe => pxeRows
  | .trk => trkRows
  | .ring => ringRows
  | .tc => tcRows
  | .cl => clRows
  | .dmc => dmcRows

/-- Every row. -/
def allRows : List RegRow :=
  glbRows ++ hepRows ++ icuRows ++ thymeRows ++ weirRows ++ sageRows ++ odrovRows ++ sluiceRows ++ cisternRows ++
  ingestRows ++ decRows ++ pxeRows ++ trkRows ++ ringRows ++ tcRows ++ clRows ++ dmcRows

/-- The BAR0 offset of a block's unit `n` (Tables 1.8 and 1.9; R280 for the rings). -/
def blockBase : Block → Nat → Nat
  | .glb, _ => 0x0000000
  | .hep, _ => 0x0100000
  | .icu, _ => 0x0200000
  | .thyme, _ => 0x0300000
  | .weir, _ => 0x0400000
  | .sage, _ => 0x0500000
  | .odrov, _ => 0x0580000
  | .sluice, _ => 0x0600000
  | .cistern, _ => 0x0700000
  | .ingest, _ => 0x0800000
  | .dec, n => 0x0A00000 + n * 0x10000
  | .pxe, n => 0x0C00000 + n * 0x40000
  | .trk, _ => 0x0D00000
  | .ring, n => 0x0E00000 + n * 32
  | .tc, n => 0x1000000 + n / 8 * 0x1000000 + n % 8 * 0x100000
  | .cl, n => 0x1800000 + n * 0x1000000
  | .dmc, n => 0x5000000 + n * 0x400000

/-- GLB_CAP_UNITS by part (Table 0.5). -/
def capUnits : Part → W64
  | .sw7360 => 0xFFFFFFFFFFFFFFE0#64
  | .sw7340 => 0x00FFFFFF0FFFF7E0#64
  | .sw7320 => 0x0000FFFF00FFF340#64

/-- Table 0.4: whether a unit is present (R3). -/
def corePresent (p : Part) (n : Nat) : Bool := n < 32 && (capUnits p).getLsbD (32 + n)
def decPresent (p : Part) (n : Nat) : Bool := n < 16 && (capUnits p).getLsbD (16 + n)
def pxePresent (p : Part) (n : Nat) : Bool := n < 4 && (capUnits p).getLsbD (12 + n)
def clusterPresent (p : Part) (n : Nat) : Bool := n < 4 && (capUnits p).getLsbD (8 + n)
def towerPresent (p : Part) (n : Nat) : Bool := n < 2 && (capUnits p).getLsbD (6 + n)
def trkPresent (p : Part) : Bool := (capUnits p).getLsbD 5

/-- Whether the unit that owns a block is present: the space of an absent one is reserved (R5, R279). -/
def blockPresent (p : Part) : Block → Nat → Bool
  | .dec, n => decPresent p n
  | .pxe, n => pxePresent p n
  | .trk, _ => trkPresent p
  | .tc, n => corePresent p n
  | .cl, n => clusterPresent p n
  | .dmc, n => towerPresent p n
  | _, _ => true

/-- The block, unit and offset within the block of a BAR0 offset (Tables 1.8 and 1.9). -/
def locate (off : Nat) : Option (Block × Nat × Nat) :=
  if off < 0x0100000 then some (.glb, 0, off)
  else if off < 0x0200000 then some (.hep, 0, off - 0x0100000)
  else if off < 0x0300000 then some (.icu, 0, off - 0x0200000)
  else if off < 0x0400000 then some (.thyme, 0, off - 0x0300000)
  else if off < 0x0500000 then some (.weir, 0, off - 0x0400000)
  else if off < 0x0580000 then some (.sage, 0, off - 0x0500000)
  else if off < 0x0600000 then some (.odrov, 0, off - 0x0580000)
  else if off < 0x0700000 then some (.sluice, 0, off - 0x0600000)
  else if off < 0x0800000 then some (.cistern, 0, off - 0x0700000)
  else if off < 0x0A00000 then some (.ingest, 0, off - 0x0800000)
  else if off < 0x0B00000 then some (.dec, (off - 0x0A00000) / 0x10000, (off - 0x0A00000) % 0x10000)
  else if off < 0x0C00000 then none
  else if off < 0x0D00000 then some (.pxe, (off - 0x0C00000) / 0x40000, (off - 0x0C00000) % 0x40000)
  else if off < 0x0E00000 then some (.trk, 0, off - 0x0D00000)
  else if off < 0x0E00400 then some (.ring, (off - 0x0E00000) / 32, (off - 0x0E00000) % 32)
  else if off < 0x1000000 then none
  else if off < 0x5000000 then
    let n := (off - 0x1000000) / 0x1000000
    let w := (off - 0x1000000) % 0x1000000
    if w < 0x800000 then some (.tc, 8 * n + w / 0x100000, w % 0x100000)
    else if w < 0x900000 then some (.cl, n, w - 0x800000)
    else none
  else if off < 0x5400000 then some (.dmc, 0, off - 0x5000000)
  else if off < 0x5800000 then some (.dmc, 1, off - 0x5400000)
  else none

/-- A register found at an offset: its row, unit and instance, the offset of its low word, and whether the offset is
that of the high word of a 64-bit register (R10). -/
structure RegLoc where
  row : RegRow
  unit : Nat
  idx : Nat
  off : Nat
  high : Bool
  deriving DecidableEq, Repr

/-- Instance and word of a row at a distance `d` from its first: (instance index, high word). -/
def rowHit (r : RegRow) (d : Nat) : Option (Nat × Bool) :=
  if r.count = 1 then
    if d = 0 then some (0, false) else if r.wide && d = 4 then some (0, true) else none
  else if d / r.stride < r.count then
    let e := d % r.stride
    if r.count2 = 1 then
      if e = 0 then some (d / r.stride, false)
      else if r.wide && e = 4 then some (d / r.stride, true) else none
    else if e % r.stride2 = 0 && e / r.stride2 < r.count2 then
      some (d / r.stride * r.count2 + e / r.stride2, false)
    else none
  else none

/-- The first row of a block that has a register at a local offset. -/
def findRow (u loc off : Nat) : List RegRow → Option RegLoc
  | [] => none
  | r :: rs =>
    if r.off ≤ loc then
      match rowHit r (loc - r.off) with
      | some (i, hi) => some { row := r, unit := u, idx := i, off := if hi then off - 4 else off, high := hi }
      | none => findRow u loc off rs
    else findRow u loc off rs

/-- The register at a BAR0 offset, if any, whatever unit owns it. -/
def regAt (off : Nat) : Option RegLoc :=
  match locate off with
  | some (b, u, loc) => findRow u loc off (blockRows b)
  | none => none

/-- The row of a register in a list of rows. -/
def rowIn (r : Reg) : List RegRow → Option RegRow
  | [] => none
  | x :: xs => if x.name = r then some x else rowIn r xs

/-- The BAR0 offset of instance `i` of a register of unit `u`. -/
def regOff (r : Reg) (u i : Nat) : Nat :=
  match rowIn r allRows with
  | some x => blockBase x.blk u + x.off + i / x.count2 * x.stride + i % x.count2 * x.stride2
  | none => 0

/-- The units of a block (Tables 0.3, 1.8 and 1.9; R280 for the rings). -/
def blockUnits : Block → Nat
  | .dec => 16
  | .pxe => 4
  | .ring => 32
  | .tc => 32
  | .cl => 4
  | .dmc => 2
  | _ => 1

/-- Whether a register has an instance `i` in unit `u`. -/
def regOk (r : Reg) (u i : Nat) : Bool :=
  match rowIn r allRows with
  | some x => decide (u < blockUnits x.blk) && decide (i < x.count * x.count2)
  | none => false

/-- The default priority of a requester port (Table 12.4). -/
def portPrio : Nat → Nat
  | 0 => 5 | 1 => 5 | 2 => 5 | 3 => 4 | 8 => 6 | 9 => 6 | 10 => 7 | 11 => 2 | _ => 3

/-- The reset value of a register (R1, R395 for HEP_SRC_VEC, Table 12.4 for DMC_PORT_PRIO). -/
def resetOf (l : RegLoc) : W64 :=
  match l.row.name with
  | .HEP_SRC_VEC =>
    if 33 ≤ l.idx ∧ l.idx < 64 then BitVec.ofNat 64 ((l.idx - 32) * 65536) else BitVec.ofNat 64 l.idx
  | .DMC_PORT_PRIO => BitVec.ofNat 64 (portPrio l.idx)
  | _ => BitVec.ofNat 64 l.row.reset

/-- The reset value of what lies at a BAR0 offset: 0 where no register lies. -/
def regDefault (off : Nat) : W64 :=
  match regAt off with
  | some l => resetOf l
  | none => 0

/-- The stored value of a register. -/
def State.reg (s : State) (r : Reg) (u i : Nat) : W64 := SMap.get regDefault s.regs (regOff r u i)

/-- Store a register, if there is such an instance of it. -/
def State.setReg (s : State) (r : Reg) (u i : Nat) (v : W64) : State :=
  if regOk r u i then { s with regs := SMap.set regDefault s.regs (regOff r u i) v } else s

/-- Change a stored register. -/
def State.updReg (s : State) (r : Reg) (u i : Nat) (f : W64 → W64) : State := s.setReg r u i (f (s.reg r u i))

/-- Count an event in a 32-bit RC counter, which stops at 0xFFFF_FFFF (R128). -/
def State.count (s : State) (r : Reg) (u : Nat) : State :=
  s.updReg r u 0 (fun v => if v = 0xFFFFFFFF#64 then v else v + 1)

/-- Add to a 64-bit counter (R128). -/
def State.addTo (s : State) (r : Reg) (u : Nat) (n : Nat) : State := s.updReg r u 0 (fun v => v + BitVec.ofNat 64 n)

end Sys2Proof.Machine
end

