-- ==== Sys2Proof/Machine/Access.lean ====
section
/-! DEFINITION. Reading and writing the tables of the state: one accessor pair for each. -/

set_option Elab.async false

namespace Sys2Proof.Machine

/-! ## Functions -/

/-- Function `n` of the endpoint. -/
def State.fn (s : State) (n : Nat) : FnState := SMap.get (fun _ => FnState.reset) s.fns n

/-- Store a function. -/
def State.setFn (s : State) (n : Nat) (f : FnState) : State :=
  { s with fns := SMap.set (fun _ => FnState.reset) s.fns n f }

/-! ## Ingest and decode -/

def State.rill (s : State) (r : Nat) : Rill := SMap.get (fun _ => Rill.reset) s.ing.rills r

def State.setRill (s : State) (r : Nat) (x : Rill) : State :=
  { s with ing := { s.ing with rills := SMap.set (fun _ => Rill.reset) s.ing.rills r x } }

def State.updRill (s : State) (r : Nat) (f : Rill → Rill) : State := s.setRill r (f (s.rill r))

/-- Decode context `c` = 32 x engine + context, where an attach has reserved it (R203). -/
def State.decCtx (s : State) (c : Nat) : Option DecCtx := SMap.find? s.ing.ctxs c

def State.setDecCtx (s : State) (c : Nat) (x : DecCtx) : State :=
  { s with ing := { s.ing with ctxs := SMap.insert s.ing.ctxs c x } }

def State.freeDecCtx (s : State) (c : Nat) : State :=
  { s with ing := { s.ing with ctxs := SMap.erase s.ing.ctxs c } }

def State.engine (s : State) (e : Nat) : Engine := SMap.get (fun _ => Engine.reset) s.ing.engines e

def State.setEngine (s : State) (e : Nat) (x : Engine) : State :=
  { s with ing := { s.ing with engines := SMap.set (fun _ => Engine.reset) s.ing.engines e x } }

/-- The decoded frame of a rill with an index, while it is held (R213, R222). -/
def State.frame (s : State) (rill index : Nat) : Option Frame :=
  s.ing.frames.find? (fun f => f.rill = rill && f.index = index)

def State.updFrame (s : State) (rill index : Nat) (f : Frame → Frame) : State :=
  { s with ing := { s.ing with
      frames := updWhere (fun x => x.rill = rill && x.index = index) f s.ing.frames } }

/-! ## Track engine -/

def State.rillTrk (s : State) (r : Nat) : RillTrk := SMap.get (fun _ => RillTrk.reset) s.trk.perRill r

def State.setRillTrk (s : State) (r : Nat) (x : RillTrk) : State :=
  { s with trk := { s.trk with perRill := SMap.set (fun _ => RillTrk.reset) s.trk.perRill r x } }

def State.ring (s : State) (n : Nat) : Ring := SMap.get (fun _ => Ring.reset) s.trk.rings n

def State.setRing (s : State) (n : Nat) (x : Ring) : State :=
  { s with trk := { s.trk with rings := SMap.set (fun _ => Ring.reset) s.trk.rings n x } }

def State.flow (s : State) (rill frame : Nat) : Option Flow :=
  s.trk.flows.find? (fun f => f.rill = rill && f.frame = frame)

def State.updFlow (s : State) (rill frame : Nat) (f : Flow → Flow) : State :=
  { s with trk := { s.trk with flows := updWhere (fun x => x.rill = rill && x.frame = frame) f s.trk.flows } }

def State.pxe (s : State) (p : Nat) : Option PxeRun := SMap.find? s.trk.pxes p

/-! ## Sluice, cores, basins -/

def State.ctxRun (s : State) (c : Nat) : CtxRun := SMap.get (fun _ => CtxRun.reset) s.slu.ctxs c

def State.setCtxRun (s : State) (c : Nat) (x : CtxRun) : State :=
  { s with slu := { s.slu with ctxs := SMap.set (fun _ => CtxRun.reset) s.slu.ctxs c x } }

def State.updCtxRun (s : State) (c : Nat) (f : CtxRun → CtxRun) : State := s.setCtxRun c (f (s.ctxRun c))

/-- The command of a context that has been issued and has not committed. -/
def State.cmdRun (s : State) (c : Nat) : Option CmdRun := SMap.find? s.slu.cmds c

def State.setCmdRun (s : State) (c : Nat) (x : CmdRun) : State :=
  { s with slu := { s.slu with cmds := SMap.insert s.slu.cmds c x } }

def State.dropCmdRun (s : State) (c : Nat) : State := { s with slu := { s.slu with cmds := SMap.erase s.slu.cmds c } }

def State.core (s : State) (n : Nat) : Core := SMap.get (fun _ => Core.reset) s.slu.cores n

def State.setCore (s : State) (n : Nat) (x : Core) : State :=
  { s with slu := { s.slu with cores := SMap.set (fun _ => Core.reset) s.slu.cores n x } }

def State.updCore (s : State) (n : Nat) (f : Core → Core) : State := s.setCore n (f (s.core n))

def State.basin (s : State) (n : Nat) : Mem := SMap.get (fun _ => []) s.slu.basins n

def State.setBasin (s : State) (n : Nat) (m : Mem) : State :=
  { s with slu := { s.slu with basins := SMap.set (fun _ => []) s.slu.basins n m } }

/-- The context that holds cluster `n` (R299). -/
def State.holder (s : State) (n : Nat) : Option Nat := SMap.get (fun _ => none) s.slu.holder n

def State.setHolder (s : State) (n : Nat) (c : Option Nat) : State :=
  { s with slu := { s.slu with holder := SMap.set (fun _ => none) s.slu.holder n c } }

/-! ## DRAM controllers, Weir, Cistern -/

def State.dmc (s : State) (d : Nat) : Dmc := SMap.get (fun _ => Dmc.reset) s.dram.dmcs d

def State.setDmc (s : State) (d : Nat) (x : Dmc) : State :=
  { s with dram := { s.dram with dmcs := SMap.set (fun _ => Dmc.reset) s.dram.dmcs d x } }

def State.clPwr (s : State) (n : Nat) : ClPwr := SMap.get (fun _ => ClPwr.reset) s.weir.cls n

def State.setClPwr (s : State) (n : Nat) (x : ClPwr) : State :=
  { s with weir := { s.weir with cls := SMap.set (fun _ => ClPwr.reset) s.weir.cls n x } }

/-- The pool with an id, where the loaded image defines it (R342, R347). -/
def State.pool (s : State) (p : Nat) : Option Pool := s.pools.find? (fun x => x.id = p)

def State.setPool (s : State) (x : Pool) : State := { s with pools := updWhere (fun y => y.id = x.id) (fun _ => x) s.pools }

/-! ## The loaded image -/

/-- A context entry of the loaded image. -/
def State.ctxEntry (s : State) (c : Nat) : Option CtxEntry := s.ldr.image.ctxs.find? (fun x => x.id = c)

/-- Whether an image is loaded (Table 2.15 state 2). -/
def State.imageLoaded (s : State) : Bool := s.ldr.state == .loaded

/-- Deterministic mode of the loaded image. -/
def State.deterministic (s : State) : Bool := s.imageLoaded && s.ldr.deterministic

/-- A rill class of the loaded image. -/
def State.rillClass (s : State) (c : Nat) : Option RillClass := s.ldr.image.classes.find? (fun x => x.id = c)

/-! ## Conditions -/

/-- The device is up: every domain but standby's is clocked and commands of its units may run. -/
def State.ready (s : State) : Bool := s.dev.life == .ready

/-- Whether the CTRL and TIME domains are clocked: from the deassertion of PERST_N to standby, a hard stop or the loss
of power (R396, R404, R465). -/
def State.clocked (s : State) : Bool :=
  match s.dev.life with
  | .booting | .ready | .recovery => true
  | _ => false

/-- Thyme's counter as a number. -/
def State.nowNs (s : State) : Nat := s.thy.now.toNat

/-- Whether a power domain is live (R348). -/
def State.domainLive (s : State) (d : Domain) : Bool := s.weir.live.contains d

/-- Whether Sluice and ingest issue nothing: coolant stop, from its first step on (R373). -/
def State.coolantHeld (s : State) : Bool := s.weir.coolant != .none

/-- A stored register as a number. -/
def State.regNat (s : State) (r : Reg) (u i : Nat) : Nat := (s.reg r u i).toNat

/-- One bit of a stored register. -/
def State.regBit (s : State) (r : Reg) (u i b : Nat) : Bool := (s.reg r u i).getLsbD b

end Sys2Proof.Machine
end

