-- ==== Sys2Proof/Machine/WeirPoint.lean ====
section
/-! DEFINITION. Weir's figures by part, the operating points, the effective cap and the effective point
(R348, R350, R351, R354, R355, R358, R376). -/

set_option Elab.async false

namespace Sys2Proof.Machine

/-- TDP in mW (Table 13.2). -/
def tdpMw : Part → Nat
  | .sw7360 => 160000
  | .sw7340 => 125000
  | .sw7320 => 85000

/-- Sprint maximum in mW (Table 13.2). -/
def sprintMaxMw : Part → Nat
  | .sw7360 => 215000
  | .sw7340 => 170000
  | .sw7320 => 115000

/-- Brake floor in mW (Table 13.2). -/
def brakeFloorMw : Part → Nat
  | .sw7360 => 35000
  | .sw7340 => 30000
  | .sw7320 => 24000

/-- Frequency of a point in MHz (Table 13.3). -/
def pointMhz : Nat → Nat
  | 0 => 600 | 1 => 750 | 2 => 900 | 3 => 1000 | 4 => 1125 | 5 => 1250 | 6 => 1375 | _ => 1500

/-- Nominal VDD_ARITH of a point in mV (Table 13.3). -/
def pointMv : Nat → Nat
  | 0 => 550 | 1 => 600 | 2 => 650 | 3 => 700 | 4 => 750 | 5 => 800 | 6 => 850 | _ => 900

/-- The part's voltage offset in mV (R351). -/
def State.voffset (s : State) : Int := signed 8 (s.regNat .WEIR_VOFFSET 0 0)

/-- Fixed-clock mode (R355). -/
def State.fixedClock (s : State) : Bool := s.regBit .WEIR_CTRL 0 0 0

/-- Whether a cluster has a live domain. -/
def State.clusterLive (s : State) (n : Nat) : Bool :=
  clusterPresent s.dev.part n &&
    (s.domainLive (.basin n) || (List.range 8).any (fun k => s.domainLive (.core (8 * n + k))))

/-- The present clusters, ascending. -/
def State.clusters (s : State) : List Nat := (List.range 4).filter (clusterPresent s.dev.part)

/-- The effective cap in mW, 0 for none (R358). -/
def State.effCap (s : State) : Nat :=
  let a := s.regNat .WEIR_CAP_MW 0 0
  let b := s.regNat .WEIR_CAP_ODROV_MW 0 0
  let c := if a = 0 then b else if b = 0 then a else min a b
  if c = 0 then 0 else max c (brakeFloorMw s.dev.part)

/-- The phase entry in force (R353). -/
def State.phaseEntry (s : State) : Nat := s.regNat .WEIR_PHASE 0 (s.regNat .WEIR_PHASE_SEL 0 0 % 8)

/-- The phase's preferred point. -/
def State.phasePoint (s : State) : Nat := s.phaseEntry % 8

/-- The point that a cluster's thermal limit allows (R371); `thermPt` 0, below point 0, stops the clock. -/
def ClPwr.thermPoint (c : ClPwr) : Nat := c.thermPt - 1

/-- Whether a thermal limit is engaged on any cluster (R371). -/
def State.thermalEngaged (s : State) : Bool := s.clusters.any (fun n => (s.clPwr n).engaged)

/-- Whether a cluster may be at a sprint point: sprint is in force, and the cluster is at one already or no thermal limit is
in force (R365). -/
def State.maySprint (s : State) (n : Nat) : Bool :=
  s.weir.sprint.on && (decide (6 ≤ (s.clPwr n).point) || !s.thermalEngaged)

/-- Whether any cluster is at a sprint point. -/
def State.atSprint (s : State) : Bool := s.clusters.any (fun n => s.clusterLive n && 6 ≤ (s.clPwr n).point)

/-- Items 1, 2, 4 and 6 of R354, or R355: what the cluster could run at without the cap. -/
def State.uncappedPoint (s : State) (n : Nat) : Nat :=
  let c := s.clPwr n
  if s.fixedClock then min 5 c.thermPoint
  else
    min (min s.phasePoint (s.regNat .WEIR_CL_FMAX 0 n % 8))
      (min c.thermPoint (if s.maySprint n then 7 else 5))

/-- Items 1 to 4 and 6 of R354. -/
def State.allowedPoint (s : State) (n : Nat) : Nat :=
  if s.fixedClock then s.uncappedPoint n else min (s.uncappedPoint n) (s.clPwr n).capPt

/-- The clusters of the collective group that a cluster belongs to, if any (R154, R376). -/
def State.groupOf (s : State) (n : Nat) : Option (List Nat) :=
  (s.slu.groups.find? (fun g => g.2.contains n)).map (·.2)

/-- The lowest of a function's values over a list, at most `a`. -/
def minOver (f : Nat → Nat) (a : Nat) : List Nat → Nat
  | [] => a
  | x :: xs => minOver f (min a (f x)) xs

/-- The effective point of R354, with the coupled point of R376. -/
def State.effectivePoint (s : State) (n : Nat) : Nat :=
  match s.groupOf n with
  | some g => minOver s.allowedPoint (s.allowedPoint n) g
  | none => s.allowedPoint n

/-- Whether the brake is in force: either pin (R458), from device ready on (R469). -/
def State.brakePins (s : State) : Bool := s.dev.pins.brake || s.dev.pins.vrAlert

/-- Whether a cluster's clock is stopped: brake, coolant stop, thermal limit below point 0 (R362, R371, R373). -/
def State.clockStopped (s : State) (n : Nat) : Bool := (s.clPwr n).stopped

/-- Sprint residency over the 1,440 bins of 24 hours in seconds (R368). -/
def Sprint.residency (p : Sprint) : Nat := p.bins.foldl (· + ·) p.binNs / 1000000000

/-- Whether any cluster is held below its other limits by the cap, the "capped" of Table 13.8. -/
def State.capped (s : State) : Bool :=
  !s.fixedClock && s.effCap != 0 && s.clusters.any (fun n => s.clusterLive n && (s.clPwr n).capPt < s.uncappedPoint n)

/-! ## Kills that wait for a clock -/

/-- Whether every write of a finished tile of a core is visible: its commit has then been sent (R122). -/
def Core.sent (c : Core) (d : DoneTile) : Bool := c.drains.all (fun x => x.tile != d.no)

/-- A kill reaches a core (R126). The commits that it has sent stay on their way; the others are not sent. -/
def Core.kill (c : Core) : Core :=
  { c with st := .killing, killed := false, fires := [], waiting := none, done := c.done.filter c.sent }

/-- The cores of a list whose clock runs again take the kills that waited for it (R23, R126). -/
def State.takeKills (s : State) (n : Nat) : List Nat → State
  | [] => s
  | k :: ks =>
    State.takeKills
      (if (s.core k).killed && !s.clockStopped n then s.setCore k (s.core k).kill else s) n ks

/-- The cores of cluster `n`. -/
def coresOf (n : Nat) : List Nat := (List.range 8).map (fun k => 8 * n + k)

end Sys2Proof.Machine
end

