-- ==== Sys2Proof/Machine/Views.lean ====
section
/-! DEFINITION. What each register reads as: the registers that show other state are computed here, every other one
reads its stored value (R24). -/

set_option Elab.async false

namespace Sys2Proof.Machine

/-- Sum of terms `2 ^ i` over the positions below `n` that pass a test. -/
def bitsOf (n : Nat) (p : Nat → Bool) : Nat := ((List.range n).filter p).foldl (fun a i => a + 2 ^ i) 0

/-! ## GLB (R1, R2, R53) -/

def ImgState.code : ImgState → Nat
  | .empty => 0 | .loading => 1 | .loaded => 2 | .refused => 3 | .unloading => 4

/-- part_code of Table 0.3. -/
def partCode : Part → Nat
  | .sw7360 => 0x7360 | .sw7340 => 0x7340 | .sw7320 => 0x7320

def State.viewGlb (s : State) : Reg → W64
  | .GLB_ID => BitVec.ofNat 64 (partCode s.dev.part * 65536 + 0x21)
  | .GLB_CAP_UNITS => capUnits s.dev.part
  | .GLB_IMG_STATE =>
    BitVec.ofNat 64
      (s.ldr.state.code + 8 * b2n s.ldr.locked + 16 * b2n s.deterministic + 32 * b2n s.ldr.swap.isSome
        + 256 * satNat 255 (s.ldr.segs.filter (·.retiring)).length + 65536 * (s.ldr.swapCount % 65536))
  | .GLB_IMG_STATUS => s.ldr.status.setWidth 64
  | .GLB_IMG_FAIL_SECTION => s.ldr.failSection.setWidth 64
  | .GLB_IMG_FAIL_ENTRY => s.ldr.failEntry.setWidth 64
  | .GLB_IMG_FAIL_NEED => s.ldr.failNeed
  | .GLB_IMG_FAIL_HAVE => s.ldr.failHave
  | .GLB_IMG_ID => if s.ldr.state = .loaded ∨ s.ldr.state = .unloading then s.ldr.image.imageId else 0
  | .GLB_IMG_VERSION =>
    if s.ldr.state = .loaded ∨ s.ldr.state = .unloading then s.ldr.image.version.setWidth 64 else 0
  | .GLB_SEG_INFO =>
    match s.ldr.segs.find? (fun g => g.id = s.regNat .GLB_SEG_SEL 0 0 % 65536) with
    | some g => BitVec.ofNat 64 (1 + 2 * b2n g.retiring + 4 * b2n g.activeB + 65536 * (g.epoch % 65536))
    | none => 0
  | r => s.reg r 0 0

/-! ## HEP (R405) -/

/-- A little-endian field of a function's configuration bytes. -/
def FnState.cfgRd (f : FnState) (a n : Nat) : Nat := leVal (Mem.readList f.cfg a n)

/-- VF Enable and NumVFs of the SR-IOV capability at 0x2A0 (R402; bit places PRESUMED, log 8). -/
def State.vfEnable (s : State) : Bool := bitAt ((s.fn 0).cfgRd 0x2A8 2) 0
def State.numVfs (s : State) : Nat := (s.fn 0).cfgRd 0x2B0 2

/-- Whether function `n` is enabled (HEP_FN_STATE). -/
def State.fnEnabled (s : State) (n : Nat) : Bool := n = 0 || (n < 32 && s.vfEnable && n ≤ s.numVfs)

def State.viewHep (s : State) : Reg → W64
  | .HEP_LINK =>
    BitVec.ofNat 64 (s.dev.link.rate + 16 * s.dev.link.width + 512 * b2n s.dev.link.flit)
  | .HEP_FN_STATE => BitVec.ofNat 64 (bitsOf 32 s.fnEnabled)
  | .HEP_FLR_BUSY => BitVec.ofNat 64 (bitsOf 32 (fun n => (s.fn n).flr != .idle))
  | r => s.reg r 0 0

/-! ## ICU (R407 to R413, R428, R431) -/

/-- Enable and mode of ICU_SRC_CFG. -/
def State.srcEnable (s : State) (i : Nat) : Bool := s.regBit .ICU_SRC_CFG 0 i 0
def State.srcMode (s : State) (i : Nat) : Nat := field (s.regNat .ICU_SRC_CFG 0 i) 1 2

/-- The pending bit as read: the condition in level mode, else the stored bit (R407). -/
def State.srcPending (s : State) (i : Nat) : Bool :=
  if s.srcMode i = 0 then s.icu.cond.getLsbD i else s.icu.pend.getLsbD i

/-- The function and vector of a source (R395): the vector is modulo 64 for a VF. -/
def State.srcFn (s : State) (i : Nat) : Nat := field (s.regNat .HEP_SRC_VEC 0 i) 16 5
def State.srcVec (s : State) (i : Nat) : Nat :=
  if s.srcFn i = 0 then field (s.regNat .HEP_SRC_VEC 0 i) 0 10 else field (s.regNat .HEP_SRC_VEC 0 i) 0 10 % 64

/-- Configuration bits of a function (Table 14.2; bit places PRESUMED, log 8). -/
def FnState.mse (f : FnState) : Bool := bitAt (f.cfgRd 0x04 2) 1
def FnState.bme (f : FnState) : Bool := bitAt (f.cfgRd 0x04 2) 2
def FnState.d3hot (f : FnState) : Bool := f.cfgRd 0x44 1 % 4 = 3
def FnState.msiOn (f : FnState) : Bool := bitAt (f.cfgRd 0x52 2) 0
def FnState.msixOn (f : FnState) : Bool := bitAt (f.cfgRd 0xB2 2) 15
def FnState.msixMaskAll (f : FnState) : Bool := bitAt (f.cfgRd 0xB2 2) 14

/-- Whether the endpoint can take a message of a function: an enabled function, not in an FLR, with Bus Master Enable
and MSI-X or MSI (R390, R394, R395, R398). -/
def State.canSend (s : State) (n : Nat) : Bool :=
  s.fnEnabled n && (s.fn n).bme && (s.fn n).flr == .idle && ((s.fn n).msixOn || (n == 0 && (s.fn n).msiOn))

/-- A candidate of R408, but for whether the endpoint can send. -/
def State.candidate (s : State) (i : Nat) : Bool :=
  s.srcEnable i &&
    (if s.srcMode i = 0 then s.icu.cond.getLsbD i && !s.icu.delivered.getLsbD i else s.icu.pend.getLsbD i)

/-- A candidate that the endpoint can send (R409). -/
def State.sendable (s : State) (i : Nat) : Bool := s.candidate i && s.canSend (s.srcFn i)

/-- Byte `k` of a device error-log entry (Table 15.4). -/
def ElogEntry.bytes (e : ElogEntry) : List Byte :=
  leBytes 8 e.time.toNat ++ leBytes 2 e.status.toNat ++ leBytes 1 e.unit ++ leBytes 1 e.index ++ leBytes 2 e.ctx
    ++ leBytes 1 e.fn ++ [0] ++ leBytes 8 e.detail.toNat ++ leBytes 4 e.rep.toNat ++ leBytes 4 e.seq.toNat

/-- The log entry at ring position `i` of a log of `n` places, newest first, of which `head` have been written. -/
def logAt {α : Type} (log : List α) (head n i : Nat) : Option α :=
  let age := (head + n - 1 - i % n) % n
  if age < head then log[age]? else none

/-- A 32-bit word of a byte list. -/
def wordOf (b : List Byte) (w : Nat) : W64 := BitVec.ofNat 64 (leVal ((b.drop (4 * w)).take 4))

def State.viewIcu (s : State) (i : Nat) : Reg → W64
  | .ICU_STATE =>
    BitVec.ofNat 64 (b2n (!s.regBit .ICU_CTRL 0 0 0 && (List.range 512).any s.candidate))
  | .ICU_HOLDOFF_LEFT => BitVec.ofNat 64 (ceilDiv (SMap.get (fun _ => 0) s.icu.timers i) 500)
  | .ICU_PEND => BitVec.ofNat 64 (bitsOf 16 (fun k => s.srcPending (16 * i + k)))
  | .ICU_COND => BitVec.ofNat 64 (bitsOf 16 (fun k => s.icu.cond.getLsbD (16 * i + k)))
  | .ICU_ELOG_HEAD => BitVec.ofNat 64 (s.icu.logHead % 2 ^ 32)
  | .ICU_ELOG =>
    match logAt s.icu.log s.icu.logHead 256 (i / 8) with
    | some e => wordOf e.bytes (i % 8)
    | none => 0
  | r => s.reg r 0 i

/-! ## Thyme (R417 to R426, R433) -/

def Lock.code : Lock → Nat
  | .free => 0 | .acquiring => 1 | .locked => 2 | .holdover => 3

def State.viewThyme (s : State) (i : Nat) : Reg → W64
  | .THYME_NOW => s.thy.now
  | .THYME_STATE => BitVec.ofNat 64 (b2n s.dev.role + 2 * s.thy.lock.code)
  | .THYME_OFFSET => BitVec.ofNat 64 (unsigned 32 s.thy.offset)
  | .THYME_TRIM_PPB => BitVec.ofNat 64 (unsigned 32 s.thy.trimPpb)
  | .THYME_SNAP_STATUS =>
    BitVec.ofNat 64 (b2n s.thy.snapBusy + 2 * b2n s.thy.snapRetained + 4 * s.thy.snapCause)
  | r => s.reg r 0 i

/-! ## Weir (R379) -/

/-- WEIR_STATE[2:0]: the states that coincide are shown in the order of R375, then sprint, then capped (log 14). -/
def State.weirCode (s : State) : Nat :=
  if s.weir.coolant != .none then 5
  else if s.weir.brake then 4
  else if s.thermalEngaged then 3
  else if s.weir.sprint.on then 1
  else if s.capped then 2
  else 0

def State.viewWeir (s : State) (i : Nat) : Reg → W64
  | .WEIR_STATE => BitVec.ofNat 64 (s.weirCode + 8 * b2n (s.weir.duty < 8 || s.weir.brake))
  | .WEIR_CAP_EFF_MW => BitVec.ofNat 64 s.effCap
  | .WEIR_PWR_MW => BitVec.ofNat 64 s.weir.powerMw
  | .WEIR_CL_POINT =>
    if clusterPresent s.dev.part i then
      BitVec.ofNat 64
        ((s.clPwr i).point % 8 + 8 * b2n (s.groupOf i).isSome + 16 * b2n (s.clPwr i).stretched
          + 32 * b2n (s.clPwr i).stopped + 65536 * (if s.clusterLive i then pointMhz (s.clPwr i).point else 0))
    else 0
  | .WEIR_SPRINT_BUDGET_MJ => BitVec.ofNat 64 (s.weir.sprint.budgetNj / 1000000).toNat
  | .WEIR_SPRINT_RES_S => BitVec.ofNat 64 s.weir.sprint.residency
  | r => s.reg r 0 i

/-! ## Sage and Odrov (R437, R452) -/

/-- The number of bits of a counter that read 1 (R435). -/
def counterVal (v : W64) : Nat := ((List.range 64).filter (fun i => v.getLsbD i)).length

/-- The slot table in force: the copy with a correct CRC and the higher sequence number (R437). -/
def FlashSt.table (f : FlashSt) : SlotTable :=
  if f.copy0.crcOk && (!f.copy1.crcOk || f.copy1.seq.ult f.copy0.seq) then f.copy0 else f.copy1

/-- Slot `b` (false A, true B) of subsystem `s`. -/
def FlashSt.slot (f : FlashSt) (s : Nat) (b : Bool) : SlotInfo :=
  SMap.get (fun _ => factorySlot) f.slots (2 * s + b2n b)

/-- Whether the table marks a slot valid. -/
def SlotTable.valid (t : SlotTable) (s : Nat) (b : Bool) : Bool := if b then t.validB.getLsbD s else t.validA.getLsbD s

/-- The slot of a subsystem that is in service. -/
def State.inService (s : State) (k : Nat) : SlotInfo := s.dev.flash.slot k (s.dev.flash.inService.getLsbD k)

/-- The firmware counter of a subsystem (Table 16.1). -/
def Fuses.fw (f : Fuses) (s : Nat) : W64 := SMap.get (fun _ => 0) f.arbFw s

def State.viewSage (s : State) (i : Nat) : Reg → W64
  | .SAGE_STATE =>
    BitVec.ofNat 64
      ((match s.dev.life with
        | .ready => 1
        | .standby => 1
        | .recovery => 2
        | _ => 0) + 4 * b2n s.sage.mbox.isSome)
  | .SAGE_SLOT_A =>
    if s.dev.flash.table.valid i false then (s.dev.flash.slot i false).version.setWidth 64 else 0
  | .SAGE_SLOT_B =>
    if s.dev.flash.table.valid i true then (s.dev.flash.slot i true).version.setWidth 64 else 0
  | .SAGE_SLOT_SEC =>
    BitVec.ofNat 64 ((s.dev.flash.slot i false).security % 256 + 256 * ((s.dev.flash.slot i true).security % 256))
  | .SAGE_SLOT_ACT =>
    BitVec.ofNat 64 (b2n (s.dev.flash.table.activeB.getLsbD i) + 2 * b2n (s.dev.flash.inService.getLsbD i))
  | .SAGE_ARB_FW => BitVec.ofNat 64 (counterVal (s.dev.fuses.fw i))
  | .SAGE_ARB_IMAGE => BitVec.ofNat 64 (counterVal s.dev.fuses.arbImage)
  | .ODROV_EID => BitVec.ofNat 64 (s.sage.eidSmb % 256 + 256 * (s.sage.eidVdm % 256))
  | r => s.reg r 0 i

/-! ## Sluice (R283, R318) -/

/-- Whether a context is resident on a cluster. -/
def State.resident (s : State) (c n : Nat) : Bool := (SMap.find? (s.ctxRun c).place n).isSome

/-- The contexts resident on a cluster. -/
def State.residents (s : State) (n : Nat) : List CtxEntry := s.ldr.image.ctxs.filter (fun x => s.resident x.id n)

/-- Table 11.2. -/
def State.ctxState (s : State) (c : Nat) : Nat :=
  match s.ctxEntry c with
  | none => 0
  | some e =>
    let x := s.ctxRun c
    if x.moving.isSome || s.slu.ctxs.any (fun y => (y.2.moving.bind (·.out)) == some c) then 3
    else if x.holds ≠ [] then 6
    else if e.kind = 2 then
      if x.place = [] then (if x.runnable then 2 else 1) else (if x.runnable then 5 else 4)
    else if x.runnable then 5 else 1

/-- flags[2] of a context entry: pinned resident (R46). -/
def CtxEntry.pinned (e : CtxEntry) : Bool := bitAt e.flags 2

def State.viewSluice (s : State) (i : Nat) : Reg → W64
  | .SLUICE_STATE =>
    BitVec.ofNat 64 (b2n s.imageLoaded + 2 * b2n s.deterministic
      + 65536 * (if s.imageLoaded then s.ldr.image.ctxs.length else 0))
  | .SLUICE_FW_VER => (s.inService 1).version.setWidth 64
  | .SLUICE_RESIDENT =>
    BitVec.ofNat 64 (((List.range 4).map (fun n => (s.residents n).length * 2 ^ (8 * n))).foldl (· + ·) 0)
  | .SLUICE_WIN_USED => BitVec.ofNat 64 s.dram.windows.length
  | .SLUICE_CL_RUN =>
    BitVec.ofNat 64 ((match s.holder i with
      | some c => c
      | none => 0xFFFF) + 65536 * b2n (s.slu.heldIdle.contains i))
  | .SLUICE_CTX =>
    match s.ctxEntry i with
    | none => 0
    | some e =>
      BitVec.ofNat 64
        (s.ctxState i + 8 * b2n e.pinned + 16 * bitsOf 4 (s.resident i) + 256 * satNat 255 (s.ctxRun i).queue.length
          + 65536 * b2n (s.ctxRun i).receiving)
  | r => s.reg r 0 i

/-! ## Cistern (R347) -/

/-- The handles in cache and ring (CISTERN_POOL_FREE). -/
def Pool.free (p : Pool) : Nat := p.cache.length + (p.tail - p.head)

def State.viewCistern (s : State) (i : Nat) : Reg → W64
  | .CISTERN_STATE => BitVec.ofNat 64 s.pools.length
  | .CISTERN_POOL_FREE =>
    match s.pool i with
    | some p => BitVec.ofNat 64 p.free
    | none => 0
  | .CISTERN_POOL_MIN =>
    match s.pool i with
    | some p => BitVec.ofNat 64 p.lowest
    | none => 0
  | .CISTERN_POOL_FAIL =>
    match s.pool i with
    | some p => BitVec.ofNat 64 p.fails
    | none => 0
  | .CISTERN_POOL_CFG =>
    match s.pool i with
    | some p => BitVec.ofNat 64 (p.owner % 65536 + 65536 * b2n p.reinit)
    | none => 0
  | .CISTERN_POOL_SIZE =>
    match s.pool i with
    | some p => BitVec.ofNat 64 p.size
    | none => 0
  | .CISTERN_POOL_COUNT =>
    match s.pool i with
    | some p => BitVec.ofNat 64 p.count
    | none => 0
  | .CISTERN_POOL_RING =>
    match s.pool i with
    | some p => BitVec.ofNat 64 p.ringAddr
    | none => 0
  | r => s.reg r 0 i

/-! ## Ingest and decode (R229, R230) -/

def RillSt.code : RillSt → Nat
  | .detached => 0 | .attached => 1 | .refused => 2 | .faulted => 3 | .draining => 4

/-- The rills that are attached, faulted or draining. -/
def State.activeRills (s : State) : Nat :=
  (s.ing.rills.filter (fun x => x.2.st == .attached || x.2.st == .faulted || x.2.st == .draining)).length

def State.viewIngest (s : State) (i : Nat) : Reg → W64
  | .INGEST_STATE => BitVec.ofNat 64 (2 * b2n s.ing.scanPending + 65536 * s.activeRills)
  | .INGEST_SAT => BitVec.ofNat 64 (bitsOf 16 (fun n => (s.engine n).saturated))
  | .INGEST_RILL =>
    BitVec.ofNat 64 ((s.rill i).st.code + (match (s.rill i).ctx with
      | some c => 256 * (c / 32) + 4096 * (c % 32)
      | none => 0))
  | r => s.reg r 0 i

/-- Whether the context on an engine is copying a raw frame: its rill's copy in flight is of a raw class (R228). -/
def State.copyingRaw (s : State) (n : Nat) : Bool :=
  s.ing.rills.any (fun x =>
    match x.2.ctx with
    | some c => c / 32 = n && x.2.copies ≠ [] &&
        (match s.rillClass x.2.cls with
         | some k => k.codec = 4
         | none => false)
    | none => false)

/-- The microcode version in service on an engine (R449). -/
def State.ucodeVer (s : State) (n : Nat) : W32 := SMap.get (fun _ => (s.inService 4).version) s.dev.ucode n

/-- DEC_CTX_USED of an engine as its contexts stand. -/
def State.ctxUsed (s : State) (n : Nat) : W64 :=
  BitVec.ofNat 64 (bitsOf 32 (fun k =>
    match s.decCtx (32 * n + k) with
    | some c => c.rill.isSome
    | none => false))

/-- Whether an engine's domain is gated or its clock stopped: its status registers keep what they held (R23). -/
def State.decHeld (s : State) (n : Nat) : Bool := !s.domainLive (.decode (n / 4)) || s.weir.coolant != .none

def State.viewDec (s : State) (n : Nat) : Reg → W64
  | .DEC_STATE =>
    BitVec.ofNat 64
      (if !s.domainLive (.decode (n / 4)) then 0
       else match (s.engine n).current with
        | some c => 2 + 256 * (c % 32)
        | none => if s.copyingRaw n then 3 else 1)
  | .DEC_CTX_USED => if s.decHeld n then s.reg .DEC_CTX_USED n 0 else s.ctxUsed n
  | .DEC_UCODE_VER => (s.ucodeVer n).setWidth 64
  | r => s.reg r n 0

/-! ## Pixel path, track engine (R245, R279, R280) -/

def State.viewPxe (s : State) (n : Nat) : Reg → W64
  | .PXE_STATE =>
    BitVec.ofNat 64
      (if !s.domainLive .pixel then 0
       else match s.pxe n with
        | some p => 2 + 256 * (p.region % 64)
        | none => 1)
  | .PXE_CMD =>
    match s.pxe n with
    | some p => BitVec.ofNat 64 (p.ctx % 4096 + 4096 * (p.rill % 512))
    | none => s.reg .PXE_CMD n 0
  | r => s.reg r n 0

/-- Whether a decode context is one that a rill class's pictures count for: it feeds the class's first context, or is it. The
spec names no context for a picture (log 53). -/
def CtxEntry.serves (e : CtxEntry) (k : RillClass) : Bool :=
  e.kind == 0 && (k.firstCtx == e.id || e.succ.contains k.firstCtx)

/-- The lowest present engine that has not switched to an activated microcode (R449). -/
def State.nextSwitch (s : State) : Option Nat :=
  (List.range 16).find? (fun n => decPresent s.dev.part n && !s.sage.switched.contains n)

/-- Whether an engine is the next to switch: it takes no new picture (R449). -/
def State.switchHolds (s : State) (eng : Nat) : Bool := s.sage.pendingSwitch.getLsbD 4 && s.nextSwitch == some eng

/-- The rills whose track command is running (R247). -/
def State.trackRunning (s : State) : Nat := (s.trk.perRill.filter (fun x => x.2.running.isSome)).length

def State.viewTrk (s : State) : Reg → W64
  | .TRK_STATE =>
    BitVec.ofNat 64
      ((if !s.domainLive .track then 0 else if s.trackRunning = 0 then 1 else 2) + 256 * (s.trackRunning % 32))
  | .TRK_STORE_USED => BitVec.ofNat 64 s.trk.tracks.length
  | .TRK_STORE_PEAK => BitVec.ofNat 64 s.trk.storePeak
  | .TRK_EMBQ_USED => BitVec.ofNat 64 s.trk.embq.length
  | r => s.reg r 0 0

def State.viewRing (s : State) (n : Nat) : Reg → W64
  | .TRK_RING_PROD => BitVec.ofNat 64 ((s.ring n).prod % 2 ^ 32)
  | r => s.reg r n 0

/-! ## Tile cores (R128) -/

def CoreSt.code : CoreSt → Nat
  | .gated => 0 | .idle => 1 | .running => 2 | .killing => 3 | .committing => 4 | .halted => 5

def State.viewTc (s : State) (n : Nat) : Reg → W64
  | .TC_STATE =>
    let c := s.core n
    BitVec.ofNat 64
      (c.st.code + (match c.loaded with
        | some k => 8 + 16 * (k % 8)
        | none => 0) + 256 * (c.ctx % 4096))
  | .TC_CMD => BitVec.ofNat 64 ((s.core n).cmd % 65536 + 65536 * ((s.core n).gen % 65536))
  | .TC_TILE => BitVec.ofNat 64 ((s.core n).tile % 2 ^ 32)
  | .TC_STATUS => (s.core n).lastStatus.setWidth 64
  | r => s.reg r n 0

/-! ## DRAM controllers (R335 to R337, R346) -/

def DramMode.code : DramMode → Nat
  | .selfRefresh => 0 | .running => 1 | .entering => 2 | .leaving => 3

/-- The bytes of a DMC log entry (Table 12.5). -/
def DmcLog.bytes (e : DmcLog) : List Byte :=
  leBytes 8 e.time.toNat ++ leBytes 1 e.channel ++ leBytes 1 e.kind ++ leBytes 1 e.port ++ [0] ++ leBytes 4 e.block

/-- in_recal of a controller. -/
def Dmc.recalBits (d : Dmc) : Nat :=
  match d.recal with
  | some (g, _) => 2 ^ g
  | none => 0

def State.viewDmc (s : State) (n i : Nat) : Reg → W64
  | .DMC_STATE => BitVec.ofNat 64 (s.dev.dramMode.code + 256 * (s.dmc n).recalBits)
  | .DMC_RECAL_STATUS =>
    BitVec.ofNat 64
      (s.regNat .DMC_RECAL_STATUS n 0 % 65536 + 65536 * (s.dmc n).recalBits + 2 ^ 20 * b2n (s.dmc n).training.isSome)
  | .DMC_ELOG_HEAD => BitVec.ofNat 64 ((s.dmc n).logHead % 2 ^ 32)
  | .DMC_ELOG =>
    match logAt (s.dmc n).log (s.dmc n).logHead 64 (i / 4) with
    | some e => wordOf e.bytes (i % 4)
    | none => 0
  | r => s.reg r n i

/-! ## Every register -/

/-- The value that a register holds (R24): `l.unit` the unit, `l.idx` the instance. -/
def State.readReg (s : State) (l : RegLoc) : W64 :=
  match l.row.blk with
  | .glb => s.viewGlb l.row.name
  | .hep => if l.row.name = .HEP_SRC_VEC then s.reg .HEP_SRC_VEC 0 l.idx else s.viewHep l.row.name
  | .icu => s.viewIcu l.idx l.row.name
  | .thyme => s.viewThyme l.idx l.row.name
  | .weir => s.viewWeir l.idx l.row.name
  | .sage => s.viewSage l.idx l.row.name
  | .odrov => s.viewSage l.idx l.row.name
  | .sluice => s.viewSluice l.idx l.row.name
  | .cistern => s.viewCistern l.idx l.row.name
  | .ingest => s.viewIngest l.idx l.row.name
  | .dec => s.viewDec l.unit l.row.name
  | .pxe => s.viewPxe l.unit l.row.name
  | .trk => s.viewTrk l.row.name
  | .ring => s.viewRing l.unit l.row.name
  | .tc => s.viewTc l.unit l.row.name
  | .cl => s.reg l.row.name l.unit 0
  | .dmc => s.viewDmc l.unit l.idx l.row.name

end Sys2Proof.Machine
end

