-- ==== Sys2Proof/Machine/Ops.lean ====
section
/-! DEFINITION. The operations that every unit shares: raising a source (R407, R412), taking a snapshot (R423 to R426),
writing the device error log (R428 to R430), sending on the host link (R390, R394), counting (R128). -/

set_option Elab.async false

namespace Sys2Proof.Machine

/-- The outcome of every meaning but one: the next state. -/
abbrev Out := Host.Outcome State Fault Refusal

/-- A command that needs a condition: without it the state stays as it is (log 4). -/
def State.when (s : State) (c : Bool) (f : State → State) : State := if c then f s else s

/-- Set or clear one bit. -/
def putBit {n : Nat} (v : BitVec n) (i : Nat) (b : Bool) : BitVec n :=
  if b then v ||| (1#n <<< i) else v &&& ~~~(1#n <<< i)

/-! ## Snapshots -/

/-- Whether a register is homed in the AO domain: AOW and ODROV (Table 1.5, R432, R452). -/
def aoHomed (l : RegLoc) : Bool :=
  l.row.blk == .odrov ||
    (match l.row.name with
     | .AOW_CTRL | .AOW_HIT | .AOW_TIMER_MS | .AOW_WATCH => true
     | _ => false)

/-- Whether the clock of a register's block is stopped or its domain gated (R23, R425). -/
def State.blockHeld (s : State) (l : RegLoc) : Bool :=
  match l.row.blk with
  | .tc => !s.domainLive (.core l.unit) || s.clockStopped (l.unit / 8)
  | .cl => !s.domainLive (.basin l.unit) || s.clockStopped l.unit
  | .dec => !s.domainLive (.decode (l.unit / 4)) || s.weir.coolant != .none
  | .pxe => !s.domainLive .pixel
  | .trk => !s.domainLive .track
  | _ => false

/-- The value that reads of a register return: 0 for a write-only one (R6). -/
def State.peek (s : State) (l : RegLoc) : W64 := if l.row.acc = .wo then 0 else s.readReg l

/-- The register that a snapshot slot names, if it is valid and names one that latches (R425). -/
def State.snapLoc (s : State) (k : Nat) : Option RegLoc :=
  let v := s.regNat .THYME_SNAP_SEL 0 k
  if !bitAt v 31 then none
  else match regAt (v % 2 ^ 27) with
    | some l => if aoHomed l || !blockPresent s.dev.part l.row.blk l.unit then none else some l
    | none => none

/-- What slot `k` latches: the register, in the width that the slot names (R425). -/
def State.snapVal (s : State) (k : Nat) : W64 :=
  match s.snapLoc k with
  | some l =>
    let v := s.peek l
    let w := if l.high then v >>> 32 else v
    if s.regBit .THYME_SNAP_SEL 0 k 30 then w else w &&& 0xFFFFFFFF#64
  | none => 0

/-- The TC snapshot registers of the present cores (R424, Table 4.13). -/
def State.snapCores (s : State) (seq : W64) : List Nat → State
  | [] => s
  | n :: ns =>
    State.snapCores
      (if corePresent s.dev.part n then
        ((s.setReg .TC_SNAP_UPDATES n 0 (s.reg .TC_CNT_UPDATES n 0)).setReg .TC_SNAP_SEQ n 0 seq)
       else s) seq ns

/-- The slots' values (R425). `vals` were all read at the trigger. -/
def State.snapSlots (s : State) : List (Nat × W64) → State
  | [] => s
  | (k, v) :: ks => State.snapSlots (s.setReg .THYME_SNAP_VAL 0 k v) ks

/-- Whether a block that latches retains its values (R425): a present core, or the block of a valid slot. -/
def State.snapRetained (s : State) : Bool :=
  (List.range 32).any (fun n => corePresent s.dev.part n &&
      (!s.domainLive (.core n) || s.clockStopped (n / 8))) ||
    (List.range 64).any (fun k => match s.snapLoc k with
      | some l => s.blockHeld l
      | none => false)

/-- A cause of a snapshot arrives (R423 to R426): `cause` is its number less 1, `at_` the counter value S. -/
def State.snapshot (s : State) (cause : Nat) (at_ : W64) : State :=
  if s.thy.snapBusy then s.count .THYME_CNT_SNAPDROP 0
  else
    let seq := (s.reg .THYME_SNAP_SEQ 0 0 + 1) &&& 0xFFFFFFFF#64
    let vals := (List.range 64).map (fun k => (k, s.snapVal k))
    let ret := s.snapRetained
    let s1 := (s.snapCores seq (List.range 32)).snapSlots vals
    let s2 := (s1.setReg .THYME_SNAP_SEQ 0 0 seq).setReg .THYME_SNAP_TIME 0 0 at_
    { s2 with thy := { s2.thy with snapBusy := true, snapRetained := ret, snapCause := cause } }

/-! ## Interrupt sources -/

/-- The source cause of R423: the pending bit of source `i` has changed from 0 to 1. -/
def State.sourceCause (s : State) (i : Nat) : State :=
  if s.regBit .THYME_SNAP_CFG 0 0 2 && field (s.regNat .THYME_SNAP_CFG 0 0) 3 9 = i then s.snapshot 3 s.thy.now else s

/-- Whether an edge to `v` is one that a source's mode chooses (R407). -/
def edgeChosen (mode : Nat) (v : Bool) : Bool := if v then mode = 1 || mode = 3 else mode = 2 || mode = 3

/-- Sources whose conditions are formed in the AO domain (R406). -/
def aoCapable (i : Nat) : Bool := i == 4 || i == 5 || i == 16 || i == 17 || i == 18

/-- The condition of source `i` becomes `v` (R407, R408, R412), and whether its pending bit rises. Without CTRL only
the conditions of AO-capable sources change (R406, R414). -/
def State.edgeCore (s : State) (i : Nat) (v : Bool) : State × Bool :=
  if s.icu.cond.getLsbD i = v ∨ (!s.clocked ∧ !aoCapable i) then (s, false)
  else if !s.clocked then ({ s with icu := { s.icu with cond := putBit s.icu.cond i v } }, false)
  else
    let hit := edgeChosen (s.srcMode i) v
    ({ s with icu := { s.icu with
         cond := putBit s.icu.cond i v
         delivered := if v then putBit s.icu.delivered i false else s.icu.delivered
         pend := if hit then putBit s.icu.pend i true else s.icu.pend } },
     if s.srcMode i = 0 then v else hit && !s.icu.pend.getLsbD i)

/-- The condition of source `i` becomes `v`, with the source cause of R423. -/
def State.edge (s : State) (i : Nat) (v : Bool) : State :=
  let r := s.edgeCore i v
  if r.2 then r.1.sourceCause i else r.1

/-- An event source pulses its condition (R406). Each event is an edge of its own: R27 lets two events of one source within 3
CTRL cycles reach the ICU as a single edge, and the model never merges two (DESIGN CHOICE, log 71). -/
def State.raise (s : State) (i : Nat) : State := (s.edge i true).edge i false

/-- The same, where another cause of a snapshot falls in the same cycle and prevails (R423). -/
def State.raiseQuiet (s : State) (i : Nat) : State := ((s.edgeCore i true).1.edgeCore i false).1

/-! ## Device error log -/

/-- The units of Table 15.4. -/
def unitDmc : Nat := 1
def unitTc : Nat := 2
def unitDec : Nat := 3
def unitPxe : Nat := 4
def unitTrk : Nat := 5
def unitSluice : Nat := 6
def unitCistern : Nat := 7
def unitHep : Nat := 8
def unitWeir : Nat := 9
def unitSage : Nat := 10
def unitIngest : Nat := 11
def unitThyme : Nat := 12
def unitIcu : Nat := 13

/-- No context, no function (Table 15.4). -/
def noCtx : Nat := 0xFFFF
def noFn : Nat := 0xFF

/-- Whether a happening merges into the newest entry (R429). -/
def State.elogMerges (s : State) (e : ElogEntry) (status : W16) (unit index : Nat) : Bool :=
  e.status == status && e.unit == unit && e.index == index &&
    s.regNat .ICU_ELOG_MERGE_MS 0 0 != 0 &&
    decide ((s.nowNs - e.time.toNat) + (e.time.toNat - s.nowNs) ≤ s.regNat .ICU_ELOG_MERGE_MS 0 0 * 1000000)

/-- A happening of Table 15.5 (R428, R429). -/
def State.elog (s : State) (status : W16) (unit index ctx fn : Nat) (detail : W64) : State :=
  let fresh : ElogEntry :=
    { time := s.thy.now, status := status, unit := unit, index := index, ctx := ctx, fn := fn, detail := detail,
      rep := 1, seq := BitVec.ofNat 32 s.icu.logHead }
  let write := State.raise { s with icu := { s.icu with
      log := (fresh :: s.icu.log).take 256, logHead := s.icu.logHead + 1 } } 6
  match s.icu.log with
  | e :: es =>
    if s.elogMerges e status unit index then
      { s with icu := { s.icu with
          log := { e with rep := if e.rep = 0xFFFFFFFF#32 then e.rep else e.rep + 1 } :: es } }
    else write
  | [] => write

/-- Set a bit of ICU_ADVISE: 0 dram, 1 parity, 2 watchdog (R430). A change raises source 6. -/
def State.advise (s : State) (b : Nat) : State :=
  if s.regBit .ICU_ADVISE 0 0 b then s
  else (s.updReg .ICU_ADVISE 0 0 (fun v => putBit v b true)).raise 6

/-! ## The host link -/

/-- Whether requests may issue under a function's requester ID (R390). -/
def State.canMaster (s : State) (n : Nat) : Bool := s.fnEnabled n && (s.fn n).bme && (s.fn n).flr == .idle

/-- A posted write (R390, R405). -/
def State.hostWrite (s : State) (fn addr : Nat) (data : List Byte) : State :=
  State.addTo { s with out := s.out ++ [.hostWrite fn addr data] } .HEP_CNT_WR_BYTES 0 data.length

/-- Bytes that a device read brings in (R405). -/
def State.hostRead (s : State) (n : Nat) : State := s.addTo .HEP_CNT_RD_BYTES 0 n

/-- Another message to the outside. -/
def State.send (s : State) (m : OutMsg) : State := { s with out := s.out ++ [m] }

/-- WEIR_STATUS (R379). -/
def State.powerStatus (s : State) (st : W16) : State := s.setReg .WEIR_STATUS 0 0 (st.setWidth 64)

/-- A device read fails (R392): `timedOut` chooses the counter; the status, function and address are recorded, and a
HEP log entry is written (Table 15.5). -/
def State.readFailed (s : State) (status : W16) (fn addr : Nat) (timedOut : Bool) : State :=
  ((((s.count (if timedOut then .HEP_CNT_CPLTO else .HEP_CNT_RDFAIL) 0).setReg .HEP_LAST_RDFAIL 0 0
      (BitVec.ofNat 64 addr)).setReg .HEP_LAST_RDFAIL_INFO 0 0
        (BitVec.ofNat 64 (status.toNat + 65536 * (fn % 32)))).elog status unitHep 0 noCtx fn (BitVec.ofNat 64 addr))

/-! ## Interrupt messages (R394) -/

/-- Reset of a dword of the MSI-X table: a vector control masks (PCIe base specification; PRESUMED, log 8). -/
def msixDefault (i : Nat) : W32 := if i % 4 = 3 then 1#32 else 0#32

/-- A dword of the MSI-X table. -/
def FnState.msixWord (f : FnState) (i : Nat) : W32 := SMap.get msixDefault f.msix i

/-- Whether MSI-X vector `v` is masked, by its entry or the Function Mask (R394). -/
def FnState.msixMasked (f : FnState) (v : Nat) : Bool := f.msixMaskAll || (f.msixWord (4 * v + 3)).getLsbD 0

/-- N of R394: the MSI messages enabled (Multiple Message Enable; bit place PRESUMED, log 8). -/
def FnState.msiCount (f : FnState) : Nat := 2 ^ min 5 (field (f.cfgRd 0x52 2) 4 3)

/-- Put a number in a list without repeats. -/
def putOnce (x : Nat) (xs : List Nat) : List Nat := if xs.contains x then xs else xs ++ [x]

/-- Send the message of a vector by MSI-X or by MSI, or hold it where it is masked (R394). -/
def State.message (s : State) (n v : Nat) : State :=
  let f := s.fn n
  if f.msixOn then
    if f.msixMasked v then s.setFn n { f with pba := putOnce v f.pba } else s.send (.interrupt n v true)
  else
    let m := v % f.msiCount
    if bitAt (f.cfgRd 0x60 4) m then s.setFn n { f with pba := putOnce m f.pba } else s.send (.interrupt n m false)

/-- Send the messages held by a function whose mask has cleared (R394). -/
def State.sendHeld (s : State) (n : Nat) : List Nat → State
  | [] => s
  | v :: vs =>
    let f := s.fn n
    let masked := if f.msixOn then f.msixMasked v else bitAt (f.cfgRd 0x60 4) v
    let s1 := if masked then s
      else (s.setFn n { f with pba := f.pba.filter (fun x => x != v) }).send (.interrupt n v f.msixOn)
    State.sendHeld s1 n vs

/-- The same for every message held, where the function can send (R390, R394). -/
def State.releaseHeld (s : State) (n : Nat) : State := if s.canSend n then s.sendHeld n (s.fn n).pba else s

end Sys2Proof.Machine
end

