-- ==== Sys2Proof/Machine/DramOps.lean ====
section
/-! DEFINITION. DRAM: the address map (R29, R30), the frame map and location of a block (R320, R323), check values and
poison (R324 to R326, R328), the error logs and advisories (R337, R338), and the block accesses of units by requester port (R329). -/

set_option Elab.async false

namespace Sys2Proof.Machine

/-! ## Addresses -/

/-- Bytes of populated DRAM (R29). -/
def dramSize : Part → Nat
  | .sw7320 => 0x200000000
  | _ => 0x400000000

/-- Bytes of a basin (R29). -/
def basinSize : Nat := 0x1000000

/-- The base of basin `n` (R29). -/
def basinBase (n : Nat) : Nat := 0x001000000000 + n * basinSize

/-- What an internal address names. -/
inductive Where where
  | dram (a : Nat)
  | basin (n a : Nat)
  | bad (status : W16)
  deriving DecidableEq, Repr

/-- The status of Table 1.10 for one address that names no memory, or the memory it names (R29, R30). -/
def whereAddr (p : Part) (a : Nat) : Where :=
  if a < dramSize p then .dram a
  else if a < 0x400000000 then .bad Status.addrAbsent
  else if a < 0x001000000000 then .bad Status.addrReserved
  else if a < 0x001004000000 then
    let n := (a - 0x001000000000) / basinSize
    if clusterPresent p n then .basin n ((a - 0x001000000000) % basinSize) else .bad Status.addrAbsent
  else if a < 0x002000000000 then .bad Status.addrReserved
  else if a < 0x002008000000 then .bad Status.addrRegister
  else .bad Status.addrReserved

/-- The status with which an access to `n` bytes from `a` faults, if any: that of the first bad byte of its first and
last byte. The ranges of Table 1.7 are longer than any access that ends in a good byte. -/
def rangeStatus (p : Part) (a n : Nat) : Option W16 :=
  if n = 0 then none
  else
    match whereAddr p a with
    | .bad st => some st
    | _ =>
      match whereAddr p (a + n - 1) with
      | .bad st => some st
      | _ => none

/-! ## The frame map -/

/-- Channel groups present, and frames of 2 MiB (R319, R320). -/
def groupCount : Part → Nat
  | .sw7320 => 4
  | _ => 8
def frameCount (p : Part) : Nat := groupCount p * 1024

/-- The default map (R320): group x 1,024 + stripe of a frame. -/
def defaultMap (p : Part) (f : Nat) : Nat := f % groupCount p * 1024 + f / groupCount p

/-- The group and stripe of a frame in the map in force. -/
def State.frameLoc (s : State) (f : Nat) : Nat := SMap.get (defaultMap s.dev.part) s.dram.frameMap f

/-- Where a 64-byte block lies (R323): global channel, channel-local block index, bank and row. -/
structure BlockLoc where
  channel : Nat
  index : Nat
  bank : Nat
  row : Nat
  deriving DecidableEq, Repr

/-- The location of stripe offset `o` of the stripe `loc` = group x 1,024 + stripe (R323). -/
def locateIn (loc o : Nat) : BlockLoc :=
  let q := o / 256
  let c := (q + q / 8 + q / 64) % 8
  let a := loc % 1024 * 262144 + q / 8 * 256 + o % 256
  let n := a / 256
  { channel := loc / 1024 * 8 + c, index := a / 64, bank := (n / 8 + n / 128) % 16, row := n / 128 }

/-- The location of block `b` = address / 64. -/
def State.blockLoc (s : State) (b : Nat) : BlockLoc := locateIn (s.frameLoc (b / 32768)) (b % 32768 * 64)

/-- The controller of a block (R319). -/
def BlockLoc.dmc (l : BlockLoc) : Nat := l.channel / 32

/-- The local group of a block within its controller. -/
def BlockLoc.group (l : BlockLoc) : Nat := l.channel / 8 % 4

/-! ## Check values -/

/-- One bit of the reflected CRC-32C (R324). -/
def crcBit (c : W32) : W32 := if c.getLsbD 0 then (c >>> 1) ^^^ 0x82F63B78#32 else c >>> 1

/-- `n` bits of it. -/
def crcBits : Nat → W32 → W32
  | 0, c => c
  | n + 1, c => crcBits n (crcBit c)

/-- The running CRC over bytes. -/
def crcBytes : W32 → List Byte → W32
  | c, [] => c
  | c, b :: bs => crcBytes (crcBits 8 (c ^^^ b.setWidth 32)) bs

/-- CRC-32C (R324, R437). -/
def crc32c (bs : List Byte) : W32 := crcBytes 0xFFFFFFFF#32 bs ^^^ 0xFFFFFFFF#32

/-- The location word of a block (R324). -/
def BlockLoc.word (l : BlockLoc) : W32 := BitVec.ofNat 32 (l.channel * 2 ^ 22 + l.index)

/-- The check value C of 64 data bytes at a location (R324). -/
def checkValue (data : List Byte) (l : BlockLoc) : W32 := crc32c (data ++ leBytes 4 l.word.toNat)

/-- Whether a block is poisoned. -/
def State.poisoned (s : State) (b : Nat) : Bool := SMap.get (fun _ => false) s.dram.poison b

/-- The check value that a block holds: C, or C exclusive-or 0xFFFF_FFFF where it is poisoned (R325). -/
def State.storedCheck (s : State) (b : Nat) : W32 :=
  let c := checkValue (Mem.readList s.dram.bytes (b * 64) 64) (s.blockLoc b)
  if s.poisoned b then c ^^^ 0xFFFFFFFF#32 else c

/-! ## Bytes -/

def State.setDramBytes (s : State) (m : Mem) : State := { s with dram := { s.dram with bytes := m } }

/-- Set whether a block is poisoned. What earlier reads found in it no longer holds. -/
def State.setPoison (s : State) (b : Nat) (v : Bool) : State :=
  { s with dram := { s.dram with
      poison := SMap.set (fun _ => false) s.dram.poison b v
      finds := s.dram.finds.filter (fun x => x.block != b) } }

/-- A byte of DRAM as its block holds it. -/
def State.dramByte (s : State) (a : Nat) : Byte := Mem.read s.dram.bytes a

/-- A little-endian field of DRAM. -/
def State.dramRd (s : State) (a n : Nat) : Nat := Mem.rd s.dram.bytes a n

/-- A byte at an internal address. -/
def State.memByte (s : State) (a : Nat) : Byte :=
  match whereAddr s.dev.part a with
  | .dram x => s.dramByte x
  | .basin n x => Mem.read (s.basin n) x
  | .bad _ => 0x00#8

/-- `n` bytes from an internal address. -/
def State.memGet (s : State) (a n : Nat) : List Byte := (List.range n).map (fun i => s.memByte (a + i))

/-- A little-endian field at an internal address. -/
def State.memRd (s : State) (a n : Nat) : Nat := leVal (s.memGet a n)

/-- The blocks that a range of bytes touches: how many, from block `a` / 64 on. -/
def blockSpan (a n : Nat) : Nat := if n = 0 then 0 else (a + n - 1) / 64 - a / 64 + 1

/-! ## Requester ports (Table 12.4) -/

def portIngest : Nat := 0
/-- The port of decode engine `e`. -/
def portDec (e : Nat) : Nat := if e < 8 then 1 else 2
def portPxe : Nat := 3
/-- The port of cluster `n`. -/
def portCl (n : Nat) : Nat := 4 + n
def portTrk : Nat := 8
def portSluice : Nat := 9
def portCistern : Nat := 10
def portFw : Nat := 11

/-! ## What is in service (R332, R335, R348) -/

/-- Engines whose clock is about to stop: DEC_CTX_USED keeps the value that it shows (R23). -/
def State.holdDecs (s : State) : List Nat → State
  | [] => s
  | n :: ns => State.holdDecs (if s.decHeld n then s else s.setReg .DEC_CTX_USED n 0 (s.ctxUsed n)) ns

/-- Whether a block's group is in recalibration, so that its requests wait (R335). -/
def State.groupBusy (s : State) (l : BlockLoc) : Bool :=
  match (s.dmc l.dmc).recal with
  | some (g, _) => g = l.group
  | none => false

/-- Whether no group of the device is in recalibration. -/
def State.noRecal (s : State) : Bool := (s.dmc 0).recal.isNone && (s.dmc 1).recal.isNone

/-- Whether `k` blocks from block `b` on lie outside a group in recalibration. -/
def State.blocksFree (s : State) (b : Nat) : Nat → Bool
  | 0 => true
  | k + 1 => !s.groupBusy (s.blockLoc b) && State.blocksFree s (b + 1) k

/-- Whether DRAM serves `k` blocks from block `b` on now (R332, R335). -/
def State.dramOpen (s : State) (b k : Nat) : Bool :=
  s.dev.dramMode == .running && (s.noRecal || s.blocksFree b k)

/-- Whether a unit's access to `n` bytes from an internal address can proceed: DRAM serves them, or their basin is live and
clocked (R348, R362). An access to a bad address does not wait: it faults (R30). -/
def State.canReach (s : State) (a n : Nat) : Bool :=
  match whereAddr s.dev.part a with
  | .dram x => n == 0 || s.dramOpen (x / 64) (blockSpan x n)
  | .basin k _ => s.domainLive (.basin k) && !s.clockStopped k
  | .bad _ => true

/-- The same for several ranges, as (address, length). A unit's command waits, and leaves the state as it is, until it can
reach what it reads and writes. -/
def State.reach (s : State) (rs : List (Nat × Nat)) : Bool := rs.all (fun x => s.canReach x.1 x.2)

/-! ## Logs and advisories -/

/-- The status that the device log gives a DMC log kind (Table 15.5). -/
def kindStatus : Nat → W16
  | 1 => Status.mismatchCleared
  | 2 => Status.poisonMade
  | 3 => Status.poisonRead
  | _ => Status.partialDiscarded

/-- Write a DMC log entry (R337), and the device error-log entry that it gives rise to (R428, Table 15.5). -/
def State.dmcLog (s : State) (l : BlockLoc) (kind port : Nat) : State :=
  let d := s.dmc l.dmc
  let e : DmcLog := { time := s.thy.now, channel := l.channel, kind := kind, port := port, block := l.index }
  (s.setDmc l.dmc { d with log := (e :: d.log).take 64, logHead := d.logHead + 1 }).elog
    (kindStatus kind) unitDmc l.channel noCtx noFn (BitVec.ofNat 64 l.index)

/-- A field of DMC_CH_ERR counted up, saturating: [31:0], [47:32] or [63:48] (R337). -/
def bumpField (v : W64) (lo len : Nat) : W64 :=
  if field v.toNat lo len = 2 ^ len - 1 then v else v + BitVec.ofNat 64 (2 ^ lo)

/-- Count in DMC_CH_ERR of a channel. -/
def State.chErr (s : State) (l : BlockLoc) (lo len : Nat) : State :=
  s.updReg .DMC_CH_ERR l.dmc (l.channel % 32) (fun v => bumpField v lo len)

/-- Advise the group of local channel `c` of DMC `d` where the channel has reached a threshold (R338): the source is 13
for DMC0 and 15 for DMC1. -/
def State.adviseChan (s : State) (d c : Nat) : State :=
  let v := s.regNat .DMC_CH_ERR d c
  if (s.regNat .DMC_ADV_MISMATCH d 0 ≤ field v 0 32 || s.regNat .DMC_ADV_POISON d 0 ≤ field v 32 16) &&
      !s.regBit .DMC_ADVISE d 0 (c / 8) then
    ((s.updReg .DMC_ADVISE d 0 (fun w => putBit w (c / 8) true)).raise (13 + 2 * d)).advise 0
  else s

/-- The same for a block's channel. -/
def State.adviseGroup (s : State) (l : BlockLoc) : State := s.adviseChan l.dmc (l.channel % 32)

/-- The same for the channels of a list: what a new threshold brings (R338). -/
def State.adviseAll (s : State) (d : Nat) : List Nat → State
  | [] => s
  | c :: cs => State.adviseAll (s.adviseChan d c) d cs

/-! ## Block reads -/

/-- What a read of a block found (R325). -/
inductive ReadFound where
  | good | cleared | poisonedNow | poisonedBefore
  deriving DecidableEq, Repr

/-- What a read finds: poison held, or the outcomes of the first and second read. -/
def State.readFinds (s : State) (b : Nat) (firstBad secondBad : Bool) : ReadFound :=
  if s.poisoned b then .poisonedBefore
  else if !firstBad then .good
  else if !secondBad then .cleared
  else .poisonedNow

/-- A read returns poison that the block had before: counted and logged with kind 3, and the group advised (R337, R338). -/
def State.poisonSeen (s : State) (port b : Nat) : State :=
  let l := s.blockLoc b
  ((s.chErr l 48 16).dmcLog l 3 port).adviseGroup l

/-- The effects of a block read (R325, R337, R338): counts, log entries, the block written back poisoned with the data
of the second read. `partialRead` is the read of a partial write, which does not count a poisoned block (R326). -/
def State.blockRead (s : State) (port b : Nat) (f : ReadFound) (second : List Byte) (partialRead : Bool) : State :=
  let l := s.blockLoc b
  let s1 := s.addTo .DMC_CNT_RD l.dmc 64
  match f with
  | .good => s1
  | .cleared => ((s1.chErr l 0 32).dmcLog l 1 port).adviseGroup l
  | .poisonedNow =>
    (((((s1.setDramBytes (Mem.writeList s1.dram.bytes (b * 64) (second.take 64))).setPoison b true).chErr l 0 32).chErr
      l 32 16).dmcLog l 2 port).adviseGroup l
  | .poisonedBefore => if partialRead then s1 else s1.poisonSeen port b

/-! ## Accesses of units

A unit's command performs the block reads that it needs. A read that finds a mismatch comes before it, as the DRAM_READ of
the unit's port for that block: it is counted and logged there, and `Dram.finds` keeps what it found until the unit's
command uses it (log 77). -/

/-- What a read of a port that its unit has still to use found in a block. -/
def State.findOf (s : State) (port b : Nat) : Option ReadFind :=
  s.dram.finds.find? (fun x => x.port = port && x.block = b)

/-- A find is used. -/
def State.useFind (s : State) (port b : Nat) : State :=
  { s with dram := { s.dram with finds := s.dram.finds.filter (fun x => !(x.port = port && x.block = b)) } }

/-- Keep what a DRAM_READ found for the unit of its port. -/
def State.keepFind (s : State) (port b : Nat) (bad : Bool) : State :=
  let s1 := s.useFind port b
  { s1 with dram := { s1.dram with finds := s1.dram.finds ++ [{ port := port, block := b, bad := bad }] } }

/-- The status with which a port's read of a block returns poison, if it does (R325): 0x5020 where that read poisoned it,
0x5021 where it was poisoned before. -/
def State.blockPoison (s : State) (port b : Nat) : Option W16 :=
  if !s.poisoned b then none
  else if (match s.findOf port b with | some x => x.bad | none => false) then some Status.poisonMade
  else some Status.poisonRead

/-- The first such status among `k` blocks from block `b` on. -/
def State.poisonIn (s : State) (port b : Nat) : Nat → Option W16
  | 0 => none
  | k + 1 =>
    match s.blockPoison port b with
    | some st => some st
    | none => State.poisonIn s port (b + 1) k

/-- The poison status of a port's read of a range, if any (R325, R328). -/
def State.readPoison (s : State) (port a n : Nat) : Option W16 := s.poisonIn port (a / 64) (blockSpan a n)

/-- The poison status of a read at an internal address, if any: only DRAM carries poison. -/
def State.memPoison (s : State) (port a n : Nat) : Option W16 :=
  match whereAddr s.dev.part a with
  | .dram x => s.readPoison port x n
  | _ => none

/-- A unit's read of one block: the counts and log entries of R337. -/
def State.visitBlock (s : State) (port b : Nat) : State :=
  if (s.findOf port b).isSome then s.useFind port b
  else
    let s1 := s.addTo .DMC_CNT_RD (s.blockLoc b).dmc 64
    if s.poisoned b then s1.poisonSeen port b else s1

/-- The same for `k` blocks from block `b` on. -/
def State.visitBlocks (s : State) (port b : Nat) : Nat → State
  | 0 => s
  | k + 1 => State.visitBlocks (s.visitBlock port b) port (b + 1) k

/-- A unit's read of `n` bytes from an internal address. -/
def State.visit (s : State) (port a n : Nat) : State :=
  match whereAddr s.dev.part a with
  | .dram x => s.visitBlocks port (x / 64) (blockSpan x n)
  | _ => s

/-- A unit's reads of several ranges, as (address, length). -/
def State.visitAll (s : State) (port : Nat) : List (Nat × Nat) → State
  | [] => s
  | (a, n) :: rs => State.visitAll (s.visit port a n) port rs

/-- The read of a partial write (R326): counted; a poisoned block is not logged as read. -/
def State.mergeRead (s : State) (port b : Nat) : State :=
  if (s.findOf port b).isSome then s.useFind port b else s.addTo .DMC_CNT_RD (s.blockLoc b).dmc 64

/-- Bytes written to a block (R346). -/
def State.countWrite (s : State) (b : Nat) : State := s.addTo .DMC_CNT_WR (s.blockLoc b).dmc 64

/-- Write part or all of one block (R326, R337): a full write clears poison, a partial one is a read-modify-write that is
discarded at a poisoned block, with a log entry of kind 4. -/
def State.putBlock (s : State) (port a : Nat) (data : List Byte) : State :=
  if data = [] then s
  else if data.length = 64 then
    ((s.setDramBytes (Mem.writeList s.dram.bytes a data)).setPoison (a / 64) false).countWrite (a / 64)
  else
    let s1 := s.mergeRead port (a / 64)
    if s.poisoned (a / 64) then s1.dmcLog (s.blockLoc (a / 64)) 4 port
    else (s1.setDramBytes (Mem.writeList s1.dram.bytes a data)).countWrite (a / 64)

/-- The pieces of a byte range by 64-byte block: `fuel` bounds their number. -/
def pieces : Nat → Nat → List Byte → List (Nat × List Byte)
  | 0, _, _ => []
  | _, _, [] => []
  | k + 1, a, bs => (a, bs.take (64 - a % 64)) :: pieces k (a + (64 - a % 64)) (bs.drop (64 - a % 64))

def State.putPieces (s : State) (port : Nat) : List (Nat × List Byte) → State
  | [] => s
  | (a, bs) :: ps => State.putPieces (s.putBlock port a bs) port ps

/-- A unit's write of bytes to DRAM. -/
def State.dramPut (s : State) (port a : Nat) (data : List Byte) : State :=
  s.putPieces port (pieces (data.length / 64 + 2) a data)

/-- A unit's write of bytes at an internal address: DRAM or a basin. A bad address is not written (R30). -/
def State.memPut (s : State) (port a : Nat) (data : List Byte) : State :=
  match whereAddr s.dev.part a with
  | .dram x => s.dramPut port x data
  | .basin n x => s.setBasin n (Mem.writeList (s.basin n) x data)
  | .bad _ => s

/-- A unit's reads of several ranges, as (address, length): the status with which they fault, if any, a bad address first
(R30, R328), and the state after the reads that reach DRAM. -/
def State.reads (s : State) (port : Nat) (rs : List (Nat × Nat)) : Option W16 × State :=
  match rs.findSome? (fun x => rangeStatus s.dev.part x.1 x.2) with
  | some st => (some st, s)
  | none => (rs.findSome? (fun x => s.memPoison port x.1 x.2), s.visitAll port rs)

end Sys2Proof.Machine
end

