-- ==== Sys2Proof/Machine/CisternOps.lean ====
section
/-! DEFINITION. Cistern's shared operations: handles, allocation, release, refill, reinitialisation (R339 to R345). -/

set_option Elab.async false

namespace Sys2Proof.Machine

/-- The 8 bytes of a handle as a number (R339). -/
def Handle.word (h : Handle) : Nat := h.addr % 2 ^ 48 + 2 ^ 48 * (h.pool % 256)

/-- The handle that 8 bytes spell (R339). -/
def handleOf (v : Nat) : Handle := { addr := v % 2 ^ 48, pool := field v 48 8 }

/-- The DRAM address of ring entry `i` (R340). -/
def Pool.entryAddr (p : Pool) (i : Nat) : Nat := p.ringAddr + 8 * (i % p.cap)

/-- Handles of ring entries `i` to `i + n - 1`; an entry in a poisoned block is lost (R328). -/
def State.ringEntries (s : State) (p : Pool) (i : Nat) : Nat → List Handle
  | 0 => []
  | n + 1 =>
    let rest := State.ringEntries s p (i + 1) n
    if s.poisoned (p.entryAddr i / 64) then rest else handleOf (s.dramRd (p.entryAddr i) 8) :: rest

/-- CISTERN_POOL_MIN after a change of the free store. -/
def Pool.lower (p : Pool) : Pool := { p with lowest := min p.lowest p.free }

/-- The bytes of `n` ring entries from entry `i` on, as (address, length): up to the end of the ring, and from its start. -/
def Pool.entryRanges (p : Pool) (i n : Nat) : List (Nat × Nat) :=
  let k := min n (p.cap - i % p.cap)
  [(p.entryAddr i, 8 * k), (p.ringAddr, 8 * (n - k))]

/-- Entries that a refill moves (R342). -/
def Pool.batch (p : Pool) : Nat := min 32 (p.tail - p.head)

/-- Refill the cache from the ring head with up to 32 handles (R342). -/
def State.refill (s : State) (p : Pool) : State :=
  (s.visitAll portCistern (p.entryRanges p.head p.batch)).setPool
    (Pool.lower { p with cache := p.cache ++ s.ringEntries p p.head p.batch, head := p.head + p.batch })

/-- The bytes of handles in ring entries. -/
def handleBytes (hs : List Handle) : List Byte := hs.flatMap (fun h => leBytes 8 h.word)

/-- Write handles to ring entries from `i` on. -/
def State.putEntries (s : State) (p : Pool) (i : Nat) (hs : List Handle) : State :=
  let k := p.cap - i % p.cap
  (s.dramPut portCistern (p.entryAddr i) (handleBytes (hs.take k))).dramPut portCistern p.ringAddr
    (handleBytes (hs.drop k))

/-- Whether a pool's ring can be reached (R332, R335). -/
def State.ringReach (s : State) (p : Pool) : Bool := s.canReach p.ringAddr (8 * p.cap)

/-- Move up to 32 handles of the cache to the ring tail (R342). -/
def State.flush (s : State) (p : Pool) : State :=
  let n := min 32 p.cache.length
  (s.putEntries p p.tail (p.cache.take n)).setPool { p with cache := p.cache.drop n, tail := p.tail + n }

/-- A list without its element at a place. -/
def dropAt {α : Type} : Nat → List α → List α
  | _, [] => []
  | 0, _ :: xs => xs
  | n + 1, x :: xs => x :: dropAt n xs

/-- An allocation fails (R341, R345). -/
def State.allocFail (s : State) (p : Pool) : State := s.setPool { p with fails := satNat 0xFFFFFFFF (p.fails + 1) }

/-- Take one handle of the cache of pool `p`: which one is a free value (R341, log 12). -/
def State.takeHandle (s : State) (p : Pool) : Option Handle × State :=
  match p.cache with
  | [] => (none, s.allocFail p)
  | h0 :: hs =>
    let i := Config.freeValue s.freeIdx % p.cache.length
    (some (((h0 :: hs)[i]?).getD h0),
     State.addTo ({ s with freeIdx := s.freeIdx + 1 }.setPool
       (Pool.lower { p with cache := dropAt i p.cache })) .CISTERN_CNT_ALLOC 0 1)

/-- Refill until the cache holds a handle or the ring is empty: entries in poisoned blocks are lost (R328). -/
def State.refillUntil (s : State) (pool : Nat) : Nat → State
  | 0 => s
  | k + 1 =>
    match s.pool pool with
    | some p => if p.cache = [] && p.head < p.tail then State.refillUntil (s.refill p) pool k else s
    | none => s

/-- Allocate from a pool (R341, R345): from the cache, after refills where it is empty; an empty pool, one being
reinitialised and an undefined one fail at once. -/
def State.alloc (s : State) (pool : Nat) : Option Handle × State :=
  match s.pool pool with
  | none => (none, s)
  | some p =>
    if p.reinit then (none, s.allocFail p)
    else
      let s1 := s.refillUntil pool (p.tail - p.head)
      match s1.pool pool with
      | some q => s1.takeHandle q
      | none => (none, s1)

/-- Whether an allocation from a pool need not wait for a refill that cannot be made now (R341, R335). -/
def State.canAlloc (s : State) (pool : Nat) : Bool :=
  match s.pool pool with
  | some p => p.reinit || p.cache != [] || p.head == p.tail || s.ringReach p
  | none => true

/-- Whether DRAM serves the buffers of a pool now (R335). -/
def State.poolReach (s : State) (pool : Nat) : Bool :=
  match s.pool pool with
  | some p => s.canReach p.base (p.count * p.size)
  | none => true

/-- A release is discarded (R342, R344, R345; Table 15.5). -/
def State.discardRelease (s : State) (st : W16) (fn : Nat) : State :=
  (s.count .CISTERN_CNT_DISCARD 0).elog st unitCistern 0 noCtx fn 0

/-- Release a handle to the pool that it names (R342, R345). A full cache first moves a batch to the ring. -/
def State.release (s : State) (h : Handle) (fn : Nat) : State :=
  match s.pool h.pool with
  | none => s.discardRelease Status.releaseFull fn
  | some p =>
    if p.reinit then s.discardRelease Status.releaseReinit fn
    else if p.cap ≤ p.free then s.discardRelease Status.releaseFull fn
    else
      let s1 := if 64 ≤ p.cache.length && s.ringReach p then s.flush p else s
      match s1.pool h.pool with
      | some q => (s1.setPool { q with cache := q.cache ++ [h] }).addTo .CISTERN_CNT_FREE 0 1
      | none => s1

/-- Release several handles. -/
def State.releaseAll (s : State) (fn : Nat) : List Handle → State
  | [] => s
  | h :: hs => State.releaseAll (s.release h fn) fn hs

/-- The handles of a pool in ascending address order (R340). -/
def Pool.handles (p : Pool) : List Handle :=
  (List.range p.count).map (fun i => { addr := p.base + i * p.size, pool := p.id })

/-- Zeros up to a whole number of blocks. -/
def padBlock (bs : List Byte) : List Byte := bs ++ List.replicate ((64 - bs.length % 64) % 64) 0#8

/-- The free store as R340 makes it: the ring holds every handle, the cache is empty. The ring is written in whole blocks,
which clears poison (R326, R328); what its entries beyond the handles hold does not matter. -/
def State.initPool (s : State) (p : Pool) : State :=
  (s.dramPut portCistern p.ringAddr (padBlock (handleBytes p.handles))).setPool
    (Pool.lower { p with cache := [], head := 0, tail := p.count, reinit := false })

/-- The smallest power of two that is at least `n`, among 64 doublings of `a`. -/
def powAtLeast (n : Nat) : Nat → Nat → Nat
  | 0, a => a
  | k + 1, a => if n ≤ a then a else powAtLeast n k (2 * a)

/-- C of R340. -/
def ringCap (count : Nat) : Nat := powAtLeast count 40 64

/-- A release written by the host (R344). -/
def State.hostFree (s : State) (fn : Nat) (v : W64) : State :=
  let h := handleOf v.toNat
  match s.pool h.pool with
  | none => s.discardRelease Status.releaseFull fn
  | some p =>
    if fn ≠ 0 ∧ p.owner ≠ fn ∧ p.owner ≠ 0xFFFF then s.discardRelease Status.releaseNotOwner fn
    else s.release h fn

end Sys2Proof.Machine
end

