-- ==== Sys2Proof/Machine/Command.lean ====
section
/-! DEFINITION. Array and collective command records as the device reads them (R52, R114, R116, R129 to R131, R150,
R156, R157, R178, R179, R189), output geometry (R157, R159), and the traversal of a tile (R134, R135). A reader
`rd offset size` gives the little-endian fields of a record. -/

set_option Elab.async false

namespace Sys2Proof.Machine

/-! ## Records -/

/-- A level entry (Table 5.2). -/
structure Level where
  kind : Nat
  dim : Nat
  order : Nat
  boundSrc : Nat
  tileStep : Nat
  bound : Nat
  maxBound : Nat
  boundAddr : Nat
  deriving DecidableEq, Repr

/-- An operand entry (Table 5.3). -/
structure Opnd where
  role : Nat
  space : Nat
  indirect : Bool
  bases : Bool
  base : Nat
  stride : List Int
  pos : Int
  chan : Int
  baseArray : Nat
  deriving DecidableEq, Repr

/-- A tap entry (Table 6.2). -/
structure Tap where
  dy : Nat
  dx : Nat
  dz : Nat
  weight : Int
  deriving DecidableEq, Repr

/-- A window block (Table 6.1). -/
structure Window6 where
  flags : Nat
  combine : Nat
  taps : Nat
  runLevel : Nat
  inW : Nat
  inH : Nat
  inC : Nat
  groupOut : Nat
  groupIn : Nat
  kh : Nat
  kw : Nat
  sh : Nat
  sw : Nat
  dh : Nat
  dw : Nat
  padT : Nat
  padB : Nat
  padL : Nat
  padR : Nat
  padValue : Nat
  psh : Nat
  psw : Nat
  ppt : Nat
  ppb : Nat
  ppl : Nat
  ppr : Nat
  cropY0 : Nat
  cropX0 : Nat
  cropH : Nat
  cropW : Nat
  memRow : Nat
  memPlane : Nat
  outRow : Nat
  stripeRows : Nat
  rrWords : Nat
  rrPreset : Nat
  dimsAddr : Nat
  tap : List Tap
  deriving DecidableEq, Repr

/-- An instruction of an array program: its 128 bits (Table 4.4). -/
structure Op where
  bits : Nat
  deriving DecidableEq, Repr

def Op.opcode (o : Op) : Nat := field o.bits 0 8
def Op.trigger (o : Op) : Nat := field o.bits 8 4

/-- An array or collective command (Tables 4.3 and 5.7). -/
structure Cmd where
  kind : Nat
  ctx : Nat
  index : Nat
  nonKill : Bool
  colFmt : Nat
  rowFmt : Nat
  outFmt : Nat
  flags : Nat
  prog : List Op
  levels : List Level
  tileLevels : Nat
  shard : Bool
  opnds : List Opnd
  window : Option Window6
  counterOff : Nat
  rrOff : Nat
  codebook : Nat
  scale : Nat
  shardCount : Nat
  partialBase : Nat
  partialPitch : Nat
  cBaseArray : Nat
  deriving DecidableEq, Repr

/-! ## Reading a record -/

def readLevel (rd : Nat → Nat → Nat) (a : Nat) : Level :=
  { kind := rd a 1, dim := rd (a + 1) 1, order := rd (a + 2) 1, boundSrc := rd (a + 3) 1, tileStep := rd (a + 4) 1,
    bound := rd (a + 8) 4, maxBound := rd (a + 12) 4, boundAddr := rd (a + 16) 8 }

/-- An operand entry (Table 5.3). pos_stride and chan_stride are read as signed 32-bit values, as the strides are (log 90). -/
def readOpnd (rd : Nat → Nat → Nat) (a : Nat) : Opnd :=
  { role := rd a 1, space := rd (a + 1) 1, indirect := bitAt (rd (a + 2) 1) 0, bases := bitAt (rd (a + 2) 1) 1,
    base := rd (a + 8) 8, stride := (List.range 6).map (fun i => signed 32 (rd (a + 0x10 + 4 * i) 4)),
    pos := signed 32 (rd (a + 0x28) 4), chan := signed 32 (rd (a + 0x2C) 4), baseArray := rd (a + 0x30) 8 }

def readTap (rd : Nat → Nat → Nat) (a : Nat) : Tap :=
  { dy := rd a 1, dx := rd (a + 1) 1, dz := rd (a + 2) 2, weight := signed 16 (rd (a + 4) 2) }

def readWindow (rd : Nat → Nat → Nat) (a : Nat) : Window6 :=
  { flags := rd a 1, combine := rd (a + 1) 1, taps := rd (a + 2) 1, runLevel := rd (a + 3) 1, inW := rd (a + 4) 2,
    inH := rd (a + 6) 2, inC := rd (a + 8) 2, groupOut := rd (a + 0xA) 1, groupIn := rd (a + 0xC) 2,
    kh := rd (a + 0xE) 1, kw := rd (a + 0xF) 1, sh := rd (a + 0x10) 1, sw := rd (a + 0x11) 1, dh := rd (a + 0x12) 1,
    dw := rd (a + 0x13) 1, padT := rd (a + 0x14) 1, padB := rd (a + 0x15) 1, padL := rd (a + 0x16) 1,
    padR := rd (a + 0x17) 1, padValue := rd (a + 0x18) 2, psh := rd (a + 0x1A) 1, psw := rd (a + 0x1B) 1,
    ppt := rd (a + 0x1C) 1, ppb := rd (a + 0x1D) 1, ppl := rd (a + 0x1E) 1, ppr := rd (a + 0x1F) 1,
    cropY0 := rd (a + 0x20) 2, cropX0 := rd (a + 0x22) 2, cropH := rd (a + 0x24) 2, cropW := rd (a + 0x26) 2,
    memRow := rd (a + 0x28) 4, memPlane := rd (a + 0x2C) 4, outRow := rd (a + 0x30) 4, stripeRows := rd (a + 0x34) 2,
    rrWords := rd (a + 0x36) 2, rrPreset := rd (a + 0x38) 1, dimsAddr := rd (a + 0x40) 8,
    tap := (List.range 16).map (fun i => readTap rd (a + 0x50 + 8 * i)) }

/-- Read an array or collective record that starts at offset 0 of `rd`. -/
def readCmd (rd : Nat → Nat → Nat) : Cmd :=
  let kind := rd 0x10 1
  let arr := kind = 1
  let ldt := if arr then rd 0x1C 4 else rd 0x14 4
  let nlev := rd ldt 1
  let nop := rd (ldt + 2) 1
  let woff := rd (ldt + 4) 2
  { kind := kind, ctx := rd 0 2, index := rd 2 2, nonKill := bitAt (rd 8 4) 0,
    colFmt := if arr then rd 0x11 1 else 0, rowFmt := if arr then rd 0x12 1 else 0,
    outFmt := if arr then rd 0x13 1 else rd 0x12 1, flags := if arr then rd 0x14 1 else rd 0x13 1,
    prog := if arr then (List.range (rd 0x15 1)).map (fun i => { bits := rd (rd 0x18 4 + 16 * i) 16 }) else [],
    levels := (List.range nlev).map (fun i => readLevel rd (ldt + 16 + 32 * i)), tileLevels := rd (ldt + 1) 1,
    shard := bitAt (rd (ldt + 3) 1) 0,
    opnds := (List.range nop).map (fun i => readOpnd rd (ldt + 16 + 32 * nlev + 64 * i)),
    window := if woff = 0 then none else some (readWindow rd (ldt + woff)), counterOff := rd (ldt + 8) 4,
    rrOff := rd (ldt + 12) 4, codebook := if arr then rd 0x20 8 else 0,
    scale := if arr then rd 0x28 8 else rd 0x30 8, shardCount := if arr then 0 else rd 0x11 1,
    partialBase := if arr then 0 else rd 0x18 8, partialPitch := if arr then 0 else rd 0x20 8,
    cBaseArray := if arr then 0 else rd 0x28 8 }

/-- The first operand of a role (R131). -/
def Cmd.opnd (c : Cmd) (role : Nat) : Option Opnd := c.opnds.find? (fun o => o.role = role)

/-- Whether a collective drains through the output stage (Table 5.7). -/
def Cmd.collectiveDrain (c : Cmd) : Bool := bitAt c.flags 0

/-! ## Scale tables -/

/-- A channel entry at an offset (Table 7.3). -/
def readChan (rd : Nat → Nat → Nat) (a : Nat) : ChanEntry :=
  { scale := rd a 2, act := rd (a + 2) 1, outAq4 := bitAt (rd (a + 3) 1) 4, zero := rd (a + 3) 1 % 16,
    bias := signed 32 (rd (a + 4) 4), zcorr := signed 64 (rd (a + 8) 8) }

/-- The channel entry of set `k` and channel `n` of a scale table (R178). -/
def readChanOf (rd : Nat → Nat → Nat) (k n : Nat) : ChanEntry := readChan rd (0x40 + k * rd 8 4 + n * 16)

/-- Activation table `i` of a scale table (R189). -/
def readAct (rd : Nat → Nat → Nat) (i : Nat) : Act :=
  let a := rd 0xC 4 + 384 * i
  { bps := (List.range 31).map (fun k => signed 32 (rd (a + 0x10 + 4 * k) 4)),
    offs := (List.range 32).map (fun k => signed 32 (rd (a + 0x90 + 4 * k) 4)),
    slopes := (List.range 32).map (fun k => signed 16 (rd (a + 0x110 + 2 * k) 2)) }

/-- The channels that a scale table lists as AQ4 (R182). -/
def readAq4 (rd : Nat → Nat → Nat) : List Nat :=
  (List.range (rd 0x14 2)).map (fun i => rd (rd 0x10 4 + 4 * i) 2)

/-! ## Geometry -/

/-- The group size Gs (R157). -/
def groupSize (taps : Nat) : Nat :=
  if taps ≤ 1 then 1 else if taps ≤ 2 then 2 else if taps ≤ 4 then 4 else if taps ≤ 8 then 8 else 16

/-- The taps in use. -/
def Window6.live (w : Window6) : List Tap := w.tap.take w.taps

/-- Dy and Dx (R157). -/
def Window6.maxDy (w : Window6) : Nat := w.live.foldl (fun a t => max a t.dy) 0
def Window6.maxDx (w : Window6) : Nat := w.live.foldl (fun a t => max a t.dx) 0

def Window6.diag (w : Window6) : Bool := bitAt w.flags 0
def Window6.stripe (w : Window6) : Bool := bitAt w.flags 1
def Window6.indirect (w : Window6) : Bool := bitAt w.flags 2

/-- c_r and s_g (R157). -/
def Window6.cr (w : Window6) : Nat := if w.groupOut = 0 then w.inC else w.groupIn
def Window6.sg (w : Window6) : Nat := if w.diag ∧ w.groupOut ≠ 0 ∧ w.groupOut < 16 then 16 / w.groupOut else 1

/-- The window reduction K_w (R157). -/
def Window6.kwin (w : Window6) : Nat := w.sg * w.cr * w.kh * w.kw

/-- Sizes in one axis (R159): convolution map, combined map, final map. -/
structure Axis where
  conv : Nat
  comb : Nat
  fin : Nat
  deriving DecidableEq, Repr

def axisOf (h k s d p0 p1 ps pp0 pp1 dmax crop0 crop : Nat) : Axis :=
  let ek := d * (k - 1) + 1
  let hc := if ek ≤ h + p0 + p1 then (h + p0 + p1 - ek) / s + 1 else 0
  let hm := if 0 < hc ∧ dmax + 1 ≤ hc + pp0 + pp1 then (hc + pp0 + pp1 - dmax - 1) / ps + 1 else 0
  { conv := hc, comb := hm, fin := if crop0 < hm then min crop (hm - crop0) else 0 }

/-- The vertical axis at input height `h`, and the horizontal one at width `w0` (R159). With combine 0 the combined map
is the convolution map. -/
def Window6.vert (w : Window6) (h : Nat) : Axis :=
  if w.combine = 0 then axisOf h w.kh w.sh w.dh w.padT w.padB 1 0 0 0 w.cropY0 w.cropH
  else axisOf h w.kh w.sh w.dh w.padT w.padB w.psh w.ppt w.ppb w.maxDy w.cropY0 w.cropH

def Window6.horz (w : Window6) (w0 : Nat) : Axis :=
  if w.combine = 0 then axisOf w0 w.kw w.sw w.dw w.padL w.padR 1 0 0 0 w.cropX0 w.cropW
  else axisOf w0 w.kw w.sw w.dw w.padL w.padR w.psw w.ppl w.ppr w.maxDx w.cropX0 w.cropW

/-! ## Bounds and tiles -/

/-- The indices of a rank in a space of bounds, outermost first (R134). -/
def unrank : List Nat → Nat → List Nat
  | [], _ => []
  | b :: bs, t => t / bs.foldl (· * ·) 1 % b :: unrank bs t

/-- Serpentine levels among the tile levels (R134): a level is reversed where the level around it is odd. -/
def serpentine : Nat → List (Level × Nat × Nat) → List Nat
  | _, [] => []
  | prev, (l, b, i) :: rest =>
    let j := if l.order = 1 ∧ prev % 2 = 1 then b - 1 - i else i
    j :: serpentine j rest

/-- The bounds of the tile levels that a tile index runs over: levels 2 to T where level 1 is a shard level (R148). -/
def Cmd.tileBounds (c : Cmd) (bounds : List Nat) : List Nat :=
  let t := bounds.take c.tileLevels
  if c.shard then t.drop 1 else t

/-- Tiles of a tile space (R138, R148). -/
def Cmd.tileCount (c : Cmd) (bounds : List Nat) : Nat := (c.tileBounds bounds).foldl (· * ·) 1

/-- The indices of the tile levels of tile `t` of shard `s` (R134, R148). -/
def Cmd.tileIdx (c : Cmd) (bounds : List Nat) (s t : Nat) : List Nat :=
  let raw := unrank (c.tileBounds bounds) t
  let raw := if c.shard then s :: raw else raw
  let tl := ((c.levels.take c.tileLevels).zip ((bounds.take c.tileLevels).zip raw)).map (fun x => (x.1, x.2.1, x.2.2))
  match tl with
  | [] => []
  | (_, _, i) :: rest => i :: serpentine i rest

/-- The instructions that fire at a trigger, with their places (R116), subject to R135: INIT and XSCAN at the first
iteration, DRAIN and SPILL at the last, of every enclosing level of dim K. -/
def fireAt (prog : List Op) (trig : Nat) (idx : List Nat) (first last : Bool) : List (Nat × List Nat) :=
  (indexed prog).filterMap (fun x =>
    if x.2.trigger ≠ trig then none
    else if (x.2.opcode = 3 ∨ x.2.opcode = 2) ∧ !first then none
    else if (x.2.opcode = 5 ∨ x.2.opcode = 6) ∧ !last then none
    else some (x.1, idx))

/-- The walk of the levels inside the tile levels (R134). `l` is the number of the first level left; `pre` the indices
of the levels around it. -/
def walk (prog : List Op) : List (Level × Nat) → Nat → List Nat → Bool → Bool → List (Nat × List Nat)
  | [], _, _, _, _ => []
  | (lv, b) :: rest, l, pre, first, last =>
    if lv.kind = 3 then []
    else
      (List.range b).flatMap (fun n =>
        let i := if lv.order = 1 ∧ pre.getLastD 0 % 2 = 1 then b - 1 - n else n
        let f := first && (lv.dim != 2 || n == 0)
        let g := last && (lv.dim != 2 || n + 1 == b)
        fireAt prog l (pre ++ [i]) f g ++ walk prog rest (l + 1) (pre ++ [i]) f g
          ++ fireAt prog (8 + l) (pre ++ [i]) f g)

/-- Every firing of a tile in order, with the indices of the levels that enclose it; other levels read 0 (R134). -/
def Cmd.fires (c : Cmd) (bounds : List Nat) (s t : Nat) : List (Nat × List Nat) :=
  let ti := c.tileIdx bounds s t
  fireAt c.prog 0 ti true true
    ++ walk c.prog ((c.levels.zip bounds).drop c.tileLevels) (c.tileLevels + 1) ti true true
    ++ fireAt c.prog 8 ti true true

/-- The index of level `l` (from 1) at a firing. -/
def idxAt (idx : List Nat) (l : Nat) : Nat := if l = 0 then 0 else idx.getD (l - 1) 0

/-! ## Addresses -/

/-- Σ idx x stride over the levels that count units of an operand (R132, R134): levels of kind operand store count
lines for roles 0x0 to 0x3; the batch level of an item-indirect operand is ignored. `skipM` leaves out levels of dim M
(R162). -/
def Cmd.unitSum (c : Cmd) (o : Opnd) (idx : List Nat) (skipM : Bool) : Int :=
  ((indexed c.levels).map (fun x =>
    if (x.2.kind = 2 ∧ o.role ≤ 3) ∨ (o.indirect ∧ x.2.dim = 3) ∨ (skipM ∧ x.2.dim = 0) then (0 : Int)
    else (idx.getD x.1 0 : Int) * o.stride.getD x.1 0)).foldl (· + ·) 0

/-- The line offset of an operand role (R135). -/
def Cmd.lineSum (c : Cmd) (role : Nat) (idx : List Nat) : Int :=
  match c.opnd role with
  | none => 0
  | some o => ((indexed c.levels).map (fun x =>
      if x.2.kind = 2 ∧ role ≤ 3 then (idx.getD x.1 0 : Int) * o.stride.getD x.1 0 else 0)).foldl (· + ·) 0

/-- The effective tile before alternation (R135). -/
def Cmd.tileOf (c : Cmd) (f : Nat) (idx : List Nat) : Nat :=
  f + ((indexed c.levels).map (fun x => idx.getD x.1 0 * x.2.tileStep)).foldl (· + ·) 0

/-- The logical tile under alternation (R115): `started` tiles of the command have started before this one. -/
def Cmd.logicalTile (c : Cmd) (f : Nat) (idx : List Nat) (accTiles started : Nat) : Nat :=
  c.tileOf f idx + (if bitAt c.flags 3 then started % 2 * (accTiles / 2) else 0)

/-- The index of the levels of a dimension, combined lexicographically with the outermost slowest (R163, R180). -/
def Cmd.dimIndex (c : Cmd) (dim : Nat) (bounds idx : List Nat) : Nat :=
  ((indexed c.levels).filter (fun x => x.2.dim = dim ∧ x.2.kind ≠ 3)).foldl
    (fun a x => a * bounds.getD x.1 1 + idx.getD x.1 0) 0

/-- The bound of the accumulator level. -/
def Cmd.accBound (bounds : List Nat) : Nat := bounds.getLastD 0

/-- The index of the batch level, for an item-indirect operand (R132). -/
def Cmd.itemIndex (c : Cmd) (idx : List Nat) : Nat :=
  match (indexed c.levels).find? (fun x => x.2.dim = 3) with
  | some x => idx.getD x.1 0
  | none => 0

/-- The output stripe of a firing: the index of level 1 in a stripe run (R169). -/
def Cmd.stripeOf (c : Cmd) (idx : List Nat) : Nat :=
  match c.window with
  | some w => if w.stripe then idx.getD 0 0 else 0
  | none => 0

/-- The index of the level of dim M: the band level in a stripe run, where level 1 is the stripe (R161, R169). -/
def Cmd.mIndex (c : Cmd) (idx : List Nat) : Nat :=
  match c.window with
  | some w =>
    if w.stripe then idx.getD 2 0
    else match (indexed c.levels).find? (fun x => x.2.dim = 0) with
      | some x => idx.getD x.1 0
      | none => 0
  | none => 0

/-- Dimensions and geometry of a windowed command at issue. -/
structure Geo where
  w : Window6
  width : Nat
  height : Nat
  vert : Axis
  horz : Axis
  gs : Nat
  deriving DecidableEq, Repr

def Window6.geo (w : Window6) (width height : Nat) : Geo :=
  { w := w, width := width, height := height, vert := w.vert height, horz := w.horz width, gs := groupSize w.taps }

/-- The final position of tile row `r` at M-level index `m` of stripe `st`: (yf, xf) counted in the map before the
crop, and the tap; none where there is no such position (R161). -/
def Geo.position (g : Geo) (st m r : Nat) : Option (Nat × Nat × Nat) :=
  let q := (128 * m + r) / g.gs
  let t := (128 * m + r) % g.gs
  let rows := if g.w.stripe then min g.w.stripeRows (g.vert.fin - st * g.w.stripeRows) else g.vert.fin
  if g.w.taps ≤ t ∨ rows * g.horz.fin ≤ q then none
  else
    some (g.w.cropY0 + (if g.w.stripe then st * g.w.stripeRows else 0) + q / g.horz.fin,
      g.w.cropX0 + q % g.horz.fin, t)

/-- The convolution position and tap of a live row, whatever the combine code (R161). -/
def Geo.rowLive (g : Geo) (st m r : Nat) : Option (Int × Int × Tap) :=
  match g.position st m r with
  | none => none
  | some (yf, xf, t) =>
    let tp := g.w.tap.getD t { dy := 0, dx := 0, dz := 0, weight := 0 }
    let pv : Int := yf * g.w.psh - g.w.ppt + tp.dy
    let ph : Int := xf * g.w.psw - g.w.ppl + tp.dx
    if 0 ≤ pv ∧ pv < g.vert.conv ∧ 0 ≤ ph ∧ ph < g.horz.conv then some (pv, ph, tp) else none

end Sys2Proof.Machine
end

