-- ==== Sys2Proof/Machine/ConfigOps.lean ====
section
/-! DEFINITION. The configuration space of a function (R380 to R385, Tables 14.1 to 14.3). Each aligned 32-bit word has
a reset value, the bits that software writes, and the bits that a written 1 clears; `FnState.cfg` holds what differs from
reset. The places of bits that the spec only names are those of the PCI Express base specification (PRESUMED, log 8). -/

set_option Elab.async false

namespace Sys2Proof.Machine

/-- A word of configuration space: its reset value, its writable bits, its write-1-to-clear bits. -/
structure CfgWord where
  reset : Nat
  rw : Nat
  w1c : Nat
  deriving DecidableEq, Repr

/-! ## Identity -/

/-- The board record (Table 16.2). -/
def boardBase : Nat := 0x0030000

/-- Bytes of flash. -/
def FlashSt.read (f : FlashSt) (a n : Nat) : List Byte := (Mem.readList f.bytes a n).map (fun b => ~~~b)

/-- The VF Device ID (Table 14.1). -/
def vfDeviceId : Part → Nat
  | .sw7360 => 0x7361 | .sw7340 => 0x7341 | .sw7320 => 0x7321

/-- Subsystem Vendor ID and Subsystem ID: from the board record, or 0x1D7B and 0 where it is absent (Table 14.1). -/
def State.subsystem (s : State) : Nat :=
  let v := leVal (s.dev.flash.read boardBase 4)
  if v = 0xFFFFFFFF then 0x1D7B else v

/-! ## BAR2 (R385) -/

/-- The sizes advertised: 2 ^ n MiB for n from 8 to this. -/
def bar2Max : Part → Nat
  | .sw7320 => 13
  | _ => 14

/-- The BAR Size field: the size of BAR2 is 2 ^ n MiB. -/
def State.bar2Code (s : State) : Nat := (bar2Max s.dev.part ^^^ (s.fn 0).cfgRd 0x289 1) % 64

/-- The size of BAR2 in bytes. -/
def State.bar2Size (s : State) : Nat := 2 ^ (20 + s.bar2Code)

/-- The low and high writable bits of a 64-bit BAR of a size. -/
def barLow (size : Nat) : Nat := (2 ^ 64 - size) % 2 ^ 32 / 16 * 16
def barHigh (size : Nat) : Nat := (2 ^ 64 - size) / 2 ^ 32

/-! ## The words -/

/-- A read-only word. -/
def cfgRo (v : Nat) : CfgWord := { reset := v, rw := 0, w1c := 0 }

/-- A writable word. -/
def cfgRw (v m : Nat) : CfgWord := { reset := v, rw := m, w1c := 0 }

/-- Messages held under MSI, as the MSI pending bits show them (R394). -/
def State.msiPending (s : State) : Nat := if (s.fn 0).msixOn then 0 else bitsOf 32 (fun v => (s.fn 0).pba.contains v)

/-- The link's rate and width as the PCI Express capability shows them (R381). -/
def State.linkWord (s : State) : Nat := s.dev.link.rate + 16 * s.dev.link.width

/-- The type 0 header. -/
def State.headerWord (s : State) (fn d : Nat) : CfgWord :=
  match d with
  | 0x00 => cfgRo (if fn = 0 then 0x1D7B + 65536 * partCode s.dev.part else 0xFFFFFFFF)
  | 0x04 => { reset := 0x00100000, rw := if fn = 0 then 0x0146 else 0x0004, w1c := 0xF9000000 }
  | 0x08 => cfgRo 0x12000021
  | 0x0C => cfgRw 0 (if fn = 0 then 0xFF else 0)
  | 0x10 => if fn = 0 then cfgRw 0x4 (barLow 0x8000000) else cfgRo 0
  | 0x14 => if fn = 0 then cfgRw 0 (barHigh 0x8000000) else cfgRo 0
  | 0x18 => if fn = 0 then cfgRw 0xC (barLow s.bar2Size) else cfgRo 0
  | 0x1C => if fn = 0 then cfgRw 0 (barHigh s.bar2Size) else cfgRo 0
  | 0x20 => if fn = 0 then cfgRw 0x4 (barLow 0x10000) else cfgRo 0
  | 0x24 => if fn = 0 then cfgRw 0 (barHigh 0x10000) else cfgRo 0
  | 0x2C => cfgRo s.subsystem
  | 0x34 => cfgRo 0x40
  | 0x3C => cfgRw 0 (if fn = 0 then 0xFF else 0)
  | _ => cfgRo 0

/-- Power Management, MSI, PCI Express and MSI-X. A VF has no MSI. -/
def State.capWord (s : State) (fn d : Nat) : CfgWord :=
  match d with
  | 0x40 => cfgRo (if fn = 0 then 0xC0035001 else 0xC0037001)
  | 0x44 => { reset := 0, rw := 0x0103, w1c := 0x8000 }
  | 0x50 => if fn = 0 then cfgRw 0x018A7005 0x00710000 else cfgRo 0
  | 0x54 => if fn = 0 then cfgRw 0 0xFFFFFFFC else cfgRo 0
  | 0x58 => if fn = 0 then cfgRw 0 0xFFFFFFFF else cfgRo 0
  | 0x5C => if fn = 0 then cfgRw 0 0xFFFF else cfgRo 0
  | 0x60 => if fn = 0 then cfgRw 0 0xFFFFFFFF else cfgRo 0
  | 0x64 => cfgRo (if fn = 0 then s.msiPending else 0)
  | 0x70 => cfgRo 0x8002B010
  | 0x74 => cfgRo 0x10008022
  | 0x78 => if fn = 0 then { reset := 0x2910, rw := 0x79FF, w1c := 0x000F0000 } else { reset := 0, rw := 0xF, w1c := 0x000F0000 }
  | 0x7C => cfgRo 0x00420906
  | 0x80 => cfgRw (65536 * s.linkWord) (if fn = 0 then 0xCB else 0)
  | 0x94 => cfgRo 0x0003001F
  | 0x98 => cfgRw 0 (if fn = 0 then 0x101F else 0)
  | 0x9C => cfgRo 0x7E
  | 0xA0 => cfgRw 0x6 (if fn = 0 then 0x3F else 0)
  | 0xB0 => cfgRw (if fn = 0 then 0x03FF0011 else 0x003F0011) 0xC0000000
  | 0xB4 => cfgRo 0x4
  | 0xB8 => cfgRo (if fn = 0 then 0x8004 else 0x2004)
  | _ => cfgRo 0

/-- AER and ARI, which every function has. -/
def aerWord (fn d : Nat) : CfgWord :=
  match d with
  | 0x100 => cfgRo 0x14820001
  | 0x104 => { reset := 0, rw := 0, w1c := 0xFFFFFFFF }
  | 0x108 => cfgRw 0 0x07FFF030
  | 0x10C => cfgRw 0x00462030 0x07FFF030
  | 0x110 => { reset := 0, rw := 0, w1c := 0xFFFFFFFF }
  | 0x114 => cfgRw 0x6000 0xF1C1
  | 0x148 => cfgRo (if fn = 0 then 0x1501000E else 0x0001000E)
  | _ => cfgRo 0

/-- The PF's other extended capabilities. -/
def State.extWord (s : State) (d : Nat) : CfgWord :=
  match d with
  | 0x150 => cfgRo 0x1A010019
  | 0x1A0 => cfgRo 0x1C010025
  | 0x1A4 => cfgRo 0x80000001
  | 0x1C0 => cfgRo 0x20010026
  | 0x200 => cfgRo 0x2401002A
  | 0x240 => cfgRo 0x28010031
  | 0x280 => cfgRo 0x2A010015
  | 0x284 => cfgRo (2 ^ (bar2Max s.dev.part + 5) - 2 ^ 12)
  | 0x288 => cfgRw (0x22 + 256 * bar2Max s.dev.part) 0x3F00
  | 0x2A0 => cfgRo 0x30010010
  | 0x2A8 => cfgRw 0 0x0019
  | 0x2AC => cfgRo 0x001F001F
  | 0x2B0 => cfgRw 0 0xFFFF
  | 0x2B4 => cfgRo 0x00010001
  | 0x2B8 => cfgRo (65536 * vfDeviceId s.dev.part)
  | 0x2BC => cfgRo 1
  | 0x2C0 => cfgRo 1
  | 0x2C4 => cfgRw 0x4 (barLow 0x100000)
  | 0x2C8 => cfgRw 0 (barHigh 0x100000)
  | 0x2D4 => cfgRw 0x4 (barLow 0x4000)
  | 0x2D8 => cfgRw 0 (barHigh 0x4000)
  | 0x300 => cfgRo 0x0001002E
  | _ => cfgRo 0

/-- The word at an aligned offset. -/
def State.cfgWord (s : State) (fn d : Nat) : CfgWord :=
  if d < 0x40 then s.headerWord fn d
  else if d < 0x100 then s.capWord fn d
  else if d < 0x150 then aerWord fn d
  else if fn = 0 then s.extWord d
  else cfgRo 0

/-- Byte `o` of a word's number. -/
def byteOf (v o : Nat) : Byte := BitVec.ofNat 8 (v / 256 ^ (o % 4))

/-! ## Bytes -/

/-- A byte of configuration space as software reads it. -/
def State.cfgByte (s : State) (fn o : Nat) : Byte :=
  byteOf (s.cfgWord fn (o / 4 * 4)).reset o ^^^ Mem.read (s.fn fn).cfg o

/-- Give a byte a value. -/
def State.putCfg (s : State) (fn o : Nat) (v : Byte) : State :=
  s.setFn fn { s.fn fn with cfg := Mem.write (s.fn fn).cfg o (v ^^^ byteOf (s.cfgWord fn (o / 4 * 4)).reset o) }

/-- Set bits of a byte. -/
def State.orCfg (s : State) (fn o : Nat) (v : Byte) : State := s.putCfg fn o (s.cfgByte fn o ||| v)

/-- What a write of `w` makes of a byte that reads `v`: writable bits are taken, bits of the third kind clear where `w` is
1. -/
def mergeByte (c : CfgWord) (o : Nat) (v w : Byte) : Byte :=
  let m := byteOf c.rw o
  (v &&& ~~~m &&& ~~~(byteOf c.w1c o &&& w)) ||| (w &&& m)

/-- The bytes of BAR2 after its size has changed: its address is to be written again. -/
def State.clearBar2 (s : State) : State :=
  s.setFn 0 { s.fn 0 with cfg := SMap.keep (s.fn 0).cfg (fun o => o < 0x18 || 0x20 ≤ o) }

/-- Whether a write to a byte is discarded: a power state that is not supported (Table 14.2), a BAR size while Memory Space
Enable is 1 or one that is not advertised (R385), NumVFs while VF Enable is 1 (R402). -/
def State.cfgDiscards (s : State) (fn o : Nat) (w : Byte) : Bool :=
  (fn == 0 && o == 0x289 && ((s.fn 0).mse || w.toNat % 64 < 8 || bar2Max s.dev.part < w.toNat % 64)) ||
    (fn == 0 && (o == 0x2B0 || o == 0x2B1) && s.vfEnable)

/-- The byte that a write to the power state brings: D1 and D2 are not supported, and the field then keeps its value. -/
def pmByte (v w : Byte) : Byte :=
  if w.toNat % 4 = 1 ∨ w.toNat % 4 = 2 then (w &&& 0xFC#8) ||| (v &&& 0x03#8) else w

/-- Write one byte (R382). -/
def State.cfgWriteByte (s : State) (fn o : Nat) (w : Byte) : State :=
  if s.cfgDiscards fn o w then s
  else
    let v := s.cfgByte fn o
    let w1 := if o = 0x44 then pmByte v w else w
    let s1 := s.putCfg fn o (mergeByte (s.cfgWord fn (o / 4 * 4)) o v w1)
    if fn = 0 ∧ o = 0x289 ∧ v ≠ s1.cfgByte fn o then s1.clearBar2 else s1

/-- Write bytes from an offset up. -/
def State.cfgWriteList (s : State) (fn : Nat) : Nat → List Byte → State
  | _, [] => s
  | o, b :: bs => State.cfgWriteList (s.cfgWriteByte fn o b) fn (o + 1) bs

/-- Read `n` bytes from an offset up. -/
def State.cfgReadList (s : State) (fn o n : Nat) : List Byte := (List.range n).map (fun k => s.cfgByte fn (o + k))

/-! ## AER (R393) -/

/-- Set bit `b` of the uncorrectable error status. -/
def State.aerUncorrectable (s : State) (fn b : Nat) : State := s.orCfg fn (0x104 + b / 8) (BitVec.ofNat 8 (2 ^ (b % 8)))

/-- Set bit `b` of the correctable error status: 13 advisory non-fatal, 14 corrected internal. -/
def State.aerCorrectable (s : State) (fn b : Nat) : State := s.orCfg fn (0x110 + b / 8) (BitVec.ofNat 8 (2 ^ (b % 8)))

/-- An error logged as advisory non-fatal: 12 poisoned TLP received, 15 Completer Abort, 20 Unsupported Request. -/
def State.aerAdvisory (s : State) (fn b : Nat) : State := (s.aerUncorrectable fn b).aerCorrectable fn 13

/-! ## Answers on the link -/

/-- A completion. -/
def State.complete (s : State) (fn : Nat) (st : Cpl) (data : List Byte) : State := s.send (.completion fn st data)

/-- A write received with EP (R388, R393). -/
def State.epWrite (s : State) (fn : Nat) : State := (s.count .HEP_CNT_EP_RX 0).aerAdvisory fn 12

end Sys2Proof.Machine
end

