-- ==== Sys2Proof/Machine/DramReqs.lean ====
section
/-! DEFINITION. Requests to DRAM: block reads and writes by port (R325, R326, R329), those of BAR2 (R125, R322, R328, R388,
R389), and the requests that wait at their ports (R330 to R332, R335; log 78). -/

set_option Elab.async false

namespace Sys2Proof.Machine

/-! ## Block reads and writes -/

/-- Whether what a partial write's read found discards the write (R326). -/
def ReadFound.discards : ReadFound → Bool
  | .good | .cleared => false
  | .poisonedNow | .poisonedBefore => true

/-- A read of a block (R325): what it found stays for the unit of its port where it was a mismatch (log 77). -/
def State.portRead (s : State) (port b : Nat) (firstBad secondBad : Bool) (second : List Byte) : State :=
  let f := s.readFinds b firstBad secondBad
  let s1 := s.blockRead port b f second false
  match f with
  | .cleared => s1.keepFind port b false
  | .poisonedNow => s1.keepFind port b true
  | _ => s1

/-- A write of a whole block (R326). -/
def State.portWrite (s : State) (port b : Nat) (data : List Byte) : State := s.putBlock port (b * 64) data

/-- A partial write of a block (R326). -/
def State.portPart (s : State) (port addr : Nat) (data : List Byte) (firstBad secondBad : Bool) (second : List Byte) :
    State :=
  let b := addr / 64
  let f := s.readFinds b firstBad secondBad
  let s1 := s.blockRead port b f second true
  if f.discards then s1.dmcLog (s.blockLoc b) 4 port
  else (s1.setDramBytes (Mem.writeList s1.dram.bytes addr data)).countWrite b

/-! ## BAR2 -/

/-- Whether a byte of DRAM lies in a recorded write window (R125). -/
def State.windowed (s : State) (a : Nat) : Bool := s.dram.windows.any (fun w => decide (w.lo ≤ a) && decide (a < w.hi))

/-- A byte as a BAR2 read returns it: 0xFF in a window (R125) and in a poisoned block (R328). -/
def State.bar2Byte (s : State) (a : Nat) : Byte :=
  if s.windowed a || s.poisoned (a / 64) then 0xFF#8 else s.dramByte a

/-- Whether a BAR2 read meets poison outside windows. -/
def State.bar2Ep (s : State) (a n : Nat) : Bool :=
  (List.range n).any (fun k => !s.windowed (a + k) && s.poisoned ((a + k) / 64))

/-- The ranges of bytes, one byte each, of a BAR2 access that no window takes, by block: its first such byte. -/
def State.bar2Ranges (s : State) (a n : Nat) : List (Nat × Nat) :=
  ((List.range (blockSpan a n)).filter (fun k => (List.range n).any (fun i =>
    (a + i) / 64 == a / 64 + k && !s.windowed (a + i)))).map (fun k => ((a / 64 + k) * 64, 1))

/-- `n` free bytes. -/
def freeBytes (i n : Nat) : List Byte := (List.range n).map (fun k => BitVec.ofNat 8 (Config.freeValue (i + k)))

/-- A BAR2 read that is performed. While a load is in progress it returns free values (R322). -/
def State.bar2Read (s : State) (a n : Nat) : State :=
  if s.ldr.state = .loading then
    State.complete { s with freeIdx := s.freeIdx + n } 0 .ok (freeBytes s.freeIdx n)
  else
    let data := (List.range n).map (fun k => s.bar2Byte (a + k))
    let s1 := s.visitAll portFw (s.bar2Ranges a n)
    if s.bar2Ep a n then (s1.count .HEP_CNT_EP_TX 0).complete 0 .ep data else s1.complete 0 .ok data

/-- The bytes of a write that no window takes, as (address, byte) (R125). -/
def State.openBytes (s : State) (a : Nat) (data : List Byte) : List (Nat × Byte) :=
  ((indexed data).map (fun x => (a + x.1, x.2))).filter (fun x => !s.windowed x.1)

/-- Write listed bytes. -/
def State.putList (s : State) : List (Nat × Byte) → State
  | [] => s
  | (a, b) :: r => State.putList (s.setDramBytes (Mem.write s.dram.bytes a b)) r

/-- One block's part of a BAR2 write (R326, R388, R389): a full write clears poison; a partial one to a poisoned block is
discarded, logged and reported; with EP the block is left poisoned. -/
def State.bar2Block (s : State) (ep : Bool) (part : List (Nat × Byte)) : State :=
  match part with
  | [] => s
  | (a, _) :: _ =>
    let b := a / 64
    if part.length = 64 then ((s.putList part).setPoison b ep).countWrite b
    else
      let s1 := s.mergeRead portFw b
      if ep then ((s1.putList part).setPoison b true).countWrite b
      else if s.poisoned b then
        (((s1.dmcLog (s.blockLoc b) 4 portFw).count .HEP_CNT_PWDISC 0).setReg .HEP_LAST_PWDISC 0 0
          (BitVec.ofNat 64 a)).aerCorrectable 0 14
      else (s1.putList part).countWrite b

/-- The blocks of a BAR2 write, from block `b` on. -/
def State.bar2Blocks (s : State) (ep : Bool) (bytes : List (Nat × Byte)) (b : Nat) : Nat → State
  | 0 => s
  | k + 1 => State.bar2Blocks (s.bar2Block ep (bytes.filter (fun x => x.1 / 64 = b))) ep bytes (b + 1) k

/-- A BAR2 write that is performed. While a load is in progress it may be lost (R322): which, is a free value. -/
def State.bar2Write (s : State) (a : Nat) (data : List Byte) (ep : Bool) : State :=
  let s0 := if ep then s.epWrite 0 else s
  let put := fun (t : State) => t.bar2Blocks ep (t.openBytes a data) (a / 64) (blockSpan a data.length)
  if s.ldr.state = .loading then
    let s1 := { s0 with freeIdx := s0.freeIdx + 1 }
    if Config.freeValue s0.freeIdx % 2 = 0 then put s1 else s1
  else put s0

/-! ## Requests at their ports -/

/-- The port of a request (Table 12.4). -/
def DramReq.port : DramReq → Nat
  | .read p _ _ _ _ => p
  | .write p _ _ => p
  | .part p _ _ _ _ _ => p
  | .hostRead _ _ => portFw
  | .hostWrite _ _ _ => portFw

/-- Its first block, and how many blocks it touches. -/
def DramReq.blocks : DramReq → Nat × Nat
  | .read _ b _ _ _ => (b, 1)
  | .write _ b _ => (b, 1)
  | .part _ a _ _ _ _ => (a / 64, 1)
  | .hostRead a n => (a / 64, blockSpan a n)
  | .hostWrite a d _ => (a / 64, blockSpan a d.length)

/-- The channels of its blocks. -/
def State.reqChannels (s : State) (q : DramReq) : List Nat :=
  (List.range q.blocks.2).map (fun k => (s.blockLoc (q.blocks.1 + k)).channel)

/-- Whether a request would overtake one that waits at its port for one of its channels (R330). -/
def State.overtakes (s : State) (q : DramReq) : Bool :=
  s.dram.held.any (fun h => h.port == q.port && (s.reqChannels h).any (fun c => (s.reqChannels q).contains c))

/-- A request that a controller performs. -/
def State.perform (s : State) : DramReq → State
  | .read p b f g d => s.portRead p b f g d
  | .write p b d => s.portWrite p b d
  | .part p a d f g e => s.portPart p a d f g e
  | .hostRead a n => s.bar2Read a n
  | .hostWrite a d ep => s.bar2Write a d ep

/-- Whether DRAM serves a request now (R330, R332, R335). -/
def State.serves (s : State) (q : DramReq) : Bool := s.dramOpen q.blocks.1 q.blocks.2 && !s.overtakes q

/-- A request waits at its port (R332, R335). -/
def State.hold (s : State) (q : DramReq) : State := { s with dram := { s.dram with held := s.dram.held ++ [q] } }

/-- A request to DRAM: performed, or held at its port until DRAM serves its blocks (R332, R335). -/
def State.request (s : State) (q : DramReq) : State := if s.serves q then s.perform q else s.hold q

/-- Requests in order. -/
def State.requests (s : State) : List DramReq → State
  | [] => s
  | q :: qs => State.requests (s.request q) qs

/-- The requests that waited go on, oldest first, where they can. -/
def State.releasePorts (s : State) : State :=
  State.requests { s with dram := { s.dram with held := [] } } s.dram.held

end Sys2Proof.Machine
end

