-- ==== Sys2Proof/Machine/DramCmds.lean ====
section
/-! DEFINITION. The DRAM controllers' commands: block reads and writes, refresh, self-refresh, recalibration, training,
delay registers, drift (R325, R326, R332 to R338). -/

set_option Elab.async false

namespace Sys2Proof.Machine

/-- DRAM_READ (R325): `second` is the data of the re-read. -/
def execDramRead (port block : Nat) (firstBad secondBad : Bool) (second : List Byte) (s : State) : Out :=
  .next (s.when (s.clocked && block * 64 < dramSize s.dev.part) (fun s =>
    if s.serves (.read port block firstBad secondBad second) then s.portRead port block firstBad secondBad second
    else s.hold (.read port block firstBad secondBad second)))

/-- DRAM_WRITE (R326): a full write clears poison. -/
def execDramWrite (port block : Nat) (data : List Byte) (s : State) : Out :=
  .next (s.when (s.clocked && block * 64 < dramSize s.dev.part && data.length == 64) (fun s =>
    if s.serves (.write port block data) then s.portWrite port block data else s.hold (.write port block data)))

/-- Whether a write lies in one block and is partial. -/
def isPartial (addr len : Nat) : Bool := 0 < len && len < 64 && addr % 64 + len ≤ 64

/-- PARTIAL_WRITE (R326): a read-modify-write, discarded where the block is poisoned or failing. -/
def execPartialWrite (port addr : Nat) (data : List Byte) (firstBad secondBad : Bool) (second : List Byte) (s : State) :
    Out :=
  .next (s.when (s.clocked && addr < dramSize s.dev.part && isPartial addr data.length) (fun s =>
    if s.serves (.part port addr data firstBad secondBad second) then
      s.portPart port addr data firstBad secondBad second
    else s.hold (.part port addr data firstBad secondBad second)))

/-- BANK_REFRESH (R332): one bank is refreshed, on its own. -/
def execBankRefresh (channel bank : Nat) (s : State) : Out :=
  .next (s.when (s.dev.dramMode == .running && channel < 8 * groupCount s.dev.part && bank < 16) (fun s =>
    let d := s.dmc (channel / 32)
    s.setDmc (channel / 32)
      { d with refreshes := SMap.upd (fun _ => 0) d.refreshes (channel % 32 * 16 + bank) (· + 1) }))

/-- SELF_REFRESH_ENTRY (R332): the bank queues are complete and DRAM enters self-refresh. -/
def execSelfRefreshEntry (s : State) : Out :=
  .next (s.when (s.dev.dramMode == .entering) (fun s => { s with dev := { s.dev with dramMode := .selfRefresh } }))

/-! ## Recalibration (R333 to R336) -/

/-- First offset of the delay registers of local group `g` of DMC `d`, and their span of eight channels. -/
def delayBase (d g : Nat) : Nat := regOff .DMC_DLY d (8 * g * 136)
def delaySpan : Nat := 8 * 0x1000

/-- Whether an offset lies among the delay registers of a group. -/
def inDelays (d g off : Nat) : Bool := delayBase d g ≤ off && off < delayBase d g + delaySpan

/-- The delays in force in a group. -/
def State.groupDelays (s : State) (d g : Nat) : SMap W32 :=
  (SMap.keep s.regs (inDelays d g)).map (fun x => (x.1, x.2.setWidth 32))

/-- Put entries into the register store. -/
def putRegs (m : SMap W64) : SMap W32 → SMap W64
  | [] => m
  | (k, v) :: r => putRegs (SMap.set regDefault m k (v.setWidth 64)) r

/-- The status of the last start, end or ending. -/
def State.recalStatus (s : State) (d : Nat) (st : W16) : State := s.setReg .DMC_RECAL_STATUS d 0 (st.setWidth 64)

/-- Byte `n` of a register replaced. -/
def putByte (v : W64) (n x : Nat) : W64 := (v &&& ~~~(0xFF#64 <<< (8 * n))) ||| (BitVec.ofNat 64 (x % 256) <<< (8 * n))

/-- DMC_TEMP_CAL of a group after its delays have been set. -/
def State.calTemp (s : State) (d g : Nat) : State :=
  s.updReg .DMC_TEMP_CAL d 0 (fun v => putByte v g (field (s.regNat .DMC_TEMP d 0) (8 * g) 8))

/-- A start (R335). A start for the group that is already in recalibration changes nothing. -/
def State.recalStart (s : State) (d g : Nat) : State :=
  s.when (towerPresent s.dev.part d && g < 4) (fun s =>
    match (s.dmc d).recal with
    | some (h, _) => if h = g then s else s.recalStatus d Status.recalBusy
    | none =>
      (s.setDmc d { s.dmc d with recal := some (g, s.groupDelays d g), recalStartNs := s.nowNs }).recalStatus d 0)

/-- An end (R335): the new delays are in service. -/
def State.recalEnd (s : State) (d : Nat) : State :=
  match (s.dmc d).recal with
  | none => s
  | some (g, _) =>
    (((s.setDmc d { s.dmc d with recal := none, training := none }).recalStatus d 0).calTemp d g).releasePorts

/-- An ending otherwise (R335): the delays in force at the start are restored. -/
def State.recalStop (s : State) (d : Nat) (st : W16) : State :=
  match (s.dmc d).recal with
  | none => s
  | some (g, old) =>
    let s1 := { s with regs := putRegs (SMap.keep s.regs (fun k => !inDelays d g k)) old }
    ((s1.setDmc d { s1.dmc d with recal := none, training := none }).recalStatus d st).releasePorts

/-- RECAL_START (R335). -/
def execRecalStart (dmc group : Nat) (s : State) : Out := .next (s.recalStart dmc group)

/-- RECAL_END (R335). -/
def execRecalEnd (dmc : Nat) (s : State) : Out := .next (s.recalEnd dmc)

/-- The time limit of a recalibration in nanoseconds: values outside 1,000 to 10,000 µs are taken as 10,000 (Table
12.6). -/
def State.recalLimitNs (s : State) (d : Nat) : Nat :=
  let v := s.regNat .DMC_RECAL_LIMIT_US d 0
  1000 * (if 1000 ≤ v ∧ v ≤ 10000 then v else 10000)

/-- RECAL_TIMEOUT (R335): 0x5031 at a coolant stop, else 0x5030 once the time limit has passed since the start. -/
def execRecalTimeout (dmc : Nat) (s : State) : Out :=
  .next (s.when (s.coolantHeld || (s.dmc dmc).recalStartNs + s.recalLimitNs dmc ≤ s.nowNs) (fun s =>
    s.recalStop dmc (if s.coolantHeld then Status.recalStopped else Status.recalLimit)))

/-- A write to DMC_RECAL_CTRL (R335, R346). -/
def State.recalCtrl (s : State) (d v : Nat) : State :=
  match field v 0 2 with
  | 1 => s.recalStart d (field v 2 2)
  | 2 => s.recalEnd d
  | _ => s

/-- A training command is accepted for a channel of the group in recalibration (R336): it writes its pattern to the
training row of the channel's bank 0. -/
def State.train (s : State) (d channel pattern : Nat) : State :=
  match (s.dmc d).recal with
  | some (g, _) => s.when (channel / 8 == g) (fun s =>
      s.setDmc d { s.dmc d with
        training := some channel
        trainRows := SMap.set (fun _ => none) (s.dmc d).trainRows (channel * 16) (some (pattern % 4)) })
  | none => s

/-- TRAINING_COMMAND (R336). What the lanes read back is TRAINING_COMPLETE's operand. -/
def execTrainingCommand (dmc channel pattern : Nat) (s : State) : Out := .next (s.train dmc channel pattern)

/-- A write to DMC_TRAIN_CTRL (R336, R346). -/
def State.trainCtrl (s : State) (d v : Nat) : State := s.train d (field v 0 5) (field v 5 2)

/-- The words of DMC_TRAIN_PASS. -/
def State.putPass (s : State) (d : Nat) (pass : BitVec 136) : Nat → State
  | 0 => s
  | w + 1 =>
    State.putPass (s.setReg .DMC_TRAIN_PASS d w (((pass >>> (32 * w)).setWidth 32).setWidth 64)) d pass w

/-- TRAINING_COMPLETE (R336): `pass` has the lanes whose read matched. -/
def execTrainingComplete (dmc : Nat) (pass : BitVec 136) (s : State) : Out :=
  .next (s.when (s.dmc dmc).training.isSome (fun s =>
    (s.setDmc dmc { s.dmc dmc with training := none }).putPass dmc pass 5))

/-- The local channel of a delay register. -/
def delayChannel (l : RegLoc) : Nat := if l.row.name = .DMC_DLY then l.idx / 136 else l.idx

/-- A write to a delay register (R334). -/
def State.writeDelay (s : State) (l : RegLoc) (v : W64) : State :=
  match (s.dmc l.unit).recal with
  | some (g, _) =>
    if delayChannel l / 8 = g then s.setReg l.row.name l.unit l.idx (v &&& BitVec.ofNat 64 l.row.mask)
    else s.updReg .DMC_STATUS l.unit 0 (fun x => putBit x 0 true)
  | none => s.updReg .DMC_STATUS l.unit 0 (fun x => putBit x 0 true)

/-- Whether a register is a delay register. -/
def isDelay (l : RegLoc) : Bool := l.row.name == .DMC_DLY || l.row.name == .DMC_DLY_CA

/-- DELAY_REGISTER_WRITE (R334). -/
def execDelayRegisterWrite (off : Nat) (val : W32) (s : State) : Out :=
  .next (match regAt off with
    | some l => s.when (isDelay l && towerPresent s.dev.part l.unit) (fun s => s.writeDelay l (val.setWidth 64))
    | none => s)

/-- The drift of a group's temperature from its last delay setting. -/
def State.drift (s : State) (d g temp : Nat) : Nat :=
  ((temp : Int) - field (s.regNat .DMC_TEMP_CAL d 0) (8 * g) 8).natAbs

/-- TEMP_DRIFT (R336): the group's die temperature is `temp`; a drift above DMC_DRIFT_C raises source 12 or 14. -/
def execTempDrift (dmc group temp : Nat) (s : State) : Out :=
  .next (s.when (towerPresent s.dev.part dmc && group < 4) (fun s =>
    let s1 := s.updReg .DMC_TEMP dmc 0 (fun v => putByte v group temp)
    if s.regNat .DMC_DRIFT_C dmc 0 < s.drift dmc group temp then s1.raise (12 + 2 * dmc) else s1))

end Sys2Proof.Machine
end

