-- ==== Sys2Proof/Machine/WeirCmds.lean ====
section
/-! DEFINITION. Weir: the rail, operating points, caps, brake, droop, sprint, thermal limits, hard stop, coolant stop and
power domains (R348 to R376, R457, R458). -/

set_option Elab.async false

namespace Sys2Proof.Machine

/-! ## The rail and the points -/

/-- Voltage of a point on this part in mV, without the fixed-clock margin (R351). -/
def State.partMv (s : State) (p : Nat) : Int := pointMv p + s.voffset

/-- The rail voltage that a point needs; in fixed-clock mode the rail is held 25 mV above that of point 5 (R355). -/
def State.needMv (s : State) (p : Nat) : Int := if s.fixedClock then s.partMv 5 + 25 else s.partMv p

/-- Set VDD_ARITH: the code is the lowest that gives at least the voltage (R457). -/
def State.setRail (s : State) (mv : Int) : State :=
  { s with weir := { s.weir with railMv := mv.toNat }
           dev := { s.dev with pins := { s.dev.pins with vid := BitVec.ofNat 8 (((mv - 250).toNat + 4) / 5) } } }

/-- The voltage of the highest point that any ungated cluster uses or is about to use. -/
def State.railGoal (s : State) : Int :=
  (s.clusters.filter s.clusterLive).foldl
    (fun a n => max a (s.needMv (max (s.clPwr n).point ((s.clPwr n).want.getD 0)))) (s.needMv 0)

/-- Bring the rail to what the points in use and those awaited need (R352). In coolant stop it stays at retention (R373). -/
def State.settleRail (s : State) : State :=
  if s.weir.coolant = .stopped ∨ s.railGoal = s.weir.railMv then s else s.setRail s.railGoal

/-- A change of a cluster's point towards its effective point (R352): the rail first when it rises, the clock first when
it falls. A stopped cluster changes nothing. -/
def State.repoint (s : State) (n : Nat) : State :=
  let c := s.clPwr n
  let p := s.effectivePoint n
  if c.stopped || !clusterPresent s.dev.part n then s
  else State.settleRail (s.setClPwr n
    (if c.point < p then { c with want := some p } else { c with point := p, want := none }))

/-- The same for a list of clusters. -/
def State.repointAll (s : State) : List Nat → State
  | [] => s
  | n :: ns => State.repointAll (s.repoint n) ns

/-! ## Sprint (R365 to R370) -/

/-- The lowest limit of a cluster but for sprint itself: phase, WEIR_CL_FMAX, cap and thermal limit. -/
def State.sprintPoint (s : State) (n : Nat) : Nat :=
  let c := s.clPwr n
  min (min s.phasePoint (s.regNat .WEIR_CL_FMAX 0 n % 8)) (min c.thermPoint c.capPt)

/-- Whether a cluster, with its group, is allowed a sprint point (R354, R365, R376). -/
def State.sprintAllowed (s : State) (n : Nat) : Bool :=
  s.clusterLive n && !s.fixedClock && s.regBit .WEIR_CTRL 0 0 2 &&
    (match s.groupOf n with
     | some g => 6 ≤ minOver s.sprintPoint (s.sprintPoint n) g
     | none => 6 ≤ s.sprintPoint n)

/-- Whether any cluster is at a sprint point, or about to be. -/
def State.sprinting (s : State) : Bool :=
  s.clusters.any (fun n => s.clusterLive n && (6 ≤ (s.clPwr n).point || 6 ≤ (s.clPwr n).want.getD 0))

def State.setSprint (s : State) (p : Sprint) : State := { s with weir := { s.weir with sprint := p } }

/-- Bring a cluster at a sprint point down to point 5 or lower, its effective point without sprint (R369). -/
def State.leaveSprint (s : State) : List Nat → State
  | [] => s
  | n :: ns =>
    let c := s.clPwr n
    let p := if 6 ≤ c.point then min 5 (s.effectivePoint n) else c.point
    let w := match c.want with
      | some q => if 6 ≤ q then none else some q
      | none => none
    State.leaveSprint (s.setClPwr n { c with point := p, want := w }) ns

/-- Sprint ends (R366 to R370): the budget is discarded, the status reported, the power source raised. An electrical
end is logged (Table 15.5). `detail` is the measured value. -/
def State.sprintEnd (s : State) (st : W16) (detail : Nat) : State :=
  s.when s.weir.sprint.on (fun s =>
    let s1 := s.setSprint { s.weir.sprint with on := false, budgetNj := 0, endedNs := some s.dev.aoNs }
    let s2 := ((s1.leaveSprint (List.range 4)).settleRail.powerStatus st).raise 3
    if st = Status.sprintExcursion then s2.elog st unitWeir 0 noCtx noFn (BitVec.ofNat 64 detail) else s2)

/-- After a change of cap, phase, WEIR_CL_FMAX, mode, sprint_en, coupling or points (R370): sprint ends where no cluster is
allowed a sprint point, or none is at one. The spec gives 0x7006 for the former; the latter reports it too (log 79). -/
def State.sprintCheck (s : State) : State :=
  if s.weir.sprint.on && (!(List.range 4).any s.sprintAllowed || !s.sprinting) then
    s.sprintEnd Status.sprintNotAllowed 0
  else s

/-- OPERATING_POINT_CHANGE (R352, R354, R376). -/
def execOperatingPointChange (cluster : Nat) (s : State) : Out :=
  .next (s.when (s.clocked && cluster < 4) (fun s => (s.repoint cluster).sprintCheck))

/-- CLOCK_SWITCH (R352): the raised rail has settled and the clock switches, to a point that the rail supports and the
limits still allow. -/
def execClockSwitch (cluster : Nat) (s : State) : Out :=
  .next (match (s.clPwr cluster).want with
    | some p =>
      let q := min p (s.effectivePoint cluster)
      s.when (s.clocked && !(s.clPwr cluster).stopped && s.needMv q ≤ s.weir.railMv) (fun s =>
        (State.settleRail (s.setClPwr cluster { s.clPwr cluster with point := q, want := none })).sprintCheck)
    | none => s)

/-- The hottest junction reading (R371). -/
def State.hottest (s : State) : Nat := field (s.regNat .WEIR_TJ_C 0 0) 0 8

/-- The conditions of R365 other than residency. -/
def State.sprintReady (s : State) : Bool :=
  s.ready && !s.weir.sprint.on && s.clusters.any s.sprintAllowed && !s.weir.brake && !s.coolantHeld &&
    !s.thermalEngaged && s.hottest < 87 &&
    (match s.weir.sprint.endedNs with
     | some t => t + 100000000 ≤ s.dev.aoNs
     | none => true)

/-- SPRINT_ENTRY (R365, R366): the budget is 5.0 J/K times (87 °C - Tj). An entry that the residency alone forbids is
refused with 0x7004 (R368, Table 13.9). -/
def execSprintEntry (s : State) : Out :=
  .next (s.when s.sprintReady (fun s =>
    if 6912 ≤ s.weir.sprint.residency then s.powerStatus Status.sprintResidency
    else
      let s1 := s.setSprint { s.weir.sprint with on := true, budgetNj := 5000000000 * ((87 - s.hottest : Nat) : Int) }
      (s1.addTo .WEIR_CNT_SPRINT 0 1).repointAll (s1.clusters.filter s1.sprintAllowed)))

/-- SPRINT_BUDGET_TICK (R366): 10 µs at a sprint point. -/
def execSprintBudgetTick (s : State) : Out :=
  .next (s.when (s.clocked && s.weir.sprint.on && s.atSprint) (fun s =>
    let b := s.weir.sprint.budgetNj - 10 * ((s.weir.sampleMw : Int) - tdpMw s.dev.part)
    let s1 := (s.addTo .WEIR_CNT_SPRINT_US 0 10).setSprint { s.weir.sprint with budgetNj := b }
    if b ≤ 0 then s1.sprintEnd Status.sprintBudget 0
    else if 6912 ≤ s1.weir.sprint.residency then s1.sprintEnd Status.sprintResidency 0
    else s1))

/-- EXCURSION_LIMIT (R367): VDD_ARITH has carried `ampsMilli` for `us`. -/
def execExcursionLimit (ampsMilli us : Nat) (s : State) : Out :=
  .next (s.when (s.clocked && ((260000 < ampsMilli && 2000 ≤ us) || 280000 < ampsMilli)) (fun s =>
    s.sprintEnd Status.sprintExcursion ampsMilli))

/-- RESIDENCY_BIN_TICK (R368): a minute of AO time ends, the one whose number is given (log 106). Its bin holds the time that
passed in it with a cluster at a sprint point; the oldest of the 1,440 expires. -/
def execResidencyBinTick (minute : Nat) (s : State) : Out :=
  .next (s.when (s.dev.life != .noAux && s.dev.life != .auxReset && minute == s.weir.sprint.minutes + 1 &&
      decide (minute * 60000000000 ≤ s.dev.aoNs)) (fun s =>
    let p := s.weir.sprint
    let s1 := s.setSprint { p with bins := (p.binNs :: p.bins).take 1439, binNs := 0, minutes := minute }
    if 6912 ≤ s1.weir.sprint.residency then s1.sprintEnd Status.sprintResidency 0 else s1))

/-! ## Power and caps (R358 to R361, R377) -/

/-- The decode contexts that the pictures in progress are charged to, the first that serves the rill's class for each. -/
def State.decoders (s : State) : List Nat :=
  (s.ing.ctxs.filter (fun x => x.2.pic.isSome)).flatMap (fun x =>
    match x.2.rill.bind (fun r => s.rillClass (s.rill r).cls) with
    | some k => ((s.ldr.image.ctxs.filter (fun e => e.serves k)).take 1).map (·.id)
    | none => [])

/-- Contexts whose commands run: those that hold a cluster or a lane, those whose pixel commands occupy an engine, and those
of the pictures now decoding. -/
def State.holders (s : State) : List Nat :=
  (s.slu.ctxs.filter (fun x => x.2.holds != [])).map (·.1) ++ s.trk.pxes.map (fun x => x.2.ctx) ++ s.decoders

/-- Charge a sample's energy: each holding context takes a part that R377's coefficients decide (their calibration
voltage is not given, so the part is a free value); the rest is idle energy (R377, R378). -/
def State.charge (s : State) (uj : Nat) : List Nat → State
  | [] => s.addTo .WEIR_E_IDLE_UJ 0 uj
  | c :: cs =>
    let part := Config.freeValue s.freeIdx % (uj + 1)
    State.charge ({ s with freeIdx := s.freeIdx + 1 }.updReg .WEIR_CTX_UJ 0 c (fun v => v + BitVec.ofNat 64 part))
      (uj - part) cs

/-- POWER_SAMPLE (R360): the power measured on every rail, and the energy since the last sample. -/
def execPowerSample (mw energyUj : Nat) (s : State) : Out :=
  .next (s.when s.clocked (fun s =>
    State.charge (({ s with weir := { s.weir with sampleMw := mw } }).addTo .WEIR_E_DEVICE_UJ 0 energyUj) energyUj
      s.holders))

/-- The cap's ceiling for every cluster (R360: the same for each). -/
def State.setCeiling (s : State) (p : Nat) : List Nat → State
  | [] => s
  | n :: ns => State.setCeiling (s.setClPwr n { s.clPwr n with capPt := p }) p ns

def State.setDuty (s : State) (d : Nat) : State := { s with weir := { s.weir with duty := d } }

/-- The ungated clusters. -/
def State.liveClusters (s : State) : List Nat := s.clusters.filter s.clusterLive

/-- The highest allowed point of the ungated clusters. -/
def State.topPoint (s : State) : Nat := s.liveClusters.foldl (fun a n => max a (s.effectivePoint n)) 0

/-- The ceiling in force. -/
def State.ceiling (s : State) : Nat := (s.clPwr 0).capPt

/-- CAP_ADJUST (R360, R361): above the effective cap the points go down together by one, then the duty by 1/8 down to
1/4; below it the duty, then the points, come back. In fixed-clock mode the cap is not enforced (R355). -/
def execCapAdjust (s : State) : Out :=
  .next (s.when s.clocked (fun s =>
    let cap := s.effCap
    if s.fixedClock || cap = 0 then ((s.setCeiling 7 (List.range 4)).setDuty 8).repointAll s.liveClusters
    else if cap < s.weir.sampleMw then
      if s.topPoint = 0 then s.setDuty (max 2 (s.weir.duty - 1))
      else
        let s1 := s.setCeiling (s.topPoint - 1) (List.range 4)
        (s1.repointAll s1.liveClusters).sprintCheck
    else if s.weir.sampleMw < cap then
      if s.weir.duty < 8 then s.setDuty (s.weir.duty + 1)
      else
        let s1 := s.setCeiling (min 7 (s.ceiling + 1)) (List.range 4)
        s1.repointAll s1.liveClusters
    else s))

/-- Whether a 10 ms window of power `mw` misses the cap (R361, Table 13.9). -/
def State.capMissed (s : State) (mw : Nat) : Bool :=
  !s.fixedClock && s.effCap != 0 && s.effCap * 102 < mw * 100 && s.weir.duty ≤ 2 &&
    s.liveClusters.all (fun n => (s.clPwr n).point == 0)

/-- CAP_WINDOW_END (R361): the power source is raised at most once per 100 ms. A window with a switch of Weir's firmware is not
counted (R449). -/
def execCapWindowEnd (mw : Nat) (s : State) : Out :=
  .next (s.when s.clocked (fun s =>
    let s1 := { s with weir := { s.weir with powerMw := mw, switched := false } }
    if s.capMissed mw then
      let s0 := s1.powerStatus Status.capMissed
      let s2 := (if s.weir.switched then s0 else s0.count .WEIR_CNT_CAPMISS 0).elog Status.capMissed unitWeir 0 noCtx noFn
        (BitVec.ofNat 64 mw)
      let due : Bool := match s.weir.lastMissNs with
        | some t => t + 100000000 ≤ s.dev.aoNs
        | none => true
      if due then State.raise { s2 with weir := { s2.weir with lastMissNs := some s.dev.aoNs } } 3 else s2
    else s1))

/-! ## Brake (R362, R363, R458) -/

/-- Stop the clocks of clusters. -/
def State.stopClusters (s : State) : List Nat → State
  | [] => s
  | n :: ns => State.stopClusters (s.setClPwr n { s.clPwr n with stopped := true }) ns

def State.setPins (s : State) (p : Pins) : State := { s with dev := { s.dev with pins := p } }

/-- Whether the pins of R469 act: from device ready on. -/
def State.pinsAct (s : State) : Bool := s.dev.life == .ready

/-- Whether the conditions of the AO-capable pin sources are formed: from device ready on, and in standby (R406,
R469). -/
def State.pinSources (s : State) : Bool := s.dev.life == .ready || s.dev.life == .standby

/-- A transition of the combined brake into assertion (R362, R370, R458). -/
def State.brakeOn (s : State) : State :=
  s.when (s.pinsAct && !s.weir.brake && s.brakePins) (fun s =>
    let s1 := s.sprintEnd Status.sprintStopped 0
    let s2 := { s1 with weir := { s1.weir with brake := true, restart := [] } }
    (((s2.stopClusters s2.clusters).count .WEIR_CNT_BRAKE 0).powerStatus Status.brake).elog Status.brake unitWeir 0 noCtx
      noFn (BitVec.ofNat 64 s.weir.sampleMw))

/-- The release of both pins (R363, R458): the clusters are to restart in ascending order, unless a coolant stop holds
them (R375). -/
def State.brakeOff (s : State) : State :=
  s.when (s.weir.brake && !s.brakePins) (fun s =>
    { s with weir := { s.weir with brake := false, restart := if s.coolantHeld then [] else s.clusters } })

/-- BRAKE_ASSERT (R362): PWR_BRAKE_N is asserted. -/
def execBrakeAssert (s : State) : Out :=
  .next (s.when (!s.dev.pins.brake) (fun s =>
    let s1 := s.setPins { s.dev.pins with brake := true }
    (if s1.pinSources then s1.edge 5 true else s1).brakeOn))

/-- BRAKE_DEASSERT (R363). -/
def execBrakeDeassert (s : State) : Out :=
  .next (s.when s.dev.pins.brake (fun s =>
    let s1 := s.setPins { s.dev.pins with brake := false }
    (s1.edge 5 false).brakeOff))

/-- CLUSTER_RESTART (R363): the first cluster still to restart does so at its effective point. -/
def execClusterRestart (cluster : Nat) (s : State) : Out :=
  .next (match s.weir.restart with
    | n :: ns => s.when (s.clocked && n == cluster) (fun s =>
        let c := s.clPwr n
        let s1 := { s with weir := { s.weir with restart := ns } }
        if c.thermPt = 0 then s1
        else
          let s2 := s1.setClPwr n { c with stopped := false, point := s1.effectivePoint n, want := none }
          State.settleRail (s2.takeKills n (coresOf n)))
    | [] => s)

/-- VR_ALERT_ASSERT (R458). -/
def execVrAlertAssert (s : State) : Out :=
  .next (s.when (!s.dev.pins.vrAlert) (fun s => State.brakeOn (s.setPins { s.dev.pins with vrAlert := true })))

/-- VR_ALERT_DEASSERT (R458). -/
def execVrAlertDeassert (s : State) : Out :=
  .next (s.when s.dev.pins.vrAlert (fun s => State.brakeOff (s.setPins { s.dev.pins with vrAlert := false })))

/-! ## Droop (R364) -/

/-- DROOP_DETECT (R364): a detector reads `mv` on the cluster's supply. -/
def execDroopDetect (cluster mv : Nat) (s : State) : Out :=
  .next (s.when (s.clocked && s.clusterLive cluster && !(s.clPwr cluster).stopped && !(s.clPwr cluster).stretched &&
      (mv : Int) + s.regNat .WEIR_DROOP_MV 0 0 < s.partMv (s.clPwr cluster).point) (fun s =>
    (s.setClPwr cluster { s.clPwr cluster with stretched := true }).count .WEIR_CNT_DROOP 0))

/-- DROOP_RECOVER (R364). -/
def execDroopRecover (cluster : Nat) (s : State) : Out :=
  .next (s.when s.clocked (fun s => s.setClPwr cluster { s.clPwr cluster with stretched := false }))

/-! ## Thermal limits and hard stop (R371, R372) -/

/-- The place and value of the hottest of a list of readings, the first of equals. -/
def hottestOf : Nat → List Nat → Nat × Nat
  | _, [] => (0, 0)
  | i, t :: ts =>
    let r := hottestOf (i + 1) ts
    if t < r.2 then r else (i, t)

/-- A cluster's temperature: the highest of its four sensors. -/
def clusterTemp (temps : List Nat) (n : Nat) : Nat := ((temps.drop (4 * n)).take 4).foldl max 0

/-- One cluster's reading: a limit engages, at point 5, since no cluster is at a sprint point under a limit (R365, R370); it is
released once it allows point 5 again 3 °C below the limit (log 80). -/
def State.thermalRead (s : State) (n t : Nat) : State :=
  let c := s.clPwr n
  let lim := s.regNat .WEIR_TJ_LIMIT 0 0
  if lim ≤ t ∧ !c.engaged then
    let s0 := if 6 ≤ c.point then s.sprintEnd Status.sprintStopped 0 else s
    let s1 := s0.setClPwr n { s0.clPwr n with temp := t, engaged := true, thermPt := min 6 c.thermPt }
    ((s1.count .WEIR_CNT_THERMAL 0).powerStatus Status.thermalLimit).elog Status.thermalLimit unitWeir 0 noCtx noFn
      (BitVec.ofNat 64 t)
  else
    let free : Bool := decide (t + 3 ≤ lim) && decide (6 ≤ c.thermPt)
    s.setClPwr n { c with temp := t, engaged := c.engaged && !free, thermPt := if free then 8 else c.thermPt }

def State.thermalReadAll (s : State) (temps : List Nat) : List Nat → State
  | [] => s
  | n :: ns => State.thermalReadAll (s.thermalRead n (clusterTemp temps n)) temps ns

/-- THERMAL_SAMPLE (R371): the 16 sensors, four per cluster. -/
def execThermalSample (temps : List Nat) (s : State) : Out :=
  .next (s.when s.clocked (fun s =>
    let h := hottestOf 0 (temps.take 16)
    (s.setReg .WEIR_TJ_C 0 0 (BitVec.ofNat 64 (h.2 % 256 + 256 * (h.1 % 16)))).thermalReadAll temps s.clusters))

/-- THERMAL_LIMIT_STEP (R371): the thermal-limit point goes one point down at the limit, and one point up 3 °C below it. A
limit below point 0 stops the clock until then. -/
def execThermalLimitStep (cluster : Nat) (s : State) : Out :=
  .next (s.when (s.clocked && clusterPresent s.dev.part cluster && (s.clPwr cluster).engaged) (fun s =>
    let c := s.clPwr cluster
    let lim := s.regNat .WEIR_TJ_LIMIT 0 0
    let group := match s.groupOf cluster with
      | some g => g
      | none => [cluster]
    if lim ≤ c.temp then
      let t := c.thermPt - 1
      ((s.setClPwr cluster { c with thermPt := t, stopped := c.stopped || t == 0 }).repointAll group).sprintCheck
    else if c.temp + 3 ≤ lim then
      let t := c.thermPt + 1
      let s1 := s.setClPwr cluster { c with
        thermPt := if 6 ≤ t then 8 else t
        stopped := c.stopped && (s.weir.brake || s.coolantHeld || s.weir.restart.contains cluster)
        engaged := decide (t < 6) }
      (s1.takeKills cluster (coresOf cluster)).repointAll group
    else s))

/-- HARD_STOP (R372, R370): a junction at 115 °C. THERMTRIP_N is asserted, every clock but AO's stops, AO records it, and
sprint is over without a report. -/
def execHardStop (s : State) : Out :=
  .next (s.when s.dev.rails.soc (fun s =>
    let p := s.weir.sprint
    State.setSprint { s with dev := { s.dev with
        life := .hardStop, hardStopRec := true, pins := { s.dev.pins with thermtrip := true } } }
      { p with on := false, budgetNj := 0, endedNs := if p.on then some s.dev.aoNs else p.endedNs }))

/-! ## Coolant stop (R373 to R375) -/

def State.setCoolant (s : State) (c : Coolant) : State := { s with weir := { s.weir with coolant := c } }

def State.setDramMode (s : State) (m : DramMode) : State := { s with dev := { s.dev with dramMode := m } }

/-- A coolant stop begins: restarts that still wait are given up, for leaving it restarts every cluster. -/
def State.startCoolant (s : State) (now : Nat) : State :=
  { s with weir := { s.weir with coolant := .entering, coolantNs := now, restart := [] } }

/-- The first steps of Table 13.6. -/
def State.coolantEnter (s : State) : State :=
  s.when (s.pinsAct && !s.coolantHeld && s.dev.pins.flowLost) (fun s =>
    let s1 := ((s.holdDecs (List.range 16)).sprintEnd Status.sprintStopped 0).startCoolant s.nowNs
    let s2 := (s1.stopClusters s1.clusters).setDramMode .entering
    let s3 := (s2.recalStop 0 Status.recalStopped).recalStop 1 Status.recalStopped
    ((s3.count .WEIR_CNT_COOLANT 0).powerStatus Status.coolantStop).elog Status.coolantStop unitWeir 0 noCtx noFn
      (BitVec.ofNat 64 s.hottest))

/-- FLOW_LOST_ASSERT (R373). -/
def execFlowLostAssert (s : State) : Out :=
  .next (s.when (!s.dev.pins.flowLost) (fun s =>
    let s1 := s.setPins { s.dev.pins with flowLost := true }
    let s2 := { s1 with weir := { s1.weir with flowReleasedNs := none } }
    (if s2.pinSources then s2.edge 4 true else s2).coolantEnter))

/-- COOLANT_STOP_REACHED (R373): DRAM is in self-refresh and the rail at 0.55 V retention. -/
def execCoolantStopReached (s : State) : Out :=
  .next (s.when (s.weir.coolant == .entering && s.dev.dramMode == .selfRefresh) (fun s =>
    (s.setCoolant .stopped).setRail 550))

/-- FLOW_LOST_DEASSERT (R374): the hold time starts. -/
def execFlowLostDeassert (s : State) : Out :=
  .next (s.when s.dev.pins.flowLost (fun s =>
    let s1 := s.setPins { s.dev.pins with flowLost := false }
    State.edge { s1 with weir := { s1.weir with flowReleasedNs := some s.dev.aoNs } } 4 false))

/-! ## Domains (R348) -/

/-- Whether the loaded image has placed TRACK_RULES (type 0x000D, Table 2.5). -/
def State.hasRules (s : State) : Bool :=
  s.imageLoaded && (s.ldr.image.placed.any (fun p => p.type == 0x000D) ||
    s.ldr.segs.any (fun g => g.placed.any (fun p => p.type == 0x000D)))

/-- Whether the part has a domain's unit. -/
def domainPresent (p : Part) : Domain → Bool
  | .core n => corePresent p n
  | .basin n => clusterPresent p n
  | .decode n => n < 4 && (List.range 4).any (fun k => decPresent p (4 * n + k))
  | .pixel => true
  | .track => trkPresent p

/-- The gating conditions of Table 13.1. How long a core has been idle is the command's (log 13). -/
def State.mayGate (s : State) (d : Domain) : Bool :=
  s.domainLive d &&
    (match d with
     | .core n => (s.core n).st == .idle && (s.core n).done == [] && (s.core n).drains == []
     | .basin n => s.residents n == []
     | .decode n =>
       bitAt s.phaseEntry (4 + n) &&
         s.ing.ctxs.all (fun x => x.1 / 128 != n || x.2.rill.isNone) && s.ing.engines.all (fun x =>
           x.1 / 4 != n || x.2.current.isNone)
     | .pixel => !s.imageLoaded && s.trk.pxes == []
     | .track => !s.hasRules && s.trackRunning == 0)

/-- What a core loses when it is gated: its stores and its LOAD records (R348). -/
def Core.gate (c : Core) : Core :=
  { c with st := .gated, loaded := none, slots := [], bankA := [], bankB := [], codebook := [], loads := [], kept := [],
           inits := [], layout := (0, 0), xlayout := (0, 0), scanning := none }

def State.setLive (s : State) (l : List Domain) : State := { s with weir := { s.weir with live := l } }

/-- POWER_GATE (R348). -/
def execPowerGate (d : Domain) (s : State) : Out :=
  .next (s.when (s.mayGate d) (fun s =>
    let s0 := match d with
      | .decode n => s.holdDecs ((List.range 4).map (fun k => 4 * n + k))
      | _ => s
    let s1 := s0.setLive (s.weir.live.filter (fun x => x != d))
    (match d with
    | .core n => s1.updCore n Core.gate
    | .basin n => s1.setBasin n []
    | .decode _ => s1
    | .pixel => s1
    | .track => { s1 with trk := { s1.trk with cache := [] } }).sprintCheck))

/-- DOMAIN_WAKE (R348). -/
def execDomainWake (d : Domain) (s : State) : Out :=
  .next (s.when (s.clocked && domainPresent s.dev.part d && !s.domainLive d && !s.weir.waking.contains d) (fun s =>
    { s with weir := { s.weir with waking := s.weir.waking ++ [d] } }))

/-- The first domain of a cluster to wake starts it at point 0, which the rail supports, and from there it goes to its
effective point (R352, R354). -/
def State.startCluster (s before : State) (n : Nat) : State :=
  if before.clusterLive n then s
  else (s.setClPwr n { s.clPwr n with point := 0, want := none }).repoint n

/-- DOMAIN_WAKE_COMPLETE (R348). -/
def execDomainWakeComplete (d : Domain) (s : State) : Out :=
  .next (s.when (s.clocked && s.weir.waking.contains d) (fun s =>
    let s1 := { s with weir := { s.weir with
      waking := s.weir.waking.filter (fun x => x != d), live := s.weir.live ++ [d] } }
    match d with
    | .core n => (s1.updCore n (fun c => if c.st = .gated then { c with st := .idle } else c)).startCluster s (n / 8)
    | .basin n => s1.startCluster s n
    | .decode _ => s1
    | .pixel => s1
    | .track => s1))

end Sys2Proof.Machine
end

