-- ==== Sys2Proof/Machine/SluiceOps.lean ====
section
/-! DEFINITION. What Sluice's steps share: which version of a segment serves an item (R68, R69), command records, frame
references (R222), items leaving a context, command commit, step commit and command fault (R16, R127, R287), kills
(R145), and the decision of who holds a cluster (R299 to R303). -/

set_option Elab.async false

namespace Sys2Proof.Machine

/-! ## Segments and command records -/

/-- The segment of the loaded base that a context belongs to, if any (R50). -/
def State.segRun (s : State) (ctx : Nat) : Option SegRun :=
  match s.ldr.image.segs.find? (fun e => e.ctxs.contains ctx) with
  | some e => s.ldr.segs.find? (fun g => g.id = e.id)
  | none => none

/-- Whether a frame is processed under the old version of a segment (R68): the new one serves timestamps from a nonzero
switch time on, else frames stamped after the swap's increment. -/
def SegRun.isOld (g : SegRun) (captureTs stamp : Nat) : Bool :=
  g.retiring && (if g.switchT = 0 then decide (stamp < g.switchCount) else decide (captureTs < g.switchT))

/-- Whether a context processes a frame under its old segment. -/
def State.oldFor (s : State) (ctx captureTs stamp : Nat) : Bool :=
  match s.segRun ctx with
  | some g => g.isOld captureTs stamp
  | none => false

/-- The placed sections that serve a context. -/
def State.sections (s : State) (ctx : Nat) (old : Bool) : List Placed :=
  match s.segRun ctx with
  | some g => if old then g.oldPlaced else g.placed
  | none => s.ldr.image.placed

/-- The COMMAND_LIST section that a context's entry names. -/
def State.namedList (s : State) (ctx : Nat) : List Placed :=
  match s.ctxEntry ctx with
  | some e => s.ldr.image.placed.filter (fun p => p.type = 8 && e.cmdSection = p.dirIndex)
  | none => []

/-- The addresses of the records of a context in DRAM bytes `a` to `e - 1` (R52). -/
def State.recordsIn (s : State) (ctx e : Nat) : Nat → Nat → List Nat
  | 0, _ => []
  | k + 1, a =>
    let len := s.dramRd (a + 4) 4
    if e < a + 16 ∨ len = 0 then []
    else if s.dramRd a 2 = ctx then a :: State.recordsIn s ctx e k (a + len)
    else State.recordsIn s ctx e k (a + len)

/-- The addresses of a context's records in some sections. -/
def State.recordsOf (s : State) (ctx : Nat) (ps : List Placed) : List Nat :=
  (ps.filter (fun p => p.type = 8)).flatMap (fun p => s.recordsIn ctx (p.load + p.len) (p.len / 16) p.load)

/-- The addresses of a context's records: those of the COMMAND_LIST sections of its segment's version where they hold any,
else those of the section that its entry names (R52, R66). -/
def State.records (s : State) (ctx : Nat) (old : Bool) : List Nat :=
  let own := if (s.segRun ctx).isSome then s.recordsOf ctx (s.sections ctx old) else []
  if own = [] then s.recordsOf ctx (s.namedList ctx) else own

/-- The address of record `k` of a context. -/
def State.recordAt (s : State) (ctx k : Nat) (old : Bool) : Option Nat :=
  (s.records ctx old).find? (fun a => s.dramRd (a + 2) 2 = k)

/-- The command at position `k` of a context's list. -/
def State.cmdAt (s : State) (ctx k : Nat) (old : Bool) : Option Cmd :=
  (s.recordAt ctx k old).map (fun a => readCmd (fun off n => s.dramRd (a + off) n))

/-- The step of a context. -/
def State.stepOf (s : State) (ctx : Nat) : Option StepRun := (s.ctxRun ctx).step

/-- Whether a context's step is under its old segment: all items of a step are of one version (R69). -/
def State.stepOld (s : State) (ctx : Nat) : Bool :=
  match s.stepOf ctx with
  | some st =>
    (match st.items with
     | it :: _ => s.oldFor ctx it.captureTs it.stamp
     | [] => false)
  | none => false

/-- The command that a context has issued, as its record gives it. -/
def State.running (s : State) (ctx : Nat) : Option Cmd :=
  match s.cmdRun ctx with
  | some r => s.cmdAt ctx r.cmd (s.stepOld ctx)
  | none => none

def CtxEntry.replicated (e : CtxEntry) : Bool := bitAt e.flags 0
def CtxEntry.sharded (e : CtxEntry) : Bool := bitAt e.flags 1

/-- The present clusters of a context's mask, ascending. -/
def State.maskClusters (s : State) (ctx : Nat) : List Nat :=
  match s.ctxEntry ctx with
  | some e => s.clusters.filter (fun n => bitAt e.clusterMask n)
  | none => []

/-- The shard count S of a command: its level-1 bound (R148); 1 where it is not sharded. -/
def Cmd.shards (c : Cmd) : Nat := if c.shard then (c.levels.map (·.bound)).getD 0 1 else 1

/-- The clusters that a sharded context runs on: the collective group (R154) of its sharded command with the most shards. -/
def State.collective (s : State) (ctx : Nat) (old : Bool) : List Nat :=
  (s.maskClusters ctx).take
    (((List.range (s.records ctx old).length).filterMap (fun k => s.cmdAt ctx k old)).foldl (fun a c => max a c.shards) 1)

/-- The function of a context, 0xFF where there is none. -/
def State.ctxFn (s : State) (ctx : Nat) : Nat :=
  match s.ctxEntry ctx with
  | some e => e.fn
  | none => noFn

/-- The kind of a context. -/
def State.ctxKind (s : State) (ctx : Nat) : Option Nat := (s.ctxEntry ctx).map (·.kind)

/-- The track and copy contexts that a context feeds. -/
def State.readers (s : State) (ctx : Nat) : List Nat :=
  match s.ctxEntry ctx with
  | some e => e.succ.filter (fun c => s.ctxKind c == some 3 || s.ctxKind c == some 4)
  | none => []

/-! ## Frames -/

/-- Whether a queued or running command names a frame (R222): it waits for its pixel or track command, an engine is on
it, a crop of it is requested, or an item of it is queued or in a step. -/
def State.frameNamed (s : State) (r f : Nat) : Bool :=
  s.trk.flows.any (fun x => x.rill = r && x.frame = f) || s.trk.pxes.any (fun x => x.2.rill = r && x.2.frame = f) ||
    s.trk.crops.any (fun x => x.rill = r && x.frame = f) ||
    s.slu.ctxs.any (fun x => x.2.queue.any (fun i => i.rill = r && i.frame = f) ||
      (match x.2.step with
       | some st => st.items.any (fun i => i.rill = r && i.frame = f)
       | none => false))

/-- Return the buffers of the frames of a list that nothing holds any more (R222). -/
def State.reapList (s : State) : List Frame → State
  | [] => s
  | f :: fs =>
    if f.isRef || f.cached || s.frameNamed f.rill f.index then State.reapList s fs
    else
      let s1 := { s with ing := { s.ing with
        frames := dropFirst (fun x => x.rill = f.rill && x.index = f.index) s.ing.frames } }
      State.reapList (s1.release f.handle (s.rill f.rill).fn) fs

/-- The same for every frame. -/
def State.reapFrames (s : State) : State := s.reapList s.ing.frames

/-! ## Items leaving a context -/

/-- Whether head items that a context wrote wait for a track or copy command that reads them (R284). -/
def State.headsUnread (s : State) (ctx : Nat) : Bool :=
  s.trk.flows.any (fun x => x.heads.any (fun h => h.1 = ctx) && x.ctxs.any (fun c => (s.readers ctx).contains c))

/-! ## Copies -/

/-- A copy command (Table 11.4). -/
structure CopyCmd where
  op : Nat
  pool : Nat
  length : Nat
  src : Nat
  dst : Nat
  source : Nat
  deriving DecidableEq, Repr

def readCopy (rd : Nat → Nat → Nat) : CopyCmd :=
  { op := rd 0x11 1, pool := rd 0x12 1, length := rd 0x14 4, src := rd 0x18 8, dst := rd 0x20 8, source := rd 0x28 2 }

/-- The copy commands of a context, with their positions. -/
def State.copyCmds (s : State) (ctx : Nat) (old : Bool) : List (Nat × CopyCmd) :=
  (List.range (s.records ctx old).length).filterMap (fun k =>
    (s.recordAt ctx k old).map (fun a => (k, readCopy (fun off n => s.dramRd (a + off) n))))

/-- The next command of op 0 of a copy context: the list is run in order and again from its start (log 38). -/
def State.nextMove (s : State) (ctx : Nat) : Option (Nat × CopyCmd) :=
  let l := (s.copyCmds ctx false).filter (fun x => x.2.op = 0)
  let k := (s.ctxRun ctx).next.getD 0
  match l.find? (fun x => decide (k ≤ x.1)) with
  | some x => some x
  | none => l.head?

/-! ## Frames for track and copy contexts -/

/-- Whether a verifying swap with a switch time holds a frame before a context of its segment (R70). -/
def State.swapHolds (s : State) (ctx captureTs : Nat) : Bool :=
  match s.ldr.swap, s.segRun ctx with
  | some j, some g => j.swapTime != 0 && decide (j.swapTime ≤ captureTs) && g.id == j.seg
  | _, _ => false

/-- Whether the track command of a rill is in progress. -/
def State.rillBusy (s : State) (r : Nat) : Bool := (s.rillTrk r).running.isSome

/-- How many frames an embedding is given (R267): reid_lag of the rule set that a track context's command names. -/
def State.reidLag (s : State) (ctx : Nat) (old : Bool) : Nat :=
  match s.recordAt ctx 0 old with
  | some a => s.dramRd (s.dramRd (a + 0x18) 8 + 0x23) 1
  | none => 0

/-- Whether every embedding due before a frame has been delivered or declared lost (R247, R267). -/
def State.embsReady (s : State) (ctx : Nat) (f : Flow) : Bool :=
  let lag := s.reidLag ctx (s.oldFor ctx f.captureTs f.stamp)
  s.trk.embq.all (fun e => e.rill != f.rill || decide (f.frame < e.frame + lag) || e.lost || e.data.isSome)

/-- Whether no frame of the rill before it is still on its way to a context (R247). -/
def State.firstFrame (s : State) (ctx : Nat) (f : Flow) : Bool :=
  !s.trk.flows.any (fun x => x.rill = f.rill && decide (x.frame < f.frame) && (!x.started || x.ctxs.contains ctx))

/-- Whether the command of a track or copy context for a frame may issue: a track command once every head item of the frame
has left its context, the embeddings due are there and the rill's previous frame has committed (R247); a head export once
those of its source contexts have (R310). A verifying swap may hold the frame (R70), and a switch of the track engine's
firmware holds new track commands (R449). -/
def State.flowReady (s : State) (e : CtxEntry) (f : Flow) : Bool :=
  f.started && f.ctxs.contains e.id && !s.swapHolds e.id f.captureTs &&
    (if e.kind = 3 then !s.sage.pendingSwitch.getLsbD 3 && f.waits == [] && !s.rillBusy f.rill && s.firstFrame e.id f && s.embsReady e.id f
     else e.kind = 4 && !(s.copyCmds e.id (s.oldFor e.id f.captureTs f.stamp)).any (fun c =>
       c.2.op = 1 && f.waits.contains c.2.source))

/-- The frames whose command of a context may issue. -/
def State.readyFlows (s : State) (e : CtxEntry) : List Flow := s.trk.flows.filter (s.flowReady e)

/-! ## Who is runnable -/

/-- Whether a context has work: a model context a step, or items and its heads read (R283, R284); a track or copy context a
frame ready for its command (R247), or a move; a pixel context a crop or an engine, a decode context a picture or an access
unit. -/
def State.hasWork (s : State) (e : CtxEntry) : Bool :=
  let x := s.ctxRun e.id
  match e.kind with
  | 0 => s.ing.ctxs.any (fun d => (d.2.pic.isSome || d.2.queue != []) &&
      (match d.2.rill.bind (fun r => s.rillClass (s.rill r).cls) with
       | some k => e.serves k
       | none => false))
  | 1 => s.trk.pxes.any (fun p => p.2.ctx = e.id) || s.trk.crops.any (fun c => c.pixelCtx = e.id)
  | 2 => x.step.isSome || (x.queue != [] && !s.headsUnread e.id)
  | 3 => s.readyFlows e != []
  | 4 => s.readyFlows e != [] || (s.nextMove e.id).isSome
  | _ => false

/-- Whether a context is runnable (R283): it has work and, where it is sharded, is resident on its whole group (R290). -/
def State.isRunnable (s : State) (e : CtxEntry) : Bool :=
  s.hasWork e && (e.kind != 2 || !e.sharded || (s.collective e.id (s.stepOld e.id)).all (s.resident e.id))

/-! ## Room on a cluster (R290, R291, R295, R296) -/

/-- The 16-way owner bytes of a cluster (Table 2.6). -/
def State.wayOwner (s : State) (n w : Nat) : Nat := s.ldr.image.wayOwner.getD (16 * n + w) 0xFF

/-- Whether a context may use a way (R291). -/
def State.wayOk (s : State) (e : CtxEntry) (n w : Nat) : Bool :=
  let o := s.wayOwner n w
  o = 0xFF || o = e.fn || o = 0x40 + e.cls

/-- What is taken on a cluster: of `get` for residents, of the move for those being brought in. -/
def State.taken {α : Type} (s : State) (n : Nat) (get : CtxRun → SMap α) (mv : MoveRun → α) : List (CtxEntry × α) :=
  s.ldr.image.ctxs.filterMap (fun e =>
    let x := s.ctxRun e.id
    match SMap.find? (get x) n, x.moving with
    | some a, _ => some (e, a)
    | none, some m => if m.cluster = n then some (e, mv m) else none
    | none, none => none)

/-- The lowest start below `lim` of a free range of `len` that passes a test (R99, R291). -/
def lowestFree (lim len : Nat) (taken : List (Nat × Nat)) (ok : Nat → Bool) : Option Nat :=
  (List.range (lim + 1)).find? (fun a => decide (a + len ≤ lim) && (List.range len).all (fun i => ok (a + i)) &&
    taken.all (fun t => decide (a + len ≤ t.1) || decide (t.1 + t.2 ≤ a) || t.2 = 0 || len = 0))

/-- 64 KiB units of a context's basin share, and lines of its part of each operand bank. -/
def CtxEntry.units (e : CtxEntry) : Nat := e.basinKib / 64
def CtxEntry.lines (e : CtxEntry) : Nat := e.operandKib * 8

/-- The lowest `k` accumulator slots that are free, where there are as many (R99). -/
def freeSlots (k : Nat) (taken : List (List Nat)) : Option (List Nat) :=
  let l := (List.range 8).filter (fun i => taken.all (fun t => !t.contains i))
  if k ≤ l.length then some (l.take k) else none

/-- Where a context would be admitted on cluster `n` (R290, R291): basin unit, accumulator slots, operand line. -/
def State.roomFor (s : State) (e : CtxEntry) (n : Nat) : Option (Nat × List Nat × Nat) :=
  let places := s.taken n (·.place) (·.place)
  if !clusterPresent s.dev.part n || !bitAt e.clusterMask n || 16 ≤ places.length then none
  else
    match lowestFree 256 e.units (places.map (fun x => (x.2, x.1.units))) (fun u => s.wayOk e n (u / 16)),
        freeSlots e.accTiles ((s.taken n (·.slots) (·.slots)).map (·.2)),
        lowestFree 8192 e.lines ((s.taken n (·.line0) (·.line)).map (fun x => (x.2, x.1.lines))) (fun _ => true) with
    | some a, some b, some c => some (a, b, c)
    | _, _, _ => none

/-- Take a context's residency on a cluster away. -/
def State.removeFrom (s : State) (ctx n : Nat) : State :=
  s.updCtxRun ctx (fun x => { x with
    place := SMap.erase x.place n, slots := SMap.erase x.slots n, line0 := SMap.erase x.line0 n,
    residentNs := SMap.erase x.residentNs n, next := if x.next = some n then none else x.next })

/-- Whether a context is being evicted (R292): its share is being saved until the context that takes its place is in. -/
def State.leaving (s : State) (ctx : Nat) : Bool :=
  s.slu.ctxs.any (fun x => match x.2.moving with
    | some m => m.out == some ctx
    | none => false)

/-- Whether a context waits for cluster `n`: it has work, is not moving, and is resident nowhere or, sharded, not yet here
(R283, R295). -/
def State.waitsFor (s : State) (e : CtxEntry) (n : Nat) : Bool :=
  let x := s.ctxRun e.id
  e.kind = 2 && s.hasWork e && x.moving.isNone && !s.leaving e.id && bitAt e.clusterMask n && !s.resident e.id n &&
    (x.place == [] || e.sharded)

/-- Whether every context resident on a cluster is blocked (R296). -/
def State.allBlocked (s : State) (n : Nat) : Bool :=
  (s.residents n).all (fun e => !(s.ctxRun e.id).runnable && (s.ctxRun e.id).holds == [])

/-- Quiescence (R296): no command of it, no basin slot of it, no pixel command writing into its share. -/
def State.quiescent (s : State) (ctx : Nat) : Bool :=
  (s.cmdRun ctx).isNone && (s.ctxRun ctx).step.isNone && (s.ctxRun ctx).queue.all (fun i => i.slot.isNone) &&
    s.trk.pxes.all (fun p => p.2.marks.all (fun k => k.1 != ctx || k.2.slot.isNone))

/-- The context that R296 evicts from cluster `n` for `w`. -/
def State.evictee (s : State) (n : Nat) (w : CtxEntry) : Option CtxEntry :=
  let order := sortBy (fun a b => lexLe [(s.ctxRun a.id).blockedNs, a.id] [(s.ctxRun b.id).blockedNs, b.id])
    (s.residents n)
  order.find? (fun e =>
    !e.pinned && decide (SMap.get (fun _ => 0) (s.ctxRun e.id).residentNs n + 5000000 ≤ s.nowNs) && s.quiescent e.id &&
      ((s.removeFrom e.id n).roomFor w n).isSome)

/-- Whether a context waits for cluster `n` because no resident one qualifies (R297). -/
def State.starvesOn (s : State) (e : CtxEntry) (n : Nat) : Bool :=
  s.waitsFor e n && (s.roomFor e n).isNone && (!s.allBlocked n || (s.evictee n e).isNone)

/-- Keep each context's runnable state, the time since which it has been blocked (R283), and that since which it has been
waiting because no resident context qualifies (R297). -/
def State.refreshList (s : State) : List CtxEntry → State
  | [] => s
  | e :: es =>
    let x := s.ctxRun e.id
    let r := s.isRunnable e
    let hungry := s.clusters.any (s.starvesOn e)
    State.refreshList
      (s.setCtxRun e.id { x with
        runnable := r, blockedNs := if r || !x.runnable then x.blockedNs else s.nowNs,
        starvedNs := if !hungry then none else if x.starvedNs.isSome then x.starvedNs else some s.nowNs })
      es

def State.refresh (s : State) : State := s.refreshList s.ldr.image.ctxs

/-- An embedding is declared lost (R267): counted for the engine and the rill, reported when it would be applied. -/
def State.embLose (s : State) (rill track frame : Nat) (st : W16) (error : Bool) : State :=
  if s.trk.embq.any (fun e => e.rill = rill && e.track = track && e.frame = frame && !e.lost) then
    let q := updWhere (fun e : EmbReq => e.rill = rill && e.track = track && e.frame = frame)
      (fun e => { e with lost := true, data := none, status := st, error := error }) s.trk.embq
    let s1 := { s with trk := { s.trk with embq := q } }
    (s1.setRillTrk rill { s1.rillTrk rill with embLost := satNat 0xFFFFFFFF ((s1.rillTrk rill).embLost + 1) }).count
      .TRK_CNT_EMBLOST 0
  else s

/-- Give back what an item holds: its pool buffer (dest 0). Its basin slot goes with the item (R289). -/
def State.freeItem (s : State) (ctx : Nat) (it : Item) : State :=
  match it.handle with
  | some h => s.release h (s.ctxFn ctx)
  | none => s

/-- Why an item leaves without its outputs. -/
inductive Gone where
  | stale | fault
  deriving DecidableEq, Repr

/-- A frame is dropped as stale from a context and from every context fed from it alone (R226). -/
def Flow.lessStale (f : Flow) (ctx : Nat) (readers : Nat → List Nat) : Flow :=
  let waits := f.waits.erase ctx
  let feeders := waits ++ f.heads.map (·.1)
  { f with
    waits := waits, dropped := true
    ctxs := f.ctxs.filter (fun c => !(readers ctx).contains c || feeders.any (fun x => (readers x).contains c)) }

/-- An item leaves its context without its outputs: a head item counts as dropped or skipped in its frame's flow, a crop
as a lost embedding (R226, R247, R267). -/
def State.itemGone (s : State) (ctx : Nat) (it : Item) (why : Gone) : State :=
  let s1 := s.freeItem ctx it
  if it.track = 0 then
    s1.updFlow it.rill it.frame (fun f =>
      if !it.head then f
      else
        match why with
        | .stale => f.lessStale ctx s.readers
        | .fault => { f with waits := f.waits.erase ctx, headSkipped := true, errorSeen := true })
  else
    match why with
    | .stale => s1.embLose it.rill it.track it.frame Status.embeddingLost (!s.deterministic)
    | .fault => s1.embLose it.rill it.track it.frame Status.embeddingLost true

def State.itemsGone (s : State) (ctx : Nat) (why : Gone) : List Item → State
  | [] => s
  | it :: its => State.itemsGone (s.itemGone ctx it why) ctx why its

/-- A flow whose head items have all been dropped as stale before any committed writes nothing (R226, R275); one that
no context reads any more is over. -/
def Flow.over (f : Flow) : Bool :=
  f.started && f.waits == [] && (f.ctxs == [] || (f.dropped && f.heads == [] && !f.headSkipped))

/-- Take such flows away, release the frames that nothing holds any more, and see who is runnable. -/
def State.settle (s : State) : State :=
  State.refresh (State.reapFrames { s with trk := { s.trk with flows := s.trk.flows.filter (fun f => !f.over) } })

/-! ## Outputs of a step -/

/-- Nibbles in a unit of an output operand (R132, R176). -/
def Cmd.outUnit (c : Cmd) : Nat := if c.outFmt = fmtQ88 then 4 else if c.outFmt = fmtAcc32 then 2 else 1

/-- The byte address of a context's basin share on a cluster, and of its DRAM scratch. -/
def State.shareBase (s : State) (ctx n : Nat) : Nat :=
  basinBase n + 65536 * SMap.get (fun _ => 0) (s.ctxRun ctx).place n

def State.scratchBase (s : State) (ctx : Nat) : Nat :=
  match s.ldr.image.scratch.find? (fun x => x.1 = ctx) with
  | some x => x.2
  | none => 0

/-- The byte address of an offset in a space (Table 5.3). -/
def State.spaceAddr (s : State) (ctx n space off : Nat) : Nat :=
  if space = 1 then s.shareBase ctx n + off else if space = 2 then s.scratchBase ctx + off else off

/-- The byte address of output operand 0 of the last command of a context for batch item `i` (R268, R310). -/
def State.outAddr (s : State) (ctx n : Nat) (old : Bool) (i : Nat) : Nat :=
  match s.cmdAt ctx ((s.records ctx old).length - 1) old with
  | some c =>
    (match c.opnd 8 with
     | some o =>
       let l := ((indexed c.levels).find? (fun x => x.2.dim = 3)).map (·.1)
       let stride : Int := match l with
         | some k => o.stride.getD k 0
         | none => 0
       ((2 * s.spaceAddr ctx n o.space o.base : Nat) + (c.outUnit : Int) * stride * (i : Int)).toNat / 2
     | none => 0)
  | none => 0

/-- Item `i` of a step commits: a head item joins its frame's heads, a crop's embedding is delivered (R247, R267). -/
def State.itemDone (s : State) (ctx addr i : Nat) (it : Item) : State :=
  let s1 := s.freeItem ctx it
  if it.track = 0 then
    s1.updFlow it.rill it.frame (fun f =>
      if it.head then { f with waits := f.waits.erase ctx, heads := f.heads ++ [(ctx, i, addr, it)] } else f)
  else
    match s1.reads portTrk [(addr, 64)] with
    | (some st, s2) => s2.embLose it.rill it.track it.frame st true
    | (none, s2) =>
      let q := updWhere (fun e : EmbReq => e.rill = it.rill && e.track = it.track && e.frame = it.frame && !e.lost)
        (fun e => { e with data := some (s.memGet addr 64) }) s2.trk.embq
      { s2 with trk := { s2.trk with embq := q } }

def State.itemsDone (s : State) (ctx n : Nat) (old : Bool) : List (Nat × Item) → State
  | [] => s
  | (i, it) :: its => State.itemsDone (s.itemDone ctx (s.outAddr ctx n old i) i it) ctx n old its

/-! ## Who holds a cluster -/

def State.setHolds (s : State) (ctx : Nat) (l : List Nat) : State := s.updCtxRun ctx (fun x => { x with holds := l })

/-- The slice of a context in ns (R298). -/
def State.sliceNs (s : State) (ctx : Nat) : Nat :=
  match s.ctxEntry ctx with
  | some e => if e.sliceUs = 0 then 2000000 else e.sliceUs * 1000
  | none => 2000000

/-- Whether a context's next slice is to be skipped: its overrun takes all of it (R302). -/
def State.skipsSlice (s : State) (ctx : Nat) : Bool := decide (s.sliceNs ctx ≤ (s.ctxRun ctx).overrunNs)

/-- The overruns of skipped slices are discarded (R302). -/
def State.clearOverruns (s : State) : List CtxEntry → State
  | [] => s
  | e :: es => State.clearOverruns (s.updCtxRun e.id (fun x => { x with overrunNs := 0 })) es

/-- Start a context's slice on lanes, shortened by its last overrun (R298, R302). -/
def State.startSlice (s : State) (ctx : Nat) (lanes : List Nat) : State :=
  let e := s.nowNs + s.sliceNs ctx - (if s.skipsSlice ctx then 0 else (s.ctxRun ctx).overrunNs)
  State.updCtxRun { s with slu := { s.slu with
    slices := lanes.foldl (fun m l => SMap.insert m l e) s.slu.slices,
    ended := s.slu.ended.filter (fun l => !lanes.contains l) } } ctx (fun x => { x with overrunNs := 0 })

/-- The clusters that a context needs at once: its group where it is sharded, else cluster `n` (R303). -/
def State.needs (s : State) (ctx n : Nat) : List Nat :=
  match s.ctxEntry ctx with
  | some e => if e.sharded then s.collective ctx (s.stepOld ctx) else [n]
  | none => [n]

/-- Whether a context may be given cluster `n`: resident wherever it needs to be, runnable, not moving, and on its step's
or next step's cluster (R289, R290, R299). -/
def State.eligible (s : State) (n : Nat) (e : CtxEntry) : Bool :=
  let x := s.ctxRun e.id
  let g := s.needs e.id n
  x.runnable && x.moving.isNone && g.contains n && g.all (s.resident e.id) &&
    (e.sharded || (match x.step, x.next with
      | some st, _ => st.cluster == n
      | none, some k => k == n
      | none, none => true)) &&
    (x.holds == [] || x.holds.contains n || e.sharded)

/-- The order of R299: higher priority, then the first identifier after the one that held the lane last. -/
def better (last : Nat) (a b : CtxEntry) : Bool :=
  lexLe [-(a.priority : Int), (if last < a.id then 0 else 1), a.id]
    [-(b.priority : Int), (if last < b.id then 0 else 1), b.id]

/-- The context that held a lane last; a number above every context where none did, so that the order starts at 0. -/
def State.lastOf (s : State) (lane : Nat) : Nat := SMap.get (fun _ => 4096) s.slu.lastHeld lane

/-- The context that a decision point gives cluster `n` to. -/
def State.choose (s : State) (n : Nat) : Option CtxEntry :=
  (sortBy (better (s.lastOf n)) (s.ldr.image.ctxs.filter (fun e => e.kind = 2 && s.eligible n e))).head?

def State.setIdleHeld (s : State) (l : List Nat) : State := { s with slu := { s.slu with heldIdle := l } }

/-- A lane has no slice any more. -/
def State.endSlice (s : State) (lane : Nat) : State :=
  { s with slu := { s.slu with
    slices := SMap.erase s.slu.slices lane, ended := s.slu.ended.filter (fun l => l != lane) } }

/-- Give a lane up. -/
def State.yieldLane (s : State) (lane : Nat) : State :=
  match s.holder lane with
  | some c =>
    let s1 := (s.setHolder lane none).setIdleHeld (s.slu.heldIdle.filter (fun k => k != lane))
    State.endSlice (s1.updCtxRun c (fun x => { x with holds := x.holds.filter (fun k => k != lane) })) lane
  | none => s

def State.yieldLanes (s : State) : List Nat → State
  | [] => s
  | l :: ls => State.yieldLanes (s.yieldLane l) ls

/-- Give a lane to a context. -/
def State.takeLane (s : State) (ctx lane : Nat) : State :=
  let s1 := (s.setHolder lane (some ctx)).updCtxRun ctx (fun x => { x with holds := putOnce lane x.holds })
  { s1 with slu := { s1.slu with lastHeld := SMap.insert s1.slu.lastHeld lane ctx } }

/-- Give free cluster `n` to the context that R299 chooses. A sharded context reserves it and keeps it idle until its
whole group is reserved; then its slice starts (R303). -/
def State.grant (s : State) (n : Nat) : State :=
  match s.choose n with
  | none => s
  | some e =>
    let s1 := s.takeLane e.id n
    let g := s1.needs e.id n
    if e.sharded && !g.all (fun k => s1.holder k == some e.id) then s1.setIdleHeld (putOnce n s1.slu.heldIdle)
    else
      let s2 := s1.setIdleHeld (s1.slu.heldIdle.filter (fun k => !g.contains k))
      s2.startSlice e.id g

/-- A decision point of free clusters (R299). In a coolant stop Sluice issues nothing (R373). -/
def State.grantFree (s : State) : List Nat → State
  | [] => s
  | n :: ns =>
    State.grantFree
      (if (s.holder n).isNone && clusterPresent s.dev.part n && !s.coolantHeld then s.grant n else s) ns

def State.decideFree (s : State) : State := s.grantFree (List.range 4)

/-! ## Kills -/

/-- The bytes of a work-counter record's field (Table 5.5). -/
def State.recField (s : State) (r : WorkRec) (off n : Nat) : Nat := Mem.rd (s.basin r.cluster) (r.addr + off) n

def State.putRecField (s : State) (r : WorkRec) (off n v : Nat) : State :=
  s.setBasin r.cluster (Mem.writeList (s.basin r.cluster) (r.addr + off) (leBytes n v))

/-- Whether an atomic operation on a record can be performed: its basin is live and clocked (R348, R362). -/
def State.recLive (s : State) (r : WorkRec) : Bool :=
  s.clocked && s.domainLive (.basin r.cluster) && !s.clockStopped r.cluster

/-- Close one record (R145). -/
def State.closeRec (s : State) (r : WorkRec) : State :=
  ((s.putRecField r 4 4 ((s.recField r 4 4 + 1) % 2 ^ 32)).putRecField r 0 4 0xFFFFFFFF).putRecField r 12 4 0

/-- Close records (R145). A stopped basin holds its state. -/
def State.closeRecs (s : State) : List WorkRec → State
  | [] => s
  | r :: rs => State.closeRecs (if s.recLive r then s.closeRec r else s) rs

/-- Whether a core's clock runs (R348, R362, R372). -/
def State.coreRuns (s : State) (n : Nat) : Bool := s.clocked && s.domainLive (.core n) && !s.clockStopped (n / 8)

/-- Kill the cores of a list that run a context's command (R126). A core whose clock is stopped keeps its state, and the
kill takes effect when it next runs. -/
def State.killCores (s : State) (ctx : Nat) : List Nat → State
  | [] => s
  | n :: ns =>
    let c := s.core n
    State.killCores
      (if (c.st == .running || c.st == .committing) && c.ctx = ctx then
        s.setCore n (if s.coreRuns n then c.kill else { c with killed := true })
       else s)
      ctx ns

/-- The record whose shard had completed, if any (R145). -/
def State.completeRec (s : State) (r : CmdRun) : Option WorkRec :=
  r.recs.find? (fun x => x.complete || decide (s.recField x 8 4 ≤ s.recField x 12 4))

/-- Kill a context's command (R145). Where a shard had completed, the command runs on, and CL_CNT_LATEKILL counts at the
cluster of the first such shard (log 84). While a record's basin is stopped nothing is closed, and nothing killed. -/
def State.killCmd (s : State) (ctx : Nat) : State :=
  match s.cmdRun ctx with
  | none => s
  | some r =>
    if r.killed || !r.recs.all s.recLive then s
    else
      match s.completeRec r with
      | some x => s.count .CL_CNT_LATEKILL x.cluster
      | none =>
        ((s.closeRecs r.recs).setCmdRun ctx { r with killed := true, gen := (r.gen + 1) % 2 ^ 32 }).killCores ctx
          (List.range 32)

/-! ## Commits and faults -/

/-- The write windows of a command leave the table (R124). -/
def State.dropWindows (s : State) (ctx cmd : Nat) : State :=
  { s with dram := { s.dram with windows := s.dram.windows.filter (fun w => !(w.ctx = ctx && w.cmd = cmd)) } }

/-- The windows of a discarded context leave the table (R124). -/
def State.dropCtxWindows (s : State) (ctx : Nat) : State :=
  { s with dram := { s.dram with windows := s.dram.windows.filter (fun w => w.ctx != ctx) } }

/-- A collective group ends (R154, R376). -/
def State.endGroup (s : State) (ctx : Nat) : State :=
  { s with slu := { s.slu with groups := s.slu.groups.filter (fun g => g.1 != ctx) } }

/-- E of R306 after a step of duration `d`. -/
def nextEst (e : Int) (d : Nat) : Int := e + ((d : Int) - e).tdiv 16

/-- The next-step cluster after a step on `n`: the next resident one in ascending order, wrapping (R289). -/
def State.nextCluster (s : State) (ctx n : Nat) : Option Nat :=
  (([1, 2, 3, 4].map (fun k => (n + k) % 4)).find? (fun k => s.resident ctx k))

/-! ## Preemption (R299 to R303) -/

/-- Whether a context's command can be taken off its cores: it runs and would be killed, or is killed and not yet run
again, or there is none. -/
def State.killable (s : State) (ctx : Nat) : Bool :=
  match s.cmdRun ctx with
  | some r => r.killed || (r.recs.all s.recLive && (s.completeRec r).isNone)
  | none => true

/-- Take every lane of a context away: its running command is killed and counted (R300, R301, R303). A command of which
a shard has completed runs on, and the context keeps its lanes (R145). -/
def State.preemptCtx (s : State) (ctx : Nat) : State :=
  let hit := match s.cmdRun ctx with
    | some r => !r.killed
    | none => false
  let s1 := s.killCmd ctx
  if !s.killable ctx then s1
  else
    let s2 := if hit then s1.addTo .SLUICE_CNT_PREEMPT 0 1 else s1
    s2.yieldLanes ((s2.ctxRun ctx).holds)

/-- The clusters on which a context of strictly higher priority than the holder is runnable (R301). -/
def State.outranked (s : State) (n : Nat) : Option Nat :=
  match s.holder n with
  | none => none
  | some c =>
    (match s.ctxEntry c with
     | none => none
     | some h =>
       if s.ldr.image.ctxs.any (fun e => e.kind = 2 && e.id != c && decide (h.priority < e.priority) && s.eligible n e)
       then some c else none)

/-- Preempt such holders, cluster by cluster. A cluster that its holder keeps is not given. -/
def State.preemptList (s : State) : List Nat → State
  | [] => s
  | n :: ns =>
    State.preemptList (match s.outranked n with
      | some c => if ((s.preemptCtx c).holder n).isNone then (s.preemptCtx c).grant n else s.preemptCtx c
      | none => s) ns

/-- What follows when contexts may have become runnable: lower priorities are preempted, free clusters given. -/
def State.schedule (s : State) : State :=
  if s.coolantHeld then s else ((s.preemptList (List.range 4)).decideFree)

/-! ## Lanes of the track and copy engines (R282, R298, R299, R301, R302) -/

/-- The lanes of a kind of context, by key. -/
def lanesOf (kind : Nat) : List Nat :=
  if kind = 3 then (List.range 16).map (fun k => 16 + k)
  else if kind = 4 then (List.range 4).map (fun k => 64 + k) else []

/-- Whether a command runs on a lane. -/
def State.laneBusy (s : State) (key : Nat) : Bool :=
  s.trk.perRill.any (fun x => match x.2.running with
    | some (_, _, l) => l = key
    | none => false) ||
  (decide (64 ≤ key) && (match s.holder key with
    | some c => (match s.cmdRun c with
      | some r => !r.killed
      | none => false)
    | none => false))

/-- The lanes that a context holds and that no command of it runs on. -/
def State.idleLanes (s : State) (ctx : Nat) : List Nat := (s.ctxRun ctx).holds.filter (fun k => !s.laneBusy k)

/-- Whether a track or copy context could use a further lane. -/
def State.wantsLane (s : State) (e : CtxEntry) : Bool :=
  match e.kind with
  | 3 => decide ((s.idleLanes e.id).length < (s.readyFlows e).length)
  | 4 => (s.ctxRun e.id).holds == [] && s.hasWork e
  | _ => false

/-- A lane that a context may be given: a free one, else one that a context of lower priority holds idle (R301). -/
def State.openLane (s : State) (e : CtxEntry) : Option Nat :=
  match (lanesOf e.kind).find? (fun k => (s.holder k).isNone) with
  | some k => some k
  | none => (lanesOf e.kind).find? (fun k => !s.laneBusy k && (match (s.holder k).bind s.ctxEntry with
      | some h => decide (h.priority < e.priority)
      | none => true))

/-- The contexts that want lane `k` of a kind, in the order of R299. -/
def State.laneOrder (s : State) (kind k : Nat) : List CtxEntry :=
  sortBy (better (s.lastOf k)) (s.ldr.image.ctxs.filter (fun e => e.kind = kind && s.wantsLane e))

/-- Give a context a lane for its next command, if it is its turn: one that it holds idle, in the slice in progress; else an
open one, with a new slice. Slices that are skipped on the way are discarded (R302). -/
def State.laneTurn (s : State) (e : CtxEntry) : Option (Nat × State) :=
  match s.idleLanes e.id with
  | k :: _ => some (k, s)
  | [] =>
    (match s.openLane e with
     | none => none
     | some k =>
       let l := s.laneOrder e.kind k
       let skipped := l.takeWhile (fun x => s.skipsSlice x.id)
       let turn := match l.find? (fun x => !s.skipsSlice x.id) with
         | some x => some x
         | none => l.head?
       if turn.map (·.id) = some e.id then
         some (k, (((s.clearOverruns skipped).yieldLane k).takeLane e.id k).startSlice e.id [k])
       else none)

/-- A command of a context on a lane has committed: an overrun is noted and ends the turn (R302); else the context keeps
the lane while it has a command for it (R299). -/
def State.laneCommit (s : State) (ctx k : Nat) : State :=
  if s.slu.ended.contains k then
    let late := match SMap.find? s.slu.slices k with
      | some t => s.nowNs - t
      | none => 0
    (s.updCtxRun ctx (fun x => { x with overrunNs := min late (s.sliceNs ctx) })).yieldLane k
  else
    match s.ctxEntry ctx with
    | some e =>
      if e.kind = 3 && decide ((s.idleLanes ctx).length ≤ (s.readyFlows e).length) then s
      else if e.kind = 4 && s.hasWork e then s
      else s.yieldLane k
    | none => s.yieldLane k

/-- A step commits (R287): items hand on their outputs, frames and slots are freed, input buffers are released; a commit
is a decision point (R299). -/
def State.stepCommit (s : State) (ctx : Nat) (st : StepRun) : State :=
  let old := s.stepOld ctx
  let s1 := s.itemsDone ctx st.cluster old (indexed st.items)
  let s2 := s1.updCtxRun ctx (fun x => { x with step := none, estNs := nextEst x.estNs (s.nowNs - st.startNs) })
  let s3 := State.settle ((s2.addTo .SLUICE_CNT_STEPS 0 1).endGroup ctx)
  (s3.yieldLanes (s3.ctxRun ctx).holds).schedule

/-- A command commits with a status (R16, R124, R138, R144, R159): its windows go, and the step commits with its last
command. -/
def State.cmdCommit (s : State) (ctx : Nat) (status : W16) : State :=
  match s.stepOf ctx with
  | none => s
  | some st =>
    let isColl := match s.cmdAt ctx st.cmd (s.stepOld ctx) with
      | some c => c.kind == 2
      | none => false
    let n := (s.records ctx (s.stepOld ctx)).length
    let s1 := (s.dropCmdRun ctx).dropWindows ctx st.cmd
    let s2 := if isColl then (s1.endGroup ctx).sprintCheck else s1
    let st1 := { st with cmd := st.cmd + 1 }
    let s3 := s2.updCtxRun ctx (fun x => { x with step := some st1, committed := some (st.cmd, status) })
    if n ≤ st.cmd + 1 then s3.stepCommit ctx st1 else s3

/-- A command fault is told (R318, R428): the register, its source, the log entry. -/
def State.noteFault (s : State) (ctx : Nat) (st : W16) : State :=
  ((s.setReg .SLUICE_LAST_FAULT 0 0 (BitVec.ofNat 64 (st.toNat + 65536 * (ctx % 4096)))).raise 9).elog st unitSluice 0 ctx
    (s.ctxFn ctx) 0

/-- A command faults as a whole (R127, R318, R428): its other cores are killed; it commits nothing, its step ends and the
step's items count as skipped (log 34). -/
def State.cmdFault (s : State) (ctx : Nat) (st : W16) : State :=
  let s1 := s.noteFault ctx st
  let s2 := match s1.cmdRun ctx with
    | some r => ((s1.closeRecs r.recs).killCores ctx (List.range 32)).dropCmdRun ctx
    | none => s1
  let s3 := match s2.stepOf ctx with
    | some run => s2.itemsGone ctx .fault run.items
    | none => s2
  let s4 := State.settle (s3.updCtxRun ctx (fun x => { x with step := none, fault := none }))
  ((s4.endGroup ctx).yieldLanes (s4.ctxRun ctx).holds).schedule

/-- A fault of a core (R127): TC_FAULT, the log, the parity count and its advice (R105, R430); the core stops, halted where
TC_ARR_CTRL asks for it. -/
def State.coreFaulted (s : State) (n : Nat) (st : W16) : State :=
  let c := s.core n
  let parity := st = Status.operandParity ∨ st = Status.accParity
  let s1 := (s.setReg .TC_FAULT n 0 (BitVec.ofNat 64 (st.toNat + 65536 * (c.pc % 64)))).elog st unitTc n c.ctx
    (s.ctxFn c.ctx) (BitVec.ofNat 64 c.pc)
  let s2 := if parity then s1.count .TC_CNT_PARITY n else s1
  let k := if parity then c.parity + 1 else c.parity
  let s3 := if parity && decide (s.regNat .ICU_ADV_PARITY 0 0 ≤ k) then s2.advise 1 else s2
  let s4 := s3.setCore n { c with
    st := if s.regBit .TC_ARR_CTRL n 0 1 then .halted else .idle, fires := [], waiting := none, loads := [], kept := []
    inits := [], scanning := none, slots := [], loaded := none, parity := k, done := c.done.filter c.sent, killed := false }
  s4.cmdFault c.ctx st

end Sys2Proof.Machine
end

