-- ==== Sys2Proof/Machine/ArrayOps.lean ====
section
/-! DEFINITION. What the instructions of an array program share: the running tile, addresses (R132, R134, R135), loads
(R108, R117, R118, R165), the feeder (R89, R91, R106, R107, R110, R163, R164, R167), drains (R113, R162, R175 to R192)
and the copying of nibbles (R78). -/

set_option Elab.async false

namespace Sys2Proof.Machine

/-! ## The tile that a core runs -/

/-- What a core's instructions read beside the core: its command, the issue, the step and the core's cluster. -/
structure Run where
  cmd : Cmd
  run : CmdRun
  step : StepRun
  cluster : Nat
  accTiles : Nat
  deriving DecidableEq, Repr

/-- The running command of a core, where it has one. -/
def State.coreRun (s : State) (n : Nat) : Option Run :=
  let ctx := (s.core n).ctx
  match s.running ctx, s.cmdRun ctx, s.stepOf ctx, s.ctxEntry ctx with
  | some c, some r, some st, some e => some { cmd := c, run := r, step := st, cluster := n / 8, accTiles := e.accTiles }
  | _, _, _, _ => none

/-- The geometry of a windowed command at issue. -/
def Run.geo (r : Run) : Option Geo := r.cmd.window.map (fun w => w.geo r.run.w r.run.h)

/-- The first operand line and the accumulator slots of a context on a core (R99). -/
def State.line0 (s : State) (n : Nat) : Nat := SMap.get (fun _ => 0) (s.ctxRun (s.core n).ctx).line0 (n / 8)
def State.slotsOf (s : State) (n : Nat) : List Nat := SMap.get (fun _ => []) (s.ctxRun (s.core n).ctx).slots (n / 8)

/-- The nibble address of an operand's origin: the item's input where it is item-indirect (R132). -/
def State.origin (s : State) (r : Run) (o : Opnd) (idx : List Nat) : Nat :=
  2 * (if o.indirect then ((r.step.items.map (·.addr)).getD (r.cmd.itemIndex idx) 0)
       else s.spaceAddr r.cmd.ctx r.cluster o.space o.base)

/-- The nibble address of an operand at the current position, in units of `unit` nibbles (R134); `skipM` as in R162. -/
def State.opndAt (s : State) (r : Run) (o : Opnd) (unit : Nat) (idx : List Nat) (skipM : Bool) : Nat :=
  ((s.origin r o idx : Int) + (unit : Int) * r.cmd.unitSum o idx skipM).toNat

/-- The same for the first operand of a role. -/
def State.roleAt (s : State) (r : Run) (role unit : Nat) (idx : List Nat) : Nat :=
  match r.cmd.opnd role with
  | some o => s.opndAt r o unit idx false
  | none => 0

/-- The physical accumulator slot of a tile field at a firing (R99, R115, R135). -/
def State.slotAt (s : State) (n : Nat) (r : Run) (field : Nat) (idx : List Nat) : Nat :=
  (s.slotsOf n).getD (r.cmd.logicalTile field idx r.accTiles (s.core n).started) 0

/-- The physical line of a line field of an operand role at a firing (R99, R135). -/
def State.lineAt (s : State) (n : Nat) (r : Run) (role field : Nat) (idx : List Nat) : Nat :=
  ((s.line0 n + field : Nat) + r.cmd.lineSum role idx).toNat

/-! ## Stepping a program -/

/-- Whether the sequencer of a core runs now: its clock is not stopped, and it does not wait (R362, R371, R373). -/
def State.seqRuns (s : State) (n : Nat) : Bool :=
  s.coreRuns n && !s.coolantHeld && (s.core n).waiting.isNone

/-- Step 3 of R122 has issued: the tile's commit follows once its writes are visible. -/
def Core.finish (c : Core) : Core :=
  { c with
    st := .committing, fires := []
    done := c.done ++ [{ no := c.tileNo, ctx := c.ctx, cmd := c.cmd, gen := c.gen, record := c.record, tile := c.tile
                         status := c.status }] }

/-- The firing at the front of a core's tile leaves it; after the last, the tile is to commit (R122). -/
def State.advance (s : State) (n : Nat) : State :=
  s.updCore n (fun c =>
    match c.fires with
    | [] => c
    | [_] => c.finish
    | _ :: fs => { c with fires := fs })

/-- Run the instruction at the front of core `n`, if its opcode is `code`. `f` answers `none` where the instruction
waits for its place or for a hazard (R104, R117); a fault is an answer too. -/
def State.atFront (s : State) (n code : Nat) (f : State → Run → Fire → Op → Option State) : State :=
  let c := s.core n
  match s.coreRun n, c.fires with
  | some r, fi :: _ =>
    (match r.cmd.prog[fi.pc]? with
     | some op =>
       if op.opcode = code && c.st == .running && s.seqRuns n then
         (f (s.setCore n { c with pc := fi.pc }) r fi op).getD s
       else s
     | none => s)
  | _, _ => s

/-! ## Nibbles -/

/-- Nibble `a` of a memory (R78). -/
def Mem.nib (m : Mem) (a : Nat) : Nat := field (Mem.read m (a / 2)).toNat (4 * (a % 2)) 4

def Mem.putNib (m : Mem) (a v : Nat) : Mem :=
  let b := (Mem.read m (a / 2)).toNat
  Mem.write m (a / 2)
    (BitVec.ofNat 8 (if a % 2 = 0 then b / 16 * 16 + v % 16 else b % 16 + 16 * (v % 16)))

/-- Nibble `a` of the internal address space. -/
def State.nibAt (s : State) (a : Nat) : Nat := field (s.memByte (a / 2)).toNat (4 * (a % 2)) 4

/-- Copy `k` nibbles into a store. -/
def State.copyNibs (s : State) (src dst : Nat) : Nat → Mem → Mem
  | 0, m => m
  | k + 1, m => Mem.putNib (State.copyNibs s src dst k m) (dst + k) (s.nibAt (src + k))

/-- The bytes that `k` nibbles from nibble address `src` lie in, as (address, length). -/
def nibRange (src k : Nat) : Nat × Nat := (src / 2, if k = 0 then 0 else (src + k - 1) / 2 - src / 2 + 1)

/-! ## Windows: what a tile reads -/

/-- The live rows of a tile as (row, yc, xc, tap) (R161). -/
def Geo.liveRows (g : Geo) (st m : Nat) : List (Nat × Int × Int × Tap) :=
  (List.range 128).filterMap (fun r => (g.rowLive st m r).map (fun x => (r, x.1, x.2.1, x.2.2)))

/-- Row and column of the input that kernel position (ky, kx) reads (R164). -/
def Window6.inY (w : Window6) (yc : Int) (ky : Nat) : Int := yc * w.sh - w.padT + (ky * w.dh : Nat)
def Window6.inX (w : Window6) (xc : Int) (kx : Nat) : Int := xc * w.sw - w.padL + (kx * w.dw : Nat)

/-- The input rows that a tile's live rows read, clipped, ascending (R165). -/
def Geo.inputRows (g : Geo) (st m : Nat) : List Nat :=
  let all := (g.liveRows st m).flatMap (fun x => (List.range g.w.kh).map (fun ky => g.w.inY x.2.1 ky))
  (List.range g.height).filter (fun y => all.any (fun v => v = (y : Int)))

/-- ya and yb of R165. -/
def Geo.rowSpan (g : Geo) (st m : Nat) : Option (Nat × Nat) :=
  match (g.inputRows st m).head?, (g.inputRows st m).getLast? with
  | some a, some b => some (a, b)
  | _, _ => none

/-- The combined index of the outer levels of the reduction, the shard level among them (R163). -/
def Cmd.outerK (c : Cmd) (bounds idx : List Nat) : Nat :=
  ((indexed c.levels).filter (fun x => (x.2.dim = 2 ∨ x.2.dim = 5) ∧ x.2.kind ≠ 3)).foldl
    (fun a x => a * bounds.getD x.1 1 + idx.getD x.1 0) 0

/-- Fields of slot `v` of a windowed reduction (R163). -/
structure VFields where
  kx : Nat
  ky : Nat
  cs : Nat
  sigma : Nat
  deriving DecidableEq, Repr

def vFields (w : Window6) (p v : Nat) : VFields :=
  { kx := v % w.kw, ky := v / w.kw % w.kh, cs := v / (w.kw * w.kh) % (w.cr / p),
    sigma := v / (w.kw * w.kh * (w.cr / p)) }

/-- gb of R164 for column block `k` (R167). -/
def groupBase (w : Window6) (n0 k sigma : Nat) : Nat :=
  if w.diag && w.groupOut != 0 then ((n0 + 16 * k) / w.groupOut + sigma) * w.groupIn else 0

/-- The slots of the accumulator loop at the current position of the outer reduction: first and count (R163). -/
def Run.vRun (r : Run) (idx : List Nat) : Nat × Nat :=
  let p := elemsPerSlot r.cmd.colFmt
  let ka := Cmd.accBound r.run.bounds
  (r.cmd.outerK r.run.bounds idx * (ka / p), ka / p)

/-- n0 of R167. -/
def Run.n0 (r : Run) (idx : List Nat) : Nat := 128 * r.cmd.dimIndex 1 r.run.bounds idx

/-- The input channels that the tile reads at the current position: every slot of the run, column block and tap in use. -/
def Run.channels (r : Run) (w : Window6) (idx : List Nat) : List Nat :=
  let p := elemsPerSlot r.cmd.colFmt
  let vr := r.vRun idx
  (List.range vr.2).flatMap (fun i =>
    let f := vFields w p (vr.1 + i)
    (List.range (if w.diag then 8 else 1)).flatMap (fun k =>
      w.live.flatMap (fun t => (List.range p).map (fun e =>
        groupBase w (r.n0 idx) k f.sigma + f.cs * p + e + t.dz))))

/-- The smallest and largest of a list. -/
def spanOf (l : List Nat) : Nat × Nat := (l.foldl min (l.headD 0), l.foldl max 0)

/-- The planes that a window load covers: first, and how many (R165). `per` is the channels in a plane step, `np` the
planes of each. -/
def Run.planes (r : Run) (w : Window6) (idx : List Nat) (per np : Nat) : Nat × Nat :=
  let s := spanOf (r.channels w idx)
  (s.1 / per * np, (s.2 / per - s.1 / per + 1) * np)

/-- Whether a plane of a column format is the 2-bit plane of NP10 (R88). -/
def isThin (fmt plane : Nat) : Bool := fmt = fmtNp10 && plane % 3 = 2

/-! ## LOAD (Table 4.7) -/

/-- The runs of a window load (R165). `src` is addr(0) in nibbles; units are slots for operand 0, bytes for operand 2. -/
def Run.windowCopies (r : Run) (g : Geo) (operand src line rows rowLines : Nat) (idx : List Nat) :
    List (Nat × Nat × Nat) :=
  match g.rowSpan (r.cmd.stripeOf idx) (r.cmd.mIndex idx) with
  | none => []
  | some (ya, yb) =>
    let p := elemsPerSlot r.cmd.colFmt
    let pl := if operand = 2 then r.planes g.w idx 32 1 else r.planes g.w idx p (planesOf r.cmd.colFmt)
    let unit := if operand = 2 then 2 else 1
    (List.range pl.2).flatMap (fun k =>
      (List.range (yb - ya + 1)).map (fun i =>
        let dst := 128 * (line + (k * (rows + 1) + i) * (rowLines + 1))
        if operand = 0 && isThin r.cmd.colFmt (pl.1 + k) then
          ((2 * (src + k * g.w.memPlane) + (ya + i) * g.w.memRow) / 2, ceilDiv g.width 2, dst)
        else (src + unit * (k * g.w.memPlane + (ya + i) * g.w.memRow), unit * g.width, dst)))

/-- The runs of a LOAD of `rows` rows of `lines` lines (Table 4.7): contiguous at the source, or a stride apart. -/
def rowCopies (src line rows lines : Nat) (pitch : Int) : List (Nat × Nat × Nat) :=
  (List.range rows).map (fun k =>
    (((src : Int) + Int.ofNat k * pitch).toNat, 128 * lines, 128 * (line + k * lines)))

/-- The run of a codebook load (R84, R108): the codebooks of output channels 128 b to 128 b + 127. -/
def State.codebookCopies (s : State) (r : Run) (idx : List Nat) : List (Nat × Nat × Nat) :=
  let t := r.cmd.codebook
  let g := (s.memByte (t + 3)).toNat
  let size := if r.cmd.rowFmt = fmtCb16 then 16 else 512
  let k0 := r.n0 idx / 2 ^ g
  let k1 := (r.n0 idx + 127) / 2 ^ g
  [(2 * (t + 16 + k0 * size), 2 * (k1 - k0 + 1) * size, 0)]

/-- The unit of an input operand in nibbles (R132). -/
def inUnit (role : Nat) : Nat := if role = 0 ∨ role = 1 then 1 else 2

/-- What a LOAD is to do. -/
def State.loadRec (s : State) (n : Nat) (r : Run) (fi : Fire) (op : Op) : LoadRec :=
  let b := op.bits
  let operand := field b 16 4
  let rows := field b 34 14
  let rowLines := field b 48 13
  let level := field b 61 3
  let line := s.lineAt n r operand (field b 21 13) fi.idx
  let src := s.roleAt r operand (inUnit operand) fi.idx
  let pitch : Int := match r.cmd.opnd operand with
    | some o => if level = 0 then 128 * ((rowLines + 1 : Nat) : Int) else inUnit operand * o.stride.getD (level - 1) 0
    | none => 0
  let copies :=
    if operand = 4 then s.codebookCopies r fi.idx
    else if level = 7 then
      (match r.geo with
       | some g => r.windowCopies g operand src line rows rowLines fi.idx
       | none => [])
    else rowCopies src line (rows + 1) (rowLines + 1) pitch
  { operand := operand, bank := bitAt b 20, line := line,
    lines := if operand = 4 then 0
      else if level = 7 then copies.foldl (fun a x => max a (x.2.2 / 128 + rowLines + 1 - line)) 0
      else (rows + 1) * (rowLines + 1),
    copies := copies, pc := fi.pc, own := true }

/-- The ranges that a load reads, as (address, length). -/
def LoadRec.ranges (l : LoadRec) : List (Nat × Nat) := l.copies.map (fun x => nibRange x.1 x.2.1)

/-- Whether two loads write a line in common, or both the codebook buffer (R118). -/
def LoadRec.overlaps (a b : LoadRec) : Bool :=
  if a.operand = 4 ∨ b.operand = 4 then a.operand = b.operand
  else a.bank == b.bank && decide (a.line < b.line + b.lines) && decide (b.line < a.line + a.lines)

/-- Whether two loads have the same operand, source, extent, bank and line (R118). -/
def LoadRec.same (a b : LoadRec) : Bool :=
  a.operand == b.operand && a.bank == b.bank && a.line == b.line && a.copies == b.copies

/-- Copy the runs of a load into a store. -/
def State.copyAll (s : State) : List (Nat × Nat × Nat) → Mem → Mem
  | [], m => m
  | (src, k, dst) :: cs, m => State.copyAll s cs (s.copyNibs src dst k m)

/-- The data of a load arrive in its store; a record of what it wrote replaces those it wrote over (R118). -/
def State.performLoad (s : State) (n : Nat) (l : LoadRec) : State :=
  s.updCore n (fun c =>
    let c1 := { c with kept := c.kept.filter (fun k => !LoadRec.overlaps k l) ++ (if l.own then [l] else []) }
    if l.operand = 4 then { c1 with codebook := s.copyAll l.copies c.codebook }
    else if l.bank then { c1 with bankB := s.copyAll l.copies c.bankB }
    else { c1 with bankA := s.copyAll l.copies c.bankA })

/-- The 64 KiB regions that a range of lines touches (R104). -/
def regionsOf (bank : Bool) (line lines : Nat) : List Nat :=
  (List.range 8).filter (fun k => decide (line < 1024 * (k + 1)) && decide (1024 * k < line + lines)) |>.map
    (fun k => k + 8 * b2n bank)

/-! ## STREAM (Table 4.8): the feeder -/

/-- The line fields of a STREAM after R135, in its context's range. -/
structure StreamOp where
  exp : Bool
  blockPitch : Nat
  diag : Bool
  rowStep : Nat
  rowLine : Nat
  rowBank : Bool
  planePitch : Nat
  colStep : Nat
  colLine : Nat
  colBank : Bool
  windowed : Bool
  tail : Nat
  count : Nat
  slot : Nat
  deriving DecidableEq, Repr

/-- Updates of a STREAM: none where the accumulator level's bound is 0 (R138). -/
def streamCount (op : Op) (col row k : Nat) : Nat :=
  if k = 0 then 0 else if bitAt op.bits 39 then updatesFor col row k else field op.bits 19 20 + 1

def State.streamOp (s : State) (n : Nat) (r : Run) (fi : Fire) (op : Op) : StreamOp :=
  let b := op.bits
  let k := Cmd.accBound r.run.bounds
  { exp := bitAt b 120, blockPitch := field b 108 12, diag := bitAt b 107, rowStep := field b 95 12,
    rowLine := s.lineAt n r 1 (field b 82 13) fi.idx, rowBank := bitAt b 81, planePitch := field b 69 12,
    colStep := field b 57 12, colLine := s.lineAt n r 0 (field b 44 13) fi.idx, colBank := bitAt b 43,
    windowed := bitAt b 42,
    tail := if bitAt b 39 then tailFor r.cmd.colFmt r.cmd.rowFmt k else field b 40 2,
    count := streamCount op r.cmd.colFmt r.cmd.rowFmt k, slot := s.slotAt n r (field b 16 3) fi.idx }

/-- What the feeder needs for one STREAM: the stores, with the layout of the last window load (R165), the geometry, the AQ4
channels that the tile's INIT read (R182), and `skip`, the elements of the accumulator loop that the tile has already taken
at this position of the outer reduction. -/
structure Feed where
  run : Run
  op : StreamOp
  core : Core
  idx : List Nat
  geo : Option Geo
  codeBase : Nat
  codeShift : Nat
  aq4 : List Nat
  skip : Nat
  deriving DecidableEq, Repr

def Core.bank (c : Core) (b : Bool) : Mem := if b then c.bankB else c.bankA

def State.feed (s : State) (n : Nat) (r : Run) (fi : Fire) (op : Op) : Feed :=
  let g := (s.memByte (r.cmd.codebook + 3)).toNat
  let o := s.streamOp n r fi op
  let t := SMap.get (fun _ => Tile.zero) (s.core n).slots o.slot
  { run := r, op := o, core := s.core n, idx := fi.idx, geo := r.geo, codeBase := r.n0 fi.idx / 2 ^ g, codeShift := g,
    aq4 := t.scale.aq4,
    skip := if t.outer = r.cmd.outerK r.run.bounds fi.idx then t.taken % max 1 (Cmd.accBound r.run.bounds) else 0 }

/-- A column code with its plane: the element that the feeder supplies (R87, R89, R106). `chan` is its input channel, or
reduction index, for the AQ4 list (R74, R182). -/
def Feed.colCode (f : Feed) (code plane sub chan : Nat) : Elem :=
  let fmt := f.run.cmd.colFmt
  if planesOf fmt ≠ 1 then { m := (code : Nat), e := planeShift fmt plane }
  else if f.aq4.contains chan then { m := (code % 16 : Nat), e := 0 }
  else decodeSlot fmt code sub

/-- The code at slot `i` of the vector that starts at a line, or the 2-bit code of the thin plane of NP10. -/
def slotCode (m : Mem) (thin : Bool) (line i : Nat) : Nat :=
  if thin then field (Mem.read m (64 * line + i / 4)).toNat (2 * (i % 4)) 2 else Mem.nib m (128 * line + i)

/-- What a windowed row reads at an update: none where the row is idle; the pad slot; or plane, row and column of the
input, with the channel (R164). -/
inductive WinRead where
  | idle
  | pad
  | at (chan y x : Nat)
  deriving DecidableEq, Repr

def Feed.winRead (f : Feed) (g : Geo) (u : Update) (e i k : Nat) : WinRead :=
  match g.rowLive (f.run.cmd.stripeOf f.idx) (f.run.cmd.mIndex f.idx) i with
  | none => .idle
  | some (yc, xc, t) =>
    let p := elemsPerSlot f.run.cmd.colFmt
    let v := vFields g.w p ((f.run.vRun f.idx).1 + u.colSlot)
    let y := g.w.inY yc v.ky
    let x := g.w.inX xc v.kx
    if y < 0 ∨ (g.height : Int) ≤ y ∨ x < 0 ∨ (g.width : Int) ≤ x then .pad
    else .at (groupBase g.w (f.run.n0 f.idx) k v.sigma + v.cs * p + (u.colSub + e) + t.dz) y.toNat x.toNat

/-- The first line of input row `y` of plane `k` of a window load's block (R165). -/
def winLine (line : Nat) (layout : Nat × Nat) (k y ya : Nat) : Nat :=
  line + (k * (layout.1 + 1) + y - ya) * (layout.2 + 1)

/-- The column element of row `i` for column block `k`, element `e` of an update (R106, R110, R164). In a command without a
window block col_mode 1 has no address of its own: the lines are read as with col_mode 0 (log 89). -/
def Feed.colElem (f : Feed) (u : Update) (e i k : Nat) : Elem :=
  let fmt := f.run.cmd.colFmt
  let np := planesOf fmt
  let p := elemsPerSlot fmt
  let m := f.core.bank f.op.colBank
  match f.op.windowed, f.geo with
  | true, some g =>
    (match f.winRead g u e i k with
     | .idle => Elem.zero
     | .pad => f.colCode (planePart fmt g.w.padValue u.plane) u.plane (u.colSub + e) 0xFFFF
     | .at chan y x =>
       let pl := f.run.planes g.w f.idx p np
       let ya := match g.rowSpan (f.run.cmd.stripeOf f.idx) (f.run.cmd.mIndex f.idx) with
         | some a => a.1
         | none => 0
       let line := winLine f.op.colLine f.core.layout (chan / p * np + u.plane - pl.1) y ya
       f.colCode (slotCode m (isThin fmt u.plane) line x) u.plane (chan % p) chan)
  | _, _ =>
    let line := f.op.colLine + u.colSlot * f.op.colStep + u.plane * f.op.planePitch
      + (if f.op.diag then k * f.op.blockPitch else 0)
    f.colCode (slotCode m (isThin fmt u.plane) line i) u.plane (u.colSub + e)
      (f.run.cmd.outerK f.run.run.bounds f.idx * Cmd.accBound f.run.run.bounds + f.skip + u.colSlot * p + u.colSub + e)

/-- The row element of column `j`, element `e` of an update (R82, R83, R106). -/
def Feed.rowElem (f : Feed) (u : Update) (e j : Nat) : Elem :=
  let fmt := f.run.cmd.rowFmt
  let m := f.core.bank f.op.rowBank
  let cb := (f.run.n0 f.idx + j) / 2 ^ f.codeShift - f.codeBase
  if fmt = fmtCb16 then
    decodeEntry (Mem.read f.core.codebook (16 * cb + Mem.nib m (128 * (f.op.rowLine + u.rowSlot * f.op.rowStep) + j)))
  else if fmt = fmtCb256p then
    let line := f.op.rowLine + u.rowSlot / 2 * 2 * f.op.rowStep
    decodeEntry (Mem.read f.core.codebook
      (512 * cb + 2 * (Mem.read m (64 * line + j)).toNat + u.rowSlot % 2))
  else decodeSlot fmt (Mem.nib m (128 * (f.op.rowLine + u.rowSlot * f.op.rowStep) + j)) (u.rowSub + e)

/-- Products of an update per cell, but for planes. -/
def Run.perUpdate (r : Run) : Nat := elemsPerUpdate r.cmd.colFmt r.cmd.rowFmt

/-- The block of slot `v` of a windowed reduction, of `p` elements, among those of its row exponents: 32 channels at a
kernel tap (R90). -/
def winBlock (w : Window6) (p v : Nat) : Nat :=
  let x := vFields w p v
  ((x.sigma * ceilDiv w.cr 32 + x.cs * p / 32) * w.kh + x.ky) * w.kw + x.kx

/-- The block of a slot of a windowed command counted from its run's first (R163). -/
def Run.blockIn (r : Run) (w : Window6) (idx : List Nat) (v : Nat) : Nat :=
  winBlock w (elemsPerSlot r.cmd.colFmt) v - winBlock w (elemsPerSlot r.cmd.colFmt) (r.vRun idx).1

/-- The block of an update among those that XPTR's lines step through (R90, R109). -/
def Feed.blockOf (f : Feed) (u : Update) : Nat :=
  match f.op.windowed, f.geo with
  | true, some g => f.run.blockIn g.w f.idx ((f.run.vRun f.idx).1 + u.colSlot)
  | _, _ => u.w * f.run.perUpdate / 32

/-- The exponent byte at place `i` of a vector of exponents that starts at a line. -/
def expByte (m : Mem) (line i : Nat) : Int := (Mem.read m (64 * line + i)).toInt

/-- The combined exponent of cell (i, j) at an update; none at a pad slot or an idle row, which carry none (R91, R164). -/
def Feed.exponent (f : Feed) (u : Update) (i j : Nat) : Option Int :=
  let x := f.core.xptr
  let b := f.blockOf u
  let xr : Int := if bitAt f.run.cmd.flags 1 then
      expByte (f.core.bank x.rowBank) (x.rowLine + b * x.rowStep) j else 0
  let hasCol := bitAt f.run.cmd.flags 0
  match f.op.windowed, f.geo with
  | true, some g =>
    (match f.winRead g u 0 i (j / 16) with
     | .idle => none
     | .pad => none
     | .at chan y xi =>
       let pl := f.run.planes g.w f.idx 32 1
       let ya := match g.rowSpan (f.run.cmd.stripeOf f.idx) (f.run.cmd.mIndex f.idx) with
         | some a => a.1
         | none => 0
       some ((if hasCol then expByte (f.core.bank x.colBank) (winLine x.colLine f.core.xlayout (chan / 32 - pl.1) y ya) xi
         else 0) + xr))
  | _, _ => some ((if hasCol then expByte (f.core.bank x.colBank) (x.colLine + b * x.colStep) i else 0) + xr)

/-- The block shift of cell (i, j) at an update, and whether it is clamped (R91). -/
def Feed.shift (f : Feed) (base : Int) (u : Update) (i j : Nat) : Nat × Bool :=
  if !f.op.exp then (0, false)
  else match f.exponent u i j with
    | some x => blockShift x base
    | none => (0, false)

def Feed.perUpdate (f : Feed) : Nat := f.run.perUpdate

/-- Whether element `e` of an update lies beyond the reduction bound, as the STREAM's count and tail say (R80, R107;
log 92). -/
def Feed.beyond (f : Feed) (u : Update) (e : Nat) : Bool :=
  decide (f.op.count / planesOf f.run.cmd.colFmt * f.perUpdate ≤ u.w * f.perUpdate + e + f.op.tail)

/-- One product of cell (i, j): its value, and whether it is gated (R77, R101, R107). -/
def Feed.prod (f : Feed) (base : Int) (un e i j : Nat) : Int × Bool :=
  let u := updateAt f.run.cmd.colFmt f.run.cmd.rowFmt un
  let c := f.colElem u e i (j / 16)
  let r := f.rowElem u e j
  if f.beyond u e || c.m = 0 || r.m = 0 then (0, true) else (product c r (f.shift base u i j).1, false)

/-- The sum p of an update for cell (i, j) (R93). -/
def Feed.sum (f : Feed) (base : Int) (i j un : Nat) : Int :=
  ((List.range f.perUpdate).map (fun e => (f.prod base un e i j).1)).foldl (· + ·) 0

/-- The accumulator of a cell after the first `k` updates, and whether a clamp changed it (R93, R94). -/
def cellFold (p : Nat → Int) (a : Int) : Nat → Int × Bool
  | 0 => (a, false)
  | k + 1 =>
    let b := cellFold p a k
    let r := accumulate b.1 (p k)
    (r.1, b.2 || r.2)

/-- The cells of the array as i x 128 + j. -/
def cells : List Nat := List.range 16384

/-- A tile after a STREAM (R100). -/
def Feed.tile (f : Feed) (t : Tile) : Tile :=
  let go (k : Nat) : Int × Bool :=
    cellFold (f.sum t.base (k / 128) (k % 128)) (accVal (SMap.get (fun _ => 0) t.acc k)) f.op.count
  { t with
    outer := f.run.cmd.outerK f.run.run.bounds f.idx
    taken := f.skip + f.op.count / planesOf f.run.cmd.colFmt * f.perUpdate - f.op.tail
    acc := SMap.ofFn (fun _ => 0) 16384 (fun k => accWord (go k).1)
    ovf := t.ovf || cells.any (fun k => (go k).2)
    clamp := t.clamp || (f.op.exp && cells.any (fun k => (List.range f.op.count).any (fun un =>
      (f.shift t.base (updateAt f.run.cmd.colFmt f.run.cmd.rowFmt un) (k / 128) (k % 128)).2))) }

/-- Products gated in a STREAM. -/
def Feed.gated (f : Feed) : Nat :=
  (cells.map (fun k => ((List.range f.op.count).map (fun un =>
    ((List.range f.perUpdate).filter (fun e => (f.prod 0 un e (k / 128) (k % 128)).2)).length)).foldl (· + ·) 0)).foldl
    (· + ·) 0

/-- The slots of vectors that an operand of a STREAM steps over, less 1. -/
def Feed.lastUpdate (f : Feed) : Update := updateAt f.run.cmd.colFmt f.run.cmd.rowFmt (f.op.count - 1)

/-- The lines of a window load's block at a line that hold input rows ya to yb of `k` planes, as regions (R104, R165). -/
def winRegions (bank : Bool) (line : Nat) (layout : Nat × Nat) (k rows width : Nat) : List Nat :=
  (List.range k).flatMap (fun i =>
    regionsOf bank (winLine line layout i 0 0) ((rows - 1) * (layout.2 + 1) + ceilDiv width 128))

/-- How many input rows the tile's live rows read (R165). -/
def Feed.winRows (f : Feed) (g : Geo) : Nat :=
  match g.rowSpan (f.run.cmd.stripeOf f.idx) (f.run.cmd.mIndex f.idx) with
  | some (a, b) => b + 1 - a
  | none => 0

/-- The regions of the column lines that a STREAM reads (R104). -/
def Feed.colRegions (f : Feed) : List Nat :=
  match f.op.windowed, f.geo with
  | true, some g =>
    if f.winRows g = 0 then []
    else winRegions f.op.colBank f.op.colLine f.core.layout
      (f.run.planes g.w f.idx (elemsPerSlot f.run.cmd.colFmt) (planesOf f.run.cmd.colFmt)).2 (f.winRows g) g.width
  | _, _ =>
    (List.range (planesOf f.run.cmd.colFmt)).flatMap (fun pl => (List.range (if f.op.diag then 8 else 1)).flatMap (fun k =>
      regionsOf f.op.colBank (f.op.colLine + pl * f.op.planePitch + k * f.op.blockPitch)
        (f.lastUpdate.colSlot * f.op.colStep + 1)))

/-- The regions of the row lines that a STREAM reads (R83, R104). -/
def Feed.rowRegions (f : Feed) : List Nat :=
  regionsOf f.op.rowBank f.op.rowLine
    (if f.run.cmd.rowFmt = fmtCb256p then f.lastUpdate.rowSlot / 2 * 2 * f.op.rowStep + 2
     else f.lastUpdate.rowSlot * f.op.rowStep + 1)

/-- The regions of the exponent lines that a STREAM with exp set reads at XPTR's pointers (R104, R109). A vector of 128
exponents takes two lines. -/
def Feed.expRegions (f : Feed) : List Nat :=
  let x := f.core.xptr
  let b := f.blockOf f.lastUpdate
  (if !bitAt f.run.cmd.flags 0 then []
   else
    match f.op.windowed, f.geo with
    | true, some g =>
      if f.winRows g = 0 then []
      else winRegions x.colBank x.colLine f.core.xlayout (f.run.planes g.w f.idx 32 1).2 (f.winRows g) (2 * g.width)
    | _, _ => regionsOf x.colBank x.colLine (b * x.colStep + 2)) ++
  (if bitAt f.run.cmd.flags 1 then regionsOf x.rowBank x.rowLine (b * x.rowStep + 2) else [])

/-- The regions that a STREAM reads (R104). -/
def Feed.regions (f : Feed) : List Nat :=
  if f.op.count = 0 then [] else f.colRegions ++ f.rowRegions ++ (if f.op.exp then f.expRegions else [])

/-! ## XSCAN (R91, R92, R109) -/

/-- Every position of the reduction levels outside the accumulator loop, with the other indices kept. -/
def Cmd.kPositions (c : Cmd) (bounds idx : List Nat) : List (List Nat) :=
  (indexed c.levels).foldl (fun acc x =>
    if (x.2.dim = 2 ∨ x.2.dim = 5) ∧ x.2.kind ≠ 3 then
      acc.flatMap (fun l => (List.range (bounds.getD x.1 1)).map (fun i => (l.take x.1) ++ [i] ++ l.drop (x.1 + 1)))
    else acc) [(List.range c.levels.length).map (fun k => idx.getD k 0)]

/-- The index list with the accumulator level at block `b`: for exponent arrays that level counts blocks (log 36). -/
def withAcc (idx : List Nat) (b : Nat) : List Nat := idx.dropLast ++ [b]

/-- The exponents that meet in cells of the tile at one block: the byte addresses of those of the column operand that some
row reads there, and of those of the row operand. -/
structure ExpBlock where
  col : List Nat
  row : List Nat
  deriving DecidableEq, Repr

/-- The 128 exponents of an operand at block `b` of a position, outside windows. -/
def State.expVector (s : State) (r : Run) (role : Nat) (idx : List Nat) (b : Nat) : List Nat :=
  (List.range 128).map (fun i => s.roleAt r role 2 (withAcc idx b) / 2 + i)

/-- The column exponents that the live rows read at slot `v` for column block `k`, but at pad slots (R164, R165). -/
def State.winExps (s : State) (r : Run) (g : Geo) (idx : List Nat) (v k : Nat) : List Nat :=
  let w := g.w
  let p := elemsPerSlot r.cmd.colFmt
  let f := vFields w p v
  (g.liveRows (r.cmd.stripeOf idx) (r.cmd.mIndex idx)).filterMap (fun x =>
    let y := w.inY x.2.1 f.ky
    let c := w.inX x.2.2.1 f.kx
    if y < 0 ∨ (g.height : Int) ≤ y ∨ c < 0 ∨ (g.width : Int) ≤ c then none
    else
      some (s.roleAt r 2 2 (withAcc idx 0) / 2
        + ((groupBase w (r.n0 idx) k f.sigma + f.cs * p + x.2.2.2.dz) / 32 - (r.planes w idx 32 1).1) * w.memPlane
        + y.toNat * w.memRow + c.toNat))

/-- The blocks of the tile's whole reduction range (R91, R92): each position of the outer reduction, each slot of a windowed
command and each of its column blocks. -/
def State.expBlocks (s : State) (r : Run) (idx : List Nat) : List ExpBlock :=
  (r.cmd.kPositions r.run.bounds idx).flatMap (fun l =>
    match r.geo with
    | none =>
      (List.range (ceilDiv (Cmd.accBound r.run.bounds) 32)).map (fun b =>
        { col := s.expVector r 2 l b, row := s.expVector r 3 l b })
    | some g =>
      (List.range (r.vRun l).2).flatMap (fun i =>
        let v := (r.vRun l).1 + i
        let row := s.expVector r 3 l (r.blockIn g.w l v)
        if g.w.diag then
          (List.range 8).map (fun k => { col := s.winExps r g l v k, row := (row.drop (16 * k)).take 16 })
        else [{ col := s.winExps r g l v 0, row := row }]))

/-- Largest and smallest of a list of integers. -/
def spanInt : List Int → Option (Int × Int)
  | [] => none
  | x :: xs => some (xs.foldl max x, xs.foldl min x)

/-- The exponents at a list of addresses, where their operand carries any; else 0 for each place. -/
def State.expsAt (s : State) (on : Bool) (l : List Nat) : List Int := l.map (fun a => if on then (s.memByte a).toInt else 0)

/-- M and m of R91: over a block, the largest combined exponent is the sum of the two largest. A block that every row reads
as padding takes no part. -/
def State.expSpan (s : State) (r : Run) (idx : List Nat) (col row : Bool) : Option (Int × Int) :=
  let parts := (s.expBlocks r idx).filterMap (fun x =>
    match spanInt (s.expsAt col x.col), spanInt (s.expsAt row x.row) with
    | some a, some b => some (a.1 + b.1, a.2 + b.2)
    | _, _ => none)
  match spanInt (parts.map (·.1)), spanInt (parts.map (·.2)) with
  | some hi, some lo => some (hi.1, lo.2)
  | _, _ => none

/-- B of R91; 0 where the range holds no exponent. -/
def State.scanBase (s : State) (r : Run) (idx : List Nat) (col row : Bool) : Int :=
  match s.expSpan r idx col row with
  | some (hi, lo) => tileBase r.cmd.colFmt r.cmd.rowFmt hi lo
  | none => 0

/-- What the scan reads, as (address, length): 64 bytes at a time in the arrays' own order (R109). -/
def State.scanRanges (s : State) (r : Run) (idx : List Nat) (col row : Bool) : List (Nat × Nat) :=
  (((s.expBlocks r idx).flatMap (fun x => (if col then x.col else []) ++ (if row then x.row else []))).map
    (fun a => a / 64)).eraseDups.map (fun b => (64 * b, 64))

/-! ## The output stage -/

/-- A little-endian reader of the scale table of a command. -/
def State.scaleRd (s : State) (c : Cmd) (off n : Nat) : Nat := leVal (s.memGet (c.scale + off) n)

/-- The set of a scale table at a firing (R180). -/
def State.scaleSet (s : State) (c : Cmd) (idx : List Nat) : Nat := idxAt idx (s.scaleRd c 5 1)

/-- The channel entry of column `j` (R180). -/
def State.chanEntry (s : State) (c : Cmd) (bounds idx : List Nat) (j : Nat) : ChanEntry :=
  readChanOf (s.scaleRd c) (s.scaleSet c idx) (128 * c.dimIndex 1 bounds idx + j)

/-- The activation of a channel, none for identity (R190). -/
def State.chanAct (s : State) (c : Cmd) (e : ChanEntry) : Option Act :=
  if e.act = 0xFF then none else some (readAct (s.scaleRd c) e.act)

/-- What the output stage and the feeder read of a scale table for a tile, as (address, length): its header, the tile's 128
entries, the AQ4 list, and the activation tables of its columns (R177, R182). -/
def State.scaleRanges (s : State) (c : Cmd) (bounds idx : List Nat) : List (Nat × Nat) :=
  if c.scale = 0 then []
  else
    let e0 := 0x40 + s.scaleSet c idx * s.scaleRd c 8 4 + 128 * c.dimIndex 1 bounds idx * 16
    [(c.scale, 64), (c.scale + e0, 2048), (c.scale + s.scaleRd c 0x10 4, 4 * s.scaleRd c 0x14 2)] ++
      (((List.range 128).map (fun j => (s.chanEntry c bounds idx j).act)).eraseDups.filter (fun k => k != 0xFF)).map
        (fun k => (c.scale + s.scaleRd c 0xC 4 + 384 * k, 384))

/-- What is read of it. -/
def State.scaleRead (s : State) (c : Cmd) (bounds idx : List Nat) : ScaleRead :=
  if c.scale = 0 then { chans := [], aq4 := [] }
  else
    { chans := (List.range 128).map (fun j => (s.chanEntry c bounds idx j, s.chanAct c (s.chanEntry c bounds idx j)))
      aq4 := readAq4 (s.scaleRd c) }

/-- A drained value of a group of rows after steps Z and C, and whether either clamped (R168, R184). Step Z is performed
where the scale table lists AQ4 channels (Table 7.1). -/
def drainValue (combine : Nat) (aq4 : Bool) (zcorr : Int) (rows : List (Int × Int)) : Int × Bool :=
  let z := rows.map (fun x => (if aq4 then stepZ x.1 zcorr else (x.1, false), x.2))
  let c := stepC combine (z.map (fun x => (x.1.1, x.2)))
  (c.1, c.2 || z.any (fun x => x.1.2))

/-- One result of a drain: where its position lies, from the operand's address, in units, and the rows that form it, as
(row, weight) (R161, R162). -/
structure OutPos where
  off : Int
  rows : List (Nat × Int)
  deriving DecidableEq, Repr

/-- The positions of a drained tile. -/
def Run.outPositions (r : Run) (o : Opnd) (idx : List Nat) : List OutPos :=
  match r.geo with
  | none => (List.range 128).map (fun i => { off := Int.ofNat i * o.pos, rows := [(i, 1)] })
  | some g =>
    let st := r.cmd.stripeOf idx
    let m := r.cmd.mIndex idx
    (List.range (128 / g.gs)).filterMap (fun k =>
      let rows := (List.range g.gs).filterMap (fun t =>
        (g.rowLive st m (k * g.gs + t)).map (fun x => (k * g.gs + t, x.2.2.weight)))
      match g.position st m (k * g.gs) with
      | some (yf, xf, _) =>
        if rows = [] then none
        else some { off := ((yf - g.w.cropY0 : Nat) : Int) * g.w.outRow + ((xf - g.w.cropX0 : Nat) : Int) * o.pos,
                    rows := rows }
      | none => none)

/-- Elements per slot of an output format, and bits of each (R192). -/
def outBits (fmt : Nat) : Nat := if fmt = fmtBin then 1 else if fmt = fmtInt2 ∨ fmt = fmtTern then 2 else 4

/-- The nibbles of a code of an output format, least significant first. -/
def codeNibs (n code : Nat) : List Nat := (List.range n).map (fun k => code / 16 ^ k % 16)

/-- Put the nibbles of a code at nibble address `a`. -/
def putNibs (a : Nat) (ns : List Nat) : List (Nat × Nat) := (indexed ns).map (fun x => (a + x.1, x.2))

/-- The nibbles of one result of a drain: 128 codes at channel stride `chan`, packed where the format packs (R192). -/
def packRow (fmt : Nat) (a : Int) (chan : Int) (codes : List Nat) : List (Nat × Nat) :=
  let p := elemsPerSlot fmt
  let n := if fmt = fmtQ88 then 4 else 1
  (List.range (128 / p)).flatMap (fun k =>
    let code := ((List.range p).map (fun e => codes.getD (k * p + e) 0 * 2 ^ (outBits fmt * e))).foldl (· + ·) 0
    putNibs (a + Int.ofNat n * Int.ofNat k * chan).toNat (codeNibs n code))

/-- What a DRAIN or a draining collective writes, and whether a step clamped (R175). -/
def State.drainNibs (s : State) (r : Run) (o : Opnd) (idx : List Nat) (t : Tile) : List (Nat × Nat) × Bool :=
  let fmt := r.cmd.outFmt
  let base := s.opndAt r o (r.cmd.outUnit) idx r.geo.isSome
  let combine := match r.geo with
    | some g => g.w.combine
    | none => 0
  let out := (r.outPositions o idx).map (fun q =>
    let vals := (indexed t.scale.chans).map (fun x =>
      let v := drainValue combine (t.scale.aq4 != []) x.2.1.zcorr
        (q.rows.map (fun y => (accVal (SMap.get (fun _ => 0) t.acc (y.1 * 128 + x.1)), y.2)))
      (outputCode fmt x.2.1 x.2.2 v.1 t.base, v.2))
    (packRow fmt ((base : Int) + r.cmd.outUnit * q.off) o.chan (vals.map (·.1)), vals.any (·.2)))
  (out.flatMap (·.1), out.any (·.2))

/-- What a SPILL, or a collective without drain, writes: ACC32 words, with units of bytes (R95, R113, R132). -/
def State.spillNibs (s : State) (r : Run) (o : Opnd) (idx : List Nat) (t : Tile) : List (Nat × Nat) :=
  let base := s.opndAt r o 2 idx r.geo.isSome
  (r.outPositions o idx).flatMap (fun q =>
    (List.range 128).flatMap (fun j =>
      let row := ((q.rows.map (·.1)).headD 0)
      putNibs ((base : Int) + 2 * (q.off + Int.ofNat j * o.chan)).toNat
        (codeNibs 8 (SMap.get (fun _ => 0) t.acc (row * 128 + j)).toNat)))

/-- The tile's output index within its shard: its linear index over levels 2 to T (R149). -/
def Cmd.outIndex (c : Cmd) (bounds idx : List Nat) : Nat :=
  (((bounds.take c.tileLevels).drop 1).zip ((idx.take c.tileLevels).drop 1)).foldl (fun a x => a * x.1 + x.2) 0

/-- The tile base that a SPILL to an output operand with flags[1] also writes, as a signed 16-bit value (R149). -/
def State.baseNibs (s : State) (r : Run) (o : Opnd) (idx : List Nat) (b : Int) : List (Nat × Nat) :=
  if o.bases then
    putNibs (2 * (s.spaceAddr r.cmd.ctx r.cluster o.space o.baseArray + 2 * r.cmd.outIndex r.run.bounds idx))
      (codeNibs 4 (unsigned 16 b))
  else []

/-- The first address among what is written that names no memory (R30). -/
def State.writeStatus (s : State) (nibs : List (Nat × Nat)) : Option W16 :=
  nibs.findSome? (fun x =>
    match whereAddr s.dev.part (x.1 / 2) with
    | .bad st => some st
    | _ => none)

/-- Merge nibbles into the bytes of a 64-byte block. -/
def mergeNibs (old : List Byte) (blk : Nat) (nibs : List (Nat × Nat)) : List Byte :=
  (indexed old).map (fun x =>
    let lo := (nibs.find? (fun y => y.1 = 128 * blk + 2 * x.1)).map (·.2)
    let hi := (nibs.find? (fun y => y.1 = 128 * blk + 2 * x.1 + 1)).map (·.2)
    BitVec.ofNat 8 (lo.getD (x.2.toNat % 16) + 16 * hi.getD (x.2.toNat / 16)))

/-- Write nibbles of one 64-byte block as a requester's port (R326): a whole block clears poison, a part of a poisoned one
is discarded and logged. -/
def State.putNibBlock (s : State) (port blk : Nat) (nibs : List (Nat × Nat)) : State :=
  let data := mergeNibs (s.memGet (64 * blk) 64) blk nibs
  match whereAddr s.dev.part (64 * blk) with
  | .dram a =>
    if nibs.length = 128 then s.putBlock port a data
    else
      let s1 := s.mergeRead port (a / 64)
      if s.poisoned (a / 64) then s1.dmcLog (s.blockLoc (a / 64)) 4 port
      else (s1.setDramBytes (Mem.writeList s1.dram.bytes a data)).countWrite (a / 64)
  | .basin n a => s.setBasin n (Mem.writeList (s.basin n) a data)
  | .bad _ => s

/-- The blocks that nibbles lie in, as (address, length). -/
def nibBlocks (nibs : List (Nat × Nat)) : List (Nat × Nat) :=
  ((nibs.map (fun x => x.1 / 128)).eraseDups).map (fun b => (64 * b, 64))

/-- Write what a drain hands over, block by block in ascending order; `fuel` bounds the number of blocks. -/
def State.putNibList (s : State) (port : Nat) : Nat → List (Nat × Nat) → State
  | 0, _ => s
  | _, [] => s
  | k + 1, x :: xs =>
    let blk := x.1 / 128
    State.putNibList (s.putNibBlock port blk ((x :: xs).filter (fun y => y.1 / 128 = blk))) port k
      (xs.filter (fun y => y.1 / 128 ≠ blk))

/-! ## Row-ready counters (R170) -/

/-- The stripe that a counter field selects (R170). -/
def stripeSel (sel : Nat) (own : Int) : Int :=
  match sel with
  | 1 => own - 1
  | 2 => own + 1
  | _ => own

/-- Stripes of a command: one where it is no stripe run. -/
def Run.stripes (r : Run) : Nat :=
  match r.cmd.window with
  | some w => if w.stripe then r.run.bounds.getD 0 1 else 1
  | none => 1

/-- The basin byte of the counter that a PUBLISH or WAITCNT names, none where its stripe lies outside the run. -/
def State.counterAt (s : State) (r : Run) (idx : List Nat) (op : Op) : Option Nat :=
  let c := field op.bits 16 16
  let st : Int := stripeSel (c / 16384) (Int.ofNat (r.cmd.stripeOf idx))
  let words : Nat := match r.cmd.window with
    | some w => w.rrWords
    | none => 0
  if st < 0 || decide (Int.ofNat r.stripes ≤ st) then none
  else some (65536 * SMap.get (fun _ => 0) (s.ctxRun r.cmd.ctx).place r.cluster + r.cmd.rrOff
    + 4 * (st.toNat * words + (c % 16384 + idxAt idx (field op.bits 32 3))))

end Sys2Proof.Machine
end

