-- ==== Sys2Proof/Machine/ArrayCmds.lean ====
section
/-! DEFINITION. The instructions of an array program on a core, tile claims and commits, faults (R104 to R128, R134, R135,
R143, R144, R149, R151). -/

set_option Elab.async false

namespace Sys2Proof.Machine

/-- Count in an activity counter of a core, where TC_ARR_CTRL.count_en is set (Table 4.13): UPDATES, PRODUCTS, GATED, EXCH and
WAIT. The counters of events (SAT, CLAMP, KILL, PARITY) count always (log 85). -/
def State.activity (s : State) (r : Reg) (n v : Nat) : State := if s.regBit .TC_ARR_CTRL n 0 0 then s.addTo r n v else s

/-- Go on after an instruction, or fault with a status. -/
def State.onward (s : State) (n : Nat) (st : Option W16) (f : State → State) : Option State :=
  match st with
  | some w => some (s.coreFaulted n w)
  | none => some ((f s).advance n)

/-! ## LOAD -/

/-- The rows and row_lines of a window LOAD are those that later STREAMs address (R165). -/
def Core.noteLayout (c : Core) (op : Op) : Core :=
  if field op.bits 61 3 ≠ 7 then c
  else if field op.bits 16 4 = 2 then { c with xlayout := (field op.bits 34 14, field op.bits 48 13) }
  else { c with layout := (field op.bits 34 14, field op.bits 48 13) }

/-- LOAD (R117, R118): handed to its unit, or skipped where keep finds it already performed; a fifth one waits. -/
def execLoad (core : Nat) (s : State) : Out :=
  .next (s.atFront core 1 (fun s r fi op =>
    let l := s.loadRec core r fi op
    let c := Core.noteLayout (s.core core) op
    if bitAt op.bits 64 && c.kept.any (fun k => LoadRec.same k l) then some (State.advance (s.setCore core c) core)
    else if 4 ≤ c.loads.length then none
    else some (State.advance (s.setCore core { c with loads := c.loads ++ [l] }) core)))

/-- The end of an asynchronous read of a core, `pc` its instruction: it waits until the ranges can be reached. Data that
arrive at a killed core are dropped (R126); a bad address or poison faults the command (R30, R127, R328). `take` removes what
was outstanding. -/
def State.arrive (s : State) (n pc : Nat) (rs : List (Nat × Nat)) (take : Core → Core) (f : State → State) : State :=
  s.when (s.coreRuns n && !s.coolantHeld && s.reach rs) (fun s =>
    let r := (s.updCore n take).reads (portCl (n / 8)) rs
    if (s.core n).st == .killing then r.2
    else
      match r.1 with
      | some st => State.coreFaulted (r.2.updCore n (fun c => { c with pc := pc })) n st
      | none => f r.2)

/-- LOAD_COMPLETE (R104, R117): the oldest outstanding load writes its store. -/
def execLoadComplete (core : Nat) (s : State) : Out :=
  .next (match (s.core core).loads with
    | l :: ls => s.arrive core l.pc l.ranges (fun c => { c with loads := ls }) (fun s => s.performLoad core l)
    | [] => s)

/-! ## XSCAN -/

/-- XSCAN (R91, R92, R109): the tile base over the whole reduction range; a second one waits. -/
def execXscan (core : Nat) (s : State) : Out :=
  .next (s.atFront core 2 (fun s r fi op =>
    let col := bitAt op.bits 19
    let row := bitAt op.bits 20
    let rs := s.scanRanges r fi.idx col row
    if (s.core core).scanning.isSome || !s.reach rs then none
    else
      let x := s.reads (portCl (core / 8)) rs
      x.2.onward core x.1 (fun s =>
        s.updCore core (fun c =>
          { c with scanning := some (s.slotAt core r (field op.bits 16 3) fi.idx, s.scanBase r fi.idx col row) }))))

/-- A slot of a core. -/
def Core.slot (c : Core) (k : Nat) : Tile := SMap.get (fun _ => Tile.zero) c.slots k

def Core.setSlot (c : Core) (k : Nat) (t : Tile) : Core := { c with slots := SMap.set (fun _ => Tile.zero) c.slots k t }

/-- XSCAN_COMPLETE (R109): B is stored with its slot. -/
def execXscanComplete (core : Nat) (s : State) : Out :=
  .next (match (s.core core).scanning with
    | some (k, b) => s.when (s.coreRuns core && !s.coolantHeld) (fun s =>
        s.updCore core (fun c =>
          if c.st == .killing then { c with scanning := none }
          else Core.setSlot { c with scanning := none } k { c.slot k with base := b }))
    | none => s)

/-! ## INIT -/

/-- The ACC32 words of a partial at a byte address (R111, R117). -/
def State.partialAcc (s : State) (a : Nat) : SMap W32 :=
  SMap.ofFn (fun _ => 0) 16384 (fun k => BitVec.ofNat 32 (leVal (s.memGet (a + 4 * k) 4)))

/-- Whether a partial of INIT mode 1 for a slot has not arrived. -/
def Core.initing (c : Core) (k : Nat) : Bool := c.inits.any (fun x => x.slot = k)

/-- An INIT at the front of a core (R112, R117, R177, R182): the slot is zero, its flags, clamp summary and B are cleared, and
the output stage and the feeder read what the tile needs of the scale table. A program that drains nothing names none. In
mode 1 the partial is asked for. -/
def State.startInit (s : State) (core : Nat) : State :=
  s.atFront core 3 (fun s r fi op =>
    let k := s.slotAt core r (field op.bits 16 3) fi.idx
    let rs := s.scaleRanges r.cmd r.run.bounds fi.idx
    if (s.core core).initing k || !s.reach rs then none
    else
      let x := s.reads (portCl (core / 8)) rs
      x.2.onward core x.1 (fun s =>
        s.updCore core (fun c =>
          let c1 := Core.setSlot c k { Tile.zero with scale := s.scaleRead r.cmd r.run.bounds fi.idx }
          if bitAt op.bits 19 then
            { c1 with inits := c1.inits ++ [{ slot := k, addr := s.roleAt r 4 2 fi.idx / 2, pc := fi.pc }] }
          else c1)))

/-- The oldest partial asked for arrives in its slot (R111, R117). -/
def State.endInit (s : State) (core : Nat) : State :=
  match (s.core core).inits with
  | x :: xs =>
    s.arrive core x.pc [(x.addr, 65536)] (fun c => { c with inits := xs }) (fun s =>
      s.updCore core (fun c => c.setSlot x.slot { c.slot x.slot with acc := s.partialAcc x.addr }))
  | [] => s

/-- INIT: the instruction at the front, or with `done` the arrival of the oldest partial of an INIT of mode 1, which is
asynchronous (Table 4.6; log 86). -/
def execInit (e : InitEvent) (s : State) : Out :=
  .next (if e.done then s.endInit e.core else s.startInit e.core)

/-! ## STREAM -/

/-- STREAM (R100 to R112, R121, R138): the exchange where its tile is not the loaded one, then every update. It waits for
loads of the regions that it reads, for its tile's XSCAN (R104, R109), and for its tile's partial (log 86). -/
def execStream (core : Nat) (s : State) : Out :=
  .next (s.atFront core 4 (fun s r fi op =>
    let f := s.feed core r fi op
    let c := s.core core
    let k := f.op.slot
    let busy := c.loads.any (fun l =>
      l.operand != 4 && (regionsOf l.bank l.line l.lines).any (fun x => f.regions.contains x))
    if busy || c.initing k || (f.op.exp && (match c.scanning with
        | some (x, _) => x = k
        | none => false)) then none
    else
      let total := f.op.count * 16384 * f.perUpdate
      let gated := f.gated
      let s1 := if c.loaded = some k then s else s.activity .TC_CNT_EXCH core 64
      let s2 := ((s1.activity .TC_CNT_UPDATES core f.op.count).activity .TC_CNT_PRODUCTS core (total - gated)).activity
        .TC_CNT_GATED core gated
      some (State.advance (s2.setCore core { Core.setSlot c k (f.tile (c.slot k)) with loaded := some k }) core)))

/-! ## DRAIN and SPILL -/

/-- A tile leaves through the drain port: its status, the counters of Table 4.13, and what is handed to the network. -/
def State.handOff (s : State) (n slot : Nat) (ovf clamp : Bool) (nibs : List (Nat × Nat)) : State :=
  let s1 := if ovf then s.count .TC_CNT_SAT n else s
  let s2 := if clamp then s1.count .TC_CNT_CLAMP n else s1
  s2.updCore n (fun c =>
    { c with drains := c.drains ++ [{ ctx := c.ctx, tile := c.tileNo, slot := slot, nibs := nibs }], status := worseStatus c.status (flagStatus ovf clamp) })

/-- The output operand that a DRAIN or SPILL names (Table 4.9). -/
def Run.outOpnd (r : Run) (op : Op) : Option Opnd := r.cmd.opnd (8 + field op.bits 19 2)

/-- DRAIN (R113, R175 to R192): at most two are outstanding. The slot keeps its tile, with any overflow of step Z or C in
its summary (R184). -/
def execDrain (core : Nat) (s : State) : Out :=
  .next (s.atFront core 5 (fun s r fi op =>
    let k := s.slotAt core r (field op.bits 16 3) fi.idx
    let t := (s.core core).slot k
    if 2 ≤ (s.core core).drains.length || (s.core core).initing k then none
    else
      match r.outOpnd op with
      | none => some (s.advance core)
      | some o =>
        let d := s.drainNibs r o fi.idx t
        s.onward core (s.writeStatus d.1) (fun s =>
          (s.updCore core (fun c => c.setSlot k { t with ovf := t.ovf || d.2 })).handOff core k (t.ovf || d.2) t.clamp
            d.1)))

/-- SPILL (R113, R149). -/
def execSpill (core : Nat) (s : State) : Out :=
  .next (s.atFront core 6 (fun s r fi op =>
    let k := s.slotAt core r (field op.bits 16 3) fi.idx
    let t := (s.core core).slot k
    if 2 ≤ (s.core core).drains.length || (s.core core).initing k then none
    else
      match r.outOpnd op with
      | none => some (s.advance core)
      | some o =>
        let nibs := s.spillNibs r o fi.idx t ++ s.baseNibs r o fi.idx t.base
        s.onward core (s.writeStatus nibs) (fun s => s.handOff core k t.ovf t.clamp nibs)))

/-- DRAIN_COMPLETE (R113, R126): the writes of the oldest drain are visible; a kill does not stop them. They wait for DRAM
and for their basin. -/
def execDrainComplete (core : Nat) (s : State) : Out :=
  .next (match (s.core core).drains with
    | d :: ds => s.when (s.clocked && s.reach (nibBlocks d.nibs)) (fun s =>
        (s.updCore core (fun c => { c with drains := ds })).putNibList (portCl (core / 8)) (d.nibs.length + 1) d.nibs)
    | [] => s)

/-! ## XPTR, FENCE, PUBLISH, WAITCNT -/

/-- XPTR (Table 4.10). -/
def execXptr (core : Nat) (s : State) : Out :=
  .next (s.atFront core 7 (fun s r fi op =>
    let b := op.bits
    let x : Xptr := {
      colBank := bitAt b 16, colLine := s.lineAt core r 2 (field b 17 13) fi.idx, colStep := field b 44 12,
      rowBank := bitAt b 30, rowLine := s.lineAt core r 3 (field b 31 13) fi.idx, rowStep := field b 56 12 }
    some (State.advance (s.updCore core (fun c => { c with xptr := x })) core)))

/-- FENCE (Table 4.10): waits for the earlier asynchronous work that it names. -/
def execFence (core : Nat) (s : State) : Out :=
  .next (s.atFront core 8 (fun s _ _ op =>
    let c := s.core core
    if (bitAt op.bits 17 && c.drains != []) ||
      (bitAt op.bits 16 && (c.loads != [] || c.scanning.isSome || c.inits != [])) then none
    else some (s.advance core)))

/-- A counter word of a basin. -/
def State.counterWord (s : State) (n a : Nat) : Nat := Mem.rd (s.basin n) a 4

/-- PUBLISH (R119, R170): after every earlier write of the core is visible, an atomic add modulo 2^32. -/
def execPublish (core : Nat) (s : State) : Out :=
  .next (s.atFront core 9 (fun s r fi op =>
    if (s.core core).drains != [] || !s.domainLive (.basin r.cluster) then none
    else
      match s.counterAt r fi.idx op with
      | none => some (s.advance core)
      | some a =>
        let v := (s.counterWord r.cluster a + field op.bits 36 32) % 2 ^ 32
        some (State.advance (s.setBasin r.cluster (Mem.writeList (s.basin r.cluster) a (leBytes 4 v))) core)))

/-- WAITCNT (R119, R170): passes where the counter has reached the threshold, or its stripe lies outside the run; else the
core waits for WAITCNT_PASS. -/
def execWaitcnt (core : Nat) (s : State) : Out :=
  .next (s.atFront core 10 (fun s r fi op =>
    match s.counterAt r fi.idx op with
    | none => some (s.advance core)
    | some a =>
      if !s.domainLive (.basin r.cluster) then none
      else if field op.bits 36 32 ≤ s.counterWord r.cluster a then some (s.advance core)
      else some (s.updCore core (fun c => { c with waiting := some (a, field op.bits 36 32) }))))

/-- WAITCNT_PASS (R119): the counter has reached the threshold. How many cycles the wait took is the environment's: a free
value goes into TC_CNT_WAIT. -/
def execWaitcntPass (core : Nat) (s : State) : Out :=
  .next (match (s.core core).waiting with
    | some (a, v) => s.when (v ≤ s.counterWord (core / 8) a && s.coreRuns core && !s.coolantHeld) (fun s =>
        let s1 := { s with freeIdx := s.freeIdx + 1 }
        State.advance ((s1.activity .TC_CNT_WAIT core (Config.freeValue s.freeIdx)).updCore core
          (fun c => { c with waiting := none })) core)
    | none => s)

/-! ## Claims -/

/-- The records of a command that a core claims from: those of its own cluster, or the one record of a collective (R143,
R148, R151). Where two or more shards lie on one cluster, a core claims from the lowest that still has a tile; a claim that
finds none is made on the first (log 87). -/
def CmdRun.recsFor (r : CmdRun) (coll : Bool) (cluster : Nat) : List WorkRec :=
  if coll then r.recs else r.recs.filter (fun x => x.cluster = cluster)

/-- Whether a record has a tile to hand out. -/
def State.recOpen (s : State) (x : WorkRec) : Bool := decide (s.recField x 0 4 < s.recField x 8 4)

/-- Sum of the shards' partials of element `k` of tile `t`, in ascending shard order, and whether a clamp changed it
(R151, R152). -/
def State.partialSum (s : State) (c : Cmd) (base t k : Nat) : Nat → Int × Bool
  | 0 => (0, false)
  | i + 1 =>
    let v := accVal (BitVec.ofNat 32 (leVal (s.memGet (base + c.partialBase + i * c.partialPitch + t * 0x10000 + 4 * k) 4)))
    if i = 0 then (v, false)
    else
      let b := State.partialSum s c base t k i
      let r := accumulate b.1 v
      (r.1, b.2 || r.2)

/-- What a core reads for tile `t` of a collective command, as (address, length) (R151). -/
def State.collRanges (s : State) (r : Run) (base t : Nat) (idx : List Nat) : List (Nat × Nat) :=
  (List.range r.cmd.shardCount).map (fun i =>
    (base + r.cmd.partialBase + i * r.cmd.partialPitch + t * 0x10000, 65536)) ++
  (if r.cmd.collectiveDrain then (base + r.cmd.cBaseArray + 2 * t, 2) :: s.scaleRanges r.cmd r.run.bounds idx else [])

/-- The summed tile of a collective command (R151). -/
def State.collTile (s : State) (r : Run) (base t : Nat) (idx : List Nat) : Tile :=
  let sum := fun k => s.partialSum r.cmd base t k r.cmd.shardCount
  { Tile.zero with
    acc := SMap.ofFn (fun _ => 0) 16384 (fun k => accWord (sum k).1)
    base := if r.cmd.collectiveDrain then signed 16 (leVal (s.memGet (base + r.cmd.cBaseArray + 2 * t) 2)) else 0
    ovf := cells.any (fun k => (sum k).2)
    scale := if r.cmd.collectiveDrain then s.scaleRead r.cmd r.run.bounds idx else Tile.zero.scale }

/-- A core runs tile `t` of a collective command (R151): the partials are summed and the sum is drained or written. -/
def State.collectiveTile (s : State) (n : Nat) (r : Run) (t : Nat) : State :=
  let base := s.scratchBase r.cmd.ctx
  let idx := r.cmd.tileIdx r.run.bounds 0 t
  let x := s.reads (portCl (n / 8)) (s.collRanges r base t idx)
  match x.1, r.cmd.opnd 8 with
  | some st, _ => x.2.coreFaulted n st
  | none, none => x.2.updCore n Core.finish
  | none, some o =>
    let tile := s.collTile r base t idx
    let d := if r.cmd.collectiveDrain then s.drainNibs r o idx tile else (s.spillNibs r o idx tile, false)
    match s.writeStatus d.1 with
    | some st => x.2.coreFaulted n st
    | none => (x.2.handOff n 0 (tile.ovf || d.2) false d.1).updCore n Core.finish

/-- A core starts tile `t` of a record (R122, R134). Where it has run another command, issue or generation since, its LOAD
records are forgotten and loads still outstanding leave none (R118). -/
def State.startTile (s : State) (n : Nat) (c : Cmd) (run : CmdRun) (gen : Nat) (x : WorkRec) (t : Nat) : State :=
  let o := s.core n
  let same := o.ctx = c.ctx && o.cmd = c.index && o.issue = run.issue && o.gen = gen
  s.setCore n { o with
    st := .running, ctx := c.ctx, cmd := c.index, issue := run.issue, gen := gen, record := x, tile := t
    tileNo := o.tileNo + 1, started := if same then o.started + 1 else 0
    fires := (c.fires run.bounds x.shard t).map (fun y => { pc := y.1, idx := y.2 : Fire })
    kept := if same then o.kept else [], loads := if same then o.loads else o.loads.map (fun l => { l with own := false })
    inits := if same then o.inits else [], scanning := if same then o.scanning else none
    layout := if same then o.layout else (0, 0), xlayout := if same then o.xlayout else (0, 0)
    status := 0, waiting := none, loaded := if same then o.loaded else none
    slots := if same then o.slots else [], pc := 0 }

/-- A core runs the tile that it has started: a collective's in one go (R151); one without a firing is at its end (R122). -/
def State.runTile (s : State) (n : Nat) (c : Cmd) (t : Nat) : State :=
  if c.kind = 2 then
    match s.coreRun n with
    | some r => s.collectiveTile n r t
    | none => s
  else if (s.core n).fires = [] then s.updCore n Core.finish
  else s

/-- Whether a core may claim a tile: it is idle, or its last tile is past step 3 (R122). -/
def State.mayClaim (s : State) (n : Nat) : Bool :=
  ((s.core n).st == .idle || (s.core n).st == .committing) && s.seqRuns n

/-- Whether what a collective tile reads can be reached; a tile of another command reads as its program runs. -/
def State.tileReach (s : State) (n : Nat) (c : Cmd) (run : CmdRun) (t : Nat) : Bool :=
  c.kind != 2 ||
    (match s.stepOf c.ctx, s.ctxEntry c.ctx with
     | some st, some e =>
       let r : Run := { cmd := c, run := run, step := st, cluster := n / 8, accTiles := e.accTiles }
       s.reach (s.collRanges r (s.scratchBase c.ctx) t (c.tileIdx run.bounds 0 t))
     | _, _ => true) && decide ((s.core n).drains.length < 2)

/-- A claim on a record returns tile `t` of its space, below tile_count (R143). -/
def State.claimed (s : State) (n : Nat) (c : Cmd) (run : CmdRun) (x : WorkRec) : State :=
  let t := s.recField x 0 4
  if s.tileReach n c run t then
    let gen := s.recField x 4 4
    let s1 := (s.putRecField x 0 4 (t + 1)).addTo .CL_CNT_CLAIMS (n / 8) 1
    (s1.startTile n c run gen x t).runTile n c t
  else s

/-- A claim that returns no tile: the core claims no further one on this issue (R143). -/
def State.claimNone (s : State) (n ctx : Nat) (run : CmdRun) (recs : List WorkRec) : State :=
  let s1 := s.setCmdRun ctx { run with spent := run.spent ++ [n] }
  match recs with
  | x :: _ => if s.recField x 0 4 = 0xFFFFFFFF then s1 else s1.putRecField x 0 4 (s.recField x 0 4 + 1)
  | [] => s1

/-- TILE_CLAIM (R122, R143): the atomic claim returns next and adds 1 to it; a tile below tile_count is run. -/
def execTileClaim (core : Nat) (s : State) : Out :=
  .next (match s.holder (core / 8) with
    | none => s
    | some ctx =>
      (match s.cmdRun ctx, s.running ctx with
       | some run, some c =>
         let recs := run.recsFor (c.kind == 2) (core / 8)
         s.when (s.mayClaim core && !run.killed && !run.spent.contains core && !s.slu.heldIdle.contains (core / 8) &&
             recs.all s.recLive) (fun s =>
           match recs.find? s.recOpen with
           | some x => s.claimed core c run x
           | none => s.claimNone core ctx run recs)
       | _, _ => s))

/-! ## Commits -/

/-- The status of a command from its records (R144): 0x4001 where any reports it, else 0x4002, else 0x0000. -/
def State.recStatus (s : State) (recs : List WorkRec) : W16 :=
  recs.foldl (fun a x => worseStatus a (BitVec.ofNat 16 (s.recField x 22 2))) 0

/-- Mark a record complete, and commit the command with its record status once every shard is (R144). -/
def State.shardDone (s : State) (ctx : Nat) (run : CmdRun) (x : WorkRec) : State :=
  let recs := updWhere (fun y : WorkRec => y.shard = x.shard) (fun y => { y with complete := true }) run.recs
  let s1 := s.setCmdRun ctx { run with recs := recs }
  if recs.all (·.complete) then s1.cmdCommit ctx (s1.recStatus recs) else s1

/-- The port of a tile's record counts its commit, or discards one of a stale generation (R144). -/
def State.portCommit (s : State) (d : DoneTile) : State :=
  let x := d.record
  if s.recField x 4 4 ≠ d.gen then s.count .CL_CNT_STALE x.cluster
  else
    let k := s.recField x 12 4 + 1
    let old := BitVec.ofNat 16 (s.recField x 22 2)
    let s1 := ((s.putRecField x 12 4 k).putRecField x 22 2 (worseStatus old d.status).toNat).addTo .CL_CNT_COMMITS
      x.cluster 1
    match s.cmdRun d.ctx with
    | some run => if k = s.recField x 8 4 then s1.shardDone d.ctx run x else s1
    | none => s1

/-- TILE_COMMIT (R122, R144): the commit of the oldest tile past step 3, every write of which is visible, reaches its port.
The core is idle where it has not started another. -/
def execTileCommit (core : Nat) (s : State) : Out :=
  .next (
    let c := s.core core
    match c.done with
    | d :: ds => s.when (c.sent d && s.coreRuns core && s.recLive d.record) (fun s =>
        let st := if ds = [] && c.st == .committing then .idle else c.st
        State.portCommit (s.setCore core { c with done := ds, st := st, lastStatus := d.status }) d)
    | [] => s)

/-! ## Kills and faults of a core -/

/-- CORE_IDLE (R126): a killed core discards its tiles and LOAD records and is idle. -/
def execCoreIdle (core : Nat) (s : State) : Out :=
  .next (s.when ((s.core core).st == .killing && s.coreRuns core) (fun s =>
    (s.updCore core (fun c => { c with
      st := .idle, fires := [], loads := [], kept := [], inits := [], scanning := none, slots := [], loaded := none
      waiting := none })).count .TC_CNT_KILL core))

/-- CORE_FAULT (R105, R127): a parity error of a store, or an access fault, stops a running core. -/
def execCoreFault (core : Nat) (status : W16) (s : State) : Out :=
  .next (s.when (((s.core core).st == .running || (s.core core).st == .committing) && s.coreRuns core &&
      [Status.operandParity, Status.accParity, Status.addrReserved, Status.addrAbsent, Status.addrRegister,
        Status.poisonMade, Status.poisonRead].contains status) (fun s => s.coreFaulted core status))

/-- TC_FAULT_READ (R8, R127): the read returns TC_FAULT and clears it, but for an event in the same cycle; a halted core
is idle again. -/
def execTcFaultRead (core : Nat) (event : W64) (s : State) : Out :=
  .next (s.when (corePresent s.dev.part core) (fun s =>
    let v := s.reg .TC_FAULT core 0
    let s1 := (s.setReg .TC_FAULT core 0 (event &&& 0x3FFFFF#64)).send (.completion 0 .ok (leBytes 4 v.toNat))
    if (s.core core).st == .halted then s1.updCore core (fun c => { c with st := .idle }) else s1))

end Sys2Proof.Machine
end

