-- ==== Sys2Proof/Machine/IssueCmds.lean ====
section
/-! DEFINITION. Issue, kill and re-issue of array and collective commands (R124, R137 to R142, R145, R146, R148, R153,
R154, R159, R160, R171, R172, R304). -/

set_option Elab.async false

namespace Sys2Proof.Machine

/-! ## Bounds and dimensions -/

/-- What a read at issue finds. -/
inductive Found (α : Type) where
  | ok (a : α)
  | fault (st : W16) (bound : Option (Nat × Nat))
  deriving DecidableEq, Repr

/-- The status with which Sluice's read of a 32-bit word at issue faults, if any. -/
def State.wordStatus (s : State) (a : Nat) : Option W16 := (s.reads portSluice [(a, 4)]).1

/-- Read the bounds, level 1 first (R137); `l` is the number of the first level of the list. A bound above its maximum is
0x2011 with its value and level. -/
def State.readBounds (s : State) (items : Nat) : Nat → List Level → Found (List Nat)
  | _, [] => .ok []
  | l, x :: xs =>
    let rest := fun (v : Nat) =>
      if x.maxBound < v then Found.fault Status.indirectBound (some (v, l))
      else
        match State.readBounds s items (l + 1) xs with
        | .ok vs => .ok (v :: vs)
        | .fault st b => .fault st b
    match x.boundSrc with
    | 1 => rest items
    | 2 =>
      (match s.wordStatus x.boundAddr with
       | some st => .fault st none
       | none => rest (leVal (s.memGet x.boundAddr 4)))
    | _ => rest x.bound

/-- The dimensions of R160: those of the block, or of the dimension word. -/
def State.readDims (s : State) (w : Window6) : Found (Nat × Nat) :=
  if !w.indirect then .ok (w.inW, w.inH)
  else
    match s.wordStatus w.dimsAddr with
    | some st => .fault st none
    | none =>
      let v := leVal (s.memGet w.dimsAddr 4)
      if w.inW < v % 65536 then .fault Status.indirectBound (some (v % 65536, 0))
      else if w.inH < v / 65536 then .fault Status.indirectBound (some (v / 65536, 0))
      else .ok (v % 65536, v / 65536)

/-- The words that Sluice reads at a first issue, as (address, length). -/
def Cmd.issueWords (c : Cmd) : List (Nat × Nat) :=
  (c.levels.filter (fun x => x.boundSrc = 2)).map (fun x => (x.boundAddr, 4)) ++
    (match c.window with
     | some w => if w.indirect then [(w.dimsAddr, 4)] else []
     | none => [])

/-- The bounds with the M level's as R161 gives it: ceil(hf x wf x Gs / 128), but in a stripe run. -/
def Cmd.setMBound (c : Cmd) (w h : Nat) (bounds : List Nat) : List Nat :=
  match c.window with
  | some x =>
    if x.stripe then bounds
    else
      let g := x.geo w h
      ((c.levels.zip bounds).map (fun y => if y.1.dim = 0 then ceilDiv (g.vert.fin * g.horz.fin * g.gs) 128 else y.2))
  | none => bounds

/-- Everything that Sluice reads at a first issue (R137, R160). -/
def State.readIssue (s : State) (c : Cmd) (items : Nat) : Found (List Nat × Nat × Nat) :=
  match s.readBounds items 1 c.levels with
  | .fault st b => .fault st b
  | .ok bs =>
    match c.window with
    | none => .ok (bs, 0, 0)
    | some w =>
      (match s.readDims w with
       | .fault st b => .fault st b
       | .ok (a, b) => .ok (c.setMBound a b bs, a, b))

/-- The status of an empty issue, if it is one (R138, R159, R160): 0x1041 for an empty map, as an input dimension of 0 gives,
0x1040 for an empty tile space. -/
def Cmd.emptyStatus (c : Cmd) (bounds : List Nat) (w h : Nat) : Option W16 :=
  let emptyMap := match c.window with
    | some x => w == 0 || h == 0 || (x.geo w h).vert.fin == 0 || (x.geo w h).horz.fin == 0
    | none => false
  if emptyMap then some Status.emptyWindow
  else if (bounds.take c.tileLevels).any (fun b => b = 0) then some Status.emptyTileSpace
  else none

/-! ## Footprints, overlaps and write windows -/

/-- The part of a footprint that the levels give (R139). -/
def Cmd.levelSpan (c : Cmd) (o : Opnd) (bounds : List Nat) (skip : Nat) (skipM : Bool) : Nat :=
  ((indexed c.levels).map (fun x =>
    if (x.2.kind = 2 ∧ o.role ≤ 3) ∨ (o.indirect ∧ x.2.dim = 3) ∨ (skipM ∧ x.2.dim = 0) ∨ x.1 + 1 = skip then 0
    else (bounds.getD x.1 0 - 1) * (o.stride.getD x.1 0).natAbs)).foldl (· + ·) 0

/-- The footprint of an output in its units (R139, R162). -/
def Cmd.outFootprint (c : Cmd) (o : Opnd) (bounds : List Nat) (w h : Nat) : Nat :=
  let chan := 127 * o.chan.natAbs + 1
  match c.window with
  | some x =>
    let g := x.geo w h
    c.levelSpan o bounds 0 true + (g.vert.fin - 1) * x.outRow + (g.horz.fin - 1) * o.pos.natAbs + chan
  | none => c.levelSpan o bounds 0 false + 127 * o.pos.natAbs + chan

/-- The footprint that one LOAD gives of its operand (R139, R165), in the operand's units. -/
def Cmd.loadFootprint (c : Cmd) (o : Opnd) (op : Op) (bounds : List Nat) (w h : Nat) : Nat :=
  let rows := field op.bits 34 14
  let lines := field op.bits 48 13 + 1
  let level := field op.bits 61 3
  let unitsPerLine := if o.role ≤ 1 then 128 else 64
  if level = 7 then
    let x := c.window
    let planes := match x with
      | some y => if o.role = 2 then ceilDiv y.inC 32 else ceilDiv y.inC (elemsPerSlot c.colFmt) * planesOf c.colFmt
      | none => 1
    c.levelSpan o bounds 0 true + (match x with
      | some y => (planes - 1) * y.memPlane + (h - 1) * y.memRow + w
      | none => 1)
  else
    let pitch := if level = 0 then lines * unitsPerLine else (o.stride.getD (level - 1) 0).natAbs
    c.levelSpan o bounds level false + rows * pitch + lines * unitsPerLine

/-- The footprint of an input: the largest that any LOAD of it gives; a partial of INIT mode 1 is one tile (R139). -/
def Cmd.inFootprint (c : Cmd) (o : Opnd) (bounds : List Nat) (w h : Nat) : Nat :=
  if o.role = 4 then c.levelSpan o bounds 0 false + 65536
  else ((c.prog.filter (fun op => op.opcode = 1 && field op.bits 16 4 = o.role)).map
    (fun op => c.loadFootprint o op bounds w h)).foldl max 0

/-- The nibbles in a unit of an output of this program: bytes where a SPILL writes it (R132). -/
def Cmd.writeUnit (c : Cmd) (o : Opnd) : Nat :=
  if c.prog.any (fun op => op.opcode = 6 && 8 + field op.bits 19 2 = o.role) then 2 else c.outUnit

/-- Bytes from an origin for a footprint of units of `unit` nibbles (R139). -/
def extentBytes (footprint unit : Nat) : Nat := ceilDiv (footprint * unit) 2

/-- Byte ranges [lo, hi) of the outputs of a command at given bounds. The map of a windowed command is taken at the declared
maximum of its dimensions (R162). -/
def State.outRanges (s : State) (c : Cmd) (n : Nat) (bounds : List Nat) : List (Nat × Nat) :=
  (c.opnds.filter (fun o => 8 ≤ o.role)).map (fun o =>
    let a := s.spaceAddr c.ctx n o.space o.base
    (a, a + extentBytes (c.outFootprint o bounds ((c.window.map (·.inW)).getD 0) ((c.window.map (·.inH)).getD 0))
      (c.writeUnit o)))

/-- Byte ranges of its item-indirect inputs, one for each item. -/
def Cmd.indirectRanges (c : Cmd) (items : List Item) (bounds : List Nat) (w h : Nat) : List (Nat × Nat) :=
  (c.opnds.filter (fun o => o.indirect)).flatMap (fun o =>
    items.map (fun it => (it.addr, it.addr + extentBytes (c.inFootprint o bounds w h) (inUnit o.role))))

/-- Whether an item-indirect input overlaps an output at issue (R140). -/
def State.overlapAtIssue (s : State) (c : Cmd) (n : Nat) (items : List Item) (bounds : List Nat) (w h : Nat) : Bool :=
  (c.indirectRanges items bounds w h).any (fun a => (s.outRanges c n bounds).any (fun b =>
    decide (a.1 < b.2) && decide (b.1 < a.2)))

/-- The declared maxima of a command's levels. -/
def Cmd.maxBounds (c : Cmd) : List Nat := c.levels.map (·.maxBound)

/-- The write windows of a command (R124, R139): its DRAM outputs at declared maxima, and their base arrays. -/
def State.windowsOf (s : State) (c : Cmd) (n : Nat) : List Window :=
  let w := (c.window.map (·.inW)).getD 0
  let h := (c.window.map (·.inH)).getD 0
  (c.opnds.filter (fun o => 8 ≤ o.role && o.space != 1)).flatMap (fun o =>
    let a := s.spaceAddr c.ctx n o.space o.base
    let b := s.spaceAddr c.ctx n o.space o.baseArray
    { ctx := c.ctx, cmd := c.index, lo := a, hi := a + extentBytes (c.outFootprint o c.maxBounds w h) (c.writeUnit o) } ::
      (if o.bases then [{ ctx := c.ctx, cmd := c.index, lo := b, hi := b + 2 * c.tileCount c.maxBounds }] else []))

/-! ## Issue -/

/-- The shards of a command and where their records lie (R142, R148). -/
def State.recsOf (s : State) (c : Cmd) (n : Nat) (bounds : List Nat) : List WorkRec :=
  let cl := s.maskClusters c.ctx
  let at_ := fun (k : Nat) => 65536 * SMap.get (fun _ => 0) (s.ctxRun c.ctx).place k
  if c.shard then
    (List.range (bounds.getD 0 0)).map (fun k =>
      let m := cl.getD (k % cl.length) 0
      { cluster := m, shard := k, addr := at_ m + c.counterOff + 64 * (k / cl.length), complete := false })
  else [{ cluster := n, shard := 0, addr := at_ n + c.counterOff, complete := false }]

/-- Write the work-counter records (R142). -/
def State.writeRecs (s : State) (c : Cmd) (gen tiles : Nat) : List WorkRec → State
  | [] => s
  | r :: rs =>
    State.writeRecs (s.setBasin r.cluster (Mem.writeList (s.basin r.cluster) r.addr
      (leBytes 4 0 ++ leBytes 4 gen ++ leBytes 4 tiles ++ leBytes 4 0 ++ leBytes 2 c.ctx ++ leBytes 2 c.index
        ++ leBytes 1 r.shard ++ leBytes 1 0 ++ leBytes 2 0 ++ List.replicate 40 0))) c gen tiles rs

/-- Write the row-ready block of one cluster (R170, R171): 0xFFFF_FFFF below rr_preset, 0 for the rest, in every stripe. -/
def State.presetRows (s : State) (c : Cmd) (n : Nat) (bounds : List Nat) : State :=
  match c.window with
  | none => s
  | some w =>
    if c.rrOff = 0xFFFFFFFF then s
    else
      let stripes := if w.stripe then bounds.getD 0 1 else 1
      let words := (List.range stripes).flatMap (fun _ => (List.range w.rrWords).flatMap (fun k =>
        leBytes 4 (if k < w.rrPreset then 0xFFFFFFFF else 0)))
      s.setBasin n (Mem.writeList (s.basin n)
        (65536 * SMap.get (fun _ => 0) (s.ctxRun c.ctx).place n + c.rrOff) words)

/-- The same for each cluster that runs the command. -/
def State.presetAll (s : State) (c : Cmd) (bounds : List Nat) : List Nat → State
  | [] => s
  | n :: ns => State.presetAll (s.presetRows c n bounds) c bounds ns

/-- The clusters that hold records of a command: those that run it (R142, R148). -/
def recClusters (recs : List WorkRec) : List Nat := recs.foldl (fun l r => putOnce r.cluster l) []

/-- Idle cores of a cluster (R304). -/
def State.idleCores (s : State) (n : Nat) : Nat :=
  ((List.range 8).filter (fun k => corePresent s.dev.part (8 * n + k) && (s.core (8 * n + k)).st == .idle)).length

/-- Whether a stripe run has the idle cores that it needs (R172, R304). -/
def State.stripesFit (s : State) (c : Cmd) (n : Nat) (bounds : List Nat) : Bool :=
  match c.window with
  | some w => !w.stripe || decide (bounds.getD 0 1 ≤ s.idleCores n)
  | none => true

/-- Put the issue of a command in force: counter blocks, records, and the group of a sharded one, clusters c(0) to c(S - 1)
of its own S (R142, R154, R171). -/
def State.putIssue (s : State) (c : Cmd) (n issue gen : Nat) (bounds : List Nat) (w h : Nat) : State :=
  let recs := s.recsOf c n bounds
  let s1 := (s.presetAll c bounds (recClusters recs)).writeRecs c gen (c.tileCount bounds) recs
  let s2 := s1.setCmdRun c.ctx
    { cmd := c.index, issue := issue, gen := gen, bounds := bounds, w := w, h := h, recs := recs, killed := false,
      spent := [] }
  if c.shard then
    State.sprintCheck { s2 with slu := { s2.slu with
      groups := s2.slu.groups.filter (fun g => g.1 != c.ctx) ++ [(c.ctx, (s2.maskClusters c.ctx).take c.shards)] } }
  else s2

/-- Record the windows, if the table of 256 has room; else count the delay once (R124). -/
def State.withWindows (s : State) (c : Cmd) (st : StepRun) (f : State → State) : State :=
  let ws := s.windowsOf c st.cluster
  let s1 := s.dropWindows c.ctx c.index
  if 256 < s1.dram.windows.length + ws.length then
    if st.delayed then s
    else (s.updCtxRun c.ctx (fun x => { x with step := some { st with delayed := true } })).count .SLUICE_CNT_WINWAIT 0
  else
    f ({ s1 with dram := { s1.dram with windows := s1.dram.windows ++ ws } }.updCtxRun c.ctx (fun x =>
      { x with step := some { st with delayed := false } }))

/-- A bound fault counts in each cluster with a record of the command (R155). -/
def State.countBound (s : State) (last : Option Nat) : List Nat → State
  | [] => s
  | n :: ns =>
    let s1 := s.count .CL_CNT_BOUNDFLT n
    State.countBound (match last with
      | some v => s1.setReg .CL_LAST_BOUNDFLT n 0 (BitVec.ofNat 64 v)
      | none => s1) last ns

/-- A fault at issue for a bound, a dimension or an overlap (R137, R140, R155). -/
def State.boundFault (s : State) (c : Cmd) (cluster : Nat) (st : W16) (b : Option (Nat × Nat)) : State :=
  let cls := recClusters (s.recsOf c cluster (c.levels.map (·.bound)))
  let last := b.map (fun x => x.1 * 2 ^ 32 + x.2 * 2 ^ 28 + c.ctx % 4096 * 65536 + c.index % 65536)
  (if st = Status.indirectBound ∨ st = Status.operandOverlap then s.countBound last cls else s).cmdFault c.ctx st

/-- Keep bounds and dimensions for the rest of the step (R137, R160). -/
def State.keepIssue (s : State) (ctx : Nat) (k : Kept) : State :=
  s.updCtxRun ctx (fun x => match x.step with
    | some st => { x with step := some { st with kept := st.kept.filter (fun y => y.cmd != k.cmd) ++ [k] } }
    | none => x)

/-- Issue a command for the first time in its step, with bounds read (R137 to R142). The first generation of an instance
is a free value: the spec numbers them from no stated start. -/
def State.issueFirst (s : State) (c : Cmd) (st : StepRun) (bounds : List Nat) (w h : Nat) : State :=
  match c.emptyStatus bounds w h with
  | some e => s.cmdCommit c.ctx e
  | none =>
    if s.overlapAtIssue c st.cluster st.items bounds w h then
      s.boundFault c st.cluster Status.operandOverlap none
    else if !s.stripesFit c st.cluster bounds || !(s.recsOf c st.cluster bounds).all s.recLive then s
    else
      s.withWindows c st (fun s =>
        let gen := Config.freeValue s.freeIdx % 2 ^ 32
        let s1 := { s with freeIdx := s.freeIdx + 1 }.keepIssue c.ctx
          { cmd := c.index, bounds := bounds, w := w, h := h, issue := s.freeIdx, gen := gen }
        s1.putIssue c st.cluster s.freeIdx gen bounds w h)

/-- Issue a command again that has committed or been killed in this step: a collective after its sharded command's new
run (R137, R153). -/
def State.issueAgain (s : State) (c : Cmd) (st : StepRun) (k : Kept) : State :=
  if !s.stripesFit c st.cluster k.bounds || !(s.recsOf c st.cluster k.bounds).all s.recLive then s
  else
    s.withWindows c st (fun s =>
      let gen := (k.gen + 1) % 2 ^ 32
      (s.keepIssue c.ctx { k with gen := gen }).putIssue c st.cluster k.issue gen k.bounds k.w k.h)

/-- Whether a context holds what its step needs, with its slice running, and Sluice issues (R299, R303, R373). -/
def State.holdsAll (s : State) (ctx : Nat) (st : StepRun) : Bool :=
  (s.needs ctx st.cluster).all (fun n => s.holder n == some ctx && !s.slu.heldIdle.contains n) && !s.coolantHeld

/-- Whether every core that ran a context's command is idle, its writes are visible, and its commits have reached their
ports (R146). A new command waits for the same, so that nothing of a faulted one lands after it (R17). -/
def State.coresQuiet (s : State) (ctx : Nat) : Bool :=
  s.slu.cores.all (fun x =>
    (x.2.ctx != ctx || (x.2.st != .running && x.2.st != .killing && x.2.st != .committing)) &&
    x.2.drains.all (fun d => d.ctx != ctx) && x.2.done.all (fun d => d.ctx != ctx))

/-- Sluice reads a record and its words, and issues the command or faults it (R127, R137, R328). -/
def State.issueRead (s : State) (ctx a : Nat) (c : Cmd) (st : StepRun) : State :=
  let r := s.reads portSluice [(a, s.dramRd (a + 4) 4)]
  match r.1, st.kept.find? (fun k => k.cmd = c.index) with
  | some w, _ => r.2.cmdFault ctx w
  | none, some k => r.2.issueAgain c st k
  | none, none =>
    let s1 := (r.2.reads portSluice c.issueWords).2
    match r.2.readIssue c st.items.length with
    | .fault w b => s1.boundFault c st.cluster w b
    | .ok (bounds, w, h) => s1.issueFirst c st bounds w h

/-- COMMAND_ISSUE (R137): the next command of a context's step. A fault kept from a bring-in strikes it (R328). -/
def execCommandIssue (ctx : Nat) (s : State) : Out :=
  .next (match s.stepOf ctx with
    | none => s
    | some st =>
      s.when ((s.cmdRun ctx).isNone && s.holdsAll ctx st && s.coresQuiet ctx) (fun s =>
        match (s.ctxRun ctx).fault, s.recordAt ctx st.cmd (s.stepOld ctx), s.cmdAt ctx st.cmd (s.stepOld ctx) with
        | some w, _, _ => s.cmdFault ctx w
        | none, some a, some c =>
          s.when (s.reach ((a, s.dramRd (a + 4) 4) :: c.issueWords)) (fun s => s.issueRead ctx a c st)
        | none, _, _ => s))

/-! ## Kill and re-issue -/

/-- COMMAND_KILL (R145, R153): the records are closed and the cores killed, unless a shard had completed. -/
def execCommandKill (ctx : Nat) (s : State) : Out := .next (s.killCmd ctx)

/-- The sharded command that a collective combines: the nearest before it in the list (R150, R153). -/
def State.shardedOf (s : State) (ctx : Nat) (st : StepRun) (c : Cmd) : Option (Cmd × Kept) :=
  ((st.kept.filter (fun k => decide (k.cmd < c.index))).filterMap (fun k =>
    match s.cmdAt ctx k.cmd (s.stepOld ctx) with
    | some x => if x.shard then some (x, k) else none
    | none => none)).foldl (fun a x => match a with
      | some y => if y.2.cmd < x.2.cmd then some x else some y
      | none => some x) none

/-- Run a killed command again, in the generation that the close set, with the bounds read at its first issue (R146). -/
def State.runAgain (s : State) (c : Cmd) (st : StepRun) (k : Kept) : State :=
  if s.stripesFit c st.cluster k.bounds && (s.recsOf c st.cluster k.bounds).all s.recLive then
    (s.keepIssue c.ctx k).putIssue c st.cluster k.issue k.gen k.bounds k.w k.h
  else s

/-- COMMAND_REISSUE (R146): the killed command again; a killed collective with its sharded command, from that one on, in a
new generation of both (R153). -/
def execCommandReissue (ctx : Nat) (s : State) : Out :=
  .next (match s.stepOf ctx, s.cmdRun ctx, s.running ctx with
    | some st, some run, some c =>
      s.when (run.killed && s.coresQuiet ctx && s.holdsAll ctx st) (fun s =>
        let k : Kept :=
          { cmd := run.cmd, bounds := run.bounds, w := run.w, h := run.h, issue := run.issue, gen := run.gen }
        match (if c.kind = 2 then s.shardedOf ctx st c else none) with
        | some (x, j) =>
          if (s.recsOf x st.cluster j.bounds).all s.recLive then
            let st1 := { st with cmd := x.index }
            let s1 := (s.updCtxRun ctx (fun y => { y with step := some st1 })).keepIssue ctx k
            s1.withWindows x { st1 with kept := st1.kept.filter (fun y => y.cmd != k.cmd) ++ [k] } (fun s =>
              (s.dropCmdRun ctx).runAgain x st1 { j with gen := (j.gen + 1) % 2 ^ 32 })
          else s
        | none => s.runAgain c st k)
    | _, _, _ => s)

end Sys2Proof.Machine
end

