-- ==== Sys2Proof/Machine/SluiceCmds.lean ====
section
/-! DEFINITION. Sluice: steps and their items (R284 to R289, R306 to R308, R69, R70, R224 to R226), slices and preemption
(R298 to R303), residency (R290 to R297), copies of op 0 (R309, R310). -/

set_option Elab.async false

namespace Sys2Proof.Machine

/-! ## STEP_START -/

/-- Whether a frame is stale at a model stage (R224, R225). -/
def State.stale (s : State) (it : Item) : Bool :=
  match s.rillClass (s.rill it.rill).cls with
  | some k =>
    k.staleUs != 0 &&
      decide (k.staleUs * 1000 < (if s.deterministic then it.clock else s.nowNs) - it.captureTs)
  | none => false

/-- The fallback entries of a primary context: those in service for new frames, then those for old ones (R51, R68). -/
def State.fbEntries (s : State) (ctx : Nat) : List FbEntry × List FbEntry :=
  match s.segRun ctx with
  | some g => (g.fbs.filter (fun f => f.primary = ctx), g.oldFbs.filter (fun f => f.primary = ctx))
  | none => (s.ldr.image.fbs.filter (fun f => f.primary = ctx), s.ldr.image.fbs.filter (fun f => f.primary = ctx))

/-- The fallback entry of a primary context, in the version that serves the item (R51, R307). -/
def State.fbEntry (s : State) (ctx : Nat) (it : Item) : Option FbEntry :=
  (if s.oldFor ctx it.captureTs it.stamp then (s.fbEntries ctx).2 else (s.fbEntries ctx).1).head?

/-- Whether an item is late at a context (R306). Its next step starts now, so P is now plus E. -/
def State.late (s : State) (e : CtxEntry) (it : Item) : Bool :=
  e.budgetUs != 0 &&
    decide ((e.budgetUs * 1000 : Nat) <
      (if s.deterministic then (it.clock : Int) else (s.nowNs : Int) + (s.ctxRun e.id).estNs) - it.captureTs)

/-- Where an item goes (R285). -/
inductive Route where
  | drop | away (fb : Nat) (switch : Option (Nat × Nat)) | wait | join
  deriving DecidableEq, Repr

/-- Items 1 to 4 of R285 for one item; `anyOld` says that the candidates hold items of the old segment (R69). `switch`
gives the frames of a hold that starts here, its first and the one after its last (R307). -/
def State.route (s : State) (e : CtxEntry) (anyOld : Bool) (it : Item) : Route :=
  let held := (s.rill it.rill).holds.any (fun h => h.1 = e.id && decide (h.2.1 ≤ it.frame) && decide (it.frame < h.2.2))
  let here := if anyOld && !s.oldFor e.id it.captureTs it.stamp then Route.wait else .join
  if s.swapHolds e.id it.captureTs then .wait
  else if s.stale it then .drop
  else
    match (if it.fallback then none else s.fbEntry e.id it) with
    | some fb =>
      if held then .away fb.fallback none
      else if s.late e it then .away fb.fallback (some (it.frame, it.frame + fb.hold))
      else here
    | none => here

/-- The order of R285. -/
def itemLe (a b : Item) : Bool :=
  lexLe [a.captureTs, a.rill, a.frame, a.region, a.track] [b.captureTs, b.rill, b.frame, b.region, b.track]

/-- Enter an item in a context's queue. -/
def State.enqueue (s : State) (ctx : Nat) (it : Item) : State :=
  s.updCtxRun ctx (fun x => { x with queue := x.queue ++ [it] })

/-- A stale item is dropped; the rill counts the frame once for a stage (R226). -/
def State.dropStale (s : State) (ctx : Nat) (it : Item) (counted : Bool) : State :=
  let s1 := s.itemGone ctx it .stale
  if counted then s1
  else s1.updRill it.rill (fun r => { r with staleDropped := satNat 0xFFFFFFFF (r.staleDropped + 1) })

/-- A new hold replaces an earlier one of the rill at the primary (R307). -/
def Rill.hold (r : Rill) (ctx : Nat) (frames : Nat × Nat) : Rill :=
  { r with holds := r.holds.filter (fun h => h.1 != ctx) ++ [(ctx, frames)] }

/-- An item moves to the fallback context (R307, R308). -/
def State.moveAway (s : State) (ctx fb : Nat) (it : Item) (sw : Option (Nat × Nat)) : State :=
  let s1 := match sw with
    | some e => (s.updRill it.rill (fun r => r.hold ctx e)).count .SLUICE_CNT_FALLBACK 0
    | none => s
  let s2 := (s1.updFlow it.rill it.frame (fun f => { f with fallback := true })).updCtxRun fb (fun x =>
    { x with receiving := true })
  s2.enqueue fb { it with fallback := true }

/-- A selection in progress: the state, the items taken and those left, and the last frame dropped. -/
structure Pick where
  s : State
  taken : List Item
  left : List Item
  dropped : Option (Nat × Nat)
  deriving DecidableEq, Repr

/-- R285 over the items in order, until `e.maxBatch` have joined. -/
def pickItems (e : CtxEntry) (anyOld : Bool) : List Item → Pick → Pick
  | [], p => p
  | it :: its, p =>
    if e.maxBatch ≤ p.taken.length then pickItems e anyOld its { p with left := p.left ++ [it] }
    else
      pickItems e anyOld its (match p.s.route e anyOld it with
        | .drop => { p with
            s := p.s.dropStale e.id it (p.dropped == some (it.rill, it.frame)), dropped := some (it.rill, it.frame) }
        | .away fb sw => { p with s := p.s.moveAway e.id fb it sw }
        | .wait => { p with left := p.left ++ [it] }
        | .join => { p with taken := p.taken ++ [it] })

/-- Mark contexts as receiving no items as fallbacks. -/
def State.stopReceiving (s : State) : List FbEntry → State
  | [] => s
  | f :: fs => State.stopReceiving (s.updCtxRun f.fallback (fun x => { x with receiving := false })) fs

/-- Holds that end with the frames that a step takes are over; fallback contexts that no rill's hold names any more receive
no items as fallbacks (Table 11.6). -/
def State.dropReceiving (s : State) (ctx : Nat) (taken : List Item) : State :=
  let s1 := taken.foldl (fun (a : State) it => a.updRill it.rill (fun r =>
    { r with holds := r.holds.filter (fun h => h.1 != ctx || decide (it.frame < h.2.2)) })) s
  if s1.ing.rills.any (fun x => x.2.holds.any (fun h => h.1 = ctx)) then s1
  else s1.stopReceiving ((s1.fbEntries ctx).1 ++ (s1.fbEntries ctx).2)

/-- R285 over a context's queue: what it takes when no limit holds decides whether items of the old segment are among the
candidates, so that those of the new one wait (R69). -/
def State.pick (s : State) (e : CtxEntry) (q : List Item) : Pick :=
  let s0 := s.updCtxRun e.id (fun y => { y with queue := [] })
  let p0 : Pick := { s := s0, taken := [], left := [], dropped := none }
  let all := pickItems { e with maxBatch := q.length } false q p0
  pickItems e (all.taken.any (fun it => s.oldFor e.id it.captureTs it.stamp)) q p0

/-- STEP_START (R284 to R286): selection, and the step of what it takes. A selection that takes nothing starts none. -/
def execStepStart (ctx cluster : Nat) (s : State) : Out :=
  .next (match s.ctxEntry ctx with
    | none => s
    | some e =>
      let x := s.ctxRun ctx
      s.when (e.kind = 2 && x.step.isNone && x.queue != [] && !s.headsUnread ctx && !s.coolantHeld &&
          (s.needs ctx cluster).all (fun n => s.holder n == some ctx && !s.slu.heldIdle.contains n) &&
          (s.needs ctx cluster).contains cluster) (fun s =>
        let p := s.pick e (sortBy itemLe x.queue)
        let s1 := p.s.updCtxRun ctx (fun y => { y with queue := p.left ++ y.queue })
        let s2 := if e.sharded || p.taken = [] then s1
          else s1.updCtxRun ctx (fun y => { y with next := s1.nextCluster ctx cluster })
        let n := if e.sharded then (s.needs ctx cluster).headD cluster else cluster
        let st : StepRun :=
          { cluster := n, items := p.taken, cmd := 0, startNs := s.nowNs, kept := [], delayed := false }
        let s3 := if p.taken = [] then s2 else s2.updCtxRun ctx (fun y => { y with step := some st })
        let s4 := State.settle (s3.dropReceiving ctx p.taken)
        State.schedule (if p.taken = [] then s4.yieldLanes (s4.ctxRun ctx).holds else s4)))

/-! ## SLICE_END -/

/-- The key of a lane. -/
def laneKey : Lane → Nat
  | .cluster n => n
  | .track n => 16 + n
  | .copy n => 64 + n

/-- Whether a slice of a lane has run out (R298). -/
def State.sliceOver (s : State) (key : Nat) : Bool :=
  match SMap.find? s.slu.slices key with
  | some t => decide (t ≤ s.nowNs) && !s.coolantHeld
  | none => false

/-- Whether another context of equal or higher priority is runnable on a cluster (R299). -/
def State.rival (s : State) (n ctx : Nat) : Bool :=
  match s.ctxEntry ctx with
  | some h => s.ldr.image.ctxs.any (fun e =>
      e.kind = 2 && e.id != ctx && decide (h.priority ≤ e.priority) && s.eligible n e)
  | none => false

/-- Whether another context of equal or higher priority wants a lane of the track or copy engine (R299). -/
def State.laneRival (s : State) (e : CtxEntry) (key : Nat) : Bool :=
  (s.laneOrder e.kind key).any (fun x => x.id != e.id && decide (e.priority ≤ x.priority))

/-- The end of a slice on a lane of the track or copy engine: inside a track command the overrun begins (R302); else the lane
goes to a rival, a move on it being killed, or the slice starts again (R282, R299, R300). -/
def State.laneEnd (s : State) (c key : Nat) : State :=
  match s.ctxEntry c with
  | none => s.yieldLane key
  | some e =>
    if key < 64 && s.laneBusy key then
      State.count { s with slu := { s.slu with ended := s.slu.ended ++ [key] } } .SLUICE_CNT_OVERRUN 0
    else if s.laneRival e key then (if 64 ≤ key then s.preemptCtx c else s.yieldLane key)
    else if s.laneBusy key || s.wantsLane e then s.startSlice c [key]
    else s.yieldLane key

/-- SLICE_END (R298 to R303): the cluster goes to a rival, or the slice starts again. A cluster held idle for its group has
no slice. -/
def execSliceEnd (lane : Lane) (s : State) : Out :=
  .next (
    let key := laneKey lane
    match s.holder key with
    | none => s
    | some c =>
      s.when (s.sliceOver key && !s.slu.ended.contains key && !s.slu.heldIdle.contains key) (fun s =>
        if key < 4 then
          let g := (s.ctxRun c).holds
          if g.any (fun n => s.rival n c) then State.grantFree (s.preemptCtx c) g else s.startSlice c g
        else s.laneEnd c key))

/-! ## Residency -/

/-- Make a context resident at its places. -/
def State.settleIn (s : State) (ctx n : Nat) (p : Nat × List Nat × Nat) : State :=
  s.updCtxRun ctx (fun x => { x with
    place := SMap.insert x.place n p.1, slots := SMap.insert x.slots n p.2.1, line0 := SMap.insert x.line0 n p.2.2,
    residentNs := SMap.insert x.residentNs n s.nowNs, blockedNs := s.nowNs, moving := none })

/-- BRING_IN (R295): a waiting context that fits without an eviction. -/
def execBringIn (ctx cluster : Nat) (s : State) : Out :=
  .next (match s.ctxEntry ctx with
    | none => s
    | some e =>
      s.when (s.waitsFor e cluster && !s.coolantHeld) (fun s =>
        match s.roomFor e cluster with
        | some (a, b, c) => s.updCtxRun ctx (fun x => { x with
            moving := some { cluster := cluster, out := none, place := a, slots := b, line := c } })
        | none => s))

/-- The address of byte `off` of the space after the context records in the regions of kind 4, in ascending order of base:
the model's layout of the save areas (R281, R293; log 37). -/
def saveAddr : List Region → Nat → Nat
  | [], off => off
  | r :: rs, off => if off < r.size then r.base + off else saveAddr rs (off - r.size)

/-- The regions of kind 4 by base. -/
def Image.saveRegions (i : Image) : List Region :=
  sortBy (fun a b => decide (a.base ≤ b.base)) (i.regions.filter (fun r => r.kind = 4))

/-- The offset of a context's saved share for cluster `n`: one share for each present cluster of its mask, contexts in
ascending identifier (log 37). -/
def State.saveOffset (s : State) (ctx n : Nat) : Nat :=
  let before := s.ldr.image.ctxs.filter (fun e => e.kind = 2 && !e.pinned && decide (e.id < ctx))
  524288 + (before.map (fun e => e.basinKib * 1024 * (s.maskClusters e.id).length)).foldl (· + ·) 0 +
    (match s.ctxEntry ctx with
     | some e => e.basinKib * 1024 * ((s.maskClusters ctx).filter (fun k => decide (k < n))).length
     | none => 0)

/-- The ranges of a saved share of `k` blocks. -/
def State.saveRanges (s : State) (ctx n k : Nat) : List (Nat × Nat) :=
  (List.range k).map (fun i => (saveAddr s.ldr.image.saveRegions (s.saveOffset ctx n + 64 * i), 64))

/-- Save `k` 64-byte blocks of a share (R292). -/
def State.saveBlocks (s : State) (ctx n : Nat) : Nat → State
  | 0 => s
  | k + 1 =>
    let s1 := State.saveBlocks s ctx n k
    let a := 65536 * SMap.get (fun _ => 0) (s.ctxRun ctx).place n + 64 * k
    s1.dramPut portSluice (saveAddr s.ldr.image.saveRegions (s.saveOffset ctx n + 64 * k)) (Mem.readList (s1.basin n) a 64)

/-- Restore `k` blocks of a share to basin byte `a`; a poisoned block gives zeros (R292, R328). -/
def State.restoreBlocks (s : State) (ctx n a : Nat) : Nat → State
  | 0 => s
  | k + 1 =>
    let s1 := State.restoreBlocks s ctx n a k
    let src := saveAddr s.ldr.image.saveRegions (s.saveOffset ctx n + 64 * k)
    let r := s1.reads portSluice [(src, 64)]
    match r.1 with
    | some st => (r.2.setBasin n (Mem.writeList (r.2.basin n) (a + 64 * k) (List.replicate 64 0x00#8))).updCtxRun ctx
        (fun x => { x with fault := some st })
    | none => r.2.setBasin n (Mem.writeList (r.2.basin n) (a + 64 * k) (Mem.readList s1.dram.bytes src 64))

/-- Whether a share of `k` blocks of a cluster's basin can be moved now (R332, R335, R348). -/
def State.shareReach (s : State) (ctx n k : Nat) : Bool :=
  s.reach ((basinBase n, 64) :: s.saveRanges ctx n k)

/-- BRING_IN_COMPLETE (R99, R292): the share is restored from its save area and the context is resident. -/
def execBringInComplete (ctx cluster : Nat) (s : State) : Out :=
  .next (match s.ctxEntry ctx, (s.ctxRun ctx).moving with
    | some e, some m =>
      s.when (m.cluster == cluster && !s.coolantHeld && s.shareReach ctx cluster (e.basinKib * 16)) (fun s =>
        State.schedule (State.refresh ((s.restoreBlocks ctx cluster (65536 * m.place) (e.basinKib * 16)).settleIn ctx cluster
          (m.place, m.slots, m.line))))
    | _, _ => s)

/-- The waiting contexts that do not fit on a cluster, by descending priority and then ascending identifier (R296). -/
def State.waiters (s : State) (n : Nat) : List CtxEntry :=
  sortBy (fun a b => lexLe [-(a.priority : Int), a.id] [-(b.priority : Int), b.id])
    (s.ldr.image.ctxs.filter (fun e => s.waitsFor e n && (s.roomFor e n).isNone))

/-- The context that R296 brings in to a cluster, and the one that it evicts for it: the first waiting context for which a
resident one qualifies. -/
def State.evictFor (s : State) (n : Nat) : Option (CtxEntry × CtxEntry) :=
  (s.waiters n).findSome? (fun w => (s.evictee n w).map (fun e => (w, e)))

/-- CONTEXT_EVICT (R296, R292): the share of the one evicted is saved, and the waiting context is brought in. -/
def execContextEvict (cluster waiting : Nat) (s : State) : Out :=
  .next (match s.evictFor cluster with
    | some (w, e) =>
      s.when (w.id == waiting && s.allBlocked cluster && !s.coolantHeld && s.shareReach e.id cluster (e.basinKib * 16)) (fun s =>
        let s1 := (s.saveBlocks e.id cluster (e.basinKib * 16)).removeFrom e.id cluster
        match s1.roomFor w cluster with
        | some (a, b, c) => State.refresh (State.count (s1.updCtxRun w.id (fun x => { x with
            moving := some { cluster := cluster, out := some e.id, place := a, slots := b, line := c } }))
            .SLUICE_CNT_EVICT 0)
        | none => s)
    | none => s)

/-- STARVED_TICK (R297): another millisecond in which a context waits because no resident one qualifies. -/
def execStarvedTick (ctx cluster : Nat) (s : State) : Out :=
  .next (match s.ctxEntry ctx, (s.ctxRun ctx).starvedNs with
    | some e, some t =>
      s.when (s.starvesOn e cluster && !s.coolantHeld && decide (t + 1000000 ≤ s.nowNs)) (fun s =>
        (s.updCtxRun ctx (fun x => { x with starvedNs := some (t + 1000000) })).count .SLUICE_CNT_STARVED 0)
    | _, _ => s)

/-! ## MOVE (R309, R310) -/

/-- Whether two ranges [a, a + n) and [lo, hi) share a byte. -/
def touches (a n lo hi : Nat) : Bool := decide (a < hi) && decide (lo < a + n)

/-- Whether bytes of a range are output of another context's command that has not committed (R16). -/
def State.uncommitted (s : State) (ctx a n : Nat) : Bool :=
  s.dram.windows.any (fun w => w.ctx != ctx && touches a n w.lo w.hi) ||
    s.slu.cmds.any (fun x => x.1 != ctx && (match s.running x.1 with
      | some c => (recClusters x.2.recs).any (fun k => (s.outRanges c k x.2.bounds).any (fun r => touches a n r.1 r.2))
      | none => false))

/-- The turn of a copy context on a lane of the copy engine; a move of lower priority is killed for it (R301). -/
def State.copyTurn (s : State) (e : CtxEntry) : Option (Nat × State) :=
  match s.laneTurn e with
  | some x => some x
  | none =>
    ((lanesOf 4).findSome? (fun k => (s.holder k).bind (fun c => (s.ctxEntry c).bind (fun h =>
      if h.priority < e.priority && s.killable c then some c else none)))).bind (fun c => (s.preemptCtx c).laneTurn e)

/-- Whether a command of a context has its write window. -/
def State.hasWindow (s : State) (ctx cmd : Nat) : Bool := s.dram.windows.any (fun w => w.ctx = ctx && w.cmd = cmd)

/-- A move is in progress on a lane, with its write window over dst where that is DRAM (R124, R310). -/
def State.runMove (s : State) (e : CtxEntry) (k : Nat) (c : CopyCmd) (r : CmdRun) : State :=
  let need := decide (c.dst < dramSize s.dev.part) && !s.hasWindow e.id k
  if need && decide (256 ≤ s.dram.windows.length) then s.setCmdRun e.id { r with killed := true }
  else
    match s.copyTurn e with
    | none => s
    | some (_, s1) =>
      let w : List Window := if need then [{ ctx := e.id, cmd := k, lo := c.dst, hi := c.dst + c.length }] else []
      { s1 with dram := { s1.dram with windows := s1.dram.windows ++ w } }.setCmdRun e.id { r with killed := false }

/-- Start the next move of a copy context, or the one that was killed or that waits for the window table. A move is released
once the commands that write its source have committed (R16). -/
def State.startMove (s : State) (e : CtxEntry) : State :=
  match s.cmdRun e.id, s.nextMove e.id with
  | some r, some (k, c) => if r.killed && r.cmd = k then s.runMove e k c r else s
  | none, some (k, c) =>
    if s.uncommitted e.id c.src c.length then s
    else
      let r : CmdRun :=
        { cmd := k, issue := 0, gen := 0, bounds := [], w := 0, h := 0, recs := [], killed := false, spent := [] }
      let s1 := (s.dropWindows e.id k).runMove e k c r
      (match s1.cmdRun e.id with
       | some x => if x.killed then s1.count .SLUICE_CNT_WINWAIT 0 else s1
       | none => s1)
  | _, none => s

/-- Copy `k` bytes. -/
def State.copyBytes (s : State) (src dst k : Nat) : State := s.memPut portSluice dst (s.memGet src k)

/-- A copy context's command has committed on the lane that it holds. -/
def State.holdsCommit (s : State) (ctx : Nat) : State :=
  match (s.ctxRun ctx).holds with
  | k :: _ => s.laneCommit ctx k
  | [] => s

/-- A move commits: its bytes are in dst. A bad address or poison faults it (R30, R328). -/
def State.endMove (s : State) (e : CtxEntry) (r : CmdRun) (k : Nat) (c : CopyCmd) : State :=
  let x := s.reads portSluice [(c.src, c.length)]
  let s0 := x.2.updCtxRun e.id (fun y => { y with next := some (k + 1) })
  match x.1, rangeStatus s.dev.part c.dst c.length with
  | some st, _ => s0.cmdFault e.id st
  | none, some st => s0.cmdFault e.id st
  | none, none =>
    let s1 := ((s0.copyBytes c.src c.dst c.length).dropWindows e.id k).dropCmdRun e.id
    let s2 := s1.updCtxRun e.id (fun y => { y with committed := some (r.cmd, 0) })
    State.settle (s2.holdsCommit e.id)

/-- MOVE (R16, R282, R310): a copy command of op 0 takes a lane and records its window; with `done`, it has moved its bytes
and commits (log 93). -/
def execMove (m : MoveEvent) (s : State) : Out :=
  .next (match s.ctxEntry m.ctx with
    | none => s
    | some e =>
      s.when (e.kind = 4 && !s.coolantHeld && s.clocked) (fun s =>
        if !m.done then s.startMove e
        else
          match s.cmdRun m.ctx, s.nextMove m.ctx with
          | some r, some (k, c) =>
            s.when (!r.killed && r.cmd == k && s.reach [(c.src, c.length), (c.dst, c.length)]) (fun s => s.endMove e r k c)
          | _, _ => s))

end Sys2Proof.Machine
end

