-- ==== Sys2Proof/Machine/RingOps.lean ====
section
/-! DEFINITION. The rings that the device writes in host memory: the ingest event ring (R221, R229), the metadata rings
(R273, R274, R280), the rill status records (R197), and the ends of a rill's tracks outside its frames (R265). -/

set_option Elab.async false

namespace Sys2Proof.Machine

/-! ## Rings -/

/-- A ring's set-up: the function whose requester ID it is written under, its address and entries, its record size, and
whether it receives records. -/
structure RingCfg where
  fn : Nat
  addr : Nat
  entries : Nat
  size : Nat
  on : Bool
  deriving DecidableEq, Repr

/-- What becomes of a record. -/
inductive PushRes where
  | written | lost | dropped
  deriving DecidableEq, Repr

/-- A ring after a record. -/
structure Pushed where
  s : State
  ring : Ring
  res : PushRes
  deriving DecidableEq, Repr

/-- A restart takes effect at the next record written (R229, R280). -/
def Ring.renew (r : Ring) : Ring := if r.restart then { r with prod := 0, cons := 0, restart := false } else r

/-- Whether the device's view shows a ring of `n` entries full. -/
def Ring.full (r : Ring) (n : Nat) : Bool := decide (n ≤ (r.prod + 2 ^ 32 - r.cons % 2 ^ 32) % 2 ^ 32)

/-- A record that is not written is carried in the next one's lost field. -/
def Ring.lose (r : Ring) : Ring := { r with lost := satNat 0xFFFF (r.lost + 1) }

/-- The record and then the producer index (R19, R221). -/
def State.ringWrite (s : State) (c : RingCfg) (r : Ring) (rec : Nat → List Byte) : Pushed :=
  let p := (r.prod + 1) % 2 ^ 32
  { s := (s.hostWrite c.fn (c.addr + 64 + c.size * (r.prod % c.entries)) (rec r.lost)).hostWrite c.fn c.addr (leBytes 4 p)
    ring := { r with prod := p, lost := 0 }, res := .written }

/-- Push a record, given from the value of its lost field. During an FLR of the function it is dropped and does not count
as lost (R400); a ring that is off or whose function is not a bus master loses it (R273, R391); a ring of no entries
neither writes nor loses it. The consumer index is read only when the device's view shows the ring full; what the host
has written there is a free value (log 19). -/
def State.ringPush (s : State) (c : RingCfg) (r : Ring) (rec : Nat → List Byte) : Pushed :=
  if (s.fn c.fn).flr != .idle then { s := s, ring := r, res := .dropped }
  else if !c.on then { s := s, ring := r.lose, res := .lost }
  else if c.entries = 0 then { s := s, ring := r, res := .dropped }
  else if !s.canMaster c.fn then { s := s, ring := r.lose, res := .lost }
  else if r.renew.full c.entries then
    let r1 := { r.renew with cons := Config.freeValue s.freeIdx % 2 ^ 32 }
    let s1 := State.hostRead { s with freeIdx := s.freeIdx + 1 } 4
    if r1.full c.entries then { s := s1, ring := r1.lose, res := .lost } else s1.ringWrite c r1 rec
  else s.ringWrite c r.renew rec

/-! ## Ingest event records (Table 8.12) -/

/-- An ingest event record's own fields. `a` to `d` are the fields from offset 0x14 on. -/
structure EvRec where
  status : W16
  rill : Nat
  kind : Nat
  ts : Nat
  index : Nat
  a : Nat
  b : Nat
  c : Nat
  d : Nat
  deriving DecidableEq, Repr

def EvRec.bytes (e : EvRec) (lost : Nat) : List Byte :=
  leBytes 2 e.status.toNat ++ leBytes 2 e.rill ++ leBytes 2 e.kind ++ leBytes 2 lost ++ leBytes 8 e.ts
    ++ leBytes 4 e.index ++ leBytes 2 e.a ++ leBytes 2 e.b ++ leBytes 4 e.c ++ leBytes 4 e.d

/-- The ingest event ring's set-up (Table 8.13). -/
def State.evtCfg (s : State) : RingCfg :=
  { fn := 0, addr := s.regNat .INGEST_EVT_ADDR 0 0, entries := s.regNat .INGEST_EVT_ENTRIES 0 0, size := 32, on := true }

def State.setEvt (s : State) (r : Ring) : State := { s with ing := { s.ing with evt := r } }

/-- Write an ingest event record (R221): then source 1 is raised. A nonzero status becomes the rill's last status. -/
def State.ingestEvent (s : State) (e : EvRec) : State :=
  let s0 := if e.status = 0 ∨ 512 ≤ e.rill then s else s.updRill e.rill (fun r => { r with lastStatus := e.status })
  let p := s0.ringPush s0.evtCfg s0.ing.evt e.bytes
  match p.res with
  | .written => (p.s.setEvt p.ring).raise 1
  | .lost => (p.s.setEvt p.ring).count .INGEST_EVT_LOST 0
  | .dropped => p.s

/-! ## Metadata records (Tables 10.11 to 10.13) -/

/-- The frame that a metadata record is about. -/
structure MetaKey where
  fn : Nat
  rill : Nat
  tag : Nat
  ts : Nat
  index : Nat
  deriving DecidableEq, Repr

/-- A record: the header of Table 10.11 and 32 bytes of body. -/
def State.metaBytes (s : State) (k : MetaKey) (kind status : Nat) (body : List Byte) (lost : Nat) : List Byte :=
  leBytes 1 kind ++ leBytes 1 (b2n s.deterministic) ++ leBytes 2 lost ++ leBytes 2 k.rill ++ leBytes 2 status
    ++ leBytes 8 k.tag ++ leBytes 8 k.ts ++ leBytes 8 k.index ++ body

def State.metaCfg (s : State) (n : Nat) : RingCfg :=
  { fn := n, addr := s.regNat .TRK_RING_ADDR n 0, entries := s.regNat .TRK_RING_ENTRIES n 0, size := 64
    on := s.regBit .TRK_RING_CTRL n 0 0 }

/-- Write a metadata record to the ring of its function (R273): after a frame-end record (kind 5) the ring's source is
raised. -/
def State.metaRecord (s : State) (k : MetaKey) (kind status : Nat) (body : List Byte) : State :=
  let p := s.ringPush (s.metaCfg k.fn) (s.ring k.fn) (s.metaBytes k kind status body)
  match p.res with
  | .written => if kind = 5 then (p.s.setRing k.fn p.ring).raise (32 + k.fn) else p.s.setRing k.fn p.ring
  | .lost => (p.s.setRing k.fn p.ring).count .TRK_RING_LOST k.fn
  | .dropped => p.s

def State.metaRecords (s : State) (k : MetaKey) : List (Nat × Nat × List Byte) → State
  | [] => s
  | (kind, status, body) :: rs => State.metaRecords (s.metaRecord k kind status body) k rs

/-- An event (Table 10.12): the order within a track of R275 is start, end, zones, lines. -/
structure TrkEvent where
  track : Nat
  order : Nat
  code : Nat
  cls : Nat
  rule : Nat
  x : Int
  y : Int
  value : Nat
  deriving DecidableEq, Repr

def TrkEvent.bytes (e : TrkEvent) : List Byte :=
  leBytes 4 e.track ++ leBytes 1 e.code ++ leBytes 1 e.cls ++ leBytes 2 e.rule ++ leBytes 4 (unsigned 32 e.x)
    ++ leBytes 4 (unsigned 32 e.y) ++ leBytes 4 e.value ++ leBytes 12 0

/-- An end event (Table 10.12, code 2): the reference point is the track's centre (log 20). -/
def Track.ended (t : Track) (reason : Nat) : TrkEvent :=
  { track := t.id, order := 1, code := 2, cls := t.cls, rule := 0, x := t.cx, y := t.cy, value := reason }

/-! ## Track store and cache (R257, R259) -/

/-- A little-endian field of bytes (R14). -/
def fieldOf (bs : List Byte) (off n : Nat) : Nat := leVal ((bs.drop off).take n)

/-- The internal address of the track store: the region of kind 3 (R45, R257). -/
def State.storeBase (s : State) : Nat :=
  match s.ldr.image.regions.find? (fun r => r.kind = 3) with
  | some r => r.base
  | none => 0

/-- The internal address of a record of the track store. -/
def State.storeAddr (s : State) (i : Nat) : Nat := s.storeBase + 128 * i

/-- Track states of Table 10.7. -/
def TrackSt.code : TrackSt → Nat
  | .tentative => 1 | .confirmed => 2 | .lost => 3

/-- The bytes of a track record (Table 10.7). -/
def Track.bytes (t : Track) : List Byte :=
  leBytes 4 t.id ++ leBytes 2 t.rill ++ leBytes 1 t.st.code ++ leBytes 1 t.cls ++ leBytes 8 t.fLast
    ++ leBytes 4 (unsigned 32 t.cx) ++ leBytes 4 (unsigned 32 t.cy) ++ leBytes 4 (unsigned 32 t.w)
    ++ leBytes 4 (unsigned 32 t.h) ++ leBytes 2 (unsigned 16 t.vx) ++ leBytes 2 (unsigned 16 t.vy)
    ++ leBytes 2 (unsigned 16 t.score) ++ leBytes 2 t.hits ++ leBytes 2 t.misses ++ leBytes 1 (b2n t.embValid)
    ++ leBytes 1 0 ++ leBytes 2 t.inside ++ leBytes 2 t.dwellFired ++ leBytes 2 t.lineSide ++ leBytes 2 t.lineValid
    ++ leBytes 4 t.fConfirm ++ leBytes 4 t.dwell0 ++ leBytes 4 t.dwell1 ++ t.emb

/-- The track that a record holds, if its state is one of a live track. -/
def TrackRef.read (k : TrackRef) (bs : List Byte) : Option Track :=
  let rd := fieldOf bs
  (match rd 6 1 with
   | 1 => some TrackSt.tentative
   | 2 => some TrackSt.confirmed
   | 3 => some TrackSt.lost
   | _ => none).map (fun st =>
    { rill := k.rill, id := k.id, store := k.store, st := st, cls := rd 7 1, fLast := rd 8 8, cx := signed 32 (rd 0x10 4)
      cy := signed 32 (rd 0x14 4), w := signed 32 (rd 0x18 4), h := signed 32 (rd 0x1C 4), vx := signed 16 (rd 0x20 2)
      vy := signed 16 (rd 0x22 2), score := signed 16 (rd 0x24 2), hits := rd 0x26 2, misses := rd 0x28 2
      embValid := bitAt (rd 0x2A 1) 0, inside := rd 0x2C 2, dwellFired := rd 0x2E 2, lineSide := rd 0x30 2
      lineValid := rd 0x32 2, fConfirm := rd 0x34 4, dwell0 := rd 0x38 4, dwell1 := rd 0x3C 4, emb := bs.drop 0x40 })

/-- Write a record into the track cache, which keeps the 32,768 used last: the one that leaves it is written back (R259,
log 67). -/
def State.cachePut (s : State) (i : Nat) (bs : List Byte) : State :=
  let l := (i, bs) :: s.trk.cache.filter (fun x => x.1 != i)
  let s1 := { s with trk := { s.trk with cache := l.take 32768 } }
  match l[32768]? with
  | some x => s1.memPut portTrk (s.storeAddr x.1) x.2
  | none => s1

/-- The record of the store as the cache or DRAM holds it, without the poison of its two blocks. -/
def State.recordBytes (s : State) (i : Nat) : List Byte :=
  match s.trk.cache.find? (fun x => x.1 = i) with
  | some x => x.2
  | none => s.memGet (s.storeAddr i) 128

/-- What reading a track's record gives: the track, the track without its embedding where only that block reads poisoned, or
nothing where the first block does or where the record is free. -/
inductive Fetched where
  | whole (t : Track) | half (t : Track) | lost | free
  deriving DecidableEq, Repr

/-- Read a track's record through the cache (R259). A record read from a poisoned block is freed, told and counted. -/
def State.fetchTrack (s : State) (k : TrackRef) : State × Fetched :=
  let hit := s.trk.cache.any (fun x => x.1 = k.store)
  let bs := s.recordBytes k.store
  let a := s.storeAddr k.store
  let s1 := s.addTo (if hit then .TRK_CNT_HIT else .TRK_CNT_MISS) 0 1
  let s2 := if hit then s1 else s1.visit portTrk a 128
  let told (s : State) : State := (s.count .TRK_CNT_POISON 0).elog Status.trackPoisoned unitTrk 0 noCtx noFn 0
  let free := List.replicate 128 (0#8)
  if !hit && (s.memPoison portTrk a 64).isSome then (told (s2.cachePut k.store free), .lost)
  else if !hit && (s.memPoison portTrk (a + 64) 64).isSome then
    match k.read bs with
    | some t => (told (s2.cachePut k.store free), .half t)
    | none => (told (s2.cachePut k.store free), .lost)
  else
    match k.read bs with
    | some t => (s2.cachePut k.store bs, .whole t)
    | none => (s2.cachePut k.store bs, .free)

/-- Mark a record as free (Table 10.7: state 0). -/
def State.freeRecord (s : State) (i : Nat) : State :=
  let bs := s.recordBytes i
  s.cachePut i (bs.take 6 ++ [0#8] ++ bs.drop 7)

def State.freeRecords (s : State) : List TrackRef → State
  | [] => s
  | k :: ks => State.freeRecords (s.freeRecord k.store) ks

/-- Write tracks to their records. -/
def State.putTracks (s : State) : List Track → State
  | [] => s
  | t :: ts => State.putTracks (s.cachePut t.store t.bytes) ts

/-! ## The ends of tracks (R265) -/

/-- The tracks of a rill, by ascending number. -/
def State.rillTracks (s : State) (r : Nat) : List TrackRef :=
  sortBy (fun a b => decide (a.id ≤ b.id)) (s.trk.tracks.filter (fun t => t.rill = r))

/-- Take every track of a rill away, and its embedding-queue entries. -/
def State.takeTracks (s : State) (r : Nat) : State :=
  { s with trk := { s.trk with
      tracks := s.trk.tracks.filter (fun t => t.rill != r), embq := s.trk.embq.filter (fun e => e.rill != r) } }

/-- Free every track of a rill: its records and its embedding-queue entries. -/
def State.freeTracks (s : State) (r : Nat) : State := (s.freeRecords (s.rillTracks r)).takeTracks r

/-- The end event of a track whose record was read poisoned (R259, Table 10.12): class and point of the detection that it
matched in the frame, 0 otherwise. -/
def TrackRef.poisoned (k : TrackRef) (cls : Nat) (p : Int × Int) : TrkEvent :=
  { track := k.id, order := 1, code := 2, cls := cls, rule := 0, x := p.1, y := p.2, value := 3 }

/-- The end events of a rill's tracks when a detach has drained, with the state after their records are read. -/
def State.endEvents (s : State) : List TrackRef → State × List TrkEvent
  | [] => (s, [])
  | k :: ks =>
    let f := s.fetchTrack k
    let e : List TrkEvent := match f.2 with
      | .whole t => [t.ended 2]
      | .half _ => [k.poisoned 0 (0, 0)]
      | .lost => [k.poisoned 0 (0, 0)]
      | .free => []
    let r := State.endEvents f.1 ks
    (r.1, e ++ r.2)

/-- Whether a rill's frames lead to a track context: a model context that its class's pixel context feeds has one among
its successors (R275, R278). -/
def State.tracked (s : State) (r : Nat) : Bool :=
  match s.rillClass (s.rill r).cls with
  | some k =>
    (match s.ctxEntry k.firstCtx with
     | some e => s.imageLoaded && e.succ.any (fun m => (s.readers m).any (fun c => s.ctxKind c == some 3))
     | none => false)
  | none => false

/-- A frame-end record's body (Table 10.13). -/
def frameEndBody (dets tracks events flags ctx cands : Nat) : List Byte :=
  leBytes 2 dets ++ leBytes 2 tracks ++ leBytes 4 0 ++ leBytes 2 events ++ leBytes 2 flags ++ leBytes 2 ctx
    ++ leBytes 2 (satNat 0xFFFF cands) ++ leBytes 16 0

/-- A detach has drained (R265): end events of reason 2 in ascending track number, one frame-end record of frame index
0xFFFF_FFFF_FFFF_FFFF; capture timestamp 0 (log 20). -/
def State.endTracks (s : State) (r : Nat) : State :=
  if !s.tracked r then s
  else
    let x := s.rill r
    let k : MetaKey := { fn := x.fn, rill := r, tag := x.tag, ts := 0, index := 0xFFFFFFFFFFFFFFFF }
    let e := s.endEvents (s.rillTracks r)
    let bad := e.2.any (fun x => x.value = 3)
    (e.1.freeTracks r).metaRecords k (e.2.map (fun x => (3, 0, x.bytes)) ++
      [(5, if bad then Status.trackPoisoned.toNat else 0, frameEndBody 0 0 e.2.length (if bad then 512 else 0) 0 0)])

/-! ## Rill status records (Table 8.3) -/

/-- Work cycles of a rill over the last 1,000 ms, in thousandths of one engine's cycles in that time: 10^9 at 1.0 GHz (R21,
R197). A turn's cycles count at the end of the turn (log 21). -/
def State.loadPermille (s : State) (x : Rill) : Nat :=
  ((x.work.filter (fun w => decide (w.1 ≤ s.nowNs) && decide (s.nowNs < w.1 + 1000000000))).map (·.2)).sum / 1000000

/-- Count the work cycles of a turn. -/
def State.addWork (s : State) (r cycles : Nat) : State :=
  s.updRill r (fun x => { x with
    work := (s.nowNs, cycles) :: x.work.filter (fun w => decide (s.nowNs < w.1 + 1000000000)) })

/-- The status record of a rill in view `x`. -/
def State.rillRecord (s : State) (x : Rill) : List Byte :=
  let avg := match x.ctx with
    | some c => (match s.decCtx c with
      | some d => d.avg
      | none => 0)
    | none => 0
  leBytes 4 x.readIndex ++ leBytes 2 x.seq ++ leBytes 1 x.st.code ++ leBytes 1 (match x.ctx with
      | some c => c / 32
      | none => 0xFF)
    ++ leBytes 2 x.lastStatus.toNat ++ leBytes 1 (match x.ctx with
      | some c => c % 32
      | none => 0xFF)
    ++ [0] ++ leBytes 4 (satNat 0xFFFFFFFF avg) ++ leBytes 8 x.framesOut ++ leBytes 4 x.concealed
    ++ leBytes 4 x.abandoned ++ leBytes 4 x.refused ++ leBytes 4 x.droppedNoBuf ++ leBytes 4 x.staleDropped
    ++ leBytes 4 x.auWaits ++ leBytes 4 (satNat 0xFFFFFFFF (s.loadPermille x)) ++ leBytes 4 0 ++ leBytes 8 x.lastCaptureTs

/-- Write a status record under the rill's function (R197, R391): bytes 0x08 to 0x3F first, bytes 0x00 to 0x07 last. -/
def State.statusOf (s : State) (x : Rill) : State :=
  if !s.canMaster x.fn then s
  else
    let b := s.rillRecord x
    (s.hostWrite x.fn (x.statusAddr + 8) (b.drop 8)).hostWrite x.fn x.statusAddr (b.take 8)

/-- Write the status record of rill `r`. -/
def State.statusRecord (s : State) (r : Nat) : State := s.statusOf (s.rill r)

end Sys2Proof.Machine
end

