-- ==== Sys2Proof/Machine/IngestOps.lean ====
section
/-! DEFINITION. Ingest and decode, shared operations: capture timestamps (R207, R208), frame geometry and the envelope (R210,
R212, R213), the decode cache (R222), frames leaving decode (R16, R213, R225), rill faults (R195), detachment. -/

set_option Elab.async false

namespace Sys2Proof.Machine

/-- Add to a counter of a rill's status record: it stops at its maximum (R197). -/
def bump (v : Nat) : Nat := satNat 0xFFFFFFFF (v + 1)

/-- The class of a rill. -/
def State.classOf (s : State) (r : Nat) : Option RillClass := s.rillClass (s.rill r).cls

/-- Whether a rill's class is raw (Table 2.9, codec 4). -/
def State.isRaw (s : State) (r : Nat) : Bool :=
  match s.classOf r with
  | some k => k.codec = 4
  | none => false

/-- The DEC_BIND entry that reserved the rill's decode context (R48, R203). -/
def State.bindOf (s : State) (r : Nat) : Option DecBind :=
  match (s.rill r).ctx with
  | some c => (match s.decCtx c with
    | some d => s.ldr.image.binds[d.bind]?
    | none => none)
  | none => none

/-- Change the decode context of a rill. -/
def State.updDec (s : State) (r : Nat) (f : DecCtx → DecCtx) : State :=
  match (s.rill r).ctx with
  | some c => (match s.decCtx c with
    | some d => s.setDecCtx c (f d)
    | none => s)
  | none => s

/-! ## What is read from host memory -/

/-- An access-unit descriptor of Table 8.2 (R193). `reserved` gathers the reserved bits and halfword. -/
structure Descriptor where
  dataAddr : Nat
  length : Nat
  flags : Nat
  reserved : Nat
  captureTs : Nat
  cookie : Nat
  deriving DecidableEq, Repr

/-- The descriptor that 32 bytes spell. -/
def readDescriptor (bs : List Byte) : Descriptor :=
  let flags := fieldOf bs 0xC 2
  { dataAddr := fieldOf bs 0 8, length := fieldOf bs 8 4, flags := flags % 8
    reserved := flags / 8 + 65536 * fieldOf bs 0xE 2, captureTs := fieldOf bs 0x10 8, cookie := fieldOf bs 0x18 8 }

/-- The registry entry that 64 bytes spell (Table 8.4). -/
def readEntry (bs : List Byte) : RegEntry :=
  { seq := fieldOf bs 0 2, rillId := fieldOf bs 2 2, classId := fieldOf bs 4 2, function := fieldOf bs 6 1
    flags := fieldOf bs 7 1, ringAddr := fieldOf bs 8 8, ringEntries := fieldOf bs 0x10 4
    statusAddr := fieldOf bs 0x18 8, tag := fieldOf bs 0x20 8
    reserved := fieldOf bs 0x14 4 + 2 ^ 32 * fieldOf bs 0x28 24 }

/-! ## Capture timestamps -/

/-- Nanoseconds of `k` frame periods, rounded down (R208, R225). -/
def RillClass.period (c : RillClass) (k : Nat) : Nat := k * c.rateDen * 1000000000 / c.rateNum

/-- The always-stamp flag of a class (Table 2.9). -/
def RillClass.alwaysStamp (c : RillClass) : Bool := bitAt c.flags 0

/-- Stamp a descriptor at its read (R207, R208): the timestamp, and the rill with its ring-order count advanced. -/
def State.stamp (s : State) (r : Nat) (k : RillClass) (d : Descriptor) : Nat × Rill :=
  let x := s.rill r
  let n := if bitAt d.flags 1 then 0 else x.k
  let byIndex := if n = 0 then !bitAt d.flags 0 || k.alwaysStamp else x.byIndex
  let ts :=
    if s.deterministic then
      if byIndex then k.period n else if bitAt d.flags 0 then d.captureTs else x.lastTs + k.period 1
    else if bitAt d.flags 0 && !k.alwaysStamp then d.captureTs else s.nowNs
  (ts % 2 ^ 64, { x with k := n + 1, byIndex := byIndex, lastTs := ts % 2 ^ 64 })

/-! ## Geometry and envelope -/

/-- The layout of a frame (R213): bytes of a sample, pitches, chroma width and rows, offsets, and bytes in all. -/
structure PicGeo where
  b : Nat
  lp : Nat
  cp : Nat
  cw : Nat
  ch : Nat
  cb : Nat
  cr : Nat
  size : Nat
  deriving DecidableEq, Repr

/-- Round up to a multiple of 64. -/
def up64 (n : Nat) : Nat := ceilDiv n 64 * 64

/-- The layout of R213 for a header. -/
def SeqHdrGeo (h : SeqHdr) : PicGeo :=
  let b := if h.bitDepth = 8 then 1 else 2
  let lp := up64 (h.width * b)
  let cw := if h.chroma = 2 then h.width else ceilDiv h.width 2
  let ch := if h.chroma = 0 then ceilDiv h.height 2 else h.height
  let cp := up64 (cw * b)
  let cb := 0x80 + lp * h.height
  { b := b, lp := lp, cp := cp, cw := cw, ch := ch, cb := cb, cr := cb + cp * ch, size := cb + 2 * (cp * ch) }

/-- The codec limits of Table 8.8: largest width, height and level x 10, and whether bit depth 10 is supported. -/
def codecLimits : Nat → Nat × Nat × Nat × Bool
  | 0 => (4096, 2304, 52, false)
  | 1 => (8192, 4352, 51, true)
  | 2 => (8192, 4352, 51, true)
  | 3 => (16384, 16384, 0, false)
  | _ => (8192, 4352, 0, true)

/-- H.264 by level x 10: luma samples of MaxFS macroblocks, largest width and height (PRESUMED, log 22). -/
def h264Levels : List (Nat × Nat × Nat × Nat) :=
  [ (9, 25344, 448, 448), (10, 25344, 448, 448), (11, 101376, 896, 896), (12, 101376, 896, 896),
    (13, 101376, 896, 896), (20, 101376, 896, 896), (21, 202752, 1264, 1264), (22, 414720, 1808, 1808),
    (30, 414720, 1808, 1808), (31, 921600, 2704, 2704), (32, 1310720, 3232, 3232),
    (40, 2097152, 4096, 4096), (41, 2097152, 4096, 4096), (42, 2228224, 4208, 4208),
    (50, 5652480, 6720, 6720), (51, 9437184, 8688, 8688), (52, 9437184, 8688, 8688) ]

/-- HEVC: MaxLumaPs, largest width and height (PRESUMED, log 22). -/
def hevcLevels : List (Nat × Nat × Nat × Nat) :=
  [ (10, 36864, 543, 543), (20, 122880, 991, 991), (21, 245760, 1402, 1402), (30, 552960, 2103, 2103),
    (31, 983040, 2804, 2804), (40, 2228224, 4222, 4222), (41, 2228224, 4222, 4222),
    (50, 8912896, 8444, 8444), (51, 8912896, 8444, 8444) ]

/-- AV1: MaxPicSize, MaxHSize, MaxVSize (PRESUMED, log 22). -/
def av1Levels : List (Nat × Nat × Nat × Nat) :=
  [ (20, 147456, 2048, 1152), (21, 278784, 2816, 1584), (30, 665856, 4352, 2448),
    (31, 1065024, 5504, 3096), (40, 2359296, 6144, 3456), (41, 2359296, 6144, 3456),
    (50, 8912896, 8192, 4352), (51, 8912896, 8192, 4352) ]

/-- The luma picture size limit of a level, in luma samples, and the largest width and height that it implies (R212). The
numbers are the published standards' (PRESUMED, log 22); a level not listed sets no limit. -/
def levelLimit (codec level : Nat) : Option (Nat × Nat × Nat) :=
  let rows : List (Nat × Nat × Nat × Nat) :=
    match codec with
    | 0 => h264Levels
    | 1 => hevcLevels
    | 2 => av1Levels
    | _ => []
  (rows.find? (fun x => x.1 = level)).map (·.2)

/-- Whether a declared size lies within class, codec and level. A macroblock codec codes whole macroblocks. -/
def sizeOk (k : RillClass) (h : SeqHdr) : Bool :=
  let l := codecLimits k.codec
  16 ≤ h.width && 16 ≤ h.height && h.width ≤ min l.1 k.maxWidth && h.height ≤ min l.2.1 k.maxHeight &&
    (match levelLimit k.codec h.level with
     | some (n, w, hh) => h.width * h.height ≤ n && h.width ≤ w && h.height ≤ hh
     | none => true)

/-- The envelope check of R212: 0x1001, 0x1002 or 0x1003, if any value lies outside. -/
def envelope (k : RillClass) (h : SeqHdr) : Option W16 :=
  let l := codecLimits k.codec
  if !sizeOk k h then some Status.codedSize
  else if !((h.bitDepth = 8 || (h.bitDepth = 10 && l.2.2.2)) && h.bitDepth ≤ k.maxDepth &&
      (if k.codec = 3 then h.chroma < 3 && bitAt k.profileMask h.chroma else h.chroma = 0)) then some Status.depthChroma
  else if (k.codec < 3 && !bitAt k.profileMask h.profile) || min l.2.2.1 k.maxLevel < h.level then some Status.profileLevel
  else none

/-- A header with no declared values: that of an access unit that no header precedes (R212; log 23). -/
def noHdr : SeqHdr :=
  { width := 0, height := 0, bitDepth := 0, chroma := 0, profile := 0, level := 0, matrix := 0, fullRange := false,
    cropX := 0, cropY := 0, cropW := 0, cropH := 0 }

/-- The buffer size of a pool of the loaded image. -/
def State.poolSize (s : State) (p : Nat) : Nat :=
  match s.pool p with
  | some x => x.size
  | none => 0

/-- The nominal work of Table 8.8 for a coded size, rounded up (R216). -/
def nominalWork (codec w h : Nat) : Nat :=
  match codec with
  | 0 => ceilDiv (4 * (w * h)) 5
  | 1 => ceilDiv (4 * (w * h)) 5
  | 2 => ceilDiv (16 * (w * h)) 15
  | 3 => ceilDiv (8 * (w * h)) 3
  | _ => 0

/-- A frame's budget Bf (R216). -/
def budget (k : RillClass) (d : DecCtx) : Nat :=
  max ((if k.budgetFactor = 0 then 20 else k.budgetFactor) * d.avg) (4 * d.a0)

/-- A after a frame of `c` work cycles that is not abandoned (R216). -/
def nextAvg (a c : Nat) : Nat := ((a : Int) + ((c : Int) - a).tdiv 16).toNat

/-! ## Refusals and drops -/

/-- An access unit is refused with an event record of kind 1 (R212, R213, R228), or without one while a refusal is in
force. -/
def State.refuseAu (s : State) (eng : Nat) (au : AuJob) (k : RillClass) (h : SeqHdr) (st : W16) (event : Bool) : State :=
  let s1 := (s.updRill au.rill (fun x => { x with refused := bump x.refused, lastStatus := st })).count .DEC_CNT_REFUSE eng
  if event then
    let l := codecLimits k.codec
    let depth := if l.2.2.2 then k.maxDepth else 8
    s1.ingestEvent
      { status := st, rill := au.rill, kind := 1, ts := au.captureTs, index := au.index, a := h.width, b := h.height
        c := min l.1 k.maxWidth % 65536 + 65536 * min l.2.1 k.maxHeight
        d := h.bitDepth % 256 + 256 * depth + 65536 * (h.level % 256) + 16777216 * min l.2.2.1 k.maxLevel }
  else s1

/-- A picture is dropped with an event record of kind 4 (R220, R328). -/
def State.dropPicture (s : State) (eng : Nat) (au : AuJob) (st : W16) : State :=
  let s1 := if st = Status.framePoolEmpty then
      (s.updRill au.rill (fun x => { x with droppedNoBuf := bump x.droppedNoBuf })).count .DEC_CNT_NOBUF eng
    else s
  s1.ingestEvent { status := st, rill := au.rill, kind := 4, ts := au.captureTs, index := au.index, a := 0, b := 0, c := 0, d := 0 }

/-! ## The decode cache -/

/-- The number of a rill's next frame. -/
def Rill.nextFrame (x : Rill) : Nat := frameNo x.att x.framesOut

/-- Mark which output frames of a rill are references and which are cached (R222): the references `refs` of its context,
and its `n` most recent frames. Frames of an earlier attachment stay as they are. -/
def State.markFrames (s : State) (r : Nat) (refs : List Nat) (n : Nat) : State :=
  let first := frameNo (s.rill r).att 0
  let next := (s.rill r).nextFrame
  { s with ing := { s.ing with
      frames := updWhere (fun f : Frame => f.rill = r && decide (first ≤ f.index)) (fun f =>
        { f with isRef := refs.contains f.picNum && !f.raw, cached := decide (next < f.index + 1 + n) }) s.ing.frames } }

/-- The same from the rill's context as it stands. -/
def State.remark (s : State) (r : Nat) : State :=
  match (s.rill r).ctx with
  | some c => (match s.decCtx c, s.bindOf r with
    | some d, some b => s.markFrames r d.refs b.cacheFrames
    | _, _ => s)
  | none => s

/-! ## Frames leaving decode -/

/-- The header of a decoded frame (Table 8.10). -/
def frameHeader (h : SeqHdr) (g : PicGeo) (matrix flags ts index tag cookie rill : Nat) : List Byte :=
  leBytes 2 h.width ++ leBytes 2 h.height ++ leBytes 2 h.cropX ++ leBytes 2 h.cropY ++ leBytes 2 h.cropW
    ++ leBytes 2 h.cropH ++ leBytes 1 h.bitDepth ++ leBytes 1 h.chroma ++ leBytes 1 matrix ++ leBytes 1 flags
    ++ leBytes 4 g.lp ++ leBytes 4 g.cp ++ leBytes 4 g.cb ++ leBytes 4 g.cr ++ leBytes 8 ts ++ leBytes 8 index
    ++ leBytes 8 tag ++ leBytes 8 cookie ++ leBytes 2 rill ++ leBytes 62 0

/-- A frame on its way to the model stages (R247, R284). -/
def Flow.start (f : Frame) (fn tag : Nat) : Flow :=
  { rill := f.rill, frame := f.index, fn := fn, tag := tag, captureTs := f.captureTs, stamp := f.stamp, started := false, waits := [], heads := []
    ctxs := [], dropped := false, concealed := f.concealed, abandoned := f.abandoned, substituted := f.substituted
    fallback := false, headSkipped := false, errorSeen := false, embLost := false, status := 0 }

/-- A picture or raw frame is output (R16, R213, R222, R225): its frame index, header, rill clock value and place in the
decode cache; then Sluice has it. `disc` numbers the discontinuity that it comes after: the rill clock restarts with the
first frame output after one. -/
def State.output (s : State) (eng : Nat) (k : RillClass) (f : Frame) (disc : Nat) (hdr : Nat → List Byte) : State :=
  let x := s.rill f.rill
  let n := x.framesOut
  let fresh := decide (x.discs < disc)
  let c0 := if fresh then f.captureTs else x.clock0.getD f.captureTs
  let m := if fresh || x.clock0.isNone then 0 else x.clockN
  let fr := { f with index := x.nextFrame, clock := (c0 + k.period m) % 2 ^ 64 }
  let s1 := s.setRill f.rill { x with
    framesOut := n + 1, clock0 := some c0, clockN := m + 1, discs := max x.discs disc, lastCaptureTs := f.captureTs }
  let s2 := (s1.memPut (if f.raw then portIngest else portDec eng) f.handle.addr (hdr n)).addTo .DEC_CNT_FRAMES eng 1
  let s3 := { s2 with
    ing := { s2.ing with frames := s2.ing.frames ++ [fr] }
    trk := { s2.trk with flows := s2.trk.flows ++ [Flow.start fr x.fn x.tag] } }
  let t := s3.rillTrk f.rill
  (if fresh then s3.setRillTrk f.rill { t with discs := t.discs ++ [fr.index] } else s3).remark f.rill

/-- Output a decoded picture of context `c`. -/
def State.outputPic (s : State) (c : Nat) (k : RillClass) (p : Pic) : State :=
  let flags := b2n p.hdr.fullRange + 2 * b2n p.concealed + 4 * b2n p.abandoned + 8 * b2n p.substituted
  s.output (c / 32) k
    { rill := p.au.rill, index := 0, handle := p.handle, ctx := c, hdr := p.hdr, captureTs := p.au.captureTs
      cookie := p.au.cookie, stamp := p.au.stamp, isRef := false, cached := true, picNum := p.num, concealed := p.concealed
      abandoned := p.abandoned, substituted := p.substituted, raw := false, clock := 0 }
    p.disc
    (fun n => frameHeader p.hdr (SeqHdrGeo p.hdr) (if k.codec = 3 then 1 else p.hdr.matrix) flags p.au.captureTs n
      (s.rill p.au.rill).tag p.au.cookie p.au.rill)

/-- Output the held pictures with the given numbers, in that order: the codec's output order (R214). -/
def State.outputHeld (s : State) (c : Nat) (k : RillClass) : List Nat → State
  | [] => s
  | n :: ns =>
    State.outputHeld
      (match s.decCtx c with
       | some d =>
         (match d.held.find? (fun p => p.num = n) with
          | some p => (s.setDecCtx c { d with held := dropFirst (fun q => q.num = n) d.held }).outputPic c k p
          | none => s)
       | none => s) c k ns

/-- Output every picture still held (R193, R204), where no output order is given: which one comes next is a free value
(log 24). The number bounds the recursion. -/
def State.outputAll (s : State) (c : Nat) (k : RillClass) : Nat → State
  | 0 => s
  | n + 1 =>
    match s.decCtx c with
    | some d =>
      (match d.held[Config.freeValue s.freeIdx % d.held.length]? with
       | some p => State.outputAll (State.outputHeld { s with freeIdx := s.freeIdx + 1 } c k [p.num]) c k n
       | none => s)
    | none => s

/-- The same where an access unit carries end_of_stream (R193). -/
def State.endStream (s : State) (c : Nat) (k : RillClass) (au : AuJob) : State :=
  if bitAt au.flags 2 then
    s.outputAll c k (match s.decCtx c with
      | some d => d.held.length
      | none => 0)
  else s

/-! ## Discontinuity -/

/-- A discontinuity takes effect in a decode context (R193): references are discarded, the running average starts again at
A0, and the rill clock restarts with the next frame output. -/
def State.discontinue (s : State) (c : Nat) : State :=
  match s.decCtx c with
  | some d =>
    let s1 := s.setDecCtx c { d with refs := [], avg := d.a0, disc := d.disc + 1 }
    (match d.rill with
     | some r => s1.remark r
     | none => s1)
  | none => s

/-! ## Faults and detachment -/

/-- A rill faults (R195, R392): its status record with state 3, and an event record of kind 6. -/
def State.rillFault (s : State) (r : Nat) (st : W16) : State :=
  let s1 := (s.updRill r (fun x => { x with st := .faulted, lastStatus := st })).statusRecord r
  s1.ingestEvent
    { status := st, rill := r, kind := 6, ts := 0, index := (s.rill r).readIndex, a := 0, b := 0, c := 0, d := 0 }

/-- A poll that a failed read abandons (R392): after 8 in a row the rill faults with 0x6001. -/
def State.pollFailed (s : State) (r : Nat) : State :=
  let s1 := s.updRill r (fun x => { x with failedPolls := x.failedPolls + 1 })
  if 8 ≤ (s1.rill r).failedPolls then s1.rillFault r Status.ringReads else s1

/-- Give back the buffer of an access unit. -/
def State.freeAu (s : State) (au : AuJob) : State := if au.status = 0 then s.release au.handle (s.rill au.rill).fn else s

def State.freeAus (s : State) : List AuJob → State
  | [] => s
  | a :: as => State.freeAus (s.freeAu a) as

def State.freePics (s : State) (r : Nat) : List Pic → State
  | [] => s
  | p :: ps => State.freePics (s.release p.handle (s.rill r).fn) r ps

/-- A decode context given back: what reserved it stays (R48, R204). -/
def DecCtx.freed (d : DecCtx) : DecCtx :=
  { bind := d.bind, rill := none, queue := [], hdr := none, pic := none, held := [], refs := [], nextPic := 0
    refusing := none, a0 := 0, avg := 0, order := d.order, substituting := false, disc := 0, state := 0 }

/-- The decode context of a rill is freed, with what it still holds; its frames stay only while a command names them
(R204, R222). -/
def State.freeCtx (s : State) (r : Nat) : State :=
  match (s.rill r).ctx with
  | none => s
  | some c =>
    match s.decCtx c with
    | none => s
    | some d =>
      let pics := d.held ++ d.pic.toList
      let s1 := (s.freeAus (d.queue ++ d.pic.toList.map (·.au))).freePics r pics
      let e := s1.engine (c / 32)
      let s2 := s1.setEngine (c / 32) (if e.current = some c then { e with current := none } else e)
      (s2.setDecCtx c d.freed).markFrames r [] 0

/-- A rill leaves without draining (R205, R206): its copies, access units and undecoded frames are dropped, its context is
freed. Reads that are outstanding complete late (R398). -/
def State.dropRill (s : State) (r : Nat) : State :=
  let x := s.rill r
  let raw := s.isRaw r
  let real := x.copies.filter (fun a => a.status = 0)
  let s1 := (if raw then s else s.freeAus real).setFn x.fn
    { s.fn x.fn with lateReads := (s.fn x.fn).lateReads + real.length }
  s1.freeCtx r

/-- The rill is detached. Its class, function, tag and attachment stay for the frames that are still on their way. -/
def State.clearRill (s : State) (r : Nat) : State :=
  s.updRill r (fun x => { Rill.reset with cls := x.cls, fn := x.fn, tag := x.tag, att := x.att })

/-- A detach (R204): polling stops, the rill drains. -/
def State.detach (s : State) (r : Nat) : State :=
  (s.updRill r (fun x => { x with st := .draining })).statusRecord r

end Sys2Proof.Machine
end

