-- ==== Sys2Proof/Machine/IngestCmds.lean ====
section
/-! DEFINITION. Ingest's commands (R193 to R208, R227, R228): polls, copies, raw frames, registry scans, drains. -/

set_option Elab.async false

namespace Sys2Proof.Machine

/-! ## RING_POLL -/

/-- The status with which a descriptor is refused, if any (R196). -/
def descStatus (d : Descriptor) (size : Nat) : Option W16 :=
  if d.reserved ≠ 0 ∨ d.length = 0 ∨ 16777216 < d.length then some Status.descriptorInvalid
  else if size < d.length then some Status.auTooLarge
  else none

/-- A refused descriptor takes its turn (R196, R193): its event record, the read index past it, and its flags. Its
end_of_stream acts as its discontinuity does (DESIGN CHOICE, log 95). -/
def State.skipDescriptor (s : State) (r : Nat) (j : AuJob) : State :=
  let s1 := s.updRill r (fun x => { x with refused := bump x.refused, readIndex := (x.readIndex + 1) % 2 ^ 32 })
  let s2 := s1.ingestEvent
    { status := j.status, rill := r, kind := 5, ts := j.captureTs, index := j.index, a := 0, b := 0, c := 0, d := 0 }
  let s3 := if !bitAt j.flags 1 && !bitAt j.flags 2 then s2
    else if s2.isRaw r then
      (match (s2.rill r).ctx with
       | some c => if bitAt j.flags 1 then s2.discontinue c else s2
       | none => s2)
    else s2.updDec r (fun d => { d with queue := d.queue ++ [j] })
  s3.statusRecord r

/-- The refused descriptors at the front of the copies take their turn: the read index passes descriptors in order. -/
def State.skipRefused (s : State) (r : Nat) : List AuJob → State
  | [] => s
  | j :: js =>
    if j.status = 0 then s
    else State.skipRefused ((s.updRill r (fun x => { x with copies := js })).skipDescriptor r j) r js

/-- How a poll goes on after a descriptor. -/
inductive Took where
  | more | stop
  deriving DecidableEq, Repr

/-- Descriptor `d` of rill `r` is taken (R196, R199, R207): refused, or its copy starts. Without an au_pool buffer the poll
stops at it and nothing of it is kept. -/
def State.takeDescriptor (s : State) (r : Nat) (k : RillClass) (b : DecBind) (d : Descriptor) : State × Took :=
  let raw := k.codec = 4
  let st := s.stamp r k d
  let x := st.2
  let next := (x.nextIndex + 1) % 2 ^ 32
  let job (status : W16) (h : Handle) : AuJob :=
    { rill := r, status := status, index := x.nextIndex, handle := h, length := d.length, captureTs := st.1
      cookie := d.cookie, flags := d.flags, stamp := s.ldr.swapCount }
  let put (s : State) (j : AuJob) : State :=
    { s.setRill r { x with copies := x.copies ++ [j], nextIndex := next } with
      ldr := { s.ldr with lastStamp := some (max st.1 (s.ldr.lastStamp.getD 0)) } }
  match descStatus d (s.poolSize (if raw then b.framePool else b.auPool)) with
  | some status =>
    let s1 := put s (job status { addr := 0, pool := 0 })
    (s1.skipRefused r (s1.rill r).copies, .more)
  | none =>
    if raw then (put s (job 0 { addr := 0, pool := 0 }), .more)
    else
      match s.alloc b.auPool with
      | (some h, s1) => (put s1 (job 0 h), .more)
      | (none, s1) => (s1.updRill r (fun x => { x with auWaits := bump x.auWaits }), .stop)

/-- The pending descriptors in index order (R199): `n` of them. A failed descriptor read abandons the poll (R392). -/
def State.takeAll (s : State) (r : Nat) (k : RillClass) (b : DecBind) : Nat → List (ReadRes (List Byte)) → State
  | 0, _ => s.updRill r (fun x => { x with failedPolls := 0 })
  | _, [] => s.updRill r (fun x => { x with failedPolls := 0 })
  | n + 1, d :: ds =>
    let x := s.rill r
    let a := x.ringAddr + 64 + 32 * (x.nextIndex % x.ringEntries)
    match d with
    | .failed => (s.readFailed Status.ringReads x.fn a false).pollFailed r
    | .timedOut => (s.readFailed Status.ringReads x.fn a true).pollFailed r
    | .ok e =>
      (match (s.hostRead 32).takeDescriptor r k b (readDescriptor e) with
       | (s1, .more) => State.takeAll s1 r k b n ds
       | (s1, .stop) => s1.updRill r (fun x => { x with failedPolls := 0 }))

/-- Whether a write index faults the rill (R195). -/
def indexFault (x : Rill) (w : Nat) : Bool :=
  let ahead := (w + 2 ^ 32 - x.readIndex) % 2 ^ 32
  decide (x.ringEntries < ahead) || decide (ahead < (x.nextIndex + 2 ^ 32 - x.readIndex) % 2 ^ 32)

/-- RING_POLL (R193 to R199, R207, R391, R392): a poll falls due, and starts `lateUs` late. `header` is what the read of the
ring header returns, and `descs` those of the pending descriptors. -/
def execRingPoll (rill lateUs : Nat) (header : ReadRes (List Byte)) (descs : List (ReadRes (List Byte))) (s : State) : Out :=
  .next (
    let x := s.rill rill
    let live := match x.ctx with
      | some c => s.domainLive (.decode (c / 128))
      | none => false
    match s.classOf rill, s.bindOf rill with
    | some k, some b =>
      s.when (x.st == .attached && s.regBit .INGEST_CTRL 0 0 0 && !s.coolantHeld && live &&
          (k.codec = 4 || s.canAlloc b.auPool)) (fun s =>
        if !s.canMaster x.fn then s.count .INGEST_POLL_LATE 0
        else
          let s := if 5 < lateUs then s.count .INGEST_POLL_LATE 0 else s
          match header with
          | .failed => (s.readFailed Status.ringReads x.fn x.ringAddr false).pollFailed rill
          | .timedOut => (s.readFailed Status.ringReads x.fn x.ringAddr true).pollFailed rill
          | .ok bs =>
            let w := fieldOf bs 0 4
            let s := s.hostRead 64
            if indexFault x w then s.rillFault rill Status.ringIndices
            else s.takeAll rill k b ((w + 2 ^ 32 - x.nextIndex) % 2 ^ 32) descs)
    | _, _ => s)

/-! ## AU_COPY_COMPLETE -/

/-- The header that the host wrote for a raw frame (R228, Table 8.10). -/
def rawHdr (data : List Byte) : SeqHdr × PicGeo :=
  let f := fieldOf data
  let h : SeqHdr :=
    { width := f 0 2, height := f 2 2, bitDepth := f 0xC 1, chroma := f 0xD 1, profile := 0, level := 0, matrix := f 0xE 1
      fullRange := false, cropX := f 4 2, cropY := f 6 2, cropW := f 8 2, cropH := f 0xA 2 }
  (h, { SeqHdrGeo h with lp := f 0x10 4, cp := f 0x14 4, cb := f 0x18 4, cr := f 0x1C 4 })

/-- Whether a plane's last row ends within `n` bytes. -/
def planeFits (off pitch rows width n : Nat) : Bool := decide (off + pitch * (rows - 1) + width ≤ n)

/-- Whether a raw frame's planes fit within its length under its pitches and offsets (R228). -/
def rawFits (h : SeqHdr) (g : PicGeo) (n : Nat) : Bool :=
  decide (128 ≤ n) && planeFits 0x80 g.lp h.height (h.width * g.b) n && planeFits g.cb g.cp g.ch (g.cw * g.b) n &&
    planeFits g.cr g.cp g.ch (g.cw * g.b) n

/-- The status with which a raw frame is refused, if any (R228): each check on its own frame. -/
def rawStatus (k : RillClass) (size : Nat) (h : SeqHdr) (g : PicGeo) (n : Nat) : Option W16 :=
  if n < 128 then some Status.rawHeader
  else match envelope k h with
    | some st => some st
    | none =>
      if size < (SeqHdrGeo h).size then some Status.frameTooLarge
      else if !rawFits h g n then some Status.rawHeader
      else none

/-- A raw frame has arrived (R228): refused, dropped for lack of a buffer, or output at once. A buffer at an address that
names no memory drops it with the status of R30 (log 97). -/
def State.rawFrame (s : State) (r c : Nat) (k : RillClass) (b : DecBind) (j : AuJob) (data : List Byte) : State :=
  let s0 := if bitAt j.flags 1 then s.discontinue c else s
  let hg := rawHdr data
  match rawStatus k (s0.poolSize b.framePool) hg.1 hg.2 data.length with
  | some st => s0.refuseAu (c / 32) j k hg.1 st true
  | none =>
    match s0.alloc b.framePool with
    | (none, s1) => s1.dropPicture (c / 32) j Status.framePoolEmpty
    | (some h, s1) =>
      match rangeStatus s1.dev.part h.addr data.length with
      | some st => (s1.release h (s.rill r).fn).dropPicture (c / 32) j st
      | none =>
      let disc := match s1.decCtx c with
        | some d => d.disc
        | none => 0
      let s2 := s1.memPut portIngest (h.addr + 128) (data.drop 128)
      let kept := data.take 0xF ++ [0x10#8] ++ (data.drop 0x10).take 0x10
      s2.output (c / 32) k
        { rill := r, index := 0, handle := h, ctx := c, hdr := hg.1, captureTs := j.captureTs, cookie := j.cookie
          stamp := j.stamp, isRef := false, cached := true, picNum := 0, concealed := false, abandoned := false
          substituted := false, raw := true, clock := 0 }
        disc
        (fun n => kept ++ leBytes 8 j.captureTs ++ leBytes 8 n ++ leBytes 8 (s.rill r).tag ++ leBytes 8 j.cookie
          ++ leBytes 2 r ++ leBytes 62 0)

/-- The first copy of a rill is complete in DRAM (R199): the read index passes its descriptor. -/
def State.copyDone (s : State) (r : Nat) (js : List AuJob) (f : State → State) : State :=
  let s1 := f (s.updRill r (fun x => { x with copies := js, readIndex := (x.readIndex + 1) % 2 ^ 32 }))
  (s1.statusRecord r).skipRefused r js

/-- AU_COPY_COMPLETE (R194, R197, R199, R228): the oldest outstanding read of the rill's access units has brought `data`. -/
def execAuCopyComplete (rill : Nat) (data : List Byte) (s : State) : Out :=
  .next (match (s.rill rill).copies, (s.rill rill).ctx, s.classOf rill, s.bindOf rill with
    | j :: js, some c, some k, some b =>
      s.when (data.length == j.length && !s.coolantHeld && (s.fn (s.rill rill).fn).flr == .idle &&
          (if k.codec = 4 then s.canAlloc b.framePool && s.poolReach b.framePool else s.canReach j.handle.addr j.length)) (fun s =>
        let s0 := s.hostRead data.length
        State.schedule (State.settle (s0.copyDone rill js (fun s =>
          if k.codec = 4 then s.rawFrame rill c k b j data
          else (s.memPut portIngest j.handle.addr data).updDec rill (fun d => { d with queue := d.queue ++ [j] })))))
    | _, _, _, _ => s)

/-- The read of the rill's oldest access unit has failed (R392): its descriptor is skipped with 0x6002, as R196 skips one. -/
def State.auReadFailed (s : State) (r addr : Nat) (timedOut : Bool) : State :=
  match (s.rill r).copies with
  | j :: js =>
    let s1 := s.readFailed Status.auRead (s.rill r).fn addr timedOut
    let s2 := if s1.isRaw r then s1 else s1.freeAu j
    ((s2.updRill r (fun x => { x with copies := js })).skipDescriptor r { j with status := Status.auRead }).skipRefused r js
  | [] => s

/-! ## STATUS_RECORD_PERIODIC -/

/-- The states in which a rill is polled, decoded or drained (R197, R203). -/
def RillSt.active (st : RillSt) : Bool := st == .attached || st == .faulted || st == .draining

/-- STATUS_RECORD_PERIODIC (R197): at least every 100 ms. -/
def execStatusRecordPeriodic (rill : Nat) (s : State) : Out :=
  .next (s.when (s.rill rill).st.active (fun s => s.statusRecord rill))

/-! ## REGISTRY_SCAN -/

/-- An event record of kind 7 (R202, R203). -/
def State.attachEvent (s : State) (st : W16) (rill i seq : Nat) : State :=
  s.ingestEvent { status := st, rill := rill, kind := 7, ts := 0, index := i, a := seq, b := 0, c := 0, d := 0 }

/-- The DEC_BIND entries of a class that step 3 of Table 8.6 admits, by position: those whose pools' owners are each shared
or the function. -/
def State.admitted (s : State) (cls fn : Nat) : List Nat :=
  let owns (p : Nat) : Bool := match s.pool p with
    | some x => x.owner = 0xFFFF || x.owner = fn
    | none => false
  ((indexed s.ldr.image.binds).filter (fun b => b.2.cls = cls && owns b.2.auPool && owns b.2.framePool)).map (·.1)

/-- The first free decode context, in the class's allocation order, that an admitted entry reserved (R48, R203). -/
def State.freeContext (s : State) (binds : List Nat) : Option Nat :=
  let free := s.ing.ctxs.filter (fun x => x.2.rill.isNone && binds.contains x.2.bind)
  ((sortBy (fun a b => decide (a.2.order ≤ b.2.order)) free).head?).map (·.1)

/-- Step 1 of Table 8.6. -/
def entryFormed (e : RegEntry) : Bool :=
  e.rillId < 512 && e.reserved = 0 && e.flags / 2 = 0 && e.ringAddr % 64 = 0 && e.statusAddr % 64 = 0 &&
    16 ≤ e.ringEntries && e.ringEntries ≤ 65536 && (List.range 17).any (fun k => 2 ^ k == e.ringEntries)

/-- The checks of Table 8.6 in order: a refusal, or the decode context to take. -/
def State.attachCheck (s : State) (e : RegEntry) : W16 ⊕ Nat :=
  if !entryFormed e then .inl Status.entryMalformed
  else if (s.rillClass e.classId).isNone then .inl Status.noRillClass
  else
    let adm := s.admitted e.classId e.function
    if !s.fnEnabled e.function || adm = [] then .inl Status.functionOwner
    else if 384 ≤ s.activeRills then .inl Status.rillsFull
    else match s.freeContext adm with
      | some c => .inr c
      | none => .inl Status.noDecodeContext

/-- A rill as an entry describes it, with `att` attachments. -/
def Rill.of (i : Nat) (e : RegEntry) (st : RillSt) (att : Nat) : Rill :=
  { Rill.reset with
    att := att, st := st, cls := e.classId, fn := e.function, ringAddr := e.ringAddr, ringEntries := e.ringEntries
    statusAddr := e.statusAddr, tag := e.tag, seq := e.seq, entry := i }

/-- A refused attach (R203): the status record with state 2 where status_addr itself passed, and an event record. -/
def State.refuseAttach (s : State) (i : Nat) (e : RegEntry) (st : W16) : State :=
  let x : Rill := { Rill.of i e .refused (s.rill e.rillId).att with lastStatus := st }
  let s1 := if e.rillId < 512 then s.setRill e.rillId x else s
  let s2 := if e.statusAddr % 64 = 0 then s1.statusOf x else s1
  s2.attachEvent st e.rillId i e.seq

/-- An attach succeeds (R203): running average, rill clock and frame index start afresh, and the track numbering does so
with the first frame of the attachment, since frames of the one before may still be on their way (R204). -/
def State.attachTo (s : State) (i : Nat) (e : RegEntry) (c : Nat) : State :=
  let t := s.rillTrk e.rillId
  let s1 := (s.setRill e.rillId { Rill.of i e .attached ((s.rill e.rillId).att + 1) with ctx := some c }).setRillTrk e.rillId
    { RillTrk.reset with nextId := t.nextId, running := t.running, lastFrame := t.lastFrame, rulesSeen := t.rulesSeen, discs := t.discs }
  let s2 := match s1.decCtx c with
    | some d => s1.setDecCtx c { d.freed with rill := some e.rillId }
    | none => s1
  (s2.statusRecord e.rillId).attachEvent 0 e.rillId i e.seq

/-- An attach (R203). -/
def State.attach (s : State) (i : Nat) (e : RegEntry) : State :=
  match s.attachCheck e with
  | .inl st => s.refuseAttach i e st
  | .inr c => s.attachTo i e c

/-- The action of Table 8.5 for an entry. An entry of a function in a reset waits for the first scan after it (R205). -/
def State.scanAct (s : State) (i : Nat) (e : RegEntry) : State :=
  let x := s.rill e.rillId
  let on := bitAt e.flags 0
  match x.st with
  | .draining => s.setRill e.rillId { x with recorded := some (i, e) }
  | .detached => if on && (s.fn e.function).flr == .idle then s.attach i e else s
  | .refused => if on && (s.fn e.function).flr == .idle then s.attach i e else s
  | _ =>
    if !on then s.detach e.rillId
    else if e.seq = x.seq then s
    else (s.detach e.rillId).updRill e.rillId (fun y => { y with recorded := some (i, e) })

/-- A scan in progress: the rills named so far, and the entries that read odd or failed. -/
structure Scan where
  s : State
  named : List Nat
  kept : List Nat
  deriving DecidableEq, Repr

/-- One entry of a scan (R200 to R202, R392). -/
def Scan.entry (p : Scan) (i : Nat) (r : ReadRes (List Byte)) : Scan :=
  let a := p.s.regNat .INGEST_REG_ADDR 0 0 + 64 * i
  match r with
  | .failed => { p with s := p.s.readFailed Status.entryRead 0 a false, kept := i :: p.kept }
  | .timedOut => { p with s := p.s.readFailed Status.entryRead 0 a true, kept := i :: p.kept }
  | .ok bs =>
    let e := readEntry bs
    let s := p.s.hostRead 64
    if e.seq % 2 = 1 then { p with s := s, kept := i :: p.kept }
    else if p.named.contains e.rillId then { p with s := s.attachEvent Status.duplicateRill e.rillId i e.seq }
    else { p with s := s.scanAct i e, named := e.rillId :: p.named }

def Scan.entries (p : Scan) : List (Nat × ReadRes (List Byte)) → Scan
  | [] => p
  | (i, r) :: rs => Scan.entries (p.entry i r) rs

/-- After the last entry (R202): attached and faulted rills that no entry names are detached, unless their own entry read
odd or failed. -/
def State.detachUnnamed (s : State) (named kept : List Nat) : List Nat → State
  | [] => s
  | r :: rs =>
    let x := s.rill r
    State.detachUnnamed
      (if (x.st == .attached || x.st == .faulted) && !named.contains r && !kept.contains x.entry then s.detach r else s)
      named kept rs

def State.setScanPending (s : State) (v : Bool) : State := { s with ing := { s.ing with scanPending := v } }

/-- REGISTRY_SCAN (R200 to R204, R391): one scan, whose entries' reads return `entries`. `stopAt` says that the PF's Bus
Master Enable fell to 0 before entry `stopAt` was read. While the bit is 0 a trigger is kept as one pending scan. Where
INGEST_SCAN_MS is 0 only another trigger starts a scan (Table 8.13). -/
def execRegistryScan (entries : List (ReadRes (List Byte))) (stopAt : Option Nat) (s : State) : Out :=
  .next (s.when (s.imageLoaded && s.regBit .INGEST_CTRL 0 0 0 &&
      (s.regNat .INGEST_SCAN_MS 0 0 != 0 || s.ing.scanPending)) (fun s =>
    let n := min 512 (s.regNat .INGEST_REG_COUNT 0 0)
    if !s.canMaster 0 then s.setScanPending true
    else
      let p : Scan := { s := s, named := [], kept := [] }
      match stopAt with
      | some k => s.when (entries.length = k ∧ k < n) (fun _ => (p.entries (indexed entries)).s.setScanPending true)
      | none =>
        s.when (entries.length = n) (fun _ =>
          let q := p.entries (indexed entries)
          let s1 := q.s.detachUnnamed q.named q.kept (q.s.ing.rills.map (·.1))
          (s1.setScanPending false).updReg .INGEST_SCAN_SEQ 0 0 (fun v => (v + 1) &&& 0xFFFFFFFF#64))))

/-! ## RILL_DRAIN_COMPLETE -/

/-- Whether the last frame of a draining rill can leave decode: no copy, access unit or picture is left (R204). -/
def State.drained (s : State) (r : Nat) : Bool :=
  (s.rill r).st == .draining && (s.rill r).copies == [] &&
    (match (s.rill r).ctx with
     | some c => (match s.decCtx c with
       | some d => d.queue == [] && d.pic.isNone
       | none => true)
     | none => true)

/-- The pictures still held by a draining rill's context leave decode. -/
def State.outputLast (s : State) (r : Nat) : State :=
  match (s.rill r).ctx, s.classOf r with
  | some c, some k => s.outputAll c k (match s.decCtx c with
      | some d => d.held.length
      | none => 0)
  | _, _ => s

/-- RILL_DRAIN_COMPLETE (R204, R265): the context is freed, the rill's tracks end, the status record with state 0 and an
event record of kind 8 are written; then an entry recorded meanwhile is acted on (Table 8.5). -/
def execRillDrainComplete (rill : Nat) (s : State) : Out :=
  .next (s.when (s.drained rill && !s.coolantHeld) (fun s =>
    let s1 := (s.outputLast rill).freeCtx rill
    let x := s1.rill rill
    let s2 := (s1.setRill rill { x with st := .detached, ctx := none }).statusRecord rill
    let s3 := (s2.ingestEvent
      { status := 0, rill := rill, kind := 8, ts := 0, index := x.entry, a := x.seq, b := 0, c := 0, d := 0 }).endTracks rill
    let s4 := s3.clearRill rill
    let s5 := match x.recorded with
      | some (i, e) => if s4.imageLoaded then s4.scanAct i e else s4
      | none => s4
    State.schedule (State.settle s5)))

/-! ## ENGINE_UTIL_UPDATE -/

/-- ENGINE_UTIL_UPDATE (R227): every 10 ms, the utilisation of an engine in thousandths; saturation with its source. -/
def execEngineUtilUpdate (engine util : Nat) (s : State) : Out :=
  .next (s.when (decPresent s.dev.part engine && decide (util ≤ 1000)) (fun s =>
    let s1 := s.setReg .INGEST_ENG_UTIL 0 engine (BitVec.ofNat 64 util)
    let pct := s.regNat .INGEST_SAT_PCT 0 0
    let e := s1.engine engine
    if !e.saturated && decide (pct * 10 ≤ util) then (s1.setEngine engine { e with saturated := true }).raise 2
    else if e.saturated && decide (util < (pct - 5) * 10) then s1.setEngine engine { e with saturated := false }
    else s1))

end Sys2Proof.Machine
end

