-- ==== Sys2Proof/Machine/DecodeCmds.lean ====
section
/-! DEFINITION. The decode engines' commands (R210 to R220): turns, quanta, budgets, completed pictures. -/

set_option Elab.async false

namespace Sys2Proof.Machine

/-! ## DECODE_TURN -/

/-- Whether a context has something to decode (R214). -/
def DecCtx.busy (d : DecCtx) : Bool := d.rill.isSome && (d.pic.isSome || d.queue != [])

/-- The contexts of an engine that are ready (R214). An engine that is the next to switch its microcode completes its
pictures in progress and takes no new one (R449). -/
def State.readyCtxs (s : State) (eng : Nat) : List Nat :=
  (s.ing.ctxs.filter (fun x => x.1 / 32 = eng && x.2.busy && (!s.switchHolds eng || x.2.pic.isSome))).map (·.1)

/-- The next ready context, round-robin in ascending context number (R214). -/
def State.nextReady (s : State) (eng : Nat) : Option Nat :=
  let l := s.readyCtxs eng
  match l.find? (fun c => decide ((s.engine eng).last < c % 32)) with
  | some c => some c
  | none => l.head?

/-- The flags of refused descriptors take effect in their place (R193). -/
def State.popMarkers (s : State) (c : Nat) (k : RillClass) : List AuJob → State
  | [] => s
  | j :: js =>
    if j.status = 0 then s
    else
      let s1 := match s.decCtx c with
        | some d => s.setDecCtx c { d with queue := js }
        | none => s
      State.popMarkers ((if bitAt j.flags 1 then s1.discontinue c else s1).endStream c k j) c k js

/-- The buffer of picture `n` of a context, as (address, length). -/
def State.picRange (s : State) (r : Nat) (d : DecCtx) (n : Nat) : List (Nat × Nat) :=
  match d.held.find? (fun p => p.num = n) with
  | some p => [(p.handle.addr, (SeqHdrGeo p.hdr).size)]
  | none =>
    (match s.ing.frames.find? (fun f => f.rill = r && f.picNum = n && f.isRef) with
     | some f => [(f.handle.addr, (SeqHdrGeo f.hdr).size)]
     | none => [])

/-- The buffers of the references of an access unit that its context holds. -/
def State.refRanges (s : State) (r : Nat) (d : DecCtx) (p : AuParse) : List (Nat × Nat) :=
  (p.refs.filter d.refs.contains).flatMap (s.picRange r d)

/-- The judgement of a sequence-level header, or of an access unit that none precedes (R211 to R213). -/
def State.judge (s : State) (k : RillClass) (b : DecBind) (d : DecCtx) (p : AuParse) : Option W16 :=
  let h := p.seq.getD noHdr
  if p.seq.isNone && d.hdr.isSome then none
  else match envelope k h with
    | some st => some st
    | none =>
      if s.poolSize b.framePool < (SeqHdrGeo h).size then some Status.frameTooLarge
      else if p.toolRefused then some Status.toolRefused
      else none

/-- A context under a new header (R216): A starts at A0 with the first header and with one that changes the coded size. -/
def DecCtx.withHdr (d : DecCtx) (k : RillClass) (h : SeqHdr) : DecCtx :=
  let a0 := nominalWork k.codec h.width h.height
  match d.hdr with
  | some o => if o.width = h.width ∧ o.height = h.height then { d with hdr := some h } else { d with hdr := some h, a0 := a0, avg := a0 }
  | none => { d with hdr := some h, a0 := a0, avg := a0 }

/-- Start an admitted access unit's picture (R219, R220, R328): `unit` are its bytes. The engine reads the references that
it needs; whether a poisoned block is among what it reads of them, the parse says. A buffer at an address that names no
memory drops the picture with the status of R30 (log 97). -/
def State.startPicture (s : State) (c : Nat) (k : RillClass) (b : DecBind) (d : DecCtx) (au : AuJob) (unit : List Byte)
    (h : SeqHdr) (p : AuParse) : State :=
  let dropped (s : State) (st : W16) : State :=
    (((s.setDecCtx c { d with refs := d.refs.filter p.keep.contains }).dropPicture (c / 32) au st).freeAu au).endStream c k au
  let read := s.reads (portDec (c / 32)) (s.refRanges au.rill d p)
  match (if p.readsPoison then read.1 else none) with
  | some st => dropped read.2 st
  | none =>
    match read.2.alloc b.framePool with
    | (none, s1) => dropped s1 Status.framePoolEmpty
    | (some hd, s1) =>
      match rangeStatus s1.dev.part hd.addr (SeqHdrGeo h).size with
      | some st => dropped (s1.release hd (s.rill au.rill).fn) st
      | none =>
        let sub := !p.rap && (d.substituting || p.refs.any (fun n => !d.refs.contains n))
        let pic : Pic :=
          { num := d.nextPic - 1, au := au, hdr := h, handle := hd, isRef := p.isRef, keep := p.keep, ctu := p.ctu, disc := d.disc
            state := Config.decoderState k.codec d.state unit, work := 0, concealed := false, abandoned := false
            substituted := sub }
        (s1.setDecCtx c { d with pic := some pic, substituting := sub }).setEngine (c / 32)
          { s1.engine (c / 32) with current := some c }

/-- The engine takes an access unit from its context's queue (R193, R211 to R213, R219, R220, R328). -/
def State.takeAu (s : State) (c : Nat) (k : RillClass) (b : DecBind) (au : AuJob) (p : AuParse) : State :=
  let s0 := if bitAt au.flags 1 then s.discontinue c else s
  match s0.decCtx c with
  | none => s0
  | some d0 =>
    let d := { d0 with queue := d0.queue.drop 1, nextPic := d0.nextPic + 1 }
    let s1 := s0.setDecCtx c d
    let unit := s1.memGet au.handle.addr au.length
    let refuse (s : State) (h : SeqHdr) (st : W16) (event : Bool) : State :=
      ((s.refuseAu (c / 32) au k h st event).freeAu au).endStream c k au
    match s1.reads (portDec (c / 32)) [(au.handle.addr, au.length)] with
    | (some st, s2) => ((s2.dropPicture (c / 32) au st).freeAu au).endStream c k au
    | (none, s2) =>
      let judged := s2.judge k b d p
      let h := p.seq.getD (d.hdr.getD noHdr)
      match d.refusing, judged with
      | some st, j =>
        if p.rap && p.seq.isSome && j.isNone then
          s2.startPicture c k b ({ d with refusing := none }.withHdr k h) au unit h p
        else refuse s2 h st false
      | none, some st => refuse (s2.setDecCtx c { d with refusing := some st }) h st true
      | none, none =>
        if p.seq.isNone && p.toolRefused then refuse s2 h Status.toolRefused true
        else s2.startPicture c k b (if p.seq.isSome then d.withHdr k h else d) au unit h p

/-- Whether an engine can reach what taking the next access unit of a context touches (R335). -/
def State.decReach (s : State) (d : DecCtx) (b : DecBind) (p : AuParse) (au : AuJob) : Bool :=
  s.canReach au.handle.addr au.length && s.canAlloc b.framePool && s.poolReach b.framePool &&
    s.reach (s.refRanges au.rill d p)

/-- DECODE_TURN (R214): the next ready context has the engine. Where it has no picture in progress its next access unit is
taken, in which the engine finds `parse` (log 6). -/
def execDecodeTurn (engine : Nat) (parse : AuParse) (s : State) : Out :=
  .next (s.when (decPresent s.dev.part engine && s.domainLive (.decode (engine / 4)) && !s.coolantHeld &&
      (s.engine engine).current.isNone) (fun s =>
    match s.nextReady engine with
    | none => s
    | some c =>
      let s1 := s.setEngine engine { s.engine engine with last := c % 32 }
      match s1.decCtx c with
      | none => s1
      | some d =>
        if d.pic.isSome then s1.setEngine engine { s1.engine engine with current := some c }
        else
          match d.rill.bind s1.classOf, d.rill.bind s1.bindOf with
          | some k, some b =>
            let s2 := s1.popMarkers c k d.queue
            (match s2.decCtx c with
             | some d2 =>
               (match d2.queue with
                | au :: _ => State.schedule (State.settle (if s2.decReach d2 b parse au then s2.takeAu c k b au parse else s2))
                | [] => State.schedule (State.settle s2))
             | none => s2)
          | _, _ => s1))

/-! ## Work -/

/-- The context on an engine and its picture. -/
def State.onEngine (s : State) (eng : Nat) : Option (Nat × DecCtx × Pic × RillClass) :=
  match (s.engine eng).current with
  | some c =>
    (match s.decCtx c with
     | some d =>
       (match d.pic, d.rill with
        | some p, some r => (s.classOf r).map (fun k => (c, d, p, k))
        | _, _ => none)
     | none => none)
  | none => none

/-- Whether an engine's clock runs. -/
def State.engineRuns (s : State) (eng : Nat) : Bool := s.domainLive (.decode (eng / 4)) && !s.coolantHeld

/-- QUANTUM_EXPIRE (R214, R215): a slice, tile or CTU-row boundary after the quantum; the turn took `work` work cycles. -/
def execQuantumExpire (engine work : Nat) (s : State) : Out :=
  .next (match s.onEngine engine with
    | none => s
    | some (c, d, p, k) =>
      s.when (s.engineRuns engine && decide (s.regNat .DEC_QUANTUM_US engine 0 * 1000 ≤ work) &&
          decide (p.work + work ≤ budget k d)) (fun s =>
        let s1 := ((s.setDecCtx c { d with pic := some { p with work := p.work + work } }).addTo .DEC_CNT_WORK engine work).addWork
          p.au.rill work
        s1.setEngine engine { s1.engine engine with current := none }))

/-! ## A picture's bytes -/

/-- One plane of a frame: offset, pitch, bytes of a row, rows, luma rows for each of its rows, luma columns for each of its
samples, and bytes of a sample. -/
structure Plane where
  off : Nat
  pitch : Nat
  row : Nat
  rows : Nat
  sub : Nat
  subX : Nat
  b : Nat
  deriving DecidableEq, Repr

/-- The three planes of R213. -/
def planesOfFrame (h : SeqHdr) : List Plane :=
  let g := SeqHdrGeo h
  let sub := if h.chroma = 0 then 2 else 1
  let subX := if h.chroma = 2 then 1 else 2
  [ { off := 0x80, pitch := g.lp, row := h.width * g.b, rows := h.height, sub := 1, subX := 1, b := g.b },
    { off := g.cb, pitch := g.cp, row := g.cw * g.b, rows := g.ch, sub := sub, subX := subX, b := g.b },
    { off := g.cr, pitch := g.cp, row := g.cw * g.b, rows := g.ch, sub := sub, subX := subX, b := g.b } ]

/-- CTU rows of a picture (R214). -/
def Pic.ctuRows (p : Pic) : Nat := ceilDiv p.hdr.height p.ctu

/-- Whether runs lie in a picture. -/
def Pic.runsOk (p : Pic) (rs : List CtuRun) : Bool :=
  rs.all (fun r => decide (r.row < p.ctuRows) && decide (r.x0 < r.x1) && decide (r.x1 ≤ p.hdr.width))

/-- Whether concealed areas are such as R218 makes: something in each, with one of its two statuses. -/
def Pic.areasOk (p : Pic) (areas : List Area) : Bool :=
  areas.all (fun a => (a.status == Status.dataRanOut || a.status == Status.corruptData) && a.runs != [] && p.runsOk a.runs)

/-- The first CTU row of runs, or the picture's row count where there is none (R217, R218). -/
def Pic.firstRow (p : Pic) (rs : List CtuRun) : Nat := rs.foldl (fun m r => min m r.row) p.ctuRows

/-- Whether byte `x` of row `y` of a plane lies in one of the runs. -/
def concealedAt (ctu : Nat) (rs : List CtuRun) (p : Plane) (y x : Nat) : Bool :=
  rs.any (fun r => r.row == y * p.sub / ctu && decide (r.x0 ≤ x / p.b * p.subX) && decide (x / p.b * p.subX < r.x1))

/-- Byte `x` of a row of mid-value samples (R218): 128 at 8 bits, 512 at 10 bits. -/
def midByte (b x : Nat) : Byte := if b = 1 then 0x80#8 else if x % 2 = 1 then 0x02#8 else 0x00#8

/-- The context's most recent output frame, where its samples lie where this picture's do (R218; log 25). -/
def State.concealSource (s : State) (r : Nat) (h : SeqHdr) : Option Frame :=
  match s.frame r (frameNo (s.rill r).att ((s.rill r).framesOut - 1)) with
  | some f =>
    if 0 < (s.rill r).framesOut && f.hdr.width = h.width && f.hdr.height = h.height && f.hdr.bitDepth = h.bitDepth &&
        f.hdr.chroma = h.chroma then some f else none
  | none => none

/-- Whether the byte at an internal address lies in a poisoned block. -/
def State.badByte (s : State) (a : Nat) : Bool :=
  match whereAddr s.dev.part a with
  | .dram x => s.poisoned (x / 64)
  | _ => false

/-- A byte of a concealed area (R218): copied from the source, or mid-value where there is none or its block is poisoned. -/
def State.concealByte (s : State) (src : Option Frame) (b i x : Nat) : Byte :=
  match src with
  | some f => if s.badByte (f.handle.addr + i) then midByte b x else s.memByte (f.handle.addr + i)
  | none => midByte b x

/-- The bytes of row `y` of a plane: reconstructed (log 6), or concealed. The high byte of a 10-bit sample holds two
bits. -/
def State.rowBytes (s : State) (p : Pic) (src : Option Frame) (hidden : List CtuRun) (q : Plane) (y : Nat) : List Byte :=
  (List.range q.row).map (fun x =>
    let i := q.off + q.pitch * y + x
    if concealedAt p.ctu hidden q y x then s.concealByte src q.b i x
    else if q.b = 2 ∧ x % 2 = 1 then Config.reconByte p.state i &&& 0x03#8 else Config.reconByte p.state i)

/-- The rows of a picture, as (offset in its buffer, bytes). -/
def State.picRows (s : State) (p : Pic) (src : Option Frame) (hidden : List CtuRun) : List (Nat × List Byte) :=
  (planesOfFrame p.hdr).flatMap (fun q =>
    (List.range q.rows).map (fun y => (q.off + q.pitch * y, s.rowBytes p src hidden q y)))

/-- Write rows into a buffer. -/
def State.putRows (s : State) (port base : Nat) : List (Nat × List Byte) → State
  | [] => s
  | (off, bs) :: rs => State.putRows (s.memPut port (base + off) bs) port base rs

/-- Bytes of the concealment source that a run of samples takes, as (address, length). -/
def runRanges (ctu base : Nat) (q : Plane) (r : CtuRun) : List (Nat × Nat) :=
  let lo := ceilDiv r.x0 q.subX * q.b
  let hi := min (ceilDiv r.x1 q.subX * q.b) q.row
  ((List.range q.rows).filter (fun y => y * q.sub / ctu = r.row)).map (fun y => (base + q.off + q.pitch * y + lo, hi - lo))

/-- The same for runs, in every plane; nothing where there is no source. -/
def Pic.srcRanges (p : Pic) (src : Option Frame) (rs : List CtuRun) : List (Nat × Nat) :=
  match src with
  | some f => (planesOfFrame p.hdr).flatMap (fun q => rs.flatMap (runRanges p.ctu f.handle.addr q))
  | none => []

/-! ## Completion -/

/-- An event record about part of a picture (Table 8.12). -/
def State.picEvent (s : State) (p : Pic) (kind : Nat) (st : W16) (slice row off : Nat) : State :=
  s.ingestEvent { status := st, rill := p.au.rill, kind := kind, ts := p.au.captureTs, index := p.au.index, a := slice
                  b := row, c := off, d := 0 }

/-- Each concealed area reads its source and has its record (R218): with the poison status where a block of the source
reads poisoned. -/
def State.areaEvents (s : State) (port : Nat) (p : Pic) (src : Option Frame) : List Area → State
  | [] => s
  | a :: as =>
    let r := s.reads port (p.srcRanges src a.runs)
    State.areaEvents (r.2.picEvent p 2 (r.1.getD a.status) a.slice (p.firstRow a.runs) a.byteOffset) port p src as

/-- Count a picture's outcome in its rill and engine (R217, R218, Table 8.14). -/
def State.countPicture (s : State) (eng : Nat) (p : Pic) : State :=
  let s1 := s.updRill p.au.rill (fun x => { x with
    concealed := if p.concealed then bump x.concealed else x.concealed
    abandoned := if p.abandoned then bump x.abandoned else x.abandoned })
  let s2 := if p.concealed || p.substituted then s1.count .DEC_CNT_CONCEAL eng else s1
  if p.abandoned then s2.count .DEC_CNT_ABANDON eng else s2

/-- A picture ends (R193, R214, R216, R218, R219, R222): its bytes are in its buffer, its access unit is given back, it
joins its context's held pictures, and those of `outputs` leave decode. `areas` are the concealed areas that have a record of
kind 2, `rest` what is concealed without one; `tell` writes what is told after them. -/
def State.endPicture (s : State) (eng c : Nat) (k : RillClass) (d : DecCtx) (p : Pic) (areas : List Area)
    (rest : List CtuRun) (outputs : List Nat) (tell : State → State) : State :=
  let r := p.au.rill
  let src := s.concealSource r p.hdr
  let rows := s.picRows p src (areas.flatMap (·.runs) ++ rest)
  let s1 := if p.substituted then s.picEvent p 2 Status.referenceMissing 0 0 0 else s
  let s2 := (s1.areaEvents (portDec eng) p src areas).visitAll (portDec eng) (p.srcRanges src rest)
  let s3 := (((tell s2).countPicture eng p).putRows (portDec eng) p.handle.addr rows).freeAu p.au
  let refs := d.refs.filter p.keep.contains ++ (if p.isRef then [p.num] else [])
  let s4 := (s3.setDecCtx c { d with
    pic := none, refs := refs, held := d.held ++ [p], state := Config.decoderNext p.state (rows.flatMap (·.2))
    avg := if p.abandoned then d.avg else nextAvg d.avg p.work }).remark r
  let s5 := (s4.outputHeld c k outputs).endStream c k p.au
  s5.setEngine eng { s5.engine eng with current := none }

/-- Whether an engine can reach what a picture's end touches (R335): its buffer, the concealment source, and the buffers of
the pictures that leave decode. -/
def State.endReach (s : State) (d : DecCtx) (p : Pic) (runs : List CtuRun) : Bool :=
  s.reach (((p :: d.held).map (fun q => (q.handle.addr, (SeqHdrGeo q.hdr).size))) ++
    p.srcRanges (s.concealSource p.au.rill p.hdr) runs)

/-- PICTURE_COMPLETE (R214 to R219): the turn took `work` work cycles; `areas` are concealed; `outputs` are the pictures that
now leave decode, in the codec's output order (log 6). -/
def execPictureComplete (engine work : Nat) (areas : List Area) (outputs : List Nat) (s : State) : Out :=
  .next (match s.onEngine engine with
    | none => s
    | some (c, d, p, k) =>
      s.when (s.engineRuns engine && decide (p.work + work ≤ budget k d) && p.areasOk areas &&
          s.endReach d p (areas.flatMap (·.runs))) (fun s =>
        let p1 := { p with work := p.work + work, concealed := areas != [] }
        State.schedule (State.settle (((s.addTo .DEC_CNT_WORK engine work).addWork p.au.rill work).endPicture engine c k d p1
          areas [] outputs id))))

/-- BUDGET_EXCEEDED (R217): the count has passed Bf; the picture is abandoned, and `rest` of it is concealed. Its record gives
the first concealed CTU row, or the picture's row count where nothing remains. -/
def execBudgetExceeded (engine work slice byteOffset : Nat) (rest : List CtuRun) (areas : List Area) (outputs : List Nat)
    (s : State) : Out :=
  .next (match s.onEngine engine with
    | none => s
    | some (c, d, p, k) =>
      s.when (s.engineRuns engine && decide (budget k d < p.work + work) && p.areasOk areas && p.runsOk rest &&
          s.endReach d p (areas.flatMap (·.runs) ++ rest)) (fun s =>
        let p1 := { p with work := p.work + work, abandoned := true, concealed := areas != [] || rest != [] }
        State.schedule (State.settle (((s.addTo .DEC_CNT_WORK engine work).addWork p.au.rill work).endPicture engine c k d p1
          areas rest outputs (fun s => s.picEvent p1 3 Status.decodeBudget slice (p1.firstRow rest) byteOffset)))))

end Sys2Proof.Machine
end

