-- ==== Sys2Proof/Machine/PixelOps.lean ====
section
/-! DEFINITION. The pixel path, shared operations: scaler programs (R231, R232), source rectangles and geometry (R235,
R236), resampling (R237 to R239), colour conversion (R240), output planes (R241). -/

set_option Elab.async false

namespace Sys2Proof.Machine

/-! ## Scaler programs -/

/-- A region descriptor (Table 9.2). -/
structure RegionDesc where
  kind : Nat
  filter : Nat
  fit : Nat
  outFmt : Nat
  channels : Nat
  matrix : Nat
  defMatrix : Nat
  range : Nat
  sx : Nat
  sy : Nat
  sw : Nat
  sh : Nat
  outW : Nat
  outH : Nat
  margin : Nat
  target : Nat
  pad : List Nat
  dest : Nat
  pool : Nat
  rowPitch : Nat
  planePitch : Nat
  basinOff : Nat
  slotCount : Nat
  slotPitch : Nat
  deriving DecidableEq, Repr

def readRegion (rd : Nat → Nat → Nat) : RegionDesc :=
  { kind := rd 0 1, filter := rd 1 1, fit := rd 2 1, outFmt := rd 3 1, channels := rd 4 1, matrix := rd 5 1
    defMatrix := rd 6 1, range := rd 7 1, sx := rd 8 2, sy := rd 0xA 2, sw := rd 0xC 2, sh := rd 0xE 2, outW := rd 0x10 2
    outH := rd 0x12 2, margin := rd 0x14 2, target := rd 0x16 2, pad := [rd 0x18 2, rd 0x1A 2, rd 0x1C 2], dest := rd 0x1E 1
    pool := rd 0x1F 1, rowPitch := rd 0x20 4, planePitch := rd 0x24 4, basinOff := rd 0x28 4, slotCount := rd 0x2C 2
    slotPitch := rd 0x30 4 }

/-- A scaler program (Table 9.1): its fixed and whole-frame descriptors, then its track-crop descriptors. -/
structure ScalerProg where
  rois : List RegionDesc
  crops : List RegionDesc
  deriving DecidableEq, Repr

/-- The addresses of the programs in DRAM bytes `a` to `e - 1` (R231). -/
def State.programsIn (s : State) (e : Nat) : Nat → Nat → List Nat
  | 0, _ => []
  | k + 1, a => if e < a + 64 then [] else a :: State.programsIn s e k (a + 64 * (1 + s.dramRd (a + 2) 1 + s.dramRd (a + 3) 1))

/-- The program at a DRAM address. -/
def State.programAt (s : State) (a : Nat) : ScalerProg :=
  let n := s.dramRd (a + 2) 1
  let m := s.dramRd (a + 3) 1
  let at_ (i : Nat) : RegionDesc := readRegion (fun off k => s.dramRd (a + 0x40 + 64 * i + off) k)
  { rois := (List.range n).map at_, crops := (List.range m).map (fun i => at_ (n + i)) }

/-- The program of a pixel context, of the segment version that serves it where its segment holds one. -/
def State.program (s : State) (ctx : Nat) (old : Bool) : Option ScalerProg :=
  let l := (s.sections ctx old ++ s.ldr.image.placed).filter (fun p => p.type = 12)
  let all := l.flatMap (fun p => s.programsIn (p.load + p.len) (p.len / 64) p.load)
  (all.find? (fun a => s.dramRd a 2 = ctx)).map s.programAt

/-! ## The frame header that the engine reads (Table 8.10) -/

structure FrameHdr where
  cropX : Nat
  cropY : Nat
  cropW : Nat
  cropH : Nat
  depth : Nat
  chroma : Nat
  matrix : Nat
  full : Bool
  lp : Nat
  cp : Nat
  cb : Nat
  cr : Nat
  deriving DecidableEq, Repr

def State.readFrameHdr (s : State) (a : Nat) : FrameHdr :=
  let rd (off n : Nat) : Nat := s.memRd (a + off) n
  { cropX := rd 4 2, cropY := rd 6 2, cropW := rd 8 2, cropH := rd 0xA 2, depth := rd 0xC 1, chroma := rd 0xD 1
    matrix := rd 0xE 1, full := bitAt (rd 0xF 1) 0, lp := rd 0x10 4, cp := rd 0x14 4, cb := rd 0x18 4, cr := rd 0x1C 4 }

/-! ## Source rectangle and geometry -/

/-- A rectangle in luma pixels relative to the crop window. -/
structure Rect where
  x : Int
  y : Int
  w : Int
  h : Int
  deriving DecidableEq, Repr

/-- A side of a track crop (R235, kind 2): widened by the margin, then grown to 16 and shrunk to 2,048 about its centre. -/
def cropSide (x w margin : Int) : Int × Int :=
  let m := (w * margin).tdiv 16
  let x1 := x - m
  let w1 := w + 2 * m
  if w1 < 16 then (x1 - (16 - w1).tdiv 2, 16) else if 2048 < w1 then (x1 + (w1 - 2048).tdiv 2, 2048) else (x1, w1)

/-- The source rectangle before clipping (R235); `box` is the requested box of a crop. 0x1032 where the window is too
large. -/
def sourceRect (d : RegionDesc) (h : FrameHdr) (box : Rect) : W16 ⊕ Rect :=
  match d.kind with
  | 0 => .inr { x := d.sx, y := d.sy, w := d.sw, h := d.sh }
  | 1 =>
    if 2048 < h.cropW ∨ 2048 < h.cropH then .inl Status.windowTooLarge
    else .inr { x := 0, y := 0, w := h.cropW, h := h.cropH }
  | _ =>
    let a := cropSide box.x box.w d.margin
    let b := cropSide box.y box.h d.margin
    .inr { x := a.1, y := b.1, w := a.2, h := b.2 }

/-- Clipped to the crop window; 0x1031 where narrower or shorter than a pixel (R235). -/
def clipRect (h : FrameHdr) (r : Rect) : W16 ⊕ Rect :=
  let x0 := max r.x 0
  let y0 := max r.y 0
  let w := min (r.x + r.w) h.cropW - x0
  let k := min (r.y + r.h) h.cropH - y0
  if w < 1 ∨ k < 1 then .inl Status.cropEmpty else .inr { x := x0, y := y0, w := w, h := k }

/-- The source rectangle of a region, clipped; or the status with which the region is skipped. -/
def clippedRect (d : RegionDesc) (h : FrameHdr) (box : Rect) : W16 ⊕ Rect :=
  match sourceRect d h box with
  | .inl st => .inl st
  | .inr r => clipRect h r

/-- The geometry of R236 for a clipped source rectangle. -/
def fitGeom (d : RegionDesc) (r : Rect) : Geom :=
  let sw := r.w.toNat
  let sh := r.h.toNat
  let wide := decide (d.outW * sh ≤ d.outH * sw)
  let pw := if d.fit = 0 || wide then d.outW else max 1 (sw * d.outH / sh)
  let ph := if d.fit = 0 then d.outH else if wide then max 1 (sh * d.outW / sw) else d.outH
  let centred := d.fit = 1
  { sx := r.x.toNat, sy := r.y.toNat, sw := sw, sh := sh, ox := if centred then (d.outW - pw) / 2 else 0
    oy := if centred then (d.outH - ph) / 2 else 0, pw := pw, ph := ph }

/-! ## Resampling -/

/-- Nearest integer of a quotient, halves away from zero: R of R238 and R240. -/
def roundDiv (n d : Int) : Int := if 0 ≤ n then (2 * n + d) / (2 * d) else -((-2 * n + d) / (2 * d))

/-- The bicubic coefficients of a phase (R238): c(-1), c(0), c(1), c(2). -/
def cubic (ph : Int) : List Int :=
  let p2 := 64 * (ph * ph)
  let p3 := ph * ph * ph
  let a := roundDiv (-p3 + 2 * p2 - 4096 * ph) 4096
  let c := roundDiv (-3 * p3 + 4 * p2 + 4096 * ph) 4096
  let d := roundDiv (p3 - p2) 4096
  [a, 128 - a - c - d, c, d]

/-- The taps of one output index along an axis: samples with weights, and the divisor of an area filter (0: none). -/
structure Taps where
  taps : List (Nat × Int)
  div : Int
  deriving DecidableEq, Repr

/-- A sample index held to the edges of the rectangle (R238). -/
def edge (n : Nat) (k : Int) : Nat := (clampInt 0 ((n : Int) - 1) k).toNat

/-- The taps of output index `x` (R237 to R239): `n` samples of the axis, `sub` luma samples to each of them, `vert420` for
the vertical chroma axis of 4:2:0, `step` in luma units of 2^-16. -/
def tapsAt (filter : Nat) (area : Bool) (n sub : Nat) (vert420 : Bool) (step x : Nat) : Taps :=
  if area then
    let unit := 65536 * sub
    let a := x * step
    let b := a + step
    { taps := (List.range ((b - 1) / unit + 1 - a / unit)).map (fun j =>
        let k := a / unit + j
        (edge n (k : Int), ((min b ((k + 1) * unit) - max a (k * unit) : Nat) : Int)))
      div := (step : Int) }
  else
    let xs : Int := (x * step + step / 2 : Nat) - 32768
    let pos : Int := if sub = 1 then xs else if vert420 then (xs - 32768) / 2 else xs / 2
    let i := pos / 65536
    let ph := pos % 65536 / 1024
    if filter = 1 then
      { taps := (([i - 1, i, i + 1, i + 2] : List Int).zip (cubic ph)).map (fun t => (edge n t.1, t.2)), div := 0 }
    else { taps := [(edge n i, 128 - 2 * ph), (edge n (i + 1), 2 * ph)], div := 0 }

/-- Apply taps to samples. -/
def Taps.apply (t : Taps) (f : Nat → Int) : Int :=
  let v := (t.taps.map (fun k => f k.1 * k.2)).foldl (· + ·) 0
  if t.div = 0 then v else (128 * v + t.div / 2) / t.div

/-- A plane's part that a region reads: its address in the frame, pitch, first column and row, size, samples per luma
sample, and whether its vertical axis is that of 4:2:0 chroma. -/
structure SrcPlane where
  addr : Nat
  pitch : Nat
  x : Nat
  y : Nat
  w : Nat
  h : Nat
  subX : Nat
  subY : Nat
  deriving DecidableEq, Repr

/-- The planes that a region reads (R239): the chroma rectangle that corresponds to the source rectangle (log 26). -/
def srcPlanes (a : Nat) (d : RegionDesc) (h : FrameHdr) (g : Geom) : List SrcPlane :=
  let gx := h.cropX + g.sx
  let gy := h.cropY + g.sy
  let hs := if h.chroma < 2 then 2 else 1
  let vs := if h.chroma = 0 then 2 else 1
  let luma : SrcPlane :=
    { addr := a + 0x80, pitch := h.lp, x := gx, y := gy, w := g.sw, h := g.sh, subX := 1, subY := 1 }
  let chroma (off : Nat) : SrcPlane :=
    { addr := a + off, pitch := h.cp, x := gx / hs, y := gy / vs, w := ceilDiv (gx + g.sw) hs - gx / hs
      h := ceilDiv (gy + g.sh) vs - gy / vs, subX := hs, subY := vs }
  if d.channels = 3 then [luma] else [luma, chroma h.cb, chroma h.cr]

/-- A sample of a plane (R213). -/
def State.sampleAt (s : State) (depth : Nat) (p : SrcPlane) (x y : Nat) : Int :=
  let a := p.addr + p.pitch * (p.y + y)
  if depth = 8 then (s.memByte (a + (p.x + x))).toNat else (s.memRd (a + 2 * (p.x + x)) 2 % 1024 : Nat)

/-- The taps of both axes of a plane. -/
def planeTaps (d : RegionDesc) (g : Geom) (p : SrcPlane) : List Taps × List Taps :=
  let stepX := g.sw * 65536 / g.pw
  let stepY := g.sh * 65536 / g.ph
  ((List.range g.pw).map (tapsAt d.filter (d.filter = 2 && decide (g.pw ≤ g.sw)) p.w p.subX false stepX),
   (List.range g.ph).map (tapsAt d.filter (d.filter = 2 && decide (g.ph ≤ g.sh)) p.h p.subY (p.subY = 2) stepY))

/-- The resampled samples of a plane, row by row (R238): horizontally, then vertically, then rounded and clamped. -/
def State.resample (s : State) (depth : Nat) (d : RegionDesc) (g : Geom) (p : SrcPlane) : List (List Int) :=
  let t := planeTaps d g p
  t.2.map (fun v => t.1.map (fun h =>
    clampInt 0 (2 ^ depth - 1) ((v.apply (fun y => h.apply (fun x => s.sampleAt depth p x y)) + 8192) / 16384)))

/-- The samples that a region reads of a plane (R328), as (address, length) by row: the columns between the first and the
last that a tap names. -/
def planeRanges (depth : Nat) (d : RegionDesc) (g : Geom) (p : SrcPlane) : List (Nat × Nat) :=
  let t := planeTaps d g p
  let xs := t.1.flatMap (fun v => v.taps.map (·.1))
  let ys := t.2.flatMap (fun v => v.taps.map (·.1))
  let lo := xs.foldl min p.w
  let hi := xs.foldl max 0
  let b := if depth = 8 then 1 else 2
  ((List.range p.h).filter ys.contains).map (fun y => (p.addr + p.pitch * (p.y + y) + b * (p.x + lo), b * (hi + 1 - lo)))

/-! ## Colour conversion -/

/-- Kr and Kb of Table 9.4 in ten-thousandths. -/
def matrixK : Nat → Int × Int
  | 1 => (2990, 1140)
  | 2 => (2126, 722)
  | _ => (2627, 593)

/-- The coefficients of R240. -/
structure ColourCoef where
  cy : Int
  crv : Int
  cbu : Int
  cbg : Int
  crg : Int
  oy : Int
  oc : Int
  deriving DecidableEq, Repr

def colourCoef (m : Nat) (full : Bool) (n d : Nat) : ColourCoef :=
  let k := matrixK m
  let kg := 10000 - k.1 - k.2
  let e : Int := 2 ^ (n - 8)
  let yr : Int := if full then 2 ^ n - 1 else 219 * e
  let cr : Int := if full then 2 ^ n - 1 else 224 * e
  let f : Int := 16384 * (2 ^ d - 1)
  { cy := roundDiv f yr, crv := roundDiv (f * 2 * (10000 - k.1)) (10000 * cr), cbu := roundDiv (f * 2 * (10000 - k.2)) (10000 * cr)
    cbg := roundDiv (f * 2 * k.2 * (10000 - k.2)) (10000 * kg * cr), crg := roundDiv (f * 2 * k.1 * (10000 - k.1)) (10000 * kg * cr)
    oy := if full then 0 else 16 * e, oc := if full then 2 ^ (n - 1) else 128 * e }

/-- Output depth (R240). -/
def RegionDesc.depth (d : RegionDesc) : Nat := if d.outFmt = fmtNp8 then 8 else 10

/-- The matrix in force: the descriptor's, the header's, or the default (R240). A header field beyond 3 is taken as
unspecified (log 26). -/
def RegionDesc.matrixFor (d : RegionDesc) (h : FrameHdr) : Nat :=
  if d.matrix ≠ 0 then d.matrix else if h.matrix = 0 ∨ 3 < h.matrix then d.defMatrix else h.matrix

/-- The output channels of one pixel (R240, R241). -/
def convertPixel (d : RegionDesc) (c : ColourCoef) (n : Nat) (v : List Int) : List Int :=
  let o := d.depth
  let y := v.getD 0 0
  let cb := v.getD 1 0
  let cr := v.getD 2 0
  if d.channels < 2 then
    let y1 := c.cy * (y - c.oy)
    let u := cb - c.oc
    let w := cr - c.oc
    let hi : Int := 2 ^ o - 1
    let r := clampInt 0 hi ((y1 + c.crv * w + 8192) / 16384)
    let g := clampInt 0 hi ((y1 - c.cbg * u - c.crg * w + 8192) / 16384)
    let b := clampInt 0 hi ((y1 + c.cbu * u + 8192) / 16384)
    if d.channels = 0 then [r, g, b] else [b, g, r]
  else
    let pass (x : Int) : Int := if n = o then x else if n < o then x * 4 else min ((x + 2) / 4) 255
    if d.channels = 2 then [pass y, pass cb, pass cr] else [pass y]

/-! ## Output -/

/-- Two values to a byte, the first in bits [3:0]; the last byte of an odd row has 0 above (R78, R241). -/
def packNibbles : List Nat → List Byte
  | [] => []
  | [a] => [BitVec.ofNat 8 a]
  | a :: b :: r => BitVec.ofNat 8 (a + 16 * b) :: packNibbles r

/-- Four 2-bit values to a byte (R88, R241). -/
def packCrumbs : List Nat → List Byte
  | [] => []
  | [a] => [BitVec.ofNat 8 a]
  | [a, b] => [BitVec.ofNat 8 (a + 4 * b)]
  | [a, b, c] => [BitVec.ofNat 8 (a + 4 * b + 16 * c)]
  | a :: b :: c :: e :: r => BitVec.ofNat 8 (a + 4 * b + 16 * c + 64 * e) :: packCrumbs r

/-- A region's output pixels, row by row: inside the scaled box converted, outside it the letterbox values (R236, R241). -/
def outRows (d : RegionDesc) (g : Geom) (px : List (List (List Int))) : List (List (List Nat)) :=
  let pad := d.pad.map (· % 2 ^ d.depth)
  (List.range d.outH).map (fun y => (List.range d.outW).map (fun x =>
    if g.ox ≤ x ∧ x < g.ox + g.pw ∧ g.oy ≤ y ∧ y < g.oy + g.ph then
      ((px.getD (y - g.oy) []).getD (x - g.ox) []).map Int.toNat
    else pad))

/-- Channels of a region's output. -/
def RegionDesc.chans (d : RegionDesc) : Nat := if d.channels = 3 then 1 else 3

/-- The writes of a region, as (byte offset, bytes): a row of a plane each (R87, R88, R241). -/
def planeWrites (d : RegionDesc) (rows : List (List (List Nat))) : List (Nat × List Byte) :=
  let k := planesOf d.outFmt
  (List.range (d.chans * k)).flatMap (fun p => (indexed rows).map (fun r =>
    let vals := r.2.map (fun px => planePart d.outFmt (px.getD (p / k) 0) (p % k))
    if d.outFmt = fmtNp10 ∧ p % k = 2 then (p * d.planePitch + r.1 * d.rowPitch / 2, packCrumbs vals)
    else (p * d.planePitch + r.1 * d.rowPitch, packNibbles vals)))

/-- Write pieces from a base address. -/
def State.putAll (s : State) (a : Nat) : List (Nat × List Byte) → State
  | [] => s
  | (off, bs) :: ws => State.putAll (s.memPut portPxe (a + off) bs) a ws

/-- The pixels of a region: every plane resampled, then converted. -/
def State.regionPixels (s : State) (d : RegionDesc) (h : FrameHdr) (g : Geom) (ps : List SrcPlane) : List (List (List Int)) :=
  let full := if d.range = 0 then h.full else d.range == 2
  let c := colourCoef (d.matrixFor h) full h.depth d.depth
  let grids := ps.map (s.resample h.depth d g)
  (List.range g.ph).map (fun y => (List.range g.pw).map (fun x =>
    convertPixel d c h.depth (grids.map (fun q => (q.getD y []).getD x 0))))

/-- Cycles of a region (R244). -/
def regionCycles (d : RegionDesc) (g : Geom) : Nat := max (ceilDiv (g.sw * g.sh) 6) (ceilDiv (d.outW * d.outH) 4) + 200

end Sys2Proof.Machine
end

