-- ==== Sys2Proof/Machine/PixelCmds.lean ====
section
/-! DEFINITION. The scaler engines' commands (R234, R235, R242 to R245). -/

set_option Elab.async false

namespace Sys2Proof.Machine

/-! ## Basin slots (R242, R289) -/

/-- The cluster in which slots for a target are taken: its next-step cluster; the first resident one where none is fixed. -/
def State.slotCluster (s : State) (target : Nat) : Option Nat :=
  match s.ctxEntry target with
  | none => none
  | some e =>
    if e.sharded then (s.collective target false).head?
    else match (s.ctxRun target).next with
      | some n => some n
      | none => (s.maskClusters target).find? (s.resident target)

/-- Every slot in use: of queued items, items of steps, and items whose ready marks are still to come. -/
def State.usedSlots (s : State) : List (Nat × Nat) :=
  let ofItems (l : List Item) : List (Nat × Nat) := l.filterMap (·.slot)
  s.slu.ctxs.flatMap (fun x => ofItems x.2.queue ++ (match x.2.step with
    | some st => ofItems st.items
    | none => [])) ++ s.trk.pxes.flatMap (fun p => ofItems (p.2.marks.map (·.2)))

/-- A free slot for a region in its target's share, besides those of `more`: (cluster, first basin byte). -/
def State.freeSlot (s : State) (d : RegionDesc) (more : List (Nat × Nat)) : Option (Nat × Nat) :=
  match s.slotCluster d.target with
  | none => none
  | some n =>
    match SMap.find? (s.ctxRun d.target).place n with
    | none => none
    | some u =>
      let used := s.usedSlots ++ more
      ((List.range d.slotCount).map (fun i => (n, 65536 * u + d.basinOff + i * d.slotPitch))).find? (fun x => !used.contains x)

/-! ## Regions -/

/-- A region of a command: its index, descriptor, requested box and track. -/
structure RegionJob where
  index : Nat
  desc : RegionDesc
  box : Rect
  track : Nat
  deriving DecidableEq, Repr

/-- Slots for all of a command's dest-1 regions, in order, or none where one is lacking (R242). -/
def State.takeSlots (s : State) : List RegionJob → List (Nat × Nat) → Option (List (Option (Nat × Nat)))
  | [], _ => some []
  | j :: js, more =>
    if j.desc.dest = 1 then
      match s.freeSlot j.desc more with
      | none => none
      | some x => (State.takeSlots s js (x :: more)).map (some x :: ·)
    else (State.takeSlots s js more).map (none :: ·)

/-- A region is skipped (R235, R242, R247, R267, R277): counters, the frame's flow for a head item, the embedding of a
crop. -/
def State.skipRegion (s : State) (n : Nat) (f : Frame) (j : RegionJob) (st : W16) : State :=
  let s1 := s.setReg .PXE_LAST_SKIP n 0 (BitVec.ofNat 64 (st.toNat + 65536 * (j.index % 64)))
  let s2 := if st = Status.outputPoolEmpty then s1.count .PXE_CNT_SKIP_NOBUF n
    else if st = Status.notCached ∨ st = Status.cropEmpty ∨ st = Status.windowTooLarge then s1.count .PXE_CNT_SKIP_OTHER n
    else s1
  let s3 := s2.addTo .PXE_CNT_BUSY n 200
  let error := st != Status.cropEmpty && st != Status.windowTooLarge
  if j.track = 0 then
    if s3.readers j.desc.target = [] then s3
    else s3.updFlow f.rill f.index (fun x => { x with headSkipped := true, errorSeen := x.errorSeen || error })
  else
    let t := s3.rillTrk f.rill
    (s3.setRillTrk f.rill { t with cropsSkipped := bump t.cropsSkipped }).embLose f.rill j.track f.index Status.embeddingLost error

/-- A region is written at internal address `a` (R236 to R242, R245). -/
def State.writeRegion (s : State) (n : Nat) (d : RegionDesc) (h : FrameHdr) (g : Geom) (ps : List SrcPlane) (a : Nat) : State :=
  let s1 := s.putAll a (planeWrites d (outRows d g (s.regionPixels d h g ps)))
  (((s1.addTo .PXE_CNT_REGIONS n 1).addTo .PXE_CNT_READ n (g.sw * g.sh)).addTo .PXE_CNT_WRITTEN n (d.outW * d.outH)).addTo
    .PXE_CNT_BUSY n (regionCycles d g)

/-- The item that a region's ready mark enters in its target's queue (R242). -/
def State.regionItem (s : State) (f : Frame) (j : RegionJob) (g : Geom) (a : Nat) (h : Option Handle) (slot : Option (Nat × Nat)) :
    Item :=
  { rill := f.rill, frame := f.index, region := j.index, track := j.track, captureTs := f.captureTs, stamp := f.stamp, addr := a
    handle := h, slot := slot, geom := g, clock := f.clock, head := j.track = 0 && s.readers j.desc.target != []
    concealed := f.concealed, fallback := false }

/-- What becomes of a region: skipped, a fault of its command, or a ready mark to come. -/
inductive RegionRes where
  | skipped | fault (status : W16) | mark (target : Nat) (it : Item)
  deriving DecidableEq, Repr

/-- One region (R235, R242): skipped, or written with its ready mark to come. A buffer at an address that names no memory
faults the command (R30). -/
def State.runRegion (s : State) (n : Nat) (f : Frame) (held : Bool) (j : RegionJob) (slot : Option (Nat × Nat)) :
    State × RegionRes :=
  let d := j.desc
  if !held then (s.skipRegion n f j Status.notCached, .skipped)
  else
    match s.reads portPxe [(f.handle.addr, 128)] with
    | (some st, s0) => (s0.skipRegion n f j st, .skipped)
    | (none, s0) =>
      let h := s0.readFrameHdr f.handle.addr
      match clippedRect d h j.box with
      | .inl st => (s0.skipRegion n f j st, .skipped)
      | .inr r =>
        let g := fitGeom d r
        let ps := srcPlanes f.handle.addr d h g
        match s0.reads portPxe (ps.flatMap (planeRanges h.depth d g)) with
        | (some st, s1) => (s1.skipRegion n f j st, .skipped)
        | (none, s1) =>
          match slot with
          | some (k, b) =>
            let a := basinBase k + b
            (s1.writeRegion n d h g ps a, .mark d.target (s1.regionItem f j g a none slot))
          | none =>
            match s1.alloc d.pool with
            | (none, s2) => (s2.skipRegion n f j Status.outputPoolEmpty, .skipped)
            | (some hd, s2) =>
              match rangeStatus s.dev.part hd.addr (d.chans * planesOf d.outFmt * d.planePitch) with
              | some st => ((s2.release hd (s.ctxFn d.target)).skipRegion n f j st, .fault st)
              | none => (s2.writeRegion n d h g ps hd.addr, .mark d.target (s2.regionItem f j g hd.addr (some hd) none))

/-- The regions after one that faulted are skipped with its status. -/
def State.skipRegions (s : State) (n : Nat) (f : Frame) (st : W16) : List (RegionJob × Option (Nat × Nat)) → State
  | [] => s
  | (j, _) :: js => State.skipRegions (s.skipRegion n f j st) n f st js

/-- The outputs of the regions before one that faulted are given back, and the regions count as skipped. -/
def State.undoMarks (s : State) (n : Nat) (f : Frame) (st : W16) : List (RegionJob × Nat × Item) → State
  | [] => s
  | (j, target, it) :: ms => State.undoMarks ((s.freeItem target it).skipRegion n f j st) n f st ms

/-- The regions of a command in order; `ms` are those that are written, with their marks. A command that faults produces no
output (R30). -/
def State.runRegions (s : State) (n ctx : Nat) (f : Frame) (held : Bool) :
    List (RegionJob × Option (Nat × Nat)) → List (RegionJob × Nat × Item) → State × List (Nat × Item)
  | [], ms => (s, ms.map (·.2))
  | (j, slot) :: js, ms =>
    match s.runRegion n f held j slot with
    | (s1, .mark t it) => State.runRegions s1 n ctx f held js (ms ++ [(j, t, it)])
    | (s1, .skipped) => State.runRegions s1 n ctx f held js ms
    | (s1, .fault st) => (((s1.undoMarks n f st ms).skipRegions n f st js).noteFault ctx st, [])

/-! ## PIXEL_COMMAND -/

/-- What a scaler engine runs. -/
def State.setPxe (s : State) (n : Nat) (x : Option PxeRun) : State :=
  { s with trk := { s.trk with pxes := match x with
      | some p => SMap.insert s.trk.pxes n p
      | none => SMap.erase s.trk.pxes n } }

/-- Take the first `n` crop requests that a pixel context has for a frame (R234). -/
def takeCrops (ctx rill frame : Nat) : Nat → List CropReq → List CropReq × List CropReq
  | _, [] => ([], [])
  | 0, cs => ([], cs)
  | n + 1, c :: cs =>
    if c.pixelCtx = ctx ∧ c.rill = rill ∧ c.frame = frame then
      let r := takeCrops ctx rill frame n cs
      (c :: r.1, r.2)
    else
      let r := takeCrops ctx rill frame (n + 1) cs
      (r.1, c :: r.2)

/-- The region of a crop request: the first track-crop descriptor whose target matches it (R234). -/
def cropJob (p : ScalerProg) (c : CropReq) : Option RegionJob :=
  ((indexed p.crops).find? (fun x => x.2.target = c.target)).map (fun x =>
    { index := p.rois.length + x.1, desc := x.2, box := { x := c.x, y := c.y, w := c.w, h := c.h }, track := c.track })

/-- The regions of the fixed and whole-frame descriptors, in order. -/
def roiJobs (p : ScalerProg) : List RegionJob :=
  (indexed p.rois).map (fun x => { index := x.1, desc := x.2, box := { x := 0, y := 0, w := 0, h := 0 }, track := 0 })

/-- The track and copy contexts that a program's frames go on to (R247, R278). -/
def State.programReaders (s : State) (p : ScalerProg) : List Nat :=
  p.rois.foldl (fun a d => (s.readers d.target).foldl (fun b c => putOnce c b) a) []

/-- A frame's fixed regions have been taken: its flow waits for the head items of the ready marks `ms` (R247). -/
def State.startFlow (s : State) (f : Frame) (p : ScalerProg) (ms : List (Nat × Item)) : State :=
  s.updFlow f.rill f.index (fun x => { x with
    started := true, waits := x.waits ++ (ms.filter (fun m => m.2.head)).map (·.1), ctxs := s.programReaders p })

/-- Fix the next-step cluster of the targets whose slots have been taken (R289). -/
def State.fixClusters (s : State) : List (RegionJob × Option (Nat × Nat)) → State
  | [] => s
  | (j, some (n, _)) :: js =>
    State.fixClusters (s.updCtxRun j.desc.target (fun x => { x with next := some (x.next.getD n) })) js
  | (_, none) :: js => State.fixClusters s js

/-- The frame as a pass names it: not held any more where it has left the decode cache (R223). -/
def lostFrame (rill index : Nat) : Frame :=
  { rill := rill, index := index, handle := { addr := 0, pool := 0 }, ctx := 0, hdr := noHdr, captureTs := 0, cookie := 0
    stamp := 0, isRef := false, cached := false, picNum := 0, concealed := false, abandoned := false, substituted := false
    raw := false, clock := 0 }

/-- The scaler engine that takes the next pixel command: the next idle one in rotation after the one that took the last
(R282). -/
def State.nextPxe (s : State) : Option Nat :=
  ([1, 2, 3, 4].map (fun k => (s.trk.lastPxe + k) % 4)).find? (fun n => pxePresent s.dev.part n && (s.pxe n).isNone)

/-- Whether a pixel command can reach the frame that it reads and the buffers and slots that it writes (R335, R348). -/
def State.pixelReach (s : State) (f : Frame) (jobs : List (RegionJob × Option (Nat × Nat))) : Bool :=
  s.canReach f.handle.addr (SeqHdrGeo f.hdr).size &&
    jobs.all (fun x => match x.2 with
      | some (k, b) => s.canReach (basinBase k + b) 1
      | none => s.canAlloc x.1.desc.pool && s.poolReach x.1.desc.pool)

/-- PIXEL_COMMAND (R234 to R243): one frame's fixed regions where its class's pixel context has not taken them, and crops
requested of it, up to 64 regions. The command waits until slots exist for its dest-1 regions, and while a swap that verifies
holds the frame (R70). -/
def execPixelCommand (pxe ctx rill frame : Nat) (s : State) : Out :=
  .next (
    let held := s.frame rill frame
    let f := held.getD (lostFrame rill frame)
    let fixed := (match s.flow rill frame with
      | some x => !x.started
      | none => false) && (match s.classOf rill with
      | some k => k.firstCtx = ctx
      | none => false)
    match s.program ctx (s.oldFor ctx f.captureTs f.stamp) with
    | none => s
    | some p =>
      let rois := if fixed then roiJobs p else []
      let cs := takeCrops ctx rill frame (64 - rois.length) s.trk.crops
      let jobs := rois ++ cs.1.filterMap (cropJob p)
      s.when (pxePresent s.dev.part pxe && s.domainLive .pixel && s.nextPxe == some pxe && s.ctxKind ctx == some 1 &&
          !s.coolantHeld && !s.swapHolds ctx f.captureTs && (fixed || cs.1 != [])) (fun s =>
        match s.takeSlots jobs [] with
        | none => s
        | some slots =>
          s.when (s.pixelReach f (jobs.zip slots)) (fun s =>
          let s0 := { s with trk := { s.trk with crops := cs.2, lastPxe := pxe } }
          let s1 := (s0.setReg .PXE_CMD pxe 0 (BitVec.ofNat 64 (ctx + 4096 * rill))).fixClusters (jobs.zip slots)
          let r := s1.runRegions pxe ctx f held.isSome (jobs.zip slots) []
          let s2 := if fixed then r.1.startFlow f p r.2 else r.1
          let s3 := match r.2 with
            | [] => s2
            | (_, it) :: _ =>
              s2.setPxe pxe (some { ctx := ctx, rill := rill, frame := frame, region := it.region, marks := r.2 })
          State.schedule (State.settle s3))))

/-! ## REGION_COMPLETE -/

/-- REGION_COMPLETE (R16, R242): the engine's next ready mark; the item enters its target's queue. The last one commits the
command. -/
def execRegionComplete (pxe : Nat) (s : State) : Out :=
  .next (match s.pxe pxe with
    | none => s
    | some p =>
      s.when (!s.coolantHeld) (fun s =>
        match p.marks with
        | [] => s.setPxe pxe none
        | (target, it) :: ms =>
          let s1 := s.enqueue target it
          let s2 := match ms with
            | [] => s1.setPxe pxe none
            | m :: _ => s1.setPxe pxe (some { p with region := m.2.region, marks := ms })
          State.schedule (State.settle s2)))

end Sys2Proof.Machine
end

