-- ==== Sys2Proof/Machine/TrackOps.lean ====
section
/-! DEFINITION. The track engine, shared operations: rule sets (R250), head decoding (R252 to R256), prediction, update and
association (R260 to R263), zones and lines (R269 to R272), record bodies (R257, R274). -/

set_option Elab.async false

namespace Sys2Proof.Machine

/-! ## Rule sets (Tables 10.3 to 10.5) -/

structure HeadDesc where
  kind : Nat
  anchors : Nat
  stride : Nat
  flags : Nat
  gridW : Nat
  gridH : Nat
  base : Nat
  itemPitch : Nat
  chanPitch : Nat
  rowPitch : Nat
  ctx : Nat
  anchorWH : List (Nat × Nat)
  deriving DecidableEq, Repr

def readHead (rd : Nat → Nat → Nat) : HeadDesc :=
  { kind := rd 0 1, anchors := rd 1 1, stride := rd 2 1, flags := rd 3 1, gridW := rd 4 2, gridH := rd 6 2, base := rd 8 8
    itemPitch := rd 0x10 4, chanPitch := rd 0x14 4, rowPitch := rd 0x18 4, ctx := rd 0x1C 2
    anchorWH := (List.range 4).map (fun i => (rd (0x20 + 4 * i) 2, rd (0x22 + 4 * i) 2)) }

structure ClassEnt where
  thr : Int
  startThr : Int
  minSize : Nat
  flags : Nat
  deriving DecidableEq, Repr

def ClassEnt.enabled (c : ClassEnt) : Bool := bitAt c.flags 0
def ClassEnt.tracked (c : ClassEnt) : Bool := bitAt c.flags 1
def ClassEnt.records (c : ClassEnt) : Bool := bitAt c.flags 2

structure RuleSet where
  addr : Nat
  headCount : Nat
  maxCand : Nat
  maxDet : Nat
  maxTracks : Nat
  nmsIou : Nat
  nmsMode : Nat
  flags : Nat
  gate : Nat
  gainPos : Nat
  gainVel : Nat
  gainSize : Nat
  confirmHits : Nat
  reidPerFrame : Nat
  maxLost : Nat
  reidInterval : Nat
  reidLag : Nat
  cropCtx : Nat
  embCtx : Nat
  zoneSets : Nat
  health : Nat
  zoneMap : Nat
  zones : Nat
  heads : List HeadDesc
  classes : List ClassEnt
  deriving DecidableEq, Repr

/-- The rule set at a DRAM address (R250). -/
def State.ruleSet (s : State) (a : Nat) : RuleSet :=
  let rd (off n : Nat) : Nat := s.dramRd (a + off) n
  { addr := a, headCount := rd 2 1, maxCand := rd 4 2, maxDet := rd 6 2, maxTracks := rd 8 4, nmsIou := rd 0xC 2
    nmsMode := rd 0xE 1, flags := rd 0xF 1, gate := rd 0x10 2, gainPos := rd 0x18 2, gainVel := rd 0x1A 2
    gainSize := rd 0x1C 2, confirmHits := rd 0x1E 1, reidPerFrame := rd 0x1F 1, maxLost := rd 0x20 2, reidInterval := rd 0x22 1
    reidLag := rd 0x23 1, cropCtx := rd 0x24 2, embCtx := rd 0x26 2, zoneSets := rd 0x28 2, health := rd 0x2A 2
    zoneMap := rd 0x34 4, zones := rd 0x38 4
    heads := (List.range (rd 2 1)).map (fun i => readHead (fun off n => rd (rd 0x2C 4 + 64 * i + off) n))
    classes := (List.range (rd 3 1)).map (fun i =>
      let c := rd 0x30 4 + 8 * i
      { thr := signed 16 (rd c 2), startThr := signed 16 (rd (c + 2) 2), minSize := rd (c + 4) 2, flags := rd (c + 6) 1 }) }

/-- The rule set of a track context's one command (R248). -/
def State.rulesOf (s : State) (ctx : Nat) (old : Bool) : Option RuleSet :=
  (s.recordAt ctx 0 old).map (fun a => s.ruleSet (s.dramRd (a + 0x18) 8))

/-! ## Detection-head decoding -/

/-- A box in units of 2^-8 luma pixels. -/
structure Box where
  x0 : Int
  y0 : Int
  x1 : Int
  y1 : Int
  deriving DecidableEq, Repr

def Box.area (b : Box) : Int := (b.x1 - b.x0) * (b.y1 - b.y0)

/-- The intersection of two boxes. -/
def Box.inter (a b : Box) : Int :=
  let w := min a.x1 b.x1 - max a.x0 b.x0
  let h := min a.y1 b.y1 - max a.y0 b.y0
  if 0 < w ∧ 0 < h then w * h else 0

/-- A candidate (R254). -/
structure Cand where
  score : Int
  region : Nat
  head : Nat
  anchor : Nat
  gy : Nat
  gx : Nat
  cls : Nat
  box : Box
  deriving DecidableEq, Repr

/-- The order of R255. -/
def Cand.le (a b : Cand) : Bool :=
  lexLe [-a.score, a.region, a.head, a.anchor, a.gy, a.gx, a.cls] [-b.score, b.region, b.head, b.anchor, b.gy, b.gx, b.cls]

/-- One axis of Table 10.6: both edges in units of 2^-8 model-input pixels. -/
def axisBox (kind stride g anchor : Nat) (a b : Int) : Int × Int :=
  let mid : Int := 256 * g + 128
  if kind = 0 then ((mid - max a 0) * stride, (mid + max b 0) * stride)
  else
    let c := (mid + a) * stride
    let w := (anchor : Int) * b
    (c - w.tdiv 2, c - w.tdiv 2 + w)

/-- A coordinate mapped into the frame and clipped to its crop window (R254). -/
def mapAxis (src scaled off scaledLen lim : Nat) (m : Int) : Int :=
  clampInt 0 (256 * lim) (256 * src + ((m - 256 * off) * scaled).tdiv scaledLen)

/-- The box of an anchor at a cell, in frame coordinates (R253, R254): `v` are its four box values. -/
def candBox (h : HeadDesc) (a gy gx : Nat) (g : Geom) (cropW cropH : Nat) (v : Nat → Int) : Box :=
  let wh := h.anchorWH.getD a (0, 0)
  let x := if h.kind = 0 then axisBox 0 h.stride gx 0 (v 0) (v 2) else axisBox 1 h.stride gx wh.1 (v 0) (v 2)
  let y := if h.kind = 0 then axisBox 0 h.stride gy 0 (v 1) (v 3) else axisBox 1 h.stride gy wh.2 (v 1) (v 3)
  { x0 := mapAxis g.sx g.sw g.ox g.pw cropW x.1, y0 := mapAxis g.sy g.sh g.oy g.ph cropH y.1
    x1 := mapAxis g.sx g.sw g.ox g.pw cropW x.2, y1 := mapAxis g.sy g.sh g.oy g.ph cropH y.2 }

/-- Whether a head has an objectness channel, and whether scores are multiplied by it. A product flag without the channel
multiplies nothing (log 27). -/
def HeadDesc.obj (h : HeadDesc) : Nat := b2n (bitAt h.flags 0)
def HeadDesc.times (h : HeadDesc) : Bool := bitAt h.flags 1 && bitAt h.flags 0

/-- The score of a class (R253, R254): negative values are taken as 0. -/
def headScore (h : HeadDesc) (s obj : Int) : Int := if h.times then (max s 0 * max obj 0).tdiv 256 else max s 0

/-- Whether a box survives R254 for a class. -/
def Box.keeps (b : Box) (c : ClassEnt) : Bool :=
  decide (b.x0 < b.x1) && decide (b.y0 < b.y1) && decide ((256 * c.minSize : Int) ≤ b.x1 - b.x0) &&
    decide ((256 * c.minSize : Int) ≤ b.y1 - b.y0)

/-- The byte address of a head value's channel `ch` at a cell for batch item `i` (R252). -/
def State.headAddr (s : State) (h : HeadDesc) (i ch gy gx : Nat) : Nat :=
  s.scratchBase h.ctx + h.base + 2 * (i * h.itemPitch + ch * h.chanPitch + gy * h.rowPitch + gx)

/-- The value there. -/
def State.headVal (s : State) (h : HeadDesc) (i ch gy gx : Nat) : Int := signed 16 (s.memRd (s.headAddr h i ch gy gx) 2)

/-- The candidates of one anchor at one cell. -/
def State.cellCands (s : State) (rs : RuleSet) (k : Nat) (h : HeadDesc) (i : Nat) (it : Item) (cropW cropH a gy gx : Nat) :
    List Cand :=
  let ch := a * (4 + h.obj + rs.classes.length)
  let v (j : Nat) : Int := s.headVal h i (ch + j) gy gx
  let box := candBox h a gy gx it.geom cropW cropH v
  (indexed rs.classes).filterMap (fun c =>
    let score := headScore h (v (4 + h.obj + c.1)) (v 4)
    if c.2.enabled && decide (c.2.thr ≤ score) && box.keeps c.2 then
      some { score := score, region := it.region, head := k, anchor := a, gy := gy, gx := gx, cls := c.1, box := box }
    else none)

/-- The candidates of an item under one head descriptor. -/
def State.headCands (s : State) (rs : RuleSet) (k : Nat) (h : HeadDesc) (i : Nat) (it : Item) (cropW cropH : Nat) : List Cand :=
  (List.range h.anchors).flatMap (fun a => (List.range h.gridH).flatMap (fun gy => (List.range h.gridW).flatMap (fun gx =>
    s.cellCands rs k h i it cropW cropH a gy gx)))

/-- An item's head data, as (address, length): each row of each channel. -/
def State.headRanges (s : State) (rs : RuleSet) (h : HeadDesc) (i : Nat) : List (Nat × Nat) :=
  (List.range (h.anchors * (4 + h.obj + rs.classes.length))).flatMap (fun ch => (List.range h.gridH).map (fun gy =>
    (s.headAddr h i ch gy 0, 2 * h.gridW)))

/-- The head descriptors that an item's context feeds, with their indices (R252). -/
def RuleSet.headsOf (rs : RuleSet) (ctx : Nat) : List (Nat × HeadDesc) := (indexed rs.heads).filter (fun x => x.2.ctx = ctx)

/-- What a frame's command reads of a committed head item. -/
def State.itemRanges (s : State) (rs : RuleSet) (h : Nat × Nat × Nat × Item) : List (Nat × Nat) :=
  (rs.headsOf h.1).flatMap (fun x => s.headRanges rs x.2 h.2.1)

/-- Read the head items of a frame: those that read without poison, and the statuses of the others, which count as skipped
(R328). -/
def State.readHeads (s : State) (rs : RuleSet) :
    List (Nat × Nat × Nat × Item) → State × List (Nat × Nat × Nat × Item) × List W16
  | [] => (s, [], [])
  | h :: hs =>
    let r := s.reads portTrk (s.itemRanges rs h)
    let n := State.readHeads r.2 rs hs
    match r.1 with
    | some st => (n.1, n.2.1, st :: n.2.2)
    | none => (n.1, h :: n.2.1, n.2.2)

/-- The candidates of a frame's head items, sorted (R255). -/
def State.frameCands (s : State) (rs : RuleSet) (cropW cropH : Nat) (heads : List (Nat × Nat × Nat × Item)) : List Cand :=
  sortBy Cand.le (heads.flatMap (fun h => (rs.headsOf h.1).flatMap (fun x =>
    s.headCands rs x.1 x.2 h.2.1 h.2.2.2 cropW cropH)))

/-- Whether an earlier kept candidate suppresses another (R256). -/
def suppresses (rs : RuleSet) (e c : Cand) : Bool :=
  (rs.nmsMode = 1 || e.cls = c.cls) &&
    decide (rs.nmsIou * (e.box.area + c.box.area - e.box.inter c.box) < 256 * e.box.inter c.box)

/-- Non-maximum suppression (R256): the candidates kept, in order, and whether some remained when `max_det` were kept. -/
def nms (rs : RuleSet) : List Cand → List Cand → List Cand × Bool
  | [], kept => (kept, false)
  | c :: cs, kept =>
    if rs.maxDet ≤ kept.length then (kept, true)
    else if kept.any (fun e => suppresses rs e c) then nms rs cs kept
    else nms rs cs (kept ++ [c])

/-! ## Prediction, association, update -/

/-- The prediction of a track for frame `f` (R260): its centre and box. -/
structure Pred where
  dn : Nat
  pcx : Int
  pcy : Int
  box : Box
  deriving DecidableEq, Repr

def Track.predict (t : Track) (f : Nat) : Pred :=
  let dn := f - t.fLast
  let x := t.cx + t.vx * dn
  let y := t.cy + t.vy * dn
  let x0 := x - t.w.tdiv 2
  let y0 := y - t.h.tdiv 2
  { dn := dn, pcx := x, pcy := y, box := { x0 := x0, y0 := y0, x1 := x0 + t.w, y1 := y0 + t.h } }

/-- State rank of R263. -/
def TrackSt.rank : TrackSt → Nat
  | .confirmed => 0 | .lost => 1 | .tentative => 2

/-- iou16 of R262. -/
def iou16 (a b : Box) : Int :=
  let i := a.inter b
  65536 * i / (a.area + b.area - i)

/-- A pair (R262): cost, state rank, detection index, track number. A detection never holds an embedding, because reid_lag
is at least 1, so the embedding term is 0. -/
structure PairOf where
  cost : Int
  rank : Nat
  det : Nat
  track : Nat
  deriving DecidableEq, Repr

def PairOf.le (a b : PairOf) : Bool := lexLe [a.cost, a.rank, a.det, a.track] [b.cost, b.rank, b.det, b.track]

/-- Whether a class is tracked. -/
def RuleSet.tracks (rs : RuleSet) (c : Nat) : Bool :=
  match rs.classes[c]? with
  | some e => e.tracked
  | none => false

/-- The pairs of a frame, sorted (R262, R263). -/
def pairsOf (rs : RuleSet) (f : Nat) (dets : List Cand) (live : List Track) : List PairOf :=
  sortBy PairOf.le ((indexed dets).flatMap (fun d => live.filterMap (fun t =>
    let i := iou16 (t.predict f).box d.2.box
    if t.cls = d.2.cls ∧ rs.tracks d.2.cls ∧ (256 * rs.gate : Int) ≤ i then
      some { cost := 65536 - i, rank := t.st.rank, det := d.1, track := t.id }
    else none)))

/-- The greedy pass (R263): detection index and track number of each match. -/
def greedy : List PairOf → List (Nat × Nat) → List (Nat × Nat)
  | [], m => m
  | p :: ps, m => greedy ps (if m.any (fun x => x.1 = p.det || x.2 = p.track) then m else m ++ [(p.det, p.track)])

/-- A 32-bit field of a track record (Table 10.7; log 27). -/
def s32 (v : Int) : Int := signed 32 (unsigned 32 v)

/-- The Q8.8 range of R97. -/
def satQ88 (v : Int) : Int := clampInt (-32768) 32767 v

/-- The update of a matched track (R261). -/
def Track.update (t : Track) (rs : RuleSet) (f : Nat) (d : Cand) : Track :=
  let p := t.predict f
  let b := d.box
  let dx := (b.x0 + b.x1).tdiv 2 - p.pcx
  let dy := (b.y0 + b.y1).tdiv 2 - p.pcy
  { t with
    cx := s32 (p.pcx + (dx * rs.gainPos).tdiv 256), cy := s32 (p.pcy + (dy * rs.gainPos).tdiv 256)
    vx := satQ88 (t.vx + (dx * rs.gainVel).tdiv (256 * p.dn)), vy := satQ88 (t.vy + (dy * rs.gainVel).tdiv (256 * p.dn))
    w := s32 (t.w + ((b.x1 - b.x0 - t.w) * rs.gainSize).tdiv 256), h := s32 (t.h + ((b.y1 - b.y0 - t.h) * rs.gainSize).tdiv 256)
    fLast := f, score := satQ88 d.score, hits := satNat 65535 (t.hits + 1) }

/-- A tentative track started by a detection (R263). -/
def Track.startOf (r id store f : Nat) (d : Cand) : Track :=
  let b := d.box
  { rill := r, id := id, store := store, st := .tentative, cls := d.cls, fLast := f, cx := (b.x0 + b.x1).tdiv 2
    cy := (b.y0 + b.y1).tdiv 2, w := b.x1 - b.x0, h := b.y1 - b.y0, vx := 0, vy := 0, score := satQ88 d.score, hits := 1
    misses := 0, embValid := false, inside := 0, dwellFired := 0, lineSide := 0, lineValid := 0, fConfirm := 0, dwell0 := 0
    dwell1 := 0, emb := List.replicate 64 0 }

/-- The top-left corner of a track's box (R266, R270). -/
def Track.x0 (t : Track) : Int := t.cx - t.w.tdiv 2
def Track.y0 (t : Track) : Int := t.cy - t.h.tdiv 2

/-! ## Zones and lines -/

/-- A reference point (R270): the centre, or the bottom centre. -/
def Track.refPoint (t : Track) (bottom : Bool) : Int × Int := (t.cx, if bottom then t.y0 + t.h else t.cy)

/-- The membership test of R270. -/
def insideZone (px py : Int) (vs : List (Int × Int)) : Bool :=
  let n := vs.length
  (List.range n).foldl (fun acc i =>
    let a := vs.getD i (0, 0)
    let b := vs.getD ((i + n - 1) % n) (0, 0)
    if decide (py < a.2) != decide (py < b.2) then
      let num := (b.1 - a.1) * (py - a.2)
      let den := b.2 - a.2
      let lhs := (px - a.1) * den
      if (0 < den ∧ lhs < num) ∨ (den ≤ 0 ∧ num < lhs) then !acc else acc
    else acc) false

/-- A zone (Table 10.9). -/
structure Zone where
  rule : Nat
  flags : Nat
  mask : Nat
  dwell : Nat
  verts : List (Int × Int)
  deriving DecidableEq, Repr

/-- A line (Table 10.10). -/
structure Line where
  rule : Nat
  flags : Nat
  mask : Nat
  x0 : Int
  y0 : Int
  x1 : Int
  y1 : Int
  deriving DecidableEq, Repr

/-- The zone set of a rill (R250, R269): its zones and lines. -/
def State.zoneSet (s : State) (rs : RuleSet) (r : Nat) : List Zone × List Line :=
  let k := s.dramRd (rs.addr + rs.zoneMap + 2 * r) 2
  if rs.zoneSets = 0 ∨ k = 0xFFFF then ([], [])
  else
    let a := rs.addr + rs.zones + 1728 * k
    let rd (off n : Nat) : Nat := s.dramRd (a + off) n
    let px (off : Nat) : Int := 256 * (rd off 2 : Int)
    ((List.range (rd 0 1)).map (fun z =>
       let o := 0x10 + 80 * z
       { rule := rd o 2, flags := rd (o + 3) 1, mask := rd (o + 4) 8, dwell := rd (o + 0xC) 2
         verts := (List.range (rd (o + 2) 1)).map (fun v => (px (o + 0x10 + 4 * v), px (o + 0x12 + 4 * v))) }),
     (List.range (rd 1 1)).map (fun l =>
       let o := 0x510 + 24 * l
       { rule := rd o 2, flags := rd (o + 2) 1, mask := rd (o + 4) 8, x0 := px (o + 0xC), y0 := px (o + 0xE)
         x1 := px (o + 0x10), y1 := px (o + 0x12) }))

/-- Set or clear a bit of a number. -/
def natBit (v i : Nat) (b : Bool) : Nat := if bitAt v i = b then v else if b then v + 2 ^ i else v - 2 ^ i

/-- A rule event of a track (Table 10.12); `order` keeps zones before lines, each in order (R275). -/
def Track.ruleEvent (t : Track) (order code rule : Nat) (q : Int × Int) (value : Nat) : TrkEvent :=
  { track := t.id, order := order, code := code, cls := t.cls, rule := rule, x := q.1, y := q.2, value := value }

/-- The place of a zone among the dwell zones of its set: 0 and 1 have slots (R271). -/
def dwellSlot (zs : List Zone) (z : Nat) : Nat := ((zs.take z).filter (fun x => x.dwell ≠ 0)).length

/-- One zone (R270, R271): the track with its bits, and its events. -/
def Track.zone (t : Track) (f : Nat) (zs : List Zone) (i : Nat) (z : Zone) : Track × List TrkEvent :=
  if !bitAt z.mask t.cls then (t, [])
  else
    let q := t.refPoint (bitAt z.flags 0)
    let now := insideZone q.1 q.2 z.verts
    let was := bitAt t.inside i
    let slot := dwellSlot zs i
    let told : List TrkEvent :=
      if now != was && bitAt z.flags 1 then [t.ruleEvent (2 + 2 * i) (if now then 3 else 4) z.rule q 0] else []
    let t1 := { t with inside := natBit t.inside i now }
    let t2 := if z.dwell = 0 ∨ now = was then t1
      else if now then
        { t1 with
          dwellFired := natBit t1.dwellFired i false, dwell0 := if slot = 0 then f % 2 ^ 32 else t1.dwell0
          dwell1 := if slot = 1 then f % 2 ^ 32 else t1.dwell1 }
      else { t1 with dwellFired := natBit t1.dwellFired i false }
    let start := if slot = 0 then t2.dwell0 else t2.dwell1
    let age := (f % 2 ^ 32 + 2 ^ 32 - start) % 2 ^ 32
    if now && z.dwell != 0 && decide (z.dwell ≤ age) && !bitAt t2.dwellFired i then
      ({ t2 with dwellFired := natBit t2.dwellFired i true }, told ++ [t2.ruleEvent (3 + 2 * i) 5 z.rule q age])
    else (t2, told)

/-- The cross product of R272. -/
def cross (a b : Int × Int) : Int := a.1 * b.2 - a.2 * b.1

/-- Whether a movement meets a line segment (R272). -/
def Line.met (l : Line) (p q : Int × Int) : Bool :=
  let m := (q.1 - p.1, q.2 - p.2)
  let a := cross m (l.x0 - p.1, l.y0 - p.2)
  let b := cross m (l.x1 - p.1, l.y1 - p.2)
  decide (a * b ≤ 0)

/-- One line (R272): `prev` is the track as its previous matched frame left it. -/
def Track.line (t : Track) (prev : Option Track) (i : Nat) (l : Line) : Track × List TrkEvent :=
  if !bitAt l.mask t.cls then (t, [])
  else
    let bottom := bitAt l.flags 0
    let q := t.refPoint bottom
    let s := (l.x1 - l.x0) * (q.2 - l.y0) - (l.y1 - l.y0) * (q.1 - l.x0)
    if s = 0 then (t, [])
    else
      let neg := decide (s < 0)
      let crossed := match prev with
        | some p => bitAt t.lineValid i && neg != bitAt t.lineSide i && l.met (p.refPoint bottom) q
        | none => false
      let told := crossed && (if neg then bitAt l.flags 1 else bitAt l.flags 2)
      ({ t with lineSide := natBit t.lineSide i neg, lineValid := natBit t.lineValid i true },
       if told then [t.ruleEvent (100 + i) (if neg then 6 else 7) l.rule q 0] else [])

def Track.zonesFrom (t : Track) (f : Nat) (zs : List Zone) : List (Nat × Zone) → Track × List TrkEvent
  | [] => (t, [])
  | (i, z) :: r =>
    let a := t.zone f zs i z
    let b := Track.zonesFrom a.1 f zs r
    (b.1, a.2 ++ b.2)

def Track.linesFrom (t : Track) (prev : Option Track) : List (Nat × Line) → Track × List TrkEvent
  | [] => (t, [])
  | (i, l) :: r =>
    let a := t.line prev i l
    let b := Track.linesFrom a.1 prev r
    (b.1, a.2 ++ b.2)

/-- The rule unit's evaluation of a confirmed, matched track (R270). -/
def Track.rules (t : Track) (prev : Option Track) (f : Nat) (set : List Zone × List Line) : Track × List TrkEvent :=
  let a := t.zonesFrom f set.1 (indexed set.1)
  let b := a.1.linesFrom prev (indexed set.2)
  (b.1, a.2 ++ b.2)

/-! ## Bodies of records -/

/-- A detection record's body (Table 10.12). -/
def detBody (i track : Nat) (d : Cand) : List Byte :=
  leBytes 4 (unsigned 32 d.box.x0) ++ leBytes 4 (unsigned 32 d.box.y0) ++ leBytes 4 (unsigned 32 d.box.x1)
    ++ leBytes 4 (unsigned 32 d.box.y1) ++ leBytes 2 (unsigned 16 (satQ88 d.score)) ++ leBytes 1 d.cls ++ leBytes 1 d.region
    ++ leBytes 4 track ++ leBytes 2 i ++ leBytes 6 0

/-- A track metadata record's body (Table 10.12). -/
def Track.body (t : Track) : List Byte :=
  leBytes 4 t.id ++ leBytes 4 (unsigned 32 t.cx) ++ leBytes 4 (unsigned 32 t.cy) ++ leBytes 4 (unsigned 32 t.w)
    ++ leBytes 4 (unsigned 32 t.h) ++ leBytes 2 (unsigned 16 t.vx) ++ leBytes 2 (unsigned 16 t.vy) ++ leBytes 1 t.st.code
    ++ leBytes 1 t.cls ++ leBytes 2 (unsigned 16 t.score) ++ leBytes 2 t.misses ++ leBytes 2 t.hits

/-- A health record's body (Table 10.13). -/
def healthBody (confirmed tentative lost : Nat) (x : RillTrk) : List Byte :=
  leBytes 4 confirmed ++ leBytes 4 tentative ++ leBytes 4 lost ++ leBytes 4 x.cappedFrames ++ leBytes 4 x.storeFull
    ++ leBytes 4 x.embLost ++ leBytes 4 x.cropsSkipped ++ leBytes 4 x.maxRefused

end Sys2Proof.Machine
end

