-- ==== Sys2Proof/Machine/LoadOps.lean ====
section
/-! DEFINITION. The image loader, shared operations: what a check reports (R54, R61), the staging copy and its directory
(R38 to R41), the sections as the loader reads them (R42 to R52), and the tables of the placed sections (R84, R178, R231,
R250). Checks are functions of the staging copy in DRAM. -/

set_option Elab.async false

namespace Sys2Proof.Machine

/-! ## What a check reports -/

/-- A refusal: the status and the four GLB_IMG_FAIL registers (R54, R61). -/
structure LoadErr where
  status : W16
  sec : Nat
  entry : Nat
  need : Nat
  got : Nat
  deriving DecidableEq, Repr

/-- A refusal with no amounts. -/
def loadErr (st : W16) (sec entry : Nat) : LoadErr := { status := st, sec := sec, entry := entry, need := 0, got := 0 }

/-- The section number of header, directory and signature (Table 2.15). -/
def noSec : Nat := 0xFFFF

/-- A check that must hold. -/
def must (c : Bool) (e : LoadErr) : Option LoadErr := if c then none else some e

/-- The first check of a list that fails. -/
def firstErr : List (Option LoadErr) → Option LoadErr
  | [] => none
  | none :: es => firstErr es
  | some e :: _ => some e

/-- The first element whose check fails. -/
def eachOf {α : Type} (xs : List α) (f : α → Option LoadErr) : Option LoadErr := xs.findSome? f

/-! ## The staging copy -/

/-- A directory entry (Table 2.3) and its index. -/
structure DirEnt where
  idx : Nat
  type : Nat
  flags : Nat
  off : Nat
  len : Nat
  count : Nat
  load : Nat
  seg : Nat
  rsv : Nat
  deriving DecidableEq, Repr

/-- A staged image: where its copy lies, whether a swap loads it, and its directory. -/
structure Stage where
  addr : Nat
  len : Nat
  swap : Bool
  dir : List DirEnt
  deriving DecidableEq, Repr

/-- A field of the staged header (Table 2.2). -/
def State.hdrRd (s : State) (a off n : Nat) : Nat := s.dramRd (a + off) n

/-- The directory of a staged image. -/
def State.readDir (s : State) (a : Nat) : List DirEnt :=
  (List.range (s.hdrRd a 0x28 2)).map (fun i =>
    let rd (off n : Nat) : Nat := s.dramRd (a + s.hdrRd a 0x2C 4 + 32 * i + off) n
    { idx := i, type := rd 0 2, flags := rd 2 2, off := rd 4 4, len := rd 8 4, count := rd 0xC 4, load := rd 0x10 8
      seg := rd 0x18 2, rsv := rd 0x1A 6 })

/-- The staged image of a load or swap. -/
def State.stageOf (s : State) (j : LoadJob) (swap : Bool) : Stage :=
  { addr := j.addr, len := j.len, swap := swap, dir := s.readDir j.addr }

/-- The DRAM address of a section's staged payload. -/
def Stage.at (g : Stage) (d : DirEnt) : Nat := g.addr + d.off

/-- The sections of a type, in directory order. -/
def Stage.ofType (g : Stage) (t : Nat) : List DirEnt := g.dir.filter (fun d => d.type = t)

/-- The directory index of the first section of a type. -/
def Stage.indexOf (g : Stage) (t : Nat) : Nat :=
  match g.ofType t with
  | d :: _ => d.idx
  | [] => noSec

/-- Section types (Table 2.5). -/
def tPartition : Nat := 1
def tContext : Nat := 2
def tClass : Nat := 3
def tBind : Nat := 4
def tPool : Nat := 5
def tSegment : Nat := 6
def tFallback : Nat := 7
def tCommands : Nat := 8
def tCodebook : Nat := 10
def tScale : Nat := 11
def tScaler : Nat := 12
def tRules : Nat := 13

/-- A note, which the loader ignores (R42). -/
def DirEnt.note (d : DirEnt) : Bool := 0x8000 ≤ d.type

/-- A placed type (Table 2.5). -/
def DirEnt.placed (d : DirEnt) : Bool := 8 ≤ d.type && d.type ≤ 13

/-- Entry sizes of the types with fixed-size entries (Table 2.5). -/
def entrySize : Nat → Option Nat
  | 2 => some 64
  | 3 => some 32
  | 4 => some 16
  | 5 => some 16
  | 6 => some 32
  | 7 => some 8
  | _ => none

/-- Types that Table 2.5 never permits in a segment. -/
def neverInSegment (t : Nat) : Bool := 1 ≤ t && t ≤ 6

/-- The addresses of the entries of a section with fixed-size entries, with their indices. -/
def Stage.entries (g : Stage) (d : DirEnt) : List (Nat × Nat) :=
  match entrySize d.type with
  | some n => (List.range (d.len / n)).map (fun i => (i, g.at d + n * i))
  | none => []

/-- Every entry of a type as (section index, entry index, address), in image order. -/
def Stage.allEntries (g : Stage) (t : Nat) : List (Nat × Nat × Nat) :=
  (g.ofType t).flatMap (fun d => (g.entries d).map (fun e => (d.idx, e.1, e.2)))

/-! ## Consumed sections -/

def State.readRegionEnt (s : State) (a : Nat) : Region :=
  { base := s.dramRd a 8, size := s.dramRd (a + 8) 8, kind := s.dramRd (a + 0x10) 2, owner := s.dramRd (a + 0x12) 2 }

def State.readCtxEnt (s : State) (a i : Nat) : CtxEntry :=
  let rd (off n : Nat) : Nat := s.dramRd (a + off) n
  { id := rd 0 2, kind := rd 2 1, cls := rd 3 1, fn := rd 4 1, priority := rd 5 1, clusterMask := rd 6 1 % 16
    flags := rd 7 1 % 16, basinKib := rd 8 4, operandKib := rd 0xC 2, accTiles := rd 0xE 1, maxBatch := rd 0xF 1
    dramMib := rd 0x10 4, sliceUs := rd 0x14 4, budgetUs := rd 0x18 4, cmdSection := rd 0x1C 2, fallback := rd 0x1E 2
    succ := (List.range 4).map (fun k => rd (0x20 + 2 * k) 2), entry := i }

def State.readClassEnt (s : State) (a : Nat) : RillClass :=
  let rd (off n : Nat) : Nat := s.dramRd (a + off) n
  { id := rd 0 2, codec := rd 2 1, maxDepth := rd 3 1, maxWidth := rd 4 2, maxHeight := rd 6 2, profileMask := rd 8 2
    maxLevel := rd 0xA 1, flags := rd 0xB 1, rateNum := rd 0xC 2, rateDen := rd 0xE 2, pollUs := rd 0x10 4
    budgetFactor := rd 0x14 1, firstCtx := rd 0x16 2, staleUs := rd 0x18 4 }

def State.readBindEnt (s : State) (a : Nat) : DecBind :=
  let rd (off n : Nat) : Nat := s.dramRd (a + off) n
  { cls := rd 0 2, engineMask := rd 2 2, contexts := rd 4 2, auPool := rd 6 1, framePool := rd 7 1, cacheFrames := rd 8 1 }

def State.readPoolEnt (s : State) (a : Nat) : PoolEntry :=
  let rd (off n : Nat) : Nat := s.dramRd (a + off) n
  { id := rd 0 1, owner := rd 2 2, size := rd 4 4, count := rd 8 4, region := rd 0xC 2 }

/-- The context identifiers of a segment entry, unused ones left out. -/
def State.segCtxs (s : State) (a : Nat) : List Nat :=
  ((List.range 12).map (fun k => s.dramRd (a + 8 + 2 * k) 2)).filter (fun c => c != 0xFFFF)

def State.readSegEnt (s : State) (a : Nat) : SegEntry :=
  { id := s.dramRd a 2, regionA := s.dramRd (a + 4) 2, regionB := s.dramRd (a + 6) 2, ctxs := s.segCtxs a }

def State.readFbEnt (s : State) (a seg : Nat) : FbEntry :=
  { primary := s.dramRd a 2, fallback := s.dramRd (a + 2) 2, hold := s.dramRd (a + 4) 2, seg := seg }

/-- The FALLBACK entries of a staged image, numbered in image order (R51). -/
def State.stagedFbs (s : State) (g : Stage) : List FbEntry :=
  (g.ofType tFallback).flatMap (fun d => (g.entries d).map (fun e => s.readFbEnt e.2 d.seg))

/-- The placed sections of a staged image. -/
def Stage.placed (g : Stage) : List Placed :=
  (g.dir.filter (·.placed)).map (fun d => { dirIndex := d.idx, type := d.type, load := d.load, len := d.len, seg := d.seg })

/-- Regions of a PARTITION payload at DRAM address `a` of `len` bytes: as many as both its count and its length give. -/
def State.readRegions (s : State) (a len : Nat) : List Region :=
  (List.range (min (s.dramRd a 2) ((len - 0x60) / 24))).map (fun r => s.readRegionEnt (a + 0x60 + 24 * r))

/-- What a staged base image declares (R42 to R51). Its scratch is placed by R473 apart. -/
def State.parseBase (s : State) (g : Stage) : Image :=
  let h (off n : Nat) : Nat := s.hdrRd g.addr off n
  let part := (g.ofType tPartition).head?
  let rd (off n : Nat) : Nat :=
    match part with
    | some d => s.dramRd (g.at d + off) n
    | none => 0
  { imageId := BitVec.ofNat 64 (h 0x18 8), version := BitVec.ofNat 32 (h 0x20 4), security := h 0x24 4, minFirmware := h 0x38 4
    deterministic := bitAt (h 0x2A 2) 0
    regions := match part with
      | some d => s.readRegions (g.at d) d.len
      | none => []
    channelOwner := (List.range 8).map (fun k => rd (0x10 + k) 1), wayOwner := (List.range 64).map (fun k => rd (0x20 + k) 1)
    ctxs := (g.allEntries tContext).map (fun e => s.readCtxEnt e.2.2 e.2.1)
    classes := (g.allEntries tClass).map (fun e => s.readClassEnt e.2.2)
    binds := (g.allEntries tBind).map (fun e => s.readBindEnt e.2.2)
    pools := (g.allEntries tPool).map (fun e => s.readPoolEnt e.2.2)
    segs := (g.allEntries tSegment).map (fun e => s.readSegEnt e.2.2)
    fbs := s.stagedFbs g, placed := g.placed, scratch := [] }

/-- The tables that the checks of a staged image use: its own, or the loaded base's for a swap. -/
def State.stagedImage (s : State) (g : Stage) : Image := if g.swap then s.ldr.image else s.parseBase g

/-- An entry of a context table. -/
def Image.ctx (i : Image) (c : Nat) : Option CtxEntry := i.ctxs.find? (fun e => e.id = c)

/-- The kind of a context, if the image has it. -/
def Image.kindOf (i : Image) (c : Nat) : Option Nat := (i.ctx c).map (·.kind)

/-- The segment value of a swap: that of its first section that is no note. -/
def Stage.segOf (g : Stage) : Nat :=
  match g.dir.find? (fun d => !d.note) with
  | some d => d.seg
  | none => 0

/-! ## Tables and records within a payload -/

/-- The starts, within a payload of `len` bytes, of items that follow one another: `size a` is the size of the item at `a`
and `step` rounds it up to the next start. The last start is one whose item does not fit, if there is one. -/
def starts (size step : Nat → Nat) (len hdr : Nat) : Nat → Nat → List Nat
  | 0, _ => []
  | k + 1, a =>
    if len ≤ a then []
    else if len < a + hdr ∨ size a < hdr ∨ len < a + size a then [a]
    else a :: starts size step len hdr k (a + step (size a))

/-- Whether the item at a start fits in its payload. -/
def fitsAt (size : Nat → Nat) (len hdr a : Nat) : Bool := a + hdr ≤ len && hdr ≤ size a && a + size a ≤ len

/-- Header sizes of codebook tables, scale tables, scaler programs, rule sets and command prefixes. -/
def itemHdr : Nat → Nat
  | 8 => 16
  | 10 => 16
  | _ => 64

/-- The size of an item of a payload at DRAM address `p` (R52, R84, R178, R231, R250). -/
def State.itemSize (s : State) (t p a : Nat) : Nat :=
  match t with
  | 8 => s.dramRd (p + a + 4) 4
  | 10 => s.dramRd (p + a + 8) 4
  | 11 => s.dramRd (p + a + 0x18) 4
  | 12 => 64 * (1 + s.dramRd (p + a + 2) 1 + s.dramRd (p + a + 3) 1)
  | _ => s.dramRd (p + a + 0x3C) 4

/-- The starts of the items of a payload: command records follow one another, tables start at multiples of 64. -/
def State.items (s : State) (t p len : Nat) : List Nat :=
  starts (s.itemSize t p) (fun n => if t = tCommands then n else up64 n) len (itemHdr t) (len / 16 + 1) 0

/-- Whether an item of a payload fits in it. -/
def State.itemFits (s : State) (t p len a : Nat) : Bool := fitsAt (s.itemSize t p) len (itemHdr t) a

/-- A payload that placed tables are found in: its load address, length, segment, and where its bytes lie in DRAM. -/
structure Avail where
  load : Nat
  len : Nat
  at_ : Nat
  seg : Nat
  sec : Nat
  deriving DecidableEq, Repr

/-- The payloads of a type that a staged image can name: its own, and for a swap those of the loaded base that the swap does
not replace. -/
def State.avail (s : State) (g : Stage) (t : Nat) : List Avail :=
  let own : List Avail := (g.ofType t).map (fun d => { load := d.load, len := d.len, at_ := g.at d, seg := d.seg, sec := d.idx })
  if g.swap then
    own ++ (s.ldr.image.placed.filter (fun p => p.type = t && p.seg != g.segOf)).map (fun p =>
      { load := p.load, len := p.len, at_ := p.load, seg := p.seg, sec := noSec })
  else own

/-- The DRAM address of the bytes of the table of a type that lies at a load address, where one does. -/
def State.tableAt (s : State) (g : Stage) (t addr : Nat) : Option Nat :=
  (s.avail g t).findSome? (fun v =>
    if v.load ≤ addr ∧ addr < v.load + v.len ∧ (s.items t v.at_ v.len).contains (addr - v.load) ∧
        s.itemFits t v.at_ v.len (addr - v.load) then some (v.at_ + (addr - v.load))
    else none)

/-- A reader of a table or record at a DRAM address. -/
def State.rdAt (s : State) (a : Nat) : Nat → Nat → Nat := fun off n => s.dramRd (a + off) n

/-- The command records of a staged section, as (offset, DRAM address). Only those that fit are listed. -/
def State.stagedRecs (s : State) (g : Stage) (d : DirEnt) : List (Nat × Nat) :=
  ((s.items tCommands (g.at d) d.len).filter (s.itemFits tCommands (g.at d) d.len)).map (fun a => (a, g.at d + a))

/-- Every command record of a staged image as (section index, offset, DRAM address). -/
def State.allRecs (s : State) (g : Stage) : List (Nat × Nat × Nat) :=
  (g.ofType tCommands).flatMap (fun d => (s.stagedRecs g d).map (fun r => (d.idx, r.1, r.2)))

/-- The array and collective commands of a context in a staged image, in image order. -/
def State.stagedCmds (s : State) (g : Stage) (ctx : Nat) : List Cmd :=
  (s.allRecs g).filterMap (fun r =>
    if s.dramRd r.2.2 2 = ctx ∧ (s.dramRd (r.2.2 + 0x10) 1 = 1 ∨ s.dramRd (r.2.2 + 0x10) 1 = 2) then
      some (readCmd (s.rdAt r.2.2))
    else none)

/-- Items of the staged tables of a type, as (section index, offset, DRAM address). -/
def State.allTables (s : State) (g : Stage) (t : Nat) : List (Nat × Nat × Nat) :=
  (g.ofType t).flatMap (fun d => ((s.items t (g.at d) d.len).filter (s.itemFits t (g.at d) d.len)).map (fun a =>
    (d.idx, a, g.at d + a)))

/-! ## Owners and channel groups -/

/-- An owner code (R43). -/
def ownerCode (v : Nat) : Bool := v == 0xFF || v ≤ 0x1F || (0x40 ≤ v && v ≤ 0x4F)

/-- An owner code, or 0xFFFF for shared (Tables 2.7 and 2.11). -/
def regionOwner (v : Nat) : Bool := v == 0xFFFF || ownerCode v

/-- The present channel groups of an owner's regions (R312). -/
def Image.groupsOf (i : Image) (p : Part) (owner : Nat) : List Nat :=
  let gs := (List.range (groupCount p)).filter (fun g => i.channelOwner.getD g 0xFF = owner)
  if gs = [] then (List.range (groupCount p)).filter (fun g => i.channelOwner.getD g 0xFF = 0xFF) else gs

/-- Ranges that share a byte. -/
def rangesMeet (a n b m : Nat) : Bool := 0 < n && 0 < m && a < b + m && b < a + n

end Sys2Proof.Machine
end

