-- ==== Sys2Proof/Machine/LoadFields.lean ====
section
/-! DEFINITION. The image loader: reserved fields (step 9 of Table 2.16) and the fields of consumed sections, codebooks, scale
tables, scaler programs, rule sets, and copy and track records (step 11). -/

set_option Elab.async false

namespace Sys2Proof.Machine

/-! ## Step 9: reserved fields -/

/-- Whether `n` bytes at an address are 0. -/
def State.zeroAt (s : State) (a n : Nat) : Bool := s.dramRd a n == 0

/-- Whether fields, as (offset, size) from an address, are 0. -/
def State.zerosAt (s : State) (a : Nat) (fs : List (Nat × Nat)) : Bool := fs.all (fun f => s.zeroAt (a + f.1) f.2)

/-- Whether bits `lo` and above of the byte at an address are 0. -/
def State.highZero (s : State) (a lo : Nat) : Bool := decide (s.dramRd a 1 < 2 ^ lo)

/-- Reserved fields of an entry of a consumed section. -/
def State.entryRsv (s : State) (t a : Nat) : Bool :=
  match t with
  | 2 => s.highZero (a + 6) 4 && s.highZero (a + 7) 4 && s.zeroAt (a + 0x28) 24
  | 3 => s.highZero (a + 0xB) 1 && s.zerosAt a [(0x15, 1), (0x1C, 4)]
  | 4 => s.zeroAt (a + 9) 7
  | 5 => s.zerosAt a [(1, 1), (0xE, 2)]
  | 7 => s.zeroAt (a + 6) 2
  | _ => true

/-- Reserved fields of a loop descriptor table at `a` (Tables 5.1 to 5.3). -/
def State.ldtRsv (s : State) (a : Nat) : Bool :=
  let n := s.dramRd a 1
  s.highZero (a + 3) 1 && s.zeroAt (a + 6) 2 &&
    (List.range n).all (fun l => s.zerosAt (a + 16 + 32 * l) [(5, 3), (0x18, 8)]) &&
    (List.range (s.dramRd (a + 2) 1)).all (fun o =>
      let b := a + 16 + 32 * n + 64 * o
      s.highZero (b + 2) 2 && s.zerosAt b [(3, 5), (0x38, 8)])

/-- The bytes of a loop descriptor table with `n` levels and `m` operands. -/
def ldtLen (n m : Nat) : Nat := 16 + 32 * n + 64 * m

/-- The offset of the loop descriptor table of an array or collective record. -/
def State.ldtOff (s : State) (a : Nat) : Nat := if s.dramRd (a + 0x10) 1 = 1 then s.dramRd (a + 0x1C) 4 else s.dramRd (a + 0x14) 4

/-- Whether the loop descriptor table of a record lies within its first `n` bytes. -/
def State.ldtIn (s : State) (a n : Nat) : Bool :=
  let l := s.ldtOff a
  l + 16 ≤ n && l + ldtLen (s.dramRd (a + l) 1) (s.dramRd (a + l + 2) 1) ≤ n

/-- Whether the loop descriptor table of a record lies within it. -/
def State.ldtFits (s : State) (a : Nat) : Bool := s.ldtIn a (s.dramRd (a + 4) 4)

/-- Reserved fields of a command record at `a` (Tables 2.14, 4.3, 5.7, 10.2, 11.4). Those of programs and window blocks are
checked in step 11 (R120, R158). `lim` are the bytes of the payload from the record on. -/
def State.recRsv (s : State) (a lim : Nat) : Bool :=
  let n := min lim (s.dramRd (a + 4) 4)
  let ldt := !s.ldtIn a n || s.ldtRsv (a + s.ldtOff a)
  decide (s.dramRd (a + 8) 4 < 2) &&
    (match s.dramRd (a + 0x10) 1 with
     | 1 => n < 64 || (s.highZero (a + 0x14) 4 && s.zerosAt a [(0x16, 2), (0x30, 16)] && ldt)
     | 2 => n < 64 || (s.highZero (a + 0x13) 1 && s.zeroAt (a + 0x38) 8 && ldt)
     | 3 => n < 48 || s.zerosAt a [(0x11, 7), (0x20, 16)]
     | 4 => n < 64 || s.zerosAt a [(0x13, 1), (0x2A, 22)]
     | _ => true)

/-- Reserved fields and bits of a codebook table (Tables 3.5 and 3.6), as far as it lies within its payload, of which `lim`
bytes are left. -/
def State.codebookRsv (s : State) (a lim : Nat) : Bool :=
  s.zerosAt a [(6, 2), (0xC, 4)] &&
    (List.range (min lim (s.dramRd (a + 8) 4) - 16)).all (fun i => s.highZero (a + 16 + i) 7)

/-- Reserved fields and bits of a scale table (Tables 7.2 to 7.5), as far as its parts lie within it and its payload. -/
def State.scaleRsv (s : State) (a lim : Nat) : Bool :=
  let len := min lim (s.dramRd (a + 0x18) 4)
  let inT (off n : Nat) (b : Bool) : Bool := decide (len < off + n) || b
  s.zerosAt a [(7, 1), (0x16, 2), (0x1C, 36)] &&
    (List.range (s.dramRd (a + 4) 1)).all (fun k => (List.range (s.dramRd (a + 2) 2)).all (fun n =>
      let o := 0x40 + k * s.dramRd (a + 8) 4 + 16 * n
      inT o 16 (s.highZero (a + o + 3) 5))) &&
    (List.range (s.dramRd (a + 6) 1)).all (fun i =>
      let o := s.dramRd (a + 0xC) 4 + 384 * i
      inT o 384 (s.zerosAt (a + o) [(2, 14), (0x8C, 4), (0x150, 48)])) &&
    (List.range (s.dramRd (a + 0x14) 2)).all (fun i =>
      let o := s.dramRd (a + 0x10) 4 + 4 * i
      inT o 4 (s.zeroAt (a + o + 3) 1))

/-- Reserved fields of a scaler program (Tables 9.1 and 9.2). -/
def State.scalerRsv (s : State) (a lim : Nat) : Bool :=
  s.zeroAt (a + 4) 60 &&
    (List.range (s.dramRd (a + 2) 1 + s.dramRd (a + 3) 1)).all (fun r =>
      decide (lim < 0x80 + 64 * r) || s.zerosAt (a + 0x40 + 64 * r) [(0x2E, 2), (0x34, 12)])

/-- Reserved fields and bits of a zone set (Tables 10.9 and 10.10). -/
def State.zoneRsv (s : State) (a : Nat) : Bool :=
  s.zerosAt a [(2, 14), (0x690, 48)] &&
    (List.range 16).all (fun z => s.highZero (a + 0x13 + 80 * z) 2 && s.zeroAt (a + 0x1E + 80 * z) 2) &&
    (List.range 16).all (fun l => s.highZero (a + 0x512 + 24 * l) 3 && s.zerosAt (a + 0x510 + 24 * l) [(3, 1), (0x14, 4)])

/-- Reserved fields and bits of a rule set (Tables 10.3 to 10.5), as far as its parts lie within it and its payload. -/
def State.rulesRsv (s : State) (a lim : Nat) : Bool :=
  let len := min lim (s.dramRd (a + 0x3C) 4)
  let each (n off size : Nat) (f : Nat → Bool) : Bool :=
    (List.range n).all (fun i => decide (len < off + size * (i + 1)) || f (a + off + size * i))
  s.highZero (a + 0xF) 3 &&
    each (s.dramRd (a + 2) 1) (s.dramRd (a + 0x2C) 4) 64 (fun b =>
      s.highZero (b + 3) 2 && s.zerosAt b [(0x1E, 2), (0x30, 16)]) &&
    each (s.dramRd (a + 3) 1) (s.dramRd (a + 0x30) 4) 8 (fun b => s.highZero (b + 6) 3 && s.zeroAt (b + 7) 1) &&
    each (s.dramRd (a + 0x28) 2) (s.dramRd (a + 0x38) 4) 1728 s.zoneRsv

/-- Reserved fields of an item of a placed section, `lim` bytes of whose payload are left from its start on. -/
def State.itemRsv (s : State) (t a lim : Nat) : Bool :=
  match t with
  | 8 => s.recRsv a lim
  | 10 => s.codebookRsv a lim
  | 11 => s.scaleRsv a lim
  | 12 => s.scalerRsv a lim
  | 13 => s.rulesRsv a lim
  | _ => true

/-- Whether a type's payload is a sequence of items with headers. -/
def hasItems (t : Nat) : Bool := t = 8 || (10 ≤ t && t ≤ 13)

/-- The reserved fields of one section's payload: of every item whose header lies in it, also one whose length does not fit
(R85). -/
def State.payloadRsv (s : State) (g : Stage) (d : DirEnt) : Option LoadErr :=
  let e (n : Nat) : LoadErr := loadErr Status.sectionType d.idx n
  let p := g.at d
  if d.type = tPartition then
    firstErr
      [ must (s.zerosAt p [(2, 14), (0x18, 8)]) (e 0),
        eachOf (List.range (s.readRegions p d.len).length) (fun r =>
          must (s.zeroAt (p + 0x60 + 24 * r + 0x14) 4) (e (0x60 + 24 * r))) ]
  else if (entrySize d.type).isSome then eachOf (g.entries d) (fun x => must (s.entryRsv d.type x.2) (e x.1))
  else if hasItems d.type then
    eachOf ((s.items d.type p d.len).filter (fun a => a + itemHdr d.type ≤ d.len)) (fun a =>
      must (s.itemRsv d.type (p + a) (d.len - a)) (e a))
  else none

/-- Step 9 for one section (R42, R60, R66). A note only has its directory entry checked. A type that Table 2.5 does not
define gives 0x3006 in a segment image too, where R66 could be read to give 0x3017 (DESIGN CHOICE, log 76). -/
def State.sectionForm (s : State) (g : Stage) (d : DirEnt) : Option LoadErr :=
  let e : LoadErr := loadErr Status.sectionType d.idx 0
  let earlier := (g.dir.filter (fun x => x.idx < d.idx && x.type = d.type)).length
  let once := d.type = tPartition || d.type = tContext || d.type = tSegment
  if d.note then must (d.flags == 0 && d.rsv == 0) e
  else
    firstErr
      [ must (1 ≤ d.type && d.type ≤ 13) e,
        (if g.swap then
          must (!neverInSegment d.type && d.seg != 0 && d.seg == g.segOf &&
            s.ldr.segs.any (fun x => x.id == d.seg && !x.retiring)) (loadErr Status.notSwappable d.idx 0)
         else must (!(once && earlier != 0) && !(neverInSegment d.type && d.seg != 0)) e),
        must (d.flags == 0 && d.rsv == 0) e,
        (match entrySize d.type with
         | some n => must (d.count * n == d.len) e
         | none => must (d.count == 0) e),
        s.payloadRsv g d ]

/-- Step 9 of Table 2.16. A swap's image holds at least one section of its segment (log 43). -/
def State.checkForm (s : State) (g : Stage) : Option LoadErr :=
  let h (off n : Nat) : Nat := s.hdrRd g.addr off n
  firstErr
    [ must (h 0x2A 2 < 8 && s.zeroAt (g.addr + 0x40) 64) (loadErr Status.sectionType noSec 0),
      eachOf g.dir (s.sectionForm g),
      (if g.swap then must (g.dir.any (fun d => !d.note)) (loadErr Status.notSwappable noSec 0)
       else must ((g.ofType tPartition).length == 1 && (g.ofType tContext).length == 1) (loadErr Status.sectionType noSec 0)) ]

/-! ## Step 11: consumed sections -/

/-- A number from `lo` to `hi`. -/
def within (lo v hi : Nat) : Bool := lo ≤ v && v ≤ hi

def ctxRange (e : CtxEntry) : Bool :=
  e.id < 4096 && e.kind ≤ 4 && e.cls ≤ 15 && e.fn ≤ 0x1F && e.priority ≤ 7 && (e.kind = 2 || e.clusterMask = 0) &&
    !(e.replicated && e.sharded) && e.basinKib % 64 = 0 && e.operandKib % 64 = 0 && e.operandKib ≤ 1024 && e.accTiles ≤ 8 &&
    within 1 e.maxBatch 64 && (e.sliceUs = 0 || within 100 e.sliceUs 100000)

def classRange (k : RillClass) : Bool :=
  k.codec ≤ 4 && (k.maxDepth = 8 || k.maxDepth = 10) && (k.rateNum == 0) == (k.rateDen == 0) && within 20 k.pollUs 10000 &&
    (k.budgetFactor = 0 || 2 ≤ k.budgetFactor)

def poolRange (p : PoolEntry) : Bool := p.id < 64 && regionOwner p.owner && p.size % 4096 = 0 && 1 ≤ p.count

/-- The PARTITION payload (R43, R44, R313). -/
def State.partitionRange (s : State) (g : Stage) (d : DirEnt) (i : Image) : Option LoadErr :=
  let e (n : Nat) : LoadErr := loadErr Status.fieldRange d.idx n
  let n := s.dramRd (g.at d) 2
  let two := 0x200000
  firstErr
    [ must (within 1 n 256 && d.len = 0x60 + 24 * n) (e 0),
      eachOf (indexed i.channelOwner) (fun x => must (ownerCode x.2) (e (0x10 + x.1))),
      eachOf (indexed i.wayOwner) (fun x => must (ownerCode x.2) (e (0x20 + x.1))),
      eachOf (indexed i.regions) (fun x =>
        must (x.2.base % two = 0 && x.2.size % two = 0 && x.2.kind ≤ 5 && regionOwner x.2.owner &&
          i.groupsOf s.dev.part x.2.owner != []) (e (0x60 + 24 * x.1))) ]

/-- Entry `n` of a consumed section at `a`; `earlier` are the addresses of the entries of the type before it. -/
def State.entryRange (s : State) (t a n : Nat) (earlier : List Nat) : Bool :=
  let fresh (size : Nat) : Bool := !earlier.any (fun b => s.dramRd b size == s.dramRd a size)
  match t with
  | 2 => ctxRange (s.readCtxEnt a n) && fresh 2
  | 3 => classRange (s.readClassEnt a) && fresh 2
  | 4 => within 1 (s.dramRd (a + 8) 1) 32
  | 5 => poolRange (s.readPoolEnt a) && fresh 1
  | 6 => 1 ≤ s.dramRd a 2 && within 1 (s.dramRd (a + 2) 2) 12
  | 7 => 30 ≤ s.dramRd (a + 4) 2
  | _ => true

/-- The entries of a consumed section. -/
def State.entriesRange (s : State) (g : Stage) (d : DirEnt) : Option LoadErr :=
  eachOf (g.entries d) (fun x =>
    let before := ((g.allEntries d.type).filter (fun y => y.1 < d.idx || (y.1 = d.idx && y.2.1 < x.1))).map (·.2.2)
    must (s.entryRange d.type x.2 x.1 before) (loadErr Status.fieldRange d.idx x.1))

/-! ## Step 11: tables of placed sections -/

/-- A codebook table (R85). -/
def State.codebookRange (s : State) (a : Nat) : Bool :=
  let f := s.dramRd (a + 2) 1
  let n := s.dramRd (a + 4) 2
  (f = 8 || f = 9) && s.dramRd (a + 3) 1 ≤ 12 && within 1 n 4096 &&
    s.dramRd (a + 8) 4 = 16 + n * (if f = 8 then 16 else 512)

/-- Whether a list rises strictly. -/
def rises : List Nat → Bool
  | [] => true
  | [_] => true
  | a :: b :: r => a < b && rises (b :: r)

/-- Whether a list of integers does not fall. -/
def neverFalls : List Int → Bool
  | [] => true
  | [_] => true
  | a :: b :: r => decide (a ≤ b) && neverFalls (b :: r)

/-- The parts of a scale table within its length (Table 7.2). -/
def State.scaleShape (s : State) (a : Nat) : Bool :=
  let ch := s.dramRd (a + 2) 2
  let sets := s.dramRd (a + 4) 1
  let acts := s.dramRd (a + 6) 1
  let ao := s.dramRd (a + 0xC) 4
  let qo := s.dramRd (a + 0x10) 4
  let qn := s.dramRd (a + 0x14) 2
  within 128 ch 16384 && ch % 128 = 0 && within 1 sets 16 && s.dramRd (a + 5) 1 ≤ 6 && acts ≤ 16 &&
    s.dramRd (a + 8) 4 = 16 * ch && ao % 64 = 0 && (acts != 0 || ao = 0) && qo % 64 = 0 && qn ≤ 512 && (qn != 0 || qo = 0) &&
    s.dramRd (a + 0x18) 4 = max (0x40 + sets * (16 * ch)) (max (ao + 384 * acts) (qo + 4 * qn))

/-- A scale table (R181, R182, R189). -/
def State.scaleRange (s : State) (a : Nat) : Bool :=
  let rd := s.rdAt a
  let lim : Int := 2 ^ 40
  s.scaleShape a &&
    (List.range (rd 4 1)).all (fun k => (List.range (rd 2 2)).all (fun n =>
      let c := readChanOf rd k n
      (c.act = 0xFF || c.act < rd 6 1) && decide (-lim ≤ c.zcorr) && decide (c.zcorr ≤ lim) &&
        (rd 0x14 2 != 0 || c.zcorr == 0))) &&
    (List.range (rd 6 1)).all (fun i => neverFalls (readAct rd i).bps) &&
    rises (readAq4 rd) && (List.range (rd 0x14 2)).all (fun i => rd (rd 0x10 4 + 4 * i + 2) 1 ≤ 15)

/-- Planes of a region's output (R233). -/
def RegionDesc.planes (d : RegionDesc) : Nat := planesOf d.outFmt * d.chans

/-- A region descriptor; `crop` says that it stands among the track-crop descriptors (R231 to R233). -/
def regionRange (d : RegionDesc) (crop : Bool) : Bool :=
  (if crop then d.kind = 2 else d.kind < 2) && d.filter ≤ 2 && d.fit ≤ 2 && (d.outFmt = fmtNp8 || d.outFmt = fmtNp10) &&
    d.channels ≤ 3 && d.matrix ≤ 3 && within 1 d.defMatrix 3 && d.range ≤ 2 &&
    (if d.kind = 0 then within 16 d.sw 2048 && within 16 d.sh 2048 else d.sx + d.sy + d.sw + d.sh = 0) &&
    within 16 d.outW 2048 && within 16 d.outH 2048 && (if d.kind = 2 then d.margin ≤ 64 else d.margin = 0) &&
    d.pad.all (fun v => v < 2 ^ d.depth) && d.dest ≤ 1 && d.rowPitch % 64 = 0 && d.planePitch % 64 = 0 &&
    ceilDiv d.outW 2 ≤ d.rowPitch && d.rowPitch * d.outH ≤ d.planePitch &&
    (d.dest = 0 || (within 1 d.slotCount 64 && d.slotPitch % 64 = 0 && d.planes * d.planePitch ≤ d.slotPitch))

/-- A scaler program. -/
def State.scalerRange (s : State) (a : Nat) : Bool :=
  let p := s.programAt a
  p.rois.length ≤ 64 && p.crops.length ≤ 8 && within 1 (p.rois.length + p.crops.length) 64 &&
    p.rois.all (fun d => regionRange d false) && p.crops.all (fun d => regionRange d true)

/-- A rule-set header (Table 10.3). -/
def State.rulesHeader (s : State) (a : Nat) : Bool :=
  let rd := s.rdAt a
  let len := rd 0x3C 4
  let zs := rd 0x28 2
  let part (off n : Nat) : Bool := rd off 4 % 64 = 0 && rd off 4 + n ≤ len
  within 1 (rd 2 1) 8 && within 1 (rd 3 1) 64 && within 1 (rd 4 2) 4096 && within 1 (rd 6 2) 1024 && within 1 (rd 8 4) 65536 &&
    rd 0xC 2 ≤ 0x100 && rd 0xE 1 ≤ 1 && rd 0x10 2 ≤ 0x100 && rd 0x14 4 ≤ 28800 && rd 0x18 2 ≤ 0x100 && rd 0x1A 2 ≤ 0x100 &&
    rd 0x1C 2 ≤ 0x100 && 1 ≤ rd 0x1E 1 && rd 0x1F 1 ≤ 64 && 1 ≤ rd 0x20 2 && within 1 (rd 0x23 1) 16 && zs ≤ 512 &&
    part 0x2C (64 * rd 2 1) && part 0x30 (8 * rd 3 1) &&
    (if zs = 0 then rd 0x34 4 = 0 && rd 0x38 4 = 0 else part 0x34 1024 && part 0x38 (1728 * zs))

/-- A head descriptor (Table 10.4). -/
def headRange (h : HeadDesc) : Bool :=
  h.kind ≤ 1 && (if h.kind = 0 then h.anchors = 1 else within 1 h.anchors 4) && within 1 h.stride 128 &&
    within 1 h.gridW 2048 && within 1 h.gridH 2048

/-- A zone set (R269, R251). Entries beyond the counts are 0. -/
def State.zoneRange (s : State) (a : Nat) : Bool :=
  let z := s.dramRd a 1
  let l := s.dramRd (a + 1) 1
  z ≤ 16 && l ≤ 16 &&
    (List.range 16).all (fun i =>
      if i < z then within 3 (s.dramRd (a + 0x10 + 80 * i + 2) 1) 16 else s.zeroAt (a + 0x10 + 80 * i) 80) &&
    (List.range 16).all (fun i => i < l || s.zeroAt (a + 0x510 + 24 * i) 24) &&
    ((List.range z).filter (fun i => s.dramRd (a + 0x10 + 80 * i + 0xC) 2 != 0)).length ≤ 2

/-- The commands of a context that a staged image, or the loaded base under it, gives. -/
def State.cmdsFor (s : State) (g : Stage) (ctx : Nat) : List Cmd :=
  let own := s.stagedCmds g ctx
  if own = [] ∧ g.swap then (s.records ctx false).map (fun a => readCmd (s.rdAt a)) else own

/-- The product of the declared maxima of the levels of a dimension. -/
def Cmd.dimMax (c : Cmd) (dim : Nat) : Nat := (c.levels.filter (fun l => l.dim = dim)).foldl (fun a l => a * l.maxBound) 1

/-- The embedding operand of R268. -/
def embOperand (cs : List Cmd) : Bool :=
  match cs.getLast? with
  | some c =>
    (match c.opnd 8 with
     | some o => c.outFmt = fmtInt4 && c.dimMax 1 = 1 && o.chan == 1 &&
        (indexed c.levels).all (fun l => l.2.dim != 3 || o.stride.getD l.1 0 % 128 == 0)
     | none => false)
  | none => false

/-- A rule set (R251). -/
def State.rulesRange (s : State) (g : Stage) (i : Image) (a : Nat) : Bool :=
  let rd := s.rdAt a
  let zs := rd 0x28 2
  s.rulesHeader a && (List.range (rd 2 1)).all (fun k => headRange (readHead (s.rdAt (a + rd 0x2C 4 + 64 * k)))) &&
    (zs = 0 || (List.range 512).all (fun r =>
      let v := rd (rd 0x34 4 + 2 * r) 2
      v = 0xFFFF || v < zs)) &&
    (List.range zs).all (fun k => s.zoneRange (a + rd 0x38 4 + 1728 * k)) &&
    (rd 0x26 2 = 0xFFFF || (i.ctx (rd 0x26 2)).isNone || embOperand (s.cmdsFor g (rd 0x26 2)))

/-! ## Step 11: copy and track records -/

/-- A copy record (R309). -/
def State.copyRange (s : State) (a : Nat) : Bool :=
  let rd := s.rdAt a
  let op := rd 0x11 1
  let len := rd 0x14 4
  rd 4 4 = 64 && op ≤ 1 && bitAt (rd 8 4) 0 == (op == 1) && len % 64 = 0 && 64 ≤ len &&
    (if op = 0 then
      len ≤ 0x10000000 && rd 0x12 1 = 0 && rd 0x18 8 % 64 = 0 && rd 0x20 8 % 64 = 0 && rd 0x28 2 = 0xFFFF
     else len ≤ 0x1000000 && rd 0x18 8 = 0 && rd 0x20 8 = 0)

/-- A track record: the prefix and the body of Table 10.2, and nothing more (R248). -/
def State.trackRange (s : State) (a : Nat) : Bool := s.dramRd (a + 4) 4 = 48 && bitAt (s.dramRd (a + 8) 4) 0

end Sys2Proof.Machine
end

