-- ==== Sys2Proof/Machine/LoadCmds.lean ====
section
/-! DEFINITION. The image loader: array and collective commands. Their fields, loop descriptor tables, programs and window
blocks (step 11: R73, R114, R115, R120, R129 to R136, R150, R156 to R158, R165, R169, R170, R176, R181, R185), their references
(step 12: R85, R181), their overlaps (step 16: R140) and their needs (step 20: R141). -/

set_option Elab.async false

namespace Sys2Proof.Machine

/-! ## Loop descriptor tables -/

/-- A level entry (Table 5.2). -/
def levelRange (l : Level) : Bool :=
  l.kind ≤ 3 && l.dim ≤ 5 && l.order ≤ 1 && l.boundSrc ≤ 2 && l.tileStep ≤ 7 && (l.boundSrc = 0 || l.bound = 0) &&
    1 ≤ l.maxBound && (l.boundSrc != 0 || l.maxBound = l.bound) && l.boundAddr % 4 = 0 && (l.boundSrc = 2 || l.boundAddr = 0)

/-- An output role (Table 5.3). -/
def Opnd.isOut (o : Opnd) : Bool := 8 ≤ o.role

/-- An operand entry of a table of `n` levels (Table 5.3). -/
def opndRange (o : Opnd) (n : Nat) : Bool :=
  (o.role ≤ 4 || (8 ≤ o.role && o.role ≤ 11)) && o.space ≤ 2 && (o.isOut || (o.pos == 0 && o.chan == 0)) &&
    (o.stride.drop n).all (fun v => v == 0) && (o.bases || o.baseArray = 0)

/-- Whether kinds do not fall from level 1 inward. -/
def kindsRise : List Level → Bool
  | [] => true
  | [_] => true
  | a :: b :: r => a.kind ≤ b.kind && kindsRise (b :: r)

/-- The level entries of a table with their numbers. -/
def Cmd.numbered (c : Cmd) : List (Nat × Level) := (indexed c.levels).map (fun x => (x.1 + 1, x.2))

/-- The rules of R133 on levels. -/
def Cmd.levelRules (c : Cmd) (e : Option CtxEntry) : Bool :=
  let n := c.levels.length
  let sharded := match e with
    | some x => x.sharded
    | none => true
  kindsRise c.levels &&
    c.numbered.all (fun x =>
      (decide (x.1 = n) == (x.2.kind == 3)) && (x.2.kind != 3 || x.2.dim = 2) &&
        (c.tileLevels < x.1 || (x.2.kind ≤ 1 && x.2.dim != 2)) &&
        (x.2.dim != 5 || (x.1 = 1 && c.shard && x.2.boundSrc = 0 && within 2 x.2.bound 16)) &&
        (x.1 != 1 || x.2.order = 0) && (x.2.tileStep = 0 || (c.tileLevels < x.1 && x.1 < n))) &&
    (!c.shard || (sharded && 1 ≤ c.tileLevels && c.levels.head?.map (·.dim) == some 5))

/-- The rules of R133 on operands. -/
def Cmd.opndRules (c : Cmd) : Bool :=
  let res := c.opnd (if bitAt c.flags 2 then 1 else 0)
  c.opnds.all (fun o =>
    (!o.indirect || (!o.isOut && c.levels.any (fun l => l.dim = 3))) &&
      (!o.isOut || (o.stride.all (fun v => decide (0 ≤ v)) && decide (0 ≤ o.pos) && decide (0 ≤ o.chan)))) &&
    (match res with
     | some o => (indexed c.levels).all (fun x => x.2.kind != 2 || o.stride.getD x.1 0 == 0)
     | none => true)

/-- Whether a list of digits, each a count and a stride, in ascending stride names every unit at most once (R133); `sum` is
one less than the units already named. -/
def digitsApart : Nat → List (Nat × Nat) → Bool
  | _, [] => true
  | sum, d :: ds => sum + 1 ≤ d.2 && digitsApart (sum + (d.1 - 1) * d.2) ds

/-- The positions digit of an output, or the two digits of a windowed command (R133, R162). -/
def Cmd.posDigits (c : Cmd) (o : Opnd) : List (Nat × Nat) :=
  match c.window with
  | some w =>
    let g := w.geo w.inW w.inH
    [(g.vert.fin, w.outRow), (g.horz.fin, o.pos.natAbs)]
  | none => [(128, o.pos.natAbs)]

/-- Whether the geometry of a windowed command at its declared maxima is empty (R159): it names no output. -/
def Cmd.emptyMax (c : Cmd) : Bool :=
  match c.window with
  | some w => (w.vert w.inH).fin == 0 || (w.horz w.inW).fin == 0
  | none => false

/-- Whether the output footprints of distinct tiles are disjoint (R133). -/
def Cmd.outputApart (c : Cmd) (o : Opnd) : Bool :=
  let lv := (indexed c.levels).filter (fun x => !(c.window.isSome && x.2.dim == 0) && decide (1 < x.2.maxBound))
  let st (l : Nat) : Nat := (o.stride.getD l 0).natAbs
  c.emptyMax ||
    (lv.all (fun x => c.tileLevels ≤ x.1 || st x.1 != 0) &&
      digitsApart 0 (sortBy (fun a b => decide (a.2 ≤ b.2))
        (c.posDigits o ++ [(128, o.chan.natAbs)] ++
          (lv.filter (fun x => st x.1 != 0)).map (fun x => (x.2.maxBound, st x.1)))))

/-- Whether an address field that is a DRAM address names DRAM (Tables 5.2 and 6.1). -/
def State.inDram (s : State) (a : Nat) : Bool := decide (a < dramSize s.dev.part)

/-- Fields of a table of any command: its levels, operands, offsets, and where it lies (R129 to R131, R156). -/
def State.ldtRange (s : State) (a : Nat) (c : Cmd) (lo hi : Nat) : Bool :=
  let l := s.ldtOff a
  let w := s.dramRd (a + l + 4) 2
  s.ldtFits a && within lo c.levels.length hi && c.tileLevels ≤ 5 && within 1 c.opnds.length 12 && c.counterOff % 64 = 0 &&
    c.levels.all (fun l => levelRange l && s.inDram l.boundAddr) && c.opnds.all (fun o => opndRange o c.levels.length) &&
    (w = 0 || (w % 16 = 0 && l + w + 208 ≤ s.dramRd (a + 4) 4))

/-! ## Programs -/

/-- Whether a trigger is one that R116 and R133 allow in a table of `n` levels with `t` tile levels. -/
def triggerOk (g t n : Nat) : Bool :=
  g = 0 || g = 8 || (let l := if g < 8 then g else g - 8
    t < l && l < n && g != 7 && g != 15)

/-- A pitch level or index level that the table defines (R120). -/
def Cmd.hasLevel (c : Cmd) (l : Nat) : Bool := l ≤ c.levels.length

/-- The fields of one instruction (Tables 4.4, 4.7 to 4.11; R107, R120, R158, R170). -/
def Cmd.opRange (c : Cmd) (o : Op) : Bool :=
  let b := o.bits
  let top (n : Nat) : Bool := b < 2 ^ n
  let win := c.window.isSome
  let words := match c.window with
    | some w => w.rrWords
    | none => 0
  let out := (c.opnd (8 + field b 19 2)).isSome
  let counters :=
    let l := field b 32 3
    let sel := field b 30 2
    top 68 && !bitAt b 35 && c.hasLevel l && sel != 3 && l < 7 &&
      (sel = 0 || (o.opcode = 10 && (match c.window with
        | some w => w.stripe
        | none => false))) &&
      field b 16 14 + (if l = 0 then 0 else (c.maxBounds.getD (l - 1) 1) - 1) < words
  field b 12 4 = 0 && triggerOk o.trigger c.tileLevels c.levels.length &&
    (match o.opcode with
     | 1 =>
       let role := field b 16 4
       let p := field b 61 3
       top 65 && role ≤ 4 &&
         (if role = 4 then isCodebook c.rowFmt && field b 20 1 = 0 && field b 21 13 = 0 && field b 34 14 = 0 && field b 48 13 = 0
          else (c.opnd role).isSome) &&
         (if win && (role = 0 || role = 2) then p = 7 else p < 7 && c.hasLevel p)
     | 2 => top 21 && (!bitAt b 19 || (c.opnd 2).isSome) && (!bitAt b 20 || (c.opnd 3).isSome)
     | 3 => top 20 && (!bitAt b 19 || (c.opnd 4).isSome)
     | 4 =>
       top 121 && (!bitAt b 120 || bitAt c.flags 0 || bitAt c.flags 1) && field b 40 2 ≤ tailMax c.colFmt c.rowFmt &&
         (!bitAt b 39 || (field b 19 20 = 0 && field b 40 2 = 0)) &&
         (match c.window with
          | some w => bitAt b 42 && bitAt b 107 == w.diag
          | none => true)
     | 5 => top 21 && out
     | 6 => top 21 && out && (match c.window with
       | some w => w.combine = 0
       | none => true)
     | 7 => top 68
     | 8 => top 18
     | 9 => counters
     | 10 => counters
     | _ => false)

/-- The least line that a line field of a role names at declared maxima, over the operand-store levels that enclose a trigger:
below 0 it is outside the context's range (R99; log 88). -/
def Cmd.lineFloor (c : Cmd) (role trigger fld : Nat) : Int :=
  match c.opnd role with
  | none => fld
  | some o => ((indexed c.levels).take (trigger % 8)).foldl (fun (a : Int) x =>
      if x.2.kind = 2 then a + min 0 (((x.2.maxBound - 1 : Nat) : Int) * o.stride.getD x.1 0) else a) (fld : Int)

/-- Whether an instruction names no line before its context's range. -/
def Cmd.linesInRange (c : Cmd) (o : Op) : Bool :=
  let ok (role fld : Nat) : Bool := decide (0 ≤ c.lineFloor role o.trigger fld)
  match o.opcode with
  | 1 => field o.bits 16 4 = 4 || ok (field o.bits 16 4) (field o.bits 21 13)
  | 4 => ok 0 (field o.bits 44 13) && ok 1 (field o.bits 82 13)
  | 7 => ok 2 (field o.bits 17 13) && ok 3 (field o.bits 31 13)
  | _ => true

/-- Where a tile stands in the order of R120. -/
inductive TileUse where
  | none | ready | streamed | drained
  deriving DecidableEq, Repr

/-- A tile in the walk: its use, whether it has been scanned since its INIT, and the M, N, batch and group indices of its
STREAMs (R136). -/
structure TileWalk where
  use : TileUse
  scanned : Bool
  key : Option (List Nat)
  deriving DecidableEq, Repr

/-- The M, N, batch and group indices of a firing. -/
def Cmd.walkKey (c : Cmd) (idx : List Nat) : List Nat :=
  (indexed c.levels).filterMap (fun x => if x.2.dim = 2 ∨ x.2.dim = 5 then none else some (idx.getD x.1 0))

/-- One instruction on the tile it names: none where it breaks the order of R120 or R136. -/
def tileUse (o : Op) (key : List Nat) (t : TileWalk) : Option TileWalk :=
  match o.opcode with
  | 3 => if t.use = .none ∨ t.use = .drained then some { use := .ready, scanned := false, key := .none } else .none
  | 2 => if t.use = .ready ∧ !t.scanned then some { t with scanned := true } else .none
  | 4 =>
    if t.use = .none ∨ t.use = .drained ∨ (bitAt o.bits 120 ∧ !t.scanned) ∨ (t.key.isSome ∧ t.key ≠ some key) then .none
    else some { t with use := .streamed, key := some key }
  | _ => if t.use = .streamed ∨ t.use = .drained then some { t with use := .drained } else .none

/-- The walk of a tile's firings over its tiles: whether the order of R120 holds, with every tile drained at the end. -/
def Cmd.walkTiles (c : Cmd) : List (Nat × List Nat) → SMap TileWalk → Bool
  | [], m => m.all (fun x => x.2.use == .drained)
  | (pc, idx) :: fs, m =>
    match c.prog[pc]? with
    | none => false
    | some o =>
      if 2 ≤ o.opcode ∧ o.opcode ≤ 6 then
        let t := c.tileOf (field o.bits 16 3) idx
        match tileUse o (c.walkKey idx) (SMap.get (fun _ => { use := .none, scanned := false, key := .none }) m t) with
        | some u => Cmd.walkTiles c fs (SMap.insert m t u)
        | none => false
      else Cmd.walkTiles c fs m

/-- The firings of a tile with every level at its declared maximum (R120). -/
def Cmd.maxFires (c : Cmd) : List (Nat × List Nat) := c.fires c.maxBounds 0 0

/-- The levels that enclose a trigger (R134): levels 1 to l. -/
def enclosing (g : Nat) : Nat := g % 8

/-- The highest effective tile of an instruction before alternation (R141). -/
def Cmd.topTile (c : Cmd) (o : Op) : Nat :=
  field o.bits 16 3 + ((c.levels.take (enclosing o.trigger)).map (fun l => l.tileStep * (l.maxBound - 1))).foldl (· + ·) 0

/-- The accumulator tiles that a command needs, before alternation (R141). -/
def Cmd.tilesNeeded (c : Cmd) : Nat :=
  ((c.prog.filter (fun o => 2 ≤ o.opcode && o.opcode ≤ 6)).map (fun o => c.topTile o + 1)).foldl max 0

/-- Slot alternation (R115). -/
def Cmd.alternates (c : Cmd) : Bool := bitAt c.flags 3

def Cmd.alternationOk (c : Cmd) (e : Option CtxEntry) : Bool :=
  match e with
  | some x => !c.alternates || (x.accTiles % 2 = 0 && c.tilesNeeded ≤ x.accTiles / 2)
  | none => true

/-! ## Window blocks -/

/-- The fields of a window block at DRAM address `a` (Tables 6.1 and 6.2). -/
def State.windowFields (s : State) (a fmt : Nat) (w : Window6) : Bool :=
  let small (v : Nat) : Bool := within 1 v 16
  let crop (v : Nat) : Bool := within 1 v 16384 || v = 0xFFFF
  let padMax := if fmt = fmtNp8 then 255 else if fmt = fmtNp10 then 1023 else 15
  w.flags < 8 && w.combine ≤ 2 && small w.taps && (w.combine != 0 || w.taps = 1) &&
    w.runLevel = (if w.stripe then 2 else 0) && within 1 w.inW 16384 && within 1 w.inH 16384 && within 1 w.inC 4096 &&
    [0, 1, 2, 4, 8, 16, 32, 64].contains w.groupOut && (w.groupOut == 0) == (w.groupIn == 0) &&
    (!w.diag || w.groupOut != 0) && [w.kh, w.kw, w.sh, w.sw, w.dh, w.dw, w.psh, w.psw].all small &&
    [w.padT, w.padB, w.padL, w.padR, w.ppt, w.ppb, w.ppl, w.ppr].all (fun v => v ≤ 15) && w.padValue ≤ padMax &&
    crop w.cropH && crop w.cropW && (w.stripe || w.stripeRows = 0) && w.rrWords ≤ 4096 && w.rrPreset ≤ w.rrWords &&
    w.dimsAddr % 4 = 0 && s.inDram w.dimsAddr && (w.indirect || w.dimsAddr = 0) && s.zerosAt a [(0xB, 1), (0x39, 7), (0x48, 8)] &&
    (List.range 16).all (fun k =>
      if k < w.taps then s.dramRd (a + 0x50 + 8 * k) 1 ≤ 15 && s.dramRd (a + 0x51 + 8 * k) 1 ≤ 15 &&
        s.dramRd (a + 0x52 + 8 * k) 2 ≤ 4095 && s.zeroAt (a + 0x56 + 8 * k) 2
      else s.zeroAt (a + 0x50 + 8 * k) 8)

/-- The highest group base of a windowed command (R167). -/
def Cmd.topGroup (c : Cmd) (w : Window6) : Nat := groupBase w (128 * (c.dimMax 1 - 1)) 7 (w.sg - 1)

/-- The rules of R158 beyond the fields. -/
def Cmd.windowRules (c : Cmd) (w : Window6) (e : Option CtxEntry) : Bool :=
  let p := elemsPerSlot c.colFmt
  let inW := [0, 2, 8, 9, 10, 11]
  let sharded := match e with
    | some x => x.sharded
    | none => false
  w.cr % p = 0 && (w.groupIn = 0 || w.inC % w.groupIn = 0) && c.dimMax 2 * c.dimMax 5 = w.kwin &&
    Cmd.accBound c.maxBounds % p = 0 && w.live.all (fun t => c.topGroup w + w.cr - 1 + t.dz < w.inC) &&
    w.ppt ≤ w.maxDy && w.ppb ≤ w.maxDy && w.ppl ≤ w.maxDx && w.ppr ≤ w.maxDx && (w.combine = 0 || !sharded) &&
    (w.stripe || (c.levels.filter (fun l => l.dim = 0)).length = 1) &&
    c.opnds.all (fun o => !inW.contains o.role || (indexed c.levels).all (fun x => x.2.dim != 0 || o.stride.getD x.1 0 == 0))

/-- The M indices, as (stripe, index), of a windowed command at its declared maxima. -/
def Cmd.maxTiles (c : Cmd) (g : Geo) : List (Nat × Nat) :=
  if g.w.stripe then
    (List.range (c.maxBounds.getD 0 1)).flatMap (fun s => (List.range (c.maxBounds.getD 2 1)).map (fun m => (s, m)))
  else (List.range (ceilDiv (g.vert.fin * g.horz.fin * g.gs) 128)).map (fun m => (0, m))

/-- The window loads of a command fit what their tiles need (R165). -/
def Cmd.windowLoads (c : Cmd) (w : Window6) : Bool :=
  let g := w.geo w.inW w.inH
  let loads := c.prog.filter (fun o => o.opcode = 1 && field o.bits 61 3 = 7)
  let most := ((c.maxTiles g).map (fun x => match g.rowSpan x.1 x.2 with
    | some (a, b) => b - a + 1
    | none => 0)).foldl max 0
  loads.all (fun o => most ≤ field o.bits 34 14 + 1 &&
    (field o.bits 16 4 != 0 || ceilDiv w.inW 128 ≤ field o.bits 48 13 + 1))

/-- A level entry of zeros. -/
def noLevel : Level :=
  { kind := 0, dim := 0, order := 0, boundSrc := 0, tileStep := 0, bound := 0, maxBound := 0, boundAddr := 0 }

/-- The rules of a stripe run (R169). -/
def Cmd.stripeRules (c : Cmd) (w : Window6) (e : Option CtxEntry) : Bool :=
  let g := w.geo w.inW w.inH
  let hs := w.stripeRows
  let lv (k : Nat) : Level := c.levels.getD k noLevel
  let n := (lv 0).bound
  let rep := match e with
    | some x => x.replicated
    | none => true
  !w.stripe ||
    (rep && c.tileLevels = 1 && 1 ≤ hs && (lv 0).kind = 1 && (lv 0).dim = 0 && (lv 0).boundSrc = 0 && n = ceilDiv g.vert.fin hs &&
      within 2 n 8 && (lv 1).kind = 1 && (lv 1).dim = 4 && (lv 1).boundSrc = 0 && within 1 (lv 1).bound 16 && (lv 2).kind = 1 &&
      (lv 2).dim = 0 && (lv 2).boundSrc = 0 && (lv 2).bound = ceilDiv (hs * g.horz.fin) 128 &&
      (c.levels.drop 3).all (fun l => 2 ≤ l.kind && l.dim != 3) && !w.indirect && w.combine = 0 && c.colFmt = c.outFmt &&
      colRole c.colFmt && planesOf c.colFmt = 1 && elemsPerSlot c.colFmt = 1 && w.sh = 1 && w.sw = 1 &&
      w.padT + w.padB = w.dh * (w.kh - 1) && w.padL + w.padR = w.dw * (w.kw - 1) && w.cropY0 = 0 && w.cropX0 = 0 &&
      w.cropH = 0xFFFF && w.cropW = 0xFFFF && max w.padT w.padB ≤ hs && max w.padT w.padB + (n - 1) * hs ≤ g.vert.fin &&
      (match c.opnd 0, c.opnd 8 with
       | some a, some b =>
         a.space = b.space && w.outRow = w.memRow && b.chan == (w.memPlane : Int) &&
           (2 * b.base : Int) == 2 * a.base + a.stride.getD 1 0 && b.stride.getD 1 0 == a.stride.getD 1 0
       | _, _ => false))

/-- Everything that step 11 asks of a window block. -/
def State.windowRange (s : State) (a : Nat) (c : Cmd) (e : Option CtxEntry) : Bool :=
  match c.window with
  | some w =>
    s.windowFields (a + s.ldtOff a + s.dramRd (a + s.ldtOff a + 4) 2) c.colFmt w && c.windowRules w e && c.stripeRules w e &&
      c.windowLoads w
  | none => true

/-! ## Scale tables named by commands (R181, R182, R185) -/

/-- Output formats of R176. -/
def outFmtOk (f : Nat) : Bool := f < 8 || f = fmtQ88

/-- Input channels of the column tensor as R182 counts them. The shard level splits the reduction (R148), so its shards count
with the dim-K levels (log 91). -/
def Cmd.inChannels (c : Cmd) : Nat :=
  match c.window with
  | some w => w.inC
  | none => c.dimMax 5 * c.dimMax 2

/-- What step 11 asks of a command and the scale table at DRAM address `t` that it names; `combined` says that a collective
command with drain set combines its partials. -/
def State.scaleUse (s : State) (c : Cmd) (combined : Bool) (t : Nat) : Bool :=
  let rd := s.rdAt t
  let q := readAq4 rd
  (c.outFmt = fmtInt4 || (List.range (rd 4 1)).all (fun k => (List.range (rd 2 2)).all (fun n => !(readChanOf rd k n).outAq4))) &&
    (c.kind != 1 || q = [] ||
      (q.length ≤ c.inChannels / 8 && q.all (fun x => x < c.inChannels) && c.colFmt = fmtInt4 && c.flags % 4 = 0 &&
        (match c.window with
         | some w => w.padT + w.padB + w.padL + w.padR = 0
         | none => true) &&
        (!c.shard || combined)))

/-- Whether a sharded command's partials are combined by a collective with drain set: the next collective command of its
context drains. -/
def combinedIn (cs : List Cmd) (c : Cmd) : Bool :=
  match cs.find? (fun x => x.kind = 2 && c.index < x.index) with
  | some x => x.collectiveDrain
  | none => false

/-! ## Step 11 -/

/-- An array command at DRAM address `a` (R114 to R120, R129 to R136). -/
def State.arrayRange (s : State) (g : Stage) (a : Nat) (c : Cmd) (e : Option CtxEntry) : Bool :=
  let rd := s.rdAt a
  let len := rd 4 4
  64 ≤ len && !c.nonKill && colRole c.colFmt && rowRole c.rowFmt && outFmtOk c.outFmt && (!bitAt c.flags 0 || expRole c.colFmt) &&
    (!bitAt c.flags 1 || expRole c.rowFmt) && within 1 (rd 0x15 1) 64 && rd 0x18 4 % 16 = 0 && rd 0x18 4 + 16 * rd 0x15 1 ≤ len &&
    rd 0x1C 4 % 16 = 0 && (isCodebook c.rowFmt || c.codebook = 0) && s.ldtRange a c 2 6 && c.levelRules e && c.opndRules &&
    updatesFor c.colFmt c.rowFmt (Cmd.accBound c.maxBounds) ≤ 2 ^ 20 && (c.opnds.filter (·.isOut)).all c.outputApart &&
    c.prog.all (fun o => c.opRange o && c.linesInRange o) && s.windowRange a c e && c.walkTiles c.maxFires [] && c.alternationOk e &&
    (match s.tableAt g tScale c.scale with
     | some t => s.scaleUse c (combinedIn (s.stagedCmds g c.ctx) c) t
     | none => true)

/-- A collective command (R150). -/
def State.collectiveRange (s : State) (g : Stage) (a : Nat) (c : Cmd) : Bool :=
  let shards := (s.stagedCmds g c.ctx).filter (fun x => x.shard && x.index < c.index)
  64 ≤ s.dramRd (a + 4) 4 && !c.nonKill && within 2 c.shardCount 16 &&
    (if c.collectiveDrain then outFmtOk c.outFmt else c.outFmt = fmtAcc32 && c.scale = 0) && c.partialPitch % 0x10000 = 0 &&
    s.ldtRange a c 1 5 && c.levels.length = c.tileLevels && !c.shard && c.window.isNone && c.levels.all (fun l => l.kind ≤ 1 && l.dim != 2 && l.dim != 5) &&
    c.numbered.all (fun x => (x.1 != 1 || x.2.order = 0) && x.2.tileStep = 0) && kindsRise c.levels &&
    c.opnds.map (·.role) = [8] && c.opndRules && c.opnds.all c.outputApart &&
    (match shards.getLast? with
     | some x => c.maxBounds != [] && x.maxBounds.headD 0 = c.shardCount
     | none => false) &&
    (match s.tableAt g tScale c.scale with
     | some t => !c.collectiveDrain || s.scaleUse c true t
     | none => true)

/-- A command record at DRAM address `a`, `index` records of its context standing before it (R52). -/
def State.recordRange (s : State) (g : Stage) (i : Image) (a index : Nat) : Bool :=
  let rd := s.rdAt a
  let kind := rd 0x10 1
  let e := i.ctx (rd 0 2)
  let fits (k : Nat) : Bool := match e with
    | some x => x.kind = k
    | none => true
  rd 4 4 % 16 = 0 && rd 2 2 = index && (bitAt (rd 8 4) 0 || rd 0xC 4 = 0) &&
    (match kind with
     | 1 => fits 2 && s.arrayRange g a (readCmd rd) e
     | 2 => fits 2 && s.collectiveRange g a (readCmd rd)
     | 3 => fits 3 && s.trackRange a && index = 0
     | 4 => fits 4 && s.copyRange a
     | _ => false)

/-! ## Step 12 -/

/-- The codebook table that a command names (R85). -/
def State.codebookRef (s : State) (g : Stage) (c : Cmd) : Bool :=
  !isCodebook c.rowFmt ||
    (match s.tableAt g tCodebook c.codebook with
     | some t => s.dramRd (t + 2) 1 = c.rowFmt && 128 * c.dimMax 1 ≤ s.dramRd (t + 4) 2 * 2 ^ s.dramRd (t + 3) 1
     | none => false)

/-- The scale table that a command names (R181). -/
def State.scaleRef (s : State) (g : Stage) (c : Cmd) : Bool :=
  (c.kind = 2 && !c.collectiveDrain) ||
    (match s.tableAt g tScale c.scale with
     | some t =>
       let l := s.dramRd (t + 5) 1
       128 * c.dimMax 1 ≤ s.dramRd (t + 2) 2 && c.hasLevel l && (l = 0 || c.maxBounds.getD (l - 1) 1 ≤ s.dramRd (t + 4) 1)
     | none => false)

/-! ## Step 16 -/

/-- A byte range that an operand may reach, where the loader knows it: an internal range, or one of a context's basin share
(R140). `scratch` is where the context's DRAM scratch lies. -/
def opndRange16 (o : Opnd) (scratch bytes : Nat) : Bool × Nat × Nat :=
  if o.space = 1 then (true, o.base, bytes) else (false, (if o.space = 2 then scratch + o.base else o.base), bytes)

/-- Whether an input of a command overlaps an output where both are known at load (R140, R169). -/
def Cmd.overlapAtLoad (c : Cmd) (scratch : Nat) : Bool :=
  let w := (c.window.map (·.inW)).getD 0
  let h := (c.window.map (·.inH)).getD 0
  let stripe := match c.window with
    | some x => x.stripe
    | none => false
  let ins := c.opnds.filter (fun o => !o.isOut && !o.indirect)
  let outs := c.opnds.filter (·.isOut)
  ins.any (fun a => outs.any (fun b =>
    let x := opndRange16 a scratch (extentBytes (c.inFootprint a c.maxBounds w h) (inUnit a.role))
    let y := opndRange16 b scratch (extentBytes (c.outFootprint b c.maxBounds w h) (c.writeUnit b))
    !(stripe && a.role = 0 && b.role = 8) && !(c.emptyMax) && x.1 == y.1 && rangesMeet x.2.1 x.2.2 y.2.1 y.2.2))

/-! ## Step 20 -/

/-- A command as if issued at its declared maxima. -/
def Cmd.maxRun (c : Cmd) : Run :=
  { cmd := c
    run := { cmd := c.index, issue := 0, gen := 0, bounds := c.maxBounds, w := (c.window.map (·.inW)).getD 0
             h := (c.window.map (·.inH)).getD 0, recs := [], killed := false, spent := [] }
    step := { cluster := 0, items := [], cmd := c.index, startNs := 0, kept := [], delayed := false }
    cluster := 0, accTiles := 0 }

/-- The line offset of a role at its largest, over the operand-store levels that enclose a trigger (R141). -/
def Cmd.lineReach (c : Cmd) (role trigger : Nat) : Nat :=
  match c.opnd role with
  | none => 0
  | some o => (((indexed c.levels).take (enclosing trigger)).map (fun x =>
      if x.2.kind = 2 ∧ role ≤ 3 then (x.2.maxBound - 1) * (o.stride.getD x.1 0).toNat else 0)).foldl (· + ·) 0

/-- Planes of a window load at the position that needs most (R165). -/
def Cmd.loadPlanes (c : Cmd) (pc role : Nat) : Nat :=
  match c.window with
  | some w =>
    ((c.maxFires.filter (fun f => f.1 = pc)).map (fun f =>
      (if role = 2 then c.maxRun.planes w f.2 32 1
       else c.maxRun.planes w f.2 (elemsPerSlot c.colFmt) (planesOf c.colFmt)).2)).foldl max 0
  | none => 1

/-- The lines of the largest block that window LOADs of operand 0 write: a STREAM with col_mode 1 reads from its column line
as far (R99, R165; log 88). -/
def Cmd.windowLines (c : Cmd) : Nat :=
  ((indexed c.prog).map (fun x =>
    if x.2.opcode = 1 ∧ field x.2.bits 16 4 = 0 ∧ field x.2.bits 61 3 = 7 then
      c.loadPlanes x.1 0 * ((field x.2.bits 34 14 + 1) * (field x.2.bits 48 13 + 1))
    else 0)).foldl max 0

/-- One more than the highest line that an instruction touches (R141); `pc` is its place. -/
def Cmd.linesOf (c : Cmd) (pc : Nat) (o : Op) : Nat :=
  let b := o.bits
  let k := Cmd.accBound c.maxBounds
  match o.opcode with
  | 1 =>
    let role := field b 16 4
    let n := (field b 34 14 + 1) * (field b 48 13 + 1)
    if role = 4 then 0
    else field b 21 13 + c.lineReach role o.trigger + (if field b 61 3 = 7 then c.loadPlanes pc role * n else n)
  | 4 =>
    let n := streamCount o c.colFmt c.rowFmt k
    let diag := if bitAt b 107 then 7 * field b 108 12 else 0
    let col := field b 44 13 + c.lineReach 0 o.trigger +
      (if bitAt b 42 && c.window.isSome then c.windowLines - 1
       else (n - 1) * field b 57 12 + (planesOf c.colFmt - 1) * field b 69 12) + diag + 1
    let row := field b 82 13 + c.lineReach 1 o.trigger + (n - 1) * field b 95 12 + 1
    max col row
  | 7 =>
    let n := ceilDiv k 32 - 1
    max (if bitAt c.flags 0 then field b 17 13 + c.lineReach 2 o.trigger + n * field b 44 12 + 1 else 0)
      (if bitAt c.flags 1 then field b 31 13 + c.lineReach 3 o.trigger + n * field b 56 12 + 1 else 0)
  | _ => 0

/-- Round up to a multiple. -/
def upTo (m n : Nat) : Nat := ceilDiv n m * m

/-- KiB of operand store that a command needs (R141). -/
def Cmd.storeKib (c : Cmd) : Nat :=
  upTo 64 (ceilDiv (((indexed c.prog).map (fun x => c.linesOf x.1 x.2)).foldl max 0 * 128) 1024)

/-- One more than the highest byte offset that operands of a space reach. -/
def Cmd.spaceReach (c : Cmd) (space : Nat) : Nat :=
  let w := (c.window.map (·.inW)).getD 0
  let h := (c.window.map (·.inH)).getD 0
  ((c.opnds.filter (fun o => o.space = space && !o.indirect)).map (fun o =>
    max (if o.isOut then (if c.emptyMax then 0 else o.base + extentBytes (c.outFootprint o c.maxBounds w h) (c.writeUnit o))
         else o.base + extentBytes (c.inFootprint o c.maxBounds w h) (inUnit o.role))
      (if o.bases then o.baseArray + 2 * c.tileCount c.maxBounds else 0))).foldl max 0

/-- KiB of basin that a command needs: operands, work-counter records of `n` clusters, and the row-ready block (R141, R142,
R170). -/
def Cmd.basinKibNeed (c : Cmd) (n : Nat) : Nat :=
  let recs := if c.shard then ceilDiv (c.maxBounds.headD 1) (max 1 n) else 1
  let rr := match c.window with
    | some w => if c.rrOff = 0xFFFFFFFF then 0 else c.rrOff + 4 * ((if w.stripe then c.maxBounds.headD 1 else 1) * w.rrWords)
    | none => 0
  upTo 64 (ceilDiv (max (c.spaceReach 1) (max (c.counterOff + 64 * recs) rr)) 1024)

/-- Accumulator tiles that a command needs, doubled under alternation. -/
def Cmd.accNeed (c : Cmd) : Nat := if c.alternates then 2 * c.tilesNeeded else c.tilesNeeded

/-- The needs of a command in the order of Table 5.4. -/
def Cmd.needs (c : Cmd) (clusters : Nat) : List Nat :=
  [c.accNeed, c.storeKib, c.basinKibNeed clusters, ceilDiv (c.spaceReach 2) 0x100000]

/-- The largest of each need over commands. -/
def maxNeeds (clusters : Nat) : List Cmd → List Nat
  | [] => [0, 0, 0, 0]
  | c :: cs => (c.needs clusters).zipWith max (maxNeeds clusters cs)

end Sys2Proof.Machine
end

