-- ==== Sys2Proof/Machine/TrackCmds.lean ====
section
/-! DEFINITION. The track engine's commands (R247 to R277) and the head exports of copy contexts (R278, R310, R311). -/

set_option Elab.async false

namespace Sys2Proof.Machine

/-! ## A track command at work -/

/-- A track command in progress: the state, the highest status and the frame-end flags reported so far, the events, the
rill's live tracks by ascending number, and the numbers of those among them whose record is freed for poison (R259). -/
structure TrkWork where
  s : State
  status : W16
  flags : Nat
  events : List TrkEvent
  live : List Track
  broken : List Nat
  deriving DecidableEq, Repr

/-- The frame reports a status (R277) and sets frame-end flags. -/
def TrkWork.report (w : TrkWork) (st : W16) (bits : List Nat) : TrkWork :=
  { w with
    status := if w.status.toNat < st.toNat then st else w.status
    flags := bits.foldl (fun v i => natBit v i true) w.flags }

/-- The frame reports what each head that it cannot read gives (R250, R277). -/
def TrkWork.reports (w : TrkWork) : List W16 → TrkWork
  | [] => w
  | st :: l => TrkWork.reports (w.report st [4, 9]) l

/-- The frame-end flags that a frame's flow has gathered (Table 10.13). -/
def Flow.flags (f : Flow) : Nat :=
  bitsOf 10 (fun i => (i = 0 && f.concealed) || (i = 1 && f.abandoned) || (i = 2 && f.substituted) || (i = 3 && f.fallback) ||
    (i = 4 && f.headSkipped) || (i = 7 && f.embLost) || (i = 9 && f.errorSeen))

/-- Read the rill's records (R257, R259). A track whose first block reads poisoned ends at once with reason 3; one whose
embedding alone does still takes part in association, and ends after it (log 98). -/
def TrkWork.fetch (w : TrkWork) : List TrackRef → TrkWork
  | [] => w
  | k :: ks =>
    let f := w.s.fetchTrack k
    let bad (w : TrkWork) : TrkWork := w.report Status.trackPoisoned [9]
    TrkWork.fetch
      (match f.2 with
       | .whole t => { w with s := f.1, live := w.live ++ [t] }
       | .half t => bad { w with s := f.1, live := w.live ++ [t], broken := t.id :: w.broken }
       | .lost => bad { w with s := f.1, events := w.events ++ [k.poisoned 0 (0, 0)] }
       | .free => { w with s := f.1 }) ks

/-- A live track's end for a cause outside the frame; reason 3 where its record is freed for poison. -/
def TrkWork.endOf (w : TrkWork) (t : Track) (reason : Nat) : TrkEvent :=
  if w.broken.contains t.id then TrackRef.poisoned { rill := t.rill, id := t.id, store := t.store } 0 (0, 0) else t.ended reason

/-- The first frame after a discontinuity ends every track (R265). -/
def TrkWork.discontinue (w : TrkWork) (r f : Nat) : TrkWork :=
  let x := w.s.rillTrk r
  if x.discs.any (fun d => decide (d ≤ f)) then
    { w with
      s := w.s.setRillTrk r { x with discs := x.discs.filter (fun d => decide (f < d)) }
      events := w.events ++ w.live.map (fun t => w.endOf t 1), live := [] }
  else w

/-- Whether the version of a segment in service holds the rule sets of its track contexts: a section of type 0x000D (R43, R265). -/
def SegRun.bringsRules (g : SegRun) : Bool := g.placed.any (fun p => p.type = 13)

/-- The first frame under a new segment that replaces the rule set clears what names zones and lines (R265). -/
def TrkWork.newRules (w : TrkWork) (ctx r : Nat) (old : Bool) : TrkWork :=
  match w.s.segRun ctx with
  | none => w
  | some g =>
    let x := w.s.rillTrk r
    if old ∨ !g.bringsRules ∨ x.rulesSeen = g.epoch + 1 then w
    else
      { w with
        s := w.s.setRillTrk r { x with rulesSeen := g.epoch + 1 }
        live := w.live.map (fun t => { t with inside := 0, dwellFired := 0, lineSide := 0, lineValid := 0 }) }

/-- Whether an embedding is due before association of frame `f` (R267). -/
def RuleSet.due (rs : RuleSet) (r f : Nat) (e : EmbReq) : Bool := e.rill = r && decide (e.frame + rs.reidLag ≤ f)

/-- Apply the embeddings that are due, in the order requested (R267). A lost one is reported. -/
def TrkWork.embed (w : TrkWork) : List EmbReq → TrkWork
  | [] => w
  | e :: es =>
    TrkWork.embed
      (match e.data with
       | some b => { w with live := updWhere (fun t : Track => t.id = e.track) (fun t => { t with embValid := true, emb := b }) w.live }
       | none => w.report e.status (if e.error then [7, 9] else [7])) es

/-- The least record of the store that no track occupies (R258). -/
def State.freeStore (s : State) : Option Nat :=
  let used := s.trk.tracks.map (·.store)
  (List.range (min 1048576 (used.length + 1))).find? (fun i => !used.contains i)

/-- A new track takes the rill's next number (R258) and a record of the store (log 67). -/
def State.newTrack (s : State) (r f store : Nat) (d : Cand) (confirm : Bool) : State × Track :=
  let x := s.rillTrk r
  let t0 := Track.startOf r x.nextId store f d
  let t := if confirm then { t0 with st := .confirmed, fConfirm := f % 2 ^ 32 } else t0
  let hit := s.trk.cache.any (fun c => c.1 = store)
  let s1 := ((s.setRillTrk r { x with nextId := if x.nextId = 0xFFFFFFFF then 1 else x.nextId + 1 }).addTo
    (if hit then .TRK_CNT_HIT else .TRK_CNT_MISS) 0 1).cachePut store t.bytes
  let ts := s1.trk.tracks ++ [{ rill := r, id := t.id, store := store }]
  ({ s1 with trk := { s1.trk with tracks := ts, storePeak := max s1.trk.storePeak ts.length } }, t)

/-- A start event (Table 10.12, code 1). -/
def Track.started (t : Track) : TrkEvent :=
  { track := t.id, order := 0, code := 1, cls := t.cls, rule := 0, x := t.cx, y := t.cy, value := 0 }

/-- The unmatched detections start tracks, in ascending detection index (R263, R258); `n` counts the rill's live tracks. What
starts is given with its detection index. -/
def TrkWork.start (w : TrkWork) (rs : RuleSet) (r f : Nat) : Nat → List (Nat × Cand) → List (Nat × Track) →
    TrkWork × List (Nat × Track)
  | _, [], acc => (w, acc)
  | n, (i, d) :: ds, acc =>
    let x := w.s.rillTrk r
    if rs.maxTracks ≤ n then
      TrkWork.start
        ({ w with s := w.s.setRillTrk r { x with maxRefused := bump x.maxRefused } }.report Status.maxTracks [8]) rs r f n ds acc
    else
      match w.s.freeStore with
      | none =>
        let s1 := ((w.s.setRillTrk r { x with storeFull := bump x.storeFull }).count .TRK_CNT_STOREFULL 0).elog
          Status.trackStoreFull unitTrk 0 noCtx noFn 0
        TrkWork.start (TrkWork.report { w with s := s1 } Status.trackStoreFull [8, 9]) rs r f n ds acc
      | some k =>
        let p := w.s.newTrack r f k d (rs.confirmHits = 1)
        let w1 := { w with s := p.1, events := if rs.confirmHits = 1 then w.events ++ [p.2.started] else w.events }
        TrkWork.start w1 rs r f (n + 1) ds (acc ++ [(i, p.2)])

/-- The lifecycle of a track that was live before the frame (Table 10.8): the track, where it stays, and its events. `upd`
is the track as its match updated it. -/
def Track.lifecycle (t : Track) (rs : RuleSet) (f : Nat) (upd : Option Track) : Option Track × List TrkEvent :=
  match upd, t.st with
  | some u, .tentative =>
    if rs.confirmHits ≤ u.hits then
      let c := { u with st := .confirmed, fConfirm := f % 2 ^ 32 }
      (some c, [c.started])
    else (some u, [])
  | some u, _ => (some { u with st := .confirmed, misses := 0 }, [])
  | none, .tentative => (none, [])
  | none, .confirmed => (some { t with st := .lost, misses := 1 }, [])
  | none, .lost =>
    if rs.maxLost < t.misses + 1 then (none, [t.ended 0]) else (some { t with misses := t.misses + 1 }, [])

/-- A live track after the frame: itself, its record before, and the index of the detection that it matched. -/
structure After where
  now : Track
  prev : Option Track
  det : Option Nat
  deriving DecidableEq, Repr

/-- The end of a track whose record is freed for poison: with the detection that it matched (R259). -/
def TrkWork.brokenEnd (w : TrkWork) (t : Track) (det : Option Cand) : TrkEvent :=
  match det with
  | some d =>
    TrackRef.poisoned { rill := t.rill, id := t.id, store := t.store } d.cls
      ((d.box.x0 + d.box.x1).tdiv 2, (d.box.y0 + d.box.y1).tdiv 2)
  | none => w.endOf t 3

/-- Lifecycle over the tracks that were live before the frame. -/
def TrkWork.lifecycles (w : TrkWork) (rs : RuleSet) (f : Nat) (dets : List Cand) (m : List (Nat × Nat)) :
    List Track → List After → TrkWork × List After
  | [], acc => (w, acc)
  | t :: ts, acc =>
    let k := (m.find? (fun x => x.2 = t.id)).map (·.1)
    let upd := (k.bind (fun i => dets[i]?)).map (fun d => t.update rs f d)
    let r := if w.broken.contains t.id then (none, [w.brokenEnd t (k.bind (fun i => dets[i]?))]) else t.lifecycle rs f upd
    TrkWork.lifecycles { w with events := w.events ++ r.2 } rs f dets m ts
      (match r.1 with
       | some n => acc ++ [{ now := n, prev := some t, det := k }]
       | none => acc)

/-- The rule unit over the confirmed and matched tracks (R270). -/
def TrkWork.ruleUnit (w : TrkWork) (f : Nat) (set : List Zone × List Line) : List After → List After → TrkWork × List After
  | [], acc => (w, acc)
  | a :: as, acc =>
    if a.now.st = .confirmed ∧ a.det.isSome then
      let r := a.now.rules a.prev f set
      TrkWork.ruleUnit { w with events := w.events ++ r.2 } f set as (acc ++ [{ a with now := r.1 }])
    else TrkWork.ruleUnit w f set as (acc ++ [a])

/-- Whether a track's crop is due (R266). -/
def After.cropDue (a : After) (rs : RuleSet) (f : Nat) : Bool :=
  rs.reidInterval != 0 && a.now.st == .confirmed && a.det.isSome &&
    (f % 2 ^ 32 + 2 ^ 32 - a.now.fConfirm) % 2 ^ 32 % rs.reidInterval == 0

/-- Request crops (R266): each takes an embedding-queue entry. -/
def TrkWork.crops (w : TrkWork) (rs : RuleSet) (r f : Nat) : List After → TrkWork
  | [] => w
  | a :: as =>
    let t := a.now
    TrkWork.crops
      (if 8192 ≤ w.s.trk.embq.length then
        TrkWork.report { w with s := w.s.count .TRK_CNT_EMBQFULL 0 } Status.embQueueFull [9]
       else
        let c : CropReq :=
          { pixelCtx := rs.cropCtx, target := rs.embCtx, rill := r, frame := f, track := t.id, x := t.x0 / 256, y := t.y0 / 256
            w := ceilDiv t.w.toNat 256, h := ceilDiv t.h.toNat 256 }
        let e : EmbReq := { rill := r, track := t.id, frame := f, data := none, lost := false, status := 0, error := false }
        { w with s := { w.s with trk := { w.s.trk with crops := w.s.trk.crops ++ [c], embq := w.s.trk.embq ++ [e] } } }) rs r f as

/-- The track number that a detection record gives (Table 10.12): of the confirmed or lost track that it matched, or that it
confirmed. -/
def detTrack (as : List After) (i : Nat) : Nat :=
  match as.find? (fun a => a.det == some i && a.now.st != .tentative) with
  | some a => a.now.id
  | none => 0

/-- Records in the order of R275, but for the health and frame-end records. -/
def frameRecords (rs : RuleSet) (dets : List Cand) (as : List After) (evs : List TrkEvent) : List (Nat × Nat × List Byte) :=
  let shown (d : Nat × Cand) : Bool := match rs.classes[d.2.cls]? with
    | some c => c.records
    | none => false
  let ds := if bitAt rs.flags 0 then (indexed dets).filter shown else []
  let es := sortBy (fun a b : TrkEvent => lexLe [a.track, a.order] [b.track, b.order]) evs
  let ts := if bitAt rs.flags 1 then (as.map (·.now)).filter (fun t => t.st != .tentative) else []
  ds.map (fun d => (1, 0, detBody d.1 (detTrack as d.1) d.2)) ++ es.map (fun e => (3, 0, e.bytes)) ++
    ts.map (fun t => (2, 0, t.body))

/-- Every record of the frame (R275, R277). -/
def TrkWork.records (w : TrkWork) (rs : RuleSet) (x : RillTrk) (f det cands : Nat) (dets : List Cand) (as : List After) :
    List (Nat × Nat × List Byte) :=
  let n (st : TrackSt) : Nat := (as.filter (fun a => a.now.st == st)).length
  let st := w.status.toNat
  let told := frameRecords rs dets as w.events
  let shown := (told.filter (fun r => r.1 = 2)).length
  told ++ (if (rs.health ≠ 0 ∧ f % rs.health = 0) ∨ st ≠ 0 then
      [(4, st, healthBody (n .confirmed) (n .tentative) (n .lost) x)] else []) ++
    [(5, st, frameEndBody dets.length shown w.events.length w.flags det cands)]

/-- The tracks of a rill are replaced by those that stay; the records of the others are freed. -/
def State.setTracks (s : State) (r : Nat) (ts : List Track) : State :=
  let gone := (s.rillTracks r).filter (fun k => !ts.any (fun t => t.id = k.id))
  let s1 := s.freeRecords gone
  { s1 with trk := { s1.trk with tracks := s1.trk.tracks.filter (fun k => !gone.contains k) } }

/-- The first frame of an attachment: the rill's numbering and counts start afresh, and tracks that frames of the attachment
before it started after its detach had drained are freed (R203, R204, R258; log 96). -/
def State.startAttachment (s : State) (r f : Nat) : State :=
  let x := s.rillTrk r
  match x.lastFrame with
  | some l =>
    if l / 2 ^ 64 = f / 2 ^ 64 then s
    else (s.freeTracks r).setRillTrk r { RillTrk.reset with running := x.running, rulesSeen := x.rulesSeen, discs := x.discs }
  | none => s

/-- A track command's work on a frame (R254 to R275). -/
def State.trackFrame (s : State) (ctx : Nat) (rs : RuleSet) (old : Bool) (fl : Flow) (hdr : SeqHdr) : State :=
  let r := fl.rill
  let f := fl.frame % 2 ^ 64
  let s := s.startAttachment r fl.frame
  let h := s.readHeads rs fl.heads
  let w0 : TrkWork := { s := h.1, status := fl.status, flags := fl.flags, events := [], live := [], broken := [] }
  let w1 := w0.reports h.2.2
  let cands := s.frameCands rs hdr.cropW hdr.cropH h.2.1
  let capped := decide (rs.maxCand < cands.length)
  let w2 := if capped then w1.report Status.maxCand [5] else w1
  let kept := nms rs (cands.take rs.maxCand) []
  let w3 := if kept.2 then w2.report Status.maxDet [6] else w2
  let dets := kept.1
  let w4 := (((TrkWork.fetch { w3 with s := w3.s.addTo .TRK_CNT_DET 0 dets.length } (s.rillTracks r)).discontinue r fl.frame).newRules
    ctx r old).embed (s.trk.embq.filter (rs.due r fl.frame))
  let q := w4.s.trk.embq.filter (fun e => !rs.due r fl.frame e)
  let m := greedy (pairsOf rs f dets w4.live) []
  let free := (indexed dets).filter (fun d => !m.any (fun x => x.1 = d.1) && rs.tracks d.2.cls &&
    (match rs.classes[d.2.cls]? with
     | some c => decide (c.startThr ≤ d.2.score)
     | none => false))
  let s5 := { w4.s with trk := { w4.s.trk with embq := q } }
  let stay := w4.live.filter (fun t => !w4.broken.contains t.id)
  let p := TrkWork.start { w4 with s := s5.setTracks r stay } rs r f stay.length free []
  let p1 := p.1.lifecycles rs f dets m w4.live []
  let new := p.2.map (fun x : Nat × Track => ({ now := x.2, prev := none, det := some x.1 } : After))
  let p2 := p1.1.ruleUnit f (s.zoneSet rs r) (sortBy (fun a b : After => decide (a.now.id ≤ b.now.id)) (p1.2 ++ new)) []
  let w6 := p2.1.crops rs r fl.frame ((p2.2.filter (fun a => a.cropDue rs f)).take rs.reidPerFrame)
  let ts := p2.2.map (·.now)
  let x := w6.s.rillTrk r
  let x1 := { x with cappedFrames := if capped || kept.2 then bump x.cappedFrames else x.cappedFrames, lastFrame := some fl.frame }
  let s7 := ((w6.s.setTracks r ts).setRillTrk r x1).putTracks ts
  let det := match fl.heads, rs.heads with
    | h :: _, _ => h.1
    | [], h :: _ => h.ctx
    | [], [] => noCtx
  s7.metaRecords { fn := fl.fn, rill := r, tag := fl.tag, ts := fl.captureTs, index := f }
    (w6.records rs x1 f det cands.length dets p2.2)

/-! ## TRACK_COMMAND -/

/-- Whether the track engine can reach the head items of a frame and the track store (R335). -/
def State.trackReach (s : State) (rs : RuleSet) (fl : Flow) : Bool :=
  s.canReach s.storeBase (128 * 1048576) && s.reach (fl.heads.flatMap (s.itemRanges rs))

/-- TRACK_COMMAND (R247 to R277, R282): one frame of one rill, once its head items, the embeddings due and the previous
frame's command are done, on a lane that it is the context's turn to have. Its records are written here; it commits at
TRACK_COMMAND_COMMIT. -/
def execTrackCommand (ctx rill frame : Nat) (s : State) : Out :=
  .next (match s.flow rill frame, s.ctxEntry ctx with
    | some fl, some e =>
      let old := s.oldFor ctx fl.captureTs fl.stamp
      (match s.rulesOf ctx old with
       | none => s
       | some rs =>
         s.when (e.kind = 3 && s.domainLive .track && !s.coolantHeld && s.flowReady e fl && s.trackReach rs fl) (fun s =>
           match s.laneTurn e with
           | none => s
           | some (k, s0) =>
             let hdr := match s.frame rill frame with
               | some f => f.hdr
               | none => noHdr
             let s1 := s0.trackFrame ctx rs old fl hdr
             s1.setRillTrk rill { s1.rillTrk rill with running := some (ctx, frame, k) }))
    | _, _ => s)

/-- A context has done its command for a frame: the flow no longer waits for it. -/
def State.flowDone (s : State) (ctx rill frame : Nat) : State :=
  State.settle (s.updFlow rill frame (fun x => { x with ctxs := x.ctxs.filter (fun c => c != ctx) }))

/-- TRACK_COMMAND_COMMIT (R247, R302): the rill's next frame may follow. -/
def execTrackCommandCommit (rill : Nat) (s : State) : Out :=
  .next (match (s.rillTrk rill).running with
    | none => s
    | some (ctx, frame, lane) =>
      s.when (!s.coolantHeld) (fun s =>
        let s1 := s.addTo .TRK_CNT_FRAMES 0 1
        (((s1.setRillTrk rill { s1.rillTrk rill with running := none }).flowDone ctx rill frame).laneCommit ctx lane).schedule))

/-! ## HEAD_EXPORT -/

/-- The op-1 commands of a copy context. -/
def State.exportCmds (s : State) (ctx : Nat) (old : Bool) : List CopyCmd :=
  ((s.copyCmds ctx old).filter (fun c => c.2.op = 1)).map (·.2)

/-- Copy the items into a buffer, each at a multiple of 64 bytes; lengths are multiples of 64 (R278, R309). -/
def State.copyHeads (s : State) (dst len : Nat) : List Nat → State
  | [] => s
  | a :: as => State.copyHeads (s.memPut portSluice dst (s.memGet a len)) (dst + len) len as

/-- The committed head items of a frame that a command exports, in region descriptor order. -/
def Flow.exported (fl : Flow) (c : CopyCmd) : List (Nat × Nat × Nat × Item) :=
  sortBy (fun a b : Nat × Nat × Nat × Item => decide (a.2.2.2.region ≤ b.2.2.2.region)) (fl.heads.filter (fun h => h.1 = c.source))

/-- What it reads of them, as (address, length). -/
def Flow.exportRanges (fl : Flow) (c : CopyCmd) : List (Nat × Nat) := (fl.exported c).map (fun h => (h.2.2.1, c.length))

/-- One head export (R278, R310, R311). Poison in an item leaves nothing exported (R328); a buffer at an address that names
no memory faults the command (R30). -/
def State.export1 (s : State) (ctx : Nat) (fl : Flow) (c : CopyCmd) : State :=
  let heads := fl.exported c
  if heads = [] then s
  else if s.poolSize c.pool < heads.length * c.length then s.count .SLUICE_CNT_EXPORTLOST 0
  else
    match s.reads portSluice (fl.exportRanges c) with
    | (some _, s0) => s0
    | (none, s0) =>
      match s0.alloc c.pool with
      | (none, s1) => s1.count .SLUICE_CNT_EXPORTLOST 0
      | (some h, s1) =>
        match rangeStatus s.dev.part h.addr (heads.length * c.length) with
        | some st => (s1.release h (s.ctxFn ctx)).noteFault ctx st
        | none =>
          (s1.copyHeads h.addr c.length (heads.map (fun x => x.2.2.1))).metaRecord
            { fn := fl.fn, rill := fl.rill, tag := fl.tag, ts := fl.captureTs, index := fl.frame } 6 0
            (leBytes 8 h.addr ++ leBytes 4 (heads.length * c.length) ++ leBytes 1 heads.length ++ leBytes 1 c.pool
              ++ leBytes 2 c.source ++ leBytes 16 0)

def State.exportAll (s : State) (ctx : Nat) (fl : Flow) : List CopyCmd → State
  | [] => s
  | c :: cs => State.exportAll (s.export1 ctx fl c) ctx fl cs

/-- Whether the copy engine can reach what the exports of a frame touch (R335, R348). -/
def State.exportReach (s : State) (fl : Flow) (cs : List CopyCmd) : Bool :=
  cs.all (fun c => s.reach (fl.exportRanges c) && s.canAlloc c.pool && s.poolReach c.pool)

/-- HEAD_EXPORT (R278, R282, R310): a copy context, when its turn on a copy lane comes, exports the committed head items of a
frame. -/
def execHeadExport (ctx rill frame : Nat) (s : State) : Out :=
  .next (match s.flow rill frame, s.ctxEntry ctx with
    | some fl, some e =>
      let cs := s.exportCmds ctx (s.oldFor ctx fl.captureTs fl.stamp)
      s.when (e.kind = 4 && s.flowReady e fl && !s.coolantHeld && s.clocked && s.exportReach fl cs) (fun s =>
        match s.copyTurn e with
        | none => s
        | some (k, s0) => (((s0.exportAll ctx fl cs).flowDone ctx rill frame).laneCommit ctx k).schedule)
    | _, _ => s)

end Sys2Proof.Machine
end

