-- ==== Sys2Proof/Machine/LoadRes.lean ====
section
/-! DEFINITION. The image loader: references, bindings, regions, envelopes and capacities (steps 10 and 12 to 25 of Table
2.16: R44 to R51, R62, R209, R233, R249, R251, R293, R309, R312, R313, R321, R340, R473). -/

set_option Elab.async false

namespace Sys2Proof.Machine

/-! ## Step 11: every section -/

/-- The starts of a payload's items with the number of earlier command records of the same context. -/
def State.itemsNumbered (s : State) (g : Stage) (d : DirEnt) : List (Nat × Nat) :=
  (s.items d.type (g.at d) d.len).map (fun a =>
    let same := fun (x : Nat × Nat × Nat) =>
      s.dramRd x.2.2 2 = s.dramRd (g.at d + a) 2 ∧ (x.1 < d.idx ∨ (x.1 = d.idx ∧ x.2.1 < a))
    (a, if d.type = tCommands then ((s.allRecs g).filter (fun x => same x)).length else 0))

/-- Whether an item of a placed section lies in the ranges of its tables. -/
def State.itemRange (s : State) (g : Stage) (i : Image) (t a n : Nat) : Bool :=
  match t with
  | 8 => s.recordRange g i a n
  | 10 => s.codebookRange a
  | 11 => s.scaleRange a
  | 12 => s.scalerRange a
  | 13 => s.rulesRange g i a
  | _ => true

/-- Step 11 for one section. -/
def State.sectionRange (s : State) (g : Stage) (i : Image) (d : DirEnt) : Option LoadErr :=
  if d.note then none
  else
    firstErr
      [ must (d.load < 2 ^ 48 && (d.placed || d.load = 0)) (loadErr Status.fieldRange d.idx 0),
        (if d.type = tPartition then s.partitionRange g d i
         else if (entrySize d.type).isSome then s.entriesRange g d
         else if hasItems d.type then
           eachOf (s.itemsNumbered g d) (fun x =>
             must (s.itemFits d.type (g.at d) d.len x.1 && s.itemRange g i d.type (g.at d + x.1) x.2)
               (loadErr Status.fieldRange d.idx x.1))
         else none) ]

/-- The command records that a staged image leaves the device with, by DRAM address: its own, and for a swap those of the
sections that stay. -/
def State.availRecs (s : State) (g : Stage) : List Nat :=
  (s.avail g tCommands).flatMap (fun v =>
    ((s.items tCommands v.at_ v.len).filter (s.itemFits tCommands v.at_ v.len)).map (fun a => v.at_ + a))

/-- Whether a context is one of those that a staged image binds: any of a base, those of its segment for a swap (R50). -/
def Image.concerns (i : Image) (g : Stage) (c : Nat) : Bool :=
  !g.swap || (i.segs.find? (fun x => x.id = g.segOf)).any (fun x => x.ctxs.contains c)

/-- A track context has exactly one command record (R248), after a swap too (log 47). -/
def State.tracksHaveRecords (s : State) (g : Stage) (i : Image) : Option LoadErr :=
  eachOf (i.ctxs.filter (fun e => e.kind = 3 && i.concerns g e.id)) (fun e =>
    must (((s.availRecs g).filter (fun a => s.dramRd a 2 = e.id)).length = 1)
      (loadErr Status.fieldRange (g.indexOf tContext) e.entry))

/-- Step 11 of Table 2.16. -/
def State.checkRanges (s : State) (g : Stage) (i : Image) : Option LoadErr :=
  firstErr [eachOf g.dir (s.sectionRange g i), s.tracksHaveRecords g i]

/-! ## Step 10 -/

/-- required_units lies within GLB_CAP_UNITS. -/
def State.checkUnits (s : State) (g : Stage) : Option LoadErr :=
  let r := BitVec.ofNat 64 (s.hdrRd g.addr 0x10 8)
  must (r &&& capUnits s.dev.part == r) (loadErr Status.unitsAbsent noSec 0)

/-! ## Step 12: references -/

/-- The scaler programs of a staged image as (section, offset, DRAM address), and for a swap the contexts of those of the
base that stay. -/
def State.stagedProgs (s : State) (g : Stage) : List (Nat × Nat × Nat) := s.allTables g tScaler

/-- The contexts whose scaler program a swap leaves in place. -/
def State.keptProgs (s : State) (g : Stage) : List Nat :=
  if g.swap then
    ((s.avail g tScaler).filter (fun v => v.sec = noSec)).flatMap (fun v =>
      (s.programsIn (v.at_ + v.len) (v.len / 64) v.at_).map (fun a => s.dramRd a 2))
  else []

/-- Whether a pixel context has a program. -/
def State.hasProgram (s : State) (g : Stage) (ctx : Nat) : Bool :=
  (s.stagedProgs g).any (fun p => s.dramRd p.2.2 2 = ctx) || (s.keptProgs g).contains ctx

/-- The references of entry `n` at `a` of a consumed section (Tables 2.8 to 2.13). -/
def State.entryRefs (s : State) (g : Stage) (i : Image) (t a n : Nat) : Bool :=
  let known (c : Nat) : Bool := (i.ctx c).isSome
  let pool (p : Nat) : Bool := i.pools.any (fun x => x.id = p)
  match t with
  | 2 =>
    let e := s.readCtxEnt a n
    (e.cmdSection = 0xFFFF || g.dir.any (fun d => d.idx = e.cmdSection && d.type = tCommands)) &&
      (e.fallback = 0xFFFF || e.fallback < i.fbs.length) && e.succ.all (fun c => c = 0xFFFF || known c) &&
      (e.kind != 1 || s.hasProgram g e.id)
  | 3 => known (s.readClassEnt a).firstCtx
  | 4 =>
    let b := s.readBindEnt a
    i.classes.any (fun k => k.id = b.cls) && pool b.auPool && pool b.framePool
  | 5 =>
    (match i.regions[(s.readPoolEnt a).region]? with
     | some r => r.kind = 0
     | none => false)
  | 6 =>
    let e := s.readSegEnt a
    e.regionA < i.regions.length && e.regionB < i.regions.length && e.ctxs.all known
  | 7 => known (s.dramRd a 2) && known (s.dramRd (a + 2) 2)
  | _ => true

/-- Whether a context is of a kind and names a successor. -/
def Image.feeds (i : Image) (c kind succ : Nat) : Bool :=
  match i.ctx c with
  | some e => e.kind = kind && e.succ.contains succ
  | none => false

/-- The references of a command record at `a` (R52, R85, R181, R248, R309). -/
def State.recordRefs (s : State) (g : Stage) (i : Image) (a : Nat) : Bool :=
  let rd := s.rdAt a
  (i.ctx (rd 0 2)).isSome &&
    (match rd 0x10 1 with
     | 3 => (s.tableAt g tRules (rd 0x18 8)).isSome
     | 4 => rd 0x11 1 = 0 || (i.feeds (rd 0x28 2) 2 (rd 0 2) && i.pools.any (fun p => p.id = rd 0x12 1))
     | _ =>
       let c := readCmd rd
       s.codebookRef g c && s.scaleRef g c)

/-- The references of a region of a pixel context's program (R233). -/
def Image.regionRefs (i : Image) (ctx : Nat) (d : RegionDesc) : Bool :=
  i.feeds ctx 1 d.target &&
    (match i.ctx d.target with
     | some t =>
       t.kind = 2 &&
         (if d.dest = 0 then
           (match i.pools.find? (fun p => p.id = d.pool) with
            | some p => d.planes * d.planePitch ≤ p.size
            | none => false)
          else d.basinOff + d.slotCount * d.slotPitch ≤ t.basinKib * 1024)
     | none => false)

/-- The references of a scaler program at `a`, item `off` of section `sec` (R233). -/
def State.progRefs (s : State) (g : Stage) (i : Image) (sec off a : Nat) : Bool :=
  let ctx := s.dramRd a 2
  let p := s.programAt a
  i.kindOf ctx == some 1 && !(s.keptProgs g).contains ctx &&
    !(s.stagedProgs g).any (fun x => (x.1 < sec || (x.1 = sec && x.2.1 < off)) && s.dramRd x.2.2 2 = ctx) &&
    (p.rois ++ p.crops).all (i.regionRefs ctx)

/-- The track contexts that name a rule set, by its placed address. -/
def State.setUsers (s : State) (g : Stage) (addr : Nat) : List Nat :=
  ((s.allRecs g).filter (fun r => s.dramRd (r.2.2 + 0x10) 1 = 3 && s.dramRd (r.2.2 + 0x18) 8 = addr)).map (fun r =>
    s.dramRd r.2.2 2)

/-- The bytes of scratch that a head descriptor reaches at a batch of `n` (R251). -/
def HeadDesc.extent (h : HeadDesc) (n classes : Nat) : Nat :=
  h.base + 2 * ((n - 1) * h.itemPitch + (h.anchors * (4 + h.obj + classes) - 1) * h.chanPitch + (h.gridH - 1) * h.rowPitch + h.gridW)

/-- Whether a pixel context holds a track-crop descriptor for a target, in the staged image or in what a swap leaves. -/
def State.cropsFor (s : State) (g : Stage) (ctx target : Nat) : Bool :=
  let all := (s.stagedProgs g).map (fun p => p.2.2) ++
    (if g.swap then (s.avail g tScaler).flatMap (fun v => s.programsIn (v.at_ + v.len) (v.len / 64) v.at_) else [])
  all.any (fun a => s.dramRd a 2 = ctx && (s.programAt a).crops.any (fun d => d.target = target))

/-- The references of a rule set at DRAM address `a`, placed at `addr` (R251). -/
def State.rulesRefs (s : State) (g : Stage) (i : Image) (addr a : Nat) : Bool :=
  let rs := s.ruleSet a
  let users := s.setUsers g addr
  rs.heads.all (fun h =>
    (match i.ctx h.ctx with
     | some e => e.kind = 2 && users.all (fun t => e.succ.contains t) && h.extent e.maxBatch rs.classes.length ≤ e.dramMib * 0x100000
     | none => false)) &&
    (rs.reidInterval = 0 ||
      (bitAt rs.flags 2 && i.kindOf rs.cropCtx == some 1 && s.cropsFor g rs.cropCtx rs.embCtx)) &&
    (rs.cropCtx = 0xFFFF || (i.ctx rs.cropCtx).isSome) &&
    (rs.embCtx = 0xFFFF || users.all (fun t => i.feeds rs.embCtx 2 t))

/-- Step 12 for one section. -/
def State.sectionRefs (s : State) (g : Stage) (i : Image) (d : DirEnt) : Option LoadErr :=
  let e (n : Nat) : LoadErr := loadErr Status.reference d.idx n
  let fit := (s.items d.type (g.at d) d.len).filter (s.itemFits d.type (g.at d) d.len)
  if d.note then none
  else
    firstErr
      [ must (d.seg = 0 || i.segs.any (fun x => x.id = d.seg)) (e 0),
        (if (entrySize d.type).isSome then eachOf (g.entries d) (fun x => must (s.entryRefs g i d.type x.2 x.1) (e x.1))
         else if d.type = tCommands then eachOf fit (fun a => must (s.recordRefs g i (g.at d + a)) (e a))
         else if d.type = tScaler then eachOf fit (fun a => must (s.progRefs g i d.idx a (g.at d + a)) (e a))
         else if d.type = tRules then eachOf fit (fun a => must (s.rulesRefs g i (d.load + a) (g.at d + a)) (e a))
         else none) ]

/-- The segment of a swap keeps a program for each of its pixel contexts. -/
def State.swapProgs (s : State) (g : Stage) (i : Image) : Option LoadErr :=
  if g.swap then
    eachOf (i.ctxs.filter (fun e => i.concerns g e.id)) (fun e =>
      must (e.kind != 1 || s.hasProgram g e.id) (loadErr Status.reference noSec e.entry))
  else none

/-- Step 12 of Table 2.16. -/
def State.checkRefs (s : State) (g : Stage) (i : Image) : Option LoadErr :=
  firstErr [eachOf g.dir (s.sectionRefs g i), s.swapProgs g i]

/-! ## Steps 13 to 15 -/

/-- Bits of a mask that present units cover. -/
def presentBits (n : Nat) (mask : Nat) (p : Nat → Bool) : List Nat := (List.range n).filter (fun k => bitAt mask k && p k)

/-- Step 13 for one section (R62). -/
def State.sectionUnits (s : State) (g : Stage) (i : Image) (d : DirEnt) : Option LoadErr :=
  let e (n : Nat) : LoadErr := loadErr Status.bindingAbsent d.idx n
  let p := s.dev.part
  match d.type with
  | 1 =>
    firstErr
      [ eachOf (indexed i.channelOwner) (fun x => must (x.2 = 0xFF || x.1 < groupCount p) (e (0x10 + x.1))),
        eachOf (indexed i.wayOwner) (fun x => must (x.2 = 0xFF || clusterPresent p (x.1 / 16)) (e (0x20 + x.1))) ]
  | 2 =>
    eachOf i.ctxs (fun c =>
      must (c.kind != 2 || (presentBits 4 c.clusterMask (clusterPresent p) != [] &&
        (!bitAt c.flags 3 || (List.range 4).all (fun n => !bitAt c.clusterMask n || clusterPresent p n)))) (e c.entry))
  | 4 => eachOf (g.entries d) (fun x => must (presentBits 16 (s.readBindEnt x.2).engineMask (decPresent p) != []) (e x.1))
  | 13 => must (trkPresent p) (e 0)
  | _ => none

/-- Step 13 of Table 2.16. -/
def State.checkUnits13 (s : State) (g : Stage) (i : Image) : Option LoadErr :=
  eachOf (g.dir.filter (fun d => !d.note)) (s.sectionUnits g i)

/-- Step 14: the Sluice firmware in service (subsystem 1) is at least min_firmware. -/
def State.checkFirmware (s : State) (g : Stage) : Option LoadErr :=
  must (s.hdrRd g.addr 0x38 4 ≤ (s.inService 1).version.toNat) (loadErr Status.minFirmware noSec 0)

/-- Step 15 of Table 2.16. -/
def State.checkPlaces (s : State) (g : Stage) (i : Image) : Option LoadErr :=
  let lim := dramSize s.dev.part
  eachOf g.dir (fun d =>
    if d.type = tPartition then
      eachOf (indexed i.regions) (fun x =>
        must (x.2.base + x.2.size ≤ lim) (loadErr Status.regionOutside d.idx (0x60 + 24 * x.1)))
    else must (!d.placed || d.load + d.len ≤ lim) (loadErr Status.regionOutside d.idx 0))

/-! ## Scratch (R473) -/

/-- A region of kind 5 while scratch is placed: the first byte after the last share, and the largest gap left below it. -/
structure ScratchRun where
  reg : Region
  next : Nat
  gap : Nat
  deriving DecidableEq, Repr

/-- Whether a region may hold a context's scratch. -/
def Region.admits (r : Region) (e : CtxEntry) : Bool := r.owner = 0xFFFF || r.owner = e.fn || r.owner = 0x40 + e.cls

/-- Where the next share of `n` bytes goes in a region, if it can hold it. -/
def ScratchRun.fit (r : ScratchRun) (n : Nat) : Option Nat :=
  let a := ceilDiv r.next 0x200000 * 0x200000
  if a + n ≤ r.reg.base + r.reg.size then some a else none

/-- The largest free range of a region. -/
def ScratchRun.free (r : ScratchRun) : Nat := max r.gap (r.reg.base + r.reg.size - r.next)

/-- Place a context's share in the first region that takes it. -/
def placeShare (e : CtxEntry) (n : Nat) : List ScratchRun → Option (Nat × List ScratchRun)
  | [] => none
  | r :: rs =>
    match (if r.reg.admits e then r.fit n else none) with
    | some a => some (a, { r with next := a + n, gap := max r.gap (a - r.next) } :: rs)
    | none => (placeShare e n rs).map (fun x => (x.1, r :: x.2))

/-- The placement of R473: the shares placed, as (context, address), and the first context whose share fits nowhere, with
the largest free range among its regions. -/
def placeShares : List CtxEntry → List ScratchRun → List (Nat × Nat) × Option (CtxEntry × Nat)
  | [], _ => ([], none)
  | e :: es, rs =>
    let n := e.dramMib * 0x100000
    if n = 0 then placeShares es rs
    else
      match placeShare e n rs with
      | some (a, rs') =>
        let r := placeShares es rs'
        ((e.id, a) :: r.1, r.2)
      | none => ([], some (e, ((rs.filter (fun r => r.reg.admits e)).map (·.free)).foldl max 0))

/-- Contexts in ascending identifier. -/
def Image.byId (i : Image) : List CtxEntry := sortBy (fun a b => decide (a.id ≤ b.id)) i.ctxs

/-- The scratch placement of an image. -/
def Image.placeScratch (i : Image) : List (Nat × Nat) × Option (CtxEntry × Nat) :=
  placeShares i.byId ((i.regions.filter (fun r => r.kind = 5)).map (fun r => { reg := r, next := r.base, gap := 0 }))

/-- The scratch of an image: as placed at its load, or as R473 places it now. -/
def Image.scratchFor (i : Image) (g : Stage) : List (Nat × Nat) := if g.swap then i.scratch else i.placeScratch.1

/-! ## Step 16 -/

/-- The segment's inactive region (R66, R71). -/
def State.inactiveRegion (s : State) (seg : Nat) : Option Region :=
  match s.ldr.image.segs.find? (fun e => e.id = seg), s.ldr.segs.find? (fun r => r.id = seg) with
  | some e, some r => s.ldr.image.regions[if r.activeB then e.regionA else e.regionB]?
  | _, _ => none

/-- Whether a range lies wholly in a region. -/
def Region.holds (r : Region) (a n : Nat) : Bool := r.base ≤ a && a + n ≤ r.base + r.size

/-- Whether a placed section lies where step 16 wants it. -/
def State.sectionPlace (s : State) (g : Stage) (i : Image) (d : DirEnt) : Bool :=
  if g.swap then
    (match s.inactiveRegion d.seg with
     | some r => r.holds d.load d.len
     | none => false)
  else i.regions.any (fun r => (if d.seg = 0 then r.kind = 1 else r.kind = 2) && r.holds d.load d.len)

/-- The overlaps of a command record at `a` that are known at load (R140, R309). -/
def State.recordOverlap (s : State) (i : Image) (scratch : List (Nat × Nat)) (a : Nat) : Bool :=
  let rd := s.rdAt a
  match rd 0x10 1 with
  | 1 =>
    let base := ((scratch.find? (fun x => x.1 = rd 0 2)).map (·.2)).getD (2 ^ 60)
    i.kindOf (rd 0 2) == some 2 && (readCmd rd).overlapAtLoad base
  | 4 => rd 0x11 1 = 0 && rangesMeet (rd 0x18 8) (rd 0x14 4) (rd 0x20 8) (rd 0x14 4)
  | _ => false

/-- Step 16 for one section. A segment image holds no PARTITION, so at a swap no region is tested against the staging range
(DESIGN CHOICE, log 75: R66 does not say whether step 16 then tests the loaded base's regions). -/
def State.sectionOverlap (s : State) (g : Stage) (i : Image) (d : DirEnt) : Option LoadErr :=
  let e (n : Nat) : LoadErr := loadErr Status.overlap d.idx n
  let earlier := g.dir.filter (fun x => x.placed && x.idx < d.idx)
  if d.type = tPartition then
    eachOf (indexed i.regions) (fun x =>
      must (!rangesMeet x.2.base x.2.size g.addr g.len &&
        !(i.regions.take x.1).any (fun r => rangesMeet x.2.base x.2.size r.base r.size)) (e (0x60 + 24 * x.1)))
  else if d.placed then
    firstErr
      [ must (s.sectionPlace g i d && !rangesMeet d.load d.len g.addr g.len &&
          !earlier.any (fun x => rangesMeet d.load d.len x.load x.len)) (e 0),
        (if d.type = tCommands then
          eachOf (s.stagedRecs g d) (fun r => must (!s.recordOverlap i (i.scratchFor g) r.2) (e r.1))
         else none) ]
  else none

/-- Step 16 of Table 2.16. -/
def State.checkOverlaps (s : State) (g : Stage) (i : Image) : Option LoadErr := eachOf g.dir (s.sectionOverlap g i)

/-! ## Steps 17 and 18 -/

/-- The profile bits of Table 8.7. -/
def profileBits : Nat → Nat
  | 0 => 7
  | 1 => 7
  | 2 => 3
  | 3 => 7
  | _ => 1

/-- Whether a class lies within the codec limits (R209), and declares a frame rate in deterministic mode (R47). -/
def RillClass.allowed (k : RillClass) (det : Bool) : Bool :=
  let l := codecLimits k.codec
  k.profileMask != 0 && k.profileMask ≤ profileBits k.codec && within 16 k.maxWidth l.1 && within 16 k.maxHeight l.2.1 &&
    k.maxLevel ≤ l.2.2.1 && (k.maxDepth = 8 || l.2.2.2) && (!det || k.rateNum != 0)

/-- Step 17 of Table 2.16. -/
def State.checkEnvelopes (s : State) (g : Stage) (i : Image) : Option LoadErr :=
  eachOf (g.allEntries tClass) (fun x =>
    must ((s.readClassEnt x.2.2).allowed i.deterministic) (loadErr Status.envelope x.1 x.2.1))

/-- The engine that each decode context of an entry goes to: round-robin over its present engines (R48). -/
def DecBind.engines (b : DecBind) (p : Part) : List Nat :=
  let es := presentBits 16 b.engineMask (decPresent p)
  (List.range b.contexts).map (fun k => es.getD (k % max 1 es.length) 0)

/-- How many contexts each engine has after some entries. -/
def engineLoads (p : Part) (bs : List DecBind) : List Nat :=
  let all := bs.flatMap (fun b => b.engines p)
  (List.range 16).map (fun e => (all.filter (fun x => x = e)).length)

/-- Step 18 of Table 2.16: the entry that puts an engine above 32. NEED is that engine's total over all entries. -/
def State.checkEngines (s : State) (g : Stage) (i : Image) : Option LoadErr :=
  let p := s.dev.part
  eachOf (indexed (g.allEntries tBind)) (fun x =>
    match (engineLoads p (i.binds.take (x.1 + 1))).findIdx? (fun n => decide (32 < n)) with
    | some e => some { status := Status.decodeContexts, sec := x.2.1, entry := x.2.2.1, need := (engineLoads p i.binds).getD e 0, got := 32 }
    | none => none)

/-! ## Step 19 -/

/-- Entries of a type beyond a limit (R61). -/
def Stage.countCheck (g : Stage) (t limit : Nat) : Option LoadErr :=
  match (g.allEntries t)[limit]? with
  | some x => some { status := Status.capacity, sec := x.1, entry := x.2.1, need := (g.allEntries t).length, got := limit }
  | none => none

/-- Bytes of a pool's buffers and of its ring (R49, R340). -/
def PoolEntry.bytes (p : PoolEntry) : Nat := p.size * p.count
def PoolEntry.ringBytes (p : PoolEntry) : Nat := 8 * ringCap p.count

/-- Bytes of a list of pools' buffers in a region. -/
def bufferBytes (ps : List PoolEntry) (region : Nat) : Nat :=
  ((ps.filter (fun p => p.region = region)).map (·.bytes)).foldl (· + ·) 0

/-- Bytes of the rings of a list of pools in a region. -/
def ringsBytes (ps : List PoolEntry) (region : Nat) : Nat :=
  ((ps.filter (fun p => p.region = region)).map (·.ringBytes)).foldl (· + ·) 0

/-- The offset of a pool's buffers in its region, and that of its ring; `earlier` are the pool entries before it. -/
def Image.bufferOff (_ : Image) (earlier : List PoolEntry) (p : PoolEntry) : Nat := bufferBytes earlier p.region
def Image.ringOff (i : Image) (earlier : List PoolEntry) (p : PoolEntry) : Nat :=
  up64 (bufferBytes i.pools p.region) + ringsBytes earlier p.region

/-- The size of a pool's region. -/
def Image.poolRoom (i : Image) (p : PoolEntry) : Nat := ((i.regions[p.region]?).map (·.size)).getD 0

/-- Bytes that the pools of a region need: their buffers and their rings together (R340). -/
def Image.poolNeed (i : Image) (region : Nat) : Nat := up64 (bufferBytes i.pools region) + ringsBytes i.pools region

/-- Pool backing (R340): first every pool's buffers, then every ring. NEED is what all pools of the region need and HAVE the
region's size (R61 with Table 2.17 names the bytes required and available, not whose: DEDUCED, log 74). -/
def Stage.poolCheck (g : Stage) (i : Image) : Option LoadErr :=
  let es := (g.allEntries tPool).zip (indexed i.pools)
  let test (x : (Nat × Nat × Nat) × Nat × PoolEntry) (off n : Nat) : Option LoadErr :=
    if off + n ≤ i.poolRoom x.2.2 then none
    else some { status := Status.capacity, sec := x.1.1, entry := x.1.2.1, need := i.poolNeed x.2.2.region, got := i.poolRoom x.2.2 }
  firstErr
    [ eachOf es (fun x => test x (i.bufferOff (i.pools.take x.2.1) x.2.2) x.2.2.bytes),
      eachOf es (fun x => test x (i.ringOff (i.pools.take x.2.1) x.2.2) x.2.2.ringBytes) ]

/-- Bytes of the regions whose set of groups is `set`. -/
def Image.setBytes (i : Image) (p : Part) (set : List Nat) (rs : List Region) : Nat :=
  ((rs.filter (fun r => i.groupsOf p r.owner = set)).map (·.size)).foldl (· + ·) 0

/-- The sets of channel groups hold their regions (R313). -/
def Image.setCheck (i : Image) (p : Part) (sec : Nat) : Option LoadErr :=
  eachOf (indexed i.regions) (fun x =>
    let set := i.groupsOf p x.2.owner
    if i.setBytes p set (i.regions.take (x.1 + 1)) ≤ set.length * 0x80000000 then none
    else some { status := Status.capacity, sec := sec, entry := x.1, need := i.setBytes p set i.regions, got := set.length * 0x80000000 })

/-- The map being built (R321): frames mapped, and per group the stripe below which none is free. -/
structure MapRun where
  map : SMap Nat
  cursor : SMap Nat
  deriving DecidableEq, Repr

/-- The lowest free stripe of a group, where `staged` are the stripes of the staging copy. -/
def MapRun.lowest (m : MapRun) (staged : List Nat) (g : Nat) : Option Nat :=
  (List.range 1024).find? (fun k => decide (SMap.get (fun _ => 0) m.cursor g ≤ k) && !staged.contains (g * 1024 + k))

/-- Map a frame to the lowest free stripe of a group. -/
def MapRun.take (m : MapRun) (p : Part) (f g k : Nat) : MapRun :=
  { map := SMap.set (defaultMap p) m.map f (g * 1024 + k), cursor := SMap.set (fun _ => 0) m.cursor g (k + 1) }

/-- The first group of a list that has a free stripe: its place in the list, group and stripe. -/
def MapRun.first (m : MapRun) (staged : List Nat) : Nat → List Nat → Option (Nat × Nat × Nat)
  | _, [] => none
  | n, g :: gs =>
    match m.lowest staged g with
    | some k => some (n, g, k)
    | none => MapRun.first m staged (n + 1) gs

/-- Part 2 of R321 for one region: its frames, `k` the place in the set where the next frame starts. -/
def MapRun.region (p : Part) (staged set : List Nat) : List Nat → Nat → MapRun → Option MapRun
  | [], _, m => some m
  | f :: fs, k, m =>
    match m.first staged 0 (set.drop k ++ set.take k) with
    | some (n, g, x) => MapRun.region p staged set fs ((k + n + 1) % set.length) (m.take p f g x)
    | none => none

/-- Frames of 2 MiB that a range touches. -/
def framesOf (a n : Nat) : List Nat :=
  if n = 0 then [] else (List.range ((a + n - 1) / 0x200000 - a / 0x200000 + 1)).map (fun k => a / 0x200000 + k)

/-- Part 2 of R321: the regions in order; the index of the first that cannot be mapped. -/
def Image.mapRegions (i : Image) (p : Part) (staged : List Nat) : List (Nat × Region) → MapRun → Nat ⊕ MapRun
  | [], m => .inr m
  | (k, r) :: rs, m =>
    match MapRun.region p staged (i.groupsOf p r.owner) (framesOf r.base r.size) 0 m with
    | some m' => Image.mapRegions i p staged rs m'
    | none => .inl k

/-- Part 3 of R321: every other frame, shared groups first. -/
def MapRun.others (p : Part) (staged order : List Nat) : List Nat → MapRun → MapRun
  | [], m => m
  | f :: fs, m =>
    match m.first staged 0 order with
    | some (_, g, k) => MapRun.others p staged order fs (m.take p f g k)
    | none => MapRun.others p staged order fs m

/-- The frame map that a load builds (R321), or the region that fits nowhere. -/
def State.buildMap (s : State) (g : Stage) (i : Image) : Nat ⊕ SMap Nat :=
  let p := s.dev.part
  let stage := framesOf g.addr g.len
  let staged := stage.map s.frameLoc
  let m0 : MapRun :=
    { map := stage.foldl (fun m f => SMap.set (defaultMap p) m f (s.frameLoc f)) [], cursor := [] }
  match i.mapRegions p staged (indexed i.regions) m0 with
  | .inl k => .inl k
  | .inr m =>
    let own := stage ++ i.regions.flatMap (fun r => framesOf r.base r.size)
    let gs := List.range (groupCount p)
    let shared (x : Nat) : Bool := i.channelOwner.getD x 0xFF = 0xFF
    let rest := (List.range (frameCount p)).filter (fun f => !own.contains f)
    .inr (MapRun.others p staged (gs.filter shared ++ gs.filter (fun x => !shared x)) rest m).map

/-- The frame map can be built (R321). -/
def State.mapCheck (s : State) (g : Stage) (i : Image) : Option LoadErr :=
  match s.buildMap g i with
  | .inr _ => none
  | .inl k =>
    let p := s.dev.part
    let set := i.groupsOf p (((i.regions[k]?).map (·.owner)).getD 0xFFFF)
    let staged := (framesOf g.addr g.len).map s.frameLoc
    some
      { status := Status.capacity, sec := g.indexOf tPartition, entry := k, need := i.setBytes p set i.regions
        got := (set.length * 1024 - (staged.filter (fun x => set.contains (x / 1024))).length) * 0x200000 }

/-- Bytes that context records and save areas need (R293). -/
def Image.saveNeed (i : Image) (p : Part) : Nat :=
  0x80000 + ((i.ctxs.filter (fun e => e.kind = 2 && !e.pinned)).map (fun e =>
    e.basinKib * 1024 * (presentBits 4 e.clusterMask (clusterPresent p)).length)).foldl (· + ·) 0

/-- The regions of kind 4 hold the context records and save areas (R293). -/
def Image.saveCheck (i : Image) (p : Part) (sec : Nat) : Option LoadErr :=
  let have_ := ((i.regions.filter (fun r => r.kind = 4)).map (·.size)).foldl (· + ·) 0
  let low := sortBy (fun a b => decide (a.2.base ≤ b.2.base)) ((indexed i.regions).filter (fun x => x.2.kind = 4))
  if i.saveNeed p ≤ have_ then none
  else some
    { status := Status.capacity, sec := sec, need := i.saveNeed p, got := have_
      entry := match low with
        | x :: _ => x.1
        | [] => 0xFFFFFFFF }

/-- Step 19 of Table 2.16, which a swap's image cannot breach. -/
def State.checkCapacity (s : State) (g : Stage) (i : Image) : Option LoadErr :=
  let p := s.dev.part
  if g.swap then none
  else
    firstErr
      [ g.countCheck tClass 512, g.countCheck tPool 64, g.poolCheck i, i.setCheck p (g.indexOf tPartition), s.mapCheck g i,
        i.saveCheck p (g.indexOf tPartition),
        (match i.placeScratch.2 with
         | some (e, n) => some
            { status := Status.capacity, sec := g.indexOf tContext, entry := e.entry, need := e.dramMib * 0x100000, got := n }
         | none => none) ]

/-! ## Steps 20 to 23 -/

/-- The four shares of a context, with their refusals, in the order of step 20. -/
def CtxEntry.shares (e : CtxEntry) : List (W16 × Nat) :=
  [(Status.accTiles, e.accTiles), (Status.operandStore, e.operandKib), (Status.basinShare, e.basinKib), (Status.dramShare, e.dramMib)]

/-- Step 20 of Table 2.16. -/
def State.checkNeeds (s : State) (g : Stage) (i : Image) : Option LoadErr :=
  eachOf (i.byId.filter (fun e => e.kind = 2)) (fun e =>
    let n := (presentBits 4 e.clusterMask (clusterPresent s.dev.part)).length
    eachOf (e.shares.zip (maxNeeds n (s.stagedCmds g e.id))) (fun x =>
      if x.2 ≤ x.1.2 then none
      else some { status := x.1.1, sec := g.indexOf tContext, entry := e.entry, need := x.2, got := x.1.2 }))

/-- Whether a context's class may use a way of a cluster (R291). -/
def Image.wayFor (i : Image) (e : CtxEntry) (n w : Nat) : Bool :=
  let o := i.wayOwner.getD (16 * n + w) 0xFF
  o = 0xFF || o = e.fn || o = 0x40 + e.cls

/-- Step 21 on one cluster: the pinned contexts of ascending identifier, each at the lowest place that takes it. -/
def Image.pinnedOn (i : Image) (n sec : Nat) : List CtxEntry → List (Nat × Nat) → Option LoadErr
  | [], _ => none
  | e :: es, taken =>
    match lowestFree 256 e.units taken (fun u => i.wayFor e n (u / 16)) with
    | some a => Image.pinnedOn i n sec es (taken ++ [(a, e.units)])
    | none => some
        { status := Status.pinnedFit, sec := sec, entry := e.entry, need := e.basinKib
          got := ((List.range 16).filter (i.wayFor e n)).length * 1024 }

/-- More than 16 pinned contexts on a cluster are refused by their number, whatever fits; the entry is the 17th (Table 2.17). -/
def pinnedCount (sec : Nat) (ps : List CtxEntry) : Option LoadErr :=
  match ps[16]? with
  | some e => some { status := Status.pinnedFit, sec := sec, entry := e.entry, need := ps.length, got := 16 }
  | none => none

/-- Step 21 of Table 2.16. -/
def State.checkPinned (s : State) (g : Stage) (i : Image) : Option LoadErr :=
  if g.swap then none
  else eachOf s.clusters (fun n =>
    let ps := i.byId.filter (fun e => e.kind = 2 && e.pinned && bitAt e.clusterMask n)
    let sec := g.indexOf tContext
    firstErr [pinnedCount sec ps, i.pinnedOn n sec ps []])

/-- Bytes of the track store (R45). -/
def storeBytes : Nat := 0x8000000

/-- Step 22 of Table 2.16: a base has exactly one region of kind 3 where it holds rule sets, else none. -/
def Stage.checkStore (g : Stage) (i : Image) : Option LoadErr :=
  let k3 := (indexed i.regions).filter (fun x => x.2.kind = 3)
  let want := g.ofType tRules != []
  let e (n : Nat) : LoadErr :=
    { status := Status.trackStore, sec := g.indexOf tPartition, entry := n, need := if want then storeBytes else 0
      got := (k3.map (fun x => x.2.size)).foldl (· + ·) 0 }
  match k3 with
  | [] => must (!want) (e 0)
  | [x] => must ((want || g.swap) && x.2.size = storeBytes) (e (0x60 + 24 * x.1))
  | _ :: y :: _ => some (e (0x60 + 24 * y.1))

/-- Fixed and whole-frame regions, over every program, whose target is a context (R249). -/
def State.headItems (s : State) (g : Stage) (ctx : Nat) : Nat :=
  let all := (s.stagedProgs g).map (fun p => p.2.2) ++
    (if g.swap then ((s.avail g tScaler).filter (fun v => v.sec = noSec)).flatMap (fun v =>
      s.programsIn (v.at_ + v.len) (v.len / 64) v.at_) else [])
  (all.map (fun a => ((s.programAt a).rois.filter (fun d => d.target = ctx)).length)).foldl (· + ·) 0

/-- The bound W of R249, in FABRIC cycles. -/
def State.trackBound (s : State) (g : Stage) (rs : RuleSet) : Nat :=
  let d := rs.maxDet
  let t := rs.maxTracks
  let c := rs.maxCand
  let h := (rs.heads.map (fun x =>
    2 * x.gridW * x.gridH * x.anchors * (4 + x.obj + rs.classes.length) * s.headItems g x.ctx)).foldl (· + ·) 0
  ceilDiv h 64 + 2 * c + ceilDiv (c * d) 16 + ceilDiv (d * t) 16 + 5 * (d + t) + 4 * (d + 36 * t + 2) + 2000

/-- Step 23 for a command record at `a`. -/
def State.worstCase (s : State) (g : Stage) (a : Nat) : Bool :=
  let rd := s.rdAt a
  !bitAt (rd 8 4) 0 ||
    (within 1 (rd 0xC 4) 250 &&
      (rd 0x10 1 != 3 ||
        (match s.tableAt g tRules (rd 0x18 8) with
         | some r => ceilDiv (s.trackBound g (s.ruleSet r)) 1000 ≤ rd 0xC 4
         | none => true)))

/-- Step 23 of Table 2.16. -/
def State.checkBounds (s : State) (g : Stage) : Option LoadErr :=
  eachOf (s.allRecs g) (fun r => must (s.worstCase g r.2.2) (loadErr Status.nonKillableBound r.1 r.2.1))

/-! ## Steps 24 and 25 -/

/-- A fallback of a primary (R51). -/
def CtxEntry.backs (f p : CtxEntry) : Bool :=
  p.kind = 2 && f.kind = 2 && f.accTiles ≤ p.accTiles && f.operandKib ≤ p.operandKib && f.basinKib ≤ p.basinKib &&
    f.dramMib ≤ p.dramMib && f.clusterMask = p.clusterMask && bitAt f.flags 0 == bitAt p.flags 0 &&
    bitAt f.flags 1 == bitAt p.flags 1 && bitAt f.flags 3 == bitAt p.flags 3

/-- Entry `k` of the FALLBACK sections of a base. -/
def Image.fbOk (i : Image) (k : Nat) (f : FbEntry) : Bool :=
  match i.ctx f.primary, i.ctx f.fallback with
  | some p, some b => b.backs p && p.fallback = k
  | _, _ => false

/-- A swap's entry in place of one of the base (R51). -/
def Image.fbSwap (i : Image) (old new : FbEntry) : Bool :=
  match i.ctx new.primary, i.ctx new.fallback with
  | some p, some b => b.backs p && new.primary = old.primary
  | _, _ => false

/-- Step 24 of Table 2.16. -/
def State.checkFallbacks (s : State) (g : Stage) (i : Image) : Option LoadErr :=
  let own := s.stagedFbs g
  let at_ := g.allEntries tFallback
  let e (k : Nat) : LoadErr :=
    match at_[k]? with
    | some x => loadErr Status.fallbackEntry x.1 x.2.1
    | none => loadErr Status.fallbackEntry (g.indexOf tFallback) k
  if g.swap then
    let old := i.fbs.filter (fun f => f.seg = g.segOf)
    if g.ofType tFallback = [] then none
    else firstErr
      [ must (own.length = old.length) (e (min own.length old.length)),
        eachOf (indexed (old.zip own)) (fun x => must (i.fbSwap x.2.1 x.2.2) (e x.1)) ]
  else firstErr
    [ eachOf (indexed own) (fun x => must (i.fbOk x.1 x.2) (e x.1)),
      eachOf i.ctxs (fun c =>
        must (c.fallback = 0xFFFF || (match own[c.fallback]? with
          | some f => f.primary = c.id
          | none => true)) (loadErr Status.fallbackEntry (g.indexOf tContext) c.entry)) ]

/-- A segment entry (R50); `earlier` are those before it. Two entries of one segment_id, and a context named twice in one
entry, are refused too, for which the spec states no check (DESIGN CHOICE, log 73). -/
def State.segOk (s : State) (g : Stage) (i : Image) (earlier : List SegEntry) (a : Nat) (e : SegEntry) : Bool :=
  (match i.regions[e.regionA]?, i.regions[e.regionB]? with
   | some x, some y => e.regionA != e.regionB && x.kind = 2 && y.kind = 2 && x.size = y.size &&
      g.dir.all (fun d => !d.placed || d.seg != e.id || x.holds d.load d.len)
   | _, _ => false) &&
    s.dramRd (a + 2) 2 = e.ctxs.length && e.ctxs.Nodup && !earlier.any (fun x => x.id = e.id || x.ctxs.any (fun c => e.ctxs.contains c))

/-- Step 25 of Table 2.16. -/
def State.checkSegments (s : State) (g : Stage) (i : Image) : Option LoadErr :=
  if g.swap then none
  else eachOf (indexed (g.allEntries tSegment)) (fun x =>
    match i.segs[x.1]? with
    | some e => must (s.segOk g i (i.segs.take x.1) x.2.2.2 e) (loadErr Status.segmentEntry x.2.1 x.2.2.1)
    | none => none)

/-! ## Steps 1 to 8 -/

/-- Whether the staging range is one that step 1 takes. -/
def State.stageOk (s : State) (j : LoadJob) : Bool :=
  j.addr % 4096 = 0 && j.addr + j.len ≤ dramSize s.dev.part && 320 ≤ j.len

/-- Ranges of an image in ascending order from `a`, up to `e`: none overlaps another and every byte between them is 0 (R38). -/
def State.gapsZero (s : State) (addr e : Nat) : Nat → List (Nat × Nat) → Bool
  | a, [] => a ≤ e && s.zeroAt (addr + a) (e - a)
  | a, (o, n) :: rs => a ≤ o && s.zeroAt (addr + a) (o - a) && State.gapsZero s addr e (o + n) rs

/-- The bytes between the sections of a staged image, and from the last section to the signature block at `body`, are 0 (R38);
a directory that lies among the sections is no such byte. What lies before the first section is not asked to be 0. -/
def State.betweenZero (s : State) (g : Stage) (dir : Nat × Nat) (body : Nat) : Bool :=
  match sortBy (fun a b => decide (a.1 ≤ b.1)) ((g.dir.filter (fun d => d.len != 0)).map (fun d => (d.off, d.len))) with
  | [] => true
  | (o, n) :: rs =>
    s.gapsZero g.addr body (o + n) (sortBy (fun a b => decide (a.1 ≤ b.1)) (if dir.1 < o then rs else dir :: rs))

/-- Step 8 of Table 2.16 (R38, R40). A payload of length 0 must start at 128 or beyond too, though it overlaps nothing
(DESIGN CHOICE, log 72). -/
def State.checkDirectory (s : State) (g : Stage) : Option LoadErr :=
  let h (off n : Nat) : Nat := s.hdrRd g.addr off n
  let e (k : Nat) : LoadErr := loadErr Status.directory k 0
  let body := g.len - 192
  let d0 := h 0x2C 4
  let n := h 0x28 2
  let inside (d : DirEnt) : Bool := d.off % 64 = 0 && 128 ≤ d.off && d.off + d.len ≤ body
  let meets (d : DirEnt) : Bool :=
    rangesMeet d.off d.len d0 (32 * n) || (g.dir.take d.idx).any (fun x => rangesMeet d.off d.len x.off x.len)
  firstErr
    [ must (128 ≤ d0 && d0 % 32 = 0 && within 1 n 1024 && d0 + 32 * n ≤ body) (e noSec),
      eachOf g.dir (fun d => must (inside d && !meets d) (e d.idx)),
      must (s.betweenZero g (d0, 32 * n) body) (e noSec) ]

/-- A check that reads a poisoned block ends the load there (R474). -/
def State.stagePoison (s : State) (a n : Nat) : Option LoadErr := (s.readPoison portFw a n).map (fun st => loadErr st noSec 0)

/-- Steps 1 to 8 of Table 2.16; a swap's differences are those of R66. `v` says which signatures verify. -/
def State.checkHeader (s : State) (j : LoadJob) (g : Stage) (v : Verdict) : Option LoadErr :=
  let h (off n : Nat) : Nat := s.hdrRd j.addr off n
  let e (st : W16) : LoadErr := loadErr st noSec 0
  firstErr
    [ must (s.stageOk j) (e Status.staging),
      s.stagePoison j.addr 128,
      must (h 0 4 = 0x544C5541 && h 4 2 = 1 && h 6 2 ≤ 3) (e Status.magic),
      must (h 8 4 = 128 && h 0xC 4 = j.len && j.len % 64 = 0 && j.len ≤ 0x10000000) (e Status.headerSize),
      must (bitAt (h 0x2A 2) 2 == g.swap) (e Status.segmentFlag),
      must (!g.swap || h 0x18 8 = s.ldr.image.imageId.toNat) (e Status.segmentImageId),
      s.stagePoison (j.addr + j.len - 192) 128,
      must v.endorsed (e Status.imgEndorsement),
      s.stagePoison j.addr j.len,
      must v.signed (e Status.imgSignature),
      must (counterVal s.dev.fuses.arbImage ≤ h 0x24 4) (e Status.imgRollback) ]

/-- The checks of Table 2.16 in order: the first that fails. -/
def State.checkImage (s : State) (j : LoadJob) (swap : Bool) (v : Verdict) : Option LoadErr :=
  let g := s.stageOf j swap
  match s.checkHeader j g v with
  | some e => some e
  | none =>
    match s.checkDirectory g with
    | some e => some e
    | none =>
      let i := s.stagedImage g
      firstErr
        [ s.checkForm g, s.checkUnits g, s.checkRanges g i, s.checkRefs g i, s.checkUnits13 g i, s.checkFirmware g,
          s.checkPlaces g i, s.checkOverlaps g i, s.checkEnvelopes g i, s.checkEngines g i, s.checkCapacity g i,
          s.checkNeeds g i, s.checkPinned g i, g.checkStore i, s.checkBounds g, s.checkFallbacks g i, s.checkSegments g i ]

end Sys2Proof.Machine
end

