-- ==== Sys2Proof/Machine/SageCmds.lean ====
section
/-! DEFINITION. Sage's mailbox, firmware in service, supply inhibits, attestation, and Odrov (R434 to R452, R359). -/

set_option Elab.async false

namespace Sys2Proof.Machine

/-! ## Flash and fuses -/

/-- First byte of a slot in flash, and the size of the slot (Table 16.2). -/
def slotBase (s : Nat) (b : Bool) : Nat :=
  match s with
  | 0 => if b then 0x0500000 else 0x0100000
  | 1 => if b then 0x0B00000 else 0x0900000
  | 2 => if b then 0x0E00000 else 0x0D00000
  | 3 => if b then 0x1100000 else 0x0F00000
  | _ => if b then 0x1B00000 else 0x1300000

def slotSize : Nat → Nat
  | 0 => 0x400000 | 1 => 0x200000 | 2 => 0x100000 | 3 => 0x200000 | _ => 0x800000

/-- Write bytes of flash. -/
def FlashSt.write (f : FlashSt) (a : Nat) (data : List Byte) : FlashSt :=
  { f with bytes := Mem.writeList f.bytes a (data.map (fun b => ~~~b)) }

def State.setFlash (s : State) (f : FlashSt) : State := { s with dev := { s.dev with flash := f } }

/-- Change the slot table: the copy that does not govern is written, with the next sequence number (R437). -/
def FlashSt.putTable (f : FlashSt) (t : SlotTable) : FlashSt :=
  let n : SlotTable := { t with seq := f.table.seq + 1, crcOk := true }
  if f.table = f.copy0 then { f with copy1 := n } else { f with copy0 := n }

/-- The slot table with a slot's valid bit set or cleared. -/
def SlotTable.mark (t : SlotTable) (s : Nat) (b valid : Bool) : SlotTable :=
  if b then { t with validB := putBit t.validB s valid } else { t with validA := putBit t.validA s valid }

/-- The inactive slot of a subsystem: true is B (R448). -/
def FlashSt.inactive (f : FlashSt) (s : Nat) : Bool := !f.table.activeB.getLsbD s

/-- The lowest bit of a fuse word that reads 0. -/
def lowestZero (v : W64) : Option Nat := (List.range 64).find? (fun i => !v.getLsbD i)

/-- Program `n` more bits of a counter; which of its bits are programmed the spec leaves open, and the count alone
matters (R435): the lowest (log 9). -/
def programBits (v : W64) : Nat → W64
  | 0 => v
  | n + 1 =>
    match lowestZero v with
    | some i => programBits (putBit v i true) n
    | none => v

def State.setFuses (s : State) (f : Fuses) : State := { s with dev := { s.dev with fuses := f } }

/-! ## Verification (R439) -/

/-- Whether a part's bit is set in a part_mask. -/
def partBit : Part → Nat
  | .sw7360 => 0 | .sw7340 => 1 | .sw7320 => 2

/-- The header fields of an image for subsystem `k` at a DRAM address lie within Table 16.3, and name this part and the
length given. -/
def State.fwHeaderOk (s : State) (k a len : Nat) : Bool :=
  s.dramRd a 4 == 0x57465544 && s.dramRd (a + 4) 2 == 64 && s.dramRd (a + 6) 1 == k && s.dramRd (a + 7) 1 == 0 &&
    s.dramRd (a + 8) 4 == len && len % 64 == 0 && len ≤ slotSize k && 256 ≤ len && s.dramRd (a + 0x10) 4 ≤ 64 &&
    s.dramRd (a + 0x14) 2 < 8 && bitAt (s.dramRd (a + 0x14) 2) (partBit s.dev.part) && s.dramRd (a + 0x16) 2 == 0 &&
    s.dramRd (a + 0x20) 32 == 0

/-- Steps 2 to 4 of R439. -/
def State.fwVerdict (s : State) (k sec : Nat) (v : Verdict) : Option W16 :=
  if !v.endorsed then some Status.fwEndorsement
  else if !v.signed then some Status.fwSignature
  else if sec < counterVal (s.dev.fuses.fw k) then some Status.fwRollback
  else none

/-- R439 for an image in DRAM: the status of its first failure. A range that names no memory or is poisoned fails with
that status. -/
def State.fwVerify (s : State) (k a len : Nat) (v : Verdict) : Option W16 :=
  match rangeStatus s.dev.part a len with
  | some st => some st
  | none =>
    match s.readPoison portFw a len with
    | some st => some st
    | none => if s.fwHeaderOk k a len then s.fwVerdict k (s.dramRd (a + 0x10) 4) v else some Status.fwHeader

/-! ## The mailbox (R448) -/

def State.setMbox (s : State) (j : Option MboxJob) : State := { s with sage := { s.sage with mbox := j } }

def State.mboxStatus (s : State) (st : W16) : State := s.setReg .SAGE_MBOX_STATUS 0 0 (st.setWidth 64)

/-- Whether a status is a signature or rollback failure that the device error log takes (Table 15.5). -/
def sageLogged (st : W16) : Bool :=
  st == Status.fwEndorsement || st == Status.fwSignature || st == Status.fwRollback || st == Status.imgEndorsement ||
    st == Status.imgSignature || st == Status.imgRollback

/-- Log a failure that Sage reports. -/
def State.sageLog (s : State) (st : W16) : State :=
  if sageLogged st then s.elog st unitSage 0 noCtx noFn 0 else s

/-- A command ends: the status is written and source 10 raised (R448). -/
def State.mboxEnd (s : State) (st : W16) : State := State.raise ((s.setMbox none).mboxStatus st) 10

/-- A command is refused. -/
def State.mboxRefuse (s : State) (st : W16) : State := (s.sageLog st).mboxEnd st

/-- Whether both rails allow a flash write or fuse programming (R451). -/
def State.supplyOk (s : State) : Bool := s.regBit .SAGE_SUPPLY 0 0 0 && s.regBit .SAGE_SUPPLY 0 0 1

/-- A refusal or stop under R451. -/
def State.inhibit (s : State) (st : W16) : State :=
  ((s.count .SAGE_CNT_INHIBIT 0).elog st unitSage 0 noCtx noFn 0).mboxEnd st

/-- Start a command that writes flash or programs fuses, where the rails allow (R451). -/
def State.mboxStart (s : State) (j : MboxJob) (f : State → State) : State :=
  if s.supplyOk then (f s).setMbox (some j) else s.inhibit Status.supplyLow

/-- What a command samples when it is taken (R448). -/
def State.mboxAddr (s : State) : Nat := s.regNat .SAGE_MBOX_ADDR 0 0 / 4096 * 4096
def State.mboxLen (s : State) : Nat := s.regNat .SAGE_MBOX_LEN 0 0

/-- WRITE_SLOT, taken (R448): the slot is invalid from here until the write is complete (R450). -/
def State.takeWriteSlot (s : State) (k : Nat) (v : Verdict) : State :=
  let b := s.dev.flash.inactive k
  if s.dev.flash.inService.getLsbD k = b then s.mboxRefuse Status.mailboxNotPermitted
  else
    let s1 := s.visit portFw s.mboxAddr s.mboxLen
    match s.fwVerify k s.mboxAddr s.mboxLen v with
    | some st => s1.mboxRefuse st
    | none =>
      s1.mboxStart { cmd := .writeSlot, sub := k, addr := s.mboxAddr, len := s.mboxLen, status := 0, goal := 0 }
        (fun s => s.setFlash (s.dev.flash.putTable (s.dev.flash.table.mark k b false)))

/-- Whether a subsystem's processors take firmware while the device runs: Sage switches at the next reset (Table 16.7),
and in recovery no unit's firmware runs. -/
def State.switchesNow (s : State) (k : Nat) : Bool := k != 0 && s.ready

/-- What Sluice's own rules refuse (Table 16.7). -/
def State.sluiceRefusal (s : State) (version : W32) : Option W16 :=
  if s.ldr.state = .loading ∨ s.ldr.swap.isSome then some Status.mailboxNotPermitted
  else if s.imageLoaded ∧ version.toNat < s.ldr.image.minFirmware then some Status.minFirmware
  else none

/-- ACTIVATE, taken (R448, R449): the slot is marked active and waits to go into service. -/
def State.takeActivate (s : State) (k : Nat) (v : Verdict) : State :=
  let b := s.dev.flash.inactive k
  let i := s.dev.flash.slot k b
  if !s.dev.flash.table.valid k b then s.mboxRefuse Status.mailboxNotPermitted
  else match (if k = 1 ∧ s.ready then s.sluiceRefusal i.version else none) with
    | some st => s.mboxRefuse st
    | none =>
      match s.fwVerdict k i.security v with
      | some st => s.mboxRefuse st
      | none =>
        s.mboxStart { cmd := .activate, sub := k, addr := 0, len := 0, status := 0, goal := 0 } (fun s =>
          let t := s.dev.flash.table
          let s1 := s.setFlash (s.dev.flash.putTable { t with activeB := putBit t.activeB k b })
          if s.switchesNow k then
            { s1 with sage := { s1.sage with pendingSwitch := putBit s1.sage.pendingSwitch k true, switched := [] } }
          else s1)

/-- COMMIT, taken (R448). -/
def State.takeCommit (s : State) (k : Nat) : State :=
  let goal := (s.inService k).security
  let j : MboxJob := { cmd := .commit, sub := k, addr := 0, len := 0, status := 0, goal := goal }
  if goal ≤ counterVal (s.dev.fuses.fw k) then s.setMbox (some j) else s.mboxStart j id

/-- ADVANCE_IMAGE, taken (R448). -/
def State.takeAdvance (s : State) : State :=
  if !s.imageLoaded then s.mboxRefuse Status.mailboxNotPermitted
  else
    let goal := s.ldr.image.security
    let j : MboxJob := { cmd := .advanceImage, sub := 0, addr := 0, len := 0, status := 0, goal := goal }
    if goal ≤ counterVal s.dev.fuses.arbImage then s.setMbox (some j) else s.mboxStart j id

/-- WRITE_BOARD, taken (R448). -/
def State.takeBoard (s : State) : State :=
  if s.ldr.state ≠ .empty then s.mboxRefuse Status.mailboxNotPermitted
  else
    let s1 := s.visit portFw s.mboxAddr 4096
    match (match rangeStatus s.dev.part s.mboxAddr 4096 with
      | some st => some st
      | none => s.readPoison portFw s.mboxAddr 4096) with
    | some st => s1.mboxRefuse st
    | none => s1.mboxStart { cmd := .writeBoard, sub := 0, addr := s.mboxAddr, len := 4096, status := 0, goal := 0 } id

/-- A command written to SAGE_MBOX_CMD is taken, turned away while another runs, or refused (R448, R441). -/
def State.mboxTake (s : State) (duringRecovery : Bool) (f : State → State) : State :=
  s.when (s.dev.life == .ready || s.dev.life == .recovery) (fun s =>
    if s.sage.mbox.isSome then s.mboxStatus Status.mailboxBusy
    else if s.dev.life = .recovery ∧ s.dev.recovery = Status.keyRecord then s.mboxRefuse Status.keyRecord
    else if s.dev.life = .recovery ∧ !duringRecovery then s.mboxRefuse Status.mailboxNotPermitted
    else f s)

/-- A subsystem code that is defined. -/
def State.withSub (s : State) (k : Nat) (f : State → State) : State :=
  if k < 5 then f s else s.mboxRefuse Status.mailboxNotPermitted

/-- WRITE_SLOT (R448). -/
def execWriteSlot (k : Nat) (v : Verdict) (s : State) : Out :=
  .next (s.mboxTake true (fun s => s.withSub k (fun s => s.takeWriteSlot k v)))

/-- ACTIVATE (R448). -/
def execActivate (k : Nat) (v : Verdict) (s : State) : Out :=
  .next (s.mboxTake true (fun s => s.withSub k (fun s => s.takeActivate k v)))

/-- COMMIT (R448). -/
def execCommit (k : Nat) (s : State) : Out :=
  .next (s.mboxTake false (fun s => s.withSub k (fun s => s.takeCommit k)))

/-- ADVANCE_IMAGE (R448). -/
def execAdvanceImage (s : State) : Out := .next (s.mboxTake false State.takeAdvance)

/-- WRITE_BOARD (R448). -/
def execWriteBoard (s : State) : Out := .next (s.mboxTake false State.takeBoard)

/-- A signature outcome that no operand gives: a free value (log 7). -/
def State.freeVerdict (s : State) : Verdict :=
  { endorsed := Config.freeValue s.freeIdx % 2 == 1, signed := Config.freeValue (s.freeIdx + 1) % 2 == 1 }

/-- A write to SAGE_MBOX_CMD (R448). -/
def State.mboxWrite (s : State) (w : Nat) : State :=
  let k := field w 8 3
  let v := s.freeVerdict
  let s := { s with freeIdx := s.freeIdx + 2 }
  match field w 0 8 with
  | 1 => s.mboxTake true (fun s => s.withSub k (fun s => s.takeWriteSlot k v))
  | 2 => s.mboxTake true (fun s => s.withSub k (fun s => s.takeActivate k v))
  | 3 => s.mboxTake false (fun s => s.withSub k (fun s => s.takeCommit k))
  | 4 => s.mboxTake false State.takeAdvance
  | 5 => s.mboxTake false State.takeBoard
  | _ => s.mboxTake false (fun s => s.mboxRefuse Status.mailboxNotPermitted)

/-! ## Ends of commands -/

/-- A WRITE_SLOT's image is in its slot, which is valid (R448). -/
def State.finishSlot (s : State) (j : MboxJob) : State :=
  let b := s.dev.flash.inactive j.sub
  let f := s.dev.flash
  let i : SlotInfo := { version := BitVec.ofNat 32 (s.dramRd (j.addr + 0xC) 4), security := s.dramRd (j.addr + 0x10) 4,
                        length := j.len }
  s.setFlash (FlashSt.putTable
    { f.write (slotBase j.sub b) (Mem.readList s.dram.bytes j.addr j.len) with
      slots := SMap.set (fun _ => factorySlot) f.slots (2 * j.sub + b2n b) i }
    (f.table.mark j.sub b true))

/-- Program a firmware counter up to a value. -/
def State.finishCommit (s : State) (k goal : Nat) : State :=
  let v := s.dev.fuses.fw k
  s.setFuses { s.dev.fuses with
    arbFw := SMap.set (fun _ => 0) s.dev.fuses.arbFw k (programBits v (goal - counterVal v)) }

/-- Program the image counter up to a value. -/
def State.finishAdvance (s : State) (goal : Nat) : State :=
  let v := s.dev.fuses.arbImage
  s.setFuses { s.dev.fuses with arbImage := programBits v (goal - counterVal v) }

def State.finishBoard (s : State) (data : List Byte) : State :=
  s.setFlash (s.dev.flash.write boardBase data)

/-- What a command has done once it is complete. -/
def State.mboxFinish (s : State) (j : MboxJob) : State :=
  match j.cmd with
  | .writeSlot => s.finishSlot j
  | .activate => s
  | .commit => s.finishCommit j.sub j.goal
  | .advanceImage => s.finishAdvance j.goal
  | .writeBoard => s.finishBoard (Mem.readList s.dram.bytes j.addr 4096)

/-- MAILBOX_COMMAND_COMPLETE (R448): an ACTIVATE ends when its last switch is done (R449). -/
def execMailboxCommandComplete (s : State) : Out :=
  .next (match s.sage.mbox with
    | none => s
    | some j =>
      s.when (!(j.cmd == .activate && s.sage.pendingSwitch.getLsbD j.sub)) (fun s =>
        (s.mboxFinish j).mboxEnd j.status))

/-- Where programming had come to when it was stopped: a free value (R450, R451). -/
def State.partGoal (s : State) (cur goal : Nat) : Nat := cur + Config.freeValue s.freeIdx % (goal - cur + 1)

/-- What a command leaves that is stopped or abandoned (R450, R451): a slot being written is invalid already; a counter
reads whatever its bits read; the board record holds free values. -/
def State.mboxAbandon (s : State) (j : MboxJob) : State :=
  let s1 := { s with freeIdx := s.freeIdx + 4096 }
  match j.cmd with
  | .writeSlot => s
  | .activate => s
  | .commit => s1.finishCommit j.sub (s.partGoal (counterVal (s.dev.fuses.fw j.sub)) j.goal)
  | .advanceImage => s1.finishAdvance (s.partGoal (counterVal s.dev.fuses.arbImage) j.goal)
  | .writeBoard => s1.finishBoard (freeBytes s.freeIdx 4096)

/-- Whether a job writes flash or programs fuses; a counter that is already there is not programmed (R448). -/
def State.jobWrites (s : State) (j : MboxJob) : Bool :=
  match j.cmd with
  | .writeSlot => true
  | .activate => false
  | .commit => decide (counterVal (s.dev.fuses.fw j.sub) < j.goal)
  | .advanceImage => decide (counterVal s.dev.fuses.arbImage < j.goal)
  | .writeBoard => true

/-- SUPPLY_SAMPLE (R451). -/
def execSupplySample (vauxMv vddioMv : Nat) (s : State) : Out :=
  let ok := 3050 ≤ vauxMv && 1700 ≤ vddioMv
  let s1 := s.setReg .SAGE_SUPPLY 0 0 (BitVec.ofNat 64 (b2n (3050 ≤ vauxMv) + 2 * b2n (1700 ≤ vddioMv)))
  .next (match s.sage.mbox with
    | some j => if !ok && s.jobWrites j then (s1.mboxAbandon j).inhibit Status.supplySagged else s1
    | none => s1)

/-! ## Putting firmware in service (R449) -/

/-- Whether an engine has a picture in progress. -/
def State.enginePic (s : State) (n : Nat) : Bool := s.ing.ctxs.any (fun x => x.1 / 32 == n && x.2.pic.isSome)

/-- The active slot of a subsystem goes into service. -/
def State.inServiceNow (s : State) (k : Nat) : State :=
  let f := s.dev.flash
  let s1 := s.setFlash { f with
    inService := putBit f.inService k (f.table.activeB.getLsbD k) }
  { s1 with sage := { s1.sage with pendingSwitch := putBit s1.sage.pendingSwitch k false, switched := [] }
            dev := { s1.dev with ucode := if k = 4 then [] else s1.dev.ucode } }

/-- Whether the switch conditions of Table 16.7 hold. -/
def State.maySwitch (s : State) (k n : Nat) : Bool :=
  s.sage.pendingSwitch.getLsbD k && !s.coolantHeld &&
    (match k with
     | 1 => s.ldr.state != .loading && s.ldr.swap.isNone
     | 2 => true
     | 3 => s.trackRunning == 0
     | 4 => s.nextSwitch == some n && !s.enginePic n
     | _ => false)

/-- FIRMWARE_SWITCH (R449): for decoder microcode, one engine's switch. -/
def execFirmwareSwitch (k engine : Nat) (s : State) : Out :=
  .next (s.when (s.maySwitch k engine) (fun s =>
    if k = 4 then
      let v := (s.dev.flash.slot 4 (s.dev.flash.table.activeB.getLsbD 4)).version
      let s1 := { s with dev := { s.dev with ucode := SMap.insert s.dev.ucode engine v }
                         sage := { s.sage with switched := s.sage.switched ++ [engine] } }
      if s1.nextSwitch = none then s1.inServiceNow 4 else s1
    else if k = 2 then State.inServiceNow { s with weir := { s.weir with switched := true } } 2
    else s.inServiceNow k))

/-! ## Attestation (R442 to R445) -/

/-- The digest of a firmware image in a slot. -/
def State.slotDigest (s : State) (k : Nat) (b : Bool) : W256 :=
  Config.sha256 (s.dev.flash.read (slotBase k b) (s.dev.flash.slot k b).length)

/-- Sage starts (R442): the engine derives the two keys, and Sage issues the alias certificate. -/
def State.deriveKeys (s : State) : State :=
  let secret := s.dev.fuses.deviceSecret
  let fw := s.slotDigest 0 (s.dev.flash.inService.getLsbD 0)
  let i := Config.identityKey secret
  let a := Config.aliasKey secret fw
  { s with sage := { s.sage with
      keys := some { identity := i, signing := a, cert := Config.aliasCertificate i a fw } } }

/-- The length of a DER value that begins a byte string: its tag, its length field and its contents. -/
def derLength : List Byte → Nat
  | _ :: l :: bs =>
    let n := l.toNat
    if n < 128 then 2 + n else 2 + (n - 128) + leVal ((bs.take (n - 128)).reverse)
  | _ => 0

/-- The device identity certificate of Table 16.2. -/
def FlashSt.identityCert (f : FlashSt) : List Byte :=
  (f.read 0x0040000 0x40000).take (derLength (f.read 0x0040000 6))

/-- The certificate chain of SPDM slot 0 (R442). -/
def State.certChain (s : State) : List Byte :=
  Config.rootCertificate ++ s.dev.flash.identityCert ++
    (match s.sage.keys with
     | some k => k.cert
     | none => [])

/-- The 32 bytes of a digest, big-endian. -/
def digestBytes (v : W256) : List Byte := (leBytes 32 v.toNat).reverse

/-- Whether the decoder microcode to measure is the new one: the lowest present engine has switched (Table 16.5). -/
def State.newUcode (s : State) : Bool := s.sage.pendingSwitch.getLsbD 4 && s.sage.switched != []

/-- The measurement blocks of Table 16.5, in index order. -/
def State.measurements (s : State) : List W256 :=
  let inS := fun k => s.slotDigest k (s.dev.flash.inService.getLsbD k)
  [ Config.bootRomDigest, inS 0, inS 1, inS 2, if trkPresent s.dev.part then inS 3 else 0,
    if s.newUcode then s.slotDigest 4 (s.dev.flash.table.activeB.getLsbD 4) else inS 4,
    if s.imageLoaded then s.ldr.signed else 0, s.ldr.chain,
    Config.sha256 ((List.range 5).flatMap (fun k => leBytes 8 (s.dev.fuses.fw k).toNat)
      ++ leBytes 8 s.dev.fuses.arbImage.toNat ++ digestBytes s.dev.fuses.rootKeyHash) ]

/-- What a response is composed from: the request and, for GET_MEASUREMENTS, the blocks (R445). -/
def State.spdmInput (s : State) (code : SpdmCode) (request : List Byte) : List Byte :=
  if code = .getMeasurements then request ++ s.measurements.flatMap digestBytes else request

/-- The connection state of a transport (R444): the requests answered since its GET_VERSION, once there was one. -/
def State.connection (s : State) : Transport → Option (List (List Byte))
  | .doe => s.sage.doeConn
  | .mctp => s.sage.mctpConn

def State.setConnection (s : State) (t : Transport) (c : List (List Byte)) : State :=
  match t with
  | .doe => { s with sage := { s.sage with doeConn := some c } }
  | .mctp => { s with sage := { s.sage with mctpConn := some c } }

/-- Whether GET_VERSION has been answered on a transport. -/
def State.versionSeen (s : State) (t : Transport) : Bool := (s.connection t).isSome

/-- The requests that a request follows: GET_VERSION resets the connection of its own transport (R444). -/
def State.spdmBefore (s : State) (t : Transport) (code : SpdmCode) : List (List Byte) :=
  if code = .getVersion then [] else (s.connection t).getD []

/-- Sage's answer, signed with the alias key, from the chain of slot 0 (R442, R443). -/
def State.spdmAnswer (s : State) (t : Transport) (code : SpdmCode) (request : List Byte) : List Byte :=
  Config.spdmReply (match s.sage.keys with | some k => k.signing | none => 0) s.certChain (s.spdmBefore t code)
    (Config.freeValue s.freeIdx) (s.spdmInput code request)

/-- An SPDM request (R443, R444). -/
def State.spdm (s : State) (t : Transport) (code : SpdmCode) (malformed busy : Bool) (request : List Byte) : State :=
  if busy then s.send (.spdmReply t true [])
  else if code = .other ∨ malformed ∨ (code ≠ .getVersion ∧ !s.versionSeen t) then
    ((s.count .SAGE_CNT_SPDM 0).elog Status.spdmError unitSage 0 noCtx noFn 0).send (.spdmReply t true [])
  else
    State.send ({ s with freeIdx := s.freeIdx + 1 }.setConnection t (s.spdmBefore t code ++ [request]))
      (.spdmReply t false (s.spdmAnswer t code request))

/-- Whether Sage's own firmware runs: in service, and in a recovery that boot came to after Sage had started (R441). -/
def State.sageRuns (s : State) : Bool := s.ready || (s.dev.life == .recovery && s.sage.keys.isSome)

/-- SPDM_REQUEST (R443, R444). -/
def execSpdmRequest (t : Transport) (code : SpdmCode) (malformed busy : Bool) (request : List Byte) (s : State) : Out :=
  .next (s.when s.sageRuns (fun s => s.spdm t code malformed busy request))

/-! ## Odrov (R446, R447, R359) -/

/-- Whether a binding is enabled (Table 16.10). -/
def State.bindingOn (s : State) : Binding → Bool
  | .smbus => s.regBit .ODROV_CTRL 0 0 0
  | .vdm => s.regBit .ODROV_CTRL 0 0 1

/-- The cap effecter of Table 13.4: 0, or the brake floor to the sprint maximum, in W. -/
def capInRange (p : Part) (watts : Nat) : Bool :=
  watts == 0 || (brakeFloorMw p ≤ watts * 1000 && watts * 1000 ≤ sprintMaxMw p)

/-- Set the cap through Odrov: a change raises source 11 (R358, R359, R406). -/
def State.odrovCap (s : State) (watts : Nat) : State :=
  let v := BitVec.ofNat 64 (watts * 1000)
  if s.reg .WEIR_CAP_ODROV_MW 0 0 = v then s
  else State.sprintCheck (State.raise (s.setReg .WEIR_CAP_ODROV_MW 0 0 v) 11)

/-- The sensors of Table 13.4: id, and whether it is the state sensor. -/
def State.sensor (s : State) (id : Nat) (st : Bool) : Option Nat :=
  match id, st with
  | 1, false => some (s.weir.powerMw / 1000)
  | 2, false => some s.hottest
  | 3, true => some (if s.coolantHeld then 2 else if s.weir.brake then 1 else if s.thermalEngaged then 3 else 0)
  | _, _ => none

/-- Set Endpoint ID of a binding (R446). -/
def State.setEid (s : State) (b : Binding) (eid : Nat) : State :=
  match b with
  | .smbus => { s with sage := { s.sage with eidSmb := eid % 256 } }
  | .vdm => { s with sage := { s.sage with eidVdm := eid % 256 } }

/-- Whether only the AO responder runs (R447). -/
def State.aoOnly (s : State) : Bool := !(s.dev.life == .ready || s.dev.life == .recovery)

/-- An MCTP message that Odrov has received (R446, R447). -/
def State.mctpBody (s : State) (b : Binding) (body : MctpBody) : State :=
  match body with
  | .setEndpointId eid => (s.setEid b eid).send (.mctpReply b (Config.protocolReply (leBytes 1 eid)))
  | .control request => s.send (.mctpReply b (Config.protocolReply request))
  | .pldmSetCap watts =>
    if s.aoOnly then s.send (.pldmError b .notReady)
    else if !capInRange s.dev.part watts then s.send (.pldmError b .outOfRange)
    else (s.odrovCap watts).send (.mctpReply b [])
  | .pldmSensor id st =>
    if s.aoOnly then s.send (.pldmError b .notReady)
    else match s.sensor id st with
      | some v => s.send (.mctpReply b (leBytes 1 (min 255 v)))
      | none => s.send (.pldmError b .outOfRange)
  | .pldmBase request =>
    if s.aoOnly then s.send (.pldmError b .notReady) else s.send (.mctpReply b (Config.protocolReply request))
  | .pldmOther => s.send (.pldmError b (if s.aoOnly then .notReady else .invalidType))
  | .spdm code malformed request => s.when s.sageRuns (fun s => s.spdm .mctp code malformed false request)
  | .other => s.count .ODROV_CNT_ERR 0

/-- An MCTP message arrives on a binding (R446): source 17, ODROV_CNT_RX, and its answer. -/
def State.mctp (s : State) (b : Binding) (body : MctpBody) : State :=
  s.when (s.dev.life != .noAux && s.dev.life != .auxReset && s.bindingOn b &&
      !(s.dev.life == .standby && b == .vdm))
    (fun s => ((s.count .ODROV_CNT_RX 0).raise 17).mctpBody b body)

/-- MCTP_MESSAGE (R446). -/
def execMctpMessage (b : Binding) (body : MctpBody) (s : State) : Out := .next (s.mctp b body)

end Sys2Proof.Machine
end

