-- ==== Sys2Proof/Machine/ImageCmds.lean ====
section
/-! DEFINITION. The image commands: load, lock, unload, swap and retirement (R53 to R57, R63 to R72, R206, R294, R474). -/

set_option Elab.async false

namespace Sys2Proof.Machine

/-! ## Ending a command -/

def State.setLdr (s : State) (l : Loader) : State := { s with ldr := l }

/-- A command that has no effect but its status (R55, R56, R63 to R66). -/
def State.imgStatus (s : State) (st : W16) : State := s.setLdr { s.ldr with status := st }

/-- A command ends without a failure (R54). -/
def State.imgDone (s : State) : State := (s.imgStatus 0).raise 0

/-- A command ends with a failure (R54, R61). -/
def State.imgFail (s : State) (e : LoadErr) : State :=
  (s.setLdr { s.ldr with
    status := e.status, failSection := BitVec.ofNat 16 e.sec, failEntry := BitVec.ofNat 32 e.entry
    failNeed := BitVec.ofNat 64 e.need, failHave := BitVec.ofNat 64 e.got }).raise 0

/-- Whether R55 refuses a load, unload or swap. -/
def State.loaderBusy (s : State) : Bool :=
  s.ldr.state == .loading || s.ldr.state == .unloading || s.ldr.swap.isSome

/-- What a command samples (R54). -/
def State.sampleJob (s : State) : LoadJob :=
  { addr := s.regNat .GLB_IMG_ADDR 0 0, len := s.regNat .GLB_IMG_LEN 0 0, swapTime := s.regNat .GLB_SWAP_TIME 0 0, seg := 0 }

/-! ## Placement (R474) -/

/-- Whether a placement has failed. -/
abbrev Placing : Type := State × Option LoadErr

/-- Write the pieces of a payload that lies at `src` to its load address, block by block, up to the first poisoned block of
the copy or discarded partial write. -/
def State.placePieces (s : State) (sec src load : Nat) : List (Nat × List Byte) → Placing
  | [] => (s, none)
  | (a, bs) :: ps =>
    let off := a - load
    let s0 := s.visit portFw (src + off) bs.length
    match s.memPoison portFw (src + off) bs.length with
    | some st => (s0, some (loadErr st sec (64 * (off / 64 + (if s.poisoned ((src + off) / 64) then 0 else 1)))))
    | none =>
      let s1 := s0.putBlock portFw a bs
      if bs.length != 64 && s.poisoned (a / 64) then (s1, some (loadErr Status.partialDiscarded sec off))
      else State.placePieces s1 sec src load ps

/-- Place sections in directory order. -/
def State.placeAll (s : State) (g : Stage) : List DirEnt → Placing
  | [] => (s, none)
  | d :: ds =>
    match s.placePieces d.idx (g.at d) d.load (pieces (d.len / 64 + 2) d.load (Mem.readList s.dram.bytes (g.at d) d.len)) with
    | (s1, some e) => (s1, some e)
    | (s1, none) => State.placeAll s1 g ds

/-! ## Building the device state -/

/-- The block that lies, in a new frame map, where block `b` lies in the map in force (R320). -/
def State.movedBlock (s : State) (m : SMap Nat) (b : Nat) : Nat :=
  match (List.range (frameCount s.dev.part)).find? (fun f =>
      SMap.get (defaultMap s.dev.part) m f = s.frameLoc (b / 32768)) with
  | some f => f * 32768 + b % 32768
  | none => b

/-- The poisoned blocks under a new frame map: poison lies in the check bytes of a stripe, and moves with it (R324, R325). -/
def State.movedPoison (s : State) (m : SMap Nat) : SMap Bool :=
  (s.dram.poison.filter (·.2)).foldl (fun p x => SMap.set (fun _ => false) p (s.movedBlock m x.1) true) []

/-- DRAM under a new frame map: the staging copy is intact, every other byte is as if nothing had written it (R322, R474;
log 3), and poison stays where it lies. -/
def State.remap (s : State) (g : Stage) (m : SMap Nat) : State :=
  { s with dram := { s.dram with
      frameMap := m, windows := [], finds := [], poison := s.movedPoison m
      bytes := SMap.keep s.dram.bytes (fun a => g.addr ≤ a && a < g.addr + g.len) } }

/-- The pools of an image (R49, R340), with the offsets of their buffers and rings. -/
def Image.poolList (i : Image) : List Pool :=
  (indexed i.pools).map (fun x =>
    let p := x.2
    let base := ((i.regions[p.region]?).map (·.base)).getD 0
    { id := p.id, owner := p.owner, size := p.size, count := p.count, base := base + i.bufferOff (i.pools.take x.1) p
      ringAddr := base + i.ringOff (i.pools.take x.1) p, cap := ringCap p.count, cache := [], head := 0, tail := p.count
      lowest := p.count, fails := 0, reinit := false })

/-- Fill every pool's ring (R340). -/
def State.initPools (s : State) : List Pool → State
  | [] => s
  | p :: ps => State.initPools (s.initPool p) ps

/-- Give out the decode contexts of the bindings (R48): the engines of the contexts still to give out, each with the place
of its binding; `order` counts them. -/
def giveContexts : List (Nat × Nat) → List Nat → Nat → SMap DecCtx → SMap DecCtx
  | [], _, _, m => m
  | (b, e) :: es, loads, order, m =>
    let n := loads.getD e 0
    giveContexts es (loads.set e (n + 1)) (order + 1) (SMap.insert m (32 * e + n)
      { bind := b, rill := none, queue := [], hdr := none, pic := none, held := [], refs := [], nextPic := 0, refusing := none
        a0 := 0, avg := 0, order := order, substituting := false, disc := 0, state := 0 })

/-- The decode contexts of an image. -/
def Image.decCtxs (i : Image) (p : Part) : SMap DecCtx :=
  giveContexts ((indexed i.binds).flatMap (fun b => (b.2.engines p).map (fun e => (b.1, e)))) (List.replicate 16 0) 0 []

/-- The segments of an image, each with region A active (R66). -/
def Image.segRuns (i : Image) : List SegRun :=
  i.segs.map (fun e =>
    { id := e.id, retiring := false, activeB := false, epoch := 0, switchT := 0, switchCount := 0
      placed := i.placed.filter (fun p => p.seg = e.id), oldPlaced := []
      fbs := i.fbs.filter (fun f => f.seg = e.id), oldFbs := [] })

/-- Admit a context on each cluster of a list where it fits (R290, R294). -/
def State.admitOn (s : State) (e : CtxEntry) : List Nat → State
  | [] => s
  | n :: ns =>
    match s.roomFor e n with
    | some p => State.admitOn (s.settleIn e.id n p) e ns
    | none => State.admitOn s e ns

/-- Admit the contexts of a list in order. -/
def State.admitAll (s : State) : List CtxEntry → State
  | [] => s
  | e :: es => State.admitAll (s.admitOn e s.clusters) es

/-- Residency at load (R294): pinned contexts, then the others in ascending identifier. -/
def State.residency (s : State) : State :=
  let m := s.ldr.image.byId.filter (fun e => e.kind = 2)
  s.admitAll (m.filter (·.pinned) ++ m.filter (fun e => !e.pinned))

/-- The digest of a staged image's signed bytes (R41). -/
def State.signedDigest (s : State) (g : Stage) : W256 := Config.sha256 (Mem.readList s.dram.bytes g.addr (g.len - 192))

/-- The device state that a load builds from its consumed sections (R56). -/
def State.build (s : State) (g : Stage) (i : Image) : State :=
  let flags := s.hdrRd g.addr 0x2A 2
  let image := { i with scratch := i.placeScratch.1 }
  let s1 := s.setLdr { s.ldr with
    state := .loaded, load := none, placing := false, image := image, segs := image.segRuns, swapCount := 0, locked := s.ldr.locked || bitAt flags 1
    deterministic := i.deterministic, signed := s.signedDigest g, chain := 0 }
  let ps := image.poolList
  let s2 := { s1 with pools := ps, ing := { s1.ing with ctxs := image.decCtxs s1.dev.part, engines := [] } }
  ((s2.initPools ps).residency).setScanPending (s.regBit .INGEST_CTRL 0 0 0)

/-- The load in progress ends refused. -/
def State.loadRefused (s : State) (e : LoadErr) : State :=
  (s.setLdr { s.ldr with state := .refused, load := none, placing := false }).imgFail e

/-! ## Load -/

/-- A load command (R55, R56, R64, R441). -/
def State.imgLoad (s : State) : State :=
  if s.dev.life = .recovery then s.loadRefused (loadErr s.dev.recovery noSec 0)
  else if s.loaderBusy then s.imgStatus Status.loaderBusy
  else if s.ldr.locked || s.ldr.state == .loaded then s.imgStatus Status.notPermitted
  else s.setLdr { s.ldr with state := .loading, load := some s.sampleJob }

/-- Whether the loader's registers answer: GLB is in service, and in recovery (R441). -/
def State.glbUp (s : State) : Bool := s.ready || s.dev.life == .recovery

/-- IMG_LOAD: 0x1 written to GLB_IMG_CTRL. -/
def execImgLoad (s : State) : Out := .next (s.when s.glbUp State.imgLoad)

/-- The checks of a load end (R56, R57): it is refused at the first that fails; else the new frame map is in force and
placement begins. `v` says which signatures verify. -/
def State.passLoad (s : State) (j : LoadJob) (v : Verdict) : State :=
  match s.checkImage j false v with
  | some e => s.loadRefused e
  | none =>
    let g := s.stageOf j false
    match s.buildMap g (s.parseBase g) with
    | .inl _ => s
    | .inr m => ((s.visit portFw j.addr j.len).remap g m).setLdr { s.ldr with placing := true }

/-- The placement of a load ends (R474), and with it the load. -/
def State.placeLoad (s : State) (j : LoadJob) : State :=
  let g := s.stageOf j false
  let i := s.parseBase g
  match s.placeAll g (g.dir.filter (·.placed)) with
  | (s1, some e) => s1.loadRefused e
  | (s1, none) => (s1.build g i).imgDone

/-- IMG_LOAD_COMPLETE: the load in progress ends; with `checks`, its checks end and its placement begins (log 94). It waits
while DRAM is stopped (R58). -/
def execImgLoadComplete (e : LoadEvent) (s : State) : Out :=
  .next (match s.ldr.load with
    | some j => s.when (!s.coolantHeld && s.dev.dramMode == .running) (fun s =>
        let s1 := if s.ldr.placing then s else s.passLoad j e.verdict
        if e.checks || !s1.ldr.placing then s1 else s1.placeLoad j)
    | none => s)

/-! ## Lock and unload -/

/-- A lock command (R63). -/
def State.imgLock (s : State) : State :=
  if s.ldr.state = .loaded then (s.setLdr { s.ldr with locked := true }).imgDone else s.imgStatus Status.lockWithoutImage

/-- IMG_LOCK: 0x2 written to GLB_IMG_CTRL. -/
def execImgLock (s : State) : Out := .next (s.when s.glbUp State.imgLock)

/-- Kill the cores of every context (R65). -/
def State.killAll (s : State) : List Nat → State
  | [] => s
  | c :: cs => State.killAll (s.killCores c (List.range 32)) cs

/-- An unload detaches rills without draining (R206). -/
def State.unloadRills (s : State) : List Nat → State
  | [] => s
  | r :: rs =>
    let x := s.rill r
    let s1 := s.dropRill r
    let s2 :=
      if x.st.active then
        ((s1.setRill r { (s1.rill r) with st := .detached, ctx := none }).statusRecord r).ingestEvent
          { status := 0, rill := r, kind := 8, ts := 0, index := x.entry, a := x.seq, b := 0, c := 0, d := 0 }
      else s1
    State.unloadRills (s2.clearRill r) rs

/-- What an unload takes away beside the rills (R65): commands, outputs, items, tracks, frames and pools. -/
def State.clearRun (s : State) : State :=
  { s with
    pools := []
    ing := { s.ing with rills := [], scanPending := false, ctxs := [], engines := [], frames := [] }
    trk := { TrackEng.reset with rings := s.trk.rings, storePeak := s.trk.storePeak }
    slu := { Sluice.reset with cores := s.slu.cores, basins := s.slu.basins }
    dram := { s.dram with windows := [] } }

/-- An unload command (R54, R55, R64, R65): in state 0 or 3 it has no effect but its status; while an image is locked it
ends as a failed command. -/
def State.imgUnload (s : State) : State :=
  if s.loaderBusy then s.imgStatus Status.loaderBusy
  else if s.ldr.state != .loaded then s.imgStatus Status.notPermitted
  else if s.ldr.locked then s.imgFail (loadErr Status.notPermitted noSec 0)
  else
    let s1 := ((s.killAll (s.slu.cmds.map (·.1))).unloadRills (s.ing.rills.map (·.1))).clearRun
    s1.setLdr { s1.ldr with state := .unloading }

/-- IMG_UNLOAD: 0x3 written to GLB_IMG_CTRL. -/
def execImgUnload (s : State) : Out := .next (s.when s.glbUp State.imgUnload)

/-- IMG_UNLOAD_COMPLETE: the unload in progress ends (R65). -/
def execImgUnloadComplete (s : State) : Out :=
  .next (s.when (s.ldr.state == .unloading) (fun s =>
    (s.setLdr { s.ldr with
      state := .empty, image := Image.empty, segs := [], deterministic := false, signed := 0, chain := 0 }).imgDone))

/-! ## Segment swaps -/

/-- Whether R67 refuses a switch time: none in deterministic mode, or one not later than every stamped frame. -/
def State.swapTooLate (s : State) (t : Nat) : Bool :=
  if t = 0 then s.deterministic
  else match s.ldr.lastStamp with
    | some u => decide (t ≤ u)
    | none => false

/-- A swap command (R55, R66, R67) is taken and checked; it places its sections at SWAP_COMPLETE. -/
def State.imgSwap (s : State) (v : Verdict) : State :=
  if s.loaderBusy then s.imgStatus Status.loaderBusy
  else if s.ldr.state != .loaded then s.imgStatus Status.notPermitted
  else
    let j := s.sampleJob
    if s.swapTooLate j.swapTime then s.imgFail (loadErr Status.swapTime noSec 0)
    else
      match s.checkImage j true v with
      | some e => s.imgFail e
      | none => s.setLdr { s.ldr with swap := some { j with seg := (s.stageOf j true).segOf } }

/-- IMG_SWAP: 0x4 written to GLB_IMG_CTRL. -/
def execImgSwap (v : Verdict) (s : State) : Out := .next (s.when s.glbUp (fun s => s.imgSwap v))

/-- A segment's record after a swap (R68, R71). -/
def SegRun.swapped (r : SegRun) (t count : Nat) (placed : List Placed) (fbs : List FbEntry) : SegRun :=
  { r with
    retiring := true, activeB := !r.activeB, epoch := count % 65536, switchT := t, switchCount := count, oldPlaced := r.placed
    oldFbs := r.fbs, placed := placed, fbs := if fbs = [] then r.fbs else fbs }

/-- The swap that passed its checks completes (R68, R72). A placement that stops ends it refused, with the old segment in
service. -/
def State.endSwap (s : State) (j : LoadJob) : State :=
  let g := s.stageOf j true
  match (s.visit portFw j.addr j.len).placeAll g (g.dir.filter (·.placed)) with
  | (s1, some e) => (s1.setLdr { s1.ldr with swap := none }).imgFail e
  | (s1, none) =>
    let n := s1.ldr.swapCount + 1
    let digest := s1.signedDigest g
    ((s1.setLdr { s1.ldr with
      swap := none, swapCount := n
      chain := Config.sha256 (leBytes 32 s1.ldr.chain.toNat ++ leBytes 32 digest.toNat)
      segs := updWhere (fun r => r.id = j.seg) (fun r => r.swapped j.swapTime n g.placed (s1.stagedFbs g)) s1.ldr.segs }).setScanPending
        (s1.regBit .INGEST_CTRL 0 0 0)).imgDone

/-- SWAP_COMPLETE: the swap in progress ends. -/
def execSwapComplete (s : State) : Out :=
  .next (match s.ldr.swap with
    | some j => s.when (!s.coolantHeld && s.dev.dramMode == .running) (fun s => s.endSwap j)
    | none => s)

/-- Where a context's frames may go next: its successors, and the fallbacks of its items. -/
def State.nextCtxs (s : State) (ctx : Nat) : List Nat :=
  ((s.ctxEntry ctx).map (·.succ)).getD [] ++ ((s.fbEntries ctx).1 ++ (s.fbEntries ctx).2).map (·.fallback)

/-- The contexts that frames at the contexts of a list may yet enter, in up to `k` steps. -/
def State.ahead (s : State) : Nat → List Nat → List Nat
  | 0, l => l
  | k + 1, l => State.ahead s k ((l.flatMap s.nextCtxs).foldl (fun a c => putOnce c a) l)

/-- Whether frames at a context may yet enter a context of a list. A way leads from a decode context over a pixel context,
a model context, its fallback and a track or copy context. -/
def State.leadsTo (s : State) (l : List Nat) (ctx : Nat) : Bool := (s.ahead 6 [ctx]).any l.contains

/-- The same for a rill, from the first context of its class. -/
def State.rillLeadsTo (s : State) (l : List Nat) (r : Nat) : Bool :=
  match s.rillClass (s.rill r).cls with
  | some k => s.leadsTo l k.firstCtx
  | none => true

/-- The frames, as (capture timestamp, swap count when stamped), that remain uncommitted in a context of a list (R71): access
units, pictures and frames of rills that lead there; flows whose track or copy command there is still to come; pixel
commands, crops and items bound for them. -/
def State.inFlight (s : State) (l : List Nat) : List (Nat × Nat) :=
  let au (a : AuJob) : Nat × Nat := (a.captureTs, a.stamp)
  let item (i : Item) : Nat × Nat := (i.captureTs, i.stamp)
  let into (c : Nat) : Bool := s.leadsTo l c
  let frame (r f : Nat) : List (Nat × Nat) :=
    (s.ing.frames.filter (fun x => x.rill = r && x.index = f)).map (fun x => (x.captureTs, x.stamp))
  (s.ing.rills.filter (fun r => s.rillLeadsTo l r.1)).flatMap (fun r => r.2.copies.map au) ++
    s.ing.ctxs.flatMap (fun c => ((c.2.queue ++ (c.2.held ++ c.2.pic.toList).map (·.au)).filter (fun a =>
      s.rillLeadsTo l a.rill)).map au) ++
    (s.trk.flows.filter (fun f => if f.started then f.ctxs.any l.contains else s.rillLeadsTo l f.rill)).map
      (fun f => (f.captureTs, f.stamp)) ++
    (s.trk.pxes.filter (fun p => l.contains p.2.ctx || p.2.marks.any (fun m => into m.1))).flatMap
      (fun p => frame p.2.rill p.2.frame) ++
    (s.trk.crops.filter (fun c => l.contains c.pixelCtx || into c.target)).flatMap (fun c => frame c.rill c.frame) ++
    (s.slu.ctxs.filter (fun c => into c.1)).flatMap (fun c => c.2.queue.map item ++ (match c.2.step with
      | some st => st.items.map item
      | none => []))

/-- Whether ingest has reached a switch time. -/
def State.switched (s : State) (t : Nat) : Bool :=
  t = 0 || (match s.ldr.lastStamp with
    | some u => t ≤ u
    | none => false)

/-- The contexts of a segment of the loaded base (R50). -/
def State.ctxsOfSeg (s : State) (seg : Nat) : List Nat :=
  ((s.ldr.image.segs.find? (fun e => e.id = seg)).map (·.ctxs)).getD []

/-- SEGMENT_RETIRE (R71): the old version of a segment retires when no frame under it remains uncommitted in a context of the
segment. -/
def execSegmentRetire (seg : Nat) (s : State) : Out :=
  .next (match s.ldr.segs.find? (fun r => r.id = seg) with
    | some r =>
      s.when (r.retiring && s.switched r.switchT && !(s.inFlight (s.ctxsOfSeg seg)).any (fun x => r.isOld x.1 x.2)) (fun s =>
        s.setLdr { s.ldr with
          segs := updWhere (fun x => x.id = seg) (fun x => { x with retiring := false, oldPlaced := [], oldFbs := [] }) s.ldr.segs })
    | none => s)

/-- A write of GLB_IMG_CTRL (R53): other values are ignored. The verdict of a swap is a free value. -/
def State.imgCtrl (s : State) (v : Nat) : State :=
  match v % 16 with
  | 1 => s.imgLoad
  | 2 => s.imgLock
  | 3 => s.imgUnload
  | 4 => State.imgSwap { s with freeIdx := s.freeIdx + 2 } s.freeVerdict
  | _ => s

end Sys2Proof.Machine
end

