-- ==== Sys2Proof/Machine/HostOps.lean ====
section
/-! DEFINITION. Function-level resets, VF enabling and D3hot (R59, R124, R205, R243, R265, R280, R305, R345, R398 to R404,
R413). -/

set_option Elab.async false

namespace Sys2Proof.Machine

/-! ## Start -/

/-- Sticky configuration bytes: AER's registers and PME's bits. -/
def stickyCfg (o : Nat) : Bool := (0x104 ≤ o && o < 0x148) || o == 0x45

/-- Configuration registers and shadows return to reset, and an FLR is in progress (R11, R398). -/
def FnState.flrStart (f : FnState) : FnState :=
  { f with cfg := SMap.keep f.cfg stickyCfg, readShadow := none, writeShadow := none, flr := .initiated }

/-- Start on one function, unless one is in progress there (R403). -/
def State.startFlr (s : State) (n : Nat) : State :=
  if (s.fn n).flr = .idle then s.setFn n (s.fn n).flrStart else s

def State.startFlrs (s : State) : List Nat → State
  | [] => s
  | n :: ns => State.startFlrs (s.startFlr n) ns

/-- The enabled VFs. -/
def State.liveVfs (s : State) : List Nat := (List.range 32).filter (fun n => n != 0 && s.fnEnabled n)

/-- VF Enable is cleared: every enabled VF goes through the sequence of Table 14.9 (R402). -/
def State.disableVfs (s : State) : State :=
  let vfs := s.liveVfs
  (s.putCfg 0 0x2A8 (s.cfgByte 0 0x2A8 &&& 0xFE#8)).startFlrs vfs

/-- A load in progress is abandoned (R59). -/
def State.abandonLoad (s : State) : State :=
  if s.ldr.load.isSome then s.loadRefused (loadErr Status.loadAbandoned noSec 0) else s

/-- Initiate Function Level Reset on a function that is enabled (R398, R401, R403). One of a VF during the PF's is absorbed
by it. -/
def State.flrInitiate (s : State) (n : Nat) : State :=
  if !s.fnEnabled n || (s.fn n).flr != .idle || (s.fn 0).flr != .idle then s
  else if n = 0 then ((s.disableVfs).startFlr 0).abandonLoad
  else s.startFlr n

/-- D0 to D3hot (R404): the sequence of Table 14.9, with the power state at D3hot. -/
def State.enterD3 (s : State) (n : Nat) : State :=
  (s.flrInitiate n).putCfg n 0x44 (((s.flrInitiate n).cfgByte n 0x44 &&& 0xFC#8) ||| 0x03#8)

/-! ## Silencing: commands, rills and pools -/

/-- The contexts of a function. -/
def State.ctxsOf (s : State) (n : Nat) : List CtxEntry := s.ldr.image.ctxs.filter (fun e => e.fn = n)

/-- Kill what a model or copy context runs and empty its queue (R305); its residency is unchanged. Its items count as skipped for
frames of other functions. -/
def State.discardCtx (s : State) (c : Nat) : State :=
  let s0 := match s.cmdRun c with
    | some r => s.closeRecs r.recs
    | none => s
  let s1 := (s0.killCores c (List.range 32)).dropCmdRun c
  let items := (match s.stepOf c with
    | some st => st.items
    | none => []) ++ (s.ctxRun c).queue
  let s2 := (s1.itemsGone c .fault items).updCtxRun c (fun x => { x with step := none, queue := [], fault := none })
  ((s2.dropCtxWindows c).endGroup c).yieldLanes ((s2.ctxRun c).holds)

def State.discardCtxs (s : State) : List CtxEntry → State
  | [] => s
  | e :: es => State.discardCtxs (if e.kind = 2 ∨ e.kind = 4 then s.discardCtx e.id else s) es

/-- The ready marks of a discarded pixel command are dropped (R243). -/
def State.dropMarks (s : State) : List (Nat × Item) → State
  | [] => s
  | (c, it) :: ms => State.dropMarks (s.itemGone c it .fault) ms

/-- Discard the pixel commands of contexts on a list of engines (R243). -/
def State.discardPxes (s : State) (ctxs : List Nat) : List (Nat × PxeRun) → State
  | [] => s
  | (p, r) :: rs =>
    State.discardPxes
      (if ctxs.contains r.ctx then
        (State.dropMarks { s with trk := { s.trk with pxes := SMap.erase s.trk.pxes p } } r.marks)
       else s) ctxs rs

/-- The crop requests of pixel contexts are dropped, and their embeddings lost (R243, R267). -/
def State.dropCrops (s : State) (ctxs : List Nat) : List CropReq → State
  | [] => s
  | r :: rs =>
    State.dropCrops
      (if ctxs.contains r.pixelCtx then
        State.embLose { s with trk := { s.trk with crops := dropFirst (fun x => x = r) s.trk.crops } } r.rill r.track r.frame
          Status.embeddingLost true
       else s) ctxs rs

/-- Whether a flow's track command is in progress (R400). -/
def State.flowRunning (s : State) (f : Flow) : Bool :=
  match (s.rillTrk f.rill).running with
  | some (_, frame, _) => frame = f.frame
  | none => false

/-- Whether the pixel command of a flow's frame waits in a pixel context of a list. -/
def State.flowWaitsAt (s : State) (ctxs : List Nat) (f : Flow) : Bool :=
  !f.started && (match s.rillClass (s.rill f.rill).cls with
    | some k => ctxs.contains k.firstCtx
    | none => false)

/-- Frames of a function's rills lead to no more records, and its pixel, track and copy contexts' ready queues are empty
(R305), but for a track command in progress (R400). -/
def State.dropFlows (s : State) (n : Nat) (ctxs : List Nat) : State :=
  { s with trk := { s.trk with
      flows := (s.trk.flows.filter (fun f => s.flowRunning f || !(f.fn = n || s.flowWaitsAt ctxs f))).map (fun f =>
        { f with ctxs := f.ctxs.filter (fun c => !ctxs.contains c || s.flowRunning f) }) } }

/-- Detach the rills of a list without draining (R205): no record is written for them. -/
def State.dropRills (s : State) : List Nat → State
  | [] => s
  | r :: rs => State.dropRills ((s.dropRill r).clearRill r) rs

/-- The rills of a function that are not detached. -/
def State.rillsOf (s : State) (n : Nat) : List Nat :=
  (s.ing.rills.filter (fun x => x.2.fn = n && x.2.st != .detached)).map (·.1)

/-- The decoded frames of a function's rills go, with their buffers, and so do its rills' tracks where no track command runs
(R205, R265). -/
def State.dropFrames (s : State) : List Frame → State
  | [] => s
  | f :: fs =>
    State.dropFrames
      (State.release { s with ing := { s.ing with
        frames := dropFirst (fun x => x.rill = f.rill && x.index = f.index) s.ing.frames } } f.handle (s.rill f.rill).fn) fs

/-- Free the tracks of the rills of a list, without records (R265). -/
def State.dropTracks (s : State) : List Nat → State
  | [] => s
  | r :: rs => State.dropTracks (if (s.rillTrk r).running.isSome then s else s.freeTracks r) rs

/-- Every pool of a function begins to be reinitialised (R345). -/
def State.reinitPools (s : State) (n : Nat) : State :=
  { s with pools := s.pools.map (fun p => if p.owner = n then { p with reinit := true } else p) }

/-- The DMA of a function is silenced: its commands are killed, its rills detached, and its pools begin to be reinitialised
(R124, R205, R243, R305, R345, R398). -/
def State.silence (s : State) (n : Nat) : State :=
  let es := s.ctxsOf n
  let ids := es.map (·.id)
  let rs := s.rillsOf n
  let s1 := ((s.discardCtxs es).discardPxes ids s.trk.pxes).dropCrops ids s.trk.crops
  let s2 := ((s1.dropFlows n ids).dropRills rs).dropTracks rs
  let s3 := s2.dropFrames (s2.ing.frames.filter (fun f => rs.contains f.rill))
  ((s3.reinitPools n).setFn n { s3.fn n with flr := .silenced }).settle.schedule

/-! ## End -/

/-- The rills that a function's tracks belong to. -/
def State.tracksOf (s : State) (n : Nat) : List Nat := (s.trk.tracks.filter (fun t => (s.rill t.rill).fn = n)).map (·.rill)

/-- Whether a track command of a rill of the function is in progress (R265). -/
def State.trackBusy (s : State) (n : Nat) : Bool :=
  s.trk.perRill.any (fun x => x.2.running.isSome && (s.rill x.1).fn == n)

/-- Pending state of the sources mapped to a function (R413): an edge-mode source's bit clears, a level-mode source is
marked delivered. -/
def State.clearSources (s : State) (n : Nat) : List Nat → State
  | [] => s
  | i :: is =>
    State.clearSources
      (if s.srcFn i ≠ n then s
       else if s.srcMode i = 0 then { s with icu := { s.icu with delivered := putBit s.icu.delivered i true } }
       else { s with icu := { s.icu with pend := putBit s.icu.pend i false } }) n is

/-- A register returns to its reset value. -/
def State.resetReg (s : State) (r : Reg) (u i : Nat) : State := s.setReg r u i (regDefault (regOff r u i))

/-- The registers of ring `n` (R280). -/
def State.resetRing (s : State) (n : Nat) : State :=
  ((((s.resetReg .TRK_RING_ADDR n 0).resetReg .TRK_RING_ENTRIES n 0).resetReg .TRK_RING_CTRL n 0).resetReg .TRK_RING_LOST n
    0).setRing n Ring.reset

/-- The HEP_SRC_VEC entries mapped to the PF (R401). -/
def State.resetVecs (s : State) : List Nat → State
  | [] => s
  | i :: is => State.resetVecs (if s.srcFn i = 0 then s.resetReg .HEP_SRC_VEC 0 i else s) is

/-- Whether the sequence of Table 14.9 can complete on a function: it is silenced, DRAM is in service (R403), no track
command of it runs (R265) and its pools are reinitialised (R345). -/
def State.flrCanEnd (s : State) (n : Nat) : Bool :=
  (s.fn n).flr == .silenced && !s.coolantHeld && !s.trackBusy n && s.pools.all (fun p => p.owner != n || !p.reinit)

/-- The sequence completes (R398, R401). -/
def State.flrEnd (s : State) (n : Nat) : State :=
  let s1 := (((s.dropFlows n ((s.ctxsOf n).map (·.id))).dropTracks (s.tracksOf n)).resetRing n).clearSources n (List.range 512)
  let s2 := if n = 0 then s1.resetVecs (List.range 512) else s1
  (s2.setFn n { s2.fn n with msix := [], pba := [], flr := .idle }).count .HEP_CNT_FLR 0

end Sys2Proof.Machine
end

