-- ==== Sys2Proof/Machine/CoolantCmds.lean ====
section
/-! DEFINITION. Leaving coolant stop (R374, R375): its conditions, the restart of the clusters, and the commands RESUME and
AUTO_RESUME. -/

set_option Elab.async false

namespace Sys2Proof.Machine

/-- The conditions of R374 for leaving. -/
def State.mayResume (s : State) : Bool :=
  s.weir.coolant == .stopped && !s.dev.pins.flowLost &&
    (match s.weir.flowReleasedNs with
     | some t => t + s.regNat .WEIR_FLOW_HOLD_MS 0 0 * 1000000 ≤ s.dev.aoNs
     | none => false) && s.hottest < s.regNat .WEIR_RESUME_C 0 0

/-- Clusters restart at point 0, but for those that a brake or a thermal limit still stops (R374, R375). -/
def State.restartClusters (s : State) : List Nat → State
  | [] => s
  | n :: ns =>
    let c := s.clPwr n
    State.restartClusters
      ((s.setClPwr n { c with point := 0, want := none, stopped := s.weir.brake || c.thermPt == 0 }).takeKills n (coresOf n))
      ns

/-- Slice and residency timers pause in a coolant stop (R298): their times move by its length. -/
def State.resumeTimers (s : State) (d : Nat) : State :=
  { s with slu := { s.slu with
      slices := s.slu.slices.map (fun x => (x.1, x.2 + d)),
      ctxs := s.slu.ctxs.map (fun x =>
        (x.1, { x.2 with residentNs := x.2.residentNs.map (fun y => (y.1, y.2 + d)) })) } }

/-- Leaving coolant stop (R374): DRAM runs, the rail returns, the clusters restart, the paused ports and Sluice resume. DRAM's
exit from self-refresh is not shown as a state of its own (log 101). -/
def State.leaveCoolant (s : State) : State :=
  let s0 := s.resumeTimers (s.nowNs - s.weir.coolantNs)
  let s1 := (s0.setDramMode .running).setCoolant .none
  State.schedule ((s1.setRail (s1.needMv 0)).restartClusters s1.clusters).releasePorts

/-- A resume written to WEIR_CMD (R374). Outside a coolant stop there is nothing to leave. -/
def State.resumeCmd (s : State) : State :=
  if s.mayResume then s.leaveCoolant
  else s.when (s.coolantHeld || s.dev.pins.flowLost) (fun s => s.powerStatus Status.resumeIgnored)

/-- RESUME (R374). -/
def execResume (s : State) : Out := .next s.resumeCmd

/-- AUTO_RESUME (R374). -/
def execAutoResume (s : State) : Out :=
  .next (s.when (s.regBit .WEIR_CTRL 0 0 1 && s.mayResume) State.leaveCoolant)

end Sys2Proof.Machine
end

