-- ==== Sys2Proof/Machine/IcuCmds.lean ====
section
/-! DEFINITION. The ICU's and AOW's commands: edges, deliveries, hold-off, watch slots, watchdogs (R406 to R416, R427). -/

set_option Elab.async false

namespace Sys2Proof.Machine

/-- Whether Table 15.1 lists a source, for a part (R406): every other source's condition is always 0. -/
def sourceExists (p : Part) (i : Nat) : Bool :=
  (i < 64 && i != 19) || (64 ≤ i && i < 96 && corePresent p (i - 64))

/-- SOURCE_EDGE (R407): the condition of a source becomes `rise`. -/
def execSourceEdge (src : Nat) (rise : Bool) (s : State) : Out :=
  .next (s.when (sourceExists s.dev.part src) (fun s => s.edge src rise))

/-- The sources of a group that are candidates and can be sent, ascending (R409). -/
def State.groupSendable (s : State) (g : Nat) : List Nat :=
  ((List.range 16).map (fun k => 16 * g + k)).filter s.sendable

/-- Hand over one message (R409): an edge-mode source's pending bit clears, a level-mode source is marked delivered. -/
def State.handOver (s : State) (i : Nat) : State :=
  let s1 := s.message (s.srcFn i) (s.srcVec i)
  if s.srcMode i = 0 then { s1 with icu := { s1.icu with delivered := putBit s1.icu.delivered i true } }
  else { s1 with icu := { s1.icu with pend := putBit s1.icu.pend i false } }

/-- Hand over the messages of a list of sources. -/
def State.handOverAll (s : State) : List Nat → State
  | [] => s
  | i :: is => State.handOverAll (s.handOver i) is

/-- Whether a group delivers (R409, R411). -/
def State.delivers (s : State) (g : Nat) : Bool :=
  g < 32 && s.clocked && s.regBit .ICU_CTRL 0 0 0 && SMap.get (fun _ => 0) s.icu.timers g = 0 && s.groupSendable g != []

/-- GROUP_DELIVERY (R409, R410): one message per candidate, and the hold-off timer is loaded. -/
def execGroupDelivery (g : Nat) (s : State) : Out :=
  .next (s.when (s.delivers g) (fun s =>
    let s1 := s.handOverAll (s.groupSendable g)
    let s2 := { s1 with icu := { s1.icu with
      timers := SMap.set (fun _ => 0) s1.icu.timers g (s1.regNat .ICU_HOLDOFF 0 g * 500) } }
    s2.updReg .ICU_GRP_CNT 0 g (fun v => if v = 0xFFFFFFFF#64 then v else v + 1)))

/-- HOLDOFF_EXPIRE (R410, R408): the timer reads 0, and a level-mode source whose condition is still 1 becomes a
candidate again. -/
def execHoldoffExpire (g : Nat) (s : State) : Out :=
  .next (s.when (s.clocked && SMap.get (fun _ => 0) s.icu.timers g != 0) (fun s =>
    { s with icu := { s.icu with
        timers := SMap.set (fun _ => 0) s.icu.timers g 0
        delivered := s.icu.delivered &&& ~~~(0xFFFF#512 <<< (16 * g)) } }))

/-- The source, level mode and valid bit of a watch slot (R432). -/
def State.watchSource (s : State) (k : Nat) : Nat := field (s.regNat .AOW_WATCH 0 k) 0 9
def State.watchLevel (s : State) (k : Nat) : Bool := s.regBit .AOW_WATCH 0 k 9
def State.watchValid (s : State) (k : Nat) : Bool := s.regBit .AOW_WATCH 0 k 15

/-- Whether the AO domain runs (R459). -/
def State.aoLive (s : State) : Bool := s.dev.life != .noAux && s.dev.life != .auxReset

/-- Whether slot `k` can match: a valid slot whose source's condition AOW sees (R414). In rising mode the command is
the edge itself, which for an event source is over within a step. -/
def State.slotMatches (s : State) (k : Nat) : Bool :=
  k < 32 && s.aoLive && s.watchValid k && sourceExists s.dev.part (s.watchSource k) &&
    (s.clocked || aoCapable (s.watchSource k)) && (!s.watchLevel k || s.icu.cond.getLsbD (s.watchSource k))

/-- AOW_MATCH (R414, R415): the hit bit, and WAKE_N in standby with AOW enabled. -/
def execAowMatch (slot : Nat) (s : State) : Out :=
  .next (s.when (s.slotMatches slot) (fun s =>
    let s1 := s.updReg .AOW_HIT 0 0 (fun v => putBit v slot true)
    if s.dev.life = .standby ∧ s.regBit .AOW_CTRL 0 0 0 then
      { s1 with dev := { s1.dev with pins := { s1.dev.pins with wake := true } } }
    else s1))

/-- AOW_TIMER_EXPIRE (R416): the timer reaches 0 in standby and raises source 16. -/
def execAowTimerExpire (s : State) : Out :=
  .next (s.when (s.dev.life == .standby && s.regNat .AOW_TIMER_MS 0 0 != 0) (fun s =>
    (s.setReg .AOW_TIMER_MS 0 0 0).raise 16))

/-- The unit and index by which the log names a processor (Table 15.4). -/
def processorUnit : Processor → Nat × Nat
  | .sage => (unitSage, 0)
  | .sluice => (unitSluice, 0)
  | .weir => (unitWeir, 0)
  | .track => (unitTrk, 0)
  | .decoder n => (unitDec, n)

/-- Whether a processor is one that the ICU watches (R427). -/
def processorWatched (p : Part) : Processor → Bool
  | .decoder n => decPresent p n
  | .track => trkPresent p
  | _ => true

/-- WATCHDOG_EXPIRE (R427). -/
def execWatchdogExpire (p : Processor) (s : State) : Out :=
  .next (s.when (s.clocked && processorWatched s.dev.part p) (fun s =>
    (s.elog Status.watchdog (processorUnit p).1 (processorUnit p).2 noCtx noFn 0).advise 2))

end Sys2Proof.Machine
end

