-- ==== Sys2Proof/Machine/ThymeCmds.lean ====
section
/-! DEFINITION. Thyme's commands: the counter, alarms, the TSYNC cascade and snapshots (R417 to R426). -/

set_option Elab.async false

namespace Sys2Proof.Machine

def State.setThy (s : State) (t : Thyme) : State := { s with thy := t }

/-- Load the counter (R417): on a master only. -/
def State.thymeLoad (s : State) (v : W64) : State :=
  s.when (s.clocked && s.dev.role) (fun s => s.setThy { s.thy with now := v })

/-- THYME_SET (R417). -/
def execThymeSet (val : W64) (s : State) : Out := .next (s.thymeLoad val)

/-- The alarm value after one that has fired, with a period of `p` ns: the first that is not passed (R418). -/
def nextAlarm (a now p : Nat) : Nat := a + p * ((now - a) / p + 1)

/-- Whether alarm `k` is reached (R418). -/
def State.alarmDue (s : State) (k : Nat) : Bool :=
  k < 4 && s.clocked && s.regBit .THYME_ALARM_CTRL 0 k 0 && s.regNat .THYME_ALARM 0 k ≤ s.nowNs

/-- The period of alarm `k` in ns. -/
def State.alarmPeriod (s : State) (k : Nat) : Nat := field (s.regNat .THYME_ALARM_CTRL 0 k) 1 31 * 1000

/-- ALARM_FIRE (R418). -/
def execAlarmFire (k : Nat) (s : State) : Out :=
  .next (s.when (s.alarmDue k) (fun s =>
    let p := s.alarmPeriod k
    let s1 :=
      if p = 0 then s.updReg .THYME_ALARM_CTRL 0 k (fun v => putBit v 0 false)
      else s.setReg .THYME_ALARM 0 k (BitVec.ofNat 64 (nextAlarm (s.regNat .THYME_ALARM 0 k) s.nowNs p))
    s1.raise (20 + k)))

/-! ## TSYNC -/

/-- One bit of CRC-8 with polynomial 0x07 (R419). -/
def crc8Bit (c : Byte) : Byte := if c.getLsbD 7 then (c <<< 1) ^^^ 0x07#8 else c <<< 1

def crc8Bits : Nat → Byte → Byte
  | 0, c => c
  | n + 1, c => crc8Bits n (crc8Bit c)

/-- CRC-8 over bytes, initial value 0x00 (R419). -/
def crc8 : Byte → List Byte → Byte
  | c, [] => c
  | c, b :: bs => crc8 (crc8Bits 8 (c ^^^ b)) bs

/-- The frame of the instant `t` (R419). The eight bytes of T are taken least significant first (R14). -/
def tsyncBits (t : Nat) : BitVec 80 :=
  BitVec.ofNat 80 (0xA5 + 256 * (t % 2 ^ 64) + 2 ^ 72 * (crc8 0 (leBytes 8 t)).toNat)

/-- TSYNC_FRAME_SEND (R419): a master sends the frame of the multiple of 1,000,000 ns that its counter has passed. -/
def execTsyncFrameSend (s : State) : Out :=
  .next (s.when (s.clocked && s.dev.role) (fun s => s.send (.tsyncFrame (tsyncBits (s.nowNs / 1000000 * 1000000)))))

/-- T of a frame. -/
def frameT (bits : BitVec 80) : Nat := field bits.toNat 8 64

/-- Whether sync value, CRC and the multiple of 1,000,000 ns are right (R420). -/
def frameSound (bits : BitVec 80) : Bool :=
  field bits.toNat 0 8 == 0xA5 && (crc8 0 (leBytes 8 (frameT bits))).toNat == field bits.toNat 72 8 &&
    frameT bits % 1000000 == 0

/-- The interval test of R420. `prev` is the last valid frame, edges on one scale of TIME cycles. -/
def intervalOk (prev : Option (Nat × Nat)) (t edge : Nat) : Bool :=
  match prev with
  | none => true
  | some (tp, ep) =>
    4000000 ≤ edge - ep ||
      (tp < t && ((edge : Int) - ep - ((t : Int) - tp)).natAbs ≤ 1000)

/-- Rounding to a multiple of 10 ns (R421): to the nearest, halves away from zero. -/
def round10 (v : Int) : Int := if 0 ≤ v then (v + 5) / 10 * 10 else -((-v + 5) / 10 * 10)

/-- Source 8: 1 on a follower that is not locked (R421). -/
def State.lockEdge (s : State) : State := s.edge 8 (!s.dev.role && s.thy.lock != .locked)

/-- A loss of lock: log entry 0x9020 and THYME_CNT_UNLOCK (R421). -/
def State.lockLost (s : State) (l : Lock) : State :=
  let s1 := s.setThy { s.thy with lock := l, good := 0 }
  ((s1.count .THYME_CNT_UNLOCK 0).elog Status.unlocked unitThyme 0 noCtx noFn (BitVec.ofInt 64 s1.thy.offset)).lockEdge

/-- A step (R421): the recorded edge moves with the counter, so that steps do not affect intervals (R420). -/
def State.timeStep (s : State) (off : Int) : State :=
  let d := round10 off
  let s1 := s.setThy { s.thy with
    now := s.thy.now + BitVec.ofInt 64 d
    prev := s.thy.prev.map (fun x => (x.1, ((x.2 : Int) + d).toNat)) }
  (s1.count .THYME_CNT_STEP 0).elog Status.stepped unitThyme 0 noCtx noFn (BitVec.ofInt 64 off)

/-- A trim (R421): some value within 250 ppm, a free value. -/
def State.trim (s : State) : State :=
  let v : Int := ((Config.freeValue s.freeIdx % 500001 : Nat) : Int) - 250000
  { s with freeIdx := s.freeIdx + 1, thy := { s.thy with trimPpb := v } }

/-- The acquiring state's behaviour on a valid frame (Table 15.3). -/
def State.acquire (s : State) (off : Int) : State :=
  let good := if off.natAbs ≤ 20 then s.thy.good + 1 else 0
  let s1 := if 1000 < off.natAbs then s.timeStep off else s.trim
  if 8 ≤ good then State.lockEdge (s1.setThy { s1.thy with lock := .locked, good := 0 })
  else s1.setThy { s1.thy with good := good }

/-- A valid frame's effect by lock state (Table 15.3). The frame that leads to state 1 is handled as state 1 handles
it. -/
def State.lockFrame (s : State) (off : Int) : State :=
  match s.thy.lock with
  | .free => State.acquire (s.setThy { s.thy with lock := .acquiring, good := 0 }) off
  | .acquiring => s.acquire off
  | .locked => if 100 < off.natAbs then (s.lockLost .acquiring).acquire off else s.trim
  | .holdover => State.acquire (s.setThy { s.thy with lock := .acquiring, good := 0 }) off

/-- TSYNC_FRAME_RECEIVE (R419, R420, R421): `edgeNs` is the local counter at the frame's edge. A follower repeats what
it receives. -/
def execTsyncFrameReceive (edgeNs : Nat) (bits : BitVec 80) (s : State) : Out :=
  .next (s.when (s.clocked && !s.dev.role) (fun s =>
    let s0 := s.send (.tsyncFrame bits)
    if frameSound bits && intervalOk s.thy.prev (frameT bits) edgeNs then
      let off : Int := (frameT bits : Int) + s.regNat .THYME_DELAY_NS 0 0 - edgeNs
      let s1 := s0.setThy { s0.thy with offset := off, prev := some (frameT bits, edgeNs) }
      (s1.addTo .THYME_CNT_FRAME 0 1).lockFrame off
    else s0.count .THYME_CNT_BADFRAME 0))

/-- TSYNC_TIMEOUT (R420, R421): no valid frame for 4 ms. -/
def execTsyncTimeout (s : State) : Out :=
  .next (s.when (s.clocked && !s.dev.role) (fun s =>
    let s1 := s.setThy { s.thy with prev := none, good := 0 }
    if s.thy.lock = .locked then s1.lockLost .holdover else s1))

/-! ## Snapshots -/

/-- A write to THYME_SNAP_CTRL: bit 0 at 1 causes a snapshot (R423, R433). -/
def State.snapNow (s : State) : State := s.when s.clocked (fun s => s.snapshot 0 s.thy.now)

/-- SNAPSHOT_NOW (R423). -/
def execSnapshotNow (s : State) : Out := .next s.snapNow

/-- SNAP_IN_EDGE (R406, R423): source 18, and a snapshot where that cause is enabled. The lowest-numbered cause of one
cycle is recorded. -/
def execSnapInEdge (s : State) : Out :=
  .next (if s.clocked && s.regBit .THYME_SNAP_CFG 0 0 0 then (s.raiseQuiet 18).snapshot 1 s.thy.now else s.raise 18)

/-- SNAPSHOT_TIME_MATCH (R423): S is THYME_SNAP_AT, and the enable clears. -/
def execSnapshotTimeMatch (s : State) : Out :=
  .next (s.when (s.clocked && s.regBit .THYME_SNAP_CFG 0 0 1 && s.regNat .THYME_SNAP_AT 0 0 ≤ s.nowNs) (fun s =>
    (s.snapshot 2 (s.reg .THYME_SNAP_AT 0 0)).updReg .THYME_SNAP_CFG 0 0 (fun v => putBit v 1 false)))

/-- SNAPSHOT_COMPLETE (R426). -/
def execSnapshotComplete (s : State) : Out :=
  .next (s.when s.thy.snapBusy (fun s => State.raise (s.setThy { s.thy with snapBusy := false }) 7))

end Sys2Proof.Machine
end

