-- ==== Sys2Proof/Machine/RegCmds.lean ====
section
/-! DEFINITION. Register accesses: what a function's BAR0 holds (R5, R31, R386, R441), access types (R6 to R9), words of
64-bit registers (R10, R11), ranges (R12), and the actions of registers that trigger something. -/

set_option Elab.async false

namespace Sys2Proof.Machine

/-! ## What a function reaches -/

/-- The register at an offset of a VF's BAR0 (R386): Table 0.2, its own metadata ring and CISTERN_HOST_FREE. -/
def vfReg (fn off : Nat) : Option RegLoc :=
  if off < 0x10000 then
    (regAt off).filter (fun l => l.row.name == .GLB_ID || l.row.name == .GLB_ID_CHECK || l.row.name == .GLB_CAP_UNITS)
  else if 0x20000 ≤ off ∧ off < 0x20020 then regAt (0x0E00000 + 32 * fn + (off - 0x20000))
  else if 0x30008 ≤ off ∧ off < 0x30010 then regAt (0x0700008 + (off - 0x30008))
  else none

/-- Whether a block responds: in recovery only GLB, HEP, SAGE and ODROV do (R441). -/
def State.blockUp (s : State) (b : Block) : Bool :=
  s.dev.life != .recovery || b == .glb || b == .hep || b == .sage || b == .odrov

/-- The register that a function reaches at an offset of its BAR0; none in reserved space and in that of an absent unit
(R5). -/
def State.fnReg (s : State) (fn off : Nat) : Option RegLoc :=
  (if fn = 0 then regAt off else vfReg fn off).filter (fun l =>
    blockPresent s.dev.part l.row.blk l.unit && s.blockUp l.row.blk)

/-- Whether a function's registers can be reached at all (R396, R402). -/
def State.barUp (s : State) (fn : Nat) : Bool := s.glbUp && s.fnEnabled fn

/-! ## Values that a write stores (R12) -/

/-- The largest power of two that is at most `v`, among `k` doublings of `a`. -/
def powUpTo (v : Nat) : Nat → Nat → Nat
  | 0, a => a
  | k + 1, a => if 2 * a ≤ v then powUpTo v k (2 * a) else a

/-- A field whose values are 0 or a power of two from `lo` to 2 ^ `k` x `lo`. -/
def powIn (lo k v : Nat) : Nat := if v < lo then 0 else powUpTo v k lo

/-- A value taken into a range. -/
def clampNat (lo hi v : Nat) : Nat := max lo (min hi v)

/-- The value that a register takes for a written one (R12, and the tables' own treatments; R379: a WEIR_CAP_MW above
the sprint maximum is taken as no cap). -/
def takenAs (p : Part) (r : Reg) (v : Nat) : Nat :=
  match r with
  | .INGEST_REG_COUNT => min 512 v
  | .INGEST_SCAN_MS => min 10000 v
  | .INGEST_EVT_ENTRIES => powIn 64 10 v
  | .INGEST_SAT_PCT => clampNat 50 100 v
  | .DEC_QUANTUM_US => clampNat 50 1000 v
  | .TRK_RING_ENTRIES => powIn 64 14 v
  | .DMC_ADV_MISMATCH => max 1 v
  | .DMC_ADV_POISON => max 1 v
  | .DMC_RECAL_LIMIT_US => if 1000 ≤ v ∧ v ≤ 10000 then v else 10000
  | .DMC_DRIFT_C => clampNat 1 100 v
  | .WEIR_CAP_MW => if sprintMaxMw p < v then 0 else v
  | .WEIR_TJ_LIMIT => if 70 ≤ v ∧ v ≤ 105 then v else 105
  | .WEIR_RESUME_C => clampNat 40 95 v
  | .WEIR_FLOW_HOLD_MS => clampNat 10 60000 v
  | .WEIR_GATE_US => clampNat 10 100000 v
  | .WEIR_DROOP_MV => clampNat 20 100 v
  | .ICU_ELOG_MERGE_MS => min 60000 v
  | .ICU_ADV_PARITY => max 1 v
  | .THYME_DELAY_NS => min 2000 v
  | _ => v

/-! ## Effects of a stored value -/

/-- The edges of the software sources 24 to 31 (R431): those whose condition the write changes. -/
def State.softEdges (s : State) (old new : Nat) : List Nat → State
  | [] => s
  | k :: ks => State.softEdges (if bitAt old k = bitAt new k then s else s.edge (24 + k) (bitAt new k)) old new ks

/-- What changes with a stored register beside its value. -/
def State.afterStore (s : State) (l : RegLoc) (old new : Nat) : State :=
  match l.row.name with
  | .ICU_SRC_CFG =>
    if field old 1 2 = field new 1 2 then s else { s with icu := { s.icu with pend := putBit s.icu.pend l.idx false } }
  | .ICU_SW => s.softEdges old new (List.range 8)
  | .WEIR_CTRL => s.sprintCheck.settleRail
  | .WEIR_PHASE_SEL => s.sprintCheck
  | .WEIR_PHASE => s.sprintCheck
  | .WEIR_CAP_MW => s.sprintCheck
  | .WEIR_CL_FMAX => s.sprintCheck
  | .DMC_ADV_MISMATCH => s.adviseAll l.unit (List.range 32)
  | .DMC_ADV_POISON => s.adviseAll l.unit (List.range 32)
  | .ICU_ADV_PARITY => s.when ((List.range 32).any (fun n => decide (new ≤ (s.core n).parity))) (fun s => s.advise 1)
  | .INGEST_CTRL => s.when (!bitAt old 0 && bitAt new 0 && s.imageLoaded) (fun s => s.setScanPending true)
  | .INGEST_EVT_ADDR => s.when (old != new) (fun s => s.setEvt { s.ing.evt with restart := true })
  | .INGEST_EVT_ENTRIES => s.when (old != new) (fun s => s.setEvt { s.ing.evt with restart := true })
  | .TRK_RING_ADDR => s.when (old != new) (fun s => s.setRing l.unit { s.ring l.unit with restart := true })
  | .TRK_RING_ENTRIES => s.when (old != new) (fun s => s.setRing l.unit { s.ring l.unit with restart := true })
  | _ => s

/-- A written point above 7 is taken as 7 (R379): that of WEIR_CL_FMAX is the whole value, that of WEIR_PHASE lies in [3:0]. -/
def pointAs (r : Reg) (v : Nat) : Nat :=
  match r with
  | .WEIR_CL_FMAX => min 7 v
  | .WEIR_PHASE => if bitAt v 3 then v / 8 * 8 + 7 else v
  | _ => v

/-- Store a value in a register that keeps one. -/
def State.store (s : State) (l : RegLoc) (v : W64) : State :=
  if isDelay l then s.writeDelay l v
  else
    let old := (s.reg l.row.name l.unit l.idx).toNat
    let new := takenAs s.dev.part l.row.name
      (BitVec.ofNat 64 (pointAs l.row.name v.toNat) &&& BitVec.ofNat 64 l.row.mask).toNat
    (s.setReg l.row.name l.unit l.idx (BitVec.ofNat 64 new)).afterStore l old new

/-! ## Write-only registers -/

/-- The action that a write to a write-only register triggers. -/
def State.trigger (s : State) (fn : Nat) (l : RegLoc) (v : W64) : State :=
  match l.row.name with
  | .GLB_IMG_CTRL => s.imgCtrl v.toNat
  | .THYME_SET => s.thymeLoad v
  | .THYME_SNAP_CTRL => s.when (bitAt v.toNat 0) State.snapNow
  | .WEIR_CMD => s.when (v.toNat % 4 == 1) State.resumeCmd
  | .SAGE_MBOX_CMD => s.mboxWrite v.toNat
  | .CISTERN_HOST_FREE => s.hostFree fn v
  | .DMC_RECAL_CTRL => s.recalCtrl l.unit v.toNat
  | .DMC_TRAIN_CTRL => s.trainCtrl l.unit v.toNat
  | _ => s

/-! ## Writes -/

/-- The bits of a W1C write that clear something: a level-mode source's pending bit is its condition (R407). -/
def State.clearable (s : State) (l : RegLoc) (v : W64) : W64 :=
  if l.row.name = .ICU_PEND then BitVec.ofNat 64 (bitsOf 16 (fun k => v.getLsbD k && s.srcMode (16 * l.idx + k) != 0)) else v

/-- A write of 1s to a W1C register; `hw` are the bits that hardware sets in the same cycle (R6, R7). -/
def State.clearBits (s : State) (l : RegLoc) (v hw : W64) : State :=
  let m := BitVec.ofNat 64 l.row.mask
  if l.row.name = .ICU_PEND then
    let c : BitVec 512 := (s.clearable l v &&& m).setWidth 512 <<< (16 * l.idx)
    { s with icu := { s.icu with pend := (s.icu.pend &&& ~~~c) ||| ((hw &&& m).setWidth 512 <<< (16 * l.idx)) } }
  else s.updReg l.row.name l.unit l.idx (fun x => (x &&& ~~~(v &&& m)) ||| (hw &&& m))

/-- A write of a whole register, by its access type (R6, R9, R12). -/
def State.writeReg (s : State) (fn : Nat) (l : RegLoc) (v hw : W64) : State :=
  match l.row.acc with
  | .ro => s
  | .rc => s
  | .wo => s.trigger fn l v
  | .w1c => s.clearBits l v hw
  | .w1s => s.store l (s.reg l.row.name l.unit l.idx ||| v)
  | .rw => s.store l v
  | .rwl => if s.ldr.locked then s else s.store l v

/-- A 32-bit write of a low word (R11): no register changes. -/
def State.writeLow (s : State) (fn : Nat) (l : RegLoc) (v : W32) : State :=
  s.setFn fn { s.fn fn with writeShadow := some (l.off, v) }

/-- The low word that a write of a high word takes (R11). -/
def FnState.shadowLow (f : FnState) (off : Nat) : W32 :=
  match f.writeShadow with
  | some (o, v) => if o = off then v else 0
  | none => 0

/-- A 32-bit write of a high word (R11). -/
def State.writeHigh (s : State) (fn : Nat) (l : RegLoc) (v : W32) : State :=
  s.writeReg fn l ((v.setWidth 64 <<< 32) ||| ((s.fn fn).shadowLow l.off).setWidth 64) 0

/-- A 32-bit write to an offset of a function's BAR0. -/
def State.write32 (s : State) (fn off : Nat) (v : W32) : State :=
  match s.fnReg fn off with
  | none => s
  | some l =>
    if !l.row.wide then s.writeReg fn l (v.setWidth 64) 0
    else if l.high then s.writeHigh fn l v
    else s.writeLow fn l v

/-- A 64-bit write: to a 64-bit register whole, else to the two words. -/
def State.write64 (s : State) (fn off : Nat) (v : W64) : State :=
  match s.fnReg fn off with
  | some l =>
    if l.row.wide && !l.high then s.writeReg fn l v 0
    else (s.write32 fn off (v.setWidth 32)).write32 fn (off + 4) ((v >>> 32).setWidth 32)
  | none => (s.write32 fn off (v.setWidth 32)).write32 fn (off + 4) ((v >>> 32).setWidth 32)

/-! ## Reads -/

/-- What an RC register holds after a read: the events of the same cycle (R8), or for a least or greatest value the current
one. -/
def State.rcClear (s : State) (l : RegLoc) (event : W64) : State :=
  match l.row.name with
  | .CISTERN_POOL_MIN =>
    (match s.pool l.idx with
     | some p => s.setPool { p with lowest := p.free }
     | none => s)
  | .CISTERN_POOL_FAIL =>
    (match s.pool l.idx with
     | some p => s.setPool { p with fails := event.toNat % 2 ^ 32 }
     | none => s)
  | .TRK_STORE_PEAK => { s with trk := { s.trk with storePeak := s.trk.tracks.length } }
  | .TC_FAULT =>
    let s1 := s.setReg .TC_FAULT l.unit 0 (event &&& 0x3FFFFF#64)
    if (s.core l.unit).st == .halted then s1.updCore l.unit (fun c => { c with st := .idle }) else s1
  | _ => s.setReg l.row.name l.unit l.idx (event &&& BitVec.ofNat 64 l.row.mask)

/-- A read of a whole register. -/
def State.readWhole (s : State) (l : RegLoc) (event : W64) : Nat × State :=
  ((s.peek l).toNat, if l.row.acc = .rc then s.rcClear l event else s)

/-- A 32-bit read of a low word latches the high word (R10). -/
def State.readLow (s : State) (fn : Nat) (l : RegLoc) : Nat × State :=
  let v := (s.peek l).toNat
  (v % 2 ^ 32, s.setFn fn { s.fn fn with readShadow := some (l.off, BitVec.ofNat 32 (v / 2 ^ 32)) })

/-- A 32-bit read of a high word: the shadow once, else the live word (R10). -/
def State.readHigh (s : State) (fn : Nat) (l : RegLoc) : Nat × State :=
  match (s.fn fn).readShadow with
  | some (o, w) =>
    if o = l.off then (w.toNat, s.setFn fn { s.fn fn with readShadow := none }) else ((s.peek l).toNat / 2 ^ 32, s)
  | none => ((s.peek l).toNat / 2 ^ 32, s)

/-- A 32-bit read at an offset of a function's BAR0: HEP_VF_INFO of a VF (R386), a register, or 0 (R5). -/
def State.read32 (s : State) (fn off : Nat) : Nat × State :=
  if fn ≠ 0 ∧ off = 0x10000 then (fn, s)
  else
    match s.fnReg fn off with
    | none => (0, s)
    | some l => if !l.row.wide then s.readWhole l 0 else if l.high then s.readHigh fn l else s.readLow fn l

/-- Two 32-bit reads, as one 64-bit read of 32-bit registers makes them. -/
def State.readPair (s : State) (fn off : Nat) : Nat × State :=
  let a := s.read32 fn off
  let b := a.2.read32 fn (off + 4)
  (a.1 + 2 ^ 32 * b.1, b.2)

/-- A 64-bit read. -/
def State.read64 (s : State) (fn off : Nat) : Nat × State :=
  match s.fnReg fn off with
  | some l => if l.row.wide && !l.high then s.readWhole l 0 else s.readPair fn off
  | none => s.readPair fn off

/-- The completion of a register read of `n` bytes. -/
def State.answer (s : State) (fn n v : Nat) : State := s.send (.completion fn .ok (leBytes n v))

/-! ## The commands -/

/-- REGISTER_WRITE (R6, R9, R12): a write of 4 or 8 bytes at an offset of a function's BAR0. -/
def execRegisterWrite (fn off : Nat) (wide : Bool) (val : W64) (s : State) : Out :=
  .next (s.when (s.barUp fn) (fun s => if wide then s.write64 fn off val else s.write32 fn off (val.setWidth 32)))

/-- A command on a register that a function reaches and that passes a test. -/
def State.onReg (s : State) (fn off : Nat) (p : RegLoc → Bool) (f : State → RegLoc → State) : State :=
  match s.fnReg fn off with
  | some l => s.when (s.barUp fn && p l) (fun s => f s l)
  | none => s

/-- RC_READ (R6, R8): the value before the event of the same cycle is returned, and the event is kept. -/
def execRcRead (fn off : Nat) (event : W64) (s : State) : Out :=
  .next (s.onReg fn off (fun l => l.row.acc == .rc) (fun s l =>
    let r := s.readWhole l event
    r.2.answer fn 4 r.1))

/-- W1C_WRITE (R6, R7): each bit written 1 clears, but for those that hardware sets in the same cycle. -/
def execW1cWrite (fn off : Nat) (val hwSet : W64) (s : State) : Out :=
  .next (s.onReg fn off (fun l => l.row.acc == .w1c) (fun s l => s.clearBits l val hwSet))

/-- W1S_WRITE (R6): each bit written 1 is set. No register table gives a register this type; the command sets bits of the
register that it names, where that stores what software writes (log 11). -/
def execW1sWrite (fn off : Nat) (val : W64) (s : State) : Out :=
  .next (s.onReg fn off (fun l => l.row.acc == .w1s || l.row.acc == .rw || (l.row.acc == .rwl && !s.ldr.locked)) (fun s l =>
    s.store l (s.reg l.row.name l.unit l.idx ||| val)))

/-- LOW_WORD_READ (R10). -/
def execLowWordRead (fn off : Nat) (s : State) : Out :=
  .next (s.onReg fn off (fun l => l.row.wide && !l.high) (fun s l =>
    let r := s.readLow fn l
    r.2.answer fn 4 r.1))

/-- LOW_WORD_WRITE (R11). -/
def execLowWordWrite (fn off : Nat) (val : W32) (s : State) : Out :=
  .next (s.onReg fn off (fun l => l.row.wide && !l.high) (fun s l => s.writeLow fn l val))

/-- HIGH_WORD_WRITE (R11). -/
def execHighWordWrite (fn off : Nat) (val : W32) (s : State) : Out :=
  .next (s.onReg fn off (fun l => l.row.wide && l.high) (fun s l => s.writeHigh fn l val))

end Sys2Proof.Machine
end

