-- ==== Sys2Proof/Machine/HostCmds.lean ====
section
/-! DEFINITION. Requests of the host, failed reads of the device, and function-level resets as commands (R5, R34, R125,
R322, R326, R328, R332, R382 to R394, R398 to R404, R441). -/

set_option Elab.async false

namespace Sys2Proof.Machine

/-! ## Answers -/

/-- The function whose AER logs an error about a request to a function: the PF where that is not enabled. -/
def State.aerFn (s : State) (fn : Nat) : Nat := if s.fnEnabled fn then fn else 0

/-- Unsupported Request (R387, R393); a posted request has no completion. -/
def State.answerUr (s : State) (fn : Nat) (posted : Bool) : State :=
  let s1 := (s.count .HEP_CNT_UR 0).aerUncorrectable (s.aerFn fn) 20
  if posted then s1 else (s1.aerCorrectable (s.aerFn fn) 13).complete fn .unsupported []

/-- Completer Abort (R387, R393). -/
def State.answerCa (s : State) (fn : Nat) (posted : Bool) : State :=
  let s1 := (s.count .HEP_CNT_CA 0).aerUncorrectable fn 15
  if posted then s1 else (s1.aerCorrectable fn 13).complete fn .abort []

/-- Whether the endpoint answers on the link at all: not in reset, standby or a hard stop. -/
def State.linkAlive (s : State) : Bool := s.dev.life == .booting || s.glbUp

/-- Send what is held for the functions of a list, where they can send (R394). -/
def State.releaseFns (s : State) : List Nat → State
  | [] => s
  | n :: ns => State.releaseFns (s.releaseHeld n) ns

/-! ## CONFIG_REQUEST -/

/-- What a configuration write triggers beside the bytes: an FLR, D3hot, the disabling of VFs, messages that can be sent
(R394, R398, R402, R404). `before` is the state before the write. -/
def State.cfgTriggers (s : State) (before : State) (fn off : Nat) (data : List Byte) : State :=
  let flr := (indexed data).any (fun x => off + x.1 == 0x79 && x.2.getLsbD 7)
  let d3 := (s.fn fn).d3hot && !(before.fn fn).d3hot
  let s1 := if before.vfEnable && !s.vfEnable then s.startFlrs before.liveVfs else s
  let s2 := if flr then s1.flrInitiate fn else if d3 then s1.enterD3 fn else s1
  s2.releaseFns (List.range 32)

/-- A configuration write that is performed (R382). -/
def State.cfgWrite (s : State) (fn off : Nat) (data : List Byte) : State :=
  ((s.cfgWriteList fn off data).cfgTriggers s fn off data).complete fn .ok []

/-- CONFIG_REQUEST (R382, R387, R396): before the device is ready it is answered with Request Retry Status; a function that
is not implemented answers Unsupported Request. -/
def execConfigRequest (fn off width : Nat) (write : Option W32) (s : State) : Out :=
  .next (
    if s.dev.life = .booting then s.complete fn .retry []
    else s.when s.glbUp (fun s =>
      if !s.fnEnabled fn then s.answerUr fn false
      else match write with
        | none => s.complete fn .ok (s.cfgReadList fn off width)
        | some v => s.cfgWrite fn off (leBytes width v.toNat)))

/-! ## BAR0 and BAR4 -/

/-- Whether a function answers memory requests (Table 14.5): Memory Space Enable, or VF MSE for a VF; not in D3hot nor in an
FLR; enabled. -/
def State.memEnabled (s : State) (fn : Nat) : Bool :=
  s.glbUp && s.fnEnabled fn && (s.fn fn).flr == .idle && !(s.fn fn).d3hot &&
    (if fn = 0 then (s.fn 0).mse else bitAt ((s.fn 0).cfgRd 0x2A8 1) 3)

/-- The size of a BAR of a function; 0 where it has none (Table 14.3). -/
def State.barSize (s : State) (fn bar : Nat) : Nat :=
  match fn, bar with
  | 0, 0 => 0x8000000
  | 0, 2 => s.bar2Size
  | 0, 4 => 0x10000
  | _, 0 => 0x100000
  | _, 4 => 0x4000
  | _, _ => 0

/-- Whether an access is of 4 or 8 bytes, naturally aligned. -/
def aligned48 (off n : Nat) : Bool := (n == 4 || n == 8) && off % n == 0

/-- Whether a word of BAR0 is reserved space, or that of an absent unit (R5). -/
def State.reserved0 (s : State) (fn off : Nat) : Bool := (s.fnReg fn off).isNone && !(fn != 0 && off == 0x10000)

/-- Bytes of the MSI-X table and place of the PBA (Tables 14.2, 14.3). -/
def msixBytes (fn : Nat) : Nat := if fn = 0 then 0x4000 else 0x400
def pbaBase (fn : Nat) : Nat := if fn = 0 then 0x8000 else 0x2000
def pbaBytes (fn : Nat) : Nat := if fn = 0 then 128 else 8

/-- Whether a word of BAR4 is reserved space. -/
def reserved4 (fn off : Nat) : Bool := msixBytes fn ≤ off && !(pbaBase fn ≤ off && off < pbaBase fn + pbaBytes fn)

/-- A word of BAR4 as read. -/
def State.read4 (s : State) (fn off : Nat) : Nat :=
  if off < msixBytes fn then ((s.fn fn).msixWord (off / 4)).toNat
  else if reserved4 fn off then 0
  else bitsOf 32 (fun k => (s.fn fn).msixOn && (s.fn fn).pba.contains ((off - pbaBase fn) * 8 + k))

/-- The bits of a table word that can be written: message addresses are multiples of 4, vector control has its mask bit
(log 8). -/
def msixMask (i : Nat) : W32 := if i % 4 = 0 then 0xFFFFFFFC#32 else if i % 4 = 3 then 1#32 else 0xFFFFFFFF#32

/-- Write a word of BAR4: the table takes it, the PBA is read-only (R394). -/
def State.write4 (s : State) (fn off : Nat) (v : W32) : State :=
  if off < msixBytes fn then
    let f := s.fn fn
    s.setFn fn { f with msix := SMap.set msixDefault f.msix (off / 4) (v &&& msixMask (off / 4)) }
  else s

/-- A write of one or two words of BAR4, and the messages that an unmasking releases. -/
def State.writeBar4 (s : State) (fn off : Nat) (data : List Byte) : State :=
  let lo := BitVec.ofNat 32 (leVal (data.take 4))
  let hi := BitVec.ofNat 32 (leVal (data.drop 4))
  let s1 := s.write4 fn off lo
  (if data.length = 8 then s1.write4 fn (off + 4) hi else s1).releaseHeld fn

/-- A read of BAR0 or BAR4. -/
def State.readBar (s : State) (fn bar off n : Nat) : State :=
  if bar = 0 then
    let r := if n = 8 then s.read64 fn off else s.read32 fn off
    r.2.answer fn n r.1
  else s.answer fn n (s.read4 fn off + (if n = 8 then 2 ^ 32 * s.read4 fn (off + 4) else 0))

/-- Whether every word of an access lies in reserved space. -/
def State.allReserved (s : State) (fn bar off n : Nat) : Bool :=
  let r := fun o => if bar = 0 then s.reserved0 fn o else reserved4 fn o
  r off && (n == 4 || r (off + 4))

/-- A write of BAR0 or BAR4: reserved space discards it (R5), and so does EP (R388). -/
def State.writeBar (s : State) (fn bar off : Nat) (data : List Byte) (ep : Bool) : State :=
  if s.allReserved fn bar off data.length then s
  else if ep then s.epWrite fn
  else if bar = 4 then s.writeBar4 fn off data
  else if data.length = 8 then s.write64 fn off (BitVec.ofNat 64 (leVal data))
  else s.write32 fn off (BitVec.ofNat 32 (leVal data))

/-! ## BAR2 -/

/-- A BAR2 request while DRAM is not in service (R332): counted by the controller of its first byte. -/
def State.selfRefreshReject (s : State) (a : Nat) (posted : Bool) : State :=
  (s.count .DMC_CNT_SRREJ (s.blockLoc (a / 64)).dmc).answerCa 0 posted

/-- A BAR2 request (Table 14.5). -/
def State.bar2 (s : State) (a n : Nat) (posted : Bool) (f : State → State) : State :=
  if dramSize s.dev.part ≤ a then if posted then s else s.answer 0 n 0
  else if s.dev.recovery = Status.keyRecord then s.answerCa 0 posted
  else if s.dev.dramMode ≠ .running then s.selfRefreshReject a posted
  else f s

/-! ## HOST_MEMORY_REQUEST -/

/-- A read request that the function answers. -/
def State.hostReadReq (s : State) (fn bar off n : Nat) : State :=
  if bar = 2 then s.bar2 off n false (fun s => s.request (.hostRead off n))
  else if !aligned48 off n then s.answerUr fn false
  else if s.allReserved fn bar off n then s.answer fn n 0
  else s.readBar fn bar off n

/-- A write request that the function answers. -/
def State.hostWriteReq (s : State) (fn bar off : Nat) (data : List Byte) (ep : Bool) : State :=
  if bar = 2 then s.bar2 off data.length true (fun s => s.request (.hostWrite off data ep))
  else if !aligned48 off data.length then s.answerUr fn true
  else s.writeBar fn bar off data ep

/-- Whether a request of `n` bytes lies in a BAR. -/
def State.inBar (s : State) (fn bar off n : Nat) : Bool := off + n ≤ s.barSize fn bar

/-- HOST_MEMORY_REQUEST (R387): the first row of Table 14.5 that matches. -/
def execHostMemoryRequest (fn bar off : Nat) (acc : HostAccess) (s : State) : Out :=
  .next (s.when s.linkAlive (fun s =>
    match acc with
    | .unsupported => s.answerUr fn false
    | .read n => if s.memEnabled fn && s.inBar fn bar off n then s.hostReadReq fn bar off n else s.answerUr fn false
    | .write data ep =>
      if s.memEnabled fn && s.inBar fn bar off data.length then s.hostWriteReq fn bar off data ep else s.answerUr fn true))

/-! ## VENDOR_DEFINED_MESSAGE -/

/-- VENDOR_DEFINED_MESSAGE (R387, R446): MCTP to the PF goes to Odrov; Type 0 is answered with Unsupported Request; Type 1
is discarded. -/
def execVendorDefinedMessage (fn : Nat) (body : VdmBody) (s : State) : Out :=
  .next (s.when s.linkAlive (fun s =>
    match body with
    | .mctp b => if fn = 0 then s.mctp .vdm b else s
    | .type0 => ((s.count .HEP_CNT_UR 0).aerUncorrectable (s.aerFn fn) 20).send .vdmUnsupported
    | .type1 => s))

/-! ## Reads of the device that fail (R392) -/

/-- The function under which a read was made (R390). -/
def State.readFn (s : State) : ReadKind → Nat
  | .ring r => (s.rill r).fn
  | .accessUnit r => (s.rill r).fn
  | .registry _ => 0

/-- Whether such a read can be outstanding. -/
def State.reading (s : State) : ReadKind → Bool
  | .ring r => (s.rill r).st == .attached
  | .accessUnit r => (s.rill r).copies != []
  | .registry e => s.imageLoaded && s.regBit .INGEST_CTRL 0 0 0 && e < 512

/-- Table 14.7. -/
def State.readFails (s : State) (k : ReadKind) (addr : Nat) (timedOut : Bool) : State :=
  match k with
  | .ring r => (s.readFailed Status.ringReads (s.rill r).fn addr timedOut).pollFailed r
  | .accessUnit r => State.schedule (State.settle (s.auReadFailed r addr timedOut))
  | .registry _ => s.readFailed Status.entryRead 0 addr timedOut

/-- DEVICE_READ_FAIL (R392): the completion carries Unsupported Request, Completer Abort or EP. -/
def execDeviceReadFail (kind : ReadKind) (addr : Nat) (s : State) : Out :=
  .next (s.when (s.ready && s.reading kind) (fun s => s.readFails kind addr false))

/-- Reads of a function whose completions are to be discarded on arrival. -/
def State.countLate (s : State) (fn : Nat) (f : Nat → Nat) : State :=
  s.setFn fn { s.fn fn with lateReads := f (s.fn fn).lateReads }

/-- COMPLETION_TIMEOUT (R392): the read fails, and its completion is discarded should it still arrive. -/
def execCompletionTimeout (kind : ReadKind) (addr : Nat) (s : State) : Out :=
  .next (s.when (s.ready && s.reading kind) (fun s => (s.readFails kind addr true).countLate (s.readFn kind) (· + 1)))

/-- LATE_COMPLETION (R392, R398): a completion of a read that timed out or that a reset has given up is discarded. -/
def execLateCompletion (fn : Nat) (s : State) : Out :=
  .next (s.when (s.linkAlive && (s.fn fn).lateReads != 0) (fun s => s.countLate fn (· - 1)))

/-! ## Function-level resets -/

/-- FLR_INITIATE (R398, R59, R401, R403). -/
def execFlrInitiate (fn : Nat) (s : State) : Out := .next (s.when s.glbUp (fun s => s.flrInitiate fn))

/-- DMA_SILENCED (R398): no request issues under the function's requester ID any more. -/
def execDmaSilenced (fn : Nat) (s : State) : Out :=
  .next (s.when (s.glbUp && (s.fn fn).flr == .initiated) (fun s => s.silence fn))

/-- FLR_COMPLETE (R398, R401). -/
def execFlrComplete (fn : Nat) (s : State) : Out :=
  .next (s.when (s.glbUp && s.flrCanEnd fn) (fun s => s.flrEnd fn))

/-- VF_ENABLE_SET (R402): NumVFs VFs are enabled. -/
def execVfEnableSet (s : State) : Out :=
  .next (s.when s.glbUp (fun s => (s.orCfg 0 0x2A8 0x01#8).releaseFns (List.range 32)))

/-- VF_ENABLE_CLEAR (R402): the sequence of Table 14.9 on every enabled VF. -/
def execVfEnableClear (s : State) : Out := .next (s.when (s.glbUp && s.vfEnable) State.disableVfs)

/-- D3HOT_ENTRY (R404). -/
def execD3hotEntry (fn : Nat) (s : State) : Out :=
  .next (s.when (s.glbUp && s.fnEnabled fn && !(s.fn fn).d3hot) (fun s => s.enterD3 fn))

end Sys2Proof.Machine
end

