-- ==== Sys2Proof/Machine/BoardCmds.lean ====
section
/-! DEFINITION. Resets, boot, standby, rails and the link (R59, R320, R333, R350, R372, R396, R397, R404, R416, R417, R437
to R441, R450, R459 to R465, R469). -/

set_option Elab.async false

namespace Sys2Proof.Machine

/-! ## What a reset leaves -/

/-- The stored registers of the AO domain (R416, R452). -/
def aoRegs (m : SMap W64) : SMap W64 :=
  SMap.keep m (fun off => match regAt off with
    | some l => aoHomed l
    | none => false)

/-- A mailbox command in progress is abandoned (R450). -/
def State.abandonMbox (s : State) : State :=
  match s.sage.mbox with
  | some j => s.mboxAbandon j
  | none => s

/-- What lies outside the AO domain returns to reset (R396, R397). Flash, fuses, the AO registers, the sprint residency
(R368), the hard-stop record and the pins stay; the contents of DRAM are undefined (R320) and read as never written
(log 3). -/
def State.coreReset (s : State) : State :=
  let t := s.abandonMbox
  { t with
    dev := { t.dev with
      recovery := 0, link := Dev.reset.link, dramMode := .selfRefresh, ucode := []
      pins := { t.dev.pins with vid := Dev.reset.pins.vid } }
    fns := [], regs := aoRegs t.regs, ldr := Loader.reset, dram := Dram.reset, pools := [], ing := Ingest.reset
    trk := TrackEng.reset, slu := Sluice.reset
    weir := { Weir.reset with
      sprint := { t.weir.sprint with on := false, budgetNj := 0, endedNs := none } }
    icu := Icu.reset, thy := Thyme.reset
    sage := { Sage.reset with eidSmb := t.sage.eidSmb, eidVdm := t.sage.eidVdm } }

def State.setLife (s : State) (l : Life) : State := { s with dev := { s.dev with life := l } }

/-- The AO domain loses its state (R416, R459). -/
def State.aoReset (s : State) : State :=
  { s with
    dev := { s.dev with hardStopRec := false, aoNs := 0 }
    regs := SMap.keep s.regs (fun off => match regAt off with
      | some l => !aoHomed l
      | none => true)
    weir := { s.weir with sprint := Weir.reset.sprint }
    sage := { s.sage with eidSmb := 0, eidVdm := 0 } }

/-! ## Boot (R440) -/

/-- Whether a slot is valid and verifies: what boot finds of its header and signatures, and its security version (R439). -/
def State.slotBoots (s : State) (b : BootFinds) (k : Nat) (slot : Bool) : Bool :=
  s.dev.flash.table.valid k slot && (if slot then b.slotB.getLsbD k else b.slotA.getLsbD k) &&
    decide (counterVal (s.dev.fuses.fw k) ≤ (s.dev.flash.slot k slot).security)

/-- The slot of a subsystem that boots: the active one, else the other. -/
def State.bootSlot (s : State) (b : BootFinds) (k : Nat) : Option Bool :=
  let a := s.dev.flash.table.activeB.getLsbD k
  if s.slotBoots b k a then some a else if s.slotBoots b k (!a) then some (!a) else none

/-- The subsystems of steps 2 and 5 whose units are present. -/
def bootList (p : Part) : List Nat := [0, 1, 2] ++ (if trkPresent p then [3] else []) ++ [4]

/-- A subsystem starts from a slot, Sage with its keys (R442); a fallback sets its bit in SAGE_BOOT. -/
def State.startFrom (s : State) (k : Nat) (slot : Bool) : State :=
  let f := s.dev.flash
  let s0 := s.setFlash { f with inService := putBit f.inService k slot }
  let s1 := if k = 0 then s0.deriveKeys else s0
  if slot = f.table.activeB.getLsbD k then s1 else s1.updReg .SAGE_BOOT 0 0 (fun v => putBit v (16 + k) true)

/-- Recovery is entered with a status (R441). -/
def State.recover (s : State) (st : W16) : State :=
  { s with dev := { s.dev with recovery := st } }.updReg .SAGE_BOOT 0 0 (fun v => (v &&& ~~~0xFFFF#64) ||| st.setWidth 64)

/-- Start subsystems in order, up to the first with no slot that verifies (R440, steps 2 and 5). -/
def State.bootSubs (s : State) (b : BootFinds) : List Nat → State
  | [] => s
  | k :: ks =>
    match s.bootSlot b k with
    | some x => State.bootSubs (s.startFrom k x) b ks
    | none => s.recover Status.noSlot

/-- The offsets of every delay register of the present towers. -/
def delayOffsets (p : Part) : List Nat :=
  ((List.range 2).filter (towerPresent p)).flatMap (fun d =>
    (List.range 32).flatMap (fun c =>
      regOff .DMC_DLY_CA d c :: (List.range 136).map (fun i => regOff .DMC_DLY d (136 * c + i))))

/-- Write delay registers at boot (R333). -/
def State.putDelays (s : State) : List (Nat × W32) → State
  | [] => s
  | (off, v) :: r =>
    State.putDelays (match regAt off with
      | some l =>
        if isDelay l && towerPresent s.dev.part l.unit then
          s.setReg l.row.name l.unit l.idx (v.setWidth 64 &&& BitVec.ofNat 64 l.row.mask)
        else s
      | none => s) r

/-- 64 in every field of a delay register. -/
def midDelay (off : Nat) : W32 :=
  match regAt off with
  | some l => if l.row.name = .DMC_DLY then 0x4040#32 else 0x40#32
  | none => 0

/-- The factory training record (Table 16.2). -/
def trainingBase : Nat := 0x0020000

/-- Step 4 of Table 16.4. -/
def State.bootDelays (s : State) (b : BootFinds) : State :=
  if b.trainingOk then
    let record := s.dev.flash.read trainingBase 0x10000
    s.putDelays ((delayOffsets s.dev.part).map (fun o => (o, Config.trainingDelay record o)))
  else (s.putDelays ((delayOffsets s.dev.part).map (fun o => (o, midDelay o)))).elog Status.trainingDigest unitSage 0 noCtx
    noFn 0

/-- Boot (R440, R441): what it finds decides between service and recovery. DEVICE_READY ends it. A follower is not locked, so
its source 8 is asserted (R421). A subsystem that has not started shows its active slot as the one in service (log 103). -/
def State.boot (s : State) (b : BootFinds) : State :=
  let s0 := State.lockEdge (s.setFlash { s.dev.flash with inService := s.dev.flash.table.activeB })
  if !b.keyOk then s0.recover Status.keyRecord
  else (s0.bootDelays b).bootSubs b (bootList s0.dev.part)

/-! ## Resets -/

/-- FUNDAMENTAL_RESET (R396, R465, R372): PERST_N is deasserted, which the board does only with every rail in range; the
strap is latched and boot begins. A hard stop before it is reported once. -/
def execFundamentalReset (boot : BootFinds) (s : State) : Out :=
  .next (s.when (s.dev.life == .held && s.dev.pins.perst) (fun s =>
    let s1 := s.coreReset
    let s2 := { s1 with dev := { s1.dev with
      life := .booting, role := s1.dev.pins.roleMaster, hardStopRec := false
      rails := Dev.reset.rails, pins := { s1.dev.pins with perst := false } } }
    let s3 := s2.boot boot
    if s.dev.hardStopRec then
      (s3.powerStatus Status.priorHardStop).elog Status.priorHardStop unitWeir 0 noCtx noFn 0
    else s3))

/-- HOT_RESET (R397): as a fundamental reset, but for the AO domain, the straps and the sprint residency. -/
def execHotReset (boot : BootFinds) (s : State) : Out :=
  .next (s.when s.linkAlive (fun s => ((s.coreReset).setLife .booting).boot boot))

/-- PERST_ASSERT (R396, R462, R465): every domain but AO is held in reset, the link is down, STBY_N and WAKE_N are released.
A hard stop still holds the device. -/
def execPerstAssert (s : State) : Out :=
  let s1 := { s with dev := { s.dev with pins := { s.dev.pins with perst := true, stby := false, wake := false } } }
  .next (match s.dev.life with
    | .noAux => s1
    | .auxReset => s1
    | .hardStop => s1
    | _ => (s1.coreReset).setLife .held)

/-- The pins that take effect at device ready as if asserted then (R469, R375). -/
def State.pinsAtReady (s : State) : State :=
  let s1 := if s.dev.pins.brake then s.edge 5 true else s
  let s2 := if s.dev.pins.flowLost then s1.edge 4 true else s1
  s2.brakeOn.coolantEnter

/-- DEVICE_READY (R396, R397, R440, R441): boot ends, in service or in recovery; DRAM is in service but after 0x8009. -/
def execDeviceReady (s : State) : Out :=
  .next (s.when (s.dev.life == .booting) (fun s =>
    let s1 := s.setDramMode (if s.dev.recovery = Status.keyRecord then .selfRefresh else .running)
    (if s.dev.recovery = 0 then (s1.setLife .ready).pinsAtReady else s1.setLife .recovery).releasePorts))

/-! ## Standby -/

/-- The conditions of the pins that the AO domain still sees (R406): FLOW_LOST_N and PWR_BRAKE_N. -/
def State.aoConditions (s : State) : State :=
  let c : BitVec 512 := putBit (putBit 0 4 s.dev.pins.flowLost) 5 s.dev.pins.brake
  { s with icu := { s.icu with cond := c } }

/-- STANDBY_ENTRY (R350, R404, R462): the PF is in D3hot, no VF is enabled, and the link has entered L2. Only the AO domain
is live; DRAM keeps its contents in self-refresh. -/
def execStandbyEntry (s : State) : Out :=
  .next (s.when (s.ready && (s.fn 0).d3hot && !s.vfEnable) (fun s =>
    let s1 := s.coreReset
    let s2 : State := { s1 with
      dram := { s1.dram with bytes := s.dram.bytes, poison := s.dram.poison, frameMap := s.dram.frameMap }
      dev := { s1.dev with
        life := .standby, link := { rate := 0, width := 0, flit := false, l2 := true }
        pins := { s1.dev.pins with stby := true } } }
    s2.aoConditions))

/-! ## Rails and link -/

/-- VAUX_APPLY (R459): the AO domain begins its power-on reset; PERST_N is asserted throughout. -/
def execVauxApply (s : State) : Out :=
  .next (s.when (s.dev.life == .noAux) (fun s =>
    { s with dev := { s.dev with
        life := .auxReset, rails := { s.dev.rails with aux := true }, pins := { s.dev.pins with perst := true } } }))

/-- AO_POR_RELEASE (R416, R459): the AO domain leaves power-on reset, its registers at their reset values. -/
def execAoPorRelease (s : State) : Out :=
  .next (s.when (s.dev.life == .auxReset) (fun s => (s.aoReset).setLife .held))

/-- A rail is out of range. -/
def Rails.drop (r : Rails) : Rail → Rails
  | .arith => { r with arith := false }
  | .soc => { r with soc := false }
  | .sram => { r with sram := false }
  | .dram => { r with dram := false }
  | .vpp => { r with vpp := false }
  | .phy => { r with phy := false }
  | .io => { r with io := false }
  | .aux => { r with aux := false }

/-- THERMTRIP_N is released when VDD_SOC falls (R372, R463). -/
def Pins.afterRail (p : Pins) : Rail → Pins
  | .soc => { p with thermtrip := false }
  | _ => p

/-- Whether a rail carries DRAM. -/
def railIsDram : Rail → Bool
  | .dram => true
  | .vpp => true
  | _ => false

/-- A power-down (R460, R462): the device is in reset, with PERST_N asserted; without VAUX the AO state is lost as well. -/
def State.powerDown (s : State) (r : Rail) : State :=
  let s1 := s.coreReset
  let s2 := { s1 with dev := { s1.dev with pins := { s1.dev.pins with perst := true, stby := false, wake := false } } }
  if r = .aux then (s2.aoReset).setLife .noAux else s2.setLife .held

/-- What the loss of a rail does where it matters (R460 to R463): in a hard stop VDD_SOC or VAUX ends the stop; without VAUX
nothing more can be lost. -/
def State.railLost (s : State) (r : Rail) : State :=
  match s.dev.life with
  | .noAux => s
  | .auxReset => if r = .aux then s.powerDown r else s
  | .standby => if r = .aux then s.powerDown r else s
  | .hardStop => if r = .soc ∨ r = .aux then s.powerDown r else s
  | _ => s.powerDown r

/-- RAIL_REMOVAL (R372, R460 to R463). In standby with PERST_N deasserted, R461 leaves the loss of VAUX, VDD_DRAM or VPP_DRAM
unspecified. -/
def execRailRemoval (r : Rail) (s : State) : Out :=
  if s.dev.life = .standby ∧ (r = .aux ∨ railIsDram r) then .fault .railOutOfRange
  else
    .next (State.railLost { s with dev := { s.dev with rails := s.dev.rails.drop r, pins := s.dev.pins.afterRail r } } r)

/-- LINK_UP (R381): the link has trained; Flit Mode is always used at 64.0 GT/s. -/
def execLinkUp (rate width : Nat) (flit : Bool) (s : State) : Out :=
  .next (s.when (s.linkAlive && 1 ≤ rate && rate ≤ 6 && [1, 2, 4, 8, 16].contains width) (fun s =>
    { s with dev := { s.dev with link := { rate := rate, width := width, flit := flit || rate == 6, l2 := false } } }))

end Sys2Proof.Machine
end

