-- ==== Sys2Proof/Machine/CisternCmds.lean ====
section
/-! DEFINITION. Cistern's commands (R341 to R345). -/

set_option Elab.async false

namespace Sys2Proof.Machine

/-- BUFFER_ALLOC (R341): a requester takes a buffer of a pool, or fails. -/
def execBufferAlloc (pool : Nat) (s : State) : Out :=
  .next (s.when (s.canAlloc pool) (fun s => (s.alloc pool).2))

/-- BUFFER_RELEASE (R342): a unit releases the handle that 8 bytes spell. -/
def execBufferRelease (handle : W64) (s : State) : Out := .next (s.release (handleOf handle.toNat) noFn)

/-- Cistern keeps each cache at 16 to 48 entries (R342). -/
def State.balance (s : State) (p : Pool) : State :=
  if p.cache.length < 16 ∧ p.head < p.tail then s.refill p else if 48 < p.cache.length then s.flush p else s

/-- CACHE_REFILL (R342): a batch moves between a pool's cache and its ring. -/
def execCacheRefill (pool : Nat) (s : State) : Out :=
  .next (match s.pool pool with
    | some p => s.when (s.ringReach p) (fun s => s.balance p)
    | none => s)

/-- CISTERN_HOST_FREE (R344). -/
def execCisternHostFree (fn : Nat) (handle : W64) (s : State) : Out := .next (s.hostFree fn handle)

/-- POOL_REINIT_COMPLETE (R345): the pool is as R340 makes it, and its reinitialising bit clears. -/
def execPoolReinitComplete (pool : Nat) (s : State) : Out :=
  .next (match s.pool pool with
    | some p => s.when (p.reinit && s.ringReach p) (fun s => s.initPool p)
    | none => s)

end Sys2Proof.Machine
end

