-- ==== Sys2Proof/Machine/Dispatch.lean ====
section
/-! DEFINITION. One arm per command: what it does to everything but the queue. -/

namespace Sys2Proof.Machine

def exec (i : Instr) (s : State) : Host.Outcome State Fault Refusal :=
  match i with
  | .registerWrite fn off wide val => Sys2Proof.Machine.execRegisterWrite fn off wide val s
  | .rcRead fn off event => Sys2Proof.Machine.execRcRead fn off event s
  | .w1cWrite fn off val hwSet => Sys2Proof.Machine.execW1cWrite fn off val hwSet s
  | .w1sWrite fn off val => Sys2Proof.Machine.execW1sWrite fn off val s
  | .lowWordRead fn off => Sys2Proof.Machine.execLowWordRead fn off s
  | .lowWordWrite fn off val => Sys2Proof.Machine.execLowWordWrite fn off val s
  | .highWordWrite fn off val => Sys2Proof.Machine.execHighWordWrite fn off val s
  | .imgLoad => Sys2Proof.Machine.execImgLoad s
  | .imgLoadComplete e => Sys2Proof.Machine.execImgLoadComplete e s
  | .imgLock => Sys2Proof.Machine.execImgLock s
  | .imgUnload => Sys2Proof.Machine.execImgUnload s
  | .imgUnloadComplete => Sys2Proof.Machine.execImgUnloadComplete s
  | .imgSwap v => Sys2Proof.Machine.execImgSwap v s
  | .swapComplete => Sys2Proof.Machine.execSwapComplete s
  | .segmentRetire seg => Sys2Proof.Machine.execSegmentRetire seg s
  | .commandIssue ctx => Sys2Proof.Machine.execCommandIssue ctx s
  | .tileClaim core => Sys2Proof.Machine.execTileClaim core s
  | .load core => Sys2Proof.Machine.execLoad core s
  | .loadComplete core => Sys2Proof.Machine.execLoadComplete core s
  | .xscan core => Sys2Proof.Machine.execXscan core s
  | .xscanComplete core => Sys2Proof.Machine.execXscanComplete core s
  | .init e => Sys2Proof.Machine.execInit e s
  | .stream core => Sys2Proof.Machine.execStream core s
  | .drain core => Sys2Proof.Machine.execDrain core s
  | .spill core => Sys2Proof.Machine.execSpill core s
  | .drainComplete core => Sys2Proof.Machine.execDrainComplete core s
  | .xptr core => Sys2Proof.Machine.execXptr core s
  | .fence core => Sys2Proof.Machine.execFence core s
  | .publish core => Sys2Proof.Machine.execPublish core s
  | .waitcnt core => Sys2Proof.Machine.execWaitcnt core s
  | .waitcntPass core => Sys2Proof.Machine.execWaitcntPass core s
  | .tileCommit core => Sys2Proof.Machine.execTileCommit core s
  | .commandKill ctx => Sys2Proof.Machine.execCommandKill ctx s
  | .coreIdle core => Sys2Proof.Machine.execCoreIdle core s
  | .commandReissue ctx => Sys2Proof.Machine.execCommandReissue ctx s
  | .coreFault core status => Sys2Proof.Machine.execCoreFault core status s
  | .tcFaultRead core event => Sys2Proof.Machine.execTcFaultRead core event s
  | .ringPoll rill lateUs header descs => Sys2Proof.Machine.execRingPoll rill lateUs header descs s
  | .auCopyComplete rill data => Sys2Proof.Machine.execAuCopyComplete rill data s
  | .statusRecordPeriodic rill => Sys2Proof.Machine.execStatusRecordPeriodic rill s
  | .registryScan entries stopAt => Sys2Proof.Machine.execRegistryScan entries stopAt s
  | .rillDrainComplete rill => Sys2Proof.Machine.execRillDrainComplete rill s
  | .decodeTurn engine parse => Sys2Proof.Machine.execDecodeTurn engine parse s
  | .quantumExpire engine work => Sys2Proof.Machine.execQuantumExpire engine work s
  | .budgetExceeded engine work slice byteOffset rest areas outputs => Sys2Proof.Machine.execBudgetExceeded engine work slice byteOffset rest areas outputs s
  | .pictureComplete engine work areas outputs => Sys2Proof.Machine.execPictureComplete engine work areas outputs s
  | .engineUtilUpdate engine util => Sys2Proof.Machine.execEngineUtilUpdate engine util s
  | .pixelCommand pxe ctx rill frame => Sys2Proof.Machine.execPixelCommand pxe ctx rill frame s
  | .regionComplete pxe => Sys2Proof.Machine.execRegionComplete pxe s
  | .trackCommand ctx rill frame => Sys2Proof.Machine.execTrackCommand ctx rill frame s
  | .trackCommandCommit rill => Sys2Proof.Machine.execTrackCommandCommit rill s
  | .stepStart ctx cluster => Sys2Proof.Machine.execStepStart ctx cluster s
  | .sliceEnd lane => Sys2Proof.Machine.execSliceEnd lane s
  | .bringIn ctx cluster => Sys2Proof.Machine.execBringIn ctx cluster s
  | .bringInComplete ctx cluster => Sys2Proof.Machine.execBringInComplete ctx cluster s
  | .contextEvict cluster waiting => Sys2Proof.Machine.execContextEvict cluster waiting s
  | .starvedTick ctx cluster => Sys2Proof.Machine.execStarvedTick ctx cluster s
  | .move e => Sys2Proof.Machine.execMove e s
  | .headExport ctx rill frame => Sys2Proof.Machine.execHeadExport ctx rill frame s
  | .dramRead port block firstBad secondBad second => Sys2Proof.Machine.execDramRead port block firstBad secondBad second s
  | .dramWrite port block data => Sys2Proof.Machine.execDramWrite port block data s
  | .partialWrite port addr data firstBad secondBad second => Sys2Proof.Machine.execPartialWrite port addr data firstBad secondBad second s
  | .bankRefresh channel bank => Sys2Proof.Machine.execBankRefresh channel bank s
  | .selfRefreshEntry => Sys2Proof.Machine.execSelfRefreshEntry s
  | .recalStart dmc group => Sys2Proof.Machine.execRecalStart dmc group s
  | .recalEnd dmc => Sys2Proof.Machine.execRecalEnd dmc s
  | .recalTimeout dmc => Sys2Proof.Machine.execRecalTimeout dmc s
  | .trainingCommand dmc channel pattern => Sys2Proof.Machine.execTrainingCommand dmc channel pattern s
  | .trainingComplete dmc pass => Sys2Proof.Machine.execTrainingComplete dmc pass s
  | .delayRegisterWrite off val => Sys2Proof.Machine.execDelayRegisterWrite off val s
  | .tempDrift dmc group temp => Sys2Proof.Machine.execTempDrift dmc group temp s
  | .bufferAlloc pool => Sys2Proof.Machine.execBufferAlloc pool s
  | .bufferRelease handle => Sys2Proof.Machine.execBufferRelease handle s
  | .cacheRefill pool => Sys2Proof.Machine.execCacheRefill pool s
  | .cisternHostFree fn handle => Sys2Proof.Machine.execCisternHostFree fn handle s
  | .poolReinitComplete pool => Sys2Proof.Machine.execPoolReinitComplete pool s
  | .powerGate d => Sys2Proof.Machine.execPowerGate d s
  | .domainWake d => Sys2Proof.Machine.execDomainWake d s
  | .domainWakeComplete d => Sys2Proof.Machine.execDomainWakeComplete d s
  | .operatingPointChange cluster => Sys2Proof.Machine.execOperatingPointChange cluster s
  | .clockSwitch cluster => Sys2Proof.Machine.execClockSwitch cluster s
  | .powerSample mw energyUj => Sys2Proof.Machine.execPowerSample mw energyUj s
  | .capAdjust => Sys2Proof.Machine.execCapAdjust s
  | .capWindowEnd mw => Sys2Proof.Machine.execCapWindowEnd mw s
  | .brakeAssert => Sys2Proof.Machine.execBrakeAssert s
  | .brakeDeassert => Sys2Proof.Machine.execBrakeDeassert s
  | .clusterRestart cluster => Sys2Proof.Machine.execClusterRestart cluster s
  | .vrAlertAssert => Sys2Proof.Machine.execVrAlertAssert s
  | .vrAlertDeassert => Sys2Proof.Machine.execVrAlertDeassert s
  | .droopDetect cluster mv => Sys2Proof.Machine.execDroopDetect cluster mv s
  | .droopRecover cluster => Sys2Proof.Machine.execDroopRecover cluster s
  | .sprintEntry => Sys2Proof.Machine.execSprintEntry s
  | .sprintBudgetTick => Sys2Proof.Machine.execSprintBudgetTick s
  | .excursionLimit ampsMilli us => Sys2Proof.Machine.execExcursionLimit ampsMilli us s
  | .residencyBinTick minute => Sys2Proof.Machine.execResidencyBinTick minute s
  | .thermalSample temps => Sys2Proof.Machine.execThermalSample temps s
  | .thermalLimitStep cluster => Sys2Proof.Machine.execThermalLimitStep cluster s
  | .hardStop => Sys2Proof.Machine.execHardStop s
  | .flowLostAssert => Sys2Proof.Machine.execFlowLostAssert s
  | .coolantStopReached => Sys2Proof.Machine.execCoolantStopReached s
  | .flowLostDeassert => Sys2Proof.Machine.execFlowLostDeassert s
  | .resume => Sys2Proof.Machine.execResume s
  | .autoResume => Sys2Proof.Machine.execAutoResume s
  | .configRequest fn off width write => Sys2Proof.Machine.execConfigRequest fn off width write s
  | .hostMemoryRequest fn bar off acc => Sys2Proof.Machine.execHostMemoryRequest fn bar off acc s
  | .vendorDefinedMessage fn body => Sys2Proof.Machine.execVendorDefinedMessage fn body s
  | .deviceReadFail kind addr => Sys2Proof.Machine.execDeviceReadFail kind addr s
  | .completionTimeout kind addr => Sys2Proof.Machine.execCompletionTimeout kind addr s
  | .lateCompletion fn => Sys2Proof.Machine.execLateCompletion fn s
  | .flrInitiate fn => Sys2Proof.Machine.execFlrInitiate fn s
  | .dmaSilenced fn => Sys2Proof.Machine.execDmaSilenced fn s
  | .flrComplete fn => Sys2Proof.Machine.execFlrComplete fn s
  | .vfEnableSet => Sys2Proof.Machine.execVfEnableSet s
  | .vfEnableClear => Sys2Proof.Machine.execVfEnableClear s
  | .d3hotEntry fn => Sys2Proof.Machine.execD3hotEntry fn s
  | .standbyEntry => Sys2Proof.Machine.execStandbyEntry s
  | .hotReset boot => Sys2Proof.Machine.execHotReset boot s
  | .perstAssert => Sys2Proof.Machine.execPerstAssert s
  | .fundamentalReset boot => Sys2Proof.Machine.execFundamentalReset boot s
  | .deviceReady => Sys2Proof.Machine.execDeviceReady s
  | .sourceEdge src rise => Sys2Proof.Machine.execSourceEdge src rise s
  | .groupDelivery g => Sys2Proof.Machine.execGroupDelivery g s
  | .holdoffExpire g => Sys2Proof.Machine.execHoldoffExpire g s
  | .aowMatch slot => Sys2Proof.Machine.execAowMatch slot s
  | .aowTimerExpire => Sys2Proof.Machine.execAowTimerExpire s
  | .thymeSet val => Sys2Proof.Machine.execThymeSet val s
  | .alarmFire k => Sys2Proof.Machine.execAlarmFire k s
  | .tsyncFrameSend => Sys2Proof.Machine.execTsyncFrameSend s
  | .tsyncFrameReceive edgeNs bits => Sys2Proof.Machine.execTsyncFrameReceive edgeNs bits s
  | .tsyncTimeout => Sys2Proof.Machine.execTsyncTimeout s
  | .snapshotNow => Sys2Proof.Machine.execSnapshotNow s
  | .snapInEdge => Sys2Proof.Machine.execSnapInEdge s
  | .snapshotTimeMatch => Sys2Proof.Machine.execSnapshotTimeMatch s
  | .snapshotComplete => Sys2Proof.Machine.execSnapshotComplete s
  | .watchdogExpire p => Sys2Proof.Machine.execWatchdogExpire p s
  | .spdmRequest t code malformed busy request => Sys2Proof.Machine.execSpdmRequest t code malformed busy request s
  | .mctpMessage b body => Sys2Proof.Machine.execMctpMessage b body s
  | .writeSlot sub v => Sys2Proof.Machine.execWriteSlot sub v s
  | .activate sub v => Sys2Proof.Machine.execActivate sub v s
  | .commit sub => Sys2Proof.Machine.execCommit sub s
  | .advanceImage => Sys2Proof.Machine.execAdvanceImage s
  | .writeBoard => Sys2Proof.Machine.execWriteBoard s
  | .mailboxCommandComplete => Sys2Proof.Machine.execMailboxCommandComplete s
  | .firmwareSwitch sub engine => Sys2Proof.Machine.execFirmwareSwitch sub engine s
  | .supplySample vauxMv vddioMv => Sys2Proof.Machine.execSupplySample vauxMv vddioMv s
  | .vauxApply => Sys2Proof.Machine.execVauxApply s
  | .aoPorRelease => Sys2Proof.Machine.execAoPorRelease s
  | .railRemoval r => Sys2Proof.Machine.execRailRemoval r s
  | .linkUp rate width flit => Sys2Proof.Machine.execLinkUp rate width flit s

end Sys2Proof.Machine
end

