-- ==== Sys2Proof/Machine/Tick.lean ====
section
/-! DEFINITION. What time does to the state: one cycle of the TIME clock, 10 ns (R417, R410; log 2). The table has no
row for a tick, so `step` takes one on an empty queue. -/

set_option Elab.async false

namespace Sys2Proof.Machine

/-- The hold-off timers after five CTRL cycles (R410). The last cycle of a timer is HOLDOFF_EXPIRE's (log 13). -/
def tickTimers (m : SMap Nat) : SMap Nat := SMap.mapVals (fun _ => 0) m (fun _ v => max 1 (v - 5))

/-- At each whole millisecond of AO time in standby AOW_TIMER_MS counts down (R416). Its last is AOW_TIMER_EXPIRE's (log 13). -/
def State.tickAow (s : State) : State :=
  s.when (s.dev.life == .standby && s.dev.aoNs % 1000000 == 999990 && decide (1 < s.regNat .AOW_TIMER_MS 0 0))
    (fun s => s.updReg .AOW_TIMER_MS 0 0 (fun v => v - 1))

/-- One TIME cycle: Thyme's counter advances by 10 (R417), the hold-off timers by 5 CTRL cycles (R410), AO time by
10 ns, and with a cluster at a sprint point the residency by as much (R368). -/
def State.tick (s0 : State) : State :=
  let s := s0.tickAow
  let p := s.weir.sprint
  let s1 := { s with dev := { s.dev with aoNs := s.dev.aoNs + 10 }
                     weir := { s.weir with sprint := if s.clocked && s.atSprint then { p with binNs := p.binNs + 10 } else p } }
  if s.clocked then
    { s1 with thy := { s1.thy with now := s1.thy.now + 10 }
              icu := { s1.icu with timers := tickTimers s1.icu.timers } }
  else s1

end Sys2Proof.Machine
end

