-- ==== Sys2Proof/Safety.lean ====
section
/-! DEFINITION. What counts as a safe run, and what a step changes, in the terms that statements use. -/

set_option Elab.async false

namespace Sys2Proof.Machine

/-- Every memory and table of the state that a step writes byte by byte has its canonical form: DRAM and its poison, the
registers, every core's basin, and flash. -/
def State.memWf (s : State) : Bool :=
  Mem.wf s.dram.bytes && SMap.wf (fun _ => false) s.dram.poison && SMap.wf regDefault s.regs &&
    SMap.wf (fun _ => []) s.slu.basins && s.slu.basins.all (fun x => Mem.wf x.2) && Mem.wf s.dev.flash.bytes

/-- Every bit of a fuse word that is 1 stays 1 (R434). -/
def fuseKept (a b : W64) : Bool := a &&& b == a

/-- From the fuses `a` to the fuses `b`, no fuse bit returns to 0, and the words written in manufacture stay. -/
def Fuses.growsTo (a b : Fuses) : Prop :=
  a.rootKeyHash = b.rootKeyHash ∧ a.deviceSecret = b.deviceSecret ∧ fuseKept a.arbImage b.arbImage = true ∧
    ∀ k : Nat, fuseKept (a.fw k) (b.fw k) = true

/-- A step that neither faults nor refuses. -/
def goesOn (s : State) : Prop := ∃ t, step s = .next t

/-- The delays that a recalibration has noted are those of its group (R335). -/
def State.delaysNoted (s : State) : Prop :=
  ∀ d g old, (s.dmc d).recal = some (g, old) → d < 2 ∧ g < 4 ∧ ∀ x ∈ old, inDelays d g x.1 = true

/-! ## What a step changes -/

/-- The components of the state: its fields, those of its parts, and the registers, of which `reg r` is the registers of
one row and `regs` any of them. -/
inductive Comp where
  | pending | out | freeIdx | devPart | devLife | devRecovery | devRails | devPins | devLink | devRole
  | devHardStopRec | devDramMode | devAoNs | devFuses | devFlash | devUcode | fns | ldrState | ldrPlacing
  | ldrLocked | ldrDeterministic | ldrLoad | ldrSwap | ldrSwapCount | ldrStatus | ldrFailSection | ldrFailEntry
  | ldrFailNeed | ldrFailHave | ldrImage | ldrSegs | ldrLastStamp | ldrSigned | ldrChain | dramBytes | dramPoison
  | dramFrameMap | dramWindows | dramDmcs | dramFinds | dramHeld | pools | ingRills | ingScanPending | ingEvt
  | ingCtxs | ingEngines | ingFrames | trkPxes | trkLastPxe | trkCrops | trkEmbq | trkTracks | trkPerRill
  | trkFlows | trkRings | trkStorePeak | trkCache | sluCtxs | sluCmds | sluCores | sluBasins | sluHolder
  | sluHeldIdle | sluLastHeld | sluSlices | sluEnded | sluGroups | weirCls | weirRailMv | weirSprint | weirDuty
  | weirPowerMw | weirSampleMw | weirLastMissNs | weirCoolant | weirFlowReleasedNs | weirCoolantNs | weirBrake
  | weirRestart | weirLive | weirWaking | weirThermal | weirSwitched | icuPend | icuCond | icuDelivered
  | icuTimers | icuLog | icuLogHead | thyNow | thyLock | thyPrev | thyGood | thyTrimPpb | thyOffset | thySnapBusy
  | thySnapRetained | thySnapCause | sageKeys | sageMbox | sagePendingSwitch | sageSwitched | sageDoeConn
  | sageMctpConn | sageEidSmb | sageEidVdm | regs | reg (r : Reg)
  deriving DecidableEq, Repr

/-- One component is the same in two states; the registers are compared by `State.sameRegs`. -/
def State.same (s t : State) : Comp → Prop
  | .pending => t.pending = s.pending
  | .out => t.out = s.out
  | .freeIdx => t.freeIdx = s.freeIdx
  | .devPart => t.dev.part = s.dev.part
  | .devLife => t.dev.life = s.dev.life
  | .devRecovery => t.dev.recovery = s.dev.recovery
  | .devRails => t.dev.rails = s.dev.rails
  | .devPins => t.dev.pins = s.dev.pins
  | .devLink => t.dev.link = s.dev.link
  | .devRole => t.dev.role = s.dev.role
  | .devHardStopRec => t.dev.hardStopRec = s.dev.hardStopRec
  | .devDramMode => t.dev.dramMode = s.dev.dramMode
  | .devAoNs => t.dev.aoNs = s.dev.aoNs
  | .devFuses => t.dev.fuses = s.dev.fuses
  | .devFlash => t.dev.flash = s.dev.flash
  | .devUcode => t.dev.ucode = s.dev.ucode
  | .fns => t.fns = s.fns
  | .ldrState => t.ldr.state = s.ldr.state
  | .ldrPlacing => t.ldr.placing = s.ldr.placing
  | .ldrLocked => t.ldr.locked = s.ldr.locked
  | .ldrDeterministic => t.ldr.deterministic = s.ldr.deterministic
  | .ldrLoad => t.ldr.load = s.ldr.load
  | .ldrSwap => t.ldr.swap = s.ldr.swap
  | .ldrSwapCount => t.ldr.swapCount = s.ldr.swapCount
  | .ldrStatus => t.ldr.status = s.ldr.status
  | .ldrFailSection => t.ldr.failSection = s.ldr.failSection
  | .ldrFailEntry => t.ldr.failEntry = s.ldr.failEntry
  | .ldrFailNeed => t.ldr.failNeed = s.ldr.failNeed
  | .ldrFailHave => t.ldr.failHave = s.ldr.failHave
  | .ldrImage => t.ldr.image = s.ldr.image
  | .ldrSegs => t.ldr.segs = s.ldr.segs
  | .ldrLastStamp => t.ldr.lastStamp = s.ldr.lastStamp
  | .ldrSigned => t.ldr.signed = s.ldr.signed
  | .ldrChain => t.ldr.chain = s.ldr.chain
  | .dramBytes => t.dram.bytes = s.dram.bytes
  | .dramPoison => t.dram.poison = s.dram.poison
  | .dramFrameMap => t.dram.frameMap = s.dram.frameMap
  | .dramWindows => t.dram.windows = s.dram.windows
  | .dramDmcs => t.dram.dmcs = s.dram.dmcs
  | .dramFinds => t.dram.finds = s.dram.finds
  | .dramHeld => t.dram.held = s.dram.held
  | .pools => t.pools = s.pools
  | .ingRills => t.ing.rills = s.ing.rills
  | .ingScanPending => t.ing.scanPending = s.ing.scanPending
  | .ingEvt => t.ing.evt = s.ing.evt
  | .ingCtxs => t.ing.ctxs = s.ing.ctxs
  | .ingEngines => t.ing.engines = s.ing.engines
  | .ingFrames => t.ing.frames = s.ing.frames
  | .trkPxes => t.trk.pxes = s.trk.pxes
  | .trkLastPxe => t.trk.lastPxe = s.trk.lastPxe
  | .trkCrops => t.trk.crops = s.trk.crops
  | .trkEmbq => t.trk.embq = s.trk.embq
  | .trkTracks => t.trk.tracks = s.trk.tracks
  | .trkPerRill => t.trk.perRill = s.trk.perRill
  | .trkFlows => t.trk.flows = s.trk.flows
  | .trkRings => t.trk.rings = s.trk.rings
  | .trkStorePeak => t.trk.storePeak = s.trk.storePeak
  | .trkCache => t.trk.cache = s.trk.cache
  | .sluCtxs => t.slu.ctxs = s.slu.ctxs
  | .sluCmds => t.slu.cmds = s.slu.cmds
  | .sluCores => t.slu.cores = s.slu.cores
  | .sluBasins => t.slu.basins = s.slu.basins
  | .sluHolder => t.slu.holder = s.slu.holder
  | .sluHeldIdle => t.slu.heldIdle = s.slu.heldIdle
  | .sluLastHeld => t.slu.lastHeld = s.slu.lastHeld
  | .sluSlices => t.slu.slices = s.slu.slices
  | .sluEnded => t.slu.ended = s.slu.ended
  | .sluGroups => t.slu.groups = s.slu.groups
  | .weirCls => t.weir.cls = s.weir.cls
  | .weirRailMv => t.weir.railMv = s.weir.railMv
  | .weirSprint => t.weir.sprint = s.weir.sprint
  | .weirDuty => t.weir.duty = s.weir.duty
  | .weirPowerMw => t.weir.powerMw = s.weir.powerMw
  | .weirSampleMw => t.weir.sampleMw = s.weir.sampleMw
  | .weirLastMissNs => t.weir.lastMissNs = s.weir.lastMissNs
  | .weirCoolant => t.weir.coolant = s.weir.coolant
  | .weirFlowReleasedNs => t.weir.flowReleasedNs = s.weir.flowReleasedNs
  | .weirCoolantNs => t.weir.coolantNs = s.weir.coolantNs
  | .weirBrake => t.weir.brake = s.weir.brake
  | .weirRestart => t.weir.restart = s.weir.restart
  | .weirLive => t.weir.live = s.weir.live
  | .weirWaking => t.weir.waking = s.weir.waking
  | .weirThermal => t.weir.thermal = s.weir.thermal
  | .weirSwitched => t.weir.switched = s.weir.switched
  | .icuPend => t.icu.pend = s.icu.pend
  | .icuCond => t.icu.cond = s.icu.cond
  | .icuDelivered => t.icu.delivered = s.icu.delivered
  | .icuTimers => t.icu.timers = s.icu.timers
  | .icuLog => t.icu.log = s.icu.log
  | .icuLogHead => t.icu.logHead = s.icu.logHead
  | .thyNow => t.thy.now = s.thy.now
  | .thyLock => t.thy.lock = s.thy.lock
  | .thyPrev => t.thy.prev = s.thy.prev
  | .thyGood => t.thy.good = s.thy.good
  | .thyTrimPpb => t.thy.trimPpb = s.thy.trimPpb
  | .thyOffset => t.thy.offset = s.thy.offset
  | .thySnapBusy => t.thy.snapBusy = s.thy.snapBusy
  | .thySnapRetained => t.thy.snapRetained = s.thy.snapRetained
  | .thySnapCause => t.thy.snapCause = s.thy.snapCause
  | .sageKeys => t.sage.keys = s.sage.keys
  | .sageMbox => t.sage.mbox = s.sage.mbox
  | .sagePendingSwitch => t.sage.pendingSwitch = s.sage.pendingSwitch
  | .sageSwitched => t.sage.switched = s.sage.switched
  | .sageDoeConn => t.sage.doeConn = s.sage.doeConn
  | .sageMctpConn => t.sage.mctpConn = s.sage.mctpConn
  | .sageEidSmb => t.sage.eidSmb = s.sage.eidSmb
  | .sageEidVdm => t.sage.eidVdm = s.sage.eidVdm
  | .regs => True
  | .reg _ => True

/-- What is stored for the register at a BAR0 offset. -/
def State.stored (s : State) (off : Nat) : W64 := SMap.get regDefault s.regs off

/-- Every register is the same but for those of the components listed. -/
def State.sameRegs (s t : State) (cs : Comp → Prop) : Prop :=
  ∀ off, cs .regs ∨ (∃ r u i, cs (.reg r) ∧ regOk r u i = true ∧ off = regOff r u i) ∨ t.stored off = s.stored off

/-- From `s` to `t` nothing changes but the components listed. -/
def changesOnly (cs : List Comp) (s t : State) : Prop :=
  (∀ c, c ∉ cs → s.same t c) ∧ s.sameRegs t (fun c => c ∈ cs)

/-! The components of a part of the state, where a step may change several. -/

def Comp.allDev : List Comp :=
  [.devPart, .devLife, .devRecovery, .devRails, .devPins, .devLink, .devRole, .devHardStopRec, .devDramMode,
   .devAoNs, .devFuses, .devFlash, .devUcode]

def Comp.allLdr : List Comp :=
  [.ldrState, .ldrPlacing, .ldrLocked, .ldrDeterministic, .ldrLoad, .ldrSwap, .ldrSwapCount, .ldrStatus,
   .ldrFailSection, .ldrFailEntry, .ldrFailNeed, .ldrFailHave, .ldrImage, .ldrSegs, .ldrLastStamp, .ldrSigned,
   .ldrChain]

def Comp.allDram : List Comp :=
  [.dramBytes, .dramPoison, .dramFrameMap, .dramWindows, .dramDmcs, .dramFinds, .dramHeld]

def Comp.allIng : List Comp :=
  [.ingRills, .ingScanPending, .ingEvt, .ingCtxs, .ingEngines, .ingFrames]

def Comp.allTrk : List Comp :=
  [.trkPxes, .trkLastPxe, .trkCrops, .trkEmbq, .trkTracks, .trkPerRill, .trkFlows, .trkRings, .trkStorePeak,
   .trkCache]

def Comp.allSlu : List Comp :=
  [.sluCtxs, .sluCmds, .sluCores, .sluBasins, .sluHolder, .sluHeldIdle, .sluLastHeld, .sluSlices, .sluEnded,
   .sluGroups]

def Comp.allWeir : List Comp :=
  [.weirCls, .weirRailMv, .weirSprint, .weirDuty, .weirPowerMw, .weirSampleMw, .weirLastMissNs, .weirCoolant,
   .weirFlowReleasedNs, .weirCoolantNs, .weirBrake, .weirRestart, .weirLive, .weirWaking, .weirThermal,
   .weirSwitched]

def Comp.allIcu : List Comp :=
  [.icuPend, .icuCond, .icuDelivered, .icuTimers, .icuLog, .icuLogHead]

def Comp.allThy : List Comp :=
  [.thyNow, .thyLock, .thyPrev, .thyGood, .thyTrimPpb, .thyOffset, .thySnapBusy, .thySnapRetained, .thySnapCause]

def Comp.allSage : List Comp :=
  [.sageKeys, .sageMbox, .sagePendingSwitch, .sageSwitched, .sageDoeConn, .sageMctpConn, .sageEidSmb, .sageEidVdm]

/-- A snapshot (R423 to R426). -/
def Comp.snapshot : List Comp :=
  [.thySnapBusy, .thySnapRetained, .thySnapCause, .reg .THYME_SNAP_SEQ, .reg .THYME_SNAP_TIME, .reg .THYME_SNAP_VAL,
   .reg .THYME_CNT_SNAPDROP, .reg .TC_SNAP_UPDATES, .reg .TC_SNAP_SEQ]

/-- The raising of sources (R407, R412), which may cause a snapshot (R423). -/
def Comp.source : List Comp := Comp.snapshot ++ [.icuPend, .icuCond, .icuDelivered]

/-- An entry of the device error log (R428, R429). -/
def Comp.log : List Comp := Comp.source ++ [.icuLog, .icuLogHead]

/-- Block reads of DRAM by a unit (R325, R337, R338; log 77). -/
def Comp.dramSeen : List Comp :=
  Comp.log ++ [.dramFinds, .dramDmcs, .reg .DMC_CNT_RD, .reg .DMC_CH_ERR, .reg .DMC_ADVISE, .reg .ICU_ADVISE]

/-- Writes to DRAM by a unit, with the reads of those that are partial (R326, R337). -/
def Comp.dramPut : List Comp :=
  Comp.log ++ [.dramBytes, .dramPoison, .dramFinds, .dramDmcs, .reg .DMC_CNT_RD, .reg .DMC_CNT_WR]

/-- The requests that waited for DRAM are performed, those of BAR2 too (R332, R335, R388). -/
def Comp.ports : List Comp :=
  Comp.dramSeen ++ [.dramBytes, .dramPoison, .dramHeld, .reg .DMC_CNT_WR, .freeIdx, .out, .fns, .reg .HEP_CNT_EP_TX,
    .reg .HEP_CNT_EP_RX, .reg .HEP_CNT_PWDISC, .reg .HEP_LAST_PWDISC]

/-- The release of buffers (R342, R343). -/
def Comp.buffers : List Comp := Comp.dramPut ++ [.pools, .reg .CISTERN_CNT_FREE, .reg .CISTERN_CNT_DISCARD]

/-- Items and frames that are done with: their buffers are released and their flows go on (R222, R243, R247). -/
def Comp.flows : List Comp :=
  Comp.buffers ++ [.trkFlows, .trkEmbq, .trkPerRill, .sluCtxs, .ingFrames, .reg .TRK_CNT_EMBLOST]

/-- The hold of clusters and lanes, and a preemption (R298 to R303). -/
def Comp.lanes : List Comp :=
  [.sluCtxs, .sluCmds, .sluCores, .sluBasins, .sluHolder, .sluHeldIdle, .sluLastHeld, .sluSlices, .sluEnded,
   .reg .SLUICE_CNT_PREEMPT, .reg .CL_CNT_LATEKILL]

/-- A command that ends, with the items of its step (R144, R155). -/
def Comp.step : List Comp := Comp.flows ++ Comp.lanes ++ [.sluGroups]

/-- A faulted command (R155). -/
def Comp.fault : List Comp := Comp.step ++ [.reg .SLUICE_LAST_FAULT]

/-- A faulted core (R127). -/
def Comp.coreFault : List Comp := Comp.fault ++ [.reg .TC_FAULT, .reg .TC_CNT_PARITY, .reg .ICU_ADVISE]

/-- Records in host memory, through rings and status records (R19, R197, R221, R391). -/
def Comp.records : List Comp :=
  Comp.source ++ [.out, .freeIdx, .reg .HEP_CNT_WR_BYTES, .reg .HEP_CNT_RD_BYTES]

/-- An ingest event record and a rill status record (R197, R221). -/
def Comp.events : List Comp := Comp.records ++ [.ingRills, .ingEvt, .reg .INGEST_EVT_LOST]

/-- The end of tracks (R270, R273). -/
def Comp.tracks : List Comp :=
  Comp.records ++ [.trkTracks, .trkEmbq, .trkPerRill, .trkRings, .trkFlows, .reg .TRK_RING_LOST]

/-- The point of a cluster, with the rail (R352). -/
def Comp.point : List Comp := [.weirCls, .weirRailMv, .devPins]

/-- The end of a sprint (R369). -/
def Comp.sprint : List Comp := Comp.log ++ Comp.point ++ [.weirSprint, .reg .WEIR_STATUS]

/-- A write that register `r` stores, with what follows from it (R12, R338, R370, R407, R430, R431). -/
def Comp.stores (r : Reg) : List Comp :=
  Comp.sprint ++ [.ingEvt, .ingScanPending, .trkRings, .reg .DMC_ADVISE, .reg .ICU_ADVISE, .reg r]

/-- The brake (R362). -/
def Comp.brake : List Comp := Comp.sprint ++ [.weirBrake, .weirRestart, .reg .WEIR_CNT_BRAKE]

end Sys2Proof.Machine
end

