-- ==== Sys2Proof/Effects.lean ====
section
/-! DEFINITION. The terms in which statements say what a command does: that it goes on and what it may change, that it
raises a source, that it logs, that it counts. -/

set_option Elab.async false

namespace Sys2Proof.Machine

/-- From `s` the command `c` goes on, to a state that differs from `s` at most in the components of `cs` and has `P`. -/
def completes (c : Instr) (cs : List Comp) (s : State) (P : State → Prop) : Prop :=
  ∃ t, exec c s = .next t ∧ changesOnly cs s t ∧ P t

/-- Source `i` is raised from `s` to `t` (R407): in an edge mode its pending bit is set. A source whose condition is 1
already makes no edge. -/
def raised (i : Nat) (s t : State) : Prop :=
  s.clocked = true → s.srcMode i ≠ 0 → s.icu.cond.getLsbD i = false → t.icu.pend.getLsbD i = true

/-- The device error log gains a happening of Table 15.5 from `s` to `t` (R428, R429): one more repetition of the newest
entry where that merges it, else a new entry. -/
def logged (status : W16) (unit index ctx fn : Nat) (detail : W64) (s t : State) : Prop :=
  let new : ElogEntry :=
    { time := s.thy.now, status := status, unit := unit, index := index, ctx := ctx, fn := fn, detail := detail, rep := 1,
      seq := BitVec.ofNat 32 s.icu.logHead }
  match s.icu.log with
  | [] => t.icu.log = [new] ∧ t.icu.logHead = s.icu.logHead + 1
  | x :: xs =>
    if s.elogMerges x status unit index then
      t.icu.log = { x with rep := if x.rep = 0xFFFFFFFF#32 then x.rep else x.rep + 1 } :: xs ∧
        t.icu.logHead = s.icu.logHead
    else t.icu.log = (new :: x :: xs).take 256 ∧ t.icu.logHead = s.icu.logHead + 1

/-- A 32-bit event counter after one more event: it stops at its greatest value (R128). -/
def counted (v : W64) : W64 := if v = 0xFFFFFFFF#64 then v else v + 1

/-- The same for `n` events. -/
def countedBy : Nat → W64 → W64
  | 0, v => v
  | n + 1, v => countedBy n (counted v)

/-- The condition of the AO-capable source `i` is `v`, and an edge that its mode chooses has set its pending bit (R406,
R407). -/
def edged (i : Nat) (v : Bool) (s t : State) : Prop :=
  t.icu.cond.getLsbD i = v ∧
    (s.clocked = true → s.icu.cond.getLsbD i ≠ v → edgeChosen (s.srcMode i) v = true → t.icu.pend.getLsbD i = true)

/-- Sprint, in force in `s`, has ended in `t` with a status (R366 to R370): the budget is discarded, the status reported, the
power source raised, and no cluster is at a sprint point. -/
def sprintEnds (status : W16) (s t : State) : Prop :=
  t.weir.sprint = { s.weir.sprint with on := false, budgetNj := 0, endedNs := some s.dev.aoNs } ∧
  t.reg .WEIR_STATUS 0 0 = status.setWidth 64 ∧ raised 3 s t ∧ ∀ n < 4, (t.clPwr n).point ≤ 5

/-- The rail gives what point `p` of cluster `n` needs (R352, R355), where the cluster is live and outside coolant stop. -/
def railSupports (n p : Nat) (t : State) : Prop :=
  t.clusterLive n = true → t.weir.coolant ≠ .stopped → t.needMv p ≤ t.weir.railMv

/-- What the host and the network have been sent from `s` to `t` is `ms`. -/
def sends (ms : List OutMsg) (s t : State) : Prop := t.out = s.out ++ ms

/-- A controller's log gains an entry from `s` to `t` (R337): the newest first, of 64. -/
def dmcLogged (l : BlockLoc) (kind port : Nat) (s t : State) : Prop :=
  (t.dmc l.dmc).log =
      ({ time := s.thy.now, channel := l.channel, kind := kind, port := port, block := l.index } ::
        (s.dmc l.dmc).log).take 64 ∧
    (t.dmc l.dmc).logHead = (s.dmc l.dmc).logHead + 1

/-- A cause of a snapshot has arrived, of the code `cause` and with the counter value `at_` (R423 to R426): while one is in
progress it is only counted; else the sequence number, the time, and the update count of every present core are taken. -/
def snapTaken (cause : Nat) (at_ : W64) (s t : State) : Prop :=
  if s.thy.snapBusy = true then
    t.reg .THYME_CNT_SNAPDROP 0 0 = counted (s.reg .THYME_CNT_SNAPDROP 0 0) ∧ t.thy = s.thy ∧
    t.reg .THYME_SNAP_SEQ 0 0 = s.reg .THYME_SNAP_SEQ 0 0 ∧ t.reg .THYME_SNAP_TIME 0 0 = s.reg .THYME_SNAP_TIME 0 0
  else
    t.thy.snapBusy = true ∧ t.thy.snapCause = cause ∧ t.reg .THYME_SNAP_TIME 0 0 = at_ ∧
    t.reg .THYME_SNAP_SEQ 0 0 = (s.reg .THYME_SNAP_SEQ 0 0 + 1) &&& 0xFFFFFFFF#64 ∧
    ∀ n < 32, corePresent s.dev.part n = true →
      t.reg .TC_SNAP_UPDATES n 0 = s.reg .TC_CNT_UPDATES n 0 ∧
      t.reg .TC_SNAP_SEQ n 0 = (s.reg .THYME_SNAP_SEQ 0 0 + 1) &&& 0xFFFFFFFF#64

/-- What a reset of everything but the AO domain leaves: the reset state, but for the AO registers, flash, fuses, pins, the
sprint residency, and what the network has assigned. -/
def atReset (s t : State) : Prop :=
  t.fns = State.reset.fns ∧ t.ldr = State.reset.ldr ∧ t.pools = [] ∧ t.ing = State.reset.ing ∧ t.trk = State.reset.trk ∧
  t.slu = State.reset.slu ∧ t.thy = State.reset.thy ∧
  t.weir = { State.reset.weir with
    sprint := { s.weir.sprint with on := false, budgetNj := 0, endedNs := none } } ∧
  t.sage = { State.reset.sage with eidSmb := s.sage.eidSmb, eidVdm := s.sage.eidVdm } ∧
  t.icu.pend = 0 ∧ t.icu.log = [] ∧ t.dram.windows = [] ∧ t.dram.dmcs = [] ∧ t.dram.finds = [] ∧ t.dram.held = [] ∧
  ∀ off l, regAt off = some l → SMap.get regDefault t.regs (regOff l.row.name l.unit l.idx) =
    if aoHomed l = true then s.reg l.row.name l.unit l.idx else regDefault (regOff l.row.name l.unit l.idx)

/-- A handle is released for function `fn` from `s` to `t` (R342, R345): it joins the cache of the pool that it names, of
which a full cache first moves 32 handles to the ring; a pool that is full, and one that does not exist, discards it with
0x2060, and one that is being reinitialised with 0x2062. -/
def released (h : Handle) (fn : Nat) (s t : State) : Prop :=
  let discarded : W16 → Prop := fun st => t.pools = s.pools ∧ t.dram = s.dram ∧
    t.reg .CISTERN_CNT_DISCARD 0 0 = counted (s.reg .CISTERN_CNT_DISCARD 0 0) ∧ logged st 7 0 0xFFFF fn 0 s t
  (s.pool h.pool = none → discarded 0x2060#16) ∧
  ∀ p, s.pool h.pool = some p →
    (p.reinit = true → discarded 0x2062#16) ∧
    (p.reinit = false → p.cap ≤ p.free → discarded 0x2060#16) ∧
    (p.reinit = false → p.free < p.cap →
      t.reg .CISTERN_CNT_FREE 0 0 = s.reg .CISTERN_CNT_FREE 0 0 + 1 ∧
      (p.cache.length < 64 ∨ s.ringReach p = false →
        t.pool h.pool = some { p with cache := p.cache ++ [h] } ∧ t.dram = s.dram ∧ t.icu = s.icu) ∧
      (64 ≤ p.cache.length → s.ringReach p = true →
        t.pool h.pool = some { p with cache := p.cache.drop 32 ++ [h], tail := p.tail + 32 } ∧
        (64 ≤ p.cap → ∀ a, (a < p.ringAddr ∨ p.ringAddr + 8 * p.cap ≤ a) → t.dramByte a = s.dramByte a)))

/-- A mailbox command ends with a status (R448): SAGE_MBOX_STATUS holds it, source 10 is raised, and none runs. -/
def mailboxEnds (status : W16) (s t : State) : Prop :=
  t.sage.mbox = none ∧ t.reg .SAGE_MBOX_STATUS 0 0 = status.setWidth 64 ∧ raised 10 s t

/-- Core `n` is at an instruction of opcode `code` (R134): its command, the firing at its front, and the instruction; its
sequencer runs. -/
def atTurn (n code : Nat) (s : State) (r : Run) (fi : Fire) (op : Op) : Prop :=
  s.coreRun n = some r ∧ (s.core n).fires.head? = some fi ∧ r.cmd.prog[fi.pc]? = some op ∧ op.opcode = code ∧
    (s.core n).st = .running ∧ s.seqRuns n = true

/-- The state in which core `n` shows the place of a firing (TC_STATE). -/
def State.showing (s : State) (n : Nat) (fi : Fire) : State := s.setCore n { s.core n with pc := fi.pc }

/-- Core `n` has gone past the firing at its front (R122). -/
def passed (n : Nat) (s t : State) : Prop :=
  (t.core n).fires = (s.core n).fires.tail ∧
    (t.core n).st = if (s.core n).fires.tail = [] then .committing else .running

/-- Core `n` has faulted with a status (R127): TC_FAULT and SLUICE_LAST_FAULT show it, the core is halted where
TC_ARR_CTRL asks for it and else idle, its work is gone, and its command and step with it. -/
def coreFaults (n : Nat) (st : W16) (s t : State) : Prop :=
  (n < 32 → t.reg .TC_FAULT n 0 = BitVec.ofNat 64 (st.toNat + 65536 * ((s.core n).pc % 64))) ∧
  t.reg .SLUICE_LAST_FAULT 0 0 = BitVec.ofNat 64 (st.toNat + 65536 * ((s.core n).ctx % 4096)) ∧
  (t.core n).st = (if s.regBit .TC_ARR_CTRL n 0 1 then .halted else .idle) ∧
  (t.core n).fires = [] ∧ (t.core n).loads = [] ∧ (t.core n).slots = [] ∧
  t.cmdRun (s.core n).ctx = none ∧ t.stepOf (s.core n).ctx = none

end Sys2Proof.Machine
end

