-- ==== Sys2Proof/Certificates/Slice0/Obligations.lean ====
section
/-! DEFINITION. The statements for the provers. `completes c cs s P` says that from `s` the command `c` goes on, to a state
that differs from `s` at most in the components of `cs` (the frame) and has `P`. Where a statement says `t = s` of a command
whose condition does not hold, that is the model's choice (log 4). -/

set_option Elab.async false

open Sys2Proof Sys2Proof.Machine

/-! ## The machine as a whole -/

/-- A step runs the command at the front of the queue on the state with the rest of the queue. -/
def Obligations.StepRunsFrontCommand : Prop :=
  ∀ (c : Instr) (rest : List Instr) (s : State), s.pending = c :: rest → step s = exec c { s with pending := rest }

/-- On an empty queue one TIME cycle passes (log 2, the model's choice): Thyme's counter advances by 10 in it and no hold-off
timer ends, but each runs on by five CTRL cycles (R417, R410). AO time advances by 10 ns; at each whole millisecond of it
AOW_TIMER_MS counts down in standby (R416, log 106), and with a cluster at a sprint point the bin of the residency gains 10 ns
(R368). -/
def Obligations.EmptyQueuePassesOneTimeCycle : Prop :=
  ∀ s : State, s.pending = [] → ∃ t, step s = .next t ∧
    changesOnly [.thyNow, .icuTimers, .devAoNs, .weirSprint, .reg .AOW_TIMER_MS] s t ∧
    t.thy.now = (if s.clocked = true then s.thy.now + 10 else s.thy.now) ∧ t.dev.aoNs = s.dev.aoNs + 10 ∧
    t.weir.sprint = { s.weir.sprint with
      binNs := if s.clocked = true ∧ s.atSprint = true then s.weir.sprint.binNs + 10 else s.weir.sprint.binNs } ∧
    t.reg .AOW_TIMER_MS 0 0 =
      (if s.dev.life = .standby ∧ s.dev.aoNs % 1000000 = 999990 ∧ 1 < s.regNat .AOW_TIMER_MS 0 0 then
        s.reg .AOW_TIMER_MS 0 0 - 1 else s.reg .AOW_TIMER_MS 0 0) ∧
    ∀ g n, SMap.get (fun _ => 0) s.icu.timers g = n + 1 →
      SMap.get (fun _ => 0) t.icu.timers g = if s.clocked = true then max 1 (n + 1 - 5) else n + 1

/-- Every memory and table has its canonical form at reset. -/
def Obligations.MemoriesCanonicalAtReset : Prop :=
  State.reset.memWf = true

/-- Every step keeps the canonical form of DRAM, its poison, the registers, the basins and flash. -/
def Obligations.MemoriesStayCanonical : Prop :=
  ∀ s t : State, s.memWf = true → step s = .next t → t.memWf = true

/-- R434: no step returns a fuse bit to 0, or changes a fuse word written in manufacture. -/
def Obligations.FuseBitsNeverReturnToZero : Prop :=
  ∀ s t : State, step s = .next t → s.dev.fuses.growsTo t.dev.fuses

/-- A step takes one command off the queue and adds none, takes back nothing that was sent, and leaves the part (R2) as it is. -/
def Obligations.StepKeepsQueueAndSentMessages : Prop :=
  ∀ (c : Instr) (rest : List Instr) (s t : State), s.pending = c :: rest → step s = .next t →
    t.pending = rest ∧ s.out <+: t.out ∧ t.dev.part = s.dev.part

/-- The register map: the offset of every register instance of every unit is read back as that instance, and four bytes on as
its high word where it has 64 bits (R10, Tables 1.8 and 1.9). -/
def Obligations.RegisterMapRoundTrip : Prop :=
  ∀ (r : Reg) (u i : Nat), regOk r u i = true →
    ∃ x : RegRow, rowIn r allRows = some x ∧
      regAt (regOff r u i) = some { row := x, unit := u, idx := i, off := regOff r u i, high := false } ∧
      (x.wide = true → regAt (regOff r u i + 4) =
        some { row := x, unit := u, idx := i, off := regOff r u i, high := true })

/-! ## Interrupts and observation -/

/-- R407, R406: an edge of the mode's choice sets a source's pending bit and no other; the other sources stay as they are. A
source that Table 15.1 does not list has no condition. R409 to R411: a delivery of a group hands over one message for each
candidate that the endpoint can send, by MSI-X or by MSI, or holds it in the function's PBA where it is masked; it loads the
hold-off timer with ICU_HOLDOFF x 500 CTRL cycles, and counts; with global_en at 0 nothing is delivered. The expiry of a
timer (R410) lets the group deliver again. -/
def Obligations.SourcesAndTheirDelivery : Prop :=
  ((∀ (src : Nat) (rise : Bool) (s : State), completes (.sourceEdge src rise) Comp.source s (fun t =>
    if sourceExists s.dev.part src = true then
      s.clocked = true → ∀ j,
        t.icu.cond.getLsbD j = (if j = src then rise else s.icu.cond.getLsbD j) ∧
        t.icu.pend.getLsbD j =
          (if j = src ∧ s.icu.cond.getLsbD src ≠ rise ∧
              (s.srcMode src = 3 ∨ s.srcMode src = (if rise = true then 1 else 2)) then true
            else s.icu.pend.getLsbD j)
    else t = s))) ∧
  ((∀ (g : Nat) (s : State), completes (.groupDelivery g)
    [.out, .fns, .icuPend, .icuDelivered, .icuTimers, .reg .ICU_GRP_CNT] s (fun t =>
    if g < 32 ∧ s.clocked = true ∧ s.regBit .ICU_CTRL 0 0 0 = true ∧ SMap.get (fun _ => 0) s.icu.timers g = 0 ∧
        s.groupSendable g ≠ [] then
      SMap.get (fun _ => 0) t.icu.timers g = s.regNat .ICU_HOLDOFF 0 g * 500 ∧
      t.reg .ICU_GRP_CNT 0 g = counted (s.reg .ICU_GRP_CNT 0 g) ∧
      (∀ i ∈ s.groupSendable g, (s.srcMode i = 0 → t.icu.delivered.getLsbD i = true) ∧
        (s.srcMode i ≠ 0 → t.icu.pend.getLsbD i = false) ∧
        let f := s.fn (s.srcFn i)
        let v := s.srcVec i
        let m := v % f.msiCount
        (f.msixOn = true → f.msixMasked v = false → OutMsg.interrupt (s.srcFn i) v true ∈ t.out) ∧
        (f.msixOn = true → f.msixMasked v = true → v ∈ (t.fn (s.srcFn i)).pba) ∧
        (f.msixOn = false → bitAt (f.cfgRd 0x60 4) m = false → OutMsg.interrupt (s.srcFn i) m false ∈ t.out) ∧
        (f.msixOn = false → bitAt (f.cfgRd 0x60 4) m = true → m ∈ (t.fn (s.srcFn i)).pba)) ∧
      (∀ i, i ∉ s.groupSendable g → t.icu.delivered.getLsbD i = s.icu.delivered.getLsbD i ∧
        t.icu.pend.getLsbD i = s.icu.pend.getLsbD i)
    else t = s)) ∧
  (∀ (g : Nat) (s : State), completes (.holdoffExpire g) [.icuDelivered, .icuTimers] s (fun t =>
    if s.clocked = true ∧ SMap.get (fun _ => 0) s.icu.timers g ≠ 0 then
      SMap.get (fun _ => 0) t.icu.timers g = 0 ∧
      ∀ i, t.icu.delivered.getLsbD i =
        (if 16 * g ≤ i ∧ i < 16 * g + 16 then false else s.icu.delivered.getLsbD i)
    else t = s)))

/-- R414 to R416, R427: a match sets its bit of AOW_HIT, and asserts WAKE_N in standby with AOW enabled; the AOW timer stands at
0 when it expires; a processor that has not signalled is logged with 0x9010 and sets ICU_ADVISE bit 2. -/
def Obligations.WatchSlotsAndWatchdogs : Prop :=
  (∀ (k : Nat) (s : State), completes (.aowMatch k) [.devPins, .reg .AOW_HIT] s (fun t =>
    if s.slotMatches k = true then
      t.reg .AOW_HIT 0 0 = s.reg .AOW_HIT 0 0 ||| 1#64 <<< k ∧
      t.dev.pins = { s.dev.pins with
        wake := s.dev.pins.wake || (s.dev.life == .standby && s.regBit .AOW_CTRL 0 0 0) }
    else t = s)) ∧
  (∀ s : State, completes .aowTimerExpire (Comp.source ++ [.reg .AOW_TIMER_MS]) s (fun t =>
    if s.dev.life = .standby ∧ s.regNat .AOW_TIMER_MS 0 0 ≠ 0 then t.reg .AOW_TIMER_MS 0 0 = 0 else t = s)) ∧
  (∀ (p : Processor) (s : State), completes (.watchdogExpire p) (Comp.log ++ [.reg .ICU_ADVISE]) s (fun t =>
    if s.clocked = true ∧ processorWatched s.dev.part p = true then
      logged 0x9010#16 (processorUnit p).1 (processorUnit p).2 0xFFFF 0xFF 0 s t ∧
      t.reg .ICU_ADVISE 0 0 = s.reg .ICU_ADVISE 0 0 ||| 4#64
    else t = s))

/-! ## Thyme -/

/-- R417, R418: a master's counter takes the value that is set, a follower's does not. An alarm that is reached raises source 20
+ k; with a period of 0 its enable bit clears, else its value advances by periods to the first that is not passed. R423 to
R426: the causes of a snapshot. A command or SNAP_IN takes it at the counter's value, a time match at THYME_SNAP_AT,
clearing its enable; a slot latches the register it names; the end of a snapshot raises source 7. -/
def Obligations.TimeAlarmsAndSnapshots : Prop :=
  ((∀ (v : W64) (s : State), completes (.thymeSet v) Comp.allThy s (fun t =>
    if s.clocked = true ∧ s.dev.role = true then t.thy = { s.thy with now := v } else t = s)) ∧
  (∀ (k : Nat) (s : State), completes (.alarmFire k) (Comp.source ++ [.reg .THYME_ALARM, .reg .THYME_ALARM_CTRL]) s
    (fun t =>
    if k < 4 ∧ s.clocked = true ∧ s.regBit .THYME_ALARM_CTRL 0 k 0 = true ∧
        (s.reg .THYME_ALARM 0 k).toNat ≤ s.thy.now.toNat then
      raised (20 + k) s t ∧
      (s.alarmPeriod k = 0 → t.reg .THYME_ALARM 0 k = s.reg .THYME_ALARM 0 k ∧
        t.reg .THYME_ALARM_CTRL 0 k = s.reg .THYME_ALARM_CTRL 0 k &&& ~~~1#64) ∧
      (s.alarmPeriod k ≠ 0 → t.reg .THYME_ALARM_CTRL 0 k = s.reg .THYME_ALARM_CTRL 0 k ∧
        ∃ n, t.reg .THYME_ALARM 0 k = BitVec.ofNat 64 ((s.reg .THYME_ALARM 0 k).toNat + s.alarmPeriod k * (n + 1)) ∧
          s.thy.now.toNat < (s.reg .THYME_ALARM 0 k).toNat + s.alarmPeriod k * (n + 1) ∧
          (s.reg .THYME_ALARM 0 k).toNat + s.alarmPeriod k * n ≤ s.thy.now.toNat)
    else t = s))) ∧
  ((∀ s : State, completes .snapshotNow Comp.snapshot s (fun t =>
    if s.clocked = true then
      snapTaken 0 s.thy.now s t ∧ (s.thy.snapBusy = false → ∀ k < 64, t.reg .THYME_SNAP_VAL 0 k = s.snapVal k)
    else t = s)) ∧
  (∀ s : State, completes .snapInEdge Comp.source s (fun t =>
    raised 18 s t ∧ (s.clocked = true → s.regBit .THYME_SNAP_CFG 0 0 0 = true → snapTaken 1 s.thy.now s t))) ∧
  (∀ s : State, completes .snapshotTimeMatch (Comp.snapshot ++ [.reg .THYME_SNAP_CFG]) s (fun t =>
    if s.clocked = true ∧ s.regBit .THYME_SNAP_CFG 0 0 1 = true ∧
        (s.reg .THYME_SNAP_AT 0 0).toNat ≤ s.thy.now.toNat then
      snapTaken 2 (s.reg .THYME_SNAP_AT 0 0) s t ∧
      t.reg .THYME_SNAP_CFG 0 0 = s.reg .THYME_SNAP_CFG 0 0 &&& ~~~2#64
    else t = s)) ∧
  (∀ s : State, completes .snapshotComplete (Comp.source ++ Comp.allThy) s (fun t =>
    if s.thy.snapBusy = true then raised 7 s t ∧ t.thy.now = s.thy.now else t = s)))

/-- R419 to R421 and Table 15.3: a master sends the frame of the last multiple of 1,000,000 ns, and that frame is sound; a
follower repeats a frame, counts it as valid or bad, measures its offset, and moves between its lock states. -/
def Obligations.TsyncCascade : Prop :=
  (∀ n < 18446744073709, frameSound (tsyncBits (n * 1000000)) = true ∧ frameT (tsyncBits (n * 1000000)) = n * 1000000) ∧
  (∀ s : State, completes .tsyncFrameSend [.out] s (fun t =>
    if s.clocked = true ∧ s.dev.role = true then
      sends [.tsyncFrame (tsyncBits (s.thy.now.toNat / 1000000 * 1000000))] s t
    else t = s)) ∧
  (∀ (edge : Nat) (bits : BitVec 80) (s : State), completes (.tsyncFrameReceive edge bits)
    (Comp.log ++ Comp.allThy ++ [.freeIdx, .out, .reg .THYME_CNT_BADFRAME, .reg .THYME_CNT_FRAME, .reg .THYME_CNT_STEP,
      .reg .THYME_CNT_UNLOCK]) s (fun t =>
    if s.clocked = true ∧ s.dev.role = false then
      sends [.tsyncFrame bits] s t ∧
      (if frameSound bits = true ∧ intervalOk s.thy.prev (frameT bits) edge = true then
        let off : Int := (frameT bits : Int) + s.regNat .THYME_DELAY_NS 0 0 - edge
        let far : Prop := s.thy.lock ≠ .locked ∨ 100 < off.natAbs
        t.reg .THYME_CNT_FRAME 0 0 = s.reg .THYME_CNT_FRAME 0 0 + 1 ∧ t.thy.offset = off ∧
        (far ∧ 1000 < off.natAbs → t.thy.now = s.thy.now + BitVec.ofInt 64 (round10 off)) ∧
        (¬ (far ∧ 1000 < off.natAbs) → t.thy.now = s.thy.now) ∧
        t.thy.lock = (match s.thy.lock with
          | .free => .acquiring
          | .holdover => .acquiring
          | .acquiring => if off.natAbs ≤ 20 ∧ 8 ≤ s.thy.good + 1 then .locked else .acquiring
          | .locked => if 100 < off.natAbs then .acquiring else .locked)
      else t.reg .THYME_CNT_BADFRAME 0 0 = counted (s.reg .THYME_CNT_BADFRAME 0 0) ∧ t.thy = s.thy)
    else t = s)) ∧
  (∀ s : State, completes .tsyncTimeout (Comp.log ++ Comp.allThy ++ [.reg .THYME_CNT_UNLOCK]) s (fun t =>
    if s.clocked = true ∧ s.dev.role = false then
      t.thy.prev = none ∧ t.thy.good = 0 ∧ t.thy.now = s.thy.now ∧
      (s.thy.lock = .locked → t.thy.lock = .holdover ∧
        t.reg .THYME_CNT_UNLOCK 0 0 = counted (s.reg .THYME_CNT_UNLOCK 0 0) ∧
        logged 0x9020#16 12 0 0xFFFF 0xFF (BitVec.ofInt 64 s.thy.offset) s t) ∧
      (s.thy.lock ≠ .locked → t.thy.lock = s.thy.lock)
    else t = s))

/-! ## DRAM -/

/-- A request that DRAM cannot serve now waits at its port and changes nothing else (R330, R332, R335; log 78). R326: a full
write stores its 64 bytes, clears the block's poison and leaves every other byte and block. R325, R337: a read counts its 64
bytes; one that finds its block good changes nothing else; a mismatch that the re-read clears, one that it does not clear,
and a poisoned block count in DMC_CH_ERR and are logged by their kind; a mismatch that the re-read does not clear leaves the
block poisoned, with the data of the second read. R326: a write of less than a block stores its bytes and no others, unless
the block is poisoned or its read fails twice; then it is discarded, and 0x5022 is logged. -/
def Obligations.DramReadsAndWrites : Prop :=
  ((∀ (port b : Nat) (data : List Byte) (s : State),
    completes (.dramWrite port b data) [.dramBytes, .dramPoison, .dramFinds, .dramHeld, .reg .DMC_CNT_WR] s (fun t =>
    if s.clocked = true ∧ b * 64 < dramSize s.dev.part ∧ data.length = 64 then
      (s.serves (.write port b data) = false → t = s.hold (.write port b data)) ∧
      (s.serves (.write port b data) = true →
        (∀ i (h : i < data.length), t.dramByte (b * 64 + i) = data[i]) ∧
        (∀ a, (a < b * 64 ∨ b * 64 + 64 ≤ a) → t.dramByte a = s.dramByte a) ∧
        (∀ c, t.poisoned c = (if c = b then false else s.poisoned c)) ∧ t.dram.held = s.dram.held ∧
        ((s.blockLoc b).dmc < 2 →
          t.reg .DMC_CNT_WR (s.blockLoc b).dmc 0 = s.reg .DMC_CNT_WR (s.blockLoc b).dmc 0 + 64))
    else t = s)) ∧
  (∀ (port b : Nat) (bad1 bad2 : Bool) (second : List Byte) (s : State),
    completes (.dramRead port b bad1 bad2 second) (Comp.dramSeen ++ [.dramBytes, .dramPoison, .dramHeld]) s (fun t =>
    let q : DramReq := .read port b bad1 bad2 second
    let l := s.blockLoc b
    let errs : W64 → Prop := fun v => l.dmc < 2 → t.reg .DMC_CH_ERR l.dmc (l.channel % 32) = v
    if s.clocked = true ∧ b * 64 < dramSize s.dev.part then
      (s.serves q = false → t = s.hold q) ∧
      (s.serves q = true → t.dram.held = s.dram.held ∧
        (l.dmc < 2 → t.reg .DMC_CNT_RD l.dmc 0 = s.reg .DMC_CNT_RD l.dmc 0 + 64) ∧
        (s.poisoned b = false → bad1 = false → t.dram = s.dram ∧ t.icu = s.icu) ∧
        (s.poisoned b = false → bad1 = true → bad2 = false →
          t.dram.bytes = s.dram.bytes ∧ t.dram.poison = s.dram.poison ∧ dmcLogged l 1 port s t ∧
          errs (bumpField (s.reg .DMC_CH_ERR l.dmc (l.channel % 32)) 0 32)) ∧
        (s.poisoned b = false → bad1 = true → bad2 = true →
          t.dram.bytes = Mem.writeList s.dram.bytes (b * 64) (second.take 64) ∧
          (∀ c, t.poisoned c = (if c = b then true else s.poisoned c)) ∧ dmcLogged l 2 port s t ∧
          errs (bumpField (bumpField (s.reg .DMC_CH_ERR l.dmc (l.channel % 32)) 0 32) 32 16)) ∧
        (s.poisoned b = true → t.dram.bytes = s.dram.bytes ∧ t.dram.poison = s.dram.poison ∧ dmcLogged l 3 port s t ∧
          errs (bumpField (s.reg .DMC_CH_ERR l.dmc (l.channel % 32)) 48 16)))
    else t = s))) ∧
  (∀ (port addr : Nat) (data : List Byte) (bad1 bad2 : Bool) (second : List Byte) (s : State),
    completes (.partialWrite port addr data bad1 bad2 second)
      (Comp.dramSeen ++ [.dramBytes, .dramPoison, .dramHeld, .reg .DMC_CNT_WR]) s (fun t =>
    let q : DramReq := .part port addr data bad1 bad2 second
    let l := s.blockLoc (addr / 64)
    let discarded : Prop := logged 0x5022#16 1 l.channel 0xFFFF 0xFF (BitVec.ofNat 64 l.index) s t
    if s.clocked = true ∧ addr < dramSize s.dev.part ∧ isPartial addr data.length = true then
      (s.serves q = false → t = s.hold q) ∧
      (s.serves q = true → t.dram.held = s.dram.held ∧
        (s.poisoned (addr / 64) = false → (bad1 && bad2) = false →
          (∀ i (h : i < data.length), t.dramByte (addr + i) = data[i]) ∧
          (∀ a, (a < addr ∨ addr + data.length ≤ a) → t.dramByte a = s.dramByte a) ∧ t.dram.poison = s.dram.poison ∧
          (l.dmc < 2 → t.reg .DMC_CNT_WR l.dmc 0 = s.reg .DMC_CNT_WR l.dmc 0 + 64)) ∧
        (s.poisoned (addr / 64) = false → (bad1 && bad2) = true →
          t.dram.bytes = Mem.writeList s.dram.bytes (addr / 64 * 64) (second.take 64) ∧
          (∀ c, t.poisoned c = (if c = addr / 64 then true else s.poisoned c)) ∧
          (∃ e, t.icu.log.head? = some e ∧ e.status = 0x5022#16 ∧ e.unit = 1 ∧ e.index = l.channel)) ∧
        (s.poisoned (addr / 64) = true → t.dram.bytes = s.dram.bytes ∧ t.dram.poison = s.dram.poison ∧
          dmcLogged l 4 port s t ∧ discarded))
    else t = s))

/-- R332: a refresh counts for its bank alone and needs running DRAM; DRAM that enters self-refresh comes to be in it. R335: a
start puts a group into recalibration with its delays noted; one for a second group of the controller sets 0x2070 and does
nothing else. An end puts the new delays into service, with the temperature of their setting. An ending otherwise is due at a
coolant stop, with 0x5031, or when the time limit has passed, with 0x5030. At either end the requests that waited are
performed in order (log 78). R334, R336: a training command is taken for a channel of the group in recalibration and writes its
pattern to the training row of the channel's bank 0; its result shows the lanes that matched; a delay register takes a write
while its group is in recalibration, else the write is discarded and noted; a drift above the limit raises the controller's
drift source. -/
def Obligations.RefreshRecalibrationAndTraining : Prop :=
  ((∀ (ch bank : Nat) (s : State), completes (.bankRefresh ch bank) [.dramDmcs] s (fun t =>
    if s.dev.dramMode = .running ∧ ch < 8 * groupCount s.dev.part ∧ bank < 16 then
      ∀ d k, SMap.get (fun _ => 0) (t.dmc d).refreshes k =
        SMap.get (fun _ => 0) (s.dmc d).refreshes k + (if d = ch / 32 ∧ k = ch % 32 * 16 + bank then 1 else 0)
    else t = s)) ∧
  (∀ s : State, completes .selfRefreshEntry [.devDramMode] s (fun t =>
    if s.dev.dramMode = .entering then t.dev.dramMode = .selfRefresh else t = s))) ∧
  ((∀ (d g : Nat) (s : State), completes (.recalStart d g) [.dramDmcs, .reg .DMC_RECAL_STATUS] s (fun t =>
    if towerPresent s.dev.part d = true ∧ g < 4 then
      (∀ h old, (s.dmc d).recal = some (h, old) → h ≠ g → t.dram = s.dram ∧ t.reg .DMC_RECAL_STATUS d 0 = 0x2070) ∧
      (∀ old, (s.dmc d).recal = some (g, old) → t = s) ∧
      ((s.dmc d).recal = none → (t.dmc d).recal = some (g, s.groupDelays d g) ∧ (t.dmc d).recalStartNs = s.nowNs ∧
        t.reg .DMC_RECAL_STATUS d 0 = 0 ∧ ∀ e, e ≠ d → t.dmc e = s.dmc e)
    else t = s)) ∧
  (∀ (d : Nat) (s : State),
    completes (.recalEnd d) (Comp.ports ++ [.reg .DMC_RECAL_STATUS, .reg .DMC_TEMP_CAL]) s (fun t =>
    match (s.dmc d).recal with
    | none => t = s
    | some (g, _) => (t.dmc d).recal = none ∧ (d < 2 → t.reg .DMC_RECAL_STATUS d 0 = 0 ∧
        t.reg .DMC_TEMP_CAL d 0 = putByte (s.reg .DMC_TEMP_CAL d 0) g
          (field (s.regNat .DMC_TEMP d 0) (8 * g) 8)) ∧
        (s.dram.held = [] → t.dram.bytes = s.dram.bytes ∧ t.dram.poison = s.dram.poison ∧ t.out = s.out ∧
          ∀ e, e ≠ d → t.dmc e = s.dmc e))) ∧
  (∀ (d : Nat) (s : State), completes (.recalTimeout d) (Comp.ports ++ [.reg .DMC_RECAL_STATUS, .regs]) s (fun t =>
    let due := s.weir.coolant ≠ .none ∨ (s.dmc d).recalStartNs + s.recalLimitNs d ≤ s.nowNs
    (((s.dmc d).recal = none ∨ ¬ due) → t = s) ∧
    ((s.dmc d).recal ≠ none → due → (t.dmc d).recal = none ∧
        (d < 2 → t.reg .DMC_RECAL_STATUS d 0 = if s.weir.coolant = .none then 0x5030 else 0x5031) ∧
        (s.dram.held = [] → t.dram.bytes = s.dram.bytes ∧ t.dram.poison = s.dram.poison ∧ t.out = s.out ∧
          ∀ e, e ≠ d → t.dmc e = s.dmc e))))) ∧
  ((∀ (d ch p : Nat) (s : State), completes (.trainingCommand d ch p) [.dramDmcs] s (fun t =>
    (∀ g old, (s.dmc d).recal = some (g, old) → ch / 8 = g →
      t.dmc d = { s.dmc d with
        training := some ch
        trainRows := SMap.set (fun _ => none) (s.dmc d).trainRows (ch * 16) (some (p % 4)) } ∧
      ∀ e, e ≠ d → t.dmc e = s.dmc e) ∧
    (((s.dmc d).recal = none ∨ ∃ g old, (s.dmc d).recal = some (g, old) ∧ ch / 8 ≠ g) → t = s))) ∧
  (∀ (d : Nat) (pass : BitVec 136) (s : State),
    completes (.trainingComplete d pass) [.dramDmcs, .reg .DMC_TRAIN_PASS] s (fun t =>
    if (s.dmc d).training.isSome = true then
      t.dmc d = { s.dmc d with training := none } ∧ (∀ e, e ≠ d → t.dmc e = s.dmc e) ∧
      (d < 2 → ∀ w < 5, t.reg .DMC_TRAIN_PASS d w = ((pass >>> (32 * w)).setWidth 32).setWidth 64)
    else t = s)) ∧
  (∀ (off : Nat) (v : W32) (s : State),
    completes (.delayRegisterWrite off v) [.reg .DMC_DLY, .reg .DMC_DLY_CA, .reg .DMC_STATUS] s (fun t =>
    (∀ l, regAt off = some l → isDelay l = true → towerPresent s.dev.part l.unit = true →
      (∀ g old, (s.dmc l.unit).recal = some (g, old) → delayChannel l / 8 = g →
        t.reg l.row.name l.unit l.idx = v.setWidth 64 &&& BitVec.ofNat 64 l.row.mask) ∧
      ((∀ g old, (s.dmc l.unit).recal = some (g, old) → delayChannel l / 8 ≠ g) →
        t.reg .DMC_STATUS l.unit 0 = s.reg .DMC_STATUS l.unit 0 ||| 1#64 ∧
        t.reg l.row.name l.unit l.idx = s.reg l.row.name l.unit l.idx)) ∧
    ((∀ l, regAt off = some l → isDelay l = true → towerPresent s.dev.part l.unit = false) → t = s))) ∧
  (∀ (d g temp : Nat) (s : State), completes (.tempDrift d g temp) (Comp.source ++ [.reg .DMC_TEMP]) s (fun t =>
    if towerPresent s.dev.part d = true ∧ g < 4 then
      t.reg .DMC_TEMP d 0 = putByte (s.reg .DMC_TEMP d 0) g temp ∧
      (s.regNat .DMC_DRIFT_C d 0 < s.drift d g temp → raised (12 + 2 * d) s t) ∧
      (s.regNat .DMC_DRIFT_C d 0 ≥ s.drift d g temp → t.icu = s.icu)
    else t = s)))

/-- R335: every step keeps it that the delays which a recalibration has noted are those of its group. An ending otherwise, at a
coolant stop or when the time limit has passed, restores the delays that were in force at the start, whatever was written in
between, and where no request waits it touches no register but the group's delays and the status. Delay registers hold 32
bits. -/
def Obligations.RecalibrationRestoresDelays : Prop :=
  (∀ s t : State, s.delaysNoted → step s = .next t → t.delaysNoted) ∧
  ∀ (d g : Nat) (s a b t : State), s.memWf = true → (s.dmc d).recal = none → towerPresent s.dev.part d = true → g < 4 →
    exec (.recalStart d g) s = .next a → (b.dmc d).recal = (a.dmc d).recal →
    (b.weir.coolant ≠ .none ∨ (b.dmc d).recalStartNs + b.recalLimitNs d ≤ b.nowNs) →
    exec (.recalTimeout d) b = .next t →
    ∀ off, off ≠ regOff .DMC_RECAL_STATUS d 0 → (inDelays d g off = true ∨ b.dram.held = []) →
      (s.stored off).toNat < 2 ^ 32 →
      t.stored off = if inDelays d g off = true then s.stored off else b.stored off

/-! ## Buffer pools -/

/-- R339: the eight bytes of a handle hold its address in bits 47 to 0, its pool in bits 55 to 48 and 0 above, and give both
back. -/
def Obligations.HandleRoundTrip : Prop :=
  ∀ h : Handle, h.addr < 2 ^ 48 → h.pool < 256 →
    h.word % 2 ^ 48 = h.addr ∧ h.word / 2 ^ 48 % 256 = h.pool ∧ h.word / 2 ^ 56 = 0 ∧
    handleOf h.word = h ∧ handleOf ((BitVec.ofNat 64 h.word).toNat) = h

/-- R341, R342, R345: an allocation takes one handle of the pool's cache, of which a batch of the ring is moved in first where it
is empty; from an empty pool, and from one that is reinitialising, it fails and is counted; it waits while the ring that it
needs cannot be reached. A release puts its handle into the cache of the pool that it names; one that names no pool, or a full
one, is discarded with 0x2060. R342, R344, R345: Cistern moves batches between a pool's cache and its ring; the host's releases
obey the pool's owner; a pool that has been reinitialised holds every handle in its ring again. -/
def Obligations.BufferPools : Prop :=
  ((∀ (n : Nat) (s : State), completes (.bufferAlloc n) (Comp.dramSeen ++ [.freeIdx, .pools, .reg .CISTERN_CNT_ALLOC]) s
    (fun t =>
    (s.pool n = none → t = s) ∧
    ∀ p, s.pool n = some p →
      (p.reinit = false → p.cache ≠ [] →
        t.reg .CISTERN_CNT_ALLOC 0 0 = s.reg .CISTERN_CNT_ALLOC 0 0 + 1 ∧ t.dram = s.dram ∧ t.icu = s.icu ∧
        ∃ i < p.cache.length, t.pool n =
          some { p with cache := dropAt i p.cache, lowest := min p.lowest (p.free - 1) }) ∧
      (p.reinit = false → p.cache = [] → p.head < p.tail → s.ringReach p = true →
        s.ringEntries p p.head (min 32 (p.tail - p.head)) ≠ [] →
        t.reg .CISTERN_CNT_ALLOC 0 0 = s.reg .CISTERN_CNT_ALLOC 0 0 + 1 ∧
        ∃ i < (s.ringEntries p p.head (min 32 (p.tail - p.head))).length, ∃ low ≤ p.lowest, t.pool n =
          some { p with cache := dropAt i (s.ringEntries p p.head (min 32 (p.tail - p.head)))
                        head := p.head + min 32 (p.tail - p.head), lowest := low }) ∧
      (p.reinit = false → p.cache = [] → p.head < p.tail → s.ringReach p = false → t = s) ∧
      ((p.reinit = true ∨ p.cache = [] ∧ p.head = p.tail) →
        t.pool n = some { p with fails := satNat 0xFFFFFFFF (p.fails + 1) } ∧ t.dram = s.dram ∧ t.icu = s.icu ∧
        t.reg .CISTERN_CNT_ALLOC 0 0 = s.reg .CISTERN_CNT_ALLOC 0 0))) ∧
  (∀ (h : W64) (s : State), completes (.bufferRelease h) Comp.buffers s (released (handleOf h.toNat) 0xFF s))) ∧
  ((∀ (n : Nat) (s : State), completes (.cacheRefill n) (Comp.dramSeen ++ Comp.dramPut ++ [.pools]) s (fun t =>
    (s.pool n = none → t = s) ∧
    (∀ p, s.pool n = some p →
      ((s.ringReach p = false ∨ (16 ≤ p.cache.length ∨ p.tail ≤ p.head) ∧ p.cache.length ≤ 48) → t = s) ∧
      (s.ringReach p = true → p.cache.length < 16 → p.head < p.tail →
        t.pool n = some (Pool.lower { p with
          cache := p.cache ++ s.ringEntries p p.head (min 32 (p.tail - p.head))
          head := p.head + min 32 (p.tail - p.head) }) ∧
        t.dram.bytes = s.dram.bytes ∧ t.dram.poison = s.dram.poison) ∧
      (s.ringReach p = true → 48 < p.cache.length →
        t.pool n = some { p with cache := p.cache.drop 32, tail := p.tail + 32 } ∧
        (64 ≤ p.cap → ∀ a, (a < p.ringAddr ∨ p.ringAddr + 8 * p.cap ≤ a) → t.dramByte a = s.dramByte a))))) ∧
  (∀ (fn : Nat) (h : W64) (s : State), completes (.cisternHostFree fn h) Comp.buffers s (fun t =>
    (s.pool (handleOf h.toNat).pool = none → released (handleOf h.toNat) fn s t) ∧
    ∀ p, s.pool (handleOf h.toNat).pool = some p →
      (fn ≠ 0 → p.owner ≠ fn → p.owner ≠ 0xFFFF →
        t.pools = s.pools ∧ t.dram = s.dram ∧
        t.reg .CISTERN_CNT_DISCARD 0 0 = counted (s.reg .CISTERN_CNT_DISCARD 0 0) ∧ logged 0x2061#16 7 0 0xFFFF fn 0 s t) ∧
      ((fn = 0 ∨ p.owner = fn ∨ p.owner = 0xFFFF) → released (handleOf h.toNat) fn s t))) ∧
  (∀ (n : Nat) (s : State), completes (.poolReinitComplete n) (Comp.dramPut ++ [.pools]) s (fun t =>
    (s.pool n = none → t = s) ∧
    ∀ p, s.pool n = some p →
      ((p.reinit = false ∨ s.ringReach p = false) → t = s) ∧
      (p.reinit = true → s.ringReach p = true →
        t.pool n = some (Pool.lower { p with cache := [], head := 0, tail := p.count, reinit := false }) ∧
        (p.ringAddr % 64 = 0 → (∀ i < p.count, t.poisoned ((p.ringAddr + 8 * i) / 64) = false ∧
            t.dramRd (p.ringAddr + 8 * i) 8 = (Handle.mk (p.base + i * p.size) p.id).word) ∧
          ∀ a, (a < p.ringAddr ∨ p.ringAddr + (8 * p.count + 63) / 64 * 64 ≤ a) → t.dramByte a = s.dramByte a)))))

/-! ## Power and thermal -/

/-- R348 and Table 13.1: a domain is gated only where its condition holds; a core then loses its stores and LOAD records, a basin
its contents, the track engine its cache, and an engine's status registers keep what they show. A sprint without a cluster at
a sprint point ends (R370, log 79). A domain that is asked to wake is waking, and is live when its wake completes; the first
of a cluster starts it at point 0, and from there it goes to its effective point. R352, R354: a cluster's clock falls at once
to its effective point, and rises to it only when the rail supports it: the rail is raised first, and the clock switches when
it has settled. Where that leaves no cluster allowed a sprint point, or none at one, sprint ends with 0x7006. -/
def Obligations.DomainsAndClocks : Prop :=
  ((∀ (d : Domain) (s : State), completes (.powerGate d)
    (Comp.sprint ++ [.sluBasins, .sluCores, .weirLive, .trkCache, .reg .DEC_CTX_USED]) s (fun t =>
    if s.mayGate d = true then
      t.domainLive d = false ∧ (∀ e, e ≠ d → t.domainLive e = s.domainLive e) ∧
      (∀ n, d = .core n → (t.core n).st = .gated ∧ (t.core n).slots = [] ∧ (t.core n).loads = [] ∧
        (t.core n).inits = [] ∧ (t.core n).kept = [] ∧ (t.core n).bankA = [] ∧ (t.core n).bankB = [] ∧
        (t.core n).codebook = [] ∧ (t.core n).loaded = none) ∧
      (∀ n, d ≠ .core n → t.core n = s.core n) ∧
      (∀ n, d = .basin n → t.basin n = []) ∧ (∀ n, d ≠ .basin n → t.basin n = s.basin n) ∧
      (d = .track → t.trk.cache = []) ∧ (d ≠ .track → t.trk.cache = s.trk.cache) ∧
      (∀ n k, d = .decode n → n < 4 → k < 4 → t.reg .DEC_CTX_USED (4 * n + k) 0 =
        if s.decHeld (4 * n + k) = true then s.reg .DEC_CTX_USED (4 * n + k) 0 else s.ctxUsed (4 * n + k)) ∧
      (s.weir.sprint.on = false → t.weir.cls = s.weir.cls ∧ t.weir.railMv = s.weir.railMv ∧ t.icu = s.icu) ∧
      (s.weir.sprint.on = true → (∀ n < 4, t.clusterLive n = true → (s.clPwr n).point ≤ 5 ∧ (s.clPwr n).want = none) →
        sprintEnds 0x7006#16 s t)
    else t = s)) ∧
  (∀ (d : Domain) (s : State), completes (.domainWake d) [.weirWaking] s (fun t =>
    if s.clocked = true ∧ domainPresent s.dev.part d = true ∧ s.domainLive d = false ∧ d ∉ s.weir.waking then
      t.weir.waking = s.weir.waking ++ [d]
    else t = s)) ∧
  (∀ (d : Domain) (s : State), completes (.domainWakeComplete d) (Comp.point ++ [.sluCores, .weirLive, .weirWaking]) s
    (fun t =>
    if s.clocked = true ∧ d ∈ s.weir.waking then
      t.domainLive d = true ∧ (∀ e, e ≠ d → t.domainLive e = s.domainLive e) ∧
      t.weir.waking = s.weir.waking.filter (fun x => x != d) ∧
      (∀ n, t.core n = if d = .core n ∧ (s.core n).st = .gated then { s.core n with st := .idle } else s.core n) ∧
      (∀ c, (d = .basin c ∨ ∃ n, d = .core n ∧ n / 8 = c) →
        (∀ m, m ≠ c → t.clPwr m = s.clPwr m) ∧
        (s.clusterLive c = true → t.clPwr c = s.clPwr c ∧ t.weir.railMv = s.weir.railMv) ∧
        (s.clusterLive c = false → clusterPresent s.dev.part c = true → (s.clPwr c).stopped = false →
          t.clPwr c = { s.clPwr c with
            point := 0, want := if 0 < t.effectivePoint c then some (t.effectivePoint c) else none } ∧
          railSupports c (t.effectivePoint c) t))
    else t = s))) ∧
  ((∀ (n : Nat) (s : State), completes (.operatingPointChange n) Comp.sprint s (fun t =>
    let p := s.effectivePoint n
    let stays : Prop := (∃ m < 4, s.sprintAllowed m = true) ∧ ∃ m < 4, s.clusterLive m = true ∧
      6 ≤ if m = n then p else max (s.clPwr m).point ((s.clPwr m).want.getD 0)
    ((s.clocked = false ∨ 4 ≤ n) → t = s) ∧
    ((s.clPwr n).stopped = true → s.weir.sprint.on = false → t = s) ∧
    (s.clocked = true → n < 4 → (s.clPwr n).stopped = false → clusterPresent s.dev.part n = true →
      (s.weir.sprint.on = false ∨ stays →
        t.weir.sprint = s.weir.sprint ∧ t.icu = s.icu ∧ (∀ m, m ≠ n → t.clPwr m = s.clPwr m) ∧
        ((s.clPwr n).point < p → t.clPwr n = { s.clPwr n with want := some p } ∧ railSupports n p t) ∧
        (p ≤ (s.clPwr n).point → t.clPwr n = { s.clPwr n with point := p, want := none })) ∧
      (s.weir.sprint.on = true → ¬ stays → sprintEnds 0x7006#16 s t)))) ∧
  (∀ (n : Nat) (s : State), completes (.clockSwitch n) Comp.sprint s (fun t =>
    (∀ p, (s.clPwr n).want = some p → s.clocked = true → (s.clPwr n).stopped = false →
      s.needMv (min p (s.effectivePoint n)) ≤ s.weir.railMv →
      let q := min p (s.effectivePoint n)
      let stays : Prop := (∃ m < 4, s.sprintAllowed m = true) ∧ ∃ m < 4, s.clusterLive m = true ∧
        6 ≤ if m = n then q else max (s.clPwr m).point ((s.clPwr m).want.getD 0)
      (s.weir.sprint.on = false ∨ stays →
        t.weir.sprint = s.weir.sprint ∧ t.icu = s.icu ∧ (∀ m, m ≠ n → t.clPwr m = s.clPwr m) ∧
        t.clPwr n = { s.clPwr n with point := q, want := none } ∧ railSupports n q t) ∧
      (s.weir.sprint.on = true → ¬ stays → sprintEnds 0x7006#16 s t)) ∧
    (((s.clPwr n).want = none ∨ s.clocked = false ∨ (s.clPwr n).stopped = true ∨
      ∃ p, (s.clPwr n).want = some p ∧ ¬ s.needMv (min p (s.effectivePoint n)) ≤ s.weir.railMv) → t = s))))

/-- R360, R361, R377: a sample is charged to the device, in parts to the contexts whose commands run and the rest to idle
energy; above the cap the common ceiling falls below the highest point allowed to a live cluster, and the clusters with it,
and at point 0 the duty falls by 1/8 down to 1/4; below the cap the duty comes back first. A window that misses the cap
reports 0x7001, counts, is logged, and raises the power source at most once in 100 ms; one with a switch of Weir's firmware is
not counted (R449). -/
def Obligations.PowerCapping : Prop :=
  (∀ (mw uj : Nat) (s : State), completes (.powerSample mw uj)
    [.freeIdx, .reg .WEIR_CTX_UJ, .reg .WEIR_E_DEVICE_UJ, .reg .WEIR_E_IDLE_UJ, .weirSampleMw] s (fun t =>
    if s.clocked = true then
      t.weir.sampleMw = mw ∧ t.reg .WEIR_E_DEVICE_UJ 0 0 = s.reg .WEIR_E_DEVICE_UJ 0 0 + BitVec.ofNat 64 uj ∧
      (∀ c, regOk .WEIR_CTX_UJ 0 c = true → c ∉ s.holders → t.reg .WEIR_CTX_UJ 0 c = s.reg .WEIR_CTX_UJ 0 c) ∧
      (∃ k ≤ uj, t.reg .WEIR_E_IDLE_UJ 0 0 = s.reg .WEIR_E_IDLE_UJ 0 0 + BitVec.ofNat 64 k) ∧
      (s.holders = [] → t.reg .WEIR_E_IDLE_UJ 0 0 = s.reg .WEIR_E_IDLE_UJ 0 0 + BitVec.ofNat 64 uj)
    else t = s)) ∧
  (∀ s : State, completes .capAdjust (Comp.sprint ++ [.weirDuty]) s (fun t =>
    if s.clocked = true then
      ((s.fixedClock = true ∨ s.effCap = 0) → t.weir.duty = 8 ∧ ∀ n < 4, (t.clPwr n).capPt = 7) ∧
      (s.fixedClock = false → s.effCap ≠ 0 →
        (s.effCap < s.weir.sampleMw → s.topPoint = 0 → t.weir.duty = max 2 (s.weir.duty - 1)) ∧
        (s.effCap < s.weir.sampleMw → s.topPoint ≠ 0 →
          t.weir.duty = s.weir.duty ∧ ∀ n < 4, (t.clPwr n).capPt = s.topPoint - 1 ∧
            (s.clusterLive n = true → (s.clPwr n).stopped = false →
              (t.clPwr n).point ≤ s.topPoint - 1 ∧ (t.clPwr n).want.getD 0 ≤ s.topPoint - 1)) ∧
        (s.weir.sampleMw < s.effCap → s.weir.duty < 8 → t.weir.duty = s.weir.duty + 1) ∧
        (s.weir.sampleMw < s.effCap → 8 ≤ s.weir.duty →
          t.weir.duty = s.weir.duty ∧ ∀ n < 4, (t.clPwr n).capPt = min 7 (s.ceiling + 1)) ∧
        (s.weir.sampleMw = s.effCap → t = s))
    else t = s)) ∧
  (∀ (mw : Nat) (s : State), completes (.capWindowEnd mw)
    (Comp.log ++ [.reg .WEIR_CNT_CAPMISS, .reg .WEIR_STATUS, .weirLastMissNs, .weirPowerMw, .weirSwitched]) s (fun t =>
    if s.clocked = true then
      t.weir.powerMw = mw ∧ t.weir.switched = false ∧
      (s.capMissed mw = true → t.reg .WEIR_STATUS 0 0 = 0x7001 ∧
        t.reg .WEIR_CNT_CAPMISS 0 0 =
          (if s.weir.switched = true then s.reg .WEIR_CNT_CAPMISS 0 0 else counted (s.reg .WEIR_CNT_CAPMISS 0 0)) ∧
        logged 0x7001#16 9 0 0xFFFF 0xFF (BitVec.ofNat 64 mw) s t ∧
        let due : Prop := ∀ n, s.weir.lastMissNs = some n → n + 100000000 ≤ s.dev.aoNs
        (due → raised 3 s t ∧ t.weir.lastMissNs = some s.dev.aoNs) ∧
        (¬ due → t.weir.lastMissNs = s.weir.lastMissNs ∧
          t.icu.pend.getLsbD 3 = s.icu.pend.getLsbD 3 ∧ t.icu.cond.getLsbD 3 = s.icu.cond.getLsbD 3)) ∧
      (s.capMissed mw = false → t.icu = s.icu ∧ t.regs = s.regs ∧ t.weir.lastMissNs = s.weir.lastMissNs)
    else t = s))

/-- R362, R370, R458: when PWR_BRAKE_N or the regulator's alert is asserted on a ready device, every present cluster stops, a
sprint ends, restarts that still wait are given up, and 0x7011 is reported, counted and logged with the power measured; source
5 follows the pin PWR_BRAKE_N. R363, R458: when both pins are released the present clusters are to restart in ascending order
(none in a coolant stop, R375); the next of them restarts at its effective point, with a rail that supports it, and its cores
take the kills that waited for their clock, unless its thermal limit is below point 0. -/
def Obligations.BrakeStopAndRestart : Prop :=
  (∀ s : State,
    let braked : State → Prop := fun t =>
      (s.dev.life = .ready → s.weir.brake = false →
        t.weir.brake = true ∧ t.weir.restart = [] ∧ t.weir.sprint.on = false ∧
        (∀ n < 4, clusterPresent s.dev.part n = true → (t.clPwr n).stopped = true) ∧
        (s.weir.sprint.on = true → raised 3 s t ∧ ∀ n < 4, (t.clPwr n).point ≤ 5) ∧
        t.reg .WEIR_STATUS 0 0 = 0x7011 ∧ t.reg .WEIR_CNT_BRAKE 0 0 = counted (s.reg .WEIR_CNT_BRAKE 0 0) ∧
        logged 0x7011#16 9 0 0xFFFF 0xFF (BitVec.ofNat 64 s.weir.sampleMw) s t) ∧
      (s.dev.life ≠ .ready ∨ s.weir.brake = true →
        t.weir = s.weir ∧ t.reg .WEIR_STATUS 0 0 = s.reg .WEIR_STATUS 0 0 ∧ t.icu.log = s.icu.log)
    completes .brakeAssert Comp.brake s (fun t =>
      if s.dev.pins.brake = false then t.dev.pins.brake = true ∧ t.dev.pins.vrAlert = s.dev.pins.vrAlert ∧ braked t ∧
        ((s.dev.life = .ready ∨ s.dev.life = .standby) → edged 5 true s t)
      else t = s) ∧
    completes .vrAlertAssert Comp.brake s (fun t =>
      if s.dev.pins.vrAlert = false then t.dev.pins.vrAlert = true ∧ t.dev.pins.brake = s.dev.pins.brake ∧ braked t
      else t = s)) ∧
  (∀ s : State,
    let released : State → Prop := fun t => t.weir = { s.weir with
      brake := false, restart := if s.weir.coolant = .none then s.clusters else [] }
    completes .brakeDeassert (Comp.source ++ [.devPins, .weirBrake, .weirRestart]) s (fun t =>
      if s.dev.pins.brake = true then t.dev.pins = { s.dev.pins with brake := false } ∧ edged 5 false s t ∧
        (if s.weir.brake = true ∧ s.dev.pins.vrAlert = false then released t else t.weir = s.weir)
      else t = s) ∧
    completes .vrAlertDeassert [.devPins, .weirBrake, .weirRestart] s (fun t =>
      if s.dev.pins.vrAlert = true then t.dev.pins = { s.dev.pins with vrAlert := false } ∧
        (if s.weir.brake = true ∧ s.dev.pins.brake = false then released t else t.weir = s.weir)
      else t = s) ∧
    ∀ n, completes (.clusterRestart n) (Comp.point ++ [.weirRestart, .sluCores]) s (fun t =>
      (∀ ns, s.weir.restart = n :: ns → s.clocked = true → t.weir.restart = ns ∧ (∀ m, m ≠ n → t.clPwr m = s.clPwr m) ∧
        ((s.clPwr n).thermPt ≠ 0 →
          t.clPwr n = { s.clPwr n with stopped := false, point := s.effectivePoint n, want := none } ∧
          railSupports n (s.effectivePoint n) t ∧
          ∀ k, t.core k = if k / 8 = n ∧ (s.core k).killed = true then (s.core k).kill else s.core k) ∧
        ((s.clPwr n).thermPt = 0 → t.clPwr n = s.clPwr n ∧ t.slu = s.slu ∧ t.dev = s.dev)) ∧
      ((s.clocked = false ∨ s.weir.restart.head? ≠ some n) → t = s)))

/-- R364: a droop below the point's voltage less WEIR_DROOP_MV stretches that cluster's clock and counts. R371: each cluster's
temperature is the highest of its four sensors, and WEIR_TJ_C shows the hottest of them all and its place; a limit engages at
WEIR_TJ_LIMIT, at point 5 (log 80), which reports 0x7020, counts, is logged, and ends a sprint of that cluster; the thermal-limit
point goes down by one at the limit, and up by one from 3 °C below it, until it allows point 5 again and the limit is released;
below point 0 the cluster's clock is stopped. R372: a hard stop is recorded in AO, asserts THERMTRIP_N and ends sprint. -/
def Obligations.DroopThermalLimitsAndHardStop : Prop :=
  (∀ (n mv : Nat) (s : State), completes (.droopDetect n mv) [.reg .WEIR_CNT_DROOP, .weirCls] s (fun t =>
    if s.clocked = true ∧ s.clusterLive n = true ∧ (s.clPwr n).stopped = false ∧ (s.clPwr n).stretched = false ∧
        (mv : Int) + s.regNat .WEIR_DROOP_MV 0 0 < s.partMv (s.clPwr n).point then
      t.clPwr n = { s.clPwr n with stretched := true } ∧ (∀ m, m ≠ n → t.clPwr m = s.clPwr m) ∧
      t.reg .WEIR_CNT_DROOP 0 0 = counted (s.reg .WEIR_CNT_DROOP 0 0)
    else t = s)) ∧
  (∀ (n : Nat) (s : State), completes (.droopRecover n) [.weirCls] s (fun t =>
    if s.clocked = true then
      t.clPwr n = { s.clPwr n with stretched := false } ∧ ∀ m, m ≠ n → t.clPwr m = s.clPwr m
    else t = s)) ∧
  (∀ (temps : List Nat) (s : State), completes (.thermalSample temps)
    (Comp.sprint ++ [.reg .WEIR_CNT_THERMAL, .reg .WEIR_TJ_C]) s (fun t =>
    let lim := s.regNat .WEIR_TJ_LIMIT 0 0
    let engages : Nat → Bool := fun n =>
      clusterPresent s.dev.part n && decide (lim ≤ clusterTemp temps n) && !(s.clPwr n).engaged
    let new := (List.range 4).filter engages
    if s.clocked = true then
      t.reg .WEIR_TJ_C 0 0 = BitVec.ofNat 64 ((hottestOf 0 (temps.take 16)).2 % 256 +
        256 * ((hottestOf 0 (temps.take 16)).1 % 16)) ∧
      t.reg .WEIR_CNT_THERMAL 0 0 = countedBy new.length (s.reg .WEIR_CNT_THERMAL 0 0) ∧
      (∀ n < 4, clusterPresent s.dev.part n = true → (t.clPwr n).temp = clusterTemp temps n ∧
        (engages n = true → (t.clPwr n).engaged = true ∧ (t.clPwr n).thermPt = min 6 (s.clPwr n).thermPt ∧
          (s.weir.sprint.on = true → 6 ≤ (s.clPwr n).point → t.weir.sprint.on = false ∧ raised 3 s t)) ∧
        (engages n = false → (clusterTemp temps n + 3 ≤ lim ∧ 6 ≤ (s.clPwr n).thermPt →
            (t.clPwr n).engaged = false ∧ (t.clPwr n).thermPt = 8) ∧
          (¬ (clusterTemp temps n + 3 ≤ lim ∧ 6 ≤ (s.clPwr n).thermPt) →
            (t.clPwr n).engaged = (s.clPwr n).engaged ∧ (t.clPwr n).thermPt = (s.clPwr n).thermPt))) ∧
      (new ≠ [] → t.reg .WEIR_STATUS 0 0 = 0x7020 ∧
        ∃ e, t.icu.log.head? = some e ∧ e.status = 0x7020#16 ∧ e.unit = 9) ∧
      (new = [] → t.icu = s.icu ∧ t.weir.sprint = s.weir.sprint ∧ t.weir.railMv = s.weir.railMv ∧ ∀ n,
        (t.clPwr n).point = (s.clPwr n).point ∧ (t.clPwr n).want = (s.clPwr n).want)
    else t = s)) ∧
  (∀ (n : Nat) (s : State), completes (.thermalLimitStep n) (Comp.sprint ++ [.sluCores]) s (fun t =>
    let c := s.clPwr n
    let lim := s.regNat .WEIR_TJ_LIMIT 0 0
    if s.clocked = true ∧ clusterPresent s.dev.part n = true ∧ c.engaged = true then
      (lim ≤ c.temp →
        (t.clPwr n).thermPt = c.thermPt - 1 ∧ (t.clPwr n).engaged = true ∧ t.slu = s.slu ∧
        (c.thermPt ≤ 1 → (t.clPwr n).stopped = true) ∧
        (1 < c.thermPt → (t.clPwr n).stopped = c.stopped ∧
          (c.stopped = false → (t.clPwr n).point ≤ c.thermPt - 2 ∧ (t.clPwr n).want.getD 0 ≤ c.thermPt - 2))) ∧
      (c.temp + 3 ≤ lim →
        (t.clPwr n).thermPt = (if 5 ≤ c.thermPt then 8 else c.thermPt + 1) ∧
        (t.clPwr n).engaged = decide (c.thermPt < 5) ∧
        (t.clPwr n).stopped = (c.stopped && (s.weir.brake || s.coolantHeld || s.weir.restart.contains n)) ∧
        t.icu = s.icu ∧ t.weir.sprint = s.weir.sprint) ∧
      (c.temp < lim → lim < c.temp + 3 → t = s)
    else t = s)) ∧
  (∀ s : State, completes .hardStop [.devHardStopRec, .devLife, .devPins, .weirSprint] s (fun t =>
    if s.dev.rails.soc = true then
      t.dev.life = .hardStop ∧ t.dev.hardStopRec = true ∧ t.dev.pins = { s.dev.pins with thermtrip := true } ∧
      t.weir.sprint = { s.weir.sprint with
        on := false, budgetNj := 0
        endedNs := if s.weir.sprint.on = true then some s.dev.aoNs else s.weir.sprint.endedNs }
    else t = s))

/-- R365 to R370: a sprint is entered with a budget of 5.0 J/K times the distance to 87 °C, or refused with 0x7004 for its
residency alone. The budget is spent by what is measured above TDP; sprint ends with 0x7002 when it is spent, with 0x7003,
logged, at an excursion, and with 0x7004 when the residency of 24 hours is used up. A minute that ends puts its time at a
sprint point into its bin. -/
def Obligations.SprintEntryAndEnds : Prop :=
  (∀ s : State, completes .sprintEntry (Comp.point ++ [.reg .WEIR_CNT_SPRINT, .reg .WEIR_STATUS, .weirSprint]) s
    (fun t =>
    if s.sprintReady = true then
      (6912 ≤ s.weir.sprint.residency → t.weir = s.weir ∧ t.reg .WEIR_STATUS 0 0 = 0x7004) ∧
      (s.weir.sprint.residency < 6912 → t.weir.sprint =
          { s.weir.sprint with on := true, budgetNj := 5000000000 * ((87 : Int) - s.hottest) } ∧
        t.reg .WEIR_CNT_SPRINT 0 0 = s.reg .WEIR_CNT_SPRINT 0 0 + 1 ∧
        t.reg .WEIR_STATUS 0 0 = s.reg .WEIR_STATUS 0 0)
    else t = s)) ∧
  (∀ s : State, completes .sprintBudgetTick (Comp.sprint ++ [.reg .WEIR_CNT_SPRINT_US]) s (fun t =>
    if s.clocked = true ∧ s.weir.sprint.on = true ∧ s.atSprint = true then
      let b := s.weir.sprint.budgetNj - 10 * ((s.weir.sampleMw : Int) - tdpMw s.dev.part)
      t.reg .WEIR_CNT_SPRINT_US 0 0 = s.reg .WEIR_CNT_SPRINT_US 0 0 + 10 ∧
      (0 < b → s.weir.sprint.residency < 6912 →
        t.weir = { s.weir with sprint := { s.weir.sprint with budgetNj := b } } ∧ t.icu = s.icu) ∧
      (0 < b → 6912 ≤ s.weir.sprint.residency → sprintEnds 0x7004#16 s t) ∧
      (b ≤ 0 → sprintEnds 0x7002#16 s t)
    else t = s)) ∧
  (∀ (ma us : Nat) (s : State), completes (.excursionLimit ma us) Comp.sprint s (fun t =>
    if s.clocked = true ∧ s.weir.sprint.on = true ∧ (260000 < ma ∧ 2000 ≤ us ∨ 280000 < ma) then
      sprintEnds 0x7003#16 s t ∧ logged 0x7003#16 9 0 0xFFFF 0xFF (BitVec.ofNat 64 ma) s t
    else t = s)) ∧
  (∀ (minute : Nat) (s : State), completes (.residencyBinTick minute) Comp.sprint s (fun t =>
    let p := { s.weir.sprint with
      bins := (s.weir.sprint.binNs :: s.weir.sprint.bins).take 1439, binNs := 0, minutes := minute }
    if s.dev.life ≠ .noAux ∧ s.dev.life ≠ .auxReset ∧ minute = s.weir.sprint.minutes + 1 ∧
        minute * 60000000000 ≤ s.dev.aoNs then
      (p.residency < 6912 ∨ s.weir.sprint.on = false → t = s.setSprint p) ∧
      (6912 ≤ p.residency → s.weir.sprint.on = true → sprintEnds 0x7004#16 (s.setSprint p) t)
    else t = s))

/-- R373 to R375: the loss of coolant flow stops the clusters, ends sprint and recalibration, sends DRAM into self-refresh, and
reports 0x7010, counted and logged; the rail falls to 550 mV once self-refresh is reached; source 4 follows the pin. A resume is
obeyed when the flow has held and the die is cool, and is answered with 0x7012 before; the clusters then restart at point 0, but
for those that a brake or a thermal limit still stops, and the requests that waited for DRAM go on (log 101). -/
def Obligations.CoolantStopAndResume : Prop :=
  ∀ s : State,
    (let cs := Comp.sprint ++ [.devDramMode, .dramDmcs, .reg .DMC_RECAL_STATUS, .reg .WEIR_CNT_COOLANT,
      .reg .DEC_CTX_USED, .weirCoolant, .weirCoolantNs, .weirFlowReleasedNs, .weirRestart]
    completes .flowLostAssert (cs ++ [.regs]) s (fun t =>
      (s.delaysNoted → ∀ off, (∀ d g old, (s.dmc d).recal = some (g, old) → inDelays d g off = false) →
        (∃ r u i, .reg r ∈ cs ∧ regOk r u i = true ∧ off = regOff r u i) ∨ t.stored off = s.stored off) ∧
      if s.dev.pins.flowLost = false then
        t.dev.pins.flowLost = true ∧ t.weir.flowReleasedNs = none ∧
        ((s.dev.life = .ready ∨ s.dev.life = .standby) → edged 4 true s t) ∧
        (s.dev.life = .ready → s.weir.coolant = .none →
          t.weir.coolant = .entering ∧ t.weir.coolantNs = s.nowNs ∧ t.weir.restart = [] ∧
          t.dev.dramMode = .entering ∧ t.weir.sprint.on = false ∧
          (∀ n < 4, clusterPresent s.dev.part n = true → (t.clPwr n).stopped = true) ∧
          (∀ d < 2, (t.dmc d).recal = none) ∧ t.reg .WEIR_STATUS 0 0 = 0x7010 ∧
          (s.delaysNoted → (∀ d < 2, (s.dmc d).recal ≠ none → t.reg .DMC_RECAL_STATUS d 0 = 0x5031) ∧
            t.reg .WEIR_CNT_COOLANT 0 0 = counted (s.reg .WEIR_CNT_COOLANT 0 0) ∧
            logged 0x7010#16 9 0 0xFFFF 0xFF (BitVec.ofNat 64 s.hottest) s t)) ∧
        (s.dev.life ≠ .ready ∨ s.weir.coolant ≠ .none →
          t.weir = { s.weir with flowReleasedNs := none } ∧ t.dev.dramMode = s.dev.dramMode ∧ t.icu.log = s.icu.log)
      else t = s)) ∧
    completes .coolantStopReached [.devPins, .weirCoolant, .weirRailMv] s (fun t =>
      if s.weir.coolant = .entering ∧ s.dev.dramMode = .selfRefresh then
        t.weir.coolant = .stopped ∧ t.weir.railMv = 550 ∧ t.dev.pins = { s.dev.pins with vid := 60 }
      else t = s) ∧
    completes .flowLostDeassert (Comp.source ++ [.devPins, .weirFlowReleasedNs]) s (fun t =>
      if s.dev.pins.flowLost = true then
        t.dev.pins = { s.dev.pins with flowLost := false } ∧ t.weir.flowReleasedNs = some s.dev.aoNs ∧ edged 4 false s t
      else t = s) ∧
    (let left : State → Prop := fun t =>
      t.weir.coolant = .none ∧ t.dev.dramMode = .running ∧ t.weir.railMv = (s.needMv 0).toNat ∧
      (∀ n < 4, clusterPresent s.dev.part n = true → t.clPwr n =
        { s.clPwr n with point := 0, want := none, stopped := s.weir.brake || (s.clPwr n).thermPt == 0 }) ∧
      (s.dram.held = [] → t.dram = s.dram ∧ t.out = s.out)
    let cs := Comp.point ++ Comp.lanes ++ Comp.ports ++ [.devDramMode, .weirCoolant]
    completes .resume (.reg .WEIR_STATUS :: cs) s (fun t =>
      (s.mayResume = true → left t ∧ t.reg .WEIR_STATUS 0 0 = s.reg .WEIR_STATUS 0 0) ∧
      (s.mayResume = false → (s.weir.coolant ≠ .none ∨ s.dev.pins.flowLost = true) →
        t.weir = s.weir ∧ t.dev = s.dev ∧ t.dram = s.dram ∧ t.slu = s.slu ∧ t.reg .WEIR_STATUS 0 0 = 0x7012) ∧
      (s.mayResume = false → s.weir.coolant = .none → s.dev.pins.flowLost = false → t = s)) ∧
    completes .autoResume cs s (fun t =>
      if s.regBit .WEIR_CTRL 0 0 1 = true ∧ s.mayResume = true then left t else t = s))

/-! ## The host link and function-level resets -/

/-- R382, R387, R396: a configuration request before device ready is answered with Request Retry Status; one to a function that
is not implemented is an Unsupported Request and counts; a read returns the bytes; a write of a word without side effects
changes each byte in its writable and write-1-to-clear bits, and completes. -/
def Obligations.ConfigurationRequests : Prop :=
  ∀ (fn off width : Nat) (w : Option W32) (s : State), completes (.configRequest fn off width w)
    (Comp.allLdr ++ Comp.source ++ [.fns, .out, .reg .HEP_CNT_UR]) s (fun t =>
    if s.dev.life = .booting then sends [.completion fn .retry []] s t ∧ t.fns = s.fns
    else if s.glbUp = true then
      (s.fnEnabled fn = false → sends [.completion fn .unsupported []] s t ∧
        t.reg .HEP_CNT_UR 0 0 = counted (s.reg .HEP_CNT_UR 0 0)) ∧
      (s.fnEnabled fn = true →
        (w = none → t.fns = s.fns ∧
          sends [.completion fn .ok ((List.range width).map (fun k => s.cfgByte fn (off + k)))] s t) ∧
        (∀ v, w = some v → t.out.getLast? = some (.completion fn .ok []) ∧
          (off % 4 + width ≤ 4 → off / 4 * 4 ∉ [0x44, 0x64, 0x78, 0x288, 0x2A8, 0x2B0] → ∀ k < width,
            t.cfgByte fn (off + k) = mergeByte (s.cfgWord fn (off / 4 * 4)) (off + k) (s.cfgByte fn (off + k))
              (BitVec.ofNat 8 (v.toNat / 256 ^ k)))))
    else t = s)

/-- R387, R5: the first row of Table 14.5 that matches decides a memory request. One that no BAR of an enabled function takes,
or that BAR0 or BAR4 takes with another size or alignment than 4 or 8, is an Unsupported Request: it counts, a read is
answered so, a write has no answer. Reserved space reads as 0 and takes no write. A message of Type 1, or MCTP to a VF, is
discarded; one of Type 0 is answered with Unsupported Request; one of MCTP to the PF
is Odrov's. -/
def Obligations.RequestsThatNothingTakes : Prop :=
  (∀ (fn bar off : Nat) (a : HostAccess) (s : State),
    let ur : State → Prop := fun t => t.reg .HEP_CNT_UR 0 0 = counted (s.reg .HEP_CNT_UR 0 0)
    let only : State → Prop := fun t => changesOnly [.fns, .out, .reg .HEP_CNT_UR] s t
    let refused : State → Prop := fun t => sends [.completion fn .unsupported []] s t ∧ ur t ∧ only t
    ∃ t, exec (.hostMemoryRequest fn bar off a) s = .next t ∧
      (s.linkAlive = false → t = s) ∧
      (s.linkAlive = true →
        (a = .unsupported → refused t) ∧
        (∀ n, a = .read n →
          (¬ (s.memEnabled fn = true ∧ s.inBar fn bar off n = true) → refused t) ∧
          (s.memEnabled fn = true → s.inBar fn bar off n = true → bar ≠ 2 →
            (¬ ((n = 4 ∨ n = 8) ∧ off % n = 0) → refused t) ∧
            ((n = 4 ∨ n = 8) → off % n = 0 → s.allReserved fn bar off n = true →
              sends [.completion fn .ok (List.replicate n 0)] s t ∧ changesOnly [.out] s t))) ∧
        (∀ data ep, a = .write data ep →
          (¬ (s.memEnabled fn = true ∧ s.inBar fn bar off data.length = true) → t.out = s.out ∧ ur t ∧ only t) ∧
          (s.memEnabled fn = true → s.inBar fn bar off data.length = true → bar ≠ 2 →
            (¬ ((data.length = 4 ∨ data.length = 8) ∧ off % data.length = 0) → t.out = s.out ∧ ur t ∧ only t) ∧
            ((data.length = 4 ∨ data.length = 8) → off % data.length = 0 →
              s.allReserved fn bar off data.length = true → t = s))))) ∧
  (∀ (fn : Nat) (b : VdmBody) (s : State), completes (.vendorDefinedMessage fn b)
    (Comp.sprint ++ [.freeIdx, .fns, .out, .reg .HEP_CNT_UR, .reg .ODROV_CNT_ERR, .reg .ODROV_CNT_RX,
      .reg .SAGE_CNT_SPDM, .reg .WEIR_CAP_ODROV_MW, .sageDoeConn, .sageEidSmb, .sageEidVdm, .sageMctpConn]) s (fun t =>
      (s.linkAlive = false → t = s) ∧ (b = .type1 → t = s) ∧ (∀ m, b = .mctp m → fn ≠ 0 → t = s) ∧
      (b = .type0 → s.linkAlive = true → sends [.vdmUnsupported] s t ∧
        t.reg .HEP_CNT_UR 0 0 = counted (s.reg .HEP_CNT_UR 0 0)) ∧
      (∀ m, b = .mctp m → fn = 0 → s.linkAlive = true → exec (.mctpMessage .vdm m) s = .next t)))

/-- R125, R322, R326, R328, R332, R335, R385, R388, R441: BAR2 is DRAM. A request that DRAM cannot serve now waits at its port
(log 78). A read returns the bytes, 0xFF in write windows and poisoned blocks, with EP where poison is met outside windows; a
write stores each byte that no window takes, clears the poison of a block written whole, sets it where EP is set, and is
discarded block by block where a poisoned block is written in part. Every byte outside the write stays. Past populated DRAM a
read returns 0 and a write is lost. While DRAM is not in service, or its key record did not verify, the request is a Completer
Abort and counts. While a load is in progress a read returns unspecified bytes. -/
def Obligations.HostAccessToDram : Prop :=
  ∀ (off : Nat) (s : State), s.linkAlive = true → s.memEnabled 0 = true →
    let keyBad : Prop := s.dev.recovery = 0x8009#16
    let rejects : Prop := keyBad ∨ s.dev.dramMode ≠ .running
    let aborted : State → Prop := fun t => t.reg .HEP_CNT_CA 0 0 = counted (s.reg .HEP_CNT_CA 0 0) ∧ t.dram = s.dram ∧
      (¬ keyBad → (s.blockLoc (off / 64)).dmc < 2 → t.reg .DMC_CNT_SRREJ (s.blockLoc (off / 64)).dmc 0 =
        counted (s.reg .DMC_CNT_SRREJ (s.blockLoc (off / 64)).dmc 0))
    let cs := Comp.dramSeen ++ [.fns, .freeIdx, .dramHeld, .reg .HEP_CNT_CA, .reg .DMC_CNT_SRREJ]
    (∀ n, s.inBar 0 2 off n = true → completes (.hostMemoryRequest 0 2 off (.read n))
      (cs ++ [.out, .reg .HEP_CNT_EP_TX]) s (fun t =>
      let q : DramReq := .hostRead off n
      (dramSize s.dev.part ≤ off → sends [.completion 0 .ok (leBytes n 0)] s t ∧ changesOnly [.out] s t) ∧
      (off < dramSize s.dev.part →
        (rejects → sends [.completion 0 .abort []] s t ∧ aborted t) ∧
        (¬ rejects → s.serves q = false → t = s.hold q) ∧
        (¬ rejects → s.serves q = true → t.dram.held = s.dram.held ∧
          (s.ldr.state = .loading → ∃ data, data.length = n ∧ sends [.completion 0 .ok data] s t) ∧
          (s.ldr.state ≠ .loading →
            sends [.completion 0 (if s.bar2Ep off n = true then .ep else .ok) ((List.range n).map (fun k =>
              if s.windowed (off + k) = true ∨ s.poisoned ((off + k) / 64) = true then 0xFF#8
              else s.dramByte (off + k)))] s t ∧
            t.reg .HEP_CNT_EP_TX 0 0 =
              if s.bar2Ep off n = true then counted (s.reg .HEP_CNT_EP_TX 0 0) else s.reg .HEP_CNT_EP_TX 0 0))))) ∧
    (∀ data ep, s.inBar 0 2 off data.length = true → completes (.hostMemoryRequest 0 2 off (.write data ep))
      (cs ++ [.dramBytes, .dramPoison, .reg .DMC_CNT_WR, .reg .HEP_CNT_PWDISC, .reg .HEP_LAST_PWDISC, .reg .HEP_CNT_EP_RX])
      s (fun t =>
      let q : DramReq := .hostWrite off data ep
      let opens : Nat → Prop := fun a => off ≤ a ∧ a < off + data.length ∧ s.windowed a = false
      let whole : Nat → Prop := fun b => ∀ k < 64, opens (64 * b + k)
      (dramSize s.dev.part ≤ off → t = s) ∧
      (off < dramSize s.dev.part →
        (rejects → aborted t) ∧
        (¬ rejects → s.serves q = false → t = s.hold q) ∧
        (¬ rejects → s.serves q = true → t.dram.held = s.dram.held ∧ (∀ a, ¬ opens a → t.dramByte a = s.dramByte a) ∧
          (s.ldr.state ≠ .loading →
            (∀ k b, data[k]? = some b → s.windowed (off + k) = false →
              ((ep = true ∨ s.poisoned ((off + k) / 64) = false ∨ whole ((off + k) / 64)) → t.dramByte (off + k) = b) ∧
              (ep = false → s.poisoned ((off + k) / 64) = true → ¬ whole ((off + k) / 64) →
                t.dramByte (off + k) = s.dramByte (off + k))) ∧
            (∀ b, (∃ a, a / 64 = b ∧ opens a) → ep = true → t.poisoned b = true) ∧
            (∀ b, whole b → ep = false → t.poisoned b = false) ∧
            (∀ b, ((∀ a, a / 64 = b → ¬ opens a) ∨ ep = false ∧ ¬ whole b) → t.poisoned b = s.poisoned b))))))

/-- R392, Table 14.7: a device read that fails is counted, by a failed completion or by a time-out, and its status, function and
address are kept; eight polls in a row that fail fault the rill, a failed access unit is skipped, and a failed registry
entry is logged. The completion of a read that timed out is discarded when it arrives. -/
def Obligations.DeviceReadsThatFail : Prop :=
  (∀ (k : ReadKind) (addr : Nat) (s : State),
    let st : Nat := match k with
      | .ring _ => 0x6001
      | .accessUnit _ => 0x6002
      | .registry _ => 0x6003
    let failed : Bool → State → Prop := fun timedOut t =>
      if s.dev.life = .ready ∧ s.reading k = true then
        t.reg .HEP_CNT_CPLTO 0 0 = (if timedOut then counted else id) (s.reg .HEP_CNT_CPLTO 0 0) ∧
        t.reg .HEP_CNT_RDFAIL 0 0 = (if timedOut then id else counted) (s.reg .HEP_CNT_RDFAIL 0 0) ∧
        t.reg .HEP_LAST_RDFAIL 0 0 = BitVec.ofNat 64 addr ∧
        t.reg .HEP_LAST_RDFAIL_INFO 0 0 = BitVec.ofNat 64 (st + 65536 * (s.readFn k % 32)) ∧
        (∀ n, (t.fn n).lateReads = (s.fn n).lateReads + if timedOut = true ∧ n = s.readFn k then 1 else 0) ∧
        (∀ r, k = .ring r → (t.rill r).failedPolls = (s.rill r).failedPolls + 1 ∧
          (t.rill r).st = (if 7 ≤ (s.rill r).failedPolls then .faulted else .attached) ∧
          (7 ≤ (s.rill r).failedPolls → (t.rill r).lastStatus = 0x6001#16) ∧
          logged 0x6001#16 8 0 0xFFFF (s.rill r).fn (BitVec.ofNat 64 addr) s t) ∧
        (∀ r, k = .accessUnit r → (t.rill r).copies <:+ (s.rill r).copies.tail) ∧
        (∀ e, k = .registry e → logged 0x6003#16 8 0 0xFFFF 0 (BitVec.ofNat 64 addr) s t)
      else t = s
    let cs := Comp.buffers ++ Comp.events ++ Comp.lanes ++ [.ingCtxs, .ingFrames, .reg .HEP_CNT_CPLTO,
      .reg .HEP_CNT_RDFAIL, .reg .HEP_LAST_RDFAIL, .reg .HEP_LAST_RDFAIL_INFO, .trkFlows]
    completes (.deviceReadFail k addr) cs s (failed false) ∧
    completes (.completionTimeout k addr) (.fns :: cs) s (failed true)) ∧
  (∀ (fn : Nat) (s : State), completes (.lateCompletion fn) [.fns] s (fun t =>
    if s.linkAlive = true ∧ (s.fn fn).lateReads ≠ 0 then
      t.fn fn = { s.fn fn with lateReads := (s.fn fn).lateReads - 1 } ∧ ∀ m, m ≠ fn → t.fn m = s.fn m
    else t = s))

/-- R398 to R401, R59, R205, R345, R413: an FLR of an enabled function returns its configuration registers to reset, but those
kept through it, and its shadows; one of the PF disables the VFs, each with an FLR of its own, and abandons a load. When the
function's DMA is silenced its rills are detached and its pools begin reinitialisation. When the FLR completes, its MSI-X
table, its metadata ring and the pending state of its sources are at reset, its rills' tracks are gone, and it counts. R402, R404: VF Enable makes
NumVFs VFs enabled, and clearing it begins an FLR of every enabled VF; an entry to D3hot begins the function's FLR and
leaves its power state at D3hot. -/
def Obligations.FunctionLevelResetsAndVfs : Prop :=
  ((∀ (n : Nat) (s : State), completes (.flrInitiate n) (Comp.allLdr ++ Comp.source ++ [.fns]) s (fun t =>
    if s.glbUp = true ∧ s.fnEnabled n = true ∧ (s.fn n).flr = .idle ∧ (s.fn 0).flr = .idle then
      (t.fn n).flr = .initiated ∧ (t.fn n).readShadow = none ∧ (t.fn n).writeShadow = none ∧
      (∀ o, Mem.read (t.fn n).cfg o =
        if (0x104 ≤ o ∧ o < 0x148) ∨ o = 0x45 then Mem.read (s.fn n).cfg o else 0) ∧
      (n ≠ 0 → t.ldr = s.ldr ∧ ∀ m, m ≠ n → t.fn m = s.fn m) ∧
      (n = 0 → t.vfEnable = false ∧
        (∀ m, 0 < m → s.fnEnabled m = true → (t.fn m).flr = if (s.fn m).flr = .idle then .initiated else (s.fn m).flr) ∧
        (s.ldr.load = none → t.ldr = s.ldr) ∧
        (s.ldr.load ≠ none → t.ldr.state = .refused ∧ t.ldr.load = none ∧ t.ldr.status = 0x3013#16))
    else t = s)) ∧
  (∀ (n : Nat) (s : State), completes (.dmaSilenced n) (Comp.step ++ [.dramWindows, .fns, .ingCtxs, .ingEngines, .ingRills,
      .trkCrops, .trkPxes, .trkTracks, .trkCache]) s (fun t =>
    if s.glbUp = true ∧ (s.fn n).flr = .initiated then
      (t.fn n).flr = .silenced ∧ (∀ r, (s.rill r).fn = n → (t.rill r).st = .detached) ∧
      ∀ p ∈ t.pools, p.owner = n → p.reinit = true
    else t = s)) ∧
  (∀ (n : Nat) (s : State), completes (.flrComplete n)
    (Comp.dramPut ++ [.fns, .reg .HEP_CNT_FLR, .reg .HEP_SRC_VEC, .reg .TRK_RING_ADDR, .reg .TRK_RING_CTRL,
      .reg .TRK_RING_ENTRIES, .reg .TRK_RING_LOST, .trkEmbq, .trkFlows, .trkRings, .trkTracks, .trkCache, .sluBasins]) s
    (fun t =>
    if s.glbUp = true ∧ s.flrCanEnd n = true then
      t.fn n = { s.fn n with msix := [], pba := [], flr := .idle } ∧ (∀ m, m ≠ n → t.fn m = s.fn m) ∧
      t.reg .HEP_CNT_FLR 0 0 = counted (s.reg .HEP_CNT_FLR 0 0) ∧ t.ring n = Ring.reset ∧
      (n < 32 → t.reg .TRK_RING_CTRL n 0 = State.reset.reg .TRK_RING_CTRL n 0) ∧
      (∀ i < 512, (s.srcFn i = n → s.srcMode i ≠ 0 → t.icu.pend.getLsbD i = false) ∧
        (s.srcFn i = n → s.srcMode i = 0 → t.icu.delivered.getLsbD i = true) ∧
        (i ≠ 6 → (s.srcFn i ≠ n ∨ s.srcMode i = 0 → t.icu.pend.getLsbD i = s.icu.pend.getLsbD i) ∧
          (s.srcFn i ≠ n ∨ s.srcMode i ≠ 0 → t.icu.delivered.getLsbD i = s.icu.delivered.getLsbD i))) ∧
      ∀ x ∈ t.trk.tracks, (s.rill x.rill).fn ≠ n
    else t = s))) ∧
  ((∀ s : State, completes .vfEnableSet [.fns, .out] s (fun t =>
    if s.glbUp = true then t.vfEnable = true ∧ t.numVfs = s.numVfs ∧
      (∀ n, (t.fn n).flr = (s.fn n).flr ∧ (n ≠ 0 → (t.fn n).cfg = (s.fn n).cfg)) ∧
      ∀ n, t.fnEnabled n = (n == 0 || (decide (n < 32) && decide (n ≤ s.numVfs)))
    else t = s)) ∧
  (∀ s : State, completes .vfEnableClear [.fns] s (fun t =>
    if s.glbUp = true ∧ s.vfEnable = true then t.vfEnable = false ∧
      (∀ n, 0 < n → (t.fn n).flr =
        if s.fnEnabled n = true ∧ (s.fn n).flr = .idle then .initiated else (s.fn n).flr) ∧
      (∀ n, 0 < n → s.fnEnabled n = false → t.fn n = s.fn n) ∧ (t.fn 0).flr = (s.fn 0).flr
    else t = s)) ∧
  (∀ (n : Nat) (s : State), completes (.d3hotEntry n) (Comp.allLdr ++ Comp.source ++ [.fns]) s (fun t =>
    if s.glbUp = true ∧ s.fnEnabled n = true ∧ (s.fn n).d3hot = false then
      (t.fn n).d3hot = true ∧ ((s.fn n).flr = .idle → (s.fn 0).flr = .idle → (t.fn n).flr = .initiated) ∧
      (n ≠ 0 → ∀ m, m ≠ n → t.fn m = s.fn m)
    else t = s)))

/-! ## Resets, boot and the board -/

/-- R396, R397, R404, R462, R465: PERST_N resets everything outside the AO domain and releases STBY_N and WAKE_N; in a hard
stop, and without VAUX, only the pins change. A PF in D3hot with no VF enabled enters standby, where DRAM keeps its contents
and STBY_N is driven. R396, R440, R441, R372, R465, R469: boot begins when PERST_N is deasserted, with the strap latched, or
at a hot reset. A key record that does not verify, or a subsystem with no slot that does, leads to recovery, whose status
SAGE_BOOT shows; Sage's start derives its keys (R442); a hard stop before it is reported once. When boot ends the device is in service or in recovery, DRAM runs
but after 0x8009, and a brake or a lost flow that is asserted acts then. -/
def Obligations.ResetsAndBoot : Prop :=
  ((∀ s : State, ∃ t, exec .perstAssert s = .next t ∧
    t.dev.pins.perst = true ∧ t.dev.pins.stby = false ∧ t.dev.pins.wake = false ∧
    (s.dev.life ∉ [.noAux, .auxReset, .hardStop] →
      t.dev.life = .held ∧ atReset s t ∧ t.dev.aoNs = s.dev.aoNs ∧
        t.dev.hardStopRec = s.dev.hardStopRec ∧ t.out = s.out) ∧
    (s.dev.life ∈ [.noAux, .auxReset, .hardStop] →
      t = { s with dev := { s.dev with pins := { s.dev.pins with perst := true, stby := false, wake := false } } })) ∧
  (∀ s : State, ∃ t, exec .standbyEntry s = .next t ∧
    (if s.dev.life = .ready ∧ (s.fn 0).d3hot = true ∧ s.vfEnable = false then
      t.dev.life = .standby ∧ atReset s t ∧ t.dram.bytes = s.dram.bytes ∧ t.dram.poison = s.dram.poison ∧
        t.dev.pins.stby = true ∧ t.dev.link.l2 = true ∧ t.dev.dramMode = .selfRefresh ∧
        ∀ i < 512, t.icu.cond.getLsbD i =
          ((i == 4 && s.dev.pins.flowLost) || (i == 5 && s.dev.pins.brake))
    else t = s))) ∧
  ((∀ (b : BootFinds) (s : State),
    let u := s.abandonMbox
    let found : State → Prop := fun t =>
      t.dev.life = .booting ∧
      t.dev.recovery = (if b.keyOk = false then 0x8009#16
        else if ∃ k ∈ bootList s.dev.part, u.bootSlot b k = none then 0x8010#16 else 0) ∧
      t.reg .SAGE_BOOT 0 0 &&& 0xFFFF#64 = t.dev.recovery.setWidth 64 ∧
      (b.keyOk = true → ∀ x, u.bootSlot b 0 = some x →
        let i := Config.identityKey s.dev.fuses.deviceSecret
        let a := Config.aliasKey s.dev.fuses.deviceSecret (u.slotDigest 0 x)
        t.sage.keys = some { identity := i, signing := a, cert := Config.aliasCertificate i a (u.slotDigest 0 x) }) ∧
      ((b.keyOk = false ∨ u.bootSlot b 0 = none) → t.sage.keys = none)
    (∃ t, exec (.fundamentalReset b) s = .next t ∧
      (if s.dev.life = .held ∧ s.dev.pins.perst = true then
        found t ∧ t.dev.pins.perst = false ∧ t.dev.role = s.dev.pins.roleMaster ∧ t.dev.hardStopRec = false ∧
        t.ldr = State.reset.ldr ∧ (s.dev.hardStopRec = true → t.reg .WEIR_STATUS 0 0 = 0x7021 ∧
          ∃ e, t.icu.log.head? = some e ∧ e.status = 0x7021#16 ∧ e.unit = 9)
      else t = s)) ∧
    (∃ t, exec (.hotReset b) s = .next t ∧
      (if s.linkAlive = true then found t ∧ t.dev.role = s.dev.role ∧ t.ldr = State.reset.ldr ∧ t.dev.aoNs = s.dev.aoNs
      else t = s))) ∧
  (∀ s : State, completes .deviceReady (Comp.brake ++ Comp.ports ++ [.devDramMode, .devLife, .dramDmcs,
      .reg .DMC_RECAL_STATUS, .reg .WEIR_CNT_COOLANT, .reg .DEC_CTX_USED, .regs, .weirCoolant, .weirCoolantNs]) s (fun t =>
    if s.dev.life = .booting then
      (s.dev.recovery ≠ 0 →
        let d := { s.dev with
          life := .recovery, dramMode := if s.dev.recovery = 0x8009#16 then .selfRefresh else .running }
        t.dev = d ∧ t.weir = s.weir ∧ ((s.dram.held = [] ∨ s.dev.recovery = 0x8009#16) → t = { s with dev := d })) ∧
      (s.dev.recovery = 0 → t.dev.life = .ready ∧
        (s.dev.pins.flowLost = false → s.dev.pins.brake = false → s.dev.pins.vrAlert = false →
          let d := { s.dev with life := .ready, dramMode := .running }
          t.dev = d ∧ t.weir = s.weir ∧ (s.dram.held = [] → t = { s with dev := d })) ∧
        ((s.dev.pins.brake = true ∨ s.dev.pins.vrAlert = true) → t.weir.brake = true) ∧
        (s.dev.pins.flowLost = true → t.weir.coolant ≠ .none))
    else t = s)))

/-- R459 to R462, R372, R381: VAUX starts the AO domain's power-on reset, which leaves its registers at reset; the loss of a
rail in service is a power-down, and without VAUX the AO state is lost as well; the link trains to a rate of 1 to 6 and a
width of 1 to 16 lanes, with Flit Mode always at 64.0 GT/s. R461, R462: in standby the loss of VAUX, VDD_DRAM or VPP_DRAM
with PERST_N deasserted is outside what the specification gives a meaning, and is the one case in which a command stops. -/
def Obligations.RailsAndLink : Prop :=
  ((∀ s : State, completes .vauxApply [.devLife, .devPins, .devRails] s (fun t =>
    if s.dev.life = .noAux then
      t.dev.life = .auxReset ∧ t.dev.rails = { s.dev.rails with aux := true } ∧
      t.dev.pins = { s.dev.pins with perst := true }
    else t = s)) ∧
  (∀ s : State, completes .aoPorRelease [.devAoNs, .devHardStopRec, .devLife, .regs, .sageEidSmb, .sageEidVdm, .weirSprint] s
    (fun t =>
    if s.dev.life = .auxReset then
      t.dev.life = .held ∧ t.dev.aoNs = 0 ∧ t.dev.hardStopRec = false ∧ t.weir.sprint = State.reset.weir.sprint ∧
      ∀ off l, regAt off = some l → aoHomed l = true →
        t.reg l.row.name l.unit l.idx = State.reset.reg l.row.name l.unit l.idx
    else t = s)) ∧
  (∀ (r : Rail) (s : State), ¬ (s.dev.life = .standby ∧ r ∈ [.aux, .dram, .vpp]) →
    ∃ t, exec (.railRemoval r) s = .next t ∧ t.dev.rails = s.dev.rails.drop r ∧
      (s.dev.life ∈ [.held, .booting, .ready, .recovery] →
        t.dev.life = (if r = .aux then .noAux else .held) ∧ t.dev.pins.perst = true ∧ t.dev.pins.stby = false ∧
        (r ≠ .aux → atReset s t)) ∧
      (r = .aux → s.dev.life ≠ .noAux → t.dev.life = .noAux ∧ t.dev.aoNs = 0)) ∧
  (∀ (rate width : Nat) (flit : Bool) (s : State), completes (.linkUp rate width flit) [.devLink] s (fun t =>
    if s.linkAlive = true ∧ 1 ≤ rate ∧ rate ≤ 6 ∧ width ∈ [1, 2, 4, 8, 16] then
      t.dev.link = { rate := rate, width := width, flit := flit || rate == 6, l2 := false }
    else t = s))) ∧
  ((∀ (r : Rail) (s : State),
    exec (.railRemoval r) s = .fault .railOutOfRange ↔ s.dev.life = .standby ∧ r ∈ [.aux, .dram, .vpp]) ∧
  ∀ (c : Instr) (s : State), (∀ r, c ≠ .railRemoval r) → ∃ t, exec c s = .next t)

/-! ## Sage and Odrov -/

/-- R448, R441: a mailbox command is turned away with 0x8011 while another runs, and has no other effect; in recovery one that
recovery does not take ends with 0x8012, every one with 0x8009 where that is why; a subsystem that is not defined ends with
0x8012. Outside service and recovery nothing takes one. R448, R451, Table 16.6: in service, with the mailbox free, each
command is refused with the status of its rule, or with 0x8020 where a rail is too low to write, and nothing is changed;
else it runs. WRITE_SLOT makes the inactive slot invalid until it is written, ACTIVATE marks the inactive slot active. -/
def Obligations.MailboxTakesOrRefuses : Prop :=
  (∀ (k : Nat) (v : Verdict) (s : State), ∀ c ∈ [Instr.writeSlot k v, .activate k v, .commit k, .advanceImage, .writeBoard],
    completes c (Comp.dramSeen ++ [.devFlash, .reg .SAGE_CNT_INHIBIT, .reg .SAGE_MBOX_STATUS, .sageMbox, .sagePendingSwitch,
      .sageSwitched]) s (fun t =>
      (s.dev.life ≠ .ready → s.dev.life ≠ .recovery → t = s) ∧
      ((s.dev.life = .ready ∨ s.dev.life = .recovery) →
        (s.sage.mbox ≠ none → t.reg .SAGE_MBOX_STATUS 0 0 = 0x8011 ∧ t.sage = s.sage ∧ t.dev = s.dev ∧ t.icu = s.icu) ∧
        (s.sage.mbox = none →
          (s.dev.life = .recovery → s.dev.recovery = 0x8009#16 → mailboxEnds 0x8009#16 s t ∧ t.dev = s.dev) ∧
          (s.dev.life = .recovery → s.dev.recovery ≠ 0x8009#16 → c ≠ .writeSlot k v → c ≠ .activate k v →
            mailboxEnds 0x8012#16 s t ∧ t.dev = s.dev) ∧
          (s.dev.life = .ready → 5 ≤ k → c ≠ .advanceImage → c ≠ .writeBoard →
            mailboxEnds 0x8012#16 s t ∧ t.dev = s.dev))))) ∧
  (∀ (k : Nat) (v : Verdict) (s : State), s.sage.mbox = none → k < 5 → s.dev.flash.table.seq ≠ 0xFFFFFFFF#32 →
    let b := !s.dev.flash.table.activeB.getLsbD k
    let takes : Prop := s.dev.life = .ready ∨ s.dev.life = .recovery ∧ s.dev.recovery ≠ 0x8009#16
    let refused : W16 → State → Prop := fun st t => mailboxEnds st s t ∧ t.dev = s.dev
    let starts : State → MboxJob → State → Prop := fun u j t =>
      if s.supplyOk = true then t.sage.mbox = some j ∧ t.dev = u.dev
      else refused 0x8020#16 t ∧ t.reg .SAGE_CNT_INHIBIT 0 0 = counted (s.reg .SAGE_CNT_INHIBIT 0 0)
    (takes → ∃ t, exec (.writeSlot k v) s = .next t ∧
      (if s.dev.flash.inService.getLsbD k = b then refused 0x8012#16 t
       else match s.fwVerify k s.mboxAddr s.mboxLen v with
        | some st => refused st t
        | none =>
          (s.supplyOk = true → t.dev.flash.table.valid k b = false ∧
            t.sage.mbox = some { cmd := .writeSlot, sub := k, addr := s.mboxAddr, len := s.mboxLen, status := 0, goal := 0 } ∧
            t.dev.flash.table.activeB = s.dev.flash.table.activeB ∧
            ∀ j c, (j ≠ k ∨ c ≠ b) → j < 5 → t.dev.flash.table.valid j c = s.dev.flash.table.valid j c) ∧
          (s.supplyOk = false → refused 0x8020#16 t))) ∧
    (takes → ∃ t, exec (.activate k v) s = .next t ∧
      (if s.dev.flash.table.valid k b = false then refused 0x8012#16 t
       else match (if k = 1 ∧ s.dev.life = .ready then s.sluiceRefusal (s.dev.flash.slot k b).version else none) with
        | some st => refused st t
        | none => match s.fwVerdict k (s.dev.flash.slot k b).security v with
          | some st => refused st t
          | none =>
            (s.supplyOk = true → (∀ j < 5, t.dev.flash.table.activeB.getLsbD j =
                if j = k then b else s.dev.flash.table.activeB.getLsbD j) ∧
              (t.sage.mbox.map (fun j => (j.cmd, j.sub))) = some (.activate, k) ∧
              (k ≠ 0 → s.dev.life = .ready → t.sage.pendingSwitch.getLsbD k = true) ∧
              (k = 0 ∨ s.dev.life ≠ .ready → t.sage.pendingSwitch = s.sage.pendingSwitch)) ∧
            (s.supplyOk = false → refused 0x8020#16 t))) ∧
    (s.dev.life = .ready →
      (∃ t, exec (.commit k) s = .next t ∧
        let j : MboxJob := { cmd := .commit, sub := k, addr := 0, len := 0, status := 0, goal := (s.inService k).security }
        if j.goal ≤ counterVal (s.dev.fuses.fw k) then t.sage.mbox = some j ∧ t.dev = s.dev else starts s j t) ∧
      (∃ t, exec .advanceImage s = .next t ∧
        let j : MboxJob := { cmd := .advanceImage, sub := 0, addr := 0, len := 0, status := 0, goal := s.ldr.image.security }
        if s.imageLoaded = false then refused 0x8012#16 t
        else if j.goal ≤ counterVal s.dev.fuses.arbImage then t.sage.mbox = some j ∧ t.dev = s.dev else starts s j t) ∧
      (∃ t, exec .writeBoard s = .next t ∧
        let read : Option W16 := match rangeStatus s.dev.part s.mboxAddr 4096 with
          | some st => some st
          | none => s.readPoison portFw s.mboxAddr 4096
        if s.ldr.state ≠ .empty then refused 0x8012#16 t
        else match read with
          | some st => refused st t
          | none => starts s { cmd := .writeBoard, sub := 0, addr := s.mboxAddr, len := 4096, status := 0, goal := 0 } t)))

/-- R439: the checks of a firmware image come in this order, and the first that fails gives its status. -/
def Obligations.FirmwareVerificationOrder : Prop :=
  ∀ (s : State) (k a len : Nat) (v : Verdict), rangeStatus s.dev.part a len = none → s.readPoison portFw a len = none →
    s.fwVerify k a len v =
      if s.fwHeaderOk k a len = false then some 0x8004#16
      else if v.endorsed = false then some 0x8005#16
      else if v.signed = false then some 0x8006#16
      else if s.dramRd (a + 0x10) 4 < counterVal (s.dev.fuses.fw k) then some 0x8007#16
      else none

/-- R435, R448, R449: a mailbox command that completes has its effect, writes its status and raises source 10. A counter is
programmed up to its goal, one bit for each step; a slot holds the image and is valid; the board record holds the 4 KiB. An
ACTIVATE waits for its switch. R449, R451: a switch that may happen puts the active slot in service, decoder microcode one
engine at a time. The last puts the slot in service. A sample of
the rails shows in SAGE_SUPPLY, and one below a threshold stops a write or programming with 0x8021, counts and logs; a slot
that was being written stays invalid, a counter reads whatever its bits read, up to its goal, and the board record alone of
flash changes. -/
def Obligations.MailboxEndsAndSwitches : Prop :=
  (∀ s : State, completes .mailboxCommandComplete
    (Comp.source ++ [.devFlash, .devFuses, .reg .SAGE_MBOX_STATUS, .sageMbox]) s (fun t =>
    (s.sage.mbox = none → t = s) ∧
    ∀ j, s.sage.mbox = some j →
      (j.cmd = .activate → s.sage.pendingSwitch.getLsbD j.sub = true → t = s) ∧
      (¬ (j.cmd = .activate ∧ s.sage.pendingSwitch.getLsbD j.sub = true) → mailboxEnds j.status s t) ∧
      (j.cmd = .commit → t.dev.flash = s.dev.flash ∧ t.dev.fuses.arbImage = s.dev.fuses.arbImage ∧
        ∀ k, counterVal (t.dev.fuses.fw k) =
          if k = j.sub then max (counterVal (s.dev.fuses.fw k)) (min 64 j.goal) else counterVal (s.dev.fuses.fw k)) ∧
      (j.cmd = .advanceImage → t.dev.flash = s.dev.flash ∧ (∀ k, t.dev.fuses.fw k = s.dev.fuses.fw k) ∧
        counterVal t.dev.fuses.arbImage = max (counterVal s.dev.fuses.arbImage) (min 64 j.goal)) ∧
      (j.cmd = .writeBoard → t.dev.fuses = s.dev.fuses ∧ (∀ i < 4096,
          t.dev.flash.read (boardBase + i) 1 = [s.dramByte (j.addr + i)]) ∧
        ∀ a, (a < boardBase ∨ boardBase + 4096 ≤ a) → t.dev.flash.read a 1 = s.dev.flash.read a 1) ∧
      (j.cmd = .writeSlot → s.dev.flash.table.seq ≠ 0xFFFFFFFF#32 → j.sub < 5 →
        let b := !s.dev.flash.table.activeB.getLsbD j.sub
        t.dev.fuses = s.dev.fuses ∧ t.dev.flash.table.valid j.sub b = true ∧
        (∀ i < j.len, t.dev.flash.read (slotBase j.sub b + i) 1 = [s.dramByte (j.addr + i)]) ∧
        (t.dev.flash.slot j.sub b).length = j.len ∧ (t.dev.flash.slot j.sub b).security = s.dramRd (j.addr + 0x10) 4))) ∧
  ((∀ (k n : Nat) (s : State), completes (.firmwareSwitch k n)
    [.devFlash, .devUcode, .sagePendingSwitch, .sageSwitched, .weirSwitched] s (fun t =>
    let a := s.dev.flash.table.activeB.getLsbD k
    let last : Prop := ∀ e < 16, decPresent s.dev.part e = true → e = n ∨ e ∈ s.sage.switched
    let inService : Prop := t.dev.flash = { s.dev.flash with inService := putBit s.dev.flash.inService k a } ∧
      t.sage.pendingSwitch = putBit s.sage.pendingSwitch k false ∧ t.sage.switched = []
    if s.maySwitch k n = true then
      (k ≠ 4 → inService ∧ t.dev.ucode = s.dev.ucode) ∧ t.weir.switched = (s.weir.switched || k == 2) ∧
      (k = 4 → last → inService ∧ t.dev.ucode = []) ∧
      (k = 4 → ¬ last → t.sage.switched = s.sage.switched ++ [n] ∧ t.sage.pendingSwitch = s.sage.pendingSwitch ∧
        t.dev.flash = s.dev.flash ∧ SMap.find? t.dev.ucode n = some (s.dev.flash.slot 4 a).version)
    else t = s)) ∧
  (∀ (vaux vddio : Nat) (s : State), completes (.supplySample vaux vddio) (Comp.log ++ [.devFlash, .devFuses, .freeIdx,
      .reg .SAGE_CNT_INHIBIT, .reg .SAGE_MBOX_STATUS, .reg .SAGE_SUPPLY, .sageMbox]) s (fun t =>
    let low : Prop := vaux < 3050 ∨ vddio < 1700
    t.reg .SAGE_SUPPLY 0 0 =
      BitVec.ofNat 64 ((if 3050 ≤ vaux then 1 else 0) + if 1700 ≤ vddio then 2 else 0) ∧
    (∀ j, s.sage.mbox = some j → s.jobWrites j = true → low →
      mailboxEnds 0x8021#16 s t ∧ t.reg .SAGE_CNT_INHIBIT 0 0 = counted (s.reg .SAGE_CNT_INHIBIT 0 0) ∧
      logged 0x8021#16 10 0 0xFFFF 0xFF 0 s t ∧ (j.cmd = .writeSlot → t.dev = s.dev) ∧
      (j.cmd = .commit → t.dev.flash = s.dev.flash ∧ counterVal (s.dev.fuses.fw j.sub) ≤ counterVal (t.dev.fuses.fw j.sub) ∧
        counterVal (t.dev.fuses.fw j.sub) ≤ j.goal ∧ ∀ k, k ≠ j.sub → t.dev.fuses.fw k = s.dev.fuses.fw k) ∧
      (j.cmd = .advanceImage → t.dev.flash = s.dev.flash ∧ counterVal s.dev.fuses.arbImage ≤ counterVal t.dev.fuses.arbImage ∧
        counterVal t.dev.fuses.arbImage ≤ j.goal) ∧
      (j.cmd = .writeBoard → t.dev.fuses = s.dev.fuses ∧
        ∀ a, (a < boardBase ∨ boardBase + 4096 ≤ a) → t.dev.flash.read a 1 = s.dev.flash.read a 1)) ∧
    ((s.sage.mbox = none ∨ (∃ j, s.sage.mbox = some j ∧ s.jobWrites j = false) ∨ ¬ low) →
      t.sage = s.sage ∧ t.dev = s.dev ∧ t.icu = s.icu))))

/-- R441, R443, R444: Sage answers an SPDM request while its firmware runs: with an error that counts and is logged where it is
malformed, not supported, or comes before GET_VERSION on its transport, or with an error alone while it is busy; else with the
reply that the published protocol makes of its alias key, the certificate chain, the requests answered since GET_VERSION on
that transport, a nonce of its own (a free value) and the request (R442, R445). GET_VERSION resets the connection of its own
transport alone. R446, R447, R359: Odrov counts a message and raises source 17; it takes an endpoint ID, answers MCTP control,
sets its cap where the value is in range, reads a sensor, answers another PLDM type with an error, and only counts another MCTP
type; while only its AO responder runs it answers PLDM with ERROR_NOT_READY. -/
def Obligations.SpdmAndMctpMessages : Prop :=
  (∀ (tr : Transport) (c : SpdmCode) (bad busy : Bool) (req : List Byte) (s : State),
    completes (.spdmRequest tr c bad busy req) (Comp.log ++ [.freeIdx, .out, .reg .SAGE_CNT_SPDM, .sageDoeConn, .sageMctpConn])
      s (fun t =>
      let key : W256 := match s.sage.keys with
        | some k => k.signing
        | none => 0
      let before : List (List Byte) := if c = .getVersion then [] else (s.connection tr).getD []
      let body := if c = .getMeasurements then req ++ s.measurements.flatMap digestBytes else req
      if s.dev.life = .ready ∨ s.dev.life = .recovery ∧ s.sage.keys ≠ none then
        (busy = true → sends [.spdmReply tr true []] s t ∧ changesOnly [.out] s t) ∧
        (busy = false → (c = .other ∨ bad = true ∨ c ≠ .getVersion ∧ s.connection tr = none) →
          sends [.spdmReply tr true []] s t ∧ t.reg .SAGE_CNT_SPDM 0 0 = counted (s.reg .SAGE_CNT_SPDM 0 0) ∧
          logged 0x8030#16 10 0 0xFFFF 0xFF 0 s t ∧ t.sage = s.sage) ∧
        (busy = false → c ≠ .other → bad = false → (c = .getVersion ∨ s.connection tr ≠ none) →
          sends [.spdmReply tr false (Config.spdmReply key s.certChain before (Config.freeValue s.freeIdx) body)] s t ∧
          t.connection tr = some (before ++ [req]) ∧ (∀ x, x ≠ tr → t.connection x = s.connection x) ∧ t.icu = s.icu)
      else t = s)) ∧
  (∀ (b : Binding) (m : MctpBody) (s : State), completes (.mctpMessage b m)
    (Comp.sprint ++ [.freeIdx, .out, .reg .ODROV_CNT_ERR, .reg .ODROV_CNT_RX, .reg .SAGE_CNT_SPDM, .reg .WEIR_CAP_ODROV_MW,
      .sageDoeConn, .sageEidSmb, .sageEidVdm, .sageMctpConn]) s (fun t =>
    let ao : Prop := s.dev.life ≠ .ready ∧ s.dev.life ≠ .recovery
    if s.dev.life ≠ .noAux ∧ s.dev.life ≠ .auxReset ∧ s.bindingOn b = true ∧ ¬ (s.dev.life = .standby ∧ b = .vdm) then
      t.reg .ODROV_CNT_RX 0 0 = counted (s.reg .ODROV_CNT_RX 0 0) ∧ raised 17 s t ∧
      (∀ eid, m = .setEndpointId eid →
        t.sage.eidSmb = (if b = .smbus then eid % 256 else s.sage.eidSmb) ∧
        t.sage.eidVdm = (if b = .vdm then eid % 256 else s.sage.eidVdm) ∧
        sends [.mctpReply b (Config.protocolReply (leBytes 1 eid))] s t) ∧
      (∀ req, m = .control req → sends [.mctpReply b (Config.protocolReply req)] s t ∧ t.sage = s.sage) ∧
      (∀ w, m = .pldmSetCap w →
        (¬ ao → capInRange s.dev.part w = true →
          t.reg .WEIR_CAP_ODROV_MW 0 0 = BitVec.ofNat 64 (w * 1000) ∧ sends [.mctpReply b []] s t ∧
          (s.reg .WEIR_CAP_ODROV_MW 0 0 ≠ BitVec.ofNat 64 (w * 1000) → raised 11 s t)) ∧
        (¬ ao → capInRange s.dev.part w = false → sends [.pldmError b .outOfRange] s t ∧
          t.reg .WEIR_CAP_ODROV_MW 0 0 = s.reg .WEIR_CAP_ODROV_MW 0 0)) ∧
      (∀ id st, m = .pldmSensor id st → ¬ ao → sends [match s.sensor id st with
        | some v => .mctpReply b (leBytes 1 (min 255 v))
        | none => .pldmError b .outOfRange] s t) ∧
      (∀ req, m = .pldmBase req → ¬ ao → sends [.mctpReply b (Config.protocolReply req)] s t) ∧
      (m = .pldmOther → ¬ ao → sends [.pldmError b .invalidType] s t) ∧
      (ao → ((∃ w, m = .pldmSetCap w) ∨ (∃ id st, m = .pldmSensor id st) ∨ (∃ req, m = .pldmBase req) ∨ m = .pldmOther) →
        sends [.pldmError b .notReady] s t ∧ t.reg .WEIR_CAP_ODROV_MW 0 0 = s.reg .WEIR_CAP_ODROV_MW 0 0) ∧
      (m = .other → t.out = s.out ∧ t.reg .ODROV_CNT_ERR 0 0 = counted (s.reg .ODROV_CNT_ERR 0 0)) ∧
      (∀ c bad req, m = .spdm c bad req → ∃ u, exec (.spdmRequest .mctp c bad false req) s = .next u ∧
        t.out = u.out ∧ t.sage = u.sage ∧ t.reg .SAGE_CNT_SPDM 0 0 = u.reg .SAGE_CNT_SPDM 0 0)
    else t = s))

/-! ## Register accesses -/

/-- R6, R12, R11: an access of its own width to a register does what its access type says. RO and RC registers take no write,
RWL registers none once the image is locked; RW and RWL registers store the bits of their mask, a value out of range as R12
takes it, and no other register changes but those that follow from it; a W1C register clears the bits written 1; a write of a
64-bit register leaves the shadow. A write-only register starts the command that it names. W1S_WRITE sets bits of the register
that it names (log 11). -/
def Obligations.RegisterWritesByAccessType : Prop :=
  (∀ (fn off : Nat) (wide : Bool) (val : W64) (s : State), ∃ t, exec (.registerWrite fn off wide val) s = .next t ∧
    (s.barUp fn = false → t = s) ∧
    (s.barUp fn = true → s.fnReg fn off = none → (wide = false ∨ s.fnReg fn (off + 4) = none) → t = s) ∧
    ∀ l, s.barUp fn = true → s.fnReg fn off = some l → l.row.wide = wide → l.high = false →
      let v := if wide = true then val else (val.setWidth 32).setWidth 64
      ((l.row.acc = .ro ∨ l.row.acc = .rc ∨ l.row.acc = .rwl ∧ s.ldr.locked = true) → t = s) ∧
      ((l.row.acc = .rw ∨ l.row.acc = .rwl ∧ s.ldr.locked = false) → isDelay l = false →
        t.reg l.row.name l.unit l.idx = BitVec.ofNat 64 (takenAs s.dev.part l.row.name
            (BitVec.ofNat 64 (pointAs l.row.name v.toNat) &&& BitVec.ofNat 64 l.row.mask).toNat) ∧
        changesOnly (Comp.stores l.row.name) s t ∧
        ∀ u i, regOk l.row.name u i = true → (u ≠ l.unit ∨ i ≠ l.idx) → t.reg l.row.name u i = s.reg l.row.name u i) ∧
      (l.row.acc = .w1c → l.row.name ≠ .ICU_PEND →
        t.reg l.row.name l.unit l.idx = s.reg l.row.name l.unit l.idx &&& ~~~(v &&& BitVec.ofNat 64 l.row.mask) ∧
        changesOnly [.reg l.row.name] s t) ∧
      (isDelay l = true → exec (.delayRegisterWrite off (val.setWidth 32)) s = .next t) ∧
      (l.row.name = .THYME_SET → exec (.thymeSet v) s = .next t) ∧
      (l.row.name = .CISTERN_HOST_FREE → exec (.cisternHostFree fn v) s = .next t) ∧
      (l.row.name = .THYME_SNAP_CTRL → v.getLsbD 0 = true → exec .snapshotNow s = .next t) ∧
      (l.row.name = .WEIR_CMD → v.toNat % 4 = 1 → exec .resume s = .next t) ∧
      (l.row.name = .DMC_RECAL_CTRL → v.toNat % 4 = 1 → exec (.recalStart l.unit (v.toNat / 4 % 4)) s = .next t) ∧
      (l.row.name = .DMC_RECAL_CTRL → v.toNat % 4 = 2 → exec (.recalEnd l.unit) s = .next t) ∧
      (l.row.name = .GLB_IMG_CTRL → v.toNat % 16 = 1 → exec .imgLoad s = .next t) ∧
      (l.row.name = .GLB_IMG_CTRL → v.toNat % 16 = 2 → exec .imgLock s = .next t) ∧
      (l.row.name = .GLB_IMG_CTRL → v.toNat % 16 = 3 → exec .imgUnload s = .next t)) ∧
  (∀ (fn off : Nat) (val : W64) (s : State), ∃ t, exec (.w1sWrite fn off val) s = .next t ∧
    (s.barUp fn = false ∨ s.fnReg fn off = none → t = s) ∧
    ∀ l, s.barUp fn = true → s.fnReg fn off = some l →
      (l.row.acc ∉ [.rw, .w1s, .rwl] ∨ l.row.acc = .rwl ∧ s.ldr.locked = true → t = s) ∧
      (isDelay l = false → (l.row.acc = .rw ∨ l.row.acc = .w1s ∨ l.row.acc = .rwl ∧ s.ldr.locked = false) →
        t.reg l.row.name l.unit l.idx = BitVec.ofNat 64 (takenAs s.dev.part l.row.name
          (BitVec.ofNat 64 (pointAs l.row.name (s.reg l.row.name l.unit l.idx ||| val).toNat) &&&
            BitVec.ofNat 64 l.row.mask).toNat) ∧
        changesOnly (Comp.stores l.row.name) s t))

/-- R7, R6: a write of 1s to a W1C register clears the bits written 1, but a bit that hardware sets in the same cycle remains
set; bits written 0 stay. A source in level mode keeps its pending bit (R407). -/
def Obligations.SetBitsPrevailOverClears : Prop :=
  ∀ (fn off : Nat) (val hwSet : W64) (s : State), completes (.w1cWrite fn off val hwSet) [.icuPend, .regs] s (fun t =>
    (s.barUp fn = false ∨ s.fnReg fn off = none → t = s) ∧
    ∀ l, s.barUp fn = true → s.fnReg fn off = some l → l.row.acc = .w1c →
      (l.row.name ≠ .ICU_PEND → t.icu.pend = s.icu.pend ∧
        (∀ j < 64, l.row.mask.testBit j = true →
          (t.reg l.row.name l.unit l.idx).getLsbD j =
            (hwSet.getLsbD j || ((s.reg l.row.name l.unit l.idx).getLsbD j && !val.getLsbD j))) ∧
        ∀ r u i, regOk r u i = true → (r ≠ l.row.name ∨ u ≠ l.unit ∨ i ≠ l.idx) → t.reg r u i = s.reg r u i) ∧
      (l.row.name = .ICU_PEND → t.regs = s.regs ∧ ∀ j < 16, ∀ i, i = 16 * l.idx + j → i < 512 →
        t.icu.pend.getLsbD i =
          (hwSet.getLsbD j || (s.icu.pend.getLsbD i && !(val.getLsbD j && s.srcMode i != 0)))))

/-- R6, R8: a read of an RC register returns the value before an event of the same cycle, clears the register, and leaves the event
alone: the register then holds that event. A least or greatest value becomes the current one (CISTERN_POOL_MIN the pool's FREE,
TRK_STORE_PEAK the records in use), and a halted core whose TC_FAULT is read is idle again. No other register is changed, and a
register of another access type is not by this command. -/
def Obligations.ReadClearKeepsTheEvent : Prop :=
  ∀ (fn off : Nat) (event : W64) (s : State), completes (.rcRead fn off event)
    [.out, .pools, .reg .TC_FAULT, .regs, .sluCores, .trkStorePeak] s (fun t =>
    (s.barUp fn = false ∨ s.fnReg fn off = none → t = s) ∧
    ∀ l, s.barUp fn = true → s.fnReg fn off = some l →
      (l.row.acc ≠ .rc → t = s) ∧
      (l.row.acc = .rc →
        sends [.completion fn .ok (leBytes 4 (s.peek l).toNat)] s t ∧
        (l.row.name ∉ [.CISTERN_POOL_MIN, .CISTERN_POOL_FAIL, .TRK_STORE_PEAK] →
          t.reg l.row.name l.unit l.idx = event &&& BitVec.ofNat 64 l.row.mask ∧ t.pools = s.pools ∧ t.trk = s.trk ∧
          ∀ r u i, regOk r u i = true → (r ≠ l.row.name ∨ u ≠ l.unit ∨ i ≠ l.idx) → t.reg r u i = s.reg r u i) ∧
        (l.row.name ≠ .TC_FAULT → t.slu = s.slu) ∧
        (l.row.name = .CISTERN_POOL_MIN → t.regs = s.regs ∧ t.trk = s.trk ∧ (s.pool l.idx = none → t.pools = s.pools) ∧
          (∀ p, s.pool l.idx = some p → t.pool l.idx = some { p with lowest := p.free }) ∧
          ∀ k, k ≠ l.idx → t.pool k = s.pool k) ∧
        (l.row.name = .CISTERN_POOL_FAIL → t.regs = s.regs ∧ t.trk = s.trk ∧ (s.pool l.idx = none → t.pools = s.pools) ∧
          (∀ p, s.pool l.idx = some p → t.pool l.idx = some { p with fails := event.toNat % 2 ^ 32 }) ∧
          ∀ k, k ≠ l.idx → t.pool k = s.pool k) ∧
        (l.row.name = .TRK_STORE_PEAK → t.trk.storePeak = s.trk.tracks.length ∧ t.regs = s.regs ∧ t.pools = s.pools) ∧
        (l.row.name = .TC_FAULT → ∀ n, t.core n =
          if n = l.unit ∧ (s.core n).st = .halted then { s.core n with st := .idle } else s.core n)))

/-- R10, R11: a read of a low word latches the high word in the function's read shadow, which the next read of that high word
returns; a write of a low word changes no register and is held with the register's place; a write of the high word takes the
low word from the shadow where that names the register, else 0. -/
def Obligations.WordShadows : Prop :=
  (∀ (fn off : Nat) (s : State), completes (.lowWordRead fn off) [.fns, .out] s (fun t =>
    (s.barUp fn = false ∨ s.fnReg fn off = none → t = s) ∧
    ∀ l, s.barUp fn = true → s.fnReg fn off = some l → l.row.wide = true → l.high = false →
      sends [.completion fn .ok (leBytes 4 (s.peek l).toNat)] s t ∧
      t.fn fn = { s.fn fn with readShadow := some (l.off, ((s.peek l) >>> 32).setWidth 32) } ∧
      ∀ n, n ≠ fn → t.fn n = s.fn n)) ∧
  (∀ (fn off : Nat) (l : RegLoc) (s : State), s.linkAlive = true → s.memEnabled fn = true → s.inBar fn 0 off 4 = true →
    off % 4 = 0 → s.fnReg fn off = some l → l.row.wide = true → l.high = true →
    ∃ t, exec (.hostMemoryRequest fn 0 off (.read 4)) s = .next t ∧
      (∀ w, (s.fn fn).readShadow = some (l.off, w) →
        sends [.completion fn .ok (leBytes 4 w.toNat)] s t ∧ (t.fn fn).readShadow = none) ∧
      ((∀ w, (s.fn fn).readShadow ≠ some (l.off, w)) →
        sends [.completion fn .ok (leBytes 4 ((s.peek l).toNat / 2 ^ 32))] s t ∧ t.fns = s.fns)) ∧
  (∀ (fn off : Nat) (val : W32) (s : State), completes (.lowWordWrite fn off val) [.fns] s (fun t =>
    (s.barUp fn = false ∨ s.fnReg fn off = none → t = s) ∧
    ∀ l, s.barUp fn = true → s.fnReg fn off = some l → l.row.wide = true → l.high = false →
      t.fn fn = { s.fn fn with writeShadow := some (l.off, val) } ∧ ∀ n, n ≠ fn → t.fn n = s.fn n)) ∧
  (∀ (fn off : Nat) (val : W32) (s : State), ∃ t, exec (.highWordWrite fn off val) s = .next t ∧
    (s.barUp fn = false ∨ s.fnReg fn off = none → t = s) ∧
    ∀ l, s.barUp fn = true → s.fnReg fn off = some l → l.row.wide = true → l.high = true →
      (l.row.acc = .rw ∨ l.row.acc = .rwl ∧ s.ldr.locked = false) → isDelay l = false →
      ∀ low : W32, ((s.fn fn).writeShadow = some (l.off, low) ∨
          low = 0 ∧ ∀ w, (s.fn fn).writeShadow ≠ some (l.off, w)) →
        t.reg l.row.name l.unit l.idx = BitVec.ofNat 64 (takenAs s.dev.part l.row.name
          (BitVec.ofNat 64 (pointAs l.row.name (val ++ low).toNat) &&& BitVec.ofNat 64 l.row.mask).toNat) ∧
        changesOnly (Comp.stores l.row.name) s t)

/-! ## Images -/

/-- R53 to R57, R474: a load command starts a load; while the loader is busy, or an image is loaded or locked, it is turned
away with a status and no other effect; in recovery it ends with the recovery's status. A load whose checks fail leaves
everything but the loader and its interrupt as it was. One whose checks pass puts its frame map in force over an intact
staging copy, and its placement ends it loaded, or refused with 0x5020, 0x5021 or 0x5022. It waits while DRAM does not run.
R63 to R65, R54, R55: a lock of a loaded image holds; without one it sets 0x3015 and has no other effect. An unload of a
locked image ends with 0x3014; one of a loaded image that is not locked kills the cores of every command, takes away rills,
decode contexts, tracks, frames, contexts and pools, and ends by leaving no image. -/
def Obligations.LoadLockAndUnload : Prop :=
  ((∀ s : State, completes .imgLoad (Comp.allLdr ++ Comp.source) s (fun t =>
    (s.glbUp = false → t = s) ∧
    (s.dev.life = .recovery → raised 0 s t ∧ t.ldr = { s.ldr with
      state := .refused, load := none, placing := false, status := s.dev.recovery,
      failSection := 0xFFFF, failEntry := 0, failNeed := 0, failHave := 0 }) ∧
    (s.dev.life = .ready →
      (s.loaderBusy = true → t = { s with ldr := { s.ldr with status := 0x3012#16 } }) ∧
      (s.loaderBusy = false → (s.ldr.locked = true ∨ s.ldr.state = .loaded) →
        t = { s with ldr := { s.ldr with status := 0x3014#16 } }) ∧
      (s.loaderBusy = false → s.ldr.locked = false → s.ldr.state ≠ .loaded →
        t.ldr = { s.ldr with state := .loading, load := some (LoadJob.mk (s.regNat .GLB_IMG_ADDR 0 0)
          (s.regNat .GLB_IMG_LEN 0 0) (s.regNat .GLB_SWAP_TIME 0 0) 0) } ∧ t.icu = s.icu)))) ∧
  (∀ (checks : Bool) (v : Verdict) (s : State), completes (.imgLoadComplete ⟨checks, v⟩) (Comp.allLdr ++ Comp.dramSeen ++
      Comp.dramPut ++ [.dramFrameMap, .dramWindows, .ingCtxs, .ingEngines, .ingScanPending, .pools, .sluCtxs]) s (fun t =>
    let g := fun j => s.stageOf j false
    ((s.ldr.load = none ∨ s.weir.coolant ≠ .none ∨ s.dev.dramMode ≠ .running) → t = s) ∧
    ∀ j, s.ldr.load = some j → s.weir.coolant = .none → s.dev.dramMode = .running →
      (∀ e, s.ldr.placing = false → s.checkImage j false v = some e →
        changesOnly (Comp.allLdr ++ Comp.source) s t ∧ raised 0 s t ∧ t.ldr = { s.ldr with
          state := .refused, load := none, placing := false, status := e.status, failSection := BitVec.ofNat 16 e.sec,
          failEntry := BitVec.ofNat 32 e.entry, failNeed := BitVec.ofNat 64 e.need,
          failHave := BitVec.ofNat 64 e.got }) ∧
      (s.ldr.placing = false → s.checkImage j false v = none → checks = true →
        t.ldr = { s.ldr with placing := true } ∧ t.dram.windows = [] ∧ t.pools = s.pools ∧
        s.buildMap (g j) (s.parseBase (g j)) = .inr t.dram.frameMap ∧
        ∀ a, j.addr ≤ a → a < j.addr + j.len → t.dramByte a = s.dramByte a) ∧
      (s.ldr.placing = true → checks = true → t = s) ∧
      (checks = false → (s.ldr.placing = true ∨ s.checkImage j false v = none) →
        raised 0 s t ∧ t.ldr.load = none ∧ t.ldr.placing = false ∧
        (t.ldr.state = .loaded ∧ t.ldr.status = 0 ∧ t.ldr.swapCount = 0 ∧ (s.ldr.locked = true → t.ldr.locked = true) ∧
            (∀ p ∈ t.pools, p.reinit = false) ∨
          t.ldr.state = .refused ∧ t.ldr.status ∈ [0x5020#16, 0x5021#16, 0x5022#16] ∧ t.pools = s.pools))))) ∧
  ((∀ s : State, completes .imgLock (Comp.allLdr ++ Comp.source) s (fun t =>
    (s.glbUp = false → t = s) ∧
    (s.glbUp = true → s.ldr.state = .loaded →
      raised 0 s t ∧ t.ldr = { s.ldr with locked := true, status := 0 }) ∧
    (s.glbUp = true → s.ldr.state ≠ .loaded → t = { s with ldr := { s.ldr with status := 0x3015#16 } }))) ∧
  (∀ s : State, completes .imgUnload (Comp.buffers ++ Comp.events ++ Comp.allLdr ++ Comp.allIng ++ [.dramWindows, .fns,
      .sluCmds, .sluCores, .sluCtxs, .sluEnded, .sluGroups, .sluHeldIdle, .sluHolder, .sluLastHeld, .sluSlices, .trkCache,
      .trkCrops, .trkEmbq, .trkFlows, .trkLastPxe, .trkPerRill, .trkPxes, .trkTracks]) s (fun t =>
    (s.glbUp = false → t = s) ∧
    (s.glbUp = true → s.loaderBusy = true → t = { s with ldr := { s.ldr with status := 0x3012#16 } }) ∧
    (s.glbUp = true → s.loaderBusy = false → s.ldr.state ≠ .loaded → t = { s with ldr := { s.ldr with status := 0x3014#16 } }) ∧
    (s.glbUp = true → s.loaderBusy = false → s.ldr.state = .loaded → s.ldr.locked = true →
      changesOnly (Comp.allLdr ++ Comp.source) s t ∧ raised 0 s t ∧ t.ldr = { s.ldr with
        status := 0x3014#16, failSection := 0xFFFF, failEntry := 0, failNeed := 0, failHave := 0 }) ∧
    (s.glbUp = true → s.loaderBusy = false → s.ldr.state = .loaded → s.ldr.locked = false →
      t.ldr = { s.ldr with state := .unloading } ∧ t.pools = [] ∧ t.ing.rills = [] ∧ t.ing.ctxs = [] ∧ t.ing.frames = [] ∧
      t.trk.tracks = [] ∧ t.trk.flows = [] ∧ t.trk.crops = [] ∧ t.trk.embq = [] ∧ t.slu.ctxs = [] ∧ t.slu.cmds = [] ∧
      t.slu.holder = [] ∧ t.dram.windows = [] ∧
      ∀ n, t.core n =
        if n < 32 ∧ ((s.core n).st = .running ∨ (s.core n).st = .committing) ∧ (s.core n).ctx ∈ s.slu.cmds.map (·.1) then
          if s.coreRuns n = true then (s.core n).kill else { s.core n with killed := true }
        else s.core n))) ∧
  (∀ s : State, completes .imgUnloadComplete (Comp.allLdr ++ Comp.source) s (fun t =>
    if s.ldr.state = .unloading then
      raised 0 s t ∧ t.ldr = { s.ldr with
        state := .empty, image := Image.empty, segs := [], deterministic := false, signed := 0, chain := 0, status := 0 }
    else t = s)))

/-- R54, R55, R66 to R68, R71, R72: a swap is taken when an image is loaded, the loader is not busy, its switch time is after
every stamped frame, and its checks pass, and is else turned away with a status, the image in service as it was. When its
sections are placed the segment serves the new version and keeps the old one, its region alternates, the swap count and the
chain digest go on; a placement that meets poison leaves the old version in service. The old version retires when no frame
under it is left in a context of the segment. -/
def Obligations.SegmentSwap : Prop :=
  (∀ (v : Verdict) (s : State), completes (.imgSwap v) (Comp.allLdr ++ Comp.source) s (fun t =>
    (s.glbUp = false → t = s) ∧
    (s.glbUp = true →
      t.ldr.state = s.ldr.state ∧ t.ldr.segs = s.ldr.segs ∧ t.ldr.image = s.ldr.image ∧ t.ldr.locked = s.ldr.locked ∧
      (s.loaderBusy = true → t = { s with ldr := { s.ldr with status := 0x3012#16 } }) ∧
      (s.loaderBusy = false → s.ldr.state ≠ .loaded → t = { s with ldr := { s.ldr with status := 0x3014#16 } }) ∧
      (s.loaderBusy = false → s.ldr.state = .loaded →
        let T := s.regNat .GLB_SWAP_TIME 0 0
        ((T = 0 ∧ s.ldr.deterministic = true ∨ T ≠ 0 ∧ ∃ u, s.ldr.lastStamp = some u ∧ T ≤ u) →
          changesOnly (Comp.allLdr ++ Comp.source) s t ∧ raised 0 s t ∧ t.ldr = { s.ldr with
            status := 0x3018#16, failSection := 0xFFFF, failEntry := 0, failNeed := 0, failHave := 0 }) ∧
        (¬ (T = 0 ∧ s.ldr.deterministic = true ∨ T ≠ 0 ∧ ∃ u, s.ldr.lastStamp = some u ∧ T ≤ u) →
          (∀ e, s.checkImage s.sampleJob true v = some e → raised 0 s t ∧ t.ldr = { s.ldr with
              status := e.status, failSection := BitVec.ofNat 16 e.sec, failEntry := BitVec.ofNat 32 e.entry,
              failNeed := BitVec.ofNat 64 e.need, failHave := BitVec.ofNat 64 e.got }) ∧
          (s.checkImage s.sampleJob true v = none → 
            t.ldr = { s.ldr with swap := some { s.sampleJob with seg := (s.stageOf s.sampleJob true).segOf } } ∧
              s.sampleJob.swapTime = T ∧ t.icu = s.icu)))))) ∧
  (∀ s : State, completes .swapComplete (Comp.allLdr ++ Comp.dramSeen ++ Comp.dramPut ++ [.ingScanPending]) s (fun t =>
    ((s.ldr.swap = none ∨ s.weir.coolant ≠ .none ∨ s.dev.dramMode ≠ .running) → t = s) ∧
    ∀ j, s.ldr.swap = some j → s.weir.coolant = .none → s.dev.dramMode = .running →
      raised 0 s t ∧ t.ldr.swap = none ∧ t.ldr.state = s.ldr.state ∧ t.ldr.image = s.ldr.image ∧
      t.ldr.locked = s.ldr.locked ∧
      (t.ldr.status = 0 ∧ t.ldr.swapCount = s.ldr.swapCount + 1 ∧
          t.ldr.chain = Config.sha256 (leBytes 32 s.ldr.chain.toNat ++
            leBytes 32 (t.signedDigest (s.stageOf j true)).toNat) ∧
          t.ldr.segs.map (·.id) = s.ldr.segs.map (·.id) ∧
          (∀ r ∈ s.ldr.segs, r.id = j.seg → ∃ q ∈ t.ldr.segs, q.id = j.seg ∧ q.activeB = !r.activeB ∧ q.retiring = true ∧
            q.oldPlaced = r.placed ∧ q.oldFbs = r.fbs ∧ q.switchT = j.swapTime ∧
            q.epoch = (s.ldr.swapCount + 1) % 65536 ∧ q.switchCount = s.ldr.swapCount + 1) ∧
          (∀ r ∈ s.ldr.segs, r.id ≠ j.seg → r ∈ t.ldr.segs) ∨
        t.ldr.status ∈ [0x5020#16, 0x5021#16, 0x5022#16] ∧ t.ldr.segs = s.ldr.segs ∧
          t.ldr.swapCount = s.ldr.swapCount ∧ t.ldr.chain = s.ldr.chain))) ∧
  (∀ (g : Nat) (s : State), completes (.segmentRetire g) Comp.allLdr s (fun t =>
    (∀ r, s.ldr.segs.find? (fun r => r.id = g) = some r →
      if r.retiring = true ∧ s.switched r.switchT = true ∧
          (∀ x ∈ s.inFlight (s.ctxsOfSeg g), r.isOld x.1 x.2 = false) then
        t.ldr.segs.find? (fun r => r.id = g) = some { r with retiring := false, oldPlaced := [], oldFbs := [] } ∧
        (∀ m, m ≠ g → t.ldr.segs.find? (fun r => r.id = m) = s.ldr.segs.find? (fun r => r.id = m)) ∧
        t.ldr.status = s.ldr.status
      else t = s) ∧
    ((∀ r ∈ s.ldr.segs, r.id ≠ g) → t = s)))

/-! ## Array programs -/

/-- R104, R117, R118: a LOAD at the front of a core is handed to its unit, or skipped where the core keeps what it would load; a
fifth waits. The oldest outstanding load, when it completes, has written every nibble of its runs to its store and no
other, and is kept in place of those that it wrote over; at a killed core its data are dropped; a source that cannot be read
faults the command. R91, R92, R109, R111, R112, R117: an XSCAN takes the tile base over the whole reduction range, which its
completion stores with the slot; an INIT gives its slot a zero tile, with its flags and base cleared, and in mode 1 asks for
a partial, whose ACC32 words are in the slot when it has arrived. An operand that cannot be read faults the command; a
second scan, and a read of memory that cannot be reached, wait. -/
def Obligations.LoadsScansAndInits : Prop :=
  let arrives := fun (n : Nat) (rs : List (Nat × Nat)) (s : State) =>
    s.coreRuns n = true ∧ s.weir.coolant = .none ∧ s.reach rs = true
  let fails := fun (n : Nat) (rs : List (Nat × Nat)) (s : State) => (s.reads (portCl (n / 8)) rs).1
  ((∀ (n : Nat) (s : State), completes (.load n) [.sluCores] s (fun t =>
    (∀ m, m ≠ n → t.core m = s.core m) ∧ ((∀ r fi op, ¬ atTurn n 1 s r fi op) → t = s) ∧
    ∀ r fi op, atTurn n 1 s r fi op →
      let l := (s.showing n fi).loadRec n r fi op
      let kept := bitAt op.bits 64 = true ∧ ∃ k ∈ (s.core n).kept, LoadRec.same k l = true
      (kept → passed n s t ∧ (t.core n).loads = (s.core n).loads) ∧
      (¬ kept → (s.core n).loads.length < 4 → passed n s t ∧ (t.core n).loads = (s.core n).loads ++ [l]) ∧
      (¬ kept → 4 ≤ (s.core n).loads.length → t = s))) ∧
  (∀ (n : Nat) (s : State), completes (.loadComplete n) (Comp.coreFault ++ Comp.dramSeen) s (fun t =>
    ((s.core n).loads = [] → t = s) ∧
    ∀ l ls, (s.core n).loads = l :: ls →
      (¬ arrives n l.ranges s → t = s) ∧
      (arrives n l.ranges s → (s.core n).st = .killing →
        t.core n = { s.core n with loads := ls } ∧ ∀ m, m ≠ n → t.core m = s.core m) ∧
      (arrives n l.ranges s → (s.core n).st ≠ .killing → fails n l.ranges s = none →
        changesOnly ([.sluCores] ++ Comp.dramSeen) s t ∧ (∀ m, m ≠ n → t.core m = s.core m) ∧ (t.core n).loads = ls ∧
        (∀ k, k ∈ (t.core n).kept ↔ k = l ∧ l.own = true ∨ k ∈ (s.core n).kept ∧ LoadRec.overlaps k l = false) ∧
        let store : Core → Mem := fun c => if l.operand = 4 then c.codebook else if l.bank = true then c.bankB else c.bankA
        (∀ pre src k dst post, l.copies = pre ++ (src, k, dst) :: post →
          (∀ y ∈ post, y.2.2 + y.2.1 ≤ dst ∨ dst + k ≤ y.2.2) →
          ∀ i < k, Mem.nib (store (t.core n)) (dst + i) = s.nibAt (src + i)) ∧
        ∀ a, (∀ y ∈ l.copies, a < y.2.2 ∨ y.2.2 + y.2.1 ≤ a) →
          Mem.nib (store (t.core n)) a = Mem.nib (store (s.core n)) a) ∧
      (∀ w, arrives n l.ranges s → (s.core n).st ≠ .killing → fails n l.ranges s = some w →
        coreFaults n w (s.setCore n { s.core n with pc := l.pc }) t)))) ∧
  ((∀ (n : Nat) (s : State), completes (.xscan n) (Comp.coreFault ++ Comp.dramSeen) s (fun t =>
    ((∀ r fi op, ¬ atTurn n 2 s r fi op) → t = s) ∧
    ∀ r fi op, atTurn n 2 s r fi op →
      let u := s.showing n fi
      let rs := u.scanRanges r fi.idx (bitAt op.bits 19) (bitAt op.bits 20)
      let waits := (s.core n).scanning ≠ none ∨ s.reach rs = false
      (waits → t = s) ∧
      (¬ waits → fails n rs s = none →
        changesOnly ([.sluCores] ++ Comp.dramSeen) s t ∧ passed n s t ∧ (∀ m, m ≠ n → t.core m = s.core m) ∧
        (t.core n).scanning = some (u.slotAt n r (field op.bits 16 3) fi.idx,
          u.scanBase r fi.idx (bitAt op.bits 19) (bitAt op.bits 20))) ∧
      (∀ w, ¬ waits → fails n rs s = some w → coreFaults n w u t))) ∧
  (∀ (n : Nat) (s : State), completes (.xscanComplete n) [.sluCores] s (fun t =>
    (∀ m, m ≠ n → t.core m = s.core m) ∧
    (((s.core n).scanning = none ∨ s.coreRuns n = false ∨ s.weir.coolant ≠ .none) → t = s) ∧
    ∀ k b, (s.core n).scanning = some (k, b) → s.coreRuns n = true → s.weir.coolant = .none →
      (t.core n).scanning = none ∧
      ((s.core n).st = .killing → (t.core n).slots = (s.core n).slots) ∧
      ((s.core n).st ≠ .killing → (t.core n).slot k = { (s.core n).slot k with base := b } ∧
        ∀ j, j ≠ k → (t.core n).slot j = (s.core n).slot j))) ∧
  (∀ (n : Nat) (s : State), completes (.init ⟨n, false⟩) (Comp.coreFault ++ Comp.dramSeen) s (fun t =>
    ((∀ r fi op, ¬ atTurn n 3 s r fi op) → t = s) ∧
    ∀ r fi op, atTurn n 3 s r fi op →
      let u := s.showing n fi
      let k := u.slotAt n r (field op.bits 16 3) fi.idx
      let rs := u.scaleRanges r.cmd r.run.bounds fi.idx
      let waits := (s.core n).initing k = true ∨ s.reach rs = false
      (waits → t = s) ∧
      (¬ waits → fails n rs s = none →
        changesOnly ([.sluCores] ++ Comp.dramSeen) s t ∧ passed n s t ∧ (∀ m, m ≠ n → t.core m = s.core m) ∧
        (t.core n).slot k = { Tile.zero with scale := u.scaleRead r.cmd r.run.bounds fi.idx } ∧
        (∀ j, j ≠ k → (t.core n).slot j = (s.core n).slot j) ∧
        (t.core n).inits = (s.core n).inits ++
          if bitAt op.bits 19 = true then [InitRec.mk k (u.roleAt r 4 2 fi.idx / 2) fi.pc] else []) ∧
      (∀ w, ¬ waits → fails n rs s = some w → coreFaults n w u t))) ∧
  (∀ (n : Nat) (s : State), completes (.init ⟨n, true⟩) (Comp.coreFault ++ Comp.dramSeen) s (fun t =>
    ((s.core n).inits = [] → t = s) ∧
    ∀ x xs, (s.core n).inits = x :: xs →
      (¬ arrives n [(x.addr, 65536)] s → t = s) ∧
      (arrives n [(x.addr, 65536)] s → (s.core n).st = .killing →
        t.core n = { s.core n with inits := xs } ∧ ∀ m, m ≠ n → t.core m = s.core m) ∧
      (arrives n [(x.addr, 65536)] s → (s.core n).st ≠ .killing → fails n [(x.addr, 65536)] s = none →
        changesOnly ([.sluCores] ++ Comp.dramSeen) s t ∧ (∀ m, m ≠ n → t.core m = s.core m) ∧ (t.core n).inits = xs ∧
        (∀ c < 16384, SMap.get (fun _ => 0) ((t.core n).slot x.slot).acc c =
          BitVec.ofNat 32 (leVal (s.memGet (x.addr + 4 * c) 4))) ∧
        ((t.core n).slot x.slot).base = ((s.core n).slot x.slot).base ∧
        ∀ j, j ≠ x.slot → (t.core n).slot j = (s.core n).slot j) ∧
      (∀ w, arrives n [(x.addr, 65536)] s → (s.core n).st ≠ .killing → fails n [(x.addr, 65536)] s = some w →
        coreFaults n w (s.setCore n { s.core n with pc := x.pc }) t))))

/-- R93, R94, R100, R101, R104, R109, R111: a STREAM adds the products of its updates to every cell of its slot, one update
after another with the clamp of R94, which sets the slot's overflow flag, and leaves every other slot alone. It waits for
loads of the regions that it reads, for its slot's partial, and for its slot's scan where it applies block exponents. The
activity counters count its updates, its products formed and gated, and an exchange, only where the core's count_en is
set. -/
def Obligations.StreamAccumulates : Prop :=
  ∀ (n : Nat) (s : State), completes (.stream n) [.reg .TC_CNT_EXCH, .reg .TC_CNT_GATED, .reg .TC_CNT_PRODUCTS,
    .reg .TC_CNT_UPDATES, .sluCores] s (fun t =>
    (∀ m, m ≠ n → t.core m = s.core m) ∧ ((∀ r fi op, ¬ atTurn n 4 s r fi op) → t = s) ∧
    ∀ r fi op, atTurn n 4 s r fi op →
      let f := (s.showing n fi).feed n r fi op
      let c := s.core n
      let x := c.slot f.op.slot
      let y := (t.core n).slot f.op.slot
      let cell : Nat → Int × Bool := fun k =>
        cellFold (f.sum x.base (k / 128) (k % 128)) (accVal (SMap.get (fun _ => 0) x.acc k)) f.op.count
      let waits := (∃ l ∈ c.loads, l.operand ≠ 4 ∧ ∃ g ∈ regionsOf l.bank l.line l.lines, g ∈ f.regions) ∨
        c.initing f.op.slot = true ∨ f.op.exp = true ∧ ∃ b, c.scanning = some (f.op.slot, b)
      (waits → t = s) ∧
      (¬ waits → passed n s t ∧ (t.core n).loaded = some f.op.slot ∧ y = f.tile x ∧
        (∀ j, j ≠ f.op.slot → (t.core n).slot j = c.slot j) ∧ y.base = x.base ∧
        (∀ k < 16384, accVal (SMap.get (fun _ => 0) y.acc k) = (cell k).1) ∧
        (y.ovf = true ↔ x.ovf = true ∨ ∃ k < 16384, (cell k).2 = true) ∧
        (s.regBit .TC_ARR_CTRL n 0 0 = false → t.regs = s.regs) ∧
        (n < 32 → s.regBit .TC_ARR_CTRL n 0 0 = true →
          t.reg .TC_CNT_UPDATES n 0 = s.reg .TC_CNT_UPDATES n 0 + BitVec.ofNat 64 f.op.count ∧
          t.reg .TC_CNT_PRODUCTS n 0 =
            s.reg .TC_CNT_PRODUCTS n 0 + BitVec.ofNat 64 (f.op.count * 16384 * f.perUpdate - f.gated) ∧
          t.reg .TC_CNT_GATED n 0 = s.reg .TC_CNT_GATED n 0 + BitVec.ofNat 64 f.gated ∧
          t.reg .TC_CNT_EXCH n 0 =
            s.reg .TC_CNT_EXCH n 0 + if c.loaded = some f.op.slot then 0 else BitVec.ofNat 64 64)))

/-- R93 to R95, R187 to R191: an accumulation keeps the sum where it fits 32 bits and else clamps it to the nearer end and says
so, an ACC32 word holds every such sum, and the steps of the output stage stay within 40 bits. -/
def Obligations.SaturationAndOutputRanges : Prop :=
  (∀ a p : Int, (accumulate a p).1 = max (-2147483648) (min 2147483647 (a + p)) ∧
    ((accumulate a p).2 = true ↔ a + p < -2147483648 ∨ 2147483647 < a + p) ∧
    accVal (accWord (accumulate a p).1) = (accumulate a p).1) ∧
  (∀ (p : Nat → Int) (a : Int) (k : Nat), 0 < k → -2147483648 ≤ (cellFold p a k).1 ∧ (cellFold p a k).1 ≤ 2147483647) ∧
  (∀ (a b : Int) (s16 : Nat), -549755813888 ≤ stepS a b s16 ∧ stepS a b s16 ≤ 549755813887) ∧
  (∀ (x : Int) (t : Act), -549755813888 ≤ stepV x t ∧ stepV x t ≤ 549755813887) ∧
  (∀ y : Int, toFp4 y < 16 ∧ toLog4 y < 16) ∧
  (∀ a b : W16, worseStatus a b = worseStatus b a ∧ (a = 0x4001#16 → worseStatus a b = 0x4001#16))

/-- R113, R126, R149, R175: a DRAIN or a SPILL at the front of a core hands its results to the network; a third waits, and so
does one of a slot whose partial has not arrived. A tile that an overflow or a clamp touched counts in TC_CNT_SAT or
TC_CNT_CLAMP and makes the tile's status; a result with a bad address faults the command. A SPILL leaves the slots alone; a
DRAIN adds an overflow of the output stage to its slot. When the oldest completes, whatever has become of the core, what it
writes is visible in DRAM and basins, but for partial writes of poisoned blocks, and nothing beside its blocks has
changed. -/
def Obligations.DrainsHandOverTheirResults : Prop :=
  let flagged := fun (n : Nat) (ovf clamp : Bool) (s t : State) =>
    (t.core n).status = worseStatus (s.core n).status (flagStatus ovf clamp) ∧
    (n < 32 →
      t.reg .TC_CNT_SAT n 0 = (if ovf = true then counted (s.reg .TC_CNT_SAT n 0) else s.reg .TC_CNT_SAT n 0) ∧
      t.reg .TC_CNT_CLAMP n 0 = (if clamp = true then counted (s.reg .TC_CNT_CLAMP n 0) else s.reg .TC_CNT_CLAMP n 0))
  (∀ (n : Nat) (s : State), completes (.drain n) (Comp.coreFault ++ [.reg .TC_CNT_CLAMP, .reg .TC_CNT_SAT]) s (fun t =>
    ((∀ r fi op, ¬ atTurn n 5 s r fi op) → t = s) ∧
    ∀ r fi op, atTurn n 5 s r fi op →
      let u := s.showing n fi
      let k := u.slotAt n r (field op.bits 16 3) fi.idx
      let x := (s.core n).slot k
      let waits := 2 ≤ (s.core n).drains.length ∨ (s.core n).initing k = true
      (waits → t = s) ∧
      (¬ waits → r.outOpnd op = none → changesOnly [.sluCores] s t ∧ passed n s t ∧ (t.core n).drains = (s.core n).drains) ∧
      ∀ o, ¬ waits → r.outOpnd op = some o →
        let d := u.drainNibs r o fi.idx x
        (u.writeStatus d.1 = none →
          changesOnly [.sluCores, .reg .TC_CNT_CLAMP, .reg .TC_CNT_SAT] s t ∧ passed n s t ∧
          (∀ m, m ≠ n → t.core m = s.core m) ∧
          (t.core n).drains = (s.core n).drains ++ [DrainRec.mk (s.core n).ctx (s.core n).tileNo k d.1] ∧
          flagged n (x.ovf || d.2) x.clamp s t ∧ (t.core n).slot k = { x with ovf := x.ovf || d.2 } ∧
          ∀ j, j ≠ k → (t.core n).slot j = (s.core n).slot j) ∧
        (∀ w, u.writeStatus d.1 = some w → coreFaults n w u t))) ∧
  (∀ (n : Nat) (s : State), completes (.spill n) (Comp.coreFault ++ [.reg .TC_CNT_CLAMP, .reg .TC_CNT_SAT]) s (fun t =>
    ((∀ r fi op, ¬ atTurn n 6 s r fi op) → t = s) ∧
    ∀ r fi op, atTurn n 6 s r fi op →
      let u := s.showing n fi
      let k := u.slotAt n r (field op.bits 16 3) fi.idx
      let x := (s.core n).slot k
      let waits := 2 ≤ (s.core n).drains.length ∨ (s.core n).initing k = true
      (waits → t = s) ∧
      (¬ waits → r.outOpnd op = none → changesOnly [.sluCores] s t ∧ passed n s t ∧ (t.core n).drains = (s.core n).drains) ∧
      ∀ o, ¬ waits → r.outOpnd op = some o →
        let nibs := u.spillNibs r o fi.idx x ++ u.baseNibs r o fi.idx x.base
        (u.writeStatus nibs = none →
          changesOnly [.sluCores, .reg .TC_CNT_CLAMP, .reg .TC_CNT_SAT] s t ∧ passed n s t ∧
          (∀ m, m ≠ n → t.core m = s.core m) ∧
          (t.core n).drains = (s.core n).drains ++ [DrainRec.mk (s.core n).ctx (s.core n).tileNo k nibs] ∧
          flagged n x.ovf x.clamp s t ∧ (t.core n).slots = (s.core n).slots) ∧
        (∀ w, u.writeStatus nibs = some w → coreFaults n w u t))) ∧
  (∀ (n : Nat) (s : State), completes (.drainComplete n) ([.sluBasins, .sluCores] ++ Comp.dramPut) s (fun t =>
    (∀ m, m ≠ n → t.core m = s.core m) ∧ ((s.core n).drains = [] → t = s) ∧
    ∀ d ds, (s.core n).drains = d :: ds →
      let at_ := fun (a : Nat) => whereAddr s.dev.part (64 * (a / 128))
      ((s.clocked = false ∨ s.reach (nibBlocks d.nibs) = false) → t = s) ∧
      (s.clocked = true → s.reach (nibBlocks d.nibs) = true →
        t.core n = { s.core n with drains := ds } ∧
        (∀ pre a v post, d.nibs = pre ++ (a, v) :: post → (∀ y ∈ d.nibs, y.2 < 16) → (∀ y ∈ pre, y.1 ≠ a) →
          (∀ st, at_ a ≠ .bad st) → (∀ x, at_ a = .dram x → s.poisoned (x / 64) = false) → t.nibAt a = v) ∧
        (∀ a, (∀ x ∈ d.nibs, at_ x.1 ≠ .dram (a / 64 * 64)) → t.dramByte a = s.dramByte a) ∧
        ∀ m a, (∀ x ∈ d.nibs, at_ x.1 ≠ .basin m (a / 64 * 64)) → Mem.read (t.basin m) a = Mem.read (s.basin m) a)))

/-- R119, R170, Table 4.10: XPTR sets the exponent pointers, FENCE passes when the earlier work that it names is done, PUBLISH
adds to its counter word modulo 2^32 once the core's writes are visible and its basin is live, and WAITCNT passes at its
threshold or makes the core wait until WAITCNT_PASS finds it reached; where the counter's stripe lies outside the run,
PUBLISH adds nothing and WAITCNT passes. The cycles waited, a free value, count in TC_CNT_WAIT where count_en is set. -/
def Obligations.PointersFencesAndCounters : Prop :=
  (∀ (n : Nat) (s : State), completes (.xptr n) [.sluCores] s (fun t =>
    (∀ m, m ≠ n → t.core m = s.core m) ∧ ((∀ r fi op, ¬ atTurn n 7 s r fi op) → t = s) ∧
    ∀ r fi op, atTurn n 7 s r fi op → passed n s t ∧ (t.core n).slots = (s.core n).slots ∧ (t.core n).xptr = {
      colBank := bitAt op.bits 16, colLine := (s.showing n fi).lineAt n r 2 (field op.bits 17 13) fi.idx,
      colStep := field op.bits 44 12, rowBank := bitAt op.bits 30,
      rowLine := (s.showing n fi).lineAt n r 3 (field op.bits 31 13) fi.idx, rowStep := field op.bits 56 12 })) ∧
  (∀ (n : Nat) (s : State), completes (.fence n) [.sluCores] s (fun t =>
    (∀ m, m ≠ n → t.core m = s.core m) ∧ ((∀ r fi op, ¬ atTurn n 8 s r fi op) → t = s) ∧
    ∀ r fi op, atTurn n 8 s r fi op →
      if (bitAt op.bits 17 = true ∧ (s.core n).drains ≠ []) ∨ (bitAt op.bits 16 = true ∧
        ((s.core n).loads ≠ [] ∨ (s.core n).scanning ≠ none ∨ (s.core n).inits ≠ [])) then t = s
      else passed n s t ∧ (t.core n).slots = (s.core n).slots)) ∧
  (∀ (n : Nat) (s : State), completes (.publish n) [.sluBasins, .sluCores] s (fun t =>
    (∀ m, m ≠ n → t.core m = s.core m) ∧ ((∀ r fi op, ¬ atTurn n 9 s r fi op) → t = s) ∧
    ∀ r fi op, atTurn n 9 s r fi op →
      let waits := (s.core n).drains ≠ [] ∨ s.domainLive (.basin r.cluster) = false
      (waits → t = s) ∧
      (¬ waits → (s.showing n fi).counterAt r fi.idx op = none → passed n s t ∧ t.slu.basins = s.slu.basins) ∧
      (∀ a, ¬ waits → (s.showing n fi).counterAt r fi.idx op = some a →
        passed n s t ∧
        t.counterWord r.cluster a = (s.counterWord r.cluster a + field op.bits 36 32) % 2 ^ 32 ∧
        (∀ b, (b < a ∨ a + 4 ≤ b) → Mem.read (t.basin r.cluster) b = Mem.read (s.basin r.cluster) b) ∧
        ∀ m, m ≠ r.cluster → t.basin m = s.basin m))) ∧
  (∀ (n : Nat) (s : State), completes (.waitcnt n) [.sluCores] s (fun t =>
    (∀ m, m ≠ n → t.core m = s.core m) ∧ ((∀ r fi op, ¬ atTurn n 10 s r fi op) → t = s) ∧
    ∀ r fi op, atTurn n 10 s r fi op →
      ((s.showing n fi).counterAt r fi.idx op = none → passed n s t) ∧
      ∀ a, (s.showing n fi).counterAt r fi.idx op = some a →
        (s.domainLive (.basin r.cluster) = false → t = s) ∧
        (s.domainLive (.basin r.cluster) = true → field op.bits 36 32 ≤ s.counterWord r.cluster a → passed n s t) ∧
        (s.domainLive (.basin r.cluster) = true → s.counterWord r.cluster a < field op.bits 36 32 →
          t.core n = { s.core n with pc := fi.pc, waiting := some (a, field op.bits 36 32) }))) ∧
  (∀ (n : Nat) (s : State), completes (.waitcntPass n) [.freeIdx, .reg .TC_CNT_WAIT, .sluCores] s (fun t =>
    (∀ m, m ≠ n → t.core m = s.core m) ∧ ((s.core n).waiting = none → t = s) ∧
    ∀ a v, (s.core n).waiting = some (a, v) →
      if v ≤ s.counterWord (n / 8) a ∧ s.coreRuns n = true ∧ s.weir.coolant = .none then
        (t.core n).waiting = none ∧ ((s.core n).st = .running → (s.core n).fires ≠ [] → passed n s t) ∧
        (n < 32 → t.reg .TC_CNT_WAIT n 0 = s.reg .TC_CNT_WAIT n 0 +
          if s.regBit .TC_ARR_CTRL n 0 0 = true then BitVec.ofNat 64 (Config.freeValue s.freeIdx) else 0)
      else t = s))

/-! ## Commands on cores -/

/-- R122, R143, R144, R151: a core of the holder that is idle, or whose last tile is past step 3, claims the next tile of the
first record that has one and adds 1 to it; without one it claims no more, and the first record counts the claim. A tile of
a collective is summed in one go: the core hands over the sum and is at its end, or the command faults. The commit of the
oldest tile whose writes are visible reaches its port and is counted in its record, with the worse status; one of a stale
generation is discarded, and the last of a record completes it; with its last record the command commits, with the worst
status of its records. What is stopped or not live waits. -/
def Obligations.TileClaimsAndCommits : Prop :=
  (∀ (n : Nat) (s : State), completes (.tileClaim n) (Comp.coreFault ++ Comp.dramSeen ++ [.reg .CL_CNT_CLAIMS,
      .reg .TC_CNT_CLAMP, .reg .TC_CNT_SAT]) s (fun t =>
    (s.holder (n / 8) = none → t = s) ∧
    ∀ ctx, s.holder (n / 8) = some ctx → ((s.cmdRun ctx = none ∨ s.running ctx = none) → t = s) ∧
    ∀ run c, s.cmdRun ctx = some run → s.running ctx = some c →
      let recs := run.recsFor (c.kind == 2) (n / 8)
      let may := s.mayClaim n = true ∧ n / 8 ∉ s.slu.heldIdle ∧ run.killed = false ∧ n ∉ run.spent ∧
        ∀ x ∈ recs, s.recLive x = true
      (¬ may → t = s) ∧
      (may →
        (∀ x, recs.find? s.recOpen = some x →
          let tile := s.recField x 0 4
          let fires := (c.fires run.bounds x.shard tile).map (fun y => Fire.mk y.1 y.2)
          (s.tileReach n c run tile = false → t = s) ∧
          (s.tileReach n c run tile = true →
            (t.core n).tile = tile ∧ (t.core n).ctx = c.ctx ∧ (t.core n).gen = s.recField x 4 4 ∧
            (t.core n).record = x ∧ (t.core n).tileNo = (s.core n).tileNo + 1 ∧
            (n < 32 → t.reg .CL_CNT_CLAIMS (n / 8) 0 = s.reg .CL_CNT_CLAIMS (n / 8) 0 + 1) ∧
            (c.kind ≠ 2 → t.recField x 0 4 = tile + 1 ∧
              (∀ b, (b < x.addr ∨ x.addr + 4 ≤ b) → Mem.read (t.basin x.cluster) b = Mem.read (s.basin x.cluster) b) ∧
              (∀ m, m ≠ x.cluster → t.basin m = s.basin m) ∧ (∀ m, m ≠ n → t.core m = s.core m) ∧
              (t.core n).status = 0 ∧ (t.core n).fires = fires ∧
              (t.core n).st = if fires = [] then .committing else .running) ∧
            (c.kind = 2 → c.ctx = ctx → s.stepOf ctx ≠ none → s.ctxEntry ctx ≠ none →
              t.cmdRun ctx = none ∨ t.recField x 0 4 = tile + 1 ∧ (t.core n).st = .committing ∧
                ((t.core n).drains = (s.core n).drains ∨ ∃ nibs, (t.core n).drains =
                  (s.core n).drains ++ [DrainRec.mk ctx ((s.core n).tileNo + 1) 0 nibs])))) ∧
        (recs.find? s.recOpen = none →
          t.cmdRun ctx = some { run with spent := run.spent ++ [n] } ∧ t.core n = s.core n ∧
          ∀ x xs, recs = x :: xs → t.recField x 0 4 =
            if s.recField x 0 4 = 0xFFFFFFFF then 0xFFFFFFFF else s.recField x 0 4 + 1)))) ∧
  (∀ (n : Nat) (s : State), completes (.tileCommit n) (Comp.step ++ Comp.sprint ++ Comp.dramSeen ++ [.dramWindows,
      .reg .CL_CNT_COMMITS, .reg .CL_CNT_STALE, .reg .SLUICE_CNT_STEPS]) s (fun t =>
    ((s.core n).done = [] → t = s) ∧
    ∀ d ds, (s.core n).done = d :: ds →
      let x := d.record
      let ok := (s.core n).sent d = true ∧ s.coreRuns n = true ∧ s.recLive x = true
      let core := { s.core n with
        done := ds, lastStatus := d.status
        st := if ds = [] ∧ (s.core n).st = .committing then .idle else (s.core n).st }
      let k := s.recField x 12 4 + 1
      let w := (worseStatus (BitVec.ofNat 16 (s.recField x 22 2)) d.status).toNat
      (¬ ok → t = s) ∧
      (ok → (t.core n).lastStatus = d.status ∧ (ds = [] → (s.core n).st = .committing → (t.core n).st = .idle) ∧
        (s.recField x 4 4 ≠ d.gen →
          changesOnly [.sluCores, .reg .CL_CNT_STALE] s t ∧ t.core n = core ∧ (∀ m, m ≠ n → t.core m = s.core m) ∧
          (x.cluster < 4 → t.reg .CL_CNT_STALE x.cluster 0 = counted (s.reg .CL_CNT_STALE x.cluster 0))) ∧
        (s.recField x 4 4 = d.gen → k < 2 ^ 32 →
          (x.cluster < 4 → t.reg .CL_CNT_COMMITS x.cluster 0 = s.reg .CL_CNT_COMMITS x.cluster 0 + 1) ∧
          ((k ≠ s.recField x 8 4 ∨ s.cmdRun d.ctx = none) →
            changesOnly [.sluCores, .sluBasins, .reg .CL_CNT_COMMITS] s t ∧ t.core n = core ∧
            (∀ m, m ≠ n → t.core m = s.core m) ∧ t.recField x 12 4 = k ∧ t.recField x 22 2 = w ∧
            (∀ m, m ≠ x.cluster → t.basin m = s.basin m) ∧
            ∀ b, (b < x.addr + 12 ∨ x.addr + 16 ≤ b) → (b < x.addr + 22 ∨ x.addr + 24 ≤ b) →
              Mem.read (t.basin x.cluster) b = Mem.read (s.basin x.cluster) b) ∧
          (∀ run, s.cmdRun d.ctx = some run → k = s.recField x 8 4 →
            ((∃ y ∈ run.recs, y.shard ≠ x.shard ∧ y.complete = false) → t.cmdRun d.ctx = some { run with
              recs := run.recs.map (fun y => if y.shard = x.shard then { y with complete := true } else y) }) ∧
            (∀ st, (∀ y ∈ run.recs, y.shard ≠ x.shard → y.complete = true) → s.stepOf d.ctx = some st →
              t.cmdRun d.ctx = none ∧ (t.ctxRun d.ctx).committed =
                some (st.cmd, ((s.putRecField x 12 4 k).putRecField x 22 2 w).recStatus run.recs)))))))

/-- R105, R126, R127, R145, R146: a kill closes the records of a command, unless a shard of it had completed, which only counts;
it waits while a record's basin is stopped. The command's cores are killed, one whose clock is stopped when it next runs;
each discards its tiles, is idle, and counts in TC_CNT_KILL. A fault of a running core faults its command, and a parity
error counts in TC_CNT_PARITY; reading TC_FAULT returns and clears it, but for an event in the same cycle, and frees a
halted core. -/
def Obligations.KillsAndCoreFaults : Prop :=
  (∀ (ctx : Nat) (s : State), completes (.commandKill ctx) [.reg .CL_CNT_LATEKILL, .sluBasins, .sluCmds, .sluCores] s (fun t =>
    (s.cmdRun ctx = none → t = s) ∧
    ∀ run, s.cmdRun ctx = some run →
      let live := ∀ x ∈ run.recs, s.recLive x = true
      ((run.killed = true ∨ ¬ live) → t = s) ∧
      (run.killed = false → live →
        (∀ x, s.completeRec run = some x → changesOnly [.reg .CL_CNT_LATEKILL] s t ∧ (x.cluster < 4 →
          t.reg .CL_CNT_LATEKILL x.cluster 0 = counted (s.reg .CL_CNT_LATEKILL x.cluster 0))) ∧
        (s.completeRec run = none →
          changesOnly [.sluBasins, .sluCmds, .sluCores] s t ∧
          t.cmdRun ctx = some { run with killed := true, gen := (run.gen + 1) % 2 ^ 32 } ∧
          (∀ c, c ≠ ctx → t.cmdRun c = s.cmdRun c) ∧
          (run.recs.Pairwise (fun x y => x.cluster ≠ y.cluster ∨ x.addr + 64 ≤ y.addr ∨ y.addr + 64 ≤ x.addr) →
            ∀ x ∈ run.recs, t.recField x 4 4 = (s.recField x 4 4 + 1) % 2 ^ 32 ∧
              t.recField x 0 4 = 0xFFFFFFFF ∧ t.recField x 12 4 = 0) ∧
          ∀ n, t.core n =
            if n < 32 ∧ ((s.core n).st = .running ∨ (s.core n).st = .committing) ∧ (s.core n).ctx = ctx then
              if s.coreRuns n = true then (s.core n).kill else { s.core n with killed := true }
            else s.core n)))) ∧
  (∀ (n : Nat) (s : State), completes (.coreIdle n) [.reg .TC_CNT_KILL, .sluCores] s (fun t =>
    if (s.core n).st = .killing ∧ s.coreRuns n = true then
      t.core n = { s.core n with
        st := .idle, fires := [], loads := [], kept := [], inits := [], scanning := none, slots := [], loaded := none
        waiting := none } ∧
      (∀ m, m ≠ n → t.core m = s.core m) ∧
      (n < 32 → t.reg .TC_CNT_KILL n 0 = counted (s.reg .TC_CNT_KILL n 0))
    else t = s)) ∧
  (∀ (n : Nat) (st : W16) (s : State), completes (.coreFault n st) Comp.coreFault s (fun t =>
    if ((s.core n).st = .running ∨ (s.core n).st = .committing) ∧ s.coreRuns n = true ∧
        st ∈ [Status.operandParity, Status.accParity, Status.addrReserved, Status.addrAbsent, Status.addrRegister,
          Status.poisonMade, Status.poisonRead] then
      coreFaults n st s t ∧ (n < 32 → t.reg .TC_CNT_PARITY n 0 =
        if st = Status.operandParity ∨ st = Status.accParity then counted (s.reg .TC_CNT_PARITY n 0)
        else s.reg .TC_CNT_PARITY n 0)
    else t = s)) ∧
  (∀ (n : Nat) (event : W64) (s : State), completes (.tcFaultRead n event) [.out, .reg .TC_FAULT, .sluCores] s (fun t =>
    if corePresent s.dev.part n = true then
      sends [.completion 0 .ok (leBytes 4 (s.reg .TC_FAULT n 0).toNat)] s t ∧
      (n < 32 → t.reg .TC_FAULT n 0 = event &&& 0x3FFFFF#64) ∧
      t.core n = (if (s.core n).st = .halted then { s.core n with st := .idle } else s.core n) ∧
      ∀ m, m ≠ n → t.core m = s.core m
    else t = s))

/-- R124, R137, R138, R140, R142, R144, R155: the next command of a step that holds its clusters, and none of whose cores is
busy, is issued with its bounds read, its write windows recorded, and its records at tile 0 of a new generation; where the
window table is full it waits and counts once. An empty one commits at once with its status. A bound above its maximum, an
overlap, and a read that fails fault the command. R146, R153: a killed command whose cores are quiet is issued again with the
same bounds in the generation that the kill set; a killed collective with the sharded command before it, from that one on
and in a new generation of it. -/
def Obligations.CommandIssueAndReissue : Prop :=
  let faults := fun (ctx : Nat) (w : W16) (t : State) => t.stepOf ctx = none ∧ t.cmdRun ctx = none ∧
    t.reg .SLUICE_LAST_FAULT 0 0 = BitVec.ofNat 64 (w.toNat + 65536 * (ctx % 4096))
  let issued := fun (c : Cmd) (issue gen : Nat) (bs : List Nat) (w h : Nat) (recs : List WorkRec) (t : State) =>
    t.cmdRun c.ctx = some { cmd := c.index, issue := issue, gen := gen, bounds := bs, w := w, h := h, recs := recs
                            killed := false, spent := [] } ∧
    ∀ x ∈ recs, t.recField x 0 4 = 0 ∧ t.recField x 4 4 = gen % 2 ^ 32 ∧ t.recField x 8 4 = c.tileCount bs % 2 ^ 32 ∧
      t.recField x 12 4 = 0
  (∀ (ctx : Nat) (s : State), completes (.commandIssue ctx) (Comp.fault ++ Comp.sprint ++ Comp.dramSeen ++ [.dramWindows,
      .freeIdx, .reg .CL_CNT_BOUNDFLT, .reg .CL_LAST_BOUNDFLT, .reg .SLUICE_CNT_STEPS, .reg .SLUICE_CNT_WINWAIT]) s
      (fun t =>
    (s.stepOf ctx = none → t = s) ∧
    ∀ st, s.stepOf ctx = some st →
      let may := s.cmdRun ctx = none ∧ s.holdsAll ctx st = true ∧ s.coresQuiet ctx = true
      (¬ may → t = s) ∧
      (∀ w, may → (s.ctxRun ctx).fault = some w → faults ctx w t) ∧
      ∀ a c, may → (s.ctxRun ctx).fault = none → s.recordAt ctx st.cmd (s.stepOld ctx) = some a →
        s.cmdAt ctx st.cmd (s.stepOld ctx) = some c →
        let r := s.reads portSluice [(a, s.dramRd (a + 4) 4)]
        let reaches := s.reach ((a, s.dramRd (a + 4) 4) :: c.issueWords) = true
        let windows := (s.dropWindows c.ctx c.index).dram.windows
        let ws := s.windowsOf c st.cluster
        (¬ reaches → t = s) ∧
        (∀ w, reaches → r.1 = some w → faults ctx w t) ∧
        (∀ k, reaches → r.1 = none → st.kept.find? (fun k => k.cmd = c.index) = some k →
          s.stripesFit c st.cluster k.bounds = true → (∀ x ∈ s.recsOf c st.cluster k.bounds, s.recLive x = true) →
          windows.length + ws.length ≤ 256 →
          issued c k.issue ((k.gen + 1) % 2 ^ 32) k.bounds k.w k.h (s.recsOf c st.cluster k.bounds) t) ∧
        (reaches → r.1 = none → st.kept.find? (fun k => k.cmd = c.index) = none →
          (∀ w b, r.2.readIssue c st.items.length = .fault w b →
            faults c.ctx w t ∧ (w = 0x2011#16 → ∀ n < 4, n ∈ recClusters (s.recsOf c st.cluster (c.levels.map (·.bound))) →
              t.reg .CL_CNT_BOUNDFLT n 0 = counted (s.reg .CL_CNT_BOUNDFLT n 0) ∧
              ∀ v l, b = some (v, l) → t.reg .CL_LAST_BOUNDFLT n 0 = BitVec.ofNat 64
                (v * 2 ^ 32 + l * 2 ^ 28 + c.ctx % 4096 * 65536 + c.index % 65536))) ∧
          ∀ bs w h, r.2.readIssue c st.items.length = .ok (bs, w, h) →
            (∀ e st', c.emptyStatus bs w h = some e → s.stepOf c.ctx = some st' →
              t.cmdRun c.ctx = none ∧ (t.ctxRun c.ctx).committed = some (st'.cmd, e)) ∧
            (c.emptyStatus bs w h = none → s.overlapAtIssue c st.cluster st.items bs w h = true →
              faults c.ctx 0x2012#16 t) ∧
            (c.emptyStatus bs w h = none → s.overlapAtIssue c st.cluster st.items bs w h = false →
              let fits := s.stripesFit c st.cluster bs = true ∧ ∀ x ∈ s.recsOf c st.cluster bs, s.recLive x = true
              (¬ fits → changesOnly Comp.dramSeen s t) ∧
              (fits → windows.length + ws.length ≤ 256 → t.dram.windows = windows ++ ws ∧
                issued c s.freeIdx (Config.freeValue s.freeIdx % 2 ^ 32) bs w h (s.recsOf c st.cluster bs) t) ∧
              (fits → 256 < windows.length + ws.length → t.cmdRun ctx = none ∧ t.dram.windows = s.dram.windows ∧
                t.reg .SLUICE_CNT_WINWAIT 0 0 = if st.delayed = true then s.reg .SLUICE_CNT_WINWAIT 0 0
                  else counted (s.reg .SLUICE_CNT_WINWAIT 0 0)))))) ∧
  (∀ (ctx : Nat) (s : State), completes (.commandReissue ctx) (Comp.sprint ++ [.dramWindows, .reg .SLUICE_CNT_WINWAIT,
      .sluBasins, .sluCmds, .sluCtxs, .sluGroups]) s (fun t =>
    ((s.stepOf ctx = none ∨ s.cmdRun ctx = none ∨ s.running ctx = none) → t = s) ∧
    ∀ st run c, s.stepOf ctx = some st → s.cmdRun ctx = some run → s.running ctx = some c →
      let may := run.killed = true ∧ s.coresQuiet ctx = true ∧ s.holdsAll ctx st = true
      let fits := fun (c : Cmd) (bs : List Nat) =>
        s.stripesFit c st.cluster bs = true ∧ ∀ x ∈ s.recsOf c st.cluster bs, s.recLive x = true
      (¬ may → t = s) ∧
      (may → (c.kind ≠ 2 ∨ s.shardedOf ctx st c = none) →
        (¬ fits c run.bounds → t = s) ∧
        (fits c run.bounds → t.dram = s.dram ∧
          issued c run.issue run.gen run.bounds run.w run.h (s.recsOf c st.cluster run.bounds) t)) ∧
      (∀ x j, may → c.kind = 2 → s.shardedOf ctx st c = some (x, j) → fits x j.bounds →
        (s.dropWindows x.ctx x.index).dram.windows.length + (s.windowsOf x st.cluster).length ≤ 256 →
        (∃ st', t.stepOf x.ctx = some st' ∧ st'.cmd = x.index) ∧
        issued x j.issue ((j.gen + 1) % 2 ^ 32) j.bounds j.w j.h (s.recsOf x st.cluster j.bounds) t)))

/-! ## Ingest and decode -/

/-- R194 to R199, R207, R391, R392: a poll of an attached rill. It counts as late where it starts more than 5 µs late or the
function is no bus master, and then does nothing else; the eighth failed read in a row faults the rill, and so does a write
index outside the ring. No more descriptors are taken than the write index names. One that passes is stamped, outside
deterministic mode with its own timestamp or the counter, and its copy starts, with a buffer where the class is not raw;
without a buffer the rill waits; a refused one is passed in its turn. A poll that needs a buffer waits while its pool's ring
cannot be read. -/
def Obligations.RingPolls : Prop :=
  ∀ (r late : Nat) (header : ReadRes (List Byte)) (ds : List (ReadRes (List Byte))) (s : State),
    completes (.ringPoll r late header ds) (Comp.events ++ Comp.dramSeen ++ [.ingCtxs, .ingFrames, .ldrLastStamp, .pools,
      .reg .CISTERN_CNT_ALLOC, .reg .HEP_CNT_CPLTO, .reg .HEP_CNT_RDFAIL, .reg .HEP_LAST_RDFAIL,
      .reg .HEP_LAST_RDFAIL_INFO, .reg .INGEST_POLL_LATE]) s (fun t =>
    let x := s.rill r
    let y := t.rill r
    ((s.classOf r = none ∨ s.bindOf r = none) → t = s) ∧
    ∀ c k b, x.ctx = some c → s.classOf r = some k → s.bindOf r = some b →
      let may := x.st = .attached ∧ s.regBit .INGEST_CTRL 0 0 0 = true ∧ s.weir.coolant = .none ∧
        s.domainLive (.decode (c / 128)) = true ∧ (k.codec = 4 ∨ s.canAlloc b.auPool = true)
      let failed := y.failedPolls = x.failedPolls + 1 ∧ y.st = (if 8 ≤ x.failedPolls + 1 then .faulted else .attached) ∧
        y.copies = x.copies
      (¬ may → t = s) ∧
      (may → s.canMaster x.fn = false → changesOnly [.reg .INGEST_POLL_LATE] s t ∧
        t.reg .INGEST_POLL_LATE 0 0 = counted (s.reg .INGEST_POLL_LATE 0 0)) ∧
      (may → s.canMaster x.fn = true →
        t.reg .INGEST_POLL_LATE 0 0 =
          (if 5 < late then counted (s.reg .INGEST_POLL_LATE 0 0) else s.reg .INGEST_POLL_LATE 0 0) ∧
        (header = .failed → failed ∧ t.reg .HEP_CNT_RDFAIL 0 0 = counted (s.reg .HEP_CNT_RDFAIL 0 0)) ∧
        (header = .timedOut → failed ∧ t.reg .HEP_CNT_CPLTO 0 0 = counted (s.reg .HEP_CNT_CPLTO 0 0)) ∧
        ∀ bs, header = .ok bs →
          let w := fieldOf bs 0 4
          let n := (w + 2 ^ 32 - x.nextIndex) % 2 ^ 32
          (indexFault x w = true → y.st = .faulted ∧ y.copies = x.copies ∧ y.nextIndex = x.nextIndex) ∧
          (indexFault x w = false → n = 0 → y = { x with failedPolls := 0 }) ∧
          (indexFault x w = false → ∃ m ≤ n, y.nextIndex % 2 ^ 32 = (x.nextIndex + m) % 2 ^ 32) ∧
          (∀ e es, indexFault x w = false → n = 1 → ds = .ok e :: es →
            let d := readDescriptor e
            let st := descStatus d (s.poolSize (if k.codec = 4 then b.framePool else b.auPool))
            let job := fun (st : W16) (h : Handle) => AuJob.mk r st x.nextIndex h d.length (s.stamp r k d).1 d.cookie d.flags
              s.ldr.swapCount
            let taken := y.nextIndex = (x.nextIndex + 1) % 2 ^ 32 ∧ y.failedPolls = 0
            (s.deterministic = false → (s.stamp r k d).1 =
              (if bitAt d.flags 0 = true ∧ k.alwaysStamp = false then d.captureTs else s.nowNs) % 2 ^ 64) ∧
            (st = none → k.codec = 4 →
              taken ∧ y.readIndex = x.readIndex ∧ y.copies = x.copies ++ [job 0 (Handle.mk 0 0)]) ∧
            (∀ h, st = none → k.codec ≠ 4 → (s.alloc b.auPool).1 = some h →
              taken ∧ y.readIndex = x.readIndex ∧ y.copies = x.copies ++ [job 0 h]) ∧
            (st = none → k.codec ≠ 4 → (s.alloc b.auPool).1 = none →
              y.copies = x.copies ∧ y.nextIndex = x.nextIndex ∧ y.auWaits = min 0xFFFFFFFF (x.auWaits + 1)) ∧
            (∀ q, st = some q → x.copies = [] → taken ∧ y.copies = [] ∧ y.readIndex = (x.readIndex + 1) % 2 ^ 32 ∧
              y.refused = min 0xFFFFFFFF (x.refused + 1)) ∧
            (∀ q a as, st = some q → x.copies = a :: as → a.status = 0 →
              taken ∧ y.readIndex = x.readIndex ∧ y.copies = x.copies ++ [job q (Handle.mk 0 0)]))))

/-- R197, R199, R228: the oldest copy of a rill, when it has arrived, is in its buffer and queued at its rill's decode context,
and the read index passes its descriptor; a raw frame is refused, dropped for lack of a buffer, or output at once. It waits
while its buffer cannot be reached. A periodic status record of an active rill is written with the words after its first 8
bytes before these, and begins with the read index. -/
def Obligations.CopiesAndStatusRecords : Prop :=
  (∀ (r : Nat) (data : List Byte) (s : State), completes (.auCopyComplete r data) (Comp.buffers ++ Comp.dramSeen ++
      Comp.events ++ Comp.lanes ++ [.ingCtxs, .ingFrames, .reg .CISTERN_CNT_ALLOC, .reg .DEC_CNT_FRAMES, .reg .DEC_CNT_NOBUF,
        .reg .DEC_CNT_REFUSE, .trkFlows, .trkPerRill]) s (fun t =>
    let x := s.rill r
    let y := t.rill r
    ((x.copies = [] ∨ s.classOf r = none ∨ s.bindOf r = none) → t = s) ∧
    ∀ j js c k b, x.copies = j :: js → x.ctx = some c → s.classOf r = some k → s.bindOf r = some b →
      let may := data.length = j.length ∧ s.weir.coolant = .none ∧ (s.fn x.fn).flr = .idle ∧
        if k.codec = 4 then s.canAlloc b.framePool = true ∧ s.poolReach b.framePool = true
        else s.canReach j.handle.addr j.length = true
      let hg := rawHdr data
      let st := rawStatus k (s.poolSize b.framePool) hg.1 hg.2 data.length
      (¬ may → t = s) ∧
      (may → (∀ q ∈ js.head?, q.status = 0) → y.copies = js ∧ y.readIndex = (x.readIndex + 1) % 2 ^ 32 ∧
        (k.codec ≠ 4 →
          t.reg .HEP_CNT_RD_BYTES 0 0 = s.reg .HEP_CNT_RD_BYTES 0 0 + BitVec.ofNat 64 data.length ∧
          (∀ d, s.decCtx c = some d → t.decCtx c = some { d with queue := d.queue ++ [j] }) ∧
          ∀ i v, data[i]? = some v → j.handle.addr + data.length ≤ dramSize s.dev.part →
            s.poisoned ((j.handle.addr + i) / 64) = false →
            (∀ p ∈ s.pools, 64 ≤ p.cap ∧ (j.handle.addr + i < p.ringAddr ∨ p.ringAddr + 8 * p.cap ≤ j.handle.addr + i)) →
            t.dramByte (j.handle.addr + i) = v) ∧
        (∀ q, k.codec = 4 → st = some q →
          (t.rill j.rill).refused = min 0xFFFFFFFF ((s.rill j.rill).refused + 1) ∧ (t.rill j.rill).lastStatus = q ∧
          y.framesOut = x.framesOut) ∧
        (k.codec = 4 → st = none → (s.alloc b.framePool).1 = none →
          (t.rill j.rill).droppedNoBuf = min 0xFFFFFFFF ((s.rill j.rill).droppedNoBuf + 1) ∧ y.framesOut = x.framesOut) ∧
        (∀ h, k.codec = 4 → st = none → (s.alloc b.framePool).1 = some h → rangeStatus s.dev.part h.addr data.length = none →
          y.framesOut = x.framesOut + 1 ∧ y.lastCaptureTs = j.captureTs ∧
          ∃ f ∈ t.trk.flows, f.rill = r ∧ f.frame = x.nextFrame ∧ f.captureTs = j.captureTs)))) ∧
  (∀ (r : Nat) (s : State), completes (.statusRecordPeriodic r) [.out, .reg .HEP_CNT_WR_BYTES] s (fun t =>
    let x := s.rill r
    if x.st.active = true ∧ s.canMaster x.fn = true then
      (s.rillRecord x).length = 64 ∧ (s.rillRecord x).take 4 = leBytes 4 x.readIndex ∧
      sends [.hostWrite x.fn (x.statusAddr + 8) ((s.rillRecord x).drop 8),
        .hostWrite x.fn x.statusAddr ((s.rillRecord x).take 8)] s t
    else t = s))

/-- R200 to R204, R391, Tables 8.5, 8.6 and 8.13: a scan of the registry runs on an image, with ingest on, where its period is
not 0 or one is pending; without the PF's Bus Master Enable it is kept pending, and one that loses it is kept too. A scan
detaches every attached or faulted rill that no entry names, and ends with the sequence number one on. Its first entry acts
by its rill's state: it attaches a detached or refused one whose entry passes its checks, and refuses it with its status
where they fail; it leaves an attached or faulted rill with the same sequence number as it is, and detaches one that it
turns off or changes; with a draining one it is recorded. A draining rill that has nothing left is detached, its context is
free, and an entry recorded meanwhile acts. -/
def Obligations.RegistryScanAndDrain : Prop :=
  (∀ (es : List (ReadRes (List Byte))) (stopAt : Option Nat) (s : State), completes (.registryScan es stopAt) (Comp.events ++
      Comp.log ++ [.ingCtxs, .ingScanPending, .reg .HEP_CNT_CPLTO, .reg .HEP_CNT_RDFAIL, .reg .HEP_LAST_RDFAIL,
        .reg .HEP_LAST_RDFAIL_INFO, .reg .INGEST_SCAN_SEQ, .trkPerRill]) s (fun t =>
    let n := min 512 (s.regNat .INGEST_REG_COUNT 0 0)
    let may := s.imageLoaded = true ∧ s.regBit .INGEST_CTRL 0 0 0 = true ∧
      (s.regNat .INGEST_SCAN_MS 0 0 ≠ 0 ∨ s.ing.scanPending = true)
    (¬ may → t = s) ∧
    (may → s.canMaster 0 = false → t = { s with ing := { s.ing with scanPending := true } }) ∧
    (∀ k, may → s.canMaster 0 = true → stopAt = some k →
      if es.length = k ∧ k < n then t.ing.scanPending = true ∧ t.reg .INGEST_SCAN_SEQ 0 0 = s.reg .INGEST_SCAN_SEQ 0 0
      else t = s) ∧
    (may → s.canMaster 0 = true → stopAt = none → es.length ≠ n → t = s) ∧
    (may → s.canMaster 0 = true → stopAt = none → es.length = n →
      t.ing.scanPending = false ∧
      t.reg .INGEST_SCAN_SEQ 0 0 = (s.reg .INGEST_SCAN_SEQ 0 0 + 1) &&& 0xFFFFFFFF#64 ∧
      ((∀ x ∈ es, ∃ bs, x = .ok bs ∧ (readEntry bs).seq % 2 = 0) →
        ∀ r, ((t.rill r).st = .attached ∨ (t.rill r).st = .faulted) → ∃ bs, ReadRes.ok bs ∈ es ∧ (readEntry bs).rillId = r) ∧
      ∀ bs rest, es = .ok bs :: rest →
        let e := readEntry bs
        let x := s.rill e.rillId
        let y := t.rill e.rillId
        let held := x.st = .attached ∨ x.st = .faulted
        let same := fun (z : Rill) => y = { z with lastStatus := y.lastStatus } ∧ (rest = [] → y = z)
        (e.seq % 2 = 0 → bitAt e.flags 0 = true → (s.fn e.function).flr = .idle → (x.st = .detached ∨ x.st = .refused) →
          (∀ c, s.attachCheck e = .inr c → y.st = .attached ∧ y.ctx = some c ∧ y.fn = e.function ∧
            y.cls = e.classId ∧ y.ringAddr = e.ringAddr ∧ y.ringEntries = e.ringEntries ∧ y.statusAddr = e.statusAddr ∧
            y.tag = e.tag ∧ y.seq = e.seq ∧ y.readIndex = 0 ∧ y.nextIndex = 0 ∧ y.framesOut = 0 ∧ y.att = x.att + 1 ∧
            (rest = [] → (t.decCtx c).bind (·.rill) = some e.rillId)) ∧
          (∀ st, s.attachCheck e = .inl st → e.rillId < 512 →
            y.st = .refused ∧ (rest = [] → y.lastStatus = st ∧ t.ing.ctxs = s.ing.ctxs))) ∧
        (e.seq % 2 = 0 → bitAt e.flags 0 = false → (x.st = .detached ∨ x.st = .refused) → same x) ∧
        (e.seq % 2 = 0 → bitAt e.flags 0 = false → held → y.st = .draining) ∧
        (e.seq % 2 = 0 → bitAt e.flags 0 = true → held → e.seq = x.seq → same x) ∧
        (e.seq % 2 = 0 → bitAt e.flags 0 = true → held → e.seq ≠ x.seq →
          y.st = .draining ∧ y.recorded = some (0, e)) ∧
        (e.seq % 2 = 0 → x.st = .draining → same { x with recorded := some (0, e) })))) ∧
  (∀ (r : Nat) (s : State), completes (.rillDrainComplete r) (Comp.tracks ++ Comp.buffers ++ Comp.dramSeen ++ Comp.events ++
      Comp.lanes ++ [.ingCtxs, .ingEngines, .ingFrames, .trkCache, .reg .DEC_CNT_FRAMES, .reg .TRK_CNT_HIT,
        .reg .TRK_CNT_MISS, .reg .TRK_CNT_POISON]) s (fun t =>
    if s.drained r = true ∧ s.weir.coolant = .none then
      ((s.rill r).recorded = none → (t.rill r).st = .detached ∧ (t.rill r).ctx = none ∧
        ∀ c, (s.rill r).ctx = some c → (s.decCtx c).isSome = true →
          (t.decCtx c).bind (·.rill) = none ∧ (t.decCtx c).isSome = true) ∧
      ∀ i e, (s.rill r).recorded = some (i, e) → e.rillId = r → r < 512 →
        ((s.imageLoaded = false ∨ bitAt e.flags 0 = false ∨ (s.fn e.function).flr ≠ .idle) → (t.rill r).st = .detached) ∧
        (s.imageLoaded = true → bitAt e.flags 0 = true → (s.fn e.function).flr = .idle →
          (t.rill r).st = .attached ∨ (t.rill r).st = .refused)
    else t = s))

/-- R212 to R217, R219, R220, R227: an engine with no picture in progress serves the next ready context: it goes on with that
context's picture, or takes its next access unit. One that cannot be read, and one without a frame buffer, is dropped; one
that is refused counts, and a refusal of its header stays in force until a random access point passes; one that passes begins
a picture. A turn that ends at its quantum adds its work; a picture that ends within its budget moves the running average by
a sixteenth, one that passes it is abandoned and leaves the average. Concealed and abandoned pictures are counted.
Utilisation saturates at INGEST_SAT_PCT, raises source 2, and recovers 5 points below. -/
def Obligations.DecodeTurnsAndBudgets : Prop :=
  let more := fun (v : Nat) => min 0xFFFFFFFF (v + 1)
  (∀ (e : Nat) (p : AuParse) (s : State), completes (.decodeTurn e p) (Comp.buffers ++ Comp.dramSeen ++ Comp.events ++
      Comp.lanes ++ [.ingCtxs, .ingEngines, .ingFrames, .reg .CISTERN_CNT_ALLOC, .reg .DEC_CNT_FRAMES, .reg .DEC_CNT_NOBUF,
        .reg .DEC_CNT_REFUSE, .trkFlows, .trkPerRill]) s (fun t =>
    let may := decPresent s.dev.part e = true ∧ s.domainLive (.decode (e / 4)) = true ∧ s.weir.coolant = .none ∧
      (s.engine e).current = none
    ((¬ may ∨ s.nextReady e = none) → t = s) ∧
    ∀ c d, may → s.nextReady e = some c → s.decCtx c = some d →
      (t.engine e).last = c % 32 ∧
      (d.pic ≠ none → (t.engine e).current = some c ∧ t.decCtx c = some d) ∧
      ∀ r k b au q, d.pic = none → d.rill = some r → s.classOf r = some k → s.bindOf r = some b → d.queue = au :: q →
        au.status = 0 →
        let d0 := if bitAt au.flags 1 = true then { d with refs := [], avg := d.a0, disc := d.disc + 1 } else d
        let d1 := { d0 with queue := q, nextPic := d.nextPic + 1 }
        let v := s.reads (portDec e) [(au.handle.addr, au.length)]
        let w := v.2.reads (portDec e) (v.2.refRanges au.rill d1 p)
        let none_ := (t.engine e).current = none ∧ (t.decCtx c).bind (·.pic) = none
        let left := (t.decCtx c).map (·.queue) = some q
        let passes := p.seq.isSome = true ∧ p.rap = true ∨ d.refusing = none
        let reaches := s.decReach d b p au = true
        (¬ reaches → none_ ∧ t.decCtx c = some d) ∧
        (reaches → left) ∧
        (∀ st, reaches → v.1 = some st → none_) ∧
        (∀ st, reaches → v.1 = none → d.refusing = none → s.judge k b d1 p = some st →
          none_ ∧ (t.decCtx c).bind (·.refusing) = some st ∧ (t.rill au.rill).refused = more (s.rill au.rill).refused ∧
          (t.rill au.rill).lastStatus = st ∧
          (e < 16 → t.reg .DEC_CNT_REFUSE e 0 = counted (s.reg .DEC_CNT_REFUSE e 0))) ∧
        (∀ st, reaches → v.1 = none → d.refusing = some st → (¬ passes ∨ s.judge k b d1 p ≠ none) →
          none_ ∧ (t.decCtx c).bind (·.refusing) = some st ∧ (t.rill au.rill).refused = more (s.rill au.rill).refused ∧
          (e < 16 → t.reg .DEC_CNT_REFUSE e 0 = counted (s.reg .DEC_CNT_REFUSE e 0))) ∧
        (reaches → v.1 = none → d.refusing = none → s.judge k b d1 p = none → p.seq = none → p.toolRefused = true →
          none_ ∧ (t.rill au.rill).refused = more (s.rill au.rill).refused ∧
          (t.rill au.rill).lastStatus = Status.toolRefused) ∧
        (reaches → v.1 = none → passes → s.judge k b d1 p = none → (p.seq = none → p.toolRefused = false) →
          (p.readsPoison = false ∨ w.1 = none) →
          ((w.2.alloc b.framePool).1 = none →
            none_ ∧ (t.rill au.rill).droppedNoBuf = more (s.rill au.rill).droppedNoBuf ∧
            (e < 16 → t.reg .DEC_CNT_NOBUF e 0 = counted (s.reg .DEC_CNT_NOBUF e 0))) ∧
          (∀ h, (w.2.alloc b.framePool).1 = some h →
            let hdr := p.seq.getD (d.hdr.getD noHdr)
            rangeStatus s.dev.part h.addr (SeqHdrGeo hdr).size = none →
            (t.engine e).current = some c ∧ (t.decCtx c).bind (·.refusing) = none ∧
            ∃ pic, (t.decCtx c).bind (·.pic) = some pic ∧ pic.au = au ∧ pic.handle = h ∧ pic.hdr = hdr ∧ pic.work = 0 ∧
              pic.num = d.nextPic ∧ pic.isRef = p.isRef ∧ pic.disc = d0.disc))) ) ∧
  (∀ (e w : Nat) (s : State), completes (.quantumExpire e w) [.ingCtxs, .ingEngines, .ingRills, .reg .DEC_CNT_WORK] s
      (fun t =>
    (s.onEngine e = none → t = s) ∧
    ∀ c d p k, s.onEngine e = some (c, d, p, k) →
      if s.engineRuns e = true ∧ s.regNat .DEC_QUANTUM_US e 0 * 1000 ≤ w ∧ p.work + w ≤ budget k d then
        (t.engine e).current = none ∧ t.decCtx c = some { d with pic := some { p with work := p.work + w } } ∧
        (t.rill p.au.rill).work.head? = some (s.nowNs, w) ∧
        (e < 16 → t.reg .DEC_CNT_WORK e 0 = s.reg .DEC_CNT_WORK e 0 + BitVec.ofNat 64 w)
      else t = s)) ∧
  (∀ (e w : Nat) (as : List Area) (os : List Nat) (s : State), completes (.pictureComplete e w as os) (Comp.buffers ++
      Comp.dramSeen ++ Comp.events ++ Comp.lanes ++ [.ingCtxs, .ingEngines, .ingFrames, .reg .DEC_CNT_ABANDON,
        .reg .DEC_CNT_CONCEAL, .reg .DEC_CNT_FRAMES, .reg .DEC_CNT_WORK, .trkFlows, .trkPerRill]) s (fun t =>
    (s.onEngine e = none → t = s) ∧
    ∀ c d p k, s.onEngine e = some (c, d, p, k) →
      if s.engineRuns e = true ∧ p.work + w ≤ budget k d ∧ p.areasOk as = true ∧
          s.endReach d p (as.flatMap (·.runs)) = true then
        (t.engine e).current = none ∧ (t.decCtx c).bind (·.pic) = none ∧
        (t.decCtx c).map (·.avg) = some (if p.abandoned = true then d.avg else nextAvg d.avg (p.work + w)) ∧
        (t.decCtx c).map (·.refs) = some (d.refs.filter p.keep.contains ++ if p.isRef = true then [p.num] else []) ∧
        (t.rill p.au.rill).concealed =
          (if as ≠ [] then more (s.rill p.au.rill).concealed else (s.rill p.au.rill).concealed) ∧
        (e < 16 → t.reg .DEC_CNT_WORK e 0 = s.reg .DEC_CNT_WORK e 0 + BitVec.ofNat 64 w)
      else t = s)) ∧
  (∀ (e w sl off : Nat) (rest : List CtuRun) (as : List Area) (os : List Nat) (s : State),
    completes (.budgetExceeded e w sl off rest as os) (Comp.buffers ++ Comp.dramSeen ++ Comp.events ++ Comp.lanes ++
      [.ingCtxs, .ingEngines, .ingFrames, .reg .DEC_CNT_ABANDON, .reg .DEC_CNT_CONCEAL, .reg .DEC_CNT_FRAMES,
        .reg .DEC_CNT_WORK, .trkFlows, .trkPerRill]) s (fun t =>
    (s.onEngine e = none → t = s) ∧
    ∀ c d p k, s.onEngine e = some (c, d, p, k) →
      if s.engineRuns e = true ∧ budget k d < p.work + w ∧ p.areasOk as = true ∧ p.runsOk rest = true ∧
          s.endReach d p (as.flatMap (·.runs) ++ rest) = true then
        (t.engine e).current = none ∧ (t.decCtx c).bind (·.pic) = none ∧ (t.decCtx c).map (·.avg) = some d.avg ∧
        (t.rill p.au.rill).abandoned = more (s.rill p.au.rill).abandoned ∧
        (t.rill p.au.rill).concealed =
          (if as ≠ [] ∨ rest ≠ [] then more (s.rill p.au.rill).concealed else (s.rill p.au.rill).concealed) ∧
        (e < 16 → t.reg .DEC_CNT_ABANDON e 0 = counted (s.reg .DEC_CNT_ABANDON e 0))
      else t = s)) ∧
  (∀ (e util : Nat) (s : State), completes (.engineUtilUpdate e util) (Comp.source ++ [.ingEngines, .reg .INGEST_ENG_UTIL]) s
    (fun t =>
    if decPresent s.dev.part e = true ∧ util ≤ 1000 then
      let pct := s.regNat .INGEST_SAT_PCT 0 0
      (e < 16 → t.reg .INGEST_ENG_UTIL 0 e = BitVec.ofNat 64 util) ∧
      t.engine e = { s.engine e with saturated :=
        if (s.engine e).saturated = false then decide (pct * 10 ≤ util) else !decide (util < (pct - 5) * 10) } ∧
      ((s.engine e).saturated = false → pct * 10 ≤ util → raised 2 s t)
    else t = s))

/-! ## Scaler engines, track engine and head exports -/

/-- R30, R70, R223, R234, R235, R241 to R245, R282: a scaler engine, in rotation, takes the pixel command of a frame: its fixed
regions where they have not been taken, and the crops requested of it. The command waits while no slot exists, what it
touches cannot be reached, or a swap that verifies holds the frame. Of its only region: one of a frame that has left the
decode cache, one that reads poison, one whose source rectangle is refused and one without a buffer are skipped and told; a
buffer at a bad address faults the command; else the region is written, at a buffer of its pool or a slot of its target's
basin share, and its ready mark is to come. At a ready mark the item enters its target's queue (R242); the last one commits
the command. -/
def Obligations.PixelCommandsAndReadyMarks : Prop :=
  (∀ (pxe ctx rill frame : Nat) (s : State), completes (.pixelCommand pxe ctx rill frame) (Comp.flows ++ Comp.lanes ++
      Comp.dramSeen ++ [.freeIdx, .reg .CISTERN_CNT_ALLOC, .reg .PXE_CMD, .reg .PXE_CNT_BUSY, .reg .PXE_CNT_READ,
        .reg .PXE_CNT_REGIONS, .reg .PXE_CNT_SKIP_NOBUF, .reg .PXE_CNT_SKIP_OTHER, .reg .PXE_CNT_WRITTEN,
        .reg .PXE_LAST_SKIP, .reg .SLUICE_LAST_FAULT, .trkCrops, .trkLastPxe, .trkPxes]) s (fun t =>
    let f := (s.frame rill frame).getD (lostFrame rill frame)
    let fixed := (s.flow rill frame).any (fun x => !x.started) && (s.classOf rill).any (fun k => decide (k.firstCtx = ctx))
    let may := pxePresent s.dev.part pxe = true ∧ s.domainLive .pixel = true ∧ s.nextPxe = some pxe ∧
      s.ctxKind ctx = some 1 ∧ s.weir.coolant = .none ∧ s.swapHolds ctx f.captureTs = false ∧
      (fixed = true ∨ ∃ c ∈ s.trk.crops, c.pixelCtx = ctx ∧ c.rill = rill ∧ c.frame = frame)
    (s.program ctx (s.oldFor ctx f.captureTs f.stamp) = none → t = s) ∧ (¬ may → t = s) ∧
    ∀ p, s.program ctx (s.oldFor ctx f.captureTs f.stamp) = some p → may →
      let cs := takeCrops ctx rill frame (64 - if fixed = true then p.rois.length else 0) s.trk.crops
      let jobs := (if fixed = true then roiJobs p else []) ++ cs.1.filterMap (cropJob p)
      (s.takeSlots jobs [] = none → t = s) ∧
      ∀ slots, s.takeSlots jobs [] = some slots →
        (s.pixelReach f (jobs.zip slots) = false → t = s) ∧
        (s.pixelReach f (jobs.zip slots) = true →
          t.trk.lastPxe = pxe ∧ t.trk.crops = cs.2 ∧
          t.reg .PXE_CMD pxe 0 = BitVec.ofNat 64 (ctx + 4096 * rill) ∧
          (fixed = true → ∀ y, t.flow rill frame = some y → y.started = true) ∧
          ∀ j slot, jobs.zip slots = [(j, slot)] →
            let d := j.desc
            let skipped : W16 → Prop := fun st => t.pxe pxe = none ∧
              t.reg .PXE_LAST_SKIP pxe 0 = BitVec.ofNat 64 (st.toNat + 65536 * (j.index % 64)) ∧
              t.reg .PXE_CNT_REGIONS pxe 0 = s.reg .PXE_CNT_REGIONS pxe 0 ∧
              t.reg .PXE_CNT_BUSY pxe 0 = s.reg .PXE_CNT_BUSY pxe 0 + 200 ∧
              t.reg .PXE_CNT_SKIP_NOBUF pxe 0 = (if st = Status.outputPoolEmpty then counted (s.reg .PXE_CNT_SKIP_NOBUF pxe 0)
                else s.reg .PXE_CNT_SKIP_NOBUF pxe 0) ∧
              t.reg .PXE_CNT_SKIP_OTHER pxe 0 =
                if st = Status.notCached ∨ st = Status.cropEmpty ∨ st = Status.windowTooLarge then
                  counted (s.reg .PXE_CNT_SKIP_OTHER pxe 0)
                else s.reg .PXE_CNT_SKIP_OTHER pxe 0
            (s.frame rill frame = none → skipped Status.notCached) ∧
            (s.frame rill frame ≠ none →
              let r0 := s.reads portPxe [(f.handle.addr, 128)]
              let h := s.readFrameHdr f.handle.addr
              (∀ st, r0.1 = some st → skipped st) ∧
              (∀ st, r0.1 = none → clippedRect d h j.box = .inl st → skipped st) ∧
              ∀ r, r0.1 = none → clippedRect d h j.box = .inr r →
                let g := fitGeom d r
                let ps := srcPlanes f.handle.addr d h g
                let r1 := (r0.2.reads portPxe (ps.flatMap (planeRanges h.depth d g))).1
                let bad := fun (hd : Handle) =>
                  rangeStatus s.dev.part hd.addr (d.chans * planesOf d.outFmt * d.planePitch)
                (∀ st, r1 = some st → skipped st) ∧
                (r1 = none → slot = none → (s.alloc d.pool).1 = none → skipped Status.outputPoolEmpty) ∧
                (∀ hd st, r1 = none → slot = none → (s.alloc d.pool).1 = some hd → bad hd = some st →
                  skipped st ∧ raised 9 s t ∧
                  t.reg .SLUICE_LAST_FAULT 0 0 = BitVec.ofNat 64 (st.toNat + 65536 * (ctx % 4096))) ∧
                ∀ a b, r1 = none → ((slot = none ∧ (s.alloc d.pool).1 = b ∧ b.map (·.addr) = some a ∧ b.bind bad = none) ∨
                    (slot.map (fun y => basinBase y.1 + y.2) = some a ∧ b = none)) →
                  let out := s.putAll a (planeWrites d (outRows d g (s.regionPixels d h g ps)))
                  t.pxe pxe = some (PxeRun.mk ctx rill frame j.index [(d.target, s.regionItem f j g a b slot)]) ∧
                  t.reg .PXE_CNT_REGIONS pxe 0 = s.reg .PXE_CNT_REGIONS pxe 0 + 1 ∧
                  t.reg .PXE_CNT_READ pxe 0 = s.reg .PXE_CNT_READ pxe 0 + BitVec.ofNat 64 (g.sw * g.sh) ∧
                  t.reg .PXE_CNT_WRITTEN pxe 0 = s.reg .PXE_CNT_WRITTEN pxe 0 + BitVec.ofNat 64 (d.outW * d.outH) ∧
                  t.reg .PXE_CNT_BUSY pxe 0 = s.reg .PXE_CNT_BUSY pxe 0 + BitVec.ofNat 64 (regionCycles d g) ∧
                  ((∀ y ∈ s.ing.frames, y.isRef = true) → t.dram.bytes = out.dram.bytes) ∧
                  (s.slu.cmds = [] → t.slu.basins = out.slu.basins))))) ∧
  (∀ (pxe : Nat) (s : State), completes (.regionComplete pxe) (Comp.buffers ++ Comp.lanes ++ [.ingFrames, .trkFlows,
      .trkPxes]) s (fun t =>
    ((s.pxe pxe = none ∨ s.weir.coolant ≠ .none) → t = s) ∧
    ∀ p, s.pxe pxe = some p → s.weir.coolant = .none →
      (p.marks = [] → changesOnly [.trkPxes] s t ∧ t.pxe pxe = none) ∧
      (∀ target it ms, p.marks = (target, it) :: ms → (t.ctxRun target).queue = (s.ctxRun target).queue ++ [it] ∧
        t.pxe pxe = (match ms with
          | [] => none
          | m :: _ => some { p with region := m.2.region, marks := ms }))))

/-- R247, R254 to R267, R273 to R277, R282, R302: a track command takes the next frame of a rill whose head items and due
embeddings have come, on a lane of the track engine: one that its context holds idle, else one whose turn the context has.
It counts the kept detections, applies the due embeddings, starts a track for an unmatched detection, and writes the frame's
records: where nothing is to tell, the frame-end record alone, then the ring's source is raised; during an FLR of the
function it writes nothing. At its commit the frame waits for it no longer. Its context keeps the lane while it has a
frame for it; where the lane's slice has ended the overrun is noted and the lane given up. -/
def Obligations.TrackCommands : Prop :=
  (∀ (ctx rill frame : Nat) (s : State), completes (.trackCommand ctx rill frame) (Comp.records ++ Comp.dramPut ++
      Comp.dramSeen ++ [.reg .TRK_CNT_DET, .reg .TRK_CNT_EMBQFULL, .reg .TRK_CNT_HIT, .reg .TRK_CNT_MISS,
        .reg .TRK_CNT_POISON, .reg .TRK_CNT_STOREFULL, .reg .TRK_RING_LOST, .sluBasins, .sluCtxs, .sluEnded, .sluHeldIdle,
        .sluHolder, .sluLastHeld, .sluSlices, .trkCache, .trkCrops, .trkEmbq, .trkPerRill, .trkRings, .trkStorePeak,
        .trkTracks]) s (fun t =>
    ((s.flow rill frame = none ∨ s.ctxEntry ctx = none) → t = s) ∧
    ∀ fl e, s.flow rill frame = some fl → s.ctxEntry ctx = some e →
      (s.rulesOf ctx (s.oldFor ctx fl.captureTs fl.stamp) = none → t = s) ∧
      ∀ rs, s.rulesOf ctx (s.oldFor ctx fl.captureTs fl.stamp) = some rs →
        let may := e.kind = 3 ∧ s.domainLive .track = true ∧ s.weir.coolant = .none ∧ s.flowReady e fl = true ∧
          s.trackReach rs fl = true
        ((¬ may ∨ s.laneTurn e = none) → t = s) ∧
        ∀ k u, may → s.laneTurn e = some (k, u) →
          t.slu.holder = u.slu.holder ∧ t.slu.slices = u.slu.slices ∧ (s.idleLanes ctx = [] → t.holder k = some ctx) ∧
          (t.rillTrk rill).running = some (ctx, frame, k) ∧ (t.rillTrk rill).lastFrame = some frame ∧
          (∀ x ∈ t.trk.embq, (x ∈ s.trk.embq ∧ rs.due rill frame x = false) ∨
            (x.rill = rill ∧ x.frame = frame ∧ x.data = none)) ∧
          (∀ x ∈ s.trk.tracks, x.rill ≠ rill → x ∈ t.trk.tracks) ∧
          ((s.fn fl.fn).flr ≠ .idle → t.out = s.out) ∧
          ((∀ l, (s.rillTrk rill).lastFrame = some l → l / 2 ^ 64 = frame / 2 ^ 64) →
            let hdr := ((s.frame rill frame).map (·.hdr)).getD noHdr
            let cands := s.frameCands rs hdr.cropW hdr.cropH (s.readHeads rs fl.heads).2.1
            let kept := (nms rs (cands.take rs.maxCand) []).1
            t.reg .TRK_CNT_DET 0 0 = s.reg .TRK_CNT_DET 0 0 + BitVec.ofNat 64 kept.length ∧
            (∀ c place, s.rillTracks rill = [] → kept = [c] → rs.tracks c.cls = true → 0 < rs.maxTracks →
              (∃ y, rs.classes[c.cls]? = some y ∧ y.startThr ≤ c.score) → s.freeStore = some place →
              let id := (s.rillTrk rill).nextId
              t.trk.tracks = s.trk.tracks ++ [{ rill := rill, id := id, store := place }] ∧
              ∃ x : Track, t.recordBytes place = x.bytes ∧ x.rill = rill ∧ x.id = id ∧ x.cls = c.cls ∧
                x.st = if rs.confirmHits = 1 then .confirmed else .tentative) ∧
            (fl.fn < 32 → (s.fn fl.fn).flr = .idle → s.canMaster fl.fn = true → s.regBit .TRK_RING_CTRL fl.fn 0 0 = true →
              s.regNat .TRK_RING_ENTRIES fl.fn 0 ≠ 0 →
              (s.ring fl.fn).renew.full (s.regNat .TRK_RING_ENTRIES fl.fn 0) = false →
              fl.heads = [] → s.rillTracks rill = [] → s.trk.embq = [] → fl.status = 0 → rs.health = 0 →
              let base := s.regNat .TRK_RING_ADDR fl.fn 0
              let place := (s.ring fl.fn).renew.prod
              let body := frameEndBody 0 0 0 fl.flags ((rs.heads.head?.map (·.ctx)).getD 0xFFFF) 0
              sends [.hostWrite fl.fn (base + 64 + 64 * (place % s.regNat .TRK_RING_ENTRIES fl.fn 0))
                  (s.metaBytes { fn := fl.fn, rill := rill, tag := fl.tag, ts := fl.captureTs, index := frame % 2 ^ 64 } 5 0
                    body (s.ring fl.fn).renew.lost),
                .hostWrite fl.fn base (leBytes 4 ((place + 1) % 2 ^ 32))] s t ∧ raised (32 + fl.fn) s t)))) ∧
  (∀ (rill : Nat) (s : State), completes (.trackCommandCommit rill) (Comp.buffers ++ Comp.lanes ++ [.ingFrames,
      .reg .TRK_CNT_FRAMES, .trkFlows, .trkPerRill]) s (fun t =>
    (((s.rillTrk rill).running = none ∨ s.weir.coolant ≠ .none) → t = s) ∧
    ∀ ctx frame lane, (s.rillTrk rill).running = some (ctx, frame, lane) → s.weir.coolant = .none →
      let u := (s.setRillTrk rill { s.rillTrk rill with running := none }).flowDone ctx rill frame
      (t.rillTrk rill).running = none ∧ t.reg .TRK_CNT_FRAMES 0 0 = s.reg .TRK_CNT_FRAMES 0 0 + 1 ∧
      (∀ x, t.flow rill frame = some x → ctx ∉ x.ctxs) ∧
      ∀ e, s.ctxEntry ctx = some e → (∀ x ∈ s.ldr.image.ctxs, x.id = ctx → x.kind = 3) → 4 ≤ lane →
        (∀ n < 4, s.holder n ≠ some ctx) → (∀ c, c ≠ ctx → lane ∉ (s.ctxRun c).holds) →
        (lane ∈ s.slu.ended → t.holder lane = none ∧ ∀ v, SMap.find? s.slu.slices lane = some v →
          (t.ctxRun ctx).overrunNs = min (s.nowNs - v) (s.sliceNs ctx)) ∧
        (lane ∉ s.slu.ended → t.holder lane =
          if (u.idleLanes ctx).length ≤ (u.readyFlows e).length then s.holder lane else none)))

/-- R16, R30, R124, R278, R282, R309 to R311, R328: in its turn on a lane of the copy engine, a copy context exports a frame's
committed head items, in region descriptor order, into a buffer of its command's pool, and tells so in the metadata ring;
with no items nothing is exported, and so where one reads poison; where they do not fit, or without a buffer, the export is
lost and counted; a buffer at a bad address faults the command. The frame waits for the context no longer. A copy of op 0
waits while a command that writes its source has not committed, takes its turn and its write window, waits where the window
table is full, and ends with its bytes moved, its window gone and its commit, or with a fault at a bad address or poison. -/
def Obligations.HeadExportsAndMoves : Prop :=
  (∀ (ctx rill frame : Nat) (s : State), completes (.headExport ctx rill frame) (Comp.buffers ++ Comp.records ++ Comp.lanes ++
      Comp.dramSeen ++ [.ingFrames, .reg .CISTERN_CNT_ALLOC, .reg .SLUICE_CNT_EXPORTLOST, .reg .SLUICE_LAST_FAULT,
        .reg .TRK_RING_LOST, .trkFlows, .trkRings]) s (fun t =>
    ((s.flow rill frame = none ∨ s.ctxEntry ctx = none) → t = s) ∧
    ∀ fl e, s.flow rill frame = some fl → s.ctxEntry ctx = some e →
      let cs := s.exportCmds ctx (s.oldFor ctx fl.captureTs fl.stamp)
      let may := e.kind = 4 ∧ s.flowReady e fl = true ∧ s.weir.coolant = .none ∧ s.clocked = true ∧
        s.exportReach fl cs = true
      ((¬ may ∨ s.copyTurn e = none) → t = s) ∧
      ∀ k v, may → s.copyTurn e = some (k, v) →
        (∀ x, t.flow rill frame = some x → ctx ∉ x.ctxs) ∧
        ∀ c, cs = [c] →
          let heads := fl.exported c
          let n := heads.length * c.length
          let bad := fun (h : Handle) => rangeStatus s.dev.part h.addr n
          let fits := heads ≠ [] ∧ n ≤ s.poolSize c.pool ∧ (s.reads portSluice (fl.exportRanges c)).1 = none
          let lost := heads ≠ [] ∧ (s.poolSize c.pool < n ∨
            (s.reads portSluice (fl.exportRanges c)).1 = none ∧ (s.alloc c.pool).1 = none)
          t.reg .SLUICE_CNT_EXPORTLOST 0 0 = (if lost then counted (s.reg .SLUICE_CNT_EXPORTLOST 0 0)
            else s.reg .SLUICE_CNT_EXPORTLOST 0 0) ∧
          ((¬ fits ∨ (s.alloc c.pool).1 = none) → t.out = s.out) ∧
          ∀ h, fits → (s.alloc c.pool).1 = some h →
            (∀ st, bad h = some st → t.out = s.out ∧ raised 9 s t ∧
              t.reg .SLUICE_LAST_FAULT 0 0 = BitVec.ofNat 64 (st.toNat + 65536 * (ctx % 4096))) ∧
            (bad h = none →
              ((∀ y ∈ s.ing.frames, y.isRef = true) →
                t.dram.bytes = (v.copyHeads h.addr c.length (heads.map (fun x => x.2.2.1))).dram.bytes) ∧
              (fl.fn < 32 → (s.fn fl.fn).flr = .idle → s.canMaster fl.fn = true →
                s.regBit .TRK_RING_CTRL fl.fn 0 0 = true → s.regNat .TRK_RING_ENTRIES fl.fn 0 ≠ 0 →
                (s.ring fl.fn).renew.full (s.regNat .TRK_RING_ENTRIES fl.fn 0) = false →
                let base := s.regNat .TRK_RING_ADDR fl.fn 0
                let place := (s.ring fl.fn).renew.prod
                let body := leBytes 8 h.addr ++ leBytes 4 n ++ leBytes 1 heads.length ++ leBytes 1 c.pool ++
                  leBytes 2 c.source ++ leBytes 16 0
                sends [.hostWrite fl.fn (base + 64 + 64 * (place % s.regNat .TRK_RING_ENTRIES fl.fn 0))
                    (s.metaBytes { fn := fl.fn, rill := rill, tag := fl.tag, ts := fl.captureTs, index := frame } 6 0 body
                      (s.ring fl.fn).renew.lost),
                  .hostWrite fl.fn base (leBytes 4 ((place + 1) % 2 ^ 32))] s t)))) ∧
  (∀ (ctx : Nat) (done : Bool) (s : State), completes (.move ⟨ctx, done⟩) (Comp.flows ++ Comp.allSlu ++ Comp.dramSeen ++
      [.dramWindows, .reg .CL_CNT_LATEKILL, .reg .SLUICE_CNT_PREEMPT, .reg .SLUICE_CNT_WINWAIT,
        .reg .SLUICE_LAST_FAULT]) s (fun t =>
    ((s.ctxEntry ctx = none ∨ s.nextMove ctx = none ∨ s.weir.coolant ≠ .none ∨ s.clocked = false) → t = s) ∧
    ∀ e k c, s.ctxEntry ctx = some e → s.nextMove ctx = some (k, c) → s.weir.coolant = .none → s.clocked = true →
      (e.kind ≠ 4 → t = s) ∧
      (e.kind = 4 → done = false →
        changesOnly (Comp.lanes ++ [.dramWindows, .reg .SLUICE_CNT_WINWAIT]) s t ∧
        let inDram := c.dst < dramSize s.dev.part
        let window : List Window := [{ ctx := ctx, cmd := k, lo := c.dst, hi := c.dst + c.length }]
        (∀ r, s.cmdRun ctx = some r →
          let need := inDram ∧ s.hasWindow ctx k = false
          let again := r.killed = true ∧ r.cmd = k
          ((¬ again ∨ (¬ (need ∧ 256 ≤ s.dram.windows.length) ∧ s.copyTurn e = none)) → t = s) ∧
          (again → need → 256 ≤ s.dram.windows.length → changesOnly [.sluCmds] s t ∧ t.cmdRun ctx = some r) ∧
          ∀ v, again → ¬ (need ∧ 256 ≤ s.dram.windows.length) → s.copyTurn e = some v →
            t.cmdRun ctx = some { r with killed := false } ∧
            t.dram.windows = s.dram.windows ++ if need then window else []) ∧
        (s.cmdRun ctx = none →
          let u := s.dropWindows ctx k
          let full := inDram ∧ 256 ≤ u.dram.windows.length
          let r : CmdRun :=
            { cmd := k, issue := 0, gen := 0, bounds := [], w := 0, h := 0, recs := [], killed := false, spent := [] }
          (s.uncommitted ctx c.src c.length = true → t = s) ∧
          (s.uncommitted ctx c.src c.length = false →
            (full → t.cmdRun ctx = some { r with killed := true } ∧ t.dram.windows = u.dram.windows ∧
              t.reg .SLUICE_CNT_WINWAIT 0 0 = counted (s.reg .SLUICE_CNT_WINWAIT 0 0)) ∧
            (¬ full → u.copyTurn e = none → t = u) ∧
            ∀ v, ¬ full → u.copyTurn e = some v → t.cmdRun ctx = some r ∧
              t.dram.windows = (u.dram.windows ++ if inDram then window else []) ∧
              t.reg .SLUICE_CNT_WINWAIT 0 0 = s.reg .SLUICE_CNT_WINWAIT 0 0))) ∧
      (e.kind = 4 → done = true →
        let reaches := s.reach [(c.src, c.length), (c.dst, c.length)] = true
        let read := (s.reads portSluice [(c.src, c.length)]).1
        ((¬ reaches ∨ ∀ r, s.cmdRun ctx = some r → r.killed = true ∨ r.cmd ≠ k) → t = s) ∧
        ∀ r, reaches → s.cmdRun ctx = some r → r.killed = false → r.cmd = k →
          t.cmdRun ctx = none ∧ (t.ctxRun ctx).next = some (k + 1) ∧
          (∀ st, (read = some st ∨ read = none ∧ rangeStatus s.dev.part c.dst c.length = some st) →
            t.reg .SLUICE_LAST_FAULT 0 0 = BitVec.ofNat 64 (st.toNat + 65536 * (ctx % 4096)) ∧ raised 9 s t ∧
            t.stepOf ctx = none) ∧
          (read = none → rangeStatus s.dev.part c.dst c.length = none →
            t.dram.windows = (s.dropWindows ctx k).dram.windows ∧ (t.ctxRun ctx).committed = some (k, 0) ∧
            t.slu.basins = (s.copyBytes c.src c.dst c.length).slu.basins ∧
            ((∀ y ∈ s.ing.frames, y.isRef = true) →
              t.dram.bytes = (s.copyBytes c.src c.dst c.length).dram.bytes)))))

/-! ## Sluice: steps, slices, residency -/

/-- R284 to R287, R224 to R226, R306 to R308, R69, R70: a model context that holds its clusters selects from its queue. The step
holds only queued items, at least one and at most `max_batch`, all of one version of the segment, and starts now at the
list's first command. Of an only item: one that joins is the step; a stale one is dropped and counted; a late one goes to
the fallback context, and may start a hold; one that a switch holds back stays. -/
def Obligations.StepsAndTheirItems : Prop :=
  ∀ (ctx cluster : Nat) (s : State), completes (.stepStart ctx cluster) (Comp.flows ++ Comp.lanes ++ [.ingRills,
      .reg .SLUICE_CNT_FALLBACK]) s (fun t =>
    (s.ctxEntry ctx = none → t = s) ∧
    ∀ e, s.ctxEntry ctx = some e →
      let x := s.ctxRun ctx
      let ready := e.kind = 2 ∧ x.step = none ∧ x.queue ≠ [] ∧ s.headsUnread ctx = false ∧ s.weir.coolant = .none ∧
        cluster ∈ s.needs ctx cluster ∧ ∀ n ∈ s.needs ctx cluster, s.holder n = some ctx ∧ n ∉ s.slu.heldIdle
      (¬ready → t = s) ∧
      (ready →
        (∀ st, t.stepOf ctx = some st → st.items ≠ [] ∧ st.items.length ≤ e.maxBatch ∧ st.cmd = 0 ∧ st.startNs = s.nowNs ∧
          (∀ a ∈ st.items, a ∈ x.queue ∧
            ∀ b ∈ st.items, s.oldFor ctx a.captureTs a.stamp = s.oldFor ctx b.captureTs b.stamp)) ∧
        ∀ it, x.queue = [it] → 1 ≤ e.maxBatch → e.sharded = false →
          match s.route e (s.oldFor ctx it.captureTs it.stamp) it with
          | .join => t.stepOf ctx = some (StepRun.mk cluster [it] 0 s.nowNs [] false) ∧ (t.ctxRun ctx).queue = [] ∧
            (t.ctxRun ctx).next = s.nextCluster ctx cluster
          | .drop => t.stepOf ctx = none ∧ (t.ctxRun ctx).queue = [] ∧
            (t.rill it.rill).staleDropped = min 0xFFFFFFFF ((s.rill it.rill).staleDropped + 1)
          | .away fb sw => t.stepOf ctx = none ∧
            (fb ≠ ctx → (t.ctxRun ctx).queue = [] ∧
              (t.ctxRun fb).queue = (s.ctxRun fb).queue ++ [{ it with fallback := true }]) ∧
            (t.rill it.rill).holds = (match sw with
              | some h => (s.rill it.rill).holds.filter (fun y => y.1 != ctx) ++ [(ctx, h)]
              | none => (s.rill it.rill).holds) ∧
            t.reg .SLUICE_CNT_FALLBACK 0 0 = (if sw.isSome = true then counted (s.reg .SLUICE_CNT_FALLBACK 0 0)
              else s.reg .SLUICE_CNT_FALLBACK 0 0)
          | .wait => t.stepOf ctx = none ∧ (t.ctxRun ctx).queue = [it]))

/-- R298 to R303, R145, R282: at the end of a slice a cluster's context without a rival starts another, shortened by its
overrun where that is shorter than a slice; with a rival its command is killed and counted and the cluster goes to one,
unless a shard has completed or a basin is stopped, and then it runs on. Inside a track command the overrun begins and is
counted. Another lane goes to a rival, its move being killed, or the slice starts again, or the lane is free. A cluster held
idle has no slice. -/
def Obligations.SlicesAndPreemption : Prop :=
  ∀ (lane : Lane) (s : State), completes (.sliceEnd lane) (Comp.lanes ++ [.reg .SLUICE_CNT_OVERRUN]) s (fun t =>
    let key := laneKey lane
    let ended := s.sliceOver key = true ∧ key ∉ s.slu.ended ∧ key ∉ s.slu.heldIdle
    ((s.holder key = none ∨ ¬ ended) → t = s) ∧
    ∀ c, s.holder key = some c → ended →
      let g := (s.ctxRun c).holds
      let again := fun (ls : List Nat) => changesOnly [.sluCtxs, .sluEnded, .sluSlices] s t ∧
        (t.ctxRun c).overrunNs = 0 ∧ ∀ n ∈ ls, n ∉ t.slu.ended ∧ SMap.find? t.slu.slices n =
          some (s.nowNs + s.sliceNs c - if s.skipsSlice c = true then 0 else (s.ctxRun c).overrunNs)
      let killed := fun (r : CmdRun) => { r with killed := true, gen := (r.gen + 1) % 2 ^ 32 }
      (key < 4 → (∀ n ∈ g, s.rival n c = false) → again g) ∧
      (key < 4 → (∃ n ∈ g, s.rival n c = true) →
        (s.killable c = false → t.holder key = some c ∧ t.cmdRun c = s.cmdRun c ∧
          t.reg .SLUICE_CNT_PREEMPT 0 0 = s.reg .SLUICE_CNT_PREEMPT 0 0 ∧
          ∀ r x, s.cmdRun c = some r → (∀ y ∈ r.recs, s.recLive y = true) → s.completeRec r = some x → x.cluster < 4 →
            t.reg .CL_CNT_LATEKILL x.cluster 0 = counted (s.reg .CL_CNT_LATEKILL x.cluster 0)) ∧
        (s.killable c = true →
          (s.cmdRun c = none → t.reg .SLUICE_CNT_PREEMPT 0 0 = s.reg .SLUICE_CNT_PREEMPT 0 0) ∧
          (∀ r, s.cmdRun c = some r → r.killed = true →
            t.cmdRun c = some r ∧ t.reg .SLUICE_CNT_PREEMPT 0 0 = s.reg .SLUICE_CNT_PREEMPT 0 0) ∧
          (∀ r, s.cmdRun c = some r → r.killed = false → t.cmdRun c = some (killed r) ∧
            t.reg .SLUICE_CNT_PREEMPT 0 0 = s.reg .SLUICE_CNT_PREEMPT 0 0 + 1 ∧
            ∀ n < 32, ((s.core n).st = .running ∨ (s.core n).st = .committing) → (s.core n).ctx = c →
              t.core n = if s.coreRuns n = true then (s.core n).kill else { s.core n with killed := true }) ∧
          (g = [key] → clusterPresent s.dev.part key = true → s.lastOf key = c →
            (s.ldr.image.ctxs.map (·.id)).Nodup →
            ∃ e ∈ s.ldr.image.ctxs, e.id ≠ c ∧ s.eligible key e = true ∧ t.holder key = some e.id))) ∧
      (4 ≤ key → (s.ctxEntry c = none → t.holder key = none) ∧
        ∀ e, s.ctxEntry c = some e →
          let inside := key < 64 ∧ s.laneBusy key = true
          (inside → changesOnly [.sluEnded, .reg .SLUICE_CNT_OVERRUN] s t ∧ t.slu.ended = s.slu.ended ++ [key] ∧
            t.reg .SLUICE_CNT_OVERRUN 0 0 = counted (s.reg .SLUICE_CNT_OVERRUN 0 0)) ∧
          (¬ inside → s.laneRival e key = true → key < 64 → t.holder key = none ∧ t.slu.cmds = s.slu.cmds) ∧
          (¬ inside → s.laneRival e key = true → 64 ≤ key → key ∈ g → (∀ r, s.cmdRun c = some r → r.recs = []) →
            t.holder key = none ∧ t.cmdRun c = (s.cmdRun c).map (fun r => if r.killed = true then r else killed r)) ∧
          (¬ inside → s.laneRival e key = false →
            if s.laneBusy key = true ∨ s.wantsLane e = true then again [key] else t.holder key = none)))

/-- R99, R290 to R297: a waiting context that fits on a cluster starts to move in, at basin units that its ways allow and no
resident context has, with accumulator slots and operand lines of its own; a move that ends makes it resident with its share
restored from its save area, a poisoned block as zeros and a fault to come; where all residents are blocked, the first
waiting context for which one qualifies has it evicted, its share saved (at the addresses of log 37), and moves in; each
further millisecond in which no resident context qualifies for a waiting one is counted. -/
def Obligations.ResidencyOfContexts : Prop :=
  (∀ (ctx cluster : Nat) (s : State), completes (.bringIn ctx cluster) [.sluCtxs] s (fun t =>
    (s.ctxEntry ctx = none → t = s) ∧
    ∀ e, s.ctxEntry ctx = some e →
      ((s.waitsFor e cluster = false ∨ s.weir.coolant ≠ .none ∨ s.roomFor e cluster = none) → t = s) ∧
      ∀ u b l, s.waitsFor e cluster = true → s.weir.coolant = .none → s.roomFor e cluster = some (u, b, l) →
        t.ctxRun ctx = { s.ctxRun ctx with moving := some (MoveRun.mk cluster none u b l) } ∧
        (∀ c, c ≠ ctx → t.ctxRun c = s.ctxRun c) ∧ u + e.units ≤ 256 ∧ l + e.lines ≤ 8192 ∧
        b.length = e.accTiles ∧ b.Nodup ∧ (∀ i ∈ b, i < 8) ∧
        (∀ i < e.units, s.wayOk e cluster ((u + i) / 16) = true) ∧
        ∀ y ∈ s.ldr.image.ctxs,
          (∀ v, SMap.find? (s.ctxRun y.id).place cluster = some v → y.units ≠ 0 → e.units ≠ 0 →
            u + e.units ≤ v ∨ v + y.units ≤ u) ∧
          (∀ v, SMap.find? (s.ctxRun y.id).slots cluster = some v → ∀ i ∈ b, i ∉ v) ∧
          ∀ v, SMap.find? (s.ctxRun y.id).line0 cluster = some v → y.lines ≠ 0 → e.lines ≠ 0 →
            l + e.lines ≤ v ∨ v + y.lines ≤ l)) ∧
  (∀ (ctx cluster : Nat) (s : State), completes (.bringInComplete ctx cluster) (Comp.lanes ++ Comp.dramSeen) s (fun t =>
    ((s.ctxEntry ctx = none ∨ (s.ctxRun ctx).moving = none ∨ s.weir.coolant ≠ .none) → t = s) ∧
    ∀ e m, s.ctxEntry ctx = some e → (s.ctxRun ctx).moving = some m → s.weir.coolant = .none →
      let reaches := m.cluster = cluster ∧ s.shareReach ctx cluster (e.basinKib * 16) = true
      let src := fun (k : Nat) => saveAddr s.ldr.image.saveRegions (s.saveOffset ctx cluster + 64 * k)
      let bad := fun (k : Nat) => (s.reads portSluice [(src k, 64)]).1
      (¬ reaches → t = s) ∧
      (reaches → (t.ctxRun ctx).moving = none ∧ SMap.find? (t.ctxRun ctx).place cluster = some m.place ∧
        SMap.find? (t.ctxRun ctx).slots cluster = some m.slots ∧ SMap.find? (t.ctxRun ctx).line0 cluster = some m.line ∧
        ((∀ k < e.basinKib * 16, bad k = none) → (t.ctxRun ctx).fault = (s.ctxRun ctx).fault) ∧
        ((∃ k < e.basinKib * 16, bad k ≠ none) → (t.ctxRun ctx).fault ≠ none) ∧
        (s.slu.cmds = [] → ∀ i < e.basinKib * 1024,
          Mem.read (t.basin cluster) (65536 * m.place + i) =
            if bad (i / 64) = none then s.dramByte (src (i / 64) + i % 64) else 0#8)))) ∧
  (∀ (cluster waiting : Nat) (s : State), completes (.contextEvict cluster waiting) (Comp.dramPut ++ [
      .reg .SLUICE_CNT_EVICT, .sluCtxs]) s (fun t =>
    ((s.evictFor cluster = none ∨ s.allBlocked cluster = false ∨ s.weir.coolant ≠ .none) → t = s) ∧
    ∀ w e, s.evictFor cluster = some (w, e) → s.allBlocked cluster = true → s.weir.coolant = .none →
      let may := w.id = waiting ∧ s.shareReach e.id cluster (e.basinKib * 16) = true
      (¬ may → t = s) ∧
      (may → w ∈ s.waiters cluster ∧ e ∈ s.residents cluster ∧ e.pinned = false ∧ s.quiescent e.id = true ∧
        SMap.find? (t.ctxRun e.id).place cluster = none ∧
        (∃ u b l, (s.removeFrom e.id cluster).roomFor w cluster = some (u, b, l) ∧
          (t.ctxRun waiting).moving = some (MoveRun.mk cluster (some e.id) u b l)) ∧
        t.dram.bytes = (s.saveBlocks e.id cluster (e.basinKib * 16)).dram.bytes ∧
        t.reg .SLUICE_CNT_EVICT 0 0 = counted (s.reg .SLUICE_CNT_EVICT 0 0)))) ∧
  (∀ (ctx cluster : Nat) (s : State), completes (.starvedTick ctx cluster) [.reg .SLUICE_CNT_STARVED, .sluCtxs] s (fun t =>
    ((s.ctxEntry ctx = none ∨ (s.ctxRun ctx).starvedNs = none) → t = s) ∧
    ∀ e v, s.ctxEntry ctx = some e → (s.ctxRun ctx).starvedNs = some v →
      if s.starvesOn e cluster = true ∧ s.weir.coolant = .none ∧ v + 1000000 ≤ s.nowNs then
        t.reg .SLUICE_CNT_STARVED 0 0 = counted (s.reg .SLUICE_CNT_STARVED 0 0) ∧
        t.ctxRun ctx = { s.ctxRun ctx with starvedNs := some (v + 1000000) } ∧ ∀ c, c ≠ ctx → t.ctxRun c = s.ctxRun c
      else t = s))

/-! ## Single rules -/

/-- R5: register space of an absent unit and reserved space of BAR0 read as 0, and take no write; nothing else of the state
changes, so that no error is raised. -/
def Obligations.ReservedSpaceReadsZero : Prop :=
  ∀ (off n : Nat) (s : State), s.linkAlive = true → s.memEnabled 0 = true → s.inBar 0 0 off n = true → (n = 4 ∨ n = 8) →
    off % n = 0 → (∀ k, (k = 0 ∨ k = 4 ∧ n = 8) → ∀ l, regAt (off + k) = some l →
      blockPresent s.dev.part l.row.blk l.unit = false) →
    exec (.hostMemoryRequest 0 0 off (.read n)) s =
      .next { s with out := s.out ++ [.completion 0 .ok (List.replicate n 0x00#8)] } ∧
    ∀ data ep, data.length = n → exec (.hostMemoryRequest 0 0 off (.write data ep)) s = .next s

/-- R435: the value of an anti-rollback counter is the number of its bits that read 1, from 0 to 64; a firmware image whose
signatures verify, and an image whose header is otherwise good, is accepted when its security_version is at least that. -/
def Obligations.AntiRollbackCounters : Prop :=
  (∀ v : W64, counterVal v ≤ 64 ∧ (counterVal v = 0 ↔ v = 0) ∧
    ∀ i < 64, v.getLsbD i = false → counterVal (v ||| 1#64 <<< i) = counterVal v + 1) ∧
  (∀ (s : State) (k sec : Nat) (v : Verdict), v.endorsed = true → v.signed = true →
    (s.fwVerdict k sec v = none ↔ counterVal (s.dev.fuses.fw k) ≤ sec)) ∧
  (∀ (s : State) (j : LoadJob) (swap : Bool) (v : Verdict),
    let version := s.hdrRd j.addr 0x24 4
    (s.checkHeader j (s.stageOf j swap) v = none → counterVal s.dev.fuses.arbImage ≤ version) ∧
    ((s.checkHeader j (s.stageOf j swap) v).map (·.status) = some Status.imgRollback →
      version < counterVal s.dev.fuses.arbImage))

/-- R358: the effective cap is the lower of WEIR_CAP_MW and Odrov's, one that is 0 being ignored, and at least the part's brake
floor of Table 13.2; with both 0 there is none. WEIR_CAP_EFF_MW shows it. -/
def Obligations.EffectiveCap : Prop :=
  ∀ s : State,
    let own := s.regNat .WEIR_CAP_MW 0 0
    let board := s.regNat .WEIR_CAP_ODROV_MW 0 0
    let floor := match s.dev.part with
      | .sw7360 => 35000
      | .sw7340 => 30000
      | .sw7320 => 24000
    (own = 0 → board = 0 → s.effCap = 0) ∧
    (own ≠ 0 → board = 0 → s.effCap = max own floor) ∧
    (own = 0 → board ≠ 0 → s.effCap = max board floor) ∧
    (own ≠ 0 → board ≠ 0 → s.effCap = max (min own board) floor) ∧
    ∃ l, regAt (regOff .WEIR_CAP_EFF_MW 0 0) = some l ∧ l.row.acc = .ro ∧ s.peek l = BitVec.ofNat 64 s.effCap
end

