-- ==== Sys2Proof/Laws/Mem.lean ====
section
/-! SUPPORT. Laws of sparse tables and memories: a read after a write, and the canonical form kept by every operation. -/

set_option Elab.async false

namespace Sys2Proof

variable {α : Type}

theorem SMap.get_erase (d : Nat → α) (m : SMap α) (k a : Nat) :
    SMap.get d (SMap.erase m k) a = if a = k then d a else SMap.get d m a := by
  induction m with
  | nil => simp [SMap.erase, SMap.get]
  | cons x m ih =>
    obtain ⟨b, w⟩ := x
    simp only [SMap.erase]
    split
    · simp only [ih, SMap.get]; grind
    · simp only [SMap.get, ih]; grind

theorem SMap.get_insert (d : Nat → α) (m : SMap α) (k a : Nat) (v : α) :
    SMap.get d (SMap.insert m k v) a = if a = k then v else SMap.get d m a := by
  induction m with
  | nil => simp [SMap.insert, SMap.get, eq_comm]
  | cons x m ih =>
    obtain ⟨b, w⟩ := x
    simp only [SMap.insert]
    split
    · simp [SMap.get, eq_comm]
    · split
      · simp only [SMap.get]; grind
      · simp only [SMap.get, ih]; grind

/-- The keys above `k`: the shape in which the canonical form is proved by induction. -/
theorem SMap.wf_cons [DecidableEq α] {d : Nat → α} {x : Nat × α} {m : SMap α} :
    SMap.wf d (x :: m) = true ↔ (∀ y ∈ m, x.1 < y.1) ∧ x.2 ≠ d x.1 ∧ SMap.wf d m = true := by
  simp only [SMap.wf, List.pairwise_cons, List.all_cons, Bool.and_eq_true, decide_eq_true_eq]
  tauto

@[simp] theorem SMap.wf_nil [DecidableEq α] (d : Nat → α) : SMap.wf d ([] : SMap α) = true := by simp [SMap.wf]

theorem SMap.mem_erase {m : SMap α} {k : Nat} {y : Nat × α} (h : y ∈ SMap.erase m k) : y ∈ m := by
  induction m with
  | nil => simp [SMap.erase] at h
  | cons x m ih =>
    simp only [SMap.erase] at h
    split at h
    · exact List.mem_cons_of_mem _ (ih h)
    · rcases List.mem_cons.1 h with h | h
      · simp [h]
      · exact List.mem_cons_of_mem _ (ih h)

theorem SMap.mem_insert {m : SMap α} {k : Nat} {v : α} {y : Nat × α} (h : y ∈ SMap.insert m k v) :
    y = (k, v) ∨ y ∈ m := by
  induction m with
  | nil => simpa [SMap.insert] using h
  | cons x m ih =>
    simp only [SMap.insert] at h
    split at h
    · simpa using h
    · split at h
      · rcases List.mem_cons.1 h with h | h
        · exact .inl h
        · exact .inr (List.mem_cons_of_mem _ h)
      · rcases List.mem_cons.1 h with h | h
        · exact .inr (by simp [h])
        · rcases ih h with h | h
          · exact .inl h
          · exact .inr (List.mem_cons_of_mem _ h)

theorem SMap.wf_erase [DecidableEq α] {d : Nat → α} {m : SMap α} (k : Nat) (h : SMap.wf d m = true) :
    SMap.wf d (SMap.erase m k) = true := by
  induction m with
  | nil => exact h
  | cons x m ih =>
    obtain ⟨h1, h2, h3⟩ := SMap.wf_cons.1 h
    simp only [SMap.erase]
    split
    · exact ih h3
    · exact SMap.wf_cons.2 ⟨fun y hy => h1 y (SMap.mem_erase hy), h2, ih h3⟩

theorem SMap.wf_insert [DecidableEq α] {d : Nat → α} {m : SMap α} {k : Nat} {v : α} (hv : v ≠ d k)
    (h : SMap.wf d m = true) : SMap.wf d (SMap.insert m k v) = true := by
  induction m with
  | nil => exact SMap.wf_cons.2 ⟨by simp, hv, h⟩
  | cons x m ih =>
    obtain ⟨h1, h2, h3⟩ := SMap.wf_cons.1 h
    simp only [SMap.insert]
    split
    next hk =>
      refine SMap.wf_cons.2 ⟨?_, hv, h⟩
      intro y hy
      rcases List.mem_cons.1 hy with rfl | hy
      · exact hk
      · exact Nat.lt_trans hk (h1 y hy)
    next hk =>
      split
      next he => exact SMap.wf_cons.2 ⟨by simpa [he] using h1, hv, h3⟩
      next he =>
        refine SMap.wf_cons.2 ⟨?_, h2, ih h3⟩
        intro y hy
        rcases SMap.mem_insert hy with rfl | hy
        · exact Nat.lt_of_le_of_ne (Nat.le_of_not_lt hk) (fun e => he e.symm)
        · exact h1 y hy

/-- A write keeps the canonical form. -/
theorem SMap.wf_set [DecidableEq α] {d : Nat → α} {m : SMap α} (k : Nat) (v : α) (h : SMap.wf d m = true) :
    SMap.wf d (SMap.set d m k v) = true := by
  unfold SMap.set
  split
  · exact SMap.wf_erase k h
  next hv => exact SMap.wf_insert hv h

theorem SMap.wf_filter [DecidableEq α] {d : Nat → α} {m : SMap α} (p : Nat × α → Bool) (h : SMap.wf d m = true) :
    SMap.wf d (m.filter p) = true := by
  induction m with
  | nil => exact h
  | cons x m ih =>
    obtain ⟨h1, h2, h3⟩ := SMap.wf_cons.1 h
    simp only [List.filter_cons]
    split
    · exact SMap.wf_cons.2 ⟨fun y hy => h1 y (List.mem_of_mem_filter hy), h2, ih h3⟩
    · exact ih h3

/-- Keeping some of the keys keeps the canonical form. -/
theorem SMap.wf_keep [DecidableEq α] {d : Nat → α} {m : SMap α} (p : Nat → Bool) (h : SMap.wf d m = true) :
    SMap.wf d (SMap.keep m p) = true := SMap.wf_filter _ h

/-- A read after a write of a table: the value written at its key, every other key as before. -/
theorem SMap.get_set [DecidableEq α] (d : Nat → α) (m : SMap α) (k a : Nat) (v : α) :
    SMap.get d (SMap.set d m k v) a = if a = k then v else SMap.get d m a := by
  unfold SMap.set
  split
  next hv =>
    rw [SMap.get_erase]
    split
    next e => rw [e, hv]
    · rfl
  · exact SMap.get_insert d m k a v

@[simp] theorem SMap.get_set_self [DecidableEq α] (d : Nat → α) (m : SMap α) (k : Nat) (v : α) :
    SMap.get d (SMap.set d m k v) k = v := by rw [SMap.get_set, if_pos rfl]

/-- A write leaves every other key alone. -/
theorem SMap.get_set_ne [DecidableEq α] (d : Nat → α) (m : SMap α) {k a : Nat} (v : α) (h : a ≠ k) :
    SMap.get d (SMap.set d m k v) a = SMap.get d m a := by rw [SMap.get_set, if_neg h]

theorem SMap.find?_insert (m : SMap α) (k a : Nat) (v : α) :
    SMap.find? (SMap.insert m k v) a = if a = k then some v else SMap.find? m a := by
  induction m with
  | nil => simp [SMap.insert, SMap.find?, eq_comm]
  | cons x m ih =>
    obtain ⟨b, w⟩ := x
    simp only [SMap.insert]
    split
    · simp [SMap.find?, eq_comm]
    · split
      · simp only [SMap.find?]; grind
      · simp only [SMap.find?, ih]; grind

theorem SMap.find?_erase (m : SMap α) (k a : Nat) :
    SMap.find? (SMap.erase m k) a = if a = k then none else SMap.find? m a := by
  induction m with
  | nil => simp [SMap.erase, SMap.find?]
  | cons x m ih =>
    obtain ⟨b, w⟩ := x
    simp only [SMap.erase]
    split
    · simp only [ih, SMap.find?]; grind
    · simp only [SMap.find?, ih]; grind

/-! ## Memories -/

theorem Mem.wf_write {m : Mem} (a : Nat) (v : Byte) (h : Mem.wf m = true) : Mem.wf (Mem.write m a v) = true :=
  SMap.wf_set a v h

theorem Mem.wf_writeList (m : Mem) (a : Nat) (bs : List Byte) (h : Mem.wf m = true) :
    Mem.wf (Mem.writeList m a bs) = true := by
  induction bs generalizing m a with
  | nil => exact h
  | cons b bs ih => exact ih _ _ (Mem.wf_write a b h)

@[simp] theorem Mem.wf_nil : Mem.wf [] = true := by decide

theorem Mem.read_write_ne (m : Mem) {a b : Nat} (v : Byte) (h : b ≠ a) :
    Mem.read (Mem.write m a v) b = Mem.read m b := SMap.get_set_ne _ m v h

theorem Mem.read_write_self (m : Mem) (a : Nat) (v : Byte) : Mem.read (Mem.write m a v) a = v :=
  SMap.get_set_self _ m a v

/-- Bytes outside those written read as before. -/
theorem Mem.read_writeList_ne (m : Mem) (a : Nat) (bs : List Byte) {b : Nat} (h : b < a ∨ a + bs.length ≤ b) :
    Mem.read (Mem.writeList m a bs) b = Mem.read m b := by
  induction bs generalizing m a with
  | nil => rfl
  | cons x bs ih =>
    simp only [List.length_cons] at h
    rw [Mem.writeList, ih _ _ (by omega), Mem.read_write_ne _ _ (by omega)]

/-- The bytes written read back. -/
theorem Mem.read_writeList (m : Mem) (a : Nat) (bs : List Byte) {i : Nat} (hi : i < bs.length) :
    Mem.read (Mem.writeList m a bs) (a + i) = bs[i] := by
  induction bs generalizing m a i with
  | nil => simp at hi
  | cons x bs ih =>
    cases i with
    | zero =>
      rw [Mem.writeList, Mem.read_writeList_ne _ _ _ (by omega)]
      exact Mem.read_write_self m a x
    | succ i =>
      have := ih (Mem.write m a x) (a + 1) (i := i) (by simpa using hi)
      simpa [Mem.writeList, Nat.add_assoc, Nat.add_comm 1 i] using this

theorem Mem.readList_length (m : Mem) (a n : Nat) : (Mem.readList m a n).length = n := by
  induction n generalizing a with
  | zero => rfl
  | succ n ih => simp [Mem.readList, ih]

end Sys2Proof
end

