-- ==== Sys2Proof/Laws/Keeps.lean ====
section
/-! SUPPORT. What every command keeps, and what it changes. `Keeps cs u s` relates the state `u` before a command to a state
`s` reached within it: the queue, the messages already sent, the part, the fuses but for bits that are programmed, and the
canonical form of the memories are kept, and only components of `cs` have changed. Each function of the model has one lemma
that carries it on. -/

set_option Elab.async false

namespace Sys2Proof.Machine

theorem fuseKept_refl (a : W64) : fuseKept a a = true := by simp [fuseKept]

theorem fuseKept_trans {a b c : W64} (h : fuseKept a b = true) (g : fuseKept b c = true) : fuseKept a c = true := by
  simp only [fuseKept, beq_iff_eq] at *
  rw [← h, BitVec.and_assoc, g]

theorem Fuses.growsTo_refl (a : Fuses) : a.growsTo a :=
  ⟨rfl, rfl, fuseKept_refl _, fun _ => fuseKept_refl _⟩

theorem Fuses.growsTo_trans {a b c : Fuses} (h : a.growsTo b) (g : b.growsTo c) : a.growsTo c :=
  ⟨h.1.trans g.1, h.2.1.trans g.2.1, fuseKept_trans h.2.2.1 g.2.2.1,
    fun k => fuseKept_trans (h.2.2.2 k) (g.2.2.2 k)⟩

/-- The parts of `State.memWf`, over the fields that they speak of. -/
structure MemOk (d : Dev) (r : SMap W64) (m : Dram) (c : Sluice) : Prop where
  bytes : Mem.wf m.bytes = true
  poison : SMap.wf (fun _ => false) m.poison = true
  regs : SMap.wf regDefault r = true
  basins : SMap.wf (fun _ => []) c.basins = true
  basin : ∀ x ∈ c.basins, Mem.wf x.2 = true
  flash : Mem.wf d.flash.bytes = true

theorem State.memWf_iff (s : State) : s.memWf = true ↔ MemOk s.dev s.regs s.dram s.slu := by
  simp only [State.memWf, Bool.and_eq_true, List.all_eq_true]
  constructor
  · rintro ⟨⟨⟨⟨⟨h1, h2⟩, h3⟩, h4⟩, h5⟩, h6⟩
    exact ⟨h1, h2, h3, h4, h5, h6⟩
  · rintro ⟨h1, h2, h3, h4, h5, h6⟩
    exact ⟨⟨⟨⟨⟨h1, h2⟩, h3⟩, h4⟩, h5⟩, h6⟩

theorem keptTrans {p : Prop} {α : Type} {x y z : α} (h : p ∨ y = x) (g : p ∨ z = y) : p ∨ z = x :=
  h.elim .inl (fun e => g.elim .inl (fun f => .inr (f.trans e)))

/-! ## Components -/

/-- What is kept of `State.dev`. -/
structure DevKept (cs : Comp → Prop) (x y : Dev) : Prop where
  part : cs .devPart ∨ y.part = x.part
  life : cs .devLife ∨ y.life = x.life
  recovery : cs .devRecovery ∨ y.recovery = x.recovery
  rails : cs .devRails ∨ y.rails = x.rails
  pins : cs .devPins ∨ y.pins = x.pins
  link : cs .devLink ∨ y.link = x.link
  role : cs .devRole ∨ y.role = x.role
  hardStopRec : cs .devHardStopRec ∨ y.hardStopRec = x.hardStopRec
  dramMode : cs .devDramMode ∨ y.dramMode = x.dramMode
  aoNs : cs .devAoNs ∨ y.aoNs = x.aoNs
  fuses : cs .devFuses ∨ y.fuses = x.fuses
  flash : cs .devFlash ∨ y.flash = x.flash
  ucode : cs .devUcode ∨ y.ucode = x.ucode

theorem DevKept.refl {cs : Comp → Prop} (x : Dev) : DevKept cs x x :=
  ⟨.inr rfl, .inr rfl, .inr rfl, .inr rfl, .inr rfl, .inr rfl, .inr rfl, .inr rfl, .inr rfl, .inr rfl, .inr rfl,
   .inr rfl, .inr rfl⟩

theorem DevKept.trans {cs : Comp → Prop} {x y z : Dev} (h : DevKept cs x y) (g : DevKept cs y z) :
    DevKept cs x z :=
  ⟨keptTrans h.part g.part, keptTrans h.life g.life, keptTrans h.recovery g.recovery, keptTrans h.rails g.rails,
   keptTrans h.pins g.pins, keptTrans h.link g.link, keptTrans h.role g.role,
   keptTrans h.hardStopRec g.hardStopRec, keptTrans h.dramMode g.dramMode, keptTrans h.aoNs g.aoNs,
   keptTrans h.fuses g.fuses, keptTrans h.flash g.flash, keptTrans h.ucode g.ucode⟩

theorem DevKept.of {cs : Comp → Prop} {x y : Dev} (h : x = y) : DevKept cs x y := h ▸ .refl x

/-- What is kept of `State.ldr`. -/
structure LdrKept (cs : Comp → Prop) (x y : Loader) : Prop where
  state : cs .ldrState ∨ y.state = x.state
  placing : cs .ldrPlacing ∨ y.placing = x.placing
  locked : cs .ldrLocked ∨ y.locked = x.locked
  deterministic : cs .ldrDeterministic ∨ y.deterministic = x.deterministic
  load : cs .ldrLoad ∨ y.load = x.load
  swap : cs .ldrSwap ∨ y.swap = x.swap
  swapCount : cs .ldrSwapCount ∨ y.swapCount = x.swapCount
  status : cs .ldrStatus ∨ y.status = x.status
  failSection : cs .ldrFailSection ∨ y.failSection = x.failSection
  failEntry : cs .ldrFailEntry ∨ y.failEntry = x.failEntry
  failNeed : cs .ldrFailNeed ∨ y.failNeed = x.failNeed
  failHave : cs .ldrFailHave ∨ y.failHave = x.failHave
  image : cs .ldrImage ∨ y.image = x.image
  segs : cs .ldrSegs ∨ y.segs = x.segs
  lastStamp : cs .ldrLastStamp ∨ y.lastStamp = x.lastStamp
  signed : cs .ldrSigned ∨ y.signed = x.signed
  chain : cs .ldrChain ∨ y.chain = x.chain

theorem LdrKept.refl {cs : Comp → Prop} (x : Loader) : LdrKept cs x x :=
  ⟨.inr rfl, .inr rfl, .inr rfl, .inr rfl, .inr rfl, .inr rfl, .inr rfl, .inr rfl, .inr rfl, .inr rfl, .inr rfl,
   .inr rfl, .inr rfl, .inr rfl, .inr rfl, .inr rfl, .inr rfl⟩

theorem LdrKept.trans {cs : Comp → Prop} {x y z : Loader} (h : LdrKept cs x y) (g : LdrKept cs y z) :
    LdrKept cs x z :=
  ⟨keptTrans h.state g.state, keptTrans h.placing g.placing, keptTrans h.locked g.locked,
   keptTrans h.deterministic g.deterministic, keptTrans h.load g.load, keptTrans h.swap g.swap,
   keptTrans h.swapCount g.swapCount, keptTrans h.status g.status, keptTrans h.failSection g.failSection,
   keptTrans h.failEntry g.failEntry, keptTrans h.failNeed g.failNeed, keptTrans h.failHave g.failHave,
   keptTrans h.image g.image, keptTrans h.segs g.segs, keptTrans h.lastStamp g.lastStamp,
   keptTrans h.signed g.signed, keptTrans h.chain g.chain⟩

theorem LdrKept.of {cs : Comp → Prop} {x y : Loader} (h : x = y) : LdrKept cs x y := h ▸ .refl x

/-- What is kept of `State.dram`. -/
structure DramKept (cs : Comp → Prop) (x y : Dram) : Prop where
  bytes : cs .dramBytes ∨ y.bytes = x.bytes
  poison : cs .dramPoison ∨ y.poison = x.poison
  frameMap : cs .dramFrameMap ∨ y.frameMap = x.frameMap
  windows : cs .dramWindows ∨ y.windows = x.windows
  dmcs : cs .dramDmcs ∨ y.dmcs = x.dmcs
  finds : cs .dramFinds ∨ y.finds = x.finds
  held : cs .dramHeld ∨ y.held = x.held

theorem DramKept.refl {cs : Comp → Prop} (x : Dram) : DramKept cs x x :=
  ⟨.inr rfl, .inr rfl, .inr rfl, .inr rfl, .inr rfl, .inr rfl, .inr rfl⟩

theorem DramKept.trans {cs : Comp → Prop} {x y z : Dram} (h : DramKept cs x y) (g : DramKept cs y z) :
    DramKept cs x z :=
  ⟨keptTrans h.bytes g.bytes, keptTrans h.poison g.poison, keptTrans h.frameMap g.frameMap,
   keptTrans h.windows g.windows, keptTrans h.dmcs g.dmcs, keptTrans h.finds g.finds, keptTrans h.held g.held⟩

theorem DramKept.of {cs : Comp → Prop} {x y : Dram} (h : x = y) : DramKept cs x y := h ▸ .refl x

/-- What is kept of `State.ing`. -/
structure IngKept (cs : Comp → Prop) (x y : Ingest) : Prop where
  rills : cs .ingRills ∨ y.rills = x.rills
  scanPending : cs .ingScanPending ∨ y.scanPending = x.scanPending
  evt : cs .ingEvt ∨ y.evt = x.evt
  ctxs : cs .ingCtxs ∨ y.ctxs = x.ctxs
  engines : cs .ingEngines ∨ y.engines = x.engines
  frames : cs .ingFrames ∨ y.frames = x.frames

theorem IngKept.refl {cs : Comp → Prop} (x : Ingest) : IngKept cs x x :=
  ⟨.inr rfl, .inr rfl, .inr rfl, .inr rfl, .inr rfl, .inr rfl⟩

theorem IngKept.trans {cs : Comp → Prop} {x y z : Ingest} (h : IngKept cs x y) (g : IngKept cs y z) :
    IngKept cs x z :=
  ⟨keptTrans h.rills g.rills, keptTrans h.scanPending g.scanPending, keptTrans h.evt g.evt,
   keptTrans h.ctxs g.ctxs, keptTrans h.engines g.engines, keptTrans h.frames g.frames⟩

theorem IngKept.of {cs : Comp → Prop} {x y : Ingest} (h : x = y) : IngKept cs x y := h ▸ .refl x

/-- What is kept of `State.trk`. -/
structure TrkKept (cs : Comp → Prop) (x y : TrackEng) : Prop where
  pxes : cs .trkPxes ∨ y.pxes = x.pxes
  lastPxe : cs .trkLastPxe ∨ y.lastPxe = x.lastPxe
  crops : cs .trkCrops ∨ y.crops = x.crops
  embq : cs .trkEmbq ∨ y.embq = x.embq
  tracks : cs .trkTracks ∨ y.tracks = x.tracks
  perRill : cs .trkPerRill ∨ y.perRill = x.perRill
  flows : cs .trkFlows ∨ y.flows = x.flows
  rings : cs .trkRings ∨ y.rings = x.rings
  storePeak : cs .trkStorePeak ∨ y.storePeak = x.storePeak
  cache : cs .trkCache ∨ y.cache = x.cache

theorem TrkKept.refl {cs : Comp → Prop} (x : TrackEng) : TrkKept cs x x :=
  ⟨.inr rfl, .inr rfl, .inr rfl, .inr rfl, .inr rfl, .inr rfl, .inr rfl, .inr rfl, .inr rfl, .inr rfl⟩

theorem TrkKept.trans {cs : Comp → Prop} {x y z : TrackEng} (h : TrkKept cs x y) (g : TrkKept cs y z) :
    TrkKept cs x z :=
  ⟨keptTrans h.pxes g.pxes, keptTrans h.lastPxe g.lastPxe, keptTrans h.crops g.crops, keptTrans h.embq g.embq,
   keptTrans h.tracks g.tracks, keptTrans h.perRill g.perRill, keptTrans h.flows g.flows,
   keptTrans h.rings g.rings, keptTrans h.storePeak g.storePeak, keptTrans h.cache g.cache⟩

theorem TrkKept.of {cs : Comp → Prop} {x y : TrackEng} (h : x = y) : TrkKept cs x y := h ▸ .refl x

/-- What is kept of `State.slu`. -/
structure SluKept (cs : Comp → Prop) (x y : Sluice) : Prop where
  ctxs : cs .sluCtxs ∨ y.ctxs = x.ctxs
  cmds : cs .sluCmds ∨ y.cmds = x.cmds
  cores : cs .sluCores ∨ y.cores = x.cores
  basins : cs .sluBasins ∨ y.basins = x.basins
  holder : cs .sluHolder ∨ y.holder = x.holder
  heldIdle : cs .sluHeldIdle ∨ y.heldIdle = x.heldIdle
  lastHeld : cs .sluLastHeld ∨ y.lastHeld = x.lastHeld
  slices : cs .sluSlices ∨ y.slices = x.slices
  ended : cs .sluEnded ∨ y.ended = x.ended
  groups : cs .sluGroups ∨ y.groups = x.groups

theorem SluKept.refl {cs : Comp → Prop} (x : Sluice) : SluKept cs x x :=
  ⟨.inr rfl, .inr rfl, .inr rfl, .inr rfl, .inr rfl, .inr rfl, .inr rfl, .inr rfl, .inr rfl, .inr rfl⟩

theorem SluKept.trans {cs : Comp → Prop} {x y z : Sluice} (h : SluKept cs x y) (g : SluKept cs y z) :
    SluKept cs x z :=
  ⟨keptTrans h.ctxs g.ctxs, keptTrans h.cmds g.cmds, keptTrans h.cores g.cores, keptTrans h.basins g.basins,
   keptTrans h.holder g.holder, keptTrans h.heldIdle g.heldIdle, keptTrans h.lastHeld g.lastHeld,
   keptTrans h.slices g.slices, keptTrans h.ended g.ended, keptTrans h.groups g.groups⟩

theorem SluKept.of {cs : Comp → Prop} {x y : Sluice} (h : x = y) : SluKept cs x y := h ▸ .refl x

/-- What is kept of `State.weir`. -/
structure WeirKept (cs : Comp → Prop) (x y : Weir) : Prop where
  cls : cs .weirCls ∨ y.cls = x.cls
  railMv : cs .weirRailMv ∨ y.railMv = x.railMv
  sprint : cs .weirSprint ∨ y.sprint = x.sprint
  duty : cs .weirDuty ∨ y.duty = x.duty
  powerMw : cs .weirPowerMw ∨ y.powerMw = x.powerMw
  sampleMw : cs .weirSampleMw ∨ y.sampleMw = x.sampleMw
  lastMissNs : cs .weirLastMissNs ∨ y.lastMissNs = x.lastMissNs
  coolant : cs .weirCoolant ∨ y.coolant = x.coolant
  flowReleasedNs : cs .weirFlowReleasedNs ∨ y.flowReleasedNs = x.flowReleasedNs
  coolantNs : cs .weirCoolantNs ∨ y.coolantNs = x.coolantNs
  brake : cs .weirBrake ∨ y.brake = x.brake
  restart : cs .weirRestart ∨ y.restart = x.restart
  live : cs .weirLive ∨ y.live = x.live
  waking : cs .weirWaking ∨ y.waking = x.waking
  thermal : cs .weirThermal ∨ y.thermal = x.thermal
  switched : cs .weirSwitched ∨ y.switched = x.switched

theorem WeirKept.refl {cs : Comp → Prop} (x : Weir) : WeirKept cs x x :=
  ⟨.inr rfl, .inr rfl, .inr rfl, .inr rfl, .inr rfl, .inr rfl, .inr rfl, .inr rfl, .inr rfl, .inr rfl, .inr rfl,
   .inr rfl, .inr rfl, .inr rfl, .inr rfl, .inr rfl⟩

theorem WeirKept.trans {cs : Comp → Prop} {x y z : Weir} (h : WeirKept cs x y) (g : WeirKept cs y z) :
    WeirKept cs x z :=
  ⟨keptTrans h.cls g.cls, keptTrans h.railMv g.railMv, keptTrans h.sprint g.sprint, keptTrans h.duty g.duty,
   keptTrans h.powerMw g.powerMw, keptTrans h.sampleMw g.sampleMw, keptTrans h.lastMissNs g.lastMissNs,
   keptTrans h.coolant g.coolant, keptTrans h.flowReleasedNs g.flowReleasedNs, keptTrans h.coolantNs g.coolantNs,
   keptTrans h.brake g.brake, keptTrans h.restart g.restart, keptTrans h.live g.live, keptTrans h.waking g.waking,
   keptTrans h.thermal g.thermal, keptTrans h.switched g.switched⟩

theorem WeirKept.of {cs : Comp → Prop} {x y : Weir} (h : x = y) : WeirKept cs x y := h ▸ .refl x

/-- What is kept of `State.icu`. -/
structure IcuKept (cs : Comp → Prop) (x y : Icu) : Prop where
  pend : cs .icuPend ∨ y.pend = x.pend
  cond : cs .icuCond ∨ y.cond = x.cond
  delivered : cs .icuDelivered ∨ y.delivered = x.delivered
  timers : cs .icuTimers ∨ y.timers = x.timers
  log : cs .icuLog ∨ y.log = x.log
  logHead : cs .icuLogHead ∨ y.logHead = x.logHead

theorem IcuKept.refl {cs : Comp → Prop} (x : Icu) : IcuKept cs x x :=
  ⟨.inr rfl, .inr rfl, .inr rfl, .inr rfl, .inr rfl, .inr rfl⟩

theorem IcuKept.trans {cs : Comp → Prop} {x y z : Icu} (h : IcuKept cs x y) (g : IcuKept cs y z) :
    IcuKept cs x z :=
  ⟨keptTrans h.pend g.pend, keptTrans h.cond g.cond, keptTrans h.delivered g.delivered,
   keptTrans h.timers g.timers, keptTrans h.log g.log, keptTrans h.logHead g.logHead⟩

theorem IcuKept.of {cs : Comp → Prop} {x y : Icu} (h : x = y) : IcuKept cs x y := h ▸ .refl x

/-- What is kept of `State.thy`. -/
structure ThyKept (cs : Comp → Prop) (x y : Thyme) : Prop where
  now : cs .thyNow ∨ y.now = x.now
  lock : cs .thyLock ∨ y.lock = x.lock
  prev : cs .thyPrev ∨ y.prev = x.prev
  good : cs .thyGood ∨ y.good = x.good
  trimPpb : cs .thyTrimPpb ∨ y.trimPpb = x.trimPpb
  offset : cs .thyOffset ∨ y.offset = x.offset
  snapBusy : cs .thySnapBusy ∨ y.snapBusy = x.snapBusy
  snapRetained : cs .thySnapRetained ∨ y.snapRetained = x.snapRetained
  snapCause : cs .thySnapCause ∨ y.snapCause = x.snapCause

theorem ThyKept.refl {cs : Comp → Prop} (x : Thyme) : ThyKept cs x x :=
  ⟨.inr rfl, .inr rfl, .inr rfl, .inr rfl, .inr rfl, .inr rfl, .inr rfl, .inr rfl, .inr rfl⟩

theorem ThyKept.trans {cs : Comp → Prop} {x y z : Thyme} (h : ThyKept cs x y) (g : ThyKept cs y z) :
    ThyKept cs x z :=
  ⟨keptTrans h.now g.now, keptTrans h.lock g.lock, keptTrans h.prev g.prev, keptTrans h.good g.good,
   keptTrans h.trimPpb g.trimPpb, keptTrans h.offset g.offset, keptTrans h.snapBusy g.snapBusy,
   keptTrans h.snapRetained g.snapRetained, keptTrans h.snapCause g.snapCause⟩

theorem ThyKept.of {cs : Comp → Prop} {x y : Thyme} (h : x = y) : ThyKept cs x y := h ▸ .refl x

/-- What is kept of `State.sage`. -/
structure SageKept (cs : Comp → Prop) (x y : Sage) : Prop where
  keys : cs .sageKeys ∨ y.keys = x.keys
  mbox : cs .sageMbox ∨ y.mbox = x.mbox
  pendingSwitch : cs .sagePendingSwitch ∨ y.pendingSwitch = x.pendingSwitch
  switched : cs .sageSwitched ∨ y.switched = x.switched
  doeConn : cs .sageDoeConn ∨ y.doeConn = x.doeConn
  mctpConn : cs .sageMctpConn ∨ y.mctpConn = x.mctpConn
  eidSmb : cs .sageEidSmb ∨ y.eidSmb = x.eidSmb
  eidVdm : cs .sageEidVdm ∨ y.eidVdm = x.eidVdm

theorem SageKept.refl {cs : Comp → Prop} (x : Sage) : SageKept cs x x :=
  ⟨.inr rfl, .inr rfl, .inr rfl, .inr rfl, .inr rfl, .inr rfl, .inr rfl, .inr rfl⟩

theorem SageKept.trans {cs : Comp → Prop} {x y z : Sage} (h : SageKept cs x y) (g : SageKept cs y z) :
    SageKept cs x z :=
  ⟨keptTrans h.keys g.keys, keptTrans h.mbox g.mbox, keptTrans h.pendingSwitch g.pendingSwitch,
   keptTrans h.switched g.switched, keptTrans h.doeConn g.doeConn, keptTrans h.mctpConn g.mctpConn,
   keptTrans h.eidSmb g.eidSmb, keptTrans h.eidVdm g.eidVdm⟩

theorem SageKept.of {cs : Comp → Prop} {x y : Sage} (h : x = y) : SageKept cs x y := h ▸ .refl x

/-- What is kept of the registers. -/
def RegsKept (cs : Comp → Prop) (x y : SMap W64) : Prop :=
  ∀ off, cs .regs ∨ (∃ r u i, cs (.reg r) ∧ regOk r u i = true ∧ off = regOff r u i) ∨
    SMap.get regDefault y off = SMap.get regDefault x off

theorem RegsKept.refl {cs : Comp → Prop} (x : SMap W64) : RegsKept cs x x := fun _ => .inr (.inr rfl)

theorem RegsKept.trans {cs : Comp → Prop} {x y z : SMap W64} (h : RegsKept cs x y) (g : RegsKept cs y z) :
    RegsKept cs x z := fun o => by
  rcases g o with a | a | a
  · exact .inl a
  · exact .inr (.inl a)
  · rcases h o with b | b | b
    · exact .inl b
    · exact .inr (.inl b)
    · exact .inr (.inr (a.trans b))

/-- What a command keeps, from the state `u` to the state `s`. -/
structure Keeps (cs : Comp → Prop) (u s : State) : Prop where
  pending : s.pending = u.pending
  sent : u.out <+: s.out
  part : s.dev.part = u.dev.part
  fuses : u.dev.fuses.growsTo s.dev.fuses
  mem : MemOk u.dev u.regs u.dram u.slu → MemOk s.dev s.regs s.dram s.slu
  out : cs .out ∨ s.out = u.out
  freeIdx : cs .freeIdx ∨ s.freeIdx = u.freeIdx
  fns : cs .fns ∨ s.fns = u.fns
  pools : cs .pools ∨ s.pools = u.pools
  regs : RegsKept cs u.regs s.regs
  dev : DevKept cs u.dev s.dev
  ldr : LdrKept cs u.ldr s.ldr
  dram : DramKept cs u.dram s.dram
  ing : IngKept cs u.ing s.ing
  trk : TrkKept cs u.trk s.trk
  slu : SluKept cs u.slu s.slu
  weir : WeirKept cs u.weir s.weir
  icu : IcuKept cs u.icu s.icu
  thy : ThyKept cs u.thy s.thy
  sage : SageKept cs u.sage s.sage

theorem Keeps.refl {cs : Comp → Prop} (s : State) : Keeps cs s s :=
  ⟨rfl, List.prefix_refl _, rfl, Fuses.growsTo_refl _, id, .inr rfl, .inr rfl, .inr rfl, .inr rfl, .refl _,
    .refl _, .refl _, .refl _, .refl _, .refl _, .refl _, .refl _, .refl _, .refl _, .refl _⟩

theorem Keeps.trans {cs : Comp → Prop} {u s t : State} (h : Keeps cs u s) (g : Keeps cs s t) : Keeps cs u t where
  pending := g.pending.trans h.pending
  sent := h.sent.trans g.sent
  part := g.part.trans h.part
  fuses := Fuses.growsTo_trans h.fuses g.fuses
  mem m := g.mem (h.mem m)
  fns := keptTrans h.fns g.fns
  pools := keptTrans h.pools g.pools
  freeIdx := keptTrans h.freeIdx g.freeIdx
  out := keptTrans h.out g.out
  regs := h.regs.trans g.regs
  dev := h.dev.trans g.dev
  ldr := h.ldr.trans g.ldr
  dram := h.dram.trans g.dram
  ing := h.ing.trans g.ing
  trk := h.trk.trans g.trk
  slu := h.slu.trans g.slu
  weir := h.weir.trans g.weir
  icu := h.icu.trans g.icu
  thy := h.thy.trans g.thy
  sage := h.sage.trans g.sage

/-- `Keeps` says what `changesOnly` says. -/
theorem Keeps.changesOnly {cs : List Comp} {s t : State} (h : Keeps (fun c => c ∈ cs) s t) : changesOnly cs s t := by
  refine ⟨fun c hc => ?_, h.regs⟩
  cases c with
  | pending => exact h.pending
  | out => exact h.out.resolve_left hc
  | freeIdx => exact h.freeIdx.resolve_left hc
  | devPart => exact h.dev.part.resolve_left hc
  | devLife => exact h.dev.life.resolve_left hc
  | devRecovery => exact h.dev.recovery.resolve_left hc
  | devRails => exact h.dev.rails.resolve_left hc
  | devPins => exact h.dev.pins.resolve_left hc
  | devLink => exact h.dev.link.resolve_left hc
  | devRole => exact h.dev.role.resolve_left hc
  | devHardStopRec => exact h.dev.hardStopRec.resolve_left hc
  | devDramMode => exact h.dev.dramMode.resolve_left hc
  | devAoNs => exact h.dev.aoNs.resolve_left hc
  | devFuses => exact h.dev.fuses.resolve_left hc
  | devFlash => exact h.dev.flash.resolve_left hc
  | devUcode => exact h.dev.ucode.resolve_left hc
  | fns => exact h.fns.resolve_left hc
  | ldrState => exact h.ldr.state.resolve_left hc
  | ldrPlacing => exact h.ldr.placing.resolve_left hc
  | ldrLocked => exact h.ldr.locked.resolve_left hc
  | ldrDeterministic => exact h.ldr.deterministic.resolve_left hc
  | ldrLoad => exact h.ldr.load.resolve_left hc
  | ldrSwap => exact h.ldr.swap.resolve_left hc
  | ldrSwapCount => exact h.ldr.swapCount.resolve_left hc
  | ldrStatus => exact h.ldr.status.resolve_left hc
  | ldrFailSection => exact h.ldr.failSection.resolve_left hc
  | ldrFailEntry => exact h.ldr.failEntry.resolve_left hc
  | ldrFailNeed => exact h.ldr.failNeed.resolve_left hc
  | ldrFailHave => exact h.ldr.failHave.resolve_left hc
  | ldrImage => exact h.ldr.image.resolve_left hc
  | ldrSegs => exact h.ldr.segs.resolve_left hc
  | ldrLastStamp => exact h.ldr.lastStamp.resolve_left hc
  | ldrSigned => exact h.ldr.signed.resolve_left hc
  | ldrChain => exact h.ldr.chain.resolve_left hc
  | dramBytes => exact h.dram.bytes.resolve_left hc
  | dramPoison => exact h.dram.poison.resolve_left hc
  | dramFrameMap => exact h.dram.frameMap.resolve_left hc
  | dramWindows => exact h.dram.windows.resolve_left hc
  | dramDmcs => exact h.dram.dmcs.resolve_left hc
  | dramFinds => exact h.dram.finds.resolve_left hc
  | dramHeld => exact h.dram.held.resolve_left hc
  | pools => exact h.pools.resolve_left hc
  | ingRills => exact h.ing.rills.resolve_left hc
  | ingScanPending => exact h.ing.scanPending.resolve_left hc
  | ingEvt => exact h.ing.evt.resolve_left hc
  | ingCtxs => exact h.ing.ctxs.resolve_left hc
  | ingEngines => exact h.ing.engines.resolve_left hc
  | ingFrames => exact h.ing.frames.resolve_left hc
  | trkPxes => exact h.trk.pxes.resolve_left hc
  | trkLastPxe => exact h.trk.lastPxe.resolve_left hc
  | trkCrops => exact h.trk.crops.resolve_left hc
  | trkEmbq => exact h.trk.embq.resolve_left hc
  | trkTracks => exact h.trk.tracks.resolve_left hc
  | trkPerRill => exact h.trk.perRill.resolve_left hc
  | trkFlows => exact h.trk.flows.resolve_left hc
  | trkRings => exact h.trk.rings.resolve_left hc
  | trkStorePeak => exact h.trk.storePeak.resolve_left hc
  | trkCache => exact h.trk.cache.resolve_left hc
  | sluCtxs => exact h.slu.ctxs.resolve_left hc
  | sluCmds => exact h.slu.cmds.resolve_left hc
  | sluCores => exact h.slu.cores.resolve_left hc
  | sluBasins => exact h.slu.basins.resolve_left hc
  | sluHolder => exact h.slu.holder.resolve_left hc
  | sluHeldIdle => exact h.slu.heldIdle.resolve_left hc
  | sluLastHeld => exact h.slu.lastHeld.resolve_left hc
  | sluSlices => exact h.slu.slices.resolve_left hc
  | sluEnded => exact h.slu.ended.resolve_left hc
  | sluGroups => exact h.slu.groups.resolve_left hc
  | weirCls => exact h.weir.cls.resolve_left hc
  | weirRailMv => exact h.weir.railMv.resolve_left hc
  | weirSprint => exact h.weir.sprint.resolve_left hc
  | weirDuty => exact h.weir.duty.resolve_left hc
  | weirPowerMw => exact h.weir.powerMw.resolve_left hc
  | weirSampleMw => exact h.weir.sampleMw.resolve_left hc
  | weirLastMissNs => exact h.weir.lastMissNs.resolve_left hc
  | weirCoolant => exact h.weir.coolant.resolve_left hc
  | weirFlowReleasedNs => exact h.weir.flowReleasedNs.resolve_left hc
  | weirCoolantNs => exact h.weir.coolantNs.resolve_left hc
  | weirBrake => exact h.weir.brake.resolve_left hc
  | weirRestart => exact h.weir.restart.resolve_left hc
  | weirLive => exact h.weir.live.resolve_left hc
  | weirWaking => exact h.weir.waking.resolve_left hc
  | weirThermal => exact h.weir.thermal.resolve_left hc
  | weirSwitched => exact h.weir.switched.resolve_left hc
  | icuPend => exact h.icu.pend.resolve_left hc
  | icuCond => exact h.icu.cond.resolve_left hc
  | icuDelivered => exact h.icu.delivered.resolve_left hc
  | icuTimers => exact h.icu.timers.resolve_left hc
  | icuLog => exact h.icu.log.resolve_left hc
  | icuLogHead => exact h.icu.logHead.resolve_left hc
  | thyNow => exact h.thy.now.resolve_left hc
  | thyLock => exact h.thy.lock.resolve_left hc
  | thyPrev => exact h.thy.prev.resolve_left hc
  | thyGood => exact h.thy.good.resolve_left hc
  | thyTrimPpb => exact h.thy.trimPpb.resolve_left hc
  | thyOffset => exact h.thy.offset.resolve_left hc
  | thySnapBusy => exact h.thy.snapBusy.resolve_left hc
  | thySnapRetained => exact h.thy.snapRetained.resolve_left hc
  | thySnapCause => exact h.thy.snapCause.resolve_left hc
  | sageKeys => exact h.sage.keys.resolve_left hc
  | sageMbox => exact h.sage.mbox.resolve_left hc
  | sagePendingSwitch => exact h.sage.pendingSwitch.resolve_left hc
  | sageSwitched => exact h.sage.switched.resolve_left hc
  | sageDoeConn => exact h.sage.doeConn.resolve_left hc
  | sageMctpConn => exact h.sage.mctpConn.resolve_left hc
  | sageEidSmb => exact h.sage.eidSmb.resolve_left hc
  | sageEidVdm => exact h.sage.eidVdm.resolve_left hc
  | regs => trivial
  | reg r => trivial

/-- Every component of a list is one of `cs`. -/
def Within (l : List Comp) (cs : Comp → Prop) : Prop := ∀ c ∈ l, cs c

theorem Within.of {l : List Comp} {cs : Comp → Prop} (h : Within l cs) {c : Comp} (m : c ∈ l) : cs c := h c m

theorem within_append {a b : List Comp} {cs : Comp → Prop} : Within (a ++ b) cs ↔ Within a cs ∧ Within b cs := by
  simp only [Within, List.mem_append]
  exact ⟨fun h => ⟨fun c m => h c (.inl m), fun c m => h c (.inr m)⟩, fun h c m => m.elim (h.1 c) (h.2 c)⟩

theorem changesOnly.mono {a b : List Comp} {s t : State} (h : changesOnly a s t) (m : ∀ c ∈ a, c ∈ b) :
    changesOnly b s t :=
  ⟨fun c hc => h.1 c (fun k => hc (m c k)), fun o => (h.2 o).imp (m _) (Or.imp_left fun ⟨r, u, i, hr, e⟩ =>
    ⟨r, u, i, m _ hr, e⟩)⟩

theorem Within.mem (l : List Comp) : Within l (fun c => c ∈ l) := fun _ m => m

/-- A record update that leaves the memories' tables, the fuses, the part, the registers and what was sent as they are. -/
theorem keeps_mk {cs : Comp → Prop} {u s : State} {fi : Nat} {dev : Dev} {fns : SMap FnState} {ldr : Loader} {dram : Dram}
    {pools : List Pool} {ing : Ingest} {trk : TrackEng} {slu : Sluice} {weir : Weir} {icu : Icu} {thy : Thyme}
    {sage : Sage} (h : Keeps cs u s)
    (hi : cs .freeIdx ∨ fi = s.freeIdx := by first | exact .inr rfl | exact .inl (hd.of (by decide)))
    (hn : cs .fns ∨ fns = s.fns := by first | exact .inr rfl | exact .inl (hd.of (by decide)))
    (ho : cs .pools ∨ pools = s.pools := by first | exact .inr rfl | exact .inl (hd.of (by decide)))
    (kdev : DevKept cs s.dev dev := by first | exact .refl _ | (constructor <;> first | exact .inr rfl | exact .inl (hd.of (by decide))))
    (kldr : LdrKept cs s.ldr ldr := by first | exact .refl _ | (constructor <;> first | exact .inr rfl | exact .inl (hd.of (by decide))))
    (kdram : DramKept cs s.dram dram := by first | exact .refl _ | (constructor <;> first | exact .inr rfl | exact .inl (hd.of (by decide))))
    (king : IngKept cs s.ing ing := by first | exact .refl _ | (constructor <;> first | exact .inr rfl | exact .inl (hd.of (by decide))))
    (ktrk : TrkKept cs s.trk trk := by first | exact .refl _ | (constructor <;> first | exact .inr rfl | exact .inl (hd.of (by decide))))
    (kslu : SluKept cs s.slu slu := by first | exact .refl _ | (constructor <;> first | exact .inr rfl | exact .inl (hd.of (by decide))))
    (kweir : WeirKept cs s.weir weir := by first | exact .refl _ | (constructor <;> first | exact .inr rfl | exact .inl (hd.of (by decide))))
    (kicu : IcuKept cs s.icu icu := by first | exact .refl _ | (constructor <;> first | exact .inr rfl | exact .inl (hd.of (by decide))))
    (kthy : ThyKept cs s.thy thy := by first | exact .refl _ | (constructor <;> first | exact .inr rfl | exact .inl (hd.of (by decide))))
    (ksage : SageKept cs s.sage sage := by first | exact .refl _ | (constructor <;> first | exact .inr rfl | exact .inl (hd.of (by decide))))
    (hp : dev.part = s.dev.part := by rfl) (hf : dev.fuses = s.dev.fuses := by rfl)
    (hl : dev.flash.bytes = s.dev.flash.bytes := by rfl) (hb : dram.bytes = s.dram.bytes := by rfl)
    (hq : dram.poison = s.dram.poison := by rfl) (hs : slu.basins = s.slu.basins := by rfl) :
    Keeps cs u (State.mk s.pending s.out fi dev fns s.regs ldr dram pools ing trk slu weir icu thy sage) :=
  h.trans
    { pending := rfl, sent := List.prefix_refl _, part := hp, fuses := hf ▸ Fuses.growsTo_refl _
      mem := fun m => ⟨hb ▸ m.bytes, hq ▸ m.poison, m.regs, hs ▸ m.basins, hs ▸ m.basin, hl ▸ m.flash⟩
      out := .inr rfl, freeIdx := hi, fns := hn, pools := ho, regs := .refl _
      dev := kdev, ldr := kldr, dram := kdram, ing := king, trk := ktrk, slu := kslu, weir := kweir, icu := kicu, thy := kthy, sage := ksage }

/-- A step within a command, of which what is not given is unchanged. -/
theorem Keeps.next {cs : Comp → Prop} {u s t : State} (h : Keeps cs u s) (pending : t.pending = s.pending := by rfl)
    (sent : s.out <+: t.out := by exact List.prefix_refl _) (part : t.dev.part = s.dev.part := by rfl)
    (fuses : s.dev.fuses.growsTo t.dev.fuses := by exact Fuses.growsTo_refl _)
    (mem : MemOk s.dev s.regs s.dram s.slu → MemOk t.dev t.regs t.dram t.slu :=
      by exact fun k => ⟨k.bytes, k.poison, k.regs, k.basins, k.basin, k.flash⟩)
    (out : cs .out ∨ t.out = s.out := by exact .inr rfl)
    (freeIdx : cs .freeIdx ∨ t.freeIdx = s.freeIdx := by exact .inr rfl)
    (fns : cs .fns ∨ t.fns = s.fns := by exact .inr rfl) (pools : cs .pools ∨ t.pools = s.pools := by exact .inr rfl)
    (regs : RegsKept cs s.regs t.regs := by exact .refl _)
    (dev : DevKept cs s.dev t.dev := by exact .refl _)
    (ldr : LdrKept cs s.ldr t.ldr := by exact .refl _)
    (dram : DramKept cs s.dram t.dram := by exact .refl _)
    (ing : IngKept cs s.ing t.ing := by exact .refl _)
    (trk : TrkKept cs s.trk t.trk := by exact .refl _)
    (slu : SluKept cs s.slu t.slu := by exact .refl _)
    (weir : WeirKept cs s.weir t.weir := by exact .refl _)
    (icu : IcuKept cs s.icu t.icu := by exact .refl _)
    (thy : ThyKept cs s.thy t.thy := by exact .refl _)
    (sage : SageKept cs s.sage t.sage := by exact .refl _) : Keeps cs u t :=
  h.trans ⟨pending, sent, part, fuses, mem, out, freeIdx, fns, pools, regs, dev, ldr, dram, ing, trk, slu, weir, icu, thy, sage⟩

/-- A message is sent. -/
theorem keeps_out {cs : Comp → Prop} {u s : State} (h : Keeps cs u s) (xs : List OutMsg) (hc : cs .out) :
    Keeps cs u { s with out := s.out ++ xs } :=
  h.next (sent := List.prefix_append _ _) (out := .inl hc)

/-- The registers are exchanged for a table in canonical form. -/
theorem keeps_regs {cs : Comp → Prop} {u s : State} (h : Keeps cs u s) (m : SMap W64) (hc : cs .regs)
    (hm : SMap.wf regDefault s.regs = true → SMap.wf regDefault m = true) : Keeps cs u { s with regs := m } :=
  h.next (mem := fun k => ⟨k.bytes, k.poison, hm k.regs, k.basins, k.basin, k.flash⟩) (regs := fun _ => .inl hc)

/-- What an outcome keeps. -/
def KeepsOut (cs : Comp → Prop) (u : State) : Host.Outcome State Fault Refusal → Prop
  | .next t => Keeps cs u t
  | .fault _ => True
  | .refused _ => True

theorem KeepsOut.next {cs : Comp → Prop} {u t : State} (h : Keeps cs u t) : KeepsOut cs u (.next t) := h

theorem KeepsOut.fault {cs : Comp → Prop} {u : State} (f : Fault) : KeepsOut cs u (.fault f) := trivial

/-- What an optional state keeps. -/
def KeepsOpt (cs : Comp → Prop) (u : State) : Option State → Prop
  | some t => Keeps cs u t
  | none => True

theorem KeepsOpt.some {cs : Comp → Prop} {u t : State} (h : Keeps cs u t) : KeepsOpt cs u (.some t) := h

theorem KeepsOpt.none {cs : Comp → Prop} {u : State} : KeepsOpt cs u .none := trivial

theorem KeepsOpt.getD {cs : Comp → Prop} {u s : State} (h : Keeps cs u s) {o : Option State} (ho : KeepsOpt cs u o) :
    Keeps cs u (o.getD s) := by
  cases o with
  | none => exact h
  | some t => exact ho

/-! ## The operations that write what `Keeps` speaks of -/

theorem setReg_keeps {cs : Comp → Prop} {u s : State} (h : Keeps cs u s) (r : Reg) (k i : Nat) (v : W64)
    (hr : cs .regs ∨ cs (.reg r)) : Keeps cs u (s.setReg r k i v) := by
  unfold State.setReg
  split
  · rename_i ok
    refine h.next (mem := fun m => ⟨m.bytes, m.poison, SMap.wf_set _ _ m.regs, m.basins, m.basin, m.flash⟩)
      (regs := fun o => ?_)
    rcases hr with hr | hr
    · exact .inl hr
    by_cases e : o = regOff r k i
    · exact .inr (.inl ⟨r, k, i, hr, ok, e⟩)
    · exact .inr (.inr (SMap.get_set_ne _ _ _ e))
  · exact h

theorem setBasin_keeps {cs : Comp → Prop} {u s : State} (h : Keeps cs u s) (n : Nat) (m : Mem) (hc : cs .sluBasins)
    (hm : Mem.wf (s.basin n) = true → Mem.wf m = true) : Keeps cs u (s.setBasin n m) := by
  refine h.next (slu := by constructor <;> first | exact .inr rfl | exact .inl hc) (mem := fun k => ?_)
  refine ⟨k.bytes, k.poison, k.regs, SMap.wf_set _ _ k.basins, ?_, k.flash⟩
  have hget : Mem.wf (s.basin n) = true := by
    unfold State.basin
    have := k.basin
    generalize s.slu.basins = b at this
    induction b with
    | nil => exact Mem.wf_nil
    | cons x b ih =>
      simp only [SMap.get]
      split
      · exact this x (by simp)
      · exact ih (fun y hy => this y (List.mem_cons_of_mem _ hy))
  intro x hx
  simp only [State.setBasin, SMap.set] at hx
  split at hx
  · exact k.basin x (SMap.mem_erase hx)
  · rcases SMap.mem_insert hx with rfl | hx
    · exact hm hget
    · exact k.basin x hx

theorem setDramBytes_keeps {cs : Comp → Prop} {u s : State} (h : Keeps cs u s) (m : Mem) (hc : cs .dramBytes)
    (hm : Mem.wf s.dram.bytes = true → Mem.wf m = true) : Keeps cs u (s.setDramBytes m) :=
  h.next (mem := fun k => ⟨hm k.bytes, k.poison, k.regs, k.basins, k.basin, k.flash⟩)
    (dram := by constructor <;> first | exact .inr rfl | exact .inl hc)

theorem setPoison_keeps {cs : Comp → Prop} {u s : State} (h : Keeps cs u s) (b : Nat) (v : Bool)
    (hc : cs .dramPoison) (hf : cs .dramFinds) : Keeps cs u (s.setPoison b v) :=
  h.next (mem := fun k => ⟨k.bytes, SMap.wf_set _ _ k.poison, k.regs, k.basins, k.basin, k.flash⟩)
    (dram := by constructor <;> first | exact .inr rfl | exact .inl hc | exact .inl hf)

/-! ## Control -/

theorem when_keeps {cs : Comp → Prop} {u s : State} (h : Keeps cs u s) (c : Bool) {f : State → State}
    (hf : Keeps cs u (f s)) : Keeps cs u (s.when c f) := by
  unfold State.when
  split
  · exact hf
  · exact h

theorem atFront_keeps {cs : Comp → Prop} {u s : State} (h : Keeps cs u s) (n code : Nat)
    {f : State → Run → Fire → Op → Option State} (hc : cs .sluCores)
    (hf : ∀ t r fi op, Keeps cs u t → KeepsOpt cs u (f t r fi op)) : Keeps cs u (s.atFront n code f) := by
  unfold State.atFront
  dsimp only
  split
  · split
    · split
      · refine KeepsOpt.getD h (hf _ _ _ _ (h.next (slu := ?_)))
        constructor <;> first | exact .inr rfl | exact .inl hc
      · exact h
    · exact h
  · exact h

end Sys2Proof.Machine
end

