-- ==== Sys2Proof/Laws/KeepsOps.lean ====
section
/-! SUPPORT. What the functions of the tables, the shared operations, DRAM and Cistern keep and change (Laws/Keeps.lean). -/

set_option Elab.async false

namespace Sys2Proof.Machine

set_option linter.unreachableTactic false
set_option linter.unusedTactic false

variable {cs : Comp → Prop} {u : State}

/-! ## Machine/RegTable.lean -/

theorem updReg_keeps {s : State} (h : Keeps cs u s) (x1 : Reg) (x2 : Nat) (i : Nat) (f : W64 → W64)
    (hr : cs .regs ∨ cs (.reg x1)) :
    Keeps cs u (State.updReg s x1 x2 i f) := by
  unfold State.updReg
  repeat' first
    | with_reducible first
      | assumption | apply setReg_keeps
    | intro _ | split | dsimp only

theorem count_keeps {s : State} (h : Keeps cs u s) (x1 : Reg) (x2 : Nat) (hr : cs .regs ∨ cs (.reg x1)) :
    Keeps cs u (State.count s x1 x2) := by
  unfold State.count
  repeat' first
    | with_reducible first
      | assumption | apply updReg_keeps
    | intro _ | split | dsimp only

theorem addTo_keeps {s : State} (h : Keeps cs u s) (x1 : Reg) (x2 : Nat) (n : Nat) (hr : cs .regs ∨ cs (.reg x1)) :
    Keeps cs u (State.addTo s x1 x2 n) := by
  unfold State.addTo
  repeat' first
    | with_reducible first
      | assumption | apply updReg_keeps
    | intro _ | split | dsimp only

/-! ## Machine/Access.lean -/

def setFnChanges : List Comp := [.fns]

theorem setFn_keeps {s : State} (h : Keeps cs u s) (n : Nat) (f : FnState) (hd : Within setFnChanges cs) :
    Keeps cs u (State.setFn s n f) := by
  unfold State.setFn
  repeat' first
    | with_reducible first
      | assumption
    | fail_if_no_progress with_reducible refine keeps_mk ?_ | intro _ | split | dsimp only

def setRillChanges : List Comp := [.ingRills]

theorem setRill_keeps {s : State} (h : Keeps cs u s) (x1 : Nat) (x : Rill) (hd : Within setRillChanges cs) :
    Keeps cs u (State.setRill s x1 x) := by
  unfold State.setRill
  repeat' first
    | with_reducible first
      | assumption
    | fail_if_no_progress with_reducible refine keeps_mk ?_ | intro _ | split | dsimp only

theorem updRill_keeps {s : State} (h : Keeps cs u s) (x1 : Nat) (f : Rill → Rill) (hc : Within setRillChanges cs) :
    Keeps cs u (State.updRill s x1 f) := by
  unfold State.updRill
  repeat' first
    | with_reducible first
      | assumption | apply setRill_keeps
    | intro _ | split | dsimp only

def setDecCtxChanges : List Comp := [.ingCtxs]

theorem setDecCtx_keeps {s : State} (h : Keeps cs u s) (c : Nat) (x : DecCtx) (hd : Within setDecCtxChanges cs) :
    Keeps cs u (State.setDecCtx s c x) := by
  unfold State.setDecCtx
  repeat' first
    | with_reducible first
      | assumption
    | fail_if_no_progress with_reducible refine keeps_mk ?_ | intro _ | split | dsimp only

def freeDecCtxChanges : List Comp := [.ingCtxs]

theorem freeDecCtx_keeps {s : State} (h : Keeps cs u s) (c : Nat) (hd : Within freeDecCtxChanges cs) :
    Keeps cs u (State.freeDecCtx s c) := by
  unfold State.freeDecCtx
  repeat' first
    | with_reducible first
      | assumption
    | fail_if_no_progress with_reducible refine keeps_mk ?_ | intro _ | split | dsimp only

def setEngineChanges : List Comp := [.ingEngines]

theorem setEngine_keeps {s : State} (h : Keeps cs u s) (x1 : Nat) (x : Engine) (hd : Within setEngineChanges cs) :
    Keeps cs u (State.setEngine s x1 x) := by
  unfold State.setEngine
  repeat' first
    | with_reducible first
      | assumption
    | fail_if_no_progress with_reducible refine keeps_mk ?_ | intro _ | split | dsimp only

def updFrameChanges : List Comp := [.ingFrames]

theorem updFrame_keeps {s : State} (h : Keeps cs u s) (rill : Nat) (index : Nat) (f : Frame → Frame)
    (hd : Within updFrameChanges cs) :
    Keeps cs u (State.updFrame s rill index f) := by
  unfold State.updFrame
  repeat' first
    | with_reducible first
      | assumption
    | fail_if_no_progress with_reducible refine keeps_mk ?_ | intro _ | split | dsimp only

def setRillTrkChanges : List Comp := [.trkPerRill]

theorem setRillTrk_keeps {s : State} (h : Keeps cs u s) (x1 : Nat) (x : RillTrk) (hd : Within setRillTrkChanges cs) :
    Keeps cs u (State.setRillTrk s x1 x) := by
  unfold State.setRillTrk
  repeat' first
    | with_reducible first
      | assumption
    | fail_if_no_progress with_reducible refine keeps_mk ?_ | intro _ | split | dsimp only

def setRingChanges : List Comp := [.trkRings]

theorem setRing_keeps {s : State} (h : Keeps cs u s) (n : Nat) (x : Ring) (hd : Within setRingChanges cs) :
    Keeps cs u (State.setRing s n x) := by
  unfold State.setRing
  repeat' first
    | with_reducible first
      | assumption
    | fail_if_no_progress with_reducible refine keeps_mk ?_ | intro _ | split | dsimp only

def updFlowChanges : List Comp := [.trkFlows]

theorem updFlow_keeps {s : State} (h : Keeps cs u s) (rill : Nat) (frame : Nat) (f : Flow → Flow)
    (hd : Within updFlowChanges cs) :
    Keeps cs u (State.updFlow s rill frame f) := by
  unfold State.updFlow
  repeat' first
    | with_reducible first
      | assumption
    | fail_if_no_progress with_reducible refine keeps_mk ?_ | intro _ | split | dsimp only

def setCtxRunChanges : List Comp := [.sluCtxs]

theorem setCtxRun_keeps {s : State} (h : Keeps cs u s) (c : Nat) (x : CtxRun) (hd : Within setCtxRunChanges cs) :
    Keeps cs u (State.setCtxRun s c x) := by
  unfold State.setCtxRun
  repeat' first
    | with_reducible first
      | assumption
    | fail_if_no_progress with_reducible refine keeps_mk ?_ | intro _ | split | dsimp only

theorem updCtxRun_keeps {s : State} (h : Keeps cs u s) (c : Nat) (f : CtxRun → CtxRun)
    (hc : Within setCtxRunChanges cs) :
    Keeps cs u (State.updCtxRun s c f) := by
  unfold State.updCtxRun
  repeat' first
    | with_reducible first
      | assumption | apply setCtxRun_keeps
    | intro _ | split | dsimp only

def setCmdRunChanges : List Comp := [.sluCmds]

theorem setCmdRun_keeps {s : State} (h : Keeps cs u s) (c : Nat) (x : CmdRun) (hd : Within setCmdRunChanges cs) :
    Keeps cs u (State.setCmdRun s c x) := by
  unfold State.setCmdRun
  repeat' first
    | with_reducible first
      | assumption
    | fail_if_no_progress with_reducible refine keeps_mk ?_ | intro _ | split | dsimp only

def dropCmdRunChanges : List Comp := [.sluCmds]

theorem dropCmdRun_keeps {s : State} (h : Keeps cs u s) (c : Nat) (hd : Within dropCmdRunChanges cs) :
    Keeps cs u (State.dropCmdRun s c) := by
  unfold State.dropCmdRun
  repeat' first
    | with_reducible first
      | assumption
    | fail_if_no_progress with_reducible refine keeps_mk ?_ | intro _ | split | dsimp only

def setCoreChanges : List Comp := [.sluCores]

theorem setCore_keeps {s : State} (h : Keeps cs u s) (n : Nat) (x : Core) (hd : Within setCoreChanges cs) :
    Keeps cs u (State.setCore s n x) := by
  unfold State.setCore
  repeat' first
    | with_reducible first
      | assumption
    | fail_if_no_progress with_reducible refine keeps_mk ?_ | intro _ | split | dsimp only

theorem updCore_keeps {s : State} (h : Keeps cs u s) (n : Nat) (f : Core → Core) (hc : Within setCoreChanges cs) :
    Keeps cs u (State.updCore s n f) := by
  unfold State.updCore
  repeat' first
    | with_reducible first
      | assumption | apply setCore_keeps
    | intro _ | split | dsimp only

def setHolderChanges : List Comp := [.sluHolder]

theorem setHolder_keeps {s : State} (h : Keeps cs u s) (n : Nat) (c : Option Nat) (hd : Within setHolderChanges cs) :
    Keeps cs u (State.setHolder s n c) := by
  unfold State.setHolder
  repeat' first
    | with_reducible first
      | assumption
    | fail_if_no_progress with_reducible refine keeps_mk ?_ | intro _ | split | dsimp only

def setDmcChanges : List Comp := [.dramDmcs]

theorem setDmc_keeps {s : State} (h : Keeps cs u s) (d : Nat) (x : Dmc) (hd : Within setDmcChanges cs) :
    Keeps cs u (State.setDmc s d x) := by
  unfold State.setDmc
  repeat' first
    | with_reducible first
      | assumption
    | fail_if_no_progress with_reducible refine keeps_mk ?_ | intro _ | split | dsimp only

def setClPwrChanges : List Comp := [.weirCls]

theorem setClPwr_keeps {s : State} (h : Keeps cs u s) (n : Nat) (x : ClPwr) (hd : Within setClPwrChanges cs) :
    Keeps cs u (State.setClPwr s n x) := by
  unfold State.setClPwr
  repeat' first
    | with_reducible first
      | assumption
    | fail_if_no_progress with_reducible refine keeps_mk ?_ | intro _ | split | dsimp only

def setPoolChanges : List Comp := [.pools]

theorem setPool_keeps {s : State} (h : Keeps cs u s) (x : Pool) (hd : Within setPoolChanges cs) :
    Keeps cs u (State.setPool s x) := by
  unfold State.setPool
  repeat' first
    | with_reducible first
      | assumption
    | fail_if_no_progress with_reducible refine keeps_mk ?_ | intro _ | split | dsimp only

/-! ## Machine/WeirPoint.lean -/

theorem takeKills_keeps {s : State} (h : Keeps cs u s) (n : Nat) (x2 : List Nat) (hc : Within setCoreChanges cs) :
    Keeps cs u (State.takeKills s n x2) := by
  induction x2 generalizing s n with
  | nil => exact h
  | cons y ys ih =>
    unfold State.takeKills
    repeat' first
      | with_reducible first
        | assumption | apply ih | apply setCore_keeps
      | intro _ | split | dsimp only

/-! ## Machine/Ops.lean -/

def snapCoresChanges : List Comp := [.reg .TC_SNAP_SEQ, .reg .TC_SNAP_UPDATES]

theorem snapCores_keeps {s : State} (h : Keeps cs u s) (seq : W64) (x2 : List Nat) (hd : Within snapCoresChanges cs) :
    Keeps cs u (State.snapCores s seq x2) := by
  induction x2 generalizing s seq with
  | nil => exact h
  | cons y ys ih =>
    unfold State.snapCores
    repeat' first
      | with_reducible first
        | assumption | apply ih | apply setReg_keeps | exact .inr (hd.of (by decide))
      | intro _ | split | dsimp only

def snapSlotsChanges : List Comp := [.reg .THYME_SNAP_VAL]

theorem snapSlots_keeps {s : State} (h : Keeps cs u s) (x1 : List (Nat × W64)) (hd : Within snapSlotsChanges cs) :
    Keeps cs u (State.snapSlots s x1) := by
  induction x1 generalizing s with
  | nil => exact h
  | cons y ys ih =>
    unfold State.snapSlots
    repeat' first
      | with_reducible first
        | assumption | apply ih | apply setReg_keeps | exact .inr (hd.of (by decide))
      | intro _ | split | dsimp only

def snapshotChanges : List Comp :=
  snapSlotsChanges ++ snapCoresChanges ++
    [.reg .THYME_CNT_SNAPDROP, .reg .THYME_SNAP_SEQ, .reg .THYME_SNAP_TIME, .thySnapBusy, .thySnapCause,
     .thySnapRetained]

theorem snapshot_keeps {s : State} (h : Keeps cs u s) (cause : Nat) (x2 : W64) (hc : Within snapshotChanges cs) :
    Keeps cs u (State.snapshot s cause x2) := by
  simp only [snapshotChanges, within_append, and_assoc] at hc
  obtain ⟨h0, h1, hd⟩ := hc
  unfold State.snapshot
  repeat' first
    | with_reducible first
      | assumption | apply count_keeps | apply snapSlots_keeps | apply snapCores_keeps | apply setReg_keeps
      | exact .inr (hd.of (by decide))
    | fail_if_no_progress with_reducible refine keeps_mk ?_ | intro _ | split | dsimp only

theorem sourceCause_keeps {s : State} (h : Keeps cs u s) (i : Nat) (hc : Within snapshotChanges cs) :
    Keeps cs u (State.sourceCause s i) := by
  unfold State.sourceCause
  repeat' first
    | with_reducible first
      | assumption | apply snapshot_keeps
    | intro _ | split | dsimp only

def edgeCoreChanges : List Comp := [.icuCond, .icuDelivered, .icuPend]

theorem edgeCore_keeps {s : State} (h : Keeps cs u s) (i : Nat) (v : Bool) (hd : Within edgeCoreChanges cs) :
    Keeps cs u (State.edgeCore s i v).1 := by
  unfold State.edgeCore
  repeat' first
    | with_reducible first
      | assumption
    | fail_if_no_progress with_reducible refine keeps_mk ?_ | intro _ | split | dsimp only

theorem edgeCore_keepsq {s : State} (h : Keeps cs u s) {i : Nat} {v : Bool} (hd : Within edgeCoreChanges cs) {r t}
    (e : State.edgeCore s i v = (t, r)) :
    Keeps cs u t := by
  have := edgeCore_keeps h i v hd
  rwa [e] at this

def edgeChanges : List Comp :=
  edgeCoreChanges ++ snapshotChanges

theorem edge_keeps {s : State} (h : Keeps cs u s) (i : Nat) (v : Bool) (hc : Within edgeChanges cs) :
    Keeps cs u (State.edge s i v) := by
  simp only [edgeChanges, within_append] at hc
  obtain ⟨h0, h1⟩ := hc
  unfold State.edge
  repeat' first
    | with_reducible first
      | assumption | apply edgeCore_keeps | apply sourceCause_keeps
    | intro _ | split | dsimp only

theorem raise_keeps {s : State} (h : Keeps cs u s) (i : Nat) (hc : Within edgeChanges cs) :
    Keeps cs u (State.raise s i) := by
  unfold State.raise
  repeat' first
    | with_reducible first
      | assumption | apply edge_keeps
    | intro _ | split | dsimp only

theorem raiseQuiet_keeps {s : State} (h : Keeps cs u s) (i : Nat) (hc : Within edgeCoreChanges cs) :
    Keeps cs u (State.raiseQuiet s i) := by
  unfold State.raiseQuiet
  repeat' first
    | with_reducible first
      | assumption | apply edgeCore_keeps
    | intro _ | split | dsimp only

def elogChanges : List Comp :=
  edgeChanges ++ [.icuLog, .icuLogHead]

theorem elog_keeps {s : State} (h : Keeps cs u s) (status : W16) (unit : Nat) (index : Nat) (ctx : Nat) (fn : Nat)
    (detail : W64) (hc : Within elogChanges cs) :
    Keeps cs u (State.elog s status unit index ctx fn detail) := by
  simp only [elogChanges, within_append] at hc
  obtain ⟨h0, hd⟩ := hc
  unfold State.elog
  repeat' first
    | with_reducible first
      | assumption | apply raise_keeps
    | fail_if_no_progress with_reducible refine keeps_mk ?_ | intro _ | split | dsimp only

def adviseChanges : List Comp :=
  edgeChanges ++ [.reg .ICU_ADVISE]

theorem advise_keeps {s : State} (h : Keeps cs u s) (b : Nat) (hc : Within adviseChanges cs) :
    Keeps cs u (State.advise s b) := by
  simp only [adviseChanges, within_append] at hc
  obtain ⟨h0, hd⟩ := hc
  unfold State.advise
  repeat' first
    | with_reducible first
      | assumption | apply raise_keeps | apply updReg_keeps | exact .inr (hd.of (by decide))
    | intro _ | split | dsimp only

def hostWriteChanges : List Comp := [.out, .reg .HEP_CNT_WR_BYTES]

theorem hostWrite_keeps {s : State} (h : Keeps cs u s) (fn : Nat) (addr : Nat) (data : List Byte)
    (hd : Within hostWriteChanges cs) :
    Keeps cs u (State.hostWrite s fn addr data) := by
  unfold State.hostWrite
  repeat' first
    | with_reducible first
      | assumption | apply addTo_keeps | refine keeps_out ?_ _ ?_ | exact hd.of (by decide)
      | exact .inr (hd.of (by decide))
    | intro _ | split | dsimp only

def hostReadChanges : List Comp := [.reg .HEP_CNT_RD_BYTES]

theorem hostRead_keeps {s : State} (h : Keeps cs u s) (n : Nat) (hd : Within hostReadChanges cs) :
    Keeps cs u (State.hostRead s n) := by
  unfold State.hostRead
  repeat' first
    | with_reducible first
      | assumption | apply addTo_keeps | exact .inr (hd.of (by decide))
    | intro _ | split | dsimp only

def sendChanges : List Comp := [.out]

theorem send_keeps {s : State} (h : Keeps cs u s) (m : OutMsg) (hd : Within sendChanges cs) :
    Keeps cs u (State.send s m) := by
  unfold State.send
  repeat' first
    | with_reducible first
      | assumption | refine keeps_out ?_ _ ?_ | exact hd.of (by decide)
    | intro _ | split | dsimp only

def powerStatusChanges : List Comp := [.reg .WEIR_STATUS]

theorem powerStatus_keeps {s : State} (h : Keeps cs u s) (st : W16) (hd : Within powerStatusChanges cs) :
    Keeps cs u (State.powerStatus s st) := by
  unfold State.powerStatus
  repeat' first
    | with_reducible first
      | assumption | apply setReg_keeps | exact .inr (hd.of (by decide))
    | intro _ | split | dsimp only

def readFailedChanges : List Comp :=
  elogChanges ++ [.reg .HEP_CNT_CPLTO, .reg .HEP_CNT_RDFAIL, .reg .HEP_LAST_RDFAIL, .reg .HEP_LAST_RDFAIL_INFO]

theorem readFailed_keeps {s : State} (h : Keeps cs u s) (status : W16) (fn : Nat) (addr : Nat) (timedOut : Bool)
    (hc : Within readFailedChanges cs) :
    Keeps cs u (State.readFailed s status fn addr timedOut) := by
  simp only [readFailedChanges, within_append] at hc
  obtain ⟨h0, hd⟩ := hc
  unfold State.readFailed
  repeat' first
    | with_reducible first
      | assumption | apply elog_keeps | apply setReg_keeps | apply count_keeps | exact .inr (hd.of (by decide))
    | intro _ | split | dsimp only

def messageChanges : List Comp :=
  setFnChanges ++ sendChanges

theorem message_keeps {s : State} (h : Keeps cs u s) (n : Nat) (v : Nat) (hc : Within messageChanges cs) :
    Keeps cs u (State.message s n v) := by
  simp only [messageChanges, within_append] at hc
  obtain ⟨h0, h1⟩ := hc
  unfold State.message
  repeat' first
    | with_reducible first
      | assumption | apply setFn_keeps | apply send_keeps
    | intro _ | split | dsimp only

def sendHeldChanges : List Comp :=
  sendChanges ++ setFnChanges

theorem sendHeld_keeps {s : State} (h : Keeps cs u s) (n : Nat) (x2 : List Nat) (hc : Within sendHeldChanges cs) :
    Keeps cs u (State.sendHeld s n x2) := by
  simp only [sendHeldChanges, within_append] at hc
  obtain ⟨h0, h1⟩ := hc
  induction x2 generalizing s n with
  | nil => exact h
  | cons y ys ih =>
    unfold State.sendHeld
    repeat' first
      | with_reducible first
        | assumption | apply ih | apply send_keeps | apply setFn_keeps
      | intro _ | split | dsimp only

theorem releaseHeld_keeps {s : State} (h : Keeps cs u s) (n : Nat) (hc : Within sendHeldChanges cs) :
    Keeps cs u (State.releaseHeld s n) := by
  unfold State.releaseHeld
  repeat' first
    | with_reducible first
      | assumption | apply sendHeld_keeps
    | intro _ | split | dsimp only

/-! ## Machine/DramOps.lean -/

def holdDecsChanges : List Comp := [.reg .DEC_CTX_USED]

theorem holdDecs_keeps {s : State} (h : Keeps cs u s) (x1 : List Nat) (hd : Within holdDecsChanges cs) :
    Keeps cs u (State.holdDecs s x1) := by
  induction x1 generalizing s with
  | nil => exact h
  | cons y ys ih =>
    unfold State.holdDecs
    repeat' first
      | with_reducible first
        | assumption | apply ih | apply setReg_keeps | exact .inr (hd.of (by decide))
      | intro _ | split | dsimp only

def dmcLogChanges : List Comp :=
  elogChanges ++ setDmcChanges

theorem dmcLog_keeps {s : State} (h : Keeps cs u s) (l : BlockLoc) (kind : Nat) (port : Nat)
    (hc : Within dmcLogChanges cs) :
    Keeps cs u (State.dmcLog s l kind port) := by
  simp only [dmcLogChanges, within_append] at hc
  obtain ⟨h0, h1⟩ := hc
  unfold State.dmcLog
  repeat' first
    | with_reducible first
      | assumption | apply elog_keeps | apply setDmc_keeps
    | intro _ | split | dsimp only

def chErrChanges : List Comp := [.reg .DMC_CH_ERR]

theorem chErr_keeps {s : State} (h : Keeps cs u s) (l : BlockLoc) (lo : Nat) (len : Nat)
    (hd : Within chErrChanges cs) :
    Keeps cs u (State.chErr s l lo len) := by
  unfold State.chErr
  repeat' first
    | with_reducible first
      | assumption | apply updReg_keeps | exact .inr (hd.of (by decide))
    | intro _ | split | dsimp only

def adviseChanChanges : List Comp :=
  adviseChanges ++ edgeChanges ++ [.reg .DMC_ADVISE]

theorem adviseChan_keeps {s : State} (h : Keeps cs u s) (d : Nat) (c : Nat) (hc : Within adviseChanChanges cs) :
    Keeps cs u (State.adviseChan s d c) := by
  simp only [adviseChanChanges, within_append, and_assoc] at hc
  obtain ⟨h0, h1, hd⟩ := hc
  unfold State.adviseChan
  repeat' first
    | with_reducible first
      | assumption | apply advise_keeps | apply raise_keeps | apply updReg_keeps | exact .inr (hd.of (by decide))
    | intro _ | split | dsimp only

theorem adviseGroup_keeps {s : State} (h : Keeps cs u s) (l : BlockLoc) (hc : Within adviseChanChanges cs) :
    Keeps cs u (State.adviseGroup s l) := by
  unfold State.adviseGroup
  repeat' first
    | with_reducible first
      | assumption | apply adviseChan_keeps
    | intro _ | split | dsimp only

theorem adviseAll_keeps {s : State} (h : Keeps cs u s) (d : Nat) (x2 : List Nat) (hc : Within adviseChanChanges cs) :
    Keeps cs u (State.adviseAll s d x2) := by
  induction x2 generalizing s d with
  | nil => exact h
  | cons y ys ih =>
    unfold State.adviseAll
    repeat' first
      | with_reducible first
        | assumption | apply ih | apply adviseChan_keeps
      | intro _ | split | dsimp only

def poisonSeenChanges : List Comp :=
  adviseChanChanges ++ dmcLogChanges ++ chErrChanges

theorem poisonSeen_keeps {s : State} (h : Keeps cs u s) (port : Nat) (b : Nat) (hc : Within poisonSeenChanges cs) :
    Keeps cs u (State.poisonSeen s port b) := by
  simp only [poisonSeenChanges, within_append, and_assoc] at hc
  obtain ⟨h0, h1, h2⟩ := hc
  unfold State.poisonSeen
  repeat' first
    | with_reducible first
      | assumption | apply adviseGroup_keeps | apply dmcLog_keeps | apply chErr_keeps
    | intro _ | split | dsimp only

def blockReadChanges : List Comp :=
  adviseChanChanges ++ dmcLogChanges ++ chErrChanges ++ poisonSeenChanges ++
    [.reg .DMC_CNT_RD, .dramBytes, .dramPoison, .dramFinds]

theorem blockRead_keeps {s : State} (h : Keeps cs u s) (port : Nat) (b : Nat) (f : ReadFound) (second : List Byte)
    (partialRead : Bool) (hc : Within blockReadChanges cs) :
    Keeps cs u (State.blockRead s port b f second partialRead) := by
  simp only [blockReadChanges, within_append, and_assoc] at hc
  obtain ⟨h0, h1, h2, h3, hd⟩ := hc
  unfold State.blockRead
  repeat' first
    | with_reducible first
      | assumption | apply addTo_keeps | apply adviseGroup_keeps | apply dmcLog_keeps | apply chErr_keeps
      | apply setPoison_keeps | apply setDramBytes_keeps | apply poisonSeen_keeps | exact hd.of (by decide)
      | exact .inr (hd.of (by decide)) | exact Mem.wf_writeList _ _ _
    | intro _ | split | dsimp only

def useFindChanges : List Comp := [.dramFinds]

theorem useFind_keeps {s : State} (h : Keeps cs u s) (port : Nat) (b : Nat) (hd : Within useFindChanges cs) :
    Keeps cs u (State.useFind s port b) := by
  unfold State.useFind
  repeat' first
    | with_reducible first
      | assumption
    | fail_if_no_progress with_reducible refine keeps_mk ?_ | intro _ | split | dsimp only

def keepFindChanges : List Comp :=
  useFindChanges ++ [.dramFinds]

theorem keepFind_keeps {s : State} (h : Keeps cs u s) (port : Nat) (b : Nat) (bad : Bool)
    (hc : Within keepFindChanges cs) :
    Keeps cs u (State.keepFind s port b bad) := by
  simp only [keepFindChanges, within_append] at hc
  obtain ⟨h0, hd⟩ := hc
  unfold State.keepFind
  repeat' first
    | with_reducible first
      | assumption | apply useFind_keeps
    | fail_if_no_progress with_reducible refine keeps_mk ?_ | intro _ | split | dsimp only

def visitBlockChanges : List Comp :=
  useFindChanges ++ poisonSeenChanges ++ [.reg .DMC_CNT_RD]

theorem visitBlock_keeps {s : State} (h : Keeps cs u s) (port : Nat) (b : Nat) (hc : Within visitBlockChanges cs) :
    Keeps cs u (State.visitBlock s port b) := by
  simp only [visitBlockChanges, within_append, and_assoc] at hc
  obtain ⟨h0, h1, hd⟩ := hc
  unfold State.visitBlock
  repeat' first
    | with_reducible first
      | assumption | apply useFind_keeps | apply addTo_keeps | apply poisonSeen_keeps
      | exact .inr (hd.of (by decide))
    | intro _ | split | dsimp only

theorem visitBlocks_keeps {s : State} (h : Keeps cs u s) (port : Nat) (b : Nat) (x3 : Nat)
    (hc : Within visitBlockChanges cs) :
    Keeps cs u (State.visitBlocks s port b x3) := by
  induction x3 generalizing s port b with
  | zero => exact h
  | succ y ih =>
    unfold State.visitBlocks
    repeat' first
      | with_reducible first
        | assumption | apply ih | apply visitBlock_keeps
      | intro _ | split | dsimp only

theorem visit_keeps {s : State} (h : Keeps cs u s) (port : Nat) (a : Nat) (n : Nat)
    (hc : Within visitBlockChanges cs) :
    Keeps cs u (State.visit s port a n) := by
  unfold State.visit
  repeat' first
    | with_reducible first
      | assumption | apply visitBlocks_keeps
    | intro _ | split | dsimp only

theorem visitAll_keeps {s : State} (h : Keeps cs u s) (port : Nat) (x2 : List (Nat × Nat))
    (hc : Within visitBlockChanges cs) :
    Keeps cs u (State.visitAll s port x2) := by
  induction x2 generalizing s port with
  | nil => exact h
  | cons y ys ih =>
    unfold State.visitAll
    repeat' first
      | with_reducible first
        | assumption | apply ih | apply visit_keeps
      | intro _ | split | dsimp only

def mergeReadChanges : List Comp :=
  useFindChanges ++ [.reg .DMC_CNT_RD]

theorem mergeRead_keeps {s : State} (h : Keeps cs u s) (port : Nat) (b : Nat) (hc : Within mergeReadChanges cs) :
    Keeps cs u (State.mergeRead s port b) := by
  simp only [mergeReadChanges, within_append] at hc
  obtain ⟨h0, hd⟩ := hc
  unfold State.mergeRead
  repeat' first
    | with_reducible first
      | assumption | apply useFind_keeps | apply addTo_keeps | exact .inr (hd.of (by decide))
    | intro _ | split | dsimp only

def countWriteChanges : List Comp := [.reg .DMC_CNT_WR]

theorem countWrite_keeps {s : State} (h : Keeps cs u s) (b : Nat) (hd : Within countWriteChanges cs) :
    Keeps cs u (State.countWrite s b) := by
  unfold State.countWrite
  repeat' first
    | with_reducible first
      | assumption | apply addTo_keeps | exact .inr (hd.of (by decide))
    | intro _ | split | dsimp only

def putBlockChanges : List Comp :=
  countWriteChanges ++ mergeReadChanges ++ dmcLogChanges ++ [.dramBytes, .dramPoison, .dramFinds]

theorem putBlock_keeps {s : State} (h : Keeps cs u s) (port : Nat) (a : Nat) (data : List Byte)
    (hc : Within putBlockChanges cs) :
    Keeps cs u (State.putBlock s port a data) := by
  simp only [putBlockChanges, within_append, and_assoc] at hc
  obtain ⟨h0, h1, h2, hd⟩ := hc
  unfold State.putBlock
  repeat' first
    | with_reducible first
      | assumption | apply countWrite_keeps | apply setPoison_keeps | apply setDramBytes_keeps
      | apply mergeRead_keeps | apply dmcLog_keeps | exact hd.of (by decide) | exact Mem.wf_writeList _ _ _
    | intro _ | split | dsimp only

theorem putPieces_keeps {s : State} (h : Keeps cs u s) (port : Nat) (x2 : List (Nat × List Byte))
    (hc : Within putBlockChanges cs) :
    Keeps cs u (State.putPieces s port x2) := by
  induction x2 generalizing s port with
  | nil => exact h
  | cons y ys ih =>
    unfold State.putPieces
    repeat' first
      | with_reducible first
        | assumption | apply ih | apply putBlock_keeps
      | intro _ | split | dsimp only

theorem dramPut_keeps {s : State} (h : Keeps cs u s) (port : Nat) (a : Nat) (data : List Byte)
    (hc : Within putBlockChanges cs) :
    Keeps cs u (State.dramPut s port a data) := by
  unfold State.dramPut
  repeat' first
    | with_reducible first
      | assumption | apply putPieces_keeps
    | intro _ | split | dsimp only

def memPutChanges : List Comp :=
  putBlockChanges ++ [.sluBasins]

theorem memPut_keeps {s : State} (h : Keeps cs u s) (port : Nat) (a : Nat) (data : List Byte)
    (hc : Within memPutChanges cs) :
    Keeps cs u (State.memPut s port a data) := by
  simp only [memPutChanges, within_append] at hc
  obtain ⟨h0, hd⟩ := hc
  unfold State.memPut
  repeat' first
    | with_reducible first
      | assumption | apply dramPut_keeps | apply setBasin_keeps | exact hd.of (by decide)
      | exact Mem.wf_writeList _ _ _
    | intro _ | split | dsimp only

theorem reads_keeps {s : State} (h : Keeps cs u s) (port : Nat) (rs : List (Nat × Nat))
    (hc : Within visitBlockChanges cs) :
    Keeps cs u (State.reads s port rs).2 := by
  unfold State.reads
  repeat' first
    | with_reducible first
      | assumption | apply visitAll_keeps
    | intro _ | split | dsimp only

theorem reads_keepsq {s : State} (h : Keeps cs u s) {port : Nat} {rs : List (Nat × Nat)}
    (hc : Within visitBlockChanges cs) {r t} (e : State.reads s port rs = (r, t)) :
    Keeps cs u t := by
  have := reads_keeps h port rs hc
  rwa [e] at this

/-! ## Machine/CisternOps.lean -/

def refillChanges : List Comp :=
  setPoolChanges ++ visitBlockChanges

theorem refill_keeps {s : State} (h : Keeps cs u s) (p : Pool) (hc : Within refillChanges cs) :
    Keeps cs u (State.refill s p) := by
  simp only [refillChanges, within_append] at hc
  obtain ⟨h0, h1⟩ := hc
  unfold State.refill
  repeat' first
    | with_reducible first
      | assumption | apply setPool_keeps | apply visitAll_keeps
    | intro _ | split | dsimp only

theorem putEntries_keeps {s : State} (h : Keeps cs u s) (p : Pool) (i : Nat) (hs : List Handle)
    (hc : Within putBlockChanges cs) :
    Keeps cs u (State.putEntries s p i hs) := by
  unfold State.putEntries
  repeat' first
    | with_reducible first
      | assumption | apply dramPut_keeps
    | intro _ | split | dsimp only

def flushChanges : List Comp :=
  setPoolChanges ++ putBlockChanges

theorem flush_keeps {s : State} (h : Keeps cs u s) (p : Pool) (hc : Within flushChanges cs) :
    Keeps cs u (State.flush s p) := by
  simp only [flushChanges, within_append] at hc
  obtain ⟨h0, h1⟩ := hc
  unfold State.flush
  repeat' first
    | with_reducible first
      | assumption | apply setPool_keeps | apply putEntries_keeps
    | intro _ | split | dsimp only

theorem allocFail_keeps {s : State} (h : Keeps cs u s) (p : Pool) (hc : Within setPoolChanges cs) :
    Keeps cs u (State.allocFail s p) := by
  unfold State.allocFail
  repeat' first
    | with_reducible first
      | assumption | apply setPool_keeps
    | intro _ | split | dsimp only

def takeHandleChanges : List Comp :=
  setPoolChanges ++ [.freeIdx, .reg .CISTERN_CNT_ALLOC]

theorem takeHandle_keeps {s : State} (h : Keeps cs u s) (p : Pool) (hc : Within takeHandleChanges cs) :
    Keeps cs u (State.takeHandle s p).2 := by
  simp only [takeHandleChanges, within_append] at hc
  obtain ⟨h0, hd⟩ := hc
  unfold State.takeHandle
  repeat' first
    | with_reducible first
      | assumption | apply allocFail_keeps | apply addTo_keeps | apply setPool_keeps
      | exact .inr (hd.of (by decide))
    | fail_if_no_progress with_reducible refine keeps_mk ?_ | intro _ | split | dsimp only

theorem takeHandle_keepsq {s : State} (h : Keeps cs u s) {p : Pool} (hc : Within takeHandleChanges cs) {r t}
    (e : State.takeHandle s p = (r, t)) :
    Keeps cs u t := by
  have := takeHandle_keeps h p hc
  rwa [e] at this

theorem refillUntil_keeps {s : State} (h : Keeps cs u s) (pool : Nat) (x2 : Nat) (hc : Within refillChanges cs) :
    Keeps cs u (State.refillUntil s pool x2) := by
  induction x2 generalizing s pool with
  | zero => exact h
  | succ y ih =>
    unfold State.refillUntil
    repeat' first
      | with_reducible first
        | assumption | apply ih | apply refill_keeps
      | intro _ | split | dsimp only

def allocChanges : List Comp :=
  setPoolChanges ++ refillChanges ++ takeHandleChanges

theorem alloc_keeps {s : State} (h : Keeps cs u s) (pool : Nat) (hc : Within allocChanges cs) :
    Keeps cs u (State.alloc s pool).2 := by
  simp only [allocChanges, within_append, and_assoc] at hc
  obtain ⟨h0, h1, h2⟩ := hc
  unfold State.alloc
  repeat' first
    | with_reducible first
      | assumption | apply allocFail_keeps | apply refillUntil_keeps | apply takeHandle_keeps
    | intro _ | split | dsimp only

theorem alloc_keepsq {s : State} (h : Keeps cs u s) {pool : Nat} (hc : Within allocChanges cs) {r t}
    (e : State.alloc s pool = (r, t)) :
    Keeps cs u t := by
  have := alloc_keeps h pool hc
  rwa [e] at this

def discardReleaseChanges : List Comp :=
  elogChanges ++ [.reg .CISTERN_CNT_DISCARD]

theorem discardRelease_keeps {s : State} (h : Keeps cs u s) (st : W16) (fn : Nat)
    (hc : Within discardReleaseChanges cs) :
    Keeps cs u (State.discardRelease s st fn) := by
  simp only [discardReleaseChanges, within_append] at hc
  obtain ⟨h0, hd⟩ := hc
  unfold State.discardRelease
  repeat' first
    | with_reducible first
      | assumption | apply elog_keeps | apply count_keeps | exact .inr (hd.of (by decide))
    | intro _ | split | dsimp only

def releaseChanges : List Comp :=
  discardReleaseChanges ++ flushChanges ++ setPoolChanges ++ [.reg .CISTERN_CNT_FREE]

theorem release_keeps {s : State} (h : Keeps cs u s) (x1 : Handle) (fn : Nat) (hc : Within releaseChanges cs) :
    Keeps cs u (State.release s x1 fn) := by
  simp only [releaseChanges, within_append, and_assoc] at hc
  obtain ⟨h0, h1, h2, hd⟩ := hc
  unfold State.release
  repeat' first
    | with_reducible first
      | assumption | apply discardRelease_keeps | apply flush_keeps | apply addTo_keeps | apply setPool_keeps
      | exact .inr (hd.of (by decide))
    | intro _ | split | dsimp only

theorem releaseAll_keeps {s : State} (h : Keeps cs u s) (fn : Nat) (x2 : List Handle) (hc : Within releaseChanges cs)
    :
    Keeps cs u (State.releaseAll s fn x2) := by
  induction x2 generalizing s fn with
  | nil => exact h
  | cons y ys ih =>
    unfold State.releaseAll
    repeat' first
      | with_reducible first
        | assumption | apply ih | apply release_keeps
      | intro _ | split | dsimp only

def initPoolChanges : List Comp :=
  setPoolChanges ++ putBlockChanges

theorem initPool_keeps {s : State} (h : Keeps cs u s) (p : Pool) (hc : Within initPoolChanges cs) :
    Keeps cs u (State.initPool s p) := by
  simp only [initPoolChanges, within_append] at hc
  obtain ⟨h0, h1⟩ := hc
  unfold State.initPool
  repeat' first
    | with_reducible first
      | assumption | apply setPool_keeps | apply dramPut_keeps
    | intro _ | split | dsimp only

def hostFreeChanges : List Comp :=
  discardReleaseChanges ++ releaseChanges

theorem hostFree_keeps {s : State} (h : Keeps cs u s) (fn : Nat) (v : W64) (hc : Within hostFreeChanges cs) :
    Keeps cs u (State.hostFree s fn v) := by
  simp only [hostFreeChanges, within_append] at hc
  obtain ⟨h0, h1⟩ := hc
  unfold State.hostFree
  repeat' first
    | with_reducible first
      | assumption | apply discardRelease_keeps | apply release_keeps
    | intro _ | split | dsimp only

/-! ## Machine/ConfigOps.lean -/

theorem putCfg_keeps {s : State} (h : Keeps cs u s) (fn : Nat) (o : Nat) (v : Byte) (hc : Within setFnChanges cs) :
    Keeps cs u (State.putCfg s fn o v) := by
  unfold State.putCfg
  repeat' first
    | with_reducible first
      | assumption | apply setFn_keeps
    | intro _ | split | dsimp only

theorem orCfg_keeps {s : State} (h : Keeps cs u s) (fn : Nat) (o : Nat) (v : Byte) (hc : Within setFnChanges cs) :
    Keeps cs u (State.orCfg s fn o v) := by
  unfold State.orCfg
  repeat' first
    | with_reducible first
      | assumption | apply putCfg_keeps
    | intro _ | split | dsimp only

theorem clearBar2_keeps {s : State} (h : Keeps cs u s) (hc : Within setFnChanges cs) :
    Keeps cs u (State.clearBar2 s) := by
  unfold State.clearBar2
  repeat' first
    | with_reducible first
      | assumption | apply setFn_keeps
    | intro _ | split | dsimp only

theorem cfgWriteByte_keeps {s : State} (h : Keeps cs u s) (fn : Nat) (o : Nat) (w : Byte)
    (hc : Within setFnChanges cs) :
    Keeps cs u (State.cfgWriteByte s fn o w) := by
  unfold State.cfgWriteByte
  repeat' first
    | with_reducible first
      | assumption | apply putCfg_keeps | apply clearBar2_keeps
    | intro _ | split | dsimp only

theorem cfgWriteList_keeps {s : State} (h : Keeps cs u s) (fn : Nat) (x2 : Nat) (x3 : List Byte)
    (hc : Within setFnChanges cs) :
    Keeps cs u (State.cfgWriteList s fn x2 x3) := by
  induction x3 generalizing s fn x2 with
  | nil => exact h
  | cons y ys ih =>
    unfold State.cfgWriteList
    repeat' first
      | with_reducible first
        | assumption | apply ih | apply cfgWriteByte_keeps
      | intro _ | split | dsimp only

theorem aerUncorrectable_keeps {s : State} (h : Keeps cs u s) (fn : Nat) (b : Nat) (hc : Within setFnChanges cs) :
    Keeps cs u (State.aerUncorrectable s fn b) := by
  unfold State.aerUncorrectable
  repeat' first
    | with_reducible first
      | assumption | apply orCfg_keeps
    | intro _ | split | dsimp only

theorem aerCorrectable_keeps {s : State} (h : Keeps cs u s) (fn : Nat) (b : Nat) (hc : Within setFnChanges cs) :
    Keeps cs u (State.aerCorrectable s fn b) := by
  unfold State.aerCorrectable
  repeat' first
    | with_reducible first
      | assumption | apply orCfg_keeps
    | intro _ | split | dsimp only

theorem aerAdvisory_keeps {s : State} (h : Keeps cs u s) (fn : Nat) (b : Nat) (hc : Within setFnChanges cs) :
    Keeps cs u (State.aerAdvisory s fn b) := by
  unfold State.aerAdvisory
  repeat' first
    | with_reducible first
      | assumption | apply aerCorrectable_keeps | apply aerUncorrectable_keeps
    | intro _ | split | dsimp only

theorem complete_keeps {s : State} (h : Keeps cs u s) (fn : Nat) (st : Cpl) (data : List Byte)
    (hc : Within sendChanges cs) :
    Keeps cs u (State.complete s fn st data) := by
  unfold State.complete
  repeat' first
    | with_reducible first
      | assumption | apply send_keeps
    | intro _ | split | dsimp only

def epWriteChanges : List Comp :=
  setFnChanges ++ [.reg .HEP_CNT_EP_RX]

theorem epWrite_keeps {s : State} (h : Keeps cs u s) (fn : Nat) (hc : Within epWriteChanges cs) :
    Keeps cs u (State.epWrite s fn) := by
  simp only [epWriteChanges, within_append] at hc
  obtain ⟨h0, hd⟩ := hc
  unfold State.epWrite
  repeat' first
    | with_reducible first
      | assumption | apply aerAdvisory_keeps | apply count_keeps | exact .inr (hd.of (by decide))
    | intro _ | split | dsimp only

/-! ## Machine/DramReqs.lean -/

def portReadChanges : List Comp :=
  blockReadChanges ++ keepFindChanges

theorem portRead_keeps {s : State} (h : Keeps cs u s) (port : Nat) (b : Nat) (firstBad : Bool) (secondBad : Bool)
    (second : List Byte) (hc : Within portReadChanges cs) :
    Keeps cs u (State.portRead s port b firstBad secondBad second) := by
  simp only [portReadChanges, within_append] at hc
  obtain ⟨h0, h1⟩ := hc
  unfold State.portRead
  repeat' first
    | with_reducible first
      | assumption | apply blockRead_keeps | apply keepFind_keeps
    | intro _ | split | dsimp only

theorem portWrite_keeps {s : State} (h : Keeps cs u s) (port : Nat) (b : Nat) (data : List Byte)
    (hc : Within putBlockChanges cs) :
    Keeps cs u (State.portWrite s port b data) := by
  unfold State.portWrite
  repeat' first
    | with_reducible first
      | assumption | apply putBlock_keeps
    | intro _ | split | dsimp only

def portPartChanges : List Comp :=
  blockReadChanges ++ dmcLogChanges ++ countWriteChanges ++ [.dramBytes]

theorem portPart_keeps {s : State} (h : Keeps cs u s) (port : Nat) (addr : Nat) (data : List Byte) (firstBad : Bool)
    (secondBad : Bool) (second : List Byte) (hc : Within portPartChanges cs) :
    Keeps cs u (State.portPart s port addr data firstBad secondBad second) := by
  simp only [portPartChanges, within_append, and_assoc] at hc
  obtain ⟨h0, h1, h2, hd⟩ := hc
  unfold State.portPart
  repeat' first
    | with_reducible first
      | assumption | apply blockRead_keeps | apply dmcLog_keeps | apply countWrite_keeps
      | apply setDramBytes_keeps | exact hd.of (by decide) | exact Mem.wf_writeList _ _ _
    | intro _ | split | dsimp only

def bar2ReadChanges : List Comp :=
  sendChanges ++ visitBlockChanges ++ [.freeIdx, .reg .HEP_CNT_EP_TX]

theorem bar2Read_keeps {s : State} (h : Keeps cs u s) (a : Nat) (n : Nat) (hc : Within bar2ReadChanges cs) :
    Keeps cs u (State.bar2Read s a n) := by
  simp only [bar2ReadChanges, within_append, and_assoc] at hc
  obtain ⟨h0, h1, hd⟩ := hc
  unfold State.bar2Read
  repeat' first
    | with_reducible first
      | assumption | apply complete_keeps | apply visitAll_keeps | apply count_keeps
      | exact .inr (hd.of (by decide))
    | fail_if_no_progress with_reducible refine keeps_mk ?_ | intro _ | split | dsimp only

def putListChanges : List Comp := [.dramBytes]

theorem putList_keeps {s : State} (h : Keeps cs u s) (x1 : List (Nat × Byte)) (hd : Within putListChanges cs) :
    Keeps cs u (State.putList s x1) := by
  induction x1 generalizing s with
  | nil => exact h
  | cons y ys ih =>
    unfold State.putList
    repeat' first
      | with_reducible first
        | assumption | apply ih | apply setDramBytes_keeps | exact hd.of (by decide) | exact Mem.wf_write _ _
      | intro _ | split | dsimp only

def bar2BlockChanges : List Comp :=
  countWriteChanges ++ putListChanges ++ mergeReadChanges ++ setFnChanges ++ dmcLogChanges ++
    [.reg .HEP_CNT_PWDISC, .reg .HEP_LAST_PWDISC, .dramPoison, .dramFinds]

theorem bar2Block_keeps {s : State} (h : Keeps cs u s) (ep : Bool) (part : List (Nat × Byte))
    (hc : Within bar2BlockChanges cs) :
    Keeps cs u (State.bar2Block s ep part) := by
  simp only [bar2BlockChanges, within_append, and_assoc] at hc
  obtain ⟨h0, h1, h2, h3, h4, hd⟩ := hc
  unfold State.bar2Block
  repeat' first
    | with_reducible first
      | assumption | apply countWrite_keeps | apply setPoison_keeps | apply putList_keeps | apply mergeRead_keeps
      | apply aerCorrectable_keeps | apply setReg_keeps | apply count_keeps | apply dmcLog_keeps
      | exact hd.of (by decide) | exact .inr (hd.of (by decide))
    | intro _ | split | dsimp only

theorem bar2Blocks_keeps {s : State} (h : Keeps cs u s) (ep : Bool) (bytes : List (Nat × Byte)) (b : Nat) (x4 : Nat)
    (hc : Within bar2BlockChanges cs) :
    Keeps cs u (State.bar2Blocks s ep bytes b x4) := by
  induction x4 generalizing s ep bytes b with
  | zero => exact h
  | succ y ih =>
    unfold State.bar2Blocks
    repeat' first
      | with_reducible first
        | assumption | apply ih | apply bar2Block_keeps
      | intro _ | split | dsimp only

def bar2WriteChanges : List Comp :=
  epWriteChanges ++ bar2BlockChanges ++ [.freeIdx]

theorem bar2Write_keeps {s : State} (h : Keeps cs u s) (a : Nat) (data : List Byte) (ep : Bool)
    (hc : Within bar2WriteChanges cs) :
    Keeps cs u (State.bar2Write s a data ep) := by
  simp only [bar2WriteChanges, within_append, and_assoc] at hc
  obtain ⟨h0, h1, hd⟩ := hc
  unfold State.bar2Write
  repeat' first
    | with_reducible first
      | assumption | apply epWrite_keeps | apply bar2Blocks_keeps
    | fail_if_no_progress with_reducible refine keeps_mk ?_ | intro _ | split | dsimp only

def performChanges : List Comp :=
  portReadChanges ++ putBlockChanges ++ portPartChanges ++ bar2ReadChanges ++ bar2WriteChanges

theorem perform_keeps {s : State} (h : Keeps cs u s) (x1 : DramReq) (hc : Within performChanges cs) :
    Keeps cs u (State.perform s x1) := by
  simp only [performChanges, within_append, and_assoc] at hc
  obtain ⟨h0, h1, h2, h3, h4⟩ := hc
  unfold State.perform
  repeat' first
    | with_reducible first
      | assumption | apply portRead_keeps | apply portWrite_keeps | apply portPart_keeps | apply bar2Read_keeps
      | apply bar2Write_keeps
    | intro _ | split | dsimp only

def holdChanges : List Comp := [.dramHeld]

theorem hold_keeps {s : State} (h : Keeps cs u s) (q : DramReq) (hd : Within holdChanges cs) :
    Keeps cs u (State.hold s q) := by
  unfold State.hold
  repeat' first
    | with_reducible first
      | assumption
    | fail_if_no_progress with_reducible refine keeps_mk ?_ | intro _ | split | dsimp only

def requestChanges : List Comp :=
  performChanges ++ holdChanges

theorem request_keeps {s : State} (h : Keeps cs u s) (q : DramReq) (hc : Within requestChanges cs) :
    Keeps cs u (State.request s q) := by
  simp only [requestChanges, within_append] at hc
  obtain ⟨h0, h1⟩ := hc
  unfold State.request
  repeat' first
    | with_reducible first
      | assumption | apply perform_keeps | apply hold_keeps
    | intro _ | split | dsimp only

theorem requests_keeps {s : State} (h : Keeps cs u s) (x1 : List DramReq) (hc : Within requestChanges cs) :
    Keeps cs u (State.requests s x1) := by
  induction x1 generalizing s with
  | nil => exact h
  | cons y ys ih =>
    unfold State.requests
    repeat' first
      | with_reducible first
        | assumption | apply ih | apply request_keeps
      | intro _ | split | dsimp only

def releasePortsChanges : List Comp :=
  requestChanges ++ [.dramHeld]

theorem releasePorts_keeps {s : State} (h : Keeps cs u s) (hc : Within releasePortsChanges cs) :
    Keeps cs u (State.releasePorts s) := by
  simp only [releasePortsChanges, within_append] at hc
  obtain ⟨h0, hd⟩ := hc
  unfold State.releasePorts
  repeat' first
    | with_reducible first
      | assumption | apply requests_keeps
    | fail_if_no_progress with_reducible refine keeps_mk ?_ | intro _ | split | dsimp only

end Sys2Proof.Machine
end

