-- ==== Sys2Proof/Laws/KeepsPower.lean ====
section
/-! SUPPORT. What the functions of the DRAM commands and Weir keep and change (Laws/Keeps.lean). -/

set_option Elab.async false

namespace Sys2Proof.Machine

set_option linter.unreachableTactic false
set_option linter.unusedTactic false

variable {cs : Comp → Prop} {u : State}

/-! ## Machine/DramCmds.lean -/

def execDramReadChanges : List Comp :=
  portReadChanges ++ holdChanges

theorem execDramRead_keeps {s : State} (h : Keeps cs u s) (port : Nat) (block : Nat) (firstBad : Bool)
    (secondBad : Bool) (second : List Byte) (hc : Within execDramReadChanges cs) :
    KeepsOut cs u (execDramRead port block firstBad secondBad second s) := by
  simp only [execDramReadChanges, within_append] at hc
  obtain ⟨h0, h1⟩ := hc
  unfold execDramRead
  repeat' first
    | with_reducible first
      | assumption | apply KeepsOut.next | apply when_keeps | apply portRead_keeps | apply hold_keeps
    | intro _ | split | dsimp only

def execDramWriteChanges : List Comp :=
  putBlockChanges ++ holdChanges

theorem execDramWrite_keeps {s : State} (h : Keeps cs u s) (port : Nat) (block : Nat) (data : List Byte)
    (hc : Within execDramWriteChanges cs) :
    KeepsOut cs u (execDramWrite port block data s) := by
  simp only [execDramWriteChanges, within_append] at hc
  obtain ⟨h0, h1⟩ := hc
  unfold execDramWrite
  repeat' first
    | with_reducible first
      | assumption | apply KeepsOut.next | apply when_keeps | apply portWrite_keeps | apply hold_keeps
    | intro _ | split | dsimp only

def execPartialWriteChanges : List Comp :=
  portPartChanges ++ holdChanges

theorem execPartialWrite_keeps {s : State} (h : Keeps cs u s) (port : Nat) (addr : Nat) (data : List Byte)
    (firstBad : Bool) (secondBad : Bool) (second : List Byte) (hc : Within execPartialWriteChanges cs) :
    KeepsOut cs u (execPartialWrite port addr data firstBad secondBad second s) := by
  simp only [execPartialWriteChanges, within_append] at hc
  obtain ⟨h0, h1⟩ := hc
  unfold execPartialWrite
  repeat' first
    | with_reducible first
      | assumption | apply KeepsOut.next | apply when_keeps | apply portPart_keeps | apply hold_keeps
    | intro _ | split | dsimp only

theorem execBankRefresh_keeps {s : State} (h : Keeps cs u s) (channel : Nat) (bank : Nat)
    (hc : Within setDmcChanges cs) :
    KeepsOut cs u (execBankRefresh channel bank s) := by
  unfold execBankRefresh
  repeat' first
    | with_reducible first
      | assumption | apply KeepsOut.next | apply when_keeps | apply setDmc_keeps
    | intro _ | split | dsimp only

def execSelfRefreshEntryChanges : List Comp := [.devDramMode]

theorem execSelfRefreshEntry_keeps {s : State} (h : Keeps cs u s) (hd : Within execSelfRefreshEntryChanges cs) :
    KeepsOut cs u (execSelfRefreshEntry s) := by
  unfold execSelfRefreshEntry
  repeat' first
    | with_reducible first
      | assumption | apply KeepsOut.next | apply when_keeps
    | fail_if_no_progress with_reducible refine keeps_mk ?_ | intro _ | split | dsimp only

def recalStatusChanges : List Comp := [.reg .DMC_RECAL_STATUS]

theorem recalStatus_keeps {s : State} (h : Keeps cs u s) (d : Nat) (st : W16) (hd : Within recalStatusChanges cs) :
    Keeps cs u (State.recalStatus s d st) := by
  unfold State.recalStatus
  repeat' first
    | with_reducible first
      | assumption | apply setReg_keeps | exact .inr (hd.of (by decide))
    | intro _ | split | dsimp only

def calTempChanges : List Comp := [.reg .DMC_TEMP_CAL]

theorem calTemp_keeps {s : State} (h : Keeps cs u s) (d : Nat) (g : Nat) (hd : Within calTempChanges cs) :
    Keeps cs u (State.calTemp s d g) := by
  unfold State.calTemp
  repeat' first
    | with_reducible first
      | assumption | apply updReg_keeps | exact .inr (hd.of (by decide))
    | intro _ | split | dsimp only

def recalStartChanges : List Comp :=
  recalStatusChanges ++ setDmcChanges

theorem recalStart_keeps {s : State} (h : Keeps cs u s) (d : Nat) (g : Nat) (hc : Within recalStartChanges cs) :
    Keeps cs u (State.recalStart s d g) := by
  simp only [recalStartChanges, within_append] at hc
  obtain ⟨h0, h1⟩ := hc
  unfold State.recalStart
  repeat' first
    | with_reducible first
      | assumption | apply when_keeps | apply recalStatus_keeps | apply setDmc_keeps
    | intro _ | split | dsimp only

def recalEndChanges : List Comp :=
  releasePortsChanges ++ calTempChanges ++ recalStatusChanges ++ setDmcChanges

theorem recalEnd_keeps {s : State} (h : Keeps cs u s) (d : Nat) (hc : Within recalEndChanges cs) :
    Keeps cs u (State.recalEnd s d) := by
  simp only [recalEndChanges, within_append, and_assoc] at hc
  obtain ⟨h0, h1, h2, h3⟩ := hc
  unfold State.recalEnd
  repeat' first
    | with_reducible first
      | assumption | apply releasePorts_keeps | apply calTemp_keeps | apply recalStatus_keeps | apply setDmc_keeps
    | intro _ | split | dsimp only

def recalStopChanges : List Comp :=
  releasePortsChanges ++ recalStatusChanges ++ setDmcChanges ++ [.regs]

theorem putRegs_wf {m : SMap W64} (x : SMap W32) (h : SMap.wf regDefault m = true) :
    SMap.wf regDefault (putRegs m x) = true := by
  induction x generalizing m with
  | nil => exact h
  | cons y ys ih => exact ih (SMap.wf_set _ _ h)

theorem recalStop_keeps {s : State} (h : Keeps cs u s) (d : Nat) (st : W16) (hc : Within recalStopChanges cs) :
    Keeps cs u (State.recalStop s d st) := by
  simp only [recalStopChanges, within_append, and_assoc] at hc
  obtain ⟨h0, h1, h2, hd⟩ := hc
  unfold State.recalStop
  repeat' first
    | with_reducible first
      | assumption | apply releasePorts_keeps | apply recalStatus_keeps | apply setDmc_keeps
      | refine keeps_regs h _ ?_ ?_ | exact hd.of (by decide) | exact .inl (hd.of (by decide))
    | exact fun m => putRegs_wf _ (SMap.wf_keep _ m) | intro _ | split | dsimp only

theorem execRecalStart_keeps {s : State} (h : Keeps cs u s) (dmc : Nat) (group : Nat)
    (hc : Within recalStartChanges cs) :
    KeepsOut cs u (execRecalStart dmc group s) := by
  unfold execRecalStart
  repeat' first
    | with_reducible first
      | assumption | apply KeepsOut.next | apply recalStart_keeps
    | intro _ | split | dsimp only

theorem execRecalEnd_keeps {s : State} (h : Keeps cs u s) (dmc : Nat) (hc : Within recalEndChanges cs) :
    KeepsOut cs u (execRecalEnd dmc s) := by
  unfold execRecalEnd
  repeat' first
    | with_reducible first
      | assumption | apply KeepsOut.next | apply recalEnd_keeps
    | intro _ | split | dsimp only

theorem execRecalTimeout_keeps {s : State} (h : Keeps cs u s) (dmc : Nat) (hc : Within recalStopChanges cs) :
    KeepsOut cs u (execRecalTimeout dmc s) := by
  unfold execRecalTimeout
  repeat' first
    | with_reducible first
      | assumption | apply KeepsOut.next | apply when_keeps | apply recalStop_keeps
    | intro _ | split | dsimp only

def recalCtrlChanges : List Comp :=
  recalStartChanges ++ recalEndChanges

theorem recalCtrl_keeps {s : State} (h : Keeps cs u s) (d : Nat) (v : Nat) (hc : Within recalCtrlChanges cs) :
    Keeps cs u (State.recalCtrl s d v) := by
  simp only [recalCtrlChanges, within_append] at hc
  obtain ⟨h0, h1⟩ := hc
  unfold State.recalCtrl
  repeat' first
    | with_reducible first
      | assumption | apply recalStart_keeps | apply recalEnd_keeps
    | intro _ | split | dsimp only

theorem train_keeps {s : State} (h : Keeps cs u s) (d : Nat) (channel : Nat) (pattern : Nat)
    (hc : Within setDmcChanges cs) :
    Keeps cs u (State.train s d channel pattern) := by
  unfold State.train
  repeat' first
    | with_reducible first
      | assumption | apply when_keeps | apply setDmc_keeps
    | intro _ | split | dsimp only

theorem execTrainingCommand_keeps {s : State} (h : Keeps cs u s) (dmc : Nat) (channel : Nat) (pattern : Nat)
    (hc : Within setDmcChanges cs) :
    KeepsOut cs u (execTrainingCommand dmc channel pattern s) := by
  unfold execTrainingCommand
  repeat' first
    | with_reducible first
      | assumption | apply KeepsOut.next | apply train_keeps
    | intro _ | split | dsimp only

theorem trainCtrl_keeps {s : State} (h : Keeps cs u s) (d : Nat) (v : Nat) (hc : Within setDmcChanges cs) :
    Keeps cs u (State.trainCtrl s d v) := by
  unfold State.trainCtrl
  repeat' first
    | with_reducible first
      | assumption | apply train_keeps
    | intro _ | split | dsimp only

def putPassChanges : List Comp := [.reg .DMC_TRAIN_PASS]

theorem putPass_keeps {s : State} (h : Keeps cs u s) (d : Nat) (pass : BitVec 136) (x3 : Nat)
    (hd : Within putPassChanges cs) :
    Keeps cs u (State.putPass s d pass x3) := by
  induction x3 generalizing s d pass with
  | zero => exact h
  | succ y ih =>
    unfold State.putPass
    repeat' first
      | with_reducible first
        | assumption | apply ih | apply setReg_keeps | exact .inr (hd.of (by decide))
      | intro _ | split | dsimp only

def execTrainingCompleteChanges : List Comp :=
  putPassChanges ++ setDmcChanges

theorem execTrainingComplete_keeps {s : State} (h : Keeps cs u s) (dmc : Nat) (pass : BitVec 136)
    (hc : Within execTrainingCompleteChanges cs) :
    KeepsOut cs u (execTrainingComplete dmc pass s) := by
  simp only [execTrainingCompleteChanges, within_append] at hc
  obtain ⟨h0, h1⟩ := hc
  unfold execTrainingComplete
  repeat' first
    | with_reducible first
      | assumption | apply KeepsOut.next | apply when_keeps | apply putPass_keeps | apply setDmc_keeps
    | intro _ | split | dsimp only

def writeDelayChanges : List Comp := [.regs, .reg .DMC_STATUS]

theorem writeDelay_keeps {s : State} (h : Keeps cs u s) (l : RegLoc) (v : W64) (hd : Within writeDelayChanges cs) :
    Keeps cs u (State.writeDelay s l v) := by
  unfold State.writeDelay
  repeat' first
    | with_reducible first
      | assumption | apply setReg_keeps | apply updReg_keeps | exact .inr (hd.of (by decide))
      | exact .inl (hd.of (by decide))
    | intro _ | split | dsimp only

theorem execDelayRegisterWrite_keeps {s : State} (h : Keeps cs u s) (off : Nat) (val : W32)
    (hc : Within writeDelayChanges cs) :
    KeepsOut cs u (execDelayRegisterWrite off val s) := by
  unfold execDelayRegisterWrite
  repeat' first
    | with_reducible first
      | assumption | apply KeepsOut.next | apply when_keeps | apply writeDelay_keeps
    | intro _ | split | dsimp only

def execTempDriftChanges : List Comp :=
  edgeChanges ++ [.reg .DMC_TEMP]

theorem execTempDrift_keeps {s : State} (h : Keeps cs u s) (dmc : Nat) (group : Nat) (temp : Nat)
    (hc : Within execTempDriftChanges cs) :
    KeepsOut cs u (execTempDrift dmc group temp s) := by
  simp only [execTempDriftChanges, within_append] at hc
  obtain ⟨h0, hd⟩ := hc
  unfold execTempDrift
  repeat' first
    | with_reducible first
      | assumption | apply KeepsOut.next | apply when_keeps | apply updReg_keeps | apply raise_keeps
      | exact .inr (hd.of (by decide))
    | intro _ | split | dsimp only

/-! ## Machine/WeirCmds.lean -/

def setRailChanges : List Comp := [.devPins, .weirRailMv]

theorem setRail_keeps {s : State} (h : Keeps cs u s) (mv : Int) (hd : Within setRailChanges cs) :
    Keeps cs u (State.setRail s mv) := by
  unfold State.setRail
  repeat' first
    | with_reducible first
      | assumption
    | fail_if_no_progress with_reducible refine keeps_mk ?_ | intro _ | split | dsimp only

theorem settleRail_keeps {s : State} (h : Keeps cs u s) (hc : Within setRailChanges cs) :
    Keeps cs u (State.settleRail s) := by
  unfold State.settleRail
  repeat' first
    | with_reducible first
      | assumption | apply setRail_keeps
    | intro _ | split | dsimp only

def repointChanges : List Comp :=
  setRailChanges ++ setClPwrChanges

theorem repoint_keeps {s : State} (h : Keeps cs u s) (n : Nat) (hc : Within repointChanges cs) :
    Keeps cs u (State.repoint s n) := by
  simp only [repointChanges, within_append] at hc
  obtain ⟨h0, h1⟩ := hc
  unfold State.repoint
  repeat' first
    | with_reducible first
      | assumption | apply settleRail_keeps | apply setClPwr_keeps
    | intro _ | split | dsimp only

theorem repointAll_keeps {s : State} (h : Keeps cs u s) (x1 : List Nat) (hc : Within repointChanges cs) :
    Keeps cs u (State.repointAll s x1) := by
  induction x1 generalizing s with
  | nil => exact h
  | cons y ys ih =>
    unfold State.repointAll
    repeat' first
      | with_reducible first
        | assumption | apply ih | apply repoint_keeps
      | intro _ | split | dsimp only

def setSprintChanges : List Comp := [.weirSprint]

theorem setSprint_keeps {s : State} (h : Keeps cs u s) (p : Sprint) (hd : Within setSprintChanges cs) :
    Keeps cs u (State.setSprint s p) := by
  unfold State.setSprint
  repeat' first
    | with_reducible first
      | assumption
    | fail_if_no_progress with_reducible refine keeps_mk ?_ | intro _ | split | dsimp only

theorem leaveSprint_keeps {s : State} (h : Keeps cs u s) (x1 : List Nat) (hc : Within setClPwrChanges cs) :
    Keeps cs u (State.leaveSprint s x1) := by
  induction x1 generalizing s with
  | nil => exact h
  | cons y ys ih =>
    unfold State.leaveSprint
    repeat' first
      | with_reducible first
        | assumption | apply ih | apply setClPwr_keeps
      | intro _ | split | dsimp only

def sprintEndChanges : List Comp :=
  setSprintChanges ++ edgeChanges ++ powerStatusChanges ++ setRailChanges ++ setClPwrChanges ++ elogChanges

theorem sprintEnd_keeps {s : State} (h : Keeps cs u s) (st : W16) (detail : Nat) (hc : Within sprintEndChanges cs) :
    Keeps cs u (State.sprintEnd s st detail) := by
  simp only [sprintEndChanges, within_append, and_assoc] at hc
  obtain ⟨h0, h1, h2, h3, h4, h5⟩ := hc
  unfold State.sprintEnd
  repeat' first
    | with_reducible first
      | assumption | apply when_keeps | apply setSprint_keeps | apply raise_keeps | apply powerStatus_keeps
      | apply settleRail_keeps | apply leaveSprint_keeps | apply elog_keeps
    | intro _ | split | dsimp only

theorem sprintCheck_keeps {s : State} (h : Keeps cs u s) (hc : Within sprintEndChanges cs) :
    Keeps cs u (State.sprintCheck s) := by
  unfold State.sprintCheck
  repeat' first
    | with_reducible first
      | assumption | apply sprintEnd_keeps
    | intro _ | split | dsimp only

def execOperatingPointChangeChanges : List Comp :=
  sprintEndChanges ++ repointChanges

theorem execOperatingPointChange_keeps {s : State} (h : Keeps cs u s) (cluster : Nat)
    (hc : Within execOperatingPointChangeChanges cs) :
    KeepsOut cs u (execOperatingPointChange cluster s) := by
  simp only [execOperatingPointChangeChanges, within_append] at hc
  obtain ⟨h0, h1⟩ := hc
  unfold execOperatingPointChange
  repeat' first
    | with_reducible first
      | assumption | apply KeepsOut.next | apply when_keeps | apply sprintCheck_keeps | apply repoint_keeps
    | intro _ | split | dsimp only

def execClockSwitchChanges : List Comp :=
  sprintEndChanges ++ setRailChanges ++ setClPwrChanges

theorem execClockSwitch_keeps {s : State} (h : Keeps cs u s) (cluster : Nat) (hc : Within execClockSwitchChanges cs) :
    KeepsOut cs u (execClockSwitch cluster s) := by
  simp only [execClockSwitchChanges, within_append, and_assoc] at hc
  obtain ⟨h0, h1, h2⟩ := hc
  unfold execClockSwitch
  repeat' first
    | with_reducible first
      | assumption | apply KeepsOut.next | apply when_keeps | apply sprintCheck_keeps | apply settleRail_keeps
      | apply setClPwr_keeps
    | intro _ | split | dsimp only

def execSprintEntryChanges : List Comp :=
  powerStatusChanges ++ setSprintChanges ++ repointChanges ++ [.reg .WEIR_CNT_SPRINT]

theorem execSprintEntry_keeps {s : State} (h : Keeps cs u s) (hc : Within execSprintEntryChanges cs) :
    KeepsOut cs u (execSprintEntry s) := by
  simp only [execSprintEntryChanges, within_append, and_assoc] at hc
  obtain ⟨h0, h1, h2, hd⟩ := hc
  unfold execSprintEntry
  repeat' first
    | with_reducible first
      | assumption | apply KeepsOut.next | apply when_keeps | apply powerStatus_keeps | apply setSprint_keeps
      | apply repointAll_keeps | apply addTo_keeps | exact .inr (hd.of (by decide))
    | intro _ | split | dsimp only

def execSprintBudgetTickChanges : List Comp :=
  setSprintChanges ++ sprintEndChanges ++ [.reg .WEIR_CNT_SPRINT_US]

theorem execSprintBudgetTick_keeps {s : State} (h : Keeps cs u s) (hc : Within execSprintBudgetTickChanges cs) :
    KeepsOut cs u (execSprintBudgetTick s) := by
  simp only [execSprintBudgetTickChanges, within_append, and_assoc] at hc
  obtain ⟨h0, h1, hd⟩ := hc
  unfold execSprintBudgetTick
  repeat' first
    | with_reducible first
      | assumption | apply KeepsOut.next | apply when_keeps | apply setSprint_keeps | apply addTo_keeps
      | apply sprintEnd_keeps | exact .inr (hd.of (by decide))
    | intro _ | split | dsimp only

theorem execExcursionLimit_keeps {s : State} (h : Keeps cs u s) (ampsMilli : Nat) (us : Nat)
    (hc : Within sprintEndChanges cs) :
    KeepsOut cs u (execExcursionLimit ampsMilli us s) := by
  unfold execExcursionLimit
  repeat' first
    | with_reducible first
      | assumption | apply KeepsOut.next | apply when_keeps | apply sprintEnd_keeps
    | intro _ | split | dsimp only

def execResidencyBinTickChanges : List Comp :=
  setSprintChanges ++ sprintEndChanges

theorem execResidencyBinTick_keeps {s : State} (h : Keeps cs u s) (minute : Nat)
    (hc : Within execResidencyBinTickChanges cs) :
    KeepsOut cs u (execResidencyBinTick minute s) := by
  simp only [execResidencyBinTickChanges, within_append] at hc
  obtain ⟨h0, h1⟩ := hc
  unfold execResidencyBinTick
  repeat' first
    | with_reducible first
      | assumption | apply KeepsOut.next | apply when_keeps | apply setSprint_keeps | apply sprintEnd_keeps
    | intro _ | split | dsimp only

def chargeChanges : List Comp := [.freeIdx, .reg .WEIR_CTX_UJ, .reg .WEIR_E_IDLE_UJ]

theorem charge_keeps {s : State} (h : Keeps cs u s) (uj : Nat) (x2 : List Nat) (hd : Within chargeChanges cs) :
    Keeps cs u (State.charge s uj x2) := by
  induction x2 generalizing s uj with
  | nil =>
    unfold State.charge
    repeat' first
      | with_reducible first
        | assumption | apply ih | apply addTo_keeps | apply updReg_keeps | exact .inr (hd.of (by decide))
      | fail_if_no_progress with_reducible refine keeps_mk ?_ | intro _ | split | dsimp only
  | cons y ys ih =>
    unfold State.charge
    repeat' first
      | with_reducible first
        | assumption | apply ih | apply addTo_keeps | apply updReg_keeps | exact .inr (hd.of (by decide))
      | fail_if_no_progress with_reducible refine keeps_mk ?_ | intro _ | split | dsimp only

def execPowerSampleChanges : List Comp :=
  chargeChanges ++ [.reg .WEIR_E_DEVICE_UJ, .weirSampleMw]

theorem execPowerSample_keeps {s : State} (h : Keeps cs u s) (mw : Nat) (energyUj : Nat)
    (hc : Within execPowerSampleChanges cs) :
    KeepsOut cs u (execPowerSample mw energyUj s) := by
  simp only [execPowerSampleChanges, within_append] at hc
  obtain ⟨h0, hd⟩ := hc
  unfold execPowerSample
  repeat' first
    | with_reducible first
      | assumption | apply KeepsOut.next | apply when_keeps | apply charge_keeps | apply addTo_keeps
      | exact .inr (hd.of (by decide))
    | fail_if_no_progress with_reducible refine keeps_mk ?_ | intro _ | split | dsimp only

theorem setCeiling_keeps {s : State} (h : Keeps cs u s) (p : Nat) (x2 : List Nat) (hc : Within setClPwrChanges cs) :
    Keeps cs u (State.setCeiling s p x2) := by
  induction x2 generalizing s p with
  | nil => exact h
  | cons y ys ih =>
    unfold State.setCeiling
    repeat' first
      | with_reducible first
        | assumption | apply ih | apply setClPwr_keeps
      | intro _ | split | dsimp only

def setDutyChanges : List Comp := [.weirDuty]

theorem setDuty_keeps {s : State} (h : Keeps cs u s) (d : Nat) (hd : Within setDutyChanges cs) :
    Keeps cs u (State.setDuty s d) := by
  unfold State.setDuty
  repeat' first
    | with_reducible first
      | assumption
    | fail_if_no_progress with_reducible refine keeps_mk ?_ | intro _ | split | dsimp only

def execCapAdjustChanges : List Comp :=
  repointChanges ++ setDutyChanges ++ setClPwrChanges ++ sprintEndChanges

theorem execCapAdjust_keeps {s : State} (h : Keeps cs u s) (hc : Within execCapAdjustChanges cs) :
    KeepsOut cs u (execCapAdjust s) := by
  simp only [execCapAdjustChanges, within_append, and_assoc] at hc
  obtain ⟨h0, h1, h2, h3⟩ := hc
  unfold execCapAdjust
  repeat' first
    | with_reducible first
      | assumption | apply KeepsOut.next | apply when_keeps | apply repointAll_keeps | apply setDuty_keeps
      | apply setCeiling_keeps | apply sprintCheck_keeps
    | intro _ | split | dsimp only

def execCapWindowEndChanges : List Comp :=
  powerStatusChanges ++ elogChanges ++ edgeChanges ++
    [.reg .WEIR_CNT_CAPMISS, .weirLastMissNs, .weirPowerMw, .weirSwitched]

theorem execCapWindowEnd_keeps {s : State} (h : Keeps cs u s) (mw : Nat) (hc : Within execCapWindowEndChanges cs) :
    KeepsOut cs u (execCapWindowEnd mw s) := by
  simp only [execCapWindowEndChanges, within_append, and_assoc] at hc
  obtain ⟨h0, h1, h2, hd⟩ := hc
  unfold execCapWindowEnd
  repeat' first
    | with_reducible first
      | assumption | apply KeepsOut.next | apply when_keeps | apply powerStatus_keeps | apply elog_keeps
      | apply count_keeps | apply raise_keeps | exact .inr (hd.of (by decide))
    | fail_if_no_progress with_reducible refine keeps_mk ?_ | intro _ | split | dsimp only

theorem stopClusters_keeps {s : State} (h : Keeps cs u s) (x1 : List Nat) (hc : Within setClPwrChanges cs) :
    Keeps cs u (State.stopClusters s x1) := by
  induction x1 generalizing s with
  | nil => exact h
  | cons y ys ih =>
    unfold State.stopClusters
    repeat' first
      | with_reducible first
        | assumption | apply ih | apply setClPwr_keeps
      | intro _ | split | dsimp only

def setPinsChanges : List Comp := [.devPins]

theorem setPins_keeps {s : State} (h : Keeps cs u s) (p : Pins) (hd : Within setPinsChanges cs) :
    Keeps cs u (State.setPins s p) := by
  unfold State.setPins
  repeat' first
    | with_reducible first
      | assumption
    | fail_if_no_progress with_reducible refine keeps_mk ?_ | intro _ | split | dsimp only

def brakeOnChanges : List Comp :=
  sprintEndChanges ++ elogChanges ++ powerStatusChanges ++ setClPwrChanges ++
    [.reg .WEIR_CNT_BRAKE, .weirBrake, .weirRestart]

theorem brakeOn_keeps {s : State} (h : Keeps cs u s) (hc : Within brakeOnChanges cs) :
    Keeps cs u (State.brakeOn s) := by
  simp only [brakeOnChanges, within_append, and_assoc] at hc
  obtain ⟨h0, h1, h2, h3, hd⟩ := hc
  unfold State.brakeOn
  repeat' first
    | with_reducible first
      | assumption | apply when_keeps | apply sprintEnd_keeps | apply elog_keeps | apply powerStatus_keeps
      | apply count_keeps | apply stopClusters_keeps | exact .inr (hd.of (by decide))
    | fail_if_no_progress with_reducible refine keeps_mk ?_ | intro _ | split | dsimp only

def brakeOffChanges : List Comp := [.weirBrake, .weirRestart]

theorem brakeOff_keeps {s : State} (h : Keeps cs u s) (hd : Within brakeOffChanges cs) :
    Keeps cs u (State.brakeOff s) := by
  unfold State.brakeOff
  repeat' first
    | with_reducible first
      | assumption | apply when_keeps
    | fail_if_no_progress with_reducible refine keeps_mk ?_ | intro _ | split | dsimp only

def execBrakeAssertChanges : List Comp :=
  setPinsChanges ++ brakeOnChanges ++ edgeChanges

theorem execBrakeAssert_keeps {s : State} (h : Keeps cs u s) (hc : Within execBrakeAssertChanges cs) :
    KeepsOut cs u (execBrakeAssert s) := by
  simp only [execBrakeAssertChanges, within_append, and_assoc] at hc
  obtain ⟨h0, h1, h2⟩ := hc
  unfold execBrakeAssert
  repeat' first
    | with_reducible first
      | assumption | apply KeepsOut.next | apply when_keeps | apply setPins_keeps | apply brakeOn_keeps
      | apply edge_keeps
    | intro _ | split | dsimp only

def execBrakeDeassertChanges : List Comp :=
  setPinsChanges ++ brakeOffChanges ++ edgeChanges

theorem execBrakeDeassert_keeps {s : State} (h : Keeps cs u s) (hc : Within execBrakeDeassertChanges cs) :
    KeepsOut cs u (execBrakeDeassert s) := by
  simp only [execBrakeDeassertChanges, within_append, and_assoc] at hc
  obtain ⟨h0, h1, h2⟩ := hc
  unfold execBrakeDeassert
  repeat' first
    | with_reducible first
      | assumption | apply KeepsOut.next | apply when_keeps | apply setPins_keeps | apply brakeOff_keeps
      | apply edge_keeps
    | intro _ | split | dsimp only

def execClusterRestartChanges : List Comp :=
  setClPwrChanges ++ setRailChanges ++ setCoreChanges ++ [.weirRestart]

theorem execClusterRestart_keeps {s : State} (h : Keeps cs u s) (cluster : Nat)
    (hc : Within execClusterRestartChanges cs) :
    KeepsOut cs u (execClusterRestart cluster s) := by
  simp only [execClusterRestartChanges, within_append, and_assoc] at hc
  obtain ⟨h0, h1, h2, hd⟩ := hc
  unfold execClusterRestart
  repeat' first
    | with_reducible first
      | assumption | apply KeepsOut.next | apply when_keeps | apply setClPwr_keeps | apply settleRail_keeps
      | apply takeKills_keeps
    | fail_if_no_progress with_reducible refine keeps_mk ?_ | intro _ | split | dsimp only

def execVrAlertAssertChanges : List Comp :=
  brakeOnChanges ++ setPinsChanges

theorem execVrAlertAssert_keeps {s : State} (h : Keeps cs u s) (hc : Within execVrAlertAssertChanges cs) :
    KeepsOut cs u (execVrAlertAssert s) := by
  simp only [execVrAlertAssertChanges, within_append] at hc
  obtain ⟨h0, h1⟩ := hc
  unfold execVrAlertAssert
  repeat' first
    | with_reducible first
      | assumption | apply KeepsOut.next | apply when_keeps | apply brakeOn_keeps | apply setPins_keeps
    | intro _ | split | dsimp only

def execVrAlertDeassertChanges : List Comp :=
  brakeOffChanges ++ setPinsChanges

theorem execVrAlertDeassert_keeps {s : State} (h : Keeps cs u s) (hc : Within execVrAlertDeassertChanges cs) :
    KeepsOut cs u (execVrAlertDeassert s) := by
  simp only [execVrAlertDeassertChanges, within_append] at hc
  obtain ⟨h0, h1⟩ := hc
  unfold execVrAlertDeassert
  repeat' first
    | with_reducible first
      | assumption | apply KeepsOut.next | apply when_keeps | apply brakeOff_keeps | apply setPins_keeps
    | intro _ | split | dsimp only

def execDroopDetectChanges : List Comp :=
  setClPwrChanges ++ [.reg .WEIR_CNT_DROOP]

theorem execDroopDetect_keeps {s : State} (h : Keeps cs u s) (cluster : Nat) (mv : Nat)
    (hc : Within execDroopDetectChanges cs) :
    KeepsOut cs u (execDroopDetect cluster mv s) := by
  simp only [execDroopDetectChanges, within_append] at hc
  obtain ⟨h0, hd⟩ := hc
  unfold execDroopDetect
  repeat' first
    | with_reducible first
      | assumption | apply KeepsOut.next | apply when_keeps | apply count_keeps | apply setClPwr_keeps
      | exact .inr (hd.of (by decide))
    | intro _ | split | dsimp only

theorem execDroopRecover_keeps {s : State} (h : Keeps cs u s) (cluster : Nat) (hc : Within setClPwrChanges cs) :
    KeepsOut cs u (execDroopRecover cluster s) := by
  unfold execDroopRecover
  repeat' first
    | with_reducible first
      | assumption | apply KeepsOut.next | apply when_keeps | apply setClPwr_keeps
    | intro _ | split | dsimp only

def thermalReadChanges : List Comp :=
  sprintEndChanges ++ setClPwrChanges ++ elogChanges ++ powerStatusChanges ++ [.reg .WEIR_CNT_THERMAL]

theorem thermalRead_keeps {s : State} (h : Keeps cs u s) (n : Nat) (x2 : Nat) (hc : Within thermalReadChanges cs) :
    Keeps cs u (State.thermalRead s n x2) := by
  simp only [thermalReadChanges, within_append, and_assoc] at hc
  obtain ⟨h0, h1, h2, h3, hd⟩ := hc
  unfold State.thermalRead
  repeat' first
    | with_reducible first
      | assumption | apply sprintEnd_keeps | apply setClPwr_keeps | apply elog_keeps | apply powerStatus_keeps
      | apply count_keeps | exact .inr (hd.of (by decide))
    | intro _ | split | dsimp only

theorem thermalReadAll_keeps {s : State} (h : Keeps cs u s) (temps : List Nat) (x2 : List Nat)
    (hc : Within thermalReadChanges cs) :
    Keeps cs u (State.thermalReadAll s temps x2) := by
  induction x2 generalizing s temps with
  | nil => exact h
  | cons y ys ih =>
    unfold State.thermalReadAll
    repeat' first
      | with_reducible first
        | assumption | apply ih | apply thermalRead_keeps
      | intro _ | split | dsimp only

def execThermalSampleChanges : List Comp :=
  thermalReadChanges ++ [.reg .WEIR_TJ_C]

theorem execThermalSample_keeps {s : State} (h : Keeps cs u s) (temps : List Nat)
    (hc : Within execThermalSampleChanges cs) :
    KeepsOut cs u (execThermalSample temps s) := by
  simp only [execThermalSampleChanges, within_append] at hc
  obtain ⟨h0, hd⟩ := hc
  unfold execThermalSample
  repeat' first
    | with_reducible first
      | assumption | apply KeepsOut.next | apply when_keeps | apply thermalReadAll_keeps | apply setReg_keeps
      | exact .inr (hd.of (by decide))
    | intro _ | split | dsimp only

def execThermalLimitStepChanges : List Comp :=
  sprintEndChanges ++ repointChanges ++ setClPwrChanges ++ setCoreChanges

theorem execThermalLimitStep_keeps {s : State} (h : Keeps cs u s) (cluster : Nat)
    (hc : Within execThermalLimitStepChanges cs) :
    KeepsOut cs u (execThermalLimitStep cluster s) := by
  simp only [execThermalLimitStepChanges, within_append, and_assoc] at hc
  obtain ⟨h0, h1, h2, h3⟩ := hc
  unfold execThermalLimitStep
  repeat' first
    | with_reducible first
      | assumption | apply KeepsOut.next | apply when_keeps | apply sprintCheck_keeps | apply repointAll_keeps
      | apply setClPwr_keeps | apply takeKills_keeps
    | intro _ | split | dsimp only

def execHardStopChanges : List Comp :=
  setSprintChanges ++ [.devHardStopRec, .devLife, .devPins]

theorem execHardStop_keeps {s : State} (h : Keeps cs u s) (hc : Within execHardStopChanges cs) :
    KeepsOut cs u (execHardStop s) := by
  simp only [execHardStopChanges, within_append] at hc
  obtain ⟨h0, hd⟩ := hc
  unfold execHardStop
  repeat' first
    | with_reducible first
      | assumption | apply KeepsOut.next | apply when_keeps | apply setSprint_keeps
    | fail_if_no_progress with_reducible refine keeps_mk ?_ | intro _ | split | dsimp only

def setCoolantChanges : List Comp := [.weirCoolant]

theorem setCoolant_keeps {s : State} (h : Keeps cs u s) (c : Coolant) (hd : Within setCoolantChanges cs) :
    Keeps cs u (State.setCoolant s c) := by
  unfold State.setCoolant
  repeat' first
    | with_reducible first
      | assumption
    | fail_if_no_progress with_reducible refine keeps_mk ?_ | intro _ | split | dsimp only

def setDramModeChanges : List Comp := [.devDramMode]

theorem setDramMode_keeps {s : State} (h : Keeps cs u s) (m : DramMode) (hd : Within setDramModeChanges cs) :
    Keeps cs u (State.setDramMode s m) := by
  unfold State.setDramMode
  repeat' first
    | with_reducible first
      | assumption
    | fail_if_no_progress with_reducible refine keeps_mk ?_ | intro _ | split | dsimp only

def startCoolantChanges : List Comp := [.weirCoolant, .weirCoolantNs, .weirRestart]

theorem startCoolant_keeps {s : State} (h : Keeps cs u s) (now : Nat) (hd : Within startCoolantChanges cs) :
    Keeps cs u (State.startCoolant s now) := by
  unfold State.startCoolant
  repeat' first
    | with_reducible first
      | assumption
    | fail_if_no_progress with_reducible refine keeps_mk ?_ | intro _ | split | dsimp only

def coolantEnterChanges : List Comp :=
  startCoolantChanges ++ sprintEndChanges ++ holdDecsChanges ++ setDramModeChanges ++ setClPwrChanges ++
    recalStopChanges ++ elogChanges ++ powerStatusChanges ++ [.reg .WEIR_CNT_COOLANT]

theorem coolantEnter_keeps {s : State} (h : Keeps cs u s) (hc : Within coolantEnterChanges cs) :
    Keeps cs u (State.coolantEnter s) := by
  simp only [coolantEnterChanges, within_append, and_assoc] at hc
  obtain ⟨h0, h1, h2, h3, h4, h5, h6, h7, hd⟩ := hc
  unfold State.coolantEnter
  repeat' first
    | with_reducible first
      | assumption | apply when_keeps | apply startCoolant_keeps | apply sprintEnd_keeps | apply holdDecs_keeps
      | apply setDramMode_keeps | apply stopClusters_keeps | apply recalStop_keeps | apply elog_keeps
      | apply powerStatus_keeps | apply count_keeps | exact .inr (hd.of (by decide))
    | intro _ | split | dsimp only

def execFlowLostAssertChanges : List Comp :=
  setPinsChanges ++ coolantEnterChanges ++ edgeChanges ++ [.weirFlowReleasedNs]

theorem execFlowLostAssert_keeps {s : State} (h : Keeps cs u s) (hc : Within execFlowLostAssertChanges cs) :
    KeepsOut cs u (execFlowLostAssert s) := by
  simp only [execFlowLostAssertChanges, within_append, and_assoc] at hc
  obtain ⟨h0, h1, h2, hd⟩ := hc
  unfold execFlowLostAssert
  repeat' first
    | with_reducible first
      | assumption | apply KeepsOut.next | apply when_keeps | apply setPins_keeps | apply coolantEnter_keeps
      | apply edge_keeps
    | fail_if_no_progress with_reducible refine keeps_mk ?_ | intro _ | split | dsimp only

def execCoolantStopReachedChanges : List Comp :=
  setRailChanges ++ setCoolantChanges

theorem execCoolantStopReached_keeps {s : State} (h : Keeps cs u s) (hc : Within execCoolantStopReachedChanges cs) :
    KeepsOut cs u (execCoolantStopReached s) := by
  simp only [execCoolantStopReachedChanges, within_append] at hc
  obtain ⟨h0, h1⟩ := hc
  unfold execCoolantStopReached
  repeat' first
    | with_reducible first
      | assumption | apply KeepsOut.next | apply when_keeps | apply setRail_keeps | apply setCoolant_keeps
    | intro _ | split | dsimp only

def execFlowLostDeassertChanges : List Comp :=
  setPinsChanges ++ edgeChanges ++ [.weirFlowReleasedNs]

theorem execFlowLostDeassert_keeps {s : State} (h : Keeps cs u s) (hc : Within execFlowLostDeassertChanges cs) :
    KeepsOut cs u (execFlowLostDeassert s) := by
  simp only [execFlowLostDeassertChanges, within_append, and_assoc] at hc
  obtain ⟨h0, h1, hd⟩ := hc
  unfold execFlowLostDeassert
  repeat' first
    | with_reducible first
      | assumption | apply KeepsOut.next | apply when_keeps | apply setPins_keeps | apply edge_keeps
    | fail_if_no_progress with_reducible refine keeps_mk ?_ | intro _ | split | dsimp only

def setLiveChanges : List Comp := [.weirLive]

theorem setLive_keeps {s : State} (h : Keeps cs u s) (l : List Domain) (hd : Within setLiveChanges cs) :
    Keeps cs u (State.setLive s l) := by
  unfold State.setLive
  repeat' first
    | with_reducible first
      | assumption
    | fail_if_no_progress with_reducible refine keeps_mk ?_ | intro _ | split | dsimp only

def execPowerGateChanges : List Comp :=
  holdDecsChanges ++ setLiveChanges ++ sprintEndChanges ++ setCoreChanges ++ [.trkCache, .sluBasins]

theorem execPowerGate_keeps {s : State} (h : Keeps cs u s) (d : Domain) (hc : Within execPowerGateChanges cs) :
    KeepsOut cs u (execPowerGate d s) := by
  simp only [execPowerGateChanges, within_append, and_assoc] at hc
  obtain ⟨h0, h1, h2, h3, hd⟩ := hc
  unfold execPowerGate
  repeat' first
    | with_reducible first
      | assumption | apply KeepsOut.next | apply when_keeps | apply holdDecs_keeps | apply setLive_keeps
      | apply sprintCheck_keeps | apply updCore_keeps | apply setBasin_keeps | exact hd.of (by decide)
      | exact fun _ => Mem.wf_nil
    | fail_if_no_progress with_reducible refine keeps_mk ?_ | intro _ | split | dsimp only

def execDomainWakeChanges : List Comp := [.weirWaking]

theorem execDomainWake_keeps {s : State} (h : Keeps cs u s) (d : Domain) (hd : Within execDomainWakeChanges cs) :
    KeepsOut cs u (execDomainWake d s) := by
  unfold execDomainWake
  repeat' first
    | with_reducible first
      | assumption | apply KeepsOut.next | apply when_keeps
    | fail_if_no_progress with_reducible refine keeps_mk ?_ | intro _ | split | dsimp only

def startClusterChanges : List Comp :=
  repointChanges ++ setClPwrChanges

theorem startCluster_keeps {s : State} (h : Keeps cs u s) (before : State) (n : Nat)
    (hc : Within startClusterChanges cs) :
    Keeps cs u (State.startCluster s before n) := by
  simp only [startClusterChanges, within_append] at hc
  obtain ⟨h0, h1⟩ := hc
  unfold State.startCluster
  repeat' first
    | with_reducible first
      | assumption | apply repoint_keeps | apply setClPwr_keeps
    | intro _ | split | dsimp only

def execDomainWakeCompleteChanges : List Comp :=
  startClusterChanges ++ setCoreChanges ++ [.weirLive, .weirWaking]

theorem execDomainWakeComplete_keeps {s : State} (h : Keeps cs u s) (d : Domain)
    (hc : Within execDomainWakeCompleteChanges cs) :
    KeepsOut cs u (execDomainWakeComplete d s) := by
  simp only [execDomainWakeCompleteChanges, within_append, and_assoc] at hc
  obtain ⟨h0, h1, hd⟩ := hc
  unfold execDomainWakeComplete
  repeat' first
    | with_reducible first
      | assumption | apply KeepsOut.next | apply when_keeps | apply startCluster_keeps | apply updCore_keeps
    | fail_if_no_progress with_reducible refine keeps_mk ?_ | intro _ | split | dsimp only

end Sys2Proof.Machine
end

