-- ==== Sys2Proof/Laws/KeepsArray.lean ====
section
/-! SUPPORT. What the functions of Sluice and the tensor cores keep and change (Laws/Keeps.lean). -/

set_option Elab.async false

namespace Sys2Proof.Machine

set_option linter.unreachableTactic false
set_option linter.unusedTactic false

variable {cs : Comp → Prop} {u : State}

/-! ## Machine/SluiceOps.lean -/

def reapListChanges : List Comp :=
  releaseChanges ++ [.ingFrames]

theorem reapList_keeps {s : State} (h : Keeps cs u s) (x1 : List Frame) (hc : Within reapListChanges cs) :
    Keeps cs u (State.reapList s x1) := by
  simp only [reapListChanges, within_append] at hc
  obtain ⟨h0, hd⟩ := hc
  induction x1 generalizing s with
  | nil => exact h
  | cons y ys ih =>
    unfold State.reapList
    repeat' first
      | with_reducible first
        | assumption | apply ih | apply release_keeps
      | fail_if_no_progress with_reducible refine keeps_mk ?_ | intro _ | split | dsimp only

theorem reapFrames_keeps {s : State} (h : Keeps cs u s) (hc : Within reapListChanges cs) :
    Keeps cs u (State.reapFrames s) := by
  unfold State.reapFrames
  repeat' first
    | with_reducible first
      | assumption | apply reapList_keeps
    | intro _ | split | dsimp only

theorem removeFrom_keeps {s : State} (h : Keeps cs u s) (ctx : Nat) (n : Nat) (hc : Within setCtxRunChanges cs) :
    Keeps cs u (State.removeFrom s ctx n) := by
  unfold State.removeFrom
  repeat' first
    | with_reducible first
      | assumption | apply updCtxRun_keeps
    | intro _ | split | dsimp only

theorem refreshList_keeps {s : State} (h : Keeps cs u s) (x1 : List CtxEntry) (hc : Within setCtxRunChanges cs) :
    Keeps cs u (State.refreshList s x1) := by
  induction x1 generalizing s with
  | nil => exact h
  | cons y ys ih =>
    unfold State.refreshList
    repeat' first
      | with_reducible first
        | assumption | apply ih | apply setCtxRun_keeps
      | intro _ | split | dsimp only

theorem refresh_keeps {s : State} (h : Keeps cs u s) (hc : Within setCtxRunChanges cs) :
    Keeps cs u (State.refresh s) := by
  unfold State.refresh
  repeat' first
    | with_reducible first
      | assumption | apply refreshList_keeps
    | intro _ | split | dsimp only

def embLoseChanges : List Comp :=
  setRillTrkChanges ++ [.reg .TRK_CNT_EMBLOST, .trkEmbq]

theorem embLose_keeps {s : State} (h : Keeps cs u s) (rill : Nat) (track : Nat) (frame : Nat) (st : W16)
    (error : Bool) (hc : Within embLoseChanges cs) :
    Keeps cs u (State.embLose s rill track frame st error) := by
  simp only [embLoseChanges, within_append] at hc
  obtain ⟨h0, hd⟩ := hc
  unfold State.embLose
  repeat' first
    | with_reducible first
      | assumption | apply count_keeps | apply setRillTrk_keeps | exact .inr (hd.of (by decide))
    | fail_if_no_progress with_reducible refine keeps_mk ?_ | intro _ | split | dsimp only

theorem freeItem_keeps {s : State} (h : Keeps cs u s) (ctx : Nat) (it : Item) (hc : Within releaseChanges cs) :
    Keeps cs u (State.freeItem s ctx it) := by
  unfold State.freeItem
  repeat' first
    | with_reducible first
      | assumption | apply release_keeps
    | intro _ | split | dsimp only

def itemGoneChanges : List Comp :=
  releaseChanges ++ updFlowChanges ++ embLoseChanges

theorem itemGone_keeps {s : State} (h : Keeps cs u s) (ctx : Nat) (it : Item) (why : Gone)
    (hc : Within itemGoneChanges cs) :
    Keeps cs u (State.itemGone s ctx it why) := by
  simp only [itemGoneChanges, within_append, and_assoc] at hc
  obtain ⟨h0, h1, h2⟩ := hc
  unfold State.itemGone
  repeat' first
    | with_reducible first
      | assumption | apply freeItem_keeps | apply updFlow_keeps | apply embLose_keeps
    | intro _ | split | dsimp only

theorem itemsGone_keeps {s : State} (h : Keeps cs u s) (ctx : Nat) (why : Gone) (x3 : List Item)
    (hc : Within itemGoneChanges cs) :
    Keeps cs u (State.itemsGone s ctx why x3) := by
  induction x3 generalizing s ctx why with
  | nil => exact h
  | cons y ys ih =>
    unfold State.itemsGone
    repeat' first
      | with_reducible first
        | assumption | apply ih | apply itemGone_keeps
      | intro _ | split | dsimp only

def settleChanges : List Comp :=
  setCtxRunChanges ++ reapListChanges ++ [.trkFlows]

theorem settle_keeps {s : State} (h : Keeps cs u s) (hc : Within settleChanges cs) :
    Keeps cs u (State.settle s) := by
  simp only [settleChanges, within_append, and_assoc] at hc
  obtain ⟨h0, h1, hd⟩ := hc
  unfold State.settle
  repeat' first
    | with_reducible first
      | assumption | apply refresh_keeps | apply reapFrames_keeps
    | fail_if_no_progress with_reducible refine keeps_mk ?_ | intro _ | split | dsimp only

def itemDoneChanges : List Comp :=
  releaseChanges ++ updFlowChanges ++ visitBlockChanges ++ embLoseChanges ++ [.trkEmbq]

theorem itemDone_keeps {s : State} (h : Keeps cs u s) (ctx : Nat) (addr : Nat) (i : Nat) (it : Item)
    (hc : Within itemDoneChanges cs) :
    Keeps cs u (State.itemDone s ctx addr i it) := by
  simp only [itemDoneChanges, within_append, and_assoc] at hc
  obtain ⟨h0, h1, h2, h3, hd⟩ := hc
  unfold State.itemDone
  repeat' first
    | with_reducible first
      | assumption | apply freeItem_keeps | apply updFlow_keeps | apply embLose_keeps
      | refine reads_keepsq ?_ (by assumption) (by assumption)
    | fail_if_no_progress with_reducible refine keeps_mk ?_ | intro _ | split | dsimp only

theorem itemsDone_keeps {s : State} (h : Keeps cs u s) (ctx : Nat) (n : Nat) (old : Bool) (x4 : List (Nat × Item))
    (hc : Within itemDoneChanges cs) :
    Keeps cs u (State.itemsDone s ctx n old x4) := by
  induction x4 generalizing s ctx n old with
  | nil => exact h
  | cons y ys ih =>
    unfold State.itemsDone
    repeat' first
      | with_reducible first
        | assumption | apply ih | apply itemDone_keeps
      | intro _ | split | dsimp only

theorem setHolds_keeps {s : State} (h : Keeps cs u s) (ctx : Nat) (l : List Nat) (hc : Within setCtxRunChanges cs) :
    Keeps cs u (State.setHolds s ctx l) := by
  unfold State.setHolds
  repeat' first
    | with_reducible first
      | assumption | apply updCtxRun_keeps
    | intro _ | split | dsimp only

theorem clearOverruns_keeps {s : State} (h : Keeps cs u s) (x1 : List CtxEntry) (hc : Within setCtxRunChanges cs) :
    Keeps cs u (State.clearOverruns s x1) := by
  induction x1 generalizing s with
  | nil => exact h
  | cons y ys ih =>
    unfold State.clearOverruns
    repeat' first
      | with_reducible first
        | assumption | apply ih | apply updCtxRun_keeps
      | intro _ | split | dsimp only

def startSliceChanges : List Comp :=
  setCtxRunChanges ++ [.sluEnded, .sluSlices]

theorem startSlice_keeps {s : State} (h : Keeps cs u s) (ctx : Nat) (lanes : List Nat)
    (hc : Within startSliceChanges cs) :
    Keeps cs u (State.startSlice s ctx lanes) := by
  simp only [startSliceChanges, within_append] at hc
  obtain ⟨h0, hd⟩ := hc
  unfold State.startSlice
  repeat' first
    | with_reducible first
      | assumption | apply updCtxRun_keeps
    | fail_if_no_progress with_reducible refine keeps_mk ?_ | intro _ | split | dsimp only

def setIdleHeldChanges : List Comp := [.sluHeldIdle]

theorem setIdleHeld_keeps {s : State} (h : Keeps cs u s) (l : List Nat) (hd : Within setIdleHeldChanges cs) :
    Keeps cs u (State.setIdleHeld s l) := by
  unfold State.setIdleHeld
  repeat' first
    | with_reducible first
      | assumption
    | fail_if_no_progress with_reducible refine keeps_mk ?_ | intro _ | split | dsimp only

def endSliceChanges : List Comp := [.sluEnded, .sluSlices]

theorem endSlice_keeps {s : State} (h : Keeps cs u s) (lane : Nat) (hd : Within endSliceChanges cs) :
    Keeps cs u (State.endSlice s lane) := by
  unfold State.endSlice
  repeat' first
    | with_reducible first
      | assumption
    | fail_if_no_progress with_reducible refine keeps_mk ?_ | intro _ | split | dsimp only

def yieldLaneChanges : List Comp :=
  setIdleHeldChanges ++ setHolderChanges ++ endSliceChanges ++ setCtxRunChanges

theorem yieldLane_keeps {s : State} (h : Keeps cs u s) (lane : Nat) (hc : Within yieldLaneChanges cs) :
    Keeps cs u (State.yieldLane s lane) := by
  simp only [yieldLaneChanges, within_append, and_assoc] at hc
  obtain ⟨h0, h1, h2, h3⟩ := hc
  unfold State.yieldLane
  repeat' first
    | with_reducible first
      | assumption | apply setIdleHeld_keeps | apply setHolder_keeps | apply endSlice_keeps
      | apply updCtxRun_keeps
    | intro _ | split | dsimp only

theorem yieldLanes_keeps {s : State} (h : Keeps cs u s) (x1 : List Nat) (hc : Within yieldLaneChanges cs) :
    Keeps cs u (State.yieldLanes s x1) := by
  induction x1 generalizing s with
  | nil => exact h
  | cons y ys ih =>
    unfold State.yieldLanes
    repeat' first
      | with_reducible first
        | assumption | apply ih | apply yieldLane_keeps
      | intro _ | split | dsimp only

def takeLaneChanges : List Comp :=
  setCtxRunChanges ++ setHolderChanges ++ [.sluLastHeld]

theorem takeLane_keeps {s : State} (h : Keeps cs u s) (ctx : Nat) (lane : Nat) (hc : Within takeLaneChanges cs) :
    Keeps cs u (State.takeLane s ctx lane) := by
  simp only [takeLaneChanges, within_append, and_assoc] at hc
  obtain ⟨h0, h1, hd⟩ := hc
  unfold State.takeLane
  repeat' first
    | with_reducible first
      | assumption | apply updCtxRun_keeps | apply setHolder_keeps
    | fail_if_no_progress with_reducible refine keeps_mk ?_ | intro _ | split | dsimp only

def grantChanges : List Comp :=
  takeLaneChanges ++ setIdleHeldChanges ++ startSliceChanges

theorem grant_keeps {s : State} (h : Keeps cs u s) (n : Nat) (hc : Within grantChanges cs) :
    Keeps cs u (State.grant s n) := by
  simp only [grantChanges, within_append, and_assoc] at hc
  obtain ⟨h0, h1, h2⟩ := hc
  unfold State.grant
  repeat' first
    | with_reducible first
      | assumption | apply takeLane_keeps | apply setIdleHeld_keeps | apply startSlice_keeps
    | intro _ | split | dsimp only

theorem grantFree_keeps {s : State} (h : Keeps cs u s) (x1 : List Nat) (hc : Within grantChanges cs) :
    Keeps cs u (State.grantFree s x1) := by
  induction x1 generalizing s with
  | nil => exact h
  | cons y ys ih =>
    unfold State.grantFree
    repeat' first
      | with_reducible first
        | assumption | apply ih | apply grant_keeps
      | intro _ | split | dsimp only

theorem decideFree_keeps {s : State} (h : Keeps cs u s) (hc : Within grantChanges cs) :
    Keeps cs u (State.decideFree s) := by
  unfold State.decideFree
  repeat' first
    | with_reducible first
      | assumption | apply grantFree_keeps
    | intro _ | split | dsimp only

def putRecFieldChanges : List Comp := [.sluBasins]

theorem putRecField_keeps {s : State} (h : Keeps cs u s) (x1 : WorkRec) (off : Nat) (n : Nat) (v : Nat)
    (hd : Within putRecFieldChanges cs) :
    Keeps cs u (State.putRecField s x1 off n v) := by
  unfold State.putRecField
  repeat' first
    | with_reducible first
      | assumption | apply setBasin_keeps | exact hd.of (by decide) | exact Mem.wf_writeList _ _ _
    | intro _ | split | dsimp only

theorem closeRec_keeps {s : State} (h : Keeps cs u s) (x1 : WorkRec) (hc : Within putRecFieldChanges cs) :
    Keeps cs u (State.closeRec s x1) := by
  unfold State.closeRec
  repeat' first
    | with_reducible first
      | assumption | apply putRecField_keeps
    | intro _ | split | dsimp only

theorem closeRecs_keeps {s : State} (h : Keeps cs u s) (x1 : List WorkRec) (hc : Within putRecFieldChanges cs) :
    Keeps cs u (State.closeRecs s x1) := by
  induction x1 generalizing s with
  | nil => exact h
  | cons y ys ih =>
    unfold State.closeRecs
    repeat' first
      | with_reducible first
        | assumption | apply ih | apply closeRec_keeps
      | intro _ | split | dsimp only

theorem killCores_keeps {s : State} (h : Keeps cs u s) (ctx : Nat) (x2 : List Nat) (hc : Within setCoreChanges cs) :
    Keeps cs u (State.killCores s ctx x2) := by
  induction x2 generalizing s ctx with
  | nil => exact h
  | cons y ys ih =>
    unfold State.killCores
    repeat' first
      | with_reducible first
        | assumption | apply ih | apply setCore_keeps
      | intro _ | split | dsimp only

def killCmdChanges : List Comp :=
  setCoreChanges ++ setCmdRunChanges ++ putRecFieldChanges ++ [.reg .CL_CNT_LATEKILL]

theorem killCmd_keeps {s : State} (h : Keeps cs u s) (ctx : Nat) (hc : Within killCmdChanges cs) :
    Keeps cs u (State.killCmd s ctx) := by
  simp only [killCmdChanges, within_append, and_assoc] at hc
  obtain ⟨h0, h1, h2, hd⟩ := hc
  unfold State.killCmd
  repeat' first
    | with_reducible first
      | assumption | apply count_keeps | apply killCores_keeps | apply setCmdRun_keeps | apply closeRecs_keeps
      | exact .inr (hd.of (by decide))
    | intro _ | split | dsimp only

def dropWindowsChanges : List Comp := [.dramWindows]

theorem dropWindows_keeps {s : State} (h : Keeps cs u s) (ctx : Nat) (cmd : Nat) (hd : Within dropWindowsChanges cs) :
    Keeps cs u (State.dropWindows s ctx cmd) := by
  unfold State.dropWindows
  repeat' first
    | with_reducible first
      | assumption
    | fail_if_no_progress with_reducible refine keeps_mk ?_ | intro _ | split | dsimp only

def dropCtxWindowsChanges : List Comp := [.dramWindows]

theorem dropCtxWindows_keeps {s : State} (h : Keeps cs u s) (ctx : Nat) (hd : Within dropCtxWindowsChanges cs) :
    Keeps cs u (State.dropCtxWindows s ctx) := by
  unfold State.dropCtxWindows
  repeat' first
    | with_reducible first
      | assumption
    | fail_if_no_progress with_reducible refine keeps_mk ?_ | intro _ | split | dsimp only

def endGroupChanges : List Comp := [.sluGroups]

theorem endGroup_keeps {s : State} (h : Keeps cs u s) (ctx : Nat) (hd : Within endGroupChanges cs) :
    Keeps cs u (State.endGroup s ctx) := by
  unfold State.endGroup
  repeat' first
    | with_reducible first
      | assumption
    | fail_if_no_progress with_reducible refine keeps_mk ?_ | intro _ | split | dsimp only

def preemptCtxChanges : List Comp :=
  killCmdChanges ++ yieldLaneChanges ++ [.reg .SLUICE_CNT_PREEMPT]

theorem preemptCtx_keeps {s : State} (h : Keeps cs u s) (ctx : Nat) (hc : Within preemptCtxChanges cs) :
    Keeps cs u (State.preemptCtx s ctx) := by
  simp only [preemptCtxChanges, within_append, and_assoc] at hc
  obtain ⟨h0, h1, hd⟩ := hc
  unfold State.preemptCtx
  repeat' first
    | with_reducible first
      | assumption | apply killCmd_keeps | apply addTo_keeps | apply yieldLanes_keeps
      | exact .inr (hd.of (by decide))
    | intro _ | split | dsimp only

def preemptListChanges : List Comp :=
  preemptCtxChanges ++ grantChanges

theorem preemptList_keeps {s : State} (h : Keeps cs u s) (x1 : List Nat) (hc : Within preemptListChanges cs) :
    Keeps cs u (State.preemptList s x1) := by
  simp only [preemptListChanges, within_append] at hc
  obtain ⟨h0, h1⟩ := hc
  induction x1 generalizing s with
  | nil => exact h
  | cons y ys ih =>
    unfold State.preemptList
    repeat' first
      | with_reducible first
        | assumption | apply ih | apply preemptCtx_keeps | apply grant_keeps
      | intro _ | split | dsimp only

def scheduleChanges : List Comp :=
  grantChanges ++ preemptListChanges

theorem schedule_keeps {s : State} (h : Keeps cs u s) (hc : Within scheduleChanges cs) :
    Keeps cs u (State.schedule s) := by
  simp only [scheduleChanges, within_append] at hc
  obtain ⟨h0, h1⟩ := hc
  unfold State.schedule
  repeat' first
    | with_reducible first
      | assumption | apply decideFree_keeps | apply preemptList_keeps
    | intro _ | split | dsimp only

def laneTurnChanges : List Comp :=
  startSliceChanges ++ takeLaneChanges ++ yieldLaneChanges ++ setCtxRunChanges

theorem laneTurn_keepsq {s : State} (h : Keeps cs u s) {e : CtxEntry} (hc : Within laneTurnChanges cs) {k : Nat}
    {t : State}
    (q : s.laneTurn e = some (k, t)) : Keeps cs u t := by
  simp only [laneTurnChanges, within_append, and_assoc] at hc
  obtain ⟨h0, h1, h2, h3⟩ := hc
  unfold State.laneTurn at q
  split at q
  · cases q; exact h
  · split at q
    · cases q
    · rw [Option.ite_none_right_eq_some] at q
      obtain ⟨-, q⟩ := q
      cases q
      exact startSlice_keeps (takeLane_keeps (yieldLane_keeps (clearOverruns_keeps h _ (by assumption)) _
        (by assumption)) _ _ (by assumption)) _ _ (by assumption)

def laneCommitChanges : List Comp :=
  yieldLaneChanges ++ setCtxRunChanges

theorem laneCommit_keeps {s : State} (h : Keeps cs u s) (ctx : Nat) (k : Nat) (hc : Within laneCommitChanges cs) :
    Keeps cs u (State.laneCommit s ctx k) := by
  simp only [laneCommitChanges, within_append] at hc
  obtain ⟨h0, h1⟩ := hc
  unfold State.laneCommit
  repeat' first
    | with_reducible first
      | assumption | apply yieldLane_keeps | apply updCtxRun_keeps
    | intro _ | split | dsimp only

def stepCommitChanges : List Comp :=
  itemDoneChanges ++ setCtxRunChanges ++ settleChanges ++ endGroupChanges ++ scheduleChanges ++
    yieldLaneChanges ++ [.reg .SLUICE_CNT_STEPS]

theorem stepCommit_keeps {s : State} (h : Keeps cs u s) (ctx : Nat) (st : StepRun) (hc : Within stepCommitChanges cs)
    :
    Keeps cs u (State.stepCommit s ctx st) := by
  simp only [stepCommitChanges, within_append, and_assoc] at hc
  obtain ⟨h0, h1, h2, h3, h4, h5, hd⟩ := hc
  unfold State.stepCommit
  repeat' first
    | with_reducible first
      | assumption | apply itemsDone_keeps | apply updCtxRun_keeps | apply settle_keeps | apply endGroup_keeps
      | apply addTo_keeps | apply schedule_keeps | apply yieldLanes_keeps | exact .inr (hd.of (by decide))
    | intro _ | split | dsimp only

def cmdCommitChanges : List Comp :=
  dropWindowsChanges ++ dropCmdRunChanges ++ sprintEndChanges ++ endGroupChanges ++ setCtxRunChanges ++
    stepCommitChanges

theorem cmdCommit_keeps {s : State} (h : Keeps cs u s) (ctx : Nat) (status : W16) (hc : Within cmdCommitChanges cs) :
    Keeps cs u (State.cmdCommit s ctx status) := by
  simp only [cmdCommitChanges, within_append, and_assoc] at hc
  obtain ⟨h0, h1, h2, h3, h4, h5⟩ := hc
  unfold State.cmdCommit
  repeat' first
    | with_reducible first
      | assumption | apply dropWindows_keeps | apply dropCmdRun_keeps | apply sprintCheck_keeps
      | apply endGroup_keeps | apply updCtxRun_keeps | apply stepCommit_keeps
    | intro _ | split | dsimp only

def noteFaultChanges : List Comp :=
  elogChanges ++ edgeChanges ++ [.reg .SLUICE_LAST_FAULT]

theorem noteFault_keeps {s : State} (h : Keeps cs u s) (ctx : Nat) (st : W16) (hc : Within noteFaultChanges cs) :
    Keeps cs u (State.noteFault s ctx st) := by
  simp only [noteFaultChanges, within_append, and_assoc] at hc
  obtain ⟨h0, h1, hd⟩ := hc
  unfold State.noteFault
  repeat' first
    | with_reducible first
      | assumption | apply elog_keeps | apply raise_keeps | apply setReg_keeps | exact .inr (hd.of (by decide))
    | intro _ | split | dsimp only

def cmdFaultChanges : List Comp :=
  noteFaultChanges ++ dropCmdRunChanges ++ setCoreChanges ++ putRecFieldChanges ++ itemGoneChanges ++
    settleChanges ++ setCtxRunChanges ++ scheduleChanges ++ yieldLaneChanges ++ endGroupChanges

theorem cmdFault_keeps {s : State} (h : Keeps cs u s) (ctx : Nat) (st : W16) (hc : Within cmdFaultChanges cs) :
    Keeps cs u (State.cmdFault s ctx st) := by
  simp only [cmdFaultChanges, within_append, and_assoc] at hc
  obtain ⟨h0, h1, h2, h3, h4, h5, h6, h7, h8, h9⟩ := hc
  unfold State.cmdFault
  repeat' first
    | with_reducible first
      | assumption | apply noteFault_keeps | apply dropCmdRun_keeps | apply killCores_keeps
      | apply closeRecs_keeps | apply itemsGone_keeps | apply settle_keeps | apply updCtxRun_keeps
      | apply schedule_keeps | apply yieldLanes_keeps | apply endGroup_keeps
    | intro _ | split | dsimp only

def coreFaultedChanges : List Comp :=
  elogChanges ++ adviseChanges ++ setCoreChanges ++ cmdFaultChanges ++ [.reg .TC_CNT_PARITY, .reg .TC_FAULT]

theorem coreFaulted_keeps {s : State} (h : Keeps cs u s) (n : Nat) (st : W16) (hc : Within coreFaultedChanges cs) :
    Keeps cs u (State.coreFaulted s n st) := by
  simp only [coreFaultedChanges, within_append, and_assoc] at hc
  obtain ⟨h0, h1, h2, h3, hd⟩ := hc
  unfold State.coreFaulted
  repeat' first
    | with_reducible first
      | assumption | apply elog_keeps | apply setReg_keeps | apply count_keeps | apply advise_keeps
      | apply setCore_keeps | apply cmdFault_keeps | exact .inr (hd.of (by decide))
    | intro _ | split | dsimp only

/-! ## Machine/ArrayOps.lean -/

theorem advance_keeps {s : State} (h : Keeps cs u s) (n : Nat) (hc : Within setCoreChanges cs) :
    Keeps cs u (State.advance s n) := by
  unfold State.advance
  repeat' first
    | with_reducible first
      | assumption | apply updCore_keeps
    | intro _ | split | dsimp only

theorem performLoad_keeps {s : State} (h : Keeps cs u s) (n : Nat) (l : LoadRec) (hc : Within setCoreChanges cs) :
    Keeps cs u (State.performLoad s n l) := by
  unfold State.performLoad
  repeat' first
    | with_reducible first
      | assumption | apply updCore_keeps
    | intro _ | split | dsimp only

def putNibBlockChanges : List Comp :=
  putBlockChanges ++ mergeReadChanges ++ dmcLogChanges ++ countWriteChanges ++ [.sluBasins, .dramBytes]

theorem putNibBlock_keeps {s : State} (h : Keeps cs u s) (port : Nat) (blk : Nat) (nibs : List (Nat × Nat))
    (hc : Within putNibBlockChanges cs) :
    Keeps cs u (State.putNibBlock s port blk nibs) := by
  simp only [putNibBlockChanges, within_append, and_assoc] at hc
  obtain ⟨h0, h1, h2, h3, hd⟩ := hc
  unfold State.putNibBlock
  repeat' first
    | with_reducible first
      | assumption | apply putBlock_keeps | apply mergeRead_keeps | apply dmcLog_keeps | apply countWrite_keeps
      | apply setDramBytes_keeps | apply setBasin_keeps | exact hd.of (by decide) | exact Mem.wf_writeList _ _ _
    | intro _ | split | dsimp only

theorem putNibList_keeps {s : State} (h : Keeps cs u s) (port k : Nat) (l : List (Nat × Nat))
    (hc : Within putNibBlockChanges cs) :
    Keeps cs u (s.putNibList port k l) := by
  induction k generalizing s l with
  | zero => unfold State.putNibList; exact h
  | succ k ih =>
    cases l with
    | nil => unfold State.putNibList; exact h
    | cons x xs => unfold State.putNibList; exact ih (putNibBlock_keeps h _ _ _ hc) _

/-! ## Machine/ArrayCmds.lean -/

theorem activity_keeps {s : State} (h : Keeps cs u s) (x1 : Reg) (n : Nat) (v : Nat) (hr : cs .regs ∨ cs (.reg x1)) :
    Keeps cs u (State.activity s x1 n v) := by
  unfold State.activity
  repeat' first
    | with_reducible first
      | assumption | apply addTo_keeps
    | intro _ | split | dsimp only

def onwardChanges : List Comp :=
  coreFaultedChanges ++ setCoreChanges

theorem onward_keeps {s : State} (h : Keeps cs u s) (n : Nat) (st : Option W16) (f : State → State)
    (hc : Within onwardChanges cs) (hf : ∀ t, Keeps cs u t → Keeps cs u (f t)) :
    KeepsOpt cs u (State.onward s n st f) := by
  simp only [onwardChanges, within_append] at hc
  obtain ⟨h0, h1⟩ := hc
  unfold State.onward
  repeat' first
    | with_reducible first
      | assumption | apply hf | exact KeepsOpt.none | apply KeepsOpt.some | apply coreFaulted_keeps
      | apply advance_keeps
    | intro _ | split | dsimp only

def execLoadChanges : List Comp :=
  setCoreChanges ++ [.sluCores]

theorem execLoad_keeps {s : State} (h : Keeps cs u s) (core : Nat) (hc : Within execLoadChanges cs) :
    KeepsOut cs u (execLoad core s) := by
  simp only [execLoadChanges, within_append] at hc
  obtain ⟨h0, hd⟩ := hc
  unfold execLoad
  repeat' first
    | with_reducible first
      | assumption | apply KeepsOut.next | exact KeepsOpt.none | apply KeepsOpt.some | apply atFront_keeps
      | apply advance_keeps | apply setCore_keeps | exact hd.of (by decide)
    | intro _ | split | dsimp only

def arriveChanges : List Comp :=
  visitBlockChanges ++ setCoreChanges ++ coreFaultedChanges

theorem arrive_keeps {s : State} (h : Keeps cs u s) (n : Nat) (pc : Nat) (rs : List (Nat × Nat)) (take : Core → Core)
    (f : State → State) (hc : Within arriveChanges cs) (hf : ∀ t, Keeps cs u t → Keeps cs u (f t)) :
    Keeps cs u (State.arrive s n pc rs take f) := by
  simp only [arriveChanges, within_append, and_assoc] at hc
  obtain ⟨h0, h1, h2⟩ := hc
  unfold State.arrive
  repeat' first
    | with_reducible first
      | assumption | apply hf | apply when_keeps | apply reads_keeps | apply updCore_keeps
      | apply coreFaulted_keeps
    | intro _ | split | dsimp only

def execLoadCompleteChanges : List Comp :=
  arriveChanges ++ setCoreChanges

theorem execLoadComplete_keeps {s : State} (h : Keeps cs u s) (core : Nat) (hc : Within execLoadCompleteChanges cs) :
    KeepsOut cs u (execLoadComplete core s) := by
  simp only [execLoadCompleteChanges, within_append] at hc
  obtain ⟨h0, h1⟩ := hc
  unfold execLoadComplete
  repeat' first
    | with_reducible first
      | assumption | apply KeepsOut.next | apply arrive_keeps | apply performLoad_keeps
    | intro _ | split | dsimp only

def execXscanChanges : List Comp :=
  visitBlockChanges ++ onwardChanges ++ setCoreChanges ++ [.sluCores]

theorem execXscan_keeps {s : State} (h : Keeps cs u s) (core : Nat) (hc : Within execXscanChanges cs) :
    KeepsOut cs u (execXscan core s) := by
  simp only [execXscanChanges, within_append, and_assoc] at hc
  obtain ⟨h0, h1, h2, hd⟩ := hc
  unfold execXscan
  repeat' first
    | with_reducible first
      | assumption | apply KeepsOut.next | exact KeepsOpt.none | apply KeepsOpt.some | apply atFront_keeps
      | apply reads_keeps | apply onward_keeps | apply updCore_keeps | exact hd.of (by decide)
    | intro _ | split | dsimp only

theorem execXscanComplete_keeps {s : State} (h : Keeps cs u s) (core : Nat) (hc : Within setCoreChanges cs) :
    KeepsOut cs u (execXscanComplete core s) := by
  unfold execXscanComplete
  repeat' first
    | with_reducible first
      | assumption | apply KeepsOut.next | apply when_keeps | apply updCore_keeps
    | intro _ | split | dsimp only

def startInitChanges : List Comp :=
  visitBlockChanges ++ onwardChanges ++ setCoreChanges ++ [.sluCores]

theorem startInit_keeps {s : State} (h : Keeps cs u s) (core : Nat) (hc : Within startInitChanges cs) :
    Keeps cs u (State.startInit s core) := by
  simp only [startInitChanges, within_append, and_assoc] at hc
  obtain ⟨h0, h1, h2, hd⟩ := hc
  unfold State.startInit
  repeat' first
    | with_reducible first
      | assumption | exact KeepsOpt.none | apply KeepsOpt.some | apply atFront_keeps | apply reads_keeps
      | apply onward_keeps | apply updCore_keeps | exact hd.of (by decide)
    | intro _ | split | dsimp only

def endInitChanges : List Comp :=
  arriveChanges ++ setCoreChanges

theorem endInit_keeps {s : State} (h : Keeps cs u s) (core : Nat) (hc : Within endInitChanges cs) :
    Keeps cs u (State.endInit s core) := by
  simp only [endInitChanges, within_append] at hc
  obtain ⟨h0, h1⟩ := hc
  unfold State.endInit
  repeat' first
    | with_reducible first
      | assumption | apply arrive_keeps | apply updCore_keeps
    | intro _ | split | dsimp only

def execInitChanges : List Comp :=
  endInitChanges ++ startInitChanges

theorem execInit_keeps {s : State} (h : Keeps cs u s) (x1 : InitEvent) (hc : Within execInitChanges cs) :
    KeepsOut cs u (execInit x1 s) := by
  simp only [execInitChanges, within_append] at hc
  obtain ⟨h0, h1⟩ := hc
  unfold execInit
  repeat' first
    | with_reducible first
      | assumption | apply KeepsOut.next | apply endInit_keeps | apply startInit_keeps
    | intro _ | split | dsimp only

def execStreamChanges : List Comp :=
  setCoreChanges ++
    [.reg .TC_CNT_EXCH, .reg .TC_CNT_GATED, .reg .TC_CNT_PRODUCTS, .reg .TC_CNT_UPDATES, .sluCores]

theorem execStream_keeps {s : State} (h : Keeps cs u s) (core : Nat) (hc : Within execStreamChanges cs) :
    KeepsOut cs u (execStream core s) := by
  simp only [execStreamChanges, within_append] at hc
  obtain ⟨h0, hd⟩ := hc
  unfold execStream
  repeat' first
    | with_reducible first
      | assumption | apply KeepsOut.next | exact KeepsOpt.none | apply KeepsOpt.some | apply atFront_keeps
      | apply activity_keeps | apply advance_keeps | apply setCore_keeps | exact hd.of (by decide)
      | exact .inr (hd.of (by decide))
    | intro _ | split | dsimp only

def handOffChanges : List Comp :=
  setCoreChanges ++ [.reg .TC_CNT_CLAMP, .reg .TC_CNT_SAT]

theorem handOff_keeps {s : State} (h : Keeps cs u s) (n : Nat) (slot : Nat) (ovf : Bool) (clamp : Bool)
    (nibs : List (Nat × Nat)) (hc : Within handOffChanges cs) :
    Keeps cs u (State.handOff s n slot ovf clamp nibs) := by
  simp only [handOffChanges, within_append] at hc
  obtain ⟨h0, hd⟩ := hc
  unfold State.handOff
  repeat' first
    | with_reducible first
      | assumption | apply count_keeps | apply updCore_keeps | exact .inr (hd.of (by decide))
    | intro _ | split | dsimp only

def execDrainChanges : List Comp :=
  setCoreChanges ++ onwardChanges ++ handOffChanges ++ [.sluCores]

theorem execDrain_keeps {s : State} (h : Keeps cs u s) (core : Nat) (hc : Within execDrainChanges cs) :
    KeepsOut cs u (execDrain core s) := by
  simp only [execDrainChanges, within_append, and_assoc] at hc
  obtain ⟨h0, h1, h2, hd⟩ := hc
  unfold execDrain
  repeat' first
    | with_reducible first
      | assumption | apply KeepsOut.next | exact KeepsOpt.none | apply KeepsOpt.some | apply atFront_keeps
      | apply advance_keeps | apply onward_keeps | apply handOff_keeps | apply updCore_keeps
      | exact hd.of (by decide)
    | intro _ | split | dsimp only

def execSpillChanges : List Comp :=
  setCoreChanges ++ onwardChanges ++ handOffChanges ++ [.sluCores]

theorem execSpill_keeps {s : State} (h : Keeps cs u s) (core : Nat) (hc : Within execSpillChanges cs) :
    KeepsOut cs u (execSpill core s) := by
  simp only [execSpillChanges, within_append, and_assoc] at hc
  obtain ⟨h0, h1, h2, hd⟩ := hc
  unfold execSpill
  repeat' first
    | with_reducible first
      | assumption | apply KeepsOut.next | exact KeepsOpt.none | apply KeepsOpt.some | apply atFront_keeps
      | apply advance_keeps | apply onward_keeps | apply handOff_keeps | exact hd.of (by decide)
    | intro _ | split | dsimp only

def execDrainCompleteChanges : List Comp :=
  putNibBlockChanges ++ setCoreChanges

theorem execDrainComplete_keeps {s : State} (h : Keeps cs u s) (core : Nat) (hc : Within execDrainCompleteChanges cs)
    :
    KeepsOut cs u (execDrainComplete core s) := by
  simp only [execDrainCompleteChanges, within_append] at hc
  obtain ⟨h0, h1⟩ := hc
  unfold execDrainComplete
  repeat' first
    | with_reducible first
      | assumption | apply KeepsOut.next | apply when_keeps | apply putNibList_keeps | apply updCore_keeps
    | intro _ | split | dsimp only

def execXptrChanges : List Comp :=
  setCoreChanges ++ [.sluCores]

theorem execXptr_keeps {s : State} (h : Keeps cs u s) (core : Nat) (hc : Within execXptrChanges cs) :
    KeepsOut cs u (execXptr core s) := by
  simp only [execXptrChanges, within_append] at hc
  obtain ⟨h0, hd⟩ := hc
  unfold execXptr
  repeat' first
    | with_reducible first
      | assumption | apply KeepsOut.next | exact KeepsOpt.none | apply KeepsOpt.some | apply atFront_keeps
      | apply advance_keeps | apply updCore_keeps | exact hd.of (by decide)
    | intro _ | split | dsimp only

def execFenceChanges : List Comp :=
  setCoreChanges ++ [.sluCores]

theorem execFence_keeps {s : State} (h : Keeps cs u s) (core : Nat) (hc : Within execFenceChanges cs) :
    KeepsOut cs u (execFence core s) := by
  simp only [execFenceChanges, within_append] at hc
  obtain ⟨h0, hd⟩ := hc
  unfold execFence
  repeat' first
    | with_reducible first
      | assumption | apply KeepsOut.next | exact KeepsOpt.none | apply KeepsOpt.some | apply atFront_keeps
      | apply advance_keeps | exact hd.of (by decide)
    | intro _ | split | dsimp only

def execPublishChanges : List Comp :=
  setCoreChanges ++ [.sluBasins, .sluCores]

theorem execPublish_keeps {s : State} (h : Keeps cs u s) (core : Nat) (hc : Within execPublishChanges cs) :
    KeepsOut cs u (execPublish core s) := by
  simp only [execPublishChanges, within_append] at hc
  obtain ⟨h0, hd⟩ := hc
  unfold execPublish
  repeat' first
    | with_reducible first
      | assumption | apply KeepsOut.next | exact KeepsOpt.none | apply KeepsOpt.some | apply atFront_keeps
      | apply advance_keeps | apply setBasin_keeps | exact hd.of (by decide) | exact Mem.wf_writeList _ _ _
    | intro _ | split | dsimp only

def execWaitcntChanges : List Comp :=
  setCoreChanges ++ [.sluCores]

theorem execWaitcnt_keeps {s : State} (h : Keeps cs u s) (core : Nat) (hc : Within execWaitcntChanges cs) :
    KeepsOut cs u (execWaitcnt core s) := by
  simp only [execWaitcntChanges, within_append] at hc
  obtain ⟨h0, hd⟩ := hc
  unfold execWaitcnt
  repeat' first
    | with_reducible first
      | assumption | apply KeepsOut.next | exact KeepsOpt.none | apply KeepsOpt.some | apply atFront_keeps
      | apply advance_keeps | apply updCore_keeps | exact hd.of (by decide)
    | intro _ | split | dsimp only

def execWaitcntPassChanges : List Comp :=
  setCoreChanges ++ [.freeIdx, .reg .TC_CNT_WAIT]

theorem execWaitcntPass_keeps {s : State} (h : Keeps cs u s) (core : Nat) (hc : Within execWaitcntPassChanges cs) :
    KeepsOut cs u (execWaitcntPass core s) := by
  simp only [execWaitcntPassChanges, within_append] at hc
  obtain ⟨h0, hd⟩ := hc
  unfold execWaitcntPass
  repeat' first
    | with_reducible first
      | assumption | apply KeepsOut.next | apply when_keeps | apply advance_keeps | apply updCore_keeps
      | apply activity_keeps | exact .inr (hd.of (by decide))
    | fail_if_no_progress with_reducible refine keeps_mk ?_ | intro _ | split | dsimp only

def collectiveTileChanges : List Comp :=
  visitBlockChanges ++ coreFaultedChanges ++ setCoreChanges ++ handOffChanges

theorem collectiveTile_keeps {s : State} (h : Keeps cs u s) (n : Nat) (x2 : Run) (x3 : Nat)
    (hc : Within collectiveTileChanges cs) :
    Keeps cs u (State.collectiveTile s n x2 x3) := by
  simp only [collectiveTileChanges, within_append, and_assoc] at hc
  obtain ⟨h0, h1, h2, h3⟩ := hc
  unfold State.collectiveTile
  repeat' first
    | with_reducible first
      | assumption | apply reads_keeps | apply coreFaulted_keeps | apply updCore_keeps | apply handOff_keeps
    | intro _ | split | dsimp only

theorem startTile_keeps {s : State} (h : Keeps cs u s) (n : Nat) (c : Cmd) (run : CmdRun) (gen : Nat) (x : WorkRec)
    (x6 : Nat) (hc : Within setCoreChanges cs) :
    Keeps cs u (State.startTile s n c run gen x x6) := by
  unfold State.startTile
  repeat' first
    | with_reducible first
      | assumption | apply setCore_keeps
    | intro _ | split | dsimp only

def runTileChanges : List Comp :=
  collectiveTileChanges ++ setCoreChanges

theorem runTile_keeps {s : State} (h : Keeps cs u s) (n : Nat) (c : Cmd) (x3 : Nat) (hc : Within runTileChanges cs) :
    Keeps cs u (State.runTile s n c x3) := by
  simp only [runTileChanges, within_append] at hc
  obtain ⟨h0, h1⟩ := hc
  unfold State.runTile
  repeat' first
    | with_reducible first
      | assumption | apply collectiveTile_keeps | apply updCore_keeps
    | intro _ | split | dsimp only

def claimedChanges : List Comp :=
  putRecFieldChanges ++ runTileChanges ++ setCoreChanges ++ [.reg .CL_CNT_CLAIMS]

theorem claimed_keeps {s : State} (h : Keeps cs u s) (n : Nat) (c : Cmd) (run : CmdRun) (x : WorkRec)
    (hc : Within claimedChanges cs) :
    Keeps cs u (State.claimed s n c run x) := by
  simp only [claimedChanges, within_append, and_assoc] at hc
  obtain ⟨h0, h1, h2, hd⟩ := hc
  unfold State.claimed
  repeat' first
    | with_reducible first
      | assumption | apply addTo_keeps | apply putRecField_keeps | apply runTile_keeps | apply startTile_keeps
      | exact .inr (hd.of (by decide))
    | intro _ | split | dsimp only

def claimNoneChanges : List Comp :=
  setCmdRunChanges ++ putRecFieldChanges

theorem claimNone_keeps {s : State} (h : Keeps cs u s) (n : Nat) (ctx : Nat) (run : CmdRun) (recs : List WorkRec)
    (hc : Within claimNoneChanges cs) :
    Keeps cs u (State.claimNone s n ctx run recs) := by
  simp only [claimNoneChanges, within_append] at hc
  obtain ⟨h0, h1⟩ := hc
  unfold State.claimNone
  repeat' first
    | with_reducible first
      | assumption | apply setCmdRun_keeps | apply putRecField_keeps
    | intro _ | split | dsimp only

def execTileClaimChanges : List Comp :=
  claimedChanges ++ claimNoneChanges

theorem execTileClaim_keeps {s : State} (h : Keeps cs u s) (core : Nat) (hc : Within execTileClaimChanges cs) :
    KeepsOut cs u (execTileClaim core s) := by
  simp only [execTileClaimChanges, within_append] at hc
  obtain ⟨h0, h1⟩ := hc
  unfold execTileClaim
  repeat' first
    | with_reducible first
      | assumption | apply KeepsOut.next | apply when_keeps | apply claimed_keeps | apply claimNone_keeps
    | intro _ | split | dsimp only

def shardDoneChanges : List Comp :=
  setCmdRunChanges ++ cmdCommitChanges

theorem shardDone_keeps {s : State} (h : Keeps cs u s) (ctx : Nat) (run : CmdRun) (x : WorkRec)
    (hc : Within shardDoneChanges cs) :
    Keeps cs u (State.shardDone s ctx run x) := by
  simp only [shardDoneChanges, within_append] at hc
  obtain ⟨h0, h1⟩ := hc
  unfold State.shardDone
  repeat' first
    | with_reducible first
      | assumption | apply setCmdRun_keeps | apply cmdCommit_keeps
    | intro _ | split | dsimp only

def portCommitChanges : List Comp :=
  putRecFieldChanges ++ shardDoneChanges ++ [.reg .CL_CNT_COMMITS, .reg .CL_CNT_STALE]

theorem portCommit_keeps {s : State} (h : Keeps cs u s) (d : DoneTile) (hc : Within portCommitChanges cs) :
    Keeps cs u (State.portCommit s d) := by
  simp only [portCommitChanges, within_append, and_assoc] at hc
  obtain ⟨h0, h1, hd⟩ := hc
  unfold State.portCommit
  repeat' first
    | with_reducible first
      | assumption | apply count_keeps | apply addTo_keeps | apply putRecField_keeps | apply shardDone_keeps
      | exact .inr (hd.of (by decide))
    | intro _ | split | dsimp only

def execTileCommitChanges : List Comp :=
  portCommitChanges ++ setCoreChanges

theorem execTileCommit_keeps {s : State} (h : Keeps cs u s) (core : Nat) (hc : Within execTileCommitChanges cs) :
    KeepsOut cs u (execTileCommit core s) := by
  simp only [execTileCommitChanges, within_append] at hc
  obtain ⟨h0, h1⟩ := hc
  unfold execTileCommit
  repeat' first
    | with_reducible first
      | assumption | apply KeepsOut.next | apply when_keeps | apply portCommit_keeps | apply setCore_keeps
    | intro _ | split | dsimp only

def execCoreIdleChanges : List Comp :=
  setCoreChanges ++ [.reg .TC_CNT_KILL]

theorem execCoreIdle_keeps {s : State} (h : Keeps cs u s) (core : Nat) (hc : Within execCoreIdleChanges cs) :
    KeepsOut cs u (execCoreIdle core s) := by
  simp only [execCoreIdleChanges, within_append] at hc
  obtain ⟨h0, hd⟩ := hc
  unfold execCoreIdle
  repeat' first
    | with_reducible first
      | assumption | apply KeepsOut.next | apply when_keeps | apply count_keeps | apply updCore_keeps
      | exact .inr (hd.of (by decide))
    | intro _ | split | dsimp only

theorem execCoreFault_keeps {s : State} (h : Keeps cs u s) (core : Nat) (status : W16)
    (hc : Within coreFaultedChanges cs) :
    KeepsOut cs u (execCoreFault core status s) := by
  unfold execCoreFault
  repeat' first
    | with_reducible first
      | assumption | apply KeepsOut.next | apply when_keeps | apply coreFaulted_keeps
    | intro _ | split | dsimp only

def execTcFaultReadChanges : List Comp :=
  sendChanges ++ setCoreChanges ++ [.reg .TC_FAULT]

theorem execTcFaultRead_keeps {s : State} (h : Keeps cs u s) (core : Nat) (event : W64)
    (hc : Within execTcFaultReadChanges cs) :
    KeepsOut cs u (execTcFaultRead core event s) := by
  simp only [execTcFaultReadChanges, within_append, and_assoc] at hc
  obtain ⟨h0, h1, hd⟩ := hc
  unfold execTcFaultRead
  repeat' first
    | with_reducible first
      | assumption | apply KeepsOut.next | apply when_keeps | apply send_keeps | apply setReg_keeps
      | apply updCore_keeps | exact .inr (hd.of (by decide))
    | intro _ | split | dsimp only

end Sys2Proof.Machine
end

