-- ==== Sys2Proof/Laws/KeepsIssue.lean ====
section
/-! SUPPORT. What the functions of the issue of commands and of steps keep and change (Laws/Keeps.lean). -/

set_option Elab.async false

namespace Sys2Proof.Machine

set_option linter.unreachableTactic false
set_option linter.unusedTactic false

variable {cs : Comp → Prop} {u : State}

/-! ## Machine/IssueCmds.lean -/

def writeRecsChanges : List Comp := [.sluBasins]

theorem writeRecs_keeps {s : State} (h : Keeps cs u s) (c : Cmd) (gen : Nat) (tiles : Nat) (x4 : List WorkRec)
    (hd : Within writeRecsChanges cs) :
    Keeps cs u (State.writeRecs s c gen tiles x4) := by
  induction x4 generalizing s c gen tiles with
  | nil => exact h
  | cons y ys ih =>
    unfold State.writeRecs
    repeat' first
      | with_reducible first
        | assumption | apply ih | apply setBasin_keeps | exact hd.of (by decide) | exact Mem.wf_writeList _ _ _
      | intro _ | split | dsimp only

def presetRowsChanges : List Comp := [.sluBasins]

theorem presetRows_keeps {s : State} (h : Keeps cs u s) (c : Cmd) (n : Nat) (bounds : List Nat)
    (hd : Within presetRowsChanges cs) :
    Keeps cs u (State.presetRows s c n bounds) := by
  unfold State.presetRows
  repeat' first
    | with_reducible first
      | assumption | apply setBasin_keeps | exact hd.of (by decide) | exact Mem.wf_writeList _ _ _
    | intro _ | split | dsimp only

theorem presetAll_keeps {s : State} (h : Keeps cs u s) (c : Cmd) (bounds : List Nat) (x3 : List Nat)
    (hc : Within presetRowsChanges cs) :
    Keeps cs u (State.presetAll s c bounds x3) := by
  induction x3 generalizing s c bounds with
  | nil => exact h
  | cons y ys ih =>
    unfold State.presetAll
    repeat' first
      | with_reducible first
        | assumption | apply ih | apply presetRows_keeps
      | intro _ | split | dsimp only

def putIssueChanges : List Comp :=
  writeRecsChanges ++ presetRowsChanges ++ setCmdRunChanges ++ sprintEndChanges ++ [.sluGroups]

theorem putIssue_keeps {s : State} (h : Keeps cs u s) (c : Cmd) (n : Nat) (issue : Nat) (gen : Nat)
    (bounds : List Nat) (w : Nat) (x7 : Nat) (hc : Within putIssueChanges cs) :
    Keeps cs u (State.putIssue s c n issue gen bounds w x7) := by
  simp only [putIssueChanges, within_append, and_assoc] at hc
  obtain ⟨h0, h1, h2, h3, hd⟩ := hc
  unfold State.putIssue
  repeat' first
    | with_reducible first
      | assumption | apply writeRecs_keeps | apply presetAll_keeps | apply setCmdRun_keeps
      | apply sprintCheck_keeps
    | fail_if_no_progress with_reducible refine keeps_mk ?_ | intro _ | split | dsimp only

def withWindowsChanges : List Comp :=
  dropWindowsChanges ++ setCtxRunChanges ++ [.dramWindows, .reg .SLUICE_CNT_WINWAIT]

theorem withWindows_keeps {s : State} (h : Keeps cs u s) (c : Cmd) (st : StepRun) (f : State → State)
    (hc : Within withWindowsChanges cs) (hf : ∀ t, Keeps cs u t → Keeps cs u (f t)) :
    Keeps cs u (State.withWindows s c st f) := by
  simp only [withWindowsChanges, within_append, and_assoc] at hc
  obtain ⟨h0, h1, hd⟩ := hc
  unfold State.withWindows
  repeat' first
    | with_reducible first
      | assumption | apply hf | apply dropWindows_keeps | apply count_keeps | apply updCtxRun_keeps
      | exact .inr (hd.of (by decide))
    | fail_if_no_progress with_reducible refine keeps_mk ?_ | intro _ | split | dsimp only

def countBoundChanges : List Comp := [.reg .CL_CNT_BOUNDFLT, .reg .CL_LAST_BOUNDFLT]

theorem countBound_keeps {s : State} (h : Keeps cs u s) (last : Option Nat) (x2 : List Nat)
    (hd : Within countBoundChanges cs) :
    Keeps cs u (State.countBound s last x2) := by
  induction x2 generalizing s last with
  | nil => exact h
  | cons y ys ih =>
    unfold State.countBound
    repeat' first
      | with_reducible first
        | assumption | apply ih | apply count_keeps | apply setReg_keeps | exact .inr (hd.of (by decide))
      | intro _ | split | dsimp only

def boundFaultChanges : List Comp :=
  cmdFaultChanges ++ countBoundChanges

theorem boundFault_keeps {s : State} (h : Keeps cs u s) (c : Cmd) (cluster : Nat) (st : W16) (b : Option (Nat × Nat))
    (hc : Within boundFaultChanges cs) :
    Keeps cs u (State.boundFault s c cluster st b) := by
  simp only [boundFaultChanges, within_append] at hc
  obtain ⟨h0, h1⟩ := hc
  unfold State.boundFault
  repeat' first
    | with_reducible first
      | assumption | apply cmdFault_keeps | apply countBound_keeps
    | intro _ | split | dsimp only

theorem keepIssue_keeps {s : State} (h : Keeps cs u s) (ctx : Nat) (k : Kept) (hc : Within setCtxRunChanges cs) :
    Keeps cs u (State.keepIssue s ctx k) := by
  unfold State.keepIssue
  repeat' first
    | with_reducible first
      | assumption | apply updCtxRun_keeps
    | intro _ | split | dsimp only

def issueFirstChanges : List Comp :=
  cmdCommitChanges ++ boundFaultChanges ++ withWindowsChanges ++ setCtxRunChanges ++ putIssueChanges ++
    [.freeIdx]

theorem issueFirst_keeps {s : State} (h : Keeps cs u s) (c : Cmd) (st : StepRun) (bounds : List Nat) (w : Nat)
    (x5 : Nat) (hc : Within issueFirstChanges cs) :
    Keeps cs u (State.issueFirst s c st bounds w x5) := by
  simp only [issueFirstChanges, within_append, and_assoc] at hc
  obtain ⟨h0, h1, h2, h3, h4, hd⟩ := hc
  unfold State.issueFirst
  repeat' first
    | with_reducible first
      | assumption | apply cmdCommit_keeps | apply boundFault_keeps | apply withWindows_keeps
      | apply keepIssue_keeps | apply putIssue_keeps
    | fail_if_no_progress with_reducible refine keeps_mk ?_ | intro _ | split | dsimp only

def issueAgainChanges : List Comp :=
  withWindowsChanges ++ putIssueChanges ++ setCtxRunChanges

theorem issueAgain_keeps {s : State} (h : Keeps cs u s) (c : Cmd) (st : StepRun) (k : Kept)
    (hc : Within issueAgainChanges cs) :
    Keeps cs u (State.issueAgain s c st k) := by
  simp only [issueAgainChanges, within_append, and_assoc] at hc
  obtain ⟨h0, h1, h2⟩ := hc
  unfold State.issueAgain
  repeat' first
    | with_reducible first
      | assumption | apply withWindows_keeps | apply putIssue_keeps | apply keepIssue_keeps
    | intro _ | split | dsimp only

def issueReadChanges : List Comp :=
  visitBlockChanges ++ cmdFaultChanges ++ issueAgainChanges ++ boundFaultChanges ++ issueFirstChanges

theorem issueRead_keeps {s : State} (h : Keeps cs u s) (ctx : Nat) (a : Nat) (c : Cmd) (st : StepRun)
    (hc : Within issueReadChanges cs) :
    Keeps cs u (State.issueRead s ctx a c st) := by
  simp only [issueReadChanges, within_append, and_assoc] at hc
  obtain ⟨h0, h1, h2, h3, h4⟩ := hc
  unfold State.issueRead
  repeat' first
    | with_reducible first
      | assumption | apply reads_keeps | apply cmdFault_keeps | apply issueAgain_keeps | apply boundFault_keeps
      | apply issueFirst_keeps
    | intro _ | split | dsimp only

def execCommandIssueChanges : List Comp :=
  cmdFaultChanges ++ issueReadChanges

theorem execCommandIssue_keeps {s : State} (h : Keeps cs u s) (ctx : Nat) (hc : Within execCommandIssueChanges cs) :
    KeepsOut cs u (execCommandIssue ctx s) := by
  simp only [execCommandIssueChanges, within_append] at hc
  obtain ⟨h0, h1⟩ := hc
  unfold execCommandIssue
  repeat' first
    | with_reducible first
      | assumption | apply KeepsOut.next | exact KeepsOut.fault _ | apply when_keeps | apply cmdFault_keeps
      | apply issueRead_keeps
    | intro _ | split | dsimp only

theorem execCommandKill_keeps {s : State} (h : Keeps cs u s) (ctx : Nat) (hc : Within killCmdChanges cs) :
    KeepsOut cs u (execCommandKill ctx s) := by
  unfold execCommandKill
  repeat' first
    | with_reducible first
      | assumption | apply KeepsOut.next | apply killCmd_keeps
    | intro _ | split | dsimp only

def runAgainChanges : List Comp :=
  putIssueChanges ++ setCtxRunChanges

theorem runAgain_keeps {s : State} (h : Keeps cs u s) (c : Cmd) (st : StepRun) (k : Kept)
    (hc : Within runAgainChanges cs) :
    Keeps cs u (State.runAgain s c st k) := by
  simp only [runAgainChanges, within_append] at hc
  obtain ⟨h0, h1⟩ := hc
  unfold State.runAgain
  repeat' first
    | with_reducible first
      | assumption | apply putIssue_keeps | apply keepIssue_keeps
    | intro _ | split | dsimp only

def execCommandReissueChanges : List Comp :=
  setCtxRunChanges ++ withWindowsChanges ++ runAgainChanges ++ dropCmdRunChanges

theorem execCommandReissue_keeps {s : State} (h : Keeps cs u s) (ctx : Nat)
    (hc : Within execCommandReissueChanges cs) :
    KeepsOut cs u (execCommandReissue ctx s) := by
  simp only [execCommandReissueChanges, within_append, and_assoc] at hc
  obtain ⟨h0, h1, h2, h3⟩ := hc
  unfold execCommandReissue
  repeat' first
    | with_reducible first
      | assumption | apply KeepsOut.next | exact KeepsOut.fault _ | apply when_keeps | apply keepIssue_keeps
      | apply updCtxRun_keeps | apply withWindows_keeps | apply runAgain_keeps | apply dropCmdRun_keeps
    | intro _ | split | dsimp only

/-! ## Machine/SluiceCmds.lean -/

theorem enqueue_keeps {s : State} (h : Keeps cs u s) (ctx : Nat) (it : Item) (hc : Within setCtxRunChanges cs) :
    Keeps cs u (State.enqueue s ctx it) := by
  unfold State.enqueue
  repeat' first
    | with_reducible first
      | assumption | apply updCtxRun_keeps
    | intro _ | split | dsimp only

def dropStaleChanges : List Comp :=
  itemGoneChanges ++ setRillChanges

theorem dropStale_keeps {s : State} (h : Keeps cs u s) (ctx : Nat) (it : Item) (counted : Bool)
    (hc : Within dropStaleChanges cs) :
    Keeps cs u (State.dropStale s ctx it counted) := by
  simp only [dropStaleChanges, within_append] at hc
  obtain ⟨h0, h1⟩ := hc
  unfold State.dropStale
  repeat' first
    | with_reducible first
      | assumption | apply itemGone_keeps | apply updRill_keeps
    | intro _ | split | dsimp only

def moveAwayChanges : List Comp :=
  setRillChanges ++ setCtxRunChanges ++ updFlowChanges ++ [.reg .SLUICE_CNT_FALLBACK]

theorem moveAway_keeps {s : State} (h : Keeps cs u s) (ctx : Nat) (fb : Nat) (it : Item) (sw : Option (Nat × Nat))
    (hc : Within moveAwayChanges cs) :
    Keeps cs u (State.moveAway s ctx fb it sw) := by
  simp only [moveAwayChanges, within_append, and_assoc] at hc
  obtain ⟨h0, h1, h2, hd⟩ := hc
  unfold State.moveAway
  repeat' first
    | with_reducible first
      | assumption | apply count_keeps | apply updRill_keeps | apply updCtxRun_keeps | apply updFlow_keeps
      | apply enqueue_keeps | exact .inr (hd.of (by decide))
    | intro _ | split | dsimp only

def pickItemsChanges : List Comp :=
  dropStaleChanges ++ moveAwayChanges

theorem pickItems_keeps {s : Pick} (h : Keeps cs u s.s) (x1 : CtxEntry) (anyOld : Bool) (x3 : List Item)
    (hc : Within pickItemsChanges cs) :
    Keeps cs u (pickItems x1 anyOld x3 s).s := by
  simp only [pickItemsChanges, within_append] at hc
  obtain ⟨h0, h1⟩ := hc
  induction x3 generalizing s x1 anyOld with
  | nil => exact h
  | cons y ys ih =>
    unfold pickItems
    repeat' first
      | with_reducible first
        | assumption | apply ih | apply dropStale_keeps | apply moveAway_keeps
      | intro _ | split | dsimp only

theorem stopReceiving_keeps {s : State} (h : Keeps cs u s) (x1 : List FbEntry) (hc : Within setCtxRunChanges cs) :
    Keeps cs u (State.stopReceiving s x1) := by
  induction x1 generalizing s with
  | nil => exact h
  | cons y ys ih =>
    unfold State.stopReceiving
    repeat' first
      | with_reducible first
        | assumption | apply ih | apply updCtxRun_keeps
      | intro _ | split | dsimp only

def dropReceivingChanges : List Comp :=
  setRillChanges ++ setCtxRunChanges

theorem dropReceiving_keeps {s : State} (h : Keeps cs u s) (ctx : Nat) (taken : List Item)
    (hc : Within dropReceivingChanges cs) :
    Keeps cs u (s.dropReceiving ctx taken) := by
  simp only [dropReceivingChanges, within_append] at hc
  obtain ⟨h0, h1⟩ := hc
  unfold State.dropReceiving
  dsimp only
  have h1 : Keeps cs u (taken.foldl (fun (a : State) it => a.updRill it.rill (fun r =>
      { r with holds := r.holds.filter (fun h => h.1 != ctx || decide (it.frame < h.2.2)) })) s) := by
    induction taken generalizing s with
    | nil => exact h
    | cons x xs ih => exact ih (updRill_keeps h _ _ (by assumption))
  generalize taken.foldl _ s = t at h1 ⊢
  repeat' first
    | with_reducible first
      | assumption | apply updRill_keeps | apply stopReceiving_keeps
    | intro _ | split | dsimp only

def pickChanges : List Comp :=
  setCtxRunChanges ++ pickItemsChanges

theorem pick_keeps {s : State} (h : Keeps cs u s) (x1 : CtxEntry) (q : List Item) (hc : Within pickChanges cs) :
    Keeps cs u (State.pick s x1 q).s := by
  simp only [pickChanges, within_append] at hc
  obtain ⟨h0, h1⟩ := hc
  unfold State.pick
  repeat' first
    | with_reducible first
      | assumption | apply updCtxRun_keeps | apply pickItems_keeps
    | intro _ | split | dsimp only

def execStepStartChanges : List Comp :=
  pickChanges ++ setCtxRunChanges ++ settleChanges ++ dropReceivingChanges ++ scheduleChanges ++
    yieldLaneChanges

theorem execStepStart_keeps {s : State} (h : Keeps cs u s) (ctx : Nat) (cluster : Nat)
    (hc : Within execStepStartChanges cs) :
    KeepsOut cs u (execStepStart ctx cluster s) := by
  simp only [execStepStartChanges, within_append, and_assoc] at hc
  obtain ⟨h0, h1, h2, h3, h4, h5⟩ := hc
  unfold execStepStart
  repeat' first
    | with_reducible first
      | assumption | apply KeepsOut.next | exact KeepsOut.fault _ | apply when_keeps | apply pick_keeps
      | apply updCtxRun_keeps | apply settle_keeps | apply dropReceiving_keeps | apply schedule_keeps
      | apply yieldLanes_keeps
    | intro _ | split | dsimp only

def laneEndChanges : List Comp :=
  yieldLaneChanges ++ preemptCtxChanges ++ startSliceChanges ++ [.reg .SLUICE_CNT_OVERRUN, .sluEnded]

theorem laneEnd_keeps {s : State} (h : Keeps cs u s) (c : Nat) (key : Nat) (hc : Within laneEndChanges cs) :
    Keeps cs u (State.laneEnd s c key) := by
  simp only [laneEndChanges, within_append, and_assoc] at hc
  obtain ⟨h0, h1, h2, hd⟩ := hc
  unfold State.laneEnd
  repeat' first
    | with_reducible first
      | assumption | apply yieldLane_keeps | apply count_keeps | apply preemptCtx_keeps | apply startSlice_keeps
      | exact .inr (hd.of (by decide))
    | fail_if_no_progress with_reducible refine keeps_mk ?_ | intro _ | split | dsimp only

def execSliceEndChanges : List Comp :=
  grantChanges ++ preemptCtxChanges ++ startSliceChanges ++ laneEndChanges

theorem execSliceEnd_keeps {s : State} (h : Keeps cs u s) (lane : Lane) (hc : Within execSliceEndChanges cs) :
    KeepsOut cs u (execSliceEnd lane s) := by
  simp only [execSliceEndChanges, within_append, and_assoc] at hc
  obtain ⟨h0, h1, h2, h3⟩ := hc
  unfold execSliceEnd
  repeat' first
    | with_reducible first
      | assumption | apply KeepsOut.next | apply when_keeps | apply grantFree_keeps | apply preemptCtx_keeps
      | apply startSlice_keeps | apply laneEnd_keeps
    | intro _ | split | dsimp only

theorem settleIn_keeps {s : State} (h : Keeps cs u s) (ctx : Nat) (n : Nat) (p : Nat × List Nat × Nat)
    (hc : Within setCtxRunChanges cs) :
    Keeps cs u (State.settleIn s ctx n p) := by
  unfold State.settleIn
  repeat' first
    | with_reducible first
      | assumption | apply updCtxRun_keeps
    | intro _ | split | dsimp only

theorem execBringIn_keeps {s : State} (h : Keeps cs u s) (ctx : Nat) (cluster : Nat)
    (hc : Within setCtxRunChanges cs) :
    KeepsOut cs u (execBringIn ctx cluster s) := by
  unfold execBringIn
  repeat' first
    | with_reducible first
      | assumption | apply KeepsOut.next | exact KeepsOut.fault _ | apply when_keeps | apply updCtxRun_keeps
    | intro _ | split | dsimp only

theorem saveBlocks_keeps {s : State} (h : Keeps cs u s) (ctx : Nat) (n : Nat) (x3 : Nat)
    (hc : Within putBlockChanges cs) :
    Keeps cs u (State.saveBlocks s ctx n x3) := by
  induction x3 generalizing s ctx n with
  | zero => exact h
  | succ y ih =>
    unfold State.saveBlocks
    repeat' first
      | with_reducible first
        | assumption | apply ih | apply dramPut_keeps
      | intro _ | split | dsimp only

def restoreBlocksChanges : List Comp :=
  visitBlockChanges ++ setCtxRunChanges ++ [.sluBasins]

theorem restoreBlocks_keeps {s : State} (h : Keeps cs u s) (ctx : Nat) (n : Nat) (a : Nat) (x4 : Nat)
    (hc : Within restoreBlocksChanges cs) :
    Keeps cs u (State.restoreBlocks s ctx n a x4) := by
  simp only [restoreBlocksChanges, within_append, and_assoc] at hc
  obtain ⟨h0, h1, hd⟩ := hc
  induction x4 generalizing s ctx n a with
  | zero => exact h
  | succ y ih =>
    unfold State.restoreBlocks
    repeat' first
      | with_reducible first
        | assumption | apply ih | apply reads_keeps | apply updCtxRun_keeps | apply setBasin_keeps
        | exact hd.of (by decide) | exact Mem.wf_writeList _ _ _
      | intro _ | split | dsimp only

def execBringInCompleteChanges : List Comp :=
  scheduleChanges ++ setCtxRunChanges ++ restoreBlocksChanges

theorem execBringInComplete_keeps {s : State} (h : Keeps cs u s) (ctx : Nat) (cluster : Nat)
    (hc : Within execBringInCompleteChanges cs) :
    KeepsOut cs u (execBringInComplete ctx cluster s) := by
  simp only [execBringInCompleteChanges, within_append, and_assoc] at hc
  obtain ⟨h0, h1, h2⟩ := hc
  unfold execBringInComplete
  repeat' first
    | with_reducible first
      | assumption | apply KeepsOut.next | apply when_keeps | apply schedule_keeps | apply refresh_keeps
      | apply settleIn_keeps | apply restoreBlocks_keeps
    | intro _ | split | dsimp only

def execContextEvictChanges : List Comp :=
  setCtxRunChanges ++ putBlockChanges ++ [.reg .SLUICE_CNT_EVICT]

theorem execContextEvict_keeps {s : State} (h : Keeps cs u s) (cluster : Nat) (waiting : Nat)
    (hc : Within execContextEvictChanges cs) :
    KeepsOut cs u (execContextEvict cluster waiting s) := by
  simp only [execContextEvictChanges, within_append, and_assoc] at hc
  obtain ⟨h0, h1, hd⟩ := hc
  unfold execContextEvict
  repeat' first
    | with_reducible first
      | assumption | apply KeepsOut.next | exact KeepsOut.fault _ | apply when_keeps | apply removeFrom_keeps
      | apply saveBlocks_keeps | apply refresh_keeps | apply count_keeps | apply updCtxRun_keeps
      | exact .inr (hd.of (by decide))
    | intro _ | split | dsimp only

def execStarvedTickChanges : List Comp :=
  setCtxRunChanges ++ [.reg .SLUICE_CNT_STARVED]

theorem execStarvedTick_keeps {s : State} (h : Keeps cs u s) (ctx : Nat) (cluster : Nat)
    (hc : Within execStarvedTickChanges cs) :
    KeepsOut cs u (execStarvedTick ctx cluster s) := by
  simp only [execStarvedTickChanges, within_append] at hc
  obtain ⟨h0, hd⟩ := hc
  unfold execStarvedTick
  repeat' first
    | with_reducible first
      | assumption | apply KeepsOut.next | exact KeepsOut.fault _ | apply when_keeps | apply count_keeps
      | apply updCtxRun_keeps | exact .inr (hd.of (by decide))
    | intro _ | split | dsimp only

def copyTurnChanges : List Comp :=
  laneTurnChanges ++ preemptCtxChanges

theorem copyTurn_keepsq {s : State} (h : Keeps cs u s) {e : CtxEntry} (hc : Within copyTurnChanges cs) {k : Nat}
    {t : State}
    (q : s.copyTurn e = some (k, t)) : Keeps cs u t := by
  simp only [copyTurnChanges, within_append] at hc
  obtain ⟨h0, h1⟩ := hc
  unfold State.copyTurn at q
  split at q
  next e1 => cases q; exact laneTurn_keepsq h (by assumption) e1
  next =>
    obtain ⟨c, -, q⟩ := Option.bind_eq_some_iff.1 q
    exact laneTurn_keepsq (preemptCtx_keeps h _ (by assumption)) (by assumption) q

def runMoveChanges : List Comp :=
  setCmdRunChanges ++ copyTurnChanges ++ [.dramWindows]

theorem runMove_keeps {s : State} (h : Keeps cs u s) (x1 : CtxEntry) (k : Nat) (c : CopyCmd) (x4 : CmdRun)
    (hc : Within runMoveChanges cs) :
    Keeps cs u (State.runMove s x1 k c x4) := by
  simp only [runMoveChanges, within_append, and_assoc] at hc
  obtain ⟨h0, h1, hd⟩ := hc
  unfold State.runMove
  repeat' first
    | with_reducible first
      | assumption | apply setCmdRun_keeps | refine copyTurn_keepsq ?_ (by assumption) (by assumption)
    | fail_if_no_progress with_reducible refine keeps_mk ?_ | intro _ | split | dsimp only

def startMoveChanges : List Comp :=
  runMoveChanges ++ dropWindowsChanges ++ [.reg .SLUICE_CNT_WINWAIT]

theorem startMove_keeps {s : State} (h : Keeps cs u s) (x1 : CtxEntry) (hc : Within startMoveChanges cs) :
    Keeps cs u (State.startMove s x1) := by
  simp only [startMoveChanges, within_append, and_assoc] at hc
  obtain ⟨h0, h1, hd⟩ := hc
  unfold State.startMove
  repeat' first
    | with_reducible first
      | assumption | apply runMove_keeps | apply dropWindows_keeps | apply count_keeps
      | exact .inr (hd.of (by decide))
    | intro _ | split | dsimp only

theorem copyBytes_keeps {s : State} (h : Keeps cs u s) (src : Nat) (dst : Nat) (k : Nat)
    (hc : Within memPutChanges cs) :
    Keeps cs u (State.copyBytes s src dst k) := by
  unfold State.copyBytes
  repeat' first
    | with_reducible first
      | assumption | apply memPut_keeps
    | intro _ | split | dsimp only

theorem holdsCommit_keeps {s : State} (h : Keeps cs u s) (ctx : Nat) (hc : Within laneCommitChanges cs) :
    Keeps cs u (State.holdsCommit s ctx) := by
  unfold State.holdsCommit
  repeat' first
    | with_reducible first
      | assumption | apply laneCommit_keeps
    | intro _ | split | dsimp only

def endMoveChanges : List Comp :=
  visitBlockChanges ++ setCtxRunChanges ++ cmdFaultChanges ++ dropCmdRunChanges ++ dropWindowsChanges ++
    memPutChanges ++ settleChanges ++ laneCommitChanges

theorem endMove_keeps {s : State} (h : Keeps cs u s) (x1 : CtxEntry) (x2 : CmdRun) (k : Nat) (c : CopyCmd)
    (hc : Within endMoveChanges cs) :
    Keeps cs u (State.endMove s x1 x2 k c) := by
  simp only [endMoveChanges, within_append, and_assoc] at hc
  obtain ⟨h0, h1, h2, h3, h4, h5, h6, h7⟩ := hc
  unfold State.endMove
  repeat' first
    | with_reducible first
      | assumption | apply reads_keeps | apply updCtxRun_keeps | apply cmdFault_keeps | apply dropCmdRun_keeps
      | apply dropWindows_keeps | apply copyBytes_keeps | apply settle_keeps | apply holdsCommit_keeps
    | intro _ | split | dsimp only

def execMoveChanges : List Comp :=
  startMoveChanges ++ endMoveChanges

theorem execMove_keeps {s : State} (h : Keeps cs u s) (m : MoveEvent) (hc : Within execMoveChanges cs) :
    KeepsOut cs u (execMove m s) := by
  simp only [execMoveChanges, within_append] at hc
  obtain ⟨h0, h1⟩ := hc
  unfold execMove
  repeat' first
    | with_reducible first
      | assumption | apply KeepsOut.next | apply when_keeps | apply startMove_keeps | apply endMove_keeps
    | intro _ | split | dsimp only

end Sys2Proof.Machine
end

