-- ==== Sys2Proof/Laws/KeepsVideo.lean ====
section
/-! SUPPORT. What the functions of rings, ingest and decode keep and change (Laws/Keeps.lean). -/

set_option Elab.async false

namespace Sys2Proof.Machine

set_option linter.unreachableTactic false
set_option linter.unusedTactic false

variable {cs : Comp → Prop} {u : State}

/-! ## Machine/RingOps.lean -/

theorem ringWrite_keeps {s : State} (h : Keeps cs u s) (c : RingCfg) (x2 : Ring) (rec : Nat → List Byte)
    (hc : Within hostWriteChanges cs) :
    Keeps cs u (State.ringWrite s c x2 rec).s := by
  unfold State.ringWrite
  repeat' first
    | with_reducible first
      | assumption | apply hostWrite_keeps
    | intro _ | split | dsimp only

def ringPushChanges : List Comp :=
  hostReadChanges ++ hostWriteChanges ++ [.freeIdx]

theorem ringPush_keeps {s : State} (h : Keeps cs u s) (c : RingCfg) (x2 : Ring) (rec : Nat → List Byte)
    (hc : Within ringPushChanges cs) :
    Keeps cs u (State.ringPush s c x2 rec).s := by
  simp only [ringPushChanges, within_append, and_assoc] at hc
  obtain ⟨h0, h1, hd⟩ := hc
  unfold State.ringPush
  repeat' first
    | with_reducible first
      | assumption | apply hostRead_keeps | apply ringWrite_keeps
    | fail_if_no_progress with_reducible refine keeps_mk ?_ | intro _ | split | dsimp only

def setEvtChanges : List Comp := [.ingEvt]

theorem setEvt_keeps {s : State} (h : Keeps cs u s) (x1 : Ring) (hd : Within setEvtChanges cs) :
    Keeps cs u (State.setEvt s x1) := by
  unfold State.setEvt
  repeat' first
    | with_reducible first
      | assumption
    | fail_if_no_progress with_reducible refine keeps_mk ?_ | intro _ | split | dsimp only

def ingestEventChanges : List Comp :=
  setRillChanges ++ ringPushChanges ++ edgeChanges ++ setEvtChanges ++ [.reg .INGEST_EVT_LOST]

theorem ingestEvent_keeps {s : State} (h : Keeps cs u s) (x1 : EvRec) (hc : Within ingestEventChanges cs) :
    Keeps cs u (State.ingestEvent s x1) := by
  simp only [ingestEventChanges, within_append, and_assoc] at hc
  obtain ⟨h0, h1, h2, h3, hd⟩ := hc
  unfold State.ingestEvent
  repeat' first
    | with_reducible first
      | assumption | apply updRill_keeps | apply ringPush_keeps | apply raise_keeps | apply setEvt_keeps
      | apply count_keeps | exact .inr (hd.of (by decide))
    | intro _ | split | dsimp only

def metaRecordChanges : List Comp :=
  ringPushChanges ++ edgeChanges ++ setRingChanges ++ [.reg .TRK_RING_LOST]

theorem metaRecord_keeps {s : State} (h : Keeps cs u s) (k : MetaKey) (kind : Nat) (status : Nat) (body : List Byte)
    (hc : Within metaRecordChanges cs) :
    Keeps cs u (State.metaRecord s k kind status body) := by
  simp only [metaRecordChanges, within_append, and_assoc] at hc
  obtain ⟨h0, h1, h2, hd⟩ := hc
  unfold State.metaRecord
  repeat' first
    | with_reducible first
      | assumption | apply ringPush_keeps | apply raise_keeps | apply setRing_keeps | apply count_keeps
      | exact .inr (hd.of (by decide))
    | intro _ | split | dsimp only

theorem metaRecords_keeps {s : State} (h : Keeps cs u s) (k : MetaKey) (x2 : List (Nat × Nat × List Byte))
    (hc : Within metaRecordChanges cs) :
    Keeps cs u (State.metaRecords s k x2) := by
  induction x2 generalizing s k with
  | nil => exact h
  | cons y ys ih =>
    unfold State.metaRecords
    repeat' first
      | with_reducible first
        | assumption | apply ih | apply metaRecord_keeps
      | intro _ | split | dsimp only

def cachePutChanges : List Comp :=
  memPutChanges ++ [.trkCache]

theorem cachePut_keeps {s : State} (h : Keeps cs u s) (i : Nat) (bs : List Byte) (hc : Within cachePutChanges cs) :
    Keeps cs u (State.cachePut s i bs) := by
  simp only [cachePutChanges, within_append] at hc
  obtain ⟨h0, hd⟩ := hc
  unfold State.cachePut
  repeat' first
    | with_reducible first
      | assumption | apply memPut_keeps
    | fail_if_no_progress with_reducible refine keeps_mk ?_ | intro _ | split | dsimp only

def fetchTrackChanges : List Comp :=
  visitBlockChanges ++ elogChanges ++ cachePutChanges ++
    [.reg .TRK_CNT_HIT, .reg .TRK_CNT_MISS, .reg .TRK_CNT_POISON]

theorem fetchTrack_keeps {s : State} (h : Keeps cs u s) (k : TrackRef) (hc : Within fetchTrackChanges cs) :
    Keeps cs u (State.fetchTrack s k).1 := by
  simp only [fetchTrackChanges, within_append, and_assoc] at hc
  obtain ⟨h0, h1, h2, hd⟩ := hc
  unfold State.fetchTrack
  repeat' first
    | with_reducible first
      | assumption | apply addTo_keeps | apply visit_keeps | apply elog_keeps | apply count_keeps
      | apply cachePut_keeps | exact .inr (hd.of (by decide))
    | intro _ | split | dsimp only

theorem fetchTrack_keepsq {s : State} (h : Keeps cs u s) {k : TrackRef} (hc : Within fetchTrackChanges cs) {r t}
    (e : State.fetchTrack s k = (t, r)) :
    Keeps cs u t := by
  have := fetchTrack_keeps h k hc
  rwa [e] at this

theorem freeRecord_keeps {s : State} (h : Keeps cs u s) (i : Nat) (hc : Within cachePutChanges cs) :
    Keeps cs u (State.freeRecord s i) := by
  unfold State.freeRecord
  repeat' first
    | with_reducible first
      | assumption | apply cachePut_keeps
    | intro _ | split | dsimp only

theorem freeRecords_keeps {s : State} (h : Keeps cs u s) (x1 : List TrackRef) (hc : Within cachePutChanges cs) :
    Keeps cs u (State.freeRecords s x1) := by
  induction x1 generalizing s with
  | nil => exact h
  | cons y ys ih =>
    unfold State.freeRecords
    repeat' first
      | with_reducible first
        | assumption | apply ih | apply freeRecord_keeps
      | intro _ | split | dsimp only

theorem putTracks_keeps {s : State} (h : Keeps cs u s) (x1 : List Track) (hc : Within cachePutChanges cs) :
    Keeps cs u (State.putTracks s x1) := by
  induction x1 generalizing s with
  | nil => exact h
  | cons y ys ih =>
    unfold State.putTracks
    repeat' first
      | with_reducible first
        | assumption | apply ih | apply cachePut_keeps
      | intro _ | split | dsimp only

def takeTracksChanges : List Comp := [.trkEmbq, .trkTracks]

theorem takeTracks_keeps {s : State} (h : Keeps cs u s) (x1 : Nat) (hd : Within takeTracksChanges cs) :
    Keeps cs u (State.takeTracks s x1) := by
  unfold State.takeTracks
  repeat' first
    | with_reducible first
      | assumption
    | fail_if_no_progress with_reducible refine keeps_mk ?_ | intro _ | split | dsimp only

def freeTracksChanges : List Comp :=
  takeTracksChanges ++ cachePutChanges

theorem freeTracks_keeps {s : State} (h : Keeps cs u s) (x1 : Nat) (hc : Within freeTracksChanges cs) :
    Keeps cs u (State.freeTracks s x1) := by
  simp only [freeTracksChanges, within_append] at hc
  obtain ⟨h0, h1⟩ := hc
  unfold State.freeTracks
  repeat' first
    | with_reducible first
      | assumption | apply takeTracks_keeps | apply freeRecords_keeps
    | intro _ | split | dsimp only

theorem endEvents_keeps {s : State} (h : Keeps cs u s) (x1 : List TrackRef) (hc : Within fetchTrackChanges cs) :
    Keeps cs u (State.endEvents s x1).1 := by
  induction x1 generalizing s with
  | nil => exact h
  | cons y ys ih =>
    unfold State.endEvents
    repeat' first
      | with_reducible first
        | assumption | apply ih | apply fetchTrack_keeps
      | intro _ | split | dsimp only

theorem endEvents_keepsq {s : State} (h : Keeps cs u s) {x1 : List TrackRef} (hc : Within fetchTrackChanges cs) {r t}
    (e : State.endEvents s x1 = (t, r)) :
    Keeps cs u t := by
  have := endEvents_keeps h x1 hc
  rwa [e] at this

def endTracksChanges : List Comp :=
  fetchTrackChanges ++ metaRecordChanges ++ freeTracksChanges

theorem endTracks_keeps {s : State} (h : Keeps cs u s) (x1 : Nat) (hc : Within endTracksChanges cs) :
    Keeps cs u (State.endTracks s x1) := by
  simp only [endTracksChanges, within_append, and_assoc] at hc
  obtain ⟨h0, h1, h2⟩ := hc
  unfold State.endTracks
  repeat' first
    | with_reducible first
      | assumption | apply endEvents_keeps | apply metaRecords_keeps | apply freeTracks_keeps
    | intro _ | split | dsimp only

theorem addWork_keeps {s : State} (h : Keeps cs u s) (x1 : Nat) (cycles : Nat) (hc : Within setRillChanges cs) :
    Keeps cs u (State.addWork s x1 cycles) := by
  unfold State.addWork
  repeat' first
    | with_reducible first
      | assumption | apply updRill_keeps
    | intro _ | split | dsimp only

theorem statusOf_keeps {s : State} (h : Keeps cs u s) (x : Rill) (hc : Within hostWriteChanges cs) :
    Keeps cs u (State.statusOf s x) := by
  unfold State.statusOf
  repeat' first
    | with_reducible first
      | assumption | apply hostWrite_keeps
    | intro _ | split | dsimp only

theorem statusRecord_keeps {s : State} (h : Keeps cs u s) (x1 : Nat) (hc : Within hostWriteChanges cs) :
    Keeps cs u (State.statusRecord s x1) := by
  unfold State.statusRecord
  repeat' first
    | with_reducible first
      | assumption | apply statusOf_keeps
    | intro _ | split | dsimp only

/-! ## Machine/IngestOps.lean -/

theorem updDec_keeps {s : State} (h : Keeps cs u s) (x1 : Nat) (f : DecCtx → DecCtx)
    (hc : Within setDecCtxChanges cs) :
    Keeps cs u (State.updDec s x1 f) := by
  unfold State.updDec
  repeat' first
    | with_reducible first
      | assumption | apply setDecCtx_keeps
    | intro _ | split | dsimp only

def refuseAuChanges : List Comp :=
  setRillChanges ++ ingestEventChanges ++ [.reg .DEC_CNT_REFUSE]

theorem refuseAu_keeps {s : State} (h : Keeps cs u s) (eng : Nat) (au : AuJob) (k : RillClass) (x4 : SeqHdr)
    (st : W16) (event : Bool) (hc : Within refuseAuChanges cs) :
    Keeps cs u (State.refuseAu s eng au k x4 st event) := by
  simp only [refuseAuChanges, within_append, and_assoc] at hc
  obtain ⟨h0, h1, hd⟩ := hc
  unfold State.refuseAu
  repeat' first
    | with_reducible first
      | assumption | apply count_keeps | apply updRill_keeps | apply ingestEvent_keeps
      | exact .inr (hd.of (by decide))
    | intro _ | split | dsimp only

def dropPictureChanges : List Comp :=
  setRillChanges ++ ingestEventChanges ++ [.reg .DEC_CNT_NOBUF]

theorem dropPicture_keeps {s : State} (h : Keeps cs u s) (eng : Nat) (au : AuJob) (st : W16)
    (hc : Within dropPictureChanges cs) :
    Keeps cs u (State.dropPicture s eng au st) := by
  simp only [dropPictureChanges, within_append, and_assoc] at hc
  obtain ⟨h0, h1, hd⟩ := hc
  unfold State.dropPicture
  repeat' first
    | with_reducible first
      | assumption | apply count_keeps | apply updRill_keeps | apply ingestEvent_keeps
      | exact .inr (hd.of (by decide))
    | intro _ | split | dsimp only

def markFramesChanges : List Comp := [.ingFrames]

theorem markFrames_keeps {s : State} (h : Keeps cs u s) (x1 : Nat) (refs : List Nat) (n : Nat)
    (hd : Within markFramesChanges cs) :
    Keeps cs u (State.markFrames s x1 refs n) := by
  unfold State.markFrames
  repeat' first
    | with_reducible first
      | assumption
    | fail_if_no_progress with_reducible refine keeps_mk ?_ | intro _ | split | dsimp only

theorem remark_keeps {s : State} (h : Keeps cs u s) (x1 : Nat) (hc : Within markFramesChanges cs) :
    Keeps cs u (State.remark s x1) := by
  unfold State.remark
  repeat' first
    | with_reducible first
      | assumption | apply markFrames_keeps
    | intro _ | split | dsimp only

def outputChanges : List Comp :=
  setRillChanges ++ memPutChanges ++ markFramesChanges ++ setRillTrkChanges ++
    [.ingFrames, .reg .DEC_CNT_FRAMES, .trkFlows]

theorem output_keeps {s : State} (h : Keeps cs u s) (eng : Nat) (k : RillClass) (f : Frame) (disc : Nat)
    (hdr : Nat → List Byte) (hc : Within outputChanges cs) :
    Keeps cs u (State.output s eng k f disc hdr) := by
  simp only [outputChanges, within_append, and_assoc] at hc
  obtain ⟨h0, h1, h2, h3, hd⟩ := hc
  unfold State.output
  repeat' first
    | with_reducible first
      | assumption | apply setRill_keeps | apply addTo_keeps | apply memPut_keeps | apply remark_keeps
      | apply setRillTrk_keeps | exact .inr (hd.of (by decide))
    | fail_if_no_progress with_reducible refine keeps_mk ?_ | intro _ | split | dsimp only

theorem outputPic_keeps {s : State} (h : Keeps cs u s) (c : Nat) (k : RillClass) (p : Pic)
    (hc : Within outputChanges cs) :
    Keeps cs u (State.outputPic s c k p) := by
  unfold State.outputPic
  repeat' first
    | with_reducible first
      | assumption | apply output_keeps
    | intro _ | split | dsimp only

def outputHeldChanges : List Comp :=
  outputChanges ++ setDecCtxChanges

theorem outputHeld_keeps {s : State} (h : Keeps cs u s) (c : Nat) (k : RillClass) (x3 : List Nat)
    (hc : Within outputHeldChanges cs) :
    Keeps cs u (State.outputHeld s c k x3) := by
  simp only [outputHeldChanges, within_append] at hc
  obtain ⟨h0, h1⟩ := hc
  induction x3 generalizing s c k with
  | nil => exact h
  | cons y ys ih =>
    unfold State.outputHeld
    repeat' first
      | with_reducible first
        | assumption | apply ih | apply outputPic_keeps | apply setDecCtx_keeps
      | intro _ | split | dsimp only

def outputAllChanges : List Comp :=
  outputHeldChanges ++ [.freeIdx]

theorem outputAll_keeps {s : State} (h : Keeps cs u s) (c : Nat) (k : RillClass) (x3 : Nat)
    (hc : Within outputAllChanges cs) :
    Keeps cs u (State.outputAll s c k x3) := by
  simp only [outputAllChanges, within_append] at hc
  obtain ⟨h0, hd⟩ := hc
  induction x3 generalizing s c k with
  | zero => exact h
  | succ y ih =>
    unfold State.outputAll
    repeat' first
      | with_reducible first
        | assumption | apply ih | apply outputHeld_keeps
      | fail_if_no_progress with_reducible refine keeps_mk ?_ | intro _ | split | dsimp only

theorem endStream_keeps {s : State} (h : Keeps cs u s) (c : Nat) (k : RillClass) (au : AuJob)
    (hc : Within outputAllChanges cs) :
    Keeps cs u (State.endStream s c k au) := by
  unfold State.endStream
  repeat' first
    | with_reducible first
      | assumption | apply outputAll_keeps
    | intro _ | split | dsimp only

def discontinueChanges : List Comp :=
  setDecCtxChanges ++ markFramesChanges

theorem discontinue_keeps {s : State} (h : Keeps cs u s) (c : Nat) (hc : Within discontinueChanges cs) :
    Keeps cs u (State.discontinue s c) := by
  simp only [discontinueChanges, within_append] at hc
  obtain ⟨h0, h1⟩ := hc
  unfold State.discontinue
  repeat' first
    | with_reducible first
      | assumption | apply setDecCtx_keeps | apply remark_keeps
    | intro _ | split | dsimp only

def rillFaultChanges : List Comp :=
  hostWriteChanges ++ setRillChanges ++ ingestEventChanges

theorem rillFault_keeps {s : State} (h : Keeps cs u s) (x1 : Nat) (st : W16) (hc : Within rillFaultChanges cs) :
    Keeps cs u (State.rillFault s x1 st) := by
  simp only [rillFaultChanges, within_append, and_assoc] at hc
  obtain ⟨h0, h1, h2⟩ := hc
  unfold State.rillFault
  repeat' first
    | with_reducible first
      | assumption | apply statusRecord_keeps | apply updRill_keeps | apply ingestEvent_keeps
    | intro _ | split | dsimp only

def pollFailedChanges : List Comp :=
  setRillChanges ++ rillFaultChanges

theorem pollFailed_keeps {s : State} (h : Keeps cs u s) (x1 : Nat) (hc : Within pollFailedChanges cs) :
    Keeps cs u (State.pollFailed s x1) := by
  simp only [pollFailedChanges, within_append] at hc
  obtain ⟨h0, h1⟩ := hc
  unfold State.pollFailed
  repeat' first
    | with_reducible first
      | assumption | apply updRill_keeps | apply rillFault_keeps
    | intro _ | split | dsimp only

theorem freeAu_keeps {s : State} (h : Keeps cs u s) (au : AuJob) (hc : Within releaseChanges cs) :
    Keeps cs u (State.freeAu s au) := by
  unfold State.freeAu
  repeat' first
    | with_reducible first
      | assumption | apply release_keeps
    | intro _ | split | dsimp only

theorem freeAus_keeps {s : State} (h : Keeps cs u s) (x1 : List AuJob) (hc : Within releaseChanges cs) :
    Keeps cs u (State.freeAus s x1) := by
  induction x1 generalizing s with
  | nil => exact h
  | cons y ys ih =>
    unfold State.freeAus
    repeat' first
      | with_reducible first
        | assumption | apply ih | apply freeAu_keeps
      | intro _ | split | dsimp only

theorem freePics_keeps {s : State} (h : Keeps cs u s) (x1 : Nat) (x2 : List Pic) (hc : Within releaseChanges cs) :
    Keeps cs u (State.freePics s x1 x2) := by
  induction x2 generalizing s x1 with
  | nil => exact h
  | cons y ys ih =>
    unfold State.freePics
    repeat' first
      | with_reducible first
        | assumption | apply ih | apply release_keeps
      | intro _ | split | dsimp only

def freeCtxChanges : List Comp :=
  releaseChanges ++ setEngineChanges ++ markFramesChanges ++ setDecCtxChanges

theorem freeCtx_keeps {s : State} (h : Keeps cs u s) (x1 : Nat) (hc : Within freeCtxChanges cs) :
    Keeps cs u (State.freeCtx s x1) := by
  simp only [freeCtxChanges, within_append, and_assoc] at hc
  obtain ⟨h0, h1, h2, h3⟩ := hc
  unfold State.freeCtx
  repeat' first
    | with_reducible first
      | assumption | apply freePics_keeps | apply freeAus_keeps | apply setEngine_keeps | apply markFrames_keeps
      | apply setDecCtx_keeps
    | intro _ | split | dsimp only

def dropRillChanges : List Comp :=
  setFnChanges ++ releaseChanges ++ freeCtxChanges

theorem dropRill_keeps {s : State} (h : Keeps cs u s) (x1 : Nat) (hc : Within dropRillChanges cs) :
    Keeps cs u (State.dropRill s x1) := by
  simp only [dropRillChanges, within_append, and_assoc] at hc
  obtain ⟨h0, h1, h2⟩ := hc
  unfold State.dropRill
  repeat' first
    | with_reducible first
      | assumption | apply setFn_keeps | apply freeAus_keeps | apply freeCtx_keeps
    | intro _ | split | dsimp only

theorem clearRill_keeps {s : State} (h : Keeps cs u s) (x1 : Nat) (hc : Within setRillChanges cs) :
    Keeps cs u (State.clearRill s x1) := by
  unfold State.clearRill
  repeat' first
    | with_reducible first
      | assumption | apply updRill_keeps
    | intro _ | split | dsimp only

def detachChanges : List Comp :=
  hostWriteChanges ++ setRillChanges

theorem detach_keeps {s : State} (h : Keeps cs u s) (x1 : Nat) (hc : Within detachChanges cs) :
    Keeps cs u (State.detach s x1) := by
  simp only [detachChanges, within_append] at hc
  obtain ⟨h0, h1⟩ := hc
  unfold State.detach
  repeat' first
    | with_reducible first
      | assumption | apply statusRecord_keeps | apply updRill_keeps
    | intro _ | split | dsimp only

/-! ## Machine/IngestCmds.lean -/

def skipDescriptorChanges : List Comp :=
  setRillChanges ++ ingestEventChanges ++ discontinueChanges ++ setDecCtxChanges ++ hostWriteChanges

theorem skipDescriptor_keeps {s : State} (h : Keeps cs u s) (x1 : Nat) (j : AuJob)
    (hc : Within skipDescriptorChanges cs) :
    Keeps cs u (State.skipDescriptor s x1 j) := by
  simp only [skipDescriptorChanges, within_append, and_assoc] at hc
  obtain ⟨h0, h1, h2, h3, h4⟩ := hc
  unfold State.skipDescriptor
  repeat' first
    | with_reducible first
      | assumption | apply updRill_keeps | apply ingestEvent_keeps | apply discontinue_keeps | apply updDec_keeps
      | apply statusRecord_keeps
    | intro _ | split | dsimp only

def skipRefusedChanges : List Comp :=
  skipDescriptorChanges ++ setRillChanges

theorem skipRefused_keeps {s : State} (h : Keeps cs u s) (x1 : Nat) (x2 : List AuJob)
    (hc : Within skipRefusedChanges cs) :
    Keeps cs u (State.skipRefused s x1 x2) := by
  simp only [skipRefusedChanges, within_append] at hc
  obtain ⟨h0, h1⟩ := hc
  induction x2 generalizing s x1 with
  | nil => exact h
  | cons y ys ih =>
    unfold State.skipRefused
    repeat' first
      | with_reducible first
        | assumption | apply ih | apply skipDescriptor_keeps | apply updRill_keeps
      | intro _ | split | dsimp only

def takeDescriptorChanges : List Comp :=
  setRillChanges ++ skipRefusedChanges ++ allocChanges ++ [.ldrLastStamp]

theorem takeDescriptor_keeps {s : State} (h : Keeps cs u s) (r : Nat) (k : RillClass) (b : DecBind) (d : Descriptor)
    (hc : Within takeDescriptorChanges cs) : Keeps cs u (s.takeDescriptor r k b d).1 := by
  simp only [takeDescriptorChanges, within_append, and_assoc] at hc
  obtain ⟨h0, h1, h2, hd⟩ := hc
  unfold State.takeDescriptor
  dsimp only
  split
  · exact skipRefused_keeps (keeps_mk (setRill_keeps h _ _ (by assumption))) _ _ (by assumption)
  · split
    · exact keeps_mk (setRill_keeps h _ _ (by assumption))
    · split
      next e => dsimp only; exact keeps_mk (setRill_keeps (alloc_keepsq h (by assumption) e) _ _ (by assumption))
      next e => dsimp only; exact updRill_keeps (alloc_keepsq h (by assumption) e) _ _ (by assumption)

theorem takeDescriptor_keepsq {s : State} (h : Keeps cs u s) {r : Nat} {k : RillClass} {b : DecBind} {d : Descriptor}
    (hc : Within takeDescriptorChanges cs) {t w} (e : s.takeDescriptor r k b d = (t, w)) : Keeps cs u t := by
  have := takeDescriptor_keeps h r k b d hc
  rwa [e] at this

def takeAllChanges : List Comp :=
  setRillChanges ++ pollFailedChanges ++ readFailedChanges ++ takeDescriptorChanges ++ hostReadChanges

theorem takeAll_keeps {s : State} (h : Keeps cs u s) (r : Nat) (k : RillClass) (b : DecBind) (n : Nat)
    (ds : List (ReadRes (List Byte))) (hc : Within takeAllChanges cs) : Keeps cs u (s.takeAll r k b n ds) := by
  simp only [takeAllChanges, within_append, and_assoc] at hc
  obtain ⟨h0, h1, h2, h3, h4⟩ := hc
  induction n generalizing s ds with
  | zero => unfold State.takeAll; exact updRill_keeps h _ _ (by assumption)
  | succ n ih =>
    cases ds with
    | nil => unfold State.takeAll; exact updRill_keeps h _ _ (by assumption)
    | cons d ds =>
      unfold State.takeAll
      dsimp only
      split
      · exact pollFailed_keeps (readFailed_keeps h _ _ _ _ (by assumption)) _ (by assumption)
      · exact pollFailed_keeps (readFailed_keeps h _ _ _ _ (by assumption)) _ (by assumption)
      · split
        next e => exact ih (takeDescriptor_keepsq (hostRead_keeps h _ (by assumption)) (by assumption) e) _
        next e =>
          exact updRill_keeps (takeDescriptor_keepsq (hostRead_keeps h _ (by assumption)) (by assumption) e) _ _
            (by assumption)

def execRingPollChanges : List Comp :=
  pollFailedChanges ++ readFailedChanges ++ hostReadChanges ++ rillFaultChanges ++ takeAllChanges ++
    [.reg .INGEST_POLL_LATE]

theorem execRingPoll_keeps {s : State} (h : Keeps cs u s) (rill : Nat) (lateUs : Nat) (header : ReadRes (List Byte))
    (descs : List (ReadRes (List Byte))) (hc : Within execRingPollChanges cs) :
    KeepsOut cs u (execRingPoll rill lateUs header descs s) := by
  simp only [execRingPollChanges, within_append, and_assoc] at hc
  obtain ⟨h0, h1, h2, h3, h4, hd⟩ := hc
  unfold execRingPoll
  repeat' first
    | with_reducible first
      | assumption | apply KeepsOut.next | apply when_keeps | apply count_keeps | apply pollFailed_keeps
      | apply readFailed_keeps | apply hostRead_keeps | apply rillFault_keeps | apply takeAll_keeps
      | exact .inr (hd.of (by decide))
    | intro _ | split | dsimp only

def rawFrameChanges : List Comp :=
  discontinueChanges ++ refuseAuChanges ++ allocChanges ++ dropPictureChanges ++ releaseChanges ++
    memPutChanges ++ outputChanges

theorem rawFrame_keeps {s : State} (h : Keeps cs u s) (x1 : Nat) (c : Nat) (k : RillClass) (b : DecBind) (j : AuJob)
    (data : List Byte) (hc : Within rawFrameChanges cs) :
    Keeps cs u (State.rawFrame s x1 c k b j data) := by
  simp only [rawFrameChanges, within_append, and_assoc] at hc
  obtain ⟨h0, h1, h2, h3, h4, h5, h6⟩ := hc
  unfold State.rawFrame
  repeat' first
    | with_reducible first
      | assumption | apply discontinue_keeps | apply refuseAu_keeps | apply dropPicture_keeps
      | apply release_keeps | apply memPut_keeps | apply output_keeps
      | refine alloc_keepsq ?_ (by assumption) (by assumption)
    | intro _ | split | dsimp only

def copyDoneChanges : List Comp :=
  setRillChanges ++ skipRefusedChanges ++ hostWriteChanges

theorem copyDone_keeps {s : State} (h : Keeps cs u s) (x1 : Nat) (js : List AuJob) (f : State → State)
    (hc : Within copyDoneChanges cs) (hf : ∀ t, Keeps cs u t → Keeps cs u (f t)) :
    Keeps cs u (State.copyDone s x1 js f) := by
  simp only [copyDoneChanges, within_append, and_assoc] at hc
  obtain ⟨h0, h1, h2⟩ := hc
  unfold State.copyDone
  repeat' first
    | with_reducible first
      | assumption | apply hf | apply updRill_keeps | apply skipRefused_keeps | apply statusRecord_keeps
    | intro _ | split | dsimp only

def execAuCopyCompleteChanges : List Comp :=
  hostReadChanges ++ scheduleChanges ++ settleChanges ++ copyDoneChanges ++ rawFrameChanges ++
    setDecCtxChanges ++ memPutChanges

theorem execAuCopyComplete_keeps {s : State} (h : Keeps cs u s) (rill : Nat) (data : List Byte)
    (hc : Within execAuCopyCompleteChanges cs) :
    KeepsOut cs u (execAuCopyComplete rill data s) := by
  simp only [execAuCopyCompleteChanges, within_append, and_assoc] at hc
  obtain ⟨h0, h1, h2, h3, h4, h5, h6⟩ := hc
  unfold execAuCopyComplete
  repeat' first
    | with_reducible first
      | assumption | apply KeepsOut.next | apply when_keeps | apply hostRead_keeps | apply schedule_keeps
      | apply settle_keeps | apply copyDone_keeps | apply rawFrame_keeps | apply updDec_keeps | apply memPut_keeps
    | intro _ | split | dsimp only

def auReadFailedChanges : List Comp :=
  readFailedChanges ++ releaseChanges ++ skipRefusedChanges ++ skipDescriptorChanges ++ setRillChanges

theorem auReadFailed_keeps {s : State} (h : Keeps cs u s) (x1 : Nat) (addr : Nat) (timedOut : Bool)
    (hc : Within auReadFailedChanges cs) :
    Keeps cs u (State.auReadFailed s x1 addr timedOut) := by
  simp only [auReadFailedChanges, within_append, and_assoc] at hc
  obtain ⟨h0, h1, h2, h3, h4⟩ := hc
  unfold State.auReadFailed
  repeat' first
    | with_reducible first
      | assumption | apply readFailed_keeps | apply freeAu_keeps | apply skipRefused_keeps
      | apply skipDescriptor_keeps | apply updRill_keeps
    | intro _ | split | dsimp only

theorem execStatusRecordPeriodic_keeps {s : State} (h : Keeps cs u s) (rill : Nat) (hc : Within hostWriteChanges cs) :
    KeepsOut cs u (execStatusRecordPeriodic rill s) := by
  unfold execStatusRecordPeriodic
  repeat' first
    | with_reducible first
      | assumption | apply KeepsOut.next | apply when_keeps | apply statusRecord_keeps
    | intro _ | split | dsimp only

theorem attachEvent_keeps {s : State} (h : Keeps cs u s) (st : W16) (rill : Nat) (i : Nat) (seq : Nat)
    (hc : Within ingestEventChanges cs) :
    Keeps cs u (State.attachEvent s st rill i seq) := by
  unfold State.attachEvent
  repeat' first
    | with_reducible first
      | assumption | apply ingestEvent_keeps
    | intro _ | split | dsimp only

def refuseAttachChanges : List Comp :=
  setRillChanges ++ hostWriteChanges ++ ingestEventChanges

theorem refuseAttach_keeps {s : State} (h : Keeps cs u s) (i : Nat) (x2 : RegEntry) (st : W16)
    (hc : Within refuseAttachChanges cs) :
    Keeps cs u (State.refuseAttach s i x2 st) := by
  simp only [refuseAttachChanges, within_append, and_assoc] at hc
  obtain ⟨h0, h1, h2⟩ := hc
  unfold State.refuseAttach
  repeat' first
    | with_reducible first
      | assumption | apply setRill_keeps | apply statusOf_keeps | apply attachEvent_keeps
    | intro _ | split | dsimp only

def attachToChanges : List Comp :=
  setRillTrkChanges ++ setRillChanges ++ setDecCtxChanges ++ ingestEventChanges ++ hostWriteChanges

theorem attachTo_keeps {s : State} (h : Keeps cs u s) (i : Nat) (x2 : RegEntry) (c : Nat)
    (hc : Within attachToChanges cs) :
    Keeps cs u (State.attachTo s i x2 c) := by
  simp only [attachToChanges, within_append, and_assoc] at hc
  obtain ⟨h0, h1, h2, h3, h4⟩ := hc
  unfold State.attachTo
  repeat' first
    | with_reducible first
      | assumption | apply setRillTrk_keeps | apply setRill_keeps | apply setDecCtx_keeps
      | apply attachEvent_keeps | apply statusRecord_keeps
    | intro _ | split | dsimp only

def attachChanges : List Comp :=
  refuseAttachChanges ++ attachToChanges

theorem attach_keeps {s : State} (h : Keeps cs u s) (i : Nat) (x2 : RegEntry) (hc : Within attachChanges cs) :
    Keeps cs u (State.attach s i x2) := by
  simp only [attachChanges, within_append] at hc
  obtain ⟨h0, h1⟩ := hc
  unfold State.attach
  repeat' first
    | with_reducible first
      | assumption | apply refuseAttach_keeps | apply attachTo_keeps
    | intro _ | split | dsimp only

def scanActChanges : List Comp :=
  setRillChanges ++ attachChanges ++ detachChanges

theorem scanAct_keeps {s : State} (h : Keeps cs u s) (i : Nat) (x2 : RegEntry) (hc : Within scanActChanges cs) :
    Keeps cs u (State.scanAct s i x2) := by
  simp only [scanActChanges, within_append, and_assoc] at hc
  obtain ⟨h0, h1, h2⟩ := hc
  unfold State.scanAct
  repeat' first
    | with_reducible first
      | assumption | apply setRill_keeps | apply attach_keeps | apply detach_keeps | apply updRill_keeps
    | intro _ | split | dsimp only

def scan_entryChanges : List Comp :=
  readFailedChanges ++ hostReadChanges ++ ingestEventChanges ++ scanActChanges

theorem Scan_entry_keeps {s : Scan} (h : Keeps cs u s.s) (i : Nat) (x2 : ReadRes (List Byte))
    (hc : Within scan_entryChanges cs) :
    Keeps cs u (Scan.entry s i x2).s := by
  simp only [scan_entryChanges, within_append, and_assoc] at hc
  obtain ⟨h0, h1, h2, h3⟩ := hc
  unfold Scan.entry
  repeat' first
    | with_reducible first
      | assumption | apply readFailed_keeps | apply hostRead_keeps | apply attachEvent_keeps | apply scanAct_keeps
    | intro _ | split | dsimp only

theorem Scan_entries_keeps {s : Scan} (h : Keeps cs u s.s) (x1 : List (Nat × ReadRes (List Byte)))
    (hc : Within scan_entryChanges cs) :
    Keeps cs u (Scan.entries s x1).s := by
  induction x1 generalizing s with
  | nil => exact h
  | cons y ys ih =>
    unfold Scan.entries
    repeat' first
      | with_reducible first
        | assumption | apply ih | apply Scan_entry_keeps
      | intro _ | split | dsimp only

theorem detachUnnamed_keeps {s : State} (h : Keeps cs u s) (named : List Nat) (kept : List Nat) (x3 : List Nat)
    (hc : Within detachChanges cs) :
    Keeps cs u (State.detachUnnamed s named kept x3) := by
  induction x3 generalizing s named kept with
  | nil => exact h
  | cons y ys ih =>
    unfold State.detachUnnamed
    repeat' first
      | with_reducible first
        | assumption | apply ih | apply detach_keeps
      | intro _ | split | dsimp only

def setScanPendingChanges : List Comp := [.ingScanPending]

theorem setScanPending_keeps {s : State} (h : Keeps cs u s) (v : Bool) (hd : Within setScanPendingChanges cs) :
    Keeps cs u (State.setScanPending s v) := by
  unfold State.setScanPending
  repeat' first
    | with_reducible first
      | assumption
    | fail_if_no_progress with_reducible refine keeps_mk ?_ | intro _ | split | dsimp only

def execRegistryScanChanges : List Comp :=
  setScanPendingChanges ++ scan_entryChanges ++ detachChanges ++ [.reg .INGEST_SCAN_SEQ]

theorem execRegistryScan_keeps {s : State} (h : Keeps cs u s) (entries : List (ReadRes (List Byte)))
    (stopAt : Option Nat) (hc : Within execRegistryScanChanges cs) :
    KeepsOut cs u (execRegistryScan entries stopAt s) := by
  simp only [execRegistryScanChanges, within_append, and_assoc] at hc
  obtain ⟨h0, h1, h2, hd⟩ := hc
  unfold execRegistryScan
  repeat' first
    | with_reducible first
      | assumption | apply KeepsOut.next | apply when_keeps | apply setScanPending_keeps
      | apply Scan_entries_keeps | apply detachUnnamed_keeps | apply updReg_keeps | exact .inr (hd.of (by decide))
    | intro _ | split | dsimp only

theorem outputLast_keeps {s : State} (h : Keeps cs u s) (x1 : Nat) (hc : Within outputAllChanges cs) :
    Keeps cs u (State.outputLast s x1) := by
  unfold State.outputLast
  repeat' first
    | with_reducible first
      | assumption | apply outputAll_keeps
    | intro _ | split | dsimp only

def execRillDrainCompleteChanges : List Comp :=
  freeCtxChanges ++ outputAllChanges ++ hostWriteChanges ++ setRillChanges ++ endTracksChanges ++
    ingestEventChanges ++ scanActChanges ++ scheduleChanges ++ settleChanges

theorem execRillDrainComplete_keeps {s : State} (h : Keeps cs u s) (rill : Nat)
    (hc : Within execRillDrainCompleteChanges cs) :
    KeepsOut cs u (execRillDrainComplete rill s) := by
  simp only [execRillDrainCompleteChanges, within_append, and_assoc] at hc
  obtain ⟨h0, h1, h2, h3, h4, h5, h6, h7, h8⟩ := hc
  unfold execRillDrainComplete
  repeat' first
    | with_reducible first
      | assumption | apply KeepsOut.next | apply when_keeps | apply freeCtx_keeps | apply outputLast_keeps
      | apply statusRecord_keeps | apply setRill_keeps | apply endTracks_keeps | apply ingestEvent_keeps
      | apply clearRill_keeps | apply scanAct_keeps | apply schedule_keeps | apply settle_keeps
    | intro _ | split | dsimp only

def execEngineUtilUpdateChanges : List Comp :=
  edgeChanges ++ setEngineChanges ++ [.reg .INGEST_ENG_UTIL]

theorem execEngineUtilUpdate_keeps {s : State} (h : Keeps cs u s) (engine : Nat) (util : Nat)
    (hc : Within execEngineUtilUpdateChanges cs) :
    KeepsOut cs u (execEngineUtilUpdate engine util s) := by
  simp only [execEngineUtilUpdateChanges, within_append, and_assoc] at hc
  obtain ⟨h0, h1, hd⟩ := hc
  unfold execEngineUtilUpdate
  repeat' first
    | with_reducible first
      | assumption | apply KeepsOut.next | apply when_keeps | apply setReg_keeps | apply raise_keeps
      | apply setEngine_keeps | exact .inr (hd.of (by decide))
    | intro _ | split | dsimp only

/-! ## Machine/DecodeCmds.lean -/

def popMarkersChanges : List Comp :=
  setDecCtxChanges ++ outputAllChanges ++ discontinueChanges

theorem popMarkers_keeps {s : State} (h : Keeps cs u s) (c : Nat) (k : RillClass) (x3 : List AuJob)
    (hc : Within popMarkersChanges cs) :
    Keeps cs u (State.popMarkers s c k x3) := by
  simp only [popMarkersChanges, within_append, and_assoc] at hc
  obtain ⟨h0, h1, h2⟩ := hc
  induction x3 generalizing s c k with
  | nil => exact h
  | cons y ys ih =>
    unfold State.popMarkers
    repeat' first
      | with_reducible first
        | assumption | apply ih | apply setDecCtx_keeps | apply endStream_keeps | apply discontinue_keeps
      | intro _ | split | dsimp only

def startPictureChanges : List Comp :=
  outputAllChanges ++ releaseChanges ++ dropPictureChanges ++ setDecCtxChanges ++ visitBlockChanges ++
    allocChanges ++ setEngineChanges

theorem startPicture_keeps {s : State} (h : Keeps cs u s) (c : Nat) (k : RillClass) (b : DecBind) (d : DecCtx)
    (au : AuJob) (unit : List Byte) (x7 : SeqHdr) (p : AuParse) (hc : Within startPictureChanges cs) :
    Keeps cs u (State.startPicture s c k b d au unit x7 p) := by
  simp only [startPictureChanges, within_append, and_assoc] at hc
  obtain ⟨h0, h1, h2, h3, h4, h5, h6⟩ := hc
  unfold State.startPicture
  repeat' first
    | with_reducible first
      | assumption | apply endStream_keeps | apply freeAu_keeps | apply dropPicture_keeps | apply setDecCtx_keeps
      | apply reads_keeps | apply release_keeps | apply setEngine_keeps
      | refine alloc_keepsq ?_ (by assumption) (by assumption)
    | intro _ | split | dsimp only

def takeAuChanges : List Comp :=
  discontinueChanges ++ setDecCtxChanges ++ outputAllChanges ++ releaseChanges ++ refuseAuChanges ++
    visitBlockChanges ++ dropPictureChanges ++ startPictureChanges

theorem takeAu_keeps {s : State} (h : Keeps cs u s) (c : Nat) (k : RillClass) (b : DecBind) (au : AuJob)
    (p : AuParse) (hc : Within takeAuChanges cs) :
    Keeps cs u (State.takeAu s c k b au p) := by
  simp only [takeAuChanges, within_append, and_assoc] at hc
  obtain ⟨h0, h1, h2, h3, h4, h5, h6, h7⟩ := hc
  unfold State.takeAu
  repeat' first
    | with_reducible first
      | assumption | apply discontinue_keeps | apply setDecCtx_keeps | apply endStream_keeps | apply freeAu_keeps
      | apply refuseAu_keeps | apply dropPicture_keeps | apply startPicture_keeps
      | refine reads_keepsq ?_ (by assumption) (by assumption)
    | intro _ | split | dsimp only

def execDecodeTurnChanges : List Comp :=
  setEngineChanges ++ popMarkersChanges ++ scheduleChanges ++ settleChanges ++ takeAuChanges

theorem execDecodeTurn_keeps {s : State} (h : Keeps cs u s) (engine : Nat) (parse : AuParse)
    (hc : Within execDecodeTurnChanges cs) :
    KeepsOut cs u (execDecodeTurn engine parse s) := by
  simp only [execDecodeTurnChanges, within_append, and_assoc] at hc
  obtain ⟨h0, h1, h2, h3, h4⟩ := hc
  unfold execDecodeTurn
  repeat' first
    | with_reducible first
      | assumption | apply KeepsOut.next | apply when_keeps | apply setEngine_keeps | apply popMarkers_keeps
      | apply schedule_keeps | apply settle_keeps | apply takeAu_keeps
    | intro _ | split | dsimp only

def execQuantumExpireChanges : List Comp :=
  setRillChanges ++ setDecCtxChanges ++ setEngineChanges ++ [.reg .DEC_CNT_WORK]

theorem execQuantumExpire_keeps {s : State} (h : Keeps cs u s) (engine : Nat) (work : Nat)
    (hc : Within execQuantumExpireChanges cs) :
    KeepsOut cs u (execQuantumExpire engine work s) := by
  simp only [execQuantumExpireChanges, within_append, and_assoc] at hc
  obtain ⟨h0, h1, h2, hd⟩ := hc
  unfold execQuantumExpire
  repeat' first
    | with_reducible first
      | assumption | apply KeepsOut.next | apply when_keeps | apply addWork_keeps | apply addTo_keeps
      | apply setDecCtx_keeps | apply setEngine_keeps | exact .inr (hd.of (by decide))
    | intro _ | split | dsimp only

theorem putRows_keeps {s : State} (h : Keeps cs u s) (port : Nat) (base : Nat) (x3 : List (Nat × List Byte))
    (hc : Within memPutChanges cs) :
    Keeps cs u (State.putRows s port base x3) := by
  induction x3 generalizing s port base with
  | nil => exact h
  | cons y ys ih =>
    unfold State.putRows
    repeat' first
      | with_reducible first
        | assumption | apply ih | apply memPut_keeps
      | intro _ | split | dsimp only

theorem picEvent_keeps {s : State} (h : Keeps cs u s) (p : Pic) (kind : Nat) (st : W16) (slice : Nat) (row : Nat)
    (off : Nat) (hc : Within ingestEventChanges cs) :
    Keeps cs u (State.picEvent s p kind st slice row off) := by
  unfold State.picEvent
  repeat' first
    | with_reducible first
      | assumption | apply ingestEvent_keeps
    | intro _ | split | dsimp only

def areaEventsChanges : List Comp :=
  visitBlockChanges ++ ingestEventChanges

theorem areaEvents_keeps {s : State} (h : Keeps cs u s) (port : Nat) (p : Pic) (src : Option Frame) (x4 : List Area)
    (hc : Within areaEventsChanges cs) :
    Keeps cs u (State.areaEvents s port p src x4) := by
  simp only [areaEventsChanges, within_append] at hc
  obtain ⟨h0, h1⟩ := hc
  induction x4 generalizing s port p src with
  | nil => exact h
  | cons y ys ih =>
    unfold State.areaEvents
    repeat' first
      | with_reducible first
        | assumption | apply ih | apply reads_keeps | apply picEvent_keeps
      | intro _ | split | dsimp only

def countPictureChanges : List Comp :=
  setRillChanges ++ [.reg .DEC_CNT_ABANDON, .reg .DEC_CNT_CONCEAL]

theorem countPicture_keeps {s : State} (h : Keeps cs u s) (eng : Nat) (p : Pic) (hc : Within countPictureChanges cs) :
    Keeps cs u (State.countPicture s eng p) := by
  simp only [countPictureChanges, within_append] at hc
  obtain ⟨h0, hd⟩ := hc
  unfold State.countPicture
  repeat' first
    | with_reducible first
      | assumption | apply updRill_keeps | apply count_keeps | exact .inr (hd.of (by decide))
    | intro _ | split | dsimp only

def endPictureChanges : List Comp :=
  ingestEventChanges ++ visitBlockChanges ++ areaEventsChanges ++ releaseChanges ++ memPutChanges ++
    countPictureChanges ++ markFramesChanges ++ setDecCtxChanges ++ outputAllChanges ++ outputHeldChanges ++
    setEngineChanges

theorem endPicture_keeps {s : State} (h : Keeps cs u s) (eng : Nat) (c : Nat) (k : RillClass) (d : DecCtx) (p : Pic)
    (areas : List Area) (rest : List CtuRun) (outputs : List Nat) (tell : State → State)
    (hc : Within endPictureChanges cs) (hf : ∀ t, Keeps cs u t → Keeps cs u (tell t)) :
    Keeps cs u (State.endPicture s eng c k d p areas rest outputs tell) := by
  simp only [endPictureChanges, within_append, and_assoc] at hc
  obtain ⟨h0, h1, h2, h3, h4, h5, h6, h7, h8, h9, h10⟩ := hc
  unfold State.endPicture
  repeat' first
    | with_reducible first
      | assumption | apply hf | apply picEvent_keeps | apply visitAll_keeps | apply areaEvents_keeps
      | apply freeAu_keeps | apply putRows_keeps | apply countPicture_keeps | apply remark_keeps
      | apply setDecCtx_keeps | apply endStream_keeps | apply outputHeld_keeps | apply setEngine_keeps
    | intro _ | split | dsimp only

def execPictureCompleteChanges : List Comp :=
  scheduleChanges ++ settleChanges ++ endPictureChanges ++ setRillChanges ++ [.reg .DEC_CNT_WORK]

theorem execPictureComplete_keeps {s : State} (h : Keeps cs u s) (engine : Nat) (work : Nat) (areas : List Area)
    (outputs : List Nat) (hc : Within execPictureCompleteChanges cs) :
    KeepsOut cs u (execPictureComplete engine work areas outputs s) := by
  simp only [execPictureCompleteChanges, within_append, and_assoc] at hc
  obtain ⟨h0, h1, h2, h3, hd⟩ := hc
  unfold execPictureComplete
  repeat' first
    | with_reducible first
      | assumption | apply KeepsOut.next | apply when_keeps | apply schedule_keeps | apply settle_keeps
      | apply endPicture_keeps | apply addWork_keeps | apply addTo_keeps | exact .inr (hd.of (by decide))
    | intro _ | split | dsimp only [id]

def execBudgetExceededChanges : List Comp :=
  scheduleChanges ++ settleChanges ++ endPictureChanges ++ setRillChanges ++ ingestEventChanges ++
    [.reg .DEC_CNT_WORK]

theorem execBudgetExceeded_keeps {s : State} (h : Keeps cs u s) (engine : Nat) (work : Nat) (slice : Nat)
    (byteOffset : Nat) (rest : List CtuRun) (areas : List Area) (outputs : List Nat)
    (hc : Within execBudgetExceededChanges cs) :
    KeepsOut cs u (execBudgetExceeded engine work slice byteOffset rest areas outputs s) := by
  simp only [execBudgetExceededChanges, within_append, and_assoc] at hc
  obtain ⟨h0, h1, h2, h3, h4, hd⟩ := hc
  unfold execBudgetExceeded
  repeat' first
    | with_reducible first
      | assumption | apply KeepsOut.next | apply when_keeps | apply schedule_keeps | apply settle_keeps
      | apply endPicture_keeps | apply addWork_keeps | apply addTo_keeps | apply picEvent_keeps
      | exact .inr (hd.of (by decide))
    | intro _ | split | dsimp only

end Sys2Proof.Machine
end

