-- ==== Sys2Proof/Laws/KeepsFrame.lean ====
section
/-! SUPPORT. What the functions of the pixel engines and the track engine keep and change (Laws/Keeps.lean). -/

set_option Elab.async false

namespace Sys2Proof.Machine

set_option linter.unreachableTactic false
set_option linter.unusedTactic false

variable {cs : Comp → Prop} {u : State}

/-! ## Machine/PixelOps.lean -/

theorem putAll_keeps {s : State} (h : Keeps cs u s) (a : Nat) (x2 : List (Nat × List Byte))
    (hc : Within memPutChanges cs) :
    Keeps cs u (State.putAll s a x2) := by
  induction x2 generalizing s a with
  | nil => exact h
  | cons y ys ih =>
    unfold State.putAll
    repeat' first
      | with_reducible first
        | assumption | apply ih | apply memPut_keeps
      | intro _ | split | dsimp only

/-! ## Machine/PixelCmds.lean -/

def skipRegionChanges : List Comp :=
  updFlowChanges ++ embLoseChanges ++ setRillTrkChanges ++
    [.reg .PXE_CNT_BUSY, .reg .PXE_CNT_SKIP_NOBUF, .reg .PXE_CNT_SKIP_OTHER, .reg .PXE_LAST_SKIP]

theorem skipRegion_keeps {s : State} (h : Keeps cs u s) (n : Nat) (f : Frame) (j : RegionJob) (st : W16)
    (hc : Within skipRegionChanges cs) :
    Keeps cs u (State.skipRegion s n f j st) := by
  simp only [skipRegionChanges, within_append, and_assoc] at hc
  obtain ⟨h0, h1, h2, hd⟩ := hc
  unfold State.skipRegion
  repeat' first
    | with_reducible first
      | assumption | apply setReg_keeps | apply count_keeps | apply addTo_keeps | apply updFlow_keeps
      | apply embLose_keeps | apply setRillTrk_keeps | exact .inr (hd.of (by decide))
    | intro _ | split | dsimp only

def writeRegionChanges : List Comp :=
  memPutChanges ++ [.reg .PXE_CNT_BUSY, .reg .PXE_CNT_READ, .reg .PXE_CNT_REGIONS, .reg .PXE_CNT_WRITTEN]

theorem writeRegion_keeps {s : State} (h : Keeps cs u s) (n : Nat) (d : RegionDesc) (x3 : FrameHdr) (g : Geom)
    (ps : List SrcPlane) (a : Nat) (hc : Within writeRegionChanges cs) :
    Keeps cs u (State.writeRegion s n d x3 g ps a) := by
  simp only [writeRegionChanges, within_append] at hc
  obtain ⟨h0, hd⟩ := hc
  unfold State.writeRegion
  repeat' first
    | with_reducible first
      | assumption | apply putAll_keeps | apply addTo_keeps | exact .inr (hd.of (by decide))
    | intro _ | split | dsimp only

def runRegionChanges : List Comp :=
  skipRegionChanges ++ visitBlockChanges ++ writeRegionChanges ++ allocChanges ++ releaseChanges

theorem runRegion_keeps {s : State} (h : Keeps cs u s) (n : Nat) (f : Frame) (held : Bool) (j : RegionJob)
    (slot : Option (Nat × Nat)) (hc : Within runRegionChanges cs) :
    Keeps cs u (State.runRegion s n f held j slot).1 := by
  simp only [runRegionChanges, within_append, and_assoc] at hc
  obtain ⟨h0, h1, h2, h3, h4⟩ := hc
  unfold State.runRegion
  repeat' first
    | with_reducible first
      | assumption | apply skipRegion_keeps | apply writeRegion_keeps | apply release_keeps
      | refine reads_keepsq ?_ (by assumption) (by assumption)
      | refine alloc_keepsq ?_ (by assumption) (by assumption)
    | intro _ | split | dsimp only

theorem runRegion_keepsq {s : State} (h : Keeps cs u s) {n : Nat} {f : Frame} {held : Bool} {j : RegionJob}
    {slot : Option (Nat × Nat)} (hc : Within runRegionChanges cs) {r t}
    (e : State.runRegion s n f held j slot = (t, r)) :
    Keeps cs u t := by
  have := runRegion_keeps h n f held j slot hc
  rwa [e] at this

theorem skipRegions_keeps {s : State} (h : Keeps cs u s) (n : Nat) (f : Frame) (st : W16)
    (x4 : List (RegionJob × Option (Nat × Nat))) (hc : Within skipRegionChanges cs) :
    Keeps cs u (State.skipRegions s n f st x4) := by
  induction x4 generalizing s n f st with
  | nil => exact h
  | cons y ys ih =>
    unfold State.skipRegions
    repeat' first
      | with_reducible first
        | assumption | apply ih | apply skipRegion_keeps
      | intro _ | split | dsimp only

def undoMarksChanges : List Comp :=
  skipRegionChanges ++ releaseChanges

theorem undoMarks_keeps {s : State} (h : Keeps cs u s) (n : Nat) (f : Frame) (st : W16)
    (x4 : List (RegionJob × Nat × Item)) (hc : Within undoMarksChanges cs) :
    Keeps cs u (State.undoMarks s n f st x4) := by
  simp only [undoMarksChanges, within_append] at hc
  obtain ⟨h0, h1⟩ := hc
  induction x4 generalizing s n f st with
  | nil => exact h
  | cons y ys ih =>
    unfold State.undoMarks
    repeat' first
      | with_reducible first
        | assumption | apply ih | apply skipRegion_keeps | apply freeItem_keeps
      | intro _ | split | dsimp only

def runRegionsChanges : List Comp :=
  runRegionChanges ++ noteFaultChanges ++ skipRegionChanges ++ undoMarksChanges

theorem runRegions_keeps {s : State} (h : Keeps cs u s) (n : Nat) (ctx : Nat) (f : Frame) (held : Bool)
    (x5 : List (RegionJob × Option (Nat × Nat))) (x6 : List (RegionJob × Nat × Item))
    (hc : Within runRegionsChanges cs) :
    Keeps cs u (State.runRegions s n ctx f held x5 x6).1 := by
  simp only [runRegionsChanges, within_append, and_assoc] at hc
  obtain ⟨h0, h1, h2, h3⟩ := hc
  induction x5 generalizing s n ctx f held x6 with
  | nil => exact h
  | cons y ys ih =>
    unfold State.runRegions
    repeat' first
      | with_reducible first
        | assumption | apply ih | apply noteFault_keeps | apply skipRegions_keeps | apply undoMarks_keeps
        | refine runRegion_keepsq ?_ (by assumption) (by assumption)
      | intro _ | split | dsimp only

theorem runRegions_keepsq {s : State} (h : Keeps cs u s) {n : Nat} {ctx : Nat} {f : Frame} {held : Bool}
    {x5 : List (RegionJob × Option (Nat × Nat))} {x6 : List (RegionJob × Nat × Item)}
    (hc : Within runRegionsChanges cs) {r t} (e : State.runRegions s n ctx f held x5 x6 = (t, r)) :
    Keeps cs u t := by
  have := runRegions_keeps h n ctx f held x5 x6 hc
  rwa [e] at this

def setPxeChanges : List Comp := [.trkPxes]

theorem setPxe_keeps {s : State} (h : Keeps cs u s) (n : Nat) (x : Option PxeRun) (hd : Within setPxeChanges cs) :
    Keeps cs u (State.setPxe s n x) := by
  unfold State.setPxe
  repeat' first
    | with_reducible first
      | assumption
    | fail_if_no_progress with_reducible refine keeps_mk ?_ | intro _ | split | dsimp only

theorem startFlow_keeps {s : State} (h : Keeps cs u s) (f : Frame) (p : ScalerProg) (ms : List (Nat × Item))
    (hc : Within updFlowChanges cs) :
    Keeps cs u (State.startFlow s f p ms) := by
  unfold State.startFlow
  repeat' first
    | with_reducible first
      | assumption | apply updFlow_keeps
    | intro _ | split | dsimp only

theorem fixClusters_keeps {s : State} (h : Keeps cs u s) (l : List (RegionJob × Option (Nat × Nat)))
    (hc : Within setCtxRunChanges cs) :
    Keeps cs u (s.fixClusters l) := by
  induction l generalizing s with
  | nil => unfold State.fixClusters; exact h
  | cons y ys ih =>
    obtain ⟨j, o⟩ := y
    cases o with
    | none => unfold State.fixClusters; exact ih h
    | some p => unfold State.fixClusters; exact ih (updCtxRun_keeps h _ _ hc)

def execPixelCommandChanges : List Comp :=
  setCtxRunChanges ++ runRegionsChanges ++ updFlowChanges ++ setPxeChanges ++ scheduleChanges ++
    settleChanges ++ [.reg .PXE_CMD, .trkCrops, .trkLastPxe]

theorem execPixelCommand_keeps {s : State} (h : Keeps cs u s) (pxe : Nat) (ctx : Nat) (rill : Nat) (frame : Nat)
    (hc : Within execPixelCommandChanges cs) :
    KeepsOut cs u (execPixelCommand pxe ctx rill frame s) := by
  simp only [execPixelCommandChanges, within_append, and_assoc] at hc
  obtain ⟨h0, h1, h2, h3, h4, h5, hd⟩ := hc
  unfold execPixelCommand
  repeat' first
    | with_reducible first
      | assumption | apply KeepsOut.next | apply when_keeps | apply fixClusters_keeps | apply setReg_keeps
      | apply runRegions_keeps | apply startFlow_keeps | apply setPxe_keeps | apply schedule_keeps
      | apply settle_keeps | exact .inr (hd.of (by decide))
    | fail_if_no_progress with_reducible refine keeps_mk ?_ | intro _ | split | dsimp only

def execRegionCompleteChanges : List Comp :=
  setPxeChanges ++ setCtxRunChanges ++ scheduleChanges ++ settleChanges

theorem execRegionComplete_keeps {s : State} (h : Keeps cs u s) (pxe : Nat)
    (hc : Within execRegionCompleteChanges cs) :
    KeepsOut cs u (execRegionComplete pxe s) := by
  simp only [execRegionCompleteChanges, within_append, and_assoc] at hc
  obtain ⟨h0, h1, h2, h3⟩ := hc
  unfold execRegionComplete
  repeat' first
    | with_reducible first
      | assumption | apply KeepsOut.next | apply when_keeps | apply setPxe_keeps | apply enqueue_keeps
      | apply schedule_keeps | apply settle_keeps
    | intro _ | split | dsimp only

/-! ## Machine/TrackOps.lean -/

theorem readHeads_keeps {s : State} (h : Keeps cs u s) (rs : RuleSet) (x2 : List (Nat × Nat × Nat × Item))
    (hc : Within visitBlockChanges cs) :
    Keeps cs u (State.readHeads s rs x2).1 := by
  induction x2 generalizing s rs with
  | nil => exact h
  | cons y ys ih =>
    unfold State.readHeads
    repeat' first
      | with_reducible first
        | assumption | apply ih | apply reads_keeps
      | intro _ | split | dsimp only

theorem readHeads_keepsq {s : State} (h : Keeps cs u s) {rs : RuleSet} {x2 : List (Nat × Nat × Nat × Item)}
    (hc : Within visitBlockChanges cs) {r t} (e : State.readHeads s rs x2 = (t, r)) :
    Keeps cs u t := by
  have := readHeads_keeps h rs x2 hc
  rwa [e] at this

/-! ## Machine/TrackCmds.lean -/

theorem TrkWork_report_keeps {s : TrkWork} (h : Keeps cs u s.s) (st : W16) (bits : List Nat) :
    Keeps cs u (TrkWork.report s st bits).s := by
  unfold TrkWork.report
  repeat' first
    | with_reducible first
      | assumption
    | intro _ | split | dsimp only

theorem TrkWork_reports_keeps {s : TrkWork} (h : Keeps cs u s.s) (x1 : List W16) :
    Keeps cs u (TrkWork.reports s x1).s := by
  induction x1 generalizing s with
  | nil => exact h
  | cons y ys ih =>
    unfold TrkWork.reports
    repeat' first
      | with_reducible first
        | assumption | apply ih | apply TrkWork_report_keeps
      | intro _ | split | dsimp only

theorem TrkWork_fetch_keeps {s : TrkWork} (h : Keeps cs u s.s) (x1 : List TrackRef)
    (hc : Within fetchTrackChanges cs) :
    Keeps cs u (TrkWork.fetch s x1).s := by
  induction x1 generalizing s with
  | nil => exact h
  | cons y ys ih =>
    unfold TrkWork.fetch
    repeat' first
      | with_reducible first
        | assumption | apply ih | apply fetchTrack_keeps | apply TrkWork_report_keeps
      | intro _ | split | dsimp only

theorem TrkWork_discontinue_keeps {s : TrkWork} (h : Keeps cs u s.s) (x1 : Nat) (f : Nat)
    (hc : Within setRillTrkChanges cs) :
    Keeps cs u (TrkWork.discontinue s x1 f).s := by
  unfold TrkWork.discontinue
  repeat' first
    | with_reducible first
      | assumption | apply setRillTrk_keeps
    | intro _ | split | dsimp only

theorem TrkWork_newRules_keeps {s : TrkWork} (h : Keeps cs u s.s) (ctx : Nat) (x2 : Nat) (old : Bool)
    (hc : Within setRillTrkChanges cs) :
    Keeps cs u (TrkWork.newRules s ctx x2 old).s := by
  unfold TrkWork.newRules
  repeat' first
    | with_reducible first
      | assumption | apply setRillTrk_keeps
    | intro _ | split | dsimp only

theorem TrkWork_embed_keeps {s : TrkWork} (h : Keeps cs u s.s) (x1 : List EmbReq) :
    Keeps cs u (TrkWork.embed s x1).s := by
  induction x1 generalizing s with
  | nil => exact h
  | cons y ys ih =>
    unfold TrkWork.embed
    repeat' first
      | with_reducible first
        | assumption | apply ih | apply TrkWork_report_keeps
      | intro _ | split | dsimp only

def newTrackChanges : List Comp :=
  cachePutChanges ++ setRillTrkChanges ++ [.reg .TRK_CNT_HIT, .reg .TRK_CNT_MISS, .trkStorePeak, .trkTracks]

theorem newTrack_keeps {s : State} (h : Keeps cs u s) (x1 : Nat) (f : Nat) (store : Nat) (d : Cand) (confirm : Bool)
    (hc : Within newTrackChanges cs) :
    Keeps cs u (State.newTrack s x1 f store d confirm).1 := by
  simp only [newTrackChanges, within_append, and_assoc] at hc
  obtain ⟨h0, h1, hd⟩ := hc
  unfold State.newTrack
  repeat' first
    | with_reducible first
      | assumption | apply cachePut_keeps | apply addTo_keeps | apply setRillTrk_keeps
      | exact .inr (hd.of (by decide))
    | fail_if_no_progress with_reducible refine keeps_mk ?_ | intro _ | split | dsimp only [id]

theorem newTrack_keepsq {s : State} (h : Keeps cs u s) {x1 : Nat} {f : Nat} {store : Nat} {d : Cand} {confirm : Bool}
    (hc : Within newTrackChanges cs) {r t} (e : State.newTrack s x1 f store d confirm = (t, r)) :
    Keeps cs u t := by
  have := newTrack_keeps h x1 f store d confirm hc
  rwa [e] at this

def trkWork_startChanges : List Comp :=
  setRillTrkChanges ++ elogChanges ++ newTrackChanges ++ [.reg .TRK_CNT_STOREFULL]

theorem TrkWork_start_keeps {s : TrkWork} (h : Keeps cs u s.s) (rs : RuleSet) (x2 : Nat) (f : Nat) (x4 : Nat)
    (x5 : List (Nat × Cand)) (x6 : List (Nat × Track)) (hc : Within trkWork_startChanges cs) :
    Keeps cs u (TrkWork.start s rs x2 f x4 x5 x6).1.s := by
  simp only [trkWork_startChanges, within_append, and_assoc] at hc
  obtain ⟨h0, h1, h2, hd⟩ := hc
  induction x5 generalizing s rs x2 f x4 x6 with
  | nil => exact h
  | cons y ys ih =>
    unfold TrkWork.start
    repeat' first
      | with_reducible first
        | assumption | apply ih | apply TrkWork_report_keeps | apply setRillTrk_keeps | apply elog_keeps
        | apply count_keeps | apply newTrack_keeps | exact .inr (hd.of (by decide))
      | intro _ | split | dsimp only

theorem TrkWork_lifecycles_keeps {s : TrkWork} (h : Keeps cs u s.s) (rs : RuleSet) (f : Nat) (dets : List Cand)
    (m : List (Nat × Nat)) (x5 : List Track) (x6 : List After) :
    Keeps cs u (TrkWork.lifecycles s rs f dets m x5 x6).1.s := by
  induction x5 generalizing s rs f dets m x6 with
  | nil => exact h
  | cons y ys ih =>
    unfold TrkWork.lifecycles
    repeat' first
      | with_reducible first
        | assumption | apply ih
      | intro _ | split | dsimp only

theorem TrkWork_ruleUnit_keeps {s : TrkWork} (h : Keeps cs u s.s) (f : Nat) (x2 : List Zone × List Line)
    (x3 : List After) (x4 : List After) :
    Keeps cs u (TrkWork.ruleUnit s f x2 x3 x4).1.s := by
  induction x3 generalizing s f x2 x4 with
  | nil => exact h
  | cons y ys ih =>
    unfold TrkWork.ruleUnit
    repeat' first
      | with_reducible first
        | assumption | apply ih
      | intro _ | split | dsimp only

def trkWork_cropsChanges : List Comp := [.reg .TRK_CNT_EMBQFULL, .trkCrops, .trkEmbq]

theorem TrkWork_crops_keeps {s : TrkWork} (h : Keeps cs u s.s) (rs : RuleSet) (x2 : Nat) (f : Nat) (x4 : List After)
    (hd : Within trkWork_cropsChanges cs) :
    Keeps cs u (TrkWork.crops s rs x2 f x4).s := by
  induction x4 generalizing s rs x2 f with
  | nil => exact h
  | cons y ys ih =>
    unfold TrkWork.crops
    repeat' first
      | with_reducible first
        | assumption | apply ih | apply TrkWork_report_keeps | apply count_keeps | exact .inr (hd.of (by decide))
      | fail_if_no_progress with_reducible refine keeps_mk ?_ | intro _ | split | dsimp only

def setTracksChanges : List Comp :=
  cachePutChanges ++ [.trkTracks]

theorem setTracks_keeps {s : State} (h : Keeps cs u s) (x1 : Nat) (ts : List Track) (hc : Within setTracksChanges cs)
    :
    Keeps cs u (State.setTracks s x1 ts) := by
  simp only [setTracksChanges, within_append] at hc
  obtain ⟨h0, hd⟩ := hc
  unfold State.setTracks
  repeat' first
    | with_reducible first
      | assumption | apply freeRecords_keeps
    | fail_if_no_progress with_reducible refine keeps_mk ?_ | intro _ | split | dsimp only

def startAttachmentChanges : List Comp :=
  setRillTrkChanges ++ freeTracksChanges

theorem startAttachment_keeps {s : State} (h : Keeps cs u s) (x1 : Nat) (f : Nat)
    (hc : Within startAttachmentChanges cs) :
    Keeps cs u (State.startAttachment s x1 f) := by
  simp only [startAttachmentChanges, within_append] at hc
  obtain ⟨h0, h1⟩ := hc
  unfold State.startAttachment
  repeat' first
    | with_reducible first
      | assumption | apply setRillTrk_keeps | apply freeTracks_keeps
    | intro _ | split | dsimp only

def trackFrameChanges : List Comp :=
  startAttachmentChanges ++ visitBlockChanges ++ setRillTrkChanges ++ fetchTrackChanges ++
    trkWork_startChanges ++ setTracksChanges ++ trkWork_cropsChanges ++ cachePutChanges ++ metaRecordChanges ++
    [.reg .TRK_CNT_DET, .trkEmbq]

theorem trackFrame_keeps {s : State} (h : Keeps cs u s) (ctx : Nat) (rs : RuleSet) (old : Bool) (fl : Flow)
    (hdr : SeqHdr) (hc : Within trackFrameChanges cs) :
    Keeps cs u (State.trackFrame s ctx rs old fl hdr) := by
  simp only [trackFrameChanges, within_append, and_assoc] at hc
  obtain ⟨h0, h1, h2, h3, h4, h5, h6, h7, h8, hd⟩ := hc
  unfold State.trackFrame
  repeat' first
    | with_reducible first
      | assumption | apply startAttachment_keeps | apply readHeads_keeps | apply TrkWork_reports_keeps
      | apply TrkWork_report_keeps | apply TrkWork_embed_keeps | apply TrkWork_newRules_keeps
      | apply TrkWork_discontinue_keeps | apply TrkWork_fetch_keeps | apply addTo_keeps
      | apply TrkWork_start_keeps | apply setTracks_keeps | apply TrkWork_lifecycles_keeps
      | apply TrkWork_ruleUnit_keeps | apply TrkWork_crops_keeps | apply putTracks_keeps | apply setRillTrk_keeps
      | apply metaRecords_keeps | exact .inr (hd.of (by decide))
    | fail_if_no_progress with_reducible refine keeps_mk ?_ | intro _ | split | dsimp only

def execTrackCommandChanges : List Comp :=
  laneTurnChanges ++ trackFrameChanges ++ setRillTrkChanges

theorem execTrackCommand_keeps {s : State} (h : Keeps cs u s) (ctx : Nat) (rill : Nat) (frame : Nat)
    (hc : Within execTrackCommandChanges cs) :
    KeepsOut cs u (execTrackCommand ctx rill frame s) := by
  simp only [execTrackCommandChanges, within_append, and_assoc] at hc
  obtain ⟨h0, h1, h2⟩ := hc
  unfold execTrackCommand
  repeat' first
    | with_reducible first
      | assumption | apply KeepsOut.next | apply when_keeps | apply trackFrame_keeps | apply setRillTrk_keeps
      | refine laneTurn_keepsq ?_ (by assumption) (by assumption)
    | intro _ | split | dsimp only

def flowDoneChanges : List Comp :=
  settleChanges ++ updFlowChanges

theorem flowDone_keeps {s : State} (h : Keeps cs u s) (ctx : Nat) (rill : Nat) (frame : Nat)
    (hc : Within flowDoneChanges cs) :
    Keeps cs u (State.flowDone s ctx rill frame) := by
  simp only [flowDoneChanges, within_append] at hc
  obtain ⟨h0, h1⟩ := hc
  unfold State.flowDone
  repeat' first
    | with_reducible first
      | assumption | apply settle_keeps | apply updFlow_keeps
    | intro _ | split | dsimp only

def execTrackCommandCommitChanges : List Comp :=
  scheduleChanges ++ laneCommitChanges ++ flowDoneChanges ++ setRillTrkChanges ++ [.reg .TRK_CNT_FRAMES]

theorem execTrackCommandCommit_keeps {s : State} (h : Keeps cs u s) (rill : Nat)
    (hc : Within execTrackCommandCommitChanges cs) :
    KeepsOut cs u (execTrackCommandCommit rill s) := by
  simp only [execTrackCommandCommitChanges, within_append, and_assoc] at hc
  obtain ⟨h0, h1, h2, h3, hd⟩ := hc
  unfold execTrackCommandCommit
  repeat' first
    | with_reducible first
      | assumption | apply KeepsOut.next | apply when_keeps | apply addTo_keeps | apply schedule_keeps
      | apply laneCommit_keeps | apply flowDone_keeps | apply setRillTrk_keeps | exact .inr (hd.of (by decide))
    | intro _ | split | dsimp only

theorem copyHeads_keeps {s : State} (h : Keeps cs u s) (dst : Nat) (len : Nat) (x3 : List Nat)
    (hc : Within memPutChanges cs) :
    Keeps cs u (State.copyHeads s dst len x3) := by
  induction x3 generalizing s dst len with
  | nil => exact h
  | cons y ys ih =>
    unfold State.copyHeads
    repeat' first
      | with_reducible first
        | assumption | apply ih | apply memPut_keeps
      | intro _ | split | dsimp only

def export1Changes : List Comp :=
  visitBlockChanges ++ allocChanges ++ noteFaultChanges ++ releaseChanges ++ metaRecordChanges ++
    memPutChanges ++ [.reg .SLUICE_CNT_EXPORTLOST]

theorem export1_keeps {s : State} (h : Keeps cs u s) (ctx : Nat) (fl : Flow) (c : CopyCmd)
    (hc : Within export1Changes cs) :
    Keeps cs u (State.export1 s ctx fl c) := by
  simp only [export1Changes, within_append, and_assoc] at hc
  obtain ⟨h0, h1, h2, h3, h4, h5, hd⟩ := hc
  unfold State.export1
  repeat' first
    | with_reducible first
      | assumption | apply count_keeps | apply noteFault_keeps | apply release_keeps | apply metaRecord_keeps
      | apply copyHeads_keeps | refine reads_keepsq ?_ (by assumption) (by assumption)
      | refine alloc_keepsq ?_ (by assumption) (by assumption) | exact .inr (hd.of (by decide))
    | intro _ | split | dsimp only

theorem exportAll_keeps {s : State} (h : Keeps cs u s) (ctx : Nat) (fl : Flow) (x3 : List CopyCmd)
    (hc : Within export1Changes cs) :
    Keeps cs u (State.exportAll s ctx fl x3) := by
  induction x3 generalizing s ctx fl with
  | nil => exact h
  | cons y ys ih =>
    unfold State.exportAll
    repeat' first
      | with_reducible first
        | assumption | apply ih | apply export1_keeps
      | intro _ | split | dsimp only

def execHeadExportChanges : List Comp :=
  copyTurnChanges ++ scheduleChanges ++ laneCommitChanges ++ flowDoneChanges ++ export1Changes

theorem execHeadExport_keeps {s : State} (h : Keeps cs u s) (ctx : Nat) (rill : Nat) (frame : Nat)
    (hc : Within execHeadExportChanges cs) :
    KeepsOut cs u (execHeadExport ctx rill frame s) := by
  simp only [execHeadExportChanges, within_append, and_assoc] at hc
  obtain ⟨h0, h1, h2, h3, h4⟩ := hc
  unfold execHeadExport
  repeat' first
    | with_reducible first
      | assumption | apply KeepsOut.next | apply when_keeps | apply schedule_keeps | apply laneCommit_keeps
      | apply flowDone_keeps | apply exportAll_keeps | refine copyTurn_keepsq ?_ (by assumption) (by assumption)
    | intro _ | split | dsimp only

end Sys2Proof.Machine
end

