-- ==== Sys2Proof/Laws/KeepsImage.lean ====
section
/-! SUPPORT. What the functions of Sage and the image loader keep and change (Laws/Keeps.lean). -/

set_option Elab.async false

namespace Sys2Proof.Machine

set_option linter.unreachableTactic false
set_option linter.unusedTactic false

variable {cs : Comp → Prop} {u : State}

/-! ## Machine/SageCmds.lean -/

def setFlashChanges : List Comp := [.devFlash]

theorem setFlash_keeps {s : State} (h : Keeps cs u s) (f : FlashSt) (hd : Within setFlashChanges cs)
    (hf : Mem.wf s.dev.flash.bytes = true → Mem.wf f.bytes = true) : Keeps cs u (s.setFlash f) :=
  h.next (mem := fun k => ⟨k.bytes, k.poison, k.regs, k.basins, k.basin, hf k.flash⟩)
    (dev := by constructor <;> first | exact .inr rfl | exact .inl (hd.of (by decide)))

@[simp] theorem putTable_bytes (f : FlashSt) (t : SlotTable) : (f.putTable t).bytes = f.bytes := by
  unfold FlashSt.putTable
  dsimp only
  split <;> rfl

theorem flashWrite_wf {f : FlashSt} (a : Nat) (data : List Byte) (h : Mem.wf f.bytes = true) :
    Mem.wf (f.write a data).bytes = true := Mem.wf_writeList _ _ _ h

def setFusesChanges : List Comp := [.devFuses]

theorem setFuses_keeps {s : State} (h : Keeps cs u s) (f : Fuses) (hd : Within setFusesChanges cs)
    (hf : s.dev.fuses.growsTo f) :
    Keeps cs u (s.setFuses f) :=
  h.next (fuses := hf) (dev := by constructor <;> first | exact .inr rfl | exact .inl (hd.of (by decide)))

theorem fuseKept_putBit (v : W64) (i : Nat) : fuseKept v (putBit v i true) = true := by
  simp only [fuseKept, putBit, if_true, beq_iff_eq]
  ext j
  simp
  tauto

theorem fuseKept_programBits (v : W64) (n : Nat) : fuseKept v (programBits v n) = true := by
  induction n generalizing v with
  | zero => exact fuseKept_refl v
  | succ n ih =>
    unfold programBits
    split
    · exact fuseKept_trans (fuseKept_putBit v _) (ih _)
    · exact fuseKept_refl v

def setMboxChanges : List Comp := [.sageMbox]

theorem setMbox_keeps {s : State} (h : Keeps cs u s) (j : Option MboxJob) (hd : Within setMboxChanges cs) :
    Keeps cs u (State.setMbox s j) := by
  unfold State.setMbox
  repeat' first
    | with_reducible first
      | assumption
    | fail_if_no_progress with_reducible refine keeps_mk ?_ | intro _ | split | dsimp only

def mboxStatusChanges : List Comp := [.reg .SAGE_MBOX_STATUS]

theorem mboxStatus_keeps {s : State} (h : Keeps cs u s) (st : W16) (hd : Within mboxStatusChanges cs) :
    Keeps cs u (State.mboxStatus s st) := by
  unfold State.mboxStatus
  repeat' first
    | with_reducible first
      | assumption | apply setReg_keeps | exact .inr (hd.of (by decide))
    | intro _ | split | dsimp only

theorem sageLog_keeps {s : State} (h : Keeps cs u s) (st : W16) (hc : Within elogChanges cs) :
    Keeps cs u (State.sageLog s st) := by
  unfold State.sageLog
  repeat' first
    | with_reducible first
      | assumption | apply elog_keeps
    | intro _ | split | dsimp only

def mboxEndChanges : List Comp :=
  edgeChanges ++ mboxStatusChanges ++ setMboxChanges

theorem mboxEnd_keeps {s : State} (h : Keeps cs u s) (st : W16) (hc : Within mboxEndChanges cs) :
    Keeps cs u (State.mboxEnd s st) := by
  simp only [mboxEndChanges, within_append, and_assoc] at hc
  obtain ⟨h0, h1, h2⟩ := hc
  unfold State.mboxEnd
  repeat' first
    | with_reducible first
      | assumption | apply raise_keeps | apply mboxStatus_keeps | apply setMbox_keeps
    | intro _ | split | dsimp only

def mboxRefuseChanges : List Comp :=
  mboxEndChanges ++ elogChanges

theorem mboxRefuse_keeps {s : State} (h : Keeps cs u s) (st : W16) (hc : Within mboxRefuseChanges cs) :
    Keeps cs u (State.mboxRefuse s st) := by
  simp only [mboxRefuseChanges, within_append] at hc
  obtain ⟨h0, h1⟩ := hc
  unfold State.mboxRefuse
  repeat' first
    | with_reducible first
      | assumption | apply mboxEnd_keeps | apply sageLog_keeps
    | intro _ | split | dsimp only

def inhibitChanges : List Comp :=
  mboxEndChanges ++ elogChanges ++ [.reg .SAGE_CNT_INHIBIT]

theorem inhibit_keeps {s : State} (h : Keeps cs u s) (st : W16) (hc : Within inhibitChanges cs) :
    Keeps cs u (State.inhibit s st) := by
  simp only [inhibitChanges, within_append, and_assoc] at hc
  obtain ⟨h0, h1, hd⟩ := hc
  unfold State.inhibit
  repeat' first
    | with_reducible first
      | assumption | apply mboxEnd_keeps | apply elog_keeps | apply count_keeps | exact .inr (hd.of (by decide))
    | intro _ | split | dsimp only

def mboxStartChanges : List Comp :=
  setMboxChanges ++ inhibitChanges

theorem mboxStart_keeps {s : State} (h : Keeps cs u s) (j : MboxJob) (f : State → State)
    (hc : Within mboxStartChanges cs) (hf : ∀ t, Keeps cs u t → Keeps cs u (f t)) :
    Keeps cs u (State.mboxStart s j f) := by
  simp only [mboxStartChanges, within_append] at hc
  obtain ⟨h0, h1⟩ := hc
  unfold State.mboxStart
  repeat' first
    | with_reducible first
      | assumption | apply hf | apply setMbox_keeps | apply inhibit_keeps
    | intro _ | split | dsimp only

def takeWriteSlotChanges : List Comp :=
  mboxRefuseChanges ++ visitBlockChanges ++ mboxStartChanges ++ setFlashChanges

theorem takeWriteSlot_keeps {s : State} (h : Keeps cs u s) (k : Nat) (v : Verdict)
    (hc : Within takeWriteSlotChanges cs) :
    Keeps cs u (State.takeWriteSlot s k v) := by
  simp only [takeWriteSlotChanges, within_append, and_assoc] at hc
  obtain ⟨h0, h1, h2, h3⟩ := hc
  unfold State.takeWriteSlot
  repeat' first
    | with_reducible first
      | assumption | apply mboxRefuse_keeps | apply visit_keeps | apply mboxStart_keeps | apply setFlash_keeps
    | (intro hm; simpa only [putTable_bytes] using hm) | intro _ | split | dsimp only

def takeActivateChanges : List Comp :=
  mboxRefuseChanges ++ mboxStartChanges ++ setFlashChanges ++ [.sagePendingSwitch, .sageSwitched]

theorem takeActivate_keeps {s : State} (h : Keeps cs u s) (k : Nat) (v : Verdict)
    (hc : Within takeActivateChanges cs) :
    Keeps cs u (State.takeActivate s k v) := by
  simp only [takeActivateChanges, within_append, and_assoc] at hc
  obtain ⟨h0, h1, h2, hd⟩ := hc
  unfold State.takeActivate
  repeat' first
    | with_reducible first
      | assumption | apply mboxRefuse_keeps | apply mboxStart_keeps | apply setFlash_keeps
    | (intro hm; simpa only [putTable_bytes] using hm) | fail_if_no_progress with_reducible refine keeps_mk ?_
    | intro _ | split | dsimp only

def takeCommitChanges : List Comp :=
  setMboxChanges ++ mboxStartChanges

theorem takeCommit_keeps {s : State} (h : Keeps cs u s) (k : Nat) (hc : Within takeCommitChanges cs) :
    Keeps cs u (State.takeCommit s k) := by
  simp only [takeCommitChanges, within_append] at hc
  obtain ⟨h0, h1⟩ := hc
  unfold State.takeCommit
  repeat' first
    | with_reducible first
      | assumption | apply setMbox_keeps | apply mboxStart_keeps
    | intro _ | split | dsimp only [id]

def takeAdvanceChanges : List Comp :=
  mboxRefuseChanges ++ setMboxChanges ++ mboxStartChanges

theorem takeAdvance_keeps {s : State} (h : Keeps cs u s) (hc : Within takeAdvanceChanges cs) :
    Keeps cs u (State.takeAdvance s) := by
  simp only [takeAdvanceChanges, within_append, and_assoc] at hc
  obtain ⟨h0, h1, h2⟩ := hc
  unfold State.takeAdvance
  repeat' first
    | with_reducible first
      | assumption | apply mboxRefuse_keeps | apply setMbox_keeps | apply mboxStart_keeps
    | intro _ | split | dsimp only [id]

def takeBoardChanges : List Comp :=
  mboxRefuseChanges ++ visitBlockChanges ++ mboxStartChanges

theorem takeBoard_keeps {s : State} (h : Keeps cs u s) (hc : Within takeBoardChanges cs) :
    Keeps cs u (State.takeBoard s) := by
  simp only [takeBoardChanges, within_append, and_assoc] at hc
  obtain ⟨h0, h1, h2⟩ := hc
  unfold State.takeBoard
  repeat' first
    | with_reducible first
      | assumption | apply mboxRefuse_keeps | apply visit_keeps | apply mboxStart_keeps
    | intro _ | split | dsimp only [id]

def mboxTakeChanges : List Comp :=
  mboxStatusChanges ++ mboxRefuseChanges

theorem mboxTake_keeps {s : State} (h : Keeps cs u s) (duringRecovery : Bool) (f : State → State)
    (hc : Within mboxTakeChanges cs) (hf : ∀ t, Keeps cs u t → Keeps cs u (f t)) :
    Keeps cs u (State.mboxTake s duringRecovery f) := by
  simp only [mboxTakeChanges, within_append] at hc
  obtain ⟨h0, h1⟩ := hc
  unfold State.mboxTake
  repeat' first
    | with_reducible first
      | assumption | apply hf | apply when_keeps | apply mboxStatus_keeps | apply mboxRefuse_keeps
    | intro _ | split | dsimp only

theorem withSub_keeps {s : State} (h : Keeps cs u s) (k : Nat) (f : State → State) (hc : Within mboxRefuseChanges cs)
    (hf : ∀ t, Keeps cs u t → Keeps cs u (f t)) :
    Keeps cs u (State.withSub s k f) := by
  unfold State.withSub
  repeat' first
    | with_reducible first
      | assumption | apply hf | apply mboxRefuse_keeps
    | intro _ | split | dsimp only

def execWriteSlotChanges : List Comp :=
  mboxTakeChanges ++ mboxRefuseChanges ++ takeWriteSlotChanges

theorem execWriteSlot_keeps {s : State} (h : Keeps cs u s) (k : Nat) (v : Verdict)
    (hc : Within execWriteSlotChanges cs) :
    KeepsOut cs u (execWriteSlot k v s) := by
  simp only [execWriteSlotChanges, within_append, and_assoc] at hc
  obtain ⟨h0, h1, h2⟩ := hc
  unfold execWriteSlot
  repeat' first
    | with_reducible first
      | assumption | apply KeepsOut.next | apply mboxTake_keeps | apply withSub_keeps | apply takeWriteSlot_keeps
    | intro _ | split | dsimp only

def execActivateChanges : List Comp :=
  mboxTakeChanges ++ mboxRefuseChanges ++ takeActivateChanges

theorem execActivate_keeps {s : State} (h : Keeps cs u s) (k : Nat) (v : Verdict)
    (hc : Within execActivateChanges cs) :
    KeepsOut cs u (execActivate k v s) := by
  simp only [execActivateChanges, within_append, and_assoc] at hc
  obtain ⟨h0, h1, h2⟩ := hc
  unfold execActivate
  repeat' first
    | with_reducible first
      | assumption | apply KeepsOut.next | apply mboxTake_keeps | apply withSub_keeps | apply takeActivate_keeps
    | intro _ | split | dsimp only

def execCommitChanges : List Comp :=
  mboxTakeChanges ++ mboxRefuseChanges ++ takeCommitChanges

theorem execCommit_keeps {s : State} (h : Keeps cs u s) (k : Nat) (hc : Within execCommitChanges cs) :
    KeepsOut cs u (execCommit k s) := by
  simp only [execCommitChanges, within_append, and_assoc] at hc
  obtain ⟨h0, h1, h2⟩ := hc
  unfold execCommit
  repeat' first
    | with_reducible first
      | assumption | apply KeepsOut.next | apply mboxTake_keeps | apply withSub_keeps | apply takeCommit_keeps
    | intro _ | split | dsimp only

def execAdvanceImageChanges : List Comp :=
  mboxTakeChanges ++ takeAdvanceChanges

theorem execAdvanceImage_keeps {s : State} (h : Keeps cs u s) (hc : Within execAdvanceImageChanges cs) :
    KeepsOut cs u (execAdvanceImage s) := by
  simp only [execAdvanceImageChanges, within_append] at hc
  obtain ⟨h0, h1⟩ := hc
  unfold execAdvanceImage
  repeat' first
    | with_reducible first
      | assumption | apply KeepsOut.next | apply mboxTake_keeps | apply takeAdvance_keeps
    | intro _ | split | dsimp only

def execWriteBoardChanges : List Comp :=
  mboxTakeChanges ++ takeBoardChanges

theorem execWriteBoard_keeps {s : State} (h : Keeps cs u s) (hc : Within execWriteBoardChanges cs) :
    KeepsOut cs u (execWriteBoard s) := by
  simp only [execWriteBoardChanges, within_append] at hc
  obtain ⟨h0, h1⟩ := hc
  unfold execWriteBoard
  repeat' first
    | with_reducible first
      | assumption | apply KeepsOut.next | apply mboxTake_keeps | apply takeBoard_keeps
    | intro _ | split | dsimp only

def mboxWriteChanges : List Comp :=
  mboxTakeChanges ++ mboxRefuseChanges ++ takeWriteSlotChanges ++ takeActivateChanges ++ takeCommitChanges ++
    takeAdvanceChanges ++ takeBoardChanges ++ [.freeIdx]

theorem mboxWrite_keeps {s : State} (h : Keeps cs u s) (w : Nat) (hc : Within mboxWriteChanges cs) :
    Keeps cs u (State.mboxWrite s w) := by
  simp only [mboxWriteChanges, within_append, and_assoc] at hc
  obtain ⟨h0, h1, h2, h3, h4, h5, h6, hd⟩ := hc
  unfold State.mboxWrite
  repeat' first
    | with_reducible first
      | assumption | apply mboxTake_keeps | apply withSub_keeps | apply takeWriteSlot_keeps
      | apply takeActivate_keeps | apply takeCommit_keeps | apply takeAdvance_keeps | apply takeBoard_keeps
      | apply mboxRefuse_keeps
    | fail_if_no_progress with_reducible refine keeps_mk ?_ | intro _ | split | dsimp only

theorem finishSlot_keeps {s : State} (h : Keeps cs u s) (j : MboxJob) (hc : Within setFlashChanges cs) :
    Keeps cs u (State.finishSlot s j) := by
  unfold State.finishSlot
  repeat' first
    | with_reducible first
      | assumption | apply setFlash_keeps
    | (intro hm; simpa only [putTable_bytes] using flashWrite_wf _ _ hm) | intro _ | split | dsimp only

theorem finishCommit_keeps {s : State} (h : Keeps cs u s) (k goal : Nat) (hc : Within setFusesChanges cs) : Keeps cs
    u (s.finishCommit k goal) := by
  refine setFuses_keeps h _ hc ⟨rfl, rfl, fuseKept_refl _, fun j => ?_⟩
  unfold Fuses.fw
  dsimp only
  rw [SMap.get_set]
  split
  next e => rw [e]; exact fuseKept_programBits _ _
  · exact fuseKept_refl _

theorem finishAdvance_keeps {s : State} (h : Keeps cs u s) (goal : Nat) (hc : Within setFusesChanges cs) : Keeps cs u
    (s.finishAdvance goal) :=
  setFuses_keeps h _ hc ⟨rfl, rfl, fuseKept_programBits _ _, fun _ => fuseKept_refl _⟩

theorem finishBoard_keeps {s : State} (h : Keeps cs u s) (data : List Byte) (hc : Within setFlashChanges cs) :
    Keeps cs u (State.finishBoard s data) := by
  unfold State.finishBoard
  repeat' first
    | with_reducible first
      | assumption | apply setFlash_keeps
    | (intro hm; simpa only [putTable_bytes] using flashWrite_wf _ _ hm) | intro _ | split | dsimp only

def mboxFinishChanges : List Comp :=
  setFlashChanges ++ setFusesChanges

theorem mboxFinish_keeps {s : State} (h : Keeps cs u s) (j : MboxJob) (hc : Within mboxFinishChanges cs) :
    Keeps cs u (State.mboxFinish s j) := by
  simp only [mboxFinishChanges, within_append] at hc
  obtain ⟨h0, h1⟩ := hc
  unfold State.mboxFinish
  repeat' first
    | with_reducible first
      | assumption | apply finishSlot_keeps | apply finishCommit_keeps | apply finishAdvance_keeps
      | apply finishBoard_keeps
    | intro _ | split | dsimp only

def execMailboxCommandCompleteChanges : List Comp :=
  mboxEndChanges ++ mboxFinishChanges

theorem execMailboxCommandComplete_keeps {s : State} (h : Keeps cs u s)
    (hc : Within execMailboxCommandCompleteChanges cs) :
    KeepsOut cs u (execMailboxCommandComplete s) := by
  simp only [execMailboxCommandCompleteChanges, within_append] at hc
  obtain ⟨h0, h1⟩ := hc
  unfold execMailboxCommandComplete
  repeat' first
    | with_reducible first
      | assumption | apply KeepsOut.next | apply when_keeps | apply mboxEnd_keeps | apply mboxFinish_keeps
    | intro _ | split | dsimp only

def mboxAbandonChanges : List Comp :=
  setFusesChanges ++ setFlashChanges ++ [.freeIdx]

theorem mboxAbandon_keeps {s : State} (h : Keeps cs u s) (j : MboxJob) (hc : Within mboxAbandonChanges cs) :
    Keeps cs u (State.mboxAbandon s j) := by
  simp only [mboxAbandonChanges, within_append, and_assoc] at hc
  obtain ⟨h0, h1, hd⟩ := hc
  unfold State.mboxAbandon
  repeat' first
    | with_reducible first
      | assumption | apply finishCommit_keeps | apply finishAdvance_keeps | apply finishBoard_keeps
    | fail_if_no_progress with_reducible refine keeps_mk ?_ | intro _ | split | dsimp only

def execSupplySampleChanges : List Comp :=
  inhibitChanges ++ mboxAbandonChanges ++ [.reg .SAGE_SUPPLY]

theorem execSupplySample_keeps {s : State} (h : Keeps cs u s) (vauxMv : Nat) (vddioMv : Nat)
    (hc : Within execSupplySampleChanges cs) :
    KeepsOut cs u (execSupplySample vauxMv vddioMv s) := by
  simp only [execSupplySampleChanges, within_append, and_assoc] at hc
  obtain ⟨h0, h1, hd⟩ := hc
  unfold execSupplySample
  repeat' first
    | with_reducible first
      | assumption | apply KeepsOut.next | apply setReg_keeps | apply inhibit_keeps | apply mboxAbandon_keeps
      | exact .inr (hd.of (by decide))
    | intro _ | split | dsimp only

def inServiceNowChanges : List Comp :=
  setFlashChanges ++ [.devUcode, .sagePendingSwitch, .sageSwitched]

theorem inServiceNow_keeps {s : State} (h : Keeps cs u s) (k : Nat) (hc : Within inServiceNowChanges cs) :
    Keeps cs u (State.inServiceNow s k) := by
  simp only [inServiceNowChanges, within_append] at hc
  obtain ⟨h0, hd⟩ := hc
  unfold State.inServiceNow
  repeat' first
    | with_reducible first
      | assumption | apply setFlash_keeps
    | (intro hm; simpa only [putTable_bytes] using hm) | fail_if_no_progress with_reducible refine keeps_mk ?_
    | intro _ | split | dsimp only

def execFirmwareSwitchChanges : List Comp :=
  inServiceNowChanges ++ [.devUcode, .sageSwitched, .weirSwitched]

theorem execFirmwareSwitch_keeps {s : State} (h : Keeps cs u s) (k : Nat) (engine : Nat)
    (hc : Within execFirmwareSwitchChanges cs) :
    KeepsOut cs u (execFirmwareSwitch k engine s) := by
  simp only [execFirmwareSwitchChanges, within_append] at hc
  obtain ⟨h0, hd⟩ := hc
  unfold execFirmwareSwitch
  repeat' first
    | with_reducible first
      | assumption | apply KeepsOut.next | apply when_keeps | apply inServiceNow_keeps
    | fail_if_no_progress with_reducible refine keeps_mk ?_ | intro _ | split | dsimp only

def deriveKeysChanges : List Comp := [.sageKeys]

theorem deriveKeys_keeps {s : State} (h : Keeps cs u s) (hd : Within deriveKeysChanges cs) :
    Keeps cs u (State.deriveKeys s) := by
  unfold State.deriveKeys
  repeat' first
    | with_reducible first
      | assumption
    | fail_if_no_progress with_reducible refine keeps_mk ?_ | intro _ | split | dsimp only

def setConnectionChanges : List Comp := [.sageDoeConn, .sageMctpConn]

theorem setConnection_keeps {s : State} (h : Keeps cs u s) (x1 : Transport) (c : List (List Byte))
    (hd : Within setConnectionChanges cs) :
    Keeps cs u (State.setConnection s x1 c) := by
  unfold State.setConnection
  repeat' first
    | with_reducible first
      | assumption
    | fail_if_no_progress with_reducible refine keeps_mk ?_ | intro _ | split | dsimp only

def spdmChanges : List Comp :=
  sendChanges ++ elogChanges ++ setConnectionChanges ++ [.freeIdx, .reg .SAGE_CNT_SPDM]

theorem spdm_keeps {s : State} (h : Keeps cs u s) (x1 : Transport) (code : SpdmCode) (malformed : Bool) (busy : Bool)
    (request : List Byte) (hc : Within spdmChanges cs) :
    Keeps cs u (State.spdm s x1 code malformed busy request) := by
  simp only [spdmChanges, within_append, and_assoc] at hc
  obtain ⟨h0, h1, h2, hd⟩ := hc
  unfold State.spdm
  repeat' first
    | with_reducible first
      | assumption | apply send_keeps | apply elog_keeps | apply count_keeps | apply setConnection_keeps
      | exact .inr (hd.of (by decide))
    | fail_if_no_progress with_reducible refine keeps_mk ?_ | intro _ | split | dsimp only

theorem execSpdmRequest_keeps {s : State} (h : Keeps cs u s) (x1 : Transport) (code : SpdmCode) (malformed : Bool)
    (busy : Bool) (request : List Byte) (hc : Within spdmChanges cs) :
    KeepsOut cs u (execSpdmRequest x1 code malformed busy request s) := by
  unfold execSpdmRequest
  repeat' first
    | with_reducible first
      | assumption | apply KeepsOut.next | apply when_keeps | apply spdm_keeps
    | intro _ | split | dsimp only

def odrovCapChanges : List Comp :=
  sprintEndChanges ++ edgeChanges ++ [.reg .WEIR_CAP_ODROV_MW]

theorem odrovCap_keeps {s : State} (h : Keeps cs u s) (watts : Nat) (hc : Within odrovCapChanges cs) :
    Keeps cs u (State.odrovCap s watts) := by
  simp only [odrovCapChanges, within_append, and_assoc] at hc
  obtain ⟨h0, h1, hd⟩ := hc
  unfold State.odrovCap
  repeat' first
    | with_reducible first
      | assumption | apply sprintCheck_keeps | apply raise_keeps | apply setReg_keeps
      | exact .inr (hd.of (by decide))
    | intro _ | split | dsimp only

def setEidChanges : List Comp := [.sageEidSmb, .sageEidVdm]

theorem setEid_keeps {s : State} (h : Keeps cs u s) (b : Binding) (eid : Nat) (hd : Within setEidChanges cs) :
    Keeps cs u (State.setEid s b eid) := by
  unfold State.setEid
  repeat' first
    | with_reducible first
      | assumption
    | fail_if_no_progress with_reducible refine keeps_mk ?_ | intro _ | split | dsimp only

def mctpBodyChanges : List Comp :=
  sendChanges ++ setEidChanges ++ odrovCapChanges ++ spdmChanges ++ [.reg .ODROV_CNT_ERR]

theorem mctpBody_keeps {s : State} (h : Keeps cs u s) (b : Binding) (body : MctpBody)
    (hc : Within mctpBodyChanges cs) :
    Keeps cs u (State.mctpBody s b body) := by
  simp only [mctpBodyChanges, within_append, and_assoc] at hc
  obtain ⟨h0, h1, h2, h3, hd⟩ := hc
  unfold State.mctpBody
  repeat' first
    | with_reducible first
      | assumption | apply send_keeps | apply setEid_keeps | apply odrovCap_keeps | apply when_keeps
      | apply spdm_keeps | apply count_keeps | exact .inr (hd.of (by decide))
    | intro _ | split | dsimp only [id]

def mctpChanges : List Comp :=
  mctpBodyChanges ++ edgeChanges ++ [.reg .ODROV_CNT_RX]

theorem mctp_keeps {s : State} (h : Keeps cs u s) (b : Binding) (body : MctpBody) (hc : Within mctpChanges cs) :
    Keeps cs u (State.mctp s b body) := by
  simp only [mctpChanges, within_append, and_assoc] at hc
  obtain ⟨h0, h1, hd⟩ := hc
  unfold State.mctp
  repeat' first
    | with_reducible first
      | assumption | apply when_keeps | apply mctpBody_keeps | apply raise_keeps | apply count_keeps
      | exact .inr (hd.of (by decide))
    | intro _ | split | dsimp only

theorem execMctpMessage_keeps {s : State} (h : Keeps cs u s) (b : Binding) (body : MctpBody)
    (hc : Within mctpChanges cs) :
    KeepsOut cs u (execMctpMessage b body s) := by
  unfold execMctpMessage
  repeat' first
    | with_reducible first
      | assumption | apply KeepsOut.next | apply mctp_keeps
    | intro _ | split | dsimp only

/-! ## Machine/ImageCmds.lean -/

def setLdrChanges : List Comp :=
    [.ldrState, .ldrPlacing, .ldrLocked, .ldrDeterministic, .ldrLoad, .ldrSwap, .ldrSwapCount, .ldrStatus,
   .ldrFailSection, .ldrFailEntry, .ldrFailNeed, .ldrFailHave, .ldrImage, .ldrSegs, .ldrLastStamp, .ldrSigned,
   .ldrChain]

theorem setLdr_keeps {s : State} (h : Keeps cs u s) (l : Loader) (hd : Within setLdrChanges cs) :
    Keeps cs u (State.setLdr s l) := by
  unfold State.setLdr
  repeat' first
    | with_reducible first
      | assumption
    | fail_if_no_progress with_reducible refine keeps_mk ?_ | intro _ | split | dsimp only

def imgStatusChanges : List Comp :=
  setLdrChanges ++ [.ldrStatus]

theorem imgStatus_keeps {s : State} (h : Keeps cs u s) (st : W16) (hc : Within imgStatusChanges cs) :
    Keeps cs u (State.imgStatus s st) := by
  simp only [imgStatusChanges, within_append] at hc
  obtain ⟨h0, hd⟩ := hc
  unfold State.imgStatus
  repeat' first
    | with_reducible first
      | assumption | apply setLdr_keeps
    | intro _ | split | dsimp only

def imgDoneChanges : List Comp :=
  edgeChanges ++ imgStatusChanges

theorem imgDone_keeps {s : State} (h : Keeps cs u s) (hc : Within imgDoneChanges cs) :
    Keeps cs u (State.imgDone s) := by
  simp only [imgDoneChanges, within_append] at hc
  obtain ⟨h0, h1⟩ := hc
  unfold State.imgDone
  repeat' first
    | with_reducible first
      | assumption | apply raise_keeps | apply imgStatus_keeps
    | intro _ | split | dsimp only

def imgFailChanges : List Comp :=
  edgeChanges ++ setLdrChanges ++ [.ldrFailEntry, .ldrFailHave, .ldrFailNeed, .ldrFailSection, .ldrStatus]

theorem imgFail_keeps {s : State} (h : Keeps cs u s) (x1 : LoadErr) (hc : Within imgFailChanges cs) :
    Keeps cs u (State.imgFail s x1) := by
  simp only [imgFailChanges, within_append, and_assoc] at hc
  obtain ⟨h0, h1, hd⟩ := hc
  unfold State.imgFail
  repeat' first
    | with_reducible first
      | assumption | apply raise_keeps | apply setLdr_keeps
    | intro _ | split | dsimp only

def placePiecesChanges : List Comp :=
  visitBlockChanges ++ putBlockChanges

theorem placePieces_keeps {s : State} (h : Keeps cs u s) (sec : Nat) (src : Nat) (load : Nat)
    (x4 : List (Nat × List Byte)) (hc : Within placePiecesChanges cs) :
    Keeps cs u (State.placePieces s sec src load x4).1 := by
  simp only [placePiecesChanges, within_append] at hc
  obtain ⟨h0, h1⟩ := hc
  induction x4 generalizing s sec src load with
  | nil => exact h
  | cons y ys ih =>
    unfold State.placePieces
    repeat' first
      | with_reducible first
        | assumption | apply ih | apply visit_keeps | apply putBlock_keeps
      | intro _ | split | dsimp only

theorem placePieces_keepsq {s : State} (h : Keeps cs u s) {sec : Nat} {src : Nat} {load : Nat}
    {x4 : List (Nat × List Byte)} (hc : Within placePiecesChanges cs) {r t}
    (e : State.placePieces s sec src load x4 = (t, r)) :
    Keeps cs u t := by
  have := placePieces_keeps h sec src load x4 hc
  rwa [e] at this

theorem placeAll_keeps {s : State} (h : Keeps cs u s) (g : Stage) (x2 : List DirEnt)
    (hc : Within placePiecesChanges cs) :
    Keeps cs u (State.placeAll s g x2).1 := by
  induction x2 generalizing s g with
  | nil => exact h
  | cons y ys ih =>
    unfold State.placeAll
    repeat' first
      | with_reducible first
        | assumption | apply ih | refine placePieces_keepsq ?_ (by assumption) (by assumption)
      | intro _ | split | dsimp only

theorem placeAll_keepsq {s : State} (h : Keeps cs u s) {g : Stage} {x2 : List DirEnt}
    (hc : Within placePiecesChanges cs) {r t} (e : State.placeAll s g x2 = (t, r)) :
    Keeps cs u t := by
  have := placeAll_keeps h g x2 hc
  rwa [e] at this

def remapChanges : List Comp := [.dramBytes, .dramFinds, .dramFrameMap, .dramPoison, .dramWindows]

theorem foldl_set_wf {α : Type} (f : α → Nat) (l : List α) {p : SMap Bool} (h : SMap.wf (fun _ => false) p = true) :
    SMap.wf (fun _ => false) (l.foldl (fun p x => SMap.set (fun _ => false) p (f x) true) p) = true := by
  induction l generalizing p with
  | nil => exact h
  | cons x xs ih => exact ih (SMap.wf_set _ _ h)

theorem remap_keeps {s : State} (h : Keeps cs u s) (g : Stage) (m : SMap Nat) (hd : Within remapChanges cs) : Keeps
    cs u (s.remap g m) := by
  unfold State.remap
  refine h.next (dram := by constructor <;> first | exact .inr rfl | exact .inl (hd.of (by decide)))
    (mem := fun k => ⟨?_, ?_, k.regs, k.basins, k.basin, k.flash⟩)
  · dsimp only
    exact SMap.wf_keep _ k.bytes
  · exact foldl_set_wf _ _ (SMap.wf_nil _)

theorem initPools_keeps {s : State} (h : Keeps cs u s) (x1 : List Pool) (hc : Within initPoolChanges cs) :
    Keeps cs u (State.initPools s x1) := by
  induction x1 generalizing s with
  | nil => exact h
  | cons y ys ih =>
    unfold State.initPools
    repeat' first
      | with_reducible first
        | assumption | apply ih | apply initPool_keeps
      | intro _ | split | dsimp only

theorem admitOn_keeps {s : State} (h : Keeps cs u s) (x1 : CtxEntry) (x2 : List Nat)
    (hc : Within setCtxRunChanges cs) :
    Keeps cs u (State.admitOn s x1 x2) := by
  induction x2 generalizing s x1 with
  | nil => exact h
  | cons y ys ih =>
    unfold State.admitOn
    repeat' first
      | with_reducible first
        | assumption | apply ih | apply settleIn_keeps
      | intro _ | split | dsimp only

theorem admitAll_keeps {s : State} (h : Keeps cs u s) (x1 : List CtxEntry) (hc : Within setCtxRunChanges cs) :
    Keeps cs u (State.admitAll s x1) := by
  induction x1 generalizing s with
  | nil => exact h
  | cons y ys ih =>
    unfold State.admitAll
    repeat' first
      | with_reducible first
        | assumption | apply ih | apply admitOn_keeps
      | intro _ | split | dsimp only

theorem residency_keeps {s : State} (h : Keeps cs u s) (hc : Within setCtxRunChanges cs) :
    Keeps cs u (State.residency s) := by
  unfold State.residency
  repeat' first
    | with_reducible first
      | assumption | apply admitAll_keeps
    | intro _ | split | dsimp only

def buildChanges : List Comp :=
  setLdrChanges ++ setScanPendingChanges ++ setCtxRunChanges ++ initPoolChanges ++
    [.ingCtxs, .ingEngines, .ldrChain, .ldrDeterministic, .ldrImage, .ldrLoad, .ldrLocked, .ldrPlacing, .ldrSegs,
     .ldrSigned, .ldrState, .ldrSwapCount, .pools]

theorem build_keeps {s : State} (h : Keeps cs u s) (g : Stage) (i : Image) (hc : Within buildChanges cs) :
    Keeps cs u (State.build s g i) := by
  simp only [buildChanges, within_append, and_assoc] at hc
  obtain ⟨h0, h1, h2, h3, hd⟩ := hc
  unfold State.build
  repeat' first
    | with_reducible first
      | assumption | apply setLdr_keeps | apply setScanPending_keeps | apply residency_keeps
      | apply initPools_keeps
    | fail_if_no_progress with_reducible refine keeps_mk ?_ | intro _ | split | dsimp only

def loadRefusedChanges : List Comp :=
  imgFailChanges ++ setLdrChanges ++ [.ldrLoad, .ldrPlacing, .ldrState]

theorem loadRefused_keeps {s : State} (h : Keeps cs u s) (x1 : LoadErr) (hc : Within loadRefusedChanges cs) :
    Keeps cs u (State.loadRefused s x1) := by
  simp only [loadRefusedChanges, within_append, and_assoc] at hc
  obtain ⟨h0, h1, hd⟩ := hc
  unfold State.loadRefused
  repeat' first
    | with_reducible first
      | assumption | apply imgFail_keeps | apply setLdr_keeps
    | intro _ | split | dsimp only

def imgLoadChanges : List Comp :=
  loadRefusedChanges ++ imgStatusChanges ++ setLdrChanges ++ [.ldrLoad, .ldrState]

theorem imgLoad_keeps {s : State} (h : Keeps cs u s) (hc : Within imgLoadChanges cs) :
    Keeps cs u (State.imgLoad s) := by
  simp only [imgLoadChanges, within_append, and_assoc] at hc
  obtain ⟨h0, h1, h2, hd⟩ := hc
  unfold State.imgLoad
  repeat' first
    | with_reducible first
      | assumption | apply loadRefused_keeps | apply imgStatus_keeps | apply setLdr_keeps
    | intro _ | split | dsimp only

theorem execImgLoad_keeps {s : State} (h : Keeps cs u s) (hc : Within imgLoadChanges cs) :
    KeepsOut cs u (execImgLoad s) := by
  unfold execImgLoad
  repeat' first
    | with_reducible first
      | assumption | apply KeepsOut.next | apply when_keeps | apply imgLoad_keeps
    | intro _ | split | dsimp only

def passLoadChanges : List Comp :=
  loadRefusedChanges ++ setLdrChanges ++ remapChanges ++ visitBlockChanges ++ [.ldrPlacing]

theorem passLoad_keeps {s : State} (h : Keeps cs u s) (j : LoadJob) (v : Verdict) (hc : Within passLoadChanges cs) :
    Keeps cs u (State.passLoad s j v) := by
  simp only [passLoadChanges, within_append, and_assoc] at hc
  obtain ⟨h0, h1, h2, h3, hd⟩ := hc
  unfold State.passLoad
  repeat' first
    | with_reducible first
      | assumption | apply loadRefused_keeps | apply setLdr_keeps | apply remap_keeps | apply visit_keeps
    | intro _ | split | dsimp only

def placeLoadChanges : List Comp :=
  placePiecesChanges ++ loadRefusedChanges ++ imgDoneChanges ++ buildChanges

theorem placeLoad_keeps {s : State} (h : Keeps cs u s) (j : LoadJob) (hc : Within placeLoadChanges cs) :
    Keeps cs u (State.placeLoad s j) := by
  simp only [placeLoadChanges, within_append, and_assoc] at hc
  obtain ⟨h0, h1, h2, h3⟩ := hc
  unfold State.placeLoad
  repeat' first
    | with_reducible first
      | assumption | apply loadRefused_keeps | apply imgDone_keeps | apply build_keeps
      | refine placeAll_keepsq ?_ (by assumption) (by assumption)
    | intro _ | split | dsimp only

def execImgLoadCompleteChanges : List Comp :=
  passLoadChanges ++ placeLoadChanges

theorem execImgLoadComplete_keeps {s : State} (h : Keeps cs u s) (x1 : LoadEvent)
    (hc : Within execImgLoadCompleteChanges cs) :
    KeepsOut cs u (execImgLoadComplete x1 s) := by
  simp only [execImgLoadCompleteChanges, within_append] at hc
  obtain ⟨h0, h1⟩ := hc
  unfold execImgLoadComplete
  repeat' first
    | with_reducible first
      | assumption | apply KeepsOut.next | apply when_keeps | apply passLoad_keeps | apply placeLoad_keeps
    | intro _ | split | dsimp only

def imgLockChanges : List Comp :=
  imgDoneChanges ++ setLdrChanges ++ imgStatusChanges ++ [.ldrLocked]

theorem imgLock_keeps {s : State} (h : Keeps cs u s) (hc : Within imgLockChanges cs) :
    Keeps cs u (State.imgLock s) := by
  simp only [imgLockChanges, within_append, and_assoc] at hc
  obtain ⟨h0, h1, h2, hd⟩ := hc
  unfold State.imgLock
  repeat' first
    | with_reducible first
      | assumption | apply imgDone_keeps | apply setLdr_keeps | apply imgStatus_keeps
    | intro _ | split | dsimp only

theorem execImgLock_keeps {s : State} (h : Keeps cs u s) (hc : Within imgLockChanges cs) :
    KeepsOut cs u (execImgLock s) := by
  unfold execImgLock
  repeat' first
    | with_reducible first
      | assumption | apply KeepsOut.next | apply when_keeps | apply imgLock_keeps
    | intro _ | split | dsimp only

theorem killAll_keeps {s : State} (h : Keeps cs u s) (x1 : List Nat) (hc : Within setCoreChanges cs) :
    Keeps cs u (State.killAll s x1) := by
  induction x1 generalizing s with
  | nil => exact h
  | cons y ys ih =>
    unfold State.killAll
    repeat' first
      | with_reducible first
        | assumption | apply ih | apply killCores_keeps
      | intro _ | split | dsimp only

def unloadRillsChanges : List Comp :=
  dropRillChanges ++ ingestEventChanges ++ hostWriteChanges ++ setRillChanges

theorem unloadRills_keeps {s : State} (h : Keeps cs u s) (x1 : List Nat) (hc : Within unloadRillsChanges cs) :
    Keeps cs u (State.unloadRills s x1) := by
  simp only [unloadRillsChanges, within_append, and_assoc] at hc
  obtain ⟨h0, h1, h2, h3⟩ := hc
  induction x1 generalizing s with
  | nil => exact h
  | cons y ys ih =>
    unfold State.unloadRills
    repeat' first
      | with_reducible first
        | assumption | apply ih | apply dropRill_keeps | apply ingestEvent_keeps | apply statusRecord_keeps
        | apply setRill_keeps | apply clearRill_keeps
      | intro _ | split | dsimp only

def clearRunChanges : List Comp :=
    [.dramWindows, .ingCtxs, .ingEngines, .ingFrames, .ingRills, .ingScanPending, .pools, .sluCmds, .sluCtxs,
   .sluEnded, .sluGroups, .sluHeldIdle, .sluHolder, .sluLastHeld, .sluSlices, .trkCache, .trkCrops, .trkEmbq,
   .trkFlows, .trkLastPxe, .trkPerRill, .trkPxes, .trkTracks]

theorem clearRun_keeps {s : State} (h : Keeps cs u s) (hd : Within clearRunChanges cs) :
    Keeps cs u (State.clearRun s) := by
  unfold State.clearRun
  repeat' first
    | with_reducible first
      | assumption
    | fail_if_no_progress with_reducible refine keeps_mk ?_ | intro _ | split | dsimp only

def imgUnloadChanges : List Comp :=
  imgStatusChanges ++ imgFailChanges ++ clearRunChanges ++ unloadRillsChanges ++ setCoreChanges ++
    setLdrChanges ++ [.ldrState]

theorem imgUnload_keeps {s : State} (h : Keeps cs u s) (hc : Within imgUnloadChanges cs) :
    Keeps cs u (State.imgUnload s) := by
  simp only [imgUnloadChanges, within_append, and_assoc] at hc
  obtain ⟨h0, h1, h2, h3, h4, h5, hd⟩ := hc
  unfold State.imgUnload
  repeat' first
    | with_reducible first
      | assumption | apply imgStatus_keeps | apply imgFail_keeps | apply clearRun_keeps | apply unloadRills_keeps
      | apply killAll_keeps | apply setLdr_keeps
    | intro _ | split | dsimp only

theorem execImgUnload_keeps {s : State} (h : Keeps cs u s) (hc : Within imgUnloadChanges cs) :
    KeepsOut cs u (execImgUnload s) := by
  unfold execImgUnload
  repeat' first
    | with_reducible first
      | assumption | apply KeepsOut.next | apply when_keeps | apply imgUnload_keeps
    | intro _ | split | dsimp only

def execImgUnloadCompleteChanges : List Comp :=
  imgDoneChanges ++ setLdrChanges ++ [.ldrChain, .ldrDeterministic, .ldrImage, .ldrSegs, .ldrSigned, .ldrState]

theorem execImgUnloadComplete_keeps {s : State} (h : Keeps cs u s) (hc : Within execImgUnloadCompleteChanges cs) :
    KeepsOut cs u (execImgUnloadComplete s) := by
  simp only [execImgUnloadCompleteChanges, within_append, and_assoc] at hc
  obtain ⟨h0, h1, hd⟩ := hc
  unfold execImgUnloadComplete
  repeat' first
    | with_reducible first
      | assumption | apply KeepsOut.next | apply when_keeps | apply imgDone_keeps | apply setLdr_keeps
    | intro _ | split | dsimp only

def imgSwapChanges : List Comp :=
  imgStatusChanges ++ imgFailChanges ++ setLdrChanges ++ [.ldrSwap]

theorem imgSwap_keeps {s : State} (h : Keeps cs u s) (v : Verdict) (hc : Within imgSwapChanges cs) :
    Keeps cs u (State.imgSwap s v) := by
  simp only [imgSwapChanges, within_append, and_assoc] at hc
  obtain ⟨h0, h1, h2, hd⟩ := hc
  unfold State.imgSwap
  repeat' first
    | with_reducible first
      | assumption | apply imgStatus_keeps | apply imgFail_keeps | apply setLdr_keeps
    | intro _ | split | dsimp only

theorem execImgSwap_keeps {s : State} (h : Keeps cs u s) (v : Verdict) (hc : Within imgSwapChanges cs) :
    KeepsOut cs u (execImgSwap v s) := by
  unfold execImgSwap
  repeat' first
    | with_reducible first
      | assumption | apply KeepsOut.next | apply when_keeps | apply imgSwap_keeps
    | intro _ | split | dsimp only

def endSwapChanges : List Comp :=
  placePiecesChanges ++ visitBlockChanges ++ imgFailChanges ++ setLdrChanges ++ imgDoneChanges ++
    setScanPendingChanges ++ [.ldrChain, .ldrSegs, .ldrSwap, .ldrSwapCount]

theorem endSwap_keeps {s : State} (h : Keeps cs u s) (j : LoadJob) (hc : Within endSwapChanges cs) :
    Keeps cs u (State.endSwap s j) := by
  simp only [endSwapChanges, within_append, and_assoc] at hc
  obtain ⟨h0, h1, h2, h3, h4, h5, hd⟩ := hc
  unfold State.endSwap
  repeat' first
    | with_reducible first
      | assumption | apply visit_keeps | apply imgFail_keeps | apply setLdr_keeps | apply imgDone_keeps
      | apply setScanPending_keeps | refine placeAll_keepsq ?_ (by assumption) (by assumption)
    | intro _ | split | dsimp only

theorem execSwapComplete_keeps {s : State} (h : Keeps cs u s) (hc : Within endSwapChanges cs) :
    KeepsOut cs u (execSwapComplete s) := by
  unfold execSwapComplete
  repeat' first
    | with_reducible first
      | assumption | apply KeepsOut.next | apply when_keeps | apply endSwap_keeps
    | intro _ | split | dsimp only

def execSegmentRetireChanges : List Comp :=
  setLdrChanges ++ [.ldrSegs]

theorem execSegmentRetire_keeps {s : State} (h : Keeps cs u s) (seg : Nat) (hc : Within execSegmentRetireChanges cs) :
    KeepsOut cs u (execSegmentRetire seg s) := by
  simp only [execSegmentRetireChanges, within_append] at hc
  obtain ⟨h0, hd⟩ := hc
  unfold execSegmentRetire
  repeat' first
    | with_reducible first
      | assumption | apply KeepsOut.next | apply when_keeps | apply setLdr_keeps
    | intro _ | split | dsimp only

def imgCtrlChanges : List Comp :=
  imgLoadChanges ++ imgLockChanges ++ imgUnloadChanges ++ imgSwapChanges ++ [.freeIdx]

theorem imgCtrl_keeps {s : State} (h : Keeps cs u s) (v : Nat) (hc : Within imgCtrlChanges cs) :
    Keeps cs u (State.imgCtrl s v) := by
  simp only [imgCtrlChanges, within_append, and_assoc] at hc
  obtain ⟨h0, h1, h2, h3, hd⟩ := hc
  unfold State.imgCtrl
  repeat' first
    | with_reducible first
      | assumption | apply imgLoad_keeps | apply imgLock_keeps | apply imgUnload_keeps | apply imgSwap_keeps
    | fail_if_no_progress with_reducible refine keeps_mk ?_ | intro _ | split | dsimp only

end Sys2Proof.Machine
end

