-- ==== Sys2Proof/Laws/KeepsHost.lean ====
section
/-! SUPPORT. What the functions of the host link, Thyme, the ICU, registers, the board, and the idle step keep and change (Laws/Keeps.lean). -/

set_option Elab.async false

namespace Sys2Proof.Machine

set_option linter.unreachableTactic false
set_option linter.unusedTactic false

variable {cs : Comp → Prop} {u : State}

/-! ## Machine/HostOps.lean -/

theorem startFlr_keeps {s : State} (h : Keeps cs u s) (n : Nat) (hc : Within setFnChanges cs) :
    Keeps cs u (State.startFlr s n) := by
  unfold State.startFlr
  repeat' first
    | with_reducible first
      | assumption | apply setFn_keeps
    | intro _ | split | dsimp only

theorem startFlrs_keeps {s : State} (h : Keeps cs u s) (x1 : List Nat) (hc : Within setFnChanges cs) :
    Keeps cs u (State.startFlrs s x1) := by
  induction x1 generalizing s with
  | nil => exact h
  | cons y ys ih =>
    unfold State.startFlrs
    repeat' first
      | with_reducible first
        | assumption | apply ih | apply startFlr_keeps
      | intro _ | split | dsimp only

theorem disableVfs_keeps {s : State} (h : Keeps cs u s) (hc : Within setFnChanges cs) :
    Keeps cs u (State.disableVfs s) := by
  unfold State.disableVfs
  repeat' first
    | with_reducible first
      | assumption | apply startFlrs_keeps | apply putCfg_keeps
    | intro _ | split | dsimp only

theorem abandonLoad_keeps {s : State} (h : Keeps cs u s) (hc : Within loadRefusedChanges cs) :
    Keeps cs u (State.abandonLoad s) := by
  unfold State.abandonLoad
  repeat' first
    | with_reducible first
      | assumption | apply loadRefused_keeps
    | intro _ | split | dsimp only

def flrInitiateChanges : List Comp :=
  loadRefusedChanges ++ setFnChanges

theorem flrInitiate_keeps {s : State} (h : Keeps cs u s) (n : Nat) (hc : Within flrInitiateChanges cs) :
    Keeps cs u (State.flrInitiate s n) := by
  simp only [flrInitiateChanges, within_append] at hc
  obtain ⟨h0, h1⟩ := hc
  unfold State.flrInitiate
  repeat' first
    | with_reducible first
      | assumption | apply abandonLoad_keeps | apply startFlr_keeps | apply disableVfs_keeps
    | intro _ | split | dsimp only

def enterD3Changes : List Comp :=
  setFnChanges ++ flrInitiateChanges

theorem enterD3_keeps {s : State} (h : Keeps cs u s) (n : Nat) (hc : Within enterD3Changes cs) :
    Keeps cs u (State.enterD3 s n) := by
  simp only [enterD3Changes, within_append] at hc
  obtain ⟨h0, h1⟩ := hc
  unfold State.enterD3
  repeat' first
    | with_reducible first
      | assumption | apply putCfg_keeps | apply flrInitiate_keeps
    | intro _ | split | dsimp only

def discardCtxChanges : List Comp :=
  putRecFieldChanges ++ dropCmdRunChanges ++ setCoreChanges ++ setCtxRunChanges ++ itemGoneChanges ++
    yieldLaneChanges ++ endGroupChanges ++ dropCtxWindowsChanges

theorem discardCtx_keeps {s : State} (h : Keeps cs u s) (c : Nat) (hc : Within discardCtxChanges cs) :
    Keeps cs u (State.discardCtx s c) := by
  simp only [discardCtxChanges, within_append, and_assoc] at hc
  obtain ⟨h0, h1, h2, h3, h4, h5, h6, h7⟩ := hc
  unfold State.discardCtx
  repeat' first
    | with_reducible first
      | assumption | apply closeRecs_keeps | apply dropCmdRun_keeps | apply killCores_keeps
      | apply updCtxRun_keeps | apply itemsGone_keeps | apply yieldLanes_keeps | apply endGroup_keeps
      | apply dropCtxWindows_keeps
    | intro _ | split | dsimp only

theorem discardCtxs_keeps {s : State} (h : Keeps cs u s) (x1 : List CtxEntry) (hc : Within discardCtxChanges cs) :
    Keeps cs u (State.discardCtxs s x1) := by
  induction x1 generalizing s with
  | nil => exact h
  | cons y ys ih =>
    unfold State.discardCtxs
    repeat' first
      | with_reducible first
        | assumption | apply ih | apply discardCtx_keeps
      | intro _ | split | dsimp only

theorem dropMarks_keeps {s : State} (h : Keeps cs u s) (x1 : List (Nat × Item)) (hc : Within itemGoneChanges cs) :
    Keeps cs u (State.dropMarks s x1) := by
  induction x1 generalizing s with
  | nil => exact h
  | cons y ys ih =>
    unfold State.dropMarks
    repeat' first
      | with_reducible first
        | assumption | apply ih | apply itemGone_keeps
      | intro _ | split | dsimp only

def discardPxesChanges : List Comp :=
  itemGoneChanges ++ [.trkPxes]

theorem discardPxes_keeps {s : State} (h : Keeps cs u s) (ctxs : List Nat) (x2 : List (Nat × PxeRun))
    (hc : Within discardPxesChanges cs) :
    Keeps cs u (State.discardPxes s ctxs x2) := by
  simp only [discardPxesChanges, within_append] at hc
  obtain ⟨h0, hd⟩ := hc
  induction x2 generalizing s ctxs with
  | nil => exact h
  | cons y ys ih =>
    unfold State.discardPxes
    repeat' first
      | with_reducible first
        | assumption | apply ih | apply dropMarks_keeps
      | fail_if_no_progress with_reducible refine keeps_mk ?_ | intro _ | split | dsimp only

def dropCropsChanges : List Comp :=
  embLoseChanges ++ [.trkCrops]

theorem dropCrops_keeps {s : State} (h : Keeps cs u s) (ctxs : List Nat) (x2 : List CropReq)
    (hc : Within dropCropsChanges cs) :
    Keeps cs u (State.dropCrops s ctxs x2) := by
  simp only [dropCropsChanges, within_append] at hc
  obtain ⟨h0, hd⟩ := hc
  induction x2 generalizing s ctxs with
  | nil => exact h
  | cons y ys ih =>
    unfold State.dropCrops
    repeat' first
      | with_reducible first
        | assumption | apply ih | apply embLose_keeps
      | fail_if_no_progress with_reducible refine keeps_mk ?_ | intro _ | split | dsimp only

def dropFlowsChanges : List Comp := [.trkFlows]

theorem dropFlows_keeps {s : State} (h : Keeps cs u s) (n : Nat) (ctxs : List Nat) (hd : Within dropFlowsChanges cs) :
    Keeps cs u (State.dropFlows s n ctxs) := by
  unfold State.dropFlows
  repeat' first
    | with_reducible first
      | assumption
    | fail_if_no_progress with_reducible refine keeps_mk ?_ | intro _ | split | dsimp only

def dropRillsChanges : List Comp :=
  setRillChanges ++ dropRillChanges

theorem dropRills_keeps {s : State} (h : Keeps cs u s) (x1 : List Nat) (hc : Within dropRillsChanges cs) :
    Keeps cs u (State.dropRills s x1) := by
  simp only [dropRillsChanges, within_append] at hc
  obtain ⟨h0, h1⟩ := hc
  induction x1 generalizing s with
  | nil => exact h
  | cons y ys ih =>
    unfold State.dropRills
    repeat' first
      | with_reducible first
        | assumption | apply ih | apply clearRill_keeps | apply dropRill_keeps
      | intro _ | split | dsimp only

def dropFramesChanges : List Comp :=
  releaseChanges ++ [.ingFrames]

theorem dropFrames_keeps {s : State} (h : Keeps cs u s) (x1 : List Frame) (hc : Within dropFramesChanges cs) :
    Keeps cs u (State.dropFrames s x1) := by
  simp only [dropFramesChanges, within_append] at hc
  obtain ⟨h0, hd⟩ := hc
  induction x1 generalizing s with
  | nil => exact h
  | cons y ys ih =>
    unfold State.dropFrames
    repeat' first
      | with_reducible first
        | assumption | apply ih | apply release_keeps
      | fail_if_no_progress with_reducible refine keeps_mk ?_ | intro _ | split | dsimp only

theorem dropTracks_keeps {s : State} (h : Keeps cs u s) (x1 : List Nat) (hc : Within freeTracksChanges cs) :
    Keeps cs u (State.dropTracks s x1) := by
  induction x1 generalizing s with
  | nil => exact h
  | cons y ys ih =>
    unfold State.dropTracks
    repeat' first
      | with_reducible first
        | assumption | apply ih | apply freeTracks_keeps
      | intro _ | split | dsimp only

def reinitPoolsChanges : List Comp := [.pools]

theorem reinitPools_keeps {s : State} (h : Keeps cs u s) (n : Nat) (hd : Within reinitPoolsChanges cs) :
    Keeps cs u (State.reinitPools s n) := by
  unfold State.reinitPools
  repeat' first
    | with_reducible first
      | assumption
    | fail_if_no_progress with_reducible refine keeps_mk ?_ | intro _ | split | dsimp only

def silenceChanges : List Comp :=
  dropCropsChanges ++ discardPxesChanges ++ discardCtxChanges ++ freeTracksChanges ++ dropRillsChanges ++
    dropFlowsChanges ++ dropFramesChanges ++ scheduleChanges ++ settleChanges ++ setFnChanges ++
    reinitPoolsChanges

theorem silence_keeps {s : State} (h : Keeps cs u s) (n : Nat) (hc : Within silenceChanges cs) :
    Keeps cs u (State.silence s n) := by
  simp only [silenceChanges, within_append, and_assoc] at hc
  obtain ⟨h0, h1, h2, h3, h4, h5, h6, h7, h8, h9, h10⟩ := hc
  unfold State.silence
  repeat' first
    | with_reducible first
      | assumption | apply dropCrops_keeps | apply discardPxes_keeps | apply discardCtxs_keeps
      | apply dropTracks_keeps | apply dropRills_keeps | apply dropFlows_keeps | apply dropFrames_keeps
      | apply schedule_keeps | apply settle_keeps | apply setFn_keeps | apply reinitPools_keeps
    | intro _ | split | dsimp only

def clearSourcesChanges : List Comp := [.icuDelivered, .icuPend]

theorem clearSources_keeps {s : State} (h : Keeps cs u s) (n : Nat) (x2 : List Nat)
    (hd : Within clearSourcesChanges cs) :
    Keeps cs u (State.clearSources s n x2) := by
  induction x2 generalizing s n with
  | nil => exact h
  | cons y ys ih =>
    unfold State.clearSources
    repeat' first
      | with_reducible first
        | assumption | apply ih
      | fail_if_no_progress with_reducible refine keeps_mk ?_ | intro _ | split | dsimp only

theorem resetReg_keeps {s : State} (h : Keeps cs u s) (x1 : Reg) (x2 : Nat) (i : Nat) (hr : cs .regs ∨ cs (.reg x1)) :
    Keeps cs u (State.resetReg s x1 x2 i) := by
  unfold State.resetReg
  repeat' first
    | with_reducible first
      | assumption | apply setReg_keeps
    | intro _ | split | dsimp only

def resetRingChanges : List Comp :=
  setRingChanges ++ [.reg .TRK_RING_ADDR, .reg .TRK_RING_CTRL, .reg .TRK_RING_ENTRIES, .reg .TRK_RING_LOST]

theorem resetRing_keeps {s : State} (h : Keeps cs u s) (n : Nat) (hc : Within resetRingChanges cs) :
    Keeps cs u (State.resetRing s n) := by
  simp only [resetRingChanges, within_append] at hc
  obtain ⟨h0, hd⟩ := hc
  unfold State.resetRing
  repeat' first
    | with_reducible first
      | assumption | apply setRing_keeps | apply resetReg_keeps | exact .inr (hd.of (by decide))
    | intro _ | split | dsimp only

def resetVecsChanges : List Comp := [.reg .HEP_SRC_VEC]

theorem resetVecs_keeps {s : State} (h : Keeps cs u s) (x1 : List Nat) (hd : Within resetVecsChanges cs) :
    Keeps cs u (State.resetVecs s x1) := by
  induction x1 generalizing s with
  | nil => exact h
  | cons y ys ih =>
    unfold State.resetVecs
    repeat' first
      | with_reducible first
        | assumption | apply ih | apply resetReg_keeps | exact .inr (hd.of (by decide))
      | intro _ | split | dsimp only

def flrEndChanges : List Comp :=
  clearSourcesChanges ++ resetRingChanges ++ freeTracksChanges ++ dropFlowsChanges ++ resetVecsChanges ++
    setFnChanges ++ [.reg .HEP_CNT_FLR]

theorem flrEnd_keeps {s : State} (h : Keeps cs u s) (n : Nat) (hc : Within flrEndChanges cs) :
    Keeps cs u (State.flrEnd s n) := by
  simp only [flrEndChanges, within_append, and_assoc] at hc
  obtain ⟨h0, h1, h2, h3, h4, h5, hd⟩ := hc
  unfold State.flrEnd
  repeat' first
    | with_reducible first
      | assumption | apply clearSources_keeps | apply resetRing_keeps | apply dropTracks_keeps
      | apply dropFlows_keeps | apply resetVecs_keeps | apply count_keeps | apply setFn_keeps
      | exact .inr (hd.of (by decide))
    | intro _ | split | dsimp only

/-! ## Machine/CoolantCmds.lean -/

def restartClustersChanges : List Comp :=
  setCoreChanges ++ setClPwrChanges

theorem restartClusters_keeps {s : State} (h : Keeps cs u s) (x1 : List Nat) (hc : Within restartClustersChanges cs) :
    Keeps cs u (State.restartClusters s x1) := by
  simp only [restartClustersChanges, within_append] at hc
  obtain ⟨h0, h1⟩ := hc
  induction x1 generalizing s with
  | nil => exact h
  | cons y ys ih =>
    unfold State.restartClusters
    repeat' first
      | with_reducible first
        | assumption | apply ih | apply takeKills_keeps | apply setClPwr_keeps
      | intro _ | split | dsimp only

def resumeTimersChanges : List Comp := [.sluCtxs, .sluSlices]

theorem resumeTimers_keeps {s : State} (h : Keeps cs u s) (d : Nat) (hd : Within resumeTimersChanges cs) :
    Keeps cs u (State.resumeTimers s d) := by
  unfold State.resumeTimers
  repeat' first
    | with_reducible first
      | assumption
    | fail_if_no_progress with_reducible refine keeps_mk ?_ | intro _ | split | dsimp only

def leaveCoolantChanges : List Comp :=
  resumeTimersChanges ++ setCoolantChanges ++ setDramModeChanges ++ scheduleChanges ++ releasePortsChanges ++
    restartClustersChanges ++ setRailChanges

theorem leaveCoolant_keeps {s : State} (h : Keeps cs u s) (hc : Within leaveCoolantChanges cs) :
    Keeps cs u (State.leaveCoolant s) := by
  simp only [leaveCoolantChanges, within_append, and_assoc] at hc
  obtain ⟨h0, h1, h2, h3, h4, h5, h6⟩ := hc
  unfold State.leaveCoolant
  repeat' first
    | with_reducible first
      | assumption | apply resumeTimers_keeps | apply setCoolant_keeps | apply setDramMode_keeps
      | apply schedule_keeps | apply releasePorts_keeps | apply restartClusters_keeps | apply setRail_keeps
    | intro _ | split | dsimp only

def resumeCmdChanges : List Comp :=
  leaveCoolantChanges ++ powerStatusChanges

theorem resumeCmd_keeps {s : State} (h : Keeps cs u s) (hc : Within resumeCmdChanges cs) :
    Keeps cs u (State.resumeCmd s) := by
  simp only [resumeCmdChanges, within_append] at hc
  obtain ⟨h0, h1⟩ := hc
  unfold State.resumeCmd
  repeat' first
    | with_reducible first
      | assumption | apply leaveCoolant_keeps | apply when_keeps | apply powerStatus_keeps
    | intro _ | split | dsimp only

theorem execResume_keeps {s : State} (h : Keeps cs u s) (hc : Within resumeCmdChanges cs) :
    KeepsOut cs u (execResume s) := by
  unfold execResume
  repeat' first
    | with_reducible first
      | assumption | apply KeepsOut.next | apply resumeCmd_keeps
    | intro _ | split | dsimp only

theorem execAutoResume_keeps {s : State} (h : Keeps cs u s) (hc : Within leaveCoolantChanges cs) :
    KeepsOut cs u (execAutoResume s) := by
  unfold execAutoResume
  repeat' first
    | with_reducible first
      | assumption | apply KeepsOut.next | apply when_keeps | apply leaveCoolant_keeps
    | intro _ | split | dsimp only

/-! ## Machine/ThymeCmds.lean -/

def setThyChanges : List Comp :=
    [.thyNow, .thyLock, .thyPrev, .thyGood, .thyTrimPpb, .thyOffset, .thySnapBusy, .thySnapRetained, .thySnapCause]

theorem setThy_keeps {s : State} (h : Keeps cs u s) (x1 : Thyme) (hd : Within setThyChanges cs) :
    Keeps cs u (State.setThy s x1) := by
  unfold State.setThy
  repeat' first
    | with_reducible first
      | assumption
    | fail_if_no_progress with_reducible refine keeps_mk ?_ | intro _ | split | dsimp only

def thymeLoadChanges : List Comp :=
  setThyChanges ++ [.thyNow]

theorem thymeLoad_keeps {s : State} (h : Keeps cs u s) (v : W64) (hc : Within thymeLoadChanges cs) :
    Keeps cs u (State.thymeLoad s v) := by
  simp only [thymeLoadChanges, within_append] at hc
  obtain ⟨h0, hd⟩ := hc
  unfold State.thymeLoad
  repeat' first
    | with_reducible first
      | assumption | apply when_keeps | apply setThy_keeps
    | intro _ | split | dsimp only

theorem execThymeSet_keeps {s : State} (h : Keeps cs u s) (val : W64) (hc : Within thymeLoadChanges cs) :
    KeepsOut cs u (execThymeSet val s) := by
  unfold execThymeSet
  repeat' first
    | with_reducible first
      | assumption | apply KeepsOut.next | apply thymeLoad_keeps
    | intro _ | split | dsimp only

def execAlarmFireChanges : List Comp :=
  edgeChanges ++ [.reg .THYME_ALARM, .reg .THYME_ALARM_CTRL]

theorem execAlarmFire_keeps {s : State} (h : Keeps cs u s) (k : Nat) (hc : Within execAlarmFireChanges cs) :
    KeepsOut cs u (execAlarmFire k s) := by
  simp only [execAlarmFireChanges, within_append] at hc
  obtain ⟨h0, hd⟩ := hc
  unfold execAlarmFire
  repeat' first
    | with_reducible first
      | assumption | apply KeepsOut.next | apply when_keeps | apply updReg_keeps | apply setReg_keeps
      | apply raise_keeps | exact .inr (hd.of (by decide))
    | intro _ | split | dsimp only

theorem execTsyncFrameSend_keeps {s : State} (h : Keeps cs u s) (hc : Within sendChanges cs) :
    KeepsOut cs u (execTsyncFrameSend s) := by
  unfold execTsyncFrameSend
  repeat' first
    | with_reducible first
      | assumption | apply KeepsOut.next | apply when_keeps | apply send_keeps
    | intro _ | split | dsimp only

theorem lockEdge_keeps {s : State} (h : Keeps cs u s) (hc : Within edgeChanges cs) :
    Keeps cs u (State.lockEdge s) := by
  unfold State.lockEdge
  repeat' first
    | with_reducible first
      | assumption | apply edge_keeps
    | intro _ | split | dsimp only

def lockLostChanges : List Comp :=
  setThyChanges ++ edgeChanges ++ elogChanges ++ [.reg .THYME_CNT_UNLOCK, .thyGood, .thyLock]

theorem lockLost_keeps {s : State} (h : Keeps cs u s) (l : Lock) (hc : Within lockLostChanges cs) :
    Keeps cs u (State.lockLost s l) := by
  simp only [lockLostChanges, within_append, and_assoc] at hc
  obtain ⟨h0, h1, h2, hd⟩ := hc
  unfold State.lockLost
  repeat' first
    | with_reducible first
      | assumption | apply setThy_keeps | apply lockEdge_keeps | apply elog_keeps | apply count_keeps
      | exact .inr (hd.of (by decide))
    | intro _ | split | dsimp only

def timeStepChanges : List Comp :=
  setThyChanges ++ elogChanges ++ [.reg .THYME_CNT_STEP, .thyNow, .thyPrev]

theorem timeStep_keeps {s : State} (h : Keeps cs u s) (off : Int) (hc : Within timeStepChanges cs) :
    Keeps cs u (State.timeStep s off) := by
  simp only [timeStepChanges, within_append, and_assoc] at hc
  obtain ⟨h0, h1, hd⟩ := hc
  unfold State.timeStep
  repeat' first
    | with_reducible first
      | assumption | apply setThy_keeps | apply elog_keeps | apply count_keeps | exact .inr (hd.of (by decide))
    | intro _ | split | dsimp only

def trimChanges : List Comp := [.freeIdx, .thyTrimPpb]

theorem trim_keeps {s : State} (h : Keeps cs u s) (hd : Within trimChanges cs) :
    Keeps cs u (State.trim s) := by
  unfold State.trim
  repeat' first
    | with_reducible first
      | assumption
    | fail_if_no_progress with_reducible refine keeps_mk ?_ | intro _ | split | dsimp only

def acquireChanges : List Comp :=
  timeStepChanges ++ trimChanges ++ edgeChanges ++ setThyChanges ++ [.thyGood, .thyLock]

theorem acquire_keeps {s : State} (h : Keeps cs u s) (off : Int) (hc : Within acquireChanges cs) :
    Keeps cs u (State.acquire s off) := by
  simp only [acquireChanges, within_append, and_assoc] at hc
  obtain ⟨h0, h1, h2, h3, hd⟩ := hc
  unfold State.acquire
  repeat' first
    | with_reducible first
      | assumption | apply timeStep_keeps | apply trim_keeps | apply lockEdge_keeps | apply setThy_keeps
    | intro _ | split | dsimp only

def lockFrameChanges : List Comp :=
  acquireChanges ++ setThyChanges ++ lockLostChanges ++ trimChanges ++ [.thyGood, .thyLock]

theorem lockFrame_keeps {s : State} (h : Keeps cs u s) (off : Int) (hc : Within lockFrameChanges cs) :
    Keeps cs u (State.lockFrame s off) := by
  simp only [lockFrameChanges, within_append, and_assoc] at hc
  obtain ⟨h0, h1, h2, h3, hd⟩ := hc
  unfold State.lockFrame
  repeat' first
    | with_reducible first
      | assumption | apply acquire_keeps | apply setThy_keeps | apply lockLost_keeps | apply trim_keeps
    | intro _ | split | dsimp only

def execTsyncFrameReceiveChanges : List Comp :=
  sendChanges ++ setThyChanges ++ lockFrameChanges ++
    [.reg .THYME_CNT_BADFRAME, .reg .THYME_CNT_FRAME, .thyOffset, .thyPrev]

theorem execTsyncFrameReceive_keeps {s : State} (h : Keeps cs u s) (edgeNs : Nat) (bits : BitVec 80)
    (hc : Within execTsyncFrameReceiveChanges cs) :
    KeepsOut cs u (execTsyncFrameReceive edgeNs bits s) := by
  simp only [execTsyncFrameReceiveChanges, within_append, and_assoc] at hc
  obtain ⟨h0, h1, h2, hd⟩ := hc
  unfold execTsyncFrameReceive
  repeat' first
    | with_reducible first
      | assumption | apply KeepsOut.next | apply when_keeps | apply send_keeps | apply setThy_keeps
      | apply lockFrame_keeps | apply addTo_keeps | apply count_keeps | exact .inr (hd.of (by decide))
    | intro _ | split | dsimp only

def execTsyncTimeoutChanges : List Comp :=
  setThyChanges ++ lockLostChanges ++ [.thyGood, .thyPrev]

theorem execTsyncTimeout_keeps {s : State} (h : Keeps cs u s) (hc : Within execTsyncTimeoutChanges cs) :
    KeepsOut cs u (execTsyncTimeout s) := by
  simp only [execTsyncTimeoutChanges, within_append, and_assoc] at hc
  obtain ⟨h0, h1, hd⟩ := hc
  unfold execTsyncTimeout
  repeat' first
    | with_reducible first
      | assumption | apply KeepsOut.next | apply when_keeps | apply setThy_keeps | apply lockLost_keeps
    | intro _ | split | dsimp only

theorem snapNow_keeps {s : State} (h : Keeps cs u s) (hc : Within snapshotChanges cs) :
    Keeps cs u (State.snapNow s) := by
  unfold State.snapNow
  repeat' first
    | with_reducible first
      | assumption | apply when_keeps | apply snapshot_keeps
    | intro _ | split | dsimp only

theorem execSnapshotNow_keeps {s : State} (h : Keeps cs u s) (hc : Within snapshotChanges cs) :
    KeepsOut cs u (execSnapshotNow s) := by
  unfold execSnapshotNow
  repeat' first
    | with_reducible first
      | assumption | apply KeepsOut.next | apply snapNow_keeps
    | intro _ | split | dsimp only

def execSnapInEdgeChanges : List Comp :=
  snapshotChanges ++ edgeCoreChanges ++ edgeChanges

theorem execSnapInEdge_keeps {s : State} (h : Keeps cs u s) (hc : Within execSnapInEdgeChanges cs) :
    KeepsOut cs u (execSnapInEdge s) := by
  simp only [execSnapInEdgeChanges, within_append, and_assoc] at hc
  obtain ⟨h0, h1, h2⟩ := hc
  unfold execSnapInEdge
  repeat' first
    | with_reducible first
      | assumption | apply KeepsOut.next | apply snapshot_keeps | apply raiseQuiet_keeps | apply raise_keeps
    | intro _ | split | dsimp only

def execSnapshotTimeMatchChanges : List Comp :=
  snapshotChanges ++ [.reg .THYME_SNAP_CFG]

theorem execSnapshotTimeMatch_keeps {s : State} (h : Keeps cs u s) (hc : Within execSnapshotTimeMatchChanges cs) :
    KeepsOut cs u (execSnapshotTimeMatch s) := by
  simp only [execSnapshotTimeMatchChanges, within_append] at hc
  obtain ⟨h0, hd⟩ := hc
  unfold execSnapshotTimeMatch
  repeat' first
    | with_reducible first
      | assumption | apply KeepsOut.next | apply when_keeps | apply updReg_keeps | apply snapshot_keeps
      | exact .inr (hd.of (by decide))
    | intro _ | split | dsimp only

def execSnapshotCompleteChanges : List Comp :=
  edgeChanges ++ setThyChanges ++ [.thySnapBusy]

theorem execSnapshotComplete_keeps {s : State} (h : Keeps cs u s) (hc : Within execSnapshotCompleteChanges cs) :
    KeepsOut cs u (execSnapshotComplete s) := by
  simp only [execSnapshotCompleteChanges, within_append, and_assoc] at hc
  obtain ⟨h0, h1, hd⟩ := hc
  unfold execSnapshotComplete
  repeat' first
    | with_reducible first
      | assumption | apply KeepsOut.next | apply when_keeps | apply raise_keeps | apply setThy_keeps
    | intro _ | split | dsimp only

/-! ## Machine/IcuCmds.lean -/

theorem execSourceEdge_keeps {s : State} (h : Keeps cs u s) (src : Nat) (rise : Bool) (hc : Within edgeChanges cs) :
    KeepsOut cs u (execSourceEdge src rise s) := by
  unfold execSourceEdge
  repeat' first
    | with_reducible first
      | assumption | apply KeepsOut.next | apply when_keeps | apply edge_keeps
    | intro _ | split | dsimp only

def handOverChanges : List Comp :=
  messageChanges ++ [.icuDelivered, .icuPend]

theorem handOver_keeps {s : State} (h : Keeps cs u s) (i : Nat) (hc : Within handOverChanges cs) :
    Keeps cs u (State.handOver s i) := by
  simp only [handOverChanges, within_append] at hc
  obtain ⟨h0, hd⟩ := hc
  unfold State.handOver
  repeat' first
    | with_reducible first
      | assumption | apply message_keeps
    | fail_if_no_progress with_reducible refine keeps_mk ?_ | intro _ | split | dsimp only

theorem handOverAll_keeps {s : State} (h : Keeps cs u s) (x1 : List Nat) (hc : Within handOverChanges cs) :
    Keeps cs u (State.handOverAll s x1) := by
  induction x1 generalizing s with
  | nil => exact h
  | cons y ys ih =>
    unfold State.handOverAll
    repeat' first
      | with_reducible first
        | assumption | apply ih | apply handOver_keeps
      | intro _ | split | dsimp only

def execGroupDeliveryChanges : List Comp :=
  handOverChanges ++ [.icuTimers, .reg .ICU_GRP_CNT]

theorem execGroupDelivery_keeps {s : State} (h : Keeps cs u s) (g : Nat) (hc : Within execGroupDeliveryChanges cs) :
    KeepsOut cs u (execGroupDelivery g s) := by
  simp only [execGroupDeliveryChanges, within_append] at hc
  obtain ⟨h0, hd⟩ := hc
  unfold execGroupDelivery
  repeat' first
    | with_reducible first
      | assumption | apply KeepsOut.next | apply when_keeps | apply handOverAll_keeps | apply updReg_keeps
      | exact .inr (hd.of (by decide))
    | fail_if_no_progress with_reducible refine keeps_mk ?_ | intro _ | split | dsimp only

def execHoldoffExpireChanges : List Comp := [.icuDelivered, .icuTimers]

theorem execHoldoffExpire_keeps {s : State} (h : Keeps cs u s) (g : Nat) (hd : Within execHoldoffExpireChanges cs) :
    KeepsOut cs u (execHoldoffExpire g s) := by
  unfold execHoldoffExpire
  repeat' first
    | with_reducible first
      | assumption | apply KeepsOut.next | apply when_keeps
    | fail_if_no_progress with_reducible refine keeps_mk ?_ | intro _ | split | dsimp only

def execAowMatchChanges : List Comp := [.devPins, .reg .AOW_HIT]

theorem execAowMatch_keeps {s : State} (h : Keeps cs u s) (slot : Nat) (hd : Within execAowMatchChanges cs) :
    KeepsOut cs u (execAowMatch slot s) := by
  unfold execAowMatch
  repeat' first
    | with_reducible first
      | assumption | apply KeepsOut.next | apply when_keeps | apply updReg_keeps | exact .inr (hd.of (by decide))
    | fail_if_no_progress with_reducible refine keeps_mk ?_ | intro _ | split | dsimp only

def execAowTimerExpireChanges : List Comp :=
  edgeChanges ++ [.reg .AOW_TIMER_MS]

theorem execAowTimerExpire_keeps {s : State} (h : Keeps cs u s) (hc : Within execAowTimerExpireChanges cs) :
    KeepsOut cs u (execAowTimerExpire s) := by
  simp only [execAowTimerExpireChanges, within_append] at hc
  obtain ⟨h0, hd⟩ := hc
  unfold execAowTimerExpire
  repeat' first
    | with_reducible first
      | assumption | apply KeepsOut.next | apply when_keeps | apply raise_keeps | apply setReg_keeps
      | exact .inr (hd.of (by decide))
    | intro _ | split | dsimp only

def execWatchdogExpireChanges : List Comp :=
  adviseChanges ++ elogChanges

theorem execWatchdogExpire_keeps {s : State} (h : Keeps cs u s) (p : Processor)
    (hc : Within execWatchdogExpireChanges cs) :
    KeepsOut cs u (execWatchdogExpire p s) := by
  simp only [execWatchdogExpireChanges, within_append] at hc
  obtain ⟨h0, h1⟩ := hc
  unfold execWatchdogExpire
  repeat' first
    | with_reducible first
      | assumption | apply KeepsOut.next | apply when_keeps | apply advise_keeps | apply elog_keeps
    | intro _ | split | dsimp only

/-! ## Machine/RegCmds.lean -/

theorem softEdges_keeps {s : State} (h : Keeps cs u s) (old : Nat) (new : Nat) (x3 : List Nat)
    (hc : Within edgeChanges cs) :
    Keeps cs u (State.softEdges s old new x3) := by
  induction x3 generalizing s old new with
  | nil => exact h
  | cons y ys ih =>
    unfold State.softEdges
    repeat' first
      | with_reducible first
        | assumption | apply ih | apply edge_keeps
      | intro _ | split | dsimp only

def afterStoreChanges : List Comp :=
  edgeChanges ++ setRailChanges ++ sprintEndChanges ++ adviseChanChanges ++ adviseChanges ++
    setScanPendingChanges ++ setEvtChanges ++ setRingChanges ++ [.icuPend]

theorem afterStore_keeps {s : State} (h : Keeps cs u s) (l : RegLoc) (old : Nat) (new : Nat)
    (hc : Within afterStoreChanges cs) :
    Keeps cs u (State.afterStore s l old new) := by
  simp only [afterStoreChanges, within_append, and_assoc] at hc
  obtain ⟨h0, h1, h2, h3, h4, h5, h6, h7, hd⟩ := hc
  unfold State.afterStore
  repeat' first
    | with_reducible first
      | assumption | apply softEdges_keeps | apply settleRail_keeps | apply sprintCheck_keeps
      | apply adviseAll_keeps | apply when_keeps | apply advise_keeps | apply setScanPending_keeps
      | apply setEvt_keeps | apply setRing_keeps
    | fail_if_no_progress with_reducible refine keeps_mk ?_ | intro _ | split | dsimp only

def storeChanges : List Comp :=
  writeDelayChanges ++ afterStoreChanges ++ [.regs]

theorem store_keeps {s : State} (h : Keeps cs u s) (l : RegLoc) (v : W64) (hc : Within storeChanges cs) :
    Keeps cs u (State.store s l v) := by
  simp only [storeChanges, within_append, and_assoc] at hc
  obtain ⟨h0, h1, hd⟩ := hc
  unfold State.store
  repeat' first
    | with_reducible first
      | assumption | apply writeDelay_keeps | apply afterStore_keeps | apply setReg_keeps
      | exact .inl (hd.of (by decide))
    | intro _ | split | dsimp only

def triggerChanges : List Comp :=
  imgCtrlChanges ++ thymeLoadChanges ++ snapshotChanges ++ resumeCmdChanges ++ mboxWriteChanges ++
    hostFreeChanges ++ recalCtrlChanges ++ setDmcChanges

theorem trigger_keeps {s : State} (h : Keeps cs u s) (fn : Nat) (l : RegLoc) (v : W64)
    (hc : Within triggerChanges cs) :
    Keeps cs u (State.trigger s fn l v) := by
  simp only [triggerChanges, within_append, and_assoc] at hc
  obtain ⟨h0, h1, h2, h3, h4, h5, h6, h7⟩ := hc
  unfold State.trigger
  repeat' first
    | with_reducible first
      | assumption | apply imgCtrl_keeps | apply thymeLoad_keeps | apply when_keeps | apply snapNow_keeps
      | apply resumeCmd_keeps | apply mboxWrite_keeps | apply hostFree_keeps | apply recalCtrl_keeps
      | apply trainCtrl_keeps
    | intro _ | split | dsimp only

def clearBitsChanges : List Comp := [.icuPend, .regs]

theorem clearBits_keeps {s : State} (h : Keeps cs u s) (l : RegLoc) (v : W64) (hw : W64)
    (hd : Within clearBitsChanges cs) :
    Keeps cs u (State.clearBits s l v hw) := by
  unfold State.clearBits
  repeat' first
    | with_reducible first
      | assumption | apply updReg_keeps | exact .inl (hd.of (by decide))
    | fail_if_no_progress with_reducible refine keeps_mk ?_ | intro _ | split | dsimp only

def writeRegChanges : List Comp :=
  triggerChanges ++ clearBitsChanges ++ storeChanges

theorem writeReg_keeps {s : State} (h : Keeps cs u s) (fn : Nat) (l : RegLoc) (v : W64) (hw : W64)
    (hc : Within writeRegChanges cs) :
    Keeps cs u (State.writeReg s fn l v hw) := by
  simp only [writeRegChanges, within_append, and_assoc] at hc
  obtain ⟨h0, h1, h2⟩ := hc
  unfold State.writeReg
  repeat' first
    | with_reducible first
      | assumption | apply trigger_keeps | apply clearBits_keeps | apply store_keeps
    | intro _ | split | dsimp only

theorem writeLow_keeps {s : State} (h : Keeps cs u s) (fn : Nat) (l : RegLoc) (v : W32) (hc : Within setFnChanges cs)
    :
    Keeps cs u (State.writeLow s fn l v) := by
  unfold State.writeLow
  repeat' first
    | with_reducible first
      | assumption | apply setFn_keeps
    | intro _ | split | dsimp only

theorem writeHigh_keeps {s : State} (h : Keeps cs u s) (fn : Nat) (l : RegLoc) (v : W32)
    (hc : Within writeRegChanges cs) :
    Keeps cs u (State.writeHigh s fn l v) := by
  unfold State.writeHigh
  repeat' first
    | with_reducible first
      | assumption | apply writeReg_keeps
    | intro _ | split | dsimp only

def write32Changes : List Comp :=
  writeRegChanges ++ setFnChanges

theorem write32_keeps {s : State} (h : Keeps cs u s) (fn : Nat) (off : Nat) (v : W32) (hc : Within write32Changes cs)
    :
    Keeps cs u (State.write32 s fn off v) := by
  simp only [write32Changes, within_append] at hc
  obtain ⟨h0, h1⟩ := hc
  unfold State.write32
  repeat' first
    | with_reducible first
      | assumption | apply writeReg_keeps | apply writeHigh_keeps | apply writeLow_keeps
    | intro _ | split | dsimp only

def write64Changes : List Comp :=
  writeRegChanges ++ write32Changes

theorem write64_keeps {s : State} (h : Keeps cs u s) (fn : Nat) (off : Nat) (v : W64) (hc : Within write64Changes cs)
    :
    Keeps cs u (State.write64 s fn off v) := by
  simp only [write64Changes, within_append] at hc
  obtain ⟨h0, h1⟩ := hc
  unfold State.write64
  repeat' first
    | with_reducible first
      | assumption | apply writeReg_keeps | apply write32_keeps
    | intro _ | split | dsimp only

def rcClearChanges : List Comp :=
  setPoolChanges ++ setCoreChanges ++ [.regs, .reg .TC_FAULT, .trkStorePeak]

theorem rcClear_keeps {s : State} (h : Keeps cs u s) (l : RegLoc) (event : W64) (hc : Within rcClearChanges cs) :
    Keeps cs u (State.rcClear s l event) := by
  simp only [rcClearChanges, within_append, and_assoc] at hc
  obtain ⟨h0, h1, hd⟩ := hc
  unfold State.rcClear
  repeat' first
    | with_reducible first
      | assumption | apply setPool_keeps | apply setReg_keeps | apply updCore_keeps
      | exact .inr (hd.of (by decide)) | exact .inl (hd.of (by decide))
    | fail_if_no_progress with_reducible refine keeps_mk ?_ | intro _ | split | dsimp only

theorem readWhole_keeps {s : State} (h : Keeps cs u s) (l : RegLoc) (event : W64) (hc : Within rcClearChanges cs) :
    Keeps cs u (State.readWhole s l event).2 := by
  unfold State.readWhole
  repeat' first
    | with_reducible first
      | assumption | apply rcClear_keeps
    | intro _ | split | dsimp only

theorem readWhole_keepsq {s : State} (h : Keeps cs u s) {l : RegLoc} {event : W64} (hc : Within rcClearChanges cs)
    {r t} (e : State.readWhole s l event = (r, t)) :
    Keeps cs u t := by
  have := readWhole_keeps h l event hc
  rwa [e] at this

theorem readLow_keeps {s : State} (h : Keeps cs u s) (fn : Nat) (l : RegLoc) (hc : Within setFnChanges cs) :
    Keeps cs u (State.readLow s fn l).2 := by
  unfold State.readLow
  repeat' first
    | with_reducible first
      | assumption | apply setFn_keeps
    | intro _ | split | dsimp only

theorem readLow_keepsq {s : State} (h : Keeps cs u s) {fn : Nat} {l : RegLoc} (hc : Within setFnChanges cs) {r t}
    (e : State.readLow s fn l = (r, t)) :
    Keeps cs u t := by
  have := readLow_keeps h fn l hc
  rwa [e] at this

theorem readHigh_keeps {s : State} (h : Keeps cs u s) (fn : Nat) (l : RegLoc) (hc : Within setFnChanges cs) :
    Keeps cs u (State.readHigh s fn l).2 := by
  unfold State.readHigh
  repeat' first
    | with_reducible first
      | assumption | apply setFn_keeps
    | intro _ | split | dsimp only

theorem readHigh_keepsq {s : State} (h : Keeps cs u s) {fn : Nat} {l : RegLoc} (hc : Within setFnChanges cs) {r t}
    (e : State.readHigh s fn l = (r, t)) :
    Keeps cs u t := by
  have := readHigh_keeps h fn l hc
  rwa [e] at this

def read32Changes : List Comp :=
  rcClearChanges ++ setFnChanges

theorem read32_keeps {s : State} (h : Keeps cs u s) (fn : Nat) (off : Nat) (hc : Within read32Changes cs) :
    Keeps cs u (State.read32 s fn off).2 := by
  simp only [read32Changes, within_append] at hc
  obtain ⟨h0, h1⟩ := hc
  unfold State.read32
  repeat' first
    | with_reducible first
      | assumption | apply readWhole_keeps | apply readHigh_keeps | apply readLow_keeps
    | intro _ | split | dsimp only

theorem read32_keepsq {s : State} (h : Keeps cs u s) {fn : Nat} {off : Nat} (hc : Within read32Changes cs) {r t}
    (e : State.read32 s fn off = (r, t)) :
    Keeps cs u t := by
  have := read32_keeps h fn off hc
  rwa [e] at this

theorem readPair_keeps {s : State} (h : Keeps cs u s) (fn : Nat) (off : Nat) (hc : Within read32Changes cs) :
    Keeps cs u (State.readPair s fn off).2 := by
  unfold State.readPair
  repeat' first
    | with_reducible first
      | assumption | apply read32_keeps
    | intro _ | split | dsimp only

theorem readPair_keepsq {s : State} (h : Keeps cs u s) {fn : Nat} {off : Nat} (hc : Within read32Changes cs) {r t}
    (e : State.readPair s fn off = (r, t)) :
    Keeps cs u t := by
  have := readPair_keeps h fn off hc
  rwa [e] at this

def read64Changes : List Comp :=
  rcClearChanges ++ read32Changes

theorem read64_keeps {s : State} (h : Keeps cs u s) (fn : Nat) (off : Nat) (hc : Within read64Changes cs) :
    Keeps cs u (State.read64 s fn off).2 := by
  simp only [read64Changes, within_append] at hc
  obtain ⟨h0, h1⟩ := hc
  unfold State.read64
  repeat' first
    | with_reducible first
      | assumption | apply readWhole_keeps | apply readPair_keeps
    | intro _ | split | dsimp only

theorem read64_keepsq {s : State} (h : Keeps cs u s) {fn : Nat} {off : Nat} (hc : Within read64Changes cs) {r t}
    (e : State.read64 s fn off = (r, t)) :
    Keeps cs u t := by
  have := read64_keeps h fn off hc
  rwa [e] at this

theorem answer_keeps {s : State} (h : Keeps cs u s) (fn : Nat) (n : Nat) (v : Nat) (hc : Within sendChanges cs) :
    Keeps cs u (State.answer s fn n v) := by
  unfold State.answer
  repeat' first
    | with_reducible first
      | assumption | apply send_keeps
    | intro _ | split | dsimp only

def execRegisterWriteChanges : List Comp :=
  write64Changes ++ write32Changes

theorem execRegisterWrite_keeps {s : State} (h : Keeps cs u s) (fn : Nat) (off : Nat) (wide : Bool) (val : W64)
    (hc : Within execRegisterWriteChanges cs) :
    KeepsOut cs u (execRegisterWrite fn off wide val s) := by
  simp only [execRegisterWriteChanges, within_append] at hc
  obtain ⟨h0, h1⟩ := hc
  unfold execRegisterWrite
  repeat' first
    | with_reducible first
      | assumption | apply KeepsOut.next | apply when_keeps | apply write64_keeps | apply write32_keeps
    | intro _ | split | dsimp only

theorem onReg_keeps {s : State} (h : Keeps cs u s) (fn : Nat) (off : Nat) (p : RegLoc → Bool)
    (f : State → RegLoc → State) (hf : ∀ t l, Keeps cs u t → Keeps cs u (f t l)) :
    Keeps cs u (State.onReg s fn off p f) := by
  unfold State.onReg
  repeat' first
    | with_reducible first
      | assumption | apply hf | apply when_keeps
    | intro _ | split | dsimp only

def execRcReadChanges : List Comp :=
  rcClearChanges ++ sendChanges

theorem execRcRead_keeps {s : State} (h : Keeps cs u s) (fn : Nat) (off : Nat) (event : W64)
    (hc : Within execRcReadChanges cs) :
    KeepsOut cs u (execRcRead fn off event s) := by
  simp only [execRcReadChanges, within_append] at hc
  obtain ⟨h0, h1⟩ := hc
  unfold execRcRead
  repeat' first
    | with_reducible first
      | assumption | apply KeepsOut.next | apply onReg_keeps | apply readWhole_keeps | apply answer_keeps
    | intro _ | split | dsimp only

theorem execW1cWrite_keeps {s : State} (h : Keeps cs u s) (fn : Nat) (off : Nat) (val : W64) (hwSet : W64)
    (hc : Within clearBitsChanges cs) :
    KeepsOut cs u (execW1cWrite fn off val hwSet s) := by
  unfold execW1cWrite
  repeat' first
    | with_reducible first
      | assumption | apply KeepsOut.next | apply onReg_keeps | apply clearBits_keeps
    | intro _ | split | dsimp only

theorem execW1sWrite_keeps {s : State} (h : Keeps cs u s) (fn : Nat) (off : Nat) (val : W64)
    (hc : Within storeChanges cs) :
    KeepsOut cs u (execW1sWrite fn off val s) := by
  unfold execW1sWrite
  repeat' first
    | with_reducible first
      | assumption | apply KeepsOut.next | apply onReg_keeps | apply store_keeps
    | intro _ | split | dsimp only

def execLowWordReadChanges : List Comp :=
  setFnChanges ++ sendChanges

theorem execLowWordRead_keeps {s : State} (h : Keeps cs u s) (fn : Nat) (off : Nat)
    (hc : Within execLowWordReadChanges cs) :
    KeepsOut cs u (execLowWordRead fn off s) := by
  simp only [execLowWordReadChanges, within_append] at hc
  obtain ⟨h0, h1⟩ := hc
  unfold execLowWordRead
  repeat' first
    | with_reducible first
      | assumption | apply KeepsOut.next | apply onReg_keeps | apply readLow_keeps | apply answer_keeps
    | intro _ | split | dsimp only

theorem execLowWordWrite_keeps {s : State} (h : Keeps cs u s) (fn : Nat) (off : Nat) (val : W32)
    (hc : Within setFnChanges cs) :
    KeepsOut cs u (execLowWordWrite fn off val s) := by
  unfold execLowWordWrite
  repeat' first
    | with_reducible first
      | assumption | apply KeepsOut.next | apply onReg_keeps | apply writeLow_keeps
    | intro _ | split | dsimp only

theorem execHighWordWrite_keeps {s : State} (h : Keeps cs u s) (fn : Nat) (off : Nat) (val : W32)
    (hc : Within writeRegChanges cs) :
    KeepsOut cs u (execHighWordWrite fn off val s) := by
  unfold execHighWordWrite
  repeat' first
    | with_reducible first
      | assumption | apply KeepsOut.next | apply onReg_keeps | apply writeHigh_keeps
    | intro _ | split | dsimp only

/-! ## Machine/HostCmds.lean -/

def answerUrChanges : List Comp :=
  setFnChanges ++ sendChanges ++ [.reg .HEP_CNT_UR]

theorem answerUr_keeps {s : State} (h : Keeps cs u s) (fn : Nat) (posted : Bool) (hc : Within answerUrChanges cs) :
    Keeps cs u (State.answerUr s fn posted) := by
  simp only [answerUrChanges, within_append, and_assoc] at hc
  obtain ⟨h0, h1, hd⟩ := hc
  unfold State.answerUr
  repeat' first
    | with_reducible first
      | assumption | apply aerUncorrectable_keeps | apply count_keeps | apply complete_keeps
      | apply aerCorrectable_keeps | exact .inr (hd.of (by decide))
    | intro _ | split | dsimp only

def answerCaChanges : List Comp :=
  setFnChanges ++ sendChanges ++ [.reg .HEP_CNT_CA]

theorem answerCa_keeps {s : State} (h : Keeps cs u s) (fn : Nat) (posted : Bool) (hc : Within answerCaChanges cs) :
    Keeps cs u (State.answerCa s fn posted) := by
  simp only [answerCaChanges, within_append, and_assoc] at hc
  obtain ⟨h0, h1, hd⟩ := hc
  unfold State.answerCa
  repeat' first
    | with_reducible first
      | assumption | apply aerUncorrectable_keeps | apply count_keeps | apply complete_keeps
      | apply aerCorrectable_keeps | exact .inr (hd.of (by decide))
    | intro _ | split | dsimp only

theorem releaseFns_keeps {s : State} (h : Keeps cs u s) (x1 : List Nat) (hc : Within sendHeldChanges cs) :
    Keeps cs u (State.releaseFns s x1) := by
  induction x1 generalizing s with
  | nil => exact h
  | cons y ys ih =>
    unfold State.releaseFns
    repeat' first
      | with_reducible first
        | assumption | apply ih | apply releaseHeld_keeps
      | intro _ | split | dsimp only

def cfgTriggersChanges : List Comp :=
  setFnChanges ++ flrInitiateChanges ++ enterD3Changes ++ sendHeldChanges

theorem cfgTriggers_keeps {s : State} (h : Keeps cs u s) (before : State) (fn : Nat) (off : Nat) (data : List Byte)
    (hc : Within cfgTriggersChanges cs) :
    Keeps cs u (State.cfgTriggers s before fn off data) := by
  simp only [cfgTriggersChanges, within_append, and_assoc] at hc
  obtain ⟨h0, h1, h2, h3⟩ := hc
  unfold State.cfgTriggers
  repeat' first
    | with_reducible first
      | assumption | apply startFlrs_keeps | apply flrInitiate_keeps | apply enterD3_keeps
      | apply releaseFns_keeps
    | intro _ | split | dsimp only

def cfgWriteChanges : List Comp :=
  sendChanges ++ cfgTriggersChanges ++ setFnChanges

theorem cfgWrite_keeps {s : State} (h : Keeps cs u s) (fn : Nat) (off : Nat) (data : List Byte)
    (hc : Within cfgWriteChanges cs) :
    Keeps cs u (State.cfgWrite s fn off data) := by
  simp only [cfgWriteChanges, within_append, and_assoc] at hc
  obtain ⟨h0, h1, h2⟩ := hc
  unfold State.cfgWrite
  repeat' first
    | with_reducible first
      | assumption | apply complete_keeps | apply cfgTriggers_keeps | apply cfgWriteList_keeps
    | intro _ | split | dsimp only

def execConfigRequestChanges : List Comp :=
  sendChanges ++ answerUrChanges ++ cfgWriteChanges

theorem execConfigRequest_keeps {s : State} (h : Keeps cs u s) (fn : Nat) (off : Nat) (width : Nat)
    (write : Option W32) (hc : Within execConfigRequestChanges cs) :
    KeepsOut cs u (execConfigRequest fn off width write s) := by
  simp only [execConfigRequestChanges, within_append, and_assoc] at hc
  obtain ⟨h0, h1, h2⟩ := hc
  unfold execConfigRequest
  repeat' first
    | with_reducible first
      | assumption | apply KeepsOut.next | apply complete_keeps | apply when_keeps | apply answerUr_keeps
      | apply cfgWrite_keeps
    | intro _ | split | dsimp only

theorem write4_keeps {s : State} (h : Keeps cs u s) (fn : Nat) (off : Nat) (v : W32) (hc : Within setFnChanges cs) :
    Keeps cs u (State.write4 s fn off v) := by
  unfold State.write4
  repeat' first
    | with_reducible first
      | assumption | apply setFn_keeps
    | intro _ | split | dsimp only

def writeBar4Changes : List Comp :=
  setFnChanges ++ sendHeldChanges

theorem writeBar4_keeps {s : State} (h : Keeps cs u s) (fn : Nat) (off : Nat) (data : List Byte)
    (hc : Within writeBar4Changes cs) :
    Keeps cs u (State.writeBar4 s fn off data) := by
  simp only [writeBar4Changes, within_append] at hc
  obtain ⟨h0, h1⟩ := hc
  unfold State.writeBar4
  repeat' first
    | with_reducible first
      | assumption | apply write4_keeps | apply releaseHeld_keeps
    | intro _ | split | dsimp only

def readBarChanges : List Comp :=
  read64Changes ++ read32Changes ++ sendChanges

theorem readBar_keeps {s : State} (h : Keeps cs u s) (fn : Nat) (bar : Nat) (off : Nat) (n : Nat)
    (hc : Within readBarChanges cs) :
    Keeps cs u (State.readBar s fn bar off n) := by
  simp only [readBarChanges, within_append, and_assoc] at hc
  obtain ⟨h0, h1, h2⟩ := hc
  unfold State.readBar
  repeat' first
    | with_reducible first
      | assumption | apply read64_keeps | apply read32_keeps | apply answer_keeps
    | intro _ | split | dsimp only

def writeBarChanges : List Comp :=
  epWriteChanges ++ writeBar4Changes ++ write64Changes ++ write32Changes

theorem writeBar_keeps {s : State} (h : Keeps cs u s) (fn : Nat) (bar : Nat) (off : Nat) (data : List Byte)
    (ep : Bool) (hc : Within writeBarChanges cs) :
    Keeps cs u (State.writeBar s fn bar off data ep) := by
  simp only [writeBarChanges, within_append, and_assoc] at hc
  obtain ⟨h0, h1, h2, h3⟩ := hc
  unfold State.writeBar
  repeat' first
    | with_reducible first
      | assumption | apply epWrite_keeps | apply writeBar4_keeps | apply write64_keeps | apply write32_keeps
    | intro _ | split | dsimp only

def selfRefreshRejectChanges : List Comp :=
  answerCaChanges ++ [.reg .DMC_CNT_SRREJ]

theorem selfRefreshReject_keeps {s : State} (h : Keeps cs u s) (a : Nat) (posted : Bool)
    (hc : Within selfRefreshRejectChanges cs) :
    Keeps cs u (State.selfRefreshReject s a posted) := by
  simp only [selfRefreshRejectChanges, within_append] at hc
  obtain ⟨h0, hd⟩ := hc
  unfold State.selfRefreshReject
  repeat' first
    | with_reducible first
      | assumption | apply answerCa_keeps | apply count_keeps | exact .inr (hd.of (by decide))
    | intro _ | split | dsimp only

def bar2Changes : List Comp :=
  sendChanges ++ answerCaChanges ++ selfRefreshRejectChanges

theorem bar2_keeps {s : State} (h : Keeps cs u s) (a : Nat) (n : Nat) (posted : Bool) (f : State → State)
    (hc : Within bar2Changes cs) (hf : ∀ t, Keeps cs u t → Keeps cs u (f t)) :
    Keeps cs u (State.bar2 s a n posted f) := by
  simp only [bar2Changes, within_append, and_assoc] at hc
  obtain ⟨h0, h1, h2⟩ := hc
  unfold State.bar2
  repeat' first
    | with_reducible first
      | assumption | apply hf | apply answer_keeps | apply answerCa_keeps | apply selfRefreshReject_keeps
    | intro _ | split | dsimp only

def hostReadReqChanges : List Comp :=
  bar2Changes ++ requestChanges ++ answerUrChanges ++ sendChanges ++ readBarChanges

theorem hostReadReq_keeps {s : State} (h : Keeps cs u s) (fn : Nat) (bar : Nat) (off : Nat) (n : Nat)
    (hc : Within hostReadReqChanges cs) :
    Keeps cs u (State.hostReadReq s fn bar off n) := by
  simp only [hostReadReqChanges, within_append, and_assoc] at hc
  obtain ⟨h0, h1, h2, h3, h4⟩ := hc
  unfold State.hostReadReq
  repeat' first
    | with_reducible first
      | assumption | apply bar2_keeps | apply request_keeps | apply answerUr_keeps | apply answer_keeps
      | apply readBar_keeps
    | intro _ | split | dsimp only

def hostWriteReqChanges : List Comp :=
  bar2Changes ++ requestChanges ++ answerUrChanges ++ writeBarChanges

theorem hostWriteReq_keeps {s : State} (h : Keeps cs u s) (fn : Nat) (bar : Nat) (off : Nat) (data : List Byte)
    (ep : Bool) (hc : Within hostWriteReqChanges cs) :
    Keeps cs u (State.hostWriteReq s fn bar off data ep) := by
  simp only [hostWriteReqChanges, within_append, and_assoc] at hc
  obtain ⟨h0, h1, h2, h3⟩ := hc
  unfold State.hostWriteReq
  repeat' first
    | with_reducible first
      | assumption | apply bar2_keeps | apply request_keeps | apply answerUr_keeps | apply writeBar_keeps
    | intro _ | split | dsimp only

def execHostMemoryRequestChanges : List Comp :=
  answerUrChanges ++ hostReadReqChanges ++ hostWriteReqChanges

theorem execHostMemoryRequest_keeps {s : State} (h : Keeps cs u s) (fn : Nat) (bar : Nat) (off : Nat)
    (acc : HostAccess) (hc : Within execHostMemoryRequestChanges cs) :
    KeepsOut cs u (execHostMemoryRequest fn bar off acc s) := by
  simp only [execHostMemoryRequestChanges, within_append, and_assoc] at hc
  obtain ⟨h0, h1, h2⟩ := hc
  unfold execHostMemoryRequest
  repeat' first
    | with_reducible first
      | assumption | apply KeepsOut.next | apply when_keeps | apply answerUr_keeps | apply hostReadReq_keeps
      | apply hostWriteReq_keeps
    | intro _ | split | dsimp only

def execVendorDefinedMessageChanges : List Comp :=
  mctpChanges ++ sendChanges ++ setFnChanges ++ [.reg .HEP_CNT_UR]

theorem execVendorDefinedMessage_keeps {s : State} (h : Keeps cs u s) (fn : Nat) (body : VdmBody)
    (hc : Within execVendorDefinedMessageChanges cs) :
    KeepsOut cs u (execVendorDefinedMessage fn body s) := by
  simp only [execVendorDefinedMessageChanges, within_append, and_assoc] at hc
  obtain ⟨h0, h1, h2, hd⟩ := hc
  unfold execVendorDefinedMessage
  repeat' first
    | with_reducible first
      | assumption | apply KeepsOut.next | apply when_keeps | apply mctp_keeps | apply send_keeps
      | apply aerUncorrectable_keeps | apply count_keeps | exact .inr (hd.of (by decide))
    | intro _ | split | dsimp only

def readFailsChanges : List Comp :=
  pollFailedChanges ++ readFailedChanges ++ scheduleChanges ++ settleChanges ++ auReadFailedChanges

theorem readFails_keeps {s : State} (h : Keeps cs u s) (k : ReadKind) (addr : Nat) (timedOut : Bool)
    (hc : Within readFailsChanges cs) :
    Keeps cs u (State.readFails s k addr timedOut) := by
  simp only [readFailsChanges, within_append, and_assoc] at hc
  obtain ⟨h0, h1, h2, h3, h4⟩ := hc
  unfold State.readFails
  repeat' first
    | with_reducible first
      | assumption | apply pollFailed_keeps | apply readFailed_keeps | apply schedule_keeps | apply settle_keeps
      | apply auReadFailed_keeps
    | intro _ | split | dsimp only

theorem execDeviceReadFail_keeps {s : State} (h : Keeps cs u s) (kind : ReadKind) (addr : Nat)
    (hc : Within readFailsChanges cs) :
    KeepsOut cs u (execDeviceReadFail kind addr s) := by
  unfold execDeviceReadFail
  repeat' first
    | with_reducible first
      | assumption | apply KeepsOut.next | apply when_keeps | apply readFails_keeps
    | intro _ | split | dsimp only

theorem countLate_keeps {s : State} (h : Keeps cs u s) (fn : Nat) (f : Nat → Nat) (hc : Within setFnChanges cs) :
    Keeps cs u (State.countLate s fn f) := by
  unfold State.countLate
  repeat' first
    | with_reducible first
      | assumption | apply setFn_keeps
    | intro _ | split | dsimp only

def execCompletionTimeoutChanges : List Comp :=
  setFnChanges ++ readFailsChanges

theorem execCompletionTimeout_keeps {s : State} (h : Keeps cs u s) (kind : ReadKind) (addr : Nat)
    (hc : Within execCompletionTimeoutChanges cs) :
    KeepsOut cs u (execCompletionTimeout kind addr s) := by
  simp only [execCompletionTimeoutChanges, within_append] at hc
  obtain ⟨h0, h1⟩ := hc
  unfold execCompletionTimeout
  repeat' first
    | with_reducible first
      | assumption | apply KeepsOut.next | apply when_keeps | apply countLate_keeps | apply readFails_keeps
    | intro _ | split | dsimp only

theorem execLateCompletion_keeps {s : State} (h : Keeps cs u s) (fn : Nat) (hc : Within setFnChanges cs) :
    KeepsOut cs u (execLateCompletion fn s) := by
  unfold execLateCompletion
  repeat' first
    | with_reducible first
      | assumption | apply KeepsOut.next | apply when_keeps | apply countLate_keeps
    | intro _ | split | dsimp only

theorem execFlrInitiate_keeps {s : State} (h : Keeps cs u s) (fn : Nat) (hc : Within flrInitiateChanges cs) :
    KeepsOut cs u (execFlrInitiate fn s) := by
  unfold execFlrInitiate
  repeat' first
    | with_reducible first
      | assumption | apply KeepsOut.next | apply when_keeps | apply flrInitiate_keeps
    | intro _ | split | dsimp only

theorem execDmaSilenced_keeps {s : State} (h : Keeps cs u s) (fn : Nat) (hc : Within silenceChanges cs) :
    KeepsOut cs u (execDmaSilenced fn s) := by
  unfold execDmaSilenced
  repeat' first
    | with_reducible first
      | assumption | apply KeepsOut.next | apply when_keeps | apply silence_keeps
    | intro _ | split | dsimp only

theorem execFlrComplete_keeps {s : State} (h : Keeps cs u s) (fn : Nat) (hc : Within flrEndChanges cs) :
    KeepsOut cs u (execFlrComplete fn s) := by
  unfold execFlrComplete
  repeat' first
    | with_reducible first
      | assumption | apply KeepsOut.next | apply when_keeps | apply flrEnd_keeps
    | intro _ | split | dsimp only

def execVfEnableSetChanges : List Comp :=
  sendHeldChanges ++ setFnChanges

theorem execVfEnableSet_keeps {s : State} (h : Keeps cs u s) (hc : Within execVfEnableSetChanges cs) :
    KeepsOut cs u (execVfEnableSet s) := by
  simp only [execVfEnableSetChanges, within_append] at hc
  obtain ⟨h0, h1⟩ := hc
  unfold execVfEnableSet
  repeat' first
    | with_reducible first
      | assumption | apply KeepsOut.next | apply when_keeps | apply releaseFns_keeps | apply orCfg_keeps
    | intro _ | split | dsimp only

theorem execVfEnableClear_keeps {s : State} (h : Keeps cs u s) (hc : Within setFnChanges cs) :
    KeepsOut cs u (execVfEnableClear s) := by
  unfold execVfEnableClear
  repeat' first
    | with_reducible first
      | assumption | apply KeepsOut.next | apply when_keeps | apply disableVfs_keeps
    | intro _ | split | dsimp only

theorem execD3hotEntry_keeps {s : State} (h : Keeps cs u s) (fn : Nat) (hc : Within enterD3Changes cs) :
    KeepsOut cs u (execD3hotEntry fn s) := by
  unfold execD3hotEntry
  repeat' first
    | with_reducible first
      | assumption | apply KeepsOut.next | apply when_keeps | apply enterD3_keeps
    | intro _ | split | dsimp only

/-! ## Machine/BoardCmds.lean -/

theorem abandonMbox_keeps {s : State} (h : Keeps cs u s) (hc : Within mboxAbandonChanges cs) :
    Keeps cs u (State.abandonMbox s) := by
  unfold State.abandonMbox
  repeat' first
    | with_reducible first
      | assumption | apply mboxAbandon_keeps
    | intro _ | split | dsimp only

def coreResetChanges : List Comp :=
  mboxAbandonChanges ++
    [.devDramMode, .devLink, .devPins, .devRecovery, .devUcode, .dramBytes, .dramPoison, .dramFrameMap,
     .dramWindows, .dramDmcs, .dramFinds, .dramHeld, .fns, .icuPend, .icuCond, .icuDelivered, .icuTimers,
     .icuLog, .icuLogHead, .ingRills, .ingScanPending, .ingEvt, .ingCtxs, .ingEngines, .ingFrames, .ldrState,
     .ldrPlacing, .ldrLocked, .ldrDeterministic, .ldrLoad, .ldrSwap, .ldrSwapCount, .ldrStatus, .ldrFailSection,
     .ldrFailEntry, .ldrFailNeed, .ldrFailHave, .ldrImage, .ldrSegs, .ldrLastStamp, .ldrSigned, .ldrChain,
     .pools, .regs, .sageDoeConn, .sageKeys, .sageMbox, .sageMctpConn, .sagePendingSwitch, .sageSwitched,
     .sluCtxs, .sluCmds, .sluCores, .sluBasins, .sluHolder, .sluHeldIdle, .sluLastHeld, .sluSlices, .sluEnded,
     .sluGroups, .thyNow, .thyLock, .thyPrev, .thyGood, .thyTrimPpb, .thyOffset, .thySnapBusy, .thySnapRetained,
     .thySnapCause, .trkPxes, .trkLastPxe, .trkCrops, .trkEmbq, .trkTracks, .trkPerRill, .trkFlows, .trkRings,
     .trkStorePeak, .trkCache, .weirBrake, .weirCls, .weirCoolant, .weirCoolantNs, .weirDuty,
     .weirFlowReleasedNs, .weirLastMissNs, .weirLive, .weirPowerMw, .weirRailMv, .weirRestart, .weirSampleMw,
     .weirSprint, .weirSwitched, .weirThermal, .weirWaking]

theorem aoRegs_wf {m : SMap W64} (h : SMap.wf regDefault m = true) : SMap.wf regDefault (aoRegs m) = true :=
  SMap.wf_keep _ h

theorem coreReset_keeps {s : State} (h : Keeps cs u s) (hc : Within coreResetChanges cs) : Keeps cs u s.coreReset :=
    by
  simp only [coreResetChanges, within_append] at hc
  obtain ⟨h0, hd⟩ := hc
  refine (abandonMbox_keeps h (by assumption)).next
    (mem := fun k => ⟨Mem.wf_nil, SMap.wf_nil _, aoRegs_wf k.regs, SMap.wf_nil _,
      fun _ hx => absurd hx List.not_mem_nil, k.flash⟩)
    (regs := fun _ => .inl (hd.of (by decide))) (fns := .inl (hd.of (by decide)))
    (pools := .inl (hd.of (by decide)))
    (dev := by constructor <;> first | exact .inr rfl | exact .inl (hd.of (by decide)))
    (ldr := by constructor <;> first | exact .inr rfl | exact .inl (hd.of (by decide)))
    (dram := by constructor <;> first | exact .inr rfl | exact .inl (hd.of (by decide)))
    (ing := by constructor <;> first | exact .inr rfl | exact .inl (hd.of (by decide)))
    (trk := by constructor <;> first | exact .inr rfl | exact .inl (hd.of (by decide)))
    (slu := by constructor <;> first | exact .inr rfl | exact .inl (hd.of (by decide)))
    (weir := by constructor <;> first | exact .inr rfl | exact .inl (hd.of (by decide)))
    (icu := by constructor <;> first | exact .inr rfl | exact .inl (hd.of (by decide)))
    (thy := by constructor <;> first | exact .inr rfl | exact .inl (hd.of (by decide)))
    (sage := by constructor <;> first | exact .inr rfl | exact .inl (hd.of (by decide)))

def setLifeChanges : List Comp := [.devLife]

theorem setLife_keeps {s : State} (h : Keeps cs u s) (l : Life) (hd : Within setLifeChanges cs) :
    Keeps cs u (State.setLife s l) := by
  unfold State.setLife
  repeat' first
    | with_reducible first
      | assumption
    | fail_if_no_progress with_reducible refine keeps_mk ?_ | intro _ | split | dsimp only

def aoResetChanges : List Comp := [.devAoNs, .devHardStopRec, .regs, .sageEidSmb, .sageEidVdm, .weirSprint]

theorem aoReset_keeps {s : State} (h : Keeps cs u s) (hd : Within aoResetChanges cs) : Keeps cs u s.aoReset := by
  unfold State.aoReset
  refine h.next (dev := by constructor <;> first | exact .inr rfl | exact .inl (hd.of (by decide)))
    (weir := by constructor <;> first | exact .inr rfl | exact .inl (hd.of (by decide)))
    (sage := by constructor <;> first | exact .inr rfl | exact .inl (hd.of (by decide)))
    (regs := fun _ => .inl (hd.of (by decide)))
    (mem := fun k => ⟨k.bytes, k.poison, ?_, k.basins, k.basin, k.flash⟩)
  dsimp only
  exact SMap.wf_keep _ k.regs

def startFromChanges : List Comp :=
  setFlashChanges ++ deriveKeysChanges ++ [.reg .SAGE_BOOT]

theorem startFrom_keeps {s : State} (h : Keeps cs u s) (k : Nat) (slot : Bool) (hc : Within startFromChanges cs) :
    Keeps cs u (State.startFrom s k slot) := by
  simp only [startFromChanges, within_append, and_assoc] at hc
  obtain ⟨h0, h1, hd⟩ := hc
  unfold State.startFrom
  repeat' first
    | with_reducible first
      | assumption | apply setFlash_keeps | apply deriveKeys_keeps | apply updReg_keeps
      | exact .inr (hd.of (by decide))
    | (intro hm; simpa only [putTable_bytes] using hm) | intro _ | split | dsimp only

def recoverChanges : List Comp := [.devRecovery, .reg .SAGE_BOOT]

theorem recover_keeps {s : State} (h : Keeps cs u s) (st : W16) (hd : Within recoverChanges cs) :
    Keeps cs u (State.recover s st) := by
  unfold State.recover
  repeat' first
    | with_reducible first
      | assumption | apply updReg_keeps | exact .inr (hd.of (by decide))
    | fail_if_no_progress with_reducible refine keeps_mk ?_ | intro _ | split | dsimp only

def bootSubsChanges : List Comp :=
  startFromChanges ++ recoverChanges

theorem bootSubs_keeps {s : State} (h : Keeps cs u s) (b : BootFinds) (x2 : List Nat)
    (hc : Within bootSubsChanges cs) :
    Keeps cs u (State.bootSubs s b x2) := by
  simp only [bootSubsChanges, within_append] at hc
  obtain ⟨h0, h1⟩ := hc
  induction x2 generalizing s b with
  | nil => exact h
  | cons y ys ih =>
    unfold State.bootSubs
    repeat' first
      | with_reducible first
        | assumption | apply ih | apply startFrom_keeps | apply recover_keeps
      | intro _ | split | dsimp only

def putDelaysChanges : List Comp := [.regs]

theorem putDelays_keeps {s : State} (h : Keeps cs u s) (x1 : List (Nat × W32)) (hd : Within putDelaysChanges cs) :
    Keeps cs u (State.putDelays s x1) := by
  induction x1 generalizing s with
  | nil => exact h
  | cons y ys ih =>
    unfold State.putDelays
    repeat' first
      | with_reducible first
        | assumption | apply ih | apply setReg_keeps | exact .inl (hd.of (by decide))
      | intro _ | split | dsimp only

def bootDelaysChanges : List Comp :=
  putDelaysChanges ++ elogChanges

theorem bootDelays_keeps {s : State} (h : Keeps cs u s) (b : BootFinds) (hc : Within bootDelaysChanges cs) :
    Keeps cs u (State.bootDelays s b) := by
  simp only [bootDelaysChanges, within_append] at hc
  obtain ⟨h0, h1⟩ := hc
  unfold State.bootDelays
  repeat' first
    | with_reducible first
      | assumption | apply putDelays_keeps | apply elog_keeps
    | intro _ | split | dsimp only

def bootChanges : List Comp :=
  edgeChanges ++ setFlashChanges ++ recoverChanges ++ bootSubsChanges ++ bootDelaysChanges

theorem boot_keeps {s : State} (h : Keeps cs u s) (b : BootFinds) (hc : Within bootChanges cs) :
    Keeps cs u (State.boot s b) := by
  simp only [bootChanges, within_append, and_assoc] at hc
  obtain ⟨h0, h1, h2, h3, h4⟩ := hc
  unfold State.boot
  repeat' first
    | with_reducible first
      | assumption | apply lockEdge_keeps | apply setFlash_keeps | apply recover_keeps | apply bootSubs_keeps
      | apply bootDelays_keeps
    | (intro hm; simpa only [putTable_bytes] using hm) | intro _ | split | dsimp only

def execFundamentalResetChanges : List Comp :=
  coreResetChanges ++ bootChanges ++ elogChanges ++ powerStatusChanges ++
    [.devHardStopRec, .devLife, .devPins, .devRails, .devRole]

theorem execFundamentalReset_keeps {s : State} (h : Keeps cs u s) (boot : BootFinds)
    (hc : Within execFundamentalResetChanges cs) :
    KeepsOut cs u (execFundamentalReset boot s) := by
  simp only [execFundamentalResetChanges, within_append, and_assoc] at hc
  obtain ⟨h0, h1, h2, h3, hd⟩ := hc
  unfold execFundamentalReset
  repeat' first
    | with_reducible first
      | assumption | apply KeepsOut.next | apply when_keeps | apply coreReset_keeps | apply boot_keeps
      | apply elog_keeps | apply powerStatus_keeps
    | fail_if_no_progress with_reducible refine keeps_mk ?_ | intro _ | split | dsimp only

def execHotResetChanges : List Comp :=
  bootChanges ++ setLifeChanges ++ coreResetChanges

theorem execHotReset_keeps {s : State} (h : Keeps cs u s) (boot : BootFinds) (hc : Within execHotResetChanges cs) :
    KeepsOut cs u (execHotReset boot s) := by
  simp only [execHotResetChanges, within_append, and_assoc] at hc
  obtain ⟨h0, h1, h2⟩ := hc
  unfold execHotReset
  repeat' first
    | with_reducible first
      | assumption | apply KeepsOut.next | apply when_keeps | apply boot_keeps | apply setLife_keeps
      | apply coreReset_keeps
    | intro _ | split | dsimp only

def execPerstAssertChanges : List Comp :=
  setLifeChanges ++ coreResetChanges ++ [.devPins]

theorem execPerstAssert_keeps {s : State} (h : Keeps cs u s) (hc : Within execPerstAssertChanges cs) :
    KeepsOut cs u (execPerstAssert s) := by
  simp only [execPerstAssertChanges, within_append, and_assoc] at hc
  obtain ⟨h0, h1, hd⟩ := hc
  unfold execPerstAssert
  repeat' first
    | with_reducible first
      | assumption | apply KeepsOut.next | apply setLife_keeps | apply coreReset_keeps
    | fail_if_no_progress with_reducible refine keeps_mk ?_ | intro _ | split | dsimp only

def pinsAtReadyChanges : List Comp :=
  edgeChanges ++ coolantEnterChanges ++ brakeOnChanges

theorem pinsAtReady_keeps {s : State} (h : Keeps cs u s) (hc : Within pinsAtReadyChanges cs) :
    Keeps cs u (State.pinsAtReady s) := by
  simp only [pinsAtReadyChanges, within_append, and_assoc] at hc
  obtain ⟨h0, h1, h2⟩ := hc
  unfold State.pinsAtReady
  repeat' first
    | with_reducible first
      | assumption | apply edge_keeps | apply coolantEnter_keeps | apply brakeOn_keeps
    | intro _ | split | dsimp only

def execDeviceReadyChanges : List Comp :=
  setDramModeChanges ++ releasePortsChanges ++ pinsAtReadyChanges ++ setLifeChanges

theorem execDeviceReady_keeps {s : State} (h : Keeps cs u s) (hc : Within execDeviceReadyChanges cs) :
    KeepsOut cs u (execDeviceReady s) := by
  simp only [execDeviceReadyChanges, within_append, and_assoc] at hc
  obtain ⟨h0, h1, h2, h3⟩ := hc
  unfold execDeviceReady
  repeat' first
    | with_reducible first
      | assumption | apply KeepsOut.next | apply when_keeps | apply setDramMode_keeps | apply releasePorts_keeps
      | apply pinsAtReady_keeps | apply setLife_keeps
    | intro _ | split | dsimp only

def aoConditionsChanges : List Comp := [.icuCond]

theorem aoConditions_keeps {s : State} (h : Keeps cs u s) (hd : Within aoConditionsChanges cs) :
    Keeps cs u (State.aoConditions s) := by
  unfold State.aoConditions
  repeat' first
    | with_reducible first
      | assumption
    | fail_if_no_progress with_reducible refine keeps_mk ?_ | intro _ | split | dsimp only

def execStandbyEntryChanges : List Comp :=
  coreResetChanges ++ aoConditionsChanges ++ [.devLife, .devLink, .devPins]

theorem execStandbyEntry_keeps {s : State} (h : Keeps cs u s) (hc : Within execStandbyEntryChanges cs) : KeepsOut cs
    u (execStandbyEntry s) := by
  simp only [execStandbyEntryChanges, within_append, and_assoc] at hc
  obtain ⟨h0, h1, hd⟩ := hc
  unfold execStandbyEntry
  refine KeepsOut.next (when_keeps h _ ?_)
  dsimp only
  refine aoConditions_keeps ?_ (by assumption)
  have g := coreReset_keeps h (by assumption)
  exact
    { g with
      mem := fun m =>
        ⟨(h.mem m).bytes, (h.mem m).poison, (g.mem m).regs, (g.mem m).basins, (g.mem m).basin, (g.mem m).flash⟩
      dev := g.dev.trans (by constructor <;> first | exact .inr rfl | exact .inl (hd.of (by decide)))
      dram := ⟨h.dram.bytes, h.dram.poison, h.dram.frameMap, g.dram.windows, g.dram.dmcs, g.dram.finds, g.dram.held⟩ }

def execVauxApplyChanges : List Comp := [.devLife, .devPins, .devRails]

theorem execVauxApply_keeps {s : State} (h : Keeps cs u s) (hd : Within execVauxApplyChanges cs) :
    KeepsOut cs u (execVauxApply s) := by
  unfold execVauxApply
  repeat' first
    | with_reducible first
      | assumption | apply KeepsOut.next | apply when_keeps
    | fail_if_no_progress with_reducible refine keeps_mk ?_ | intro _ | split | dsimp only

def execAoPorReleaseChanges : List Comp :=
  setLifeChanges ++ aoResetChanges

theorem execAoPorRelease_keeps {s : State} (h : Keeps cs u s) (hc : Within execAoPorReleaseChanges cs) :
    KeepsOut cs u (execAoPorRelease s) := by
  simp only [execAoPorReleaseChanges, within_append] at hc
  obtain ⟨h0, h1⟩ := hc
  unfold execAoPorRelease
  repeat' first
    | with_reducible first
      | assumption | apply KeepsOut.next | apply when_keeps | apply setLife_keeps | apply aoReset_keeps
    | intro _ | split | dsimp only

def powerDownChanges : List Comp :=
  coreResetChanges ++ setLifeChanges ++ aoResetChanges ++ [.devPins]

theorem powerDown_keeps {s : State} (h : Keeps cs u s) (x1 : Rail) (hc : Within powerDownChanges cs) :
    Keeps cs u (State.powerDown s x1) := by
  simp only [powerDownChanges, within_append, and_assoc] at hc
  obtain ⟨h0, h1, h2, hd⟩ := hc
  unfold State.powerDown
  repeat' first
    | with_reducible first
      | assumption | apply coreReset_keeps | apply setLife_keeps | apply aoReset_keeps
    | fail_if_no_progress with_reducible refine keeps_mk ?_ | intro _ | split | dsimp only

theorem railLost_keeps {s : State} (h : Keeps cs u s) (x1 : Rail) (hc : Within powerDownChanges cs) :
    Keeps cs u (State.railLost s x1) := by
  unfold State.railLost
  repeat' first
    | with_reducible first
      | assumption | apply powerDown_keeps
    | intro _ | split | dsimp only

def execRailRemovalChanges : List Comp :=
  powerDownChanges ++ [.devPins, .devRails]

theorem execRailRemoval_keeps {s : State} (h : Keeps cs u s) (x1 : Rail) (hc : Within execRailRemovalChanges cs) :
    KeepsOut cs u (execRailRemoval x1 s) := by
  simp only [execRailRemovalChanges, within_append] at hc
  obtain ⟨h0, hd⟩ := hc
  unfold execRailRemoval
  repeat' first
    | with_reducible first
      | assumption | apply KeepsOut.next | exact KeepsOut.fault _ | apply railLost_keeps
    | fail_if_no_progress with_reducible refine keeps_mk ?_ | intro _ | split | dsimp only

def execLinkUpChanges : List Comp := [.devLink]

theorem execLinkUp_keeps {s : State} (h : Keeps cs u s) (rate : Nat) (width : Nat) (flit : Bool)
    (hd : Within execLinkUpChanges cs) :
    KeepsOut cs u (execLinkUp rate width flit s) := by
  unfold execLinkUp
  repeat' first
    | with_reducible first
      | assumption | apply KeepsOut.next | apply when_keeps
    | fail_if_no_progress with_reducible refine keeps_mk ?_ | intro _ | split | dsimp only

/-! ## Machine/CisternCmds.lean -/

theorem execBufferAlloc_keeps {s : State} (h : Keeps cs u s) (pool : Nat) (hc : Within allocChanges cs) :
    KeepsOut cs u (execBufferAlloc pool s) := by
  unfold execBufferAlloc
  repeat' first
    | with_reducible first
      | assumption | apply KeepsOut.next | apply when_keeps | apply alloc_keeps
    | intro _ | split | dsimp only

theorem execBufferRelease_keeps {s : State} (h : Keeps cs u s) (handle : W64) (hc : Within releaseChanges cs) :
    KeepsOut cs u (execBufferRelease handle s) := by
  unfold execBufferRelease
  repeat' first
    | with_reducible first
      | assumption | apply KeepsOut.next | apply release_keeps
    | intro _ | split | dsimp only

def balanceChanges : List Comp :=
  refillChanges ++ flushChanges

theorem balance_keeps {s : State} (h : Keeps cs u s) (p : Pool) (hc : Within balanceChanges cs) :
    Keeps cs u (State.balance s p) := by
  simp only [balanceChanges, within_append] at hc
  obtain ⟨h0, h1⟩ := hc
  unfold State.balance
  repeat' first
    | with_reducible first
      | assumption | apply refill_keeps | apply flush_keeps
    | intro _ | split | dsimp only

theorem execCacheRefill_keeps {s : State} (h : Keeps cs u s) (pool : Nat) (hc : Within balanceChanges cs) :
    KeepsOut cs u (execCacheRefill pool s) := by
  unfold execCacheRefill
  repeat' first
    | with_reducible first
      | assumption | apply KeepsOut.next | apply when_keeps | apply balance_keeps
    | intro _ | split | dsimp only

theorem execCisternHostFree_keeps {s : State} (h : Keeps cs u s) (fn : Nat) (handle : W64)
    (hc : Within hostFreeChanges cs) :
    KeepsOut cs u (execCisternHostFree fn handle s) := by
  unfold execCisternHostFree
  repeat' first
    | with_reducible first
      | assumption | apply KeepsOut.next | apply hostFree_keeps
    | intro _ | split | dsimp only

theorem execPoolReinitComplete_keeps {s : State} (h : Keeps cs u s) (pool : Nat) (hc : Within initPoolChanges cs) :
    KeepsOut cs u (execPoolReinitComplete pool s) := by
  unfold execPoolReinitComplete
  repeat' first
    | with_reducible first
      | assumption | apply KeepsOut.next | apply when_keeps | apply initPool_keeps
    | intro _ | split | dsimp only

/-! ## Machine/Tick.lean -/

def tickAowChanges : List Comp := [.reg .AOW_TIMER_MS]

theorem tickAow_keeps {s : State} (h : Keeps cs u s) (hd : Within tickAowChanges cs) :
    Keeps cs u (State.tickAow s) := by
  unfold State.tickAow
  repeat' first
    | with_reducible first
      | assumption | apply when_keeps | apply updReg_keeps | exact .inr (hd.of (by decide))
    | intro _ | split | dsimp only

def tickChanges : List Comp :=
  tickAowChanges ++ [.devAoNs, .icuTimers, .thyNow, .weirSprint]

theorem tick_keeps {s : State} (h : Keeps cs u s) (hc : Within tickChanges cs) :
    Keeps cs u (State.tick s) := by
  simp only [tickChanges, within_append] at hc
  obtain ⟨h0, hd⟩ := hc
  unfold State.tick
  repeat' first
    | with_reducible first
      | assumption | apply tickAow_keeps
    | fail_if_no_progress with_reducible refine keeps_mk ?_ | intro _ | split | dsimp only

end Sys2Proof.Machine
end

