-- ==== Sys2Proof/Laws/State.lean ====
section
/-! SUPPORT. The accessors of the state: what each update leaves, field by field, and what a read after a write gives. -/

set_option Elab.async false

namespace Sys2Proof.Machine

/-! ## The fields that an update leaves -/

@[simp] theorem setReg_fields (s : State) (r : Reg) (u i : Nat) (v : W64) :
    (s.setReg r u i v).pending = s.pending ∧ (s.setReg r u i v).out = s.out ∧
    (s.setReg r u i v).freeIdx = s.freeIdx ∧ (s.setReg r u i v).dev = s.dev ∧ (s.setReg r u i v).fns = s.fns ∧
    (s.setReg r u i v).ldr = s.ldr ∧ (s.setReg r u i v).dram = s.dram ∧ (s.setReg r u i v).pools = s.pools ∧
    (s.setReg r u i v).ing = s.ing ∧ (s.setReg r u i v).trk = s.trk ∧ (s.setReg r u i v).slu = s.slu ∧
    (s.setReg r u i v).weir = s.weir ∧ (s.setReg r u i v).icu = s.icu ∧ (s.setReg r u i v).thy = s.thy ∧
    (s.setReg r u i v).sage = s.sage := by
  unfold State.setReg; split <;> simp

@[simp] theorem updReg_fields (s : State) (r : Reg) (u i : Nat) (f : W64 → W64) :
    (s.updReg r u i f).pending = s.pending ∧ (s.updReg r u i f).out = s.out ∧
    (s.updReg r u i f).freeIdx = s.freeIdx ∧ (s.updReg r u i f).dev = s.dev ∧ (s.updReg r u i f).fns = s.fns ∧
    (s.updReg r u i f).ldr = s.ldr ∧ (s.updReg r u i f).dram = s.dram ∧ (s.updReg r u i f).pools = s.pools ∧
    (s.updReg r u i f).ing = s.ing ∧ (s.updReg r u i f).trk = s.trk ∧ (s.updReg r u i f).slu = s.slu ∧
    (s.updReg r u i f).weir = s.weir ∧ (s.updReg r u i f).icu = s.icu ∧ (s.updReg r u i f).thy = s.thy ∧
    (s.updReg r u i f).sage = s.sage := by
  unfold State.updReg State.setReg; split <;> simp

@[simp] theorem count_fields (s : State) (r : Reg) (u : Nat) :
    (s.count r u).pending = s.pending ∧ (s.count r u).out = s.out ∧ (s.count r u).freeIdx = s.freeIdx ∧
    (s.count r u).dev = s.dev ∧ (s.count r u).fns = s.fns ∧ (s.count r u).ldr = s.ldr ∧
    (s.count r u).dram = s.dram ∧ (s.count r u).pools = s.pools ∧ (s.count r u).ing = s.ing ∧
    (s.count r u).trk = s.trk ∧ (s.count r u).slu = s.slu ∧ (s.count r u).weir = s.weir ∧
    (s.count r u).icu = s.icu ∧ (s.count r u).thy = s.thy ∧ (s.count r u).sage = s.sage := by
  unfold State.count State.updReg State.setReg; split <;> simp

@[simp] theorem addTo_fields (s : State) (r : Reg) (u n : Nat) :
    (s.addTo r u n).pending = s.pending ∧ (s.addTo r u n).out = s.out ∧ (s.addTo r u n).freeIdx = s.freeIdx ∧
    (s.addTo r u n).dev = s.dev ∧ (s.addTo r u n).fns = s.fns ∧ (s.addTo r u n).ldr = s.ldr ∧
    (s.addTo r u n).dram = s.dram ∧ (s.addTo r u n).pools = s.pools ∧ (s.addTo r u n).ing = s.ing ∧
    (s.addTo r u n).trk = s.trk ∧ (s.addTo r u n).slu = s.slu ∧ (s.addTo r u n).weir = s.weir ∧
    (s.addTo r u n).icu = s.icu ∧ (s.addTo r u n).thy = s.thy ∧ (s.addTo r u n).sage = s.sage := by
  unfold State.addTo State.updReg State.setReg; split <;> simp

@[simp] theorem powerStatus_fields (s : State) (w : W16) :
    (s.powerStatus w).pending = s.pending ∧ (s.powerStatus w).out = s.out ∧ (s.powerStatus w).freeIdx = s.freeIdx ∧
    (s.powerStatus w).dev = s.dev ∧ (s.powerStatus w).fns = s.fns ∧ (s.powerStatus w).ldr = s.ldr ∧
    (s.powerStatus w).dram = s.dram ∧ (s.powerStatus w).pools = s.pools ∧ (s.powerStatus w).ing = s.ing ∧
    (s.powerStatus w).trk = s.trk ∧ (s.powerStatus w).slu = s.slu ∧ (s.powerStatus w).weir = s.weir ∧
    (s.powerStatus w).icu = s.icu ∧ (s.powerStatus w).thy = s.thy ∧ (s.powerStatus w).sage = s.sage := by
  unfold State.powerStatus State.setReg; split <;> simp

@[simp] theorem setFn_fields (s : State) (n : Nat) (x : FnState) :
    (s.setFn n x).pending = s.pending ∧ (s.setFn n x).out = s.out ∧ (s.setFn n x).freeIdx = s.freeIdx ∧
    (s.setFn n x).dev = s.dev ∧ (s.setFn n x).regs = s.regs ∧ (s.setFn n x).ldr = s.ldr ∧
    (s.setFn n x).dram = s.dram ∧ (s.setFn n x).pools = s.pools ∧ (s.setFn n x).ing = s.ing ∧
    (s.setFn n x).trk = s.trk ∧ (s.setFn n x).slu = s.slu ∧ (s.setFn n x).weir = s.weir ∧
    (s.setFn n x).icu = s.icu ∧ (s.setFn n x).thy = s.thy ∧ (s.setFn n x).sage = s.sage :=
  ⟨rfl, rfl, rfl, rfl, rfl, rfl, rfl, rfl, rfl, rfl, rfl, rfl, rfl, rfl, rfl⟩

@[simp] theorem setRill_fields (s : State) (n : Nat) (x : Rill) :
    (s.setRill n x).pending = s.pending ∧ (s.setRill n x).out = s.out ∧ (s.setRill n x).freeIdx = s.freeIdx ∧
    (s.setRill n x).dev = s.dev ∧ (s.setRill n x).fns = s.fns ∧ (s.setRill n x).regs = s.regs ∧
    (s.setRill n x).ldr = s.ldr ∧ (s.setRill n x).dram = s.dram ∧ (s.setRill n x).pools = s.pools ∧
    (s.setRill n x).trk = s.trk ∧ (s.setRill n x).slu = s.slu ∧ (s.setRill n x).weir = s.weir ∧
    (s.setRill n x).icu = s.icu ∧ (s.setRill n x).thy = s.thy ∧ (s.setRill n x).sage = s.sage :=
  ⟨rfl, rfl, rfl, rfl, rfl, rfl, rfl, rfl, rfl, rfl, rfl, rfl, rfl, rfl, rfl⟩

@[simp] theorem updRill_fields (s : State) (n : Nat) (f : Rill → Rill) :
    (s.updRill n f).pending = s.pending ∧ (s.updRill n f).out = s.out ∧ (s.updRill n f).freeIdx = s.freeIdx ∧
    (s.updRill n f).dev = s.dev ∧ (s.updRill n f).fns = s.fns ∧ (s.updRill n f).regs = s.regs ∧
    (s.updRill n f).ldr = s.ldr ∧ (s.updRill n f).dram = s.dram ∧ (s.updRill n f).pools = s.pools ∧
    (s.updRill n f).trk = s.trk ∧ (s.updRill n f).slu = s.slu ∧ (s.updRill n f).weir = s.weir ∧
    (s.updRill n f).icu = s.icu ∧ (s.updRill n f).thy = s.thy ∧ (s.updRill n f).sage = s.sage :=
  ⟨rfl, rfl, rfl, rfl, rfl, rfl, rfl, rfl, rfl, rfl, rfl, rfl, rfl, rfl, rfl⟩

@[simp] theorem setDecCtx_fields (s : State) (c : Nat) (x : DecCtx) :
    (s.setDecCtx c x).pending = s.pending ∧ (s.setDecCtx c x).out = s.out ∧ (s.setDecCtx c x).freeIdx = s.freeIdx ∧
    (s.setDecCtx c x).dev = s.dev ∧ (s.setDecCtx c x).fns = s.fns ∧ (s.setDecCtx c x).regs = s.regs ∧
    (s.setDecCtx c x).ldr = s.ldr ∧ (s.setDecCtx c x).dram = s.dram ∧ (s.setDecCtx c x).pools = s.pools ∧
    (s.setDecCtx c x).trk = s.trk ∧ (s.setDecCtx c x).slu = s.slu ∧ (s.setDecCtx c x).weir = s.weir ∧
    (s.setDecCtx c x).icu = s.icu ∧ (s.setDecCtx c x).thy = s.thy ∧ (s.setDecCtx c x).sage = s.sage :=
  ⟨rfl, rfl, rfl, rfl, rfl, rfl, rfl, rfl, rfl, rfl, rfl, rfl, rfl, rfl, rfl⟩

@[simp] theorem freeDecCtx_fields (s : State) (c : Nat) :
    (s.freeDecCtx c).pending = s.pending ∧ (s.freeDecCtx c).out = s.out ∧ (s.freeDecCtx c).freeIdx = s.freeIdx ∧
    (s.freeDecCtx c).dev = s.dev ∧ (s.freeDecCtx c).fns = s.fns ∧ (s.freeDecCtx c).regs = s.regs ∧
    (s.freeDecCtx c).ldr = s.ldr ∧ (s.freeDecCtx c).dram = s.dram ∧ (s.freeDecCtx c).pools = s.pools ∧
    (s.freeDecCtx c).trk = s.trk ∧ (s.freeDecCtx c).slu = s.slu ∧ (s.freeDecCtx c).weir = s.weir ∧
    (s.freeDecCtx c).icu = s.icu ∧ (s.freeDecCtx c).thy = s.thy ∧ (s.freeDecCtx c).sage = s.sage :=
  ⟨rfl, rfl, rfl, rfl, rfl, rfl, rfl, rfl, rfl, rfl, rfl, rfl, rfl, rfl, rfl⟩

@[simp] theorem setEngine_fields (s : State) (e : Nat) (x : Engine) :
    (s.setEngine e x).pending = s.pending ∧ (s.setEngine e x).out = s.out ∧ (s.setEngine e x).freeIdx = s.freeIdx ∧
    (s.setEngine e x).dev = s.dev ∧ (s.setEngine e x).fns = s.fns ∧ (s.setEngine e x).regs = s.regs ∧
    (s.setEngine e x).ldr = s.ldr ∧ (s.setEngine e x).dram = s.dram ∧ (s.setEngine e x).pools = s.pools ∧
    (s.setEngine e x).trk = s.trk ∧ (s.setEngine e x).slu = s.slu ∧ (s.setEngine e x).weir = s.weir ∧
    (s.setEngine e x).icu = s.icu ∧ (s.setEngine e x).thy = s.thy ∧ (s.setEngine e x).sage = s.sage :=
  ⟨rfl, rfl, rfl, rfl, rfl, rfl, rfl, rfl, rfl, rfl, rfl, rfl, rfl, rfl, rfl⟩

@[simp] theorem updFrame_fields (s : State) (n i : Nat) (f : Frame → Frame) :
    (s.updFrame n i f).pending = s.pending ∧ (s.updFrame n i f).out = s.out ∧
    (s.updFrame n i f).freeIdx = s.freeIdx ∧ (s.updFrame n i f).dev = s.dev ∧ (s.updFrame n i f).fns = s.fns ∧
    (s.updFrame n i f).regs = s.regs ∧ (s.updFrame n i f).ldr = s.ldr ∧ (s.updFrame n i f).dram = s.dram ∧
    (s.updFrame n i f).pools = s.pools ∧ (s.updFrame n i f).trk = s.trk ∧ (s.updFrame n i f).slu = s.slu ∧
    (s.updFrame n i f).weir = s.weir ∧ (s.updFrame n i f).icu = s.icu ∧ (s.updFrame n i f).thy = s.thy ∧
    (s.updFrame n i f).sage = s.sage :=
  ⟨rfl, rfl, rfl, rfl, rfl, rfl, rfl, rfl, rfl, rfl, rfl, rfl, rfl, rfl, rfl⟩

@[simp] theorem setEvt_fields (s : State) (r : Ring) :
    (s.setEvt r).pending = s.pending ∧ (s.setEvt r).out = s.out ∧ (s.setEvt r).freeIdx = s.freeIdx ∧
    (s.setEvt r).dev = s.dev ∧ (s.setEvt r).fns = s.fns ∧ (s.setEvt r).regs = s.regs ∧ (s.setEvt r).ldr = s.ldr ∧
    (s.setEvt r).dram = s.dram ∧ (s.setEvt r).pools = s.pools ∧ (s.setEvt r).trk = s.trk ∧
    (s.setEvt r).slu = s.slu ∧ (s.setEvt r).weir = s.weir ∧ (s.setEvt r).icu = s.icu ∧ (s.setEvt r).thy = s.thy ∧
    (s.setEvt r).sage = s.sage :=
  ⟨rfl, rfl, rfl, rfl, rfl, rfl, rfl, rfl, rfl, rfl, rfl, rfl, rfl, rfl, rfl⟩

@[simp] theorem setRillTrk_fields (s : State) (n : Nat) (x : RillTrk) :
    (s.setRillTrk n x).pending = s.pending ∧ (s.setRillTrk n x).out = s.out ∧
    (s.setRillTrk n x).freeIdx = s.freeIdx ∧ (s.setRillTrk n x).dev = s.dev ∧ (s.setRillTrk n x).fns = s.fns ∧
    (s.setRillTrk n x).regs = s.regs ∧ (s.setRillTrk n x).ldr = s.ldr ∧ (s.setRillTrk n x).dram = s.dram ∧
    (s.setRillTrk n x).pools = s.pools ∧ (s.setRillTrk n x).ing = s.ing ∧ (s.setRillTrk n x).slu = s.slu ∧
    (s.setRillTrk n x).weir = s.weir ∧ (s.setRillTrk n x).icu = s.icu ∧ (s.setRillTrk n x).thy = s.thy ∧
    (s.setRillTrk n x).sage = s.sage :=
  ⟨rfl, rfl, rfl, rfl, rfl, rfl, rfl, rfl, rfl, rfl, rfl, rfl, rfl, rfl, rfl⟩

@[simp] theorem setRing_fields (s : State) (n : Nat) (x : Ring) :
    (s.setRing n x).pending = s.pending ∧ (s.setRing n x).out = s.out ∧ (s.setRing n x).freeIdx = s.freeIdx ∧
    (s.setRing n x).dev = s.dev ∧ (s.setRing n x).fns = s.fns ∧ (s.setRing n x).regs = s.regs ∧
    (s.setRing n x).ldr = s.ldr ∧ (s.setRing n x).dram = s.dram ∧ (s.setRing n x).pools = s.pools ∧
    (s.setRing n x).ing = s.ing ∧ (s.setRing n x).slu = s.slu ∧ (s.setRing n x).weir = s.weir ∧
    (s.setRing n x).icu = s.icu ∧ (s.setRing n x).thy = s.thy ∧ (s.setRing n x).sage = s.sage :=
  ⟨rfl, rfl, rfl, rfl, rfl, rfl, rfl, rfl, rfl, rfl, rfl, rfl, rfl, rfl, rfl⟩

@[simp] theorem updFlow_fields (s : State) (n i : Nat) (f : Flow → Flow) :
    (s.updFlow n i f).pending = s.pending ∧ (s.updFlow n i f).out = s.out ∧ (s.updFlow n i f).freeIdx = s.freeIdx ∧
    (s.updFlow n i f).dev = s.dev ∧ (s.updFlow n i f).fns = s.fns ∧ (s.updFlow n i f).regs = s.regs ∧
    (s.updFlow n i f).ldr = s.ldr ∧ (s.updFlow n i f).dram = s.dram ∧ (s.updFlow n i f).pools = s.pools ∧
    (s.updFlow n i f).ing = s.ing ∧ (s.updFlow n i f).slu = s.slu ∧ (s.updFlow n i f).weir = s.weir ∧
    (s.updFlow n i f).icu = s.icu ∧ (s.updFlow n i f).thy = s.thy ∧ (s.updFlow n i f).sage = s.sage :=
  ⟨rfl, rfl, rfl, rfl, rfl, rfl, rfl, rfl, rfl, rfl, rfl, rfl, rfl, rfl, rfl⟩

@[simp] theorem setPxe_fields (s : State) (n : Nat) (x : Option PxeRun) :
    (s.setPxe n x).pending = s.pending ∧ (s.setPxe n x).out = s.out ∧ (s.setPxe n x).freeIdx = s.freeIdx ∧
    (s.setPxe n x).dev = s.dev ∧ (s.setPxe n x).fns = s.fns ∧ (s.setPxe n x).regs = s.regs ∧
    (s.setPxe n x).ldr = s.ldr ∧ (s.setPxe n x).dram = s.dram ∧ (s.setPxe n x).pools = s.pools ∧
    (s.setPxe n x).ing = s.ing ∧ (s.setPxe n x).slu = s.slu ∧ (s.setPxe n x).weir = s.weir ∧
    (s.setPxe n x).icu = s.icu ∧ (s.setPxe n x).thy = s.thy ∧ (s.setPxe n x).sage = s.sage :=
  ⟨rfl, rfl, rfl, rfl, rfl, rfl, rfl, rfl, rfl, rfl, rfl, rfl, rfl, rfl, rfl⟩

@[simp] theorem setCtxRun_fields (s : State) (c : Nat) (x : CtxRun) :
    (s.setCtxRun c x).pending = s.pending ∧ (s.setCtxRun c x).out = s.out ∧ (s.setCtxRun c x).freeIdx = s.freeIdx ∧
    (s.setCtxRun c x).dev = s.dev ∧ (s.setCtxRun c x).fns = s.fns ∧ (s.setCtxRun c x).regs = s.regs ∧
    (s.setCtxRun c x).ldr = s.ldr ∧ (s.setCtxRun c x).dram = s.dram ∧ (s.setCtxRun c x).pools = s.pools ∧
    (s.setCtxRun c x).ing = s.ing ∧ (s.setCtxRun c x).trk = s.trk ∧ (s.setCtxRun c x).weir = s.weir ∧
    (s.setCtxRun c x).icu = s.icu ∧ (s.setCtxRun c x).thy = s.thy ∧ (s.setCtxRun c x).sage = s.sage :=
  ⟨rfl, rfl, rfl, rfl, rfl, rfl, rfl, rfl, rfl, rfl, rfl, rfl, rfl, rfl, rfl⟩

@[simp] theorem updCtxRun_fields (s : State) (c : Nat) (f : CtxRun → CtxRun) :
    (s.updCtxRun c f).pending = s.pending ∧ (s.updCtxRun c f).out = s.out ∧ (s.updCtxRun c f).freeIdx = s.freeIdx ∧
    (s.updCtxRun c f).dev = s.dev ∧ (s.updCtxRun c f).fns = s.fns ∧ (s.updCtxRun c f).regs = s.regs ∧
    (s.updCtxRun c f).ldr = s.ldr ∧ (s.updCtxRun c f).dram = s.dram ∧ (s.updCtxRun c f).pools = s.pools ∧
    (s.updCtxRun c f).ing = s.ing ∧ (s.updCtxRun c f).trk = s.trk ∧ (s.updCtxRun c f).weir = s.weir ∧
    (s.updCtxRun c f).icu = s.icu ∧ (s.updCtxRun c f).thy = s.thy ∧ (s.updCtxRun c f).sage = s.sage :=
  ⟨rfl, rfl, rfl, rfl, rfl, rfl, rfl, rfl, rfl, rfl, rfl, rfl, rfl, rfl, rfl⟩

@[simp] theorem setCmdRun_fields (s : State) (c : Nat) (x : CmdRun) :
    (s.setCmdRun c x).pending = s.pending ∧ (s.setCmdRun c x).out = s.out ∧ (s.setCmdRun c x).freeIdx = s.freeIdx ∧
    (s.setCmdRun c x).dev = s.dev ∧ (s.setCmdRun c x).fns = s.fns ∧ (s.setCmdRun c x).regs = s.regs ∧
    (s.setCmdRun c x).ldr = s.ldr ∧ (s.setCmdRun c x).dram = s.dram ∧ (s.setCmdRun c x).pools = s.pools ∧
    (s.setCmdRun c x).ing = s.ing ∧ (s.setCmdRun c x).trk = s.trk ∧ (s.setCmdRun c x).weir = s.weir ∧
    (s.setCmdRun c x).icu = s.icu ∧ (s.setCmdRun c x).thy = s.thy ∧ (s.setCmdRun c x).sage = s.sage :=
  ⟨rfl, rfl, rfl, rfl, rfl, rfl, rfl, rfl, rfl, rfl, rfl, rfl, rfl, rfl, rfl⟩

@[simp] theorem dropCmdRun_fields (s : State) (c : Nat) :
    (s.dropCmdRun c).pending = s.pending ∧ (s.dropCmdRun c).out = s.out ∧ (s.dropCmdRun c).freeIdx = s.freeIdx ∧
    (s.dropCmdRun c).dev = s.dev ∧ (s.dropCmdRun c).fns = s.fns ∧ (s.dropCmdRun c).regs = s.regs ∧
    (s.dropCmdRun c).ldr = s.ldr ∧ (s.dropCmdRun c).dram = s.dram ∧ (s.dropCmdRun c).pools = s.pools ∧
    (s.dropCmdRun c).ing = s.ing ∧ (s.dropCmdRun c).trk = s.trk ∧ (s.dropCmdRun c).weir = s.weir ∧
    (s.dropCmdRun c).icu = s.icu ∧ (s.dropCmdRun c).thy = s.thy ∧ (s.dropCmdRun c).sage = s.sage :=
  ⟨rfl, rfl, rfl, rfl, rfl, rfl, rfl, rfl, rfl, rfl, rfl, rfl, rfl, rfl, rfl⟩

@[simp] theorem setCore_fields (s : State) (n : Nat) (x : Core) :
    (s.setCore n x).pending = s.pending ∧ (s.setCore n x).out = s.out ∧ (s.setCore n x).freeIdx = s.freeIdx ∧
    (s.setCore n x).dev = s.dev ∧ (s.setCore n x).fns = s.fns ∧ (s.setCore n x).regs = s.regs ∧
    (s.setCore n x).ldr = s.ldr ∧ (s.setCore n x).dram = s.dram ∧ (s.setCore n x).pools = s.pools ∧
    (s.setCore n x).ing = s.ing ∧ (s.setCore n x).trk = s.trk ∧ (s.setCore n x).weir = s.weir ∧
    (s.setCore n x).icu = s.icu ∧ (s.setCore n x).thy = s.thy ∧ (s.setCore n x).sage = s.sage :=
  ⟨rfl, rfl, rfl, rfl, rfl, rfl, rfl, rfl, rfl, rfl, rfl, rfl, rfl, rfl, rfl⟩

@[simp] theorem updCore_fields (s : State) (n : Nat) (f : Core → Core) :
    (s.updCore n f).pending = s.pending ∧ (s.updCore n f).out = s.out ∧ (s.updCore n f).freeIdx = s.freeIdx ∧
    (s.updCore n f).dev = s.dev ∧ (s.updCore n f).fns = s.fns ∧ (s.updCore n f).regs = s.regs ∧
    (s.updCore n f).ldr = s.ldr ∧ (s.updCore n f).dram = s.dram ∧ (s.updCore n f).pools = s.pools ∧
    (s.updCore n f).ing = s.ing ∧ (s.updCore n f).trk = s.trk ∧ (s.updCore n f).weir = s.weir ∧
    (s.updCore n f).icu = s.icu ∧ (s.updCore n f).thy = s.thy ∧ (s.updCore n f).sage = s.sage :=
  ⟨rfl, rfl, rfl, rfl, rfl, rfl, rfl, rfl, rfl, rfl, rfl, rfl, rfl, rfl, rfl⟩

@[simp] theorem setBasin_fields (s : State) (n : Nat) (m : Mem) :
    (s.setBasin n m).pending = s.pending ∧ (s.setBasin n m).out = s.out ∧ (s.setBasin n m).freeIdx = s.freeIdx ∧
    (s.setBasin n m).dev = s.dev ∧ (s.setBasin n m).fns = s.fns ∧ (s.setBasin n m).regs = s.regs ∧
    (s.setBasin n m).ldr = s.ldr ∧ (s.setBasin n m).dram = s.dram ∧ (s.setBasin n m).pools = s.pools ∧
    (s.setBasin n m).ing = s.ing ∧ (s.setBasin n m).trk = s.trk ∧ (s.setBasin n m).weir = s.weir ∧
    (s.setBasin n m).icu = s.icu ∧ (s.setBasin n m).thy = s.thy ∧ (s.setBasin n m).sage = s.sage :=
  ⟨rfl, rfl, rfl, rfl, rfl, rfl, rfl, rfl, rfl, rfl, rfl, rfl, rfl, rfl, rfl⟩

@[simp] theorem setHolder_fields (s : State) (n : Nat) (c : Option Nat) :
    (s.setHolder n c).pending = s.pending ∧ (s.setHolder n c).out = s.out ∧ (s.setHolder n c).freeIdx = s.freeIdx ∧
    (s.setHolder n c).dev = s.dev ∧ (s.setHolder n c).fns = s.fns ∧ (s.setHolder n c).regs = s.regs ∧
    (s.setHolder n c).ldr = s.ldr ∧ (s.setHolder n c).dram = s.dram ∧ (s.setHolder n c).pools = s.pools ∧
    (s.setHolder n c).ing = s.ing ∧ (s.setHolder n c).trk = s.trk ∧ (s.setHolder n c).weir = s.weir ∧
    (s.setHolder n c).icu = s.icu ∧ (s.setHolder n c).thy = s.thy ∧ (s.setHolder n c).sage = s.sage :=
  ⟨rfl, rfl, rfl, rfl, rfl, rfl, rfl, rfl, rfl, rfl, rfl, rfl, rfl, rfl, rfl⟩

@[simp] theorem setDmc_fields (s : State) (n : Nat) (x : Dmc) :
    (s.setDmc n x).pending = s.pending ∧ (s.setDmc n x).out = s.out ∧ (s.setDmc n x).freeIdx = s.freeIdx ∧
    (s.setDmc n x).dev = s.dev ∧ (s.setDmc n x).fns = s.fns ∧ (s.setDmc n x).regs = s.regs ∧
    (s.setDmc n x).ldr = s.ldr ∧ (s.setDmc n x).pools = s.pools ∧ (s.setDmc n x).ing = s.ing ∧
    (s.setDmc n x).trk = s.trk ∧ (s.setDmc n x).slu = s.slu ∧ (s.setDmc n x).weir = s.weir ∧
    (s.setDmc n x).icu = s.icu ∧ (s.setDmc n x).thy = s.thy ∧ (s.setDmc n x).sage = s.sage :=
  ⟨rfl, rfl, rfl, rfl, rfl, rfl, rfl, rfl, rfl, rfl, rfl, rfl, rfl, rfl, rfl⟩

@[simp] theorem setDramBytes_fields (s : State) (m : Mem) :
    (s.setDramBytes m).pending = s.pending ∧ (s.setDramBytes m).out = s.out ∧
    (s.setDramBytes m).freeIdx = s.freeIdx ∧ (s.setDramBytes m).dev = s.dev ∧ (s.setDramBytes m).fns = s.fns ∧
    (s.setDramBytes m).regs = s.regs ∧ (s.setDramBytes m).ldr = s.ldr ∧ (s.setDramBytes m).pools = s.pools ∧
    (s.setDramBytes m).ing = s.ing ∧ (s.setDramBytes m).trk = s.trk ∧ (s.setDramBytes m).slu = s.slu ∧
    (s.setDramBytes m).weir = s.weir ∧ (s.setDramBytes m).icu = s.icu ∧ (s.setDramBytes m).thy = s.thy ∧
    (s.setDramBytes m).sage = s.sage :=
  ⟨rfl, rfl, rfl, rfl, rfl, rfl, rfl, rfl, rfl, rfl, rfl, rfl, rfl, rfl, rfl⟩

@[simp] theorem setPoison_fields (s : State) (b : Nat) (v : Bool) :
    (s.setPoison b v).pending = s.pending ∧ (s.setPoison b v).out = s.out ∧ (s.setPoison b v).freeIdx = s.freeIdx ∧
    (s.setPoison b v).dev = s.dev ∧ (s.setPoison b v).fns = s.fns ∧ (s.setPoison b v).regs = s.regs ∧
    (s.setPoison b v).ldr = s.ldr ∧ (s.setPoison b v).pools = s.pools ∧ (s.setPoison b v).ing = s.ing ∧
    (s.setPoison b v).trk = s.trk ∧ (s.setPoison b v).slu = s.slu ∧ (s.setPoison b v).weir = s.weir ∧
    (s.setPoison b v).icu = s.icu ∧ (s.setPoison b v).thy = s.thy ∧ (s.setPoison b v).sage = s.sage :=
  ⟨rfl, rfl, rfl, rfl, rfl, rfl, rfl, rfl, rfl, rfl, rfl, rfl, rfl, rfl, rfl⟩

@[simp] theorem setClPwr_fields (s : State) (n : Nat) (x : ClPwr) :
    (s.setClPwr n x).pending = s.pending ∧ (s.setClPwr n x).out = s.out ∧ (s.setClPwr n x).freeIdx = s.freeIdx ∧
    (s.setClPwr n x).dev = s.dev ∧ (s.setClPwr n x).fns = s.fns ∧ (s.setClPwr n x).regs = s.regs ∧
    (s.setClPwr n x).ldr = s.ldr ∧ (s.setClPwr n x).dram = s.dram ∧ (s.setClPwr n x).pools = s.pools ∧
    (s.setClPwr n x).ing = s.ing ∧ (s.setClPwr n x).trk = s.trk ∧ (s.setClPwr n x).slu = s.slu ∧
    (s.setClPwr n x).icu = s.icu ∧ (s.setClPwr n x).thy = s.thy ∧ (s.setClPwr n x).sage = s.sage :=
  ⟨rfl, rfl, rfl, rfl, rfl, rfl, rfl, rfl, rfl, rfl, rfl, rfl, rfl, rfl, rfl⟩

@[simp] theorem setSprint_fields (s : State) (x : Sprint) :
    (s.setSprint x).pending = s.pending ∧ (s.setSprint x).out = s.out ∧ (s.setSprint x).freeIdx = s.freeIdx ∧
    (s.setSprint x).dev = s.dev ∧ (s.setSprint x).fns = s.fns ∧ (s.setSprint x).regs = s.regs ∧
    (s.setSprint x).ldr = s.ldr ∧ (s.setSprint x).dram = s.dram ∧ (s.setSprint x).pools = s.pools ∧
    (s.setSprint x).ing = s.ing ∧ (s.setSprint x).trk = s.trk ∧ (s.setSprint x).slu = s.slu ∧
    (s.setSprint x).icu = s.icu ∧ (s.setSprint x).thy = s.thy ∧ (s.setSprint x).sage = s.sage :=
  ⟨rfl, rfl, rfl, rfl, rfl, rfl, rfl, rfl, rfl, rfl, rfl, rfl, rfl, rfl, rfl⟩

@[simp] theorem setLive_fields (s : State) (l : List Domain) :
    (s.setLive l).pending = s.pending ∧ (s.setLive l).out = s.out ∧ (s.setLive l).freeIdx = s.freeIdx ∧
    (s.setLive l).dev = s.dev ∧ (s.setLive l).fns = s.fns ∧ (s.setLive l).regs = s.regs ∧
    (s.setLive l).ldr = s.ldr ∧ (s.setLive l).dram = s.dram ∧ (s.setLive l).pools = s.pools ∧
    (s.setLive l).ing = s.ing ∧ (s.setLive l).trk = s.trk ∧ (s.setLive l).slu = s.slu ∧ (s.setLive l).icu = s.icu ∧
    (s.setLive l).thy = s.thy ∧ (s.setLive l).sage = s.sage :=
  ⟨rfl, rfl, rfl, rfl, rfl, rfl, rfl, rfl, rfl, rfl, rfl, rfl, rfl, rfl, rfl⟩

@[simp] theorem setCoolant_fields (s : State) (c : Coolant) :
    (s.setCoolant c).pending = s.pending ∧ (s.setCoolant c).out = s.out ∧ (s.setCoolant c).freeIdx = s.freeIdx ∧
    (s.setCoolant c).dev = s.dev ∧ (s.setCoolant c).fns = s.fns ∧ (s.setCoolant c).regs = s.regs ∧
    (s.setCoolant c).ldr = s.ldr ∧ (s.setCoolant c).dram = s.dram ∧ (s.setCoolant c).pools = s.pools ∧
    (s.setCoolant c).ing = s.ing ∧ (s.setCoolant c).trk = s.trk ∧ (s.setCoolant c).slu = s.slu ∧
    (s.setCoolant c).icu = s.icu ∧ (s.setCoolant c).thy = s.thy ∧ (s.setCoolant c).sage = s.sage :=
  ⟨rfl, rfl, rfl, rfl, rfl, rfl, rfl, rfl, rfl, rfl, rfl, rfl, rfl, rfl, rfl⟩

@[simp] theorem setPool_fields (s : State) (p : Pool) :
    (s.setPool p).pending = s.pending ∧ (s.setPool p).out = s.out ∧ (s.setPool p).freeIdx = s.freeIdx ∧
    (s.setPool p).dev = s.dev ∧ (s.setPool p).fns = s.fns ∧ (s.setPool p).regs = s.regs ∧
    (s.setPool p).ldr = s.ldr ∧ (s.setPool p).dram = s.dram ∧ (s.setPool p).ing = s.ing ∧
    (s.setPool p).trk = s.trk ∧ (s.setPool p).slu = s.slu ∧ (s.setPool p).weir = s.weir ∧
    (s.setPool p).icu = s.icu ∧ (s.setPool p).thy = s.thy ∧ (s.setPool p).sage = s.sage :=
  ⟨rfl, rfl, rfl, rfl, rfl, rfl, rfl, rfl, rfl, rfl, rfl, rfl, rfl, rfl, rfl⟩

@[simp] theorem setLdr_fields (s : State) (l : Loader) :
    (s.setLdr l).pending = s.pending ∧ (s.setLdr l).out = s.out ∧ (s.setLdr l).freeIdx = s.freeIdx ∧
    (s.setLdr l).dev = s.dev ∧ (s.setLdr l).fns = s.fns ∧ (s.setLdr l).regs = s.regs ∧ (s.setLdr l).dram = s.dram ∧
    (s.setLdr l).pools = s.pools ∧ (s.setLdr l).ing = s.ing ∧ (s.setLdr l).trk = s.trk ∧ (s.setLdr l).slu = s.slu ∧
    (s.setLdr l).weir = s.weir ∧ (s.setLdr l).icu = s.icu ∧ (s.setLdr l).thy = s.thy ∧ (s.setLdr l).sage = s.sage :=
  ⟨rfl, rfl, rfl, rfl, rfl, rfl, rfl, rfl, rfl, rfl, rfl, rfl, rfl, rfl, rfl⟩

@[simp] theorem setThy_fields (s : State) (y : Thyme) :
    (s.setThy y).pending = s.pending ∧ (s.setThy y).out = s.out ∧ (s.setThy y).freeIdx = s.freeIdx ∧
    (s.setThy y).dev = s.dev ∧ (s.setThy y).fns = s.fns ∧ (s.setThy y).regs = s.regs ∧ (s.setThy y).ldr = s.ldr ∧
    (s.setThy y).dram = s.dram ∧ (s.setThy y).pools = s.pools ∧ (s.setThy y).ing = s.ing ∧
    (s.setThy y).trk = s.trk ∧ (s.setThy y).slu = s.slu ∧ (s.setThy y).weir = s.weir ∧ (s.setThy y).icu = s.icu ∧
    (s.setThy y).sage = s.sage :=
  ⟨rfl, rfl, rfl, rfl, rfl, rfl, rfl, rfl, rfl, rfl, rfl, rfl, rfl, rfl, rfl⟩

@[simp] theorem setMbox_fields (s : State) (j : Option MboxJob) :
    (s.setMbox j).pending = s.pending ∧ (s.setMbox j).out = s.out ∧ (s.setMbox j).freeIdx = s.freeIdx ∧
    (s.setMbox j).dev = s.dev ∧ (s.setMbox j).fns = s.fns ∧ (s.setMbox j).regs = s.regs ∧
    (s.setMbox j).ldr = s.ldr ∧ (s.setMbox j).dram = s.dram ∧ (s.setMbox j).pools = s.pools ∧
    (s.setMbox j).ing = s.ing ∧ (s.setMbox j).trk = s.trk ∧ (s.setMbox j).slu = s.slu ∧
    (s.setMbox j).weir = s.weir ∧ (s.setMbox j).icu = s.icu ∧ (s.setMbox j).thy = s.thy :=
  ⟨rfl, rfl, rfl, rfl, rfl, rfl, rfl, rfl, rfl, rfl, rfl, rfl, rfl, rfl, rfl⟩

@[simp] theorem setFlash_fields (s : State) (f : FlashSt) :
    (s.setFlash f).pending = s.pending ∧ (s.setFlash f).out = s.out ∧ (s.setFlash f).freeIdx = s.freeIdx ∧
    (s.setFlash f).fns = s.fns ∧ (s.setFlash f).regs = s.regs ∧ (s.setFlash f).ldr = s.ldr ∧
    (s.setFlash f).dram = s.dram ∧ (s.setFlash f).pools = s.pools ∧ (s.setFlash f).ing = s.ing ∧
    (s.setFlash f).trk = s.trk ∧ (s.setFlash f).slu = s.slu ∧ (s.setFlash f).weir = s.weir ∧
    (s.setFlash f).icu = s.icu ∧ (s.setFlash f).thy = s.thy ∧ (s.setFlash f).sage = s.sage :=
  ⟨rfl, rfl, rfl, rfl, rfl, rfl, rfl, rfl, rfl, rfl, rfl, rfl, rfl, rfl, rfl⟩

@[simp] theorem setFuses_fields (s : State) (f : Fuses) :
    (s.setFuses f).pending = s.pending ∧ (s.setFuses f).out = s.out ∧ (s.setFuses f).freeIdx = s.freeIdx ∧
    (s.setFuses f).fns = s.fns ∧ (s.setFuses f).regs = s.regs ∧ (s.setFuses f).ldr = s.ldr ∧
    (s.setFuses f).dram = s.dram ∧ (s.setFuses f).pools = s.pools ∧ (s.setFuses f).ing = s.ing ∧
    (s.setFuses f).trk = s.trk ∧ (s.setFuses f).slu = s.slu ∧ (s.setFuses f).weir = s.weir ∧
    (s.setFuses f).icu = s.icu ∧ (s.setFuses f).thy = s.thy ∧ (s.setFuses f).sage = s.sage :=
  ⟨rfl, rfl, rfl, rfl, rfl, rfl, rfl, rfl, rfl, rfl, rfl, rfl, rfl, rfl, rfl⟩

@[simp] theorem setPins_fields (s : State) (p : Pins) :
    (s.setPins p).pending = s.pending ∧ (s.setPins p).out = s.out ∧ (s.setPins p).freeIdx = s.freeIdx ∧
    (s.setPins p).fns = s.fns ∧ (s.setPins p).regs = s.regs ∧ (s.setPins p).ldr = s.ldr ∧
    (s.setPins p).dram = s.dram ∧ (s.setPins p).pools = s.pools ∧ (s.setPins p).ing = s.ing ∧
    (s.setPins p).trk = s.trk ∧ (s.setPins p).slu = s.slu ∧ (s.setPins p).weir = s.weir ∧
    (s.setPins p).icu = s.icu ∧ (s.setPins p).thy = s.thy ∧ (s.setPins p).sage = s.sage :=
  ⟨rfl, rfl, rfl, rfl, rfl, rfl, rfl, rfl, rfl, rfl, rfl, rfl, rfl, rfl, rfl⟩

@[simp] theorem setDramMode_fields (s : State) (m : DramMode) :
    (s.setDramMode m).pending = s.pending ∧ (s.setDramMode m).out = s.out ∧ (s.setDramMode m).freeIdx = s.freeIdx ∧
    (s.setDramMode m).fns = s.fns ∧ (s.setDramMode m).regs = s.regs ∧ (s.setDramMode m).ldr = s.ldr ∧
    (s.setDramMode m).dram = s.dram ∧ (s.setDramMode m).pools = s.pools ∧ (s.setDramMode m).ing = s.ing ∧
    (s.setDramMode m).trk = s.trk ∧ (s.setDramMode m).slu = s.slu ∧ (s.setDramMode m).weir = s.weir ∧
    (s.setDramMode m).icu = s.icu ∧ (s.setDramMode m).thy = s.thy ∧ (s.setDramMode m).sage = s.sage :=
  ⟨rfl, rfl, rfl, rfl, rfl, rfl, rfl, rfl, rfl, rfl, rfl, rfl, rfl, rfl, rfl⟩

@[simp] theorem setLife_fields (s : State) (l : Life) :
    (s.setLife l).pending = s.pending ∧ (s.setLife l).out = s.out ∧ (s.setLife l).freeIdx = s.freeIdx ∧
    (s.setLife l).fns = s.fns ∧ (s.setLife l).regs = s.regs ∧ (s.setLife l).ldr = s.ldr ∧
    (s.setLife l).dram = s.dram ∧ (s.setLife l).pools = s.pools ∧ (s.setLife l).ing = s.ing ∧
    (s.setLife l).trk = s.trk ∧ (s.setLife l).slu = s.slu ∧ (s.setLife l).weir = s.weir ∧
    (s.setLife l).icu = s.icu ∧ (s.setLife l).thy = s.thy ∧ (s.setLife l).sage = s.sage :=
  ⟨rfl, rfl, rfl, rfl, rfl, rfl, rfl, rfl, rfl, rfl, rfl, rfl, rfl, rfl, rfl⟩

@[simp] theorem send_fields (s : State) (m : OutMsg) :
    (s.send m).pending = s.pending ∧ (s.send m).freeIdx = s.freeIdx ∧ (s.send m).dev = s.dev ∧
    (s.send m).fns = s.fns ∧ (s.send m).regs = s.regs ∧ (s.send m).ldr = s.ldr ∧ (s.send m).dram = s.dram ∧
    (s.send m).pools = s.pools ∧ (s.send m).ing = s.ing ∧ (s.send m).trk = s.trk ∧ (s.send m).slu = s.slu ∧
    (s.send m).weir = s.weir ∧ (s.send m).icu = s.icu ∧ (s.send m).thy = s.thy ∧ (s.send m).sage = s.sage :=
  ⟨rfl, rfl, rfl, rfl, rfl, rfl, rfl, rfl, rfl, rfl, rfl, rfl, rfl, rfl, rfl⟩

@[simp] theorem setHolds_fields (s : State) (c : Nat) (l : List Nat) :
    (s.setHolds c l).pending = s.pending ∧ (s.setHolds c l).out = s.out ∧ (s.setHolds c l).freeIdx = s.freeIdx ∧
    (s.setHolds c l).dev = s.dev ∧ (s.setHolds c l).fns = s.fns ∧ (s.setHolds c l).regs = s.regs ∧
    (s.setHolds c l).ldr = s.ldr ∧ (s.setHolds c l).dram = s.dram ∧ (s.setHolds c l).pools = s.pools ∧
    (s.setHolds c l).ing = s.ing ∧ (s.setHolds c l).trk = s.trk ∧ (s.setHolds c l).weir = s.weir ∧
    (s.setHolds c l).icu = s.icu ∧ (s.setHolds c l).thy = s.thy ∧ (s.setHolds c l).sage = s.sage :=
  ⟨rfl, rfl, rfl, rfl, rfl, rfl, rfl, rfl, rfl, rfl, rfl, rfl, rfl, rfl, rfl⟩

@[simp] theorem setIdleHeld_fields (s : State) (l : List Nat) :
    (s.setIdleHeld l).pending = s.pending ∧ (s.setIdleHeld l).out = s.out ∧ (s.setIdleHeld l).freeIdx = s.freeIdx ∧
    (s.setIdleHeld l).dev = s.dev ∧ (s.setIdleHeld l).fns = s.fns ∧ (s.setIdleHeld l).regs = s.regs ∧
    (s.setIdleHeld l).ldr = s.ldr ∧ (s.setIdleHeld l).dram = s.dram ∧ (s.setIdleHeld l).pools = s.pools ∧
    (s.setIdleHeld l).ing = s.ing ∧ (s.setIdleHeld l).trk = s.trk ∧ (s.setIdleHeld l).weir = s.weir ∧
    (s.setIdleHeld l).icu = s.icu ∧ (s.setIdleHeld l).thy = s.thy ∧ (s.setIdleHeld l).sage = s.sage :=
  ⟨rfl, rfl, rfl, rfl, rfl, rfl, rfl, rfl, rfl, rfl, rfl, rfl, rfl, rfl, rfl⟩

@[simp] theorem dropWindows_fields (s : State) (c k : Nat) :
    (s.dropWindows c k).pending = s.pending ∧ (s.dropWindows c k).out = s.out ∧
    (s.dropWindows c k).freeIdx = s.freeIdx ∧ (s.dropWindows c k).dev = s.dev ∧ (s.dropWindows c k).fns = s.fns ∧
    (s.dropWindows c k).regs = s.regs ∧ (s.dropWindows c k).ldr = s.ldr ∧ (s.dropWindows c k).pools = s.pools ∧
    (s.dropWindows c k).ing = s.ing ∧ (s.dropWindows c k).trk = s.trk ∧ (s.dropWindows c k).slu = s.slu ∧
    (s.dropWindows c k).weir = s.weir ∧ (s.dropWindows c k).icu = s.icu ∧ (s.dropWindows c k).thy = s.thy ∧
    (s.dropWindows c k).sage = s.sage :=
  ⟨rfl, rfl, rfl, rfl, rfl, rfl, rfl, rfl, rfl, rfl, rfl, rfl, rfl, rfl, rfl⟩

@[simp] theorem dropCtxWindows_fields (s : State) (c : Nat) :
    (s.dropCtxWindows c).pending = s.pending ∧ (s.dropCtxWindows c).out = s.out ∧
    (s.dropCtxWindows c).freeIdx = s.freeIdx ∧ (s.dropCtxWindows c).dev = s.dev ∧ (s.dropCtxWindows c).fns = s.fns ∧
    (s.dropCtxWindows c).regs = s.regs ∧ (s.dropCtxWindows c).ldr = s.ldr ∧ (s.dropCtxWindows c).pools = s.pools ∧
    (s.dropCtxWindows c).ing = s.ing ∧ (s.dropCtxWindows c).trk = s.trk ∧ (s.dropCtxWindows c).slu = s.slu ∧
    (s.dropCtxWindows c).weir = s.weir ∧ (s.dropCtxWindows c).icu = s.icu ∧ (s.dropCtxWindows c).thy = s.thy ∧
    (s.dropCtxWindows c).sage = s.sage :=
  ⟨rfl, rfl, rfl, rfl, rfl, rfl, rfl, rfl, rfl, rfl, rfl, rfl, rfl, rfl, rfl⟩

@[simp] theorem useFind_fields (s : State) (p b : Nat) :
    (s.useFind p b).pending = s.pending ∧ (s.useFind p b).out = s.out ∧ (s.useFind p b).freeIdx = s.freeIdx ∧
    (s.useFind p b).dev = s.dev ∧ (s.useFind p b).fns = s.fns ∧ (s.useFind p b).regs = s.regs ∧
    (s.useFind p b).ldr = s.ldr ∧ (s.useFind p b).pools = s.pools ∧ (s.useFind p b).ing = s.ing ∧
    (s.useFind p b).trk = s.trk ∧ (s.useFind p b).slu = s.slu ∧ (s.useFind p b).weir = s.weir ∧
    (s.useFind p b).icu = s.icu ∧ (s.useFind p b).thy = s.thy ∧ (s.useFind p b).sage = s.sage :=
  ⟨rfl, rfl, rfl, rfl, rfl, rfl, rfl, rfl, rfl, rfl, rfl, rfl, rfl, rfl, rfl⟩

@[simp] theorem keepFind_fields (s : State) (p b : Nat) (bad : Bool) :
    (s.keepFind p b bad).pending = s.pending ∧ (s.keepFind p b bad).out = s.out ∧
    (s.keepFind p b bad).freeIdx = s.freeIdx ∧ (s.keepFind p b bad).dev = s.dev ∧ (s.keepFind p b bad).fns = s.fns ∧
    (s.keepFind p b bad).regs = s.regs ∧ (s.keepFind p b bad).ldr = s.ldr ∧ (s.keepFind p b bad).pools = s.pools ∧
    (s.keepFind p b bad).ing = s.ing ∧ (s.keepFind p b bad).trk = s.trk ∧ (s.keepFind p b bad).slu = s.slu ∧
    (s.keepFind p b bad).weir = s.weir ∧ (s.keepFind p b bad).icu = s.icu ∧ (s.keepFind p b bad).thy = s.thy ∧
    (s.keepFind p b bad).sage = s.sage :=
  ⟨rfl, rfl, rfl, rfl, rfl, rfl, rfl, rfl, rfl, rfl, rfl, rfl, rfl, rfl, rfl⟩

@[simp] theorem hold_fields (s : State) (q : DramReq) :
    (s.hold q).pending = s.pending ∧ (s.hold q).out = s.out ∧ (s.hold q).freeIdx = s.freeIdx ∧
    (s.hold q).dev = s.dev ∧ (s.hold q).fns = s.fns ∧ (s.hold q).regs = s.regs ∧ (s.hold q).ldr = s.ldr ∧
    (s.hold q).pools = s.pools ∧ (s.hold q).ing = s.ing ∧ (s.hold q).trk = s.trk ∧ (s.hold q).slu = s.slu ∧
    (s.hold q).weir = s.weir ∧ (s.hold q).icu = s.icu ∧ (s.hold q).thy = s.thy ∧ (s.hold q).sage = s.sage :=
  ⟨rfl, rfl, rfl, rfl, rfl, rfl, rfl, rfl, rfl, rfl, rfl, rfl, rfl, rfl, rfl⟩

@[simp] theorem setScanPending_fields (s : State) (b : Bool) :
    (s.setScanPending b).pending = s.pending ∧ (s.setScanPending b).out = s.out ∧
    (s.setScanPending b).freeIdx = s.freeIdx ∧ (s.setScanPending b).dev = s.dev ∧ (s.setScanPending b).fns = s.fns ∧
    (s.setScanPending b).regs = s.regs ∧ (s.setScanPending b).ldr = s.ldr ∧ (s.setScanPending b).dram = s.dram ∧
    (s.setScanPending b).pools = s.pools ∧ (s.setScanPending b).trk = s.trk ∧ (s.setScanPending b).slu = s.slu ∧
    (s.setScanPending b).weir = s.weir ∧ (s.setScanPending b).icu = s.icu ∧ (s.setScanPending b).thy = s.thy ∧
    (s.setScanPending b).sage = s.sage :=
  ⟨rfl, rfl, rfl, rfl, rfl, rfl, rfl, rfl, rfl, rfl, rfl, rfl, rfl, rfl, rfl⟩

/-! ## A read after a write -/

theorem reg_setReg (s : State) (r q : Reg) (u i a b : Nat) (v : W64) :
    (s.setReg r u i v).reg q a b = if regOk r u i = true ∧ regOff q a b = regOff r u i then v else s.reg q a b := by
  unfold State.setReg
  split
  · rename_i h
    simp only [h, true_and]
    exact SMap.get_set _ _ _ _ _
  · rename_i h
    simp [h]

theorem reg_setReg_self (s : State) {r : Reg} {u i : Nat} (v : W64) (h : regOk r u i = true) :
    (s.setReg r u i v).reg r u i = v := by
  rw [reg_setReg, if_pos ⟨h, rfl⟩]

theorem reg_setReg_ne (s : State) {r q : Reg} {u i a b : Nat} (v : W64) (h : regOff q a b ≠ regOff r u i) :
    (s.setReg r u i v).reg q a b = s.reg q a b := by
  rw [reg_setReg, if_neg (fun e => h e.2)]

theorem fn_setFn (s : State) (n k : Nat) (x : FnState) :
    (s.setFn n x).fn k = if k = n then x else s.fn k := SMap.get_set _ _ _ _ _

@[simp] theorem fn_setFn_self (s : State) (n : Nat) (x : FnState) : (s.setFn n x).fn n = x := SMap.get_set_self _ _ _ _

theorem rill_setRill (s : State) (n k : Nat) (x : Rill) :
    (s.setRill n x).rill k = if k = n then x else s.rill k := SMap.get_set _ _ _ _ _

@[simp] theorem rill_setRill_self (s : State) (n : Nat) (x : Rill) : (s.setRill n x).rill n = x := SMap.get_set_self _ _ _ _

theorem engine_setEngine (s : State) (n k : Nat) (x : Engine) :
    (s.setEngine n x).engine k = if k = n then x else s.engine k := SMap.get_set _ _ _ _ _

@[simp] theorem engine_setEngine_self (s : State) (n : Nat) (x : Engine) : (s.setEngine n x).engine n = x := SMap.get_set_self _ _ _ _

theorem rillTrk_setRillTrk (s : State) (n k : Nat) (x : RillTrk) :
    (s.setRillTrk n x).rillTrk k = if k = n then x else s.rillTrk k := SMap.get_set _ _ _ _ _

@[simp] theorem rillTrk_setRillTrk_self (s : State) (n : Nat) (x : RillTrk) : (s.setRillTrk n x).rillTrk n = x := SMap.get_set_self _ _ _ _

theorem ring_setRing (s : State) (n k : Nat) (x : Ring) :
    (s.setRing n x).ring k = if k = n then x else s.ring k := SMap.get_set _ _ _ _ _

@[simp] theorem ring_setRing_self (s : State) (n : Nat) (x : Ring) : (s.setRing n x).ring n = x := SMap.get_set_self _ _ _ _

theorem ctxRun_setCtxRun (s : State) (n k : Nat) (x : CtxRun) :
    (s.setCtxRun n x).ctxRun k = if k = n then x else s.ctxRun k := SMap.get_set _ _ _ _ _

@[simp] theorem ctxRun_setCtxRun_self (s : State) (n : Nat) (x : CtxRun) : (s.setCtxRun n x).ctxRun n = x := SMap.get_set_self _ _ _ _

theorem core_setCore (s : State) (n k : Nat) (x : Core) :
    (s.setCore n x).core k = if k = n then x else s.core k := SMap.get_set _ _ _ _ _

@[simp] theorem core_setCore_self (s : State) (n : Nat) (x : Core) : (s.setCore n x).core n = x := SMap.get_set_self _ _ _ _

theorem basin_setBasin (s : State) (n k : Nat) (x : Mem) :
    (s.setBasin n x).basin k = if k = n then x else s.basin k := SMap.get_set _ _ _ _ _

@[simp] theorem basin_setBasin_self (s : State) (n : Nat) (x : Mem) : (s.setBasin n x).basin n = x := SMap.get_set_self _ _ _ _

theorem holder_setHolder (s : State) (n k : Nat) (x : Option Nat) :
    (s.setHolder n x).holder k = if k = n then x else s.holder k := SMap.get_set _ _ _ _ _

@[simp] theorem holder_setHolder_self (s : State) (n : Nat) (x : Option Nat) : (s.setHolder n x).holder n = x := SMap.get_set_self _ _ _ _

theorem dmc_setDmc (s : State) (n k : Nat) (x : Dmc) :
    (s.setDmc n x).dmc k = if k = n then x else s.dmc k := SMap.get_set _ _ _ _ _

@[simp] theorem dmc_setDmc_self (s : State) (n : Nat) (x : Dmc) : (s.setDmc n x).dmc n = x := SMap.get_set_self _ _ _ _

theorem clPwr_setClPwr (s : State) (n k : Nat) (x : ClPwr) :
    (s.setClPwr n x).clPwr k = if k = n then x else s.clPwr k := SMap.get_set _ _ _ _ _

@[simp] theorem clPwr_setClPwr_self (s : State) (n : Nat) (x : ClPwr) : (s.setClPwr n x).clPwr n = x := SMap.get_set_self _ _ _ _

theorem decCtx_setDecCtx (s : State) (n k : Nat) (x : DecCtx) :
    (s.setDecCtx n x).decCtx k = if k = n then some x else s.decCtx k := SMap.find?_insert _ _ _ _

theorem decCtx_freeDecCtx (s : State) (n k : Nat) :
    (s.freeDecCtx n).decCtx k = if k = n then none else s.decCtx k := SMap.find?_erase _ _ _

theorem cmdRun_setCmdRun (s : State) (n k : Nat) (x : CmdRun) :
    (s.setCmdRun n x).cmdRun k = if k = n then some x else s.cmdRun k := SMap.find?_insert _ _ _ _

theorem cmdRun_dropCmdRun (s : State) (n k : Nat) :
    (s.dropCmdRun n).cmdRun k = if k = n then none else s.cmdRun k := SMap.find?_erase _ _ _

/-! ## Conditions -/

@[simp] theorem when_true (s : State) (f : State → State) : s.when true f = f s := rfl

@[simp] theorem when_false (s : State) (f : State → State) : s.when false f = s := rfl

theorem when_eq (s : State) {c : Bool} (h : c = true) (f : State → State) : s.when c f = f s := by
  subst h; rfl

end Sys2Proof.Machine
end

