-- ==== Sys2Proof/Laws/RegMap.lean ====
section
/-! SUPPORT. The register map: two register instances never share a BAR0 offset (Tables 1.8 and 1.9). -/

set_option Elab.async false

namespace Sys2Proof.Machine

/-- The distance from a row's first instance to its last one. -/
def rowSpan (x : RegRow) : Nat := (x.count - 1) * x.stride + (x.count2 - 1) * x.stride2

/-- The distance between the first and the last instance of one repetition of a row. -/
def rowInner (x : RegRow) : Nat := (x.count2 - 1) * x.stride2

/-- The size of a block's unit in the register map. -/
def blockSize : Block → Nat
  | .sage => 0x80000
  | .odrov => 0x80000
  | .dec => 0x10000
  | .pxe => 0x40000
  | .ring => 32
  | .dmc => 0x400000
  | _ => 0x100000

/-- A row lies within its block, and its instances are apart. -/
def rowFits (x : RegRow) : Bool :=
  decide (0 < x.count2) && decide (x.off + rowSpan x < blockSize x.blk) &&
  (decide (x.count2 = 1) || decide (0 < x.stride2)) && (decide (x.count = 1) || decide (rowInner x < x.stride))

/-- The repetitions of `y` lie between those of `x`. -/
def rowsWoven (x y : RegRow) : Bool :=
  decide (x.stride = y.stride) && decide (x.off + rowInner x < y.off) &&
  decide (y.off + rowInner y < x.off + x.stride)

/-- Two rows have no offset in common. -/
def rowsApart (x y : RegRow) : Bool :=
  decide (x.blk ≠ y.blk) || decide (x.off + rowSpan x < y.off) || decide (y.off + rowSpan y < x.off) ||
  rowsWoven x y || rowsWoven y x

/-- Every two rows of a list have no offset in common. -/
def allApart : List RegRow → Bool
  | [] => true
  | x :: xs => rowFits x && xs.all (rowsApart x) && allApart xs

set_option maxRecDepth 20000 in
theorem allRows_apart : allApart allRows = true := by decide +kernel

/-- The offset of an instance within its block's unit. -/
def rowAt (x : RegRow) (i : Nat) : Nat := x.off + i / x.count2 * x.stride + i % x.count2 * x.stride2

theorem rowIn_some {r : Reg} {l : List RegRow} {x : RegRow} (h : rowIn r l = some x) : x ∈ l ∧ x.name = r := by
  induction l with
  | nil => simp [rowIn] at h
  | cons y l ih =>
    simp only [rowIn] at h
    split at h
    · cases h; exact ⟨List.mem_cons_self, ‹_›⟩
    · exact ⟨List.mem_cons_of_mem _ (ih h).1, (ih h).2⟩

theorem regOk_row {r : Reg} {u i : Nat} (h : regOk r u i = true) : ∃ x ∈ allRows, x.name = r ∧
    regOff r u i = blockBase x.blk u + rowAt x i ∧ u < blockUnits x.blk ∧ i < x.count * x.count2 := by
  unfold regOk at h
  split at h
  · rename_i x e
    simp only [Bool.and_eq_true, decide_eq_true_eq] at h
    refine ⟨x, (rowIn_some e).1, (rowIn_some e).2, ?_, h⟩
    unfold regOff rowAt
    rw [e]; dsimp only; omega
  · cases h

theorem allApart_fits {l : List RegRow} (h : allApart l = true) {x : RegRow} (hx : x ∈ l) : rowFits x = true := by
  induction l with
  | nil => cases hx
  | cons z l ih =>
    simp only [allApart, Bool.and_eq_true] at h
    rcases List.mem_cons.1 hx with e | m
    · exact e ▸ h.1.1
    · exact ih h.2 m

/-- A row that is in the list fits, and every two different ones are apart. -/
theorem allApart_mem {l : List RegRow} (h : allApart l = true) {x y : RegRow} (hx : x ∈ l) (hy : y ∈ l) :
    rowFits x = true ∧ (x = y ∨ rowsApart x y = true ∨ rowsApart y x = true) := by
  induction l with
  | nil => cases hx
  | cons z l ih =>
    simp only [allApart, Bool.and_eq_true, List.all_eq_true] at h
    rcases List.mem_cons.1 hx with e | mx
    · rcases List.mem_cons.1 hy with f | my
      · exact ⟨e ▸ h.1.1, .inl (e.trans f.symm)⟩
      · exact ⟨e ▸ h.1.1, .inr (.inl (e ▸ h.1.2 _ my))⟩
    · rcases List.mem_cons.1 hy with f | my
      · refine ⟨?_, .inr (.inr (f ▸ h.1.2 _ mx))⟩
        exact allApart_fits h.2 mx
      · exact ih h.2 mx my

theorem blocks_apart {b c : Block} {u v p q : Nat} (hu : u < blockUnits b) (hv : v < blockUnits c)
    (hp : p < blockSize b) (hq : q < blockSize c) (h : blockBase b u + p = blockBase c v + q) :
    b = c ∧ u = v ∧ p = q := by
  cases b <;> cases c <;> simp only [blockUnits, blockSize, blockBase] at * <;>
    first | omega | (refine ⟨trivial, ?_, ?_⟩ <;> omega)

/-- Where an instance lies in its row. -/
theorem rowAt_within {x : RegRow} {i : Nat} (hi : i < x.count * x.count2) :
    i / x.count2 ≤ x.count - 1 ∧ i % x.count2 * x.stride2 ≤ rowInner x ∧ rowAt x i ≤ x.off + rowSpan x := by
  have h0 : 0 < x.count2 := Nat.pos_of_ne_zero fun e => by simp [e] at hi
  have h1 : i / x.count2 < x.count := (Nat.div_lt_iff_lt_mul h0).2 hi
  have h2 : i % x.count2 < x.count2 := Nat.mod_lt _ h0
  have h3 : i % x.count2 * x.stride2 ≤ (x.count2 - 1) * x.stride2 := Nat.mul_le_mul_right _ (by omega)
  have h4 : i / x.count2 * x.stride ≤ (x.count - 1) * x.stride := Nat.mul_le_mul_right _ (by omega)
  refine ⟨by omega, h3, ?_⟩
  unfold rowAt rowSpan
  omega

theorem mul_add_unique {s a b c d : Nat} (hb : b < s) (hd : d < s) (h : a * s + b = c * s + d) : a = c ∧ b = d := by
  have h1 : (a * s + b) % s = b := by rw [Nat.mul_comm, Nat.mul_add_mod, Nat.mod_eq_of_lt hb]
  have h2 : (c * s + d) % s = d := by rw [Nat.mul_comm, Nat.mul_add_mod, Nat.mod_eq_of_lt hd]
  have h3 : b = d := by rw [← h1, ← h2, h]
  refine ⟨?_, h3⟩
  subst h3
  exact Nat.eq_of_mul_eq_mul_right (by omega) (Nat.add_right_cancel h)

theorem rowAt_inj {x : RegRow} (hf : rowFits x = true) {i j : Nat} (hi : i < x.count * x.count2)
    (hj : j < x.count * x.count2) (h : rowAt x i = rowAt x j) : i = j := by
  simp only [rowFits, Bool.and_eq_true, Bool.or_eq_true, decide_eq_true_eq] at hf
  obtain ⟨⟨⟨h0, -⟩, h2⟩, h3⟩ := hf
  have wi := rowAt_within hi
  have wj := rowAt_within hj
  have e : i / x.count2 * x.stride + i % x.count2 * x.stride2 = j / x.count2 * x.stride + j % x.count2 * x.stride2 := by
    unfold rowAt at h; omega
  have k : i / x.count2 = j / x.count2 ∧ i % x.count2 * x.stride2 = j % x.count2 * x.stride2 := by
    rcases h3 with h3 | h3
    · have a : i / x.count2 = 0 := Nat.le_zero.1 (by have := wi.1; rw [h3] at this; exact this)
      have b : j / x.count2 = 0 := Nat.le_zero.1 (by have := wj.1; rw [h3] at this; exact this)
      rw [a, b] at e ⊢
      exact ⟨rfl, by omega⟩
    · exact mul_add_unique (by omega) (by omega) e
  have m : i % x.count2 = j % x.count2 := by
    rcases h2 with h2 | h2
    · rw [h2, Nat.mod_one, Nat.mod_one]
    · exact Nat.eq_of_mul_eq_mul_right h2 k.2
  rw [← Nat.div_add_mod i x.count2, ← Nat.div_add_mod j x.count2, k.1, m]

theorem rowsWoven_ne {x y : RegRow} (h : rowsWoven x y = true) {i j : Nat} (hi : i < x.count * x.count2)
    (hj : j < y.count * y.count2) : rowAt x i ≠ rowAt y j := by
  simp only [rowsWoven, Bool.and_eq_true, decide_eq_true_eq] at h
  obtain ⟨⟨h0, h1⟩, h2⟩ := h
  have wi := rowAt_within hi
  have wj := rowAt_within hj
  intro e
  unfold rowAt at e
  rw [h0] at e h2
  have := mul_add_unique (s := y.stride) (a := i / x.count2) (b := i % x.count2 * x.stride2) (c := j / y.count2)
    (d := j % y.count2 * y.stride2 + (y.off - x.off)) (by omega) (by omega) (by omega)
  omega

/-- Two register instances at one offset are the same. -/
theorem regOff_inj {r q : Reg} {u v i j : Nat} (hr : regOk r u i = true) (hq : regOk q v j = true)
    (h : regOff r u i = regOff q v j) : r = q ∧ u = v ∧ i = j := by
  obtain ⟨x, mx, rfl, ex, hu, hi⟩ := regOk_row hr
  obtain ⟨y, my, rfl, ey, hv, hj⟩ := regOk_row hq
  have fx := (allApart_mem allRows_apart mx my)
  have fy := (allApart_mem allRows_apart my my).1
  have wx := (rowAt_within hi).2.2
  have wy := (rowAt_within hj).2.2
  have gx := fx.1
  have gy := fy
  simp only [rowFits, Bool.and_eq_true, decide_eq_true_eq] at gx gy
  rw [ex, ey] at h
  obtain ⟨hb, rfl, hp⟩ := blocks_apart hu hv (by omega) (by omega) h
  have apart : ∀ {x y : RegRow} {i j : Nat}, x.blk = y.blk → rowsApart x y = true → i < x.count * x.count2 →
      j < y.count * y.count2 → rowAt x i ≠ rowAt y j := by
    intro x y i j hb h hi hj
    have wx := (rowAt_within hi).2.2
    have wy := (rowAt_within hj).2.2
    have lx : x.off ≤ rowAt x i := by unfold rowAt; omega
    have ly : y.off ≤ rowAt y j := by unfold rowAt; omega
    simp only [rowsApart, Bool.or_eq_true, decide_eq_true_eq] at h
    rcases h with ((((h | h) | h) | h) | h)
    · exact absurd hb h
    · omega
    · omega
    · exact rowsWoven_ne h hi hj
    · exact fun e => rowsWoven_ne h hj hi e.symm
  rcases fx.2 with rfl | h' | h'
  · exact ⟨rfl, rfl, rowAt_inj fy hi hj hp⟩
  · exact absurd hp (apart hb h' hi hj)
  · exact absurd hp.symm (apart hb.symm h' hj hi)

theorem regOff_ne {r q : Reg} {u v i j : Nat} (hr : regOk r u i = true) (hq : regOk q v j = true)
    (h : q ≠ r ∨ v ≠ u ∨ j ≠ i) : regOff q v j ≠ regOff r u i := fun e => by
  obtain ⟨rfl, rfl, rfl⟩ := regOff_inj hq hr e
  simp at h

/-- A register of another name, unit or instance is kept by a store. -/
theorem reg_setReg_other (s : State) {r q : Reg} {u v i j : Nat} (x : W64) (hq : regOk q v j = true)
    (h : q ≠ r ∨ v ≠ u ∨ j ≠ i) : (s.setReg r u i x).reg q v j = s.reg q v j := by
  by_cases hr : regOk r u i = true
  · exact reg_setReg_ne s x (regOff_ne hr hq h)
  · unfold State.setReg; rw [if_neg hr]

/-- Registers of a row that is not among the components are kept. -/
theorem RegsKept.reg {cs : Comp → Prop} {x y : SMap W64} (h : RegsKept cs x y) {r : Reg} {u i : Nat} (h1 : ¬ cs .regs)
    (h2 : ¬ cs (.reg r)) (ok : regOk r u i = true) :
    SMap.get regDefault y (regOff r u i) = SMap.get regDefault x (regOff r u i) := by
  rcases h (regOff r u i) with a | ⟨q, v, j, c, k, e⟩ | a
  · exact absurd a h1
  · obtain ⟨rfl, -, -⟩ := regOff_inj ok k e
    exact absurd c h2
  · exact a

theorem Keeps.reg {cs : Comp → Prop} {u s : State} (h : Keeps cs u s) (r : Reg) (a i : Nat) (h1 : ¬ cs .regs)
    (h2 : ¬ cs (.reg r)) (ok : regOk r a i = true) : s.reg r a i = u.reg r a i := h.regs.reg h1 h2 ok

theorem changesOnly.reg {cs : List Comp} {s t : State} (h : changesOnly cs s t) (r : Reg) (a i : Nat)
    (h1 : .regs ∉ cs) (h2 : .reg r ∉ cs) (ok : regOk r a i = true) : t.reg r a i = s.reg r a i :=
  RegsKept.reg (cs := fun c => c ∈ cs) h.2 h1 h2 ok

end Sys2Proof.Machine
end

