-- ==== Sys2Proof/Laws/Ops.lean ====
section
/-! SUPPORT. What the shared operations do: sources, counters, the error log, sending, memory. What each leaves
unchanged follows from its lemma in Laws/KeepsOps.lean. -/

set_option Elab.async false

namespace Sys2Proof.Machine

/-- A command goes on, with the components of its own list. -/
theorem completes_of {c : Instr} {cs ds : List Comp} {s t : State} {P : State → Prop} (e : exec c s = .next t)
    (k : Keeps (fun c => c ∈ ds) s t) (m : ∀ c ∈ ds, c ∈ cs) (p : P t) : completes c cs s P :=
  ⟨t, e, k.changesOnly.mono m, p⟩

/-- A command that needs a condition, without which the state stays as it is (log 4). -/
theorem completes_if {c : Instr} {cs ds : List Comp} {s : State} {b : Bool} {f : State → State} {E : State → Prop}
    {p : Prop} [Decidable p] (hp : b = true ↔ p) (e : exec c s = .next (s.when b f))
    (k : Keeps (fun c => c ∈ ds) s (s.when b f)) (m : ∀ c ∈ ds, c ∈ cs) (h : p → E (f s)) :
    completes c cs s (fun t => if p then E t else t = s) := by
  refine completes_of e k m ?_
  split
  · rename_i x; have e := hp.2 x; subst e; exact h x
  · rename_i x
    cases b with
    | true => exact absurd (hp.1 rfl) x
    | false => rfl

/-! ## Bits -/

theorem putBit_get {n : Nat} (v : BitVec n) (i j : Nat) (b : Bool) :
    (putBit v i b).getLsbD j = if j = i ∧ j < n then b else v.getLsbD j := by
  unfold putBit
  have one : ∀ k, (1#n : BitVec n).getLsbD k = (decide (0 < n) && decide (k = 0)) := fun k => BitVec.getLsbD_one
  by_cases hn : j < n
  · cases b <;> simp only [Bool.false_eq_true, if_false, if_true] <;>
      simp only [BitVec.getLsbD_or, BitVec.getLsbD_and, BitVec.getLsbD_not, BitVec.getLsbD_shiftLeft, one, hn, and_true] <;>
      by_cases h : j = i
    · subst h; simp; omega
    · rcases Nat.lt_or_ge j i with g | g
      · simp [h, g]
      · simp [h, Nat.not_lt.2 g, show j - i ≠ 0 by omega]
    · subst h; simp; omega
    · rcases Nat.lt_or_ge j i with g | g
      · simp [h, g]
      · simp [h, Nat.not_lt.2 g, show j - i ≠ 0 by omega]
  · have hj := Nat.le_of_not_lt hn
    have e : (if j = i ∧ j < n then b else v.getLsbD j) = v.getLsbD j := if_neg (fun e => hn e.2)
    rw [e]
    cases b <;> simp [BitVec.getLsbD_of_ge v j hj, hn]

/-! ## Sources (R407) -/

/-- What a snapshot leaves: every part but Thyme, and the registers but for its own. -/
theorem snapshot_same (s : State) (c : Nat) (v : W64) :
    (s.snapshot c v).icu = s.icu ∧ (s.snapshot c v).dev = s.dev ∧ (s.snapshot c v).thy.now = s.thy.now := by
  have k : ∀ (ns : List Nat) (q : W64) (s : State), (s.snapCores q ns).icu = s.icu ∧ (s.snapCores q ns).dev = s.dev ∧
      (s.snapCores q ns).thy = s.thy := by
    intro ns q
    induction ns with
    | nil => exact fun s => ⟨rfl, rfl, rfl⟩
    | cons n ns ih =>
      intro s
      simp only [State.snapCores]
      rw [(ih _).1, (ih _).2.1, (ih _).2.2]
      split
      · exact ⟨by simp, by simp, by simp⟩
      · exact ⟨rfl, rfl, rfl⟩
  have g : ∀ (ks : List (Nat × W64)) (s : State), (s.snapSlots ks).icu = s.icu ∧ (s.snapSlots ks).dev = s.dev ∧
      (s.snapSlots ks).thy = s.thy := by
    intro ks
    induction ks with
    | nil => exact fun s => ⟨rfl, rfl, rfl⟩
    | cons x ks ih =>
      intro s
      simp only [State.snapSlots]
      rw [(ih _).1, (ih _).2.1, (ih _).2.2]
      exact ⟨by simp, by simp, by simp⟩
  unfold State.snapshot
  split
  · exact ⟨by simp, by simp, by simp⟩
  · dsimp only
    simp [k, g]

theorem sourceCause_same (s : State) (i : Nat) :
    (s.sourceCause i).icu = s.icu ∧ (s.sourceCause i).dev = s.dev ∧ (s.sourceCause i).thy.now = s.thy.now := by
  unfold State.sourceCause
  split
  · exact snapshot_same _ _ _
  · exact ⟨rfl, rfl, rfl⟩

theorem edge_icu (s : State) (i : Nat) (v : Bool) : (s.edge i v).icu = (s.edgeCore i v).1.icu := by
  unfold State.edge
  dsimp only
  split
  · exact (sourceCause_same _ _).1
  · rfl

theorem edgeCore_dev (s : State) (i : Nat) (v : Bool) : (s.edgeCore i v).1.dev = s.dev := by
  unfold State.edgeCore; split <;> try split
  all_goals rfl

theorem edge_dev (s : State) (i : Nat) (v : Bool) : (s.edge i v).dev = s.dev := by
  unfold State.edge
  dsimp only
  split
  · rw [(sourceCause_same _ _).2.1, edgeCore_dev]
  · exact edgeCore_dev _ _ _

theorem edge_now (s : State) (i : Nat) (v : Bool) : (s.edge i v).thy.now = s.thy.now := by
  have e : (s.edgeCore i v).1.thy = s.thy := by unfold State.edgeCore; split <;> try split
                                                all_goals rfl
  unfold State.edge
  dsimp only
  split
  · rw [(sourceCause_same _ _).2.2, e]
  · rw [e]

/-- The frame of a source's edge: registers but for a snapshot's. -/
theorem edge_reg (s : State) (i : Nat) (v : Bool) (r : Reg) (u k : Nat) (h : .reg r ∉ Comp.source)
    (ok : regOk r u k = true) : (s.edge i v).reg r u k = s.reg r u k :=
  (edge_keeps (cs := fun c => c ∈ Comp.source) (Keeps.refl s) i v (fun c m => by revert m; revert c; decide)).reg r u k
    (by decide) h ok

theorem raise_reg (s : State) (i : Nat) (r : Reg) (u k : Nat) (h : .reg r ∉ Comp.source) (ok : regOk r u k = true) :
    (s.raise i).reg r u k = s.reg r u k := by
  unfold State.raise; rw [edge_reg _ _ _ _ _ _ h ok, edge_reg _ _ _ _ _ _ h ok]

@[simp] theorem raise_dev (s : State) (i : Nat) : (s.raise i).dev = s.dev := by
  unfold State.raise; rw [edge_dev, edge_dev]

@[simp] theorem raise_now (s : State) (i : Nat) : (s.raise i).thy.now = s.thy.now := by
  unfold State.raise; rw [edge_now, edge_now]

/-- A pending bit that is set stays set while sources are raised. -/
theorem edge_mono {s : State} {j : Nat} (i : Nat) (v : Bool) (h : s.icu.pend.getLsbD j = true) :
    (s.edge i v).icu.pend.getLsbD j = true := by
  rw [edge_icu]
  unfold State.edgeCore
  split
  · exact h
  · split
    · exact h
    · dsimp only
      split
      · rw [putBit_get]; split
        · rfl
        · exact h
      · exact h

theorem raise_mono {s : State} {j : Nat} (i : Nat) (h : s.icu.pend.getLsbD j = true) :
    (s.raise i).icu.pend.getLsbD j = true := edge_mono i false (edge_mono i true h)

/-- The conditions after an edge, of a clocked device. -/
theorem edge_cond {s : State} (c : s.clocked = true) {i : Nat} (hi : i < 512) (v : Bool) (j : Nat) :
    (s.edge i v).icu.cond.getLsbD j = if j = i then v else s.icu.cond.getLsbD j := by
  rw [edge_icu]
  unfold State.edgeCore
  split
  · rename_i h
    have g := h.resolve_right (by simp [c])
    split
    · rename_i e; rw [e]; exact g
    · rfl
  · simp only [c, Bool.not_true, Bool.false_eq_true, if_false]
    rw [putBit_get]
    by_cases e : j = i <;> simp [e, hi]

/-- The pending bits after an edge, of a clocked device (R407). -/
theorem edge_pend {s : State} (c : s.clocked = true) {i : Nat} (hi : i < 512) (v : Bool) (j : Nat) :
    (s.edge i v).icu.pend.getLsbD j =
      if j = i ∧ s.icu.cond.getLsbD i ≠ v ∧ edgeChosen (s.srcMode i) v = true then true
      else s.icu.pend.getLsbD j := by
  rw [edge_icu]
  unfold State.edgeCore
  split
  · rename_i h
    have h := h.resolve_right (by simp [c])
    rw [if_neg (fun e => e.2.1 h)]
  · rename_i h
    have h := fun e => h (.inl e)
    simp only [c, Bool.not_true, Bool.false_eq_true, if_false]
    by_cases m : edgeChosen (s.srcMode i) v = true
    · simp only [m, if_true, and_true]
      rw [putBit_get]
      by_cases e : j = i
      · rw [if_pos ⟨e, e ▸ hi⟩, if_pos ⟨e, h⟩]
      · rw [if_neg (fun f => e f.1), if_neg (fun f => e f.1)]
    · simp [m]

theorem clocked_congr {s t : State} (h : t.dev = s.dev) : t.clocked = s.clocked := by unfold State.clocked; rw [h]

@[simp] theorem clocked_setReg (s : State) (r : Reg) (u i : Nat) (v : W64) : (s.setReg r u i v).clocked = s.clocked :=
  clocked_congr (by simp)

@[simp] theorem clocked_updReg (s : State) (r : Reg) (u i : Nat) (f : W64 → W64) :
    (s.updReg r u i f).clocked = s.clocked := clocked_setReg _ _ _ _ _

theorem edge_clocked (s : State) (i : Nat) (v : Bool) : (s.edge i v).clocked = s.clocked := by
  unfold State.clocked; rw [edge_dev]

theorem regOk_src {i : Nat} (hi : i < 512) : regOk .ICU_SRC_CFG 0 i = true := by
  have e : rowIn .ICU_SRC_CFG allRows = some _ := rfl
  unfold regOk; rw [e]; simp [blockUnits]; omega

theorem edge_srcMode (s : State) (i : Nat) (v : Bool) {j : Nat} (hj : j < 512) :
    (s.edge i v).srcMode j = s.srcMode j := by
  unfold State.srcMode State.regNat; rw [edge_reg _ _ _ _ _ _ (by decide) (regOk_src hj)]

/-- What `raised` depends on. -/
theorem raised_congr {i : Nat} {s s' t t' : State} (h : raised i s t) (h1 : s'.clocked = s.clocked)
    (h2 : s'.srcMode i = s.srcMode i) (h3 : s'.icu.cond.getLsbD i = s.icu.cond.getLsbD i)
    (h4 : t.icu.pend.getLsbD i = true → t'.icu.pend.getLsbD i = true) : raised i s' t' := by
  unfold raised at *
  rw [h1, h2, h3]
  exact fun a b c => h4 (h a b c)

theorem srcMode_congr {s t : State} {i : Nat} (h : t.reg .ICU_SRC_CFG 0 i = s.reg .ICU_SRC_CFG 0 i) :
    t.srcMode i = s.srcMode i := by unfold State.srcMode State.regNat; rw [h]

theorem srcMode_setReg (s : State) {r : Reg} (u k : Nat) (v : W64) {i : Nat} (hi : i < 512) (h : .ICU_SRC_CFG ≠ r) :
    (s.setReg r u k v).srcMode i = s.srcMode i := srcMode_congr (reg_setReg_other _ _ (regOk_src hi) (.inl h))

theorem srcMode_updReg (s : State) {r : Reg} (u k : Nat) (f : W64 → W64) {i : Nat} (hi : i < 512)
    (h : .ICU_SRC_CFG ≠ r) : (s.updReg r u k f).srcMode i = s.srcMode i := srcMode_setReg s u k _ hi h

/-- R407: raising a source sets its pending bit in every edge mode. -/
theorem raise_raised {i : Nat} (hi : i < 512) (s : State) : raised i s (s.raise i) := by
  intro c m z
  unfold State.raise
  have c1 : (s.edge i true).clocked = true := by rw [edge_clocked, c]
  rw [edge_pend c1 hi, edge_pend c hi, edge_srcMode _ _ _ hi, edge_cond c hi, z]
  have m4 : s.srcMode i < 4 := by unfold State.srcMode field; omega
  have : s.srcMode i = 1 ∨ s.srcMode i = 2 ∨ s.srcMode i = 3 := by omega
  rcases this with h | h | h <;> simp [h, edgeChosen]

/-! ## The device error log (R429) -/

theorem regOk_merge : regOk .ICU_ELOG_MERGE_MS 0 0 = true := by decide

theorem raise_log (s : State) (i : Nat) : (s.raise i).icu.log = s.icu.log ∧ (s.raise i).icu.logHead = s.icu.logHead := by
  have k := (raise_keeps (cs := fun c => c ∈ Comp.source) (Keeps.refl s) i (fun c m => by revert m; revert c; decide)).icu
  exact ⟨k.log.resolve_left (by decide), k.logHead.resolve_left (by decide)⟩

theorem elog_logged (s : State) (st : W16) (u i c f : Nat) (d : W64) : logged st u i c f d s (s.elog st u i c f d) := by
  unfold logged State.elog
  dsimp only
  cases h : s.icu.log with
  | nil => dsimp only; rw [(raise_log _ _).1, (raise_log _ _).2]; exact ⟨rfl, rfl⟩
  | cons x xs =>
    dsimp only
    split
    · exact ⟨rfl, rfl⟩
    · rw [(raise_log _ _).1, (raise_log _ _).2]; exact ⟨rfl, rfl⟩

/-- What `logged` depends on. -/
theorem logged_congr {st : W16} {u i c f : Nat} {d : W64} {s s' t t' : State} (h : logged st u i c f d s t)
    (h1 : s'.icu.log = s.icu.log) (h2 : s'.icu.logHead = s.icu.logHead) (h3 : s'.thy.now = s.thy.now)
    (h4 : s'.reg .ICU_ELOG_MERGE_MS 0 0 = s.reg .ICU_ELOG_MERGE_MS 0 0) (h5 : t'.icu.log = t.icu.log)
    (h6 : t'.icu.logHead = t.icu.logHead) : logged st u i c f d s' t' := by
  have m : ∀ x, s'.elogMerges x st u i = s.elogMerges x st u i := fun x => by
    unfold State.elogMerges State.regNat State.nowNs; rw [h3, h4]
  unfold logged at *
  rw [h1, h2, h3, h5, h6]
  cases e : s.icu.log with
  | nil => rw [e] at h; exact h
  | cons x xs => rw [e] at h; dsimp only at h ⊢; rw [m]; exact h

theorem elog_mono {s : State} {j : Nat} (st : W16) (u i c f : Nat) (d : W64) (h : s.icu.pend.getLsbD j = true) :
    (s.elog st u i c f d).icu.pend.getLsbD j = true := by
  unfold State.elog
  dsimp only
  split
  · split
    · exact h
    · exact raise_mono 6 h
  · exact raise_mono 6 h

@[simp] theorem elog_dev (s : State) (st : W16) (u i c f : Nat) (d : W64) : (s.elog st u i c f d).dev = s.dev := by
  unfold State.elog
  dsimp only
  split
  · split
    · rfl
    · rw [raise_dev]
  · rw [raise_dev]

@[simp] theorem elog_now (s : State) (st : W16) (u i c f : Nat) (d : W64) : (s.elog st u i c f d).thy.now = s.thy.now := by
  unfold State.elog
  dsimp only
  split
  · split
    · rfl
    · rw [raise_now]
  · rw [raise_now]

theorem elog_reg (s : State) (st : W16) (u i c f : Nat) (d : W64) (r : Reg) (a k : Nat) (h : .reg r ∉ Comp.source)
    (ok : regOk r a k = true) : (s.elog st u i c f d).reg r a k = s.reg r a k := by
  unfold State.elog
  dsimp only
  split
  · split
    · rfl
    · exact raise_reg _ _ _ _ _ h ok
  · exact raise_reg _ _ _ _ _ h ok

/-! ## Counters (R128) -/

theorem count_reg (s : State) (r : Reg) (u : Nat) (ok : regOk r u 0 = true) :
    (s.count r u).reg r u 0 = if s.reg r u 0 = 0xFFFFFFFF#64 then s.reg r u 0 else s.reg r u 0 + 1 :=
  reg_setReg_self s _ ok

theorem count_reg_other (s : State) {r q : Reg} {u v i : Nat} (hq : regOk q v i = true) (h : q ≠ r ∨ v ≠ u ∨ i ≠ 0) :
    (s.count r u).reg q v i = s.reg q v i := reg_setReg_other s _ hq h

theorem addTo_reg (s : State) (r : Reg) (u n : Nat) (ok : regOk r u 0 = true) :
    (s.addTo r u n).reg r u 0 = s.reg r u 0 + BitVec.ofNat 64 n := reg_setReg_self s _ ok

theorem addTo_reg_other (s : State) {r q : Reg} {u v i : Nat} (n : Nat) (hq : regOk q v i = true)
    (h : q ≠ r ∨ v ≠ u ∨ i ≠ 0) : (s.addTo r u n).reg q v i = s.reg q v i := reg_setReg_other s _ hq h

theorem updReg_reg (s : State) (r : Reg) (u i : Nat) (f : W64 → W64) (ok : regOk r u i = true) :
    (s.updReg r u i f).reg r u i = f (s.reg r u i) := reg_setReg_self s _ ok

theorem updReg_reg_other (s : State) {r q : Reg} {u v i j : Nat} (f : W64 → W64) (hq : regOk q v j = true)
    (h : q ≠ r ∨ v ≠ u ∨ j ≠ i) : (s.updReg r u i f).reg q v j = s.reg q v j := reg_setReg_other s _ hq h

/-- R430: a bit of ICU_ADVISE is set. -/
theorem advise_spec (s : State) {b : Nat} (hb : b < 64) :
    (s.advise b).icu.log = s.icu.log ∧ (s.advise b).icu.logHead = s.icu.logHead ∧
    (s.advise b).reg .ICU_ADVISE 0 0 = s.reg .ICU_ADVISE 0 0 ||| 1#64 <<< b := by
  unfold State.advise
  split
  · rename_i h
    refine ⟨rfl, rfl, ?_⟩
    apply BitVec.eq_of_getLsbD_eq
    intro i hi
    rw [BitVec.getLsbD_or]
    by_cases e : i = b
    · subst e; rw [show (s.reg .ICU_ADVISE 0 0).getLsbD i = true from h]; rfl
    · rw [BitVec.getLsbD_shiftLeft]
      rcases Nat.lt_or_ge i b with g | g
      · simp [g]
      · simp [BitVec.getLsbD_one, show i - b ≠ 0 by omega]
  · rw [(raise_log _ _).1, (raise_log _ _).2, raise_reg _ _ _ _ _ (by decide) (by decide)]
    exact ⟨rfl, rfl, updReg_reg _ _ _ _ _ (by decide)⟩

end Sys2Proof.Machine
end

