-- ==== Sys2Proof/Laws/Icu.lean ====
section
/-! SUPPORT. What a delivery of the ICU does (R394, R409). -/

set_option Elab.async false

namespace Sys2Proof.Machine

/-- What sending a message leaves, and when it is sent (R394). -/
theorem message_spec (s : State) (n v : Nat) :
    (s.message n v).icu = s.icu ∧ (s.message n v).regs = s.regs ∧ (s.message n v).dev = s.dev ∧
    s.out <+: (s.message n v).out ∧
    (∀ k, ((s.message n v).fn k).cfg = (s.fn k).cfg ∧ ((s.message n v).fn k).msix = (s.fn k).msix) ∧
    ((s.fn n).msixOn = true → (s.fn n).msixMasked v = false → OutMsg.interrupt n v true ∈ (s.message n v).out) := by
  have keep : ∀ p : List Nat, ∀ k, ((s.setFn n { s.fn n with pba := p }).fn k).cfg = (s.fn k).cfg ∧
      ((s.setFn n { s.fn n with pba := p }).fn k).msix = (s.fn k).msix := fun p k => by
    rw [fn_setFn]
    split
    · rename_i e; rw [e]; exact ⟨rfl, rfl⟩
    · exact ⟨rfl, rfl⟩
  unfold State.message
  dsimp only
  by_cases a : (s.fn n).msixOn = true
  · rw [if_pos a]
    by_cases b : (s.fn n).msixMasked v = true
    · rw [if_pos b]
      exact ⟨rfl, rfl, rfl, List.prefix_refl _, keep _, fun _ c => by rw [b] at c; cases c⟩
    · rw [if_neg b]
      exact ⟨rfl, rfl, rfl, List.prefix_append _ _, fun _ => ⟨rfl, rfl⟩, fun _ _ => by simp [State.send]⟩
  · rw [if_neg a]
    split
    · exact ⟨rfl, rfl, rfl, List.prefix_refl _, keep _, fun c => absurd c a⟩
    · exact ⟨rfl, rfl, rfl, List.prefix_append _ _, fun _ => ⟨rfl, rfl⟩, fun c => absurd c a⟩

/-- One handover (R409). -/
theorem handOver_spec (s : State) {i : Nat} (hi : i < 512) :
    (s.handOver i).regs = s.regs ∧ (s.handOver i).dev = s.dev ∧ s.out <+: (s.handOver i).out ∧
    (s.handOver i).icu.timers = s.icu.timers ∧
    (∀ k, ((s.handOver i).fn k).cfg = (s.fn k).cfg ∧ ((s.handOver i).fn k).msix = (s.fn k).msix) ∧
    ((s.fn (s.srcFn i)).msixOn = true → (s.fn (s.srcFn i)).msixMasked (s.srcVec i) = false →
      OutMsg.interrupt (s.srcFn i) (s.srcVec i) true ∈ (s.handOver i).out) ∧
    (∀ j, (s.handOver i).icu.delivered.getLsbD j = if j = i ∧ s.srcMode i = 0 then true else s.icu.delivered.getLsbD j) ∧
    (∀ j, (s.handOver i).icu.pend.getLsbD j = if j = i ∧ s.srcMode i ≠ 0 then false else s.icu.pend.getLsbD j) := by
  obtain ⟨h1, h2, h3, h4, h5, h6⟩ := message_spec s (s.srcFn i) (s.srcVec i)
  unfold State.handOver
  dsimp only
  split
  · rename_i z
    refine ⟨h2, h3, h4, by dsimp only; rw [h1], h5, h6, fun j => ?_, fun j => ?_⟩
    · dsimp only; rw [putBit_get, h1]; by_cases e : j = i <;> simp [e, hi, z]
    · dsimp only; rw [h1]; simp [z]
  · rename_i z
    refine ⟨h2, h3, h4, by dsimp only; rw [h1], h5, h6, fun j => ?_, fun j => ?_⟩
    · dsimp only; rw [h1]; simp [z]
    · dsimp only; rw [putBit_get, h1]
      by_cases e : j = i
      · rw [if_pos ⟨e, e ▸ hi⟩, if_pos ⟨e, z⟩]
      · rw [if_neg (fun f => e f.1), if_neg (fun f => e f.1)]

/-- The handovers of a delivery (R409). -/
theorem handOverAll_spec (is : List Nat) (s : State) (hi : ∀ i ∈ is, i < 512) :
    (s.handOverAll is).regs = s.regs ∧ (s.handOverAll is).dev = s.dev ∧ s.out <+: (s.handOverAll is).out ∧
    (s.handOverAll is).icu.timers = s.icu.timers ∧
    (∀ i ∈ is, (s.fn (s.srcFn i)).msixOn = true → (s.fn (s.srcFn i)).msixMasked (s.srcVec i) = false →
      OutMsg.interrupt (s.srcFn i) (s.srcVec i) true ∈ (s.handOverAll is).out) ∧
    (∀ j, (s.handOverAll is).icu.delivered.getLsbD j =
      if j ∈ is ∧ s.srcMode j = 0 then true else s.icu.delivered.getLsbD j) ∧
    (∀ j, (s.handOverAll is).icu.pend.getLsbD j =
      if j ∈ is ∧ s.srcMode j ≠ 0 then false else s.icu.pend.getLsbD j) := by
  induction is generalizing s with
  | nil => exact ⟨rfl, rfl, List.prefix_refl _, rfl, by simp, by simp [State.handOverAll], by simp [State.handOverAll]⟩
  | cons i is ih =>
    obtain ⟨a1, a2, a3, a4, a5, a6, a7, a8⟩ := handOver_spec s (hi i List.mem_cons_self)
    obtain ⟨b1, b2, b3, b4, b6, b7, b8⟩ := ih (s.handOver i) (fun j m => hi j (List.mem_cons_of_mem _ m))
    have md : ∀ j, (s.handOver i).srcMode j = s.srcMode j := fun j => by
      unfold State.srcMode State.regNat State.reg; rw [a1]
    have fnE : ∀ j, (s.handOver i).srcFn j = s.srcFn j := fun j => by
      unfold State.srcFn State.regNat State.reg; rw [a1]
    have vcE : ∀ j, (s.handOver i).srcVec j = s.srcVec j := fun j => by
      unfold State.srcVec; rw [fnE]; unfold State.regNat State.reg; rw [a1]
    have on : ∀ k, ((s.handOver i).fn k).msixOn = (s.fn k).msixOn := fun k => by
      unfold FnState.msixOn FnState.cfgRd; rw [(a5 k).1]
    have mk : ∀ k v, ((s.handOver i).fn k).msixMasked v = (s.fn k).msixMasked v := fun k v => by
      unfold FnState.msixMasked FnState.msixMaskAll FnState.msixWord FnState.cfgRd; rw [(a5 k).1, (a5 k).2]
    unfold State.handOverAll
    refine ⟨b1.trans a1, b2.trans a2, a3.trans b3, b4.trans a4, ?_, ?_, ?_⟩
    · intro j m
      rcases List.mem_cons.1 m with rfl | m
      · exact fun x y => b3.subset (a6 x y)
      · have := b6 j m
        rw [fnE, vcE, on, mk] at this
        exact this
    · intro j
      rw [b7, md, a7]
      by_cases e : j = i
      · subst e; by_cases z : s.srcMode j = 0 <;> simp [z]
      · simp [e]
    · intro j
      rw [b8, md, a8]
      by_cases e : j = i
      · subst e; by_cases z : s.srcMode j = 0 <;> simp [z]
      · simp [e]

end Sys2Proof.Machine
end

