-- ==== Sys2Proof/Laws/Pools.lean ====
section
/-! SUPPORT. Blocks of DRAM and their poison (R325, R326), controllers, and pools by number (R342). -/

set_option Elab.async false

namespace Sys2Proof.Machine

theorem poisoned_setPoison (s : State) (b c : Nat) (v : Bool) :
    (s.setPoison b v).poisoned c = if c = b then v else s.poisoned c := SMap.get_set _ _ _ _ _

theorem dramByte_write (s : State) (a : Nat) (bs : List Byte) {i : Nat} (h : i < bs.length) :
    (s.setDramBytes (Mem.writeList s.dram.bytes a bs)).dramByte (a + i) = bs[i] := Mem.read_writeList _ _ _ h

theorem dramByte_write_ne (s : State) (a : Nat) (bs : List Byte) {b : Nat} (h : b < a ∨ a + bs.length ≤ b) :
    (s.setDramBytes (Mem.writeList s.dram.bytes a bs)).dramByte b = s.dramByte b := Mem.read_writeList_ne _ _ _ h

/-- A pool is the one stored under its number, where there is one. -/
theorem pool_setPool (s : State) (x : Pool) (n : Nat) :
    (s.setPool x).pool n = if x.id = n then (s.pool n).map (fun _ => x) else s.pool n := by
  unfold State.setPool State.pool
  dsimp only
  generalize s.pools = l
  unfold updWhere
  induction l with
  | nil => split <;> rfl
  | cons y l ih =>
    rw [List.map_cons, List.find?_cons, List.find?_cons, ih]
    by_cases h : y.id = x.id
    · by_cases g : x.id = n
      · simp [h, g]
      · simp [h, g]
    · by_cases g : x.id = n
      · subst g; simp [h]
      · simp [h, g]

theorem pool_id {s : State} {n : Nat} {p : Pool} (h : s.pool n = some p) : p.id = n := by
  unfold State.pool at h
  simpa using List.find?_some h

/-- An update of a pool that keeps its number. -/
theorem pool_update {s : State} {n : Nat} {p : Pool} (h : s.pool n = some p) {x : Pool} (e : x.id = p.id) :
    (s.setPool x).pool n = some x := by
  rw [pool_setPool, if_pos (e.trans (pool_id h)), h]; rfl

theorem regOk_dmc1 : ∀ {d : Nat}, d < 2 → regOk .DMC_CNT_WR d 0 = true ∧ regOk .DMC_CNT_RD d 0 = true ∧
    regOk .DMC_RECAL_STATUS d 0 = true ∧ regOk .DMC_TEMP_CAL d 0 = true ∧ regOk .DMC_TEMP d 0 = true ∧
    regOk .DMC_STATUS d 0 = true ∧ regOk .DMC_DRIFT_C d 0 = true ∧ ∀ w < 5, regOk .DMC_TRAIN_PASS d w = true := by
  decide +kernel

theorem tower_lt {p : Part} {d : Nat} (h : towerPresent p d = true) : d < 2 := by
  unfold towerPresent at h
  simp only [Bool.and_eq_true, decide_eq_true_eq] at h
  exact h.1

theorem raise_dram (s : State) (i : Nat) : (s.raise i).dram = s.dram := by
  have k := (raise_keeps (cs := fun c => c ∈ Comp.source) (Keeps.refl s) i (by unfold Within; decide)).dram
  have h1 := k.bytes.resolve_left (by decide)
  have h2 := k.poison.resolve_left (by decide)
  have h3 := k.frameMap.resolve_left (by decide)
  have h4 := k.windows.resolve_left (by decide)
  have h5 := k.dmcs.resolve_left (by decide)
  have h6 := k.finds.resolve_left (by decide)
  have h7 := k.held.resolve_left (by decide)
  cases h : (s.raise i).dram
  cases g : s.dram
  simp_all

theorem elog_dram (s : State) (st : W16) (u i c f : Nat) (d : W64) : (s.elog st u i c f d).dram = s.dram := by
  unfold State.elog
  dsimp only
  split
  · split
    · rfl
    · rw [raise_dram]
  · rw [raise_dram]

theorem adviseGroup_mem (s : State) (l : BlockLoc) : (s.adviseGroup l).dram.bytes = s.dram.bytes ∧
    (s.adviseGroup l).dram.poison = s.dram.poison ∧ (s.adviseGroup l).icu.log = s.icu.log ∧
    (s.adviseGroup l).icu.logHead = s.icu.logHead := by
  have k := adviseGroup_keeps (cs := fun c => c ∈ adviseChanChanges) (Keeps.refl s) l (Within.mem _)
  exact ⟨k.dram.bytes.resolve_left (by decide), k.dram.poison.resolve_left (by decide),
    k.icu.log.resolve_left (by decide), k.icu.logHead.resolve_left (by decide)⟩

theorem dmcLog_mem (s : State) (l : BlockLoc) (k p : Nat) :
    (s.dmcLog l k p).dram.bytes = s.dram.bytes ∧ (s.dmcLog l k p).dram.poison = s.dram.poison := by
  unfold State.dmcLog
  dsimp only
  rw [elog_dram]
  exact ⟨rfl, rfl⟩

/-- The memory after a block read: only a mismatch that the re-read does not clear changes it (R325). -/
theorem blockRead_mem (s : State) (port b : Nat) (f : ReadFound) (second : List Byte) (p : Bool) :
    (s.blockRead port b f second p).dram.bytes =
      (if f = .poisonedNow then Mem.writeList s.dram.bytes (b * 64) (second.take 64) else s.dram.bytes) ∧
    (s.blockRead port b f second p).dram.poison =
      (if f = .poisonedNow then SMap.set (fun _ => false) s.dram.poison b true else s.dram.poison) := by
  have c : ∀ (s : State) (l : BlockLoc) (a b : Nat), (s.chErr l a b).dram = s.dram := fun s l a b => by
    simp [State.chErr]
  unfold State.blockRead
  dsimp only
  cases f with
  | good => simp [State.addTo]
  | cleared => simp [adviseGroup_mem, dmcLog_mem, c]
  | poisonedNow =>
    simp [adviseGroup_mem, dmcLog_mem, c, State.setPoison, State.setDramBytes]
  | poisonedBefore => cases p <;> simp [State.poisonSeen, adviseGroup_mem, dmcLog_mem, c]

end Sys2Proof.Machine
end

