-- ==== Sys2Proof/Laws/Thyme.lean ====
section
/-! SUPPORT. What a snapshot takes (R423 to R426), and how a valid frame moves the lock state (R421). -/

set_option Elab.async false

namespace Sys2Proof.Machine

theorem regOk_snapUpd : ∀ {n : Nat}, n < 32 → regOk .TC_SNAP_UPDATES n 0 = true := by decide +kernel
theorem regOk_snapSeq : ∀ {n : Nat}, n < 32 → regOk .TC_SNAP_SEQ n 0 = true := by decide +kernel
theorem regOk_upd : ∀ {n : Nat}, n < 32 → regOk .TC_CNT_UPDATES n 0 = true := by decide +kernel
theorem regOk_snapVal : ∀ {k : Nat}, k < 64 → regOk .THYME_SNAP_VAL 0 k = true := by decide +kernel

theorem snapCores_other (q : W64) (ns : List Nat) (s : State) {r : Reg} {u i : Nat} (ok : regOk r u i = true)
    (h : r ≠ .TC_SNAP_UPDATES ∧ r ≠ .TC_SNAP_SEQ) : (s.snapCores q ns).reg r u i = s.reg r u i := by
  induction ns generalizing s with
  | nil => rfl
  | cons n ns ih =>
    simp only [State.snapCores]
    rw [ih]
    split
    · rw [reg_setReg_other _ _ ok (.inl h.2), reg_setReg_other _ _ ok (.inl h.1)]
    · rfl

theorem snapCores_dev (q : W64) (ns : List Nat) (s : State) : (s.snapCores q ns).dev = s.dev := by
  induction ns generalizing s with
  | nil => rfl
  | cons n ns ih => simp only [State.snapCores]; rw [ih]; split <;> simp

theorem snapCores_thy (q : W64) (ns : List Nat) (s : State) : (s.snapCores q ns).thy = s.thy := by
  induction ns generalizing s with
  | nil => rfl
  | cons n ns ih => simp only [State.snapCores]; rw [ih]; split <;> simp

theorem snapCores_reg (q : W64) (ns : List Nat) (s : State) {n : Nat} (hn : n < 32)
    (hp : corePresent s.dev.part n = true) :
    (n ∈ ns → (s.snapCores q ns).reg .TC_SNAP_UPDATES n 0 = s.reg .TC_CNT_UPDATES n 0 ∧
      (s.snapCores q ns).reg .TC_SNAP_SEQ n 0 = q) ∧
    (n ∉ ns → (s.snapCores q ns).reg .TC_SNAP_UPDATES n 0 = s.reg .TC_SNAP_UPDATES n 0 ∧
      (s.snapCores q ns).reg .TC_SNAP_SEQ n 0 = s.reg .TC_SNAP_SEQ n 0) := by
  induction ns generalizing s with
  | nil => exact ⟨(fun h => absurd h (List.not_mem_nil)), fun _ => ⟨rfl, rfl⟩⟩
  | cons m ns ih =>
    simp only [State.snapCores]
    generalize hs1 : (if corePresent s.dev.part m = true then
      (s.setReg .TC_SNAP_UPDATES m 0 (s.reg .TC_CNT_UPDATES m 0)).setReg .TC_SNAP_SEQ m 0 q else s) = s1
    have hd : s1.dev = s.dev := by rw [← hs1]; split <;> simp
    have ih1 := ih s1 (by rw [hd]; exact hp)
    have hc : s1.reg .TC_CNT_UPDATES n 0 = s.reg .TC_CNT_UPDATES n 0 := by
      rw [← hs1]; split
      · rw [reg_setReg_other _ _ (regOk_upd hn) (.inl (by decide)), reg_setReg_other _ _ (regOk_upd hn) (.inl (by decide))]
      · rfl
    have own : n = m → s1.reg .TC_SNAP_UPDATES n 0 = s.reg .TC_CNT_UPDATES n 0 ∧ s1.reg .TC_SNAP_SEQ n 0 = q := by
      rintro rfl
      rw [← hs1, if_pos hp]
      exact ⟨by rw [reg_setReg_other _ _ (regOk_snapUpd hn) (.inl (by decide)), reg_setReg_self _ _ (regOk_snapUpd hn)],
        reg_setReg_self _ _ (regOk_snapSeq hn)⟩
    have others : n ≠ m → s1.reg .TC_SNAP_UPDATES n 0 = s.reg .TC_SNAP_UPDATES n 0 ∧
        s1.reg .TC_SNAP_SEQ n 0 = s.reg .TC_SNAP_SEQ n 0 := by
      intro h
      rw [← hs1]; split
      · rw [reg_setReg_other _ _ (regOk_snapUpd hn) (.inl (by decide)),
          reg_setReg_other _ _ (regOk_snapUpd hn) (.inr (.inl h)),
          reg_setReg_other _ _ (regOk_snapSeq hn) (.inr (.inl h)),
          reg_setReg_other _ _ (regOk_snapSeq hn) (.inl (by decide))]
        exact ⟨rfl, rfl⟩
      · exact ⟨rfl, rfl⟩
    by_cases mem : n ∈ ns
    · refine ⟨fun _ => ?_, fun h => absurd (List.mem_cons_of_mem _ mem) h⟩
      rw [← hc]; exact ih1.1 mem
    · rw [(ih1.2 mem).1, (ih1.2 mem).2]
      refine ⟨fun h => ?_, fun h => ?_⟩
      · rcases List.mem_cons.1 h with e | h
        · exact own e
        · exact absurd h mem
      · exact others (fun e => h (e ▸ List.mem_cons_self))

theorem snapSlots_other (ks : List (Nat × W64)) (s : State) {r : Reg} {u i : Nat} (ok : regOk r u i = true)
    (h : r ≠ .THYME_SNAP_VAL ∨ ∀ x ∈ ks, x.1 ≠ i) : (s.snapSlots ks).reg r u i = s.reg r u i := by
  induction ks generalizing s with
  | nil => rfl
  | cons x ks ih =>
    obtain ⟨k, v⟩ := x
    simp only [State.snapSlots]
    rw [ih]
    · rcases h with h | h
      · exact reg_setReg_other _ _ ok (.inl h)
      · exact reg_setReg_other _ _ ok (.inr (.inr (h _ List.mem_cons_self).symm))
    · exact h.imp id fun h y m => h y (List.mem_cons_of_mem _ m)

theorem snapSlots_thy (ks : List (Nat × W64)) (s : State) : (s.snapSlots ks).thy = s.thy := by
  induction ks generalizing s with
  | nil => rfl
  | cons x ks ih => simp only [State.snapSlots]; rw [ih]; simp

theorem snapSlots_reg (f : Nat → W64) (n : Nat) (hn : n ≤ 64) (s : State) {k : Nat} (hk : k < n) (a : Nat)
    (ha : a ≤ k) : (s.snapSlots ((List.range' a (n - a)).map (fun k => (k, f k)))).reg .THYME_SNAP_VAL 0 k = f k := by
  obtain ⟨d, rfl⟩ : ∃ d, n = a + d := ⟨n - a, by omega⟩
  rw [Nat.add_sub_cancel_left]
  induction d generalizing a s with
  | zero => omega
  | succ d ih =>
    rw [List.range'_succ, List.map_cons]
    simp only [State.snapSlots]
    rcases Nat.lt_or_ge a k with h | h
    · exact ih _ (a + 1) h (by omega) (by omega)
    · have : a = k := by omega
      subst this
      rw [snapSlots_other _ _ (regOk_snapVal (by omega)), reg_setReg_self _ _ (regOk_snapVal (by omega))]
      refine .inr fun x m => ?_
      simp only [List.mem_map, List.mem_range'] at m
      obtain ⟨_, ⟨_, _, rfl⟩, rfl⟩ := m
      dsimp only; omega

/-- The registers after a snapshot has been taken. -/
theorem snapshot_reg (s : State) (c : Nat) (v : W64) (b : ¬ s.thy.snapBusy = true) (r : Reg) (u i : Nat) :
    (s.snapshot c v).reg r u i =
      ((((s.snapCores ((s.reg .THYME_SNAP_SEQ 0 0 + 1) &&& 0xFFFFFFFF#64) (List.range 32)).snapSlots
        ((List.range 64).map (fun k => (k, s.snapVal k)))).setReg .THYME_SNAP_SEQ 0 0
          ((s.reg .THYME_SNAP_SEQ 0 0 + 1) &&& 0xFFFFFFFF#64)).setReg .THYME_SNAP_TIME 0 0 v).reg r u i := by
  unfold State.snapshot
  rw [if_neg b]
  unfold State.reg
  dsimp only

/-- R423 to R426: what a cause takes. -/
theorem snapshot_taken (s : State) (c : Nat) (v : W64) : snapTaken c v s (s.snapshot c v) := by
  unfold snapTaken
  by_cases b : s.thy.snapBusy = true
  · have e : s.snapshot c v = s.count .THYME_CNT_SNAPDROP 0 := by unfold State.snapshot; rw [if_pos b]
    rw [if_pos b, e]
    exact ⟨count_reg _ _ _ (by decide), by simp, count_reg_other _ (by decide) (.inl (by decide)),
      count_reg_other _ (by decide) (.inl (by decide))⟩
  · rw [if_neg b]
    have h1 : (s.snapshot c v).thy.snapBusy = true ∧ (s.snapshot c v).thy.snapCause = c := by
      unfold State.snapshot; rw [if_neg b]; exact ⟨rfl, rfl⟩
    refine ⟨h1.1, h1.2, ?_, ?_, fun n hn hp => ⟨?_, ?_⟩⟩
    · rw [snapshot_reg _ _ _ b, reg_setReg_self _ _ (by decide)]
    · rw [snapshot_reg _ _ _ b, reg_setReg_other _ _ (by decide) (.inl (by decide)), reg_setReg_self _ _ (by decide)]
    · rw [snapshot_reg _ _ _ b, reg_setReg_other _ _ (regOk_snapUpd hn) (.inl (by decide)),
        reg_setReg_other _ _ (regOk_snapUpd hn) (.inl (by decide)),
        snapSlots_other _ _ (regOk_snapUpd hn) (.inl (by decide))]
      exact ((snapCores_reg _ _ s hn hp).1 (List.mem_range.2 hn)).1
    · rw [snapshot_reg _ _ _ b, reg_setReg_other _ _ (regOk_snapSeq hn) (.inl (by decide)),
        reg_setReg_other _ _ (regOk_snapSeq hn) (.inl (by decide)),
        snapSlots_other _ _ (regOk_snapSeq hn) (.inl (by decide))]
      exact ((snapCores_reg _ _ s hn hp).1 (List.mem_range.2 hn)).2

/-- R425: what a slot latches. -/
theorem snapshot_val (s : State) (c : Nat) (v : W64) (b : s.thy.snapBusy = false) {k : Nat} (hk : k < 64) :
    (s.snapshot c v).reg .THYME_SNAP_VAL 0 k = s.snapVal k := by
  rw [snapshot_reg _ _ _ (by rw [b]; decide), reg_setReg_other _ _ (regOk_snapVal hk) (.inl (by decide)),
    reg_setReg_other _ _ (regOk_snapVal hk) (.inl (by decide)), List.range_eq_range']
  exact snapSlots_reg s.snapVal 64 (Nat.le_refl _) _ hk 0 (Nat.zero_le _)

end Sys2Proof.Machine
end

