-- ==== Sys2Proof/Laws/Weir.lean ====
section
/-! SUPPORT. Weir's shared operations: the rail, the points of a list of clusters, the end of a sprint (R352, R369). -/

set_option Elab.async false

namespace Sys2Proof.Machine

/-- What a change of points leaves of a cluster: all but its point and what it wants. -/
def ClPwr.likeLimits (a b : ClPwr) : Prop :=
  a.thermPt = b.thermPt ∧ a.temp = b.temp ∧ a.stopped = b.stopped ∧ a.stretched = b.stretched ∧
    a.engaged = b.engaged ∧ a.capPt = b.capPt

theorem ClPwr.likeLimits_refl (a : ClPwr) : a.likeLimits a := ⟨rfl, rfl, rfl, rfl, rfl, rfl⟩

theorem ClPwr.likeLimits_trans {a b c : ClPwr} (h : a.likeLimits b) (g : b.likeLimits c) : a.likeLimits c :=
  ⟨h.1.trans g.1, h.2.1.trans g.2.1, h.2.2.1.trans g.2.2.1, h.2.2.2.1.trans g.2.2.2.1,
    h.2.2.2.2.1.trans g.2.2.2.2.1, h.2.2.2.2.2.trans g.2.2.2.2.2⟩

@[simp] theorem setRail_clPwr (s : State) (v : Int) (n : Nat) : (s.setRail v).clPwr n = s.clPwr n := rfl
@[simp] theorem setRail_regs (s : State) (v : Int) : (s.setRail v).regs = s.regs := rfl
@[simp] theorem setRail_icu (s : State) (v : Int) : (s.setRail v).icu = s.icu := rfl

theorem settleRail_spec (s : State) : (s.settleRail).weir.cls = s.weir.cls ∧ s.settleRail.regs = s.regs ∧
    s.settleRail.icu = s.icu ∧ s.settleRail.weir.sprint = s.weir.sprint ∧ s.settleRail.thy = s.thy ∧
    s.settleRail.dev.life = s.dev.life := by
  unfold State.settleRail
  split <;> exact ⟨rfl, rfl, rfl, rfl, rfl, rfl⟩

theorem settleRail_duty (s : State) : s.settleRail.weir.duty = s.weir.duty := by
  unfold State.settleRail
  split <;> rfl

theorem clPwr_congr {s t : State} (h : t.weir.cls = s.weir.cls) (n : Nat) : t.clPwr n = s.clPwr n := by
  unfold State.clPwr; rw [h]

/-- Repointing changes a cluster's point and what it wants, and no other cluster. -/
theorem repoint_clPwr (s : State) (n m : Nat) :
    ((s.repoint n).clPwr m).likeLimits (s.clPwr m) ∧ (m ≠ n → (s.repoint n).clPwr m = s.clPwr m) := by
  unfold State.repoint
  dsimp only
  split
  · exact ⟨ClPwr.likeLimits_refl _, fun _ => rfl⟩
  · rw [clPwr_congr (settleRail_spec _).1, clPwr_setClPwr]
    split
    · subst_vars
      refine ⟨?_, fun h => absurd rfl h⟩
      split <;> exact ClPwr.likeLimits_refl _
    · exact ⟨ClPwr.likeLimits_refl _, fun _ => rfl⟩

theorem repoint_same (s : State) (n : Nat) : (s.repoint n).regs = s.regs ∧ (s.repoint n).icu = s.icu ∧
    (s.repoint n).weir.sprint = s.weir.sprint ∧ (s.repoint n).weir.duty = s.weir.duty := by
  unfold State.repoint
  dsimp only
  split
  · exact ⟨rfl, rfl, rfl, rfl⟩
  · obtain ⟨-, h1, h2, h3, -⟩ := settleRail_spec (s.setClPwr n _)
    exact ⟨h1, h2, h3, settleRail_duty _⟩

theorem repointAll_spec (s : State) (ns : List Nat) : (s.repointAll ns).regs = s.regs ∧ (s.repointAll ns).icu = s.icu ∧
    (s.repointAll ns).weir.sprint = s.weir.sprint ∧ (s.repointAll ns).weir.duty = s.weir.duty ∧
    ∀ m, ((s.repointAll ns).clPwr m).likeLimits (s.clPwr m) := by
  induction ns generalizing s with
  | nil => exact ⟨rfl, rfl, rfl, rfl, fun _ => ClPwr.likeLimits_refl _⟩
  | cons n ns ih =>
    have h := repoint_same s n
    have g := ih (s.repoint n)
    exact ⟨g.1.trans h.1, g.2.1.trans h.2.1, g.2.2.1.trans h.2.2.1, g.2.2.2.1.trans h.2.2.2,
      fun m => ClPwr.likeLimits_trans (g.2.2.2.2 m) (repoint_clPwr s n m).1⟩

/-- Leaving sprint: every cluster listed comes to point 5 or lower (R369). -/
theorem leaveSprint_spec (s : State) (ns : List Nat) : (s.leaveSprint ns).regs = s.regs ∧
    (s.leaveSprint ns).icu = s.icu ∧ (s.leaveSprint ns).dev = s.dev ∧ (s.leaveSprint ns).thy = s.thy ∧
    (s.leaveSprint ns).weir.sprint = s.weir.sprint ∧ (s.leaveSprint ns).weir.duty = s.weir.duty ∧
    (∀ m, ((s.leaveSprint ns).clPwr m).likeLimits (s.clPwr m)) ∧
    (∀ m, (m ∈ ns ∨ (s.clPwr m).point ≤ 5) → ((s.leaveSprint ns).clPwr m).point ≤ 5) := by
  induction ns generalizing s with
  | nil => exact ⟨rfl, rfl, rfl, rfl, rfl, rfl, fun _ => ClPwr.likeLimits_refl _, fun m h => h.resolve_left (by simp)⟩
  | cons n ns ih =>
    simp only [State.leaveSprint]
    generalize hx : ({ s.clPwr n with
        point := if 6 ≤ (s.clPwr n).point then min 5 (s.effectivePoint n) else (s.clPwr n).point,
        want := match (s.clPwr n).want with
          | some q => if 6 ≤ q then none else some q
          | none => none } : ClPwr) = x
    have hl : x.likeLimits (s.clPwr n) := by rw [← hx]; exact ClPwr.likeLimits_refl _
    have hp : x.point ≤ 5 := by rw [← hx]; dsimp only; split <;> omega
    obtain ⟨g1, g2, g3, g4, g5, g6, g7, g8⟩ := ih (s.setClPwr n x)
    refine ⟨g1, g2, g3, g4, g5, g6, fun m => ?_, fun m h => g8 m ?_⟩
    · refine ClPwr.likeLimits_trans (g7 m) ?_
      rw [clPwr_setClPwr]
      split
      · subst_vars; exact hl
      · exact ClPwr.likeLimits_refl _
    · rw [clPwr_setClPwr]
      by_cases e : m = n
      · right; rw [if_pos e]; exact hp
      · rw [if_neg e]
        rcases h with h | h
        · exact .inl ((List.mem_cons.1 h).resolve_left e)
        · exact .inr h

/-- The end of a sprint (R366 to R370): it is off, its status is reported, the power source is raised, and no cluster of
the four is at a sprint point. -/
theorem sprintEnd_spec (s : State) (st : W16) (d : Nat) :
    (s.sprintEnd st d).weir.sprint.on = false ∧ (s.sprintEnd st d).weir.sprint.bins = s.weir.sprint.bins ∧
    (s.sprintEnd st d).weir.duty = s.weir.duty ∧ (s.sprintEnd st d).dev.life = s.dev.life ∧
    (s.weir.sprint.on = false → s.sprintEnd st d = s) ∧
    (s.weir.sprint.on = true → (s.sprintEnd st d).reg .WEIR_STATUS 0 0 = st.setWidth 64 ∧
      raised 3 s (s.sprintEnd st d) ∧ ∀ n < 4, ((s.sprintEnd st d).clPwr n).point ≤ 5) ∧
    (∀ m, ((s.sprintEnd st d).clPwr m).likeLimits (s.clPwr m)) := by
  unfold State.sprintEnd
  cases on : s.weir.sprint.on with
  | false => exact ⟨by simp [on], by simp, by simp, by simp, fun _ => rfl, fun h => by simp at h,
      fun m => ClPwr.likeLimits_refl _⟩
  | true =>
    simp only [when_true]
    generalize hs1 : s.setSprint { s.weir.sprint with on := false, budgetNj := 0, endedNs := some s.dev.aoNs } = s1
    obtain ⟨l1, l2, l3, l4, l5, l6, l7, l8⟩ := leaveSprint_spec s1 (List.range 4)
    generalize hs2 : s1.leaveSprint (List.range 4) = s2 at *
    obtain ⟨r1, r2, r3, r4, r5, r6⟩ := settleRail_spec s2
    have r7 := settleRail_duty s2
    generalize hs3 : s2.settleRail = s3 at *
    have hp : (s3.powerStatus st).weir = s3.weir := by simp [State.powerStatus]
    have e3 : s3.weir.sprint = { s.weir.sprint with on := false, budgetNj := 0, endedNs := some s.dev.aoNs } := by
      rw [r4, l5, ← hs1]; rfl
    have w : ∀ t : State, (t = (s3.powerStatus st).raise 3 ∨
        t = ((s3.powerStatus st).raise 3).elog st unitWeir 0 noCtx noFn (BitVec.ofNat 64 d)) →
        t.weir = s3.weir ∧ t.dev = s3.dev ∧ t.reg .WEIR_STATUS 0 0 = st.setWidth 64 ∧
        raised 3 s t := by
      have kw : ∀ (cs : List Comp) (a b : State), Keeps (fun c => c ∈ cs) a b → cs = Comp.log → b.weir = a.weir := by
        intro cs a b k e
        subst e
        have k := k.weir
        cases ha : a.weir
        cases hb : b.weir
        rw [ha, hb] at k
        have q1 := k.cls.resolve_left (by decide)
        have q2 := k.railMv.resolve_left (by decide)
        have q3 := k.sprint.resolve_left (by decide)
        have q4 := k.duty.resolve_left (by decide)
        have q5 := k.powerMw.resolve_left (by decide)
        have q6 := k.sampleMw.resolve_left (by decide)
        have q7 := k.lastMissNs.resolve_left (by decide)
        have q8 := k.coolant.resolve_left (by decide)
        have q9 := k.flowReleasedNs.resolve_left (by decide)
        have q10 := k.coolantNs.resolve_left (by decide)
        have q11 := k.brake.resolve_left (by decide)
        have q12 := k.restart.resolve_left (by decide)
        have q13 := k.live.resolve_left (by decide)
        have q14 := k.waking.resolve_left (by decide)
        have q15 := k.thermal.resolve_left (by decide)
        have q16 := k.switched.resolve_left (by decide)
        simp_all
      have c0 : s3.clocked = s.clocked := by
        unfold State.clocked
        rw [r6, l3, ← hs1]; rfl
      have m0 : (s3.powerStatus st).srcMode 3 = s.srcMode 3 := by
        refine (srcMode_setReg s3 0 0 _ (by decide) (by decide)).trans ?_
        unfold State.srcMode State.regNat State.reg
        rw [r2, l1, ← hs1]; rfl
      have i0 : (s3.powerStatus st).icu = s.icu := by
        simp only [State.powerStatus, setReg_fields]
        rw [r3, l2, ← hs1]; rfl
      have base : raised 3 s ((s3.powerStatus st).raise 3) :=
        raised_congr (raise_raised (by decide) (s3.powerStatus st)) (by simp [State.powerStatus, c0]) m0.symm
          (by rw [i0]) id
      rintro t (rfl | rfl)
      · refine ⟨?_, by simp [State.powerStatus], ?_, base⟩
        · rw [kw Comp.log _ _ (raise_keeps (Keeps.refl _) 3 (by unfold Within; decide)) rfl, hp]
        · rw [raise_reg _ _ _ _ _ (by decide) (by decide)]
          exact reg_setReg_self _ _ (by decide)
      · refine ⟨?_, by simp [State.powerStatus], ?_, raised_congr base rfl rfl rfl (elog_mono _ _ _ _ _ _)⟩
        · rw [kw Comp.log _ _ (elog_keeps (Keeps.refl _) _ _ _ _ _ _ (by unfold Within; decide)) rfl,
            kw Comp.log _ _ (raise_keeps (Keeps.refl _) 3 (by unfold Within; decide)) rfl, hp]
        · rw [elog_reg _ _ _ _ _ _ _ _ _ _ (by decide) (by decide), raise_reg _ _ _ _ _ (by decide) (by decide)]
          exact reg_setReg_self _ _ (by decide)
    have fin : ∀ t : State, t.weir = s3.weir ∧ t.dev = s3.dev ∧ t.reg .WEIR_STATUS 0 0 = st.setWidth 64 ∧
        raised 3 s t → t.weir.sprint.on = false ∧ t.weir.sprint.bins = s.weir.sprint.bins ∧
        t.weir.duty = s.weir.duty ∧ t.dev.life = s.dev.life ∧ (true = false → t = s) ∧
        (True → t.reg .WEIR_STATUS 0 0 = st.setWidth 64 ∧ raised 3 s t ∧ ∀ n < 4, (t.clPwr n).point ≤ 5) ∧
        (∀ m, (t.clPwr m).likeLimits (s.clPwr m)) := by
      rintro t ⟨h1, h2, h3, h4⟩
      have c1 : ∀ m, t.clPwr m = s2.clPwr m := fun m => clPwr_congr (by rw [h1, r1]) m
      have c2 : ∀ m, s1.clPwr m = s.clPwr m := fun m => by rw [← hs1]; rfl
      refine ⟨by rw [h1, e3], by rw [h1, e3], ?_, ?_, fun h => absurd h (by decide), fun _ => ⟨h3, h4, fun n hn => ?_⟩, fun m => ?_⟩
      · rw [h1, r7, l6, ← hs1]; rfl
      · rw [h2, r6, l3, ← hs1]; rfl
      · rw [c1]; exact l8 n (.inl (List.mem_range.2 hn))
      · rw [c1, ← c2]; exact l7 m
    split
    · exact fin _ (w _ (.inr rfl))
    · exact fin _ (w _ (.inl rfl))

end Sys2Proof.Machine
end

