-- ==== Sys2Proof/WellFormed.lean ====
section
/-! DEFINITION. Well-formed commands: each operand lies in the range that the spec gives it. A command that is not
well-formed names nothing of the device; `exec` is total, and leaves the state as it is where a named unit is absent. -/

set_option Elab.async false

namespace Sys2Proof

/-- A function of the endpoint: PF 0, VFs 1 to 31 (R380). -/
def fnOk (n : Nat) : Bool := n < 32
/-- A BAR0 offset of a 32-bit word (R24, Table 1.8). -/
def offOk (n : Nat) : Bool := n < 0x8000000 && n % 4 == 0
/-- A tile core (Table 0.3). -/
def coreOk (n : Nat) : Bool := n < 32
/-- A cluster (Table 0.3). -/
def clusterOk (n : Nat) : Bool := n < 4
/-- A decode engine (Table 0.3). -/
def engineOk (n : Nat) : Bool := n < 16
/-- A scaler engine (Table 0.3). -/
def pxeOk (n : Nat) : Bool := n < 4
/-- A rill (R198). -/
def rillOk (n : Nat) : Bool := n < 512
/-- A model context (R46). -/
def ctxOk (n : Nat) : Bool := n < 4096
/-- A pool (R49). -/
def poolOk (n : Nat) : Bool := n < 64
/-- A requester port (Table 12.4). -/
def portOk (n : Nat) : Bool := n < 12
/-- A DRAM controller (R319). -/
def dmcOk (n : Nat) : Bool := n < 2
/-- A local channel group of a controller (R319). -/
def groupOk (n : Nat) : Bool := n < 4
/-- A firmware subsystem (Table 16.2). -/
def subOk (n : Nat) : Bool := n < 5

/-- A power domain (Table 13.1). -/
def Domain.ok : Domain → Bool
  | .core n => coreOk n
  | .basin n => clusterOk n
  | .decode n => n < 4
  | .pixel => true
  | .track => true

/-- A unit that holds slices (Table 11.1). -/
def Lane.ok : Lane → Bool
  | .cluster n => clusterOk n
  | .track n => n < 16
  | .copy n => n < 4

/-- What a device read of `n` bytes brings (R392). -/
def ReadRes.lenOk (n : Nat) : ReadRes (List Byte) → Bool
  | .ok bs => bs.length == n
  | .failed => true
  | .timedOut => true

/-- A concealed area (R218): one of its two statuses, and something in it. -/
def Area.ok (a : Area) : Bool := (a.status == 0x1010#16 || a.status == 0x1011#16) && a.runs != []

/-- Whether the operands of a command lie in their ranges. -/
def Instr.wf : Instr → Bool
  | .registerWrite fn off _ _ => fnOk fn && offOk off
  | .rcRead fn off _ => fnOk fn && offOk off
  | .w1cWrite fn off _ _ => fnOk fn && offOk off
  | .w1sWrite fn off _ => fnOk fn && offOk off
  | .lowWordRead fn off => fnOk fn && offOk off
  | .lowWordWrite fn off _ => fnOk fn && offOk off
  | .highWordWrite fn off _ => fnOk fn && offOk off
  | .commandIssue ctx => ctxOk ctx
  | .tileClaim core => coreOk core
  | .load core => coreOk core
  | .loadComplete core => coreOk core
  | .xscan core => coreOk core
  | .xscanComplete core => coreOk core
  | .init e => coreOk e.core
  | .stream core => coreOk core
  | .drain core => coreOk core
  | .spill core => coreOk core
  | .drainComplete core => coreOk core
  | .xptr core => coreOk core
  | .fence core => coreOk core
  | .publish core => coreOk core
  | .waitcnt core => coreOk core
  | .waitcntPass core => coreOk core
  | .tileCommit core => coreOk core
  | .commandKill ctx => ctxOk ctx
  | .coreIdle core => coreOk core
  | .commandReissue ctx => ctxOk ctx
  | .coreFault core _ => coreOk core
  | .tcFaultRead core _ => coreOk core
  | .ringPoll rill _ header descs => rillOk rill && header.lenOk 64 && descs.all (·.lenOk 32)
  | .auCopyComplete rill _ => rillOk rill
  | .statusRecordPeriodic rill => rillOk rill
  | .registryScan entries _ => entries.length ≤ 512 && entries.all (·.lenOk 64)
  | .rillDrainComplete rill => rillOk rill
  | .decodeTurn engine p => engineOk engine && p.ctu != 0
  | .quantumExpire engine _ => engineOk engine
  | .budgetExceeded engine _ _ _ _ areas _ => engineOk engine && areas.all (·.ok)
  | .pictureComplete engine _ areas _ => engineOk engine && areas.all (·.ok)
  | .engineUtilUpdate engine _ => engineOk engine
  | .pixelCommand pxe ctx rill _ => pxeOk pxe && ctxOk ctx && rillOk rill
  | .regionComplete pxe => pxeOk pxe
  | .trackCommand ctx rill _ => ctxOk ctx && rillOk rill
  | .trackCommandCommit rill => rillOk rill
  | .stepStart ctx cluster => ctxOk ctx && clusterOk cluster
  | .sliceEnd lane => lane.ok
  | .bringIn ctx cluster => ctxOk ctx && clusterOk cluster
  | .bringInComplete ctx cluster => ctxOk ctx && clusterOk cluster
  | .contextEvict cluster waiting => clusterOk cluster && ctxOk waiting
  | .starvedTick ctx cluster => ctxOk ctx && clusterOk cluster
  | .move e => ctxOk e.ctx
  | .headExport ctx rill _ => ctxOk ctx && rillOk rill
  | .dramRead port _ _ _ second => portOk port && second.length == 64
  | .dramWrite port _ data => portOk port && data.length == 64
  | .partialWrite port addr data _ _ second =>
    portOk port && 0 < data.length && data.length < 64 && data.length + addr % 64 ≤ 64 && second.length == 64
  | .bankRefresh channel bank => channel < 64 && bank < 16
  | .recalStart dmc group => dmcOk dmc && groupOk group
  | .recalEnd dmc => dmcOk dmc
  | .recalTimeout dmc => dmcOk dmc
  | .trainingCommand dmc channel _ => dmcOk dmc && channel < 32
  | .trainingComplete dmc _ => dmcOk dmc
  | .delayRegisterWrite off _ => offOk off
  | .tempDrift dmc group _ => dmcOk dmc && groupOk group
  | .bufferAlloc pool => poolOk pool
  | .cacheRefill pool => poolOk pool
  | .cisternHostFree fn _ => fnOk fn
  | .poolReinitComplete pool => poolOk pool
  | .powerGate d => d.ok
  | .domainWake d => d.ok
  | .domainWakeComplete d => d.ok
  | .operatingPointChange cluster => clusterOk cluster
  | .clockSwitch cluster => clusterOk cluster
  | .clusterRestart cluster => clusterOk cluster
  | .droopDetect cluster _ => clusterOk cluster
  | .droopRecover cluster => clusterOk cluster
  | .thermalLimitStep cluster => clusterOk cluster
  | .configRequest fn off width _ => fnOk fn && off < 4096 && (width == 1 || width == 2 || width == 4)
  | .hostMemoryRequest fn bar _ _ => fnOk fn && bar < 6
  | .vendorDefinedMessage fn _ => fnOk fn
  | .lateCompletion fn => fnOk fn
  | .flrInitiate fn => fnOk fn
  | .dmaSilenced fn => fnOk fn
  | .flrComplete fn => fnOk fn
  | .d3hotEntry fn => fnOk fn
  | .sourceEdge src _ => src < 512
  | .groupDelivery g => g < 32
  | .holdoffExpire g => g < 32
  | .aowMatch slot => slot < 32
  | .alarmFire k => k < 4
  | .writeSlot sub _ => subOk sub
  | .activate sub _ => subOk sub
  | .commit sub => subOk sub
  | .firmwareSwitch sub engine => subOk sub && engineOk engine
  | .linkUp rate width _ => rate < 16 && width < 32
  | .imgLoad => true
  | .imgLoadComplete _ => true
  | .imgLock => true
  | .imgUnload => true
  | .imgUnloadComplete => true
  | .imgSwap _ => true
  | .swapComplete => true
  | .segmentRetire seg => seg < 65536
  | .selfRefreshEntry => true
  | .bufferRelease _ => true
  | .powerSample _ _ => true
  | .capAdjust => true
  | .capWindowEnd _ => true
  | .brakeAssert => true
  | .brakeDeassert => true
  | .vrAlertAssert => true
  | .vrAlertDeassert => true
  | .sprintEntry => true
  | .sprintBudgetTick => true
  | .excursionLimit _ _ => true
  | .residencyBinTick _ => true
  | .thermalSample temps => temps.length == 16
  | .hardStop => true
  | .flowLostAssert => true
  | .coolantStopReached => true
  | .flowLostDeassert => true
  | .resume => true
  | .autoResume => true
  | .deviceReadFail _ _ => true
  | .completionTimeout _ _ => true
  | .vfEnableSet => true
  | .vfEnableClear => true
  | .standbyEntry => true
  | .hotReset _ => true
  | .perstAssert => true
  | .fundamentalReset _ => true
  | .deviceReady => true
  | .aowTimerExpire => true
  | .thymeSet _ => true
  | .tsyncFrameSend => true
  | .tsyncFrameReceive _ _ => true
  | .tsyncTimeout => true
  | .snapshotNow => true
  | .snapInEdge => true
  | .snapshotTimeMatch => true
  | .snapshotComplete => true
  | .watchdogExpire _ => true
  | .spdmRequest _ _ _ _ _ => true
  | .mctpMessage _ _ => true
  | .advanceImage => true
  | .writeBoard => true
  | .mailboxCommandComplete => true
  | .supplySample _ _ => true
  | .vauxApply => true
  | .aoPorRelease => true
  | .railRemoval _ => true

end Sys2Proof
end

