-- ==== Sys2Proof/Tests/Slice0.lean ====
section
/-! SUPPORT. Tests of one command each on small states, with results taken from the spec's rules, and witnesses: each theorem
whose statement begins with conditions shows a state and operands that meet the conditions of a clause of a statement of
Certificates/Slice0/Obligations.lean together. -/

set_option Elab.async false

namespace Sys2Proof.Tests

open Sys2Proof Sys2Proof.Machine

set_option maxRecDepth 100000

/-! ## Small states -/

/-- The state after a command. -/
def run (c : Instr) (s : State) : State :=
  match exec c s with
  | .next t => t
  | _ => s

/-- The fault of a command, if it ends in one. -/
def faultOf (c : Instr) (s : State) : Option Fault :=
  match exec c s with
  | .fault f => some f
  | _ => none

/-- The state after a step. -/
def stepped (s : State) : State :=
  match step s with
  | .next t => t
  | _ => s

/-- A device in service with nothing loaded: DRAM runs, and function 0 decodes memory requests and is a bus master. -/
def up : State :=
  { State.reset with
    dev := { State.reset.dev with life := .ready, dramMode := .running }
    fns := [(0, { FnState.reset with cfg := [(4, 0x06#8)] })] }

/-! ## The machine as a whole -/

theorem test_wf_refuses_units :
    [Instr.registerWrite 32 0 false 0, .registerWrite 0 2 false 0, .rcRead 32 0 0, .rcRead 0 0x8000000 0, .w1cWrite 32 0 0 0,
      .w1cWrite 0 1 0 0, .w1sWrite 32 0 0, .w1sWrite 0 3 0, .lowWordRead 32 0, .lowWordRead 0 6, .lowWordWrite 32 0 0,
      .lowWordWrite 0 2 0, .highWordWrite 32 0 0, .highWordWrite 0 2 0, .commandIssue 4096, .tileClaim 32, .load 32,
      .loadComplete 32, .xscan 32, .xscanComplete 32, .init ⟨32, false⟩, .stream 32, .drain 32, .spill 32, .drainComplete 32, .xptr 32,
      .fence 32, .publish 32, .waitcnt 32, .waitcntPass 32, .tileCommit 32, .commandKill 4096, .coreIdle 32,
      .commandReissue 4096, .coreFault 32 0, .tcFaultRead 32 0].all (fun c => !c.wf) = true := by decide

theorem test_wf_refuses_video :
    [Instr.ringPoll 512 0 .failed [], .ringPoll 0 0 (.ok []) [], .ringPoll 0 0 .failed [.ok [1]], .auCopyComplete 512 [], .statusRecordPeriodic 512,
      .registryScan (List.replicate 513 .failed) none, .registryScan [.ok []] none, .rillDrainComplete 512, .quantumExpire 16 0,
      .decodeTurn 16 (AuParse.mk none true false true [] [] 64 false), .decodeTurn 0 (AuParse.mk none true false true [] [] 0 false),
      .budgetExceeded 16 0 0 0 [] [] [],
      .budgetExceeded 0 0 0 0 [] [Area.mk 0xA000 0 0 [CtuRun.mk 0 0 1]] [], .pictureComplete 16 0 [] [],
      .pictureComplete 0 0 [Area.mk 0x1010 0 0 []] [], .engineUtilUpdate 16 0, .pixelCommand 4 0 0 0,
      .pixelCommand 0 4096 0 0, .pixelCommand 0 0 512 0, .regionComplete 4, .trackCommand 4096 0 0, .trackCommand 0 512 0,
      .trackCommandCommit 512, .stepStart 4096 0, .stepStart 0 4, .sliceEnd (.cluster 4), .sliceEnd (.track 16),
      .sliceEnd (.copy 4), .bringIn 4096 0, .bringIn 0 4, .bringInComplete 4096 0, .bringInComplete 0 4, .contextEvict 4 0,
      .contextEvict 0 4096, .starvedTick 4096 0, .starvedTick 0 4, .move ⟨4096, false⟩, .headExport 4096 0 0,
      .headExport 0 512 0].all (fun c => !c.wf) = true := by decide

theorem test_wf_refuses_dram_and_power :
    [Instr.dramRead 12 0 false false (List.replicate 64 0), .dramRead 0 0 false false [], .dramWrite 12 0 (List.replicate 64 0),
      .dramWrite 0 0 [], .partialWrite 12 0 [1] false false (List.replicate 64 0), .partialWrite 0 0 [] false false (List.replicate 64 0),
      .partialWrite 0 0 (List.replicate 64 0) false false (List.replicate 64 0),
      .partialWrite 0 63 [1, 2] false false (List.replicate 64 0), .partialWrite 0 0 [1] false false [], .bankRefresh 64 0,
      .bankRefresh 0 16, .recalStart 2 0, .recalStart 0 4, .recalEnd 2, .recalTimeout 2, .trainingCommand 2 0 0,
      .trainingCommand 0 32 0, .trainingComplete 2 0, .delayRegisterWrite 1 0, .tempDrift 2 0 0, .tempDrift 0 4 0,
      .bufferAlloc 64, .cacheRefill 64, .cisternHostFree 32 0, .poolReinitComplete 64, .powerGate (.core 32),
      .powerGate (.basin 4), .domainWake (.decode 4), .domainWakeComplete (.core 32), .operatingPointChange 4, .clockSwitch 4,
      .clusterRestart 4, .droopDetect 4 0, .droopRecover 4, .thermalLimitStep 4,
      .thermalSample []].all (fun c => !c.wf) = true := by decide

theorem test_wf_refuses_host :
    [Instr.configRequest 32 0 4 none, .configRequest 0 4096 4 none, .configRequest 0 0 3 none, .hostMemoryRequest 32 0 0 .unsupported,
      .hostMemoryRequest 0 6 0 .unsupported, .vendorDefinedMessage 32 .type1, .lateCompletion 32, .flrInitiate 32,
      .dmaSilenced 32, .flrComplete 32, .d3hotEntry 32, .sourceEdge 512 true, .groupDelivery 32, .holdoffExpire 32,
      .aowMatch 32, .alarmFire 4, .writeSlot 5 (Verdict.mk true true), .activate 5 (Verdict.mk true true), .commit 5, .firmwareSwitch 5 0,
      .firmwareSwitch 0 16, .linkUp 16 1 false, .linkUp 1 32 false, .segmentRetire 65536].all (fun c => !c.wf) = true := by
  decide

theorem test_step_takes_the_front :
    let s := { up with pending := [.bufferAlloc 0, .imgLock] }
    s.pending = .bufferAlloc 0 :: [.imgLock] ∧
      (stepped s).pending = [.imgLock] := by decide

theorem test_idle_step :
    let s := { up with icu := { up.icu with timers := [(3, 7)] } }
    s.pending = [] ∧ SMap.get (fun _ => 0) s.icu.timers 3 = 6 + 1 ∧
      (stepped s).thy.now = 10 ∧ SMap.get (fun _ => 0) (stepped s).icu.timers 3 = 2 := by decide

theorem test_memWf_met : up.memWf = true := by decide

theorem test_regOk_met : regOk .TC_CNT_UPDATES 31 0 = true ∧ regOk .THYME_SNAP_VAL 0 63 = true := by decide

theorem test_withFetchWord : (State.reset.withFetchWord 8 0x55).pending = [] ∧ decodeTableWord 8 0x55 = none := by decide

/-! ## DRAM and buffer pools -/

def block (b : Byte) : List Byte := List.replicate 64 b

/-- Controller 1 with its group 2 in recalibration. -/
def recal : State := run (.recalStart 1 2) up

theorem test_dramWrite : up.clocked = true ∧ 3 * 64 < dramSize up.dev.part ∧ up.serves (.write 0 3 (block 0xA5)) = true ∧
    (let t := run (.dramWrite 0 3 (block 0xA5)) (up.setPoison 3 true)
     t.dramByte 192 = 0xA5 ∧ t.dramByte 255 = 0xA5 ∧ t.dramByte 256 = 0 ∧ t.dramByte 191 = 0 ∧ t.poisoned 3 = false) := by decide

/-- R330, R335: a write to a group in recalibration waits at its port, a later one of its channel behind it, and both are done at
the end. -/
theorem test_dramWrite_waits :
    let b := 196608
    let s := run (.dramWrite 0 b (block 0x5A)) recal
    (up.blockLoc b).dmc = 1 ∧ (up.blockLoc b).group = 2 ∧ recal.serves (.write 0 b (block 0x5A)) = false ∧ s.dram.held.length = 1 ∧ s.dramByte (64 * b) = 0 ∧
      (run (.recalEnd 1) s).dramByte (64 * b) = 0x5A ∧ (run (.recalEnd 1) s).dram.held = [] := by decide

theorem test_dramRead_twice_bad : up.serves (.read 2 3 true true (block 0x11)) = true ∧ up.poisoned 3 = false ∧
    (let t := run (.dramRead 2 3 true true (block 0x11)) up
     t.poisoned 3 = true ∧ t.poisoned 2 = false ∧ t.dramByte 200 = 0x11 ∧
       t.reg .DMC_CH_ERR (up.blockLoc 3).dmc ((up.blockLoc 3).channel % 32) = 0x0000000100000001) := by decide

theorem test_dramRead_finds :
    let p := up.setPoison 3 true
    (run (.dramRead 2 3 false false (block 0)) up).dram = up.dram ∧
      (run (.dramRead 2 3 true false (block 0)) up).poisoned 3 = false ∧
      (run (.dramRead 2 3 true false (block 0)) up).reg .DMC_CH_ERR (up.blockLoc 3).dmc ((up.blockLoc 3).channel % 32) = 1 ∧
      p.serves (.read 2 3 false false (block 0)) = true ∧ p.poisoned 3 = true ∧
      (run (.dramRead 2 3 false false (block 0)) p).reg .DMC_CH_ERR (up.blockLoc 3).dmc ((up.blockLoc 3).channel % 32) =
        0x0001000000000000 := by decide

theorem test_partialWrite : up.serves (.part 0 70 [1, 2] false false (block 0)) = true ∧ 70 < dramSize up.dev.part ∧
    isPartial 70 2 = true ∧ up.poisoned (70 / 64) = false ∧
    (let t := run (.partialWrite 0 70 [1, 2] false false (block 0)) up
     t.dramByte 70 = 1 ∧ t.dramByte 71 = 2 ∧ t.dramByte 72 = 0) ∧
    (run (.partialWrite 0 70 [1, 2] true true (block 9)) up).poisoned 1 = true ∧
    (run (.partialWrite 0 70 [1, 2] true true (block 9)) up).dramByte 70 = 9 := by decide

theorem test_partialWrite_to_poison :
    let s := up.setPoison 1 true
    s.serves (.part 0 70 [1, 2] false false (block 0)) = true ∧ s.poisoned 1 = true ∧
      (let t := run (.partialWrite 0 70 [1, 2] false false (block 0)) s
       t.dramByte 70 = 0 ∧ t.poisoned 1 = true ∧ t.icu.log.map (·.status) = [0x5022]) := by decide

theorem test_bankRefresh : up.dev.dramMode = .running ∧ 33 < 8 * groupCount up.dev.part ∧
    SMap.get (fun _ => 0) ((run (.bankRefresh 33 15) up).dmc 1).refreshes (1 * 16 + 15) = 1 := by decide

theorem test_selfRefreshEntry :
    let s := { up with dev := { up.dev with dramMode := .entering } }
    s.dev.dramMode = .entering ∧ (run .selfRefreshEntry s).dev.dramMode = .selfRefresh := by decide

theorem test_recalStart : towerPresent up.dev.part 1 = true ∧ (up.dmc 1).recal = none ∧
    (recal.dmc 1).recal.map (·.1) = some 2 ∧ (run (.recalStart 1 3) recal).reg .DMC_RECAL_STATUS 1 0 = 0x2070 := by decide

theorem test_recalEnd :
    let s := recal.setReg .DMC_TEMP 1 0 0x00550000
    (s.dmc 1).recal.map (·.1) = some 2 ∧ ((run (.recalEnd 1) s).dmc 1).recal = none ∧
      (run (.recalEnd 1) s).reg .DMC_TEMP_CAL 1 0 = 0x00550000 := by decide

/-- That recalibration when its time limit has passed, and in a coolant stop. -/
def late : State := { recal with thy := { recal.thy with now := 10000000 } }

theorem test_recalTimeout :
    let c := { recal with weir := { recal.weir with coolant := .entering } }
    (late.dmc 1).recalStartNs + late.recalLimitNs 1 ≤ late.nowNs ∧ (late.dmc 1).recal ≠ none ∧
      (run (.recalTimeout 1) late).reg .DMC_RECAL_STATUS 1 0 = 0x5030 ∧ (run (.recalTimeout 1) recal).dmc 1 = recal.dmc 1 ∧
      c.weir.coolant ≠ .none ∧ (run (.recalTimeout 1) c).reg .DMC_RECAL_STATUS 1 0 = 0x5031 := by decide

/-- R335: a delay written during a recalibration that times out is back at its value of the start. -/
theorem test_recalibration_restores :
    let b := run (.delayRegisterWrite (regOff .DMC_DLY 1 2312) 7) late
    up.memWf = true ∧ (b.dmc 1).recal = (recal.dmc 1).recal ∧ (b.dmc 1).recalStartNs + b.recalLimitNs 1 ≤ b.nowNs ∧
      inDelays 1 2 (regOff .DMC_DLY 1 2312) = true ∧ b.dram.held = [] ∧ b.stored (regOff .DMC_DLY 1 2312) = 7 ∧
      (run (.recalTimeout 1) b).stored (regOff .DMC_DLY 1 2312) = 0 := by decide

theorem test_delaysNoted_met : State.reset.delaysNoted := by
  intro d h old e
  cases e

theorem test_trainingCommand : (recal.dmc 1).recal.map (·.1) = some (17 / 8) ∧
    ((run (.trainingCommand 1 17 3) recal).dmc 1).training = some 17 ∧
    SMap.get (fun _ => none) ((run (.trainingCommand 1 17 3) recal).dmc 1).trainRows (17 * 16) = some 3 ∧
    ((run (.trainingCommand 1 25 3) recal).dmc 1).training = none := by decide

theorem test_trainingComplete :
    let s := run (.trainingCommand 1 17 0) recal
    (s.dmc 1).training.isSome = true ∧
      (run (.trainingComplete 1 (0x5#136 <<< 32)) s).reg .DMC_TRAIN_PASS 1 1 = 5 := by decide

theorem test_delayRegisterWrite_discarded :
    let t := run (.delayRegisterWrite (regOff .DMC_DLY 1 0) 7) recal
    t.reg .DMC_STATUS 1 0 = 1 ∧ t.reg .DMC_DLY 1 0 = 0 := by decide

theorem test_tempDrift :
    let s := (up.setReg .DMC_DRIFT_C 1 0 10).setReg .ICU_SRC_CFG 0 14 5
    s.regNat .DMC_DRIFT_C 1 0 < s.drift 1 2 60 ∧ (run (.tempDrift 1 2 60) s).icu.pend.getLsbD 14 = true ∧
      (run (.tempDrift 1 2 60) s).reg .DMC_TEMP 1 0 = 0x003C0000 := by decide

/-- A handle of pool 5. -/
def hd (k : Nat) : Handle := { addr := 0x10000 + 256 * k, pool := 5 }

/-- Pool 5 with `n` handles in its cache, of 40. -/
def pool5 (n : Nat) : Pool :=
  { id := 5, owner := 3, size := 256, count := 40, base := 0x10000, ringAddr := 0x8000, cap := 64
    cache := (List.range n).map hd, head := 0, tail := 0, lowest := n, fails := 0, reinit := false }

def pooled (n : Nat) : State := { up with pools := [pool5 n] }

theorem test_handleRoundTrip : (hd 3).addr < 2 ^ 48 ∧ (hd 3).pool < 256 ∧ (hd 3).word = 0x0005000000010300 := by decide

theorem test_bufferAlloc : (pooled 1).pool 5 = some (pool5 1) ∧ ((run (.bufferAlloc 5) (pooled 0)).pool 5).map (·.fails) = some 1 := by
  decide

theorem test_bufferRelease :
    let t := run (.bufferRelease 0x0005000000010300) (pooled 1)
    (pooled 1).pool 5 = some (pool5 1) ∧ (pool5 1).free < (pool5 1).cap ∧ (t.pool 5).map (·.cache) = some [hd 0, hd 3] ∧
      (run (.bufferRelease 0x0006000000010300) (pooled 1)).icu.log.map (·.status) = [0x2060] := by decide

theorem test_cacheRefill :
    let p := { pool5 2 with tail := 3 }
    let s := { up with pools := [p], dram := { up.dram with bytes := Mem.writeList [] 0x8000 (leBytes 8 (hd 9).word) } }
    p.cache.length < 16 ∧ p.head < p.tail ∧ ((run (.cacheRefill 5) s).pool 5).map (·.head) = some 3 ∧
      ((run (.cacheRefill 5) s).pool 5).bind (·.cache[2]?) = some (hd 9) := by decide

theorem test_cisternHostFree :
    let t := run (.cisternHostFree 4 0x0005000000010300) (pooled 1)
    t.icu.log.map (·.status) = [0x2061] ∧ t.reg .CISTERN_CNT_DISCARD 0 0 = 1 ∧
      ((run (.cisternHostFree 3 0x0005000000010300) (pooled 1)).pool 5).map (·.cache.length) = some 2 := by decide

theorem test_poolReinitComplete :
    let s := { up with pools := [{ pool5 2 with reinit := true, count := 3 }] }
    let t := run (.poolReinitComplete 5) s
    (s.pool 5).map (·.reinit) = some true ∧ (t.pool 5).map (fun p => (p.cache.length, p.tail, p.reinit)) = some (0, 3, false) ∧
      handleOf (t.dramRd 0x8010 8) = hd 2 := by decide
/-! ## Power and thermal -/

/-- Edge mode, enabled, function as the source has. -/
def edge (s : State) (i : Nat) : State := s.setReg .ICU_SRC_CFG 0 i 5

theorem test_powerGate :
    let s := { up with weir := { up.weir with live := [.core 3, .basin 1] }
                       slu := { up.slu with cores := [(3, { Core.reset with st := .idle })] } }
    s.mayGate (.core 3) = true ∧ (run (.powerGate (.core 3)) s).domainLive (.core 3) = false ∧
      ((run (.powerGate (.core 3)) s).core 3).st = .gated := by decide

theorem test_domainWake : up.clocked = true ∧ domainPresent up.dev.part (.decode 2) = true ∧
    up.domainLive (.decode 2) = false ∧ (run (.domainWake (.decode 2)) up).weir.waking = [.decode 2] := by decide

theorem test_domainWakeComplete :
    let s := { up with weir := { up.weir with waking := [.core 3] } }
    (.core 3) ∈ s.weir.waking ∧ (run (.domainWakeComplete (.core 3)) s).domainLive (.core 3) = true ∧
      ((run (.domainWakeComplete (.core 3)) s).core 3).st = .idle := by decide

/-- Cluster 1 of a device whose clusters may run at point 5. -/
def fast : State := { up with weir := { up.weir with cls := [(1, { ClPwr.reset with point := 2 })] } }

theorem test_operatingPointChange : up.clocked = true ∧ (up.clPwr 1).stopped = false ∧ clusterPresent up.dev.part 1 = true ∧
    (up.clPwr 1).point < up.effectivePoint 1 ∧
    ((run (.operatingPointChange 1) up).clPwr 1).want = some (up.effectivePoint 1) := by decide

theorem test_clock_falls_at_once :
    let s := { up with weir := { up.weir with cls := [(1, { ClPwr.reset with point := 7 })] } }
    s.effectivePoint 1 ≤ (s.clPwr 1).point ∧
      ((run (.operatingPointChange 1) s).clPwr 1).point = s.effectivePoint 1 := by decide

theorem test_clockSwitch :
    let s := run (.operatingPointChange 1) { up with weir := { up.weir with live := [.core 8] } }
    s.needMv (min (up.effectivePoint 1) (s.effectivePoint 1)) ≤ s.weir.railMv ∧ (s.clPwr 1).stopped = false ∧
      ((run (.clockSwitch 1) s).clPwr 1).point = up.effectivePoint 1 := by decide

theorem test_powerSample : up.holders = [] ∧
    (let t := run (.powerSample 40000 7) up
     t.weir.sampleMw = 40000 ∧ t.reg .WEIR_E_DEVICE_UJ 0 0 = 7 ∧ t.reg .WEIR_E_IDLE_UJ 0 0 = 7) := by decide

/-- A device under a cap of 60 W. -/
def capped (mw duty : Nat) : State :=
  let s := up.setReg .WEIR_CAP_MW 0 0 60000
  { s with weir := { s.weir with sampleMw := mw, duty := duty } }

theorem test_capAdjust_above : (capped 61000 8).fixedClock = false ∧ (capped 61000 8).effCap = 60000 ∧
    (capped 61000 8).topPoint = 0 ∧ (run .capAdjust (capped 61000 8)).weir.duty = 7 ∧
    (run .capAdjust (capped 61000 2)).weir.duty = 2 := by decide

theorem test_capAdjust_below : (run .capAdjust (capped 59000 4)).weir.duty = 5 ∧
    (run .capAdjust (capped 59000 8)).weir.duty = 8 := by decide

theorem test_capWindowEnd :
    let s := edge (capped 61000 2) 3
    s.capMissed 70000 = true ∧ s.weir.lastMissNs = none ∧
      (let t := run (.capWindowEnd 70000) s
       t.weir.powerMw = 70000 ∧ t.reg .WEIR_STATUS 0 0 = 0x7001 ∧ t.reg .WEIR_CNT_CAPMISS 0 0 = 1 ∧
         t.icu.pend.getLsbD 3 = true ∧ t.icu.log.map (·.detail) = [70000]) := by decide

theorem test_brakeAssert : up.dev.life = .ready ∧ up.weir.brake = false ∧ up.dev.pins.brake = false ∧
    (let t := run .brakeAssert up
     t.weir.brake = true ∧ (t.clPwr 3).stopped = true ∧ t.reg .WEIR_STATUS 0 0 = 0x7011 ∧
       t.reg .WEIR_CNT_BRAKE 0 0 = 1) := by decide

theorem test_vrAlertAssert : up.dev.pins.vrAlert = false ∧ (run .vrAlertAssert up).weir.brake = true := by decide

theorem test_brakeDeassert :
    let s := run .brakeAssert up
    s.weir.brake = true ∧ s.dev.pins.brake = true ∧ s.dev.pins.vrAlert = false ∧
      (run .brakeDeassert s).weir.restart = [0, 1, 2, 3] := by decide

theorem test_vrAlertDeassert :
    let s := run .vrAlertAssert (run .brakeAssert up)
    s.dev.pins.brake = true ∧ (run .vrAlertDeassert s).weir.brake = true ∧
      (run .vrAlertDeassert (run .brakeDeassert s)).weir.brake = false := by decide

theorem test_clusterRestart :
    let s := run .brakeDeassert (run .brakeAssert up)
    s.weir.restart.head? = some 0 ∧ (s.clPwr 0).thermPt ≠ 0 ∧
      (let t := run (.clusterRestart 0) s
       (t.clPwr 0).stopped = false ∧ (t.clPwr 0).point = s.effectivePoint 0 ∧ (t.clPwr 1).stopped = true ∧
         t.weir.restart = [1, 2, 3]) := by decide

theorem test_droopDetect :
    let s := { up.setReg .WEIR_DROOP_MV 0 0 30 with weir := { up.weir with live := [.basin 1, .core 8] } }
    s.clusterLive 1 = true ∧ (s.clPwr 1).stretched = false ∧ (500 : Int) + s.regNat .WEIR_DROOP_MV 0 0 < s.partMv (s.clPwr 1).point ∧
      ((run (.droopDetect 1 500) s).clPwr 1).stretched = true ∧
      (run (.droopDetect 1 500) s).reg .WEIR_CNT_DROOP 0 0 = 1 := by decide

theorem test_droopRecover :
    let s := { up with weir := { up.weir with cls := [(1, { ClPwr.reset with stretched := true })] } }
    ((run (.droopRecover 1) s).clPwr 1).stretched = false := by decide

theorem test_thermalSample :
    let s := up.setReg .WEIR_TJ_LIMIT 0 0 100
    let t := run (.thermalSample [40, 41, 42, 43, 44, 45, 46, 101, 48, 49, 50, 51, 52, 53, 54, 55]) s
    s.clocked = true ∧ s.regNat .WEIR_TJ_LIMIT 0 0 ≤ 101 ∧ (t.clPwr 0).temp = 43 ∧ (t.clPwr 1).temp = 101 ∧
      (t.clPwr 1).engaged = true ∧ (t.clPwr 0).engaged = false ∧ t.regNat .WEIR_TJ_C 0 0 % 256 = 101 := by decide

/-- Cluster 1 with an engaged limit that allows point `pt` - 1. -/
def hot (temp pt : Nat) : State :=
  let s := up.setReg .WEIR_TJ_LIMIT 0 0 100
  { s with weir := { s.weir with cls := [(1, { ClPwr.reset with point := 0, thermPt := pt, temp := temp, engaged := true })] } }

theorem test_thermalLimitStep : clusterPresent up.dev.part 1 = true ∧ ((hot 100 2).clPwr 1).engaged = true ∧
    ((run (.thermalLimitStep 1) (hot 100 2)).clPwr 1).thermPt = 1 ∧
    ((run (.thermalLimitStep 1) (hot 100 2)).clPwr 1).stopped = false ∧
    ((run (.thermalLimitStep 1) (hot 100 1)).clPwr 1).stopped = true ∧
    ((run (.thermalLimitStep 1) (hot 97 2)).clPwr 1).thermPt = 3 ∧ run (.thermalLimitStep 1) (hot 98 2) = hot 98 2 ∧
    ((run (.thermalLimitStep 1) (hot 97 5)).clPwr 1).engaged = false := by decide

theorem test_hardStop : up.dev.rails.soc = true ∧ (run .hardStop up).dev.life = .hardStop ∧
    (run .hardStop up).dev.pins.thermtrip = true ∧ (run .hardStop up).dev.hardStopRec = true := by decide

/-- Ready to sprint: enabled, cool, a phase point above 5. -/
def sprinting (on : Bool) : State :=
  { up with weir := { up.weir with live := [.core 8], sampleMw := 200000, sprint := { up.weir.sprint with on := on, budgetNj := 1000000 },
                                   cls := [(1, { ClPwr.reset with point := 7, temp := 60 })] } }

theorem test_sprintBudgetTick : (sprinting true).weir.sprint.on = true ∧ (sprinting true).atSprint = true ∧
    (let t := run .sprintBudgetTick (edge (sprinting true) 3)
     t.reg .WEIR_CNT_SPRINT_US 0 0 = 10) := by decide

theorem test_excursionLimit :
    let s := edge (sprinting true) 3
    s.weir.sprint.on = true ∧
      (let t := run (.excursionLimit 260001 2000) s
       t.weir.sprint.on = false ∧ t.reg .WEIR_STATUS 0 0 = 0x7003 ∧ t.icu.pend.getLsbD 3 = true ∧ (t.clPwr 1).point ≤ 5) ∧
      (run (.excursionLimit 280001 0) s).weir.sprint.on = false ∧ run (.excursionLimit 260000 9000) s = s ∧
      run (.excursionLimit 280000 1999) s = s := by decide

/-- R368: 6,912 s at a sprint point in 24 hours. -/
theorem test_residencyBinTick :
    let s (ns : Nat) := { sprinting true with
      weir := { (sprinting true).weir with
        sprint := { (sprinting true).weir.sprint with bins := List.replicate 115 60000000000, binNs := ns, minutes := 115 } }
      dev := { (sprinting true).dev with aoNs := 6960000000000 } }
    (s 11999999999).weir.sprint.residency = 6911 ∧ (run (.residencyBinTick 116) (s 11999999999)).weir.sprint.on = true ∧
      (run (.residencyBinTick 116) (s 11999999999)).weir.sprint.binNs = 0 ∧
      (s 12000000000).weir.sprint.residency = 6912 ∧ (run (.residencyBinTick 116) (s 12000000000)).weir.sprint.on = false ∧
      (run (.residencyBinTick 116) (s 12000000000)).reg .WEIR_STATUS 0 0 = 0x7004 ∧
      (run .sprintBudgetTick (s 12000000000)).reg .WEIR_STATUS 0 0 = 0x7004 ∧
      run (.residencyBinTick 117) (s 0) = s 0 := by decide

/-- R366, R369, R370: a budget that is spent; a gated last cluster at a sprint point; a phase without a sprint point. -/
theorem test_sprint_ends :
    let s := { sprinting true with weir := { (sprinting true).weir with
      sprint := { (sprinting true).weir.sprint with budgetNj := 400000 }, live := [.basin 1] } }
    s.atSprint = true ∧ (run .sprintBudgetTick s).reg .WEIR_STATUS 0 0 = 0x7002 ∧ s.mayGate (.basin 1) = true ∧
      (run (.powerGate (.basin 1)) s).reg .WEIR_STATUS 0 0 = 0x7006 ∧ s.sprintAllowed 1 = false ∧
      (run (.operatingPointChange 1) s).weir.sprint.on = false := by decide

theorem test_flowLostAssert : up.dev.pins.flowLost = false ∧ up.weir.coolant = .none ∧
    (let t := run .flowLostAssert up
     t.weir.coolant = .entering ∧ t.dev.dramMode = .entering ∧ (t.clPwr 2).stopped = true ∧
       t.reg .WEIR_STATUS 0 0 = 0x7010) := by decide

/-- A device in coolant stop. -/
def stopped : State := run .coolantStopReached (run .selfRefreshEntry (run .flowLostAssert up))

theorem test_coolantStopReached : stopped.weir.coolant = .stopped ∧ stopped.weir.railMv = 550 := by decide

theorem test_flowLostDeassert : stopped.dev.pins.flowLost = true ∧
    (run .flowLostDeassert stopped).weir.flowReleasedNs = some 0 := by decide

theorem test_resume :
    let s := { run .flowLostDeassert stopped with dev := { (run .flowLostDeassert stopped).dev with aoNs := 10000000000 } }
    s.mayResume = true ∧ (run .resume s).weir.coolant = .none ∧ ((run .resume s).clPwr 1).point = 0 ∧
      ((run .resume s).clPwr 1).stopped = false ∧ stopped.mayResume = false ∧
      (run .resume stopped).reg .WEIR_STATUS 0 0 = 0x7012 := by decide

theorem test_autoResume :
    let u := run .flowLostDeassert stopped
    let s := { u.setReg .WEIR_CTRL 0 0 2 with dev := { u.dev with aoNs := 10000000000 } }
    s.regBit .WEIR_CTRL 0 0 1 = true ∧ s.mayResume = true ∧ (run .autoResume s).dev.dramMode = .running := by decide

/-- A device that may sprint on cluster 1. -/
def eager (secs : Nat) : State :=
  let s := (((up.setReg .WEIR_CTRL 0 0 4).setReg .WEIR_PHASE 0 0 7).setReg .WEIR_CL_FMAX 0 1 7).setReg .WEIR_TJ_C 0 0 60
  { s with weir := { s.weir with live := [.core 8], cls := [(1, { ClPwr.reset with temp := 60 })],
                                 sprint := { s.weir.sprint with bins := List.replicate secs 60000000000 } } }

theorem test_sprintEntry : (eager 0).sprintReady = true ∧ (eager 0).weir.sprint.residency < 6912 ∧
    (let t := run .sprintEntry (eager 0)
     t.weir.sprint.on = true ∧ t.weir.sprint.budgetNj = 135000000000 ∧ t.reg .WEIR_CNT_SPRINT 0 0 = 1) := by decide

theorem test_sprintEntry_refused : (eager 116).sprintReady = true ∧ 6912 ≤ (eager 116).weir.sprint.residency ∧
    (run .sprintEntry (eager 116)).reg .WEIR_STATUS 0 0 = 0x7004 ∧ (run .sprintEntry (eager 116)).weir.sprint.on = false := by
  decide

theorem test_effectiveCap : ((capped 0 8).setReg .WEIR_CAP_ODROV_MW 0 0 20000).effCap = 35000 ∧ (capped 0 8).effCap = 60000 ∧
    up.effCap = 0 := by decide
/-! ## Registers -/

theorem test_registerWrite :
    let s := run (.registerWrite 0 (regOff .WEIR_CAP_MW 0 0) false 0x0000_0001_0000_EA60) up
    up.barUp 0 = true ∧ (up.fnReg 0 (regOff .WEIR_CAP_MW 0 0)).map (fun l => (l.row.acc, l.row.wide, isDelay l)) =
        some (.rw, false, false) ∧
      s.reg .WEIR_CAP_MW 0 0 = 60000 ∧ s.reg .WEIR_TJ_LIMIT 0 0 = up.reg .WEIR_TJ_LIMIT 0 0 := by decide

theorem test_registerWrite_to_ro : (up.fnReg 0 (regOff .GLB_ID 0 0)).map (fun l => l.row.acc) = some .ro ∧
    run (.registerWrite 0 (regOff .GLB_ID 0 0) false 5) up = up := by decide

theorem test_w1sWrite :
    let s := up.setReg .AOW_CTRL 0 0 0
    (s.fnReg 0 (regOff .AOW_CTRL 0 0)).map (fun l => l.row.acc) = some .rw ∧
      (run (.w1sWrite 0 (regOff .AOW_CTRL 0 0) 1) s).reg .AOW_CTRL 0 0 = 1 := by decide

/-- R7: of two pending bits written 1, the one that hardware sets in the same cycle remains. -/
theorem test_w1cWrite :
    let s := up.setReg .AOW_HIT 0 0 0x7
    (s.fnReg 0 (regOff .AOW_HIT 0 0)).map (fun l => l.row.acc) = some .w1c ∧
      (run (.w1cWrite 0 (regOff .AOW_HIT 0 0) 0x3 0x2) s).reg .AOW_HIT 0 0 = 0x6 := by decide

theorem test_w1cWrite_pending :
    let s := { up.setReg .ICU_SRC_CFG 0 17 5 with icu := { up.icu with pend := 0x30000 } }
    (s.fnReg 0 (regOff .ICU_PEND 0 1)).map (fun l => (l.row.acc, l.idx)) = some (.w1c, 1) ∧
      (run (.w1cWrite 0 (regOff .ICU_PEND 0 1) 0x2 0) s).icu.pend = 0x10000 := by decide

/-- R8: the read returns the count before the event, and the event stays. -/
theorem test_rcRead :
    let s := up.setReg .HEP_CNT_UR 0 0 5
    let t := run (.rcRead 0 (regOff .HEP_CNT_UR 0 0) 1) s
    (s.fnReg 0 (regOff .HEP_CNT_UR 0 0)).map (fun l => l.row.acc) = some .rc ∧
      t.out = [.completion 0 .ok [5, 0, 0, 0]] ∧ t.reg .HEP_CNT_UR 0 0 = 1 := by decide

theorem test_rcRead_pool_fail :
    let s := { pooled 0 with pools := [{ pool5 0 with fails := 9 }] }
    let t := run (.rcRead 0 (regOff .CISTERN_POOL_FAIL 0 5) 1) s
    (s.pool 5).map (·.fails) = some 9 ∧ t.out = [.completion 0 .ok [9, 0, 0, 0]] ∧ (t.pool 5).map (·.fails) = some 1 := by decide

theorem test_lowWordRead :
    let s := up.setReg .TC_CNT_UPDATES 2 0 0x0000000700000003
    let t := run (.lowWordRead 0 (regOff .TC_CNT_UPDATES 2 0)) s
    (s.fnReg 0 (regOff .TC_CNT_UPDATES 2 0)).map (fun l => (l.row.wide, l.high)) = some (true, false) ∧
      t.out = [.completion 0 .ok [3, 0, 0, 0]] ∧ (t.fn 0).readShadow = some (regOff .TC_CNT_UPDATES 2 0, 7) ∧
      s.inBar 0 0 (regOff .TC_CNT_UPDATES 2 0 + 4) 4 = true ∧ t.memEnabled 0 = true ∧
      (run (.hostMemoryRequest 0 0 (regOff .TC_CNT_UPDATES 2 0 + 4) (.read 4)) (t.setReg .TC_CNT_UPDATES 2 0 0)).out =
        [.completion 0 .ok [3, 0, 0, 0], .completion 0 .ok [7, 0, 0, 0]] := by decide

theorem test_word_writes :
    let o := regOff .THYME_SNAP_AT 0 0
    let t := run (.lowWordWrite 0 o 0x11) up
    (up.fnReg 0 o).map (fun l => (l.row.wide, l.row.acc)) = some (true, .rw) ∧ t.reg .THYME_SNAP_AT 0 0 = 0 ∧
      (t.fn 0).writeShadow = some (o, 0x11) ∧
      (run (.highWordWrite 0 (o + 4) 0x22) t).reg .THYME_SNAP_AT 0 0 = 0x0000002200000011 := by decide

theorem test_reserved_space : up.linkAlive = true ∧ up.memEnabled 0 = true ∧ up.inBar 0 0 0xF0000 8 = true ∧
    regAt 0xF0000 = none ∧ regAt 0xF0004 = none ∧
    (run (.hostMemoryRequest 0 0 0xF0000 (.read 8)) up).out = [.completion 0 .ok [0, 0, 0, 0, 0, 0, 0, 0]] := by decide

/-! ## Interrupts, Thyme, observation -/

theorem test_sourceEdge :
    let s := up.setReg .ICU_SRC_CFG 0 5 3
    sourceExists s.dev.part 5 = true ∧ s.clocked = true ∧ s.srcMode 5 ≠ 0 ∧ s.icu.cond.getLsbD 5 = false ∧
      (let t := run (.sourceEdge 5 true) s
       t.icu.pend.getLsbD 5 = true ∧ t.icu.cond.getLsbD 5 = true ∧ t.icu.pend.getLsbD 4 = false) ∧
      (run (.sourceEdge 5 false) (run (.sourceEdge 5 true) s)).icu.cond.getLsbD 5 = false := by decide

/-- Source 5 pending in an edge mode, MSI-X on and vector 5 unmasked, hold-off of 2 for group 0. -/
def loud : State :=
  let s := ((up.setReg .ICU_SRC_CFG 0 5 5).setReg .ICU_CTRL 0 0 1).setReg .ICU_HOLDOFF 0 0 2
  { s with icu := { s.icu with pend := 0x20 }
           fns := [(0, { FnState.reset with cfg := [(4, 0x06#8), (0xB3, 0x80#8)], msix := [(23, 0)] })] }

theorem test_groupDelivery : loud.groupSendable 0 = [5] ∧ loud.regBit .ICU_CTRL 0 0 0 = true ∧
    SMap.get (fun _ => 0) loud.icu.timers 0 = 0 ∧
    (let t := run (.groupDelivery 0) loud
     t.out = [.interrupt 0 5 true] ∧ t.icu.pend = 0 ∧ SMap.get (fun _ => 0) t.icu.timers 0 = 1000 ∧
       t.reg .ICU_GRP_CNT 0 0 = 1) := by decide

theorem test_holdoffExpire :
    let s := run (.groupDelivery 0) loud
    SMap.get (fun _ => 0) s.icu.timers 0 ≠ 0 ∧ (run (.holdoffExpire 0) s).icu.timers = [] := by decide

theorem test_aowMatch :
    let s := { (up.setReg .AOW_WATCH 0 6 0x8010).setReg .AOW_CTRL 0 0 1 with dev := { up.dev with life := .standby } }
    s.slotMatches 6 = true ∧ (run (.aowMatch 6) s).reg .AOW_HIT 0 0 = 0x40 ∧ (run (.aowMatch 6) s).dev.pins.wake = true := by
  decide

theorem test_aowTimerExpire :
    let s := { up.setReg .AOW_TIMER_MS 0 0 9 with dev := { up.dev with life := .standby } }
    s.dev.life = .standby ∧ s.regNat .AOW_TIMER_MS 0 0 ≠ 0 ∧ (run .aowTimerExpire s).reg .AOW_TIMER_MS 0 0 = 0 := by decide

theorem test_watchdogExpire : processorWatched up.dev.part (.decoder 3) = true ∧
    (let t := run (.watchdogExpire (.decoder 3)) up
     t.reg .ICU_ADVISE 0 0 = 4 ∧ t.icu.log.map (fun x => (x.status, x.index, x.seq)) = [(0x9010, 3, 0)]) := by decide

theorem test_elog_merges :
    let t := run (.watchdogExpire .weir) (run (.watchdogExpire .weir) up)
    t.icu.log.map (·.rep) = [2] ∧ t.icu.logHead = 1 := by decide

theorem test_thymeSet : up.dev.role = true ∧ (run (.thymeSet 77) up).thy.now = 77 ∧
    (run (.thymeSet 77) { up with dev := { up.dev with role := false } }).thy.now = 0 := by decide

/-- Alarm 1 at 100 ns with the counter at 1,250 ns. -/
def alarmed (period : Nat) : State :=
  let s := ((edge up 21).setReg .THYME_ALARM 0 1 100).setReg .THYME_ALARM_CTRL 0 1 (BitVec.ofNat 64 (1 + period * 2 ^ 8))
  { s with thy := { s.thy with now := 1250 } }

theorem test_alarmFire : (alarmed 0).regBit .THYME_ALARM_CTRL 0 1 0 = true ∧
    ((alarmed 0).reg .THYME_ALARM 0 1).toNat ≤ (alarmed 0).thy.now.toNat ∧ (alarmed 0).alarmPeriod 1 = 0 ∧
    (let t := run (.alarmFire 1) (alarmed 0)
     t.icu.pend.getLsbD 21 = true ∧ t.regBit .THYME_ALARM_CTRL 0 1 0 = false ∧ t.reg .THYME_ALARM 0 1 = 100) := by decide

theorem test_tsyncFrame_sound : frameSound (tsyncBits 5000000) = true ∧ frameT (tsyncBits 5000000) = 5000000 ∧
    frameSound (tsyncBits 5000000 ^^^ 1) = false := by decide

theorem test_tsyncFrameSend :
    let s := { up with thy := { up.thy with now := 3999999 } }
    s.clocked = true ∧ s.dev.role = true ∧ (run .tsyncFrameSend s).out = [.tsyncFrame (tsyncBits 3000000)] := by decide

/-- A follower whose last frame was that of 4,000,000 ns. -/
def follower (l : Lock) (good : Nat) : State :=
  { up with dev := { up.dev with role := false }
            thy := { up.thy with now := 5000300, lock := l, good := good, prev := some (4000000, 4000280) } }

theorem test_tsyncFrameReceive :
    let t := run (.tsyncFrameReceive 5000290 (tsyncBits 5000000)) (follower .acquiring 7)
    (follower .acquiring 7).dev.role = false ∧ intervalOk (follower .acquiring 7).thy.prev 5000000 5000290 = true ∧
      t.thy.offset = -290 ∧ t.reg .THYME_CNT_FRAME 0 0 = 1 ∧ t.thy.lock = .acquiring ∧ t.thy.now = 5000300 := by decide

theorem test_tsyncFrameReceive_bad :
    let t := run (.tsyncFrameReceive 5000290 (tsyncBits 5000000 ^^^ 1)) (follower .acquiring 7)
    t.reg .THYME_CNT_BADFRAME 0 0 = 1 ∧ t.thy = (follower .acquiring 7).thy ∧ t.out = [.tsyncFrame (tsyncBits 5000000 ^^^ 1)] := by
  decide

theorem test_tsyncTimeout :
    let t := run .tsyncTimeout (follower .locked 9)
    (follower .locked 9).thy.lock = .locked ∧ t.thy.lock = .holdover ∧ t.reg .THYME_CNT_UNLOCK 0 0 = 1 ∧
      t.icu.log.map (·.status) = [0x9020] := by decide

theorem test_snapshotNow :
    let s := { (up.setReg .THYME_SNAP_SEL 0 2 (BitVec.ofNat 64 (2 ^ 31 + regOff .WEIR_CAP_MW 0 0))).setReg .WEIR_CAP_MW 0 0 60000
               with thy := { up.thy with now := 55 } }
    let t := run .snapshotNow s
    s.clocked = true ∧ s.thy.snapBusy = false ∧ t.thy.snapBusy = true ∧ t.reg .THYME_SNAP_TIME 0 0 = 55 ∧
      t.reg .THYME_SNAP_SEQ 0 0 = 1 ∧ t.reg .THYME_SNAP_VAL 0 2 = 60000 ∧
      (run .snapshotNow t).reg .THYME_CNT_SNAPDROP 0 0 = 1 := by decide

theorem test_snapInEdge :
    let s := (edge up 18).setReg .THYME_SNAP_CFG 0 0 1
    s.regBit .THYME_SNAP_CFG 0 0 0 = true ∧ (run .snapInEdge s).thy.snapCause = 1 ∧
      (run .snapInEdge s).icu.pend.getLsbD 18 = true := by decide

theorem test_snapshotTimeMatch :
    let s := { (up.setReg .THYME_SNAP_CFG 0 0 2).setReg .THYME_SNAP_AT 0 0 40 with thy := { up.thy with now := 45 } }
    let t := run .snapshotTimeMatch s
    s.regBit .THYME_SNAP_CFG 0 0 1 = true ∧ (s.reg .THYME_SNAP_AT 0 0).toNat ≤ s.thy.now.toNat ∧
      t.reg .THYME_SNAP_TIME 0 0 = 40 ∧ t.thy.snapCause = 2 ∧ t.reg .THYME_SNAP_CFG 0 0 = 0 := by decide

theorem test_snapshotComplete :
    let s := { edge up 7 with thy := { up.thy with snapBusy := true } }
    s.thy.snapBusy = true ∧ (run .snapshotComplete s).thy.snapBusy = false ∧
      (run .snapshotComplete s).icu.pend.getLsbD 7 = true := by decide
/-! ## The host link, resets, boot -/

theorem test_configRequest_read : up.glbUp = true ∧ up.fnEnabled 0 = true ∧
    (run (.configRequest 0 4 2 none) up).out = [.completion 0 .ok [6, 0]] ∧
    (run (.configRequest 1 0 4 none) up).out = [.completion 1 .unsupported []] := by decide

theorem test_configRequest_write :
    let t := run (.configRequest 0 0x3C 1 (some 0xAB)) up
    0x3C / 4 * 4 ∉ [0x44, 0x64, 0x78, 0x288, 0x2A8, 0x2B0] ∧ t.cfgByte 0 0x3C = 0xAB ∧ t.cfgByte 0 4 = 6 := by decide

theorem test_configRequest_retry :
    (run (.configRequest 0 0 4 none) State.reset).out = [.completion 0 .retry []] ∧ State.reset.dev.life = .booting := by decide

theorem test_hostMemoryRequest_unsupported : up.linkAlive = true ∧ up.inBar 0 0 2 4 = true ∧ up.memEnabled 0 = true ∧
    up.inBar 0 1 0 4 = false ∧
    (run (.hostMemoryRequest 0 1 0 (.read 4)) up).out = [.completion 0 .unsupported []] ∧
    (run (.hostMemoryRequest 0 0 2 (.read 4)) up).reg .HEP_CNT_UR 0 0 = 1 ∧
    (run (.hostMemoryRequest 0 0 0 (.write [1, 2] false)) up).out = [] := by decide

theorem test_host_writes_dram : up.inBar 0 2 64 4 = true ∧ up.dev.recovery ≠ 0x8009 ∧ 64 < dramSize up.dev.part ∧
    up.ldr.state ≠ .loading ∧
    (let t := run (.hostMemoryRequest 0 2 64 (.write [9, 8, 7, 6] false)) up
     t.dramByte 64 = 9 ∧ t.dramByte 67 = 6 ∧ t.dramByte 68 = 0 ∧ t.out = [] ∧
       (run (.hostMemoryRequest 0 2 64 (.read 4)) t).out = [.completion 0 .ok [9, 8, 7, 6]]) := by decide

theorem test_host_meets_windows_and_poison :
    let s := { up.setPoison 2 true with dram := { (up.setPoison 2 true).dram with windows := [Window.mk 1 0 64 68] } }
    s.windowed 64 = true ∧ s.windowed 68 = false ∧
      (run (.hostMemoryRequest 0 2 64 (.read 8)) s).out = [.completion 0 .ok [0xFF, 0xFF, 0xFF, 0xFF, 0, 0, 0, 0]] ∧
      (run (.hostMemoryRequest 0 2 128 (.read 4)) s).out = [.completion 0 .ep [0xFF, 0xFF, 0xFF, 0xFF]] ∧
      (run (.hostMemoryRequest 0 2 128 (.write [1] false)) s).reg .HEP_CNT_PWDISC 0 0 = 1 := by decide

theorem test_vendorDefinedMessage : run (.vendorDefinedMessage 0 .type1) up = up ∧
    (run (.vendorDefinedMessage 0 .type0) up).out = [.vdmUnsupported] := by decide

/-- A rill attached on the device. -/
def polled (failed : Nat) : State :=
  { up with ing := { up.ing with rills := [(7, { Rill.reset with st := .attached, ctx := some 0, ringEntries := 8, failedPolls := failed })] } }

theorem test_deviceReadFail : (polled 7).dev.life = .ready ∧ (polled 7).reading (.ring 7) = true ∧
    (let t := run (.deviceReadFail (.ring 7) 0x1234) (polled 7)
     (t.rill 7).st = .faulted ∧ t.reg .HEP_CNT_RDFAIL 0 0 = 1 ∧ t.reg .HEP_LAST_RDFAIL 0 0 = 0x1234 ∧
       t.reg .HEP_LAST_RDFAIL_INFO 0 0 = 0x6001) := by decide

theorem test_completionTimeout :
    let t := run (.completionTimeout (.ring 7) 0x1234) (polled 0)
    (t.rill 7).st = .attached ∧ t.reg .HEP_CNT_CPLTO 0 0 = 1 ∧ (t.fn 0).lateReads = 1 ∧
      ((run (.lateCompletion 0) t).fn 0).lateReads = 0 := by decide

theorem test_flrInitiate_of_a_vf :
    let s := { up with fns := [(0, { FnState.reset with cfg := [(4, 0x06#8), (0x2A8, 0x09#8), (0x2B0, 3#8)] }),
                               (2, { FnState.reset with cfg := [(4, 0x04#8), (0x45, 0x80#8)] })] }
    let t := run (.flrInitiate 2) s
    s.fnEnabled 2 = true ∧ (s.fn 2).flr = .idle ∧ (t.fn 2).flr = .initiated ∧ (t.fn 2).cfg = [(0x45, 0x80#8)] ∧
      (t.fn 0) = s.fn 0 ∧ s.fnEnabled 4 = false ∧ run (.flrInitiate 4) s = s := by decide

theorem test_flrInitiate_of_the_pf :
    let s := { up with ldr := { up.ldr with state := .loading, load := some (LoadJob.mk 0 320 0 0) } }
    let t := run (.flrInitiate 0) s
    (t.fn 0).flr = .initiated ∧ t.ldr.status = 0x3013 ∧ t.ldr.load = none := by decide

theorem test_dmaSilenced :
    let s := { polled 0 with fns := [(0, { FnState.reset with flr := .initiated })], pools := [{ pool5 2 with owner := 0 }] }
    let t := run (.dmaSilenced 0) s
    (s.fn 0).flr = .initiated ∧ (t.fn 0).flr = .silenced ∧ (t.rill 7).st = .detached ∧ t.pools.map (·.reinit) = [true] := by
  decide

theorem test_flrComplete :
    let s := { up with fns := [(0, { FnState.reset with flr := .silenced, msix := [(23, 0)] })] }
    let t := run (.flrComplete 0) s
    s.flrCanEnd 0 = true ∧ (t.fn 0).flr = .idle ∧ (t.fn 0).msix = [] ∧ t.reg .HEP_CNT_FLR 0 0 = 1 := by decide

theorem test_vfEnable :
    let s := { up with fns := [(0, { FnState.reset with cfg := [(0x2B0, 3#8)] })] }
    let t := run .vfEnableSet s
    t.vfEnable = true ∧ t.fnEnabled 3 = true ∧ t.fnEnabled 4 = false ∧ ((run .vfEnableClear t).fn 3).flr = .initiated ∧
      (run .vfEnableClear t).vfEnable = false := by decide

theorem test_d3hotEntry : (up.fn 0).d3hot = false ∧ ((run (.d3hotEntry 0) up).fn 0).d3hot = true ∧
    ((run (.d3hotEntry 0) up).fn 0).flr = .initiated := by decide

theorem test_standbyEntry :
    let s := { up with fns := [(0, { FnState.reset with cfg := [(0x44, 3#8)] })], dram := { up.dram with bytes := [(5, 9)] } }
    let t := run .standbyEntry s
    (s.fn 0).d3hot = true ∧ s.vfEnable = false ∧ t.dev.life = .standby ∧ t.dramByte 5 = 9 ∧ t.dev.pins.stby = true := by decide

theorem test_perstAssert : up.dev.life ∉ [.noAux, .auxReset, .hardStop] ∧
    (let t := run .perstAssert (up.setReg .AOW_CTRL 0 0 1)
     t.dev.life = .held ∧ t.reg .AOW_CTRL 0 0 = 1 ∧ t.dev.pins.perst = true ∧ t.fns = []) := by decide

/-- What a boot finds on a good device. -/
def good : BootFinds := BootFinds.mk true 0x1F 0x1F true

theorem test_fundamentalReset :
    let s := run .perstAssert { up with dev := { up.dev with hardStopRec := true } }
    let t := run (.fundamentalReset { good with keyOk := false }) s
    s.dev.life = .held ∧ s.dev.pins.perst = true ∧ s.dev.hardStopRec = true ∧ s.sage.mbox = none ∧ t.dev.life = .booting ∧
      t.dev.recovery = 0x8009 ∧ t.reg .SAGE_BOOT 0 0 = 0x8009 ∧ t.reg .WEIR_STATUS 0 0 = 0x7021 ∧ t.dev.hardStopRec = false ∧
      t.icu.log.map (·.status) = [0x7021] ∧ s.bootSlot good 0 = some false ∧ run (.fundamentalReset good) up = up := by decide

/-- R440, R441, R442: Sage starts with keys from slot B where slot A does not verify; without a slot that does there is recovery. -/
theorem test_boot_of_the_subsystems :
    let f := { good with slotA := 0x1E }
    let n := { good with slotA := 0x0F, slotB := 0x0F }
    up.bootSlot f 0 = some true ∧ (up.bootSubs f (bootList up.dev.part)).reg .SAGE_BOOT 0 0 = 0x10000 ∧
      (up.bootSubs f (bootList up.dev.part)).sage.keys.isSome = true ∧
      (up.bootSubs f (bootList up.dev.part)).dev.recovery = 0 ∧ up.bootSlot n 4 = none ∧
      (up.bootSubs n (bootList up.dev.part)).dev.recovery = 0x8010 := by decide

theorem test_hotReset : up.linkAlive = true ∧ (run (.hotReset { good with keyOk := false }) up).dev.life = .booting ∧
    (run (.hotReset { good with keyOk := false }) up).fns = [] := by decide

theorem test_deviceReady : State.reset.dev.life = .booting ∧ (run .deviceReady State.reset).dev.life = .ready ∧
    (run .deviceReady { State.reset with dev := { State.reset.dev with recovery := 0x8010 } }).dev.life = .recovery := by decide

theorem test_vauxApply_and_aoPorRelease :
    let s := { up with dev := { up.dev with life := .noAux, rails := { up.dev.rails with aux := false } } }
    let t := run .vauxApply s
    t.dev.life = .auxReset ∧ t.dev.rails.aux = true ∧ (run .aoPorRelease t).dev.life = .held := by decide

theorem test_railRemoval : (run (.railRemoval .soc) up).dev.life = .held ∧ (run (.railRemoval .aux) up).dev.life = .noAux ∧
    faultOf (.railRemoval .dram) { up with dev := { up.dev with life := .standby } } = some .railOutOfRange := by decide

theorem test_linkUp : (run (.linkUp 6 16 false) up).dev.link = LinkSt.mk 6 16 true false ∧ run (.linkUp 7 16 false) up = up := by
  decide
/-! ## Sage, Odrov, the board -/

def verified : Verdict := Verdict.mk true true

/-- A mailbox command in progress. -/
def busyWith (c : MboxCmd) (sub goal : Nat) : State :=
  { edge up 10 with sage := { up.sage with mbox := some (MboxJob.mk c sub 0 64 0 goal) } }

theorem test_mailbox_busy : (busyWith .commit 1 1).dev.life = .ready ∧ (busyWith .commit 1 1).sage.mbox ≠ none ∧
    (run (.commit 2) (busyWith .commit 1 1)).reg .SAGE_MBOX_STATUS 0 0 = 0x8011 ∧
    (run (.commit 2) (busyWith .commit 1 1)).sage = (busyWith .commit 1 1).sage := by decide

theorem test_writeSlot_in_service :
    let s := { edge up 10 with dev := { up.dev with flash := { up.dev.flash with inService := 2 } } }
    s.sage.mbox = none ∧ s.dev.flash.inService.getLsbD 1 = !s.dev.flash.table.activeB.getLsbD 1 ∧
      (run (.writeSlot 1 verified) s).reg .SAGE_MBOX_STATUS 0 0 = 0x8012 := by decide

theorem test_writeSlot_refused : (run (.writeSlot 1 verified) up).reg .SAGE_MBOX_STATUS 0 0 = 0x8004 := by decide

theorem test_writeBoard :
    let s := (edge up 10).setReg .SAGE_SUPPLY 0 0 3
    s.ldr.state = .empty ∧ s.supplyOk = true ∧ s.dev.flash.table.seq ≠ 0xFFFFFFFF#32 ∧
      rangeStatus s.dev.part s.mboxAddr 4096 = none ∧ s.readPoison portFw s.mboxAddr 4096 = none ∧
      ((run .writeBoard s).sage.mbox.map (·.cmd)) = some .writeBoard := by decide

theorem test_activate :
    let s := (edge up 10).setReg .SAGE_SUPPLY 0 0 3
    s.dev.flash.table.valid 4 true = true ∧ s.fwVerdict 4 (s.dev.flash.slot 4 true).security verified = none ∧
      (let t := run (.activate 4 verified) s
       t.dev.flash.table.activeB.getLsbD 4 = true ∧ t.sage.pendingSwitch.getLsbD 4 = true) := by decide

theorem test_commit : (run (.commit 2) up).sage.mbox = some (MboxJob.mk .commit 2 0 0 0 0) ∧
    (up.inService 2).security ≤ counterVal (up.dev.fuses.fw 2) := by decide

theorem test_advanceImage : (run .advanceImage (edge up 10)).reg .SAGE_MBOX_STATUS 0 0 = 0x8012 ∧ up.imageLoaded = false := by decide

theorem test_mailboxCommandComplete_commit :
    let t := run .mailboxCommandComplete (busyWith .commit 1 3)
    t.sage.mbox = none ∧ t.reg .SAGE_MBOX_STATUS 0 0 = 0 ∧ counterVal (t.dev.fuses.fw 1) = 3 ∧
      counterVal (t.dev.fuses.fw 0) = 0 ∧ t.icu.pend.getLsbD 10 = true := by decide

theorem test_mailboxCommandComplete_advance :
    counterVal (run .mailboxCommandComplete (busyWith .advanceImage 0 2)).dev.fuses.arbImage = 2 := by decide

theorem test_firmwareSwitch :
    let s := { up with sage := { up.sage with pendingSwitch := 8 }
                       dev := { up.dev with flash := { up.dev.flash with copy0 := { up.dev.flash.copy0 with activeB := 8 } } } }
    s.maySwitch 3 0 = true ∧ (run (.firmwareSwitch 3 0) s).dev.flash.inService = 8 ∧
      (run (.firmwareSwitch 3 0) s).sage.pendingSwitch = 0 := by decide

theorem test_supplySample :
    let t := run (.supplySample 3049 1700) (busyWith .writeBoard 0 0)
    (run (.supplySample 3050 1700) up).reg .SAGE_SUPPLY 0 0 = 3 ∧ t.reg .SAGE_SUPPLY 0 0 = 2 ∧
      t.reg .SAGE_MBOX_STATUS 0 0 = 0x8021 ∧ t.icu.log.map (·.status) = [0x8021] := by decide

theorem test_fwVerdict : (up.fwVerdict 1 0 (Verdict.mk false true)) = some 0x8005 ∧
    (up.fwVerdict 1 0 (Verdict.mk true false)) = some 0x8006 ∧ up.fwVerdict 1 0 verified = none ∧
    ({ up with dev := { up.dev with fuses := { up.dev.fuses with arbFw := [(1, 1)] } } }.fwVerdict 1 0 verified) = some 0x8007 := by
  decide

theorem test_fwVerify_met : rangeStatus up.dev.part 0 64 = none ∧ up.readPoison portFw 0 64 = none ∧
    up.fwVerify 1 0 64 verified = some 0x8004 := by decide

theorem test_spdmRequest : up.versionSeen .doe = false ∧
    (run (.spdmRequest .doe .challenge false false []) up).out = [.spdmReply .doe true []] ∧
    (run (.spdmRequest .doe .challenge false false []) up).reg .SAGE_CNT_SPDM 0 0 = 1 ∧
    (run (.spdmRequest .doe .getVersion false false [7]) up).sage.doeConn = some [[7]] ∧
    (run (.spdmRequest .doe .challenge false false [8]) (run (.spdmRequest .doe .getVersion false false [7]) up)).sage.doeConn =
      some [[7], [8]] ∧
    (run (.spdmRequest .doe .challenge false true []) up).reg .SAGE_CNT_SPDM 0 0 = 0 := by decide

/-- R443, R445: the measurements are part of what the answer to GET_MEASUREMENTS is made of, and of no other. -/
theorem test_spdmInput : up.spdmInput .getMeasurements [1] = [1] ++ up.measurements.flatMap digestBytes ∧
    up.spdmInput .challenge [1] = [1] ∧ up.measurements.length = 9 := by
  refine ⟨rfl, rfl, rfl⟩

theorem test_mctpMessage : up.bindingOn .smbus = true ∧
    (let t := run (.mctpMessage .smbus (.pldmSetCap 60)) (edge up 17)
     capInRange up.dev.part 60 = true ∧ t.reg .WEIR_CAP_ODROV_MW 0 0 = 60000 ∧ t.reg .ODROV_CNT_RX 0 0 = 1 ∧
       t.icu.pend.getLsbD 17 = true) ∧
    capInRange up.dev.part 9 = false ∧ (run (.mctpMessage .smbus (.pldmSetCap 9)) up).out = [.pldmError .smbus .outOfRange] ∧
    (run (.mctpMessage .smbus (.setEndpointId 9)) up).sage.eidSmb = 9 ∧
    (run (.mctpMessage .smbus .pldmOther) up).out = [.pldmError .smbus .invalidType] ∧
    (run (.mctpMessage .smbus .other) up).reg .ODROV_CNT_ERR 0 0 = 1 := by decide

/-- R359, R447: the state sensor, and the AO responder alone. -/
theorem test_mctpMessage_ao :
    let s := { up with dev := { up.dev with life := .standby } }
    let b := { up with weir := { up.weir with brake := true } }
    s.bindingOn .smbus = true ∧ s.dev.life ≠ .ready ∧ s.dev.life ≠ .recovery ∧
      (run (.mctpMessage .smbus (.pldmSetCap 60)) s).out = [.pldmError .smbus .notReady] ∧
      run (.mctpMessage .vdm (.pldmSetCap 60)) s = s ∧ b.sensor 3 true = some 1 ∧
      (run (.mctpMessage .smbus (.pldmSensor 3 true)) b).out = [.mctpReply .smbus [1]] ∧
      (run (.mctpMessage .smbus (.pldmSensor 4 false)) b).out = [.pldmError .smbus .outOfRange] := by decide

theorem test_counterVal : counterVal 0 = 0 ∧ counterVal 0xFFFFFFFFFFFFFFFF = 64 ∧ counterVal 5 = 2 := by decide
/-! ## Images -/

/-- Little-endian fields, as (address, size, value), written into empty memory. -/
def fields (l : List (Nat × Nat × Nat)) : Mem := l.foldl (fun m x => Mem.writeList m x.1 (leBytes x.2.1 x.2.2)) []

/-- An image of 640 bytes at address 0, written out from Tables 2.1 to 2.8: header, directory of PARTITION and
CONTEXT_TABLE, a pool region and a save region, and one decode context. -/
def smallImage : Mem :=
  fields [(0x00, 4, 0x544C5541), (0x04, 2, 1), (0x08, 4, 128), (0x0C, 4, 640), (0x18, 8, 0x1234), (0x28, 2, 2), (0x2C, 4, 0x80),
    (0x80, 2, 1), (0x84, 4, 0xC0), (0x88, 4, 0x90), (0xA0, 2, 2), (0xA4, 4, 0x180), (0xA8, 4, 64), (0xAC, 4, 1),
    (0xC0, 2, 2), (0xD0, 8, 2 ^ 64 - 1), (0xE0, 64, 2 ^ 512 - 1), (0x120, 8, 0x200000), (0x128, 8, 0x200000), (0x132, 2, 0xFFFF),
    (0x138, 8, 0x400000), (0x140, 8, 0x200000), (0x148, 2, 4), (0x14A, 2, 0xFFFF), (0x180, 2, 3), (0x18F, 1, 1),
    (0x19C, 12, 2 ^ 96 - 1)]

/-- The image staged, and a load of it taken. -/
def staged : State :=
  let s := (edge up 0).setReg .GLB_IMG_LEN 0 0 640
  { s with dram := { s.dram with bytes := smallImage } }

def loadingImage : State := run .imgLoad staged

theorem test_imgLoad : staged.dev.life = .ready ∧ staged.loaderBusy = false ∧ staged.ldr.locked = false ∧
    loadingImage.ldr.state = .loading ∧ loadingImage.ldr.load = some (LoadJob.mk 0 640 0 0) ∧
    (run .imgLoad loadingImage).ldr.status = 0x3012 := by decide

theorem test_imgLoad_passes : loadingImage.checkImage (LoadJob.mk 0 640 0 0) false verified = none := by decide

/-- R57, R474: the checks have ended and the placement has begun. -/
def placingImage : State := run (.imgLoadComplete ⟨true, verified⟩) loadingImage

theorem test_imgLoadComplete :
    let t := run (.imgLoadComplete ⟨false, verified⟩) placingImage
    loadingImage.weir.coolant = .none ∧ loadingImage.dev.dramMode = .running ∧ placingImage.ldr.placing = true ∧
      placingImage.ldr.state = .loading ∧ t.ldr.state = .loaded ∧ t.ldr.status = 0 ∧ t.ldr.placing = false ∧
      t.ldr.image.ctxs.map (·.id) = [3] ∧ (run (.imgLoadComplete ⟨false, verified⟩) loadingImage).ldr.state = .loaded := by decide

theorem test_imgLoadComplete_refused :
    let t := run (.imgLoadComplete ⟨true, (Verdict.mk true false)⟩) loadingImage
    t.ldr.state = .refused ∧ t.ldr.status = 0x8002 ∧ t.ldr.failSection = 0xFFFF ∧ t.icu.pend.getLsbD 0 = true := by decide

theorem test_antiRollback_of_images :
    let s := { loadingImage with dev := { up.dev with fuses := { up.dev.fuses with arbImage := 1 } } }
    ((s.checkHeader (LoadJob.mk 0 640 0 0) (s.stageOf (LoadJob.mk 0 640 0 0) false) verified).map (·.status)) =
        some Status.imgRollback ∧
      loadingImage.checkHeader (LoadJob.mk 0 640 0 0) (loadingImage.stageOf (LoadJob.mk 0 640 0 0) false) verified = none := by
  decide

/-- A device with an image loaded. -/
def loaded (i : Image) : State :=
  let s := edge up 0
  { s with ldr := { s.ldr with state := .loaded, image := i } }

theorem test_imgLock : (loaded Image.empty).glbUp = true ∧ (run .imgLock (loaded Image.empty)).ldr.locked = true ∧
    (run .imgLock up).ldr.status = 0x3015 ∧ (run .imgUnload (run .imgLock (loaded Image.empty))).ldr.status = 0x3014 := by decide

theorem test_imgUnload :
    let s := { loaded Image.empty with
      pools := [pool5 1], slu := { up.slu with cmds := [(4, CmdRun.mk 0 0 0 [] 0 0 [] false [])],
                                               cores := [(9, { Core.reset with st := .running, ctx := 4 })] }
      weir := { up.weir with live := [.core 9] } }
    let t := run .imgUnload s
    s.loaderBusy = false ∧ s.coreRuns 9 = true ∧ t.ldr.state = .unloading ∧ t.pools = [] ∧ (t.core 9).st = .killing ∧
      (run .imgUnloadComplete t).ldr.state = .empty := by decide

/-- A base with segment 5 over two regions of kind 2, and an image of that segment with one WEIGHTS section staged. -/
def swapping : State :=
  let r := fun k => Region.mk (0x200000 * k) 0x200000 2 0xFFFF
  let s := (loaded { Image.empty with
    imageId := 0x1234, segs := [SegEntry.mk 5 0 1 []], regions := [r 1, r 2] }).setReg .GLB_IMG_LEN 0 0 448
  { s with
    ldr := { s.ldr with segs := [SegRun.mk 5 false false 0 0 0 [] [] [] []] }
    dram := { s.dram with bytes := fields [(0x00, 4, 0x544C5541), (0x04, 2, 1), (0x08, 4, 128), (0x0C, 4, 448), (0x18, 8, 0x1234),
      (0x28, 2, 1), (0x2A, 2, 4), (0x2C, 4, 0x80), (0x80, 2, 9), (0x84, 4, 0xC0), (0x88, 4, 64), (0x90, 8, 0x400000), (0x98, 2, 5),
      (0xC0, 4, 0x12345678)] } }

theorem test_imgSwap : swapping.ldr.state = .loaded ∧ swapping.loaderBusy = false ∧
    swapping.checkImage swapping.sampleJob true verified = none ∧
    (run (.imgSwap verified) swapping).ldr.swap.map (·.seg) = some 5 := by decide

theorem test_swapComplete :
    let t := run .swapComplete (run (.imgSwap verified) swapping)
    t.ldr.swapCount = 1 ∧ t.ldr.swap = none ∧ t.ldr.segs.map (fun g => (g.activeB, g.retiring, g.epoch)) = [(true, true, 1)] ∧
      t.dramRd 0x400000 4 = 0x12345678 := by decide

theorem test_segmentRetire :
    let s := { loaded Image.empty with ldr := { (loaded Image.empty).ldr with segs := [SegRun.mk 5 true true 1 0 1 [] [] [] []] } }
    s.switched 0 = true ∧ s.inFlight (s.ctxsOfSeg 5) = [] ∧ (run (.segmentRetire 5) s).ldr.segs.map (·.retiring) = [false] := by decide
/-! ## Ingest and decode -/

/-- Class 2: MJPEG 4:2:0 up to 64 by 64 at 30 frames a second, its rills bound to engine 0, pools 5 and 6. -/
def class2 : RillClass :=
  { id := 2, codec := 3, maxDepth := 8, maxWidth := 64, maxHeight := 64, profileMask := 1, maxLevel := 0, flags := 0
    rateNum := 30, rateDen := 1, pollUs := 1000, budgetFactor := 0, firstCtx := 0xFFFF, staleUs := 0 }

def videoImage : Image :=
  { Image.empty with
    classes := [class2]
    binds := [{ cls := 2, engineMask := 1, contexts := 1, auPool := 5, framePool := 6, cacheFrames := 1 }] }

/-- An attached rill 4 whose ring lies at 0x1000 of function 0. -/
def rill4 : Rill := { Rill.reset with st := .attached, att := 1, cls := 2, ringAddr := 0x1000, ringEntries := 16, ctx := some 0 }

def dec0 : DecCtx := DecCtx.freed
  { bind := 0, rill := none, queue := [], hdr := none, pic := none, held := [], refs := [], nextPic := 0, refusing := none
    a0 := 0, avg := 0, order := 0, substituting := false, disc := 0, state := 0 }

/-- Ingest runs, with rill 4 attached to decode context 0, and pools 5 and 6. -/
def filming (x : Rill) (d : DecCtx) : State :=
  let s := ((loaded videoImage).setReg .INGEST_CTRL 0 0 1).setReg .INGEST_REG_COUNT 0 0 1
  { s with
    pools := [{ pool5 1 with owner := 0xFFFF }, { pool5 1 with id := 6, owner := 0xFFFF, size := 0x10000, cache := [Handle.mk 0x100000 6] }]
    weir := { s.weir with live := [.decode 0] }
    ing := { s.ing with rills := [(4, x)], ctxs := [(0, d)] } }

def shooting : State := filming rill4 { dec0 with rill := some 4 }

/-- A ring header with a write index (Table 8.1), and a descriptor (Table 8.2). -/
def ringHead (w : Nat) : ReadRes (List Byte) := .ok (leBytes 4 w ++ List.replicate 60 0)

def descBytes (n flags : Nat) : List Byte :=
  leBytes 8 0x2000 ++ leBytes 4 n ++ leBytes 2 flags ++ leBytes 2 0 ++ leBytes 8 77 ++ leBytes 8 9

def desc (n flags : Nat) : Descriptor := { dataAddr := 0x2000, length := n, flags := flags, reserved := 0, captureTs := 77, cookie := 9 }

theorem test_structures_of_host_memory : readDescriptor (descBytes 8 1) = desc 8 1 ∧ fieldOf (leBytes 4 0x1234 ++ [0, 0]) 0 4 = 0x1234 := by
  decide

theorem test_ringPoll :
    let s := shooting
    let t := run (.ringPoll 4 0 (ringHead 1) [.ok (descBytes 8 1)]) s
    (s.rill 4).ctx = some 0 ∧ s.domainLive (.decode (0 / 128)) = true ∧ s.classOf 4 = some class2 ∧ (s.bindOf 4).isSome = true ∧
      s.canMaster 0 = true ∧ s.weir.coolant = .none ∧ s.regBit .INGEST_CTRL 0 0 0 = true ∧ indexFault (s.rill 4) 1 = false ∧
      descStatus (desc 8 1) (s.poolSize 5) = none ∧ (s.alloc 5).1.isSome = true ∧ s.deterministic = false ∧
      (t.rill 4).copies.map (fun j => (j.captureTs, j.length, j.cookie)) = [(77, 8, 9)] ∧ (t.rill 4).nextIndex = 1 := by
  decide

theorem test_ringPoll_stops :
    let s := shooting
    let u := { s with fns := [] }
    let t := run (.ringPoll 4 0 (ringHead 1) [.ok (descBytes 0 1)]) s
    indexFault (s.rill 4) 17 = true ∧ ((run (.ringPoll 4 0 (ringHead 17) []) s).rill 4).st = .faulted ∧
      u.canMaster 0 = false ∧ (run (.ringPoll 4 0 (ringHead 17) []) u).reg .INGEST_POLL_LATE 0 0 = 1 ∧
      descStatus (desc 0 1) (s.poolSize 5) = some 0x1007 ∧ (t.rill 4).refused = 1 ∧ (t.rill 4).readIndex = 1 ∧
      ((run (.ringPoll 4 0 .failed []) s).rill 4).failedPolls = 1 ∧
      (run (.ringPoll 4 0 (ringHead 0) []) s).rill 4 = s.rill 4 := by decide

/-- An access unit of rill 4 in the buffer `hd 0`. -/
def au0 : AuJob := { rill := 4, status := 0, index := 0, handle := hd 0, length := 2, captureTs := 77, cookie := 9, flags := 0, stamp := 0 }

theorem test_auCopyComplete :
    let s := filming { rill4 with copies := [au0], nextIndex := 1 } { dec0 with rill := some 4 }
    let t := run (.auCopyComplete 4 [0xAB, 0xCD]) s
    (s.rill 4).copies = [au0] ∧ (s.decCtx 0).isSome = true ∧ (s.fn 0).flr = .idle ∧ s.ing.frames = [] ∧ s.poisoned ((hd 0).addr / 64) = false ∧ s.canReach (hd 0).addr 2 = true ∧ (s.pool 5).map (·.cap) = some 64 ∧
      (hd 0).addr + 2 ≤ dramSize s.dev.part ∧ (t.rill 4).readIndex = 1 ∧ (t.decCtx 0).map (·.queue) = some [au0] ∧
      t.dramByte ((hd 0).addr + 1) = 0xCD := by decide

theorem test_statusRecordPeriodic :
    (shooting.rill 4).st.active = true ∧ shooting.canMaster 0 = true ∧
      (run (.statusRecordPeriodic 4) shooting).out.length = 2 ∧
      (run (.statusRecordPeriodic 5) shooting).out = [] := by decide

/-- A registry entry of rill 4 (Table 8.4). -/
def entryBytes (n flags seq : Nat) : List Byte :=
  leBytes 2 seq ++ leBytes 2 4 ++ leBytes 2 2 ++ leBytes 1 0 ++ leBytes 1 flags ++ leBytes 8 0x1000 ++ leBytes 4 n ++ leBytes 4 0 ++
    leBytes 8 0x2000 ++ leBytes 8 0 ++ List.replicate 24 0

def entry4 : RegEntry :=
  { seq := 2, rillId := 4, classId := 2, function := 0, flags := 1, ringAddr := 0x1000, ringEntries := 16, statusAddr := 0x2000
    tag := 0, reserved := 0 }

theorem test_registryScan :
    let s := filming Rill.reset dec0
    let t := run (.registryScan [.ok (entryBytes 16 1 2)] none) s
    readEntry (entryBytes 16 1 2) = entry4 ∧ s.imageLoaded = true ∧ s.regNat .INGEST_SCAN_MS 0 0 ≠ 0 ∧ s.canMaster 0 = true ∧
      (s.rill 4).st = .detached ∧ (s.fn 0).flr = .idle ∧ s.attachCheck entry4 = .inr 0 ∧ (t.rill 4).st = .attached ∧
      (t.rill 4).ctx = some 0 ∧ (t.rill 4).att = 1 ∧ t.reg .INGEST_SCAN_SEQ 0 0 = 1 := by decide

theorem test_registryScan_acts :
    let s := filming Rill.reset dec0
    let u := filming { rill4 with seq := 2 } { dec0 with rill := some 4 }
    let scan (e : List Byte) (s : State) := run (.registryScan [.ok e] none) s
    s.attachCheck { entry4 with ringEntries := 17 } = .inl 0x1020 ∧ ((scan (entryBytes 17 1 2) s).rill 4).st = .refused ∧
      ((scan (entryBytes 16 0 2) u).rill 4).st = .draining ∧ (scan (entryBytes 16 1 2) u).rill 4 = u.rill 4 ∧
      ((scan (entryBytes 16 1 4) u).rill 4).recorded = some (0, { entry4 with seq := 4 }) ∧
      (run (.registryScan [.ok (entryBytes 16 1 2)] none) { s with fns := [] }).ing.scanPending = true ∧
      (run (.registryScan [] (some 0)) s).ing.scanPending = true := by decide

theorem test_rillDrainComplete :
    let s := filming { rill4 with st := .draining } { dec0 with rill := some 4 }
    let t := run (.rillDrainComplete 4) s
    s.drained 4 = true ∧ s.weir.coolant = .none ∧ (s.rill 4).recorded = none ∧ (t.rill 4).st = .detached ∧
      (t.decCtx 0).map (·.rill) = some none := by decide

def hdr16 : SeqHdr :=
  { width := 16, height := 16, bitDepth := 8, chroma := 0, profile := 0, level := 0, matrix := 1, fullRange := false
    cropX := 0, cropY := 0, cropW := 16, cropH := 16 }

def parse16 (h : SeqHdr) : AuParse :=
  { seq := some h, rap := true, toolRefused := false, isRef := true, refs := [], keep := [], ctu := 16, readsPoison := false }

/-- A pool of one handle gives that one. -/
theorem test_alloc_of_one_handle : (shooting.alloc 6).1 = some (Handle.mk 0x100000 6) := by
  change some (([Handle.mk 0x100000 6][Config.freeValue shooting.freeIdx % 1]?).getD (Handle.mk 0x100000 6)) = _
  rw [Nat.mod_one]
  rfl

theorem test_decodeTurn :
    let s := filming rill4 { dec0 with rill := some 4, queue := [au0] }
    let b := { cls := 2, engineMask := 1, contexts := 1, auPool := 5, framePool := 6, cacheFrames := 1 : DecBind }
    let d1 := { dec0 with rill := some 4, nextPic := 1 }
    let t := run (.decodeTurn 0 (parse16 hdr16)) { s with pools := [{ pool5 1 with owner := 0xFFFF }, { pool5 0 with id := 6, owner := 0xFFFF, size := 0x10000 }] }
    let u := run (.decodeTurn 0 (parse16 { hdr16 with width := 80 })) s
    decPresent s.dev.part 0 = true ∧ s.domainLive (.decode (0 / 4)) = true ∧ s.nextReady 0 = some 0 ∧ s.bindOf 4 = some b ∧
      (s.reads (portDec 0) [(au0.handle.addr, au0.length)]).1 = none ∧ s.decReach dec0 b (parse16 hdr16) au0 = true ∧ s.judge class2 b d1 (parse16 hdr16) = none ∧
      rangeStatus s.dev.part 0x100000 (SeqHdrGeo hdr16).size = none ∧ (t.engine 0).current = none ∧
      (t.rill 4).droppedNoBuf = 1 ∧ t.reg .DEC_CNT_NOBUF 0 0 = 1 ∧
      s.judge class2 b d1 (parse16 { hdr16 with width := 80 }) = some 0x1001 ∧
      (u.decCtx 0).bind (·.refusing) = some 0x1001 ∧ (u.rill 4).refused = 1 := by decide

/-- Engine 0 at work on a picture of 16 by 16: A0 is 8 / 3 of 256 (Table 8.8), rounded up. -/
def working : State :=
  let p : Pic :=
    { num := 0, au := au0, hdr := hdr16, handle := Handle.mk 0x100000 6, isRef := true, keep := [], ctu := 16, disc := 0, state := 0
      work := 0, concealed := false, abandoned := false, substituted := false }
  let s := filming rill4 { dec0 with rill := some 4, hdr := some hdr16, pic := some p, nextPic := 1, a0 := 683, avg := 683 }
  { s with ing := { s.ing with engines := [(0, { current := some 0, last := 0, saturated := false })] } }

theorem test_work_in_progress :
    (working.onEngine 0).map (fun x => (x.1, budget x.2.2.2 x.2.1)) = some (0, 20 * 683) ∧ working.engineRuns 0 = true ∧
      nominalWork 3 16 16 = 683 := by decide

theorem test_quantumExpire :
    let s := working.setReg .DEC_QUANTUM_US 0 0 13
    let t := run (.quantumExpire 0 13000) s
    s.regNat .DEC_QUANTUM_US 0 0 * 1000 ≤ 13000 ∧ (t.engine 0).current = none ∧ t.reg .DEC_CNT_WORK 0 0 = 13000 ∧
      (t.decCtx 0).bind (·.pic) ≠ none ∧ (run (.quantumExpire 0 12999) s) = s := by decide

theorem test_pictureComplete :
    let t := run (.pictureComplete 0 1000 [] [0]) working
    (t.engine 0).current = none ∧ (t.decCtx 0).bind (·.pic) = none ∧ (t.decCtx 0).map (·.avg) = some (683 + 19) ∧
      (t.decCtx 0).map (·.refs) = some [0] ∧ t.reg .DEC_CNT_FRAMES 0 0 = 1 ∧ (t.rill 4).framesOut = 1 := by decide

theorem test_budgetExceeded :
    let t := run (.budgetExceeded 0 13661 0 5 [CtuRun.mk 0 8 16] [] [0]) working
    (t.decCtx 0).map (·.avg) = some 683 ∧ (t.rill 4).abandoned = 1 ∧ t.reg .DEC_CNT_ABANDON 0 0 = 1 ∧
      run (.budgetExceeded 0 13660 0 5 [CtuRun.mk 0 8 16] [] [0]) working = working := by decide

theorem test_engineUtilUpdate :
    let s := (edge up 2).setReg .INGEST_SAT_PCT 0 0 95
    let t := run (.engineUtilUpdate 3 950) s
    decPresent s.dev.part 3 = true ∧ (s.engine 3).saturated = false ∧ (t.engine 3).saturated = true ∧
      t.icu.pend.getLsbD 2 = true ∧ ((run (.engineUtilUpdate 3 899) t).engine 3).saturated = false ∧
      ((run (.engineUtilUpdate 3 900) t).engine 3).saturated = true := by decide

/-! ## Array programs on a core -/

/-- The record of a context's array command 0 at 0x100000 (Tables 2.10, 4.3, 5.1 to 5.3): one instruction at 0x40, and at
0x50 an LDT of one tile level of 2 tiles and an output operand at 0x3000. -/
def arrayRecord (op : Nat) : Mem :=
  fields [(0x100000, 2, 4), (0x100004, 4, 0x100), (0x100010, 1, 1), (0x100015, 1, 1), (0x100018, 4, 0x40), (0x10001C, 4, 0x50),
    (0x100040, 16, op), (0x100050, 1, 1), (0x100051, 1, 1), (0x100052, 1, 1), (0x100068, 4, 2), (0x10006C, 4, 2),
    (0x100080, 1, 8), (0x100088, 8, 0x3000)]

def arrayImage : Image :=
  { Image.empty with
    ctxs := [CtxEntry.mk 4 2 0 0 0 1 0 64 0 8 1 0 1000 0 0 0xFFFF [] 0]
    placed := [Placed.mk 0 8 0x100000 0x100 0] }

/-- The record of command 0 of cluster 0. -/
def rec0 : WorkRec := WorkRec.mk 0 0 0x40 false

/-- Core 0 as it runs the one instruction of tile 0. -/
def core0 : Core := { Core.reset with st := .running, ctx := 4, gen := 7, record := rec0, fires := [{ pc := 0, idx := [0] }] }

/-- Context 4 holds cluster 0, its command 0 is issued as `run`, and core 0 is as `c`. -/
def arrayed (op : Nat) (c : Core) (run : SMap CmdRun) : State :=
  let s := loaded arrayImage
  { s with
    dram := { s.dram with bytes := arrayRecord op }
    weir := { s.weir with live := [.core 0, .basin 0] }
    slu := { s.slu with
      ctxs := [(4, { CtxRun.reset with slots := [(0, List.range 8)], step := some (StepRun.mk 0 [] 0 0 [] false) })]
      cmds := run
      cores := [(0, c)]
      holder := [(0, some 4)] } }

def issued0 : CmdRun := CmdRun.mk 0 0 7 [2] 0 0 [rec0] false []

def atOp (op : Nat) (c : Core) : State := arrayed op c [(4, issued0)]

/-- Whether core `n` is at an instruction of an opcode. -/
def turns (n code : Nat) (s : State) : Bool :=
  match s.coreRun n, (s.core n).fires.head? with
  | some r, some fi =>
    (match r.cmd.prog[fi.pc]? with
     | some op => op.opcode == code && (s.core n).st == .running && s.seqRuns n
     | none => false)
  | _, _ => false

theorem turns_atTurn (n code : Nat) (s : State) (h : turns n code s = true) : ∃ r fi op, atTurn n code s r fi op := by
  unfold turns at h
  split at h
  · rename_i r fi hr hf
    split at h
    · rename_i op ho
      simp only [Bool.and_eq_true, beq_iff_eq] at h
      exact ⟨r, fi, op, hr, hf, ho, h.1.1, h.1.2, h.2⟩
    · cases h
  · cases h

theorem test_load :
    let s := atOp 1 core0
    let t := run (.load 0) s
    turns 0 1 s = true ∧ (t.core 0).loads = [LoadRec.mk 0 false 0 1 [(0, 128, 0)] 0 true] ∧ (t.core 0).st = .committing ∧
      run (.stream 0) s = s := by decide

theorem test_load_kept_or_full :
    let l := LoadRec.mk 0 false 0 1 [(0, 128, 0)] 0 true
    let s := atOp (1 + 2 ^ 64) { core0 with kept := [l] }
    let u := atOp 1 { core0 with loads := [l, l, l, l] }
    turns 0 1 s = true ∧ ((run (.load 0) s).core 0).loads = [] ∧ ((run (.load 0) s).core 0).fires = [] ∧
      turns 0 1 u = true ∧ run (.load 0) u = u := by decide

theorem test_loadComplete :
    let s := atOp 1 { core0 with loads := [LoadRec.mk 0 false 0 1 [(0x200000, 128, 0)] 0 true] }
    let t := run (.loadComplete 0) s
    s.coreRuns 0 = true ∧ s.reach [nibRange 0x200000 128] = true ∧ (s.reads (portCl 0) [nibRange 0x200000 128]).1 = none ∧ (t.core 0).loads = [] ∧ (t.core 0).kept.length = 1 ∧
      Mem.nib (t.core 0).bankA 0 = 4 ∧ Mem.nib (t.core 0).bankA 1 = 0 ∧ Mem.nib (t.core 0).bankA 8 = 0 := by decide

theorem test_loadComplete_faults :
    let s := atOp 1 { core0 with loads := [LoadRec.mk 0 false 0 1 [(0x800000000, 128, 0)] 3 true] }
    let t := run (.loadComplete 0) s
    (s.reads (portCl 0) [nibRange 0x800000000 128]).1 = some 0x5001 ∧ t.reg .TC_FAULT 0 0 = 0x35001 ∧ (t.core 0).st = .idle ∧
      t.reg .SLUICE_LAST_FAULT 0 0 = 0x45001 ∧ t.stepOf 4 = none := by decide

theorem test_xscan :
    let s := atOp (2 + 5 * 2 ^ 16) core0
    let t := run (.xscan 0) s
    turns 0 2 s = true ∧ s.weir.coolant = .none ∧ (s.core 0).scanning = none ∧ (t.core 0).scanning.map (·.1) = some 5 ∧ (t.core 0).fires = [] ∧
      (run (.xscan 0) (atOp 2 { core0 with scanning := some (1, 0) })).core 0 = { core0 with scanning := some (1, 0) } := by decide

theorem test_xscanComplete :
    let s := atOp 2 { core0 with scanning := some (5, -3) }
    let t := run (.xscanComplete 0) s
    s.domainLive (.core 0) = true ∧ (t.core 0).scanning = none ∧ ((t.core 0).slot 5).base = -3 ∧
      ((t.core 0).slot 4).base = 0 := by decide

theorem test_init :
    let s := atOp (3 + 5 * 2 ^ 16) { core0 with slots := [(5, { Tile.zero with acc := [(9, 1)], ovf := true, base := 4 })] }
    let t := run (.init ⟨0, false⟩) s
    turns 0 3 s = true ∧ (s.core 0).initing 5 = false ∧ (t.core 0).slot 5 = Tile.zero ∧ (t.core 0).inits = [] ∧
      (t.core 0).fires = [] := by decide

/-- R117: mode 1 asks for the partial, at a killed core its arrival is dropped, and from a reserved address it faults. -/
theorem test_init_of_a_partial :
    let s := atOp (3 + 5 * 2 ^ 16 + 2 ^ 19) core0
    let i := InitRec.mk 5 0x200000 0
    let k := atOp 3 { core0 with st := .killing, inits := [i] }
    let f := atOp 3 { core0 with inits := [InitRec.mk 5 0x800000000 2] }
    turns 0 3 s = true ∧ ((run (.init ⟨0, false⟩) s).core 0).inits.map (fun x => (x.slot, x.pc)) = [(5, 0)] ∧
      k.coreRuns 0 = true ∧ k.reach [(i.addr, 65536)] = true ∧ (run (.init ⟨0, true⟩) k).core 0 = { core0 with st := .killing } ∧
      (k.reads (portCl 0) [(i.addr, 65536)]).1 = none ∧ (f.reads (portCl 0) [(0x800000000, 65536)]).1 = some 0x5001 ∧
      (run (.init ⟨0, true⟩) f).reg .TC_FAULT 0 0 = 0x25001 ∧ run (.init ⟨0, true⟩) s = s := by decide

theorem test_stream_waits :
    let s := atOp (4 + 5 * 2 ^ 16) { core0 with inits := [InitRec.mk 5 0x200000 0] }
    turns 0 4 s = true ∧ (s.core 0).initing 5 = true ∧ run (.stream 0) s = s := by decide

/-- The store regions that a core's STREAM reads. -/
def streamRegions (s : State) : List Nat :=
  match s.coreRun 0, (s.core 0).fires.head? with
  | some r, some fi =>
    (match r.cmd.prog[fi.pc]? with
     | some op => (s.feed 0 r fi op).regions
     | none => [])
  | _, _ => []

theorem test_stream_waits_for_loads :
    streamRegions (atOp (4 + 5 * 2 ^ 16) core0) = [0, 0] ∧ regionsOf false 0 1 = [0] := by decide

/-- The conditions of a STREAM's completion; its 16384 cells are too many for a test. -/
theorem test_stream_runs :
    let s := (atOp (4 + 5 * 2 ^ 16 + 2 * 2 ^ 19) core0).setReg .TC_ARR_CTRL 0 0 1
    turns 0 4 s = true ∧ (s.core 0).loads = [] ∧ (s.core 0).scanning = none ∧ s.regBit .TC_ARR_CTRL 0 0 0 = true ∧
      streamCount { bits := 4 + 5 * 2 ^ 16 + 2 * 2 ^ 19 } 0 0 2 = 3 := by decide

theorem test_accumulate_clamps : accumulate 2147483647 1 = (2147483647, true) ∧ accumulate (-5) 5 = (0, false) ∧
    worseStatus 0x4001 0x4002 = 0x4001 ∧ toFp4 (-1) < 16 := by decide

/-- The same with a window block of which no position lies in the map (R159, R161): such a tile has no results. -/
def windowed (op : Nat) (c : Core) : State :=
  let s := atOp op c
  { s with dram := { s.dram with bytes := Mem.writeList s.dram.bytes 0x100054 [0x90] } }

/-- The same with a scale table at an address in a reserved range. -/
def unscaled (op : Nat) : State :=
  let s := atOp op core0
  { s with dram := { s.dram with bytes := Mem.writeList s.dram.bytes 0x10002C [4] } }

theorem test_scale_table_faults :
    turns 0 3 (unscaled 3) = true ∧ (run (.init ⟨0, false⟩) (unscaled 3)).reg .TC_FAULT 0 0 = 0x5001 := by decide

/-- The same with its output there. -/
def homeless (op : Nat) : State :=
  let s := atOp op core0
  { s with dram := { s.dram with bytes := Mem.writeList s.dram.bytes 0x10008C [8] } }

theorem test_output_faults :
    turns 0 5 (homeless 5) = true ∧ (run (.drain 0) (homeless 5)).reg .TC_FAULT 0 0 = 0x5001 := by decide

theorem test_drain :
    let s := windowed (5 + 3 * 2 ^ 16) { core0 with slots := [(3, { Tile.zero with ovf := true })] }
    let t := run (.drain 0) s
    turns 0 5 s = true ∧ (s.core 0).drains = [] ∧ (t.core 0).drains = [DrainRec.mk 4 0 3 []] ∧
      t.reg .TC_CNT_SAT 0 0 = 1 ∧ (t.core 0).status = 0x4001 ∧ (t.core 0).fires = [] := by decide

theorem test_spill :
    let s := windowed (6 + 3 * 2 ^ 16) { core0 with slots := [(3, { Tile.zero with clamp := true })] }
    let t := run (.spill 0) s
    turns 0 6 s = true ∧ (t.core 0).drains = [DrainRec.mk 4 0 3 []] ∧ t.reg .TC_CNT_CLAMP 0 0 = 1 ∧
      (t.core 0).status = 0x4002 := by decide

theorem test_drain_waits :
    let d := DrainRec.mk 4 0 0 []
    let s := atOp 5 { core0 with drains := [d, d] }
    turns 0 5 s = true ∧ run (.drain 0) s = s := by decide

theorem test_spill_waits :
    let d := DrainRec.mk 4 0 0 []
    let s := atOp 6 { core0 with drains := [d, d] }
    turns 0 6 s = true ∧ run (.spill 0) s = s := by decide

theorem test_drainComplete :
    let s := atOp 5 { core0 with drains := [DrainRec.mk 4 0 0 [(2 * 0x200000 + 1, 0xA)]] }
    let t := run (.drainComplete 0) s
    s.clocked = true ∧ s.reach (nibBlocks [(2 * 0x200000 + 1, 0xA)]) = true ∧ (t.core 0).drains = [] ∧ t.dramByte 0x200000 = 0xA0 ∧ t.dramByte 0x200001 = 0 := by decide

theorem test_xptr :
    let s := atOp (7 + 2 ^ 16 + 9 * 2 ^ 17 + 3 * 2 ^ 44) core0
    let t := run (.xptr 0) s
    turns 0 7 s = true ∧ (t.core 0).xptr.colBank = true ∧ (t.core 0).xptr.colLine = 9 ∧ (t.core 0).xptr.colStep = 3 := by decide

theorem test_fence :
    let d := DrainRec.mk 4 0 0 []
    let s := atOp (8 + 2 ^ 17) { core0 with drains := [d] }
    turns 0 8 s = true ∧ run (.fence 0) s = s ∧
      ((run (.fence 0) (atOp (8 + 2 ^ 16) { core0 with drains := [d] })).core 0).fires = [] := by decide

/-- Word 3 of cluster 0's counters holds 10. -/
def counting (op : Nat) (c : Core) : State :=
  let s := atOp op c
  { s with slu := { s.slu with basins := [(0, fields [(12, 4, 10)])] } }

theorem test_publish :
    let s := counting (9 + 3 * 2 ^ 16 + (2 ^ 32 - 1) * 2 ^ 36) core0
    let t := run (.publish 0) s
    turns 0 9 s = true ∧ (s.core 0).drains = [] ∧ s.counterWord 0 12 = 10 ∧ t.counterWord 0 12 = 9 ∧
      (t.core 0).fires = [] := by decide

/-- R170: the stripe before the first lies outside the run, and its PUBLISH and WAITCNT pass. -/
theorem test_publish_outside :
    let s := atOp (9 + 2 ^ 30 + 2 ^ 36) core0
    turns 0 9 s = true ∧ ((run (.publish 0) s).core 0).fires = [] ∧ (run (.publish 0) s).slu.basins = [] := by decide

theorem test_waitcnt :
    let s := counting (10 + 3 * 2 ^ 16 + 10 * 2 ^ 36) core0
    let u := counting (10 + 3 * 2 ^ 16 + 11 * 2 ^ 36) core0
    turns 0 10 s = true ∧ ((run (.waitcnt 0) s).core 0).fires = [] ∧
      turns 0 10 u = true ∧ (run (.waitcnt 0) u).core 0 = { core0 with waiting := some (12, 11) } := by decide

theorem test_waitcntPass :
    let s := counting 10 { core0 with waiting := some (12, 10) }
    let u := counting 10 { core0 with waiting := some (12, 11) }
    s.clockStopped 0 = false ∧ ((run (.waitcntPass 0) s).core 0).waiting = none ∧
      ((run (.waitcntPass 0) s).core 0).fires = [] ∧ run (.waitcntPass 0) u = u := by decide

/-! ## Tiles and commands -/

/-- The record of command 0 of cluster 0: next, generation, tile count, committed and status (Table 5.5). -/
def recorded (s : State) (next count done : Nat) : State :=
  { s with slu := { s.slu with basins := [(0, fields [(0x40, 4, next), (0x44, 4, 7), (0x48, 4, count), (0x4C, 4, done)])] } }

theorem test_tileClaim :
    let s := recorded (atOp 4 { Core.reset with st := .idle }) 1 2 0
    let t := run (.tileClaim 0) s
    s.holder 0 = some 4 ∧ (s.running 4).map (·.kind) = some 1 ∧ s.mayClaim 0 = true ∧ s.recLive rec0 = true ∧
      (issued0.recsFor false 0).find? s.recOpen = some rec0 ∧
      (t.core 0).tile = 1 ∧ t.recField rec0 0 4 = 2 ∧ t.reg .CL_CNT_CLAIMS 0 0 = 1 ∧ (t.core 0).st = .running ∧
      (t.core 0).fires = [{ pc := 0, idx := [1] }] := by decide

theorem test_tileClaim_ends :
    let s := recorded (atOp 4 { Core.reset with st := .idle }) 2 2 0
    (issued0.recsFor false 0).find? s.recOpen = none ∧
      (run (.tileClaim 0) s).cmdRun 4 = some { issued0 with spent := [0] } := by decide

/-- A tile of command 0 past step 3, of a generation. -/
def done0 (gen : Nat) (st : W16) : DoneTile := DoneTile.mk 0 4 0 gen rec0 0 st

theorem test_tileCommit :
    let c := { core0 with st := .committing, fires := [] }
    let s := recorded (atOp 4 { c with done := [done0 7 0x4002] }) 2 2 0
    let u := recorded (atOp 4 { c with done := [done0 6 0] }) 2 2 0
    let w := recorded (atOp 4 { c with done := [done0 7 0], drains := [DrainRec.mk 4 0 0 []] }) 2 2 0
    let t := run (.tileCommit 0) s
    (s.core 0).sent (done0 7 0x4002) = true ∧ s.coreRuns 0 = true ∧ s.recLive rec0 = true ∧ (t.core 0).st = .idle ∧
      t.recField rec0 12 4 = 1 ∧ t.recField rec0 22 2 = 0x4002 ∧ t.reg .CL_CNT_COMMITS 0 0 = 1 ∧
      (run (.tileCommit 0) u).reg .CL_CNT_STALE 0 0 = 1 ∧ run (.tileCommit 0) w = w := by decide

theorem test_last_tileCommit :
    let s := recorded (atOp 4 { core0 with st := .committing, fires := [], done := [done0 7 0] }) 2 2 1
    s.stepOf 4 ≠ none ∧ (run (.tileCommit 0) s).cmdRun 4 = none ∧ ((run (.tileCommit 0) s).ctxRun 4).committed = some (0, 0) := by
  decide

theorem test_commandKill :
    let s := recorded (atOp 4 core0) 1 2 0
    let t := run (.commandKill 4) s
    s.completeRec issued0 = none ∧ s.recLive rec0 = true ∧ s.coreRuns 0 = true ∧ (t.cmdRun 4).map (fun r => (r.killed, r.gen)) = some (true, 8) ∧
      (t.core 0).st = .killing := by decide

theorem test_commandKill_late :
    let r := { issued0 with recs := [WorkRec.mk 0 0 0x40 true] }
    let s := arrayed 4 core0 [(4, r)]
    s.completeRec r ≠ none ∧ (run (.commandKill 4) s).reg .CL_CNT_LATEKILL 0 0 = 1 := by decide

theorem test_coreIdle :
    let s := atOp 4 { core0 with st := .killing }
    s.coreRuns 0 = true ∧ ((run (.coreIdle 0) s).core 0).st = .idle ∧ (run (.coreIdle 0) s).reg .TC_CNT_KILL 0 0 = 1 := by decide

theorem test_coreFault :
    let s := atOp 4 { core0 with pc := 2 }
    let t := run (.coreFault 0 Status.operandParity) s
    t.reg .TC_FAULT 0 0 = BitVec.ofNat 64 (0x20000 + Status.operandParity.toNat) ∧ t.reg .TC_CNT_PARITY 0 0 = 1 ∧
      t.cmdRun 4 = none ∧ run (.coreFault 0 0x1001) s = s := by decide

theorem test_tcFaultRead :
    let s := (atOp 4 { core0 with st := .halted }).setReg .TC_FAULT 0 0 0x25001
    let t := run (.tcFaultRead 0 0) s
    t.out = [.completion 0 .ok [0x01, 0x50, 0x02, 0x00]] ∧ t.reg .TC_FAULT 0 0 = 0 ∧ (t.core 0).st = .idle := by decide

theorem test_commandIssue :
    let s := arrayed 4 { Core.reset with st := .idle } []
    let c := s.cmdAt 4 0 false
    let st := StepRun.mk 0 [] 0 0 [] false
    let t := run (.commandIssue 4) s
    s.stepOf 4 = some st ∧ s.holdsAll 4 st = true ∧ (s.ctxRun 4).fault = none ∧ s.recordAt 4 0 (s.stepOld 4) = some 0x100000 ∧
      s.coresQuiet 4 = true ∧ (s.reads portSluice [(0x100000, s.dramRd 0x100004 4)]).1 = none ∧ s.reach [(0x100000, s.dramRd 0x100004 4)] = true ∧ c.map (fun c => s.overlapAtIssue c 0 [] [2] 0 0) = some false ∧
      c.map (fun c => s.stripesFit c 0 [2]) = some true ∧ c.map (fun c => c.emptyStatus [2] 0 0) = some none ∧
      (t.cmdRun 4).map (fun r => (r.cmd, r.bounds, r.killed)) = some (0, [2], false) := by decide

theorem test_commandIssue_fault :
    let s := arrayed 4 { Core.reset with st := .idle } []
    let u := s.setCtxRun 4 { s.ctxRun 4 with fault := some 0x5020 }
    let t := run (.commandIssue 4) u
    u.holdsAll 4 (StepRun.mk 0 [] 0 0 [] false) = true ∧ t.stepOf 4 = none ∧ t.reg .SLUICE_LAST_FAULT 0 0 = 0x45020 := by decide

/-- 256 windows of context 9 leave no place for that of command 0 (R124). -/
theorem test_commandIssue_waits :
    let s := arrayed 4 { Core.reset with st := .idle } []
    let u := { s with dram := { s.dram with windows := List.replicate 256 (Window.mk 9 0 0 0) } }
    let t := run (.commandIssue 4) u
    (u.cmdAt 4 0 false).map (fun c => ((u.dropWindows c.ctx c.index).dram.windows.length, (u.windowsOf c 0).length)) =
        some (256, 1) ∧
      t.cmdRun 4 = none ∧ t.reg .SLUICE_CNT_WINWAIT 0 0 = 1 ∧ t.dram = u.dram := by decide

theorem test_commandReissue :
    let s := arrayed 4 { Core.reset with st := .idle } [(4, { issued0 with killed := true, gen := 8 })]
    let st := StepRun.mk 0 [] 0 0 [] false
    s.coresQuiet 4 = true ∧ s.holdsAll 4 st = true ∧ (s.running 4).map (fun c => s.stripesFit c 0 [2]) = some true ∧
      ((run (.commandReissue 4) s).cmdRun 4).map (fun r => (r.gen, r.killed)) = some (8, false) := by decide

/-! ## Pixel path, tracks, copies -/

/-- Contexts: 1 pixel, 4 and 8 model, 5 track, 6 and 7 copy; their records from 0x100000, the scaler program at 0x300000. -/
def stageImage : Image :=
  let e := fun id kind succ => CtxEntry.mk id kind 0 0 0 1 0 0 0 8 1 0 1000 0 0 0xFFFF succ 0
  { videoImage with
    classes := [{ class2 with firstCtx := 1 }]
    ctxs := [e 1 1 [4], e 4 2 [5], e 5 3 [], e 6 4 [], e 7 4 [], { e 8 2 [] with priority := 1 }]
    placed := [Placed.mk 0 8 0x100000 0xC0 0, Placed.mk 1 12 0x300000 0x80 0] }

/-- The records of contexts 5, 6 and 7 (Tables 2.10, 10.2, 11.4): rules at 0x200000, an export of 64 bytes of context 4 to
pool 6, and a copy of 64 bytes from 0x500000 to 0x600000. -/
def stageRecords : List (Nat × Nat × Nat) :=
  [(0x100000, 2, 5), (0x100004, 4, 0x40), (0x100018, 8, 0x200000), (0x100040, 2, 6), (0x100044, 4, 0x40), (0x100051, 1, 1),
    (0x100052, 1, 6), (0x100054, 4, 64), (0x100068, 2, 4), (0x100080, 2, 7), (0x100084, 4, 0x40), (0x100094, 4, 64),
    (0x100098, 8, 0x500000), (0x1000A0, 8, 0x600000)]

/-- Frame 0 of rill 4, of 16 by 16, in the buffer at 0x400000. -/
def frame0 : Frame :=
  { lostFrame 4 0 with handle := Handle.mk 0x400000 6, hdr := hdr16, cached := true }

def flow0 : Flow := { Flow.start frame0 0 0 with started := true, ctxs := [5] }

/-- The device with the image, frame 0 and its flow, and DRAM bytes from `l` beside the records. -/
def staging (x : Flow) (l : List (Nat × Nat × Nat)) : State :=
  let s := loaded stageImage
  { s with
    dram := { s.dram with bytes := fields (stageRecords ++ l) }
    pools := [{ pool5 0 with id := 6, owner := 0xFFFF, size := 0x10000 }]
    weir := { s.weir with live := [.pixel, .track, .core 0, .basin 0] }
    ing := { s.ing with rills := [(4, { rill4 with framesOut := 1 })], frames := [frame0] }
    trk := { s.trk with flows := [x] } }

/-- A program of one region of one pixel for context 4, of a kind and to a destination (Tables 9.1, 9.2), and the frame's
header. -/
def program0 (kind dest : Nat) (cropW : Nat) : List (Nat × Nat × Nat) :=
  [(0x300000, 2, 1), (0x300002, 1, 1), (0x300040, 1, kind), (0x300044, 1, 1), (0x30004C, 2, 1), (0x30004E, 2, 1),
    (0x300050, 2, 1), (0x300052, 2, 1), (0x300056, 2, 4), (0x30005E, 1, dest), (0x30005F, 1, 6), (0x300060, 4, 64),
    (0x300064, 4, 64), (0x30006C, 2, 1), (0x300070, 4, 64), (0x400008, 2, cropW), (0x40000A, 2, 16), (0x40000C, 1, 8),
    (0x400010, 4, 64), (0x400014, 4, 64), (0x400018, 4, 0x480), (0x40001C, 4, 0x680)]

/-- Context 4 is resident on cluster 0 at basin unit 2. -/
def resident0 (s : State) : State := s.setCtxRun 4 { CtxRun.reset with place := [(0, 2)], slots := [(0, List.range 8)], line0 := [(0, 0)] }

def pixels (kind dest cropW : Nat) : State := resident0 (staging { flow0 with started := false, ctxs := [] } (program0 kind dest cropW))

theorem test_pixelCommand :
    let s := pixels 0 1 16
    let t := run (.pixelCommand 0 1 4 0) s
    pxePresent s.dev.part 0 = true ∧ s.domainLive .pixel = true ∧ s.nextPxe = some 0 ∧ s.ctxKind 1 = some 1 ∧ s.trk.crops = [] ∧
      s.swapHolds 1 0 = false ∧
      s.frame 4 0 = some frame0 ∧ (s.program 1 false).map (fun p => (p.rois.length, p.crops)) = some (1, []) ∧
      (s.program 1 false).map (fun p => s.takeSlots (roiJobs p) []) = some (some [some (0, 0x20000)]) ∧
      (s.program 1 false).map (fun p => s.pixelReach frame0 ((roiJobs p).zip [some (0, 0x20000)])) = some true ∧
      (s.reads portPxe [(0x400000, 128)]).1 = none ∧ (t.pxe 0).map (fun p => p.marks.map (fun m => (m.1, m.2.slot))) =
        some [(4, some (0, 0x20000))] ∧
      t.reg .PXE_CNT_REGIONS 0 0 = 1 ∧ t.reg .PXE_CNT_WRITTEN 0 0 = 1 ∧ t.reg .PXE_CNT_READ 0 0 = 1 := by decide

theorem test_pixelCommand_skips :
    let s := pixels 0 0 16
    let u := pixels 1 0 2049
    let t := run (.pixelCommand 0 1 4 0) s
    (s.alloc 6).1 = none ∧ t.reg .PXE_CNT_SKIP_NOBUF 0 0 = 1 ∧ t.reg .PXE_LAST_SKIP 0 0 = 0x2030 ∧
      (run (.pixelCommand 0 1 4 0) u).reg .PXE_LAST_SKIP 0 0 = 0x1032 ∧
      (let v := { pixels 0 1 16 with slu := { (pixels 0 1 16).slu with ctxs := [] } }
       (v.program 1 false).map (fun p => v.takeSlots (roiJobs p) []) = some none ∧
         run (.pixelCommand 0 1 4 0) v = v) := by decide

/-- An item of frame 0 for context 4 with its data at an address. -/
def item0 (a : Nat) : Item :=
  { rill := 4, frame := 0, region := 0, track := 0, captureTs := 0, stamp := 0, addr := a, handle := none, slot := none
    geom := Geom.mk 0 0 16 16 0 0 16 16, clock := 0, head := true, concealed := false, fallback := false }

theorem test_regionComplete :
    let s := (staging flow0 []).setPxe 0 (some (PxeRun.mk 1 4 0 0 [(4, item0 0)]))
    let t := run (.regionComplete 0) s
    s.weir.coolant = .none ∧ (s.pxe 0).isSome = true ∧ t.pxe 0 = none ∧ (t.ctxRun 4).queue = [item0 0] := by decide

/-- The track command's conditions, with the record ring of the PF enabled: nothing is to tell, and the frame-end record
alone is written. -/
theorem test_trackCommand :
    let s := ((staging flow0 []).setReg .TRK_RING_CTRL 0 0 1).setReg .TRK_RING_ENTRIES 0 0 64
    let t := run (.trackCommand 5 4 0) s
    s.flow 4 0 = some flow0 ∧ (s.rulesOf 5 false).map (fun r => (r.health, r.headCount)) = some (0, 0) ∧
      s.ctxKind 5 = some 3 ∧ s.domainLive .track = true ∧
      (s.ctxEntry 5).map (fun e => (s.flowReady e flow0, (s.laneTurn e).map (·.1))) = some (true, some 16) ∧
      (s.rulesOf 5 false).map (fun r => s.trackReach r flow0) = some true ∧ s.idleLanes 5 = [] ∧
      (s.rillTrk 4).running = none ∧ (s.fn 0).flr = .idle ∧ s.canMaster 0 = true ∧
      (s.ring 0).renew.full (s.regNat .TRK_RING_ENTRIES 0 0) = false ∧ t.holder 16 = some 5 ∧
      (t.rillTrk 4).running = some (5, 0, 16) ∧ t.out.length = 2 ∧
      t.out[1]? = some (.hostWrite 0 0 [1, 0, 0, 0]) := by decide

/-- Rules of one class and one head of one cell (Tables 10.3 to 10.6), and the head's values at 0x700000: a box of 8.5 by
8.5 cells of 16 about the middle, score 256. -/
def rules1 : List (Nat × Nat × Nat) :=
  [(0x200002, 1, 1), (0x200003, 1, 1), (0x200004, 2, 4), (0x200006, 2, 4), (0x200008, 4, 4), (0x20002C, 4, 0x80),
    (0x200030, 4, 0x100), (0x20001E, 1, 1), (0x200081, 1, 1), (0x200082, 1, 16), (0x200084, 2, 1), (0x200086, 2, 1),
    (0x200088, 8, 0x700000), (0x200094, 4, 1), (0x20009C, 2, 4), (0x200106, 1, 3), (0x700000, 10, 0x0100000800080008_0008)]

theorem test_trackCommand_starts :
    let s := staging { flow0 with heads := [(4, 0, 0x700000, item0 0x700000)] } rules1
    let t := run (.trackCommand 5 4 0) s
    s.rillTracks 4 = [] ∧ s.freeStore = some 0 ∧
      (s.rulesOf 5 false).map (fun r => ((s.frameCands r 16 16 (s.readHeads r [(4, 0, 0x700000, item0 0x700000)]).2.1).map (·.score), r.tracks 0)) =
        some ([256], true) ∧
      t.trk.tracks.map (fun x => (x.rill, x.id, x.store)) = [(4, 1, 0)] ∧ t.reg .TRK_CNT_DET 0 0 = 1 := by
  decide

/-- Frame 0's track command runs on lane 0 of the track engine, which context 5 holds. -/
def laned (ended : List Nat) : State :=
  let s := (staging flow0 []).setRillTrk 4 { RillTrk.reset with running := some (5, 0, 16) }
  let s1 := s.setCtxRun 5 { CtxRun.reset with holds := [16] }
  { s1 with
    slu := { s1.slu with holder := [(16, some 5)], slices := [(16, 1000)], ended := ended }
    thy := { s1.thy with now := 1300 } }

theorem test_trackCommandCommit :
    let s := laned []
    let t := run (.trackCommandCommit 4) s
    s.weir.coolant = .none ∧ (t.rillTrk 4).running = none ∧ t.reg .TRK_CNT_FRAMES 0 0 = 1 ∧ t.flow 4 0 = none ∧
      (s.ctxEntry 5).map (·.kind) = some 3 ∧ (∀ n < 4, s.holder n ≠ some 5) ∧ s.slu.ctxs.map (·.1) = [5] ∧
      t.holder 16 = none := by decide

/-- Its slice ended 300 ns ago: the lane is free, and the overrun stands (R302). -/
theorem test_trackCommandCommit_late :
    let t := run (.trackCommandCommit 4) (laned [16])
    t.holder 16 = none ∧ (t.ctxRun 5).overrunNs = 300 := by decide

/-- A frame that waits for its head export alone. -/
def exporting : Flow := { flow0 with ctxs := [6], heads := [(4, 0, 0x500000, item0 0x500000)] }

theorem test_headExport :
    let s := staging exporting []
    let t := run (.headExport 6 4 0) s
    s.ctxKind 6 = some 4 ∧ (s.exportCmds 6 false).map (fun c => (c.source, c.length, c.pool)) = [(4, 64, 6)] ∧
      (s.exportCmds 6 false).map (fun c => (s.reads portSluice (exporting.exportRanges c)).1) = [none] ∧
      (s.ctxEntry 6).map (fun e => (s.flowReady e exporting, (s.copyTurn e).map (·.1))) = some (true, some 64) ∧
      s.exportReach exporting (s.exportCmds 6 false) = true ∧ 64 ≤ s.poolSize 6 ∧ (s.alloc 6).1 = none ∧
      t.reg .SLUICE_CNT_EXPORTLOST 0 0 = 1 ∧ t.flow 4 0 = none := by decide

/-- The same with a buffer in the pool. -/
def exportable : State :=
  { staging exporting [] with
    pools := [{ pool5 0 with id := 6, owner := 0xFFFF, size := 0x10000, cache := [Handle.mk 0x410000 6] }] }

theorem test_headExport_with_buffer :
    (exportable.exportCmds 6 false).map (fun c => (c.pool, (exportable.reads portSluice (exporting.exportRanges c)).1)) = [(6, none)] ∧
      exportable.exportReach exporting (exportable.exportCmds 6 false) = true ∧ rangeStatus exportable.dev.part 0x410000 64 = none ∧
      (exportable.ctxEntry 6).map (fun e => (exportable.copyTurn e).map (·.1)) = some (some 64) ∧ exportable.canMaster 0 = true := by
  decide

theorem test_headExport_buffer : (exportable.alloc 6).1 = some (Handle.mk 0x410000 6) := by
  change some (([Handle.mk 0x410000 6][Config.freeValue exportable.freeIdx % 1]?).getD (Handle.mk 0x410000 6)) = _
  rw [Nat.mod_one]
  rfl

theorem test_move_starts :
    let s := staging flow0 []
    let t := run (.move ⟨7, false⟩) s
    s.ctxKind 7 = some 4 ∧ (s.nextMove 7).map (fun x => (x.1, x.2.src, x.2.dst, x.2.length)) = some (0, 0x500000, 0x600000, 64) ∧
      s.uncommitted 7 0x500000 64 = false ∧ (s.ctxEntry 7).map (fun e => (s.copyTurn e).map (·.1)) = some (some 64) ∧
      s.cmdRun 7 = none ∧ (t.cmdRun 7).map (fun r => (r.cmd, r.killed)) = some (0, false) ∧
      t.dram.windows = [Window.mk 7 0 0x600000 0x600040] ∧ t.holder 64 = some 7 := by decide

/-- The move of context 7 in progress. -/
def moving (l : List (Nat × Nat × Nat)) : State :=
  let s := staging flow0 l
  { s with slu := { s.slu with cmds := [(7, { issued0 with recs := [], bounds := [] })] } }

theorem test_move :
    let s := moving [(0x500000, 4, 0x12345678)]
    let t := run (.move ⟨7, true⟩) s
    s.reach [(0x500000, 64), (0x600000, 64)] = true ∧ (s.reads portSluice [(0x500000, 64)]).1 = none ∧
      rangeStatus s.dev.part 0x600000 64 = none ∧ (s.cmdRun 7).map (fun r => (r.cmd, r.killed)) = some (0, false) ∧
      t.dramRd 0x600000 4 = 0x12345678 ∧ (t.ctxRun 7).next = some 1 ∧ t.cmdRun 7 = none := by decide

theorem test_move_faults :
    let s := moving [(0x1000A4, 4, 4)]
    s.reach [(0x500000, 64), (0x400600000, 64)] = true ∧ rangeStatus s.dev.part 0x400600000 64 = some 0x5001 ∧
      (run (.move ⟨7, true⟩) s).reg .SLUICE_LAST_FAULT 0 0 = 0x75001 := by decide

/-- With a full window table the move waits, and it starts again when there is room (R124); a killed one starts again too. -/
theorem test_move_waits :
    let full := fun (s : State) => { s with dram := { s.dram with windows := List.replicate 256 (Window.mk 9 0 0 0) } }
    let s := staging flow0 []
    let t := run (.move ⟨7, false⟩) (full s)
    let u := { s with slu := { s.slu with cmds := [(7, { issued0 with recs := [], bounds := [], killed := true })] } }
    (t.cmdRun 7).map (·.killed) = some true ∧ t.reg .SLUICE_CNT_WINWAIT 0 0 = 1 ∧ t.holder 64 = none ∧
      u.hasWindow 7 0 = false ∧ ((run (.move ⟨7, false⟩) u).cmdRun 7).map (·.killed) = some false ∧
      (run (.move ⟨7, false⟩) (full u)).cmdRun 7 = u.cmdRun 7 := by decide

/-! ## Steps, slices, residency -/

/-- Context 4 holds cluster 0 with a queue. -/
def queued (q : List Item) : State :=
  let s := resident0 (staging flow0 [])
  let s1 := s.setCtxRun 4 { s.ctxRun 4 with queue := q, holds := [0], runnable := true }
  { s1 with slu := { s1.slu with holder := [(0, some 4)] } }

theorem test_stepStart :
    let s := queued [item0 0]
    let t := run (.stepStart 4 0) s
    s.headsUnread 4 = false ∧ s.needs 4 0 = [0] ∧ s.holder 0 = some 4 ∧ (s.ctxEntry 4).map (fun e => s.route e false (item0 0)) =
        some .join ∧
      t.stepOf 4 = some (StepRun.mk 0 [item0 0] 0 0 [] false) ∧ (t.ctxRun 4).queue = [] := by decide

/-- The class of rill 4 has a staleness bound of 1 us (R224), and 2 us have passed. -/
def staleQueue : State :=
  let s := queued [item0 0]
  { s with
    ldr := { s.ldr with image := { s.ldr.image with classes := [{ class2 with staleUs := 1 }] } }
    thy := { s.thy with now := 2000 } }

theorem test_stepStart_drops :
    (staleQueue.ctxEntry 4).map (fun e => staleQueue.route e false (item0 0)) = some .drop ∧
      (run (.stepStart 4 0) staleQueue).stepOf 4 = none ∧ ((run (.stepStart 4 0) staleQueue).rill 4).staleDropped = 1 := by decide

/-- Context 8 is the fallback of context 4, whose budget of 1 us has passed (R306, R307). -/
def lateQueue : State :=
  let s := queued [item0 0]
  { s with
    ldr := { s.ldr with image := { s.ldr.image with
      fbs := [FbEntry.mk 4 8 10 0]
      ctxs := [CtxEntry.mk 4 2 0 0 0 1 0 0 0 8 1 0 1000 1 0 0xFFFF [5] 0, CtxEntry.mk 8 2 0 0 0 1 0 0 0 8 1 0 1000 0 0 0xFFFF [] 0] } }
    thy := { s.thy with now := 2000 } }

theorem test_stepStart_late :
    let t := run (.stepStart 4 0) lateQueue
    (lateQueue.ctxEntry 4).map (fun e => lateQueue.route e false (item0 0)) = some (.away 8 (some (0, 10))) ∧
      t.stepOf 4 = none ∧ (t.ctxRun 8).queue = [{ item0 0 with fallback := true }] ∧ (t.rill 4).holds = [(4, 0, 10)] ∧
      t.reg .SLUICE_CNT_FALLBACK 0 0 = 1 := by decide

/-- Context 4's slice on cluster 0 ends now, while it runs command 0 on core 0. -/
def sliced (rival : Bool) (run : CmdRun) : State :=
  let s := queued []
  let s1 := s.setCtxRun 8 { CtxRun.reset with runnable := rival, place := [(0, 3)] }
  let u := { s1.slu with slices := [(0, 0)], cmds := [(4, run)], cores := [(0, core0)] }
  { s1 with slu := { u with basins := [(0, fields [(0x48, 4, 2)])] } }

theorem test_sliceEnd :
    let s := sliced false issued0
    let t := run (.sliceEnd (.cluster 0)) s
    s.holder (laneKey (.cluster 0)) = some 4 ∧ s.sliceOver 0 = true ∧ s.rival 0 4 = false ∧ t.slu.holder = s.slu.holder ∧
      SMap.find? t.slu.slices 0 = some (s.sliceNs 4) := by decide

theorem test_sliceEnd_preempts :
    let s := sliced true issued0
    let r := { issued0 with recs := [WorkRec.mk 0 0 0x40 true] }
    let u := sliced true r
    let t := run (.sliceEnd (.cluster 0)) s
    s.rival 0 4 = true ∧ s.killable 4 = true ∧ t.reg .SLUICE_CNT_PREEMPT 0 0 = 1 ∧ (t.core 0).st = .killing ∧
      (t.cmdRun 4).map (·.killed) = some true ∧ t.holder 0 = some 8 ∧ u.killable 4 = false ∧ u.completeRec r ≠ none ∧
      (run (.sliceEnd (.cluster 0)) u).reg .CL_CNT_LATEKILL 0 0 = 1 := by decide

theorem test_sliceEnd_of_lanes :
    let lane := fun (s : State) => { s with slu := { s.slu with holder := [(16, some 5)], slices := [(16, 0)] } }
    let u := lane (staging { flow0 with ctxs := [] } [])
    let w := lane (staging flow0 [])
    let v := { laned [] with slu := { (laned []).slu with slices := [(16, 0)] } }
    u.sliceOver 16 = true ∧ u.laneBusy 16 = false ∧ (u.ctxEntry 5).map (fun e => (u.laneRival e 16, u.wantsLane e)) = some (false, false) ∧
      (run (.sliceEnd (.track 0)) u).holder 16 = none ∧ (w.ctxEntry 5).map w.wantsLane = some true ∧
      SMap.find? (run (.sliceEnd (.track 0)) w).slu.slices 16 = some 1000000 ∧
      v.laneBusy 16 = true ∧ (run (.sliceEnd (.track 0)) v).reg .SLUICE_CNT_OVERRUN 0 0 = 1 ∧
      (run (.sliceEnd (.track 0)) v).holder 16 = some 5 := by decide

/-- Context 7, here a track context, holds an idle lane that context 5 wants. -/
theorem test_sliceEnd_for_a_rival :
    let s := staging flow0 []
    let i := { stageImage with ctxs := stageImage.ctxs.map (fun e => if e.id = 7 then { e with kind := 3 } else e) }
    let u := { s with ldr := { s.ldr with image := i }, slu := { s.slu with holder := [(16, some 7)], slices := [(16, 0)] } }
    u.sliceOver 16 = true ∧ u.laneBusy 16 = false ∧ (u.ctxEntry 7).map (fun e => u.laneRival e 16) = some true ∧
      (run (.sliceEnd (.track 0)) u).holder 16 = none := by decide

/-- Context 7 moves on lane 0 of the copy engine, its slice is over, and context 6 has a frame to export. -/
theorem test_sliceEnd_kills_a_move :
    let s := staging exporting []
    let s1 := s.setCtxRun 7 { CtxRun.reset with holds := [64] }
    let r := { issued0 with recs := [], bounds := [] }
    let u := { s1 with slu := { s1.slu with holder := [(64, some 7)], slices := [(64, 0)], cmds := [(7, r)] } }
    let t := run (.sliceEnd (.copy 0)) u
    u.laneBusy 64 = true ∧ (u.ctxEntry 7).map (fun e => u.laneRival e 64) = some true ∧ t.holder 64 = none ∧
      (t.cmdRun 7).map (·.killed) = some true ∧ t.reg .SLUICE_CNT_PREEMPT 0 0 = 1 := by decide

/-- Context 8 waits with an item; the time is 6 ms, and its last starved millisecond ended at 5 ms. -/
def awaited (s : State) : State :=
  let s1 := s.setCtxRun 8 { CtxRun.reset with runnable := true, queue := [item0 0], starvedNs := some 5000000 }
  { s1 with thy := { s1.thy with now := 6000000 } }

theorem test_bringIn :
    let s := awaited (staging flow0 [])
    let e := CtxEntry.mk 8 2 0 0 1 1 0 0 0 8 1 0 1000 0 0 0xFFFF [] 0
    s.ctxEntry 8 = some e ∧ s.waitsFor e 0 = true ∧ s.roomFor e 0 = some (0, List.range 8, 0) ∧
      ((run (.bringIn 8 0) s).ctxRun 8).moving = some (MoveRun.mk 0 none 0 (List.range 8) 0) := by decide

theorem test_bringInComplete :
    let s := (staging flow0 []).setCtxRun 8 { CtxRun.reset with moving := some (MoveRun.mk 0 none 5 [0] 0) }
    let t := run (.bringInComplete 8 0) s
    (s.ctxEntry 8).map (fun e => s.shareReach 8 0 (e.basinKib * 16)) = some true ∧ s.slu.cmds = [] ∧ (t.ctxRun 8).moving = none ∧ SMap.find? (t.ctxRun 8).place 0 = some 5 := by
  decide

theorem test_contextEvict :
    let s := awaited (resident0 (staging flow0 []))
    let t := run (.contextEvict 0 8) s
    (s.waiters 0).map (·.id) = [8] ∧ s.allBlocked 0 = true ∧ (s.evictFor 0).map (fun x => (x.1.id, x.2.id)) = some (8, 4) ∧
      (s.ctxEntry 4).map (fun e => s.shareReach 4 0 (e.basinKib * 16)) = some true ∧
      SMap.find? (t.ctxRun 4).place 0 = none ∧ (t.ctxRun 8).moving = some (MoveRun.mk 0 (some 4) 0 (List.range 8) 0) ∧
      t.reg .SLUICE_CNT_EVICT 0 0 = 1 := by decide

theorem test_starvedTick :
    let s := awaited (resident0 (staging flow0 []))
    let u := s.setCtxRun 4 { s.ctxRun 4 with residentNs := [(0, 2000000)] }
    let e := CtxEntry.mk 8 2 0 0 1 1 0 0 0 8 1 0 1000 0 0 0xFFFF [] 0
    u.starvesOn e 0 = true ∧ u.roomFor e 0 = none ∧ (u.ctxRun 8).starvedNs = some 5000000 ∧ u.nowNs = 6000000 ∧
      (run (.starvedTick 8 0) u).reg .SLUICE_CNT_STARVED 0 0 = 1 ∧
      ((run (.starvedTick 8 0) u).ctxRun 8).starvedNs = some 6000000 ∧ run (.starvedTick 8 0) s = s := by decide

end Sys2Proof.Tests
end

section
/-! SUPPORT. The lookup of a register by its BAR0 offset (Tables 1.8, 1.9): what `regAt` finds is an instance of a row. -/

namespace Sys2Proof.Machine

/-- No two rows have one name. -/
theorem rowIn_names : (allRows.all fun x => decide (rowIn x.name allRows = some x)) = true := by decide +kernel

/-- The name of a row finds that row. -/
theorem rowIn_name {x : RegRow} (h : x ∈ allRows) : rowIn x.name allRows = some x :=
  of_decide_eq_true (List.all_eq_true.1 rowIn_names x h)

/-- A register instance, from its row. -/
theorem regOk_of_mem {x : RegRow} {u i : Nat} (h : x ∈ allRows) (hu : u < blockUnits x.blk)
    (hi : i < x.count * x.count2) : regOk x.name u i = true := by
  unfold regOk
  rw [rowIn_name h]
  simp [hu, hi]

theorem mem_allRows_of_block {b : Block} {x : RegRow} (h : x ∈ blockRows b) : x ∈ allRows := by
  unfold allRows
  cases b <;> simp only [blockRows] at h <;> simp only [List.mem_append, h, true_or, or_true]

theorem blk_of_mem {b : Block} {x : RegRow} (h : x ∈ blockRows b) : x.blk = b := by
  have rows : ∀ b, ∀ y ∈ blockRows b, y.blk = b := by
    intro b
    cases b <;> decide
  exact rows b x h

/-- A located unit is one of its block. -/
theorem locate_unit {off u loc : Nat} {b : Block} (h : locate off = some (b, u, loc)) : u < blockUnits b := by
  simp only [locate, ite_eq_iff, Option.some.injEq, Prod.mk.injEq, reduceCtorEq, and_false, false_or, or_false] at h
  cases b
  all_goals
    simp only [reduceCtorEq, false_and, and_false, false_or, or_false, true_and] at h
    simp only [blockUnits]
    omega

/-- A hit on a word of an instance, low or high, is a hit on that instance. -/
theorem wordHit_idx {w hi : Bool} {d k i : Nat}
    (h : (if d = 0 then some (k, false) else if w && d = 4 then some (k, true) else none) = some (i, hi)) : i = k := by
  split at h
  · cases h; rfl
  · split at h <;> cases h; rfl

/-- A hit in a row is one of its instances. -/
theorem rowHit_lt {x : RegRow} {d i : Nat} {hi : Bool} (h2 : 0 < x.count2) (h : rowHit x d = some (i, hi)) :
    i < x.count * x.count2 := by
  unfold rowHit at h
  split at h
  next one =>
    rw [wordHit_idx h, one, Nat.one_mul]
    exact h2
  next =>
    split at h
    next lt =>
      dsimp only at h
      split at h
      next one =>
        rw [wordHit_idx h, one, Nat.mul_one]
        exact lt
      next =>
        split at h
        next inner =>
          cases h
          simp only [Bool.and_eq_true, decide_eq_true_eq] at inner
          calc d / x.stride * x.count2 + d % x.stride / x.stride2
              < d / x.stride * x.count2 + x.count2 := Nat.add_lt_add_left inner.2 _
            _ = (d / x.stride + 1) * x.count2 := (Nat.succ_mul _ _).symm
            _ ≤ x.count * x.count2 := Nat.mul_le_mul_right _ lt
        next => cases h
    next => cases h

theorem findRow_some {u loc off : Nat} {rows : List RegRow} {l : RegLoc} (h : findRow u loc off rows = some l) :
    l.row ∈ rows ∧ l.unit = u ∧ ∃ d, rowHit l.row d = some (l.idx, l.high) := by
  induction rows with
  | nil => cases h
  | cons x rows ih =>
    have skip (h : findRow u loc off rows = some l) :
        l.row ∈ x :: rows ∧ l.unit = u ∧ ∃ d, rowHit l.row d = some (l.idx, l.high) :=
      ⟨List.mem_cons_of_mem _ (ih h).1, (ih h).2⟩
    simp only [findRow] at h
    split at h
    · split at h
      next hit =>
        cases h
        exact ⟨List.mem_cons_self, rfl, _, hit⟩
      next => exact skip h
    · exact skip h

/-- What lies at an offset of BAR0 is an instance of one of the rows. -/
theorem regAt_some {off : Nat} {l : RegLoc} (h : regAt off = some l) :
    l.row ∈ allRows ∧ regOk l.row.name l.unit l.idx = true := by
  unfold regAt at h
  split at h
  next loc =>
    obtain ⟨mem, rfl, d, hit⟩ := findRow_some h
    have row := mem_allRows_of_block mem
    have fits := allApart_fits allRows_apart row
    simp only [rowFits, Bool.and_eq_true, decide_eq_true_eq] at fits
    obtain ⟨⟨⟨many, -⟩, -⟩, -⟩ := fits
    exact ⟨row, regOk_of_mem row (by rw [blk_of_mem mem]; exact locate_unit loc) (rowHit_lt many hit)⟩
  next => cases h

theorem vfReg_some {fn off : Nat} {l : RegLoc} (h : vfReg fn off = some l) : ∃ o, regAt o = some l := by
  unfold vfReg at h
  split at h
  · exact ⟨_, (Option.filter_eq_some_iff.1 h).1⟩
  · split at h
    · exact ⟨_, h⟩
    · split at h
      · exact ⟨_, h⟩
      · cases h

/-- The register that a function reaches is an instance of one of the rows. -/
theorem fnReg_some {s : State} {fn off : Nat} {l : RegLoc} (h : s.fnReg fn off = some l) :
    l.row ∈ allRows ∧ regOk l.row.name l.unit l.idx = true := by
  have reached := (Option.filter_eq_some_iff.1 h).1
  split at reached
  · exact regAt_some reached
  · obtain ⟨o, found⟩ := vfReg_some reached
    exact regAt_some found

/-- The mask of ICU_PEND: 16 sources in each of its registers (R407). -/
theorem mask_of_pend {x : RegRow} (h : x ∈ allRows) (hn : x.name = .ICU_PEND) : x.mask = 0xffff := by
  have found := rowIn_name h
  rw [hn] at found
  have row : (rowIn .ICU_PEND allRows).map (·.mask) = some 0xffff := by decide
  simpa [found] using row

end Sys2Proof.Machine
end

section
/-! SUPPORT. A write of 1s to a W1C register, bit by bit (R6, R7). -/

namespace Sys2Proof.Machine

/-! ## The number that a predicate on bits spells -/

theorem bitsOf_succ (n : Nat) (p : Nat → Bool) : bitsOf (n + 1) p = bitsOf n p + if p n then 2 ^ n else 0 := by
  unfold bitsOf
  rw [List.range_succ, List.filter_append, List.foldl_append]
  by_cases h : p n = true <;> simp [h]

theorem bitsOf_lt (n : Nat) (p : Nat → Bool) : bitsOf n p < 2 ^ n := by
  induction n with
  | zero => exact Nat.one_pos
  | succ n ih =>
    rw [bitsOf_succ, Nat.pow_succ]
    split <;> omega

theorem testBit_bitsOf (n : Nat) (p : Nat → Bool) (j : Nat) : (bitsOf n p).testBit j = (decide (j < n) && p j) := by
  induction n with
  | zero => simp [bitsOf]
  | succ n ih =>
    have top : bitsOf (n + 1) p = 2 ^ n * (p n).toNat + bitsOf n p := by
      rw [bitsOf_succ]
      cases p n <;> simp [Nat.add_comm]
    rw [top, Nat.testBit_two_pow_mul_add _ (bitsOf_lt n p)]
    rcases Nat.lt_trichotomy j n with lt | rfl | gt
    · simp [lt, ih, Nat.lt_succ_of_lt lt]
    · cases p j <;> simp
    · have past : (p n).toNat < 2 ^ (j - n) :=
        Nat.lt_of_le_of_lt (Bool.toNat_le _) (Nat.one_lt_two_pow (by omega))
      rw [if_neg (by omega), Nat.testBit_lt_two_pow past]
      simp [show ¬ j < n + 1 by omega]

/-! ## A command on a register -/

theorem onReg_of_unreached {s : State} {fn off : Nat} (h : s.barUp fn = false ∨ s.fnReg fn off = none)
    (p : RegLoc → Bool) (f : State → RegLoc → State) : s.onReg fn off p f = s := by
  unfold State.onReg
  rcases h with down | nothing
  · split
    · rw [down, Bool.false_and, when_false]
    · rfl
  · rw [nothing]

theorem onReg_of_reached {s : State} {fn off : Nat} {l : RegLoc} (up : s.barUp fn = true) (h : s.fnReg fn off = some l)
    {p : RegLoc → Bool} (hp : p l = true) (f : State → RegLoc → State) : s.onReg fn off p f = f s l := by
  unfold State.onReg
  rw [h]
  simp only [up, hp, Bool.and_self, when_true]

/-- R407: a source in level mode keeps its pending bit. -/
theorem clearable_pend (s : State) {l : RegLoc} (hn : l.row.name = .ICU_PEND) (v : W64) {j : Nat} (hj : j < 16) :
    (s.clearable l v).getLsbD j = (v.getLsbD j && s.srcMode (16 * l.idx + j) != 0) := by
  unfold State.clearable
  rw [if_pos hn, BitVec.getLsbD_ofNat, testBit_bitsOf]
  simp [hj, show j < 64 by omega]

theorem clearBits_pend_regs (s : State) {l : RegLoc} (hn : l.row.name = .ICU_PEND) (v hw : W64) :
    (s.clearBits l v hw).regs = s.regs := by
  unfold State.clearBits
  rw [if_pos hn]

/-- Bit `j` of a write to ICU_PEND, of the source that it names (R7, R407). -/
theorem clearBits_pend (s : State) {l : RegLoc} (hn : l.row.name = .ICU_PEND) (hm : l.row.mask = 0xffff) (v hw : W64)
    {j : Nat} (hj : j < 16) (hi : 16 * l.idx + j < 512) :
    (s.clearBits l v hw).icu.pend.getLsbD (16 * l.idx + j) =
      (hw.getLsbD j || (s.icu.pend.getLsbD (16 * l.idx + j) && !(v.getLsbD j && s.srcMode (16 * l.idx + j) != 0))) := by
  have masked : (BitVec.ofNat 64 l.row.mask).getLsbD j = true := by
    rw [hm]
    have all : ∀ k < 16, (BitVec.ofNat 64 0xffff).getLsbD k = true := by decide
    exact all j hj
  have placed (x : W64) : ((x &&& BitVec.ofNat 64 l.row.mask).setWidth 512 <<< (16 * l.idx)).getLsbD (16 * l.idx + j) =
      x.getLsbD j := by
    rw [BitVec.getLsbD_shiftLeft, Nat.add_sub_cancel_left, BitVec.getLsbD_setWidth, BitVec.getLsbD_and, masked]
    simp [hi, show j < 512 by omega]
  unfold State.clearBits
  rw [if_pos hn]
  dsimp only
  rw [BitVec.getLsbD_or, BitVec.getLsbD_and, BitVec.getLsbD_not, placed, placed, clearable_pend s hn v hj,
    decide_eq_true hi, Bool.true_and, Bool.or_comm]

/-- Every W1C register but ICU_PEND keeps its own bits. -/
theorem clearBits_eq_updReg (s : State) {l : RegLoc} (hn : l.row.name ≠ .ICU_PEND) (v hw : W64) :
    s.clearBits l v hw = s.updReg l.row.name l.unit l.idx (fun x =>
      (x &&& ~~~(v &&& BitVec.ofNat 64 l.row.mask)) ||| (hw &&& BitVec.ofNat 64 l.row.mask)) := by
  unfold State.clearBits
  rw [if_neg hn]

/-- A bit of a W1C register after a write: one that hardware sets prevails (R7). -/
theorem getLsbD_cleared (x v hw : W64) {m j : Nat} (hj : j < 64) (hm : m.testBit j = true) :
    ((x &&& ~~~(v &&& BitVec.ofNat 64 m)) ||| (hw &&& BitVec.ofNat 64 m)).getLsbD j =
      (hw.getLsbD j || (x.getLsbD j && !v.getLsbD j)) := by
  have masked : (BitVec.ofNat 64 m).getLsbD j = true := by
    rw [BitVec.getLsbD_ofNat, hm, decide_eq_true hj, Bool.true_and]
  rw [BitVec.getLsbD_or, BitVec.getLsbD_and, BitVec.getLsbD_not, BitVec.getLsbD_and, BitVec.getLsbD_and, masked,
    decide_eq_true hj, Bool.and_true, Bool.and_true, Bool.true_and, Bool.or_comm]

/-- W1C_WRITE clears bits of the register that it names (R6). -/
theorem exec_w1cWrite (fn off : Nat) (val hwSet : W64) (s : State) :
    exec (.w1cWrite fn off val hwSet) s =
      .next (s.onReg fn off (fun l => l.row.acc == .w1c) (fun s l => s.clearBits l val hwSet)) := rfl

/-- Settles O35: the write is `State.clearBits` of an instance of a row; its bits are those of `clearBits_pend` and
`getLsbD_cleared`, and two instances never share an offset. -/
theorem setBitsPrevailOverClears : Obligations.SetBitsPrevailOverClears := by
  intro fn off val hwSet s
  have frame := execW1cWrite_keeps (.refl s) fn off val hwSet (Within.mem clearBitsChanges)
  refine completes_of (exec_w1cWrite fn off val hwSet s) frame (fun _ h => h) ⟨?_, ?_⟩
  · exact fun unreached => onReg_of_unreached unreached _ _
  · intro l up found w1c
    obtain ⟨row, ok⟩ := fnReg_some found
    rw [onReg_of_reached up found (p := fun l => l.row.acc == .w1c) (beq_iff_eq.2 w1c)]
    refine ⟨fun other => ?_, fun pend => ⟨clearBits_pend_regs s pend val hwSet, ?_⟩⟩
    · rw [clearBits_eq_updReg s other]
      refine ⟨by simp, fun j hj masked => ?_, fun r u i okr ne => updReg_reg_other s _ okr ne⟩
      rw [updReg_reg _ _ _ _ _ ok, getLsbD_cleared _ _ _ hj masked]
    · rintro j hj i rfl hi
      exact clearBits_pend s pend (mask_of_pend row pend) val hwSet hj hi

end Sys2Proof.Machine
end

section
/-! SUPPORT. Host requests to reserved space of BAR0 and to that of an absent unit (R5). -/

namespace Sys2Proof.Machine

theorem leBytes_zero (n : Nat) : leBytes n 0 = List.replicate n 0x00#8 := by
  induction n with
  | zero => rfl
  | succ n ih => rw [leBytes, Nat.zero_div, ih, List.replicate_succ]

/-- A word of BAR0 with no register of a present unit is reserved to the PF. -/
theorem reserved0_pf {s : State} {off : Nat}
    (h : ∀ l, regAt off = some l → blockPresent s.dev.part l.row.blk l.unit = false) : s.reserved0 0 off = true := by
  have unreached : s.fnReg 0 off = none := by
    refine Option.filter_eq_none_iff.2 fun l found => ?_
    simp [h l found]
  unfold State.reserved0
  rw [unreached]
  rfl

/-- An access to BAR0 lies in reserved space when its one or two words do. -/
theorem allReserved_of_words {s : State} {fn off n : Nat} (low : s.reserved0 fn off = true)
    (high : n ≠ 4 → s.reserved0 fn (off + 4) = true) : s.allReserved fn 0 off n = true := by
  unfold State.allReserved
  simp only [if_true, low, Bool.true_and, Bool.or_eq_true, beq_iff_eq]
  exact Decidable.or_iff_not_imp_left.2 high

theorem hostReadReq_reserved {s : State} {fn off n : Nat} (al : aligned48 off n = true)
    (h : s.allReserved fn 0 off n = true) : s.hostReadReq fn 0 off n = s.answer fn n 0 := by
  unfold State.hostReadReq
  simp [al, h]

theorem hostWriteReq_reserved {s : State} {fn off : Nat} {data : List Byte} (al : aligned48 off data.length = true)
    (h : s.allReserved fn 0 off data.length = true) (ep : Bool) : s.hostWriteReq fn 0 off data ep = s := by
  unfold State.hostWriteReq State.writeBar
  simp [al, h]

theorem exec_hostMemoryRequest (fn bar off : Nat) (acc : HostAccess) (s : State) :
    exec (.hostMemoryRequest fn bar off acc) s = execHostMemoryRequest fn bar off acc s := rfl

/-- A read request that the function takes (R387). -/
theorem exec_hostRead {s : State} {fn bar off n : Nat} (alive : s.linkAlive = true) (mem : s.memEnabled fn = true)
    (inside : s.inBar fn bar off n = true) :
    exec (.hostMemoryRequest fn bar off (.read n)) s = .next (s.hostReadReq fn bar off n) := by
  rw [exec_hostMemoryRequest]
  unfold execHostMemoryRequest
  simp [alive, mem, inside]

/-- A write request that the function takes (R387). -/
theorem exec_hostWrite {s : State} {fn bar off : Nat} {data : List Byte} (ep : Bool) (alive : s.linkAlive = true)
    (mem : s.memEnabled fn = true) (inside : s.inBar fn bar off data.length = true) :
    exec (.hostMemoryRequest fn bar off (.write data ep)) s = .next (s.hostWriteReq fn bar off data ep) := by
  rw [exec_hostMemoryRequest]
  unfold execHostMemoryRequest
  simp [alive, mem, inside]

/-- Settles O58: each word of the access is reserved to the PF, so a read is answered with 0 and a write is discarded. -/
theorem reservedSpaceReadsZero : Obligations.ReservedSpaceReadsZero := by
  intro off n s alive mem inside size natural absent
  have al : aligned48 off n = true := by simp [aligned48, size, natural]
  have res : s.allReserved 0 0 off n = true :=
    allReserved_of_words (reserved0_pf (absent 0 (.inl rfl)))
      (fun wide => reserved0_pf (absent 4 (.inr ⟨rfl, size.resolve_left wide⟩)))
  constructor
  · rw [exec_hostRead alive mem inside, hostReadReq_reserved al res]
    simp only [State.answer, State.send, leBytes_zero]
  · rintro data ep rfl
    rw [exec_hostWrite ep alive mem inside, hostWriteReq_reserved al res]

end Sys2Proof.Machine
end

section
/-! SUPPORT. The effective cap and the register that shows it (R358). -/

namespace Sys2Proof.Machine

theorem effCap_no_cap {s : State} (own : s.regNat .WEIR_CAP_MW 0 0 = 0) (board : s.regNat .WEIR_CAP_ODROV_MW 0 0 = 0) :
    s.effCap = 0 := by
  simp [State.effCap, own, board]

theorem effCap_own_only {s : State} (own : s.regNat .WEIR_CAP_MW 0 0 ≠ 0)
    (board : s.regNat .WEIR_CAP_ODROV_MW 0 0 = 0) :
    s.effCap = max (s.regNat .WEIR_CAP_MW 0 0) (brakeFloorMw s.dev.part) := by
  simp [State.effCap, own, board]

theorem effCap_board_only {s : State} (own : s.regNat .WEIR_CAP_MW 0 0 = 0)
    (board : s.regNat .WEIR_CAP_ODROV_MW 0 0 ≠ 0) :
    s.effCap = max (s.regNat .WEIR_CAP_ODROV_MW 0 0) (brakeFloorMw s.dev.part) := by
  simp [State.effCap, own, board]

/-- The lower of two caps that apply is itself not 0, so it applies. -/
theorem effCap_both {s : State} (own : s.regNat .WEIR_CAP_MW 0 0 ≠ 0) (board : s.regNat .WEIR_CAP_ODROV_MW 0 0 ≠ 0) :
    s.effCap =
      max (min (s.regNat .WEIR_CAP_MW 0 0) (s.regNat .WEIR_CAP_ODROV_MW 0 0)) (brakeFloorMw s.dev.part) := by
  have lower : min (s.regNat .WEIR_CAP_MW 0 0) (s.regNat .WEIR_CAP_ODROV_MW 0 0) ≠ 0 := by omega
  simp only [State.effCap, own, board, lower, if_false]

/-- What lies at the offset of WEIR_CAP_EFF_MW: that register of Weir, read-only (R379). -/
theorem regAt_capEff : ∃ l, regAt (regOff .WEIR_CAP_EFF_MW 0 0) = some l ∧ l.row.blk = .weir ∧
    l.row.name = .WEIR_CAP_EFF_MW ∧ l.row.acc = .ro := by
  have row : (regAt (regOff .WEIR_CAP_EFF_MW 0 0)).map (fun l => (l.row.blk, l.row.name, l.row.acc)) =
      some (.weir, .WEIR_CAP_EFF_MW, .ro) := by decide
  simpa [Option.map_eq_some_iff] using row

/-- WEIR_CAP_EFF_MW shows the effective cap. -/
theorem peek_capEff (s : State) {l : RegLoc} (blk : l.row.blk = .weir) (name : l.row.name = .WEIR_CAP_EFF_MW)
    (acc : l.row.acc = .ro) : s.peek l = BitVec.ofNat 64 s.effCap := by
  simp only [State.peek, State.readReg, State.viewWeir, blk, name, acc, reduceCtorEq, if_false]

/-- Settles O60: one lemma for each of the four cases of R358, and the row of WEIR_CAP_EFF_MW; the floor that the statement
spells out is `brakeFloorMw`. -/
theorem effectiveCap : Obligations.EffectiveCap := by
  intro s own board floor
  have table : floor = brakeFloorMw s.dev.part := rfl
  rw [table]
  refine ⟨effCap_no_cap, effCap_own_only, effCap_board_only, effCap_both, ?_⟩
  obtain ⟨l, found, blk, name, ro⟩ := regAt_capEff
  exact ⟨l, found, ro, peek_capEff s blk name ro⟩

end Sys2Proof.Machine
end

section
/-! SUPPORT. The value of an anti-rollback counter, and the checks that compare with it (R435, R439, Table 2.16). -/

namespace Sys2Proof.Machine

/-! ## The value of a counter -/

theorem counterVal_eq_count (v : W64) : counterVal v = Nat.count (fun i => v.getLsbD i = true) 64 := by
  simp [counterVal, Nat.count, List.countP_eq_length_filter]

theorem counterVal_le (v : W64) : counterVal v ≤ 64 := by
  rw [counterVal_eq_count]
  exact Nat.count_le _

theorem counterVal_eq_zero_iff (v : W64) : counterVal v = 0 ↔ v = 0 := by
  rw [counterVal_eq_count, Nat.count_iff_forall_not]
  constructor
  · intro unset
    exact BitVec.eq_of_getLsbD_eq fun i hi => by simpa using unset i hi
  · rintro rfl i -
    simp

/-- A number that a predicate does not hold of adds one to the count when it is let in. -/
theorem count_or_eq {p : Nat → Prop} [DecidablePred p] {i n : Nat} (hi : i < n) (out : ¬p i) :
    Nat.count (fun k => p k ∨ k = i) n = Nat.count p n + 1 := by
  have grown : (Finset.range n).filter (fun k => p k ∨ k = i) = insert i ((Finset.range n).filter p) := by
    ext k
    simp only [Finset.mem_filter, Finset.mem_insert, Finset.mem_range]
    constructor
    · rintro ⟨hk, hp | rfl⟩
      · exact .inr ⟨hk, hp⟩
      · exact .inl rfl
    · rintro (rfl | ⟨hk, hp⟩)
      · exact ⟨hi, .inr rfl⟩
      · exact ⟨hk, .inl hp⟩
  rw [Nat.count_eq_card_filter_range, Nat.count_eq_card_filter_range, grown,
    Finset.card_insert_of_notMem (by simp [out])]

theorem getLsbD_setBit {i : Nat} (v : W64) (hi : i < 64) (k : Nat) :
    (v ||| 1#64 <<< i).getLsbD k = true ↔ v.getLsbD k = true ∨ k = i := by
  rw [← BitVec.twoPow_eq, BitVec.getLsbD_or, BitVec.getLsbD_twoPow]
  simp only [hi, decide_true, Bool.true_and, Bool.or_eq_true, decide_eq_true_eq, eq_comm (a := i)]

/-- A fuse that is programmed adds one to its counter. -/
theorem counterVal_setBit {v : W64} {i : Nat} (hi : i < 64) (unset : v.getLsbD i = false) :
    counterVal (v ||| 1#64 <<< i) = counterVal v + 1 := by
  simp only [counterVal_eq_count, getLsbD_setBit v hi]
  exact count_or_eq hi (by simp [unset])

/-! ## Firmware -/

/-- Step 4 of R439: with both signatures good the counter alone decides. -/
theorem fwVerdict_eq_none_iff {v : Verdict} (endorsed : v.endorsed = true) (signed : v.signed = true)
    (s : State) (k sec : Nat) : s.fwVerdict k sec v = none ↔ counterVal (s.dev.fuses.fw k) ≤ sec := by
  simp [State.fwVerdict, endorsed, signed]

/-! ## Images -/

/-- Whether a check never ends in the status of a rollback. -/
def NotRollback (c : Option LoadErr) : Prop := ∀ x, c = some x → x.status ≠ Status.imgRollback

theorem must_eq_none_iff {c : Bool} {e : LoadErr} : must c e = none ↔ c = true := by
  cases c <;> simp [must]

theorem must_eq_some_iff {c : Bool} {e x : LoadErr} : must c e = some x ↔ c = false ∧ e = x := by
  cases c <;> simp [must]

/-- A check at the end of a list is met where all before it pass. -/
theorem firstErr_concat (es : List (Option LoadErr)) (c : Option LoadErr) :
    firstErr (es ++ [c]) = (firstErr es).or c := by
  induction es with
  | nil => cases c <;> rfl
  | cons e es ih =>
    cases e with
    | none => exact ih
    | some e => rfl

theorem notRollback_firstErr {es : List (Option LoadErr)} (each : ∀ c ∈ es, NotRollback c) :
    NotRollback (firstErr es) := by
  induction es with
  | nil => rintro x ⟨⟩
  | cons e es ih =>
    obtain ⟨first, others⟩ := List.forall_mem_cons.1 each
    cases e with
    | none => exact ih others
    | some e => exact first

/-- A check with another status. -/
theorem notRollback_must (c : Bool) {st : W16} {sec entry : Nat} (other : st ≠ Status.imgRollback) :
    NotRollback (must c (loadErr st sec entry)) := by
  intro x h
  obtain ⟨-, rfl⟩ := must_eq_some_iff.1 h
  exact other

theorem blockPoison_status {s : State} {port b : Nat} {st : W16} (h : s.blockPoison port b = some st) :
    st = Status.poisonMade ∨ st = Status.poisonRead := by
  unfold State.blockPoison at h
  split at h
  · cases h
  · obtain ⟨-, made⟩ | ⟨-, read⟩ := ite_eq_iff.1 h
    · exact .inl (Option.some.inj made).symm
    · exact .inr (Option.some.inj read).symm

theorem poisonIn_status {s : State} {port b n : Nat} {st : W16} (h : s.poisonIn port b n = some st) :
    st = Status.poisonMade ∨ st = Status.poisonRead := by
  induction n generalizing b with
  | zero => cases h
  | succ n ih =>
    unfold State.poisonIn at h
    split at h
    · next found => exact blockPoison_status (found.trans h)
    · exact ih h

/-- A poisoned block of the staging copy ends the load with a status of its own (R474). -/
theorem notRollback_stagePoison (s : State) (a n : Nat) : NotRollback (s.stagePoison a n) := by
  intro x h
  obtain ⟨st, found, rfl⟩ := Option.map_eq_some_iff.1 h
  obtain rfl | rfl := poisonIn_status found
  · decide
  · decide

/-- The checks of a header: some that never end in a rollback, and the comparison with the counter as the last. -/
theorem checkHeader_counter_last (s : State) (j : LoadJob) (g : Stage) (v : Verdict) : ∃ es,
    (∀ c ∈ es, NotRollback c) ∧ s.checkHeader j g v = firstErr (es ++
      [must (counterVal s.dev.fuses.arbImage ≤ s.hdrRd j.addr 0x24 4) (loadErr Status.imgRollback noSec 0)]) := by
  refine ⟨[_, _, _, _, _, _, _, _, _, _], ?_, rfl⟩
  simp (disch := decide) [notRollback_must, notRollback_stagePoison]

theorem counter_le_of_checkHeader {s : State} {j : LoadJob} {g : Stage} {v : Verdict}
    (h : s.checkHeader j g v = none) : counterVal s.dev.fuses.arbImage ≤ s.hdrRd j.addr 0x24 4 := by
  obtain ⟨es, -, checks⟩ := checkHeader_counter_last s j g v
  rw [checks, firstErr_concat] at h
  obtain ⟨-, passed⟩ := Option.or_eq_none_iff.1 h
  exact of_decide_eq_true (must_eq_none_iff.1 passed)

theorem lt_counter_of_checkHeader {s : State} {j : LoadJob} {g : Stage} {v : Verdict} {x : LoadErr}
    (h : s.checkHeader j g v = some x) (rollback : x.status = Status.imgRollback) :
    s.hdrRd j.addr 0x24 4 < counterVal s.dev.fuses.arbImage := by
  obtain ⟨es, others, checks⟩ := checkHeader_counter_last s j g v
  rw [checks, firstErr_concat] at h
  obtain earlier | ⟨-, last⟩ := Option.or_eq_some_iff.1 h
  · exact absurd rollback (notRollback_firstErr others x earlier)
  · obtain ⟨failed, -⟩ := must_eq_some_iff.1 last
    exact Nat.lt_of_not_le (of_decide_eq_false failed)

/-- Settles O59: the bits of a counter are counted by `Nat.count`, a firmware image is taken by `fwVerdict_eq_none_iff`, and
the comparison with the counter is the last of a header's checks and the only one with its status. -/
theorem antiRollbackCounters : Obligations.AntiRollbackCounters := by
  refine ⟨fun v => ⟨counterVal_le v, counterVal_eq_zero_iff v, fun i hi unset => counterVal_setBit hi unset⟩,
    fun s k sec v endorsed signed => fwVerdict_eq_none_iff endorsed signed s k sec,
    fun s j swap v => ⟨counter_le_of_checkHeader, fun h => ?_⟩⟩
  obtain ⟨x, found, rollback⟩ := Option.map_eq_some_iff.1 h
  exact lt_counter_of_checkHeader found rollback

end Sys2Proof.Machine
end

section
/-! SUPPORT. What every command keeps: one case for each command, each the lemma of that command. -/

set_option Elab.async false

namespace Sys2Proof.Machine

/-- Every component may change: the frame in which only what no command changes is left. -/
abbrev anyComp : Comp → Prop := fun _ => True

theorem within_anyComp (l : List Comp) : Within l anyComp := fun _ _ => trivial

/-- Every command keeps the queue, the messages already sent, the part, the fuse bits and the canonical form. -/
theorem exec_keeps (c : Instr) (s : State) : KeepsOut anyComp s (exec c s) := by
  have kept : Keeps anyComp s s := .refl s
  cases c with
  | registerWrite fn off wide val => exact execRegisterWrite_keeps kept fn off wide val (within_anyComp _)
  | rcRead fn off event => exact execRcRead_keeps kept fn off event (within_anyComp _)
  | w1cWrite fn off val hwSet => exact execW1cWrite_keeps kept fn off val hwSet (within_anyComp _)
  | w1sWrite fn off val => exact execW1sWrite_keeps kept fn off val (within_anyComp _)
  | lowWordRead fn off => exact execLowWordRead_keeps kept fn off (within_anyComp _)
  | lowWordWrite fn off val => exact execLowWordWrite_keeps kept fn off val (within_anyComp _)
  | highWordWrite fn off val => exact execHighWordWrite_keeps kept fn off val (within_anyComp _)
  | imgLoad => exact execImgLoad_keeps kept (within_anyComp _)
  | imgLoadComplete e => exact execImgLoadComplete_keeps kept e (within_anyComp _)
  | imgLock => exact execImgLock_keeps kept (within_anyComp _)
  | imgUnload => exact execImgUnload_keeps kept (within_anyComp _)
  | imgUnloadComplete => exact execImgUnloadComplete_keeps kept (within_anyComp _)
  | imgSwap v => exact execImgSwap_keeps kept v (within_anyComp _)
  | swapComplete => exact execSwapComplete_keeps kept (within_anyComp _)
  | segmentRetire seg => exact execSegmentRetire_keeps kept seg (within_anyComp _)
  | commandIssue ctx => exact execCommandIssue_keeps kept ctx (within_anyComp _)
  | tileClaim core => exact execTileClaim_keeps kept core (within_anyComp _)
  | load core => exact execLoad_keeps kept core (within_anyComp _)
  | loadComplete core => exact execLoadComplete_keeps kept core (within_anyComp _)
  | xscan core => exact execXscan_keeps kept core (within_anyComp _)
  | xscanComplete core => exact execXscanComplete_keeps kept core (within_anyComp _)
  | init e => exact execInit_keeps kept e (within_anyComp _)
  | stream core => exact execStream_keeps kept core (within_anyComp _)
  | drain core => exact execDrain_keeps kept core (within_anyComp _)
  | spill core => exact execSpill_keeps kept core (within_anyComp _)
  | drainComplete core => exact execDrainComplete_keeps kept core (within_anyComp _)
  | xptr core => exact execXptr_keeps kept core (within_anyComp _)
  | fence core => exact execFence_keeps kept core (within_anyComp _)
  | publish core => exact execPublish_keeps kept core (within_anyComp _)
  | waitcnt core => exact execWaitcnt_keeps kept core (within_anyComp _)
  | waitcntPass core => exact execWaitcntPass_keeps kept core (within_anyComp _)
  | tileCommit core => exact execTileCommit_keeps kept core (within_anyComp _)
  | commandKill ctx => exact execCommandKill_keeps kept ctx (within_anyComp _)
  | coreIdle core => exact execCoreIdle_keeps kept core (within_anyComp _)
  | commandReissue ctx => exact execCommandReissue_keeps kept ctx (within_anyComp _)
  | coreFault core status => exact execCoreFault_keeps kept core status (within_anyComp _)
  | tcFaultRead core event => exact execTcFaultRead_keeps kept core event (within_anyComp _)
  | ringPoll rill lateUs header descs => exact execRingPoll_keeps kept rill lateUs header descs (within_anyComp _)
  | auCopyComplete rill data => exact execAuCopyComplete_keeps kept rill data (within_anyComp _)
  | statusRecordPeriodic rill => exact execStatusRecordPeriodic_keeps kept rill (within_anyComp _)
  | registryScan entries stopAt => exact execRegistryScan_keeps kept entries stopAt (within_anyComp _)
  | rillDrainComplete rill => exact execRillDrainComplete_keeps kept rill (within_anyComp _)
  | decodeTurn engine parse => exact execDecodeTurn_keeps kept engine parse (within_anyComp _)
  | quantumExpire engine work => exact execQuantumExpire_keeps kept engine work (within_anyComp _)
  | budgetExceeded engine work slice byteOffset rest areas outputs => exact execBudgetExceeded_keeps kept engine work slice byteOffset rest areas outputs (within_anyComp _)
  | pictureComplete engine work areas outputs => exact execPictureComplete_keeps kept engine work areas outputs (within_anyComp _)
  | engineUtilUpdate engine util => exact execEngineUtilUpdate_keeps kept engine util (within_anyComp _)
  | pixelCommand pxe ctx rill frame => exact execPixelCommand_keeps kept pxe ctx rill frame (within_anyComp _)
  | regionComplete pxe => exact execRegionComplete_keeps kept pxe (within_anyComp _)
  | trackCommand ctx rill frame => exact execTrackCommand_keeps kept ctx rill frame (within_anyComp _)
  | trackCommandCommit rill => exact execTrackCommandCommit_keeps kept rill (within_anyComp _)
  | stepStart ctx cluster => exact execStepStart_keeps kept ctx cluster (within_anyComp _)
  | sliceEnd lane => exact execSliceEnd_keeps kept lane (within_anyComp _)
  | bringIn ctx cluster => exact execBringIn_keeps kept ctx cluster (within_anyComp _)
  | bringInComplete ctx cluster => exact execBringInComplete_keeps kept ctx cluster (within_anyComp _)
  | contextEvict cluster waiting => exact execContextEvict_keeps kept cluster waiting (within_anyComp _)
  | starvedTick ctx cluster => exact execStarvedTick_keeps kept ctx cluster (within_anyComp _)
  | move e => exact execMove_keeps kept e (within_anyComp _)
  | headExport ctx rill frame => exact execHeadExport_keeps kept ctx rill frame (within_anyComp _)
  | dramRead port block firstBad secondBad second => exact execDramRead_keeps kept port block firstBad secondBad second (within_anyComp _)
  | dramWrite port block data => exact execDramWrite_keeps kept port block data (within_anyComp _)
  | partialWrite port addr data firstBad secondBad second => exact execPartialWrite_keeps kept port addr data firstBad secondBad second (within_anyComp _)
  | bankRefresh channel bank => exact execBankRefresh_keeps kept channel bank (within_anyComp _)
  | selfRefreshEntry => exact execSelfRefreshEntry_keeps kept (within_anyComp _)
  | recalStart dmc group => exact execRecalStart_keeps kept dmc group (within_anyComp _)
  | recalEnd dmc => exact execRecalEnd_keeps kept dmc (within_anyComp _)
  | recalTimeout dmc => exact execRecalTimeout_keeps kept dmc (within_anyComp _)
  | trainingCommand dmc channel pattern => exact execTrainingCommand_keeps kept dmc channel pattern (within_anyComp _)
  | trainingComplete dmc pass => exact execTrainingComplete_keeps kept dmc pass (within_anyComp _)
  | delayRegisterWrite off val => exact execDelayRegisterWrite_keeps kept off val (within_anyComp _)
  | tempDrift dmc group temp => exact execTempDrift_keeps kept dmc group temp (within_anyComp _)
  | bufferAlloc pool => exact execBufferAlloc_keeps kept pool (within_anyComp _)
  | bufferRelease handle => exact execBufferRelease_keeps kept handle (within_anyComp _)
  | cacheRefill pool => exact execCacheRefill_keeps kept pool (within_anyComp _)
  | cisternHostFree fn handle => exact execCisternHostFree_keeps kept fn handle (within_anyComp _)
  | poolReinitComplete pool => exact execPoolReinitComplete_keeps kept pool (within_anyComp _)
  | powerGate d => exact execPowerGate_keeps kept d (within_anyComp _)
  | domainWake d => exact execDomainWake_keeps kept d (within_anyComp _)
  | domainWakeComplete d => exact execDomainWakeComplete_keeps kept d (within_anyComp _)
  | operatingPointChange cluster => exact execOperatingPointChange_keeps kept cluster (within_anyComp _)
  | clockSwitch cluster => exact execClockSwitch_keeps kept cluster (within_anyComp _)
  | powerSample mw energyUj => exact execPowerSample_keeps kept mw energyUj (within_anyComp _)
  | capAdjust => exact execCapAdjust_keeps kept (within_anyComp _)
  | capWindowEnd mw => exact execCapWindowEnd_keeps kept mw (within_anyComp _)
  | brakeAssert => exact execBrakeAssert_keeps kept (within_anyComp _)
  | brakeDeassert => exact execBrakeDeassert_keeps kept (within_anyComp _)
  | clusterRestart cluster => exact execClusterRestart_keeps kept cluster (within_anyComp _)
  | vrAlertAssert => exact execVrAlertAssert_keeps kept (within_anyComp _)
  | vrAlertDeassert => exact execVrAlertDeassert_keeps kept (within_anyComp _)
  | droopDetect cluster mv => exact execDroopDetect_keeps kept cluster mv (within_anyComp _)
  | droopRecover cluster => exact execDroopRecover_keeps kept cluster (within_anyComp _)
  | sprintEntry => exact execSprintEntry_keeps kept (within_anyComp _)
  | sprintBudgetTick => exact execSprintBudgetTick_keeps kept (within_anyComp _)
  | excursionLimit ampsMilli us => exact execExcursionLimit_keeps kept ampsMilli us (within_anyComp _)
  | residencyBinTick minute => exact execResidencyBinTick_keeps kept minute (within_anyComp _)
  | thermalSample temps => exact execThermalSample_keeps kept temps (within_anyComp _)
  | thermalLimitStep cluster => exact execThermalLimitStep_keeps kept cluster (within_anyComp _)
  | hardStop => exact execHardStop_keeps kept (within_anyComp _)
  | flowLostAssert => exact execFlowLostAssert_keeps kept (within_anyComp _)
  | coolantStopReached => exact execCoolantStopReached_keeps kept (within_anyComp _)
  | flowLostDeassert => exact execFlowLostDeassert_keeps kept (within_anyComp _)
  | resume => exact execResume_keeps kept (within_anyComp _)
  | autoResume => exact execAutoResume_keeps kept (within_anyComp _)
  | configRequest fn off width write => exact execConfigRequest_keeps kept fn off width write (within_anyComp _)
  | hostMemoryRequest fn bar off acc => exact execHostMemoryRequest_keeps kept fn bar off acc (within_anyComp _)
  | vendorDefinedMessage fn body => exact execVendorDefinedMessage_keeps kept fn body (within_anyComp _)
  | deviceReadFail kind addr => exact execDeviceReadFail_keeps kept kind addr (within_anyComp _)
  | completionTimeout kind addr => exact execCompletionTimeout_keeps kept kind addr (within_anyComp _)
  | lateCompletion fn => exact execLateCompletion_keeps kept fn (within_anyComp _)
  | flrInitiate fn => exact execFlrInitiate_keeps kept fn (within_anyComp _)
  | dmaSilenced fn => exact execDmaSilenced_keeps kept fn (within_anyComp _)
  | flrComplete fn => exact execFlrComplete_keeps kept fn (within_anyComp _)
  | vfEnableSet => exact execVfEnableSet_keeps kept (within_anyComp _)
  | vfEnableClear => exact execVfEnableClear_keeps kept (within_anyComp _)
  | d3hotEntry fn => exact execD3hotEntry_keeps kept fn (within_anyComp _)
  | standbyEntry => exact execStandbyEntry_keeps kept (within_anyComp _)
  | hotReset boot => exact execHotReset_keeps kept boot (within_anyComp _)
  | perstAssert => exact execPerstAssert_keeps kept (within_anyComp _)
  | fundamentalReset boot => exact execFundamentalReset_keeps kept boot (within_anyComp _)
  | deviceReady => exact execDeviceReady_keeps kept (within_anyComp _)
  | sourceEdge src rise => exact execSourceEdge_keeps kept src rise (within_anyComp _)
  | groupDelivery g => exact execGroupDelivery_keeps kept g (within_anyComp _)
  | holdoffExpire g => exact execHoldoffExpire_keeps kept g (within_anyComp _)
  | aowMatch slot => exact execAowMatch_keeps kept slot (within_anyComp _)
  | aowTimerExpire => exact execAowTimerExpire_keeps kept (within_anyComp _)
  | thymeSet val => exact execThymeSet_keeps kept val (within_anyComp _)
  | alarmFire k => exact execAlarmFire_keeps kept k (within_anyComp _)
  | tsyncFrameSend => exact execTsyncFrameSend_keeps kept (within_anyComp _)
  | tsyncFrameReceive edgeNs bits => exact execTsyncFrameReceive_keeps kept edgeNs bits (within_anyComp _)
  | tsyncTimeout => exact execTsyncTimeout_keeps kept (within_anyComp _)
  | snapshotNow => exact execSnapshotNow_keeps kept (within_anyComp _)
  | snapInEdge => exact execSnapInEdge_keeps kept (within_anyComp _)
  | snapshotTimeMatch => exact execSnapshotTimeMatch_keeps kept (within_anyComp _)
  | snapshotComplete => exact execSnapshotComplete_keeps kept (within_anyComp _)
  | watchdogExpire p => exact execWatchdogExpire_keeps kept p (within_anyComp _)
  | spdmRequest t code malformed busy request => exact execSpdmRequest_keeps kept t code malformed busy request (within_anyComp _)
  | mctpMessage b body => exact execMctpMessage_keeps kept b body (within_anyComp _)
  | writeSlot sub v => exact execWriteSlot_keeps kept sub v (within_anyComp _)
  | activate sub v => exact execActivate_keeps kept sub v (within_anyComp _)
  | commit sub => exact execCommit_keeps kept sub (within_anyComp _)
  | advanceImage => exact execAdvanceImage_keeps kept (within_anyComp _)
  | writeBoard => exact execWriteBoard_keeps kept (within_anyComp _)
  | mailboxCommandComplete => exact execMailboxCommandComplete_keeps kept (within_anyComp _)
  | firmwareSwitch sub engine => exact execFirmwareSwitch_keeps kept sub engine (within_anyComp _)
  | supplySample vauxMv vddioMv => exact execSupplySample_keeps kept vauxMv vddioMv (within_anyComp _)
  | vauxApply => exact execVauxApply_keeps kept (within_anyComp _)
  | aoPorRelease => exact execAoPorRelease_keeps kept (within_anyComp _)
  | railRemoval r => exact execRailRemoval_keeps kept r (within_anyComp _)
  | linkUp rate width flit => exact execLinkUp_keeps kept rate width flit (within_anyComp _)

theorem exec_next_keeps {c : Instr} {s t : State} (h : exec c s = .next t) : Keeps anyComp s t := by
  have k := exec_keeps c s
  rwa [h] at k

theorem step_of_empty {s : State} (h : s.pending = []) : step s = .next s.tick := by
  unfold step
  rw [h]

theorem step_of_cons {c : Instr} {rest : List Instr} {s : State} (h : s.pending = c :: rest) :
    step s = exec c { s with pending := rest } := by
  unfold step
  rw [h]

/-- A step starts from the state itself on an empty queue, else from the state without the command that it takes; from there
on it keeps what every command keeps. -/
theorem step_next_keeps {s t : State} (h : step s = .next t) : Keeps anyComp { s with pending := s.pending.tail } t := by
  cases q : s.pending with
  | nil =>
    rw [step_of_empty q] at h
    cases h
    have same : { s with pending := ([] : List Instr) } = s := by rw [← q]
    rw [List.tail_nil, same]
    exact tick_keeps (.refl s) (within_anyComp _)
  | cons c rest => exact exec_next_keeps ((step_of_cons q).symm.trans h)

/-- Settles O1: it is the second case of `step`. -/
theorem stepRunsFrontCommand : Obligations.StepRunsFrontCommand :=
  fun _ _ _ h => step_of_cons h

/-- Settles O4: the canonical form is the part `mem` of `Keeps`. -/
theorem memoriesStayCanonical : Obligations.MemoriesStayCanonical := by
  intro s t wf h
  exact (State.memWf_iff t).2 ((step_next_keeps h).mem ((State.memWf_iff s).1 wf))

/-- Settles O5: the fuses are the part `fuses` of `Keeps`. -/
theorem fuseBitsNeverReturnToZero : Obligations.FuseBitsNeverReturnToZero :=
  fun _ _ h => (step_next_keeps h).fuses

/-- Settles O6: the queue, what was sent and the part are kept by every command. -/
theorem stepKeepsQueueAndSentMessages : Obligations.StepKeepsQueueAndSentMessages := by
  intro c rest s t q h
  have k := exec_next_keeps ((step_of_cons q).symm.trans h)
  exact ⟨k.pending, k.sent, k.part⟩

/-- Settles O3: the tables of the reset state are evaluated. -/
theorem memoriesCanonicalAtReset : Obligations.MemoriesCanonicalAtReset := by
  unfold Obligations.MemoriesCanonicalAtReset
  decide

end Sys2Proof.Machine
end

section
/-! SUPPORT. An empty queue (log 2), the eight bytes of a handle (R339), the checks of a firmware image (R439). -/

set_option Elab.async false

namespace Sys2Proof.Machine

/-! ## One TIME cycle -/

theorem regOk_aowTimer : regOk .AOW_TIMER_MS 0 0 = true := by decide

theorem tickAow_fields (s : State) : s.tickAow.dev = s.dev ∧ s.tickAow.weir = s.weir ∧ s.tickAow.thy = s.thy ∧
    s.tickAow.icu = s.icu := by
  unfold State.tickAow State.when
  split <;> simp

theorem tickAow_timer (s : State) : s.tickAow.reg .AOW_TIMER_MS 0 0 =
    if s.dev.life = .standby ∧ s.dev.aoNs % 1000000 = 999990 ∧ 1 < s.regNat .AOW_TIMER_MS 0 0 then
      s.reg .AOW_TIMER_MS 0 0 - 1 else s.reg .AOW_TIMER_MS 0 0 := by
  unfold State.tickAow State.when
  simp only [Bool.and_eq_true, beq_iff_eq, decide_eq_true_eq, and_assoc]
  split
  · exact updReg_reg _ _ _ _ _ regOk_aowTimer
  · rfl

theorem get_mapVals {α : Type} [DecidableEq α] {d : Nat → α} {m : SMap α} {f : Nat → α → α} {k : Nat}
    (fresh : SMap.get d m k ≠ d k) (moved : ∀ v, f k v ≠ d k) :
    SMap.get d (SMap.mapVals d m f) k = f k (SMap.get d m k) := by
  induction m with
  | nil => exact absurd rfl fresh
  | cons x m ih =>
    obtain ⟨a, v⟩ := x
    by_cases e : a = k
    · subst e
      simp [SMap.mapVals, SMap.get, moved v]
    · simp only [SMap.get, if_neg e] at fresh ⊢
      rw [← ih fresh]
      simp only [SMap.mapVals, List.filterMap_cons]
      split
      · rfl
      · next kept =>
        split at kept
        · cases kept
        · cases kept
          simp only [SMap.get, if_neg e]

/-- A hold-off timer that runs goes on, and does not end in a tick (R410, log 13). -/
theorem get_tickTimers {m : SMap Nat} {g n : Nat} (h : SMap.get (fun _ => 0) m g = n + 1) :
    SMap.get (fun _ => 0) (tickTimers m) g = max 1 (n + 1 - 5) := by
  unfold tickTimers
  rw [get_mapVals (by omega) (fun v => by omega), h]

theorem tick_of_clocked {s : State} (c : s.clocked = true) : s.tick.thy.now = s.thy.now + 10 ∧
    s.tick.icu.timers = tickTimers s.icu.timers := by
  obtain ⟨dev, -, thy, icu⟩ := tickAow_fields s
  unfold State.tick
  simp only [clocked_congr dev, c, if_true, thy, icu, and_self]

theorem tick_of_unclocked {s : State} (c : s.clocked = false) : s.tick.thy = s.thy ∧ s.tick.icu = s.icu := by
  obtain ⟨dev, -, thy, icu⟩ := tickAow_fields s
  unfold State.tick
  simp only [clocked_congr dev, c, Bool.false_eq_true, if_false, thy, icu, and_self]

theorem tick_dev (s : State) : s.tick.dev = { s.dev with aoNs := s.dev.aoNs + 10 } := by
  obtain ⟨dev, -, -, -⟩ := tickAow_fields s
  unfold State.tick
  dsimp only
  split <;> rw [dev]

theorem atSprint_congr {s t : State} (dev : t.dev = s.dev) (weir : t.weir = s.weir) : t.atSprint = s.atSprint := by
  unfold State.atSprint State.clusters State.clusterLive State.domainLive State.clPwr
  rw [dev, weir]

theorem tick_sprint (s : State) : s.tick.weir.sprint = { s.weir.sprint with
    binNs := if s.clocked = true ∧ s.atSprint = true then s.weir.sprint.binNs + 10 else s.weir.sprint.binNs } := by
  obtain ⟨dev, weir, -, -⟩ := tickAow_fields s
  unfold State.tick
  simp only [clocked_congr dev, atSprint_congr dev weir, weir, ← Bool.and_eq_true]
  cases s.clocked <;> cases s.atSprint <;> rfl

theorem tick_aowTimer (s : State) : s.tick.reg .AOW_TIMER_MS 0 0 = s.tickAow.reg .AOW_TIMER_MS 0 0 := by
  unfold State.tick
  dsimp only
  split <;> rfl

/-- Settles O2: the fields of `State.tick`, one lemma for each. -/
theorem emptyQueuePassesOneTimeCycle : Obligations.EmptyQueuePassesOneTimeCycle := by
  intro s q
  refine ⟨s.tick, step_of_empty q, ((tick_keeps (.refl s) (Within.mem _)).changesOnly).mono (by decide), ?_,
    by rw [tick_dev], tick_sprint s, by rw [tick_aowTimer, tickAow_timer], ?_⟩
  · split
    · next c => exact (tick_of_clocked c).1
    · next c => rw [(tick_of_unclocked (by simpa using c)).1]
  · intro g n h
    split
    · next c => rw [(tick_of_clocked c).2, get_tickTimers h]
    · next c => rw [(tick_of_unclocked (by simpa using c)).2, h]

/-! ## Handles -/

/-- A handle within its ranges as a number (R339). -/
theorem Handle.word_eq {h : Handle} (addr : h.addr < 2 ^ 48) (pool : h.pool < 256) :
    h.word = h.addr + 2 ^ 48 * h.pool := by
  rw [Handle.word, Nat.mod_eq_of_lt addr, Nat.mod_eq_of_lt pool]

theorem handleOf_word {h : Handle} (addr : h.addr < 2 ^ 48) (pool : h.pool < 256) : handleOf h.word = h := by
  rw [Handle.word_eq addr pool]
  unfold handleOf field
  congr 1 <;> omega

/-- Settles O15: the word of a handle is its address plus its pool shifted by 48 bits, below 2^56. -/
theorem handleRoundTrip : Obligations.HandleRoundTrip := by
  intro h addr pool
  have word := Handle.word_eq addr pool
  have fits : h.word < 2 ^ 64 := by omega
  refine ⟨by omega, by omega, by omega, handleOf_word addr pool, ?_⟩
  rw [BitVec.toNat_ofNat, Nat.mod_eq_of_lt fits, handleOf_word addr pool]

/-! ## Firmware -/

/-- Settles O31: the range and its poison come first, then the header, then `State.fwVerdict`. -/
theorem firmwareVerificationOrder : Obligations.FirmwareVerificationOrder := by
  intro s k a len v inRange clean
  unfold State.fwVerify
  rw [inRange, clean]
  dsimp only
  cases header : s.fwHeaderOk k a len with
  | false => rfl
  | true => simp [State.fwVerdict, Status.fwEndorsement, Status.fwSignature, Status.fwRollback]

end Sys2Proof.Machine
end

section
/-! SUPPORT. The register map read backwards: what lies at the offset of a register (R10, Tables 1.8 and 1.9). -/

set_option Elab.async false

namespace Sys2Proof.Machine

/-! ## What the tables meet -/

/-- The high words of a 64-bit row, as a row of their own. -/
def highRow (x : RegRow) : RegRow := { x with off := x.off + 4 }

/-- What the offset of a register of a row leads back to: a row with one repetition has one register in it, and the words of a
64-bit register are apart from every register. -/
def rowReads (x : RegRow) : Bool :=
  decide (x ∈ blockRows x.blk) && (decide (x.count ≠ 1) || decide (x.count2 = 1)) &&
  (!x.wide || (decide (x.count2 = 1) && decide (x.off + rowSpan x + 4 < blockSize x.blk) &&
    (decide (x.count = 1) || decide (4 < x.stride)) && allRows.all (rowsApart (highRow x))))

set_option maxRecDepth 20000 in
theorem allRows_read : allRows.all rowReads = true := by decide +kernel

theorem rowReads_of_mem {x : RegRow} (h : x ∈ allRows) :
    x ∈ blockRows x.blk ∧ (x.count = 1 → x.count2 = 1) ∧ (x.wide = true → x.count2 = 1 ∧
      x.off + rowSpan x + 4 < blockSize x.blk ∧ (x.count = 1 ∨ 4 < x.stride) ∧ ∀ y ∈ allRows, rowsApart (highRow x) y = true) := by
  have reads := List.all_eq_true.1 allRows_read x h
  simp only [rowReads, Bool.and_eq_true, Bool.or_eq_true, Bool.not_eq_true', decide_eq_true_eq, List.all_eq_true] at reads
  obtain ⟨⟨mem, one⟩, high⟩ := reads
  refine ⟨mem, fun e => one.resolve_left (fun ne => ne e), fun wide => ?_⟩
  obtain ⟨⟨⟨single, fits⟩, stride⟩, apart⟩ := high.resolve_left (by simp [wide])
  exact ⟨single, fits, stride, apart⟩

/-! ## The block of an offset -/

theorem locate_blockBase {b : Block} {u p : Nat} (hu : u < blockUnits b) (hp : p < blockSize b) :
    locate (blockBase b u + p) = some (b, u, p) := by
  cases b
  case dmc =>
    simp only [blockUnits, blockSize, blockBase] at hu hp ⊢
    unfold locate
    repeat rw [if_neg (by omega)]
    rcases (by omega : u = 0 ∨ u = 1) with rfl | rfl
    · rw [if_pos (by omega), Nat.zero_mul, Nat.add_zero, Nat.add_sub_cancel_left]
    · rw [if_neg (by omega), if_pos (by omega), Nat.one_mul, Nat.add_sub_cancel_left]
  all_goals
    simp only [blockUnits, blockSize, blockBase] at hu hp ⊢
    unfold locate
    repeat rw [if_neg (by omega)]
    rw [if_pos (by omega)]
  case tc =>
    dsimp only
    rw [if_pos (by omega)]
    simp only [Option.some.injEq, Prod.mk.injEq, true_and]
    omega
  case cl =>
    dsimp only
    rw [if_neg (by omega), if_pos (by omega)]
    simp only [Option.some.injEq, Prod.mk.injEq, true_and]
    omega
  all_goals
    simp only [Option.some.injEq, Prod.mk.injEq, true_and]
    omega

/-! ## The row of an offset -/

theorem mul_add_div_mod {n a b : Nat} (lt : b < n) : (a * n + b) / n = a ∧ (a * n + b) % n = b := by
  have pos : 0 < n := by omega
  rw [Nat.mul_comm a, Nat.mul_add_div pos, Nat.mul_add_mod, Nat.div_eq_of_lt lt, Nat.mod_eq_of_lt lt, Nat.add_zero]
  exact ⟨rfl, rfl⟩

/-- A row finds its own register at the distance of that register. -/
theorem rowHit_low {x : RegRow} (h : x ∈ allRows) {i : Nat} (hi : i < x.count * x.count2) :
    rowHit x (rowAt x i - x.off) = some (i, false) := by
  obtain ⟨-, one, -⟩ := rowReads_of_mem h
  have fits := allApart_fits allRows_apart h
  simp only [rowFits, Bool.and_eq_true, Bool.or_eq_true, decide_eq_true_eq] at fits
  obtain ⟨⟨⟨many, -⟩, step⟩, inner⟩ := fits
  obtain ⟨outer, within, -⟩ := rowAt_within hi
  have dist : rowAt x i - x.off = i / x.count2 * x.stride + i % x.count2 * x.stride2 := by unfold rowAt; omega
  rw [dist]
  unfold rowHit
  by_cases single : x.count = 1
  · have c2 := one single
    have zero : i = 0 := by rw [single, c2] at hi; omega
    subst zero
    simp [single]
  · have apart := inner.resolve_left single
    obtain ⟨quot, rest⟩ := mul_add_div_mod (a := i / x.count2) (Nat.lt_of_le_of_lt within apart)
    have in_count : i / x.count2 < x.count := (Nat.div_lt_iff_lt_mul many).2 hi
    rw [if_neg single, quot, rest, if_pos in_count]
    dsimp only
    rcases step with c2 | pos2
    · simp [c2, Nat.mod_one]
    · split
      · next c2 => simp [c2, Nat.mod_one]
      · rw [Nat.mul_mod_left, Nat.mul_div_cancel _ pos2]
        simp [Nat.mod_lt _ many, Nat.div_add_mod']

/-- A row finds the high word of its own register four bytes on. -/
theorem rowHit_high {x : RegRow} (h : x ∈ allRows) (wide : x.wide = true) {i : Nat} (hi : i < x.count * x.count2) :
    rowHit x (rowAt x i + 4 - x.off) = some (i, true) := by
  obtain ⟨-, -, high⟩ := rowReads_of_mem h
  obtain ⟨c2, -, stride, -⟩ := high wide
  have dist : rowAt x i + 4 - x.off = i * x.stride + 4 := by unfold rowAt; rw [c2, Nat.div_one, Nat.mod_one]; omega
  rw [dist]
  rw [c2, Nat.mul_one] at hi
  unfold rowHit
  by_cases single : x.count = 1
  · have zero : i = 0 := by omega
    subst zero
    simp [single, wide]
  · have apart := stride.resolve_left single
    obtain ⟨quot, rest⟩ := mul_add_div_mod (a := i) apart
    simp [single, quot, rest, hi, c2, wide]

/-- A hit on a word, low or high, is at its distance. -/
theorem wordHit_at {w hi : Bool} {d k i : Nat}
    (h : (if d = 0 then some (k, false) else if w && d = 4 then some (k, true) else none) = some (i, hi)) :
    d = (if hi = true then 4 else 0) ∧ (hi = true → w = true) := by
  split at h
  · cases h
    exact ⟨by simpa, by simp⟩
  · split at h
    · next high =>
      cases h
      simp only [Bool.and_eq_true, decide_eq_true_eq] at high
      exact ⟨high.2, fun _ => high.1⟩
    · cases h

/-- A hit in a row is at the distance of the register that it names, or, for a high word, four bytes on. -/
theorem rowHit_at {x : RegRow} {d i : Nat} {hi : Bool} (one : x.count = 1 → x.count2 = 1)
    (h : rowHit x d = some (i, hi)) :
    x.off + d = rowAt x i + (if hi = true then 4 else 0) ∧ (hi = true → x.wide = true) := by
  unfold rowHit at h
  unfold rowAt
  split at h
  next single =>
    obtain ⟨dist, wide⟩ := wordHit_at h
    rw [wordHit_idx h, one single]
    exact ⟨by omega, wide⟩
  next =>
    split at h
    next =>
      dsimp only at h
      split at h
      next c2 =>
        obtain ⟨dist, wide⟩ := wordHit_at h
        rw [wordHit_idx h, c2, Nat.div_one, Nat.mod_one]
        have parts := Nat.div_add_mod' d x.stride
        exact ⟨by omega, wide⟩
      next =>
        split at h
        next inner =>
          cases h
          simp only [Bool.and_eq_true, decide_eq_true_eq] at inner
          obtain ⟨aligned, lt⟩ := inner
          have parts := Nat.div_add_mod' d x.stride
          have parts2 := Nat.div_add_mod' (d % x.stride) x.stride2
          obtain ⟨quot, rest⟩ := mul_add_div_mod (a := d / x.stride) lt
          rw [quot, rest]
          rw [aligned, Nat.add_zero] at parts2
          simp only [Bool.false_eq_true, if_false, false_implies, and_true, parts2, Nat.add_zero]
          omega
        next => cases h
    next => cases h

/-- What a search of rows finds: a register of one of them, at its place. -/
theorem findRow_at {u loc off : Nat} {rows : List RegRow} {l : RegLoc} (h : findRow u loc off rows = some l) :
    l.row ∈ rows ∧ l.row.off ≤ loc ∧ rowHit l.row (loc - l.row.off) = some (l.idx, l.high) ∧ l.unit = u ∧
      l.off = if l.high = true then off - 4 else off := by
  induction rows with
  | nil => cases h
  | cons x rows ih =>
    have skip (h : findRow u loc off rows = some l) := (ih h).imp_left (List.mem_cons_of_mem x)
    simp only [findRow] at h
    split at h
    next le =>
      split at h
      next hit =>
        cases h
        exact ⟨List.mem_cons_self, le, hit, rfl, rfl⟩
      next => exact skip h
    next => exact skip h

/-- A search of rows finds something where one of them has a register. -/
theorem findRow_of_hit {u loc off : Nat} {rows : List RegRow} {x : RegRow} (mem : x ∈ rows) (le : x.off ≤ loc)
    {i : Nat} {hi : Bool} (hit : rowHit x (loc - x.off) = some (i, hi)) : ∃ l, findRow u loc off rows = some l := by
  induction rows with
  | nil => cases mem
  | cons y rows ih =>
    simp only [findRow]
    rcases List.mem_cons.1 mem with rfl | mem
    · rw [if_pos le, hit]
      exact ⟨_, rfl⟩
    · split
      · split
        · exact ⟨_, rfl⟩
        · exact ih mem
      · exact ih mem

/-! ## Two words never share an offset -/

/-- Two rows that are apart have no offset in common. -/
theorem rowAt_ne_of_apart {x y : RegRow} {i j : Nat} (blk : x.blk = y.blk) (apart : rowsApart x y = true)
    (hi : i < x.count * x.count2) (hj : j < y.count * y.count2) : rowAt x i ≠ rowAt y j := by
  have wx := (rowAt_within hi).2.2
  have wy := (rowAt_within hj).2.2
  have lx : x.off ≤ rowAt x i := by unfold rowAt; omega
  have ly : y.off ≤ rowAt y j := by unfold rowAt; omega
  simp only [rowsApart, Bool.or_eq_true, decide_eq_true_eq] at apart
  rcases apart with (((other | below) | above) | woven) | woven
  · exact absurd blk other
  · omega
  · omega
  · exact rowsWoven_ne woven hi hj
  · exact fun e => rowsWoven_ne woven hj hi e.symm

/-- A high word lies at no register's own offset. -/
theorem rowAt_add_four_ne {x y : RegRow} (hx : x ∈ allRows) (hy : y ∈ allRows) (wide : x.wide = true) {i j : Nat}
    (blk : x.blk = y.blk) (hi : i < x.count * x.count2) (hj : j < y.count * y.count2) : rowAt x i + 4 ≠ rowAt y j := by
  obtain ⟨-, -, high⟩ := rowReads_of_mem hx
  obtain ⟨-, -, -, apart⟩ := high wide
  have moved : rowAt (highRow x) i = rowAt x i + 4 := by unfold rowAt highRow; dsimp only; omega
  rw [← moved]
  exact rowAt_ne_of_apart (x := highRow x) blk (apart y hy) hi hj

/-- Words of a block at one offset are of one row, one register and one half. -/
theorem words_unique {x y : RegRow} (hx : x ∈ allRows) (hy : y ∈ allRows) {u i j : Nat} {a b : Bool} (blk : y.blk = x.blk)
    (hu : u < blockUnits x.blk) (hi : i < x.count * x.count2) (hj : j < y.count * y.count2) (wx : a = true → x.wide = true)
    (wy : b = true → y.wide = true)
    (e : rowAt x i + (if a = true then 4 else 0) = rowAt y j + (if b = true then 4 else 0)) : y = x ∧ j = i ∧ b = a := by
  have same (e : rowAt y j = rowAt x i) : y = x ∧ j = i := by
    have oky := regOk_of_mem hy (by rwa [blk]) hj
    have okx := regOk_of_mem hx hu hi
    have off {z : RegRow} (hz : z ∈ allRows) (k : Nat) : regOff z.name u k = blockBase z.blk u + rowAt z k := by
      unfold regOff rowAt
      rw [rowIn_name hz]
      dsimp only
      omega
    obtain ⟨name, -, idx⟩ := regOff_inj oky okx (by rw [off hy, off hx, blk, e])
    have found := rowIn_name hy
    rw [name, rowIn_name hx] at found
    exact ⟨(Option.some.inj found).symm, idx⟩
  cases a <;> cases b <;> simp only [Bool.false_eq_true, if_false, if_true, Nat.add_zero] at e
  · exact ⟨(same e.symm).1, (same e.symm).2, rfl⟩
  · exact absurd e.symm (rowAt_add_four_ne hy hx (wy rfl) blk hj hi)
  · exact absurd e (rowAt_add_four_ne hx hy (wx rfl) blk.symm hi hj)
  · obtain ⟨row, idx⟩ := same (Nat.add_right_cancel e).symm
    exact ⟨row, idx, rfl⟩

/-- The word of a register, low or high, is read back from its offset. -/
theorem regAt_word {x : RegRow} (hx : x ∈ allRows) {u i : Nat} {a : Bool} (hu : u < blockUnits x.blk)
    (hi : i < x.count * x.count2) (wide : a = true → x.wide = true) :
    regAt (blockBase x.blk u + (rowAt x i + if a = true then 4 else 0)) =
      some { row := x, unit := u, idx := i, off := blockBase x.blk u + rowAt x i, high := a } := by
  obtain ⟨mem, -, high⟩ := rowReads_of_mem hx
  have fits := allApart_fits allRows_apart hx
  simp only [rowFits, Bool.and_eq_true, decide_eq_true_eq] at fits
  obtain ⟨⟨⟨-, size⟩, -⟩, -⟩ := fits
  obtain ⟨-, -, bound⟩ := rowAt_within hi
  have below : x.off ≤ rowAt x i := by unfold rowAt; omega
  have inside : rowAt x i + (if a = true then 4 else 0) < blockSize x.blk := by
    split
    next h =>
      obtain ⟨-, fits4, -, -⟩ := high (wide h)
      omega
    next => omega
  have hit : rowHit x (rowAt x i + (if a = true then 4 else 0) - x.off) = some (i, a) := by
    cases a with
    | false => simpa using rowHit_low hx hi
    | true => simpa using rowHit_high hx (wide rfl) hi
  unfold regAt
  rw [locate_blockBase hu inside]
  dsimp only
  obtain ⟨l, found⟩ := findRow_of_hit (u := u) (off := blockBase x.blk u + (rowAt x i + if a = true then 4 else 0)) mem
    (by omega : x.off ≤ rowAt x i + if a = true then 4 else 0) hit
  rw [found]
  obtain ⟨row, le, lhit, unit, off⟩ := findRow_at found
  have lmem := mem_allRows_of_block row
  have blk := blk_of_mem row
  obtain ⟨-, one, -⟩ := rowReads_of_mem lmem
  have lfits := allApart_fits allRows_apart lmem
  simp only [rowFits, Bool.and_eq_true, decide_eq_true_eq] at lfits
  obtain ⟨⟨⟨many, -⟩, -⟩, -⟩ := lfits
  obtain ⟨place, lwide⟩ := rowHit_at one lhit
  obtain ⟨e1, e2, e3⟩ := words_unique hx lmem blk hu hi (rowHit_lt many lhit) wide lwide (by omega)
  cases l
  dsimp only at *
  subst e1 e2 e3 unit
  rw [off]
  congr 2
  split <;> omega

/-- Settles O7: a row that has the offset is found, and no other word lies there. -/
theorem registerMapRoundTrip : Obligations.RegisterMapRoundTrip := by
  intro r u i ok
  obtain ⟨x, mem, rfl, off, hu, hi⟩ := regOk_row ok
  rw [off]
  refine ⟨x, rowIn_name mem, ?_, fun wide => ?_⟩
  · simpa using regAt_word (a := false) mem hu hi (by simp)
  · simpa [Nat.add_assoc] using regAt_word (a := true) mem hu hi (fun _ => wide)

end Sys2Proof.Machine
end

section
/-! SUPPORT. The interrupt controller's commands: edges, deliveries, watch slots, timers, watchdogs (R406 to R416, R427). -/

set_option Elab.async false

namespace Sys2Proof.Machine

/-! ## Edges -/

theorem sourceExists_lt {p : Part} {i : Nat} (h : sourceExists p i = true) : i < 512 := by
  simp only [sourceExists, Bool.or_eq_true, Bool.and_eq_true, decide_eq_true_eq] at h
  omega

/-- The modes that choose an edge (R407). -/
theorem edgeChosen_iff (mode : Nat) (v : Bool) : edgeChosen mode v = true ↔ mode = 3 ∨ mode = if v = true then 1 else 2 := by
  cases v <;> simp [edgeChosen, or_comm]

/-! ## Messages of a delivery (R394, R409) -/

/-- What the delivery of source `i` has left in `t`: the message of its vector, by MSI-X or by MSI, or its bit of the pending
array where the vector is masked. `s` holds the masks. -/
def handedOver (s t : State) (i : Nat) : Prop :=
  let f := s.fn (s.srcFn i)
  let v := s.srcVec i
  let m := v % f.msiCount
  (f.msixOn = true → f.msixMasked v = false → OutMsg.interrupt (s.srcFn i) v true ∈ t.out) ∧
  (f.msixOn = true → f.msixMasked v = true → v ∈ (t.fn (s.srcFn i)).pba) ∧
  (f.msixOn = false → bitAt (f.cfgRd 0x60 4) m = false → OutMsg.interrupt (s.srcFn i) m false ∈ t.out) ∧
  (f.msixOn = false → bitAt (f.cfgRd 0x60 4) m = true → m ∈ (t.fn (s.srcFn i)).pba)

/-- A function's configuration and MSI-X table, which say how its messages are sent. -/
def sameMasks (s t : State) : Prop := t.regs = s.regs ∧ ∀ k, (t.fn k).cfg = (s.fn k).cfg ∧ (t.fn k).msix = (s.fn k).msix

/-- Messages sent and held are kept from `s` to `t`. -/
def keepsMessages (s t : State) : Prop := s.out <+: t.out ∧ ∀ k v, v ∈ (s.fn k).pba → v ∈ (t.fn k).pba

theorem mem_putOnce {x y : Nat} {xs : List Nat} : y ∈ putOnce x xs ↔ y = x ∨ y ∈ xs := by
  unfold putOnce
  split
  · next h =>
    have inside : x ∈ xs := by simpa using h
    exact ⟨.inr, fun h => h.elim (fun e => e ▸ inside) id⟩
  · simp [or_comm]

/-- A message that is held joins the function's pending array. -/
theorem hold_keepsMessages (s : State) (n v : Nat) :
    keepsMessages s (s.setFn n { s.fn n with pba := putOnce v (s.fn n).pba }) := by
  refine ⟨List.prefix_refl _, fun k w h => ?_⟩
  rw [fn_setFn]
  split
  · next e =>
    subst e
    exact mem_putOnce.2 (.inr h)
  · exact h

theorem message_keepsMessages (s : State) (n v : Nat) : keepsMessages s (s.message n v) := by
  have sent (m : OutMsg) : keepsMessages s (s.send m) := ⟨List.prefix_append _ _, fun _ _ h => h⟩
  unfold State.message
  dsimp only
  split
  · split
    · exact hold_keepsMessages s n v
    · exact sent _
  · split
    · exact hold_keepsMessages s n _
    · exact sent _

theorem handOver_out_fns (s : State) (i : Nat) : (s.handOver i).out = (s.message (s.srcFn i) (s.srcVec i)).out ∧
    (s.handOver i).fns = (s.message (s.srcFn i) (s.srcVec i)).fns := by
  unfold State.handOver
  dsimp only
  split <;> exact ⟨rfl, rfl⟩

theorem fn_congr {s t : State} (h : t.fns = s.fns) (n : Nat) : t.fn n = s.fn n := by
  unfold State.fn
  rw [h]

theorem handOver_keepsMessages (s : State) (i : Nat) : keepsMessages s (s.handOver i) := by
  obtain ⟨out, fns⟩ := handOver_out_fns s i
  obtain ⟨sent, held⟩ := message_keepsMessages s (s.srcFn i) (s.srcVec i)
  refine ⟨out ▸ sent, fun k v h => ?_⟩
  rw [fn_congr fns]
  exact held k v h

theorem handOver_handedOver (s : State) (i : Nat) : handedOver s (s.handOver i) i := by
  obtain ⟨out, fns⟩ := handOver_out_fns s i
  unfold handedOver
  dsimp only
  rw [fn_congr fns, out]
  unfold State.message
  dsimp only
  refine ⟨fun on un => ?_, fun on masked => ?_, fun off un => ?_, fun off masked => ?_⟩
  · rw [if_pos on, if_neg (by simp [un])]
    simp [State.send]
  · rw [if_pos on, if_pos masked, fn_setFn_self]
    exact mem_putOnce.2 (.inl rfl)
  · rw [if_neg (by simp [off]), if_neg (by simp [un])]
    simp [State.send]
  · rw [if_neg (by simp [off]), if_pos masked, fn_setFn_self]
    exact mem_putOnce.2 (.inl rfl)

theorem handedOver_mono {s t t' : State} {i : Nat} (k : keepsMessages t t') (h : handedOver s t i) : handedOver s t' i := by
  obtain ⟨a, b, c, d⟩ := h
  obtain ⟨sent, held⟩ := k
  exact ⟨fun x y => sent.subset (a x y), fun x y => held _ _ (b x y), fun x y => sent.subset (c x y),
    fun x y => held _ _ (d x y)⟩

theorem srcFn_congr {s t : State} (h : t.regs = s.regs) (i : Nat) : t.srcFn i = s.srcFn i := by
  unfold State.srcFn State.regNat State.reg
  rw [h]

theorem srcVec_congr {s t : State} (h : t.regs = s.regs) (i : Nat) : t.srcVec i = s.srcVec i := by
  unfold State.srcVec
  rw [srcFn_congr h]
  unfold State.regNat State.reg
  rw [h]

theorem handedOver_congr {s s' t : State} {i : Nat} (same : sameMasks s s') (h : handedOver s' t i) : handedOver s t i := by
  obtain ⟨regs, masks⟩ := same
  obtain ⟨cfg, msix⟩ := masks (s.srcFn i)
  have rd (a n : Nat) : (s'.fn (s.srcFn i)).cfgRd a n = (s.fn (s.srcFn i)).cfgRd a n := by
    unfold FnState.cfgRd
    rw [cfg]
  have on : (s'.fn (s.srcFn i)).msixOn = (s.fn (s.srcFn i)).msixOn := by unfold FnState.msixOn; rw [rd]
  have masked (v : Nat) : (s'.fn (s.srcFn i)).msixMasked v = (s.fn (s.srcFn i)).msixMasked v := by
    unfold FnState.msixMasked FnState.msixMaskAll FnState.msixWord
    rw [rd, msix]
  have many : (s'.fn (s.srcFn i)).msiCount = (s.fn (s.srcFn i)).msiCount := by unfold FnState.msiCount; rw [rd]
  unfold handedOver at *
  rw [srcFn_congr regs, srcVec_congr regs] at h
  simpa only [rd, on, masked, many] using h

/-- Every source of a delivery is handed over. -/
theorem handOverAll_handedOver (is : List Nat) (s : State) (lt : ∀ i ∈ is, i < 512) :
    keepsMessages s (s.handOverAll is) ∧ ∀ i ∈ is, handedOver s (s.handOverAll is) i := by
  induction is generalizing s with
  | nil => exact ⟨⟨List.prefix_refl _, fun _ _ h => h⟩, by simp⟩
  | cons i is ih =>
    obtain ⟨regs, -, -, -, masks, -, -, -⟩ := handOver_spec s (lt i List.mem_cons_self)
    obtain ⟨sent, held⟩ := handOver_keepsMessages s i
    obtain ⟨rest, each⟩ := ih (s.handOver i) (fun j m => lt j (List.mem_cons_of_mem _ m))
    unfold State.handOverAll
    refine ⟨⟨sent.trans rest.1, fun k v h => rest.2 k v (held k v h)⟩, fun j mem => ?_⟩
    rcases List.mem_cons.1 mem with rfl | mem
    · exact handedOver_mono rest (handOver_handedOver s j)
    · exact handedOver_congr ⟨regs, masks⟩ (each j mem)

theorem groupSendable_lt {s : State} {g i : Nat} (hg : g < 32) (h : i ∈ s.groupSendable g) : i < 512 := by
  simp only [State.groupSendable, List.mem_filter, List.mem_map, List.mem_range] at h
  obtain ⟨⟨k, hk, rfl⟩, -⟩ := h
  omega

theorem regOk_group : ∀ {g : Nat}, g < 32 → regOk .ICU_GRP_CNT 0 g = true := by decide +kernel

theorem delivers_iff (s : State) (g : Nat) : s.delivers g = true ↔
    g < 32 ∧ s.clocked = true ∧ s.regBit .ICU_CTRL 0 0 0 = true ∧ SMap.get (fun _ => 0) s.icu.timers g = 0 ∧
      s.groupSendable g ≠ [] := by
  simp only [State.delivers, Bool.and_eq_true, decide_eq_true_eq, bne_iff_ne, and_assoc]

/-! ## Hold-off -/

/-- The sixteen sources of a group as a mask. -/
theorem getLsbD_groupMask {g i : Nat} (hi : i < 512) :
    (0xFFFF#512 <<< (16 * g)).getLsbD i = decide (16 * g ≤ i ∧ i < 16 * g + 16) := by
  have ones : ∀ j, (0xFFFF#512).getLsbD j = decide (j < 16) := by
    intro j
    rcases Nat.lt_or_ge j 512 with h | h
    · exact (by decide +kernel : ∀ j < 512, (0xFFFF#512).getLsbD j = decide (j < 16)) j h
    · rw [BitVec.getLsbD_of_ge _ _ h, decide_eq_false (by omega)]
  rw [BitVec.getLsbD_shiftLeft, ones]
  rw [Bool.eq_iff_iff]
  simp only [hi, decide_true, Bool.true_and, Bool.and_eq_true, Bool.not_eq_true', decide_eq_true_eq, decide_eq_false_iff_not]
  omega

/-- The delivered marks of a group, cleared. -/
theorem getLsbD_clearGroup (v : BitVec 512) (g i : Nat) : (v &&& ~~~(0xFFFF#512 <<< (16 * g))).getLsbD i =
    if 16 * g ≤ i ∧ i < 16 * g + 16 then false else v.getLsbD i := by
  rcases Nat.lt_or_ge i 512 with h | h
  · rw [BitVec.getLsbD_and, BitVec.getLsbD_not, getLsbD_groupMask h, decide_eq_true h]
    split
    · next inside => simp [inside]
    · next outside => simp [outside]
  · rw [BitVec.getLsbD_of_ge _ _ h, BitVec.getLsbD_of_ge _ _ h, ite_self]

/-- Settles O8: an edge is `edge_cond` and `edge_pend`, a delivery is the handover of each source of the group. -/
theorem sourcesAndTheirDelivery : Obligations.SourcesAndTheirDelivery := by
  refine ⟨fun src rise s => ?_, fun g s => ?_, fun g s => ?_⟩
  · refine completes_if Iff.rfl rfl (execSourceEdge_keeps (.refl s) src rise (Within.mem _)) (by decide) ?_
    intro listed clocked j
    have lt := sourceExists_lt listed
    refine ⟨edge_cond clocked lt rise j, ?_⟩
    rw [edge_pend clocked lt rise j]
    simp only [edgeChosen_iff]
  · refine completes_if (delivers_iff s g) rfl (execGroupDelivery_keeps (.refl s) g (Within.mem _)) (by decide) ?_
    rintro ⟨hg, -, -, -, -⟩
    have lt : ∀ i ∈ s.groupSendable g, i < 512 := fun i => groupSendable_lt hg
    obtain ⟨regs, -, -, -, -, delivered, pend⟩ := handOverAll_spec (s.groupSendable g) s lt
    obtain ⟨-, each⟩ := handOverAll_handedOver (s.groupSendable g) s lt
    dsimp only
    generalize s.handOverAll (s.groupSendable g) = s1 at *
    simp only [updReg_fields, SMap.get_set_self]
    refine ⟨?_, ?_, fun i mem => ⟨fun level => ?_, fun edge => ?_, ?_⟩, fun i out => ⟨?_, ?_⟩⟩
    · unfold State.regNat State.reg
      rw [regs]
    · rw [updReg_reg _ _ _ _ _ (regOk_group hg)]
      unfold State.reg counted
      rw [regs]
    · rw [delivered, if_pos ⟨mem, level⟩]
    · rw [pend, if_pos ⟨mem, edge⟩]
    · simp only [fn_congr (updReg_fields _ _ _ _ _).2.2.2.2.1]
      exact each i mem
    · rw [delivered, if_neg (fun h => out h.1)]
    · rw [pend, if_neg (fun h => out h.1)]
  · refine completes_if (by simp) rfl (execHoldoffExpire_keeps (.refl s) g (Within.mem _)) (by decide) ?_
    intro _
    exact ⟨SMap.get_set_self _ s.icu.timers g 0, getLsbD_clearGroup s.icu.delivered g⟩

/-! ## Watch slots, the AOW timer and watchdogs -/

theorem regOk_aowHit : regOk .AOW_HIT 0 0 = true := by decide

/-- An entry of the log, and then a bit of ICU_ADVISE (R428, R430). -/
theorem elog_advise_spec (s : State) (st : W16) (u i c f : Nat) (d : W64) {b : Nat} (hb : b < 64) :
    logged st u i c f d s ((s.elog st u i c f d).advise b) ∧
    ((s.elog st u i c f d).advise b).reg .ICU_ADVISE 0 0 = s.reg .ICU_ADVISE 0 0 ||| 1#64 <<< b := by
  obtain ⟨log, head, bits⟩ := advise_spec (s.elog st u i c f d) hb
  refine ⟨logged_congr (elog_logged s st u i c f d) rfl rfl rfl rfl log head, ?_⟩
  rw [bits, elog_reg _ _ _ _ _ _ _ _ _ _ (by decide) (by decide)]

/-- Settles O9: each command with its condition sets the registers that it names. -/
theorem watchSlotsAndWatchdogs : Obligations.WatchSlotsAndWatchdogs := by
  refine ⟨fun k s => ?_, fun s => ?_, fun p s => ?_⟩
  · refine completes_if Iff.rfl rfl (execAowMatch_keeps (.refl s) k (Within.mem _)) (by decide) ?_
    intro _
    have hit : (s.updReg .AOW_HIT 0 0 (fun v => putBit v k true)).reg .AOW_HIT 0 0 = s.reg .AOW_HIT 0 0 ||| 1#64 <<< k :=
      updReg_reg _ _ _ _ _ regOk_aowHit
    dsimp only
    split
    · next wakes =>
      obtain ⟨standby, enabled⟩ := wakes
      exact ⟨hit, by simp [standby, enabled]⟩
    · next sleeps =>
      have quiet : (s.dev.life == .standby && s.regBit .AOW_CTRL 0 0 0) = false := by simpa using sleeps
      exact ⟨hit, by simp [quiet]⟩
  · refine completes_if (by simp) rfl (execAowTimerExpire_keeps (.refl s) (Within.mem _)) (by decide) ?_
    intro _
    rw [raise_reg _ _ _ _ _ (by decide) regOk_aowTimer, reg_setReg_self _ _ regOk_aowTimer]
  · refine completes_if (by simp) rfl (execWatchdogExpire_keeps (.refl s) p (Within.mem _)) (by decide) ?_
    intro _
    exact elog_advise_spec s Status.watchdog _ _ noCtx noFn 0 (by decide)

end Sys2Proof.Machine
end

section
/-! SUPPORT. Frames by part: a part of the state of which no component changes is the same. The parts that sources and the
log leave (R407, R412, R428). -/

set_option Elab.async false

namespace Sys2Proof.Machine

theorem DevKept.eq {cs : List Comp} {x y : Dev} (k : DevKept (fun c => c ∈ cs) x y) (h : ∀ c ∈ Comp.allDev, c ∉ cs) : y = x := by
  simp only [Comp.allDev, List.forall_mem_cons] at h
  cases x
  cases y
  obtain ⟨k1, k2, k3, k4, k5, k6, k7, k8, k9, k10, k11, k12, k13⟩ := k
  simp_all

theorem LdrKept.eq {cs : List Comp} {x y : Loader} (k : LdrKept (fun c => c ∈ cs) x y) (h : ∀ c ∈ Comp.allLdr, c ∉ cs) : y = x := by
  simp only [Comp.allLdr, List.forall_mem_cons] at h
  cases x
  cases y
  obtain ⟨k1, k2, k3, k4, k5, k6, k7, k8, k9, k10, k11, k12, k13, k14, k15, k16, k17⟩ := k
  simp_all

theorem DramKept.eq {cs : List Comp} {x y : Dram} (k : DramKept (fun c => c ∈ cs) x y) (h : ∀ c ∈ Comp.allDram, c ∉ cs) : y = x := by
  simp only [Comp.allDram, List.forall_mem_cons] at h
  cases x
  cases y
  obtain ⟨k1, k2, k3, k4, k5, k6, k7⟩ := k
  simp_all

theorem IngKept.eq {cs : List Comp} {x y : Ingest} (k : IngKept (fun c => c ∈ cs) x y) (h : ∀ c ∈ Comp.allIng, c ∉ cs) : y = x := by
  simp only [Comp.allIng, List.forall_mem_cons] at h
  cases x
  cases y
  obtain ⟨k1, k2, k3, k4, k5, k6⟩ := k
  simp_all

theorem TrkKept.eq {cs : List Comp} {x y : TrackEng} (k : TrkKept (fun c => c ∈ cs) x y) (h : ∀ c ∈ Comp.allTrk, c ∉ cs) : y = x := by
  simp only [Comp.allTrk, List.forall_mem_cons] at h
  cases x
  cases y
  obtain ⟨k1, k2, k3, k4, k5, k6, k7, k8, k9, k10⟩ := k
  simp_all

theorem SluKept.eq {cs : List Comp} {x y : Sluice} (k : SluKept (fun c => c ∈ cs) x y) (h : ∀ c ∈ Comp.allSlu, c ∉ cs) : y = x := by
  simp only [Comp.allSlu, List.forall_mem_cons] at h
  cases x
  cases y
  obtain ⟨k1, k2, k3, k4, k5, k6, k7, k8, k9, k10⟩ := k
  simp_all

theorem WeirKept.eq {cs : List Comp} {x y : Weir} (k : WeirKept (fun c => c ∈ cs) x y) (h : ∀ c ∈ Comp.allWeir, c ∉ cs) : y = x := by
  simp only [Comp.allWeir, List.forall_mem_cons] at h
  cases x
  cases y
  obtain ⟨k1, k2, k3, k4, k5, k6, k7, k8, k9, k10, k11, k12, k13, k14, k15, k16⟩ := k
  simp_all

theorem IcuKept.eq {cs : List Comp} {x y : Icu} (k : IcuKept (fun c => c ∈ cs) x y) (h : ∀ c ∈ Comp.allIcu, c ∉ cs) : y = x := by
  simp only [Comp.allIcu, List.forall_mem_cons] at h
  cases x
  cases y
  obtain ⟨k1, k2, k3, k4, k5, k6⟩ := k
  simp_all

theorem ThyKept.eq {cs : List Comp} {x y : Thyme} (k : ThyKept (fun c => c ∈ cs) x y) (h : ∀ c ∈ Comp.allThy, c ∉ cs) : y = x := by
  simp only [Comp.allThy, List.forall_mem_cons] at h
  cases x
  cases y
  obtain ⟨k1, k2, k3, k4, k5, k6, k7, k8, k9⟩ := k
  simp_all

theorem SageKept.eq {cs : List Comp} {x y : Sage} (k : SageKept (fun c => c ∈ cs) x y) (h : ∀ c ∈ Comp.allSage, c ∉ cs) : y = x := by
  simp only [Comp.allSage, List.forall_mem_cons] at h
  cases x
  cases y
  obtain ⟨k1, k2, k3, k4, k5, k6, k7, k8⟩ := k
  simp_all

section
variable {cs : List Comp} {u s : State} (k : Keeps (fun c => c ∈ cs) u s)
include k

theorem Keeps.out_eq (h : .out ∉ cs) : s.out = u.out := k.out.resolve_left h
theorem Keeps.freeIdx_eq (h : .freeIdx ∉ cs) : s.freeIdx = u.freeIdx := k.freeIdx.resolve_left h
theorem Keeps.fns_eq (h : .fns ∉ cs) : s.fns = u.fns := k.fns.resolve_left h
theorem Keeps.pools_eq (h : .pools ∉ cs) : s.pools = u.pools := k.pools.resolve_left h

theorem Keeps.dev_eq (h : ∀ c ∈ Comp.allDev, c ∉ cs) : s.dev = u.dev := k.dev.eq h
theorem Keeps.ldr_eq (h : ∀ c ∈ Comp.allLdr, c ∉ cs) : s.ldr = u.ldr := k.ldr.eq h
theorem Keeps.dram_eq (h : ∀ c ∈ Comp.allDram, c ∉ cs) : s.dram = u.dram := k.dram.eq h
theorem Keeps.ing_eq (h : ∀ c ∈ Comp.allIng, c ∉ cs) : s.ing = u.ing := k.ing.eq h
theorem Keeps.trk_eq (h : ∀ c ∈ Comp.allTrk, c ∉ cs) : s.trk = u.trk := k.trk.eq h
theorem Keeps.slu_eq (h : ∀ c ∈ Comp.allSlu, c ∉ cs) : s.slu = u.slu := k.slu.eq h
theorem Keeps.weir_eq (h : ∀ c ∈ Comp.allWeir, c ∉ cs) : s.weir = u.weir := k.weir.eq h
theorem Keeps.icu_eq (h : ∀ c ∈ Comp.allIcu, c ∉ cs) : s.icu = u.icu := k.icu.eq h
theorem Keeps.thy_eq (h : ∀ c ∈ Comp.allThy, c ∉ cs) : s.thy = u.thy := k.thy.eq h
theorem Keeps.sage_eq (h : ∀ c ∈ Comp.allSage, c ∉ cs) : s.sage = u.sage := k.sage.eq h

/-- The registers of a row that is not among the components. -/
theorem Keeps.reg_eq {r : Reg} {a i : Nat} (all : .regs ∉ cs) (h : .reg r ∉ cs) (ok : regOk r a i = true) :
    s.reg r a i = u.reg r a i := k.reg r a i all h ok

/-- The state up to the ICU, Thyme and the registers: what sources and the log leave. -/
theorem Keeps.quiet_fields (h : ∀ c ∈ cs, c ∈ Comp.log ++ [.reg .ICU_ADVISE]) :
    s.pending = u.pending ∧ s.out = u.out ∧ s.freeIdx = u.freeIdx ∧ s.dev = u.dev ∧ s.fns = u.fns ∧ s.ldr = u.ldr ∧
    s.dram = u.dram ∧ s.pools = u.pools ∧ s.ing = u.ing ∧ s.trk = u.trk ∧ s.slu = u.slu ∧ s.weir = u.weir ∧
    s.sage = u.sage := by
  have out {c : Comp} (n : c ∉ Comp.log ++ [.reg .ICU_ADVISE]) : c ∉ cs := fun m => n (h c m)
  have all {l : List Comp} (n : ∀ c ∈ l, c ∉ Comp.log ++ [.reg .ICU_ADVISE]) : ∀ c ∈ l, c ∉ cs := fun c m => out (n c m)
  exact ⟨k.pending, k.out_eq (out (by decide)), k.freeIdx_eq (out (by decide)), k.dev_eq (all (by decide)),
    k.fns_eq (out (by decide)), k.ldr_eq (all (by decide)), k.dram_eq (all (by decide)), k.pools_eq (out (by decide)),
    k.ing_eq (all (by decide)), k.trk_eq (all (by decide)), k.slu_eq (all (by decide)), k.weir_eq (all (by decide)),
    k.sage_eq (all (by decide))⟩

end

@[simp] theorem edge_fields (s : State) (i : Nat) (v : Bool) :
    (s.edge i v).pending = s.pending ∧ (s.edge i v).out = s.out ∧ (s.edge i v).freeIdx = s.freeIdx ∧
    (s.edge i v).dev = s.dev ∧ (s.edge i v).fns = s.fns ∧ (s.edge i v).ldr = s.ldr ∧ (s.edge i v).dram = s.dram ∧
    (s.edge i v).pools = s.pools ∧ (s.edge i v).ing = s.ing ∧ (s.edge i v).trk = s.trk ∧ (s.edge i v).slu = s.slu ∧
    (s.edge i v).weir = s.weir ∧ (s.edge i v).sage = s.sage :=
  (edge_keeps (.refl s) i v (Within.mem _)).quiet_fields (by decide)

@[simp] theorem raise_fields (s : State) (i : Nat) :
    (s.raise i).pending = s.pending ∧ (s.raise i).out = s.out ∧ (s.raise i).freeIdx = s.freeIdx ∧
    (s.raise i).dev = s.dev ∧ (s.raise i).fns = s.fns ∧ (s.raise i).ldr = s.ldr ∧ (s.raise i).dram = s.dram ∧
    (s.raise i).pools = s.pools ∧ (s.raise i).ing = s.ing ∧ (s.raise i).trk = s.trk ∧ (s.raise i).slu = s.slu ∧
    (s.raise i).weir = s.weir ∧ (s.raise i).sage = s.sage :=
  (raise_keeps (.refl s) i (Within.mem _)).quiet_fields (by decide)

@[simp] theorem elog_fields (s : State) (st : W16) (a i c f : Nat) (d : W64) :
    (s.elog st a i c f d).pending = s.pending ∧ (s.elog st a i c f d).out = s.out ∧
    (s.elog st a i c f d).freeIdx = s.freeIdx ∧ (s.elog st a i c f d).dev = s.dev ∧ (s.elog st a i c f d).fns = s.fns ∧
    (s.elog st a i c f d).ldr = s.ldr ∧ (s.elog st a i c f d).dram = s.dram ∧ (s.elog st a i c f d).pools = s.pools ∧
    (s.elog st a i c f d).ing = s.ing ∧ (s.elog st a i c f d).trk = s.trk ∧ (s.elog st a i c f d).slu = s.slu ∧
    (s.elog st a i c f d).weir = s.weir ∧ (s.elog st a i c f d).sage = s.sage :=
  (elog_keeps (.refl s) st a i c f d (Within.mem _)).quiet_fields (by decide)

@[simp] theorem advise_fields (s : State) (b : Nat) :
    (s.advise b).pending = s.pending ∧ (s.advise b).out = s.out ∧ (s.advise b).freeIdx = s.freeIdx ∧
    (s.advise b).dev = s.dev ∧ (s.advise b).fns = s.fns ∧ (s.advise b).ldr = s.ldr ∧ (s.advise b).dram = s.dram ∧
    (s.advise b).pools = s.pools ∧ (s.advise b).ing = s.ing ∧ (s.advise b).trk = s.trk ∧ (s.advise b).slu = s.slu ∧
    (s.advise b).weir = s.weir ∧ (s.advise b).sage = s.sage :=
  (advise_keeps (.refl s) b (Within.mem _)).quiet_fields (by decide)

@[simp] theorem snapshot_fields (s : State) (c : Nat) (v : W64) :
    (s.snapshot c v).pending = s.pending ∧ (s.snapshot c v).out = s.out ∧ (s.snapshot c v).freeIdx = s.freeIdx ∧
    (s.snapshot c v).dev = s.dev ∧ (s.snapshot c v).fns = s.fns ∧ (s.snapshot c v).ldr = s.ldr ∧
    (s.snapshot c v).dram = s.dram ∧ (s.snapshot c v).pools = s.pools ∧ (s.snapshot c v).ing = s.ing ∧
    (s.snapshot c v).trk = s.trk ∧ (s.snapshot c v).slu = s.slu ∧ (s.snapshot c v).weir = s.weir ∧
    (s.snapshot c v).sage = s.sage :=
  (snapshot_keeps (.refl s) c v (Within.mem _)).quiet_fields (by decide)

end Sys2Proof.Machine
end

section
/-! SUPPORT. Thyme's commands: the counter, alarms, snapshots, the TSYNC cascade (R417 to R426). -/

set_option Elab.async false

namespace Sys2Proof.Machine

/-! ## Alarms -/

theorem regOk_alarm : ∀ {k : Nat}, k < 4 → regOk .THYME_ALARM 0 k = true ∧ regOk .THYME_ALARM_CTRL 0 k = true := by
  decide +kernel

theorem alarmDue_iff (s : State) (k : Nat) : s.alarmDue k = true ↔
    k < 4 ∧ s.clocked = true ∧ s.regBit .THYME_ALARM_CTRL 0 k 0 = true ∧
      (s.reg .THYME_ALARM 0 k).toNat ≤ s.thy.now.toNat := by
  simp only [State.alarmDue, Bool.and_eq_true, decide_eq_true_eq, and_assoc]
  rfl

/-- The next value of an alarm is the first one of its period that is not passed (R418). -/
theorem nextAlarm_spec {a now p : Nat} (pos : p ≠ 0) (due : a ≤ now) :
    now < nextAlarm a now p ∧ a + p * ((now - a) / p) ≤ now := by
  have quot := Nat.div_add_mod (now - a) p
  have rest := Nat.mod_lt (now - a) (Nat.pos_of_ne_zero pos)
  unfold nextAlarm
  rw [Nat.mul_add]
  omega

/-- Raising a source after a store: the store's effect and the edge, seen from before the store. -/
theorem setReg_raise_raised (s : State) {r : Reg} (u i : Nat) (v : W64) {k : Nat} (hk : k < 512) (h : .ICU_SRC_CFG ≠ r) :
    raised k s ((s.setReg r u i v).raise k) :=
  raised_congr (raise_raised hk _) (clocked_setReg s r u i v).symm (srcMode_setReg s u i v hk h).symm (by simp) id

/-! ## Snapshots -/

/-- What the causes of a snapshot take depends on these alone. -/
theorem snapTaken_congr {c : Nat} {v : W64} {s s' t t' : State} (h : snapTaken c v s t) (thy : s'.thy = s.thy)
    (regs : ∀ r u i, regOk r u i = true → s'.reg r u i = s.reg r u i) (part : s'.dev.part = s.dev.part) (thy' : t'.thy = t.thy)
    (regs' : ∀ r u i, .reg r ∈ Comp.snapshot → regOk r u i = true → t'.reg r u i = t.reg r u i) : snapTaken c v s' t' := by
  unfold snapTaken at *
  rw [thy, thy', part, regs _ _ _ (by decide : regOk .THYME_CNT_SNAPDROP 0 0 = true),
    regs _ _ _ (by decide : regOk .THYME_SNAP_SEQ 0 0 = true), regs _ _ _ (by decide : regOk .THYME_SNAP_TIME 0 0 = true),
    regs' _ _ _ (by decide) (by decide : regOk .THYME_CNT_SNAPDROP 0 0 = true),
    regs' _ _ _ (by decide) (by decide : regOk .THYME_SNAP_SEQ 0 0 = true),
    regs' _ _ _ (by decide) (by decide : regOk .THYME_SNAP_TIME 0 0 = true)]
  split
  · next busy => rwa [if_pos busy] at h
  · next idle =>
    rw [if_neg idle] at h
    obtain ⟨busy, cause, time, seq, cores⟩ := h
    refine ⟨busy, cause, time, seq, fun n hn present => ?_⟩
    rw [regs' _ _ _ (by decide) (regOk_snapUpd hn), regs' _ _ _ (by decide) (regOk_snapSeq hn), regs _ _ _ (regOk_upd hn)]
    exact cores n hn present

theorem edgeCore_eq (s : State) (i : Nat) (v : Bool) : (s.edgeCore i v).1 = { s with icu := (s.edgeCore i v).1.icu } := by
  unfold State.edgeCore
  split
  · rfl
  · split <;> rfl

/-- What an edge does to the ICU depends on the ICU, the clock and the source's mode alone. -/
theorem edgeCore_icu_congr {s t : State} {i : Nat} (v : Bool) (icu : t.icu = s.icu) (clocked : t.clocked = s.clocked)
    (mode : t.srcMode i = s.srcMode i) : (t.edgeCore i v).1.icu = (s.edgeCore i v).1.icu := by
  unfold State.edgeCore
  rw [icu, clocked, mode]
  split
  · exact icu
  · split <;> rfl

/-- R423: an event that does not cause a snapshot leaves the ICU as one that does. -/
theorem raiseQuiet_icu (s : State) {i : Nat} (hi : i < 512) : (s.raiseQuiet i).icu = (s.raise i).icu := by
  unfold State.raiseQuiet State.raise
  rw [edge_icu]
  refine edgeCore_icu_congr false (edge_icu s i true).symm ?_ ?_
  · exact clocked_congr (by rw [edgeCore_dev, edge_dev])
  · rw [edge_srcMode s i true hi, edgeCore_eq]
    rfl

theorem raiseQuiet_eq (s : State) (i : Nat) : s.raiseQuiet i = { s with icu := (s.raiseQuiet i).icu } := by
  unfold State.raiseQuiet
  rw [edgeCore_eq, edgeCore_eq s]

/-- The cause SNAP_IN: its source is raised, and the snapshot is the one of the counter's value (R406, R423). -/
theorem snapIn_spec (s : State) :
    raised 18 s ((s.raiseQuiet 18).snapshot 1 s.thy.now) ∧
      snapTaken 1 s.thy.now s ((s.raiseQuiet 18).snapshot 1 s.thy.now) := by
  have event := raise_raised (i := 18) (by decide) s
  have icu := raiseQuiet_icu s (i := 18) (by decide)
  rw [raiseQuiet_eq]
  constructor
  · refine raised_congr event rfl rfl rfl fun set => ?_
    rw [(snapshot_same _ _ _).1]
    dsimp only
    rwa [icu]
  · exact snapTaken_congr (snapshot_taken { s with icu := (s.raiseQuiet 18).icu } 1 s.thy.now) rfl (fun _ _ _ _ => rfl) rfl rfl
      (fun _ _ _ _ _ => rfl)

/-- Settles O10: alarms by `nextAlarm_spec`, snapshots by `snapshot_taken` and `snapshot_val`. -/
theorem timeAlarmsAndSnapshots : Obligations.TimeAlarmsAndSnapshots := by
  refine ⟨⟨fun v s => ?_, fun k s => ?_⟩, fun s => ?_, fun s => ?_, fun s => ?_, fun s => ?_⟩
  · exact completes_if (by simp) rfl (execThymeSet_keeps (.refl s) v (Within.mem _)) (by decide) fun _ => rfl
  · refine completes_if (alarmDue_iff s k) rfl (execAlarmFire_keeps (.refl s) k (Within.mem _)) (by decide) ?_
    rintro ⟨hk, -, -, due⟩
    obtain ⟨alarm, ctrl⟩ := regOk_alarm hk
    dsimp only
    split
    · next once =>
      refine ⟨setReg_raise_raised s _ _ _ (by omega) (by decide), fun _ => ⟨?_, ?_⟩, fun repeats => absurd once repeats⟩
      · rw [raise_reg _ _ _ _ _ (by decide) alarm, updReg_reg_other _ _ alarm (.inl (by decide))]
      · rw [raise_reg _ _ _ _ _ (by decide) ctrl, updReg_reg _ _ _ _ _ ctrl]
        rfl
    · next repeats =>
      obtain ⟨later, first⟩ := nextAlarm_spec repeats due
      refine ⟨setReg_raise_raised s _ _ _ (by omega) (by decide), fun once => absurd once repeats, fun _ => ⟨?_, _, ?_, later, first⟩⟩
      · rw [raise_reg _ _ _ _ _ (by decide) ctrl, reg_setReg_other _ _ ctrl (.inl (by decide))]
      · rw [raise_reg _ _ _ _ _ (by decide) alarm, reg_setReg_self _ _ alarm]
        rfl
  · refine completes_if Iff.rfl rfl (execSnapshotNow_keeps (.refl s) (Within.mem _)) (by decide) fun _ => ?_
    exact ⟨snapshot_taken s 0 s.thy.now, fun idle k hk => snapshot_val s 0 s.thy.now idle hk⟩
  · refine completes_of rfl (execSnapInEdge_keeps (.refl s) (Within.mem _)) (by decide) ?_
    split
    · exact ⟨(snapIn_spec s).1, fun _ _ => (snapIn_spec s).2⟩
    · next none =>
      exact ⟨raise_raised (by decide) s, fun clocked enabled => absurd (by simp [clocked, enabled]) none⟩
  · refine completes_if (by simp only [Bool.and_eq_true, decide_eq_true_eq, and_assoc]; rfl) rfl
      (execSnapshotTimeMatch_keeps (.refl s) (Within.mem _)) (by decide) fun _ => ⟨?_, ?_⟩
    · refine snapTaken_congr (snapshot_taken s 2 (s.reg .THYME_SNAP_AT 0 0)) rfl (fun _ _ _ _ => rfl) rfl (by simp)
        fun r u i own ok => updReg_reg_other _ _ ok (.inl ?_)
      rintro rfl
      exact absurd own (by decide)
    · rw [updReg_reg _ _ _ _ _ (by decide), (snapshot_keeps (.refl s) _ _ (Within.mem _)).reg_eq (by decide) (by decide) (by decide)]
      rfl
  · refine completes_if Iff.rfl rfl (execSnapshotComplete_keeps (.refl s) (Within.mem _)) (by decide) fun _ => ⟨?_, ?_⟩
    · exact raised_congr (raise_raised (i := 7) (by decide) (s.setThy { s.thy with snapBusy := false })) rfl rfl rfl id
    · rw [raise_now]
      rfl

/-! ## TSYNC -/

theorem crc8_leBytes_lt (t : Nat) : (crc8 0 (leBytes 8 t)).toNat < 256 := (crc8 0 (leBytes 8 t)).isLt

/-- The fields of the frame of an instant (R419). -/
theorem tsyncBits_fields {t : Nat} (lt : t < 2 ^ 64) :
    field (tsyncBits t).toNat 0 8 = 0xA5 ∧ frameT (tsyncBits t) = t ∧
      field (tsyncBits t).toNat 72 8 = (crc8 0 (leBytes 8 t)).toNat := by
  have crc := crc8_leBytes_lt t
  unfold frameT tsyncBits field
  rw [BitVec.toNat_ofNat]
  generalize (crc8 0 (leBytes 8 t)).toNat = c at *
  omega

theorem tsyncBits_sound {n : Nat} (lt : n < 18446744073709) :
    frameSound (tsyncBits (n * 1000000)) = true ∧ frameT (tsyncBits (n * 1000000)) = n * 1000000 := by
  obtain ⟨sync, t, crc⟩ := tsyncBits_fields (t := n * 1000000) (by omega)
  refine ⟨?_, t⟩
  unfold frameSound
  rw [sync, t, crc]
  simp

/-- What the log leaves of Thyme: all but a snapshot. -/
theorem elog_thy (s : State) (st : W16) (u i c f : Nat) (d : W64) : (s.elog st u i c f d).thy.lock = s.thy.lock ∧
    (s.elog st u i c f d).thy.prev = s.thy.prev ∧ (s.elog st u i c f d).thy.good = s.thy.good ∧
    (s.elog st u i c f d).thy.offset = s.thy.offset := by
  have k := (elog_keeps (.refl s) st u i c f d (Within.mem _)).thy
  exact ⟨k.lock.resolve_left (by decide), k.prev.resolve_left (by decide), k.good.resolve_left (by decide),
    k.offset.resolve_left (by decide)⟩

theorem lockEdge_thy (s : State) : s.lockEdge.thy.lock = s.thy.lock ∧ s.lockEdge.thy.now = s.thy.now ∧
    s.lockEdge.thy.prev = s.thy.prev ∧ s.lockEdge.thy.good = s.thy.good ∧ s.lockEdge.thy.offset = s.thy.offset := by
  have k := (lockEdge_keeps (.refl s) (Within.mem _)).thy
  exact ⟨k.lock.resolve_left (by decide), k.now.resolve_left (by decide), k.prev.resolve_left (by decide),
    k.good.resolve_left (by decide), k.offset.resolve_left (by decide)⟩

theorem lockLost_thy (s : State) (l : Lock) : (s.lockLost l).thy.lock = l ∧ (s.lockLost l).thy.now = s.thy.now ∧
    (s.lockLost l).thy.prev = s.thy.prev ∧ (s.lockLost l).thy.good = 0 ∧ (s.lockLost l).thy.offset = s.thy.offset := by
  unfold State.lockLost
  dsimp only
  simp [lockEdge_thy, elog_thy, State.setThy]

/-- A loss of lock is counted and logged (R421). -/
theorem lockLost_told (s : State) (l : Lock) :
    (s.lockLost l).reg .THYME_CNT_UNLOCK 0 0 = counted (s.reg .THYME_CNT_UNLOCK 0 0) ∧
    logged Status.unlocked unitThyme 0 noCtx noFn (BitVec.ofInt 64 s.thy.offset) s (s.lockLost l) := by
  unfold State.lockLost
  dsimp only
  generalize base_eq : State.count _ _ _ = base
  have edge := lockEdge_keeps (.refl (base.elog Status.unlocked unitThyme 0 noCtx noFn (BitVec.ofInt 64 s.thy.offset)))
    (Within.mem _)
  constructor
  · refine (edge.reg_eq (by decide) (by decide) (by decide)).trans ?_
    rw [elog_reg _ _ _ _ _ _ _ _ _ _ (by decide) (by decide), ← base_eq, count_reg _ _ _ (by decide)]
    rfl
  · refine logged_congr (elog_logged base _ _ _ _ _ _) ?_ ?_ ?_ ?_ (edge.icu.log.resolve_left (by decide))
      (edge.icu.logHead.resolve_left (by decide))
    · rw [← base_eq]; simp [State.setThy]
    · rw [← base_eq]; simp [State.setThy]
    · rw [← base_eq]; simp [State.setThy]
    · rw [← base_eq, count_reg_other _ (by decide) (.inl (by decide))]
      rfl

theorem timeStep_thy (s : State) (off : Int) : (s.timeStep off).thy.lock = s.thy.lock ∧
    (s.timeStep off).thy.now = s.thy.now + BitVec.ofInt 64 (round10 off) ∧ (s.timeStep off).thy.offset = s.thy.offset := by
  unfold State.timeStep
  dsimp only
  simp [elog_thy, State.setThy]

/-- The acquiring state's behaviour on a valid frame (Table 15.3): the counter steps on a great offset, and the lock is gained
with the eighth small one in a row. -/
theorem acquire_thy (s : State) (off : Int) : (s.acquire off).thy.offset = s.thy.offset ∧
    (s.acquire off).thy.now =
      (if 1000 < off.natAbs then s.thy.now + BitVec.ofInt 64 (round10 off) else s.thy.now) ∧
    (s.acquire off).thy.lock = (if off.natAbs ≤ 20 ∧ 8 ≤ s.thy.good + 1 then .locked else s.thy.lock) := by
  have moved : (if 1000 < off.natAbs then s.timeStep off else s.trim).thy.offset = s.thy.offset ∧
      (if 1000 < off.natAbs then s.timeStep off else s.trim).thy.now =
        (if 1000 < off.natAbs then s.thy.now + BitVec.ofInt 64 (round10 off) else s.thy.now) ∧
      (if 1000 < off.natAbs then s.timeStep off else s.trim).thy.lock = s.thy.lock := by
    split
    · exact ⟨(timeStep_thy s off).2.2, (timeStep_thy s off).2.1, (timeStep_thy s off).1⟩
    · exact ⟨rfl, rfl, rfl⟩
  have counts : (8 ≤ if off.natAbs ≤ 20 then s.thy.good + 1 else 0) ↔ off.natAbs ≤ 20 ∧ 8 ≤ s.thy.good + 1 := by
    split <;> simp [*]
  unfold State.acquire
  dsimp only
  generalize (if 1000 < off.natAbs then s.timeStep off else s.trim) = s1 at *
  obtain ⟨offset, now, lock⟩ := moved
  rw [← now, ← lock, ← offset]
  simp only [counts]
  split
  · simp [lockEdge_thy, State.setThy]
  · exact ⟨rfl, rfl, rfl⟩

/-- A valid frame by lock state (Table 15.3). -/
theorem lockFrame_thy (s : State) (off : Int) :
    (s.lockFrame off).thy.offset = s.thy.offset ∧
    ((s.thy.lock ≠ .locked ∨ 100 < off.natAbs) ∧ 1000 < off.natAbs →
      (s.lockFrame off).thy.now = s.thy.now + BitVec.ofInt 64 (round10 off)) ∧
    (¬ ((s.thy.lock ≠ .locked ∨ 100 < off.natAbs) ∧ 1000 < off.natAbs) → (s.lockFrame off).thy.now = s.thy.now) ∧
    (s.lockFrame off).thy.lock = (match s.thy.lock with
      | .free => .acquiring
      | .holdover => .acquiring
      | .acquiring => if off.natAbs ≤ 20 ∧ 8 ≤ s.thy.good + 1 then .locked else .acquiring
      | .locked => if 100 < off.natAbs then .acquiring else .locked) := by
  -- A state in which no small offset has been counted yet cannot lock on this frame.
  have begins (u : State) (lock : u.thy.lock = .acquiring) (good : u.thy.good = 0) (now : u.thy.now = s.thy.now)
      (offset : u.thy.offset = s.thy.offset) : (u.acquire off).thy.offset = s.thy.offset ∧
        (1000 < off.natAbs → (u.acquire off).thy.now = s.thy.now + BitVec.ofInt 64 (round10 off)) ∧
        (¬ 1000 < off.natAbs → (u.acquire off).thy.now = s.thy.now) ∧ (u.acquire off).thy.lock = .acquiring := by
    obtain ⟨h1, h2, h3⟩ := acquire_thy u off
    rw [good, if_neg (by omega), lock] at h3
    rw [now] at h2
    exact ⟨h1.trans offset, fun big => by rw [h2, if_pos big], fun small => by rw [h2, if_neg small], h3⟩
  unfold State.lockFrame
  cases lock : s.thy.lock with
  | free =>
    obtain ⟨h1, h2, h3, h4⟩ := begins (s.setThy { s.thy with lock := .acquiring, good := 0 }) rfl rfl rfl rfl
    exact ⟨h1, fun far => h2 far.2, fun near => h3 fun big => near ⟨.inl (by decide), big⟩, h4⟩
  | holdover =>
    obtain ⟨h1, h2, h3, h4⟩ := begins (s.setThy { s.thy with lock := .acquiring, good := 0 }) rfl rfl rfl rfl
    exact ⟨h1, fun far => h2 far.2, fun near => h3 fun big => near ⟨.inl (by decide), big⟩, h4⟩
  | acquiring =>
    obtain ⟨h1, h2, h3⟩ := acquire_thy s off
    rw [lock] at h3
    exact ⟨h1, fun far => by rw [h2, if_pos far.2], fun near => by rw [h2, if_neg (fun big => near ⟨.inl (by decide), big⟩)], h3⟩
  | locked =>
    dsimp only
    split
    · next far =>
      obtain ⟨l1, l2, -, l4, l5⟩ := lockLost_thy s .acquiring
      obtain ⟨h1, h2, h3, h4⟩ := begins (s.lockLost .acquiring) l1 l4 l2 l5
      exact ⟨h1, fun f => h2 f.2, fun near => h3 fun big => near ⟨.inr far, big⟩, h4⟩
    · next near =>
      refine ⟨rfl, fun far => absurd far.2 (by omega), fun _ => rfl, lock⟩

/-- Settles O11: the lock states by `lockFrame_thy` and `lockLost_thy`. -/
theorem tsyncCascade : Obligations.TsyncCascade := by
  refine ⟨fun n lt => tsyncBits_sound lt, fun s => ?_, fun edge bits s => ?_, fun s => ?_⟩
  · exact completes_if (by simp) rfl (execTsyncFrameSend_keeps (.refl s) (Within.mem _)) (by decide) fun _ => rfl
  · refine completes_if (by simp) rfl (execTsyncFrameReceive_keeps (.refl s) edge bits (Within.mem _))
      (by decide +kernel) fun _ => ?_
    dsimp only
    split
    · next valid =>
      rw [if_pos (by simpa using valid)]
      generalize off_eq : (frameT bits : Int) + s.regNat .THYME_DELAY_NS 0 0 - edge = off
      generalize base_eq : State.addTo _ _ _ _ = base
      have frame := lockFrame_keeps (.refl base) off (Within.mem _)
      obtain ⟨offset, stepped, kept, lock⟩ := lockFrame_thy base off
      have thy : base.thy = { s.thy with offset := off, prev := some (frameT bits, edge) } := by
        rw [← base_eq]
        simp [State.setThy]
      rw [thy] at offset stepped kept lock
      refine ⟨?_, ?_, offset, stepped, kept, lock⟩
      · unfold sends
        rw [frame.out_eq (by decide), ← base_eq]
        simp [State.setThy, State.send]
      · rw [frame.reg_eq (by decide) (by decide) (by decide), ← base_eq, addTo_reg _ _ _ _ (by decide)]
        rfl
    · next bad =>
      rw [if_neg (by simpa using bad)]
      refine ⟨?_, ?_, ?_⟩
      · unfold sends
        simp [State.send]
      · rw [count_reg _ _ _ (by decide)]
        rfl
      · simp
  · refine completes_if (by simp) rfl (execTsyncTimeout_keeps (.refl s) (Within.mem _)) (by decide) fun _ => ?_
    dsimp only
    split
    · next locked =>
      obtain ⟨lock, now, prev, good, -⟩ := lockLost_thy (s.setThy { s.thy with prev := none, good := 0 }) .holdover
      obtain ⟨unlocks, entry⟩ := lockLost_told (s.setThy { s.thy with prev := none, good := 0 }) .holdover
      exact ⟨prev, good, now, fun _ => ⟨lock, unlocks, entry⟩, fun free => absurd locked free⟩
    · next free =>
      exact ⟨rfl, rfl, rfl, fun locked => absurd locked free, fun _ => rfl⟩

end Sys2Proof.Machine
end

section
/-! SUPPORT. Block reads, full writes and partial writes of DRAM (R325, R326, R337; logs 77, 78). -/

set_option Elab.async false

namespace Sys2Proof.Machine

theorem when_neg (s : State) {c : Bool} (h : ¬ c = true) (f : State → State) : s.when c f = s := if_neg h

/-- A command that leaves the state as it is. -/
theorem completes_none {c : Instr} {cs : List Comp} {s : State} {P : State → Prop} (e : exec c s = .next s) (p : P s) :
    completes c cs s P :=
  completes_of e (.refl (cs := fun c => c ∈ []) s) (by simp) p

/-! ## What the accesses leave -/

theorem reg_congr {s t : State} (h : t.regs = s.regs) (r : Reg) (u i : Nat) : t.reg r u i = s.reg r u i := by
  unfold State.reg
  rw [h]

@[simp] theorem reg_setPoison (s : State) (b : Nat) (v : Bool) (r : Reg) (u i : Nat) :
    (s.setPoison b v).reg r u i = s.reg r u i := rfl

@[simp] theorem reg_setDramBytes (s : State) (m : Mem) (r : Reg) (u i : Nat) :
    (s.setDramBytes m).reg r u i = s.reg r u i := rfl

theorem dmc_congr {s t : State} (h : t.dram.dmcs = s.dram.dmcs) (d : Nat) : t.dmc d = s.dmc d := by
  unfold State.dmc
  rw [h]

theorem blockLoc_congr {s t : State} (map : t.dram.frameMap = s.dram.frameMap) (part : t.dev.part = s.dev.part) (b : Nat) :
    t.blockLoc b = s.blockLoc b := by
  unfold State.blockLoc State.frameLoc
  rw [map, part]

theorem dmcLogged_congr {l : BlockLoc} {k p : Nat} {s s' t t' : State} (h : dmcLogged l k p s t)
    (now : s'.thy.now = s.thy.now) (dmc : s'.dmc l.dmc = s.dmc l.dmc) (dmc' : t'.dmc l.dmc = t.dmc l.dmc) :
    dmcLogged l k p s' t' := by
  unfold dmcLogged at *
  rwa [now, dmc, dmc']

theorem regOk_dmcErr : ∀ {d c : Nat}, d < 2 → c < 32 → regOk .DMC_CH_ERR d c = true := by
  have all : ∀ d < 2, ∀ c < 32, regOk .DMC_CH_ERR d c = true := by decide +kernel
  exact fun {d c} hd hc => all d hd c hc

theorem dmcLog_dram (s : State) (l : BlockLoc) (kind port : Nat) : (s.dmcLog l kind port).dram =
    { s.dram with dmcs := (s.dmcLog l kind port).dram.dmcs } := by
  unfold State.dmcLog
  dsimp only
  rw [elog_dram]
  rfl

theorem dmcLog_logged (s : State) (l : BlockLoc) (kind port : Nat) : dmcLogged l kind port s (s.dmcLog l kind port) := by
  have dmc : (s.dmcLog l kind port).dmc l.dmc = _ :=
    (dmc_congr (congrArg Dram.dmcs (elog_dram (s.setDmc l.dmc _) _ _ _ _ _ _)) l.dmc).trans (dmc_setDmc_self s l.dmc _)
  unfold dmcLogged
  rw [dmc]
  exact ⟨rfl, rfl⟩

/-- The device error log's entry of a controller's entry (R428, Table 15.5). -/
theorem dmcLog_told (s : State) (l : BlockLoc) (kind port : Nat) :
    logged (kindStatus kind) unitDmc l.channel noCtx noFn (BitVec.ofNat 64 l.index) s (s.dmcLog l kind port) :=
  logged_congr (elog_logged (s.setDmc l.dmc _) (kindStatus kind) unitDmc l.channel noCtx noFn (BitVec.ofNat 64 l.index))
    rfl rfl rfl rfl rfl rfl

theorem dmcLog_fields (s : State) (l : BlockLoc) (kind port : Nat) :
    (s.dmcLog l kind port).dev = s.dev ∧ (s.dmcLog l kind port).thy.now = s.thy.now := by
  unfold State.dmcLog
  dsimp only
  simp

theorem adviseGroup_dram (s : State) (l : BlockLoc) : (s.adviseGroup l).dram = s.dram :=
  (adviseGroup_keeps (.refl s) l (Within.mem _)).dram_eq (by decide)

/-- A mismatch or poison that a read met: the controller's entry, then the advice of the group (R337, R338). -/
theorem dmcLog_adviseGroup_spec (s : State) (l : BlockLoc) (kind port : Nat) :
    let t := (s.dmcLog l kind port).adviseGroup l
    t.dram = { s.dram with dmcs := t.dram.dmcs } ∧ dmcLogged l kind port s t ∧ t.dev = s.dev ∧
    (∀ r u i, .reg r ∉ adviseChanChanges ++ dmcLogChanges → regOk r u i = true → t.reg r u i = s.reg r u i) := by
  dsimp only
  have dram := adviseGroup_dram (s.dmcLog l kind port) l
  have k : Keeps (fun c => c ∈ adviseChanChanges ++ dmcLogChanges) s ((s.dmcLog l kind port).adviseGroup l) :=
    adviseGroup_keeps (dmcLog_keeps (.refl s) l kind port fun c m => List.mem_append_right _ m) l
      fun c m => List.mem_append_left _ m
  refine ⟨by rw [dram, dmcLog_dram], ?_, k.dev_eq (by decide), fun r u i out ok => k.reg_eq (by decide) out ok⟩
  exact dmcLogged_congr (dmcLog_logged s l kind port) rfl rfl (dmc_congr (by rw [dram]) _)

theorem chErr_fields (s : State) (l : BlockLoc) (lo len : Nat) :
    (s.chErr l lo len).dram = s.dram ∧ (s.chErr l lo len).dev = s.dev ∧ (s.chErr l lo len).thy = s.thy := by
  simp [State.chErr]

theorem chErr_reg (s : State) {l : BlockLoc} (hd : l.dmc < 2) (lo len : Nat) :
    (s.chErr l lo len).reg .DMC_CH_ERR l.dmc (l.channel % 32) = bumpField (s.reg .DMC_CH_ERR l.dmc (l.channel % 32)) lo len :=
  updReg_reg _ _ _ _ _ (regOk_dmcErr hd (Nat.mod_lt _ (by decide)))

/-! ## Block reads -/

theorem regOk_cntRd {d : Nat} (hd : d < 2) : regOk .DMC_CNT_RD d 0 = true := (regOk_dmc1 hd).2.1
theorem regOk_cntWr {d : Nat} (hd : d < 2) : regOk .DMC_CNT_WR d 0 = true := (regOk_dmc1 hd).1

/-- A read of a mismatch or of poison ends in an entry of its kind: seen from a state `u` with the controllers of `s`. -/
theorem entry_spec {s u : State} (l : BlockLoc) (kind port : Nat) (dmcs : u.dram.dmcs = s.dram.dmcs)
    (now : u.thy.now = s.thy.now) :
    let t := (u.dmcLog l kind port).adviseGroup l
    dmcLogged l kind port s t ∧
    (l.dmc < 2 → t.reg .DMC_CH_ERR l.dmc (l.channel % 32) = u.reg .DMC_CH_ERR l.dmc (l.channel % 32)) := by
  obtain ⟨-, entry, -, regs⟩ := dmcLog_adviseGroup_spec u l kind port
  exact ⟨dmcLogged_congr entry now.symm (dmc_congr dmcs _).symm rfl,
    fun hd => regs _ _ _ (by decide) (regOk_dmcErr hd (Nat.mod_lt _ (by decide)))⟩

/-- The bytes that a read counts (R346). -/
theorem addTo_errs (s : State) {l : BlockLoc} (hd : l.dmc < 2) (n : Nat) :
    (s.addTo .DMC_CNT_RD l.dmc n).reg .DMC_CH_ERR l.dmc (l.channel % 32) = s.reg .DMC_CH_ERR l.dmc (l.channel % 32) :=
  addTo_reg_other s n (regOk_dmcErr hd (Nat.mod_lt _ (by decide))) (.inl (by decide))

theorem blockRead_good (s : State) (port b : Nat) (second : List Byte) (p : Bool) :
    s.blockRead port b .good second p = s.addTo .DMC_CNT_RD (s.blockLoc b).dmc 64 := rfl

theorem blockRead_partial_poisoned (s : State) (port b : Nat) (second : List Byte) :
    s.blockRead port b .poisonedBefore second true = s.addTo .DMC_CNT_RD (s.blockLoc b).dmc 64 := by
  unfold State.blockRead
  exact if_pos rfl

/-- R325: a mismatch that the re-read clears. -/
theorem blockRead_cleared (s : State) (port b : Nat) (second : List Byte) (p : Bool) :
    let l := s.blockLoc b
    let t := s.blockRead port b .cleared second p
    dmcLogged l 1 port s t ∧ (l.dmc < 2 → t.reg .DMC_CH_ERR l.dmc (l.channel % 32) =
      bumpField (s.reg .DMC_CH_ERR l.dmc (l.channel % 32)) 0 32) := by
  unfold State.blockRead
  dsimp only
  generalize s.blockLoc b = l
  obtain ⟨entry, errs⟩ := entry_spec (s := s) (u := (s.addTo .DMC_CNT_RD l.dmc 64).chErr l 0 32) l 1 port
    (by simp [chErr_fields]) (by simp [chErr_fields])
  refine ⟨entry, fun hd => (errs hd).trans ?_⟩
  rw [chErr_reg _ hd, addTo_errs s hd]

/-- R325: a mismatch that the re-read does not clear. -/
theorem blockRead_poisons (s : State) (port b : Nat) (second : List Byte) (p : Bool) :
    let l := s.blockLoc b
    let t := s.blockRead port b .poisonedNow second p
    dmcLogged l 2 port s t ∧ (l.dmc < 2 → t.reg .DMC_CH_ERR l.dmc (l.channel % 32) =
      bumpField (bumpField (s.reg .DMC_CH_ERR l.dmc (l.channel % 32)) 0 32) 32 16) := by
  dsimp only
  unfold State.blockRead
  dsimp only
  generalize s.blockLoc b = l
  generalize stored : ((s.addTo .DMC_CNT_RD l.dmc 64).setDramBytes _).setPoison b true = u
  have dmcs : u.dram.dmcs = s.dram.dmcs := by
    rw [← stored]
    simp [State.setPoison, State.setDramBytes]
  have now : u.thy = s.thy := by
    rw [← stored]
    simp [State.setPoison, State.setDramBytes]
  have regs (r : Reg) (a i : Nat) : u.reg r a i = (s.addTo .DMC_CNT_RD l.dmc 64).reg r a i := by
    rw [← stored]
    rw [reg_setPoison, reg_setDramBytes]
  obtain ⟨entry, errs⟩ := entry_spec (s := s) (u := (u.chErr l 0 32).chErr l 32 16) l 2 port
    (by simp [chErr_fields, dmcs]) (by simp [chErr_fields, now])
  refine ⟨entry, fun hd => (errs hd).trans ?_⟩
  rw [chErr_reg _ hd, chErr_reg _ hd, regs, addTo_errs s hd]

/-- R325: a block that was poisoned before. -/
theorem blockRead_poisoned (s : State) (port b : Nat) (second : List Byte) :
    let l := s.blockLoc b
    let t := s.blockRead port b .poisonedBefore second false
    dmcLogged l 3 port s t ∧ (l.dmc < 2 → t.reg .DMC_CH_ERR l.dmc (l.channel % 32) =
      bumpField (s.reg .DMC_CH_ERR l.dmc (l.channel % 32)) 48 16) := by
  dsimp only
  have same : (s.addTo .DMC_CNT_RD (s.blockLoc b).dmc 64).blockLoc b = s.blockLoc b :=
    blockLoc_congr (by simp) (by simp) b
  unfold State.blockRead State.poisonSeen
  simp only [Bool.false_eq_true, if_false]
  rw [same]
  generalize s.blockLoc b = l
  obtain ⟨entry, errs⟩ := entry_spec (s := s) (u := (s.addTo .DMC_CNT_RD l.dmc 64).chErr l 48 16) l 3 port
    (by simp [chErr_fields]) (by simp [chErr_fields])
  refine ⟨entry, fun hd => (errs hd).trans ?_⟩
  rw [chErr_reg _ hd, addTo_errs s hd]

/-- What remains of a read after its count: nothing that counts reads. -/
theorem blockRead_cntRd (s : State) (port b : Nat) (f : ReadFound) (second : List Byte) (p : Bool)
    (hd : (s.blockLoc b).dmc < 2) :
    (s.blockRead port b f second p).reg .DMC_CNT_RD (s.blockLoc b).dmc 0 = s.reg .DMC_CNT_RD (s.blockLoc b).dmc 0 + 64 := by
  have counts := addTo_reg s .DMC_CNT_RD (s.blockLoc b).dmc 64 (regOk_cntRd hd)
  have rest {u : State} (l : BlockLoc) (kind : Nat) : ((u.dmcLog l kind port).adviseGroup l).reg .DMC_CNT_RD (s.blockLoc b).dmc 0 =
      u.reg .DMC_CNT_RD (s.blockLoc b).dmc 0 :=
    (dmcLog_adviseGroup_spec u l kind port).2.2.2 _ _ _ (by decide) (regOk_cntRd hd)
  have errs (u : State) (l : BlockLoc) (lo len : Nat) : (u.chErr l lo len).reg .DMC_CNT_RD (s.blockLoc b).dmc 0 =
      u.reg .DMC_CNT_RD (s.blockLoc b).dmc 0 := updReg_reg_other _ _ (regOk_cntRd hd) (.inl (by decide))
  unfold State.blockRead
  dsimp only
  cases f with
  | good => exact counts
  | cleared => exact (rest _ _).trans ((errs _ _ _ _).trans counts)
  | poisonedNow =>
    refine (rest _ _).trans ((errs _ _ _ _).trans ((errs _ _ _ _).trans ?_))
    rw [reg_setPoison, reg_setDramBytes]
    exact counts
  | poisonedBefore =>
    cases p with
    | true =>
      simp only [if_true]
      exact counts
    | false =>
      simp only [Bool.false_eq_true, if_false]
      exact (rest _ _).trans ((errs _ _ _ _).trans counts)

theorem blockRead_dev (s : State) (port b : Nat) (f : ReadFound) (second : List Byte) (p : Bool) :
    (s.blockRead port b f second p).dev = s.dev ∧ (s.blockRead port b f second p).dram.held = s.dram.held ∧
    (s.blockRead port b f second p).dram.frameMap = s.dram.frameMap := by
  have k := blockRead_keeps (.refl s) port b f second p (Within.mem _)
  exact ⟨k.dev_eq (by decide), k.dram.held.resolve_left (by decide), k.dram.frameMap.resolve_left (by decide)⟩

/-! ## What a read finds -/

theorem readFinds_good {s : State} {b : Nat} (clean : s.poisoned b = false) (bad2 : Bool) :
    s.readFinds b false bad2 = .good := by simp [State.readFinds, clean]

theorem readFinds_cleared {s : State} {b : Nat} (clean : s.poisoned b = false) : s.readFinds b true false = .cleared := by
  simp [State.readFinds, clean]

theorem readFinds_poisons {s : State} {b : Nat} (clean : s.poisoned b = false) : s.readFinds b true true = .poisonedNow := by
  simp [State.readFinds, clean]

theorem readFinds_poisoned {s : State} {b : Nat} (held : s.poisoned b = true) (bad1 bad2 : Bool) :
    s.readFinds b bad1 bad2 = .poisonedBefore := by simp [State.readFinds, held]

/-- A read at a port is the block read, but for what it keeps for its unit (log 77). -/
theorem portRead_eq (s : State) (port b : Nat) (bad1 bad2 : Bool) (second : List Byte) :
    s.portRead port b bad1 bad2 second =
      { s.blockRead port b (s.readFinds b bad1 bad2) second false with
        dram := { (s.blockRead port b (s.readFinds b bad1 bad2) second false).dram with
          finds := (s.portRead port b bad1 bad2 second).dram.finds } } := by
  unfold State.portRead
  dsimp only
  split <;> rfl

/-- A read at a port that finds its block good only counts. -/
theorem portRead_good {s : State} {b : Nat} (clean : s.poisoned b = false) (port : Nat) (bad2 : Bool) (second : List Byte) :
    s.portRead port b false bad2 second = s.addTo .DMC_CNT_RD (s.blockLoc b).dmc 64 := by
  unfold State.portRead
  rw [readFinds_good clean]
  rfl

/-- What a read at a port leaves of its block read: all but what it keeps for its unit. -/
theorem portRead_same (s : State) (port b : Nat) (bad1 bad2 : Bool) (second : List Byte) :
    let l := s.blockLoc b
    let t := s.portRead port b bad1 bad2 second
    let u := s.blockRead port b (s.readFinds b bad1 bad2) second false
    t.dram.held = s.dram.held ∧ (l.dmc < 2 → t.reg .DMC_CNT_RD l.dmc 0 = s.reg .DMC_CNT_RD l.dmc 0 + 64) ∧
    (∀ d, t.dmc d = u.dmc d) ∧ (∀ i, t.reg .DMC_CH_ERR l.dmc i = u.reg .DMC_CH_ERR l.dmc i) := by
  dsimp only
  rw [portRead_eq]
  exact ⟨(blockRead_dev s port b _ second false).2.1, fun hd => blockRead_cntRd s port b _ second false hd, fun _ => rfl,
    fun _ => rfl⟩

theorem portRead_mem (s : State) (port b : Nat) (bad1 bad2 : Bool) (second : List Byte) :
    let f := s.readFinds b bad1 bad2
    (s.portRead port b bad1 bad2 second).dram.bytes =
      (if f = .poisonedNow then Mem.writeList s.dram.bytes (b * 64) (second.take 64) else s.dram.bytes) ∧
    (s.portRead port b bad1 bad2 second).dram.poison =
      (if f = .poisonedNow then SMap.set (fun _ => false) s.dram.poison b true else s.dram.poison) := by
  dsimp only
  rw [portRead_eq]
  exact blockRead_mem s port b (s.readFinds b bad1 bad2) second false

theorem poisoned_congr {s t : State} (h : t.dram.poison = s.dram.poison) (b : Nat) : t.poisoned b = s.poisoned b := by
  unfold State.poisoned
  rw [h]

theorem poisoned_of_set {s t : State} {b : Nat} {v : Bool}
    (h : t.dram.poison = SMap.set (fun _ => false) s.dram.poison b v) (c : Nat) :
    t.poisoned c = if c = b then v else s.poisoned c := by
  unfold State.poisoned
  rw [h]
  exact SMap.get_set _ _ _ _ _

/-! ## Full writes -/

theorem fullWrite_eq (s : State) (port b : Nat) {data : List Byte} (full : data.length = 64) :
    s.portWrite port b data =
      ((s.setDramBytes (Mem.writeList s.dram.bytes (b * 64) data)).setPoison b false).countWrite b := by
  have some : data ≠ [] := by
    rintro rfl
    cases full
  unfold State.portWrite State.putBlock
  rw [if_neg some, if_pos full, Nat.mul_div_cancel _ (by decide)]

def fullWriteChanges : List Comp := countWriteChanges ++ [.dramBytes, .dramPoison, .dramFinds]

theorem fullWrite_keeps {cs : Comp → Prop} {u s : State} (h : Keeps cs u s) (b : Nat) {data : List Byte}
    (hc : Within fullWriteChanges cs) :
    Keeps cs u (((s.setDramBytes (Mem.writeList s.dram.bytes (b * 64) data)).setPoison b false).countWrite b) := by
  simp only [fullWriteChanges, within_append] at hc
  obtain ⟨h0, hd⟩ := hc
  exact countWrite_keeps (setPoison_keeps (setDramBytes_keeps h _ (hd.of (by decide)) (Mem.wf_writeList _ _ _)) _ _
    (hd.of (by decide)) (hd.of (by decide))) _ h0

theorem countWrite_dram (s : State) (b : Nat) : (s.countWrite b).dram = s.dram := by simp [State.countWrite]

theorem countWrite_reg {s : State} {b d : Nat} (loc : (s.blockLoc b).dmc = d) (hd : d < 2) :
    (s.countWrite b).reg .DMC_CNT_WR d 0 = s.reg .DMC_CNT_WR d 0 + 64 := by
  subst loc
  exact addTo_reg _ _ _ _ (regOk_cntWr hd)

theorem blockLoc_setPoison_setDramBytes (s : State) (m : Mem) (c : Nat) (v : Bool) (b : Nat) :
    ((s.setDramBytes m).setPoison c v).blockLoc b = s.blockLoc b := rfl

/-- R326: a full write of a block. -/
theorem fullWrite_spec (s : State) (port b : Nat) {data : List Byte} (full : data.length = 64) :
    let t := s.portWrite port b data
    (∀ i (h : i < data.length), t.dramByte (b * 64 + i) = data[i]) ∧
    (∀ a, (a < b * 64 ∨ b * 64 + 64 ≤ a) → t.dramByte a = s.dramByte a) ∧
    (∀ c, t.poisoned c = (if c = b then false else s.poisoned c)) ∧ t.dram.held = s.dram.held ∧
    ((s.blockLoc b).dmc < 2 → t.reg .DMC_CNT_WR (s.blockLoc b).dmc 0 = s.reg .DMC_CNT_WR (s.blockLoc b).dmc 0 + 64) := by
  dsimp only
  rw [fullWrite_eq s port b full]
  refine ⟨fun i h => ?_, fun a out => ?_, fun c => ?_, ?_, fun hd => ?_⟩
  · unfold State.dramByte
    rw [countWrite_dram]
    exact dramByte_write s (b * 64) data h
  · unfold State.dramByte
    rw [countWrite_dram]
    exact dramByte_write_ne s (b * 64) data (full.symm ▸ out)
  · rw [poisoned_congr (congrArg Dram.poison (countWrite_dram _ _)), poisoned_setPoison]
    rfl
  · rw [countWrite_dram]
    rfl
  · rw [countWrite_reg (congrArg BlockLoc.dmc (blockLoc_setPoison_setDramBytes s _ _ _ _)) hd, reg_setPoison, reg_setDramBytes]



/-- The newest entry of the log after a happening: a new one, or the one that it repeats (R429). -/
theorem logged_head {st : W16} {u i c f : Nat} {d : W64} {s t : State} (h : logged st u i c f d s t) :
    ∃ e, t.icu.log.head? = some e ∧ e.status = st ∧ e.unit = u ∧ e.index = i := by
  unfold logged at h
  dsimp only at h
  cases log : s.icu.log with
  | nil =>
    rw [log] at h
    exact ⟨_, by rw [h.1]; rfl, rfl, rfl, rfl⟩
  | cons x xs =>
    rw [log] at h
    dsimp only at h
    split at h
    · next merges =>
      simp only [State.elogMerges, Bool.and_eq_true, beq_iff_eq] at merges
      obtain ⟨⟨⟨⟨status, unit⟩, index⟩, -⟩, -⟩ := merges
      exact ⟨_, congrArg List.head? h.1, status, unit, index⟩
    · exact ⟨_, by rw [h.1]; rfl, rfl, rfl, rfl⟩

/-- A partial write whose read discards it (R326). -/
theorem portPart_discarded {s : State} {port addr : Nat} {data second : List Byte} {bad1 bad2 : Bool}
    (h : (s.readFinds (addr / 64) bad1 bad2).discards = true) :
    s.portPart port addr data bad1 bad2 second =
      (s.blockRead port (addr / 64) (s.readFinds (addr / 64) bad1 bad2) second true).dmcLog (s.blockLoc (addr / 64)) 4 port := by
  unfold State.portPart
  exact if_pos h

/-- A partial write whose read goes well (R326). -/
theorem portPart_stored {s : State} {port addr : Nat} {data second : List Byte} {bad1 bad2 : Bool}
    (h : (s.readFinds (addr / 64) bad1 bad2).discards = false) :
    let s1 := s.blockRead port (addr / 64) (s.readFinds (addr / 64) bad1 bad2) second true
    s.portPart port addr data bad1 bad2 second =
      (s1.setDramBytes (Mem.writeList s1.dram.bytes addr data)).countWrite (addr / 64) := by
  unfold State.portPart
  exact if_neg (by simp [h])

/-- What a read finds that lets a partial write go on: nothing that poisons. -/
theorem readFinds_keeps_write {s : State} {b : Nat} {bad1 bad2 : Bool} (clean : s.poisoned b = false)
    (once : (bad1 && bad2) = false) :
    (s.readFinds b bad1 bad2).discards = false ∧ s.readFinds b bad1 bad2 ≠ .poisonedNow := by
  cases bad1
  · rw [readFinds_good clean]
    exact ⟨rfl, by decide⟩
  · cases bad2
    · rw [readFinds_cleared clean]
      exact ⟨rfl, by decide⟩
    · cases once

theorem portPart_stored_spec {s : State} (port addr : Nat) (data second : List Byte) {bad1 bad2 : Bool}
    (clean : s.poisoned (addr / 64) = false) (once : (bad1 && bad2) = false) :
    let t := s.portPart port addr data bad1 bad2 second
    let d := (s.blockLoc (addr / 64)).dmc
    (∀ i (h : i < data.length), t.dramByte (addr + i) = data[i]) ∧
    (∀ a, (a < addr ∨ addr + data.length ≤ a) → t.dramByte a = s.dramByte a) ∧ t.dram.poison = s.dram.poison ∧
    (d < 2 → t.reg .DMC_CNT_WR d 0 = s.reg .DMC_CNT_WR d 0 + 64) := by
  dsimp only
  obtain ⟨stores, noPoison⟩ := readFinds_keeps_write clean once
  rw [portPart_stored stores]
  obtain ⟨bytes, poison⟩ := blockRead_mem s port (addr / 64) (s.readFinds (addr / 64) bad1 bad2) second true
  rw [if_neg noPoison] at bytes poison
  obtain ⟨dev, -, map⟩ := blockRead_dev s port (addr / 64) (s.readFinds (addr / 64) bad1 bad2) second true
  have k := blockRead_keeps (.refl s) port (addr / 64) (s.readFinds (addr / 64) bad1 bad2) second true (Within.mem _)
  generalize s.blockRead port (addr / 64) (s.readFinds (addr / 64) bad1 bad2) second true = s1 at *
  refine ⟨fun i h => ?_, fun a out => ?_, ?_, fun hd => ?_⟩
  · unfold State.dramByte
    rw [countWrite_dram]
    exact dramByte_write s1 addr data h
  · unfold State.dramByte
    rw [countWrite_dram, ← bytes]
    exact dramByte_write_ne s1 addr data out
  · rw [countWrite_dram]
    exact poison
  · have loc : ((s1.setDramBytes (Mem.writeList s1.dram.bytes addr data)).blockLoc (addr / 64)).dmc =
        (s.blockLoc (addr / 64)).dmc := congrArg BlockLoc.dmc (blockLoc_congr map (congrArg Dev.part dev) _)
    rw [countWrite_reg loc hd, reg_setDramBytes, k.reg_eq (by decide) (by decide) (regOk_cntWr hd)]

/-- What the discard of a partial write leaves, and its entries (R326, Table 15.5). -/
theorem discard_spec (s : State) (l : BlockLoc) (port : Nat) :
    let t := s.dmcLog l 4 port
    t.dram.bytes = s.dram.bytes ∧ t.dram.poison = s.dram.poison ∧ t.dram.held = s.dram.held ∧ dmcLogged l 4 port s t ∧
    logged 0x5022#16 1 l.channel 0xFFFF 0xFF (BitVec.ofNat 64 l.index) s t := by
  have dram := dmcLog_dram s l 4 port
  exact ⟨by rw [dram], by rw [dram], by rw [dram], dmcLog_logged s l 4 port, dmcLog_told s l 4 port⟩

/-- A partial write whose read fails twice poisons its block and is discarded (R325, R326). -/
theorem portPart_twice_spec {s : State} (port addr : Nat) (data second : List Byte) (clean : s.poisoned (addr / 64) = false) :
    let t := s.portPart port addr data true true second
    t.dram.bytes = Mem.writeList s.dram.bytes (addr / 64 * 64) (second.take 64) ∧
    (∀ c, t.poisoned c = (if c = addr / 64 then true else s.poisoned c)) ∧
    (∃ e, t.icu.log.head? = some e ∧ e.status = 0x5022#16 ∧ e.unit = 1 ∧ e.index = (s.blockLoc (addr / 64)).channel) := by
  dsimp only
  have finds : s.readFinds (addr / 64) true true = .poisonedNow := readFinds_poisons clean
  rw [portPart_discarded (by rw [finds]; rfl), finds]
  obtain ⟨bytes, poison⟩ := blockRead_mem s port (addr / 64) .poisonedNow second true
  generalize s.blockRead port (addr / 64) .poisonedNow second true = s1 at *
  obtain ⟨bytes', poison', -, -, told⟩ := discard_spec s1 (s.blockLoc (addr / 64)) port
  exact ⟨bytes'.trans bytes, poisoned_of_set (poison'.trans poison), logged_head told⟩

/-- A partial write to a poisoned block is discarded (R326). -/
theorem portPart_poisoned_spec {s : State} (port addr : Nat) (data second : List Byte) (bad1 bad2 : Bool)
    (was : s.poisoned (addr / 64) = true) :
    let t := s.portPart port addr data bad1 bad2 second
    let l := s.blockLoc (addr / 64)
    t.dram.bytes = s.dram.bytes ∧ t.dram.poison = s.dram.poison ∧ dmcLogged l 4 port s t ∧
    logged 0x5022#16 1 l.channel 0xFFFF 0xFF (BitVec.ofNat 64 l.index) s t := by
  dsimp only
  rw [portPart_discarded (by rw [readFinds_poisoned was]; rfl), readFinds_poisoned was, blockRead_partial_poisoned]
  generalize s.blockLoc (addr / 64) = l
  have merge := addTo_reg_other s (r := .DMC_CNT_RD) (u := l.dmc) 64 regOk_merge (.inl (by decide))
  generalize counts : s.addTo .DMC_CNT_RD l.dmc 64 = s1 at *
  obtain ⟨bytes, poison, -, entry, told⟩ := discard_spec s1 l port
  have dram : s1.dram = s.dram := by simp [← counts]
  have icu : s1.icu = s.icu := by simp [← counts]
  have thy : s1.thy = s.thy := by simp [← counts]
  exact ⟨bytes.trans (by rw [dram]), poison.trans (by rw [dram]),
    dmcLogged_congr entry (by rw [thy]) (dmc_congr (by rw [dram]) _) rfl,
    logged_congr told (by rw [icu]) (by rw [icu]) (by rw [thy]) merge.symm rfl rfl⟩

/-- Settles O12: a full write is `fullWrite_spec`, a read is `State.blockRead` by what it finds, and a partial write is that
read and then a store or a discard. -/
theorem dramReadsAndWrites : Obligations.DramReadsAndWrites := by
  refine ⟨⟨fun port b data s => ?_, fun port b bad1 bad2 second s => ?_⟩, fun port addr data bad1 bad2 second s => ?_⟩
  · by_cases named : s.clocked = true ∧ b * 64 < dramSize s.dev.part ∧ data.length = 64
    · have run : exec (.dramWrite port b data) s =
          .next (if s.serves (.write port b data) then s.portWrite port b data else s.hold (.write port b data)) :=
        congrArg _ (when_eq s (by simp [named]) _)
      have k : Keeps (fun c => c ∈ fullWriteChanges ++ holdChanges) s
          (if s.serves (.write port b data) then s.portWrite port b data else s.hold (.write port b data)) := by
        split
        · rw [fullWrite_eq s port b named.2.2]
          exact fullWrite_keeps (.refl s) b fun c m => List.mem_append_left _ m
        · exact hold_keeps (.refl s) _ fun c m => List.mem_append_right _ m
      refine completes_of run k (by decide) ?_
      rw [if_pos named]
      refine ⟨fun waits => if_neg (by simp [waits]), fun served => ?_⟩
      rw [if_pos served]
      exact fullWrite_spec s port b named.2.2
    · refine completes_none (congrArg Host.Outcome.next (when_neg s (by simpa [and_assoc] using named) _)) ?_
      rw [if_neg named]
  · refine completes_if (by simp) rfl (execDramRead_keeps (.refl s) port b bad1 bad2 second (Within.mem _)) (by decide) ?_
    intro _
    refine ⟨fun waits => if_neg (by simp [waits]), fun served => ?_⟩
    rw [if_pos served]
    obtain ⟨held, cntRd, dmc, errs⟩ := portRead_same s port b bad1 bad2 second
    obtain ⟨bytes, poison⟩ := portRead_mem s port b bad1 bad2 second
    refine ⟨held, cntRd, fun clean good => ?_, fun clean first again => ?_, fun clean first again => ?_, fun was => ?_⟩
    · subst good
      rw [portRead_good clean]
      simp
    · subst first again
      obtain ⟨entry, count⟩ := blockRead_cleared s port b second false
      rw [readFinds_cleared clean] at *
      exact ⟨by simpa using bytes, by simpa using poison, dmcLogged_congr entry rfl rfl (dmc _),
        fun hd => (errs _).trans (count hd)⟩
    · subst first again
      obtain ⟨entry, count⟩ := blockRead_poisons s port b second false
      rw [readFinds_poisons clean] at *
      exact ⟨by simpa using bytes, poisoned_of_set (by simpa using poison), dmcLogged_congr entry rfl rfl (dmc _),
        fun hd => (errs _).trans (count hd)⟩
    · obtain ⟨entry, count⟩ := blockRead_poisoned s port b second
      rw [readFinds_poisoned was] at *
      exact ⟨by simpa using bytes, by simpa using poison, dmcLogged_congr entry rfl rfl (dmc _),
        fun hd => (errs _).trans (count hd)⟩
  · refine completes_if (by simp [and_assoc]) rfl (execPartialWrite_keeps (.refl s) port addr data bad1 bad2 second (Within.mem _))
      (by decide) ?_
    intro _
    refine ⟨fun waits => if_neg (by simp [waits]), fun served => ?_⟩
    rw [if_pos served]
    have part := portPart_keeps (.refl s) port addr data bad1 bad2 second (Within.mem _)
    refine ⟨part.dram.held.resolve_left (by decide), fun clean once => portPart_stored_spec port addr data second clean once,
      fun clean twice => ?_, fun was => portPart_poisoned_spec port addr data second bad1 bad2 was⟩
    obtain ⟨rfl, rfl⟩ : bad1 = true ∧ bad2 = true := by simpa using twice
    exact portPart_twice_spec port addr data second clean

end Sys2Proof.Machine
end

section
/-! SUPPORT. Weir: the rail and the points that it supports, the ends of a sprint (R352, R354, R365 to R370). -/

set_option Elab.async false

namespace Sys2Proof.Machine

/-! ## What points and clusters depend on -/

theorem needMv_congr {s t : State} (h : t.regs = s.regs) (p : Nat) : t.needMv p = s.needMv p := by
  unfold State.needMv State.fixedClock State.partMv State.voffset State.regBit State.regNat
  simp only [reg_congr h]

theorem clusterLive_congr {s t : State} (part : t.dev.part = s.dev.part) (live : t.weir.live = s.weir.live) (n : Nat) :
    t.clusterLive n = s.clusterLive n := by
  unfold State.clusterLive State.domainLive
  rw [part, live]

theorem clusters_congr {s t : State} (part : t.dev.part = s.dev.part) : t.clusters = s.clusters := by
  unfold State.clusters
  rw [part]

theorem clusterPresent_lt {p : Part} {n : Nat} (h : clusterPresent p n = true) : n < 4 := by
  simp only [clusterPresent, Bool.and_eq_true, decide_eq_true_eq] at h
  exact h.1

theorem clusterLive_present {s : State} {n : Nat} (h : s.clusterLive n = true) : clusterPresent s.dev.part n = true := by
  simp only [State.clusterLive, Bool.and_eq_true] at h
  exact h.1

theorem mem_clusters {s : State} {n : Nat} : n ∈ s.clusters ↔ clusterPresent s.dev.part n = true := by
  simp only [State.clusters, List.mem_filter, List.mem_range]
  exact ⟨fun h => h.2, fun h => ⟨clusterPresent_lt h, h⟩⟩

theorem minOver_le (f : Nat → Nat) (a : Nat) (l : List Nat) : minOver f a l ≤ a := by
  induction l generalizing a with
  | nil => exact Nat.le_refl a
  | cons x xs ih => exact (ih _).trans (Nat.min_le_left _ _)

/-- Outside fixed-clock mode the cap bounds the effective point (R354, item 3). -/
theorem effectivePoint_le_cap {s : State} (h : s.fixedClock = false) (n : Nat) : s.effectivePoint n ≤ (s.clPwr n).capPt := by
  have own : s.allowedPoint n ≤ (s.clPwr n).capPt := by
    unfold State.allowedPoint
    rw [h]
    exact Nat.min_le_right _ _
  unfold State.effectivePoint
  split
  · exact (minOver_le _ _ _).trans own
  · exact own

/-- A cluster's thermal limit bounds its effective point in every mode (R354 item 4, R355). -/
theorem effectivePoint_le_therm (s : State) (n : Nat) : s.effectivePoint n ≤ (s.clPwr n).thermPt - 1 := by
  have own : s.allowedPoint n ≤ (s.clPwr n).thermPt - 1 := by
    unfold State.allowedPoint State.uncappedPoint ClPwr.thermPoint
    dsimp only
    cases s.fixedClock
    · simp only [Bool.false_eq_true, if_false]
      omega
    · simp only [if_true]
      omega
  unfold State.effectivePoint
  split
  · exact (minOver_le _ _ _).trans own
  · exact own

/-! ## The rail (R352) -/

theorem le_foldl_max (f : Nat → Int) (l : List Nat) (a : Int) :
    a ≤ l.foldl (fun a n => max a (f n)) a ∧ ∀ n ∈ l, f n ≤ l.foldl (fun a n => max a (f n)) a := by
  induction l generalizing a with
  | nil => exact ⟨Int.le_refl a, fun n h => absurd h (List.not_mem_nil)⟩
  | cons x xs ih =>
    obtain ⟨start, rest⟩ := ih (max a (f x))
    refine ⟨(Int.le_max_left a (f x)).trans start, fun n h => ?_⟩
    rcases List.mem_cons.1 h with rfl | h
    · exact (Int.le_max_right a (f n)).trans start
    · exact rest n h

theorem railGoal_ge {s : State} {n : Nat} (live : s.clusterLive n = true) :
    s.needMv (max (s.clPwr n).point ((s.clPwr n).want.getD 0)) ≤ s.railGoal :=
  (le_foldl_max _ _ _).2 n (List.mem_filter.2 ⟨mem_clusters.2 (clusterLive_present live), live⟩)

/-- Outside coolant stop the settled rail gives what a live cluster uses or awaits. -/
theorem settleRail_railSupports {s : State} {n p : Nat} (h : max (s.clPwr n).point ((s.clPwr n).want.getD 0) = p) :
    railSupports n p s.settleRail := by
  have k := settleRail_keeps (.refl s) (Within.mem _)
  intro live running
  rw [clusterLive_congr k.part (k.weir.live.resolve_left (by decide))] at live
  rw [k.weir.coolant.resolve_left (by decide)] at running
  rw [needMv_congr (settleRail_spec s).2.1, ← h]
  refine (railGoal_ge live).trans ?_
  unfold State.settleRail
  split
  · next c => exact le_of_eq (c.resolve_left running)
  · exact Int.self_le_toNat _

theorem railSupports_congr {n p : Nat} {s t : State} (h : railSupports n p s) (part : t.dev.part = s.dev.part)
    (live : t.weir.live = s.weir.live) (coolant : t.weir.coolant = s.weir.coolant) (regs : t.regs = s.regs)
    (rail : t.weir.railMv = s.weir.railMv) : railSupports n p t := by
  unfold railSupports at *
  rwa [clusterLive_congr part live, coolant, needMv_congr regs, rail]

/-! ## Points (R352) -/

theorem repoint_stays {s : State} {n : Nat} (h : (s.clPwr n).stopped = true ∨ clusterPresent s.dev.part n = false) :
    s.repoint n = s := by
  unfold State.repoint
  dsimp only
  rw [if_pos]
  rcases h with h | h <;> simp [h]

/-- A running cluster goes to its effective point at once, or awaits it with a rail that supports it. -/
theorem repoint_moves {s : State} {n : Nat} (runs : (s.clPwr n).stopped = false)
    (present : clusterPresent s.dev.part n = true) :
    ((s.clPwr n).point < s.effectivePoint n → (s.repoint n).clPwr n = { s.clPwr n with want := some (s.effectivePoint n) }) ∧
    (s.effectivePoint n ≤ (s.clPwr n).point →
      (s.repoint n).clPwr n = { s.clPwr n with point := s.effectivePoint n, want := none }) ∧
    railSupports n (s.effectivePoint n) (s.repoint n) := by
  have moved : s.repoint n = State.settleRail (s.setClPwr n (if (s.clPwr n).point < s.effectivePoint n then
      { s.clPwr n with want := some (s.effectivePoint n) }
      else { s.clPwr n with point := s.effectivePoint n, want := none })) := by
    unfold State.repoint
    dsimp only
    rw [if_neg (by simp [runs, present])]
  rw [moved, clPwr_congr (settleRail_spec _).1, clPwr_setClPwr_self]
  refine ⟨fun up => if_pos up, fun down => if_neg (Nat.not_lt.2 down), settleRail_railSupports ?_⟩
  rw [clPwr_setClPwr_self]
  split
  · next up =>
    dsimp only [Option.getD_some]
    omega
  · exact Nat.max_eq_left (Nat.zero_le _)

/-! ## Ends of a sprint (R365 to R370) -/

/-- The limits that decide whether a cluster is allowed a sprint point are the same in two states. -/
structure SameLimits (s t : State) : Prop where
  regs : t.regs = s.regs
  part : t.dev.part = s.dev.part
  live : t.weir.live = s.weir.live
  groups : t.slu.groups = s.slu.groups
  clusters : ∀ m, (t.clPwr m).likeLimits (s.clPwr m)

theorem SameLimits.sprintAllowed {s t : State} (h : SameLimits s t) (n : Nat) : t.sprintAllowed n = s.sprintAllowed n := by
  have point : t.sprintPoint = s.sprintPoint := by
    funext m
    obtain ⟨therm, -, -, -, -, cap⟩ := h.clusters m
    unfold State.sprintPoint State.phasePoint State.phaseEntry State.regNat ClPwr.thermPoint
    simp only [reg_congr h.regs, therm, cap]
  unfold State.sprintAllowed State.fixedClock State.regBit State.groupOf
  simp only [clusterLive_congr h.part h.live, reg_congr h.regs, h.groups, point]

theorem repoint_sameLimits (s : State) (n : Nat) : SameLimits s (s.repoint n) where
  regs := (repoint_same s n).1
  part := (repoint_keeps (.refl s) n (Within.mem _)).part
  live := (repoint_keeps (.refl s) n (Within.mem _)).weir.live.resolve_left (by decide)
  groups := (repoint_keeps (.refl s) n (Within.mem _)).slu.groups.resolve_left (by decide)
  clusters m := (repoint_clPwr s n m).1

theorem sprinting_iff (s : State) : s.sprinting = true ↔
    ∃ m < 4, s.clusterLive m = true ∧ 6 ≤ max (s.clPwr m).point ((s.clPwr m).want.getD 0) := by
  unfold State.sprinting
  simp only [List.any_eq_true, Bool.and_eq_true, Bool.or_eq_true, decide_eq_true_eq, mem_clusters, le_max_iff]
  constructor
  · rintro ⟨m, present, live, high⟩
    exact ⟨m, clusterPresent_lt present, live, high⟩
  · rintro ⟨m, -, live, high⟩
    exact ⟨m, clusterLive_present live, live, high⟩

/-- What decides whether a sprint goes on after a change (R370). -/
def State.sprintStays (s : State) : Prop := (∃ m < 4, s.sprintAllowed m = true) ∧ s.sprinting = true

theorem sprintEnd_sprint {s : State} (on : s.weir.sprint.on = true) (st : W16) (d : Nat) : (s.sprintEnd st d).weir.sprint =
    { s.weir.sprint with on := false, budgetNj := 0, endedNs := some s.dev.aoNs } := by
  unfold State.sprintEnd
  rw [when_eq s on]
  dsimp only
  split <;> simp [settleRail_spec, leaveSprint_spec, State.setSprint]

theorem sprintEnd_ends {s : State} (on : s.weir.sprint.on = true) (st : W16) (d : Nat) :
    sprintEnds st s (s.sprintEnd st d) := by
  obtain ⟨-, -, -, -, -, ended, -⟩ := sprintEnd_spec s st d
  obtain ⟨status, source, points⟩ := ended on
  exact ⟨sprintEnd_sprint on st d, status, source, points⟩

/-- What the end of a sprint depends on; the budget that is left is lost (R366). -/
theorem sprintEnds_congr {st : W16} {s s' t : State} {b : Int} (h : sprintEnds st s t)
    (sprint : s.weir.sprint = { s'.weir.sprint with budgetNj := b }) (dev : s'.dev.aoNs = s.dev.aoNs ∧ s'.clocked = s.clocked)
    (icu : s'.icu = s.icu) (mode : s'.srcMode 3 = s.srcMode 3) : sprintEnds st s' t := by
  obtain ⟨h1, h2, h3, h4⟩ := h
  refine ⟨?_, h2, raised_congr h3 dev.2 mode (by rw [icu]) id, h4⟩
  rw [h1, sprint, dev.1]

theorem sprintCheck_eq {s : State} (h : s.weir.sprint.on = false ∨ s.sprintStays) : s.sprintCheck = s := by
  unfold State.sprintCheck
  rw [if_neg]
  rcases h with off | ⟨⟨m, hm, allowed⟩, sprinting⟩
  · simp [off]
  · simp only [sprinting, Bool.not_true, Bool.or_false, Bool.and_eq_true, Bool.not_eq_true', not_and, Bool.not_eq_false,
      List.any_eq_true, List.mem_range]
    exact fun _ => ⟨m, hm, allowed⟩

theorem sprintCheck_ends {s : State} (on : s.weir.sprint.on = true) (h : ¬ s.sprintStays) :
    sprintEnds 0x7006#16 s s.sprintCheck := by
  have ends : (s.weir.sprint.on && (!(List.range 4).any s.sprintAllowed || !s.sprinting)) = true := by
    simp only [on, Bool.true_and, Bool.or_eq_true, Bool.not_eq_true']
    by_contra both
    simp only [not_or, Bool.not_eq_false, List.any_eq_true, List.mem_range] at both
    exact h ⟨both.1, both.2⟩
  unfold State.sprintCheck
  rw [if_pos ends]
  exact sprintEnd_ends on _ _

/-- Leaving sprint raises no point, and no point awaited. -/
theorem leaveSprint_lowers (s : State) (ns : List Nat) (m : Nat) :
    ((s.leaveSprint ns).clPwr m).point ≤ (s.clPwr m).point ∧
    ((s.leaveSprint ns).clPwr m).want.getD 0 ≤ (s.clPwr m).want.getD 0 := by
  induction ns generalizing s with
  | nil => exact ⟨Nat.le_refl _, Nat.le_refl _⟩
  | cons n ns ih =>
    unfold State.leaveSprint
    dsimp only
    obtain ⟨point, want⟩ := ih (s.setClPwr n { s.clPwr n with
      point := if 6 ≤ (s.clPwr n).point then min 5 (s.effectivePoint n) else (s.clPwr n).point,
      want := match (s.clPwr n).want with
        | some q => if 6 ≤ q then none else some q
        | none => none })
    refine ⟨point.trans ?_, want.trans ?_⟩ <;> rw [clPwr_setClPwr]
    · split
      · next e =>
        subst e
        dsimp only
        split <;> omega
      · exact Nat.le_refl _
    · split
      · next e =>
        subst e
        dsimp only
        cases (s.clPwr m).want with
        | none => exact Nat.le_refl _
        | some q =>
          dsimp only
          split
          · exact Nat.zero_le _
          · exact Nat.le_refl _
      · exact Nat.le_refl _

theorem sprintEnd_lowers (s : State) (st : W16) (d m : Nat) :
    ((s.sprintEnd st d).clPwr m).point ≤ (s.clPwr m).point ∧
    ((s.sprintEnd st d).clPwr m).want.getD 0 ≤ (s.clPwr m).want.getD 0 := by
  unfold State.sprintEnd
  cases s.weir.sprint.on with
  | false => exact ⟨Nat.le_refl _, Nat.le_refl _⟩
  | true =>
    rw [when_true]
    dsimp only
    generalize left_eq : State.setSprint s _ = left
    have same : left.clPwr m = s.clPwr m := by rw [← left_eq]; rfl
    have cls : ∀ t : State, t.weir = (left.leaveSprint (List.range 4)).settleRail.weir →
        t.clPwr m = (left.leaveSprint (List.range 4)).clPwr m := fun t h => clPwr_congr (by rw [h, (settleRail_spec _).1]) m
    split <;> (rw [cls _ (by simp), ← same]; exact leaveSprint_lowers left _ m)

theorem sprintCheck_lowers (s : State) (m : Nat) : (s.sprintCheck.clPwr m).point ≤ (s.clPwr m).point ∧
    (s.sprintCheck.clPwr m).want.getD 0 ≤ (s.clPwr m).want.getD 0 := by
  unfold State.sprintCheck
  split
  · exact sprintEnd_lowers s _ _ m
  · exact ⟨Nat.le_refl _, Nat.le_refl _⟩

/-- An electrical end of a sprint is logged (Table 15.5). -/
theorem sprintEnd_excursion {s : State} (on : s.weir.sprint.on = true) (d : Nat) :
    logged Status.sprintExcursion unitWeir 0 noCtx noFn (BitVec.ofNat 64 d) s (s.sprintEnd Status.sprintExcursion d) := by
  unfold State.sprintEnd
  rw [when_eq s on]
  dsimp only
  rw [if_pos rfl]
  generalize left_eq : State.settleRail _ = left
  have base : left.icu = s.icu ∧ left.thy = s.thy ∧ left.regs = s.regs := by
    rw [← left_eq]
    obtain ⟨-, regs, icu, -, thy, -⟩ := settleRail_spec
      ((s.setSprint { s.weir.sprint with on := false, budgetNj := 0, endedNs := some s.dev.aoNs }).leaveSprint (List.range 4))
    obtain ⟨regs', icu', -, thy', -⟩ := leaveSprint_spec
      (s.setSprint { s.weir.sprint with on := false, budgetNj := 0, endedNs := some s.dev.aoNs }) (List.range 4)
    exact ⟨icu.trans icu', thy.trans thy', regs.trans regs'⟩
  obtain ⟨icu, thy, regs⟩ := base
  refine logged_congr (elog_logged _ _ _ _ _ _ _) ?_ ?_ ?_ ?_ rfl rfl
  · rw [(raise_log _ _).1, (powerStatus_fields left _).2.2.2.2.2.2.2.2.2.2.2.2.1, icu]
  · rw [(raise_log _ _).2, (powerStatus_fields left _).2.2.2.2.2.2.2.2.2.2.2.2.1, icu]
  · rw [raise_now]
    simp [thy]
  · rw [raise_reg _ _ _ _ _ (by decide) (by decide)]
    unfold State.powerStatus
    rw [reg_setReg_other _ _ (by decide) (.inl (by decide)), reg_congr regs]

/-! ## Points of several clusters -/

theorem SameLimits.refl (s : State) : SameLimits s s := ⟨rfl, rfl, rfl, rfl, fun _ => ClPwr.likeLimits_refl _⟩

theorem SameLimits.trans {s t u : State} (h : SameLimits s t) (g : SameLimits t u) : SameLimits s u :=
  ⟨g.regs.trans h.regs, g.part.trans h.part, g.live.trans h.live, g.groups.trans h.groups,
    fun m => ClPwr.likeLimits_trans (g.clusters m) (h.clusters m)⟩

theorem SameLimits.capPt {s t : State} (h : SameLimits s t) (m : Nat) : (t.clPwr m).capPt = (s.clPwr m).capPt := by
  obtain ⟨-, -, -, -, -, cap⟩ := h.clusters m
  exact cap

theorem SameLimits.stopped {s t : State} (h : SameLimits s t) (m : Nat) : (t.clPwr m).stopped = (s.clPwr m).stopped := by
  obtain ⟨-, -, stopped, -⟩ := h.clusters m
  exact stopped

theorem SameLimits.fixedClock {s t : State} (h : SameLimits s t) : t.fixedClock = s.fixedClock := by
  unfold State.fixedClock State.regBit
  rw [reg_congr h.regs]

/-- Repointing keeps a running cluster at or below a bound on its effective point, and brings one that is listed there. -/
theorem repointAll_le {s : State} {q m : Nat} (ns : List Nat) (bound : ∀ t, SameLimits s t → t.effectivePoint m ≤ q)
    (runs : (s.clPwr m).stopped = false) (present : clusterPresent s.dev.part m = true)
    (h : m ∈ ns ∨ (s.clPwr m).point ≤ q ∧ (s.clPwr m).want.getD 0 ≤ q) :
    ((s.repointAll ns).clPwr m).point ≤ q ∧ ((s.repointAll ns).clPwr m).want.getD 0 ≤ q := by
  induction ns generalizing s with
  | nil => exact h.resolve_left (List.not_mem_nil)
  | cons n ns ih =>
    have same := repoint_sameLimits s n
    refine ih (s := s.repoint n) (fun t ht => bound t (same.trans ht)) (by rw [same.stopped, runs])
      (by rw [same.part]; exact present) ?_
    by_cases own : m = n
    · subst own
      obtain ⟨up, down, -⟩ := repoint_moves runs present
      have le := bound s (.refl s)
      right
      by_cases rises : (s.clPwr m).point < s.effectivePoint m
      · rw [up rises]
        dsimp only [Option.getD_some]
        omega
      · rw [down (Nat.not_lt.1 rises)]
        exact ⟨le, Nat.zero_le q⟩
    · rw [(repoint_clPwr s n m).2 own]
      exact h.imp (fun mem => (List.mem_cons.1 mem).resolve_left own) id

theorem sprintCheck_likeLimits (s : State) (m : Nat) : (s.sprintCheck.clPwr m).likeLimits (s.clPwr m) := by
  unfold State.sprintCheck
  split
  · obtain ⟨-, -, -, -, -, -, limits⟩ := sprintEnd_spec s Status.sprintNotAllowed 0
    exact limits m
  · exact ClPwr.likeLimits_refl _

end Sys2Proof.Machine
end

section
/-! SUPPORT. Entry and ends of a sprint (R365 to R370), caps (R358 to R361, R377). -/

set_option Elab.async false

namespace Sys2Proof.Machine

/-- Settles O21: the ends by `sprintEnd_ends`. -/
theorem sprintEntryAndEnds : Obligations.SprintEntryAndEnds := by
  refine ⟨fun s => ?_, fun s => ?_, fun ma us s => ?_, fun minute s => ?_⟩
  · refine completes_if Iff.rfl rfl (execSprintEntry_keeps (.refl s) (Within.mem _)) (by decide) fun ready => ?_
    have cool : s.hottest < 87 := by
      simp only [State.sprintReady, Bool.and_eq_true, decide_eq_true_eq] at ready
      exact ready.1.2
    dsimp only
    split
    · next used =>
      exact ⟨fun _ => ⟨by simp, reg_setReg_self _ _ (by decide)⟩, fun left => absurd used (by omega)⟩
    · next left =>
      refine ⟨fun used => absurd used left, fun _ => ?_⟩
      obtain ⟨regs, -, sprint, -⟩ := repointAll_spec (State.addTo (s.setSprint { s.weir.sprint with
        on := true, budgetNj := 5000000000 * ((87 - s.hottest : Nat) : Int) }) .WEIR_CNT_SPRINT 0 1) _
      refine ⟨sprint.trans ?_, (reg_congr regs _ _ _).trans ?_, (reg_congr regs _ _ _).trans ?_⟩
      · rw [show (87 : Int) - s.hottest = ((87 - s.hottest : Nat) : Int) by omega]
        simp [State.setSprint]
      · exact addTo_reg _ _ _ _ (by decide)
      · exact addTo_reg_other _ _ (by decide) (.inl (by decide))
  · refine completes_if (by simp only [Bool.and_eq_true, and_assoc]) rfl
      (execSprintBudgetTick_keeps (.refl s) (Within.mem _)) (by decide) ?_
    rintro ⟨-, on, -⟩
    dsimp only
    generalize s.weir.sprint.budgetNj - 10 * ((s.weir.sampleMw : Int) - tdpMw s.dev.part) = b
    generalize base_eq : State.setSprint _ _ = base
    have sprint : base.weir.sprint = { s.weir.sprint with budgetNj := b } := by rw [← base_eq]; rfl
    have icu : base.icu = s.icu := by rw [← base_eq]; simp [State.setSprint]
    have dev : base.dev = s.dev := by rw [← base_eq]; simp [State.setSprint]
    have micros : base.reg .WEIR_CNT_SPRINT_US 0 0 = s.reg .WEIR_CNT_SPRINT_US 0 0 + 10 := by
      rw [← base_eq]
      exact addTo_reg _ _ _ _ (by decide)
    have mode : base.srcMode 3 = s.srcMode 3 := by
      rw [← base_eq]
      exact srcMode_updReg s _ _ _ (by decide) (by decide)
    have ends (st : W16) : sprintEnds st s (base.sprintEnd st 0) :=
      sprintEnds_congr (sprintEnd_ends (by rw [sprint]; exact on) st 0) sprint ⟨by rw [dev], clocked_congr dev.symm⟩ icu.symm
        mode.symm
    have counts (st : W16) : (base.sprintEnd st 0).reg .WEIR_CNT_SPRINT_US 0 0 = s.reg .WEIR_CNT_SPRINT_US 0 0 + 10 :=
      ((sprintEnd_keeps (.refl base) st 0 (Within.mem _)).reg_eq (by decide) (by decide) (by decide)).trans micros
    have residency : base.weir.sprint.residency = s.weir.sprint.residency := by rw [sprint]; rfl
    rw [residency]
    split
    · next spent =>
      exact ⟨counts _, fun left => absurd spent (by omega), fun left => absurd spent (by omega), fun _ => ends _⟩
    · next left =>
      split
      · next used =>
        exact ⟨counts _, fun _ free => absurd used (by omega), fun _ _ => ends _, fun spent => absurd spent left⟩
      · next free =>
        refine ⟨micros, fun _ _ => ⟨?_, icu⟩, fun _ used => absurd used free, fun spent => absurd spent left⟩
        rw [← base_eq]
        simp [State.setSprint]
  · refine completes_of rfl (execExcursionLimit_keeps (.refl s) ma us (Within.mem _)) (by decide) ?_
    have limit_iff : (s.clocked && ((decide (260000 < ma) && decide (2000 ≤ us)) || decide (280000 < ma))) = true ↔
        s.clocked = true ∧ (260000 < ma ∧ 2000 ≤ us ∨ 280000 < ma) := by simp
    split
    · next h =>
      obtain ⟨clocked, on, limit⟩ := h
      rw [when_eq _ (limit_iff.2 ⟨clocked, limit⟩)]
      exact ⟨sprintEnd_ends on _ _, sprintEnd_excursion on ma⟩
    · next h =>
      by_cases limit : s.clocked = true ∧ (260000 < ma ∧ 2000 ≤ us ∨ 280000 < ma)
      · have off : s.weir.sprint.on = false := by
          by_contra on
          exact h ⟨limit.1, by simpa using on, limit.2⟩
        rw [when_eq _ (limit_iff.2 limit)]
        obtain ⟨-, -, -, -, same, -⟩ := sprintEnd_spec s Status.sprintExcursion ma
        exact same off
      · exact when_neg s (fun on => limit (limit_iff.1 on)) _
  · refine completes_if (by simp [and_assoc]) rfl (execResidencyBinTick_keeps (.refl s) minute (Within.mem _))
      (by decide) fun _ => ?_
    dsimp only
    generalize moved_eq : State.setSprint s _ = moved
    have sprint : moved.weir.sprint = { s.weir.sprint with
      bins := (s.weir.sprint.binNs :: s.weir.sprint.bins).take 1439, binNs := 0, minutes := minute } := by
      rw [← moved_eq]; rfl
    rw [sprint]
    split
    · next used =>
      obtain ⟨-, -, -, -, same, -⟩ := sprintEnd_spec moved Status.sprintResidency 0
      refine ⟨fun h => same ?_, fun _ on => sprintEnd_ends ?_ _ _⟩
      · rw [sprint]; exact h.resolve_left fun free => absurd used (Nat.not_le.2 free)
      · rw [sprint]; exact on
    · next free =>
      exact ⟨fun _ => rfl, fun used => absurd used free⟩

/-! ## Caps -/

theorem charge_device (s : State) (uj : Nat) (cs : List Nat) :
    (s.charge uj cs).reg .WEIR_E_DEVICE_UJ 0 0 = s.reg .WEIR_E_DEVICE_UJ 0 0 ∧
    (s.charge uj cs).weir = s.weir := by
  have k := charge_keeps (.refl s) uj cs (Within.mem _)
  exact ⟨k.reg_eq (by decide) (by decide) (by decide), k.weir_eq (by decide)⟩

/-- A context whose commands do not run is charged nothing (R377). -/
theorem charge_others (s : State) (uj : Nat) {c : Nat} (cs : List Nat) (ok : regOk .WEIR_CTX_UJ 0 c = true) (h : c ∉ cs) :
    (s.charge uj cs).reg .WEIR_CTX_UJ 0 c = s.reg .WEIR_CTX_UJ 0 c := by
  induction cs generalizing s uj with
  | nil => exact addTo_reg_other s uj ok (.inl (by decide))
  | cons d ds ih =>
    obtain ⟨ne, rest⟩ := not_or.1 (mt List.mem_cons.2 h)
    unfold State.charge
    rw [ih _ _ rest]
    exact updReg_reg_other _ _ ok (.inr (.inr ne))

/-- What is not charged to a context is idle energy (R377, R378). -/
theorem charge_idle (s : State) (uj : Nat) (cs : List Nat) : ∃ k ≤ uj, (cs = [] → k = uj) ∧
    (s.charge uj cs).reg .WEIR_E_IDLE_UJ 0 0 = s.reg .WEIR_E_IDLE_UJ 0 0 + BitVec.ofNat 64 k := by
  induction cs generalizing s uj with
  | nil => exact ⟨uj, Nat.le_refl uj, fun _ => rfl, addTo_reg s _ _ _ (by decide)⟩
  | cons d ds ih =>
    unfold State.charge
    dsimp only
    generalize Config.freeValue s.freeIdx % (uj + 1) = part
    generalize base_eq : State.updReg _ _ _ _ _ = base
    obtain ⟨k, le, -, idle⟩ := ih base (uj - part)
    refine ⟨k, le.trans (Nat.sub_le _ _), fun none => absurd none (by simp), idle.trans ?_⟩
    rw [← base_eq]
    exact congrArg (· + _) (updReg_reg_other _ _ (by decide) (.inl (by decide)))

theorem setCeiling_clPwr (s : State) (p : Nat) (ns : List Nat) (m : Nat) :
    (s.setCeiling p ns).clPwr m = if m ∈ ns then { s.clPwr m with capPt := p } else s.clPwr m := by
  induction ns generalizing s with
  | nil => rfl
  | cons n ns ih =>
    unfold State.setCeiling
    rw [ih, clPwr_setClPwr]
    by_cases own : m = n
    · subst own
      simp
    · simp [own]

theorem setCeiling_fields (s : State) (p : Nat) (ns : List Nat) : (s.setCeiling p ns).regs = s.regs ∧
    (s.setCeiling p ns).dev = s.dev ∧ (s.setCeiling p ns).weir.live = s.weir.live ∧
    (s.setCeiling p ns).weir.duty = s.weir.duty := by
  induction ns generalizing s with
  | nil => exact ⟨rfl, rfl, rfl, rfl⟩
  | cons n ns ih => exact ih _

/-- The clusters' ceiling after a change of the cap that repoints a list of them (R360). -/
theorem setCeiling_repointAll_capPt (s : State) (p : Nat) (ns : List Nat) {n : Nat} (hn : n < 4) :
    (((s.setCeiling p (List.range 4)).repointAll ns).clPwr n).capPt = p := by
  obtain ⟨-, -, -, -, limits⟩ := repointAll_spec (s.setCeiling p (List.range 4)) ns
  obtain ⟨-, -, -, -, -, cap⟩ := limits n
  rw [cap, setCeiling_clPwr, if_pos (List.mem_range.2 hn)]

/-- The log raises source 6 and no other (R428). -/
theorem elog_source {s : State} (c : s.clocked = true) (st : W16) (u i x f : Nat) (d : W64) {j : Nat} (h : j ≠ 6) :
    (s.elog st u i x f d).icu.pend.getLsbD j = s.icu.pend.getLsbD j ∧
    (s.elog st u i x f d).icu.cond.getLsbD j = s.icu.cond.getLsbD j := by
  have raised (t : State) (ct : t.clocked = true) : (t.raise 6).icu.pend.getLsbD j = t.icu.pend.getLsbD j ∧
      (t.raise 6).icu.cond.getLsbD j = t.icu.cond.getLsbD j := by
    unfold State.raise
    have ct1 : (t.edge 6 true).clocked = true := by rw [edge_clocked, ct]
    rw [edge_pend ct1 (by decide), edge_pend ct (by decide), edge_cond ct1 (by decide), edge_cond ct (by decide),
      edge_cond ct (by decide)]
    simp [h]
  unfold State.elog
  dsimp only
  split
  · split
    · exact ⟨rfl, rfl⟩
    · exact raised _ c
  · exact raised _ c

/-- A window that misses the cap, told (R361): the state before the power source. -/
theorem capMiss_spec {s u : State} (counts : Bool) (mw : Nat)
    (h : u = (if counts = true then s.powerStatus Status.capMissed
      else (s.powerStatus Status.capMissed).count .WEIR_CNT_CAPMISS 0).elog Status.capMissed unitWeir 0 noCtx noFn
        (BitVec.ofNat 64 mw)) : u.weir = s.weir ∧ u.dev = s.dev ∧ u.reg .WEIR_STATUS 0 0 = 0x7001 ∧
    u.reg .WEIR_CNT_CAPMISS 0 0 =
      (if counts = true then s.reg .WEIR_CNT_CAPMISS 0 0 else counted (s.reg .WEIR_CNT_CAPMISS 0 0)) ∧
    logged 0x7001#16 9 0 0xFFFF 0xFF (BitVec.ofNat 64 mw) s u ∧
    (s.clocked = true → u.icu.pend.getLsbD 3 = s.icu.pend.getLsbD 3 ∧ u.icu.cond.getLsbD 3 = s.icu.cond.getLsbD 3) ∧
    u.srcMode 3 = s.srcMode 3 := by
  subst h
  generalize base_eq : (if counts = true then s.powerStatus Status.capMissed
    else (s.powerStatus Status.capMissed).count .WEIR_CNT_CAPMISS 0) = base
  have fields : base.weir = s.weir ∧ base.dev = s.dev ∧ base.icu = s.icu ∧ base.thy = s.thy := by
    rw [← base_eq]
    split <;> simp
  obtain ⟨weir, dev, icu, thy⟩ := fields
  have others {r : Reg} {a i : Nat} (ok : regOk r a i = true) (ne : r ≠ .WEIR_STATUS ∧ r ≠ .WEIR_CNT_CAPMISS) :
      base.reg r a i = s.reg r a i := by
    rw [← base_eq]
    split
    · exact reg_setReg_other _ _ ok (.inl ne.1)
    · rw [count_reg_other _ ok (.inl ne.2)]
      exact reg_setReg_other _ _ ok (.inl ne.1)
  have status : base.reg .WEIR_STATUS 0 0 = 0x7001 := by
    rw [← base_eq]
    split
    · exact reg_setReg_self _ _ (by decide)
    · rw [count_reg_other _ (by decide) (.inl (by decide))]
      exact reg_setReg_self _ _ (by decide)
  have counter : base.reg .WEIR_CNT_CAPMISS 0 0 =
      (if counts = true then s.reg .WEIR_CNT_CAPMISS 0 0 else counted (s.reg .WEIR_CNT_CAPMISS 0 0)) := by
    rw [← base_eq]
    split
    · exact reg_setReg_other _ _ (by decide) (.inl (by decide))
    · rw [count_reg _ _ _ (by decide)]
      unfold State.powerStatus counted
      rw [reg_setReg_other _ _ (by decide) (.inl (by decide))]
  refine ⟨by rw [← weir]; simp, by rw [← dev]; simp, ?_, ?_, ?_, fun c => ?_, srcMode_congr ?_⟩
  · rw [elog_reg _ _ _ _ _ _ _ _ _ _ (by decide) (by decide), status]
  · rw [elog_reg _ _ _ _ _ _ _ _ _ _ (by decide) (by decide), counter]
  · exact logged_congr (elog_logged base _ _ _ _ _ _) (by rw [icu]) (by rw [icu]) (by rw [thy])
      (others (by decide) (by decide)).symm rfl rfl
  · rw [← icu]
    exact elog_source ((clocked_congr dev).trans c) _ _ _ _ _ _ (by decide)
  · rw [elog_reg _ _ _ _ _ _ _ _ _ _ (by decide) (regOk_src (by decide))]
    exact others (regOk_src (by decide)) (by decide)

/-- Settles O18: the contexts' energy by `charge_idle`, the clusters under a lower ceiling by `repointAll_le`. -/
theorem powerCapping : Obligations.PowerCapping := by
  refine ⟨fun mw uj s => ?_, fun s => ?_, fun mw s => ?_⟩
  · refine completes_if Iff.rfl rfl (execPowerSample_keeps (.refl s) mw uj (Within.mem _)) (by decide) fun _ => ?_
    dsimp only
    generalize base_eq : State.addTo _ _ _ _ = base
    have others {r : Reg} {i : Nat} (ok : regOk r 0 i = true) (ne : r ≠ .WEIR_E_DEVICE_UJ) : base.reg r 0 i = s.reg r 0 i := by
      rw [← base_eq]
      exact addTo_reg_other _ _ ok (.inl ne)
    have device : base.reg .WEIR_E_DEVICE_UJ 0 0 = s.reg .WEIR_E_DEVICE_UJ 0 0 + BitVec.ofNat 64 uj := by
      rw [← base_eq]
      exact addTo_reg _ _ _ _ (by decide)
    have sample : base.weir.sampleMw = mw := by rw [← base_eq]; simp
    obtain ⟨charged, weir⟩ := charge_device base uj s.holders
    obtain ⟨k, le, all, idle⟩ := charge_idle base uj s.holders
    rw [others (by decide) (by decide)] at idle
    refine ⟨by rw [weir, sample], charged.trans device, fun c ok out => ?_, ⟨k, le, idle⟩, fun none => by rw [idle, all none]⟩
    exact (charge_others base uj s.holders ok out).trans (others ok (by decide))
  · refine completes_if Iff.rfl rfl (execCapAdjust_keeps (.refl s) (Within.mem _)) (by decide) fun _ => ?_
    dsimp only
    have test : (s.fixedClock || decide (s.effCap = 0)) = true ↔ s.fixedClock = true ∨ s.effCap = 0 := by simp
    split
    · next free =>
      obtain ⟨-, -, -, duty, limits⟩ := repointAll_spec ((s.setCeiling 7 (List.range 4)).setDuty 8) s.liveClusters
      refine ⟨fun _ => ⟨duty, fun n hn => ?_⟩, fun mode cap => ?_⟩
      · obtain ⟨-, -, -, -, -, cap⟩ := limits n
        have ceiling := setCeiling_clPwr s 7 (List.range 4) n
        rw [if_pos (List.mem_range.2 hn)] at ceiling
        exact cap.trans (congrArg ClPwr.capPt ceiling)
      · exact absurd (test.1 free) (by simp [mode, cap])
    · next held =>
      refine ⟨fun free => absurd (test.2 free) held, fun mode _ => ⟨fun above top => ?_, fun above top => ?_,
        fun below duty => ?_, fun below duty => ?_, fun same => ?_⟩⟩
      · rw [if_pos above, if_pos top]
        rfl
      · rw [if_pos above, if_neg top]
        generalize low_eq : s.setCeiling (s.topPoint - 1) (List.range 4) = low
        obtain ⟨regs, dev, live, duty⟩ := setCeiling_fields s (s.topPoint - 1) (List.range 4)
        rw [low_eq] at regs dev live duty
        obtain ⟨-, -, -, duty', -⟩ := repointAll_spec low low.liveClusters
        have cls (n : Nat) (hn : n < 4) : low.clPwr n = { s.clPwr n with capPt := s.topPoint - 1 } := by
          rw [← low_eq, setCeiling_clPwr, if_pos (List.mem_range.2 hn)]
        have checked : ((low.repointAll low.liveClusters).sprintCheck).weir.duty = (low.repointAll low.liveClusters).weir.duty :=
          (sprintCheck_keeps (.refl _) (Within.mem _)).weir.duty.resolve_left (by decide)
        refine ⟨checked.trans (duty'.trans duty), fun n hn => ⟨?_, fun alive runs => ?_⟩⟩
        · obtain ⟨-, -, -, -, -, cap⟩ := sprintCheck_likeLimits (low.repointAll low.liveClusters) n
          rw [cap, ← low_eq]
          exact setCeiling_repointAll_capPt s _ _ hn
        · have present := clusterLive_present alive
          obtain ⟨point, want⟩ := sprintCheck_lowers (low.repointAll low.liveClusters) n
          have le := repointAll_le (s := low) (q := s.topPoint - 1) (m := n) low.liveClusters (fun t ht => ?_)
            (by rw [cls n hn]; exact runs) (by rw [dev]; exact present) (.inl ?_)
          · exact ⟨point.trans le.1, want.trans le.2⟩
          · have cap := ht.capPt n
            rw [cls n hn] at cap
            exact (effectivePoint_le_cap (by rw [ht.fixedClock]; unfold State.fixedClock State.regBit; rw [reg_congr regs]; exact mode) n).trans
              (Nat.le_of_eq cap)
          · exact List.mem_filter.2 ⟨mem_clusters.2 (by rw [dev]; exact present),
              (clusterLive_congr (by rw [dev]) live n).trans alive⟩
      · rw [if_neg (by omega), if_pos below, if_pos duty]
        rfl
      · rw [if_neg (by omega), if_pos below, if_neg (by omega)]
        obtain ⟨-, -, -, duty', -⟩ := repointAll_spec (s.setCeiling (min 7 (s.ceiling + 1)) (List.range 4))
          (s.setCeiling (min 7 (s.ceiling + 1)) (List.range 4)).liveClusters
        obtain ⟨-, -, -, kept⟩ := setCeiling_fields s (min 7 (s.ceiling + 1)) (List.range 4)
        exact ⟨duty'.trans kept, fun n hn => setCeiling_repointAll_capPt s _ _ hn⟩
      · rw [if_neg (by omega), if_neg (by omega)]
  · refine completes_if Iff.rfl rfl (execCapWindowEnd_keeps (.refl s) mw (Within.mem _)) (by decide) fun clocked => ?_
    dsimp only
    split
    · next missed =>
      generalize told_eq : State.elog _ _ _ _ _ _ _ = told
      obtain ⟨weir, dev, status, counter, entry, source, mode⟩ := capMiss_spec s.weir.switched mw told_eq.symm
      generalize end_eq : @ite State (_ = true) (instDecidableEqBool _ true) (State.raise _ 3) told = ended
      by_cases due : ∀ n, s.weir.lastMissNs = some n → n + 100000000 ≤ s.dev.aoNs
      · have told_source : ended = State.raise { told with weir := { told.weir with lastMissNs := some s.dev.aoNs } } 3 := by
          rw [← end_eq]
          cases last : s.weir.lastMissNs with
          | none => rfl
          | some n => exact if_pos (decide_eq_true (due n last))
        rw [told_source]
        generalize late_eq : ({ told with weir := { told.weir with lastMissNs := some s.dev.aoNs } } : State) = late
        have same : late.regs = told.regs ∧ late.icu = told.icu ∧ late.dev = told.dev := by
          rw [← late_eq]
          exact ⟨rfl, rfl, rfl⟩
        obtain ⟨regs, icu, dev'⟩ := same
        have missNs : (late.raise 3).weir.lastMissNs = some s.dev.aoNs ∧ (late.raise 3).weir.powerMw = told.weir.powerMw ∧
            (late.raise 3).weir.switched = told.weir.switched := by
          simp only [raise_fields]
          rw [← late_eq]
          exact ⟨rfl, rfl, rfl⟩
        obtain ⟨last, power, switched⟩ := missNs
        refine ⟨by rw [power, weir], by rw [switched, weir], fun _ => ⟨?_, ?_, ?_, fun _ => ⟨?_, last⟩, fun early => ?_⟩,
          fun met => absurd missed (by simp [met])⟩
        · rw [raise_reg _ _ _ _ _ (by decide) (by decide), reg_congr regs, status]
        · rw [raise_reg _ _ _ _ _ (by decide) (by decide), reg_congr regs, counter]
          rfl
        · exact logged_congr entry rfl rfl rfl rfl (by rw [(raise_log _ _).1, icu]) (by rw [(raise_log _ _).2, icu])
        · exact raised_congr (raise_raised (by decide) late) (clocked_congr (dev'.trans dev)).symm
            ((srcMode_congr (reg_congr regs _ _ _)).trans mode).symm (by rw [icu]; exact (source clocked).2.symm) id
        · exact absurd due early
      · have told_only : ended = told := by
          rw [← end_eq]
          cases last : s.weir.lastMissNs with
          | none => exact absurd (fun n miss => absurd (last.symm.trans miss) (by simp)) due
          | some n =>
            refine if_neg fun passed => due fun k miss => ?_
            rw [← Option.some.inj (last.symm.trans miss)]
            exact of_decide_eq_true passed
        rw [told_only]
        exact ⟨by rw [weir], by rw [weir], fun _ => ⟨status, counter, entry, fun early => absurd early due,
          fun _ => ⟨by rw [weir], source clocked⟩⟩, fun met => absurd missed (by simp [met])⟩
    · next met =>
      refine ⟨rfl, rfl, fun missed => absurd missed met, fun _ => ⟨rfl, rfl, rfl⟩⟩

end Sys2Proof.Machine
end

section
/-! SUPPORT. The brake, its release, and the restart of clusters (R362, R363, R458). -/

set_option Elab.async false

namespace Sys2Proof.Machine

/-! ## Conditions of sources (R406) -/

theorem edge_cond_other (s : State) (i : Nat) (v : Bool) {j : Nat} (h : j ≠ i) :
    (s.edge i v).icu.cond.getLsbD j = s.icu.cond.getLsbD j := by
  rw [edge_icu]
  unfold State.edgeCore
  split
  · rfl
  · split <;> (dsimp only; rw [putBit_get, if_neg (fun e => h e.1)])

theorem edge_cond_own (s : State) {i : Nat} (hi : i < 512) (v : Bool) (ao : aoCapable i = true) :
    (s.edge i v).icu.cond.getLsbD i = v := by
  rw [edge_icu]
  unfold State.edgeCore
  split
  · next h => exact h.resolve_right (by simp [ao])
  · split <;> (dsimp only; rw [putBit_get, if_pos ⟨rfl, hi⟩])

theorem edge_edged (s : State) {i : Nat} (hi : i < 512) (v : Bool) (ao : aoCapable i = true) : edged i v s (s.edge i v) := by
  refine ⟨edge_cond_own s hi v ao, fun clocked moves chosen => ?_⟩
  rw [edge_pend clocked hi, if_pos ⟨rfl, moves, chosen⟩]

theorem raise_cond_other (s : State) (i : Nat) {j : Nat} (h : j ≠ i) :
    (s.raise i).icu.cond.getLsbD j = s.icu.cond.getLsbD j := by
  unfold State.raise
  rw [edge_cond_other _ _ _ h, edge_cond_other _ _ _ h]

theorem elog_cond_other (s : State) (st : W16) (u i c f : Nat) (d : W64) {j : Nat} (h : j ≠ 6) :
    (s.elog st u i c f d).icu.cond.getLsbD j = s.icu.cond.getLsbD j := by
  unfold State.elog
  dsimp only
  split
  · split
    · rfl
    · exact raise_cond_other _ _ h
  · exact raise_cond_other _ _ h

/-- What `edged` depends on. -/
theorem edged_congr {i : Nat} {v : Bool} {s s' t t' : State} (h : edged i v s t) (icu : s'.icu = s.icu)
    (clocked : s'.clocked = s.clocked) (mode : s'.srcMode i = s.srcMode i)
    (cond : t'.icu.cond.getLsbD i = t.icu.cond.getLsbD i)
    (pend : t.icu.pend.getLsbD i = true → t'.icu.pend.getLsbD i = true) : edged i v s' t' := by
  unfold edged at *
  rw [icu, clocked, mode, cond]
  exact ⟨h.1, fun a b c => pend (h.2 a b c)⟩

/-- An edge of a pin's source, which an inert device does not form (R406, R469). -/
theorem pinEdge_spec (s : State) (acts : Bool) (i : Nat) (v : Bool) {t : State}
    (h : t = if acts = true then s.edge i v else s) :
    t.weir = s.weir ∧ t.dev = s.dev ∧ (t.icu.log = s.icu.log ∧ t.icu.logHead = s.icu.logHead ∧ t.thy.now = s.thy.now) ∧
    (∀ r u k, .reg r ∉ Comp.source → regOk r u k = true → t.reg r u k = s.reg r u k) ∧
    ∀ j, j ≠ i → t.icu.cond.getLsbD j = s.icu.cond.getLsbD j := by
  subst h
  split
  · have k := (edge_keeps (.refl s) i v (Within.mem _)).icu
    exact ⟨by simp, edge_dev _ _ _, ⟨k.log.resolve_left (by decide), k.logHead.resolve_left (by decide), edge_now _ _ _⟩,
      fun r u k out ok => edge_reg _ _ _ _ _ _ out ok, fun j ne => edge_cond_other _ _ _ ne⟩
  · exact ⟨rfl, rfl, ⟨rfl, rfl, rfl⟩, fun _ _ _ _ _ => rfl, fun _ _ => rfl⟩

/-- What the end of a sprint, but an electrical one, does to the ICU: it raises the power source. -/
theorem sprintEnd_icu (s : State) {st : W16} (h : st ≠ Status.sprintExcursion) (d : Nat) :
    (s.sprintEnd st d).icu.log = s.icu.log ∧ (s.sprintEnd st d).icu.logHead = s.icu.logHead ∧
    (s.sprintEnd st d).thy.now = s.thy.now ∧
    (∀ j, j ≠ 3 → (s.sprintEnd st d).icu.cond.getLsbD j = s.icu.cond.getLsbD j) ∧
    ∀ j, s.icu.pend.getLsbD j = true → (s.sprintEnd st d).icu.pend.getLsbD j = true := by
  unfold State.sprintEnd
  cases s.weir.sprint.on with
  | false => exact ⟨rfl, rfl, rfl, fun _ _ => rfl, fun _ => id⟩
  | true =>
    rw [when_true]
    dsimp only
    rw [if_neg h]
    generalize base_eq : State.powerStatus _ _ = base
    have same : base.icu = s.icu ∧ base.thy = s.thy := by
      rw [← base_eq]
      simp [settleRail_spec, leaveSprint_spec, State.setSprint]
    obtain ⟨icu, thy⟩ := same
    rw [← icu, ← thy]
    exact ⟨(raise_log _ _).1, (raise_log _ _).2, raise_now _ _, fun j ne => raise_cond_other _ _ ne, fun j => raise_mono 3⟩

/-! ## The brake (R362, R458) -/

theorem stopClusters_clPwr (s : State) (ns : List Nat) (m : Nat) :
    (s.stopClusters ns).clPwr m = if m ∈ ns then { s.clPwr m with stopped := true } else s.clPwr m := by
  induction ns generalizing s with
  | nil => rfl
  | cons n ns ih =>
    unfold State.stopClusters
    rw [ih, clPwr_setClPwr]
    by_cases own : m = n
    · subst own
      simp
    · simp [own]

theorem stopClusters_weir (s : State) (ns : List Nat) :
    (s.stopClusters ns).weir = { s.weir with cls := (s.stopClusters ns).weir.cls } ∧ (s.stopClusters ns).icu = s.icu ∧
    (s.stopClusters ns).thy = s.thy ∧ (s.stopClusters ns).regs = s.regs ∧ (s.stopClusters ns).dev = s.dev := by
  induction ns generalizing s with
  | nil => exact ⟨rfl, rfl, rfl, rfl, rfl⟩
  | cons n ns ih => exact ih _

theorem brakeOn_eq {s : State} (h : s.dev.life ≠ .ready ∨ s.weir.brake = true ∨ s.brakePins = false) : s.brakeOn = s := by
  unfold State.brakeOn
  refine when_neg s (fun on => ?_) _
  simp only [State.pinsAct, Bool.and_eq_true, beq_iff_eq, Bool.not_eq_true'] at on
  rcases h with h | h | h
  · exact h on.1.1
  · exact absurd on.1.2 (by simp [h])
  · exact absurd on.2 (by simp [h])

/-- The brake comes into force (R362). -/
theorem brakeOn_spec {s : State} (life : s.dev.life = .ready) (off : s.weir.brake = false) (pins : s.brakePins = true) :
    s.brakeOn.weir.brake = true ∧ s.brakeOn.weir.restart = [] ∧ s.brakeOn.weir.sprint.on = false ∧
    (∀ n < 4, clusterPresent s.dev.part n = true → (s.brakeOn.clPwr n).stopped = true) ∧
    (s.weir.sprint.on = true → raised 3 s s.brakeOn ∧ ∀ n < 4, (s.brakeOn.clPwr n).point ≤ 5) ∧
    s.brakeOn.reg .WEIR_STATUS 0 0 = 0x7011 ∧
    s.brakeOn.reg .WEIR_CNT_BRAKE 0 0 = counted (s.reg .WEIR_CNT_BRAKE 0 0) ∧
    logged 0x7011#16 9 0 0xFFFF 0xFF (BitVec.ofNat 64 s.weir.sampleMw) s s.brakeOn := by
  have on : (s.pinsAct && !s.weir.brake && s.brakePins) = true := by simp [State.pinsAct, life, off, pins]
  unfold State.brakeOn
  rw [when_eq s on]
  dsimp only
  obtain ⟨ended, -, -, -, -, source, -⟩ := sprintEnd_spec s Status.sprintStopped 0
  obtain ⟨log, head, now, -, -⟩ := sprintEnd_icu s (st := Status.sprintStopped) (by decide) 0
  have k := sprintEnd_keeps (.refl s) Status.sprintStopped 0 (Within.mem _)
  generalize s.sprintEnd Status.sprintStopped 0 = calm at *
  generalize held_eq : ({ calm with weir := { calm.weir with brake := true, restart := [] } } : State) = held
  have held_weir : held.weir = { calm.weir with brake := true, restart := [] } := by rw [← held_eq]
  have held_same : held.icu = calm.icu ∧ held.thy = calm.thy ∧ held.regs = calm.regs ∧ held.dev = calm.dev := by
    rw [← held_eq]
    exact ⟨rfl, rfl, rfl, rfl⟩
  obtain ⟨held_icu, held_thy, held_regs, held_dev⟩ := held_same
  have held_cls (n : Nat) : held.clPwr n = calm.clPwr n := clPwr_congr (by rw [held_weir]) n
  obtain ⟨weir, icu, thy, regs, dev⟩ := stopClusters_weir held held.clusters
  have cls := stopClusters_clPwr held held.clusters
  generalize held.stopClusters held.clusters = stopped at *
  rw [held_weir] at weir
  rw [held_icu] at icu
  rw [held_thy] at thy
  rw [held_regs] at regs
  simp only [held_cls] at cls
  generalize told_eq : State.elog _ _ _ _ _ _ _ = told
  have toldWeir : told.weir = stopped.weir := by rw [← told_eq]; simp
  have own (n : Nat) : told.clPwr n = stopped.clPwr n := clPwr_congr (congrArg Weir.cls toldWeir) n
  have mono {j : Nat} (h : calm.icu.pend.getLsbD j = true) : told.icu.pend.getLsbD j = true := by
    rw [← told_eq]
    refine elog_mono _ _ _ _ _ _ ?_
    simpa [icu] using h
  refine ⟨by rw [toldWeir, weir], by rw [toldWeir, weir], by rw [toldWeir, weir]; exact ended, fun n _ present => ?_,
    fun was => ⟨raised_congr (source was).2.1 rfl rfl rfl mono, fun n hn => ?_⟩, ?_, ?_, ?_⟩
  · rw [own, cls, if_pos (mem_clusters.2 (by rw [held_dev, k.part]; exact present))]
  · rw [own, cls]
    have le : (calm.clPwr n).point ≤ 5 := (source was).2.2 n hn
    split <;> exact le
  · rw [← told_eq, elog_reg _ _ _ _ _ _ _ _ _ _ (by decide) (by decide)]
    exact reg_setReg_self _ _ (by decide)
  · rw [← told_eq, elog_reg _ _ _ _ _ _ _ _ _ _ (by decide) (by decide)]
    unfold State.powerStatus
    rw [reg_setReg_other _ _ (by decide) (.inl (by decide)), count_reg _ _ _ (by decide), reg_congr regs]
    unfold counted
    rw [k.reg_eq (r := .WEIR_CNT_BRAKE) (by decide) (by decide) (by decide)]
  · rw [← told_eq]
    refine logged_congr (elog_logged _ _ _ _ _ _ _) ?_ ?_ ?_ ?_ rfl rfl
    · simp [icu, log]
    · simp [icu, head]
    · simp [thy, now]
    · unfold State.powerStatus
      rw [reg_setReg_other _ _ (by decide) (.inl (by decide)), count_reg_other _ (by decide) (.inl (by decide)), reg_congr regs]
      exact (k.reg_eq (by decide) (by decide) (by decide)).symm

/-! ## The release, and restarts (R363, R375) -/

theorem clockStopped_congr {s t : State} (h : t.weir.cls = s.weir.cls) (n : Nat) : t.clockStopped n = s.clockStopped n := by
  unfold State.clockStopped
  rw [clPwr_congr h]

theorem core_congr {s t : State} (h : t.slu.cores = s.slu.cores) (k : Nat) : t.core k = s.core k := by
  unfold State.core
  rw [h]

/-- The cores listed whose kill waited take it when their clock runs again (R23, R126). -/
theorem takeKills_core (s : State) {n : Nat} (runs : s.clockStopped n = false) (ks : List Nat) (k : Nat) :
    (s.takeKills n ks).core k = if k ∈ ks ∧ (s.core k).killed = true then (s.core k).kill else s.core k := by
  induction ks generalizing s with
  | nil => simp [State.takeKills]
  | cons j js ih =>
    unfold State.takeKills
    by_cases waits : (s.core j).killed = true
    · rw [if_pos (by simp [waits, runs]), ih (s.setCore j (s.core j).kill) ((clockStopped_congr rfl n).trans runs), core_setCore]
      by_cases own : k = j
      · subst own
        simp [waits, Core.kill]
      · simp [own]
    · rw [if_neg (by simp [waits]), ih _ runs]
      by_cases own : k = j
      · subst own
        simp [waits]
      · simp [own]

theorem mem_coresOf {n k : Nat} : k ∈ coresOf n ↔ k / 8 = n := by
  simp only [coresOf, List.mem_map, List.mem_range]
  constructor
  · rintro ⟨j, hj, rfl⟩
    omega
  · rintro rfl
    exact ⟨k % 8, by omega, by omega⟩

theorem brakeOff_weir (s : State) : s.brakeOff.dev = s.dev ∧ s.brakeOff.icu = s.icu ∧
    s.brakeOff.weir = if s.weir.brake = true ∧ s.brakePins = false then
      { s.weir with brake := false, restart := if s.weir.coolant = .none then s.clusters else [] } else s.weir := by
  unfold State.brakeOff
  by_cases on : s.weir.brake = true ∧ s.brakePins = false
  · rw [when_eq s (by simp [on]), if_pos on]
    refine ⟨rfl, rfl, ?_⟩
    by_cases coolant : s.weir.coolant = .none
    · simp [State.coolantHeld, coolant]
    · simp [State.coolantHeld, coolant]
  · rw [when_neg s (by simpa using on), if_neg on]
    exact ⟨rfl, rfl, rfl⟩

/-- What effective points depend on (R354): of the clusters, their points and limits. -/
theorem effectivePoint_congr {s t : State} (regs : t.regs = s.regs) (part : t.dev.part = s.dev.part)
    (cls : ∀ m, (t.clPwr m).point = (s.clPwr m).point ∧ (t.clPwr m).likeLimits (s.clPwr m))
    (sprint : t.weir.sprint = s.weir.sprint) (groups : t.slu.groups = s.slu.groups) (n : Nat) :
    t.effectivePoint n = s.effectivePoint n := by
  have point (m : Nat) : (t.clPwr m).point = (s.clPwr m).point := (cls m).1
  have therm (m : Nat) : (t.clPwr m).thermPt = (s.clPwr m).thermPt := (cls m).2.1
  have engaged (m : Nat) : (t.clPwr m).engaged = (s.clPwr m).engaged := by
    obtain ⟨-, -, -, -, -, engaged, -⟩ := cls m
    exact engaged
  have cap (m : Nat) : (t.clPwr m).capPt = (s.clPwr m).capPt := by
    obtain ⟨-, -, -, -, -, -, cap⟩ := cls m
    exact cap
  have allowed : t.allowedPoint = s.allowedPoint := by
    funext m
    unfold State.allowedPoint State.uncappedPoint State.fixedClock State.phasePoint State.phaseEntry State.maySprint
      State.thermalEngaged State.regBit State.regNat ClPwr.thermPoint
    simp only [reg_congr regs, point, therm, engaged, cap, clusters_congr part, sprint]
  unfold State.effectivePoint State.groupOf
  rw [allowed, groups]

/-- A cluster restarts at its effective point (R363): from a state `base` with the clusters and cores of `s`. -/
theorem restart_spec {s base t : State} {n : Nat} {new : ClPwr} (cls : base.weir.cls = s.weir.cls)
    (cores : base.slu.cores = s.slu.cores)
    (new_eq : new = { s.clPwr n with stopped := false, point := s.effectivePoint n, want := none })
    (h : State.settleRail ((base.setClPwr n new).takeKills n (coresOf n)) = t) :
    t.weir.restart = base.weir.restart ∧ (∀ m, m ≠ n → t.clPwr m = s.clPwr m) ∧ t.clPwr n = new ∧
    railSupports n (s.effectivePoint n) t ∧
    ∀ k, t.core k = if k / 8 = n ∧ (s.core k).killed = true then (s.core k).kill else s.core k := by
  subst h
  have runs : (base.setClPwr n new).clockStopped n = false := by
    unfold State.clockStopped
    rw [clPwr_setClPwr_self, new_eq]
  have moved (m : Nat) : (base.setClPwr n new).clPwr m = if m = n then new else s.clPwr m := by
    rw [clPwr_setClPwr, clPwr_congr cls]
  have killed := takeKills_keeps (.refl (base.setClPwr n new)) n (coresOf n) (Within.mem _)
  have taken := takeKills_core _ runs (coresOf n)
  have weir : ((base.setClPwr n new).takeKills n (coresOf n)).weir = (base.setClPwr n new).weir := killed.weir_eq (by decide)
  generalize State.takeKills _ n (coresOf n) = s3 at *
  have settled := settleRail_keeps (.refl s3) (Within.mem _)
  have points (m : Nat) : s3.settleRail.clPwr m = if m = n then new else s.clPwr m := by
    rw [clPwr_congr (settleRail_spec s3).1, clPwr_congr (congrArg Weir.cls weir), moved]
  refine ⟨?_, fun m ne => by rw [points, if_neg ne], by rw [points, if_pos rfl], settleRail_railSupports ?_, fun k => ?_⟩
  · rw [settled.weir.restart.resolve_left (by decide), weir]
    rfl
  · rw [clPwr_congr (congrArg Weir.cls weir), moved, if_pos rfl, new_eq]
    exact Nat.max_eq_left (Nat.zero_le _)
  · rw [core_congr (congrArg Sluice.cores (settled.slu_eq (by decide))), taken,
      core_congr (s := s) (t := base.setClPwr n new) cores]
    simp only [mem_coresOf]

/-- The rail's code is all that the brake changes of the pins. -/
theorem settleRail_pins (s : State) (v : Byte) :
    { s.settleRail.dev.pins with vid := v } = { s.dev.pins with vid := v } := by
  unfold State.settleRail
  split <;> rfl

theorem sprintEnd_pins (s : State) (st : W16) (d : Nat) (v : Byte) :
    { (s.sprintEnd st d).dev.pins with vid := v } = { s.dev.pins with vid := v } := by
  unfold State.sprintEnd
  cases s.weir.sprint.on with
  | false => rfl
  | true =>
    rw [when_true]
    dsimp only
    generalize left_eq : State.leaveSprint _ _ = left
    have dev : left.dev = s.dev := by
      rw [← left_eq]
      obtain ⟨-, -, dev, -⟩ := leaveSprint_spec (s.setSprint { s.weir.sprint with
        on := false, budgetNj := 0, endedNs := some s.dev.aoNs }) (List.range 4)
      exact dev
    rw [← dev, ← settleRail_pins left]
    split <;> simp

theorem brakeOn_pins (s : State) (v : Byte) : { s.brakeOn.dev.pins with vid := v } = { s.dev.pins with vid := v } := by
  unfold State.brakeOn
  cases s.pinsAct && !s.weir.brake && s.brakePins with
  | false => rfl
  | true =>
    rw [when_true]
    dsimp only
    rw [← sprintEnd_pins s Status.sprintStopped 0]
    simp [stopClusters_weir]

/-- The combined brake after a change of pins that comes with or without an edge of source 5 (R362): seen from `s`. -/
theorem braked_spec {s base : State} (weir : base.weir = s.weir) (life : base.dev.life = s.dev.life)
    (part : base.dev.part = s.dev.part) (pins : base.brakePins = true)
    (log : base.icu.log = s.icu.log ∧ base.icu.logHead = s.icu.logHead ∧ base.thy.now = s.thy.now)
    (regs : ∀ r u i, .reg r ∉ Comp.source → regOk r u i = true → base.reg r u i = s.reg r u i)
    (cond : base.icu.cond.getLsbD 3 = s.icu.cond.getLsbD 3) :
    let t := base.brakeOn
    (s.dev.life = .ready → s.weir.brake = false →
      t.weir.brake = true ∧ t.weir.restart = [] ∧ t.weir.sprint.on = false ∧
      (∀ n < 4, clusterPresent s.dev.part n = true → (t.clPwr n).stopped = true) ∧
      (s.weir.sprint.on = true → raised 3 s t ∧ ∀ n < 4, (t.clPwr n).point ≤ 5) ∧
      t.reg .WEIR_STATUS 0 0 = 0x7011 ∧ t.reg .WEIR_CNT_BRAKE 0 0 = counted (s.reg .WEIR_CNT_BRAKE 0 0) ∧
      logged 0x7011#16 9 0 0xFFFF 0xFF (BitVec.ofNat 64 s.weir.sampleMw) s t) ∧
    (s.dev.life ≠ .ready ∨ s.weir.brake = true →
      t.weir = s.weir ∧ t.reg .WEIR_STATUS 0 0 = s.reg .WEIR_STATUS 0 0 ∧ t.icu.log = s.icu.log) := by
  obtain ⟨log, head, now⟩ := log
  refine ⟨fun ready off => ?_, fun inert => ?_⟩
  · obtain ⟨h1, h2, h3, h4, h5, h6, h7, h8⟩ := brakeOn_spec (life.trans ready) (by rw [weir]; exact off) pins
    rw [part] at h4
    rw [weir] at h5 h8
    rw [regs _ _ _ (by decide) (by decide)] at h7
    have clocked : s.clocked = base.clocked := by
      unfold State.clocked
      rw [life]
    refine ⟨h1, h2, h3, h4, fun on => ⟨raised_congr (h5 on).1 clocked ?_ cond.symm id, (h5 on).2⟩, h6, h7, ?_⟩
    · exact (srcMode_congr (regs _ _ _ (by decide) (regOk_src (by decide)))).symm
    · exact logged_congr h8 log.symm head.symm now.symm (regs _ _ _ (by decide) (by decide)).symm rfl rfl
  · have same : base.brakeOn = base := brakeOn_eq (inert.imp (by rw [life]; exact id) fun on => .inl (by rw [weir]; exact on))
    rw [same]
    exact ⟨weir, regs _ _ _ (by decide) (by decide), log⟩

/-- What the brake does to the conditions and pending bits of other sources. -/
theorem brakeOn_icu (s : State) : (∀ j, j ≠ 3 → j ≠ 6 → s.brakeOn.icu.cond.getLsbD j = s.icu.cond.getLsbD j) ∧
    ∀ j, s.icu.pend.getLsbD j = true → s.brakeOn.icu.pend.getLsbD j = true := by
  unfold State.brakeOn
  cases s.pinsAct && !s.weir.brake && s.brakePins with
  | false => exact ⟨fun _ _ _ => rfl, fun _ => id⟩
  | true =>
    rw [when_true]
    dsimp only
    obtain ⟨-, -, -, cond, pend⟩ := sprintEnd_icu s (st := Status.sprintStopped) (by decide) 0
    generalize told_eq : State.powerStatus _ _ = told
    have icu : told.icu = (s.sprintEnd Status.sprintStopped 0).icu := by
      rw [← told_eq]
      simp [stopClusters_weir]
    refine ⟨fun j power log => ?_, fun j set => elog_mono _ _ _ _ _ _ ?_⟩
    · rw [elog_cond_other _ _ _ _ _ _ _ log, icu, cond j power]
    · rw [icu]
      exact pend j set

/-- Settles O19: the brake by `brakeOn_spec`, restarts by `restart_spec`. -/
theorem brakeStopAndRestart : Obligations.BrakeStopAndRestart := by
  refine ⟨fun s => ⟨?_, ?_⟩, fun s => ⟨?_, ?_, fun n => ?_⟩⟩
  · refine completes_if (by simp) rfl (execBrakeAssert_keeps (.refl s) (Within.mem _)) (by decide) fun _ => ?_
    dsimp only
    generalize base_eq : @ite State (_ = true) (instDecidableEqBool _ true) (State.edge _ 5 true) _ = base
    obtain ⟨weir, dev, log, regs, cond⟩ := pinEdge_spec _ _ _ _ base_eq.symm
    have pins := brakeOn_pins base 0
    have kept := congrArg Pins.vrAlert pins
    refine ⟨(congrArg Pins.brake pins).trans (by rw [dev]; rfl), kept.trans (by rw [dev]; rfl), ?_, fun acts => ?_⟩
    · exact braked_spec weir (by rw [dev]; rfl) (by rw [dev]; rfl) (by unfold State.brakePins; rw [dev]; rfl) log regs
        (cond 3 (by decide))
    · have edge : base = (s.setPins { s.dev.pins with brake := true }).edge 5 true := by
        rw [← base_eq, if_pos]
        simpa [State.pinSources, State.setPins] using acts
      have own := edge_edged (s.setPins { s.dev.pins with brake := true }) (i := 5) (by decide) true (by decide)
      rw [← edge] at own
      obtain ⟨other, mono⟩ := brakeOn_icu base
      exact edged_congr own rfl rfl rfl (other 5 (by decide) (by decide)) (mono 5)
  · refine completes_if (by simp) rfl (execVrAlertAssert_keeps (.refl s) (Within.mem _)) (by decide) fun _ => ?_
    have pins := brakeOn_pins (s.setPins { s.dev.pins with vrAlert := true }) 0
    have kept := congrArg Pins.brake pins
    refine ⟨congrArg Pins.vrAlert pins, kept, ?_⟩
    exact braked_spec (base := s.setPins { s.dev.pins with vrAlert := true }) rfl rfl rfl
      (by simp [State.brakePins, State.setPins]) ⟨rfl, rfl, rfl⟩ (fun _ _ _ _ _ => rfl) rfl
  · refine completes_if Iff.rfl rfl (execBrakeDeassert_keeps (.refl s) (Within.mem _)) (by decide) fun _ => ?_
    dsimp only
    generalize base_eq : State.edge _ 5 false = base
    obtain ⟨weir, dev, -⟩ := pinEdge_spec (s.setPins { s.dev.pins with brake := false }) true 5 false base_eq.symm
    have own := edge_edged (s.setPins { s.dev.pins with brake := false }) (i := 5) (by decide) false (by decide)
    rw [base_eq] at own
    obtain ⟨dev', icu, off⟩ := brakeOff_weir base
    refine ⟨by rw [dev', dev]; rfl, edged_congr own rfl rfl rfl (by rw [icu]) (by rw [icu]; exact id), ?_⟩
    have held : base.brakePins = s.dev.pins.vrAlert := by
      unfold State.brakePins
      rw [dev]
      exact Bool.false_or _
    have clusters : base.clusters = s.clusters := clusters_congr (by rw [dev]; rfl)
    have weir' : base.weir = s.weir := weir
    rw [held, weir', clusters] at off
    split
    · next released => rwa [if_pos released] at off
    · next holds => rwa [if_neg holds] at off
  · refine completes_if Iff.rfl rfl (execVrAlertDeassert_keeps (.refl s) (Within.mem _)) (by decide) fun _ => ?_
    obtain ⟨dev, -, off⟩ := brakeOff_weir (s.setPins { s.dev.pins with vrAlert := false })
    refine ⟨by rw [dev]; rfl, ?_⟩
    have held : (s.setPins { s.dev.pins with vrAlert := false }).brakePins = s.dev.pins.brake := Bool.or_false _
    rw [held] at off
    split
    · next released => exact off.trans (if_pos released)
    · next holds => exact off.trans (if_neg holds)
  · refine completes_of rfl (execClusterRestart_keeps (.refl s) n (Within.mem _)) (by decide) ?_
    cases restart : s.weir.restart with
    | nil => exact ⟨fun ns some => absurd some (by simp), fun _ => rfl⟩
    | cons m ms =>
      dsimp only
      by_cases own : s.clocked = true ∧ m = n
      · obtain ⟨clocked, rfl⟩ := own
        rw [when_eq s (by simp [clocked])]
        refine ⟨fun ns some _ => ?_, fun none => ?_⟩
        · obtain ⟨-, rfl⟩ := List.cons.inj some
          split
          · next below => exact ⟨rfl, fun _ _ => rfl, fun above => absurd below above, fun _ => ⟨rfl, rfl, rfl⟩⟩
          · next above =>
            have point : ({ s with weir := { s.weir with restart := ms } } : State).effectivePoint m = s.effectivePoint m :=
              effectivePoint_congr rfl rfl (fun _ => ⟨rfl, ClPwr.likeLimits_refl _⟩) rfl rfl m
            rw [point]
            generalize end_eq : State.settleRail _ = t
            obtain ⟨h1, h2, h3, h4, h5⟩ := restart_spec (s := s) (base := { s with weir := { s.weir with restart := ms } })
              rfl rfl rfl end_eq
            exact ⟨h1, h2, fun _ => ⟨h3, h4, h5⟩, fun below => absurd below above⟩
        · exact absurd none (by simp [clocked])
      · rw [when_neg s (by simpa using own)]
        refine ⟨fun ns some clocked => ?_, fun _ => rfl⟩
        obtain ⟨rfl, -⟩ := List.cons.inj some
        exact absurd ⟨clocked, rfl⟩ own

end Sys2Proof.Machine
end

section
/-! SUPPORT. Droops, temperatures and thermal limits (R364, R371, R372). -/

set_option Elab.async false

namespace Sys2Proof.Machine

/-! ## The readings of a sample (R371) -/

/-- Whether a limit engages on a cluster in a sample. -/
def State.engagesIn (s : State) (temps : List Nat) (n : Nat) : Bool :=
  decide (s.regNat .WEIR_TJ_LIMIT 0 0 ≤ clusterTemp temps n) && !(s.clPwr n).engaged

/-- Whether the limit of a cluster allows point 5 again in a sample and is released (log 80). -/
def State.releasedIn (s : State) (temps : List Nat) (n : Nat) : Bool :=
  decide (clusterTemp temps n + 3 ≤ s.regNat .WEIR_TJ_LIMIT 0 0) && decide (6 ≤ (s.clPwr n).thermPt)

/-- What a sample's readings of the clusters `ns` do from `s` to `t`. -/
structure ThermalRun (temps : List Nat) (ns : List Nat) (s t : State) : Prop where
  keeps : Keeps (fun c => c ∈ thermalReadChanges) s t
  count : t.reg .WEIR_CNT_THERMAL 0 0 = countedBy (ns.filter (s.engagesIn temps)).length (s.reg .WEIR_CNT_THERMAL 0 0)
  temp : ∀ n ∈ ns, (t.clPwr n).temp = clusterTemp temps n
  engaged : ∀ n ∈ ns, (t.clPwr n).engaged = (s.engagesIn temps n || ((s.clPwr n).engaged && !s.releasedIn temps n))
  thermPt : ∀ n ∈ ns, (t.clPwr n).thermPt = if s.engagesIn temps n = true then min 6 (s.clPwr n).thermPt
    else if s.releasedIn temps n = true then 8 else (s.clPwr n).thermPt
  others : ∀ n, n ∉ ns → (t.clPwr n).likeLimits (s.clPwr n)
  sprint : s.weir.sprint.on = true →
    (t.weir.sprint.on = true ∧ (∀ m, (t.clPwr m).point = (s.clPwr m).point) ∧
      t.icu.cond.getLsbD 3 = s.icu.cond.getLsbD 3 ∧ ∀ n ∈ ns, s.engagesIn temps n = true → (s.clPwr n).point < 6) ∨
    t.weir.sprint.on = false ∧ raised 3 s t
  off : s.weir.sprint.on = false → t.weir.sprint.on = false
  mono : s.icu.pend.getLsbD 3 = true → t.icu.pend.getLsbD 3 = true
  told : ns.filter (s.engagesIn temps) ≠ [] → t.reg .WEIR_STATUS 0 0 = 0x7020 ∧
    ∃ e, t.icu.log.head? = some e ∧ e.status = 0x7020#16 ∧ e.unit = 9
  quiet : ns.filter (s.engagesIn temps) = [] → t.icu = s.icu ∧ t.weir.sprint = s.weir.sprint ∧
    t.weir.railMv = s.weir.railMv ∧ t.reg .WEIR_STATUS 0 0 = s.reg .WEIR_STATUS 0 0 ∧
    ∀ n, (t.clPwr n).point = (s.clPwr n).point ∧ (t.clPwr n).want = (s.clPwr n).want

theorem ThermalRun.nil (temps : List Nat) (s : State) : ThermalRun temps [] s s where
  keeps := .refl s
  count := rfl
  temp _ h := absurd h (List.not_mem_nil)
  engaged _ h := absurd h (List.not_mem_nil)
  thermPt _ h := absurd h (List.not_mem_nil)
  others _ _ := ClPwr.likeLimits_refl _
  sprint on := .inl ⟨on, fun _ => rfl, rfl, fun _ h => absurd h (List.not_mem_nil)⟩
  off := id
  mono := id
  told h := absurd rfl h
  quiet _ := ⟨rfl, rfl, rfl, rfl, fun _ => ⟨rfl, rfl⟩⟩

theorem countedBy_add (a b : Nat) (v : W64) : countedBy (a + b) v = countedBy b (countedBy a v) := by
  induction a generalizing v with
  | zero => rw [Nat.zero_add]; rfl
  | succ a ih => rw [Nat.succ_add]; exact ih _

theorem regNat_congr {s t : State} {r : Reg} {u i : Nat} (h : t.reg r u i = s.reg r u i) : t.regNat r u i = s.regNat r u i := by
  unfold State.regNat
  rw [h]

/-- The readings of two lists of clusters, one after the other. -/
theorem ThermalRun.append {temps ns ms : List Nat} {s t u : State} (h : ThermalRun temps ns s t)
    (g : ThermalRun temps ms t u) (apart : ∀ m ∈ ms, m ∉ ns) : ThermalRun temps (ns ++ ms) s u := by
  have lim : t.regNat .WEIR_TJ_LIMIT 0 0 = s.regNat .WEIR_TJ_LIMIT 0 0 :=
    regNat_congr (h.keeps.reg_eq (by decide) (by decide) (by decide))
  have later {m : Nat} (hm : m ∈ ms) : t.engagesIn temps m = s.engagesIn temps m ∧ t.releasedIn temps m = s.releasedIn temps m ∧
      (t.clPwr m).engaged = (s.clPwr m).engaged ∧ (t.clPwr m).thermPt = (s.clPwr m).thermPt := by
    obtain ⟨therm, -, -, -, engaged, -⟩ := h.others m (apart m hm)
    unfold State.engagesIn State.releasedIn
    rw [lim, therm, engaged]
    exact ⟨rfl, rfl, rfl, rfl⟩
  have earlier {n : Nat} (hn : n ∈ ns) : (u.clPwr n).likeLimits (t.clPwr n) := g.others n fun hm => apart n hm hn
  have news : ms.filter (t.engagesIn temps) = ms.filter (s.engagesIn temps) :=
    List.filter_congr fun m hm => (later hm).1
  have clocked : s.clocked = t.clocked := by
    unfold State.clocked
    rw [h.keeps.dev.life.resolve_left (by decide)]
  have mode : s.srcMode 3 = t.srcMode 3 :=
    (srcMode_congr (h.keeps.reg_eq (by decide) (by decide) (regOk_src (by decide)))).symm
  constructor
  case keeps => exact h.keeps.trans g.keeps
  case count => rw [g.count, h.count, news, List.filter_append, List.length_append, countedBy_add]
  case temp =>
    intro n hn
    rcases List.mem_append.1 hn with hn | hn
    · obtain ⟨-, temp, -⟩ := earlier hn
      rw [temp, h.temp n hn]
    · exact g.temp n hn
  case engaged =>
    intro n hn
    rcases List.mem_append.1 hn with hn | hn
    · obtain ⟨-, -, -, -, engaged, -⟩ := earlier hn
      rw [engaged, h.engaged n hn]
    · obtain ⟨engages, released, engaged, -⟩ := later hn
      rw [g.engaged n hn, engages, released, engaged]
  case thermPt =>
    intro n hn
    rcases List.mem_append.1 hn with hn | hn
    · obtain ⟨therm, -⟩ := earlier hn
      rw [therm, h.thermPt n hn]
    · obtain ⟨engages, released, -, therm⟩ := later hn
      rw [g.thermPt n hn, engages, released, therm]
  case others =>
    intro n hn
    simp only [List.mem_append, not_or] at hn
    exact ClPwr.likeLimits_trans (g.others n hn.2) (h.others n hn.1)
  case sprint =>
    intro on
    rcases h.sprint on with ⟨on', points, cond, low⟩ | ⟨ended, source⟩
    · rcases g.sprint on' with ⟨on'', points', cond', low'⟩ | ⟨ended, source⟩
      · refine .inl ⟨on'', fun m => (points' m).trans (points m), cond'.trans cond, fun n hn engages => ?_⟩
        rcases List.mem_append.1 hn with hn | hn
        · exact low n hn engages
        · rw [← points n]
          exact low' n hn ((later hn).1.trans engages)
      · exact .inr ⟨ended, raised_congr source clocked mode cond.symm id⟩
    · exact .inr ⟨g.off ended, raised_congr source rfl rfl rfl g.mono⟩
  case off => exact fun off => g.off (h.off off)
  case mono => exact fun set => g.mono (h.mono set)
  case told =>
    intro some
    by_cases last : ms.filter (t.engagesIn temps) = []
    · have first : ns.filter (s.engagesIn temps) ≠ [] := by
        intro none
        rw [List.filter_append, none, ← news, last] at some
        exact some rfl
      obtain ⟨icu, -, -, status, -⟩ := g.quiet last
      obtain ⟨told, entry⟩ := h.told first
      rw [status, icu]
      exact ⟨told, entry⟩
    · exact g.told last
  case quiet =>
    intro none
    rw [List.filter_append, List.append_eq_nil_iff, ← news] at none
    obtain ⟨icu, sprint, rail, status, points⟩ := h.quiet none.1
    obtain ⟨icu', sprint', rail', status', points'⟩ := g.quiet none.2
    exact ⟨icu'.trans icu, sprint'.trans sprint, rail'.trans rail, status'.trans status,
      fun n => ⟨(points' n).1.trans (points n).1, (points' n).2.trans (points n).2⟩⟩

/-- The telling of a limit that engages, after which the clusters and the sprint are as before. -/
theorem limitTold_spec {s t : State} (c : Nat)
    (h : ((s.count .WEIR_CNT_THERMAL 0).powerStatus Status.thermalLimit).elog Status.thermalLimit unitWeir 0 noCtx noFn
      (BitVec.ofNat 64 c) = t) : t.weir = s.weir ∧
    t.reg .WEIR_CNT_THERMAL 0 0 = counted (s.reg .WEIR_CNT_THERMAL 0 0) ∧ t.reg .WEIR_STATUS 0 0 = 0x7020 ∧
    (∃ e, t.icu.log.head? = some e ∧ e.status = 0x7020#16 ∧ e.unit = 9) ∧
    t.icu.cond.getLsbD 3 = s.icu.cond.getLsbD 3 ∧ (s.icu.pend.getLsbD 3 = true → t.icu.pend.getLsbD 3 = true) := by
  subst h
  generalize base_eq : State.powerStatus _ _ = base
  have fields : base.weir = s.weir ∧ base.icu = s.icu := by
    rw [← base_eq]
    simp
  obtain ⟨weir, icu⟩ := fields
  obtain ⟨e, head, status, unit, -⟩ :=
    logged_head (elog_logged base Status.thermalLimit unitWeir 0 noCtx noFn (BitVec.ofNat 64 c))
  refine ⟨by rw [← weir]; simp, ?_, ?_, ⟨e, head, status, unit⟩, ?_, fun set => ?_⟩
  · rw [elog_reg _ _ _ _ _ _ _ _ _ _ (by decide) (by decide), ← base_eq]
    unfold State.powerStatus counted
    rw [reg_setReg_other _ _ (by decide) (.inl (by decide)), count_reg _ _ _ (by decide)]
  · rw [elog_reg _ _ _ _ _ _ _ _ _ _ (by decide) (by decide), ← base_eq]
    exact reg_setReg_self _ _ (by decide)
  · rw [elog_cond_other _ _ _ _ _ _ _ (by decide), icu]
  · exact elog_mono _ _ _ _ _ _ (by rwa [icu])

/-- A sprint ends where its cluster is at a sprint point (R370). -/
theorem sprintStop_spec {s t : State} {n : Nat}
    (h : (if 6 ≤ (s.clPwr n).point then s.sprintEnd Status.sprintStopped 0 else s) = t) :
    (∀ m, (t.clPwr m).likeLimits (s.clPwr m)) ∧
    t.reg .WEIR_CNT_THERMAL 0 0 = s.reg .WEIR_CNT_THERMAL 0 0 ∧
    (s.weir.sprint.on = true → t = s ∧ (s.clPwr n).point < 6 ∨ t.weir.sprint.on = false ∧ raised 3 s t) ∧
    (s.weir.sprint.on = false → t.weir.sprint.on = false) ∧
    (s.icu.pend.getLsbD 3 = true → t.icu.pend.getLsbD 3 = true) := by
  subst h
  split
  · obtain ⟨ended, -, -, -, -, source, limits⟩ := sprintEnd_spec s Status.sprintStopped 0
    obtain ⟨-, -, -, -, pend⟩ := sprintEnd_icu s (st := Status.sprintStopped) (by decide) 0
    exact ⟨limits, (sprintEnd_keeps (.refl s) _ _ (Within.mem _)).reg_eq (by decide) (by decide) (by decide),
      fun on => .inr ⟨ended, (source on).2.1⟩, fun _ => ended, pend 3⟩
  · next low =>
    exact ⟨fun _ => ClPwr.likeLimits_refl _, rfl, fun _ => .inl ⟨rfl, Nat.not_le.1 low⟩, id, id⟩

/-- One cluster's reading. -/
theorem thermalRead_run (s : State) (temps : List Nat) (n : Nat) :
    ThermalRun temps [n] s (s.thermalRead n (clusterTemp temps n)) := by
  have keeps := thermalRead_keeps (.refl s) n (clusterTemp temps n) (Within.mem _)
  by_cases engages : s.engagesIn temps n = true
  · have one : [n].filter (s.engagesIn temps) = [n] := by simp [engages]
    unfold State.thermalRead at keeps ⊢
    dsimp only at keeps ⊢
    rw [if_pos (by simpa [State.engagesIn] using engages)] at keeps ⊢
    generalize stop_eq : (if 6 ≤ (s.clPwr n).point then s.sprintEnd Status.sprintStopped 0 else s) = stop at keeps ⊢
    obtain ⟨limits, counter, sprint, off, mono⟩ := sprintStop_spec stop_eq
    generalize new_eq : ({ stop.clPwr n with
      temp := clusterTemp temps n, engaged := true, thermPt := min 6 (s.clPwr n).thermPt } : ClPwr) = new at keeps ⊢
    generalize told_eq : State.elog _ _ _ _ _ _ _ = told at keeps ⊢
    obtain ⟨weir, count, status, entry, cond, pend⟩ := limitTold_spec _ told_eq
    have cls (m : Nat) : told.clPwr m = if m = n then new else stop.clPwr m := by
      rw [clPwr_congr (congrArg Weir.cls weir), clPwr_setClPwr]
    have ended : told.weir.sprint = stop.weir.sprint := by rw [weir]; rfl
    have own {m : Nat} (hm : m ∈ [n]) : told.clPwr m = new := by rw [cls, if_pos (List.mem_singleton.1 hm)]
    constructor
    case keeps => exact keeps
    case count =>
      rw [one, count]
      exact congrArg counted counter
    case temp => exact fun m hm => by rw [own hm, ← new_eq, List.mem_singleton.1 hm]
    case engaged =>
      intro m hm
      rw [own hm, ← new_eq, List.mem_singleton.1 hm, engages]
      rfl
    case thermPt =>
      intro m hm
      rw [own hm, ← new_eq, List.mem_singleton.1 hm, if_pos engages]
    case others =>
      intro m hm
      rw [cls, if_neg (by simpa using hm)]
      exact limits m
    case sprint =>
      intro on
      rcases sprint on with ⟨rfl, low⟩ | ⟨out, source⟩
      · refine .inl ⟨by rw [ended]; exact on, fun m => ?_, cond, fun m hm _ => by rwa [List.mem_singleton.1 hm]⟩
        rw [cls]
        split
        · next e => rw [e, ← new_eq]
        · rfl
      · exact .inr ⟨by rw [ended]; exact out, raised_congr source rfl rfl rfl pend⟩
    case off => exact fun out => by rw [ended]; exact off out
    case mono => exact fun set => pend (mono set)
    case told => exact fun _ => ⟨status, entry⟩
    case quiet => exact fun none => absurd (one.symm.trans none) (by simp)
  · have rests : s.thermalRead n (clusterTemp temps n) = s.setClPwr n { s.clPwr n with
        temp := clusterTemp temps n, engaged := (s.clPwr n).engaged && !s.releasedIn temps n
        thermPt := if s.releasedIn temps n = true then 8 else (s.clPwr n).thermPt } := by
      unfold State.thermalRead
      exact if_neg fun on => engages (by simpa [State.engagesIn] using on)
    have none : [n].filter (s.engagesIn temps) = [] := by simp [engages]
    rw [rests] at keeps ⊢
    constructor
    case keeps => exact keeps
    case count => rw [none]; rfl
    case temp => simp
    case engaged => simp [engages]
    case thermPt => simp [engages]
    case others =>
      intro m hm
      rw [clPwr_setClPwr, if_neg (by simpa using hm)]
      exact ClPwr.likeLimits_refl _
    case sprint =>
      refine fun on => .inl ⟨on, fun m => ?_, rfl, fun m hm high => ?_⟩
      · rw [clPwr_setClPwr]
        split
        · next own => rw [own]
        · rfl
      · rw [List.mem_singleton.1 hm] at high
        exact absurd high engages
    case off => exact id
    case mono => exact id
    case told => exact fun some => absurd none some
    case quiet =>
      refine fun _ => ⟨rfl, rfl, rfl, rfl, fun m => ?_⟩
      rw [clPwr_setClPwr]
      split
      · next own => rw [own]; exact ⟨rfl, rfl⟩
      · exact ⟨rfl, rfl⟩

theorem thermalReadAll_run (s : State) (temps : List Nat) {ns : List Nat} (nodup : ns.Nodup) :
    ThermalRun temps ns s (s.thermalReadAll temps ns) := by
  induction ns generalizing s with
  | nil => exact .nil temps s
  | cons n ns ih =>
    obtain ⟨new, rest⟩ := List.nodup_cons.1 nodup
    exact (thermalRead_run s temps n).append (ih _ rest) fun m hm own => new (List.mem_singleton.1 own ▸ hm)

/-! ## Steps of a thermal limit -/

/-- The clusters that follow a cluster's thermal limit: its group, or itself alone (R376). -/
theorem mem_group (s : State) (n : Nat) : n ∈ (match s.groupOf n with | some g => g | none => [n]) := by
  cases group : s.groupOf n with
  | none => exact List.mem_singleton.2 rfl
  | some g =>
    obtain ⟨⟨c, l⟩, found, rfl⟩ := Option.map_eq_some_iff.1 group
    exact List.contains_iff_mem.1 (List.find?_some (p := fun g : Nat × List Nat => g.2.contains n) found)

/-- The limit goes down (R371): the cluster follows, and its clock stops below point 0. -/
theorem thermalDown_spec (s : State) (n p : Nat) {g : List Nat} (mem : n ∈ g) (present : clusterPresent s.dev.part n = true)
    {t : State} (h : ((s.setClPwr n { s.clPwr n with thermPt := p, stopped := (s.clPwr n).stopped || p == 0 }).repointAll
      g).sprintCheck = t) :
    (t.clPwr n).thermPt = p ∧ (t.clPwr n).engaged = (s.clPwr n).engaged ∧ t.slu = s.slu ∧
    (t.clPwr n).stopped = ((s.clPwr n).stopped || p == 0) ∧
    (((s.clPwr n).stopped || p == 0) = false → (t.clPwr n).point ≤ p - 1 ∧ (t.clPwr n).want.getD 0 ≤ p - 1) := by
  subst h
  generalize new_eq : ({ s.clPwr n with thermPt := p, stopped := (s.clPwr n).stopped || p == 0 } : ClPwr) = new
  have own : (s.setClPwr n new).clPwr n = new := clPwr_setClPwr_self _ _ _
  have slu : (s.setClPwr n new).slu = s.slu := rfl
  have part : (s.setClPwr n new).dev.part = s.dev.part := rfl
  generalize s.setClPwr n new = low at *
  have moved := repointAll_keeps (.refl low) g (Within.mem _)
  obtain ⟨-, -, -, -, limits⟩ := repointAll_spec low g
  have checked := sprintCheck_keeps (.refl (low.repointAll g)) (Within.mem _)
  obtain ⟨therm, -, stopped, -, engaged, -⟩ :=
    ClPwr.likeLimits_trans (sprintCheck_likeLimits (low.repointAll g) n) (limits n)
  rw [own] at therm stopped engaged
  subst new_eq
  refine ⟨therm, engaged, ?_, stopped, fun runs => ?_⟩
  · rw [checked.slu_eq (by decide), moved.slu_eq (by decide), slu]
  · obtain ⟨point, want⟩ := sprintCheck_lowers (low.repointAll g) n
    have le := repointAll_le (s := low) (q := p - 1) (m := n) g (fun t same => ?_) (by rw [own]; exact runs)
      (by rw [part]; exact present) (.inl mem)
    · exact ⟨point.trans le.1, want.trans le.2⟩
    · obtain ⟨therm, -⟩ := same.clusters n
      have bound := effectivePoint_le_therm t n
      rwa [therm, own] at bound

/-- The limit goes up (R371): the cores take the kills that waited for the clock, and the clusters follow. -/
theorem thermalUp_spec (s : State) (n : Nat) (new : ClPwr) (g : List Nat) {t : State}
    (h : ((s.setClPwr n new).takeKills n (coresOf n)).repointAll g = t) :
    (t.clPwr n).thermPt = new.thermPt ∧ (t.clPwr n).engaged = new.engaged ∧ (t.clPwr n).stopped = new.stopped ∧
    t.icu = s.icu ∧ t.weir.sprint = s.weir.sprint := by
  subst h
  have own : (s.setClPwr n new).clPwr n = new := clPwr_setClPwr_self _ _ _
  have killed := takeKills_keeps (.refl (s.setClPwr n new)) n (coresOf n) (Within.mem _)
  have weir := killed.weir_eq (by decide)
  have icu := killed.icu_eq (by decide)
  generalize State.takeKills _ n (coresOf n) = free at *
  obtain ⟨-, icu', sprint, -, limits⟩ := repointAll_spec free g
  obtain ⟨therm, -, stopped, -, engaged, -⟩ := limits n
  rw [clPwr_congr (congrArg Weir.cls weir), own] at therm stopped engaged
  exact ⟨therm, engaged, stopped, icu'.trans icu, sprint.trans (by rw [weir]; rfl)⟩

/-- Settles O20: a sample by `thermalReadAll_run`, a limit's steps by `thermalDown_spec` and the keep lemmas. -/
theorem droopThermalLimitsAndHardStop : Obligations.DroopThermalLimitsAndHardStop := by
  refine ⟨fun n mv s => ?_, fun n s => ?_, fun temps s => ?_, fun n s => ?_, fun s => ?_⟩
  · refine completes_if (by simp [and_assoc]) rfl (execDroopDetect_keeps (.refl s) n mv (Within.mem _)) (by decide) fun _ => ?_
    have cls (m : Nat) := clPwr_congr (s := s.setClPwr n { s.clPwr n with stretched := true })
      (t := (s.setClPwr n { s.clPwr n with stretched := true }).count .WEIR_CNT_DROOP 0) (by simp) m
    refine ⟨(cls n).trans (clPwr_setClPwr_self _ _ _), fun m ne => (cls m).trans ?_, count_reg _ _ _ (by decide)⟩
    rw [clPwr_setClPwr, if_neg ne]
  · refine completes_if Iff.rfl rfl (execDroopRecover_keeps (.refl s) n (Within.mem _)) (by decide) fun _ => ?_
    exact ⟨clPwr_setClPwr_self _ _ _, fun m ne => by rw [clPwr_setClPwr, if_neg ne]⟩
  · refine completes_if Iff.rfl rfl (execThermalSample_keeps (.refl s) temps (Within.mem _)) (by decide) fun _ => ?_
    have nodup : s.clusters.Nodup := List.nodup_range.filter _
    have run := thermalReadAll_run (s.setReg .WEIR_TJ_C 0 0 (BitVec.ofNat 64 ((hottestOf 0 (temps.take 16)).2 % 256 +
      256 * ((hottestOf 0 (temps.take 16)).1 % 16)))) temps nodup
    dsimp only
    generalize base_eq : s.setReg .WEIR_TJ_C 0 0 _ = base at run ⊢
    generalize State.thermalReadAll base temps s.clusters = t at *
    have fields : base.weir = s.weir ∧ base.icu = s.icu ∧ base.dev = s.dev := by
      rw [← base_eq]
      simp
    obtain ⟨weir, icu, dev⟩ := fields
    have others {r : Reg} {i : Nat} (ok : regOk r 0 i = true) (ne : r ≠ .WEIR_TJ_C) : base.reg r 0 i = s.reg r 0 i := by
      rw [← base_eq]
      exact reg_setReg_other _ _ ok (.inl ne)
    have cls (n : Nat) : base.clPwr n = s.clPwr n := clPwr_congr (congrArg Weir.cls weir) n
    have lim : base.regNat .WEIR_TJ_LIMIT 0 0 = s.regNat .WEIR_TJ_LIMIT 0 0 := regNat_congr (others (by decide) (by decide))
    have engages {n : Nat} (present : clusterPresent s.dev.part n = true) : base.engagesIn temps n =
        (clusterPresent s.dev.part n && decide (s.regNat .WEIR_TJ_LIMIT 0 0 ≤ clusterTemp temps n) && !(s.clPwr n).engaged) := by
      unfold State.engagesIn
      rw [lim, cls, present, Bool.true_and]
    have news : s.clusters.filter (base.engagesIn temps) = (List.range 4).filter (fun n =>
        clusterPresent s.dev.part n && decide (s.regNat .WEIR_TJ_LIMIT 0 0 ≤ clusterTemp temps n) && !(s.clPwr n).engaged) := by
      rw [List.filter_congr fun n hn => engages (mem_clusters.1 hn)]
      unfold State.clusters
      rw [List.filter_filter]
      refine List.filter_congr fun n _ => ?_
      cases clusterPresent s.dev.part n <;> simp
    refine ⟨?_, ?_, fun n hn present => ?_, fun some => ?_, fun none => ?_⟩
    · rw [run.keeps.reg_eq (by decide) (by decide) (by decide), ← base_eq]
      exact reg_setReg_self _ _ (by decide)
    · rw [run.count, news, others (by decide) (by decide)]
    · have mem := mem_clusters.2 present
      have engaged := run.engaged n mem
      have therm := run.thermPt n mem
      rw [engages present, cls] at engaged therm
      refine ⟨run.temp n mem, fun on => ?_, fun off => ?_⟩
      · rw [on] at engaged therm
        refine ⟨engaged, therm, fun sprint high => ?_⟩
        rcases run.sprint (by rw [weir]; exact sprint) with ⟨-, -, -, low⟩ | ⟨ended, source⟩
        · exact absurd (low n mem ((engages present).trans on)) (by rw [cls]; omega)
        · refine ⟨ended, raised_congr source (clocked_congr dev).symm ?_ (by rw [icu]) id⟩
          exact srcMode_congr (others (regOk_src (by decide)) (by decide)).symm
      · rw [off] at engaged therm
        have released : base.releasedIn temps n = true ↔
            clusterTemp temps n + 3 ≤ s.regNat .WEIR_TJ_LIMIT 0 0 ∧ 6 ≤ (s.clPwr n).thermPt := by
          unfold State.releasedIn
          rw [lim, cls, Bool.and_eq_true, decide_eq_true_eq, decide_eq_true_eq]
        refine ⟨fun free => ?_, fun held => ?_⟩
        · rw [released.2 free] at engaged therm
          exact ⟨by rw [engaged]; simp, therm⟩
        · rw [Bool.eq_false_iff.2 fun free => held (released.1 free)] at engaged therm
          exact ⟨by rw [engaged]; simp, therm⟩
    · exact run.told (by rw [news]; exact some)
    · obtain ⟨icu', sprint, rail, -, points⟩ := run.quiet (by rw [news]; exact none)
      refine ⟨icu'.trans icu, sprint.trans (by rw [weir]), rail.trans (by rw [weir]), fun n => ?_⟩
      rw [← cls]
      exact points n
  · refine completes_if (by simp [and_assoc]) rfl (execThermalLimitStep_keeps (.refl s) n (Within.mem _)) (by decide) ?_
    rintro ⟨-, present, engaged⟩
    dsimp only
    split
    · next hot =>
      obtain ⟨therm, on, slu, stopped, lower⟩ := thermalDown_spec s n ((s.clPwr n).thermPt - 1) (mem_group s n) present rfl
      refine ⟨fun _ => ⟨therm, on.trans engaged, slu, fun zero => ?_, fun some => ⟨?_, fun runs => ?_⟩⟩,
        fun cool => absurd hot (by omega), fun cool => absurd hot (by omega)⟩
      · exact stopped.trans (by simp [show (s.clPwr n).thermPt - 1 = 0 by omega])
      · exact stopped.trans (by simp [show (s.clPwr n).thermPt - 1 ≠ 0 by omega])
      · exact lower (by simp [runs, show (s.clPwr n).thermPt - 1 ≠ 0 by omega])
    · next below =>
      split
      · next cool =>
        refine ⟨fun hot => absurd hot below, fun _ => ?_, fun _ near => absurd near (by omega)⟩
        obtain ⟨therm, on, stopped, icu, sprint⟩ := thermalUp_spec s n _ _ rfl
        refine ⟨therm.trans ?_, on.trans ?_, stopped, icu, sprint⟩
        · simp only [show (6 ≤ (s.clPwr n).thermPt + 1) = (5 ≤ (s.clPwr n).thermPt) by simp]
        · simp only [show ((s.clPwr n).thermPt + 1 < 6) = ((s.clPwr n).thermPt < 5) by simp; omega]
      · next near =>
        exact ⟨fun hot => absurd hot below, fun cool => absurd cool near, fun _ _ => rfl⟩
  · refine completes_if Iff.rfl rfl (execHardStop_keeps (.refl s) (Within.mem _)) (by decide) fun _ => ?_
    exact ⟨rfl, rfl, rfl, rfl⟩

end Sys2Proof.Machine
end

section
/-! SUPPORT. Power domains and the clusters' clocks (R348, R352, R354, R370). -/

set_option Elab.async false

namespace Sys2Proof.Machine

/-! ## Gating (R348) -/

theorem regOk_decUsed : ∀ {n : Nat}, n < 16 → regOk .DEC_CTX_USED n 0 = true := by decide +kernel

/-- The engines listed whose status registers do not hold yet hold what they show (R23). -/
theorem holdDecs_reg (s : State) (ns : List Nat) {m : Nat} (hm : m < 16) : (s.holdDecs ns).reg .DEC_CTX_USED m 0 =
    if m ∈ ns ∧ s.decHeld m = false then s.ctxUsed m else s.reg .DEC_CTX_USED m 0 := by
  induction ns generalizing s with
  | nil => simp [State.holdDecs]
  | cons n ns ih =>
    unfold State.holdDecs
    by_cases held : s.decHeld n = true
    · rw [if_pos held, ih]
      by_cases own : m = n
      · subst own
        simp [held]
      · simp [own]
    · rw [if_neg held, ih]
      have same : (s.setReg .DEC_CTX_USED n 0 (s.ctxUsed n)).decHeld m = s.decHeld m ∧
          (s.setReg .DEC_CTX_USED n 0 (s.ctxUsed n)).ctxUsed m = s.ctxUsed m := by
        unfold State.decHeld State.ctxUsed State.domainLive State.decCtx
        simp
      rw [same.1, same.2]
      by_cases own : m = n
      · subst own
        rw [reg_setReg_self _ _ (regOk_decUsed hm)]
        simp [held]
      · rw [reg_setReg_other _ _ (regOk_decUsed hm) (.inr (.inl own))]
        simp [own]

/-- The state in which domain `d` is gated, before the sprint is checked. -/
structure Gated (d : Domain) (s t : State) : Prop where
  weir : t.weir = { s.weir with live := s.weir.live.filter (fun x => x != d) }
  icu : t.icu = s.icu
  dev : t.dev = s.dev
  core : ∀ n, t.core n = if d = .core n then (s.core n).gate else s.core n
  basin : ∀ n, t.basin n = if d = .basin n then [] else s.basin n
  cache : t.trk.cache = if d = .track then [] else s.trk.cache
  mode : t.srcMode 3 = s.srcMode 3
  used : ∀ n k, d = .decode n → n < 4 → k < 4 → t.reg .DEC_CTX_USED (4 * n + k) 0 =
    if s.decHeld (4 * n + k) = true then s.reg .DEC_CTX_USED (4 * n + k) 0 else s.ctxUsed (4 * n + k)

theorem powerGate_gated (s : State) (d : Domain) : ∃ t, execPowerGate d s =
    .next (s.when (s.mayGate d) (fun _ => t.sprintCheck)) ∧ Gated d s t := by
  cases d with
  | core n =>
    refine ⟨_, rfl, rfl, rfl, rfl, fun m => ?_, fun _ => rfl, rfl, rfl, fun _ _ h => nomatch h⟩
    refine (core_setCore _ n m _).trans ?_
    by_cases own : m = n
    · subst own
      simp [State.setLive, State.core]
    · rw [if_neg own, if_neg (by simpa using Ne.symm own)]
      rfl
  | basin n =>
    refine ⟨_, rfl, rfl, rfl, rfl, fun _ => rfl, fun m => ?_, rfl, rfl, fun _ _ h => nomatch h⟩
    refine (basin_setBasin _ n m _).trans ?_
    by_cases own : m = n
    · subst own
      simp
    · rw [if_neg own, if_neg (by simpa using Ne.symm own)]
      rfl
  | decode n =>
    have used := fun m hm => holdDecs_reg s ((List.range 4).map (fun k => 4 * n + k)) (m := m) hm
    have k := holdDecs_keeps (.refl s) ((List.range 4).map (fun k => 4 * n + k)) (Within.mem _)
    have same : execPowerGate (.decode n) s = .next (s.when (s.mayGate (.decode n)) (fun _ =>
        ((s.holdDecs ((List.range 4).map (fun k => 4 * n + k))).setLive
          (s.weir.live.filter (fun x => x != .decode n))).sprintCheck)) := rfl
    refine ⟨_, same, ?_⟩
    generalize s.holdDecs ((List.range 4).map (fun k => 4 * n + k)) = t at *
    have weir := k.weir_eq (by decide)
    have slu := k.slu_eq (by decide)
    have trk := k.trk_eq (by decide)
    constructor
    case weir =>
      unfold State.setLive
      rw [weir]
    case icu => exact k.icu_eq (by decide)
    case dev => exact k.dev_eq (by decide)
    case core => exact fun m => core_congr (congrArg Sluice.cores slu) m
    case basin => exact fun m => congrArg (SMap.get _ · m) (congrArg Sluice.basins slu)
    case cache =>
      rw [if_neg (fun h => nomatch h)]
      exact congrArg TrackEng.cache trk
    case mode => exact srcMode_congr (k.reg_eq (by decide) (by decide) (regOk_src (by decide)))
    case used =>
      intro m j own hm hj
      cases own
      refine (used (4 * n + j) (by omega)).trans ?_
      have mem : 4 * n + j ∈ (List.range 4).map (fun k => 4 * n + k) := List.mem_map.2 ⟨j, List.mem_range.2 hj, rfl⟩
      cases s.decHeld (4 * n + j) <;> simp [mem]
  | pixel => exact ⟨_, rfl, rfl, rfl, rfl, fun _ => rfl, fun _ => rfl, (if_neg (by decide)).symm, rfl, fun _ _ h => nomatch h⟩
  | track => exact ⟨_, rfl, rfl, rfl, rfl, fun _ => rfl, fun _ => rfl, (if_pos rfl).symm, rfl, fun _ _ h => nomatch h⟩

theorem domainLive_congr {s t : State} (h : t.weir.live = s.weir.live) (d : Domain) : t.domainLive d = s.domainLive d := by
  unfold State.domainLive
  rw [h]

theorem basin_congr {s t : State} (h : t.slu.basins = s.slu.basins) (n : Nat) : t.basin n = s.basin n := by
  unfold State.basin
  rw [h]

theorem domainLive_gated {d : Domain} {s t : State} (h : t.weir.live = s.weir.live.filter (fun x => x != d)) :
    t.domainLive d = false ∧ ∀ e, e ≠ d → t.domainLive e = s.domainLive e := by
  unfold State.domainLive
  rw [h]
  refine ⟨?_, fun e ne => ?_⟩
  · rw [Bool.eq_false_iff, ne_eq, List.contains_iff_mem, List.mem_filter]
    simp
  · rw [Bool.eq_iff_iff, List.contains_iff_mem, List.contains_iff_mem, List.mem_filter]
    simp [ne]

theorem domainLive_woken {d : Domain} {s t : State} (h : t.weir.live = s.weir.live ++ [d]) :
    t.domainLive d = true ∧ ∀ e, e ≠ d → t.domainLive e = s.domainLive e := by
  unfold State.domainLive
  rw [h]
  refine ⟨List.contains_iff_mem.2 (by simp), fun e ne => ?_⟩
  rw [Bool.eq_iff_iff, List.contains_iff_mem, List.contains_iff_mem, List.mem_append]
  simp [ne]

/-- Gating a domain, in full: the sprint is checked over what is left live (R370, log 79). -/
theorem gated_sprintCheck {d : Domain} {s b : State} (g : Gated d s b) :
    (s.weir.sprint.on = false → b.sprintCheck.weir.cls = s.weir.cls ∧ b.sprintCheck.weir.railMv = s.weir.railMv ∧
      b.sprintCheck.icu = s.icu) ∧
    (s.weir.sprint.on = true →
      (∀ n < 4, b.sprintCheck.clusterLive n = true → (s.clPwr n).point ≤ 5 ∧ (s.clPwr n).want = none) →
      sprintEnds 0x7006#16 s b.sprintCheck) := by
  have sprint : b.weir.sprint = s.weir.sprint := by rw [g.weir]
  refine ⟨fun off => ?_, fun on low => ?_⟩
  · rw [sprintCheck_eq (.inl (by rw [sprint]; exact off)), g.weir]
    exact ⟨rfl, rfl, g.icu⟩
  · have k := sprintCheck_keeps (.refl b) (Within.mem _)
    have stops : ¬ b.sprintStays := by
      rintro ⟨-, sprinting⟩
      obtain ⟨m, hm, live, high⟩ := (sprinting_iff b).1 sprinting
      rw [← clusterLive_congr k.part (k.weir.live.resolve_left (by decide))] at live
      obtain ⟨point, want⟩ := low m hm live
      rw [clPwr_congr (s := s) (by rw [g.weir]), want] at high
      exact absurd high (by simp; omega)
    exact sprintEnds_congr (sprintCheck_ends (by rw [sprint]; exact on) stops) sprint
      ⟨by rw [g.dev], clocked_congr g.dev.symm⟩ g.icu.symm g.mode.symm

/-! ## Waking (R348, R352) -/

/-- Domain `d` is live, and no longer waking. -/
def State.woken (s : State) (d : Domain) : State :=
  { s with weir := { s.weir with waking := s.weir.waking.filter (fun x => x != d), live := s.weir.live ++ [d] } }

/-- What a core finds when its domain is live again. -/
def Core.wake (c : Core) : Core := if c.st = .gated then { c with st := .idle } else c

/-- The first domain of a cluster to wake starts it at point 0. -/
theorem startCluster_spec {s before : State} {c : Nat} (limits : s.weir.cls = before.weir.cls) :
    let t := s.startCluster before c
    t.slu = s.slu ∧ t.weir.live = s.weir.live ∧ t.weir.waking = s.weir.waking ∧
    (∀ m, m ≠ c → t.clPwr m = before.clPwr m) ∧
    (before.clusterLive c = true → t.clPwr c = before.clPwr c ∧ t.weir.railMv = s.weir.railMv) ∧
    (before.clusterLive c = false → clusterPresent s.dev.part c = true → (before.clPwr c).stopped = false →
      t.clPwr c = { before.clPwr c with
        point := 0, want := if 0 < t.effectivePoint c then some (t.effectivePoint c) else none } ∧
      railSupports c (t.effectivePoint c) t) := by
  unfold State.startCluster
  cases live : before.clusterLive c with
  | true =>
    refine ⟨rfl, rfl, rfl, fun m _ => clPwr_congr limits m, fun _ => ⟨clPwr_congr limits c, rfl⟩, fun off => ?_⟩
    exact absurd off (by decide)
  | false =>
    rw [if_neg (by decide)]
    dsimp only
    generalize new_eq : ({ s.clPwr c with point := 0, want := none } : ClPwr) = new
    have own : (s.setClPwr c new).clPwr c = new := clPwr_setClPwr_self _ _ _
    have others (m : Nat) (ne : m ≠ c) : (s.setClPwr c new).clPwr m = before.clPwr m := by
      rw [clPwr_setClPwr, if_neg ne, clPwr_congr limits]
    have slu : (s.setClPwr c new).slu = s.slu := rfl
    have part : (s.setClPwr c new).dev.part = s.dev.part := rfl
    have lives : (s.setClPwr c new).weir.live = s.weir.live := rfl
    have waking : (s.setClPwr c new).weir.waking = s.weir.waking := rfl
    generalize s.setClPwr c new = low at *
    have k := repoint_keeps (.refl low) c (Within.mem _)
    refine ⟨(k.slu_eq (by decide)).trans slu, (k.weir.live.resolve_left (by decide)).trans lives,
      (k.weir.waking.resolve_left (by decide)).trans waking, fun m ne => ?_, fun on => absurd on (by decide),
      fun _ present runs => ?_⟩
    · rw [(repoint_clPwr low c m).2 ne, others m ne]
    · rw [← part] at present
      rw [← clPwr_congr limits] at runs
      obtain ⟨up, down, rail⟩ := repoint_moves (s := low) (n := c) (by rw [own, ← new_eq]; exact runs) present
      have zero : (low.clPwr c).point = 0 := by rw [own, ← new_eq]
      have moved : (low.repoint c).clPwr c = { low.clPwr c with
          point := 0, want := if 0 < low.effectivePoint c then some (low.effectivePoint c) else none } := by
        by_cases rises : 0 < low.effectivePoint c
        · rw [up (by rw [zero]; exact rises), if_pos rises, ← zero]
        · rw [down (by omega), if_neg rises, Nat.eq_zero_of_not_pos rises]
      have same : (low.repoint c).effectivePoint c = low.effectivePoint c := by
        refine effectivePoint_congr (repoint_same low c).1 k.part (fun m => ⟨?_, (repoint_clPwr low c m).1⟩)
          (repoint_same low c).2.2.1 (k.slu.groups.resolve_left (by decide)) c
        by_cases e : m = c
        · rw [e, moved, zero]
        · rw [(repoint_clPwr low c m).2 e]
      rw [same]
      refine ⟨moved.trans ?_, rail⟩
      rw [own, ← new_eq, clPwr_congr limits]

/-! ## Clocks (R352, R354) -/

/-- The check after a cluster `n` has come to point `p` or awaits it, in terms of the state before. -/
theorem sprintStays_iff {s b : State} {n p : Nat} (same : SameLimits s b)
    (others : ∀ m, m ≠ n → b.clPwr m = s.clPwr m)
    (own : 6 ≤ max (b.clPwr n).point ((b.clPwr n).want.getD 0) ↔ 6 ≤ p) : b.sprintStays ↔
    (∃ m < 4, s.sprintAllowed m = true) ∧ ∃ m < 4, s.clusterLive m = true ∧
      6 ≤ if m = n then p else max (s.clPwr m).point ((s.clPwr m).want.getD 0) := by
  unfold State.sprintStays
  rw [sprinting_iff]
  refine and_congr (exists_congr fun m => and_congr_right fun _ => by rw [same.sprintAllowed])
    (exists_congr fun m => and_congr_right fun _ => ?_)
  rw [clusterLive_congr same.part same.live]
  refine and_congr_right fun _ => ?_
  by_cases e : m = n
  · rw [if_pos e, e]
    exact own
  · rw [if_neg e, others m e]

/-- A clock switches to a point (R352), and the sprint is checked over the change (R370). -/
theorem clockSwitch_spec (s : State) (n q : Nat) :
    let t := (State.settleRail (s.setClPwr n { s.clPwr n with point := q, want := none })).sprintCheck
    let stays : Prop := (∃ m < 4, s.sprintAllowed m = true) ∧ ∃ m < 4, s.clusterLive m = true ∧
      6 ≤ if m = n then q else max (s.clPwr m).point ((s.clPwr m).want.getD 0)
    (s.weir.sprint.on = false ∨ stays →
      t.weir.sprint = s.weir.sprint ∧ t.icu = s.icu ∧ (∀ m, m ≠ n → t.clPwr m = s.clPwr m) ∧
      t.clPwr n = { s.clPwr n with point := q, want := none } ∧ railSupports n q t) ∧
    (s.weir.sprint.on = true → ¬ stays → sprintEnds 0x7006#16 s t) := by
  generalize new_eq : ({ s.clPwr n with point := q, want := none } : ClPwr) = new
  have limits : new.likeLimits (s.clPwr n) := by rw [← new_eq]; exact ClPwr.likeLimits_refl _
  have top : max new.point (new.want.getD 0) = q := by rw [← new_eq]; exact Nat.max_eq_left (Nat.zero_le _)
  have supports : railSupports n q (s.setClPwr n new).settleRail :=
    settleRail_railSupports (by rw [clPwr_setClPwr_self, top])
  have cls (m : Nat) : (s.setClPwr n new).settleRail.clPwr m = if m = n then new else s.clPwr m := by
    rw [clPwr_congr (settleRail_spec _).1, clPwr_setClPwr]
  obtain ⟨-, regs, icu, sprint, -, life⟩ := settleRail_spec (s.setClPwr n new)
  have k := settleRail_keeps (setClPwr_keeps (.refl s) n new fun c m => List.mem_append_right setRailChanges m)
    fun c m => List.mem_append_left _ m
  generalize (s.setClPwr n new).settleRail = b at *
  have same : SameLimits s b := by
    refine ⟨regs, k.part, k.weir.live.resolve_left (by decide), k.slu.groups.resolve_left (by decide), fun m => ?_⟩
    rw [cls]
    split
    · next own => rw [own]; exact limits
    · exact ClPwr.likeLimits_refl _
  have stays := sprintStays_iff (n := n) (p := q) same (fun m ne => by rw [cls, if_neg ne])
    (by rw [cls, if_pos rfl, top])
  refine ⟨fun goes => ?_, fun was ends => ?_⟩
  · rw [sprintCheck_eq (goes.imp (by rw [sprint]; exact id) stays.2)]
    exact ⟨sprint, icu, fun m ne => by rw [cls, if_neg ne], by rw [cls, if_pos rfl], supports⟩
  · refine sprintEnds_congr (sprintCheck_ends (by rw [sprint]; exact was) (fun h => ends (stays.1 h))) sprint
      ⟨(k.dev.aoNs.resolve_left (by decide)).symm, ?_⟩ icu.symm (srcMode_congr (reg_congr regs _ _ _)).symm
    unfold State.clocked
    rw [life]
    rfl

/-- Settles O17: gating by `gated_sprintCheck`, waking by `startCluster_spec`, clocks by `repoint_moves`. -/
theorem domainsAndClocks : Obligations.DomainsAndClocks := by
  refine ⟨⟨fun d s => ?_, fun d s => ?_, fun d s => ?_⟩, fun n s => ?_, fun n s => ?_⟩
  · obtain ⟨b, eq, g⟩ := powerGate_gated s d
    have kept := execPowerGate_keeps (.refl s) d (Within.mem _)
    rw [eq] at kept
    refine completes_if Iff.rfl eq kept (by decide) fun _ => ?_
    obtain ⟨off, on⟩ := gated_sprintCheck g
    have k := sprintCheck_keeps (.refl b) (Within.mem _)
    have live : b.sprintCheck.weir.live = s.weir.live.filter (fun x => x != d) :=
      (k.weir.live.resolve_left (by decide)).trans (by rw [g.weir])
    have slu : b.sprintCheck.slu = b.slu := k.slu_eq (by decide)
    have cores (m : Nat) : b.sprintCheck.core m = if d = .core m then (s.core m).gate else s.core m :=
      (core_congr (congrArg Sluice.cores slu) m).trans (g.core m)
    have basins (m : Nat) : b.sprintCheck.basin m = if d = .basin m then [] else s.basin m :=
      (basin_congr (congrArg Sluice.basins slu) m).trans (g.basin m)
    have cache : b.sprintCheck.trk.cache = if d = .track then [] else s.trk.cache :=
      (k.trk.cache.resolve_left (by decide)).trans g.cache
    obtain ⟨gone, others⟩ := domainLive_gated (s := s) live
    refine ⟨gone, others, fun m own => ?_, fun m ne => by rw [cores, if_neg ne], fun m own => by rw [basins, if_pos own],
      fun m ne => by rw [basins, if_neg ne], fun own => by rw [cache, if_pos own], fun ne => by rw [cache, if_neg ne],
      fun m j own hm hj => ?_, off, on⟩
    · rw [cores, if_pos own]
      exact ⟨rfl, rfl, rfl, rfl, rfl, rfl, rfl, rfl, rfl⟩
    · rw [k.reg_eq (by decide) (by decide) (regOk_decUsed (by omega))]
      exact g.used m j own hm hj
  · refine completes_if (by simp [and_assoc]) rfl (execDomainWake_keeps (.refl s) d (Within.mem _)) (by decide) fun _ => rfl
  · cases d with
    | core k =>
      refine completes_if (f := fun s => ((s.woken (.core k)).updCore k Core.wake).startCluster s (k / 8)) (by simp) rfl
        (execDomainWakeComplete_keeps (.refl s) (.core k) (Within.mem _)) (by decide) fun _ => ?_
      dsimp only
      generalize base_eq : (s.woken (.core k)).updCore k Core.wake = base
      have weir : base.weir = (s.woken (.core k)).weir := by rw [← base_eq]; rfl
      have part : base.dev.part = s.dev.part := by rw [← base_eq]; rfl
      obtain ⟨slu, live, waking, others, runs, starts⟩ :=
        startCluster_spec (s := base) (before := s) (c := k / 8) (by rw [weir]; rfl)
      generalize base.startCluster s (k / 8) = t at *
      obtain ⟨on, rest⟩ := domainLive_woken (s := s) (t := t) (live.trans (congrArg Weir.live weir))
      refine ⟨on, rest, waking.trans (congrArg Weir.waking weir), fun m => ?_, ?_⟩
      · rw [core_congr (congrArg Sluice.cores slu), ← base_eq]
        refine (core_setCore (s.woken (.core k)) k m _).trans ?_
        by_cases own : m = k
        · subst own
          rw [if_pos rfl]
          rw [show (s.woken (.core m)).core m = s.core m from rfl]
          unfold Core.wake
          by_cases gated : (s.core m).st = .gated
          · rw [if_pos gated, if_pos ⟨rfl, gated⟩]
          · rw [if_neg gated, if_neg fun h => gated h.2]
        · rw [if_neg own, if_neg (fun h => own (Domain.core.inj h.1).symm)]
          rfl
      · rintro c (h | ⟨m, h, rfl⟩)
        · cases h
        · obtain rfl := Domain.core.inj h
          exact ⟨others, fun alive => ⟨(runs alive).1, (runs alive).2.trans (by rw [weir]; rfl)⟩,
            fun dead present => starts dead (by rw [part]; exact present)⟩
    | basin k =>
      refine completes_if (f := fun s => (s.woken (.basin k)).startCluster s k) (by simp) rfl
        (execDomainWakeComplete_keeps (.refl s) (.basin k) (Within.mem _)) (by decide) fun _ => ?_
      dsimp only
      obtain ⟨slu, live, waking, others, runs, starts⟩ := startCluster_spec (s := s.woken (.basin k)) (before := s) (c := k) rfl
      generalize (s.woken (.basin k)).startCluster s k = t at *
      obtain ⟨on, rest⟩ := domainLive_woken (s := s) (t := t) live
      refine ⟨on, rest, waking, fun m => ?_, ?_⟩
      · rw [if_neg (fun h => nomatch h.1)]
        exact core_congr (congrArg Sluice.cores slu) m
      · rintro c (h | ⟨m, h, -⟩)
        · obtain rfl := Domain.basin.inj h
          exact ⟨others, runs, starts⟩
        · cases h
    | decode k =>
      refine completes_if (f := fun s => s.woken (.decode k)) (by simp) rfl
        (execDomainWakeComplete_keeps (.refl s) (.decode k) (Within.mem _)) (by decide) fun _ => ?_
      obtain ⟨on, rest⟩ := domainLive_woken (d := .decode k) (s := s) (t := s.woken (.decode k)) rfl
      exact ⟨on, rest, rfl, fun m => (if_neg (fun h => nomatch h.1)).symm, fun c h => nomatch h⟩
    | pixel =>
      refine completes_if (f := fun s => s.woken .pixel) (by simp) rfl
        (execDomainWakeComplete_keeps (.refl s) .pixel (Within.mem _)) (by decide) fun _ => ?_
      obtain ⟨on, rest⟩ := domainLive_woken (d := .pixel) (s := s) (t := s.woken .pixel) rfl
      exact ⟨on, rest, rfl, fun m => (if_neg (fun h => nomatch h.1)).symm, fun c h => nomatch h⟩
    | track =>
      refine completes_if (f := fun s => s.woken .track) (by simp) rfl
        (execDomainWakeComplete_keeps (.refl s) .track (Within.mem _)) (by decide) fun _ => ?_
      obtain ⟨on, rest⟩ := domainLive_woken (d := .track) (s := s) (t := s.woken .track) rfl
      exact ⟨on, rest, rfl, fun m => (if_neg (fun h => nomatch h.1)).symm, fun c h => nomatch h⟩
  · refine completes_of rfl (execOperatingPointChange_keeps (.refl s) n (Within.mem _)) (by decide) ?_
    dsimp only
    by_cases on : s.clocked = true ∧ n < 4
    · obtain ⟨clocked, hn⟩ := on
      rw [when_eq s (by simp [clocked, hn])]
      refine ⟨fun off => ?_, fun stopped calm => ?_, fun _ _ runs present => ?_⟩
      · rcases off with off | off
        · exact absurd (clocked.symm.trans off) (by decide)
        · omega
      · rw [repoint_stays (.inl stopped), sprintCheck_eq (.inl calm)]
      · obtain ⟨up, down, supports⟩ := repoint_moves runs present
        obtain ⟨regs, icu, sprint, -⟩ := repoint_same s n
        have dev : (s.repoint n).dev.aoNs = s.dev.aoNs ∧ (s.repoint n).clocked = s.clocked := by
          have k := (repoint_keeps (.refl s) n (Within.mem _)).dev
          unfold State.clocked
          rw [k.life.resolve_left (by decide)]
          exact ⟨k.aoNs.resolve_left (by decide), rfl⟩
        have stays := sprintStays_iff (n := n) (p := s.effectivePoint n) (repoint_sameLimits s n)
          (fun m ne => (repoint_clPwr s n m).2 ne) (by
            by_cases rises : (s.clPwr n).point < s.effectivePoint n
            · rw [up rises]
              simp only [Option.getD_some]
              omega
            · rw [down (by omega)]
              simp)
        refine ⟨fun goes => ?_, fun was ends => ?_⟩
        · rw [sprintCheck_eq (goes.imp (by rw [sprint]; exact id) stays.2)]
          exact ⟨sprint, icu, fun m ne => (repoint_clPwr s n m).2 ne, fun rises => ⟨up rises, supports⟩, down⟩
        · exact sprintEnds_congr (sprintCheck_ends (by rw [sprint]; exact was) (fun h => ends (stays.1 h))) sprint
            ⟨dev.1.symm, dev.2.symm⟩ icu.symm (srcMode_congr (reg_congr regs _ _ _)).symm
    · rw [when_neg s (by simpa using on)]
      exact ⟨fun _ => rfl, fun _ _ => rfl, fun clocked hn => absurd ⟨clocked, hn⟩ on⟩
  · refine completes_of rfl (execClockSwitch_keeps (.refl s) n (Within.mem _)) (by decide) ?_
    dsimp only
    cases awaits : (s.clPwr n).want with
    | none => exact ⟨fun p some => absurd some (by simp), fun _ => rfl⟩
    | some p =>
      dsimp only
      by_cases on : s.clocked = true ∧ (s.clPwr n).stopped = false ∧
          s.needMv (min p (s.effectivePoint n)) ≤ s.weir.railMv
      · obtain ⟨clocked, runs, supports⟩ := on
        rw [when_eq s (by simp [clocked, runs, supports])]
        refine ⟨fun q some _ _ _ => ?_, fun held => ?_⟩
        · obtain rfl := Option.some.inj some
          exact clockSwitch_spec s n _
        · rcases held with none | off | stopped | ⟨q, some, low⟩
          · exact absurd none (by simp)
          · exact absurd (clocked.symm.trans off) (by decide)
          · exact absurd (runs.symm.trans stopped) (by decide)
          · obtain rfl := Option.some.inj some
            exact absurd supports low
      · rw [when_neg s (by simpa [and_assoc] using on)]
        refine ⟨fun q some clocked runs supports => ?_, fun _ => rfl⟩
        obtain rfl := Option.some.inj some
        exact absurd ⟨clocked, runs, supports⟩ on

end Sys2Proof.Machine
end

section
/-! SUPPORT. What DRAM requests leave of a controller's recalibration (R335): `Recals P u s` says that each controller has in
`s` the recalibration that it had in `u`, or one that `P` allows. One lemma per function carries it on. -/

set_option Elab.async false

namespace Sys2Proof.Machine

/-- Each controller's recalibration is the same in two states, or is one that `P` allows for the controller. -/
structure Recals (P : Nat → Option (Nat × SMap W32) → Prop) (u s : State) : Prop where
  all : ∀ d, (s.dmc d).recal = (u.dmc d).recal ∨ P d (s.dmc d).recal

section
variable {P : Nat → Option (Nat × SMap W32) → Prop} {u : State}

theorem Recals.refl (s : State) : Recals P s s := ⟨fun _ => .inl rfl⟩

theorem Recals.of_dmcs {s t : State} (h : Recals P u s) (e : t.dram.dmcs = s.dram.dmcs) : Recals P u t := by
  refine ⟨fun d => ?_⟩
  rw [dmc_congr e]
  exact h.all d

theorem Recals.after {cs : List Comp} {s t : State} (k : Keeps (fun c => c ∈ cs) s t) (no : .dramDmcs ∉ cs)
    (h : Recals P u s) : Recals P u t := h.of_dmcs (k.dram.dmcs.resolve_left no)

/-- A record update that leaves the controllers. -/
theorem recals_mk {s : State} {pending : List Instr} {out : List OutMsg} {fi : Nat} {dev : Dev} {fns : SMap FnState}
    {regs : SMap W64} {ldr : Loader} {dram : Dram} {pools : List Pool} {ing : Ingest} {trk : TrackEng} {slu : Sluice}
    {weir : Weir} {icu : Icu} {thy : Thyme} {sage : Sage} (h : Recals P u s) (e : dram.dmcs = s.dram.dmcs := by rfl) :
    Recals P u (State.mk pending out fi dev fns regs ldr dram pools ing trk slu weir icu thy sage) := h.of_dmcs e

theorem setReg_recals {s : State} (h : Recals P u s) (r : Reg) (k i : Nat) (v : W64) : Recals P u (s.setReg r k i v) :=
  h.of_dmcs (by simp)

theorem updReg_recals {s : State} (h : Recals P u s) (r : Reg) (k i : Nat) (f : W64 → W64) :
    Recals P u (s.updReg r k i f) := h.of_dmcs (by simp)

theorem count_recals {s : State} (h : Recals P u s) (r : Reg) (k : Nat) : Recals P u (s.count r k) := h.of_dmcs (by simp)

theorem addTo_recals {s : State} (h : Recals P u s) (r : Reg) (k n : Nat) : Recals P u (s.addTo r k n) :=
  h.of_dmcs (by simp)

theorem setPoison_recals {s : State} (h : Recals P u s) (b : Nat) (v : Bool) : Recals P u (s.setPoison b v) :=
  h.of_dmcs rfl

theorem setDramBytes_recals {s : State} (h : Recals P u s) (m : Mem) : Recals P u (s.setDramBytes m) := h.of_dmcs rfl

theorem when_recals {s : State} (h : Recals P u s) (c : Bool) {f : State → State} (hf : Recals P u (f s)) :
    Recals P u (s.when c f) := by
  unfold State.when
  split
  · exact hf
  · exact h

/-- A controller's log, counters or training row, and its recalibration where `P` allows the new one. -/
theorem setDmc_recals {s : State} (h : Recals P u s) (d : Nat) (x : Dmc)
    (e : x.recal = (s.dmc d).recal ∨ P d x.recal := by exact .inl rfl) : Recals P u (s.setDmc d x) := by
  refine ⟨fun k => ?_⟩
  rw [dmc_setDmc]
  by_cases own : k = d
  · rw [if_pos own, own]
    rcases e with e | e
    · rw [e]
      exact h.all d
    · exact .inr e
  · rw [if_neg own]
    exact h.all k

theorem elog_recals {s : State} (h :
    Recals P u s) (status : W16) (unit : Nat) (index : Nat) (ctx : Nat) (fn : Nat) (detail : W64) : Recals P u (State.elog s status unit index ctx fn detail) :=
  .after (elog_keeps (.refl _) status unit index ctx fn detail (Within.mem _)) (by decide) h

theorem adviseGroup_recals {s : State} (h : Recals P u s) (l : BlockLoc) : Recals P u (State.adviseGroup s l) :=
  .after (adviseGroup_keeps (.refl _) l (Within.mem _)) (by decide) h

theorem chErr_recals {s : State} (h :
    Recals P u s) (l : BlockLoc) (lo : Nat) (len : Nat) : Recals P u (State.chErr s l lo len) :=
  .after (chErr_keeps (.refl _) l lo len (Within.mem _)) (by decide) h

theorem useFind_recals {s : State} (h : Recals P u s) (port : Nat) (b : Nat) : Recals P u (State.useFind s port b) :=
  .after (useFind_keeps (.refl _) port b (Within.mem _)) (by decide) h

theorem keepFind_recals {s : State} (h :
    Recals P u s) (port : Nat) (b : Nat) (bad : Bool) : Recals P u (State.keepFind s port b bad) :=
  .after (keepFind_keeps (.refl _) port b bad (Within.mem _)) (by decide) h

theorem countWrite_recals {s : State} (h : Recals P u s) (b : Nat) : Recals P u (State.countWrite s b) :=
  .after (countWrite_keeps (.refl _) b (Within.mem _)) (by decide) h

theorem mergeRead_recals {s : State} (h :
    Recals P u s) (port : Nat) (b : Nat) : Recals P u (State.mergeRead s port b) :=
  .after (mergeRead_keeps (.refl _) port b (Within.mem _)) (by decide) h

theorem complete_recals {s : State} (h :
    Recals P u s) (fn : Nat) (st : Cpl) (data : List Byte) : Recals P u (State.complete s fn st data) :=
  .after (complete_keeps (.refl _) fn st data (Within.mem _)) (by decide) h

theorem putList_recals {s : State} (h : Recals P u s) (x1 : List (Nat × Byte)) : Recals P u (State.putList s x1) :=
  .after (putList_keeps (.refl _) x1 (Within.mem _)) (by decide) h

theorem aerCorrectable_recals {s : State} (h :
    Recals P u s) (fn : Nat) (b : Nat) : Recals P u (State.aerCorrectable s fn b) :=
  .after (aerCorrectable_keeps (.refl _) fn b (Within.mem _)) (by decide) h

theorem epWrite_recals {s : State} (h : Recals P u s) (fn : Nat) : Recals P u (State.epWrite s fn) :=
  .after (epWrite_keeps (.refl _) fn (Within.mem _)) (by decide) h

theorem hold_recals {s : State} (h : Recals P u s) (q : DramReq) : Recals P u (State.hold s q) :=
  .after (hold_keeps (.refl _) q (Within.mem _)) (by decide) h

theorem dmcLog_recals {s : State} (h :
    Recals P u s) (l : BlockLoc) (kind : Nat) (port : Nat) : Recals P u (State.dmcLog s l kind port) := by
  unfold State.dmcLog
  repeat' first
    | with_reducible first
      | assumption | apply elog_recals | refine setDmc_recals ?_ _ _
    | intro _ | split | dsimp only

theorem poisonSeen_recals {s : State} (h :
    Recals P u s) (port : Nat) (b : Nat) : Recals P u (State.poisonSeen s port b) := by
  unfold State.poisonSeen
  repeat' first
    | with_reducible first
      | assumption | apply adviseGroup_recals | apply dmcLog_recals | apply chErr_recals
    | intro _ | split | dsimp only

theorem blockRead_recals {s : State} (h :
    Recals P u s) (port : Nat) (b : Nat) (f : ReadFound) (second : List Byte) (partialRead : Bool) : Recals P u (State.blockRead s port b f second partialRead) := by
  unfold State.blockRead
  repeat' first
    | with_reducible first
      | assumption | apply addTo_recals | apply adviseGroup_recals | apply dmcLog_recals | apply chErr_recals
      | apply setPoison_recals | apply setDramBytes_recals | apply poisonSeen_recals
    | intro _ | split | dsimp only

theorem visitBlock_recals {s : State} (h :
    Recals P u s) (port : Nat) (b : Nat) : Recals P u (State.visitBlock s port b) := by
  unfold State.visitBlock
  repeat' first
    | with_reducible first
      | assumption | apply useFind_recals | apply addTo_recals | apply poisonSeen_recals
    | intro _ | split | dsimp only

theorem visitBlocks_recals {s : State} (h :
    Recals P u s) (port : Nat) (b : Nat) (x3 : Nat) : Recals P u (State.visitBlocks s port b x3) := by
  induction x3 generalizing s port b with
  | zero => exact h
  | succ y ih =>
    unfold State.visitBlocks
    repeat' first
      | with_reducible first
        | assumption | apply ih | apply visitBlock_recals
      | intro _ | split | dsimp only

theorem visit_recals {s : State} (h :
    Recals P u s) (port : Nat) (a : Nat) (n : Nat) : Recals P u (State.visit s port a n) := by
  unfold State.visit
  repeat' first
    | with_reducible first
      | assumption | apply visitBlocks_recals
    | intro _ | split | dsimp only

theorem visitAll_recals {s : State} (h :
    Recals P u s) (port : Nat) (x2 : List (Nat × Nat)) : Recals P u (State.visitAll s port x2) := by
  induction x2 generalizing s port with
  | nil => exact h
  | cons y ys ih =>
    unfold State.visitAll
    repeat' first
      | with_reducible first
        | assumption | apply ih | apply visit_recals
      | intro _ | split | dsimp only

theorem putBlock_recals {s : State} (h :
    Recals P u s) (port : Nat) (a : Nat) (data : List Byte) : Recals P u (State.putBlock s port a data) := by
  unfold State.putBlock
  repeat' first
    | with_reducible first
      | assumption | apply countWrite_recals | apply setPoison_recals | apply setDramBytes_recals
      | apply mergeRead_recals | apply dmcLog_recals
    | intro _ | split | dsimp only

theorem portRead_recals {s : State} (h :
    Recals P u s) (port : Nat) (b : Nat) (firstBad : Bool) (secondBad : Bool) (second : List Byte) : Recals P u (State.portRead s port b firstBad secondBad second) := by
  unfold State.portRead
  repeat' first
    | with_reducible first
      | assumption | apply blockRead_recals | apply keepFind_recals
    | intro _ | split | dsimp only

theorem portWrite_recals {s : State} (h :
    Recals P u s) (port : Nat) (b : Nat) (data : List Byte) : Recals P u (State.portWrite s port b data) := by
  unfold State.portWrite
  repeat' first
    | with_reducible first
      | assumption | apply putBlock_recals
    | intro _ | split | dsimp only

theorem portPart_recals {s : State} (h :
    Recals P u s) (port : Nat) (addr : Nat) (data : List Byte) (firstBad : Bool) (secondBad : Bool) (second : List Byte) : Recals P u (State.portPart s port addr data firstBad secondBad second) := by
  unfold State.portPart
  repeat' first
    | with_reducible first
      | assumption | apply blockRead_recals | apply dmcLog_recals | apply countWrite_recals
      | apply setDramBytes_recals
    | intro _ | split | dsimp only

theorem bar2Read_recals {s : State} (h : Recals P u s) (a : Nat) (n : Nat) : Recals P u (State.bar2Read s a n) := by
  unfold State.bar2Read
  repeat' first
    | with_reducible first
      | assumption | apply complete_recals | apply visitAll_recals | apply count_recals
    | fail_if_no_progress with_reducible refine recals_mk ?_ | intro _ | split | dsimp only

theorem bar2Block_recals {s : State} (h :
    Recals P u s) (ep : Bool) (part : List (Nat × Byte)) : Recals P u (State.bar2Block s ep part) := by
  unfold State.bar2Block
  repeat' first
    | with_reducible first
      | assumption | apply countWrite_recals | apply setPoison_recals | apply putList_recals | apply mergeRead_recals
      | apply aerCorrectable_recals | apply setReg_recals | apply count_recals | apply dmcLog_recals
    | intro _ | split | dsimp only

theorem bar2Blocks_recals {s : State} (h :
    Recals P u s) (ep : Bool) (bytes : List (Nat × Byte)) (b : Nat) (x4 : Nat) : Recals P u (State.bar2Blocks s ep bytes b x4) := by
  induction x4 generalizing s ep bytes b with
  | zero => exact h
  | succ y ih =>
    unfold State.bar2Blocks
    repeat' first
      | with_reducible first
        | assumption | apply ih | apply bar2Block_recals
      | intro _ | split | dsimp only

theorem bar2Write_recals {s : State} (h :
    Recals P u s) (a : Nat) (data : List Byte) (ep : Bool) : Recals P u (State.bar2Write s a data ep) := by
  unfold State.bar2Write
  repeat' first
    | with_reducible first
      | assumption | apply epWrite_recals | apply bar2Blocks_recals
    | fail_if_no_progress with_reducible refine recals_mk ?_ | intro _ | split | dsimp only

theorem perform_recals {s : State} (h : Recals P u s) (x1 : DramReq) : Recals P u (State.perform s x1) := by
  unfold State.perform
  repeat' first
    | with_reducible first
      | assumption | apply portRead_recals | apply portWrite_recals | apply portPart_recals | apply bar2Read_recals
      | apply bar2Write_recals
    | intro _ | split | dsimp only

theorem request_recals {s : State} (h : Recals P u s) (q : DramReq) : Recals P u (State.request s q) := by
  unfold State.request
  repeat' first
    | with_reducible first
      | assumption | apply perform_recals | apply hold_recals
    | intro _ | split | dsimp only

theorem requests_recals {s : State} (h : Recals P u s) (x1 : List DramReq) : Recals P u (State.requests s x1) := by
  induction x1 generalizing s with
  | nil => exact h
  | cons y ys ih =>
    unfold State.requests
    repeat' first
      | with_reducible first
        | assumption | apply ih | apply request_recals
      | intro _ | split | dsimp only

theorem releasePorts_recals {s : State} (h : Recals P u s) : Recals P u (State.releasePorts s) := by
  unfold State.releasePorts
  repeat' first
    | with_reducible first
      | assumption | apply requests_recals
    | fail_if_no_progress with_reducible refine recals_mk ?_ | intro _ | split | dsimp only

end

end Sys2Proof.Machine
end

section
/-! SUPPORT. The DRAM controllers' refresh, recalibration, training and drift (R332 to R336). -/

set_option Elab.async false

namespace Sys2Proof.Machine

/-- With no request held at its port, none goes on. -/
theorem releasePorts_none {s : State} (h : s.dram.held = []) : s.releasePorts = s := by
  unfold State.releasePorts
  rw [h]
  unfold State.requests
  rw [← h]

/-- The requests that go on leave every recalibration as it is. -/
theorem releasePorts_recal (s : State) (d : Nat) : (s.releasePorts.dmc d).recal = (s.dmc d).recal :=
  ((releasePorts_recals (P := fun _ _ => False) (.refl s)).all d).resolve_right id

theorem releasePorts_reg (s : State) {r : Reg} {u i : Nat} (h : .reg r ∉ releasePortsChanges) (ok : regOk r u i = true) :
    s.releasePorts.reg r u i = s.reg r u i :=
  (releasePorts_keeps (.refl s) (Within.mem _)).reg_eq (by decide) h ok

theorem putRegs_dmc (s : State) (m : SMap W64) (d : Nat) : ({ s with regs := m } : State).dmc d = s.dmc d := rfl

theorem putPass_reg (s : State) {d : Nat} (hd : d < 2) (pass : BitVec 136) {n : Nat} (hn : n ≤ 5) {w : Nat} (hw : w < n) :
    (s.putPass d pass n).reg .DMC_TRAIN_PASS d w = ((pass >>> (32 * w)).setWidth 32).setWidth 64 := by
  have ok (k : Nat) (hk : k < 5) : regOk .DMC_TRAIN_PASS d k = true := (regOk_dmc1 hd).2.2.2.2.2.2.2 k hk
  have kept (s : State) (m : Nat) (k : Nat) (hk : k < 5) (le : m ≤ k) :
      (s.putPass d pass m).reg .DMC_TRAIN_PASS d k = s.reg .DMC_TRAIN_PASS d k := by
    induction m generalizing s with
    | zero => rfl
    | succ m ih =>
      unfold State.putPass
      rw [ih _ (by omega), reg_setReg_other _ _ (ok k hk) (.inr (.inr (by omega)))]
  induction n generalizing s with
  | zero => omega
  | succ n ih =>
    unfold State.putPass
    by_cases own : w = n
    · subst own
      rw [kept _ _ _ (by omega) (Nat.le_refl _), reg_setReg_self _ _ (ok w (by omega))]
    · exact ih _ (by omega) (by omega)

/-- A delay register outside recalibration takes no write (R334). -/
theorem writeDelay_discards {s : State} {l : RegLoc} (v : W64)
    (h : ∀ g old, (s.dmc l.unit).recal = some (g, old) → delayChannel l / 8 ≠ g) :
    s.writeDelay l v = s.updReg .DMC_STATUS l.unit 0 (fun x => putBit x 0 true) := by
  unfold State.writeDelay
  cases recal : (s.dmc l.unit).recal with
  | none => rfl
  | some x => exact if_neg (h x.1 x.2 recal)

theorem writeDelay_stores {s : State} {l : RegLoc} (v : W64) {g : Nat} {old : SMap W32}
    (h : (s.dmc l.unit).recal = some (g, old)) (own : delayChannel l / 8 = g) :
    s.writeDelay l v = s.setReg l.row.name l.unit l.idx (v &&& BitVec.ofNat 64 l.row.mask) := by
  unfold State.writeDelay
  rw [h]
  exact if_pos own

/-- An end or ending of a recalibration: what comes before the requests that waited. -/
theorem recalDone_spec {s b : State} {d : Nat} {x : Dmc} (hx : x.recal = none) (dmcs : ∀ e, b.dmc e = (s.setDmc d x).dmc e)
    (dram : b.dram.bytes = s.dram.bytes ∧ b.dram.poison = s.dram.poison ∧ b.dram.held = s.dram.held) (out : b.out = s.out) :
    (b.releasePorts.dmc d).recal = none ∧
    (s.dram.held = [] → b.releasePorts.dram.bytes = s.dram.bytes ∧ b.releasePorts.dram.poison = s.dram.poison ∧
      b.releasePorts.out = s.out ∧ ∀ e, e ≠ d → b.releasePorts.dmc e = s.dmc e) := by
  obtain ⟨bytes, poison, held⟩ := dram
  refine ⟨?_, fun none => ?_⟩
  · rw [releasePorts_recal, dmcs, dmc_setDmc_self, hx]
  · rw [releasePorts_none (held.trans none)]
    exact ⟨bytes, poison, out, fun e ne => by rw [dmcs, dmc_setDmc, if_neg ne]⟩

/-- A start (R335), from an idle controller. -/
theorem recalStart_idle {s : State} {d g : Nat} (h : (towerPresent s.dev.part d && decide (g < 4)) = true)
    (idle : (s.dmc d).recal = none) :
    s.recalStart d g =
      (s.setDmc d { s.dmc d with recal := some (g, s.groupDelays d g), recalStartNs := s.nowNs }).recalStatus d 0 := by
  unfold State.recalStart
  rw [when_eq s h]
  dsimp only
  rw [idle]

/-- A start (R335), where a group is in recalibration already. -/
theorem recalStart_busy {s : State} {d g h : Nat} {old : SMap W32}
    (hp : (towerPresent s.dev.part d && decide (g < 4)) = true) (busy : (s.dmc d).recal = some (h, old)) :
    s.recalStart d g = if h = g then s else s.recalStatus d Status.recalBusy := by
  unfold State.recalStart
  rw [when_eq s hp]
  dsimp only
  rw [busy]

/-- An end (R335), or nothing. -/
theorem recalEnd_eq {s : State} {d g : Nat} {old : SMap W32} (busy : (s.dmc d).recal = some (g, old)) :
    s.recalEnd d =
      (((s.setDmc d { s.dmc d with recal := none, training := none }).recalStatus d 0).calTemp d g).releasePorts := by
  unfold State.recalEnd
  rw [busy]

/-- An ending otherwise (R335), with the delays of the start restored. -/
theorem recalStop_eq {s : State} {d g : Nat} {old : SMap W32} (st : W16) (busy : (s.dmc d).recal = some (g, old)) :
    s.recalStop d st =
      ((({ s with regs := putRegs (SMap.keep s.regs (fun k => !inDelays d g k)) old } : State).setDmc d
        { s.dmc d with recal := none, training := none }).recalStatus d st).releasePorts := by
  unfold State.recalStop
  rw [busy]
  rfl

theorem recalStop_idle {s : State} {d : Nat} (st : W16) (idle : (s.dmc d).recal = none) : s.recalStop d st = s := by
  unfold State.recalStop
  rw [idle]

/-- What an end leaves: the status, the temperature of the setting, and `recalDone_spec`. -/
theorem recalEnd_spec {s : State} {d g : Nat} {old : SMap W32} (busy : (s.dmc d).recal = some (g, old)) :
    ((s.recalEnd d).dmc d).recal = none ∧
    (d < 2 → (s.recalEnd d).reg .DMC_RECAL_STATUS d 0 = 0 ∧
      (s.recalEnd d).reg .DMC_TEMP_CAL d 0 =
        putByte (s.reg .DMC_TEMP_CAL d 0) g (field (s.regNat .DMC_TEMP d 0) (8 * g) 8)) ∧
    (s.dram.held = [] → (s.recalEnd d).dram.bytes = s.dram.bytes ∧ (s.recalEnd d).dram.poison = s.dram.poison ∧
      (s.recalEnd d).out = s.out ∧ ∀ e, e ≠ d → (s.recalEnd d).dmc e = s.dmc e) := by
  rw [recalEnd_eq busy]
  generalize hx : ({ s.dmc d with recal := none, training := none } : Dmc) = x
  obtain ⟨idle, rest⟩ := recalDone_spec (s := s) (b := ((s.setDmc d x).recalStatus d 0).calTemp d g) (d := d) (x := x)
    (by rw [← hx]) (fun e => dmc_congr (by simp [State.calTemp, State.recalStatus]) e)
    ⟨by simp [State.calTemp, State.recalStatus, State.setDmc], by simp [State.calTemp, State.recalStatus, State.setDmc],
      by simp [State.calTemp, State.recalStatus, State.setDmc]⟩ (by simp [State.calTemp, State.recalStatus, State.setDmc])
  refine ⟨idle, fun hd => ?_, rest⟩
  obtain ⟨-, -, status, cal, temp, -⟩ := regOk_dmc1 hd
  rw [releasePorts_reg _ (by decide) status, releasePorts_reg _ (by decide) cal]
  unfold State.calTemp
  rw [updReg_reg_other _ _ status (.inl (by decide)), updReg_reg _ _ _ _ _ cal]
  unfold State.recalStatus
  refine ⟨reg_setReg_self _ _ status, ?_⟩
  unfold State.regNat
  rw [reg_setReg_other _ _ cal (.inl (by decide)), reg_setReg_other _ _ temp (.inl (by decide))]
  rfl

/-- What an ending otherwise leaves: the status, and `recalDone_spec`. -/
theorem recalStop_spec {s : State} {d g : Nat} {old : SMap W32} (st : W16) (busy : (s.dmc d).recal = some (g, old)) :
    ((s.recalStop d st).dmc d).recal = none ∧
    (d < 2 → (s.recalStop d st).reg .DMC_RECAL_STATUS d 0 = st.setWidth 64) ∧
    (s.dram.held = [] → (s.recalStop d st).dram.bytes = s.dram.bytes ∧ (s.recalStop d st).dram.poison = s.dram.poison ∧
      (s.recalStop d st).out = s.out ∧ ∀ e, e ≠ d → (s.recalStop d st).dmc e = s.dmc e) := by
  rw [recalStop_eq st busy]
  generalize hx : ({ s.dmc d with recal := none, training := none } : Dmc) = x
  generalize putRegs _ _ = regs
  obtain ⟨idle, rest⟩ := recalDone_spec (s := s)
    (b := (({ s with regs := regs } : State).setDmc d x).recalStatus d st) (d := d) (x := x)
    (by rw [← hx]) (fun e => dmc_congr (by simp [State.recalStatus, State.setDmc]) e)
    ⟨by simp [State.recalStatus, State.setDmc], by simp [State.recalStatus, State.setDmc],
      by simp [State.recalStatus, State.setDmc]⟩ (by simp [State.recalStatus, State.setDmc])
  refine ⟨idle, fun hd => ?_, rest⟩
  obtain ⟨-, -, status, -⟩ := regOk_dmc1 hd
  rw [releasePorts_reg _ (by decide) status]
  exact reg_setReg_self _ _ status

theorem isDelay_name {l : RegLoc} (h : isDelay l = true) : l.row.name = .DMC_DLY ∨ l.row.name = .DMC_DLY_CA := by
  simpa [isDelay] using h

/-- A delay write touches the two kinds of delay register and the status. -/
theorem execDelayRegisterWrite_delays (s : State) (off : Nat) (v : W32) :
    KeepsOut (fun c => c ∈ [Comp.reg .DMC_DLY, .reg .DMC_DLY_CA, .reg .DMC_STATUS]) s (execDelayRegisterWrite off v s) := by
  unfold execDelayRegisterWrite
  apply KeepsOut.next
  split
  · next l _ =>
    unfold State.when
    split
    · next p =>
      have own : Comp.reg l.row.name ∈ [Comp.reg .DMC_DLY, .reg .DMC_DLY_CA, .reg .DMC_STATUS] := by
        rcases isDelay_name (Bool.and_eq_true .. ▸ p).1 with h | h <;> rw [h] <;> decide
      unfold State.writeDelay
      dsimp only
      split
      · split
        · exact setReg_keeps (.refl s) _ _ _ _ (.inr own)
        · exact updReg_keeps (.refl s) _ _ _ _ (.inr (by decide))
      · exact updReg_keeps (.refl s) _ _ _ _ (.inr (by decide))
    · exact .refl s
  · exact .refl s

/-- A count of refreshes after one more (R332). -/
theorem refreshes_add (m : SMap Nat) (a k : Nat) :
    SMap.get (fun _ => 0) (SMap.upd (fun _ => 0) m a (· + 1)) k =
      SMap.get (fun _ => 0) m k + (if k = a then 1 else 0) := by
  unfold SMap.upd
  rw [SMap.get_set]
  split
  · next h => rw [h]
  · rfl

/-- Settles O13: starts by `recalStart_idle` and `recalStart_busy`, ends by `recalEnd_spec` and `recalStop_spec`, delay
writes by `writeDelay_stores` and `writeDelay_discards`. -/
theorem refreshRecalibrationAndTraining : Obligations.RefreshRecalibrationAndTraining := by
  refine ⟨⟨fun ch bank s => ?_, fun s => ?_⟩, ⟨fun d g s => ?_, fun d s => ?_, fun d s => ?_⟩,
    ⟨fun d ch p s => ?_, fun d pass s => ?_, fun off v s => ?_, fun d g temp s => ?_⟩⟩
  · refine completes_if (by simp [and_assoc]) rfl (execBankRefresh_keeps (.refl s) ch bank (Within.mem _)) (by decide)
      fun _ d k => ?_
    dsimp only
    rw [dmc_setDmc]
    by_cases own : d = ch / 32
    · rw [if_pos own, ← own, refreshes_add]
      simp only [true_and]
    · rw [if_neg own, if_neg fun h => own h.1]
      rfl
  · exact completes_if (by simp) rfl (execSelfRefreshEntry_keeps (.refl s) (Within.mem _)) (by decide) fun _ => rfl
  · refine completes_of rfl (recalStart_keeps (.refl s) d g (Within.mem _)) (by decide) ?_
    split
    · next p =>
      have status := (regOk_dmc1 (tower_lt p.1)).2.2.1
      have p : (towerPresent s.dev.part d && decide (g < 4)) = true := by simpa using p
      refine ⟨fun h old busy other => ?_, fun old busy => ?_, fun idle => ?_⟩
      · rw [recalStart_busy p busy, if_neg other]
        exact ⟨by simp [State.recalStatus], reg_setReg_self _ _ status⟩
      · rw [recalStart_busy p busy, if_pos rfl]
      · rw [recalStart_idle p idle]
        have dmcs (x : Dmc) (e : Nat) : (State.recalStatus (s.setDmc d x) d 0).dmc e = (s.setDmc d x).dmc e :=
          dmc_congr (by simp [State.recalStatus]) e
        rw [dmcs, dmc_setDmc_self]
        exact ⟨rfl, rfl, reg_setReg_self _ _ status, fun e ne => by rw [dmcs, dmc_setDmc, if_neg ne]⟩
    · next p =>
      unfold State.recalStart
      exact when_neg s (by simpa using p) _
  · refine completes_of rfl (recalEnd_keeps (.refl s) d (Within.mem _)) (by decide +kernel) ?_
    cases busy : (s.dmc d).recal with
    | none =>
      unfold State.recalEnd
      rw [busy]
    | some x => exact recalEnd_spec busy
  · refine completes_of rfl (execRecalTimeout_keeps (.refl s) d (Within.mem _)) (by decide +kernel) ?_
    have held : s.coolantHeld = true ↔ s.weir.coolant ≠ .none := by simp [State.coolantHeld]
    have due : (s.coolantHeld || decide ((s.dmc d).recalStartNs + s.recalLimitNs d ≤ s.nowNs)) = true ↔
        s.weir.coolant ≠ .none ∨ (s.dmc d).recalStartNs + s.recalLimitNs d ≤ s.nowNs := by simp [held]
    refine ⟨fun h => ?_, fun busy is => ?_⟩
    · unfold State.when
      split
      · next is => exact recalStop_idle _ (h.resolve_right (not_not_intro (due.1 is)))
      · rfl
    · rw [when_eq s (due.2 is)]
      obtain ⟨⟨g, old⟩, busy⟩ := Option.ne_none_iff_exists'.1 busy
      obtain ⟨idle, status, rest⟩ := recalStop_spec (if s.coolantHeld then Status.recalStopped else Status.recalLimit) busy
      refine ⟨idle, fun hd => (status hd).trans ?_, rest⟩
      by_cases c : s.weir.coolant = .none
      · rw [if_pos c, if_neg fun h => held.1 h c]; rfl
      · rw [if_neg c, if_pos (held.2 c)]; rfl
  · refine completes_of rfl (train_keeps (.refl s) d ch p (Within.mem _)) (by decide) ?_
    unfold State.train
    cases recal : (s.dmc d).recal with
    | none => exact ⟨fun g old some => absurd some (by simp), fun _ => rfl⟩
    | some x =>
      obtain ⟨g, old⟩ := x
      dsimp only
      by_cases own : ch / 8 = g
      · rw [when_eq s (by simpa using own)]
        refine ⟨fun _ _ _ _ => ⟨dmc_setDmc_self _ _ _, fun e ne => ?_⟩, fun other => ?_⟩
        · rw [dmc_setDmc, if_neg ne]
        · obtain h | ⟨h, old', same, ne⟩ := other
          · exact absurd h (by simp)
          · exact absurd own (by cases same; exact ne)
      · rw [when_neg s (by simpa using own)]
        exact ⟨fun h old' same eq => absurd eq (by cases same; exact own), fun _ => rfl⟩
  · refine completes_if Iff.rfl rfl (execTrainingComplete_keeps (.refl s) d pass (Within.mem _)) (by decide) fun _ => ?_
    have dmcs (u : State) (n e : Nat) : (u.putPass d pass n).dmc e = u.dmc e := by
      induction n generalizing u with
      | zero => rfl
      | succ n ih =>
        unfold State.putPass
        exact (ih _).trans (dmc_congr (by simp) e)
    refine ⟨(dmcs _ _ _).trans (dmc_setDmc_self _ _ _), fun e ne => ?_, fun hd w hw => putPass_reg _ hd pass (by decide) hw⟩
    exact (dmcs _ _ _).trans ((dmc_setDmc _ _ _ _).trans (if_neg ne))
  · refine completes_of rfl (execDelayRegisterWrite_delays s off v) (fun _ => id) ?_
    refine ⟨fun l here delay tower => ?_, fun h => ?_⟩
    · rw [here]
      dsimp only
      rw [when_eq s (by simp [delay, tower])]
      have ok := (regAt_some here).2
      refine ⟨fun g old busy own => ?_, fun other => ?_⟩
      · rw [writeDelay_stores _ busy own]
        exact reg_setReg_self _ _ ok
      · rw [writeDelay_discards _ other]
        have name : l.row.name ≠ .DMC_STATUS := by
          rcases isDelay_name delay with h | h <;> rw [h] <;> decide
        refine ⟨(updReg_reg _ _ _ _ _ (regOk_dmc1 (tower_lt tower)).2.2.2.2.2.1).trans rfl,
          updReg_reg_other _ _ ok (.inl name)⟩
    · cases here : regAt off with
      | none => rfl
      | some l =>
        refine when_neg s (fun p => ?_) _
        obtain ⟨delay, tower⟩ := Bool.and_eq_true .. ▸ p
        exact absurd tower (by simp [h l here delay])
  · refine completes_if (by simp) rfl (execTempDrift_keeps (.refl s) d g temp (Within.mem _)) (by decide) ?_
    rintro ⟨tower, -⟩
    have hd := tower_lt tower
    have ok := (regOk_dmc1 hd).2.2.2.2.1
    dsimp only
    refine ⟨?_, fun more => ?_, fun less => ?_⟩
    · split
      · rw [raise_reg _ _ _ _ _ (by decide) ok, updReg_reg _ _ _ _ _ ok]
      · rw [updReg_reg _ _ _ _ _ ok]
    · rw [if_pos more]
      exact setReg_raise_raised s _ _ _ (by omega) (by decide)
    · rw [if_neg (by omega)]
      simp

end Sys2Proof.Machine
end

section
/-! SUPPORT. The coolant stop and the resume from it (R373 to R375). -/

set_option Elab.async false

namespace Sys2Proof.Machine

/-! ## Recalibration while DRAM does not run -/

theorem requests_stopped {s : State} (h : s.dev.dramMode ≠ .running) (qs : List DramReq) :
    s.requests qs = { s with dram := { s.dram with held := s.dram.held ++ qs } } := by
  induction qs generalizing s with
  | nil => unfold State.requests; rw [List.append_nil]
  | cons q qs ih =>
    have waits : s.request q = s.hold q := by
      unfold State.request
      refine if_neg fun serves => h ?_
      simp only [State.serves, State.dramOpen, Bool.and_eq_true, beq_iff_eq] at serves
      exact serves.1.1
    unfold State.requests
    rw [waits, ih (s := s.hold q) h]
    simp [State.hold]

/-- While DRAM does not run, what waits at its ports goes on waiting. -/
theorem releasePorts_stopped {s : State} (h : s.dev.dramMode ≠ .running) : s.releasePorts = s := by
  unfold State.releasePorts
  rw [requests_stopped (s := { s with dram := { s.dram with held := [] } }) h]
  rfl

theorem SMap.get_keep (d : Nat → α) (m : SMap α) (p : Nat → Bool) (k : Nat) :
    SMap.get d (SMap.keep m p) k = if p k = true then SMap.get d m k else d k := by
  induction m with
  | nil => unfold SMap.keep; simp [SMap.get]
  | cons x m ih =>
    obtain ⟨a, v⟩ := x
    unfold SMap.keep at *
    rw [List.filter_cons]
    by_cases own : a = k
    · subst own
      by_cases kept : p a = true
      · simp [SMap.get, kept]
      · simp [kept] at *
        exact ih
    · by_cases kept : p a = true
      · simp only [kept, if_true, SMap.get, own, if_false]; exact ih
      · simp only [kept, SMap.get, own, if_false]; exact ih

/-- A register that is not among the entries stays. -/
theorem get_putRegs_other (m : SMap W64) {x : SMap W32} {off : Nat} (h : ∀ y ∈ x, y.1 ≠ off) :
    SMap.get regDefault (putRegs m x) off = SMap.get regDefault m off := by
  induction x generalizing m with
  | nil => rfl
  | cons y ys ih =>
    unfold putRegs
    rw [ih _ fun z mem => h z (List.mem_cons_of_mem _ mem), SMap.get_set_ne _ _ _ (h y List.mem_cons_self).symm]

/-- An ending otherwise while DRAM does not run: no request goes on. -/
theorem recalStop_stopped {s : State} {d g : Nat} {old : SMap W32} (mode : s.dev.dramMode ≠ .running) (st : W16)
    (busy : (s.dmc d).recal = some (g, old)) : s.recalStop d st =
      (({ s with regs := putRegs (SMap.keep s.regs (fun k => !inDelays d g k)) old } : State).setDmc d
        { s.dmc d with recal := none, training := none }).recalStatus d st := by
  rw [recalStop_eq st busy]
  refine releasePorts_stopped (fun h => mode (Eq.trans ?_ h))
  simp [State.recalStatus, State.setDmc]

def recalStoppedChanges : List Comp := [.regs, .dramDmcs]

theorem recalStop_stopped_keeps {cs : Comp → Prop} {u s : State} (h : Keeps cs u s) (mode : s.dev.dramMode ≠ .running)
    (d : Nat) (st : W16) (hd : Within recalStoppedChanges cs) : Keeps cs u (s.recalStop d st) := by
  cases busy : (s.dmc d).recal with
  | none =>
    rw [recalStop_idle st busy]
    exact h
  | some x =>
    rw [recalStop_stopped mode st busy]
    have put := keeps_regs h (putRegs (SMap.keep s.regs (fun k => !inDelays d x.1 k)) x.2) (hd.of (by decide))
      (fun m => putRegs_wf _ (SMap.wf_keep _ m))
    exact setReg_keeps (setDmc_keeps put _ _ fun c m => hd c (by revert m; revert c; decide)) _ _ _ _ (.inl (hd.of (by decide)))

/-- What an ending otherwise does to recalibrations while DRAM does not run. -/
theorem recalStop_stopped_recal {s : State} (mode : s.dev.dramMode ≠ .running) (d : Nat) (st : W16) (e : Nat) :
    ((s.recalStop d st).dmc e).recal = if e = d then none else (s.dmc e).recal := by
  cases busy : (s.dmc d).recal with
  | none =>
    rw [recalStop_idle st busy]
    split
    · next own => rw [own, busy]
    · rfl
  | some x =>
    rw [recalStop_stopped mode st busy, dmc_congr (t := State.recalStatus _ _ _) (by simp [State.recalStatus]; rfl) e, dmc_setDmc]
    split <;> rfl

/-- What an ending otherwise does to registers outside the group's delays, while DRAM does not run. -/
theorem recalStop_stopped_stored {s : State} (mode : s.dev.dramMode ≠ .running) (noted : s.delaysNoted) (d : Nat) (st : W16)
    {off : Nat} (out : ∀ g old, (s.dmc d).recal = some (g, old) → inDelays d g off = false) :
    (off = regOff .DMC_RECAL_STATUS d 0 ∧ d < 2) ∨ (s.recalStop d st).stored off = s.stored off := by
  cases busy : (s.dmc d).recal with
  | none =>
    rw [recalStop_idle st busy]
    exact .inr rfl
  | some x =>
    obtain ⟨g, old⟩ := x
    obtain ⟨hd, -, own⟩ := noted d g old busy
    rw [recalStop_stopped mode st busy]
    by_cases status : off = regOff .DMC_RECAL_STATUS d 0
    · exact .inl ⟨status, hd⟩
    · refine .inr ?_
      unfold State.recalStatus State.setReg State.stored
      rw [if_pos (regOk_dmc1 hd).2.2.1, SMap.get_set_ne _ _ _ status]
      refine (get_putRegs_other _ fun y mem same => ?_).trans ((SMap.get_keep _ _ _ _).trans (if_pos ?_))
      · exact absurd (own y mem) (by simp [same, out g old busy])
      · simp [out g old busy]

/-! ## The coolant stop -/

/-- The clusters stopped and DRAM on its way into self-refresh (Table 13.6), before recalibrations end. -/
def State.coolantCalm (s : State) : State :=
  let s1 := ((s.holdDecs (List.range 16)).sprintEnd Status.sprintStopped 0).startCoolant s.nowNs
  (s1.stopClusters s1.clusters).setDramMode .entering

/-- The report of a coolant stop. -/
def State.coolantTold (s : State) (hot : Nat) : State :=
  ((s.count .WEIR_CNT_COOLANT 0).powerStatus Status.coolantStop).elog Status.coolantStop unitWeir 0 noCtx noFn
    (BitVec.ofNat 64 hot)

/-- Recalibrations end at a coolant stop (R335). -/
def State.recalsStopped (s : State) : State := (s.recalStop 0 Status.recalStopped).recalStop 1 Status.recalStopped

theorem State.coolantCalm_mode (s : State) : s.coolantCalm.dev.dramMode ≠ .running := by
  rw [show s.coolantCalm.dev.dramMode = .entering from rfl]
  decide

def coolantCalmChanges : List Comp :=
  startCoolantChanges ++ sprintEndChanges ++ holdDecsChanges ++ setDramModeChanges ++ setClPwrChanges

def coolantToldChanges : List Comp := elogChanges ++ powerStatusChanges ++ [.reg .WEIR_CNT_COOLANT]

theorem coolantCalm_keeps {cs : Comp → Prop} {u s : State} (h : Keeps cs u s) (hc : Within coolantCalmChanges cs) :
    Keeps cs u s.coolantCalm := by
  simp only [coolantCalmChanges, within_append, and_assoc] at hc
  obtain ⟨h0, h1, h2, h3, h4⟩ := hc
  exact setDramMode_keeps (stopClusters_keeps (startCoolant_keeps (sprintEnd_keeps (holdDecs_keeps h _ h2) _ _ h1) _ h0) _ h4) _ h3

theorem coolantTold_keeps {cs : Comp → Prop} {u s : State} (h : Keeps cs u s) (hot : Nat)
    (hc : Within coolantToldChanges cs) : Keeps cs u (s.coolantTold hot) := by
  simp only [coolantToldChanges, within_append, and_assoc] at hc
  obtain ⟨h0, h1, h2⟩ := hc
  exact elog_keeps (powerStatus_keeps (count_keeps h _ _ (.inr (h2.of (by decide)))) _ h1) _ _ _ _ _ _ h0

theorem recalsStopped_keeps {cs : Comp → Prop} {u s : State} (h : Keeps cs u s) (mode : s.dev.dramMode ≠ .running)
    (hd : Within recalStoppedChanges cs) : Keeps cs u s.recalsStopped := by
  refine recalStop_stopped_keeps (recalStop_stopped_keeps h mode 0 _ hd) (fun running => mode (Eq.trans ?_ running)) 1 _ hd
  exact (congrArg Dev.dramMode ((recalStop_stopped_keeps (.refl s) mode 0 _ (Within.mem _)).dev_eq (by decide))).symm

theorem coolantEnter_on {s : State} (h : (s.pinsAct && !s.coolantHeld && s.dev.pins.flowLost) = true) :
    s.coolantEnter = s.coolantCalm.recalsStopped.coolantTold s.hottest := by
  unfold State.coolantEnter
  rw [when_eq s h]
  rfl

theorem coolantEnter_off {s : State} (h : ¬ (s.pinsAct && !s.coolantHeld && s.dev.pins.flowLost) = true) :
    s.coolantEnter = s := when_neg s h _

def coolantEnterStopped : List Comp := coolantCalmChanges ++ recalStoppedChanges ++ coolantToldChanges

/-- A coolant stop changes no component but these: no request goes on at its port. -/
theorem coolantEnter_stopped_keeps {cs : Comp → Prop} {u s : State} (h : Keeps cs u s) (hc : Within coolantEnterStopped cs) :
    Keeps cs u s.coolantEnter := by
  by_cases on : (s.pinsAct && !s.coolantHeld && s.dev.pins.flowLost) = true
  · rw [coolantEnter_on on]
    simp only [coolantEnterStopped, within_append, and_assoc] at hc
    obtain ⟨calm, stopped, told⟩ := hc
    exact coolantTold_keeps (recalsStopped_keeps (coolantCalm_keeps h calm) s.coolantCalm_mode stopped) _ told
  · rw [coolantEnter_off on]
    exact h

/-- A coolant stop's first steps. -/
theorem coolantCalm_spec (s : State) :
    (s.coolantCalm.weir.coolant = .entering ∧ s.coolantCalm.weir.coolantNs = s.nowNs ∧ s.coolantCalm.weir.restart = [] ∧
      s.coolantCalm.dev.dramMode = .entering ∧ s.coolantCalm.weir.sprint.on = false) ∧
    (∀ n, clusterPresent s.dev.part n = true → (s.coolantCalm.clPwr n).stopped = true) ∧
    (s.coolantCalm.icu.log = s.icu.log ∧ s.coolantCalm.icu.logHead = s.icu.logHead ∧ s.coolantCalm.thy.now = s.thy.now) ∧
    (∀ j, j ≠ 3 → s.coolantCalm.icu.cond.getLsbD j = s.icu.cond.getLsbD j) ∧
    ∀ j, s.icu.pend.getLsbD j = true → s.coolantCalm.icu.pend.getLsbD j = true := by
  unfold State.coolantCalm
  have held := holdDecs_keeps (.refl s) (List.range 16) (Within.mem _)
  have icu := held.icu_eq (by decide)
  have thy := held.thy_eq (by decide)
  have part := held.part
  generalize s.holdDecs (List.range 16) = base at *
  obtain ⟨ended, -⟩ := sprintEnd_spec base Status.sprintStopped 0
  obtain ⟨log, head, now, cond, pend⟩ := sprintEnd_icu base (st := Status.sprintStopped) (by decide) 0
  have calmPart := (sprintEnd_keeps (.refl base) Status.sprintStopped 0 (Within.mem _)).part
  generalize base.sprintEnd Status.sprintStopped 0 = calm at *
  rw [icu] at log head cond pend
  rw [thy] at now
  dsimp only
  obtain ⟨weir, icu', thy', -, -⟩ := stopClusters_weir (calm.startCoolant s.nowNs) (calm.startCoolant s.nowNs).clusters
  have cls := stopClusters_clPwr (calm.startCoolant s.nowNs) (calm.startCoolant s.nowNs).clusters
  generalize State.stopClusters (calm.startCoolant s.nowNs) _ = stopped at *
  refine ⟨⟨?_, ?_, ?_, rfl, ?_⟩, fun n present => ?_, ⟨?_, ?_, ?_⟩, fun j ne => ?_, fun j set => ?_⟩
  · exact (congrArg Weir.coolant weir).trans rfl
  · exact (congrArg Weir.coolantNs weir).trans rfl
  · exact (congrArg Weir.restart weir).trans rfl
  · exact (congrArg (fun w => w.sprint.on) weir).trans ended
  · have own : (stopped.setDramMode .entering).clPwr n = stopped.clPwr n := rfl
    rw [own, cls, if_pos (mem_clusters.2 ?_)]
    exact (by rw [calmPart, part]; exact present : clusterPresent calm.dev.part n = true)
  · exact (congrArg Icu.log icu').trans log
  · exact (congrArg Icu.logHead icu').trans head
  · exact (congrArg Thyme.now thy').trans now
  · exact (congrArg (fun x => x.cond.getLsbD j) icu').trans (cond j ne)
  · exact (congrArg (fun x => x.pend.getLsbD j) icu').trans (pend j set)

theorem delaysNoted_congr {s t : State} (h : t.dram.dmcs = s.dram.dmcs) (noted : s.delaysNoted) : t.delaysNoted := by
  intro d g old busy
  rw [dmc_congr h] at busy
  exact noted d g old busy

/-- What the ends of recalibrations at a coolant stop leave. -/
theorem recalsStopped_spec {s : State} (mode : s.dev.dramMode ≠ .running) :
    (∀ d < 2, (s.recalsStopped.dmc d).recal = none) ∧
    (s.delaysNoted → ∀ off, (∀ d g old, (s.dmc d).recal = some (g, old) → inDelays d g off = false) →
      (∃ d < 2, off = regOff .DMC_RECAL_STATUS d 0) ∨ s.recalsStopped.stored off = s.stored off) ∧
    (s.delaysNoted → ∀ d < 2, (s.dmc d).recal ≠ none → s.recalsStopped.reg .DMC_RECAL_STATUS d 0 = 0x5031) := by
  have first := recalStop_stopped_keeps (.refl s) mode 0 Status.recalStopped (Within.mem _)
  have recal := recalStop_stopped_recal mode 0 Status.recalStopped
  have stored (noted : s.delaysNoted) (off : Nat) := recalStop_stopped_stored mode noted 0 Status.recalStopped (off := off)
  have status (g old) (busy : (s.dmc 0).recal = some (g, old)) :
      (s.recalStop 0 Status.recalStopped).reg .DMC_RECAL_STATUS 0 0 = 0x5031 :=
    (recalStop_spec Status.recalStopped busy).2.1 (by decide)
  have noted1 (noted : s.delaysNoted) : (s.recalStop 0 Status.recalStopped).delaysNoted := by
    intro d g old busy
    rw [recal] at busy
    split at busy
    · exact absurd busy (by simp)
    · exact noted d g old busy
  have mode1 : (s.recalStop 0 Status.recalStopped).dev.dramMode ≠ .running :=
    fun h => mode ((congrArg Dev.dramMode (first.dev_eq (by decide))).symm.trans h)
  unfold State.recalsStopped
  generalize s.recalStop 0 Status.recalStopped = s1 at *
  have recal1 := recalStop_stopped_recal mode1 1 Status.recalStopped
  have busy1 {g old} (busy : (s1.dmc 1).recal = some (g, old)) : (s.dmc 1).recal = some (g, old) := by
    rwa [recal, if_neg (by decide)] at busy
  have stored1 (noted : s.delaysNoted) {off : Nat}
      (out : ∀ d g old, (s.dmc d).recal = some (g, old) → inDelays d g off = false) :
      (off = regOff .DMC_RECAL_STATUS 1 0 ∧ 1 < 2) ∨ (s1.recalStop 1 Status.recalStopped).stored off = s1.stored off :=
    recalStop_stopped_stored mode1 (noted1 noted) 1 Status.recalStopped fun g old busy => out 1 g old (busy1 busy)
  refine ⟨fun d hd => ?_, fun noted off out => ?_, fun noted d hd busy => ?_⟩
  · rw [recal1, recal]
    obtain rfl | rfl : d = 0 ∨ d = 1 := by omega
    · rfl
    · rfl
  · rcases stored1 noted out with ⟨own, hd⟩ | same
    · exact .inl ⟨1, hd, own⟩
    · rcases stored noted off (out 0) with ⟨own, hd⟩ | same0
      · exact .inl ⟨0, hd, own⟩
      · exact .inr (same.trans same0)
  · obtain ⟨⟨g, old⟩, busy⟩ := Option.ne_none_iff_exists'.1 busy
    obtain rfl | rfl : d = 0 ∨ d = 1 := by omega
    · have apart : ∀ g < 4, inDelays 1 g (regOff .DMC_RECAL_STATUS 0 0) = false := by decide +kernel
      rcases recalStop_stopped_stored mode1 (noted1 noted) 1 Status.recalStopped (off := regOff .DMC_RECAL_STATUS 0 0)
        (fun h old' b => apart h (noted 1 h old' (busy1 b)).2.1) with ⟨own, -⟩ | same
      · exact absurd own (by decide +kernel)
      · exact same.trans (status g old busy)
    · have busy' : (s1.dmc 1).recal = some (g, old) := by rw [recal, if_neg (by decide)]; exact busy
      exact (recalStop_spec Status.recalStopped busy').2.1 (by decide)

/-- A coolant stop (R373). -/
theorem coolantEnter_spec {s : State} (on : (s.pinsAct && !s.coolantHeld && s.dev.pins.flowLost) = true) :
    s.coolantEnter.weir.coolant = .entering ∧ s.coolantEnter.weir.coolantNs = s.nowNs ∧
    s.coolantEnter.weir.restart = [] ∧ s.coolantEnter.dev.dramMode = .entering ∧ s.coolantEnter.weir.sprint.on = false ∧
    (∀ n, clusterPresent s.dev.part n = true → (s.coolantEnter.clPwr n).stopped = true) ∧
    (∀ d < 2, (s.coolantEnter.dmc d).recal = none) ∧ s.coolantEnter.reg .WEIR_STATUS 0 0 = 0x7010 ∧
    (s.delaysNoted → (∀ d < 2, (s.dmc d).recal ≠ none → s.coolantEnter.reg .DMC_RECAL_STATUS d 0 = 0x5031) ∧
      s.coolantEnter.reg .WEIR_CNT_COOLANT 0 0 = counted (s.reg .WEIR_CNT_COOLANT 0 0) ∧
      logged 0x7010#16 9 0 0xFFFF 0xFF (BitVec.ofNat 64 s.hottest) s s.coolantEnter) := by
  rw [coolantEnter_on on]
  obtain ⟨⟨cool, ns, restart, mode, sprint⟩, stopped, ⟨log, head, now⟩, -⟩ := coolantCalm_spec s
  have k := coolantCalm_keeps (.refl s) (Within.mem _)
  have dmcs := congrArg Dram.dmcs (k.dram_eq (by decide))
  have mode' := s.coolantCalm_mode
  generalize s.coolantCalm = calm at *
  obtain ⟨idle, stored, status⟩ := recalsStopped_spec mode'
  have r := recalsStopped_keeps (.refl calm) mode' (Within.mem _)
  have dev := r.dev_eq (by decide)
  have weir := r.weir_eq (by decide)
  have icu := r.icu_eq (by decide)
  have thy := r.thy_eq (by decide)
  generalize calm.recalsStopped = ends at *
  have told := coolantTold_keeps (.refl ends) s.hottest (Within.mem _)
  have toldWeir := told.weir_eq (by decide)
  have toldReg {u i : Nat} {r : Reg} (h : .reg r ∉ coolantToldChanges) (ok : regOk r u i = true) :=
    told.reg_eq (r := r) (a := u) (i := i) (by decide) h ok
  have weir' : (ends.coolantTold s.hottest).weir = calm.weir := toldWeir.trans weir
  have dev' : (ends.coolantTold s.hottest).dev = calm.dev := (told.dev_eq (by decide)).trans dev
  have dmcs' := dmc_congr (congrArg Dram.dmcs (told.dram_eq (by decide)))
  refine ⟨by rw [weir', cool], by rw [weir', ns], by rw [weir', restart], by rw [dev', mode], by rw [weir', sprint],
    fun n present => by rw [clPwr_congr (congrArg Weir.cls weir')]; exact stopped n present,
    fun d hd => by rw [dmcs', idle d hd], ?_, fun noted => ?_⟩
  · unfold State.coolantTold
    rw [elog_reg _ _ _ _ _ _ _ _ _ _ (by decide) (by decide)]
    exact reg_setReg_self _ _ (by decide)
  · have noted' := delaysNoted_congr dmcs noted
    have apart {r : Reg} {u i : Nat} (away : ∀ d < 2, ∀ g < 4, inDelays d g (regOff r u i) = false)
        (ne : ∀ d < 2, regOff r u i ≠ regOff .DMC_RECAL_STATUS d 0) : ends.reg r u i = calm.reg r u i := by
      rcases stored noted' (regOff r u i) (fun d g old busy => away d (noted' d g old busy).1 g (noted' d g old busy).2.1) with
        ⟨d, hd, own⟩ | same
      · exact absurd own (ne d hd)
      · exact same
    have merge := (apart (r := .ICU_ELOG_MERGE_MS) (u := 0) (i := 0) (by decide +kernel) (by decide +kernel)).trans
      (k.reg_eq (by decide) (by decide) (by decide))
    have count := (apart (r := .WEIR_CNT_COOLANT) (u := 0) (i := 0) (by decide +kernel) (by decide +kernel)).trans
      (k.reg_eq (by decide) (by decide) (by decide))
    refine ⟨fun d hd busy => ?_, ?_, ?_⟩
    · rw [toldReg (by decide) (regOk_dmc1 hd).2.2.1]
      exact status noted' d hd (by rw [dmc_congr dmcs]; exact busy)
    · unfold State.coolantTold State.powerStatus
      rw [elog_reg _ _ _ _ _ _ _ _ _ _ (by decide) (by decide), reg_setReg_other _ _ (by decide) (.inl (by decide)),
        count_reg _ _ _ (by decide), count]
      rfl
    · unfold State.coolantTold State.powerStatus
      refine logged_congr (elog_logged _ _ _ _ _ _ _) ?_ ?_ ?_ ?_ rfl rfl
      · simp [icu, log]
      · simp [icu, head]
      · simp [thy, now]
      · rw [reg_setReg_other _ _ (by decide) (.inl (by decide)), count_reg_other _ (by decide) (.inl (by decide)), merge]

/-- A coolant stop leaves other sources as they are. -/
theorem coolantEnter_icu (s : State) :
    (∀ j, j ≠ 3 → j ≠ 6 → s.coolantEnter.icu.cond.getLsbD j = s.icu.cond.getLsbD j) ∧
    ∀ j, s.icu.pend.getLsbD j = true → s.coolantEnter.icu.pend.getLsbD j = true := by
  by_cases on : (s.pinsAct && !s.coolantHeld && s.dev.pins.flowLost) = true
  · rw [coolantEnter_on on]
    obtain ⟨-, -, -, cond, pend⟩ := coolantCalm_spec s
    have icu := (recalsStopped_keeps (.refl s.coolantCalm) s.coolantCalm_mode (Within.mem _)).icu_eq (by decide)
    unfold State.coolantTold
    refine ⟨fun j power log => ?_, fun j set => elog_mono _ _ _ _ _ _ ?_⟩
    · rw [elog_cond_other _ _ _ _ _ _ _ log]
      exact (congrArg (fun x => x.cond.getLsbD j) icu).trans (cond j power)
    · exact (congrArg (fun x => x.pend.getLsbD j) icu).trans (pend j set)
  · rw [coolantEnter_off on]
    exact ⟨fun _ _ _ => rfl, fun _ => id⟩

theorem coolantCalm_pins (s : State) (v : Byte) :
    { s.coolantCalm.dev.pins with vid := v } = { s.dev.pins with vid := v } := by
  unfold State.coolantCalm
  have dev := (holdDecs_keeps (.refl s) (List.range 16) (Within.mem _)).dev_eq (by decide)
  generalize s.holdDecs (List.range 16) = base at *
  rw [← dev, ← sprintEnd_pins base Status.sprintStopped 0]
  exact congrArg (fun d => { d.pins with vid := v }) (stopClusters_weir _ _).2.2.2.2

/-- A coolant stop leaves the pins as they are, but for the voltage. -/
theorem coolantEnter_pins (s : State) (v : Byte) :
    { s.coolantEnter.dev.pins with vid := v } = { s.dev.pins with vid := v } := by
  by_cases on : (s.pinsAct && !s.coolantHeld && s.dev.pins.flowLost) = true
  · rw [coolantEnter_on on, ← coolantCalm_pins s]
    have ends := (recalsStopped_keeps (.refl s.coolantCalm) s.coolantCalm_mode (Within.mem _)).dev_eq (by decide)
    generalize s.coolantCalm.recalsStopped = told at *
    rw [(coolantTold_keeps (.refl told) s.hottest (Within.mem _)).dev_eq (by decide), ends]
  · rw [coolantEnter_off on]

/-- The registers of a coolant stop that are not delays of a group in recalibration. -/
def coolantRegs : List Comp := .reg .DMC_RECAL_STATUS :: coolantCalmChanges ++ coolantToldChanges

theorem coolantEnter_stored {s : State} (noted : s.delaysNoted) {off : Nat}
    (out : ∀ d g old, (s.dmc d).recal = some (g, old) → inDelays d g off = false) :
    (∃ r u i, .reg r ∈ coolantRegs ∧ regOk r u i = true ∧ off = regOff r u i) ∨ s.coolantEnter.stored off = s.stored off := by
  by_cases on : (s.pinsAct && !s.coolantHeld && s.dev.pins.flowLost) = true
  · rw [coolantEnter_on on]
    have k := coolantCalm_keeps (.refl s) (Within.mem _)
    have dmcs := congrArg Dram.dmcs (k.dram_eq (by decide))
    have mode := s.coolantCalm_mode
    generalize s.coolantCalm = calm at *
    obtain ⟨-, stored, -⟩ := recalsStopped_spec mode
    generalize calm.recalsStopped = ends at *
    have told := coolantTold_keeps (.refl ends) s.hottest (Within.mem _)
    rcases told.regs off with no | ⟨r, u, i, mem, ok, own⟩ | same
    · exact absurd no (by decide)
    · exact .inl ⟨r, u, i, List.mem_append_right _ mem, ok, own⟩
    · rcases stored (delaysNoted_congr dmcs noted) off (fun d g old busy => out d g old (by rw [← dmc_congr dmcs]; exact busy))
        with ⟨d, hd, own⟩ | same1
      · exact .inl ⟨_, d, 0, List.mem_cons_self, (regOk_dmc1 hd).2.2.1, own⟩
      · rcases k.regs off with no | ⟨r, u, i, mem, ok, own⟩ | same0
        · exact absurd no (by decide)
        · exact .inl ⟨r, u, i, List.mem_append_left _ (List.mem_cons_of_mem _ mem), ok, own⟩
        · exact .inr (same.trans (same1.trans same0))
  · rw [coolantEnter_off on]
    exact .inr rfl

/-! ## The resume -/

theorem restartClusters_clPwr (s : State) (ns : List Nat) (nodup : ns.Nodup) (m : Nat) :
    (s.restartClusters ns).clPwr m = if m ∈ ns then
      { s.clPwr m with point := 0, want := none, stopped := s.weir.brake || (s.clPwr m).thermPt == 0 } else s.clPwr m := by
  induction ns generalizing s with
  | nil => rfl
  | cons n ns ih =>
    obtain ⟨fresh, nodup⟩ := List.nodup_cons.1 nodup
    unfold State.restartClusters
    dsimp only
    generalize new_eq : ({ s.clPwr n with point := 0, want := none, stopped := _ } : ClPwr) = new
    have weir := (takeKills_keeps (.refl (s.setClPwr n new)) n (coresOf n) (Within.mem _)).weir_eq (by decide)
    generalize State.takeKills _ n (coresOf n) = s1 at *
    rw [ih _ nodup, clPwr_congr (congrArg Weir.cls weir), clPwr_setClPwr]
    have brake : s1.weir.brake = s.weir.brake := by rw [weir]; rfl
    by_cases own : m = n
    · subst own
      simp [fresh, ← new_eq]
    · simp [own, brake]

/-- Leaving a coolant stop (R374). -/
theorem leaveCoolant_spec (s : State) :
    s.leaveCoolant.weir.coolant = .none ∧ s.leaveCoolant.dev.dramMode = .running ∧
    s.leaveCoolant.weir.railMv = (s.needMv 0).toNat ∧
    (∀ n < 4, clusterPresent s.dev.part n = true → s.leaveCoolant.clPwr n =
      { s.clPwr n with point := 0, want := none, stopped := s.weir.brake || (s.clPwr n).thermPt == 0 }) ∧
    (s.dram.held = [] → s.leaveCoolant.dram = s.dram ∧ s.leaveCoolant.out = s.out) := by
  unfold State.leaveCoolant
  dsimp only
  generalize base_eq : State.setCoolant _ .none = base
  have regs : base.regs = s.regs := by rw [← base_eq]; rfl
  have part : base.dev.part = s.dev.part := by rw [← base_eq]; rfl
  have cls (n : Nat) : base.clPwr n = s.clPwr n := by rw [← base_eq]; rfl
  have brake : base.weir.brake = s.weir.brake := by rw [← base_eq]; rfl
  have dram : base.dram = s.dram := by rw [← base_eq]; rfl
  have out : base.out = s.out := by rw [← base_eq]; rfl
  have coolant : base.weir.coolant = .none := by rw [← base_eq]; rfl
  have mode : base.dev.dramMode = .running := by rw [← base_eq]; rfl
  have need : base.needMv 0 = s.needMv 0 := by rw [← base_eq]; rfl
  have restarted := restartClusters_keeps (.refl (base.setRail (base.needMv 0))) base.clusters (Within.mem _)
  have points := restartClusters_clPwr (base.setRail (base.needMv 0)) base.clusters (List.nodup_range.filter _)
  generalize State.restartClusters _ base.clusters = s2 at *
  have released := releasePorts_keeps (.refl s2) (Within.mem _)
  have held : s2.dram.held = [] → s2.releasePorts = s2 := releasePorts_none
  generalize s2.releasePorts = s3 at *
  have scheduled := schedule_keeps (.refl s3) (Within.mem _)
  have weir := (scheduled.weir_eq (by decide)).trans (released.weir_eq (by decide))
  have dev := (scheduled.dev_eq (by decide)).trans ((released.dev_eq (by decide)).trans (restarted.dev_eq (by decide)))
  have dram' := scheduled.dram_eq (by decide)
  have out' := scheduled.out_eq (by decide)
  generalize s3.schedule = t at *
  refine ⟨?_, ?_, ?_, fun n _ present => ?_, fun none => ?_⟩
  · rw [weir, restarted.weir.coolant.resolve_left (by decide)]
    exact coolant
  · rw [dev]
    exact mode
  · rw [weir, restarted.weir.railMv.resolve_left (by decide), ← need]
    rfl
  · rw [clPwr_congr (congrArg Weir.cls weir), points, if_pos (mem_clusters.2 (by rw [part]; exact present)), setRail_clPwr, cls,
      ← brake]
    rfl
  · have dram2 : s2.dram = s.dram := (restarted.dram_eq (by decide)).trans dram
    have same := held (by rw [dram2, none])
    rw [dram', out', same, dram2, restarted.out_eq (by decide)]
    exact ⟨rfl, out⟩

theorem leaveCoolant_reg (s : State) : s.leaveCoolant.reg .WEIR_STATUS 0 0 = s.reg .WEIR_STATUS 0 0 :=
  (leaveCoolant_keeps (.refl s) (Within.mem _)).reg_eq (by decide +kernel) (by decide +kernel) (by decide)

/-- FLOW_LOST_N asserted, before its source follows it and before the coolant stop (R373). -/
def State.flowPin (s : State) : State :=
  { s.setPins { s.dev.pins with flowLost := true } with weir := { s.weir with flowReleasedNs := none } }

def flowPinChanges : List Comp := edgeChanges ++ [.devPins, .weirFlowReleasedNs]

theorem flowPin_keeps {cs : Comp → Prop} {u s base : State} {acts : Bool} (h : Keeps cs u s)
    (e : (if acts = true then s.flowPin.edge 4 true else s.flowPin) = base) (hd : Within flowPinChanges cs) :
    Keeps cs u base := by
  have pin : Keeps cs u s.flowPin := keeps_mk (setPins_keeps h _ fun c m => hd c (by revert m; revert c; decide))
  subst e
  split
  · exact edge_keeps pin _ _ fun c m => hd c (List.mem_append_left _ m)
  · exact pin

theorem flowPin_spec {s base : State} {acts : Bool}
    (e : (if acts = true then s.flowPin.edge 4 true else s.flowPin) = base) :
    base.weir = { s.weir with flowReleasedNs := none } ∧ base.dev = { s.dev with pins := { s.dev.pins with flowLost := true } } ∧
    base.dram = s.dram ∧ (acts = true → edged 4 true s base) := by
  subst e
  split
  · refine ⟨by simp [State.flowPin], by simp [State.flowPin, State.setPins], by simp [State.flowPin, State.setPins], fun _ => ?_⟩
    exact edged_congr (edge_edged s.flowPin (i := 4) (by decide) true (by decide)) rfl rfl rfl rfl id
  · next off => exact ⟨rfl, rfl, rfl, fun on => absurd on off⟩

/-- What the whole command leaves to the coolant stop's own frame. -/
theorem flowLostAssert_keeps (s : State) :
    KeepsOut (fun c => c ∈ flowPinChanges ++ coolantEnterStopped) s (execFlowLostAssert s) := by
  unfold execFlowLostAssert State.when
  apply KeepsOut.next
  split
  · exact coolantEnter_stopped_keeps (flowPin_keeps (.refl s) rfl fun c m => List.mem_append_left _ m)
      fun c m => List.mem_append_right _ m
  · exact .refl s

theorem flowLost_stored {s : State} (noted : s.delaysNoted) {off : Nat}
    (out : ∀ d g old, (s.dmc d).recal = some (g, old) → inDelays d g off = false) {acts : State → Bool} :
    (∃ r u i, .reg r ∈ flowPinChanges ++ coolantRegs ∧ regOk r u i = true ∧ off = regOff r u i) ∨
      (s.when (!s.dev.pins.flowLost) fun s =>
        (if acts s.flowPin = true then s.flowPin.edge 4 true else s.flowPin).coolantEnter).stored off = s.stored off := by
  unfold State.when
  split
  · dsimp only
    generalize base_eq : @ite State (_ = true) (instDecidableEqBool _ true) (State.edge _ 4 true) _ = base
    have dmcs := congrArg Dram.dmcs (flowPin_spec base_eq).2.2.1
    rcases coolantEnter_stored (delaysNoted_congr dmcs noted)
      (fun d g old busy => out d g old (by rw [← dmc_congr dmcs]; exact busy)) with ⟨r, u, i, mem, ok, own⟩ | same
    · exact .inl ⟨r, u, i, List.mem_append_right _ mem, ok, own⟩
    · rcases (flowPin_keeps (.refl s) base_eq (Within.mem _)).regs off with no | ⟨r, u, i, mem, ok, own⟩ | same0
      · exact absurd no (by decide)
      · exact .inl ⟨r, u, i, List.mem_append_left _ mem, ok, own⟩
      · exact .inr (same.trans same0)
  · exact .inr rfl

/-- Settles O22: the stop by `coolantEnter_spec` and `coolantEnter_stored`, the resume by `leaveCoolant_spec`. -/
theorem coolantStopAndResume : Obligations.CoolantStopAndResume := by
  intro s
  refine ⟨?_, ?_, ?_, ?_, ?_⟩
  · refine completes_of rfl (flowLostAssert_keeps s) (by decide) ⟨fun noted off out => ?_, ?_⟩
    · refine (flowLost_stored noted out).imp_left fun ⟨r, u, i, mem, ok, own⟩ => ⟨r, u, i, ?_, ok, own⟩
      have sub : ∀ c ∈ flowPinChanges ++ coolantRegs, c ∈ Comp.sprint ++ [.devDramMode, .dramDmcs, .reg .DMC_RECAL_STATUS,
          .reg .WEIR_CNT_COOLANT, .reg .DEC_CTX_USED, .weirCoolant, .weirCoolantNs, .weirFlowReleasedNs, .weirRestart] := by
        decide
      exact sub _ mem
    · cases lost : s.dev.pins.flowLost with
      | true =>
        rw [if_neg (by decide)]
        rfl
      | false =>
        rw [if_pos rfl]
        simp only [Bool.not_false, when_true]
        generalize base_eq : @ite State (_ = true) (instDecidableEqBool _ true) (State.edge _ 4 true) _ = base
        obtain ⟨weir, dev, dram, edge⟩ := flowPin_spec (s := s) base_eq
        have k := flowPin_keeps (.refl s) (base := base) base_eq (Within.mem _)
        have acts : (base.pinsAct && !base.coolantHeld && base.dev.pins.flowLost) = true ↔
            s.dev.life = .ready ∧ s.weir.coolant = .none := by
          unfold State.pinsAct State.coolantHeld
          rw [weir, dev]
          simp
        have kept := coolantEnter_stopped_keeps (.refl base) (Within.mem _)
        refine ⟨?_, ?_, fun life => ?_, fun ready idle => ?_, fun no => ?_⟩
        · exact (congrArg Pins.flowLost (coolantEnter_pins base 0)).trans (by rw [dev])
        · rw [kept.weir.flowReleasedNs.resolve_left (by decide), weir]
        · obtain ⟨cond, pend⟩ := coolantEnter_icu base
          exact edged_congr (edge (by simpa [State.pinSources, State.setPins] using life)) rfl rfl rfl
            (cond 4 (by decide) (by decide)) (pend 4)
        · obtain ⟨cool, ns, restart, mode, sprint, stopped, recal, status, rest⟩ := coolantEnter_spec (acts.2 ⟨ready, idle⟩)
          have dmcs := congrArg Dram.dmcs dram
          refine ⟨cool, ns.trans ?_, restart, mode, sprint, fun n _ present => stopped n (by rw [dev]; exact present), recal,
            status, fun noted => ?_⟩
          · exact congrArg BitVec.toNat (k.thy.now.resolve_left (by decide))
          · obtain ⟨ended, count, log⟩ := rest (delaysNoted_congr dmcs noted)
            refine ⟨fun d hd busy => ended d hd (by rw [dmc_congr dmcs]; exact busy), ?_, ?_⟩
            · rw [count, k.reg_eq (by decide) (by decide) (by decide)]
            · have hot : base.hottest = s.hottest := by
                unfold State.hottest
                rw [regNat_congr (k.reg_eq (by decide) (by decide) (by decide))]
              rw [← hot]
              exact logged_congr log (k.icu.log.resolve_left (by decide)).symm (k.icu.logHead.resolve_left (by decide)).symm
                (k.thy.now.resolve_left (by decide)).symm (k.reg_eq (by decide) (by decide) (by decide)).symm rfl rfl
        · rw [coolantEnter_off fun on => ?_]
          · refine ⟨weir, by rw [dev], k.icu.log.resolve_left (by decide)⟩
          · obtain ⟨ready, idle⟩ := acts.1 on
            exact no.elim (fun h => h ready) (fun h => h idle)
  · refine completes_if (by simp) rfl (execCoolantStopReached_keeps (.refl s) (Within.mem _)) (by decide) fun _ => ?_
    exact ⟨rfl, rfl, rfl⟩
  · refine completes_if Iff.rfl rfl (execFlowLostDeassert_keeps (.refl s) (Within.mem _)) (by decide) fun _ => ?_
    dsimp only
    generalize quiet_eq : ({ s.setPins { s.dev.pins with flowLost := false } with
      weir := { s.weir with flowReleasedNs := some s.dev.aoNs } } : State) = quiet
    have own := edge_edged quiet (i := 4) (by decide) false (by decide)
    refine ⟨by simp [State.setPins], by simp, ?_⟩
    subst quiet_eq
    exact edged_congr own rfl rfl rfl rfl id
  · refine completes_of rfl (execResume_keeps (.refl s) (Within.mem _)) (by decide +kernel) ?_
    unfold State.resumeCmd
    refine ⟨fun may => ?_, fun may held => ?_, fun may idle released => ?_⟩
    · rw [if_pos may]
      exact ⟨leaveCoolant_spec s, leaveCoolant_reg s⟩
    · rw [if_neg (by simp [may]), when_eq s (by simpa [State.coolantHeld] using held)]
      exact ⟨rfl, rfl, rfl, rfl, reg_setReg_self _ _ (by decide)⟩
    · rw [if_neg (by simp [may])]
      exact when_neg s (by simp [State.coolantHeld, idle, released]) _
  · refine completes_if (by simp) rfl (execAutoResume_keeps (.refl s) (Within.mem _)) (by decide +kernel) fun _ => ?_
    exact leaveCoolant_spec s

end Sys2Proof.Machine
end

section
/-! SUPPORT. The ranges of accumulation and of the output stage (R93 to R95, R187 to R191). -/

set_option Elab.async false

namespace Sys2Proof.Machine

theorem sat32_eq (v : Int) : sat32 v = max (-2147483648) (min 2147483647 v) := by
  unfold sat32 clampInt
  omega

theorem clamp40_range (v : Int) : -549755813888 ≤ clamp40 v ∧ clamp40 v ≤ 549755813887 := by
  unfold clamp40 clampInt
  omega

/-- An ACC32 word gives back an integer in its range (R95). -/
theorem accVal_accWord {v : Int} (lo : -2147483648 ≤ v) (hi : v ≤ 2147483647) : accVal (accWord v) = v := by
  unfold accVal accWord
  rw [BitVec.toInt_ofInt]
  exact Int.bmod_eq_of_le (by omega) (by omega)

theorem accumulate_range (a p : Int) :
    -2147483648 ≤ (accumulate a p).1 ∧ (accumulate a p).1 ≤ 2147483647 := by
  have sat : (accumulate a p).1 = _ := sat32_eq (a + p)
  omega

theorem countLe_le_length (v : Int) (l : List Int) : countLe v l ≤ l.length := by
  induction l with
  | nil => exact Nat.le_refl _
  | cons x l ih =>
    unfold countLe
    rw [List.length_cons]
    split <;> omega

theorem toFp4_lt (y : Int) : toFp4 y < 16 := by
  have few := countLe_le_length y.natAbs fp4Mags
  have eight : fp4Mags.length = 8 := rfl
  unfold toFp4
  dsimp only
  split
  · omega
  · split <;> omega

theorem toLog4_lt (y : Int) : toLog4 y < 16 := by
  have few := countLe_le_length y.natAbs ((List.range 8).map (fun s => (2 : Int) ^ (s + 12)))
  rw [List.length_map, List.length_range] at few
  unfold toLog4
  dsimp only
  split
  · omega
  · split <;> omega

theorem stepS_range (a b : Int) (s16 : Nat) : -549755813888 ≤ stepS a b s16 ∧ stepS a b s16 ≤ 549755813887 := by
  unfold stepS
  dsimp only
  split
  · omega
  · have either (c : Prop) [Decidable c] (x y : Int) : -549755813888 ≤ (if c then clamp40 x else clamp40 y) ∧
        (if c then clamp40 x else clamp40 y) ≤ 549755813887 := by
      split
      · exact clamp40_range _
      · exact clamp40_range _
    exact either _ _ _

theorem worseStatus_comm (a b : W16) : worseStatus a b = worseStatus b a := by
  unfold worseStatus
  simp only [or_comm]

/-- Settles O42: a sum that is clamped differs from its clamp, and every step of the output stage ends in `clamp40`. -/
theorem saturationAndOutputRanges : Obligations.SaturationAndOutputRanges := by
  refine ⟨fun a p => ⟨sat32_eq _, ?_, ?_⟩, fun p a k pos => ?_, stepS_range, fun x t => clamp40_range _,
    fun y => ⟨toFp4_lt y, toLog4_lt y⟩, fun a b => ⟨worseStatus_comm a b, fun worst => ?_⟩⟩
  · unfold accumulate
    rw [bne_iff_ne, sat32_eq]
    omega
  · exact accVal_accWord (accumulate_range a p).1 (accumulate_range a p).2
  · obtain ⟨k, rfl⟩ := Nat.exists_eq_succ_of_ne_zero (Nat.ne_of_gt pos)
    exact accumulate_range _ _
  · unfold worseStatus
    rw [if_pos (.inl worst)]

end Sys2Proof.Machine
end

section
/-! SUPPORT. Reads that clear a register (R6, R8). -/

set_option Elab.async false

namespace Sys2Proof.Machine

theorem mask_of_fault {x : RegRow} (h : x ∈ allRows) (hn : x.name = .TC_FAULT) : x.mask = 0x3FFFFF := by
  have found := rowIn_name h
  rw [hn] at found
  have row : (rowIn .TC_FAULT allRows).map (·.mask) = some 0x3FFFFF := by decide
  simpa [found] using row

/-- TC_FAULT is one register in each core. -/
theorem idx_of_fault {n i : Nat} (h : regOk .TC_FAULT n i = true) : i = 0 := by
  have row : (rowIn .TC_FAULT allRows).map (fun x => x.count * x.count2) = some 1 := by decide
  obtain ⟨x, found, one⟩ := Option.map_eq_some_iff.1 row
  unfold regOk at h
  rw [found] at h
  simp only [Bool.and_eq_true, decide_eq_true_eq, one] at h
  omega

/-- The registers that a clearing read leaves: that register holds the event. -/
theorem rcClear_regs (s : State) {l : RegLoc} (row : l.row ∈ allRows) (ok : regOk l.row.name l.unit l.idx = true)
    (own : l.row.name ∉ [.CISTERN_POOL_MIN, .CISTERN_POOL_FAIL, .TRK_STORE_PEAK]) (event : W64) :
    (s.rcClear l event).regs =
      (s.setReg l.row.name l.unit l.idx (event &&& BitVec.ofNat 64 l.row.mask)).regs := by
  unfold State.rcClear
  split
  · next name => exact absurd (by rw [name]; decide) own
  · next name => exact absurd (by rw [name]; decide) own
  · next name => exact absurd (by rw [name]; decide) own
  · next name =>
    rw [name] at ok
    rw [name, mask_of_fault row name, idx_of_fault ok]
    dsimp only
    split <;> rfl
  · rfl

/-- Beside the registers, a clearing read of such a register changes at most the core of a fault. -/
theorem rcClear_fields (s : State) {l : RegLoc}
    (own : l.row.name ∉ [.CISTERN_POOL_MIN, .CISTERN_POOL_FAIL, .TRK_STORE_PEAK]) (event : W64) :
    (s.rcClear l event).pools = s.pools ∧ (s.rcClear l event).trk = s.trk := by
  unfold State.rcClear
  split
  · next name => exact absurd (by rw [name]; decide) own
  · next name => exact absurd (by rw [name]; decide) own
  · next name => exact absurd (by rw [name]; decide) own
  · dsimp only
    split <;> simp [State.updCore]
  · simp

theorem rcClear_slu (s : State) {l : RegLoc} (other : l.row.name ≠ .TC_FAULT) (event : W64) :
    (s.rcClear l event).slu = s.slu := by
  unfold State.rcClear
  split
  · split <;> rfl
  · split <;> rfl
  · rfl
  · next name => exact absurd name other
  · simp

/-- A halted core whose TC_FAULT is read is idle again (R127). -/
theorem rcClear_core (s : State) {l : RegLoc} (name : l.row.name = .TC_FAULT) (event : W64) (n : Nat) :
    (s.rcClear l event).core n =
      if n = l.unit ∧ (s.core n).st = .halted then { s.core n with st := .idle } else s.core n := by
  have kept (k : Nat) : (s.setReg .TC_FAULT l.unit 0 (event &&& 0x3FFFFF#64)).core k = s.core k := core_congr (by simp) k
  unfold State.rcClear
  rw [name]
  dsimp only
  by_cases halted : (s.core l.unit).st = .halted
  · rw [if_pos (by simp [halted])]
    unfold State.updCore
    rw [core_setCore, kept, kept]
    by_cases own : n = l.unit
    · subst own
      simp [halted]
    · simp [own]
  · rw [if_neg (by simp [halted]), kept, if_neg]
    rintro ⟨rfl, h⟩
    exact halted h

/-- A clearing read of a value of a pool. -/
theorem setPool_spec {s : State} {k : Nat} {f : Pool → Pool} (id : ∀ p, (f p).id = p.id) {t : State}
    (absent : s.pool k = none → t = s) (present : ∀ p, s.pool k = some p → t = s.setPool (f p)) :
    t.regs = s.regs ∧ t.trk = s.trk ∧ (s.pool k = none → t.pools = s.pools) ∧
    (∀ p, s.pool k = some p → t.pool k = some (f p)) ∧ ∀ n, n ≠ k → t.pool n = s.pool n := by
  cases found : s.pool k with
  | none =>
    rw [absent found]
    exact ⟨rfl, rfl, fun _ => rfl, fun p some => absurd some (by simp), fun _ _ => rfl⟩
  | some p =>
    rw [present p found]
    refine ⟨rfl, rfl, fun none => absurd none (by simp), fun q some => ?_, fun n ne => ?_⟩
    · cases some
      exact pool_update found (id p)
    · rw [pool_setPool, if_neg]
      rw [id, pool_id found]
      exact ne.symm

theorem pool_congr {s t : State} (h : t.pools = s.pools) (n : Nat) : t.pool n = s.pool n := by
  unfold State.pool
  rw [h]

/-- Settles O36: the value is read before `rcClear`, whose lemmas above say what it leaves. -/
theorem readClearKeepsTheEvent : Obligations.ReadClearKeepsTheEvent := by
  intro fn off event s
  refine completes_of rfl (execRcRead_keeps (.refl s) fn off event (Within.mem _)) (by decide) ⟨fun no => ?_, ?_⟩
  · exact onReg_of_unreached no _ _
  · intro l up found
    refine ⟨fun other => ?_, fun rc => ?_⟩
    · unfold State.onReg
      rw [found]
      exact when_neg s (by simp [other]) _
    · obtain ⟨row, ok⟩ := fnReg_some found
      rw [onReg_of_reached up found (by simp [rc])]
      have read : s.readWhole l event = ((s.peek l).toNat, s.rcClear l event) := by
        unfold State.readWhole
        rw [if_pos rc]
      rw [read]
      unfold State.answer
      have out : (s.rcClear l event).out = s.out := (rcClear_keeps (.refl s) l event (Within.mem _)).out_eq (by decide)
      refine ⟨?_, fun own => ?_, fun other => ?_, fun name => ?_, fun name => ?_, fun name => ?_, fun name n => ?_⟩
      · exact congrArg (· ++ _) out
      · obtain ⟨pools, trk⟩ := rcClear_fields s own event
        have regs := rcClear_regs s row ok own event
        refine ⟨?_, by simp [pools], by simp [trk], fun r u i okr ne => ?_⟩
        · rw [reg_congr (by simpa using regs), reg_setReg_self _ _ ok]
        · rw [reg_congr (by simpa using regs), reg_setReg_other _ _ okr ne]
      · simp [rcClear_slu s other]
      · obtain ⟨regs, trk, none, own, others⟩ := setPool_spec (k := l.idx) (f := fun p => { p with lowest := p.free })
          (t := s.rcClear l event) (fun _ => rfl) (fun none => by unfold State.rcClear; rw [name, none])
          (fun p some => by unfold State.rcClear; rw [name, some])
        exact ⟨regs, trk, none, own, others⟩
      · obtain ⟨regs, trk, none, own, others⟩ := setPool_spec (k := l.idx)
          (f := fun p => { p with fails := event.toNat % 2 ^ 32 }) (t := s.rcClear l event) (fun _ => rfl)
          (fun none => by unfold State.rcClear; rw [name, none]) (fun p some => by unfold State.rcClear; rw [name, some])
        exact ⟨regs, trk, none, own, others⟩
      · have peak : s.rcClear l event = { s with trk := { s.trk with storePeak := s.trk.tracks.length } } := by
          unfold State.rcClear
          rw [name]
        rw [peak]
        exact ⟨rfl, rfl, rfl⟩
      · rw [core_congr (s := s.rcClear l event) (by simp)]
        exact rcClear_core s name event n

end Sys2Proof.Machine
end

section
/-! SUPPORT. Register writes by access type, and words of 64-bit registers (R6, R9 to R12). -/

set_option Elab.async false

namespace Sys2Proof.Machine

/-! ## A stored value -/

/-- What follows from a store beside the register's own value. -/
def storeEffects : List Comp :=
  Comp.sprint ++ [.ingEvt, .ingScanPending, .trkRings, .reg .DMC_ADVISE, .reg .ICU_ADVISE]

/-- What follows from a store leaves every register of the stored row as it is. -/
theorem afterStore_own {cs : Comp → Prop} {u s : State} (h : Keeps cs u s) (l : RegLoc) (old new : Nat)
    (hd : ∀ c ∈ storeEffects, c ≠ .reg l.row.name → cs c) : Keeps cs u (s.afterStore l old new) := by
  have within {ds : List Comp} (sub : ∀ c ∈ ds, c ∈ storeEffects ∧ c ≠ .reg l.row.name) : Within ds cs :=
    fun c m => hd c (sub c m).1 (sub c m).2
  unfold State.afterStore
  split
  · next name =>
    have hd : Within [Comp.icuPend] cs := within (by rw [name]; decide)
    split
    · exact h
    · exact keeps_mk h
  · next name => exact softEdges_keeps h _ _ _ (within (by rw [name]; decide))
  · next name =>
    exact settleRail_keeps (sprintCheck_keeps h (within (by rw [name]; decide))) (within (by rw [name]; decide))
  · next name => exact sprintCheck_keeps h (within (by rw [name]; decide))
  · next name => exact sprintCheck_keeps h (within (by rw [name]; decide))
  · next name => exact sprintCheck_keeps h (within (by rw [name]; decide))
  · next name => exact sprintCheck_keeps h (within (by rw [name]; decide))
  · next name => exact adviseAll_keeps h _ _ (within (by rw [name]; decide))
  · next name => exact adviseAll_keeps h _ _ (within (by rw [name]; decide))
  · next name => exact when_keeps h _ (advise_keeps h _ (within (by rw [name]; decide)))
  · next name => exact when_keeps h _ (setScanPending_keeps h _ (within (by rw [name]; decide)))
  · next name => exact when_keeps h _ (setEvt_keeps h _ (within (by rw [name]; decide)))
  · next name => exact when_keeps h _ (setEvt_keeps h _ (within (by rw [name]; decide)))
  · next name => exact when_keeps h _ (setRing_keeps h _ _ (within (by rw [name]; decide)))
  · next name => exact when_keeps h _ (setRing_keeps h _ _ (within (by rw [name]; decide)))
  · exact h

/-- The value that a register takes for a written one (R12, R379). -/
def storedAs (p : Part) (l : RegLoc) (v : W64) : W64 :=
  BitVec.ofNat 64 (takenAs p l.row.name (BitVec.ofNat 64 (pointAs l.row.name v.toNat) &&& BitVec.ofNat 64 l.row.mask).toNat)

/-- A store in a register that is not a delay register. -/
theorem store_spec (s : State) {l : RegLoc} (ok : regOk l.row.name l.unit l.idx = true) (plain : isDelay l = false) (v : W64) :
    (s.store l v).reg l.row.name l.unit l.idx = storedAs s.dev.part l v ∧
    changesOnly (Comp.stores l.row.name) s (s.store l v) ∧
    ∀ u i, regOk l.row.name u i = true → (u ≠ l.unit ∨ i ≠ l.idx) →
      (s.store l v).reg l.row.name u i = s.reg l.row.name u i := by
  have put : s.store l v = (s.setReg l.row.name l.unit l.idx (storedAs s.dev.part l v)).afterStore l
      (s.reg l.row.name l.unit l.idx).toNat (takenAs s.dev.part l.row.name
        (BitVec.ofNat 64 (pointAs l.row.name v.toNat) &&& BitVec.ofNat 64 l.row.mask).toNat) := by
    unfold State.store
    rw [if_neg (by simp [plain])]
    rfl
  rw [put]
  generalize storedAs s.dev.part l v = x
  generalize (s.reg l.row.name l.unit l.idx).toNat = old
  generalize takenAs s.dev.part l.row.name _ = new
  have kept {u i : Nat} (okr : regOk l.row.name u i = true) :=
    (afterStore_own (cs := fun c => c ∈ storeEffects ∧ c ≠ .reg l.row.name) (.refl (s.setReg l.row.name l.unit l.idx x)) l old new
      fun c m ne => ⟨m, ne⟩).reg l.row.name u i (fun h => absurd h.1 (by decide)) (fun h => h.2 rfl) okr
  refine ⟨?_, ?_, fun u i okr ne => ?_⟩
  · rw [kept ok, reg_setReg_self _ _ ok]
  · have first : Keeps (fun c => c ∈ Comp.stores l.row.name) s (s.setReg l.row.name l.unit l.idx x) :=
      setReg_keeps (.refl s) _ _ _ _ (.inr (List.mem_append_right _ (by simp)))
    refine (afterStore_own first l old new fun c m _ => ?_).changesOnly
    have mem : c ∈ Comp.sprint ++ [.ingEvt, .ingScanPending, .trkRings, .reg .DMC_ADVISE, .reg .ICU_ADVISE] := m
    unfold Comp.stores
    rw [List.mem_append] at mem ⊢
    exact mem.imp_right fun m => List.mem_append_left [Comp.reg l.row.name] m
  · rw [kept okr, reg_setReg_other _ _ okr (.inr ne)]

/-! ## Which register a write reaches -/

/-- A fact about the row of a name. -/
theorem row_of_name {x : RegRow} (h : x ∈ allRows) {r : Reg} (hn : x.name = r) {f : RegRow → α} {v : α}
    (e : (rowIn r allRows).map f = some v) : f x = v := by
  have found := rowIn_name h
  rw [hn] at found
  rw [found] at e
  exact Option.some.inj e

theorem regAt_blk {off u loc : Nat} {b : Block} {l : RegLoc} (h : regAt off = some l) (place : locate off = some (b, u, loc)) :
    l.row.blk = b := by
  unfold regAt at h
  rw [place] at h
  obtain ⟨mem, -, -⟩ := findRow_some h
  exact blk_of_mem mem

/-- A VF reaches no register of a DRAM controller (R386). -/
theorem vfReg_blk {fn off : Nat} (hf : fn < 32) {l : RegLoc} (h : vfReg fn off = some l) : l.row.blk ≠ .dmc := by
  unfold vfReg at h
  split at h
  · obtain ⟨found, name⟩ := Option.filter_eq_some_iff.1 h
    simp only [Bool.or_eq_true, beq_iff_eq] at name
    have row := (regAt_some found).1
    rcases name with (name | name) | name
    · rw [row_of_name row name (f := RegRow.blk) (v := .glb) (by decide)]
      decide
    · rw [row_of_name row name (f := RegRow.blk) (v := .glb) (by decide)]
      decide
    · rw [row_of_name row name (f := RegRow.blk) (v := .glb) (by decide)]
      decide
  · split at h
    · next inside =>
      have place : locate (0x0E00000 + 32 * fn + (off - 0x20000)) =
          some (.ring, (0x0E00000 + 32 * fn + (off - 0x20000) - 0x0E00000) / 32,
            (0x0E00000 + 32 * fn + (off - 0x20000) - 0x0E00000) % 32) := by
        unfold locate
        iterate 14 rw [if_neg (by omega)]
        rw [if_pos (by omega)]
      rw [regAt_blk h place]
      decide
    · split at h
      · next inside =>
        have place : locate (0x0700008 + (off - 0x30008)) = some (.cistern, 0, 0x0700008 + (off - 0x30008) - 0x0700000) := by
          unfold locate
          iterate 8 rw [if_neg (by omega)]
          rw [if_pos (by omega)]
        rw [regAt_blk h place]
        decide
      · cases h

theorem barUp_lt {s : State} {fn : Nat} (up : s.barUp fn = true) : fn < 32 := by
  unfold State.barUp State.fnEnabled at up
  simp only [Bool.and_eq_true, Bool.or_eq_true, decide_eq_true_eq] at up
  omega

theorem barUp_glbUp {s : State} {fn : Nat} (up : s.barUp fn = true) : s.glbUp = true := by
  unfold State.barUp at up
  exact (Bool.and_eq_true .. ▸ up).1

/-- A delay register is one of 32 bits that takes writes, in a DRAM controller. -/
theorem isDelay_row {l : RegLoc} (row : l.row ∈ allRows) (h : isDelay l = true) :
    l.row.acc = .rw ∧ l.row.wide = false ∧ l.row.blk = .dmc := by
  rcases isDelay_name h with name | name
  · exact ⟨row_of_name row name (f := RegRow.acc) (by decide +kernel), row_of_name row name (f := RegRow.wide) (by decide +kernel),
      row_of_name row name (f := RegRow.blk) (by decide +kernel)⟩
  · exact ⟨row_of_name row name (f := RegRow.acc) (by decide +kernel), row_of_name row name (f := RegRow.wide) (by decide +kernel),
      row_of_name row name (f := RegRow.blk) (by decide +kernel)⟩

/-- Only the PF reaches delay registers, those of towers that the part has. -/
theorem isDelay_reached {s : State} {fn off : Nat} {l : RegLoc} (up : s.barUp fn = true) (found : s.fnReg fn off = some l)
    (h : isDelay l = true) : regAt off = some l ∧ towerPresent s.dev.part l.unit = true := by
  obtain ⟨reached, up'⟩ := Option.filter_eq_some_iff.1 found
  have blk := (isDelay_row (fnReg_some found).1 h).2.2
  split at reached
  · refine ⟨reached, ?_⟩
    rw [blk] at up'
    exact (Bool.and_eq_true .. ▸ up').1
  · exact absurd blk (vfReg_blk (barUp_lt up) reached)

/-! ## Writes -/

/-- A write to nothing. -/
theorem write_unreached {s : State} {fn off : Nat} {wide : Bool} {val : W64} (low : s.fnReg fn off = none)
    (high : wide = false ∨ s.fnReg fn (off + 4) = none) :
    (if wide = true then s.write64 fn off val else s.write32 fn off (val.setWidth 32)) = s := by
  have none32 {o : Nat} {w : W32} (h : s.fnReg fn o = none) : s.write32 fn o w = s := by
    unfold State.write32
    rw [h]
  cases wide with
  | false => exact none32 low
  | true =>
    rw [if_pos rfl]
    unfold State.write64
    rw [low]
    dsimp only
    rw [none32 low, none32 (high.resolve_left (by decide))]

/-- An access of a register's own width is one write of that register. -/
theorem write_reached {s : State} {fn off : Nat} {val : W64} {l : RegLoc} (found : s.fnReg fn off = some l)
    (high : l.high = false) :
    (if l.row.wide = true then s.write64 fn off val else s.write32 fn off (val.setWidth 32)) =
      s.writeReg fn l (if l.row.wide = true then val else (val.setWidth 32).setWidth 64) 0 := by
  cases wide : l.row.wide with
  | false =>
    rw [if_neg (by decide), if_neg (by decide)]
    unfold State.write32
    rw [found]
    dsimp only
    rw [if_pos (by simp [wide])]
  | true =>
    rw [if_pos rfl, if_pos rfl]
    unfold State.write64
    rw [found]
    dsimp only
    rw [if_pos (by simp [wide, high])]

/-- A write that the access type does not take (R6, R9). -/
theorem writeReg_refused {s : State} {l : RegLoc} (h : l.row.acc = .ro ∨ l.row.acc = .rc ∨ l.row.acc = .rwl ∧ s.ldr.locked = true)
    (fn : Nat) (v hw : W64) : s.writeReg fn l v hw = s := by
  unfold State.writeReg
  rcases h with h | h | ⟨h, locked⟩
  · rw [h]
  · rw [h]
  · rw [h]
    exact if_pos locked

/-- A write that the register stores (R6, R9). -/
theorem writeReg_stores {s : State} {l : RegLoc} (h : l.row.acc = .rw ∨ l.row.acc = .rwl ∧ s.ldr.locked = false)
    (fn : Nat) (v hw : W64) : s.writeReg fn l v hw = s.store l v := by
  unfold State.writeReg
  rcases h with h | ⟨h, locked⟩
  · rw [h]
  · rw [h]
    exact if_neg (by simp [locked])

theorem writeReg_w1c {s : State} {l : RegLoc} (h : l.row.acc = .w1c) (fn : Nat) (v hw : W64) :
    s.writeReg fn l v hw = s.clearBits l v hw := by
  unfold State.writeReg
  rw [h]

/-- A write to a write-only register runs its row. -/
theorem writeReg_triggers (s : State) {l : RegLoc} (row : l.row ∈ allRows) {r : Reg} (name : l.row.name = r)
    (wo : (rowIn r allRows).map RegRow.acc = some .wo) (fn : Nat) (v hw : W64) :
    s.writeReg fn l v hw = s.trigger fn l v := by
  unfold State.writeReg
  rw [row_of_name row name wo]

theorem bitAt_zero {v : W64} (h : v.getLsbD 0 = true) : bitAt v.toNat 0 = true := by
  rw [BitVec.getLsbD, Nat.testBit_zero] at h
  simpa [bitAt] using h

theorem field_low {v n r : Nat} (h : v % 2 ^ n = r) : field v 0 n = r := by
  unfold field
  rwa [Nat.pow_zero, Nat.div_one]

/-- Settles O34: an access of a register's own width is `State.writeReg`, whose lemmas by access type are above; a stored value
and its effects are those of `store_spec`. -/
theorem registerWritesByAccessType : Obligations.RegisterWritesByAccessType := by
  refine ⟨fun fn off wide val s => ?_, fun fn off val s => ?_⟩
  · refine ⟨_, rfl, fun down => when_neg s (by simp [down]) _, fun up none high => ?_, ?_⟩
    · rw [when_eq s up]
      exact write_unreached none high
    · rintro l up found rfl low
      obtain ⟨row, ok⟩ := fnReg_some found
      have glb := barUp_glbUp up
      rw [when_eq s up]
      dsimp only
      rw [write_reached found low]
      generalize v_eq : (if l.row.wide = true then val else (val.setWidth 32).setWidth 64) = v
      refine ⟨fun refused => writeReg_refused refused fn v 0, fun stores plain => ?_, fun w1c other => ?_, fun delay => ?_,
        fun name => ?_, fun name => ?_, fun name cause => ?_, fun name cmd => ?_, fun name start => ?_, fun name ending => ?_,
        fun name load => ?_, fun name lock => ?_, fun name unload => ?_⟩
      · rw [writeReg_stores stores fn v 0]
        exact store_spec s ok plain v
      · rw [writeReg_w1c w1c fn v 0, clearBits_eq_updReg s other]
        refine ⟨?_, (updReg_keeps (.refl s) _ _ _ _ (.inr List.mem_cons_self)).changesOnly⟩
        rw [updReg_reg _ _ _ _ _ ok]
        simp
      · obtain ⟨acc, narrow, -⟩ := isDelay_row row delay
        obtain ⟨here, tower⟩ := isDelay_reached up found delay
        rw [narrow, if_neg (by decide)] at v_eq
        rw [writeReg_stores (.inl acc) fn v 0]
        have direct : exec (.delayRegisterWrite off (val.setWidth 32)) s = .next (s.when (isDelay l && towerPresent s.dev.part
            l.unit) fun s => s.writeDelay l ((val.setWidth 32).setWidth 64)) := by
          change execDelayRegisterWrite off (val.setWidth 32) s = _
          unfold execDelayRegisterWrite
          rw [here]
        rw [direct, when_eq s (by simp [delay, tower]), v_eq]
        unfold State.store
        rw [if_pos delay]
      · rw [writeReg_triggers s row name (by decide +kernel)]
        unfold State.trigger
        rw [name]
        rfl
      · rw [writeReg_triggers s row name (by decide +kernel)]
        unfold State.trigger
        rw [name]
        rfl
      · rw [writeReg_triggers s row name (by decide +kernel)]
        unfold State.trigger
        rw [name]
        change execSnapshotNow s = _
        unfold execSnapshotNow
        rw [when_eq s (bitAt_zero cause)]
      · rw [writeReg_triggers s row name (by decide +kernel)]
        unfold State.trigger
        rw [name]
        change execResume s = _
        unfold execResume
        rw [when_eq s (beq_iff_eq.2 cmd)]
      · rw [writeReg_triggers s row name (by decide +kernel)]
        unfold State.trigger
        rw [name]
        change execRecalStart l.unit _ s = _
        unfold execRecalStart State.recalCtrl
        rw [show field v.toNat 0 2 = 1 from field_low start]
        rfl
      · rw [writeReg_triggers s row name (by decide +kernel)]
        unfold State.trigger
        rw [name]
        change execRecalEnd l.unit s = _
        unfold execRecalEnd State.recalCtrl
        rw [show field v.toNat 0 2 = 2 from field_low ending]
        rfl
      · rw [writeReg_triggers s row name (by decide +kernel)]
        unfold State.trigger
        rw [name]
        change execImgLoad s = _
        unfold execImgLoad State.imgCtrl
        rw [when_eq s glb, load]
        rfl
      · rw [writeReg_triggers s row name (by decide +kernel)]
        unfold State.trigger
        rw [name]
        change execImgLock s = _
        unfold execImgLock State.imgCtrl
        rw [when_eq s glb, lock]
        rfl
      · rw [writeReg_triggers s row name (by decide +kernel)]
        unfold State.trigger
        rw [name]
        change execImgUnload s = _
        unfold execImgUnload State.imgCtrl
        rw [when_eq s glb, unload]
        rfl
  · refine ⟨_, rfl, fun no => onReg_of_unreached no _ _, fun l up found => ⟨fun refused => ?_, fun plain stores => ?_⟩⟩
    · unfold State.onReg
      rw [found]
      refine when_neg s (fun taken => ?_) _
      simp only [Bool.and_eq_true, Bool.or_eq_true, beq_iff_eq, Bool.not_eq_true', or_assoc] at taken
      obtain ⟨-, acc | acc | ⟨acc, free⟩⟩ := taken
      · exact refused.elim (fun out => out (by simp [acc])) (fun h => absurd h.1 (by simp [acc]))
      · exact refused.elim (fun out => out (by simp [acc])) (fun h => absurd h.1 (by simp [acc]))
      · exact refused.elim (fun out => out (by simp [acc])) (fun h => absurd h.2 (by simp [free]))
    · rw [onReg_of_reached up found (by rcases stores with h | h | ⟨h, free⟩ <;> simp [*])]
      obtain ⟨own, only, -⟩ := store_spec s (fnReg_some found).2 plain (s.reg l.row.name l.unit l.idx ||| val)
      exact ⟨own, only⟩

/-! ## Words of 64-bit registers -/

theorem leBytes_mod (n k v : Nat) (h : n ≤ k) : leBytes n (v % 256 ^ k) = leBytes n v := by
  induction n generalizing k v with
  | zero => rfl
  | succ n ih =>
    obtain ⟨k, rfl⟩ := Nat.exists_eq_succ_of_ne_zero (n := k) (by omega)
    unfold leBytes
    have low : v % 256 ^ (k + 1) % 256 = v % 256 := Nat.mod_mod_of_dvd v (Dvd.intro_left _ (Nat.pow_succ ..).symm)
    have high : v % 256 ^ (k + 1) / 256 = v / 256 % 256 ^ k := by
      rw [Nat.pow_succ, Nat.mul_comm, Nat.mod_mul_right_div_self]
    refine congrArg₂ List.cons (BitVec.eq_of_toNat_eq ?_) ?_
    · simp [low]
    · rw [high]
      exact ih k _ (by omega)

theorem high_word (v : W64) : BitVec.ofNat 32 (v.toNat / 2 ^ 32) = (v >>> 32).setWidth 32 := by
  apply BitVec.eq_of_toNat_eq
  simp [Nat.shiftRight_eq_div_pow]

theorem word_append (v low : W32) : (v.setWidth 64 <<< 32) ||| low.setWidth 64 = v ++ low := by
  apply BitVec.eq_of_getLsbD_eq
  intro i hi
  simp only [BitVec.getLsbD_or, BitVec.getLsbD_shiftLeft, BitVec.getLsbD_setWidth, BitVec.getLsbD_append]
  by_cases h : i < 32
  · simp [h, hi]
  · simp [h, hi, show i - 32 < 64 by omega, BitVec.getLsbD_of_ge low i (by omega)]

/-- A register that a function reaches is not the place of HEP_VF_INFO (R386). -/
theorem fnReg_not_info {s : State} {fn off : Nat} {l : RegLoc} (found : s.fnReg fn off = some l) : ¬ (fn ≠ 0 ∧ off = 0x10000) := by
  rintro ⟨vf, rfl⟩
  have reached := (Option.filter_eq_some_iff.1 found).1
  rw [if_neg vf] at reached
  cases reached

/-- A 32-bit read of a high word by a function that takes it (R10). -/
theorem hostRead_high {s : State} {fn off : Nat} {l : RegLoc} (found : s.fnReg fn off = some l) (al : off % 4 = 0)
    (wide : l.row.wide = true) (high : l.high = true) :
    s.hostReadReq fn 0 off 4 = (s.readHigh fn l).2.answer fn 4 (s.readHigh fn l).1 := by
  have open4 : s.allReserved fn 0 off 4 = false := by
    unfold State.allReserved State.reserved0
    simp [found]
  have word : s.read32 fn off = s.readHigh fn l := by
    unfold State.read32
    rw [if_neg (fnReg_not_info found), found]
    dsimp only
    rw [if_neg (by simp [wide]), if_pos high]
  unfold State.hostReadReq State.readBar
  simp [aligned48, al, open4, word]

/-- The live high word, where the shadow does not name the register. -/
theorem readHigh_live {s : State} {fn : Nat} {l : RegLoc} (h : ∀ w, (s.fn fn).readShadow ≠ some (l.off, w)) :
    s.readHigh fn l = ((s.peek l).toNat / 2 ^ 32, s) := by
  unfold State.readHigh
  split
  · next o w shadow =>
    refine if_neg ?_
    rintro rfl
    exact h w shadow
  · rfl

/-- The low word that a write of a high word takes (R11). -/
theorem shadowLow_eq {f : FnState} {off : Nat} {low : W32}
    (h : f.writeShadow = some (off, low) ∨ low = 0 ∧ ∀ w, f.writeShadow ≠ some (off, w)) : f.shadowLow off = low := by
  unfold FnState.shadowLow
  rcases h with h | ⟨rfl, none⟩
  · rw [h]
    exact if_pos rfl
  · split
    · next o w shadow =>
      refine if_neg ?_
      rintro rfl
      exact none w shadow
    · rfl

/-- Settles O37: a host's read of a high word is `hostRead_high`, a write of one is a store of both words. -/
theorem wordShadows : Obligations.WordShadows := by
  refine ⟨fun fn off s => ?_, fun fn off l s alive mem inside al found wide high => ?_, fun fn off val s => ?_,
    fun fn off val s => ?_⟩
  · refine completes_of rfl (execLowWordRead_keeps (.refl s) fn off (Within.mem _)) (by decide)
      ⟨fun no => onReg_of_unreached no _ _, fun l up found wide low => ?_⟩
    rw [onReg_of_reached up found (by simp [wide, low])]
    have bytes : leBytes 4 ((s.peek l).toNat % 2 ^ 32) = leBytes 4 (s.peek l).toNat := leBytes_mod 4 4 _ (Nat.le_refl _)
    refine ⟨congrArg (fun b => s.out ++ [OutMsg.completion fn .ok b]) bytes, ?_, fun n ne => ?_⟩
    · refine (fn_setFn_self _ _ _).trans ?_
      rw [high_word]
    · exact (fn_setFn _ _ _ _).trans (if_neg ne)
  · refine ⟨_, exec_hostRead alive mem inside, ?_⟩
    rw [hostRead_high found al wide high]
    refine ⟨fun w shadow => ?_, fun live => ?_⟩
    · unfold State.readHigh
      rw [shadow]
      dsimp only
      rw [if_pos rfl]
      exact ⟨rfl, congrArg FnState.readShadow (fn_setFn_self _ _ _)⟩
    · rw [readHigh_live live]
      exact ⟨rfl, rfl⟩
  · refine completes_of rfl (execLowWordWrite_keeps (.refl s) fn off val (Within.mem _)) (by decide)
      ⟨fun no => onReg_of_unreached no _ _, fun l up found wide low => ?_⟩
    rw [onReg_of_reached up found (by simp [wide, low])]
    exact ⟨fn_setFn_self _ _ _, fun n ne => (fn_setFn _ _ _ _).trans (if_neg ne)⟩
  · refine ⟨_, rfl, fun no => onReg_of_unreached no _ _, fun l up found wide high stores plain low shadow => ?_⟩
    rw [onReg_of_reached up found (by simp [wide, high])]
    unfold State.writeHigh
    rw [shadowLow_eq shadow, word_append, writeReg_stores stores]
    obtain ⟨own, only, -⟩ := store_spec s (fnReg_some found).2 plain (val ++ low)
    exact ⟨own, only⟩

end Sys2Proof.Machine
end

section
/-! SUPPORT. A unit's writes to DRAM, block by block (R326). -/

set_option Elab.async false

namespace Sys2Proof.Machine

theorem mergeRead_dram (s : State) (port b : Nat) :
    (s.mergeRead port b).dram.bytes = s.dram.bytes ∧ (s.mergeRead port b).dram.poison = s.dram.poison := by
  have k := mergeRead_keeps (.refl s) port b (Within.mem _)
  exact ⟨k.dram.bytes.resolve_left (by decide), k.dram.poison.resolve_left (by decide)⟩

/-- One block's write stores its bytes, or nothing at a poisoned block. -/
theorem putBlock_bytes (s : State) (port a : Nat) (data : List Byte) :
    (s.putBlock port a data).dram.bytes = s.dram.bytes ∨
      (s.putBlock port a data).dram.bytes = Mem.writeList s.dram.bytes a data := by
  unfold State.putBlock
  split
  · exact .inl rfl
  · split
    · exact .inr (by simp [State.countWrite, State.setDramBytes, State.setPoison])
    · dsimp only
      split
      · exact .inl ((congrArg Dram.bytes (dmcLog_dram _ _ _ _)).trans (mergeRead_dram _ _ _).1)
      · refine .inr ?_
        simp [State.countWrite, State.setDramBytes, (mergeRead_dram s port (a / 64)).1]

/-- A write of a whole block clears its poison (R326). -/
theorem putBlock_full (s : State) (port a : Nat) {data : List Byte} (full : data.length = 64) :
    (s.putBlock port a data).dram.bytes = Mem.writeList s.dram.bytes a data ∧
    ∀ c, (s.putBlock port a data).poisoned c = if c = a / 64 then false else s.poisoned c := by
  have some : data ≠ [] := by
    rintro rfl
    simp at full
  unfold State.putBlock
  rw [if_neg some, if_pos full]
  refine ⟨by simp [State.countWrite, State.setDramBytes, State.setPoison], fun c => ?_⟩
  refine Eq.trans ?_ (poisoned_setPoison (s.setDramBytes (Mem.writeList s.dram.bytes a data)) (a / 64) c false)
  unfold State.poisoned
  simp [State.countWrite]

theorem pieces_inside {k a : Nat} {data : List Byte} {x : Nat × List Byte} (h : x ∈ pieces k a data) :
    a ≤ x.1 ∧ x.1 + x.2.length ≤ a + data.length := by
  induction k generalizing a data with
  | zero => simp [pieces] at h
  | succ k ih =>
    cases data with
    | nil => simp [pieces] at h
    | cons b bs =>
      unfold pieces at h
      rcases List.mem_cons.1 h with rfl | h
      · refine ⟨Nat.le_refl _, ?_⟩
        have few := List.length_take_le' (64 - a % 64) (b :: bs)
        dsimp only
        omega
      · obtain ⟨low, high⟩ := ih h
        have rest := List.length_drop (i := 64 - a % 64) (l := b :: bs)
        by_cases past : (b :: bs).length ≤ 64 - a % 64
        · rw [List.drop_eq_nil_of_le past] at h
          cases k <;> simp [pieces] at h
        · omega

/-- Bytes beside a write stay. -/
theorem dramPut_other (s : State) (port a : Nat) (data : List Byte) {b : Nat} (h : b < a ∨ a + data.length ≤ b) :
    (s.dramPut port a data).dramByte b = s.dramByte b := by
  have each (ps : List (Nat × List Byte)) (out : ∀ x ∈ ps, b < x.1 ∨ x.1 + x.2.length ≤ b) (s : State) :
      (s.putPieces port ps).dramByte b = s.dramByte b := by
    induction ps generalizing s with
    | nil => rfl
    | cons x ps ih =>
      obtain ⟨y, bs⟩ := x
      unfold State.putPieces
      rw [ih fun z m => out z (List.mem_cons_of_mem _ m)]
      unfold State.dramByte
      rcases putBlock_bytes s port y bs with same | put
      · rw [same]
      · rw [put]
        exact Mem.read_writeList_ne _ _ _ (out (y, bs) List.mem_cons_self)
  exact each _ (fun x m => by have inside := pieces_inside m; omega) s

theorem Mem.writeList_append (m : Mem) (a : Nat) (xs ys : List Byte) :
    Mem.writeList m a (xs ++ ys) = Mem.writeList (Mem.writeList m a xs) (a + xs.length) ys := by
  induction xs generalizing m a with
  | nil => rfl
  | cons x xs ih =>
    rw [List.cons_append, Mem.writeList, Mem.writeList, ih, List.length_cons]
    congr 1
    omega

/-- A write of whole blocks stores all its bytes and clears the poison of its blocks (R326). -/
theorem dramPut_full (s : State) (port : Nat) {a n : Nat} {data : List Byte} (al : a % 64 = 0) (len : data.length = 64 * n) :
    (s.dramPut port a data).dram.bytes = Mem.writeList s.dram.bytes a data ∧
    ∀ c, (s.dramPut port a data).poisoned c = if a / 64 ≤ c ∧ c < a / 64 + n then false else s.poisoned c := by
  unfold State.dramPut
  generalize fuel_eq : data.length / 64 + 2 = fuel
  have enough : n < fuel := by omega
  clear fuel_eq
  induction n generalizing s a data fuel with
  | zero =>
    obtain rfl : data = [] := List.eq_nil_of_length_eq_zero (by omega)
    have nothing : pieces fuel a [] = [] := by cases fuel <;> rfl
    rw [nothing]
    exact ⟨rfl, fun c => (if_neg (by omega)).symm⟩
  | succ n ih =>
    obtain ⟨fuel, rfl⟩ := Nat.exists_eq_succ_of_ne_zero (n := fuel) (by omega)
    obtain ⟨b, bs, rfl⟩ := List.exists_cons_of_length_pos (l := data) (by omega)
    unfold pieces
    rw [al, Nat.sub_zero]
    have first : ((b :: bs).take 64).length = 64 := by rw [List.length_take, len]; omega
    obtain ⟨bytes, poison⟩ := putBlock_full s port a first
    unfold State.putPieces
    generalize s.putBlock port a ((b :: bs).take 64) = s1 at *
    have rest : ((b :: bs).drop 64).length = 64 * n := by rw [List.length_drop, len]; omega
    obtain ⟨bytes', poison'⟩ := ih s1 (a := a + 64) (by omega) rest fuel (by omega)
    refine ⟨?_, fun c => ?_⟩
    · rw [bytes', bytes]
      conv_rhs => rw [← List.take_append_drop 64 (b :: bs), Mem.writeList_append, first]
    · rw [poison', poison]
      have next : (a + 64) / 64 = a / 64 + 1 := by omega
      rw [next]
      by_cases own : c = a / 64
      · simp [own]
      · by_cases inside : a / 64 + 1 ≤ c ∧ c < a / 64 + 1 + n
        · rw [if_pos inside, if_pos (by omega)]
        · rw [if_neg inside, if_neg own, if_neg (by omega)]

/-! ## Little-endian values -/

theorem leBytes_length (n v : Nat) : (leBytes n v).length = n := by
  induction n generalizing v with
  | zero => rfl
  | succ n ih => rw [leBytes, List.length_cons, ih]

theorem leVal_leBytes (n v : Nat) : leVal (leBytes n v) = v % 256 ^ n := by
  induction n generalizing v with
  | zero => simp [leBytes, leVal, Nat.mod_one]
  | succ n ih =>
    rw [leBytes, leVal, ih, BitVec.toNat_ofNat]
    exact (by rw [Nat.pow_succ, Nat.mul_comm (256 ^ n), Nat.mod_mul] : v % 256 ^ (n + 1) = _).symm

theorem Mem.readList_eq {m : Mem} {a n : Nat} {bs : List Byte} (len : bs.length = n)
    (h : ∀ i (hi : i < bs.length), Mem.read m (a + i) = bs[i]) : Mem.readList m a n = bs := by
  induction bs generalizing a n with
  | nil =>
    subst len
    rfl
  | cons b bs ih =>
    subst len
    rw [List.length_cons, Mem.readList, ih rfl fun i hi => ?_]
    · exact congrArg (· :: bs) (h 0 (by simp))
    · have next := h (i + 1) (by simpa using hi)
      rw [show a + 1 + i = a + (i + 1) by omega, next]
      rfl

end Sys2Proof.Machine
end

section
/-! SUPPORT. Buffer pools (R339 to R345). -/

set_option Elab.async false

namespace Sys2Proof.Machine

theorem dropAt_length {α : Type} (i : Nat) (l : List α) (h : i < l.length) : (dropAt i l).length = l.length - 1 := by
  induction l generalizing i with
  | nil => simp at h
  | cons x xs ih =>
    cases i with
    | zero => rfl
    | succ i =>
      have inside : i < xs.length := by simpa using h
      rw [dropAt, List.length_cons, ih i inside, List.length_cons]
      omega

@[simp] theorem pool_addTo (s : State) (r : Reg) (u k n : Nat) : (s.addTo r u k).pool n = s.pool n :=
  pool_congr (by simp [State.addTo]) n

@[simp] theorem dramByte_addTo (s : State) (r : Reg) (u k a : Nat) : (s.addTo r u k).dramByte a = s.dramByte a := by
  unfold State.dramByte
  simp [State.addTo]

@[simp] theorem dramByte_setPool (s : State) (p : Pool) (a : Nat) : (s.setPool p).dramByte a = s.dramByte a := rfl

/-! ## Allocation (R341) -/

theorem takeHandle_spec {s : State} {n : Nat} {q : Pool} (found : s.pool n = some q) (some : q.cache ≠ []) :
    (s.takeHandle q).2.reg .CISTERN_CNT_ALLOC 0 0 = s.reg .CISTERN_CNT_ALLOC 0 0 + 1 ∧
    (s.takeHandle q).2.dram = s.dram ∧ (s.takeHandle q).2.icu = s.icu ∧
    ∃ i < q.cache.length, (s.takeHandle q).2.pool n = Option.some (Pool.lower { q with cache := dropAt i q.cache }) := by
  unfold State.takeHandle
  split
  · next none => exact absurd none some
  · next h0 hs cons =>
    dsimp only
    refine ⟨addTo_reg _ _ _ _ (by decide), by simp [State.addTo, State.setPool], by simp [State.addTo, State.setPool],
      Config.freeValue s.freeIdx % q.cache.length, Nat.mod_lt _ (by rw [cons]; simp), ?_⟩
    rw [pool_addTo]
    exact pool_update (s := { s with freeIdx := s.freeIdx + 1 }) found rfl

theorem refill_spec {s : State} {n : Nat} {p : Pool} (found : s.pool n = some p) :
    (s.refill p).pool n = some (Pool.lower { p with
      cache := p.cache ++ s.ringEntries p p.head p.batch, head := p.head + p.batch }) ∧
    (s.refill p).dram.bytes = s.dram.bytes ∧ (s.refill p).dram.poison = s.dram.poison ∧
    (s.refill p).reg .CISTERN_CNT_ALLOC 0 0 = s.reg .CISTERN_CNT_ALLOC 0 0 := by
  unfold State.refill
  have k := visitAll_keeps (.refl s) portCistern (p.entryRanges p.head p.batch) (Within.mem _)
  have pools : (s.visitAll portCistern (p.entryRanges p.head p.batch)).pool n = some p :=
    (pool_congr (k.pools_eq (by decide)) n).trans found
  refine ⟨pool_update pools rfl, k.dram.bytes.resolve_left (by decide), k.dram.poison.resolve_left (by decide), ?_⟩
  exact k.reg_eq (by decide) (by decide) (by decide)

theorem refillUntil_full {s : State} {n : Nat} {p : Pool} (found : s.pool n = some p) (h : p.cache ≠ [] ∨ p.tail ≤ p.head)
    (k : Nat) : s.refillUntil n k = s := by
  cases k with
  | zero => rfl
  | succ k =>
    unfold State.refillUntil
    rw [found]
    refine if_neg fun more => ?_
    simp only [Bool.and_eq_true, decide_eq_true_eq] at more
    rcases h with h | h
    · exact h more.1
    · exact absurd more.2 (by omega)

/-- One batch of the ring fills an empty cache, unless every entry of it is lost. -/
theorem refillUntil_once {s : State} {n : Nat} {p : Pool} (found : s.pool n = some p) (empty : p.cache = [])
    (ring : p.head < p.tail) (some : s.ringEntries p p.head p.batch ≠ []) :
    s.refillUntil n (p.tail - p.head) = s.refill p := by
  obtain ⟨k, fuel⟩ := Nat.exists_eq_succ_of_ne_zero (n := p.tail - p.head) (by omega)
  rw [fuel]
  unfold State.refillUntil
  rw [found]
  dsimp only
  rw [if_pos (by simp [empty, ring])]
  refine refillUntil_full (refill_spec found).1 (.inl ?_) k
  rw [empty]
  exact some

theorem alloc_eq {s : State} {n : Nat} {p : Pool} (found : s.pool n = some p) (run : p.reinit = false) {s1 : State} {q : Pool}
    (refilled : s.refillUntil n (p.tail - p.head) = s1) (own : s1.pool n = some q) : s.alloc n = s1.takeHandle q := by
  unfold State.alloc
  rw [found]
  dsimp only
  rw [if_neg (by simp [run]), refilled, own]

theorem canAlloc_eq {s : State} {n : Nat} {p : Pool} (found : s.pool n = some p) :
    s.canAlloc n = (p.reinit || p.cache != [] || p.head == p.tail || s.ringReach p) := by
  unfold State.canAlloc
  rw [found]

/-- An allocation that fails is counted in its pool. -/
theorem alloc_fails {s : State} {n : Nat} {p : Pool} (found : s.pool n = some p)
    (h : p.reinit = true ∨ p.cache = [] ∧ p.head = p.tail) : (s.alloc n).2 = s.allocFail p := by
  by_cases busy : p.reinit = true
  · unfold State.alloc
    rw [found]
    dsimp only
    rw [if_pos busy]
  · obtain ⟨empty, dry⟩ := h.resolve_left busy
    rw [alloc_eq found (by simpa using busy) (refillUntil_full found (.inr (by omega)) _) found]
    unfold State.takeHandle
    rw [empty]

/-! ## Release (R342, R345) -/

theorem discardRelease_spec (s : State) (st : W16) (fn : Nat) :
    (s.discardRelease st fn).pools = s.pools ∧ (s.discardRelease st fn).dram = s.dram ∧
    (s.discardRelease st fn).reg .CISTERN_CNT_DISCARD 0 0 = counted (s.reg .CISTERN_CNT_DISCARD 0 0) ∧
    logged st 7 0 0xFFFF fn 0 s (s.discardRelease st fn) := by
  unfold State.discardRelease
  refine ⟨by simp, by simp, ?_, ?_⟩
  · rw [elog_reg _ _ _ _ _ _ _ _ _ _ (by decide) (by decide), count_reg _ _ _ (by decide)]
    rfl
  · refine logged_congr (elog_logged _ _ _ _ _ _ _) ?_ ?_ ?_ ?_ rfl rfl
    · simp
    · simp
    · simp
    · exact (count_reg_other _ (by decide) (.inl (by decide))).symm

theorem handleBytes_length (hs : List Handle) : (handleBytes hs).length = 8 * hs.length := by
  unfold handleBytes
  induction hs with
  | nil => rfl
  | cons h hs ih =>
    rw [List.flatMap_cons, List.length_append, leBytes_length, ih, List.length_cons]
    omega

theorem flush_spec {s : State} {n : Nat} {p : Pool} (found : s.pool n = some p) (many : 32 ≤ p.cache.length) :
    (s.flush p).pool n = some { p with cache := p.cache.drop 32, tail := p.tail + 32 } ∧
    (s.flush p).reg .CISTERN_CNT_FREE 0 0 = s.reg .CISTERN_CNT_FREE 0 0 ∧
    (64 ≤ p.cap → ∀ a, (a < p.ringAddr ∨ p.ringAddr + 8 * p.cap ≤ a) → (s.flush p).dramByte a = s.dramByte a) := by
  unfold State.flush
  rw [Nat.min_eq_left many]
  dsimp only
  have k := putEntries_keeps (.refl s) p p.tail (p.cache.take 32) (Within.mem _)
  refine ⟨?_, k.reg_eq (by decide) (by decide) (by decide), fun size a out => ?_⟩
  · exact pool_update ((pool_congr (k.pools_eq (by decide)) n).trans found) rfl
  · have place := Nat.mod_lt p.tail (y := p.cap) (by omega)
    have taken := List.length_take (i := 32) (l := p.cache)
    unfold State.putEntries Pool.entryAddr
    refine (dramPut_other _ _ _ _ ?_).trans (dramPut_other _ _ _ _ ?_)
    · rw [handleBytes_length, List.length_drop]
      omega
    · rw [handleBytes_length, List.length_take]
      omega

/-- A release (R342, R345). -/
theorem release_spec (s : State) (h : Handle) (fn : Nat) : released h fn s (s.release h fn) := by
  unfold State.release
  refine ⟨fun none => ?_, fun p found => ⟨fun busy => ?_, fun run full => ?_, fun run room => ?_⟩⟩
  · rw [none]
    exact discardRelease_spec s _ fn
  · rw [found]
    dsimp only
    rw [if_pos busy]
    exact discardRelease_spec s _ fn
  · rw [found]
    dsimp only
    rw [if_neg (by simp [run]), if_pos full]
    exact discardRelease_spec s _ fn
  · rw [found]
    dsimp only
    rw [if_neg (by simp [run]), if_neg (by omega)]
    generalize s1_eq : (if (decide (64 ≤ p.cache.length) && s.ringReach p) = true then s.flush p else s) = s1
    by_cases spill : 64 ≤ p.cache.length ∧ s.ringReach p = true
    · rw [if_pos (by simp [spill])] at s1_eq
      subst s1_eq
      obtain ⟨own, free, out⟩ := flush_spec found (by omega)
      rw [own]
      refine ⟨?_, fun few => absurd spill (by rintro ⟨many, reach⟩; rcases few with few | few; omega; simp [few] at reach),
        fun _ _ => ⟨?_, fun size a beside => ?_⟩⟩
      · rw [addTo_reg _ _ _ _ (by decide)]
        exact congrArg (· + 1) free
      · rw [pool_addTo]
        exact pool_update own rfl
      · rw [dramByte_addTo, dramByte_setPool]
        exact out size a beside
    · rw [if_neg (by simpa using spill)] at s1_eq
      subst s1_eq
      rw [found]
      refine ⟨addTo_reg _ _ _ _ (by decide), fun _ => ⟨?_, by simp [State.addTo, State.setPool],
        by simp [State.addTo, State.setPool]⟩, fun many reach => absurd ⟨many, reach⟩ spill⟩
      rw [pool_addTo]
      exact pool_update found rfl

/-! ## Reinitialisation (R340, R345) -/

/-- The eight bytes of a handle in a list of them. -/
theorem handleBytes_get {hs : List Handle} {i k : Nat} (hi : i < hs.length) (hk : k < 8) {rest : List Byte} :
    (handleBytes hs ++ rest)[8 * i + k]? = (leBytes 8 hs[i].word)[k]? := by
  unfold handleBytes
  induction hs generalizing i with
  | nil => simp at hi
  | cons h hs ih =>
    have len := leBytes_length 8 h.word
    rw [List.flatMap_cons, List.append_assoc]
    cases i with
    | zero =>
      rw [List.getElem?_append_left (by omega)]
      simp
    | succ i =>
      rw [List.getElem?_append_right (by omega), show 8 * (i + 1) + k - (leBytes 8 h.word).length = 8 * i + k by omega]
      exact ih (by simpa using hi)

theorem padBlock_length (bs : List Byte) : (padBlock bs).length = 64 * ((bs.length + 63) / 64) := by
  unfold padBlock
  rw [List.length_append, List.length_replicate]
  omega

theorem Handle.word_lt (h : Handle) : h.word < 256 ^ 8 := by
  unfold Handle.word
  omega

/-- The ring of a pool that is reinitialised holds every handle (R340). -/
theorem initPool_spec {s : State} {n : Nat} {p : Pool} (found : s.pool n = some p) :
    (s.initPool p).pool n = some (Pool.lower { p with cache := [], head := 0, tail := p.count, reinit := false }) ∧
    (p.ringAddr % 64 = 0 → (∀ i < p.count, (s.initPool p).poisoned ((p.ringAddr + 8 * i) / 64) = false ∧
        (s.initPool p).dramRd (p.ringAddr + 8 * i) 8 = (Handle.mk (p.base + i * p.size) p.id).word) ∧
      ∀ a, (a < p.ringAddr ∨ p.ringAddr + (8 * p.count + 63) / 64 * 64 ≤ a) → (s.initPool p).dramByte a = s.dramByte a) := by
  unfold State.initPool
  have pools := (dramPut_keeps (.refl s) portCistern p.ringAddr (padBlock (handleBytes p.handles)) (Within.mem _)).pools_eq
    (by decide)
  have count : p.handles.length = p.count := by simp [Pool.handles]
  have len := padBlock_length (handleBytes p.handles)
  rw [handleBytes_length, count] at len
  refine ⟨pool_update ((pool_congr pools n).trans found) rfl, fun al => ⟨fun i hi => ?_, fun a out => ?_⟩⟩
  · obtain ⟨bytes, poison⟩ := dramPut_full s portCistern al len
    refine ⟨(poison _).trans (if_pos (by omega)), ?_⟩
    have word : (p.handles[i]'(by omega)).word = (Handle.mk (p.base + i * p.size) p.id).word := by simp [Pool.handles]
    have read : Mem.readList (s.dramPut portCistern p.ringAddr (padBlock (handleBytes p.handles))).dram.bytes
        (p.ringAddr + 8 * i) 8 = leBytes 8 (Handle.mk (p.base + i * p.size) p.id).word := by
      refine Mem.readList_eq (leBytes_length _ _) fun k hk => ?_
      rw [leBytes_length] at hk
      have inside : 8 * i + k < (padBlock (handleBytes p.handles)).length := by omega
      have own := handleBytes_get (hs := p.handles) (i := i) (k := k) (by omega) hk
        (rest := List.replicate ((64 - (handleBytes p.handles).length % 64) % 64) 0#8)
      rw [word] at own
      rw [bytes, show p.ringAddr + 8 * i + k = p.ringAddr + (8 * i + k) by omega, Mem.read_writeList _ _ _ inside]
      refine Option.some.inj ?_
      rw [← List.getElem?_eq_getElem, ← List.getElem?_eq_getElem]
      exact own
    have value := congrArg leVal read
    rw [leVal_leBytes, Nat.mod_eq_of_lt (Handle.word_lt _)] at value
    exact value
  · rw [dramByte_setPool]
    exact dramPut_other _ _ _ _ (by omega)

/-- Settles O16: allocations by `takeHandle_spec` and `refill_spec`, releases by `release_spec`, reinitialisation by
`initPool_spec`. -/
theorem bufferPools : Obligations.BufferPools := by
  refine ⟨⟨fun n s => ?_, fun h s => ?_⟩, fun n s => ?_, fun fn h s => ?_, fun n s => ?_⟩
  · refine completes_of rfl (execBufferAlloc_keeps (.refl s) n (Within.mem _)) (by decide) ⟨fun none => ?_, fun p found => ?_⟩
    · rw [when_eq s (by unfold State.canAlloc; rw [none])]
      unfold State.alloc
      rw [none]
    · refine ⟨fun run some => ?_, fun run empty ring reach some => ?_, fun run empty ring away => ?_, fun fails => ?_⟩
      · rw [when_eq s (by rw [canAlloc_eq found]; simp [some])]
        rw [alloc_eq found run (refillUntil_full found (.inl some) _) found]
        obtain ⟨count, dram, icu, i, hi, own⟩ := takeHandle_spec found some
        refine ⟨count, dram, icu, i, hi, own.trans ?_⟩
        have pos := List.length_pos_iff.2 some
        unfold Pool.lower Pool.free
        dsimp only
        rw [dropAt_length _ _ hi, show p.cache.length - 1 + (p.tail - p.head) = p.cache.length + (p.tail - p.head) - 1 by omega]
      · rw [when_eq s (by rw [canAlloc_eq found]; simp [reach])]
        obtain ⟨pool, -, -, kept⟩ := refill_spec found
        rw [alloc_eq found run (refillUntil_once found empty ring some) pool]
        have cache : p.cache ++ s.ringEntries p p.head p.batch = s.ringEntries p p.head p.batch := by
          rw [empty, List.nil_append]
        rw [cache] at pool ⊢
        obtain ⟨count, -, -, i, hi, own⟩ := takeHandle_spec pool some
        exact ⟨count.trans (congrArg (· + 1) kept), i, hi, _, Nat.le_trans (Nat.min_le_left _ _) (Nat.min_le_left _ _), own⟩
      · refine when_neg s ?_ _
        rw [canAlloc_eq found]
        simp [run, empty, away, Nat.ne_of_lt ring]
      · have can : s.canAlloc n = true := by
          rw [canAlloc_eq found]
          rcases fails with h | ⟨empty, dry⟩
          · simp [h]
          · simp [dry]
        rw [when_eq s can, alloc_fails found fails]
        exact ⟨pool_update found rfl, rfl, rfl, rfl⟩
  · exact completes_of rfl (execBufferRelease_keeps (.refl s) h (Within.mem _)) (by decide) (release_spec s _ _)
  · refine completes_of rfl (execCacheRefill_keeps (.refl s) n (Within.mem _)) (by decide) ⟨fun none => by rw [none], fun p found => ?_⟩
    rw [found]
    dsimp only
    refine ⟨fun still => ?_, fun reach few ring => ?_, fun reach many => ?_⟩
    · by_cases reach : s.ringReach p = true
      · rw [when_eq s reach]
        have range := still.resolve_left (by simp [reach])
        unfold State.balance
        rw [if_neg (by omega), if_neg (by omega)]
      · exact when_neg s reach _
    · rw [when_eq s reach]
      unfold State.balance
      rw [if_pos ⟨few, ring⟩]
      obtain ⟨pool, bytes, poison, -⟩ := refill_spec found
      exact ⟨pool, bytes, poison⟩
    · rw [when_eq s reach]
      unfold State.balance
      rw [if_neg (by omega), if_pos many]
      obtain ⟨pool, -, out⟩ := flush_spec found (by omega)
      exact ⟨pool, out⟩
  · refine completes_of rfl (execCisternHostFree_keeps (.refl s) fn h (Within.mem _)) (by decide) ?_
    unfold State.hostFree
    dsimp only
    refine ⟨fun none => ?_, fun p found => ⟨fun vf other shared => ?_, fun owner => ?_⟩⟩
    · rw [none]
      have own := release_spec s (handleOf h.toNat) fn
      unfold State.release at own
      rw [none] at own
      exact own
    · rw [found]
      dsimp only
      rw [if_pos ⟨vf, other, shared⟩]
      exact discardRelease_spec s _ fn
    · rw [found]
      dsimp only
      rw [if_neg (by rintro ⟨vf, other, shared⟩; rcases owner with h | h | h; exact vf h; exact other h; exact shared h)]
      exact release_spec s _ fn
  · refine completes_of rfl (execPoolReinitComplete_keeps (.refl s) n (Within.mem _)) (by decide)
      ⟨fun none => by rw [none], fun p found => ?_⟩
    rw [found]
    dsimp only
    refine ⟨fun waits => when_neg s ?_ _, fun busy reach => ?_⟩
    · rcases waits with h | h <;> simp [h]
    · rw [when_eq s (by simp [busy, reach])]
      exact initPool_spec found

end Sys2Proof.Machine
end

section
/-! SUPPORT. Configuration space and the answers on the link (R382, R387, R393, R394). -/

set_option Elab.async false

namespace Sys2Proof.Machine

theorem leBytes_get {n v k : Nat} (hk : k < n) : (leBytes n v)[k]? = some (BitVec.ofNat 8 (v / 256 ^ k)) := by
  induction n generalizing v k with
  | zero => omega
  | succ n ih =>
    cases k with
    | zero => simp [leBytes]
    | succ k =>
      rw [leBytes, List.getElem?_cons_succ, ih (by omega), Nat.div_div_eq_div_mul, Nat.pow_succ, Nat.mul_comm]

/-! ## Messages leave the configuration registers -/

/-- Nothing but messages, those held, and those sent. -/
structure SameCfg (s t : State) : Prop where
  dev : t.dev = s.dev
  cfg : ∀ n, (t.fn n).cfg = (s.fn n).cfg

theorem SameCfg.refl (s : State) : SameCfg s s := ⟨rfl, fun _ => rfl⟩

theorem SameCfg.trans {s t u : State} (h : SameCfg s t) (g : SameCfg t u) : SameCfg s u :=
  ⟨g.dev.trans h.dev, fun n => (g.cfg n).trans (h.cfg n)⟩

/-- An update of a function that keeps its configuration registers. -/
theorem sameCfg_setFn (s : State) (n : Nat) {x : FnState} (h : x.cfg = (s.fn n).cfg) : SameCfg s (s.setFn n x) := by
  refine ⟨by simp, fun m => ?_⟩
  rw [fn_setFn]
  split
  · next own => rw [own, h]
  · rfl

theorem sameCfg_message (s : State) (n v : Nat) : SameCfg s (s.message n v) := by
  unfold State.message
  dsimp only
  split
  · split
    · exact sameCfg_setFn s n rfl
    · exact ⟨rfl, fun _ => rfl⟩
  · split
    · exact sameCfg_setFn s n rfl
    · exact ⟨rfl, fun _ => rfl⟩

theorem sameCfg_sendHeld (s : State) (n : Nat) (vs : List Nat) : SameCfg s (s.sendHeld n vs) := by
  induction vs generalizing s with
  | nil => exact .refl s
  | cons v vs ih =>
    unfold State.sendHeld
    refine SameCfg.trans ?_ (ih _)
    generalize (if (s.fn n).msixOn = true then (s.fn n).msixMasked v else _) = masked
    cases masked with
    | true => exact .refl s
    | false =>
      have put : SameCfg s (s.setFn n { s.fn n with pba := (s.fn n).pba.filter (fun x => x != v) }) := sameCfg_setFn s n rfl
      exact put.trans ⟨rfl, fun _ => rfl⟩

theorem sameCfg_releaseFns (s : State) (ns : List Nat) : SameCfg s (s.releaseFns ns) := by
  induction ns generalizing s with
  | nil => exact .refl s
  | cons n ns ih =>
    unfold State.releaseFns State.releaseHeld
    refine SameCfg.trans ?_ (ih _)
    split
    · exact sameCfg_sendHeld s n _
    · exact .refl s

/-! ## Words -/

/-- All of the words but that of the pending bits depend on the device and the size of BAR2 alone. -/
theorem cfgWord_congr {s t : State} (dev : t.dev = s.dev) (size : (t.fn 0).cfgRd 0x289 1 = (s.fn 0).cfgRd 0x289 1) (fn : Nat)
    {d : Nat} (h : d ≠ 0x64) : t.cfgWord fn d = s.cfgWord fn d := by
  have bar : t.bar2Size = s.bar2Size := by unfold State.bar2Size State.bar2Code; rw [dev, size]
  have sub : t.subsystem = s.subsystem := by unfold State.subsystem; rw [dev]
  have link : t.linkWord = s.linkWord := by unfold State.linkWord; rw [dev]
  have header : t.headerWord fn d = s.headerWord fn d := by
    unfold State.headerWord
    rw [dev, bar, sub]
  have ext : t.extWord d = s.extWord d := by
    unfold State.extWord
    rw [dev]
  have cap : t.capWord fn d = s.capWord fn d := by
    unfold State.capWord
    rw [link]
    generalize t.msiPending = m
    split <;> simp_all
  unfold State.cfgWord
  rw [header, ext, cap]

/-! ## Bytes -/

theorem Mem.readList_congr {m m' : Mem} {a n : Nat} (h : ∀ i < n, Mem.read m' (a + i) = Mem.read m (a + i)) :
    Mem.readList m' a n = Mem.readList m a n := by
  induction n generalizing a with
  | zero => rfl
  | succ n ih =>
    rw [Mem.readList, Mem.readList, ih fun i hi => ?_]
    · exact congrArg (· :: _) (h 0 (Nat.succ_pos n))
    · have next := h (i + 1) (by omega)
      rwa [show a + 1 + i = a + (i + 1) by omega]

/-- A field of configuration space away from a byte that changes. -/
theorem cfgRd_congr {f g : FnState} {a n : Nat} (h : ∀ i < n, Mem.read g.cfg (a + i) = Mem.read f.cfg (a + i)) :
    g.cfgRd a n = f.cfgRd a n := by
  unfold FnState.cfgRd
  rw [Mem.readList_congr h]

/-- One byte of a function's configuration registers changes, and nothing else. -/
theorem putCfg_read (s : State) (fn o : Nat) (v : Byte) (n a : Nat) :
    Mem.read ((s.putCfg fn o v).fn n).cfg a = if n = fn ∧ a = o then v ^^^ byteOf (s.cfgWord fn (o / 4 * 4)).reset o
      else Mem.read (s.fn n).cfg a := by
  unfold State.putCfg
  rw [fn_setFn]
  by_cases own : n = fn
  · subst own
    by_cases here : a = o
    · subst here
      simp [Mem.read_write_self]
    · simp [here, Mem.read_write_ne _ _ here]
  · simp [own]

/-- The words with side effects (Table 14.2). -/
def sideWords : List Nat := [0x44, 0x64, 0x78, 0x288, 0x2A8, 0x2B0]

/-- A byte of a word without side effects, as a write leaves it: the bytes of that word alone have changed. -/
structure PlainWrite (s t : State) (fn d : Nat) : Prop where
  dev : t.dev = s.dev
  others : ∀ n a, (n = fn ∧ a / 4 * 4 = d) ∨ Mem.read (t.fn n).cfg a = Mem.read (s.fn n).cfg a

theorem PlainWrite.rd {s t : State} {fn d : Nat} (h : PlainWrite s t fn d) (n : Nat) {a k : Nat}
    (away : ∀ i < k, (a + i) / 4 * 4 ≠ d) : (t.fn n).cfgRd a k = (s.fn n).cfgRd a k :=
  cfgRd_congr fun i hi => (h.others n (a + i)).resolve_left fun own => away i hi own.2

theorem PlainWrite.word {s t : State} {fn d : Nat} (h : PlainWrite s t fn d) (plain : d ∉ sideWords) :
    t.cfgWord fn d = s.cfgWord fn d := by
  have away : ∀ x ∈ sideWords, x ≠ d := fun x mem e => plain (e ▸ mem)
  refine cfgWord_congr h.dev (h.rd 0 fun i hi => ?_) fn (away 0x64 (by decide)).symm
  obtain rfl : i = 0 := by omega
  exact away 0x288 (by decide)

/-- What a write of a byte makes of it, in a word without side effects (R382). -/
theorem cfgWriteByte_plain (s : State) (fn o : Nat) (w : Byte) (plain : o / 4 * 4 ∉ sideWords) :
    s.cfgWriteByte fn o w = s.putCfg fn o (mergeByte (s.cfgWord fn (o / 4 * 4)) o (s.cfgByte fn o) w) := by
  have away : ∀ x ∈ sideWords, ∀ y, y / 4 * 4 = x → o ≠ y := by
    rintro x mem y own rfl
    exact plain (own ▸ mem)
  have keeps : s.cfgDiscards fn o w = false := by
    unfold State.cfgDiscards
    simp [away 0x288 (by decide) 0x289 rfl, away 0x2B0 (by decide) 0x2B0 rfl, away 0x2B0 (by decide) 0x2B1 rfl]
  unfold State.cfgWriteByte
  rw [if_neg (by simp [keeps])]
  dsimp only
  rw [if_neg (away 0x44 (by decide) 0x44 rfl), if_neg fun h => away 0x288 (by decide) 0x289 rfl h.2.1]

/-- A write of bytes within one word without side effects (R382). -/
theorem cfgWriteList_plain {d : Nat} (plain : d ∉ sideWords) (fn : Nat) (bs : List Byte) (o : Nat) (s : State)
    (inside : bs = [] ∨ o / 4 * 4 = d ∧ o + bs.length ≤ d + 4) :
    PlainWrite s (s.cfgWriteList fn o bs) fn d ∧
    (∀ a, (a < o ∨ o + bs.length ≤ a) →
      Mem.read ((s.cfgWriteList fn o bs).fn fn).cfg a = Mem.read (s.fn fn).cfg a) ∧
    ∀ k b, bs[k]? = some b → (s.cfgWriteList fn o bs).cfgByte fn (o + k) =
      mergeByte (s.cfgWord fn d) (o + k) (s.cfgByte fn (o + k)) b := by
  induction bs generalizing o s with
  | nil => exact ⟨⟨rfl, fun _ _ => .inr rfl⟩, fun _ _ => rfl, fun k b h => by simp at h⟩
  | cons b bs ih =>
    obtain ⟨own, fits⟩ := inside.resolve_left (by simp)
    rw [List.length_cons] at fits ⊢
    unfold State.cfgWriteList
    rw [cfgWriteByte_plain s fn o b (own ▸ plain), own]
    generalize s1_eq : s.putCfg fn o (mergeByte (s.cfgWord fn d) o (s.cfgByte fn o) b) = s1
    have first : PlainWrite s s1 fn d := by
      rw [← s1_eq]
      refine ⟨by simp [State.putCfg], fun n a => ?_⟩
      rw [putCfg_read]
      split
      · next h => exact .inl ⟨h.1, h.2 ▸ own⟩
      · exact .inr rfl
    have word := first.word plain
    have next : bs = [] ∨ (o + 1) / 4 * 4 = d ∧ o + 1 + bs.length ≤ d + 4 := by
      rcases bs with _ | ⟨c, cs⟩
      · exact .inl rfl
      · rw [List.length_cons] at fits ⊢
        exact .inr (by omega)
    obtain ⟨rest, outside, bytes⟩ := ih (o + 1) s1 next
    have apart (a : Nat) (ne : a ≠ o) : Mem.read (s1.fn fn).cfg a = Mem.read (s.fn fn).cfg a := by
      rw [← s1_eq, putCfg_read, if_neg fun h => ne h.2]
    have at_o : Mem.read (s1.fn fn).cfg o = mergeByte (s.cfgWord fn d) o (s.cfgByte fn o) b ^^^ byteOf (s.cfgWord fn d).reset o := by
      rw [← s1_eq, putCfg_read, if_pos ⟨rfl, rfl⟩, own]
    refine ⟨⟨rest.dev.trans first.dev, fun n a => ?_⟩, fun a out => ?_, fun k c here => ?_⟩
    · rcases rest.others n a with h | h
      · exact .inl h
      · rcases first.others n a with g | g
        · exact .inl g
        · exact .inr (h.trans g)
    · rw [outside a (by omega), apart a (by omega)]
    · cases k with
      | zero =>
        obtain rfl : b = c := by simpa using here
        generalize value_eq : mergeByte (s.cfgWord fn d) o (s.cfgByte fn o) b = x at *
        change byteOf ((s1.cfgWriteList fn (o + 1) bs).cfgWord fn (o / 4 * 4)).reset o ^^^
          Mem.read ((s1.cfgWriteList fn (o + 1) bs).fn fn).cfg o = x
        rw [own, rest.word plain, word, outside o (by omega), at_o, BitVec.xor_comm x, ← BitVec.xor_assoc, BitVec.xor_self,
          BitVec.zero_xor]
      | succ k =>
        have byte := bytes k c (by simpa using here)
        have short : k < bs.length := by
          have := List.getElem?_eq_some_iff.1 (show bs[k]? = some c by simpa using here)
          exact this.1
        have same : s1.cfgByte fn (o + 1 + k) = s.cfgByte fn (o + 1 + k) := by
          unfold State.cfgByte
          rw [show (o + 1 + k) / 4 * 4 = d by omega, word, apart _ (by omega)]
        rw [same, word, show o + 1 + k = o + (k + 1) by omega] at byte
        exact byte

/-! ## Answers -/

@[simp] theorem orCfg_fields (s : State) (fn o : Nat) (v : Byte) :
    (s.orCfg fn o v).out = s.out ∧ (s.orCfg fn o v).regs = s.regs := by
  unfold State.orCfg State.putCfg
  simp

/-- An Unsupported Request (R387, R393). -/
theorem answerUr_spec (s : State) (fn : Nat) (posted : Bool) :
    (s.answerUr fn posted).out = (if posted = true then s.out else s.out ++ [.completion fn .unsupported []]) ∧
    (s.answerUr fn posted).reg .HEP_CNT_UR 0 0 = counted (s.reg .HEP_CNT_UR 0 0) := by
  unfold State.answerUr State.aerUncorrectable State.aerCorrectable State.complete
  dsimp only
  have count : (s.count .HEP_CNT_UR 0).reg .HEP_CNT_UR 0 0 = counted (s.reg .HEP_CNT_UR 0 0) := count_reg _ _ _ (by decide)
  cases posted with
  | true =>
    rw [if_pos rfl, if_pos rfl, reg_congr (s := s.count .HEP_CNT_UR 0) (by simp)]
    exact ⟨by simp, count⟩
  | false =>
    rw [if_neg (by decide), if_neg (by decide), reg_congr (s := s.count .HEP_CNT_UR 0) (by simp)]
    exact ⟨by simp [State.send], count⟩

/-- A write of a word without side effects triggers nothing but messages that can go (R382, R394). -/
theorem cfgTriggers_plain {s t : State} {fn off d : Nat} {data : List Byte} (h : PlainWrite s t fn d) (plain : d ∉ sideWords)
    (inside : ∀ x ∈ indexed data, (off + x.1) / 4 * 4 = d) : t.cfgTriggers s fn off data = t.releaseFns (List.range 32) := by
  have away : ∀ x ∈ sideWords, x ≠ d := fun x mem e => plain (e ▸ mem)
  have vf : t.vfEnable = s.vfEnable := by
    unfold State.vfEnable
    rw [h.rd 0 fun i hi => ?_]
    have word : (0x2A8 + i) / 4 * 4 = 0x2A8 := by omega
    rw [word]
    exact away _ (by decide)
  have d3 : (t.fn fn).d3hot = (s.fn fn).d3hot := by
    unfold FnState.d3hot
    rw [h.rd fn fun i hi => ?_]
    have word : (0x44 + i) / 4 * 4 = 0x44 := by omega
    rw [word]
    exact away _ (by decide)
  have flr : (indexed data).any (fun x => off + x.1 == 0x79 && x.2.getLsbD 7) = false := by
    rw [List.any_eq_false]
    intro x mem reset
    have here := inside x mem
    rw [show off + x.1 = 0x79 from (by simpa using reset : _ ∧ _).1] at here
    exact away 0x78 (by decide) here
  unfold State.cfgTriggers
  dsimp only
  rw [vf, d3, flr]
  simp

theorem mem_indexed {α : Type} {l : List α} {x : Nat × α} (h : x ∈ indexed l) : x.1 < l.length :=
  List.mem_range.1 (List.of_mem_zip h).1

/-- Settles O23: a byte written in a word without side effects is that of `cfgWriteList_plain`, and messages that then go leave
it. -/
theorem configurationRequests : Obligations.ConfigurationRequests := by
  intro fn off width w s
  refine completes_of rfl (execConfigRequest_keeps (.refl s) fn off width w (Within.mem _)) (by decide +kernel) ?_
  by_cases boot : s.dev.life = .booting
  · rw [if_pos boot, if_pos boot]
    exact ⟨rfl, rfl⟩
  · rw [if_neg boot, if_neg boot]
    split
    · next up =>
      rw [when_eq s up]
      refine ⟨fun off' => ?_, fun on => ⟨fun none => ?_, fun v some => ⟨?_, fun fits plain k hk => ?_⟩⟩⟩
      · rw [if_pos (by simp [off'])]
        obtain ⟨out, count⟩ := answerUr_spec s fn false
        exact ⟨out, count⟩
      · rw [if_neg (by simp [on]), none]
        exact ⟨rfl, rfl⟩
      · rw [if_neg (by simp [on]), some]
        exact List.getLast?_concat
      · rw [if_neg (by simp [on]), some]
        dsimp only
        unfold State.cfgWrite
        have len := leBytes_length width v.toNat
        obtain ⟨wrote, -, bytes⟩ := cfgWriteList_plain plain fn (leBytes width v.toNat) off s (.inr ⟨rfl, by omega⟩)
        generalize s.cfgWriteList fn off (leBytes width v.toNat) = t at *
        rw [cfgTriggers_plain wrote plain fun x mem => by have := mem_indexed mem; omega]
        have released := sameCfg_releaseFns t (List.range 32)
        generalize t.releaseFns (List.range 32) = r at *
        have own := bytes k _ (leBytes_get hk)
        have word : (off + k) / 4 * 4 = off / 4 * 4 := by omega
        rw [← own]
        have same : r.cfgWord fn (off / 4 * 4) = t.cfgWord fn (off / 4 * 4) := by
          refine cfgWord_congr released.dev ?_ fn ?_
          · unfold FnState.cfgRd
            rw [released.cfg]
          · exact fun e => plain (by rw [e]; decide)
        have sent : (r.complete fn .ok []).cfgByte fn (off + k) = r.cfgByte fn (off + k) := rfl
        rw [sent]
        unfold State.cfgByte
        rw [word, same, released.cfg]
    · next down => exact when_neg s down _

/-! ## Requests that nothing takes -/

theorem aligned48_iff (off n : Nat) : aligned48 off n = true ↔ (n = 4 ∨ n = 8) ∧ off % n = 0 := by
  simp [aligned48]

theorem answerUr_only (s : State) (fn : Nat) (posted : Bool) : changesOnly [.fns, .out, .reg .HEP_CNT_UR] s (s.answerUr fn posted) :=
  (answerUr_keeps (.refl s) fn posted (Within.mem _)).changesOnly.mono (by decide)

/-- A read that is refused (R387). -/
theorem answerUr_read (s : State) (fn : Nat) : sends [.completion fn .unsupported []] s (s.answerUr fn false) ∧
    (s.answerUr fn false).reg .HEP_CNT_UR 0 0 = counted (s.reg .HEP_CNT_UR 0 0) ∧
    changesOnly [.fns, .out, .reg .HEP_CNT_UR] s (s.answerUr fn false) :=
  ⟨(answerUr_spec s fn false).1, (answerUr_spec s fn false).2, answerUr_only s fn false⟩

/-- A write that is refused has no answer (R387). -/
theorem answerUr_write (s : State) (fn : Nat) : (s.answerUr fn true).out = s.out ∧
    (s.answerUr fn true).reg .HEP_CNT_UR 0 0 = counted (s.reg .HEP_CNT_UR 0 0) ∧
    changesOnly [.fns, .out, .reg .HEP_CNT_UR] s (s.answerUr fn true) :=
  ⟨(answerUr_spec s fn true).1, (answerUr_spec s fn true).2, answerUr_only s fn true⟩

theorem hostReadReq_misaligned {s : State} {fn bar off n : Nat} (other : bar ≠ 2) (h : ¬ aligned48 off n = true) :
    s.hostReadReq fn bar off n = s.answerUr fn false := by
  unfold State.hostReadReq
  rw [if_neg other, if_pos (by simp [h])]

theorem hostReadReq_reserved' {s : State} {fn bar off n : Nat} (other : bar ≠ 2) (al : aligned48 off n = true)
    (h : s.allReserved fn bar off n = true) : s.hostReadReq fn bar off n = s.answer fn n 0 := by
  unfold State.hostReadReq
  rw [if_neg other, if_neg (by simp [al]), if_pos h]

theorem hostWriteReq_misaligned {s : State} {fn bar off : Nat} {data : List Byte} (ep : Bool) (other : bar ≠ 2)
    (h : ¬ aligned48 off data.length = true) : s.hostWriteReq fn bar off data ep = s.answerUr fn true := by
  unfold State.hostWriteReq
  rw [if_neg other, if_pos (by simp [h])]

theorem hostWriteReq_reserved' {s : State} {fn bar off : Nat} {data : List Byte} (ep : Bool) (other : bar ≠ 2)
    (al : aligned48 off data.length = true) (h : s.allReserved fn bar off data.length = true) :
    s.hostWriteReq fn bar off data ep = s := by
  unfold State.hostWriteReq State.writeBar
  rw [if_neg other, if_neg (by simp [al]), if_pos h]

/-- Settles O24: refusals by `answerUr_read` and `answerUr_write`, reserved space by `hostReadReq_reserved'` and
`hostWriteReq_reserved'`. -/
theorem requestsThatNothingTakes : Obligations.RequestsThatNothingTakes := by
  refine ⟨fun fn bar off a s => ?_, fun fn b s => ?_⟩
  · refine ⟨_, rfl, fun dead => when_neg s (by simp [dead]) _, fun alive => ?_⟩
    rw [when_eq s alive]
    refine ⟨?_, ?_, ?_⟩
    · rintro rfl
      exact answerUr_read s fn
    · rintro n rfl
      refine ⟨fun out => ?_, fun mem inside other => ⟨fun wrong => ?_, fun size natural reserved => ?_⟩⟩
      · dsimp only
        rw [if_neg (by simpa using out)]
        exact answerUr_read s fn
      · dsimp only
        rw [if_pos (by simp [mem, inside]), hostReadReq_misaligned other (by rwa [aligned48_iff])]
        exact answerUr_read s fn
      · dsimp only
        rw [if_pos (by simp [mem, inside]), hostReadReq_reserved' other ((aligned48_iff off n).2 ⟨size, natural⟩) reserved]
        exact ⟨congrArg (fun b => s.out ++ [OutMsg.completion fn .ok b]) (leBytes_zero n), (answer_keeps (.refl s) fn n 0 (Within.mem _)).changesOnly.mono (by decide)⟩
    · rintro data ep rfl
      refine ⟨fun out => ?_, fun mem inside other => ⟨fun wrong => ?_, fun size natural reserved => ?_⟩⟩
      · dsimp only
        rw [if_neg (by simpa using out)]
        exact answerUr_write s fn
      · dsimp only
        rw [if_pos (by simp [mem, inside]), hostWriteReq_misaligned ep other (by rwa [aligned48_iff])]
        exact answerUr_write s fn
      · dsimp only
        rw [if_pos (by simp [mem, inside])]
        exact hostWriteReq_reserved' ep other ((aligned48_iff off data.length).2 ⟨size, natural⟩) reserved
  · refine completes_of rfl (execVendorDefinedMessage_keeps (.refl s) fn b (Within.mem _)) (by decide +kernel)
      ⟨fun dead => when_neg s (by simp [dead]) _, ?_, ?_, ?_, ?_⟩
    · rintro rfl
      unfold State.when
      split <;> rfl
    · rintro m rfl vf
      unfold State.when
      simp only [vf, if_false]
      split <;> rfl
    · rintro rfl alive
      rw [when_eq s alive]
      have count : (s.count .HEP_CNT_UR 0).reg .HEP_CNT_UR 0 0 = counted (s.reg .HEP_CNT_UR 0 0) := count_reg _ _ _ (by decide)
      unfold State.aerUncorrectable
      rw [reg_congr (s := s.count .HEP_CNT_UR 0) (by simp)]
      exact ⟨by simp [sends, State.send], count⟩
    · rintro m rfl rfl alive
      rw [when_eq s alive]
      rfl

end Sys2Proof.Machine
end

section
/-! SUPPORT. Rills: what event records, status records and skipped descriptors leave of them (R192 to R197, R392). -/

set_option Elab.async false

namespace Sys2Proof.Machine

theorem rill_congr {s t : State} (h : t.ing.rills = s.ing.rills) (r : Nat) : t.rill r = s.rill r := by
  unfold State.rill
  rw [h]

theorem rill_updRill (s : State) (r k : Nat) (f : Rill → Rill) :
    (s.updRill r f).rill k = if k = r then f (s.rill r) else s.rill k := rill_setRill _ _ _ _

/-- An event record keeps its rill but for the last status (R197). -/
theorem ingestEvent_rill (s : State) (e : EvRec) (r : Nat) : (s.ingestEvent e).rill r =
    if r = e.rill ∧ e.status ≠ 0 ∧ e.rill < 512 then { s.rill r with lastStatus := e.status } else s.rill r := by
  unfold State.ingestEvent
  dsimp only
  generalize noted_eq : (if e.status = 0 ∨ 512 ≤ e.rill then s else _) = noted
  have noted_rill : noted.rill r =
      if r = e.rill ∧ e.status ≠ 0 ∧ e.rill < 512 then { s.rill r with lastStatus := e.status } else s.rill r := by
    subst noted_eq
    split
    · next quiet => rw [if_neg (by rintro ⟨-, st, lt⟩; rcases quiet with h | h; exact st h; omega)]
    · next told =>
      rw [not_or, Nat.not_le] at told
      rw [rill_updRill]
      by_cases own : r = e.rill
      · rw [if_pos own, if_pos ⟨own, told⟩, own]
      · rw [if_neg own, if_neg fun h => own h.1]
  have pushed := (ringPush_keeps (.refl noted) noted.evtCfg noted.ing.evt e.bytes (Within.mem _)).ing.rills.resolve_left (by decide)
  rw [← noted_rill]
  refine rill_congr ?_ r
  split
  · simp [State.setEvt, pushed]
  · simp [State.setEvt, pushed, State.count]
  · exact pushed

theorem statusRecord_rill (s : State) (r k : Nat) : (s.statusRecord r).rill k = s.rill k :=
  rill_congr ((statusRecord_keeps (.refl s) r (Within.mem _)).ing.rills.resolve_left (by decide)) k

/-- A rill that faults (R195). -/
theorem rillFault_rill (s : State) {r : Nat} {st : W16} (k : Nat) : (s.rillFault r st).rill k =
    if k = r then { s.rill k with st := .faulted, lastStatus := st } else s.rill k := by
  unfold State.rillFault
  rw [ingestEvent_rill, statusRecord_rill, rill_updRill]
  by_cases own : k = r
  · subst own
    rw [if_pos rfl]
    split <;> rfl
  · rw [if_neg own, if_neg own, if_neg fun h => own h.1]

/-- A poll that a failed read abandons (R392). -/
theorem pollFailed_spec (s : State) (r : Nat) :
    ((s.pollFailed r).rill r).failedPolls = (s.rill r).failedPolls + 1 ∧
    ((s.pollFailed r).rill r).st = (if 7 ≤ (s.rill r).failedPolls then .faulted else (s.rill r).st) ∧
    (7 ≤ (s.rill r).failedPolls → ((s.pollFailed r).rill r).lastStatus = Status.ringReads) := by
  have counted : (s.updRill r (fun x => { x with failedPolls := x.failedPolls + 1 })).rill r =
      { s.rill r with failedPolls := (s.rill r).failedPolls + 1 } := by rw [rill_updRill, if_pos rfl]
  unfold State.pollFailed
  dsimp only
  rw [counted]
  by_cases many : 7 ≤ (s.rill r).failedPolls
  · rw [if_pos (by simpa using Nat.succ_le_succ many), if_pos many, rillFault_rill, if_pos rfl, counted]
    exact ⟨rfl, rfl, fun _ => rfl⟩
  · rw [if_neg (by dsimp only; omega), if_neg many, counted]
    exact ⟨rfl, rfl, fun h => absurd h many⟩

/-- A skipped descriptor leaves the copies of its rill. -/
theorem skipDescriptor_copies (s : State) (r : Nat) (j : AuJob) :
    ((s.skipDescriptor r j).rill r).copies = (s.rill r).copies := by
  unfold State.skipDescriptor
  rw [statusRecord_rill]
  generalize seen_eq : State.ingestEvent _ _ = seen
  have copies : (seen.rill r).copies = (s.rill r).copies := by
    rw [← seen_eq, ingestEvent_rill, rill_updRill, if_pos rfl]
    split <;> rfl
  rw [← copies]
  refine congrArg Rill.copies (rill_congr ?_ r)
  split
  · rfl
  · split
    · split
      · split
        · exact (discontinue_keeps (.refl seen) _ (Within.mem _)).ing.rills.resolve_left (by decide)
        · rfl
      · rfl
    · exact (updDec_keeps (.refl seen) _ _ (Within.mem _)).ing.rills.resolve_left (by decide)

/-- Skipping what was refused leaves an end of the copies. -/
theorem skipRefused_copies (s : State) (r : Nat) {js : List AuJob} (h : (s.rill r).copies = js) :
    ((s.skipRefused r js).rill r).copies <:+ js := by
  induction js generalizing s with
  | nil =>
    unfold State.skipRefused
    rw [h]
  | cons j js ih =>
    unfold State.skipRefused
    split
    · rw [h]
    · refine (ih _ ?_).trans (List.suffix_cons _ _)
      rw [skipDescriptor_copies, rill_updRill, if_pos rfl]

/-! ## Reads of the device that fail (R392) -/

theorem readFailed_spec (s : State) (st : W16) (fn addr : Nat) (timedOut : Bool) :
    (s.readFailed st fn addr timedOut).reg .HEP_CNT_CPLTO 0 0 =
      (if timedOut then counted else id) (s.reg .HEP_CNT_CPLTO 0 0) ∧
    (s.readFailed st fn addr timedOut).reg .HEP_CNT_RDFAIL 0 0 =
      (if timedOut then id else counted) (s.reg .HEP_CNT_RDFAIL 0 0) ∧
    (s.readFailed st fn addr timedOut).reg .HEP_LAST_RDFAIL 0 0 = BitVec.ofNat 64 addr ∧
    (s.readFailed st fn addr timedOut).reg .HEP_LAST_RDFAIL_INFO 0 0 = BitVec.ofNat 64 (st.toNat + 65536 * (fn % 32)) ∧
    logged st 8 0 0xFFFF fn (BitVec.ofNat 64 addr) s (s.readFailed st fn addr timedOut) := by
  unfold State.readFailed
  have kept {r : Reg} (h : .reg r ∉ Comp.source) (ok : regOk r 0 0 = true) (u : State) :
      (u.elog st unitHep 0 noCtx fn (BitVec.ofNat 64 addr)).reg r 0 0 = u.reg r 0 0 := elog_reg _ _ _ _ _ _ _ _ _ _ h ok
  refine ⟨?_, ?_, ?_, ?_, ?_⟩
  · rw [kept (by decide) (by decide), reg_setReg_other _ _ (by decide) (.inl (by decide)),
      reg_setReg_other _ _ (by decide) (.inl (by decide))]
    cases timedOut with
    | true => exact count_reg _ _ _ (by decide)
    | false => exact count_reg_other _ (by decide) (.inl (by decide))
  · rw [kept (by decide) (by decide), reg_setReg_other _ _ (by decide) (.inl (by decide)),
      reg_setReg_other _ _ (by decide) (.inl (by decide))]
    cases timedOut with
    | true => exact count_reg_other _ (by decide) (.inl (by decide))
    | false => exact count_reg _ _ _ (by decide)
  · rw [kept (by decide) (by decide), reg_setReg_other _ _ (by decide) (.inl (by decide)), reg_setReg_self _ _ (by decide)]
  · rw [kept (by decide) (by decide), reg_setReg_self _ _ (by decide)]
  · refine logged_congr (elog_logged _ _ _ _ _ _ _) ?_ ?_ ?_ ?_ rfl rfl
    · simp
    · simp
    · simp
    · rw [reg_setReg_other _ _ (by decide) (.inl (by decide)), reg_setReg_other _ _ (by decide) (.inl (by decide))]
      exact (count_reg_other _ (by decide) (.inl (by cases timedOut <;> decide))).symm

theorem readFailed_ing (s : State) (st : W16) (fn addr : Nat) (timedOut : Bool) :
    (s.readFailed st fn addr timedOut).ing = s.ing :=
  (readFailed_keeps (.refl s) st fn addr timedOut (Within.mem _)).ing_eq (by decide)

/-- What follows a failed read's own counters and log entry. -/
def readFailsRest : List Comp :=
  pollFailedChanges ++ skipDescriptorChanges ++ skipRefusedChanges ++ releaseChanges ++ settleChanges ++ scheduleChanges

/-- The status of a failed read (Table 14.7). -/
def readStatus : ReadKind → W16
  | .ring _ => Status.ringReads
  | .accessUnit _ => Status.auRead
  | .registry _ => Status.entryRead

/-- A failed read is its counters and log entry, and what its kind adds (Table 14.7). -/
theorem readFails_rest {s : State} {k : ReadKind} (reading : s.reading k = true) (addr : Nat) (timedOut : Bool) :
    Keeps (fun c => c ∈ readFailsRest) (s.readFailed (readStatus k) (s.readFn k) addr timedOut) (s.readFails k addr timedOut) := by
  have within {l : List Comp} (h : ∀ c ∈ l, c ∈ readFailsRest) : Within l (fun c => c ∈ readFailsRest) := h
  cases k with
  | ring r => exact pollFailed_keeps (.refl _) r (within (by decide +kernel))
  | accessUnit r =>
    refine schedule_keeps (settle_keeps ?_ (within (by decide +kernel))) (within (by decide +kernel))
    unfold State.auReadFailed
    split
    · refine skipRefused_keeps (skipDescriptor_keeps (updRill_keeps ?_ _ _ (within (by decide +kernel))) _ _
        (within (by decide +kernel))) _ _ (within (by decide +kernel))
      split
      · exact .refl _
      · exact freeAu_keeps (.refl _) _ (within (by decide +kernel))
    · next none =>
      simp [State.reading, none] at reading
  | registry e => exact .refl _

/-- The copies of a rill after the read of its oldest has failed (R392). -/
theorem readFails_copies {s : State} {r : Nat} (addr : Nat) (timedOut : Bool) :
    ((s.readFails (.accessUnit r) addr timedOut).rill r).copies <:+ (s.rill r).copies.tail := by
  unfold State.readFails
  have after : ∀ u : State, ((State.schedule (State.settle u)).rill r).copies = (u.rill r).copies := by
    intro u
    have settled := (settle_keeps (.refl u) (Within.mem _)).ing.rills.resolve_left (by decide)
    have scheduled := (schedule_keeps (.refl u.settle) (Within.mem _)).ing.rills.resolve_left (by decide)
    exact congrArg Rill.copies (rill_congr (scheduled.trans settled) r)
  dsimp only
  rw [after]
  unfold State.auReadFailed
  split
  · next j js cons =>
    dsimp only
    refine (skipRefused_copies _ r ?_).trans ?_
    · rw [skipDescriptor_copies, rill_updRill, if_pos rfl]
    · rw [cons]
      exact List.suffix_refl _
  · next none =>
    rw [none]
    exact List.suffix_refl _

/-- The registers after a failed read, with what its kind adds (Table 14.7). -/
theorem readFails_regs {s : State} {k : ReadKind} (reading : s.reading k = true) (addr : Nat) (timedOut : Bool) :
    (s.readFails k addr timedOut).reg .HEP_CNT_CPLTO 0 0 = (if timedOut then counted else id) (s.reg .HEP_CNT_CPLTO 0 0) ∧
    (s.readFails k addr timedOut).reg .HEP_CNT_RDFAIL 0 0 = (if timedOut then id else counted) (s.reg .HEP_CNT_RDFAIL 0 0) ∧
    (s.readFails k addr timedOut).reg .HEP_LAST_RDFAIL 0 0 = BitVec.ofNat 64 addr ∧
    (s.readFails k addr timedOut).reg .HEP_LAST_RDFAIL_INFO 0 0 =
      BitVec.ofNat 64 ((readStatus k).toNat + 65536 * (s.readFn k % 32)) := by
  obtain ⟨lost, failed, last, info, -⟩ := readFailed_spec s (readStatus k) (s.readFn k) addr timedOut
  have h := readFails_rest reading addr timedOut
  exact ⟨(h.reg_eq (by decide +kernel) (by decide +kernel) (by decide)).trans lost,
    (h.reg_eq (by decide +kernel) (by decide +kernel) (by decide)).trans failed,
    (h.reg_eq (by decide +kernel) (by decide +kernel) (by decide)).trans last,
    (h.reg_eq (by decide +kernel) (by decide +kernel) (by decide)).trans info⟩

/-- A ring or registry read that fails is in the log. -/
theorem readFails_logged {s : State} {k : ReadKind} (h : ∀ r, k ≠ .accessUnit r) (addr : Nat) (timedOut : Bool) :
    logged (readStatus k) 8 0 0xFFFF (s.readFn k) (BitVec.ofNat 64 addr) s (s.readFails k addr timedOut) := by
  obtain ⟨-, -, -, -, log⟩ := readFailed_spec s (readStatus k) (s.readFn k) addr timedOut
  cases k with
  | ring r =>
    have kept := pollFailed_keeps (.refl (s.readFailed (readStatus (.ring r)) (s.readFn (.ring r)) addr timedOut)) r (Within.mem _)
    exact logged_congr log rfl rfl rfl rfl (kept.icu.log.resolve_left (by decide)) (kept.icu.logHead.resolve_left (by decide))
  | accessUnit r => exact absurd rfl (h r)
  | registry e => exact log

/-- A read that fails, by either command, seen from before it. -/
theorem readFails_spec {s t : State} {k : ReadKind} (reading : s.reading k = true) (addr : Nat)
    (timedOut : Bool) (regs : t.regs = (s.readFails k addr timedOut).regs) (ing : t.ing = (s.readFails k addr timedOut).ing)
    (icu : t.icu = (s.readFails k addr timedOut).icu) :
    t.reg .HEP_CNT_CPLTO 0 0 = (if timedOut then counted else id) (s.reg .HEP_CNT_CPLTO 0 0) ∧
    t.reg .HEP_CNT_RDFAIL 0 0 = (if timedOut then id else counted) (s.reg .HEP_CNT_RDFAIL 0 0) ∧
    t.reg .HEP_LAST_RDFAIL 0 0 = BitVec.ofNat 64 addr ∧
    t.reg .HEP_LAST_RDFAIL_INFO 0 0 = BitVec.ofNat 64 ((readStatus k).toNat + 65536 * (s.readFn k % 32)) ∧
    (∀ r, k = .ring r → (t.rill r).failedPolls = (s.rill r).failedPolls + 1 ∧
      (t.rill r).st = (if 7 ≤ (s.rill r).failedPolls then .faulted else .attached) ∧
      (7 ≤ (s.rill r).failedPolls → (t.rill r).lastStatus = 0x6001#16) ∧
      logged 0x6001#16 8 0 0xFFFF (s.rill r).fn (BitVec.ofNat 64 addr) s t) ∧
    (∀ r, k = .accessUnit r → (t.rill r).copies <:+ (s.rill r).copies.tail) ∧
    (∀ e, k = .registry e → logged 0x6003#16 8 0 0xFFFF 0 (BitVec.ofNat 64 addr) s t) := by
  have rills (r : Nat) : t.rill r = (s.readFails k addr timedOut).rill r := rill_congr (by rw [ing]) r
  obtain ⟨lost, failed, last, info⟩ := readFails_regs reading addr timedOut
  rw [reg_congr regs, reg_congr regs, reg_congr regs, reg_congr regs]
  refine ⟨lost, failed, last, info, ?_, ?_, ?_⟩
  · rintro r rfl
    have log := readFails_logged (s := s) (k := .ring r) (by simp) addr timedOut
    obtain ⟨polls, st, status⟩ := pollFailed_spec (s.readFailed Status.ringReads (s.rill r).fn addr timedOut) r
    have same : (s.readFailed Status.ringReads (s.rill r).fn addr timedOut).rill r = s.rill r :=
      rill_congr (by rw [readFailed_ing]) r
    rw [same] at polls st status
    have attached : (s.rill r).st = .attached := by simpa [State.reading] using reading
    rw [rills]
    exact ⟨polls, st.trans (by rw [attached]), status, logged_congr log rfl rfl rfl rfl (by rw [icu]) (by rw [icu])⟩
  · rintro r rfl
    rw [rills]
    exact readFails_copies addr timedOut
  · rintro e rfl
    exact logged_congr (readFails_logged (s := s) (k := .registry e) (by simp) addr timedOut) rfl rfl rfl rfl (by rw [icu]) (by rw [icu])

/-- Settles O26: both commands are `State.readFails`, of which `readFails_spec` says what it leaves. -/
theorem deviceReadsThatFail : Obligations.DeviceReadsThatFail := by
  refine ⟨fun k addr s => ⟨?_, ?_⟩, fun fn s => ?_⟩
  · refine completes_if (by simp [State.ready]) rfl (execDeviceReadFail_keeps (.refl s) k addr (Within.mem _)) (by decide +kernel) ?_
    rintro ⟨-, reading⟩
    obtain ⟨lost, failed, last, info, rest⟩ := readFails_spec reading addr false rfl rfl rfl
    refine ⟨lost, failed, last, info.trans ?_, fun n => ?_, rest⟩
    · cases k <;> rfl
    · have fns := (readFails_rest reading addr false).fns_eq (by decide +kernel)
      have same : (s.readFails k addr false).fns = s.fns :=
        fns.trans ((readFailed_keeps (.refl s) _ _ addr false (Within.mem _)).fns_eq (by decide))
      rw [if_neg (by simp)]
      unfold State.fn
      rw [same, Nat.add_zero]
  · refine completes_if (by simp [State.ready]) rfl (execCompletionTimeout_keeps (.refl s) k addr (Within.mem _)) (by decide +kernel) ?_
    rintro ⟨-, reading⟩
    obtain ⟨lost, failed, last, info, rest⟩ := readFails_spec (t := (s.readFails k addr true).countLate (s.readFn k) (· + 1))
      reading addr true (by simp [State.countLate]) (by simp [State.countLate]) (by simp [State.countLate])
    refine ⟨lost, failed, last, info.trans ?_, fun n => ?_, rest⟩
    · cases k <;> rfl
    · have fns := (readFails_rest reading addr true).fns_eq (by decide +kernel)
      have same (m : Nat) : (s.readFails k addr true).fn m = s.fn m := by
        unfold State.fn
        rw [fns, (readFailed_keeps (.refl s) _ _ addr true (Within.mem _)).fns_eq (by decide)]
      unfold State.countLate
      rw [fn_setFn, same, same]
      by_cases own : n = s.readFn k
      · simp [own]
      · simp [own]
  · refine completes_if (by simp) rfl (execLateCompletion_keeps (.refl s) fn (Within.mem _)) (by decide) fun _ => ?_
    exact ⟨fn_setFn_self _ _ _, fun m ne => (fn_setFn _ _ _ _).trans (if_neg ne)⟩

end Sys2Proof.Machine
end

section
/-! SUPPORT. Resets and rails (R396, R397, R459 to R462). -/

set_option Elab.async false

namespace Sys2Proof.Machine

/-! ## The registers of the AO domain -/

/-- What lies at the own offset of a register is in the AO domain where the register is. -/
theorem aoHomed_own {off : Nat} {l : RegLoc} (h : regAt off = some l) :
    ∃ m, regAt (regOff l.row.name l.unit l.idx) = some m ∧ aoHomed m = aoHomed l := by
  obtain ⟨row, ok⟩ := regAt_some h
  obtain ⟨x, found, own, -⟩ := registerMapRoundTrip l.row.name l.unit l.idx ok
  obtain rfl : l.row = x := Option.some.inj ((rowIn_name row).symm.trans found)
  exact ⟨_, own, rfl⟩

theorem get_aoRegs (m : SMap W64) {off : Nat} {l : RegLoc} (h : regAt off = some l) :
    SMap.get regDefault (aoRegs m) (regOff l.row.name l.unit l.idx) =
      if aoHomed l = true then SMap.get regDefault m (regOff l.row.name l.unit l.idx)
      else regDefault (regOff l.row.name l.unit l.idx) := by
  obtain ⟨k, own, same⟩ := aoHomed_own h
  unfold aoRegs
  rw [SMap.get_keep, own]
  simp only [same]

theorem aoReset_reg (s : State) {off : Nat} {l : RegLoc} (h : regAt off = some l) (homed : aoHomed l = true) :
    s.aoReset.reg l.row.name l.unit l.idx = State.reset.reg l.row.name l.unit l.idx := by
  obtain ⟨k, own, same⟩ := aoHomed_own h
  unfold State.reg State.aoReset
  rw [SMap.get_keep, own]
  simp only [same, homed, Bool.not_true, Bool.false_eq_true, if_false]
  rfl

/-! ## What a reset leaves -/

/-- An abandoned mailbox command changes flash, fuses and the free values alone. -/
theorem abandonMbox_spec (s : State) : s.abandonMbox.regs = s.regs ∧ s.abandonMbox.weir = s.weir ∧ s.abandonMbox.out = s.out ∧
    s.abandonMbox.sage = s.sage ∧ s.abandonMbox.dev.life = s.dev.life ∧ s.abandonMbox.dev.pins = s.dev.pins ∧
    s.abandonMbox.dev.rails = s.dev.rails ∧ s.abandonMbox.dev.aoNs = s.dev.aoNs ∧
    s.abandonMbox.dev.hardStopRec = s.dev.hardStopRec ∧ s.abandonMbox.dev.role = s.dev.role ∧ s.abandonMbox.dev.part = s.dev.part := by
  have k := abandonMbox_keeps (.refl s) (Within.mem _)
  have regs : s.abandonMbox.regs = s.regs := by
    unfold State.abandonMbox
    split
    · unfold State.mboxAbandon
      dsimp only
      split <;> rfl
    · rfl
  exact ⟨regs, k.weir_eq (by decide), k.out_eq (by decide), k.sage_eq (by decide), k.dev.life.resolve_left (by decide),
    k.dev.pins.resolve_left (by decide), k.dev.rails.resolve_left (by decide), k.dev.aoNs.resolve_left (by decide),
    k.dev.hardStopRec.resolve_left (by decide), k.dev.role.resolve_left (by decide), k.part⟩

/-- A reset of everything outside the AO domain (R396, R397). -/
theorem coreReset_atReset (s : State) : atReset s s.coreReset := by
  obtain ⟨regs, weir, -, sage, -⟩ := abandonMbox_spec s
  unfold State.coreReset
  dsimp only
  refine ⟨rfl, rfl, rfl, rfl, rfl, rfl, rfl, ?_, ?_, rfl, rfl, rfl, rfl, rfl, rfl, fun off l here => ?_⟩
  · rw [weir]
    rfl
  · rw [sage]
    rfl
  · rw [regs]
    exact get_aoRegs s.regs here

/-- `atReset` leaves the device, its messages, and the contents of DRAM free. -/
theorem atReset_congr {s s' t t' : State} (h : atReset s t) (fns : t'.fns = t.fns) (ldr : t'.ldr = t.ldr) (pools : t'.pools = t.pools)
    (ing : t'.ing = t.ing) (trk : t'.trk = t.trk) (slu : t'.slu = t.slu) (thy : t'.thy = t.thy) (weir : t'.weir = t.weir)
    (sage : t'.sage = t.sage) (icu : t'.icu.pend = t.icu.pend ∧ t'.icu.log = t.icu.log)
    (dram : t'.dram.windows = t.dram.windows ∧ t'.dram.dmcs = t.dram.dmcs ∧ t'.dram.finds = t.dram.finds ∧
      t'.dram.held = t.dram.held) (regs : t'.regs = t.regs)
    (before : s'.weir.sprint = s.weir.sprint ∧ s'.sage = s.sage ∧ s'.regs = s.regs) : atReset s' t' := by
  obtain ⟨sprint, sage', regs'⟩ := before
  unfold atReset at *
  rw [fns, ldr, pools, ing, trk, slu, thy, weir, sage, icu.1, icu.2, dram.1, dram.2.1, dram.2.2.1, dram.2.2.2, regs, sprint, sage']
  obtain ⟨h1, h2, h3, h4, h5, h6, h7, h8, h9, h10, h11, h12, h13, h14, h15, own⟩ := h
  refine ⟨h1, h2, h3, h4, h5, h6, h7, h8, h9, h10, h11, h12, h13, h14, h15, fun off l here => ?_⟩
  rw [own off l here, reg_congr regs']

/-- A power-down (R460, R462). -/
theorem powerDown_spec (s : State) (r : Rail) :
    (s.powerDown r).dev.life = (if r = .aux then .noAux else .held) ∧ (s.powerDown r).dev.pins.perst = true ∧
    (s.powerDown r).dev.pins.stby = false ∧ (s.powerDown r).dev.rails = s.dev.rails ∧
    (r = .aux → (s.powerDown r).dev.aoNs = 0) ∧ (r ≠ .aux → atReset s (s.powerDown r)) := by
  obtain ⟨-, -, -, -, -, -, rails, -⟩ := abandonMbox_spec s
  unfold State.powerDown
  dsimp only
  by_cases aux : r = .aux
  · rw [if_pos aux, if_pos aux]
    exact ⟨rfl, rfl, rfl, rails, fun _ => rfl, fun other => absurd aux other⟩
  · rw [if_neg aux, if_neg aux]
    exact ⟨rfl, rfl, rfl, rails, fun h => absurd h aux, fun _ => atReset_congr (coreReset_atReset s) rfl rfl rfl rfl rfl rfl rfl rfl
      rfl ⟨rfl, rfl⟩ ⟨rfl, rfl, rfl, rfl⟩ rfl ⟨rfl, rfl, rfl⟩⟩

theorem rail_isDram (r : Rail) : (r = .aux ∨ railIsDram r = true) ↔ r ∈ [.aux, .dram, .vpp] := by
  cases r <;> decide

/-- A rail that is out of range, before what follows from it. -/
def State.railOut (s : State) (r : Rail) : State :=
  { s with dev := { s.dev with rails := s.dev.rails.drop r, pins := s.dev.pins.afterRail r } }

theorem execRailRemoval_next {r : Rail} {s : State} (h : ¬ (s.dev.life = .standby ∧ r ∈ [.aux, .dram, .vpp])) :
    exec (.railRemoval r) s = .next ((s.railOut r).railLost r) := by
  change execRailRemoval r s = _
  unfold execRailRemoval
  rw [if_neg (by rwa [rail_isDram])]
  rfl

/-- The rails stay as they are but for the one that is lost. -/
theorem railLost_rails (s : State) (r : Rail) : (s.railLost r).dev.rails = s.dev.rails := by
  obtain ⟨-, -, -, rails, -⟩ := powerDown_spec s r
  unfold State.railLost
  split
  · rfl
  · split
    · exact rails
    · rfl
  · split
    · exact rails
    · rfl
  · split
    · exact rails
    · rfl
  · exact rails

theorem railLost_service {s : State} (h : s.dev.life ∈ [.held, .booting, .ready, .recovery]) (r : Rail) :
    s.railLost r = s.powerDown r := by
  unfold State.railLost
  split
  · next life => exact absurd h (by rw [life]; decide)
  · next life => exact absurd h (by rw [life]; decide)
  · next life => exact absurd h (by rw [life]; decide)
  · next life => exact absurd h (by rw [life]; decide)
  · rfl

theorem railLost_aux {s : State} (h : s.dev.life ≠ .noAux) : s.railLost .aux = s.powerDown .aux := by
  unfold State.railLost
  split
  · next life => exact absurd life h
  · exact if_pos rfl
  · exact if_pos rfl
  · exact if_pos (.inr rfl)
  · rfl

/-- Every command but the loss of a rail answers. -/
theorem exec_answers {c : Instr} (h : ∀ r, c ≠ .railRemoval r) (s : State) : ∃ t, exec c s = .next t := by
  cases c
  case railRemoval r => exact absurd rfl (h r)
  all_goals exact ⟨_, rfl⟩

/-- Settles O29: a lost rail is `powerDown_spec`, the AO domain's reset `aoReset_reg`, and the one stop is that of
`execRailRemoval`. -/
theorem railsAndLink : Obligations.RailsAndLink := by
  refine ⟨⟨fun s => ?_, fun s => ?_, fun r s out => ?_, fun rate width flit s => ?_⟩, fun r s => ?_, fun c s other => exec_answers other s⟩
  · exact completes_if (by simp) rfl (execVauxApply_keeps (.refl s) (Within.mem _)) (by decide) fun _ => ⟨rfl, rfl, rfl⟩
  · refine completes_if (by simp) rfl (execAoPorRelease_keeps (.refl s) (Within.mem _)) (by decide) fun _ => ?_
    exact ⟨rfl, rfl, rfl, rfl, fun off l here homed => aoReset_reg s here homed⟩
  · refine ⟨_, execRailRemoval_next out, railLost_rails _ _, fun service => ?_, ?_⟩
    · rw [railLost_service (s := s.railOut r) service]
      obtain ⟨life, perst, stby, -, -, reset⟩ := powerDown_spec (s.railOut r) r
      exact ⟨life, perst, stby, fun other => atReset_congr (reset other) rfl rfl rfl rfl rfl rfl rfl rfl rfl ⟨rfl, rfl⟩
        ⟨rfl, rfl, rfl, rfl⟩ rfl ⟨rfl, rfl, rfl⟩⟩
    · rintro rfl live
      rw [railLost_aux (s := s.railOut .aux) live]
      obtain ⟨life, -, -, -, ao, -⟩ := powerDown_spec (s.railOut .aux) .aux
      exact ⟨life, ao rfl⟩
  · exact completes_if (by simp [and_assoc]) rfl (execLinkUp_keeps (.refl s) rate width flit (Within.mem _)) (by decide) fun _ => rfl
  · by_cases stop : s.dev.life = .standby ∧ r ∈ [.aux, .dram, .vpp]
    · refine ⟨fun _ => stop, fun _ => ?_⟩
      change execRailRemoval r s = _
      unfold execRailRemoval
      rw [if_pos (by rwa [rail_isDram])]
    · refine ⟨fun faults => ?_, fun h => absurd h stop⟩
      rw [execRailRemoval_next stop] at faults
      cases faults

end Sys2Proof.Machine
end

section
/-! SUPPORT. Boot, resets and standby (R396, R397, R404, R440 to R442). -/

set_option Elab.async false

namespace Sys2Proof.Machine

variable {cs : Comp → Prop} {u : State}

/-! ## What a boot reads -/

/-- The images, the slot table and the fuses are those of `s`: the slots in service may differ. -/
def SameImages (s t : State) : Prop :=
  t.dev.flash.bytes = s.dev.flash.bytes ∧ t.dev.flash.table = s.dev.flash.table ∧ t.dev.flash.slots = s.dev.flash.slots ∧
    t.dev.fuses = s.dev.fuses

theorem SameImages.of_eq {s t : State} (flash : t.dev.flash = s.dev.flash) (fuses : t.dev.fuses = s.dev.fuses) : SameImages s t := by
  unfold SameImages
  rw [flash, fuses]
  exact ⟨rfl, rfl, rfl, rfl⟩

theorem bootSlot_congr {s t : State} (h : SameImages s t) (b : BootFinds) (k : Nat) : t.bootSlot b k = s.bootSlot b k := by
  obtain ⟨-, table, slots, fuses⟩ := h
  unfold State.bootSlot State.slotBoots FlashSt.slot
  rw [table, slots, fuses]

theorem slotDigest_congr {s t : State} (h : SameImages s t) (k : Nat) (x : Bool) : t.slotDigest k x = s.slotDigest k x := by
  obtain ⟨bytes, -, slots, -⟩ := h
  unfold State.slotDigest FlashSt.slot FlashSt.read
  rw [bytes, slots]

/-! ## SAGE_BOOT -/

theorem putBit_low (v : W64) (k : Nat) (b : Bool) : putBit v (16 + k) b &&& 0xFFFF#64 = v &&& 0xFFFF#64 := by
  refine BitVec.eq_of_getLsbD_eq fun i hi => ?_
  have mask : (0xFFFF#64 : W64) = (BitVec.allOnes 16).setWidth 64 := by decide
  rw [BitVec.getLsbD_and, BitVec.getLsbD_and, putBit_get, mask, BitVec.getLsbD_setWidth, BitVec.getLsbD_allOnes]
  by_cases low : i < 16
  · rw [if_neg (by omega)]
  · simp [low]

theorem status_low (v : W64) (st : W16) : ((v &&& ~~~0xFFFF#64) ||| st.setWidth 64) &&& 0xFFFF#64 = st.setWidth 64 := by
  refine BitVec.eq_of_getLsbD_eq fun i hi => ?_
  have mask : (0xFFFF#64 : W64) = (BitVec.allOnes 16).setWidth 64 := by decide
  simp only [mask, BitVec.getLsbD_and, BitVec.getLsbD_or, BitVec.getLsbD_not, BitVec.getLsbD_setWidth, BitVec.getLsbD_allOnes]
  by_cases low : i < 16
  · simp [low, hi]
  · simp [low, BitVec.getLsbD_of_ge st i (by omega)]

theorem regOk_sageBoot : regOk .SAGE_BOOT 0 0 = true := by decide +kernel

/-! ## The steps of a boot -/

theorem startFrom_spec (s : State) (k : Nat) (x : Bool) :
    SameImages s (s.startFrom k x) ∧ (s.startFrom k x).dev.recovery = s.dev.recovery ∧
    (s.startFrom k x).reg .SAGE_BOOT 0 0 &&& 0xFFFF#64 = s.reg .SAGE_BOOT 0 0 &&& 0xFFFF#64 := by
  have changed : ∀ t : State, SameImages s t → t.dev.recovery = s.dev.recovery → t.reg .SAGE_BOOT 0 0 = s.reg .SAGE_BOOT 0 0 →
      SameImages s (if x = s.dev.flash.table.activeB.getLsbD k then t
        else t.updReg .SAGE_BOOT 0 0 (fun v => putBit v (16 + k) true)) ∧
      (if x = s.dev.flash.table.activeB.getLsbD k then t
        else t.updReg .SAGE_BOOT 0 0 (fun v => putBit v (16 + k) true)).dev.recovery = s.dev.recovery ∧
      (if x = s.dev.flash.table.activeB.getLsbD k then t
        else t.updReg .SAGE_BOOT 0 0 (fun v => putBit v (16 + k) true)).reg .SAGE_BOOT 0 0 &&& 0xFFFF#64 =
          s.reg .SAGE_BOOT 0 0 &&& 0xFFFF#64 := by
    intro t same rec reg
    split
    · exact ⟨same, rec, by rw [reg]⟩
    · rw [updReg_reg t _ _ _ _ regOk_sageBoot, putBit_low, reg]
      have dev := (updReg_keeps (cs := fun c => c ∈ [Comp.reg .SAGE_BOOT]) (.refl t) .SAGE_BOOT 0 0
        (fun v => putBit v (16 + k) true) (.inr (by decide))).dev_eq (by decide)
      unfold SameImages at *
      rw [dev]
      exact ⟨same, rec, rfl⟩
  unfold State.startFrom
  dsimp only
  by_cases sage : k = 0
  · rw [if_pos sage]
    exact changed _ ⟨rfl, rfl, rfl, rfl⟩ rfl rfl
  · rw [if_neg sage]
    exact changed _ ⟨rfl, rfl, rfl, rfl⟩ rfl rfl

theorem recover_spec (s : State) (st : W16) : (s.recover st).dev.recovery = st ∧
    (s.recover st).reg .SAGE_BOOT 0 0 &&& 0xFFFF#64 = st.setWidth 64 ∧ (s.recover st).sage = s.sage := by
  unfold State.recover
  generalize found : ({ s with dev := { s.dev with recovery := st } } : State) = t
  obtain ⟨rec, sage⟩ : t.dev.recovery = st ∧ t.sage = s.sage := by
    rw [← found]
    exact ⟨rfl, rfl⟩
  have k := updReg_keeps (cs := fun c => c ∈ [Comp.reg .SAGE_BOOT]) (.refl t) .SAGE_BOOT 0 0
        (fun v => (v &&& ~~~0xFFFF#64) ||| st.setWidth 64) (.inr (by decide))
  rw [updReg_reg t _ _ _ _ regOk_sageBoot, status_low, k.dev_eq (by decide), k.sage_eq (by decide)]
  exact ⟨rec, rfl, sage⟩

theorem bootSubs_recovery (s : State) (b : BootFinds) (ks : List Nat) (rec : s.dev.recovery = 0)
    (low : s.reg .SAGE_BOOT 0 0 &&& 0xFFFF#64 = 0) :
    (s.bootSubs b ks).dev.recovery = (if ∃ k ∈ ks, s.bootSlot b k = none then 0x8010#16 else 0) ∧
    (s.bootSubs b ks).reg .SAGE_BOOT 0 0 &&& 0xFFFF#64 = (s.bootSubs b ks).dev.recovery.setWidth 64 := by
  induction ks generalizing s with
  | nil =>
    refine ⟨?_, ?_⟩
    · rw [if_neg (by simp)]
      exact rec
    · change s.reg .SAGE_BOOT 0 0 &&& 0xFFFF#64 = s.dev.recovery.setWidth 64
      rw [low, rec]
      rfl
  | cons k ks ih =>
    unfold State.bootSubs
    split
    · next x found =>
      obtain ⟨same, rec', low'⟩ := startFrom_spec s k x
      obtain ⟨r, l⟩ := ih (s.startFrom k x) (rec'.trans rec) (low'.trans low)
      refine ⟨?_, l⟩
      rw [r]
      simp only [bootSlot_congr same, List.mem_cons, exists_eq_or_imp, found, reduceCtorEq, false_or]
    · next none =>
      obtain ⟨r, l, -⟩ := recover_spec s Status.noSlot
      refine ⟨?_, by rw [l, r]⟩
      rw [r, if_pos ⟨k, by simp, none⟩]

/-- Sage's keys come from its own start alone. -/
theorem startFrom_keys {s : State} {k : Nat} (x : Bool) (h : k ≠ 0) : (s.startFrom k x).sage = s.sage := by
  unfold State.startFrom
  dsimp only
  rw [if_neg h]
  split
  · rfl
  · exact (updReg_keeps (cs := fun c => c ∈ [Comp.reg .SAGE_BOOT]) (.refl _) .SAGE_BOOT 0 0 _ (.inr (by decide))).sage_eq (by decide)

theorem bootSubs_keys (s : State) (b : BootFinds) {ks : List Nat} (h : 0 ∉ ks) : (s.bootSubs b ks).sage = s.sage := by
  induction ks generalizing s with
  | nil => rfl
  | cons k ks ih =>
    unfold State.bootSubs
    split
    · next x _ => rw [ih _ (by simp at h; simp [h]), startFrom_keys x (by rintro rfl; simp at h)]
    · exact (recover_spec s _).2.2

/-- Sage derives its keys from the image that it starts from (R442). -/
theorem startFrom_sage (s : State) (x : Bool) :
    (s.startFrom 0 x).sage.keys =
      some { identity := Config.identityKey s.dev.fuses.deviceSecret
             signing := Config.aliasKey s.dev.fuses.deviceSecret (s.slotDigest 0 x)
             cert := Config.aliasCertificate (Config.identityKey s.dev.fuses.deviceSecret)
               (Config.aliasKey s.dev.fuses.deviceSecret (s.slotDigest 0 x)) (s.slotDigest 0 x) } := by
  have serves : ∀ v : BitVec 5, (putBit v 0 x).getLsbD 0 = x := fun v => by rw [putBit_get, if_pos (by decide)]
  have keys : ∀ t : State, (if x = s.dev.flash.table.activeB.getLsbD 0 then t
      else t.updReg .SAGE_BOOT 0 0 (fun v => putBit v (16 + 0) true)).sage = t.sage := by
    intro t
    split
    · rfl
    · exact (updReg_keeps (cs := fun c => c ∈ [Comp.reg .SAGE_BOOT]) (.refl _) .SAGE_BOOT 0 0 _ (.inr (by decide))).sage_eq (by decide)
  unfold State.startFrom
  dsimp only
  rw [keys, if_pos rfl]
  unfold State.deriveKeys
  dsimp only
  have sub : (s.setFlash { s.dev.flash with inService := putBit s.dev.flash.inService 0 x }).dev.flash.inService.getLsbD 0 = x :=
    serves _
  rw [sub]
  rw [slotDigest_congr (s := s)
    (t := s.setFlash { s.dev.flash with inService := putBit s.dev.flash.inService 0 x }) ⟨rfl, rfl, rfl, rfl⟩]
  rfl

/-! ## Boot -/

/-- The delay registers alone. -/
def delayRows : List Comp := [.reg .DMC_DLY, .reg .DMC_DLY_CA]

theorem putDelays_rows {s : State} (h : Keeps cs u s) (m : List (Nat × W32)) (hd : Within delayRows cs) :
    Keeps cs u (s.putDelays m) := by
  induction m generalizing s with
  | nil => exact h
  | cons x xs ih =>
    obtain ⟨off, v⟩ := x
    unfold State.putDelays
    refine ih ?_
    split
    · next l here =>
      split
      · next delay =>
        simp only [Bool.and_eq_true] at delay
        refine setReg_keeps h _ _ _ _ (.inr ?_)
        rcases isDelay_name delay.1 with name | name
        · rw [name]
          exact hd.of (by decide)
        · rw [name]
          exact hd.of (by decide)
      · exact h
    · exact h

theorem bootDelays_rows {s : State} (h : Keeps cs u s) (b : BootFinds) (hc : Within (delayRows ++ elogChanges) cs) :
    Keeps cs u (s.bootDelays b) := by
  simp only [within_append] at hc
  obtain ⟨delays, log⟩ := hc
  unfold State.bootDelays
  split
  · exact putDelays_rows h _ delays
  · exact elog_keeps (putDelays_rows h _ delays) _ _ _ _ _ _ log

/-- The state in which a boot asks for its subsystems. -/
def State.bootFrom (s : State) : State := State.lockEdge (s.setFlash { s.dev.flash with inService := s.dev.flash.table.activeB })

theorem bootFrom_spec (s : State) : SameImages s s.bootFrom ∧ s.bootFrom.dev.recovery = s.dev.recovery ∧
    s.bootFrom.reg .SAGE_BOOT 0 0 = s.reg .SAGE_BOOT 0 0 ∧ s.bootFrom.sage = s.sage ∧ s.bootFrom.dev.part = s.dev.part := by
  unfold State.bootFrom
  generalize start : s.setFlash { s.dev.flash with inService := s.dev.flash.table.activeB } = t
  obtain ⟨same, rec, regs, sage, part⟩ : SameImages s t ∧ t.dev.recovery = s.dev.recovery ∧ t.regs = s.regs ∧ t.sage = s.sage ∧
      t.dev.part = s.dev.part := by
    rw [← start]
    exact ⟨⟨rfl, rfl, rfl, rfl⟩, rfl, rfl, rfl, rfl⟩
  have k := lockEdge_keeps (.refl t) (Within.mem _)
  rw [k.reg_eq (by decide) (by decide) regOk_sageBoot, k.sage_eq (by decide)]
  unfold SameImages at *
  rw [k.dev_eq (by decide)]
  exact ⟨same, rec, reg_congr regs _ _ _, sage, part⟩

/-- Boot (R440 to R442): whether it leads to recovery, what SAGE_BOOT shows, and the keys of Sage. -/
theorem boot_spec (s : State) (b : BootFinds) (rec : s.dev.recovery = 0) (shown : s.reg .SAGE_BOOT 0 0 = 0)
    (fresh : s.sage.keys = none) :
    (s.boot b).dev.recovery = (if b.keyOk = false then 0x8009#16
      else if ∃ k ∈ bootList s.dev.part, s.bootSlot b k = none then 0x8010#16 else 0) ∧
    (s.boot b).reg .SAGE_BOOT 0 0 &&& 0xFFFF#64 = (s.boot b).dev.recovery.setWidth 64 ∧
    (b.keyOk = true → ∀ x, s.bootSlot b 0 = some x →
      (s.boot b).sage.keys = some { identity := Config.identityKey s.dev.fuses.deviceSecret
                                    signing := Config.aliasKey s.dev.fuses.deviceSecret (s.slotDigest 0 x)
                                    cert := Config.aliasCertificate (Config.identityKey s.dev.fuses.deviceSecret)
                                      (Config.aliasKey s.dev.fuses.deviceSecret (s.slotDigest 0 x)) (s.slotDigest 0 x) }) ∧
    ((b.keyOk = false ∨ s.bootSlot b 0 = none) → (s.boot b).sage.keys = none) := by
  obtain ⟨same, rec0, reg0, sage0, part0⟩ := bootFrom_spec s
  have unfolded : s.boot b = if !b.keyOk then s.bootFrom.recover Status.keyRecord
      else (s.bootFrom.bootDelays b).bootSubs b (bootList s.bootFrom.dev.part) := rfl
  rw [unfolded]
  cases b.keyOk with
  | false =>
    obtain ⟨r, l, k⟩ := recover_spec s.bootFrom Status.keyRecord
    simp only [Bool.not_false, if_true]
    refine ⟨r, by rw [l, r], nofun, fun _ => ?_⟩
    rw [k, sage0, fresh]
  | true =>
    have k := bootDelays_rows (.refl s.bootFrom) b (Within.mem _)
    have dev := k.dev_eq (by decide)
    have same1 : SameImages s (s.bootFrom.bootDelays b) := by
      unfold SameImages at *
      rw [dev]
      exact same
    have reg1 := k.reg_eq (by decide) (by decide) regOk_sageBoot
    have sage1 := k.sage_eq (by decide)
    simp only [Bool.not_true, Bool.false_eq_true, if_false, reduceCtorEq]
    rw [part0]
    generalize s.bootFrom.bootDelays b = t at *
    obtain ⟨r, l⟩ := bootSubs_recovery t b (bootList s.dev.part) (by rw [dev, rec0, rec]) (by rw [reg1, reg0, shown]; rfl)
    have rest : ∃ ks, bootList s.dev.part = 0 :: ks ∧ 0 ∉ ks := by
      cases s.dev.part
      · exact ⟨_, rfl, by decide⟩
      · exact ⟨_, rfl, by decide⟩
      · exact ⟨_, rfl, by decide⟩
    obtain ⟨ks, list, others⟩ := rest
    refine ⟨?_, l, fun _ x found => ?_, fun none => ?_⟩
    · rw [r]
      simp only [bootSlot_congr same1]
    · rw [list]
      unfold State.bootSubs
      rw [bootSlot_congr same1, found]
      dsimp only
      rw [bootSubs_keys _ b others, startFrom_sage, slotDigest_congr same1, same1.2.2.2]
    · rw [list]
      unfold State.bootSubs
      rw [bootSlot_congr same1, none.resolve_left (by simp)]
      dsimp only
      rw [(recover_spec t _).2.2, sage1, sage0, fresh]

/-- What a boot shows that began when `s` was reset: where it stands, why it fails, and Sage's keys. -/
def Booted (b : BootFinds) (s t : State) : Prop :=
  t.dev.life = .booting ∧
  t.dev.recovery = (if b.keyOk = false then 0x8009#16
    else if ∃ k ∈ bootList s.dev.part, s.abandonMbox.bootSlot b k = none then 0x8010#16 else 0) ∧
  t.reg .SAGE_BOOT 0 0 &&& 0xFFFF#64 = t.dev.recovery.setWidth 64 ∧
  (b.keyOk = true → ∀ x, s.abandonMbox.bootSlot b 0 = some x →
    t.sage.keys = some { identity := Config.identityKey s.dev.fuses.deviceSecret
                         signing := Config.aliasKey s.dev.fuses.deviceSecret (s.abandonMbox.slotDigest 0 x)
                         cert := Config.aliasCertificate (Config.identityKey s.dev.fuses.deviceSecret)
                           (Config.aliasKey s.dev.fuses.deviceSecret (s.abandonMbox.slotDigest 0 x))
                           (s.abandonMbox.slotDigest 0 x) }) ∧
  ((b.keyOk = false ∨ s.abandonMbox.bootSlot b 0 = none) → t.sage.keys = none)

/-- An abandoned mailbox command programs no other fuse than a counter. -/
theorem abandonMbox_secret (s : State) : s.abandonMbox.dev.fuses.deviceSecret = s.dev.fuses.deviceSecret := by
  unfold State.abandonMbox
  split
  · unfold State.mboxAbandon
    dsimp only
    split <;> rfl
  · rfl

theorem Booted.of_congr {b : BootFinds} {s t t' : State} (h : Booted b s t) (dev : t'.dev = t.dev) (sage : t'.sage = t.sage)
    (reg : t'.reg .SAGE_BOOT 0 0 = t.reg .SAGE_BOOT 0 0) : Booted b s t' := by
  unfold Booted
  rw [dev, sage, reg]
  exact h

/-- What a boot keeps. -/
theorem boot_fields (s : State) (b : BootFinds) : (s.boot b).dev.life = s.dev.life ∧ (s.boot b).dev.pins = s.dev.pins ∧
    (s.boot b).dev.role = s.dev.role ∧ (s.boot b).dev.hardStopRec = s.dev.hardStopRec ∧ (s.boot b).dev.aoNs = s.dev.aoNs ∧
    (s.boot b).ldr = s.ldr := by
  have k := boot_keeps (.refl s) b (Within.mem _)
  exact ⟨k.dev.life.resolve_left (by decide), k.dev.pins.resolve_left (by decide), k.dev.role.resolve_left (by decide),
    k.dev.hardStopRec.resolve_left (by decide), k.dev.aoNs.resolve_left (by decide), k.ldr_eq (by decide)⟩

theorem coreReset_sageBoot (s : State) : s.coreReset.reg .SAGE_BOOT 0 0 = 0 := by
  have row : (regAt (regOff .SAGE_BOOT 0 0)).elim false (fun l => !aoHomed l && (l.row.name == .SAGE_BOOT && l.unit == 0 && l.idx == 0))
      = true := by decide +kernel
  obtain ⟨-, -, -, -, -, -, -, -, -, -, -, -, -, -, -, regs⟩ := coreReset_atReset s
  cases here : regAt (regOff .SAGE_BOOT 0 0) with
  | none => rw [here] at row; cases row
  | some l =>
    rw [here] at row
    simp only [Option.elim_some, Bool.and_eq_true, Bool.not_eq_true', beq_iff_eq] at row
    obtain ⟨homed, ⟨name, unit⟩, idx⟩ := row
    have value := regs _ l here
    rw [homed, name, unit, idx] at value
    rw [if_neg (by decide)] at value
    exact value.trans (by decide +kernel)

theorem booted {b : BootFinds} {s c : State} (dev : c.dev.flash = s.abandonMbox.dev.flash ∧ c.dev.fuses = s.abandonMbox.dev.fuses ∧
    c.dev.part = s.dev.part) (life : c.dev.life = .booting) (rec : c.dev.recovery = 0) (shown : c.reg .SAGE_BOOT 0 0 = 0)
    (fresh : c.sage.keys = none) : Booted b s (c.boot b) := by
  obtain ⟨flash, fuses, part⟩ := dev
  obtain ⟨r, l, keys, none⟩ := boot_spec c b rec shown fresh
  have same : SameImages s.abandonMbox c := .of_eq flash fuses
  rw [fuses, abandonMbox_secret] at keys
  simp only [bootSlot_congr same, slotDigest_congr same, part] at r keys none
  exact ⟨(boot_fields c b).1.trans life, r, l, keys, none⟩

/-! ## Resets -/

/-- A held device with PERST_N deasserted and its strap latched, before it boots. -/
def State.released (s : State) : State :=
  { s.coreReset with dev := { s.coreReset.dev with
      life := .booting, role := s.coreReset.dev.pins.roleMaster, hardStopRec := false
      rails := Dev.reset.rails, pins := { s.coreReset.dev.pins with perst := false } } }

theorem released_role (s : State) : s.released.dev.role = s.dev.pins.roleMaster := by
  obtain ⟨-, -, -, -, -, pins, -⟩ := abandonMbox_spec s
  change s.abandonMbox.dev.pins.roleMaster = _
  rw [pins]

theorem part_abandoned (s : State) : s.abandonMbox.dev.part = s.dev.part := by
  obtain ⟨-, -, -, -, -, -, -, -, -, -, part⟩ := abandonMbox_spec s
  exact part

theorem fundamentalReset_booted (b : BootFinds) (s : State) : Booted b s (s.released.boot b) :=
  booted ⟨rfl, rfl, part_abandoned s⟩ rfl rfl ((reg_congr rfl _ _ _).trans (coreReset_sageBoot s)) rfl

theorem hotReset_booted (b : BootFinds) (s : State) : Booted b s ((s.coreReset.setLife .booting).boot b) :=
  booted ⟨rfl, rfl, part_abandoned s⟩ rfl rfl ((reg_congr rfl _ _ _).trans (coreReset_sageBoot s)) rfl

/-- A hard stop that is reported once (R372). -/
def State.stopReported (s : State) : State :=
  (s.powerStatus Status.priorHardStop).elog Status.priorHardStop unitWeir 0 noCtx noFn 0

theorem stopReported_spec (s : State) : s.stopReported.dev = s.dev ∧ s.stopReported.sage = s.sage ∧ s.stopReported.ldr = s.ldr ∧
    s.stopReported.reg .SAGE_BOOT 0 0 = s.reg .SAGE_BOOT 0 0 ∧ s.stopReported.reg .WEIR_STATUS 0 0 = 0x7021 ∧
    ∃ e, s.stopReported.icu.log.head? = some e ∧ e.status = 0x7021#16 ∧ e.unit = 9 := by
  have status : regOk .WEIR_STATUS 0 0 = true := by decide +kernel
  have log := elog_logged (s.powerStatus Status.priorHardStop) Status.priorHardStop unitWeir 0 noCtx noFn 0
  have told : (s.powerStatus Status.priorHardStop).reg .WEIR_STATUS 0 0 = 0x7021 := reg_setReg_self s _ status
  have k : Keeps (fun c => c ∈ powerStatusChanges ++ elogChanges) s s.stopReported :=
    elog_keeps (powerStatus_keeps (.refl s) _ (by unfold Within; decide)) _ _ _ _ _ _ (by unfold Within; decide)
  have told' : s.stopReported.reg .WEIR_STATUS 0 0 = 0x7021 :=
    ((elog_keeps (.refl _) _ _ _ _ _ _ (Within.mem _)).reg_eq (by decide) (by decide) status).trans told
  obtain ⟨e, head, st, unit, -⟩ := logged_head log
  exact ⟨k.dev_eq (by decide), k.sage_eq (by decide), k.ldr_eq (by decide), k.reg_eq (by decide) (by decide) regOk_sageBoot, told',
    e, head, st, unit⟩

theorem execFundamentalReset_eq (b : BootFinds) {s : State} (h : s.dev.life = .held ∧ s.dev.pins.perst = true) :
    exec (.fundamentalReset b) s =
      .next (if s.dev.hardStopRec = true then (s.released.boot b).stopReported else s.released.boot b) := by
  change execFundamentalReset b s = _
  unfold execFundamentalReset
  rw [when_eq s (by simp [h])]
  rfl

/-! ## Standby -/

/-- A device in standby, before the conditions of its pins. -/
def State.standing (s : State) : State :=
  { s.coreReset with
    dram := { s.coreReset.dram with bytes := s.dram.bytes, poison := s.dram.poison, frameMap := s.dram.frameMap }
    dev := { s.coreReset.dev with
      life := .standby, link := { rate := 0, width := 0, flit := false, l2 := true }
      pins := { s.coreReset.dev.pins with stby := true } } }

theorem execStandbyEntry_eq {s : State} (h : s.dev.life = .ready ∧ (s.fn 0).d3hot = true ∧ s.vfEnable = false) :
    exec .standbyEntry s = .next s.standing.aoConditions := by
  obtain ⟨life, d3, vf⟩ := h
  change execStandbyEntry s = _
  unfold execStandbyEntry
  rw [when_eq s (by simp [State.ready, life, d3, vf])]
  rfl

theorem standing_cond (s : State) (i : Nat) : s.standing.aoConditions.icu.cond.getLsbD i =
    ((i == 4 && s.dev.pins.flowLost) || (i == 5 && s.dev.pins.brake)) := by
  obtain ⟨-, -, -, -, -, pins, -⟩ := abandonMbox_spec s
  have flow : s.standing.dev.pins.flowLost = s.dev.pins.flowLost := by
    change s.abandonMbox.dev.pins.flowLost = _
    rw [pins]
  have brake : s.standing.dev.pins.brake = s.dev.pins.brake := by
    change s.abandonMbox.dev.pins.brake = _
    rw [pins]
  unfold State.aoConditions
  dsimp only
  rw [flow, brake, putBit_get, putBit_get]
  by_cases five : i = 5
  · simp [five]
  · by_cases four : i = 4
    · simp [four]
    · simp [five, four]

/-! ## Device ready -/

/-- The edges of the pins that are asserted at device ready (R469). -/
def State.pinEdges (s : State) : State :=
  let s1 := if s.dev.pins.brake then s.edge 5 true else s
  if s.dev.pins.flowLost then s1.edge 4 true else s1

theorem pinEdges_keeps {s : State} (h : Keeps cs u s) (hc : Within edgeChanges cs) : Keeps cs u s.pinEdges := by
  unfold State.pinEdges
  dsimp only
  split
  · split
    · exact edge_keeps (edge_keeps h _ _ hc) _ _ hc
    · exact edge_keeps h _ _ hc
  · split
    · exact edge_keeps h _ _ hc
    · exact h

theorem pinsAtReady_eq (s : State) : s.pinsAtReady = s.pinEdges.brakeOn.coolantEnter := rfl

theorem pinsAtReady_calm {s : State} (flow : s.dev.pins.flowLost = false) (brake : s.dev.pins.brake = false)
    (alert : s.dev.pins.vrAlert = false) : s.pinsAtReady = s := by
  have edges : s.pinEdges = s := by
    unfold State.pinEdges
    simp only [flow, brake, Bool.false_eq_true, if_false]
  rw [pinsAtReady_eq, edges, brakeOn_eq (.inr (.inr (by simp [State.brakePins, brake, alert]))), coolantEnter_off (by simp [flow])]

/-- A brake that is asserted at device ready acts then (R469). -/
theorem pinsAtReady_brake {s : State} (life : s.dev.life = .ready) (pins : s.dev.pins.brake = true ∨ s.dev.pins.vrAlert = true) :
    s.pinsAtReady.weir.brake = true := by
  have dev := (pinEdges_keeps (.refl s) (Within.mem _)).dev_eq (by decide)
  rw [pinsAtReady_eq]
  generalize s.pinEdges = t at *
  have acts : t.brakePins = true := by
    unfold State.brakePins
    rw [dev]
    simpa using pins
  have on : t.brakeOn.weir.brake = true := by
    cases already : t.weir.brake with
    | true => rw [brakeOn_eq (.inr (.inl already))]; exact already
    | false => exact (brakeOn_spec (by rw [dev, life]) already acts).1
  exact ((coolantEnter_keeps (.refl t.brakeOn) (Within.mem _)).weir.brake.resolve_left (by decide)).trans on

/-- A flow that is lost at device ready stops the clusters then (R375, R469). -/
theorem pinsAtReady_coolant {s : State} (life : s.dev.life = .ready) (flow : s.dev.pins.flowLost = true) :
    s.pinsAtReady.weir.coolant ≠ .none := by
  have dev := (pinEdges_keeps (.refl s) (Within.mem _)).dev_eq (by decide)
  rw [pinsAtReady_eq]
  generalize s.pinEdges = t at *
  have lives : t.brakeOn.dev.life = .ready := by
    rw [(brakeOn_keeps (.refl t) (Within.mem _)).dev.life.resolve_left (by decide), dev, life]
  have lost : t.brakeOn.dev.pins.flowLost = true := by
    have same := congrArg Pins.flowLost (brakeOn_pins t 0)
    exact same.trans (by rw [dev]; exact flow)
  by_cases held : t.brakeOn.coolantHeld = true
  · rw [coolantEnter_off (by simp [held])]
    simpa [State.coolantHeld] using held
  · rw [(coolantEnter_spec (by simp [State.pinsAct, lives, lost, held])).1]
    decide

theorem execDeviceReady_eq {s : State} (life : s.dev.life = .booting) : exec .deviceReady s =
    .next (if s.dev.recovery = 0 then ((s.setDramMode .running).setLife .ready).pinsAtReady.releasePorts
      else ((s.setDramMode (if s.dev.recovery = 0x8009#16 then .selfRefresh else .running)).setLife .recovery).releasePorts) := by
  change execDeviceReady s = _
  unfold execDeviceReady
  rw [when_eq s (by simp [life])]
  by_cases ok : s.dev.recovery = 0
  · rw [if_pos ok]
    simp only [if_pos ok]
    rw [if_neg (by rw [ok]; decide)]
  · rw [if_neg ok]
    simp only [if_neg ok]

theorem releasePorts_dev (s : State) : s.releasePorts.dev = s.dev ∧ s.releasePorts.weir = s.weir := by
  have k := releasePorts_keeps (.refl s) (Within.mem _)
  exact ⟨k.dev_eq (by decide), k.weir_eq (by decide)⟩

/-- A device in service, before its pins act. -/
def State.served (s : State) : State := { s with dev := { s.dev with life := .ready, dramMode := .running } }

/-- What device ready does in recovery, and in service. -/
theorem deviceReady_spec {s : State} (life : s.dev.life = .booting) : ∃ t, exec .deviceReady s = .next t ∧
    (s.dev.recovery ≠ 0 →
      let d := { s.dev with life := .recovery, dramMode := if s.dev.recovery = 0x8009#16 then .selfRefresh else .running }
      t.dev = d ∧ t.weir = s.weir ∧ ((s.dram.held = [] ∨ s.dev.recovery = 0x8009#16) → t = { s with dev := d })) ∧
    (s.dev.recovery = 0 → t.dev.life = .ready ∧
      (s.dev.pins.flowLost = false → s.dev.pins.brake = false → s.dev.pins.vrAlert = false →
        let d := { s.dev with life := .ready, dramMode := .running }
        t.dev = d ∧ t.weir = s.weir ∧ (s.dram.held = [] → t = { s with dev := d })) ∧
      ((s.dev.pins.brake = true ∨ s.dev.pins.vrAlert = true) → t.weir.brake = true) ∧
      (s.dev.pins.flowLost = true → t.weir.coolant ≠ .none)) := by
  refine ⟨_, execDeviceReady_eq life, fun bad => ?_, fun ok => ?_⟩
  · rw [if_neg bad]
    obtain ⟨dev, weir⟩ := releasePorts_dev ((s.setDramMode (if s.dev.recovery = 0x8009#16 then .selfRefresh else .running)).setLife
      .recovery)
    refine ⟨dev, weir, fun idle => ?_⟩
    rcases idle with idle | key
    · exact releasePorts_none idle
    · refine releasePorts_stopped (s := (s.setDramMode _).setLife .recovery) ?_
      change (if s.dev.recovery = 0x8009#16 then DramMode.selfRefresh else .running) ≠ .running
      rw [if_pos key]
      decide
  · rw [if_pos ok]
    have start : (s.setDramMode .running).setLife .ready = s.served := rfl
    rw [start]
    obtain ⟨dev, weir⟩ := releasePorts_dev s.served.pinsAtReady
    have lives : s.served.pinsAtReady.dev.life = .ready :=
      (pinsAtReady_keeps (.refl s.served) (Within.mem _)).dev.life.resolve_left (by decide)
    refine ⟨by rw [dev, lives], fun flow brake alert => ?_, fun pins => ?_, fun flow => ?_⟩
    · rw [pinsAtReady_calm (s := s.served) flow brake alert] at dev weir ⊢
      exact ⟨dev, weir, fun idle => releasePorts_none idle⟩
    · rw [weir]
      exact pinsAtReady_brake (s := s.served) rfl pins
    · rw [weir]
      exact pinsAtReady_coolant (s := s.served) rfl flow

/-! ## PERST_N -/

theorem perstAssert_spec (s : State) : ∃ t, exec .perstAssert s = .next t ∧
    t.dev.pins.perst = true ∧ t.dev.pins.stby = false ∧ t.dev.pins.wake = false ∧
    (s.dev.life ∉ [.noAux, .auxReset, .hardStop] →
      t.dev.life = .held ∧ atReset s t ∧ t.dev.aoNs = s.dev.aoNs ∧ t.dev.hardStopRec = s.dev.hardStopRec ∧ t.out = s.out) ∧
    (s.dev.life ∈ [.noAux, .auxReset, .hardStop] →
      t = { s with dev := { s.dev with pins := { s.dev.pins with perst := true, stby := false, wake := false } } }) := by
  generalize pinned : ({ s with dev := { s.dev with pins := { s.dev.pins with perst := true, stby := false, wake := false } } } : State)
    = p
  have fields : p.dev.pins.perst = true ∧ p.dev.pins.stby = false ∧ p.dev.pins.wake = false ∧ p.dev.aoNs = s.dev.aoNs ∧
      p.dev.hardStopRec = s.dev.hardStopRec ∧ p.out = s.out ∧ p.weir = s.weir ∧ p.sage = s.sage ∧ p.regs = s.regs := by
    rw [← pinned]
    exact ⟨rfl, rfl, rfl, rfl, rfl, rfl, rfl, rfl, rfl⟩
  obtain ⟨perst, stby, wake, ao, stop, out, weir, sage, regs⟩ := fields
  by_cases quiet : s.dev.life ∈ [.noAux, .auxReset, .hardStop]
  · refine ⟨p, ?_, perst, stby, wake, fun other => absurd quiet other, fun _ => rfl⟩
    change execPerstAssert s = _
    unfold execPerstAssert
    simp only [List.mem_cons, List.not_mem_nil, or_false] at quiet
    rw [pinned]
    rcases quiet with life | life | life <;> rw [life]
  · obtain ⟨-, -, sent, -, -, pins, -, time, record, -⟩ := abandonMbox_spec p
    refine ⟨(p.coreReset).setLife .held, ?_, ?_, ?_, ?_, fun _ => ⟨rfl, ?_, ?_, ?_, ?_⟩, fun h => absurd h quiet⟩
    · change execPerstAssert s = _
      unfold execPerstAssert
      rw [pinned]
      split
      · next life => exact absurd (by rw [life]; decide) quiet
      · next life => exact absurd (by rw [life]; decide) quiet
      · next life => exact absurd (by rw [life]; decide) quiet
      · rfl
    · change p.abandonMbox.dev.pins.perst = true
      rw [pins, perst]
    · change p.abandonMbox.dev.pins.stby = false
      rw [pins, stby]
    · change p.abandonMbox.dev.pins.wake = false
      rw [pins, wake]
    · exact atReset_congr (coreReset_atReset p) rfl rfl rfl rfl rfl rfl rfl rfl rfl ⟨rfl, rfl⟩ ⟨rfl, rfl, rfl, rfl⟩ rfl
        ⟨by rw [weir], sage.symm, regs.symm⟩
    · exact time.trans ao
    · exact record.trans stop
    · exact sent.trans out

/-- Settles O28: a boot is `boot_spec`, what a reset leaves `coreReset_atReset`, and what follows device ready
`deviceReady_spec`. -/
theorem resetsAndBoot : Obligations.ResetsAndBoot := by
  refine ⟨⟨perstAssert_spec, fun s => ?_⟩, ⟨fun b s => ⟨?_, ?_⟩, fun s => ?_⟩⟩
  · by_cases enters : s.dev.life = .ready ∧ (s.fn 0).d3hot = true ∧ s.vfEnable = false
    · refine ⟨_, execStandbyEntry_eq enters, ?_⟩
      rw [if_pos enters]
      exact ⟨rfl, atReset_congr (coreReset_atReset s) rfl rfl rfl rfl rfl rfl rfl rfl rfl ⟨rfl, rfl⟩ ⟨rfl, rfl, rfl, rfl⟩ rfl
        ⟨rfl, rfl, rfl⟩, rfl, rfl, rfl, rfl, rfl, fun i _ => standing_cond s i⟩
    · refine ⟨s, ?_, by rw [if_neg enters]⟩
      change execStandbyEntry s = _
      exact congrArg _ (when_neg s (by simpa [State.ready, and_assoc] using enters) _)
  · by_cases begins : s.dev.life = .held ∧ s.dev.pins.perst = true
    · refine ⟨_, execFundamentalReset_eq b begins, ?_⟩
      rw [if_pos begins]
      have found := fundamentalReset_booted b s
      obtain ⟨-, pins, role, record, -, ldr⟩ := boot_fields s.released b
      have perst : (s.released.boot b).dev.pins.perst = false := by rw [pins]; rfl
      by_cases stopped : s.dev.hardStopRec = true
      · rw [if_pos stopped]
        obtain ⟨dev, sage, ldr', shown, status, told⟩ := stopReported_spec (s.released.boot b)
        exact ⟨found.of_congr dev sage shown, by rw [dev, perst], by rw [dev, role, released_role], by rw [dev, record]; rfl,
          by rw [ldr', ldr]; rfl, fun _ => ⟨status, told⟩⟩
      · rw [if_neg stopped]
        exact ⟨found, perst, role.trans (released_role s), record, ldr, fun h => absurd h stopped⟩
    · refine ⟨s, ?_, by rw [if_neg begins]⟩
      change execFundamentalReset b s = _
      exact congrArg _ (when_neg s (by simpa using begins) _)
  · by_cases alive : s.linkAlive = true
    · refine ⟨(s.coreReset.setLife .booting).boot b, ?_, ?_⟩
      · change execHotReset b s = _
        exact congrArg _ (when_eq s alive _)
      rw [if_pos alive]
      obtain ⟨-, -, role, -, ao, ldr⟩ := boot_fields (s.coreReset.setLife .booting) b
      obtain ⟨-, -, -, -, -, -, -, ao', -, role', -⟩ := abandonMbox_spec s
      exact ⟨hotReset_booted b s, role.trans role', ldr, ao.trans ao'⟩
    · refine ⟨s, ?_, by rw [if_neg alive]⟩
      change execHotReset b s = _
      exact congrArg _ (when_neg s alive _)
  · by_cases boots : s.dev.life = .booting
    · obtain ⟨t, ran, bad, ok⟩ := deviceReady_spec boots
      have k := execDeviceReady_keeps (.refl s) (Within.mem _)
      change KeepsOut _ s (exec .deviceReady s) at k
      rw [ran] at k
      refine completes_of ran k (by decide +kernel) ?_
      rw [if_pos boots]
      exact ⟨bad, ok⟩
    · refine completes_none ?_ (by rw [if_neg boots])
      change execDeviceReady s = _
      exact congrArg _ (when_neg s (by simpa using boots) _)

end Sys2Proof.Machine
end

section
/-! SUPPORT. Function level resets, VF Enable and D3hot (R398 to R404). -/

set_option Elab.async false

namespace Sys2Proof.Machine

variable {cs : Comp → Prop} {u : State}

/-! ## Configuration fields -/

theorem vfEnable_eq (s : State) : s.vfEnable = (Mem.read (s.fn 0).cfg 0x2A8).getLsbD 0 := by
  unfold State.vfEnable FnState.cfgRd
  have bits (b c : Byte) : bitAt (leVal [b, c]) 0 = b.getLsbD 0 := by
    unfold bitAt leVal leVal leVal
    rw [BitVec.getLsbD, Nat.testBit_zero]
    simp only [Nat.pow_zero, Nat.div_one]
    rw [show (b.toNat + 256 * (c.toNat + 256 * 0)) % 2 = b.toNat % 2 by omega]
    rfl
  exact bits _ _

theorem vfEnable_congr {s t : State} (h : Mem.read (t.fn 0).cfg 0x2A8 = Mem.read (s.fn 0).cfg 0x2A8) : t.vfEnable = s.vfEnable := by
  rw [vfEnable_eq, vfEnable_eq, h]

theorem numVfs_congr {s t : State} (h : ∀ i < 2, Mem.read (t.fn 0).cfg (0x2B0 + i) = Mem.read (s.fn 0).cfg (0x2B0 + i)) :
    t.numVfs = s.numVfs := cfgRd_congr h

theorem d3hot_eq (f : FnState) : f.d3hot = decide ((Mem.read f.cfg 0x44).toNat % 4 = 3) := by
  unfold FnState.d3hot FnState.cfgRd
  rfl

/-! ## The start of a reset -/

/-- What the start of an FLR leaves of a function (R11, R398). -/
theorem flrStart_cfg (f : FnState) (o : Nat) : Mem.read f.flrStart.cfg o =
    if (0x104 ≤ o ∧ o < 0x148) ∨ o = 0x45 then Mem.read f.cfg o else 0 := by
  unfold FnState.flrStart Mem.read
  dsimp only
  rw [SMap.get_keep]
  simp only [stickyCfg, Bool.or_eq_true, Bool.and_eq_true, decide_eq_true_eq, beq_iff_eq]
  rfl

theorem startFlr_fn (s : State) (n m : Nat) : (s.startFlr n).fn m =
    if m = n ∧ (s.fn m).flr = .idle then (s.fn m).flrStart else s.fn m := by
  unfold State.startFlr
  by_cases own : m = n
  · subst own
    by_cases idle : (s.fn m).flr = .idle
    · rw [if_pos idle, if_pos ⟨rfl, idle⟩, fn_setFn_self]
    · simp [idle]
  · rw [if_neg (fun h : m = n ∧ _ => own h.1)]
    by_cases idle : (s.fn n).flr = .idle
    · rw [if_pos idle, fn_setFn, if_neg own]
    · rw [if_neg idle]

theorem flrStart_flr (f : FnState) : f.flrStart.flr = .initiated := rfl

theorem startFlrs_fn (s : State) (ns : List Nat) (m : Nat) : (s.startFlrs ns).fn m =
    if m ∈ ns ∧ (s.fn m).flr = .idle then (s.fn m).flrStart else s.fn m := by
  induction ns generalizing s with
  | nil => rw [if_neg (by simp)]; rfl
  | cons n ns ih =>
    unfold State.startFlrs
    rw [ih, startFlr_fn]
    by_cases own : m = n
    · subst own
      by_cases idle : (s.fn m).flr = .idle
      · simp [idle, flrStart_flr]
      · simp [idle]
    · simp [own]

theorem mem_liveVfs (s : State) (n : Nat) : n ∈ s.liveVfs ↔ 0 < n ∧ s.fnEnabled n = true := by
  unfold State.liveVfs
  rw [List.mem_filter, List.mem_range]
  simp only [Bool.and_eq_true, bne_iff_ne, ne_eq]
  constructor
  · rintro ⟨-, ne, on⟩
    exact ⟨by omega, on⟩
  · rintro ⟨pos, on⟩
    refine ⟨?_, by omega, on⟩
    unfold State.fnEnabled at on
    simp only [Bool.or_eq_true, decide_eq_true_eq, Bool.and_eq_true] at on
    omega

theorem disableVfs_pf (s : State) : s.disableVfs.fn 0 = (s.putCfg 0 0x2A8 (s.cfgByte 0 0x2A8 &&& 0xFE#8)).fn 0 := by
  unfold State.disableVfs
  rw [startFlrs_fn, if_neg fun h => absurd (mem_liveVfs s 0 |>.1 h.1).1 (by decide)]

/-- VF Enable is cleared (R402). -/
theorem disableVfs_fn (s : State) : s.disableVfs.vfEnable = false ∧ (s.disableVfs.fn 0).flr = (s.fn 0).flr ∧
    ∀ n, 0 < n → s.disableVfs.fn n =
      if s.fnEnabled n = true ∧ (s.fn n).flr = .idle then (s.fn n).flrStart else s.fn n := by
  have pf := disableVfs_pf s
  refine ⟨?_, ?_, fun n pos => ?_⟩
  · rw [vfEnable_eq, pf, putCfg_read, if_pos ⟨rfl, rfl⟩]
    have word : byteOf (s.cfgWord 0 (0x2A8 / 4 * 4)).reset 0x2A8 = 0 := by
      rw [show s.cfgWord 0 (0x2A8 / 4 * 4) = cfgRw 0 0x19 from rfl]
      decide
    rw [word]
    simp
  · rw [pf]
    unfold State.putCfg
    rw [fn_setFn_self]
  · have other : (s.putCfg 0 0x2A8 (s.cfgByte 0 0x2A8 &&& 0xFE#8)).fn n = s.fn n := by
      unfold State.putCfg
      rw [fn_setFn, if_neg (by omega)]
    unfold State.disableVfs
    rw [startFlrs_fn, other]
    simp only [mem_liveVfs, pos, true_and]

/-- A load that an FLR of the PF abandons (R59). -/
theorem abandonLoad_spec (s : State) : s.abandonLoad.fns = s.fns ∧ (s.ldr.load = none → s.abandonLoad.ldr = s.ldr) ∧
    (s.ldr.load ≠ none → s.abandonLoad.ldr.state = .refused ∧ s.abandonLoad.ldr.load = none ∧ s.abandonLoad.ldr.status = 0x3013#16) := by
  have fns := (abandonLoad_keeps (.refl s) (Within.mem _)).fns_eq (by decide)
  refine ⟨fns, fun none => ?_, fun busy => ?_⟩
  · unfold State.abandonLoad
    rw [none]
    rfl
  · have some : s.ldr.load.isSome = true := Option.isSome_iff_ne_none.2 busy
    unfold State.abandonLoad
    rw [if_pos some]
    unfold State.loadRefused State.imgFail
    simp only [raise_fields]
    exact ⟨rfl, rfl, rfl⟩

/-! ## Initiating a reset -/

theorem fnEnabled_zero (s : State) : s.fnEnabled 0 = true := rfl

theorem flrInitiate_idle {s : State} {n : Nat} (h : ¬ (s.fnEnabled n = true ∧ (s.fn n).flr = .idle ∧ (s.fn 0).flr = .idle)) :
    s.flrInitiate n = s := by
  unfold State.flrInitiate
  rw [if_pos]
  simp only [Bool.or_eq_true, Bool.not_eq_true', bne_iff_ne]
  by_contra none
  simp only [not_or, not_not, Bool.not_eq_false] at none
  exact h ⟨none.1.1, none.1.2, none.2⟩

theorem flrInitiate_vf {s : State} {n : Nat} (ne : n ≠ 0) (on : s.fnEnabled n = true) (idle : (s.fn n).flr = .idle)
    (pf : (s.fn 0).flr = .idle) : s.flrInitiate n = s.setFn n (s.fn n).flrStart := by
  unfold State.flrInitiate
  rw [if_neg (by simp [on, idle, pf]), if_neg ne]
  unfold State.startFlr
  rw [if_pos idle]

theorem flrInitiate_pf {s : State} (pf : (s.fn 0).flr = .idle) : s.flrInitiate 0 = ((s.disableVfs).startFlr 0).abandonLoad := by
  unfold State.flrInitiate
  rw [if_neg (by simp [fnEnabled_zero, pf]), if_pos rfl]

/-- Sticky registers hold no bit of VF Enable or of the power state. -/
theorem flrStart_unsticky (f : FnState) {o : Nat} (h : ¬ ((0x104 ≤ o ∧ o < 0x148) ∨ o = 0x45)) :
    Mem.read f.flrStart.cfg o = 0 := by rw [flrStart_cfg, if_neg h]

theorem flrInitiate_spec {s : State} {n : Nat} (on : s.fnEnabled n = true) (idle : (s.fn n).flr = .idle) (pf : (s.fn 0).flr = .idle) :
    ((s.flrInitiate n).fn n).flr = .initiated ∧ ((s.flrInitiate n).fn n).readShadow = none ∧
    ((s.flrInitiate n).fn n).writeShadow = none ∧
    (∀ o, Mem.read ((s.flrInitiate n).fn n).cfg o =
      if (0x104 ≤ o ∧ o < 0x148) ∨ o = 0x45 then Mem.read (s.fn n).cfg o else 0) ∧
    (n ≠ 0 → (s.flrInitiate n).ldr = s.ldr ∧ ∀ m, m ≠ n → (s.flrInitiate n).fn m = s.fn m) ∧
    (n = 0 → (s.flrInitiate n).vfEnable = false ∧
      (∀ m, 0 < m → s.fnEnabled m = true → ((s.flrInitiate n).fn m).flr =
        if (s.fn m).flr = .idle then .initiated else (s.fn m).flr) ∧
      (s.ldr.load = none → (s.flrInitiate n).ldr = s.ldr) ∧
      (s.ldr.load ≠ none → (s.flrInitiate n).ldr.state = .refused ∧ (s.flrInitiate n).ldr.load = none ∧
        (s.flrInitiate n).ldr.status = 0x3013#16)) := by
  by_cases main : n = 0
  · subst main
    rw [flrInitiate_pf pf]
    obtain ⟨vf, same, others⟩ := disableVfs_fn s
    have ldr : (s.disableVfs.startFlr 0).ldr = s.ldr :=
      (startFlr_keeps (disableVfs_keeps (.refl s) (Within.mem _)) 0 (Within.mem _)).ldr_eq (by decide)
    obtain ⟨fns, idleLoad, busyLoad⟩ := abandonLoad_spec (s.disableVfs.startFlr 0)
    rw [ldr] at idleLoad busyLoad
    have started (m : Nat) : ((s.disableVfs.startFlr 0).abandonLoad).fn m =
        if m = 0 then (s.disableVfs.fn 0).flrStart else s.disableVfs.fn m := by
      rw [fn_congr fns, startFlr_fn]
      by_cases z : m = 0
      · subst z
        rw [if_pos ⟨rfl, same.trans pf⟩, if_pos rfl]
      · rw [if_neg (fun h : m = 0 ∧ _ => z h.1), if_neg z]
    have first := started 0
    rw [if_pos rfl] at first
    refine ⟨by rw [first]; rfl, by rw [first]; rfl, by rw [first]; rfl, fun o => ?_, fun ne => absurd rfl ne,
      fun _ => ⟨?_, fun m pos on => ?_, idleLoad, busyLoad⟩⟩
    · rw [first, flrStart_cfg]
      by_cases sticky : (0x104 ≤ o ∧ o < 0x148) ∨ o = 0x45
      · rw [if_pos sticky, if_pos sticky]
        have list := disableVfs_pf s
        rw [list, putCfg_read, if_neg (by omega)]
      · rw [if_neg sticky, if_neg sticky]
    · rw [vfEnable_eq, first, flrStart_unsticky _ (by decide)]
      rfl
    · rw [started, if_neg (by omega), others m pos]
      by_cases i : (s.fn m).flr = .idle
      · rw [if_pos ⟨on, i⟩, if_pos i]
        rfl
      · rw [if_neg (fun h : _ ∧ (s.fn m).flr = .idle => i h.2), if_neg i]
  · rw [flrInitiate_vf main on idle pf]
    refine ⟨by rw [fn_setFn_self]; rfl, by rw [fn_setFn_self]; rfl, by rw [fn_setFn_self]; rfl, fun o => ?_, fun _ => ⟨rfl, fun m ne => ?_⟩,
      fun z => absurd z main⟩
    · rw [fn_setFn_self, flrStart_cfg]
    · rw [fn_setFn, if_neg ne]

/-! ## D3hot -/

theorem enterD3_fn (s : State) (n m : Nat) : (s.enterD3 n).fn m =
    if m = n then { (s.flrInitiate n).fn n with cfg := ((s.enterD3 n).fn n).cfg } else (s.flrInitiate n).fn m := by
  unfold State.enterD3 State.putCfg
  rw [fn_setFn]
  split
  · rw [fn_setFn_self]
  · rfl

theorem enterD3_d3hot (s : State) (n : Nat) : ((s.enterD3 n).fn n).d3hot = true := by
  have word (t : State) : byteOf (t.cfgWord n (0x44 / 4 * 4)).reset 0x44 = 0 := by
    rw [show t.cfgWord n (0x44 / 4 * 4) = { reset := 0, rw := 0x0103, w1c := 0x8000 } from rfl]
    decide
  have low (b : Byte) : ((b &&& 0xFC#8) ||| 0x03#8).toNat % 4 = 3 := by revert b; decide
  unfold State.enterD3
  rw [d3hot_eq, putCfg_read, if_pos ⟨rfl, rfl⟩, word]
  simp only [BitVec.ofNat_eq_ofNat, BitVec.xor_zero, decide_eq_true_eq]
  exact low _

/-! ## Messages that go on leave the resets -/

theorem setFn_flr (s : State) (n : Nat) {x : FnState} (h : x.flr = (s.fn n).flr) (m : Nat) : ((s.setFn n x).fn m).flr = (s.fn m).flr := by
  rw [fn_setFn]
  split
  · next own => rw [own, h]
  · rfl

theorem message_flr (s : State) (n v m : Nat) : ((s.message n v).fn m).flr = (s.fn m).flr := by
  unfold State.message
  dsimp only
  split
  · split
    · refine setFn_flr s n ?_ m
      rfl
    · rfl
  · split
    · refine setFn_flr s n ?_ m
      rfl
    · rfl

theorem sendHeld_flr (s : State) (n : Nat) (vs : List Nat) (m : Nat) : ((s.sendHeld n vs).fn m).flr = (s.fn m).flr := by
  induction vs generalizing s with
  | nil => rfl
  | cons v vs ih =>
    unfold State.sendHeld
    refine (ih _).trans ?_
    generalize (if (s.fn n).msixOn = true then (s.fn n).msixMasked v else _) = masked
    cases masked with
    | true => rfl
    | false => exact setFn_flr s n (x := { s.fn n with pba := (s.fn n).pba.filter (fun x => x != v) }) rfl m

theorem releaseFns_flr (s : State) (ns : List Nat) (m : Nat) : ((s.releaseFns ns).fn m).flr = (s.fn m).flr := by
  induction ns generalizing s with
  | nil => rfl
  | cons n ns ih =>
    unfold State.releaseFns State.releaseHeld
    refine (ih _).trans ?_
    split
    · exact sendHeld_flr s n _ m
    · rfl

/-- VF Enable is set (R402). -/
def State.vfsOn (s : State) : State := (s.orCfg 0 0x2A8 0x01#8).releaseFns (List.range 32)

theorem vfsOn_spec (s : State) : s.vfsOn.vfEnable = true ∧ s.vfsOn.numVfs = s.numVfs ∧
    (∀ n, (s.vfsOn.fn n).flr = (s.fn n).flr ∧ (n ≠ 0 → (s.vfsOn.fn n).cfg = (s.fn n).cfg)) ∧
    ∀ n, s.vfsOn.fnEnabled n = (n == 0 || (decide (n < 32) && decide (n ≤ s.numVfs))) := by
  have same := sameCfg_releaseFns (s.orCfg 0 0x2A8 0x01#8) (List.range 32)
  have on : s.vfsOn.vfEnable = true := by
    rw [vfEnable_eq]
    unfold State.vfsOn
    rw [same.cfg 0]
    unfold State.orCfg
    rw [putCfg_read, if_pos ⟨rfl, rfl⟩, show s.cfgWord 0 (0x2A8 / 4 * 4) = cfgRw 0 0x19 from rfl]
    have word : byteOf (cfgRw 0 0x19).reset 0x2A8 = 0 := by decide
    rw [word]
    simp
  have num : s.vfsOn.numVfs = s.numVfs := numVfs_congr fun i hi => by
    unfold State.vfsOn
    rw [same.cfg 0]
    unfold State.orCfg
    rw [putCfg_read, if_neg (by omega)]
  refine ⟨on, num, fun n => ⟨?_, fun ne => ?_⟩, fun n => ?_⟩
  · unfold State.vfsOn
    rw [releaseFns_flr]
    unfold State.orCfg State.putCfg
    refine setFn_flr s 0 ?_ n
    rfl
  · unfold State.vfsOn
    rw [same.cfg n]
    unfold State.orCfg State.putCfg
    rw [fn_setFn, if_neg ne]
  · unfold State.fnEnabled
    rw [on, num, Bool.and_true]
    rfl

/-! ## Silencing: the rills -/

/-- An entry of a map that is not the default is listed. -/
theorem SMap.mem_of_get {α : Type} {d : Nat → α} {m : SMap α} {k : Nat} (h : SMap.get d m k ≠ d k) : (k, SMap.get d m k) ∈ m := by
  induction m with
  | nil => exact absurd rfl h
  | cons x m ih =>
    obtain ⟨a, v⟩ := x
    simp only [SMap.get] at h ⊢
    by_cases own : a = k
    · subst own
      simp
    · rw [if_neg own] at h ⊢
      exact List.mem_cons_of_mem _ (ih h)

theorem rillsOf_of_live {s : State} {r : Nat} (h : (s.rill r).st ≠ .detached) : r ∈ s.rillsOf (s.rill r).fn := by
  have listed : (r, s.rill r) ∈ s.ing.rills := by
    refine SMap.mem_of_get fun default => h ?_
    rw [show s.rill r = Rill.reset from default]
    rfl
  unfold State.rillsOf
  rw [List.mem_map]
  exact ⟨_, List.mem_filter.2 ⟨listed, by simpa using h⟩, rfl⟩

theorem dropRill_rill (s : State) (r k : Nat) : (s.dropRill r).rill k = s.rill k :=
  rill_congr ((dropRill_keeps (.refl s) r (Within.mem _)).ing.rills.resolve_left (by decide)) k

/-- The rills of a list are detached, and no other (R205). -/
theorem dropRills_st (s : State) (rs : List Nat) (k : Nat) :
    ((s.dropRills rs).rill k).st = if k ∈ rs then .detached else (s.rill k).st := by
  induction rs generalizing s with
  | nil => rfl
  | cons r rs ih =>
    unfold State.dropRills
    rw [ih]
    unfold State.clearRill
    rw [rill_updRill, dropRill_rill, dropRill_rill]
    by_cases own : k = r
    · simp [own, Rill.reset]
    · simp [own]

/-! ## Silencing: the pools -/

/-- Every pool of a function is being reinitialised (R345). -/
def State.poolsReinit (s : State) (n : Nat) : Prop := ∀ p ∈ s.pools, p.owner = n → p.reinit = true

theorem poolsReinit_congr {s t : State} {n : Nat} (h : t.pools = s.pools) (on : s.poolsReinit n) : t.poolsReinit n := by
  unfold State.poolsReinit
  rw [h]
  exact on

theorem poolsReinit_setPool {s : State} {n : Nat} (on : s.poolsReinit n) {x : Pool} (h : x.owner = n → x.reinit = true) :
    (s.setPool x).poolsReinit n := by
  intro p mem owner
  obtain ⟨q, old, rfl⟩ := List.mem_map.1 mem
  by_cases own : q.id = x.id
  · simp only [own, decide_true, if_true] at owner ⊢
    exact h owner
  · simp only [own, decide_false, Bool.false_eq_true, if_false] at owner ⊢
    exact on q old owner

theorem poolsReinit_found {s : State} {n k : Nat} (on : s.poolsReinit n) {p : Pool} (h : s.pool k = some p) :
    p.owner = n → p.reinit = true := on p (List.mem_of_find?_eq_some h)

theorem flush_poolsReinit {s : State} {n k : Nat} (on : s.poolsReinit n) {p : Pool} (h : s.pool k = some p) :
    (s.flush p).poolsReinit n := by
  unfold State.flush
  dsimp only
  have mine := poolsReinit_found on h
  refine poolsReinit_setPool (poolsReinit_congr ?_ on) mine
  exact (putEntries_keeps (.refl s) _ _ _ (Within.mem _)).pools_eq (by decide)

theorem release_poolsReinit {s : State} {n : Nat} (on : s.poolsReinit n) (h : Handle) (fn : Nat) : (s.release h fn).poolsReinit n := by
  have discards (st : W16) : (s.discardRelease st fn).poolsReinit n :=
    poolsReinit_congr ((discardRelease_keeps (.refl s) st fn (Within.mem _)).pools_eq (by decide)) on
  unfold State.release
  split
  · exact discards _
  · next p found =>
    split
    · exact discards _
    · split
      · exact discards _
      · dsimp only
        have flushed : (if (64 ≤ p.cache.length && s.ringReach p) = true then s.flush p else s).poolsReinit n := by
          split
          · exact flush_poolsReinit on found
          · exact on
        generalize @ite State (_ = true) (instDecidableEqBool _ true) (s.flush p) s = t at *
        split
        · next q again =>
          have mine := poolsReinit_found flushed again
          refine poolsReinit_congr ?_ (poolsReinit_setPool (x := { q with cache := q.cache ++ [h] }) flushed mine)
          exact (addTo_keeps (cs := fun c => c ∈ [Comp.reg .CISTERN_CNT_FREE]) (.refl _) .CISTERN_CNT_FREE 0 1 (.inr (by decide))).pools_eq
            (by decide)
        · exact flushed

theorem reapList_poolsReinit {s : State} {n : Nat} (on : s.poolsReinit n) (fs : List Frame) : (s.reapList fs).poolsReinit n := by
  induction fs generalizing s with
  | nil => exact on
  | cons f fs ih =>
    unfold State.reapList
    split
    · exact ih on
    · refine ih (release_poolsReinit ?_ _ _)
      exact poolsReinit_congr (s := s) rfl on

theorem settle_poolsReinit {s : State} {n : Nat} (on : s.poolsReinit n) : s.settle.poolsReinit n := by
  unfold State.settle
  refine poolsReinit_congr ((refresh_keeps (.refl _) (Within.mem _)).pools_eq (by decide)) ?_
  refine reapList_poolsReinit ?_ _
  exact poolsReinit_congr (s := s) rfl on

theorem reinitPools_poolsReinit (s : State) (n : Nat) : (s.reinitPools n).poolsReinit n := by
  intro p mem owner
  obtain ⟨q, -, rfl⟩ := List.mem_map.1 mem
  by_cases own : q.owner = n
  · simp [own]
  · simp [own] at owner

/-! ## Silencing -/

/-- A function's commands are discarded, before its rills go (R305). -/
def State.ctxsSilent (s : State) (n : Nat) : State :=
  ((((s.discardCtxs (s.ctxsOf n)).discardPxes ((s.ctxsOf n).map (·.id)) s.trk.pxes).dropCrops ((s.ctxsOf n).map (·.id))
    s.trk.crops).dropFlows n ((s.ctxsOf n).map (·.id)))

theorem ctxsSilent_rill (s : State) (n r : Nat) : (s.ctxsSilent n).rill r = s.rill r := by
  have k : Keeps (fun c => c ∈ discardCtxChanges ++ discardPxesChanges ++ dropCropsChanges ++ dropFlowsChanges) s (s.ctxsSilent n) := by
    refine dropFlows_keeps (dropCrops_keeps (discardPxes_keeps (discardCtxs_keeps (.refl s) _ ?_) _ _ ?_) _ _ ?_) _ _ ?_ <;>
      (unfold Within; decide +kernel)
  exact rill_congr (k.ing.rills.resolve_left (by decide +kernel)) r

/-- A function's rills, tracks and frames are gone, before its pools are reinitialised. -/
def State.rillsSilent (s : State) (n : Nat) : State :=
  let t := ((s.ctxsSilent n).dropRills (s.rillsOf n)).dropTracks (s.rillsOf n)
  t.dropFrames (t.ing.frames.filter (fun f => (s.rillsOf n).contains f.rill))

theorem rillsSilent_detached {s : State} {n r : Nat} (h : (s.rill r).fn = n) : ((s.rillsSilent n).rill r).st = .detached := by
  have kept : (s.rillsSilent n).rill r = ((s.ctxsSilent n).dropRills (s.rillsOf n)).rill r := by
    unfold State.rillsSilent
    dsimp only
    generalize (s.ctxsSilent n).dropRills (s.rillsOf n) = t
    have tracks := (dropTracks_keeps (.refl t) (s.rillsOf n) (Within.mem _)).ing.rills.resolve_left (by decide)
    have frames := fun fs => (dropFrames_keeps (.refl (t.dropTracks (s.rillsOf n))) fs (Within.mem _)).ing.rills.resolve_left (by decide)
    exact rill_congr ((frames _).trans tracks) r
  rw [kept, dropRills_st, ctxsSilent_rill]
  by_cases live : (s.rill r).st = .detached
  · rw [live, ite_self]
  · rw [if_pos (h ▸ rillsOf_of_live live)]

theorem silence_eq (s : State) (n : Nat) : s.silence n =
    (((s.rillsSilent n).reinitPools n).setFn n { (s.rillsSilent n).fn n with flr := .silenced }).settle.schedule := rfl

theorem silence_spec (s : State) (n : Nat) : ((s.silence n).fn n).flr = .silenced ∧
    (∀ r, (s.rill r).fn = n → ((s.silence n).rill r).st = .detached) ∧ (s.silence n).poolsReinit n := by
  rw [silence_eq]
  have detached := fun r => rillsSilent_detached (s := s) (n := n) (r := r)
  generalize s.rillsSilent n = t at *
  have flr : (((t.reinitPools n).setFn n { t.fn n with flr := .silenced }).fn n).flr = .silenced := by rw [fn_setFn_self]
  have pools : ((t.reinitPools n).setFn n { t.fn n with flr := .silenced }).poolsReinit n :=
    poolsReinit_congr (s := t.reinitPools n) (by simp [State.setFn]) (reinitPools_poolsReinit t n)
  have rills : ((t.reinitPools n).setFn n { t.fn n with flr := .silenced }).ing.rills = t.ing.rills := rfl
  generalize (t.reinitPools n).setFn n { t.fn n with flr := .silenced } = v at *
  have settled := settle_keeps (.refl v) (Within.mem _)
  have scheduled := schedule_keeps (.refl v.settle) (Within.mem _)
  refine ⟨?_, fun r own => ?_, ?_⟩
  · rw [fn_congr (scheduled.fns_eq (by decide)), fn_congr (settled.fns_eq (by decide)), flr]
  · rw [rill_congr ((scheduled.ing.rills.resolve_left (by decide)).trans ((settled.ing.rills.resolve_left (by decide)).trans rills))]
    exact detached r own
  · exact poolsReinit_congr (scheduled.pools_eq (by decide)) (settle_poolsReinit pools)

/-! ## Sources other than the log's -/

/-- The pending and delivered bits and the conditions are those of `s`, but for source 6, the device error log's (R428). -/
def OtherSources (s t : State) : Prop :=
  ∀ j, j ≠ 6 → t.icu.pend.getLsbD j = s.icu.pend.getLsbD j ∧ t.icu.delivered.getLsbD j = s.icu.delivered.getLsbD j ∧
    t.icu.cond.getLsbD j = s.icu.cond.getLsbD j

theorem OtherSources.of_icu {s t : State} (h : t.icu = s.icu) : OtherSources s t := by
  unfold OtherSources
  rw [h]
  exact fun _ _ => ⟨rfl, rfl, rfl⟩

theorem OtherSources.trans {s t v : State} (h : OtherSources s t) (g : OtherSources t v) : OtherSources s v :=
  fun j ne => ⟨(g j ne).1.trans (h j ne).1, (g j ne).2.1.trans (h j ne).2.1, (g j ne).2.2.trans (h j ne).2.2⟩

theorem otherSources_edge (s : State) (v : Bool) : OtherSources s (s.edge 6 v) := by
  intro j ne
  have other (w : BitVec 512) (b : Bool) : (putBit w 6 b).getLsbD j = w.getLsbD j := by
    rw [putBit_get, if_neg fun h => ne h.1]
  rw [edge_icu]
  unfold State.edgeCore
  split
  · exact ⟨rfl, rfl, rfl⟩
  · split
    · exact ⟨rfl, rfl, other _ _⟩
    · dsimp only
      refine ⟨?_, ?_, other _ _⟩
      · split
        · exact other _ _
        · rfl
      · split
        · exact other _ _
        · rfl

theorem otherSources_elog (s : State) (st : W16) (k i c f : Nat) (d : W64) : OtherSources s (s.elog st k i c f d) := by
  unfold State.elog
  dsimp only
  have raised (l : List ElogEntry) (n : Nat) : OtherSources s (State.raise { s with icu := { s.icu with log := l, logHead := n } } 6) := by
    unfold State.raise
    have start : OtherSources s { s with icu := { s.icu with log := l, logHead := n } } := fun _ _ => ⟨rfl, rfl, rfl⟩
    exact start.trans ((otherSources_edge _ _).trans (otherSources_edge _ _))
  split
  · split
    · exact fun _ _ => ⟨rfl, rfl, rfl⟩
    · exact raised _ _
  · exact raised _ _

theorem otherSources_dmcLog (s : State) (l : BlockLoc) (kind port : Nat) : OtherSources s (s.dmcLog l kind port) := by
  unfold State.dmcLog
  dsimp only
  refine OtherSources.trans ?_ (otherSources_elog _ _ _ _ _ _ _)
  exact .of_icu rfl

theorem otherSources_mergeRead (s : State) (port b : Nat) : OtherSources s (s.mergeRead port b) :=
  .of_icu ((mergeRead_keeps (.refl s) port b (Within.mem _)).icu_eq (by decide))

theorem otherSources_putBlock (s : State) (port a : Nat) (data : List Byte) : OtherSources s (s.putBlock port a data) := by
  have count (t : State) (b : Nat) : OtherSources t (t.countWrite b) :=
    .of_icu ((countWrite_keeps (.refl t) b (Within.mem _)).icu_eq (by decide))
  unfold State.putBlock
  split
  · exact .of_icu rfl
  · split
    · refine OtherSources.trans ?_ (count _ _)
      exact .of_icu rfl
    · dsimp only
      split
      · exact (otherSources_mergeRead s _ _).trans (otherSources_dmcLog _ _ _ _)
      · refine (otherSources_mergeRead s port (a / 64)).trans (OtherSources.trans (OtherSources.of_icu ?_) (count _ _))
        rfl

theorem otherSources_putPieces (s : State) (port : Nat) (ps : List (Nat × List Byte)) : OtherSources s (s.putPieces port ps) := by
  induction ps generalizing s with
  | nil => exact .of_icu rfl
  | cons p ps ih => exact (otherSources_putBlock s _ _ _).trans (ih _)

theorem otherSources_memPut (s : State) (port a : Nat) (data : List Byte) : OtherSources s (s.memPut port a data) := by
  unfold State.memPut
  split
  · exact otherSources_putPieces _ _ _
  · exact .of_icu rfl
  · exact .of_icu rfl

theorem otherSources_freeTracks (s : State) (r : Nat) : OtherSources s (s.freeTracks r) := by
  have put (t : State) (i : Nat) (bs : List Byte) : OtherSources t (t.cachePut i bs) := by
    unfold State.cachePut
    dsimp only
    split
    · refine OtherSources.trans ?_ (otherSources_memPut _ _ _ _)
      exact .of_icu rfl
    · exact .of_icu rfl
  have records : ∀ (ks : List TrackRef) (t : State), OtherSources t (t.freeRecords ks) := by
    intro ks
    induction ks with
    | nil => exact fun _ => .of_icu rfl
    | cons k ks ih => exact fun t => (put t _ _).trans (ih _)
  exact (records _ s).trans (.of_icu rfl)

theorem otherSources_dropTracks (s : State) (rs : List Nat) : OtherSources s (s.dropTracks rs) := by
  induction rs generalizing s with
  | nil => exact .of_icu rfl
  | cons r rs ih =>
    unfold State.dropTracks
    refine OtherSources.trans ?_ (ih _)
    split
    · exact .of_icu rfl
    · exact otherSources_freeTracks s r

/-! ## The end: sources -/

theorem clearSources_regs (s : State) (n : Nat) (is : List Nat) : (s.clearSources n is).regs = s.regs := by
  induction is generalizing s with
  | nil => rfl
  | cons i is ih =>
    unfold State.clearSources
    rw [ih]
    split
    · rfl
    · split <;> rfl

/-- The pending state of a function's sources is cleared (R413). -/
theorem clearSources_spec (s : State) (n : Nat) (is : List Nat) {j : Nat} (hj : j < 512) :
    (s.clearSources n is).icu.pend.getLsbD j =
      (if j ∈ is ∧ s.srcFn j = n ∧ s.srcMode j ≠ 0 then false else s.icu.pend.getLsbD j) ∧
    (s.clearSources n is).icu.delivered.getLsbD j =
      (if j ∈ is ∧ s.srcFn j = n ∧ s.srcMode j = 0 then true else s.icu.delivered.getLsbD j) := by
  induction is generalizing s with
  | nil => exact ⟨by simp [State.clearSources], by simp [State.clearSources]⟩
  | cons i is ih =>
    unfold State.clearSources
    by_cases fn : s.srcFn i = n
    · rw [if_neg (not_not_intro fn)]
      by_cases level : s.srcMode i = 0
      · rw [if_pos level]
        obtain ⟨p, d⟩ := ih { s with icu := { s.icu with delivered := putBit s.icu.delivered i true } }
        rw [p, d]
        change (if j ∈ is ∧ s.srcFn j = n ∧ s.srcMode j ≠ 0 then false else s.icu.pend.getLsbD j) = _ ∧
          (if j ∈ is ∧ s.srcFn j = n ∧ s.srcMode j = 0 then true else (putBit s.icu.delivered i true).getLsbD j) = _
        rw [putBit_get]
        by_cases own : j = i
        · subst own
          simp [fn, level, hj]
        · simp [own]
      · rw [if_neg level]
        obtain ⟨p, d⟩ := ih { s with icu := { s.icu with pend := putBit s.icu.pend i false } }
        rw [p, d]
        change (if j ∈ is ∧ s.srcFn j = n ∧ s.srcMode j ≠ 0 then false else (putBit s.icu.pend i false).getLsbD j) = _ ∧
          (if j ∈ is ∧ s.srcFn j = n ∧ s.srcMode j = 0 then true else s.icu.delivered.getLsbD j) = _
        rw [putBit_get]
        by_cases own : j = i
        · subst own
          simp [fn, level, hj]
        · simp [own]
    · rw [if_pos fn]
      obtain ⟨p, d⟩ := ih s
      rw [p, d]
      by_cases own : j = i
      · subst own
        simp [fn]
      · simp [own]

/-! ## The end: tracks and the ring -/

theorem rillTrk_congr {s t : State} (h : t.trk.perRill = s.trk.perRill) (r : Nat) : t.rillTrk r = s.rillTrk r := by
  unfold State.rillTrk
  rw [h]

theorem freeTracks_tracks (s : State) (r : Nat) : (s.freeTracks r).trk.tracks = s.trk.tracks.filter (fun t => t.rill != r) := by
  have k := freeRecords_keeps (.refl s) (s.rillTracks r) (Within.mem _)
  have same := k.trk.tracks.resolve_left (by decide)
  change (s.freeRecords (s.rillTracks r)).trk.tracks.filter _ = _
  rw [same]

theorem dropTracks_tracks {s : State} {rs : List Nat} (still : ∀ r ∈ rs, (s.rillTrk r).running.isSome = false) {x : TrackRef}
    (h : x ∈ (s.dropTracks rs).trk.tracks) : x ∈ s.trk.tracks ∧ x.rill ∉ rs := by
  induction rs generalizing s with
  | nil => exact ⟨h, by simp⟩
  | cons r rs ih =>
    unfold State.dropTracks at h
    rw [if_neg (by simp [still r (by simp)])] at h
    have perRill := (freeTracks_keeps (.refl s) r (Within.mem _)).trk.perRill.resolve_left (by decide)
    obtain ⟨old, out⟩ := ih (s := s.freeTracks r) (fun q mem => by rw [rillTrk_congr perRill]; exact still q (by simp [mem])) h
    rw [freeTracks_tracks, List.mem_filter] at old
    refine ⟨old.1, ?_⟩
    rw [List.mem_cons]
    rintro (own | mem)
    · simpa [own] using old.2
    · exact out mem

theorem still_of_trackBusy {s : State} {n : Nat} (h : s.trackBusy n = false) {r : Nat} (own : (s.rill r).fn = n) :
    (s.rillTrk r).running.isSome = false := by
  by_contra runs
  simp only [Bool.not_eq_false] at runs
  have listed : (r, s.rillTrk r) ∈ s.trk.perRill := by
    refine SMap.mem_of_get fun default => ?_
    rw [show s.rillTrk r = RillTrk.reset from default] at runs
    cases runs
  have busy : s.trackBusy n = true := by
    unfold State.trackBusy
    rw [List.any_eq_true]
    exact ⟨_, listed, by simp [runs, own]⟩
  rw [busy] at h
  cases h

theorem mem_tracksOf {s : State} {n : Nat} {x : TrackRef} (h : x ∈ s.trk.tracks) (own : (s.rill x.rill).fn = n) :
    x.rill ∈ s.tracksOf n := by
  unfold State.tracksOf
  exact List.mem_map.2 ⟨x, List.mem_filter.2 ⟨h, by simpa using own⟩, rfl⟩

/-! ## The end -/

theorem regOk_trkRing {n : Nat} (h : n < 32) : regOk .TRK_RING_CTRL n 0 = true ∧ regOk .TRK_RING_LOST n 0 = true := by
  have all : ∀ n < 32, regOk .TRK_RING_CTRL n 0 = true ∧ regOk .TRK_RING_LOST n 0 = true := by decide +kernel
  exact all n h

/-- The ring of a function is at reset (R280). -/
theorem resetRing_spec (s : State) (n : Nat) : (s.resetRing n).ring n = Ring.reset ∧ (s.resetRing n).trk.tracks = s.trk.tracks ∧
    (n < 32 → (s.resetRing n).reg .TRK_RING_CTRL n 0 = regDefault (regOff .TRK_RING_CTRL n 0)) := by
  have k := resetRing_keeps (.refl s) n (Within.mem _)
  refine ⟨ring_setRing_self _ _ _, k.trk.tracks.resolve_left (by decide), fun small => ?_⟩
  obtain ⟨ctrl, -⟩ := regOk_trkRing small
  generalize made : (s.resetReg .TRK_RING_ADDR n 0).resetReg .TRK_RING_ENTRIES n 0 = v
  have chain : (s.resetRing n).reg .TRK_RING_CTRL n 0 =
      ((v.resetReg .TRK_RING_CTRL n 0).resetReg .TRK_RING_LOST n 0).reg .TRK_RING_CTRL n 0 := by
    rw [← made]
    exact reg_congr rfl _ _ _
  rw [chain]
  unfold State.resetReg
  rw [reg_setReg_other _ _ ctrl (.inl (by decide)), reg_setReg_self _ _ ctrl]

/-- What the end of an FLR gives the tracks, the ring and the sources of a function. -/
def State.fnCleared (s : State) (n : Nat) : State :=
  (((s.dropFlows n ((s.ctxsOf n).map (·.id))).dropTracks (s.tracksOf n)).resetRing n).clearSources n (List.range 512)

/-- The vectors of the PF's sources too, where it is the PF (R401). -/
def State.vecsCleared (s : State) (n : Nat) : State :=
  if n = 0 then (s.fnCleared n).resetVecs (List.range 512) else s.fnCleared n

theorem flrEnd_eq (s : State) (n : Nat) : s.flrEnd n =
    ((s.vecsCleared n).setFn n { (s.vecsCleared n).fn n with msix := [], pba := [], flr := .idle }).count .HEP_CNT_FLR 0 := rfl

def fnClearedChanges : List Comp := dropFlowsChanges ++ freeTracksChanges ++ resetRingChanges ++ clearSourcesChanges

theorem fnCleared_keeps (s : State) (n : Nat) : Keeps (fun c => c ∈ fnClearedChanges) s (s.fnCleared n) := by
  refine clearSources_keeps (resetRing_keeps (dropTracks_keeps (dropFlows_keeps (.refl s) _ _ ?_) _ ?_) _ ?_) _ _ ?_ <;>
    (unfold Within; decide)

theorem vecsCleared_keeps (s : State) (n : Nat) : Keeps (fun c => c ∈ resetVecsChanges) (s.fnCleared n) (s.vecsCleared n) := by
  unfold State.vecsCleared
  split
  · exact resetVecs_keeps (.refl _) _ (Within.mem _)
  · exact .refl _

theorem regOk_srcVec {i : Nat} (h : i < 512) : regOk .HEP_SRC_VEC 0 i = true := by
  have all : ∀ i < 512, regOk .HEP_SRC_VEC 0 i = true := by decide +kernel
  exact all i h

theorem ring_congr {s t : State} (h : t.trk.rings = s.trk.rings) (n : Nat) : t.ring n = s.ring n := by
  unfold State.ring
  rw [h]

theorem fnCleared_icu (s : State) (n : Nat) {j : Nat} (hj : j < 512) :
    (s.srcFn j = n → s.srcMode j ≠ 0 → (s.fnCleared n).icu.pend.getLsbD j = false) ∧
    (s.srcFn j = n → s.srcMode j = 0 → (s.fnCleared n).icu.delivered.getLsbD j = true) ∧
    (j ≠ 6 → (s.srcFn j ≠ n ∨ s.srcMode j = 0 → (s.fnCleared n).icu.pend.getLsbD j = s.icu.pend.getLsbD j) ∧
      (s.srcFn j ≠ n ∨ s.srcMode j ≠ 0 → (s.fnCleared n).icu.delivered.getLsbD j = s.icu.delivered.getLsbD j)) := by
  unfold State.fnCleared
  have others : OtherSources s ((s.dropFlows n ((s.ctxsOf n).map (·.id))).dropTracks (s.tracksOf n)) :=
    OtherSources.trans (.of_icu rfl) (otherSources_dropTracks _ _)
  have k : Keeps (fun c => c ∈ dropFlowsChanges ++ freeTracksChanges ++ resetRingChanges) s
      (((s.dropFlows n ((s.ctxsOf n).map (·.id))).dropTracks (s.tracksOf n)).resetRing n) := by
    refine resetRing_keeps (dropTracks_keeps (dropFlows_keeps (.refl s) _ _ ?_) _ ?_) _ ?_ <;> (unfold Within; decide)
  have ring := (resetRing_keeps (.refl ((s.dropFlows n ((s.ctxsOf n).map (·.id))).dropTracks (s.tracksOf n))) n
    (Within.mem _)).icu_eq (by decide)
  generalize (s.dropFlows n ((s.ctxsOf n).map (·.id))).dropTracks (s.tracksOf n) = v at *
  have fn : (v.resetRing n).srcFn j = s.srcFn j := by
    unfold State.srcFn State.regNat
    rw [k.reg_eq (by decide) (by decide) (regOk_srcVec hj)]
  have mode : (v.resetRing n).srcMode j = s.srcMode j := srcMode_congr (k.reg_eq (by decide) (by decide) (regOk_src hj))
  obtain ⟨pend, delivered⟩ := clearSources_spec (v.resetRing n) n (List.range 512) hj
  rw [fn, mode, ring] at pend delivered
  have listed : j ∈ List.range 512 := List.mem_range.2 hj
  refine ⟨fun own edge => ?_, fun own level => ?_, fun ne => ⟨fun out => ?_, fun out => ?_⟩⟩
  · rw [pend, if_pos ⟨listed, own, edge⟩]
  · rw [delivered, if_pos ⟨listed, own, level⟩]
  · rw [pend, if_neg fun h => out.elim (fun f => f h.2.1) (fun f => h.2.2 f), (others j ne).1]
  · rw [delivered, if_neg fun h => out.elim (fun f => f h.2.1) (fun f => f h.2.2), (others j ne).2.1]

theorem fnCleared_trk {s : State} {n : Nat} (still : s.trackBusy n = false) : (s.fnCleared n).ring n = Ring.reset ∧
    (n < 32 → (s.fnCleared n).reg .TRK_RING_CTRL n 0 = regDefault (regOff .TRK_RING_CTRL n 0)) ∧
    ∀ x ∈ (s.fnCleared n).trk.tracks, (s.rill x.rill).fn ≠ n := by
  unfold State.fnCleared
  have tracks {x : TrackRef} (h : x ∈ ((s.dropFlows n ((s.ctxsOf n).map (·.id))).dropTracks (s.tracksOf n)).trk.tracks) :
      x ∈ s.trk.tracks ∧ x.rill ∉ s.tracksOf n := by
    refine dropTracks_tracks (s := s.dropFlows n ((s.ctxsOf n).map (·.id))) (fun r mem => ?_) h
    obtain ⟨x, listed, rfl⟩ := List.mem_map.1 mem
    have own : (s.rill x.rill).fn = n := by simpa using (List.mem_filter.1 listed).2
    exact (congrArg (fun x => x.running.isSome) (rillTrk_congr rfl _)).trans (still_of_trackBusy still own)
  generalize (s.dropFlows n ((s.ctxsOf n).map (·.id))).dropTracks (s.tracksOf n) = v at *
  obtain ⟨ring, same, ctrl⟩ := resetRing_spec v n
  have k := clearSources_keeps (.refl (v.resetRing n)) n (List.range 512) (Within.mem _)
  refine ⟨?_, fun small => ?_, fun x mem own => ?_⟩
  · rw [ring_congr (congrArg TrackEng.rings (k.trk_eq (by decide))), ring]
  · rw [reg_congr (clearSources_regs _ _ _), ctrl small]
  · rw [k.trk_eq (by decide), same] at mem
    obtain ⟨old, out⟩ := tracks mem
    exact out (mem_tracksOf old own)

theorem flrEnd_spec {s : State} {n : Nat} (still : s.trackBusy n = false) :
    (s.flrEnd n).fn n = { s.fn n with msix := [], pba := [], flr := .idle } ∧ (∀ m, m ≠ n → (s.flrEnd n).fn m = s.fn m) ∧
    (s.flrEnd n).reg .HEP_CNT_FLR 0 0 = counted (s.reg .HEP_CNT_FLR 0 0) ∧ (s.flrEnd n).ring n = Ring.reset ∧
    (n < 32 → (s.flrEnd n).reg .TRK_RING_CTRL n 0 = State.reset.reg .TRK_RING_CTRL n 0) ∧
    (s.flrEnd n).icu = (s.fnCleared n).icu ∧ ∀ x ∈ (s.flrEnd n).trk.tracks, (s.rill x.rill).fn ≠ n := by
  have count : regOk .HEP_CNT_FLR 0 0 = true := by decide +kernel
  have k0 := fnCleared_keeps s n
  obtain ⟨ring, ctrl, tracks⟩ := fnCleared_trk still
  have k1 := vecsCleared_keeps s n
  have fns := (k1.fns_eq (by decide)).trans (k0.fns_eq (by decide))
  have trk := k1.trk_eq (by decide)
  rw [flrEnd_eq]
  have cleared : (s.vecsCleared n).reg .HEP_CNT_FLR 0 0 = s.reg .HEP_CNT_FLR 0 0 :=
    (k1.reg_eq (by decide) (by decide) count).trans (k0.reg_eq (by decide) (by decide) count)
  have ringCtrl : n < 32 → (s.vecsCleared n).reg .TRK_RING_CTRL n 0 = regDefault (regOff .TRK_RING_CTRL n 0) := fun small =>
    (k1.reg_eq (by decide) (by decide) (regOk_trkRing small).1).trans (ctrl small)
  have icu := k1.icu_eq (by decide)
  generalize s.vecsCleared n = v at *
  have fnIs : v.fn n = s.fn n := fn_congr fns n
  have ended (m : Nat) : (v.setFn n { v.fn n with msix := [], pba := [], flr := .idle }).fn m =
      if m = n then { s.fn n with msix := [], pba := [], flr := .idle } else s.fn m := by
    rw [fn_setFn, fnIs, fn_congr fns]
  obtain ⟨regs', trk', icu'⟩ : (v.setFn n { v.fn n with msix := [], pba := [], flr := .idle }).regs = v.regs ∧
      (v.setFn n { v.fn n with msix := [], pba := [], flr := .idle }).trk = v.trk ∧
      (v.setFn n { v.fn n with msix := [], pba := [], flr := .idle }).icu = v.icu := ⟨rfl, rfl, rfl⟩
  generalize v.setFn n { v.fn n with msix := [], pba := [], flr := .idle } = w at *
  have counts := count_keeps (cs := fun c => c ∈ [Comp.reg .HEP_CNT_FLR]) (.refl w) .HEP_CNT_FLR 0 (.inr (by decide))
  have trkEnd := (counts.trk_eq (by decide)).trans (trk'.trans trk)
  refine ⟨?_, fun m ne => ?_, ?_, ?_, fun small => ?_, ?_, fun x mem => tracks x ?_⟩
  · rw [fn_congr (counts.fns_eq (by decide)), ended, if_pos rfl]
  · rw [fn_congr (counts.fns_eq (by decide)), ended, if_neg ne]
  · rw [count_reg _ _ _ count, reg_congr regs', cleared]
    rfl
  · exact (ring_congr (congrArg TrackEng.rings trkEnd) n).trans ring
  · rw [counts.reg_eq (by decide) (by decide) (regOk_trkRing small).1, reg_congr regs', ringCtrl small]
    rfl
  · exact (counts.icu_eq (by decide)).trans (icu'.trans icu)
  · rw [← trkEnd]
    exact mem

/-- Settles O27: the start of an FLR is `flrInitiate_spec`, its silencing `silence_spec`, its end `flrEnd_spec`, and VF
Enable `vfsOn_spec` and `disableVfs_fn`. -/
theorem functionLevelResetsAndVfs : Obligations.FunctionLevelResetsAndVfs := by
  refine ⟨⟨fun n s => ?_, fun n s => ?_, fun n s => ?_⟩, fun s => ?_, fun s => ?_, fun n s => ?_⟩
  · refine completes_of rfl (execFlrInitiate_keeps (.refl s) n (Within.mem _)) (by decide) ?_
    by_cases begins : s.glbUp = true ∧ s.fnEnabled n = true ∧ (s.fn n).flr = .idle ∧ (s.fn 0).flr = .idle
    · rw [if_pos begins, when_eq s begins.1]
      obtain ⟨-, on, idle, pf⟩ := begins
      exact flrInitiate_spec on idle pf
    · rw [if_neg begins]
      by_cases up : s.glbUp = true
      · rw [when_eq s up]
        exact flrInitiate_idle fun h => begins ⟨up, h⟩
      · exact when_neg s up _
  · exact completes_if (by simp) rfl (execDmaSilenced_keeps (.refl s) n (Within.mem _)) (by decide +kernel) fun _ => silence_spec s n
  · refine completes_if (by simp) rfl (execFlrComplete_keeps (.refl s) n (Within.mem _)) (by decide +kernel) fun ends => ?_
    have still : s.trackBusy n = false := by
      have can := ends.2
      simp only [State.flrCanEnd, Bool.and_eq_true, Bool.not_eq_true'] at can
      obtain ⟨⟨⟨-, -⟩, still⟩, -⟩ := can
      exact still
    obtain ⟨own, others, count, ring, ctrl, icu, tracks⟩ := flrEnd_spec still
    refine ⟨own, others, count, ring, ctrl, fun i hi => ?_, tracks⟩
    rw [icu]
    exact fnCleared_icu s n hi
  · exact completes_if (by simp) rfl (execVfEnableSet_keeps (.refl s) (Within.mem _)) (by decide) fun _ => vfsOn_spec s
  · refine completes_if (by simp) rfl (execVfEnableClear_keeps (.refl s) (Within.mem _)) (by decide) fun _ => ?_
    obtain ⟨off, pf, others⟩ := disableVfs_fn s
    refine ⟨off, fun n pos => ?_, fun n pos absent => ?_, pf⟩
    · rw [others n pos]
      by_cases begins : s.fnEnabled n = true ∧ (s.fn n).flr = .idle
      · rw [if_pos begins, if_pos begins]
        rfl
      · rw [if_neg begins, if_neg begins]
    · rw [others n pos, if_neg (by simp [absent])]
  · refine completes_if (by simp [and_assoc]) rfl (execD3hotEntry_keeps (.refl s) n (Within.mem _)) (by decide) fun enters => ?_
    obtain ⟨-, on, -⟩ := enters
    refine ⟨enterD3_d3hot s n, fun idle pf => ?_, fun ne m other => ?_⟩
    · rw [enterD3_fn, if_pos rfl]
      exact (flrInitiate_spec on idle pf).1
    · rw [enterD3_fn, if_neg other]
      by_cases begins : s.fnEnabled n = true ∧ (s.fn n).flr = .idle ∧ (s.fn 0).flr = .idle
      · exact ((flrInitiate_spec begins.1 begins.2.1 begins.2.2).2.2.2.2.1 ne).2 m other
      · rw [flrInitiate_idle begins]

end Sys2Proof.Machine
end

section
/-! SUPPORT. The mailbox (R448 to R451). -/

set_option Elab.async false

namespace Sys2Proof.Machine

variable {cs : Comp → Prop} {u : State}

/-! ## Conditions of sources that reads leave -/

/-- Source `i` keeps its condition. -/
def CondKept (i : Nat) (s t : State) : Prop := t.icu.cond.getLsbD i = s.icu.cond.getLsbD i

theorem CondKept.trans {i : Nat} {s t v : State} (h : CondKept i s t) (g : CondKept i t v) : CondKept i s v := Eq.trans g h

theorem CondKept.of_icu {i : Nat} {s t : State} (h : t.icu = s.icu) : CondKept i s t := by
  unfold CondKept
  rw [h]

section

variable {i : Nat} (log : i ≠ 6) (advice : ∀ d, i ≠ 13 + 2 * d)

include log in
theorem elog_condKept (s : State) (st : W16) (k j c f : Nat) (d : W64) : CondKept i s (s.elog st k j c f d) :=
  elog_cond_other s st k j c f d log

include log in
theorem dmcLog_condKept (s : State) (l : BlockLoc) (kind port : Nat) : CondKept i s (s.dmcLog l kind port) :=
  (otherSources_dmcLog s l kind port i log).2.2

include log advice

/-- A source that neither the log nor a controller's advice raises keeps its condition. -/
theorem adviseGroup_condKept (s : State) (l : BlockLoc) : CondKept i s (s.adviseGroup l) := by
  have updated (t : State) (r : Reg) (k j : Nat) (f : W64 → W64) : CondKept i t (t.updReg r k j f) := .of_icu (by simp)
  unfold State.adviseGroup State.adviseChan
  dsimp only
  split
  · have raised (t : State) : CondKept i t (t.raise (13 + 2 * l.dmc)) := raise_cond_other _ _ (advice _)
    have advised (t : State) : CondKept i t (t.advise 0) := by
      unfold State.advise
      split
      · rfl
      · exact (updated _ _ _ _ _).trans (raise_cond_other _ _ log)
    exact ((updated _ _ _ _ _).trans (raised _)).trans (advised _)
  · rfl

theorem visitBlocks_condKept (s : State) (port b n : Nat) : CondKept i s (s.visitBlocks port b n) := by
  induction n generalizing s b with
  | zero => rfl
  | succ n ih =>
    unfold State.visitBlocks
    refine CondKept.trans ?_ (ih _ _)
    have used : CondKept i s (s.useFind port b) := .of_icu rfl
    have counted (t : State) (r : Reg) (k m : Nat) : CondKept i t (t.addTo r k m) :=
      .of_icu (by simp)
    have told (t : State) : CondKept i t (t.poisonSeen port b) := by
      unfold State.poisonSeen
      dsimp only
      have err : CondKept i t (t.chErr (t.blockLoc b) 48 16) :=
        .of_icu ((chErr_keeps (.refl t) _ _ _ (Within.mem _)).icu_eq (by decide))
      exact err.trans ((dmcLog_condKept log _ _ _ _).trans (adviseGroup_condKept log advice _ _))
    unfold State.visitBlock
    split
    · exact used
    · dsimp only
      split
      · exact (counted _ _ _ _).trans (told _)
      · exact counted _ _ _ _

theorem visit_condKept (s : State) (port a n : Nat) : CondKept i s (s.visit port a n) := by
  unfold State.visit
  split
  · exact visitBlocks_condKept log advice _ _ _ _
  · rfl

end

/-! ## The end of a command -/

theorem regOk_mbox : regOk .SAGE_MBOX_STATUS 0 0 = true ∧ regOk .SAGE_CNT_INHIBIT 0 0 = true ∧ regOk .SAGE_SUPPLY 0 0 = true := by
  decide +kernel

/-- Nothing that a command's end depends on has changed: the device, Sage, and source 10. -/
structure MboxKept (s v : State) : Prop where
  dev : v.dev = s.dev
  sage : v.sage = s.sage
  mode : v.srcMode 10 = s.srcMode 10
  cond : CondKept 10 s v

theorem MboxKept.refl (s : State) : MboxKept s s := ⟨rfl, rfl, rfl, rfl⟩

theorem MboxKept.trans {s v w : State} (h : MboxKept s v) (g : MboxKept v w) : MboxKept s w :=
  ⟨g.dev.trans h.dev, g.sage.trans h.sage, g.mode.trans h.mode, h.cond.trans g.cond⟩

theorem MboxKept.of_keeps {cs : List Comp} {s v : State} (k : Keeps (fun c => c ∈ cs) s v) (cond : CondKept 10 s v)
    (dev : ∀ c ∈ Comp.allDev, c ∉ cs := by decide) (sage : ∀ c ∈ Comp.allSage, c ∉ cs := by decide)
    (all : .regs ∉ cs := by decide) (src : .reg .ICU_SRC_CFG ∉ cs := by decide) : MboxKept s v :=
  ⟨k.dev_eq dev, k.sage_eq sage, srcMode_congr (k.reg_eq all src (regOk_src (by decide))), cond⟩

theorem visit_mboxKept (s : State) (port a n : Nat) : MboxKept s (s.visit port a n) :=
  .of_keeps (visit_keeps (.refl s) port a n (Within.mem _)) (visit_condKept (by decide) (by omega) s port a n)

theorem elog_mboxKept (s : State) (st : W16) (k j c f : Nat) (d : W64) : MboxKept s (s.elog st k j c f d) :=
  .of_keeps (elog_keeps (.refl s) st k j c f d (Within.mem _)) (elog_condKept (by decide) s st k j c f d)

theorem sageLog_mboxKept (s : State) (st : W16) : MboxKept s (s.sageLog st) := by
  unfold State.sageLog
  split
  · exact elog_mboxKept _ _ _ _ _ _ _
  · exact .refl s

theorem setReg_mboxKept (s : State) {r : Reg} (k j : Nat) (v : W64) (h : .ICU_SRC_CFG ≠ r) : MboxKept s (s.setReg r k j v) :=
  ⟨by simp, by simp, srcMode_setReg s k j v (by decide) h, .of_icu (by simp)⟩

/-- A command that ends (R448). -/
theorem mboxEnd_spec (s : State) (st : W16) : mailboxEnds st s (s.mboxEnd st) ∧ (s.mboxEnd st).dev = s.dev ∧
    (s.mboxEnd st).sage = { s.sage with mbox := none } := by
  obtain ⟨ok, -⟩ := regOk_mbox
  have raised10 : raised 10 s (s.mboxEnd st) :=
    raised_congr (setReg_raise_raised (s.setMbox none) (r := .SAGE_MBOX_STATUS) 0 0 (st.setWidth 64) (k := 10) (by decide) (by decide))
      (clocked_congr rfl) (srcMode_congr (reg_congr rfl _ _ _)) rfl id
  unfold State.mboxEnd State.mboxStatus at *
  refine ⟨⟨by simp [State.setMbox], ?_, raised10⟩, by simp [State.setMbox], by simp [State.setMbox]⟩
  rw [raise_reg _ _ _ _ _ (by decide) ok, reg_setReg_self _ _ ok]

theorem mailboxEnds_congr {st : W16} {s v t : State} (h : mailboxEnds st v t) (k : MboxKept s v) : mailboxEnds st s t :=
  ⟨h.1, h.2.1, raised_congr h.2.2 (clocked_congr k.dev).symm k.mode.symm (k.cond : _ = _).symm id⟩

/-- A command that is refused, whatever has been read before (R448). -/
theorem mboxRefuse_spec {s v : State} (k : MboxKept s v) (st : W16) : mailboxEnds st s (v.mboxRefuse st) ∧ (v.mboxRefuse st).dev = s.dev := by
  obtain ⟨ends, dev, -⟩ := mboxEnd_spec (v.sageLog st) st
  have log := k.trans (sageLog_mboxKept v st)
  exact ⟨mailboxEnds_congr ends log, dev.trans log.dev⟩

/-- A command that the rails stop (R451). -/
theorem inhibit_spec {s v : State} (k : MboxKept s v) (st : W16) (count : v.reg .SAGE_CNT_INHIBIT 0 0 = s.reg .SAGE_CNT_INHIBIT 0 0) :
    mailboxEnds st s (v.inhibit st) ∧ (v.inhibit st).dev = s.dev ∧
    (v.inhibit st).reg .SAGE_CNT_INHIBIT 0 0 = counted (s.reg .SAGE_CNT_INHIBIT 0 0) := by
  obtain ⟨-, ok, -⟩ := regOk_mbox
  obtain ⟨ends, dev, -⟩ := mboxEnd_spec ((v.count .SAGE_CNT_INHIBIT 0).elog st unitSage 0 noCtx noFn 0) st
  have counted1 : MboxKept v (v.count .SAGE_CNT_INHIBIT 0) :=
    setReg_mboxKept (r := .SAGE_CNT_INHIBIT) v 0 0 _ (by decide)
  have log := (k.trans counted1).trans (elog_mboxKept (v.count .SAGE_CNT_INHIBIT 0) st unitSage 0 noCtx noFn 0)
  refine ⟨mailboxEnds_congr ends log, dev.trans log.dev, ?_⟩
  unfold State.inhibit
  rw [(mboxEnd_keeps (.refl _) st (Within.mem _)).reg_eq (by decide) (by decide) ok,
    (elog_keeps (.refl _) st unitSage 0 noCtx noFn 0 (Within.mem _)).reg_eq (by decide) (by decide) ok, count_reg _ _ _ ok, count]
  rfl

/-! ## The start of a command -/

theorem supplyOk_congr {s v : State} (h : v.reg .SAGE_SUPPLY 0 0 = s.reg .SAGE_SUPPLY 0 0) : v.supplyOk = s.supplyOk := by
  unfold State.supplyOk State.regBit
  rw [h]

/-- A command that the rails allow runs; one that they do not is refused with 0x8020 (R451). -/
theorem mboxStart_spec {s v : State} (k : MboxKept s v) (regs : ∀ r ∈ [Reg.SAGE_SUPPLY, .SAGE_CNT_INHIBIT],
    v.reg r 0 0 = s.reg r 0 0) (j : MboxJob) (f : State → State) :
    (s.supplyOk = true → v.mboxStart j f = (f v).setMbox (some j)) ∧
    (s.supplyOk = false → (mailboxEnds 0x8020#16 s (v.mboxStart j f) ∧ (v.mboxStart j f).dev = s.dev) ∧
      (v.mboxStart j f).reg .SAGE_CNT_INHIBIT 0 0 = counted (s.reg .SAGE_CNT_INHIBIT 0 0)) := by
  have supply := supplyOk_congr (regs .SAGE_SUPPLY (by simp))
  refine ⟨fun ok => ?_, fun low => ?_⟩
  · unfold State.mboxStart
    rw [if_pos (supply.trans ok)]
  · obtain ⟨ends, dev, count⟩ := inhibit_spec k Status.supplyLow (regs .SAGE_CNT_INHIBIT (by simp))
    unfold State.mboxStart
    rw [if_neg (by simp [supply, low])]
    exact ⟨⟨ends, dev⟩, count⟩

theorem visit_mboxRegs (s : State) (port a n : Nat) : ∀ r ∈ [Reg.SAGE_SUPPLY, .SAGE_CNT_INHIBIT],
    (s.visit port a n).reg r 0 0 = s.reg r 0 0 := by
  obtain ⟨-, inhibit, supply⟩ := regOk_mbox
  have k := visit_keeps (.refl s) port a n (Within.mem _)
  intro r mem
  simp only [List.mem_cons, List.not_mem_nil, or_false] at mem
  rcases mem with rfl | rfl
  · exact k.reg_eq (by decide) (by decide) supply
  · exact k.reg_eq (by decide) (by decide) inhibit

/-! ## The slot table -/

/-- The copy that is written with the next sequence number governs (R437). -/
theorem putTable_table {f : FlashSt} (h : f.table.seq ≠ 0xFFFFFFFF#32) (t : SlotTable) :
    (f.putTable t).table = { t with seq := f.table.seq + 1, crcOk := true } := by
  have later : (f.table.seq + 1#32).ult f.table.seq = false ∧ f.table.seq.ult (f.table.seq + 1#32) = true := by
    generalize f.table.seq = q at h
    constructor
    · simp only [BitVec.ult, decide_eq_false_iff_not]
      bv_omega
    · simp only [BitVec.ult, decide_eq_true_eq]
      bv_omega
  unfold FlashSt.putTable
  dsimp only
  split
  · next first =>
    rw [first] at later ⊢
    unfold FlashSt.table
    simp [later.1]
  · next second =>
    have other : f.table = f.copy1 := by
      unfold FlashSt.table at second ⊢
      split
      · next h => exact absurd (if_pos h) second
      · rfl
    rw [other] at later ⊢
    unfold FlashSt.table
    simp [later.2]

theorem mark_valid (t : SlotTable) (k j : Nat) (b c w : Bool) :
    (t.mark k b w).valid j c = if j = k ∧ c = b ∧ j < 5 then w else t.valid j c := by
  unfold SlotTable.mark SlotTable.valid
  cases b <;> cases c <;> simp [putBit_get]

theorem mark_active (t : SlotTable) (k : Nat) (b w : Bool) : (t.mark k b w).activeB = t.activeB := by
  unfold SlotTable.mark
  split <;> rfl

/-! ## Commands that are taken -/

theorem mboxTake_off {s : State} (h : s.dev.life ≠ .ready) (h' : s.dev.life ≠ .recovery) (r : Bool) (f : State → State) :
    s.mboxTake r f = s := when_neg s (by simp [h, h']) _

theorem mboxTake_busy {s : State} (on : s.dev.life = .ready ∨ s.dev.life = .recovery) (busy : s.sage.mbox ≠ none) (r : Bool)
    (f : State → State) : s.mboxTake r f = s.mboxStatus Status.mailboxBusy := by
  unfold State.mboxTake
  rw [when_eq s (by simpa using on), if_pos (Option.isSome_iff_ne_none.2 busy)]

theorem mboxTake_keyRecord {s : State} (life : s.dev.life = .recovery) (free : s.sage.mbox = none) (key : s.dev.recovery = 0x8009#16)
    (r : Bool) (f : State → State) : s.mboxTake r f = s.mboxRefuse 0x8009#16 := by
  unfold State.mboxTake
  rw [when_eq s (by simp [life]), if_neg (by simp [free]), if_pos ⟨life, key⟩]

theorem mboxTake_barred {s : State} (life : s.dev.life = .recovery) (free : s.sage.mbox = none) (key : s.dev.recovery ≠ 0x8009#16)
    (f : State → State) : s.mboxTake false f = s.mboxRefuse 0x8012#16 := by
  unfold State.mboxTake
  rw [when_eq s (by simp [life]), if_neg (by simp [free]), if_neg fun h => key h.2, if_pos ⟨life, rfl⟩]

theorem mboxTake_takes {s : State} (free : s.sage.mbox = none) (r : Bool)
    (on : s.dev.life = .ready ∨ s.dev.life = .recovery ∧ s.dev.recovery ≠ 0x8009#16 ∧ r = true) (f : State → State) :
    s.mboxTake r f = f s := by
  unfold State.mboxTake
  rcases on with life | ⟨life, key, rfl⟩
  · rw [when_eq s (by simp [life]), if_neg (by simp [free]), if_neg (by simp [life]), if_neg (by simp [life])]
  · rw [when_eq s (by simp [life]), if_neg (by simp [free]), if_neg fun h => key h.2, if_neg (by simp)]

theorem withSub_undefined (s : State) {k : Nat} (h : 5 ≤ k) (f : State → State) : s.withSub k f = s.mboxRefuse 0x8012#16 :=
  if_neg (by omega)

theorem withSub_defined (s : State) {k : Nat} (h : k < 5) (f : State → State) : s.withSub k f = f s := if_pos h

/-- The commands of the mailbox, by whether recovery takes them and what they then do. -/
theorem mailbox_cases {c : Instr} {k : Nat} {v : Verdict} (h : c ∈ [Instr.writeSlot k v, .activate k v, .commit k, .advanceImage,
    .writeBoard]) : ∃ r f, (∀ s, exec c s = .next (s.mboxTake r f)) ∧ (c ≠ .writeSlot k v → c ≠ .activate k v → r = false) ∧
    (c ≠ .advanceImage → c ≠ .writeBoard → ∀ s, 5 ≤ k → f s = s.mboxRefuse 0x8012#16) := by
  simp only [List.mem_cons, List.not_mem_nil, or_false] at h
  rcases h with rfl | rfl | rfl | rfl | rfl
  · exact ⟨_, _, fun _ => rfl, fun h => absurd rfl h, fun _ _ s un => withSub_undefined s un _⟩
  · exact ⟨_, _, fun _ => rfl, fun _ h => absurd rfl h, fun _ _ s un => withSub_undefined s un _⟩
  · exact ⟨_, _, fun _ => rfl, fun _ _ => rfl, fun _ _ s un => withSub_undefined s un _⟩
  · exact ⟨_, _, fun _ => rfl, fun _ _ => rfl, fun h => absurd rfl h⟩
  · exact ⟨_, _, fun _ => rfl, fun _ _ => rfl, fun _ h => absurd rfl h⟩

/-- Which of them take their own course, and what the others are told (R441, R448). -/
theorem mailbox_turned {c : Instr} {k : Nat} {v : Verdict} {s t : State} (h : c ∈ [Instr.writeSlot k v, .activate k v, .commit k,
    .advanceImage, .writeBoard]) (ran : exec c s = .next t) :
    (s.dev.life ≠ .ready → s.dev.life ≠ .recovery → t = s) ∧
    ((s.dev.life = .ready ∨ s.dev.life = .recovery) →
      (s.sage.mbox ≠ none → t.reg .SAGE_MBOX_STATUS 0 0 = 0x8011 ∧ t.sage = s.sage ∧ t.dev = s.dev ∧ t.icu = s.icu) ∧
      (s.sage.mbox = none →
        (s.dev.life = .recovery → s.dev.recovery = 0x8009#16 → mailboxEnds 0x8009#16 s t ∧ t.dev = s.dev) ∧
        (s.dev.life = .recovery → s.dev.recovery ≠ 0x8009#16 → c ≠ .writeSlot k v → c ≠ .activate k v →
          mailboxEnds 0x8012#16 s t ∧ t.dev = s.dev) ∧
        (s.dev.life = .ready → 5 ≤ k → c ≠ .advanceImage → c ≠ .writeBoard →
          mailboxEnds 0x8012#16 s t ∧ t.dev = s.dev))) := by
  obtain ⟨r, f, runs, barred, undefined⟩ := mailbox_cases h
  obtain rfl : t = s.mboxTake r f := by
    rw [runs] at ran
    cases ran
    rfl
  refine ⟨fun ne ne' => mboxTake_off ne ne' r f, fun on => ⟨fun busy => ?_, fun free => ⟨fun life key => ?_, fun life key w a => ?_,
    fun life un a b => ?_⟩⟩⟩
  · rw [mboxTake_busy on busy]
    exact ⟨reg_setReg_self s _ regOk_mbox.1, by simp [State.mboxStatus], by simp [State.mboxStatus], by simp [State.mboxStatus]⟩
  · rw [mboxTake_keyRecord life free key]
    exact mboxRefuse_spec (.refl s) _
  · rw [barred w a, mboxTake_barred life free key]
    exact mboxRefuse_spec (.refl s) _
  · rw [mboxTake_takes free r (.inl life), undefined a b s un]
    exact mboxRefuse_spec (.refl s) _

/-! ## What each command does -/

theorem putTable_flash (s : State) {f : FlashSt} (h : s.dev.flash.table.seq ≠ 0xFFFFFFFF#32) (t : SlotTable)
    (f_eq : f = s.dev.flash.putTable t) : f.table.activeB = t.activeB ∧ ∀ j c, f.table.valid j c = t.valid j c := by
  subst f_eq
  rw [putTable_table h]
  exact ⟨rfl, fun _ _ => rfl⟩

theorem takeWriteSlot_spec {s : State} {k : Nat} (hk : k < 5) (seq : s.dev.flash.table.seq ≠ 0xFFFFFFFF#32) (v : Verdict) :
    let b := !s.dev.flash.table.activeB.getLsbD k
    let t := s.takeWriteSlot k v
    (s.dev.flash.inService.getLsbD k = b → mailboxEnds 0x8012#16 s t ∧ t.dev = s.dev) ∧
    (s.dev.flash.inService.getLsbD k ≠ b → ∀ st, s.fwVerify k s.mboxAddr s.mboxLen v = some st → mailboxEnds st s t ∧ t.dev = s.dev) ∧
    (s.dev.flash.inService.getLsbD k ≠ b → s.fwVerify k s.mboxAddr s.mboxLen v = none →
      (s.supplyOk = true → t.dev.flash.table.valid k b = false ∧
        t.sage.mbox = some { cmd := .writeSlot, sub := k, addr := s.mboxAddr, len := s.mboxLen, status := 0, goal := 0 } ∧
        t.dev.flash.table.activeB = s.dev.flash.table.activeB ∧
        ∀ j c, (j ≠ k ∨ c ≠ b) → j < 5 → t.dev.flash.table.valid j c = s.dev.flash.table.valid j c) ∧
      (s.supplyOk = false → mailboxEnds 0x8020#16 s t ∧ t.dev = s.dev)) := by
  intro b t
  have t_eq : t = s.takeWriteSlot k v := rfl
  have b_eq : s.dev.flash.inactive k = b := rfl
  clear_value t b
  unfold State.takeWriteSlot at t_eq
  dsimp only at t_eq
  rw [b_eq] at t_eq
  have seen := visit_mboxKept s portFw s.mboxAddr s.mboxLen
  refine ⟨fun serves => ?_, fun other st bad => ?_, fun other good => ⟨fun ok => ?_, fun low => ?_⟩⟩
  · rw [if_pos serves] at t_eq
    rw [t_eq]
    exact mboxRefuse_spec (.refl s) _
  · rw [if_neg other, bad] at t_eq
    rw [t_eq]
    exact mboxRefuse_spec seen st
  · rw [if_neg other, good] at t_eq
    have runs := (mboxStart_spec seen (visit_mboxRegs _ _ _ _)
      { cmd := .writeSlot, sub := k, addr := s.mboxAddr, len := s.mboxLen, status := 0, goal := 0 }
      (fun s => s.setFlash (s.dev.flash.putTable (s.dev.flash.table.mark k b false)))).1 ok
    dsimp only at t_eq
    rw [runs] at t_eq
    have flash : t.dev.flash = s.dev.flash.putTable (s.dev.flash.table.mark k b false) := by
      rw [t_eq]
      unfold State.setMbox State.setFlash
      dsimp only
      rw [seen.dev]
    obtain ⟨active, valid⟩ := putTable_flash s seq _ flash
    refine ⟨?_, by rw [t_eq]; rfl, by rw [active, mark_active], fun j c ne hj => ?_⟩
    · rw [valid, mark_valid, if_pos ⟨rfl, rfl, hk⟩]
    · rw [valid, mark_valid, if_neg fun h => ne.elim (fun n => n h.1) (fun n => n h.2.1)]
  · rw [if_neg other, good] at t_eq
    have stops := (mboxStart_spec seen (visit_mboxRegs _ _ _ _)
      { cmd := .writeSlot, sub := k, addr := s.mboxAddr, len := s.mboxLen, status := 0, goal := 0 }
      (fun s => s.setFlash (s.dev.flash.putTable (s.dev.flash.table.mark k b false)))).2 low
    dsimp only at t_eq
    rw [t_eq]
    exact stops.1

/-- What ACTIVATE makes of the slot table, and of the switches that wait. -/
def State.activated (s : State) (k : Nat) : State :=
  let t := s.dev.flash.table
  let s1 := s.setFlash (s.dev.flash.putTable { t with activeB := putBit t.activeB k (s.dev.flash.inactive k) })
  if s.switchesNow k then
    { s1 with sage := { s1.sage with pendingSwitch := putBit s1.sage.pendingSwitch k true, switched := [] } }
  else s1

theorem activated_spec {s : State} {k : Nat} (hk : k < 5) (seq : s.dev.flash.table.seq ≠ 0xFFFFFFFF#32) :
    (∀ j < 5, (s.activated k).dev.flash.table.activeB.getLsbD j =
      if j = k then !s.dev.flash.table.activeB.getLsbD k else s.dev.flash.table.activeB.getLsbD j) ∧
    (k ≠ 0 → s.dev.life = .ready → (s.activated k).sage.pendingSwitch.getLsbD k = true) ∧
    (k = 0 ∨ s.dev.life ≠ .ready → (s.activated k).sage.pendingSwitch = s.sage.pendingSwitch) := by
  have flash : (s.activated k).dev.flash = s.dev.flash.putTable
      { s.dev.flash.table with activeB := putBit s.dev.flash.table.activeB k (s.dev.flash.inactive k) } := by
    unfold State.activated
    dsimp only
    split <;> rfl
  obtain ⟨active, -⟩ := putTable_flash s seq _ flash
  refine ⟨fun j hj => ?_, fun ne life => ?_, fun out => ?_⟩
  · rw [active, putBit_get]
    by_cases own : j = k
    · rw [if_pos ⟨own, hj⟩, if_pos own]
      rfl
    · rw [if_neg fun h => own h.1, if_neg own]
  · unfold State.activated
    dsimp only
    rw [if_pos (by simp [State.switchesNow, State.ready, ne, life])]
    dsimp only
    rw [putBit_get, if_pos ⟨rfl, hk⟩]
  · unfold State.activated
    dsimp only
    rw [if_neg (by rcases out with out | out <;> simp [State.switchesNow, State.ready, out])]
    rfl

theorem takeActivate_eq (s : State) (k : Nat) (v : Verdict) : s.takeActivate k v =
    if s.dev.flash.table.valid k (!s.dev.flash.table.activeB.getLsbD k) = false then s.mboxRefuse Status.mailboxNotPermitted
    else match (if k = 1 ∧ s.dev.life = .ready
        then s.sluiceRefusal (s.dev.flash.slot k (!s.dev.flash.table.activeB.getLsbD k)).version else none) with
      | some st => s.mboxRefuse st
      | none =>
        match s.fwVerdict k (s.dev.flash.slot k (!s.dev.flash.table.activeB.getLsbD k)).security v with
        | some st => s.mboxRefuse st
        | none => s.mboxStart { cmd := .activate, sub := k, addr := 0, len := 0, status := 0, goal := 0 } (fun s => s.activated k) := by
  unfold State.takeActivate FlashSt.inactive State.ready
  simp only [Bool.not_eq_true', beq_iff_eq]
  rfl

/-- A counter that need not move, or one that the rails let move. -/
theorem starts_spec (s : State) (j : MboxJob) {u t : State} (u_dev : u.dev = s.dev) (h : t = s.mboxStart j id) :
    if s.supplyOk = true then t.sage.mbox = some j ∧ t.dev = u.dev
    else (mailboxEnds 0x8020#16 s t ∧ t.dev = s.dev) ∧ t.reg .SAGE_CNT_INHIBIT 0 0 = counted (s.reg .SAGE_CNT_INHIBIT 0 0) := by
  obtain ⟨runs, stops⟩ := mboxStart_spec (.refl s) (fun _ _ => rfl) j id
  rw [h]
  by_cases ok : s.supplyOk = true
  · rw [if_pos ok, runs ok]
    exact ⟨rfl, u_dev.symm⟩
  · rw [if_neg ok]
    exact stops (by simpa using ok)

/-- Settles O30: who is turned away is `mailbox_turned`; each command's own course follows from `mboxStart_spec` and
`mboxRefuse_spec`. -/
theorem mailboxTakesOrRefuses : Obligations.MailboxTakesOrRefuses := by
  refine ⟨fun k v s c h => ?_, fun k v s free hk seq => ⟨fun takes => ?_, fun takes => ?_, fun life => ⟨?_, ?_, ?_⟩⟩⟩
  · have turned := fun t ran => mailbox_turned (s := s) (t := t) h ran
    simp only [List.mem_cons, List.not_mem_nil, or_false] at h
    rcases h with rfl | rfl | rfl | rfl | rfl
    · exact completes_of rfl (execWriteSlot_keeps (.refl s) k v (Within.mem _)) (by decide +kernel) (turned _ rfl)
    · exact completes_of rfl (execActivate_keeps (.refl s) k v (Within.mem _)) (by decide +kernel) (turned _ rfl)
    · exact completes_of rfl (execCommit_keeps (.refl s) k (Within.mem _)) (by decide +kernel) (turned _ rfl)
    · exact completes_of rfl (execAdvanceImage_keeps (.refl s) (Within.mem _)) (by decide +kernel) (turned _ rfl)
    · exact completes_of rfl (execWriteBoard_keeps (.refl s) (Within.mem _)) (by decide +kernel) (turned _ rfl)
  · refine ⟨s.takeWriteSlot k v, ?_, ?_⟩
    · change execWriteSlot k v s = _
      unfold execWriteSlot
      rw [mboxTake_takes free true (takes.imp id fun r => ⟨r.1, r.2, rfl⟩), withSub_defined _ hk]
    · obtain ⟨serves, bad, good⟩ := takeWriteSlot_spec (s := s) hk seq v
      split
      · next h => exact serves h
      · next h =>
        split
        · next st found => exact bad h st found
        · next none => exact good h none
  · refine ⟨s.takeActivate k v, ?_, ?_⟩
    · change execActivate k v s = _
      unfold execActivate
      rw [mboxTake_takes free true (takes.imp id fun r => ⟨r.1, r.2, rfl⟩), withSub_defined _ hk]
    · rw [takeActivate_eq]
      by_cases invalid : s.dev.flash.table.valid k (!s.dev.flash.table.activeB.getLsbD k) = false
      · rw [if_pos invalid, if_pos invalid]
        exact mboxRefuse_spec (.refl s) _
      · rw [if_neg invalid, if_neg invalid]
        generalize (if k = 1 ∧ s.dev.life = .ready then _ else none) = refusal
        cases refusal with
        | some st => exact mboxRefuse_spec (.refl s) st
        | none =>
          dsimp only
          cases s.fwVerdict k (s.dev.flash.slot k (!s.dev.flash.table.activeB.getLsbD k)).security v with
          | some st => exact mboxRefuse_spec (.refl s) st
          | none =>
            obtain ⟨runs, stops⟩ := mboxStart_spec (.refl s) (fun _ _ => rfl)
              { cmd := .activate, sub := k, addr := 0, len := 0, status := 0, goal := 0 } (fun s => s.activated k)
            refine ⟨fun ok => ?_, fun low => (stops low).1⟩
            dsimp only at runs ⊢
            rw [runs ok]
            obtain ⟨active, waits, stays⟩ := activated_spec hk seq
            exact ⟨active, rfl, waits, stays⟩
  · refine ⟨s.takeCommit k, ?_, ?_⟩
    · change execCommit k s = _
      unfold execCommit
      rw [mboxTake_takes free false (.inl life), withSub_defined _ hk]
    · unfold State.takeCommit
      dsimp only
      split
      · exact ⟨rfl, rfl⟩
      · exact starts_spec s _ rfl rfl
  · refine ⟨s.takeAdvance, ?_, ?_⟩
    · change execAdvanceImage s = _
      unfold execAdvanceImage
      rw [mboxTake_takes free false (.inl life)]
    · unfold State.takeAdvance
      dsimp only
      cases s.imageLoaded with
      | false => exact mboxRefuse_spec (.refl s) _
      | true =>
        simp only [Bool.not_true, Bool.false_eq_true, if_false, reduceCtorEq]
        split
        · exact ⟨rfl, rfl⟩
        · exact starts_spec s _ rfl rfl
  · refine ⟨s.takeBoard, ?_, ?_⟩
    · change execWriteBoard s = _
      unfold execWriteBoard
      rw [mboxTake_takes free false (.inl life)]
    · have seen := visit_mboxKept s portFw s.mboxAddr 4096
      unfold State.takeBoard
      dsimp only
      by_cases loaded : s.ldr.state ≠ .empty
      · rw [if_pos loaded, if_pos loaded]
        exact mboxRefuse_spec (.refl s) _
      · rw [if_neg loaded, if_neg loaded]
        cases rangeStatus s.dev.part s.mboxAddr 4096 with
        | some st => exact mboxRefuse_spec seen st
        | none =>
        dsimp only
        cases s.readPoison portFw s.mboxAddr 4096 with
        | some st => exact mboxRefuse_spec seen st
        | none =>
          obtain ⟨runs, stops⟩ := mboxStart_spec seen (visit_mboxRegs s portFw s.mboxAddr 4096)
            { cmd := .writeBoard, sub := 0, addr := s.mboxAddr, len := 4096, status := 0, goal := 0 } id
          dsimp only
          by_cases ok : s.supplyOk = true
          · rw [if_pos ok, runs ok]
            exact ⟨rfl, seen.dev⟩
          · rw [if_neg ok]
            exact stops (by simpa using ok)

end Sys2Proof.Machine
end

section
/-! SUPPORT. Ends of mailbox commands, firmware switches and supply samples (R435, R448 to R451). -/

set_option Elab.async false

namespace Sys2Proof.Machine

/-! ## Programming of counters -/

theorem lowestZero_some {v : W64} {i : Nat} (h : lowestZero v = some i) : i < 64 ∧ v.getLsbD i = false := by
  unfold lowestZero at h
  have mem := List.mem_of_find?_eq_some h
  have unset := List.find?_some h
  exact ⟨List.mem_range.1 mem, by simpa using unset⟩

theorem lowestZero_none {v : W64} (h : lowestZero v = none) : counterVal v = 64 := by
  unfold lowestZero at h
  rw [List.find?_eq_none] at h
  unfold counterVal
  rw [List.filter_eq_self.2 fun i mem => by simpa using h i mem, List.length_range]

/-- A counter is programmed one bit for each step, up to its end (R435). -/
theorem counterVal_programBits (v : W64) (n : Nat) : counterVal (programBits v n) = min 64 (counterVal v + n) := by
  induction n generalizing v with
  | zero =>
    have := counterVal_le v
    unfold programBits
    omega
  | succ n ih =>
    unfold programBits
    split
    · next i found =>
      obtain ⟨hi, unset⟩ := lowestZero_some found
      rw [ih, show putBit v i true = v ||| 1#64 <<< i from rfl, counterVal_setBit hi unset]
      omega
    · next none =>
      have := lowestZero_none none
      omega

theorem finishCommit_spec (s : State) (k goal : Nat) : (s.finishCommit k goal).dev.flash = s.dev.flash ∧
    (s.finishCommit k goal).dev.fuses.arbImage = s.dev.fuses.arbImage ∧
    (∀ i, i ≠ k → (s.finishCommit k goal).dev.fuses.fw i = s.dev.fuses.fw i) ∧
    counterVal ((s.finishCommit k goal).dev.fuses.fw k) = max (counterVal (s.dev.fuses.fw k)) (min 64 goal) := by
  refine ⟨rfl, rfl, fun i ne => SMap.get_set_ne _ _ _ ne, ?_⟩
  have own : (s.finishCommit k goal).dev.fuses.fw k =
      programBits (s.dev.fuses.fw k) (goal - counterVal (s.dev.fuses.fw k)) := SMap.get_set_self _ _ _ _
  have := counterVal_le (s.dev.fuses.fw k)
  rw [own, counterVal_programBits]
  omega

theorem finishAdvance_spec (s : State) (goal : Nat) : (s.finishAdvance goal).dev.flash = s.dev.flash ∧
    (∀ k, (s.finishAdvance goal).dev.fuses.fw k = s.dev.fuses.fw k) ∧
    counterVal (s.finishAdvance goal).dev.fuses.arbImage = max (counterVal s.dev.fuses.arbImage) (min 64 goal) := by
  refine ⟨rfl, fun _ => rfl, ?_⟩
  have own : (s.finishAdvance goal).dev.fuses.arbImage =
      programBits s.dev.fuses.arbImage (goal - counterVal s.dev.fuses.arbImage) := rfl
  have := counterVal_le s.dev.fuses.arbImage
  rw [own, counterVal_programBits]
  omega

/-! ## Flash -/

theorem FlashSt.read_one (f : FlashSt) (a : Nat) : f.read a 1 = [~~~(Mem.read f.bytes a)] := rfl

theorem FlashSt.read_write (f : FlashSt) (a : Nat) (data : List Byte) {i : Nat} (h : i < data.length) :
    (f.write a data).read (a + i) 1 = [data[i]] := by
  rw [FlashSt.read_one]
  unfold FlashSt.write
  dsimp only
  rw [Mem.read_writeList _ _ _ (by simpa using h), List.getElem_map, BitVec.not_not]

theorem FlashSt.read_write_ne (f : FlashSt) (a : Nat) (data : List Byte) {b : Nat} (h : b < a ∨ a + data.length ≤ b) :
    (f.write a data).read b 1 = f.read b 1 := by
  rw [FlashSt.read_one, FlashSt.read_one]
  unfold FlashSt.write
  dsimp only
  rw [Mem.read_writeList_ne _ _ _ (by simpa using h)]

theorem Mem.getElem_readList (m : Mem) (a n : Nat) {i : Nat} (h : i < (Mem.readList m a n).length) :
    (Mem.readList m a n)[i] = Mem.read m (a + i) := by
  induction n generalizing a i with
  | zero => simp [Mem.readList] at h
  | succ n ih =>
    cases i with
    | zero => rfl
    | succ i =>
      refine (ih (a + 1) (i := i) (by simpa [Mem.readList] using h)).trans ?_
      rw [show a + 1 + i = a + (i + 1) by omega]

/-- A write of the board record (R448). -/
theorem finishBoard_spec (s : State) (data : List Byte) : (s.finishBoard data).dev.fuses = s.dev.fuses ∧
    ∀ a, (a < boardBase ∨ boardBase + data.length ≤ a) → (s.finishBoard data).dev.flash.read a 1 = s.dev.flash.read a 1 :=
  ⟨rfl, fun _ h => FlashSt.read_write_ne _ _ _ h⟩

theorem finishBoard_bytes (s : State) (a n : Nat) {i : Nat} (h : i < n) :
    (s.finishBoard (Mem.readList s.dram.bytes a n)).dev.flash.read (boardBase + i) 1 = [s.dramByte (a + i)] := by
  have len : i < (Mem.readList s.dram.bytes a n).length := by rwa [Mem.readList_length]
  exact (FlashSt.read_write _ _ _ len).trans (by rw [Mem.getElem_readList]; rfl)

theorem putTable_slots (f : FlashSt) (t : SlotTable) : (f.putTable t).slots = f.slots := by
  unfold FlashSt.putTable
  dsimp only
  split <;> rfl

/-- A slot that is written holds its image and is valid (R448). -/
theorem finishSlot_spec {s : State} {j : MboxJob} (seq : s.dev.flash.table.seq ≠ 0xFFFFFFFF#32) (sub : j.sub < 5) :
    let b := !s.dev.flash.table.activeB.getLsbD j.sub
    (s.finishSlot j).dev.fuses = s.dev.fuses ∧ (s.finishSlot j).dev.flash.table.valid j.sub b = true ∧
    (∀ i < j.len, (s.finishSlot j).dev.flash.read (slotBase j.sub b + i) 1 = [s.dramByte (j.addr + i)]) ∧
    ((s.finishSlot j).dev.flash.slot j.sub b).length = j.len ∧
    ((s.finishSlot j).dev.flash.slot j.sub b).security = s.dramRd (j.addr + 0x10) 4 := by
  intro b
  have slot : (s.finishSlot j).dev.flash.slot j.sub b =
      { version := BitVec.ofNat 32 (s.dramRd (j.addr + 0xC) 4), security := s.dramRd (j.addr + 0x10) 4, length := j.len } := by
    unfold State.finishSlot FlashSt.slot State.setFlash
    dsimp only
    rw [putTable_slots]
    exact SMap.get_set_self _ _ _ _
  refine ⟨rfl, ?_, fun i hi => ?_, by rw [slot], by rw [slot]⟩
  · unfold State.finishSlot State.setFlash
    dsimp only
    rw [putTable_table (f := { s.dev.flash.write (slotBase j.sub (s.dev.flash.inactive j.sub))
      (Mem.readList s.dram.bytes j.addr j.len) with slots := _ }) seq]
    have marked := mark_valid s.dev.flash.table j.sub j.sub b b true
    rw [if_pos ⟨rfl, rfl, sub⟩] at marked
    exact marked
  · have len : i < (Mem.readList s.dram.bytes j.addr j.len).length := by rwa [Mem.readList_length]
    rw [FlashSt.read_one]
    unfold State.finishSlot State.setFlash
    dsimp only
    rw [putTable_bytes]
    have stored := FlashSt.read_write s.dev.flash (slotBase j.sub b) (Mem.readList s.dram.bytes j.addr j.len) len
    rw [FlashSt.read_one, Mem.getElem_readList] at stored
    exact stored

/-! ## The end of a command -/

/-- Source 10 and the life of the device are as in `s`. -/
theorem mailboxEnds_of {st : W16} {s v : State} (k : Keeps (fun c => c ∈ [.devFlash, .devFuses, .freeIdx, .reg .SAGE_SUPPLY]) s v)
    {t : State} (h : mailboxEnds st v t) : mailboxEnds st s t := by
  have clocked : s.clocked = v.clocked := by
    unfold State.clocked
    rw [k.dev.life.resolve_left (by decide)]
  exact ⟨h.1, h.2.1, raised_congr h.2.2 clocked (srcMode_congr (k.reg_eq (by decide) (by decide) (regOk_src (by decide)))).symm
    (by rw [k.icu_eq (by decide)]) id⟩

theorem mboxFinish_flash (s : State) (j : MboxJob) :
    Keeps (fun c => c ∈ [.devFlash, .devFuses, .freeIdx, .reg .SAGE_SUPPLY]) s (s.mboxFinish j) :=
  mboxFinish_keeps (.refl s) j (by unfold Within; decide)

theorem mboxFinish_cases (s : State) (j : MboxJob) : (j.cmd = .writeSlot → s.mboxFinish j = s.finishSlot j) ∧
    (j.cmd = .commit → s.mboxFinish j = s.finishCommit j.sub j.goal) ∧
    (j.cmd = .advanceImage → s.mboxFinish j = s.finishAdvance j.goal) ∧
    (j.cmd = .writeBoard → s.mboxFinish j = s.finishBoard (Mem.readList s.dram.bytes j.addr 4096)) := by
  unfold State.mboxFinish
  cases j.cmd
  · exact ⟨fun _ => rfl, nofun, nofun, nofun⟩
  · exact ⟨nofun, nofun, nofun, nofun⟩
  · exact ⟨nofun, fun _ => rfl, nofun, nofun⟩
  · exact ⟨nofun, nofun, fun _ => rfl, nofun⟩
  · exact ⟨nofun, nofun, nofun, fun _ => rfl⟩

theorem mailboxComplete_spec (s : State) :
    ∃ t, exec .mailboxCommandComplete s = .next t ∧ (s.sage.mbox = none → t = s) ∧
    ∀ j, s.sage.mbox = some j →
      (j.cmd = .activate → s.sage.pendingSwitch.getLsbD j.sub = true → t = s) ∧
      (¬ (j.cmd = .activate ∧ s.sage.pendingSwitch.getLsbD j.sub = true) → mailboxEnds j.status s t ∧ t.dev = (s.mboxFinish j).dev) := by
  cases found : s.sage.mbox with
  | none =>
    refine ⟨s, ?_, fun _ => rfl, nofun⟩
    change execMailboxCommandComplete s = _
    unfold execMailboxCommandComplete
    rw [found]
  | some j =>
    refine ⟨s.when (!(j.cmd == .activate && s.sage.pendingSwitch.getLsbD j.sub)) (fun s => (s.mboxFinish j).mboxEnd j.status), ?_,
      nofun, fun i same => ?_⟩
    · change execMailboxCommandComplete s = _
      unfold execMailboxCommandComplete
      rw [found]
    · cases same
      refine ⟨fun cmd waits => when_neg s (by simp [cmd, waits]) _, fun ends => ?_⟩
      rw [when_eq s (by simpa [imp_iff_not_or] using ends)]
      obtain ⟨done, dev, -⟩ := mboxEnd_spec (s.mboxFinish j) j.status
      exact ⟨mailboxEnds_of (mboxFinish_flash s j) done, dev⟩

/-! ## Switches (R449) -/

theorem inServiceNow_spec (s : State) (k : Nat) :
    (s.inServiceNow k).dev.flash =
      { s.dev.flash with inService := putBit s.dev.flash.inService k (s.dev.flash.table.activeB.getLsbD k) } ∧
    (s.inServiceNow k).sage.pendingSwitch = putBit s.sage.pendingSwitch k false ∧ (s.inServiceNow k).sage.switched = [] ∧
    (s.inServiceNow k).dev.ucode = (if k = 4 then [] else s.dev.ucode) ∧ (s.inServiceNow k).weir = s.weir := ⟨rfl, rfl, rfl, rfl, rfl⟩

/-- One engine's decoder microcode has been switched. -/
def State.engineSwitched (s : State) (n : Nat) : State :=
  { s with
    dev := { s.dev with
      ucode := SMap.insert s.dev.ucode n (s.dev.flash.slot 4 (s.dev.flash.table.activeB.getLsbD 4)).version }
    sage := { s.sage with switched := s.sage.switched ++ [n] } }

/-- The last engine has been switched (R449). -/
theorem lastSwitch_iff (s : State) (n : Nat) : (s.engineSwitched n).nextSwitch = none ↔
    ∀ e < 16, decPresent s.dev.part e = true → e = n ∨ e ∈ s.sage.switched := by
  unfold State.nextSwitch
  rw [List.find?_eq_none]
  change (∀ e ∈ List.range 16, ¬ (decPresent s.dev.part e && !(s.sage.switched ++ [n]).contains e) = true) ↔ _
  simp only [List.mem_range, Bool.and_eq_true, Bool.not_eq_true', List.contains_eq_mem, decide_eq_false_iff_not, List.mem_append,
    List.mem_singleton, not_and, not_not]
  exact ⟨fun h e he on => (h e he on).symm, fun h e he on => (h e he on).symm⟩

theorem switched_spec {s : State} {k n : Nat} (may : s.maySwitch k n = true) {t : State}
    (ran : exec (.firmwareSwitch k n) s = .next t) :
    (k ≠ 4 → (t.dev.flash = { s.dev.flash with inService := putBit s.dev.flash.inService k (s.dev.flash.table.activeB.getLsbD k) } ∧
      t.sage.pendingSwitch = putBit s.sage.pendingSwitch k false ∧ t.sage.switched = []) ∧ t.dev.ucode = s.dev.ucode) ∧
    t.weir.switched = (s.weir.switched || k == 2) ∧
    (k = 4 → (s.engineSwitched n).nextSwitch = none →
      (t.dev.flash = { s.dev.flash with inService := putBit s.dev.flash.inService k (s.dev.flash.table.activeB.getLsbD k) } ∧
        t.sage.pendingSwitch = putBit s.sage.pendingSwitch k false ∧ t.sage.switched = []) ∧ t.dev.ucode = []) ∧
    (k = 4 → (s.engineSwitched n).nextSwitch ≠ none → t.sage.switched = s.sage.switched ++ [n] ∧
      t.sage.pendingSwitch = s.sage.pendingSwitch ∧ t.dev.flash = s.dev.flash ∧
      SMap.find? t.dev.ucode n = some (s.dev.flash.slot 4 (s.dev.flash.table.activeB.getLsbD k)).version) := by
  have run : exec (.firmwareSwitch k n) s = .next (if k = 4 then
      if (s.engineSwitched n).nextSwitch = none then (s.engineSwitched n).inServiceNow 4 else s.engineSwitched n
    else if k = 2 then State.inServiceNow { s with weir := { s.weir with switched := true } } 2
    else s.inServiceNow k) := congrArg Host.Outcome.next (when_eq s may _)
  rw [run] at ran
  cases ran
  by_cases four : k = 4
  · subst four
    rw [if_pos rfl]
    refine ⟨fun ne => absurd rfl ne, ?_, fun _ last => ?_, fun _ more => ?_⟩
    · split
      · exact (Bool.or_false _).symm
      · exact (Bool.or_false _).symm
    · rw [if_pos last]
      exact ⟨⟨rfl, rfl, rfl⟩, rfl⟩
    · rw [if_neg more]
      refine ⟨rfl, rfl, rfl, ?_⟩
      exact (SMap.find?_insert _ _ _ _).trans (if_pos rfl)
  · rw [if_neg four]
    refine ⟨fun _ => ?_, ?_, fun h => absurd h four, fun h => absurd h four⟩
    · by_cases two : k = 2
      · subst two
        exact ⟨⟨rfl, rfl, rfl⟩, rfl⟩
      · rw [if_neg two]
        obtain ⟨flash, pending, switched, ucode, -⟩ := inServiceNow_spec s k
        exact ⟨⟨flash, pending, switched⟩, ucode.trans (if_neg four)⟩
    · by_cases two : k = 2
      · subst two
        exact (Bool.or_true _).symm
      · rw [if_neg two]
        have no : (k == 2) = false := by simpa using two
        rw [no, Bool.or_false]
        rfl

/-! ## Supply samples (R451) -/

/-- A sample of the rails shows in SAGE_SUPPLY. -/
def State.sampled (s : State) (vaux vddio : Nat) : State :=
  s.setReg .SAGE_SUPPLY 0 0 (BitVec.ofNat 64 (b2n (3050 ≤ vaux) + 2 * b2n (1700 ≤ vddio)))

theorem sampled_reg (s : State) (vaux vddio : Nat) : (s.sampled vaux vddio).reg .SAGE_SUPPLY 0 0 =
    BitVec.ofNat 64 ((if 3050 ≤ vaux then 1 else 0) + if 1700 ≤ vddio then 2 else 0) := by
  obtain ⟨-, -, ok⟩ := regOk_mbox
  unfold State.sampled
  rw [reg_setReg_self _ _ ok]
  unfold b2n
  by_cases low : 3050 ≤ vaux <;> by_cases io : 1700 ≤ vddio <;> simp [low, io]

theorem sampled_keeps (s : State) (vaux vddio : Nat) : Keeps (fun c => c ∈ [.devFlash, .devFuses, .freeIdx, .reg .SAGE_SUPPLY]) s
    (s.sampled vaux vddio) := setReg_keeps (.refl s) _ _ _ _ (.inr (by decide))

/-- A job that is stopped, its rails too low. -/
def State.stoppedJob (s : State) (vaux vddio : Nat) (j : MboxJob) : State := (s.sampled vaux vddio).mboxAbandon j

theorem stoppedJob_keeps (s : State) (vaux vddio : Nat) (j : MboxJob) :
    Keeps (fun c => c ∈ [.devFlash, .devFuses, .freeIdx, .reg .SAGE_SUPPLY]) s (s.stoppedJob vaux vddio j) :=
  mboxAbandon_keeps (sampled_keeps s vaux vddio) j (by unfold Within; decide)

theorem partGoal_bounds (s : State) {cur goal : Nat} (h : cur ≤ goal) : cur ≤ s.partGoal cur goal ∧ s.partGoal cur goal ≤ goal := by
  unfold State.partGoal
  have := Nat.mod_lt (Config.freeValue s.freeIdx) (show 0 < goal - cur + 1 by omega)
  omega

/-- What a stopped job leaves (R451). -/
theorem stoppedJob_dev (s : State) (vaux vddio : Nat) (j : MboxJob) (writes : s.jobWrites j = true) :
    (j.cmd = .writeSlot → (s.stoppedJob vaux vddio j).dev = s.dev) ∧
    (j.cmd = .commit → (s.stoppedJob vaux vddio j).dev.flash = s.dev.flash ∧
      counterVal (s.dev.fuses.fw j.sub) ≤ counterVal ((s.stoppedJob vaux vddio j).dev.fuses.fw j.sub) ∧
      counterVal ((s.stoppedJob vaux vddio j).dev.fuses.fw j.sub) ≤ j.goal ∧
      ∀ k, k ≠ j.sub → (s.stoppedJob vaux vddio j).dev.fuses.fw k = s.dev.fuses.fw k) ∧
    (j.cmd = .advanceImage → (s.stoppedJob vaux vddio j).dev.flash = s.dev.flash ∧
      counterVal s.dev.fuses.arbImage ≤ counterVal (s.stoppedJob vaux vddio j).dev.fuses.arbImage ∧
      counterVal (s.stoppedJob vaux vddio j).dev.fuses.arbImage ≤ j.goal) ∧
    (j.cmd = .writeBoard → (s.stoppedJob vaux vddio j).dev.fuses = s.dev.fuses ∧
      ∀ a, (a < boardBase ∨ boardBase + 4096 ≤ a) → (s.stoppedJob vaux vddio j).dev.flash.read a 1 = s.dev.flash.read a 1) := by
  have dev : (s.sampled vaux vddio).dev = s.dev := by simp [State.sampled]
  unfold State.stoppedJob
  generalize s.sampled vaux vddio = v at *
  unfold State.jobWrites at writes
  unfold State.mboxAbandon
  dsimp only
  cases cmd : j.cmd with
  | writeSlot => exact ⟨fun _ => dev, nofun, nofun, nofun⟩
  | activate => exact ⟨nofun, nofun, nofun, nofun⟩
  | commit =>
    rw [cmd] at writes
    have short : counterVal (s.dev.fuses.fw j.sub) < j.goal := by simpa using writes
    obtain ⟨low, high⟩ := partGoal_bounds v (le_of_lt short)
    obtain ⟨flash, -, others, value⟩ := finishCommit_spec { v with freeIdx := v.freeIdx + 4096 } j.sub
      (v.partGoal (counterVal (v.dev.fuses.fw j.sub)) j.goal)
    refine ⟨nofun, fun _ => ⟨flash.trans (by rw [dev]), ?_, ?_, fun k ne => (others k ne).trans (by rw [dev])⟩, nofun, nofun⟩
    · dsimp only at value ⊢
      rw [value, dev]
      exact Nat.le_max_left _ _
    · dsimp only at value ⊢
      rw [value, dev]
      omega
  | advanceImage =>
    rw [cmd] at writes
    have short : counterVal s.dev.fuses.arbImage < j.goal := by simpa using writes
    obtain ⟨low, high⟩ := partGoal_bounds v (le_of_lt short)
    obtain ⟨flash, -, value⟩ := finishAdvance_spec { v with freeIdx := v.freeIdx + 4096 }
      (v.partGoal (counterVal v.dev.fuses.arbImage) j.goal)
    refine ⟨nofun, nofun, fun _ => ⟨flash.trans (by rw [dev]), ?_, ?_⟩, nofun⟩
    · dsimp only at value ⊢
      rw [value, dev]
      exact Nat.le_max_left _ _
    · dsimp only at value ⊢
      rw [value, dev]
      omega
  | writeBoard =>
    obtain ⟨fuses, others⟩ := finishBoard_spec { v with freeIdx := v.freeIdx + 4096 } (freeBytes v.freeIdx 4096)
    have len : (freeBytes v.freeIdx 4096).length = 4096 := by simp [freeBytes]
    rw [len] at others
    refine ⟨nofun, nofun, nofun, fun _ => ⟨fuses.trans (by rw [dev]), fun a out => (others a out).trans ?_⟩⟩
    dsimp only
    rw [dev]

theorem inhibit_logged (s : State) (st : W16) : logged st unitSage 0 noCtx noFn 0 s (s.inhibit st) := by
  have base := elog_logged (s.count .SAGE_CNT_INHIBIT 0) st unitSage 0 noCtx noFn 0
  have merge : regOk .ICU_ELOG_MERGE_MS 0 0 = true := regOk_merge
  unfold State.inhibit State.mboxEnd
  generalize (s.count .SAGE_CNT_INHIBIT 0).elog st unitSage 0 noCtx noFn 0 = v at *
  obtain ⟨log, head⟩ := raise_log ((v.setMbox none).mboxStatus st) 10
  refine logged_congr base (by simp [State.count]) (by simp [State.count]) (by simp [State.count])
    (count_reg_other s merge (.inl (by decide))).symm ?_ ?_
  · rw [log]
    simp [State.mboxStatus, State.setMbox]
  · rw [head]
    simp [State.mboxStatus, State.setMbox]

/-- A job that the rails stop is told of, and counted (R451). -/
theorem stopped_told (s : State) (vaux vddio : Nat) (j : MboxJob) : let t := (s.stoppedJob vaux vddio j).inhibit 0x8021#16
    mailboxEnds 0x8021#16 s t ∧ t.reg .SAGE_CNT_INHIBIT 0 0 = counted (s.reg .SAGE_CNT_INHIBIT 0 0) ∧
    logged 0x8021#16 10 0 0xFFFF 0xFF 0 s t ∧ t.dev = (s.stoppedJob vaux vddio j).dev ∧
    t.reg .SAGE_SUPPLY 0 0 = (s.sampled vaux vddio).reg .SAGE_SUPPLY 0 0 := by
  obtain ⟨-, count, supply⟩ := regOk_mbox
  have k := stoppedJob_keeps s vaux vddio j
  have shown : (s.stoppedJob vaux vddio j).reg .SAGE_SUPPLY 0 0 = (s.sampled vaux vddio).reg .SAGE_SUPPLY 0 0 :=
    (mboxAbandon_keeps (.refl (s.sampled vaux vddio)) j (Within.mem _)).reg_eq (by decide) (by decide) supply
  generalize s.stoppedJob vaux vddio j = v at *
  obtain ⟨ends, dev, counts⟩ := inhibit_spec (.refl v) 0x8021#16 rfl
  have log := inhibit_logged v 0x8021#16
  have icu := k.icu_eq (by decide)
  have inhibits := (inhibit_keeps (.refl v) 0x8021#16 (Within.mem _)).reg_eq (by decide) (by decide) supply
  refine ⟨mailboxEnds_of k ends, ?_, ?_, dev, inhibits.trans shown⟩
  · rw [counts, k.reg_eq (by decide) (by decide) count]
  · exact logged_congr log (by rw [icu]) (by rw [icu]) (by rw [k.thy_eq (by decide)])
      (k.reg_eq (by decide) (by decide) regOk_merge).symm rfl rfl

theorem supplySample_spec (vaux vddio : Nat) (s : State) : ∃ t, exec (.supplySample vaux vddio) s = .next t ∧
    (∀ j, s.sage.mbox = some j → s.jobWrites j = true → (vaux < 3050 ∨ vddio < 1700) →
      t = (s.stoppedJob vaux vddio j).inhibit 0x8021#16) ∧
    ((s.sage.mbox = none ∨ (∃ j, s.sage.mbox = some j ∧ s.jobWrites j = false) ∨ ¬ (vaux < 3050 ∨ vddio < 1700)) →
      t = s.sampled vaux vddio) := by
  cases found : s.sage.mbox with
  | none =>
    refine ⟨s.sampled vaux vddio, ?_, nofun, fun _ => rfl⟩
    change execSupplySample vaux vddio s = _
    unfold execSupplySample
    rw [found]
    rfl
  | some j =>
    refine ⟨if (!(3050 ≤ vaux && 1700 ≤ vddio) && s.jobWrites j) = true then (s.stoppedJob vaux vddio j).inhibit 0x8021#16
      else s.sampled vaux vddio, ?_, fun i same writes low => ?_, fun out => ?_⟩
    · change execSupplySample vaux vddio s = _
      unfold execSupplySample
      rw [found]
      rfl
    · cases same
      rw [if_pos]
      simp only [writes, Bool.and_true, Bool.not_eq_true', Bool.and_eq_false_iff, decide_eq_false_iff_not]
      omega
    · rw [if_neg]
      rcases out with h | ⟨i, same, idle⟩ | high
      · cases h
      · cases same
        simp [idle]
      · simp only [Bool.and_eq_true, Bool.not_eq_true', Bool.and_eq_false_iff, decide_eq_false_iff_not, not_and]
        omega

/-- Settles O32: a command's end is `mailboxComplete_spec` with what each leaves, a switch `switched_spec`, and a stopped job
`stopped_told` and `stoppedJob_dev`. -/
theorem mailboxEndsAndSwitches : Obligations.MailboxEndsAndSwitches := by
  refine ⟨fun s => ?_, fun k n s => ?_, fun vaux vddio s => ?_⟩
  · obtain ⟨t, ran, idle, busy⟩ := mailboxComplete_spec s
    have k := execMailboxCommandComplete_keeps (.refl s) (Within.mem _)
    change KeepsOut _ s (exec .mailboxCommandComplete s) at k
    rw [ran] at k
    refine completes_of ran k (by decide) ⟨idle, fun j found => ?_⟩
    obtain ⟨waits, ends⟩ := busy j found
    have dev {c : MboxCmd} (cmd : j.cmd = c) (other : c ≠ .activate) : t.dev = (s.mboxFinish j).dev :=
      (ends fun h => other (cmd.symm.trans h.1)).2
    obtain ⟨slot, commit, image, board⟩ := mboxFinish_cases s j
    refine ⟨waits, fun h => (ends h).1, fun cmd => ?_, fun cmd => ?_, fun cmd => ?_, fun cmd seq sub => ?_⟩
    · rw [dev cmd (by decide), commit cmd]
      obtain ⟨flash, image, others, value⟩ := finishCommit_spec s j.sub j.goal
      refine ⟨flash, image, fun k => ?_⟩
      by_cases own : k = j.sub
      · rw [if_pos own, own]
        exact value
      · rw [if_neg own]
        exact congrArg counterVal (others k own)
    · rw [dev cmd (by decide), image cmd]
      exact finishAdvance_spec s j.goal
    · rw [dev cmd (by decide), board cmd]
      obtain ⟨fuses, others⟩ := finishBoard_spec s (Mem.readList s.dram.bytes j.addr 4096)
      rw [Mem.readList_length] at others
      exact ⟨fuses, fun i hi => finishBoard_bytes s j.addr 4096 hi, others⟩
    · rw [dev cmd (by decide), slot cmd]
      exact finishSlot_spec seq sub
  · refine completes_of rfl (execFirmwareSwitch_keeps (.refl s) k n (Within.mem _)) (by decide) ?_
    by_cases may : s.maySwitch k n = true
    · rw [if_pos may]
      obtain ⟨slots, weir, last, more⟩ := switched_spec may rfl
      simp only [ne_eq, lastSwitch_iff] at last more
      exact ⟨slots, weir, last, more⟩
    · rw [if_neg may]
      exact when_neg s may _
  · obtain ⟨t, ran, stops, shows⟩ := supplySample_spec vaux vddio s
    have k := execSupplySample_keeps (.refl s) vaux vddio (Within.mem _)
    change KeepsOut _ s (exec (.supplySample vaux vddio) s) at k
    rw [ran] at k
    refine completes_of ran k (by decide) ⟨?_, fun j found writes low => ?_, fun idle => ?_⟩
    · rw [← sampled_reg s vaux vddio]
      cases found : s.sage.mbox with
      | none => rw [shows (.inl found)]
      | some j =>
        by_cases stopped : s.jobWrites j = true ∧ (vaux < 3050 ∨ vddio < 1700)
        · rw [stops j found stopped.1 stopped.2]
          exact (stopped_told s vaux vddio j).2.2.2.2
        · refine congrArg (fun x => x.reg .SAGE_SUPPLY 0 0) (shows ?_)
          by_cases writes : s.jobWrites j = true
          · exact .inr (.inr fun low => stopped ⟨writes, low⟩)
          · exact .inr (.inl ⟨j, found, by simpa using writes⟩)
    · rw [stops j found writes low]
      obtain ⟨ends, counts, log, dev, -⟩ := stopped_told s vaux vddio j
      rw [dev]
      obtain ⟨slot, commit, image, board⟩ := stoppedJob_dev s vaux vddio j writes
      exact ⟨ends, counts, log, slot, commit, image, board⟩
    · rw [shows idle]
      have k := sampled_keeps s vaux vddio
      exact ⟨k.sage_eq (by decide), by simp [State.sampled], k.icu_eq (by decide)⟩

end Sys2Proof.Machine
end

section
/-! SUPPORT. SPDM and MCTP (R441 to R447, R359). -/

set_option Elab.async false

namespace Sys2Proof.Machine

variable {cs : Comp → Prop} {u : State}

/-! ## SPDM -/

@[simp] theorem send_out (s : State) (m : OutMsg) : (s.send m).out = s.out ++ [m] := rfl

@[simp] theorem reg_send (s : State) (m : OutMsg) (r : Reg) (k i : Nat) : (s.send m).reg r k i = s.reg r k i := reg_congr rfl r k i

theorem spdm_busy (s : State) (tr : Transport) (c : SpdmCode) (bad : Bool) (req : List Byte) :
    s.spdm tr c bad true req = s.send (.spdmReply tr true []) := rfl

theorem spdm_error {s : State} {tr : Transport} {c : SpdmCode} {bad : Bool}
    (h : c = .other ∨ bad = true ∨ c ≠ .getVersion ∧ s.connection tr = none) (req : List Byte) : s.spdm tr c bad false req =
      ((s.count .SAGE_CNT_SPDM 0).elog Status.spdmError unitSage 0 noCtx noFn 0).send (.spdmReply tr true []) := by
  unfold State.spdm
  rw [if_neg (by decide), if_pos]
  refine h.imp id (Or.imp id fun late => ⟨late.1, ?_⟩)
  rw [State.versionSeen, late.2]
  rfl

/-- A request that Sage answers, and its connection (R444). -/
def State.spdmAnswered (s : State) (tr : Transport) (c : SpdmCode) (req : List Byte) : State :=
  State.send ({ s with freeIdx := s.freeIdx + 1 }.setConnection tr (s.spdmBefore tr c ++ [req])) (.spdmReply tr false
    (s.spdmAnswer tr c req))

theorem spdm_answer {s : State} {tr : Transport} {c : SpdmCode} (known : c ≠ .other) (in_order : c = .getVersion ∨ s.connection tr ≠ none)
    (req : List Byte) : s.spdm tr c false false req = s.spdmAnswered tr c req := by
  unfold State.spdm
  rw [if_neg (by decide), if_neg]
  · rfl
  · rintro (h | h | ⟨late, h⟩)
    · exact known h
    · cases h
    · have seen := in_order.resolve_left late
      rw [State.versionSeen, Option.isSome_iff_ne_none.2 seen] at h
      cases h

theorem connection_setConnection (s : State) (tr x : Transport) (c : List (List Byte)) :
    (s.setConnection tr c).connection x = if x = tr then some c else s.connection x := by
  cases tr <;> cases x <;> rfl

theorem spdmAnswered_spec (s : State) (tr : Transport) (c : SpdmCode) (req : List Byte) :
    (s.spdmAnswered tr c req).out = s.out ++ [.spdmReply tr false (s.spdmAnswer tr c req)] ∧
    (s.spdmAnswered tr c req).connection tr = some (s.spdmBefore tr c ++ [req]) ∧
    (∀ x, x ≠ tr → (s.spdmAnswered tr c req).connection x = s.connection x) ∧ (s.spdmAnswered tr c req).icu = s.icu := by
  have conn (x : Transport) : (s.spdmAnswered tr c req).connection x = if x = tr then some (s.spdmBefore tr c ++ [req])
      else s.connection x := by
    unfold State.spdmAnswered
    have sent (t : State) (m : OutMsg) : (t.send m).connection x = t.connection x := by
      cases x <;> (unfold State.connection; simp)
    rw [sent, connection_setConnection]
    rfl
  refine ⟨?_, by rw [conn, if_pos rfl], fun x ne => by rw [conn, if_neg ne], ?_⟩
  · unfold State.spdmAnswered State.setConnection
    cases tr <;> rfl
  · unfold State.spdmAnswered State.setConnection
    cases tr <;> rfl

/-- What Sage answers depends on these alone. -/
theorem spdmAnswer_congr {s t : State} (dev : t.dev = s.dev) (sage : t.sage = s.sage) (ldr : t.ldr = s.ldr) (free : t.freeIdx = s.freeIdx)
    (tr : Transport) (c : SpdmCode) (req : List Byte) : t.spdmAnswer tr c req = s.spdmAnswer tr c req := by
  have conn : t.connection tr = s.connection tr := by
    unfold State.connection
    rw [sage]
  unfold State.spdmAnswer State.spdmBefore State.spdmInput State.certChain State.measurements State.newUcode State.slotDigest
    State.imageLoaded
  rw [dev, sage, ldr, free, conn]

theorem spdm_congr {s t : State} (dev : t.dev = s.dev) (sage : t.sage = s.sage) (ldr : t.ldr = s.ldr) (free : t.freeIdx = s.freeIdx)
    (out : t.out = s.out) (count : t.reg .SAGE_CNT_SPDM 0 0 = s.reg .SAGE_CNT_SPDM 0 0) (tr : Transport) (c : SpdmCode) (bad busy : Bool)
    (req : List Byte) : (t.spdm tr c bad busy req).out = (s.spdm tr c bad busy req).out ∧
      (t.spdm tr c bad busy req).sage = (s.spdm tr c bad busy req).sage ∧
      (t.spdm tr c bad busy req).reg .SAGE_CNT_SPDM 0 0 = (s.spdm tr c bad busy req).reg .SAGE_CNT_SPDM 0 0 := by
  have ok : regOk .SAGE_CNT_SPDM 0 0 = true := by decide +kernel
  have conn : t.connection tr = s.connection tr := by
    unfold State.connection
    rw [sage]
  have told (v : State) : (((v.count .SAGE_CNT_SPDM 0).elog Status.spdmError unitSage 0 noCtx noFn 0).send (.spdmReply tr true [])).reg
      .SAGE_CNT_SPDM 0 0 = counted (v.reg .SAGE_CNT_SPDM 0 0) := by
    rw [reg_send, (elog_keeps (.refl _) _ _ _ _ _ _ (Within.mem _)).reg_eq (by decide) (by decide) ok, count_reg _ _ _ ok]
    rfl
  cases busy with
  | true =>
    rw [spdm_busy, spdm_busy]
    refine ⟨?_, sage, ?_⟩
    · unfold State.send
      rw [out]
    · exact (reg_congr rfl _ _ _).trans (count.trans (reg_congr rfl _ _ _).symm)
  | false =>
    by_cases bad' : c = .other ∨ bad = true ∨ c ≠ .getVersion ∧ s.connection tr = none
    · rw [spdm_error bad', spdm_error (by rwa [conn]), told, told, count]
      refine ⟨by simp [State.count, out], by simp [State.count, sage], rfl⟩
    · simp only [not_or, not_and, ne_eq] at bad'
      obtain ⟨known, good, seen⟩ := bad'
      obtain rfl : bad = false := by simpa using good
      have in_order : c = .getVersion ∨ s.connection tr ≠ none := by
        by_cases v : c = .getVersion
        · exact .inl v
        · exact .inr (seen v)
      rw [spdm_answer known in_order, spdm_answer known (by rwa [conn])]
      refine ⟨?_, ?_, ?_⟩
      · rw [(spdmAnswered_spec t tr c req).1, (spdmAnswered_spec s tr c req).1, out, spdmAnswer_congr dev sage ldr free]
      · have before : t.spdmBefore tr c = s.spdmBefore tr c := by
          unfold State.spdmBefore
          rw [conn]
        unfold State.spdmAnswered State.setConnection State.send
        cases tr
        · dsimp only
          rw [sage, before]
        · dsimp only
          rw [sage, before]
      · have same (v : State) : (v.spdmAnswered tr c req).regs = v.regs := by
          unfold State.spdmAnswered State.setConnection State.send
          cases tr <;> rfl
        rw [reg_congr (same t), reg_congr (same s), count]

/-! ## MCTP -/

theorem regOk_odrov : regOk .ODROV_CNT_RX 0 0 = true ∧ regOk .ODROV_CNT_ERR 0 0 = true ∧ regOk .WEIR_CAP_ODROV_MW 0 0 = true ∧
    regOk .SAGE_CNT_SPDM 0 0 = true ∧ regOk .WEIR_TJ_C 0 0 = true := by decide +kernel

/-- A message that has arrived, before it is answered (R446). -/
def State.mctpSeen (s : State) : State := (s.count .ODROV_CNT_RX 0).raise 17

/-- No pending bit is lost. -/
def PendMono (s t : State) : Prop := ∀ j, s.icu.pend.getLsbD j = true → t.icu.pend.getLsbD j = true

theorem PendMono.trans {s t v : State} (h : PendMono s t) (g : PendMono t v) : PendMono s v := fun j on => g j (h j on)

theorem PendMono.of_icu {s t : State} (h : t.icu = s.icu) : PendMono s t := by
  unfold PendMono
  rw [h]
  exact fun _ => id

theorem mctpSeen_reg (s : State) {r : Reg} (source : .reg r ∉ Comp.source) (rx : r ≠ .ODROV_CNT_RX) (ok : regOk r 0 0 = true) :
    s.mctpSeen.reg r 0 0 = s.reg r 0 0 := by
  unfold State.mctpSeen
  rw [raise_reg _ _ _ _ _ source ok, count_reg_other _ ok (.inl rx)]

theorem mctpSeen_rx (s : State) : s.mctpSeen.reg .ODROV_CNT_RX 0 0 = counted (s.reg .ODROV_CNT_RX 0 0) := by
  obtain ⟨ok, -⟩ := regOk_odrov
  unfold State.mctpSeen
  rw [raise_reg _ _ _ _ _ (by decide) ok, count_reg _ _ _ ok]
  rfl

theorem mctpSeen_raised (s : State) : raised 17 s s.mctpSeen :=
  setReg_raise_raised s (r := .ODROV_CNT_RX) 0 0 _ (k := 17) (by decide) (by decide)

theorem mctpSeen_fields (s : State) : s.mctpSeen.out = s.out ∧ s.mctpSeen.dev = s.dev ∧ s.mctpSeen.sage = s.sage ∧
    s.mctpSeen.weir = s.weir ∧ s.mctpSeen.ldr = s.ldr ∧ s.mctpSeen.freeIdx = s.freeIdx := by
  unfold State.mctpSeen State.count
  simp

theorem mctpSeen_cond (s : State) {j : Nat} (h : j ≠ 17) : s.mctpSeen.icu.cond.getLsbD j = s.icu.cond.getLsbD j := by
  unfold State.mctpSeen
  rw [raise_cond_other _ _ h]
  simp [State.count]

theorem mctpSeen_src (s : State) : s.mctpSeen.srcMode 11 = s.srcMode 11 := by
  unfold State.mctpSeen State.count
  exact (srcMode_congr (raise_reg _ _ _ _ _ (by decide) (regOk_src (by decide)))).trans (srcMode_updReg s 0 0 _ (by decide) (by decide))

theorem sensor_congr {s t : State} (weir : t.weir = s.weir) (dev : t.dev = s.dev)
    (tj : t.reg .WEIR_TJ_C 0 0 = s.reg .WEIR_TJ_C 0 0) (id : Nat) (st : Bool) : t.sensor id st = s.sensor id st := by
  have hot : t.hottest = s.hottest := by
    unfold State.hottest
    rw [regNat_congr tj]
  have limits : t.thermalEngaged = s.thermalEngaged := by
    unfold State.thermalEngaged State.clusters State.clPwr
    rw [weir, dev]
  unfold State.sensor State.coolantHeld
  rw [weir, hot, limits]

/-! ## The cap (R358, R359) -/

theorem sprintCheck_icu (s : State) : PendMono s s.sprintCheck := by
  unfold State.sprintCheck
  split
  · exact (sprintEnd_icu s (by decide) 0).2.2.2.2
  · exact fun _ => id

theorem odrovCap_spec (s : State) (w : Nat) : (s.odrovCap w).reg .WEIR_CAP_ODROV_MW 0 0 = BitVec.ofNat 64 (w * 1000) ∧
    (s.odrovCap w).out = s.out ∧ PendMono s (s.odrovCap w) ∧
    (s.reg .WEIR_CAP_ODROV_MW 0 0 ≠ BitVec.ofNat 64 (w * 1000) → raised 11 s (s.odrovCap w)) := by
  obtain ⟨-, -, ok, -⟩ := regOk_odrov
  unfold State.odrovCap
  dsimp only
  by_cases same : s.reg .WEIR_CAP_ODROV_MW 0 0 = BitVec.ofNat 64 (w * 1000)
  · rw [if_pos same]
    exact ⟨same, rfl, fun _ => id, fun ne => absurd same ne⟩
  · rw [if_neg same]
    have told := setReg_raise_raised s (r := .WEIR_CAP_ODROV_MW) 0 0 (BitVec.ofNat 64 (w * 1000)) (k := 11) (by decide) (by decide)
    have value : ((s.setReg .WEIR_CAP_ODROV_MW 0 0 (BitVec.ofNat 64 (w * 1000))).raise 11).reg .WEIR_CAP_ODROV_MW 0 0 =
        BitVec.ofNat 64 (w * 1000) := by
      rw [raise_reg _ _ _ _ _ (by decide) ok, reg_setReg_self _ _ ok]
    have out : ((s.setReg .WEIR_CAP_ODROV_MW 0 0 (BitVec.ofNat 64 (w * 1000))).raise 11).out = s.out := by simp
    have mono : PendMono s ((s.setReg .WEIR_CAP_ODROV_MW 0 0 (BitVec.ofNat 64 (w * 1000))).raise 11) := fun j on =>
      raise_mono 11 (by simpa using on)
    generalize (s.setReg .WEIR_CAP_ODROV_MW 0 0 (BitVec.ofNat 64 (w * 1000))).raise 11 = v at *
    have k := sprintCheck_keeps (.refl v) (Within.mem _)
    have later := sprintCheck_icu v
    exact ⟨(k.reg_eq (by decide) (by decide) ok).trans value, (k.out_eq (by decide)).trans out, mono.trans later,
      fun _ => raised_congr told rfl rfl rfl (later 11)⟩

/-! ## What Odrov answers -/

theorem spdm_mono (s : State) (tr : Transport) (c : SpdmCode) (bad : Bool) (req : List Byte) :
    PendMono s (s.spdm tr c bad false req) ∧ (s.spdm tr c bad false req).reg .ODROV_CNT_RX 0 0 = s.reg .ODROV_CNT_RX 0 0 := by
  obtain ⟨ok, -⟩ := regOk_odrov
  refine ⟨?_, (spdm_keeps (.refl s) tr c bad false req (Within.mem _)).reg_eq (by decide) (by decide) ok⟩
  unfold State.spdm
  rw [if_neg (by decide)]
  split
  · have log : PendMono (s.count .SAGE_CNT_SPDM 0) ((s.count .SAGE_CNT_SPDM 0).elog Status.spdmError unitSage 0 noCtx noFn 0) :=
      fun j on => elog_mono _ _ _ _ _ _ on
    exact (PendMono.of_icu (s := s) (t := s.count .SAGE_CNT_SPDM 0) (by simp [State.count])).trans (log.trans (.of_icu rfl))
  · refine .of_icu ?_
    unfold State.setConnection
    cases tr <;> rfl

/-- An answer keeps what the arrival of its message has counted and raised. -/
theorem mctpBody_mono (s : State) (b : Binding) (m : MctpBody) :
    PendMono s (s.mctpBody b m) ∧ (s.mctpBody b m).reg .ODROV_CNT_RX 0 0 = s.reg .ODROV_CNT_RX 0 0 := by
  obtain ⟨ok, -⟩ := regOk_odrov
  have sent (v : State) (x : OutMsg) : PendMono v (v.send x) ∧ (v.send x).reg .ODROV_CNT_RX 0 0 = v.reg .ODROV_CNT_RX 0 0 :=
    ⟨.of_icu rfl, reg_send _ _ _ _ _⟩
  cases m with
  | setEndpointId eid =>
    unfold State.mctpBody State.setEid
    cases b
    · exact ⟨.of_icu rfl, reg_congr rfl _ _ _⟩
    · exact ⟨.of_icu rfl, reg_congr rfl _ _ _⟩
  | control req => exact sent _ _
  | pldmSetCap w =>
    unfold State.mctpBody
    dsimp only
    split
    · exact sent _ _
    · split
      · exact sent _ _
      · obtain ⟨-, -, mono, -⟩ := odrovCap_spec s w
        refine ⟨mono.trans (.of_icu rfl), ?_⟩
        rw [reg_send]
        exact (odrovCap_keeps (.refl s) w (Within.mem _)).reg_eq (by decide) (by decide) ok
  | pldmSensor id st =>
    unfold State.mctpBody
    dsimp only
    split
    · exact sent _ _
    · split
      · exact sent _ _
      · exact sent _ _
  | pldmBase req =>
    unfold State.mctpBody
    dsimp only
    split
    · exact sent _ _
    · exact sent _ _
  | pldmOther => exact sent _ _
  | spdm c bad req =>
    unfold State.mctpBody
    dsimp only
    cases s.sageRuns with
    | true => exact spdm_mono s .mctp c bad req
    | false => exact ⟨fun _ => id, rfl⟩
  | other =>
    exact ⟨.of_icu (by simp [State.mctpBody, State.count]), count_reg_other s ok (.inl (by decide))⟩

theorem execMctpMessage_eq {s : State} {b : Binding} (on : s.dev.life ≠ .noAux ∧ s.dev.life ≠ .auxReset ∧ s.bindingOn b = true ∧
    ¬ (s.dev.life = .standby ∧ b = .vdm)) (m : MctpBody) : s.mctp b m = s.mctpSeen.mctpBody b m := by
  obtain ⟨aux, reset, enabled, standby⟩ := on
  unfold State.mctp
  rw [when_eq s]
  · rfl
  · rw [not_and] at standby
    cases life : s.dev.life <;> simp_all

/-- An MCTP message that is taken (R446, R447). -/
theorem mctp_spec (s : State) (b : Binding) (m : MctpBody) : let t := s.mctpSeen.mctpBody b m
    let ao : Prop := s.dev.life ≠ .ready ∧ s.dev.life ≠ .recovery
    (∀ eid, m = .setEndpointId eid →
      t.sage.eidSmb = (if b = .smbus then eid % 256 else s.sage.eidSmb) ∧
      t.sage.eidVdm = (if b = .vdm then eid % 256 else s.sage.eidVdm) ∧
      sends [.mctpReply b (Config.protocolReply (leBytes 1 eid))] s t) ∧
    (∀ req, m = .control req → sends [.mctpReply b (Config.protocolReply req)] s t ∧ t.sage = s.sage) ∧
    (∀ w, m = .pldmSetCap w →
      (¬ ao → capInRange s.dev.part w = true →
        t.reg .WEIR_CAP_ODROV_MW 0 0 = BitVec.ofNat 64 (w * 1000) ∧ sends [.mctpReply b []] s t ∧
        (s.reg .WEIR_CAP_ODROV_MW 0 0 ≠ BitVec.ofNat 64 (w * 1000) → raised 11 s t)) ∧
      (¬ ao → capInRange s.dev.part w = false → sends [.pldmError b .outOfRange] s t ∧
        t.reg .WEIR_CAP_ODROV_MW 0 0 = s.reg .WEIR_CAP_ODROV_MW 0 0)) ∧
    (∀ id st, m = .pldmSensor id st → ¬ ao → sends [match s.sensor id st with
      | some v => .mctpReply b (leBytes 1 (min 255 v))
      | none => .pldmError b .outOfRange] s t) ∧
    (∀ req, m = .pldmBase req → ¬ ao → sends [.mctpReply b (Config.protocolReply req)] s t) ∧
    (m = .pldmOther → ¬ ao → sends [.pldmError b .invalidType] s t) ∧
    (ao → ((∃ w, m = .pldmSetCap w) ∨ (∃ id st, m = .pldmSensor id st) ∨ (∃ req, m = .pldmBase req) ∨ m = .pldmOther) →
      sends [.pldmError b .notReady] s t ∧ t.reg .WEIR_CAP_ODROV_MW 0 0 = s.reg .WEIR_CAP_ODROV_MW 0 0) ∧
    (m = .other → t.out = s.out ∧ t.reg .ODROV_CNT_ERR 0 0 = counted (s.reg .ODROV_CNT_ERR 0 0)) := by
  intro t ao
  obtain ⟨-, err, cap, -, tj⟩ := regOk_odrov
  obtain ⟨out, dev, sage, weir, ldr, free⟩ := mctpSeen_fields s
  have capSeen := mctpSeen_reg s (r := .WEIR_CAP_ODROV_MW) (by decide) (by decide) cap
  have errSeen := mctpSeen_reg s (r := .ODROV_CNT_ERR) (by decide) (by decide) err
  have sensors := sensor_congr weir dev (mctpSeen_reg s (r := .WEIR_TJ_C) (by decide) (by decide) tj)
  have raised11 {v : State} (h : raised 11 s.mctpSeen v) : raised 11 s v :=
    raised_congr h (clocked_congr dev).symm (mctpSeen_src s).symm (mctpSeen_cond s (by decide)).symm id
  have t_eq : t = s.mctpSeen.mctpBody b m := rfl
  have ao_iff : s.mctpSeen.aoOnly = true ↔ ao := by
    unfold State.aoOnly
    rw [dev]
    simp [ao]
  clear_value t ao
  generalize s.mctpSeen = v at *
  have sent (x : OutMsg) (h : t = v.send x) : sends [x] s t := by
    rw [h]
    unfold sends
    rw [send_out, out]
  have quiet (x : OutMsg) (h : t = v.send x) : t.reg .WEIR_CAP_ODROV_MW 0 0 = s.reg .WEIR_CAP_ODROV_MW 0 0 := by
    rw [h, reg_send, capSeen]
  refine ⟨?_, ?_, ?_, ?_, ?_, ?_, fun only pldm => ?_, ?_⟩
  · rintro eid rfl
    have told : t = (v.setEid b eid).send (.mctpReply b (Config.protocolReply (leBytes 1 eid))) := t_eq
    have out' : (v.setEid b eid).out = s.out := by
      unfold State.setEid
      cases b <;> exact out
    refine ⟨?_, ?_, by rw [told]; unfold sends; rw [send_out, out']⟩
    · rw [told]
      unfold State.setEid
      cases b
      · rfl
      · change v.sage.eidSmb = s.sage.eidSmb
        rw [sage]
    · rw [told]
      unfold State.setEid
      cases b
      · change v.sage.eidVdm = s.sage.eidVdm
        rw [sage]
      · rfl
  · rintro req rfl
    exact ⟨sent _ t_eq, by rw [show t = v.send _ from t_eq]; simp [sage]⟩
  · rintro w rfl
    unfold State.mctpBody at t_eq
    dsimp only at t_eq
    refine ⟨fun run fits => ?_, fun run out => ?_⟩
    · rw [if_neg (fun h => run (ao_iff.1 h)), if_neg (by simp [dev, fits])] at t_eq
      obtain ⟨value, out', -, told⟩ := odrovCap_spec v w
      rw [t_eq]
      refine ⟨by rw [reg_send, value], by unfold sends; rw [send_out, out', out], fun differs => raised11 ?_⟩
      exact told (by rwa [capSeen])
    · rw [if_neg (fun h => run (ao_iff.1 h)), if_pos (by simp [dev, out])] at t_eq
      exact ⟨sent _ t_eq, quiet _ t_eq⟩
  · rintro id st rfl run
    unfold State.mctpBody at t_eq
    dsimp only at t_eq
    rw [if_neg (fun h => run (ao_iff.1 h)), sensors] at t_eq
    cases found : s.sensor id st with
    | some x =>
      rw [found] at t_eq
      exact sent _ t_eq
    | none =>
      rw [found] at t_eq
      exact sent _ t_eq
  · rintro req rfl run
    unfold State.mctpBody at t_eq
    dsimp only at t_eq
    rw [if_neg (fun h => run (ao_iff.1 h))] at t_eq
    exact sent _ t_eq
  · rintro rfl run
    unfold State.mctpBody at t_eq
    dsimp only at t_eq
    rw [if_neg (fun h => run (ao_iff.1 h))] at t_eq
    exact sent _ t_eq
  · have told : t = v.send (.pldmError b .notReady) := by
      rw [t_eq]
      unfold State.mctpBody
      rcases pldm with ⟨w, rfl⟩ | ⟨id, st, rfl⟩ | ⟨req, rfl⟩ | rfl
      · exact if_pos (ao_iff.2 only)
      · exact if_pos (ao_iff.2 only)
      · exact if_pos (ao_iff.2 only)
      · dsimp only
        rw [if_pos (ao_iff.2 only)]
    exact ⟨sent _ told, quiet _ told⟩
  · rintro rfl
    have told : t = v.count .ODROV_CNT_ERR 0 := t_eq
    rw [told]
    refine ⟨by simp [State.count, out], ?_⟩
    rw [count_reg _ _ _ err, errSeen]
    rfl

/-- Settles O33: Sage's answers are `spdm_error` and `spdmAnswered_spec`, Odrov's `mctp_spec`. -/
theorem spdmAndMctpMessages : Obligations.SpdmAndMctpMessages := by
  refine ⟨fun tr c bad busy req s => ?_, fun b m s => ?_⟩
  · refine completes_if ?_ rfl (execSpdmRequest_keeps (.refl s) tr c bad busy req (Within.mem _)) (by decide) fun _ => ?_
    · unfold State.sageRuns State.ready
      cases s.sage.keys <;> simp
    · refine ⟨?_, ?_, ?_⟩
      · rintro rfl
        rw [spdm_busy]
        exact ⟨rfl, (send_keeps (cs := fun c => c ∈ [Comp.out]) (.refl s) _ (Within.mem _)).changesOnly⟩
      · rintro rfl bad'
        obtain ⟨-, -, -, ok, -⟩ := regOk_odrov
        rw [spdm_error bad']
        have log := elog_logged (s.count .SAGE_CNT_SPDM 0) Status.spdmError unitSage 0 noCtx noFn 0
        refine ⟨by unfold sends; rw [send_out]; simp [State.count], ?_, ?_, by simp [State.count]⟩
        · rw [reg_send, (elog_keeps (.refl _) _ _ _ _ _ _ (Within.mem _)).reg_eq (by decide) (by decide) ok, count_reg _ _ _ ok]
          rfl
        · exact logged_congr log (by simp [State.count]) (by simp [State.count]) (by simp [State.count])
            (count_reg_other s regOk_merge (.inl (by decide))).symm rfl rfl
      · rintro rfl known rfl in_order
        rw [spdm_answer known in_order]
        exact spdmAnswered_spec s tr c req
  · by_cases on : s.dev.life ≠ .noAux ∧ s.dev.life ≠ .auxReset ∧ s.bindingOn b = true ∧ ¬ (s.dev.life = .standby ∧ b = .vdm)
    · refine completes_of rfl (execMctpMessage_keeps (.refl s) b m (Within.mem _)) (by decide +kernel) ?_
      rw [if_pos on, execMctpMessage_eq on]
      obtain ⟨mono, rx⟩ := mctpBody_mono s.mctpSeen b m
      obtain ⟨eid, control, cap, sensor, base, other, ao, unknown⟩ := mctp_spec s b m
      refine ⟨rx.trans (mctpSeen_rx s), raised_congr (mctpSeen_raised s) rfl rfl rfl (mono 17), eid, control, cap, sensor, base, other,
        ao, unknown, ?_⟩
      rintro c bad req rfl
      refine ⟨s.when s.sageRuns (fun s => s.spdm .mctp c bad false req), rfl, ?_⟩
      obtain ⟨-, -, -, ok, -⟩ := regOk_odrov
      obtain ⟨out, dev, sage, weir, ldr, free⟩ := mctpSeen_fields s
      have count := mctpSeen_reg s (r := .SAGE_CNT_SPDM) (by decide) (by decide) ok
      have runs : s.mctpSeen.sageRuns = s.sageRuns := by
        unfold State.sageRuns State.ready
        rw [dev, sage]
      unfold State.mctpBody
      dsimp only
      rw [runs]
      cases s.sageRuns with
      | true =>
        rw [when_true, when_true]
        exact spdm_congr dev sage ldr free out count _ _ _ _ _
      | false => exact ⟨out, sage, count⟩
    · refine completes_of rfl (execMctpMessage_keeps (.refl s) b m (Within.mem _)) (by decide +kernel) ?_
      rw [if_neg on]
      refine when_neg s (fun h => on ?_) _
      simpa [and_assoc, imp_iff_not_or] using h

end Sys2Proof.Machine
end

section
/-! SUPPORT. Image commands (R53 to R57, R63 to R72, R474). -/

set_option Elab.async false

namespace Sys2Proof.Machine

variable {cs : Comp → Prop} {u : State}

/-! ## Source 0, and the ends of image commands -/

/-- Nothing that decides an edge of source `i` has changed. -/
structure SrcKept (i : Nat) (s v : State) : Prop where
  dev : v.dev = s.dev
  mode : v.srcMode i = s.srcMode i
  cond : CondKept i s v

theorem SrcKept.refl {i : Nat} (s : State) : SrcKept i s s := ⟨rfl, rfl, rfl⟩

theorem SrcKept.trans {i : Nat} {s v w : State} (h : SrcKept i s v) (g : SrcKept i v w) : SrcKept i s w :=
  ⟨g.dev.trans h.dev, g.mode.trans h.mode, h.cond.trans g.cond⟩

theorem SrcKept.of_keeps {i : Nat} (hi : i < 512) {cs : List Comp} {s v : State} (k : Keeps (fun c => c ∈ cs) s v) (cond : CondKept i s v)
    (dev : ∀ c ∈ Comp.allDev, c ∉ cs := by decide) (all : .regs ∉ cs := by decide) (src : .reg .ICU_SRC_CFG ∉ cs := by decide) :
    SrcKept i s v :=
  ⟨k.dev_eq dev, srcMode_congr (k.reg_eq all src (regOk_src hi)), cond⟩

theorem SrcKept.of_eq {i : Nat} {s v : State} (dev : v.dev = s.dev) (regs : v.regs = s.regs) (icu : v.icu = s.icu) : SrcKept i s v :=
  ⟨dev, srcMode_congr (reg_congr regs _ _ _), .of_icu icu⟩

theorem SrcKept.raised {i : Nat} {s v t : State} (k : SrcKept i s v) (h : raised i v t) : raised i s t :=
  raised_congr h (clocked_congr k.dev).symm k.mode.symm (k.cond : _ = _).symm id

theorem SrcKept.raise {i : Nat} (hi : i < 512) {s v : State} (k : SrcKept i s v) : Sys2Proof.Machine.raised i s (v.raise i) :=
  k.raised (raise_raised hi v)

/-- The loader with a failure's registers (R61). -/
def Loader.failed (l : Loader) (e : LoadErr) : Loader :=
  { l with
    status := e.status, failSection := BitVec.ofNat 16 e.sec, failEntry := BitVec.ofNat 32 e.entry
    failNeed := BitVec.ofNat 64 e.need, failHave := BitVec.ofNat 64 e.got }

theorem imgFail_spec {s v : State} (k : SrcKept 0 s v) (e : LoadErr) : raised 0 s (v.imgFail e) ∧ (v.imgFail e).ldr = v.ldr.failed e ∧
    (v.imgFail e).pools = v.pools := by
  refine ⟨SrcKept.raise (by decide) (k.trans (.of_eq rfl rfl rfl)), ?_, ?_⟩
  · unfold State.imgFail
    rw [(raise_fields _ 0).2.2.2.2.2.1]
    rfl
  · unfold State.imgFail
    simp [State.setLdr]

theorem imgDone_spec {s v : State} (k : SrcKept 0 s v) : raised 0 s v.imgDone ∧ v.imgDone.ldr = { v.ldr with status := 0 } ∧
    v.imgDone.pools = v.pools ∧ v.imgDone.dram = v.dram := by
  refine ⟨SrcKept.raise (by decide) (k.trans (.of_eq rfl rfl rfl)), ?_, ?_, ?_⟩
  · unfold State.imgDone
    rw [(raise_fields _ 0).2.2.2.2.2.1]
    rfl
  · unfold State.imgDone State.imgStatus
    simp [State.setLdr]
  · unfold State.imgDone State.imgStatus
    simp [State.setLdr]

theorem loadRefused_spec {s v : State} (k : SrcKept 0 s v) (e : LoadErr) : raised 0 s (v.loadRefused e) ∧
    (v.loadRefused e).ldr = Loader.failed { v.ldr with state := .refused, load := none, placing := false } e ∧
    (v.loadRefused e).pools = v.pools :=
  imgFail_spec (k.trans (v := v) (.of_eq (v := v.setLdr { v.ldr with state := .refused, load := none, placing := false }) rfl rfl rfl)) e

/-! ## Placement -/

theorem memPoison_status {s : State} {port a n : Nat} {st : W16} (h : s.memPoison port a n = some st) : st ∈ [0x5020#16, 0x5021#16] := by
  unfold State.memPoison at h
  split at h
  · rcases poisonIn_status h with rfl | rfl
    · decide
    · decide
  · cases h

theorem putBlock_srcKept (s : State) (port a : Nat) (data : List Byte) {i : Nat} (hi : i < 512) (log : i ≠ 6) :
    SrcKept i s (s.putBlock port a data) :=
  .of_keeps hi (putBlock_keeps (.refl s) port a data (Within.mem _)) (otherSources_putBlock s port a data i log).2.2

theorem visit_srcKept (s : State) (port a n : Nat) {i : Nat} (hi : i < 512) (log : i ≠ 6) (advice : ∀ d, i ≠ 13 + 2 * d) :
    SrcKept i s (s.visit port a n) :=
  .of_keeps hi (visit_keeps (.refl s) port a n (Within.mem _)) (visit_condKept log advice s port a n)

/-- A placement leaves source 0, and stops at poison or at a partial write that is discarded (R474). -/
theorem placePieces_spec (s : State) (sec src load : Nat) (ps : List (Nat × List Byte)) :
    SrcKept 0 s (s.placePieces sec src load ps).1 ∧
    ∀ e, (s.placePieces sec src load ps).2 = some e → e.status ∈ [0x5020#16, 0x5021#16, 0x5022#16] := by
  induction ps generalizing s with
  | nil => exact ⟨.refl s, nofun⟩
  | cons p ps ih =>
    obtain ⟨a, bs⟩ := p
    have seen := visit_srcKept s portFw (src + (a - load)) bs.length (i := 0) (by decide) (by decide) (by omega)
    have put := seen.trans (putBlock_srcKept (s.visit portFw (src + (a - load)) bs.length) portFw a bs (i := 0) (by decide) (by decide))
    unfold State.placePieces
    dsimp only
    split
    · next st found =>
      refine ⟨seen, fun e h => ?_⟩
      cases h
      have := memPoison_status found
      simp only [List.mem_cons, List.not_mem_nil, or_false] at this ⊢
      exact this.elim .inl (.inr ∘ .inl)
    · split
      · refine ⟨put, fun e h => ?_⟩
        cases h
        change Status.partialDiscarded ∈ _
        decide
      · obtain ⟨kept, fails⟩ := ih ((s.visit portFw (src + (a - load)) bs.length).putBlock portFw a bs)
        exact ⟨put.trans kept, fails⟩

theorem placeAll_spec (s : State) (g : Stage) (ds : List DirEnt) :
    SrcKept 0 s (s.placeAll g ds).1 ∧ ∀ e, (s.placeAll g ds).2 = some e → e.status ∈ [0x5020#16, 0x5021#16, 0x5022#16] := by
  induction ds generalizing s with
  | nil => exact ⟨.refl s, nofun⟩
  | cons d ds ih =>
    unfold State.placeAll
    obtain ⟨kept, fails⟩ := placePieces_spec s d.idx (g.at d) d.load
      (pieces (d.len / 64 + 2) d.load (Mem.readList s.dram.bytes (g.at d) d.len))
    split
    · next s1 e found =>
      rw [found] at kept fails
      exact ⟨kept, fails⟩
    · next s1 found =>
      rw [found] at kept
      obtain ⟨kept', fails'⟩ := ih s1
      exact ⟨kept.trans kept', fails'⟩

theorem placeAll_fields {s s1 : State} {g : Stage} {ds : List DirEnt} {r : Option LoadErr} (h : s.placeAll g ds = (s1, r)) :
    SrcKept 0 s s1 ∧ s1.ldr = s.ldr ∧ s1.pools = s.pools ∧
    ∀ e, r = some e → e.status ∈ [0x5020#16, 0x5021#16, 0x5022#16] := by
  obtain ⟨kept, fails⟩ := placeAll_spec s g ds
  have k := placeAll_keepsq (.refl s) (Within.mem _) h
  rw [h] at kept fails
  exact ⟨kept, k.ldr_eq (by decide), k.pools_eq (by decide), fails⟩

/-! ## Checks -/

theorem firstErr_none {es : List (Option LoadErr)} (h : firstErr es = none) : ∀ e ∈ es, e = none := by
  induction es with
  | nil => simp
  | cons e es ih =>
    cases e with
    | none =>
      intro x mem
      rcases List.mem_cons.1 mem with rfl | mem
      · rfl
      · exact ih h x mem
    | some e => cases h

/-- A load whose checks pass has a frame map (R320, step 17 of Table 2.16). -/
theorem buildMap_of_checked {s : State} {j : LoadJob} {v : Verdict} (h : s.checkImage j false v = none) :
    ∃ m, s.buildMap (s.stageOf j false) (s.parseBase (s.stageOf j false)) = .inr m := by
  unfold State.checkImage at h
  dsimp only at h
  split at h
  · cases h
  · split at h
    · cases h
    · have capacity := firstErr_none h (s.checkCapacity (s.stageOf j false) (s.stagedImage (s.stageOf j false))) (by simp)
      have same : s.stagedImage (s.stageOf j false) = s.parseBase (s.stageOf j false) := rfl
      rw [same] at capacity
      have map := firstErr_none capacity (s.mapCheck (s.stageOf j false) (s.parseBase (s.stageOf j false))) (by simp)
      unfold State.mapCheck at map
      split at map
      · next m found => exact ⟨m, found⟩
      · cases map

theorem passLoad_spec (s : State) (j : LoadJob) (v : Verdict) :
    (∀ e, s.checkImage j false v = some e → s.passLoad j v = s.loadRefused e) ∧
    (s.checkImage j false v = none → SrcKept 0 s (s.passLoad j v) ∧ (s.passLoad j v).ldr = { s.ldr with placing := true } ∧
      (s.passLoad j v).pools = s.pools ∧ (s.passLoad j v).dram.windows = [] ∧
      s.buildMap (s.stageOf j false) (s.parseBase (s.stageOf j false)) = .inr (s.passLoad j v).dram.frameMap ∧
      ∀ a, j.addr ≤ a → a < j.addr + j.len → (s.passLoad j v).dramByte a = s.dramByte a) := by
  refine ⟨fun e bad => ?_, fun good => ?_⟩
  · unfold State.passLoad
    rw [bad]
  · obtain ⟨m, found⟩ := buildMap_of_checked good
    have passed : s.passLoad j v = ((s.visit portFw j.addr j.len).remap (s.stageOf j false) m).setLdr { s.ldr with placing := true } := by
      unfold State.passLoad
      rw [good]
      dsimp only
      rw [found]
    have seen := visit_srcKept s portFw j.addr j.len (i := 0) (by decide) (by decide) (by omega)
    have k := visit_keeps (.refl s) portFw j.addr j.len (Within.mem _)
    rw [passed]
    refine ⟨seen.trans (.of_eq rfl rfl rfl), rfl, k.pools_eq (by decide), rfl, found, fun a low high => ?_⟩
    have bytes : (s.visit portFw j.addr j.len).dram.bytes = s.dram.bytes := k.dram.bytes.resolve_left (by decide)
    unfold State.dramByte State.remap State.setLdr State.stageOf Mem.read
    dsimp only
    rw [SMap.get_keep, if_pos (by simp [low, high]), bytes]

/-! ## Building -/

theorem dramPut_srcKept (s : State) (port a : Nat) (data : List Byte) {i : Nat} (hi : i < 512) (log : i ≠ 6) :
    SrcKept i s (s.dramPut port a data) :=
  .of_keeps hi (dramPut_keeps (.refl s) port a data (Within.mem _)) (otherSources_putPieces s port _ i log).2.2

/-- No pool is being reinitialised. -/
def NoReinit (s : State) : Prop := ∀ p ∈ s.pools, p.reinit = false

theorem initPools_spec (s : State) (ps : List Pool) (fresh : NoReinit s) : SrcKept 0 s (s.initPools ps) ∧ NoReinit (s.initPools ps) := by
  induction ps generalizing s with
  | nil => exact ⟨.refl s, fresh⟩
  | cons p ps ih =>
    have put := dramPut_srcKept s portCistern p.ringAddr (padBlock (handleBytes p.handles)) (i := 0) (by decide) (by decide)
    have pools := (dramPut_keeps (.refl s) portCistern p.ringAddr (padBlock (handleBytes p.handles)) (Within.mem _)).pools_eq (by decide)
    have one : SrcKept 0 s (s.initPool p) := put.trans (.of_eq rfl rfl rfl)
    have still : NoReinit (s.initPool p) := by
      intro q mem
      obtain ⟨r, old, rfl⟩ := List.mem_map.1 mem
      rw [pools] at old
      split
      · rfl
      · exact fresh r old
    obtain ⟨kept, after⟩ := ih (s.initPool p) still
    exact ⟨one.trans kept, after⟩

theorem build_spec (s : State) (g : Stage) (i : Image) : SrcKept 0 s (s.build g i) ∧ NoReinit (s.build g i) ∧
    (s.build g i).ldr.state = .loaded ∧ (s.build g i).ldr.load = none ∧ (s.build g i).ldr.placing = false ∧
    (s.build g i).ldr.swapCount = 0 ∧ (s.ldr.locked = true → (s.build g i).ldr.locked = true) := by
  unfold State.build
  dsimp only
  generalize start : ({ s.setLdr _ with pools := _, ing := _ } : State) = v
  have kept : SrcKept 0 s v := by
    rw [← start]
    exact .of_eq rfl rfl rfl
  have fresh : NoReinit v := by
    rw [← start]
    intro p mem
    obtain ⟨x, -, rfl⟩ := List.mem_map.1 mem
    rfl
  have ldr : v.ldr.state = .loaded ∧ v.ldr.load = none ∧ v.ldr.placing = false ∧ v.ldr.swapCount = 0 ∧
      (s.ldr.locked = true → v.ldr.locked = true) := by
    rw [← start]
    refine ⟨rfl, rfl, rfl, rfl, fun locked => ?_⟩
    change (s.ldr.locked || _) = true
    rw [locked]
    rfl
  generalize ({ i with scratch := i.placeScratch.1 } : Image).poolList = ps
  obtain ⟨inits, after⟩ := initPools_spec v ps fresh
  have k := initPools_keeps (.refl v) ps (Within.mem _)
  have r := residency_keeps (.refl (v.initPools ps)) (Within.mem _)
  have ldr' : (v.initPools ps).residency.ldr = v.ldr := (r.ldr_eq (by decide)).trans (k.ldr_eq (by decide))
  have pools' : (v.initPools ps).residency.pools = (v.initPools ps).pools := r.pools_eq (by decide)
  have resident : SrcKept 0 (v.initPools ps) (v.initPools ps).residency := .of_keeps (by decide) r (.of_icu (r.icu_eq (by decide)))
  generalize (v.initPools ps).residency = w at *
  refine ⟨SrcKept.trans ((kept.trans inits).trans resident) ?_, ?_, ?_⟩
  · exact .of_eq rfl rfl rfl
  · change ∀ p ∈ w.pools, p.reinit = false
    rw [pools']
    exact after
  · change w.ldr.state = _ ∧ w.ldr.load = _ ∧ w.ldr.placing = _ ∧ w.ldr.swapCount = _ ∧ (_ → w.ldr.locked = _)
    rw [ldr']
    exact ldr

theorem placeLoad_spec {s v : State} (k : SrcKept 0 s v) (j : LoadJob) : raised 0 s (v.placeLoad j) ∧ (v.placeLoad j).ldr.load = none ∧
    (v.placeLoad j).ldr.placing = false ∧
    ((v.placeLoad j).ldr.state = .loaded ∧ (v.placeLoad j).ldr.status = 0 ∧ (v.placeLoad j).ldr.swapCount = 0 ∧
        (v.ldr.locked = true → (v.placeLoad j).ldr.locked = true) ∧ NoReinit (v.placeLoad j) ∨
      (v.placeLoad j).ldr.state = .refused ∧ (v.placeLoad j).ldr.status ∈ [0x5020#16, 0x5021#16, 0x5022#16] ∧
        (v.placeLoad j).pools = v.pools) := by
  unfold State.placeLoad
  dsimp only
  split
  · next s1 e placed =>
    obtain ⟨kept, -, pools, fails⟩ := placeAll_fields placed
    obtain ⟨told, ldr, pools'⟩ := loadRefused_spec (k.trans kept) e
    rw [ldr]
    exact ⟨told, rfl, rfl, .inr ⟨rfl, fails e rfl, pools'.trans pools⟩⟩
  · next s1 placed =>
    obtain ⟨kept, ldr1, -, -⟩ := placeAll_fields placed
    obtain ⟨built, fresh, state, load, placing, count, locked⟩ := build_spec s1 (v.stageOf j false) (v.parseBase (v.stageOf j false))
    generalize s1.build (v.stageOf j false) (v.parseBase (v.stageOf j false)) = w at *
    obtain ⟨told, ldr, pools, -⟩ := imgDone_spec ((k.trans kept).trans built)
    rw [ldr]
    refine ⟨told, load, placing, .inl ⟨state, rfl, count, fun h => locked (by rw [ldr1, h]), ?_⟩⟩
    change ∀ p ∈ w.imgDone.pools, _
    rw [pools]
    exact fresh

/-! ## Kills -/

/-- A core as a kill of its command leaves it (R126). -/
def State.killedCore (s : State) (n : Nat) : Core := if s.coreRuns n = true then (s.core n).kill else { s.core n with killed := true }

/-- A core runs a command of context `ctx`. -/
def Core.runsFor (c : Core) (ctx : Nat) : Prop := (c.st = .running ∨ c.st = .committing) ∧ c.ctx = ctx

/-- The kill of one core. -/
def State.killStep (s : State) (ctx n : Nat) : State :=
  if ((s.core n).st == .running || (s.core n).st == .committing) && (s.core n).ctx = ctx then s.setCore n (s.killedCore n) else s

theorem killCores_cons (s : State) (ctx n : Nat) (ns : List Nat) : s.killCores ctx (n :: ns) = (s.killStep ctx n).killCores ctx ns := rfl

theorem killStep_core (s : State) (ctx n k : Nat) : (s.killStep ctx n).coreRuns k = s.coreRuns k ∧
    (k = n → (s.core k).runsFor ctx → (s.killStep ctx n).core k = s.killedCore k) ∧
    (¬ (k = n ∧ (s.core k).runsFor ctx) → (s.killStep ctx n).core k = s.core k) := by
  have cond : (((s.core n).st == .running || (s.core n).st == .committing) && (s.core n).ctx = ctx) = true ↔ (s.core n).runsFor ctx := by
    unfold Core.runsFor
    simp
  unfold State.killStep
  by_cases runs : (s.core n).runsFor ctx
  · rw [if_pos (cond.2 runs)]
    refine ⟨rfl, fun own _ => ?_, fun other => ?_⟩
    · rw [core_setCore, if_pos own, own]
    · rw [core_setCore, if_neg]
      rintro rfl
      exact other ⟨rfl, runs⟩
  · rw [if_neg fun h => runs (cond.1 h)]
    exact ⟨rfl, fun own runs' => absurd (own ▸ runs') runs, fun _ => rfl⟩

/-- A core that has been killed already changes no more. -/
theorem killedCore_again {s t : State} {k : Nat} (core : t.core k = s.killedCore k) (runs : t.coreRuns k = s.coreRuns k) {ctx : Nat}
    (h : (t.core k).runsFor ctx) : t.killedCore k = s.killedCore k := by
  unfold State.killedCore at core ⊢
  rw [runs]
  by_cases on : s.coreRuns k = true
  · rw [if_pos on] at core
    rw [core] at h
    unfold Core.runsFor Core.kill at h
    rcases h.1 with st | st <;> cases st
  · rw [if_neg on] at core ⊢
    rw [core, if_neg on]

/-- The cores of a list that run for a context are killed, and no other. -/
theorem killCores_core (s : State) (ctx : Nat) (ns : List Nat) (k : Nat) : (s.killCores ctx ns).coreRuns k = s.coreRuns k ∧
    (k ∈ ns → (s.core k).runsFor ctx → (s.killCores ctx ns).core k = s.killedCore k) ∧
    (¬ (k ∈ ns ∧ (s.core k).runsFor ctx) → (s.killCores ctx ns).core k = s.core k) := by
  induction ns generalizing s with
  | nil => exact ⟨rfl, fun h => absurd h (by simp), fun _ => rfl⟩
  | cons n ns ih =>
    rw [killCores_cons]
    obtain ⟨runs, hit, miss⟩ := killStep_core s ctx n k
    obtain ⟨runs', hits, misses⟩ := ih (s.killStep ctx n)
    refine ⟨runs'.trans runs, fun mem on => ?_, fun out => ?_⟩
    · by_cases own : k = n
      · have killed := hit own on
        by_cases more : k ∈ ns ∧ ((s.killStep ctx n).core k).runsFor ctx
        · rw [hits more.1 more.2, killedCore_again killed runs more.2]
        · rw [misses more, killed]
      · have same := miss fun h => own h.1
        have listed := (List.mem_cons.1 mem).resolve_left own
        rw [hits listed (same ▸ on)]
        unfold State.killedCore
        rw [runs, same]
    · have same := miss fun h => out ⟨List.mem_cons.2 (.inl h.1), h.2⟩
      rw [misses fun h => out ⟨List.mem_cons_of_mem _ h.1, same ▸ h.2⟩, same]

/-- The cores of every context of a list are killed (R65). -/
theorem killAll_core (s : State) (cs : List Nat) (k : Nat) : (s.killAll cs).coreRuns k = s.coreRuns k ∧
    (k < 32 → (∃ c ∈ cs, (s.core k).runsFor c) → (s.killAll cs).core k = s.killedCore k) ∧
    (¬ (k < 32 ∧ ∃ c ∈ cs, (s.core k).runsFor c) → (s.killAll cs).core k = s.core k) := by
  induction cs generalizing s with
  | nil => exact ⟨rfl, fun _ h => absurd h (by simp), fun _ => rfl⟩
  | cons c cs ih =>
    unfold State.killAll
    obtain ⟨runs, hit, miss⟩ := killCores_core s c (List.range 32) k
    obtain ⟨runs', hits, misses⟩ := ih (s.killCores c (List.range 32))
    rw [List.mem_range] at hit miss
    refine ⟨runs'.trans runs, fun small on => ?_, fun out => ?_⟩
    · by_cases own : (s.core k).runsFor c
      · have killed := hit small own
        by_cases more : k < 32 ∧ ∃ d ∈ cs, ((s.killCores c (List.range 32)).core k).runsFor d
        · obtain ⟨d, mem, again⟩ := more.2
          rw [hits small ⟨d, mem, again⟩, killedCore_again killed runs again]
        · rw [misses more, killed]
      · have same := miss fun h => own h.2
        obtain ⟨d, mem, on⟩ := on
        have listed := (List.mem_cons.1 mem).resolve_left (fun h => own (h ▸ on))
        rw [hits small ⟨d, listed, by rw [same]; exact on⟩]
        unfold State.killedCore
        rw [runs, same]
    · have same := miss fun h => out ⟨h.1, c, by simp, h.2⟩
      rw [misses fun ⟨small, d, mem, on⟩ => out ⟨small, d, List.mem_cons_of_mem _ mem, same ▸ on⟩, same]

end Sys2Proof.Machine
end

section
/-! SUPPORT. The load, lock and unload of an image (R53 to R57, R63 to R65). -/

set_option Elab.async false

namespace Sys2Proof.Machine

variable {cs : Comp → Prop} {u : State}

theorem glbUp_of_ready {s : State} (h : s.dev.life = .ready) : s.glbUp = true := by
  unfold State.glbUp State.ready
  rw [h]
  rfl

theorem glbUp_of_recovery {s : State} (h : s.dev.life = .recovery) : s.glbUp = true := by
  unfold State.glbUp
  rw [h]
  simp

/-! ## Load -/

theorem imgLoad_recovery {s : State} (h : s.dev.life = .recovery) : raised 0 s s.imgLoad ∧ s.imgLoad.ldr = { s.ldr with
    state := .refused, load := none, placing := false, status := s.dev.recovery,
    failSection := 0xFFFF, failEntry := 0, failNeed := 0, failHave := 0 } := by
  have same : s.imgLoad = s.loadRefused (loadErr s.dev.recovery noSec 0) := if_pos h
  obtain ⟨told, ldr, -⟩ := loadRefused_spec (.refl s) (loadErr s.dev.recovery noSec 0)
  rw [same]
  exact ⟨told, ldr⟩

theorem imgLoad_busy {s : State} (h : s.dev.life = .ready) (busy : s.loaderBusy = true) : s.imgLoad = s.imgStatus Status.loaderBusy := by
  unfold State.imgLoad
  rw [if_neg (by rw [h]; decide), if_pos busy]

theorem imgLoad_held {s : State} (h : s.dev.life = .ready) (busy : s.loaderBusy = false) (held : s.ldr.locked = true ∨ s.ldr.state = .loaded) :
    s.imgLoad = s.imgStatus Status.notPermitted := by
  unfold State.imgLoad
  rw [if_neg (by rw [h]; decide), if_neg (by simp [busy]), if_pos (by simpa using held)]

theorem imgLoad_taken {s : State} (h : s.dev.life = .ready) (busy : s.loaderBusy = false) (free : s.ldr.locked = false)
    (empty : s.ldr.state ≠ .loaded) : s.imgLoad = s.setLdr { s.ldr with state := .loading, load := some s.sampleJob } := by
  unfold State.imgLoad
  rw [if_neg (by rw [h]; decide), if_neg (by simp [busy]), if_neg (by simp [free, empty])]

/-! ## The two ends of a load -/

/-- What a load in progress does when its checks, or its placement, end. -/
def State.loadStep (s : State) (j : LoadJob) (e : LoadEvent) : State :=
  let s1 := if s.ldr.placing then s else s.passLoad j e.verdict
  if e.checks || !s1.ldr.placing then s1 else s1.placeLoad j

theorem loadComplete_waits {s : State} (e : LoadEvent) (h : s.ldr.load = none ∨ s.weir.coolant ≠ .none ∨ s.dev.dramMode ≠ .running) :
    exec (.imgLoadComplete e) s = .next s := by
  change execImgLoadComplete e s = _
  unfold execImgLoadComplete
  cases load : s.ldr.load with
  | none => rfl
  | some j =>
    refine congrArg _ (when_neg s ?_ _)
    unfold State.coolantHeld
    simp [load] at h
    rcases h with h | h
    · simp [h]
    · simp [h]

theorem loadComplete_eq {s : State} (e : LoadEvent) {j : LoadJob} (load : s.ldr.load = some j) (flow : s.weir.coolant = .none)
    (up : s.dev.dramMode = .running) : exec (.imgLoadComplete e) s = .next (s.loadStep j e) := by
  change execImgLoadComplete e s = _
  unfold execImgLoadComplete
  rw [load]
  refine congrArg _ (when_eq s ?_ _)
  unfold State.coolantHeld
  rw [flow, up]
  rfl

theorem loadStep_fails {s : State} {j : LoadJob} {c : Bool} {v : Verdict} {e : LoadErr} (fresh : s.ldr.placing = false)
    (bad : s.checkImage j false v = some e) : s.loadStep j ⟨c, v⟩ = s.loadRefused e := by
  have passed := (passLoad_spec s j v).1 e bad
  have placing : (s.loadRefused e).ldr.placing = false := by rw [(loadRefused_spec (.refl s) e).2.1]; rfl
  unfold State.loadStep
  dsimp only
  simp only [fresh, Bool.false_eq_true, if_false, passed, placing, Bool.not_false, Bool.or_true, if_true]

theorem loadStep_passes {s : State} {j : LoadJob} {v : Verdict} (fresh : s.ldr.placing = false) :
    s.loadStep j ⟨true, v⟩ = s.passLoad j v := by
  unfold State.loadStep
  simp only [fresh, Bool.false_eq_true, if_false, Bool.true_or, if_true]

theorem loadStep_still {s : State} {j : LoadJob} {v : Verdict} (placing : s.ldr.placing = true) : s.loadStep j ⟨true, v⟩ = s := by
  unfold State.loadStep
  simp only [placing, if_true, Bool.true_or]

theorem loadStep_places {s : State} {j : LoadJob} {v : Verdict} (h : s.ldr.placing = true ∨ s.checkImage j false v = none) :
    ∃ w, SrcKept 0 s w ∧ w.pools = s.pools ∧ w.ldr.locked = s.ldr.locked ∧ s.loadStep j ⟨false, v⟩ = w.placeLoad j := by
  unfold State.loadStep
  dsimp only
  by_cases placing : s.ldr.placing = true
  · refine ⟨s, .refl s, rfl, rfl, ?_⟩
    simp [placing]
  · obtain ⟨kept, ldr, pools, -⟩ := (passLoad_spec s j v).2 (h.resolve_left placing)
    refine ⟨s.passLoad j v, kept, pools, by rw [ldr], ?_⟩
    simp [placing, ldr]

/-! ## Lock and unload -/

theorem imgLock_loaded {s : State} (h : s.ldr.state = .loaded) : raised 0 s s.imgLock ∧
    s.imgLock.ldr = { s.ldr with locked := true, status := 0 } := by
  have same : s.imgLock = (s.setLdr { s.ldr with locked := true }).imgDone := if_pos h
  rw [same]
  obtain ⟨told, ldr, -⟩ := imgDone_spec (s := s) (v := s.setLdr { s.ldr with locked := true }) (.of_eq rfl rfl rfl)
  exact ⟨told, ldr⟩

theorem imgUnload_locked {s : State} (busy : s.loaderBusy = false) (loaded : s.ldr.state = .loaded) (locked : s.ldr.locked = true) :
    s.imgUnload = s.imgFail (loadErr Status.notPermitted noSec 0) := by
  unfold State.imgUnload
  rw [if_neg (by simp [busy]), if_neg (by simp [loaded]), if_pos locked]

/-- The state of an unload before the run of its image is taken away. -/
def State.unloadFrom (s : State) : State := (s.killAll (s.slu.cmds.map (·.1))).unloadRills (s.ing.rills.map (·.1))

theorem imgUnload_taken {s : State} (busy : s.loaderBusy = false) (loaded : s.ldr.state = .loaded) (free : s.ldr.locked = false) :
    s.imgUnload = s.unloadFrom.clearRun.setLdr { s.unloadFrom.clearRun.ldr with state := .unloading } := by
  unfold State.imgUnload
  rw [if_neg (by simp [busy]), if_neg (by simp [loaded]), if_neg (by simp [free])]
  rfl

theorem unloadFrom_ldr (s : State) : s.unloadFrom.ldr = s.ldr :=
  ((unloadRills_keeps (.refl _) _ (Within.mem _)).ldr_eq (by decide)).trans ((killAll_keeps (.refl s) _ (Within.mem _)).ldr_eq (by decide))

theorem unloadFrom_core (s : State) (n : Nat) : s.unloadFrom.core n =
    if n < 32 ∧ ((s.core n).st = .running ∨ (s.core n).st = .committing) ∧ (s.core n).ctx ∈ s.slu.cmds.map (·.1) then
      if s.coreRuns n = true then (s.core n).kill else { s.core n with killed := true }
    else s.core n := by
  have cores : s.unloadFrom.slu.cores = (s.killAll (s.slu.cmds.map (·.1))).slu.cores :=
    (unloadRills_keeps (.refl _) _ (Within.mem _)).slu.cores.resolve_left (by decide)
  have core : s.unloadFrom.core n = (s.killAll (s.slu.cmds.map (·.1))).core n := by
    unfold State.core
    rw [cores]
  obtain ⟨-, hit, miss⟩ := killAll_core s (s.slu.cmds.map (·.1)) n
  have iff : (∃ c ∈ s.slu.cmds.map (·.1), (s.core n).runsFor c) ↔
      ((s.core n).st = .running ∨ (s.core n).st = .committing) ∧ (s.core n).ctx ∈ s.slu.cmds.map (·.1) :=
    ⟨fun ⟨_, mem, on, own⟩ => ⟨on, own ▸ mem⟩, fun ⟨on, mem⟩ => ⟨_, mem, on, rfl⟩⟩
  rw [core]
  by_cases on : n < 32 ∧ ((s.core n).st = .running ∨ (s.core n).st = .committing) ∧ (s.core n).ctx ∈ s.slu.cmds.map (·.1)
  · rw [if_pos on]
    exact hit on.1 (iff.2 on.2)
  · rw [if_neg on]
    exact miss fun h => on ⟨h.1, iff.1 h.2⟩

/-- Settles O38: what each command's branch does to the loader, and what the kill of every command does to the cores. -/
theorem loadLockAndUnload : Obligations.LoadLockAndUnload := by
  refine ⟨⟨fun s => ?_, fun checks v s => ?_⟩, fun s => ?_, fun s => ?_, fun s => ?_⟩
  · refine completes_of rfl (execImgLoad_keeps (.refl s) (Within.mem _)) (by decide) ⟨fun down => when_neg s (by simp [down]) _, fun rec => ?_, fun up => ⟨?_, ?_, ?_⟩⟩
    · rw [when_eq s (glbUp_of_recovery rec)]
      exact imgLoad_recovery rec
    · intro busy
      rw [when_eq s (glbUp_of_ready up), imgLoad_busy up busy]
      rfl
    · intro busy held
      rw [when_eq s (glbUp_of_ready up), imgLoad_held up busy held]
      rfl
    · intro busy free empty
      rw [when_eq s (glbUp_of_ready up), imgLoad_taken up busy free empty]
      exact ⟨rfl, rfl⟩
  · have k := execImgLoadComplete_keeps (.refl s) ⟨checks, v⟩ (Within.mem _)
    change KeepsOut _ s (exec (.imgLoadComplete ⟨checks, v⟩) s) at k
    by_cases waits : s.ldr.load = none ∨ s.weir.coolant ≠ .none ∨ s.dev.dramMode ≠ .running
    · rw [loadComplete_waits _ waits] at k
      refine completes_of (loadComplete_waits _ waits) k (by decide +kernel) ⟨fun _ => rfl, fun j load flow up => ?_⟩
      simp [load, flow, up] at waits
    · simp only [ne_eq, not_or, not_not] at waits
      obtain ⟨some, flow, up⟩ := waits
      obtain ⟨j, load⟩ := Option.ne_none_iff_exists'.1 some
      have ran := loadComplete_eq ⟨checks, v⟩ load flow up
      rw [ran] at k
      refine completes_of ran k (by decide +kernel) ⟨fun h => ?_, fun j' load' _ _ => ?_⟩
      · simp [load, flow, up] at h
      · obtain rfl : j = j' := Option.some.inj (load.symm.trans load')
        refine ⟨fun e fresh bad => ?_, fun fresh good c => ?_, fun placing c => ?_, fun c h => ?_⟩
        · rw [loadStep_fails fresh bad]
          obtain ⟨told, ldr, -⟩ := loadRefused_spec (.refl s) e
          exact ⟨(loadRefused_keeps (.refl s) e (Within.mem _)).changesOnly.mono (by decide), told, ldr⟩
        · subst c
          rw [loadStep_passes fresh]
          obtain ⟨-, ldr, pools, windows, map, bytes⟩ := (passLoad_spec s j v).2 good
          exact ⟨ldr, windows, pools, map, bytes⟩
        · subst c
          exact loadStep_still placing
        · subst c
          obtain ⟨w, kept, pools, locked, same⟩ := loadStep_places h
          rw [same]
          obtain ⟨told, none, placed, ends⟩ := placeLoad_spec kept j
          rw [pools, locked] at ends
          exact ⟨told, none, placed, ends⟩
  · refine completes_of rfl (execImgLock_keeps (.refl s) (Within.mem _)) (by decide) ⟨fun down => when_neg s (by simp [down]) _, fun up loaded => ?_, fun up other => ?_⟩
    · rw [when_eq s up]
      exact imgLock_loaded loaded
    · rw [when_eq s up]
      exact if_neg other
  · refine completes_of rfl (execImgUnload_keeps (.refl s) (Within.mem _)) (by decide +kernel)
      ⟨fun down => when_neg s (by simp [down]) _, fun up busy => ?_, fun up busy other => ?_, fun up busy loaded locked => ?_, fun up busy loaded free => ?_⟩
    · rw [when_eq s up]
      exact if_pos busy
    · rw [when_eq s up]
      exact (if_neg (by simp [busy])).trans (if_pos (by simpa using other))
    · rw [when_eq s up, imgUnload_locked busy loaded locked]
      obtain ⟨told, ldr, -⟩ := imgFail_spec (.refl s) (loadErr Status.notPermitted noSec 0)
      exact ⟨(imgFail_keeps (.refl s) _ (Within.mem _)).changesOnly.mono (by decide), told, ldr⟩
    · rw [when_eq s up, imgUnload_taken busy loaded free]
      have ldr := unloadFrom_ldr s
      have core := unloadFrom_core s
      generalize s.unloadFrom = w at *
      refine ⟨?_, rfl, rfl, rfl, rfl, rfl, rfl, rfl, rfl, rfl, rfl, rfl, rfl, core⟩
      change { w.ldr with state := .unloading } = _
      rw [ldr]
  · refine completes_if (p := s.ldr.state = .unloading) (by simp) rfl (execImgUnloadComplete_keeps (.refl s) (Within.mem _)) (by decide) fun _ => ?_
    have kept : SrcKept 0 s (s.setLdr { s.ldr with
        state := .empty, image := Image.empty, segs := [], deterministic := false, signed := 0, chain := 0 }) := .of_eq rfl rfl rfl
    obtain ⟨told, ldr, -⟩ := imgDone_spec kept
    exact ⟨told, ldr⟩

end Sys2Proof.Machine
end

section
/-! SUPPORT. Swaps of a segment (R54, R55, R66 to R68, R71, R72). -/

set_option Elab.async false

namespace Sys2Proof.Machine

variable {cs : Comp → Prop} {u : State}

/-! ## A swap command -/

theorem imgSwap_busy {s : State} (v : Verdict) (busy : s.loaderBusy = true) : s.imgSwap v = s.imgStatus Status.loaderBusy := if_pos busy

theorem imgSwap_unloaded {s : State} (v : Verdict) (busy : s.loaderBusy = false) (other : s.ldr.state ≠ .loaded) :
    s.imgSwap v = s.imgStatus Status.notPermitted :=
  (if_neg (by simp [busy])).trans (if_pos (by simpa using other))

/-- A swap that comes too late (R67). -/
def State.swapLate (s : State) : Prop :=
  s.regNat .GLB_SWAP_TIME 0 0 = 0 ∧ s.ldr.deterministic = true ∨
    s.regNat .GLB_SWAP_TIME 0 0 ≠ 0 ∧ ∃ u, s.ldr.lastStamp = some u ∧ s.regNat .GLB_SWAP_TIME 0 0 ≤ u

theorem swapTooLate_iff {s : State} (loaded : s.ldr.state = .loaded) : s.swapTooLate s.sampleJob.swapTime = true ↔ s.swapLate := by
  have det : s.deterministic = s.ldr.deterministic := by
    unfold State.deterministic State.imageLoaded
    rw [loaded]
    exact Bool.true_and _
  unfold State.swapTooLate State.swapLate State.sampleJob
  dsimp only
  rw [det]
  generalize s.regNat .GLB_SWAP_TIME 0 0 = T
  by_cases zero : T = 0
  · simp [zero]
  · cases s.ldr.lastStamp <;> simp [zero]

theorem imgSwap_late {s : State} (v : Verdict) (busy : s.loaderBusy = false) (loaded : s.ldr.state = .loaded) (late : s.swapLate) :
    s.imgSwap v = s.imgFail (loadErr Status.swapTime noSec 0) := by
  unfold State.imgSwap
  rw [if_neg (by simp [busy]), if_neg (by simp [loaded])]
  dsimp only
  rw [if_pos ((swapTooLate_iff loaded).2 late)]

theorem imgSwap_bad {s : State} {v : Verdict} {e : LoadErr} (busy : s.loaderBusy = false) (loaded : s.ldr.state = .loaded)
    (timely : ¬ s.swapLate) (bad : s.checkImage s.sampleJob true v = some e) : s.imgSwap v = s.imgFail e := by
  unfold State.imgSwap
  rw [if_neg (by simp [busy]), if_neg (by simp [loaded])]
  dsimp only
  rw [if_neg (mt (swapTooLate_iff loaded).1 timely), bad]

theorem imgSwap_good {s : State} {v : Verdict} (busy : s.loaderBusy = false) (loaded : s.ldr.state = .loaded)
    (timely : ¬ s.swapLate) (good : s.checkImage s.sampleJob true v = none) :
    s.imgSwap v = s.setLdr { s.ldr with swap := some { s.sampleJob with seg := (s.stageOf s.sampleJob true).segOf } } := by
  unfold State.imgSwap
  rw [if_neg (by simp [busy]), if_neg (by simp [loaded])]
  dsimp only
  rw [if_neg (mt (swapTooLate_iff loaded).1 timely), good]

/-- A swap command leaves the image in service as it was. -/
theorem imgSwap_serves (s : State) (v : Verdict) : (s.imgSwap v).ldr.state = s.ldr.state ∧ (s.imgSwap v).ldr.segs = s.ldr.segs ∧
    (s.imgSwap v).ldr.image = s.ldr.image ∧ (s.imgSwap v).ldr.locked = s.ldr.locked := by
  have fails (e : LoadErr) := (imgFail_spec (.refl s) e).2.1
  by_cases busy : s.loaderBusy = true
  · rw [imgSwap_busy v busy]
    exact ⟨rfl, rfl, rfl, rfl⟩
  · rw [Bool.not_eq_true] at busy
    by_cases loaded : s.ldr.state = .loaded
    · by_cases late : s.swapLate
      · rw [imgSwap_late v busy loaded late, fails]
        exact ⟨rfl, rfl, rfl, rfl⟩
      · cases check : s.checkImage s.sampleJob true v with
        | some e =>
          rw [imgSwap_bad busy loaded late check, fails]
          exact ⟨rfl, rfl, rfl, rfl⟩
        | none =>
          rw [imgSwap_good busy loaded late check]
          exact ⟨rfl, rfl, rfl, rfl⟩
    · rw [imgSwap_unloaded v busy loaded]
      exact ⟨rfl, rfl, rfl, rfl⟩

/-! ## The end of a swap -/

theorem swapComplete_waits {s : State} (h : s.ldr.swap = none ∨ s.weir.coolant ≠ .none ∨ s.dev.dramMode ≠ .running) :
    exec .swapComplete s = .next s := by
  change execSwapComplete s = _
  unfold execSwapComplete
  cases swap : s.ldr.swap with
  | none => rfl
  | some j =>
    refine congrArg _ (when_neg s ?_ _)
    unfold State.coolantHeld
    simp [swap] at h
    rcases h with h | h
    · simp [h]
    · simp [h]

theorem swapComplete_eq {s : State} {j : LoadJob} (swap : s.ldr.swap = some j) (flow : s.weir.coolant = .none)
    (up : s.dev.dramMode = .running) : exec .swapComplete s = .next (s.endSwap j) := by
  change execSwapComplete s = _
  unfold execSwapComplete
  rw [swap]
  refine congrArg _ (when_eq s ?_ _)
  unfold State.coolantHeld
  rw [flow, up]
  rfl

/-- The records of the segments after a swap that completes. -/
def Loader.segsSwapped (l : Loader) (j : LoadJob) (placed : List Placed) (fbs : List FbEntry) : List SegRun :=
  updWhere (fun r => r.id = j.seg) (fun r => r.swapped j.swapTime (l.swapCount + 1) placed fbs) l.segs

theorem segsSwapped_spec (l : Loader) (j : LoadJob) (placed : List Placed) (fbs : List FbEntry) :
    (l.segsSwapped j placed fbs).map (·.id) = l.segs.map (·.id) ∧
    (∀ r ∈ l.segs, r.id = j.seg → ∃ q ∈ l.segsSwapped j placed fbs, q.id = j.seg ∧ q.activeB = !r.activeB ∧ q.retiring = true ∧
      q.oldPlaced = r.placed ∧ q.oldFbs = r.fbs ∧ q.switchT = j.swapTime ∧
      q.epoch = (l.swapCount + 1) % 65536 ∧ q.switchCount = l.swapCount + 1) ∧
    (∀ r ∈ l.segs, r.id ≠ j.seg → r ∈ l.segsSwapped j placed fbs) := by
  unfold Loader.segsSwapped updWhere
  refine ⟨?_, fun r mem own => ?_, fun r mem other => ?_⟩
  · rw [List.map_map]
    refine List.map_congr_left fun r _ => ?_
    dsimp only [Function.comp]
    split <;> rfl
  · exact ⟨r.swapped j.swapTime (l.swapCount + 1) placed fbs, List.mem_map.2 ⟨r, mem, by simp [own]⟩, own, rfl, rfl, rfl, rfl, rfl, rfl, rfl⟩
  · exact List.mem_map.2 ⟨r, mem, by simp [other]⟩

/-- Where the placement of a swap ends, and how. -/
theorem endSwap_places (s : State) (j : LoadJob) : ∃ v, SrcKept 0 s v ∧ v.ldr = s.ldr ∧
    ((∃ e : LoadErr, e.status ∈ [0x5020#16, 0x5021#16, 0x5022#16] ∧ s.endSwap j = (v.setLdr { v.ldr with swap := none }).imgFail e) ∨
      s.endSwap j = ((v.setLdr { v.ldr with
        swap := none, swapCount := v.ldr.swapCount + 1
        chain := Config.sha256 (leBytes 32 v.ldr.chain.toNat ++ leBytes 32 (v.signedDigest (s.stageOf j true)).toNat)
        segs := v.ldr.segsSwapped j (s.stageOf j true).placed (v.stagedFbs (s.stageOf j true)) }).setScanPending
          (v.regBit .INGEST_CTRL 0 0 0)).imgDone) := by
  have seen := visit_srcKept s portFw j.addr j.len (i := 0) (by decide) (by decide) (by omega)
  have ldr0 := (visit_keeps (.refl s) portFw j.addr j.len (Within.mem _)).ldr_eq (by decide)
  unfold State.endSwap
  dsimp only
  split
  · next v e placed =>
    obtain ⟨kept, ldr, -, fails⟩ := placeAll_fields placed
    exact ⟨v, seen.trans kept, ldr.trans ldr0, .inl ⟨e, fails e rfl, rfl⟩⟩
  · next v placed =>
    obtain ⟨kept, ldr, -, -⟩ := placeAll_fields placed
    exact ⟨v, seen.trans kept, ldr.trans ldr0, .inr rfl⟩

theorem endSwap_spec (s : State) (j : LoadJob) : raised 0 s (s.endSwap j) ∧ (s.endSwap j).ldr.swap = none ∧
    (s.endSwap j).ldr.state = s.ldr.state ∧ (s.endSwap j).ldr.image = s.ldr.image ∧ (s.endSwap j).ldr.locked = s.ldr.locked ∧
    ((s.endSwap j).ldr.status = 0 ∧ (s.endSwap j).ldr.swapCount = s.ldr.swapCount + 1 ∧
        (s.endSwap j).ldr.chain = Config.sha256 (leBytes 32 s.ldr.chain.toNat ++
          leBytes 32 ((s.endSwap j).signedDigest (s.stageOf j true)).toNat) ∧
        (∃ placed fbs, (s.endSwap j).ldr.segs = s.ldr.segsSwapped j placed fbs) ∨
      (s.endSwap j).ldr.status ∈ [0x5020#16, 0x5021#16, 0x5022#16] ∧ (s.endSwap j).ldr.segs = s.ldr.segs ∧
        (s.endSwap j).ldr.swapCount = s.ldr.swapCount ∧ (s.endSwap j).ldr.chain = s.ldr.chain) := by
  obtain ⟨v, kept, ldr, ⟨e, bad, same⟩ | same⟩ := endSwap_places s j
  · obtain ⟨told, l, -⟩ := imgFail_spec (s := s) (v := v.setLdr { v.ldr with swap := none }) (kept.trans (.of_eq rfl rfl rfl)) e
    rw [same, l]
    unfold State.setLdr Loader.failed
    rw [ldr]
    exact ⟨by unfold State.setLdr at told; rwa [ldr] at told, rfl, rfl, rfl, rfl, .inr ⟨bad, rfl, rfl, rfl⟩⟩
  · generalize placed : (s.stageOf j true).placed = ps at same
    generalize fbs : v.stagedFbs (s.stageOf j true) = fs at same
    generalize scan : v.regBit .INGEST_CTRL 0 0 0 = b at same
    generalize stage : s.stageOf j true = g at *
    generalize chain : Config.sha256 (leBytes 32 v.ldr.chain.toNat ++ leBytes 32 (v.signedDigest g).toNat) = c at same
    generalize w : (v.setLdr { v.ldr with
        swap := none, swapCount := v.ldr.swapCount + 1, chain := c, segs := v.ldr.segsSwapped j ps fs }).setScanPending b = x at same
    have keptx : SrcKept 0 s x := by
      refine kept.trans ?_
      rw [← w]
      exact .of_eq rfl rfl rfl
    have ldrx : x.ldr = { s.ldr with
        swap := none, swapCount := s.ldr.swapCount + 1, chain := c, segs := s.ldr.segsSwapped j ps fs } := by
      rw [← w, ← ldr]
      rfl
    have bytes : x.dram = v.dram := by
      rw [← w]
      rfl
    obtain ⟨told, l, -, dram⟩ := imgDone_spec keptx
    have digest : x.imgDone.signedDigest g = v.signedDigest g := by
      unfold State.signedDigest
      rw [dram, bytes]
    rw [same, l, ldrx, digest]
    exact ⟨told, rfl, rfl, rfl, rfl, .inl ⟨rfl, rfl, by rw [← chain, ldr], ps, fs, rfl⟩⟩

/-! ## Retirement -/

theorem updWhere_cons {α : Type} (p : α → Bool) (f : α → α) (x : α) (xs : List α) :
    updWhere p f (x :: xs) = (if p x then f x else x) :: updWhere p f xs := rfl

theorem find?_updWhere_self {α : Type} (id : α → Nat) (f : α → α) (same : ∀ x, id (f x) = id x) (g : Nat) (xs : List α) :
    (updWhere (fun x => id x = g) f xs).find? (fun x => id x = g) = (xs.find? (fun x => id x = g)).map f := by
  induction xs with
  | nil => rfl
  | cons x xs ih =>
    rw [updWhere_cons]
    by_cases own : id x = g
    · simp [own, same]
    · simpa [own] using ih

theorem find?_updWhere_other {α : Type} (id : α → Nat) (f : α → α) (same : ∀ x, id (f x) = id x) {g m : Nat} (other : m ≠ g) (xs : List α) :
    (updWhere (fun x => id x = g) f xs).find? (fun x => id x = m) = xs.find? (fun x => id x = m) := by
  induction xs with
  | nil => rfl
  | cons x xs ih =>
    rw [updWhere_cons]
    by_cases own : id x = g
    · simpa [own, same, other.symm] using ih
    · by_cases hit : id x = m
      · simp [hit, other]
      · simpa [own, hit] using ih

/-- What the retirement of a segment's old version needs (R71). -/
def State.mayRetire (s : State) (g : Nat) (r : SegRun) : Prop :=
  r.retiring = true ∧ s.switched r.switchT = true ∧ ∀ x ∈ s.inFlight (s.ctxsOfSeg g), r.isOld x.1 x.2 = false

theorem mayRetire_iff (s : State) (g : Nat) (r : SegRun) :
    (r.retiring && s.switched r.switchT && !(s.inFlight (s.ctxsOfSeg g)).any (fun x => r.isOld x.1 x.2)) = true ↔ s.mayRetire g r := by
  unfold State.mayRetire
  simp [and_assoc]

/-- A segment's record when its old version has retired. -/
def SegRun.retired (r : SegRun) : SegRun := { r with retiring := false, oldPlaced := [], oldFbs := [] }

/-- The loader after a segment's old version has retired. -/
def Loader.retire (l : Loader) (g : Nat) : Loader :=
  { l with segs := updWhere (fun x => x.id = g) SegRun.retired l.segs }

theorem segmentRetire_eq (s : State) (g : Nat) : ∃ t, exec (.segmentRetire g) s = .next t ∧
    (∀ r, s.ldr.segs.find? (fun r => r.id = g) = some r →
      (s.mayRetire g r → t = s.setLdr (s.ldr.retire g)) ∧ (¬ s.mayRetire g r → t = s)) ∧
    (s.ldr.segs.find? (fun r => r.id = g) = none → t = s) := by
  change ∃ t, execSegmentRetire g s = .next t ∧ _
  unfold execSegmentRetire
  cases found : s.ldr.segs.find? (fun r => r.id = g) with
  | none => exact ⟨s, rfl, nofun, fun _ => rfl⟩
  | some r =>
    refine ⟨_, rfl, fun r' same => ?_, nofun⟩
    cases same
    exact ⟨fun may => when_eq s ((mayRetire_iff s g r).2 may) _, fun may => when_neg s (mt (mayRetire_iff s g r).1 may) _⟩

/-- Settles O39: a swap command's branches, the placement that a swap ends with, and the record that a retirement clears. -/
theorem segmentSwap : Obligations.SegmentSwap := by
  refine ⟨fun v s => ?_, fun s => ?_, fun g s => ?_⟩
  · refine completes_of rfl (execImgSwap_keeps (.refl s) v (Within.mem _)) (by decide) ⟨fun down => when_neg s (by simp [down]) _, fun up => ?_⟩
    rw [when_eq s up]
    obtain ⟨state, segs, image, locked⟩ := imgSwap_serves s v
    refine ⟨state, segs, image, locked, fun busy => ?_, fun busy other => ?_, fun busy loaded => ⟨fun late => ?_, fun timely => ⟨fun e bad => ?_, fun good => ?_⟩⟩⟩
    · rw [imgSwap_busy v busy]
      rfl
    · rw [imgSwap_unloaded v busy other]
      rfl
    · rw [imgSwap_late v busy loaded late]
      obtain ⟨told, ldr, -⟩ := imgFail_spec (.refl s) (loadErr Status.swapTime noSec 0)
      exact ⟨(imgFail_keeps (.refl s) _ (Within.mem _)).changesOnly.mono (by decide), told, ldr⟩
    · rw [imgSwap_bad busy loaded timely bad]
      obtain ⟨told, ldr, -⟩ := imgFail_spec (.refl s) e
      exact ⟨told, ldr⟩
    · rw [imgSwap_good busy loaded timely good]
      exact ⟨rfl, rfl, rfl⟩
  · have k := execSwapComplete_keeps (.refl s) (Within.mem _)
    change KeepsOut _ s (exec .swapComplete s) at k
    by_cases waits : s.ldr.swap = none ∨ s.weir.coolant ≠ .none ∨ s.dev.dramMode ≠ .running
    · rw [swapComplete_waits waits] at k
      refine completes_of (swapComplete_waits waits) k (by decide +kernel) ⟨fun _ => rfl, fun j swap flow up => ?_⟩
      simp [swap, flow, up] at waits
    · simp only [ne_eq, not_or, not_not] at waits
      obtain ⟨some, flow, up⟩ := waits
      obtain ⟨j, swap⟩ := Option.ne_none_iff_exists'.1 some
      rw [swapComplete_eq swap flow up] at k
      refine completes_of (swapComplete_eq swap flow up) k (by decide +kernel) ⟨fun h => ?_, fun j' swap' _ _ => ?_⟩
      · simp [swap, flow, up] at h
      · obtain rfl : j = j' := Option.some.inj (swap.symm.trans swap')
        obtain ⟨told, none, state, image, locked, ends⟩ := endSwap_spec s j
        refine ⟨told, none, state, image, locked, ends.imp_left ?_⟩
        rintro ⟨status, count, chain, placed, fbs, segs⟩
        rw [segs]
        obtain ⟨ids, own, others⟩ := segsSwapped_spec s.ldr j placed fbs
        exact ⟨status, count, chain, ids, own, others⟩
  · obtain ⟨t, ran, found, absent⟩ := segmentRetire_eq s g
    have k := execSegmentRetire_keeps (.refl s) g (Within.mem _)
    change KeepsOut _ s (exec (.segmentRetire g) s) at k
    rw [ran] at k
    refine completes_of ran k (by decide) ⟨fun r hit => ?_, fun none => ?_⟩
    · obtain ⟨retires, stays⟩ := found r hit
      split
      · next may =>
        rw [retires may]
        refine ⟨?_, fun m other => ?_, rfl⟩
        · exact (find?_updWhere_self SegRun.id SegRun.retired (fun _ => rfl) g s.ldr.segs).trans (congrArg _ hit)
        · exact find?_updWhere_other SegRun.id SegRun.retired (fun _ => rfl) other s.ldr.segs
      · next may => exact stays may
    · exact absent (List.find?_eq_none.2 fun r mem => by simpa using none r mem)

end Sys2Proof.Machine
end

section
/-! SUPPORT. The instruction at the front of a core, and its passing (R104, R119, R122, R134, R170). -/

set_option Elab.async false

namespace Sys2Proof.Machine

variable {cs : Comp → Prop} {u : State}

/-! ## The instruction at the front -/

/-- The instruction at the front is one. -/
theorem atTurn_unique {n code code' : Nat} {s : State} {r r' : Run} {fi fi' : Fire} {op op' : Op} (h : atTurn n code s r fi op)
    (h' : atTurn n code' s r' fi' op') : r' = r ∧ fi' = fi ∧ op' = op := by
  obtain ⟨run, fire, instr, -, -, -⟩ := h
  obtain ⟨run', fire', instr', -, -, -⟩ := h'
  obtain rfl : r = r' := Option.some.inj (run.symm.trans run')
  obtain rfl : fi = fi' := Option.some.inj (fire.symm.trans fire')
  exact ⟨rfl, rfl, Option.some.inj (instr'.symm.trans instr)⟩

theorem atFront_turn {n code : Nat} {s : State} {r : Run} {fi : Fire} {op : Op} (h : atTurn n code s r fi op)
    (f : State → Run → Fire → Op → Option State) : s.atFront n code f = (f (s.showing n fi) r fi op).getD s := by
  obtain ⟨run, fire, instr, opcode, running, seq⟩ := h
  unfold State.atFront
  dsimp only
  split
  · next r' fi' fs run' fires =>
    obtain rfl : r = r' := Option.some.inj (run.symm.trans run')
    obtain rfl : fi' = fi := by
      rw [fires] at fire
      exact Option.some.inj fire
    split
    · next op' instr' =>
      obtain rfl : op = op' := Option.some.inj (instr.symm.trans instr')
      refine if_pos ?_
      simp [opcode, running, seq]
    · next none =>
      rw [instr] at none
      cases none
  · next none =>
    cases fires : (s.core n).fires with
    | nil => rw [fires] at fire; cases fire
    | cons x xs => exact absurd fires (none r x xs run)

theorem atFront_other {n code : Nat} {s : State} (h : ∀ r fi op, ¬ atTurn n code s r fi op)
    (f : State → Run → Fire → Op → Option State) : s.atFront n code f = s := by
  unfold State.atFront
  dsimp only
  split
  · next r fi fs run fires =>
    split
    · next op instr =>
      refine if_neg fun on => h r fi op ?_
      simp only [Bool.and_eq_true, decide_eq_true_eq, beq_iff_eq] at on
      exact ⟨run, by rw [fires]; rfl, instr, on.1.1, on.1.2, on.2⟩
    · rfl
  · rfl

theorem front_run {c : Instr} {n code : Nat} {s : State} {f : State → Run → Fire → Op → Option State}
    (e : exec c s = .next (s.atFront n code f)) {r : Run} {fi : Fire} {op : Op} (turn : atTurn n code s r fi op) :
    exec c s = .next ((f (s.showing n fi) r fi op).getD s) := by
  rw [e, atFront_turn turn]

/-- A command of one instruction, by what it does at its turn. -/
theorem completes_turn {c : Instr} {ds cs : List Comp} {n code : Nat} {s : State} {f : State → Run → Fire → Op → Option State}
    {Q : Run → Fire → Op → State → Prop} (e : exec c s = .next (s.atFront n code f)) (k : KeepsOut (fun c => c ∈ ds) s (exec c s))
    (m : ∀ c ∈ ds, c ∈ cs) (front : ∀ r fi op, atTurn n code s r fi op → ∃ t, exec c s = .next t ∧
      (∀ m, m ≠ n → t.core m = s.core m) ∧ Q r fi op t) :
    completes c cs s (fun t => (∀ m, m ≠ n → t.core m = s.core m) ∧ ((∀ r fi op, ¬ atTurn n code s r fi op) → t = s) ∧
      ∀ r fi op, atTurn n code s r fi op → Q r fi op t) := by
  by_cases turn : ∃ r fi op, atTurn n code s r fi op
  · obtain ⟨r, fi, op, turn⟩ := turn
    obtain ⟨t, ran, others, effect⟩ := front r fi op turn
    rw [ran] at k
    refine completes_of ran k m ⟨others, fun none => absurd turn (none r fi op), fun r' fi' op' turn' => ?_⟩
    obtain ⟨rfl, rfl, rfl⟩ := atTurn_unique turn turn'
    exact effect
  · have none : ∀ r fi op, ¬ atTurn n code s r fi op := fun r fi op h => turn ⟨r, fi, op, h⟩
    rw [atFront_other none] at e
    rw [e] at k
    exact completes_of e k m ⟨fun _ _ => rfl, fun _ => rfl, fun r fi op turn => absurd turn (none r fi op)⟩

/-! ## Passing the instruction -/

theorem core_updCore (s : State) (n k : Nat) (f : Core → Core) : (s.updCore n f).core k = if k = n then f (s.core n) else s.core k :=
  core_setCore s n k _

/-- A core that has gone past its firing. -/
def Core.past (c : Core) : Core :=
  match c.fires with
  | [] => c
  | [_] => c.finish
  | _ :: fs => { c with fires := fs }

theorem core_advance (s : State) (n k : Nat) : (s.advance n).core k = if k = n then (s.core n).past else s.core k :=
  core_updCore s n k _

theorem core_advance_self (s : State) (n : Nat) : (s.advance n).core n = (s.core n).past := by rw [core_advance, if_pos rfl]

theorem core_advance_other (s : State) {n k : Nat} (h : k ≠ n) : (s.advance n).core k = s.core k := by rw [core_advance, if_neg h]

theorem past_fields (c : Core) : c.past.slots = c.slots ∧ c.past.xptr = c.xptr ∧ c.past.waiting = c.waiting ∧ c.past.loads = c.loads ∧
    c.past.drains = c.drains ∧ c.past.inits = c.inits ∧ c.past.scanning = c.scanning ∧ c.past.pc = c.pc ∧ c.past.status = c.status := by
  unfold Core.past
  split
  · exact ⟨rfl, rfl, rfl, rfl, rfl, rfl, rfl, rfl, rfl⟩
  · exact ⟨rfl, rfl, rfl, rfl, rfl, rfl, rfl, rfl, rfl⟩
  · exact ⟨rfl, rfl, rfl, rfl, rfl, rfl, rfl, rfl, rfl⟩

theorem past_fires {c : Core} (some : c.fires ≠ []) (running : c.st = .running) : c.past.fires = c.fires.tail ∧
    c.past.st = if c.fires.tail = [] then .committing else .running := by
  unfold Core.past
  split
  · next none => exact absurd none some
  · next one => rw [one]; exact ⟨rfl, rfl⟩
  · next x xs more h =>
    rw [h]
    exact ⟨rfl, by rw [running]; exact (if_neg more).symm⟩

/-- The core goes past its firing where nothing else has changed its firings. -/
theorem passed_of_past {n : Nat} {s t : State} {c : Core} (core : t.core n = c.past) (fires : c.fires = (s.core n).fires)
    (st : c.st = (s.core n).st) (some : (s.core n).fires ≠ []) (running : (s.core n).st = .running) : passed n s t := by
  obtain ⟨rest, state⟩ := past_fires (c := c) (by rw [fires]; exact some) (st.trans running)
  unfold passed
  rw [core, rest, state, fires]
  exact ⟨rfl, rfl⟩

theorem atTurn_fires {n code : Nat} {s : State} {r : Run} {fi : Fire} {op : Op} (h : atTurn n code s r fi op) :
    (s.core n).fires ≠ [] ∧ (s.core n).st = .running := by
  obtain ⟨-, fire, -, -, running, -⟩ := h
  refine ⟨fun none => ?_, running⟩
  rw [none] at fire
  cases fire

theorem coreRun_cluster {n : Nat} {s : State} {r : Run} (h : s.coreRun n = some r) : r.cluster = n / 8 := by
  unfold State.coreRun at h
  dsimp only at h
  split at h
  · cases h; rfl
  · cases h

theorem core_showing_self (s : State) (n : Nat) (fi : Fire) : (s.showing n fi).core n = { s.core n with pc := fi.pc } := core_setCore_self ..

theorem core_showing_other (s : State) {n k : Nat} (fi : Fire) (h : k ≠ n) : (s.showing n fi).core k = s.core k := by
  unfold State.showing
  rw [core_setCore, if_neg h]

/-- A command of one instruction that passes with a new core and nothing else. -/
theorem passes_core {n code : Nat} {s : State} {r : Run} {fi : Fire} {op : Op} (turn : atTurn n code s r fi op) {v : State} {c : Core}
    (own : v.core n = c) (fires : c.fires = (s.core n).fires) (st : c.st = (s.core n).st) : passed n s (v.advance n) :=
  passed_of_past (by rw [core_advance_self, own]) fires st (atTurn_fires turn).1 (atTurn_fires turn).2

/-! ## Words of counters -/

theorem Mem.readList_writeList_self (m : Mem) (a : Nat) (bs : List Byte) : Mem.readList (Mem.writeList m a bs) a bs.length = bs :=
  Mem.readList_eq rfl fun _ hi => Mem.read_writeList m a bs hi

theorem rd_writeList_self (m : Mem) (a n v : Nat) : Mem.rd (Mem.writeList m a (leBytes n v)) a n = v % 256 ^ n := by
  unfold Mem.rd
  have h := Mem.readList_writeList_self m a (leBytes n v)
  rw [leBytes_length] at h
  rw [h, leVal_leBytes]

theorem regOk_wait : ∀ {n : Nat}, n < 32 → regOk .TC_CNT_WAIT n 0 = true := by decide +kernel

theorem activity_reg (s : State) (r : Reg) (n v : Nat) (ok : regOk r n 0 = true) : (s.activity r n v).reg r n 0 =
    s.reg r n 0 + if s.regBit .TC_ARR_CTRL n 0 0 = true then BitVec.ofNat 64 v else 0 := by
  unfold State.activity
  split
  · rw [addTo_reg s r n v ok]
  · simp

/-! ## Pointers, fences and counters -/

/-- What a PUBLISH adds to its counter word. -/
def State.published (s : State) (k a v : Nat) : State :=
  s.setBasin k (Mem.writeList (s.basin k) a (leBytes 4 ((s.counterWord k a + v) % 2 ^ 32)))

theorem published_spec (s : State) (k a v : Nat) : (s.published k a v).counterWord k a = (s.counterWord k a + v) % 2 ^ 32 ∧
    (∀ b, (b < a ∨ a + 4 ≤ b) → Mem.read ((s.published k a v).basin k) b = Mem.read (s.basin k) b) ∧
    (∀ m, m ≠ k → (s.published k a v).basin m = s.basin m) ∧ ∀ m, (s.published k a v).core m = s.core m := by
  have own : (s.published k a v).basin k = Mem.writeList (s.basin k) a (leBytes 4 ((s.counterWord k a + v) % 2 ^ 32)) := by
    unfold State.published
    rw [basin_setBasin, if_pos rfl]
  refine ⟨?_, fun b h => ?_, fun m h => ?_, fun m => rfl⟩
  · change Mem.rd ((s.published k a v).basin k) a 4 = _
    rw [own, rd_writeList_self]
    omega
  · rw [own]
    exact Mem.read_writeList_ne _ _ _ (by rw [leBytes_length]; exact h)
  · unfold State.published
    rw [basin_setBasin, if_neg h]

theorem basin_updCore (s : State) (n k : Nat) (f : Core → Core) : (s.updCore n f).basin k = s.basin k := rfl

theorem counterWord_congr {s t : State} {k : Nat} (h : t.basin k = s.basin k) (a : Nat) : t.counterWord k a = s.counterWord k a := by
  unfold State.counterWord
  rw [h]

/-! ## Each command -/

/-- What a core whose XPTR passes points at (Table 4.10). -/
def Run.pointers (r : Run) (s : State) (n : Nat) (fi : Fire) (op : Op) : Xptr :=
  { colBank := bitAt op.bits 16, colLine := s.lineAt n r 2 (field op.bits 17 13) fi.idx, colStep := field op.bits 44 12
    rowBank := bitAt op.bits 30, rowLine := s.lineAt n r 3 (field op.bits 31 13) fi.idx, rowStep := field op.bits 56 12 }

theorem xptr_turn {n : Nat} {s : State} {r : Run} {fi : Fire} {op : Op} (turn : atTurn n 7 s r fi op) :
    exec (.xptr n) s = .next (((s.showing n fi).updCore n fun c => { c with xptr := r.pointers (s.showing n fi) n fi op }).advance n) :=
  (front_run rfl turn).trans rfl

/-- What a FENCE waits for (Table 4.10). -/
def Core.fenced (c : Core) (op : Op) : Prop := (bitAt op.bits 17 = true ∧ c.drains ≠ []) ∨
  (bitAt op.bits 16 = true ∧ (c.loads ≠ [] ∨ c.scanning ≠ none ∨ c.inits ≠ []))

theorem fence_turn {n : Nat} {s : State} {r : Run} {fi : Fire} {op : Op} (turn : atTurn n 8 s r fi op) :
    ((s.core n).fenced op → exec (.fence n) s = .next s) ∧
    (¬ (s.core n).fenced op → exec (.fence n) s = .next ((s.showing n fi).advance n)) := by
  have test : ((bitAt op.bits 17 && ((s.showing n fi).core n).drains != []) || (bitAt op.bits 16 &&
      (((s.showing n fi).core n).loads != [] || ((s.showing n fi).core n).scanning.isSome || ((s.showing n fi).core n).inits != []))) = true ↔
      (s.core n).fenced op := by
    rw [core_showing_self]
    unfold Core.fenced
    cases (s.core n).scanning <;> simp
  refine ⟨fun waits => (front_run rfl turn).trans ?_, fun free => (front_run rfl turn).trans ?_⟩
  · rw [if_pos (test.2 waits)]
    rfl
  · rw [if_neg (mt test.1 free)]
    rfl

theorem publish_turn {n : Nat} {s : State} {r : Run} {fi : Fire} {op : Op} (turn : atTurn n 9 s r fi op) :
    (((s.core n).drains ≠ [] ∨ s.domainLive (.basin r.cluster) = false) → exec (.publish n) s = .next s) ∧
    (¬ ((s.core n).drains ≠ [] ∨ s.domainLive (.basin r.cluster) = false) →
      ((s.showing n fi).counterAt r fi.idx op = none → exec (.publish n) s = .next ((s.showing n fi).advance n)) ∧
      (∀ a, (s.showing n fi).counterAt r fi.idx op = some a →
        exec (.publish n) s = .next (((s.showing n fi).published r.cluster a (field op.bits 36 32)).advance n))) := by
  have live : (s.showing n fi).domainLive (.basin r.cluster) = s.domainLive (.basin r.cluster) := rfl
  have test : (((s.showing n fi).core n).drains != [] || !(s.showing n fi).domainLive (.basin r.cluster)) = true ↔
      ((s.core n).drains ≠ [] ∨ s.domainLive (.basin r.cluster) = false) := by
    rw [core_showing_self, live]
    simp
  refine ⟨fun waits => (front_run rfl turn).trans ?_, fun free => ⟨fun out => (front_run rfl turn).trans ?_, fun a counter => (front_run rfl turn).trans ?_⟩⟩
  · rw [if_pos (test.2 waits)]
    rfl
  · rw [if_neg (mt test.1 free), out]
    rfl
  · rw [if_neg (mt test.1 free), counter]
    rfl

theorem waitcnt_turn {n : Nat} {s : State} {r : Run} {fi : Fire} {op : Op} (turn : atTurn n 10 s r fi op) :
    ((s.showing n fi).counterAt r fi.idx op = none → exec (.waitcnt n) s = .next ((s.showing n fi).advance n)) ∧
    ∀ a, (s.showing n fi).counterAt r fi.idx op = some a →
      (s.domainLive (.basin r.cluster) = false → exec (.waitcnt n) s = .next s) ∧
      (s.domainLive (.basin r.cluster) = true → field op.bits 36 32 ≤ s.counterWord r.cluster a →
        exec (.waitcnt n) s = .next ((s.showing n fi).advance n)) ∧
      (s.domainLive (.basin r.cluster) = true → s.counterWord r.cluster a < field op.bits 36 32 →
        exec (.waitcnt n) s = .next ((s.showing n fi).updCore n fun c => { c with waiting := some (a, field op.bits 36 32) })) := by
  have live : (s.showing n fi).domainLive (.basin r.cluster) = s.domainLive (.basin r.cluster) := rfl
  have word (a : Nat) : (s.showing n fi).counterWord r.cluster a = s.counterWord r.cluster a := rfl
  refine ⟨fun out => (front_run rfl turn).trans ?_, fun a counter => ⟨fun dead => (front_run rfl turn).trans ?_, fun alive reached => (front_run rfl turn).trans ?_,
    fun alive short => (front_run rfl turn).trans ?_⟩⟩
  · rw [out]
    rfl
  · rw [counter]
    dsimp only
    rw [live, dead]
    rfl
  · rw [counter]
    dsimp only
    rw [live, alive, word, if_neg (by decide), if_pos reached]
    rfl
  · rw [counter]
    dsimp only
    rw [live, alive, word, if_neg (by decide), if_neg (by omega)]
    rfl

/-- The state in which a wait has ended, before the core goes on. -/
def State.waited (s : State) (n : Nat) : State :=
  (State.activity { s with freeIdx := s.freeIdx + 1 } .TC_CNT_WAIT n (Config.freeValue s.freeIdx)).updCore n
    (fun c => { c with waiting := none })

theorem activity_core (s : State) (r : Reg) (n v k : Nat) : (s.activity r n v).core k = s.core k := by
  unfold State.activity
  split
  · exact core_congr (by simp) k
  · rfl

theorem waited_core (s : State) (n k : Nat) : (s.waited n).core k = if k = n then { s.core n with waiting := none } else s.core k := by
  unfold State.waited
  rw [core_updCore, activity_core, activity_core]
  rfl

theorem waitcntPass_eq {n : Nat} {s : State} {a v : Nat} (waiting : (s.core n).waiting = some (a, v)) :
    ((v ≤ s.counterWord (n / 8) a ∧ s.coreRuns n = true ∧ s.weir.coolant = .none) →
      exec (.waitcntPass n) s = .next ((s.waited n).advance n)) ∧
    (¬ (v ≤ s.counterWord (n / 8) a ∧ s.coreRuns n = true ∧ s.weir.coolant = .none) → exec (.waitcntPass n) s = .next s) := by
  have test : (v ≤ s.counterWord (n / 8) a && s.coreRuns n && !s.coolantHeld) = true ↔
      (v ≤ s.counterWord (n / 8) a ∧ s.coreRuns n = true ∧ s.weir.coolant = .none) := by
    unfold State.coolantHeld
    simp [and_assoc]
  change (_ → execWaitcntPass n s = _) ∧ (_ → execWaitcntPass n s = _)
  unfold execWaitcntPass
  rw [waiting]
  exact ⟨fun on => congrArg _ (when_eq s (test.2 on) _), fun off => congrArg _ (when_neg s (mt test.1 off) _)⟩

theorem waitcntPass_none {n : Nat} {s : State} (waiting : (s.core n).waiting = none) : exec (.waitcntPass n) s = .next s := by
  change execWaitcntPass n s = _
  unfold execWaitcntPass
  rw [waiting]

theorem waited_advance_reg {s : State} {n : Nat} (hn : n < 32) : ((s.waited n).advance n).reg .TC_CNT_WAIT n 0 = s.reg .TC_CNT_WAIT n 0 +
    if s.regBit .TC_ARR_CTRL n 0 0 = true then BitVec.ofNat 64 (Config.freeValue s.freeIdx) else 0 :=
  activity_reg { s with freeIdx := s.freeIdx + 1 } .TC_CNT_WAIT n (Config.freeValue s.freeIdx) (regOk_wait hn)

theorem advance_showing_other (s : State) {n m : Nat} (fi : Fire) (h : m ≠ n) : ((s.showing n fi).advance n).core m = s.core m := by
  rw [core_advance_other _ h, core_showing_other s fi h]

/-- Settles O44: each instruction at the front passes, waits or adds as its branch says. -/
theorem pointersFencesAndCounters : Obligations.PointersFencesAndCounters := by
  refine ⟨fun n s => ?_, fun n s => ?_, fun n s => ?_, fun n s => ?_, fun n s => ?_⟩
  · refine completes_turn rfl (execXptr_keeps (.refl s) n (Within.mem _)) (by decide) fun r fi op turn => ⟨_, xptr_turn turn, fun m other => ?_, ?_⟩
    · rw [core_advance_other _ other, core_updCore, if_neg other, core_showing_other s fi other]
    · have own : ((s.showing n fi).updCore n fun c => { c with xptr := r.pointers (s.showing n fi) n fi op }).core n =
          { s.core n with pc := fi.pc, xptr := r.pointers (s.showing n fi) n fi op } := by
        rw [core_updCore, if_pos rfl, core_showing_self]
      refine ⟨passes_core turn own rfl rfl, ?_, ?_⟩
      · rw [core_advance_self, own, (past_fields _).1]
      · rw [core_advance_self, own, (past_fields _).2.1]
        rfl
  · refine completes_turn rfl (execFence_keeps (.refl s) n (Within.mem _)) (by decide) fun r fi op turn => ?_
    obtain ⟨waits, passes⟩ := fence_turn turn
    by_cases fenced : (s.core n).fenced op
    · exact ⟨s, waits fenced, fun _ _ => rfl, (if_pos fenced).mpr rfl⟩
    · refine ⟨_, passes fenced, fun m other => advance_showing_other s fi other, ?_⟩
      refine (if_neg fenced).mpr ⟨passes_core turn (core_showing_self s n fi) rfl rfl, ?_⟩
      rw [core_advance_self, core_showing_self, (past_fields _).1]
  · refine completes_turn rfl (execPublish_keeps (.refl s) n (Within.mem _)) (by decide) fun r fi op turn => ?_
    obtain ⟨stays, goes⟩ := publish_turn turn
    by_cases waits : (s.core n).drains ≠ [] ∨ s.domainLive (.basin r.cluster) = false
    · exact ⟨s, stays waits, fun _ _ => rfl, fun _ => rfl, fun free => absurd waits free, fun a free => absurd waits free⟩
    · obtain ⟨outside, adds⟩ := goes waits
      cases counter : (s.showing n fi).counterAt r fi.idx op with
      | none =>
        exact ⟨_, outside counter, fun m other => advance_showing_other s fi other, fun h => absurd h waits,
          fun _ _ => ⟨passes_core turn (core_showing_self s n fi) rfl rfl, rfl⟩, nofun⟩
      | some a =>
        obtain ⟨word, bytes, basins, cores⟩ := published_spec (s.showing n fi) r.cluster a (field op.bits 36 32)
        refine ⟨_, adds a counter, fun m other => ?_, fun h => absurd h waits, nofun, fun b _ h => ?_⟩
        · rw [core_advance_other _ other, cores, core_showing_other s fi other]
        · obtain rfl : a = b := Option.some.inj h
          have own := (cores n).trans (core_showing_self s n fi)
          exact ⟨passes_core turn own rfl rfl, (counterWord_congr rfl a).trans word, bytes, basins⟩
  · refine completes_turn rfl (execWaitcnt_keeps (.refl s) n (Within.mem _)) (by decide) fun r fi op turn => ?_
    obtain ⟨outside, inside⟩ := waitcnt_turn turn
    have passes := passes_core turn (core_showing_self s n fi) rfl rfl
    have others := fun m other => advance_showing_other s fi (n := n) (m := m) other
    cases counter : (s.showing n fi).counterAt r fi.idx op with
    | none => exact ⟨_, outside counter, others, fun _ => passes, nofun⟩
    | some a =>
      obtain ⟨dead, reached, short⟩ := inside a counter
      cases live : s.domainLive (.basin r.cluster) with
      | false =>
        refine ⟨s, dead live, fun _ _ => rfl, nofun, fun b h => ⟨fun _ => rfl, nofun, nofun⟩⟩
      | true =>
        by_cases le : field op.bits 36 32 ≤ s.counterWord r.cluster a
        · refine ⟨_, reached live le, others, nofun, fun b h => ⟨nofun, fun _ _ => passes, fun _ lt => ?_⟩⟩
          obtain rfl : a = b := Option.some.inj h
          omega
        · refine ⟨_, short live (by omega), fun m other => ?_, nofun, fun b h => ⟨nofun, fun _ ge => ?_, fun _ _ => ?_⟩⟩
          · rw [core_updCore, if_neg other, core_showing_other s fi other]
          · obtain rfl : a = b := Option.some.inj h
            exact absurd ge le
          · obtain rfl : a = b := Option.some.inj h
            rw [core_updCore, if_pos rfl, core_showing_self]
  · have k := execWaitcntPass_keeps (.refl s) n (Within.mem _)
    change KeepsOut _ s (exec (.waitcntPass n) s) at k
    cases waiting : (s.core n).waiting with
    | none =>
      rw [waitcntPass_none waiting] at k
      exact completes_of (waitcntPass_none waiting) k (by decide) ⟨fun _ _ => rfl, fun _ => rfl, nofun⟩
    | some w =>
      obtain ⟨a, v⟩ := w
      obtain ⟨passes, stays⟩ := waitcntPass_eq waiting
      by_cases on : v ≤ s.counterWord (n / 8) a ∧ s.coreRuns n = true ∧ s.weir.coolant = .none
      · rw [passes on] at k
        have own : (s.waited n).core n = { s.core n with waiting := none } := by rw [waited_core, if_pos rfl]
        refine completes_of (passes on) k (by decide) ⟨fun m other => ?_, nofun, fun b w h => ?_⟩
        · rw [core_advance_other _ other, waited_core, if_neg other]
        · cases h
          refine (if_pos on).mpr ⟨?_, fun running fires => ?_, waited_advance_reg⟩
          · rw [core_advance_self, own, (past_fields _).2.2.1]
          · exact passed_of_past ((core_advance_self _ n).trans (congrArg Core.past own)) rfl rfl fires running
      · rw [stays on] at k
        refine completes_of (stays on) k (by decide) ⟨fun _ _ => rfl, fun _ => rfl, fun b w h => ?_⟩
        cases h
        exact (if_neg on).mpr rfl

end Sys2Proof.Machine
end

section
/-! SUPPORT. What a decision point of Sluice changes (R145, R299 to R303), and what a fault leaves (R127, R155). -/

set_option Elab.async false

namespace Sys2Proof.Machine

variable {cs : Comp → Prop} {u : State}

theorem ctxRun_congr {s t : State} (h : t.slu.ctxs = s.slu.ctxs) (c : Nat) : t.ctxRun c = s.ctxRun c := by
  unfold State.ctxRun
  rw [h]

theorem cmdRun_congr {s t : State} (h : t.slu.cmds = s.slu.cmds) (c : Nat) : t.cmdRun c = s.cmdRun c := by
  unfold State.cmdRun
  rw [h]

theorem ctxRun_updCtxRun (s : State) (n k : Nat) (f : CtxRun → CtxRun) :
    (s.updCtxRun n f).ctxRun k = if k = n then f (s.ctxRun n) else s.ctxRun k := ctxRun_setCtxRun s n k _

/-! ## Decision points -/

/-- Only what a decision point keeps of a context has changed: its lanes, and what makes it runnable. -/
def CtxRun.sameWork (x y : CtxRun) : Prop :=
  y = { x with holds := y.holds, runnable := y.runnable, blockedNs := y.blockedNs, starvedNs := y.starvedNs, overrunNs := y.overrunNs }

theorem CtxRun.sameWork_refl (x : CtxRun) : x.sameWork x := rfl

theorem CtxRun.sameWork.trans {x y z : CtxRun} (h : x.sameWork y) (g : y.sameWork z) : x.sameWork z := by
  unfold CtxRun.sameWork at h g ⊢
  rw [g, h]

/-- A command run as a kill leaves it (R145). -/
def CmdRun.struck (r : CmdRun) : CmdRun := { r with killed := true, gen := (r.gen + 1) % 2 ^ 32 }

/-- What a decision point may do: contexts change lanes only, commands that run may be killed, and cores of such commands
with them. -/
structure Sched (s t : State) : Prop where
  ctx : ∀ c, (s.ctxRun c).sameWork (t.ctxRun c)
  cmd : ∀ c, t.cmdRun c = s.cmdRun c ∨ ∃ r, s.cmdRun c = some r ∧ r.killed = false ∧ t.cmdRun c = some r.struck
  core : ∀ n, ¬ (((s.core n).st = .running ∨ (s.core n).st = .committing) ∧ s.cmdRun (s.core n).ctx ≠ none) → t.core n = s.core n
  last : ∀ n, (t.core n).lastStatus = (s.core n).lastStatus
  mem : (∀ c, s.cmdRun c = none) → t.slu.basins = s.slu.basins

theorem Sched.of_slu {s t : State} (ctxs : t.slu.ctxs = s.slu.ctxs) (cmds : t.slu.cmds = s.slu.cmds) (cores : t.slu.cores = s.slu.cores)
    (basins : t.slu.basins = s.slu.basins) : Sched s t :=
  ⟨fun c => by rw [ctxRun_congr ctxs]; exact CtxRun.sameWork_refl _, fun c => .inl (cmdRun_congr cmds c), fun n _ => core_congr cores n,
    fun n => by rw [core_congr cores], fun _ => basins⟩

theorem Sched.refl (s : State) : Sched s s := .of_slu rfl rfl rfl rfl

theorem Sched.cmd_none {s t : State} (h : Sched s t) {c : Nat} (idle : s.cmdRun c = none) : t.cmdRun c = none := by
  rcases h.cmd c with same | ⟨r, run, -⟩
  · rw [same, idle]
  · rw [idle] at run
    cases run

theorem Sched.trans {s t w : State} (h : Sched s t) (g : Sched t w) : Sched s w := by
  refine ⟨fun c => (h.ctx c).trans (g.ctx c), fun c => ?_, fun n still => ?_, fun n => (g.last n).trans (h.last n),
    fun idle => (g.mem fun c => h.cmd_none (idle c)).trans (h.mem idle)⟩
  · rcases h.cmd c with same | ⟨r, run, live, now⟩
    · rcases g.cmd c with same' | ⟨r', run', live', now'⟩
      · exact .inl (same'.trans same)
      · exact .inr ⟨r', same ▸ run', live', now'⟩
    · rcases g.cmd c with same' | ⟨r', run', live', now'⟩
      · exact .inr ⟨r, run, live, same'.trans now⟩
      · rw [now] at run'
        cases run'
        cases live'
  · have same := h.core n still
    rw [g.core n ?_, same]
    rw [same]
    exact fun ⟨on, run⟩ => run (h.cmd_none (by_contra fun given => still ⟨on, given⟩))

theorem Sched.upd (s : State) (c : Nat) {f : CtxRun → CtxRun} (hf : ∀ x : CtxRun, x.sameWork (f x)) : Sched s (s.updCtxRun c f) := by
  refine ⟨fun k => ?_, fun _ => .inl rfl, fun _ _ => rfl, fun _ => rfl, fun _ => rfl⟩
  rw [ctxRun_updCtxRun]
  split
  · next own =>
    rw [own]
    exact hf _
  · exact CtxRun.sameWork_refl _

theorem Sched.of_keeps {cs : List Comp} {s t : State} (k : Keeps (fun c => c ∈ cs) s t) (ctxs : .sluCtxs ∉ cs := by decide)
    (cmds : .sluCmds ∉ cs := by decide) (cores : .sluCores ∉ cs := by decide)
    (basins : .sluBasins ∉ cs := by decide) : Sched s t :=
  .of_slu (k.slu.ctxs.resolve_left ctxs) (k.slu.cmds.resolve_left cmds) (k.slu.cores.resolve_left cores) (k.slu.basins.resolve_left basins)

theorem Sched.stepOf {s t : State} (h : Sched s t) (c : Nat) : t.stepOf c = s.stepOf c := by
  unfold State.stepOf
  rw [h.ctx c]

/-! ### Lanes -/

theorem refreshList_sched (s : State) (es : List CtxEntry) : Sched s (s.refreshList es) := by
  induction es generalizing s with
  | nil => exact .refl s
  | cons e es ih =>
    unfold State.refreshList
    dsimp only
    refine Sched.trans ?_ (ih _)
    refine ⟨fun k => ?_, fun _ => .inl rfl, fun _ _ => rfl, fun _ => rfl, fun _ => rfl⟩
    rw [ctxRun_setCtxRun]
    split
    · next own =>
      rw [own]
      rfl
    · exact CtxRun.sameWork_refl _

theorem settle_sched (s : State) : Sched s s.settle := by
  unfold State.settle State.refresh
  refine Sched.trans ?_ (refreshList_sched _ _)
  refine Sched.trans ?_ (Sched.of_keeps (reapFrames_keeps (.refl _) (Within.mem _)))
  exact .of_slu rfl rfl rfl rfl

theorem yieldLane_sched (s : State) (lane : Nat) : Sched s (s.yieldLane lane) := by
  unfold State.yieldLane
  split
  · next c _ =>
    have first : Sched s ((s.setHolder lane none).setIdleHeld (s.slu.heldIdle.filter (fun k => k != lane))) := .of_slu rfl rfl rfl rfl
    have second := Sched.upd ((s.setHolder lane none).setIdleHeld (s.slu.heldIdle.filter (fun k => k != lane))) c
      (f := fun x => { x with holds := x.holds.filter (fun k => k != lane) }) fun _ => rfl
    exact (first.trans second).trans (.of_slu rfl rfl rfl rfl)
  · exact .refl s

theorem yieldLanes_sched (s : State) (ls : List Nat) : Sched s (s.yieldLanes ls) := by
  induction ls generalizing s with
  | nil => exact .refl s
  | cons l ls ih => exact (yieldLane_sched s l).trans (ih _)

theorem startSlice_sched (s : State) (c : Nat) (ls : List Nat) : Sched s (s.startSlice c ls) := by
  unfold State.startSlice
  dsimp only
  refine Sched.trans ?_ (Sched.upd _ c ?_)
  · exact .of_slu rfl rfl rfl rfl
  · exact fun x => rfl

theorem takeLane_sched (s : State) (c lane : Nat) : Sched s (s.takeLane c lane) := by
  have first : Sched s (s.setHolder lane (some c)) := .of_slu rfl rfl rfl rfl
  have second := Sched.upd (s.setHolder lane (some c)) c (f := fun x => { x with holds := putOnce lane x.holds }) fun _ => rfl
  exact (first.trans second).trans (.of_slu rfl rfl rfl rfl)

theorem grant_sched (s : State) (n : Nat) : Sched s (s.grant n) := by
  unfold State.grant
  split
  · exact .refl s
  · next e _ =>
    dsimp only
    refine (takeLane_sched s e.id n).trans ?_
    split
    · exact .of_slu rfl rfl rfl rfl
    · refine Sched.trans ?_ (startSlice_sched _ _ _)
      exact .of_slu rfl rfl rfl rfl

theorem grantFree_sched (s : State) (ns : List Nat) : Sched s (s.grantFree ns) := by
  induction ns generalizing s with
  | nil => exact .refl s
  | cons n ns ih =>
    unfold State.grantFree
    refine Sched.trans ?_ (ih _)
    split
    · exact grant_sched s n
    · exact .refl s

/-! ### Kills -/

theorem closeRecs_sched {s : State} {c : Nat} (run : s.cmdRun c ≠ none) (rs : List WorkRec) : Sched s (s.closeRecs rs) := by
  have k := closeRecs_keeps (.refl s) rs (Within.mem _)
  refine ⟨fun c => ?_, fun c => .inl (cmdRun_congr (k.slu.cmds.resolve_left (by decide)) c), fun n _ => core_congr (k.slu.cores.resolve_left (by decide)) n,
    fun n => by rw [core_congr (k.slu.cores.resolve_left (by decide))], fun idle => absurd (idle c) run⟩
  rw [ctxRun_congr (k.slu.ctxs.resolve_left (by decide))]
  exact CtxRun.sameWork_refl _

theorem killCores_sched {s : State} {c : Nat} (run : s.cmdRun c ≠ none) (ns : List Nat) : Sched s (s.killCores c ns) := by
  have k := killCores_keeps (.refl s) c ns (Within.mem _)
  refine ⟨fun m => ?_, fun m => .inl (cmdRun_congr (k.slu.cmds.resolve_left (by decide)) m), fun n still => ?_, fun n => ?_,
    fun idle => absurd (idle c) run⟩
  · rw [ctxRun_congr (k.slu.ctxs.resolve_left (by decide))]
    exact CtxRun.sameWork_refl _
  · refine (killCores_core s c ns n).2.2 fun ⟨_, on, own⟩ => still ⟨on, ?_⟩
    rw [own]
    exact run
  · obtain ⟨-, hit, miss⟩ := killCores_core s c ns n
    by_cases on : n ∈ ns ∧ (s.core n).runsFor c
    · rw [hit on.1 on.2]
      unfold State.killedCore
      split
      · rfl
      · rfl
    · rw [miss on]

/-- The state in which a command is struck, before its cores are. -/
def State.strike (s : State) (c : Nat) (r : CmdRun) : State := (s.closeRecs r.recs).setCmdRun c r.struck

theorem strike_sched {s : State} {c : Nat} {r : CmdRun} (run : s.cmdRun c = some r) (live : r.killed = false) : Sched s (s.strike c r) := by
  unfold State.strike
  refine (closeRecs_sched (c := c) (by rw [run]; nofun) r.recs).trans ?_
  have cmds : (s.closeRecs r.recs).slu.cmds = s.slu.cmds := (closeRecs_keeps (.refl s) r.recs (Within.mem _)).slu.cmds.resolve_left (by decide)
  generalize s.closeRecs r.recs = w at *
  refine ⟨fun _ => CtxRun.sameWork_refl _, fun k => ?_, fun _ _ => rfl, fun _ => rfl, fun _ => rfl⟩
  rw [cmdRun_setCmdRun]
  split
  · next own =>
    refine .inr ⟨r, ?_, live, rfl⟩
    rw [own, cmdRun_congr cmds, run]
  · exact .inl rfl

theorem strike_cmdRun (s : State) (c : Nat) (r : CmdRun) : (s.strike c r).cmdRun c = some r.struck := by
  unfold State.strike
  rw [cmdRun_setCmdRun, if_pos rfl]

/-- The branches of a kill of a command (R145). -/
theorem killCmd_spec (s : State) (c : Nat) : (s.cmdRun c = none → s.killCmd c = s) ∧
    ∀ r, s.cmdRun c = some r →
      ((r.killed = true ∨ ¬ ∀ x ∈ r.recs, s.recLive x = true) → s.killCmd c = s) ∧
      (r.killed = false → (∀ x ∈ r.recs, s.recLive x = true) →
        (∀ x, s.completeRec r = some x → s.killCmd c = s.count .CL_CNT_LATEKILL x.cluster) ∧
        (s.completeRec r = none → s.killCmd c = (s.strike c r).killCores c (List.range 32))) := by
  refine ⟨fun idle => ?_, fun r run => ⟨fun stays => ?_, fun live clocked => ⟨fun x complete => ?_, fun open_ => ?_⟩⟩⟩
  · unfold State.killCmd
    rw [idle]
  · unfold State.killCmd
    rw [run]
    refine if_pos ?_
    rcases stays with killed | dead
    · simp [killed]
    · simp only [Bool.or_eq_true, Bool.not_eq_true']
      refine .inr ?_
      rw [← Bool.not_eq_true, List.all_eq_true]
      exact dead
  · unfold State.killCmd
    rw [run]
    dsimp only
    rw [if_neg, complete]
    simp [live]
    exact clocked
  · unfold State.killCmd
    rw [run]
    dsimp only
    rw [if_neg, open_]
    · rfl
    · simp [live]
      exact clocked

theorem killCmd_sched (s : State) (c : Nat) : Sched s (s.killCmd c) := by
  obtain ⟨idle, runs⟩ := killCmd_spec s c
  cases run : s.cmdRun c with
  | none =>
    rw [idle run]
    exact .refl s
  | some r =>
    obtain ⟨stays, kills⟩ := runs r run
    by_cases still : r.killed = true ∨ ¬ ∀ x ∈ r.recs, s.recLive x = true
    · rw [stays still]
      exact .refl s
    · rw [not_or, Bool.not_eq_true, not_not] at still
      obtain ⟨late, strikes⟩ := kills still.1 still.2
      cases complete : s.completeRec r with
      | some x =>
        rw [late x complete]
        exact .of_keeps (count_keeps (cs := fun c => c ∈ [Comp.reg .CL_CNT_LATEKILL]) (.refl s) _ _ (.inr (by decide)))
      | none =>
        rw [strikes complete]
        refine (strike_sched run still.1).trans (killCores_sched ?_ _)
        rw [strike_cmdRun]
        exact nofun

theorem counted_sched (s : State) (b : Bool) : Sched s (if b then s.addTo .SLUICE_CNT_PREEMPT 0 1 else s) := by
  cases b with
  | true => exact .of_slu (by simp) (by simp) (by simp) (by simp)
  | false => exact .refl s

theorem preemptCtx_sched (s : State) (c : Nat) : Sched s (s.preemptCtx c) := by
  unfold State.preemptCtx
  dsimp only
  refine (killCmd_sched s c).trans ?_
  split
  · exact .refl _
  · exact (counted_sched _ _).trans (yieldLanes_sched _ _)

theorem preemptList_sched (s : State) (ns : List Nat) : Sched s (s.preemptList ns) := by
  induction ns generalizing s with
  | nil => exact .refl s
  | cons n ns ih =>
    unfold State.preemptList
    refine Sched.trans ?_ (ih _)
    split
    · next c _ =>
      split
      · exact (preemptCtx_sched s c).trans (grant_sched _ _)
      · exact preemptCtx_sched s c
    · exact .refl s

theorem schedule_sched (s : State) : Sched s s.schedule := by
  unfold State.schedule
  split
  · exact .refl s
  · exact (preemptList_sched s _).trans (grantFree_sched _ _)

/-! ## Faults -/

/-- The end of a command's step: who is runnable now, its lanes go, and a decision point follows. -/
def State.stepOver (s : State) (c : Nat) : State :=
  ((s.settle.endGroup c).yieldLanes ((s.settle.ctxRun c).holds)).schedule

theorem stepOver_sched (s : State) (c : Nat) : Sched s (s.stepOver c) := by
  unfold State.stepOver
  refine (settle_sched s).trans ?_
  refine Sched.trans ?_ (schedule_sched _)
  refine Sched.trans ?_ (yieldLanes_sched _ _)
  exact .of_slu rfl rfl rfl rfl

theorem regOk_lastFault : regOk .SLUICE_LAST_FAULT 0 0 = true := by decide +kernel
theorem regOk_tcFault : ∀ {n : Nat}, n < 32 → regOk .TC_FAULT n 0 = true ∧ regOk .TC_CNT_PARITY n 0 = true ∧ regOk .TC_CNT_KILL n 0 = true := by
  decide +kernel

theorem Sched.core_quiet {s t : State} (h : Sched s t) {n : Nat} (run : (s.core n).st ≠ .running) (com : (s.core n).st ≠ .committing) :
    t.core n = s.core n :=
  h.core n fun ⟨on, _⟩ => on.elim run com

theorem noteFault_reg (s : State) (c : Nat) (st : W16) :
    (s.noteFault c st).reg .SLUICE_LAST_FAULT 0 0 = BitVec.ofNat 64 (st.toNat + 65536 * (c % 4096)) := by
  unfold State.noteFault
  have set := reg_setReg_self s (BitVec.ofNat 64 (st.toNat + 65536 * (c % 4096))) regOk_lastFault
  generalize s.setReg .SLUICE_LAST_FAULT 0 0 (BitVec.ofNat 64 (st.toNat + 65536 * (c % 4096))) = v at *
  have told := raise_keeps (.refl v) 9 (Within.mem _)
  have logged := elog_keeps (.refl (v.raise 9)) st unitSluice 0 c (s.ctxFn c) 0 (Within.mem _)
  rw [logged.reg_eq (by decide) (by decide) regOk_lastFault, told.reg_eq (by decide) (by decide) regOk_lastFault, set]

/-- The state in which a faulted command is gone, with its cores killed, and its step still there. -/
def State.faultKilled (s : State) (c : Nat) : State :=
  match s.cmdRun c with
  | some r => ((s.closeRecs r.recs).killCores c (List.range 32)).dropCmdRun c
  | none => s

/-- The components that the kill of a faulted command may change. -/
def faultKilledChanges : List Comp := dropCmdRunChanges ++ setCoreChanges ++ putRecFieldChanges

theorem faultKilled_keeps {s : State} (h : Keeps cs u s) (c : Nat) (hc : Within faultKilledChanges cs) : Keeps cs u (s.faultKilled c) := by
  simp only [faultKilledChanges, within_append, and_assoc] at hc
  obtain ⟨drop, core, recs⟩ := hc
  unfold State.faultKilled
  split
  · exact dropCmdRun_keeps (killCores_keeps (closeRecs_keeps h _ recs) _ _ core) _ drop
  · exact h

theorem faultKilled_spec (s : State) (c : Nat) : (s.faultKilled c).cmdRun c = none ∧ (∀ k, k ≠ c → (s.faultKilled c).cmdRun k = s.cmdRun k) ∧
    ∀ n, (s.core n).st ≠ .running → (s.core n).st ≠ .committing → (s.faultKilled c).core n = s.core n := by
  unfold State.faultKilled
  split
  · next r _ =>
    have recs := closeRecs_keeps (.refl s) r.recs (Within.mem _)
    have kill := killCores_keeps (.refl (s.closeRecs r.recs)) c (List.range 32) (Within.mem _)
    have core := fun n => (killCores_core (s.closeRecs r.recs) c (List.range 32) n).2.2
    have same := fun n => core_congr (recs.slu.cores.resolve_left (by decide)) n
    generalize (s.closeRecs r.recs).killCores c (List.range 32) = v at *
    refine ⟨by rw [cmdRun_dropCmdRun, if_pos rfl], fun k other => ?_, fun n run com => ?_⟩
    · rw [cmdRun_dropCmdRun, if_neg other, cmdRun_congr (kill.slu.cmds.resolve_left (by decide)),
        cmdRun_congr (recs.slu.cmds.resolve_left (by decide))]
    · refine Eq.trans ?_ (same n)
      refine core n ?_
      rw [same]
      rintro ⟨-, on, -⟩
      exact on.elim run com
  · next idle => exact ⟨idle, fun _ _ => rfl, fun _ _ _ => rfl⟩

/-- The items of a faulted command's step go. -/
def State.faultEmptied (s : State) (c : Nat) : State :=
  match s.stepOf c with
  | some run => s.itemsGone c .fault run.items
  | none => s

theorem faultEmptied_keeps {s : State} (h : Keeps cs u s) (c : Nat) (hc : Within itemGoneChanges cs) : Keeps cs u (s.faultEmptied c) := by
  unfold State.faultEmptied
  split
  · exact itemsGone_keeps h _ _ _ hc
  · exact h

/-- A faulted command has no step any more, before the decision point that follows. -/
def State.faultEnded (s : State) (c : Nat) : State :=
  (s.faultKilled c).faultEmptied c |>.updCtxRun c (fun x => { x with step := none, fault := none })

theorem cmdFault_eq (s : State) (c : Nat) (st : W16) : s.cmdFault c st = ((s.noteFault c st).faultEnded c).stepOver c := rfl

def faultEndedChanges : List Comp := faultKilledChanges ++ itemGoneChanges ++ setCtxRunChanges

theorem faultEnded_keeps {s : State} (h : Keeps cs u s) (c : Nat) (hc : Within faultEndedChanges cs) : Keeps cs u (s.faultEnded c) := by
  simp only [faultEndedChanges, within_append, and_assoc] at hc
  obtain ⟨kill, item, ctx⟩ := hc
  exact updCtxRun_keeps (faultEmptied_keeps (faultKilled_keeps h c kill) c item) _ _ ctx

theorem faultEnded_spec (s : State) (c : Nat) : (s.faultEnded c).cmdRun c = none ∧ (s.faultEnded c).stepOf c = none ∧
    ((s.faultEnded c).ctxRun c).fault = none ∧
    ∀ n, (s.core n).st ≠ .running → (s.core n).st ≠ .committing → (s.faultEnded c).core n = s.core n := by
  obtain ⟨idle, -, cores⟩ := faultKilled_spec s c
  have gone := faultEmptied_keeps (.refl (s.faultKilled c)) c (Within.mem _)
  have own : (s.faultEnded c).ctxRun c = { ((s.faultKilled c).faultEmptied c).ctxRun c with step := none, fault := none } := by
    unfold State.faultEnded
    rw [ctxRun_updCtxRun, if_pos rfl]
  refine ⟨(cmdRun_congr (gone.slu.cmds.resolve_left (by decide)) c).trans idle, ?_, ?_, fun n run com => ?_⟩
  · unfold State.stepOf
    rw [own]
  · rw [own]
  · exact (core_congr (gone.slu.cores.resolve_left (by decide)) n).trans (cores n run com)

def stepOverChanges : List Comp := settleChanges ++ endGroupChanges ++ yieldLaneChanges ++ scheduleChanges

theorem stepOver_keeps {s : State} (h : Keeps cs u s) (c : Nat) (hc : Within stepOverChanges cs) : Keeps cs u (s.stepOver c) := by
  simp only [stepOverChanges, within_append, and_assoc] at hc
  obtain ⟨settle, group, lane, sched⟩ := hc
  exact schedule_keeps (yieldLanes_keeps (endGroup_keeps (settle_keeps h settle) c group) _ lane) sched

/-- A command fault leaves no command and no step, and leaves cores alone that do not run (R127). -/
theorem cmdFault_spec (s : State) (c : Nat) (st : W16) : (s.cmdFault c st).cmdRun c = none ∧ (s.cmdFault c st).stepOf c = none ∧
    (s.cmdFault c st).reg .SLUICE_LAST_FAULT 0 0 = BitVec.ofNat 64 (st.toNat + 65536 * (c % 4096)) ∧
    ∀ n, (s.core n).st ≠ .running → (s.core n).st ≠ .committing → (s.cmdFault c st).core n = s.core n := by
  have note := noteFault_keeps (.refl s) c st (Within.mem _)
  have told := noteFault_reg s c st
  rw [cmdFault_eq]
  generalize s.noteFault c st = v at *
  obtain ⟨idle, gone, -, cores⟩ := faultEnded_spec v c
  have ended := faultEnded_keeps (.refl v) c (Within.mem _)
  have same := fun n => core_congr (note.slu.cores.resolve_left (by decide)) n
  have after := stepOver_keeps (.refl (v.faultEnded c)) c (Within.mem _)
  have sched := stepOver_sched (v.faultEnded c) c
  refine ⟨sched.cmd_none idle, (sched.stepOf c).trans gone, ?_, fun n run com => ?_⟩
  · rw [after.reg_eq (by decide) (by decide) regOk_lastFault, ended.reg_eq (by decide) (by decide) regOk_lastFault, told]
  · have still := cores n (by rwa [same]) (by rwa [same])
    rw [sched.core_quiet (by rwa [still, same]) (by rwa [still, same]), still, same]

/-- A core as a fault leaves it. -/
def State.faultedCore (s : State) (n : Nat) (st : W16) : Core :=
  { s.core n with
    st := if s.regBit .TC_ARR_CTRL n 0 1 then .halted else .idle, fires := [], waiting := none, loads := [], kept := []
    inits := [], scanning := none, slots := [], loaded := none
    parity := if st = Status.operandParity ∨ st = Status.accParity then (s.core n).parity + 1 else (s.core n).parity
    done := (s.core n).done.filter (s.core n).sent, killed := false }

/-- A fault of a core is told. -/
def State.faultLogged (s : State) (n : Nat) (st : W16) : State :=
  (s.setReg .TC_FAULT n 0 (BitVec.ofNat 64 (st.toNat + 65536 * ((s.core n).pc % 64)))).elog st unitTc n (s.core n).ctx
    (s.ctxFn (s.core n).ctx) (BitVec.ofNat 64 (s.core n).pc)

/-- A parity error counts, and may be advised. -/
def State.parityTold (s : State) (n : Nat) (st : W16) (limit k : Nat) : State :=
  if (st = Status.operandParity ∨ st = Status.accParity) && decide (limit ≤ k) then
    (if st = Status.operandParity ∨ st = Status.accParity then s.count .TC_CNT_PARITY n else s).advise 1
  else if st = Status.operandParity ∨ st = Status.accParity then s.count .TC_CNT_PARITY n else s

theorem coreFaulted_eq (s : State) (n : Nat) (st : W16) : s.coreFaulted n st = (((s.faultLogged n st).parityTold n st
    (s.regNat .ICU_ADV_PARITY 0 0) (s.faultedCore n st).parity).setCore n (s.faultedCore n st)).cmdFault (s.core n).ctx st := rfl

def parityToldChanges : List Comp := adviseChanges ++ [.reg .TC_CNT_PARITY]

theorem parityTold_keeps {s : State} (h : Keeps cs u s) (n : Nat) (st : W16) (limit k : Nat) (hc : Within parityToldChanges cs) :
    Keeps cs u (s.parityTold n st limit k) := by
  simp only [parityToldChanges, within_append] at hc
  obtain ⟨adv, par⟩ := hc
  have counted : Keeps cs u (if st = Status.operandParity ∨ st = Status.accParity then s.count .TC_CNT_PARITY n else s) := by
    split
    · exact count_keeps h _ _ (.inr (par _ (by simp)))
    · exact h
  unfold State.parityTold
  split
  · exact advise_keeps counted _ adv
  · exact counted

theorem parityTold_reg (s : State) {n : Nat} (hn : n < 32) (st : W16) (limit k : Nat) : (s.parityTold n st limit k).reg .TC_CNT_PARITY n 0 =
    if st = Status.operandParity ∨ st = Status.accParity then counted (s.reg .TC_CNT_PARITY n 0) else s.reg .TC_CNT_PARITY n 0 := by
  have ok := (regOk_tcFault hn).2.1
  have inner : (if st = Status.operandParity ∨ st = Status.accParity then s.count .TC_CNT_PARITY n else s).reg .TC_CNT_PARITY n 0 =
      if st = Status.operandParity ∨ st = Status.accParity then counted (s.reg .TC_CNT_PARITY n 0) else s.reg .TC_CNT_PARITY n 0 := by
    split
    · exact count_reg s _ _ ok
    · rfl
  unfold State.parityTold
  split
  · rw [(advise_keeps (.refl _) 1 (Within.mem _)).reg_eq (by decide) (by decide) ok, inner]
  · exact inner

theorem coreFaulted_core (s : State) (n : Nat) (st : W16) : (s.coreFaulted n st).core n = s.faultedCore n st := by
  have quiet : (s.faultedCore n st).st ≠ .running ∧ (s.faultedCore n st).st ≠ .committing := by
    change (if _ then _ else _) ≠ _ ∧ (if _ then _ else _) ≠ _
    split <;> exact ⟨nofun, nofun⟩
  rw [coreFaulted_eq]
  generalize (s.faultLogged n st).parityTold n st (s.regNat .ICU_ADV_PARITY 0 0) (s.faultedCore n st).parity = v
  obtain ⟨-, -, -, cores⟩ := cmdFault_spec (v.setCore n (s.faultedCore n st)) (s.core n).ctx st
  rw [cores n (by rw [core_setCore_self]; exact quiet.1) (by rw [core_setCore_self]; exact quiet.2), core_setCore_self]

/-- What a fault of a core leaves (R105, R127). -/
theorem coreFaulted_spec (s : State) (n : Nat) (st : W16) : coreFaults n st s (s.coreFaulted n st) ∧ (n < 32 →
    (s.coreFaulted n st).reg .TC_CNT_PARITY n 0 =
      if st = Status.operandParity ∨ st = Status.accParity then counted (s.reg .TC_CNT_PARITY n 0) else s.reg .TC_CNT_PARITY n 0) := by
  have logged : n < 32 → (s.faultLogged n st).reg .TC_FAULT n 0 = BitVec.ofNat 64 (st.toNat + 65536 * ((s.core n).pc % 64)) ∧
      (s.faultLogged n st).reg .TC_CNT_PARITY n 0 = s.reg .TC_CNT_PARITY n 0 := by
    intro hn
    obtain ⟨fault, parity, -⟩ := regOk_tcFault hn
    unfold State.faultLogged
    have log := fun v : State => elog_keeps (cs := fun c => c ∈ elogChanges) (.refl v) st unitTc n (s.core n).ctx
      (s.ctxFn (s.core n).ctx) (BitVec.ofNat 64 (s.core n).pc) (Within.mem _)
    rw [(log _).reg_eq (by decide) (by decide) fault, (log _).reg_eq (by decide) (by decide) parity]
    exact ⟨reg_setReg_self s _ fault, reg_setReg_other s _ parity (.inl (by decide))⟩
  have told := parityTold_keeps (.refl (s.faultLogged n st)) n st (s.regNat .ICU_ADV_PARITY 0 0) (s.faultedCore n st).parity (Within.mem _)
  have parity := fun hn : n < 32 => parityTold_reg (s.faultLogged n st) hn st (s.regNat .ICU_ADV_PARITY 0 0) (s.faultedCore n st).parity
  have core := coreFaulted_core s n st
  rw [coreFaulted_eq] at core ⊢
  generalize (s.faultLogged n st).parityTold n st (s.regNat .ICU_ADV_PARITY 0 0) (s.faultedCore n st).parity = v at *
  have fault := cmdFault_keeps (.refl (v.setCore n (s.faultedCore n st))) (s.core n).ctx st (Within.mem _)
  obtain ⟨idle, gone, last, -⟩ := cmdFault_spec (v.setCore n (s.faultedCore n st)) (s.core n).ctx st
  refine ⟨⟨fun hn => ?_, last, ?_, ?_, ?_, ?_, idle, gone⟩, fun hn => ?_⟩
  · have ok := (regOk_tcFault hn).1
    rw [fault.reg_eq (by decide) (by decide) ok]
    exact (told.reg_eq (by decide) (by decide) ok).trans (logged hn).1
  · rw [core]
    rfl
  · rw [core]
    rfl
  · rw [core]
    rfl
  · rw [core]
    rfl
  · have ok := (regOk_tcFault hn).2.1
    rw [fault.reg_eq (by decide) (by decide) ok]
    refine Eq.trans ?_ ((parity hn).trans (by rw [(logged hn).2]))
    exact reg_congr rfl _ _ _

end Sys2Proof.Machine
end

section
/-! SUPPORT. Work-counter records (R143 to R145, Table 5.5), kills and faults of cores (R105, R126, R127). -/

set_option Elab.async false

namespace Sys2Proof.Machine

variable {cs : Comp → Prop} {u : State}

/-! ## Fields of records -/

theorem basin_putRecField (s : State) (r : WorkRec) (off n v k : Nat) : (s.putRecField r off n v).basin k =
    if k = r.cluster then Mem.writeList (s.basin r.cluster) (r.addr + off) (leBytes n v) else s.basin k := basin_setBasin s _ k _

theorem recField_put_self (s : State) (r : WorkRec) (off n v : Nat) : (s.putRecField r off n v).recField r off n = v % 256 ^ n := by
  unfold State.recField
  rw [basin_putRecField, if_pos rfl, rd_writeList_self]

/-- A field of a record stays where another is written beside it. -/
theorem recField_put_apart (s : State) (r q : WorkRec) {off n o m : Nat} (v : Nat)
    (h : r.cluster ≠ q.cluster ∨ r.addr + off + n ≤ q.addr + o ∨ q.addr + o + m ≤ r.addr + off) :
    (s.putRecField r off n v).recField q o m = s.recField q o m := by
  unfold State.recField
  rw [basin_putRecField]
  split
  · next same =>
    unfold Mem.rd
    rw [same]
    refine congrArg leVal (Mem.readList_congr fun i hi => Mem.read_writeList_ne _ _ _ ?_)
    rw [leBytes_length]
    have apart := h.resolve_left (fun other => other same.symm)
    omega
  · rfl

theorem recField_congr {s t : State} {r : WorkRec} (h : t.basin r.cluster = s.basin r.cluster) (o m : Nat) : t.recField r o m = s.recField r o m := by
  unfold State.recField
  rw [h]

theorem recLive_congr {s t : State} (dev : t.dev = s.dev) (weir : t.weir = s.weir) (r : WorkRec) : t.recLive r = s.recLive r := by
  unfold State.recLive
  rw [clocked_congr dev, domainLive_congr (congrArg Weir.live weir), clockStopped_congr (congrArg Weir.cls weir)]

theorem coreRuns_congr {s t : State} (dev : t.dev = s.dev) (weir : t.weir = s.weir) (n : Nat) : t.coreRuns n = s.coreRuns n := by
  unfold State.coreRuns
  rw [clocked_congr dev, domainLive_congr (congrArg Weir.live weir), clockStopped_congr (congrArg Weir.cls weir)]

/-- A record as it is closed (R145). -/
theorem closeRec_fields (s : State) (r : WorkRec) : (s.closeRec r).recField r 4 4 = (s.recField r 4 4 + 1) % 2 ^ 32 ∧
    (s.closeRec r).recField r 0 4 = 0xFFFFFFFF ∧ (s.closeRec r).recField r 12 4 = 0 := by
  unfold State.closeRec
  refine ⟨?_, ?_, ?_⟩
  · rw [recField_put_apart _ _ _ _ (by omega), recField_put_apart _ _ _ _ (by omega), recField_put_self]
    omega
  · rw [recField_put_apart _ _ _ _ (by omega), recField_put_self]
    decide
  · rw [recField_put_self]
    decide

/-- Two records that share no byte of a basin. -/
def WorkRec.apart (x y : WorkRec) : Prop := x.cluster ≠ y.cluster ∨ x.addr + 64 ≤ y.addr ∨ y.addr + 64 ≤ x.addr

theorem closeRec_apart (s : State) {r q : WorkRec} (h : r.apart q) {o m : Nat} (inside : o + m ≤ 64) :
    (s.closeRec r).recField q o m = s.recField q o m := by
  unfold WorkRec.apart at h
  unfold State.closeRec
  rw [recField_put_apart _ _ _ _ (by omega), recField_put_apart _ _ _ _ (by omega), recField_put_apart _ _ _ _ (by omega)]

theorem recLive_putRecField (s : State) (r q : WorkRec) (off n v : Nat) : (s.putRecField r off n v).recLive q = s.recLive q :=
  recLive_congr rfl rfl q

theorem recLive_closeRec (s : State) (r q : WorkRec) : (s.closeRec r).recLive q = s.recLive q := by
  unfold State.closeRec
  rw [recLive_putRecField, recLive_putRecField, recLive_putRecField]

theorem closeRecs_cons {s : State} {r : WorkRec} (live : s.recLive r = true) (rs : List WorkRec) :
    s.closeRecs (r :: rs) = (s.closeRec r).closeRecs rs := by
  change (if s.recLive r then s.closeRec r else s).closeRecs rs = _
  rw [if_pos live]

theorem recLive_rest {s : State} {r : WorkRec} {rs : List WorkRec} (live : ∀ x ∈ r :: rs, s.recLive x = true) :
    ∀ x ∈ rs, (s.closeRec r).recLive x = true := by
  intro x mem
  rw [recLive_closeRec]
  exact live x (List.mem_cons_of_mem _ mem)

theorem closeRecs_apart {s : State} {rs : List WorkRec} (live : ∀ r ∈ rs, s.recLive r = true) {q : WorkRec} (h : ∀ r ∈ rs, r.apart q)
    {o m : Nat} (inside : o + m ≤ 64) : (s.closeRecs rs).recField q o m = s.recField q o m := by
  induction rs generalizing s with
  | nil => rfl
  | cons r rs ih =>
    rw [closeRecs_cons (live r (List.mem_cons_self ..))]
    exact (ih (recLive_rest live) fun x mem => h x (List.mem_cons_of_mem _ mem)).trans (closeRec_apart s (h r (List.mem_cons_self ..)) inside)

theorem WorkRec.apart.symm {x y : WorkRec} (h : x.apart y) : y.apart x := by
  unfold WorkRec.apart at h ⊢
  omega

theorem closeRecs_fields {s : State} {rs : List WorkRec} (live : ∀ r ∈ rs, s.recLive r = true) (apart : rs.Pairwise WorkRec.apart) :
    ∀ x ∈ rs, (s.closeRecs rs).recField x 4 4 = (s.recField x 4 4 + 1) % 2 ^ 32 ∧
      (s.closeRecs rs).recField x 0 4 = 0xFFFFFFFF ∧ (s.closeRecs rs).recField x 12 4 = 0 := by
  induction rs generalizing s with
  | nil => simp
  | cons r rs ih =>
    obtain ⟨first, rest⟩ := List.pairwise_cons.1 apart
    rw [closeRecs_cons (live r (List.mem_cons_self ..))]
    intro x mem
    rcases List.mem_cons.1 mem with rfl | mem
    · obtain ⟨gen, next, count⟩ := closeRec_fields s x
      have others : ∀ y ∈ rs, y.apart x := fun y hy => (first y hy).symm
      exact ⟨(closeRecs_apart (recLive_rest live) others (by decide)).trans gen,
        (closeRecs_apart (recLive_rest live) others (by decide)).trans next,
        (closeRecs_apart (recLive_rest live) others (by decide)).trans count⟩
    · obtain ⟨gen, next, count⟩ := ih (recLive_rest live) rest x mem
      rw [closeRec_apart s (first x mem) (by decide)] at gen
      exact ⟨gen, next, count⟩

/-! ## Kills -/

theorem regOk_lateKill : ∀ {n : Nat}, n < 4 → regOk .CL_CNT_LATEKILL n 0 = true := by decide +kernel

theorem strike_killed (s : State) (c : Nat) (r : CmdRun) (n : Nat) : ((s.strike c r).killCores c (List.range 32)).core n =
    if n < 32 ∧ ((s.core n).st = .running ∨ (s.core n).st = .committing) ∧ (s.core n).ctx = c then
      if s.coreRuns n = true then (s.core n).kill else { s.core n with killed := true }
    else s.core n := by
  have recs := closeRecs_keeps (.refl s) r.recs (Within.mem _)
  have core : (s.strike c r).core n = s.core n := core_congr (recs.slu.cores.resolve_left (by decide)) n
  have runs : (s.strike c r).coreRuns n = s.coreRuns n := coreRuns_congr (recs.dev_eq (by decide)) (recs.weir_eq (by decide)) n
  obtain ⟨-, hit, miss⟩ := killCores_core (s.strike c r) c (List.range 32) n
  rw [List.mem_range, core] at hit miss
  split
  · next on =>
    rw [hit on.1 on.2]
    unfold State.killedCore
    rw [runs, core]
  · next off => exact miss off

theorem killCmd_strikes (s : State) (c : Nat) (r : CmdRun) :
    ((s.strike c r).killCores c (List.range 32)).cmdRun c = some r.struck ∧
    (∀ k, k ≠ c → ((s.strike c r).killCores c (List.range 32)).cmdRun k = s.cmdRun k) ∧
    ∀ x, ((s.strike c r).killCores c (List.range 32)).basin x = (s.closeRecs r.recs).basin x := by
  have kill := killCores_keeps (.refl (s.strike c r)) c (List.range 32) (Within.mem _)
  have recs := closeRecs_keeps (.refl s) r.recs (Within.mem _)
  have cmds := fun k => cmdRun_congr (kill.slu.cmds.resolve_left (by decide)) k
  have basins := fun x => basin_congr (kill.slu.basins.resolve_left (by decide)) x
  generalize (s.strike c r).killCores c (List.range 32) = v at *
  refine ⟨(cmds c).trans (strike_cmdRun s c r), fun k other => (cmds k).trans ?_, fun x => (basins x).trans ?_⟩
  · unfold State.strike
    rw [cmdRun_setCmdRun, if_neg other, cmdRun_congr (recs.slu.cmds.resolve_left (by decide))]
  · unfold State.strike
    generalize s.closeRecs r.recs = w
    rfl

/-- The components that a command's kill changes where no shard had completed. -/
def strikeChanges : List Comp := putRecFieldChanges ++ setCmdRunChanges ++ setCoreChanges

theorem killCmd_strike_keeps {s : State} (h : Keeps cs u s) (c : Nat) (r : CmdRun) (hc : Within strikeChanges cs) :
    Keeps cs u ((s.strike c r).killCores c (List.range 32)) := by
  simp only [strikeChanges, within_append, and_assoc] at hc
  obtain ⟨recs, cmd, core⟩ := hc
  exact killCores_keeps (setCmdRun_keeps (closeRecs_keeps h _ recs) _ _ cmd) _ _ core

/-- A killed core that has discarded its tiles (R126). -/
def Core.idled (c : Core) : Core :=
  { c with
    st := .idle, fires := [], loads := [], kept := [], inits := [], scanning := none, slots := [], loaded := none
    waiting := none }

/-- The statuses that a core's access can fault with (R105, R127). -/
def coreFaultStatuses : List W16 := [Status.operandParity, Status.accParity, Status.addrReserved, Status.addrAbsent, Status.addrRegister,
  Status.poisonMade, Status.poisonRead]

/-- TC_FAULT is read and cleared, but for an event of the same cycle. -/
def State.faultRead (s : State) (n : Nat) (event : W64) : State :=
  (s.setReg .TC_FAULT n 0 (event &&& 0x3FFFFF#64)).send (.completion 0 .ok (leBytes 4 (s.reg .TC_FAULT n 0).toNat))

/-- A halted core is idle again. -/
def State.unhalt (s : State) (n : Nat) : State := if (s.core n).st == .halted then s.updCore n (fun c => { c with st := .idle }) else s

theorem unhalt_core (s : State) (n k : Nat) : (s.unhalt n).core k =
    if k = n ∧ (s.core n).st = .halted then { s.core n with st := .idle } else s.core k := by
  unfold State.unhalt
  by_cases halted : (s.core n).st = .halted
  · rw [if_pos (by simp [halted]), core_updCore]
    simp only [halted, and_true]
  · rw [if_neg (by simp [halted]), if_neg fun h => halted h.2]

theorem unhalt_fields (s : State) (n : Nat) : (s.unhalt n).out = s.out ∧ (s.unhalt n).regs = s.regs := by
  unfold State.unhalt
  split
  · simp
  · exact ⟨rfl, rfl⟩

theorem faultRead_core (s : State) (n : Nat) (event : W64) (k : Nat) : (s.faultRead n event).core k = s.core k :=
  core_congr (by unfold State.faultRead; simp) k

theorem execTcFaultRead_eq (s : State) (n : Nat) (event : W64) : execTcFaultRead n event s =
    .next (s.when (corePresent s.dev.part n) fun s => (s.faultRead n event).unhalt n) := by
  unfold execTcFaultRead State.when
  split
  · refine congrArg _ ?_
    unfold State.unhalt
    dsimp only
    rw [faultRead_core]
    rfl
  · rfl

theorem faultRead_spec (s : State) (n : Nat) (event : W64) :
    sends [.completion 0 .ok (leBytes 4 (s.reg .TC_FAULT n 0).toNat)] s ((s.faultRead n event).unhalt n) ∧
    (n < 32 → ((s.faultRead n event).unhalt n).reg .TC_FAULT n 0 = event &&& 0x3FFFFF#64) ∧
    ((s.faultRead n event).unhalt n).core n = (if (s.core n).st = .halted then { s.core n with st := .idle } else s.core n) ∧
    ∀ m, m ≠ n → ((s.faultRead n event).unhalt n).core m = s.core m := by
  have core := faultRead_core s n event
  obtain ⟨out, regs⟩ := unhalt_fields (s.faultRead n event) n
  refine ⟨?_, fun hn => ?_, ?_, fun m other => ?_⟩
  · unfold sends
    rw [out]
    unfold State.faultRead
    rw [send_out]
    simp
  · rw [reg_congr regs]
    unfold State.faultRead
    rw [reg_send, reg_setReg_self _ _ (regOk_tcFault hn).1]
  · rw [unhalt_core, core]
    simp
  · rw [unhalt_core, if_neg fun h => other h.1, core]

/-- Settles O46: the branches of a kill, what a killed core discards, the fault of a core, and the read of TC_FAULT. -/
theorem killsAndCoreFaults : Obligations.KillsAndCoreFaults := by
  refine ⟨fun c s => ?_, fun n s => ?_, fun n st s => ?_, fun n event s => ?_⟩
  · refine completes_of (t := s.killCmd c) rfl (killCmd_keeps (.refl s) c (Within.mem _)) (by decide) ?_
    obtain ⟨idle, runs⟩ := killCmd_spec s c
    refine ⟨idle, fun r run => ?_⟩
    obtain ⟨stays, kills⟩ := runs r run
    refine ⟨stays, fun live clocked => ?_⟩
    obtain ⟨late, strikes⟩ := kills live clocked
    refine ⟨fun x complete => ?_, fun unfinished => ?_⟩
    · rw [late x complete]
      exact ⟨(count_keeps (cs := fun c => c ∈ [Comp.reg .CL_CNT_LATEKILL]) (.refl s) _ _ (.inr (by decide))).changesOnly,
        fun small => count_reg s _ _ (regOk_lateKill small)⟩
    · rw [strikes unfinished]
      obtain ⟨own, others, basins⟩ := killCmd_strikes s c r
      have cores := strike_killed s c r
      have kept := (killCmd_strike_keeps (.refl s) c r (Within.mem _)).changesOnly.mono
        (b := [.sluBasins, .sluCmds, .sluCores]) (by decide)
      generalize (s.strike c r).killCores c (List.range 32) = v at *
      refine ⟨kept, own, others, fun apart x mem => ?_, cores⟩
      obtain ⟨gen, next, count⟩ := closeRecs_fields clocked apart x mem
      rw [recField_congr (basins x.cluster), recField_congr (basins x.cluster), recField_congr (basins x.cluster)]
      exact ⟨gen, next, count⟩
  · refine completes_if (p := (s.core n).st = .killing ∧ s.coreRuns n = true) (by simp) rfl (execCoreIdle_keeps (.refl s) n (Within.mem _))
      (by decide) fun _ => ?_
    have cores := fun k => core_congr (s := s.updCore n Core.idled) (t := (s.updCore n Core.idled).count .TC_CNT_KILL n) (by simp) k
    refine ⟨(cores n).trans ?_, fun m other => (cores m).trans ?_, fun hn => ?_⟩
    · rw [core_updCore, if_pos rfl]
      rfl
    · rw [core_updCore, if_neg other]
    · exact count_reg (s.updCore n Core.idled) _ _ (regOk_tcFault hn).2.2
  · refine completes_if (p := ((s.core n).st = .running ∨ (s.core n).st = .committing) ∧ s.coreRuns n = true ∧ st ∈ coreFaultStatuses)
      ?_ rfl (execCoreFault_keeps (.refl s) n st (Within.mem _)) (by decide +kernel) fun _ => coreFaulted_spec s n st
    unfold coreFaultStatuses
    simp [and_assoc]
  · have k := execTcFaultRead_keeps (.refl s) n event (Within.mem _)
    rw [execTcFaultRead_eq] at k
    exact completes_if (p := corePresent s.dev.part n = true) Iff.rfl (execTcFaultRead_eq s n event) k (by decide)
      fun _ => faultRead_spec s n event

end Sys2Proof.Machine
end

section
/-! SUPPORT. STREAM (R93, R94, R100, R101, R104, R109, R111). -/

set_option Elab.async false

namespace Sys2Proof.Machine

variable {cs : Comp → Prop} {u : State}

/-! ## Tables given by a function -/

theorem SMap.get_filterMap {α : Type} [DecidableEq α] (d f : Nat → α) (l : List Nat) (k : Nat) :
    SMap.get d (l.filterMap (fun k => if f k = d k then none else some (k, f k))) k = if k ∈ l then f k else d k := by
  induction l with
  | nil => rfl
  | cons a l ih =>
    by_cases plain : f a = d a
    · rw [List.filterMap_cons_none (by rw [if_pos plain]), ih]
      by_cases own : k = a
      · subst own
        simp [plain]
      · simp [own]
    · rw [List.filterMap_cons_some (by rw [if_neg plain])]
      unfold SMap.get
      by_cases own : a = k
      · subst own
        simp
      · rw [if_neg own, ih]
        simp [Ne.symm own]

/-- A table given by a function has its values at the keys below its bound. -/
theorem SMap.get_ofFn {α : Type} [DecidableEq α] (d f : Nat → α) {n k : Nat} (h : k < n) : SMap.get d (SMap.ofFn d n f) k = f k := by
  unfold SMap.ofFn
  rw [SMap.get_filterMap, if_pos (List.mem_range.2 h)]

/-! ## Activity counters -/

theorem activity_off {s : State} {n : Nat} (h : s.regBit .TC_ARR_CTRL n 0 0 = false) (r : Reg) (v : Nat) : s.activity r n v = s := by
  unfold State.activity
  rw [if_neg (by simp [h])]

theorem regOk_activity : ∀ {n : Nat}, n < 32 → regOk .TC_ARR_CTRL n 0 = true ∧ regOk .TC_CNT_EXCH n 0 = true ∧
    regOk .TC_CNT_UPDATES n 0 = true ∧ regOk .TC_CNT_PRODUCTS n 0 = true ∧ regOk .TC_CNT_GATED n 0 = true := by decide +kernel

theorem activity_reg_other (s : State) {r q : Reg} {n : Nat} (v : Nat) (ok : regOk q n 0 = true) (h : q ≠ r) :
    (s.activity r n v).reg q n 0 = s.reg q n 0 := by
  unfold State.activity
  split
  · exact addTo_reg_other s v ok (.inl h)
  · rfl

theorem activity_enabled (s : State) {r : Reg} {n : Nat} (v : Nat) (hn : n < 32) (h : Reg.TC_ARR_CTRL ≠ r) :
    (s.activity r n v).regBit .TC_ARR_CTRL n 0 0 = s.regBit .TC_ARR_CTRL n 0 0 := by
  unfold State.regBit
  rw [activity_reg_other s v (regOk_activity hn).1 h]

theorem activity_counts {s : State} {n : Nat} (on : s.regBit .TC_ARR_CTRL n 0 0 = true) (r : Reg) (v : Nat) (ok : regOk r n 0 = true) :
    (s.activity r n v).reg r n 0 = s.reg r n 0 + BitVec.ofNat 64 v := by
  rw [activity_reg s r n v ok, if_pos on]

/-- What a STREAM counts (Table 4.13). -/
def State.streamCounts (s : State) (n updates products gated : Nat) (kept : Bool) : State :=
  (((if kept then s else s.activity .TC_CNT_EXCH n 64).activity .TC_CNT_UPDATES n updates).activity .TC_CNT_PRODUCTS n
    products).activity .TC_CNT_GATED n gated

theorem exchanged_eq (s : State) (n : Nat) (kept : Bool) : (if kept then s else s.activity .TC_CNT_EXCH n 64) =
    s.activity .TC_CNT_EXCH n 64 ∨ (kept = true ∧ (if kept then s else s.activity .TC_CNT_EXCH n 64) = s) := by
  cases kept with
  | true => exact .inr ⟨rfl, rfl⟩
  | false => exact .inl rfl

theorem streamCounts_core (s : State) (n a b c : Nat) (kept : Bool) (k : Nat) : (s.streamCounts n a b c kept).core k = s.core k := by
  unfold State.streamCounts
  rw [activity_core, activity_core, activity_core]
  cases kept with
  | true => rfl
  | false => exact activity_core s _ _ _ k

theorem streamCounts_off {s : State} {n : Nat} (h : s.regBit .TC_ARR_CTRL n 0 0 = false) (a b c : Nat) (kept : Bool) :
    s.streamCounts n a b c kept = s := by
  unfold State.streamCounts
  have first : (if kept then s else s.activity .TC_CNT_EXCH n 64) = s := by
    cases kept with
    | true => rfl
    | false => exact activity_off h _ _
  rw [first, activity_off h, activity_off h, activity_off h]

theorem streamCounts_on {s : State} {n : Nat} (hn : n < 32) (on : s.regBit .TC_ARR_CTRL n 0 0 = true) (a b c : Nat) (kept : Bool) :
    (s.streamCounts n a b c kept).reg .TC_CNT_UPDATES n 0 = s.reg .TC_CNT_UPDATES n 0 + BitVec.ofNat 64 a ∧
    (s.streamCounts n a b c kept).reg .TC_CNT_PRODUCTS n 0 = s.reg .TC_CNT_PRODUCTS n 0 + BitVec.ofNat 64 b ∧
    (s.streamCounts n a b c kept).reg .TC_CNT_GATED n 0 = s.reg .TC_CNT_GATED n 0 + BitVec.ofNat 64 c ∧
    (s.streamCounts n a b c kept).reg .TC_CNT_EXCH n 0 = s.reg .TC_CNT_EXCH n 0 + if kept then 0 else BitVec.ofNat 64 64 := by
  obtain ⟨-, okE, okU, okP, okG⟩ := regOk_activity hn
  have first : ∃ v : State, (if kept then s else s.activity .TC_CNT_EXCH n 64) = v ∧ v.regBit .TC_ARR_CTRL n 0 0 = true ∧
      v.reg .TC_CNT_EXCH n 0 = s.reg .TC_CNT_EXCH n 0 + (if kept then 0 else BitVec.ofNat 64 64) ∧
      ∀ q, regOk q n 0 = true → q ≠ .TC_CNT_EXCH → v.reg q n 0 = s.reg q n 0 := by
    cases kept with
    | true => exact ⟨s, rfl, on, by simp, fun _ _ _ => rfl⟩
    | false =>
      exact ⟨_, rfl, (activity_enabled s 64 hn (by decide)).trans on, activity_counts on _ _ okE,
        fun q ok other => activity_reg_other s 64 ok other⟩
  obtain ⟨v, eq, on1, exch, others⟩ := first
  have on2 := (activity_enabled v (r := .TC_CNT_UPDATES) a hn (by decide)).trans on1
  have on3 := (activity_enabled (v.activity .TC_CNT_UPDATES n a) (r := .TC_CNT_PRODUCTS) b hn (by decide)).trans on2
  unfold State.streamCounts
  rw [eq]
  refine ⟨?_, ?_, ?_, ?_⟩
  · rw [activity_reg_other _ _ okU (by decide), activity_reg_other _ _ okU (by decide), activity_counts on1 _ _ okU,
      others _ okU (by decide)]
  · rw [activity_reg_other _ _ okP (by decide), activity_counts on2 _ _ okP, activity_reg_other _ _ okP (by decide),
      others _ okP (by decide)]
  · rw [activity_counts on3 _ _ okG, activity_reg_other _ _ okG (by decide), activity_reg_other _ _ okG (by decide),
      others _ okG (by decide)]
  · rw [activity_reg_other _ _ okE (by decide), activity_reg_other _ _ okE (by decide), activity_reg_other _ _ okE (by decide), exch]

/-! ## Slots -/

theorem slot_setSlot (c : Core) (k j : Nat) (t : Tile) : (c.setSlot k t).slot j = if j = k then t else c.slot j :=
  SMap.get_set _ _ _ _ _

theorem past_slot (c : Core) (j : Nat) : c.past.slot j = c.slot j := by
  unfold Core.slot
  rw [(past_fields c).1]

/-! ## The tile -/

/-- A cell after the updates of a STREAM. -/
def Feed.cell (f : Feed) (x : Tile) (k : Nat) : Int × Bool :=
  cellFold (f.sum x.base (k / 128) (k % 128)) (accVal (SMap.get (fun _ => 0) x.acc k)) f.op.count

theorem cellFold_word (p : Nat → Int) (w : W32) (k : Nat) : accVal (accWord (cellFold p (accVal w) k).1) = (cellFold p (accVal w) k).1 := by
  cases k with
  | zero =>
    refine accVal_accWord ?_ ?_
    · exact BitVec.le_toInt w
    · have := BitVec.toInt_lt (x := w)
      unfold cellFold accVal
      omega
  | succ k => exact accVal_accWord (accumulate_range _ _).1 (accumulate_range _ _).2

theorem tile_ovf (f : Feed) (x : Tile) : (f.tile x).ovf = (x.ovf || cells.any fun k => (f.cell x k).2) := by
  unfold Feed.tile Feed.cell
  dsimp only

theorem tile_acc (f : Feed) (x : Tile) : (f.tile x).acc = SMap.ofFn (fun _ => 0) 16384 (fun k => accWord (f.cell x k).1) := by
  unfold Feed.tile Feed.cell
  dsimp only

theorem tile_base (f : Feed) (x : Tile) : (f.tile x).base = x.base := by
  unfold Feed.tile
  dsimp only

theorem feed_tile (f : Feed) (x : Tile) : (f.tile x).base = x.base ∧
    (∀ k < 16384, accVal (SMap.get (fun _ => 0) (f.tile x).acc k) = (f.cell x k).1) ∧
    ((f.tile x).ovf = true ↔ x.ovf = true ∨ ∃ k < 16384, (f.cell x k).2 = true) := by
  refine ⟨tile_base f x, fun k hk => ?_, ?_⟩
  · have word : SMap.get (fun _ => 0) (f.tile x).acc k = accWord (f.cell x k).1 := by
      rw [tile_acc, SMap.get_ofFn _ _ hk]
    rw [word]
    exact cellFold_word _ _ _
  · rw [tile_ovf]
    unfold cells
    simp only [Bool.or_eq_true, List.any_eq_true, List.mem_range]

/-! ## The command -/

/-- What a STREAM waits for (R104, R109; log 86). -/
def Feed.waits (f : Feed) (c : Core) : Prop :=
  (∃ l ∈ c.loads, l.operand ≠ 4 ∧ ∃ g ∈ regionsOf l.bank l.line l.lines, g ∈ f.regions) ∨
    c.initing f.op.slot = true ∨ f.op.exp = true ∧ ∃ b, c.scanning = some (f.op.slot, b)

/-- The core after a STREAM has put a tile in its slot, before it goes on. -/
def Core.streamed (c : Core) (k : Nat) (y : Tile) : Core := { c.setSlot k y with loaded := some k }

theorem streamed_spec (c : Core) (k : Nat) (y : Tile) : (c.streamed k y).fires = c.fires ∧ (c.streamed k y).st = c.st ∧
    (c.streamed k y).past.loaded = some k ∧ ∀ j, (c.streamed k y).past.slot j = if j = k then y else c.slot j := by
  refine ⟨rfl, rfl, ?_, fun j => ?_⟩
  · unfold Core.past
    split <;> rfl
  · rw [past_slot]
    exact slot_setSlot c k j y

theorem waits_iff (f : Feed) (c : Core) : (c.loads.any (fun l => l.operand != 4 &&
      (regionsOf l.bank l.line l.lines).any (fun x => f.regions.contains x)) || c.initing f.op.slot || (f.op.exp &&
        (c.scanning.map fun x => decide (x.1 = f.op.slot)).getD false)) = true ↔ f.waits c := by
  unfold Feed.waits
  have loads : c.loads.any (fun l => l.operand != 4 && (regionsOf l.bank l.line l.lines).any (fun x => f.regions.contains x)) = true ↔
      ∃ l ∈ c.loads, l.operand ≠ 4 ∧ ∃ g ∈ regionsOf l.bank l.line l.lines, g ∈ f.regions := by
    simp [List.any_eq_true]
  rw [Bool.or_eq_true, Bool.or_eq_true, loads, or_assoc, Bool.and_eq_true]
  refine or_congr_right (or_congr_right (and_congr_right fun _ => ?_))
  cases c.scanning with
  | none => simp
  | some x =>
    obtain ⟨j, b⟩ := x
    simp

theorem stream_turn {n : Nat} {s : State} {r : Run} {fi : Fire} {op : Op} (turn : atTurn n 4 s r fi op) (f : Feed)
    (feed : (s.showing n fi).feed n r fi op = f) :
    (f.waits (s.core n) → exec (.stream n) s = .next s) ∧
    (¬ f.waits (s.core n) → exec (.stream n) s = .next ((((s.showing n fi).streamCounts n f.op.count
      (f.op.count * 16384 * f.perUpdate - f.gated) f.gated ((s.core n).loaded = some f.op.slot)).setCore n
        (((s.showing n fi).core n).streamed f.op.slot (f.tile ((s.core n).slot f.op.slot)))).advance n)) := by
  have test := waits_iff f (s.core n)
  have core := core_showing_self s n fi
  have loaded : ((s.showing n fi).core n).loaded = (s.core n).loaded := by rw [core]
  have slot : ((s.showing n fi).core n).slot f.op.slot = (s.core n).slot f.op.slot := by
    rw [core]
    rfl
  generalize kept : decide ((s.core n).loaded = some f.op.slot) = b
  refine ⟨fun waits => (front_run rfl turn).trans ?_, fun free => (front_run rfl turn).trans ?_⟩
  · refine congrArg _ ?_
    dsimp only
    rw [feed, if_pos]
    · rfl
    · rw [core]
      refine Eq.trans ?_ (test.2 waits)
      cases (s.core n).scanning <;> rfl
  · refine congrArg _ ?_
    dsimp only
    rw [feed, if_neg]
    · unfold State.streamCounts
      rw [loaded, slot]
      generalize f.tile ((s.core n).slot f.op.slot) = y
      subst kept
      by_cases same : (s.core n).loaded = some f.op.slot
      · rw [if_pos same, if_pos (by simp [same])]
        rfl
      · rw [if_neg same, if_neg (by simp [same])]
        rfl
    · rw [core]
      refine fun on => free (test.1 (Eq.trans ?_ on))
      cases (s.core n).scanning <;> rfl

/-- Settles O41: the tile of a STREAM cell by cell, and what its counters take. -/
theorem streamAccumulates : Obligations.StreamAccumulates := by
  intro n s
  refine completes_turn rfl (execStream_keeps (.refl s) n (Within.mem _)) (by decide) fun r fi op turn => ?_
  generalize feed : (s.showing n fi).feed n r fi op = f
  obtain ⟨stays, goes⟩ := stream_turn turn f feed
  by_cases waits : f.waits (s.core n)
  · exact ⟨s, stays waits, fun _ _ => rfl, fun _ => rfl, fun free => absurd waits free⟩
  · have run := goes waits
    have core := core_showing_self s n fi
    have cores := streamCounts_core (s.showing n fi) n f.op.count (f.op.count * 16384 * f.perUpdate - f.gated) f.gated
      ((s.core n).loaded = some f.op.slot)
    have off := fun h => streamCounts_off (s := s.showing n fi) (n := n) h f.op.count (f.op.count * 16384 * f.perUpdate - f.gated) f.gated
      ((s.core n).loaded = some f.op.slot)
    have on := fun hn h => streamCounts_on (s := s.showing n fi) (n := n) hn h f.op.count (f.op.count * 16384 * f.perUpdate - f.gated)
      f.gated ((s.core n).loaded = some f.op.slot)
    generalize (s.showing n fi).streamCounts n f.op.count (f.op.count * 16384 * f.perUpdate - f.gated) f.gated
      ((s.core n).loaded = some f.op.slot) = v at *
    obtain ⟨base, acc, ovf⟩ := feed_tile f ((s.core n).slot f.op.slot)
    generalize result : f.tile ((s.core n).slot f.op.slot) = y at *
    obtain ⟨fires, st, loaded, slots⟩ := streamed_spec ((s.showing n fi).core n) f.op.slot y
    have own := core_advance_self (v.setCore n (((s.showing n fi).core n).streamed f.op.slot y)) n
    rw [core_setCore_self] at own
    have slot : ∀ j, (((v.setCore n (((s.showing n fi).core n).streamed f.op.slot y)).advance n).core n).slot j =
        if j = f.op.slot then y else (s.core n).slot j := by
      intro j
      rw [own, slots, core]
      rfl
    have tile := (slot f.op.slot).trans (if_pos rfl)
    have regs : ((v.setCore n (((s.showing n fi).core n).streamed f.op.slot y)).advance n).regs = v.regs := rfl
    have shown := fun r => reg_congr (s := s) (t := s.showing n fi) rfl r n 0
    refine ⟨_, run, fun m other => ?_, fun h => absurd h waits, fun _ => ⟨?_, ?_, tile.trans result.symm, fun j other => (slot j).trans (if_neg other), ?_, ?_, ?_,
      fun disabled => ?_, fun hn enabled => ?_⟩⟩
    · rw [core_advance_other _ other, core_setCore, if_neg other, cores, core_showing_other s fi other]
    · refine passes_core turn (core_setCore_self _ _ _) (fires.trans ?_) (st.trans ?_)
      · rw [core]
      · rw [core]
    · rw [own]
      exact loaded
    · rw [tile, base]
    · rw [tile]
      exact acc
    · rw [tile]
      exact ovf
    · rw [regs, off disabled]
      rfl
    · obtain ⟨updates, products, gated, exch⟩ := on hn enabled
      rw [shown] at updates products gated exch
      rw [reg_congr regs, reg_congr regs, reg_congr regs, reg_congr regs, updates, products, gated, exch]
      refine ⟨rfl, rfl, rfl, ?_⟩
      by_cases same : (s.core n).loaded = some f.op.slot
      · rw [if_pos (by simp [same]), if_pos same]
      · rw [if_neg (by simp [same]), if_neg same]

end Sys2Proof.Machine
end

section
/-! SUPPORT. Writes of nibbles by a drain (R78, R113, R326). -/

set_option Elab.async false

namespace Sys2Proof.Machine

variable {cs : Comp → Prop} {u : State}

/-! ## Where a block lies -/

/-- The place `i` bytes further on in the same block. -/
def Where.plus (w : Where) (i : Nat) : Where :=
  match w with
  | .dram a => .dram (a + i)
  | .basin n a => .basin n (a + i)
  | .bad st => .bad st

/-- What an address can name. -/
theorem whereAddr_cases (p : Part) (a : Nat) : (whereAddr p a = .dram a ∧ a < dramSize p) ∨
    (whereAddr p a = .basin ((a - 0x1000000000) / 0x1000000) ((a - 0x1000000000) % 0x1000000) ∧ 0x1000000000 ≤ a) ∨
    ∃ st, whereAddr p a = .bad st := by
  unfold whereAddr basinSize
  split
  · next lt => exact .inl ⟨rfl, lt⟩
  · split
    · exact .inr (.inr ⟨_, rfl⟩)
    · split
      · exact .inr (.inr ⟨_, rfl⟩)
      · next ge =>
        split
        · dsimp only
          split
          · exact .inr (.inl ⟨rfl, Nat.le_of_not_lt ge⟩)
          · exact .inr (.inr ⟨_, rfl⟩)
        · split
          · exact .inr (.inr ⟨_, rfl⟩)
          · split
            · exact .inr (.inr ⟨_, rfl⟩)
            · exact .inr (.inr ⟨_, rfl⟩)

theorem dramSize_blocks (p : Part) (b : Nat) {i : Nat} (h : i < 64) : 64 * b + i < dramSize p ↔ 64 * b < dramSize p := by
  cases p <;> (unfold dramSize; dsimp only; omega)

/-- A block lies in one piece (R29). -/
theorem whereAddr_block (p : Part) (b : Nat) {i : Nat} (h : i < 64) : whereAddr p (64 * b + i) = (whereAddr p (64 * b)).plus i := by
  have edge (t : Nat) : 64 * b + i < 64 * t ↔ 64 * b < 64 * t := by omega
  have absent := edge 0x10000000
  have low := edge 0x40000000
  have basin := edge 0x40100000
  have gap := edge 0x80000000
  have reg := edge 0x80200000
  norm_num at absent low basin gap reg
  unfold whereAddr basinSize
  simp only [dramSize_blocks p b h, absent, low, basin, gap, reg]
  split
  · rfl
  · split
    · rfl
    · split
      · rfl
      · next ge =>
        split
        · have unit : (64 * b + i - 0x1000000000) / 0x1000000 = (64 * b - 0x1000000000) / 0x1000000 := by omega
          have rest : (64 * b + i - 0x1000000000) % 0x1000000 = (64 * b - 0x1000000000) % 0x1000000 + i := by omega
          rw [unit, rest]
          split <;> rfl
        · split
          · rfl
          · split <;> rfl

/-- Blocks that lie in the same place are one block. -/
theorem whereAddr_inj {p : Part} {b c : Nat} (h : whereAddr p (64 * b) = whereAddr p (64 * c)) (named : ∀ st, whereAddr p (64 * b) ≠ .bad st) :
    b = c := by
  rcases whereAddr_cases p (64 * b) with ⟨own, -⟩ | ⟨own, ge⟩ | ⟨st, bad⟩
  · rcases whereAddr_cases p (64 * c) with ⟨other, -⟩ | ⟨other, -⟩ | ⟨st, other⟩
    · rw [own, other, Where.dram.injEq] at h
      omega
    · rw [own, other] at h
      cases h
    · rw [own, other] at h
      cases h
  · rcases whereAddr_cases p (64 * c) with ⟨other, -⟩ | ⟨other, ge'⟩ | ⟨st, other⟩
    · rw [own, other] at h
      cases h
    · rw [own, other, Where.basin.injEq] at h
      omega
    · rw [own, other] at h
      cases h
  · exact absurd bad (named st)

/-- What memory holds at a place. -/
def State.byteOf (s : State) : Where → Byte
  | .dram x => s.dramByte x
  | .basin n x => Mem.read (s.basin n) x
  | .bad _ => 0x00#8

theorem memByte_eq (s : State) (a : Nat) : s.memByte a = s.byteOf (whereAddr s.dev.part a) := by
  unfold State.memByte
  cases whereAddr s.dev.part a <;> rfl

/-! ## Writing a block -/

theorem indexed_getElem {α : Type} (xs : List α) {i : Nat} (h : i < xs.length) : (indexed xs)[i]? = some (i, xs[i]) := by
  unfold indexed
  rw [List.getElem?_zip_eq_some]
  exact ⟨by rw [List.getElem?_range h], List.getElem?_eq_getElem h⟩

theorem mergeNibs_length (old : List Byte) (blk : Nat) (nibs : List (Nat × Nat)) : (mergeNibs old blk nibs).length = old.length := by
  unfold mergeNibs indexed
  simp

/-- The value that a nibble is given in a block. -/
def nibFor (nibs : List (Nat × Nat)) (a : Nat) : Option Nat := (nibs.find? (fun y => y.1 = a)).map (·.2)

theorem mergeNibs_getElem (old : List Byte) (blk : Nat) (nibs : List (Nat × Nat)) {i : Nat} (h : i < old.length) :
    (mergeNibs old blk nibs)[i]'(by rw [mergeNibs_length]; exact h) =
      BitVec.ofNat 8 ((nibFor nibs (128 * blk + 2 * i)).getD (old[i].toNat % 16) +
        16 * (nibFor nibs (128 * blk + 2 * i + 1)).getD (old[i].toNat / 16)) := by
  refine Option.some.inj ?_
  rw [← List.getElem?_eq_getElem]
  unfold mergeNibs nibFor
  rw [List.getElem?_map, indexed_getElem old h]
  rfl

/-- The data that a drain's nibbles make of a block. -/
def State.nibData (s : State) (blk : Nat) (nibs : List (Nat × Nat)) : List Byte := mergeNibs (s.memGet (64 * blk) 64) blk nibs

theorem nibData_length (s : State) (blk : Nat) (nibs : List (Nat × Nat)) : (s.nibData blk nibs).length = 64 := by
  unfold State.nibData State.memGet
  rw [mergeNibs_length]
  simp

/-- The byte of a block's data has the nibbles that it is given. -/
theorem nibData_nib (s : State) (blk : Nat) {nibs : List (Nat × Nat)} (small : ∀ y ∈ nibs, y.2 < 16) {a v : Nat} (own : a / 128 = blk)
    (hit : nibFor nibs a = some v) (h : a / 2 % 64 < (s.nibData blk nibs).length) :
    field ((s.nibData blk nibs)[a / 2 % 64]).toNat (4 * (a % 2)) 4 = v := by
  have bound : ∀ {b w}, nibFor nibs b = some w → w < 16 := by
    intro b w found
    unfold nibFor at found
    obtain ⟨y, at_, rfl⟩ := Option.map_eq_some_iff.1 found
    exact small y (List.mem_of_find?_eq_some at_)
  have le : ∀ {b d}, d < 16 → (nibFor nibs b).getD d < 16 := by
    intro b d hd
    cases found : nibFor nibs b with
    | none => exact hd
    | some w => exact bound found
  have len : a / 2 % 64 < (s.memGet (64 * blk) 64).length := by
    unfold State.memGet
    simp
    omega
  unfold State.nibData at h ⊢
  rw [mergeNibs_getElem _ _ _ len, BitVec.toNat_ofNat]
  generalize (s.memGet (64 * blk) 64)[a / 2 % 64] = old
  have byte := old.isLt
  have lo := le (b := 128 * blk + 2 * (a / 2 % 64)) (d := old.toNat % 16) (by omega)
  have hi := le (b := 128 * blk + 2 * (a / 2 % 64) + 1) (d := old.toNat / 16) (by omega)
  have fits := bound hit
  unfold field
  rcases Nat.mod_two_eq_zero_or_one a with even | odd
  · have at_ : 128 * blk + 2 * (a / 2 % 64) = a := by omega
    rw [at_] at lo ⊢
    rw [hit, even]
    simp only [Option.getD_some]
    omega
  · have at_ : 128 * blk + 2 * (a / 2 % 64) + 1 = a := by omega
    rw [at_] at hi ⊢
    rw [hit, odd]
    simp only [Option.getD_some]
    omega

/-- What the write of a block's nibbles does to memory (R326). -/
structure BlockPut (s t : State) (w : Where) (data : List Byte) : Prop where
  dev : t.dev = s.dev
  core : ∀ n, t.core n = s.core n
  poison : ∀ c, s.poisoned c = false → t.poisoned c = false
  dram : ∀ b, w ≠ .dram (b / 64 * 64) → t.dramByte b = s.dramByte b
  basin : ∀ m b, w ≠ .basin m (b / 64 * 64) → Mem.read (t.basin m) b = Mem.read (s.basin m) b
  stored : (∀ st, w ≠ .bad st) → (∀ x, w = .dram x → s.poisoned (x / 64) = false) →
    ∀ i (h : i < data.length), t.byteOf (w.plus i) = data[i]

theorem blockPut_dram {s t : State} {a : Nat} {data : List Byte} (len : data.length = 64) (start : a % 64 = 0) (dev : t.dev = s.dev)
    (core : ∀ n, t.core n = s.core n) (basins : t.slu.basins = s.slu.basins) (poison : ∀ c, s.poisoned c = false → t.poisoned c = false)
    (bytes : t.dram.bytes = s.dram.bytes ∧ s.poisoned (a / 64) = true ∨ t.dram.bytes = Mem.writeList s.dram.bytes a data) :
    BlockPut s t (.dram a) data := by
  refine ⟨dev, core, poison, fun b other => ?_, fun m b _ => by rw [basin_congr basins], fun _ clean i h => ?_⟩
  · unfold State.dramByte
    rcases bytes with ⟨same, -⟩ | written
    · rw [same]
    · rw [written]
      refine Mem.read_writeList_ne _ _ _ ?_
      have apart : a ≠ b / 64 * 64 := fun own => other (congrArg _ own)
      omega
  · rcases bytes with ⟨-, bad⟩ | written
    · rw [clean a rfl] at bad
      cases bad
    · change Mem.read t.dram.bytes (a + i) = _
      rw [written]
      exact Mem.read_writeList _ _ _ h

theorem blockPut_basin (s : State) {n a : Nat} {data : List Byte} (len : data.length = 64) (start : a % 64 = 0) :
    BlockPut s (s.setBasin n (Mem.writeList (s.basin n) a data)) (.basin n a) data := by
  refine ⟨rfl, fun _ => rfl, fun _ clean => clean, fun _ _ => rfl, fun m b other => ?_, fun _ _ i h => ?_⟩
  · rw [basin_setBasin]
    split
    · next own =>
      rw [own]
      refine Mem.read_writeList_ne _ _ _ ?_
      have apart : a ≠ b / 64 * 64 := fun at_ => other (by rw [own, at_])
      omega
    · rfl
  · change Mem.read ((s.setBasin n (Mem.writeList (s.basin n) a data)).basin n) (a + i) = _
    rw [basin_setBasin, if_pos rfl]
    exact Mem.read_writeList _ _ _ h

/-- A part of a block is written after a read of it, or discarded where that is poisoned (R326, R337). -/
def State.putPart (s : State) (port a : Nat) (data : List Byte) : State :=
  if s.poisoned (a / 64) then (s.mergeRead port (a / 64)).dmcLog (s.blockLoc (a / 64)) 4 port
  else ((s.mergeRead port (a / 64)).setDramBytes (Mem.writeList (s.mergeRead port (a / 64)).dram.bytes a data)).countWrite (a / 64)

theorem putPart_dram (s : State) (port a : Nat) (data : List Byte) : (∀ c, (s.putPart port a data).poisoned c = s.poisoned c) ∧
    ((s.putPart port a data).dram.bytes = s.dram.bytes ∧ s.poisoned (a / 64) = true ∨
      (s.putPart port a data).dram.bytes = Mem.writeList s.dram.bytes a data) := by
  obtain ⟨bytes, poison⟩ := mergeRead_dram s port (a / 64)
  unfold State.putPart
  split
  · next bad =>
    have log := dmcLog_dram (s.mergeRead port (a / 64)) (s.blockLoc (a / 64)) 4 port
    exact ⟨fun c => poisoned_congr ((congrArg Dram.poison log).trans poison) c, .inl ⟨(congrArg Dram.bytes log).trans bytes, bad⟩⟩
  · refine ⟨fun c => poisoned_congr ?_ c, .inr ?_⟩
    · simp [State.countWrite, State.setDramBytes, poison]
    · simp [State.countWrite, State.setDramBytes, bytes]

theorem putPart_basins (s : State) (port a : Nat) (data : List Byte) : (s.putPart port a data).slu.basins = s.slu.basins := by
  have read := (mergeRead_keeps (.refl s) port (a / 64) (Within.mem _)).slu.basins.resolve_left (by decide)
  unfold State.putPart
  split
  · exact ((dmcLog_keeps (.refl _) _ _ _ (Within.mem _)).slu.basins.resolve_left (by decide)).trans read
  · simp [State.countWrite, State.setDramBytes, read]

/-- The write of a block's nibbles, by where the block lies. -/
theorem putNibBlock_eq (s : State) (port blk : Nat) (nibs : List (Nat × Nat)) :
    (∀ a, whereAddr s.dev.part (64 * blk) = .dram a → s.putNibBlock port blk nibs =
      if nibs.length = 128 then s.putBlock port a (s.nibData blk nibs) else s.putPart port a (s.nibData blk nibs)) ∧
    (∀ n a, whereAddr s.dev.part (64 * blk) = .basin n a →
      s.putNibBlock port blk nibs = s.setBasin n (Mem.writeList (s.basin n) a (s.nibData blk nibs))) ∧
    (∀ st, whereAddr s.dev.part (64 * blk) = .bad st → s.putNibBlock port blk nibs = s) := by
  unfold State.putNibBlock
  refine ⟨fun a at_ => ?_, fun n a at_ => ?_, fun st at_ => ?_⟩
  · rw [at_]
    rfl
  · rw [at_]
    rfl
  · rw [at_]

theorem putNibBlock_put (s : State) (port blk : Nat) (nibs : List (Nat × Nat)) :
    BlockPut s (s.putNibBlock port blk nibs) (whereAddr s.dev.part (64 * blk)) (s.nibData blk nibs) := by
  have k := putNibBlock_keeps (.refl s) port blk nibs (Within.mem _)
  have len := nibData_length s blk nibs
  have core := fun n => core_congr (k.slu.cores.resolve_left (by decide)) n
  obtain ⟨dram, basin, bad⟩ := putNibBlock_eq s port blk nibs
  rcases whereAddr_cases s.dev.part (64 * blk) with ⟨own, -⟩ | ⟨own, ge⟩ | ⟨st, own⟩
  · have dev := k.dev_eq (by decide)
    have ran := dram _ own
    rw [own]
    generalize s.nibData blk nibs = data at *
    by_cases whole : nibs.length = 128
    · rw [if_pos whole] at ran
      obtain ⟨bytes, poison⟩ := putBlock_full s port (64 * blk) len
      have basins := (putBlock_keeps (.refl s) port (64 * blk) data (Within.mem _)).slu.basins.resolve_left (by decide)
      refine blockPut_dram len (by omega) dev core (by rw [ran]; exact basins) (fun c clean => ?_) (.inr (by rw [ran]; exact bytes))
      rw [ran, poison]
      split
      · rfl
      · exact clean
    · rw [if_neg whole] at ran
      obtain ⟨poison, bytes⟩ := putPart_dram s port (64 * blk) data
      refine blockPut_dram len (by omega) dev core ?_ (fun c clean => ?_) (by rw [ran]; exact bytes)
      · rw [ran, putPart_basins]
      · rw [ran, poison]
        exact clean
  · rw [basin _ _ own, own]
    exact blockPut_basin s len (by omega)
  · rw [bad _ own, own]
    exact ⟨rfl, fun _ => rfl, fun _ clean => clean, fun _ _ => rfl, fun _ _ _ => rfl, fun named => absurd rfl (named st)⟩

/-! ## Writing a drain's blocks -/

/-- What the writes of a drain's nibbles do to memory. -/
structure NibsPut (s t : State) (l : List (Nat × Nat)) : Prop where
  dev : t.dev = s.dev
  core : ∀ n, t.core n = s.core n
  dram : ∀ b, (∀ x ∈ l, whereAddr s.dev.part (64 * (x.1 / 128)) ≠ .dram (b / 64 * 64)) → t.dramByte b = s.dramByte b
  basin : ∀ m b, (∀ x ∈ l, whereAddr s.dev.part (64 * (x.1 / 128)) ≠ .basin m (b / 64 * 64)) →
    Mem.read (t.basin m) b = Mem.read (s.basin m) b
  stored : (∀ y ∈ l, y.2 < 16) → ∀ a v, nibFor l a = some v → (∀ st, whereAddr s.dev.part (64 * (a / 128)) ≠ .bad st) →
    (∀ x, whereAddr s.dev.part (64 * (a / 128)) = .dram x → s.poisoned (x / 64) = false) → t.nibAt a = v

/-- The nibbles of a block are those whose address lies in it. -/
theorem nibFor_filter (l : List (Nat × Nat)) (p : Nat → Bool) {a : Nat} (own : p (a / 128) = true) :
    nibFor (l.filter fun y => p (y.1 / 128)) a = nibFor l a := by
  unfold nibFor
  rw [List.find?_filter]
  refine congrArg _ (List.find?_congr fun y _ => ?_)
  by_cases at_ : y.1 = a
  · simp [at_, own]
  · simp [at_]

theorem nibFor_none {l : List (Nat × Nat)} {a : Nat} (h : ∀ y ∈ l, y.1 ≠ a) : nibFor l a = none := by
  unfold nibFor
  rw [Option.map_eq_none_iff, List.find?_eq_none]
  intro y mem
  simpa using h y mem

/-- A byte of memory in a block. -/
theorem memByte_block (s : State) (a : Nat) : s.memByte (a / 2) = s.byteOf ((whereAddr s.dev.part (64 * (a / 128))).plus (a / 2 % 64)) := by
  rw [memByte_eq, ← whereAddr_block _ _ (Nat.mod_lt _ (by decide))]
  congr 2
  omega

theorem nibsPut_nil (s : State) : NibsPut s s [] :=
  ⟨rfl, fun _ => rfl, fun _ _ => rfl, fun _ _ _ => rfl, fun _ a v h => by cases h⟩

/-- Where a block lies, its bytes do. -/
theorem whereAddr_start {p : Part} {k : Nat} : (∀ x, whereAddr p (64 * k) = .dram x → x % 64 = 0) ∧
    ∀ n x, whereAddr p (64 * k) = .basin n x → x % 64 = 0 := by
  rcases whereAddr_cases p (64 * k) with ⟨own, -⟩ | ⟨own, ge⟩ | ⟨st, own⟩
  · rw [own]
    refine ⟨fun x at_ => ?_, nofun⟩
    cases at_
    omega
  · rw [own]
    refine ⟨nofun, fun n x at_ => ?_⟩
    rw [Where.basin.injEq] at at_
    omega
  · rw [own]
    exact ⟨nofun, nofun⟩

/-- The bytes of a block stay where other blocks are written. -/
theorem byteOf_kept {v t : State} {l : List (Nat × Nat)} (put : NibsPut v t l) {k i : Nat} (hi : i < 64)
    (named : ∀ st, whereAddr v.dev.part (64 * k) ≠ .bad st) (others : ∀ y ∈ l, y.1 / 128 ≠ k) :
    t.byteOf ((whereAddr v.dev.part (64 * k)).plus i) = v.byteOf ((whereAddr v.dev.part (64 * k)).plus i) := by
  obtain ⟨dram, basin⟩ := whereAddr_start (p := v.dev.part) (k := k)
  have apart : ∀ y ∈ l, whereAddr v.dev.part (64 * (y.1 / 128)) ≠ whereAddr v.dev.part (64 * k) :=
    fun y mem same => others y mem (whereAddr_inj same.symm named).symm
  cases own : whereAddr v.dev.part (64 * k) with
  | dram x =>
    have start := dram x own
    have block : (x + i) / 64 * 64 = x := by omega
    exact put.dram (x + i) (by rw [block, ← own]; exact apart)
  | basin n x =>
    have start := basin n x own
    have block : (x + i) / 64 * 64 = x := by omega
    exact put.basin n (x + i) (by rw [block, ← own]; exact apart)
  | bad st => rfl

/-- One block, and then the others. -/
theorem nibsPut_cons {s v t : State} {l : List (Nat × Nat)} {k : Nat} {data : List Byte} (len : data.length = 64)
    (block : BlockPut s v (whereAddr s.dev.part (64 * k)) data) (some : ∃ x ∈ l, x.1 / 128 = k)
    (data_ : (∀ y ∈ l, y.2 < 16) → ∀ a w, a / 128 = k → nibFor l a = .some w → ∀ h : a / 2 % 64 < data.length,
      field (data[a / 2 % 64]).toNat (4 * (a % 2)) 4 = w)
    (rest : NibsPut v t (l.filter fun y => decide (y.1 / 128 ≠ k))) : NibsPut s t l := by
  obtain ⟨x, first, own⟩ := some
  have part : v.dev.part = s.dev.part := by rw [block.dev]
  have others : ∀ y ∈ l.filter (fun y => decide (y.1 / 128 ≠ k)), y ∈ l ∧ y.1 / 128 ≠ k := by
    intro y mem
    obtain ⟨mem, other⟩ := List.mem_filter.1 mem
    exact ⟨mem, of_decide_eq_true other⟩
  refine ⟨rest.dev.trans block.dev, fun n => (rest.core n).trans (block.core n), fun b apart => ?_, fun m b apart => ?_,
    fun small a w hit named clean => ?_⟩
  · rw [rest.dram b (by rw [part]; exact fun y mem => apart y (others y mem).1), block.dram b (own ▸ apart x first)]
  · rw [rest.basin m b (by rw [part]; exact fun y mem => apart y (others y mem).1), block.basin m b (own ▸ apart x first)]
  · by_cases here : a / 128 = k
    · have inside : a / 2 % 64 < 64 := Nat.mod_lt _ (by decide)
      have place := memByte_block t a
      rw [rest.dev, here, byteOf_kept rest inside (by rw [part, ← here]; exact named) (fun y mem => (others y mem).2), part] at place
      rw [block.stored (by rw [← here]; exact named) (by rw [← here]; exact clean) _ (by omega)] at place
      unfold State.nibAt
      rw [place]
      exact data_ small a w here hit _
    · refine rest.stored (fun y mem => small y (others y mem).1) a w ?_ (by rw [part]; exact named) (by rw [part]; exact fun x at_ => block.poison _ (clean x at_))
      rw [nibFor_filter l (fun b => decide (b ≠ k)) (by simpa using here), hit]

/-- A drain's writes, block by block. -/
theorem putNibList_put (s : State) (port : Nat) {k : Nat} {l : List (Nat × Nat)} (enough : l.length < k) :
    NibsPut s (s.putNibList port k l) l := by
  induction k generalizing s l with
  | zero => omega
  | succ k ih =>
    cases l with
    | nil => exact nibsPut_nil s
    | cons x xs =>
      have shorter : (xs.filter fun y => decide (y.1 / 128 ≠ x.1 / 128)).length < k :=
        lt_of_le_of_lt (List.length_filter_le _ _) (Nat.lt_of_succ_lt_succ enough)
      have same : (x :: xs).filter (fun y => decide (y.1 / 128 ≠ x.1 / 128)) = xs.filter fun y => decide (y.1 / 128 ≠ x.1 / 128) :=
        List.filter_cons_of_neg (by simp)
      unfold State.putNibList
      dsimp only
      refine nibsPut_cons (nibData_length _ _ _) (putNibBlock_put s port (x.1 / 128) ((x :: xs).filter fun y => y.1 / 128 = x.1 / 128)) ⟨x, List.mem_cons_self .., rfl⟩ ?_ ?_
      · intro small a w own hit h
        refine nibData_nib s _ (fun y mem => small y (List.mem_filter.1 mem).1) own ?_ h
        rw [nibFor_filter (x :: xs) (fun b => decide (b = x.1 / 128)) (by simpa using own), hit]
      · rw [same]
        exact ih _ shorter

end Sys2Proof.Machine
end

section
/-! SUPPORT. DRAIN, SPILL and the completion of a drain (R113, R126, R149, R175). -/

set_option Elab.async false

namespace Sys2Proof.Machine

variable {cs : Comp → Prop} {u : State}

/-! ## What a tile hands over -/

theorem regOk_flags : ∀ {n : Nat}, n < 32 → regOk .TC_CNT_SAT n 0 = true ∧ regOk .TC_CNT_CLAMP n 0 = true := by decide +kernel

/-- The counters of a tile that leaves its core. -/
def State.flagCounts (s : State) (n : Nat) (ovf clamp : Bool) : State :=
  if clamp then (if ovf then s.count .TC_CNT_SAT n else s).count .TC_CNT_CLAMP n else if ovf then s.count .TC_CNT_SAT n else s

theorem flagCounts_core (s : State) (n : Nat) (ovf clamp : Bool) (k : Nat) : (s.flagCounts n ovf clamp).core k = s.core k := by
  unfold State.flagCounts
  cases clamp <;> cases ovf <;> exact core_congr (by simp) k

theorem flagCounts_reg (s : State) {n : Nat} (hn : n < 32) (ovf clamp : Bool) :
    (s.flagCounts n ovf clamp).reg .TC_CNT_SAT n 0 = (if ovf = true then counted (s.reg .TC_CNT_SAT n 0) else s.reg .TC_CNT_SAT n 0) ∧
    (s.flagCounts n ovf clamp).reg .TC_CNT_CLAMP n 0 =
      (if clamp = true then counted (s.reg .TC_CNT_CLAMP n 0) else s.reg .TC_CNT_CLAMP n 0) := by
  obtain ⟨sat, cl⟩ := regOk_flags hn
  have first : (if ovf then s.count .TC_CNT_SAT n else s).reg .TC_CNT_SAT n 0 =
        (if ovf = true then counted (s.reg .TC_CNT_SAT n 0) else s.reg .TC_CNT_SAT n 0) ∧
      (if ovf then s.count .TC_CNT_SAT n else s).reg .TC_CNT_CLAMP n 0 = s.reg .TC_CNT_CLAMP n 0 := by
    cases ovf with
    | true => exact ⟨count_reg s _ _ sat, count_reg_other s cl (.inl (by decide))⟩
    | false => exact ⟨rfl, rfl⟩
  unfold State.flagCounts
  generalize (if ovf then s.count .TC_CNT_SAT n else s) = v at *
  cases clamp with
  | true => exact ⟨(count_reg_other v sat (.inl (by decide))).trans first.1, by rw [if_pos rfl, count_reg v _ _ cl, first.2]; rfl⟩
  | false => exact first

/-- A core that has handed a tile over. -/
def Core.handed (c : Core) (slot : Nat) (ovf clamp : Bool) (nibs : List (Nat × Nat)) : Core :=
  { c with
    drains := c.drains ++ [DrainRec.mk c.ctx c.tileNo slot nibs], status := worseStatus c.status (flagStatus ovf clamp) }

theorem handOff_eq (s : State) (n slot : Nat) (ovf clamp : Bool) (nibs : List (Nat × Nat)) :
    s.handOff n slot ovf clamp nibs = (s.flagCounts n ovf clamp).updCore n fun c => c.handed slot ovf clamp nibs := rfl

/-- The components of a tile that is handed over. -/
def handedChanges : List Comp := [.sluCores, .reg .TC_CNT_CLAMP, .reg .TC_CNT_SAT]

theorem handed_fields (c : Core) (slot : Nat) (ovf clamp : Bool) (nibs : List (Nat × Nat)) :
    (c.handed slot ovf clamp nibs).past.drains = c.drains ++ [DrainRec.mk c.ctx c.tileNo slot nibs] ∧
    (c.handed slot ovf clamp nibs).past.status = worseStatus c.status (flagStatus ovf clamp) ∧
    (c.handed slot ovf clamp nibs).past.slots = c.slots := by
  obtain ⟨slots, -, -, -, drains, -, -, -, status⟩ := past_fields (c.handed slot ovf clamp nibs)
  exact ⟨drains, status, slots⟩

/-- What a DRAIN or SPILL does that hands its results over. -/
theorem handed_spec {n code : Nat} {s v : State} {r : Run} {fi : Fire} {op : Op} (turn : atTurn n code s r fi op)
    (kept : Keeps (fun c => c ∈ handedChanges) s v) (regs : v.regs = s.regs) {pc : Nat} {slots : SMap Tile}
    (own : v.core n = { s.core n with pc := pc, slots := slots }) (others : ∀ m, m ≠ n → v.core m = s.core m)
    (slot : Nat) (ovf clamp : Bool) (nibs : List (Nat × Nat)) :
    let t := (v.handOff n slot ovf clamp nibs).advance n
    changesOnly handedChanges s t ∧ passed n s t ∧ (∀ m, m ≠ n → t.core m = s.core m) ∧
    (t.core n).drains = (s.core n).drains ++ [DrainRec.mk (s.core n).ctx (s.core n).tileNo slot nibs] ∧
    ((t.core n).status = worseStatus (s.core n).status (flagStatus ovf clamp) ∧
      (n < 32 → t.reg .TC_CNT_SAT n 0 = (if ovf = true then counted (s.reg .TC_CNT_SAT n 0) else s.reg .TC_CNT_SAT n 0) ∧
        t.reg .TC_CNT_CLAMP n 0 = (if clamp = true then counted (s.reg .TC_CNT_CLAMP n 0) else s.reg .TC_CNT_CLAMP n 0))) ∧
    (t.core n).slots = slots := by
  have hand : Keeps (fun c => c ∈ handedChanges) s ((v.handOff n slot ovf clamp nibs).advance n) :=
    advance_keeps (handOff_keeps kept _ _ _ _ _ (by unfold Within; decide)) _ (by unfold Within; decide)
  have core : (v.handOff n slot ovf clamp nibs).core n = { s.core n with pc := pc, slots := slots }.handed slot ovf clamp nibs := by
    rw [handOff_eq, core_updCore, if_pos rfl, flagCounts_core, own]
  obtain ⟨drains, status, slots'⟩ := handed_fields { s.core n with pc := pc, slots := slots } slot ovf clamp nibs
  intro t
  have past : t.core n = ({ s.core n with pc := pc, slots := slots }.handed slot ovf clamp nibs).past := by
    rw [← core]
    exact core_advance_self _ _
  refine ⟨hand.changesOnly, passes_core turn core rfl rfl, fun m other => ?_, (congrArg Core.drains past).trans drains,
    ⟨(congrArg Core.status past).trans status, fun hn => ?_⟩, (congrArg Core.slots past).trans slots'⟩
  · refine (core_advance_other _ other).trans ?_
    rw [handOff_eq, core_updCore, if_neg other, flagCounts_core, others m other]
  · obtain ⟨sat, cl⟩ := flagCounts_reg v hn ovf clamp
    rw [reg_congr regs] at sat cl
    exact ⟨sat, cl⟩

/-- What a DRAIN or SPILL waits for. -/
def Core.drainWaits (c : Core) (k : Nat) : Prop := 2 ≤ c.drains.length ∨ c.initing k = true

theorem slot_showing (s : State) (n : Nat) (fi : Fire) (k : Nat) : ((s.showing n fi).core n).slot k = (s.core n).slot k := by
  rw [core_showing_self]
  rfl

theorem drainWaits_iff (s : State) (n : Nat) (fi : Fire) (k : Nat) :
    (decide (2 ≤ ((s.showing n fi).core n).drains.length) || ((s.showing n fi).core n).initing k) = true ↔ (s.core n).drainWaits k := by
  rw [core_showing_self]
  unfold Core.drainWaits
  rw [Bool.or_eq_true, decide_eq_true_eq]
  rfl

theorem onward_fault (s : State) (n : Nat) (w : W16) (f : State → State) : s.onward n (some w) f = some (s.coreFaulted n w) := rfl

theorem onward_on (s : State) (n : Nat) (f : State → State) : s.onward n none f = some ((f s).advance n) := rfl

theorem drain_turn {n : Nat} {s u : State} {r : Run} {fi : Fire} {op : Op} {k : Nat} {x : Tile} (turn : atTurn n 5 s r fi op)
    (shown : s.showing n fi = u) (at_ : u.slotAt n r (field op.bits 16 3) fi.idx = k) (tile : (s.core n).slot k = x) :
    ((s.core n).drainWaits k → exec (.drain n) s = .next s) ∧
    (¬ (s.core n).drainWaits k → (r.outOpnd op = none → exec (.drain n) s = .next (u.advance n)) ∧
      ∀ o d, r.outOpnd op = some o → u.drainNibs r o fi.idx x = d →
        (∀ w, u.writeStatus d.1 = some w → exec (.drain n) s = .next (u.coreFaulted n w)) ∧
        (u.writeStatus d.1 = none → exec (.drain n) s =
          .next (((u.setCore n ((u.core n).setSlot k { x with ovf := x.ovf || d.2 })).handOff n k (x.ovf || d.2) x.clamp d.1).advance n))) := by
  have slot : (u.core n).slot k = x := by rw [← shown, slot_showing, tile]
  have test := drainWaits_iff s n fi k
  refine ⟨fun waits => (front_run rfl turn).trans (congrArg _ ?_), fun free => ⟨fun out => (front_run rfl turn).trans (congrArg _ ?_),
    fun o d out nibs => ⟨fun w bad => (front_run rfl turn).trans (congrArg _ ?_), fun good => (front_run rfl turn).trans (congrArg _ ?_)⟩⟩⟩
  all_goals rw [shown] at test ⊢; dsimp only; rw [at_]
  · rw [if_pos (test.2 waits)]
    rfl
  · rw [if_neg (mt test.1 free), out]
    rfl
  · rw [if_neg (mt test.1 free), out, slot]
    dsimp only
    rw [nibs, bad, onward_fault, Option.getD_some]
  · rw [if_neg (mt test.1 free), out, slot]
    dsimp only
    rw [nibs, good, onward_on, Option.getD_some]
    rfl

theorem spill_turn {n : Nat} {s u : State} {r : Run} {fi : Fire} {op : Op} {k : Nat} {x : Tile} (turn : atTurn n 6 s r fi op)
    (shown : s.showing n fi = u) (at_ : u.slotAt n r (field op.bits 16 3) fi.idx = k) (tile : (s.core n).slot k = x) :
    ((s.core n).drainWaits k → exec (.spill n) s = .next s) ∧
    (¬ (s.core n).drainWaits k → (r.outOpnd op = none → exec (.spill n) s = .next (u.advance n)) ∧
      ∀ o d, r.outOpnd op = some o → u.spillNibs r o fi.idx x ++ u.baseNibs r o fi.idx x.base = d →
        (∀ w, u.writeStatus d = some w → exec (.spill n) s = .next (u.coreFaulted n w)) ∧
        (u.writeStatus d = none → exec (.spill n) s = .next ((u.handOff n k x.ovf x.clamp d).advance n))) := by
  have slot : (u.core n).slot k = x := by rw [← shown, slot_showing, tile]
  have test := drainWaits_iff s n fi k
  refine ⟨fun waits => (front_run rfl turn).trans (congrArg _ ?_), fun free => ⟨fun out => (front_run rfl turn).trans (congrArg _ ?_),
    fun o d out nibs => ⟨fun w bad => (front_run rfl turn).trans (congrArg _ ?_), fun good => (front_run rfl turn).trans (congrArg _ ?_)⟩⟩⟩
  all_goals rw [shown] at test ⊢; dsimp only; rw [at_]
  · rw [if_pos (test.2 waits)]
    rfl
  · rw [if_neg (mt test.1 free), out]
    rfl
  · rw [if_neg (mt test.1 free), out, slot]
    dsimp only
    rw [nibs, bad, onward_fault, Option.getD_some]
  · rw [if_neg (mt test.1 free), out, slot]
    dsimp only
    rw [nibs, good, onward_on, Option.getD_some]

theorem showing_keeps (s : State) (n : Nat) (fi : Fire) : Keeps (fun c => c ∈ [Comp.sluCores]) s (s.showing n fi) :=
  setCore_keeps (.refl s) n _ (by unfold Within; decide)

theorem shown_keeps {s u : State} {n : Nat} {fi : Fire} (shown : s.showing n fi = u) :
    Keeps (fun c => c ∈ handedChanges) s u ∧ u.regs = s.regs := by
  rw [← shown]
  exact ⟨setCore_keeps (.refl s) n _ (by unfold Within; decide), rfl⟩

theorem slot_of_slots {c d : Core} (h : c.slots = d.slots) (j : Nat) : c.slot j = d.slot j := by
  unfold Core.slot
  rw [h]

/-- Nothing to hand over: the core goes on. -/
theorem passes_plain {n code : Nat} {s : State} {r : Run} {fi : Fire} {op : Op} (turn : atTurn n code s r fi op) :
    changesOnly [.sluCores] s ((s.showing n fi).advance n) ∧ passed n s ((s.showing n fi).advance n) ∧
    (((s.showing n fi).advance n).core n).drains = (s.core n).drains := by
  refine ⟨(advance_keeps (showing_keeps s n fi) n (by unfold Within; decide)).changesOnly,
    passes_core turn (core_showing_self s n fi) rfl rfl, ?_⟩
  rw [core_advance_self, core_showing_self, (past_fields _).2.2.2.2.1]

/-- A command of one instruction, by what it does at its turn. -/
theorem completes_front {c : Instr} {ds cs : List Comp} {n code : Nat} {s : State} {f : State → Run → Fire → Op → Option State}
    {Q : Run → Fire → Op → State → Prop} (e : exec c s = .next (s.atFront n code f)) (k : KeepsOut (fun c => c ∈ ds) s (exec c s))
    (m : ∀ c ∈ ds, c ∈ cs) (front : ∀ r fi op, atTurn n code s r fi op → ∃ t, exec c s = .next t ∧ Q r fi op t) :
    completes c cs s (fun t => ((∀ r fi op, ¬ atTurn n code s r fi op) → t = s) ∧ ∀ r fi op, atTurn n code s r fi op → Q r fi op t) := by
  by_cases turn : ∃ r fi op, atTurn n code s r fi op
  · obtain ⟨r, fi, op, turn⟩ := turn
    obtain ⟨t, ran, effect⟩ := front r fi op turn
    rw [ran] at k
    refine completes_of ran k m ⟨fun none => absurd turn (none r fi op), fun r' fi' op' turn' => ?_⟩
    obtain ⟨rfl, rfl, rfl⟩ := atTurn_unique turn turn'
    exact effect
  · have none : ∀ r fi op, ¬ atTurn n code s r fi op := fun r fi op h => turn ⟨r, fi, op, h⟩
    rw [atFront_other none] at e
    rw [e] at k
    exact completes_of e k m ⟨fun _ => rfl, fun r fi op turn => absurd turn (none r fi op)⟩

theorem drainComplete_eq {n : Nat} {s : State} {d : DrainRec} {ds : List DrainRec} (drains : (s.core n).drains = d :: ds) :
    ((s.clocked = false ∨ s.reach (nibBlocks d.nibs) = false) → exec (.drainComplete n) s = .next s) ∧
    (s.clocked = true → s.reach (nibBlocks d.nibs) = true → exec (.drainComplete n) s =
      .next ((s.updCore n fun c => { c with drains := ds }).putNibList (portCl (n / 8)) (d.nibs.length + 1) d.nibs)) := by
  change (_ → execDrainComplete n s = _) ∧ (_ → _ → execDrainComplete n s = _)
  unfold execDrainComplete
  rw [drains]
  refine ⟨fun stopped => congrArg _ (when_neg s ?_ _), fun clocked reached => congrArg _ (when_eq s ?_ _)⟩
  · rw [Bool.and_eq_true]
    rintro ⟨clocked, reached⟩
    rcases stopped with h | h
    · rw [clocked] at h
      cases h
    · rw [reached] at h
      cases h
  · rw [clocked, reached]
    rfl

theorem nibFor_first {l pre post : List (Nat × Nat)} {a v : Nat} (split : l = pre ++ (a, v) :: post) (first : ∀ y ∈ pre, y.1 ≠ a) :
    nibFor l a = some v := by
  unfold nibFor
  have before : pre.find? (fun y => y.1 = a) = none := List.find?_eq_none.2 fun y mem => by simpa using first y mem
  rw [split, List.find?_append, before]
  simp

/-- Settles O43: what a DRAIN and a SPILL hand over, and what a drain's writes leave in memory. -/
theorem drainsHandOverTheirResults : Obligations.DrainsHandOverTheirResults := by
  refine ⟨fun n s => ?_, fun n s => ?_, fun n s => ?_⟩
  · refine completes_front rfl (execDrain_keeps (.refl s) n (Within.mem _)) (by decide +kernel) fun r fi op turn => ?_
    dsimp only
    generalize shown : s.showing n fi = u
    generalize at_ : u.slotAt n r (field op.bits 16 3) fi.idx = k
    generalize tile : (s.core n).slot k = x
    obtain ⟨stays, goes⟩ := drain_turn turn shown at_ tile
    by_cases waits : (s.core n).drainWaits k
    · exact ⟨s, stays waits, fun _ => rfl, fun free => absurd waits free, fun o free => absurd waits free⟩
    · obtain ⟨none, some⟩ := goes waits
      cases out : r.outOpnd op with
      | none =>
        have plain := passes_plain turn
        rw [shown] at plain
        exact ⟨_, none out, fun h => absurd h waits, fun _ _ => plain, nofun⟩
      | some o =>
        generalize nibs : u.drainNibs r o fi.idx x = d
        obtain ⟨bad, good⟩ := some o d out nibs
        cases st : u.writeStatus d.1 with
        | some w =>
          refine ⟨_, bad w st, fun h => absurd h waits, nofun, fun o' _ same => ?_⟩
          cases same
          rw [nibs, st]
          refine ⟨nofun, fun w' same => ?_⟩
          cases same
          exact (coreFaulted_spec u n w).1
        | none =>
          refine ⟨_, good st, fun h => absurd h waits, nofun, fun o' _ same => ?_⟩
          cases same
          rw [nibs, st]
          refine ⟨fun _ => ?_, nofun⟩
          have start : u.core n = { s.core n with pc := fi.pc } := by rw [← shown, core_showing_self]
          have own : (u.setCore n ((u.core n).setSlot k { x with ovf := x.ovf || d.2 })).core n = { s.core n with
              pc := fi.pc, slots := ((s.core n).setSlot k { x with ovf := x.ovf || d.2 }).slots } := by
            rw [core_setCore_self, start]
            rfl
          have others : ∀ m, m ≠ n → (u.setCore n ((u.core n).setSlot k { x with ovf := x.ovf || d.2 })).core m = s.core m := by
            intro m other
            rw [core_setCore, if_neg other, ← shown, core_showing_other s fi other]
          obtain ⟨kept, regs⟩ := shown_keeps shown
          obtain ⟨changes, pass, cores, drains, flags, slots⟩ := handed_spec turn (setCore_keeps kept n _ (by unfold Within; decide)) regs own
            others k (x.ovf || d.2) x.clamp d.1
          have slot := slot_of_slots slots
          refine ⟨changes, pass, cores, drains, flags, ?_, fun j other => ?_⟩
          · rw [slot, slot_setSlot, if_pos rfl]
          · rw [slot, slot_setSlot, if_neg other]
  · refine completes_front rfl (execSpill_keeps (.refl s) n (Within.mem _)) (by decide +kernel) fun r fi op turn => ?_
    dsimp only
    generalize shown : s.showing n fi = u
    generalize at_ : u.slotAt n r (field op.bits 16 3) fi.idx = k
    generalize tile : (s.core n).slot k = x
    obtain ⟨stays, goes⟩ := spill_turn turn shown at_ tile
    by_cases waits : (s.core n).drainWaits k
    · exact ⟨s, stays waits, fun _ => rfl, fun free => absurd waits free, fun o free => absurd waits free⟩
    · obtain ⟨none, some⟩ := goes waits
      cases out : r.outOpnd op with
      | none =>
        have plain := passes_plain turn
        rw [shown] at plain
        exact ⟨_, none out, fun h => absurd h waits, fun _ _ => plain, nofun⟩
      | some o =>
        generalize nibs : u.spillNibs r o fi.idx x ++ u.baseNibs r o fi.idx x.base = d
        obtain ⟨bad, good⟩ := some o d out nibs
        cases st : u.writeStatus d with
        | some w =>
          refine ⟨_, bad w st, fun h => absurd h waits, nofun, fun o' _ same => ?_⟩
          cases same
          rw [nibs, st]
          refine ⟨nofun, fun w' same => ?_⟩
          cases same
          exact (coreFaulted_spec u n w).1
        | none =>
          refine ⟨_, good st, fun h => absurd h waits, nofun, fun o' _ same => ?_⟩
          cases same
          rw [nibs, st]
          refine ⟨fun _ => ?_, nofun⟩
          have own : u.core n = { s.core n with pc := fi.pc, slots := (s.core n).slots } := by rw [← shown, core_showing_self]
          have others : ∀ m, m ≠ n → u.core m = s.core m := by
            intro m other
            rw [← shown, core_showing_other s fi other]
          obtain ⟨kept, regs⟩ := shown_keeps shown
          exact handed_spec turn kept regs own others k x.ovf x.clamp d
  · have k := execDrainComplete_keeps (.refl s) n (Within.mem _)
    change KeepsOut _ s (exec (.drainComplete n) s) at k
    cases drains : (s.core n).drains with
    | nil =>
      have ran : exec (.drainComplete n) s = .next s := by
        change execDrainComplete n s = _
        unfold execDrainComplete
        rw [drains]
      rw [ran] at k
      exact completes_of ran k (by decide +kernel) ⟨fun _ _ => rfl, fun _ => rfl, nofun⟩
    | cons d ds =>
      obtain ⟨stays, writes⟩ := drainComplete_eq drains
      by_cases on : s.clocked = true ∧ s.reach (nibBlocks d.nibs) = true
      · obtain ⟨clocked, reached⟩ := on
        have ran := writes clocked reached
        have put := putNibList_put (s.updCore n fun c => { c with drains := ds }) (portCl (n / 8)) (Nat.lt_succ_self d.nibs.length)
        rw [ran] at k
        refine completes_of ran k (by decide +kernel) ⟨fun m other => ?_, nofun, fun d' ds' same => ?_⟩
        · rw [put.core, core_updCore, if_neg other]
        · cases same
          refine ⟨fun stopped => ?_, fun _ _ => ⟨?_, fun pre a v post split small first named clean => ?_, put.dram, put.basin⟩⟩
          · rw [clocked, reached] at stopped
            rcases stopped with h | h <;> cases h
          · rw [put.core, core_updCore, if_pos rfl]
          · exact put.stored small a v (nibFor_first split first) named clean
      · have off : s.clocked = false ∨ s.reach (nibBlocks d.nibs) = false := by
          rw [not_and_or, Bool.not_eq_true, Bool.not_eq_true] at on
          exact on
        rw [stays off] at k
        refine completes_of (stays off) k (by decide +kernel) ⟨fun _ _ => rfl, nofun, fun d' ds' same => ?_⟩
        cases same
        exact ⟨fun _ => rfl, fun clocked reached => absurd ⟨clocked, reached⟩ on⟩

end Sys2Proof.Machine
end

section
/-! SUPPORT. What a read of memory leaves to later reads (R78, R91, R132, R177, R328), and the copying of nibbles. -/

set_option Elab.async false

namespace Sys2Proof.Machine

variable {cs : Comp → Prop} {u : State}

/-! ## States that read alike -/

/-- Memory, contexts and image read alike in two states. -/
structure Alike (s v : State) : Prop where
  dev : v.dev = s.dev
  bytes : v.dram.bytes = s.dram.bytes
  basins : v.slu.basins = s.slu.basins
  ctxs : v.slu.ctxs = s.slu.ctxs
  ldr : v.ldr = s.ldr

theorem Alike.of_keeps {cs : List Comp} {s v : State} (k : Keeps (fun c => c ∈ cs) s v) (dev : ∀ c ∈ Comp.allDev, c ∉ cs := by decide)
    (bytes : .dramBytes ∉ cs := by decide) (basins : .sluBasins ∉ cs := by decide) (ctxs : .sluCtxs ∉ cs := by decide)
    (ldr : ∀ c ∈ Comp.allLdr, c ∉ cs := by decide) : Alike s v :=
  ⟨k.dev_eq dev, k.dram.bytes.resolve_left bytes, k.slu.basins.resolve_left basins, k.slu.ctxs.resolve_left ctxs, k.ldr_eq ldr⟩

section
variable {s v : State} (h : Alike s v)
include h

theorem Alike.memByte (a : Nat) : v.memByte a = s.memByte a := by
  unfold State.memByte State.dramByte
  simp only [h.dev, h.bytes, basin_congr h.basins]

theorem Alike.memGet (a n : Nat) : v.memGet a n = s.memGet a n := by
  unfold State.memGet
  simp only [h.memByte]

theorem Alike.nibAt (a : Nat) : v.nibAt a = s.nibAt a := by
  unfold State.nibAt
  rw [h.memByte]

theorem Alike.spaceAddr (ctx n space off : Nat) : v.spaceAddr ctx n space off = s.spaceAddr ctx n space off := by
  unfold State.spaceAddr State.shareBase State.scratchBase
  simp only [ctxRun_congr h.ctxs, h.ldr]

theorem Alike.roleAt (r : Run) (role unit : Nat) (idx : List Nat) : v.roleAt r role unit idx = s.roleAt r role unit idx := by
  unfold State.roleAt State.opndAt State.origin
  simp only [h.spaceAddr]

theorem Alike.expBlocks (r : Run) (idx : List Nat) : v.expBlocks r idx = s.expBlocks r idx := by
  unfold State.expBlocks State.expVector State.winExps
  simp only [h.roleAt]

theorem Alike.scanBase (r : Run) (idx : List Nat) (col row : Bool) : v.scanBase r idx col row = s.scanBase r idx col row := by
  unfold State.scanBase State.expSpan State.expsAt
  simp only [h.expBlocks, h.memByte]

theorem Alike.scaleRead (c : Cmd) (bounds idx : List Nat) : v.scaleRead c bounds idx = s.scaleRead c bounds idx := by
  have rd : v.scaleRd c = s.scaleRd c := by
    funext off n
    unfold State.scaleRd
    rw [h.memGet]
  unfold State.scaleRead State.chanAct State.chanEntry State.scaleSet
  simp only [rd]

theorem Alike.partialAcc (a : Nat) : v.partialAcc a = s.partialAcc a := by
  unfold State.partialAcc
  simp only [h.memGet]

theorem Alike.slotAt {n : Nat} (core : v.core n = s.core n) (r : Run) (f : Nat) (idx : List Nat) : v.slotAt n r f idx = s.slotAt n r f idx := by
  unfold State.slotAt State.slotsOf
  rw [core, ctxRun_congr h.ctxs]

end

/-- What a read faults with depends on the part and on DRAM alone. -/
theorem reads_fst_congr {s t : State} (dev : t.dev = s.dev) (dram : t.dram = s.dram) (port : Nat) (rs : List (Nat × Nat)) :
    (t.reads port rs).1 = (s.reads port rs).1 := by
  have block : ∀ b, t.blockPoison port b = s.blockPoison port b := by
    intro b
    unfold State.blockPoison State.findOf
    rw [poisoned_congr (congrArg Dram.poison dram), dram]
  have blocks : ∀ k b, t.poisonIn port b k = s.poisonIn port b k := by
    intro k
    induction k with
    | zero => intro b; rfl
    | succ k ih =>
      intro b
      unfold State.poisonIn
      rw [block, ih]
  have mem : ∀ a n, t.memPoison port a n = s.memPoison port a n := by
    intro a n
    unfold State.memPoison State.readPoison
    simp only [dev, blocks]
  unfold State.reads
  rw [dev]
  simp only [mem]
  split <;> rfl

theorem reads_alike (s : State) (port : Nat) (rs : List (Nat × Nat)) : Alike s (s.reads port rs).2 :=
  .of_keeps (reads_keeps (.refl s) port rs (Within.mem _))

theorem reads_core (s : State) (port : Nat) (rs : List (Nat × Nat)) (n : Nat) : (s.reads port rs).2.core n = s.core n :=
  core_congr ((reads_keeps (.refl s) port rs (Within.mem _)).slu.cores.resolve_left (by decide)) n

/-! ## Nibbles of a store -/

theorem nib_putNib (m : Mem) (a b v : Nat) : Mem.nib (Mem.putNib m a v) b = if b = a then v % 16 else Mem.nib m b := by
  unfold Mem.nib Mem.putNib
  dsimp only
  by_cases byte : b / 2 = a / 2
  · rw [byte, Mem.read_write_self, BitVec.toNat_ofNat]
    have lt := (Mem.read m (a / 2)).isLt
    generalize (Mem.read m (a / 2)).toNat = x at *
    unfold field
    rcases Nat.mod_two_eq_zero_or_one a with ea | ea <;> rcases Nat.mod_two_eq_zero_or_one b with eb | eb
    · have own : b = a := by omega
      rw [if_pos ea, if_pos own, eb]
      omega
    · have other : b ≠ a := by omega
      rw [if_pos ea, if_neg other, eb]
      omega
    · have other : b ≠ a := by omega
      rw [if_neg (by omega), if_neg other, eb]
      omega
    · have own : b = a := by omega
      rw [if_neg (by omega), if_pos own, eb]
      omega
  · rw [Mem.read_write_ne _ _ byte, if_neg (by omega)]

theorem nibAt_lt (s : State) (a : Nat) : s.nibAt a % 16 = s.nibAt a := by
  unfold State.nibAt field
  omega

theorem nib_copyNibs (s : State) (src dst k : Nat) (m : Mem) (a : Nat) : Mem.nib (s.copyNibs src dst k m) a =
    if dst ≤ a ∧ a < dst + k then s.nibAt (src + (a - dst)) else Mem.nib m a := by
  induction k with
  | zero => rw [if_neg (by omega)]; rfl
  | succ k ih =>
    unfold State.copyNibs
    rw [nib_putNib, ih, nibAt_lt]
    by_cases last : a = dst + k
    · rw [if_pos last, if_pos (by omega)]
      congr 1
      omega
    · rw [if_neg last]
      by_cases inside : dst ≤ a ∧ a < dst + k
      · rw [if_pos inside, if_pos (by omega)]
      · rw [if_neg inside, if_neg (by omega)]

/-- A run that no later run writes over is in the store; what no run covers stays. -/
theorem nib_copyAll (s : State) (l : List (Nat × Nat × Nat)) (m : Mem) :
    (∀ a, (∀ y ∈ l, a < y.2.2 ∨ y.2.2 + y.2.1 ≤ a) → Mem.nib (s.copyAll l m) a = Mem.nib m a) ∧
    ∀ pre src k dst post, l = pre ++ (src, k, dst) :: post → (∀ y ∈ post, y.2.2 + y.2.1 ≤ dst ∨ dst + k ≤ y.2.2) →
      ∀ i < k, Mem.nib (s.copyAll l m) (dst + i) = s.nibAt (src + i) := by
  induction l generalizing m with
  | nil =>
    refine ⟨fun _ _ => rfl, fun pre src k dst post split => ?_⟩
    simp at split
  | cons y l ih =>
    obtain ⟨ysrc, yk, ydst⟩ := y
    obtain ⟨out, runs⟩ := ih (s.copyNibs ysrc ydst yk m)
    refine ⟨fun a apart => ?_, fun pre src k dst post split later i hi => ?_⟩
    · refine (out a fun y mem => apart y (List.mem_cons_of_mem _ mem)).trans ?_
      have here := apart (ysrc, yk, ydst) (List.mem_cons_self ..)
      dsimp only at here
      rw [nib_copyNibs, if_neg (by omega)]
    · cases pre with
      | nil =>
        cases split
        refine (out (ydst + i) fun y mem => ?_).trans ?_
        · have := later y mem
          omega
        · rw [nib_copyNibs, if_pos (by omega), Nat.add_sub_cancel_left]
      | cons z pre =>
        cases split
        exact runs pre src k dst post rfl later i hi

end Sys2Proof.Machine
end

section
/-! SUPPORT. LOAD, XSCAN and INIT, and their completions (R91, R92, R104, R109, R111, R112, R117, R118). -/

set_option Elab.async false

namespace Sys2Proof.Machine

variable {cs : Comp → Prop} {u : State}

/-! ## The arrival of asynchronous data -/

/-- What an arrival needs. -/
def State.arrives (s : State) (n : Nat) (rs : List (Nat × Nat)) : Prop := s.coreRuns n = true ∧ s.weir.coolant = .none ∧ s.reach rs = true

/-- The state in which what was outstanding has been read. -/
def State.taking (s : State) (n : Nat) (rs : List (Nat × Nat)) (take : Core → Core) : State := ((s.updCore n take).reads (portCl (n / 8)) rs).2

theorem arrive_spec (s : State) (n pc : Nat) (rs : List (Nat × Nat)) (take : Core → Core) (f : State → State) :
    (¬ s.arrives n rs → s.arrive n pc rs take f = s) ∧
    (s.arrives n rs → ((s.core n).st = .killing → s.arrive n pc rs take f = s.taking n rs take) ∧
      ((s.core n).st ≠ .killing →
        ((s.reads (portCl (n / 8)) rs).1 = none → s.arrive n pc rs take f = f (s.taking n rs take)) ∧
        ∀ w, (s.reads (portCl (n / 8)) rs).1 = some w →
          s.arrive n pc rs take f = ((s.taking n rs take).updCore n fun c => { c with pc := pc }).coreFaulted n w)) := by
  have test : (s.coreRuns n && !s.coolantHeld && s.reach rs) = true ↔ s.arrives n rs := by
    unfold State.coolantHeld State.arrives
    simp [and_assoc]
  have fails : ((s.updCore n take).reads (portCl (n / 8)) rs).1 = (s.reads (portCl (n / 8)) rs).1 :=
    reads_fst_congr (s := s) (t := s.updCore n take) rfl rfl _ _
  unfold State.arrive State.taking
  refine ⟨fun off => when_neg s (mt test.1 off) _, fun on => ?_⟩
  rw [when_eq s (test.2 on)]
  dsimp only
  refine ⟨fun killing => if_pos (by simp [killing]), fun alive => ⟨fun good => ?_, fun w bad => ?_⟩⟩
  · rw [if_neg (by simp [alive]), fails, good]
  · rw [if_neg (by simp [alive]), fails, bad]

theorem taking_core (s : State) (n : Nat) (rs : List (Nat × Nat)) (take : Core → Core) (k : Nat) :
    (s.taking n rs take).core k = if k = n then take (s.core n) else s.core k := by
  unfold State.taking
  rw [reads_core, core_updCore]

theorem taking_alike (s : State) (n : Nat) (rs : List (Nat × Nat)) (take : Core → Core) : Alike s (s.taking n rs take) := by
  have read := reads_alike (s.updCore n take) (portCl (n / 8)) rs
  exact ⟨read.dev, read.bytes, read.basins, read.ctxs, read.ldr⟩

theorem taking_keeps (s : State) (n : Nat) (rs : List (Nat × Nat)) (take : Core → Core) :
    Keeps (fun c => c ∈ [Comp.sluCores] ++ Comp.dramSeen) s (s.taking n rs take) :=
  reads_keeps (updCore_keeps (.refl s) n take (by unfold Within; decide +kernel)) _ _ (by unfold Within; decide +kernel)

/-! ### The register that says whether a faulted core halts -/

/-- A register that lies in no block's first word, in a block that starts at a multiple of 64 KiB. -/
def inBlock (r : Reg) : Bool :=
  match rowIn r allRows with
  | some x => [Block.dmc, .icu, .tc, .thyme].contains x.blk && decide (x.count * x.count2 ≤ 64) &&
      (List.range 64).all fun i => (x.off + i / x.count2 * x.stride + i % x.count2 * x.stride2) % 0x10000 != 0
  | none => false

theorem inBlock_off {r : Reg} (h : inBlock r = true) {a i : Nat} (ok : regOk r a i = true) : regOff r a i % 0x10000 ≠ 0 := by
  obtain ⟨x, row⟩ : ∃ x, rowIn r allRows = some x := by
    refine Option.ne_none_iff_exists'.1 fun none => ?_
    simp only [inBlock, none, Bool.false_eq_true] at h
  simp only [inBlock, row, Bool.and_eq_true, decide_eq_true_eq, List.all_eq_true, List.mem_range, bne_iff_ne] at h
  simp only [regOk, row, Bool.and_eq_true, decide_eq_true_eq] at ok
  obtain ⟨⟨blk, few⟩, locals⟩ := h
  have here := locals i (by omega)
  have base : blockBase x.blk a % 0x10000 = 0 := by
    simp only [List.contains_cons, List.contains_nil, Bool.or_false, Bool.or_eq_true, beq_iff_eq] at blk
    rcases blk with b | b | b | b <;> simp only [b, blockBase] <;> omega
  simp only [regOff, row]
  omega

/-- A component that is no such register's first word. -/
def compIn : Comp → Bool
  | .reg r => inBlock r
  | _ => true

theorem arrCtrl_off (n : Nat) : regOff .TC_ARR_CTRL n 0 % 0x10000 = 0 := by
  have row : (rowIn .TC_ARR_CTRL allRows).map (fun x => (x.blk, x.off)) = some (.tc, 0) := by decide +kernel
  obtain ⟨x, found, fields⟩ := Option.map_eq_some_iff.1 row
  simp only [Prod.mk.injEq] at fields
  obtain ⟨blk, off⟩ := fields
  unfold regOff
  rw [found]
  simp only [blk, off, blockBase, Nat.zero_div, Nat.zero_mod, Nat.zero_mul]
  omega

/-- No arrival changes whether a faulted core halts. -/
theorem arrCtrl_kept {s v : State} (k : Keeps (fun c => c ∈ [Comp.sluCores] ++ Comp.dramSeen) s v) (n : Nat) :
    v.reg .TC_ARR_CTRL n 0 = s.reg .TC_ARR_CTRL n 0 := by
  have seen : ∀ c ∈ [Comp.sluCores] ++ Comp.dramSeen, compIn c = true := by decide +kernel
  have same : SMap.get regDefault v.regs (regOff .TC_ARR_CTRL n 0) = SMap.get regDefault s.regs (regOff .TC_ARR_CTRL n 0) := by
    rcases k.regs (regOff .TC_ARR_CTRL n 0) with all | ⟨r, a, i, mem, ok, at'⟩ | same
    · exact absurd all (by decide +kernel)
    · exact absurd (at' ▸ arrCtrl_off n) (inBlock_off (seen _ mem) ok)
    · exact same
  exact same

/-! ### A fault -/

theorem coreFaults_congr {n : Nat} {st : W16} {s v t : State} (pc : (v.core n).pc = (s.core n).pc) (ctx : (v.core n).ctx = (s.core n).ctx)
    (ctrl : v.reg .TC_ARR_CTRL n 0 = s.reg .TC_ARR_CTRL n 0) (h : coreFaults n st v t) : coreFaults n st s t := by
  unfold coreFaults State.regBit at h ⊢
  rw [pc, ctx, ctrl] at h
  exact h

/-- A read that fails faults the command at the instruction that the core shows. -/
theorem read_faults (s : State) (n port : Nat) (rs : List (Nat × Nat)) (w : W16) : coreFaults n w s ((s.reads port rs).2.coreFaulted n w) := by
  have core := reads_core s port rs n
  exact coreFaults_congr (by rw [core]) (by rw [core]) (arrCtrl_kept (reads_keeps (.refl s) _ _ (by unfold Within; decide +kernel)) n)
    (coreFaulted_spec _ n w).1

/-- An arrival that fails faults the command at the instruction that asked for it. -/
theorem arrival_faults (s : State) (n pc : Nat) (rs : List (Nat × Nat)) (take : Core → Core) (w : W16) (ctx : (take (s.core n)).ctx = (s.core n).ctx) :
    coreFaults n w (s.setCore n { s.core n with pc := pc }) (((s.taking n rs take).updCore n fun c => { c with pc := pc }).coreFaulted n w) := by
  have shown := core_updCore (s.taking n rs take) n n fun c => { c with pc := pc }
  rw [if_pos rfl, taking_core, if_pos rfl] at shown
  refine coreFaults_congr ?_ ?_ ?_ (coreFaulted_spec _ n w).1
  · rw [shown, core_setCore_self]
  · rw [shown, core_setCore_self]
    exact ctx
  · exact (arrCtrl_kept (updCore_keeps (taking_keeps s n rs take) n _ (by unfold Within; decide +kernel)) n)

/-! ## LOAD -/

theorem noteLayout_fields (c : Core) (op : Op) : (c.noteLayout op).loads = c.loads ∧ (c.noteLayout op).kept = c.kept ∧
    (c.noteLayout op).fires = c.fires ∧ (c.noteLayout op).st = c.st := by
  unfold Core.noteLayout
  split
  · exact ⟨rfl, rfl, rfl, rfl⟩
  · split
    · exact ⟨rfl, rfl, rfl, rfl⟩
    · exact ⟨rfl, rfl, rfl, rfl⟩

/-- Whether a core keeps what a LOAD would load. -/
def Core.holds (c : Core) (op : Op) (l : LoadRec) : Prop := bitAt op.bits 64 = true ∧ ∃ k ∈ c.kept, LoadRec.same k l = true

theorem load_turn {n : Nat} {s : State} {r : Run} {fi : Fire} {op : Op} (turn : atTurn n 1 s r fi op) {u : State} (shown : s.showing n fi = u)
    {l : LoadRec} (rec : u.loadRec n r fi op = l) {c : Core} (core : (u.core n).noteLayout op = c) :
    ((s.core n).holds op l → exec (.load n) s = .next ((u.setCore n c).advance n)) ∧
    (¬ (s.core n).holds op l → ((s.core n).loads.length < 4 → exec (.load n) s = .next ((u.setCore n { c with loads := c.loads ++ [l] }).advance n)) ∧
      (4 ≤ (s.core n).loads.length → exec (.load n) s = .next s)) := by
  obtain ⟨loads, kept, -, -⟩ := noteLayout_fields (u.core n) op
  have own : u.core n = { s.core n with pc := fi.pc } := by rw [← shown, core_showing_self]
  have base : (u.core n).loads = (s.core n).loads ∧ (u.core n).kept = (s.core n).kept := by rw [own]; exact ⟨rfl, rfl⟩
  rw [core, base.1] at loads
  rw [core, base.2] at kept
  have test : (bitAt op.bits 64 && c.kept.any fun k => LoadRec.same k l) = true ↔ (s.core n).holds op l := by
    unfold Core.holds
    rw [kept, Bool.and_eq_true, List.any_eq_true]
  have run := front_run (c := .load n) rfl turn
  rw [shown] at run
  dsimp only at run
  rw [rec, core, loads] at run
  refine ⟨fun held => run.trans ?_, fun free => ⟨fun few => run.trans ?_, fun full => run.trans ?_⟩⟩
  · rw [if_pos (test.2 held)]
    rfl
  · rw [if_neg (mt test.1 free), if_neg (by omega), loads]
    rfl
  · rw [if_neg (mt test.1 free), if_pos full]
    rfl

theorem load_effect (n : Nat) (s : State) : completes (.load n) [.sluCores] s (fun t =>
    (∀ m, m ≠ n → t.core m = s.core m) ∧ ((∀ r fi op, ¬ atTurn n 1 s r fi op) → t = s) ∧
    ∀ r fi op, atTurn n 1 s r fi op →
      let l := (s.showing n fi).loadRec n r fi op
      let kept := bitAt op.bits 64 = true ∧ ∃ k ∈ (s.core n).kept, LoadRec.same k l = true
      (kept → passed n s t ∧ (t.core n).loads = (s.core n).loads) ∧
      (¬ kept → (s.core n).loads.length < 4 → passed n s t ∧ (t.core n).loads = (s.core n).loads ++ [l]) ∧
      (¬ kept → 4 ≤ (s.core n).loads.length → t = s)) := by
  refine completes_turn rfl (execLoad_keeps (.refl s) n (Within.mem _)) (by decide) fun r fi op turn => ?_
  dsimp only
  generalize rec : (s.showing n fi).loadRec n r fi op = l
  generalize core : ((s.showing n fi).core n).noteLayout op = c
  obtain ⟨skips, asks⟩ := load_turn turn rfl rec core
  obtain ⟨loads, -, fires, st⟩ := noteLayout_fields ((s.showing n fi).core n) op
  rw [core, core_showing_self] at loads fires st
  have others (d : Core) : ∀ m, m ≠ n → (((s.showing n fi).setCore n d).advance n).core m = s.core m := fun m other => by
    rw [core_advance_other _ other, core_setCore, if_neg other, core_showing_other s fi other]
  have own (d : Core) : (((s.showing n fi).setCore n d).advance n).core n = d.past := by rw [core_advance_self, core_setCore_self]
  by_cases held : (s.core n).holds op l
  · refine ⟨_, skips held, others c, fun _ => ⟨passes_core turn (core_setCore_self _ _ _) fires st, ?_⟩, fun h => absurd held h, fun h => absurd held h⟩
    rw [own, (past_fields c).2.2.2.1, loads]
  · obtain ⟨takes, waits⟩ := asks held
    by_cases few : (s.core n).loads.length < 4
    · refine ⟨_, takes few, others _, fun h => absurd h held, fun _ _ => ⟨passes_core turn (core_setCore_self _ _ _) fires st, ?_⟩,
        fun _ full => absurd few (by omega)⟩
      rw [own, (past_fields _).2.2.2.1, loads]
    · exact ⟨s, waits (by omega), fun _ _ => rfl, fun h => absurd h held, fun _ h => absurd h few, fun _ _ => rfl⟩

end Sys2Proof.Machine
end

section
/-! SUPPORT. The completion of a load, scans and INIT (R91, R92, R109, R111, R112, R117). -/

set_option Elab.async false

namespace Sys2Proof.Machine

variable {cs : Comp → Prop} {u : State}

/-! ## Completion of a load -/

/-- The store that a load writes. -/
def Core.store (c : Core) (l : LoadRec) : Mem := if l.operand = 4 then c.codebook else if l.bank = true then c.bankB else c.bankA

/-- A core that keeps a load in place of those that it wrote over, with the new contents of its store. -/
def Core.stored (c : Core) (l : LoadRec) (m : Mem) : Core :=
  let c1 := { c with kept := c.kept.filter (fun k => !LoadRec.overlaps k l) ++ (if l.own then [l] else []) }
  if l.operand = 4 then { c1 with codebook := m } else if l.bank then { c1 with bankB := m } else { c1 with bankA := m }

theorem stored_store (c : Core) (l : LoadRec) (m : Mem) : (c.stored l m).store l = m := by
  unfold Core.stored Core.store
  by_cases codebook : l.operand = 4
  · simp only [if_pos codebook]
  · by_cases bank : l.bank = true
    · simp only [if_neg codebook, if_pos bank]
    · simp only [if_neg codebook, if_neg bank]

theorem stored_fields (c : Core) (l : LoadRec) (m : Mem) : (c.stored l m).loads = c.loads ∧
    (c.stored l m).kept = c.kept.filter (fun k => !LoadRec.overlaps k l) ++ if l.own then [l] else [] := by
  unfold Core.stored
  by_cases codebook : l.operand = 4
  · simp only [if_pos codebook]
    exact ⟨trivial, trivial⟩
  · by_cases bank : l.bank = true
    · simp only [if_neg codebook, if_pos bank]
      exact ⟨trivial, trivial⟩
    · simp only [if_neg codebook, if_neg bank]
      exact ⟨trivial, trivial⟩

theorem mem_kept (xs : List LoadRec) (l k : LoadRec) :
    k ∈ (xs.filter (fun k => !LoadRec.overlaps k l) ++ if l.own then [l] else []) ↔
      k = l ∧ l.own = true ∨ k ∈ xs ∧ LoadRec.overlaps k l = false := by
  rw [List.mem_append, List.mem_filter, Bool.not_eq_true', or_comm]
  refine or_congr ?_ Iff.rfl
  split
  · next own => rw [List.mem_singleton]; exact ⟨fun e => ⟨e, own⟩, fun e => e.1⟩
  · next own => exact iff_of_false (List.not_mem_nil) fun both => own both.2

theorem performLoad_eq (s : State) (n : Nat) (l : LoadRec) :
    s.performLoad n l = s.updCore n fun c => c.stored l (s.copyAll l.copies (c.store l)) := by
  unfold State.performLoad
  refine congrArg _ (funext fun c => ?_)
  unfold Core.stored Core.store
  by_cases codebook : l.operand = 4
  · simp only [if_pos codebook]
  · by_cases bank : l.bank = true
    · simp only [if_neg codebook, if_pos bank]
    · simp only [if_neg codebook, if_neg bank]

theorem performLoad_core (s : State) (n : Nat) (l : LoadRec) (k : Nat) : (s.performLoad n l).core k =
    if k = n then (s.core n).stored l (s.copyAll l.copies ((s.core n).store l)) else s.core k := by
  rw [performLoad_eq, core_updCore]

theorem exec_loadComplete {n : Nat} {s : State} {l : LoadRec} {ls : List LoadRec} (loads : (s.core n).loads = l :: ls) :
    exec (.loadComplete n) s = .next (s.arrive n l.pc l.ranges (fun c => { c with loads := ls }) fun s => s.performLoad n l) := by
  change execLoadComplete n s = _
  unfold execLoadComplete
  rw [loads]

theorem loadComplete_effect (n : Nat) (s : State) : completes (.loadComplete n) (Comp.coreFault ++ Comp.dramSeen) s (fun t =>
    ((s.core n).loads = [] → t = s) ∧
    ∀ l ls, (s.core n).loads = l :: ls →
      (¬ s.arrives n l.ranges → t = s) ∧
      (s.arrives n l.ranges → (s.core n).st = .killing →
        t.core n = { s.core n with loads := ls } ∧ ∀ m, m ≠ n → t.core m = s.core m) ∧
      (s.arrives n l.ranges → (s.core n).st ≠ .killing → (s.reads (portCl (n / 8)) l.ranges).1 = none →
        changesOnly ([.sluCores] ++ Comp.dramSeen) s t ∧ (∀ m, m ≠ n → t.core m = s.core m) ∧ (t.core n).loads = ls ∧
        (∀ k, k ∈ (t.core n).kept ↔ k = l ∧ l.own = true ∨ k ∈ (s.core n).kept ∧ LoadRec.overlaps k l = false) ∧
        (∀ pre src k dst post, l.copies = pre ++ (src, k, dst) :: post →
          (∀ y ∈ post, y.2.2 + y.2.1 ≤ dst ∨ dst + k ≤ y.2.2) →
          ∀ i < k, Mem.nib ((t.core n).store l) (dst + i) = s.nibAt (src + i)) ∧
        ∀ a, (∀ y ∈ l.copies, a < y.2.2 ∨ y.2.2 + y.2.1 ≤ a) →
          Mem.nib ((t.core n).store l) a = Mem.nib ((s.core n).store l) a) ∧
      (∀ w, s.arrives n l.ranges → (s.core n).st ≠ .killing → (s.reads (portCl (n / 8)) l.ranges).1 = some w →
        coreFaults n w (s.setCore n { s.core n with pc := l.pc }) t)) := by
  have k := execLoadComplete_keeps (.refl s) n (Within.mem _)
  change KeepsOut _ s (exec (.loadComplete n) s) at k
  have within : ∀ c ∈ execLoadCompleteChanges, c ∈ Comp.coreFault ++ Comp.dramSeen := by decide +kernel
  cases loads : (s.core n).loads with
  | nil =>
    have ran : exec (.loadComplete n) s = .next s := by
      change execLoadComplete n s = _
      unfold execLoadComplete
      rw [loads]
    rw [ran] at k
    exact completes_of ran k within ⟨fun _ => rfl, fun l ls h => by cases h⟩
  | cons l ls =>
    have ran := exec_loadComplete loads
    rw [ran] at k
    refine completes_of ran k within ⟨fun h => (by cases h), fun l' ls' h => ?_⟩
    cases h
    obtain ⟨waits, arrives⟩ := arrive_spec s n l.pc l.ranges (fun c => { c with loads := ls }) fun s => s.performLoad n l
    have core := taking_core s n l.ranges fun c => { c with loads := ls }
    have same := taking_alike s n l.ranges fun c => { c with loads := ls }
    have kept := taking_keeps s n l.ranges fun c => { c with loads := ls }
    refine ⟨waits, fun on killed => ?_,  fun on alive good => ?_, fun w on alive bad => ?_⟩
    · rw [(arrives on).1 killed]
      refine And.intro ((core n).trans (if_pos rfl)) ?_
      exact fun m other => (core m).trans (if_neg other)
    · rw [((arrives on).2 alive).1 good]
      generalize s.taking n l.ranges (fun c => { c with loads := ls }) = v at core same kept
      have own := (performLoad_core v n l n).trans (if_pos rfl)
      have mine := (core n).trans (if_pos rfl)
      have store : (v.core n).store l = (s.core n).store l := by rw [mine]; rfl
      obtain ⟨out, runs⟩ := nib_copyAll v l.copies ((s.core n).store l)
      rw [store] at own
      obtain ⟨rest, keeps⟩ := stored_fields (v.core n) l (v.copyAll l.copies ((s.core n).store l))
      have contents : ((v.performLoad n l).core n).store l = v.copyAll l.copies ((s.core n).store l) := by rw [own, stored_store]
      refine ⟨(performLoad_keeps kept n l (by unfold Within; decide +kernel)).changesOnly, fun m other => ?_, ?_, fun x => ?_, ?_, ?_⟩
      · rw [performLoad_core, if_neg other, core, if_neg other]
      · rw [own, rest, mine]
      · rw [own, keeps, mem_kept, mine]
      · rw [contents]
        intro pre src x dst post split later i hi
        rw [runs pre src x dst post split later i hi, same.nibAt]
      · rw [contents]
        exact out
    · rw [((arrives on).2 alive).2 w bad]
      exact arrival_faults s n l.pc l.ranges _ w rfl

/-! ## What can be reached -/

theorem blocksFree_congr {s t : State} (dev : t.dev = s.dev) (dram : t.dram = s.dram) (b k : Nat) : t.blocksFree b k = s.blocksFree b k := by
  induction k generalizing b with
  | zero => rfl
  | succ k ih =>
    unfold State.blocksFree State.groupBusy
    rw [ih, blockLoc_congr (congrArg Dram.frameMap dram) (congrArg Dev.part dev), dmc_congr (congrArg Dram.dmcs dram)]

theorem canReach_congr {s t : State} (dev : t.dev = s.dev) (dram : t.dram = s.dram) (weir : t.weir = s.weir) (a n : Nat) :
    t.canReach a n = s.canReach a n := by
  unfold State.canReach State.dramOpen State.noRecal
  simp only [blocksFree_congr dev dram, domainLive_congr (congrArg Weir.live weir), clockStopped_congr (congrArg Weir.cls weir),
    dmc_congr (congrArg Dram.dmcs dram), dev]

theorem reach_congr {s t : State} (dev : t.dev = s.dev) (dram : t.dram = s.dram) (weir : t.weir = s.weir) (rs : List (Nat × Nat)) :
    t.reach rs = s.reach rs := by
  unfold State.reach
  simp only [canReach_congr dev dram weir]

theorem reach_showing (s : State) (n : Nat) (fi : Fire) (rs : List (Nat × Nat)) : (s.showing n fi).reach rs = s.reach rs :=
  reach_congr (s := s) (t := s.showing n fi) rfl rfl rfl rs

/-! ## XSCAN -/

/-- Whether an XSCAN waits. -/
def State.scanWaits (s : State) (n : Nat) (rs : List (Nat × Nat)) : Prop := (s.core n).scanning ≠ none ∨ s.reach rs = false

theorem xscan_turn {n : Nat} {s : State} {r : Run} {fi : Fire} {op : Op} (turn : atTurn n 2 s r fi op) {u : State} (shown : s.showing n fi = u)
    {rs : List (Nat × Nat)} (ranges : u.scanRanges r fi.idx (bitAt op.bits 19) (bitAt op.bits 20) = rs) :
    (s.scanWaits n rs → exec (.xscan n) s = .next s) ∧
    (¬ s.scanWaits n rs →
      ((s.reads (portCl (n / 8)) rs).1 = none → exec (.xscan n) s = .next ((((u.reads (portCl (n / 8)) rs).2).updCore n fun c =>
        { c with scanning := some (u.slotAt n r (field op.bits 16 3) fi.idx, u.scanBase r fi.idx (bitAt op.bits 19) (bitAt op.bits 20)) }).advance n)) ∧
      ∀ w, (s.reads (portCl (n / 8)) rs).1 = some w → exec (.xscan n) s = .next ((u.reads (portCl (n / 8)) rs).2.coreFaulted n w)) := by
  have run := front_run (c := .xscan n) rfl turn
  rw [shown] at run
  dsimp only at run
  have test : ((u.core n).scanning.isSome || !u.reach rs) = true ↔ s.scanWaits n rs := by
    have scanning : (u.core n).scanning = (s.core n).scanning := by rw [← shown, core_showing_self]
    have reach : u.reach rs = s.reach rs := by rw [← shown, reach_showing]
    rw [scanning, reach]
    unfold State.scanWaits
    cases (s.core n).scanning <;> simp
  have fails : (u.reads (portCl (n / 8)) rs).1 = (s.reads (portCl (n / 8)) rs).1 :=
    reads_fst_congr (s := s) (t := u) (by rw [← shown]; rfl) (by rw [← shown]; rfl) _ _
  have read := reads_alike u (portCl (n / 8)) rs
  have core := reads_core u (portCl (n / 8)) rs n
  rw [ranges, fails] at run
  refine ⟨fun waits => run.trans ?_, fun free => ⟨fun good => run.trans ?_, fun w bad => run.trans ?_⟩⟩
  · rw [if_pos (test.2 waits)]
    rfl
  · rw [if_neg (mt test.1 free), good, onward_on, read.slotAt core, read.scanBase, Option.getD_some]
  · rw [if_neg (mt test.1 free), bad, onward_fault, Option.getD_some]

theorem xscan_effect (n : Nat) (s : State) : completes (.xscan n) (Comp.coreFault ++ Comp.dramSeen) s (fun t =>
    ((∀ r fi op, ¬ atTurn n 2 s r fi op) → t = s) ∧
    ∀ r fi op, atTurn n 2 s r fi op →
      let u := s.showing n fi
      let rs := u.scanRanges r fi.idx (bitAt op.bits 19) (bitAt op.bits 20)
      let waits := (s.core n).scanning ≠ none ∨ s.reach rs = false
      (waits → t = s) ∧
      (¬ waits → (s.reads (portCl (n / 8)) rs).1 = none →
        changesOnly ([.sluCores] ++ Comp.dramSeen) s t ∧ passed n s t ∧ (∀ m, m ≠ n → t.core m = s.core m) ∧
        (t.core n).scanning = some (u.slotAt n r (field op.bits 16 3) fi.idx,
          u.scanBase r fi.idx (bitAt op.bits 19) (bitAt op.bits 20))) ∧
      (∀ w, ¬ waits → (s.reads (portCl (n / 8)) rs).1 = some w → coreFaults n w u t)) := by
  refine completes_front rfl (execXscan_keeps (.refl s) n (Within.mem _)) (by decide +kernel) fun r fi op turn => ?_
  dsimp only
  generalize shown : s.showing n fi = u
  generalize ranges : u.scanRanges r fi.idx (bitAt op.bits 19) (bitAt op.bits 20) = rs
  obtain ⟨stays, goes⟩ := xscan_turn turn shown ranges
  by_cases waits : s.scanWaits n rs
  · exact ⟨s, stays waits, fun _ => rfl, fun h => absurd waits h, fun w h => absurd waits h⟩
  · obtain ⟨passes, faults⟩ := goes waits
    have core := reads_core u (portCl (n / 8)) rs
    have kept := reads_keeps (cs := fun c => c ∈ [Comp.sluCores] ++ Comp.dramSeen) (shown ▸ setCore_keeps (.refl s) n _ (by unfold Within; decide +kernel) :
      Keeps _ s u) (portCl (n / 8)) rs (by unfold Within; decide +kernel)
    have fault := read_faults u n (portCl (n / 8)) rs
    cases result : (s.reads (portCl (n / 8)) rs).1 with
    | some w =>
      refine ⟨_, faults w result, fun h => absurd h waits, fun _ h => (by cases h), fun w' _ h => ?_⟩
      cases h
      exact fault w
    | none =>
      refine ⟨_, passes result, fun h => absurd h waits, fun _ _ => ?_, fun w _ h => (by cases h)⟩
      generalize (u.reads (portCl (n / 8)) rs).2 = v at core kept
      generalize (u.slotAt n r (field op.bits 16 3) fi.idx, u.scanBase r fi.idx (bitAt op.bits 19) (bitAt op.bits 20)) = x
      have own : (v.updCore n fun c => { c with scanning := some x }).core n = { u.core n with scanning := some x } := by
        rw [core_updCore, if_pos rfl, core]
      refine ⟨(advance_keeps (updCore_keeps kept n _ (by unfold Within; decide +kernel)) n (by unfold Within; decide +kernel)).changesOnly,
        passes_core turn own ?_ ?_, fun m other => ?_, ?_⟩
      · rw [← shown, core_showing_self]
      · rw [← shown, core_showing_self]
      · rw [core_advance_other _ other, core_updCore, if_neg other, core, ← shown, core_showing_other s fi other]
      · rw [core_advance_self, own, (past_fields _).2.2.2.2.2.2.1]

theorem xscanComplete_effect (n : Nat) (s : State) : completes (.xscanComplete n) [.sluCores] s (fun t =>
    (∀ m, m ≠ n → t.core m = s.core m) ∧
    (((s.core n).scanning = none ∨ s.coreRuns n = false ∨ s.weir.coolant ≠ .none) → t = s) ∧
    ∀ k b, (s.core n).scanning = some (k, b) → s.coreRuns n = true → s.weir.coolant = .none →
      (t.core n).scanning = none ∧
      ((s.core n).st = .killing → (t.core n).slots = (s.core n).slots) ∧
      ((s.core n).st ≠ .killing → (t.core n).slot k = { (s.core n).slot k with base := b } ∧
        ∀ j, j ≠ k → (t.core n).slot j = (s.core n).slot j)) := by
  have kept := execXscanComplete_keeps (.refl s) n (Within.mem _)
  change KeepsOut _ s (exec (.xscanComplete n) s) at kept
  have stays (h : (s.core n).scanning = none ∨ s.coreRuns n = false ∨ s.weir.coolant ≠ .none) : exec (.xscanComplete n) s = .next s := by
    change execXscanComplete n s = _
    unfold execXscanComplete State.coolantHeld
    cases scan : (s.core n).scanning with
    | none => rfl
    | some x => exact congrArg _ (when_neg s (by rw [scan] at h; simpa [imp_iff_not_or] using h) _)
  by_cases idle : (s.core n).scanning = none ∨ s.coreRuns n = false ∨ s.weir.coolant ≠ .none
  · rw [stays idle] at kept
    refine completes_of (stays idle) kept (by decide) ⟨fun _ _ => rfl, fun _ => rfl, fun k b scan runs cool => ?_⟩
    rcases idle with none | held | held
    · rw [scan] at none; cases none
    · rw [runs] at held; cases held
    · exact absurd cool held
  · obtain ⟨⟨k, b⟩, scan⟩ := Option.ne_none_iff_exists'.1 fun none => idle (.inl none)
    have runs : s.coreRuns n = true := by simpa using fun off => idle (.inr (.inl off))
    have cool : s.weir.coolant = .none := by simpa using fun off => idle (.inr (.inr off))
    have ran : exec (.xscanComplete n) s = .next (s.updCore n fun c => if c.st == .killing then { c with scanning := none }
        else Core.setSlot { c with scanning := none } k { c.slot k with base := b }) := by
      change execXscanComplete n s = _
      unfold execXscanComplete State.coolantHeld
      rw [scan]
      exact congrArg _ (when_eq s (by simp [runs, cool]) _)
    rw [ran] at kept
    refine completes_of ran kept (by decide) ⟨fun m other => (core_updCore ..).trans (if_neg other), fun h => absurd h idle,
      fun k' b' scan' _ _ => ?_⟩
    obtain ⟨rfl, rfl⟩ := Prod.mk.inj (Option.some.inj (scan.symm.trans scan'))
    rw [core_updCore, if_pos rfl]
    by_cases killing : (s.core n).st = .killing
    · rw [if_pos (by simp [killing])]
      exact ⟨rfl, fun _ => rfl, fun alive => absurd killing alive⟩
    · rw [if_neg (by simp [killing])]
      exact ⟨rfl, fun h => absurd h killing, fun _ => ⟨(slot_setSlot ..).trans (if_pos rfl), fun j other => (slot_setSlot ..).trans (if_neg other)⟩⟩

/-! ## INIT -/

/-- Whether an INIT waits. -/
def State.initWaits (s : State) (n k : Nat) (rs : List (Nat × Nat)) : Prop := (s.core n).initing k = true ∨ s.reach rs = false

/-- A core whose slot an INIT has cleared, with the partial that it asks for. -/
def Core.cleared (c : Core) (k : Nat) (x : Tile) (asked : List InitRec) : Core :=
  { c.setSlot k x with inits := c.inits ++ asked }

/-- What an INIT does at its turn. -/
def State.initAt (n : Nat) (s : State) (r : Run) (fi : Fire) (op : Op) : Option State :=
  let k := s.slotAt n r (field op.bits 16 3) fi.idx
  let rs := s.scaleRanges r.cmd r.run.bounds fi.idx
  if (s.core n).initing k || !s.reach rs then none
  else
    let x := s.reads (portCl (n / 8)) rs
    x.2.onward n x.1 fun s => s.updCore n fun c =>
      let c1 := Core.setSlot c k { Tile.zero with scale := s.scaleRead r.cmd r.run.bounds fi.idx }
      if bitAt op.bits 19 then
        { c1 with inits := c1.inits ++ [{ slot := k, addr := s.roleAt r 4 2 fi.idx / 2, pc := fi.pc }] }
      else c1

theorem exec_initAt (n : Nat) (s : State) : exec (.init ⟨n, false⟩) s = .next (s.atFront n 3 (State.initAt n)) := rfl

theorem init_turn {n : Nat} {s : State} {r : Run} {fi : Fire} {op : Op} (turn : atTurn n 3 s r fi op) {u : State} (shown : s.showing n fi = u)
    {k : Nat} (at_ : u.slotAt n r (field op.bits 16 3) fi.idx = k)
    {rs : List (Nat × Nat)} (ranges : u.scaleRanges r.cmd r.run.bounds fi.idx = rs) :
    (s.initWaits n k rs → exec (.init ⟨n, false⟩) s = .next s) ∧
    (¬ s.initWaits n k rs →
      ((s.reads (portCl (n / 8)) rs).1 = none → exec (.init ⟨n, false⟩) s = .next ((((u.reads (portCl (n / 8)) rs).2).updCore n fun c =>
        c.cleared k { Tile.zero with scale := u.scaleRead r.cmd r.run.bounds fi.idx }
          (if bitAt op.bits 19 = true then [⟨k, u.roleAt r 4 2 fi.idx / 2, fi.pc⟩] else [])).advance n)) ∧
      ∀ w, (s.reads (portCl (n / 8)) rs).1 = some w → exec (.init ⟨n, false⟩) s = .next ((u.reads (portCl (n / 8)) rs).2.coreFaulted n w)) := by
  have run := front_run (exec_initAt n s) turn
  rw [shown] at run
  unfold State.initAt at run
  dsimp only at run
  have test : ((u.core n).initing k || !u.reach rs) = true ↔ s.initWaits n k rs := by
    have initing : (u.core n).initing k = (s.core n).initing k := by
      rw [← shown, core_showing_self]
      rfl
    have reach : u.reach rs = s.reach rs := by rw [← shown, reach_showing]
    rw [initing, reach]
    unfold State.initWaits
    simp
  have fails : (u.reads (portCl (n / 8)) rs).1 = (s.reads (portCl (n / 8)) rs).1 :=
    reads_fst_congr (s := s) (t := u) (by rw [← shown]; rfl) (by rw [← shown]; rfl) _ _
  have read := reads_alike u (portCl (n / 8)) rs
  rw [at_, ranges, fails] at run
  refine ⟨fun waits => run.trans ?_, fun free => ⟨fun good => run.trans ?_, fun w bad => run.trans ?_⟩⟩
  · rw [if_pos (test.2 waits)]
    rfl
  · rw [if_neg (mt test.1 free), good, onward_on, read.roleAt, read.scaleRead, Option.getD_some]
    refine congrArg (fun f => Host.Outcome.next ((State.updCore _ n f).advance n)) (funext fun c => ?_)
    unfold Core.cleared
    split
    · rfl
    · rw [List.append_nil]
      rfl
  · rw [if_neg (mt test.1 free), bad, onward_fault, Option.getD_some]

theorem init_effect (n : Nat) (s : State) : completes (.init ⟨n, false⟩) (Comp.coreFault ++ Comp.dramSeen) s (fun t =>
    ((∀ r fi op, ¬ atTurn n 3 s r fi op) → t = s) ∧
    ∀ r fi op, atTurn n 3 s r fi op →
      let u := s.showing n fi
      let k := u.slotAt n r (field op.bits 16 3) fi.idx
      let rs := u.scaleRanges r.cmd r.run.bounds fi.idx
      let waits := (s.core n).initing k = true ∨ s.reach rs = false
      (waits → t = s) ∧
      (¬ waits → (s.reads (portCl (n / 8)) rs).1 = none →
        changesOnly ([.sluCores] ++ Comp.dramSeen) s t ∧ passed n s t ∧ (∀ m, m ≠ n → t.core m = s.core m) ∧
        (t.core n).slot k = { Tile.zero with scale := u.scaleRead r.cmd r.run.bounds fi.idx } ∧
        (∀ j, j ≠ k → (t.core n).slot j = (s.core n).slot j) ∧
        (t.core n).inits = (s.core n).inits ++
          if bitAt op.bits 19 = true then [InitRec.mk k (u.roleAt r 4 2 fi.idx / 2) fi.pc] else []) ∧
      (∀ w, ¬ waits → (s.reads (portCl (n / 8)) rs).1 = some w → coreFaults n w u t)) := by
  refine completes_front (exec_initAt n s) (execInit_keeps (.refl s) ⟨n, false⟩ (Within.mem _)) (by decide +kernel) fun r fi op turn => ?_
  dsimp only
  generalize shown : s.showing n fi = u
  generalize at_ : u.slotAt n r (field op.bits 16 3) fi.idx = k
  generalize ranges : u.scaleRanges r.cmd r.run.bounds fi.idx = rs
  obtain ⟨stays, goes⟩ := init_turn turn shown at_ ranges
  by_cases waits : s.initWaits n k rs
  · exact ⟨s, stays waits, fun _ => rfl, fun h => absurd waits h, fun w h => absurd waits h⟩
  · obtain ⟨passes, faults⟩ := goes waits
    have core := reads_core u (portCl (n / 8)) rs
    have kept := reads_keeps (cs := fun c => c ∈ [Comp.sluCores] ++ Comp.dramSeen) (shown ▸ setCore_keeps (.refl s) n _ (by unfold Within; decide +kernel) :
      Keeps _ s u) (portCl (n / 8)) rs (by unfold Within; decide +kernel)
    have fault := read_faults u n (portCl (n / 8)) rs
    cases result : (s.reads (portCl (n / 8)) rs).1 with
    | some w =>
      refine ⟨_, faults w result, fun h => absurd h waits, fun _ h => (by cases h), fun w' _ h => ?_⟩
      cases h
      exact fault w
    | none =>
      refine ⟨_, passes result, fun h => absurd h waits, fun _ _ => ?_, fun w _ h => (by cases h)⟩
      generalize (u.reads (portCl (n / 8)) rs).2 = v at core kept
      generalize ({ Tile.zero with scale := u.scaleRead r.cmd r.run.bounds fi.idx } : Tile) = x
      generalize (if bitAt op.bits 19 = true then [InitRec.mk k (u.roleAt r 4 2 fi.idx / 2) fi.pc] else []) = asked
      have own : (v.updCore n fun c => c.cleared k x asked).core n = ({ s.core n with pc := fi.pc } : Core).cleared k x asked := by
        rw [core_updCore, if_pos rfl, core, ← shown, core_showing_self]
      have slot : ∀ j, (((v.updCore n fun c => c.cleared k x asked).advance n).core n).slot j = if j = k then x else (s.core n).slot j := by
        intro j
        rw [core_advance_self, own, past_slot]
        exact slot_setSlot ({ s.core n with pc := fi.pc } : Core) k j x
      refine ⟨(advance_keeps (updCore_keeps kept n _ (by unfold Within; decide +kernel)) n (by unfold Within; decide +kernel)).changesOnly,
        passes_core turn own rfl rfl, fun m other => ?_, (slot k).trans (if_pos rfl), fun j other => (slot j).trans (if_neg other), ?_⟩
      · rw [core_advance_other _ other, core_updCore, if_neg other, core, ← shown, core_showing_other s fi other]
      · rw [core_advance_self, own, (past_fields _).2.2.2.2.2.1]
        rfl

/-- The state in which a partial has arrived in its slot. -/
def State.partialIn (n : Nat) (x : InitRec) (s : State) : State :=
  s.updCore n fun c => c.setSlot x.slot { c.slot x.slot with acc := s.partialAcc x.addr }

theorem partialIn_core (n : Nat) (x : InitRec) (s : State) (k : Nat) : (State.partialIn n x s).core k =
    if k = n then (s.core n).setSlot x.slot { (s.core n).slot x.slot with acc := s.partialAcc x.addr } else s.core k := core_updCore ..

theorem exec_init {n : Nat} {s : State} {x : InitRec} {xs : List InitRec} (inits : (s.core n).inits = x :: xs) :
    exec (.init ⟨n, true⟩) s = .next (s.arrive n x.pc [(x.addr, 65536)] (fun c => { c with inits := xs }) (State.partialIn n x)) := by
  change execInit ⟨n, true⟩ s = _
  unfold execInit State.endInit
  rw [if_pos rfl, inits]
  rfl

theorem partialAcc_cell (s : State) (a : Nat) {c : Nat} (h : c < 16384) :
    SMap.get (fun _ => 0) (s.partialAcc a) c = BitVec.ofNat 32 (leVal (s.memGet (a + 4 * c) 4)) :=
  SMap.get_ofFn _ _ h

theorem partial_effect (n : Nat) (s : State) : completes (.init ⟨n, true⟩) (Comp.coreFault ++ Comp.dramSeen) s (fun t =>
    ((s.core n).inits = [] → t = s) ∧
    ∀ x xs, (s.core n).inits = x :: xs →
      (¬ s.arrives n [(x.addr, 65536)] → t = s) ∧
      (s.arrives n [(x.addr, 65536)] → (s.core n).st = .killing →
        t.core n = { s.core n with inits := xs } ∧ ∀ m, m ≠ n → t.core m = s.core m) ∧
      (s.arrives n [(x.addr, 65536)] → (s.core n).st ≠ .killing → (s.reads (portCl (n / 8)) [(x.addr, 65536)]).1 = none →
        changesOnly ([.sluCores] ++ Comp.dramSeen) s t ∧ (∀ m, m ≠ n → t.core m = s.core m) ∧ (t.core n).inits = xs ∧
        (∀ c < 16384, SMap.get (fun _ => 0) ((t.core n).slot x.slot).acc c =
          BitVec.ofNat 32 (leVal (s.memGet (x.addr + 4 * c) 4))) ∧
        ((t.core n).slot x.slot).base = ((s.core n).slot x.slot).base ∧
        ∀ j, j ≠ x.slot → (t.core n).slot j = (s.core n).slot j) ∧
      (∀ w, s.arrives n [(x.addr, 65536)] → (s.core n).st ≠ .killing → (s.reads (portCl (n / 8)) [(x.addr, 65536)]).1 = some w →
        coreFaults n w (s.setCore n { s.core n with pc := x.pc }) t)) := by
  have k := execInit_keeps (.refl s) ⟨n, true⟩ (Within.mem _)
  change KeepsOut _ s (exec (.init ⟨n, true⟩) s) at k
  have within : ∀ c ∈ execInitChanges, c ∈ Comp.coreFault ++ Comp.dramSeen := by decide +kernel
  cases inits : (s.core n).inits with
  | nil =>
    have ran : exec (.init ⟨n, true⟩) s = .next s := by
      change execInit ⟨n, true⟩ s = _
      unfold execInit State.endInit
      rw [if_pos rfl, inits]
    rw [ran] at k
    exact completes_of ran k within ⟨fun _ => rfl, fun x xs h => by cases h⟩
  | cons x xs =>
    have ran := exec_init inits
    rw [ran] at k
    refine completes_of ran k within ⟨fun h => (by cases h), fun x' xs' h => ?_⟩
    cases h
    obtain ⟨waits, arrives⟩ := arrive_spec s n x.pc [(x.addr, 65536)] (fun c => { c with inits := xs }) (State.partialIn n x)
    have core := taking_core s n [(x.addr, 65536)] fun c => { c with inits := xs }
    have same := taking_alike s n [(x.addr, 65536)] fun c => { c with inits := xs }
    have kept := taking_keeps s n [(x.addr, 65536)] fun c => { c with inits := xs }
    refine ⟨waits, fun on killed => ?_, fun on alive good => ?_, fun w on alive bad => ?_⟩
    · rw [(arrives on).1 killed]
      refine And.intro ((core n).trans (if_pos rfl)) ?_
      exact fun m other => (core m).trans (if_neg other)
    · rw [((arrives on).2 alive).1 good]
      generalize s.taking n [(x.addr, 65536)] (fun c => { c with inits := xs }) = v at core same kept
      have mine := (core n).trans (if_pos rfl)
      have own := (partialIn_core n x v n).trans (if_pos rfl)
      have tile : (v.core n).slot x.slot = (s.core n).slot x.slot := by rw [mine]; rfl
      rw [tile, same.partialAcc] at own
      have cells := fun c hc => partialAcc_cell s x.addr (c := c) hc
      generalize s.partialAcc x.addr = acc at own cells
      have slot := fun j => slot_setSlot (v.core n) x.slot j { (s.core n).slot x.slot with acc := acc }
      have here := (slot x.slot).trans (if_pos rfl)
      rw [← own] at here
      refine ⟨(updCore_keeps kept n _ (by unfold Within; decide +kernel)).changesOnly, fun m other => ?_, ?_, fun c hc => ?_, ?_, fun j other => ?_⟩
      · rw [partialIn_core, if_neg other, core, if_neg other]
      · rw [own]
        exact congrArg Core.inits mine
      · exact (congrArg (fun t => SMap.get (fun _ => 0) (Tile.acc t) c) here).trans (cells c hc)
      · exact (congrArg Tile.base here).trans rfl
      · rw [own, slot, if_neg other, mine]
        rfl
    · rw [((arrives on).2 alive).2 w bad]
      exact arrival_faults s n x.pc [(x.addr, 65536)] _ w rfl

/-- Settles O40: the six commands by their effects. -/
theorem loadsScansAndInits : Obligations.LoadsScansAndInits :=
  ⟨⟨load_effect, loadComplete_effect⟩, ⟨xscan_effect, xscanComplete_effect, init_effect, partial_effect⟩⟩

end Sys2Proof.Machine
end

section
/-! SUPPORT. The command list of a context, its commits, and tile claims and commits (R122, R143, R144, R151). -/

set_option Elab.async false

namespace Sys2Proof.Machine

variable {cs : Comp → Prop} {u : State}

/-! ## Command lists -/

/-- The image and the bytes of DRAM are those of another state. -/
structure SameImage (s v : State) : Prop where
  ldr : v.ldr = s.ldr
  bytes : v.dram.bytes = s.dram.bytes

section
variable {s v : State} (h : SameImage s v)
include h

theorem SameImage.dramRd (a n : Nat) : v.dramRd a n = s.dramRd a n := by
  unfold State.dramRd
  rw [h.bytes]

theorem SameImage.ctxEntry (c : Nat) : v.ctxEntry c = s.ctxEntry c := by
  unfold State.ctxEntry
  rw [h.ldr]

theorem SameImage.segRun (c : Nat) : v.segRun c = s.segRun c := by
  unfold State.segRun
  rw [h.ldr]

theorem SameImage.oldFor (c captureTs stamp : Nat) : v.oldFor c captureTs stamp = s.oldFor c captureTs stamp := by
  unfold State.oldFor
  rw [h.segRun]

theorem SameImage.recordsIn (ctx e k a : Nat) : v.recordsIn ctx e k a = s.recordsIn ctx e k a := by
  induction k generalizing a with
  | zero => rfl
  | succ k ih =>
    unfold State.recordsIn
    simp only [h.dramRd, ih]

theorem SameImage.records (ctx : Nat) (old : Bool) : v.records ctx old = s.records ctx old := by
  unfold State.records State.recordsOf State.sections State.namedList
  simp only [h.recordsIn, h.segRun, h.ctxEntry, h.ldr]

theorem SameImage.recordAt (ctx k : Nat) (old : Bool) : v.recordAt ctx k old = s.recordAt ctx k old := by
  unfold State.recordAt
  simp only [h.records, h.dramRd]

theorem SameImage.cmdAt (ctx k : Nat) (old : Bool) : v.cmdAt ctx k old = s.cmdAt ctx k old := by
  unfold State.cmdAt
  simp only [h.recordAt, h.dramRd]

theorem SameImage.stepOld {c : Nat} (run : v.ctxRun c = s.ctxRun c) : v.stepOld c = s.stepOld c := by
  unfold State.stepOld State.stepOf
  simp only [run, h.oldFor]

theorem SameImage.running {c : Nat} (run : v.ctxRun c = s.ctxRun c) (cmd : v.cmdRun c = s.cmdRun c) : v.running c = s.running c := by
  unfold State.running
  simp only [cmd, h.cmdAt, h.stepOld run]

end

theorem SameImage.of_keeps {cs : List Comp} {s v : State} (k : Keeps (fun c => c ∈ cs) s v) (ldr : ∀ c ∈ Comp.allLdr, c ∉ cs := by decide)
    (bytes : .dramBytes ∉ cs := by decide) : SameImage s v :=
  ⟨k.ldr_eq ldr, k.dram.bytes.resolve_left bytes⟩

/-! ## The commit of a command -/

/-- The state in which a command is gone, with its windows, before its step counts it. -/
def State.cmdGone (s : State) (c cmd : Nat) (coll : Bool) : State :=
  if coll then (((s.dropCmdRun c).dropWindows c cmd).endGroup c).sprintCheck else (s.dropCmdRun c).dropWindows c cmd

/-- A step that has counted a command's commit. -/
def State.counting (s : State) (c : Nat) (st : StepRun) (w : W16) : State :=
  s.updCtxRun c fun x => { x with step := some { st with cmd := st.cmd + 1 }, committed := some (st.cmd, w) }

/-- Whether the command at a place of a context's list is a collective. -/
def State.collAt (s : State) (c cmd : Nat) : Bool :=
  match s.cmdAt c cmd (s.stepOld c) with
  | some x => x.kind == 2
  | none => false

theorem cmdCommit_eq {s : State} {c : Nat} {st : StepRun} (step : s.stepOf c = some st) (w : W16) : s.cmdCommit c w =
    if (s.records c (s.stepOld c)).length ≤ st.cmd + 1 then
      ((s.cmdGone c st.cmd (s.collAt c st.cmd)).counting c st w).stepCommit c { st with cmd := st.cmd + 1 }
    else (s.cmdGone c st.cmd (s.collAt c st.cmd)).counting c st w := by
  unfold State.cmdCommit
  rw [step]
  rfl

/-- A command that commits is gone; what else is done leaves the cores alone. -/
structure Committed (s t : State) (c cmd : Nat) (w : W16) : Prop where
  gone : t.cmdRun c = none
  status : (t.ctxRun c).committed = some (cmd, w)
  core : ∀ n, (s.core n).st ≠ .running → (s.core n).st ≠ .committing → t.core n = s.core n
  last : ∀ n, (t.core n).lastStatus = (s.core n).lastStatus

theorem CtxRun.sameWork.committed {x y : CtxRun} (h : x.sameWork y) : y.committed = x.committed := by rw [h]

theorem Committed.sched {s t v : State} {c cmd : Nat} {w : W16} (h : Committed s t c cmd w) (g : Sched t v) : Committed s v c cmd w := by
  refine ⟨g.cmd_none h.gone, (g.ctx c).committed.trans h.status, fun n run com => ?_, fun n => (g.last n).trans (h.last n)⟩
  have same := h.core n run com
  rw [g.core_quiet (by rwa [same]) (by rwa [same]), same]

theorem cmdGone_sched (s : State) (c cmd : Nat) (coll : Bool) : (s.cmdGone c cmd coll).cmdRun c = none ∧
    ∀ n, (s.cmdGone c cmd coll).core n = s.core n := by
  have gone : ((s.dropCmdRun c).dropWindows c cmd).cmdRun c = none := by
    change (s.dropCmdRun c).cmdRun c = none
    rw [cmdRun_dropCmdRun, if_pos rfl]
  unfold State.cmdGone
  split
  · have kept := sprintCheck_keeps (.refl (((s.dropCmdRun c).dropWindows c cmd).endGroup c)) (Within.mem _)
    exact ⟨(cmdRun_congr (kept.slu.cmds.resolve_left (by decide)) c).trans gone, fun n => core_congr (kept.slu.cores.resolve_left (by decide)) n⟩
  · exact ⟨gone, fun _ => rfl⟩

theorem counting_committed (s : State) (c cmd : Nat) (coll : Bool) (st : StepRun) (w : W16) :
    Committed s ((s.cmdGone c cmd coll).counting c st w) c st.cmd w := by
  obtain ⟨gone, cores⟩ := cmdGone_sched s c cmd coll
  generalize s.cmdGone c cmd coll = v at *
  refine ⟨gone, ?_, fun n _ _ => cores n, fun n => congrArg Core.lastStatus (cores n)⟩
  unfold State.counting
  rw [ctxRun_updCtxRun, if_pos rfl]

/-- A step has ended, before the decision point that follows. -/
def State.stepCounted (s : State) (c : Nat) (st : StepRun) : State :=
  (((s.itemsDone c st.cluster (s.stepOld c) (indexed st.items)).updCtxRun c fun x =>
    { x with step := none, estNs := nextEst x.estNs (s.nowNs - st.startNs) }).addTo
      .SLUICE_CNT_STEPS 0 1).endGroup c

theorem stepCommit_eq (s : State) (c : Nat) (st : StepRun) : s.stepCommit c st =
    ((s.stepCounted c st).settle.yieldLanes (((s.stepCounted c st).settle.ctxRun c).holds)).schedule := rfl

theorem Committed.stepCommit {s t : State} {c cmd : Nat} {w : W16} (h : Committed s t c cmd w) (st : StepRun) :
    Committed s (t.stepCommit c st) c cmd w := by
  have counted : Committed s (t.stepCounted c st) c cmd w := by
    have items := h.sched (Sched.of_keeps (itemsDone_keeps (.refl t) c st.cluster (t.stepOld c) (indexed st.items) (Within.mem _)))
    unfold State.stepCounted
    generalize t.itemsDone c st.cluster (t.stepOld c) (indexed st.items) = v at *
    have ended : Committed s (v.updCtxRun c fun x => { x with step := none, estNs := nextEst x.estNs (t.nowNs - st.startNs) }) c cmd w := by
      refine ⟨items.gone, ?_, items.core, items.last⟩
      rw [ctxRun_updCtxRun, if_pos rfl]
      exact items.status
    generalize (v.updCtxRun c fun x => { x with step := none, estNs := nextEst x.estNs (t.nowNs - st.startNs) }) = v at *
    have added : Sched v (v.addTo .SLUICE_CNT_STEPS 0 1) := .of_slu (by simp) (by simp) (by simp) (by simp)
    exact (ended.sched added).sched (.of_slu rfl rfl rfl rfl)
  rw [stepCommit_eq]
  exact (((counted.sched (settle_sched _)).sched (yieldLanes_sched _ _)).sched (schedule_sched _))

theorem cmdCommit_committed {s : State} {c : Nat} {st : StepRun} (step : s.stepOf c = some st) (w : W16) :
    Committed s (s.cmdCommit c w) c st.cmd w := by
  rw [cmdCommit_eq step]
  have counting := counting_committed s c st.cmd (s.collAt c st.cmd) st w
  split
  · exact counting.stepCommit _
  · exact counting

theorem cmdCommit_idle {s : State} {c : Nat} (step : s.stepOf c = none) (w : W16) : s.cmdCommit c w = s := by
  unfold State.cmdCommit
  rw [step]

end Sys2Proof.Machine
end

section
/-! SUPPORT. Tile commits (R122, R144). -/

set_option Elab.async false

namespace Sys2Proof.Machine

variable {cs : Comp → Prop} {u : State}

theorem regOk_tiles : ∀ {n : Nat}, n < 4 → regOk .CL_CNT_COMMITS n 0 = true ∧ regOk .CL_CNT_STALE n 0 = true ∧ regOk .CL_CNT_CLAIMS n 0 = true := by
  decide +kernel

/-! ## A commit at its port -/

/-- How many tiles of a record have committed with one more. -/
def State.tilesDone (s : State) (x : WorkRec) : Nat := s.recField x 12 4 + 1

/-- The status of a record with that of one more tile. -/
def State.tileStatus (s : State) (d : DoneTile) : Nat := (worseStatus (BitVec.ofNat 16 (s.recField d.record 22 2)) d.status).toNat

/-- A record in which a tile is counted. -/
def State.tallied (s : State) (d : DoneTile) : State :=
  (s.putRecField d.record 12 4 (s.tilesDone d.record)).putRecField d.record 22 2 (s.tileStatus d)

/-- A record and its cluster's counter with one more tile. -/
def State.tileCounted (s : State) (d : DoneTile) : State := (s.tallied d).addTo .CL_CNT_COMMITS d.record.cluster 1

theorem portCommit_spec (s : State) (d : DoneTile) :
    (s.recField d.record 4 4 ≠ d.gen → s.portCommit d = s.count .CL_CNT_STALE d.record.cluster) ∧
    (s.recField d.record 4 4 = d.gen →
      ((s.tilesDone d.record ≠ s.recField d.record 8 4 ∨ s.cmdRun d.ctx = none) → s.portCommit d = s.tileCounted d) ∧
      ∀ run, s.cmdRun d.ctx = some run → s.tilesDone d.record = s.recField d.record 8 4 →
        s.portCommit d = (s.tileCounted d).shardDone d.ctx run d.record) := by
  refine ⟨fun stale => if_pos stale, fun fresh => ?_⟩
  have eq : s.portCommit d = match s.cmdRun d.ctx with
      | some run => if s.tilesDone d.record = s.recField d.record 8 4 then (s.tileCounted d).shardDone d.ctx run d.record else s.tileCounted d
      | none => s.tileCounted d := if_neg (not_not.2 fresh)
  rw [eq]
  refine ⟨fun more => ?_, fun run found last => ?_⟩
  · cases found : s.cmdRun d.ctx with
    | none => rfl
    | some run => exact if_neg (more.resolve_right (by rw [found]; nofun))
  · rw [found]
    exact if_pos last

theorem tileStatus_lt (s : State) (d : DoneTile) : s.tileStatus d < 2 ^ 16 := (worseStatus _ _).isLt

/-- What a record holds with one more tile, and that nothing else changes in memory. -/
theorem tallied_fields (s : State) (d : DoneTile) (few : s.tilesDone d.record < 2 ^ 32) :
    (s.tallied d).recField d.record 12 4 = s.tilesDone d.record ∧ (s.tallied d).recField d.record 22 2 = s.tileStatus d ∧
    (∀ m, m ≠ d.record.cluster → (s.tallied d).basin m = s.basin m) ∧
    ∀ b, (b < d.record.addr + 12 ∨ d.record.addr + 16 ≤ b) → (b < d.record.addr + 22 ∨ d.record.addr + 24 ≤ b) →
      Mem.read ((s.tallied d).basin d.record.cluster) b = Mem.read (s.basin d.record.cluster) b := by
  unfold State.tallied
  refine ⟨?_, ?_, fun m other => ?_, fun b a1 a2 => ?_⟩
  · rw [recField_put_apart _ _ _ _ (by omega), recField_put_self, Nat.mod_eq_of_lt (by omega)]
  · have small := tileStatus_lt s d
    rw [recField_put_self, Nat.mod_eq_of_lt (by omega)]
  · rw [basin_putRecField, if_neg other, basin_putRecField, if_neg other]
  · rw [basin_putRecField, if_pos rfl, Mem.read_writeList_ne _ _ _ (by rw [leBytes_length]; omega), basin_putRecField, if_pos rfl,
      Mem.read_writeList_ne _ _ _ (by rw [leBytes_length]; omega)]

theorem tileCounted_basin (s : State) (d : DoneTile) (k : Nat) : (s.tileCounted d).basin k = (s.tallied d).basin k := basin_congr (by unfold State.tileCounted; simp) k

theorem tileCounted_core (s : State) (d : DoneTile) (k : Nat) : (s.tileCounted d).core k = s.core k :=
  core_congr (by unfold State.tileCounted; simp; rfl) k

theorem tileCounted_keeps (s : State) (d : DoneTile) : Keeps (fun c => c ∈ [Comp.sluBasins, .reg .CL_CNT_COMMITS]) s (s.tileCounted d) := by
  unfold State.tileCounted State.tallied
  exact addTo_keeps (putRecField_keeps (putRecField_keeps (.refl s) _ _ _ _ (by unfold Within; decide)) _ _ _ _ (by unfold Within; decide)) _ _ _
    (.inr (by decide))

theorem tileCounted_reg (s : State) (d : DoneTile) (h : d.record.cluster < 4) :
    (s.tileCounted d).reg .CL_CNT_COMMITS d.record.cluster 0 = s.reg .CL_CNT_COMMITS d.record.cluster 0 + 1 := by
  unfold State.tileCounted
  rw [addTo_reg _ _ _ _ (regOk_tiles h).1]
  rfl

/-! ## The last tile of a record -/

/-- The records of a command of which one shard is complete. -/
def CmdRun.completed (r : CmdRun) (x : WorkRec) : List WorkRec :=
  r.recs.map fun y => if y.shard = x.shard then { y with complete := true } else y

theorem completed_all (r : CmdRun) (x : WorkRec) : (r.completed x).all (·.complete) = true ↔ ∀ y ∈ r.recs, y.shard ≠ x.shard → y.complete = true := by
  unfold CmdRun.completed
  rw [List.all_eq_true, List.forall_mem_map]
  refine forall_congr' fun y => forall_congr' fun _ => ?_
  by_cases own : y.shard = x.shard
  · simp [own]
  · simp [own]

theorem recStatus_congr {s t : State} {f : WorkRec → WorkRec} (h : ∀ y, t.recField (f y) 22 2 = s.recField y 22 2) (rs : List WorkRec) :
    t.recStatus (rs.map f) = s.recStatus rs := by
  unfold State.recStatus
  rw [List.foldl_map]
  simp only [h]

theorem shardDone_spec (s : State) (c : Nat) (r : CmdRun) (x : WorkRec) :
    ((∃ y ∈ r.recs, y.shard ≠ x.shard ∧ y.complete = false) → s.shardDone c r x = s.setCmdRun c { r with recs := r.completed x }) ∧
    ((∀ y ∈ r.recs, y.shard ≠ x.shard → y.complete = true) →
      s.shardDone c r x = (s.setCmdRun c { r with recs := r.completed x }).cmdCommit c (s.recStatus r.recs)) := by
  have recs : updWhere (fun y : WorkRec => y.shard = x.shard) (fun y => { y with complete := true }) r.recs = r.completed x := by
    unfold updWhere CmdRun.completed
    simp only [decide_eq_true_eq]
  have eq : s.shardDone c r x = if (r.completed x).all (·.complete) then
      (s.setCmdRun c { r with recs := r.completed x }).cmdCommit c ((s.setCmdRun c { r with recs := r.completed x }).recStatus (r.completed x))
      else s.setCmdRun c { r with recs := r.completed x } := by
    unfold State.shardDone
    rw [recs]
  have status : (s.setCmdRun c { r with recs := r.completed x }).recStatus (r.completed x) = s.recStatus r.recs := by
    refine recStatus_congr (fun y => ?_) r.recs
    split
    · rfl
    · rfl
  rw [eq, status]
  refine ⟨fun ⟨y, mem, other, open_⟩ => if_neg fun all => ?_, fun all => if_pos ((completed_all r x).2 all)⟩
  have := (completed_all r x).1 all y mem other
  rw [open_] at this
  cases this

/-- Whatever follows the last tile of a record, a core that does not run stays, and so does every core's last status. -/
theorem shardDone_cores (s : State) (c : Nat) (r : CmdRun) (x : WorkRec) :
    (∀ n, (s.core n).st ≠ .running → (s.core n).st ≠ .committing → (s.shardDone c r x).core n = s.core n) ∧
    ∀ n, ((s.shardDone c r x).core n).lastStatus = (s.core n).lastStatus := by
  obtain ⟨more, last⟩ := shardDone_spec s c r x
  by_cases all : ∀ y ∈ r.recs, y.shard ≠ x.shard → y.complete = true
  · rw [last all]
    cases step : (s.setCmdRun c { r with recs := r.completed x }).stepOf c with
    | none =>
      rw [cmdCommit_idle step]
      exact ⟨fun _ _ _ => rfl, fun _ => rfl⟩
    | some st =>
      have done := cmdCommit_committed step (s.recStatus r.recs)
      exact ⟨done.core, done.last⟩
  · rw [more (by simpa [and_assoc] using all)]
    exact ⟨fun _ _ _ => rfl, fun _ => rfl⟩

/-! ## TILE_COMMIT -/

/-- A core whose oldest tile commits. -/
def Core.committed (c : Core) (d : DoneTile) (ds : List DoneTile) : Core :=
  { c with done := ds, lastStatus := d.status, st := if ds = [] ∧ c.st = .committing then .idle else c.st }

theorem exec_tileCommit {n : Nat} {s : State} {d : DoneTile} {ds : List DoneTile} (done : (s.core n).done = d :: ds) :
    (¬ ((s.core n).sent d = true ∧ s.coreRuns n = true ∧ s.recLive d.record = true) → exec (.tileCommit n) s = .next s) ∧
    ((s.core n).sent d = true ∧ s.coreRuns n = true ∧ s.recLive d.record = true →
      exec (.tileCommit n) s = .next ((s.setCore n ((s.core n).committed d ds)).portCommit d)) := by
  have eq : exec (.tileCommit n) s = .next (s.when ((s.core n).sent d && s.coreRuns n && s.recLive d.record) fun s =>
      (s.setCore n ((s.core n).committed d ds)).portCommit d) := by
    change execTileCommit n s = _
    unfold execTileCommit
    dsimp only
    rw [done]
    refine congrArg Host.Outcome.next ?_
    dsimp only
    unfold State.when Core.committed
    simp only [Bool.and_eq_true, decide_eq_true_eq, beq_iff_eq]
  rw [eq]
  exact ⟨fun off => congrArg _ (when_neg s (by simpa [and_assoc] using off) _), fun on => congrArg _ (when_eq s (by simp [on]) _)⟩

/-- A commit at a record whose last tile it is not, and one without its command. -/
theorem tileCounted_effect {s v : State} {n : Nat} {c : Core} (upd : s.setCore n c = v) (d : DoneTile)
    (few : s.tilesDone d.record < 2 ^ 32) :
    changesOnly [.sluCores, .sluBasins, .reg .CL_CNT_COMMITS] s (v.tileCounted d) ∧ (v.tileCounted d).core n = c ∧
    (∀ m, m ≠ n → (v.tileCounted d).core m = s.core m) ∧
    (v.tileCounted d).recField d.record 12 4 = s.tilesDone d.record ∧ (v.tileCounted d).recField d.record 22 2 = s.tileStatus d ∧
    (∀ m, m ≠ d.record.cluster → (v.tileCounted d).basin m = s.basin m) ∧
    ∀ b, (b < d.record.addr + 12 ∨ d.record.addr + 16 ≤ b) → (b < d.record.addr + 22 ∨ d.record.addr + 24 ≤ b) →
      Mem.read ((v.tileCounted d).basin d.record.cluster) b = Mem.read (s.basin d.record.cluster) b := by
  have basin : ∀ m, v.basin m = s.basin m := fun m => by rw [← upd]; rfl
  have field := fun o m => recField_congr (r := d.record) (basin d.record.cluster) o m
  have tiles : v.tilesDone d.record = s.tilesDone d.record := by unfold State.tilesDone; rw [field]
  have status : v.tileStatus d = s.tileStatus d := by unfold State.tileStatus; rw [field]
  obtain ⟨count, worst, others, rest⟩ := tallied_fields v d (by rw [tiles]; exact few)
  have mem := tileCounted_basin v d
  have kept := tileCounted_keeps v d
  refine ⟨?_, ?_, fun m other => ?_, ?_, ?_, fun m other => ?_, fun b a1 a2 => ?_⟩
  · have first : Keeps (fun c => c ∈ [Comp.sluCores, .sluBasins, .reg .CL_CNT_COMMITS]) s v := upd ▸ setCore_keeps (.refl s) n c (by unfold Within; decide)
    have tallied : Keeps (fun c => c ∈ [Comp.sluCores, .sluBasins, .reg .CL_CNT_COMMITS]) s (v.tallied d) :=
      putRecField_keeps (putRecField_keeps first _ _ _ _ (by unfold Within; decide)) _ _ _ _ (by unfold Within; decide)
    exact (addTo_keeps tallied _ _ _ (.inr (by decide))).changesOnly
  · rw [tileCounted_core, ← upd, core_setCore_self]
  · rw [tileCounted_core, ← upd, core_setCore, if_neg other]
  · rw [recField_congr (mem _), count, tiles]
  · rw [recField_congr (mem _), worst, status]
  · rw [mem, others m other, basin]
  · rw [mem, rest b a1 a2, basin]

theorem tileCommit_effect (n : Nat) (s : State) : completes (.tileCommit n) (Comp.step ++ Comp.sprint ++ Comp.dramSeen ++ [.dramWindows,
      .reg .CL_CNT_COMMITS, .reg .CL_CNT_STALE, .reg .SLUICE_CNT_STEPS]) s (fun t =>
    ((s.core n).done = [] → t = s) ∧
    ∀ d ds, (s.core n).done = d :: ds →
      let ok := (s.core n).sent d = true ∧ s.coreRuns n = true ∧ s.recLive d.record = true
      (¬ ok → t = s) ∧
      (ok → (t.core n).lastStatus = d.status ∧ (ds = [] → (s.core n).st = .committing → (t.core n).st = .idle) ∧
        (s.recField d.record 4 4 ≠ d.gen →
          changesOnly [.sluCores, .reg .CL_CNT_STALE] s t ∧ t.core n = (s.core n).committed d ds ∧ (∀ m, m ≠ n → t.core m = s.core m) ∧
          (d.record.cluster < 4 → t.reg .CL_CNT_STALE d.record.cluster 0 = counted (s.reg .CL_CNT_STALE d.record.cluster 0))) ∧
        (s.recField d.record 4 4 = d.gen → s.tilesDone d.record < 2 ^ 32 →
          (d.record.cluster < 4 → t.reg .CL_CNT_COMMITS d.record.cluster 0 = s.reg .CL_CNT_COMMITS d.record.cluster 0 + 1) ∧
          ((s.tilesDone d.record ≠ s.recField d.record 8 4 ∨ s.cmdRun d.ctx = none) →
            changesOnly [.sluCores, .sluBasins, .reg .CL_CNT_COMMITS] s t ∧ t.core n = (s.core n).committed d ds ∧
            (∀ m, m ≠ n → t.core m = s.core m) ∧ t.recField d.record 12 4 = s.tilesDone d.record ∧ t.recField d.record 22 2 = s.tileStatus d ∧
            (∀ m, m ≠ d.record.cluster → t.basin m = s.basin m) ∧
            ∀ b, (b < d.record.addr + 12 ∨ d.record.addr + 16 ≤ b) → (b < d.record.addr + 22 ∨ d.record.addr + 24 ≤ b) →
              Mem.read (t.basin d.record.cluster) b = Mem.read (s.basin d.record.cluster) b) ∧
          (∀ run, s.cmdRun d.ctx = some run → s.tilesDone d.record = s.recField d.record 8 4 →
            ((∃ y ∈ run.recs, y.shard ≠ d.record.shard ∧ y.complete = false) →
              t.cmdRun d.ctx = some { run with recs := run.completed d.record }) ∧
            (∀ st, (∀ y ∈ run.recs, y.shard ≠ d.record.shard → y.complete = true) → s.stepOf d.ctx = some st →
              t.cmdRun d.ctx = none ∧ (t.ctxRun d.ctx).committed = some (st.cmd, (s.tallied d).recStatus run.recs)))))) := by
  have k := execTileCommit_keeps (.refl s) n (Within.mem _)
  change KeepsOut _ s (exec (.tileCommit n) s) at k
  have within : ∀ c ∈ execTileCommitChanges, c ∈ Comp.step ++ Comp.sprint ++ Comp.dramSeen ++ [Comp.dramWindows,
      .reg .CL_CNT_COMMITS, .reg .CL_CNT_STALE, .reg .SLUICE_CNT_STEPS] := by decide +kernel
  cases done : (s.core n).done with
  | nil =>
    have ran : exec (.tileCommit n) s = .next s := by
      change execTileCommit n s = _
      unfold execTileCommit
      dsimp only
      rw [done]
    rw [ran] at k
    exact completes_of ran k within ⟨fun _ => rfl, fun d ds h => by cases h⟩
  | cons d ds =>
    obtain ⟨stays, goes⟩ := exec_tileCommit done
    by_cases ok : (s.core n).sent d = true ∧ s.coreRuns n = true ∧ s.recLive d.record = true
    · have ran := goes ok
      rw [ran] at k
      refine completes_of ran k within ⟨fun h => (by cases h), fun d' ds' h => ?_⟩
      cases h
      refine ⟨fun h => absurd ok h, fun _ => ?_⟩
      generalize core : (s.core n).committed d ds = c
      have last : c.lastStatus = d.status := by rw [← core]; rfl
      have idle : ds = [] → (s.core n).st = .committing → c.st = .idle := fun none com => by
        rw [← core]
        exact if_pos ⟨none, com⟩
      generalize upd : s.setCore n c = v
      have own : v.core n = c := by rw [← upd, core_setCore_self]
      have others : ∀ m, m ≠ n → v.core m = s.core m := fun m other => by rw [← upd, core_setCore, if_neg other]
      have basin : ∀ m, v.basin m = s.basin m := fun m => by rw [← upd]; rfl
      have field := fun o m => recField_congr (r := d.record) (basin d.record.cluster) o m
      have reg : ∀ r u i, v.reg r u i = s.reg r u i := fun r u i => by rw [← upd]; rfl
      have cmds : ∀ x, v.cmdRun x = s.cmdRun x := fun x => by rw [← upd]; rfl
      have tiles : v.tilesDone d.record = s.tilesDone d.record := by unfold State.tilesDone; rw [field]
      obtain ⟨stale, fresh⟩ := portCommit_spec v d
      rw [field, tiles, field, cmds] at fresh
      rw [field] at stale
      by_cases gen : s.recField d.record 4 4 = d.gen
      · obtain ⟨more, full⟩ := fresh gen
        by_cases notLast : s.tilesDone d.record ≠ s.recField d.record 8 4 ∨ s.cmdRun d.ctx = none
        · rw [more notLast]
          refine ⟨?_, fun none com => ?_, fun h => absurd gen h, fun _ few => ⟨fun small => ?_, fun _ => tileCounted_effect upd d few, fun run found eq => ?_⟩⟩
          · rw [tileCounted_core, own, last]
          · rw [tileCounted_core, own, idle none com]
          · rw [tileCounted_reg v d small, reg]
          · rcases notLast with ne | none
            · exact absurd eq ne
            · rw [found] at none; cases none
        · rw [not_or, not_not] at notLast
          obtain ⟨run, found⟩ := Option.ne_none_iff_exists'.1 notLast.2
          rw [full run found notLast.1]
          have cores := tileCounted_core v d
          obtain ⟨quiet, lasts⟩ := shardDone_cores (v.tileCounted d) d.ctx run d.record
          have kept := shardDone_keeps (.refl (v.tileCounted d)) d.ctx run d.record (Within.mem _)
          have mid := tileCounted_keeps v d
          refine ⟨?_, fun none com => ?_, fun h => absurd gen h, fun _ few => ⟨fun small => ?_, fun h => ?_, fun run' found' _ => ?_⟩⟩
          · rw [lasts, cores, own, last]
          · have st := idle none com
            rw [quiet n (by rw [cores, own, st]; nofun) (by rw [cores, own, st]; nofun), cores, own, st]
          · rw [kept.reg_eq (by decide +kernel) (by decide +kernel) (regOk_tiles small).1, tileCounted_reg v d small, reg]
          · rcases h with ne | none
            · exact absurd notLast.1 ne
            · rw [found] at none; cases none
          · obtain rfl : run = run' := Option.some.inj (found.symm.trans found')
            obtain ⟨part, whole⟩ := shardDone_spec (v.tileCounted d) d.ctx run d.record
            refine ⟨fun open_ => ?_, fun st all step => ?_⟩
            · rw [part open_, cmdRun_setCmdRun, if_pos rfl]
            · have step' : ((v.tileCounted d).setCmdRun d.ctx { run with recs := run.completed d.record }).stepOf d.ctx = some st := by
                refine Eq.trans ?_ step
                change (v.tileCounted d).stepOf d.ctx = _
                unfold State.stepOf
                rw [ctxRun_congr (mid.slu.ctxs.resolve_left (by decide)), ← upd]
                rfl
              have result := cmdCommit_committed step' ((v.tileCounted d).recStatus run.recs)
              rw [whole all]
              refine ⟨result.gone, result.status.trans ?_⟩
              have tally : (s.tallied d).basin = (v.tallied d).basin := by rw [← upd]; rfl
              have status := recStatus_congr (s := s.tallied d) (t := v.tileCounted d) (f := id)
                (fun y => recField_congr ((tileCounted_basin v d y.cluster).trans (by rw [tally])) _ _) run.recs
              rw [List.map_id] at status
              rw [status]
      · rw [stale gen]
        refine ⟨?_, fun none com => ?_, fun _ => ⟨?_, ?_, fun m other => ?_, fun small => ?_⟩, fun h => absurd h gen⟩
        · rw [core_congr (t := v.count .CL_CNT_STALE d.record.cluster) (s := v) (by simp), own, last]
        · rw [core_congr (t := v.count .CL_CNT_STALE d.record.cluster) (s := v) (by simp), own, idle none com]
        · have first : Keeps (fun c => c ∈ [Comp.sluCores, .reg .CL_CNT_STALE]) s v := upd ▸ setCore_keeps (.refl s) n c (by unfold Within; decide)
          exact (count_keeps first _ _ (.inr (by decide))).changesOnly
        · rw [core_congr (t := v.count .CL_CNT_STALE d.record.cluster) (s := v) (by simp), own]
        · rw [core_congr (t := v.count .CL_CNT_STALE d.record.cluster) (s := v) (by simp), others m other]
        · exact (count_reg _ _ _ (regOk_tiles small).2.1).trans (congrArg counted (reg _ _ _))
    · have ran := stays ok
      rw [ran] at k
      refine completes_of ran k within ⟨fun h => (by cases h), fun d' ds' h => ?_⟩
      cases h
      exact ⟨fun _ => rfl, fun on => absurd on ok⟩

end Sys2Proof.Machine
end

section
/-! SUPPORT. Tile claims (R122, R143, R151). -/

set_option Elab.async false

namespace Sys2Proof.Machine

variable {cs : Comp → Prop} {u : State}

/-! ## A claim that returns a tile -/

/-- A core that starts a tile (R118, R122). -/
def Core.startingTile (o : Core) (c : Cmd) (run : CmdRun) (gen : Nat) (x : WorkRec) (t : Nat) : Core :=
  let same := o.ctx = c.ctx && o.cmd = c.index && o.issue = run.issue && o.gen = gen
  { o with
    st := .running, ctx := c.ctx, cmd := c.index, issue := run.issue, gen := gen, record := x, tile := t
    tileNo := o.tileNo + 1, started := if same then o.started + 1 else 0
    fires := (c.fires run.bounds x.shard t).map (fun y => { pc := y.1, idx := y.2 : Fire })
    kept := if same then o.kept else [], loads := if same then o.loads else o.loads.map (fun l => { l with own := false })
    inits := if same then o.inits else [], scanning := if same then o.scanning else none
    layout := if same then o.layout else (0, 0), xlayout := if same then o.xlayout else (0, 0)
    status := 0, waiting := none, loaded := if same then o.loaded else none
    slots := if same then o.slots else [], pc := 0 }

theorem startTile_eq (s : State) (n : Nat) (c : Cmd) (run : CmdRun) (gen : Nat) (x : WorkRec) (t : Nat) :
    s.startTile n c run gen x t = s.setCore n ((s.core n).startingTile c run gen x t) := rfl

theorem startingTile_fields (o : Core) (c : Cmd) (run : CmdRun) (gen : Nat) (x : WorkRec) (t : Nat) :
    let k := o.startingTile c run gen x t
    k.st = .running ∧ k.ctx = c.ctx ∧ k.gen = gen ∧ k.record = x ∧ k.tile = t ∧ k.tileNo = o.tileNo + 1 ∧ k.status = 0 ∧
    k.fires = (c.fires run.bounds x.shard t).map (fun y => Fire.mk y.1 y.2) ∧ k.drains = o.drains :=
  ⟨rfl, rfl, rfl, rfl, rfl, rfl, rfl, rfl, rfl⟩

/-- The state in which a core has claimed the next tile of a record, before it runs it. -/
def State.claiming (s : State) (n : Nat) (c : Cmd) (run : CmdRun) (x : WorkRec) : State :=
  ((s.putRecField x 0 4 (s.recField x 0 4 + 1)).addTo .CL_CNT_CLAIMS (n / 8) 1).startTile n c run (s.recField x 4 4) x (s.recField x 0 4)

theorem claimed_spec (s : State) (n : Nat) (c : Cmd) (run : CmdRun) (x : WorkRec) :
    (s.tileReach n c run (s.recField x 0 4) = false → s.claimed n c run x = s) ∧
    (s.tileReach n c run (s.recField x 0 4) = true → s.claimed n c run x = (s.claiming n c run x).runTile n c (s.recField x 0 4)) := by
  unfold State.claimed
  exact ⟨fun off => if_neg (by simp [off]), fun on => if_pos on⟩

def claimingChanges : List Comp := [.sluCores, .sluBasins, .reg .CL_CNT_CLAIMS]

theorem claiming_keeps (s : State) (n : Nat) (c : Cmd) (run : CmdRun) (x : WorkRec) :
    Keeps (fun c => c ∈ claimingChanges) s (s.claiming n c run x) :=
  startTile_keeps (addTo_keeps (putRecField_keeps (.refl s) _ _ _ _ (by unfold Within; decide)) _ _ _ (.inr (by decide))) _ _ _ _ _ _
    (by unfold Within; decide)

theorem claiming_core (s : State) (n : Nat) (c : Cmd) (run : CmdRun) (x : WorkRec) (m : Nat) : (s.claiming n c run x).core m =
    if m = n then (s.core n).startingTile c run (s.recField x 4 4) x (s.recField x 0 4) else s.core m := by
  have same : ∀ m, ((s.putRecField x 0 4 (s.recField x 0 4 + 1)).addTo .CL_CNT_CLAIMS (n / 8) 1).core m = s.core m :=
    fun m => core_congr (by simp; rfl) m
  unfold State.claiming
  rw [startTile_eq, core_setCore, same, same]

theorem leVal_lt (bs : List Byte) : leVal bs < 256 ^ bs.length := by
  induction bs with
  | nil => exact Nat.one_pos
  | cons b bs ih =>
    unfold leVal
    rw [List.length_cons, Nat.pow_succ]
    omega

theorem recField_lt (s : State) (x : WorkRec) (o : Nat) : s.recField x o 4 < 2 ^ 32 := by
  have bound := leVal_lt (Mem.readList (s.basin x.cluster) (x.addr + o) 4)
  rwa [Mem.readList_length] at bound

theorem claiming_memory {s : State} {x : WorkRec} (n : Nat) (c : Cmd) (run : CmdRun) (few : s.recField x 0 4 + 1 < 2 ^ 32) :
    (s.claiming n c run x).recField x 0 4 = s.recField x 0 4 + 1 ∧
    (∀ b, (b < x.addr ∨ x.addr + 4 ≤ b) → Mem.read ((s.claiming n c run x).basin x.cluster) b = Mem.read (s.basin x.cluster) b) ∧
    ∀ m, m ≠ x.cluster → (s.claiming n c run x).basin m = s.basin m := by
  have mem : ∀ m, (s.claiming n c run x).basin m = (s.putRecField x 0 4 (s.recField x 0 4 + 1)).basin m := fun m => by
    unfold State.claiming
    rw [startTile_eq]
    generalize s.putRecField x 0 4 (s.recField x 0 4 + 1) = v
    exact basin_congr (s := v) (t := v.addTo .CL_CNT_CLAIMS (n / 8) 1) (by simp) m
  refine ⟨?_, fun b apart => ?_, fun m other => ?_⟩
  · rw [recField_congr (mem _), recField_put_self, Nat.mod_eq_of_lt (by omega)]
  · rw [mem, basin_putRecField, if_pos rfl, Mem.read_writeList_ne _ _ _ (by rw [leBytes_length]; omega)]
  · rw [mem, basin_putRecField, if_neg other]

theorem claiming_reg (s : State) {n : Nat} (hn : n < 32) (c : Cmd) (run : CmdRun) (x : WorkRec) :
    (s.claiming n c run x).reg .CL_CNT_CLAIMS (n / 8) 0 = s.reg .CL_CNT_CLAIMS (n / 8) 0 + 1 := by
  unfold State.claiming
  rw [startTile_eq]
  exact addTo_reg (s.putRecField x 0 4 (s.recField x 0 4 + 1)) .CL_CNT_CLAIMS (n / 8) 1 (regOk_tiles (by omega)).2.2

/-! ### A tile of a collective -/

theorem collectiveTile_ends (s : State) (n : Nat) (r : Run) (t : Nat) : ∃ rs,
    (∃ st, s.collectiveTile n r t = (s.reads (portCl (n / 8)) rs).2.coreFaulted n st) ∨
    s.collectiveTile n r t = (s.reads (portCl (n / 8)) rs).2.updCore n Core.finish ∨
    ∃ ovf nibs, s.collectiveTile n r t = ((s.reads (portCl (n / 8)) rs).2.handOff n 0 ovf false nibs).updCore n Core.finish := by
  refine ⟨s.collRanges r (s.scratchBase r.cmd.ctx) t (r.cmd.tileIdx r.run.bounds 0 t), ?_⟩
  unfold State.collectiveTile
  dsimp only
  generalize s.reads (portCl (n / 8)) (s.collRanges r (s.scratchBase r.cmd.ctx) t (r.cmd.tileIdx r.run.bounds 0 t)) = read
  obtain ⟨bad, v⟩ := read
  generalize s.collTile r (s.scratchBase r.cmd.ctx) t (r.cmd.tileIdx r.run.bounds 0 t) = tile
  cases bad with
  | some st => exact .inl ⟨st, rfl⟩
  | none =>
    cases r.cmd.opnd 8 with
    | none => exact .inr (.inl rfl)
    | some o =>
      dsimp only
      generalize (if r.cmd.collectiveDrain = true then s.drainNibs r o (r.cmd.tileIdx r.run.bounds 0 t) tile
        else (s.spillNibs r o (r.cmd.tileIdx r.run.bounds 0 t) tile, false)) = d
      cases s.writeStatus d.1 with
      | some st => exact .inl ⟨st, rfl⟩
      | none => exact .inr (.inr ⟨_, _, rfl⟩)

theorem finish_fields (c : Core) : c.finish.st = .committing ∧ c.finish.ctx = c.ctx ∧ c.finish.gen = c.gen ∧ c.finish.record = c.record ∧
    c.finish.tile = c.tile ∧ c.finish.tileNo = c.tileNo ∧ c.finish.drains = c.drains := ⟨rfl, rfl, rfl, rfl, rfl, rfl, rfl⟩

/-- Two cores that are on the same tile. -/
def Core.onTile (c d : Core) : Prop := d.ctx = c.ctx ∧ d.gen = c.gen ∧ d.record = c.record ∧ d.tile = c.tile ∧ d.tileNo = c.tileNo

/-- What has become of a tile of a collective: its command has faulted, or the core is at its end and has handed over the sum. -/
theorem collectiveTile_spec (s : State) (n : Nat) (r : Run) (k : Nat) : (s.core n).onTile ((s.collectiveTile n r k).core n) ∧
    ((s.collectiveTile n r k).cmdRun (s.core n).ctx = none ∨
      (∀ m, (s.collectiveTile n r k).basin m = s.basin m) ∧ ((s.collectiveTile n r k).core n).st = .committing ∧
      (((s.collectiveTile n r k).core n).drains = (s.core n).drains ∨ ∃ nibs, ((s.collectiveTile n r k).core n).drains =
        (s.core n).drains ++ [DrainRec.mk (s.core n).ctx (s.core n).tileNo 0 nibs])) := by
  obtain ⟨rs, ends⟩ := collectiveTile_ends s n r k
  have core := reads_core s (portCl (n / 8)) rs n
  have basin := basin_congr (reads_alike s (portCl (n / 8)) rs).basins
  generalize (s.reads (portCl (n / 8)) rs).2 = v at *
  rcases ends with ⟨st, eq⟩ | eq | ⟨ovf, nibs, eq⟩
  · rw [eq, coreFaulted_core, ← core]
    have gone := (coreFaulted_spec v n st).1
    obtain ⟨-, -, -, -, -, -, gone, -⟩ := gone
    exact ⟨⟨rfl, rfl, rfl, rfl, rfl⟩, .inl gone⟩
  · rw [eq, core_updCore, if_pos rfl, core]
    exact ⟨⟨rfl, rfl, rfl, rfl, rfl⟩, .inr ⟨basin, rfl, .inl rfl⟩⟩
  · have own : (v.handOff n 0 ovf false nibs).core n = (s.core n).handed 0 ovf false nibs := by
      rw [handOff_eq, core_updCore, if_pos rfl, flagCounts_core, core]
    have kept := handOff_keeps (.refl v) n 0 ovf false nibs (Within.mem _)
    rw [eq, core_updCore, if_pos rfl, own]
    refine ⟨⟨rfl, rfl, rfl, rfl, rfl⟩, .inr ⟨fun m => ?_, rfl, .inr ⟨nibs, rfl⟩⟩⟩
    exact (basin_congr (kept.slu.basins.resolve_left (by decide)) m).trans (basin m)

/-! ### What a claim leaves -/

theorem coreRun_claiming {s w : State} {n ctx : Nat} {run : CmdRun} {c : Cmd} (kept : Keeps (fun c => c ∈ claimingChanges) s w)
    (own : (w.core n).ctx = ctx) (found : s.cmdRun ctx = some run) (runs : s.running ctx = some c) (step : s.stepOf ctx ≠ none)
    (entry : s.ctxEntry ctx ≠ none) : ∃ r, w.coreRun n = some r := by
  have lists := SameImage.of_keeps kept
  have cmd := cmdRun_congr (kept.slu.cmds.resolve_left (by decide)) ctx
  have run' := ctxRun_congr (kept.slu.ctxs.resolve_left (by decide)) ctx
  have step' : w.stepOf ctx = s.stepOf ctx := congrArg CtxRun.step run'
  obtain ⟨st, step⟩ := Option.ne_none_iff_exists'.1 step
  obtain ⟨e, entry⟩ := Option.ne_none_iff_exists'.1 entry
  unfold State.coreRun
  rw [own]
  dsimp only
  rw [lists.running run' cmd, cmd, step', lists.ctxEntry, runs, found, step, entry]
  exact ⟨_, rfl⟩

/-- The outcomes of a tile that has been claimed. -/
theorem runTile_spec (s : State) (n : Nat) (c : Cmd) (k : Nat) :
    (c.kind ≠ 2 → ((s.core n).fires = [] → s.runTile n c k = s.updCore n Core.finish) ∧ ((s.core n).fires ≠ [] → s.runTile n c k = s)) ∧
    (c.kind = 2 → (s.coreRun n = none → s.runTile n c k = s) ∧ ∀ r, s.coreRun n = some r → s.runTile n c k = s.collectiveTile n r k) := by
  refine ⟨fun plain => ⟨fun empty => ?_, fun some => ?_⟩, fun coll => ⟨fun none => ?_, fun r run => ?_⟩⟩
  · unfold State.runTile
    rw [if_neg plain, if_pos empty]
  · unfold State.runTile
    rw [if_neg plain, if_neg some]
  · unfold State.runTile
    rw [if_pos coll, none]
  · unfold State.runTile
    rw [if_pos coll, run]

/-- A core on its tile, whatever the tile has come to. -/
theorem runTile_onTile (s : State) (n : Nat) (c : Cmd) (k : Nat) : (s.core n).onTile ((s.runTile n c k).core n) := by
  obtain ⟨plain, coll⟩ := runTile_spec s n c k
  by_cases kind : c.kind = 2
  · obtain ⟨none, some⟩ := coll kind
    cases run : s.coreRun n with
    | none => rw [none run]; exact ⟨rfl, rfl, rfl, rfl, rfl⟩
    | some r => rw [some r run]; exact (collectiveTile_spec s n r k).1
  · obtain ⟨empty, some⟩ := plain kind
    by_cases fires : (s.core n).fires = []
    · rw [empty fires, core_updCore, if_pos rfl]
      exact ⟨rfl, rfl, rfl, rfl, rfl⟩
    · rw [some fires]
      exact ⟨rfl, rfl, rfl, rfl, rfl⟩

theorem claimed_effect {s : State} {n ctx : Nat} {run : CmdRun} {c : Cmd} {x : WorkRec} (found : s.cmdRun ctx = some run)
    (runs : s.running ctx = some c) (open_ : s.recOpen x = true) :
    let tile := s.recField x 0 4
    let fires := (c.fires run.bounds x.shard tile).map (fun y => Fire.mk y.1 y.2)
    let t := (s.claiming n c run x).runTile n c tile
    (t.core n).tile = tile ∧ (t.core n).ctx = c.ctx ∧ (t.core n).gen = s.recField x 4 4 ∧
    (t.core n).record = x ∧ (t.core n).tileNo = (s.core n).tileNo + 1 ∧
    (n < 32 → t.reg .CL_CNT_CLAIMS (n / 8) 0 = s.reg .CL_CNT_CLAIMS (n / 8) 0 + 1) ∧
    (c.kind ≠ 2 → t.recField x 0 4 = tile + 1 ∧
      (∀ b, (b < x.addr ∨ x.addr + 4 ≤ b) → Mem.read (t.basin x.cluster) b = Mem.read (s.basin x.cluster) b) ∧
      (∀ m, m ≠ x.cluster → t.basin m = s.basin m) ∧ (∀ m, m ≠ n → t.core m = s.core m) ∧
      (t.core n).status = 0 ∧ (t.core n).fires = fires ∧
      (t.core n).st = if fires = [] then .committing else .running) ∧
    (c.kind = 2 → c.ctx = ctx → s.stepOf ctx ≠ none → s.ctxEntry ctx ≠ none →
      t.cmdRun ctx = none ∨ t.recField x 0 4 = tile + 1 ∧ (t.core n).st = .committing ∧
        ((t.core n).drains = (s.core n).drains ∨ ∃ nibs, (t.core n).drains =
          (s.core n).drains ++ [DrainRec.mk ctx ((s.core n).tileNo + 1) 0 nibs])) := by
  have few : s.recField x 0 4 + 1 < 2 ^ 32 := by
    have bound := recField_lt s x 8
    unfold State.recOpen at open_
    rw [decide_eq_true_eq] at open_
    omega
  have core := claiming_core s n c run x
  have kept := claiming_keeps s n c run x
  obtain ⟨next, rest, clusters⟩ := claiming_memory n c run few
  have claims := fun hn => claiming_reg s (n := n) hn c run x
  dsimp only
  generalize s.claiming n c run x = w at *
  have own := (core n).trans (if_pos rfl)
  obtain ⟨st, ctx', gen, record, tile, tileNo, status, fires, drains⟩ := startingTile_fields (s.core n) c run (s.recField x 4 4) x (s.recField x 0 4)
  rw [← own] at st ctx' gen record tile tileNo status fires drains
  obtain ⟨onCtx, onGen, onRecord, onTile, onNo⟩ := runTile_onTile w n c (s.recField x 0 4)
  have after := runTile_keeps (.refl w) n c (s.recField x 0 4) (Within.mem _)
  obtain ⟨plain, coll⟩ := runTile_spec w n c (s.recField x 0 4)
  refine ⟨onTile.trans tile, onCtx.trans ctx', onGen.trans gen, onRecord.trans record, onNo.trans tileNo, fun hn => ?_, fun kind => ?_,
    fun kind same step entry => ?_⟩
  · rw [after.reg_eq (by decide +kernel) (by decide +kernel) (regOk_tiles (by omega)).2.2, claims hn]
  · obtain ⟨empty, some⟩ := plain kind
    rw [← fires]
    by_cases none : (w.core n).fires = []
    · rw [empty none, if_pos none]
      have done := core_updCore w n n Core.finish
      rw [if_pos rfl] at done
      refine ⟨next, rest, clusters, fun m other => ?_, ?_, ?_, ?_⟩
      · rw [core_updCore, if_neg other, core, if_neg other]
      · rw [done]; exact status
      · rw [done]; exact none.symm
      · rw [done]; rfl
    · rw [some none, if_neg none]
      exact ⟨next, rest, clusters, fun m other => (core m).trans (if_neg other), status, rfl, st⟩
  · obtain ⟨r, run'⟩ := coreRun_claiming kept (ctx'.trans same) found runs step entry
    rw [(coll kind).2 r run']
    obtain ⟨-, ends⟩ := collectiveTile_spec w n r (s.recField x 0 4)
    rw [ctx'.trans same, tileNo, drains] at ends
    exact ends.imp id fun ⟨basin, done, handed⟩ => ⟨(recField_congr (basin _) _ _).trans next, done, handed⟩

/-! ## A claim that returns none -/

theorem claimNone_effect (s : State) (n ctx : Nat) (run : CmdRun) (recs : List WorkRec) :
    (s.claimNone n ctx run recs).cmdRun ctx = some { run with spent := run.spent ++ [n] } ∧ (s.claimNone n ctx run recs).core n = s.core n ∧
    ∀ x xs, recs = x :: xs → (s.claimNone n ctx run recs).recField x 0 4 =
      if s.recField x 0 4 = 0xFFFFFFFF then 0xFFFFFFFF else s.recField x 0 4 + 1 := by
  have told : (s.setCmdRun ctx { run with spent := run.spent ++ [n] }).cmdRun ctx = some { run with spent := run.spent ++ [n] } := by
    rw [cmdRun_setCmdRun, if_pos rfl]
  cases recs with
  | nil => exact ⟨told, rfl, fun x xs h => by cases h⟩
  | cons x xs =>
    by_cases full : s.recField x 0 4 = 0xFFFFFFFF
    · have eq : s.claimNone n ctx run (x :: xs) = s.setCmdRun ctx { run with spent := run.spent ++ [n] } := if_pos full
      rw [eq]
      refine ⟨told, rfl, fun y ys h => ?_⟩
      cases h
      rw [if_pos full]
      exact full
    · have eq : s.claimNone n ctx run (x :: xs) =
          (s.setCmdRun ctx { run with spent := run.spent ++ [n] }).putRecField x 0 4 (s.recField x 0 4 + 1) := if_neg full
      rw [eq]
      have field : ∀ o, (s.setCmdRun ctx { run with spent := run.spent ++ [n] }).recField x o 4 = s.recField x o 4 := fun _ => rfl
      have core : (s.setCmdRun ctx { run with spent := run.spent ++ [n] }).core n = s.core n := rfl
      generalize s.setCmdRun ctx { run with spent := run.spent ++ [n] } = v at *
      refine ⟨told, core, fun y ys h => ?_⟩
      cases h
      have bound := recField_lt s x 0
      rw [if_neg full, recField_put_self, Nat.mod_eq_of_lt (by omega)]

/-! ## TILE_CLAIM -/

theorem exec_tileClaim {n ctx : Nat} {s : State} (holds : s.holder (n / 8) = some ctx) :
    ((s.cmdRun ctx = none ∨ s.running ctx = none) → exec (.tileClaim n) s = .next s) ∧
    ∀ run c, s.cmdRun ctx = some run → s.running ctx = some c →
      let recs := run.recsFor (c.kind == 2) (n / 8)
      let may := s.mayClaim n = true ∧ n / 8 ∉ s.slu.heldIdle ∧ run.killed = false ∧ n ∉ run.spent ∧
        ∀ x ∈ recs, s.recLive x = true
      (¬ may → exec (.tileClaim n) s = .next s) ∧
      (may → (∀ x, recs.find? s.recOpen = some x → exec (.tileClaim n) s = .next (s.claimed n c run x)) ∧
        (recs.find? s.recOpen = none → exec (.tileClaim n) s = .next (s.claimNone n ctx run recs))) := by
  refine ⟨fun idle => ?_, fun run c found runs => ?_⟩
  · change execTileClaim n s = _
    unfold execTileClaim
    rw [holds]
    dsimp only
    rcases idle with none | none
    · rw [none]
    · rw [none]
      cases s.cmdRun ctx <;> rfl
  · dsimp only
    generalize recs : run.recsFor (c.kind == 2) (n / 8) = rs
    have eq : exec (.tileClaim n) s = .next (s.when (s.mayClaim n && !run.killed && !run.spent.contains n && !s.slu.heldIdle.contains (n / 8) &&
        rs.all s.recLive) fun s => match rs.find? s.recOpen with
          | some x => s.claimed n c run x
          | none => s.claimNone n ctx run rs) := by
      change execTileClaim n s = _
      unfold execTileClaim
      rw [holds]
      dsimp only
      rw [found, runs]
      dsimp only
      rw [recs] <;> rfl
    have test : (s.mayClaim n && !run.killed && !run.spent.contains n && !s.slu.heldIdle.contains (n / 8) && rs.all s.recLive) = true ↔
        s.mayClaim n = true ∧ n / 8 ∉ s.slu.heldIdle ∧ run.killed = false ∧ n ∉ run.spent ∧ ∀ x ∈ rs, s.recLive x = true := by
      simp only [Bool.and_eq_true, Bool.not_eq_true', List.all_eq_true, List.contains_eq_mem, decide_eq_false_iff_not]
      tauto
    rw [eq]
    refine ⟨fun off => congrArg _ (when_neg s (mt test.1 off) _), fun on => ?_⟩
    rw [when_eq s (test.2 on)]
    exact ⟨fun x first => by rw [first], fun none => by rw [none]⟩

/-- Settles O45: claims by the tile that they take, commits by their record. -/
theorem tileClaimsAndCommits : Obligations.TileClaimsAndCommits := by
  refine ⟨fun n s => ?_, fun n s => tileCommit_effect n s⟩
  have k := execTileClaim_keeps (.refl s) n (Within.mem _)
  change KeepsOut _ s (exec (.tileClaim n) s) at k
  have within : ∀ c ∈ execTileClaimChanges, c ∈ Comp.coreFault ++ Comp.dramSeen ++ [Comp.reg .CL_CNT_CLAIMS, .reg .TC_CNT_CLAMP,
      .reg .TC_CNT_SAT] := by decide +kernel
  cases holds : s.holder (n / 8) with
  | none =>
    have ran : exec (.tileClaim n) s = .next s := by
      change execTileClaim n s = _
      unfold execTileClaim
      rw [holds]
    rw [ran] at k
    exact completes_of ran k within ⟨fun _ => rfl, fun ctx h => by cases h⟩
  | some ctx =>
    obtain ⟨idle, runs⟩ := exec_tileClaim holds
    by_cases none : s.cmdRun ctx = none ∨ s.running ctx = none
    · have ran := idle none
      rw [ran] at k
      refine completes_of ran k within ⟨fun h => (by cases h), fun ctx' h => ?_⟩
      cases h
      refine ⟨fun _ => rfl, fun run c found running => ?_⟩
      rcases none with none | none
      · rw [found] at none; cases none
      · rw [running] at none; cases none
    · rw [not_or] at none
      obtain ⟨run, found⟩ := Option.ne_none_iff_exists'.1 none.1
      obtain ⟨c, running⟩ := Option.ne_none_iff_exists'.1 none.2
      obtain ⟨stays, may⟩ := runs run c found running
      by_cases on : s.mayClaim n = true ∧ n / 8 ∉ s.slu.heldIdle ∧ run.killed = false ∧ n ∉ run.spent ∧
          ∀ x ∈ run.recsFor (c.kind == 2) (n / 8), s.recLive x = true
      · obtain ⟨takes, misses⟩ := may on
        cases first : (run.recsFor (c.kind == 2) (n / 8)).find? s.recOpen with
        | some x =>
          have ran := takes x first
          rw [ran] at k
          refine completes_of ran k within ⟨fun h => (by cases h), fun ctx' h => ?_⟩
          cases h
          refine ⟨fun h => absurd h (not_or.2 none), fun run' c' found' running' => ?_⟩
          obtain rfl := Option.some.inj (found.symm.trans found')
          obtain rfl := Option.some.inj (running.symm.trans running')
          refine ⟨fun h => absurd on h, fun _ => ⟨fun y h => ?_, fun h => ?_⟩⟩
          · obtain rfl := Option.some.inj (first.symm.trans h)
            obtain ⟨waits, reads⟩ := claimed_spec s n c run x
            refine ⟨waits, fun reach => ?_⟩
            rw [reads reach]
            exact claimed_effect found running (List.find?_some first)
          · rw [first] at h; cases h
        | none =>
          have ran := misses first
          rw [ran] at k
          refine completes_of ran k within ⟨fun h => (by cases h), fun ctx' h => ?_⟩
          cases h
          refine ⟨fun h => absurd h (not_or.2 none), fun run' c' found' running' => ?_⟩
          obtain rfl := Option.some.inj (found.symm.trans found')
          obtain rfl := Option.some.inj (running.symm.trans running')
          refine ⟨fun h => absurd on h, fun _ => ⟨fun y h => ?_, fun _ => claimNone_effect s n ctx run _⟩⟩
          rw [first] at h
          cases h
      · have ran := stays on
        rw [ran] at k
        refine completes_of ran k within ⟨fun h => (by cases h), fun ctx' h => ?_⟩
        cases h
        refine ⟨fun h => absurd h (not_or.2 none), fun run' c' found' running' => ?_⟩
        obtain rfl := Option.some.inj (found.symm.trans found')
        obtain rfl := Option.some.inj (running.symm.trans running')
        exact ⟨fun _ => rfl, fun h => absurd h on⟩

end Sys2Proof.Machine
end

section
/-! SUPPORT. Residency of contexts (R99, R290 to R297). -/

set_option Elab.async false

namespace Sys2Proof.Machine

variable {cs : Comp → Prop} {u : State}

theorem mem_insertBy {α : Type} (le : α → α → Bool) (x : α) (xs : List α) (y : α) : y ∈ insertBy le x xs ↔ y = x ∨ y ∈ xs := by
  induction xs with
  | nil => simp [insertBy]
  | cons z zs ih =>
    unfold insertBy
    split
    · simp
    · simp only [List.mem_cons, ih]
      tauto

theorem mem_sortBy {α : Type} (le : α → α → Bool) (xs : List α) (y : α) : y ∈ sortBy le xs ↔ y ∈ xs := by
  induction xs with
  | nil => rfl
  | cons x xs ih =>
    unfold sortBy
    rw [mem_insertBy, ih, List.mem_cons]

/-! ## Room on a cluster -/

theorem lowestFree_spec {lim len : Nat} {taken : List (Nat × Nat)} {ok : Nat → Bool} {a : Nat} (h : lowestFree lim len taken ok = some a) :
    a + len ≤ lim ∧ (∀ i < len, ok (a + i) = true) ∧ ∀ t ∈ taken, a + len ≤ t.1 ∨ t.1 + t.2 ≤ a ∨ t.2 = 0 ∨ len = 0 := by
  have found := List.find?_some h
  simp only [Bool.and_eq_true, decide_eq_true_eq, List.all_eq_true, List.mem_range, Bool.or_eq_true] at found
  obtain ⟨⟨fits, allowed⟩, apart⟩ := found
  refine ⟨fits, allowed, fun t mem => ?_⟩
  have := apart t mem
  tauto

theorem freeSlots_spec {k : Nat} {taken : List (List Nat)} {l : List Nat} (h : freeSlots k taken = some l) :
    l.length = k ∧ l.Nodup ∧ (∀ i ∈ l, i < 8) ∧ ∀ t ∈ taken, ∀ i ∈ l, i ∉ t := by
  unfold freeSlots at h
  dsimp only at h
  split at h
  · next enough =>
    cases h
    have sub := List.take_subset k ((List.range 8).filter fun i => taken.all fun t => !t.contains i)
    refine ⟨by rw [List.length_take]; omega, (List.nodup_range.filter _).take, fun i mem => ?_, fun t inside i mem => ?_⟩
    · exact List.mem_range.1 (List.mem_filter.1 (sub mem)).1
    · have free := (List.mem_filter.1 (sub mem)).2
      simp only [List.all_eq_true, Bool.not_eq_true', List.contains_eq_mem, decide_eq_false_iff_not] at free
      exact free t inside
  · cases h

theorem mem_taken {α : Type} {s : State} {n : Nat} {get : CtxRun → SMap α} {mv : MoveRun → α} {y : CtxEntry} (mem : y ∈ s.ldr.image.ctxs)
    {v : α} (has : SMap.find? (get (s.ctxRun y.id)) n = some v) : (y, v) ∈ s.taken n get mv := by
  unfold State.taken
  refine List.mem_filterMap.2 ⟨y, mem, ?_⟩
  dsimp only
  rw [has]

/-- What room for a context on a cluster is (R99, R290, R291). -/
theorem roomFor_spec {s : State} {e : CtxEntry} {n p l : Nat} {b : List Nat} (h : s.roomFor e n = some (p, b, l)) :
    p + e.units ≤ 256 ∧ l + e.lines ≤ 8192 ∧ b.length = e.accTiles ∧ b.Nodup ∧ (∀ i ∈ b, i < 8) ∧
    (∀ i < e.units, s.wayOk e n ((p + i) / 16) = true) ∧ ∀ y ∈ s.ldr.image.ctxs,
      (∀ v, SMap.find? (s.ctxRun y.id).place n = some v → y.units ≠ 0 → e.units ≠ 0 → p + e.units ≤ v ∨ v + y.units ≤ p) ∧
      (∀ v, SMap.find? (s.ctxRun y.id).slots n = some v → ∀ i ∈ b, i ∉ v) ∧
      ∀ v, SMap.find? (s.ctxRun y.id).line0 n = some v → y.lines ≠ 0 → e.lines ≠ 0 → l + e.lines ≤ v ∨ v + y.lines ≤ l := by
  unfold State.roomFor at h
  dsimp only at h
  split at h
  · cases h
  · split at h
    · next p' b' l' place slots lines =>
      cases h
      obtain ⟨fits, ways, apart⟩ := lowestFree_spec place
      obtain ⟨count, nodup, small, free⟩ := freeSlots_spec slots
      obtain ⟨fitsL, -, apartL⟩ := lowestFree_spec lines
      refine ⟨fits, fitsL, count, nodup, small, ways, fun y mem => ⟨fun v has some own => ?_, fun v has => ?_, fun v has some own => ?_⟩⟩
      · have := apart _ (List.mem_map_of_mem (mem_taken mem has))
        exact this.imp_right fun h => h.resolve_right (not_or.2 ⟨some, own⟩)
      · exact free v (List.mem_map.2 ⟨(y, v), mem_taken mem has, rfl⟩)
      · have := apartL _ (List.mem_map_of_mem (mem_taken mem has))
        exact this.imp_right fun h => h.resolve_right (not_or.2 ⟨some, own⟩)
    · cases h

theorem roomFor_congr {s t : State} (dev : t.dev = s.dev) (ldr : t.ldr = s.ldr) (ctxs : t.slu.ctxs = s.slu.ctxs) (e : CtxEntry) (n : Nat) :
    t.roomFor e n = s.roomFor e n := by
  unfold State.roomFor State.taken State.wayOk State.wayOwner
  simp only [dev, ldr, ctxRun_congr ctxs]

/-! ## BRING_IN -/

theorem ctxEntry_id {s : State} {c : Nat} {e : CtxEntry} (h : s.ctxEntry c = some e) : e.id = c := by
  have := List.find?_some h
  simpa using this

theorem bringIn_effect (ctx cluster : Nat) (s : State) : completes (.bringIn ctx cluster) [.sluCtxs] s (fun t =>
    (s.ctxEntry ctx = none → t = s) ∧
    ∀ e, s.ctxEntry ctx = some e →
      ((s.waitsFor e cluster = false ∨ s.weir.coolant ≠ .none ∨ s.roomFor e cluster = none) → t = s) ∧
      ∀ u b l, s.waitsFor e cluster = true → s.weir.coolant = .none → s.roomFor e cluster = some (u, b, l) →
        t.ctxRun ctx = { s.ctxRun ctx with moving := some (MoveRun.mk cluster none u b l) } ∧
        (∀ c, c ≠ ctx → t.ctxRun c = s.ctxRun c) ∧ u + e.units ≤ 256 ∧ l + e.lines ≤ 8192 ∧
        b.length = e.accTiles ∧ b.Nodup ∧ (∀ i ∈ b, i < 8) ∧
        (∀ i < e.units, s.wayOk e cluster ((u + i) / 16) = true) ∧
        ∀ y ∈ s.ldr.image.ctxs,
          (∀ v, SMap.find? (s.ctxRun y.id).place cluster = some v → y.units ≠ 0 → e.units ≠ 0 →
            u + e.units ≤ v ∨ v + y.units ≤ u) ∧
          (∀ v, SMap.find? (s.ctxRun y.id).slots cluster = some v → ∀ i ∈ b, i ∉ v) ∧
          ∀ v, SMap.find? (s.ctxRun y.id).line0 cluster = some v → y.lines ≠ 0 → e.lines ≠ 0 →
            l + e.lines ≤ v ∨ v + y.lines ≤ l) := by
  have k := execBringIn_keeps (.refl s) ctx cluster (Within.mem _)
  change KeepsOut _ s (exec (.bringIn ctx cluster) s) at k
  cases entry : s.ctxEntry ctx with
  | none =>
    have ran : exec (.bringIn ctx cluster) s = .next s := by
      change execBringIn ctx cluster s = _
      unfold execBringIn
      rw [entry]
    rw [ran] at k
    exact completes_of ran k (by decide) ⟨fun _ => rfl, fun e h => by cases h⟩
  | some e =>
    have eq : exec (.bringIn ctx cluster) s = .next (s.when (s.waitsFor e cluster && !s.coolantHeld) fun s =>
        match s.roomFor e cluster with
        | some (a, b, c) => s.updCtxRun ctx fun x => { x with
            moving := some { cluster := cluster, out := none, place := a, slots := b, line := c } }
        | none => s) := by
      change execBringIn ctx cluster s = _
      unfold execBringIn
      rw [entry] <;> rfl
    have test : (s.waitsFor e cluster && !s.coolantHeld) = true ↔ s.waitsFor e cluster = true ∧ s.weir.coolant = .none := by
      unfold State.coolantHeld
      simp
    by_cases on : s.waitsFor e cluster = true ∧ s.weir.coolant = .none
    · rw [when_eq s (test.2 on)] at eq
      cases room : s.roomFor e cluster with
      | none =>
        rw [room] at eq
        rw [eq] at k
        refine completes_of eq k (by decide) ⟨fun h => (by cases h), fun e' h => ?_⟩
        cases h
        exact ⟨fun _ => rfl, fun p b l _ _ h => by rw [room] at h; cases h⟩
      | some found =>
        obtain ⟨p, b, l⟩ := found
        rw [room] at eq
        rw [eq] at k
        refine completes_of eq k (by decide) ⟨fun h => (by cases h), fun e' h => ?_⟩
        cases h
        refine ⟨fun off => ?_, fun p' b' l' _ _ h => ?_⟩
        · rcases off with off | off | off
          · rw [on.1] at off; cases off
          · exact absurd on.2 off
          · rw [room] at off; cases off
        · obtain ⟨rfl, rfl, rfl⟩ : p = p' ∧ b = b' ∧ l = l' := by simpa [room] using h
          refine ⟨?_, fun c other => ?_, roomFor_spec room⟩
          · rw [ctxRun_updCtxRun, if_pos rfl]
          · rw [ctxRun_updCtxRun, if_neg other]
    · rw [when_neg s (mt test.1 on)] at eq
      rw [eq] at k
      refine completes_of eq k (by decide) ⟨fun h => (by cases h), fun e' h => ?_⟩
      cases h
      exact ⟨fun _ => rfl, fun p b l waits cool => absurd ⟨waits, cool⟩ on⟩

/-! ## The share of a context -/

/-- Whether a read faults depends on the part and on what is poisoned. -/
theorem reads_none_congr {s t : State} (dev : t.dev = s.dev) (poison : t.dram.poison = s.dram.poison) (port : Nat) (rs : List (Nat × Nat)) :
    (t.reads port rs).1 = none ↔ (s.reads port rs).1 = none := by
  have block : ∀ (v : State) b, v.blockPoison port b = none ↔ v.poisoned b = false := by
    intro v b
    unfold State.blockPoison
    cases v.poisoned b with
    | false => simp
    | true =>
      simp only [Bool.not_true, Bool.false_eq_true, ↓reduceIte, Bool.true_eq_false, iff_false]
      split
      · split
        · nofun
        · nofun
      · nofun
  have blocks : ∀ k b, t.poisonIn port b k = none ↔ s.poisonIn port b k = none := by
    intro k
    induction k with
    | zero => intro b; rfl
    | succ k ih =>
      intro b
      unfold State.poisonIn
      have same := (block t b).trans (Iff.trans (by rw [poisoned_congr poison]) (block s b).symm)
      cases t' : t.blockPoison port b with
      | none =>
        rw [same.1 t']
        exact ih (b + 1)
      | some x =>
        cases s' : s.blockPoison port b with
        | none => rw [same.2 s'] at t'; cases t'
        | some y => exact iff_of_false (fun h => by cases h) (fun h => by cases h)
  have mem : ∀ a n, t.memPoison port a n = none ↔ s.memPoison port a n = none := by
    intro a n
    unfold State.memPoison State.readPoison
    rw [dev]
    split
    · exact blocks _ _
    · exact Iff.rfl
  unfold State.reads
  rw [dev]
  split
  · exact Iff.rfl
  · dsimp only
    rw [List.findSome?_eq_none_iff, List.findSome?_eq_none_iff]
    exact forall_congr' fun x => forall_congr' fun _ => mem x.1 x.2

/-- What a block of a saved share is read as. -/
def State.savedByte (s : State) (ctx n i : Nat) : Byte :=
  if (s.reads portSluice [(saveAddr s.ldr.image.saveRegions (s.saveOffset ctx n + 64 * (i / 64)), 64)]).1 = none then
    s.dramByte (saveAddr s.ldr.image.saveRegions (s.saveOffset ctx n + 64 * (i / 64)) + i % 64)
  else 0#8

/-- Whether block `k` of a saved share can be read. -/
def State.savedOk (s : State) (ctx n k : Nat) : Prop :=
  (s.reads portSluice [(saveAddr s.ldr.image.saveRegions (s.saveOffset ctx n + 64 * k), 64)]).1 = none

/-- What the restoring of a share keeps, and what its basin then holds. -/
structure Restored (s t : State) (ctx n a k : Nat) : Prop where
  dev : t.dev = s.dev
  poison : t.dram.poison = s.dram.poison
  bytes : t.dram.bytes = s.dram.bytes
  cmds : t.slu.cmds = s.slu.cmds
  others : ∀ c, c ≠ ctx → t.ctxRun c = s.ctxRun c
  own : t.ctxRun ctx = { s.ctxRun ctx with fault := (t.ctxRun ctx).fault }
  good : (∀ i < k, s.savedOk ctx n i) → (t.ctxRun ctx).fault = (s.ctxRun ctx).fault
  bad : (∃ i < k, ¬ s.savedOk ctx n i) → (t.ctxRun ctx).fault ≠ none
  data : ∀ i < 64 * k, Mem.read (t.basin n) (a + i) = s.savedByte ctx n i

/-- One more block of a share. -/
def State.restoreBlock (s v : State) (ctx n a k : Nat) : State :=
  let src := saveAddr s.ldr.image.saveRegions (s.saveOffset ctx n + 64 * k)
  let r := v.reads portSluice [(src, 64)]
  match r.1 with
  | some st => (r.2.setBasin n (Mem.writeList (r.2.basin n) (a + 64 * k) (List.replicate 64 0x00#8))).updCtxRun ctx
      (fun x => { x with fault := some st })
  | none => r.2.setBasin n (Mem.writeList (r.2.basin n) (a + 64 * k) (Mem.readList v.dram.bytes src 64))

theorem restoreBlocks_succ (s : State) (ctx n a k : Nat) :
    s.restoreBlocks ctx n a (k + 1) = s.restoreBlock (s.restoreBlocks ctx n a k) ctx n a k := rfl

theorem read_block {m : Mem} {a k i : Nat} {bs : List Byte} {f : Nat → Byte} (len : bs.length = 64)
    (before : ∀ i < 64 * k, Mem.read m (a + i) = f i) (block : ∀ j (h : j < 64), bs[j] = f (64 * k + j)) (h : i < 64 * (k + 1)) :
    Mem.read (Mem.writeList m (a + 64 * k) bs) (a + i) = f i := by
  by_cases old : i < 64 * k
  · rw [Mem.read_writeList_ne _ _ _ (.inl (by omega)), before i old]
  · have at_ : a + i = a + 64 * k + (i - 64 * k) := by omega
    rw [at_, Mem.read_writeList _ _ _ (by omega), block (i - 64 * k) (by omega)]
    congr 1
    omega

theorem Mem.readList_getElem (m : Mem) (a n : Nat) {i : Nat} (h : i < (Mem.readList m a n).length) : (Mem.readList m a n)[i] = Mem.read m (a + i) := by
  induction n generalizing a i with
  | zero => cases h
  | succ n ih =>
    cases i with
    | zero => rfl
    | succ i =>
      refine (ih (a + 1) (Nat.lt_of_succ_lt_succ h)).trans ?_
      rw [Nat.add_assoc, Nat.add_comm 1 i]

theorem restoreBlocks_restored (s : State) (ctx n a k : Nat) : Restored s (s.restoreBlocks ctx n a k) ctx n a k := by
  induction k with
  | zero => exact ⟨rfl, rfl, rfl, rfl, fun _ _ => rfl, rfl, fun _ => rfl, fun ⟨i, h, _⟩ => absurd h (by omega), fun i h => absurd h (by omega)⟩
  | succ k ih =>
    rw [restoreBlocks_succ]
    generalize s.restoreBlocks ctx n a k = v at ih
    unfold State.restoreBlock
    dsimp only
    have ok := reads_none_congr ih.dev ih.poison portSluice [(saveAddr s.ldr.image.saveRegions (s.saveOffset ctx n + 64 * k), 64)]
    have kept := reads_keeps (.refl v) portSluice [(saveAddr s.ldr.image.saveRegions (s.saveOffset ctx n + 64 * k), 64)] (Within.mem _)
    generalize v.reads portSluice [(saveAddr s.ldr.image.saveRegions (s.saveOffset ctx n + 64 * k), 64)] = r at *
    obtain ⟨result, w⟩ := r
    dsimp only at kept ok ⊢
    have dev := kept.dev_eq (by decide)
    have poison := kept.dram.poison.resolve_left (by decide)
    have bytes := kept.dram.bytes.resolve_left (by decide)
    have cmds := kept.slu.cmds.resolve_left (by decide)
    have ctxs := ctxRun_congr (kept.slu.ctxs.resolve_left (by decide))
    have basin := basin_congr (kept.slu.basins.resolve_left (by decide)) n
    have div : ∀ j < 64, (64 * k + j) / 64 = k ∧ (64 * k + j) % 64 = j := fun j h => by omega
    cases result with
    | none =>
      have saved := ok.1 rfl
      refine ⟨dev.trans ih.dev, poison.trans ih.poison, bytes.trans ih.bytes, cmds.trans ih.cmds, fun c other => (ctxs c).trans (ih.others c other), ?_, fun all => ?_,
        fun ⟨i, h, fails⟩ => ?_, fun i h => ?_⟩
      · change w.ctxRun ctx = { s.ctxRun ctx with fault := (w.ctxRun ctx).fault }
        rw [ctxs]
        exact ih.own
      · change (w.ctxRun ctx).fault = _
        rw [ctxs]
        exact ih.good fun i h => all i (by omega)
      · change (w.ctxRun ctx).fault ≠ none
        rw [ctxs]
        refine ih.bad ⟨i, ?_, fails⟩
        have : i ≠ k := fun e => fails (e ▸ saved)
        omega
      · rw [basin_setBasin, if_pos rfl]
        refine read_block (Mem.readList_length ..) (fun i h => by rw [basin]; exact ih.data i h) (fun j hj => ?_) h
        unfold State.savedByte
        rw [(div j hj).1, (div j hj).2, if_pos saved, Mem.readList_getElem, ih.bytes]
        rfl
    | some st =>
      have lost : ¬ s.savedOk ctx n k := fun h => by cases ok.2 h
      have len : (List.replicate 64 0x00#8).length = 64 := List.length_replicate ..
      have zero : ∀ j (h : j < (List.replicate 64 0x00#8).length), (List.replicate 64 0x00#8)[j] = 0x00#8 := fun j h => List.getElem_replicate ..
      generalize List.replicate 64 0x00#8 = zeros at *
      have own := fun c => ctxRun_updCtxRun (w.setBasin n (Mem.writeList (w.basin n) (a + 64 * k) zeros)) ctx c
        fun x => { x with fault := some st }
      refine ⟨dev.trans ih.dev, poison.trans ih.poison, bytes.trans ih.bytes, cmds.trans ih.cmds, fun c other => ?_, ?_, fun all => absurd (all k (by omega)) lost,
        fun _ => ?_, fun i h => ?_⟩
      · rw [own, if_neg other]
        exact (ctxs c).trans (ih.others c other)
      · rw [own, if_pos rfl]
        have before := (ctxs ctx).trans ih.own
        change ({ w.ctxRun ctx with fault := some st } : CtxRun) = _
        rw [before]
      · rw [own, if_pos rfl]
        nofun
      · change Mem.read ((w.setBasin n (Mem.writeList (w.basin n) (a + 64 * k) zeros)).basin n) (a + i) = _
        rw [basin_setBasin, if_pos rfl]
        refine read_block len (fun i h => by rw [basin]; exact ih.data i h) (fun j hj => ?_) h
        unfold State.savedByte
        rw [(div j hj).1, zero]
        exact (if_neg lost).symm

/-! ## BRING_IN_COMPLETE -/

/-- The state in which a context is in, before it is seen who is runnable. -/
def State.broughtIn (s : State) (ctx n : Nat) (e : CtxEntry) (m : MoveRun) : State :=
  (s.restoreBlocks ctx n (65536 * m.place) (e.basinKib * 16)).settleIn ctx n (m.place, m.slots, m.line)

theorem broughtIn_spec (s : State) (ctx n : Nat) (e : CtxEntry) (m : MoveRun) :
    let t := s.broughtIn ctx n e m
    t.slu.cmds = s.slu.cmds ∧ (t.ctxRun ctx).moving = none ∧ SMap.find? (t.ctxRun ctx).place n = some m.place ∧
    SMap.find? (t.ctxRun ctx).slots n = some m.slots ∧ SMap.find? (t.ctxRun ctx).line0 n = some m.line ∧
    ((∀ k < e.basinKib * 16, s.savedOk ctx n k) → (t.ctxRun ctx).fault = (s.ctxRun ctx).fault) ∧
    ((∃ k < e.basinKib * 16, ¬ s.savedOk ctx n k) → (t.ctxRun ctx).fault ≠ none) ∧
    ∀ i < e.basinKib * 1024, Mem.read (t.basin n) (65536 * m.place + i) = s.savedByte ctx n i := by
  have restored := restoreBlocks_restored s ctx n (65536 * m.place) (e.basinKib * 16)
  unfold State.broughtIn State.settleIn
  generalize s.restoreBlocks ctx n (65536 * m.place) (e.basinKib * 16) = v at restored
  dsimp only
  rw [ctxRun_updCtxRun, if_pos rfl]
  refine ⟨restored.cmds, rfl, ?_, ?_, ?_, restored.good, restored.bad, fun i h => restored.data i (by omega)⟩
  · exact (SMap.find?_insert ..).trans (if_pos rfl)
  · exact (SMap.find?_insert ..).trans (if_pos rfl)
  · exact (SMap.find?_insert ..).trans (if_pos rfl)

theorem exec_bringInComplete {ctx cluster : Nat} {s : State} {e : CtxEntry} {m : MoveRun} (entry : s.ctxEntry ctx = some e)
    (moving : (s.ctxRun ctx).moving = some m) :
    (¬ (m.cluster = cluster ∧ s.weir.coolant = .none ∧ s.shareReach ctx cluster (e.basinKib * 16) = true) →
      exec (.bringInComplete ctx cluster) s = .next s) ∧
    (m.cluster = cluster ∧ s.weir.coolant = .none ∧ s.shareReach ctx cluster (e.basinKib * 16) = true →
      exec (.bringInComplete ctx cluster) s = .next (s.broughtIn ctx cluster e m).refresh.schedule) := by
  have eq : exec (.bringInComplete ctx cluster) s = .next (s.when (m.cluster == cluster && !s.coolantHeld &&
      s.shareReach ctx cluster (e.basinKib * 16)) fun s => (s.broughtIn ctx cluster e m).refresh.schedule) := by
    change execBringInComplete ctx cluster s = _
    unfold execBringInComplete
    rw [entry, moving]
    rfl
  have test : (m.cluster == cluster && !s.coolantHeld && s.shareReach ctx cluster (e.basinKib * 16)) = true ↔
      m.cluster = cluster ∧ s.weir.coolant = .none ∧ s.shareReach ctx cluster (e.basinKib * 16) = true := by
    unfold State.coolantHeld
    simp [and_assoc]
  rw [eq]
  exact ⟨fun off => congrArg _ (when_neg s (mt test.1 off) _), fun on => congrArg _ (when_eq s (test.2 on) _)⟩

theorem refresh_sched (s : State) : Sched s s.refresh := refreshList_sched s _

theorem bringInComplete_effect (ctx cluster : Nat) (s : State) : completes (.bringInComplete ctx cluster) (Comp.lanes ++ Comp.dramSeen) s (fun t =>
    ((s.ctxEntry ctx = none ∨ (s.ctxRun ctx).moving = none ∨ s.weir.coolant ≠ .none) → t = s) ∧
    ∀ e m, s.ctxEntry ctx = some e → (s.ctxRun ctx).moving = some m → s.weir.coolant = .none →
      let reaches := m.cluster = cluster ∧ s.shareReach ctx cluster (e.basinKib * 16) = true
      (¬ reaches → t = s) ∧
      (reaches → (t.ctxRun ctx).moving = none ∧ SMap.find? (t.ctxRun ctx).place cluster = some m.place ∧
        SMap.find? (t.ctxRun ctx).slots cluster = some m.slots ∧ SMap.find? (t.ctxRun ctx).line0 cluster = some m.line ∧
        ((∀ k < e.basinKib * 16, s.savedOk ctx cluster k) → (t.ctxRun ctx).fault = (s.ctxRun ctx).fault) ∧
        ((∃ k < e.basinKib * 16, ¬ s.savedOk ctx cluster k) → (t.ctxRun ctx).fault ≠ none) ∧
        (s.slu.cmds = [] → ∀ i < e.basinKib * 1024,
          Mem.read (t.basin cluster) (65536 * m.place + i) = s.savedByte ctx cluster i))) := by
  have k := execBringInComplete_keeps (.refl s) ctx cluster (Within.mem _)
  change KeepsOut _ s (exec (.bringInComplete ctx cluster) s) at k
  have within : ∀ c ∈ execBringInCompleteChanges, c ∈ Comp.lanes ++ Comp.dramSeen := by decide +kernel
  by_cases given : s.ctxEntry ctx = none ∨ (s.ctxRun ctx).moving = none
  · have ran : exec (.bringInComplete ctx cluster) s = .next s := by
      change execBringInComplete ctx cluster s = _
      unfold execBringInComplete
      rcases given with none | none
      · rw [none]
      · rw [none]
        cases s.ctxEntry ctx <;> rfl
    rw [ran] at k
    refine completes_of ran k within ⟨fun _ => rfl, fun e m entry moving => ?_⟩
    rcases given with none | none
    · rw [entry] at none; cases none
    · rw [moving] at none; cases none
  · rw [not_or] at given
    obtain ⟨e, entry⟩ := Option.ne_none_iff_exists'.1 given.1
    obtain ⟨m, moving⟩ := Option.ne_none_iff_exists'.1 given.2
    obtain ⟨stays, goes⟩ := exec_bringInComplete (cluster := cluster) entry moving
    by_cases on : m.cluster = cluster ∧ s.weir.coolant = .none ∧ s.shareReach ctx cluster (e.basinKib * 16) = true
    · have ran := goes on
      rw [ran] at k
      refine completes_of ran k within ⟨fun off => ?_, fun e' m' entry' moving' cool => ⟨fun off => ?_, fun _ => ?_⟩⟩
      · exact absurd on.2.1 ((off.resolve_left given.1).resolve_left given.2)
      · obtain rfl := Option.some.inj (entry.symm.trans entry')
        obtain rfl := Option.some.inj (moving.symm.trans moving')
        exact absurd ⟨on.1, on.2.2⟩ off
      · obtain rfl := Option.some.inj (entry.symm.trans entry')
        obtain rfl := Option.some.inj (moving.symm.trans moving')
        obtain ⟨cmds, still, place, slots, line, good, bad, data⟩ := broughtIn_spec s ctx cluster e m
        generalize s.broughtIn ctx cluster e m = v at *
        have sched := (refresh_sched v).trans (schedule_sched _)
        generalize v.refresh.schedule = t at *
        have work := sched.ctx ctx
        unfold CtxRun.sameWork at work
        rw [work]
        refine ⟨still, place, slots, line, good, bad, fun idle i h => ?_⟩
        have mem := sched.mem fun c => by
          unfold State.cmdRun
          rw [cmds, idle]
          rfl
        rw [basin_congr mem, data i h]
    · have ran := stays on
      rw [ran] at k
      refine completes_of ran k within ⟨fun _ => rfl, fun e' m' entry' moving' cool => ⟨fun _ => rfl, fun on' => ?_⟩⟩
      obtain rfl := Option.some.inj (entry.symm.trans entry')
      obtain rfl := Option.some.inj (moving.symm.trans moving')
      exact absurd ⟨on'.1, cool, on'.2⟩ on

/-! ## CONTEXT_EVICT -/

theorem CtxRun.sameWork.place {x y : CtxRun} (h : x.sameWork y) : y.place = x.place := by rw [h]
theorem CtxRun.sameWork.moving {x y : CtxRun} (h : x.sameWork y) : y.moving = x.moving := by rw [h]

theorem evictFor_spec {s : State} {n : Nat} {w e : CtxEntry} (h : s.evictFor n = some (w, e)) :
    w ∈ s.waiters n ∧ e ∈ s.residents n ∧ e.pinned = false ∧ s.quiescent e.id = true ∧
    ∃ p b l, (s.removeFrom e.id n).roomFor w n = some (p, b, l) := by
  obtain ⟨w', mem, found⟩ := List.exists_of_findSome?_eq_some h
  obtain ⟨e', evictee, pair⟩ := Option.map_eq_some_iff.1 found
  cases pair
  have test := List.find?_some evictee
  simp only [Bool.and_eq_true, Bool.not_eq_true', decide_eq_true_eq] at test
  obtain ⟨⟨⟨pinned, -⟩, quiet⟩, room⟩ := test
  obtain ⟨⟨p, b, l⟩, room⟩ := Option.isSome_iff_exists.1 room
  exact ⟨mem, (mem_sortBy ..).1 (List.mem_of_find?_eq_some evictee), pinned, quiet, p, b, l, room⟩

/-- The state in which a context has been evicted for another that moves in. -/
def State.evicted (s : State) (n : Nat) (w e : CtxEntry) (p : Nat) (b : List Nat) (l : Nat) : State :=
  State.count (((s.saveBlocks e.id n (e.basinKib * 16)).removeFrom e.id n).updCtxRun w.id fun x => { x with
    moving := some { cluster := n, out := some e.id, place := p, slots := b, line := l } }) .SLUICE_CNT_EVICT 0

theorem exec_contextEvict {cluster waiting : Nat} {s : State} {w e : CtxEntry} (found : s.evictFor cluster = some (w, e)) {p : Nat} {b : List Nat} {l : Nat}
    (room : (s.removeFrom e.id cluster).roomFor w cluster = some (p, b, l)) :
    let may := w.id = waiting ∧ s.allBlocked cluster = true ∧ s.weir.coolant = .none ∧ s.shareReach e.id cluster (e.basinKib * 16) = true
    (¬ may → exec (.contextEvict cluster waiting) s = .next s) ∧
    (may → exec (.contextEvict cluster waiting) s = .next (s.evicted cluster w e p b l).refresh) := by
  have kept := saveBlocks_keeps (.refl s) e.id cluster (e.basinKib * 16) (Within.mem _)
  have room' : ((s.saveBlocks e.id cluster (e.basinKib * 16)).removeFrom e.id cluster).roomFor w cluster = some (p, b, l) := by
    rw [← room]
    refine roomFor_congr (s := s.removeFrom e.id cluster) (t := (s.saveBlocks e.id cluster (e.basinKib * 16)).removeFrom e.id cluster)
      (kept.dev_eq (by decide)) (kept.ldr_eq (by decide)) ?_ w cluster
    have ctxs := kept.slu.ctxs.resolve_left (by decide)
    unfold State.removeFrom State.updCtxRun State.setCtxRun
    rw [ctxRun_congr ctxs, ctxs]
  have eq : exec (.contextEvict cluster waiting) s = .next (s.when (w.id == waiting && s.allBlocked cluster && !s.coolantHeld &&
      s.shareReach e.id cluster (e.basinKib * 16)) fun s =>
        match ((s.saveBlocks e.id cluster (e.basinKib * 16)).removeFrom e.id cluster).roomFor w cluster with
        | some (a, b, c) => (s.evicted cluster w e a b c).refresh
        | none => s) := by
    change execContextEvict cluster waiting s = _
    unfold execContextEvict
    rw [found]
    rfl
  have test : (w.id == waiting && s.allBlocked cluster && !s.coolantHeld && s.shareReach e.id cluster (e.basinKib * 16)) = true ↔
      w.id = waiting ∧ s.allBlocked cluster = true ∧ s.weir.coolant = .none ∧ s.shareReach e.id cluster (e.basinKib * 16) = true := by
    unfold State.coolantHeld
    simp [and_assoc]
  dsimp only
  rw [eq]
  refine ⟨fun off => congrArg _ (when_neg s (mt test.1 off) _), fun on => congrArg _ ?_⟩
  rw [when_eq s (test.2 on), room']

theorem regOk_evict : regOk .SLUICE_CNT_EVICT 0 0 = true ∧ regOk .SLUICE_CNT_STARVED 0 0 = true := by decide +kernel

theorem evicted_spec (s : State) (n : Nat) (w e : CtxEntry) (p : Nat) (b : List Nat) (l : Nat) :
    let t := s.evicted n w e p b l
    SMap.find? (t.ctxRun e.id).place n = none ∧ (t.ctxRun w.id).moving = some (MoveRun.mk n (some e.id) p b l) ∧
    t.dram.bytes = (s.saveBlocks e.id n (e.basinKib * 16)).dram.bytes ∧
    t.reg .SLUICE_CNT_EVICT 0 0 = counted (s.reg .SLUICE_CNT_EVICT 0 0) := by
  have kept := saveBlocks_keeps (.refl s) e.id n (e.basinKib * 16) (Within.mem _)
  have reg := kept.reg_eq (by decide) (by decide) regOk_evict.1
  unfold State.evicted
  generalize s.saveBlocks e.id n (e.basinKib * 16) = v at *
  have own := ctxRun_updCtxRun v e.id e.id fun x => { x with
    place := SMap.erase x.place n, slots := SMap.erase x.slots n, line0 := SMap.erase x.line0 n,
    residentNs := SMap.erase x.residentNs n, next := if x.next = some n then none else x.next }
  rw [if_pos rfl] at own
  change (v.removeFrom e.id n).ctxRun e.id = _ at own
  have regs : (v.removeFrom e.id n).reg .SLUICE_CNT_EVICT 0 0 = v.reg .SLUICE_CNT_EVICT 0 0 := rfl
  have bytes : (v.removeFrom e.id n).dram.bytes = v.dram.bytes := rfl
  generalize v.removeFrom e.id n = x at *
  have ctx := ctxRun_updCtxRun x w.id
  generalize upd : (x.updCtxRun w.id fun x => { x with moving := some { cluster := n, out := some e.id, place := p, slots := b, line := l } }) = y at *
  have moved := fun k => ctxRun_updCtxRun x w.id k fun x => { x with moving := some { cluster := n, out := some e.id, place := p, slots := b, line := l } }
  rw [upd] at moved
  have same := fun k => ctxRun_congr (s := y) (t := y.count .SLUICE_CNT_EVICT 0) (by simp) k
  have place : (y.ctxRun e.id).place = (x.ctxRun e.id).place := by
    rw [moved]
    split
    · next eq => rw [eq]
    · rfl
  dsimp only
  refine ⟨?_, ?_, ?_, ?_⟩
  · rw [same, place, own]
    exact (SMap.find?_erase ..).trans (if_pos rfl)
  · rw [same, moved, if_pos rfl]
  · refine Eq.trans ?_ (Eq.trans (congrArg (fun z : State => z.dram.bytes) upd.symm) bytes)
    simp
  · rw [count_reg _ _ _ regOk_evict.1, ← upd]
    exact congrArg counted (regs.trans reg)

theorem contextEvict_effect (cluster waiting : Nat) (s : State) : completes (.contextEvict cluster waiting) (Comp.dramPut ++ [
      .reg .SLUICE_CNT_EVICT, .sluCtxs]) s (fun t =>
    ((s.evictFor cluster = none ∨ s.allBlocked cluster = false ∨ s.weir.coolant ≠ .none) → t = s) ∧
    ∀ w e, s.evictFor cluster = some (w, e) → s.allBlocked cluster = true → s.weir.coolant = .none →
      let may := w.id = waiting ∧ s.shareReach e.id cluster (e.basinKib * 16) = true
      (¬ may → t = s) ∧
      (may → w ∈ s.waiters cluster ∧ e ∈ s.residents cluster ∧ e.pinned = false ∧ s.quiescent e.id = true ∧
        SMap.find? (t.ctxRun e.id).place cluster = none ∧
        (∃ u b l, (s.removeFrom e.id cluster).roomFor w cluster = some (u, b, l) ∧
          (t.ctxRun waiting).moving = some (MoveRun.mk cluster (some e.id) u b l)) ∧
        t.dram.bytes = (s.saveBlocks e.id cluster (e.basinKib * 16)).dram.bytes ∧
        t.reg .SLUICE_CNT_EVICT 0 0 = counted (s.reg .SLUICE_CNT_EVICT 0 0))) := by
  have k := execContextEvict_keeps (.refl s) cluster waiting (Within.mem _)
  change KeepsOut _ s (exec (.contextEvict cluster waiting) s) at k
  have within : ∀ c ∈ execContextEvictChanges, c ∈ Comp.dramPut ++ [Comp.reg .SLUICE_CNT_EVICT, .sluCtxs] := by decide +kernel
  cases found : s.evictFor cluster with
  | none =>
    have ran : exec (.contextEvict cluster waiting) s = .next s := by
      change execContextEvict cluster waiting s = _
      unfold execContextEvict
      rw [found]
    rw [ran] at k
    exact completes_of ran k within ⟨fun _ => rfl, fun w e h => by cases h⟩
  | some pair =>
    obtain ⟨w, e⟩ := pair
    obtain ⟨waits, resident, pinned, quiet, p, b, l, room⟩ := evictFor_spec found
    obtain ⟨stays, goes⟩ := exec_contextEvict (waiting := waiting) found room
    by_cases on : w.id = waiting ∧ s.allBlocked cluster = true ∧ s.weir.coolant = .none ∧ s.shareReach e.id cluster (e.basinKib * 16) = true
    · have ran := goes on
      rw [ran] at k
      refine completes_of ran k within ⟨fun off => ?_, fun w' e' h blocked cool => ?_⟩
      · rcases off with off | off | off
        · cases off
        · rw [on.2.1] at off; cases off
        · exact absurd on.2.2.1 off
      · cases h
        refine ⟨fun off => absurd ⟨on.1, on.2.2.2⟩ off, fun _ => ?_⟩
        obtain ⟨place, moving, bytes, count⟩ := evicted_spec s cluster w e p b l
        have after := refresh_keeps (.refl (s.evicted cluster w e p b l)) (Within.mem _)
        have sched := refresh_sched (s.evicted cluster w e p b l)
        generalize s.evicted cluster w e p b l = v at *
        have work := sched.ctx
        refine ⟨waits, resident, pinned, quiet, ?_, ⟨p, b, l, room, ?_⟩, ?_, ?_⟩
        · rw [(work e.id).place, place]
        · rw [← on.1, (work w.id).moving, moving]
        · rw [after.dram.bytes.resolve_left (by decide), bytes]
        · rw [after.reg_eq (by decide) (by decide) regOk_evict.1, count]
    · have ran := stays on
      rw [ran] at k
      refine completes_of ran k within ⟨fun _ => rfl, fun w' e' h blocked cool => ?_⟩
      cases h
      exact ⟨fun _ => rfl, fun on' => absurd ⟨on'.1, blocked, cool, on'.2⟩ on⟩

/-! ## STARVED_TICK -/

theorem starvedTick_effect (ctx cluster : Nat) (s : State) : completes (.starvedTick ctx cluster) [.reg .SLUICE_CNT_STARVED, .sluCtxs] s (fun t =>
    ((s.ctxEntry ctx = none ∨ (s.ctxRun ctx).starvedNs = none) → t = s) ∧
    ∀ e v, s.ctxEntry ctx = some e → (s.ctxRun ctx).starvedNs = some v →
      if s.starvesOn e cluster = true ∧ s.weir.coolant = .none ∧ v + 1000000 ≤ s.nowNs then
        t.reg .SLUICE_CNT_STARVED 0 0 = counted (s.reg .SLUICE_CNT_STARVED 0 0) ∧
        t.ctxRun ctx = { s.ctxRun ctx with starvedNs := some (v + 1000000) } ∧ ∀ c, c ≠ ctx → t.ctxRun c = s.ctxRun c
      else t = s) := by
  have k := execStarvedTick_keeps (.refl s) ctx cluster (Within.mem _)
  change KeepsOut _ s (exec (.starvedTick ctx cluster) s) at k
  by_cases given : s.ctxEntry ctx = none ∨ (s.ctxRun ctx).starvedNs = none
  · have ran : exec (.starvedTick ctx cluster) s = .next s := by
      change execStarvedTick ctx cluster s = _
      unfold execStarvedTick
      rcases given with none | none
      · rw [none]
      · rw [none]
        cases s.ctxEntry ctx <;> rfl
    rw [ran] at k
    refine completes_of ran k (by decide) ⟨fun _ => rfl, fun e v entry starved => ?_⟩
    rcases given with none | none
    · rw [entry] at none; cases none
    · rw [starved] at none; cases none
  · rw [not_or] at given
    obtain ⟨e, entry⟩ := Option.ne_none_iff_exists'.1 given.1
    obtain ⟨v, starved⟩ := Option.ne_none_iff_exists'.1 given.2
    have eq : exec (.starvedTick ctx cluster) s = .next (s.when (s.starvesOn e cluster && !s.coolantHeld && decide (v + 1000000 ≤ s.nowNs))
        fun s => (s.updCtxRun ctx fun x => { x with starvedNs := some (v + 1000000) }).count .SLUICE_CNT_STARVED 0) := by
      change execStarvedTick ctx cluster s = _
      unfold execStarvedTick
      rw [entry, starved]
    have test : (s.starvesOn e cluster && !s.coolantHeld && decide (v + 1000000 ≤ s.nowNs)) = true ↔
        s.starvesOn e cluster = true ∧ s.weir.coolant = .none ∧ v + 1000000 ≤ s.nowNs := by
      unfold State.coolantHeld
      simp [and_assoc]
    by_cases on : s.starvesOn e cluster = true ∧ s.weir.coolant = .none ∧ v + 1000000 ≤ s.nowNs
    · rw [when_eq s (test.2 on)] at eq
      rw [eq] at k
      refine completes_of eq k (by decide) ⟨fun none => absurd none (not_or.2 given), fun e' v' entry' starved' => ?_⟩
      obtain rfl := Option.some.inj (entry.symm.trans entry')
      obtain rfl := Option.some.inj (starved.symm.trans starved')
      rw [if_pos on]
      have own := fun c => ctxRun_updCtxRun s ctx c fun x => { x with starvedNs := some (v + 1000000) }
      have reg : (s.updCtxRun ctx fun x => { x with starvedNs := some (v + 1000000) }).reg .SLUICE_CNT_STARVED 0 0 = s.reg .SLUICE_CNT_STARVED 0 0 := rfl
      generalize (s.updCtxRun ctx fun x => { x with starvedNs := some (v + 1000000) }) = y at *
      have same := fun k => ctxRun_congr (s := y) (t := y.count .SLUICE_CNT_STARVED 0) (by simp) k
      refine ⟨?_, ?_, fun c other => ?_⟩
      · rw [count_reg _ _ _ regOk_evict.2, reg]
        rfl
      · rw [same, own, if_pos rfl]
      · rw [same, own, if_neg other]
    · rw [when_neg s (mt test.1 on)] at eq
      rw [eq] at k
      refine completes_of eq k (by decide) ⟨fun _ => rfl, fun e' v' entry' starved' => ?_⟩
      obtain rfl := Option.some.inj (entry.symm.trans entry')
      obtain rfl := Option.some.inj (starved.symm.trans starved')
      rw [if_neg on]

/-- Settles O57: the four commands of residency by their effects. -/
theorem residencyOfContexts : Obligations.ResidencyOfContexts :=
  ⟨bringIn_effect, bringInComplete_effect, contextEvict_effect, starvedTick_effect⟩

end Sys2Proof.Machine
end

section
/-! SUPPORT. Slices and preemption (R145, R282, R298 to R303). -/

set_option Elab.async false

namespace Sys2Proof.Machine

variable {cs : Comp → Prop} {u : State}

/-! ## Who holds a lane -/

theorem holder_yieldLane (s : State) (l k : Nat) : (s.yieldLane l).holder k = if k = l then none else s.holder k := by
  unfold State.yieldLane
  split
  · exact holder_setHolder s l k none
  · next free =>
    split
    · next own => rw [own, free]
    · rfl

theorem holder_yieldLanes (s : State) (ls : List Nat) (k : Nat) : (s.yieldLanes ls).holder k = if k ∈ ls then none else s.holder k := by
  induction ls generalizing s with
  | nil => rfl
  | cons l ls ih =>
    refine (ih (s.yieldLane l)).trans ?_
    rw [holder_yieldLane]
    by_cases own : k = l
    · simp [own]
    · simp [own]

/-- Only the holder's lanes change where it gives its own up. -/
theorem yieldLane_others (s : State) {l c : Nat} (held : s.holder l = some c) {k : Nat} (other : k ≠ c) : (s.yieldLane l).ctxRun k = s.ctxRun k := by
  unfold State.yieldLane
  rw [held]
  dsimp only
  have upd := ctxRun_updCtxRun ((s.setHolder l none).setIdleHeld (s.slu.heldIdle.filter fun k => k != l)) c k
    fun x => { x with holds := x.holds.filter fun k => k != l }
  exact upd.trans (if_neg other)

theorem holder_takeLane (s : State) (c l k : Nat) : (s.takeLane c l).holder k = if k = l then some c else s.holder k := holder_setHolder s l k (some c)

theorem holder_grant (s : State) (n k : Nat) : (s.grant n).holder k = if k = n then
    (match s.choose n with | some e => some e.id | none => s.holder n) else s.holder k := by
  unfold State.grant
  cases s.choose n with
  | none =>
    dsimp only
    split
    · next own => rw [own]
    · rfl
  | some e =>
    dsimp only
    have take := holder_takeLane s e.id n k
    generalize s.takeLane e.id n = v at *
    split
    · exact take
    · exact take

/-- A lane that is held is not given. -/
theorem grantFree_held {s : State} {k c : Nat} (held : s.holder k = some c) (ns : List Nat) : (s.grantFree ns).holder k = some c := by
  induction ns generalizing s with
  | nil => exact held
  | cons n ns ih =>
    unfold State.grantFree
    refine ih ?_
    split
    · next free =>
      rw [holder_grant, if_neg, held]
      rintro rfl
      rw [held] at free
      cases free
    · exact held

/-! ## Slices -/

theorem find?_foldl_insert (ls : List Nat) (m : SMap Nat) (e k : Nat) :
    SMap.find? (ls.foldl (fun m l => SMap.insert m l e) m) k = if k ∈ ls then some e else SMap.find? m k := by
  induction ls generalizing m with
  | nil => rfl
  | cons l ls ih =>
    rw [List.foldl_cons, ih, SMap.find?_insert]
    by_cases own : k = l
    · simp [own]
    · simp [own]

/-- The slice of a context on lanes starts (again). -/
def sliceAgain (s t : State) (c : Nat) (ls : List Nat) : Prop :=
  changesOnly [.sluCtxs, .sluEnded, .sluSlices] s t ∧ (t.ctxRun c).overrunNs = 0 ∧ ∀ n ∈ ls, n ∉ t.slu.ended ∧ SMap.find? t.slu.slices n =
    some (s.nowNs + s.sliceNs c - if s.skipsSlice c = true then 0 else (s.ctxRun c).overrunNs)

theorem startSlice_again (s : State) (c : Nat) (ls : List Nat) : sliceAgain s (s.startSlice c ls) c ls := by
  refine ⟨(startSlice_keeps (.refl s) c ls (by unfold Within; decide)).changesOnly, ?_, fun n mem => ⟨fun ended => ?_, ?_⟩⟩
  · unfold State.startSlice
    dsimp only
    rw [ctxRun_updCtxRun, if_pos rfl]
  · have kept := (List.mem_filter.1 ended).2
    simp [mem] at kept
  · exact (find?_foldl_insert ls s.slu.slices _ n).trans (if_pos mem)

/-! ## Preemption of a cluster -/

theorem regOk_preempt : regOk .SLUICE_CNT_PREEMPT 0 0 = true ∧ regOk .SLUICE_CNT_OVERRUN 0 0 = true := by decide +kernel

/-- Whether a command runs that a preemption would kill. -/
def State.preemptable (s : State) (c : Nat) : Bool :=
  match s.cmdRun c with
  | some r => !r.killed
  | none => false

theorem preemptCtx_spec (s : State) (c : Nat) :
    (s.killable c = false → s.preemptCtx c = s.killCmd c) ∧
    (s.killable c = true → s.preemptCtx c = (if s.preemptable c then (s.killCmd c).addTo .SLUICE_CNT_PREEMPT 0 1 else s.killCmd c).yieldLanes
      ((s.ctxRun c).holds)) := by
  have ctxs : (s.killCmd c).ctxRun c = s.ctxRun c := ctxRun_congr ((killCmd_keeps (.refl s) c (Within.mem _)).slu.ctxs.resolve_left (by decide)) c
  have eq : s.preemptCtx c = if !s.killable c then s.killCmd c else
      State.yieldLanes (if s.preemptable c then (s.killCmd c).addTo .SLUICE_CNT_PREEMPT 0 1 else s.killCmd c)
        (((if s.preemptable c then (s.killCmd c).addTo .SLUICE_CNT_PREEMPT 0 1 else s.killCmd c).ctxRun c).holds) := rfl
  have holds : ((if s.preemptable c then (s.killCmd c).addTo .SLUICE_CNT_PREEMPT 0 1 else s.killCmd c).ctxRun c).holds = (s.ctxRun c).holds := by
    split
    · rw [ctxRun_congr (s := s.killCmd c) (by simp), ctxs]
    · rw [ctxs]
  rw [eq, holds]
  exact ⟨fun no => if_pos (by simp [no]), fun yes => if_neg (by simp [yes])⟩

/-- What a kill that must not happen leaves: the command runs on, and may have been counted (R145). -/
theorem killCmd_unkillable {s : State} {c : Nat} (no : s.killable c = false) : (s.killCmd c).cmdRun c = s.cmdRun c ∧
    (∀ k, (s.killCmd c).holder k = s.holder k) ∧ (s.killCmd c).reg .SLUICE_CNT_PREEMPT 0 0 = s.reg .SLUICE_CNT_PREEMPT 0 0 ∧
    ∀ r x, s.cmdRun c = some r → (∀ y ∈ r.recs, s.recLive y = true) → s.completeRec r = some x → x.cluster < 4 →
      (s.killCmd c).reg .CL_CNT_LATEKILL x.cluster 0 = counted (s.reg .CL_CNT_LATEKILL x.cluster 0) := by
  obtain ⟨-, runs⟩ := killCmd_spec s c
  have kept := killCmd_keeps (.refl s) c (Within.mem _)
  obtain ⟨r, run⟩ : ∃ r, s.cmdRun c = some r := by
    refine Option.ne_none_iff_exists'.1 fun none => ?_
    unfold State.killable at no
    rw [none] at no
    cases no
  have test : r.killed = false ∧ ((∀ y ∈ r.recs, s.recLive y = true) → s.completeRec r ≠ none) := by
    unfold State.killable at no
    rw [run] at no
    simp only [Bool.or_eq_false_iff, Bool.and_eq_false_iff] at no
    refine ⟨no.1, fun live open_ => ?_⟩
    rcases no.2 with dead | complete
    · exact absurd (List.all_eq_true.2 live) (by simp [dead])
    · rw [open_] at complete
      cases complete
  obtain ⟨stays, kills⟩ := runs r run
  refine ⟨?_, fun k => ?_, kept.reg_eq (by decide) (by decide) regOk_preempt.1, fun r' x run' live complete small => ?_⟩
  · by_cases live : ∀ y ∈ r.recs, s.recLive y = true
    · obtain ⟨x, complete⟩ := Option.ne_none_iff_exists'.1 (test.2 live)
      rw [(kills test.1 live).1 x complete]
      exact cmdRun_congr (by simp) c
    · rw [stays (.inr live)]
  · unfold State.holder
    rw [kept.slu.holder.resolve_left (by decide)]
  · obtain rfl := Option.some.inj (run.symm.trans run')
    rw [(kills test.1 live).1 x complete]
    exact count_reg s _ _ (regOk_lateKill small)

/-- The state of a killed command: whether it was killed before, or is now. -/
theorem killCmd_killable {s : State} {c : Nat} (yes : s.killable c = true) :
    (s.cmdRun c = none → s.killCmd c = s) ∧ (∀ r, s.cmdRun c = some r → r.killed = true → s.killCmd c = s) ∧
    ∀ r, s.cmdRun c = some r → r.killed = false → s.killCmd c = (s.strike c r).killCores c (List.range 32) := by
  obtain ⟨idle, runs⟩ := killCmd_spec s c
  refine ⟨idle, fun r run killed => (runs r run).1 (.inl killed), fun r run alive => ?_⟩
  unfold State.killable at yes
  rw [run] at yes
  simp only [alive, Bool.false_or, Bool.and_eq_true, List.all_eq_true, Option.isNone_iff_eq_none] at yes
  exact ((runs r run).2 alive yes.1).2 yes.2

/-! ## The choice of the next holder -/

theorem sortBy_head {α : Type} {le : α → α → Bool} (total : ∀ a b, le a b = true ∨ le b a = true)
    (trans : ∀ a b c, le a b = true → le b c = true → le a c = true) {xs : List α} {m : α} (h : (sortBy le xs).head? = some m) :
    ∀ x ∈ xs, le m x = true := by
  have refl : ∀ a, le a a = true := fun a => (total a a).elim id id
  induction xs generalizing m with
  | nil => cases h
  | cons x xs ih =>
    change (insertBy le x (sortBy le xs)).head? = some m at h
    cases sorted : sortBy le xs with
    | nil =>
      have none : xs = [] := List.eq_nil_iff_forall_not_mem.2 fun y mem => by
        have := (mem_sortBy le xs y).2 mem
        rw [sorted] at this
        cases this
      rw [sorted] at h
      cases h
      subst none
      intro y mem
      rw [List.mem_singleton.1 mem]
      exact refl x
    | cons y ys =>
      have first := ih (m := y) (by rw [sorted]; rfl)
      rw [sorted] at h
      unfold insertBy at h
      split at h
      · next below =>
        cases h
        intro z mem
        rcases List.mem_cons.1 mem with rfl | mem
        · exact refl z
        · exact trans x y z below (first z mem)
      · next above =>
        cases h
        intro z mem
        rcases List.mem_cons.1 mem with rfl | mem
        · exact (total m z).resolve_right above
        · exact first z mem

/-- The place of a context after the one that held the lane last. -/
def afterLast (last : Nat) (x : CtxEntry) : Nat := if last < x.id then 0 else 1

theorem better_iff (last : Nat) (a b : CtxEntry) : better last a b = true ↔ b.priority < a.priority ∨ a.priority = b.priority ∧
    (afterLast last a < afterLast last b ∨ afterLast last a = afterLast last b ∧ a.id ≤ b.id) := by
  have rank : ∀ x : CtxEntry, (if last < x.id then (0 : Int) else 1) = (afterLast last x : Int) := by
    intro x
    unfold afterLast
    split
    · rfl
    · rfl
  unfold better
  rw [rank, rank]
  simp only [lexLe]
  generalize afterLast last a = i
  generalize afterLast last b = j
  split
  · simp only [true_iff]; omega
  · split
    · simp only [Bool.false_eq_true, false_iff]; omega
    · split
      · simp only [true_iff]; omega
      · split
        · simp only [Bool.false_eq_true, false_iff]; omega
        · split
          · simp only [true_iff]; omega
          · split
            · simp only [Bool.false_eq_true, false_iff]; omega
            · simp only [true_iff]; omega

/-- A rival of the context that held a lane last is chosen, not that context itself (R299). -/
theorem choose_rival {s : State} {n c : Nat} {h r : CtxEntry} (last : s.lastOf n = c) (own : s.ctxEntry c = some h)
    (distinct : (s.ldr.image.ctxs.map (·.id)).Nodup) (mem : r ∈ s.ldr.image.ctxs) (kind : r.kind = 2) (other : r.id ≠ c)
    (prio : h.priority ≤ r.priority) (eligible : s.eligible n r = true) :
    ∃ m ∈ s.ldr.image.ctxs, s.choose n = some m ∧ m.id ≠ c ∧ s.eligible n m = true := by
  have listed : r ∈ s.ldr.image.ctxs.filter fun e => e.kind = 2 && s.eligible n e :=
    List.mem_filter.2 ⟨mem, by simp [kind, eligible]⟩
  have total : ∀ a b, better (s.lastOf n) a b = true ∨ better (s.lastOf n) b a = true := fun a b => by
    rw [better_iff, better_iff]
    omega
  have trans : ∀ a b d, better (s.lastOf n) a b = true → better (s.lastOf n) b d = true → better (s.lastOf n) a d = true := fun a b d => by
    rw [better_iff, better_iff, better_iff]
    omega
  cases first : s.choose n with
  | none =>
    have empty := List.head?_eq_none_iff.1 first
    have := (mem_sortBy (better (s.lastOf n)) _ r).2 listed
    rw [empty] at this
    cases this
  | some m =>
    have inside := (mem_sortBy (better (s.lastOf n)) _ m).1 (List.mem_of_mem_head? first)
    obtain ⟨found, fits⟩ := List.mem_filter.1 inside
    simp only [Bool.and_eq_true, decide_eq_true_eq] at fits
    refine ⟨m, found, rfl, fun same => ?_, fits.2⟩
    have id := ctxEntry_id own
    have eq : m = h := by
      have entry := List.mem_of_find?_eq_some own
      exact List.inj_on_of_nodup_map distinct found entry (same.trans id.symm)
    have order := (better_iff ..).1 (sortBy_head total trans first r listed)
    rw [eq, last] at order
    unfold afterLast at order
    rw [id, if_neg (by omega)] at order
    by_cases after : c < r.id
    · rw [if_pos after] at order
      omega
    · rw [if_neg after] at order
      omega

/-- Whether a context may be given a cluster does not turn on the other contexts. -/
theorem eligible_congr {s t : State} (image : SameImage s t) (dev : t.dev = s.dev) {e : CtxEntry} (run : t.ctxRun e.id = s.ctxRun e.id) (n : Nat) :
    t.eligible n e = s.eligible n e := by
  have resident : t.resident e.id = s.resident e.id := by
    unfold State.resident
    rw [run]
  have group : ∀ old, t.collective e.id old = s.collective e.id old := fun old => by
    unfold State.collective State.maskClusters State.clusters
    simp only [image.ctxEntry, image.records, image.cmdAt, dev]
  have needs : t.needs e.id n = s.needs e.id n := by
    unfold State.needs
    rw [image.ctxEntry, image.stepOld run, group]
  unfold State.eligible
  dsimp only
  rw [run, needs, resident]

/-! ## A cluster's slice ends -/

/-- The cluster's slice ends with a rival: what is taken away, and who has it then. -/
def State.clusterRivalled (s : State) (c : Nat) : State := (s.preemptCtx c).grantFree ((s.ctxRun c).holds)

theorem clusterRivalled_keeps (s : State) (c : Nat) : Keeps (fun d => d ∈ grantChanges ++ preemptCtxChanges) s (s.clusterRivalled c) :=
  grantFree_keeps (preemptCtx_keeps (.refl s) c (by unfold Within; decide)) _ (by unfold Within; decide)

theorem grantFree_same (s : State) (ns : List Nat) : (∀ c, (s.grantFree ns).cmdRun c = s.cmdRun c) ∧ (∀ n, (s.grantFree ns).core n = s.core n) ∧
    ∀ r u i, regOk r u i = true → (s.grantFree ns).reg r u i = s.reg r u i := by
  have kept := grantFree_keeps (.refl s) ns (Within.mem _)
  exact ⟨fun c => cmdRun_congr (kept.slu.cmds.resolve_left (by decide)) c, fun n => core_congr (kept.slu.cores.resolve_left (by decide)) n,
    fun r u i ok => kept.reg_eq (by decide) (by cases r <;> decide) ok⟩

theorem clusterRivalled_unkillable {s : State} {c key : Nat} (held : s.holder key = some c) (no : s.killable c = false) :
    (s.clusterRivalled c).holder key = some c ∧ (s.clusterRivalled c).cmdRun c = s.cmdRun c ∧
    (s.clusterRivalled c).reg .SLUICE_CNT_PREEMPT 0 0 = s.reg .SLUICE_CNT_PREEMPT 0 0 ∧
    ∀ r x, s.cmdRun c = some r → (∀ y ∈ r.recs, s.recLive y = true) → s.completeRec r = some x → x.cluster < 4 →
      (s.clusterRivalled c).reg .CL_CNT_LATEKILL x.cluster 0 = counted (s.reg .CL_CNT_LATEKILL x.cluster 0) := by
  obtain ⟨cmd, holder, preempt, late⟩ := killCmd_unkillable no
  unfold State.clusterRivalled
  rw [(preemptCtx_spec s c).1 no]
  generalize s.killCmd c = v at *
  obtain ⟨cmds, -, regs⟩ := grantFree_same v ((s.ctxRun c).holds)
  refine ⟨grantFree_held ((holder key).trans held) _, (cmds c).trans cmd, (regs _ _ _ regOk_preempt.1).trans preempt, fun r x run live complete small => ?_⟩
  exact (regs _ _ _ (regOk_lateKill small)).trans (late r x run live complete small)

/-- What a preemption of a context whose command can be taken off leaves. -/
theorem preemptCtx_killable {s : State} {c : Nat} (yes : s.killable c = true) :
    (s.cmdRun c = none → (s.preemptCtx c).cmdRun c = none ∧ (s.preemptCtx c).reg .SLUICE_CNT_PREEMPT 0 0 = s.reg .SLUICE_CNT_PREEMPT 0 0) ∧
    (∀ r, s.cmdRun c = some r → r.killed = true → (s.preemptCtx c).cmdRun c = some r ∧
      (s.preemptCtx c).reg .SLUICE_CNT_PREEMPT 0 0 = s.reg .SLUICE_CNT_PREEMPT 0 0) ∧
    (∀ r, s.cmdRun c = some r → r.killed = false → (s.preemptCtx c).cmdRun c = some r.struck ∧
      (s.preemptCtx c).reg .SLUICE_CNT_PREEMPT 0 0 = s.reg .SLUICE_CNT_PREEMPT 0 0 + 1 ∧
      ∀ n, (s.preemptCtx c).core n = ((s.strike c r).killCores c (List.range 32)).core n) ∧
    ∀ k, (s.preemptCtx c).holder k = if k ∈ (s.ctxRun c).holds then none else s.holder k := by
  obtain ⟨idle, again, strikes⟩ := killCmd_killable yes
  have killed := killCmd_keeps (.refl s) c (Within.mem _)
  have reg := killed.reg_eq (by decide) (by decide) regOk_preempt.1
  have holder : ∀ k, (s.killCmd c).holder k = s.holder k := fun k => by
    unfold State.holder
    rw [killed.slu.holder.resolve_left (by decide)]
  have lanes := fun v : State => yieldLanes_keeps (.refl v) ((s.ctxRun c).holds) (Within.mem _)
  have cmds := fun v k => cmdRun_congr ((lanes v).slu.cmds.resolve_left (by decide)) k
  have cores := fun v k => core_congr ((lanes v).slu.cores.resolve_left (by decide)) k
  have regs : ∀ v : State, (v.yieldLanes ((s.ctxRun c).holds)).reg .SLUICE_CNT_PREEMPT 0 0 = v.reg .SLUICE_CNT_PREEMPT 0 0 :=
    fun v => (lanes v).reg_eq (by decide) (by decide) regOk_preempt.1
  rw [(preemptCtx_spec s c).2 yes]
  refine ⟨fun none => ?_, fun r run dead => ?_, fun r run alive => ?_, fun k => ?_⟩
  · have off : s.preemptable c = false := by unfold State.preemptable; rw [none]
    rw [if_neg (by simp [off]), idle none]
    exact ⟨(cmds s c).trans none, regs s⟩
  · have off : s.preemptable c = false := by unfold State.preemptable; rw [run]; simp [dead]
    rw [if_neg (by simp [off]), again r run dead]
    exact ⟨(cmds s c).trans run, regs s⟩
  · have on : s.preemptable c = true := by unfold State.preemptable; rw [run]; simp [alive]
    have cmd := (killCmd_strikes s c r).1
    rw [if_pos on]
    rw [strikes r run alive] at reg ⊢
    generalize (s.strike c r).killCores c (List.range 32) = v at *
    have add := addTo_reg v .SLUICE_CNT_PREEMPT 0 1 regOk_preempt.1
    have addCmd := cmdRun_congr (s := v) (t := v.addTo .SLUICE_CNT_PREEMPT 0 1) (by simp) c
    have addCore := fun n => core_congr (s := v) (t := v.addTo .SLUICE_CNT_PREEMPT 0 1) (by simp) n
    generalize v.addTo .SLUICE_CNT_PREEMPT 0 1 = w at *
    refine ⟨(cmds w c).trans (addCmd.trans cmd), ?_, fun n => (cores w n).trans (addCore n)⟩
    rw [regs, add, reg]
    rfl
  · rw [holder_yieldLanes]
    split
    · rfl
    · split
      · refine Eq.trans ?_ (holder k)
        unfold State.holder
        simp
      · exact holder k

theorem clusterRivalled_killable {s : State} {c : Nat} (yes : s.killable c = true) :
    (s.cmdRun c = none → (s.clusterRivalled c).reg .SLUICE_CNT_PREEMPT 0 0 = s.reg .SLUICE_CNT_PREEMPT 0 0) ∧
    (∀ r, s.cmdRun c = some r → r.killed = true →
      (s.clusterRivalled c).cmdRun c = some r ∧ (s.clusterRivalled c).reg .SLUICE_CNT_PREEMPT 0 0 = s.reg .SLUICE_CNT_PREEMPT 0 0) ∧
    (∀ r, s.cmdRun c = some r → r.killed = false → (s.clusterRivalled c).cmdRun c = some r.struck ∧
      (s.clusterRivalled c).reg .SLUICE_CNT_PREEMPT 0 0 = s.reg .SLUICE_CNT_PREEMPT 0 0 + 1 ∧
      ∀ n < 32, ((s.core n).st = .running ∨ (s.core n).st = .committing) → (s.core n).ctx = c →
        (s.clusterRivalled c).core n = if s.coreRuns n = true then (s.core n).kill else { s.core n with killed := true }) := by
  obtain ⟨idle, again, strikes, -⟩ := preemptCtx_killable yes
  have strike := strike_killed s c
  unfold State.clusterRivalled
  generalize s.preemptCtx c = v at *
  obtain ⟨cmds, cores, regs⟩ := grantFree_same v ((s.ctxRun c).holds)
  have preempt := regs _ _ _ regOk_preempt.1
  refine ⟨fun none => preempt.trans (idle none).2, fun r run dead => ⟨(cmds c).trans (again r run dead).1, preempt.trans (again r run dead).2⟩,
    fun r run alive => ?_⟩
  obtain ⟨cmd, reg, core⟩ := strikes r run alive
  refine ⟨(cmds c).trans cmd, preempt.trans reg, fun n small on own => ?_⟩
  rw [cores, core, strike, if_pos ⟨small, on, own⟩]

/-- A cluster that a rival takes: another context holds it then. -/
theorem clusterRivalled_next {s : State} {c key : Nat} (held : s.holder key = some c) (rival : s.rival key c = true) (yes : s.killable c = true)
    (alone : (s.ctxRun c).holds = [key]) (present : clusterPresent s.dev.part key = true) (cool : s.coolantHeld = false)
    (last : s.lastOf key = c) (distinct : (s.ldr.image.ctxs.map (·.id)).Nodup) :
    ∃ e ∈ s.ldr.image.ctxs, e.id ≠ c ∧ s.eligible key e = true ∧ (s.clusterRivalled c).holder key = some e.id := by
  have kept := preemptCtx_keeps (.refl s) c (Within.mem _)
  have free := (preemptCtx_killable yes).2.2.2 key
  rw [alone, if_pos (List.mem_singleton_self key)] at free
  have sched := (preemptCtx_sched s c).ctx
  have others : ∀ k, k ≠ c → (s.preemptCtx c).ctxRun k = s.ctxRun k := by
    intro k other
    have before := ctxRun_congr ((killCmd_keeps (.refl s) c (Within.mem _)).slu.ctxs.resolve_left (by decide)) k
    have held' : (s.killCmd c).holder key = some c := by
      rw [← held]
      unfold State.holder
      rw [(killCmd_keeps (.refl s) c (Within.mem _)).slu.holder.resolve_left (by decide)]
    rw [(preemptCtx_spec s c).2 yes, alone]
    refine Eq.trans ?_ before
    change (State.yieldLane _ key).ctxRun k = _
    split
    · refine (yieldLane_others _ ?_ other).trans (ctxRun_congr (by simp) k)
      refine Eq.trans ?_ held'
      unfold State.holder
      simp
    · exact yieldLane_others _ held' other
  have image : SameImage s (s.preemptCtx c) := .of_keeps kept
  have dev := kept.dev_eq (by decide)
  have weir := kept.weir_eq (by decide)
  have lastHeld := kept.slu.lastHeld.resolve_left (by decide)
  unfold State.clusterRivalled
  rw [alone]
  generalize s.preemptCtx c = v at *
  unfold State.rival at rival
  split at rival
  · next h entry =>
    obtain ⟨r, mem, test⟩ := List.any_eq_true.1 rival
    simp only [Bool.and_eq_true, decide_eq_true_eq, bne_iff_ne] at test
    obtain ⟨⟨⟨kind, other⟩, prio⟩, fits⟩ := test
    have lastV : v.lastOf key = c := by
      unfold State.lastOf at last ⊢
      rw [lastHeld, last]
    have ctxs : v.ldr.image.ctxs = s.ldr.image.ctxs := by rw [image.ldr]
    obtain ⟨m, found, chosen, different, eligible⟩ := choose_rival lastV ((image.ctxEntry c).trans entry) (by rw [ctxs]; exact distinct)
      (by rw [ctxs]; exact mem) kind other prio ((eligible_congr image dev (others _ other) key).trans fits)
    rw [ctxs] at found
    rw [eligible_congr image dev (others _ different) key] at eligible
    refine ⟨m, found, different, eligible, ?_⟩
    have given : ((v.holder key).isNone && clusterPresent v.dev.part key && !v.coolantHeld) = true := by
      unfold State.coolantHeld at cool ⊢
      rw [free, dev, present, weir]
      simp [cool]
    unfold State.grantFree
    rw [if_pos given]
    unfold State.grantFree
    rw [holder_grant, if_pos rfl, chosen]
  · cases rival

/-! ## Another lane's slice ends -/

theorem endNoted_keeps {s : State} (h : Keeps cs u s) (key : Nat) (hd : Within [.sluEnded] cs) :
    Keeps cs u { s with slu := { s.slu with ended := s.slu.ended ++ [key] } } := keeps_mk h

theorem laneEnd_spec (s : State) (c key : Nat) : (s.ctxEntry c = none → s.laneEnd c key = s.yieldLane key) ∧
    ∀ e, s.ctxEntry c = some e →
      (key < 64 ∧ s.laneBusy key = true → s.laneEnd c key =
        State.count { s with slu := { s.slu with ended := s.slu.ended ++ [key] } } .SLUICE_CNT_OVERRUN 0) ∧
      (¬ (key < 64 ∧ s.laneBusy key = true) →
        (s.laneRival e key = true → key < 64 → s.laneEnd c key = s.yieldLane key) ∧
        (s.laneRival e key = true → 64 ≤ key → s.laneEnd c key = s.preemptCtx c) ∧
        (s.laneRival e key = false → (s.laneBusy key = true ∨ s.wantsLane e = true → s.laneEnd c key = s.startSlice c [key]) ∧
          (¬ (s.laneBusy key = true ∨ s.wantsLane e = true) → s.laneEnd c key = s.yieldLane key))) := by
  refine ⟨fun none => ?_, fun e entry => ?_⟩
  · unfold State.laneEnd
    rw [none]
  · have eq : s.laneEnd c key = if key < 64 && s.laneBusy key then
          State.count { s with slu := { s.slu with ended := s.slu.ended ++ [key] } } .SLUICE_CNT_OVERRUN 0
        else if s.laneRival e key then (if 64 ≤ key then s.preemptCtx c else s.yieldLane key)
        else if s.laneBusy key || s.wantsLane e then s.startSlice c [key]
        else s.yieldLane key := by
      unfold State.laneEnd
      rw [entry]
    have test : (key < 64 && s.laneBusy key) = true ↔ key < 64 ∧ s.laneBusy key = true := by simp
    rw [eq]
    refine ⟨fun inside => if_pos (test.2 inside), fun outside => ?_⟩
    rw [if_neg (mt test.1 outside)]
    refine ⟨fun rival small => ?_, fun rival large => ?_, fun rival => ?_⟩
    · rw [if_pos rival, if_neg (by omega)]
    · rw [if_pos rival, if_pos large]
    · rw [if_neg (by simp [rival])]
      exact ⟨fun goes => if_pos (by simpa using goes), fun stops => if_neg (by simpa using stops)⟩

/-- A move without records can be taken off its lane. -/
theorem killable_move {s : State} {c : Nat} (bare : ∀ r, s.cmdRun c = some r → r.recs = []) : s.killable c = true := by
  unfold State.killable
  split
  · next r run =>
    have none := bare r run
    unfold State.completeRec
    rw [none]
    simp
  · rfl

theorem move_rivalled {s : State} {c key : Nat} (bare : ∀ r, s.cmdRun c = some r → r.recs = []) (own : key ∈ (s.ctxRun c).holds) :
    (s.preemptCtx c).holder key = none ∧
    (s.preemptCtx c).cmdRun c = (s.cmdRun c).map fun r => if r.killed = true then r else r.struck := by
  obtain ⟨idle, again, strikes, holder⟩ := preemptCtx_killable (killable_move bare)
  refine ⟨(holder key).trans (if_pos own), ?_⟩
  cases run : s.cmdRun c with
  | none => exact (idle run).1
  | some r =>
    by_cases killed : r.killed = true
    · rw [(again r run killed).1]
      simp [killed]
    · rw [(strikes r run (by simpa using killed)).1]
      simp [killed]

/-! ## SLICE_END -/

/-- Whether the slice of a lane has ended. -/
def State.sliceEnded (s : State) (key : Nat) : Prop := s.sliceOver key = true ∧ key ∉ s.slu.ended ∧ key ∉ s.slu.heldIdle

theorem exec_sliceEnd {lane : Lane} {s : State} {c : Nat} (held : s.holder (laneKey lane) = some c) :
    (¬ s.sliceEnded (laneKey lane) → exec (.sliceEnd lane) s = .next s) ∧
    (s.sliceEnded (laneKey lane) →
      (laneKey lane < 4 → (∀ n ∈ (s.ctxRun c).holds, s.rival n c = false) →
        exec (.sliceEnd lane) s = .next (s.startSlice c ((s.ctxRun c).holds))) ∧
      (laneKey lane < 4 → (∃ n ∈ (s.ctxRun c).holds, s.rival n c = true) → exec (.sliceEnd lane) s = .next (s.clusterRivalled c)) ∧
      (4 ≤ laneKey lane → exec (.sliceEnd lane) s = .next (s.laneEnd c (laneKey lane)))) := by
  have eq : exec (.sliceEnd lane) s = .next (s.when (s.sliceOver (laneKey lane) && !s.slu.ended.contains (laneKey lane) &&
      !s.slu.heldIdle.contains (laneKey lane)) fun s =>
        if laneKey lane < 4 then
          if ((s.ctxRun c).holds).any (fun n => s.rival n c) then s.clusterRivalled c else s.startSlice c ((s.ctxRun c).holds)
        else s.laneEnd c (laneKey lane)) := by
    change execSliceEnd lane s = _
    unfold execSliceEnd
    dsimp only
    rw [held]
    rfl
  have test : (s.sliceOver (laneKey lane) && !s.slu.ended.contains (laneKey lane) && !s.slu.heldIdle.contains (laneKey lane)) = true ↔
      s.sliceEnded (laneKey lane) := by
    unfold State.sliceEnded
    simp [and_assoc]
  rw [eq]
  refine ⟨fun off => congrArg _ (when_neg s (mt test.1 off) _), fun on => ?_⟩
  rw [when_eq s (test.2 on)]
  refine ⟨fun small calm => ?_, fun small rival => ?_, fun large => congrArg _ (if_neg (by omega))⟩
  · rw [if_pos small, if_neg]
    simpa using calm
  · rw [if_pos small, if_pos]
    simpa using rival

/-- Settles O56: a cluster's slice by its rivals, another lane's by what runs on it. -/
theorem slicesAndPreemption : Obligations.SlicesAndPreemption := by
  intro lane s
  have k := execSliceEnd_keeps (.refl s) lane (Within.mem _)
  change KeepsOut _ s (exec (.sliceEnd lane) s) at k
  have within : ∀ c ∈ execSliceEndChanges, c ∈ Comp.lanes ++ [Comp.reg .SLUICE_CNT_OVERRUN] := by decide +kernel
  cases held : s.holder (laneKey lane) with
  | none =>
    have ran : exec (.sliceEnd lane) s = .next s := by
      change execSliceEnd lane s = _
      unfold execSliceEnd
      dsimp only
      rw [held]
    rw [ran] at k
    refine completes_of ran k within ⟨fun _ => rfl, fun c h => ?_⟩
    rw [held] at h
    cases h
  | some c =>
    obtain ⟨stays, goes⟩ := exec_sliceEnd held
    by_cases ended : s.sliceEnded (laneKey lane)
    · obtain ⟨calm, rivalled, other⟩ := goes ended
      have cool : s.coolantHeld = false := by
        have over_ := ended.1
        unfold State.sliceOver at over_
        split at over_
        · simpa using ((Bool.and_eq_true ..).mp over_).2
        · cases over_
      by_cases small : laneKey lane < 4
      · by_cases rival : ∃ n ∈ (s.ctxRun c).holds, s.rival n c = true
        · have ran := rivalled small rival
          rw [ran] at k
          refine completes_of ran k within ⟨fun h => absurd ended (h.resolve_left (by rw [held]; nofun)), fun c' h _ => ?_⟩
          obtain rfl := Option.some.inj (held.symm.trans h)
          refine ⟨fun _ calm => ?_, fun _ _ => ⟨fun no => clusterRivalled_unkillable held no, fun yes => ?_⟩, fun large => absurd small (by omega)⟩
          · obtain ⟨n, mem, on⟩ := rival
            rw [calm n mem] at on
            cases on
          · obtain ⟨idle, again, strikes⟩ := clusterRivalled_killable yes
            refine ⟨idle, again, strikes, fun alone present last distinct => ?_⟩
            obtain ⟨n, mem, on⟩ := rival
            rw [alone, List.mem_singleton] at mem
            exact clusterRivalled_next held (mem ▸ on) yes alone present cool last distinct
        · have calm' : ∀ n ∈ (s.ctxRun c).holds, s.rival n c = false := by simpa using rival
          have ran := calm small calm'
          rw [ran] at k
          refine completes_of ran k within ⟨fun h => absurd ended (h.resolve_left (by rw [held]; nofun)), fun c' h _ => ?_⟩
          obtain rfl := Option.some.inj (held.symm.trans h)
          exact ⟨fun _ _ => startSlice_again s c _, fun _ h => absurd h rival, fun large => absurd small (by omega)⟩
      · have ran := other (by omega)
        rw [ran] at k
        refine completes_of ran k within ⟨fun h => absurd ended (h.resolve_left (by rw [held]; nofun)), fun c' h _ => ?_⟩
        obtain rfl := Option.some.inj (held.symm.trans h)
        refine ⟨fun h => absurd h small, fun h => absurd h small, fun _ => ?_⟩
        obtain ⟨absent, present⟩ := laneEnd_spec s c (laneKey lane)
        have yields : (s.yieldLane (laneKey lane)).holder (laneKey lane) = none := (holder_yieldLane ..).trans (if_pos rfl)
        refine ⟨fun none => by rw [absent none, yields], fun e entry => ?_⟩
        obtain ⟨inside, outside⟩ := present e entry
        refine ⟨fun on => ?_, fun off rival track => ?_, fun off rival copy own bare => ?_, fun off rival => ?_⟩
        · rw [inside on]
          have first := endNoted_keeps (cs := fun c => c ∈ [Comp.sluEnded, .reg .SLUICE_CNT_OVERRUN]) (.refl s) (laneKey lane) (by unfold Within; decide)
          have ended : (State.count { s with slu := { s.slu with ended := s.slu.ended ++ [laneKey lane] } } .SLUICE_CNT_OVERRUN 0).slu.ended =
              s.slu.ended ++ [laneKey lane] := by simp
          exact ⟨(count_keeps first _ _ (.inr (by decide))).changesOnly, ended, count_reg _ _ _ regOk_preempt.2⟩
        · rw [(outside off).1 rival track]
          exact ⟨yields, (yieldLane_keeps (.refl s) _ (Within.mem _)).slu.cmds.resolve_left (by decide)⟩
        · rw [(outside off).2.1 rival copy]
          exact move_rivalled bare own
        · obtain ⟨again, free⟩ := (outside off).2.2 rival
          split
          · next goes =>
            rw [again goes]
            exact startSlice_again s c [laneKey lane]
          · next stops => rw [free stops, yields]
    · have ran := stays ended
      rw [ran] at k
      refine completes_of ran k within ⟨fun _ => rfl, fun c' h on => absurd on ended⟩

end Sys2Proof.Machine
end

section
/-! SUPPORT. Steps and the items that they select (R284 to R287, R224 to R226, R306 to R308, R69, R70). -/

set_option Elab.async false

namespace Sys2Proof.Machine

variable {cs : Comp → Prop} {u : State}

/-! ## Selection -/

/-- What a selection leaves alone: the image, and of every context all but its queue and whether it receives items as a fallback. -/
structure Picks (s t : State) : Prop where
  ldr : t.ldr = s.ldr
  run : ∀ c, t.ctxRun c = { s.ctxRun c with queue := (t.ctxRun c).queue, receiving := (t.ctxRun c).receiving }

theorem Picks.refl (s : State) : Picks s s := ⟨rfl, fun _ => rfl⟩

theorem Picks.trans {s t v : State} (h : Picks s t) (g : Picks t v) : Picks s v := by
  refine ⟨g.ldr.trans h.ldr, fun c => ?_⟩
  have one := h.run c
  have two := g.run c
  rw [one] at two
  exact two

theorem Picks.step {s t : State} (h : Picks s t) (c : Nat) : t.stepOf c = s.stepOf c := by
  unfold State.stepOf
  rw [h.run c]

theorem Picks.of_keeps {cs : List Comp} {s t : State} (k : Keeps (fun c => c ∈ cs) s t) (ldr : ∀ c ∈ Comp.allLdr, c ∉ cs := by decide)
    (ctxs : .sluCtxs ∉ cs := by decide) : Picks s t :=
  ⟨k.ldr_eq ldr, fun c => by rw [ctxRun_congr (k.slu.ctxs.resolve_left ctxs)]⟩

theorem Picks.upd (s : State) (c : Nat) {f : CtxRun → CtxRun} (hf : ∀ x : CtxRun, f x = { x with queue := (f x).queue, receiving := (f x).receiving }) :
    Picks s (s.updCtxRun c f) := by
  refine ⟨rfl, fun k => ?_⟩
  rw [ctxRun_updCtxRun]
  split
  · next own =>
    rw [own]
    exact hf _
  · rfl

theorem dropStale_picks (s : State) (c : Nat) (it : Item) (counted : Bool) : Picks s (s.dropStale c it counted) :=
  .of_keeps (dropStale_keeps (.refl s) c it counted (Within.mem _))

/-- The state in which a hold that starts with an item is noted. -/
def State.holding (s : State) (c : Nat) (it : Item) (sw : Option (Nat × Nat)) : State :=
  match sw with
  | some e => (s.updRill it.rill (fun r => r.hold c e)).count .SLUICE_CNT_FALLBACK 0
  | none => s

/-- The item and its frame move to the fallback context. -/
def State.fallen (s : State) (fb : Nat) (it : Item) : State :=
  ((s.updFlow it.rill it.frame fun f => { f with fallback := true }).updCtxRun fb fun x => { x with receiving := true }).enqueue fb
    { it with fallback := true }

theorem moveAway_eq (s : State) (c fb : Nat) (it : Item) (sw : Option (Nat × Nat)) : s.moveAway c fb it sw = (s.holding c it sw).fallen fb it := by
  unfold State.moveAway State.holding
  cases sw with
  | none => rfl
  | some e => rfl

theorem holding_slu (s : State) (c : Nat) (it : Item) (sw : Option (Nat × Nat)) : (s.holding c it sw).slu = s.slu ∧ (s.holding c it sw).ldr = s.ldr := by
  unfold State.holding
  cases sw with
  | none => exact ⟨rfl, rfl⟩
  | some e => simp

theorem fallen_run (s : State) (fb : Nat) (it : Item) (c : Nat) : (s.fallen fb it).ctxRun c =
    if c = fb then { s.ctxRun fb with receiving := true, queue := (s.ctxRun fb).queue ++ [{ it with fallback := true }] } else s.ctxRun c := by
  have flow : ∀ k, (s.updFlow it.rill it.frame fun f => { f with fallback := true }).ctxRun k = s.ctxRun k := fun _ => rfl
  unfold State.fallen State.enqueue
  generalize (s.updFlow it.rill it.frame fun f => { f with fallback := true }) = v at flow
  rw [ctxRun_updCtxRun, ctxRun_updCtxRun, if_pos rfl, ctxRun_updCtxRun]
  split
  · rw [flow]
  · rw [flow]

theorem moveAway_picks (s : State) (c fb : Nat) (it : Item) (sw : Option (Nat × Nat)) : Picks s (s.moveAway c fb it sw) := by
  obtain ⟨slu, ldr⟩ := holding_slu s c it sw
  rw [moveAway_eq]
  generalize s.holding c it sw = v at *
  refine ⟨ldr, fun k => ?_⟩
  rw [fallen_run]
  have run := fun k => ctxRun_congr (congrArg Sluice.ctxs slu) k
  split
  · next own =>
    rw [own, run]
  · rw [run]

/-- One item of a selection. -/
def pickItem (e : CtxEntry) (anyOld : Bool) (it : Item) (p : Pick) : Pick :=
  match p.s.route e anyOld it with
  | .drop => { p with
      s := p.s.dropStale e.id it (p.dropped == some (it.rill, it.frame)), dropped := some (it.rill, it.frame) }
  | .away fb sw => { p with s := p.s.moveAway e.id fb it sw }
  | .wait => { p with left := p.left ++ [it] }
  | .join => { p with taken := p.taken ++ [it] }

theorem pickItems_cons (e : CtxEntry) (anyOld : Bool) (it : Item) (its : List Item) (p : Pick) : pickItems e anyOld (it :: its) p =
    if e.maxBatch ≤ p.taken.length then pickItems e anyOld its { p with left := p.left ++ [it] }
    else pickItems e anyOld its (pickItem e anyOld it p) := rfl

theorem pickItem_taken (e : CtxEntry) (anyOld : Bool) (it : Item) (p : Pick) : (pickItem e anyOld it p).taken =
    if p.s.route e anyOld it = .join then p.taken ++ [it] else p.taken := by
  unfold pickItem
  cases route : p.s.route e anyOld it <;> simp

theorem pickItem_picks (e : CtxEntry) (anyOld : Bool) (it : Item) (p : Pick) : Picks p.s (pickItem e anyOld it p).s := by
  unfold pickItem
  cases p.s.route e anyOld it with
  | drop => exact dropStale_picks ..
  | away fb sw => exact moveAway_picks ..
  | wait => exact .refl _
  | join => exact .refl _

theorem pickItems_picks (e : CtxEntry) (anyOld : Bool) (its : List Item) (p : Pick) : Picks p.s (pickItems e anyOld its p).s := by
  induction its generalizing p with
  | nil => exact .refl _
  | cons it its ih =>
    rw [pickItems_cons]
    split
    · exact ih { p with left := p.left ++ [it] }
    · exact (pickItem_picks e anyOld it p).trans (ih _)

/-- A full selection takes no more. -/
theorem pickItems_full (e : CtxEntry) (anyOld : Bool) (its : List Item) (p : Pick) (full : e.maxBatch ≤ p.taken.length) :
    (pickItems e anyOld its p).taken = p.taken := by
  induction its generalizing p with
  | nil => rfl
  | cons it its ih =>
    rw [pickItems_cons, if_pos full]
    exact ih { p with left := p.left ++ [it] } full

/-- A joining item is of the old version where the selection holds to it (R69). -/
theorem join_old {s : State} {e : CtxEntry} {it : Item} (join : s.route e true it = .join) : s.oldFor e.id it.captureTs it.stamp = true := by
  by_contra new
  have here : (if true && !s.oldFor e.id it.captureTs it.stamp then Route.wait else .join) = Route.wait := by simp [new]
  unfold State.route at join
  dsimp only at join
  rw [here] at join
  repeat' split at join
  all_goals cases join

/-- What a selection takes: queued items, no more than the limit, and of the old version where it holds to it. -/
theorem pickItems_taken (e : CtxEntry) (anyOld : Bool) (its : List Item) (p : Pick) : ∃ l, (pickItems e anyOld its p).taken = p.taken ++ l ∧
    (∀ it ∈ l, it ∈ its) ∧ (p.taken.length ≤ e.maxBatch → p.taken.length + l.length ≤ e.maxBatch) ∧
    (anyOld = true → ∀ it ∈ l, p.s.oldFor e.id it.captureTs it.stamp = true) := by
  induction its generalizing p with
  | nil => exact ⟨[], (List.append_nil _).symm, fun _ h => (by cases h), fun h => h, fun _ _ h => (by cases h)⟩
  | cons it its ih =>
    rw [pickItems_cons]
    split
    · obtain ⟨l, eq, mem, few, old⟩ := ih { p with left := p.left ++ [it] }
      exact ⟨l, eq, fun x h => List.mem_cons_of_mem _ (mem x h), few, old⟩
    · next room =>
      obtain ⟨l, eq, mem, few, old⟩ := ih (pickItem e anyOld it p)
      have ldr := (pickItem_picks e anyOld it p).ldr
      have same : ∀ a b, (pickItem e anyOld it p).s.oldFor e.id a b = p.s.oldFor e.id a b := fun a b => by
        unfold State.oldFor State.segRun
        rw [ldr]
      have taken := pickItem_taken e anyOld it p
      by_cases join : p.s.route e anyOld it = .join
      · rw [if_pos join] at taken
        rw [taken] at eq few
        refine ⟨it :: l, by rw [eq, List.append_assoc]; rfl, fun x h => ?_, fun h => ?_, fun on x h => ?_⟩
        · rcases List.mem_cons.1 h with rfl | h
          · exact List.mem_cons_self ..
          · exact List.mem_cons_of_mem _ (mem x h)
        · have := few (by rw [List.length_append, List.length_singleton]; omega)
          rw [List.length_append, List.length_singleton] at this
          rw [List.length_cons]
          omega
        · rcases List.mem_cons.1 h with rfl | h
          · subst on
            exact join_old join
          · rw [← same]
            exact old on x h
      · rw [if_neg join] at taken
        rw [taken] at eq few
        refine ⟨l, eq, fun x h => List.mem_cons_of_mem _ (mem x h), few, fun on x h => ?_⟩
        rw [← same]
        exact old on x h

/-- With a higher limit a selection takes the same, and perhaps more. -/
theorem pickItems_prefix (e : CtxEntry) (anyOld : Bool) (its : List Item) (p : Pick) {m : Nat} (wide : p.taken.length + its.length ≤ m) :
    (pickItems e anyOld its p).taken <+: (pickItems { e with maxBatch := m } anyOld its p).taken := by
  induction its generalizing p with
  | nil => exact List.prefix_refl _
  | cons it its ih =>
    rw [List.length_cons] at wide
    by_cases full : e.maxBatch ≤ p.taken.length
    · rw [pickItems_full e anyOld _ p full]
      obtain ⟨l, eq, -⟩ := pickItems_taken { e with maxBatch := m } anyOld (it :: its) p
      rw [eq]
      exact List.prefix_append ..
    · have room : ¬ ({ e with maxBatch := m } : CtxEntry).maxBatch ≤ p.taken.length := by
        dsimp only
        omega
      rw [pickItems_cons, pickItems_cons, if_neg full, if_neg room]
      have step : pickItem { e with maxBatch := m } anyOld it p = pickItem e anyOld it p := rfl
      rw [step]
      refine ih _ ?_
      rw [pickItem_taken]
      split
      · rw [List.length_append, List.length_singleton]; omega
      · omega

/-! ## The selection of a step -/

/-- The selection before any item. -/
def State.unpicked (s : State) (e : CtxEntry) : Pick :=
  { s := s.updCtxRun e.id fun y => { y with queue := [] }, taken := [], left := [], dropped := none }

/-- Whether the candidates of a selection hold items of the old version (R69). -/
def State.candidatesOld (s : State) (e : CtxEntry) (q : List Item) : Bool :=
  (pickItems { e with maxBatch := q.length } false q (s.unpicked e)).taken.any fun it => s.oldFor e.id it.captureTs it.stamp

theorem pick_eq (s : State) (e : CtxEntry) (q : List Item) : s.pick e q = pickItems e (s.candidatesOld e q) q (s.unpicked e) := rfl

theorem unpicked_picks (s : State) (e : CtxEntry) : Picks s (s.unpicked e).s :=
  Picks.upd s e.id (f := fun y => { y with queue := [] }) fun _ => rfl

theorem pick_picks (s : State) (e : CtxEntry) (q : List Item) : Picks s (s.pick e q).s := by
  rw [pick_eq]
  exact (unpicked_picks s e).trans (pickItems_picks ..)

/-- A selection takes queued items of one version, and no more than the limit. -/
theorem pick_taken (s : State) (e : CtxEntry) (q : List Item) : (s.pick e q).taken.length ≤ e.maxBatch ∧
    ∀ a ∈ (s.pick e q).taken, a ∈ q ∧ ∀ b ∈ (s.pick e q).taken, s.oldFor e.id a.captureTs a.stamp = s.oldFor e.id b.captureTs b.stamp := by
  rw [pick_eq]
  have old := pickItems_taken e (s.candidatesOld e q) q (s.unpicked e)
  obtain ⟨l, eq, mem, few, old⟩ := old
  rw [eq]
  refine ⟨by simpa [State.unpicked] using few (Nat.zero_le _), fun a ha => ⟨mem a ha, fun b hb => ?_⟩⟩
  by_cases on : s.candidatesOld e q = true
  · exact (old on a ha).trans (old on b hb).symm
  · have wide := pickItems_prefix e false q (s.unpicked e) (m := q.length) (by simp [State.unpicked])
    rw [Bool.not_eq_true] at on
    have none : ∀ x ∈ l, s.oldFor e.id x.captureTs x.stamp = false := by
      intro x hx
      have inAll : x ∈ (pickItems { e with maxBatch := q.length } false q (s.unpicked e)).taken := by
        refine wide.subset ?_
        rw [← on, eq]
        exact List.mem_append_right _ hx
      unfold State.candidatesOld at on
      simpa using List.any_eq_false.1 on x inAll
    rw [none a ha, none b hb]

/-! ## The step of a selection -/

/-- The state in which what a selection left is queued again and its step, if it has one, is in place. -/
def State.stepTaken (s : State) (ctx cluster : Nat) (e : CtxEntry) (p : Pick) : State :=
  let s1 := p.s.updCtxRun ctx (fun y => { y with queue := p.left ++ y.queue })
  let s2 := if e.sharded || p.taken = [] then s1
    else s1.updCtxRun ctx (fun y => { y with next := s1.nextCluster ctx cluster })
  let n := if e.sharded then (s.needs ctx cluster).headD cluster else cluster
  let st : StepRun := { cluster := n, items := p.taken, cmd := 0, startNs := s.nowNs, kept := [], delayed := false }
  if p.taken = [] then s2 else s2.updCtxRun ctx (fun y => { y with step := some st })

/-- The decision point after a selection. -/
def State.stepDecided (s : State) (ctx : Nat) (taken : List Item) : State :=
  (if taken = [] then (s.dropReceiving ctx taken).settle.yieldLanes (((s.dropReceiving ctx taken).settle.ctxRun ctx).holds)
    else (s.dropReceiving ctx taken).settle).schedule

theorem foldl_updRill_slu (f : Item → Rill → Rill) (l : List Item) (s : State) :
    (l.foldl (fun (a : State) it => a.updRill it.rill (f it)) s).slu = s.slu := by
  induction l generalizing s with
  | nil => rfl
  | cons it its ih => exact (ih _).trans (by simp)

theorem stopReceiving_run (s : State) (fs : List FbEntry) (c : Nat) : (s.stopReceiving fs).ctxRun c =
    { s.ctxRun c with receiving := ((s.stopReceiving fs).ctxRun c).receiving } := by
  induction fs generalizing s with
  | nil => rfl
  | cons f fs ih =>
    unfold State.stopReceiving
    refine (ih _).trans ?_
    rw [ctxRun_updCtxRun]
    split
    · next own => rw [own]
    · rfl

theorem dropReceiving_run (s : State) (ctx : Nat) (taken : List Item) (c : Nat) : (s.dropReceiving ctx taken).ctxRun c =
    { s.ctxRun c with receiving := ((s.dropReceiving ctx taken).ctxRun c).receiving } := by
  have rills := foldl_updRill_slu (fun it r => { r with holds := r.holds.filter (fun h => h.1 != ctx || decide (it.frame < h.2.2)) }) taken s
  unfold State.dropReceiving
  dsimp only
  generalize (taken.foldl (fun (a : State) it => a.updRill it.rill fun r =>
    { r with holds := r.holds.filter (fun h => h.1 != ctx || decide (it.frame < h.2.2)) }) s) = v at *
  have same := ctxRun_congr (congrArg Sluice.ctxs rills) c
  split
  · rw [same]
  · rw [stopReceiving_run, same]

/-- What a decision point after a selection keeps of a context: its step, its queue and its next cluster. -/
theorem stepDecided_run (s : State) (ctx : Nat) (taken : List Item) (c : Nat) : ((s.stepDecided ctx taken).ctxRun c).step = (s.ctxRun c).step ∧
    ((s.stepDecided ctx taken).ctxRun c).queue = (s.ctxRun c).queue ∧ ((s.stepDecided ctx taken).ctxRun c).next = (s.ctxRun c).next := by
  have drop := dropReceiving_run s ctx taken c
  unfold State.stepDecided
  generalize s.dropReceiving ctx taken = v at *
  have sched : Sched v (State.schedule (if taken = [] then v.settle.yieldLanes ((v.settle.ctxRun ctx).holds) else v.settle)) := by
    refine (settle_sched v).trans (Sched.trans ?_ (schedule_sched _))
    split
    · exact yieldLanes_sched _ _
    · exact .refl _
  have work := sched.ctx c
  generalize (State.schedule (if taken = [] then v.settle.yieldLanes ((v.settle.ctxRun ctx).holds) else v.settle)) = t at *
  unfold CtxRun.sameWork at work
  rw [work, drop]
  exact ⟨rfl, rfl, rfl⟩

/-! ## An only item -/

theorem route_unpicked (s : State) (e : CtxEntry) (anyOld : Bool) (it : Item) : (s.unpicked e).s.route e anyOld it = s.route e anyOld it := by
  have late : (s.unpicked e).s.late e it = s.late e it := by
    unfold State.late State.unpicked
    rw [ctxRun_updCtxRun, if_pos rfl]
    rfl
  unfold State.route
  rw [late]
  rfl

/-- Where an only item goes does not turn on whether it was a candidate: a version does not wait for itself (R69). -/
theorem route_only (s : State) (e : CtxEntry) (it : Item) {anyOld : Bool} (own : anyOld = true → s.oldFor e.id it.captureTs it.stamp = true) :
    s.route e anyOld it = s.route e (s.oldFor e.id it.captureTs it.stamp) it := by
  have mine : (if anyOld && !s.oldFor e.id it.captureTs it.stamp then Route.wait else .join) = .join := by
    refine if_neg ?_
    cases anyOld with
    | false => simp
    | true => simp [own rfl]
  have same : (if s.oldFor e.id it.captureTs it.stamp && !s.oldFor e.id it.captureTs it.stamp then Route.wait else .join) = .join :=
    if_neg (by simp)
  unfold State.route
  dsimp only
  rw [mine, same]

theorem pick_only {s : State} {e : CtxEntry} (room : 1 ≤ e.maxBatch) (it : Item) : ∃ old, s.pick e [it] = pickItem e old it (s.unpicked e) ∧
    s.route e old it = s.route e (s.oldFor e.id it.captureTs it.stamp) it := by
  refine ⟨s.candidatesOld e [it], ?_, route_only s e it fun on => ?_⟩
  · rw [pick_eq, pickItems_cons, if_neg]
    · rfl
    · change ¬ e.maxBatch ≤ 0
      omega
  · obtain ⟨x, mem, old⟩ := List.any_eq_true.1 on
    obtain ⟨l, eq, listed, -⟩ := pickItems_taken { e with maxBatch := [it].length } false [it] (s.unpicked e)
    rw [eq] at mem
    have inside := listed x (by simpa [State.unpicked] using mem)
    rw [List.mem_singleton] at inside
    rw [inside] at old
    exact old

theorem unpicked_run (s : State) (e : CtxEntry) (c : Nat) : (s.unpicked e).s.ctxRun c = if c = e.id then { s.ctxRun e.id with queue := [] } else s.ctxRun c :=
  ctxRun_updCtxRun s e.id c _

theorem stepTaken_none {s : State} {ctx cluster : Nat} {e : CtxEntry} {p : Pick} (none : p.taken = []) :
    s.stepTaken ctx cluster e p = p.s.updCtxRun ctx fun y => { y with queue := p.left ++ y.queue } := by
  unfold State.stepTaken
  dsimp only
  rw [if_pos none, if_pos (by simp [none])]

/-- The step that a selection makes. -/
def State.newStep (s : State) (ctx cluster : Nat) (e : CtxEntry) (p : Pick) : StepRun :=
  { cluster := if e.sharded then (s.needs ctx cluster).headD cluster else cluster, items := p.taken, cmd := 0, startNs := s.nowNs, kept := [], delayed := false }

theorem stepTaken_step {s : State} {ctx cluster : Nat} {e : CtxEntry} {p : Pick} (some_ : p.taken ≠ []) :
    ((s.stepTaken ctx cluster e p).ctxRun ctx).step = some (s.newStep ctx cluster e p) ∧
    ((s.stepTaken ctx cluster e p).ctxRun ctx).queue = p.left ++ (p.s.ctxRun ctx).queue ∧
    (e.sharded = false → ((s.stepTaken ctx cluster e p).ctxRun ctx).next =
      (p.s.updCtxRun ctx fun y => { y with queue := p.left ++ y.queue }).nextCluster ctx cluster) := by
  unfold State.stepTaken State.newStep
  dsimp only
  have queue := ctxRun_updCtxRun p.s ctx ctx fun y => { y with queue := p.left ++ y.queue }
  generalize (p.s.updCtxRun ctx fun y => { y with queue := p.left ++ y.queue }) = v at *
  rw [if_neg some_, ctxRun_updCtxRun, if_pos rfl]
  rw [if_pos rfl] at queue
  by_cases sharded : e.sharded = true
  · rw [if_pos (by simp [sharded]), queue]
    exact ⟨rfl, rfl, fun no => by rw [sharded] at no; cases no⟩
  · rw [if_neg (by simp [sharded, some_]), ctxRun_updCtxRun, if_pos rfl, queue]
    exact ⟨rfl, rfl, fun _ => rfl⟩

end Sys2Proof.Machine
end

section
/-! SUPPORT. STEP_START (R284 to R287, R224 to R226, R306 to R308). -/

set_option Elab.async false

namespace Sys2Proof.Machine

variable {cs : Comp → Prop} {u : State}

theorem regOk_fallback : regOk .SLUICE_CNT_FALLBACK 0 0 = true := by decide +kernel

/-- A selection that takes nothing changes no rill and no count of Sluice at its decision point. -/
theorem stepDecided_idle (s : State) (ctx : Nat) : (s.stepDecided ctx []).ing.rills = s.ing.rills ∧
    (s.stepDecided ctx []).reg .SLUICE_CNT_FALLBACK 0 0 = s.reg .SLUICE_CNT_FALLBACK 0 0 := by
  have drop : Keeps (fun c => c ∈ setCtxRunChanges) s (s.dropReceiving ctx []) := by
    unfold State.dropReceiving
    dsimp only [List.foldl_nil]
    split
    · exact .refl s
    · exact stopReceiving_keeps (.refl s) _ (Within.mem _)
  unfold State.stepDecided
  rw [if_pos rfl]
  generalize s.dropReceiving ctx [] = v at *
  have settled := settle_keeps (.refl v) (Within.mem _)
  have lanes := yieldLanes_keeps (.refl v.settle) ((v.settle.ctxRun ctx).holds) (Within.mem _)
  have sched := schedule_keeps (.refl (v.settle.yieldLanes ((v.settle.ctxRun ctx).holds))) (Within.mem _)
  exact ⟨(sched.ing.rills.resolve_left (by decide)).trans ((lanes.ing.rills.resolve_left (by decide)).trans
      ((settled.ing.rills.resolve_left (by decide)).trans (drop.ing.rills.resolve_left (by decide)))),
    (sched.reg_eq (by decide) (by decide) regOk_fallback).trans ((lanes.reg_eq (by decide) (by decide) regOk_fallback).trans
      ((settled.reg_eq (by decide) (by decide) regOk_fallback).trans (drop.reg_eq (by decide) (by decide) regOk_fallback)))⟩

/-- The state after a step has been started, or a selection that took nothing. -/
def State.stepStarted (s : State) (ctx cluster : Nat) (e : CtxEntry) (q : List Item) : State :=
  (s.stepTaken ctx cluster e (s.pick e q)).stepDecided ctx (s.pick e q).taken

/-- A step holds queued items of one version, and no more than the limit. -/
theorem stepStarted_step {s : State} {ctx cluster : Nat} {e : CtxEntry} {q : List Item} (own : e.id = ctx) (idle : (s.ctxRun ctx).step = none)
    {st : StepRun} (h : (s.stepStarted ctx cluster e q).stepOf ctx = some st) : st.items ≠ [] ∧ st.items.length ≤ e.maxBatch ∧ st.cmd = 0 ∧
    st.startNs = s.nowNs ∧ ∀ a ∈ st.items, a ∈ q ∧ ∀ b ∈ st.items, s.oldFor ctx a.captureTs a.stamp = s.oldFor ctx b.captureTs b.stamp := by
  have picks := pick_picks s e q
  obtain ⟨few, version⟩ := pick_taken s e q
  unfold State.stepStarted State.stepOf at h
  generalize s.pick e q = p at *
  rw [(stepDecided_run _ ctx p.taken ctx).1] at h
  by_cases none : p.taken = []
  · rw [stepTaken_none none, ctxRun_updCtxRun, if_pos rfl] at h
    have before := congrArg CtxRun.step (picks.run ctx)
    rw [idle] at before
    rw [before] at h
    cases h
  · rw [(stepTaken_step none).1] at h
    cases h
    rw [own] at version
    exact ⟨none, few, rfl, rfl, version⟩

/-- What a selection that took nothing leaves of a context. -/
theorem stepStarted_idle {s : State} {ctx cluster : Nat} {e : CtxEntry} {q : List Item} {p : Pick} (pick : s.pick e q = p) (none : p.taken = []) (c : Nat) :
    ((s.stepStarted ctx cluster e q).ctxRun c).step = (p.s.ctxRun c).step ∧
    ((s.stepStarted ctx cluster e q).ctxRun c).queue = (if c = ctx then p.left ++ (p.s.ctxRun ctx).queue else (p.s.ctxRun c).queue) ∧
    (s.stepStarted ctx cluster e q).ing.rills = p.s.ing.rills ∧
    (s.stepStarted ctx cluster e q).reg .SLUICE_CNT_FALLBACK 0 0 = p.s.reg .SLUICE_CNT_FALLBACK 0 0 := by
  unfold State.stepStarted
  rw [pick, stepTaken_none none, none]
  have run := ctxRun_updCtxRun p.s ctx c fun y => { y with queue := p.left ++ y.queue }
  have rills : (p.s.updCtxRun ctx fun y => { y with queue := p.left ++ y.queue }).ing.rills = p.s.ing.rills := rfl
  have reg : (p.s.updCtxRun ctx fun y => { y with queue := p.left ++ y.queue }).reg .SLUICE_CNT_FALLBACK 0 0 = p.s.reg .SLUICE_CNT_FALLBACK 0 0 := rfl
  generalize (p.s.updCtxRun ctx fun y => { y with queue := p.left ++ y.queue }) = v at *
  obtain ⟨step, queue, -⟩ := stepDecided_run v ctx [] c
  obtain ⟨rills', reg'⟩ := stepDecided_idle v ctx
  refine ⟨step.trans ?_, queue.trans ?_, rills'.trans rills, reg'.trans reg⟩
  · rw [run]
    split
    · next own => rw [own]
    · rfl
  · rw [run]
    split
    · rfl
    · rfl

theorem holding_spec (s : State) {c ctx : Nat} (own : c = ctx) (it : Item) (sw : Option (Nat × Nat)) :
    ((s.holding c it sw).rill it.rill).holds = (match sw with
      | some h => (s.rill it.rill).holds.filter (fun y => y.1 != ctx) ++ [(ctx, h)]
      | none => (s.rill it.rill).holds) ∧
    (s.holding c it sw).reg .SLUICE_CNT_FALLBACK 0 0 =
      if sw.isSome = true then counted (s.reg .SLUICE_CNT_FALLBACK 0 0) else s.reg .SLUICE_CNT_FALLBACK 0 0 := by
  subst own
  unfold State.holding
  cases sw with
  | none => exact ⟨rfl, rfl⟩
  | some h =>
    dsimp only
    have own := rill_updRill s it.rill it.rill fun r => r.hold c h
    have reg : (s.updRill it.rill fun r => r.hold c h).reg .SLUICE_CNT_FALLBACK 0 0 = s.reg .SLUICE_CNT_FALLBACK 0 0 := reg_congr (by simp) ..
    generalize (s.updRill it.rill fun r => r.hold c h) = v at *
    refine ⟨?_, ?_⟩
    · rw [rill_congr (s := v) (by simp), own, if_pos rfl]
      rfl
    · rw [count_reg _ _ _ regOk_fallback, reg]
      rfl

/-- Where the only item of a queue goes. -/
theorem stepStarted_only {s : State} {ctx cluster : Nat} {e : CtxEntry} {it : Item} (own : e.id = ctx) (idle : (s.ctxRun ctx).step = none)
    (room : 1 ≤ e.maxBatch) (sharded : e.sharded = false) :
    match s.route e (s.oldFor ctx it.captureTs it.stamp) it with
    | .join => (s.stepStarted ctx cluster e [it]).stepOf ctx = some (StepRun.mk cluster [it] 0 s.nowNs [] false) ∧
      ((s.stepStarted ctx cluster e [it]).ctxRun ctx).queue = [] ∧
      ((s.stepStarted ctx cluster e [it]).ctxRun ctx).next = s.nextCluster ctx cluster
    | .drop => (s.stepStarted ctx cluster e [it]).stepOf ctx = none ∧ ((s.stepStarted ctx cluster e [it]).ctxRun ctx).queue = [] ∧
      ((s.stepStarted ctx cluster e [it]).rill it.rill).staleDropped = min 0xFFFFFFFF ((s.rill it.rill).staleDropped + 1)
    | .away fb sw => (s.stepStarted ctx cluster e [it]).stepOf ctx = none ∧
      (fb ≠ ctx → ((s.stepStarted ctx cluster e [it]).ctxRun ctx).queue = [] ∧
        ((s.stepStarted ctx cluster e [it]).ctxRun fb).queue = (s.ctxRun fb).queue ++ [{ it with fallback := true }]) ∧
      ((s.stepStarted ctx cluster e [it]).rill it.rill).holds = (match sw with
        | some h => (s.rill it.rill).holds.filter (fun y => y.1 != ctx) ++ [(ctx, h)]
        | none => (s.rill it.rill).holds) ∧
      (s.stepStarted ctx cluster e [it]).reg .SLUICE_CNT_FALLBACK 0 0 =
        (if sw.isSome = true then counted (s.reg .SLUICE_CNT_FALLBACK 0 0) else s.reg .SLUICE_CNT_FALLBACK 0 0)
    | .wait => (s.stepStarted ctx cluster e [it]).stepOf ctx = none ∧ ((s.stepStarted ctx cluster e [it]).ctxRun ctx).queue = [it] := by
  obtain ⟨old, pick, route⟩ := pick_only (s := s) room it
  have start := unpicked_run s e
  rw [own] at route start
  rw [← route]
  have taken := pickItem_taken e old it (s.unpicked e)
  have picks := (unpicked_picks s e).trans (pickItem_picks e old it (s.unpicked e))
  have first : (s.unpicked e).taken = [] := rfl
  have left : (s.unpicked e).left = [] := rfl
  have mine := (start ctx).trans (if_pos rfl)
  rw [route_unpicked] at taken
  unfold pickItem at pick
  rw [route_unpicked] at pick
  cases where_ : s.route e old it with
  | join =>
    rw [where_] at pick
    dsimp only at pick ⊢
    unfold State.stepStarted
    rw [pick]
    have some_ : (s.unpicked e).taken ++ [it] ≠ [] := by simp
    obtain ⟨step, queue, next⟩ := stepTaken_step (s := s) (ctx := ctx) (cluster := cluster) (e := e)
      (p := { s.unpicked e with taken := (s.unpicked e).taken ++ [it] }) some_
    generalize s.stepTaken ctx cluster e { s.unpicked e with taken := (s.unpicked e).taken ++ [it] } = v at *
    obtain ⟨step', queue', next'⟩ := stepDecided_run v ctx ((s.unpicked e).taken ++ [it]) ctx
    refine ⟨?_, ?_, ?_⟩
    · refine (step'.trans step).trans ?_
      unfold State.newStep
      rw [if_neg (by simp [sharded])]
      rfl
    · refine (queue'.trans queue).trans ?_
      rw [mine]
      rfl
    · refine (next'.trans (next sharded)).trans ?_
      unfold State.nextCluster State.resident
      dsimp only
      rw [ctxRun_updCtxRun, if_pos rfl, mine]
  | drop =>
    rw [where_] at pick
    dsimp only at pick ⊢
    have empty : ({ s.unpicked e with
      s := (s.unpicked e).s.dropStale e.id it ((s.unpicked e).dropped == some (it.rill, it.frame)), dropped := some (it.rill, it.frame) } : Pick).taken = [] := rfl
    obtain ⟨step, queue, rills, -⟩ := stepStarted_idle (cluster := cluster) (ctx := ctx) pick empty ctx
    have drop := dropStale_picks (s.unpicked e).s e.id it false
    have run := ctxRun_congr ((dropStale_keeps (.refl (s.unpicked e).s) e.id it false (Within.mem _)).slu.ctxs.resolve_left (by decide)) ctx
    change (((s.unpicked e).s.dropStale e.id it false).ctxRun ctx) = _ at run
    refine ⟨?_, ?_, ?_⟩
    · refine step.trans ?_
      change ((((s.unpicked e).s.dropStale e.id it false).ctxRun ctx)).step = none
      rw [run, mine]
      exact idle
    · refine queue.trans ?_
      rw [if_pos rfl]
      change [] ++ ((((s.unpicked e).s.dropStale e.id it false).ctxRun ctx)).queue = []
      rw [run, mine]
      rfl
    · rw [rill_congr rills]
      change ((((s.unpicked e).s.dropStale e.id it false).rill it.rill)).staleDropped = _
      unfold State.dropStale
      dsimp only
      rw [if_neg (by simp), rill_updRill, if_pos rfl]
      have gone := itemGone_keeps (.refl (s.unpicked e).s) e.id it .stale (Within.mem _)
      rw [rill_congr (gone.ing.rills.resolve_left (by decide))]
      rfl
  | away fb sw =>
    rw [where_] at pick
    dsimp only at pick ⊢
    have empty : ({ s.unpicked e with s := (s.unpicked e).s.moveAway e.id fb it sw } : Pick).taken = [] := rfl
    have idleC := stepStarted_idle (cluster := cluster) (ctx := ctx) pick empty
    dsimp only at idleC
    obtain ⟨slu, -⟩ := holding_slu (s.unpicked e).s e.id it sw
    have hold : ((s.unpicked e).s.holding e.id it sw).ing.rills = ((s.unpicked e).s.moveAway e.id fb it sw).ing.rills ∧
        ((s.unpicked e).s.holding e.id it sw).regs = ((s.unpicked e).s.moveAway e.id fb it sw).regs := by
      rw [moveAway_eq]
      exact ⟨rfl, rfl⟩
    have fall := fallen_run ((s.unpicked e).s.holding e.id it sw) fb it
    rw [← moveAway_eq] at fall
    have runs := fun k => ctxRun_congr (s := (s.unpicked e).s) (t := (s.unpicked e).s.holding e.id it sw) (congrArg Sluice.ctxs slu) k
    have mineA : ((s.unpicked e).s.moveAway e.id fb it sw).ctxRun ctx = if ctx = fb then
        { s.ctxRun ctx with receiving := true, queue := [{ it with fallback := true }] } else { s.ctxRun ctx with queue := [] } := by
      rw [fall, runs, runs]
      split
      · next same => rw [← same, mine]; rfl
      · exact mine
    obtain ⟨step, queue, rills, reg⟩ := idleC ctx
    refine ⟨?_, fun other => ⟨?_, ?_⟩, ?_, ?_⟩
    · refine step.trans ?_
      rw [mineA]
      split
      · exact idle
      · exact idle
    · rw [queue, if_pos rfl, mineA, if_neg (Ne.symm other), left]
      rfl
    · rw [(idleC fb).2.1, if_neg other, fall, if_pos rfl, runs, start, if_neg other]
    · rw [rill_congr (rills.trans hold.1.symm)]
      exact (holding_spec (s.unpicked e).s own it sw).1
    · rw [reg, reg_congr hold.2.symm]
      exact (holding_spec (s.unpicked e).s own it sw).2
  | wait =>
    rw [where_] at pick
    dsimp only at pick ⊢
    have empty : ({ s.unpicked e with left := (s.unpicked e).left ++ [it] } : Pick).taken = [] := rfl
    obtain ⟨step, queue, -, -⟩ := stepStarted_idle (cluster := cluster) (ctx := ctx) pick empty ctx
    refine ⟨step.trans ?_, queue.trans ?_⟩
    · dsimp only
      rw [mine]
      exact idle
    · rw [if_pos rfl]
      dsimp only
      rw [left, mine]
      rfl

/-- What a step needs to start (R284, R286). -/
def State.stepReady (s : State) (ctx cluster : Nat) (e : CtxEntry) : Prop :=
  e.kind = 2 ∧ (s.ctxRun ctx).step = none ∧ (s.ctxRun ctx).queue ≠ [] ∧ s.headsUnread ctx = false ∧ s.weir.coolant = .none ∧
    cluster ∈ s.needs ctx cluster ∧ ∀ n ∈ s.needs ctx cluster, s.holder n = some ctx ∧ n ∉ s.slu.heldIdle

theorem exec_stepStart {ctx cluster : Nat} {s : State} {e : CtxEntry} (entry : s.ctxEntry ctx = some e) :
    (¬ s.stepReady ctx cluster e → exec (.stepStart ctx cluster) s = .next s) ∧
    (s.stepReady ctx cluster e → exec (.stepStart ctx cluster) s =
      .next (s.stepStarted ctx cluster e (sortBy itemLe (s.ctxRun ctx).queue))) := by
  have eq : exec (.stepStart ctx cluster) s = .next (s.when (e.kind = 2 && (s.ctxRun ctx).step.isNone && (s.ctxRun ctx).queue != [] &&
      !s.headsUnread ctx && !s.coolantHeld && (s.needs ctx cluster).all (fun n => s.holder n == some ctx && !s.slu.heldIdle.contains n) &&
      (s.needs ctx cluster).contains cluster) fun s => s.stepStarted ctx cluster e (sortBy itemLe (s.ctxRun ctx).queue)) := by
    change execStepStart ctx cluster s = _
    unfold execStepStart
    rw [entry]
    rfl
  have test : (e.kind = 2 && (s.ctxRun ctx).step.isNone && (s.ctxRun ctx).queue != [] && !s.headsUnread ctx && !s.coolantHeld &&
      (s.needs ctx cluster).all (fun n => s.holder n == some ctx && !s.slu.heldIdle.contains n) && (s.needs ctx cluster).contains cluster) = true ↔
      s.stepReady ctx cluster e := by
    unfold State.stepReady State.coolantHeld
    simp only [Bool.and_eq_true, decide_eq_true_eq, Option.isNone_iff_eq_none, bne_iff_ne, Bool.not_eq_true', List.all_eq_true, beq_iff_eq,
      List.contains_eq_mem, decide_eq_false_iff_not, bne_eq_false_iff_eq]
    tauto
  rw [eq]
  exact ⟨fun off => congrArg _ (when_neg s (mt test.1 off) _), fun on => congrArg _ (when_eq s (test.2 on) _)⟩

/-- Settles O55: a step by the selection that makes it, an only item by its route. -/
theorem stepsAndTheirItems : Obligations.StepsAndTheirItems := by
  intro ctx cluster s
  have k := execStepStart_keeps (.refl s) ctx cluster (Within.mem _)
  change KeepsOut _ s (exec (.stepStart ctx cluster) s) at k
  have within : ∀ c ∈ execStepStartChanges, c ∈ Comp.flows ++ Comp.lanes ++ [Comp.ingRills, .reg .SLUICE_CNT_FALLBACK] := by decide +kernel
  cases entry : s.ctxEntry ctx with
  | none =>
    have ran : exec (.stepStart ctx cluster) s = .next s := by
      change execStepStart ctx cluster s = _
      unfold execStepStart
      rw [entry]
    rw [ran] at k
    refine completes_of ran k within ⟨fun _ => rfl, fun e h => ?_⟩
    cases h
  | some e =>
    obtain ⟨stays, starts⟩ := exec_stepStart (cluster := cluster) entry
    by_cases ready : s.stepReady ctx cluster e
    · have ran := starts ready
      rw [ran] at k
      have own := ctxEntry_id entry
      have ⟨_, idle, _⟩ := ready
      refine completes_of ran k within ⟨fun none => (by cases none), fun e' h => ?_⟩
      cases h
      refine ⟨fun off => absurd ready off, fun _ => ⟨fun st step => ?_, fun it only room whole => ?_⟩⟩
      · obtain ⟨some_, few, first, now, version⟩ := stepStarted_step own idle step
        exact ⟨some_, few, first, now, fun a ha => ⟨(mem_sortBy ..).1 (version a ha).1, (version a ha).2⟩⟩
      · rw [only]
        exact stepStarted_only own idle room whole
    · have ran := stays ready
      rw [ran] at k
      refine completes_of ran k within ⟨fun _ => rfl, fun e' h => ?_⟩
      cases h
      exact ⟨fun _ => rfl, fun on => absurd on ready⟩

end Sys2Proof.Machine
end

section
/-! SUPPORT. Writes and reads of DRAM through BAR2, block by block (R125, R326, R328, R388; obligation O25). -/

set_option Elab.async false

namespace Sys2Proof.Machine

/-! ## Listed bytes -/

/-- A list of bytes to write names no address twice. -/
abbrev Apart (l : List (Nat × Byte)) : Prop := (l.map Prod.fst).Nodup

@[simp] theorem putList_poison (s : State) (l : List (Nat × Byte)) : (s.putList l).dram.poison = s.dram.poison :=
  (putList_keeps (cs := fun c => c ∈ putListChanges) (.refl s) l (Within.mem _)).dram.poison.resolve_left (by decide)

theorem putList_other (s : State) {l : List (Nat × Byte)} {x : Nat} (h : ∀ y, (x, y) ∉ l) :
    (s.putList l).dramByte x = s.dramByte x := by
  induction l generalizing s with
  | nil => rfl
  | cons p l ih =>
    obtain ⟨a, b⟩ := p
    have apart : x ≠ a := fun e => h b (by simp [e])
    calc (s.putList ((a, b) :: l)).dramByte x
        = (s.setDramBytes (Mem.write s.dram.bytes a b)).dramByte x := ih _ fun y m => h y (List.mem_cons_of_mem _ m)
      _ = s.dramByte x := SMap.get_set_ne _ _ _ apart

theorem putList_listed (s : State) {l : List (Nat × Byte)} (apart : Apart l) {x : Nat} {y : Byte} (h : (x, y) ∈ l) :
    (s.putList l).dramByte x = y := by
  induction l generalizing s with
  | nil => cases h
  | cons p l ih =>
    obtain ⟨a, b⟩ := p
    obtain ⟨alone, rest⟩ := List.nodup_cons.1 apart
    rcases List.mem_cons.1 h with first | later
    · cases first
      calc (s.putList ((x, y) :: l)).dramByte x
          = (s.setDramBytes (Mem.write s.dram.bytes x y)).dramByte x :=
            putList_other _ fun z m => alone (List.mem_map.2 ⟨_, m, rfl⟩)
        _ = y := SMap.get_set_self _ _ _ _
    · exact ih _ rest later

/-! ## One block -/

/-- From `s` to `t` nothing changes in block `c` of DRAM, nor whether it is poisoned. -/
structure SameBlock (c : Nat) (s t : State) : Prop where
  poison : t.poisoned c = s.poisoned c
  bytes : ∀ x, x / 64 = c → t.dramByte x = s.dramByte x

theorem SameBlock.trans {c : Nat} {s t v : State} (h : SameBlock c s t) (g : SameBlock c t v) : SameBlock c s v :=
  ⟨g.poison.trans h.poison, fun x hx => (g.bytes x hx).trans (h.bytes x hx)⟩

/-- Whether block `b` takes the bytes `part` of a write (R326, R388). -/
def State.takes (s : State) (ep : Bool) (b : Nat) (part : List (Nat × Byte)) : Prop :=
  ep = true ∨ s.poisoned b = false ∨ part.length = 64

/-- From `s` to `t` block `b` has met a write of the bytes `part` in it. -/
structure BlockWritten (ep : Bool) (b : Nat) (part : List (Nat × Byte)) (s t : State) : Prop where
  taken : s.takes ep b part → ∀ x y, (x, y) ∈ part → t.dramByte x = y
  kept : ∀ x, x / 64 = b → (∀ y, (x, y) ∉ part) ∨ ¬ s.takes ep b part → t.dramByte x = s.dramByte x
  marked : ep = true → part ≠ [] → t.poisoned b = true
  cleared : ep = false → part.length = 64 → t.poisoned b = false
  asBefore : part = [] ∨ ep = false ∧ part.length ≠ 64 → t.poisoned b = s.poisoned b

/-- The same, where the block was the same before and stays so after. -/
theorem BlockWritten.between {ep : Bool} {b : Nat} {part : List (Nat × Byte)} {s v w t : State}
    (inside : ∀ p ∈ part, p.1 / 64 = b) (before : SameBlock b s v) (h : BlockWritten ep b part v w) (after : SameBlock b w t) :
    BlockWritten ep b part s t := by
  have takes : v.takes ep b part ↔ s.takes ep b part := by
    unfold State.takes
    rw [before.poison]
  exact
    { taken := fun on x y m => (after.bytes x (inside _ m)).trans (h.taken (takes.2 on) x y m)
      kept := fun x hx off => (after.bytes x hx).trans ((h.kept x hx (off.imp_right (mt takes.1))).trans (before.bytes x hx))
      marked := fun on some => after.poison.trans (h.marked on some)
      cleared := fun off whole => after.poison.trans (h.cleared off whole)
      asBefore := fun off => after.poison.trans ((h.asBefore off).trans before.poison) }

/-- The parts of DRAM that a write of BAR2 goes by are the same. -/
structure SameDram (s t : State) : Prop where
  bytes : t.dram.bytes = s.dram.bytes
  poison : t.dram.poison = s.dram.poison

theorem SameDram.of_keeps {cs : List Comp} {s t : State} (k : Keeps (fun c => c ∈ cs) s t) (m : .dramBytes ∉ cs) (n : .dramPoison ∉ cs) :
    SameDram s t := ⟨k.dram.bytes.resolve_left m, k.dram.poison.resolve_left n⟩

theorem SameDram.trans {s t v : State} (h : SameDram s t) (g : SameDram t v) : SameDram s v :=
  ⟨g.bytes.trans h.bytes, g.poison.trans h.poison⟩

theorem SameDram.byte {s t : State} (h : SameDram s t) (x : Nat) : t.dramByte x = s.dramByte x := congrArg (Mem.read · x) h.bytes

theorem SameDram.poisoned {s t : State} (h : SameDram s t) (b : Nat) : t.poisoned b = s.poisoned b := poisoned_congr h.poison b

theorem SameDram.block {s t : State} (h : SameDram s t) (c : Nat) : SameBlock c s t := ⟨h.poisoned c, fun x _ => h.byte x⟩

theorem countWrite_dramSame (s : State) (b : Nat) : SameDram s (s.countWrite b) :=
  .of_keeps (countWrite_keeps (.refl s) b (Within.mem _)) (by decide) (by decide)

theorem mergeRead_dramSame (s : State) (p b : Nat) : SameDram s (s.mergeRead p b) :=
  .of_keeps (mergeRead_keeps (.refl s) p b (Within.mem _)) (by decide) (by decide)

/-- A block that takes the bytes of a write. -/
theorem blockWritten_put {ep : Bool} {b : Nat} {part : List (Nat × Byte)} {s v t : State} (apart : Apart part)
    (inside : ∀ p ∈ part, p.1 / 64 = b) (takes : s.takes ep b part) (before : SameDram s v)
    (bytes : t.dram.bytes = (v.putList part).dram.bytes) (others : ∀ c, c ≠ b → t.poisoned c = s.poisoned c)
    (marked : ep = true → t.poisoned b = true) (cleared : ep = false → part.length = 64 → t.poisoned b = false)
    (asBefore : ep = false → part.length ≠ 64 → t.poisoned b = s.poisoned b) (some : part ≠ []) :
    BlockWritten ep b part s t ∧ ∀ c, c ≠ b → SameBlock c s t := by
  have byte : ∀ x, t.dramByte x = (v.putList part).dramByte x := fun x => congrArg (Mem.read · x) bytes
  have out : ∀ x, (∀ y, (x, y) ∉ part) → t.dramByte x = s.dramByte x := fun x off =>
    (byte x).trans ((putList_other v off).trans (before.byte x))
  exact
    ⟨{ taken := fun _ x y m => (byte x).trans (putList_listed v apart m)
       kept := fun x _ off => out x (off.resolve_right (fun not => not takes))
       marked := fun on _ => marked on
       cleared := cleared
       asBefore := fun off => off.elim (absurd · some) (fun h => asBefore h.1 h.2) },
      fun c ne => ⟨others c ne, fun x hx => out x fun y m => ne (hx.symm.trans (inside _ m))⟩⟩

theorem refused_dramSame (s : State) (l : BlockLoc) (k p a b : Nat) :
    SameDram s ((((((s.mergeRead portFw b).dmcLog l k p).count .HEP_CNT_PWDISC 0).setReg .HEP_LAST_PWDISC 0 0
      (BitVec.ofNat 64 a)).aerCorrectable 0 14)) :=
  have logged : SameDram (s.mergeRead portFw b) ((s.mergeRead portFw b).dmcLog l k p) :=
    .of_keeps (dmcLog_keeps (.refl _) l k p (Within.mem _)) (by decide) (by decide)
  have told : SameDram ((s.mergeRead portFw b).dmcLog l k p) ((((s.mergeRead portFw b).dmcLog l k p).count .HEP_CNT_PWDISC 0).setReg
      .HEP_LAST_PWDISC 0 0 (BitVec.ofNat 64 a)) := ⟨by simp, by simp⟩
  have reported := SameDram.of_keeps (aerCorrectable_keeps (.refl ((((s.mergeRead portFw b).dmcLog l k p).count .HEP_CNT_PWDISC 0).setReg
      .HEP_LAST_PWDISC 0 0 (BitVec.ofNat 64 a))) 0 14 (Within.mem _)) (by decide) (by decide)
  have merged := mergeRead_dramSame s portFw b
  ((merged.trans logged).trans told).trans reported

theorem bar2Block_whole {s : State} {ep : Bool} {part : List (Nat × Byte)} {b : Nat} (some : part ≠ []) (inside : ∀ p ∈ part, p.1 / 64 = b)
    (whole : part.length = 64) : s.bar2Block ep part = ((s.putList part).setPoison b ep).countWrite b := by
  obtain ⟨⟨a, y⟩, rest, rfl⟩ := List.exists_cons_of_ne_nil some
  obtain rfl : a / 64 = b := inside _ List.mem_cons_self
  exact if_pos whole

theorem bar2Block_partial {s : State} {ep : Bool} {part : List (Nat × Byte)} {b : Nat} (some : part ≠ [])
    (inside : ∀ p ∈ part, p.1 / 64 = b) (less : part.length ≠ 64) :
    (ep = true → s.bar2Block ep part = (((s.mergeRead portFw b).putList part).setPoison b true).countWrite b) ∧
    (ep = false → s.poisoned b = false → s.bar2Block ep part = ((s.mergeRead portFw b).putList part).countWrite b) ∧
    (ep = false → s.poisoned b = true → SameDram s (s.bar2Block ep part)) := by
  obtain ⟨⟨a, y⟩, rest, rfl⟩ := List.exists_cons_of_ne_nil some
  obtain rfl : a / 64 = b := inside _ List.mem_cons_self
  have eq : s.bar2Block ep ((a, y) :: rest) = _ := if_neg less
  rw [eq]
  refine ⟨fun on => if_pos on, fun off clean => ?_, fun off poisoned => ?_⟩
  · subst off
    simp [clean]
  · subst off
    simp only [Bool.false_eq_true, if_false, poisoned, if_true]
    exact refused_dramSame s _ _ _ _ _

/-- What a write of BAR2 does in one block (R326, R388). -/
theorem bar2Block_spec {s : State} (ep : Bool) {part : List (Nat × Byte)} {b : Nat} (apart : Apart part)
    (inside : ∀ p ∈ part, p.1 / 64 = b) :
    BlockWritten ep b part s (s.bar2Block ep part) ∧ ∀ c, c ≠ b → SameBlock c s (s.bar2Block ep part) := by
  have away : ∀ c, c ≠ b → ∀ x, x / 64 = c → ∀ y, (x, y) ∉ part := fun c ne x hx y m => ne (hx.symm.trans (inside _ m))
  by_cases some : part = []
  · subst some
    exact ⟨⟨fun _ _ _ m => absurd m List.not_mem_nil, fun _ _ _ => rfl, fun _ h => absurd rfl h, fun _ h => by simp at h, fun _ => rfl⟩,
      fun _ _ => ⟨rfl, fun _ _ => rfl⟩⟩
  by_cases whole : part.length = 64
  · rw [bar2Block_whole some inside whole]
    have wrote := countWrite_dramSame ((s.putList part).setPoison b ep) b
    generalize State.countWrite _ _ = t at wrote ⊢
    have poison : ∀ c, t.poisoned c = if c = b then ep else s.poisoned c := fun c => by
      rw [wrote.poisoned, poisoned_setPoison, poisoned_congr (putList_poison s part)]
    have here : t.poisoned b = ep := (poison b).trans (if_pos rfl)
    exact blockWritten_put apart inside (.inr (.inr whole)) ⟨rfl, rfl⟩ wrote.bytes (fun c ne => (poison c).trans (if_neg ne))
      (fun on => here.trans on) (fun off _ => here.trans off) (fun _ less => absurd whole less) some
  obtain ⟨marks, plain, refused⟩ := bar2Block_partial (s := s) (ep := ep) some inside whole
  have merged := mergeRead_dramSame s portFw b
  cases ep with
  | true =>
    rw [marks rfl]
    have wrote := countWrite_dramSame (((s.mergeRead portFw b).putList part).setPoison b true) b
    generalize State.countWrite _ _ = t at wrote ⊢
    have poison : ∀ c, t.poisoned c = if c = b then true else s.poisoned c := fun c => by
      rw [wrote.poisoned, poisoned_setPoison, poisoned_congr (putList_poison _ part), merged.poisoned]
    exact blockWritten_put apart inside (.inl rfl) merged wrote.bytes (fun c ne => (poison c).trans (if_neg ne))
      (fun _ => (poison b).trans (if_pos rfl)) (fun off => by cases off) (fun off => by cases off) some
  | false =>
    cases bad : s.poisoned b with
    | false =>
      rw [plain rfl bad]
      have wrote := countWrite_dramSame ((s.mergeRead portFw b).putList part) b
      generalize State.countWrite _ _ = t at wrote ⊢
      have poison : ∀ c, t.poisoned c = s.poisoned c := fun c => by
        rw [wrote.poisoned, poisoned_congr (putList_poison _ part), merged.poisoned]
      exact blockWritten_put apart inside (.inr (.inl bad)) merged wrote.bytes (fun c _ => poison c) (fun on => by cases on)
        (fun _ full => absurd full whole) (fun _ _ => poison b) some
    | true =>
      have same := refused rfl bad
      have off : ¬ s.takes false b part := by
        rintro (h | h | h)
        · cases h
        · rw [bad] at h; cases h
        · exact whole h
      exact ⟨⟨fun on => absurd on off, fun x _ _ => same.byte x, (by rintro ⟨⟩), fun _ full => absurd full whole,
        fun _ => same.poisoned b⟩, fun c _ => same.block c⟩

/-! ## The blocks in turn -/

/-- The bytes of a write that lie in a block. -/
abbrev inBlock64 (bytes : List (Nat × Byte)) (c : Nat) : List (Nat × Byte) := bytes.filter (fun x => x.1 / 64 = c)

theorem bar2Blocks_spec (s : State) (ep : Bool) {bytes : List (Nat × Byte)} (apart : Apart bytes) (b k c : Nat) :
    (b ≤ c ∧ c < b + k → BlockWritten ep c (inBlock64 bytes c) s (s.bar2Blocks ep bytes b k)) ∧
    (¬ (b ≤ c ∧ c < b + k) → SameBlock c s (s.bar2Blocks ep bytes b k)) := by
  have inside : ∀ d, ∀ p ∈ inBlock64 bytes d, p.1 / 64 = d := fun d p m => by simpa using (List.mem_filter.1 m).2
  induction k generalizing s b with
  | zero => exact ⟨fun h => by omega, fun _ => ⟨rfl, fun _ _ => rfl⟩⟩
  | succ k ih =>
    obtain ⟨wrote, others⟩ := bar2Block_spec (s := s) ep (apart.sublist (List.filter_sublist.map _)) (inside b)
    have rest := ih (s.bar2Block ep (inBlock64 bytes b)) (b + 1)
    change (_ → BlockWritten _ _ _ _ ((s.bar2Block ep (inBlock64 bytes b)).bar2Blocks ep bytes (b + 1) k)) ∧
      (_ → SameBlock _ _ ((s.bar2Block ep (inBlock64 bytes b)).bar2Blocks ep bytes (b + 1) k))
    rcases eq_or_ne c b with rfl | ne
    · have later := rest.2 (by omega)
      exact ⟨fun _ => wrote.between (inside c) ⟨rfl, fun _ _ => rfl⟩ later, fun h => by omega⟩
    · have first := others c ne
      exact ⟨fun h => (rest.1 (by omega)).between (inside c) first ⟨rfl, fun _ _ => rfl⟩,
        fun h => first.trans (rest.2 (by omega))⟩

/-! ## The bytes that no window takes (R125) -/

theorem mem_indexed_iff {α : Type} {l : List α} {k : Nat} {y : α} : (k, y) ∈ indexed l ↔ l[k]? = some y := by
  constructor
  · intro h
    obtain ⟨i, hi⟩ := List.mem_iff_getElem?.1 h
    unfold indexed at hi
    rw [List.getElem?_zip_eq_some] at hi
    obtain ⟨at_, here⟩ := hi
    obtain ⟨hlt, eq⟩ := List.getElem?_eq_some_iff.1 at_
    simp only [List.getElem_range] at eq
    exact eq ▸ here
  · intro h
    obtain ⟨hlt, eq⟩ := List.getElem?_eq_some_iff.1 h
    exact List.mem_iff_getElem?.2 ⟨k, by rw [indexed_getElem l hlt, eq]⟩

theorem mem_openBytes {s : State} {a : Nat} {data : List Byte} {x : Nat} {y : Byte} :
    (x, y) ∈ s.openBytes a data ↔ ∃ k, data[k]? = some y ∧ x = a + k ∧ s.windowed x = false := by
  unfold State.openBytes
  simp only [List.mem_filter, List.mem_map, Prod.mk.injEq, Prod.exists, mem_indexed_iff, Bool.not_eq_true']
  constructor
  · rintro ⟨⟨k, z, at_, rfl, rfl⟩, opens⟩
    exact ⟨k, at_, rfl, opens⟩
  · rintro ⟨k, at_, rfl, opens⟩
    exact ⟨⟨k, y, at_, rfl, rfl⟩, opens⟩

theorem openBytes_apart (s : State) (a : Nat) (data : List Byte) : Apart (s.openBytes a data) := by
  have all : (((indexed data).map fun x => (a + x.1, x.2)).map Prod.fst).Nodup := by
    have eq : ((indexed data).map fun x => (a + x.1, x.2)).map Prod.fst = (List.range data.length).map (a + ·) := by
      have keys : (indexed data).map Prod.fst = List.range data.length := List.map_fst_zip (by simp)
      rw [← keys, List.map_map, List.map_map]
      rfl
    rw [eq]
    exact List.nodup_range.map fun _ _ h => by simpa using h
  exact all.sublist (List.filter_sublist.map _)

/-- Whether the write of `n` bytes at `a` writes a byte: it lies in it and in no window. -/
def State.opens (s : State) (a n x : Nat) : Prop := a ≤ x ∧ x < a + n ∧ s.windowed x = false

theorem opens_iff {s : State} {a : Nat} {data : List Byte} {x : Nat} :
    s.opens a data.length x ↔ ∃ y, (x, y) ∈ s.openBytes a data := by
  constructor
  · rintro ⟨low, high, opens⟩
    refine ⟨data[x - a]'(by omega), mem_openBytes.2 ⟨x - a, List.getElem?_eq_getElem _, by omega, opens⟩⟩
  · rintro ⟨y, m⟩
    obtain ⟨k, at_, rfl, opens⟩ := mem_openBytes.1 m
    have := (List.getElem?_eq_some_iff.1 at_).1
    exact ⟨by omega, by omega, opens⟩

/-- The bytes of a write in a block are 64 where it writes the whole block. -/
theorem inBlock64_whole {bytes : List (Nat × Byte)} (apart : Apart bytes) (c : Nat) :
    (inBlock64 bytes c).length = 64 ↔ ∀ k < 64, ∃ y, (64 * c + k, y) ∈ bytes := by
  have addrs : ((inBlock64 bytes c).map Prod.fst).Nodup := apart.sublist (List.filter_sublist.map _)
  have sub : ((inBlock64 bytes c).map Prod.fst).toFinset ⊆ Finset.Ico (64 * c) (64 * c + 64) := by
    intro x m
    obtain ⟨⟨x, y⟩, listed, rfl⟩ := List.mem_map.1 (List.mem_toFinset.1 m)
    have : x / 64 = c := by simpa using (List.mem_filter.1 listed).2
    rw [Finset.mem_Ico]
    dsimp only
    omega
  have card : ((inBlock64 bytes c).map Prod.fst).toFinset.card = (inBlock64 bytes c).length := by
    rw [List.toFinset_card_of_nodup addrs, List.length_map]
  have member : ∀ x, x ∈ ((inBlock64 bytes c).map Prod.fst).toFinset ↔ x / 64 = c ∧ ∃ y, (x, y) ∈ bytes := fun x => by
    simp only [List.mem_toFinset, List.mem_map, List.mem_filter, Prod.exists, decide_eq_true_eq]
    constructor
    · rintro ⟨x, y, ⟨m, at_⟩, rfl⟩
      exact ⟨at_, y, m⟩
    · rintro ⟨at_, y, m⟩
      exact ⟨x, y, ⟨m, at_⟩, rfl⟩
  constructor
  · intro full k hk
    have eq := Finset.eq_of_subset_of_card_le sub (by rw [card, full]; simp)
    exact ((member (64 * c + k)).1 (eq ▸ Finset.mem_Ico.2 ⟨by omega, by omega⟩)).2
  · intro every
    have eq : ((inBlock64 bytes c).map Prod.fst).toFinset = Finset.Ico (64 * c) (64 * c + 64) := by
      refine sub.antisymm fun x m => ?_
      obtain ⟨low, high⟩ := Finset.mem_Ico.1 m
      have there := every (x - 64 * c) (by omega)
      rw [show 64 * c + (x - 64 * c) = x by omega] at there
      exact (member x).2 ⟨by omega, there⟩
    rw [← card, eq]
    simp

/-! ## A write of BAR2 (R125, R326, R388) -/

/-- What a write of BAR2 makes of the bytes and the poison of DRAM. -/
structure Bar2Written (a : Nat) (data : List Byte) (ep : Bool) (s t : State) : Prop where
  kept : ∀ x, ¬ s.opens a data.length x → t.dramByte x = s.dramByte x
  stored : ∀ k b, data[k]? = some b → s.windowed (a + k) = false →
    (ep = true ∨ s.poisoned ((a + k) / 64) = false ∨ ∀ i < 64, s.opens a data.length (64 * ((a + k) / 64) + i)) → t.dramByte (a + k) = b
  lost : ∀ k b, data[k]? = some b → s.windowed (a + k) = false → ep = false → s.poisoned ((a + k) / 64) = true →
    (¬ ∀ i < 64, s.opens a data.length (64 * ((a + k) / 64) + i)) → t.dramByte (a + k) = s.dramByte (a + k)
  marked : ∀ b, (∃ x, x / 64 = b ∧ s.opens a data.length x) → ep = true → t.poisoned b = true
  cleared : ∀ b, (∀ i < 64, s.opens a data.length (64 * b + i)) → ep = false → t.poisoned b = false
  asBefore : ∀ b, ((∀ x, x / 64 = b → ¬ s.opens a data.length x) ∨ ep = false ∧ ¬ ∀ i < 64, s.opens a data.length (64 * b + i)) →
    t.poisoned b = s.poisoned b

theorem opens_block {s : State} {a n x : Nat} (h : s.opens a n x) : a / 64 ≤ x / 64 ∧ x / 64 < a / 64 + blockSpan a n := by
  obtain ⟨low, high, -⟩ := h
  unfold blockSpan
  rw [if_neg (by omega)]
  omega

theorem bar2Blocks_written (s : State) (a : Nat) (data : List Byte) (ep : Bool) :
    Bar2Written a data ep s (s.bar2Blocks ep (s.openBytes a data) (a / 64) (blockSpan a data.length)) := by
  have spec := bar2Blocks_spec s ep (openBytes_apart s a data) (a / 64) (blockSpan a data.length)
  generalize s.bar2Blocks ep (s.openBytes a data) (a / 64) (blockSpan a data.length) = t at spec
  have whole : ∀ c, (inBlock64 (s.openBytes a data) c).length = 64 ↔ ∀ i < 64, s.opens a data.length (64 * c + i) := fun c => by
    simp only [inBlock64_whole (openBytes_apart s a data), opens_iff]
  have takes : ∀ c, s.takes ep c (inBlock64 (s.openBytes a data) c) ↔
      ep = true ∨ s.poisoned c = false ∨ ∀ i < 64, s.opens a data.length (64 * c + i) := fun c => by
    unfold State.takes
    rw [whole]
  have empty : ∀ c, inBlock64 (s.openBytes a data) c = [] ↔ ∀ x, x / 64 = c → ¬ s.opens a data.length x := fun c => by
    rw [List.filter_eq_nil_iff]
    exact ⟨fun off x hx h => (opens_iff.1 h).elim fun y m => off _ m (by simpa using hx),
      fun off p m h => off p.1 (by simpa using h) (opens_iff.2 ⟨p.2, m⟩)⟩
  have listed : ∀ x y, (x, y) ∈ s.openBytes a data → (x, y) ∈ inBlock64 (s.openBytes a data) (x / 64) := fun x y m =>
    List.mem_filter.2 ⟨m, by simp⟩
  have reached : ∀ x, s.opens a data.length x → BlockWritten ep (x / 64) (inBlock64 (s.openBytes a data) (x / 64)) s t := fun x h =>
    (spec (x / 64)).1 (opens_block h)
  refine ⟨fun x off => ?_, fun k b at_ opens may => ?_, fun k b at_ opens off bad less => ?_, fun b some on => ?_, fun b all off => ?_,
    fun b off => ?_⟩
  · by_cases range : a / 64 ≤ x / 64 ∧ x / 64 < a / 64 + blockSpan a data.length
    · exact ((spec (x / 64)).1 range).kept x rfl (.inl fun y m => off (opens_iff.2 ⟨y, (List.mem_filter.1 m).1⟩))
    · exact ((spec (x / 64)).2 range).bytes x rfl
  · have m : (a + k, b) ∈ s.openBytes a data := mem_openBytes.2 ⟨k, at_, rfl, opens⟩
    exact (reached _ (opens_iff.2 ⟨b, m⟩)).taken ((takes _).2 may) _ _ (listed _ _ m)
  · have m : (a + k, b) ∈ s.openBytes a data := mem_openBytes.2 ⟨k, at_, rfl, opens⟩
    refine (reached _ (opens_iff.2 ⟨b, m⟩)).kept _ rfl (.inr fun on => ?_)
    rcases (takes _).1 on with h | h | h
    · rw [off] at h; cases h
    · rw [bad] at h; cases h
    · exact less h
  · obtain ⟨x, rfl, h⟩ := some
    exact (reached x h).marked on fun none => (empty _).1 none x rfl h
  · have here := all 0 (by omega)
    have at_ : (64 * b + 0) / 64 = b := by omega
    have wrote := reached _ here
    rw [at_] at wrote
    exact wrote.cleared off ((whole b).2 all)
  · by_cases range : a / 64 ≤ b ∧ b < a / 64 + blockSpan a data.length
    · exact ((spec b).1 range).asBefore (off.imp (empty b).2 (fun h => ⟨h.1, mt (whole b).1 h.2⟩))
    · exact ((spec b).2 range).poison

end Sys2Proof.Machine
end

section
/-! SUPPORT. Requests of BAR2 (R125, R322, R332, R387, R388; obligation O25). -/

set_option Elab.async false

namespace Sys2Proof.Machine

theorem regOk_ca : regOk .HEP_CNT_CA 0 0 = true := by decide +kernel

theorem regOk_epTx : regOk .HEP_CNT_EP_TX 0 0 = true := by decide +kernel

theorem regOk_srrej : ∀ {d : Nat}, d < 2 → regOk .DMC_CNT_SRREJ d 0 = true
  | 0, _ | 1, _ => by decide +kernel

theorem out_count (s : State) (r : Reg) (u : Nat) : (s.count r u).out = s.out := by
  unfold State.count
  simp

/-- What sends nothing in the end changes no message sent. -/
theorem changesOnly.silent {cs : List Comp} {s t : State} (h : changesOnly (.out :: cs) s t) (same : t.out = s.out) : changesOnly cs s t := by
  obtain ⟨others, regs⟩ := h
  refine ⟨fun c away => ?_, fun o => ?_⟩
  · by_cases here : c = .out
    · subst here
      exact same
    · exact others c (by simp [here, away])
  · rcases regs o with all | ⟨r, u, i, mem, ok, eq⟩ | kept
    · exact .inl (by simpa using all)
    · exact .inr (.inl ⟨r, u, i, by simpa using mem, ok, eq⟩)
    · exact .inr (.inr kept)

/-! ## Completer Aborts -/

/-- A Completer Abort is counted, and sent where the request has an answer (R387). -/
theorem answerCa_spec (s : State) (posted : Bool) :
    (posted = false → (s.answerCa 0 posted).out = s.out ++ [.completion 0 .abort []]) ∧
    (posted = true → (s.answerCa 0 posted).out = s.out) ∧
    (s.answerCa 0 posted).reg .HEP_CNT_CA 0 0 = counted (s.reg .HEP_CNT_CA 0 0) ∧
    (∀ {r : Reg} {u i : Nat}, regOk r u i = true → r ≠ .HEP_CNT_CA → (s.answerCa 0 posted).reg r u i = s.reg r u i) := by
  have count : (s.count .HEP_CNT_CA 0).reg .HEP_CNT_CA 0 0 = counted (s.reg .HEP_CNT_CA 0 0) := count_reg _ _ _ regOk_ca
  have others {r : Reg} {u i : Nat} (ok : regOk r u i = true) (ne : r ≠ .HEP_CNT_CA) :
      (s.count .HEP_CNT_CA 0).reg r u i = s.reg r u i := count_reg_other s ok (.inl ne)
  cases posted
  · exact ⟨fun _ => congrArg (· ++ _) (out_count s _ _), (by rintro ⟨⟩), count, others⟩
  · exact ⟨(by rintro ⟨⟩), fun _ => out_count s _ _, count, others⟩

/-- What a Completer Abort of BAR2 shows (R332, R387). -/
theorem rejected_spec {s t : State} {off : Nat} (posted : Bool)
    (eq : t = s.answerCa 0 posted ∧ s.dev.recovery = 0x8009#16 ∨
      t = s.selfRefreshReject off posted ∧ s.dev.recovery ≠ 0x8009#16) :
    (posted = false → sends [.completion 0 .abort []] s t) ∧ (posted = true → t.out = s.out) ∧
    t.reg .HEP_CNT_CA 0 0 = counted (s.reg .HEP_CNT_CA 0 0) ∧ t.dram = s.dram ∧
    (¬ s.dev.recovery = 0x8009#16 → (s.blockLoc (off / 64)).dmc < 2 → t.reg .DMC_CNT_SRREJ (s.blockLoc (off / 64)).dmc 0 =
      counted (s.reg .DMC_CNT_SRREJ (s.blockLoc (off / 64)).dmc 0)) ∧
    changesOnly [.out, .fns, .reg .HEP_CNT_CA, .reg .DMC_CNT_SRREJ] s t := by
  rcases eq with ⟨rfl, bad⟩ | ⟨rfl, good⟩
  · have k := answerCa_keeps (.refl s) 0 posted (Within.mem _)
    obtain ⟨out, quiet, told, -⟩ := answerCa_spec s posted
    exact ⟨out, quiet, told, k.dram_eq (by decide), fun h => absurd bad h, k.changesOnly.mono (by decide)⟩
  · have k := selfRefreshReject_keeps (.refl s) off posted (Within.mem _)
    obtain ⟨out, quiet, told, others⟩ := answerCa_spec (s.count .DMC_CNT_SRREJ (s.blockLoc (off / 64)).dmc) posted
    refine ⟨fun plain => ?_, fun on => (quiet on).trans (out_count s _ _), ?_, k.dram_eq (by decide), fun _ two => ?_, k.changesOnly.mono (by decide)⟩
    · exact (out plain).trans (by rw [out_count])
    · exact told.trans (congrArg counted (count_reg_other s regOk_ca (.inl (by decide))))
    · exact (others (regOk_srrej two) (by decide)).trans (count_reg _ _ _ (regOk_srrej two))

/-! ## Reads -/

theorem bar2Read_loading {s : State} (a n : Nat) (loading : s.ldr.state = .loading) :
    ∃ data, data.length = n ∧ sends [.completion 0 .ok data] s (s.bar2Read a n) := by
  refine ⟨freeBytes s.freeIdx n, by simp [freeBytes], ?_⟩
  unfold State.bar2Read
  rw [if_pos loading]
  rfl

theorem bar2Read_plain {s : State} (a n : Nat) (plain : s.ldr.state ≠ .loading) :
    sends [.completion 0 (if s.bar2Ep a n = true then .ep else .ok) ((List.range n).map fun k => s.bar2Byte (a + k))] s (s.bar2Read a n) ∧
    (s.bar2Read a n).reg .HEP_CNT_EP_TX 0 0 =
      if s.bar2Ep a n = true then counted (s.reg .HEP_CNT_EP_TX 0 0) else s.reg .HEP_CNT_EP_TX 0 0 := by
  have k := visitAll_keeps (.refl s) portFw (s.bar2Ranges a n) (Within.mem _)
  have out : (s.visitAll portFw (s.bar2Ranges a n)).out = s.out := k.out.resolve_left (by decide)
  have tx : (s.visitAll portFw (s.bar2Ranges a n)).reg .HEP_CNT_EP_TX 0 0 = s.reg .HEP_CNT_EP_TX 0 0 :=
    k.reg_eq (by decide) (by decide) regOk_epTx
  have eq : s.bar2Read a n = if s.bar2Ep a n then
      ((s.visitAll portFw (s.bar2Ranges a n)).count .HEP_CNT_EP_TX 0).complete 0 .ep ((List.range n).map fun k => s.bar2Byte (a + k))
      else (s.visitAll portFw (s.bar2Ranges a n)).complete 0 .ok ((List.range n).map fun k => s.bar2Byte (a + k)) := if_neg plain
  rw [eq]
  generalize s.visitAll portFw (s.bar2Ranges a n) = v at k out tx
  cases s.bar2Ep a n
  · exact ⟨congrArg (· ++ _) out, tx⟩
  · refine ⟨congrArg (· ++ _) ((out_count v _ _).trans out), ?_⟩
    calc ((v.count .HEP_CNT_EP_TX 0).complete 0 .ep _).reg .HEP_CNT_EP_TX 0 0
        = (v.count .HEP_CNT_EP_TX 0).reg .HEP_CNT_EP_TX 0 0 := reg_send _ _ _ _ _
      _ = counted (v.reg .HEP_CNT_EP_TX 0 0) := count_reg _ _ _ regOk_epTx
      _ = counted (s.reg .HEP_CNT_EP_TX 0 0) := congrArg counted tx

/-! ## Writes -/

/-- What a write of BAR2 makes of DRAM rests on DRAM alone. -/
theorem Bar2Written.of_dram {a : Nat} {data : List Byte} {ep : Bool} {s v t : State} (h : Bar2Written a data ep v t)
    (e : v.dram = s.dram) : Bar2Written a data ep s t := by
  have byte : v.dramByte = s.dramByte := funext fun x => congrArg (fun d : Dram => Mem.read d.bytes x) e
  have poisoned : v.poisoned = s.poisoned := funext fun x => congrArg (fun d : Dram => SMap.get (fun _ => false) d.poison x) e
  have windowed : v.windowed = s.windowed := by
    unfold State.windowed
    rw [e]
  have opens : v.opens = s.opens := by
    unfold State.opens
    rw [windowed]
  obtain ⟨kept, stored, lost, marked, cleared, asBefore⟩ := h
  rw [opens, byte] at kept
  rw [opens, windowed, poisoned] at stored
  rw [opens, windowed, poisoned, byte] at lost
  rw [opens] at marked cleared
  rw [opens, poisoned] at asBefore
  exact ⟨kept, stored, lost, marked, cleared, asBefore⟩

/-- What the write of BAR2 does of itself, whether or not it bears EP (R388). -/
theorem epNoted_dram (s : State) (ep : Bool) : (if ep then s.epWrite 0 else s).dram = s.dram := by
  cases ep
  · rfl
  · exact (epWrite_keeps (.refl s) 0 (Within.mem _)).dram_eq (by decide)

theorem bar2Write_plain {s : State} (a : Nat) (data : List Byte) (ep : Bool) (plain : s.ldr.state ≠ .loading) :
    Bar2Written a data ep s (s.bar2Write a data ep) := by
  unfold State.bar2Write
  dsimp only
  rw [if_neg plain]
  exact (bar2Blocks_written _ a data ep).of_dram (epNoted_dram s ep)

/-- Under a load a write is done or lost (R322). -/
theorem bar2Write_loading {s : State} (a : Nat) (data : List Byte) (ep : Bool) (loading : s.ldr.state = .loading) :
    Bar2Written a data ep s (s.bar2Write a data ep) ∨ (s.bar2Write a data ep).dram = s.dram := by
  unfold State.bar2Write
  dsimp only
  rw [if_pos loading]
  have same := epNoted_dram s ep
  generalize (if ep = true then s.epWrite 0 else s) = v at same ⊢
  by_cases done : Config.freeValue v.freeIdx % 2 = 0
  · rw [if_pos done]
    exact .inl ((bar2Blocks_written _ a data ep).of_dram same)
  · rw [if_neg done]
    exact .inr same

/-! ## Where a request of BAR2 goes (Table 14.5) -/

theorem bar2_spec {s : State} {off n : Nat} {posted : Bool} {f : State → State} :
    (dramSize s.dev.part ≤ off → s.bar2 off n posted f = if posted then s else s.answer 0 n 0) ∧
    (off < dramSize s.dev.part → (s.dev.recovery = 0x8009#16 ∨ s.dev.dramMode ≠ .running) →
      (s.bar2 off n posted f = s.answerCa 0 posted ∧ s.dev.recovery = 0x8009#16 ∨
        s.bar2 off n posted f = s.selfRefreshReject off posted ∧ s.dev.recovery ≠ 0x8009#16)) ∧
    (off < dramSize s.dev.part → ¬ (s.dev.recovery = 0x8009#16 ∨ s.dev.dramMode ≠ .running) → s.bar2 off n posted f = f s) := by
  unfold State.bar2
  refine ⟨fun past => if_pos past, fun inside rejects => ?_, fun inside takes => ?_⟩
  · rw [if_neg (by omega)]
    by_cases bad : s.dev.recovery = 0x8009#16
    · exact .inl ⟨if_pos bad, bad⟩
    · exact .inr ⟨(if_neg bad).trans (if_pos (rejects.resolve_left bad)), bad⟩
  · obtain ⟨good, running⟩ := not_or.1 takes
    rw [if_neg (by omega)]
    exact (if_neg good).trans (if_neg running)

theorem exec_bar2Read {s : State} {off n : Nat} (alive : s.linkAlive = true) (mem : s.memEnabled 0 = true)
    (inside : s.inBar 0 2 off n = true) :
    exec (.hostMemoryRequest 0 2 off (.read n)) s = .next (s.bar2 off n false fun s => s.request (.hostRead off n)) :=
  (exec_hostRead alive mem inside).trans rfl

theorem exec_bar2Write {s : State} {off : Nat} {data : List Byte} (ep : Bool) (alive : s.linkAlive = true)
    (mem : s.memEnabled 0 = true) (inside : s.inBar 0 2 off data.length = true) :
    exec (.hostMemoryRequest 0 2 off (.write data ep)) s =
      .next (s.bar2 off data.length true fun s => s.request (.hostWrite off data ep)) :=
  (exec_hostWrite ep alive mem inside).trans rfl

theorem request_held {s : State} {q : DramReq} (h : s.serves q = false) : s.request q = s.hold q := if_neg (by simp [h])

theorem request_served {s : State} {q : DramReq} (h : s.serves q = true) : s.request q = s.perform q := if_pos h

/-- Settles O25: a read by its byte, a write by the blocks of it in turn. -/
theorem hostAccessToDram : Obligations.HostAccessToDram := by
  intro off s alive mem
  dsimp only
  refine ⟨fun n inside => ?_, fun data ep inside => ?_⟩
  · have ran := exec_bar2Read alive mem inside
    obtain ⟨past, aborts, goes⟩ := bar2_spec (s := s) (off := off) (n := n) (posted := false) (f := fun s => s.request (.hostRead off n))
    by_cases beyond : dramSize s.dev.part ≤ off
    · rw [past beyond] at ran
      have only := (answer_keeps (.refl s) 0 n 0 (Within.mem _)).changesOnly
      exact ⟨_, ran, only.mono (by decide +kernel), fun _ => ⟨rfl, only.mono (by decide)⟩, fun h => by omega⟩
    by_cases rejects : s.dev.recovery = 0x8009#16 ∨ s.dev.dramMode ≠ .running
    · obtain ⟨out, -, told, dram, refused, only⟩ := rejected_spec false (aborts (by omega) rejects)
      exact ⟨_, ran, only.mono (by decide +kernel), fun h => absurd h beyond, fun _ => ⟨fun _ => ⟨out rfl, told, dram, refused⟩,
        fun h => absurd rejects h, fun h => absurd rejects h⟩⟩
    rw [goes (by omega) rejects] at ran
    cases served : s.serves (.hostRead off n) with
    | false =>
      rw [request_held served] at ran
      exact ⟨_, ran, (hold_keeps (.refl s) _ (Within.mem _)).changesOnly.mono (by decide +kernel), fun h => absurd h beyond,
        fun _ => ⟨fun h => absurd h rejects, fun _ _ => rfl, fun _ h => by cases h⟩⟩
    | true =>
      rw [request_served served] at ran
      have k := bar2Read_keeps (.refl s) off n (Within.mem _)
      refine ⟨_, ran, k.changesOnly.mono (by decide +kernel), fun h => absurd h beyond,
        fun _ => ⟨fun h => absurd h rejects, (by rintro _ ⟨⟩), fun _ _ => ⟨k.dram.held.resolve_left (by decide),
          bar2Read_loading off n, fun plain => ?_⟩⟩⟩
      obtain ⟨sent, tx⟩ := bar2Read_plain off n plain
      have bytes : s.bar2Byte = fun a => if s.windowed a = true ∨ s.poisoned (a / 64) = true then 0xFF#8 else s.dramByte a :=
        funext fun a => by simp only [State.bar2Byte, Bool.or_eq_true]
      rw [bytes] at sent
      exact ⟨sent, tx⟩
  · have ran := exec_bar2Write ep alive mem inside
    obtain ⟨past, aborts, goes⟩ :=
      bar2_spec (s := s) (off := off) (n := data.length) (posted := true) (f := fun s => s.request (.hostWrite off data ep))
    by_cases beyond : dramSize s.dev.part ≤ off
    · rw [past beyond] at ran
      exact ⟨s, ran, (Keeps.refl s).changesOnly, fun _ => rfl, fun h => by omega⟩
    by_cases rejects : s.dev.recovery = 0x8009#16 ∨ s.dev.dramMode ≠ .running
    · obtain ⟨-, quiet, told, dram, refused, only⟩ := rejected_spec true (aborts (by omega) rejects)
      exact ⟨_, ran, (only.silent (quiet rfl)).mono (by decide +kernel), fun h => absurd h beyond, fun _ => ⟨fun _ => ⟨told, dram, refused⟩,
        fun h => absurd rejects h, fun h => absurd rejects h⟩⟩
    rw [goes (by omega) rejects] at ran
    cases served : s.serves (.hostWrite off data ep) with
    | false =>
      rw [request_held served] at ran
      exact ⟨_, ran, (hold_keeps (.refl s) _ (Within.mem _)).changesOnly.mono (by decide +kernel), fun h => absurd h beyond,
        fun _ => ⟨fun h => absurd h rejects, fun _ _ => rfl, fun _ h => by cases h⟩⟩
    | true =>
      rw [request_served served] at ran
      have k := bar2Write_keeps (.refl s) off data ep (Within.mem _)
      refine ⟨_, ran, k.changesOnly.mono (by decide +kernel), fun h => absurd h beyond,
        fun _ => ⟨fun h => absurd h rejects, (by rintro _ ⟨⟩), fun _ _ => ⟨k.dram.held.resolve_left (by decide), ?_, fun plain => ?_⟩⟩⟩
      · intro a closed
        by_cases loading : s.ldr.state = .loading
        · rcases bar2Write_loading off data ep loading with wrote | same
          · exact wrote.kept a closed
          · exact congrArg (fun d : Dram => Mem.read d.bytes a) same
        · exact (bar2Write_plain off data ep loading).kept a closed
      · obtain ⟨-, stored, lost, marked, cleared, asBefore⟩ := bar2Write_plain off data ep plain
        exact ⟨fun j b at_ opens => ⟨stored j b at_ opens, lost j b at_ opens⟩, marked, cleared, asBefore⟩

end Sys2Proof.Machine
end

section
/-! SUPPORT. Entries of a registry scan and what they make of their rills (R200 to R204; obligation O50). -/

set_option Elab.async false

namespace Sys2Proof.Machine

/-! ## Tables -/

theorem SMap.get_unlisted {α : Type} {d : Nat → α} {m : SMap α} {k : Nat} (h : k ∉ m.map Prod.fst) : SMap.get d m k = d k := by
  induction m with
  | nil => rfl
  | cons x m ih =>
    obtain ⟨a, v⟩ := x
    rw [List.map_cons, List.mem_cons, not_or] at h
    exact (if_neg (Ne.symm h.1)).trans (ih h.2)

theorem SMap.find?_listed {α : Type} {m : SMap α} {k : Nat} (h : k ∈ m.map Prod.fst) : (SMap.find? m k).isSome = true := by
  induction m with
  | nil => cases h
  | cons x m ih =>
    obtain ⟨a, v⟩ := x
    by_cases here : a = k
    · exact (congrArg Option.isSome (if_pos here)).trans rfl
    · exact (congrArg Option.isSome (if_neg here)).trans (ih ((List.mem_cons.1 h).resolve_left (Ne.symm here)))

theorem decCtx_congr {s t : State} (h : t.ing.ctxs = s.ing.ctxs) (c : Nat) : t.decCtx c = s.decCtx c :=
  congrArg (SMap.find? · c) h

/-! ## Rills but for their last status -/

/-- A rill is as it was, but for its last status (R197). -/
def Rill.Noted (x y : Rill) : Prop := y = { x with lastStatus := y.lastStatus }

theorem Rill.Noted.of_eq {x y : Rill} (h : y = x) : Rill.Noted x y := by
  subst h
  rfl

theorem Rill.Noted.trans {x y z : Rill} (h : Rill.Noted x y) (g : Rill.Noted y z) : Rill.Noted x z := by
  unfold Rill.Noted at *
  rw [h] at g
  exact g

theorem Rill.Noted.st {x y : Rill} (h : Rill.Noted x y) : y.st = x.st := by
  unfold Rill.Noted at h
  rw [h]

theorem attachEvent_noted (s : State) (st : W16) (r i q k : Nat) : Rill.Noted (s.rill k) ((s.attachEvent st r i q).rill k) := by
  unfold State.attachEvent Rill.Noted
  rw [ingestEvent_rill]
  split <;> rfl

theorem attachEvent_other (s : State) (st : W16) {r i q k : Nat} (h : k ≠ r ∨ st = 0) : (s.attachEvent st r i q).rill k = s.rill k := by
  unfold State.attachEvent
  rw [ingestEvent_rill]
  exact if_neg fun on => h.elim (fun ne => ne on.1) on.2.1

theorem attachEvent_ctxs (s : State) (st : W16) (r i q : Nat) : (s.attachEvent st r i q).ing.ctxs = s.ing.ctxs :=
  (attachEvent_keeps (.refl s) st r i q (Within.mem _)).ing.ctxs.resolve_left (by decide)

theorem statusRecord_ing (s : State) (r : Nat) : (s.statusRecord r).ing = s.ing :=
  (statusRecord_keeps (.refl s) r (Within.mem _)).ing_eq (by decide)

theorem statusOf_ing (s : State) (x : Rill) : (s.statusOf x).ing = s.ing :=
  (statusOf_keeps (.refl s) x (Within.mem _)).ing_eq (by decide)

/-! ## Detach, refuse, attach -/

/-- A rill that is detached drains (R204). -/
theorem detach_rill (s : State) (r k : Nat) :
    (s.detach r).rill k = if k = r then { s.rill r with st := .draining } else s.rill k := by
  unfold State.detach
  rw [statusRecord_rill, rill_updRill]

theorem detach_ctxs (s : State) (r : Nat) : (s.detach r).ing.ctxs = s.ing.ctxs :=
  (detach_keeps (.refl s) r (Within.mem _)).ing.ctxs.resolve_left (by decide)

/-- A refused attach (R203). -/
theorem refuseAttach_rill (s : State) (i : Nat) (e : RegEntry) (st : W16) :
    (e.rillId < 512 → (s.refuseAttach i e st).rill e.rillId = { Rill.of i e .refused (s.rill e.rillId).att with lastStatus := st }) ∧
    (∀ k, k ≠ e.rillId → (s.refuseAttach i e st).rill k = s.rill k) ∧ (s.refuseAttach i e st).ing.ctxs = s.ing.ctxs := by
  refine ⟨fun low => ?_, fun k ne => ?_, (refuseAttach_keeps (.refl s) i e st (Within.mem _)).ing.ctxs.resolve_left (by decide)⟩
  · unfold State.refuseAttach
    dsimp only
    rw [if_pos low]
    generalize mid_eq : (ite (e.statusAddr % 64 = 0) _ _) = mid
    have there : mid.rill e.rillId = { Rill.of i e .refused (s.rill e.rillId).att with lastStatus := st } := by
      subst mid_eq
      split
      · exact (rill_congr (congrArg Ingest.rills (statusOf_ing _ _)) _).trans (rill_setRill_self _ _ _)
      · exact rill_setRill_self _ _ _
    unfold State.attachEvent
    rw [ingestEvent_rill, there]
    split <;> rfl
  · unfold State.refuseAttach
    dsimp only
    rw [attachEvent_other _ _ (.inl ne)]
    have put : (ite (e.rillId < 512) (s.setRill e.rillId { Rill.of i e .refused (s.rill e.rillId).att with lastStatus := st }) s).rill k =
        s.rill k := by
      split
      · rw [rill_setRill, if_neg ne]
      · rfl
    split
    · exact (rill_congr (congrArg Ingest.rills (statusOf_ing _ _)) _).trans put
    · exact put

/-- A decode context given to a rill (R203). -/
def State.givenTo (s : State) (c r : Nat) : State :=
  match s.decCtx c with
  | some d => s.setDecCtx c { d.freed with rill := some r }
  | none => s

theorem givenTo_rills (s : State) (c r : Nat) : (s.givenTo c r).ing.rills = s.ing.rills := by
  unfold State.givenTo
  split <;> rfl

theorem givenTo_ctx {s : State} {c : Nat} (r : Nat) (some_ : (s.decCtx c).isSome = true) :
    ((s.givenTo c r).decCtx c).bind (·.rill) = some r := by
  obtain ⟨d, found⟩ := Option.isSome_iff_exists.1 some_
  unfold State.givenTo
  rw [found]
  dsimp only
  rw [decCtx_setDecCtx, if_pos rfl]
  rfl

/-- A rill that attaches, with the new life of its track numbers (R203, R204). -/
def State.attached (s : State) (i : Nat) (e : RegEntry) (c : Nat) : State :=
  let t := s.rillTrk e.rillId
  (s.setRill e.rillId { Rill.of i e .attached ((s.rill e.rillId).att + 1) with ctx := some c }).setRillTrk e.rillId
    { RillTrk.reset with nextId := t.nextId, running := t.running, lastFrame := t.lastFrame, rulesSeen := t.rulesSeen, discs := t.discs }

theorem attached_rill (s : State) (i : Nat) (e : RegEntry) (c k : Nat) : (s.attached i e c).rill k =
    if k = e.rillId then { Rill.of i e .attached ((s.rill e.rillId).att + 1) with ctx := some c } else s.rill k := rill_setRill _ _ _ _

theorem attachTo_eq (s : State) (i : Nat) (e : RegEntry) (c : Nat) : s.attachTo i e c =
    ((((s.attached i e c).givenTo c e.rillId).statusRecord e.rillId).attachEvent 0 e.rillId i e.seq) := rfl

/-- An attach that succeeds (R203). -/
theorem attachTo_rill (s : State) (i : Nat) (e : RegEntry) (c : Nat) :
    (∀ k, (s.attachTo i e c).rill k =
      if k = e.rillId then { Rill.of i e .attached ((s.rill e.rillId).att + 1) with ctx := some c } else s.rill k) ∧
    ((s.decCtx c).isSome = true → ((s.attachTo i e c).decCtx c).bind (·.rill) = some e.rillId) := by
  rw [attachTo_eq]
  refine ⟨fun k => ?_, fun some_ => ?_⟩
  · rw [attachEvent_other _ _ (.inr rfl), statusRecord_rill, rill_congr (givenTo_rills _ _ _), attached_rill]
  · rw [decCtx_congr (attachEvent_ctxs _ _ _ _ _), decCtx_congr (congrArg Ingest.ctxs (statusRecord_ing _ _))]
    exact givenTo_ctx _ some_

/-- The context that an attach takes is one of those of the image (R48, R203). -/
theorem attachCheck_ctx {s : State} {e : RegEntry} {c : Nat} (h : s.attachCheck e = .inr c) : (s.decCtx c).isSome = true := by
  unfold State.attachCheck at h
  have free : s.freeContext (s.admitted e.classId e.function) = some c := by
    split at h
    · cases h
    split at h
    · cases h
    dsimp only at h
    split at h
    · cases h
    split at h
    · cases h
    split at h
    · next d found =>
      cases h
      exact found
    · cases h
  unfold State.freeContext at free
  dsimp only at free
  obtain ⟨x, first, rfl⟩ := Option.map_eq_some_iff.1 free
  have listed : x ∈ s.ing.ctxs := (List.mem_filter.1 ((mem_sortBy _ _ _).1 (List.mem_of_head? first))).1
  exact SMap.find?_listed (List.mem_map.2 ⟨x, listed, rfl⟩)

/-! ## The action of an entry (Table 8.5) -/

theorem attach_other (s : State) (i : Nat) (e : RegEntry) {k : Nat} (ne : k ≠ e.rillId) : (s.attach i e).rill k = s.rill k := by
  unfold State.attach
  cases s.attachCheck e with
  | inl st => exact (refuseAttach_rill s i e st).2.1 k ne
  | inr c => exact ((attachTo_rill s i e c).1 k).trans (if_neg ne)

theorem scanAct_other (s : State) (i : Nat) (e : RegEntry) {k : Nat} (ne : k ≠ e.rillId) : (s.scanAct i e).rill k = s.rill k := by
  have detached : (s.detach e.rillId).rill k = s.rill k := (detach_rill s _ k).trans (if_neg ne)
  unfold State.scanAct
  dsimp only
  cases (s.rill e.rillId).st with
  | draining => exact (rill_setRill _ _ _ _).trans (if_neg ne)
  | detached =>
    dsimp only
    split
    · exact attach_other s i e ne
    · rfl
  | refused =>
    dsimp only
    split
    · exact attach_other s i e ne
    · rfl
  | attached | faulted =>
    dsimp only
    split
    · exact detached
    split
    · rfl
    · rw [rill_updRill, if_neg ne, detached]

/-- What an entry makes of its own rill (Table 8.5). -/
theorem scanAct_own (s : State) (i : Nat) (e : RegEntry) :
    let x := s.rill e.rillId
    let held := x.st = .attached ∨ x.st = .faulted
    (bitAt e.flags 0 = true → (s.fn e.function).flr = .idle → (x.st = .detached ∨ x.st = .refused) → s.scanAct i e = s.attach i e) ∧
    ((bitAt e.flags 0 = false ∨ (s.fn e.function).flr ≠ .idle) → (x.st = .detached ∨ x.st = .refused) → s.scanAct i e = s) ∧
    (bitAt e.flags 0 = false → held → ((s.scanAct i e).rill e.rillId).st = .draining) ∧
    (bitAt e.flags 0 = true → held → e.seq = x.seq → s.scanAct i e = s) ∧
    (bitAt e.flags 0 = true → held → e.seq ≠ x.seq →
      ((s.scanAct i e).rill e.rillId).st = .draining ∧ ((s.scanAct i e).rill e.rillId).recorded = some (i, e)) ∧
    (x.st = .draining → (s.scanAct i e).rill e.rillId = { x with recorded := some (i, e) }) := by
  have detached : (s.detach e.rillId).rill e.rillId = { s.rill e.rillId with st := .draining } := (detach_rill s _ _).trans (if_pos rfl)
  dsimp only
  unfold State.scanAct
  dsimp only
  refine ⟨fun on idle free => ?_, fun off free => ?_, fun off held => ?_, fun on held same => ?_, fun on held changed => ?_, fun drains => ?_⟩
  · rcases free with st | st <;> rw [st] <;> exact if_pos (by simp [on, idle])
  · have not : ¬ (bitAt e.flags 0 && (s.fn e.function).flr == .idle) = true := by
      rw [Bool.and_eq_true, beq_iff_eq]
      rintro ⟨on, idle⟩
      exact off.elim (fun h => by rw [on] at h; cases h) (fun h => h idle)
    rcases free with st | st <;> rw [st] <;> exact if_neg not
  · rcases held with st | st <;> rw [st] <;> dsimp only <;> rw [if_pos (by rw [off]; rfl), detached]
  · rcases held with st | st <;> rw [st] <;> dsimp only <;> rw [if_neg (by simp [on]), if_pos same]
  · rcases held with st | st <;> rw [st] <;> dsimp only <;>
      rw [if_neg (by simp [on]), if_neg changed, rill_updRill, if_pos rfl, detached] <;> exact ⟨rfl, rfl⟩
  · rw [drains]
    exact rill_setRill_self _ _ _

/-! ## The entries in turn -/

theorem hostRead_ing (s : State) (n : Nat) : (s.hostRead n).ing = s.ing := (hostRead_keeps (.refl s) n (Within.mem _)).ing_eq (by decide)

/-- A rill that an entry has named is told of a later one by its last status alone (R201). -/
theorem entry_named (p : Scan) (i : Nat) (x : ReadRes (List Byte)) {r : Nat} (named : r ∈ p.named) :
    Rill.Noted (p.s.rill r) ((p.entry i x).s.rill r) ∧ r ∈ (p.entry i x).named := by
  unfold Scan.entry
  cases x with
  | failed => exact ⟨.of_eq (rill_congr (congrArg Ingest.rills (readFailed_ing _ _ _ _ _)) r), named⟩
  | timedOut => exact ⟨.of_eq (rill_congr (congrArg Ingest.rills (readFailed_ing _ _ _ _ _)) r), named⟩
  | ok bs =>
    have read : (p.s.hostRead 64).rill r = p.s.rill r := rill_congr (congrArg Ingest.rills (hostRead_ing _ _)) r
    dsimp only
    split
    · exact ⟨.of_eq read, named⟩
    split
    · exact ⟨read ▸ attachEvent_noted _ _ _ _ _ r, named⟩
    · next fresh =>
      have other : r ≠ (readEntry bs).rillId := by
        rintro rfl
        exact fresh (List.contains_iff_mem.2 named)
      exact ⟨.of_eq ((scanAct_other _ _ _ other).trans read), List.mem_cons_of_mem _ named⟩

theorem entries_named (p : Scan) (xs : List (Nat × ReadRes (List Byte))) {r : Nat} (named : r ∈ p.named) :
    Rill.Noted (p.s.rill r) ((p.entries xs).s.rill r) ∧ r ∈ (p.entries xs).named := by
  induction xs generalizing p with
  | nil => exact ⟨.of_eq rfl, named⟩
  | cons x xs ih =>
    obtain ⟨noted, still⟩ := entry_named p x.1 x.2 named
    obtain ⟨later, end_⟩ := ih (p.entry x.1 x.2) still
    exact ⟨noted.trans later, end_⟩

/-- Where every entry reads even, a scan names entries' rills alone and passes none over. -/
theorem entries_read {p : Scan} {xs : List (Nat × ReadRes (List Byte))} (even : ∀ x ∈ xs, ∃ bs, x.2 = .ok bs ∧ (readEntry bs).seq % 2 = 0)
    (kept : p.kept = []) :
    (p.entries xs).kept = [] ∧
      ∀ r ∈ (p.entries xs).named, r ∈ p.named ∨ ∃ x ∈ xs, ∃ bs, x.2 = .ok bs ∧ (readEntry bs).rillId = r := by
  induction xs generalizing p with
  | nil => exact ⟨kept, fun r m => .inl m⟩
  | cons x xs ih =>
    obtain ⟨bs, read, par⟩ := even x List.mem_cons_self
    have step : (p.entry x.1 x.2).kept = [] ∧ ∀ r ∈ (p.entry x.1 x.2).named, r ∈ p.named ∨ (readEntry bs).rillId = r := by
      rw [read]
      unfold Scan.entry
      dsimp only
      rw [if_neg (by omega)]
      split
      · exact ⟨kept, fun r m => .inl m⟩
      · exact ⟨kept, fun r m => (List.mem_cons.1 m).elim (fun h => .inr h.symm) .inl⟩
    obtain ⟨none_, names⟩ := ih (fun y m => even y (List.mem_cons_of_mem _ m)) step.1
    refine ⟨none_, fun r m => ?_⟩
    rcases names r m with before | ⟨y, my, more⟩
    · exact (step.2 r before).imp_right fun h => ⟨x, List.mem_cons_self, bs, read, h⟩
    · exact .inr ⟨y, List.mem_cons_of_mem _ my, more⟩

/-! ## The rills that no entry names (R202) -/

theorem detachUnnamed_named (s : State) {named kept : List Nat} (rs : List Nat) {r : Nat} (m : r ∈ named) :
    (s.detachUnnamed named kept rs).rill r = s.rill r := by
  induction rs generalizing s with
  | nil => rfl
  | cons k rs ih =>
    unfold State.detachUnnamed
    dsimp only
    rw [ih]
    split
    · next gone =>
      simp only [Bool.and_eq_true, Bool.not_eq_true', List.contains_eq_mem, decide_eq_false_iff_not] at gone
      exact (detach_rill s k r).trans (if_neg fun h : r = k => gone.1.2 (h ▸ m))
    · rfl

/-- A rill that is polled or has faulted (R195, R202). -/
def Rill.held (x : Rill) : Prop := x.st = .attached ∨ x.st = .faulted

theorem detachUnnamed_held {s : State} {named kept : List Nat} {rs : List Nat} {r : Nat}
    (h : ((s.detachUnnamed named kept rs).rill r).held) : (s.rill r).held := by
  induction rs generalizing s with
  | nil => exact h
  | cons k rs ih =>
    unfold State.detachUnnamed at h
    have before := ih h
    split at before
    · rw [detach_rill] at before
      split at before
      · rcases before with h | h <;> cases h
      · exact before
    · exact before

theorem detachUnnamed_gone {s : State} {named : List Nat} {rs : List Nat} {r : Nat} (m : r ∈ rs)
    (h : ((s.detachUnnamed named [] rs).rill r).held) : r ∈ named := by
  induction rs generalizing s with
  | nil => cases m
  | cons k rs ih =>
    unfold State.detachUnnamed at h
    dsimp only at h
    rcases List.mem_cons.1 m with rfl | later
    · by_contra out
      have before := detachUnnamed_held h
      split at before
      · rw [detach_rill, if_pos rfl] at before
        rcases before with h | h <;> cases h
      · next not =>
        refine not ?_
        have polled : ((s.rill r).st == .attached || (s.rill r).st == .faulted) = true := by
          rcases before with h | h <;> simp [h]
        simp [polled, out]
    · exact ih later h

end Sys2Proof.Machine
end

section
/-! SUPPORT. REGISTRY_SCAN (R200 to R204, R391; obligation O50). -/

set_option Elab.async false

namespace Sys2Proof.Machine

theorem regOk_scanSeq : regOk .INGEST_SCAN_SEQ 0 0 = true := by decide +kernel

theorem indexed_cons {α : Type} (x : α) (xs : List α) : ∃ ys, indexed (x :: xs) = (0, x) :: ys ∧ (xs = [] → ys = []) := by
  unfold indexed
  rw [List.length_cons, List.range_succ_eq_map, List.zip_cons_cons]
  exact ⟨_, rfl, by rintro rfl; rfl⟩

/-- A scan before its first entry. -/
def State.scanStart (s : State) : Scan := { s := s, named := [], kept := [] }

/-- What a scan that is complete leaves (R202). -/
def Scan.ended (q : Scan) : State :=
  ((q.s.detachUnnamed q.named q.kept (q.s.ing.rills.map (·.1))).setScanPending false).updReg .INGEST_SCAN_SEQ 0 0
    (fun v => (v + 1) &&& 0xFFFFFFFF#64)

/-- Whether a scan falls due (R200, Table 8.13). -/
def State.scanDue (s : State) : Prop :=
  s.imageLoaded = true ∧ s.regBit .INGEST_CTRL 0 0 0 = true ∧ (s.regNat .INGEST_SCAN_MS 0 0 ≠ 0 ∨ s.ing.scanPending = true)

theorem exec_registryScan (es : List (ReadRes (List Byte))) (stopAt : Option Nat) (s : State) :
    let n := min 512 (s.regNat .INGEST_REG_COUNT 0 0)
    (¬ s.scanDue → exec (.registryScan es stopAt) s = .next s) ∧
    (s.scanDue → s.canMaster 0 = false → exec (.registryScan es stopAt) s = .next (s.setScanPending true)) ∧
    (∀ k, s.scanDue → s.canMaster 0 = true → stopAt = some k →
      (es.length = k ∧ k < n → exec (.registryScan es stopAt) s = .next ((s.scanStart.entries (indexed es)).s.setScanPending true)) ∧
      (¬ (es.length = k ∧ k < n) → exec (.registryScan es stopAt) s = .next s)) ∧
    (s.scanDue → s.canMaster 0 = true → stopAt = none →
      (es.length ≠ n → exec (.registryScan es stopAt) s = .next s) ∧
      (es.length = n → exec (.registryScan es stopAt) s = .next (s.scanStart.entries (indexed es)).ended)) := by
  dsimp only
  have test : (s.imageLoaded && s.regBit .INGEST_CTRL 0 0 0 && (s.regNat .INGEST_SCAN_MS 0 0 != 0 || s.ing.scanPending)) = true ↔
      s.scanDue := by
    unfold State.scanDue
    simp only [Bool.and_eq_true, Bool.or_eq_true, bne_iff_ne, and_assoc]
  change (_ → execRegistryScan es stopAt s = _) ∧ (_ → _ → execRegistryScan es stopAt s = _) ∧
    (∀ k, _ → _ → _ → (_ → execRegistryScan es stopAt s = _) ∧ (_ → execRegistryScan es stopAt s = _)) ∧
    (_ → _ → _ → (_ → execRegistryScan es stopAt s = _) ∧ (_ → execRegistryScan es stopAt s = _))
  unfold execRegistryScan
  refine ⟨fun off => congrArg _ (when_neg s (mt test.1 off) _), fun due bar => ?_, ?_, ?_⟩
  · rw [when_eq s (test.2 due)]
    simp only [bar]
    rfl
  · rintro k due may rfl
    rw [when_eq s (test.2 due)]
    simp only [may, Bool.not_true, Bool.false_eq_true, if_false]
    exact ⟨fun h => congrArg _ (when_eq s (decide_eq_true h) _), fun h => congrArg _ (when_neg s (mt of_decide_eq_true h) _)⟩
  · rintro due may rfl
    rw [when_eq s (test.2 due)]
    simp only [may, Bool.not_true, Bool.false_eq_true, if_false]
    exact ⟨fun h => congrArg _ (when_neg s (mt of_decide_eq_true h) _), fun h => congrArg _ (when_eq s (decide_eq_true h) _)⟩

/-- The state of a scan's end (R202). -/
theorem ended_spec (q : Scan) :
    q.ended.ing.scanPending = false ∧ q.ended.ing.ctxs = q.s.ing.ctxs ∧
    q.ended.reg .INGEST_SCAN_SEQ 0 0 = (q.s.reg .INGEST_SCAN_SEQ 0 0 + 1) &&& 0xFFFFFFFF#64 ∧
    (∀ r ∈ q.named, q.ended.rill r = q.s.rill r) ∧
    (q.kept = [] → ∀ r, (q.ended.rill r).held → r ∈ q.named) := by
  unfold Scan.ended
  have k := detachUnnamed_keeps (.refl q.s) q.named q.kept (q.s.ing.rills.map (·.1)) (Within.mem _)
  have rills : ∀ v : State, ((v.setScanPending false).updReg .INGEST_SCAN_SEQ 0 0 fun v => (v + 1) &&& 0xFFFFFFFF#64).ing =
      { v.ing with scanPending := false } := fun v => by simp [State.setScanPending]
  have seen : ∀ (v : State) (r : Nat),
      ((v.setScanPending false).updReg .INGEST_SCAN_SEQ 0 0 fun v => (v + 1) &&& 0xFFFFFFFF#64).rill r = v.rill r := fun v r =>
    rill_congr (by rw [rills]) r
  refine ⟨by rw [rills], ?_, ?_, fun r m => ?_, fun none_ r held => ?_⟩
  · rw [rills]
    exact k.ing.ctxs.resolve_left (by decide)
  · rw [updReg_reg _ _ _ _ _ regOk_scanSeq]
    refine congrArg (fun v => (v + 1) &&& 0xFFFFFFFF#64) ?_
    exact (reg_congr rfl _ _ _).trans (k.reg_eq (by decide) (by decide) regOk_scanSeq)
  · exact (seen _ r).trans (detachUnnamed_named _ _ m)
  · rw [seen, none_] at held
    refine detachUnnamed_gone (s := q.s) ?_ held
    by_contra out
    have before : (q.s.rill r).held := detachUnnamed_held held
    rw [show q.s.rill r = Rill.reset from SMap.get_unlisted out] at before
    rcases before with h | h <;> cases h

/-- The first entry of a scan, read even (R201, R202). -/
theorem entry_first (s : State) {bs : List Byte} (even : (readEntry bs).seq % 2 = 0) : s.scanStart.entry 0 (.ok bs) =
    { s := (s.hostRead 64).scanAct 0 (readEntry bs), named := [(readEntry bs).rillId], kept := [] } := by
  unfold Scan.entry State.scanStart
  dsimp only
  rw [if_neg (by omega)]
  rfl

theorem attachCheck_congr {s t : State} (ldr : t.ldr = s.ldr) (fns : t.fns = s.fns) (pools : t.pools = s.pools)
    (ing : t.ing = s.ing) (e : RegEntry) : t.attachCheck e = s.attachCheck e := by
  unfold State.attachCheck State.rillClass State.admitted State.pool State.fnEnabled State.vfEnable State.numVfs State.fn
    State.activeRills State.freeContext
  rw [ldr, fns, pools, ing]

/-- What the first entry of a scan makes of its rill, seen at the scan's end, where it reads even (Tables 8.5, 8.6). -/
theorem firstEntry_spec {s : State} {bs : List Byte} {rest : List (ReadRes (List Byte))} (even : (readEntry bs).seq % 2 = 0) :
    let e := readEntry bs
    let u := s.hostRead 64
    let t := (s.scanStart.entries (indexed (.ok bs :: rest))).ended
    Rill.Noted ((u.scanAct 0 e).rill e.rillId) (t.rill e.rillId) ∧
    (rest = [] → t.rill e.rillId = (u.scanAct 0 e).rill e.rillId ∧ t.ing.ctxs = (u.scanAct 0 e).ing.ctxs) := by
  dsimp only
  obtain ⟨ys, list, alone⟩ := indexed_cons (.ok bs) rest
  rw [list]
  change Rill.Noted _ (((s.scanStart.entry 0 (.ok bs)).entries ys).ended.rill _) ∧
    (_ → ((s.scanStart.entry 0 (.ok bs)).entries ys).ended.rill _ = _ ∧ ((s.scanStart.entry 0 (.ok bs)).entries ys).ended.ing.ctxs = _)
  rw [entry_first s even]
  generalize first : ({ s := (s.hostRead 64).scanAct 0 (readEntry bs), named := [(readEntry bs).rillId], kept := [] } : Scan) = p
  have state : p.s = (s.hostRead 64).scanAct 0 (readEntry bs) := by rw [← first]
  have named : (readEntry bs).rillId ∈ p.named := by
    rw [← first]
    exact List.mem_cons_self
  obtain ⟨noted, still⟩ := entries_named p ys named
  obtain ⟨-, ctxs, -, seen, -⟩ := ended_spec (p.entries ys)
  rw [← state]
  refine ⟨noted.trans (.of_eq (seen _ still)), fun none_ => ?_⟩
  rw [alone none_] at *
  exact ⟨seen _ still, ctxs⟩

/-- REGISTRY_SCAN (R200 to R204, R391). -/
theorem registryScan_effect (es : List (ReadRes (List Byte))) (stopAt : Option Nat) (s : State) :
    completes (.registryScan es stopAt) (Comp.events ++ Comp.log ++ [.ingCtxs, .ingScanPending, .reg .HEP_CNT_CPLTO,
      .reg .HEP_CNT_RDFAIL, .reg .HEP_LAST_RDFAIL, .reg .HEP_LAST_RDFAIL_INFO, .reg .INGEST_SCAN_SEQ, .trkPerRill]) s (fun t =>
    let n := min 512 (s.regNat .INGEST_REG_COUNT 0 0)
    (¬ s.scanDue → t = s) ∧
    (s.scanDue → s.canMaster 0 = false → t = { s with ing := { s.ing with scanPending := true } }) ∧
    (∀ k, s.scanDue → s.canMaster 0 = true → stopAt = some k →
      if es.length = k ∧ k < n then t.ing.scanPending = true ∧ t.reg .INGEST_SCAN_SEQ 0 0 = s.reg .INGEST_SCAN_SEQ 0 0
      else t = s) ∧
    (s.scanDue → s.canMaster 0 = true → stopAt = none → es.length ≠ n → t = s) ∧
    (s.scanDue → s.canMaster 0 = true → stopAt = none → es.length = n → t = (s.scanStart.entries (indexed es)).ended)) := by
  have k := execRegistryScan_keeps (.refl s) es stopAt (Within.mem _)
  change KeepsOut _ s (exec (.registryScan es stopAt) s) at k
  obtain ⟨idle, pends, stops, runs⟩ := exec_registryScan es stopAt s
  by_cases due : s.scanDue
  case neg =>
    rw [idle due] at k
    exact completes_of (idle due) k (by decide +kernel) ⟨fun _ => rfl, fun h => absurd h due, fun _ h => absurd h due,
      fun h => absurd h due, fun h => absurd h due⟩
  cases may : s.canMaster 0 with
  | false =>
    have ran := pends due may
    rw [ran] at k
    exact completes_of ran k (by decide +kernel) ⟨fun h => absurd due h, fun _ _ => rfl, (by rintro _ _ ⟨⟩),
      (by rintro _ ⟨⟩), (by rintro _ ⟨⟩)⟩
  | true =>
    cases at_ : stopAt with
    | some j =>
      obtain ⟨on, off⟩ := stops j due may at_
      subst at_
      by_cases mid : es.length = j ∧ j < min 512 (s.regNat .INGEST_REG_COUNT 0 0)
      · have ran := on mid
        rw [ran] at k
        have e := Scan_entries_keeps (s := s.scanStart) (.refl s) (indexed es) (Within.mem _)
        refine completes_of ran k (by decide +kernel) ⟨fun h => absurd due h, (by rintro _ ⟨⟩), ?_, (by rintro _ _ ⟨⟩), (by rintro _ _ ⟨⟩)⟩
        rintro _ _ _ ⟨⟩
        rw [if_pos mid]
        exact ⟨rfl, e.reg_eq (by decide) (by decide) regOk_scanSeq⟩
      · have ran := off mid
        rw [ran] at k
        refine completes_of ran k (by decide +kernel) ⟨fun _ => rfl, (by rintro _ ⟨⟩), ?_, (by rintro _ _ ⟨⟩), (by rintro _ _ ⟨⟩)⟩
        rintro _ _ _ ⟨⟩
        rw [if_neg mid]
    | none =>
      obtain ⟨other, whole⟩ := runs due may at_
      subst at_
      by_cases len : es.length = min 512 (s.regNat .INGEST_REG_COUNT 0 0)
      · have ran := whole len
        rw [ran] at k
        exact completes_of ran k (by decide +kernel) ⟨fun h => absurd due h, (by rintro _ ⟨⟩), (by rintro _ _ _ ⟨⟩), fun _ _ _ h => absurd len h,
          fun _ _ _ _ => rfl⟩
      · have ran := other len
        rw [ran] at k
        exact completes_of ran k (by decide +kernel) ⟨fun _ => rfl, (by rintro _ ⟨⟩), (by rintro _ _ _ ⟨⟩), fun _ _ _ _ => rfl,
          fun _ _ _ h => absurd h len⟩

/-- A scan at its end: the rills that stay attached are named (R202). -/
theorem scanned_held {s : State} {es : List (ReadRes (List Byte))} (even : ∀ x ∈ es, ∃ bs, x = .ok bs ∧ (readEntry bs).seq % 2 = 0)
    {r : Nat} (held : ((s.scanStart.entries (indexed es)).ended.rill r).held) : ∃ bs, ReadRes.ok bs ∈ es ∧ (readEntry bs).rillId = r := by
  have each : ∀ x ∈ indexed es, x.2 ∈ es := fun x m => (List.of_mem_zip (show (x.1, x.2) ∈ _ from m)).2
  obtain ⟨none_, names⟩ := entries_read (p := s.scanStart) (fun x m => even x.2 (each x m)) rfl
  obtain ⟨-, -, -, -, gone⟩ := ended_spec (s.scanStart.entries (indexed es))
  rcases names r (gone none_ r held) with m | ⟨x, m, bs, read, id⟩
  · cases m
  · exact ⟨bs, read ▸ each x m, id⟩

/-- The first entry of a scan acts by its rill's state (Table 8.5). -/
theorem scanned_first {s : State} {bs : List Byte} {rest : List (ReadRes (List Byte))} (even : (readEntry bs).seq % 2 = 0) :
    let t := (s.scanStart.entries (indexed (.ok bs :: rest))).ended
    let e := readEntry bs
    let x := s.rill e.rillId
    let y := t.rill e.rillId
    let same := fun (z : Rill) => y = { z with lastStatus := y.lastStatus } ∧ (rest = [] → y = z)
    (bitAt e.flags 0 = true → (s.fn e.function).flr = .idle → (x.st = .detached ∨ x.st = .refused) →
      (∀ c, s.attachCheck e = .inr c → y.st = .attached ∧ y.ctx = some c ∧ y.fn = e.function ∧
        y.cls = e.classId ∧ y.ringAddr = e.ringAddr ∧ y.ringEntries = e.ringEntries ∧ y.statusAddr = e.statusAddr ∧
        y.tag = e.tag ∧ y.seq = e.seq ∧ y.readIndex = 0 ∧ y.nextIndex = 0 ∧ y.framesOut = 0 ∧ y.att = x.att + 1 ∧
        (rest = [] → (t.decCtx c).bind (·.rill) = some e.rillId)) ∧
      (∀ st, s.attachCheck e = .inl st → e.rillId < 512 →
        y.st = .refused ∧ (rest = [] → y.lastStatus = st ∧ t.ing.ctxs = s.ing.ctxs))) ∧
    (bitAt e.flags 0 = false → (x.st = .detached ∨ x.st = .refused) → same x) ∧
    (bitAt e.flags 0 = false → x.held → y.st = .draining) ∧
    (bitAt e.flags 0 = true → x.held → e.seq = x.seq → same x) ∧
    (bitAt e.flags 0 = true → x.held → e.seq ≠ x.seq → y.st = .draining ∧ y.recorded = some (0, e)) ∧
    (x.st = .draining → same { x with recorded := some (0, e) }) := by
  dsimp only
  obtain ⟨noted, alone⟩ := firstEntry_spec (s := s) (rest := rest) even
  generalize (s.scanStart.entries (indexed (.ok bs :: rest))).ended = t at noted alone ⊢
  generalize readEntry bs = e at noted alone ⊢
  have rill : (s.hostRead 64).rill e.rillId = s.rill e.rillId := rill_congr (congrArg Ingest.rills (hostRead_ing s 64)) _
  have k := hostRead_keeps (.refl s) 64 (Within.mem _)
  have check : (s.hostRead 64).attachCheck e = s.attachCheck e :=
    attachCheck_congr (k.ldr_eq (by decide)) (k.fns.resolve_left (by decide)) (k.pools.resolve_left (by decide)) (hostRead_ing s 64) e
  have fns : ((s.hostRead 64).fn e.function) = s.fn e.function :=
    congrArg (fun m => SMap.get (fun _ => FnState.reset) m e.function) (k.fns.resolve_left (by decide))
  have ctxs : (s.hostRead 64).ing.ctxs = s.ing.ctxs := congrArg Ingest.ctxs (hostRead_ing s 64)
  obtain ⟨attaches, rests, turnsOff, stays, changes, drains⟩ := scanAct_own (s.hostRead 64) 0 e
  rw [rill] at attaches rests turnsOff stays changes drains
  rw [fns] at attaches
  generalize s.hostRead 64 = u at *
  have same : ∀ z : Rill, (u.scanAct 0 e).rill e.rillId = z →
      t.rill e.rillId = { z with lastStatus := (t.rill e.rillId).lastStatus } ∧ (rest = [] → t.rill e.rillId = z) := by
    rintro z rfl
    exact ⟨noted, fun h => (alone h).1⟩
  refine ⟨fun on idle free => ⟨fun c passes => ?_, fun st fails low => ?_⟩, fun off free => ?_, fun off held => ?_, fun on held eq => ?_,
    fun on held ne => ?_, fun st => same _ (drains st)⟩
  · have eq : u.scanAct 0 e = u.attachTo 0 e c := by
      rw [attaches on idle free]
      unfold State.attach
      rw [check, passes]
    rw [eq] at noted alone
    obtain ⟨own, given⟩ := attachTo_rill u 0 e c
    rw [own, if_pos rfl, rill] at noted
    unfold Rill.Noted at noted
    rw [noted]
    refine ⟨rfl, rfl, rfl, rfl, rfl, rfl, rfl, rfl, rfl, rfl, rfl, rfl, rfl, fun h => ?_⟩
    rw [decCtx_congr (alone h).2]
    exact given ((decCtx_congr ctxs c ▸ attachCheck_ctx passes))
  · have eq : u.scanAct 0 e = u.refuseAttach 0 e st := by
      rw [attaches on idle free]
      unfold State.attach
      rw [check, fails]
    rw [eq] at noted alone
    obtain ⟨own, -, kept⟩ := refuseAttach_rill u 0 e st
    rw [own low] at noted alone
    exact ⟨noted.st, fun h => ⟨by rw [(alone h).1], (alone h).2.trans (kept.trans ctxs)⟩⟩
  · exact same _ ((congrArg (State.rill · e.rillId) (rests (.inl off) free)).trans rill)
  · exact noted.st.trans (turnsOff off held)
  · exact same _ ((congrArg (State.rill · e.rillId) (stays on held eq)).trans rill)
  · obtain ⟨st, kept⟩ := changes on held ne
    refine ⟨noted.st.trans st, Eq.trans ?_ kept⟩
    unfold Rill.Noted at noted
    rw [noted]

end Sys2Proof.Machine
end

section
/-! SUPPORT. Frames that leave decode, decode contexts given back, and RILL_DRAIN_COMPLETE (R204, R213, R222; obligation O50). -/

set_option Elab.async false

namespace Sys2Proof.Machine

/-! ## Frames that leave decode (R213, R222) -/

/-- A rill is as it was, but for what the frames it outputs count (R213, R225). -/
def Rill.Outputs (x y : Rill) : Prop :=
  y = { x with framesOut := y.framesOut, clock0 := y.clock0, clockN := y.clockN, discs := y.discs, lastCaptureTs := y.lastCaptureTs }

theorem Rill.Outputs.of_eq {x y : Rill} (h : y = x) : Rill.Outputs x y := by
  subst h
  rfl

theorem Rill.Outputs.trans {x y z : Rill} (h : Rill.Outputs x y) (g : Rill.Outputs y z) : Rill.Outputs x z := by
  unfold Rill.Outputs at *
  rw [h] at g
  exact g

theorem Rill.Outputs.fields {x y : Rill} (h : Rill.Outputs x y) : y.st = x.st ∧ y.ctx = x.ctx ∧ y.recorded = x.recorded ∧ y.cls = x.cls ∧
    y.fn = x.fn ∧ y.att = x.att := by
  unfold Rill.Outputs at h
  rw [h]
  exact ⟨rfl, rfl, rfl, rfl, rfl, rfl⟩

theorem remark_rills (s : State) (r : Nat) : (s.remark r).ing.rills = s.ing.rills :=
  (remark_keeps (.refl s) r (Within.mem _)).ing.rills.resolve_left (by decide)

theorem memPut_ing (s : State) (p a : Nat) (bs : List Byte) : (s.memPut p a bs).ing = s.ing :=
  (memPut_keeps (.refl s) p a bs (Within.mem _)).ing_eq (by decide)

/-- The rill of a frame that is output, after it (R213, R225). -/
def Rill.counting (x : Rill) (f : Frame) (disc : Nat) : Rill :=
  let fresh := decide (x.discs < disc)
  { x with
    framesOut := x.framesOut + 1
    clock0 := some (if fresh then f.captureTs else x.clock0.getD f.captureTs)
    clockN := (if fresh || x.clock0.isNone then 0 else x.clockN) + 1
    discs := max x.discs disc
    lastCaptureTs := f.captureTs }

/-- What an output leaves of the rills, the contexts and the frames on their way (R213, R247). -/
theorem output_spec (s : State) (eng : Nat) (k : RillClass) (f : Frame) (disc : Nat) (hdr : Nat → List Byte) :
    (s.output eng k f disc hdr).ing.rills = (s.setRill f.rill ((s.rill f.rill).counting f disc)).ing.rills ∧
    (s.output eng k f disc hdr).ing.ctxs = s.ing.ctxs ∧
    ∃ fr : Frame, (s.output eng k f disc hdr).trk.flows = s.trk.flows ++ [Flow.start fr (s.rill f.rill).fn (s.rill f.rill).tag] ∧
      fr.rill = f.rill ∧ fr.index = (s.rill f.rill).nextFrame ∧ fr.captureTs = f.captureTs := by
  unfold State.output
  dsimp only
  generalize mid_eq : (s.setRill f.rill _).memPut _ _ _ = mid
  have kept := memPut_keeps (.refl (s.setRill f.rill ((s.rill f.rill).counting f disc)))
    (if f.raw then portIngest else portDec eng) f.handle.addr (hdr (s.rill f.rill).framesOut) (Within.mem _)
  have ing : mid.ing = (s.setRill f.rill ((s.rill f.rill).counting f disc)).ing := mid_eq ▸ kept.ing_eq (by decide)
  have trk : mid.trk = s.trk := mid_eq ▸ kept.trk_eq (by decide)
  have tail : ∀ (v : State) (b : Bool) (z : RillTrk), (ite b (v.setRillTrk f.rill z) v).ing = v.ing ∧
      (ite b (v.setRillTrk f.rill z) v).trk.flows = v.trk.flows := fun v b z => by
    cases b <;> exact ⟨rfl, rfl⟩
  have marks : ∀ v : State, (v.remark f.rill).ing.rills = v.ing.rills ∧ (v.remark f.rill).ing.ctxs = v.ing.ctxs ∧
      (v.remark f.rill).trk.flows = v.trk.flows := fun v =>
    have r := remark_keeps (.refl v) f.rill (Within.mem _)
    ⟨r.ing.rills.resolve_left (by decide), r.ing.ctxs.resolve_left (by decide), r.trk.flows.resolve_left (by decide)⟩
  have added : (mid.addTo .DEC_CNT_FRAMES eng 1).ing = mid.ing ∧ (mid.addTo .DEC_CNT_FRAMES eng 1).trk = mid.trk :=
    ⟨by simp [State.addTo], by simp [State.addTo]⟩
  refine ⟨?_, ?_, ?_⟩
  · rw [(marks _).1, (tail _ _ _).1]
    have same := congrArg Ingest.rills (added.1.trans ing)
    exact same
  · rw [(marks _).2.1, (tail _ _ _).1]
    have same := congrArg Ingest.ctxs (added.1.trans ing)
    exact same
  · rw [(marks _).2.2, (tail _ _ _).2]
    have same := congrArg (·.flows) (added.2.trans trk)
    exact ⟨_, congrArg (· ++ _) same, rfl, rfl, rfl⟩

theorem output_rill (s : State) (eng : Nat) (k : RillClass) (f : Frame) (disc : Nat) (hdr : Nat → List Byte) (q : Nat) :
    (s.output eng k f disc hdr).rill q = if q = f.rill then (s.rill f.rill).counting f disc else s.rill q :=
  (rill_congr (output_spec s eng k f disc hdr).1 q).trans (rill_setRill _ _ _ _)

theorem counting_outputs (x : Rill) (f : Frame) (disc : Nat) : Rill.Outputs x (x.counting f disc) := rfl

theorem output_outputs (s : State) (eng : Nat) (k : RillClass) (f : Frame) (disc : Nat) (hdr : Nat → List Byte) (q : Nat) :
    Rill.Outputs (s.rill q) ((s.output eng k f disc hdr).rill q) := by
  rw [output_rill]
  by_cases own : q = f.rill
  · rw [if_pos own, own]
    exact counting_outputs _ f disc
  · rw [if_neg own]
    exact .of_eq rfl

/-- From `s` to `t` pictures have left decode: rills have counted them, and contexts hold fewer (R213, R214). -/
structure Outs (s t : State) : Prop where
  rill : ∀ q, Rill.Outputs (s.rill q) (t.rill q)
  ctx : ∀ c, ∃ h, t.decCtx c = (s.decCtx c).map fun d => { d with held := h }

theorem Outs.refl (s : State) : Outs s s :=
  ⟨fun _ => .of_eq rfl, fun c => by
    cases at_ : s.decCtx c with
    | none => exact ⟨[], rfl⟩
    | some d => exact ⟨d.held, rfl⟩⟩

theorem Outs.trans {s t v : State} (h : Outs s t) (g : Outs t v) : Outs s v :=
  ⟨fun q => (h.rill q).trans (g.rill q), fun c => by
    obtain ⟨a, ha⟩ := h.ctx c
    obtain ⟨b, hb⟩ := g.ctx c
    refine ⟨b, ?_⟩
    rw [hb, ha]
    cases s.decCtx c <;> rfl⟩

theorem Outs.of_ing {s t : State} (rills : t.ing.rills = s.ing.rills) (ctxs : t.ing.ctxs = s.ing.ctxs) : Outs s t := by
  obtain ⟨-, same⟩ := Outs.refl s
  exact ⟨fun q => .of_eq (rill_congr rills q), fun c => (same c).imp fun h e => (decCtx_congr ctxs c).trans e⟩

theorem outputPic_outs (s : State) (c : Nat) (k : RillClass) (p : Pic) : Outs s (s.outputPic c k p) := by
  unfold State.outputPic
  dsimp only
  refine ⟨fun q => output_outputs s _ k _ _ _ q, fun a => ?_⟩
  obtain ⟨-, ctxs, -⟩ := output_spec s (c / 32) k
    { rill := p.au.rill, index := 0, handle := p.handle, ctx := c, hdr := p.hdr, captureTs := p.au.captureTs
      cookie := p.au.cookie, stamp := p.au.stamp, isRef := false, cached := true, picNum := p.num, concealed := p.concealed
      abandoned := p.abandoned, substituted := p.substituted, raw := false, clock := 0 } p.disc
    (fun n => frameHeader p.hdr (SeqHdrGeo p.hdr) (if k.codec = 3 then 1 else p.hdr.matrix)
      (b2n p.hdr.fullRange + 2 * b2n p.concealed + 4 * b2n p.abandoned + 8 * b2n p.substituted) p.au.captureTs n
      (s.rill p.au.rill).tag p.au.cookie p.au.rill)
  exact ((Outs.refl s).ctx a).imp fun h e => (decCtx_congr ctxs a).trans e

theorem fewer_outs {s : State} {c : Nat} {d : DecCtx} (found : s.decCtx c = some d) (h : List Pic) :
    Outs s (s.setDecCtx c { d with held := h }) := by
  refine ⟨fun q => .of_eq rfl, fun a => ?_⟩
  rw [decCtx_setDecCtx]
  by_cases own : a = c
  · subst own
    rw [if_pos rfl, found]
    exact ⟨h, rfl⟩
  · rw [if_neg own]
    exact (Outs.refl s).ctx a

theorem outputHeld_outs (s : State) (c : Nat) (k : RillClass) (ns : List Nat) : Outs s (s.outputHeld c k ns) := by
  induction ns generalizing s with
  | nil => exact .refl s
  | cons n ns ih =>
    unfold State.outputHeld
    refine Outs.trans ?_ (ih _)
    cases found : s.decCtx c with
    | none => exact .refl s
    | some d =>
      dsimp only
      cases d.held.find? (fun p => p.num = n) with
      | none => exact .refl s
      | some p =>
        dsimp only
        refine Outs.trans (fewer_outs found _) (outputPic_outs _ c k p)

theorem outputAll_outs (s : State) (c : Nat) (k : RillClass) (n : Nat) : Outs s (s.outputAll c k n) := by
  induction n generalizing s with
  | zero => exact .refl s
  | succ n ih =>
    unfold State.outputAll
    cases s.decCtx c with
    | none => exact .refl s
    | some d =>
      dsimp only
      split
      · next p _ =>
        have first : Outs s { s with freeIdx := s.freeIdx + 1 } := .of_ing rfl rfl
        exact (first.trans (outputHeld_outs _ c k [p.num])).trans (ih _)
      · exact .refl s

theorem outputLast_outs (s : State) (r : Nat) : Outs s (s.outputLast r) := by
  unfold State.outputLast
  split
  · exact outputAll_outs s _ _ _
  · exact .refl s

/-! ## Contexts given back (R204) -/

theorem freeCtx_rills (s : State) (r : Nat) : (s.freeCtx r).ing.rills = s.ing.rills :=
  (freeCtx_keeps (.refl s) r (Within.mem _)).ing.rills.resolve_left (by decide)

theorem freeCtx_ctx (s : State) {r c : Nat} {d : DecCtx} (at_ : (s.rill r).ctx = some c) (found : s.decCtx c = some d) :
    (s.freeCtx r).decCtx c = some d.freed := by
  unfold State.freeCtx
  rw [at_]
  dsimp only
  rw [found]
  dsimp only
  exact (decCtx_setDecCtx _ _ _ _).trans (if_pos rfl)

/-! ## RILL_DRAIN_COMPLETE (R204, R265) -/

/-- A rill and its context when its drain has ended, before an entry recorded meanwhile acts (R204). -/
def State.drainEnd (s : State) (r : Nat) : State :=
  let s1 := (s.outputLast r).freeCtx r
  let x := s1.rill r
  let s2 := (s1.setRill r { x with st := .detached, ctx := none }).statusRecord r
  let s3 := (s2.ingestEvent
    { status := 0, rill := r, kind := 8, ts := 0, index := x.entry, a := x.seq, b := 0, c := 0, d := 0 }).endTracks r
  s3.clearRill r

/-- An entry recorded while its rill drained acts (Table 8.5). -/
def State.actRecorded (s : State) : Option (Nat × RegEntry) → State
  | some (i, e) => if s.imageLoaded then s.scanAct i e else s
  | none => s

theorem exec_rillDrainComplete (r : Nat) (s : State) :
    (s.drained r = true ∧ s.weir.coolant = .none → exec (.rillDrainComplete r) s =
      .next ((s.drainEnd r).actRecorded (((s.outputLast r).freeCtx r).rill r).recorded).settle.schedule) ∧
    (¬ (s.drained r = true ∧ s.weir.coolant = .none) → exec (.rillDrainComplete r) s = .next s) := by
  have test : (s.drained r && !s.coolantHeld) = true ↔ s.drained r = true ∧ s.weir.coolant = .none := by
    unfold State.coolantHeld
    simp
  change (_ → execRillDrainComplete r s = _) ∧ (_ → execRillDrainComplete r s = _)
  unfold execRillDrainComplete
  refine ⟨fun on => ?_, fun off => congrArg _ (when_neg s (mt test.1 off) _)⟩
  rw [when_eq s (test.2 on)]
  rfl

/-- What the end of a drain changes before a recorded entry acts. -/
def drainEndChanges : List Comp :=
  outputAllChanges ++ freeCtxChanges ++ setRillChanges ++ hostWriteChanges ++ ingestEventChanges ++ endTracksChanges

theorem drainEnd_keeps (s : State) (r : Nat) : Keeps (fun c => c ∈ drainEndChanges) s (s.drainEnd r) := by
  have within {l : List Comp} (h : ∀ c ∈ l, c ∈ drainEndChanges) : Within l (fun c => c ∈ drainEndChanges) := h
  unfold State.drainEnd
  dsimp only
  refine clearRill_keeps (endTracks_keeps (ingestEvent_keeps (statusRecord_keeps (setRill_keeps (freeCtx_keeps (outputLast_keeps (.refl s) r ?_)
    r ?_) r _ ?_) r ?_) _ ?_) r ?_) r ?_ <;> exact within (by decide +kernel)

theorem endTracks_ing (s : State) (r : Nat) : (s.endTracks r).ing = s.ing := (endTracks_keeps (.refl s) r (Within.mem _)).ing_eq (by decide)

theorem ingestEvent_ctxs (s : State) (e : EvRec) : (s.ingestEvent e).ing.ctxs = s.ing.ctxs :=
  (ingestEvent_keeps (.refl s) e (Within.mem _)).ing.ctxs.resolve_left (by decide)

theorem drainEnd_spec (s : State) (r : Nat) :
    ((s.drainEnd r).rill r).st = .detached ∧ ((s.drainEnd r).rill r).ctx = none ∧
    (((s.outputLast r).freeCtx r).rill r).recorded = (s.rill r).recorded ∧
    ∀ c, (s.rill r).ctx = some c → (s.decCtx c).isSome = true → ((s.drainEnd r).decCtx c).bind (·.rill) = none ∧
      ((s.drainEnd r).decCtx c).isSome = true := by
  have outs := outputLast_outs s r
  have noted := outs.rill r
  obtain ⟨-, ctx, recorded, -⟩ := noted.fields
  have cleared : ∀ v : State, (v.clearRill r).rill r =
      { Rill.reset with cls := (v.rill r).cls, fn := (v.rill r).fn, tag := (v.rill r).tag, att := (v.rill r).att } := fun v => by
    unfold State.clearRill
    rw [rill_updRill, if_pos rfl]
  refine ⟨congrArg Rill.st (cleared _), congrArg Rill.ctx (cleared _), ?_, fun c at_ some_ => ?_⟩
  · rw [rill_congr (freeCtx_rills _ _), recorded]
  · obtain ⟨d, found⟩ := Option.isSome_iff_exists.1 some_
    obtain ⟨held, now⟩ := outs.ctx c
    rw [found] at now
    have freed := freeCtx_ctx (s.outputLast r) (ctx.trans at_) now
    have last : (s.drainEnd r).decCtx c = ((s.outputLast r).freeCtx r).decCtx c := by
      unfold State.drainEnd
      dsimp only
      have tail : ∀ v : State, (v.clearRill r).decCtx c = v.decCtx c := fun _ => rfl
      rw [tail, decCtx_congr (congrArg Ingest.ctxs (endTracks_ing _ _)), decCtx_congr (ingestEvent_ctxs _ _),
        decCtx_congr (congrArg Ingest.ctxs (statusRecord_ing _ _))]
      rfl
    rw [last, freed]
    exact ⟨rfl, rfl⟩

theorem attach_st (s : State) (i : Nat) {e : RegEntry} (low : e.rillId < 512) :
    ((s.attach i e).rill e.rillId).st = .attached ∨ ((s.attach i e).rill e.rillId).st = .refused := by
  unfold State.attach
  cases s.attachCheck e with
  | inl st => exact .inr (congrArg Rill.st ((refuseAttach_rill s i e st).1 low))
  | inr c => exact .inl (congrArg Rill.st (((attachTo_rill s i e c).1 e.rillId).trans (if_pos rfl)))

/-- RILL_DRAIN_COMPLETE (R204). -/
theorem rillDrainComplete_effect (r : Nat) (s : State) : completes (.rillDrainComplete r) (Comp.tracks ++ Comp.buffers ++ Comp.dramSeen ++
      Comp.events ++ Comp.lanes ++ [.ingCtxs, .ingEngines, .ingFrames, .trkCache, .reg .DEC_CNT_FRAMES, .reg .TRK_CNT_HIT,
        .reg .TRK_CNT_MISS, .reg .TRK_CNT_POISON]) s (fun t =>
    if s.drained r = true ∧ s.weir.coolant = .none then
      ((s.rill r).recorded = none → (t.rill r).st = .detached ∧ (t.rill r).ctx = none ∧
        ∀ c, (s.rill r).ctx = some c → (s.decCtx c).isSome = true →
          (t.decCtx c).bind (·.rill) = none ∧ (t.decCtx c).isSome = true) ∧
      ∀ i e, (s.rill r).recorded = some (i, e) → e.rillId = r → r < 512 →
        ((s.imageLoaded = false ∨ bitAt e.flags 0 = false ∨ (s.fn e.function).flr ≠ .idle) → (t.rill r).st = .detached) ∧
        (s.imageLoaded = true → bitAt e.flags 0 = true → (s.fn e.function).flr = .idle →
          (t.rill r).st = .attached ∨ (t.rill r).st = .refused)
    else t = s) := by
  have k := execRillDrainComplete_keeps (.refl s) r (Within.mem _)
  change KeepsOut _ s (exec (.rillDrainComplete r) s) at k
  obtain ⟨runs, idle⟩ := exec_rillDrainComplete r s
  by_cases on : s.drained r = true ∧ s.weir.coolant = .none
  case neg =>
    rw [idle on] at k
    exact completes_of (idle on) k (by decide +kernel) (if_neg on ▸ rfl)
  have ran := runs on
  rw [ran] at k
  refine completes_of ran k (by decide +kernel) ?_
  rw [if_pos on]
  obtain ⟨st, noCtx, recorded, freed⟩ := drainEnd_spec s r
  have kept := drainEnd_keeps s r
  have image : (s.drainEnd r).imageLoaded = s.imageLoaded := congrArg (fun l : Loader => l.state == .loaded) (kept.ldr_eq (by decide +kernel))
  have fns : ∀ n, (s.drainEnd r).fn n = s.fn n := fn_congr (kept.fns.resolve_left (by decide +kernel))
  rw [recorded]
  have last : ∀ v : State, v.settle.schedule.ing.rills = v.ing.rills ∧ v.settle.schedule.ing.ctxs = v.ing.ctxs := fun v =>
    have a := settle_keeps (.refl v) (Within.mem _)
    have b := schedule_keeps (.refl v.settle) (Within.mem _)
    ⟨(b.ing.rills.resolve_left (by decide)).trans (a.ing.rills.resolve_left (by decide)),
      (b.ing.ctxs.resolve_left (by decide)).trans (a.ing.ctxs.resolve_left (by decide))⟩
  generalize s.drainEnd r = v at *
  refine ⟨fun none_ => ?_, ?_⟩
  · rw [none_, rill_congr (last _).1]
    refine ⟨st, noCtx, fun c at_ some_ => ?_⟩
    rw [decCtx_congr (last _).2]
    exact freed c at_ some_
  · rintro i e at_ rfl low
    rw [at_, rill_congr (last _).1]
    obtain ⟨attaches, rests, -⟩ := scanAct_own v i e
    refine ⟨fun off => ?_, fun loaded on idle => ?_⟩
    · cases loaded : s.imageLoaded with
      | false =>
        unfold State.actRecorded
        dsimp only
        rw [if_neg (by rw [image, loaded]; decide)]
        exact st
      | true =>
        unfold State.actRecorded
        dsimp only
        rw [if_pos (by rw [image, loaded]), rests ?_ (.inl st)]
        · exact st
        · rw [fns]
          exact off.resolve_left (by rw [loaded]; decide)
    · unfold State.actRecorded
      dsimp only
      rw [if_pos (by rw [image, loaded]), attaches on (by rw [fns]; exact idle) (.inl st)]
      exact attach_st v i low

/-- Settles O50: a scan by its entries in turn, of which the first acts by its rill's state, and a drain by its end. -/
theorem registryScanAndDrain : Obligations.RegistryScanAndDrain := by
  refine ⟨fun es stopAt s => ?_, fun r s => rillDrainComplete_effect r s⟩
  obtain ⟨t, ran, only, idle, pends, stops, other, ends⟩ := registryScan_effect es stopAt s
  refine ⟨t, ran, only, idle, pends, stops, other, fun due may at_ len => ?_⟩
  obtain rfl := ends due may at_ len
  obtain ⟨pending, -, seq, -, -⟩ := ended_spec (s.scanStart.entries (indexed es))
  have k := Scan_entries_keeps (s := s.scanStart) (.refl s) (indexed es) (Within.mem _)
  refine ⟨pending, ?_, fun even r held => scanned_held even held, ?_⟩
  · rw [seq, k.reg_eq (by decide) (by decide) regOk_scanSeq]
  · rintro bs rest rfl
    dsimp only
    refine ⟨fun even on idle free => ?_, fun even off free => ?_, fun even off held => ?_, fun even on held same => ?_,
      fun even on held changed => ?_, fun even st => ?_⟩ <;>
      obtain ⟨attaches, rests, turnsOff, stays, changes, drains⟩ := scanned_first (s := s) (rest := rest) even
    · exact attaches on idle free
    · exact rests off free
    · exact turnsOff off held
    · exact stays on held same
    · exact changes on held changed
    · exact drains st

end Sys2Proof.Machine
end

section
/-! SUPPORT. What a unit's write stores (R326), what an allocation rests on (R341), and the bytes of DRAM that settling leaves
(R222, R342). -/

set_option Elab.async false

namespace Sys2Proof.Machine

/-! ## Writes that are not discarded -/

/-- A block's write stores its bytes where the block is not poisoned (R326). -/
theorem putBlock_stored {s : State} (port : Nat) {a : Nat} (data : List Byte) (clean : s.poisoned (a / 64) = false) :
    (s.putBlock port a data).dram.bytes = Mem.writeList s.dram.bytes a data := by
  unfold State.putBlock
  split
  · next none_ =>
    subst none_
    rfl
  split
  · simp [State.countWrite, State.setDramBytes, State.setPoison]
  · dsimp only
    rw [if_neg (by simp [clean])]
    simp [State.countWrite, State.setDramBytes, (mergeRead_dram s port (a / 64)).1]

theorem putBlock_poison {s : State} (port a : Nat) (data : List Byte) {c : Nat} (other : c ≠ a / 64) :
    (s.putBlock port a data).poisoned c = s.poisoned c := by
  unfold State.putBlock
  split
  · rfl
  split
  · rw [(countWrite_dramSame _ _).poisoned, poisoned_setPoison, if_neg other]
    rfl
  · dsimp only
    have merged := mergeRead_dramSame s port (a / 64)
    split
    · have logged : SameDram (s.mergeRead port (a / 64)) ((s.mergeRead port (a / 64)).dmcLog (s.blockLoc (a / 64)) 4 port) :=
        .of_keeps (dmcLog_keeps (.refl _) _ _ _ (Within.mem _)) (by decide) (by decide)
      exact (merged.trans logged).poisoned c
    · exact ((countWrite_dramSame _ _).poisoned c).trans (merged.poisoned c)

theorem putPieces_other (s : State) (port : Nat) {ps : List (Nat × List Byte)} {b : Nat}
    (out : ∀ x ∈ ps, b < x.1 ∨ x.1 + x.2.length ≤ b) : (s.putPieces port ps).dramByte b = s.dramByte b := by
  induction ps generalizing s with
  | nil => rfl
  | cons x ps ih =>
    unfold State.putPieces
    rw [ih _ fun z m => out z (List.mem_cons_of_mem _ m)]
    rcases putBlock_bytes s port x.1 x.2 with same | put
    · exact congrArg (Mem.read · b) same
    · exact (congrArg (Mem.read · b) put).trans (Mem.read_writeList_ne _ _ _ (out x List.mem_cons_self))

theorem putPieces_stored (s : State) (port : Nat) {k a : Nat} {data : List Byte} (fuel : a % 64 + data.length ≤ 64 * k) {i : Nat}
    (h : i < data.length) (clean : s.poisoned ((a + i) / 64) = false) :
    (s.putPieces port (pieces k a data)).dramByte (a + i) = data[i] := by
  induction k generalizing s a data i with
  | zero => omega
  | succ k ih =>
    obtain ⟨b, bs, rfl⟩ := List.exists_cons_of_length_pos (l := data) (by omega)
    have rest := List.length_drop (i := 64 - a % 64) (l := b :: bs)
    change (State.putPieces (s.putBlock port a ((b :: bs).take (64 - a % 64))) port
      (pieces k (a + (64 - a % 64)) ((b :: bs).drop (64 - a % 64)))).dramByte (a + i) = _
    by_cases here : i < 64 - a % 64
    · have own : (a + i) / 64 = a / 64 := by omega
      rw [own] at clean
      rw [putPieces_other _ _ fun x m => .inl (by have inside := (pieces_inside m).1; omega)]
      have few : i < ((b :: bs).take (64 - a % 64)).length := by
        rw [List.length_take]
        omega
      refine (congrArg (Mem.read · (a + i)) (putBlock_stored port _ clean)).trans ?_
      rw [Mem.read_writeList _ _ _ few, List.getElem_take]
    · have far : i - (64 - a % 64) < ((b :: bs).drop (64 - a % 64)).length := by omega
      have place : a + (64 - a % 64) + (i - (64 - a % 64)) = a + i := by omega
      have next := ih (s.putBlock port a ((b :: bs).take (64 - a % 64))) (a := a + (64 - a % 64)) (by omega) far
        (by rw [place, putBlock_poison port a _ (by omega)]; exact clean)
      rw [place] at next
      rw [next, List.getElem_drop]
      congr 1
      omega

/-- A unit's write stores each byte whose block is not poisoned (R326). -/
theorem dramPut_stored (s : State) (port a : Nat) {data : List Byte} {i : Nat} (h : i < data.length)
    (clean : s.poisoned ((a + i) / 64) = false) : (s.dramPut port a data).dramByte (a + i) = data[i] :=
  putPieces_stored s port (by omega) h clean

theorem memPut_dram {s : State} {a : Nat} (low : a < dramSize s.dev.part) (port : Nat) (data : List Byte) :
    s.memPut port a data = s.dramPut port a data := by
  unfold State.memPut whereAddr
  rw [if_pos low]

/-! ## What an allocation rests on (R341) -/

/-- Pools, their rings and the free values of allocation are the same in two states. -/
structure AllocLike (s t : State) : Prop where
  pools : t.pools = s.pools
  bytes : t.dram.bytes = s.dram.bytes
  poison : t.dram.poison = s.dram.poison
  free : t.freeIdx = s.freeIdx

theorem AllocLike.refl (s : State) : AllocLike s s := ⟨rfl, rfl, rfl, rfl⟩

theorem AllocLike.trans {s t v : State} (h : AllocLike s t) (g : AllocLike t v) : AllocLike s v :=
  ⟨g.pools.trans h.pools, g.bytes.trans h.bytes, g.poison.trans h.poison, g.free.trans h.free⟩

theorem AllocLike.of_keeps {cs : List Comp} {s t : State} (k : Keeps (fun c => c ∈ cs) s t) (a : .pools ∉ cs := by decide)
    (b : .dramBytes ∉ cs := by decide) (c : .dramPoison ∉ cs := by decide) (d : .freeIdx ∉ cs := by decide) : AllocLike s t :=
  ⟨k.pools_eq a, k.dram.bytes.resolve_left b, k.dram.poison.resolve_left c, k.freeIdx.resolve_left d⟩

theorem AllocLike.pool {s t : State} (h : AllocLike s t) (n : Nat) : t.pool n = s.pool n := pool_congr h.pools n

theorem AllocLike.ringEntries {s t : State} (h : AllocLike s t) (p : Pool) (i n : Nat) : t.ringEntries p i n = s.ringEntries p i n := by
  induction n generalizing i with
  | zero => rfl
  | succ n ih =>
    unfold State.ringEntries State.dramRd
    rw [ih, poisoned_congr h.poison, h.bytes]

theorem AllocLike.refill {s t : State} (h : AllocLike s t) (p : Pool) : AllocLike (s.refill p) (t.refill p) := by
  have a : AllocLike s (s.visitAll portCistern (p.entryRanges p.head p.batch)) := .of_keeps (visitAll_keeps (.refl s) _ _ (Within.mem _))
  have b : AllocLike t (t.visitAll portCistern (p.entryRanges p.head p.batch)) := .of_keeps (visitAll_keeps (.refl t) _ _ (Within.mem _))
  have pools : (t.visitAll portCistern (p.entryRanges p.head p.batch)).pools = (s.visitAll portCistern (p.entryRanges p.head p.batch)).pools :=
    b.pools.trans (h.pools.trans a.pools.symm)
  refine ⟨?_, b.bytes.trans (h.bytes.trans a.bytes.symm), b.poison.trans (h.poison.trans a.poison.symm), b.free.trans (h.free.trans a.free.symm)⟩
  unfold State.refill State.setPool
  rw [h.ringEntries]
  dsimp only
  rw [pools]

theorem AllocLike.refillUntil {s t : State} (h : AllocLike s t) (n k : Nat) : AllocLike (s.refillUntil n k) (t.refillUntil n k) := by
  induction k generalizing s t with
  | zero => exact h
  | succ k ih =>
    unfold State.refillUntil
    rw [h.pool]
    cases s.pool n with
    | none => exact h
    | some p =>
      dsimp only
      split
      · exact ih (h.refill p)
      · exact h

theorem AllocLike.takeHandle {s t : State} (h : AllocLike s t) (q : Pool) :
    (t.takeHandle q).1 = (s.takeHandle q).1 ∧ AllocLike (s.takeHandle q).2 (t.takeHandle q).2 := by
  unfold State.takeHandle
  split
  · refine ⟨rfl, ?_, h.bytes, h.poison, h.free⟩
    unfold State.allocFail State.setPool
    dsimp only
    rw [h.pools]
  · dsimp only
    rw [h.free]
    refine ⟨rfl, ?_, by simpa [State.addTo, State.setPool] using h.bytes, by simpa [State.addTo, State.setPool] using h.poison,
      by simp [State.addTo, State.setPool]⟩
    simp [State.addTo, State.setPool, h.pools]

/-- An allocation gives the same handle and leaves the pools the same. -/
theorem AllocLike.alloc {s t : State} (h : AllocLike s t) (n : Nat) :
    (t.alloc n).1 = (s.alloc n).1 ∧ AllocLike (s.alloc n).2 (t.alloc n).2 := by
  unfold State.alloc
  rw [h.pool]
  cases s.pool n with
  | none => exact ⟨rfl, h⟩
  | some p =>
    dsimp only
    split
    · refine ⟨rfl, ?_, h.bytes, h.poison, h.free⟩
      unfold State.allocFail State.setPool
      dsimp only
      rw [h.pools]
    · have more := h.refillUntil n (p.tail - p.head)
      rw [more.pool]
      cases (s.refillUntil n (p.tail - p.head)).pool n with
      | none => exact ⟨rfl, more⟩
      | some q => exact more.takeHandle q

/-! ## Bytes that settling leaves (R222, R342) -/

/-- A byte of DRAM outside every pool's ring. -/
def State.beside (s : State) (a : Nat) : Prop := ∀ p ∈ s.pools, 64 ≤ p.cap ∧ (a < p.ringAddr ∨ p.ringAddr + 8 * p.cap ≤ a)

theorem beside_found {s : State} {a n : Nat} {p : Pool} (out : s.beside a) (found : s.pool n = some p) :
    64 ≤ p.cap ∧ (a < p.ringAddr ∨ p.ringAddr + 8 * p.cap ≤ a) := out p (List.mem_of_find?_eq_some found)

theorem beside_congr {s t : State} {a : Nat} (pools : t.pools = s.pools) (out : s.beside a) : t.beside a := by
  unfold State.beside
  rw [pools]
  exact out

theorem beside_setPool {s : State} {a n : Nat} {p x : Pool} (out : s.beside a) (found : s.pool n = some p)
    (cap : x.cap = p.cap) (ring : x.ringAddr = p.ringAddr) : (s.setPool x).beside a := by
  intro y m
  obtain ⟨z, mz, rfl⟩ := List.mem_map.1 (show y ∈ s.pools.map _ from m)
  split
  · rw [cap, ring]
    exact beside_found out found
  · exact out z mz

theorem flush_beside {s : State} {a n : Nat} {p : Pool} (out : s.beside a) (found : s.pool n = some p) : (s.flush p).beside a := by
  unfold State.flush
  dsimp only
  have pools := (putEntries_keeps (.refl s) p p.tail (p.cache.take (min 32 p.cache.length)) (Within.mem _)).pools_eq (by decide)
  exact beside_setPool (beside_congr pools out) ((pool_congr pools n).trans found) rfl rfl

theorem release_beside {s : State} {a : Nat} (out : s.beside a) (h : Handle) (fn : Nat) :
    (s.release h fn).beside a ∧ (s.release h fn).dramByte a = s.dramByte a := by
  have discards (st : W16) : (s.discardRelease st fn).beside a ∧ (s.discardRelease st fn).dramByte a = s.dramByte a :=
    have k := discardRelease_keeps (.refl s) st fn (Within.mem _)
    ⟨beside_congr (k.pools_eq (by decide)) out, congrArg (Mem.read · a) (k.dram.bytes.resolve_left (by decide))⟩
  unfold State.release
  cases found : s.pool h.pool with
  | none => exact discards _
  | some p =>
    dsimp only
    split
    · exact discards _
    split
    · exact discards _
    have flushed : ((if (64 ≤ p.cache.length && s.ringReach p) = true then s.flush p else s).beside a) ∧
        (if (64 ≤ p.cache.length && s.ringReach p) = true then s.flush p else s).dramByte a = s.dramByte a := by
      split
      · next spill =>
        rw [Bool.and_eq_true, decide_eq_true_eq] at spill
        obtain ⟨size, away⟩ := beside_found out found
        exact ⟨flush_beside out found, (flush_spec found (by omega)).2.2 size a away⟩
      · exact ⟨out, rfl⟩
    generalize @ite State (_ = true) (instDecidableEqBool _ true) (s.flush p) s = t at *
    cases again : t.pool h.pool with
    | none => exact flushed
    | some q =>
      have put : (t.setPool { q with cache := q.cache ++ [h] }).beside a := beside_setPool flushed.1 again rfl rfl
      refine ⟨beside_congr ?_ put, (dramByte_addTo _ _ _ _ _).trans flushed.2⟩
      exact (addTo_keeps (cs := fun c => c ∈ [Comp.reg .CISTERN_CNT_FREE]) (.refl _) .CISTERN_CNT_FREE 0 1 (.inr (by decide))).pools_eq
        (by decide)

theorem reapList_byte {s : State} {a : Nat} (out : s.beside a) (fs : List Frame) : (s.reapList fs).dramByte a = s.dramByte a := by
  induction fs generalizing s with
  | nil => rfl
  | cons f fs ih =>
    unfold State.reapList
    split
    · exact ih out
    · dsimp only
      generalize kept_eq : State.mk _ _ _ _ _ _ _ _ _ _ _ _ _ _ _ _ = kept
      have same : kept.beside a := by
        rw [← kept_eq]
        exact beside_congr (s := s) rfl out
      obtain ⟨still, byte⟩ := release_beside same f.handle (s.rill f.rill).fn
      rw [ih still, byte, ← kept_eq]
      rfl

theorem settle_byte {s : State} {a : Nat} (out : s.beside a) : s.settle.dramByte a = s.dramByte a := by
  unfold State.settle
  refine (congrArg (Mem.read · a) ((refresh_keeps (.refl _) (Within.mem _)).dram.bytes.resolve_left (by decide))).trans ?_
  exact reapList_byte (s := { s with trk := { s.trk with flows := s.trk.flows.filter (fun f => !f.over) } })
    (beside_congr (s := s) rfl out) _

theorem settle_flows (s : State) : s.settle.trk.flows = s.trk.flows.filter (fun f => !f.over) := by
  unfold State.settle
  refine ((refresh_keeps (.refl _) (Within.mem _)).trk.flows.resolve_left (by decide)).trans ?_
  exact (reapFrames_keeps (.refl _) (Within.mem _)).trk.flows.resolve_left (by decide)

end Sys2Proof.Machine
end

section
/-! SUPPORT. Copies that arrive and periodic status records (R197, R199, R228; obligation O49). -/

set_option Elab.async false

namespace Sys2Proof.Machine

/-! ## STATUS_RECORD_PERIODIC (R197) -/

theorem rillRecord_length (s : State) (x : Rill) : (s.rillRecord x).length = 64 := by
  simp [State.rillRecord, leBytes_length]

theorem rillRecord_index (s : State) (x : Rill) : (s.rillRecord x).take 4 = leBytes 4 x.readIndex := by
  simp only [State.rillRecord, List.append_assoc]
  rw [List.take_left' (leBytes_length _ _)]

theorem hostWrite_out (s : State) (fn a : Nat) (data : List Byte) : (s.hostWrite fn a data).out = s.out ++ [.hostWrite fn a data] := by
  unfold State.hostWrite
  simp [State.addTo]

theorem statusRecordPeriodic_effect (r : Nat) (s : State) : completes (.statusRecordPeriodic r) [.out, .reg .HEP_CNT_WR_BYTES] s (fun t =>
    let x := s.rill r
    if x.st.active = true ∧ s.canMaster x.fn = true then
      (s.rillRecord x).length = 64 ∧ (s.rillRecord x).take 4 = leBytes 4 x.readIndex ∧
      sends [.hostWrite x.fn (x.statusAddr + 8) ((s.rillRecord x).drop 8),
        .hostWrite x.fn x.statusAddr ((s.rillRecord x).take 8)] s t
    else t = s) := by
  have k := execStatusRecordPeriodic_keeps (.refl s) r (Within.mem _)
  change KeepsOut _ s (exec (.statusRecordPeriodic r) s) at k
  have eq : exec (.statusRecordPeriodic r) s = .next (s.when (s.rill r).st.active fun s => s.statusRecord r) := rfl
  dsimp only
  by_cases active : (s.rill r).st.active = true
  · rw [when_eq s active] at eq
    rw [eq] at k
    refine completes_of eq k (by decide +kernel) ?_
    unfold State.statusRecord State.statusOf
    by_cases may : s.canMaster (s.rill r).fn = true
    · rw [if_pos ⟨active, may⟩, if_neg (by simp [may])]
      refine ⟨rillRecord_length _ _, rillRecord_index _ _, ?_⟩
      unfold sends
      rw [hostWrite_out, hostWrite_out, List.append_assoc]
      rfl
    · rw [if_neg fun h => may h.2, if_pos (by simpa using may)]
  · rw [when_neg s active] at eq
    rw [eq] at k
    exact completes_of eq k (by decide +kernel) (by rw [if_neg fun h => active h.1])

/-! ## Access units that are refused or dropped (R212, R220, R228) -/

/-- An event record whose status its rill bears already changes no rill (R197). -/
theorem ingestEvent_borne {s : State} {e : EvRec} (h : (s.rill e.rill).lastStatus = e.status) (q : Nat) :
    (s.ingestEvent e).rill q = s.rill q := by
  rw [ingestEvent_rill]
  split
  · next own =>
    rw [own.1, ← h]
  · rfl

theorem count_rill (s : State) (r : Reg) (u q : Nat) : (s.count r u).rill q = s.rill q := by
  refine rill_congr ?_ q
  unfold State.count
  simp

/-- A refusal counts at its rill and is its last status (R212). -/
theorem refuseAu_rill (s : State) (eng : Nat) (au : AuJob) (k : RillClass) (h : SeqHdr) (st : W16) (event : Bool) (q : Nat) :
    (s.refuseAu eng au k h st event).rill q =
      if q = au.rill then { s.rill au.rill with refused := bump (s.rill au.rill).refused, lastStatus := st } else s.rill q := by
  have refused : ∀ q, ((s.updRill au.rill (fun x => { x with refused := bump x.refused, lastStatus := st })).count .DEC_CNT_REFUSE eng).rill q =
      if q = au.rill then { s.rill au.rill with refused := bump (s.rill au.rill).refused, lastStatus := st } else s.rill q := fun q =>
    (count_rill _ _ _ q).trans (rill_updRill _ _ _ _)
  unfold State.refuseAu
  dsimp only
  cases event with
  | false => exact refused q
  | true =>
    rw [if_pos rfl, ingestEvent_borne ?_, refused]
    dsimp only
    rw [refused, if_pos rfl]

/-- A picture that is dropped counts at its rill where it found no buffer (R220). -/
theorem dropPicture_rill (s : State) (eng : Nat) (au : AuJob) (st : W16) :
    (∀ q, q ≠ au.rill → (s.dropPicture eng au st).rill q = s.rill q) ∧
    Rill.Noted { s.rill au.rill with droppedNoBuf := if st = Status.framePoolEmpty then bump (s.rill au.rill).droppedNoBuf
      else (s.rill au.rill).droppedNoBuf } ((s.dropPicture eng au st).rill au.rill) := by
  unfold State.dropPicture Rill.Noted
  dsimp only
  refine ⟨fun q ne => ?_, ?_⟩
  · rw [ingestEvent_rill, if_neg fun on => ne on.1]
    split
    · rw [count_rill, rill_updRill, if_neg ne]
    · rfl
  · rw [ingestEvent_rill]
    by_cases empty : st = Status.framePoolEmpty
    · rw [if_pos empty, if_pos empty, count_rill, rill_updRill, if_pos rfl]
      split <;> rfl
    · rw [if_neg empty, if_neg empty]
      split <;> rfl

/-! ## Raw frames (R228) -/

/-- The state in which a raw frame is judged: its discontinuity has taken effect (R193). -/
def State.rawStart (s : State) (c : Nat) (j : AuJob) : State := if bitAt j.flags 1 then s.discontinue c else s

theorem rawStart_same (s : State) (c : Nat) (j : AuJob) : AllocLike s (s.rawStart c j) ∧ (s.rawStart c j).ing.rills = s.ing.rills ∧
    (s.rawStart c j).trk = s.trk ∧ (s.rawStart c j).dev = s.dev := by
  unfold State.rawStart
  split
  · have k := discontinue_keeps (.refl s) c (Within.mem _)
    exact ⟨.of_keeps k, k.ing.rills.resolve_left (by decide), k.trk_eq (by decide), k.dev_eq (by decide)⟩
  · exact ⟨.refl s, rfl, rfl, rfl⟩

theorem poolSize_congr {s t : State} (h : t.pools = s.pools) (n : Nat) : t.poolSize n = s.poolSize n := by
  unfold State.poolSize
  rw [pool_congr h]

/-- The output of a frame of rill `r` (R213, R228). -/
theorem rawOut_spec {s s2 : State} {r ts : Nat} (seen : ∀ q, s2.rill q = s.rill q) (way : s2.trk = s.trk) (eng : Nat) (k : RillClass)
    (f : Frame) (d : Nat) (hd : Nat → List Byte) (own : f.rill = r) (stamp : f.captureTs = ts) :
    (∀ q, q ≠ r → (s2.output eng k f d hd).rill q = s.rill q) ∧ Rill.Outputs (s.rill r) ((s2.output eng k f d hd).rill r) ∧
    ((s2.output eng k f d hd).rill r).framesOut = (s.rill r).framesOut + 1 ∧ ((s2.output eng k f d hd).rill r).lastCaptureTs = ts ∧
    ∃ fr : Frame, (s2.output eng k f d hd).trk.flows = s.trk.flows ++ [Flow.start fr (s.rill r).fn (s.rill r).tag] ∧ fr.rill = r ∧
      fr.index = (s.rill r).nextFrame ∧ fr.captureTs = ts := by
  subst own stamp
  have rill := fun q => output_rill s2 eng k f d hd q
  obtain ⟨-, -, way'⟩ := output_spec s2 eng k f d hd
  rw [seen, way] at way'
  refine ⟨fun q ne => (rill q).trans ((if_neg ne).trans (seen q)), ?_, ?_, ?_, way'⟩
  all_goals rw [rill, if_pos rfl, seen]
  · exact counting_outputs _ f d
  · rfl
  · rfl

/-- A raw frame that has arrived (R228). -/
theorem rawFrame_spec {s : State} (r c : Nat) {k : RillClass} {b : DecBind} {j : AuJob} {data : List Byte} :
    let st := rawStatus k (s.poolSize b.framePool) (rawHdr data).1 (rawHdr data).2 data.length
    let t := s.rawFrame r c k b j data
    (∀ e, st = some e → ∀ q, t.rill q =
      if q = j.rill then { s.rill j.rill with refused := bump (s.rill j.rill).refused, lastStatus := e } else s.rill q) ∧
    (st = none → (s.alloc b.framePool).1 = none → (∀ q, q ≠ j.rill → t.rill q = s.rill q) ∧
      Rill.Noted { s.rill j.rill with droppedNoBuf := bump (s.rill j.rill).droppedNoBuf } (t.rill j.rill)) ∧
    (∀ h e, st = none → (s.alloc b.framePool).1 = some h → rangeStatus s.dev.part h.addr data.length = some e →
      (∀ q, q ≠ j.rill → t.rill q = s.rill q) ∧
      Rill.Noted { s.rill j.rill with droppedNoBuf := (t.rill j.rill).droppedNoBuf } (t.rill j.rill)) ∧
    (∀ h, st = none → (s.alloc b.framePool).1 = some h → rangeStatus s.dev.part h.addr data.length = none →
      (∀ q, q ≠ r → t.rill q = s.rill q) ∧ Rill.Outputs (s.rill r) (t.rill r) ∧ (t.rill r).framesOut = (s.rill r).framesOut + 1 ∧
      (t.rill r).lastCaptureTs = j.captureTs ∧
      ∃ fr : Frame, t.trk.flows = s.trk.flows ++ [Flow.start fr (s.rill r).fn (s.rill r).tag] ∧ fr.rill = r ∧
        fr.index = (s.rill r).nextFrame ∧ fr.captureTs = j.captureTs) := by
  dsimp only
  have start := rawStart_same s c j
  unfold State.rawStart at start
  unfold State.rawFrame
  dsimp only
  generalize (if bitAt j.flags 1 = true then s.discontinue c else s) = s0 at start ⊢
  obtain ⟨like, rills, trk, dev⟩ := start
  have rill : ∀ q, s0.rill q = s.rill q := rill_congr rills
  rw [poolSize_congr like.pools]
  have taken := (like.alloc b.framePool).1
  have k := alloc_keeps (.refl s0) b.framePool (Within.mem _)
  have kept : ∀ q, (s0.alloc b.framePool).2.rill q = s.rill q := fun q =>
    (rill_congr (k.ing.rills.resolve_left (by decide)) q).trans (rill q)
  have part : (s0.alloc b.framePool).2.dev = s.dev := (k.dev_eq (by decide)).trans dev
  have flows : (s0.alloc b.framePool).2.trk = s.trk := (k.trk_eq (by decide)).trans trk
  generalize s0.alloc b.framePool = p at taken kept part flows ⊢
  obtain ⟨o, s1⟩ := p
  dsimp only at taken kept part flows
  refine ⟨fun e st q => ?_, fun st none_ => ?_, fun h e st got bad => ?_, fun h st got good => ?_⟩
  · simp only [st]
    rw [refuseAu_rill, rill, rill]
  · rw [none_] at taken
    subst taken
    simp only [st]
    obtain ⟨others, own⟩ := dropPicture_rill s1 (c / 32) j Status.framePoolEmpty
    rw [if_pos rfl, kept] at own
    exact ⟨fun q ne => (others q ne).trans (kept q), own⟩
  · rw [got] at taken
    subst taken
    simp only [st, part, bad]
    have released : ∀ q, (s1.release h (s.rill r).fn).rill q = s.rill q := fun q =>
      (rill_congr ((release_keeps (.refl s1) h _ (Within.mem _)).ing.rills.resolve_left (by decide)) q).trans (kept q)
    obtain ⟨others, own⟩ := dropPicture_rill (s1.release h (s.rill r).fn) (c / 32) j e
    rw [released] at own
    refine ⟨fun q ne => (others q ne).trans (released q), ?_⟩
    unfold Rill.Noted at own ⊢
    generalize State.rill _ j.rill = y at own ⊢
    rw [own]
  · rw [got] at taken
    subst taken
    simp only [st, part, good]
    have put := memPut_keeps (.refl s1) portIngest (h.addr + 128) (data.drop 128) (Within.mem _)
    have seen : ∀ q, (s1.memPut portIngest (h.addr + 128) (data.drop 128)).rill q = s.rill q := fun q =>
      (rill_congr (put.ing.rills.resolve_left (by decide)) q).trans (kept q)
    have way : (s1.memPut portIngest (h.addr + 128) (data.drop 128)).trk = s.trk := (put.trk_eq (by decide)).trans flows
    generalize s1.memPut portIngest (h.addr + 128) (data.drop 128) = s2 at seen way ⊢
    exact rawOut_spec seen way _ _ _ _ _ rfl rfl

/-! ## AU_COPY_COMPLETE (R194, R197, R199, R228) -/

theorem skipRefused_none {js : List AuJob} (h : ∀ q ∈ js.head?, q.status = 0) (s : State) (r : Nat) : s.skipRefused r js = s := by
  cases js with
  | nil => rfl
  | cons j js =>
    unfold State.skipRefused
    exact if_pos (h j rfl)

/-- What the copy of rill `r` brings to the device (R199, R228). -/
def State.brought (s : State) (r c : Nat) (k : RillClass) (b : DecBind) (j : AuJob) (data : List Byte) : State :=
  if k.codec = 4 then s.rawFrame r c k b j data
  else (s.memPut portIngest j.handle.addr data).updDec r (fun d => { d with queue := d.queue ++ [j] })

/-- Whether a copy can be completed now (R199, R335). -/
def State.mayArrive (s : State) (r : Nat) (k : RillClass) (b : DecBind) (j : AuJob) (data : List Byte) : Prop :=
  data.length = j.length ∧ s.weir.coolant = .none ∧ (s.fn (s.rill r).fn).flr = .idle ∧
    if k.codec = 4 then s.canAlloc b.framePool = true ∧ s.poolReach b.framePool = true
    else s.canReach j.handle.addr j.length = true

theorem exec_auCopyComplete (r : Nat) (data : List Byte) (s : State) :
    (((s.rill r).copies = [] ∨ s.classOf r = none ∨ s.bindOf r = none) → exec (.auCopyComplete r data) s = .next s) ∧
    ∀ j js c k b, (s.rill r).copies = j :: js → (s.rill r).ctx = some c → s.classOf r = some k → s.bindOf r = some b →
      (¬ s.mayArrive r k b j data → exec (.auCopyComplete r data) s = .next s) ∧
      (s.mayArrive r k b j data → exec (.auCopyComplete r data) s =
        .next (((s.hostRead data.length).copyDone r js fun s => s.brought r c k b j data).settle.schedule)) := by
  change (_ → execAuCopyComplete r data s = _) ∧
    ∀ j js c k b, _ → _ → _ → _ → (_ → execAuCopyComplete r data s = _) ∧ (_ → execAuCopyComplete r data s = _)
  unfold execAuCopyComplete
  refine ⟨fun idle => ?_, fun j js c k b copies ctx cls bind => ?_⟩
  · split
    · next j js c k b copies _ cls bind =>
      rw [copies, cls, bind] at idle
      rcases idle with h | h | h <;> cases h
    · rfl
  · have test : (data.length == j.length && !s.coolantHeld && (s.fn (s.rill r).fn).flr == .idle &&
        (if k.codec = 4 then s.canAlloc b.framePool && s.poolReach b.framePool else s.canReach j.handle.addr j.length)) = true ↔
        s.mayArrive r k b j data := by
      unfold State.mayArrive State.coolantHeld
      by_cases raw : k.codec = 4 <;> simp [raw, and_assoc]
    simp only [copies, ctx, cls, bind]
    refine ⟨fun off => congrArg _ (when_neg s (mt test.1 off) _), fun on => ?_⟩
    rw [when_eq s (test.2 on)]
    rfl

/-- The state in which the oldest copy of rill `r` has been taken off (R199). -/
def State.copyTaken (s : State) (r n : Nat) (js : List AuJob) : State :=
  (s.hostRead n).updRill r (fun x => { x with copies := js, readIndex := (x.readIndex + 1) % 2 ^ 32 })

theorem copyTaken_spec (s : State) (r n : Nat) (js : List AuJob) :
    (∀ q, (s.copyTaken r n js).rill q =
      if q = r then { s.rill r with copies := js, readIndex := ((s.rill r).readIndex + 1) % 2 ^ 32 } else s.rill q) ∧
    AllocLike s (s.copyTaken r n js) ∧ (s.copyTaken r n js).ing.ctxs = s.ing.ctxs ∧ (s.copyTaken r n js).dev = s.dev ∧
    (s.copyTaken r n js).trk = s.trk ∧
    (s.copyTaken r n js).reg .HEP_CNT_RD_BYTES 0 0 = s.reg .HEP_CNT_RD_BYTES 0 0 + BitVec.ofNat 64 n := by
  have k := hostRead_keeps (.refl s) n (Within.mem _)
  have ing := hostRead_ing s n
  unfold State.copyTaken
  have ctxs := congrArg Ingest.ctxs ing
  refine ⟨fun q => ?_, ?_, ctxs, k.dev_eq (by decide), k.trk_eq (by decide), addTo_reg _ _ _ _ (by decide +kernel)⟩
  · rw [rill_updRill, rill_congr (congrArg Ingest.rills ing), rill_congr (congrArg Ingest.rills ing)]
  · exact AllocLike.trans (.of_keeps k) ⟨rfl, rfl, rfl, rfl⟩

/-- What a copy leaves once its record is written and Sluice has settled (R199). -/
theorem copyEnd_spec (v : State) (r : Nat) : let t := (v.statusRecord r).settle.schedule
    (∀ q, t.rill q = v.rill q) ∧ t.ing.ctxs = v.ing.ctxs ∧ t.trk.flows = v.trk.flows.filter (fun f => !f.over) ∧
    t.reg .HEP_CNT_RD_BYTES 0 0 = v.reg .HEP_CNT_RD_BYTES 0 0 ∧
    ∀ a, v.beside a → t.dramByte a = v.dramByte a := by
  dsimp only
  have a := statusRecord_keeps (.refl v) r (Within.mem _)
  have b := settle_keeps (.refl (v.statusRecord r)) (Within.mem _)
  have c := schedule_keeps (.refl (v.statusRecord r).settle) (Within.mem _)
  have ok : regOk .HEP_CNT_RD_BYTES 0 0 = true := by decide +kernel
  have flows := settle_flows (v.statusRecord r)
  rw [a.trk_eq (by decide)] at flows
  refine ⟨fun q => ?_, ?_, (c.trk.flows.resolve_left (by decide)).trans flows, ?_, fun x out => ?_⟩
  · exact (rill_congr (c.ing.rills.resolve_left (by decide)) q).trans ((rill_congr (b.ing.rills.resolve_left (by decide)) q).trans
      (statusRecord_rill v r q))
  · exact (c.ing.ctxs.resolve_left (by decide)).trans ((b.ing.ctxs.resolve_left (by decide)).trans (congrArg Ingest.ctxs (statusRecord_ing v r)))
  · exact (c.reg_eq (by decide) (by decide) ok).trans ((b.reg_eq (by decide) (by decide) ok).trans (a.reg_eq (by decide) (by decide) ok))
  · have still : (v.statusRecord r).beside x := beside_congr (a.pools_eq (by decide)) out
    calc ((v.statusRecord r).settle.schedule).dramByte x
        = (v.statusRecord r).settle.dramByte x := congrArg (Mem.read · x) (c.dram.bytes.resolve_left (by decide))
      _ = (v.statusRecord r).dramByte x := settle_byte still
      _ = v.dramByte x := congrArg (Mem.read · x) (a.dram.bytes.resolve_left (by decide))

/-- A raw frame leaves the copies and the read indices of the rills. -/
theorem rawFrame_copies (s : State) (r c : Nat) (k : RillClass) (b : DecBind) (j : AuJob) (data : List Byte) (q : Nat) :
    ((s.rawFrame r c k b j data).rill q).copies = (s.rill q).copies ∧
    ((s.rawFrame r c k b j data).rill q).readIndex = (s.rill q).readIndex := by
  obtain ⟨refused, dropped, bad, output⟩ := rawFrame_spec (s := s) r c (k := k) (b := b) (j := j) (data := data)
  generalize s.rawFrame r c k b j data = t at refused dropped bad output ⊢
  have noted : ∀ x : Rill, (∀ q, q ≠ j.rill → t.rill q = s.rill q) → Rill.Noted x (t.rill j.rill) →
      x.copies = (s.rill j.rill).copies → x.readIndex = (s.rill j.rill).readIndex →
      (t.rill q).copies = (s.rill q).copies ∧ (t.rill q).readIndex = (s.rill q).readIndex := by
    intro x others own hc hr
    by_cases here : q = j.rill
    · subst here
      unfold Rill.Noted at own
      rw [own]
      exact ⟨hc, hr⟩
    · rw [others q here]
      exact ⟨rfl, rfl⟩
  cases st : rawStatus k (s.poolSize b.framePool) (rawHdr data).1 (rawHdr data).2 data.length with
  | some e =>
    rw [refused e st q]
    split
    · next here =>
      subst here
      exact ⟨rfl, rfl⟩
    · exact ⟨rfl, rfl⟩
  | none =>
    cases got : (s.alloc b.framePool).1 with
    | none =>
      obtain ⟨others, own⟩ := dropped st got
      exact noted _ others own rfl rfl
    | some h =>
      cases range : rangeStatus s.dev.part h.addr data.length with
      | some e =>
        obtain ⟨others, own⟩ := bad h e st got range
        exact noted _ others own rfl rfl
      | none =>
        obtain ⟨others, own, -⟩ := output h st got range
        by_cases here : q = r
        · subst here
          unfold Rill.Outputs at own
          rw [own]
          exact ⟨rfl, rfl⟩
        · rw [others q here]
          exact ⟨rfl, rfl⟩

/-- A copy that is no raw frame is in its buffer and queued (R199). -/
theorem brought_unit {s : State} {r c : Nat} {k : RillClass} {b : DecBind} {j : AuJob} {data : List Byte} (unit : k.codec ≠ 4)
    (ctx : (s.rill r).ctx = some c) :
    (∀ q, (s.brought r c k b j data).rill q = s.rill q) ∧
    (s.brought r c k b j data).reg .HEP_CNT_RD_BYTES 0 0 = s.reg .HEP_CNT_RD_BYTES 0 0 ∧
    (∀ d, s.decCtx c = some d → (s.brought r c k b j data).decCtx c = some { d with queue := d.queue ++ [j] }) ∧
    (s.brought r c k b j data).pools = s.pools ∧
    ∀ i v, data[i]? = some v → j.handle.addr + data.length ≤ dramSize s.dev.part → s.poisoned ((j.handle.addr + i) / 64) = false →
      (s.brought r c k b j data).dramByte (j.handle.addr + i) = v := by
  have eq : s.brought r c k b j data =
      (s.memPut portIngest j.handle.addr data).updDec r (fun d => { d with queue := d.queue ++ [j] }) := if_neg unit
  rw [eq]
  have put := memPut_keeps (.refl s) portIngest j.handle.addr data (Within.mem _)
  have queued := updDec_keeps (.refl (s.memPut portIngest j.handle.addr data)) r (fun d => { d with queue := d.queue ++ [j] }) (Within.mem _)
  have ok : regOk .HEP_CNT_RD_BYTES 0 0 = true := by decide +kernel
  have ing := memPut_ing s portIngest j.handle.addr data
  refine ⟨fun q => ?_, ?_, fun d found => ?_, (queued.pools_eq (by decide)).trans (put.pools_eq (by decide)), fun i v at_ low clean => ?_⟩
  · exact (rill_congr (queued.ing.rills.resolve_left (by decide)) q).trans (rill_congr (congrArg Ingest.rills ing) q)
  · exact (queued.reg_eq (by decide) (by decide) ok).trans (put.reg_eq (by decide) (by decide) ok)
  · unfold State.updDec
    rw [rill_congr (congrArg Ingest.rills ing), ctx]
    dsimp only
    rw [decCtx_congr (congrArg Ingest.ctxs ing), found]
    dsimp only
    rw [decCtx_setDecCtx, if_pos rfl]
  · obtain ⟨lt, rfl⟩ := List.getElem?_eq_some_iff.1 at_
    refine (congrArg (Mem.read · (j.handle.addr + i)) (queued.dram.bytes.resolve_left (by decide))).trans ?_
    rw [memPut_dram (by omega)]
    exact dramPut_stored s portIngest j.handle.addr lt clean

/-- AU_COPY_COMPLETE (R197, R199, R228). -/
theorem auCopyComplete_effect (r : Nat) (data : List Byte) (s : State) : completes (.auCopyComplete r data) (Comp.buffers ++ Comp.dramSeen ++
      Comp.events ++ Comp.lanes ++ [.ingCtxs, .ingFrames, .reg .CISTERN_CNT_ALLOC, .reg .DEC_CNT_FRAMES, .reg .DEC_CNT_NOBUF,
        .reg .DEC_CNT_REFUSE, .trkFlows, .trkPerRill]) s (fun t =>
    (((s.rill r).copies = [] ∨ s.classOf r = none ∨ s.bindOf r = none) → t = s) ∧
    ∀ j js c k b, (s.rill r).copies = j :: js → (s.rill r).ctx = some c → s.classOf r = some k → s.bindOf r = some b →
      (¬ s.mayArrive r k b j data → t = s) ∧
      (s.mayArrive r k b j data → (∀ q ∈ js.head?, q.status = 0) →
        t = (((s.copyTaken r data.length js).brought r c k b j data).statusRecord r).settle.schedule)) := by
  have k := execAuCopyComplete_keeps (.refl s) r data (Within.mem _)
  change KeepsOut _ s (exec (.auCopyComplete r data) s) at k
  obtain ⟨idle, runs⟩ := exec_auCopyComplete r data s
  by_cases off : (s.rill r).copies = [] ∨ s.classOf r = none ∨ s.bindOf r = none
  · rw [idle off] at k
    refine completes_of (idle off) k (by decide +kernel) ⟨fun _ => rfl, fun j js c x b copies _ cls bind => ?_⟩
    rw [copies, cls, bind] at off
    rcases off with h | h | h <;> cases h
  · obtain ⟨some_, hcls, hbind⟩ := not_or.1 off |>.imp_right not_or.1
    obtain ⟨j, js, copies⟩ := List.exists_cons_of_ne_nil some_
    obtain ⟨x, cls⟩ := Option.ne_none_iff_exists'.1 hcls
    obtain ⟨b, bind⟩ := Option.ne_none_iff_exists'.1 hbind
    obtain ⟨c, ctx⟩ : ∃ c, (s.rill r).ctx = some c := by
      cases ctx : (s.rill r).ctx with
      | none =>
        unfold State.bindOf at bind
        rw [ctx] at bind
        cases bind
      | some c => exact ⟨c, rfl⟩
    obtain ⟨stays, goes⟩ := runs j js c x b copies ctx cls bind
    by_cases may : s.mayArrive r x b j data
    · have ran := goes may
      rw [ran] at k
      refine completes_of ran k (by decide +kernel) ⟨fun h => absurd h off, fun j' js' c' x' b' copies' ctx' cls' bind' => ?_⟩
      rw [copies] at copies'
      rw [ctx] at ctx'
      rw [cls] at cls'
      rw [bind] at bind'
      cases copies'
      cases ctx'
      cases cls'
      cases bind'
      refine ⟨fun h => absurd may h, fun _ front => ?_⟩
      unfold State.copyDone
      dsimp only
      rw [skipRefused_none front]
      rfl
    · have ran := stays may
      rw [ran] at k
      refine completes_of ran k (by decide +kernel) ⟨fun _ => rfl, fun j' js' c' x' b' copies' ctx' cls' bind' => ?_⟩
      rw [copies] at copies'
      rw [ctx] at ctx'
      rw [cls] at cls'
      rw [bind] at bind'
      cases copies'
      cases ctx'
      cases cls'
      cases bind'
      exact ⟨fun _ => rfl, fun h => absurd h may⟩

/-- Settles O49: a copy by what it brings, before its record is written and Sluice settles. -/
theorem copiesAndStatusRecords : Obligations.CopiesAndStatusRecords := by
  refine ⟨fun r data s => ?_, fun r s => statusRecordPeriodic_effect r s⟩
  obtain ⟨t, ran, only, idle, runs⟩ := auCopyComplete_effect r data s
  refine ⟨t, ran, only, idle, fun j js c k b copies ctx cls bind => ?_⟩
  obtain ⟨stays, goes⟩ := runs j js c k b copies ctx cls bind
  dsimp only
  refine ⟨stays, fun may front => ?_⟩
  obtain rfl := goes may front
  obtain ⟨rills, like, ctxs, dev, trk, bytes⟩ := copyTaken_spec s r data.length js
  have own := (rills r).trans (if_pos rfl)
  have size := poolSize_congr like.pools b.framePool
  have got := (like.alloc b.framePool).1
  have refusedOf : ((s.copyTaken r data.length js).rill j.rill).refused = (s.rill j.rill).refused ∧
      ((s.copyTaken r data.length js).rill j.rill).droppedNoBuf = (s.rill j.rill).droppedNoBuf := by
    rw [rills]
    split
    · next here =>
      rw [here]
      exact ⟨rfl, rfl⟩
    · exact ⟨rfl, rfl⟩
  generalize s.copyTaken r data.length js = u at *
  obtain ⟨rill', ctxs', flows', bytes', byte'⟩ := copyEnd_spec (u.brought r c k b j data) r
  have raw : k.codec = 4 → u.brought r c k b j data = u.rawFrame r c k b j data := fun h => if_pos h
  obtain ⟨refused, dropped, -, output⟩ := rawFrame_spec (s := u) r c (k := k) (b := b) (j := j) (data := data)
  rw [size] at refused dropped output
  rw [got] at dropped output
  have frames : (u.rill r).framesOut = (s.rill r).framesOut := by rw [own]
  simp only [rill', decCtx_congr ctxs', flows', bytes']
  refine ⟨?_, ?_, fun unit => ⟨?_, fun d found => ?_, fun i v at_ low clean beside => ?_⟩, fun q codec st => ?_, fun codec st none_ => ?_,
    fun h codec st some_ good => ?_⟩
  · by_cases codec : k.codec = 4
    · rw [raw codec, (rawFrame_copies u r c k b j data r).1, own]
    · rw [(brought_unit codec (by rw [own]; exact ctx)).1, own]
  · by_cases codec : k.codec = 4
    · rw [raw codec, (rawFrame_copies u r c k b j data r).2, own]
    · rw [(brought_unit codec (by rw [own]; exact ctx)).1, own]
  · exact (brought_unit unit (by rw [own]; exact ctx)).2.1.trans bytes
  · exact (brought_unit unit (by rw [own]; exact ctx)).2.2.1 d ((decCtx_congr ctxs c).trans found)
  · obtain ⟨-, -, -, pools, stored⟩ := brought_unit (s := u) (b := b) (j := j) (data := data) unit (by rw [own]; exact ctx)
    have out : (u.brought r c k b j data).beside (j.handle.addr + i) := beside_congr (pools.trans like.pools) beside
    rw [byte' _ out]
    exact stored i v at_ (by rw [dev]; exact low) ((poisoned_congr like.poison _).trans clean)
  · rw [raw codec, refused q st j.rill, refused q st r, if_pos rfl]
    refine ⟨congrArg bump refusedOf.1, rfl, ?_⟩
    split
    · next here =>
      rw [← here]
      exact frames
    · exact frames
  · obtain ⟨others, told⟩ := dropped st none_
    rw [raw codec]
    unfold Rill.Noted at told
    refine ⟨?_, ?_⟩
    · rw [told]
      exact congrArg bump refusedOf.2
    · by_cases here : r = j.rill
      · rw [← here] at told
        rw [told]
        exact frames
      · rw [others r here]
        exact frames
  · obtain ⟨-, -, count, stamp, fr, way, rillOf, index, ts⟩ := output h st some_ (by rw [dev]; exact good)
    rw [raw codec]
    refine ⟨count.trans (congrArg (· + 1) frames), stamp, Flow.start fr (u.rill r).fn (u.rill r).tag, ?_, rillOf, ?_, ts⟩
    · rw [way]
      exact List.mem_filter.2 ⟨List.mem_append_right _ List.mem_cons_self, rfl⟩
    · refine index.trans ?_
      rw [own]
      rfl

end Sys2Proof.Machine
end

section
/-! SUPPORT. Polls of a rill's ring (R193 to R199, R207, R391, R392; obligation O48). -/

set_option Elab.async false

namespace Sys2Proof.Machine

/-! ## Rills after a failed poll or a skipped descriptor -/

/-- A failed poll changes only how often polls have failed, and a fault's state and status (R392). -/
theorem pollFailed_rill (s : State) (r : Nat) : ∃ st ls, (s.pollFailed r).rill r =
    { s.rill r with failedPolls := (s.rill r).failedPolls + 1, st := st, lastStatus := ls } := by
  have counted : (s.updRill r (fun x => { x with failedPolls := x.failedPolls + 1 })).rill r =
      { s.rill r with failedPolls := (s.rill r).failedPolls + 1 } := by rw [rill_updRill, if_pos rfl]
  unfold State.pollFailed
  dsimp only
  split
  · rw [rillFault_rill, if_pos rfl, counted]
    exact ⟨_, _, rfl⟩
  · rw [counted]
    exact ⟨_, _, rfl⟩

/-- A skipped descriptor counts as refused, and the read index passes it (R196). -/
theorem skipDescriptor_rill (s : State) (r : Nat) (j : AuJob) : Rill.Noted
    { s.rill r with refused := bump (s.rill r).refused, readIndex := ((s.rill r).readIndex + 1) % 2 ^ 32 }
    ((s.skipDescriptor r j).rill r) := by
  unfold State.skipDescriptor
  rw [statusRecord_rill]
  generalize seen_eq : State.ingestEvent _ _ = seen
  have noted : Rill.Noted { s.rill r with refused := bump (s.rill r).refused, readIndex := ((s.rill r).readIndex + 1) % 2 ^ 32 } (seen.rill r) := by
    unfold Rill.Noted
    rw [← seen_eq, ingestEvent_rill, rill_updRill, if_pos rfl]
    split <;> rfl
  refine noted.trans (.of_eq (rill_congr ?_ r))
  split
  · rfl
  split
  · split
    · split
      · exact (discontinue_keeps (.refl seen) _ (Within.mem _)).ing.rills.resolve_left (by decide)
      · rfl
    · rfl
  · exact (updDec_keeps (.refl seen) _ _ (Within.mem _)).ing.rills.resolve_left (by decide)

/-- Skipped descriptors leave the next index. -/
theorem skipRefused_next (s : State) (r : Nat) (js : List AuJob) : ((s.skipRefused r js).rill r).nextIndex = (s.rill r).nextIndex := by
  induction js generalizing s with
  | nil => rfl
  | cons j js ih =>
    unfold State.skipRefused
    split
    · rfl
    · rw [ih]
      have noted := skipDescriptor_rill (s.updRill r (fun x => { x with copies := js })) r j
      rw [rill_updRill, if_pos rfl] at noted
      unfold Rill.Noted at noted
      rw [noted]

/-! ## One descriptor (R196, R199, R207) -/

/-- The copy of descriptor `d` of rill `r` that a poll starts. -/
def State.jobOf (s : State) (r : Nat) (k : RillClass) (d : Descriptor) (status : W16) (h : Handle) : AuJob :=
  AuJob.mk r status (s.rill r).nextIndex h d.length (s.stamp r k d).1 d.cookie d.flags s.ldr.swapCount

/-- Rill `r` with one more copy (R199). -/
def State.withJob (s : State) (r : Nat) (k : RillClass) (d : Descriptor) (j : AuJob) : Rill :=
  { (s.stamp r k d).2 with copies := (s.rill r).copies ++ [j], nextIndex := ((s.rill r).nextIndex + 1) % 2 ^ 32 }

/-- Rill `r` is `x`, after a descriptor stamped `ts` (R45, R207). -/
def State.putJob (s : State) (r : Nat) (x : Rill) (ts : Nat) : State :=
  { s.setRill r x with ldr := { s.ldr with lastStamp := some (max ts (s.ldr.lastStamp.getD 0)) } }

theorem putJob_rill (s : State) (r : Nat) (x : Rill) (ts : Nat) : (s.putJob r x ts).rill r = x := rill_setRill_self _ _ _

theorem takeDescriptor_spec {s : State} {r : Nat} {k : RillClass} {b : DecBind} {d : Descriptor} :
    let st := descStatus d (s.poolSize (if k.codec = 4 then b.framePool else b.auPool))
    (∀ q, st = some q → ∃ v : State, v.rill r = s.withJob r k d (s.jobOf r k d q (Handle.mk 0 0)) ∧
      s.takeDescriptor r k b d = (v.skipRefused r (v.rill r).copies, .more)) ∧
    (st = none → k.codec = 4 → ∃ v : State, v.rill r = s.withJob r k d (s.jobOf r k d 0 (Handle.mk 0 0)) ∧
      s.takeDescriptor r k b d = (v, .more)) ∧
    (∀ h, st = none → k.codec ≠ 4 → (s.alloc b.auPool).1 = some h →
      ∃ v : State, v.rill r = s.withJob r k d (s.jobOf r k d 0 h) ∧ s.takeDescriptor r k b d = (v, .more)) ∧
    (st = none → k.codec ≠ 4 → (s.alloc b.auPool).1 = none →
      ∃ v : State, v.rill r = { s.rill r with auWaits := bump (s.rill r).auWaits } ∧ s.takeDescriptor r k b d = (v, .stop)) := by
  dsimp only
  have kept := alloc_keeps (.refl s) b.auPool (Within.mem _)
  have rill : (s.alloc b.auPool).2.rill r = s.rill r := rill_congr (kept.ing.rills.resolve_left (by decide)) r
  unfold State.takeDescriptor
  dsimp only
  refine ⟨fun q st => ?_, fun st raw => ?_, fun h st unit got => ?_, fun st unit none_ => ?_⟩
  · simp only [st]
    exact ⟨s.putJob r _ (s.stamp r k d).1, putJob_rill _ _ _ _, rfl⟩
  · simp only [raw, if_true] at st ⊢
    simp only [st]
    exact ⟨s.putJob r _ (s.stamp r k d).1, putJob_rill _ _ _ _, rfl⟩
  · simp only [unit, if_false] at st ⊢
    simp only [st]
    generalize s.alloc b.auPool = p at got rill kept
    obtain ⟨o, s1⟩ := p
    dsimp only at got
    subst got
    exact ⟨s1.putJob r _ (s.stamp r k d).1, putJob_rill _ _ _ _, rfl⟩
  · simp only [unit, if_false] at st ⊢
    simp only [st]
    generalize s.alloc b.auPool = p at none_ rill kept
    obtain ⟨o, s1⟩ := p
    dsimp only at none_ rill
    subst none_
    refine ⟨_, ?_, rfl⟩
    rw [rill_updRill, if_pos rfl, rill]

/-! ## The descriptors of a poll (R199) -/

theorem takeAll_end (s : State) (r : Nat) (k : RillClass) (b : DecBind) (ds : List (ReadRes (List Byte))) :
    (s.takeAll r k b 0 ds).rill r = { s.rill r with failedPolls := 0 } := by
  unfold State.takeAll
  rw [rill_updRill, if_pos rfl]

theorem hostRead_rill (s : State) (n r : Nat) : (s.hostRead n).rill r = s.rill r := rill_congr (congrArg Ingest.rills (hostRead_ing s n)) r

theorem takeDescriptor_next (s : State) (r : Nat) (k : RillClass) (b : DecBind) (d : Descriptor) :
    ((s.takeDescriptor r k b d).1.rill r).nextIndex = ((s.rill r).nextIndex + 1) % 2 ^ 32 ∨
    ((s.takeDescriptor r k b d).1.rill r).nextIndex = (s.rill r).nextIndex := by
  obtain ⟨refused, raw, unit, stops⟩ := takeDescriptor_spec (s := s) (r := r) (k := k) (b := b) (d := d)
  cases st : descStatus d (s.poolSize (if k.codec = 4 then b.framePool else b.auPool)) with
  | some q =>
    obtain ⟨v, own, eq⟩ := refused q st
    rw [eq]
    dsimp only
    rw [skipRefused_next, own]
    exact .inl rfl
  | none =>
    by_cases codec : k.codec = 4
    · obtain ⟨v, own, eq⟩ := raw st codec
      rw [eq, own]
      exact .inl rfl
    · cases got : (s.alloc b.auPool).1 with
      | some h =>
        obtain ⟨v, own, eq⟩ := unit h st codec got
        rw [eq, own]
        exact .inl rfl
      | none =>
        obtain ⟨v, own, eq⟩ := stops st codec got
        rw [eq, own]
        exact .inr rfl

/-- A poll takes no more descriptors than the write index names (R199). -/
theorem takeAll_next (s : State) (r : Nat) (k : RillClass) (b : DecBind) (n : Nat) (ds : List (ReadRes (List Byte))) :
    ∃ m ≤ n, ((s.takeAll r k b n ds).rill r).nextIndex % 2 ^ 32 = ((s.rill r).nextIndex + m) % 2 ^ 32 := by
  have rests : ∀ v : State, ((v.updRill r fun x => { x with failedPolls := 0 }).rill r).nextIndex = (v.rill r).nextIndex := fun v => by
    rw [rill_updRill, if_pos rfl]
  have fails : ∀ (v : State) (st : W16) (fn a : Nat) (timedOut : Bool),
      (((v.readFailed st fn a timedOut).pollFailed r).rill r).nextIndex = (v.rill r).nextIndex := fun v st fn a timedOut => by
    obtain ⟨x, y, eq⟩ := pollFailed_rill (v.readFailed st fn a timedOut) r
    rw [eq, rill_congr (congrArg Ingest.rills (readFailed_ing v st fn a timedOut))]
  induction n generalizing s ds with
  | zero =>
    unfold State.takeAll
    exact ⟨0, Nat.le_refl _, congrArg (· % 2 ^ 32) (rests s)⟩
  | succ n ih =>
    cases ds with
    | nil =>
      unfold State.takeAll
      exact ⟨0, Nat.zero_le _, congrArg (· % 2 ^ 32) (rests s)⟩
    | cons d ds =>
      unfold State.takeAll
      dsimp only
      cases d with
      | failed => exact ⟨0, Nat.zero_le _, congrArg (· % 2 ^ 32) (fails s _ _ _ _)⟩
      | timedOut => exact ⟨0, Nat.zero_le _, congrArg (· % 2 ^ 32) (fails s _ _ _ _)⟩
      | ok e =>
        have next := takeDescriptor_next (s.hostRead 32) r k b (readDescriptor e)
        rw [hostRead_rill] at next
        dsimp only
        generalize (s.hostRead 32).takeDescriptor r k b (readDescriptor e) = p at next ⊢
        obtain ⟨v, took⟩ := p
        dsimp only at next
        have first : ∃ m ≤ 1, (v.rill r).nextIndex % 2 ^ 32 = ((s.rill r).nextIndex + m) % 2 ^ 32 := by
          rcases next with one | same
          · exact ⟨1, Nat.le_refl _, by rw [one, Nat.mod_mod]⟩
          · exact ⟨0, Nat.zero_le _, by rw [same, Nat.add_zero]⟩
        obtain ⟨m, hm, eq⟩ := first
        cases took with
        | more =>
          obtain ⟨m', hm', eq'⟩ := ih v ds
          exact ⟨m + m', by omega, by dsimp only; omega⟩
        | stop => exact ⟨m, by omega, by dsimp only; rw [rests]; exact eq⟩

/-- A poll that finds one descriptor (R196, R199). -/
theorem takeAll_one {s : State} {r : Nat} {k : RillClass} {b : DecBind} {e : List Byte} (es : List (ReadRes (List Byte))) :
    (s.takeAll r k b 1 (.ok e :: es)).rill r =
      { ((s.hostRead 32).takeDescriptor r k b (readDescriptor e)).1.rill r with failedPolls := 0 } := by
  unfold State.takeAll
  dsimp only
  generalize (s.hostRead 32).takeDescriptor r k b (readDescriptor e) = p
  obtain ⟨v, took⟩ := p
  cases took with
  | more => exact takeAll_end v r k b es
  | stop =>
    dsimp only
    rw [rill_updRill, if_pos rfl]

end Sys2Proof.Machine
end

section
/-! SUPPORT. RING_POLL (R193 to R199, R391, R392; obligation O48). -/

set_option Elab.async false

namespace Sys2Proof.Machine

theorem regOk_late : regOk .INGEST_POLL_LATE 0 0 = true := by decide +kernel

/-- A poll's lateness is counted (R194). -/
def State.pollStart (s : State) (late : Nat) : State := if 5 < late then s.count .INGEST_POLL_LATE 0 else s

theorem pollStart_keeps (s : State) (late : Nat) : Keeps (fun c => c ∈ [Comp.reg .INGEST_POLL_LATE]) s (s.pollStart late) := by
  unfold State.pollStart
  split
  · exact count_keeps (.refl s) _ _ (.inr (by decide))
  · exact .refl s

theorem pollStart_late (s : State) (late : Nat) : (s.pollStart late).reg .INGEST_POLL_LATE 0 0 =
    if 5 < late then counted (s.reg .INGEST_POLL_LATE 0 0) else s.reg .INGEST_POLL_LATE 0 0 := by
  unfold State.pollStart
  split
  · exact count_reg _ _ _ regOk_late
  · rfl

/-- Whether rill `r`, bound to `b` with its class `k` on context `c`, is polled now (R194, R335). -/
def State.mayPoll (s : State) (r c : Nat) (k : RillClass) (b : DecBind) : Prop :=
  (s.rill r).st = .attached ∧ s.regBit .INGEST_CTRL 0 0 0 = true ∧ s.weir.coolant = .none ∧
    s.domainLive (.decode (c / 128)) = true ∧ (k.codec = 4 ∨ s.canAlloc b.auPool = true)

/-- The descriptors that a poll's write index names (R195). -/
def Rill.behind (x : Rill) (w : Nat) : Nat := (w + 2 ^ 32 - x.nextIndex) % 2 ^ 32

theorem exec_ringPoll (r late : Nat) (header : ReadRes (List Byte)) (ds : List (ReadRes (List Byte))) (s : State) :
    ((s.classOf r = none ∨ s.bindOf r = none) → exec (.ringPoll r late header ds) s = .next s) ∧
    ∀ c k b, (s.rill r).ctx = some c → s.classOf r = some k → s.bindOf r = some b →
      (¬ s.mayPoll r c k b → exec (.ringPoll r late header ds) s = .next s) ∧
      (s.mayPoll r c k b → s.canMaster (s.rill r).fn = false →
        exec (.ringPoll r late header ds) s = .next (s.count .INGEST_POLL_LATE 0)) ∧
      (s.mayPoll r c k b → s.canMaster (s.rill r).fn = true →
        (header = .failed → exec (.ringPoll r late header ds) s =
          .next (((s.pollStart late).readFailed Status.ringReads (s.rill r).fn (s.rill r).ringAddr false).pollFailed r)) ∧
        (header = .timedOut → exec (.ringPoll r late header ds) s =
          .next (((s.pollStart late).readFailed Status.ringReads (s.rill r).fn (s.rill r).ringAddr true).pollFailed r)) ∧
        ∀ bs, header = .ok bs →
          (indexFault (s.rill r) (fieldOf bs 0 4) = true → exec (.ringPoll r late header ds) s =
            .next (((s.pollStart late).hostRead 64).rillFault r Status.ringIndices)) ∧
          (indexFault (s.rill r) (fieldOf bs 0 4) = false → exec (.ringPoll r late header ds) s =
            .next (((s.pollStart late).hostRead 64).takeAll r k b ((s.rill r).behind (fieldOf bs 0 4)) ds))) := by
  change (_ → execRingPoll r late header ds s = _) ∧ ∀ c k b, _ → _ → _ → (_ → execRingPoll r late header ds s = _) ∧
    (_ → _ → execRingPoll r late header ds s = _) ∧ (_ → _ → (_ → execRingPoll r late header ds s = _) ∧
      (_ → execRingPoll r late header ds s = _) ∧ ∀ bs, _ → (_ → execRingPoll r late header ds s = _) ∧ (_ → execRingPoll r late header ds s = _))
  unfold execRingPoll
  dsimp only
  refine ⟨fun idle => ?_, fun c k b ctx cls bind => ?_⟩
  · split
    · next k b cls bind =>
      rw [cls, bind] at idle
      rcases idle with h | h <;> cases h
    · rfl
  · have test : ((s.rill r).st == .attached && s.regBit .INGEST_CTRL 0 0 0 && !s.coolantHeld && s.domainLive (.decode (c / 128)) &&
        (decide (k.codec = 4) || s.canAlloc b.auPool)) = true ↔ s.mayPoll r c k b := by
      unfold State.mayPoll State.coolantHeld
      simp [and_assoc]
    simp only [ctx, cls, bind]
    refine ⟨fun off => congrArg _ (when_neg s (mt test.1 off) _), fun on bar => ?_, fun on may => ?_⟩
    · rw [when_eq s (test.2 on)]
      simp only [bar]
      rfl
    · rw [when_eq s (test.2 on)]
      simp only [may, Bool.not_true, Bool.false_eq_true, if_false]
      refine ⟨?_, ?_, ?_⟩
      · rintro rfl
        rfl
      · rintro rfl
        rfl
      · rintro bs rfl
        refine ⟨fun bad => ?_, fun good => ?_⟩
        · simp only [bad, if_true]
          rfl
        · simp only [good, Bool.false_eq_true, if_false]
          rfl

/-- Two states in which a poll stamps and allocates alike. -/
structure PollLike (s v : State) : Prop where
  rills : v.ing.rills = s.ing.rills
  ldr : v.ldr = s.ldr
  now : v.thy.now = s.thy.now
  alloc : AllocLike s v

theorem PollLike.of_keeps {cs : List Comp} {s v : State} (k : Keeps (fun c => c ∈ cs) s v) (a : .ingRills ∉ cs := by decide)
    (b : ∀ c ∈ Comp.allLdr, c ∉ cs := by decide) (c : .thyNow ∉ cs := by decide) (d : .pools ∉ cs := by decide)
    (e : .dramBytes ∉ cs := by decide) (f : .dramPoison ∉ cs := by decide) (g : .freeIdx ∉ cs := by decide) : PollLike s v :=
  ⟨k.ing.rills.resolve_left a, k.ldr_eq b, k.thy.now.resolve_left c, .of_keeps k d e f g⟩

theorem PollLike.trans {s t v : State} (h : PollLike s t) (g : PollLike t v) : PollLike s v :=
  ⟨g.rills.trans h.rills, g.ldr.trans h.ldr, g.now.trans h.now, h.alloc.trans g.alloc⟩

section
variable {s v : State} (h : PollLike s v)
include h

theorem PollLike.rill (r : Nat) : v.rill r = s.rill r := rill_congr h.rills r

theorem PollLike.stamp (r : Nat) (k : RillClass) (d : Descriptor) : v.stamp r k d = s.stamp r k d := by
  unfold State.stamp State.deterministic State.imageLoaded State.nowNs
  rw [h.rill, h.ldr, h.now]

theorem PollLike.jobOf (r : Nat) (k : RillClass) (d : Descriptor) (st : W16) (x : Handle) : v.jobOf r k d st x = s.jobOf r k d st x := by
  unfold State.jobOf
  rw [h.rill, h.stamp, h.ldr]

theorem PollLike.withJob (r : Nat) (k : RillClass) (d : Descriptor) (j : AuJob) : v.withJob r k d j = s.withJob r k d j := by
  unfold State.withJob
  rw [h.rill, h.stamp]

end

/-! ## What a poll does -/

theorem descStatus_some {d : Descriptor} {size : Nat} {q : W16} (h : descStatus d size = some q) : q ≠ 0 := by
  unfold descStatus at h
  split at h
  · cases h
    decide
  split at h
  · cases h
    decide
  · cases h

/-- A poll that a failed read abandons (R392). -/
theorem pollRead_spec {s v : State} {r : Nat} (rill : v.rill r = s.rill r) (attached : (s.rill r).st = .attached) (st : W16) (fn a : Nat)
    (timedOut : Bool) (reg : ∀ q, q = Reg.HEP_CNT_RDFAIL ∨ q = Reg.HEP_CNT_CPLTO → v.reg q 0 0 = s.reg q 0 0) :
    let t := (v.readFailed st fn a timedOut).pollFailed r
    ((t.rill r).failedPolls = (s.rill r).failedPolls + 1 ∧
      (t.rill r).st = (if 8 ≤ (s.rill r).failedPolls + 1 then .faulted else .attached) ∧ (t.rill r).copies = (s.rill r).copies) ∧
    t.reg .INGEST_POLL_LATE 0 0 = v.reg .INGEST_POLL_LATE 0 0 ∧
    (timedOut = false → t.reg .HEP_CNT_RDFAIL 0 0 = counted (s.reg .HEP_CNT_RDFAIL 0 0)) ∧
    (timedOut = true → t.reg .HEP_CNT_CPLTO 0 0 = counted (s.reg .HEP_CNT_CPLTO 0 0)) := by
  dsimp only
  obtain ⟨cplto, rdfail, -⟩ := readFailed_spec v st fn a timedOut
  have k := readFailed_keeps (.refl v) st fn a timedOut (Within.mem _)
  have late : (v.readFailed st fn a timedOut).reg .INGEST_POLL_LATE 0 0 = v.reg .INGEST_POLL_LATE 0 0 :=
    k.reg_eq (by decide) (by decide) regOk_late
  have same : (v.readFailed st fn a timedOut).rill r = s.rill r :=
    (rill_congr (congrArg Ingest.rills (readFailed_ing v st fn a timedOut)) r).trans rill
  generalize v.readFailed st fn a timedOut = w at *
  have p := pollFailed_keeps (.refl w) r (Within.mem _)
  obtain ⟨count, state, -⟩ := pollFailed_spec w r
  obtain ⟨x, y, eq⟩ := pollFailed_rill w r
  rw [same] at count state
  refine ⟨⟨count, ?_, by rw [eq, same]⟩, (p.reg_eq (by decide) (by decide) regOk_late).trans late, ?_, ?_⟩
  · rw [state, attached]
    by_cases many : 7 ≤ (s.rill r).failedPolls
    · rw [if_pos many, if_pos (by omega)]
    · rw [if_neg many, if_neg (by omega)]
  · rintro rfl
    rw [p.reg_eq (by decide) (by decide) (by decide +kernel), rdfail, reg _ (.inl rfl)]
    rfl
  · rintro rfl
    rw [p.reg_eq (by decide) (by decide) (by decide +kernel), cplto, reg _ (.inr rfl)]
    rfl

/-- A poll that finds one descriptor (R196, R199, R207). -/
theorem pollOne_spec {s v : State} (like : PollLike s v) {r : Nat} {k : RillClass} {b : DecBind} {e : List Byte}
    (es : List (ReadRes (List Byte))) :
    let d := readDescriptor e
    let st := descStatus d (s.poolSize (if k.codec = 4 then b.framePool else b.auPool))
    let x := s.rill r
    let y := (v.takeAll r k b 1 (.ok e :: es)).rill r
    let taken := y.nextIndex = (x.nextIndex + 1) % 2 ^ 32 ∧ y.failedPolls = 0
    (st = none → k.codec = 4 → taken ∧ y.readIndex = x.readIndex ∧ y.copies = x.copies ++ [s.jobOf r k d 0 (Handle.mk 0 0)]) ∧
    (∀ h, st = none → k.codec ≠ 4 → (s.alloc b.auPool).1 = some h →
      taken ∧ y.readIndex = x.readIndex ∧ y.copies = x.copies ++ [s.jobOf r k d 0 h]) ∧
    (st = none → k.codec ≠ 4 → (s.alloc b.auPool).1 = none →
      y.copies = x.copies ∧ y.nextIndex = x.nextIndex ∧ y.auWaits = min 0xFFFFFFFF (x.auWaits + 1)) ∧
    (∀ q, st = some q → x.copies = [] → taken ∧ y.copies = [] ∧ y.readIndex = (x.readIndex + 1) % 2 ^ 32 ∧
      y.refused = min 0xFFFFFFFF (x.refused + 1)) ∧
    (∀ q a as, st = some q → x.copies = a :: as → a.status = 0 →
      taken ∧ y.readIndex = x.readIndex ∧ y.copies = x.copies ++ [s.jobOf r k d q (Handle.mk 0 0)]) := by
  dsimp only
  rw [takeAll_one]
  have read : PollLike s (v.hostRead 32) := like.trans (.of_keeps (hostRead_keeps (.refl v) 32 (Within.mem _)))
  obtain ⟨refused, raw, unit, stops⟩ := takeDescriptor_spec (s := v.hostRead 32) (r := r) (k := k) (b := b) (d := readDescriptor e)
  simp only [poolSize_congr read.alloc.pools, (read.alloc.alloc b.auPool).1, read.rill, read.jobOf, read.withJob] at refused raw unit stops
  refine ⟨fun st codec => ?_, fun h st codec got => ?_, fun st codec got => ?_, fun q st empty => ?_, fun q a as st some_ good => ?_⟩
  · obtain ⟨w, own, eq⟩ := raw st codec
    rw [eq, own]
    exact ⟨⟨rfl, rfl⟩, rfl, rfl⟩
  · obtain ⟨w, own, eq⟩ := unit h st codec got
    rw [eq, own]
    exact ⟨⟨rfl, rfl⟩, rfl, rfl⟩
  · obtain ⟨w, own, eq⟩ := stops st codec got
    rw [eq, own]
    exact ⟨rfl, rfl, rfl⟩
  · obtain ⟨w, own, eq⟩ := refused q st
    have only : (w.rill r).copies = [s.jobOf r k (readDescriptor e) q (Handle.mk 0 0)] := by
      rw [own]
      exact congrArg (· ++ _) empty
    have skip : w.skipRefused r (w.rill r).copies =
        (w.updRill r (fun x => { x with copies := [] })).skipDescriptor r (s.jobOf r k (readDescriptor e) q (Handle.mk 0 0)) := by
      rw [only]
      exact if_neg (descStatus_some st)
    rw [eq]
    dsimp only
    have noted := skipDescriptor_rill (w.updRill r (fun x => { x with copies := [] })) r (s.jobOf r k (readDescriptor e) q (Handle.mk 0 0))
    rw [rill_updRill, if_pos rfl, own] at noted
    unfold Rill.Noted at noted
    rw [skip, noted]
    exact ⟨⟨rfl, rfl⟩, rfl, rfl, rfl⟩
  · obtain ⟨w, own, eq⟩ := refused q st
    have skip : w.skipRefused r (w.rill r).copies = w := by
      refine skipRefused_none ?_ w r
      rw [own]
      intro j head
      unfold State.withJob at head
      dsimp only at head
      rw [some_] at head
      cases head
      exact good
    rw [eq]
    dsimp only
    rw [skip, own]
    exact ⟨⟨rfl, rfl⟩, rfl, rfl⟩

/-- Settles O48: a poll by its header, and the one descriptor that it finds by its checks. -/
theorem ringPolls : Obligations.RingPolls := by
  intro r late header ds s
  have k := execRingPoll_keeps (.refl s) r late header ds (Within.mem _)
  change KeepsOut _ s (exec (.ringPoll r late header ds) s) at k
  obtain ⟨idle, runs⟩ := exec_ringPoll r late header ds s
  obtain ⟨t, ran⟩ : ∃ t, exec (.ringPoll r late header ds) s = .next t := ⟨_, rfl⟩
  have is_ : ∀ {v : State}, exec (.ringPoll r late header ds) s = .next v → t = v := fun h => Host.Outcome.next.inj (ran.symm.trans h)
  rw [ran] at k
  refine completes_of ran k (by decide +kernel) ?_
  dsimp only
  refine ⟨fun off => is_ (idle off), fun c k b ctx cls bind => ?_⟩
  obtain ⟨stays, bars, polls⟩ := runs c k b ctx cls bind
  refine ⟨fun off => is_ (stays off), fun on bar => ?_, fun on may => ?_⟩
  · rw [is_ (bars on bar)]
    exact ⟨(count_keeps (cs := fun c => c ∈ [Comp.reg .INGEST_POLL_LATE]) (.refl s) _ _ (.inr (by decide))).changesOnly, count_reg _ _ _ regOk_late⟩
  obtain ⟨fails, times, reads⟩ := polls on may
  have start := pollStart_keeps s late
  have attached : (s.rill r).st = .attached := on.1
  have rill : (s.pollStart late).rill r = s.rill r := rill_congr (start.ing.rills.resolve_left (by decide)) r
  have regs : ∀ q, q = Reg.HEP_CNT_RDFAIL ∨ q = Reg.HEP_CNT_CPLTO → (s.pollStart late).reg q 0 0 = s.reg q 0 0 := by
    rintro q (rfl | rfl) <;> exact start.reg_eq (by decide) (by decide) (by decide +kernel)
  cases header with
  | failed =>
    obtain ⟨failed, kept, rdfail, -⟩ := pollRead_spec rill attached Status.ringReads (s.rill r).fn (s.rill r).ringAddr false regs
    rw [is_ (fails rfl)]
    exact ⟨kept.trans (pollStart_late s late), fun _ => ⟨failed, rdfail rfl⟩, (by rintro ⟨⟩), (by rintro _ ⟨⟩)⟩
  | timedOut =>
    obtain ⟨failed, kept, -, cplto⟩ := pollRead_spec rill attached Status.ringReads (s.rill r).fn (s.rill r).ringAddr true regs
    rw [is_ (times rfl)]
    exact ⟨kept.trans (pollStart_late s late), (by rintro ⟨⟩), fun _ => ⟨failed, cplto rfl⟩, (by rintro _ ⟨⟩)⟩
  | ok bs =>
    obtain ⟨faults, takes⟩ := reads bs rfl
    have read := hostRead_keeps (.refl (s.pollStart late)) 64 (Within.mem _)
    have like : PollLike s ((s.pollStart late).hostRead 64) := PollLike.trans (.of_keeps start) (.of_keeps read)
    have kept : ((s.pollStart late).hostRead 64).reg .INGEST_POLL_LATE 0 0 = _ :=
      (read.reg_eq (by decide) (by decide) regOk_late).trans (pollStart_late s late)
    generalize (s.pollStart late).hostRead 64 = v at *
    cases bad : indexFault (s.rill r) (fieldOf bs 0 4) with
    | true =>
      rw [is_ (faults bad)]
      have p := rillFault_keeps (.refl v) r Status.ringIndices (Within.mem _)
      have own := (rillFault_rill v (r := r) (st := Status.ringIndices) r).trans (if_pos rfl)
      rw [like.rill] at own
      refine ⟨(p.reg_eq (by decide) (by decide) regOk_late).trans kept, (by rintro ⟨⟩), (by rintro ⟨⟩), ?_⟩
      rintro _ ⟨⟩
      refine ⟨fun _ => by rw [own]; exact ⟨rfl, rfl, rfl⟩, fun h => ?_, fun h => ?_, fun e es h => ?_⟩ <;> · rw [bad] at h; cases h
    | false =>
      rw [is_ (takes bad)]
      have p := takeAll_keeps (.refl v) r k b ((s.rill r).behind (fieldOf bs 0 4)) ds (Within.mem _)
      refine ⟨(p.reg_eq (by decide) (by decide) regOk_late).trans kept, (by rintro ⟨⟩), (by rintro ⟨⟩), ?_⟩
      rintro _ ⟨⟩
      refine ⟨fun h => ?_, fun _ none_ => ?_, fun _ => ?_, ?_⟩
      · rw [bad] at h
        cases h
      · rw [show (s.rill r).behind (fieldOf bs 0 4) = 0 from none_, takeAll_end, like.rill]
      · obtain ⟨m, few, next⟩ := takeAll_next v r k b ((s.rill r).behind (fieldOf bs 0 4)) ds
        rw [like.rill] at next
        exact ⟨m, few, next⟩
      · rintro e es _ one rfl
        rw [show (s.rill r).behind (fieldOf bs 0 4) = 1 from one]
        obtain ⟨raw, unit, stops, empty, behind⟩ := pollOne_spec like (r := r) (k := k) (b := b) (e := e) es
        refine ⟨fun plain => ?_, raw, unit, stops, empty, behind⟩
        unfold State.stamp
        dsimp only
        rw [if_neg (by simp [plain])]
        simp only [Bool.and_eq_true, Bool.not_eq_true']

end Sys2Proof.Machine
end

section
/-! SUPPORT. Records and issues of commands (R124, R137 to R142, R154, R155). -/

set_option Elab.async false

namespace Sys2Proof.Machine

variable {cs : Comp → Prop} {u : State}

/-! ## What an issue reads of the state -/

/-- States in which a command is issued to the same places. -/
structure IssueLike (s v : State) : Prop where
  dev : v.dev = s.dev
  weir : v.weir = s.weir
  ldr : v.ldr = s.ldr
  cores : v.slu.cores = s.slu.cores
  place : ∀ k, (v.ctxRun k).place = (s.ctxRun k).place

theorem IssueLike.refl (s : State) : IssueLike s s := ⟨rfl, rfl, rfl, rfl, fun _ => rfl⟩

theorem IssueLike.trans {s v w : State} (h : IssueLike s v) (g : IssueLike v w) : IssueLike s w :=
  ⟨g.dev.trans h.dev, g.weir.trans h.weir, g.ldr.trans h.ldr, g.cores.trans h.cores, fun k => (g.place k).trans (h.place k)⟩

theorem IssueLike.upd (s : State) (c : Nat) {f : CtxRun → CtxRun} (h : ∀ x, (f x).place = x.place) : IssueLike s (s.updCtxRun c f) := by
  refine ⟨rfl, rfl, rfl, rfl, fun k => ?_⟩
  rw [ctxRun_updCtxRun]
  split
  · next own => rw [own, h]
  · rfl

theorem IssueLike.of_keeps {cs : List Comp} {s v : State} (k : Keeps (fun c => c ∈ cs) s v) (dev : ∀ c ∈ Comp.allDev, c ∉ cs := by decide)
    (weir : ∀ c ∈ Comp.allWeir, c ∉ cs := by decide) (ldr : ∀ c ∈ Comp.allLdr, c ∉ cs := by decide)
    (cores : .sluCores ∉ cs := by decide) (ctxs : .sluCtxs ∉ cs := by decide) : IssueLike s v :=
  ⟨k.dev_eq dev, k.weir_eq weir, k.ldr_eq ldr, k.slu.cores.resolve_left cores, fun c => by rw [ctxRun_congr (k.slu.ctxs.resolve_left ctxs)]⟩

theorem keepIssue_like (s : State) (c : Nat) (k : Kept) : IssueLike s (s.keepIssue c k) := by
  refine IssueLike.upd s c fun x => ?_
  split <;> rfl

section
variable {s v : State} (h : IssueLike s v)
include h

theorem IssueLike.clusters (c : Nat) : v.maskClusters c = s.maskClusters c := by
  unfold State.maskClusters State.ctxEntry State.clusters
  rw [h.ldr, h.dev]

theorem IssueLike.recs (c : Cmd) (n : Nat) (bounds : List Nat) : v.recsOf c n bounds = s.recsOf c n bounds := by
  unfold State.recsOf
  rw [h.clusters, h.place]

theorem IssueLike.stripes (c : Cmd) (n : Nat) (bounds : List Nat) : v.stripesFit c n bounds = s.stripesFit c n bounds := by
  unfold State.stripesFit State.idleCores
  simp only [h.dev, core_congr h.cores]

theorem IssueLike.live : v.recLive = s.recLive := funext fun x => recLive_congr h.dev h.weir x

theorem IssueLike.space (c n space off : Nat) : v.spaceAddr c n space off = s.spaceAddr c n space off := by
  unfold State.spaceAddr State.shareBase State.scratchBase
  rw [h.place, h.ldr]

theorem IssueLike.windows (c : Cmd) (n : Nat) : v.windowsOf c n = s.windowsOf c n := by
  unfold State.windowsOf
  simp only [h.space]

theorem IssueLike.overlap (c : Cmd) (n : Nat) (items : List Item) (bounds : List Nat) (w g : Nat) :
    v.overlapAtIssue c n items bounds w g = s.overlapAtIssue c n items bounds w g := by
  unfold State.overlapAtIssue State.outRanges
  simp only [h.space]

end

/-! ## Records as an issue writes them -/

/-- A record at tile 0 of a generation (Table 5.5). -/
def State.recReady (s : State) (gen tiles : Nat) (x : WorkRec) : Prop :=
  s.recField x 0 4 = 0 ∧ s.recField x 4 4 = gen % 2 ^ 32 ∧ s.recField x 8 4 = tiles % 2 ^ 32 ∧ s.recField x 12 4 = 0

theorem recReady_congr {s t : State} (basins : t.slu.basins = s.slu.basins) {gen tiles : Nat} {x : WorkRec} (h : s.recReady gen tiles x) :
    t.recReady gen tiles x := by
  unfold State.recReady at h ⊢
  simpa only [recField_congr (basin_congr basins x.cluster)] using h

/-- The bytes of a record at its issue. -/
def recBytes (c : Cmd) (gen tiles : Nat) (r : WorkRec) : List Byte :=
  leBytes 4 0 ++ leBytes 4 gen ++ leBytes 4 tiles ++ leBytes 4 0 ++ leBytes 2 c.ctx ++ leBytes 2 c.index ++ leBytes 1 r.shard ++
    leBytes 1 0 ++ leBytes 2 0 ++ List.replicate 40 0

def State.writeRec (s : State) (c : Cmd) (gen tiles : Nat) (r : WorkRec) : State :=
  s.setBasin r.cluster (Mem.writeList (s.basin r.cluster) r.addr (recBytes c gen tiles r))

theorem writeRecs_cons (s : State) (c : Cmd) (gen tiles : Nat) (r : WorkRec) (rs : List WorkRec) :
    s.writeRecs c gen tiles (r :: rs) = (s.writeRec c gen tiles r).writeRecs c gen tiles rs := by
  unfold State.writeRec recBytes
  rw [State.writeRecs]

theorem recBytes_length (c : Cmd) (gen tiles : Nat) (r : WorkRec) : (recBytes c gen tiles r).length = 64 := rfl

/-- A field of a list of bytes that is written is read back. -/
theorem rd_writeList_part (m : Mem) (a n v : Nat) (pre post : List Byte) :
    Mem.rd (Mem.writeList m a (pre ++ leBytes n v ++ post)) (a + pre.length) n = v % 256 ^ n := by
  rw [← leVal_leBytes]
  refine congrArg leVal (Mem.readList_eq (leBytes_length n v) fun i hi => ?_)
  have inside : pre.length + i < (pre ++ leBytes n v ++ post).length := by
    simp only [List.length_append]
    omega
  rw [Nat.add_assoc, Mem.read_writeList m a _ inside]
  simp only [List.append_assoc, List.getElem_append_right (Nat.le_add_right _ _), Nat.add_sub_cancel_left]
  rw [List.getElem_append_left hi]

theorem recField_writeRec (s : State) (c : Cmd) (gen tiles : Nat) {r x : WorkRec} (cl : r.cluster = x.cluster) (o n : Nat) :
    (s.writeRec c gen tiles r).recField x o n = Mem.rd (Mem.writeList (s.basin x.cluster) r.addr (recBytes c gen tiles r)) (x.addr + o) n := by
  unfold State.recField State.writeRec
  rw [basin_setBasin, cl, if_pos rfl]

/-- A record is ready when it, or another that lies in the same place, has been written. -/
theorem writeRec_ready (s : State) (c : Cmd) (gen tiles : Nat) {r x : WorkRec} (cl : r.cluster = x.cluster) (at_ : r.addr = x.addr) :
    (s.writeRec c gen tiles r).recReady gen tiles x := by
  have next := rd_writeList_part (s.basin x.cluster) x.addr 4 0 [] (leBytes 4 gen ++ leBytes 4 tiles ++ leBytes 4 0 ++ leBytes 2 c.ctx ++
    leBytes 2 c.index ++ leBytes 1 r.shard ++ leBytes 1 0 ++ leBytes 2 0 ++ List.replicate 40 0)
  have generation := rd_writeList_part (s.basin x.cluster) x.addr 4 gen (leBytes 4 0) (leBytes 4 tiles ++ leBytes 4 0 ++ leBytes 2 c.ctx ++
    leBytes 2 c.index ++ leBytes 1 r.shard ++ leBytes 1 0 ++ leBytes 2 0 ++ List.replicate 40 0)
  have count := rd_writeList_part (s.basin x.cluster) x.addr 4 tiles (leBytes 4 0 ++ leBytes 4 gen) (leBytes 4 0 ++ leBytes 2 c.ctx ++
    leBytes 2 c.index ++ leBytes 1 r.shard ++ leBytes 1 0 ++ leBytes 2 0 ++ List.replicate 40 0)
  have done := rd_writeList_part (s.basin x.cluster) x.addr 4 0 (leBytes 4 0 ++ leBytes 4 gen ++ leBytes 4 tiles) (leBytes 2 c.ctx ++
    leBytes 2 c.index ++ leBytes 1 r.shard ++ leBytes 1 0 ++ leBytes 2 0 ++ List.replicate 40 0)
  unfold State.recReady
  simp only [recField_writeRec s c gen tiles cl, at_, recBytes, List.append_assoc] at next generation count done ⊢
  exact ⟨next, generation, count, done⟩

/-- A record that is ready stays ready when one beside it is written. -/
theorem writeRec_apart {s : State} {gen tiles : Nat} {x : WorkRec} (ready : s.recReady gen tiles x) (c : Cmd) {r : WorkRec} (h : r.apart x) :
    (s.writeRec c gen tiles r).recReady gen tiles x := by
  by_cases cl : r.cluster = x.cluster
  · have field : ∀ o, o + 4 ≤ 16 → (s.writeRec c gen tiles r).recField x o 4 = s.recField x o 4 := by
      intro o low
      rw [recField_writeRec s c gen tiles cl]
      refine congrArg leVal (Mem.readList_congr fun i hi => Mem.read_writeList_ne _ _ _ ?_)
      rw [recBytes_length]
      have away := h.resolve_left (fun other => other cl)
      omega
    unfold State.recReady at ready ⊢
    rwa [field 0 (by decide), field 4 (by decide), field 8 (by decide), field 12 (by decide)]
  · have same : (s.writeRec c gen tiles r).basin x.cluster = s.basin x.cluster :=
      (basin_setBasin s _ _ _).trans (if_neg fun e => cl e.symm)
    unfold State.recReady at ready ⊢
    simpa only [recField_congr same] using ready

/-- Records that share no byte, or lie in the same place. -/
def WorkRec.tidy (x y : WorkRec) : Prop := x.apart y ∨ (x.cluster = y.cluster ∧ x.addr = y.addr)

theorem WorkRec.tidy.symm {x y : WorkRec} (h : x.tidy y) : y.tidy x := h.imp WorkRec.apart.symm fun ⟨cl, at_⟩ => ⟨cl.symm, at_.symm⟩

theorem writeRec_tidy {s : State} {gen tiles : Nat} {x : WorkRec} (ready : s.recReady gen tiles x) (c : Cmd) {r : WorkRec} (h : r.tidy x) :
    (s.writeRec c gen tiles r).recReady gen tiles x :=
  h.elim (writeRec_apart ready c) fun ⟨cl, at_⟩ => writeRec_ready s c gen tiles cl at_

theorem writeRecs_ready {s : State} {gen tiles : Nat} {x : WorkRec} (ready : s.recReady gen tiles x) (c : Cmd) {rs : List WorkRec}
    (h : ∀ r ∈ rs, r.tidy x) : (s.writeRecs c gen tiles rs).recReady gen tiles x := by
  induction rs generalizing s with
  | nil => exact ready
  | cons r rs ih =>
    rw [writeRecs_cons]
    exact ih (writeRec_tidy ready c (h r (List.mem_cons_self ..))) fun q mem => h q (List.mem_cons_of_mem _ mem)

theorem writeRecs_all (s : State) (c : Cmd) (gen tiles : Nat) {rs : List WorkRec} (tidy : rs.Pairwise WorkRec.tidy) :
    ∀ x ∈ rs, (s.writeRecs c gen tiles rs).recReady gen tiles x := by
  induction rs generalizing s with
  | nil => exact fun _ => nofun
  | cons r rs ih =>
    obtain ⟨first, rest⟩ := List.pairwise_cons.1 tidy
    intro x mem
    rw [writeRecs_cons]
    rcases List.mem_cons.1 mem with rfl | mem
    · exact writeRecs_ready (writeRec_ready s c gen tiles rfl rfl) c fun q mem => (first q mem).symm
    · exact ih _ rest x mem

theorem recsOf_tidy (s : State) (c : Cmd) (n : Nat) (bounds : List Nat) : (s.recsOf c n bounds).Pairwise WorkRec.tidy := by
  unfold State.recsOf
  dsimp only
  split
  · refine List.pairwise_map.2 (List.pairwise_lt_range.imp fun {i j} lt => ?_)
    unfold WorkRec.tidy WorkRec.apart
    dsimp only
    by_cases cl : (s.maskClusters c.ctx).getD (i % (s.maskClusters c.ctx).length) 0 = (s.maskClusters c.ctx).getD (j % (s.maskClusters c.ctx).length) 0
    · rw [cl]
      omega
    · exact .inl (.inl cl)
  · exact List.pairwise_singleton ..

/-! ## Issues -/

/-- A command that has been issued (R142). -/
def Issued (c : Cmd) (issue gen : Nat) (bs : List Nat) (w h : Nat) (recs : List WorkRec) (t : State) : Prop :=
  t.cmdRun c.ctx = some { cmd := c.index, issue := issue, gen := gen, bounds := bs, w := w, h := h, recs := recs, killed := false, spent := [] } ∧
  ∀ x ∈ recs, t.recReady gen (c.tileCount bs) x

theorem Issued.congr {s t : State} {c : Cmd} {issue gen w h : Nat} {bs : List Nat} {recs : List WorkRec} (issued : Issued c issue gen bs w h recs s)
    (cmds : t.slu.cmds = s.slu.cmds) (basins : t.slu.basins = s.slu.basins) : Issued c issue gen bs w h recs t :=
  ⟨(cmdRun_congr cmds _).trans issued.1, fun x mem => recReady_congr basins (issued.2 x mem)⟩

theorem putIssue_issued (s : State) (c : Cmd) (n issue gen : Nat) (bs : List Nat) (w h : Nat) :
    Issued c issue gen bs w h (s.recsOf c n bs) (s.putIssue c n issue gen bs w h) := by
  have ready := writeRecs_all (s.presetAll c bs (recClusters (s.recsOf c n bs))) c gen (c.tileCount bs) (recsOf_tidy s c n bs)
  unfold State.putIssue
  dsimp only
  generalize s.recsOf c n bs = recs at *
  generalize (s.presetAll c bs (recClusters recs)).writeRecs c gen (c.tileCount bs) recs = v at *
  have put : Issued c issue gen bs w h recs (v.setCmdRun c.ctx
      { cmd := c.index, issue := issue, gen := gen, bounds := bs, w := w, h := h, recs := recs, killed := false, spent := [] }) :=
    ⟨(cmdRun_setCmdRun v _ _ _).trans (if_pos rfl), fun x mem => recReady_congr rfl (ready x mem)⟩
  generalize v.setCmdRun c.ctx _ = v at *
  split
  · have check := sprintCheck_keeps (.refl { v with slu := { v.slu with
      groups := v.slu.groups.filter (fun g => g.1 != c.ctx) ++ [(c.ctx, (v.maskClusters c.ctx).take c.shards)] } }) (Within.mem _)
    exact put.congr (t := State.sprintCheck _) (check.slu.cmds.resolve_left (by decide)) (check.slu.basins.resolve_left (by decide))
  · exact put

/-! ## The window table -/

theorem dropWindows_like (s : State) (c cmd : Nat) : IssueLike s (s.dropWindows c cmd) := ⟨rfl, rfl, rfl, rfl, fun _ => rfl⟩

/-- The state in which the windows of a command are recorded (R124). -/
def State.tabled (s : State) (c : Cmd) (st : StepRun) : State :=
  { s.dropWindows c.ctx c.index with dram := { (s.dropWindows c.ctx c.index).dram with
    windows := (s.dropWindows c.ctx c.index).dram.windows ++ s.windowsOf c st.cluster } }.updCtxRun c.ctx fun x =>
      { x with step := some { st with delayed := false } }

theorem tabled_like (s : State) (c : Cmd) (st : StepRun) : IssueLike s (s.tabled c st) :=
  IssueLike.trans (v := { s.dropWindows c.ctx c.index with dram := { (s.dropWindows c.ctx c.index).dram with
    windows := (s.dropWindows c.ctx c.index).dram.windows ++ s.windowsOf c st.cluster } }) ⟨rfl, rfl, rfl, rfl, fun _ => rfl⟩
    (IssueLike.upd _ _ fun _ => rfl)

theorem tabled_step (s : State) (c : Cmd) (st : StepRun) : (s.tabled c st).stepOf c.ctx = some { st with delayed := false } := by
  unfold State.stepOf State.tabled
  rw [ctxRun_updCtxRun, if_pos rfl]

theorem withWindows_fits {s : State} {c : Cmd} {st : StepRun}
    (room : (s.dropWindows c.ctx c.index).dram.windows.length + (s.windowsOf c st.cluster).length ≤ 256) (f : State → State) :
    s.withWindows c st f = f (s.tabled c st) := if_neg (Nat.not_lt.2 room)

theorem regOk_winWait : regOk .SLUICE_CNT_WINWAIT 0 0 = true := by decide +kernel

/-- An issue that finds the table full counts once (R124). -/
theorem withWindows_full {s : State} {c : Cmd} {st : StepRun}
    (full : 256 < (s.dropWindows c.ctx c.index).dram.windows.length + (s.windowsOf c st.cluster).length) (f : State → State) :
    (s.withWindows c st f).slu.cmds = s.slu.cmds ∧ (s.withWindows c st f).dram = s.dram ∧
    (s.withWindows c st f).reg .SLUICE_CNT_WINWAIT 0 0 =
      if st.delayed = true then s.reg .SLUICE_CNT_WINWAIT 0 0 else counted (s.reg .SLUICE_CNT_WINWAIT 0 0) := by
  have e : s.withWindows c st f = if st.delayed then s else
      (s.updCtxRun c.ctx fun x => { x with step := some { st with delayed := true } }).count .SLUICE_CNT_WINWAIT 0 := if_pos full
  rw [e]
  split
  · exact ⟨rfl, rfl, rfl⟩
  · generalize delay : s.updCtxRun c.ctx _ = v
    have cmds : v.slu.cmds = s.slu.cmds := by rw [← delay]; rfl
    have dram : v.dram = s.dram := by rw [← delay]; rfl
    have reg : v.reg .SLUICE_CNT_WINWAIT 0 0 = s.reg .SLUICE_CNT_WINWAIT 0 0 := by rw [← delay]; rfl
    exact ⟨(by simp; exact cmds), (by simp; exact dram), by rw [count_reg v _ _ regOk_winWait, reg]; rfl⟩

end Sys2Proof.Machine
end

section
/-! SUPPORT. Issue and re-issue of a context's command (R137 to R140, R146, R153, R155). -/

set_option Elab.async false

namespace Sys2Proof.Machine

variable {cs : Comp → Prop} {u : State}

/-! ## First and further issues -/

/-- Whether the cores and basins let a command be issued (R172, R304). -/
def State.fits (s : State) (c : Cmd) (n : Nat) (bs : List Nat) : Prop :=
  s.stripesFit c n bs = true ∧ ∀ x ∈ s.recsOf c n bs, s.recLive x = true

theorem IssueLike.fits {s v : State} (h : IssueLike s v) (c : Cmd) (n : Nat) (bs : List Nat) : v.fits c n bs ↔ s.fits c n bs := by
  unfold State.fits
  rw [h.stripes, h.recs, h.live]

theorem fits_test (s : State) (c : Cmd) (n : Nat) (bs : List Nat) :
    (!s.stripesFit c n bs || !(s.recsOf c n bs).all s.recLive) = true ↔ ¬ s.fits c n bs := by
  unfold State.fits
  rw [Bool.or_eq_true, Bool.not_eq_true', Bool.not_eq_true', not_and_or, Bool.not_eq_true, ← List.all_eq_true, Bool.not_eq_true]

theorem issueFirst_empty {s : State} {c : Cmd} {bs : List Nat} {w h : Nat} {e : W16} (empty : c.emptyStatus bs w h = some e) (st : StepRun) :
    s.issueFirst c st bs w h = s.cmdCommit c.ctx e := by
  unfold State.issueFirst
  rw [empty]

/-- The state in which what Sluice read for a command's first issue is kept (R137). -/
def State.firstKept (v : State) (c : Cmd) (bs : List Nat) (w h : Nat) : State :=
  State.keepIssue { v with freeIdx := v.freeIdx + 1 } c.ctx
    { cmd := c.index, bounds := bs, w := w, h := h, issue := v.freeIdx, gen := Config.freeValue v.freeIdx % 2 ^ 32 }

theorem firstKept_like (v : State) (c : Cmd) (bs : List Nat) (w h : Nat) : IssueLike v (v.firstKept c bs w h) :=
  IssueLike.trans (v := { v with freeIdx := v.freeIdx + 1 }) ⟨rfl, rfl, rfl, rfl, fun _ => rfl⟩ (keepIssue_like _ _ _)

section
variable {s : State} {c : Cmd} {st : StepRun} {bs : List Nat} {w h : Nat} (full : c.emptyStatus bs w h = none)
include full

theorem issueFirst_overlap (on : s.overlapAtIssue c st.cluster st.items bs w h = true) :
    s.issueFirst c st bs w h = s.boundFault c st.cluster 0x2012#16 none := by
  unfold State.issueFirst
  rw [full]
  exact if_pos on

variable (off : s.overlapAtIssue c st.cluster st.items bs w h = false)
include off

theorem issueFirst_unfit (no : ¬ s.fits c st.cluster bs) : s.issueFirst c st bs w h = s := by
  unfold State.issueFirst
  rw [full]
  exact (if_neg (by rw [off]; decide)).trans (if_pos ((fits_test ..).2 no))

theorem issueFirst_fits (yes : s.fits c st.cluster bs) : s.issueFirst c st bs w h = s.withWindows c st fun v =>
    (v.firstKept c bs w h).putIssue c st.cluster v.freeIdx (Config.freeValue v.freeIdx % 2 ^ 32) bs w h := by
  unfold State.issueFirst
  rw [full]
  exact (if_neg (by rw [off]; decide)).trans (if_neg fun no => (fits_test ..).1 no yes)

theorem issueFirst_issued (yes : s.fits c st.cluster bs)
    (room : (s.dropWindows c.ctx c.index).dram.windows.length + (s.windowsOf c st.cluster).length ≤ 256) :
    (s.issueFirst c st bs w h).dram.windows = (s.dropWindows c.ctx c.index).dram.windows ++ s.windowsOf c st.cluster ∧
    Issued c s.freeIdx (Config.freeValue s.freeIdx % 2 ^ 32) bs w h (s.recsOf c st.cluster bs) (s.issueFirst c st bs w h) := by
  rw [issueFirst_fits full off yes, withWindows_fits room]
  have like := (tabled_like s c st).trans (firstKept_like (s.tabled c st) c bs w h)
  have windows : ((s.tabled c st).firstKept c bs w h).dram.windows = (s.dropWindows c.ctx c.index).dram.windows ++ s.windowsOf c st.cluster := rfl
  have put := putIssue_issued ((s.tabled c st).firstKept c bs w h) c st.cluster (s.tabled c st).freeIdx
    (Config.freeValue (s.tabled c st).freeIdx % 2 ^ 32) bs w h
  have kept := putIssue_keeps (.refl ((s.tabled c st).firstKept c bs w h)) c st.cluster (s.tabled c st).freeIdx
    (Config.freeValue (s.tabled c st).freeIdx % 2 ^ 32) bs w h (Within.mem _)
  rw [like.recs] at put
  exact ⟨(congrArg Dram.windows (kept.dram_eq (by decide))).trans windows, put⟩

end

theorem issueAgain_issued {s : State} {c : Cmd} {st : StepRun} {k : Kept} (yes : s.fits c st.cluster k.bounds)
    (room : (s.dropWindows c.ctx c.index).dram.windows.length + (s.windowsOf c st.cluster).length ≤ 256) :
    Issued c k.issue ((k.gen + 1) % 2 ^ 32) k.bounds k.w k.h (s.recsOf c st.cluster k.bounds) (s.issueAgain c st k) := by
  have e : s.issueAgain c st k = s.withWindows c st fun v =>
      (v.keepIssue c.ctx { k with gen := (k.gen + 1) % 2 ^ 32 }).putIssue c st.cluster k.issue ((k.gen + 1) % 2 ^ 32) k.bounds k.w k.h :=
    if_neg fun no => (fits_test ..).1 no yes
  have like := (tabled_like s c st).trans (keepIssue_like (s.tabled c st) c.ctx { k with gen := (k.gen + 1) % 2 ^ 32 })
  have put := putIssue_issued ((s.tabled c st).keepIssue c.ctx { k with gen := (k.gen + 1) % 2 ^ 32 }) c st.cluster k.issue
    ((k.gen + 1) % 2 ^ 32) k.bounds k.w k.h
  rw [e, withWindows_fits room, ← like.recs]
  exact put

/-! ## Faults at issue -/

/-- What a fault at issue leaves of a context (R127). -/
def issueFaults (ctx : Nat) (w : W16) (t : State) : Prop := t.stepOf ctx = none ∧ t.cmdRun ctx = none ∧
  t.reg .SLUICE_LAST_FAULT 0 0 = BitVec.ofNat 64 (w.toNat + 65536 * (ctx % 4096))

theorem cmdFault_faults (s : State) (ctx : Nat) (w : W16) : issueFaults ctx w (s.cmdFault ctx w) := by
  obtain ⟨idle, gone, last, -⟩ := cmdFault_spec s ctx w
  exact ⟨gone, idle, last⟩

theorem regOk_boundFlt : ∀ {n : Nat}, n < 4 → regOk .CL_CNT_BOUNDFLT n 0 = true ∧ regOk .CL_LAST_BOUNDFLT n 0 = true := by decide +kernel

/-- A bound fault as one cluster counts it (R155). -/
def State.boundCounted (s : State) (last : Option Nat) (n : Nat) : State :=
  match last with
  | some v => (s.count .CL_CNT_BOUNDFLT n).setReg .CL_LAST_BOUNDFLT n 0 (BitVec.ofNat 64 v)
  | none => s.count .CL_CNT_BOUNDFLT n

theorem countBound_cons (s : State) (last : Option Nat) (n : Nat) (ns : List Nat) :
    s.countBound last (n :: ns) = (s.boundCounted last n).countBound last ns := by
  unfold State.boundCounted
  cases last <;> rfl

theorem boundCounted_other (s : State) (last : Option Nat) {n m : Nat} (hn : n < 4) (other : n ≠ m) :
    (s.boundCounted last m).reg .CL_CNT_BOUNDFLT n 0 = s.reg .CL_CNT_BOUNDFLT n 0 ∧
    (s.boundCounted last m).reg .CL_LAST_BOUNDFLT n 0 = s.reg .CL_LAST_BOUNDFLT n 0 := by
  obtain ⟨cnt, lst⟩ := regOk_boundFlt hn
  have counted := And.intro (count_reg_other s (r := .CL_CNT_BOUNDFLT) (u := m) cnt (.inr (.inl other)))
    (count_reg_other s (r := .CL_CNT_BOUNDFLT) (u := m) lst (.inr (.inl other)))
  unfold State.boundCounted
  cases last with
  | none => exact counted
  | some v => exact ⟨(reg_setReg_other _ _ cnt (.inr (.inl other))).trans counted.1, (reg_setReg_other _ _ lst (.inr (.inl other))).trans counted.2⟩

theorem boundCounted_own (s : State) (last : Option Nat) {n : Nat} (hn : n < 4) :
    (s.boundCounted last n).reg .CL_CNT_BOUNDFLT n 0 = counted (s.reg .CL_CNT_BOUNDFLT n 0) ∧
    ∀ v, last = some v → (s.boundCounted last n).reg .CL_LAST_BOUNDFLT n 0 = BitVec.ofNat 64 v := by
  obtain ⟨cnt, lst⟩ := regOk_boundFlt hn
  unfold State.boundCounted
  cases last with
  | none => exact ⟨count_reg s _ _ cnt, nofun⟩
  | some v =>
    refine ⟨(reg_setReg_other _ _ cnt (.inl (by decide))).trans (count_reg s _ _ cnt), fun w e => ?_⟩
    cases e
    exact reg_setReg_self _ _ lst

theorem countBound_other (s : State) (last : Option Nat) {n : Nat} (hn : n < 4) {ns : List Nat} (out : n ∉ ns) :
    (s.countBound last ns).reg .CL_CNT_BOUNDFLT n 0 = s.reg .CL_CNT_BOUNDFLT n 0 ∧
    (s.countBound last ns).reg .CL_LAST_BOUNDFLT n 0 = s.reg .CL_LAST_BOUNDFLT n 0 := by
  induction ns generalizing s with
  | nil => exact ⟨rfl, rfl⟩
  | cons m ms ih =>
    simp only [List.mem_cons, not_or] at out
    obtain ⟨cnt, lst⟩ := ih (s.boundCounted last m) out.2
    obtain ⟨cnt', lst'⟩ := boundCounted_other s last hn out.1
    rw [countBound_cons]
    exact ⟨cnt.trans cnt', lst.trans lst'⟩

/-- Each cluster with a record counts a bound fault once (R155). -/
theorem countBound_own (s : State) (last : Option Nat) {n : Nat} (hn : n < 4) {ns : List Nat} (nodup : ns.Nodup) (mem : n ∈ ns) :
    (s.countBound last ns).reg .CL_CNT_BOUNDFLT n 0 = counted (s.reg .CL_CNT_BOUNDFLT n 0) ∧
    ∀ v, last = some v → (s.countBound last ns).reg .CL_LAST_BOUNDFLT n 0 = BitVec.ofNat 64 v := by
  induction ns generalizing s with
  | nil => cases mem
  | cons m ms ih =>
    obtain ⟨fresh, rest⟩ := List.nodup_cons.1 nodup
    rw [countBound_cons]
    rcases List.mem_cons.1 mem with rfl | mem
    · obtain ⟨cnt, lst⟩ := countBound_other (s.boundCounted last n) last hn fresh
      obtain ⟨cnt', lst'⟩ := boundCounted_own s last hn
      exact ⟨cnt.trans cnt', fun v e => lst.trans (lst' v e)⟩
    · obtain ⟨cnt, lst⟩ := ih (s.boundCounted last m) rest mem
      have other : n ≠ m := fun e => fresh (e ▸ mem)
      exact ⟨cnt.trans (congrArg counted (boundCounted_other s last hn other).1), lst⟩

theorem putOnce_nodup {x : Nat} {xs : List Nat} (h : xs.Nodup) : (putOnce x xs).Nodup := by
  unfold putOnce
  split
  · exact h
  · next fresh =>
    rw [List.contains_eq_mem, decide_eq_true_eq] at fresh
    exact h.append (List.nodup_singleton x) (List.disjoint_singleton.2 fresh)

theorem recClusters_nodup (recs : List WorkRec) : (recClusters recs).Nodup := by
  have run : ∀ (rs : List WorkRec) (l : List Nat), l.Nodup → (rs.foldl (fun l r => putOnce r.cluster l) l).Nodup := by
    intro rs
    induction rs with
    | nil => exact fun _ h => h
    | cons r rs ih => exact fun l h => ih _ (putOnce_nodup h)
  exact run recs [] List.nodup_nil

/-- What CL_LAST_BOUNDFLT shows of a bound fault (R155). -/
def boundShown (c : Cmd) (b : Option (Nat × Nat)) : Option Nat :=
  b.map fun x => x.1 * 2 ^ 32 + x.2 * 2 ^ 28 + c.ctx % 4096 * 65536 + c.index % 65536

/-- A fault at issue, and how each cluster with a record counts a bound above its maximum (R127, R155). -/
theorem boundFault_spec (s : State) (c : Cmd) (cluster : Nat) (w : W16) (b : Option (Nat × Nat)) :
    issueFaults c.ctx w (s.boundFault c cluster w b) ∧
    (w = 0x2011#16 → ∀ n < 4, n ∈ recClusters (s.recsOf c cluster (c.levels.map (·.bound))) →
      (s.boundFault c cluster w b).reg .CL_CNT_BOUNDFLT n 0 = counted (s.reg .CL_CNT_BOUNDFLT n 0) ∧
      ∀ v, boundShown c b = some v → (s.boundFault c cluster w b).reg .CL_LAST_BOUNDFLT n 0 = BitVec.ofNat 64 v) := by
  have eq : s.boundFault c cluster w b = (if w = Status.indirectBound ∨ w = Status.operandOverlap then
      s.countBound (boundShown c b) (recClusters (s.recsOf c cluster (c.levels.map (·.bound)))) else s).cmdFault c.ctx w := rfl
  rw [eq]
  refine ⟨cmdFault_faults _ _ _, fun bound n hn mem => ?_⟩
  obtain ⟨cnt, lst⟩ := countBound_own s (boundShown c b) hn (recClusters_nodup _) mem
  obtain ⟨okCnt, okLst⟩ := regOk_boundFlt hn
  rw [if_pos (.inl bound)]
  generalize s.countBound (boundShown c b) _ = v at *
  have fault := cmdFault_keeps (.refl v) c.ctx w (Within.mem _)
  rw [fault.reg_eq (by decide) (by decide) okCnt, fault.reg_eq (by decide) (by decide) okLst]
  exact ⟨cnt, lst⟩

/-! ## COMMAND_ISSUE -/

theorem exec_commandIssue_none {s : State} {ctx : Nat} (gone : s.stepOf ctx = none) : exec (.commandIssue ctx) s = .next s := by
  change execCommandIssue ctx s = _
  unfold execCommandIssue
  simp only [gone]

theorem mayIssue_iff (s : State) (ctx : Nat) (st : StepRun) :
    ((s.cmdRun ctx).isNone && s.holdsAll ctx st && s.coresQuiet ctx) = true ↔
      (s.cmdRun ctx = none ∧ s.holdsAll ctx st = true ∧ s.coresQuiet ctx = true) := by
  simp only [Bool.and_eq_true, Option.isNone_iff_eq_none, and_assoc]

section
variable {s : State} {ctx : Nat} {st : StepRun} (step : s.stepOf ctx = some st)
include step

theorem exec_commandIssue_no (no : ¬ (s.cmdRun ctx = none ∧ s.holdsAll ctx st = true ∧ s.coresQuiet ctx = true)) :
    exec (.commandIssue ctx) s = .next s := by
  change execCommandIssue ctx s = _
  unfold execCommandIssue
  simp only [step]
  exact congrArg _ (when_neg s (mt (mayIssue_iff s ctx st).1 no) _)

variable (may : s.cmdRun ctx = none ∧ s.holdsAll ctx st = true ∧ s.coresQuiet ctx = true)
include may

theorem exec_commandIssue_fault {w : W16} (kept : (s.ctxRun ctx).fault = some w) : exec (.commandIssue ctx) s = .next (s.cmdFault ctx w) := by
  change execCommandIssue ctx s = _
  unfold execCommandIssue
  simp only [step, when_eq s ((mayIssue_iff s ctx st).2 may), kept]

theorem exec_commandIssue_read (sound : (s.ctxRun ctx).fault = none) {a : Nat} {c : Cmd}
    (record : s.recordAt ctx st.cmd (s.stepOld ctx) = some a) (cmd : s.cmdAt ctx st.cmd (s.stepOld ctx) = some c) :
    exec (.commandIssue ctx) s = .next (s.when (s.reach ((a, s.dramRd (a + 4) 4) :: c.issueWords)) fun v => v.issueRead ctx a c st) := by
  change execCommandIssue ctx s = _
  unfold execCommandIssue
  simp only [step, when_eq s ((mayIssue_iff s ctx st).2 may), sound, record, cmd]

end

/-- The state in which Sluice has read a command's record (R124, R327). -/
def State.recordRead (s : State) (a : Nat) : State := (s.reads portSluice [(a, s.dramRd (a + 4) 4)]).2

/-- The state in which Sluice has read a command's record and its words (R137, R160). -/
def State.wordsRead (s : State) (a : Nat) (c : Cmd) : State := ((s.recordRead a).reads portSluice c.issueWords).2

section
variable {s : State} {ctx a : Nat} {c : Cmd} {st : StepRun}

theorem issueRead_bad {w : W16} (bad : (s.reads portSluice [(a, s.dramRd (a + 4) 4)]).1 = some w) :
    s.issueRead ctx a c st = (s.recordRead a).cmdFault ctx w := by
  unfold State.issueRead
  simp only [bad]
  rfl

variable (good : (s.reads portSluice [(a, s.dramRd (a + 4) 4)]).1 = none)
include good

theorem issueRead_kept {k : Kept} (kept : st.kept.find? (fun k => k.cmd = c.index) = some k) :
    s.issueRead ctx a c st = (s.recordRead a).issueAgain c st k := by
  unfold State.issueRead
  simp only [good, kept]
  rfl

variable (fresh : st.kept.find? (fun k => k.cmd = c.index) = none)
include fresh

theorem issueRead_fault {w : W16} {b : Option (Nat × Nat)} (bad : (s.recordRead a).readIssue c st.items.length = .fault w b) :
    s.issueRead ctx a c st = (s.wordsRead a c).boundFault c st.cluster w b := by
  unfold State.recordRead at bad
  unfold State.issueRead
  simp only [good, fresh, bad]
  rfl

theorem issueRead_first {bs : List Nat} {w h : Nat} (read : (s.recordRead a).readIssue c st.items.length = .ok (bs, w, h)) :
    s.issueRead ctx a c st = (s.wordsRead a c).issueFirst c st bs w h := by
  unfold State.recordRead at read
  unfold State.issueRead
  simp only [good, fresh, read]
  rfl

end

theorem recordRead_keeps (s : State) (a : Nat) : Keeps (fun c => c ∈ visitBlockChanges) s (s.recordRead a) := reads_keeps (.refl s) _ _ (Within.mem _)

theorem wordsRead_keeps (s : State) (a : Nat) (c : Cmd) : Keeps (fun c => c ∈ visitBlockChanges) s (s.wordsRead a c) :=
  reads_keeps (recordRead_keeps s a) _ _ (Within.mem _)

end Sys2Proof.Machine
end

section
/-! SUPPORT. Issue and re-issue of a context's command (R137 to R142, R146, R153, R155). -/

set_option Elab.async false

namespace Sys2Proof.Machine

/-! ## COMMAND_ISSUE, case by case -/

section
variable {s : State} {ctx a : Nat} {c : Cmd} {st : StepRun} (good : (s.reads portSluice [(a, s.dramRd (a + 4) 4)]).1 = none)
include good

/-- A command that has been issued in its step before is issued in the generation after its last (R137). -/
theorem issueRead_again {k : Kept} (kept : st.kept.find? (fun k => k.cmd = c.index) = some k) (yes : s.fits c st.cluster k.bounds)
    (room : (s.dropWindows c.ctx c.index).dram.windows.length + (s.windowsOf c st.cluster).length ≤ 256) :
    Issued c k.issue ((k.gen + 1) % 2 ^ 32) k.bounds k.w k.h (s.recsOf c st.cluster k.bounds) (s.issueRead ctx a c st) := by
  have read := recordRead_keeps s a
  have like := IssueLike.of_keeps read
  have dram : ((s.recordRead a).dropWindows c.ctx c.index).dram.windows = (s.dropWindows c.ctx c.index).dram.windows :=
    congrArg (List.filter _) (read.dram.windows.resolve_left (by decide))
  rw [issueRead_kept good kept, ← like.recs]
  exact issueAgain_issued ((like.fits c st.cluster k.bounds).2 yes) (by rwa [dram, like.windows])

variable (fresh : st.kept.find? (fun k => k.cmd = c.index) = none)
include fresh

/-- A fault of what Sluice reads at an issue (R137, R155, R160). -/
theorem issueRead_faults {w : W16} {b : Option (Nat × Nat)} (bad : (s.recordRead a).readIssue c st.items.length = .fault w b) :
    issueFaults c.ctx w (s.issueRead ctx a c st) ∧
    (w = 0x2011#16 → ∀ n < 4, n ∈ recClusters (s.recsOf c st.cluster (c.levels.map (·.bound))) →
      (s.issueRead ctx a c st).reg .CL_CNT_BOUNDFLT n 0 = counted (s.reg .CL_CNT_BOUNDFLT n 0) ∧
      ∀ v, boundShown c b = some v → (s.issueRead ctx a c st).reg .CL_LAST_BOUNDFLT n 0 = BitVec.ofNat 64 v) := by
  have read := wordsRead_keeps s a c
  have like := IssueLike.of_keeps read
  have fault := boundFault_spec (s.wordsRead a c) c st.cluster w b
  rw [like.recs] at fault
  rw [issueRead_fault good fresh bad]
  refine ⟨fault.1, fun bound n hn mem => ?_⟩
  obtain ⟨cnt, lst⟩ := fault.2 bound n hn mem
  exact ⟨cnt.trans (congrArg counted (read.reg_eq (by decide) (by decide) (regOk_boundFlt hn).1)), lst⟩

variable {bs : List Nat} {w h : Nat} (read : (s.recordRead a).readIssue c st.items.length = .ok (bs, w, h))
include read

theorem issueRead_empty {e : W16} (empty : c.emptyStatus bs w h = some e) {st' : StepRun} (step : s.stepOf c.ctx = some st') :
    (s.issueRead ctx a c st).cmdRun c.ctx = none ∧ ((s.issueRead ctx a c st).ctxRun c.ctx).committed = some (st'.cmd, e) := by
  have kept := wordsRead_keeps s a c
  have same : (s.wordsRead a c).stepOf c.ctx = s.stepOf c.ctx := congrArg CtxRun.step (ctxRun_congr (kept.slu.ctxs.resolve_left (by decide)) _)
  rw [issueRead_first good fresh read, issueFirst_empty empty]
  have done := cmdCommit_committed (same.trans step) e
  exact ⟨done.gone, done.status⟩

variable (full : c.emptyStatus bs w h = none)
include full

theorem issueRead_overlap (on : s.overlapAtIssue c st.cluster st.items bs w h = true) :
    issueFaults c.ctx 0x2012#16 (s.issueRead ctx a c st) := by
  have like := IssueLike.of_keeps (wordsRead_keeps s a c)
  rw [issueRead_first good fresh read, issueFirst_overlap full ((like.overlap ..).trans on)]
  exact (boundFault_spec _ _ _ _ _).1

variable (off : s.overlapAtIssue c st.cluster st.items bs w h = false)
include off

theorem issueRead_unfit (no : ¬ s.fits c st.cluster bs) : changesOnly Comp.dramSeen s (s.issueRead ctx a c st) := by
  have kept := wordsRead_keeps s a c
  have like := IssueLike.of_keeps kept
  rw [issueRead_first good fresh read, issueFirst_unfit full ((like.overlap ..).trans off) (mt (like.fits ..).1 no)]
  exact kept.changesOnly.mono (by decide +kernel)

/-- A first issue (R124, R137, R142). -/
theorem issueRead_issued (yes : s.fits c st.cluster bs)
    (room : (s.dropWindows c.ctx c.index).dram.windows.length + (s.windowsOf c st.cluster).length ≤ 256) :
    (s.issueRead ctx a c st).dram.windows = (s.dropWindows c.ctx c.index).dram.windows ++ s.windowsOf c st.cluster ∧
    Issued c s.freeIdx (Config.freeValue s.freeIdx % 2 ^ 32) bs w h (s.recsOf c st.cluster bs) (s.issueRead ctx a c st) := by
  have kept := wordsRead_keeps s a c
  have like := IssueLike.of_keeps kept
  have dram : ((s.wordsRead a c).dropWindows c.ctx c.index).dram.windows = (s.dropWindows c.ctx c.index).dram.windows :=
    congrArg (List.filter _) (kept.dram.windows.resolve_left (by decide))
  have issued := issueFirst_issued full ((like.overlap ..).trans off) ((like.fits ..).2 yes) (by rwa [dram, like.windows])
  rw [dram, like.windows, like.recs, kept.freeIdx_eq (by decide)] at issued
  rw [issueRead_first good fresh read]
  exact issued

theorem issueRead_waits (yes : s.fits c st.cluster bs)
    (crowd : 256 < (s.dropWindows c.ctx c.index).dram.windows.length + (s.windowsOf c st.cluster).length) :
    (∀ k, (s.issueRead ctx a c st).cmdRun k = s.cmdRun k) ∧ (s.issueRead ctx a c st).dram.windows = s.dram.windows ∧
    (s.issueRead ctx a c st).reg .SLUICE_CNT_WINWAIT 0 0 =
      if st.delayed = true then s.reg .SLUICE_CNT_WINWAIT 0 0 else counted (s.reg .SLUICE_CNT_WINWAIT 0 0) := by
  have kept := wordsRead_keeps s a c
  have like := IssueLike.of_keeps kept
  have dram : ((s.wordsRead a c).dropWindows c.ctx c.index).dram.windows = (s.dropWindows c.ctx c.index).dram.windows :=
    congrArg (List.filter _) (kept.dram.windows.resolve_left (by decide))
  rw [issueRead_first good fresh read, issueFirst_fits full ((like.overlap ..).trans off) ((like.fits ..).2 yes)]
  obtain ⟨cmds, table, count⟩ := withWindows_full (s := s.wordsRead a c) (c := c) (st := st) (by rwa [dram, like.windows])
    (fun v => (v.firstKept c bs w h).putIssue c st.cluster v.freeIdx (Config.freeValue v.freeIdx % 2 ^ 32) bs w h)
  rw [kept.reg_eq (by decide) (by decide) regOk_winWait] at count
  exact ⟨fun k => (cmdRun_congr cmds k).trans (cmdRun_congr (kept.slu.cmds.resolve_left (by decide)) k),
    (congrArg Dram.windows table).trans (kept.dram.windows.resolve_left (by decide)), count⟩

end

/-! ## COMMAND_REISSUE -/

theorem runAgain_unfit {s : State} {c : Cmd} {st : StepRun} {k : Kept} (no : ¬ s.fits c st.cluster k.bounds) : s.runAgain c st k = s := by
  unfold State.fits at no
  exact if_neg (by simpa only [Bool.and_eq_true, List.all_eq_true] using no)

theorem runAgain_fits {s : State} {c : Cmd} {st : StepRun} {k : Kept} (yes : s.fits c st.cluster k.bounds) :
    s.runAgain c st k = (s.keepIssue c.ctx k).putIssue c st.cluster k.issue k.gen k.bounds k.w k.h := by
  unfold State.fits at yes
  exact if_pos (by simpa only [Bool.and_eq_true, List.all_eq_true] using yes)

theorem runAgain_issued {s : State} {c : Cmd} {st : StepRun} {k : Kept} (yes : s.fits c st.cluster k.bounds) :
    Issued c k.issue k.gen k.bounds k.w k.h (s.recsOf c st.cluster k.bounds) (s.runAgain c st k) := by
  rw [runAgain_fits yes, ← (keepIssue_like s c.ctx k).recs]
  exact putIssue_issued _ _ _ _ _ _ _ _

/-- A command that runs again is that of its step (R146). -/
theorem runAgain_step {s : State} {c : Cmd} {st st' : StepRun} {k : Kept} {ctx : Nat} (yes : (s.dropCmdRun ctx).fits c st.cluster k.bounds)
    (step : s.stepOf c.ctx = some st') : ∃ st'', ((s.dropCmdRun ctx).runAgain c st k).stepOf c.ctx = some st'' ∧ st''.cmd = st'.cmd := by
  rw [runAgain_fits yes]
  have kept : ((s.dropCmdRun ctx).keepIssue c.ctx k).stepOf c.ctx = some { st' with kept := st'.kept.filter (fun y => y.cmd != k.cmd) ++ [k] } := by
    have own : (s.ctxRun c.ctx).step = some st' := step
    have same : (s.dropCmdRun ctx).ctxRun c.ctx = s.ctxRun c.ctx := rfl
    unfold State.stepOf State.keepIssue
    rw [ctxRun_updCtxRun, if_pos rfl, same, own]
  generalize (s.dropCmdRun ctx).keepIssue c.ctx k = v at *
  have put := putIssue_keeps (.refl v) c st.cluster k.issue k.gen k.bounds k.w k.h (Within.mem _)
  have same : (v.putIssue c st.cluster k.issue k.gen k.bounds k.w k.h).stepOf c.ctx = v.stepOf c.ctx :=
    congrArg CtxRun.step (ctxRun_congr (put.slu.ctxs.resolve_left (by decide)) _)
  exact ⟨_, same.trans kept, rfl⟩

theorem dropCmdRun_like (s : State) (ctx : Nat) : IssueLike s (s.dropCmdRun ctx) := ⟨rfl, rfl, rfl, rfl, fun _ => rfl⟩

/-- What Sluice keeps of a command that runs. -/
def CmdRun.kept (r : CmdRun) : Kept := { cmd := r.cmd, bounds := r.bounds, w := r.w, h := r.h, issue := r.issue, gen := r.gen }

/-- A step that goes back to a command. -/
def StepRun.backTo (st : StepRun) (x : Cmd) : StepRun := { st with cmd := x.index }

def StepRun.keeping (st : StepRun) (k : Kept) : StepRun := { st with kept := st.kept.filter (fun y => y.cmd != k.cmd) ++ [k] }

/-- The state in which a context's step goes back to a sharded command (R153). -/
def State.backTo (s : State) (ctx : Nat) (st : StepRun) (x : Cmd) (k : Kept) : State :=
  (s.updCtxRun ctx (fun y => { y with step := some (st.backTo x) })).keepIssue ctx k

theorem backTo_like (s : State) (ctx : Nat) (st : StepRun) (x : Cmd) (k : Kept) : IssueLike s (s.backTo ctx st x k) :=
  (IssueLike.upd s ctx (f := fun y => { y with step := some (st.backTo x) }) fun _ => rfl).trans (keepIssue_like _ _ _)

theorem exec_commandReissue_none {s : State} {ctx : Nat} (h : s.stepOf ctx = none ∨ s.cmdRun ctx = none ∨ s.running ctx = none) :
    exec (.commandReissue ctx) s = .next s := by
  change execCommandReissue ctx s = _
  unfold execCommandReissue
  split
  · next step run cmd => simp only [step, run, cmd, reduceCtorEq, or_false] at h
  · rfl

theorem mayReissue_iff (s : State) (ctx : Nat) (st : StepRun) (run : CmdRun) : (run.killed && s.coresQuiet ctx && s.holdsAll ctx st) = true ↔
    (run.killed = true ∧ s.coresQuiet ctx = true ∧ s.holdsAll ctx st = true) := by
  simp only [Bool.and_eq_true, and_assoc]

section
variable {s : State} {ctx : Nat} {st : StepRun} {run : CmdRun} {c : Cmd} (step : s.stepOf ctx = some st) (issued : s.cmdRun ctx = some run)
  (cmd : s.running ctx = some c)
include step issued cmd

theorem exec_commandReissue_no (no : ¬ (run.killed = true ∧ s.coresQuiet ctx = true ∧ s.holdsAll ctx st = true)) :
    exec (.commandReissue ctx) s = .next s := by
  change execCommandReissue ctx s = _
  unfold execCommandReissue
  simp only [step, issued, cmd]
  exact congrArg _ (when_neg s (mt (mayReissue_iff s ctx st run).1 no) _)

variable (may : run.killed = true ∧ s.coresQuiet ctx = true ∧ s.holdsAll ctx st = true)
include may

theorem exec_commandReissue_alone (alone : c.kind ≠ 2 ∨ s.shardedOf ctx st c = none) :
    exec (.commandReissue ctx) s = .next (s.runAgain c st run.kept) := by
  have found : (if c.kind = 2 then s.shardedOf ctx st c else none) = none := by
    split
    · next coll => exact alone.resolve_left fun other => other coll
    · rfl
  change execCommandReissue ctx s = _
  unfold execCommandReissue
  simp only [step, issued, cmd, when_eq s ((mayReissue_iff s ctx st run).2 may), found]
  rfl

theorem exec_commandReissue_sharded (coll : c.kind = 2) {x : Cmd} {j : Kept} (sharded : s.shardedOf ctx st c = some (x, j))
    (live : ∀ y ∈ s.recsOf x st.cluster j.bounds, s.recLive y = true) : exec (.commandReissue ctx) s =
      .next ((s.backTo ctx st x run.kept).withWindows x ((st.backTo x).keeping run.kept) fun v =>
        (v.dropCmdRun ctx).runAgain x (st.backTo x) { j with gen := (j.gen + 1) % 2 ^ 32 }) := by
  change execCommandReissue ctx s = _
  unfold execCommandReissue
  simp only [step, issued, cmd, when_eq s ((mayReissue_iff s ctx st run).2 may), if_pos coll, sharded, if_pos (List.all_eq_true.2 live)]
  rfl

end

/-- A killed collective's sharded command is issued again, from which the step goes on (R153). -/
theorem reissue_sharded {s : State} {ctx : Nat} {st : StepRun} {x : Cmd} {j k : Kept} (yes : s.fits x st.cluster j.bounds)
    (room : (s.dropWindows x.ctx x.index).dram.windows.length + (s.windowsOf x st.cluster).length ≤ 256) {t : State}
    (e : (s.backTo ctx st x k).withWindows x ((st.backTo x).keeping k) (fun v =>
      (v.dropCmdRun ctx).runAgain x (st.backTo x) { j with gen := (j.gen + 1) % 2 ^ 32 }) = t) :
    (∃ st', t.stepOf x.ctx = some st' ∧ st'.cmd = x.index) ∧
    Issued x j.issue ((j.gen + 1) % 2 ^ 32) j.bounds j.w j.h (s.recsOf x st.cluster j.bounds) t := by
  have back := backTo_like s ctx st x k
  have room' : ((s.backTo ctx st x k).dropWindows x.ctx x.index).dram.windows.length + ((s.backTo ctx st x k).windowsOf x st.cluster).length ≤ 256 := by
    rw [back.windows]
    exact room
  rw [withWindows_fits (st := (st.backTo x).keeping k) room'] at e
  have like := (back.trans (tabled_like (s.backTo ctx st x k) x ((st.backTo x).keeping k))).trans (dropCmdRun_like _ ctx)
  have step := tabled_step (s.backTo ctx st x k) x ((st.backTo x).keeping k)
  have again := (like.fits x st.cluster j.bounds).2 yes
  generalize (s.backTo ctx st x k).tabled x ((st.backTo x).keeping k) = v at *
  have issued := runAgain_issued (st := st.backTo x) (k := { j with gen := (j.gen + 1) % 2 ^ 32 }) again
  have put := runAgain_step (st := st.backTo x) (k := { j with gen := (j.gen + 1) % 2 ^ 32 }) again step
  rw [like.recs] at issued
  rw [← e]
  exact ⟨put, issued⟩

/-! ## O47 -/

/-- Settles O47: each case of an issue is one equation of the step, read in the state that Sluice's reads leave, where a command
is issued to the same places (`IssueLike`); and records of one command share no byte unless they lie in one place. -/
theorem commandIssueAndReissue : Obligations.CommandIssueAndReissue := by
  unfold Obligations.CommandIssueAndReissue
  dsimp only
  refine ⟨fun ctx s => ?_, fun ctx s => ?_⟩
  · have k := execCommandIssue_keeps (.refl s) ctx (Within.mem _)
    change KeepsOut _ s (exec (.commandIssue ctx) s) at k
    obtain ⟨t, ran⟩ : ∃ t, exec (.commandIssue ctx) s = .next t := ⟨_, rfl⟩
    have is_ : ∀ {v}, exec (.commandIssue ctx) s = .next v → t = v := fun h => Host.Outcome.next.inj (ran.symm.trans h)
    rw [ran] at k
    refine completes_of ran k (by decide +kernel) ⟨fun gone => is_ (exec_commandIssue_none gone), fun st step =>
      ⟨fun no => is_ (exec_commandIssue_no step no), fun w may kept => ?_, fun a c may sound record cmd => ?_⟩⟩
    · rw [is_ (exec_commandIssue_fault step may kept)]
      exact cmdFault_faults s ctx w
    have read := exec_commandIssue_read step may sound record cmd
    have run := fun near => is_ (read.trans (congrArg _ (when_eq s near _)))
    refine ⟨fun far => is_ (read.trans (congrArg _ (when_neg s far _))), fun w near bad => ?_, fun k near good kept stripes live room => ?_,
      fun near good fresh => ⟨fun w b bad => ?_, fun bs w h found => ⟨fun e st' empty step' => ?_, fun full on => ?_, fun full off =>
        ⟨fun no => ?_, fun yes room => ?_, fun yes crowd => ?_⟩⟩⟩⟩ <;> rw [run near]
    · rw [issueRead_bad bad]
      exact cmdFault_faults _ ctx w
    · exact issueRead_again good kept ⟨stripes, live⟩ room
    · obtain ⟨faults, counts⟩ := issueRead_faults (ctx := ctx) good fresh bad
      refine ⟨faults, fun bound n hn mem => ?_⟩
      obtain ⟨cnt, lst⟩ := counts bound n hn mem
      exact ⟨cnt, fun v l e => lst _ (congrArg (boundShown c) e)⟩
    · exact issueRead_empty good fresh found empty step'
    · exact issueRead_overlap good fresh found full on
    · exact issueRead_unfit good fresh found full off no
    · exact issueRead_issued good fresh found full off yes room
    · obtain ⟨cmds, table, count⟩ := issueRead_waits (ctx := ctx) good fresh found full off yes crowd
      exact ⟨(cmds ctx).trans may.1, table, count⟩
  · have k := execCommandReissue_keeps (.refl s) ctx (Within.mem _)
    change KeepsOut _ s (exec (.commandReissue ctx) s) at k
    obtain ⟨t, ran⟩ : ∃ t, exec (.commandReissue ctx) s = .next t := ⟨_, rfl⟩
    have is_ : ∀ {v}, exec (.commandReissue ctx) s = .next v → t = v := fun h => Host.Outcome.next.inj (ran.symm.trans h)
    rw [ran] at k
    refine completes_of ran k (by decide +kernel) ⟨fun gone => is_ (exec_commandReissue_none gone), fun st run c step issued cmd =>
      ⟨fun no => is_ (exec_commandReissue_no step issued cmd no), fun may alone => ?_, fun x j may coll sharded yes room => ?_⟩⟩
    · rw [is_ (exec_commandReissue_alone step issued cmd may alone)]
      have again := runAgain_keeps (.refl s) c st run.kept (Within.mem _)
      exact ⟨runAgain_unfit (k := run.kept), fun yes => ⟨again.dram_eq (by decide), runAgain_issued (k := run.kept) yes⟩⟩
    · exact reissue_sharded yes room (is_ (exec_commandReissue_sharded step issued cmd may coll sharded yes.2)).symm

end Sys2Proof.Machine
end

section
/-! SUPPORT. Buffers that are released and copied (R222, R309 to R311), and the sources that this leaves alone. -/

set_option Elab.async false

namespace Sys2Proof.Machine

variable {cs : Comp → Prop} {u : State}

/-! ## Sources that a release leaves alone -/

theorem OtherSources.of_keeps {cs : List Comp} {s t : State} (k : Keeps (fun c => c ∈ cs) s t) (icu : ∀ c ∈ Comp.allIcu, c ∉ cs := by decide) :
    OtherSources s t := .of_icu (k.icu_eq icu)

theorem otherSources_dramPut (s : State) (port a : Nat) (data : List Byte) : OtherSources s (s.dramPut port a data) :=
  otherSources_putPieces s port _

theorem otherSources_discardRelease (s : State) (st : W16) (fn : Nat) : OtherSources s (s.discardRelease st fn) :=
  OtherSources.trans (.of_icu (by simp [State.count])) (otherSources_elog (s.count .CISTERN_CNT_DISCARD 0) _ _ _ _ _ _)

theorem otherSources_flush (s : State) (p : Pool) : OtherSources s (s.flush p) :=
  ((otherSources_dramPut s _ _ _).trans (otherSources_dramPut _ _ _ _)).trans (.of_icu rfl)

theorem otherSources_release (s : State) (h : Handle) (fn : Nat) : OtherSources s (s.release h fn) := by
  unfold State.release
  split
  · exact otherSources_discardRelease _ _ _
  next p _ =>
  split
  · exact otherSources_discardRelease _ _ _
  split
  · exact otherSources_discardRelease _ _ _
  have moved : OtherSources s (if 64 ≤ p.cache.length && s.ringReach p then s.flush p else s) := by
    split
    · exact otherSources_flush s p
    · exact .of_icu rfl
  dsimp only
  generalize (if 64 ≤ p.cache.length && s.ringReach p then s.flush p else s) = v at *
  split
  · exact moved.trans (.of_icu (by simp))
  · exact moved

theorem otherSources_reapList (s : State) (fs : List Frame) : OtherSources s (s.reapList fs) := by
  induction fs generalizing s with
  | nil => exact .of_icu rfl
  | cons f fs ih =>
    unfold State.reapList
    split
    · exact ih s
    · have gone : OtherSources s { s with ing := { s.ing with
        frames := dropFirst (fun x => x.rill = f.rill && x.index = f.index) s.ing.frames } } := .of_icu rfl
      exact (gone.trans (otherSources_release _ _ _)).trans (ih _)

theorem otherSources_settle (s : State) : OtherSources s s.settle := by
  have settled : OtherSources s { s with trk := { s.trk with flows := s.trk.flows.filter (fun f => !f.over) } } := .of_icu rfl
  exact (settled.trans (otherSources_reapList _ _)).trans (.of_keeps (refresh_keeps (.refl _) (Within.mem _)))

theorem otherSources_itemGone (s : State) (ctx : Nat) (it : Item) (why : Gone) : OtherSources s (s.itemGone ctx it why) := by
  have freed : OtherSources s (s.freeItem ctx it) := by
    unfold State.freeItem
    split
    · exact otherSources_release _ _ _
    · exact .of_icu rfl
  unfold State.itemGone
  generalize s.freeItem ctx it = v at *
  have lost := fun st error => OtherSources.of_keeps (embLose_keeps (.refl v) it.rill it.track it.frame st error (Within.mem _))
  split
  · exact freed.trans (.of_icu rfl)
  · split
    · exact freed.trans (lost _ _)
    · exact freed.trans (lost _ _)

theorem otherSources_itemsGone (s : State) (ctx : Nat) (why : Gone) (its : List Item) : OtherSources s (s.itemsGone ctx why its) := by
  induction its generalizing s with
  | nil => exact .of_icu rfl
  | cons it its ih => exact (otherSources_itemGone s ctx it why).trans (ih _)

/-- What follows a fault leaves the sources but the log's alone. -/
theorem otherSources_faultEnded (s : State) (c : Nat) : OtherSources s (s.faultEnded c) := by
  have killed : OtherSources s (s.faultKilled c) := .of_keeps (faultKilled_keeps (.refl s) c (Within.mem _))
  refine (killed.trans ?_ : OtherSources s ((s.faultKilled c).faultEmptied c)).trans (.of_icu rfl)
  unfold State.faultEmptied
  split
  · exact otherSources_itemsGone _ _ _ _
  · exact .of_icu rfl

theorem otherSources_stepOver (s : State) (c : Nat) : OtherSources s (s.stepOver c) := by
  have sched := fun v : State => OtherSources.of_keeps (schedule_keeps (.refl v) (Within.mem _))
  have lanes := fun (v : State) ls => OtherSources.of_keeps (yieldLanes_keeps (.refl v) ls (Within.mem _))
  exact (((otherSources_settle s).trans (.of_icu rfl)).trans (lanes (s.settle.endGroup c) _)).trans (sched _)

theorem OtherSources.mono {s t : State} (h : OtherSources s t) {i : Nat} (log : i ≠ 6) (on : s.icu.pend.getLsbD i = true) :
    t.icu.pend.getLsbD i = true := (h i log).1.trans on

theorem raised_later {i : Nat} {s t v : State} (h : raised i s t) (g : OtherSources t v) (log : i ≠ 6) : raised i s v :=
  raised_congr h rfl rfl rfl (g.mono log)

/-- A fault that is told raises source 9 (R318). -/
theorem noteFault_raised (s : State) (c : Nat) (st : W16) : raised 9 s (s.noteFault c st) :=
  raised_later (setReg_raise_raised s (r := .SLUICE_LAST_FAULT) 0 0 (BitVec.ofNat 64 (st.toNat + 65536 * (c % 4096))) (k := 9) (by decide) (by decide))
    (otherSources_elog _ st unitSluice 0 c (s.ctxFn c) 0) (by decide)

theorem cmdFault_raised (s : State) (c : Nat) (st : W16) : raised 9 s (s.cmdFault c st) := by
  rw [cmdFault_eq]
  exact raised_later (noteFault_raised s c st) ((otherSources_faultEnded _ c).trans (otherSources_stepOver _ c)) (by decide)

/-! ## Reads and allocations leave a source's condition -/

theorem visitAll_srcKept (s : State) (port : Nat) (rs : List (Nat × Nat)) {i : Nat} (hi : i < 512) (log : i ≠ 6) (advice : ∀ d, i ≠ 13 + 2 * d) :
    SrcKept i s (s.visitAll port rs) := by
  induction rs generalizing s with
  | nil => exact .refl s
  | cons r rs ih => exact (visit_srcKept s port r.1 r.2 hi log advice).trans (ih _)

theorem reads_srcKept (s : State) (port : Nat) (rs : List (Nat × Nat)) {i : Nat} (hi : i < 512) (log : i ≠ 6) (advice : ∀ d, i ≠ 13 + 2 * d) :
    SrcKept i s (s.reads port rs).2 := by
  unfold State.reads
  split
  · exact .refl s
  · exact visitAll_srcKept s port rs hi log advice

theorem refillUntil_srcKept (s : State) (n k : Nat) {i : Nat} (hi : i < 512) (log : i ≠ 6) (advice : ∀ d, i ≠ 13 + 2 * d) :
    SrcKept i s (s.refillUntil n k) := by
  induction k generalizing s with
  | zero => exact .refl s
  | succ k ih =>
    unfold State.refillUntil
    split
    · next p _ =>
      split
      · have one : SrcKept i s (s.refill p) := (visitAll_srcKept s _ _ hi log advice).trans (.of_eq rfl rfl rfl)
        exact one.trans (ih _)
      · exact .refl s
    · exact .refl s

theorem takeHandle_srcKept (s : State) (p : Pool) {i : Nat} (hi : i < 512) : SrcKept i s (s.takeHandle p).2 := by
  have k := takeHandle_keeps (.refl s) p (Within.mem _)
  exact .of_keeps hi k (.of_icu (k.icu_eq (by decide)))

theorem alloc_srcKept (s : State) (n : Nat) {i : Nat} (hi : i < 512) (log : i ≠ 6) (advice : ∀ d, i ≠ 13 + 2 * d) : SrcKept i s (s.alloc n).2 := by
  unfold State.alloc
  split
  · exact .refl s
  · next p _ =>
    split
    · exact .of_eq rfl rfl rfl
    · have refilled := refillUntil_srcKept s n (p.tail - p.head) hi log advice
      dsimp only
      split
      · exact refilled.trans (takeHandle_srcKept _ _ hi)
      · exact refilled

theorem release_srcKept (s : State) (h : Handle) (fn : Nat) {i : Nat} (hi : i < 512) (log : i ≠ 6) : SrcKept i s (s.release h fn) :=
  .of_keeps hi (release_keeps (.refl s) h fn (Within.mem _)) (otherSources_release s h fn i log).2.2

/-! ## What a copy puts -/

/-- States in which a copy puts the same bytes. -/
structure PutLike (s v : State) : Prop where
  dev : v.dev = s.dev
  bytes : v.dram.bytes = s.dram.bytes
  poison : v.dram.poison = s.dram.poison
  basins : v.slu.basins = s.slu.basins

theorem PutLike.of_keeps {cs : List Comp} {s v : State} (k : Keeps (fun c => c ∈ cs) s v) (dev : ∀ c ∈ Comp.allDev, c ∉ cs := by decide)
    (bytes : .dramBytes ∉ cs := by decide) (poison : .dramPoison ∉ cs := by decide) (basins : .sluBasins ∉ cs := by decide) : PutLike s v :=
  ⟨k.dev_eq dev, k.dram.bytes.resolve_left bytes, k.dram.poison.resolve_left poison, k.slu.basins.resolve_left basins⟩

theorem PutLike.refl (s : State) : PutLike s s := ⟨rfl, rfl, rfl, rfl⟩

theorem PutLike.trans {s v w : State} (h : PutLike s v) (g : PutLike v w) : PutLike s w :=
  ⟨g.dev.trans h.dev, g.bytes.trans h.bytes, g.poison.trans h.poison, g.basins.trans h.basins⟩

theorem PutLike.symm {s v : State} (h : PutLike s v) : PutLike v s := ⟨h.dev.symm, h.bytes.symm, h.poison.symm, h.basins.symm⟩

theorem PutLike.memGet {s v : State} (h : PutLike s v) (a n : Nat) : v.memGet a n = s.memGet a n := by
  have byte : ∀ b, v.memByte b = s.memByte b := by
    intro b
    unfold State.memByte State.dramByte
    simp only [h.dev, h.bytes, basin_congr h.basins]
  unfold State.memGet
  simp only [byte]

theorem countWrite_putLike (s : State) (b : Nat) : PutLike s (s.countWrite b) := .of_keeps (countWrite_keeps (.refl s) b (Within.mem _))
theorem mergeRead_putLike (s : State) (port b : Nat) : PutLike s (s.mergeRead port b) := .of_keeps (mergeRead_keeps (.refl s) port b (Within.mem _))
theorem dmcLog_putLike (s : State) (l : BlockLoc) (kind port : Nat) : PutLike s (s.dmcLog l kind port) :=
  .of_keeps (dmcLog_keeps (.refl s) l kind port (Within.mem _))

theorem PutLike.putBlock {s v : State} (h : PutLike s v) (port a : Nat) (data : List Byte) : PutLike (s.putBlock port a data) (v.putBlock port a data) := by
  unfold State.putBlock
  split
  · exact h
  split
  · have full : PutLike ((s.setDramBytes (Mem.writeList s.dram.bytes a data)).setPoison (a / 64) false)
        ((v.setDramBytes (Mem.writeList v.dram.bytes a data)).setPoison (a / 64) false) :=
      ⟨h.dev, congrArg (Mem.writeList · a data) h.bytes, congrArg (SMap.set (fun _ => false) · (a / 64) false) h.poison, h.basins⟩
    exact ((countWrite_putLike _ _).symm.trans full).trans (countWrite_putLike _ _)
  dsimp only
  rw [poisoned_congr h.poison]
  have merged := ((mergeRead_putLike s port (a / 64)).symm.trans h).trans (mergeRead_putLike v port (a / 64))
  generalize s.mergeRead port (a / 64) = s1 at *
  generalize v.mergeRead port (a / 64) = v1 at *
  split
  · exact ((dmcLog_putLike _ _ _ _).symm.trans merged).trans (dmcLog_putLike _ _ _ _)
  · have part : PutLike (s1.setDramBytes (Mem.writeList s1.dram.bytes a data)) (v1.setDramBytes (Mem.writeList v1.dram.bytes a data)) :=
      ⟨merged.dev, congrArg (Mem.writeList · a data) merged.bytes, merged.poison, merged.basins⟩
    exact ((countWrite_putLike _ _).symm.trans part).trans (countWrite_putLike _ _)

theorem PutLike.putPieces {s v : State} (h : PutLike s v) (port : Nat) (ps : List (Nat × List Byte)) :
    PutLike (s.putPieces port ps) (v.putPieces port ps) := by
  induction ps generalizing s v with
  | nil => exact h
  | cons p ps ih => exact ih (h.putBlock port p.1 p.2)

theorem PutLike.memPut {s v : State} (h : PutLike s v) (port a : Nat) (data : List Byte) : PutLike (s.memPut port a data) (v.memPut port a data) := by
  unfold State.memPut
  rw [h.dev]
  split
  · exact h.putPieces port _
  · next n x _ =>
    rw [basin_congr h.basins]
    exact ⟨h.dev, h.bytes, h.poison, congrArg (SMap.set (fun _ => []) · n (Mem.writeList (s.basin n) x data)) h.basins⟩
  · exact h

theorem PutLike.copyBytes {s v : State} (h : PutLike s v) (src dst k : Nat) : PutLike (s.copyBytes src dst k) (v.copyBytes src dst k) := by
  unfold State.copyBytes
  rw [h.memGet]
  exact h.memPut _ _ _

theorem PutLike.copyHeads {s v : State} (h : PutLike s v) (dst len : Nat) (as : List Nat) : PutLike (s.copyHeads dst len as) (v.copyHeads dst len as) := by
  induction as generalizing s v dst with
  | nil => exact h
  | cons a as ih =>
    unfold State.copyHeads
    rw [h.memGet]
    exact ih (h.memPut _ _ _) _

/-! ## Frames that hold on -/

theorem reapList_held (s : State) {fs : List Frame} (held : ∀ f ∈ fs, f.isRef = true) : s.reapList fs = s := by
  induction fs with
  | nil => rfl
  | cons f fs ih =>
    unfold State.reapList
    rw [held f (List.mem_cons_self ..)]
    exact ih fun g mem => held g (List.mem_cons_of_mem _ mem)

/-- Where every frame is a reference, none is released and DRAM stays as it is (R222). -/
theorem settle_held {s : State} (held : ∀ f ∈ s.ing.frames, f.isRef = true) : s.settle.dram = s.dram := by
  have none_ := reapList_held { s with trk := { s.trk with flows := s.trk.flows.filter (fun f => !f.over) } } held
  unfold State.settle State.reapFrames
  rw [none_]
  exact (refresh_keeps (.refl _) (Within.mem _)).dram_eq (by decide)

end Sys2Proof.Machine
end

section
/-! SUPPORT. Metadata records and head exports (R273, R278, R310, R311). -/

set_option Elab.async false

namespace Sys2Proof.Machine

variable {cs : Comp → Prop} {u : State}

/-! ## A metadata record that is written -/

/-- States in which a metadata record of a function is written alike. -/
structure MetaLike (s v : State) (fn : Nat) : Prop where
  fns : v.fns = s.fns
  ldr : v.ldr = s.ldr
  rings : v.trk.rings = s.trk.rings
  on : v.reg .TRK_RING_CTRL fn 0 = s.reg .TRK_RING_CTRL fn 0
  addr : v.reg .TRK_RING_ADDR fn 0 = s.reg .TRK_RING_ADDR fn 0
  entries : v.reg .TRK_RING_ENTRIES fn 0 = s.reg .TRK_RING_ENTRIES fn 0

theorem regOk_metaRing : ∀ {n : Nat}, n < 32 → regOk .TRK_RING_ADDR n 0 = true ∧ regOk .TRK_RING_ENTRIES n 0 = true := by decide +kernel

theorem MetaLike.of_keeps {cs : List Comp} {s v : State} {fn : Nat} (low : fn < 32) (k : Keeps (fun c => c ∈ cs) s v) (fns : .fns ∉ cs := by decide)
    (ldr : ∀ c ∈ Comp.allLdr, c ∉ cs := by decide) (rings : .trkRings ∉ cs := by decide) (all : .regs ∉ cs := by decide)
    (on : .reg .TRK_RING_CTRL ∉ cs := by decide) (addr : .reg .TRK_RING_ADDR ∉ cs := by decide)
    (entries : .reg .TRK_RING_ENTRIES ∉ cs := by decide) : MetaLike s v fn :=
  ⟨k.fns_eq fns, k.ldr_eq ldr, k.trk.rings.resolve_left rings, k.reg_eq all on (regOk_trkRing low).1, k.reg_eq all addr (regOk_metaRing low).1,
    k.reg_eq all entries (regOk_metaRing low).2⟩

theorem canMaster_congr {s v : State} (h : v.fns = s.fns) (n : Nat) : v.canMaster n = s.canMaster n := by
  unfold State.canMaster State.fnEnabled State.vfEnable State.numVfs
  simp only [fn_congr h]

theorem deterministic_congr {s v : State} (h : v.ldr = s.ldr) : v.deterministic = s.deterministic := by
  unfold State.deterministic State.imageLoaded
  rw [h]

theorem MetaLike.trans {s v w : State} {fn : Nat} (h : MetaLike s v fn) (g : MetaLike v w fn) : MetaLike s w fn :=
  ⟨g.fns.trans h.fns, g.ldr.trans h.ldr, g.rings.trans h.rings, g.on.trans h.on, g.addr.trans h.addr, g.entries.trans h.entries⟩

theorem MetaLike.metaBytes {s v : State} {fn : Nat} (h : MetaLike s v fn) : v.metaBytes = s.metaBytes := by
  unfold State.metaBytes
  rw [deterministic_congr h.ldr]

theorem MetaLike.cfg {s v : State} {fn : Nat} (h : MetaLike s v fn) : v.metaCfg fn = s.metaCfg fn := by
  unfold State.metaCfg State.regNat State.regBit
  rw [h.on, h.addr, h.entries]

/-- What a record that is written puts into host memory: the record, then the producer index (R19). -/
def State.metaWrites (s : State) (k : MetaKey) (kind status : Nat) (body : List Byte) : List OutMsg :=
  let base := s.regNat .TRK_RING_ADDR k.fn 0
  let r := (s.ring k.fn).renew
  [.hostWrite k.fn (base + 64 + 64 * (r.prod % s.regNat .TRK_RING_ENTRIES k.fn 0)) (s.metaBytes k kind status body r.lost),
    .hostWrite k.fn base (leBytes 4 ((r.prod + 1) % 2 ^ 32))]

/-- Whether a record for a function is written, and its ring not full as the device sees it (R273, R391, R400). -/
structure State.ringTakes (s : State) (fn : Nat) : Prop where
  running : (s.fn fn).flr = .idle
  master : s.canMaster fn = true
  on : s.regBit .TRK_RING_CTRL fn 0 0 = true
  some_ : s.regNat .TRK_RING_ENTRIES fn 0 ≠ 0
  room : (s.ring fn).renew.full (s.regNat .TRK_RING_ENTRIES fn 0) = false

theorem MetaLike.takes {s v : State} {fn : Nat} (h : MetaLike s v fn) (takes : s.ringTakes fn) : v.ringTakes fn := by
  obtain ⟨running, master, on, some_, room⟩ := takes
  have entries : v.regNat .TRK_RING_ENTRIES fn 0 = s.regNat .TRK_RING_ENTRIES fn 0 := congrArg BitVec.toNat h.entries
  exact ⟨by rwa [fn_congr h.fns], (canMaster_congr h.fns fn).trans master, (congrArg (·.getLsbD 0) h.on).trans on, by rwa [entries],
    by rwa [entries, ring_congr h.rings]⟩

theorem MetaLike.writes {s v : State} {k : MetaKey} (h : MetaLike s v k.fn) (kind status : Nat) (body : List Byte) :
    v.metaWrites k kind status body = s.metaWrites k kind status body := by
  have entries : v.regNat .TRK_RING_ENTRIES k.fn 0 = s.regNat .TRK_RING_ENTRIES k.fn 0 := congrArg BitVec.toNat h.entries
  have addr : v.regNat .TRK_RING_ADDR k.fn 0 = s.regNat .TRK_RING_ADDR k.fn 0 := congrArg BitVec.toNat h.addr
  unfold State.metaWrites
  rw [entries, addr, ring_congr h.rings, h.metaBytes]

theorem ringPush_takes {s : State} {fn : Nat} (takes : s.ringTakes fn) (rec : Nat → List Byte) :
    s.ringPush (s.metaCfg fn) (s.ring fn) rec = s.ringWrite (s.metaCfg fn) (s.ring fn).renew rec := by
  obtain ⟨running, master, on, some_, room⟩ := takes
  unfold State.ringPush
  rw [if_neg (by change ¬ ((s.fn fn).flr != .idle) = true; rw [running]; decide), if_neg (by change ¬ (!s.regBit .TRK_RING_CTRL fn 0 0) = true; rw [on]; decide),
    if_neg (by exact some_), if_neg (by change ¬ (!s.canMaster fn) = true; rw [master]; decide), if_neg (by exact fun full => absurd (room.symm.trans full) (by decide))]

theorem metaRecord_writes {s : State} {k : MetaKey} (takes : s.ringTakes k.fn) {kind : Nat} (no : kind ≠ 5) (status : Nat) (body : List Byte) :
    (s.metaRecord k kind status body).out = s.out ++ s.metaWrites k kind status body := by
  have push := ringPush_takes takes (s.metaBytes k kind status body)
  have eq : s.metaRecord k kind status body = ((s.ringWrite (s.metaCfg k.fn) (s.ring k.fn).renew (s.metaBytes k kind status body)).s.setRing k.fn
      (s.ringWrite (s.metaCfg k.fn) (s.ring k.fn).renew (s.metaBytes k kind status body)).ring) := by
    unfold State.metaRecord
    rw [push]
    exact if_neg no
  have first := hostWrite_out s k.fn ((s.metaCfg k.fn).addr + 64 + (s.metaCfg k.fn).size * ((s.ring k.fn).renew.prod % (s.metaCfg k.fn).entries))
    (s.metaBytes k kind status body (s.ring k.fn).renew.lost)
  have second := hostWrite_out (s.hostWrite k.fn ((s.metaCfg k.fn).addr + 64 + (s.metaCfg k.fn).size * ((s.ring k.fn).renew.prod % (s.metaCfg k.fn).entries))
    (s.metaBytes k kind status body (s.ring k.fn).renew.lost)) k.fn (s.metaCfg k.fn).addr (leBytes 4 (((s.ring k.fn).renew.prod + 1) % 2 ^ 32))
  rw [first, List.append_assoc] at second
  rw [eq]
  exact second

/-! ## One head export, case by case -/

section
variable (v : State) (ctx : Nat) (fl : Flow) (c : CopyCmd)

/-- The bytes that an export puts into its buffer. -/
def Flow.exportLen (fl : Flow) (c : CopyCmd) : Nat := (fl.exported c).length * c.length

/-- The state in which the copy engine has read what it exports (R328). -/
def State.exportRead (v : State) (fl : Flow) (c : CopyCmd) : State := (v.reads portSluice (fl.exportRanges c)).2

def Flow.exportKey (fl : Flow) : MetaKey := { fn := fl.fn, rill := fl.rill, tag := fl.tag, ts := fl.captureTs, index := fl.frame }

/-- The body of the record of an export (Table 10.13). -/
def Flow.exportBody (fl : Flow) (c : CopyCmd) (h : Handle) : List Byte :=
  leBytes 8 h.addr ++ leBytes 4 (fl.exportLen c) ++ leBytes 1 (fl.exported c).length ++ leBytes 1 c.pool ++ leBytes 2 c.source ++ leBytes 16 0

/-- The state in which an export's items are in its buffer. -/
def State.exportPut (v : State) (fl : Flow) (c : CopyCmd) (h : Handle) : State :=
  ((v.exportRead fl c).alloc c.pool).2.copyHeads h.addr c.length ((fl.exported c).map (fun x => x.2.2.1))

variable {v fl c}

theorem export1_empty (e : fl.exported c = []) : v.export1 ctx fl c = v := if_pos e

theorem export1_large (n : fl.exported c ≠ []) (large : v.poolSize c.pool < fl.exportLen c) :
    v.export1 ctx fl c = v.count .SLUICE_CNT_EXPORTLOST 0 := (if_neg n).trans (if_pos large)

variable (n : fl.exported c ≠ []) (fits : fl.exportLen c ≤ v.poolSize c.pool)
include n fits

theorem export1_read : v.export1 ctx fl c =
    match v.reads portSluice (fl.exportRanges c) with
    | (some _, s0) => s0
    | (none, s0) =>
      match s0.alloc c.pool with
      | (none, s1) => s1.count .SLUICE_CNT_EXPORTLOST 0
      | (some h, s1) =>
        match rangeStatus v.dev.part h.addr (fl.exportLen c) with
        | some st => (s1.release h (v.ctxFn ctx)).noteFault ctx st
        | none => (s1.copyHeads h.addr c.length ((fl.exported c).map (fun x => x.2.2.1))).metaRecord fl.exportKey 6 0 (fl.exportBody c h) :=
  ((if_neg n).trans (if_neg (Nat.not_lt.2 fits))).trans rfl

theorem export1_poison {st : W16} (bad : (v.reads portSluice (fl.exportRanges c)).1 = some st) : v.export1 ctx fl c = v.exportRead fl c := by
  rw [export1_read ctx n fits]
  unfold State.exportRead
  generalize v.reads portSluice (fl.exportRanges c) = found at *
  obtain ⟨r, w⟩ := found
  cases bad
  rfl

variable (good : (v.reads portSluice (fl.exportRanges c)).1 = none)
include good

theorem export1_nobuffer (fails : ((v.exportRead fl c).alloc c.pool).1 = none) :
    v.export1 ctx fl c = ((v.exportRead fl c).alloc c.pool).2.count .SLUICE_CNT_EXPORTLOST 0 := by
  rw [export1_read ctx n fits]
  unfold State.exportRead at fails ⊢
  generalize v.reads portSluice (fl.exportRanges c) = found at *
  obtain ⟨r, w⟩ := found
  cases good
  dsimp only at fails ⊢
  generalize w.alloc c.pool = taken at *
  obtain ⟨h, x⟩ := taken
  cases fails
  rfl

variable {h : Handle} (given : ((v.exportRead fl c).alloc c.pool).1 = some h)
include given

theorem export1_bad {st : W16} (bad : rangeStatus v.dev.part h.addr (fl.exportLen c) = some st) :
    v.export1 ctx fl c = (((v.exportRead fl c).alloc c.pool).2.release h (v.ctxFn ctx)).noteFault ctx st := by
  rw [export1_read ctx n fits]
  unfold State.exportRead at given ⊢
  generalize v.reads portSluice (fl.exportRanges c) = found at *
  obtain ⟨r, w⟩ := found
  cases good
  dsimp only at given ⊢
  generalize w.alloc c.pool = taken at *
  obtain ⟨g, x⟩ := taken
  cases given
  dsimp only
  rw [bad]

theorem export1_sent (sound : rangeStatus v.dev.part h.addr (fl.exportLen c) = none) :
    v.export1 ctx fl c = (v.exportPut fl c h).metaRecord fl.exportKey 6 0 (fl.exportBody c h) := by
  rw [export1_read ctx n fits]
  unfold State.exportPut State.exportRead at *
  generalize v.reads portSluice (fl.exportRanges c) = found at *
  obtain ⟨r, w⟩ := found
  cases good
  dsimp only at given ⊢
  generalize w.alloc c.pool = taken at *
  obtain ⟨g, x⟩ := taken
  cases given
  dsimp only
  rw [sound]

end

end Sys2Proof.Machine
end

section
/-! SUPPORT. HEAD_EXPORT (R278, R282, R310). -/

set_option Elab.async false

namespace Sys2Proof.Machine

/-! ## What an export leaves -/

/-- Whether the items of an export can be read into a buffer of its size. -/
def State.exportFits (s : State) (fl : Flow) (c : CopyCmd) : Prop :=
  fl.exported c ≠ [] ∧ fl.exportLen c ≤ s.poolSize c.pool ∧ (s.reads portSluice (fl.exportRanges c)).1 = none

/-- Whether an export is lost (R310). -/
def State.exportLost (s : State) (fl : Flow) (c : CopyCmd) : Prop :=
  fl.exported c ≠ [] ∧ (s.poolSize c.pool < fl.exportLen c ∨
    (s.reads portSluice (fl.exportRanges c)).1 = none ∧ (s.alloc c.pool).1 = none)

theorem regOk_exportLost : regOk .SLUICE_CNT_EXPORTLOST 0 0 = true := by decide +kernel

/-- What a turn of the copy engine, reads and an allocation change. -/
def exportReadChanges : List Comp := copyTurnChanges ++ visitBlockChanges ++ allocChanges

section
variable {s v : State} {e : CtxEntry} {k : Nat} (turn : s.copyTurn e = some (k, v))
include turn

theorem copyTurn_kept : Keeps (fun c => c ∈ copyTurnChanges) s v := copyTurn_keepsq (.refl s) (Within.mem _) turn

theorem copyTurn_reads (port : Nat) (rs : List (Nat × Nat)) : (v.reads port rs).1 = (s.reads port rs).1 :=
  reads_fst_congr ((copyTurn_kept turn).dev_eq (by decide)) ((copyTurn_kept turn).dram_eq (by decide)) port rs

theorem copyTurn_alloc (fl : Flow) (c : CopyCmd) : ((v.exportRead fl c).alloc c.pool).1 = (s.alloc c.pool).1 :=
  (((AllocLike.of_keeps (copyTurn_kept turn)).trans (.of_keeps (reads_keeps (.refl v) _ _ (Within.mem _)))).alloc c.pool).1

theorem copyTurn_size (n : Nat) : v.poolSize n = s.poolSize n := poolSize_congr ((copyTurn_kept turn).pools_eq (by decide)) n

theorem copyTurn_part : v.dev = s.dev := (copyTurn_kept turn).dev_eq (by decide)

/-- The state in which an export has its buffer. -/
theorem exportRead_keeps (fl : Flow) (c : CopyCmd) : Keeps (fun c => c ∈ exportReadChanges) s ((v.exportRead fl c).alloc c.pool).2 := by
  have parts := Within.mem exportReadChanges
  simp only [exportReadChanges, within_append, and_assoc] at parts
  obtain ⟨turns, reads, allocs⟩ := parts
  exact alloc_keeps (reads_keeps (copyTurn_keepsq (.refl s) turns turn) _ _ reads) _ allocs

theorem exportRead_srcKept (fl : Flow) (c : CopyCmd) : SrcKept 9 s ((v.exportRead fl c).alloc c.pool).2 := by
  have turned : SrcKept 9 s v := .of_keeps (by decide) (copyTurn_kept turn) (.of_icu ((copyTurn_kept turn).icu_eq (by decide)))
  exact (turned.trans (reads_srcKept v _ _ (by decide) (by decide) (by omega))).trans (alloc_srcKept _ _ (by decide) (by decide) (by omega))

variable (ctx : Nat) (fl : Flow) (c : CopyCmd)

theorem export1_lost (lost : s.exportLost fl c) :
    (v.export1 ctx fl c).reg .SLUICE_CNT_EXPORTLOST 0 0 = counted (s.reg .SLUICE_CNT_EXPORTLOST 0 0) ∧ (v.export1 ctx fl c).out = s.out := by
  obtain ⟨some_, why⟩ := lost
  have kept := copyTurn_kept turn
  by_cases large : v.poolSize c.pool < fl.exportLen c
  · rw [export1_large ctx some_ large, count_reg _ _ _ regOk_exportLost, kept.reg_eq (by decide) (by decide) regOk_exportLost]
    exact ⟨rfl, by simp; exact kept.out_eq (by decide)⟩
  · obtain ⟨good, fails⟩ := why.resolve_left (by rwa [← copyTurn_size turn])
    rw [← copyTurn_reads turn] at good
    rw [← copyTurn_alloc turn fl c] at fails
    have given := exportRead_keeps turn fl c
    rw [export1_nobuffer ctx some_ (Nat.not_lt.1 large) good fails, count_reg _ _ _ regOk_exportLost,
      given.reg_eq (by decide) (by decide) regOk_exportLost]
    exact ⟨rfl, by simp; exact given.out_eq (by decide)⟩

/-- An export that does not fit sends nothing, and is lost only where its items need more room. -/
theorem export1_unfit (no : ¬ s.exportFits fl c) : (v.export1 ctx fl c).out = s.out := by
  have kept := copyTurn_kept turn
  by_cases empty : fl.exported c = []
  · rw [export1_empty ctx empty]
    exact kept.out_eq (by decide)
  by_cases large : s.poolSize c.pool < fl.exportLen c
  · exact (export1_lost turn ctx fl c ⟨empty, .inl large⟩).2
  rw [← copyTurn_size turn] at large
  cases found : (s.reads portSluice (fl.exportRanges c)).1 with
  | none => exact absurd ⟨empty, by rw [← copyTurn_size turn]; omega, found⟩ no
  | some st =>
    rw [← copyTurn_reads turn] at found
    rw [export1_poison ctx empty (Nat.not_lt.1 large) found]
    exact ((reads_keeps (.refl v) _ _ (Within.mem _)).out_eq (by decide)).trans (kept.out_eq (by decide))

theorem exportPut_keeps (h : Handle) : Keeps (fun c => c ∈ exportReadChanges ++ memPutChanges) s (v.exportPut fl c h) := by
  have parts := Within.mem (exportReadChanges ++ memPutChanges)
  simp only [exportReadChanges, within_append, and_assoc] at parts
  obtain ⟨turns, reads, allocs, puts⟩ := parts
  exact copyHeads_keeps (alloc_keeps (reads_keeps (copyTurn_keepsq (.refl s) turns turn) _ _ reads) _ allocs) _ _ _ puts

section
variable (fits : s.exportFits fl c) {h : Handle} (given : (s.alloc c.pool).1 = some h)
include fits given

theorem export1_faulted {st : W16} (bad : rangeStatus s.dev.part h.addr (fl.exportLen c) = some st) :
    (v.export1 ctx fl c).out = s.out ∧ raised 9 s (v.export1 ctx fl c) ∧
    (v.export1 ctx fl c).reg .SLUICE_LAST_FAULT 0 0 = BitVec.ofNat 64 (st.toNat + 65536 * (ctx % 4096)) ∧
    (v.export1 ctx fl c).reg .SLUICE_CNT_EXPORTLOST 0 0 = s.reg .SLUICE_CNT_EXPORTLOST 0 0 := by
  obtain ⟨some_, room, good⟩ := fits
  rw [← copyTurn_size turn] at room
  rw [← copyTurn_reads turn] at good
  rw [← copyTurn_alloc turn fl c] at given
  rw [← copyTurn_part turn] at bad
  have kept := exportRead_keeps turn fl c
  have src := exportRead_srcKept turn fl c
  rw [export1_bad ctx some_ room good given bad]
  generalize ((v.exportRead fl c).alloc c.pool).2 = w at *
  have freed := release_keeps (.refl w) h (v.ctxFn ctx) (Within.mem _)
  have src := src.trans (release_srcKept w h (v.ctxFn ctx) (by decide) (by decide))
  generalize w.release h (v.ctxFn ctx) = x at *
  have told := noteFault_keeps (.refl x) ctx st (Within.mem _)
  refine ⟨(told.out_eq (by decide)).trans ((freed.out_eq (by decide)).trans (kept.out_eq (by decide))), src.raised (noteFault_raised x ctx st),
    noteFault_reg x ctx st, ?_⟩
  rw [told.reg_eq (by decide) (by decide) regOk_exportLost, freed.reg_eq (by decide) (by decide) regOk_exportLost,
    kept.reg_eq (by decide) (by decide) regOk_exportLost]

theorem export1_exported (sound : rangeStatus s.dev.part h.addr (fl.exportLen c) = none) :
    (v.export1 ctx fl c).dram.bytes = (v.copyHeads h.addr c.length ((fl.exported c).map (fun x => x.2.2.1))).dram.bytes ∧
    (fl.fn < 32 → s.ringTakes fl.fn → (v.export1 ctx fl c).out = s.out ++ s.metaWrites fl.exportKey 6 0 (fl.exportBody c h)) ∧
    (v.export1 ctx fl c).reg .SLUICE_CNT_EXPORTLOST 0 0 = s.reg .SLUICE_CNT_EXPORTLOST 0 0 := by
  have kept := exportPut_keeps turn fl c h
  obtain ⟨some_, room, good⟩ := fits
  rw [← copyTurn_size turn] at room
  rw [← copyTurn_reads turn] at good
  rw [← copyTurn_alloc turn fl c] at given
  rw [← copyTurn_part turn] at sound
  have alike : PutLike v ((v.exportRead fl c).alloc c.pool).2 :=
    (PutLike.of_keeps (reads_keeps (.refl v) _ _ (Within.mem _))).trans (.of_keeps (alloc_keeps (.refl _) _ (Within.mem _)))
  have put : (v.exportPut fl c h).dram.bytes = (v.copyHeads h.addr c.length ((fl.exported c).map (fun x => x.2.2.1))).dram.bytes :=
    (alike.copyHeads _ _ _).bytes
  rw [export1_sent ctx some_ room good given sound]
  generalize v.exportPut fl c h = w at *
  have told := metaRecord_keeps (.refl w) fl.exportKey 6 0 (fl.exportBody c h) (Within.mem _)
  refine ⟨(told.dram.bytes.resolve_left (by decide)).trans put, fun low takes => ?_, ?_⟩
  · have like := MetaLike.of_keeps low kept
    rw [metaRecord_writes (like.takes takes) (by decide), MetaLike.writes (k := fl.exportKey) like, kept.out_eq (by decide)]
  · rw [told.reg_eq (by decide) (by decide) regOk_exportLost, kept.reg_eq (by decide) (by decide) regOk_exportLost]

end

/-- An export that is not lost does not count as lost. -/
theorem export1_kept (no : ¬ s.exportLost fl c) :
    (v.export1 ctx fl c).reg .SLUICE_CNT_EXPORTLOST 0 0 = s.reg .SLUICE_CNT_EXPORTLOST 0 0 := by
  have kept := copyTurn_kept turn
  by_cases empty : fl.exported c = []
  · rw [export1_empty ctx empty]
    exact kept.reg_eq (by decide) (by decide) regOk_exportLost
  have room : fl.exportLen c ≤ s.poolSize c.pool := Nat.not_lt.1 fun large => no ⟨empty, .inl large⟩
  cases found : (s.reads portSluice (fl.exportRanges c)).1 with
  | some st =>
    rw [← copyTurn_reads turn] at found
    rw [export1_poison ctx empty (by rwa [copyTurn_size turn]) found]
    exact ((reads_keeps (.refl v) _ _ (Within.mem _)).reg_eq (by decide) (by decide) regOk_exportLost).trans
      (kept.reg_eq (by decide) (by decide) regOk_exportLost)
  | none =>
    cases given : (s.alloc c.pool).1 with
    | none => exact absurd ⟨empty, .inr ⟨found, given⟩⟩ no
    | some h =>
      cases bad : rangeStatus s.dev.part h.addr (fl.exportLen c) with
      | some st => exact (export1_faulted turn ctx fl c ⟨empty, room, found⟩ given bad).2.2.2
      | none => exact (export1_exported turn ctx fl c ⟨empty, room, found⟩ given bad).2.2

end

/-! ## After an export -/

/-- What follows the exports of a frame: it waits for the context no longer, and the lane's turn may end. -/
def State.exportOver (w : State) (ctx rill frame k : Nat) : State := ((w.flowDone ctx rill frame).laneCommit ctx k).schedule

def exportOverChanges : List Comp := flowDoneChanges ++ laneCommitChanges ++ scheduleChanges

theorem exportOver_keeps (w : State) (ctx rill frame k : Nat) : Keeps (fun c => c ∈ exportOverChanges) w (w.exportOver ctx rill frame k) := by
  have parts := Within.mem exportOverChanges
  simp only [exportOverChanges, within_append, and_assoc] at parts
  obtain ⟨flows, lanes, sched⟩ := parts
  exact schedule_keeps (laneCommit_keeps (flowDone_keeps (.refl w) _ _ _ flows) _ _ lanes) sched

theorem laneCommit_rest (w : State) (ctx k : Nat) : Keeps (fun c => c ∈ laneCommitChanges ++ scheduleChanges) w (w.laneCommit ctx k).schedule := by
  have parts := Within.mem (laneCommitChanges ++ scheduleChanges)
  rw [within_append] at parts
  exact schedule_keeps (laneCommit_keeps (.refl w) _ _ parts.1) parts.2

theorem exportOver_sources (w : State) (ctx rill frame k : Nat) : OtherSources w (w.exportOver ctx rill frame k) := by
  have done : OtherSources w (w.flowDone ctx rill frame) :=
    OtherSources.trans (.of_icu (t := w.updFlow rill frame _) rfl) (otherSources_settle _)
  exact done.trans (.of_keeps (laneCommit_rest _ _ _))

/-- A flow that a context is done with does not wait for it any more. -/
theorem flowDone_flow (w : State) (ctx rill frame : Nat) {x : Flow} (found : (w.flowDone ctx rill frame).flow rill frame = some x) :
    ctx ∉ x.ctxs := by
  have mem := List.mem_of_find?_eq_some found
  have own := List.find?_some found
  unfold State.flowDone at mem
  rw [settle_flows, List.mem_filter] at mem
  obtain ⟨y, -, rfl⟩ := List.mem_map.1 mem.1
  by_cases is_ : (decide (y.rill = rill) && decide (y.frame = frame)) = true
  · rw [if_pos is_]
    simp
  · rw [if_neg is_] at own
    exact absurd own is_

theorem exportOver_flow (w : State) (ctx rill frame k : Nat) {x : Flow} (found : (w.exportOver ctx rill frame k).flow rill frame = some x) :
    ctx ∉ x.ctxs := by
  have same : (w.exportOver ctx rill frame k).trk.flows = (w.flowDone ctx rill frame).trk.flows :=
    (laneCommit_rest _ _ _).trk.flows.resolve_left (by decide)
  refine flowDone_flow w ctx rill frame (x := x) ?_
  unfold State.flow at found ⊢
  rwa [← same]

theorem exportOver_bytes {w : State} (held : ∀ y ∈ w.ing.frames, y.isRef = true) (ctx rill frame k : Nat) :
    (w.exportOver ctx rill frame k).dram.bytes = w.dram.bytes :=
  ((laneCommit_rest _ _ _).dram.bytes.resolve_left (by decide)).trans (congrArg Dram.bytes (settle_held (s := w.updFlow rill frame _) held))

/-! ## HEAD_EXPORT -/

/-- Whether a head export can be performed (R278, R310). -/
def State.mayExport (s : State) (e : CtxEntry) (fl : Flow) (cs : List CopyCmd) : Prop :=
  e.kind = 4 ∧ s.flowReady e fl = true ∧ s.weir.coolant = .none ∧ s.clocked = true ∧ s.exportReach fl cs = true

theorem mayExport_iff (s : State) (e : CtxEntry) (fl : Flow) (cs : List CopyCmd) :
    (e.kind = 4 && s.flowReady e fl && !s.coolantHeld && s.clocked && s.exportReach fl cs) = true ↔ s.mayExport e fl cs := by
  unfold State.mayExport State.coolantHeld
  simp only [Bool.and_eq_true, decide_eq_true_eq, Bool.not_eq_true', bne_eq_false_iff_eq, and_assoc]

theorem exec_headExport_none {s : State} (ctx : Nat) {rill frame : Nat} (h : s.flow rill frame = none ∨ s.ctxEntry ctx = none) :
    exec (.headExport ctx rill frame) s = .next s := by
  change execHeadExport ctx rill frame s = _
  unfold execHeadExport
  split
  · next flow entry => simp only [flow, entry, reduceCtorEq, or_false] at h
  · rfl

section
variable {s : State} {ctx rill frame : Nat} {fl : Flow} {e : CtxEntry} (flow : s.flow rill frame = some fl) (entry : s.ctxEntry ctx = some e)
include flow entry

theorem exec_headExport_no (no : ¬ s.mayExport e fl (s.exportCmds ctx (s.oldFor ctx fl.captureTs fl.stamp)) ∨ s.copyTurn e = none) :
    exec (.headExport ctx rill frame) s = .next s := by
  change execHeadExport ctx rill frame s = _
  unfold execHeadExport
  simp only [flow, entry]
  by_cases may : s.mayExport e fl (s.exportCmds ctx (s.oldFor ctx fl.captureTs fl.stamp))
  · rw [when_eq s ((mayExport_iff ..).2 may), no.resolve_left fun other => other may]
  · rw [when_neg s (mt (mayExport_iff ..).1 may)]

theorem exec_headExport_turn (may : s.mayExport e fl (s.exportCmds ctx (s.oldFor ctx fl.captureTs fl.stamp))) {k : Nat} {v : State}
    (turn : s.copyTurn e = some (k, v)) : exec (.headExport ctx rill frame) s =
      .next ((v.exportAll ctx fl (s.exportCmds ctx (s.oldFor ctx fl.captureTs fl.stamp))).exportOver ctx rill frame k) := by
  change execHeadExport ctx rill frame s = _
  unfold execHeadExport
  simp only [flow, entry, when_eq s ((mayExport_iff ..).2 may), turn]
  rfl

end

end Sys2Proof.Machine
end

section
/-! SUPPORT. MOVE: copies of op 0 (R16, R30, R124, R309, R310, R328). -/

set_option Elab.async false

namespace Sys2Proof.Machine

/-! ## A move that starts -/

/-- Whether a move has still to record its write window (R124). -/
def State.needsWindow (s : State) (ctx k : Nat) (c : CopyCmd) : Bool := decide (c.dst < dramSize s.dev.part) && !s.hasWindow ctx k

theorem needsWindow_iff (s : State) (ctx k : Nat) (c : CopyCmd) :
    s.needsWindow ctx k c = true ↔ c.dst < dramSize s.dev.part ∧ s.hasWindow ctx k = false := by
  unfold State.needsWindow
  rw [Bool.and_eq_true, decide_eq_true_eq, Bool.not_eq_true']

section
variable {s : State} {e : CtxEntry} {k : Nat} {c : CopyCmd} {r : CmdRun}

theorem runMove_full (full : s.needsWindow e.id k c = true ∧ 256 ≤ s.dram.windows.length) :
    s.runMove e k c r = s.setCmdRun e.id { r with killed := true } :=
  if_pos (by rw [Bool.and_eq_true, decide_eq_true_eq]; exact full)

variable (room : ¬ (s.needsWindow e.id k c = true ∧ 256 ≤ s.dram.windows.length))
include room

theorem runMove_turnless (wait : s.copyTurn e = none) : s.runMove e k c r = s := by
  unfold State.runMove
  rw [wait]
  exact if_neg (by rw [Bool.and_eq_true, decide_eq_true_eq]; exact room)

/-- A move that has its turn runs, with its write window over its destination (R124, R310). -/
theorem runMove_turn {l : Nat} {v : State} (turn : s.copyTurn e = some (l, v)) :
    (s.runMove e k c r).cmdRun e.id = some { r with killed := false } ∧
    (s.runMove e k c r).dram.windows = s.dram.windows ++
      (if s.needsWindow e.id k c then [{ ctx := e.id, cmd := k, lo := c.dst, hi := c.dst + c.length }] else []) := by
  have same : v.dram.windows = s.dram.windows := congrArg Dram.windows ((copyTurn_kept turn).dram_eq (by decide))
  unfold State.runMove
  rw [turn]
  dsimp only
  rw [if_neg (by rw [Bool.and_eq_true, decide_eq_true_eq]; exact room), ← same]
  exact ⟨(cmdRun_setCmdRun _ _ _ _).trans (if_pos rfl), rfl⟩

end

theorem hasWindow_dropWindows (s : State) (ctx k : Nat) : (s.dropWindows ctx k).hasWindow ctx k = false := by
  unfold State.hasWindow State.dropWindows
  rw [List.any_eq_false]
  intro w mem
  have kept := (List.mem_filter.1 mem).2
  rwa [Bool.not_eq_true', ← Bool.not_eq_true] at kept

section
variable {s : State} {e : CtxEntry} {k : Nat} {c : CopyCmd} (next : s.nextMove e.id = some (k, c))
include next

theorem startMove_again {r : CmdRun} (run : s.cmdRun e.id = some r) (again : r.killed = true ∧ r.cmd = k) : s.startMove e = s.runMove e k c r := by
  unfold State.startMove
  rw [run, next]
  exact if_pos (by rw [Bool.and_eq_true, decide_eq_true_eq]; exact again)

theorem startMove_other {r : CmdRun} (run : s.cmdRun e.id = some r) (other : ¬ (r.killed = true ∧ r.cmd = k)) : s.startMove e = s := by
  unfold State.startMove
  rw [run, next]
  exact if_neg (by rw [Bool.and_eq_true, decide_eq_true_eq]; exact other)

variable (idle : s.cmdRun e.id = none)
include idle

theorem startMove_waits (waits : s.uncommitted e.id c.src c.length = true) : s.startMove e = s := by
  unfold State.startMove
  rw [idle, next]
  exact if_pos waits

/-- A move as it is issued. -/
def freshMove (k : Nat) : CmdRun :=
  { cmd := k, issue := 0, gen := 0, bounds := [], w := 0, h := 0, recs := [], killed := false, spent := [] }

variable (free : s.uncommitted e.id c.src c.length = false)
include free

theorem startMove_full (full : c.dst < dramSize s.dev.part ∧ 256 ≤ (s.dropWindows e.id k).dram.windows.length) :
    (s.startMove e).cmdRun e.id = some { freshMove k with killed := true } ∧ (s.startMove e).dram.windows = (s.dropWindows e.id k).dram.windows ∧
    (s.startMove e).reg .SLUICE_CNT_WINWAIT 0 0 = counted (s.reg .SLUICE_CNT_WINWAIT 0 0) := by
  have run : (s.dropWindows e.id k).runMove e k c (freshMove k) = (s.dropWindows e.id k).setCmdRun e.id { freshMove k with killed := true } :=
    runMove_full ⟨(needsWindow_iff ..).2 ⟨full.1, hasWindow_dropWindows s e.id k⟩, full.2⟩
  have own : ((s.dropWindows e.id k).setCmdRun e.id { freshMove k with killed := true }).cmdRun e.id = some { freshMove k with killed := true } :=
    (cmdRun_setCmdRun _ _ _ _).trans (if_pos rfl)
  have eq : s.startMove e = ((s.dropWindows e.id k).setCmdRun e.id { freshMove k with killed := true }).count .SLUICE_CNT_WINWAIT 0 := by
    unfold freshMove at run own
    unfold State.startMove
    rw [idle, next]
    dsimp only
    rw [if_neg (by rw [free]; decide), run, own]
    rfl
  rw [eq, count_reg _ _ _ regOk_winWait]
  exact ⟨own, rfl, rfl⟩

theorem startMove_room (room : ¬ (c.dst < dramSize s.dev.part ∧ 256 ≤ (s.dropWindows e.id k).dram.windows.length)) :
    ((s.dropWindows e.id k).copyTurn e = none → s.startMove e = s.dropWindows e.id k) ∧
    ∀ v, (s.dropWindows e.id k).copyTurn e = some v → (s.startMove e).cmdRun e.id = some (freshMove k) ∧
      (s.startMove e).dram.windows = (s.dropWindows e.id k).dram.windows ++
        (if c.dst < dramSize s.dev.part then [{ ctx := e.id, cmd := k, lo := c.dst, hi := c.dst + c.length }] else []) ∧
      (s.startMove e).reg .SLUICE_CNT_WINWAIT 0 0 = s.reg .SLUICE_CNT_WINWAIT 0 0 := by
  have need : (s.dropWindows e.id k).needsWindow e.id k c = true ↔ c.dst < dramSize s.dev.part := by
    rw [needsWindow_iff]
    exact ⟨And.left, fun low => ⟨low, hasWindow_dropWindows s e.id k⟩⟩
  have room' : ¬ ((s.dropWindows e.id k).needsWindow e.id k c = true ∧ 256 ≤ (s.dropWindows e.id k).dram.windows.length) := by rwa [need]
  have idle' : (s.dropWindows e.id k).cmdRun e.id = none := idle
  have eq : ∀ w, (s.dropWindows e.id k).runMove e k c (freshMove k) = w → (∀ x, w.cmdRun e.id = some x → x.killed = false) → s.startMove e = w := by
    intro w run live
    unfold freshMove at run
    unfold State.startMove
    rw [idle, next]
    dsimp only
    rw [if_neg (by rw [free]; decide), run]
    cases own : w.cmdRun e.id with
    | none => rfl
    | some x => exact if_neg (by rw [live x own]; decide)
  refine ⟨fun wait => eq _ (runMove_turnless room' wait) fun x own => (by rw [idle'] at own; cases own), fun v turn => ?_⟩
  obtain ⟨own, windows⟩ := runMove_turn (r := freshMove k) room' turn
  have kept := runMove_keeps (.refl (s.dropWindows e.id k)) e k c (freshMove k) (Within.mem _)
  rw [eq _ rfl fun x is_ => (by rw [own] at is_; cases is_; rfl)]
  refine ⟨own, windows.trans (congrArg _ ?_), kept.reg_eq (by decide) (by decide) regOk_winWait⟩
  by_cases low : c.dst < dramSize s.dev.part
  · rw [if_pos low, if_pos (need.2 low)]
  · rw [if_neg low, if_neg (mt need.1 low)]

end

/-! ## A move that ends -/

theorem CtxRun.sameWork.next {x y : CtxRun} (h : x.sameWork y) : y.next = x.next := by rw [h]

/-- A fault leaves where a copy context's list goes on. -/
theorem cmdFault_next (s : State) (c : Nat) (st : W16) : ((s.cmdFault c st).ctxRun c).next = (s.ctxRun c).next := by
  have note := noteFault_keeps (.refl s) c st (Within.mem _)
  rw [cmdFault_eq]
  have same := ctxRun_congr (note.slu.ctxs.resolve_left (by decide)) c
  generalize s.noteFault c st = v at *
  have killed := faultKilled_keeps (.refl v) c (Within.mem _)
  have emptied := faultEmptied_keeps (.refl (v.faultKilled c)) c (Within.mem _)
  have ended : ((v.faultEnded c).ctxRun c).next = (v.ctxRun c).next := by
    unfold State.faultEnded
    rw [ctxRun_updCtxRun, if_pos rfl, ctxRun_congr (emptied.slu.ctxs.resolve_left (by decide)), ctxRun_congr (killed.slu.ctxs.resolve_left (by decide))]
  rw [((stepOver_sched (v.faultEnded c) c).ctx c).next, ended, same]

theorem laneCommit_sched (s : State) (ctx k : Nat) : Sched s (s.laneCommit ctx k) := by
  unfold State.laneCommit
  split
  · exact Sched.trans (t := s.updCtxRun ctx fun x => { x with overrunNs := min _ (s.sliceNs ctx) }) (Sched.upd s ctx fun _ => rfl)
      (yieldLane_sched _ _)
  · split
    · split
      · exact .refl s
      · split
        · exact .refl s
        · exact yieldLane_sched s k
    · exact yieldLane_sched s k

theorem holdsCommit_sched (s : State) (ctx : Nat) : Sched s (s.holdsCommit ctx) := by
  unfold State.holdsCommit
  split
  · exact laneCommit_sched s ctx _
  · exact .refl s

/-- The state in which a move has read its source (R328) and its list goes on. -/
def State.moveRead (s : State) (ctx k : Nat) (c : CopyCmd) : State :=
  (s.reads portSluice [(c.src, c.length)]).2.updCtxRun ctx fun y => { y with next := some (k + 1) }

theorem moveRead_next (s : State) (ctx k : Nat) (c : CopyCmd) : ((s.moveRead ctx k c).ctxRun ctx).next = some (k + 1) := by
  unfold State.moveRead
  rw [ctxRun_updCtxRun, if_pos rfl]

theorem moveRead_putLike (s : State) (ctx k : Nat) (c : CopyCmd) : PutLike s (s.moveRead ctx k c) :=
  PutLike.trans (.of_keeps (reads_keeps (.refl s) _ _ (Within.mem _))) ⟨rfl, rfl, rfl, rfl⟩

theorem moveRead_srcKept (s : State) (ctx k : Nat) (c : CopyCmd) : SrcKept 9 s (s.moveRead ctx k c) :=
  (reads_srcKept s _ _ (by decide) (by decide) (by omega)).trans (.of_eq rfl rfl rfl)

section
variable {s : State} {e : CtxEntry} {r : CmdRun} {k : Nat} {c : CopyCmd}

/-- The status with which a move's source or destination faults it, if one does. -/
def State.moveFaults (s : State) (c : CopyCmd) (st : W16) : Prop :=
  (s.reads portSluice [(c.src, c.length)]).1 = some st ∨
    (s.reads portSluice [(c.src, c.length)]).1 = none ∧ rangeStatus s.dev.part c.dst c.length = some st

theorem endMove_fault {st : W16} (bad : s.moveFaults c st) : s.endMove e r k c = (s.moveRead e.id k c).cmdFault e.id st := by
  unfold State.endMove
  rcases bad with found | ⟨found, dst⟩
  · simp only [found]
    rfl
  · simp only [found, dst]
    rfl

theorem endMove_faulted {st : W16} (bad : s.moveFaults c st) : (s.endMove e r k c).cmdRun e.id = none ∧
    ((s.endMove e r k c).ctxRun e.id).next = some (k + 1) ∧
    (s.endMove e r k c).reg .SLUICE_LAST_FAULT 0 0 = BitVec.ofNat 64 (st.toNat + 65536 * (e.id % 4096)) ∧
    raised 9 s (s.endMove e r k c) ∧ (s.endMove e r k c).stepOf e.id = none := by
  obtain ⟨idle, gone, last, -⟩ := cmdFault_spec (s.moveRead e.id k c) e.id st
  rw [endMove_fault bad]
  exact ⟨idle, (cmdFault_next _ _ _).trans (moveRead_next s e.id k c), last,
    (moveRead_srcKept s e.id k c).raised (cmdFault_raised _ _ _), gone⟩

/-- The state in which a move has committed, before what it held goes on. -/
def State.moveDone (s : State) (ctx k cmd : Nat) (c : CopyCmd) : State :=
  ((((s.moveRead ctx k c).copyBytes c.src c.dst c.length).dropWindows ctx k).dropCmdRun ctx).updCtxRun ctx fun y =>
    { y with committed := some (cmd, 0) }

theorem endMove_done (found : (s.reads portSluice [(c.src, c.length)]).1 = none) (dst : rangeStatus s.dev.part c.dst c.length = none) :
    s.endMove e r k c = ((s.moveDone e.id k r.cmd c).holdsCommit e.id).settle := by
  unfold State.endMove
  simp only [found, dst]
  rfl

theorem moveDone_ctx (s : State) (ctx k cmd : Nat) (c : CopyCmd) : (s.moveDone ctx k cmd c).cmdRun ctx = none ∧
    ((s.moveDone ctx k cmd c).ctxRun ctx).next = some (k + 1) ∧ ((s.moveDone ctx k cmd c).ctxRun ctx).committed = some (cmd, 0) := by
  have copied := copyBytes_keeps (.refl (s.moveRead ctx k c)) c.src c.dst c.length (Within.mem _)
  have same := ctxRun_congr (copied.slu.ctxs.resolve_left (by decide)) ctx
  unfold State.moveDone
  generalize (s.moveRead ctx k c).copyBytes c.src c.dst c.length = v at *
  have gone := cmdRun_dropCmdRun (v.dropWindows ctx k) ctx ctx
  rw [if_pos rfl] at gone
  have run := ctxRun_updCtxRun ((v.dropWindows ctx k).dropCmdRun ctx) ctx ctx fun y => { y with committed := some (cmd, 0) }
  rw [if_pos rfl] at run
  refine ⟨gone, ?_, congrArg CtxRun.committed run⟩
  exact (congrArg CtxRun.next run).trans ((congrArg CtxRun.next same).trans (moveRead_next s ctx k c))

/-- A move that ends without a fault (R310). -/
theorem endMove_committed (found : (s.reads portSluice [(c.src, c.length)]).1 = none) (dst : rangeStatus s.dev.part c.dst c.length = none) :
    (s.endMove e r k c).cmdRun e.id = none ∧ ((s.endMove e r k c).ctxRun e.id).next = some (k + 1) ∧
    (s.endMove e r k c).dram.windows = (s.dropWindows e.id k).dram.windows ∧
    ((s.endMove e r k c).ctxRun e.id).committed = some (r.cmd, 0) ∧
    (s.endMove e r k c).slu.basins = (s.copyBytes c.src c.dst c.length).slu.basins ∧
    ((∀ y ∈ s.ing.frames, y.isRef = true) → (s.endMove e r k c).dram.bytes = (s.copyBytes c.src c.dst c.length).dram.bytes) := by
  have like := (moveRead_putLike s e.id k c).copyBytes c.src c.dst c.length
  have read := reads_keeps (.refl s) portSluice [(c.src, c.length)] (Within.mem _)
  have copied := copyBytes_keeps (.refl (s.moveRead e.id k c)) c.src c.dst c.length (Within.mem _)
  have frames : (s.moveDone e.id k r.cmd c).ing.frames = s.ing.frames :=
    (congrArg Ingest.frames (copied.ing_eq (by decide))).trans (congrArg Ingest.frames (read.ing_eq (by decide)))
  have windows : (s.moveDone e.id k r.cmd c).dram.windows = (s.dropWindows e.id k).dram.windows :=
    congrArg (List.filter _) ((copied.dram.windows.resolve_left (by decide)).trans (read.dram.windows.resolve_left (by decide)))
  have basins : (s.moveDone e.id k r.cmd c).slu.basins = (s.copyBytes c.src c.dst c.length).slu.basins := like.basins
  have bytes : (s.moveDone e.id k r.cmd c).dram.bytes = (s.copyBytes c.src c.dst c.length).dram.bytes := like.bytes
  obtain ⟨idle, next, committed⟩ := moveDone_ctx s e.id k r.cmd c
  rw [endMove_done found dst]
  generalize s.moveDone e.id k r.cmd c = w at *
  have lane := holdsCommit_keeps (.refl w) e.id (Within.mem _)
  have sched := (holdsCommit_sched w e.id).trans (settle_sched _)
  have settled := settle_keeps (.refl (w.holdsCommit e.id)) (Within.mem _)
  have dram := lane.dram_eq (by decide)
  refine ⟨sched.cmd_none idle, (sched.ctx e.id).next.trans next, (settled.dram.windows.resolve_left (by decide)).trans ((congrArg Dram.windows dram).trans windows),
    (sched.ctx e.id).committed.trans committed, (settled.slu.basins.resolve_left (by decide)).trans ((lane.slu.basins.resolve_left (by decide)).trans basins),
    fun held => ?_⟩
  have still : ∀ y ∈ (w.holdsCommit e.id).ing.frames, y.isRef = true := by
    rw [lane.ing_eq (by decide), frames]
    exact held
  exact (congrArg Dram.bytes (settle_held still)).trans ((congrArg Dram.bytes dram).trans bytes)

end

end Sys2Proof.Machine
end

section
/-! SUPPORT. MOVE, and what head exports and copies leave (R309 to R311). -/

set_option Elab.async false

namespace Sys2Proof.Machine

/-- Whether the copy engine may work on a context's move. -/
theorem mayMove_iff (s : State) (e : CtxEntry) :
    (e.kind = 4 && !s.coolantHeld && s.clocked) = true ↔ (e.kind = 4 ∧ s.weir.coolant = .none ∧ s.clocked = true) := by
  unfold State.coolantHeld
  simp only [Bool.and_eq_true, decide_eq_true_eq, Bool.not_eq_true', bne_eq_false_iff_eq, and_assoc]

theorem startMove_none {s : State} {e : CtxEntry} (idle : s.nextMove e.id = none) : s.startMove e = s := by
  unfold State.startMove
  rw [idle]
  cases s.cmdRun e.id <;> rfl

theorem exec_move_lost {s : State} {ctx : Nat} (done : Bool) (lost : s.ctxEntry ctx = none) : exec (.move ⟨ctx, done⟩) s = .next s := by
  change execMove ⟨ctx, done⟩ s = _
  unfold execMove
  simp only [lost]

section
variable {s : State} {ctx : Nat} {e : CtxEntry} (entry : s.ctxEntry ctx = some e)
include entry

theorem exec_move_no (done : Bool) (no : ¬ (e.kind = 4 ∧ s.weir.coolant = .none ∧ s.clocked = true)) : exec (.move ⟨ctx, done⟩) s = .next s := by
  change execMove ⟨ctx, done⟩ s = _
  unfold execMove
  simp only [entry]
  exact congrArg _ (when_neg s (mt (mayMove_iff s e).1 no) _)

variable (may : e.kind = 4 ∧ s.weir.coolant = .none ∧ s.clocked = true)
include may

theorem exec_move_start : exec (.move ⟨ctx, false⟩) s = .next (s.startMove e) := by
  change execMove ⟨ctx, false⟩ s = _
  unfold execMove
  simp only [entry, when_eq s ((mayMove_iff s e).2 may)]
  rfl

theorem exec_move_idle (idle : s.cmdRun ctx = none ∨ s.nextMove ctx = none) : exec (.move ⟨ctx, true⟩) s = .next s := by
  change execMove ⟨ctx, true⟩ s = _
  unfold execMove
  simp only [entry, when_eq s ((mayMove_iff s e).2 may), Bool.not_true, Bool.false_eq_true, if_false]
  split
  · next run next => simp only [run, next, reduceCtorEq, or_false] at idle
  · rfl

theorem exec_move_end {r : CmdRun} {k : Nat} {c : CopyCmd} (run : s.cmdRun ctx = some r) (next : s.nextMove ctx = some (k, c)) :
    exec (.move ⟨ctx, true⟩) s =
      .next (s.when (!r.killed && r.cmd == k && s.reach [(c.src, c.length), (c.dst, c.length)]) fun v => v.endMove e r k c) := by
  change execMove ⟨ctx, true⟩ s = _
  unfold execMove
  simp only [entry, when_eq s ((mayMove_iff s e).2 may), run, next]
  rfl

theorem exec_move_none (done : Bool) (none_ : s.nextMove ctx = none) : exec (.move ⟨ctx, done⟩) s = .next s := by
  cases done with
  | false =>
    rw [exec_move_start entry may, startMove_none]
    rw [ctxEntry_id entry]
    exact none_
  | true => exact exec_move_idle entry may (.inr none_)

end

theorem mayEnd_iff (r : CmdRun) (k : Nat) (b : Bool) : (!r.killed && r.cmd == k && b) = true ↔ (r.killed = false ∧ r.cmd = k ∧ b = true) := by
  simp only [Bool.and_eq_true, Bool.not_eq_true', beq_iff_eq, and_assoc]

/-- However a move ends, it is over and its list goes on. -/
theorem endMove_over (s : State) (e : CtxEntry) (r : CmdRun) (k : Nat) (c : CopyCmd) :
    (s.endMove e r k c).cmdRun e.id = none ∧ ((s.endMove e r k c).ctxRun e.id).next = some (k + 1) := by
  by_cases bad : ∃ st, s.moveFaults c st
  · obtain ⟨st, bad⟩ := bad
    obtain ⟨gone, list, -⟩ := endMove_faulted (e := e) (r := r) (k := k) bad
    exact ⟨gone, list⟩
  · have found : (s.reads portSluice [(c.src, c.length)]).1 = none := Option.eq_none_iff_forall_ne_some.2 fun st is_ => bad ⟨st, .inl is_⟩
    have dst : rangeStatus s.dev.part c.dst c.length = none := Option.eq_none_iff_forall_ne_some.2 fun st is_ => bad ⟨st, .inr ⟨found, is_⟩⟩
    obtain ⟨gone, list, -⟩ := endMove_committed (e := e) (r := r) (k := k) found dst
    exact ⟨gone, list⟩

theorem flow_named {s : State} {rill frame : Nat} {fl : Flow} (flow : s.flow rill frame = some fl) : fl.rill = rill ∧ fl.frame = frame := by
  have own := List.find?_some flow
  rwa [Bool.and_eq_true, decide_eq_true_eq, decide_eq_true_eq] at own

/-! ## O54 -/

/-- Settles O54: an export and a copy each read what the state after the copy engine's turn holds, which differs from the state
before in the hold of lanes only; what follows them releases frames, and so leaves DRAM alone where all are references. -/
theorem headExportsAndMoves : Obligations.HeadExportsAndMoves := by
  unfold Obligations.HeadExportsAndMoves
  dsimp only
  refine ⟨fun ctx rill frame s => ?_, fun ctx done s => ?_⟩
  · have k := execHeadExport_keeps (.refl s) ctx rill frame (Within.mem _)
    change KeepsOut _ s (exec (.headExport ctx rill frame) s) at k
    obtain ⟨t, ran⟩ : ∃ t, exec (.headExport ctx rill frame) s = .next t := ⟨_, rfl⟩
    have is_ : ∀ {v}, exec (.headExport ctx rill frame) s = .next v → t = v := fun h => Host.Outcome.next.inj (ran.symm.trans h)
    rw [ran] at k
    refine completes_of ran k (by decide +kernel) ⟨fun lost => is_ (exec_headExport_none ctx lost), fun fl e flow entry => ?_⟩
    refine ⟨fun no => is_ (exec_headExport_no flow entry no), fun l v may turn => ?_⟩
    have eq := is_ (exec_headExport_turn flow entry may turn)
    subst eq
    refine ⟨fun x found => exportOver_flow _ ctx rill frame l found, fun c only => ?_⟩
    rw [only]
    have all : v.exportAll ctx fl [c] = v.export1 ctx fl c := rfl
    rw [all]
    have after := exportOver_keeps (v.export1 ctx fl c) ctx rill frame l
    have bytes := fun held => exportOver_bytes (w := v.export1 ctx fl c) held ctx rill frame l
    have sources := exportOver_sources (v.export1 ctx fl c) ctx rill frame l
    have frames : (v.export1 ctx fl c).ing.frames = s.ing.frames :=
      congrArg Ingest.frames (((export1_keeps (.refl v) ctx fl c (Within.mem _)).ing_eq (by decide)).trans ((copyTurn_kept turn).ing_eq (by decide)))
    rw [after.reg_eq (by decide) (by decide) regOk_exportLost, after.out_eq (by decide), after.reg_eq (by decide) (by decide) regOk_lastFault]
    refine ⟨?_, ?_, fun h fits given => ⟨fun st bad => ?_, fun sound => ⟨fun held => ?_, fun low running master on some_ room => ?_⟩⟩⟩
    · split
      · next lost => exact (export1_lost turn ctx fl c lost).1
      · next no => exact export1_kept turn ctx fl c no
    · rintro (no | fails)
      · exact export1_unfit turn ctx fl c no
      · by_cases fits : s.exportFits fl c
        · exact (export1_lost turn ctx fl c ⟨fits.1, .inr ⟨fits.2.2, fails⟩⟩).2
        · exact export1_unfit turn ctx fl c fits
    · obtain ⟨out, told, last, -⟩ := export1_faulted turn ctx fl c fits given bad
      exact ⟨out, raised_later told sources (by decide), last⟩
    · rw [bytes (by rw [frames]; exact held)]
      exact (export1_exported turn ctx fl c fits given sound).1
    · obtain ⟨rfl, rfl⟩ := flow_named flow
      have sent := (export1_exported turn ctx fl c fits given sound).2.1 low ⟨running, master, on, some_, room⟩
      exact (after.out_eq (by decide)).trans sent
  · have k := execMove_keeps (.refl s) ⟨ctx, done⟩ (Within.mem _)
    change KeepsOut _ s (exec (.move ⟨ctx, done⟩) s) at k
    obtain ⟨t, ran⟩ : ∃ t, exec (.move ⟨ctx, done⟩) s = .next t := ⟨_, rfl⟩
    have is_ : ∀ {v}, exec (.move ⟨ctx, done⟩) s = .next v → t = v := fun h => Host.Outcome.next.inj (ran.symm.trans h)
    rw [ran] at k
    refine completes_of ran k (by decide +kernel) ⟨fun why => ?_, fun e n c entry next cool clock => ⟨fun other => ?_, fun copies => ?_, fun copies => ?_⟩⟩
    · cases entry : s.ctxEntry ctx with
      | none => exact is_ (exec_move_lost done entry)
      | some e =>
        by_cases may : e.kind = 4 ∧ s.weir.coolant = .none ∧ s.clocked = true
        · rcases why with lost | none_ | warm | still
          · rw [entry] at lost; cases lost
          · exact is_ (exec_move_none entry may done none_)
          · exact absurd may.2.1 warm
          · rw [may.2.2] at still; cases still
        · exact is_ (exec_move_no entry done may)
    · exact is_ (exec_move_no entry done fun may => other may.1)
    · rintro rfl
      have own := ctxEntry_id entry
      subst own
      have eq := is_ (exec_move_start entry ⟨copies, cool, clock⟩)
      subst eq
      have kept := startMove_keeps (.refl s) e (Within.mem _)
      refine ⟨kept.changesOnly.mono (by decide +kernel), fun r run => ⟨?_, fun again need full => ?_, fun v again room turn => ?_⟩, fun idle => ⟨fun waits => ?_, fun free => ⟨fun full => ?_, ?_⟩⟩⟩
      · rintro (other | ⟨room, wait⟩)
        · exact startMove_other next run other
        · by_cases again : r.killed = true ∧ r.cmd = n
          · rw [startMove_again next run again, runMove_turnless (by rwa [needsWindow_iff]) wait]
          · exact startMove_other next run again
      · rw [startMove_again next run again, runMove_full ⟨(needsWindow_iff ..).2 need, full⟩]
        have same : { r with killed := true } = r := by rw [← again.1]
        rw [same]
        exact ⟨(setCmdRun_keeps (.refl s) e.id r (Within.mem _)).changesOnly.mono (by decide +kernel), (cmdRun_setCmdRun _ _ _ _).trans (if_pos rfl)⟩
      · rw [startMove_again next run again]
        obtain ⟨now, windows⟩ := runMove_turn (r := r) (by rwa [needsWindow_iff]) turn
        refine ⟨now, windows.trans (congrArg _ ?_)⟩
        simp only [needsWindow_iff]
      · exact startMove_waits next idle waits
      · exact startMove_full next idle free full
      · by_cases full : c.dst < dramSize s.dev.part ∧ 256 ≤ (s.dropWindows e.id n).dram.windows.length
        · exact ⟨fun room => absurd full room, fun v room => absurd full room⟩
        · obtain ⟨wait, turns⟩ := startMove_room next idle free full
          exact ⟨fun _ => wait, fun v _ => turns v⟩
    · rintro rfl
      have own := ctxEntry_id entry
      subst own
      have may : e.kind = 4 ∧ s.weir.coolant = .none ∧ s.clocked = true := ⟨copies, cool, clock⟩
      refine ⟨fun no => ?_, fun r reaches run live at_ => ?_⟩
      · cases run : s.cmdRun e.id with
        | none => exact is_ (exec_move_idle entry may (.inl run))
        | some r =>
          refine is_ ((exec_move_end entry may run next).trans (congrArg _ (when_neg s (fun on => ?_) _)))
          obtain ⟨live, at_, reaches⟩ := (mayEnd_iff ..).1 on
          rcases no with far | other
          · exact far reaches
          · exact (other r run).elim (fun dead => by rw [live] at dead; cases dead) fun away => away at_
      · have eq := is_ ((exec_move_end entry may run next).trans (congrArg _ (when_eq s ((mayEnd_iff ..).2 ⟨live, at_, reaches⟩) _)))
        subst eq
        subst at_
        obtain ⟨gone, list⟩ := endMove_over s e r r.cmd c
        refine ⟨gone, list, fun st bad => ?_, fun found dst => ?_⟩
        · obtain ⟨-, -, last, told, over_⟩ := endMove_faulted (e := e) (r := r) (k := r.cmd) bad
          exact ⟨last, told, over_⟩
        · exact (endMove_committed found dst).2.2

end Sys2Proof.Machine
end

section
/-! SUPPORT. Reads of a unit, and the regions of a pixel command (R235 to R245, R325, R328). -/

set_option Elab.async false

namespace Sys2Proof.Machine

variable {cs : Comp → Prop} {u : State}

/-! ## Reads that find the same -/

/-- States in which a unit's reads find the same. -/
structure ReadLike (s v : State) : Prop where
  dev : v.dev = s.dev
  poison : v.dram.poison = s.dram.poison
  finds : v.dram.finds = s.dram.finds

theorem ReadLike.of_keeps {cs : List Comp} {s v : State} (k : Keeps (fun c => c ∈ cs) s v) (dev : ∀ c ∈ Comp.allDev, c ∉ cs := by decide)
    (poison : .dramPoison ∉ cs := by decide) (finds : .dramFinds ∉ cs := by decide) : ReadLike s v :=
  ⟨k.dev_eq dev, k.dram.poison.resolve_left poison, k.dram.finds.resolve_left finds⟩

theorem ReadLike.trans {s v w : State} (h : ReadLike s v) (g : ReadLike v w) : ReadLike s w :=
  ⟨g.dev.trans h.dev, g.poison.trans h.poison, g.finds.trans h.finds⟩

theorem ReadLike.symm {s v : State} (h : ReadLike s v) : ReadLike v s := ⟨h.dev.symm, h.poison.symm, h.finds.symm⟩

section
variable {s v : State} (h : ReadLike s v)
include h

theorem ReadLike.findOf (port b : Nat) : v.findOf port b = s.findOf port b := by
  unfold State.findOf
  rw [h.finds]

theorem ReadLike.blockPoison (port b : Nat) : v.blockPoison port b = s.blockPoison port b := by
  unfold State.blockPoison
  rw [poisoned_congr h.poison, h.findOf]

theorem ReadLike.poisonIn (port b k : Nat) : v.poisonIn port b k = s.poisonIn port b k := by
  induction k generalizing b with
  | zero => rfl
  | succ k ih =>
    unfold State.poisonIn
    rw [h.blockPoison, ih]

theorem ReadLike.memPoison (port a n : Nat) : v.memPoison port a n = s.memPoison port a n := by
  unfold State.memPoison State.readPoison
  simp only [h.dev, h.poisonIn]

theorem ReadLike.reads_fst (port : Nat) (rs : List (Nat × Nat)) : (v.reads port rs).1 = (s.reads port rs).1 := by
  unfold State.reads
  simp only [h.dev, h.memPoison]
  split <;> rfl

end

section
variable {s v : State}

theorem ReadLike.visitBlock (h : ReadLike s v) (port b : Nat) : ReadLike (s.visitBlock port b) (v.visitBlock port b) := by
  have counted := fun (w : State) d => ReadLike.of_keeps (addTo_keeps (cs := fun c => c ∈ [.reg .DMC_CNT_RD]) (.refl w) .DMC_CNT_RD d 64 (.inr (by decide)))
  have told := fun w : State => ReadLike.of_keeps (poisonSeen_keeps (.refl w) port b (Within.mem _))
  unfold State.visitBlock
  rw [h.findOf]
  split
  · exact ⟨h.dev, h.poison, congrArg (List.filter _) h.finds⟩
  · dsimp only
    rw [poisoned_congr h.poison]
    have both := ((counted s (s.blockLoc b).dmc).symm.trans h).trans (counted v (v.blockLoc b).dmc)
    split
    · exact ((told _).symm.trans both).trans (told _)
    · exact both

theorem ReadLike.visitBlocks (h : ReadLike s v) (port b k : Nat) : ReadLike (s.visitBlocks port b k) (v.visitBlocks port b k) := by
  induction k generalizing s v b with
  | zero => exact h
  | succ k ih => exact ih (h.visitBlock port b) _

theorem ReadLike.visitAll (h : ReadLike s v) (port : Nat) (rs : List (Nat × Nat)) : ReadLike (s.visitAll port rs) (v.visitAll port rs) := by
  induction rs generalizing s v with
  | nil => exact h
  | cons r rs ih =>
    refine ih (s := s.visit port r.1 r.2) (v := v.visit port r.1 r.2) ?_
    unfold State.visit
    rw [h.dev]
    split
    · exact h.visitBlocks _ _ _
    · exact h

theorem ReadLike.reads_snd (h : ReadLike s v) (port : Nat) (rs : List (Nat × Nat)) : ReadLike (s.reads port rs).2 (v.reads port rs).2 := by
  unfold State.reads
  rw [h.dev]
  split
  · exact h
  · exact h.visitAll _ _

end

/-! ## A region that is skipped -/

theorem regOk_pxe : ∀ {n : Nat}, n < 4 → regOk .PXE_CMD n 0 = true ∧ regOk .PXE_LAST_SKIP n 0 = true ∧ regOk .PXE_CNT_REGIONS n 0 = true ∧
    regOk .PXE_CNT_BUSY n 0 = true ∧ regOk .PXE_CNT_SKIP_NOBUF n 0 = true ∧ regOk .PXE_CNT_SKIP_OTHER n 0 = true ∧
    regOk .PXE_CNT_READ n 0 = true ∧ regOk .PXE_CNT_WRITTEN n 0 = true := by decide +kernel

/-- What a skipped region counts (R235, R242, R244). -/
structure SkipTold (s t : State) (n i : Nat) (st : W16) : Prop where
  last : t.reg .PXE_LAST_SKIP n 0 = BitVec.ofNat 64 (st.toNat + 65536 * (i % 64))
  regions : t.reg .PXE_CNT_REGIONS n 0 = s.reg .PXE_CNT_REGIONS n 0
  busy : t.reg .PXE_CNT_BUSY n 0 = s.reg .PXE_CNT_BUSY n 0 + 200
  nobuf : t.reg .PXE_CNT_SKIP_NOBUF n 0 =
    if st = Status.outputPoolEmpty then counted (s.reg .PXE_CNT_SKIP_NOBUF n 0) else s.reg .PXE_CNT_SKIP_NOBUF n 0
  other : t.reg .PXE_CNT_SKIP_OTHER n 0 =
    if st = Status.notCached ∨ st = Status.cropEmpty ∨ st = Status.windowTooLarge then counted (s.reg .PXE_CNT_SKIP_OTHER n 0)
    else s.reg .PXE_CNT_SKIP_OTHER n 0

/-- The registers of the scaler engines that count regions. -/
def pxeCounts : List Reg := [.PXE_LAST_SKIP, .PXE_CNT_REGIONS, .PXE_CNT_BUSY, .PXE_CNT_SKIP_NOBUF, .PXE_CNT_SKIP_OTHER, .PXE_CNT_READ, .PXE_CNT_WRITTEN]

theorem regOk_pxeCounts {r : Reg} (m : r ∈ pxeCounts) {n : Nat} (hn : n < 4) : regOk r n 0 = true := by
  have all : ∀ r ∈ pxeCounts, ∀ n < 4, regOk r n 0 = true := by decide +kernel
  exact all r m n hn

/-- Whether two states have the same counts of regions of an engine. -/
def SameCounts (n : Nat) (s t : State) : Prop := ∀ r ∈ pxeCounts, t.reg r n 0 = s.reg r n 0

theorem SameCounts.of_keeps {cs : List Comp} {s t : State} {n : Nat} (hn : n < 4) (k : Keeps (fun c => c ∈ cs) s t) (all : .regs ∉ cs := by decide)
    (out : ∀ r ∈ pxeCounts, .reg r ∉ cs := by decide) : SameCounts n s t := fun r m => k.reg_eq all (out r m) (regOk_pxeCounts m hn)

theorem SameCounts.trans {n : Nat} {s t v : State} (h : SameCounts n s t) (g : SameCounts n t v) : SameCounts n s v :=
  fun r m => (g r m).trans (h r m)

theorem SkipTold.before {s v t : State} {n i : Nat} {st : W16} (h : SkipTold v t n i st) (g : SameCounts n s v) : SkipTold s t n i st := by
  obtain ⟨last, regions, busy, nobuf, other⟩ := h
  rw [g .PXE_CNT_REGIONS (by decide)] at regions
  rw [g .PXE_CNT_BUSY (by decide)] at busy
  rw [g .PXE_CNT_SKIP_NOBUF (by decide)] at nobuf
  rw [g .PXE_CNT_SKIP_OTHER (by decide)] at other
  exact ⟨last, regions, busy, nobuf, other⟩

theorem SkipTold.after {s t v : State} {n i : Nat} {st : W16} (h : SkipTold s t n i st) (g : SameCounts n t v) : SkipTold s v n i st := by
  obtain ⟨last, regions, busy, nobuf, other⟩ := h
  exact ⟨(g .PXE_LAST_SKIP (by decide)).trans last, (g .PXE_CNT_REGIONS (by decide)).trans regions, (g .PXE_CNT_BUSY (by decide)).trans busy,
    (g .PXE_CNT_SKIP_NOBUF (by decide)).trans nobuf, (g .PXE_CNT_SKIP_OTHER (by decide)).trans other⟩

/-- The state in which a skipped region is counted, before its frame learns of it. -/
def State.skipCounted (s : State) (n i : Nat) (st : W16) : State :=
  let s1 := s.setReg .PXE_LAST_SKIP n 0 (BitVec.ofNat 64 (st.toNat + 65536 * (i % 64)))
  (if st = Status.outputPoolEmpty then s1.count .PXE_CNT_SKIP_NOBUF n
    else if st = Status.notCached ∨ st = Status.cropEmpty ∨ st = Status.windowTooLarge then s1.count .PXE_CNT_SKIP_OTHER n
    else s1).addTo .PXE_CNT_BUSY n 200

theorem skipCounted_told (s : State) {n : Nat} (hn : n < 4) (i : Nat) (st : W16) : SkipTold s (s.skipCounted n i st) n i st := by
  obtain ⟨-, last, regions, busy, nobuf, other, -⟩ := regOk_pxe hn
  have set := reg_setReg_self s (BitVec.ofNat 64 (st.toNat + 65536 * (i % 64))) last
  have kept := fun {q : Reg} (ok : regOk q n 0 = true) (ne : q ≠ .PXE_LAST_SKIP) =>
    reg_setReg_other s (r := .PXE_LAST_SKIP) (u := n) (i := 0) (BitVec.ofNat 64 (st.toNat + 65536 * (i % 64))) ok (.inl ne)
  unfold State.skipCounted
  dsimp only
  generalize s.setReg .PXE_LAST_SKIP n 0 (BitVec.ofNat 64 (st.toNat + 65536 * (i % 64))) = v at *
  have added := fun (w : State) {q : Reg} (ok : regOk q n 0 = true) (ne : q ≠ .PXE_CNT_BUSY) =>
    addTo_reg_other w (r := .PXE_CNT_BUSY) (u := n) 200 ok (.inl ne)
  have counts := fun {q r : Reg} (ok : regOk q n 0 = true) (ne : q ≠ r) => count_reg_other v (r := r) (u := n) ok (.inl ne)
  split
  · next empty =>
    have not_ : ¬ (st = Status.notCached ∨ st = Status.cropEmpty ∨ st = Status.windowTooLarge) := by rw [empty]; decide
    refine ⟨?_, ?_, ?_, ?_, ?_⟩
    · rw [added _ last (by decide), counts last (by decide), set]
    · rw [added _ regions (by decide), counts regions (by decide), kept regions (by decide)]
    · rw [addTo_reg _ _ _ _ busy, counts busy (by decide), kept busy (by decide)]
      rfl
    · rw [added _ nobuf (by decide), count_reg _ _ _ nobuf, kept nobuf (by decide), if_pos empty]
      rfl
    · rw [added _ other (by decide), counts other (by decide), kept other (by decide), if_neg not_]
  next full =>
  split
  · next told =>
    refine ⟨?_, ?_, ?_, ?_, ?_⟩
    · rw [added _ last (by decide), counts last (by decide), set]
    · rw [added _ regions (by decide), counts regions (by decide), kept regions (by decide)]
    · rw [addTo_reg _ _ _ _ busy, counts busy (by decide), kept busy (by decide)]
      rfl
    · rw [added _ nobuf (by decide), counts nobuf (by decide), kept nobuf (by decide), if_neg full]
    · rw [added _ other (by decide), count_reg _ _ _ other, kept other (by decide), if_pos told]
      rfl
  · next quiet =>
    refine ⟨?_, ?_, ?_, ?_, ?_⟩
    · rw [added _ last (by decide), set]
    · rw [added _ regions (by decide), kept regions (by decide)]
    · rw [addTo_reg _ _ _ _ busy, kept busy (by decide)]
      rfl
    · rw [added _ nobuf (by decide), kept nobuf (by decide), if_neg full]
    · rw [added _ other (by decide), kept other (by decide), if_neg quiet]

/-- The frame of a skipped region, or the track of its crop, learns of it (R247, R267, R277). -/
def State.skipNoted (v : State) (f : Frame) (j : RegionJob) (st : W16) : State :=
  let error := st != Status.cropEmpty && st != Status.windowTooLarge
  if j.track = 0 then
    if v.readers j.desc.target = [] then v
    else v.updFlow f.rill f.index (fun x => { x with headSkipped := true, errorSeen := x.errorSeen || error })
  else
    (v.setRillTrk f.rill { v.rillTrk f.rill with cropsSkipped := bump (v.rillTrk f.rill).cropsSkipped }).embLose f.rill j.track f.index
      Status.embeddingLost error

theorem skipRegion_eq (s : State) (n : Nat) (f : Frame) (j : RegionJob) (st : W16) :
    s.skipRegion n f j st = (s.skipCounted n j.index st).skipNoted f j st := rfl

theorem skipNoted_counts (v : State) {n : Nat} (hn : n < 4) (f : Frame) (j : RegionJob) (st : W16) : SameCounts n v (v.skipNoted f j st) := by
  unfold State.skipNoted
  dsimp only
  split
  · split
    · exact fun _ _ => rfl
    · exact fun _ _ => rfl
  · have first : SameCounts n v (v.setRillTrk f.rill { v.rillTrk f.rill with cropsSkipped := bump (v.rillTrk f.rill).cropsSkipped }) := fun _ _ => rfl
    generalize v.setRillTrk f.rill { v.rillTrk f.rill with cropsSkipped := bump (v.rillTrk f.rill).cropsSkipped } = w at *
    exact first.trans (.of_keeps hn (embLose_keeps (.refl w) f.rill j.track f.index Status.embeddingLost
      (st != Status.cropEmpty && st != Status.windowTooLarge) (Within.mem _)))

theorem skipRegion_told (s : State) {n : Nat} (hn : n < 4) (f : Frame) (j : RegionJob) (st : W16) :
    SkipTold s (s.skipRegion n f j st) n j.index st := by
  rw [skipRegion_eq]
  exact (skipCounted_told s hn j.index st).after (skipNoted_counts _ hn f j st)

end Sys2Proof.Machine
end

section
/-! SUPPORT. One region of a pixel command (R235 to R245). -/

set_option Elab.async false

namespace Sys2Proof.Machine

variable {cs : Comp → Prop} {u : State}

theorem PutLike.memRd {s v : State} (h : PutLike s v) (a n : Nat) : v.memRd a n = s.memRd a n := congrArg leVal (h.memGet a n)

theorem PutLike.hdr {s v : State} (h : PutLike s v) (a : Nat) : v.readFrameHdr a = s.readFrameHdr a := by
  unfold State.readFrameHdr
  simp only [h.memRd]

theorem PutLike.memByte {s v : State} (h : PutLike s v) (a : Nat) : v.memByte a = s.memByte a := by
  unfold State.memByte State.dramByte
  simp only [h.dev, h.bytes, basin_congr h.basins]

theorem PutLike.pixels {s v : State} (h : PutLike s v) (d : RegionDesc) (hd : FrameHdr) (g : Geom) (ps : List SrcPlane) :
    v.regionPixels d hd g ps = s.regionPixels d hd g ps := by
  unfold State.regionPixels State.resample State.sampleAt
  simp only [h.memByte, h.memRd]

theorem PutLike.putAll {s v : State} (h : PutLike s v) (a : Nat) (ws : List (Nat × List Byte)) : PutLike (s.putAll a ws) (v.putAll a ws) := by
  induction ws generalizing s v with
  | nil => exact h
  | cons w ws ih => exact ih (h.memPut _ _ _)

/-! ## A region, case by case -/

section
variable (s : State) (n : Nat) (f : Frame) (j : RegionJob) (slot : Option (Nat × Nat))

/-- The state in which a scaler engine has read a frame's header. -/
def State.hdrRead (s : State) (f : Frame) : State := (s.reads portPxe [(f.handle.addr, 128)]).2

/-- The samples that a region reads (R239, R328). -/
def regionRanges (f : Frame) (d : RegionDesc) (h : FrameHdr) (g : Geom) : List (Nat × Nat) :=
  (srcPlanes f.handle.addr d h g).flatMap (planeRanges h.depth d g)

/-- The state in which it has read a region's samples. -/
def State.samplesRead (s : State) (f : Frame) (d : RegionDesc) (h : FrameHdr) (g : Geom) : State :=
  ((s.hdrRead f).reads portPxe (regionRanges f d h g)).2

theorem runRegion_lost : s.runRegion n f false j slot = (s.skipRegion n f j Status.notCached, .skipped) := rfl

variable {s f j}

theorem runRegion_hdr {st : W16} (bad : (s.reads portPxe [(f.handle.addr, 128)]).1 = some st) :
    s.runRegion n f true j slot = ((s.hdrRead f).skipRegion n f j st, .skipped) := by
  unfold State.runRegion State.hdrRead
  generalize s.reads portPxe [(f.handle.addr, 128)] = found at *
  obtain ⟨r, w⟩ := found
  cases bad
  rfl

variable (good : (s.reads portPxe [(f.handle.addr, 128)]).1 = none) {h : FrameHdr} (hdr : (s.hdrRead f).readFrameHdr f.handle.addr = h)
include good hdr

theorem runRegion_rect {st : W16} (bad : clippedRect j.desc h j.box = .inl st) :
    s.runRegion n f true j slot = ((s.hdrRead f).skipRegion n f j st, .skipped) := by
  subst hdr
  unfold State.runRegion
  unfold State.hdrRead at *
  generalize s.reads portPxe [(f.handle.addr, 128)] = found at *
  obtain ⟨r, w⟩ := found
  cases good
  dsimp only at bad ⊢
  rw [bad]
  rfl

variable {r : Rect} (rect : clippedRect j.desc h j.box = .inr r) {g : Geom} (geom : fitGeom j.desc r = g)
include rect geom

theorem runRegion_samples {st : W16} (bad : ((s.hdrRead f).reads portPxe (regionRanges f j.desc h g)).1 = some st) :
    s.runRegion n f true j slot = ((s.samplesRead f j.desc h g).skipRegion n f j st, .skipped) := by
  subst hdr geom
  unfold State.runRegion
  unfold State.samplesRead State.hdrRead at *
  unfold regionRanges at *
  generalize s.reads portPxe [(f.handle.addr, 128)] = found at *
  obtain ⟨x, w⟩ := found
  cases good
  dsimp only at bad rect ⊢
  rw [rect]
  dsimp only
  generalize w.reads portPxe _ = found at *
  obtain ⟨x, w⟩ := found
  cases bad
  rfl

variable (read : ((s.hdrRead f).reads portPxe (regionRanges f j.desc h g)).1 = none)
include read

/-- A region whose samples have been read goes to its slot, or to a buffer of its pool. -/
theorem runRegion_read : s.runRegion n f true j slot =
    match slot with
    | some (k, b) => ((s.samplesRead f j.desc h g).writeRegion n j.desc h g (srcPlanes f.handle.addr j.desc h g) (basinBase k + b),
        .mark j.desc.target ((s.samplesRead f j.desc h g).regionItem f j g (basinBase k + b) none slot))
    | none =>
      match (s.samplesRead f j.desc h g).alloc j.desc.pool with
      | (none, s2) => (s2.skipRegion n f j Status.outputPoolEmpty, .skipped)
      | (some hd, s2) =>
        match rangeStatus s.dev.part hd.addr (j.desc.chans * planesOf j.desc.outFmt * j.desc.planePitch) with
        | some st => ((s2.release hd (s.ctxFn j.desc.target)).skipRegion n f j st, .fault st)
        | none => (s2.writeRegion n j.desc h g (srcPlanes f.handle.addr j.desc h g) hd.addr,
            .mark j.desc.target (s2.regionItem f j g hd.addr (some hd) none)) := by
  subst hdr geom
  unfold State.runRegion
  unfold State.samplesRead State.hdrRead at *
  unfold regionRanges at *
  generalize s.reads portPxe [(f.handle.addr, 128)] = found at *
  obtain ⟨x, w⟩ := found
  cases good
  dsimp only at read rect ⊢
  rw [rect]
  dsimp only
  generalize w.reads portPxe _ = found at *
  obtain ⟨x, w⟩ := found
  cases read
  rfl

theorem runRegion_slot (k b : Nat) : s.runRegion n f true j (some (k, b)) =
    ((s.samplesRead f j.desc h g).writeRegion n j.desc h g (srcPlanes f.handle.addr j.desc h g) (basinBase k + b),
      .mark j.desc.target ((s.samplesRead f j.desc h g).regionItem f j g (basinBase k + b) none (some (k, b)))) :=
  runRegion_read n (some (k, b)) good hdr rect geom read

/-- The state in which a buffer has been asked of a region's pool. -/
def State.regionBuffer (s : State) (f : Frame) (d : RegionDesc) (h : FrameHdr) (g : Geom) : State :=
  ((s.samplesRead f d h g).alloc d.pool).2

theorem runRegion_nobuffer (fails : ((s.samplesRead f j.desc h g).alloc j.desc.pool).1 = none) : s.runRegion n f true j none =
    ((s.regionBuffer f j.desc h g).skipRegion n f j Status.outputPoolEmpty, .skipped) := by
  rw [runRegion_read n none good hdr rect geom read]
  unfold State.regionBuffer
  generalize (s.samplesRead f j.desc h g).alloc j.desc.pool = taken at *
  obtain ⟨x, w⟩ := taken
  cases fails
  rfl

variable {hd : Handle} (given : ((s.samplesRead f j.desc h g).alloc j.desc.pool).1 = some hd)
include given

theorem runRegion_bad {st : W16} (bad : rangeStatus s.dev.part hd.addr (j.desc.chans * planesOf j.desc.outFmt * j.desc.planePitch) = some st) :
    s.runRegion n f true j none =
      (((s.regionBuffer f j.desc h g).release hd (s.ctxFn j.desc.target)).skipRegion n f j st, .fault st) := by
  rw [runRegion_read n none good hdr rect geom read]
  unfold State.regionBuffer
  generalize (s.samplesRead f j.desc h g).alloc j.desc.pool = taken at *
  obtain ⟨x, w⟩ := taken
  cases given
  dsimp only
  rw [bad]

theorem runRegion_buffer (sound : rangeStatus s.dev.part hd.addr (j.desc.chans * planesOf j.desc.outFmt * j.desc.planePitch) = none) :
    s.runRegion n f true j none =
      ((s.regionBuffer f j.desc h g).writeRegion n j.desc h g (srcPlanes f.handle.addr j.desc h g) hd.addr,
        .mark j.desc.target ((s.regionBuffer f j.desc h g).regionItem f j g hd.addr (some hd) none)) := by
  rw [runRegion_read n none good hdr rect geom read]
  unfold State.regionBuffer
  generalize (s.samplesRead f j.desc h g).alloc j.desc.pool = taken at *
  obtain ⟨x, w⟩ := taken
  cases given
  dsimp only
  rw [sound]

end

/-! ## A command of one region -/

theorem runRegions_skipped {s s1 : State} {n ctx : Nat} {f : Frame} {held : Bool} {j : RegionJob} {slot : Option (Nat × Nat)}
    (run : s.runRegion n f held j slot = (s1, .skipped)) : s.runRegions n ctx f held [(j, slot)] [] = (s1, []) := by
  unfold State.runRegions
  rw [run]
  rfl

theorem runRegions_mark {s s1 : State} {n ctx : Nat} {f : Frame} {held : Bool} {j : RegionJob} {slot : Option (Nat × Nat)} {t : Nat} {it : Item}
    (run : s.runRegion n f held j slot = (s1, .mark t it)) : s.runRegions n ctx f held [(j, slot)] [] = (s1, [(t, it)]) := by
  unfold State.runRegions
  rw [run]
  rfl

theorem runRegions_fault {s s1 : State} {n ctx : Nat} {f : Frame} {held : Bool} {j : RegionJob} {slot : Option (Nat × Nat)} {st : W16}
    (run : s.runRegion n f held j slot = (s1, .fault st)) : s.runRegions n ctx f held [(j, slot)] [] = (s1.noteFault ctx st, []) := by
  unfold State.runRegions
  rw [run]
  rfl

end Sys2Proof.Machine
end

section
/-! SUPPORT. What becomes of a region of a pixel command (R235 to R245). -/

set_option Elab.async false

namespace Sys2Proof.Machine

variable {cs : Comp → Prop} {u : State}

/-! ## States that a pixel command has not yet changed -/

/-- Nothing has been written or counted of a pixel command of engine `n`. -/
structure Unwritten (n : Nat) (s v : State) : Prop where
  counts : SameCounts n s v
  src : SrcKept 9 s v
  put : PutLike s v
  ldr : v.ldr = s.ldr

theorem Unwritten.trans {n : Nat} {s v w : State} (h : Unwritten n s v) (g : Unwritten n v w) : Unwritten n s w :=
  ⟨h.counts.trans g.counts, h.src.trans g.src, h.put.trans g.put, g.ldr.trans h.ldr⟩

theorem reads_unwritten {n : Nat} (hn : n < 4) (s : State) (port : Nat) (rs : List (Nat × Nat)) : Unwritten n s (s.reads port rs).2 := by
  have k := reads_keeps (.refl s) port rs (Within.mem _)
  exact ⟨.of_keeps hn k, reads_srcKept s port rs (by decide) (by decide) (by omega), .of_keeps k, k.ldr_eq (by decide)⟩

theorem alloc_unwritten {n : Nat} (hn : n < 4) (s : State) (p : Nat) : Unwritten n s (s.alloc p).2 := by
  have k := alloc_keeps (.refl s) p (Within.mem _)
  exact ⟨.of_keeps hn k, alloc_srcKept s p (by decide) (by decide) (by omega), .of_keeps k, k.ldr_eq (by decide)⟩

theorem Unwritten.item {n : Nat} {s v : State} (h : Unwritten n s v) (f : Frame) (j : RegionJob) (g : Geom) (a : Nat) (b : Option Handle)
    (slot : Option (Nat × Nat)) : v.regionItem f j g a b slot = s.regionItem f j g a b slot := by
  unfold State.regionItem State.readers State.ctxKind State.ctxEntry
  rw [h.ldr]

/-! ## A region that is written -/

/-- What a written region leaves (R241, R244, R245). -/
structure RegionDone (s out t : State) (n : Nat) (d : RegionDesc) (g : Geom) : Prop where
  regions : t.reg .PXE_CNT_REGIONS n 0 = s.reg .PXE_CNT_REGIONS n 0 + 1
  read : t.reg .PXE_CNT_READ n 0 = s.reg .PXE_CNT_READ n 0 + BitVec.ofNat 64 (g.sw * g.sh)
  written : t.reg .PXE_CNT_WRITTEN n 0 = s.reg .PXE_CNT_WRITTEN n 0 + BitVec.ofNat 64 (d.outW * d.outH)
  busy : t.reg .PXE_CNT_BUSY n 0 = s.reg .PXE_CNT_BUSY n 0 + BitVec.ofNat 64 (regionCycles d g)
  bytes : t.dram.bytes = out.dram.bytes
  basins : t.slu.basins = out.slu.basins

/-- What a region writes. -/
def State.regionOut (s : State) (d : RegionDesc) (h : FrameHdr) (g : Geom) (ps : List SrcPlane) (a : Nat) : State :=
  s.putAll a (planeWrites d (outRows d g (s.regionPixels d h g ps)))

theorem Unwritten.out {n : Nat} {s v : State} (h : Unwritten n s v) (d : RegionDesc) (hd : FrameHdr) (g : Geom) (ps : List SrcPlane) (a : Nat) :
    PutLike (s.regionOut d hd g ps a) (v.regionOut d hd g ps a) := by
  unfold State.regionOut
  rw [h.put.pixels]
  exact h.put.putAll _ _

/-- The four counts of a written region. -/
def State.regionCounted (s : State) (n : Nat) (d : RegionDesc) (g : Geom) : State :=
  (((s.addTo .PXE_CNT_REGIONS n 1).addTo .PXE_CNT_READ n (g.sw * g.sh)).addTo .PXE_CNT_WRITTEN n (d.outW * d.outH)).addTo
    .PXE_CNT_BUSY n (regionCycles d g)

theorem regionCounted_regs (s : State) {n : Nat} (hn : n < 4) (d : RegionDesc) (g : Geom) : RegionDone s s (s.regionCounted n d g) n d g := by
  obtain ⟨-, -, regions, busy, -, -, read, written⟩ := regOk_pxe hn
  have other := fun (w : State) {q r : Reg} (k : Nat) (ok : regOk q n 0 = true) (ne : q ≠ r) => addTo_reg_other w (r := r) (u := n) k ok (.inl ne)
  unfold State.regionCounted
  refine ⟨?_, ?_, ?_, ?_, ?_, ?_⟩
  · rw [other _ _ regions (by decide), other _ _ regions (by decide), other _ _ regions (by decide), addTo_reg _ _ _ _ regions]
    rfl
  · rw [other _ _ read (by decide), other _ _ read (by decide), addTo_reg _ _ _ _ read, other _ _ read (by decide)]
  · rw [other _ _ written (by decide), addTo_reg _ _ _ _ written, other _ _ written (by decide), other _ _ written (by decide)]
  · rw [addTo_reg _ _ _ _ busy, other _ _ busy (by decide), other _ _ busy (by decide), other _ _ busy (by decide)]
  · simp
  · simp

theorem RegionDone.before {n : Nat} {s v out t : State} {d : RegionDesc} {g : Geom} (h : RegionDone v out t n d g) (c : SameCounts n s v) :
    RegionDone s out t n d g := by
  obtain ⟨regions, read, written, busy, bytes, basins⟩ := h
  rw [c .PXE_CNT_REGIONS (by decide)] at regions
  rw [c .PXE_CNT_READ (by decide)] at read
  rw [c .PXE_CNT_WRITTEN (by decide)] at written
  rw [c .PXE_CNT_BUSY (by decide)] at busy
  exact ⟨regions, read, written, busy, bytes, basins⟩

theorem RegionDone.put {n : Nat} {s v out t : State} {d : RegionDesc} {g : Geom} (h : RegionDone s v t n d g) (p : PutLike out v) :
    RegionDone s out t n d g := ⟨h.regions, h.read, h.written, h.busy, h.bytes.trans p.bytes, h.basins.trans p.basins⟩

theorem writeRegion_done {n : Nat} (hn : n < 4) {s v : State} (h : Unwritten n s v) (d : RegionDesc) (hd : FrameHdr) (g : Geom)
    (ps : List SrcPlane) (a : Nat) : RegionDone s (s.regionOut d hd g ps a) (v.writeRegion n d hd g ps a) n d g := by
  have eq : v.writeRegion n d hd g ps a = (v.regionOut d hd g ps a).regionCounted n d g := rfl
  have put := putAll_keeps (.refl v) a (planeWrites d (outRows d g (v.regionPixels d hd g ps))) (Within.mem _)
  have counts : SameCounts n v (v.regionOut d hd g ps a) := .of_keeps hn put
  rw [eq]
  exact ((regionCounted_regs _ hn d g).before (h.counts.trans counts)).put (h.out d hd g ps a)

/-! ## What a command of one region comes to -/

/-- The start of a pixel command: the crops that it takes, its engine, and the clusters of its slots (R234, R282, R289). -/
def State.pixelStart (s : State) (n ctx rill : Nat) (rest : List CropReq) (zs : List (RegionJob × Option (Nat × Nat))) : State :=
  (State.setReg { s with trk := { s.trk with crops := rest, lastPxe := n } } .PXE_CMD n 0 (BitVec.ofNat 64 (ctx + 4096 * rill))).fixClusters zs

def pixelStartChanges : List Comp := [.trkCrops, .trkLastPxe, .reg .PXE_CMD, .sluCtxs]

theorem pixelStart_keeps (s : State) (n ctx rill : Nat) (rest : List CropReq) (zs : List (RegionJob × Option (Nat × Nat))) :
    Keeps (fun c => c ∈ pixelStartChanges) s (s.pixelStart n ctx rill rest zs) := by
  have hd := Within.mem pixelStartChanges
  have start : Keeps (fun c => c ∈ pixelStartChanges) s { s with trk := { s.trk with crops := rest, lastPxe := n } } := keeps_mk (.refl s)
  exact fixClusters_keeps (setReg_keeps start _ _ _ _ (.inr (by decide))) _ (by unfold Within; decide)

theorem pixelStart_unwritten {n : Nat} (hn : n < 4) (s : State) (ctx rill : Nat) (rest : List CropReq) (zs : List (RegionJob × Option (Nat × Nat))) :
    Unwritten n s (s.pixelStart n ctx rill rest zs) := by
  have k := pixelStart_keeps s n ctx rill rest zs
  exact ⟨.of_keeps hn k, .of_keeps (by decide) k (.of_icu (k.icu_eq (by decide))), .of_keeps k, k.ldr_eq (by decide)⟩

theorem pixelStart_cmd {n : Nat} (hn : n < 4) (s : State) (ctx rill : Nat) (rest : List CropReq) (zs : List (RegionJob × Option (Nat × Nat))) :
    (s.pixelStart n ctx rill rest zs).reg .PXE_CMD n 0 = BitVec.ofNat 64 (ctx + 4096 * rill) := by
  have set := reg_setReg_self { s with trk := { s.trk with crops := rest, lastPxe := n } } (BitVec.ofNat 64 (ctx + 4096 * rill)) (regOk_pxe hn).1
  unfold State.pixelStart
  generalize State.setReg { s with trk := { s.trk with crops := rest, lastPxe := n } } .PXE_CMD n 0 (BitVec.ofNat 64 (ctx + 4096 * rill)) = v at *
  rw [(fixClusters_keeps (.refl v) zs (Within.mem _)).reg_eq (by decide) (by decide) (regOk_pxe hn).1, set]

/-- A command of one region whose region is skipped. -/
structure PixelSkipped (s : State) (n i : Nat) (st : W16) (r : State × List (Nat × Item)) : Prop where
  told : SkipTold s r.1 n i st
  marks : r.2 = []

section
variable {n : Nat} (hn : n < 4) {s v : State} (start : Unwritten n s v) (ctx : Nat) {f : Frame} {j : RegionJob} {slot : Option (Nat × Nat)}
include hn start

theorem pixelSkipped_of {w : State} (prep : Unwritten n v w) {held : Bool} {st : W16} (run : v.runRegion n f held j slot = (w.skipRegion n f j st, .skipped)) :
    PixelSkipped s n j.index st (v.runRegions n ctx f held [(j, slot)] []) := by
  rw [runRegions_skipped run]
  exact ⟨(skipRegion_told w hn f j st).before (start.counts.trans prep.counts), rfl⟩

theorem pixelLost : PixelSkipped s n j.index Status.notCached (v.runRegions n ctx f false [(j, slot)] []) :=
  pixelSkipped_of hn start ctx ⟨fun _ _ => rfl, .refl v, .refl v, rfl⟩ (runRegion_lost ..)

variable (like : ReadLike s v)
include like

theorem pixelHdr {st : W16} (bad : (s.reads portPxe [(f.handle.addr, 128)]).1 = some st) :
    PixelSkipped s n j.index st (v.runRegions n ctx f true [(j, slot)] []) :=
  pixelSkipped_of hn start ctx (reads_unwritten hn v _ _) (runRegion_hdr n slot ((like.reads_fst ..).trans bad))

variable (good : (s.reads portPxe [(f.handle.addr, 128)]).1 = none) {h : FrameHdr} (hdr : s.readFrameHdr f.handle.addr = h)
include good hdr

omit hn like good in
theorem hdrRead_hdr : (v.hdrRead f).readFrameHdr f.handle.addr = h :=
  ((PutLike.of_keeps (reads_keeps (.refl v) _ _ (Within.mem _))).hdr _).trans ((start.put.hdr _).trans hdr)

theorem pixelRect {st : W16} (bad : clippedRect j.desc h j.box = .inl st) : PixelSkipped s n j.index st (v.runRegions n ctx f true [(j, slot)] []) :=
  pixelSkipped_of hn start ctx (reads_unwritten hn v _ _)
    (runRegion_rect n slot ((like.reads_fst ..).trans good) (hdrRead_hdr start hdr) bad)

variable {r : Rect} (rect : clippedRect j.desc h j.box = .inr r) {g : Geom} (geom : fitGeom j.desc r = g)
include rect geom

theorem pixelSamples {st : W16} (bad : ((s.hdrRead f).reads portPxe (regionRanges f j.desc h g)).1 = some st) :
    PixelSkipped s n j.index st (v.runRegions n ctx f true [(j, slot)] []) :=
  pixelSkipped_of hn start ctx ((reads_unwritten hn v _ _).trans (reads_unwritten hn _ _ _))
    (runRegion_samples n slot ((like.reads_fst ..).trans good) (hdrRead_hdr start hdr) rect geom
      (((like.reads_snd ..).reads_fst ..).trans bad))

variable (read : ((s.hdrRead f).reads portPxe (regionRanges f j.desc h g)).1 = none)
include read

theorem pixelSlot (k b : Nat) : (v.runRegions n ctx f true [(j, some (k, b))] []).2 =
      [(j.desc.target, s.regionItem f j g (basinBase k + b) none (some (k, b)))] ∧
    RegionDone s (s.regionOut j.desc h g (srcPlanes f.handle.addr j.desc h g) (basinBase k + b))
      (v.runRegions n ctx f true [(j, some (k, b))] []).1 n j.desc g := by
  have run := runRegion_slot n ((like.reads_fst ..).trans good) (hdrRead_hdr start hdr) rect geom (((like.reads_snd ..).reads_fst ..).trans read) k b
  have prep : Unwritten n s (v.samplesRead f j.desc h g) := start.trans ((reads_unwritten hn v _ _).trans (reads_unwritten hn _ _ _))
  rw [runRegions_mark run]
  exact ⟨by rw [prep.item], writeRegion_done hn prep _ _ _ _ _⟩

variable (pools : v.pools = s.pools) (free : v.freeIdx = s.freeIdx)
include pools free

omit hn like good hdr rect geom read in
theorem pixelAlloc : ((v.samplesRead f j.desc h g).alloc j.desc.pool).1 = (s.alloc j.desc.pool).1 :=
  ((AllocLike.trans ⟨pools, start.put.bytes, start.put.poison, free⟩
    ((AllocLike.of_keeps (reads_keeps (.refl v) _ _ (Within.mem _))).trans (.of_keeps (reads_keeps (.refl _) _ _ (Within.mem _))))).alloc _).1

omit hn start like good hdr rect geom read pools free in
theorem regionBuffer_unwritten (hn : n < 4) (v : State) (f : Frame) (d : RegionDesc) (h : FrameHdr) (g : Geom) : Unwritten n v (v.regionBuffer f d h g) :=
  ((reads_unwritten hn v _ _).trans (reads_unwritten hn _ _ _)).trans (alloc_unwritten hn _ _)

theorem pixelNobuffer (fails : (s.alloc j.desc.pool).1 = none) :
    PixelSkipped s n j.index Status.outputPoolEmpty (v.runRegions n ctx f true [(j, none)] []) :=
  pixelSkipped_of hn start ctx (regionBuffer_unwritten hn v f j.desc h g)
    (runRegion_nobuffer n ((like.reads_fst ..).trans good) (hdrRead_hdr start hdr) rect geom (((like.reads_snd ..).reads_fst ..).trans read)
      ((pixelAlloc start pools free).trans fails))

variable {hd : Handle} (given : (s.alloc j.desc.pool).1 = some hd)
include given

theorem pixelBad {st : W16} (bad : rangeStatus s.dev.part hd.addr (j.desc.chans * planesOf j.desc.outFmt * j.desc.planePitch) = some st) :
    PixelSkipped s n j.index st (v.runRegions n ctx f true [(j, none)] []) ∧ raised 9 s (v.runRegions n ctx f true [(j, none)] []).1 ∧
    (v.runRegions n ctx f true [(j, none)] []).1.reg .SLUICE_LAST_FAULT 0 0 = BitVec.ofNat 64 (st.toNat + 65536 * (ctx % 4096)) := by
  have run := runRegion_bad n ((like.reads_fst ..).trans good) (hdrRead_hdr start hdr) rect geom (((like.reads_snd ..).reads_fst ..).trans read)
    ((pixelAlloc start pools free).trans given) (by rw [start.put.dev]; exact bad)
  have prep := start.trans (regionBuffer_unwritten hn v f j.desc h g)
  rw [runRegions_fault run]
  generalize v.regionBuffer f j.desc h g = w at *
  have freed := release_keeps (.refl w) hd (v.ctxFn j.desc.target) (Within.mem _)
  have src := prep.src.trans (release_srcKept w hd (v.ctxFn j.desc.target) (by decide) (by decide))
  have counts := prep.counts.trans (.of_keeps hn freed)
  generalize w.release hd (v.ctxFn j.desc.target) = x at *
  have skip := skipRegion_keeps (.refl x) n f j st (Within.mem _)
  have src := src.trans (.of_keeps (by decide) skip (.of_icu (skip.icu_eq (by decide))))
  have told := (skipRegion_told x hn f j st).before counts
  generalize x.skipRegion n f j st = y at *
  exact ⟨⟨told.after (.of_keeps hn (noteFault_keeps (.refl y) ctx st (Within.mem _))), rfl⟩, src.raised (noteFault_raised y ctx st), noteFault_reg y ctx st⟩

theorem pixelBuffer (sound : rangeStatus s.dev.part hd.addr (j.desc.chans * planesOf j.desc.outFmt * j.desc.planePitch) = none) :
    (v.runRegions n ctx f true [(j, none)] []).2 = [(j.desc.target, s.regionItem f j g hd.addr (some hd) none)] ∧
    RegionDone s (s.regionOut j.desc h g (srcPlanes f.handle.addr j.desc h g) hd.addr) (v.runRegions n ctx f true [(j, none)] []).1 n j.desc g := by
  have run := runRegion_buffer n ((like.reads_fst ..).trans good) (hdrRead_hdr start hdr) rect geom (((like.reads_snd ..).reads_fst ..).trans read)
    ((pixelAlloc start pools free).trans given) (by rw [start.put.dev]; exact sound)
  have prep := start.trans (regionBuffer_unwritten hn v f j.desc h g)
  rw [runRegions_mark run]
  exact ⟨by rw [prep.item], writeRegion_done hn prep _ _ _ _ _⟩

end

end Sys2Proof.Machine
end

section
/-! SUPPORT. PIXEL_COMMAND and REGION_COMPLETE (R234, R242 to R245, R282). -/

set_option Elab.async false

namespace Sys2Proof.Machine

variable {cs : Comp → Prop} {u : State}

/-! ## What a scaler engine runs -/

theorem pxe_setPxe (s : State) (n k : Nat) (x : Option PxeRun) : (s.setPxe n x).pxe k = if k = n then x else s.pxe k := by
  unfold State.setPxe State.pxe
  cases x with
  | some p => exact SMap.find?_insert _ _ _ _
  | none => exact SMap.find?_erase _ _ _

theorem pxe_congr {s t : State} (h : t.trk.pxes = s.trk.pxes) (k : Nat) : t.pxe k = s.pxe k := by
  unfold State.pxe
  rw [h]

/-! ## The end of a pixel command's pass -/

/-- The marks of a command are put on its engine (R242). -/
def State.putMarks (s : State) (n ctx rill frame : Nat) (ms : List (Nat × Item)) : State :=
  match ms with
  | [] => s
  | (_, it) :: _ => s.setPxe n (some { ctx := ctx, rill := rill, frame := frame, region := it.region, marks := ms })

/-- What follows the regions of a pixel command. -/
def State.pixelOver (r : State × List (Nat × Item)) (n ctx rill frame : Nat) (fixed : Bool) (f : Frame) (p : ScalerProg) : State :=
  State.schedule (State.settle ((if fixed then r.1.startFlow f p r.2 else r.1).putMarks n ctx rill frame r.2))

def pixelOverChanges : List Comp := scheduleChanges ++ settleChanges ++ setPxeChanges ++ updFlowChanges

section
variable (r : State × List (Nat × Item)) (n ctx rill frame : Nat) (fixed : Bool) (f : Frame) (p : ScalerProg)

theorem startFlow_if_keeps {s : State} (h : Keeps cs u s) (ms : List (Nat × Item)) (hc : Within updFlowChanges cs) :
    Keeps cs u (if fixed then s.startFlow f p ms else s) := by
  split
  · exact startFlow_keeps h f p ms hc
  · exact h

theorem putMarks_keeps {s : State} (h : Keeps cs u s) (ms : List (Nat × Item)) (hc : Within setPxeChanges cs) :
    Keeps cs u (s.putMarks n ctx rill frame ms) := by
  unfold State.putMarks
  split
  · exact h
  · exact setPxe_keeps h _ _ hc

theorem pixelOver_keeps : Keeps (fun c => c ∈ pixelOverChanges) r.1 (State.pixelOver r n ctx rill frame fixed f p) := by
  have parts := Within.mem pixelOverChanges
  simp only [pixelOverChanges, within_append, and_assoc] at parts
  obtain ⟨sched, settled, pxes, flows⟩ := parts
  exact schedule_keeps (settle_keeps (putMarks_keeps n ctx rill frame (startFlow_if_keeps fixed f p (.refl r.1) r.2 flows) r.2 pxes) settled) sched

theorem pixelOver_pxe : (r.2 = [] → (State.pixelOver r n ctx rill frame fixed f p).pxe n = r.1.pxe n) ∧
    ∀ t it, r.2 = [(t, it)] → (State.pixelOver r n ctx rill frame fixed f p).pxe n =
      some { ctx := ctx, rill := rill, frame := frame, region := it.region, marks := [(t, it)] } := by
  have flow := startFlow_if_keeps (cs := fun c => c ∈ updFlowChanges) fixed f p (.refl r.1) r.2 (Within.mem _)
  have rest := fun v : State => ((schedule_keeps (.refl v.settle) (Within.mem _)).trk.pxes.resolve_left (by decide)).trans
    ((settle_keeps (.refl v) (Within.mem _)).trk.pxes.resolve_left (by decide))
  unfold State.pixelOver
  rw [pxe_congr (rest _)]
  refine ⟨fun none_ => ?_, fun t it one => ?_⟩
  · rw [none_] at flow ⊢
    exact pxe_congr (flow.trk.pxes.resolve_left (by decide)) n
  · rw [one]
    exact (pxe_setPxe _ _ _ _).trans (if_pos rfl)

theorem pixelOver_sources : OtherSources r.1 (State.pixelOver r n ctx rill frame fixed f p) := by
  have flow : OtherSources r.1 (if fixed then r.1.startFlow f p r.2 else r.1) :=
    .of_keeps (startFlow_if_keeps fixed f p (.refl r.1) r.2 (Within.mem _))
  have marks := OtherSources.of_keeps (putMarks_keeps n ctx rill frame (.refl (if fixed then r.1.startFlow f p r.2 else r.1)) r.2 (Within.mem _))
  exact ((flow.trans marks).trans (otherSources_settle _)).trans (.of_keeps (schedule_keeps (.refl _) (Within.mem _)))

/-- A frame whose fixed regions have been taken has started (R247). -/
theorem pixelOver_started (taken : fixed = true) {y : Flow} (found : (State.pixelOver r n ctx rill frame fixed f p).flow f.rill f.index = some y) :
    y.started = true := by
  subst taken
  have mem := List.mem_of_find?_eq_some found
  have own := List.find?_some found
  have flows : (State.pixelOver r n ctx rill frame true f p).trk.flows = (r.1.startFlow f p r.2).trk.flows.filter (fun f => !f.over) := by
    unfold State.pixelOver
    refine ((schedule_keeps (.refl _) (Within.mem _)).trk.flows.resolve_left (by decide)).trans ((settle_flows _).trans (congrArg _ ?_))
    exact (putMarks_keeps n ctx rill frame (.refl (r.1.startFlow f p r.2)) r.2 (Within.mem _)).trk.flows.resolve_left (by decide)
  rw [flows, List.mem_filter] at mem
  obtain ⟨x, -, rfl⟩ := List.mem_map.1 mem.1
  by_cases is_ : (decide (x.rill = f.rill) && decide (x.frame = f.index)) = true
  · rw [if_pos is_]
  · rw [if_neg is_] at own
    exact absurd own is_

theorem pixelOver_bytes (held : ∀ y ∈ r.1.ing.frames, y.isRef = true) :
    (State.pixelOver r n ctx rill frame fixed f p).dram.bytes = r.1.dram.bytes := by
  have flow := startFlow_if_keeps (cs := fun c => c ∈ updFlowChanges) fixed f p (.refl r.1) r.2 (Within.mem _)
  unfold State.pixelOver
  generalize (if fixed then r.1.startFlow f p r.2 else r.1) = v at *
  have marks := putMarks_keeps n ctx rill frame (.refl v) r.2 (Within.mem _)
  have frames : (v.putMarks n ctx rill frame r.2).ing.frames = r.1.ing.frames :=
    congrArg Ingest.frames ((marks.ing_eq (by decide)).trans (flow.ing_eq (by decide)))
  refine ((schedule_keeps (.refl _) (Within.mem _)).dram.bytes.resolve_left (by decide)).trans
    ((congrArg Dram.bytes (settle_held (by rw [frames]; exact held))).trans (congrArg Dram.bytes ?_))
  exact (marks.dram_eq (by decide)).trans (flow.dram_eq (by decide))

/-- Where no command runs, a decision point kills none, and the basins stay as they are. -/
theorem pixelOver_basins (idle : ∀ c, r.1.cmdRun c = none) : (State.pixelOver r n ctx rill frame fixed f p).slu.basins = r.1.slu.basins := by
  have flow := startFlow_if_keeps (cs := fun c => c ∈ updFlowChanges) fixed f p (.refl r.1) r.2 (Within.mem _)
  have marks := putMarks_keeps n ctx rill frame (.refl (if fixed then r.1.startFlow f p r.2 else r.1)) r.2 (Within.mem _)
  have sched : Sched r.1 (State.pixelOver r n ctx rill frame fixed f p) :=
    ((Sched.of_keeps flow).trans (.of_keeps marks)).trans ((settle_sched _).trans (schedule_sched _))
  exact sched.mem idle

end

/-! ## PIXEL_COMMAND, case by case -/

/-- The frame that a pixel command names. -/
def State.pixelFrame (s : State) (rill frame : Nat) : Frame := (s.frame rill frame).getD (lostFrame rill frame)

theorem pixelFrame_named (s : State) (rill frame : Nat) : (s.pixelFrame rill frame).rill = rill ∧ (s.pixelFrame rill frame).index = frame := by
  unfold State.pixelFrame
  cases found : s.frame rill frame with
  | none => exact ⟨rfl, rfl⟩
  | some f =>
    have own := List.find?_some found
    rwa [Bool.and_eq_true, decide_eq_true_eq, decide_eq_true_eq] at own

/-- Whether a pixel command takes a frame's fixed regions. -/
def State.takesFixed (s : State) (ctx rill frame : Nat) : Bool :=
  (match s.flow rill frame with
    | some x => !x.started
    | none => false) && (match s.classOf rill with
    | some k => k.firstCtx = ctx
    | none => false)

theorem takesFixed_any (s : State) (ctx rill frame : Nat) : s.takesFixed ctx rill frame =
    ((s.flow rill frame).any (fun x => !x.started) && (s.classOf rill).any (fun k => decide (k.firstCtx = ctx))) := by
  unfold State.takesFixed
  cases s.flow rill frame <;> cases s.classOf rill <;> rfl

/-- The fixed regions that a pixel command takes. -/
def State.pixelRois (s : State) (ctx rill frame : Nat) (p : ScalerProg) : List RegionJob := if s.takesFixed ctx rill frame then roiJobs p else []

theorem indexed_length {α : Type} (xs : List α) : (indexed xs).length = xs.length := by
  unfold indexed
  simp

theorem pixelRois_length (s : State) (ctx rill frame : Nat) (p : ScalerProg) :
    (s.pixelRois ctx rill frame p).length = if s.takesFixed ctx rill frame = true then p.rois.length else 0 := by
  unfold State.pixelRois roiJobs
  split
  · rw [List.length_map, indexed_length]
  · rfl

/-- What a pixel command takes: the fixed regions, and the crops requested of its frame. -/
def State.pixelCrops (s : State) (ctx rill frame : Nat) (p : ScalerProg) : List CropReq × List CropReq :=
  takeCrops ctx rill frame (64 - (s.pixelRois ctx rill frame p).length) s.trk.crops

def State.pixelJobs (s : State) (ctx rill frame : Nat) (p : ScalerProg) : List RegionJob :=
  s.pixelRois ctx rill frame p ++ (s.pixelCrops ctx rill frame p).1.filterMap (cropJob p)

/-- Whether a scaler engine takes a pixel command now (R70, R234, R282). -/
def State.mayPixel (s : State) (n ctx rill frame : Nat) : Prop :=
  pxePresent s.dev.part n = true ∧ s.domainLive .pixel = true ∧ s.nextPxe = some n ∧ s.ctxKind ctx = some 1 ∧ s.weir.coolant = .none ∧
    s.swapHolds ctx (s.pixelFrame rill frame).captureTs = false ∧
    (s.takesFixed ctx rill frame = true ∨ ∃ c ∈ s.trk.crops, c.pixelCtx = ctx ∧ c.rill = rill ∧ c.frame = frame)

theorem takeCrops_some {ctx rill frame n : Nat} (pos : n ≠ 0) (cs : List CropReq) :
    (takeCrops ctx rill frame n cs).1 ≠ [] ↔ ∃ c ∈ cs, c.pixelCtx = ctx ∧ c.rill = rill ∧ c.frame = frame := by
  obtain ⟨k, rfl⟩ := Nat.exists_eq_succ_of_ne_zero pos
  induction cs with
  | nil => simp [takeCrops]
  | cons c cs ih =>
    unfold takeCrops
    split
    · next own => exact ⟨fun _ => ⟨c, List.mem_cons_self .., own⟩, fun _ => by simp⟩
    · next other =>
      rw [List.exists_mem_cons_iff, or_iff_right other]
      exact ih

end Sys2Proof.Machine
end

section
/-! SUPPORT. PIXEL_COMMAND and REGION_COMPLETE, command by command (R234, R242 to R245, R282). -/

set_option Elab.async false

namespace Sys2Proof.Machine

variable {cs : Comp → Prop} {u : State}

/-- What execPixelCommand tests before it takes slots. -/
def State.pixelTest (s : State) (n ctx rill frame : Nat) (p : ScalerProg) : Bool :=
  pxePresent s.dev.part n && s.domainLive .pixel && s.nextPxe == some n && s.ctxKind ctx == some 1 && !s.coolantHeld &&
    !s.swapHolds ctx (s.pixelFrame rill frame).captureTs && (s.takesFixed ctx rill frame || (s.pixelCrops ctx rill frame p).1 != [])

theorem pixelTest_iff (s : State) (n ctx rill frame : Nat) (p : ScalerProg) : s.pixelTest n ctx rill frame p = true ↔ s.mayPixel n ctx rill frame := by
  have crops : s.takesFixed ctx rill frame = false →
      ((s.pixelCrops ctx rill frame p).1 ≠ [] ↔ ∃ c ∈ s.trk.crops, c.pixelCtx = ctx ∧ c.rill = rill ∧ c.frame = frame) := by
    intro no
    unfold State.pixelCrops
    rw [pixelRois_length, no]
    exact takeCrops_some (Nat.succ_ne_zero 63) _
  unfold State.pixelTest State.mayPixel State.coolantHeld
  cases fixed : s.takesFixed ctx rill frame with
  | true => simp [and_assoc]
  | false => simp [and_assoc, ← crops fixed]

/-- The work of a pixel command that is taken. -/
def State.pixelRun (s : State) (n ctx rill frame : Nat) (p : ScalerProg) (zs : List (RegionJob × Option (Nat × Nat))) : State :=
  State.pixelOver ((s.pixelStart n ctx rill (s.pixelCrops ctx rill frame p).2 zs).runRegions n ctx (s.pixelFrame rill frame)
    (s.frame rill frame).isSome zs []) n ctx rill frame (s.takesFixed ctx rill frame) (s.pixelFrame rill frame) p

/-- A pixel command that is taken waits while a slot lacks, or while what it touches cannot be reached (R242, R335). -/
def State.pixelTaken (s : State) (n ctx rill frame : Nat) (p : ScalerProg) : State :=
  match s.takeSlots (s.pixelJobs ctx rill frame p) [] with
  | none => s
  | some slots => s.when (s.pixelReach (s.pixelFrame rill frame) ((s.pixelJobs ctx rill frame p).zip slots)) fun s =>
      s.pixelRun n ctx rill frame p ((s.pixelJobs ctx rill frame p).zip slots)

section
variable {s : State} {ctx rill frame : Nat} (n : Nat)

theorem exec_pixelCommand_none (unknown : s.program ctx (s.oldFor ctx (s.pixelFrame rill frame).captureTs (s.pixelFrame rill frame).stamp) = none) :
    exec (.pixelCommand n ctx rill frame) s = .next s := by
  unfold State.pixelFrame at unknown
  change execPixelCommand n ctx rill frame s = _
  unfold execPixelCommand
  simp only [unknown]

variable {p : ScalerProg} (known : s.program ctx (s.oldFor ctx (s.pixelFrame rill frame).captureTs (s.pixelFrame rill frame).stamp) = some p)
include known

theorem exec_pixelCommand_some : exec (.pixelCommand n ctx rill frame) s =
    .next (s.when (s.pixelTest n ctx rill frame p) fun s => s.pixelTaken n ctx rill frame p) := by
  unfold State.pixelFrame at known
  change execPixelCommand n ctx rill frame s = _
  unfold execPixelCommand
  dsimp only
  rw [known]
  rfl

end

section
variable {s : State} {ctx rill frame n : Nat} {p : ScalerProg}

theorem pixelTaken_none (lacks : s.takeSlots (s.pixelJobs ctx rill frame p) [] = none) : s.pixelTaken n ctx rill frame p = s := by
  unfold State.pixelTaken
  rw [lacks]

variable {slots : List (Option (Nat × Nat))} (takes : s.takeSlots (s.pixelJobs ctx rill frame p) [] = some slots)
include takes

theorem pixelTaken_far (far : s.pixelReach (s.pixelFrame rill frame) ((s.pixelJobs ctx rill frame p).zip slots) = false) :
    s.pixelTaken n ctx rill frame p = s := by
  unfold State.pixelTaken
  rw [takes]
  exact when_neg s (by rw [far]; decide) _

theorem pixelTaken_run (near : s.pixelReach (s.pixelFrame rill frame) ((s.pixelJobs ctx rill frame p).zip slots) = true) :
    s.pixelTaken n ctx rill frame p = s.pixelRun n ctx rill frame p ((s.pixelJobs ctx rill frame p).zip slots) := by
  unfold State.pixelTaken
  rw [takes]
  exact when_eq s near _

end

end Sys2Proof.Machine
end

section
/-! SUPPORT. What pixel commands and ready marks leave (R16, R242 to R245). -/

set_option Elab.async false

namespace Sys2Proof.Machine

variable {cs : Comp → Prop} {u : State}

theorem nextPxe_idle {s : State} {n : Nat} (next : s.nextPxe = some n) : n < 4 ∧ s.pxe n = none := by
  have mem := List.mem_of_find?_eq_some next
  have own := List.find?_some next
  rw [Bool.and_eq_true, Option.isNone_iff_eq_none] at own
  obtain ⟨k, -, rfl⟩ := List.mem_map.1 mem
  exact ⟨Nat.mod_lt _ (by decide), own.2⟩

section
variable {s : State} {n ctx rill frame : Nat} {p : ScalerProg} {zs : List (RegionJob × Option (Nat × Nat))}

/-- The state and the marks that the regions of a pixel command leave. -/
def State.pixelRegions (s : State) (n ctx rill frame : Nat) (p : ScalerProg) (zs : List (RegionJob × Option (Nat × Nat))) :
    State × List (Nat × Item) :=
  (s.pixelStart n ctx rill (s.pixelCrops ctx rill frame p).2 zs).runRegions n ctx (s.pixelFrame rill frame) (s.frame rill frame).isSome zs []

theorem pixelRun_eq : s.pixelRun n ctx rill frame p zs = State.pixelOver (s.pixelRegions n ctx rill frame p zs) n ctx rill frame
    (s.takesFixed ctx rill frame) (s.pixelFrame rill frame) p := rfl

theorem pixelRegions_keeps : Keeps (fun c => c ∈ runRegionsChanges) (s.pixelStart n ctx rill (s.pixelCrops ctx rill frame p).2 zs)
    (s.pixelRegions n ctx rill frame p zs).1 := runRegions_keeps (.refl _) _ _ _ _ _ _ (Within.mem _)

theorem pixelStart_trk (rest : List CropReq) : (s.pixelStart n ctx rill rest zs).trk = { s.trk with crops := rest, lastPxe := n } := by
  have set : (State.setReg { s with trk := { s.trk with crops := rest, lastPxe := n } } .PXE_CMD n 0 (BitVec.ofNat 64 (ctx + 4096 * rill))).trk =
      { s.trk with crops := rest, lastPxe := n } := by simp
  unfold State.pixelStart
  exact ((fixClusters_keeps (.refl _) zs (Within.mem _)).trk_eq (by decide)).trans set

theorem pixelRun_start (hn : n < 4) : (s.pixelRun n ctx rill frame p zs).trk.lastPxe = n ∧
    (s.pixelRun n ctx rill frame p zs).trk.crops = (s.pixelCrops ctx rill frame p).2 ∧
    (s.pixelRun n ctx rill frame p zs).reg .PXE_CMD n 0 = BitVec.ofNat 64 (ctx + 4096 * rill) := by
  have trk := pixelStart_trk (s := s) (n := n) (ctx := ctx) (rill := rill) (zs := zs) (s.pixelCrops ctx rill frame p).2
  have cmd := pixelStart_cmd hn s ctx rill (s.pixelCrops ctx rill frame p).2 zs
  have run := pixelRegions_keeps (s := s) (n := n) (ctx := ctx) (rill := rill) (frame := frame) (p := p) (zs := zs)
  have after := pixelOver_keeps (s.pixelRegions n ctx rill frame p zs) n ctx rill frame (s.takesFixed ctx rill frame) (s.pixelFrame rill frame) p
  rw [pixelRun_eq]
  refine ⟨?_, ?_, ?_⟩
  · exact (after.trk.lastPxe.resolve_left (by decide)).trans ((run.trk.lastPxe.resolve_left (by decide)).trans (congrArg TrackEng.lastPxe trk))
  · exact (after.trk.crops.resolve_left (by decide)).trans ((run.trk.crops.resolve_left (by decide)).trans (congrArg TrackEng.crops trk))
  · rw [after.reg_eq (by decide) (by decide) (regOk_pxe hn).1, run.reg_eq (by decide) (by decide) (regOk_pxe hn).1, cmd]

theorem pixelRun_started (taken : s.takesFixed ctx rill frame = true) {y : Flow}
    (found : (s.pixelRun n ctx rill frame p zs).flow rill frame = some y) : y.started = true := by
  obtain ⟨own, index⟩ := pixelFrame_named s rill frame
  refine pixelOver_started (s.pixelRegions n ctx rill frame p zs) n ctx rill frame (s.takesFixed ctx rill frame) (s.pixelFrame rill frame) p taken ?_
  rwa [own, index]

theorem pixelRun_skipped (hn : n < 4) (idle : s.pxe n = none) {i : Nat} {st : W16}
    (skip : PixelSkipped s n i st (s.pixelRegions n ctx rill frame p zs)) :
    (s.pixelRun n ctx rill frame p zs).pxe n = none ∧ SkipTold s (s.pixelRun n ctx rill frame p zs) n i st := by
  obtain ⟨told, marks⟩ := skip
  have run := pixelRegions_keeps (s := s) (n := n) (ctx := ctx) (rill := rill) (frame := frame) (p := p) (zs := zs)
  have start : (s.pixelStart n ctx rill (s.pixelCrops ctx rill frame p).2 zs).pxe n = s.pxe n :=
    pxe_congr (by rw [pixelStart_trk]) n
  rw [pixelRun_eq]
  have after := pixelOver_keeps (s.pixelRegions n ctx rill frame p zs) n ctx rill frame (s.takesFixed ctx rill frame) (s.pixelFrame rill frame) p
  exact ⟨((pixelOver_pxe _ _ _ _ _ _ _ _).1 marks).trans ((pxe_congr (run.trk.pxes.resolve_left (by decide)) n).trans (start.trans idle)),
    told.after (.of_keeps hn after)⟩

theorem pixelRun_fault {w : Nat} (told : raised 9 s (s.pixelRegions n ctx rill frame p zs).1)
    (last : (s.pixelRegions n ctx rill frame p zs).1.reg .SLUICE_LAST_FAULT 0 0 = BitVec.ofNat 64 w) :
    raised 9 s (s.pixelRun n ctx rill frame p zs) ∧ (s.pixelRun n ctx rill frame p zs).reg .SLUICE_LAST_FAULT 0 0 = BitVec.ofNat 64 w := by
  have after := pixelOver_keeps (s.pixelRegions n ctx rill frame p zs) n ctx rill frame (s.takesFixed ctx rill frame) (s.pixelFrame rill frame) p
  rw [pixelRun_eq]
  exact ⟨raised_later told (pixelOver_sources _ _ _ _ _ _ _ _) (by decide), (after.reg_eq (by decide) (by decide) regOk_lastFault).trans last⟩

theorem pixelRun_done (hn : n < 4) {target : Nat} {it : Item} {out : State} {d : RegionDesc} {g : Geom}
    (marks : (s.pixelRegions n ctx rill frame p zs).2 = [(target, it)]) (done : RegionDone s out (s.pixelRegions n ctx rill frame p zs).1 n d g) :
    let t := s.pixelRun n ctx rill frame p zs
    t.pxe n = some (PxeRun.mk ctx rill frame it.region [(target, it)]) ∧
    t.reg .PXE_CNT_REGIONS n 0 = s.reg .PXE_CNT_REGIONS n 0 + 1 ∧
    t.reg .PXE_CNT_READ n 0 = s.reg .PXE_CNT_READ n 0 + BitVec.ofNat 64 (g.sw * g.sh) ∧
    t.reg .PXE_CNT_WRITTEN n 0 = s.reg .PXE_CNT_WRITTEN n 0 + BitVec.ofNat 64 (d.outW * d.outH) ∧
    t.reg .PXE_CNT_BUSY n 0 = s.reg .PXE_CNT_BUSY n 0 + BitVec.ofNat 64 (regionCycles d g) ∧
    ((∀ y ∈ s.ing.frames, y.isRef = true) → t.dram.bytes = out.dram.bytes) ∧ (s.slu.cmds = [] → t.slu.basins = out.slu.basins) := by
  obtain ⟨regions, read, written, busy, bytes, basins⟩ := done
  have start := pixelStart_keeps s n ctx rill (s.pixelCrops ctx rill frame p).2 zs
  have run := pixelRegions_keeps (s := s) (n := n) (ctx := ctx) (rill := rill) (frame := frame) (p := p) (zs := zs)
  have after := pixelOver_keeps (s.pixelRegions n ctx rill frame p zs) n ctx rill frame (s.takesFixed ctx rill frame) (s.pixelFrame rill frame) p
  have counts := SameCounts.of_keeps hn after
  have frames : (s.pixelRegions n ctx rill frame p zs).1.ing.frames = s.ing.frames :=
    congrArg Ingest.frames ((run.ing_eq (by decide)).trans (start.ing_eq (by decide)))
  have cmds : (s.pixelRegions n ctx rill frame p zs).1.slu.cmds = s.slu.cmds :=
    (run.slu.cmds.resolve_left (by decide)).trans (start.slu.cmds.resolve_left (by decide))
  rw [pixelRun_eq]
  dsimp only
  refine ⟨(pixelOver_pxe _ _ _ _ _ _ _ _).2 _ _ marks, (counts _ (by decide)).trans regions, (counts _ (by decide)).trans read,
    (counts _ (by decide)).trans written, (counts _ (by decide)).trans busy, fun held => ?_, fun quiet => ?_⟩
  · exact (pixelOver_bytes _ _ _ _ _ _ _ _ (by rw [frames]; exact held)).trans bytes
  · refine (pixelOver_basins _ _ _ _ _ _ _ _ fun c => ?_).trans basins
    unfold State.cmdRun
    rw [cmds, quiet]
    rfl

end

/-! ## REGION_COMPLETE -/

/-- The marks that an engine has left after one (R242). -/
def PxeRun.rest (p : PxeRun) (ms : List (Nat × Item)) : Option PxeRun :=
  match ms with
  | [] => none
  | m :: _ => some { p with region := m.2.region, marks := ms }

theorem exec_regionComplete_none {s : State} {n : Nat} (h : s.pxe n = none ∨ s.weir.coolant ≠ .none) : exec (.regionComplete n) s = .next s := by
  change execRegionComplete n s = _
  unfold execRegionComplete
  split
  · rfl
  · next found =>
    refine congrArg _ (when_neg s ?_ _)
    unfold State.coolantHeld
    simpa using h.resolve_left (by rw [found]; simp)

section
variable {s : State} {n : Nat} {p : PxeRun} (found : s.pxe n = some p) (cool : s.weir.coolant = .none)
include found cool

theorem exec_regionComplete_last (none_ : p.marks = []) : exec (.regionComplete n) s = .next (s.setPxe n none) := by
  change execRegionComplete n s = _
  unfold execRegionComplete
  simp only [found]
  rw [when_eq s (by unfold State.coolantHeld; rw [cool]; decide)]
  simp only [none_]

theorem exec_regionComplete_mark {target : Nat} {it : Item} {ms : List (Nat × Item)} (marks : p.marks = (target, it) :: ms) :
    exec (.regionComplete n) s = .next (State.schedule (State.settle ((s.enqueue target it).setPxe n (p.rest ms)))) := by
  change execRegionComplete n s = _
  unfold execRegionComplete
  simp only [found]
  rw [when_eq s (by unfold State.coolantHeld; rw [cool]; decide)]
  simp only [marks]
  unfold PxeRun.rest
  cases ms <;> rfl

end

/-- A mark's item enters its target's queue (R242). -/
theorem mark_entered (s : State) (n target : Nat) (it : Item) (x : Option PxeRun) :
    ((State.schedule (State.settle ((s.enqueue target it).setPxe n x))).ctxRun target).queue = (s.ctxRun target).queue ++ [it] ∧
    (State.schedule (State.settle ((s.enqueue target it).setPxe n x))).pxe n = x := by
  have own : (((s.enqueue target it).setPxe n x).ctxRun target).queue = (s.ctxRun target).queue ++ [it] := by
    have same : ((s.enqueue target it).setPxe n x).ctxRun target = (s.enqueue target it).ctxRun target := rfl
    rw [same]
    unfold State.enqueue
    rw [ctxRun_updCtxRun, if_pos rfl]
  have set : ((s.enqueue target it).setPxe n x).pxe n = x := (pxe_setPxe _ _ _ _).trans (if_pos rfl)
  generalize (s.enqueue target it).setPxe n x = v at *
  have queue : ∀ {a b : CtxRun}, a.sameWork b → b.queue = a.queue := fun h => by rw [h]
  have sched := (settle_sched v).trans (schedule_sched _)
  refine ⟨(queue (sched.ctx target)).trans own, ?_⟩
  refine (pxe_congr ?_ n).trans set
  exact ((schedule_keeps (.refl v.settle) (Within.mem _)).trk.pxes.resolve_left (by decide)).trans
    ((settle_keeps (.refl v) (Within.mem _)).trk.pxes.resolve_left (by decide))

/-- What a skipped region leaves, one after the other. -/
theorem skipConj {s t : State} {n i : Nat} {st : W16} (h : t.pxe n = none ∧ SkipTold s t n i st) : t.pxe n = none ∧
    t.reg .PXE_LAST_SKIP n 0 = BitVec.ofNat 64 (st.toNat + 65536 * (i % 64)) ∧
    t.reg .PXE_CNT_REGIONS n 0 = s.reg .PXE_CNT_REGIONS n 0 ∧ t.reg .PXE_CNT_BUSY n 0 = s.reg .PXE_CNT_BUSY n 0 + 200 ∧
    t.reg .PXE_CNT_SKIP_NOBUF n 0 = (if st = Status.outputPoolEmpty then counted (s.reg .PXE_CNT_SKIP_NOBUF n 0)
      else s.reg .PXE_CNT_SKIP_NOBUF n 0) ∧
    t.reg .PXE_CNT_SKIP_OTHER n 0 = if st = Status.notCached ∨ st = Status.cropEmpty ∨ st = Status.windowTooLarge then
      counted (s.reg .PXE_CNT_SKIP_OTHER n 0) else s.reg .PXE_CNT_SKIP_OTHER n 0 :=
  ⟨h.1, h.2.last, h.2.regions, h.2.busy, h.2.nobuf, h.2.other⟩

/-! ## O52 -/

/-- Settles O52: the reads, the allocation and the writes of a region see what they would see in the state before the command
(`Unwritten`), and what follows them changes neither counts, engine nor, where all frames are references, DRAM. -/
theorem pixelCommandsAndReadyMarks : Obligations.PixelCommandsAndReadyMarks := by
  unfold Obligations.PixelCommandsAndReadyMarks
  refine ⟨fun n ctx rill frame s => ?_, fun n s => ?_⟩
  · have k := execPixelCommand_keeps (.refl s) n ctx rill frame (Within.mem _)
    change KeepsOut _ s (exec (.pixelCommand n ctx rill frame) s) at k
    obtain ⟨t, ran⟩ : ∃ t, exec (.pixelCommand n ctx rill frame) s = .next t := ⟨_, rfl⟩
    have is_ : ∀ {v}, exec (.pixelCommand n ctx rill frame) s = .next v → t = v := fun h => Host.Outcome.next.inj (ran.symm.trans h)
    rw [ran] at k
    refine completes_of ran k (by decide +kernel) ?_
    dsimp only
    simp only [← takesFixed_any, ← pixelRois_length]
    refine ⟨fun unknown => is_ (exec_pixelCommand_none n unknown), fun no => ?_, fun p known may => ?_⟩
    · cases known : s.program ctx (s.oldFor ctx (s.pixelFrame rill frame).captureTs (s.pixelFrame rill frame).stamp) with
      | none => exact is_ (exec_pixelCommand_none n known)
      | some p => exact is_ ((exec_pixelCommand_some n known).trans (congrArg _ (when_neg s (mt (pixelTest_iff ..).1 no) _)))
    have may : s.mayPixel n ctx rill frame := may
    have taken := is_ ((exec_pixelCommand_some n known).trans (congrArg _ (when_eq s ((pixelTest_iff ..).2 may) _)))
    obtain ⟨hn, idle⟩ := nextPxe_idle may.2.2.1
    refine ⟨fun lacks => taken.trans (pixelTaken_none lacks), fun slots takes => ⟨fun far => taken.trans (pixelTaken_far takes far), fun near => ?_⟩⟩
    have eq := taken.trans (pixelTaken_run takes near)
    subst eq
    obtain ⟨last, crops, cmd⟩ := pixelRun_start (s := s) (ctx := ctx) (rill := rill) (frame := frame) (p := p)
      (zs := (s.pixelJobs ctx rill frame p).zip slots) hn
    refine ⟨last, crops, cmd, fun fixed y found => pixelRun_started fixed found, fun j slot only => ?_⟩
    have only : (s.pixelJobs ctx rill frame p).zip slots = [(j, slot)] := only
    rw [only]
    have skipped := fun st => pixelRun_skipped (s := s) (ctx := ctx) (rill := rill) (frame := frame) (p := p) (zs := [(j, slot)]) (i := j.index) (st := st) hn idle
    have start := pixelStart_unwritten hn s ctx rill (s.pixelCrops ctx rill frame p).2 [(j, slot)]
    have kept := pixelStart_keeps s n ctx rill (s.pixelCrops ctx rill frame p).2 [(j, slot)]
    have like := ReadLike.of_keeps kept
    have pools := kept.pools_eq (by decide)
    have free := kept.freeIdx_eq (by decide)
    refine ⟨fun lost => ?_, fun held => ?_⟩
    · refine skipConj (skipped _ ?_)
      unfold State.pixelRegions
      rw [lost]
      exact pixelLost hn start ctx
    have found : (s.frame rill frame).isSome = true := Option.isSome_iff_ne_none.2 held
    have regions : s.pixelRegions n ctx rill frame p [(j, slot)] =
        (s.pixelStart n ctx rill (s.pixelCrops ctx rill frame p).2 [(j, slot)]).runRegions n ctx (s.pixelFrame rill frame) true [(j, slot)] [] := by
      unfold State.pixelRegions
      rw [found]
    refine ⟨fun st bad => skipConj (skipped _ ?_), fun st good bad => skipConj (skipped _ ?_), fun r good rect =>
      ⟨fun st bad => skipConj (skipped _ ?_), fun read own fails => skipConj (skipped _ ?_), fun hd st read own given bad => ?_,
        fun a b read way => ?_⟩⟩
    · rw [regions]
      exact pixelHdr hn start ctx like bad
    · rw [regions]
      exact pixelRect hn start ctx like good rfl bad
    · rw [regions]
      exact pixelSamples hn start ctx like good rfl rect rfl bad
    · subst own
      rw [regions]
      exact pixelNobuffer hn start ctx like good rfl rect rfl read pools free fails
    · subst own
      obtain ⟨skip, told, fault⟩ := pixelBad (f := s.pixelFrame rill frame) hn start ctx like good rfl rect rfl read pools free given bad
      rw [← regions] at skip told fault
      exact ⟨skipConj (skipped _ skip), pixelRun_fault told fault⟩
    · rcases way with ⟨own, given, at_, sound⟩ | ⟨at_, none_⟩
      · subst own
        cases b with
        | none => cases at_
        | some hd =>
          cases at_
          obtain ⟨marks, done⟩ := pixelBuffer (f := s.pixelFrame rill frame) hn start ctx like good rfl rect rfl read pools free given sound
          rw [← regions] at marks done
          exact pixelRun_done hn marks done
      · subst none_
        cases slot with
        | none => cases at_
        | some x =>
          obtain ⟨c, b⟩ := x
          cases at_
          obtain ⟨marks, done⟩ := pixelSlot (f := s.pixelFrame rill frame) hn start ctx like good rfl rect rfl read c b
          rw [← regions] at marks done
          exact pixelRun_done hn marks done
  · have k := execRegionComplete_keeps (.refl s) n (Within.mem _)
    change KeepsOut _ s (exec (.regionComplete n) s) at k
    obtain ⟨t, ran⟩ : ∃ t, exec (.regionComplete n) s = .next t := ⟨_, rfl⟩
    have is_ : ∀ {v}, exec (.regionComplete n) s = .next v → t = v := fun h => Host.Outcome.next.inj (ran.symm.trans h)
    rw [ran] at k
    refine completes_of ran k (by decide +kernel) ⟨fun why => is_ (exec_regionComplete_none why), fun p found cool => ⟨fun none_ => ?_, fun target it ms marks => ?_⟩⟩
    · rw [is_ (exec_regionComplete_last found cool none_)]
      exact ⟨(setPxe_keeps (.refl s) n none (Within.mem _)).changesOnly, (pxe_setPxe _ _ _ _).trans (if_pos rfl)⟩
    · rw [is_ (exec_regionComplete_mark found cool marks)]
      exact mark_entered s n target it (p.rest ms)

end Sys2Proof.Machine
end

section
/-! SUPPORT. What settling rests on (R222, R342): states that release the same buffers, and find the same frames ready. -/

set_option Elab.async false

namespace Sys2Proof.Machine

/-! ## What a release rests on -/

theorem putPieces_recals {P : Nat → Option (Nat × SMap W32) → Prop} {u s : State} (h : Recals P u s) (port : Nat) (ps : List (Nat × List Byte)) :
    Recals P u (s.putPieces port ps) := by
  induction ps generalizing s with
  | nil => exact h
  | cons p ps ih => exact ih (putBlock_recals h port p.1 p.2)

theorem putEntries_recals {P : Nat → Option (Nat × SMap W32) → Prop} {u s : State} (h : Recals P u s) (p : Pool) (i : Nat) (hs : List Handle) :
    Recals P u (s.putEntries p i hs) := putPieces_recals (putPieces_recals h _ _) _ _

/-- States in which the same buffers are released. -/
structure PoolLike (s v : State) : Prop where
  put : PutLike s v
  pools : v.pools = s.pools
  frameMap : v.dram.frameMap = s.dram.frameMap
  recal : ∀ d, (v.dmc d).recal = (s.dmc d).recal
  weir : v.weir = s.weir

theorem PoolLike.symm {s v : State} (h : PoolLike s v) : PoolLike v s :=
  ⟨h.put.symm, h.pools.symm, h.frameMap.symm, fun d => (h.recal d).symm, h.weir.symm⟩

theorem PoolLike.trans {s v w : State} (h : PoolLike s v) (g : PoolLike v w) : PoolLike s w :=
  ⟨h.put.trans g.put, g.pools.trans h.pools, g.frameMap.trans h.frameMap, fun d => (g.recal d).trans (h.recal d), g.weir.trans h.weir⟩

/-- What else changes in two such states does not matter. -/
theorem PoolLike.beside {s v s' v' : State} (h : PoolLike s v) (dev : s'.dev = s.dev ∧ v'.dev = v.dev := by exact ⟨rfl, rfl⟩)
    (dram : s'.dram = s.dram ∧ v'.dram = v.dram := by exact ⟨rfl, rfl⟩) (pools : s'.pools = s.pools ∧ v'.pools = v.pools := by exact ⟨rfl, rfl⟩)
    (basins : s'.slu.basins = s.slu.basins ∧ v'.slu.basins = v.slu.basins := by exact ⟨rfl, rfl⟩)
    (weir : s'.weir = s.weir ∧ v'.weir = v.weir := by exact ⟨rfl, rfl⟩) : PoolLike s' v' := by
  have same {w w' : State} (dram : w'.dram = w.dram) (d : Nat) : (w'.dmc d).recal = (w.dmc d).recal :=
    congrArg Dmc.recal (dmc_congr (congrArg Dram.dmcs dram) d)
  refine ⟨⟨?_, ?_, ?_, ?_⟩, ?_, ?_, fun d => ?_, ?_⟩
  · rw [dev.1, dev.2, h.put.dev]
  · rw [dram.1, dram.2, h.put.bytes]
  · rw [dram.1, dram.2, h.put.poison]
  · rw [basins.1, basins.2, h.put.basins]
  · rw [pools.1, pools.2, h.pools]
  · rw [dram.1, dram.2, h.frameMap]
  · rw [same dram.1, same dram.2, h.recal]
  · rw [weir.1, weir.2, h.weir]

theorem PoolLike.of_keeps {cs : List Comp} {s v : State} (k : Keeps (fun c => c ∈ cs) s v) (dev : ∀ c ∈ Comp.allDev, c ∉ cs := by decide)
    (bytes : .dramBytes ∉ cs := by decide) (poison : .dramPoison ∉ cs := by decide) (basins : .sluBasins ∉ cs := by decide)
    (pools : .pools ∉ cs := by decide) (frames : .dramFrameMap ∉ cs := by decide) (dmcs : .dramDmcs ∉ cs := by decide)
    (weir : ∀ c ∈ Comp.allWeir, c ∉ cs := by decide) : PoolLike s v :=
  ⟨.of_keeps k dev bytes poison basins, k.pools_eq pools, k.dram.frameMap.resolve_left frames,
    fun d => congrArg Dmc.recal (dmc_congr (k.dram.dmcs.resolve_left dmcs) d), k.weir_eq weir⟩

section
variable {s v : State} (h : PoolLike s v)
include h

theorem PoolLike.canReach (a n : Nat) : v.canReach a n = s.canReach a n := by
  have free : ∀ b k, v.blocksFree b k = s.blocksFree b k := by
    intro b k
    induction k generalizing b with
    | zero => rfl
    | succ k ih =>
      unfold State.blocksFree State.groupBusy
      rw [ih, blockLoc_congr h.frameMap (congrArg Dev.part h.put.dev), h.recal]
  unfold State.canReach State.dramOpen State.noRecal
  simp only [free, domainLive_congr (congrArg Weir.live h.weir), clockStopped_congr (congrArg Weir.cls h.weir), h.recal, h.put.dev]

theorem PoolLike.setPool (p : Pool) : PoolLike (s.setPool p) (v.setPool p) :=
  ⟨⟨h.put.dev, h.put.bytes, h.put.poison, h.put.basins⟩, congrArg (List.map _) h.pools, h.frameMap, h.recal, h.weir⟩

theorem PoolLike.putEntries (p : Pool) (i : Nat) (hs : List Handle) : PoolLike (s.putEntries p i hs) (v.putEntries p i hs) := by
  have own (w : State) : (w.putEntries p i hs).pools = w.pools ∧ (w.putEntries p i hs).dram.frameMap = w.dram.frameMap ∧
      (w.putEntries p i hs).weir = w.weir ∧ ∀ d, ((w.putEntries p i hs).dmc d).recal = (w.dmc d).recal := by
    have k := putEntries_keeps (.refl w) p i hs (Within.mem _)
    exact ⟨k.pools_eq (by decide), k.dram.frameMap.resolve_left (by decide), k.weir_eq (by decide),
      fun d => ((putEntries_recals (P := fun _ _ => False) (.refl w) p i hs).all d).resolve_right id⟩
  obtain ⟨poolsS, frameS, weirS, recalS⟩ := own s
  obtain ⟨poolsV, frameV, weirV, recalV⟩ := own v
  refine ⟨(h.put.putPieces _ _).putPieces _ _, poolsV.trans (h.pools.trans poolsS.symm), frameV.trans (h.frameMap.trans frameS.symm),
    fun d => (recalV d).trans ((h.recal d).trans (recalS d).symm), weirV.trans (h.weir.trans weirS.symm)⟩

theorem PoolLike.flush (p : Pool) : PoolLike (s.flush p) (v.flush p) := (h.putEntries _ _ _).setPool _

theorem PoolLike.ringReach (p : Pool) : v.ringReach p = s.ringReach p := h.canReach _ _

theorem PoolLike.release (x : Handle) (fn : Nat) : PoolLike (s.release x fn) (v.release x fn) := by
  have own (w : State) (st : W16) : PoolLike w (w.discardRelease st fn) := .of_keeps (discardRelease_keeps (.refl w) st fn (Within.mem _))
  have discards (st : W16) : PoolLike (s.discardRelease st fn) (v.discardRelease st fn) := ((own s st).symm.trans h).trans (own v st)
  unfold State.release
  rw [pool_congr h.pools]
  cases s.pool x.pool with
  | none => exact discards _
  | some p =>
    dsimp only
    split
    · exact discards _
    split
    · exact discards _
    rw [h.ringReach]
    have flushed : PoolLike (if (64 ≤ p.cache.length && s.ringReach p) = true then s.flush p else s)
        (if (64 ≤ p.cache.length && s.ringReach p) = true then v.flush p else v) := by
      split
      · exact h.flush p
      · exact h
    generalize @ite State (_ = true) (instDecidableEqBool _ true) (s.flush p) s = s1 at *
    generalize @ite State (_ = true) (instDecidableEqBool _ true) (v.flush p) v = v1 at *
    rw [pool_congr flushed.pools]
    cases s1.pool x.pool with
    | none => exact flushed
    | some q =>
      have counts (w : State) : PoolLike w (w.addTo .CISTERN_CNT_FREE 0 1) :=
        .of_keeps (cs := [.reg .CISTERN_CNT_FREE]) (addTo_keeps (.refl w) _ _ _ (.inr (by decide)))
      exact ((counts _).symm.trans (flushed.setPool _)).trans (counts _)

end

/-- States whose settling releases the same frames. -/
structure SettleLike (s v : State) : Prop where
  pool : PoolLike s v
  ing : v.ing = s.ing
  trk : v.trk = s.trk
  ctxs : v.slu.ctxs = s.slu.ctxs

section
variable {s v : State} (h : SettleLike s v)
include h

theorem SettleLike.release (x : Handle) (fn : Nat) : SettleLike (s.release x fn) (v.release x fn) := by
  have a := release_keeps (.refl s) x fn (Within.mem _)
  have b := release_keeps (.refl v) x fn (Within.mem _)
  exact ⟨h.pool.release x fn, (b.ing_eq (by decide)).trans (h.ing.trans (a.ing_eq (by decide)).symm),
    (b.trk_eq (by decide)).trans (h.trk.trans (a.trk_eq (by decide)).symm),
    (b.slu.ctxs.resolve_left (by decide)).trans (h.ctxs.trans (a.slu.ctxs.resolve_left (by decide)).symm)⟩

theorem SettleLike.reapList (fs : List Frame) : SettleLike (s.reapList fs) (v.reapList fs) := by
  induction fs generalizing s v with
  | nil => exact h
  | cons f fs ih =>
    have named : v.frameNamed f.rill f.index = s.frameNamed f.rill f.index := by
      unfold State.frameNamed
      rw [h.trk, h.ctxs]
    have rill : v.rill f.rill = s.rill f.rill := rill_congr (congrArg Ingest.rills h.ing) _
    unfold State.reapList
    rw [named, rill, h.ing]
    split
    · exact ih h
    · dsimp only
      apply ih
      apply SettleLike.release
      exact ⟨h.pool.beside, rfl, h.trk, h.ctxs⟩

/-- Settling leaves the same bytes of DRAM. -/
theorem SettleLike.settle_bytes : v.settle.dram.bytes = s.settle.dram.bytes := by
  have over_ : SettleLike { s with trk := { s.trk with flows := s.trk.flows.filter (fun f => !f.over) } }
      { v with trk := { v.trk with flows := v.trk.flows.filter (fun f => !f.over) } } :=
    ⟨h.pool.beside, h.ing, (by dsimp only; rw [h.trk]), h.ctxs⟩
  have reaped := over_.reapList s.ing.frames
  have fresh (w : State) : w.refresh.dram.bytes = w.dram.bytes := (refresh_keeps (.refl w) (Within.mem _)).dram.bytes.resolve_left (by decide)
  unfold State.settle State.reapFrames
  rw [fresh, fresh]
  have frames : v.ing.frames = s.ing.frames := congrArg Ingest.frames h.ing
  dsimp only
  rw [frames]
  exact reaped.pool.put.bytes

end

end Sys2Proof.Machine
end

section
/-! SUPPORT. The commit of a track command (R247, R302). -/

set_option Elab.async false

namespace Sys2Proof.Machine

/-! ## The frames that are ready for a context -/

/-- States in which the same frames are ready for a context's command (R247). -/
structure ReadyLike (s v : State) : Prop where
  flows : v.trk.flows = s.trk.flows
  embq : v.trk.embq = s.trk.embq
  perRill : v.trk.perRill = s.trk.perRill
  ldr : v.ldr = s.ldr
  sage : v.sage.pendingSwitch = s.sage.pendingSwitch
  bytes : v.dram.bytes = s.dram.bytes

section
variable {s v : State} (h : ReadyLike s v)
include h

theorem ReadyLike.dramRd (a n : Nat) : v.dramRd a n = s.dramRd a n := congrArg (Mem.rd · a n) h.bytes

theorem ReadyLike.recordsIn (ctx e k a : Nat) : v.recordsIn ctx e k a = s.recordsIn ctx e k a := by
  induction k generalizing a with
  | zero => rfl
  | succ k ih =>
    unfold State.recordsIn
    simp only [h.dramRd, ih]

theorem ReadyLike.recordAt (ctx k : Nat) (old : Bool) : v.recordAt ctx k old = s.recordAt ctx k old := by
  unfold State.recordAt State.records State.recordsOf State.sections State.namedList State.segRun State.ctxEntry
  simp only [h.recordsIn, h.dramRd, h.ldr]

theorem ReadyLike.readyFlows (e : CtxEntry) : v.readyFlows e = s.readyFlows e := by
  have ready : ∀ f, v.flowReady e f = s.flowReady e f := by
    intro f
    have old : v.oldFor e.id f.captureTs f.stamp = s.oldFor e.id f.captureTs f.stamp := by
      unfold State.oldFor State.segRun
      rw [h.ldr]
    have embs : v.embsReady e.id f = s.embsReady e.id f := by
      unfold State.embsReady State.reidLag
      rw [old, h.embq, h.recordAt]
      simp only [h.dramRd]
    have first : v.firstFrame e.id f = s.firstFrame e.id f := by
      unfold State.firstFrame
      rw [h.flows]
    have busy : v.rillBusy f.rill = s.rillBusy f.rill := congrArg (Option.isSome <| RillTrk.running ·) (rillTrk_congr h.perRill f.rill)
    have copies : v.copyCmds e.id (s.oldFor e.id f.captureTs f.stamp) = s.copyCmds e.id (s.oldFor e.id f.captureTs f.stamp) := by
      have records : v.records e.id (s.oldFor e.id f.captureTs f.stamp) = s.records e.id (s.oldFor e.id f.captureTs f.stamp) := by
        unfold State.records State.recordsOf State.sections State.namedList State.segRun State.ctxEntry
        simp only [h.recordsIn, h.ldr]
      unfold State.copyCmds
      rw [records]
      simp only [h.recordAt, h.dramRd]
    unfold State.flowReady State.swapHolds State.segRun
    rw [old, embs, first, busy, copies, h.ldr, h.sage]
  unfold State.readyFlows
  rw [h.flows, funext ready]

end

/-! ## A lane that scheduling leaves alone -/

theorem refreshList_holds (s : State) (es : List CtxEntry) (c : Nat) : ((s.refreshList es).ctxRun c).holds = (s.ctxRun c).holds := by
  induction es generalizing s with
  | nil => rfl
  | cons e es ih =>
    unfold State.refreshList
    dsimp only
    rw [ih, ctxRun_setCtxRun]
    split
    · next own => rw [own]
    · rfl

theorem settle_holds (s : State) (c : Nat) : (s.settle.ctxRun c).holds = (s.ctxRun c).holds := by
  unfold State.settle State.refresh
  rw [refreshList_holds]
  exact congrArg CtxRun.holds (ctxRun_congr ((reapFrames_keeps (.refl _) (Within.mem _)).slu.ctxs.resolve_left (by decide)) c)

/-- What scheduling leaves of a lane and of the context whose turn it was. -/
structure LaneKept (ctx lane : Nat) (s t : State) : Prop where
  holder : t.holder lane = s.holder lane
  overrun : (t.ctxRun ctx).overrunNs = (s.ctxRun ctx).overrunNs
  clusters : ∀ n < 4, t.holder n = some ctx → s.holder n = some ctx
  holds : ∀ c, c ≠ ctx → lane ∈ (t.ctxRun c).holds → lane ∈ (s.ctxRun c).holds
  ldr : t.ldr = s.ldr

theorem LaneKept.refl (ctx lane : Nat) (s : State) : LaneKept ctx lane s s := ⟨rfl, rfl, fun _ _ => id, fun _ _ => id, rfl⟩

theorem LaneKept.trans {ctx lane : Nat} {s t v : State} (h : LaneKept ctx lane s t) (g : LaneKept ctx lane t v) : LaneKept ctx lane s v :=
  ⟨g.holder.trans h.holder, g.overrun.trans h.overrun, fun n small own => h.clusters n small (g.clusters n small own),
    fun c other mem => h.holds c other (g.holds c other mem), g.ldr.trans h.ldr⟩

theorem LaneKept.of_keeps {cs : List Comp} {ctx lane : Nat} {s t : State} (k : Keeps (fun c => c ∈ cs) s t) (holder : .sluHolder ∉ cs := by decide)
    (ctxs : .sluCtxs ∉ cs := by decide) (ldr : ∀ c ∈ Comp.allLdr, c ∉ cs := by decide) : LaneKept ctx lane s t := by
  have held : ∀ n, t.holder n = s.holder n := fun n => by
    unfold State.holder
    rw [k.slu.holder.resolve_left holder]
  have run : ∀ c, t.ctxRun c = s.ctxRun c := ctxRun_congr (k.slu.ctxs.resolve_left ctxs)
  exact ⟨held lane, congrArg CtxRun.overrunNs (run ctx), fun n _ own => (held n).symm.trans own, fun c _ mem => run c ▸ mem, k.ldr_eq ldr⟩

theorem yieldLane_run (s : State) (l c : Nat) : ((s.yieldLane l).ctxRun c).overrunNs = (s.ctxRun c).overrunNs ∧
    ∀ k ∈ ((s.yieldLane l).ctxRun c).holds, k ∈ (s.ctxRun c).holds := by
  cases held : s.holder l with
  | none =>
    have same : s.yieldLane l = s := by
      unfold State.yieldLane
      rw [held]
    rw [same]
    exact ⟨rfl, fun k => id⟩
  | some own =>
    have upd := ctxRun_updCtxRun ((s.setHolder l none).setIdleHeld (s.slu.heldIdle.filter fun k => k != l)) own c
      fun x => { x with holds := x.holds.filter fun k => k != l }
    have run : (s.yieldLane l).ctxRun c = (((s.setHolder l none).setIdleHeld (s.slu.heldIdle.filter fun k => k != l)).updCtxRun own
        fun x => { x with holds := x.holds.filter fun k => k != l }).ctxRun c := by
      unfold State.yieldLane
      rw [held]
      rfl
    rw [run, upd]
    split
    · next is_ =>
      rw [is_]
      exact ⟨rfl, fun k mem => (List.mem_filter.1 mem).1⟩
    · exact ⟨rfl, fun k => id⟩

theorem yieldLane_kept (ctx : Nat) {lane l : Nat} (other : lane ≠ l) (s : State) : LaneKept ctx lane s (s.yieldLane l) := by
  refine ⟨?_, (yieldLane_run s l ctx).1, fun n _ own => ?_, fun c _ mem => (yieldLane_run s l c).2 lane mem,
    (yieldLane_keeps (.refl s) l (Within.mem _)).ldr_eq (by decide)⟩
  · rw [holder_yieldLane, if_neg other]
  · rw [holder_yieldLane] at own
    split at own
    · cases own
    · exact own

theorem yieldLanes_kept (ctx : Nat) {lane : Nat} (s : State) {ls : List Nat} (out : lane ∉ ls) : LaneKept ctx lane s (s.yieldLanes ls) := by
  induction ls generalizing s with
  | nil => exact .refl ..
  | cons l ls ih =>
    rw [List.mem_cons, not_or] at out
    exact (yieldLane_kept ctx out.1 s).trans (ih _ out.2)

/-- The contexts of an image that run on clusters are not a track context. -/
def State.laneOnly (s : State) (ctx : Nat) : Prop := ∀ x ∈ s.ldr.image.ctxs, x.id = ctx → x.kind = 3

theorem choose_other {s : State} {ctx n : Nat} {e : CtxEntry} (only : s.laneOnly ctx) (chosen : s.choose n = some e) : e.id ≠ ctx := by
  intro own
  have mem := (mem_sortBy ..).1 (List.mem_of_head? chosen)
  rw [List.mem_filter, Bool.and_eq_true, decide_eq_true_eq] at mem
  have kind := only e mem.1 own
  omega

theorem preemptCtx_kept {ctx lane : Nat} {s : State} {c : Nat} (away : lane ∉ (s.ctxRun c).holds) : LaneKept ctx lane s (s.preemptCtx c) := by
  have killed : LaneKept ctx lane s (s.killCmd c) := .of_keeps (killCmd_keeps (.refl s) c (Within.mem _))
  cases can : s.killable c with
  | false =>
    rw [(preemptCtx_spec s c).1 can]
    exact killed
  | true =>
    rw [(preemptCtx_spec s c).2 can]
    refine LaneKept.trans ?_ (yieldLanes_kept ctx _ away)
    split
    · exact killed.trans (.of_keeps (cs := [.reg .SLUICE_CNT_PREEMPT]) (addTo_keeps (.refl _) _ _ _ (.inr (by decide))))
    · exact killed

section
variable {ctx lane : Nat} (high : 4 ≤ lane)
include high

theorem grant_kept {s : State} (only : s.laneOnly ctx) {n : Nat} (small : n < 4) : LaneKept ctx lane s (s.grant n) := by
  have ldr := (grant_keeps (.refl s) n (Within.mem _)).ldr_eq (by decide)
  have run : ∀ c, (s.grant n).ctxRun c = s.ctxRun c ∨ c ≠ ctx ∧ ∀ k ∈ ((s.grant n).ctxRun c).holds, k = n ∨ k ∈ (s.ctxRun c).holds := by
    intro c
    unfold State.grant
    cases chosen : s.choose n with
    | none => exact .inl rfl
    | some e =>
      have other := choose_other only chosen
      have take : (s.takeLane e.id n).ctxRun c = if c = e.id then { s.ctxRun e.id with holds := putOnce n (s.ctxRun e.id).holds } else s.ctxRun c :=
        ctxRun_updCtxRun (s.setHolder n (some e.id)) e.id c fun x => { x with holds := putOnce n x.holds }
      dsimp only
      by_cases is_ : c = e.id
      · subst is_
        rw [if_pos rfl] at take
        refine .inr ⟨other, fun k mem => ?_⟩
        have held : k ∈ ((s.takeLane e.id n).ctxRun e.id).holds := by
          split at mem
          · exact mem
          · unfold State.startSlice at mem
            dsimp only at mem
            rw [ctxRun_updCtxRun, if_pos rfl] at mem
            exact mem
        rw [take] at held
        exact mem_putOnce.1 held
      · rw [if_neg is_] at take
        left
        split
        · exact take
        · unfold State.startSlice
          dsimp only
          rw [ctxRun_updCtxRun, if_neg is_]
          exact take
  refine ⟨?_, ?_, fun k _ own => ?_, fun c other mem => ?_, ldr⟩
  · rw [holder_grant, if_neg (by omega)]
  · rcases run ctx with same | ⟨no, -⟩
    · rw [same]
    · exact absurd rfl no
  · rw [holder_grant] at own
    split at own
    · next is_ =>
      rw [is_]
      cases chosen : s.choose n with
      | none => rwa [chosen] at own
      | some e =>
        rw [chosen] at own
        exact absurd (Option.some.inj own) (choose_other only chosen)
    · exact own
  · rcases run c with same | ⟨-, sub⟩
    · rwa [same] at mem
    · rcases sub lane mem with is_ | mem
      · omega
      · exact mem

/-- Where a context has no cluster and no other context has its lane, scheduling leaves the lane (R299, R301). -/
theorem preemptList_kept {s : State} (only : s.laneOnly ctx) (away : ∀ n < 4, s.holder n ≠ some ctx)
    (own : ∀ c, c ≠ ctx → lane ∉ (s.ctxRun c).holds) {ns : List Nat} (small : ∀ n ∈ ns, n < 4) : LaneKept ctx lane s (s.preemptList ns) := by
  induction ns generalizing s with
  | nil => exact .refl ..
  | cons n ns ih =>
    unfold State.preemptList
    have step : ∀ t, LaneKept ctx lane s t → LaneKept ctx lane s (t.preemptList ns) := fun t k =>
      k.trans (ih (by unfold State.laneOnly; rw [k.ldr]; exact only) (fun m lt is_ => away m lt (k.clusters m lt is_))
        (fun c other mem => own c other (k.holds c other mem)) fun m mem => small m (List.mem_cons_of_mem _ mem))
    refine step _ ?_
    cases ranked : s.outranked n with
    | none => exact .refl ..
    | some c =>
      have other : c ≠ ctx := by
        rintro rfl
        unfold State.outranked at ranked
        cases held : s.holder n with
        | none => rw [held] at ranked; cases ranked
        | some d =>
          rw [held] at ranked
          dsimp only at ranked
          split at ranked
          · cases ranked
          · split at ranked
            · exact away n (small n List.mem_cons_self) (held.trans ranked)
            · cases ranked
      have gone := preemptCtx_kept (ctx := ctx) (own c other)
      dsimp only
      split
      · exact gone.trans (grant_kept high (by unfold State.laneOnly; rw [gone.ldr]; exact only) (small n List.mem_cons_self))
      · exact gone

theorem grantFree_kept {s : State} (only : s.laneOnly ctx) {ns : List Nat} (small : ∀ n ∈ ns, n < 4) : LaneKept ctx lane s (s.grantFree ns) := by
  induction ns generalizing s with
  | nil => exact .refl ..
  | cons n ns ih =>
    unfold State.grantFree
    have step : ∀ t, LaneKept ctx lane s t → LaneKept ctx lane s (t.grantFree ns) := fun t k =>
      k.trans (ih (by unfold State.laneOnly; rw [k.ldr]; exact only) fun m mem => small m (List.mem_cons_of_mem _ mem))
    refine step _ ?_
    split
    · exact grant_kept high only (small n List.mem_cons_self)
    · exact .refl ..

theorem schedule_kept {s : State} (only : s.laneOnly ctx) (away : ∀ n < 4, s.holder n ≠ some ctx)
    (own : ∀ c, c ≠ ctx → lane ∉ (s.ctxRun c).holds) : LaneKept ctx lane s s.schedule := by
  unfold State.schedule
  split
  · exact .refl ..
  · have first := preemptList_kept high only away own (ns := List.range 4) fun n mem => List.mem_range.1 mem
    exact first.trans (grantFree_kept high (by unfold State.laneOnly; rw [first.ldr]; exact only) fun n mem => List.mem_range.1 mem)

end

end Sys2Proof.Machine
end

section
/-! SUPPORT. TRACK_COMMAND_COMMIT (R247, R302). -/

set_option Elab.async false

namespace Sys2Proof.Machine

/-! ## The lane after a commit -/

theorem laneCommit_ended {s : State} {ctx k : Nat} (ended : k ∈ s.slu.ended) : (s.laneCommit ctx k).holder k = none ∧
    ∀ v, SMap.find? s.slu.slices k = some v → ((s.laneCommit ctx k).ctxRun ctx).overrunNs = min (s.nowNs - v) (s.sliceNs ctx) := by
  unfold State.laneCommit
  rw [if_pos (by simpa using ended)]
  dsimp only
  refine ⟨by rw [holder_yieldLane, if_pos rfl], fun v found => ?_⟩
  rw [(yieldLane_run _ k ctx).1, ctxRun_updCtxRun, if_pos rfl, found]

theorem laneCommit_track {s : State} {ctx k : Nat} {e : CtxEntry} (going : k ∉ s.slu.ended) (entry : s.ctxEntry ctx = some e) (kind : e.kind = 3) :
    (s.laneCommit ctx k).holder k = if (s.idleLanes ctx).length ≤ (s.readyFlows e).length then s.holder k else none := by
  unfold State.laneCommit
  rw [if_neg (by simpa using going), entry]
  dsimp only
  by_cases keep : (s.idleLanes ctx).length ≤ (s.readyFlows e).length
  · rw [if_pos (by simp [kind, keep]), if_pos keep]
  · rw [if_neg (by simp [keep]), if_neg (by simp [kind]), if_neg keep, holder_yieldLane, if_pos rfl]

theorem laneCommit_away {s : State} {ctx k : Nat} :
    (∀ n < 4, s.holder n ≠ some ctx) → (∀ c, c ≠ ctx → k ∉ (s.ctxRun c).holds) →
    (∀ n < 4, (s.laneCommit ctx k).holder n ≠ some ctx) ∧ (∀ c, c ≠ ctx → k ∉ ((s.laneCommit ctx k).ctxRun c).holds) := by
  intro away own
  have yields (v : State) (held : ∀ n < 4, v.holder n ≠ some ctx) (out : ∀ c, c ≠ ctx → k ∉ (v.ctxRun c).holds) :
      (∀ n < 4, (v.yieldLane k).holder n ≠ some ctx) ∧ (∀ c, c ≠ ctx → k ∉ ((v.yieldLane k).ctxRun c).holds) := by
    refine ⟨fun n lt is_ => ?_, fun c other mem => out c other ((yieldLane_run v k c).2 k mem)⟩
    rw [holder_yieldLane] at is_
    split at is_
    · cases is_
    · exact held n lt is_
  unfold State.laneCommit
  split
  · dsimp only
    refine yields _ away fun c other => ?_
    rw [ctxRun_updCtxRun, if_neg other]
    exact own c other
  · split
    · split
      · exact ⟨away, own⟩
      · split
        · exact ⟨away, own⟩
        · exact yields s away own
    · exact yields s away own

/-! ## The commit -/

/-- The state in which a track command has ended, and counts. -/
def State.trackOver (s : State) (rill : Nat) : State :=
  (s.addTo .TRK_CNT_FRAMES 0 1).setRillTrk rill { (s.addTo .TRK_CNT_FRAMES 0 1).rillTrk rill with running := none }

theorem regOk_frames : regOk .TRK_CNT_FRAMES 0 0 = true := by decide +kernel

theorem exec_trackCommandCommit_no {s : State} {rill : Nat} (no : (s.rillTrk rill).running = none ∨ s.weir.coolant ≠ .none) :
    exec (.trackCommandCommit rill) s = .next s := by
  change execTrackCommandCommit rill s = _
  unfold execTrackCommandCommit
  rcases no with idle | held
  · rw [idle]
  · cases run : (s.rillTrk rill).running with
    | none => rfl
    | some x =>
      obtain ⟨ctx, frame, lane⟩ := x
      exact congrArg _ (when_neg s (by unfold State.coolantHeld; simpa using held) _)

theorem exec_trackCommandCommit_done {s : State} {rill ctx frame lane : Nat} (run : (s.rillTrk rill).running = some (ctx, frame, lane))
    (flows : s.weir.coolant = .none) : exec (.trackCommandCommit rill) s = .next ((s.trackOver rill).exportOver ctx rill frame lane) := by
  change execTrackCommandCommit rill s = _
  unfold execTrackCommandCommit
  rw [run]
  exact congrArg _ (when_eq s (by unfold State.coolantHeld; rw [flows]; rfl) _)

/-- After settling, the same frames are ready and the same lanes idle. -/
theorem SettleLike.settled {a b : State} (h : SettleLike a b) (ldr : b.ldr = a.ldr) (sage : b.sage = a.sage) (slu : b.slu = a.slu)
    (ctx : Nat) (e : CtxEntry) : b.settle.readyFlows e = a.settle.readyFlows e ∧ b.settle.idleLanes ctx = a.settle.idleLanes ctx := by
  have ka := settle_keeps (.refl a) (Within.mem _)
  have kb := settle_keeps (.refl b) (Within.mem _)
  have perRill : b.settle.trk.perRill = a.settle.trk.perRill := (kb.trk.perRill.resolve_left (by decide)).trans
    ((congrArg TrackEng.perRill h.trk).trans (ka.trk.perRill.resolve_left (by decide)).symm)
  have ready : ReadyLike a.settle b.settle :=
    { flows := by rw [settle_flows, settle_flows, h.trk]
      embq := (kb.trk.embq.resolve_left (by decide)).trans ((congrArg TrackEng.embq h.trk).trans (ka.trk.embq.resolve_left (by decide)).symm)
      perRill := perRill
      ldr := (kb.ldr_eq (by decide)).trans (ldr.trans (ka.ldr_eq (by decide)).symm)
      sage := congrArg Sage.pendingSwitch ((kb.sage_eq (by decide)).trans (sage.trans (ka.sage_eq (by decide)).symm))
      bytes := h.settle_bytes }
  have holder : ∀ n, b.settle.holder n = a.settle.holder n := fun n => by
    unfold State.holder
    rw [kb.slu.holder.resolve_left (by decide), ka.slu.holder.resolve_left (by decide), slu]
  have cmd : ∀ c, b.settle.cmdRun c = a.settle.cmdRun c := cmdRun_congr
    ((kb.slu.cmds.resolve_left (by decide)).trans ((congrArg Sluice.cmds slu).trans (ka.slu.cmds.resolve_left (by decide)).symm))
  have holds : (b.settle.ctxRun ctx).holds = (a.settle.ctxRun ctx).holds := by
    rw [settle_holds, settle_holds, ctxRun_congr h.ctxs]
  refine ⟨ready.readyFlows e, ?_⟩
  unfold State.idleLanes State.laneBusy
  rw [holds]
  simp only [holder, cmd, perRill]

/-- What a commit adds to the counter of frames has no part in which frames are ready next, and which lanes idle. -/
theorem trackOver_like (s : State) (ctx rill frame : Nat) (e : CtxEntry) :
    let u := (s.setRillTrk rill { s.rillTrk rill with running := none }).flowDone ctx rill frame
    let v := (s.trackOver rill).flowDone ctx rill frame
    v.readyFlows e = u.readyFlows e ∧ v.idleLanes ctx = u.idleLanes ctx := by
  dsimp only
  have k : Keeps (fun c => c ∈ [Comp.reg .TRK_CNT_FRAMES]) s (s.addTo .TRK_CNT_FRAMES 0 1) := addTo_keeps (.refl s) _ _ _ (.inr (by decide))
  have trk := k.trk_eq (by decide)
  have own : (s.addTo .TRK_CNT_FRAMES 0 1).rillTrk rill = s.rillTrk rill := rillTrk_congr (congrArg TrackEng.perRill trk) rill
  have same : (s.trackOver rill).trk = (s.setRillTrk rill { s.rillTrk rill with running := none }).trk := by
    unfold State.trackOver State.setRillTrk
    rw [own, trk]
  have base : SettleLike ((s.setRillTrk rill { s.rillTrk rill with running := none }).updFlow rill frame fun x => { x with ctxs := x.ctxs.filter fun c => c != ctx })
      ((s.trackOver rill).updFlow rill frame fun x => { x with ctxs := x.ctxs.filter fun c => c != ctx }) := by
    refine ⟨(PoolLike.of_keeps k).beside, k.ing_eq (by decide), ?_, congrArg Sluice.ctxs (k.slu_eq (by decide))⟩
    unfold State.updFlow
    dsimp only
    rw [same]
  exact base.settled (k.ldr_eq (by decide)) (k.sage_eq (by decide)) (k.slu_eq (by decide)) ctx e

/-- The state after a track command's commit. -/
theorem trackOver_commit {s : State} {rill ctx frame lane : Nat} : let t := (s.trackOver rill).exportOver ctx rill frame lane
    (t.rillTrk rill).running = none ∧ t.reg .TRK_CNT_FRAMES 0 0 = s.reg .TRK_CNT_FRAMES 0 0 + 1 ∧
    ∀ x, t.flow rill frame = some x → ctx ∉ x.ctxs := by
  dsimp only
  have k := exportOver_keeps (s.trackOver rill) ctx rill frame lane
  refine ⟨?_, ?_, fun x found => exportOver_flow _ ctx rill frame lane found⟩
  · rw [rillTrk_congr (k.trk.perRill.resolve_left (by decide))]
    exact congrArg RillTrk.running (rillTrk_setRillTrk_self ..)
  · rw [k.reg_eq (by decide) (by decide) regOk_frames]
    exact addTo_reg s .TRK_CNT_FRAMES 0 1 regOk_frames

section
variable {s : State} {rill ctx frame lane : Nat} {e : CtxEntry} (entry : s.ctxEntry ctx = some e) (only : s.laneOnly ctx) (high : 4 ≤ lane)
  (away : ∀ n < 4, s.holder n ≠ some ctx) (own : ∀ c, c ≠ ctx → lane ∉ (s.ctxRun c).holds)
include entry only high away own

/-- The lane of a track command after its commit: given up with the overrun noted where its slice has ended, else kept while
the context has a frame for it (R299, R302). -/
theorem trackOver_lane : let t := (s.trackOver rill).exportOver ctx rill frame lane
    let u := (s.setRillTrk rill { s.rillTrk rill with running := none }).flowDone ctx rill frame
    (lane ∈ s.slu.ended → t.holder lane = none ∧ ∀ v, SMap.find? s.slu.slices lane = some v →
      (t.ctxRun ctx).overrunNs = min (s.nowNs - v) (s.sliceNs ctx)) ∧
    (lane ∉ s.slu.ended → t.holder lane = if (u.idleLanes ctx).length ≤ (u.readyFlows e).length then s.holder lane else none) := by
  dsimp only
  obtain ⟨ready, idle⟩ := trackOver_like s ctx rill frame e
  dsimp only at ready idle
  rw [← ready, ← idle]
  have counted_ : Keeps (fun c => c ∈ [Comp.reg .TRK_CNT_FRAMES]) s (s.addTo .TRK_CNT_FRAMES 0 1) := addTo_keeps (.refl s) _ _ _ (.inr (by decide))
  have done := flowDone_keeps (.refl (s.trackOver rill)) ctx rill frame (Within.mem _)
  have slu : (s.trackOver rill).slu = s.slu := counted_.slu_eq (by decide)
  have ldr : ((s.trackOver rill).flowDone ctx rill frame).ldr = s.ldr := (done.ldr_eq (by decide)).trans (counted_.ldr_eq (by decide))
  have now : ((s.trackOver rill).flowDone ctx rill frame).thy.now = s.thy.now :=
    (done.thy.now.resolve_left (by decide)).trans (congrArg Thyme.now (counted_.thy_eq (by decide)))
  have ended : ((s.trackOver rill).flowDone ctx rill frame).slu.ended = s.slu.ended := (done.slu.ended.resolve_left (by decide)).trans (congrArg Sluice.ended slu)
  have slices : ((s.trackOver rill).flowDone ctx rill frame).slu.slices = s.slu.slices := (done.slu.slices.resolve_left (by decide)).trans (congrArg Sluice.slices slu)
  have holder : ∀ n, ((s.trackOver rill).flowDone ctx rill frame).holder n = s.holder n := fun n => by
    unfold State.holder
    rw [done.slu.holder.resolve_left (by decide), slu]
  have holds : ∀ c, (((s.trackOver rill).flowDone ctx rill frame).ctxRun c).holds = (s.ctxRun c).holds := fun c => by
    unfold State.flowDone
    rw [settle_holds]
    exact congrArg CtxRun.holds (ctxRun_congr (congrArg Sluice.ctxs slu) c)
  unfold State.exportOver
  generalize (s.trackOver rill).flowDone ctx rill frame = w at *
  have entryW : w.ctxEntry ctx = some e := by
    unfold State.ctxEntry at entry ⊢
    rw [ldr]
    exact entry
  have kind : e.kind = 3 := only e (List.mem_of_find?_eq_some entry) (ctxEntry_id entry)
  obtain ⟨awayW, ownW⟩ := laneCommit_away (s := w) (ctx := ctx) (k := lane) (fun n lt => by rw [holder]; exact away n lt) fun c other => by rw [holds]; exact own c other
  have onlyW : (w.laneCommit ctx lane).laneOnly ctx := by
    unfold State.laneOnly
    rw [(laneCommit_keeps (.refl w) ctx lane (Within.mem _)).ldr_eq (by decide), ldr]
    exact only
  have kept := schedule_kept high onlyW awayW ownW
  rw [kept.holder, kept.overrun]
  refine ⟨fun over_ => ?_, fun going => ?_⟩
  · obtain ⟨none_, late⟩ := laneCommit_ended (s := w) (ctx := ctx) (by rw [ended]; exact over_)
    refine ⟨none_, fun v found => ?_⟩
    rw [late v (by rw [slices]; exact found)]
    unfold State.nowNs State.sliceNs
    rw [now, entryW, entry]
  · rw [laneCommit_track (by rw [ended]; exact going) entryW kind, holder]

end

end Sys2Proof.Machine
end

section
/-! SUPPORT. A track command's work on a frame, stage by stage (R254 to R275). -/

set_option Elab.async false

namespace Sys2Proof.Machine

/-! ## The stages of a frame -/

section
variable (s : State) (ctx : Nat) (rs : RuleSet) (old : Bool) (fl : Flow) (hdr : SeqHdr)

/-- The candidates of a frame (R252 to R255). -/
def State.trackCands : List Cand := s.frameCands rs hdr.cropW hdr.cropH (s.readHeads rs fl.heads).2.1

/-- Those that non-maximum suppression keeps, and whether some remained (R256). -/
def State.trackKept : List Cand × Bool := nms rs ((s.trackCands rs fl hdr).take rs.maxCand) []

/-- The frame's work as far as its detections (R255, R256). -/
def State.trackSeen : TrkWork :=
  let h := s.readHeads rs fl.heads
  let w0 : TrkWork := { s := h.1, status := fl.status, flags := fl.flags, events := [], live := [], broken := [] }
  let w1 := w0.reports h.2.2
  let w2 := if decide (rs.maxCand < (s.trackCands rs fl hdr).length) then w1.report Status.maxCand [5] else w1
  if (s.trackKept rs fl hdr).2 then w2.report Status.maxDet [6] else w2

/-- The frame's work as far as the embeddings that are due (R257, R259, R265, R267). -/
def State.trackRead : TrkWork :=
  let w3 := s.trackSeen rs fl hdr
  (((TrkWork.fetch { w3 with s := w3.s.addTo .TRK_CNT_DET 0 (s.trackKept rs fl hdr).1.length } (s.rillTracks fl.rill)).discontinue
    fl.rill fl.frame).newRules ctx fl.rill old).embed (s.trk.embq.filter (rs.due fl.rill fl.frame))

/-- The state in which the embeddings that were due have left the queue. -/
def TrkWork.embedded (w : TrkWork) (rs : RuleSet) (fl : Flow) : State :=
  { w.s with trk := { w.s.trk with embq := w.s.trk.embq.filter (fun e => !rs.due fl.rill fl.frame e) } }

/-- The detections that start tracks (R263). -/
def freeCands (m : List (Nat × Nat)) (dets : List Cand) : List (Nat × Cand) :=
  (indexed dets).filter (fun d => !m.any (fun x => x.1 = d.1) && rs.tracks d.2.cls &&
    (match rs.classes[d.2.cls]? with
     | some c => decide (c.startThr ≤ d.2.score)
     | none => false))

/-- The matches of a frame's detections (R263). -/
def TrkWork.matched (w : TrkWork) (rs : RuleSet) (f : Nat) (dets : List Cand) : List (Nat × Nat) := greedy (pairsOf rs f dets w.live) []

/-- The tracks that stay among those that were live before a frame. -/
def TrkWork.stay (w : TrkWork) : List Track := w.live.filter (fun t => !w.broken.contains t.id)

/-- The frame's work as far as the tracks that start. -/
def State.trackBegun : TrkWork × List (Nat × Track) :=
  let w4 := s.trackRead ctx rs old fl hdr
  let dets := (s.trackKept rs fl hdr).1
  let f := fl.frame % 2 ^ 64
  TrkWork.start { w4 with s := (w4.embedded rs fl).setTracks fl.rill w4.stay } rs fl.rill f w4.stay.length
    (freeCands rs (w4.matched rs f dets) dets) []

/-- The frame's work as far as the rules (R264, R270). -/
def State.trackRuled : TrkWork × List After :=
  let w4 := s.trackRead ctx rs old fl hdr
  let dets := (s.trackKept rs fl hdr).1
  let f := fl.frame % 2 ^ 64
  let p := s.trackBegun ctx rs old fl hdr
  let p1 := p.1.lifecycles rs f dets (w4.matched rs f dets) w4.live []
  let new := p.2.map (fun x : Nat × Track => ({ now := x.2, prev := none, det := some x.1 } : After))
  p1.1.ruleUnit f (s.zoneSet rs fl.rill) (sortBy (fun a b : After => decide (a.now.id ≤ b.now.id)) (p1.2 ++ new)) []

/-- The frame's work as far as the crops that are due (R266). -/
def State.trackCropped : TrkWork :=
  let p := s.trackRuled ctx rs old fl hdr
  p.1.crops rs fl.rill fl.frame ((p.2.filter (fun a => a.cropDue rs (fl.frame % 2 ^ 64))).take rs.reidPerFrame)

/-- The tracks of the rill after the frame. -/
def State.trackNow : List Track := (s.trackRuled ctx rs old fl hdr).2.map (·.now)

/-- The rill's row after the frame. -/
def State.trackRow : RillTrk :=
  let x := (s.trackCropped ctx rs old fl hdr).s.rillTrk fl.rill
  { x with
    cappedFrames := if decide (rs.maxCand < (s.trackCands rs fl hdr).length) || (s.trackKept rs fl hdr).2 then bump x.cappedFrames else x.cappedFrames,
    lastFrame := some fl.frame }

/-- The state in which the frame's tracks are in their records. -/
def State.trackPut : State :=
  (((s.trackCropped ctx rs old fl hdr).s.setTracks fl.rill (s.trackNow ctx rs old fl hdr)).setRillTrk fl.rill (s.trackRow ctx rs old fl hdr)).putTracks
    (s.trackNow ctx rs old fl hdr)

/-- The head context that a frame-end record names. -/
def headOf (rs : RuleSet) (fl : Flow) : Nat :=
  match fl.heads, rs.heads with
  | h :: _, _ => h.1
  | [], h :: _ => h.ctx
  | [], [] => noCtx

def Flow.trackKey (fl : Flow) : MetaKey := { fn := fl.fn, rill := fl.rill, tag := fl.tag, ts := fl.captureTs, index := fl.frame % 2 ^ 64 }

/-- The frame's records (R275). -/
def State.trackTold : List (Nat × Nat × List Byte) :=
  (s.trackCropped ctx rs old fl hdr).records rs (s.trackRow ctx rs old fl hdr) (fl.frame % 2 ^ 64) (headOf rs fl) (s.trackCands rs fl hdr).length
    (s.trackKept rs fl hdr).1 (s.trackRuled ctx rs old fl hdr).2

theorem trackFrame_eq : s.trackFrame ctx rs old fl hdr = ((s.startAttachment fl.rill fl.frame).trackPut ctx rs old fl hdr).metaRecords fl.trackKey
    ((s.startAttachment fl.rill fl.frame).trackTold ctx rs old fl hdr) := rfl

end

/-! ## What the stages keep -/

theorem TrkWork_lifecycles_s (w : TrkWork) (rs : RuleSet) (f : Nat) (dets : List Cand) (m : List (Nat × Nat)) (ts : List Track) (acc : List After) :
    (w.lifecycles rs f dets m ts acc).1.s = w.s := by
  induction ts generalizing w acc with
  | nil => rfl
  | cons t ts ih =>
    unfold TrkWork.lifecycles
    exact ih _ _

theorem TrkWork_ruleUnit_s (w : TrkWork) (f : Nat) (set : List Zone × List Line) (as acc : List After) : (w.ruleUnit f set as acc).1.s = w.s := by
  induction as generalizing w acc with
  | nil => rfl
  | cons a as ih =>
    unfold TrkWork.ruleUnit
    split
    · exact ih _ _
    · exact ih _ _

def trackReadChanges : List Comp := visitBlockChanges ++ setRillTrkChanges ++ fetchTrackChanges ++ [.reg .TRK_CNT_DET]

theorem trackSeen_s (s : State) (rs : RuleSet) (fl : Flow) (hdr : SeqHdr) : (s.trackSeen rs fl hdr).s = (s.readHeads rs fl.heads).1 := by
  have reports (w : TrkWork) (l : List W16) : (w.reports l).s = w.s := by
    induction l generalizing w with
    | nil => rfl
    | cons st l ih => exact ih _
  unfold State.trackSeen
  dsimp only
  split <;> split <;> exact reports _ _

theorem trackRead_keeps (s : State) (ctx : Nat) (rs : RuleSet) (old : Bool) (fl : Flow) (hdr : SeqHdr) :
    Keeps (fun c => c ∈ trackReadChanges) s (s.trackRead ctx rs old fl hdr).s := by
  have parts := Within.mem trackReadChanges
  simp only [trackReadChanges, within_append, and_assoc] at parts
  obtain ⟨visits, row, fetches, det⟩ := parts
  unfold State.trackRead
  dsimp only
  refine TrkWork_embed_keeps (TrkWork_newRules_keeps (TrkWork_discontinue_keeps (TrkWork_fetch_keeps ?_ _ fetches) _ _ row) _ _ _ row) _
  dsimp only
  rw [trackSeen_s]
  exact addTo_keeps (readHeads_keeps (.refl s) _ _ visits) _ _ _ (.inr (det.of (by decide)))

def trackBegunChanges : List Comp := setTracksChanges ++ trkWork_startChanges ++ [.trkEmbq]

theorem trackBegun_keeps (s : State) (ctx : Nat) (rs : RuleSet) (old : Bool) (fl : Flow) (hdr : SeqHdr) :
    Keeps (fun c => c ∈ setTracksChanges ++ trkWork_startChanges) ((s.trackRead ctx rs old fl hdr).embedded rs fl) (s.trackBegun ctx rs old fl hdr).1.s := by
  have parts := Within.mem (setTracksChanges ++ trkWork_startChanges)
  rw [within_append] at parts
  unfold State.trackBegun
  dsimp only
  exact TrkWork_start_keeps (setTracks_keeps (.refl _) _ _ parts.1) _ _ _ _ _ _ parts.2

theorem trackRuled_s (s : State) (ctx : Nat) (rs : RuleSet) (old : Bool) (fl : Flow) (hdr : SeqHdr) :
    (s.trackRuled ctx rs old fl hdr).1.s = (s.trackBegun ctx rs old fl hdr).1.s := by
  unfold State.trackRuled
  dsimp only
  rw [TrkWork_ruleUnit_s, TrkWork_lifecycles_s]

theorem trackCropped_keeps (s : State) (ctx : Nat) (rs : RuleSet) (old : Bool) (fl : Flow) (hdr : SeqHdr) :
    Keeps (fun c => c ∈ trkWork_cropsChanges) (s.trackBegun ctx rs old fl hdr).1.s (s.trackCropped ctx rs old fl hdr).s := by
  rw [← trackRuled_s]
  exact TrkWork_crops_keeps (.refl _) _ _ _ _ (Within.mem _)

theorem trackPut_keeps (s : State) (ctx : Nat) (rs : RuleSet) (old : Bool) (fl : Flow) (hdr : SeqHdr) :
    Keeps (fun c => c ∈ setTracksChanges ++ setRillTrkChanges ++ cachePutChanges) (s.trackCropped ctx rs old fl hdr).s (s.trackPut ctx rs old fl hdr) := by
  have parts := Within.mem (setTracksChanges ++ setRillTrkChanges ++ cachePutChanges)
  simp only [within_append, and_assoc] at parts
  obtain ⟨tracks, row, cache⟩ := parts
  exact putTracks_keeps (setRillTrk_keeps (setTracks_keeps (.refl _) _ _ tracks) _ _ row) _ cache

/-- What a frame's work changes before its records are written. -/
def trackPutChanges : List Comp :=
  visitBlockChanges ++ setRillTrkChanges ++ fetchTrackChanges ++ trkWork_startChanges ++ setTracksChanges ++ trkWork_cropsChanges ++
    cachePutChanges ++ [.reg .TRK_CNT_DET, .trkEmbq]

theorem trackPut_all (s : State) (ctx : Nat) (rs : RuleSet) (old : Bool) (fl : Flow) (hdr : SeqHdr) :
    Keeps (fun c => c ∈ trackPutChanges) s (s.trackPut ctx rs old fl hdr) := by
  have parts := Within.mem trackPutChanges
  simp only [trackPutChanges, within_append, and_assoc] at parts
  obtain ⟨visits, row, fetches, starts, tracks, crops, cache, rest⟩ := parts
  refine putTracks_keeps (setRillTrk_keeps (setTracks_keeps (TrkWork_crops_keeps ?_ _ _ _ _ crops) _ _ tracks) _ _ row) _ cache
  rw [trackRuled_s]
  unfold State.trackBegun
  dsimp only
  refine TrkWork_start_keeps (setTracks_keeps ?_ _ _ tracks) _ _ _ _ _ _ starts
  have read : Keeps (fun c => c ∈ trackPutChanges) s (s.trackRead ctx rs old fl hdr).s := by
    unfold State.trackRead
    dsimp only
    refine TrkWork_embed_keeps (TrkWork_newRules_keeps (TrkWork_discontinue_keeps (TrkWork_fetch_keeps ?_ _ fetches) _ _ row) _ _ _ row) _
    dsimp only
    rw [trackSeen_s]
    exact addTo_keeps (readHeads_keeps (.refl s) _ _ visits) _ _ _ (.inr (rest.of (by decide)))
  unfold TrkWork.embedded
  have hd := rest
  exact keeps_mk read

end Sys2Proof.Machine
end

section
/-! SUPPORT. What a track command leaves of other frames and rills, and what it counts (R256, R265 to R267, R275, R400). -/

set_option Elab.async false

namespace Sys2Proof.Machine

/-! ## Tracks and the embedding queue -/

theorem setTracks_tracks (s : State) (r : Nat) (ts : List Track) : (s.setTracks r ts).trk.tracks =
    s.trk.tracks.filter (fun k => !((s.rillTracks r).filter (fun k => !ts.any (fun t => t.id = k.id))).contains k) := by
  unfold State.setTracks
  dsimp only
  rw [(freeRecords_keeps (.refl s) _ (Within.mem _)).trk.tracks.resolve_left (by decide)]

theorem rillTracks_rill {s : State} {r : Nat} {x : TrackRef} (h : x ∈ s.rillTracks r) : x.rill = r := by
  have mem := (mem_sortBy ..).1 h
  exact of_decide_eq_true (List.mem_filter.1 mem).2

theorem setTracks_other {s : State} {r : Nat} (ts : List Track) {x : TrackRef} (mem : x ∈ s.trk.tracks) (other : x.rill ≠ r) :
    x ∈ (s.setTracks r ts).trk.tracks := by
  rw [setTracks_tracks, List.mem_filter]
  refine ⟨mem, ?_⟩
  rw [Bool.not_eq_true', List.contains_eq_mem, decide_eq_false_iff_not]
  exact fun gone => other (rillTracks_rill (List.mem_filter.1 gone).1)

theorem newTrack_tracks (s : State) (r f store : Nat) (d : Cand) (confirm : Bool) : (s.newTrack r f store d confirm).1.trk.tracks =
    s.trk.tracks ++ [{ rill := r, id := (s.newTrack r f store d confirm).2.id, store := store }] := by
  unfold State.newTrack
  dsimp only
  rw [(cachePut_keeps (.refl _) _ _ (Within.mem _)).trk.tracks.resolve_left (by decide)]
  refine congrArg (· ++ _) ?_
  exact (addTo_keeps (cs := fun c => c ∈ [Comp.reg .TRK_CNT_HIT, .reg .TRK_CNT_MISS]) (.refl (s.setRillTrk r _)) _ 0 1
    (by split <;> exact .inr (by decide))).trk.tracks.resolve_left (by decide)

theorem start_tracks (w : TrkWork) (rs : RuleSet) (r f n : Nat) (ds : List (Nat × Cand)) (acc : List (Nat × Track)) {x : TrackRef}
    (mem : x ∈ w.s.trk.tracks) : x ∈ (w.start rs r f n ds acc).1.s.trk.tracks := by
  induction ds generalizing w n acc with
  | nil => exact mem
  | cons d ds ih =>
    unfold TrkWork.start
    dsimp only
    split
    · exact ih _ _ _ mem
    · split
      · refine ih _ _ _ ?_
        have k := elog_keeps (.refl ((w.s.setRillTrk r { w.s.rillTrk r with storeFull := bump (w.s.rillTrk r).storeFull }).count .TRK_CNT_STOREFULL 0))
          Status.trackStoreFull unitTrk 0 noCtx noFn 0 (Within.mem _)
        have c := count_keeps (cs := fun c => c ∈ [Comp.reg .TRK_CNT_STOREFULL]) (.refl (w.s.setRillTrk r { w.s.rillTrk r with storeFull := bump (w.s.rillTrk r).storeFull }))
          .TRK_CNT_STOREFULL 0 (.inr (by decide))
        have same := (k.trk.tracks.resolve_left (by decide)).trans (c.trk.tracks.resolve_left (by decide))
        exact same ▸ mem
      · refine ih _ _ _ ?_
        dsimp only
        rw [newTrack_tracks]
        exact List.mem_append_left _ mem

theorem crops_embq (w : TrkWork) (rs : RuleSet) (r f : Nat) (as : List After) {x : EmbReq} (mem : x ∈ (w.crops rs r f as).s.trk.embq) :
    x ∈ w.s.trk.embq ∨ (x.rill = r ∧ x.frame = f ∧ x.data = none) := by
  induction as generalizing w with
  | nil => exact .inl mem
  | cons a as ih =>
    unfold TrkWork.crops at mem
    rcases ih _ mem with old | new
    · split at old
      · exact .inl ((count_keeps (cs := fun c => c ∈ [Comp.reg .TRK_CNT_EMBQFULL]) (.refl w.s) .TRK_CNT_EMBQFULL 0
          (.inr (by decide))).trk.embq.resolve_left (by decide) ▸ old)
      · rcases List.mem_append.1 old with old | is_
        · exact .inl old
        · rw [List.mem_singleton] at is_
          subst is_
          exact .inr ⟨rfl, rfl, rfl⟩
    · exact .inr new

theorem startAttachment_tracks (s : State) (r f : Nat) {x : TrackRef} (mem : x ∈ s.trk.tracks) (other : x.rill ≠ r) :
    x ∈ (s.startAttachment r f).trk.tracks := by
  unfold State.startAttachment
  dsimp only
  split
  · split
    · exact mem
    · change x ∈ (s.freeTracks r).trk.tracks
      rw [freeTracks_tracks, List.mem_filter]
      exact ⟨mem, by simpa using other⟩
  · exact mem

theorem startAttachment_embq (s : State) (r f : Nat) {x : EmbReq} (mem : x ∈ (s.startAttachment r f).trk.embq) : x ∈ s.trk.embq := by
  unfold State.startAttachment at mem
  dsimp only at mem
  split at mem
  · split at mem
    · exact mem
    · change x ∈ ((s.freeRecords (s.rillTracks r)).takeTracks r).trk.embq at mem
      have kept := (List.mem_filter.1 mem).1
      exact (freeRecords_keeps (.refl s) _ (Within.mem _)).trk.embq.resolve_left (by decide) ▸ kept
  · exact mem

theorem startAttachment_same {s : State} {r f : Nat} (same : ∀ l, (s.rillTrk r).lastFrame = some l → l / 2 ^ 64 = f / 2 ^ 64) :
    s.startAttachment r f = s := by
  unfold State.startAttachment
  dsimp only
  split
  · next l last => exact if_pos (same l last)
  · rfl

section
variable (s : State) (ctx : Nat) (rs : RuleSet) (old : Bool) (fl : Flow) (hdr : SeqHdr)

theorem trackPut_tracks {x : TrackRef} (mem : x ∈ s.trk.tracks) (other : x.rill ≠ fl.rill) : x ∈ (s.trackPut ctx rs old fl hdr).trk.tracks := by
  have read := (trackRead_keeps s ctx rs old fl hdr).trk.tracks.resolve_left (by decide)
  have crops := (trackCropped_keeps s ctx rs old fl hdr).trk.tracks.resolve_left (by decide)
  have put := (putTracks_keeps (.refl ((((s.trackCropped ctx rs old fl hdr).s.setTracks fl.rill (s.trackNow ctx rs old fl hdr)).setRillTrk fl.rill
    (s.trackRow ctx rs old fl hdr)))) (s.trackNow ctx rs old fl hdr) (Within.mem _)).trk.tracks.resolve_left (by decide)
  unfold State.trackPut
  rw [put]
  refine setTracks_other _ ?_ other
  rw [crops]
  exact start_tracks _ _ _ _ _ _ _ (setTracks_other (s := (s.trackRead ctx rs old fl hdr).embedded rs fl) _ (read ▸ mem) other)

theorem trackPut_embq {x : EmbReq} (mem : x ∈ (s.trackPut ctx rs old fl hdr).trk.embq) :
    (x ∈ s.trk.embq ∧ rs.due fl.rill fl.frame x = false) ∨ (x.rill = fl.rill ∧ x.frame = fl.frame ∧ x.data = none) := by
  have read := (trackRead_keeps s ctx rs old fl hdr).trk.embq.resolve_left (by decide)
  have begun := (trackBegun_keeps s ctx rs old fl hdr).trk.embq.resolve_left (by decide)
  have put := (trackPut_keeps s ctx rs old fl hdr).trk.embq.resolve_left (by decide)
  rw [put] at mem
  rcases crops_embq _ _ _ _ _ mem with old_ | new
  · left
    rw [trackRuled_s, begun] at old_
    obtain ⟨inside, keep⟩ := List.mem_filter.1 old_
    exact ⟨read ▸ inside, by simpa using keep⟩
  · exact .inr new

/-- The rill's row keeps the frame's number. -/
theorem trackPut_row : (s.trackPut ctx rs old fl hdr).rillTrk fl.rill = s.trackRow ctx rs old fl hdr := by
  have put := (putTracks_keeps (.refl ((((s.trackCropped ctx rs old fl hdr).s.setTracks fl.rill (s.trackNow ctx rs old fl hdr)).setRillTrk fl.rill
    (s.trackRow ctx rs old fl hdr)))) (s.trackNow ctx rs old fl hdr) (Within.mem _)).trk.perRill.resolve_left (by decide)
  exact (rillTrk_congr put fl.rill).trans (rillTrk_setRillTrk_self ..)

theorem regOk_det : regOk .TRK_CNT_DET 0 0 = true := by decide +kernel

theorem trackPut_det : (s.trackPut ctx rs old fl hdr).reg .TRK_CNT_DET 0 0 =
    s.reg .TRK_CNT_DET 0 0 + BitVec.ofNat 64 (s.trackKept rs fl hdr).1.length := by
  have read : (s.trackRead ctx rs old fl hdr).s.reg .TRK_CNT_DET 0 0 = s.reg .TRK_CNT_DET 0 0 + BitVec.ofNat 64 (s.trackKept rs fl hdr).1.length := by
    have parts := Within.mem (setRillTrkChanges ++ fetchTrackChanges)
    rw [within_append] at parts
    have rest : Keeps (fun c => c ∈ setRillTrkChanges ++ fetchTrackChanges)
        ((s.readHeads rs fl.heads).1.addTo .TRK_CNT_DET 0 (s.trackKept rs fl hdr).1.length) (s.trackRead ctx rs old fl hdr).s := by
      unfold State.trackRead
      dsimp only
      refine TrkWork_embed_keeps (TrkWork_newRules_keeps (TrkWork_discontinue_keeps (TrkWork_fetch_keeps ?_ _ parts.2) _ _ parts.1) _ _ _ parts.1) _
      dsimp only
      rw [trackSeen_s]
      exact .refl _
    rw [rest.reg_eq (by decide) (by decide) regOk_det, addTo_reg _ _ _ _ regOk_det,
      (readHeads_keeps (.refl s) rs fl.heads (Within.mem _)).reg_eq (by decide) (by decide) regOk_det]
  rw [(trackPut_keeps s ctx rs old fl hdr).reg_eq (by decide) (by decide) regOk_det,
    (trackCropped_keeps s ctx rs old fl hdr).reg_eq (by decide) (by decide) regOk_det,
    (trackBegun_keeps s ctx rs old fl hdr).reg_eq (by decide) (by decide) regOk_det]
  exact read

end

/-! ## Records in a reset of the function (R400) -/

theorem metaRecord_reset {s : State} {k : MetaKey} (resets : (s.fn k.fn).flr ≠ .idle) (kind status : Nat) (body : List Byte) :
    s.metaRecord k kind status body = s := by
  have push : s.ringPush (s.metaCfg k.fn) (s.ring k.fn) (s.metaBytes k kind status body) = { s := s, ring := s.ring k.fn, res := .dropped } :=
    if_pos (by change ((s.fn k.fn).flr != .idle) = true; simpa using resets)
  unfold State.metaRecord
  rw [push]

theorem metaRecords_reset {s : State} {k : MetaKey} (resets : (s.fn k.fn).flr ≠ .idle) (l : List (Nat × Nat × List Byte)) : s.metaRecords k l = s := by
  induction l with
  | nil => rfl
  | cons x l ih =>
    obtain ⟨kind, status, body⟩ := x
    unfold State.metaRecords
    rw [metaRecord_reset resets, ih]

/-! ## What the lane's turn has no part in -/

/-- States in which a frame gives the same detections. -/
structure DetLike (s v : State) : Prop where
  put : PutLike s v
  read : ReadLike s v
  ldr : v.ldr = s.ldr

theorem scratchBase_congr {s v : State} (h : v.ldr = s.ldr) (ctx : Nat) : v.scratchBase ctx = s.scratchBase ctx := by
  unfold State.scratchBase
  rw [h]

theorem readHeads_congr {s v : State} (h : ReadLike s v) (ldr : v.ldr = s.ldr) (rs : RuleSet) (l : List (Nat × Nat × Nat × Item)) :
    (v.readHeads rs l).2 = (s.readHeads rs l).2 := by
  induction l generalizing s v with
  | nil => rfl
  | cons x l ih =>
    have ranges : v.itemRanges rs x = s.itemRanges rs x := by
      unfold State.itemRanges State.headRanges State.headAddr
      simp only [scratchBase_congr ldr]
    unfold State.readHeads
    dsimp only
    have more := ih (h.reads_snd portTrk (s.itemRanges rs x)) (((reads_keeps (.refl v) _ _ (Within.mem _)).ldr_eq (by decide)).trans
      (ldr.trans ((reads_keeps (.refl s) _ _ (Within.mem _)).ldr_eq (by decide)).symm))
    rw [ranges, h.reads_fst, more]
    split <;> rfl

theorem DetLike.cands {s v : State} (h : DetLike s v) (rs : RuleSet) (fl : Flow) (hdr : SeqHdr) : v.trackCands rs fl hdr = s.trackCands rs fl hdr := by
  have val : ∀ x i ch gy gx, v.headVal x i ch gy gx = s.headVal x i ch gy gx := fun x i ch gy gx => by
    unfold State.headVal State.headAddr
    rw [scratchBase_congr h.ldr, h.put.memRd]
  unfold State.trackCands
  rw [readHeads_congr h.read h.ldr]
  unfold State.frameCands State.headCands State.cellCands
  simp only [val]

theorem DetLike.kept {s v : State} (h : DetLike s v) (rs : RuleSet) (fl : Flow) (hdr : SeqHdr) : v.trackKept rs fl hdr = s.trackKept rs fl hdr := by
  unfold State.trackKept
  rw [h.cands]

end Sys2Proof.Machine
end

section
/-! SUPPORT. A track that starts (R258, R263). -/

set_option Elab.async false

namespace Sys2Proof.Machine

/-! ## What the rules leave of a track (R270 to R272) -/

/-- Two records of one track: its rill, number, class, state and place are the same. -/
structure Track.SameTrack (t x : Track) : Prop where
  rill : x.rill = t.rill
  id : x.id = t.id
  cls : x.cls = t.cls
  st : x.st = t.st
  store : x.store = t.store

theorem Track.SameTrack.refl (t : Track) : t.SameTrack t := ⟨rfl, rfl, rfl, rfl, rfl⟩

theorem Track.SameTrack.trans {t x y : Track} (h : t.SameTrack x) (g : x.SameTrack y) : t.SameTrack y :=
  ⟨g.rill.trans h.rill, g.id.trans h.id, g.cls.trans h.cls, g.st.trans h.st, g.store.trans h.store⟩

theorem Track.SameTrack.fired {t x : Track} (h : t.SameTrack x) (told : Bool) (v : Nat) (l m : List TrkEvent) :
    t.SameTrack (if told = true then ({ x with dwellFired := v }, l) else (x, m)).1 := by
  split
  · exact ⟨h.rill, h.id, h.cls, h.st, h.store⟩
  · exact h

theorem zone_same (t : Track) (f : Nat) (zs : List Zone) (i : Nat) (z : Zone) : t.SameTrack (t.zone f zs i z).1 := by
  unfold Track.zone
  split
  · exact .refl t
  · dsimp only
    refine Track.SameTrack.fired ?_ _ _ _ _
    split
    · exact ⟨rfl, rfl, rfl, rfl, rfl⟩
    · split <;> exact ⟨rfl, rfl, rfl, rfl, rfl⟩

theorem line_same (t : Track) (prev : Option Track) (i : Nat) (l : Line) : t.SameTrack (t.line prev i l).1 := by
  unfold Track.line
  split
  · exact .refl t
  · dsimp only
    split
    · exact .refl t
    · exact ⟨rfl, rfl, rfl, rfl, rfl⟩

theorem zonesFrom_same (t : Track) (f : Nat) (zs : List Zone) (l : List (Nat × Zone)) : t.SameTrack (t.zonesFrom f zs l).1 := by
  induction l generalizing t with
  | nil => exact .refl t
  | cons x l ih => exact (zone_same t f zs x.1 x.2).trans (ih _)

theorem linesFrom_same (t : Track) (prev : Option Track) (l : List (Nat × Line)) : t.SameTrack (t.linesFrom prev l).1 := by
  induction l generalizing t with
  | nil => exact .refl t
  | cons x l ih => exact (line_same t prev x.1 x.2).trans (ih _)

theorem rules_same (t : Track) (prev : Option Track) (f : Nat) (set : List Zone × List Line) : t.SameTrack (t.rules prev f set).1 :=
  (zonesFrom_same t f set.1 _).trans (linesFrom_same _ prev _)

/-! ## The rows of a rill without tracks -/

theorem setTracks_kept {s : State} {r : Nat} {ts : List Track} (kept : ∀ k ∈ s.rillTracks r, ∃ t ∈ ts, t.id = k.id) : s.setTracks r ts = s := by
  have none_ : (s.rillTracks r).filter (fun k => !ts.any (fun t => t.id = k.id)) = [] := by
    rw [List.filter_eq_nil_iff]
    intro k mem
    obtain ⟨t, inside, own⟩ := kept k mem
    rw [Bool.not_eq_true', Bool.not_eq_false, List.any_eq_true]
    exact ⟨t, inside, by simpa using own⟩
  unfold State.setTracks
  dsimp only
  rw [none_]
  unfold State.freeRecords
  simp

theorem fetch_live {w : TrkWork} (live : w.live = []) (broken : w.broken = []) (r f ctx : Nat) (old : Bool) (es : List EmbReq) :
    ((((w.fetch []).discontinue r f).newRules ctx r old).embed es).live = [] ∧
    ((((w.fetch []).discontinue r f).newRules ctx r old).embed es).broken = [] ∧
    (((((w.fetch []).discontinue r f).newRules ctx r old).embed es).s.rillTrk r).nextId = (w.s.rillTrk r).nextId := by
  have disc : (w.discontinue r f).live = [] ∧ (w.discontinue r f).broken = [] ∧ ((w.discontinue r f).s.rillTrk r).nextId = (w.s.rillTrk r).nextId := by
    unfold TrkWork.discontinue
    dsimp only
    split
    · exact ⟨rfl, broken, (by change ((State.setRillTrk _ _ _).rillTrk r).nextId = _; rw [rillTrk_setRillTrk_self])⟩
    · exact ⟨live, broken, rfl⟩
  have rules (v : TrkWork) (live : v.live = []) (broken : v.broken = []) : (v.newRules ctx r old).live = [] ∧ (v.newRules ctx r old).broken = [] ∧
      ((v.newRules ctx r old).s.rillTrk r).nextId = (v.s.rillTrk r).nextId := by
    unfold TrkWork.newRules
    split
    · exact ⟨live, broken, rfl⟩
    · dsimp only
      split
      · exact ⟨live, broken, rfl⟩
      · exact ⟨congrArg (List.map _) live, broken, (by change ((State.setRillTrk _ _ _).rillTrk r).nextId = _; rw [rillTrk_setRillTrk_self])⟩
  have embeds (v : TrkWork) (live : v.live = []) : (v.embed es).live = [] ∧ (v.embed es).broken = v.broken ∧ (v.embed es).s = v.s := by
    induction es generalizing v with
    | nil => exact ⟨live, rfl, rfl⟩
    | cons e es ih =>
      unfold TrkWork.embed
      split
      · exact ih _ (congrArg (updWhere _ _) live)
      · exact ih _ live
  obtain ⟨liveD, brokenD, idD⟩ := disc
  obtain ⟨liveR, brokenR, idR⟩ := rules (w.discontinue r f) liveD brokenD
  obtain ⟨liveE, brokenE, sameE⟩ := embeds ((w.discontinue r f).newRules ctx r old) liveR
  refine ⟨liveE, brokenE.trans brokenR, ?_⟩
  change ((((w.discontinue r f).newRules ctx r old).embed es).s.rillTrk r).nextId = _
  rw [sameE, idR, idD]

theorem trackSeen_live (s : State) (rs : RuleSet) (fl : Flow) (hdr : SeqHdr) : (s.trackSeen rs fl hdr).live = [] ∧ (s.trackSeen rs fl hdr).broken = [] := by
  have reports (w : TrkWork) (l : List W16) : (w.reports l).live = w.live ∧ (w.reports l).broken = w.broken := by
    induction l generalizing w with
    | nil => exact ⟨rfl, rfl⟩
    | cons st l ih => exact ih _
  unfold State.trackSeen
  dsimp only
  split <;> split <;> exact reports _ _

/-- What is read before tracks start leaves the list of tracks. -/
theorem trackRead_tracks (s : State) (ctx : Nat) (rs : RuleSet) (old : Bool) (fl : Flow) (hdr : SeqHdr) : ((s.trackRead ctx rs old fl hdr).embedded rs fl).trk.tracks = s.trk.tracks :=
  (trackRead_keeps s ctx rs old fl hdr).trk.tracks.resolve_left (by decide)

section
variable {s : State} {ctx : Nat} {rs : RuleSet} {old : Bool} {fl : Flow} {hdr : SeqHdr} (bare : s.rillTracks fl.rill = [])
include bare

theorem trackRead_bare : (s.trackRead ctx rs old fl hdr).live = [] ∧ (s.trackRead ctx rs old fl hdr).broken = [] ∧
    ((s.trackRead ctx rs old fl hdr).s.rillTrk fl.rill).nextId = (s.rillTrk fl.rill).nextId := by
  obtain ⟨live, broken⟩ := trackSeen_live s rs fl hdr
  unfold State.trackRead
  dsimp only
  rw [bare]
  obtain ⟨liveR, brokenR, id_⟩ := fetch_live (w :=
    { s.trackSeen rs fl hdr with s := (s.trackSeen rs fl hdr).s.addTo .TRK_CNT_DET 0 (s.trackKept rs fl hdr).1.length }) live broken fl.rill fl.frame ctx old (s.trk.embq.filter (rs.due fl.rill fl.frame))
  refine ⟨liveR, brokenR, id_.trans ?_⟩
  dsimp only
  rw [trackSeen_s]
  refine congrArg RillTrk.nextId (rillTrk_congr ?_ _)
  have read := (readHeads_keeps (.refl s) rs fl.heads (Within.mem _)).trk.perRill.resolve_left (by decide)
  exact ((addTo_keeps (cs := fun c => c ∈ [Comp.reg .TRK_CNT_DET]) (.refl _) .TRK_CNT_DET 0 _ (.inr (by decide))).trk.perRill.resolve_left
    (by decide)).trans read

theorem embedded_bare (ts : List Track) : ((s.trackRead ctx rs old fl hdr).embedded rs fl).setTracks fl.rill ts =
    (s.trackRead ctx rs old fl hdr).embedded rs fl := by
  refine setTracks_kept fun k mem => ?_
  unfold State.rillTracks at mem bare
  rw [trackRead_tracks s ctx rs old fl hdr, bare] at mem
  cases mem

theorem matched_bare (f : Nat) (dets : List Cand) : (s.trackRead ctx rs old fl hdr).matched rs f dets = [] := by
  obtain ⟨live, -⟩ := trackRead_bare (ctx := ctx) (rs := rs) (old := old) (hdr := hdr) bare
  have none_ : pairsOf rs f dets [] = [] := congrArg (sortBy PairOf.le) (List.flatMap_eq_nil_iff.2 fun _ _ => rfl)
  unfold TrkWork.matched
  rw [live, none_]
  rfl

theorem trackBegun_bare : s.trackBegun ctx rs old fl hdr = TrkWork.start { s.trackRead ctx rs old fl hdr with
    s := (s.trackRead ctx rs old fl hdr).embedded rs fl } rs fl.rill (fl.frame % 2 ^ 64) 0 (freeCands rs [] (s.trackKept rs fl hdr).1) [] := by
  obtain ⟨live, -⟩ := trackRead_bare (ctx := ctx) (rs := rs) (old := old) (hdr := hdr) bare
  have stay : (s.trackRead ctx rs old fl hdr).stay = [] := by
    unfold TrkWork.stay
    rw [live]
    rfl
  unfold State.trackBegun
  dsimp only
  rw [stay, embedded_bare bare, matched_bare bare]
  rfl

theorem trackRuled_bare : s.trackRuled ctx rs old fl hdr = (s.trackBegun ctx rs old fl hdr).1.ruleUnit (fl.frame % 2 ^ 64) (s.zoneSet rs fl.rill)
    (sortBy (fun a b : After => decide (a.now.id ≤ b.now.id)) ((s.trackBegun ctx rs old fl hdr).2.map
      (fun x : Nat × Track => ({ now := x.2, prev := none, det := some x.1 } : After)))) [] := by
  obtain ⟨live, -⟩ := trackRead_bare (ctx := ctx) (rs := rs) (old := old) (hdr := hdr) bare
  unfold State.trackRuled
  dsimp only
  rw [live]
  rfl

end

/-! ## One detection that starts a track -/

theorem freeStore_congr {s v : State} (h : v.trk.tracks = s.trk.tracks) : v.freeStore = s.freeStore := by
  unfold State.freeStore
  rw [h]

theorem newTrack_fields (s : State) (r f place : Nat) (d : Cand) (confirm : Bool) : let t := (s.newTrack r f place d confirm).2
    t.rill = r ∧ t.id = (s.rillTrk r).nextId ∧ t.cls = d.cls ∧ t.st = (if confirm then .confirmed else .tentative) ∧ t.store = place := by
  unfold State.newTrack
  dsimp only
  cases confirm <;> exact ⟨rfl, rfl, rfl, rfl, rfl⟩

theorem cachePut_find (s : State) (i : Nat) (bs : List Byte) : (s.cachePut i bs).trk.cache.find? (fun x => x.1 = i) = some (i, bs) := by
  have cache : (s.cachePut i bs).trk.cache = ((i, bs) :: s.trk.cache.filter (fun x => x.1 != i)).take 32768 := by
    unfold State.cachePut
    dsimp only
    split
    · exact (memPut_keeps (.refl _) portTrk _ _ (Within.mem _)).trk.cache.resolve_left (by decide)
    · rfl
  rw [cache]
  exact List.find?_cons_of_pos (by simp)

theorem recordBytes_cached {s : State} {i : Nat} {bs : List Byte} (found : s.trk.cache.find? (fun x => x.1 = i) = some (i, bs)) :
    s.recordBytes i = bs := by
  unfold State.recordBytes
  rw [found]

section
variable {s : State} {ctx : Nat} {rs : RuleSet} {old : Bool} {fl : Flow} {hdr : SeqHdr} (bare : s.rillTracks fl.rill = []) {c : Cand} {place : Nat}
  (kept : (s.trackKept rs fl hdr).1 = [c]) (tracks : rs.tracks c.cls = true) (room : 0 < rs.maxTracks)
  (high : ∃ y, rs.classes[c.cls]? = some y ∧ y.startThr ≤ c.score) (free : s.freeStore = some place)
include bare kept tracks room high free

/-- The track that starts, and the state in which it has its record. -/
theorem trackBegun_one : (s.trackBegun ctx rs old fl hdr).2 = [(0, (((s.trackRead ctx rs old fl hdr).embedded rs fl).newTrack fl.rill (fl.frame % 2 ^ 64) place c
      (rs.confirmHits = 1)).2)] ∧
    (s.trackBegun ctx rs old fl hdr).1.s = (((s.trackRead ctx rs old fl hdr).embedded rs fl).newTrack fl.rill (fl.frame % 2 ^ 64) place c (rs.confirmHits = 1)).1 := by
  have only : freeCands rs [] [c] = [(0, c)] := by
    obtain ⟨y, own, enough⟩ := high
    simp [freeCands, indexed, tracks, own, enough]
  have spot : ((s.trackRead ctx rs old fl hdr).embedded rs fl).freeStore = some place := (freeStore_congr (trackRead_tracks s ctx rs old fl hdr)).trans free
  rw [trackBegun_bare bare, kept, only]
  unfold TrkWork.start
  dsimp only
  rw [if_neg (by omega), spot]
  exact ⟨rfl, rfl⟩

/-- The rill's tracks after a frame that starts one: that track alone, and its record. -/
theorem trackPut_one : let t := s.trackPut ctx rs old fl hdr
    t.trk.tracks = s.trk.tracks ++ [{ rill := fl.rill, id := (s.rillTrk fl.rill).nextId, store := place }] ∧
    ∃ x : Track, t.trk.cache.find? (fun y => y.1 = place) = some (place, x.bytes) ∧ x.rill = fl.rill ∧ x.id = (s.rillTrk fl.rill).nextId ∧ x.cls = c.cls ∧
      x.st = if rs.confirmHits = 1 then .confirmed else .tentative := by
  dsimp only
  obtain ⟨new, begun⟩ := trackBegun_one (ctx := ctx) (old := old) bare kept tracks room high free
  obtain ⟨-, -, nextId⟩ := trackRead_bare (ctx := ctx) (rs := rs) (old := old) (hdr := hdr) bare
  have fields := newTrack_fields ((s.trackRead ctx rs old fl hdr).embedded rs fl) fl.rill (fl.frame % 2 ^ 64) place c (rs.confirmHits = 1)
  have listed := newTrack_tracks ((s.trackRead ctx rs old fl hdr).embedded rs fl) fl.rill (fl.frame % 2 ^ 64) place c (rs.confirmHits = 1)
  rw [trackRead_tracks s ctx rs old fl hdr] at listed
  rw [← begun] at listed
  have crops := (trackCropped_keeps s ctx rs old fl hdr).trk.tracks.resolve_left (by decide)
  have ruled := trackRuled_bare (ctx := ctx) (rs := rs) (old := old) (hdr := hdr) bare
  rw [new] at ruled
  generalize (((s.trackRead ctx rs old fl hdr).embedded rs fl).newTrack fl.rill (fl.frame % 2 ^ 64) place c (rs.confirmHits = 1)).2 = t at *
  obtain ⟨rill, id_, cls, st, store⟩ := fields
  have id_ : t.id = (s.rillTrk fl.rill).nextId := id_.trans nextId
  obtain ⟨x, same, now⟩ : ∃ x, t.SameTrack x ∧ s.trackNow ctx rs old fl hdr = [x] := by
    unfold State.trackNow
    rw [ruled]
    change ∃ x, _ ∧ ((TrkWork.ruleUnit _ _ _ [{ now := t, prev := none, det := some 0 }] []).2.map (·.now)) = [x]
    unfold TrkWork.ruleUnit
    split
    · exact ⟨_, rules_same t none (fl.frame % 2 ^ 64) (s.zoneSet rs fl.rill), rfl⟩
    · exact ⟨t, .refl t, rfl⟩
  have still : (s.trackCropped ctx rs old fl hdr).s.setTracks fl.rill [x] = (s.trackCropped ctx rs old fl hdr).s := by
    refine setTracks_kept fun k mem => ⟨x, List.mem_singleton.2 rfl, ?_⟩
    have inside := (mem_sortBy ..).1 mem
    rw [crops, listed, List.filter_append, List.mem_append] at inside
    rcases inside with before | is_
    · have was := (mem_sortBy (fun a b : TrackRef => decide (a.id ≤ b.id)) _ _).2 before
      unfold State.rillTracks at bare
      rw [bare] at was
      cases was
    · rw [List.mem_singleton.1 (List.mem_filter.1 is_).1]
      exact same.id
  have put : s.trackPut ctx rs old fl hdr = (((s.trackCropped ctx rs old fl hdr).s.setRillTrk fl.rill (s.trackRow ctx rs old fl hdr)).cachePut x.store x.bytes) := by
    unfold State.trackPut
    rw [now, still]
    rfl
  rw [put]
  refine ⟨?_, x, ?_, same.rill.trans rill, same.id.trans id_, same.cls.trans cls, ?_⟩
  · rw [(cachePut_keeps (.refl _) _ _ (Within.mem _)).trk.tracks.resolve_left (by decide)]
    exact crops.trans (by rw [listed, id_])
  · rw [← store, ← same.store]
    exact cachePut_find _ _ _
  · rw [same.st, st]
    simp

end

end Sys2Proof.Machine
end

section
/-! SUPPORT. The frame-end record alone (R275), and TRACK_COMMAND (R247 to R277, R282). -/

set_option Elab.async false

namespace Sys2Proof.Machine

/-! ## A frame-end record -/

/-- A frame-end record that is written raises its ring's source (R273). -/
theorem metaRecord_end {s : State} {k : MetaKey} (low : k.fn < 32) (takes : s.ringTakes k.fn) (status : Nat) (body : List Byte) :
    (s.metaRecord k 5 status body).out = s.out ++ s.metaWrites k 5 status body ∧ raised (32 + k.fn) s (s.metaRecord k 5 status body) := by
  have push := ringPush_takes takes (s.metaBytes k 5 status body)
  have eq : s.metaRecord k 5 status body = ((s.ringWrite (s.metaCfg k.fn) (s.ring k.fn).renew (s.metaBytes k 5 status body)).s.setRing k.fn
      (s.ringWrite (s.metaCfg k.fn) (s.ring k.fn).renew (s.metaBytes k 5 status body)).ring).raise (32 + k.fn) := by
    unfold State.metaRecord
    rw [push]
    exact if_pos rfl
  have first := hostWrite_out s k.fn ((s.metaCfg k.fn).addr + 64 + (s.metaCfg k.fn).size * ((s.ring k.fn).renew.prod % (s.metaCfg k.fn).entries))
    (s.metaBytes k 5 status body (s.ring k.fn).renew.lost)
  have second := hostWrite_out (s.hostWrite k.fn ((s.metaCfg k.fn).addr + 64 + (s.metaCfg k.fn).size * ((s.ring k.fn).renew.prod % (s.metaCfg k.fn).entries))
    (s.metaBytes k 5 status body (s.ring k.fn).renew.lost)) k.fn (s.metaCfg k.fn).addr (leBytes 4 (((s.ring k.fn).renew.prod + 1) % 2 ^ 32))
  rw [first, List.append_assoc] at second
  have wrote : (s.ringWrite (s.metaCfg k.fn) (s.ring k.fn).renew (s.metaBytes k 5 status body)).s.out = s.out ++ s.metaWrites k 5 status body := second
  have kept : SrcKept (32 + k.fn) s (s.ringWrite (s.metaCfg k.fn) (s.ring k.fn).renew (s.metaBytes k 5 status body)).s := by
    have written := hostWrite_keeps (hostWrite_keeps (.refl s) k.fn ((s.metaCfg k.fn).addr + 64 + (s.metaCfg k.fn).size * ((s.ring k.fn).renew.prod % (s.metaCfg k.fn).entries))
      (s.metaBytes k 5 status body (s.ring k.fn).renew.lost) (Within.mem _)) k.fn (s.metaCfg k.fn).addr (leBytes 4 (((s.ring k.fn).renew.prod + 1) % 2 ^ 32)) (Within.mem _)
    exact .of_keeps (by omega) written (.of_icu (written.icu_eq (by decide)))
  rw [eq]
  generalize s.ringWrite (s.metaCfg k.fn) (s.ring k.fn).renew (s.metaBytes k 5 status body) = w at *
  have quiet : ((w.s.setRing k.fn w.ring).raise (32 + k.fn)).out = (w.s.setRing k.fn w.ring).out :=
    (raise_keeps (.refl _) (32 + k.fn) (Within.mem _)).out.resolve_left (by decide)
  exact ⟨quiet.trans wrote, SrcKept.raise (by omega) (kept.trans (.of_eq rfl rfl rfl))⟩

/-! ## A frame of which there is nothing to tell -/

section
variable {s : State} {ctx : Nat} {rs : RuleSet} {old : Bool} {fl : Flow} {hdr : SeqHdr} (bare : s.rillTracks fl.rill = []) (heads : fl.heads = [])
include heads

theorem trackCands_none : s.trackCands rs fl hdr = [] := by
  unfold State.trackCands State.frameCands
  rw [heads]
  rfl

theorem trackKept_none : s.trackKept rs fl hdr = ([], false) := by
  unfold State.trackKept
  rw [trackCands_none heads, List.take_nil]
  rfl

theorem trackSeen_none : s.trackSeen rs fl hdr = { s := s, status := fl.status, flags := fl.flags, events := [], live := [], broken := [] } := by
  unfold State.trackSeen
  dsimp only
  rw [trackCands_none heads, trackKept_none heads, heads]
  dsimp only [List.length_nil]
  rw [if_neg (by decide), if_neg (by simp)]
  rfl

include bare

theorem trackBegun_none : s.trackBegun ctx rs old fl hdr = ({ s.trackRead ctx rs old fl hdr with s := (s.trackRead ctx rs old fl hdr).embedded rs fl }, []) := by
  rw [trackBegun_bare bare, trackKept_none heads]
  rfl

theorem trackRuled_none : s.trackRuled ctx rs old fl hdr = ({ s.trackRead ctx rs old fl hdr with s := (s.trackRead ctx rs old fl hdr).embedded rs fl }, []) := by
  rw [trackRuled_bare bare, trackBegun_none bare heads]
  rfl

theorem trackCropped_none : s.trackCropped ctx rs old fl hdr = { s.trackRead ctx rs old fl hdr with s := (s.trackRead ctx rs old fl hdr).embedded rs fl } := by
  unfold State.trackCropped
  rw [trackRuled_none bare heads]
  dsimp only
  rw [List.filter_nil, List.take_nil]
  rfl

variable (waits : s.trk.embq = [])
include waits

/-- What is read of such a frame: its status and flags, and nothing else. -/
theorem trackRead_none : (s.trackRead ctx rs old fl hdr).status = fl.status ∧ (s.trackRead ctx rs old fl hdr).flags = fl.flags ∧
    (s.trackRead ctx rs old fl hdr).events = [] := by
  unfold State.trackRead
  dsimp only
  rw [trackSeen_none heads, bare, waits]
  generalize start : ({ s := s.addTo .TRK_CNT_DET 0 (s.trackKept rs fl hdr).1.length, status := fl.status, flags := fl.flags, events := [], live := [], broken := [] } : TrkWork) = w
  have events : w.events = [] ∧ w.live = [] ∧ w.status = fl.status ∧ w.flags = fl.flags := by
    rw [← start]
    exact ⟨rfl, rfl, rfl, rfl⟩
  obtain ⟨events, live, status, flags⟩ := events
  have disc : (w.discontinue fl.rill fl.frame).status = w.status ∧ (w.discontinue fl.rill fl.frame).flags = w.flags ∧ (w.discontinue fl.rill fl.frame).events = [] := by
    unfold TrkWork.discontinue
    dsimp only
    split
    · refine ⟨rfl, rfl, ?_⟩
      rw [events, live]
      rfl
    · exact ⟨rfl, rfl, events⟩
  have rules (v : TrkWork) : (v.newRules ctx fl.rill old).status = v.status ∧ (v.newRules ctx fl.rill old).flags = v.flags ∧
      (v.newRules ctx fl.rill old).events = v.events := by
    unfold TrkWork.newRules
    split
    · exact ⟨rfl, rfl, rfl⟩
    · dsimp only
      split
      · exact ⟨rfl, rfl, rfl⟩
      · exact ⟨rfl, rfl, rfl⟩
  obtain ⟨statusD, flagsD, eventsD⟩ := disc
  obtain ⟨statusR, flagsR, eventsR⟩ := rules (w.discontinue fl.rill fl.frame)
  exact ⟨(statusR.trans statusD).trans status, (flagsR.trans flagsD).trans flags, eventsR.trans eventsD⟩

/-- Its frame's work changes the rill's row alone. -/
theorem trackPut_none : Keeps (fun c => c ∈ setRillTrkChanges ++ [.reg .TRK_CNT_DET, .trkEmbq]) s (s.trackPut ctx rs old fl hdr) := by
  have parts := Within.mem (setRillTrkChanges ++ [Comp.reg .TRK_CNT_DET, .trkEmbq])
  rw [within_append] at parts
  obtain ⟨row, hd⟩ := parts
  have read : Keeps (fun c => c ∈ setRillTrkChanges ++ [.reg .TRK_CNT_DET, .trkEmbq]) s (s.trackRead ctx rs old fl hdr).s := by
    unfold State.trackRead
    dsimp only
    rw [trackSeen_none heads, bare, waits]
    exact TrkWork_newRules_keeps (TrkWork_discontinue_keeps (addTo_keeps (.refl s) .TRK_CNT_DET 0 _ (.inr (hd.of (by decide)))) _ _ row) _ _ _ row
  have embedded : Keeps (fun c => c ∈ setRillTrkChanges ++ [.reg .TRK_CNT_DET, .trkEmbq]) s ((s.trackRead ctx rs old fl hdr).embedded rs fl) := by
    unfold TrkWork.embedded
    exact keeps_mk read
  have now : s.trackNow ctx rs old fl hdr = [] := by
    unfold State.trackNow
    rw [trackRuled_none bare heads]
    rfl
  unfold State.trackPut
  rw [now, trackCropped_none bare heads]
  dsimp only
  rw [embedded_bare bare]
  exact setRillTrk_keeps embedded _ _ row

theorem trackTold_none (clean : fl.status = 0) (health : rs.health = 0) : s.trackTold ctx rs old fl hdr =
    [(5, 0, frameEndBody 0 0 0 fl.flags ((rs.heads.head?.map (·.ctx)).getD 0xFFFF) 0)] := by
  obtain ⟨status, flags, events⟩ := trackRead_none (ctx := ctx) (rs := rs) (old := old) (hdr := hdr) bare heads waits
  have head : headOf rs fl = (rs.heads.head?.map (·.ctx)).getD 0xFFFF := by
    unfold headOf
    rw [heads]
    cases rs.heads <;> rfl
  unfold State.trackTold
  rw [trackCropped_none bare heads, trackRuled_none bare heads, trackKept_none heads, trackCands_none heads, head]
  unfold TrkWork.records frameRecords
  dsimp only
  rw [status, flags, events, clean, health]
  cases bitAt rs.flags 0 <;> cases bitAt rs.flags 1 <;> rfl

end

end Sys2Proof.Machine
end

section
/-! SUPPORT. TRACK_COMMAND (R247 to R277, R282). -/

set_option Elab.async false

namespace Sys2Proof.Machine

/-! ## The lane of a track command -/

theorem laneTurn_holder {s u : State} {e : CtxEntry} {k : Nat} (turn : s.laneTurn e = some (k, u)) (idle : s.idleLanes e.id = []) :
    u.holder k = some e.id := by
  unfold State.laneTurn at turn
  rw [idle] at turn
  dsimp only at turn
  split at turn
  · cases turn
  · obtain ⟨rfl, rfl⟩ := Prod.mk.inj (Option.some.inj (Option.ite_none_right_eq_some.1 turn).2)
    have started (w : State) (l : List Nat) (n : Nat) : (w.startSlice e.id l).holder n = w.holder n := rfl
    rw [started, holder_takeLane, if_pos rfl]

/-- Whether a track command can be performed (R247, R335, R373). -/
def State.mayTrack (s : State) (e : CtxEntry) (rs : RuleSet) (fl : Flow) : Prop :=
  e.kind = 3 ∧ s.domainLive .track = true ∧ s.weir.coolant = .none ∧ s.flowReady e fl = true ∧ s.trackReach rs fl = true

theorem mayTrack_iff (s : State) (e : CtxEntry) (rs : RuleSet) (fl : Flow) :
    (e.kind = 3 && s.domainLive .track && !s.coolantHeld && s.flowReady e fl && s.trackReach rs fl) = true ↔ s.mayTrack e rs fl := by
  unfold State.mayTrack State.coolantHeld
  cases s.weir.coolant <;> simp [and_assoc]

/-- The state in which a rill's command runs. -/
def State.tookFrame (t : State) (ctx rill frame k : Nat) : State := t.setRillTrk rill { t.rillTrk rill with running := some (ctx, frame, k) }

theorem exec_trackCommand_none {s : State} {ctx rill frame : Nat} (no : s.flow rill frame = none ∨ s.ctxEntry ctx = none) :
    exec (.trackCommand ctx rill frame) s = .next s := by
  change execTrackCommand ctx rill frame s = _
  unfold execTrackCommand
  rcases no with no | no
  · rw [no]
  · rw [no]
    cases s.flow rill frame <;> rfl

section
variable {s : State} {ctx rill frame : Nat} {fl : Flow} {e : CtxEntry} (flow : s.flow rill frame = some fl) (entry : s.ctxEntry ctx = some e)
include flow entry

theorem exec_trackCommand_unruled (no : s.rulesOf ctx (s.oldFor ctx fl.captureTs fl.stamp) = none) :
    exec (.trackCommand ctx rill frame) s = .next s := by
  change execTrackCommand ctx rill frame s = _
  unfold execTrackCommand
  rw [flow, entry]
  dsimp only
  rw [no]

variable {rs : RuleSet} (rules : s.rulesOf ctx (s.oldFor ctx fl.captureTs fl.stamp) = some rs)
include rules

theorem exec_trackCommand_no (no : ¬ s.mayTrack e rs fl ∨ s.laneTurn e = none) : exec (.trackCommand ctx rill frame) s = .next s := by
  change execTrackCommand ctx rill frame s = _
  unfold execTrackCommand
  rw [flow, entry]
  dsimp only
  rw [rules]
  by_cases may : s.mayTrack e rs fl
  · have wait := no.resolve_left (not_not_intro may)
    refine congrArg _ ((when_eq s ((mayTrack_iff s e rs fl).2 may) _).trans ?_)
    rw [wait]
  · exact congrArg _ (when_neg s (mt (mayTrack_iff s e rs fl).1 may) _)

theorem exec_trackCommand_turn (may : s.mayTrack e rs fl) {k : Nat} {u : State} (turn : s.laneTurn e = some (k, u)) :
    exec (.trackCommand ctx rill frame) s = .next ((u.trackFrame ctx rs (s.oldFor ctx fl.captureTs fl.stamp) fl
      (((s.frame rill frame).map (·.hdr)).getD noHdr)).tookFrame ctx rill frame k) := by
  change execTrackCommand ctx rill frame s = _
  unfold execTrackCommand
  rw [flow, entry]
  dsimp only
  rw [rules]
  refine congrArg _ ((when_eq s ((mayTrack_iff s e rs fl).2 may) _).trans ?_)
  rw [turn]
  cases s.frame rill frame <;> rfl

end

/-! ## A track command's frame -/

section
variable (u : State) (ctx : Nat) (rs : RuleSet) (old : Bool) (fl : Flow) (hdr : SeqHdr)

/-- What a frame leaves of the embedding queue, of other rills' tracks and of what is sent (R265, R267, R400). -/
theorem trackFrame_leaves :
    ((u.trackFrame ctx rs old fl hdr).rillTrk fl.rill).lastFrame = some fl.frame ∧
    (∀ x ∈ (u.trackFrame ctx rs old fl hdr).trk.embq, (x ∈ u.trk.embq ∧ rs.due fl.rill fl.frame x = false) ∨
      (x.rill = fl.rill ∧ x.frame = fl.frame ∧ x.data = none)) ∧
    (∀ x ∈ u.trk.tracks, x.rill ≠ fl.rill → x ∈ (u.trackFrame ctx rs old fl hdr).trk.tracks) ∧
    ((u.fn fl.fn).flr ≠ .idle → (u.trackFrame ctx rs old fl hdr).out = u.out) := by
  have begun := startAttachment_keeps (.refl u) fl.rill fl.frame (Within.mem _)
  have subset := fun x => startAttachment_embq u fl.rill fl.frame (x := x)
  have others := fun x => startAttachment_tracks u fl.rill fl.frame (x := x)
  rw [trackFrame_eq]
  generalize u.startAttachment fl.rill fl.frame = b at *
  have told := metaRecords_keeps (.refl (b.trackPut ctx rs old fl hdr)) fl.trackKey (b.trackTold ctx rs old fl hdr) (Within.mem _)
  have put := trackPut_all b ctx rs old fl hdr
  refine ⟨?_, fun x mem => ?_, fun x mem other => ?_, fun resets => ?_⟩
  · rw [rillTrk_congr (told.trk.perRill.resolve_left (by decide)), trackPut_row]
    rfl
  · rw [told.trk.embq.resolve_left (by decide)] at mem
    exact (trackPut_embq b ctx rs old fl hdr mem).imp_left fun kept => ⟨subset x kept.1, kept.2⟩
  · rw [told.trk.tracks.resolve_left (by decide)]
    exact trackPut_tracks b ctx rs old fl hdr (others x mem other) other
  · have fns : (b.trackPut ctx rs old fl hdr).fns = u.fns := (put.fns_eq (by decide)).trans (begun.fns_eq (by decide))
    rw [metaRecords_reset (k := fl.trackKey) (by rw [fn_congr fns]; exact resets)]
    exact (put.out.resolve_left (by decide)).trans (begun.out.resolve_left (by decide))

variable (same : ∀ l, (u.rillTrk fl.rill).lastFrame = some l → l / 2 ^ 64 = fl.frame / 2 ^ 64)
include same

theorem trackFrame_same : u.trackFrame ctx rs old fl hdr = (u.trackPut ctx rs old fl hdr).metaRecords fl.trackKey (u.trackTold ctx rs old fl hdr) := by
  rw [trackFrame_eq, startAttachment_same same]

theorem trackFrame_det : (u.trackFrame ctx rs old fl hdr).reg .TRK_CNT_DET 0 0 =
    u.reg .TRK_CNT_DET 0 0 + BitVec.ofNat 64 (u.trackKept rs fl hdr).1.length := by
  rw [trackFrame_same u ctx rs old fl hdr same]
  exact ((metaRecords_keeps (.refl _) _ _ (Within.mem _)).reg_eq (by decide) (by decide) regOk_det).trans (trackPut_det ..)

/-- A frame whose one detection starts a track (R258, R263). -/
theorem trackFrame_one {c : Cand} {place : Nat} (bare : u.rillTracks fl.rill = []) (kept : (u.trackKept rs fl hdr).1 = [c])
    (tracks : rs.tracks c.cls = true) (room : 0 < rs.maxTracks) (high : ∃ y, rs.classes[c.cls]? = some y ∧ y.startThr ≤ c.score)
    (free : u.freeStore = some place) :
    (u.trackFrame ctx rs old fl hdr).trk.tracks = u.trk.tracks ++ [{ rill := fl.rill, id := (u.rillTrk fl.rill).nextId, store := place }] ∧
    ∃ x : Track, (u.trackFrame ctx rs old fl hdr).recordBytes place = x.bytes ∧ x.rill = fl.rill ∧ x.id = (u.rillTrk fl.rill).nextId ∧
      x.cls = c.cls ∧ x.st = if rs.confirmHits = 1 then .confirmed else .tentative := by
  have told := metaRecords_keeps (.refl (u.trackPut ctx rs old fl hdr)) fl.trackKey (u.trackTold ctx rs old fl hdr) (Within.mem _)
  obtain ⟨listed, x, found, rill, id_, cls, st⟩ := trackPut_one (ctx := ctx) (old := old) bare kept tracks room high free
  rw [trackFrame_same u ctx rs old fl hdr same]
  refine ⟨(told.trk.tracks.resolve_left (by decide)).trans listed, x, recordBytes_cached ?_, rill, id_, cls, st⟩
  rw [told.trk.cache.resolve_left (by decide)]
  exact found

/-- A frame of which there is nothing to tell: its frame-end record alone (R275). -/
theorem trackFrame_none (low : fl.fn < 32) (takes : u.ringTakes fl.fn) (heads : fl.heads = []) (bare : u.rillTracks fl.rill = [])
    (waits : u.trk.embq = []) (clean : fl.status = 0) (health : rs.health = 0) :
    (u.trackFrame ctx rs old fl hdr).out = u.out ++ u.metaWrites fl.trackKey 5 0
      (frameEndBody 0 0 0 fl.flags ((rs.heads.head?.map (·.ctx)).getD 0xFFFF) 0) ∧ raised (32 + fl.fn) u (u.trackFrame ctx rs old fl hdr) := by
  have put := trackPut_none (ctx := ctx) (rs := rs) (old := old) (hdr := hdr) bare heads waits
  have like : MetaLike u (u.trackPut ctx rs old fl hdr) fl.fn := .of_keeps low put
  obtain ⟨wrote, raises⟩ := metaRecord_end (k := fl.trackKey) low (like.takes takes) 0
    (frameEndBody 0 0 0 fl.flags ((rs.heads.head?.map (·.ctx)).getD 0xFFFF) 0)
  rw [trackFrame_same u ctx rs old fl hdr same, trackTold_none bare heads waits clean health]
  refine ⟨?_, SrcKept.raised (.of_keeps (by omega) put (.of_icu (put.icu_eq (by decide)))) raises⟩
  rw [MetaLike.writes (k := fl.trackKey) like, put.out.resolve_left (by decide)] at wrote
  exact wrote

end

end Sys2Proof.Machine
end

section
/-! SUPPORT. O53 (R247 to R277, R282, R302). -/

set_option Elab.async false

namespace Sys2Proof.Machine

theorem rillTracks_congr {s v : State} (h : v.trk.tracks = s.trk.tracks) (r : Nat) : v.rillTracks r = s.rillTracks r := by
  unfold State.rillTracks
  rw [h]

theorem tookFrame_tracks (t : State) (ctx rill frame k : Nat) : (t.tookFrame ctx rill frame k).trk.tracks = t.trk.tracks ∧
    ∀ i, (t.tookFrame ctx rill frame k).recordBytes i = t.recordBytes i := ⟨rfl, fun _ => rfl⟩

section
variable {s u : State} {l : Nat} {e : CtxEntry} (turn : s.laneTurn e = some (l, u)) (ctx : Nat) (rs : RuleSet) (old : Bool) (fl : Flow) (hdr : SeqHdr)
include turn

theorem laneTurn_kept : Keeps (fun c => c ∈ laneTurnChanges) s u := laneTurn_keepsq (.refl s) (Within.mem _) turn

theorem laneTurn_trk : u.trk = s.trk := (laneTurn_kept turn).trk_eq (by decide)

theorem laneTurn_row (r : Nat) : u.rillTrk r = s.rillTrk r := rillTrk_congr (congrArg TrackEng.perRill (laneTurn_trk turn)) r

theorem laneTurn_bare {r : Nat} (bare : s.rillTracks r = []) : u.rillTracks r = [] :=
  (rillTracks_congr (congrArg TrackEng.tracks (laneTurn_trk turn)) r).trans bare

theorem laneTurn_dets : u.trackKept rs fl hdr = s.trackKept rs fl hdr :=
  have k := laneTurn_kept turn
  DetLike.kept ⟨.of_keeps k, .of_keeps k, k.ldr_eq (by decide)⟩ rs fl hdr

/-- What a track command leaves, whatever the frame (R265, R267, R400). -/
theorem trackCommand_leaves : let t := (u.trackFrame ctx rs old fl hdr).tookFrame ctx fl.rill fl.frame l
    t.slu.holder = u.slu.holder ∧ t.slu.slices = u.slu.slices ∧ (t.rillTrk fl.rill).running = some (ctx, fl.frame, l) ∧
    (t.rillTrk fl.rill).lastFrame = some fl.frame ∧
    (∀ x ∈ t.trk.embq, (x ∈ s.trk.embq ∧ rs.due fl.rill fl.frame x = false) ∨ (x.rill = fl.rill ∧ x.frame = fl.frame ∧ x.data = none)) ∧
    (∀ x ∈ s.trk.tracks, x.rill ≠ fl.rill → x ∈ t.trk.tracks) ∧ ((s.fn fl.fn).flr ≠ .idle → t.out = s.out) := by
  have k := laneTurn_kept turn
  have framed := trackFrame_keeps (.refl u) ctx rs old fl hdr (Within.mem _)
  obtain ⟨last, queue, others, resets⟩ := trackFrame_leaves u ctx rs old fl hdr
  have after : ((u.trackFrame ctx rs old fl hdr).tookFrame ctx fl.rill fl.frame l).rillTrk fl.rill =
      { (u.trackFrame ctx rs old fl hdr).rillTrk fl.rill with running := some (ctx, fl.frame, l) } := rillTrk_setRillTrk_self ..
  dsimp only
  rw [after]
  refine ⟨framed.slu.holder.resolve_left (by decide), framed.slu.slices.resolve_left (by decide), rfl, last, ?_, ?_, fun busy => ?_⟩
  · rw [← laneTurn_trk turn]
    exact queue
  · rw [← laneTurn_trk turn]
    exact others
  · exact (resets (by rw [fn_congr (k.fns_eq (by decide))]; exact busy)).trans (k.out.resolve_left (by decide))

variable (same : ∀ l, (s.rillTrk fl.rill).lastFrame = some l → l / 2 ^ 64 = fl.frame / 2 ^ 64)
include same

theorem laneTurn_same : ∀ l, (u.rillTrk fl.rill).lastFrame = some l → l / 2 ^ 64 = fl.frame / 2 ^ 64 := by
  rw [laneTurn_row turn]
  exact same

theorem trackCommand_det : ((u.trackFrame ctx rs old fl hdr).tookFrame ctx fl.rill fl.frame l).reg .TRK_CNT_DET 0 0 =
    s.reg .TRK_CNT_DET 0 0 + BitVec.ofNat 64 (s.trackKept rs fl hdr).1.length := by
  rw [← laneTurn_dets turn]
  exact (trackFrame_det u ctx rs old fl hdr (laneTurn_same turn fl same)).trans
    (congrArg (· + _) ((laneTurn_kept turn).reg_eq (by decide) (by decide) regOk_det))

theorem trackCommand_one {c : Cand} {place : Nat} (bare : s.rillTracks fl.rill = []) (kept : (s.trackKept rs fl hdr).1 = [c])
    (tracks : rs.tracks c.cls = true) (room : 0 < rs.maxTracks) (high : ∃ y, rs.classes[c.cls]? = some y ∧ y.startThr ≤ c.score)
    (free : s.freeStore = some place) : let t := (u.trackFrame ctx rs old fl hdr).tookFrame ctx fl.rill fl.frame l
    t.trk.tracks = s.trk.tracks ++ [{ rill := fl.rill, id := (s.rillTrk fl.rill).nextId, store := place }] ∧
    ∃ x : Track, t.recordBytes place = x.bytes ∧ x.rill = fl.rill ∧ x.id = (s.rillTrk fl.rill).nextId ∧ x.cls = c.cls ∧
      x.st = if rs.confirmHits = 1 then .confirmed else .tentative := by
  dsimp only
  have one := trackFrame_one u ctx rs old fl hdr (laneTurn_same turn fl same) (laneTurn_bare turn bare) ((congrArg Prod.fst (laneTurn_dets turn rs fl hdr)).trans kept)
    tracks room high ((freeStore_congr (congrArg TrackEng.tracks (laneTurn_trk turn))).trans free)
  rw [laneTurn_row turn, laneTurn_trk turn] at one
  generalize u.trackFrame ctx rs old fl hdr = v at *
  rw [(tookFrame_tracks v ctx fl.rill fl.frame l).1, (tookFrame_tracks v ctx fl.rill fl.frame l).2]
  exact one

theorem trackCommand_alone (low : fl.fn < 32) (takes : s.ringTakes fl.fn) (heads : fl.heads = []) (bare : s.rillTracks fl.rill = [])
    (waits : s.trk.embq = []) (clean : fl.status = 0) (health : rs.health = 0) :
    sends (s.metaWrites fl.trackKey 5 0 (frameEndBody 0 0 0 fl.flags ((rs.heads.head?.map (·.ctx)).getD 0xFFFF) 0)) s
      ((u.trackFrame ctx rs old fl hdr).tookFrame ctx fl.rill fl.frame l) ∧
    raised (32 + fl.fn) s ((u.trackFrame ctx rs old fl hdr).tookFrame ctx fl.rill fl.frame l) := by
  have k := laneTurn_kept turn
  have like : MetaLike s u fl.fn := .of_keeps low k
  obtain ⟨wrote, raises⟩ := trackFrame_none u ctx rs old fl hdr (laneTurn_same turn fl same) low (like.takes takes) heads (laneTurn_bare turn bare)
    ((congrArg TrackEng.embq (laneTurn_trk turn)).trans waits) clean health
  rw [MetaLike.writes (k := fl.trackKey) like, k.out.resolve_left (by decide)] at wrote
  exact ⟨wrote, SrcKept.raised (.of_keeps (by omega) k (.of_icu (k.icu_eq (by decide)))) raises⟩

end

/-- Settles O53: a track command's frame, and its commit. -/
theorem trackCommands : Obligations.TrackCommands := by
  unfold Obligations.TrackCommands
  refine ⟨fun ctx rill frame s => ?_, fun rill s => ?_⟩
  · have k := execTrackCommand_keeps (.refl s) ctx rill frame (Within.mem _)
    change KeepsOut _ s (exec (.trackCommand ctx rill frame) s) at k
    obtain ⟨t, ran⟩ : ∃ t, exec (.trackCommand ctx rill frame) s = .next t := ⟨_, rfl⟩
    have is_ : ∀ {v}, exec (.trackCommand ctx rill frame) s = .next v → t = v := fun h => Host.Outcome.next.inj (ran.symm.trans h)
    rw [ran] at k
    refine completes_of ran k (by decide +kernel) ⟨fun no => is_ (exec_trackCommand_none no), fun fl e flow entry =>
      ⟨fun no => is_ (exec_trackCommand_unruled flow entry no), fun rs rules => ⟨fun no => is_ (exec_trackCommand_no flow entry rules no), fun l u may turn => ?_⟩⟩⟩
    have eq := is_ (exec_trackCommand_turn flow entry rules may turn)
    clear is_ ran k
    obtain ⟨rfl, rfl⟩ := flow_named flow
    have own : e.id = ctx := ctxEntry_id entry
    dsimp only
    generalize ((s.frame fl.rill fl.frame).map (·.hdr)).getD noHdr = hdr at *
    generalize s.oldFor ctx fl.captureTs fl.stamp = old at *
    obtain ⟨holder, slices, running, last, queue, others, quiet⟩ := trackCommand_leaves turn ctx rs old fl hdr
    rw [← eq] at holder slices running last queue others quiet
    refine ⟨holder, slices, fun idle => ?_, running, last, queue, others, quiet, fun same => ⟨?_, fun c place bare kept tracks room high free => ?_,
      fun low running master on some_ room heads bare waits clean health => ?_⟩⟩
    · have held := laneTurn_holder turn (by rw [own]; exact idle)
      rw [own] at held
      unfold State.holder at held ⊢
      rwa [holder]
    · rw [eq]
      exact trackCommand_det turn ctx rs old fl hdr same
    · rw [eq]
      exact trackCommand_one turn ctx rs old fl hdr same bare kept tracks room high free
    · rw [eq]
      exact trackCommand_alone turn ctx rs old fl hdr same low ⟨running, master, on, some_, room⟩ heads bare waits clean health
  · have k := execTrackCommandCommit_keeps (.refl s) rill (Within.mem _)
    change KeepsOut _ s (exec (.trackCommandCommit rill) s) at k
    obtain ⟨t, ran⟩ : ∃ t, exec (.trackCommandCommit rill) s = .next t := ⟨_, rfl⟩
    have is_ : ∀ {v}, exec (.trackCommandCommit rill) s = .next v → t = v := fun h => Host.Outcome.next.inj (ran.symm.trans h)
    rw [ran] at k
    refine completes_of ran k (by decide +kernel) ⟨fun no => is_ (exec_trackCommandCommit_no no), fun ctx frame lane run flows => ?_⟩
    obtain rfl := is_ (exec_trackCommandCommit_done run flows)
    obtain ⟨idle, counted_, done⟩ := trackOver_commit (s := s) (rill := rill) (ctx := ctx) (frame := frame) (lane := lane)
    exact ⟨idle, counted_, done, fun e entry only high away own => trackOver_lane entry only high away own⟩

end Sys2Proof.Machine
end

section
/-! SUPPORT. An access unit's way through a decode engine (R193, R211 to R213, R219, R220). -/

set_option Elab.async false

namespace Sys2Proof.Machine

theorem regOk_dec : ∀ {e : Nat}, e < 16 → regOk .DEC_CNT_REFUSE e 0 = true ∧ regOk .DEC_CNT_NOBUF e 0 = true ∧ regOk .DEC_CNT_WORK e 0 = true ∧
    regOk .DEC_CNT_ABANDON e 0 = true := by decide +kernel

theorem engine_congr {s t : State} (h : t.ing.engines = s.ing.engines) (e : Nat) : t.engine e = s.engine e := by
  unfold State.engine
  rw [h]

/-! ## What follows an access unit -/

/-- From `s` to `t` pictures have left decode, and no engine and no counter of refusals has changed. -/
structure DecLike (s t : State) : Prop where
  engines : t.ing.engines = s.ing.engines
  outs : Outs s t
  refuse : ∀ e < 16, t.reg .DEC_CNT_REFUSE e 0 = s.reg .DEC_CNT_REFUSE e 0
  nobuf : ∀ e < 16, t.reg .DEC_CNT_NOBUF e 0 = s.reg .DEC_CNT_NOBUF e 0

theorem DecLike.refl (s : State) : DecLike s s := ⟨rfl, .refl s, fun _ _ => rfl, fun _ _ => rfl⟩

theorem DecLike.trans {s t v : State} (h : DecLike s t) (g : DecLike t v) : DecLike s v :=
  ⟨g.engines.trans h.engines, h.outs.trans g.outs, fun e low => (g.refuse e low).trans (h.refuse e low), fun e low => (g.nobuf e low).trans (h.nobuf e low)⟩

theorem DecLike.of_outs {cs : List Comp} {s t : State} (outs : Outs s t) (k : Keeps (fun c => c ∈ cs) s t) (engines : .ingEngines ∉ cs := by decide)
    (all : .regs ∉ cs := by decide) (refuse : .reg .DEC_CNT_REFUSE ∉ cs := by decide) (nobuf : .reg .DEC_CNT_NOBUF ∉ cs := by decide) : DecLike s t :=
  ⟨k.ing.engines.resolve_left engines, outs, fun _ low => k.reg_eq all refuse (regOk_dec low).1, fun _ low => k.reg_eq all nobuf (regOk_dec low).2.1⟩

theorem DecLike.of_keeps {cs : List Comp} {s t : State} (k : Keeps (fun c => c ∈ cs) s t) (rills : .ingRills ∉ cs := by decide)
    (ctxs : .ingCtxs ∉ cs := by decide) (engines : .ingEngines ∉ cs := by decide) (all : .regs ∉ cs := by decide)
    (refuse : .reg .DEC_CNT_REFUSE ∉ cs := by decide) (nobuf : .reg .DEC_CNT_NOBUF ∉ cs := by decide) : DecLike s t :=
  .of_outs (.of_ing (k.ing.rills.resolve_left rills) (k.ing.ctxs.resolve_left ctxs)) k engines all refuse nobuf

theorem DecLike.engine {s t : State} (h : DecLike s t) (e : Nat) : t.engine e = s.engine e := engine_congr h.engines e

theorem DecLike.ctx {s t : State} (h : DecLike s t) {c : Nat} {d : DecCtx} (found : s.decCtx c = some d) : ∃ held, t.decCtx c = some { d with held := held } := by
  obtain ⟨held, eq⟩ := h.outs.ctx c
  rw [found] at eq
  exact ⟨held, eq⟩

/-- What pictures that leave decode leave of a rill's counts of refusals and drops. -/
theorem DecLike.rill {s t : State} (h : DecLike s t) (q : Nat) : (t.rill q).refused = (s.rill q).refused ∧ (t.rill q).lastStatus = (s.rill q).lastStatus ∧
    (t.rill q).droppedNoBuf = (s.rill q).droppedNoBuf := by
  have outs := h.outs.rill q
  unfold Rill.Outputs at outs
  rw [outs]
  exact ⟨rfl, rfl, rfl⟩

theorem endStream_outs (s : State) (c : Nat) (k : RillClass) (au : AuJob) : Outs s (s.endStream c k au) := by
  unfold State.endStream
  split
  · exact outputAll_outs s c k _
  · exact .refl s

theorem settled_decLike (s : State) : DecLike s s.settle.schedule :=
  (DecLike.of_keeps (settle_keeps (.refl s) (Within.mem _))).trans (.of_keeps (schedule_keeps (.refl s.settle) (Within.mem _)))

theorem reads_decLike (s : State) (port : Nat) (rs : List (Nat × Nat)) : DecLike s (s.reads port rs).2 := .of_keeps (reads_keeps (.refl s) port rs (Within.mem _))

/-- An access unit is done with: its buffer is given back, and an end of stream takes effect (R193). -/
def State.auDone (s : State) (c : Nat) (k : RillClass) (au : AuJob) : State := (s.freeAu au).endStream c k au

theorem auDone_decLike (s : State) (c : Nat) (k : RillClass) (au : AuJob) : DecLike s (s.auDone c k au) :=
  (DecLike.of_keeps (freeAu_keeps (.refl s) au (Within.mem _))).trans
    (.of_outs (endStream_outs _ c k au) (endStream_keeps (.refl (s.freeAu au)) c k au (Within.mem _)))

/-- What an access unit that is refused leaves (R212, R213). -/
theorem refused_spec (s : State) (eng : Nat) (au : AuJob) (k : RillClass) (h : SeqHdr) (st : W16) (event : Bool) :
    let t := s.refuseAu eng au k h st event
    t.ing.engines = s.ing.engines ∧ t.ing.ctxs = s.ing.ctxs ∧ (t.rill au.rill).refused = bump (s.rill au.rill).refused ∧
    (t.rill au.rill).lastStatus = st ∧ (eng < 16 → t.reg .DEC_CNT_REFUSE eng 0 = counted (s.reg .DEC_CNT_REFUSE eng 0)) := by
  have kept := refuseAu_keeps (.refl s) eng au k h st event (Within.mem _)
  have rill := refuseAu_rill s eng au k h st event au.rill
  rw [if_pos rfl] at rill
  refine ⟨kept.ing.engines.resolve_left (by decide), kept.ing.ctxs.resolve_left (by decide), congrArg Rill.refused rill, congrArg Rill.lastStatus rill, fun low => ?_⟩
  have ok := (regOk_dec low).1
  have first : ((s.updRill au.rill (fun x => { x with refused := bump x.refused, lastStatus := st })).count .DEC_CNT_REFUSE eng).reg .DEC_CNT_REFUSE eng 0 =
      counted (s.reg .DEC_CNT_REFUSE eng 0) := count_reg _ _ _ ok
  unfold State.refuseAu
  dsimp only
  cases event with
  | false => exact first
  | true =>
    rw [if_pos rfl, (ingestEvent_keeps (.refl _) _ (Within.mem _)).reg_eq (by decide) (by decide) ok]
    exact first

/-- What a picture that is dropped leaves (R219, R220). -/
theorem dropped_spec (s : State) (eng : Nat) (au : AuJob) (st : W16) : let t := s.dropPicture eng au st
    t.ing.engines = s.ing.engines ∧ t.ing.ctxs = s.ing.ctxs ∧
    (st = Status.framePoolEmpty → (t.rill au.rill).droppedNoBuf = bump (s.rill au.rill).droppedNoBuf ∧
      (eng < 16 → t.reg .DEC_CNT_NOBUF eng 0 = counted (s.reg .DEC_CNT_NOBUF eng 0))) := by
  have kept := dropPicture_keeps (.refl s) eng au st (Within.mem _)
  obtain ⟨-, noted⟩ := dropPicture_rill s eng au st
  refine ⟨kept.ing.engines.resolve_left (by decide), kept.ing.ctxs.resolve_left (by decide), fun empty => ⟨?_, fun low => ?_⟩⟩
  · unfold Rill.Noted at noted
    rw [noted]
    exact if_pos empty
  · have ok := (regOk_dec low).2.1
    have first : ((s.updRill au.rill (fun x => { x with droppedNoBuf := bump x.droppedNoBuf })).count .DEC_CNT_NOBUF eng).reg .DEC_CNT_NOBUF eng 0 =
        counted (s.reg .DEC_CNT_NOBUF eng 0) := count_reg _ _ _ ok
    unfold State.dropPicture
    rw [if_pos empty]
    dsimp only
    rw [(ingestEvent_keeps (.refl _) _ (Within.mem _)).reg_eq (by decide) (by decide) ok]
    exact first

/-! ## The unit that is taken -/

/-- A context whose next access unit is taken (R193): a discontinuity of the unit has taken effect. -/
def DecCtx.taken (d : DecCtx) (au : AuJob) (q : List AuJob) : DecCtx :=
  { (if bitAt au.flags 1 = true then { d with refs := [], avg := d.a0, disc := d.disc + 1 } else d) with queue := q, nextPic := d.nextPic + 1 }

/-- The state in which the unit has left its context's queue. -/
def State.auTaken (s : State) (c : Nat) (d : DecCtx) (au : AuJob) (q : List AuJob) : State :=
  (if bitAt au.flags 1 then s.discontinue c else s).setDecCtx c (d.taken au q)

/-- A unit that is refused, and done with. -/
def State.auRefused (s : State) (c : Nat) (au : AuJob) (k : RillClass) (h : SeqHdr) (st : W16) (event : Bool) : State :=
  (s.refuseAu (c / 32) au k h st event).auDone c k au

/-- A unit whose picture is dropped, and which is done with. -/
def State.auDropped (s : State) (c : Nat) (au : AuJob) (k : RillClass) (st : W16) : State := (s.dropPicture (c / 32) au st).auDone c k au

/-- The header under which a unit is decoded. -/
def DecCtx.under (d : DecCtx) (p : AuParse) : SeqHdr := p.seq.getD (d.hdr.getD noHdr)

section
variable {s : State} {c : Nat} {k : RillClass} {b : DecBind} {au : AuJob} {p : AuParse} {d : DecCtx} {q : List AuJob}

theorem discontinue_ctx (found : s.decCtx c = some d) : (s.discontinue c).decCtx c = some { d with refs := [], avg := d.a0, disc := d.disc + 1 } := by
  have put : (s.setDecCtx c { d with refs := [], avg := d.a0, disc := d.disc + 1 }).decCtx c = some { d with refs := [], avg := d.a0, disc := d.disc + 1 } :=
    (decCtx_setDecCtx _ _ _ _).trans (if_pos rfl)
  unfold State.discontinue
  rw [found]
  dsimp only
  split
  · next r _ => exact (decCtx_congr ((remark_keeps (.refl _) r (Within.mem _)).ing.ctxs.resolve_left (by decide)) c).trans put
  · exact put

/-- What taking a unit does, in the state in which it has left its queue. -/
def State.auTakes (x : State) (c : Nat) (k : RillClass) (b : DecBind) (au : AuJob) (p : AuParse) (d : DecCtx) : State :=
  match x.reads (portDec (c / 32)) [(au.handle.addr, au.length)] with
  | (some st, y) => y.auDropped c au k st
  | (none, y) =>
    match d.refusing, y.judge k b d p with
    | some st, j =>
      if p.rap && p.seq.isSome && j.isNone then
        y.startPicture c k b ({ d with refusing := none }.withHdr k (d.under p)) au (x.memGet au.handle.addr au.length) (d.under p) p
      else y.auRefused c au k (d.under p) st false
    | none, some st => (y.setDecCtx c { d with refusing := some st }).auRefused c au k (d.under p) st true
    | none, none =>
      if p.seq.isNone && p.toolRefused then y.auRefused c au k (d.under p) Status.toolRefused true
      else y.startPicture c k b (if p.seq.isSome then d.withHdr k (d.under p) else d) au (x.memGet au.handle.addr au.length) (d.under p) p

theorem takeAu_eq (found : s.decCtx c = some d) (front : d.queue = au :: q) :
    s.takeAu c k b au p = (s.auTaken c d au q).auTakes c k b au p (d.taken au q) := by
  unfold State.takeAu State.auTaken
  cases marked : bitAt au.flags 1 with
  | false =>
    have own : d.taken au q = { d with queue := d.queue.drop 1, nextPic := d.nextPic + 1 } := by
      unfold DecCtx.taken
      rw [marked, front]
      rfl
    dsimp only
    rw [if_neg (by decide), found, own]
    rfl
  | true =>
    have own : d.taken au q = { d with refs := [], avg := d.a0, disc := d.disc + 1, queue := d.queue.drop 1, nextPic := d.nextPic + 1 } := by
      unfold DecCtx.taken
      rw [marked, front]
      rfl
    dsimp only
    rw [if_pos rfl, discontinue_ctx found, own]
    rfl

end

end Sys2Proof.Machine
end

section
/-! SUPPORT. DECODE_TURN, case by case (R211 to R214, R219, R220). -/

set_option Elab.async false

namespace Sys2Proof.Machine

/-! ## A unit that starts no picture -/

theorem auRefused_spec {s : State} {c : Nat} {d : DecCtx} (found : s.decCtx c = some d) (au : AuJob) (k : RillClass) (h : SeqHdr) (st : W16) (event : Bool) :
    let t := (s.auRefused c au k h st event).settle.schedule
    (∀ e, t.engine e = s.engine e) ∧ (∃ held, t.decCtx c = some { d with held := held }) ∧ (t.rill au.rill).refused = bump (s.rill au.rill).refused ∧
    (t.rill au.rill).lastStatus = st ∧ (c / 32 < 16 → t.reg .DEC_CNT_REFUSE (c / 32) 0 = counted (s.reg .DEC_CNT_REFUSE (c / 32) 0)) := by
  obtain ⟨engines, ctxs, refused, last, told⟩ := refused_spec s (c / 32) au k h st event
  have rest := (auDone_decLike (s.refuseAu (c / 32) au k h st event) c k au).trans (settled_decLike _)
  obtain ⟨refusedR, lastR, -⟩ := rest.rill au.rill
  exact ⟨fun e => (rest.engine e).trans (engine_congr engines e), rest.ctx ((decCtx_congr ctxs c).trans found), refusedR.trans refused, lastR.trans last,
    fun low => (rest.refuse _ low).trans (told low)⟩

theorem auDropped_spec {s : State} {c : Nat} {d : DecCtx} (found : s.decCtx c = some d) (au : AuJob) (k : RillClass) (st : W16) :
    let t := (s.auDropped c au k st).settle.schedule
    (∀ e, t.engine e = s.engine e) ∧ (∃ held, t.decCtx c = some { d with held := held }) ∧
    (st = Status.framePoolEmpty → (t.rill au.rill).droppedNoBuf = bump (s.rill au.rill).droppedNoBuf ∧
      (c / 32 < 16 → t.reg .DEC_CNT_NOBUF (c / 32) 0 = counted (s.reg .DEC_CNT_NOBUF (c / 32) 0))) := by
  obtain ⟨engines, ctxs, told⟩ := dropped_spec s (c / 32) au st
  have rest := (auDone_decLike (s.dropPicture (c / 32) au st) c k au).trans (settled_decLike _)
  obtain ⟨-, -, nobuf⟩ := rest.rill au.rill
  exact ⟨fun e => (rest.engine e).trans (engine_congr engines e), rest.ctx ((decCtx_congr ctxs c).trans found), fun empty =>
    ⟨nobuf.trans (told empty).1, fun low => (rest.nobuf _ low).trans ((told empty).2 low)⟩⟩

/-! ## The picture that a unit starts -/

section
variable {y : State} {c : Nat} {k : RillClass} {b : DecBind} {d : DecCtx} {au : AuJob} {unit : List Byte} {h : SeqHdr} {p : AuParse}
  (clean : p.readsPoison = false ∨ (y.reads (portDec (c / 32)) (y.refRanges au.rill d p)).1 = none)
include clean

theorem startPicture_clean : y.startPicture c k b d au unit h p =
    match (y.reads (portDec (c / 32)) (y.refRanges au.rill d p)).2.alloc b.framePool with
    | (none, s1) => (s1.setDecCtx c { d with refs := d.refs.filter p.keep.contains }).auDropped c au k Status.framePoolEmpty
    | (some hd, s1) =>
      match rangeStatus s1.dev.part hd.addr (SeqHdrGeo h).size with
      | some st => ((s1.release hd (y.rill au.rill).fn).setDecCtx c { d with refs := d.refs.filter p.keep.contains }).auDropped c au k st
      | none =>
        (s1.setDecCtx c { d with
          pic := some
            { num := d.nextPic - 1, au := au, hdr := h, handle := hd, isRef := p.isRef, keep := p.keep, ctu := p.ctu, disc := d.disc
              state := Config.decoderState k.codec d.state unit, work := 0, concealed := false, abandoned := false
              substituted := !p.rap && (d.substituting || p.refs.any (fun n => !d.refs.contains n)) }
          substituting := !p.rap && (d.substituting || p.refs.any (fun n => !d.refs.contains n)) }).setEngine (c / 32)
          { s1.engine (c / 32) with current := some c } := by
  have none_ : (if p.readsPoison = true then (y.reads (portDec (c / 32)) (y.refRanges au.rill d p)).1 else none) = none := by
    rcases clean with off | good
    · rw [off]
      rfl
    · rw [good]
      exact ite_self _
  unfold State.startPicture
  dsimp only
  rw [none_]
  rfl

variable (w : State) (w_eq : w = (y.reads (portDec (c / 32)) (y.refRanges au.rill d p)).2)
include w_eq

theorem startPicture_nobuffer (fails : (w.alloc b.framePool).1 = none) : y.startPicture c k b d au unit h p =
    ((w.alloc b.framePool).2.setDecCtx c { d with refs := d.refs.filter p.keep.contains }).auDropped c au k Status.framePoolEmpty := by
  rw [startPicture_clean clean, ← w_eq]
  generalize w.alloc b.framePool = taken at *
  obtain ⟨x, v⟩ := taken
  cases fails
  rfl

theorem startPicture_started {hd : Handle} (given : (w.alloc b.framePool).1 = some hd)
    (sound : rangeStatus (w.alloc b.framePool).2.dev.part hd.addr (SeqHdrGeo h).size = none) : y.startPicture c k b d au unit h p =
    ((w.alloc b.framePool).2.setDecCtx c { d with
      pic := some
        { num := d.nextPic - 1, au := au, hdr := h, handle := hd, isRef := p.isRef, keep := p.keep, ctu := p.ctu, disc := d.disc
          state := Config.decoderState k.codec d.state unit, work := 0, concealed := false, abandoned := false
          substituted := !p.rap && (d.substituting || p.refs.any (fun n => !d.refs.contains n)) }
      substituting := !p.rap && (d.substituting || p.refs.any (fun n => !d.refs.contains n)) }).setEngine (c / 32)
      { (w.alloc b.framePool).2.engine (c / 32) with current := some c } := by
  rw [startPicture_clean clean, ← w_eq]
  generalize w.alloc b.framePool = taken at *
  obtain ⟨x, v⟩ := taken
  cases given
  dsimp only at sound ⊢
  rw [sound]

end

/-! ## What is taken, case by case -/

section
variable {x : State} {c : Nat} {k : RillClass} {b : DecBind} {au : AuJob} {p : AuParse} {d : DecCtx}

theorem auTakes_bad {st : W16} (bad : (x.reads (portDec (c / 32)) [(au.handle.addr, au.length)]).1 = some st) :
    x.auTakes c k b au p d = (x.reads (portDec (c / 32)) [(au.handle.addr, au.length)]).2.auDropped c au k st := by
  unfold State.auTakes
  generalize x.reads (portDec (c / 32)) [(au.handle.addr, au.length)] = found at *
  obtain ⟨r, y⟩ := found
  cases bad
  rfl

variable {y : State} (y_eq : y = (x.reads (portDec (c / 32)) [(au.handle.addr, au.length)]).2)
  (good : (x.reads (portDec (c / 32)) [(au.handle.addr, au.length)]).1 = none)
include y_eq good

theorem auTakes_good : x.auTakes c k b au p d =
    match d.refusing, y.judge k b d p with
    | some st, j =>
      if p.rap && p.seq.isSome && j.isNone then
        y.startPicture c k b ({ d with refusing := none }.withHdr k (d.under p)) au (x.memGet au.handle.addr au.length) (d.under p) p
      else y.auRefused c au k (d.under p) st false
    | none, some st => (y.setDecCtx c { d with refusing := some st }).auRefused c au k (d.under p) st true
    | none, none =>
      if p.seq.isNone && p.toolRefused then y.auRefused c au k (d.under p) Status.toolRefused true
      else y.startPicture c k b (if p.seq.isSome then d.withHdr k (d.under p) else d) au (x.memGet au.handle.addr au.length) (d.under p) p := by
  unfold State.auTakes
  rw [y_eq]
  generalize x.reads (portDec (c / 32)) [(au.handle.addr, au.length)] = found at *
  obtain ⟨r, z⟩ := found
  cases good
  rfl

theorem auTakes_judged {st : W16} (fresh : d.refusing = none) (judged : y.judge k b d p = some st) :
    x.auTakes c k b au p d = (y.setDecCtx c { d with refusing := some st }).auRefused c au k (d.under p) st true := by
  rw [auTakes_good y_eq good, fresh, judged]

theorem auTakes_refusing {st : W16} (inForce : d.refusing = some st) (no : ¬ (p.seq.isSome = true ∧ p.rap = true) ∨ y.judge k b d p ≠ none) :
    x.auTakes c k b au p d = y.auRefused c au k (d.under p) st false := by
  rw [auTakes_good y_eq good, inForce]
  refine if_neg fun passes => ?_
  simp only [Bool.and_eq_true, Option.isNone_iff_eq_none] at passes
  rcases no with no | no
  · exact no ⟨passes.1.2, passes.1.1⟩
  · exact no passes.2

theorem auTakes_tool (fresh : d.refusing = none) (judged : y.judge k b d p = none) (bare : p.seq = none) (tool : p.toolRefused = true) :
    x.auTakes c k b au p d = y.auRefused c au k (d.under p) Status.toolRefused true := by
  rw [auTakes_good y_eq good, fresh, judged]
  exact if_pos (by rw [bare, tool]; rfl)

/-- The context under which a unit that passes starts its picture (R211, R216). -/
def DecCtx.starting (d : DecCtx) (k : RillClass) (p : AuParse) : DecCtx :=
  if p.seq.isSome = true then { d with refusing := none }.withHdr k (d.under p) else d

theorem auTakes_starts (passes : p.seq.isSome = true ∧ p.rap = true ∨ d.refusing = none) (judged : y.judge k b d p = none)
    (tool : p.seq = none → p.toolRefused = false) : x.auTakes c k b au p d =
      y.startPicture c k b (d.starting k p) au (x.memGet au.handle.addr au.length) (d.under p) p := by
  rw [auTakes_good y_eq good, judged]
  unfold DecCtx.starting
  cases inForce : d.refusing with
  | none =>
    have same : { d with refusing := none } = d := by
      cases d
      cases inForce
      rfl
    rw [same]
    refine if_neg fun both => ?_
    rw [Bool.and_eq_true, Option.isNone_iff_eq_none] at both
    rw [tool both.1] at both
    exact absurd both.2 (by decide)
  | some st =>
    obtain ⟨seq, rap⟩ := passes.resolve_right (by rw [inForce]; exact nofun)
    have test : (p.rap && p.seq.isSome && (none : Option W16).isNone) = true := by
      rw [seq, rap]
      rfl
    refine (if_pos test).trans ?_
    rw [if_pos seq]

end

theorem starting_spec (d : DecCtx) (k : RillClass) (p : AuParse) (passes : p.seq.isSome = true ∧ p.rap = true ∨ d.refusing = none) :
    (d.starting k p).refusing = none ∧ (d.starting k p).queue = d.queue ∧ (d.starting k p).pic = d.pic ∧ (d.starting k p).nextPic = d.nextPic ∧
    (d.starting k p).disc = d.disc ∧ (d.starting k p).held = d.held ∧ (d.starting k p).refs = d.refs := by
  unfold DecCtx.starting
  split
  · unfold DecCtx.withHdr
    dsimp only
    split
    · split <;> exact ⟨rfl, rfl, rfl, rfl, rfl, rfl, rfl⟩
    · exact ⟨rfl, rfl, rfl, rfl, rfl, rfl, rfl⟩
  · next bare => exact ⟨passes.resolve_left fun both => bare both.1, rfl, rfl, rfl, rfl, rfl, rfl⟩

end Sys2Proof.Machine
end

section
/-! SUPPORT. DECODE_TURN (R193, R211 to R214, R219, R220). -/

set_option Elab.async false

namespace Sys2Proof.Machine

/-! ## The context that an engine serves -/

/-- Whether an engine serves a context (R214, R373). -/
def State.mayServe (s : State) (e : Nat) : Prop :=
  decPresent s.dev.part e = true ∧ s.domainLive (.decode (e / 4)) = true ∧ s.weir.coolant = .none ∧ (s.engine e).current = none

theorem mayServe_iff (s : State) (e : Nat) :
    (decPresent s.dev.part e && s.domainLive (.decode (e / 4)) && !s.coolantHeld && (s.engine e).current.isNone) = true ↔ s.mayServe e := by
  unfold State.mayServe State.coolantHeld
  cases s.weir.coolant <;> simp [and_assoc]

theorem nextReady_engine {s : State} {e c : Nat} (ready : s.nextReady e = some c) : c / 32 = e := by
  have mem : c ∈ s.readyCtxs e := by
    unfold State.nextReady at ready
    dsimp only at ready
    split at ready
    · next found =>
      cases ready
      exact List.mem_of_find?_eq_some found
    · exact List.mem_of_head? ready
  obtain ⟨x, inside, rfl⟩ := List.mem_map.1 mem
  have own := (List.mem_filter.1 inside).2
  simp only [Bool.and_eq_true, decide_eq_true_eq] at own
  exact own.1.1

/-- The state in which an engine's turn has passed to a context. -/
def State.onTurn (s : State) (e c : Nat) : State := s.setEngine e { s.engine e with last := c % 32 }

theorem onTurn_engine (s : State) (e c : Nat) : (s.onTurn e c).engine e = { s.engine e with last := c % 32 } := engine_setEngine_self ..

/-- The turn that each engine had last is the same in two states. -/
structure LastKept (s t : State) : Prop where
  all : ∀ n, (t.engine n).last = (s.engine n).last

theorem LastKept.refl (s : State) : LastKept s s := ⟨fun _ => rfl⟩

theorem LastKept.trans {s t v : State} (h : LastKept s t) (g : LastKept t v) : LastKept s v := ⟨fun n => (g.all n).trans (h.all n)⟩

theorem LastKept.of_keeps {cs : List Comp} {s t : State} (k : Keeps (fun c => c ∈ cs) s t) (away : .ingEngines ∉ cs := by decide) : LastKept s t :=
  ⟨fun n => congrArg Engine.last (engine_congr (k.ing.engines.resolve_left away) n)⟩

theorem DecLike.last {s t : State} (h : DecLike s t) : LastKept s t := ⟨fun n => congrArg Engine.last (h.engine n)⟩

theorem auRefused_last (s : State) (c : Nat) (au : AuJob) (k : RillClass) (h : SeqHdr) (st : W16) (event : Bool) : LastKept s (s.auRefused c au k h st event) :=
  LastKept.trans (.of_keeps (refuseAu_keeps (.refl s) (c / 32) au k h st event (Within.mem _))) (auDone_decLike _ c k au).last

theorem auDropped_last (s : State) (c : Nat) (au : AuJob) (k : RillClass) (st : W16) : LastKept s (s.auDropped c au k st) :=
  LastKept.trans (.of_keeps (dropPicture_keeps (.refl s) (c / 32) au st (Within.mem _))) (auDone_decLike _ c k au).last

theorem setDecCtx_last (s : State) (c : Nat) (d : DecCtx) : LastKept s (s.setDecCtx c d) := ⟨fun _ => rfl⟩

theorem startPicture_last (s : State) (c : Nat) (k : RillClass) (b : DecBind) (d : DecCtx) (au : AuJob) (unit : List Byte) (h : SeqHdr) (p : AuParse) :
    LastKept s (s.startPicture c k b d au unit h p) := by
  have drops (v : State) (st : W16) : LastKept v ((((v.setDecCtx c { d with refs := d.refs.filter p.keep.contains }).dropPicture (c / 32) au st).freeAu au).endStream c k au) :=
    (setDecCtx_last v c _).trans (auDropped_last (v.setDecCtx c _) c au k st)
  have read := (reads_decLike s (portDec (c / 32)) (s.refRanges au.rill d p)).last
  unfold State.startPicture
  dsimp only
  generalize s.reads (portDec (c / 32)) (s.refRanges au.rill d p) = seen at *
  split
  · exact read.trans (drops _ _)
  · have taken : LastKept seen.2 (seen.2.alloc b.framePool).2 := .of_keeps (alloc_keeps (.refl seen.2) b.framePool (Within.mem _))
    generalize seen.2.alloc b.framePool = got at *
    obtain ⟨x, v⟩ := got
    cases x with
    | none => exact (read.trans taken).trans (drops _ _)
    | some hd =>
      dsimp only at taken ⊢
      split
      · exact ((read.trans taken).trans (.of_keeps (release_keeps (.refl v) hd _ (Within.mem _)))).trans (drops _ _)
      · refine (read.trans taken).trans ⟨fun n => ?_⟩
        rw [engine_setEngine]
        split
        · next own => rw [own]
        · rfl

theorem auTakes_last (x : State) (c : Nat) (k : RillClass) (b : DecBind) (au : AuJob) (p : AuParse) (d : DecCtx) : LastKept x (x.auTakes c k b au p d) := by
  have read := (reads_decLike x (portDec (c / 32)) [(au.handle.addr, au.length)]).last
  unfold State.auTakes
  generalize x.reads (portDec (c / 32)) [(au.handle.addr, au.length)] = seen at *
  obtain ⟨r, y⟩ := seen
  cases r with
  | some st => exact read.trans (auDropped_last ..)
  | none =>
    dsimp only at read ⊢
    refine read.trans ?_
    split
    · split
      · exact startPicture_last ..
      · exact auRefused_last ..
    · exact (setDecCtx_last y c _).trans (auRefused_last (y.setDecCtx c _) c au k _ _ _)
    · split
      · exact auRefused_last ..
      · exact startPicture_last ..

theorem auTaken_last (s : State) (c : Nat) (d : DecCtx) (au : AuJob) (q : List AuJob) : LastKept s (s.auTaken c d au q) := by
  unfold State.auTaken
  split
  · exact LastKept.trans (.of_keeps (discontinue_keeps (.refl s) c (Within.mem _))) (setDecCtx_last ..)
  · exact setDecCtx_last ..

theorem popMarkers_last (s : State) (c : Nat) (k : RillClass) (js : List AuJob) : LastKept s (s.popMarkers c k js) :=
  .of_keeps (popMarkers_keeps (.refl s) c k js (Within.mem _))

/-! ## The turn -/

/-- What an engine does for a context that has no picture in progress. -/
def State.serve (s : State) (c : Nat) (d : DecCtx) (p : AuParse) : State :=
  match d.rill.bind s.classOf, d.rill.bind s.bindOf with
  | some k, some b =>
    let s2 := s.popMarkers c k d.queue
    (match s2.decCtx c with
     | some d2 =>
       (match d2.queue with
        | au :: _ => State.schedule (State.settle (if s2.decReach d2 b p au then s2.takeAu c k b au p else s2))
        | [] => State.schedule (State.settle s2))
     | none => s2)
  | _, _ => s

theorem exec_decodeTurn_no {s : State} {e : Nat} (p : AuParse) (no : ¬ s.mayServe e ∨ s.nextReady e = none) : exec (.decodeTurn e p) s = .next s := by
  change execDecodeTurn e p s = _
  unfold execDecodeTurn
  by_cases may : s.mayServe e
  · refine congrArg _ ((when_eq s ((mayServe_iff s e).2 may) _).trans ?_)
    rw [no.resolve_left (not_not_intro may)]
  · exact congrArg _ (when_neg s (mt (mayServe_iff s e).1 may) _)

section
variable {s : State} {e c : Nat} {d : DecCtx} (p : AuParse) (may : s.mayServe e) (ready : s.nextReady e = some c) (found : s.decCtx c = some d)
include may ready found

theorem exec_decodeTurn_again (busy : d.pic ≠ none) :
    exec (.decodeTurn e p) s = .next ((s.onTurn e c).setEngine e { (s.onTurn e c).engine e with current := some c }) := by
  change execDecodeTurn e p s = _
  unfold execDecodeTurn
  refine congrArg _ ((when_eq s ((mayServe_iff s e).2 may) _).trans ?_)
  rw [ready]
  change (match s.decCtx c with | none => _ | some d => _) = _
  rw [found]
  exact if_pos (Option.isSome_iff_ne_none.2 busy)

theorem exec_decodeTurn_serve (idle : d.pic = none) : exec (.decodeTurn e p) s = .next ((s.onTurn e c).serve c d p) := by
  change execDecodeTurn e p s = _
  unfold execDecodeTurn
  refine congrArg _ ((when_eq s ((mayServe_iff s e).2 may) _).trans ?_)
  rw [ready]
  change (match s.decCtx c with | none => _ | some d => _) = _
  rw [found]
  have test : ¬ d.pic.isSome = true := by
    rw [idle]
    decide
  exact if_neg test

end

theorem serve_last {s : State} {c : Nat} {d : DecCtx} (p : AuParse) : LastKept s (s.serve c d p) := by
  unfold State.serve
  split
  · next k b _ _ =>
    have popped := popMarkers_last s c k d.queue
    generalize s.popMarkers c k d.queue = s2 at *
    dsimp only
    cases found : s2.decCtx c with
    | none => exact popped
    | some d2 =>
      dsimp only
      refine popped.trans ?_
      cases front : d2.queue with
      | nil => exact (settled_decLike s2).last
      | cons au q =>
        dsimp only
        refine LastKept.trans ?_ (settled_decLike _).last
        split
        · rw [takeAu_eq found front]
          exact (auTaken_last ..).trans (auTakes_last ..)
        · exact .refl _
  · exact .refl s

/-- The context's next access unit, where it is one that was not refused before. -/
theorem serve_unit {s : State} {c : Nat} {d : DecCtx} (p : AuParse) (found : s.decCtx c = some d) {r : Nat} {k : RillClass} {b : DecBind} {au : AuJob} {q : List AuJob}
    (rill : d.rill = some r) (cls : s.classOf r = some k) (bind : s.bindOf r = some b) (front : d.queue = au :: q) (plain : au.status = 0) :
    s.serve c d p = (if s.decReach d b p au = true then (s.auTaken c d au q).auTakes c k b au p (d.taken au q) else s).settle.schedule := by
  have same : s.popMarkers c k d.queue = s := by
    rw [front]
    exact if_pos plain
  unfold State.serve
  rw [rill]
  dsimp only [Option.bind_some]
  rw [cls, bind]
  dsimp only
  rw [same, found]
  dsimp only
  rw [front]
  dsimp only
  rw [takeAu_eq found front]

end Sys2Proof.Machine
end

section
/-! SUPPORT. What a decode turn's access unit leaves (R193, R211 to R213, R219, R220). -/

set_option Elab.async false

namespace Sys2Proof.Machine

def auTakenChanges : List Comp := discontinueChanges ++ [.ingCtxs, .ingEngines]

/-- The state in which an engine has its turn and the unit has left the context's queue. -/
def State.unitTaken (s : State) (e c : Nat) (d : DecCtx) (au : AuJob) (q : List AuJob) : State := (s.onTurn e c).auTaken c d au q

theorem unitTaken_keeps (s : State) (e c : Nat) (d : DecCtx) (au : AuJob) (q : List AuJob) :
    Keeps (fun x => x ∈ auTakenChanges) s (s.unitTaken e c d au q) := by
  have parts := Within.mem auTakenChanges
  simp only [auTakenChanges, within_append] at parts
  obtain ⟨disc, -⟩ := parts
  have turn : Keeps (fun x => x ∈ auTakenChanges) s (s.onTurn e c) := setEngine_keeps (.refl s) e _ (by unfold Within; decide)
  unfold State.unitTaken State.auTaken
  refine setDecCtx_keeps ?_ c _ (by unfold Within; decide)
  split
  · exact discontinue_keeps turn c disc
  · exact turn

theorem unitTaken_ctx (s : State) (e c : Nat) (d : DecCtx) (au : AuJob) (q : List AuJob) : (s.unitTaken e c d au q).decCtx c = some (d.taken au q) :=
  (decCtx_setDecCtx _ _ _ _).trans (if_pos rfl)

theorem unitTaken_engine (s : State) (e c : Nat) (d : DecCtx) (au : AuJob) (q : List AuJob) :
    (s.unitTaken e c d au q).engine e = { s.engine e with last := c % 32 } := by
  refine Eq.trans (engine_congr ?_ e) (onTurn_engine s e c)
  unfold State.unitTaken State.auTaken
  split
  · exact (discontinue_keeps (.refl (s.onTurn e c)) c (Within.mem _)).ing.engines.resolve_left (by decide)
  · rfl

/-- The references of a unit are read where they lay before it was taken. -/
theorem refRanges_congr {v y : State} {r : Nat} {d x : DecCtx} (p : AuParse) (held : x.held = d.held) (refs : x.refs = d.refs)
    (frames : d.refs = [] ∨ y.ing.frames = v.ing.frames) : y.refRanges r x p = v.refRanges r d p := by
  unfold State.refRanges
  rw [refs]
  rcases frames with none_ | same
  · have unread : p.refs.filter ([] : List Nat).contains = [] := List.filter_eq_nil_iff.2 (by simp)
    rw [none_, unread]
    rfl
  · refine congrArg (List.flatMap · _) (funext fun n => ?_)
    unfold State.picRange
    rw [held, same]

section
variable (s : State) (e c : Nat) (d : DecCtx) (au : AuJob) (q : List AuJob)

theorem unitTaken_frames : (d.taken au q).refs = [] ∨ (s.unitTaken e c d au q).ing.frames = s.ing.frames := by
  unfold DecCtx.taken State.unitTaken State.auTaken
  cases bitAt au.flags 1 with
  | true => exact .inl rfl
  | false => exact .inr rfl

theorem taken_fields : (d.taken au q).queue = q ∧ (d.taken au q).pic = d.pic ∧ (d.taken au q).refusing = d.refusing ∧ (d.taken au q).nextPic = d.nextPic + 1 ∧
    (d.taken au q).hdr = d.hdr := by
  unfold DecCtx.taken
  cases bitAt au.flags 1 <;> exact ⟨rfl, rfl, rfl, rfl, rfl⟩

/-- The state in which the unit's bytes have been read. -/
def State.unitRead (s : State) (e c : Nat) (d : DecCtx) (au : AuJob) (q : List AuJob) : State :=
  ((s.unitTaken e c d au q).reads (portDec (c / 32)) [(au.handle.addr, au.length)]).2

theorem unitRead_keeps : Keeps (fun x => x ∈ auTakenChanges ++ visitBlockChanges) s (s.unitRead e c d au q) := by
  have parts := Within.mem (auTakenChanges ++ visitBlockChanges)
  simp only [within_append, auTakenChanges, and_assoc] at parts
  obtain ⟨disc, -, visits⟩ := parts
  have turn : Keeps (fun x => x ∈ auTakenChanges ++ visitBlockChanges) s (s.onTurn e c) := setEngine_keeps (.refl s) e _ (by unfold Within; decide)
  unfold State.unitRead
  refine reads_keeps ?_ _ _ visits
  unfold State.unitTaken State.auTaken
  refine setDecCtx_keeps ?_ c _ (by unfold Within; decide)
  split
  · exact discontinue_keeps turn c disc
  · exact turn

theorem unitRead_ctx : (s.unitRead e c d au q).decCtx c = some (d.taken au q) :=
  (decCtx_congr ((reads_keeps (.refl _) _ _ (Within.mem _)).ing.ctxs.resolve_left (by decide)) c).trans (unitTaken_ctx s e c d au q)

theorem unitRead_engine : (s.unitRead e c d au q).engine e = { s.engine e with last := c % 32 } :=
  (engine_congr ((reads_keeps (.refl _) _ _ (Within.mem _)).ing.engines.resolve_left (by decide)) e).trans (unitTaken_engine s e c d au q)

theorem unitRead_judge (k : RillClass) (b : DecBind) (x : DecCtx) (p : AuParse) : (s.unitRead e c d au q).judge k b x p = s.judge k b x p := by
  unfold State.judge
  rw [poolSize_congr ((unitRead_keeps s e c d au q).pools_eq (by decide))]

theorem unitTaken_found : ((s.unitTaken e c d au q).reads (portDec (c / 32)) [(au.handle.addr, au.length)]).1 =
    (s.reads (portDec (c / 32)) [(au.handle.addr, au.length)]).1 := ReadLike.reads_fst (.of_keeps (unitTaken_keeps s e c d au q)) _ _

/-- The state in which the references have been read too. -/
def State.refsRead (s : State) (e c : Nat) (d : DecCtx) (au : AuJob) (q : List AuJob) (k : RillClass) (p : AuParse) : State :=
  ((s.unitRead e c d au q).reads (portDec (c / 32)) ((s.unitRead e c d au q).refRanges au.rill ((d.taken au q).starting k p) p)).2

theorem refsRead_same (k : RillClass) (p : AuParse) (passes : p.seq.isSome = true ∧ p.rap = true ∨ (d.taken au q).refusing = none) :
    let v := (s.reads (portDec (c / 32)) [(au.handle.addr, au.length)]).2
    let w := v.reads (portDec (c / 32)) (v.refRanges au.rill (d.taken au q) p)
    ((s.unitRead e c d au q).reads (portDec (c / 32)) ((s.unitRead e c d au q).refRanges au.rill ((d.taken au q).starting k p) p)).1 = w.1 ∧
    AllocLike w.2 (s.refsRead e c d au q k p) := by
  dsimp only
  obtain ⟨-, -, -, -, -, held, refs⟩ := starting_spec (d.taken au q) k p passes
  have read := reads_keeps (.refl s) (portDec (c / 32)) [(au.handle.addr, au.length)] (Within.mem _)
  have unit := reads_keeps (.refl (s.unitTaken e c d au q)) (portDec (c / 32)) [(au.handle.addr, au.length)] (Within.mem _)
  have frames : (d.taken au q).refs = [] ∨ (s.unitRead e c d au q).ing.frames = (s.reads (portDec (c / 32)) [(au.handle.addr, au.length)]).2.ing.frames := by
    refine (unitTaken_frames s e c d au q).imp_right fun same => ?_
    exact (unit.ing.frames.resolve_left (by decide)).trans (same.trans (read.ing.frames.resolve_left (by decide)).symm)
  rw [refRanges_congr p held refs frames]
  have like : ReadLike (s.reads (portDec (c / 32)) [(au.handle.addr, au.length)]).2 (s.unitRead e c d au q) :=
    ReadLike.reads_snd (.of_keeps (unitTaken_keeps s e c d au q)) _ _
  refine ⟨like.reads_fst _ _, ?_⟩
  have back {x y : State} (h : AllocLike x y) : AllocLike y x := ⟨h.pools.symm, h.bytes.symm, h.poison.symm, h.free.symm⟩
  have reads (x : State) (port : Nat) (rs : List (Nat × Nat)) : AllocLike x (x.reads port rs).2 := .of_keeps (reads_keeps (.refl x) port rs (Within.mem _))
  unfold State.refsRead
  exact (back (reads _ _ _)).trans ((back (reads s _ _)).trans ((AllocLike.of_keeps (unitRead_keeps s e c d au q)).trans (reads _ _ _)))

end

end Sys2Proof.Machine
end

section
/-! SUPPORT. DECODE_TURN, its effect (R193, R211 to R214, R219, R220). -/

set_option Elab.async false

namespace Sys2Proof.Machine

/-- A state in which an engine works at an access unit: its context is `d`, no picture is in progress, and the counts are
those of `s`. -/
structure UnitAt (s y : State) (c : Nat) (d : DecCtx) : Prop where
  ctx : y.decCtx c = some d
  idle : (y.engine (c / 32)).current = none
  rill : ∀ q, y.rill q = s.rill q
  refuse : ∀ e < 16, y.reg .DEC_CNT_REFUSE e 0 = s.reg .DEC_CNT_REFUSE e 0
  nobuf : ∀ e < 16, y.reg .DEC_CNT_NOBUF e 0 = s.reg .DEC_CNT_NOBUF e 0
  part : y.dev.part = s.dev.part

theorem UnitAt.keeps {cs : List Comp} {s y z : State} {c : Nat} {d : DecCtx} (h : UnitAt s y c d) (k : Keeps (fun c => c ∈ cs) y z)
    (rills : .ingRills ∉ cs := by decide) (ctxs : .ingCtxs ∉ cs := by decide) (engines : .ingEngines ∉ cs := by decide) (all : .regs ∉ cs := by decide)
    (refuse : .reg .DEC_CNT_REFUSE ∉ cs := by decide) (nobuf : .reg .DEC_CNT_NOBUF ∉ cs := by decide) : UnitAt s z c d :=
  ⟨(decCtx_congr (k.ing.ctxs.resolve_left ctxs) c).trans h.ctx, (congrArg Engine.current (engine_congr (k.ing.engines.resolve_left engines) _)).trans h.idle,
    fun q => (rill_congr (k.ing.rills.resolve_left rills) q).trans (h.rill q),
    fun e low => (k.reg_eq all refuse (regOk_dec low).1).trans (h.refuse e low), fun e low => (k.reg_eq all nobuf (regOk_dec low).2.1).trans (h.nobuf e low),
    k.part.trans h.part⟩

theorem UnitAt.put {s y : State} {c : Nat} {d : DecCtx} (h : UnitAt s y c d) (x : DecCtx) : UnitAt s (y.setDecCtx c x) c x :=
  ⟨(decCtx_setDecCtx _ _ _ _).trans (if_pos rfl), h.idle, h.rill, h.refuse, h.nobuf, h.part⟩

theorem unitRead_at (s : State) {c : Nat} (d : DecCtx) (au : AuJob) (q : List AuJob) (idle : (s.engine (c / 32)).current = none) :
    UnitAt s (s.unitRead (c / 32) c d au q) c (d.taken au q) := by
  have k := unitRead_keeps s (c / 32) c d au q
  exact ⟨unitRead_ctx .., (by rw [unitRead_engine]; exact idle), rill_congr (k.ing.rills.resolve_left (by decide)),
    fun e low => k.reg_eq (by decide) (by decide) (regOk_dec low).1, fun e low => k.reg_eq (by decide) (by decide) (regOk_dec low).2.1, k.part⟩

/-- No picture of a context is in progress, and its queue is `q`. -/
def State.unitGone (t : State) (c : Nat) (q : List AuJob) : Prop :=
  ((t.engine (c / 32)).current = none ∧ (t.decCtx c).bind (·.pic) = none) ∧ (t.decCtx c).map (·.queue) = some q

section
variable {s y : State} {c : Nat} {d : DecCtx} (h : UnitAt s y c d) (idle : d.pic = none)
include h idle

theorem unit_refused (au : AuJob) (k : RillClass) (hd : SeqHdr) (st : W16) (event : Bool) : let t := (y.auRefused c au k hd st event).settle.schedule
    t.unitGone c d.queue ∧ (t.decCtx c).bind (·.refusing) = d.refusing ∧ (t.rill au.rill).refused = bump (s.rill au.rill).refused ∧
    (t.rill au.rill).lastStatus = st ∧ (c / 32 < 16 → t.reg .DEC_CNT_REFUSE (c / 32) 0 = counted (s.reg .DEC_CNT_REFUSE (c / 32) 0)) := by
  obtain ⟨engine, ⟨held, ctx⟩, refused, last, told⟩ := auRefused_spec h.ctx au k hd st event
  dsimp only
  unfold State.unitGone
  rw [engine, ctx, refused, last, h.rill]
  exact ⟨⟨⟨h.idle, idle⟩, rfl⟩, rfl, rfl, rfl, fun low => (told low).trans (congrArg counted (h.refuse _ low))⟩

theorem unit_dropped (au : AuJob) (k : RillClass) (st : W16) : let t := (y.auDropped c au k st).settle.schedule
    t.unitGone c d.queue ∧ (st = Status.framePoolEmpty → (t.rill au.rill).droppedNoBuf = bump (s.rill au.rill).droppedNoBuf ∧
      (c / 32 < 16 → t.reg .DEC_CNT_NOBUF (c / 32) 0 = counted (s.reg .DEC_CNT_NOBUF (c / 32) 0))) := by
  obtain ⟨engine, ⟨held, ctx⟩, told⟩ := auDropped_spec h.ctx au k st
  dsimp only
  unfold State.unitGone
  rw [engine, ctx]
  refine ⟨⟨⟨h.idle, idle⟩, rfl⟩, fun empty => ?_⟩
  rw [← h.rill]
  exact ⟨(told empty).1, fun low => ((told empty).2 low).trans (congrArg counted (h.nobuf _ low))⟩

end

section
variable {s : State} {c : Nat} {k : RillClass} {b : DecBind} {au : AuJob} (p : AuParse)

/-- A unit that passes starts a picture where a frame buffer is given at a good address, and is dropped where none is (R219,
R220). -/
theorem unit_starts {y : State} {d x : DecCtx} (at_ : UnitAt s y c d) (gone : x.pic = none) {unit : List Byte} {h : SeqHdr}
    (clean : p.readsPoison = false ∨ (y.reads (portDec (c / 32)) (y.refRanges au.rill x p)).1 = none) {w : State}
    (w_eq : w = (y.reads (portDec (c / 32)) (y.refRanges au.rill x p)).2) : let t := (y.startPicture c k b x au unit h p).settle.schedule
    ((w.alloc b.framePool).1 = none → t.unitGone c x.queue ∧ (t.rill au.rill).droppedNoBuf = bump (s.rill au.rill).droppedNoBuf ∧
      (c / 32 < 16 → t.reg .DEC_CNT_NOBUF (c / 32) 0 = counted (s.reg .DEC_CNT_NOBUF (c / 32) 0))) ∧
    ∀ hd, (w.alloc b.framePool).1 = some hd → rangeStatus s.dev.part hd.addr (SeqHdrGeo h).size = none →
      (t.engine (c / 32)).current = some c ∧ (t.decCtx c).map (·.queue) = some x.queue ∧ (t.decCtx c).bind (·.refusing) = x.refusing ∧
      ∃ pic, (t.decCtx c).bind (·.pic) = some pic ∧ pic.au = au ∧ pic.handle = hd ∧ pic.hdr = h ∧ pic.work = 0 ∧ pic.num = x.nextPic - 1 ∧
        pic.isRef = p.isRef ∧ pic.disc = x.disc := by
  have atW : UnitAt s w c d := by
    rw [w_eq]
    exact at_.keeps (reads_keeps (.refl y) _ _ (Within.mem _))
  have atA : UnitAt s (w.alloc b.framePool).2 c d := atW.keeps (alloc_keeps (.refl w) b.framePool (Within.mem _))
  dsimp only
  refine ⟨fun fails => ?_, fun hd given sound => ?_⟩
  · rw [startPicture_nobuffer clean w w_eq fails]
    obtain ⟨away, told⟩ := unit_dropped (atA.put { x with refs := x.refs.filter p.keep.contains }) gone au k Status.framePoolEmpty
    exact ⟨away, told rfl⟩
  · rw [startPicture_started clean w w_eq given (by rw [atA.part]; exact sound)]
    generalize (w.alloc b.framePool).2 = v at *
    generalize pic_eq : ({ num := x.nextPic - 1, au := au, hdr := h, handle := hd, isRef := p.isRef, keep := p.keep, ctu := p.ctu, disc := x.disc, state := _, work := 0, concealed := false, abandoned := false, substituted := _ } : Pic) = pic
    generalize (!p.rap && (x.substituting || p.refs.any (fun n => !x.refs.contains n))) = sub at *
    have own : ((v.setDecCtx c { x with pic := some pic, substituting := sub }).setEngine (c / 32) { v.engine (c / 32) with current := some c }).decCtx c =
        some { x with pic := some pic, substituting := sub } := (decCtx_setDecCtx v c c _).trans (if_pos rfl)
    have eng : ((v.setDecCtx c { x with pic := some pic, substituting := sub }).setEngine (c / 32) { v.engine (c / 32) with current := some c }).engine (c / 32) =
        { v.engine (c / 32) with current := some c } := engine_setEngine_self ..
    generalize (v.setDecCtx c { x with pic := some pic, substituting := sub }).setEngine (c / 32) { v.engine (c / 32) with current := some c } = z at *
    have rest := settled_decLike z
    obtain ⟨held, ctx⟩ := rest.ctx own
    rw [rest.engine, ctx, eng, ← pic_eq]
    exact ⟨rfl, rfl, rfl, _, rfl, rfl, rfl, rfl, rfl, rfl, rfl, rfl⟩

end

end Sys2Proof.Machine
end

section
/-! SUPPORT. DECODE_TURN as O51 states it (R193, R211 to R214, R219, R220). -/

set_option Elab.async false

namespace Sys2Proof.Machine

theorem onTurn_decReach (s : State) (e c : Nat) (d : DecCtx) (b : DecBind) (p : AuParse) (au : AuJob) :
    (s.onTurn e c).decReach d b p au = s.decReach d b p au := by
  have can : ∀ a n, (s.onTurn e c).canReach a n = s.canReach a n := canReach_congr rfl rfl rfl
  have refs : (s.onTurn e c).refRanges au.rill d p = s.refRanges au.rill d p := rfl
  unfold State.decReach State.canAlloc State.poolReach State.reach State.ringReach
  have pool : (s.onTurn e c).pool b.framePool = s.pool b.framePool := rfl
  rw [refs]
  simp only [can, pool]

section
variable {s : State} {c : Nat} {d : DecCtx} (found : s.decCtx c = some d)
include found

/-- An engine that serves a context with a picture goes on with it (R214). -/
theorem decodeTurn_again : ((s.onTurn (c / 32) c).setEngine (c / 32) { (s.onTurn (c / 32) c).engine (c / 32) with current := some c }).engine (c / 32) =
      { s.engine (c / 32) with last := c % 32, current := some c } ∧
    ((s.onTurn (c / 32) c).setEngine (c / 32) { (s.onTurn (c / 32) c).engine (c / 32) with current := some c }).decCtx c = some d := by
  rw [engine_setEngine_self, onTurn_engine]
  exact ⟨rfl, found⟩

variable {r : Nat} {k : RillClass} {b : DecBind} {au : AuJob} {q : List AuJob} (p : AuParse)
  (rill : d.rill = some r) (cls : s.classOf r = some k) (bind : s.bindOf r = some b) (front : d.queue = au :: q) (plain : au.status = 0)
include rill cls bind front plain

/-- What an engine cannot reach is not taken (R335). -/
theorem decodeTurn_unreached (free : (s.engine (c / 32)).current = none) (idle : d.pic = none) (no : ¬ s.decReach d b p au = true) : let t := (s.onTurn (c / 32) c).serve c d p
    ((t.engine (c / 32)).current = none ∧ (t.decCtx c).bind (·.pic) = none) ∧ t.decCtx c = some d := by
  have same := serve_unit (s := s.onTurn (c / 32) c) p found rill cls bind front plain
  rw [onTurn_decReach, if_neg no] at same
  have a := settle_keeps (.refl (s.onTurn (c / 32) c)) (Within.mem _)
  have b := schedule_keeps (.refl (s.onTurn (c / 32) c).settle) (Within.mem _)
  have ctx : (s.onTurn (c / 32) c).settle.schedule.decCtx c = some d :=
    (decCtx_congr ((b.ing.ctxs.resolve_left (by decide)).trans (a.ing.ctxs.resolve_left (by decide))) c).trans found
  dsimp only
  rw [same, ctx, (settled_decLike _).engine, onTurn_engine]
  exact ⟨⟨free, idle⟩, rfl⟩

/-- What an engine can reach is taken, and its fate is that of the unit read (R211 to R213, R219, R220). -/
theorem decodeTurn_reached (reach : s.decReach d b p au = true) : (s.onTurn (c / 32) c).serve c d p =
    ((s.unitTaken (c / 32) c d au q).auTakes c k b au p (d.taken au q)).settle.schedule := by
  have same := serve_unit (s := s.onTurn (c / 32) c) p found rill cls bind front plain
  rwa [onTurn_decReach, if_pos reach] at same

end

/-- The fate of a unit that is taken. -/
structure UnitFate (s t : State) (c : Nat) (d : DecCtx) (k : RillClass) (b : DecBind) (au : AuJob) (q : List AuJob) (p : AuParse) : Prop where
  left : (t.decCtx c).map (·.queue) = some q
  bad : ∀ st, (s.reads (portDec (c / 32)) [(au.handle.addr, au.length)]).1 = some st → t.unitGone c q
  judged : ∀ st, (s.reads (portDec (c / 32)) [(au.handle.addr, au.length)]).1 = none → d.refusing = none → s.judge k b (d.taken au q) p = some st →
    t.unitGone c q ∧ (t.decCtx c).bind (·.refusing) = some st ∧ (t.rill au.rill).refused = bump (s.rill au.rill).refused ∧
    (t.rill au.rill).lastStatus = st ∧ (c / 32 < 16 → t.reg .DEC_CNT_REFUSE (c / 32) 0 = counted (s.reg .DEC_CNT_REFUSE (c / 32) 0))
  refusing : ∀ st, (s.reads (portDec (c / 32)) [(au.handle.addr, au.length)]).1 = none → d.refusing = some st →
    (¬ (p.seq.isSome = true ∧ p.rap = true) ∨ s.judge k b (d.taken au q) p ≠ none) →
    t.unitGone c q ∧ (t.decCtx c).bind (·.refusing) = some st ∧ (t.rill au.rill).refused = bump (s.rill au.rill).refused ∧
    (c / 32 < 16 → t.reg .DEC_CNT_REFUSE (c / 32) 0 = counted (s.reg .DEC_CNT_REFUSE (c / 32) 0))
  tool : (s.reads (portDec (c / 32)) [(au.handle.addr, au.length)]).1 = none → d.refusing = none → s.judge k b (d.taken au q) p = none →
    p.seq = none → p.toolRefused = true → t.unitGone c q ∧ (t.rill au.rill).refused = bump (s.rill au.rill).refused ∧
    (t.rill au.rill).lastStatus = Status.toolRefused
  starts : let v := (s.reads (portDec (c / 32)) [(au.handle.addr, au.length)]).2
    let w := v.reads (portDec (c / 32)) (v.refRanges au.rill (d.taken au q) p)
    (s.reads (portDec (c / 32)) [(au.handle.addr, au.length)]).1 = none → (p.seq.isSome = true ∧ p.rap = true ∨ d.refusing = none) →
    s.judge k b (d.taken au q) p = none → (p.seq = none → p.toolRefused = false) → (p.readsPoison = false ∨ w.1 = none) →
    ((w.2.alloc b.framePool).1 = none → t.unitGone c q ∧ (t.rill au.rill).droppedNoBuf = bump (s.rill au.rill).droppedNoBuf ∧
      (c / 32 < 16 → t.reg .DEC_CNT_NOBUF (c / 32) 0 = counted (s.reg .DEC_CNT_NOBUF (c / 32) 0))) ∧
    ∀ h, (w.2.alloc b.framePool).1 = some h → rangeStatus s.dev.part h.addr (SeqHdrGeo (d.under p)).size = none →
      (t.engine (c / 32)).current = some c ∧ (t.decCtx c).bind (·.refusing) = none ∧
      ∃ pic, (t.decCtx c).bind (·.pic) = some pic ∧ pic.au = au ∧ pic.handle = h ∧ pic.hdr = d.under p ∧ pic.work = 0 ∧ pic.num = d.nextPic ∧
        pic.isRef = p.isRef ∧ pic.disc = (d.taken au q).disc

/-! ## The queue that a unit leaves -/

theorem Outs.queue {s t : State} (h : Outs s t) {c : Nat} {q : List AuJob} (is_ : (s.decCtx c).map (·.queue) = some q) : (t.decCtx c).map (·.queue) = some q := by
  obtain ⟨held, eq⟩ := h.ctx c
  rw [eq, ← is_]
  cases s.decCtx c <;> rfl

section
variable {y : State} {c : Nat} {q : List AuJob} (is_ : (y.decCtx c).map (·.queue) = some q)
include is_

theorem auRefused_queue (au : AuJob) (k : RillClass) (h : SeqHdr) (st : W16) (event : Bool) : ((y.auRefused c au k h st event).decCtx c).map (·.queue) = some q := by
  refine (auDone_decLike _ c k au).outs.queue ?_
  rw [decCtx_congr (refused_spec y (c / 32) au k h st event).2.1]
  exact is_

theorem auDropped_queue (au : AuJob) (k : RillClass) (st : W16) : ((y.auDropped c au k st).decCtx c).map (·.queue) = some q := by
  refine (auDone_decLike _ c k au).outs.queue ?_
  rw [decCtx_congr (dropped_spec y (c / 32) au st).2.1]
  exact is_

end

theorem setDecCtx_queue (y : State) (c : Nat) (x : DecCtx) : ((y.setDecCtx c x).decCtx c).map (·.queue) = some x.queue := by
  rw [decCtx_setDecCtx, if_pos rfl]
  rfl

theorem startPicture_queue (s : State) (c : Nat) (k : RillClass) (b : DecBind) (d : DecCtx) (au : AuJob) (unit : List Byte) (h : SeqHdr) (p : AuParse) :
    ((s.startPicture c k b d au unit h p).decCtx c).map (·.queue) = some d.queue := by
  have drops (v : State) (st : W16) : (((((v.setDecCtx c { d with refs := d.refs.filter p.keep.contains }).dropPicture (c / 32) au st).freeAu au).endStream c k au).decCtx c).map
      (·.queue) = some d.queue := auDropped_queue (setDecCtx_queue v c _) au k st
  unfold State.startPicture
  dsimp only
  split
  · exact drops _ _
  · split
    · exact drops _ _
    · split
      · exact drops _ _
      · exact setDecCtx_queue _ c _

theorem auTakes_queue (x : State) (c : Nat) (k : RillClass) (b : DecBind) (au : AuJob) (p : AuParse) {d : DecCtx} (found : x.decCtx c = some d) :
    ((x.auTakes c k b au p d).decCtx c).map (·.queue) = some d.queue := by
  have read : (((x.reads (portDec (c / 32)) [(au.handle.addr, au.length)]).2).decCtx c).map (·.queue) = some d.queue :=
    (reads_decLike x _ _).outs.queue (by rw [found]; rfl)
  have under (h : SeqHdr) (z : DecCtx) (same : z.queue = d.queue) : (z.withHdr k h).queue = d.queue := by
    unfold DecCtx.withHdr
    dsimp only
    split
    · split <;> exact same
    · exact same
  unfold State.auTakes
  generalize x.reads (portDec (c / 32)) [(au.handle.addr, au.length)] = seen at *
  obtain ⟨r, y⟩ := seen
  cases r with
  | some st => exact auDropped_queue read au k st
  | none =>
    dsimp only at read ⊢
    split
    · split
      · rw [startPicture_queue]
        exact congrArg some (under _ { d with refusing := none } rfl)
      · exact auRefused_queue read au k _ _ _
    · exact auRefused_queue (setDecCtx_queue y c _) au k _ _ _
    · split
      · exact auRefused_queue read au k _ _ _
      · rw [startPicture_queue]
        split
        · rw [under _ _ rfl]
        · rfl

/-- What happens to a unit that is taken. -/
theorem unit_fate {s : State} {c : Nat} {d : DecCtx} {k : RillClass} {b : DecBind} {au : AuJob} {q : List AuJob} (p : AuParse)
    (free : (s.engine (c / 32)).current = none) (idle : d.pic = none) :
    UnitFate s ((s.unitTaken (c / 32) c d au q).auTakes c k b au p (d.taken au q)).settle.schedule c d k b au q p := by
  obtain ⟨queue, pic, refusing, nextPic, hdr⟩ := taken_fields d au q
  have at_ := unitRead_at s d au q free
  have gone : (d.taken au q).pic = none := pic.trans idle
  have found := unitTaken_found s (c / 32) c d au q
  have judge := unitRead_judge s (c / 32) c d au q k b (d.taken au q) p
  have under : (d.taken au q).under p = d.under p := by
    unfold DecCtx.under
    rw [hdr]
  refine { left := ?_, bad := fun st bad => ?_, judged := fun st good fresh judged => ?_, refusing := fun st good inForce no => ?_,
           tool := fun good fresh judged bare tool => ?_, starts := fun good passes judged tool clean => ?_ }
  · have left := (settled_decLike _).outs.queue (auTakes_queue (s.unitTaken (c / 32) c d au q) c k b au p (unitTaken_ctx ..))
    rwa [queue] at left
  · rw [auTakes_bad (found.trans bad)]
    have away := (unit_dropped at_ gone au k st).1
    rwa [queue] at away
  · rw [auTakes_judged rfl (found.trans good) (refusing.trans fresh) (judge.trans judged)]
    have fate := unit_refused (at_.put { d.taken au q with refusing := some st }) gone au k ((d.taken au q).under p) st true
    dsimp only at fate
    rwa [queue] at fate
  · rw [auTakes_refusing rfl (found.trans good) (refusing.trans inForce) (no.imp_right fun ne is_ => ne (judge.symm.trans is_))]
    obtain ⟨away, force, count, -, told⟩ := unit_refused at_ gone au k ((d.taken au q).under p) st false
    rw [queue] at away
    exact ⟨away, force.trans (refusing.trans inForce), count, told⟩
  · rw [auTakes_tool rfl (found.trans good) (refusing.trans fresh) (judge.trans judged) bare tool]
    obtain ⟨away, -, count, last, -⟩ := unit_refused at_ gone au k ((d.taken au q).under p) Status.toolRefused true
    rw [queue] at away
    exact ⟨away, count, last⟩
  · have passesT : p.seq.isSome = true ∧ p.rap = true ∨ (d.taken au q).refusing = none := passes.imp_right refusing.trans
    obtain ⟨refusingS, queueS, picS, nextS, discS, -, -⟩ := starting_spec (d.taken au q) k p passesT
    obtain ⟨poison, alike⟩ := refsRead_same s (c / 32) c d au q k p passesT
    rw [auTakes_starts rfl (found.trans good) passesT (judge.trans judged) tool, under]
    have given := (alike.alloc b.framePool).1
    obtain ⟨none_, some_⟩ := unit_starts (b := b) (k := k) (unit := (s.unitTaken (c / 32) c d au q).memGet au.handle.addr au.length) (h := d.under p) p at_
      (picS.trans gone) (clean.imp_right poison.trans) (w := s.refsRead (c / 32) c d au q k p) rfl
    rw [queueS, queue] at none_
    refine ⟨fun fails => none_ (given.trans fails), fun h taken sound => ?_⟩
    obtain ⟨engine, -, force, x, isPic, ofAu, handle, header, work, num, isRef, disc⟩ := some_ h (given.trans taken) sound
    exact ⟨engine, force.trans refusingS, x, isPic, ofAu, handle, header, work, num.trans (by rw [nextS, nextPic]; rfl), isRef, disc.trans discS⟩

end Sys2Proof.Machine
end

section
/-! SUPPORT. DECODE_TURN and QUANTUM_EXPIRE (R193, R211 to R215, R219, R220). -/

set_option Elab.async false

namespace Sys2Proof.Machine

theorem bump_min (v : Nat) : bump v = min 0xFFFFFFFF (v + 1) := rfl

theorem decodeTurn_effect (e : Nat) (p : AuParse) (s : State) :
    let more := fun (v : Nat) => min 0xFFFFFFFF (v + 1)
    completes (.decodeTurn e p) (Comp.buffers ++ Comp.dramSeen ++ Comp.events ++
      Comp.lanes ++ [.ingCtxs, .ingEngines, .ingFrames, .reg .CISTERN_CNT_ALLOC, .reg .DEC_CNT_FRAMES, .reg .DEC_CNT_NOBUF,
        .reg .DEC_CNT_REFUSE, .trkFlows, .trkPerRill]) s (fun t =>
    let may := decPresent s.dev.part e = true ∧ s.domainLive (.decode (e / 4)) = true ∧ s.weir.coolant = .none ∧
      (s.engine e).current = none
    ((¬ may ∨ s.nextReady e = none) → t = s) ∧
    ∀ c d, may → s.nextReady e = some c → s.decCtx c = some d →
      (t.engine e).last = c % 32 ∧
      (d.pic ≠ none → (t.engine e).current = some c ∧ t.decCtx c = some d) ∧
      ∀ r k b au q, d.pic = none → d.rill = some r → s.classOf r = some k → s.bindOf r = some b → d.queue = au :: q →
        au.status = 0 →
        let d0 := if bitAt au.flags 1 = true then { d with refs := [], avg := d.a0, disc := d.disc + 1 } else d
        let d1 := { d0 with queue := q, nextPic := d.nextPic + 1 }
        let v := s.reads (portDec e) [(au.handle.addr, au.length)]
        let w := v.2.reads (portDec e) (v.2.refRanges au.rill d1 p)
        let none_ := (t.engine e).current = none ∧ (t.decCtx c).bind (·.pic) = none
        let left := (t.decCtx c).map (·.queue) = some q
        let passes := p.seq.isSome = true ∧ p.rap = true ∨ d.refusing = none
        let reaches := s.decReach d b p au = true
        (¬ reaches → none_ ∧ t.decCtx c = some d) ∧
        (reaches → left) ∧
        (∀ st, reaches → v.1 = some st → none_) ∧
        (∀ st, reaches → v.1 = none → d.refusing = none → s.judge k b d1 p = some st →
          none_ ∧ (t.decCtx c).bind (·.refusing) = some st ∧ (t.rill au.rill).refused = more (s.rill au.rill).refused ∧
          (t.rill au.rill).lastStatus = st ∧
          (e < 16 → t.reg .DEC_CNT_REFUSE e 0 = counted (s.reg .DEC_CNT_REFUSE e 0))) ∧
        (∀ st, reaches → v.1 = none → d.refusing = some st → (¬ passes ∨ s.judge k b d1 p ≠ none) →
          none_ ∧ (t.decCtx c).bind (·.refusing) = some st ∧ (t.rill au.rill).refused = more (s.rill au.rill).refused ∧
          (e < 16 → t.reg .DEC_CNT_REFUSE e 0 = counted (s.reg .DEC_CNT_REFUSE e 0))) ∧
        (reaches → v.1 = none → d.refusing = none → s.judge k b d1 p = none → p.seq = none → p.toolRefused = true →
          none_ ∧ (t.rill au.rill).refused = more (s.rill au.rill).refused ∧
          (t.rill au.rill).lastStatus = Status.toolRefused) ∧
        (reaches → v.1 = none → passes → s.judge k b d1 p = none → (p.seq = none → p.toolRefused = false) →
          (p.readsPoison = false ∨ w.1 = none) →
          ((w.2.alloc b.framePool).1 = none →
            none_ ∧ (t.rill au.rill).droppedNoBuf = more (s.rill au.rill).droppedNoBuf ∧
            (e < 16 → t.reg .DEC_CNT_NOBUF e 0 = counted (s.reg .DEC_CNT_NOBUF e 0))) ∧
          (∀ h, (w.2.alloc b.framePool).1 = some h →
            let hdr := p.seq.getD (d.hdr.getD noHdr)
            rangeStatus s.dev.part h.addr (SeqHdrGeo hdr).size = none →
            (t.engine e).current = some c ∧ (t.decCtx c).bind (·.refusing) = none ∧
            ∃ pic, (t.decCtx c).bind (·.pic) = some pic ∧ pic.au = au ∧ pic.handle = h ∧ pic.hdr = hdr ∧ pic.work = 0 ∧
              pic.num = d.nextPic ∧ pic.isRef = p.isRef ∧ pic.disc = d0.disc))) := by
  have ran_keeps := execDecodeTurn_keeps (.refl s) e p (Within.mem _)
  change KeepsOut _ s (exec (.decodeTurn e p) s) at ran_keeps
  obtain ⟨t, ran⟩ : ∃ t, exec (.decodeTurn e p) s = .next t := ⟨_, rfl⟩
  have is_ : ∀ {v}, exec (.decodeTurn e p) s = .next v → t = v := fun h => Host.Outcome.next.inj (ran.symm.trans h)
  rw [ran] at ran_keeps
  dsimp only
  refine completes_of ran ran_keeps (by decide +kernel) ⟨fun no => is_ (exec_decodeTurn_no p no), fun c d may ready found => ?_⟩
  obtain rfl := nextReady_engine ready
  clear ran_keeps
  by_cases idle : d.pic = none
  case neg =>
    obtain ⟨engine, ctx⟩ := decodeTurn_again found
    rw [is_ (exec_decodeTurn_again p may ready found idle), engine]
    exact ⟨rfl, fun _ => ⟨rfl, ctx⟩, fun r k b au q none_ => absurd none_ idle⟩
  have served := is_ (exec_decodeTurn_serve p may ready found idle)
  have free : (s.engine (c / 32)).current = none := may.2.2.2
  refine ⟨?_, fun busy => absurd idle busy, fun r k b au q _ rill cls bind front plain => ?_⟩
  · rw [served, (serve_last p).all, onTurn_engine]
  have fate (reach : s.decReach d b p au = true) : UnitFate s t c d k b au q p := by
    rw [served, decodeTurn_reached found p rill cls bind front plain reach]
    exact unit_fate p free idle
  have disc : (d.taken au q).disc = (if bitAt au.flags 1 = true then { d with refs := [], avg := d.a0, disc := d.disc + 1 } else d).disc := rfl
  refine ⟨fun no => ?_, fun reach => (fate reach).left, fun st reach bad => ((fate reach).bad st bad).1, fun st reach good fresh judged => ?_,
    fun st reach good force no => ?_, fun reach good fresh judged bare tool => ?_, fun reach good passes judged tool clean => ?_⟩
  · rw [served]
    exact decodeTurn_unreached found p rill cls bind front plain free idle no
  · obtain ⟨away, rest⟩ := (fate reach).judged st good fresh judged
    rw [bump_min] at rest
    exact ⟨away.1, rest⟩
  · obtain ⟨away, rest⟩ := (fate reach).refusing st good force (no.imp_left fun not both => not (.inl both))
    rw [bump_min] at rest
    exact ⟨away.1, rest⟩
  · obtain ⟨away, rest⟩ := (fate reach).tool good fresh judged bare tool
    rw [bump_min] at rest
    exact ⟨away.1, rest⟩
  · obtain ⟨none_, some_⟩ := (fate reach).starts good passes judged tool clean
    refine ⟨fun fails => ?_, fun h given sound => some_ h given sound⟩
    obtain ⟨away, rest⟩ := none_ fails
    rw [bump_min] at rest
    exact ⟨away.1, rest⟩

/-! ## QUANTUM_EXPIRE -/

theorem onEngine_some {s : State} {e c : Nat} {d : DecCtx} {p : Pic} {k : RillClass} (h : s.onEngine e = some (c, d, p, k)) :
    s.decCtx c = some d ∧ d.pic = some p := by
  unfold State.onEngine at h
  split at h
  · split at h
    · next at_ =>
      split at h
      · next pic _ =>
        obtain ⟨x, -, eq⟩ := Option.map_eq_some_iff.1 h
        cases eq
        exact ⟨at_, pic⟩
      · cases h
    · cases h
  · cases h

/-- Work that a turn adds (R214, R215). -/
theorem addWork_rill (s : State) (r w : Nat) : ((s.addWork r w).rill r).work = (s.nowNs, w) :: (s.rill r).work.filter (fun x => decide (s.nowNs < x.1 + 1000000000)) ∧
    ((s.addWork r w).rill r).concealed = (s.rill r).concealed ∧ ((s.addWork r w).rill r).abandoned = (s.rill r).abandoned := by
  unfold State.addWork
  rw [rill_updRill, if_pos rfl]
  exact ⟨rfl, rfl, rfl⟩

theorem quantumExpire_effect (e w : Nat) (s : State) : completes (.quantumExpire e w) [.ingCtxs, .ingEngines, .ingRills, .reg .DEC_CNT_WORK] s
      (fun t =>
    (s.onEngine e = none → t = s) ∧
    ∀ c d p k, s.onEngine e = some (c, d, p, k) →
      if s.engineRuns e = true ∧ s.regNat .DEC_QUANTUM_US e 0 * 1000 ≤ w ∧ p.work + w ≤ budget k d then
        (t.engine e).current = none ∧ t.decCtx c = some { d with pic := some { p with work := p.work + w } } ∧
        (t.rill p.au.rill).work.head? = some (s.nowNs, w) ∧
        (e < 16 → t.reg .DEC_CNT_WORK e 0 = s.reg .DEC_CNT_WORK e 0 + BitVec.ofNat 64 w)
      else t = s) := by
  have ran_keeps := execQuantumExpire_keeps (.refl s) e w (Within.mem _)
  change KeepsOut _ s (exec (.quantumExpire e w) s) at ran_keeps
  obtain ⟨t, ran⟩ : ∃ t, exec (.quantumExpire e w) s = .next t := ⟨_, rfl⟩
  have is_ : ∀ {v}, exec (.quantumExpire e w) s = .next v → t = v := fun h => Host.Outcome.next.inj (ran.symm.trans h)
  rw [ran] at ran_keeps
  refine completes_of ran ran_keeps (by decide +kernel) ⟨fun none_ => is_ ?_, fun c d p k on => ?_⟩
  · change execQuantumExpire e w s = _
    unfold execQuantumExpire
    rw [none_]
  have test : (s.engineRuns e && decide (s.regNat .DEC_QUANTUM_US e 0 * 1000 ≤ w) && decide (p.work + w ≤ budget k d)) = true ↔
      s.engineRuns e = true ∧ s.regNat .DEC_QUANTUM_US e 0 * 1000 ≤ w ∧ p.work + w ≤ budget k d := by
    simp [and_assoc]
  split
  · next may =>
    have eq : exec (.quantumExpire e w) s = .next ((((s.setDecCtx c { d with pic := some { p with work := p.work + w } }).addTo .DEC_CNT_WORK e w).addWork p.au.rill w).setEngine e
        { (((s.setDecCtx c { d with pic := some { p with work := p.work + w } }).addTo .DEC_CNT_WORK e w).addWork p.au.rill w).engine e with current := none }) := by
      change execQuantumExpire e w s = _
      unfold execQuantumExpire
      rw [on]
      exact congrArg _ (when_eq s (test.2 may) _)
    obtain rfl := is_ eq
    have k := addTo_keeps (cs := fun c => c ∈ [Comp.reg .DEC_CNT_WORK]) (.refl (s.setDecCtx c { d with pic := some { p with work := p.work + w } }))
      .DEC_CNT_WORK e w (.inr (by decide))
    have now : ((s.setDecCtx c { d with pic := some { p with work := p.work + w } }).addTo .DEC_CNT_WORK e w).nowNs = s.nowNs :=
      congrArg (fun x : Thyme => x.now.toNat) (k.thy_eq (by decide))
    refine ⟨?_, ?_, ?_, fun low => addTo_reg _ _ _ _ (regOk_dec low).2.2.1⟩
    · rw [engine_setEngine_self]
    · exact (decCtx_congr (congrArg Ingest.ctxs (k.ing_eq (by decide))) c).trans ((decCtx_setDecCtx s c c _).trans (if_pos rfl))
    · have work := (addWork_rill ((s.setDecCtx c { d with pic := some { p with work := p.work + w } }).addTo .DEC_CNT_WORK e w) p.au.rill w).1
      exact (congrArg List.head? work).trans (congrArg (fun n => some (n, w)) now)
  · next no =>
    refine is_ ?_
    change execQuantumExpire e w s = _
    unfold execQuantumExpire
    rw [on]
    exact congrArg _ (when_neg s (mt test.1 no) _)

end Sys2Proof.Machine
end

section
/-! SUPPORT. The end of a picture (R193, R214, R216 to R219, R222). -/

set_option Elab.async false

namespace Sys2Proof.Machine

/-- From `s` to `t` no rill has counted a concealed or an abandoned picture, and no engine work or an abandonment. -/
structure EndLike (s t : State) : Prop where
  concealed : ∀ q, (t.rill q).concealed = (s.rill q).concealed
  abandoned : ∀ q, (t.rill q).abandoned = (s.rill q).abandoned
  work : ∀ e < 16, t.reg .DEC_CNT_WORK e 0 = s.reg .DEC_CNT_WORK e 0
  abandon : ∀ e < 16, t.reg .DEC_CNT_ABANDON e 0 = s.reg .DEC_CNT_ABANDON e 0

theorem EndLike.refl (s : State) : EndLike s s := ⟨fun _ => rfl, fun _ => rfl, fun _ _ => rfl, fun _ _ => rfl⟩

theorem EndLike.trans {s t v : State} (h : EndLike s t) (g : EndLike t v) : EndLike s v :=
  ⟨fun q => (g.concealed q).trans (h.concealed q), fun q => (g.abandoned q).trans (h.abandoned q),
    fun e low => (g.work e low).trans (h.work e low), fun e low => (g.abandon e low).trans (h.abandon e low)⟩

theorem EndLike.of_rills {cs : List Comp} {s t : State} (concealed : ∀ q, (t.rill q).concealed = (s.rill q).concealed)
    (abandoned : ∀ q, (t.rill q).abandoned = (s.rill q).abandoned) (k : Keeps (fun c => c ∈ cs) s t) (all : .regs ∉ cs := by decide)
    (work : .reg .DEC_CNT_WORK ∉ cs := by decide) (abandon : .reg .DEC_CNT_ABANDON ∉ cs := by decide) : EndLike s t :=
  ⟨concealed, abandoned, fun _ low => k.reg_eq all work (regOk_dec low).2.2.1, fun _ low => k.reg_eq all abandon (regOk_dec low).2.2.2⟩

theorem EndLike.of_keeps {cs : List Comp} {s t : State} (k : Keeps (fun c => c ∈ cs) s t) (rills : .ingRills ∉ cs := by decide)
    (all : .regs ∉ cs := by decide) (work : .reg .DEC_CNT_WORK ∉ cs := by decide) (abandon : .reg .DEC_CNT_ABANDON ∉ cs := by decide) : EndLike s t :=
  have same := k.ing.rills.resolve_left rills
  .of_rills (fun q => congrArg _ (rill_congr same q)) (fun q => congrArg _ (rill_congr same q)) k all work abandon

theorem EndLike.of_outs {cs : List Comp} {s t : State} (outs : Outs s t) (k : Keeps (fun c => c ∈ cs) s t) (all : .regs ∉ cs := by decide)
    (work : .reg .DEC_CNT_WORK ∉ cs := by decide) (abandon : .reg .DEC_CNT_ABANDON ∉ cs := by decide) : EndLike s t := by
  have fields (q : Nat) : (t.rill q).concealed = (s.rill q).concealed ∧ (t.rill q).abandoned = (s.rill q).abandoned := by
    have rill := outs.rill q
    unfold Rill.Outputs at rill
    rw [rill]
    exact ⟨rfl, rfl⟩
  exact .of_rills (fun q => (fields q).1) (fun q => (fields q).2) k all work abandon

theorem picEvent_endLike (s : State) (p : Pic) (kind : Nat) (st : W16) (slice row off : Nat) : EndLike s (s.picEvent p kind st slice row off) := by
  have fields (q : Nat) : ((s.picEvent p kind st slice row off).rill q).concealed = (s.rill q).concealed ∧
      ((s.picEvent p kind st slice row off).rill q).abandoned = (s.rill q).abandoned := by
    unfold State.picEvent
    rw [ingestEvent_rill]
    split
    · exact ⟨rfl, rfl⟩
    · exact ⟨rfl, rfl⟩
  exact .of_rills (fun q => (fields q).1) (fun q => (fields q).2) (ingestEvent_keeps (.refl s) _ (Within.mem _))

theorem areaEvents_endLike (s : State) (port : Nat) (p : Pic) (src : Option Frame) (as : List Area) : EndLike s (s.areaEvents port p src as) := by
  induction as generalizing s with
  | nil => exact .refl s
  | cons a as ih =>
    unfold State.areaEvents
    exact ((EndLike.of_keeps (reads_keeps (.refl s) port _ (Within.mem _))).trans (picEvent_endLike _ p 2 _ _ _ _)).trans (ih _)

/-- What counting a picture's outcome leaves (R217, R218). -/
theorem countPicture_spec (s : State) (eng : Nat) (p : Pic) : let t := s.countPicture eng p
    (t.rill p.au.rill).concealed = (if p.concealed then bump (s.rill p.au.rill).concealed else (s.rill p.au.rill).concealed) ∧
    (t.rill p.au.rill).abandoned = (if p.abandoned then bump (s.rill p.au.rill).abandoned else (s.rill p.au.rill).abandoned) ∧
    (eng < 16 → t.reg .DEC_CNT_WORK eng 0 = s.reg .DEC_CNT_WORK eng 0 ∧
      t.reg .DEC_CNT_ABANDON eng 0 = if p.abandoned then counted (s.reg .DEC_CNT_ABANDON eng 0) else s.reg .DEC_CNT_ABANDON eng 0) := by
  unfold State.countPicture
  extract_lets first second third
  have rill (q : Nat) : third.rill q = first.rill q := by
    have up : second.rill q = first.rill q := by
      dsimp only [second]
      split
      · exact count_rill _ _ _ _
      · rfl
    dsimp only [third]
    split
    · exact (count_rill _ _ _ _).trans up
    · exact up
  have own : first.rill p.au.rill = _ := (rill_updRill _ _ _ _).trans (if_pos rfl)
  refine ⟨congrArg Rill.concealed ((rill _).trans own), congrArg Rill.abandoned ((rill _).trans own), fun low => ?_⟩
  have keeps (r : Reg) (ok : regOk r eng 0 = true) (ne : r ≠ .DEC_CNT_CONCEAL) : second.reg r eng 0 = s.reg r eng 0 := by
    dsimp only [second]
    split
    · exact count_reg_other first ok (.inl ne)
    · rfl
  obtain ⟨-, -, work, abandon⟩ := regOk_dec low
  refine ⟨?_, ?_⟩
  · rw [← keeps _ work (by decide)]
    dsimp only [third]
    split
    · exact count_reg_other second work (.inl (by decide))
    · rfl
  · rw [← keeps _ abandon (by decide)]
    dsimp only [third]
    split
    · exact count_reg second _ _ abandon
    · rfl

/-- From `s` to `t` the picture `p` of context `c` has ended on engine `eng`. -/
structure PicEnds (s t : State) (eng c : Nat) (d : DecCtx) (p : Pic) : Prop where
  engine : (t.engine eng).current = none
  ctx : ∃ held state, t.decCtx c = some { d with
    pic := none, refs := d.refs.filter p.keep.contains ++ (if p.isRef then [p.num] else []), held := held, state := state
    avg := if p.abandoned then d.avg else nextAvg d.avg p.work }
  concealed : (t.rill p.au.rill).concealed = if p.concealed then bump (s.rill p.au.rill).concealed else (s.rill p.au.rill).concealed
  abandoned : (t.rill p.au.rill).abandoned = if p.abandoned then bump (s.rill p.au.rill).abandoned else (s.rill p.au.rill).abandoned
  counts : eng < 16 → t.reg .DEC_CNT_WORK eng 0 = s.reg .DEC_CNT_WORK eng 0 ∧
    t.reg .DEC_CNT_ABANDON eng 0 = if p.abandoned then counted (s.reg .DEC_CNT_ABANDON eng 0) else s.reg .DEC_CNT_ABANDON eng 0

/-- What comes before a picture's count and after it counts nothing. -/
theorem PicEnds.of_count {s a b t : State} {eng c : Nat} {d : DecCtx} {p : Pic} (before : EndLike s a) (count : b = a.countPicture eng p)
    (after : EndLike b t) (engine : (t.engine eng).current = none)
    (ctx : ∃ held state, t.decCtx c = some { d with
      pic := none, refs := d.refs.filter p.keep.contains ++ (if p.isRef then [p.num] else []), held := held, state := state
      avg := if p.abandoned then d.avg else nextAvg d.avg p.work }) : PicEnds s t eng c d p := by
  subst count
  obtain ⟨concealed, abandoned, counts⟩ := countPicture_spec a eng p
  refine ⟨engine, ctx, ?_, ?_, fun low => ?_⟩
  · rw [after.concealed, concealed, before.concealed]
  · rw [after.abandoned, abandoned, before.abandoned]
  · obtain ⟨work, abandon⟩ := counts low
    rw [after.work _ low, work, before.work _ low, after.abandon _ low, abandon, before.abandon _ low]
    exact ⟨rfl, rfl⟩

theorem endPicture_ends (s : State) (eng c : Nat) (k : RillClass) (d : DecCtx) (p : Pic) (areas : List Area) (rest : List CtuRun)
    (outputs : List Nat) {tell : State → State} (told : ∀ x, EndLike x (tell x)) :
    PicEnds s (s.endPicture eng c k d p areas rest outputs tell) eng c d p := by
  unfold State.endPicture
  extract_lets r src rows s1 s2 s3 refs s4 s5
  have first : EndLike s s1 := by
    dsimp only [s1]
    split
    · exact picEvent_endLike _ _ _ _ _ _ _
    · exact .refl s
  have second : EndLike s1 s2 :=
    (areaEvents_endLike s1 (portDec eng) p src areas).trans (.of_keeps (visitAll_keeps (.refl _) (portDec eng) _ (Within.mem _)))
  have third : EndLike ((tell s2).countPicture eng p) s3 :=
    (EndLike.of_keeps (putRows_keeps (.refl _) (portDec eng) p.handle.addr rows (Within.mem _))).trans (.of_keeps (freeAu_keeps (.refl _) p.au (Within.mem _)))
  have outs : Outs s4 s5 := (outputHeld_outs s4 c k outputs).trans (endStream_outs _ c k p.au)
  have fifth : EndLike s4 s5 :=
    (EndLike.of_outs (outputHeld_outs s4 c k outputs) (outputHeld_keeps (.refl s4) c k outputs (Within.mem _))).trans
      (.of_outs (endStream_outs _ c k p.au) (endStream_keeps (.refl _) c k p.au (Within.mem _)))
  have marks : Keeps (fun c => c ∈ markFramesChanges) (s3.setDecCtx c { d with
      pic := none, refs := refs, held := d.held ++ [p], state := Config.decoderNext p.state (rows.flatMap (·.2))
      avg := if p.abandoned then d.avg else nextAvg d.avg p.work }) s4 := remark_keeps (.refl _) r (Within.mem _)
  have later := EndLike.of_keeps marks
  have fourth : EndLike s3 s4 := ⟨later.concealed, later.abandoned, later.work, later.abandon⟩
  have set : EndLike s5 (s5.setEngine eng { s5.engine eng with current := none }) := ⟨fun _ => rfl, fun _ => rfl, fun _ _ => rfl, fun _ _ => rfl⟩
  refine .of_count ((first.trans second).trans (told s2)) rfl (((third.trans fourth).trans fifth).trans set) ?_ ?_
  · rw [engine_setEngine_self]
  · obtain ⟨held, eq⟩ := outs.ctx c
    rw [(decCtx_congr (marks.ing.ctxs.resolve_left (by decide)) c).trans ((decCtx_setDecCtx _ c c _).trans (if_pos rfl))] at eq
    exact ⟨held, _, eq⟩

theorem settled_endLike (s : State) : EndLike s s.settle.schedule :=
  (EndLike.of_keeps (settle_keeps (.refl s) (Within.mem _))).trans (.of_keeps (schedule_keeps (.refl s.settle) (Within.mem _)))

theorem PicEnds.settled {s t : State} {eng c : Nat} {d : DecCtx} {p : Pic} (h : PicEnds s t eng c d p) : PicEnds s t.settle.schedule eng c d p := by
  have like := settled_decLike t
  have ends := settled_endLike t
  obtain ⟨held, state, ctx⟩ := h.ctx
  obtain ⟨fewer, eq⟩ := like.ctx ctx
  refine ⟨?_, ⟨fewer, state, eq⟩, (ends.concealed _).trans h.concealed, (ends.abandoned _).trans h.abandoned, fun low => ?_⟩
  · rw [like.engine]
    exact h.engine
  · exact ⟨(ends.work _ low).trans (h.counts low).1, (ends.abandon _ low).trans (h.counts low).2⟩

end Sys2Proof.Machine
end

section
/-! SUPPORT. PICTURE_COMPLETE, BUDGET_EXCEEDED and ENGINE_UTIL_UPDATE (R214 to R219, R227; obligation O51). -/

set_option Elab.async false

namespace Sys2Proof.Machine

/-! ## Pictures that end -/

/-- The state in which an engine has counted the work of a picture's last turn (R214, R215). -/
def State.worked (s : State) (e w r : Nat) : State := (s.addTo .DEC_CNT_WORK e w).addWork r w

theorem worked_spec (s : State) (e w r : Nat) : ((s.worked e w r).rill r).concealed = (s.rill r).concealed ∧
    ((s.worked e w r).rill r).abandoned = (s.rill r).abandoned ∧
    (e < 16 → (s.worked e w r).reg .DEC_CNT_WORK e 0 = s.reg .DEC_CNT_WORK e 0 + BitVec.ofNat 64 w ∧
      (s.worked e w r).reg .DEC_CNT_ABANDON e 0 = s.reg .DEC_CNT_ABANDON e 0) := by
  obtain ⟨-, concealed, abandoned⟩ := addWork_rill (s.addTo .DEC_CNT_WORK e w) r w
  have k := addTo_keeps (cs := fun c => c ∈ [Comp.reg .DEC_CNT_WORK]) (.refl s) .DEC_CNT_WORK e w (.inr (by decide))
  have rill := rill_congr (k.ing.rills.resolve_left (by decide)) r
  refine ⟨concealed.trans (congrArg _ rill), abandoned.trans (congrArg _ rill), fun low => ?_⟩
  obtain ⟨-, -, work, abandon⟩ := regOk_dec low
  exact ⟨addTo_reg _ _ _ _ work, addTo_reg_other _ _ abandon (.inl (by decide))⟩

/-- A picture at its end, after its last turn (R214, R218). -/
def Pic.finished (p : Pic) (w : Nat) (as : List Area) : Pic := { p with work := p.work + w, concealed := as != [] }

/-- A picture that is abandoned after its last turn (R217). -/
def Pic.cut (p : Pic) (w : Nat) (as : List Area) (rest : List CtuRun) : Pic :=
  { p with work := p.work + w, abandoned := true, concealed := as != [] || rest != [] }

/-- Whether a completed picture may end. -/
def State.mayFinish (s : State) (e w : Nat) (as : List Area) (d : DecCtx) (p : Pic) (k : RillClass) : Bool :=
  s.engineRuns e && decide (p.work + w ≤ budget k d) && p.areasOk as && s.endReach d p (as.flatMap (·.runs))

/-- Whether a picture past its budget may end. -/
def State.mayCut (s : State) (e w : Nat) (rest : List CtuRun) (as : List Area) (d : DecCtx) (p : Pic) (k : RillClass) : Bool :=
  s.engineRuns e && decide (budget k d < p.work + w) && p.areasOk as && p.runsOk rest && s.endReach d p (as.flatMap (·.runs) ++ rest)

section
variable {s : State} {e w sl off c : Nat} {as : List Area} {rest : List CtuRun} {os : List Nat} {d : DecCtx} {p : Pic} {k : RillClass}

theorem exec_pictureComplete_away (on : s.onEngine e = none) : exec (.pictureComplete e w as os) s = .next s := by
  change execPictureComplete e w as os s = _
  unfold execPictureComplete
  rw [on]

theorem exec_pictureComplete_no (on : s.onEngine e = some (c, d, p, k)) (no : ¬ s.mayFinish e w as d p k = true) :
    exec (.pictureComplete e w as os) s = .next s := by
  change execPictureComplete e w as os s = _
  unfold execPictureComplete
  rw [on]
  exact congrArg _ (when_neg s no _)

theorem exec_pictureComplete_ends (on : s.onEngine e = some (c, d, p, k)) (may : s.mayFinish e w as d p k = true) :
    exec (.pictureComplete e w as os) s = .next (((s.worked e w p.au.rill).endPicture e c k d (p.finished w as) as [] os id).settle.schedule) := by
  change execPictureComplete e w as os s = _
  unfold execPictureComplete
  rw [on]
  exact congrArg _ (when_eq s may _)

theorem exec_budgetExceeded_away (on : s.onEngine e = none) : exec (.budgetExceeded e w sl off rest as os) s = .next s := by
  change execBudgetExceeded e w sl off rest as os s = _
  unfold execBudgetExceeded
  rw [on]

theorem exec_budgetExceeded_no (on : s.onEngine e = some (c, d, p, k)) (no : ¬ s.mayCut e w rest as d p k = true) :
    exec (.budgetExceeded e w sl off rest as os) s = .next s := by
  change execBudgetExceeded e w sl off rest as os s = _
  unfold execBudgetExceeded
  rw [on]
  exact congrArg _ (when_neg s no _)

theorem exec_budgetExceeded_ends (on : s.onEngine e = some (c, d, p, k)) (may : s.mayCut e w rest as d p k = true) :
    exec (.budgetExceeded e w sl off rest as os) s = .next (((s.worked e w p.au.rill).endPicture e c k d (p.cut w as rest) as rest os
      (fun x => x.picEvent (p.cut w as rest) 3 Status.decodeBudget sl ((p.cut w as rest).firstRow rest) off)).settle.schedule) := by
  change execBudgetExceeded e w sl off rest as os s = _
  unfold execBudgetExceeded
  rw [on]
  exact congrArg _ (when_eq s may _)

end

theorem pictureComplete_effect (e w : Nat) (as : List Area) (os : List Nat) (s : State) : let more := fun (v : Nat) => min 0xFFFFFFFF (v + 1)
    completes (.pictureComplete e w as os) (Comp.buffers ++
      Comp.dramSeen ++ Comp.events ++ Comp.lanes ++ [.ingCtxs, .ingEngines, .ingFrames, .reg .DEC_CNT_ABANDON,
        .reg .DEC_CNT_CONCEAL, .reg .DEC_CNT_FRAMES, .reg .DEC_CNT_WORK, .trkFlows, .trkPerRill]) s (fun t =>
    (s.onEngine e = none → t = s) ∧
    ∀ c d p k, s.onEngine e = some (c, d, p, k) →
      if s.engineRuns e = true ∧ p.work + w ≤ budget k d ∧ p.areasOk as = true ∧
          s.endReach d p (as.flatMap (·.runs)) = true then
        (t.engine e).current = none ∧ (t.decCtx c).bind (·.pic) = none ∧
        (t.decCtx c).map (·.avg) = some (if p.abandoned = true then d.avg else nextAvg d.avg (p.work + w)) ∧
        (t.decCtx c).map (·.refs) = some (d.refs.filter p.keep.contains ++ if p.isRef = true then [p.num] else []) ∧
        (t.rill p.au.rill).concealed =
          (if as ≠ [] then more (s.rill p.au.rill).concealed else (s.rill p.au.rill).concealed) ∧
        (e < 16 → t.reg .DEC_CNT_WORK e 0 = s.reg .DEC_CNT_WORK e 0 + BitVec.ofNat 64 w)
      else t = s) := by
  have kept := execPictureComplete_keeps (.refl s) e w as os (Within.mem _)
  change KeepsOut _ s (exec (.pictureComplete e w as os) s) at kept
  obtain ⟨t, ran⟩ : ∃ t, exec (.pictureComplete e w as os) s = .next t := ⟨_, rfl⟩
  have is_ : ∀ {v}, exec (.pictureComplete e w as os) s = .next v → t = v := fun h => Host.Outcome.next.inj (ran.symm.trans h)
  rw [ran] at kept
  dsimp only
  refine completes_of ran kept (by decide +kernel) ⟨fun away => is_ (exec_pictureComplete_away away), fun c d p k on => ?_⟩
  clear kept
  have test : s.mayFinish e w as d p k = true ↔
      s.engineRuns e = true ∧ p.work + w ≤ budget k d ∧ p.areasOk as = true ∧ s.endReach d p (as.flatMap (·.runs)) = true := by
    simp [State.mayFinish, and_assoc]
  split
  · next may =>
    have ends := (endPicture_ends (s.worked e w p.au.rill) e c k d (p.finished w as) as [] os (tell := id) EndLike.refl).settled
    rw [← show t = _ from is_ (exec_pictureComplete_ends on (test.2 may))] at ends
    obtain ⟨concealed, -, counts⟩ := worked_spec s e w p.au.rill
    obtain ⟨held, state, ctx⟩ := ends.ctx
    refine ⟨ends.engine, (congrArg (·.bind (·.pic)) ctx).trans rfl, (congrArg (·.map (·.avg)) ctx).trans rfl, (congrArg (·.map (·.refs)) ctx).trans rfl,
      ends.concealed.trans ?_, fun low => (ends.counts low).1.trans (counts low).1⟩
    dsimp only [Pic.finished]
    rw [concealed]
    cases as <;> rfl
  · next no =>
    exact is_ (exec_pictureComplete_no on (mt test.1 no))

theorem budgetExceeded_effect (e w sl off : Nat) (rest : List CtuRun) (as : List Area) (os : List Nat) (s : State) :
    let more := fun (v : Nat) => min 0xFFFFFFFF (v + 1)
    completes (.budgetExceeded e w sl off rest as os) (Comp.buffers ++ Comp.dramSeen ++ Comp.events ++ Comp.lanes ++
      [.ingCtxs, .ingEngines, .ingFrames, .reg .DEC_CNT_ABANDON, .reg .DEC_CNT_CONCEAL, .reg .DEC_CNT_FRAMES,
        .reg .DEC_CNT_WORK, .trkFlows, .trkPerRill]) s (fun t =>
    (s.onEngine e = none → t = s) ∧
    ∀ c d p k, s.onEngine e = some (c, d, p, k) →
      if s.engineRuns e = true ∧ budget k d < p.work + w ∧ p.areasOk as = true ∧ p.runsOk rest = true ∧
          s.endReach d p (as.flatMap (·.runs) ++ rest) = true then
        (t.engine e).current = none ∧ (t.decCtx c).bind (·.pic) = none ∧ (t.decCtx c).map (·.avg) = some d.avg ∧
        (t.rill p.au.rill).abandoned = more (s.rill p.au.rill).abandoned ∧
        (t.rill p.au.rill).concealed =
          (if as ≠ [] ∨ rest ≠ [] then more (s.rill p.au.rill).concealed else (s.rill p.au.rill).concealed) ∧
        (e < 16 → t.reg .DEC_CNT_ABANDON e 0 = counted (s.reg .DEC_CNT_ABANDON e 0))
      else t = s) := by
  have kept := execBudgetExceeded_keeps (.refl s) e w sl off rest as os (Within.mem _)
  change KeepsOut _ s (exec (.budgetExceeded e w sl off rest as os) s) at kept
  obtain ⟨t, ran⟩ : ∃ t, exec (.budgetExceeded e w sl off rest as os) s = .next t := ⟨_, rfl⟩
  have is_ : ∀ {v}, exec (.budgetExceeded e w sl off rest as os) s = .next v → t = v := fun h => Host.Outcome.next.inj (ran.symm.trans h)
  rw [ran] at kept
  dsimp only
  refine completes_of ran kept (by decide +kernel) ⟨fun away => is_ (exec_budgetExceeded_away away), fun c d p k on => ?_⟩
  clear kept
  have test : s.mayCut e w rest as d p k = true ↔
      s.engineRuns e = true ∧ budget k d < p.work + w ∧ p.areasOk as = true ∧ p.runsOk rest = true ∧
        s.endReach d p (as.flatMap (·.runs) ++ rest) = true := by
    simp [State.mayCut, and_assoc]
  split
  · next may =>
    have ends := (endPicture_ends (s.worked e w p.au.rill) e c k d (p.cut w as rest) as rest os
      (fun x => picEvent_endLike x (p.cut w as rest) 3 Status.decodeBudget sl ((p.cut w as rest).firstRow rest) off)).settled
    rw [← show t = _ from is_ (exec_budgetExceeded_ends on (test.2 may))] at ends
    obtain ⟨concealed, abandoned, counts⟩ := worked_spec s e w p.au.rill
    obtain ⟨held, state, ctx⟩ := ends.ctx
    refine ⟨ends.engine, (congrArg (·.bind (·.pic)) ctx).trans rfl, (congrArg (·.map (·.avg)) ctx).trans rfl,
      ends.abandoned.trans ((if_pos rfl).trans (congrArg bump abandoned)), ends.concealed.trans ?_, fun low => ?_⟩
    · dsimp only [Pic.cut]
      rw [concealed]
      cases as <;> cases rest <;> rfl
    · exact (ends.counts low).2.trans ((if_pos rfl).trans (congrArg counted (counts low).2))
  · next no =>
    exact is_ (exec_budgetExceeded_no on (mt test.1 no))

/-! ## ENGINE_UTIL_UPDATE -/

theorem regOk_engUtil : ∀ e < 16, regOk .INGEST_ENG_UTIL 0 e = true := by decide +kernel

theorem engineUtilUpdate_effect (e util : Nat) (s : State) :
    completes (.engineUtilUpdate e util) (Comp.source ++ [.ingEngines, .reg .INGEST_ENG_UTIL]) s (fun t =>
    if decPresent s.dev.part e = true ∧ util ≤ 1000 then
      let pct := s.regNat .INGEST_SAT_PCT 0 0
      (e < 16 → t.reg .INGEST_ENG_UTIL 0 e = BitVec.ofNat 64 util) ∧
      t.engine e = { s.engine e with saturated :=
        if (s.engine e).saturated = false then decide (pct * 10 ≤ util) else !decide (util < (pct - 5) * 10) } ∧
      ((s.engine e).saturated = false → pct * 10 ≤ util → raised 2 s t)
    else t = s) := by
  have kept := execEngineUtilUpdate_keeps (.refl s) e util (Within.mem _)
  change KeepsOut _ s (exec (.engineUtilUpdate e util) s) at kept
  obtain ⟨t, ran⟩ : ∃ t, exec (.engineUtilUpdate e util) s = .next t := ⟨_, rfl⟩
  have is_ : ∀ {v}, exec (.engineUtilUpdate e util) s = .next v → t = v := fun h => Host.Outcome.next.inj (ran.symm.trans h)
  rw [ran] at kept
  refine completes_of ran kept (by decide +kernel) ?_
  clear kept
  have test : (decPresent s.dev.part e && decide (util ≤ 1000)) = true ↔ decPresent s.dev.part e = true ∧ util ≤ 1000 := by simp
  split
  case isFalse no => exact is_ (congrArg _ (when_neg s (mt test.1 no) _))
  case isTrue may =>
  have eq := is_ (congrArg Host.Outcome.next (when_eq s (test.2 may) _))
  dsimp only at eq ⊢
  have low := setReg_keeps (cs := fun c => c ∈ [Comp.reg .INGEST_ENG_UTIL]) (.refl s) .INGEST_ENG_UTIL 0 e (BitVec.ofNat 64 util) (.inr (by decide))
  have own (low : e < 16) : (s.setReg .INGEST_ENG_UTIL 0 e (BitVec.ofNat 64 util)).reg .INGEST_ENG_UTIL 0 e = BitVec.ofNat 64 util :=
    reg_setReg_self s _ (regOk_engUtil e low)
  have engine := engine_congr (low.ing.engines.resolve_left (by decide)) e
  have src : SrcKept 2 s (s.setReg .INGEST_ENG_UTIL 0 e (BitVec.ofNat 64 util)) :=
    .of_keeps (by decide) low (.of_icu (low.icu_eq (by decide)))
  rw [engine] at eq
  generalize s.setReg .INGEST_ENG_UTIL 0 e (BitVec.ofNat 64 util) = x at *
  clear low
  generalize s.engine e = eng at *
  have raises (y : Engine) : ((x.setEngine e y).raise 2).engine e = y :=
    (engine_congr ((raise_keeps (.refl (x.setEngine e y)) 2 (Within.mem _)).ing.engines.resolve_left (by decide)) e).trans (engine_setEngine_self _ _ _)
  have counted_ (low : e < 16) (y : Engine) : ((x.setEngine e y).raise 2).reg .INGEST_ENG_UTIL 0 e = BitVec.ofNat 64 util :=
    (raise_reg (x.setEngine e y) 2 _ _ _ (by decide) (regOk_engUtil e low)).trans (own low)
  have rises (y : Engine) : raised 2 s ((x.setEngine e y).raise 2) :=
    (src.trans (.of_eq (v := x.setEngine e y) rfl rfl rfl)).raise (by decide)
  obtain ⟨current, last, saturated⟩ := eng
  cases saturated with
  | false =>
    by_cases full : s.regNat .INGEST_SAT_PCT 0 0 * 10 ≤ util
    · rw [if_pos (by simpa using full)] at eq
      rw [eq, raises, decide_eq_true full]
      exact ⟨fun low => counted_ low _, rfl, fun _ _ => rises _⟩
    · rw [if_neg (by simpa using full), if_neg (by simp)] at eq
      rw [eq, engine, decide_eq_false full]
      exact ⟨own, rfl, fun _ reached => absurd reached full⟩
  | true =>
    rw [if_neg (by simp)] at eq
    by_cases rests : util < (s.regNat .INGEST_SAT_PCT 0 0 - 5) * 10
    · rw [if_pos (by simpa using rests)] at eq
      rw [eq, engine_setEngine_self, decide_eq_true rests]
      exact ⟨own, rfl, fun fresh => nomatch fresh⟩
    · rw [if_neg (by simpa using rests)] at eq
      rw [eq, engine, decide_eq_false rests]
      exact ⟨own, rfl, fun fresh => nomatch fresh⟩

/-- Settles O51: a turn goes by what becomes of its access unit (`unit_fate`), an end by what a picture's end leaves (`endPicture_ends`). -/
theorem decodeTurnsAndBudgets : Obligations.DecodeTurnsAndBudgets :=
  ⟨decodeTurn_effect, quantumExpire_effect, pictureComplete_effect, budgetExceeded_effect, engineUtilUpdate_effect⟩

end Sys2Proof.Machine
end

section
/-! SUPPORT. The delays that an ending otherwise restores (R335). -/

set_option Elab.async false

namespace Sys2Proof.Machine

/-! ## The delay registers in the register store -/

/-- Delays are noted in 32 bits. -/
def narrow (x : Nat × W64) : Nat × W32 := (x.1, x.2.setWidth 32)

theorem widen_narrow {v : W64} (low : v.toNat < 2 ^ 32) : ((v.setWidth 32).setWidth 64 : W64) = v := by
  refine BitVec.eq_of_toNat_eq ?_
  rw [BitVec.toNat_setWidth, BitVec.toNat_setWidth, Nat.mod_eq_of_lt low, Nat.mod_eq_of_lt v.isLt]

/-- What has been noted of a canonical table is put back over a store without it. -/
theorem get_putRegs_narrow {m base : SMap W64} (wf : SMap.wf regDefault m = true) {off : Nat}
    (bare : SMap.get regDefault base off = regDefault off) (low : (SMap.get regDefault m off).toNat < 2 ^ 32) :
    SMap.get regDefault (putRegs base (m.map narrow)) off = SMap.get regDefault m off := by
  induction m generalizing base with
  | nil => exact bare
  | cons x m ih =>
    obtain ⟨a, v⟩ := x
    obtain ⟨above, -, rest⟩ := SMap.wf_cons.1 wf
    rw [List.map_cons]
    unfold putRegs narrow
    by_cases own : a = off
    · subst own
      simp only [SMap.get, if_true] at low ⊢
      rw [get_putRegs_other _ fun y mem same => ?_, SMap.get_set_self, widen_narrow low]
      obtain ⟨z, inside, rfl⟩ := List.mem_map.1 mem
      exact absurd (above z inside) (by rw [show z.1 = a from same]; exact Nat.lt_irrefl a)
    · have later : SMap.get regDefault ((a, v) :: m) off = SMap.get regDefault m off := by simp [SMap.get, own]
      rw [later] at low ⊢
      exact ih rest ((SMap.get_set_ne _ _ _ (Ne.symm own)).trans bare) low

theorem groupDelays_own (s : State) {d g : Nat} : ∀ y ∈ s.groupDelays d g, inDelays d g y.1 = true := by
  intro y mem
  obtain ⟨z, kept, rfl⟩ := List.mem_map.1 mem
  exact (List.mem_filter.1 kept).2

/-- The delays of a start, put back. -/
theorem groupDelays_restored {s : State} (wf : SMap.wf regDefault s.regs = true) (m : SMap W64) {d g off : Nat}
    (inside : inDelays d g off = true) (low : (s.stored off).toNat < 2 ^ 32) :
    SMap.get regDefault (putRegs (SMap.keep m (fun k => !inDelays d g k)) (s.groupDelays d g)) off = s.stored off := by
  have noted : SMap.get regDefault (SMap.keep s.regs (inDelays d g)) off = s.stored off :=
    (SMap.get_keep _ _ _ _).trans (if_pos inside)
  have bare : SMap.get regDefault (SMap.keep m (fun k => !inDelays d g k)) off = regDefault off :=
    (SMap.get_keep _ _ _ _).trans (if_neg (by simp [inside]))
  exact (get_putRegs_narrow (SMap.wf_keep _ wf) bare (noted ▸ low)).trans noted

/-! ## No other register lies among delay registers -/

theorem delayBase_eq : ∀ d < 2, ∀ g < 4, delayBase d g = blockBase .dmc d + (0x100000 + g * delaySpan) := by decide +kernel

/-- A row of a block other than the controllers', or below their delay registers. -/
def rowBelow (x : RegRow) : Bool := x.blk ≠ .dmc || decide (x.off + rowSpan x < 0x100000)

theorem inDelays_row {x : RegRow} (mem : x ∈ allRows) (below : rowBelow x = true) {u i d g : Nat} (hu : u < blockUnits x.blk)
    (hi : i < x.count * x.count2) (hd : d < 2) (hg : g < 4) : inDelays d g (blockBase x.blk u + rowAt x i) = false := by
  refine Bool.eq_false_iff.2 fun inside => ?_
  unfold inDelays at inside
  rw [delayBase_eq d hd g hg] at inside
  simp only [delaySpan, Bool.and_eq_true] at inside
  have from_ := of_decide_eq_true inside.1
  have to_ := of_decide_eq_true inside.2
  obtain ⟨-, -, span⟩ := rowAt_within hi
  have fits := allApart_fits allRows_apart mem
  simp only [rowFits, Bool.and_eq_true, decide_eq_true_eq] at fits
  obtain ⟨⟨⟨-, size⟩, -⟩, -⟩ := fits
  obtain ⟨p, off⟩ : ∃ p, blockBase x.blk u + rowAt x i = blockBase .dmc d + p := ⟨blockBase x.blk u + rowAt x i - blockBase .dmc d, by omega⟩
  have there := locate_blockBase hu (show rowAt x i < blockSize x.blk by omega)
  rw [off, locate_blockBase (show d < blockUnits .dmc from hd) (show p < 0x400000 by omega)] at there
  obtain ⟨blk, -, own⟩ : Block.dmc = x.blk ∧ d = u ∧ p = rowAt x i := by simpa using there
  simp only [rowBelow, ← blk, ne_eq, not_true_eq_false, decide_false, Bool.false_or, decide_eq_true_eq] at below
  omega

/-- Whether a register is of another block than the controllers', or lies below their delay registers. -/
def Reg.below (r : Reg) : Bool := allRows.all fun x => !(x.name = r) || rowBelow x

/-- The registers of a component. -/
def Comp.below : Comp → Bool
  | .reg r => r.below
  | _ => true

theorem regBelow_of_change {r : Reg} (changed : .reg r ∈ releasePortsChanges) : r.below = true :=
  List.all_eq_true.1 (show releasePortsChanges.all Comp.below = true by decide +kernel) _ changed

/-- Requests that go on at a controller's ports touch no delay register. -/
theorem releasePorts_delays (s : State) {d g off : Nat} (hd : d < 2) (hg : g < 4) (inside : inDelays d g off = true) :
    s.releasePorts.stored off = s.stored off := by
  have k := releasePorts_keeps (.refl s) (Within.mem _)
  rcases k.regs off with all | ⟨r, u, i, changed, ok, same⟩ | kept
  · exact absurd all (by decide)
  · obtain ⟨x, mem, name, at_, hu, hi⟩ := regOk_row ok
    have low := List.all_eq_true.1 (regBelow_of_change changed) x mem
    simp only [name, decide_true, Bool.not_true, Bool.false_or] at low
    rw [same, at_, inDelays_row mem low hu hi hd hg] at inside
    cases inside
  · exact kept

/-! ## An ending otherwise -/

theorem stored_setReg_other (s : State) {r : Reg} {u i : Nat} (ok : regOk r u i = true) (v : W64) {off : Nat} (other : off ≠ regOff r u i) :
    (s.setReg r u i v).stored off = s.stored off := by
  unfold State.setReg State.stored
  rw [if_pos ok]
  exact SMap.get_set_ne _ _ _ other

/-- What a recalibration's ending otherwise leaves in the registers: of the group the noted delays, of the others what they hold. -/
theorem recalStop_stored {s b : State} {d g : Nat} (wf : SMap.wf regDefault s.regs = true) (hd : d < 2) (hg : g < 4) (st : W16)
    (busy : (b.dmc d).recal = some (g, s.groupDelays d g)) {off : Nat} (other : off ≠ regOff .DMC_RECAL_STATUS d 0)
    (may : inDelays d g off = true ∨ b.dram.held = []) (low : (s.stored off).toNat < 2 ^ 32) :
    (b.recalStop d st).stored off = if inDelays d g off = true then s.stored off else b.stored off := by
  rw [recalStop_eq st busy]
  generalize put : ({ b with regs := putRegs (SMap.keep b.regs (fun k => !inDelays d g k)) (s.groupDelays d g) } : State) = x
  have before : ((x.setDmc d { b.dmc d with recal := none, training := none }).recalStatus d st).stored off = x.stored off := by
    obtain ⟨-, -, status, -⟩ := regOk_dmc1 hd
    exact stored_setReg_other (x.setDmc d { b.dmc d with recal := none, training := none }) status _ other
  split
  · next inside =>
    rw [releasePorts_delays _ hd hg inside, before, ← put]
    exact groupDelays_restored wf b.regs inside low
  · next outside =>
    have held : ((x.setDmc d { b.dmc d with recal := none, training := none }).recalStatus d st).dram.held = [] := by
      rw [← may.resolve_left outside, ← put]
      simp [State.recalStatus, State.setDmc]
    rw [releasePorts_none held, before, ← put]
    refine (get_putRegs_other _ fun y mem same => outside ?_).trans ((SMap.get_keep _ _ _ _).trans (if_pos (by simp [outside])))
    rw [← same]
    exact groupDelays_own s y mem

/-- An ending otherwise restores the delays that were in force at the start, whatever was written in between. -/
theorem recalTimeout_restores (d g : Nat) (s a b t : State) (wf : s.memWf = true) (idle : (s.dmc d).recal = none)
    (present : towerPresent s.dev.part d = true) (hg : g < 4) (starts : exec (.recalStart d g) s = .next a)
    (same : (b.dmc d).recal = (a.dmc d).recal) (due : b.weir.coolant ≠ .none ∨ (b.dmc d).recalStartNs + b.recalLimitNs d ≤ b.nowNs)
    (ends : exec (.recalTimeout d) b = .next t) (off : Nat) (other : off ≠ regOff .DMC_RECAL_STATUS d 0)
    (may : inDelays d g off = true ∨ b.dram.held = []) (low : (s.stored off).toNat < 2 ^ 32) :
    t.stored off = if inDelays d g off = true then s.stored off else b.stored off := by
  have hd := tower_lt present
  obtain rfl : s.recalStart d g = a := Host.Outcome.next.inj starts
  rw [recalStart_idle (by simp [present, hg]) idle] at same
  have busy : (b.dmc d).recal = some (g, s.groupDelays d g) := by
    rw [same]
    unfold State.recalStatus
    rw [dmc_congr (s := s.setDmc d { s.dmc d with recal := some (g, s.groupDelays d g), recalStartNs := s.nowNs }) (by simp), dmc_setDmc_self]
  have test : (b.coolantHeld || decide ((b.dmc d).recalStartNs + b.recalLimitNs d ≤ b.nowNs)) = true := by
    unfold State.coolantHeld
    simpa using due
  obtain rfl : b.recalStop d (if b.coolantHeld then Status.recalStopped else Status.recalLimit) = t :=
    Host.Outcome.next.inj ((congrArg Host.Outcome.next (when_eq b test _)).symm.trans ends)
  have regs : SMap.wf regDefault s.regs = true := by
    simp only [State.memWf, Bool.and_eq_true] at wf
    exact wf.1.1.1.2
  exact recalStop_stored regs hd hg _ busy other may low

end Sys2Proof.Machine
end

section
/-! SUPPORT. Every step keeps it that the delays which a recalibration has noted are those of its group (R335): what leaves the
controllers' recalibrations alone. -/

set_option Elab.async false

namespace Sys2Proof.Machine

/-- A controller's recalibration has noted delays of its own group. -/
def recalNoted (d : Nat) (r : Option (Nat × SMap W32)) : Prop :=
  ∀ g old, r = some (g, old) → d < 2 ∧ g < 4 ∧ ∀ x ∈ old, inDelays d g x.1 = true

/-- The delays that recalibrations have noted are those of their groups. -/
structure Noted (s : State) : Prop where
  all : s.delaysNoted

theorem Recals.noted {s t : State} (r : Recals recalNoted s t) (h : Noted s) : Noted t := by
  refine ⟨fun d => ?_⟩
  rcases r.all d with same | noted
  · rw [same]
    exact h.all d
  · exact noted

theorem noted_of_dmcs {s t : State} (h : Noted s) (same : t.dram.dmcs = s.dram.dmcs) : Noted t :=
  ((Recals.refl s).of_dmcs same).noted h

theorem noted_after {cs : List Comp} {s t : State} (k : Keeps (fun c => c ∈ cs) s t) (no : .dramDmcs ∉ cs) (h : Noted s) : Noted t :=
  noted_of_dmcs h (k.dram.dmcs.resolve_left no)

/-- A record update that leaves the controllers. -/
theorem noted_mk {s : State} {pending : List Instr} {out : List OutMsg} {fi : Nat} {dev : Dev} {fns : SMap FnState} {regs : SMap W64} {ldr : Loader}
    {dram : Dram} {pools : List Pool} {ing : Ingest} {trk : TrackEng} {slu : Sluice} {weir : Weir} {icu : Icu} {thy : Thyme} {sage : Sage}
    (h : Noted s) (e : dram.dmcs = s.dram.dmcs := by rfl) :
    Noted (State.mk pending out fi dev fns regs ldr dram pools ing trk slu weir icu thy sage) := noted_of_dmcs h e

theorem noted_fst {α : Type} {x : State × α} {t : State} {r : α} (e : x = (t, r)) (h : Noted x.1) : Noted t := by
  rwa [e] at h

theorem noted_snd {α : Type} {x : α × State} {t : State} {r : α} (e : x = (r, t)) (h : Noted x.2) : Noted t := by
  rwa [e] at h

/-- The property of what a command goes on to. -/
def NotedOut : Host.Outcome State Fault Refusal → Prop
  | .next t => Noted t
  | _ => True

theorem NotedOut.next {t : State} (h : Noted t) : NotedOut (.next t) := h

theorem NotedOut.fault (f : Fault) : NotedOut (.fault f) := trivial

theorem NotedOut.after {cs : List Comp} {s : State} {o : Host.Outcome State Fault Refusal} (k : KeepsOut (fun c => c ∈ cs) s o) (no : .dramDmcs ∉ cs)
    (h : Noted s) : NotedOut o := by
  cases o with
  | next t => exact noted_after k no h
  | fault _ => trivial
  | refused _ => trivial

/-- The property of a state that may be there. -/
def NotedOpt : Option State → Prop
  | some t => Noted t
  | none => True

theorem NotedOpt.some {t : State} (h : Noted t) : NotedOpt (some t) := h

theorem NotedOpt.none : NotedOpt none := trivial

theorem NotedOpt.getD {s : State} (h : Noted s) {o : Option State} (ho : NotedOpt o) : Noted (o.getD s) := by
  cases o with
  | none => exact h
  | some t => exact ho

/-! ## Writes of the state -/

theorem setReg_noted {s : State} (h : Noted s) (r : Reg) (k i : Nat) (v : W64) : Noted (s.setReg r k i v) :=
  (setReg_recals (.refl s) r k i v).noted h

theorem count_noted {s : State} (h : Noted s) (r : Reg) (k : Nat) : Noted (s.count r k) := (count_recals (.refl s) r k).noted h

theorem addTo_noted {s : State} (h : Noted s) (r : Reg) (k n : Nat) : Noted (s.addTo r k n) := (addTo_recals (.refl s) r k n).noted h

theorem setDramBytes_noted {s : State} (h : Noted s) (m : Mem) : Noted (s.setDramBytes m) :=
  noted_of_dmcs h rfl

theorem setBasin_noted {s : State} (h : Noted s) (n : Nat) (m : Mem) : Noted (s.setBasin n m) :=
  noted_of_dmcs h rfl

theorem setFlash_noted {s : State} (h : Noted s) (f : FlashSt) : Noted (s.setFlash f) :=
  noted_of_dmcs h rfl

theorem when_noted {s : State} (h : Noted s) (c : Bool) {f : State → State} (hf : Noted (f s)) : Noted (s.when c f) := by
  unfold State.when
  split
  · exact hf
  · exact h

theorem setDmc_noted {s : State} (h : Noted s) (d : Nat) (x : Dmc) (e : recalNoted d x.recal) : Noted (s.setDmc d x) :=
  (setDmc_recals (P := recalNoted) (.refl s) d x (.inr e)).noted h

theorem recalNoted_none (d : Nat) : recalNoted d none := fun _ _ e => nomatch e

theorem elog_noted {s : State} (h : Noted s) (status : W16) (unit index ctx fn : Nat) (detail : W64) :
    Noted (s.elog status unit index ctx fn detail) := (elog_recals (.refl s) status unit index ctx fn detail).noted h

theorem atFront_noted {s : State} (h : Noted s) (n code : Nat) {f : State → Run → Fire → Op → Option State}
    (hf : ∀ t r fi op, Noted t → NotedOpt (f t r fi op)) : Noted (s.atFront n code f) := by
  unfold State.atFront
  dsimp only
  split
  · split
    · split
      · exact NotedOpt.getD h (hf _ _ _ _ (noted_of_dmcs h rfl))
      · exact h
    · exact h
  · exact h

/-! ## Requests at the ports of DRAM -/

theorem dmcLog_noted {s : State} (h : Noted s) (l : BlockLoc) (kind : Nat) (port : Nat) : Noted (State.dmcLog s l kind port) :=
    (dmcLog_recals (.refl s) l kind port).noted h

theorem visit_noted {s : State} (h : Noted s) (port : Nat) (a : Nat) (n : Nat) : Noted (State.visit s port a n) := (visit_recals (.refl s) port a n).noted h

theorem visitAll_noted {s : State} (h : Noted s) (port : Nat) (x2 : List (Nat × Nat)) : Noted (State.visitAll s port x2) :=
    (visitAll_recals (.refl s) port x2).noted h

theorem mergeRead_noted {s : State} (h : Noted s) (port : Nat) (b : Nat) : Noted (State.mergeRead s port b) := (mergeRead_recals (.refl s) port b).noted h

theorem countWrite_noted {s : State} (h : Noted s) (b : Nat) : Noted (State.countWrite s b) := (countWrite_recals (.refl s) b).noted h

theorem putBlock_noted {s : State} (h : Noted s) (port : Nat) (a : Nat) (data : List Byte) : Noted (State.putBlock s port a data) :=
    (putBlock_recals (.refl s) port a data).noted h

theorem putPieces_noted {s : State} (h : Noted s) (port : Nat) (x2 : List (Nat × List Byte)) : Noted (State.putPieces s port x2) :=
    (putPieces_recals (.refl s) port x2).noted h

theorem putEntries_noted {s : State} (h : Noted s) (p : Pool) (i : Nat) (hs : List Handle) : Noted (State.putEntries s p i hs) :=
    (putEntries_recals (.refl s) p i hs).noted h

theorem epWrite_noted {s : State} (h : Noted s) (fn : Nat) : Noted (State.epWrite s fn) := (epWrite_recals (.refl s) fn).noted h

theorem portRead_noted {s : State} (h : Noted s) (port : Nat) (b : Nat) (firstBad : Bool) (secondBad : Bool) (second : List Byte) : Noted
    (State.portRead s port b firstBad secondBad second) := (portRead_recals (.refl s) port b firstBad secondBad second).noted h

theorem portWrite_noted {s : State} (h : Noted s) (port : Nat) (b : Nat) (data : List Byte) : Noted (State.portWrite s port b data) :=
    (portWrite_recals (.refl s) port b data).noted h

theorem portPart_noted {s : State} (h : Noted s) (port : Nat) (addr : Nat) (data : List Byte) (firstBad : Bool) (secondBad : Bool)
    (second : List Byte) : Noted (State.portPart s port addr data firstBad secondBad second) :=
    (portPart_recals (.refl s) port addr data firstBad secondBad second).noted h

theorem hold_noted {s : State} (h : Noted s) (q : DramReq) : Noted (State.hold s q) := (hold_recals (.refl s) q).noted h

theorem request_noted {s : State} (h : Noted s) (q : DramReq) : Noted (State.request s q) := (request_recals (.refl s) q).noted h

theorem releasePorts_noted {s : State} (h : Noted s) : Noted (State.releasePorts s) := (releasePorts_recals (.refl s)).noted h

/-! ## Functions that leave the controllers alone -/

theorem setFn_noted {s : State} (h : Noted s) (n : Nat) (f : FnState) : Noted (State.setFn s n f) :=
  noted_after (setFn_keeps (.refl _) n f (Within.mem _)) (by decide) h

theorem setRill_noted {s : State} (h : Noted s) (x1 : Nat) (x : Rill) : Noted (State.setRill s x1 x) :=
  noted_after (setRill_keeps (.refl _) x1 x (Within.mem _)) (by decide) h

theorem updRill_noted {s : State} (h : Noted s) (x1 : Nat) (f : Rill → Rill) : Noted (State.updRill s x1 f) :=
  noted_after (updRill_keeps (.refl _) x1 f (Within.mem _)) (by decide) h

theorem setDecCtx_noted {s : State} (h : Noted s) (c : Nat) (x : DecCtx) : Noted (State.setDecCtx s c x) :=
  noted_after (setDecCtx_keeps (.refl _) c x (Within.mem _)) (by decide) h

theorem setEngine_noted {s : State} (h : Noted s) (x1 : Nat) (x : Engine) : Noted (State.setEngine s x1 x) :=
  noted_after (setEngine_keeps (.refl _) x1 x (Within.mem _)) (by decide) h

theorem setRillTrk_noted {s : State} (h : Noted s) (x1 : Nat) (x : RillTrk) : Noted (State.setRillTrk s x1 x) :=
  noted_after (setRillTrk_keeps (.refl _) x1 x (Within.mem _)) (by decide) h

theorem updFlow_noted {s : State} (h : Noted s) (rill : Nat) (frame : Nat) (f : Flow → Flow) : Noted (State.updFlow s rill frame f) :=
  noted_after (updFlow_keeps (.refl _) rill frame f (Within.mem _)) (by decide) h

theorem updCtxRun_noted {s : State} (h : Noted s) (c : Nat) (f : CtxRun → CtxRun) : Noted (State.updCtxRun s c f) :=
  noted_after (updCtxRun_keeps (.refl _) c f (Within.mem _)) (by decide) h

theorem setCmdRun_noted {s : State} (h : Noted s) (c : Nat) (x : CmdRun) : Noted (State.setCmdRun s c x) :=
  noted_after (setCmdRun_keeps (.refl _) c x (Within.mem _)) (by decide) h

theorem dropCmdRun_noted {s : State} (h : Noted s) (c : Nat) : Noted (State.dropCmdRun s c) :=
  noted_after (dropCmdRun_keeps (.refl _) c (Within.mem _)) (by decide) h

theorem setCore_noted {s : State} (h : Noted s) (n : Nat) (x : Core) : Noted (State.setCore s n x) :=
  noted_after (setCore_keeps (.refl _) n x (Within.mem _)) (by decide) h

theorem updCore_noted {s : State} (h : Noted s) (n : Nat) (f : Core → Core) : Noted (State.updCore s n f) :=
  noted_after (updCore_keeps (.refl _) n f (Within.mem _)) (by decide) h

theorem setPool_noted {s : State} (h : Noted s) (x : Pool) : Noted (State.setPool s x) :=
  noted_after (setPool_keeps (.refl _) x (Within.mem _)) (by decide) h

theorem edge_noted {s : State} (h : Noted s) (i : Nat) (v : Bool) : Noted (State.edge s i v) :=
  noted_after (edge_keeps (.refl _) i v (Within.mem _)) (by decide) h

theorem advise_noted {s : State} (h : Noted s) (b : Nat) : Noted (State.advise s b) :=
  noted_after (advise_keeps (.refl _) b (Within.mem _)) (by decide) h

theorem hostRead_noted {s : State} (h : Noted s) (n : Nat) : Noted (State.hostRead s n) :=
  noted_after (hostRead_keeps (.refl _) n (Within.mem _)) (by decide) h

theorem powerStatus_noted {s : State} (h : Noted s) (st : W16) : Noted (State.powerStatus s st) :=
  noted_after (powerStatus_keeps (.refl _) st (Within.mem _)) (by decide) h

theorem readFailed_noted {s : State} (h : Noted s) (status : W16) (fn : Nat) (addr : Nat) (timedOut : Bool) : Noted
    (State.readFailed s status fn addr timedOut) :=
  noted_after (readFailed_keeps (.refl _) status fn addr timedOut (Within.mem _)) (by decide) h

theorem holdDecs_noted {s : State} (h : Noted s) (x1 : List Nat) : Noted (State.holdDecs s x1) :=
  noted_after (holdDecs_keeps (.refl _) x1 (Within.mem _)) (by decide) h

theorem allocFail_noted {s : State} (h : Noted s) (p : Pool) : Noted (State.allocFail s p) :=
  noted_after (allocFail_keeps (.refl _) p (Within.mem _)) (by decide) h

theorem takeHandle_noted {s : State} (h : Noted s) (p : Pool) : Noted (State.takeHandle s p).2 :=
  noted_after (takeHandle_keeps (.refl _) p (Within.mem _)) (by decide) h

theorem discardRelease_noted {s : State} (h : Noted s) (st : W16) (fn : Nat) : Noted (State.discardRelease s st fn) :=
  noted_after (discardRelease_keeps (.refl _) st fn (Within.mem _)) (by decide) h

theorem recalStatus_noted {s : State} (h : Noted s) (d : Nat) (st : W16) : Noted (State.recalStatus s d st) :=
  noted_after (recalStatus_keeps (.refl _) d st (Within.mem _)) (by decide) h

theorem calTemp_noted {s : State} (h : Noted s) (d : Nat) (g : Nat) : Noted (State.calTemp s d g) :=
  noted_after (calTemp_keeps (.refl _) d g (Within.mem _)) (by decide) h

theorem putPass_noted {s : State} (h : Noted s) (d : Nat) (pass : BitVec 136) (x3 : Nat) : Noted (State.putPass s d pass x3) :=
  noted_after (putPass_keeps (.refl _) d pass x3 (Within.mem _)) (by decide) h

theorem setRail_noted {s : State} (h : Noted s) (mv : Int) : Noted (State.setRail s mv) :=
  noted_after (setRail_keeps (.refl _) mv (Within.mem _)) (by decide) h

theorem sprintEnd_noted {s : State} (h : Noted s) (st : W16) (detail : Nat) : Noted (State.sprintEnd s st detail) :=
  noted_after (sprintEnd_keeps (.refl _) st detail (Within.mem _)) (by decide) h

theorem sprintCheck_noted {s : State} (h : Noted s) : Noted (State.sprintCheck s) :=
  noted_after (sprintCheck_keeps (.refl _) (Within.mem _)) (by decide) h

theorem stopClusters_noted {s : State} (h : Noted s) (x1 : List Nat) : Noted (State.stopClusters s x1) :=
  noted_after (stopClusters_keeps (.refl _) x1 (Within.mem _)) (by decide) h

theorem setPins_noted {s : State} (h : Noted s) (p : Pins) : Noted (State.setPins s p) :=
  noted_after (setPins_keeps (.refl _) p (Within.mem _)) (by decide) h

theorem brakeOn_noted {s : State} (h : Noted s) : Noted (State.brakeOn s) :=
  noted_after (brakeOn_keeps (.refl _) (Within.mem _)) (by decide) h

theorem setCoolant_noted {s : State} (h : Noted s) (c : Coolant) : Noted (State.setCoolant s c) :=
  noted_after (setCoolant_keeps (.refl _) c (Within.mem _)) (by decide) h

theorem setDramMode_noted {s : State} (h : Noted s) (m : DramMode) : Noted (State.setDramMode s m) :=
  noted_after (setDramMode_keeps (.refl _) m (Within.mem _)) (by decide) h

theorem startCoolant_noted {s : State} (h : Noted s) (now : Nat) : Noted (State.startCoolant s now) :=
  noted_after (startCoolant_keeps (.refl _) now (Within.mem _)) (by decide) h

theorem removeFrom_noted {s : State} (h : Noted s) (ctx : Nat) (n : Nat) : Noted (State.removeFrom s ctx n) :=
  noted_after (removeFrom_keeps (.refl _) ctx n (Within.mem _)) (by decide) h

theorem refresh_noted {s : State} (h : Noted s) : Noted (State.refresh s) :=
  noted_after (refresh_keeps (.refl _) (Within.mem _)) (by decide) h

theorem embLose_noted {s : State} (h : Noted s) (rill : Nat) (track : Nat) (frame : Nat) (st : W16) (error : Bool) : Noted
    (State.embLose s rill track frame st error) :=
  noted_after (embLose_keeps (.refl _) rill track frame st error (Within.mem _)) (by decide) h

theorem yieldLanes_noted {s : State} (h : Noted s) (x1 : List Nat) : Noted (State.yieldLanes s x1) :=
  noted_after (yieldLanes_keeps (.refl _) x1 (Within.mem _)) (by decide) h

theorem putRecField_noted {s : State} (h : Noted s) (x1 : WorkRec) (off : Nat) (n : Nat) (v : Nat) : Noted (State.putRecField s x1 off n v) :=
  noted_after (putRecField_keeps (.refl _) x1 off n v (Within.mem _)) (by decide) h

theorem closeRecs_noted {s : State} (h : Noted s) (x1 : List WorkRec) : Noted (State.closeRecs s x1) :=
  noted_after (closeRecs_keeps (.refl _) x1 (Within.mem _)) (by decide) h

theorem killCores_noted {s : State} (h : Noted s) (ctx : Nat) (x2 : List Nat) : Noted (State.killCores s ctx x2) :=
  noted_after (killCores_keeps (.refl _) ctx x2 (Within.mem _)) (by decide) h

theorem dropWindows_noted {s : State} (h : Noted s) (ctx : Nat) (cmd : Nat) : Noted (State.dropWindows s ctx cmd) :=
  noted_after (dropWindows_keeps (.refl _) ctx cmd (Within.mem _)) (by decide) h

theorem dropCtxWindows_noted {s : State} (h : Noted s) (ctx : Nat) : Noted (State.dropCtxWindows s ctx) :=
  noted_after (dropCtxWindows_keeps (.refl _) ctx (Within.mem _)) (by decide) h

theorem endGroup_noted {s : State} (h : Noted s) (ctx : Nat) : Noted (State.endGroup s ctx) :=
  noted_after (endGroup_keeps (.refl _) ctx (Within.mem _)) (by decide) h

theorem schedule_noted {s : State} (h : Noted s) : Noted (State.schedule s) :=
  noted_after (schedule_keeps (.refl _) (Within.mem _)) (by decide) h

theorem laneCommit_noted {s : State} (h : Noted s) (ctx : Nat) (k : Nat) : Noted (State.laneCommit s ctx k) :=
  noted_after (laneCommit_keeps (.refl _) ctx k (Within.mem _)) (by decide) h

theorem noteFault_noted {s : State} (h : Noted s) (ctx : Nat) (st : W16) : Noted (State.noteFault s ctx st) :=
  noted_after (noteFault_keeps (.refl _) ctx st (Within.mem _)) (by decide) h

theorem advance_noted {s : State} (h : Noted s) (n : Nat) : Noted (State.advance s n) :=
  noted_after (advance_keeps (.refl _) n (Within.mem _)) (by decide) h

theorem performLoad_noted {s : State} (h : Noted s) (n : Nat) (l : LoadRec) : Noted (State.performLoad s n l) :=
  noted_after (performLoad_keeps (.refl _) n l (Within.mem _)) (by decide) h

theorem handOff_noted {s : State} (h : Noted s) (n : Nat) (slot : Nat) (ovf : Bool) (clamp : Bool) (nibs : List (Nat × Nat)) : Noted
    (State.handOff s n slot ovf clamp nibs) :=
  noted_after (handOff_keeps (.refl _) n slot ovf clamp nibs (Within.mem _)) (by decide) h

theorem startTile_noted {s : State} (h : Noted s) (n : Nat) (c : Cmd) (run : CmdRun) (gen : Nat) (x : WorkRec) (x6 : Nat) : Noted
    (State.startTile s n c run gen x x6) :=
  noted_after (startTile_keeps (.refl _) n c run gen x x6 (Within.mem _)) (by decide) h

theorem claimNone_noted {s : State} (h : Noted s) (n : Nat) (ctx : Nat) (run : CmdRun) (recs : List WorkRec) : Noted
    (State.claimNone s n ctx run recs) :=
  noted_after (claimNone_keeps (.refl _) n ctx run recs (Within.mem _)) (by decide) h

theorem putIssue_noted {s : State} (h : Noted s) (c : Cmd) (n : Nat) (issue : Nat) (gen : Nat) (bounds : List Nat) (w : Nat) (x7 : Nat) : Noted
    (State.putIssue s c n issue gen bounds w x7) :=
  noted_after (putIssue_keeps (.refl _) c n issue gen bounds w x7 (Within.mem _)) (by decide) h

theorem countBound_noted {s : State} (h : Noted s) (last : Option Nat) (x2 : List Nat) : Noted (State.countBound s last x2) :=
  noted_after (countBound_keeps (.refl _) last x2 (Within.mem _)) (by decide) h

theorem keepIssue_noted {s : State} (h : Noted s) (ctx : Nat) (k : Kept) : Noted (State.keepIssue s ctx k) :=
  noted_after (keepIssue_keeps (.refl _) ctx k (Within.mem _)) (by decide) h

theorem issueAgain_noted {s : State} (h : Noted s) (c : Cmd) (st : StepRun) (k : Kept) : Noted (State.issueAgain s c st k) :=
  noted_after (issueAgain_keeps (.refl _) c st k (Within.mem _)) (by decide) h

theorem enqueue_noted {s : State} (h : Noted s) (ctx : Nat) (it : Item) : Noted (State.enqueue s ctx it) :=
  noted_after (enqueue_keeps (.refl _) ctx it (Within.mem _)) (by decide) h

theorem moveAway_noted {s : State} (h : Noted s) (ctx : Nat) (fb : Nat) (it : Item) (sw : Option (Nat × Nat)) : Noted (State.moveAway s ctx fb it sw)
    :=
  noted_after (moveAway_keeps (.refl _) ctx fb it sw (Within.mem _)) (by decide) h

theorem dropReceiving_noted {s : State} (h : Noted s) (ctx : Nat) (taken : List Item) : Noted (s.dropReceiving ctx taken) :=
  noted_after (dropReceiving_keeps (.refl _) ctx taken (Within.mem _)) (by decide) h

theorem settleIn_noted {s : State} (h : Noted s) (ctx : Nat) (n : Nat) (p : Nat × List Nat × Nat) : Noted (State.settleIn s ctx n p) :=
  noted_after (settleIn_keeps (.refl _) ctx n p (Within.mem _)) (by decide) h

theorem startMove_noted {s : State} (h : Noted s) (x1 : CtxEntry) : Noted (State.startMove s x1) :=
  noted_after (startMove_keeps (.refl _) x1 (Within.mem _)) (by decide) h

theorem holdsCommit_noted {s : State} (h : Noted s) (ctx : Nat) : Noted (State.holdsCommit s ctx) :=
  noted_after (holdsCommit_keeps (.refl _) ctx (Within.mem _)) (by decide) h

theorem ingestEvent_noted {s : State} (h : Noted s) (x1 : EvRec) : Noted (State.ingestEvent s x1) :=
  noted_after (ingestEvent_keeps (.refl _) x1 (Within.mem _)) (by decide) h

theorem metaRecord_noted {s : State} (h : Noted s) (k : MetaKey) (kind : Nat) (status : Nat) (body : List Byte) : Noted
    (State.metaRecord s k kind status body) :=
  noted_after (metaRecord_keeps (.refl _) k kind status body (Within.mem _)) (by decide) h

theorem metaRecords_noted {s : State} (h : Noted s) (k : MetaKey) (x2 : List (Nat × Nat × List Byte)) : Noted (State.metaRecords s k x2) :=
  noted_after (metaRecords_keeps (.refl _) k x2 (Within.mem _)) (by decide) h

theorem takeTracks_noted {s : State} (h : Noted s) (x1 : Nat) : Noted (State.takeTracks s x1) :=
  noted_after (takeTracks_keeps (.refl _) x1 (Within.mem _)) (by decide) h

theorem addWork_noted {s : State} (h : Noted s) (x1 : Nat) (cycles : Nat) : Noted (State.addWork s x1 cycles) :=
  noted_after (addWork_keeps (.refl _) x1 cycles (Within.mem _)) (by decide) h

theorem statusRecord_noted {s : State} (h : Noted s) (x1 : Nat) : Noted (State.statusRecord s x1) :=
  noted_after (statusRecord_keeps (.refl _) x1 (Within.mem _)) (by decide) h

theorem updDec_noted {s : State} (h : Noted s) (x1 : Nat) (f : DecCtx → DecCtx) : Noted (State.updDec s x1 f) :=
  noted_after (updDec_keeps (.refl _) x1 f (Within.mem _)) (by decide) h

theorem refuseAu_noted {s : State} (h : Noted s) (eng : Nat) (au : AuJob) (k : RillClass) (x4 : SeqHdr) (st : W16) (event : Bool) : Noted
    (State.refuseAu s eng au k x4 st event) :=
  noted_after (refuseAu_keeps (.refl _) eng au k x4 st event (Within.mem _)) (by decide) h

theorem dropPicture_noted {s : State} (h : Noted s) (eng : Nat) (au : AuJob) (st : W16) : Noted (State.dropPicture s eng au st) :=
  noted_after (dropPicture_keeps (.refl _) eng au st (Within.mem _)) (by decide) h

theorem markFrames_noted {s : State} (h : Noted s) (x1 : Nat) (refs : List Nat) (n : Nat) : Noted (State.markFrames s x1 refs n) :=
  noted_after (markFrames_keeps (.refl _) x1 refs n (Within.mem _)) (by decide) h

theorem remark_noted {s : State} (h : Noted s) (x1 : Nat) : Noted (State.remark s x1) :=
  noted_after (remark_keeps (.refl _) x1 (Within.mem _)) (by decide) h

theorem discontinue_noted {s : State} (h : Noted s) (c : Nat) : Noted (State.discontinue s c) :=
  noted_after (discontinue_keeps (.refl _) c (Within.mem _)) (by decide) h

theorem rillFault_noted {s : State} (h : Noted s) (x1 : Nat) (st : W16) : Noted (State.rillFault s x1 st) :=
  noted_after (rillFault_keeps (.refl _) x1 st (Within.mem _)) (by decide) h

theorem pollFailed_noted {s : State} (h : Noted s) (x1 : Nat) : Noted (State.pollFailed s x1) :=
  noted_after (pollFailed_keeps (.refl _) x1 (Within.mem _)) (by decide) h

theorem clearRill_noted {s : State} (h : Noted s) (x1 : Nat) : Noted (State.clearRill s x1) :=
  noted_after (clearRill_keeps (.refl _) x1 (Within.mem _)) (by decide) h

theorem skipDescriptor_noted {s : State} (h : Noted s) (x1 : Nat) (j : AuJob) : Noted (State.skipDescriptor s x1 j) :=
  noted_after (skipDescriptor_keeps (.refl _) x1 j (Within.mem _)) (by decide) h

theorem skipRefused_noted {s : State} (h : Noted s) (x1 : Nat) (x2 : List AuJob) : Noted (State.skipRefused s x1 x2) :=
  noted_after (skipRefused_keeps (.refl _) x1 x2 (Within.mem _)) (by decide) h

theorem scanAct_noted {s : State} (h : Noted s) (i : Nat) (x2 : RegEntry) : Noted (State.scanAct s i x2) :=
  noted_after (scanAct_keeps (.refl _) i x2 (Within.mem _)) (by decide) h

theorem setScanPending_noted {s : State} (h : Noted s) (v : Bool) : Noted (State.setScanPending s v) :=
  noted_after (setScanPending_keeps (.refl _) v (Within.mem _)) (by decide) h

theorem picEvent_noted {s : State} (h : Noted s) (p : Pic) (kind : Nat) (st : W16) (slice : Nat) (row : Nat) (off : Nat) : Noted
    (State.picEvent s p kind st slice row off) :=
  noted_after (picEvent_keeps (.refl _) p kind st slice row off (Within.mem _)) (by decide) h

theorem countPicture_noted {s : State} (h : Noted s) (eng : Nat) (p : Pic) : Noted (State.countPicture s eng p) :=
  noted_after (countPicture_keeps (.refl _) eng p (Within.mem _)) (by decide) h

theorem skipRegion_noted {s : State} (h : Noted s) (n : Nat) (f : Frame) (j : RegionJob) (st : W16) : Noted (State.skipRegion s n f j st) :=
  noted_after (skipRegion_keeps (.refl _) n f j st (Within.mem _)) (by decide) h

theorem skipRegions_noted {s : State} (h : Noted s) (n : Nat) (f : Frame) (st : W16) (x4 : List (RegionJob × Option (Nat × Nat))) : Noted
    (State.skipRegions s n f st x4) :=
  noted_after (skipRegions_keeps (.refl _) n f st x4 (Within.mem _)) (by decide) h

theorem setPxe_noted {s : State} (h : Noted s) (n : Nat) (x : Option PxeRun) : Noted (State.setPxe s n x) :=
  noted_after (setPxe_keeps (.refl _) n x (Within.mem _)) (by decide) h

theorem startFlow_noted {s : State} (h : Noted s) (f : Frame) (p : ScalerProg) (ms : List (Nat × Item)) : Noted (State.startFlow s f p ms) :=
  noted_after (startFlow_keeps (.refl _) f p ms (Within.mem _)) (by decide) h

theorem fixClusters_noted {s : State} (h : Noted s) (l : List (RegionJob × Option (Nat × Nat))) : Noted (s.fixClusters l) :=
  noted_after (fixClusters_keeps (.refl _) l (Within.mem _)) (by decide) h

theorem TrkWork_report_noted {s : TrkWork} (h : Noted s.s) (st : W16) (bits : List Nat) : Noted (TrkWork.report s st bits).s :=
  noted_after (cs := []) (TrkWork_report_keeps (.refl _) st bits) (by decide) h

theorem TrkWork_reports_noted {s : TrkWork} (h : Noted s.s) (x1 : List W16) : Noted (TrkWork.reports s x1).s :=
  noted_after (cs := []) (TrkWork_reports_keeps (.refl _) x1) (by decide) h

theorem TrkWork_discontinue_noted {s : TrkWork} (h : Noted s.s) (x1 : Nat) (f : Nat) : Noted (TrkWork.discontinue s x1 f).s :=
  noted_after (TrkWork_discontinue_keeps (.refl _) x1 f (Within.mem _)) (by decide) h

theorem TrkWork_newRules_noted {s : TrkWork} (h : Noted s.s) (ctx : Nat) (x2 : Nat) (old : Bool) : Noted (TrkWork.newRules s ctx x2 old).s :=
  noted_after (TrkWork_newRules_keeps (.refl _) ctx x2 old (Within.mem _)) (by decide) h

theorem TrkWork_embed_noted {s : TrkWork} (h : Noted s.s) (x1 : List EmbReq) : Noted (TrkWork.embed s x1).s :=
  noted_after (cs := []) (TrkWork_embed_keeps (.refl _) x1) (by decide) h

theorem TrkWork_lifecycles_noted {s : TrkWork} (h : Noted s.s) (rs : RuleSet) (f : Nat) (dets : List Cand) (m : List (Nat × Nat)) (x5 : List Track)
    (x6 : List After) : Noted (TrkWork.lifecycles s rs f dets m x5 x6).1.s :=
  noted_after (cs := []) (TrkWork_lifecycles_keeps (.refl _) rs f dets m x5 x6) (by decide) h

theorem TrkWork_ruleUnit_noted {s : TrkWork} (h : Noted s.s) (f : Nat) (x2 : List Zone × List Line) (x3 : List After) (x4 : List After) : Noted
    (TrkWork.ruleUnit s f x2 x3 x4).1.s :=
  noted_after (cs := []) (TrkWork_ruleUnit_keeps (.refl _) f x2 x3 x4) (by decide) h

theorem TrkWork_crops_noted {s : TrkWork} (h : Noted s.s) (rs : RuleSet) (x2 : Nat) (f : Nat) (x4 : List After) : Noted (TrkWork.crops s rs x2 f x4).s :=
  noted_after (TrkWork_crops_keeps (.refl _) rs x2 f x4 (Within.mem _)) (by decide) h

theorem setMbox_noted {s : State} (h : Noted s) (j : Option MboxJob) : Noted (State.setMbox s j) :=
  noted_after (setMbox_keeps (.refl _) j (Within.mem _)) (by decide) h

theorem mboxStatus_noted {s : State} (h : Noted s) (st : W16) : Noted (State.mboxStatus s st) :=
  noted_after (mboxStatus_keeps (.refl _) st (Within.mem _)) (by decide) h

theorem mboxRefuse_noted {s : State} (h : Noted s) (st : W16) : Noted (State.mboxRefuse s st) :=
  noted_after (mboxRefuse_keeps (.refl _) st (Within.mem _)) (by decide) h

theorem inhibit_noted {s : State} (h : Noted s) (st : W16) : Noted (State.inhibit s st) :=
  noted_after (inhibit_keeps (.refl _) st (Within.mem _)) (by decide) h

theorem takeActivate_noted {s : State} (h : Noted s) (k : Nat) (v : Verdict) : Noted (State.takeActivate s k v) :=
  noted_after (takeActivate_keeps (.refl _) k v (Within.mem _)) (by decide) h

theorem takeCommit_noted {s : State} (h : Noted s) (k : Nat) : Noted (State.takeCommit s k) :=
  noted_after (takeCommit_keeps (.refl _) k (Within.mem _)) (by decide) h

theorem takeAdvance_noted {s : State} (h : Noted s) : Noted (State.takeAdvance s) :=
  noted_after (takeAdvance_keeps (.refl _) (Within.mem _)) (by decide) h

theorem setLdr_noted {s : State} (h : Noted s) (l : Loader) : Noted (State.setLdr s l) :=
  noted_after (setLdr_keeps (.refl _) l (Within.mem _)) (by decide) h

theorem imgStatus_noted {s : State} (h : Noted s) (st : W16) : Noted (State.imgStatus s st) :=
  noted_after (imgStatus_keeps (.refl _) st (Within.mem _)) (by decide) h

theorem imgDone_noted {s : State} (h : Noted s) : Noted (State.imgDone s) :=
  noted_after (imgDone_keeps (.refl _) (Within.mem _)) (by decide) h

theorem imgFail_noted {s : State} (h : Noted s) (x1 : LoadErr) : Noted (State.imgFail s x1) :=
  noted_after (imgFail_keeps (.refl _) x1 (Within.mem _)) (by decide) h

theorem remap_noted {s : State} (h : Noted s) (g : Stage) (m : SMap Nat) : Noted (s.remap g m) :=
  noted_after (remap_keeps (.refl _) g m (Within.mem _)) (by decide) h

theorem residency_noted {s : State} (h : Noted s) : Noted (State.residency s) :=
  noted_after (residency_keeps (.refl _) (Within.mem _)) (by decide) h

theorem loadRefused_noted {s : State} (h : Noted s) (x1 : LoadErr) : Noted (State.loadRefused s x1) :=
  noted_after (loadRefused_keeps (.refl _) x1 (Within.mem _)) (by decide) h

theorem imgLoad_noted {s : State} (h : Noted s) : Noted (State.imgLoad s) :=
  noted_after (imgLoad_keeps (.refl _) (Within.mem _)) (by decide) h

theorem imgLock_noted {s : State} (h : Noted s) : Noted (State.imgLock s) :=
  noted_after (imgLock_keeps (.refl _) (Within.mem _)) (by decide) h

theorem killAll_noted {s : State} (h : Noted s) (x1 : List Nat) : Noted (State.killAll s x1) :=
  noted_after (killAll_keeps (.refl _) x1 (Within.mem _)) (by decide) h

theorem clearRun_noted {s : State} (h : Noted s) : Noted (State.clearRun s) :=
  noted_after (clearRun_keeps (.refl _) (Within.mem _)) (by decide) h

theorem imgSwap_noted {s : State} (h : Noted s) (v : Verdict) : Noted (State.imgSwap s v) :=
  noted_after (imgSwap_keeps (.refl _) v (Within.mem _)) (by decide) h

theorem dropCrops_noted {s : State} (h : Noted s) (ctxs : List Nat) (x2 : List CropReq) : Noted (State.dropCrops s ctxs x2) :=
  noted_after (dropCrops_keeps (.refl _) ctxs x2 (Within.mem _)) (by decide) h

theorem dropFlows_noted {s : State} (h : Noted s) (n : Nat) (ctxs : List Nat) : Noted (State.dropFlows s n ctxs) :=
  noted_after (dropFlows_keeps (.refl _) n ctxs (Within.mem _)) (by decide) h

theorem reinitPools_noted {s : State} (h : Noted s) (n : Nat) : Noted (State.reinitPools s n) :=
  noted_after (reinitPools_keeps (.refl _) n (Within.mem _)) (by decide) h

theorem clearSources_noted {s : State} (h : Noted s) (n : Nat) (x2 : List Nat) : Noted (State.clearSources s n x2) :=
  noted_after (clearSources_keeps (.refl _) n x2 (Within.mem _)) (by decide) h

theorem resetRing_noted {s : State} (h : Noted s) (n : Nat) : Noted (State.resetRing s n) :=
  noted_after (resetRing_keeps (.refl _) n (Within.mem _)) (by decide) h

theorem resetVecs_noted {s : State} (h : Noted s) (x1 : List Nat) : Noted (State.resetVecs s x1) :=
  noted_after (resetVecs_keeps (.refl _) x1 (Within.mem _)) (by decide) h

theorem restartClusters_noted {s : State} (h : Noted s) (x1 : List Nat) : Noted (State.restartClusters s x1) :=
  noted_after (restartClusters_keeps (.refl _) x1 (Within.mem _)) (by decide) h

theorem resumeTimers_noted {s : State} (h : Noted s) (d : Nat) : Noted (State.resumeTimers s d) :=
  noted_after (resumeTimers_keeps (.refl _) d (Within.mem _)) (by decide) h

theorem thymeLoad_noted {s : State} (h : Noted s) (v : W64) : Noted (State.thymeLoad s v) :=
  noted_after (thymeLoad_keeps (.refl _) v (Within.mem _)) (by decide) h

theorem snapNow_noted {s : State} (h : Noted s) : Noted (State.snapNow s) :=
  noted_after (snapNow_keeps (.refl _) (Within.mem _)) (by decide) h

theorem store_noted {s : State} (h : Noted s) (l : RegLoc) (v : W64) : Noted (State.store s l v) :=
  noted_after (store_keeps (.refl _) l v (Within.mem _)) (by decide) h

theorem clearBits_noted {s : State} (h : Noted s) (l : RegLoc) (v : W64) (hw : W64) : Noted (State.clearBits s l v hw) :=
  noted_after (clearBits_keeps (.refl _) l v hw (Within.mem _)) (by decide) h

theorem writeLow_noted {s : State} (h : Noted s) (fn : Nat) (l : RegLoc) (v : W32) : Noted (State.writeLow s fn l v) :=
  noted_after (writeLow_keeps (.refl _) fn l v (Within.mem _)) (by decide) h

theorem answer_noted {s : State} (h : Noted s) (fn : Nat) (n : Nat) (v : Nat) : Noted (State.answer s fn n v) :=
  noted_after (answer_keeps (.refl _) fn n v (Within.mem _)) (by decide) h

theorem answerUr_noted {s : State} (h : Noted s) (fn : Nat) (posted : Bool) : Noted (State.answerUr s fn posted) :=
  noted_after (answerUr_keeps (.refl _) fn posted (Within.mem _)) (by decide) h

theorem answerCa_noted {s : State} (h : Noted s) (fn : Nat) (posted : Bool) : Noted (State.answerCa s fn posted) :=
  noted_after (answerCa_keeps (.refl _) fn posted (Within.mem _)) (by decide) h

theorem writeBar4_noted {s : State} (h : Noted s) (fn : Nat) (off : Nat) (data : List Byte) : Noted (State.writeBar4 s fn off data) :=
  noted_after (writeBar4_keeps (.refl _) fn off data (Within.mem _)) (by decide) h

theorem readBar_noted {s : State} (h : Noted s) (fn : Nat) (bar : Nat) (off : Nat) (n : Nat) : Noted (State.readBar s fn bar off n) :=
  noted_after (readBar_keeps (.refl _) fn bar off n (Within.mem _)) (by decide) h

theorem selfRefreshReject_noted {s : State} (h : Noted s) (a : Nat) (posted : Bool) : Noted (State.selfRefreshReject s a posted) :=
  noted_after (selfRefreshReject_keeps (.refl _) a posted (Within.mem _)) (by decide) h

theorem countLate_noted {s : State} (h : Noted s) (fn : Nat) (f : Nat → Nat) : Noted (State.countLate s fn f) :=
  noted_after (countLate_keeps (.refl _) fn f (Within.mem _)) (by decide) h

theorem setLife_noted {s : State} (h : Noted s) (l : Life) : Noted (State.setLife s l) :=
  noted_after (setLife_keeps (.refl _) l (Within.mem _)) (by decide) h

theorem aoReset_noted {s : State} (h : Noted s) : Noted s.aoReset :=
  noted_after (aoReset_keeps (.refl _) (Within.mem _)) (by decide) h

theorem boot_noted {s : State} (h : Noted s) (b : BootFinds) : Noted (State.boot s b) :=
  noted_after (boot_keeps (.refl _) b (Within.mem _)) (by decide) h

theorem aoConditions_noted {s : State} (h : Noted s) : Noted (State.aoConditions s) :=
  noted_after (aoConditions_keeps (.refl _) (Within.mem _)) (by decide) h

end Sys2Proof.Machine
end

section
/-! SUPPORT. What notes of delays the functions keep (R335). DRAM, buffer pools, recalibrations, and items that are gone (R325 to R345, R373). -/

set_option Elab.async false

namespace Sys2Proof.Machine

theorem dramPut_noted {s : State} (h : Noted s) (port : Nat) (a : Nat) (data : List Byte) : Noted (State.dramPut s port a data) :=
  putPieces_noted h _ _

theorem memPut_noted {s : State} (h : Noted s) (port : Nat) (a : Nat) (data : List Byte) : Noted (State.memPut s port a data) := by
  unfold State.memPut
  repeat' first
    | with_reducible first
      | assumption | apply dramPut_noted | apply setBasin_noted
    | intro _ | split

theorem reads_noted {s : State} (h : Noted s) (port : Nat) (rs : List (Nat × Nat)) : Noted (State.reads s port rs).2 := by
  unfold State.reads
  repeat' first
    | with_reducible first
      | assumption | apply visitAll_noted
    | intro _ | split

theorem refill_noted {s : State} (h : Noted s) (p : Pool) : Noted (State.refill s p) :=
  setPool_noted (visitAll_noted h _ _) _

theorem flush_noted {s : State} (h : Noted s) (p : Pool) : Noted (State.flush s p) :=
  setPool_noted (putEntries_noted h _ _ _) _

theorem refillUntil_noted {s : State} (h : Noted s) (pool : Nat) (x2 : Nat) : Noted (State.refillUntil s pool x2) := by
  induction x2 generalizing s pool with
  | zero => exact h
  | succ y ih =>
    unfold State.refillUntil
    repeat' first
      | with_reducible first
        | assumption | apply ih | apply refill_noted
      | intro _ | split

theorem alloc_noted {s : State} (h : Noted s) (pool : Nat) : Noted (State.alloc s pool).2 := by
  unfold State.alloc
  repeat' first
    | with_reducible first
      | assumption | apply allocFail_noted | apply refillUntil_noted | apply takeHandle_noted
    | intro _ | split | dsimp only

theorem release_noted {s : State} (h : Noted s) (x1 : Handle) (fn : Nat) : Noted (State.release s x1 fn) := by
  unfold State.release
  repeat' first
    | with_reducible first
      | assumption | apply discardRelease_noted | apply flush_noted | apply addTo_noted | apply setPool_noted
    | intro _ | split | dsimp only

theorem initPool_noted {s : State} (h : Noted s) (p : Pool) : Noted (State.initPool s p) :=
  setPool_noted (dramPut_noted h _ _ _) _

theorem hostFree_noted {s : State} (h : Noted s) (fn : Nat) (v : W64) : Noted (State.hostFree s fn v) := by
  unfold State.hostFree
  repeat' first
    | with_reducible first
      | assumption | apply discardRelease_noted | apply release_noted
    | intro _ | split | dsimp only

theorem execDramRead_noted {s : State} (h : Noted s) (port : Nat) (block : Nat) (firstBad : Bool) (secondBad : Bool) (second : List Byte) : NotedOut
    (execDramRead port block firstBad secondBad second s) := by
  unfold execDramRead
  repeat' first
    | with_reducible first
      | assumption | apply NotedOut.next | apply when_noted | apply portRead_noted | apply hold_noted
    | intro _ | split

theorem execDramWrite_noted {s : State} (h : Noted s) (port : Nat) (block : Nat) (data : List Byte) : NotedOut (execDramWrite port block data s) := by
  unfold execDramWrite
  repeat' first
    | with_reducible first
      | assumption | apply NotedOut.next | apply when_noted | apply portWrite_noted | apply hold_noted
    | intro _ | split

theorem execPartialWrite_noted {s : State} (h : Noted s) (port : Nat) (addr : Nat) (data : List Byte) (firstBad : Bool) (secondBad : Bool)
    (second : List Byte) : NotedOut (execPartialWrite port addr data firstBad secondBad second s) := by
  unfold execPartialWrite
  repeat' first
    | with_reducible first
      | assumption | apply NotedOut.next | apply when_noted | apply portPart_noted | apply hold_noted
    | intro _ | split

theorem execBankRefresh_noted {s : State} (h : Noted s) (channel : Nat) (bank : Nat) : NotedOut (execBankRefresh channel bank s) :=
  .next (when_noted h _ (setDmc_noted h _ _ (h.all _)))

/-! ## Recalibrations (R335) -/

theorem recalStart_noted {s : State} (h : Noted s) (d : Nat) (g : Nat) : Noted (State.recalStart s d g) := by
  by_cases may : (towerPresent s.dev.part d && decide (g < 4)) = true
  case neg =>
    unfold State.recalStart
    rw [when_neg s may]
    exact h
  obtain ⟨present, low⟩ := Bool.and_eq_true .. ▸ may
  cases busy : (s.dmc d).recal with
  | none =>
    rw [recalStart_idle may busy]
    refine recalStatus_noted (setDmc_noted h _ _ fun e old new => ?_) _ _
    cases new
    exact ⟨tower_lt present, of_decide_eq_true low, groupDelays_own s⟩
  | some x =>
    rw [recalStart_busy (old := x.2) may busy]
    split
    · exact h
    · exact recalStatus_noted h _ _

theorem recalEnd_noted {s : State} (h : Noted s) (d : Nat) : Noted (State.recalEnd s d) := by
  unfold State.recalEnd
  split
  · exact h
  · exact releasePorts_noted (calTemp_noted (recalStatus_noted (setDmc_noted h _ _ (recalNoted_none d)) _ _) _ _)

theorem recalStop_noted {s : State} (h : Noted s) (d : Nat) (st : W16) : Noted (State.recalStop s d st) := by
  unfold State.recalStop
  split
  · exact h
  · exact releasePorts_noted (recalStatus_noted (setDmc_noted (noted_mk h) _ _ (recalNoted_none d)) _ _)

theorem execRecalStart_noted {s : State} (h : Noted s) (dmc : Nat) (group : Nat) : NotedOut (execRecalStart dmc group s) :=
  .next (recalStart_noted h _ _)

theorem execRecalEnd_noted {s : State} (h : Noted s) (dmc : Nat) : NotedOut (execRecalEnd dmc s) :=
  .next (recalEnd_noted h _)

theorem execRecalTimeout_noted {s : State} (h : Noted s) (dmc : Nat) : NotedOut (execRecalTimeout dmc s) :=
  .next (when_noted h _ (recalStop_noted h _ _))

theorem recalCtrl_noted {s : State} (h : Noted s) (d : Nat) (v : Nat) : Noted (State.recalCtrl s d v) := by
  unfold State.recalCtrl
  repeat' first
    | with_reducible first
      | assumption | apply recalStart_noted | apply recalEnd_noted
    | intro _ | split

theorem train_noted {s : State} (h : Noted s) (d : Nat) (channel : Nat) (pattern : Nat) : Noted (State.train s d channel pattern) := by
  unfold State.train
  split
  · exact when_noted h _ (setDmc_noted h _ _ (h.all d))
  · exact h

theorem execTrainingCommand_noted {s : State} (h : Noted s) (dmc : Nat) (channel : Nat) (pattern : Nat) : NotedOut
    (execTrainingCommand dmc channel pattern s) :=
  .next (train_noted h _ _ _)

theorem trainCtrl_noted {s : State} (h : Noted s) (d : Nat) (v : Nat) : Noted (State.trainCtrl s d v) :=
  train_noted h _ _ _

theorem execTrainingComplete_noted {s : State} (h : Noted s) (dmc : Nat) (pass : BitVec 136) : NotedOut (execTrainingComplete dmc pass s) :=
  .next (when_noted h _ (putPass_noted (setDmc_noted h dmc { s.dmc dmc with training := none } (h.all dmc)) _ _ _))

theorem coolantEnter_noted {s : State} (h : Noted s) : Noted (State.coolantEnter s) := by
  unfold State.coolantEnter
  repeat' with_reducible first
    | assumption | apply when_noted | apply startCoolant_noted | apply sprintEnd_noted | apply holdDecs_noted | apply setDramMode_noted
    | apply stopClusters_noted | apply recalStop_noted | apply elog_noted | apply powerStatus_noted | apply count_noted

theorem execFlowLostAssert_noted {s : State} (h : Noted s) : NotedOut (execFlowLostAssert s) := by
  unfold execFlowLostAssert
  repeat' first
    | with_reducible first
      | assumption | apply NotedOut.next | apply when_noted | apply setPins_noted | apply coolantEnter_noted | apply edge_noted
    | fail_if_no_progress with_reducible refine noted_mk ?_ | intro _ | split

/-! ## Items and frames that are gone -/

theorem reapList_noted {s : State} (h : Noted s) (x1 : List Frame) : Noted (State.reapList s x1) := by
  induction x1 generalizing s with
  | nil => exact h
  | cons y ys ih =>
    unfold State.reapList
    repeat' first
      | with_reducible first
        | assumption | apply ih | apply release_noted
      | fail_if_no_progress with_reducible refine noted_mk ?_ | intro _ | split

theorem reapFrames_noted {s : State} (h : Noted s) : Noted (State.reapFrames s) :=
  reapList_noted h _

theorem freeItem_noted {s : State} (h : Noted s) (ctx : Nat) (it : Item) : Noted (State.freeItem s ctx it) := by
  unfold State.freeItem
  repeat' first
    | with_reducible first
      | assumption | apply release_noted
    | intro _ | split

theorem itemGone_noted {s : State} (h : Noted s) (ctx : Nat) (it : Item) (why : Gone) : Noted (State.itemGone s ctx it why) := by
  unfold State.itemGone
  repeat' first
    | with_reducible first
      | assumption | apply freeItem_noted | apply updFlow_noted | apply embLose_noted
    | intro _ | split

theorem itemsGone_noted {s : State} (h : Noted s) (ctx : Nat) (why : Gone) (x3 : List Item) : Noted (State.itemsGone s ctx why x3) := by
  induction x3 generalizing s ctx why with
  | nil => exact h
  | cons y ys ih =>
    unfold State.itemsGone
    repeat' with_reducible first | assumption | apply ih | apply itemGone_noted

theorem settle_noted {s : State} (h : Noted s) : Noted (State.settle s) := by
  unfold State.settle
  repeat' first
    | with_reducible first
      | assumption | apply refresh_noted | apply reapFrames_noted
    | fail_if_no_progress with_reducible refine noted_mk ?_

theorem itemDone_noted {s : State} (h : Noted s) (ctx : Nat) (addr : Nat) (i : Nat) (it : Item) : Noted (State.itemDone s ctx addr i it) := by
  unfold State.itemDone
  repeat' first
    | with_reducible first
      | assumption | apply freeItem_noted | apply updFlow_noted | apply embLose_noted | refine noted_snd (by assumption) (reads_noted ?_ _ _)
    | fail_if_no_progress with_reducible refine noted_mk ?_ | intro _ | split | dsimp only

theorem itemsDone_noted {s : State} (h : Noted s) (ctx : Nat) (n : Nat) (old : Bool) (x4 : List (Nat × Item)) : Noted (State.itemsDone s ctx n old x4)
    := by
  induction x4 generalizing s ctx n old with
  | nil => exact h
  | cons y ys ih =>
    unfold State.itemsDone
    repeat' with_reducible first | assumption | apply ih | apply itemDone_noted

theorem stepCommit_noted {s : State} (h : Noted s) (ctx : Nat) (st : StepRun) : Noted (State.stepCommit s ctx st) := by
  unfold State.stepCommit
  repeat' with_reducible first
    | assumption | apply itemsDone_noted | apply updCtxRun_noted | apply settle_noted | apply endGroup_noted | apply addTo_noted
    | apply schedule_noted | apply yieldLanes_noted

theorem cmdCommit_noted {s : State} (h : Noted s) (ctx : Nat) (status : W16) : Noted (State.cmdCommit s ctx status) := by
  unfold State.cmdCommit
  repeat' first
    | with_reducible first
      | assumption | apply dropWindows_noted | apply dropCmdRun_noted | apply sprintCheck_noted | apply endGroup_noted | apply updCtxRun_noted
      | apply stepCommit_noted
    | intro _ | split | dsimp only

theorem cmdFault_noted {s : State} (h : Noted s) (ctx : Nat) (st : W16) : Noted (State.cmdFault s ctx st) := by
  unfold State.cmdFault
  repeat' first
    | with_reducible first
      | assumption | apply noteFault_noted | apply dropCmdRun_noted | apply killCores_noted | apply closeRecs_noted | apply itemsGone_noted
      | apply settle_noted | apply updCtxRun_noted | apply schedule_noted | apply yieldLanes_noted | apply endGroup_noted
    | intro _ | split

theorem coreFaulted_noted {s : State} (h : Noted s) (n : Nat) (st : W16) : Noted (State.coreFaulted s n st) := by
  unfold State.coreFaulted
  repeat' first
    | with_reducible first
      | assumption | apply elog_noted | apply setReg_noted | apply count_noted | apply advise_noted | apply setCore_noted | apply cmdFault_noted
    | intro _ | split

end Sys2Proof.Machine
end

section
/-! SUPPORT. What notes of delays the functions keep (R335). Cores, commands, steps, residency and copies (chapters 04, 05 and 11). -/

set_option Elab.async false

namespace Sys2Proof.Machine

theorem putNibBlock_noted {s : State} (h : Noted s) (port : Nat) (blk : Nat) (nibs : List (Nat × Nat)) : Noted (State.putNibBlock s port blk nibs) :=
    by
  unfold State.putNibBlock
  repeat' first
    | with_reducible first
      | assumption | apply putBlock_noted | apply mergeRead_noted | apply dmcLog_noted | apply countWrite_noted | apply setDramBytes_noted
      | apply setBasin_noted
    | intro _ | split

theorem putNibList_noted {s : State} (h : Noted s) (port k : Nat) (l : List (Nat × Nat)) : Noted (s.putNibList port k l) := by
  induction k generalizing s l with
  | zero => exact h
  | succ k ih =>
    cases l with
    | nil => exact h
    | cons x xs =>
      unfold State.putNibList
      exact ih (putNibBlock_noted h _ _ _) _

/-! ## Commands of a core -/

theorem onward_noted {s : State} (h : Noted s) (n : Nat) (st : Option W16) (f : State → State) (hf : ∀ t, Noted t → Noted (f t)) : NotedOpt
    (State.onward s n st f) := by
  unfold State.onward
  repeat' first
    | with_reducible first
      | assumption | exact NotedOpt.none | apply NotedOpt.some | apply hf | apply coreFaulted_noted | apply advance_noted
    | intro _ | split

theorem arrive_noted {s : State} (h : Noted s) (n : Nat) (pc : Nat) (rs : List (Nat × Nat)) (take : Core → Core) (f : State → State)
    (hf : ∀ t, Noted t → Noted (f t)) : Noted (State.arrive s n pc rs take f) := by
  unfold State.arrive
  repeat' first
    | with_reducible first
      | assumption | apply hf | apply when_noted | apply reads_noted | apply updCore_noted | apply coreFaulted_noted
    | intro _ | split | dsimp only

theorem execLoadComplete_noted {s : State} (h : Noted s) (core : Nat) : NotedOut (execLoadComplete core s) := by
  unfold execLoadComplete
  repeat' first
    | with_reducible first
      | assumption | apply NotedOut.next | apply arrive_noted | apply performLoad_noted
    | intro _ | split

theorem execXscan_noted {s : State} (h : Noted s) (core : Nat) : NotedOut (execXscan core s) := by
  unfold execXscan
  repeat' first
    | with_reducible first
      | assumption | exact NotedOpt.none | apply NotedOpt.some | apply NotedOut.next | apply atFront_noted | apply reads_noted | apply onward_noted
      | apply updCore_noted
    | intro _ | split | dsimp only

theorem startInit_noted {s : State} (h : Noted s) (core : Nat) : Noted (State.startInit s core) := by
  unfold State.startInit
  repeat' first
    | with_reducible first
      | assumption | exact NotedOpt.none | apply NotedOpt.some | apply atFront_noted | apply reads_noted | apply onward_noted | apply updCore_noted
    | intro _ | split | dsimp only

theorem endInit_noted {s : State} (h : Noted s) (core : Nat) : Noted (State.endInit s core) := by
  unfold State.endInit
  repeat' first
    | with_reducible first
      | assumption | apply arrive_noted | apply updCore_noted
    | intro _ | split

theorem execInit_noted {s : State} (h : Noted s) (x1 : InitEvent) : NotedOut (execInit x1 s) := by
  unfold execInit
  repeat' first
    | with_reducible first
      | assumption | apply NotedOut.next | apply endInit_noted | apply startInit_noted
    | intro _ | split

theorem execDrain_noted {s : State} (h : Noted s) (core : Nat) : NotedOut (execDrain core s) := by
  unfold execDrain
  repeat' first
    | with_reducible first
      | assumption | exact NotedOpt.none | apply NotedOpt.some | apply NotedOut.next | apply atFront_noted | apply advance_noted
      | apply onward_noted | apply handOff_noted | apply updCore_noted
    | intro _ | split | dsimp only

theorem execSpill_noted {s : State} (h : Noted s) (core : Nat) : NotedOut (execSpill core s) := by
  unfold execSpill
  repeat' first
    | with_reducible first
      | assumption | exact NotedOpt.none | apply NotedOpt.some | apply NotedOut.next | apply atFront_noted | apply advance_noted
      | apply onward_noted | apply handOff_noted
    | intro _ | split | dsimp only

theorem execDrainComplete_noted {s : State} (h : Noted s) (core : Nat) : NotedOut (execDrainComplete core s) := by
  unfold execDrainComplete
  repeat' first
    | with_reducible first
      | assumption | apply NotedOut.next | apply when_noted | apply putNibList_noted | apply updCore_noted
    | intro _ | split

theorem collectiveTile_noted {s : State} (h : Noted s) (n : Nat) (x2 : Run) (x3 : Nat) : Noted (State.collectiveTile s n x2 x3) := by
  unfold State.collectiveTile
  repeat' first
    | with_reducible first
      | assumption | apply reads_noted | apply coreFaulted_noted | apply updCore_noted | apply handOff_noted
    | intro _ | split | dsimp only

/-! ## Tiles and commands -/

theorem runTile_noted {s : State} (h : Noted s) (n : Nat) (c : Cmd) (x3 : Nat) : Noted (State.runTile s n c x3) := by
  unfold State.runTile
  repeat' first
    | with_reducible first
      | assumption | apply collectiveTile_noted | apply updCore_noted
    | intro _ | split

theorem claimed_noted {s : State} (h : Noted s) (n : Nat) (c : Cmd) (run : CmdRun) (x : WorkRec) : Noted (State.claimed s n c run x) := by
  unfold State.claimed
  repeat' first
    | with_reducible first
      | assumption | apply addTo_noted | apply putRecField_noted | apply runTile_noted | apply startTile_noted
    | intro _ | split | dsimp only

theorem execTileClaim_noted {s : State} (h : Noted s) (core : Nat) : NotedOut (execTileClaim core s) := by
  unfold execTileClaim
  repeat' first
    | with_reducible first
      | assumption | apply NotedOut.next | apply when_noted | apply claimed_noted | apply claimNone_noted
    | intro _ | split

theorem shardDone_noted {s : State} (h : Noted s) (ctx : Nat) (run : CmdRun) (x : WorkRec) : Noted (State.shardDone s ctx run x) := by
  unfold State.shardDone
  repeat' first
    | with_reducible first
      | assumption | apply setCmdRun_noted | apply cmdCommit_noted
    | intro _ | split | dsimp only

theorem portCommit_noted {s : State} (h : Noted s) (d : DoneTile) : Noted (State.portCommit s d) := by
  unfold State.portCommit
  repeat' first
    | with_reducible first
      | assumption | apply count_noted | apply addTo_noted | apply putRecField_noted | apply shardDone_noted
    | intro _ | split | dsimp only

theorem execTileCommit_noted {s : State} (h : Noted s) (core : Nat) : NotedOut (execTileCommit core s) := by
  unfold execTileCommit
  repeat' first
    | with_reducible first
      | assumption | apply NotedOut.next | apply when_noted | apply portCommit_noted | apply setCore_noted
    | intro _ | split | dsimp only

theorem execCoreFault_noted {s : State} (h : Noted s) (core : Nat) (status : W16) : NotedOut (execCoreFault core status s) :=
  .next (when_noted h _ (coreFaulted_noted h _ _))

theorem withWindows_noted {s : State} (h : Noted s) (c : Cmd) (st : StepRun) (f : State → State) (hf : ∀ t, Noted t → Noted (f t)) : Noted
    (State.withWindows s c st f) := by
  unfold State.withWindows
  repeat' first
    | with_reducible first
      | assumption | apply hf | apply dropWindows_noted | apply count_noted | apply updCtxRun_noted
    | fail_if_no_progress with_reducible refine noted_mk ?_ | intro _ | split | dsimp only

theorem boundFault_noted {s : State} (h : Noted s) (c : Cmd) (cluster : Nat) (st : W16) (b : Option (Nat × Nat)) : Noted
    (State.boundFault s c cluster st b) := by
  unfold State.boundFault
  repeat' first
    | with_reducible first
      | assumption | apply cmdFault_noted | apply countBound_noted
    | intro _ | split

theorem issueFirst_noted {s : State} (h : Noted s) (c : Cmd) (st : StepRun) (bounds : List Nat) (w : Nat) (x5 : Nat) : Noted
    (State.issueFirst s c st bounds w x5) := by
  unfold State.issueFirst
  repeat' first
    | with_reducible first
      | assumption | apply cmdCommit_noted | apply boundFault_noted | apply withWindows_noted | apply keepIssue_noted | apply putIssue_noted
    | fail_if_no_progress with_reducible refine noted_mk ?_ | intro _ | split

theorem issueRead_noted {s : State} (h : Noted s) (ctx : Nat) (a : Nat) (c : Cmd) (st : StepRun) : Noted (State.issueRead s ctx a c st) := by
  unfold State.issueRead
  repeat' first
    | with_reducible first
      | assumption | apply reads_noted | apply cmdFault_noted | apply issueAgain_noted | apply boundFault_noted | apply issueFirst_noted
    | intro _ | split | dsimp only

theorem execCommandIssue_noted {s : State} (h : Noted s) (ctx : Nat) : NotedOut (execCommandIssue ctx s) := by
  unfold execCommandIssue
  repeat' first
    | with_reducible first
      | assumption | exact NotedOut.fault _ | apply NotedOut.next | apply when_noted | apply cmdFault_noted | apply issueRead_noted
    | intro _ | split

/-! ## Steps -/

theorem dropStale_noted {s : State} (h : Noted s) (ctx : Nat) (it : Item) (counted : Bool) : Noted (State.dropStale s ctx it counted) := by
  unfold State.dropStale
  repeat' first
    | with_reducible first
      | assumption | apply itemGone_noted | apply updRill_noted
    | intro _ | split

theorem pickItems_noted {s : Pick} (h : Noted s.s) (x1 : CtxEntry) (anyOld : Bool) (x3 : List Item) : Noted (pickItems x1 anyOld x3 s).s := by
  induction x3 generalizing s x1 anyOld with
  | nil => exact h
  | cons y ys ih =>
    unfold pickItems
    repeat' first
      | with_reducible first
        | assumption | apply ih | apply dropStale_noted | apply moveAway_noted
      | intro _ | split

theorem pick_noted {s : State} (h : Noted s) (x1 : CtxEntry) (q : List Item) : Noted (State.pick s x1 q).s := by
  unfold State.pick
  repeat' with_reducible first | assumption | apply updCtxRun_noted | apply pickItems_noted

theorem execStepStart_noted {s : State} (h : Noted s) (ctx : Nat) (cluster : Nat) : NotedOut (execStepStart ctx cluster s) := by
  unfold execStepStart
  repeat' first
    | with_reducible first
      | assumption | exact NotedOut.fault _ | apply NotedOut.next | apply when_noted | apply pick_noted | apply updCtxRun_noted | apply settle_noted
      | apply dropReceiving_noted | apply schedule_noted | apply yieldLanes_noted
    | intro _ | split

/-! ## Residency and copies -/

theorem saveBlocks_noted {s : State} (h : Noted s) (ctx : Nat) (n : Nat) (x3 : Nat) : Noted (State.saveBlocks s ctx n x3) := by
  induction x3 generalizing s ctx n with
  | zero => exact h
  | succ y ih =>
    unfold State.saveBlocks
    repeat' with_reducible first | assumption | apply ih | apply dramPut_noted

theorem restoreBlocks_noted {s : State} (h : Noted s) (ctx : Nat) (n : Nat) (a : Nat) (x4 : Nat) : Noted (State.restoreBlocks s ctx n a x4) := by
  induction x4 generalizing s ctx n a with
  | zero => exact h
  | succ y ih =>
    unfold State.restoreBlocks
    repeat' first
      | with_reducible first
        | assumption | apply ih | apply reads_noted | apply updCtxRun_noted | apply setBasin_noted
      | intro _ | split | dsimp only

theorem execBringInComplete_noted {s : State} (h : Noted s) (ctx : Nat) (cluster : Nat) : NotedOut (execBringInComplete ctx cluster s) := by
  unfold execBringInComplete
  repeat' first
    | with_reducible first
      | assumption | apply NotedOut.next | apply when_noted | apply schedule_noted | apply refresh_noted | apply settleIn_noted
      | apply restoreBlocks_noted
    | intro _ | split

theorem execContextEvict_noted {s : State} (h : Noted s) (cluster : Nat) (waiting : Nat) : NotedOut (execContextEvict cluster waiting s) := by
  unfold execContextEvict
  repeat' first
    | with_reducible first
      | assumption | exact NotedOut.fault _ | apply NotedOut.next | apply when_noted | apply removeFrom_noted | apply saveBlocks_noted
      | apply refresh_noted | apply count_noted | apply updCtxRun_noted
    | intro _ | split | dsimp only

theorem copyBytes_noted {s : State} (h : Noted s) (src : Nat) (dst : Nat) (k : Nat) : Noted (State.copyBytes s src dst k) :=
  memPut_noted h _ _ _

theorem endMove_noted {s : State} (h : Noted s) (x1 : CtxEntry) (x2 : CmdRun) (k : Nat) (c : CopyCmd) : Noted (State.endMove s x1 x2 k c) := by
  unfold State.endMove
  repeat' first
    | with_reducible first
      | assumption | apply reads_noted | apply updCtxRun_noted | apply cmdFault_noted | apply dropCmdRun_noted | apply dropWindows_noted
      | apply copyBytes_noted | apply settle_noted | apply holdsCommit_noted
    | intro _ | split | dsimp only

theorem execMove_noted {s : State} (h : Noted s) (m : MoveEvent) : NotedOut (execMove m s) := by
  unfold execMove
  repeat' first
    | with_reducible first
      | assumption | apply NotedOut.next | apply when_noted | apply startMove_noted | apply endMove_noted
    | intro _ | split

end Sys2Proof.Machine
end

section
/-! SUPPORT. What notes of delays the functions keep (R335). Tracks, ingest and decode (chapters 08 and 10). -/

set_option Elab.async false

namespace Sys2Proof.Machine

theorem cachePut_noted {s : State} (h : Noted s) (i : Nat) (bs : List Byte) : Noted (State.cachePut s i bs) := by
  unfold State.cachePut
  repeat' first
    | with_reducible first
      | assumption | apply memPut_noted
    | fail_if_no_progress with_reducible refine noted_mk ?_ | intro _ | split | dsimp only

theorem fetchTrack_noted {s : State} (h : Noted s) (k : TrackRef) : Noted (State.fetchTrack s k).1 := by
  unfold State.fetchTrack
  repeat' first
    | with_reducible first
      | assumption | apply addTo_noted | apply visit_noted | apply elog_noted | apply count_noted | apply cachePut_noted
    | intro _ | split | dsimp only

theorem freeRecord_noted {s : State} (h : Noted s) (i : Nat) : Noted (State.freeRecord s i) :=
  cachePut_noted h _ _

theorem freeRecords_noted {s : State} (h : Noted s) (x1 : List TrackRef) : Noted (State.freeRecords s x1) := by
  induction x1 generalizing s with
  | nil => exact h
  | cons y ys ih =>
    unfold State.freeRecords
    repeat' with_reducible first | assumption | apply ih | apply freeRecord_noted

theorem putTracks_noted {s : State} (h : Noted s) (x1 : List Track) : Noted (State.putTracks s x1) := by
  induction x1 generalizing s with
  | nil => exact h
  | cons y ys ih =>
    unfold State.putTracks
    repeat' with_reducible first | assumption | apply ih | apply cachePut_noted

theorem freeTracks_noted {s : State} (h : Noted s) (x1 : Nat) : Noted (State.freeTracks s x1) :=
  takeTracks_noted (freeRecords_noted h _) _

theorem endEvents_noted {s : State} (h : Noted s) (x1 : List TrackRef) : Noted (State.endEvents s x1).1 := by
  induction x1 generalizing s with
  | nil => exact h
  | cons y ys ih =>
    unfold State.endEvents
    repeat' with_reducible first | assumption | apply ih | apply fetchTrack_noted

theorem endTracks_noted {s : State} (h : Noted s) (x1 : Nat) : Noted (State.endTracks s x1) := by
  unfold State.endTracks
  repeat' first
    | with_reducible first
      | assumption | apply endEvents_noted | apply metaRecords_noted | apply freeTracks_noted
    | intro _ | split

/-! ## Frames that leave decode -/

theorem output_noted {s : State} (h : Noted s) (eng : Nat) (k : RillClass) (f : Frame) (disc : Nat) (hdr : Nat → List Byte) : Noted
    (State.output s eng k f disc hdr) := by
  unfold State.output
  repeat' first
    | with_reducible first
      | assumption | apply setRill_noted | apply addTo_noted | apply memPut_noted | apply remark_noted | apply setRillTrk_noted
    | fail_if_no_progress with_reducible refine noted_mk ?_ | intro _ | split

theorem outputPic_noted {s : State} (h : Noted s) (c : Nat) (k : RillClass) (p : Pic) : Noted (State.outputPic s c k p) := by
  unfold State.outputPic
  repeat' with_reducible first | assumption | apply output_noted

theorem outputHeld_noted {s : State} (h : Noted s) (c : Nat) (k : RillClass) (x3 : List Nat) : Noted (State.outputHeld s c k x3) := by
  induction x3 generalizing s c k with
  | nil => exact h
  | cons y ys ih =>
    unfold State.outputHeld
    repeat' first
      | with_reducible first
        | assumption | apply ih | apply outputPic_noted | apply setDecCtx_noted
      | intro _ | split

theorem outputAll_noted {s : State} (h : Noted s) (c : Nat) (k : RillClass) (x3 : Nat) : Noted (State.outputAll s c k x3) := by
  induction x3 generalizing s c k with
  | zero => exact h
  | succ y ih =>
    unfold State.outputAll
    repeat' first
      | with_reducible first
        | assumption | apply ih | apply outputHeld_noted
      | fail_if_no_progress with_reducible refine noted_mk ?_ | intro _ | split

theorem endStream_noted {s : State} (h : Noted s) (c : Nat) (k : RillClass) (au : AuJob) : Noted (State.endStream s c k au) := by
  unfold State.endStream
  repeat' first
    | with_reducible first
      | assumption | apply outputAll_noted
    | intro _ | split

theorem freeAu_noted {s : State} (h : Noted s) (au : AuJob) : Noted (State.freeAu s au) := by
  unfold State.freeAu
  repeat' first
    | with_reducible first
      | assumption | apply release_noted
    | intro _ | split

theorem freeAus_noted {s : State} (h : Noted s) (x1 : List AuJob) : Noted (State.freeAus s x1) := by
  induction x1 generalizing s with
  | nil => exact h
  | cons y ys ih =>
    unfold State.freeAus
    repeat' with_reducible first | assumption | apply ih | apply freeAu_noted

theorem freePics_noted {s : State} (h : Noted s) (x1 : Nat) (x2 : List Pic) : Noted (State.freePics s x1 x2) := by
  induction x2 generalizing s x1 with
  | nil => exact h
  | cons y ys ih =>
    unfold State.freePics
    repeat' with_reducible first | assumption | apply ih | apply release_noted

theorem freeCtx_noted {s : State} (h : Noted s) (x1 : Nat) : Noted (State.freeCtx s x1) := by
  unfold State.freeCtx
  repeat' first
    | with_reducible first
      | assumption | apply freePics_noted | apply freeAus_noted | apply setEngine_noted | apply markFrames_noted | apply setDecCtx_noted
    | intro _ | split

theorem dropRill_noted {s : State} (h : Noted s) (x1 : Nat) : Noted (State.dropRill s x1) := by
  unfold State.dropRill
  repeat' first
    | with_reducible first
      | assumption | apply setFn_noted | apply freeAus_noted | apply freeCtx_noted
    | intro _ | split

/-! ## Rings -/

theorem takeDescriptor_noted {s : State} (h : Noted s) (r : Nat) (k : RillClass) (b : DecBind) (d : Descriptor) : Noted (s.takeDescriptor r k b d).1
    := by
  unfold State.takeDescriptor
  dsimp only
  split
  · exact skipRefused_noted (noted_mk (setRill_noted h _ _)) _ _
  split
  · exact noted_mk (setRill_noted h _ _)
  split
  next e => exact noted_mk (setRill_noted (noted_snd e (alloc_noted h _)) _ _)
  next e =>
    dsimp only
    exact updRill_noted (noted_snd e (alloc_noted h _)) _ _

theorem takeAll_noted {s : State} (h : Noted s) (r : Nat) (k : RillClass) (b : DecBind) (n : Nat) (ds : List (ReadRes (List Byte))) :
    Noted (s.takeAll r k b n ds) := by
  induction n generalizing s ds with
  | zero =>
    unfold State.takeAll
    exact updRill_noted h _ _
  | succ n ih =>
    cases ds with
    | nil =>
      unfold State.takeAll
      exact updRill_noted h _ _
    | cons d ds =>
      unfold State.takeAll
      dsimp only
      split
      · exact pollFailed_noted (readFailed_noted h _ _ _ _) _
      · exact pollFailed_noted (readFailed_noted h _ _ _ _) _
      split
      next e => exact ih (noted_fst e (takeDescriptor_noted (hostRead_noted h _) _ _ _ _)) _
      next e => exact updRill_noted (noted_fst e (takeDescriptor_noted (hostRead_noted h _) _ _ _ _)) _ _

theorem execRingPoll_noted {s : State} (h : Noted s) (rill : Nat) (lateUs : Nat) (header : ReadRes (List Byte)) (descs : List (ReadRes (List Byte))) :
    NotedOut (execRingPoll rill lateUs header descs s) := by
  unfold execRingPoll
  repeat' first
    | with_reducible first
      | assumption | apply NotedOut.next | apply when_noted | apply count_noted | apply pollFailed_noted | apply readFailed_noted
      | apply hostRead_noted | apply rillFault_noted | apply takeAll_noted
    | intro _ | split | dsimp only

theorem rawFrame_noted {s : State} (h : Noted s) (x1 : Nat) (c : Nat) (k : RillClass) (b : DecBind) (j : AuJob) (data : List Byte) : Noted
    (State.rawFrame s x1 c k b j data) := by
  unfold State.rawFrame
  repeat' first
    | with_reducible first
      | assumption | apply discontinue_noted | apply refuseAu_noted | apply dropPicture_noted | apply release_noted | apply memPut_noted
      | apply output_noted | refine noted_snd (by assumption) (alloc_noted ?_ _)
    | intro _ | split | dsimp only

theorem copyDone_noted {s : State} (h : Noted s) (x1 : Nat) (js : List AuJob) (f : State → State) (hf : ∀ t, Noted t → Noted (f t)) : Noted
    (State.copyDone s x1 js f) := by
  unfold State.copyDone
  repeat' with_reducible first | assumption | apply hf | apply updRill_noted | apply skipRefused_noted | apply statusRecord_noted

theorem execAuCopyComplete_noted {s : State} (h : Noted s) (rill : Nat) (data : List Byte) : NotedOut (execAuCopyComplete rill data s) := by
  unfold execAuCopyComplete
  repeat' first
    | with_reducible first
      | assumption | apply NotedOut.next | apply when_noted | apply hostRead_noted | apply schedule_noted | apply settle_noted
      | apply copyDone_noted | apply rawFrame_noted | apply updDec_noted | apply memPut_noted
    | intro _ | split

theorem auReadFailed_noted {s : State} (h : Noted s) (x1 : Nat) (addr : Nat) (timedOut : Bool) : Noted (State.auReadFailed s x1 addr timedOut) := by
  unfold State.auReadFailed
  repeat' first
    | with_reducible first
      | assumption | apply readFailed_noted | apply freeAu_noted | apply skipRefused_noted | apply skipDescriptor_noted | apply updRill_noted
    | intro _ | split

theorem outputLast_noted {s : State} (h : Noted s) (x1 : Nat) : Noted (State.outputLast s x1) := by
  unfold State.outputLast
  repeat' first
    | with_reducible first
      | assumption | apply outputAll_noted
    | intro _ | split

theorem execRillDrainComplete_noted {s : State} (h : Noted s) (rill : Nat) : NotedOut (execRillDrainComplete rill s) := by
  unfold execRillDrainComplete
  repeat' first
    | with_reducible first
      | assumption | apply NotedOut.next | apply when_noted | apply freeCtx_noted | apply outputLast_noted | apply statusRecord_noted
      | apply setRill_noted | apply endTracks_noted | apply ingestEvent_noted | apply clearRill_noted | apply scanAct_noted | apply schedule_noted
      | apply settle_noted
    | intro _ | split

/-! ## Decode engines -/

theorem popMarkers_noted {s : State} (h : Noted s) (c : Nat) (k : RillClass) (x3 : List AuJob) : Noted (State.popMarkers s c k x3) := by
  induction x3 generalizing s c k with
  | nil => exact h
  | cons y ys ih =>
    unfold State.popMarkers
    repeat' first
      | with_reducible first
        | assumption | apply ih | apply setDecCtx_noted | apply endStream_noted | apply discontinue_noted
      | intro _ | split

theorem startPicture_noted {s : State} (h : Noted s) (c : Nat) (k : RillClass) (b : DecBind) (d : DecCtx) (au : AuJob) (unit : List Byte)
    (x7 : SeqHdr) (p : AuParse) : Noted (State.startPicture s c k b d au unit x7 p) := by
  unfold State.startPicture
  repeat' first
    | with_reducible first
      | assumption | apply endStream_noted | apply freeAu_noted | apply dropPicture_noted | apply setDecCtx_noted | apply reads_noted
      | apply release_noted | apply setEngine_noted | refine noted_snd (by assumption) (alloc_noted ?_ _)
    | intro _ | split | dsimp only

theorem takeAu_noted {s : State} (h : Noted s) (c : Nat) (k : RillClass) (b : DecBind) (au : AuJob) (p : AuParse) : Noted (State.takeAu s c k b au p)
    := by
  unfold State.takeAu
  repeat' first
    | with_reducible first
      | assumption | apply discontinue_noted | apply setDecCtx_noted | apply endStream_noted | apply freeAu_noted | apply refuseAu_noted
      | apply dropPicture_noted | apply startPicture_noted | refine noted_snd (by assumption) (reads_noted ?_ _ _)
    | intro _ | split | dsimp only

theorem execDecodeTurn_noted {s : State} (h : Noted s) (engine : Nat) (parse : AuParse) : NotedOut (execDecodeTurn engine parse s) := by
  unfold execDecodeTurn
  repeat' first
    | with_reducible first
      | assumption | apply NotedOut.next | apply when_noted | apply setEngine_noted | apply popMarkers_noted | apply schedule_noted
      | apply settle_noted | apply takeAu_noted
    | intro _ | split | dsimp only

theorem putRows_noted {s : State} (h : Noted s) (port : Nat) (base : Nat) (x3 : List (Nat × List Byte)) : Noted (State.putRows s port base x3) := by
  induction x3 generalizing s port base with
  | nil => exact h
  | cons y ys ih =>
    unfold State.putRows
    repeat' with_reducible first | assumption | apply ih | apply memPut_noted

theorem areaEvents_noted {s : State} (h : Noted s) (port : Nat) (p : Pic) (src : Option Frame) (x4 : List Area) : Noted
    (State.areaEvents s port p src x4) := by
  induction x4 generalizing s port p src with
  | nil => exact h
  | cons y ys ih =>
    unfold State.areaEvents
    repeat' with_reducible first | assumption | apply ih | apply reads_noted | apply picEvent_noted

theorem endPicture_noted {s : State} (h : Noted s) (eng : Nat) (c : Nat) (k : RillClass) (d : DecCtx) (p : Pic) (areas : List Area)
    (rest : List CtuRun) (outputs : List Nat) (tell : State → State) (hf : ∀ t, Noted t → Noted (tell t)) : Noted
    (State.endPicture s eng c k d p areas rest outputs tell) := by
  unfold State.endPicture
  repeat' first
    | with_reducible first
      | assumption | apply hf | apply picEvent_noted | apply visitAll_noted | apply areaEvents_noted | apply freeAu_noted | apply putRows_noted
      | apply countPicture_noted | apply remark_noted | apply setDecCtx_noted | apply endStream_noted | apply outputHeld_noted
      | apply setEngine_noted
    | intro _ | split

theorem execPictureComplete_noted {s : State} (h : Noted s) (engine : Nat) (work : Nat) (areas : List Area) (outputs : List Nat) : NotedOut
    (execPictureComplete engine work areas outputs s) := by
  unfold execPictureComplete
  repeat' first
    | with_reducible first
      | assumption | apply NotedOut.next | apply when_noted | apply schedule_noted | apply settle_noted | apply endPicture_noted
      | apply addWork_noted | apply addTo_noted
    | exact fun _ noted => noted | intro _ | split

theorem execBudgetExceeded_noted {s : State} (h : Noted s) (engine : Nat) (work : Nat) (slice : Nat) (byteOffset : Nat) (rest : List CtuRun)
    (areas : List Area) (outputs : List Nat) : NotedOut (execBudgetExceeded engine work slice byteOffset rest areas outputs s) := by
  unfold execBudgetExceeded
  repeat' first
    | with_reducible first
      | assumption | apply NotedOut.next | apply when_noted | apply schedule_noted | apply settle_noted | apply endPicture_noted
      | apply addWork_noted | apply addTo_noted | apply picEvent_noted
    | intro _ | split

end Sys2Proof.Machine
end

section
/-! SUPPORT. What notes of delays the functions keep (R335). Scaler engines, track commands, exports and the mailbox (chapters 09, 10 and 16). -/

set_option Elab.async false

namespace Sys2Proof.Machine

theorem putAll_noted {s : State} (h : Noted s) (a : Nat) (x2 : List (Nat × List Byte)) : Noted (State.putAll s a x2) := by
  induction x2 generalizing s a with
  | nil => exact h
  | cons y ys ih =>
    unfold State.putAll
    repeat' with_reducible first | assumption | apply ih | apply memPut_noted

theorem writeRegion_noted {s : State} (h : Noted s) (n : Nat) (d : RegionDesc) (x3 : FrameHdr) (g : Geom) (ps : List SrcPlane) (a : Nat) : Noted
    (State.writeRegion s n d x3 g ps a) := by
  unfold State.writeRegion
  repeat' with_reducible first | assumption | apply putAll_noted | apply addTo_noted

theorem runRegion_noted {s : State} (h : Noted s) (n : Nat) (f : Frame) (held : Bool) (j : RegionJob) (slot : Option (Nat × Nat)) : Noted
    (State.runRegion s n f held j slot).1 := by
  unfold State.runRegion
  repeat' first
    | with_reducible first
      | assumption | apply skipRegion_noted | apply writeRegion_noted | apply release_noted | refine noted_snd (by assumption) (reads_noted ?_ _ _)
      | refine noted_snd (by assumption) (alloc_noted ?_ _)
    | intro _ | split | dsimp only

theorem undoMarks_noted {s : State} (h : Noted s) (n : Nat) (f : Frame) (st : W16) (x4 : List (RegionJob × Nat × Item)) : Noted
    (State.undoMarks s n f st x4) := by
  induction x4 generalizing s n f st with
  | nil => exact h
  | cons y ys ih =>
    unfold State.undoMarks
    repeat' with_reducible first | assumption | apply ih | apply skipRegion_noted | apply freeItem_noted

theorem runRegions_noted {s : State} (h : Noted s) (n : Nat) (ctx : Nat) (f : Frame) (held : Bool) (x5 : List (RegionJob × Option (Nat × Nat)))
    (x6 : List (RegionJob × Nat × Item)) : Noted (State.runRegions s n ctx f held x5 x6).1 := by
  induction x5 generalizing s n ctx f held x6 with
  | nil => exact h
  | cons y ys ih =>
    unfold State.runRegions
    repeat' first
      | with_reducible first
        | assumption | apply ih | apply noteFault_noted | apply skipRegions_noted | apply undoMarks_noted
        | refine noted_fst (by assumption) (runRegion_noted ?_ _ _ _ _ _)
      | intro _ | split

theorem execPixelCommand_noted {s : State} (h : Noted s) (pxe : Nat) (ctx : Nat) (rill : Nat) (frame : Nat) : NotedOut
    (execPixelCommand pxe ctx rill frame s) := by
  unfold execPixelCommand
  repeat' first
    | with_reducible first
      | assumption | apply NotedOut.next | apply when_noted | apply fixClusters_noted | apply setReg_noted | apply runRegions_noted
      | apply startFlow_noted | apply setPxe_noted | apply schedule_noted | apply settle_noted
    | fail_if_no_progress with_reducible refine noted_mk ?_ | intro _ | split | dsimp only

theorem execRegionComplete_noted {s : State} (h : Noted s) (pxe : Nat) : NotedOut (execRegionComplete pxe s) := by
  unfold execRegionComplete
  repeat' first
    | with_reducible first
      | assumption | apply NotedOut.next | apply when_noted | apply setPxe_noted | apply enqueue_noted | apply schedule_noted | apply settle_noted
    | intro _ | split

/-! ## Track commands -/

theorem readHeads_noted {s : State} (h : Noted s) (rs : RuleSet) (x2 : List (Nat × Nat × Nat × Item)) : Noted (State.readHeads s rs x2).1 := by
  induction x2 generalizing s rs with
  | nil => exact h
  | cons y ys ih =>
    unfold State.readHeads
    repeat' first
      | with_reducible first
        | assumption | apply ih | apply reads_noted
      | intro _ | split | dsimp only

theorem TrkWork_fetch_noted {s : TrkWork} (h : Noted s.s) (x1 : List TrackRef) : Noted (TrkWork.fetch s x1).s := by
  induction x1 generalizing s with
  | nil => exact h
  | cons y ys ih =>
    unfold TrkWork.fetch
    repeat' first
      | with_reducible first
        | assumption | apply ih | apply fetchTrack_noted | apply TrkWork_report_noted
      | intro _ | split

theorem newTrack_noted {s : State} (h : Noted s) (x1 : Nat) (f : Nat) (store : Nat) (d : Cand) (confirm : Bool) : Noted
    (State.newTrack s x1 f store d confirm).1 := by
  unfold State.newTrack
  repeat' first
    | with_reducible first
      | assumption | apply cachePut_noted | apply addTo_noted | apply setRillTrk_noted
    | fail_if_no_progress with_reducible refine noted_mk ?_

theorem TrkWork_start_noted {s : TrkWork} (h : Noted s.s) (rs : RuleSet) (x2 : Nat) (f : Nat) (x4 : Nat) (x5 : List (Nat × Cand))
    (x6 : List (Nat × Track)) : Noted (TrkWork.start s rs x2 f x4 x5 x6).1.s := by
  induction x5 generalizing s rs x2 f x4 x6 with
  | nil => exact h
  | cons y ys ih =>
    unfold TrkWork.start
    repeat' first
      | with_reducible first
        | assumption | apply ih | apply TrkWork_report_noted | apply setRillTrk_noted | apply elog_noted | apply count_noted | apply newTrack_noted
      | intro _ | split

theorem setTracks_noted {s : State} (h : Noted s) (x1 : Nat) (ts : List Track) : Noted (State.setTracks s x1 ts) := by
  unfold State.setTracks
  repeat' first
    | with_reducible first
      | assumption | apply freeRecords_noted
    | fail_if_no_progress with_reducible refine noted_mk ?_

theorem startAttachment_noted {s : State} (h : Noted s) (x1 : Nat) (f : Nat) : Noted (State.startAttachment s x1 f) := by
  unfold State.startAttachment
  repeat' first
    | with_reducible first
      | assumption | apply setRillTrk_noted | apply freeTracks_noted
    | intro _ | split | dsimp only

theorem trackFrame_noted {s : State} (h : Noted s) (ctx : Nat) (rs : RuleSet) (old : Bool) (fl : Flow) (hdr : SeqHdr) : Noted
    (State.trackFrame s ctx rs old fl hdr) := by
  unfold State.trackFrame
  repeat' first
    | with_reducible first
      | assumption | apply startAttachment_noted | apply readHeads_noted | apply TrkWork_reports_noted | apply TrkWork_report_noted
      | apply TrkWork_embed_noted | apply TrkWork_newRules_noted | apply TrkWork_discontinue_noted | apply TrkWork_fetch_noted | apply addTo_noted
      | apply TrkWork_start_noted | apply setTracks_noted | apply TrkWork_lifecycles_noted | apply TrkWork_ruleUnit_noted
      | apply TrkWork_crops_noted | apply putTracks_noted | apply setRillTrk_noted | apply metaRecords_noted
    | fail_if_no_progress with_reducible refine noted_mk ?_ | intro _ | split

theorem execTrackCommand_noted {s : State} (h : Noted s) (ctx : Nat) (rill : Nat) (frame : Nat) : NotedOut (execTrackCommand ctx rill frame s) := by
  unfold execTrackCommand
  repeat' first
    | with_reducible first
      | assumption | apply NotedOut.next | apply when_noted | apply trackFrame_noted | apply setRillTrk_noted
      | refine noted_after (laneTurn_keepsq (.refl _) (Within.mem _) (by assumption)) (by decide) ?_
    | intro _ | split | dsimp only

theorem flowDone_noted {s : State} (h : Noted s) (ctx : Nat) (rill : Nat) (frame : Nat) : Noted (State.flowDone s ctx rill frame) :=
  settle_noted (updFlow_noted h _ _ _)

theorem execTrackCommandCommit_noted {s : State} (h : Noted s) (rill : Nat) : NotedOut (execTrackCommandCommit rill s) := by
  unfold execTrackCommandCommit
  repeat' first
    | with_reducible first
      | assumption | apply NotedOut.next | apply when_noted | apply addTo_noted | apply schedule_noted | apply laneCommit_noted
      | apply flowDone_noted | apply setRillTrk_noted
    | intro _ | split

/-! ## Head exports -/

theorem copyHeads_noted {s : State} (h : Noted s) (dst : Nat) (len : Nat) (x3 : List Nat) : Noted (State.copyHeads s dst len x3) := by
  induction x3 generalizing s dst len with
  | nil => exact h
  | cons y ys ih =>
    unfold State.copyHeads
    repeat' with_reducible first | assumption | apply ih | apply memPut_noted

theorem export1_noted {s : State} (h : Noted s) (ctx : Nat) (fl : Flow) (c : CopyCmd) : Noted (State.export1 s ctx fl c) := by
  unfold State.export1
  repeat' first
    | with_reducible first
      | assumption | apply count_noted | apply noteFault_noted | apply release_noted | apply metaRecord_noted | apply copyHeads_noted
      | refine noted_snd (by assumption) (reads_noted ?_ _ _) | refine noted_snd (by assumption) (alloc_noted ?_ _)
    | intro _ | split | dsimp only

theorem exportAll_noted {s : State} (h : Noted s) (ctx : Nat) (fl : Flow) (x3 : List CopyCmd) : Noted (State.exportAll s ctx fl x3) := by
  induction x3 generalizing s ctx fl with
  | nil => exact h
  | cons y ys ih =>
    unfold State.exportAll
    repeat' with_reducible first | assumption | apply ih | apply export1_noted

theorem execHeadExport_noted {s : State} (h : Noted s) (ctx : Nat) (rill : Nat) (frame : Nat) : NotedOut (execHeadExport ctx rill frame s) := by
  unfold execHeadExport
  repeat' first
    | with_reducible first
      | assumption | apply NotedOut.next | apply when_noted | apply schedule_noted | apply laneCommit_noted | apply flowDone_noted
      | apply exportAll_noted | refine noted_after (copyTurn_keepsq (.refl _) (Within.mem _) (by assumption)) (by decide) ?_
    | intro _ | split

/-! ## The mailbox -/

theorem mboxStart_noted {s : State} (h : Noted s) (j : MboxJob) (f : State → State) (hf : ∀ t, Noted t → Noted (f t)) : Noted (State.mboxStart s j f)
    := by
  unfold State.mboxStart
  repeat' first
    | with_reducible first
      | assumption | apply hf | apply setMbox_noted | apply inhibit_noted
    | intro _ | split

theorem takeWriteSlot_noted {s : State} (h : Noted s) (k : Nat) (v : Verdict) : Noted (State.takeWriteSlot s k v) := by
  unfold State.takeWriteSlot
  repeat' first
    | with_reducible first
      | assumption | apply mboxRefuse_noted | apply visit_noted | apply mboxStart_noted | apply setFlash_noted
    | intro _ | split | dsimp only

theorem takeBoard_noted {s : State} (h : Noted s) : Noted (State.takeBoard s) := by
  unfold State.takeBoard
  repeat' first
    | with_reducible first
      | assumption | apply mboxRefuse_noted | apply visit_noted | apply mboxStart_noted
    | exact fun _ noted => noted | intro _ | split

theorem mboxTake_noted {s : State} (h : Noted s) (duringRecovery : Bool) (f : State → State) (hf : ∀ t, Noted t → Noted (f t)) : Noted
    (State.mboxTake s duringRecovery f) := by
  unfold State.mboxTake
  repeat' first
    | with_reducible first
      | assumption | apply hf | apply when_noted | apply mboxStatus_noted | apply mboxRefuse_noted
    | intro _ | split

theorem withSub_noted {s : State} (h : Noted s) (k : Nat) (f : State → State) (hf : ∀ t, Noted t → Noted (f t)) : Noted (State.withSub s k f) := by
  unfold State.withSub
  repeat' first
    | with_reducible first
      | assumption | apply hf | apply mboxRefuse_noted
    | intro _ | split

theorem execWriteSlot_noted {s : State} (h : Noted s) (k : Nat) (v : Verdict) : NotedOut (execWriteSlot k v s) := by
  unfold execWriteSlot
  repeat' first
    | with_reducible first
      | assumption | apply NotedOut.next | apply mboxTake_noted | apply withSub_noted | apply takeWriteSlot_noted
    | intro _

theorem execWriteBoard_noted {s : State} (h : Noted s) : NotedOut (execWriteBoard s) := by
  unfold execWriteBoard
  repeat' with_reducible first | assumption | apply NotedOut.next | apply mboxTake_noted | apply takeBoard_noted

theorem mboxWrite_noted {s : State} (h : Noted s) (w : Nat) : Noted (State.mboxWrite s w) := by
  unfold State.mboxWrite
  repeat' first
    | with_reducible first
      | assumption | apply mboxTake_noted | apply withSub_noted | apply takeWriteSlot_noted | apply takeActivate_noted | apply takeCommit_noted
      | apply takeAdvance_noted | apply takeBoard_noted | apply mboxRefuse_noted
    | fail_if_no_progress with_reducible refine noted_mk ?_ | intro _ | split

end Sys2Proof.Machine
end

section
/-! SUPPORT. What notes of delays the functions keep (R335). Images, function level resets, register writes, host requests and resets (chapters 00, 02, 14 and 17). -/

set_option Elab.async false

namespace Sys2Proof.Machine

theorem placePieces_noted {s : State} (h : Noted s) (sec : Nat) (src : Nat) (load : Nat) (x4 : List (Nat × List Byte)) : Noted
    (State.placePieces s sec src load x4).1 := by
  induction x4 generalizing s sec src load with
  | nil => exact h
  | cons y ys ih =>
    unfold State.placePieces
    repeat' first
      | with_reducible first
        | assumption | apply ih | apply visit_noted | apply putBlock_noted
      | intro _ | split | dsimp only

theorem placeAll_noted {s : State} (h : Noted s) (g : Stage) (x2 : List DirEnt) : Noted (State.placeAll s g x2).1 := by
  induction x2 generalizing s g with
  | nil => exact h
  | cons y ys ih =>
    unfold State.placeAll
    repeat' first
      | with_reducible first
        | assumption | apply ih | refine noted_fst (by assumption) (placePieces_noted ?_ _ _ _ _)
      | intro _ | split

theorem initPools_noted {s : State} (h : Noted s) (x1 : List Pool) : Noted (State.initPools s x1) := by
  induction x1 generalizing s with
  | nil => exact h
  | cons y ys ih =>
    unfold State.initPools
    repeat' with_reducible first | assumption | apply ih | apply initPool_noted

theorem build_noted {s : State} (h : Noted s) (g : Stage) (i : Image) : Noted (State.build s g i) := by
  unfold State.build
  repeat' first
    | with_reducible first
      | assumption | apply setLdr_noted | apply setScanPending_noted | apply residency_noted | apply initPools_noted
    | fail_if_no_progress with_reducible refine noted_mk ?_

theorem passLoad_noted {s : State} (h : Noted s) (j : LoadJob) (v : Verdict) : Noted (State.passLoad s j v) := by
  unfold State.passLoad
  repeat' first
    | with_reducible first
      | assumption | apply loadRefused_noted | apply setLdr_noted | apply remap_noted | apply visit_noted
    | intro _ | split | dsimp only

theorem placeLoad_noted {s : State} (h : Noted s) (j : LoadJob) : Noted (State.placeLoad s j) := by
  unfold State.placeLoad
  repeat' first
    | with_reducible first
      | assumption | apply loadRefused_noted | apply imgDone_noted | apply build_noted | refine noted_fst (by assumption) (placeAll_noted ?_ _ _)
    | intro _ | split | dsimp only

theorem execImgLoadComplete_noted {s : State} (h : Noted s) (x1 : LoadEvent) : NotedOut (execImgLoadComplete x1 s) := by
  unfold execImgLoadComplete
  repeat' first
    | with_reducible first
      | assumption | apply NotedOut.next | apply when_noted | apply passLoad_noted | apply placeLoad_noted
    | intro _ | split | dsimp only

/-! ## Unloading and swaps -/

theorem unloadRills_noted {s : State} (h : Noted s) (x1 : List Nat) : Noted (State.unloadRills s x1) := by
  induction x1 generalizing s with
  | nil => exact h
  | cons y ys ih =>
    unfold State.unloadRills
    repeat' first
      | with_reducible first
        | assumption | apply ih | apply dropRill_noted | apply ingestEvent_noted | apply statusRecord_noted | apply setRill_noted
        | apply clearRill_noted
      | intro _ | split

theorem imgUnload_noted {s : State} (h : Noted s) : Noted (State.imgUnload s) := by
  unfold State.imgUnload
  repeat' first
    | with_reducible first
      | assumption | apply imgStatus_noted | apply imgFail_noted | apply clearRun_noted | apply unloadRills_noted | apply killAll_noted
      | apply setLdr_noted
    | intro _ | split

theorem execImgUnload_noted {s : State} (h : Noted s) : NotedOut (execImgUnload s) :=
  .next (when_noted h _ (imgUnload_noted h))

theorem endSwap_noted {s : State} (h : Noted s) (j : LoadJob) : Noted (State.endSwap s j) := by
  unfold State.endSwap
  repeat' first
    | with_reducible first
      | assumption | apply visit_noted | apply imgFail_noted | apply setLdr_noted | apply imgDone_noted | apply setScanPending_noted
      | refine noted_fst (by assumption) (placeAll_noted ?_ _ _)
    | intro _ | split | dsimp only

theorem execSwapComplete_noted {s : State} (h : Noted s) : NotedOut (execSwapComplete s) := by
  unfold execSwapComplete
  repeat' first
    | with_reducible first
      | assumption | apply NotedOut.next | apply when_noted | apply endSwap_noted
    | intro _ | split

theorem imgCtrl_noted {s : State} (h : Noted s) (v : Nat) : Noted (State.imgCtrl s v) := by
  unfold State.imgCtrl
  repeat' first
    | with_reducible first
      | assumption | apply imgLoad_noted | apply imgLock_noted | apply imgUnload_noted | apply imgSwap_noted
    | fail_if_no_progress with_reducible refine noted_mk ?_ | intro _ | split

/-! ## Function level resets (R398 to R404) -/

theorem discardCtx_noted {s : State} (h : Noted s) (c : Nat) : Noted (State.discardCtx s c) := by
  unfold State.discardCtx
  repeat' first
    | with_reducible first
      | assumption | apply closeRecs_noted | apply dropCmdRun_noted | apply killCores_noted | apply updCtxRun_noted | apply itemsGone_noted
      | apply yieldLanes_noted | apply endGroup_noted | apply dropCtxWindows_noted
    | intro _ | split

theorem discardCtxs_noted {s : State} (h : Noted s) (x1 : List CtxEntry) : Noted (State.discardCtxs s x1) := by
  induction x1 generalizing s with
  | nil => exact h
  | cons y ys ih =>
    unfold State.discardCtxs
    repeat' first
      | with_reducible first
        | assumption | apply ih | apply discardCtx_noted
      | intro _ | split

theorem dropMarks_noted {s : State} (h : Noted s) (x1 : List (Nat × Item)) : Noted (State.dropMarks s x1) := by
  induction x1 generalizing s with
  | nil => exact h
  | cons y ys ih =>
    unfold State.dropMarks
    repeat' with_reducible first | assumption | apply ih | apply itemGone_noted

theorem discardPxes_noted {s : State} (h : Noted s) (ctxs : List Nat) (x2 : List (Nat × PxeRun)) : Noted (State.discardPxes s ctxs x2) := by
  induction x2 generalizing s ctxs with
  | nil => exact h
  | cons y ys ih =>
    unfold State.discardPxes
    repeat' first
      | with_reducible first
        | assumption | apply ih | apply dropMarks_noted
      | fail_if_no_progress with_reducible refine noted_mk ?_ | intro _ | split

theorem dropRills_noted {s : State} (h : Noted s) (x1 : List Nat) : Noted (State.dropRills s x1) := by
  induction x1 generalizing s with
  | nil => exact h
  | cons y ys ih =>
    unfold State.dropRills
    repeat' with_reducible first | assumption | apply ih | apply clearRill_noted | apply dropRill_noted

theorem dropFrames_noted {s : State} (h : Noted s) (x1 : List Frame) : Noted (State.dropFrames s x1) := by
  induction x1 generalizing s with
  | nil => exact h
  | cons y ys ih =>
    unfold State.dropFrames
    repeat' first
      | with_reducible first
        | assumption | apply ih | apply release_noted
      | fail_if_no_progress with_reducible refine noted_mk ?_

theorem dropTracks_noted {s : State} (h : Noted s) (x1 : List Nat) : Noted (State.dropTracks s x1) := by
  induction x1 generalizing s with
  | nil => exact h
  | cons y ys ih =>
    unfold State.dropTracks
    repeat' first
      | with_reducible first
        | assumption | apply ih | apply freeTracks_noted
      | intro _ | split

theorem silence_noted {s : State} (h : Noted s) (n : Nat) : Noted (State.silence s n) := by
  unfold State.silence
  repeat' with_reducible first
    | assumption | apply dropCrops_noted | apply discardPxes_noted | apply discardCtxs_noted | apply dropTracks_noted | apply dropRills_noted
    | apply dropFlows_noted | apply dropFrames_noted | apply schedule_noted | apply settle_noted | apply setFn_noted | apply reinitPools_noted

theorem flrEnd_noted {s : State} (h : Noted s) (n : Nat) : Noted (State.flrEnd s n) := by
  unfold State.flrEnd
  repeat' first
    | with_reducible first
      | assumption | apply clearSources_noted | apply resetRing_noted | apply dropTracks_noted | apply dropFlows_noted | apply resetVecs_noted
      | apply count_noted | apply setFn_noted
    | intro _ | split

/-! ## The resume from a coolant stop -/

theorem leaveCoolant_noted {s : State} (h : Noted s) : Noted (State.leaveCoolant s) := by
  unfold State.leaveCoolant
  repeat' with_reducible first
    | assumption | apply resumeTimers_noted | apply setCoolant_noted | apply setDramMode_noted | apply schedule_noted | apply releasePorts_noted
    | apply restartClusters_noted | apply setRail_noted

theorem resumeCmd_noted {s : State} (h : Noted s) : Noted (State.resumeCmd s) := by
  unfold State.resumeCmd
  repeat' first
    | with_reducible first
      | assumption | apply leaveCoolant_noted | apply when_noted | apply powerStatus_noted
    | intro _ | split

theorem execResume_noted {s : State} (h : Noted s) : NotedOut (execResume s) :=
  .next (resumeCmd_noted h)

theorem execAutoResume_noted {s : State} (h : Noted s) : NotedOut (execAutoResume s) :=
  .next (when_noted h _ (leaveCoolant_noted h))

/-! ## Register writes -/

theorem trigger_noted {s : State} (h : Noted s) (fn : Nat) (l : RegLoc) (v : W64) : Noted (State.trigger s fn l v) := by
  unfold State.trigger
  repeat' first
    | with_reducible first
      | assumption | apply imgCtrl_noted | apply thymeLoad_noted | apply when_noted | apply snapNow_noted | apply resumeCmd_noted
      | apply mboxWrite_noted | apply hostFree_noted | apply recalCtrl_noted | apply trainCtrl_noted
    | intro _ | split

theorem writeReg_noted {s : State} (h : Noted s) (fn : Nat) (l : RegLoc) (v : W64) (hw : W64) : Noted (State.writeReg s fn l v hw) := by
  unfold State.writeReg
  repeat' first
    | with_reducible first
      | assumption | apply trigger_noted | apply clearBits_noted | apply store_noted
    | intro _ | split

theorem writeHigh_noted {s : State} (h : Noted s) (fn : Nat) (l : RegLoc) (v : W32) : Noted (State.writeHigh s fn l v) :=
  writeReg_noted h _ _ _ _

theorem write32_noted {s : State} (h : Noted s) (fn : Nat) (off : Nat) (v : W32) : Noted (State.write32 s fn off v) := by
  unfold State.write32
  repeat' first
    | with_reducible first
      | assumption | apply writeReg_noted | apply writeHigh_noted | apply writeLow_noted
    | intro _ | split

theorem write64_noted {s : State} (h : Noted s) (fn : Nat) (off : Nat) (v : W64) : Noted (State.write64 s fn off v) := by
  unfold State.write64
  repeat' first
    | with_reducible first
      | assumption | apply writeReg_noted | apply write32_noted
    | intro _ | split

theorem execRegisterWrite_noted {s : State} (h : Noted s) (fn : Nat) (off : Nat) (wide : Bool) (val : W64) : NotedOut
    (execRegisterWrite fn off wide val s) := by
  unfold execRegisterWrite
  repeat' first
    | with_reducible first
      | assumption | apply NotedOut.next | apply when_noted | apply write64_noted | apply write32_noted
    | intro _ | split

theorem onReg_noted {s : State} (h : Noted s) (fn : Nat) (off : Nat) (p : RegLoc → Bool) (f : State → RegLoc → State)
    (hf : ∀ t l, Noted t → Noted (f t l)) : Noted (State.onReg s fn off p f) := by
  unfold State.onReg
  repeat' first
    | with_reducible first
      | assumption | apply hf | apply when_noted
    | intro _ | split

theorem execHighWordWrite_noted {s : State} (h : Noted s) (fn : Nat) (off : Nat) (val : W32) : NotedOut (execHighWordWrite fn off val s) := by
  unfold execHighWordWrite
  repeat' first
    | with_reducible first
      | assumption | apply NotedOut.next | apply onReg_noted | apply writeHigh_noted
    | intro _

theorem writeBar_noted {s : State} (h : Noted s) (fn : Nat) (bar : Nat) (off : Nat) (data : List Byte) (ep : Bool) : Noted
    (State.writeBar s fn bar off data ep) := by
  unfold State.writeBar
  repeat' first
    | with_reducible first
      | assumption | apply epWrite_noted | apply writeBar4_noted | apply write64_noted | apply write32_noted
    | intro _ | split

theorem bar2_noted {s : State} (h : Noted s) (a : Nat) (n : Nat) (posted : Bool) (f : State → State) (hf : ∀ t, Noted t → Noted (f t)) : Noted
    (State.bar2 s a n posted f) := by
  unfold State.bar2
  repeat' first
    | with_reducible first
      | assumption | apply hf | apply answer_noted | apply answerCa_noted | apply selfRefreshReject_noted
    | intro _ | split

/-! ## Host requests -/

theorem hostReadReq_noted {s : State} (h : Noted s) (fn : Nat) (bar : Nat) (off : Nat) (n : Nat) : Noted (State.hostReadReq s fn bar off n) := by
  unfold State.hostReadReq
  repeat' first
    | with_reducible first
      | assumption | apply bar2_noted | apply request_noted | apply answerUr_noted | apply answer_noted | apply readBar_noted
    | intro _ | split

theorem hostWriteReq_noted {s : State} (h : Noted s) (fn : Nat) (bar : Nat) (off : Nat) (data : List Byte) (ep : Bool) : Noted
    (State.hostWriteReq s fn bar off data ep) := by
  unfold State.hostWriteReq
  repeat' first
    | with_reducible first
      | assumption | apply bar2_noted | apply request_noted | apply answerUr_noted | apply writeBar_noted
    | intro _ | split

theorem execHostMemoryRequest_noted {s : State} (h : Noted s) (fn : Nat) (bar : Nat) (off : Nat) (acc : HostAccess) : NotedOut
    (execHostMemoryRequest fn bar off acc s) := by
  unfold execHostMemoryRequest
  repeat' first
    | with_reducible first
      | assumption | apply NotedOut.next | apply when_noted | apply answerUr_noted | apply hostReadReq_noted | apply hostWriteReq_noted
    | intro _ | split

theorem readFails_noted {s : State} (h : Noted s) (k : ReadKind) (addr : Nat) (timedOut : Bool) : Noted (State.readFails s k addr timedOut) := by
  unfold State.readFails
  repeat' first
    | with_reducible first
      | assumption | apply pollFailed_noted | apply readFailed_noted | apply schedule_noted | apply settle_noted | apply auReadFailed_noted
    | intro _ | split

theorem execDeviceReadFail_noted {s : State} (h : Noted s) (kind : ReadKind) (addr : Nat) : NotedOut (execDeviceReadFail kind addr s) :=
  .next (when_noted h _ (readFails_noted h _ _ _))

theorem execCompletionTimeout_noted {s : State} (h : Noted s) (kind : ReadKind) (addr : Nat) : NotedOut (execCompletionTimeout kind addr s) :=
  .next (when_noted h _ (countLate_noted (readFails_noted h _ _ _) _ _))

theorem execDmaSilenced_noted {s : State} (h : Noted s) (fn : Nat) : NotedOut (execDmaSilenced fn s) :=
  .next (when_noted h _ (silence_noted h _))

theorem execFlrComplete_noted {s : State} (h : Noted s) (fn : Nat) : NotedOut (execFlrComplete fn s) :=
  .next (when_noted h _ (flrEnd_noted h _))

/-! ## Resets and rails -/

theorem coreReset_noted (s : State) : Noted s.coreReset := ⟨fun _ => recalNoted_none _⟩

theorem execFundamentalReset_noted {s : State} (h : Noted s) (boot : BootFinds) : NotedOut (execFundamentalReset boot s) := by
  unfold execFundamentalReset
  repeat' first
    | with_reducible first
      | assumption | apply NotedOut.next | apply when_noted | apply coreReset_noted | apply boot_noted | apply elog_noted | apply powerStatus_noted
    | fail_if_no_progress with_reducible refine noted_mk ?_ | intro _ | split

theorem execHotReset_noted {s : State} (h : Noted s) (boot : BootFinds) : NotedOut (execHotReset boot s) := by
  unfold execHotReset
  repeat' with_reducible first | assumption | apply NotedOut.next | apply when_noted | apply boot_noted | apply setLife_noted | apply coreReset_noted

theorem execPerstAssert_noted {s : State} (h : Noted s) : NotedOut (execPerstAssert s) := by
  unfold execPerstAssert
  repeat' first
    | with_reducible first
      | assumption | apply NotedOut.next | apply setLife_noted | apply coreReset_noted
    | fail_if_no_progress with_reducible refine noted_mk ?_ | intro _ | split

theorem pinsAtReady_noted {s : State} (h : Noted s) : Noted (State.pinsAtReady s) := by
  unfold State.pinsAtReady
  repeat' first
    | with_reducible first
      | assumption | apply edge_noted | apply coolantEnter_noted | apply brakeOn_noted
    | intro _ | split

theorem execDeviceReady_noted {s : State} (h : Noted s) : NotedOut (execDeviceReady s) := by
  unfold execDeviceReady
  repeat' first
    | with_reducible first
      | assumption | apply NotedOut.next | apply when_noted | apply setDramMode_noted | apply releasePorts_noted | apply pinsAtReady_noted
      | apply setLife_noted
    | intro _ | split

theorem execStandbyEntry_noted {s : State} (h : Noted s) : NotedOut (execStandbyEntry s) :=
  .next (when_noted h _ (aoConditions_noted ⟨(coreReset_noted s).all⟩))

theorem powerDown_noted (s : State) (x1 : Rail) : Noted (State.powerDown s x1) := by
  unfold State.powerDown
  repeat' first
    | with_reducible first
      | assumption | apply coreReset_noted | apply setLife_noted | apply aoReset_noted
    | fail_if_no_progress with_reducible refine noted_mk ?_ | intro _ | split

theorem railLost_noted {s : State} (h : Noted s) (x1 : Rail) : Noted (State.railLost s x1) := by
  unfold State.railLost
  repeat' first
    | with_reducible first
      | assumption | apply powerDown_noted
    | intro _ | split

theorem execRailRemoval_noted {s : State} (h : Noted s) (x1 : Rail) : NotedOut (execRailRemoval x1 s) := by
  unfold execRailRemoval
  repeat' first
    | with_reducible first
      | assumption | exact NotedOut.fault _ | apply NotedOut.next | apply railLost_noted
    | fail_if_no_progress with_reducible refine noted_mk ?_ | intro _ | split

theorem execBufferAlloc_noted {s : State} (h : Noted s) (pool : Nat) : NotedOut (execBufferAlloc pool s) :=
  .next (when_noted h _ (alloc_noted h _))

theorem execBufferRelease_noted {s : State} (h : Noted s) (handle : W64) : NotedOut (execBufferRelease handle s) :=
  .next (release_noted h _ _)

/-! ## Commands of the buffer pools -/

theorem balance_noted {s : State} (h : Noted s) (p : Pool) : Noted (State.balance s p) := by
  unfold State.balance
  repeat' first
    | with_reducible first
      | assumption | apply refill_noted | apply flush_noted
    | intro _ | split

theorem execCacheRefill_noted {s : State} (h : Noted s) (pool : Nat) : NotedOut (execCacheRefill pool s) := by
  unfold execCacheRefill
  repeat' first
    | with_reducible first
      | assumption | apply NotedOut.next | apply when_noted | apply balance_noted
    | intro _ | split

theorem execCisternHostFree_noted {s : State} (h : Noted s) (fn : Nat) (handle : W64) : NotedOut (execCisternHostFree fn handle s) :=
  .next (hostFree_noted h _ _)

theorem execPoolReinitComplete_noted {s : State} (h : Noted s) (pool : Nat) : NotedOut (execPoolReinitComplete pool s) := by
  unfold execPoolReinitComplete
  repeat' first
    | with_reducible first
      | assumption | apply NotedOut.next | apply when_noted | apply initPool_noted
    | intro _ | split

end Sys2Proof.Machine
end

section
/-! SUPPORT. Every step keeps it that noted delays are those of their groups (R335; obligation O14). -/

set_option Elab.async false

namespace Sys2Proof.Machine

theorem exec_noted (c : Instr) {s : State} (h : Noted s) : NotedOut (exec c s) := by
  cases c with
  | registerWrite fn off wide val => exact execRegisterWrite_noted h fn off wide val
  | rcRead fn off event => exact .after (execRcRead_keeps (.refl s) fn off event (Within.mem _)) (by decide) h
  | w1cWrite fn off val hwSet => exact .after (execW1cWrite_keeps (.refl s) fn off val hwSet (Within.mem _)) (by decide) h
  | w1sWrite fn off val => exact .after (execW1sWrite_keeps (.refl s) fn off val (Within.mem _)) (by decide) h
  | lowWordRead fn off => exact .after (execLowWordRead_keeps (.refl s) fn off (Within.mem _)) (by decide) h
  | lowWordWrite fn off val => exact .after (execLowWordWrite_keeps (.refl s) fn off val (Within.mem _)) (by decide) h
  | highWordWrite fn off val => exact execHighWordWrite_noted h fn off val
  | imgLoad => exact .after (execImgLoad_keeps (.refl s) (Within.mem _)) (by decide) h
  | imgLoadComplete e => exact execImgLoadComplete_noted h e
  | imgLock => exact .after (execImgLock_keeps (.refl s) (Within.mem _)) (by decide) h
  | imgUnload => exact execImgUnload_noted h
  | imgUnloadComplete => exact .after (execImgUnloadComplete_keeps (.refl s) (Within.mem _)) (by decide) h
  | imgSwap v => exact .after (execImgSwap_keeps (.refl s) v (Within.mem _)) (by decide) h
  | swapComplete => exact execSwapComplete_noted h
  | segmentRetire seg => exact .after (execSegmentRetire_keeps (.refl s) seg (Within.mem _)) (by decide) h
  | commandIssue ctx => exact execCommandIssue_noted h ctx
  | tileClaim core => exact execTileClaim_noted h core
  | load core => exact .after (execLoad_keeps (.refl s) core (Within.mem _)) (by decide) h
  | loadComplete core => exact execLoadComplete_noted h core
  | xscan core => exact execXscan_noted h core
  | xscanComplete core => exact .after (execXscanComplete_keeps (.refl s) core (Within.mem _)) (by decide) h
  | init e => exact execInit_noted h e
  | stream core => exact .after (execStream_keeps (.refl s) core (Within.mem _)) (by decide) h
  | drain core => exact execDrain_noted h core
  | spill core => exact execSpill_noted h core
  | drainComplete core => exact execDrainComplete_noted h core
  | xptr core => exact .after (execXptr_keeps (.refl s) core (Within.mem _)) (by decide) h
  | fence core => exact .after (execFence_keeps (.refl s) core (Within.mem _)) (by decide) h
  | publish core => exact .after (execPublish_keeps (.refl s) core (Within.mem _)) (by decide) h
  | waitcnt core => exact .after (execWaitcnt_keeps (.refl s) core (Within.mem _)) (by decide) h
  | waitcntPass core => exact .after (execWaitcntPass_keeps (.refl s) core (Within.mem _)) (by decide) h
  | tileCommit core => exact execTileCommit_noted h core
  | commandKill ctx => exact .after (execCommandKill_keeps (.refl s) ctx (Within.mem _)) (by decide) h
  | coreIdle core => exact .after (execCoreIdle_keeps (.refl s) core (Within.mem _)) (by decide) h
  | commandReissue ctx => exact .after (execCommandReissue_keeps (.refl s) ctx (Within.mem _)) (by decide) h
  | coreFault core status => exact execCoreFault_noted h core status
  | tcFaultRead core event => exact .after (execTcFaultRead_keeps (.refl s) core event (Within.mem _)) (by decide) h
  | ringPoll rill lateUs header descs => exact execRingPoll_noted h rill lateUs header descs
  | auCopyComplete rill data => exact execAuCopyComplete_noted h rill data
  | statusRecordPeriodic rill => exact .after (execStatusRecordPeriodic_keeps (.refl s) rill (Within.mem _)) (by decide) h
  | registryScan entries stopAt => exact .after (execRegistryScan_keeps (.refl s) entries stopAt (Within.mem _)) (by decide) h
  | rillDrainComplete rill => exact execRillDrainComplete_noted h rill
  | decodeTurn engine parse => exact execDecodeTurn_noted h engine parse
  | quantumExpire engine work => exact .after (execQuantumExpire_keeps (.refl s) engine work (Within.mem _)) (by decide) h
  | budgetExceeded engine work slice byteOffset rest areas outputs => exact execBudgetExceeded_noted h engine work slice byteOffset rest areas outputs
  | pictureComplete engine work areas outputs => exact execPictureComplete_noted h engine work areas outputs
  | engineUtilUpdate engine util => exact .after (execEngineUtilUpdate_keeps (.refl s) engine util (Within.mem _)) (by decide) h
  | pixelCommand pxe ctx rill frame => exact execPixelCommand_noted h pxe ctx rill frame
  | regionComplete pxe => exact execRegionComplete_noted h pxe
  | trackCommand ctx rill frame => exact execTrackCommand_noted h ctx rill frame
  | trackCommandCommit rill => exact execTrackCommandCommit_noted h rill
  | stepStart ctx cluster => exact execStepStart_noted h ctx cluster
  | sliceEnd lane => exact .after (execSliceEnd_keeps (.refl s) lane (Within.mem _)) (by decide) h
  | bringIn ctx cluster => exact .after (execBringIn_keeps (.refl s) ctx cluster (Within.mem _)) (by decide) h
  | bringInComplete ctx cluster => exact execBringInComplete_noted h ctx cluster
  | contextEvict cluster waiting => exact execContextEvict_noted h cluster waiting
  | starvedTick ctx cluster => exact .after (execStarvedTick_keeps (.refl s) ctx cluster (Within.mem _)) (by decide) h
  | move e => exact execMove_noted h e
  | headExport ctx rill frame => exact execHeadExport_noted h ctx rill frame
  | dramRead port block firstBad secondBad second => exact execDramRead_noted h port block firstBad secondBad second
  | dramWrite port block data => exact execDramWrite_noted h port block data
  | partialWrite port addr data firstBad secondBad second => exact execPartialWrite_noted h port addr data firstBad secondBad second
  | bankRefresh channel bank => exact execBankRefresh_noted h channel bank
  | selfRefreshEntry => exact .after (execSelfRefreshEntry_keeps (.refl s) (Within.mem _)) (by decide) h
  | recalStart dmc group => exact execRecalStart_noted h dmc group
  | recalEnd dmc => exact execRecalEnd_noted h dmc
  | recalTimeout dmc => exact execRecalTimeout_noted h dmc
  | trainingCommand dmc channel pattern => exact execTrainingCommand_noted h dmc channel pattern
  | trainingComplete dmc pass => exact execTrainingComplete_noted h dmc pass
  | delayRegisterWrite off val => exact .after (execDelayRegisterWrite_keeps (.refl s) off val (Within.mem _)) (by decide) h
  | tempDrift dmc group temp => exact .after (execTempDrift_keeps (.refl s) dmc group temp (Within.mem _)) (by decide) h
  | bufferAlloc pool => exact execBufferAlloc_noted h pool
  | bufferRelease handle => exact execBufferRelease_noted h handle
  | cacheRefill pool => exact execCacheRefill_noted h pool
  | cisternHostFree fn handle => exact execCisternHostFree_noted h fn handle
  | poolReinitComplete pool => exact execPoolReinitComplete_noted h pool
  | powerGate d => exact .after (execPowerGate_keeps (.refl s) d (Within.mem _)) (by decide) h
  | domainWake d => exact .after (execDomainWake_keeps (.refl s) d (Within.mem _)) (by decide) h
  | domainWakeComplete d => exact .after (execDomainWakeComplete_keeps (.refl s) d (Within.mem _)) (by decide) h
  | operatingPointChange cluster => exact .after (execOperatingPointChange_keeps (.refl s) cluster (Within.mem _)) (by decide) h
  | clockSwitch cluster => exact .after (execClockSwitch_keeps (.refl s) cluster (Within.mem _)) (by decide) h
  | powerSample mw energyUj => exact .after (execPowerSample_keeps (.refl s) mw energyUj (Within.mem _)) (by decide) h
  | capAdjust => exact .after (execCapAdjust_keeps (.refl s) (Within.mem _)) (by decide) h
  | capWindowEnd mw => exact .after (execCapWindowEnd_keeps (.refl s) mw (Within.mem _)) (by decide) h
  | brakeAssert => exact .after (execBrakeAssert_keeps (.refl s) (Within.mem _)) (by decide) h
  | brakeDeassert => exact .after (execBrakeDeassert_keeps (.refl s) (Within.mem _)) (by decide) h
  | clusterRestart cluster => exact .after (execClusterRestart_keeps (.refl s) cluster (Within.mem _)) (by decide) h
  | vrAlertAssert => exact .after (execVrAlertAssert_keeps (.refl s) (Within.mem _)) (by decide) h
  | vrAlertDeassert => exact .after (execVrAlertDeassert_keeps (.refl s) (Within.mem _)) (by decide) h
  | droopDetect cluster mv => exact .after (execDroopDetect_keeps (.refl s) cluster mv (Within.mem _)) (by decide) h
  | droopRecover cluster => exact .after (execDroopRecover_keeps (.refl s) cluster (Within.mem _)) (by decide) h
  | sprintEntry => exact .after (execSprintEntry_keeps (.refl s) (Within.mem _)) (by decide) h
  | sprintBudgetTick => exact .after (execSprintBudgetTick_keeps (.refl s) (Within.mem _)) (by decide) h
  | excursionLimit ampsMilli us => exact .after (execExcursionLimit_keeps (.refl s) ampsMilli us (Within.mem _)) (by decide) h
  | residencyBinTick minute => exact .after (execResidencyBinTick_keeps (.refl s) minute (Within.mem _)) (by decide) h
  | thermalSample temps => exact .after (execThermalSample_keeps (.refl s) temps (Within.mem _)) (by decide) h
  | thermalLimitStep cluster => exact .after (execThermalLimitStep_keeps (.refl s) cluster (Within.mem _)) (by decide) h
  | hardStop => exact .after (execHardStop_keeps (.refl s) (Within.mem _)) (by decide) h
  | flowLostAssert => exact execFlowLostAssert_noted h
  | coolantStopReached => exact .after (execCoolantStopReached_keeps (.refl s) (Within.mem _)) (by decide) h
  | flowLostDeassert => exact .after (execFlowLostDeassert_keeps (.refl s) (Within.mem _)) (by decide) h
  | resume => exact execResume_noted h
  | autoResume => exact execAutoResume_noted h
  | configRequest fn off width write => exact .after (execConfigRequest_keeps (.refl s) fn off width write (Within.mem _)) (by decide) h
  | hostMemoryRequest fn bar off acc => exact execHostMemoryRequest_noted h fn bar off acc
  | vendorDefinedMessage fn body => exact .after (execVendorDefinedMessage_keeps (.refl s) fn body (Within.mem _)) (by decide) h
  | deviceReadFail kind addr => exact execDeviceReadFail_noted h kind addr
  | completionTimeout kind addr => exact execCompletionTimeout_noted h kind addr
  | lateCompletion fn => exact .after (execLateCompletion_keeps (.refl s) fn (Within.mem _)) (by decide) h
  | flrInitiate fn => exact .after (execFlrInitiate_keeps (.refl s) fn (Within.mem _)) (by decide) h
  | dmaSilenced fn => exact execDmaSilenced_noted h fn
  | flrComplete fn => exact execFlrComplete_noted h fn
  | vfEnableSet => exact .after (execVfEnableSet_keeps (.refl s) (Within.mem _)) (by decide) h
  | vfEnableClear => exact .after (execVfEnableClear_keeps (.refl s) (Within.mem _)) (by decide) h
  | d3hotEntry fn => exact .after (execD3hotEntry_keeps (.refl s) fn (Within.mem _)) (by decide) h
  | standbyEntry => exact execStandbyEntry_noted h
  | hotReset boot => exact execHotReset_noted h boot
  | perstAssert => exact execPerstAssert_noted h
  | fundamentalReset boot => exact execFundamentalReset_noted h boot
  | deviceReady => exact execDeviceReady_noted h
  | sourceEdge src rise => exact .after (execSourceEdge_keeps (.refl s) src rise (Within.mem _)) (by decide) h
  | groupDelivery g => exact .after (execGroupDelivery_keeps (.refl s) g (Within.mem _)) (by decide) h
  | holdoffExpire g => exact .after (execHoldoffExpire_keeps (.refl s) g (Within.mem _)) (by decide) h
  | aowMatch slot => exact .after (execAowMatch_keeps (.refl s) slot (Within.mem _)) (by decide) h
  | aowTimerExpire => exact .after (execAowTimerExpire_keeps (.refl s) (Within.mem _)) (by decide) h
  | thymeSet val => exact .after (execThymeSet_keeps (.refl s) val (Within.mem _)) (by decide) h
  | alarmFire k => exact .after (execAlarmFire_keeps (.refl s) k (Within.mem _)) (by decide) h
  | tsyncFrameSend => exact .after (execTsyncFrameSend_keeps (.refl s) (Within.mem _)) (by decide) h
  | tsyncFrameReceive edgeNs bits => exact .after (execTsyncFrameReceive_keeps (.refl s) edgeNs bits (Within.mem _)) (by decide) h
  | tsyncTimeout => exact .after (execTsyncTimeout_keeps (.refl s) (Within.mem _)) (by decide) h
  | snapshotNow => exact .after (execSnapshotNow_keeps (.refl s) (Within.mem _)) (by decide) h
  | snapInEdge => exact .after (execSnapInEdge_keeps (.refl s) (Within.mem _)) (by decide) h
  | snapshotTimeMatch => exact .after (execSnapshotTimeMatch_keeps (.refl s) (Within.mem _)) (by decide) h
  | snapshotComplete => exact .after (execSnapshotComplete_keeps (.refl s) (Within.mem _)) (by decide) h
  | watchdogExpire p => exact .after (execWatchdogExpire_keeps (.refl s) p (Within.mem _)) (by decide) h
  | spdmRequest t code malformed busy request => exact .after (execSpdmRequest_keeps (.refl s) t code malformed busy request (Within.mem _)) (by decide) h
  | mctpMessage b body => exact .after (execMctpMessage_keeps (.refl s) b body (Within.mem _)) (by decide) h
  | writeSlot sub v => exact execWriteSlot_noted h sub v
  | activate sub v => exact .after (execActivate_keeps (.refl s) sub v (Within.mem _)) (by decide) h
  | commit sub => exact .after (execCommit_keeps (.refl s) sub (Within.mem _)) (by decide) h
  | advanceImage => exact .after (execAdvanceImage_keeps (.refl s) (Within.mem _)) (by decide) h
  | writeBoard => exact execWriteBoard_noted h
  | mailboxCommandComplete => exact .after (execMailboxCommandComplete_keeps (.refl s) (Within.mem _)) (by decide) h
  | firmwareSwitch sub engine => exact .after (execFirmwareSwitch_keeps (.refl s) sub engine (Within.mem _)) (by decide) h
  | supplySample vauxMv vddioMv => exact .after (execSupplySample_keeps (.refl s) vauxMv vddioMv (Within.mem _)) (by decide) h
  | vauxApply => exact .after (execVauxApply_keeps (.refl s) (Within.mem _)) (by decide) h
  | aoPorRelease => exact .after (execAoPorRelease_keeps (.refl s) (Within.mem _)) (by decide) h
  | railRemoval r => exact execRailRemoval_noted h r
  | linkUp rate width flit => exact .after (execLinkUp_keeps (.refl s) rate width flit (Within.mem _)) (by decide) h

theorem tick_noted {s : State} (h : Noted s) : Noted s.tick := noted_after (tick_keeps (.refl s) (Within.mem _)) (by decide) h

theorem step_noted {s t : State} (h : Noted s) (stepped : step s = .next t) : Noted t := by
  cases queue : s.pending with
  | nil =>
    obtain rfl := Host.Outcome.next.inj ((step_of_empty queue).symm.trans stepped)
    exact tick_noted h
  | cons c rest =>
    have out := exec_noted c (s := { s with pending := rest }) (noted_mk h)
    rw [← step_of_cons queue, stepped] at out
    exact out

/-- Settles O14: every step keeps what is noted (`step_noted`), and an ending otherwise puts it back (`recalStop_stored`). -/
theorem recalibrationRestoresDelays : Obligations.RecalibrationRestoresDelays :=
  ⟨fun _ _ noted stepped => (step_noted ⟨noted⟩ stepped).all, recalTimeout_restores⟩

end Sys2Proof.Machine
end
